-- ==== Sys2Proof/Word.lean ====
section
/-! DEFINITION. The word types of the fabric: 32-bit register words (R478), 64-bit system time (R175), 64-bit
halves of an event message (R99), and the two barrier and link frame widths (R252, R369). -/

namespace Sys2Proof

/-- A register word (R478). -/
abbrev Word := BitVec 32

/-- System time in ticks, one tick being 250 ps (R16, R175). -/
abbrev Tick := BitVec 64

/-- A Verrath link frame (R252). -/
abbrev LinkFrame := BitVec 160

/-- A barrier frame (R369). -/
abbrev BarFrame := BitVec 152

end Sys2Proof
end

