-- ==== Sys2Proof/Syntax.lean ====
section
/-! DEFINITION. The commands of the block, one constructor per row of the operation table, and the plain types of
their operands. The table gives no operand fields, so each row's operands are read from its rule: the pin, port or
unit number, the access at the register port, the word written, the message or frame that arrives, and the outcome
of a check that the surroundings or the silicon make. -/

namespace Sys2Proof

/-- The event classes (R94). -/
inductive Cls where
  | g | s | f | m
deriving DecidableEq, Repr

/-- An event or control message by its fields (R99, R100). The last two are no fields of the 128 bits: the reflex slot that
the source named when this die accepted the event (R73, R108), without which an event of another die comes; and the stamp
that a class S event keeps its place in line by, where it has replaced an older one here (R96). -/
structure Msg where
  seq : BitVec 24
  origin : BitVec 5
  source : BitVec 13
  dest : BitVec 12
  prio : BitVec 5
  cls : Cls
  rver : BitVec 3
  ts : BitVec 32
  epoch : BitVec 8
  typ : BitVec 6
  aval : Bool
  repres : Bool
  payload : BitVec 16
  slot : Option (BitVec 6) := none
  rank : Option (BitVec 32) := none
deriving DecidableEq, Repr

/-- The outcome of a SECDED check of stored words (R109, R217, R302). -/
inductive Ecc where
  | clean | corrected | uncorrectable
deriving DecidableEq, Repr

/-- The two kinds of instance the model holds (R2): the field die and the host gate of its package. -/
inductive Side where
  | field | host
deriving DecidableEq, Repr

/-- By which port a register access comes (R153, R482, R520, R522). -/
inductive Via where
  | port              -- the register port of the field instance
  | cif (n : Fin 64)  -- core n's own interface, to its own block
  | bar0              -- the host gate's manager window
  | bar2              -- the host gate's slice pages
deriving DecidableEq, Repr

/-- What travels beside a register access: master identifier, debug mark and byte enables, and of a PCI Express request whether
it asks for more than one DW (R478, R482, R520). -/
structure Access where
  via : Via
  mid : BitVec 4
  dbg : Bool
  be : BitVec 4
  more : Bool := false
deriving DecidableEq, Repr

/-- Who writes a message vector (R60). -/
inductive Writer where
  | core (n : Fin 64)
  | dma (tag : Fin 16)
  | campion (n : Fin 64) (irq : Bool)
  | remote (tag : BitVec 24) (die : BitVec 5)
  | barrier (slot : Fin 32)
deriving DecidableEq, Repr

/-- What reaches the die in a thaw: the change of a wired line, with its input, new level and bundle (R203), or the boundary of
a slot of port p, whose link goes on (R244, R248). -/
inductive ThawEvent where
  | wire (n : Fin 1024) (level : Bool) (data : BitVec 16)
  | slot (p : Fin 4)
deriving DecidableEq, Repr

/-- An event of a thaw and the cycle of the thaw in which it falls; of a line, that in which the second stage sees it. -/
structure ThawInput where
  cyc : Nat
  ev : ThawEvent
deriving DecidableEq, Repr

/-- The IDENT content that a port receives, and whether the peer has checked this port's content too (R261, R262). -/
structure PeerIdent where
  content : BitVec 128
  both : Bool
deriving DecidableEq, Repr

/-- A port whose ends have confirmed CREDIT, and the slots that have come after the peer's marker (R251, R261). -/
structure Confirmed where
  p : Fin 4
  slots : Nat
deriving DecidableEq, Repr

/-- A pair mirror, and whether it is the first of a resynchronization to arrive (R307, R316). -/
structure PairMirror where
  msg : Msg
  first : Bool
deriving DecidableEq, Repr

/-- A register whose write may reset a predictor (R160). -/
inductive PredReg where
  | prewarm | pwSrc | pwPer
deriving DecidableEq, Repr

/-- The commands of the block. -/
inductive Instr where
  -- sources and acceptance
  | wiredInputEdge (n : Fin 1024) (level : Bool) (data : BitVec 16) (odd : Bool) (width : Nat)
  | levelReraise (n : Fin 1024)
  | windowOpen (n : Fin 1024)
  | messageWrite (w : Writer) (target : BitVec 5) (vec : BitVec 12) (payload : BitVec 16)
  | offer
  | firnRecordWrite
  | accept
  | pairMirror (m : PairMirror)
  | pairAckRecorded (m : Msg)
  | pairAckRelease (m : Msg)
  | pairAckReleased (m : Msg)
  | pairAckResyncEnd (m : Msg)
  | pairTimeout
  | remoteVectorWrite (m : Msg)
  | remoteWriteResponse (m : Msg)
  -- transport
  | schedulerForward (ecc : List (Fin 24 × Ecc × Ecc))
  | spillBlockWrite (i : Fin 22)
  | moraineRefill (i : Fin 22) (err : Bool)
  | arbiterDecide (a : Fin 23)
  | arbiterRevoke (a : Fin 23)
  | arbiterWithdraw (a : Fin 23) (revoked : Bool)
  | arbiterRefill (a : Fin 23)
  -- delivery to cores
  | pendingAdmit (n : Fin 64) (parity : Bool)
  | vectorCacheFill (k : Fin 16) (ecc : Ecc)
  | cifTake (n : Fin 64)
  | claim (n : Fin 64)
  | claimPeek (a : Access) (n : Fin 64)
  | complete (n : Fin 64) (w : Word)
  | threshWrite (a : Access) (n : Fin 64) (w : Word)
  | warmStart (n : Fin 64) (i : Fin 2)
  | predictorMiss (n : Fin 64) (i : Fin 2)
  | predictorReset (a : Access) (n : Fin 64) (i : Fin 2) (r : PredReg) (w : Word)
  | pwNextWrite (a : Access) (n : Fin 64) (i : Fin 2) (w : Word)
  | cifHaltRise (n : Fin 64)
  | cifHaltFall (n : Fin 64)
  | coreUnitReset (n : Fin 64) (viaPin : Bool)
  -- Campions
  | campionDispatch (n : Fin 64) (ecc : List (Fin 64 × Ecc))
  | lde (n : Fin 64)
  | lda (n : Fin 64) (rdata : Word) (err : Bool) (parity : Bool)
  | sta (n : Fin 64) (parity : Bool)
  | staN (n : Fin 64) (err : Bool) (parity : Bool)
  | addi (n : Fin 64) (parity : Bool)
  | sub (n : Fin 64) (parity : Bool)
  | clamp (n : Fin 64) (parity : Bool)
  | cmp (n : Fin 64) (parity : Bool)
  | br (n : Fin 64)
  | wait (n : Fin 64)
  | waitEnd (n : Fin 64)
  | emit (n : Fin 64) (parity : Bool)
  | emitAnswer (n : Fin 64)
  | emitLateAnswer (n : Fin 64)
  | irq (n : Fin 64) (parity : Bool)
  | ret (n : Fin 64) (parity : Bool)
  | reflexCommit (r : Fin 4) (errs : List Bool)
  | campionWatchdog (n : Fin 64)
  | campRfailGo (a : Access) (r : Fin 4) (loc : BitVec 4)
  | campionUnitReset (n : Fin 64)
  -- time, captures, epochs and the thaw
  | syncInterval (sub : Fin 32)
  | syncReq (p : Fin 4) (frame : LinkFrame) (sub2 sub3 : Fin 32)
  | syncRsp (p : Fin 4) (frame : LinkFrame) (sub4 : Fin 32)
  | alignmentTimeout
  | trimCycle
  | timeLoRead (a : Access)
  | capture (i : Fin 16) (rising : Bool) (odd : Bool) (width : Nat)
  | captureRead (a : Access) (i : Fin 16)
  | thaw (during : List ThawInput)
  | epochPeriodWrite (a : Access) (w : Word)
  | thaw0 (during : List ThawInput)
  | timeUnitReload (u : Fin 21)
  -- Verrath links
  | lnkEnable (a : Access) (p : Fin 4)
  | lnkDisable (a : Access) (p : Fin 4)
  | lnkDownCommand (a : Access) (p : Fin 4)
  | laneEnergyDetect (p : Fin 4)
  | laneLockDone (p : Fin 4)
  | alignDone (p : Fin 4)
  | ident (p : Fin 4) (content : PeerIdent)
  | creditMarker (p : Fin 4)
  | linkUp (p : Confirmed)
  | trainingTimeout (p : Fin 4)
  | downIdleEnd (p : Fin 4)
  | data (p : Fin 4) (frame : LinkFrame)
  | ack (p : Fin 4) (frame : LinkFrame)
  | nak (p : Fin 4) (frame : LinkFrame)
  | ackTimer (p : Fin 4)
  | nakTimeout (p : Fin 4)
  | replayTimeout (p : Fin 4)
  | fecBlockDecode (p : Fin 4) (frames : List LinkFrame) (parity : LinkFrame)
  | laneLockLost (p : Fin 4) (lane : Fin 4)
  | reportSend (p : Fin 4)
  | report (p : Fin 4) (frame : LinkFrame)
  | reportTimeout (p : Fin 4)
  | settleExpire (p : Fin 4)
  | auditVisit (lost : Bool)
  -- exactly-once, recovery and migration
  | handIn (r : Fin 4)
  | replicaComplete
  | fenceDone (m : Msg)
  | fenceConfirm (m : Msg)
  | custodySettleExpire (idx : BitVec 14)
  | fenceRestore (m : Msg)
  | ageProbe (idx : BitVec 14)
  | fenceProbe (m : Msg)
  | fenceAnswer (m : Msg)
  | fenceActing (m : Msg)
  | fenceLoss (m : Msg)
  | partnerNoRouteTimeout (o : BitVec 5)
  | takeoverSettleExpire
  | migrationDrainEnd (slot : Fin 8)
  | fenceMigrate (u : Fin 128)
  | fenceIntake (u : Fin 128)
  | migrationOldTargetEmpty (u : Fin 128) (origin : BitVec 5) (source : BitVec 13)
  | fenceRelease (u : Fin 128)
  | fenceMigrated (m : Msg)
  -- sequence locks and master faults
  | lockAcquire (a : Access) (i : Fin 64)
  | lockRel (a : Access) (i : Fin 64)
  | lockAbort (a : Access) (i : Fin 64)
  | lockBreak (a : Access) (i : Fin 64)
  | lockTimeout (i : Fin 64)
  | masterFault (m : Fin 16) (level : Bool)
  -- Firn scrubber, loader, deep thaw and rime
  | firnScrub (ecc : Ecc)
  | loadStart (a : Access) (persist : Bool)
  | loadAbort (a : Access)
  | loadData (a : Access) (w : Word)
  | loadDataOverrun (a : Access)
  | loadVerifyDone (side : Side)
  | loadRestoreDone (side : Side)
  | persistEraseDone
  | flashFail
  | tableCopyEnd (t : Fin 8)
  | dtGo (a : Access) (r : Fin 4) (hold : Bool)
  | deepThawDrainEnd
  | deepThawCopyEnd
  | rimeCompare (active reference : Ecc) (upset : Word)
  | rdpErase (level : BitVec 2)
  -- the isolation barrier
  | barEnable (a : Access)
  | barDisable (a : Access)
  | barLanesLocked (d : Side)
  | barLaneLockLost (d : Side) (lane : Fin 4)
  | barSilenceTimeout (d : Side)
  | barHelloTimer (d : Side)
  | hello (d : Side) (p : BitVec 128)
  | gateState (p : BitVec 128)
  | fieldState (p : BitVec 128)
  | credit (p : BitVec 128)
  | event (p : BitVec 128)
  | written (p : BitVec 128)
  | discarded (p : BitVec 128)
  | vwrite (p : BitVec 128)
  | vresult (p : BitVec 128)
  | barSyncReq (p : BitVec 128)
  | barSyncRsp (p : BitVec 128)
  | timeTrim (p : BitVec 128)
  | barThaw (p : BitVec 128)
  | meter (p : BitVec 128)
  | meterAck (p : BitVec 128)
  | sealRecord (p : BitVec 128)
  | sliceStop (p : BitVec 128)
  | sliceDrained (p : BitVec 128)
  | sliceGo (p : BitVec 128)
  | rxcred (d : Side) (p : BitVec 128)
  | rxcredTimer (d : Side)
  | echoReq (d : Side) (p : BitVec 128)
  | echoRsp (d : Side) (p : BitVec 128)
  | meterReq (p : BitVec 128)
  | sealReq (p : BitVec 128)
  | barEventRepeat
  | vwriteRepeat
  -- host gate slices and ring writers
  | slcCreate (a : Access) (s : BitVec 8) (pasidEn : Bool)
  | slcOpen (a : Access) (s : BitVec 8)
  | slcReset (a : Access) (s : BitVec 8)
  | slcDestroy (a : Access) (s : BitVec 8)
  | sliceResetTimeout (s : BitVec 8)
  | pgConsWrite (a : Access) (s : BitVec 8) (w : Word)
  | pgArmWrite (a : Access) (s : BitVec 8) (w : Word)
  | pgVwWrite (a : Access) (s : BitVec 8) (w : Word)
  | ringRecordWrite (w : Fin 2)
  | hostReset
  | hostGateSoftReset (a : Access)
  | slcDirtyRead (a : Access) (s : BitVec 8) (w : Fin 17)
  -- Edelweiss
  | meterRecord
  | meterSend (c : Fin 64)
  | meterAckTimeout (c : Fin 64)
  | sealInterval
  | edwCtrlSeal (a : Access)
  | sealGapExpire
  | sealMacDone
  | sealProgramDone
  | edwRestoreDone
  | edwDebugWrite (a : Access) (off : BitVec 12) (w : Word)
  | edwLatchedRead (a : Access) (off : BitVec 12)
  -- power, sleep, reset and start-up
  | pwrReqWake (a : Access) (d : BitVec 5)
  | pwrReqOff (a : Access) (d : BitVec 5)
  | wakeGrant (side : Side)
  | pwrGoodRise (side : Side) (d : Fin 24)
  | domainReleaseEnd (side : Side) (d : Fin 24)
  | domainRampFail (side : Side) (d : Fin 24)
  | pwrGoodFall (side : Side) (d : Fin 24)
  | sleepGo (a : Access)
  | sleepEntryEdge
  | pwrWake
  | sleepMakeup (edges : Word)
  | rstCluster (k : Fin 16)
  | rstRegion (r : Fin 4)
  | rstSoftInstance
  | rstDie
  | rstPackage
  | rstSystem
  | powerOn
  | tclkLock
  | firnInitEnd (errs : List (BitVec 14 × Ecc)) (bistFail : List (BitVec 15))
  | startupLoadEnd
  | linkPhaseEnd
  -- registers, trace, test and the remaining events
  | registerWrite (a : Access) (addr : BitVec 20) (w : Word)
  | stagedViewWrite (a : Access) (off : BitVec 16) (w : Word)
  | bitAliasWrite (a : Access) (off : BitVec 14) (bit : Fin 32) (v : Bool)
  | traceDataRead (a : Access)
  | traceRdptrWrite (a : Access) (w : Word)
  | traceEnable (a : Access)
  | testInject (a : Access) (o : BitVec 5)
  | ltestStart (a : Access)
  | ltestStop (a : Access)
  | registerRead (a : Access) (addr : BitVec 20) (ecc : Ecc)
  | barFrameReject (d : Side) (frame : BarFrame)
  | linkFrameReject (p : Fin 4) (frame : LinkFrame)
  | barTransmitSlot (d : Side)
  | masterPortWriteResponse (trace : Bool) (err : Bool)
  | persistWordProgrammed
  | resetRelease (idPkg : BitVec 3) (idDie : BitVec 2) (testEn : Bool) (rdp : BitVec 2)
  | bscModeChange (level : Bool)
  | checkerLocked (p lane : Fin 4) (errs : Nat)
  | checkerLockLost (p lane : Fin 4) (errs : Nat)
deriving DecidableEq, Repr

end Sys2Proof
end

