-- ==== Sys2Proof/WellFormed.lean ====
section
/-! DEFINITION. Well-formed commands: the checks that the types of Syntax do not make already. An ill-formed command
names no place of the hardware, and its meaning faults with illFormed. -/

namespace Sys2Proof

/-- The access comes by the register port of the field instance (R520). -/
def Access.atPort (a : Access) : Bool := a.via == .port

/-- The access comes by the register port or by core n's own interface (R153, R522). -/
def Access.atCore (a : Access) (n : Fin 64) : Bool := a.via == .port || a.via == .cif n

/-- The access comes by the host gate's manager window (R391, R482). -/
def Access.atBar0 (a : Access) : Bool := a.via == .bar0

/-- The access comes by a slice page of the host gate (R482, R496). -/
def Access.atBar2 (a : Access) : Bool := a.via == .bar2

/-- An access to a register that both kinds of instance have (R391, R494). -/
def Access.atWindow (a : Access) : Bool := a.via == .port || a.via == .bar0

/-- An access through a core's own interface goes to the core's own block (R153, R522). -/
def Access.inBlock (a : Access) (addr : Nat) : Bool :=
  match a.via with
  | .cif n => decide (0x3000 + 0x40 * n.val ≤ addr) && decide (addr < 0x3000 + 0x40 * n.val + 0x40)
  | _ => true

/-- The checks, command by command. -/
def Instr.wf : Instr → Bool
  | .claimPeek a _ | .campRfailGo a .. | .captureRead a _ | .epochPeriodWrite a _ | .lnkEnable a _ | .lnkDisable a _
  | .lnkDownCommand a _ | .lockAcquire a _ | .lockRel a _ | .lockAbort a _ | .lockBreak a _ | .dtGo a .. | .barEnable a
  | .barDisable a | .edwCtrlSeal a | .edwLatchedRead a _ | .sleepGo a | .traceDataRead a | .traceRdptrWrite a _
  | .traceEnable a | .testInject a _ | .ltestStart a | .ltestStop a => a.atPort
  | .threshWrite a n _ | .predictorReset a n .. | .pwNextWrite a n .. => a.atCore n
  | .timeLoRead a | .loadStart a _ | .loadAbort a | .loadData a _ | .loadDataOverrun a | .pwrReqWake a _ | .pwrReqOff a _
  | .stagedViewWrite a .. => a.atWindow
  | .slcCreate a .. | .slcOpen a _ | .slcReset a _ | .slcDestroy a _ | .hostGateSoftReset a | .slcDirtyRead a .. => a.atBar0
  | .pgConsWrite a .. | .pgArmWrite a .. | .pgVwWrite a .. => a.atBar2
  | .edwDebugWrite a .. => a.atPort && a.dbg
  | .registerWrite a addr _ => a.inBlock addr.toNat
  | .registerRead a addr _ => a.inBlock addr.toNat
  | .bitAliasWrite a off .. => a.atWindow && off.toNat % 4 == 0
  | .fecBlockDecode _ frames _ => frames.length == 16
  | _ => true

end Sys2Proof
end

