-- ==== Sys2Proof/Config.lean ====
section
/-! DEFINITION. What one implementation fixes: the capacities of R12 and R13, and the free values, constants
without a body standing for what the spec leaves open. A claim about a free value holds for every value of it. -/

namespace Sys2Proof.Config

/-- Firn records of a field instance (R12, R87). -/
def firnRecords : Nat := 16384
/-- Replay records of the four ports, always in use (R268, R299). -/
def replayRecords : Nat := 1024
/-- The limit of R87 for classes G and M, and of FIRN_STAT.NEAR (R301). -/
def firnNear : Nat := 14336
/-- Entries of one crossbar input buffer of one class (R12, R217). -/
def bufDepth : Nat := 32
/-- Entries of one region lane (R219). -/
def laneDepth : Nat := 8
/-- Offers in flight (R79). -/
def maxOffers : Nat := 64
/-- Outstanding remote writes of a die (R92). -/
def maxRemote : Nat := 32
/-- Entries of the frost-trace ring (R497). -/
def traceDepth : Nat := 2048
/-- Ring record slots of a host gate (R13, R395). -/
def ringSlots : Nat := 65536
/-- The gap between seals, in units of 2^32 ticks (R435). -/
def sealGap : Nat := 3353

/-- FREE VALUE (log entry 8): whether the synchronizer catches a pulse shorter than 3 ticks (R44). -/
opaque pulseCaught : Nat → Bool

/-- FREE VALUE (log entry 8): the half unit of an odd difference in the sync offset (R183) rounds up. -/
opaque thetaRoundsUp : Nat → Bool

/-- FREE VALUE (log entry 8): the whole ticks that source 5,146 reports of an offset with a fraction (R186) are those
above it. -/
opaque wholeTicksUp : Nat → Bool

/-- FREE VALUE (log entry 8): what TIME_RATE becomes after an exchange (R184 gives its aim and no law). -/
opaque timeRate : Nat → BitVec 24

/-- FREE VALUE (log entry 8): the reset generation of a field die, which its HELLO and FIELD_STATE frames carry and no
rule gives (R373). -/
opaque fieldGen : Nat → BitVec 8

/-- FREE VALUE (log entry 46): the level of cif_sleep that core n's surroundings hold at a tick (R154, R172). -/
opaque coreSleeps : Nat → Nat → Bool

/-- FREE VALUE (log entry 8): whether a seal slot whose program was cut fails its MAC check, or is skipped as incomplete
(R438, R439). -/
opaque slotFailsMac : Nat → Bool

/-- FREE VALUE (log entry 8): the cause that a port records when bsc_mode takes it out of UP, which R285 does not list. -/
opaque bscCause : Nat → BitVec 3

/-- FREE VALUE (log entry 8): what a read of a program bank word returns that its check finds uncorrectable (R109). -/
opaque bankRead : Nat → BitVec 32

/-- FREE VALUE (log entry 8): whether a write of REL and ABORT together releases the lock's set (R321 gives each alone). -/
opaque relWins : Nat → Bool

/-- FREE VALUE (log entry 8): where the bare sequence of a lane stands when DETECT begins (R251), by entry and lane. -/
opaque prbsSeed : BitVec 64 → Nat → BitVec 31

/-- FREE VALUE (log entry 8): the Message of a TRAIN frame that sets the peer's transmit FFE in LOCK on long reach, in a slot that
carries one (R261 gives neither the slots nor a layout), by port and time. -/
opaque ffeContent : Nat → BitVec 64 → Option (BitVec 128)

/-- FREE VALUE (log entry 8): the lane and slot markers of a TRAIN frame in ALIGN (R261 gives no layout), by port and time. -/
opaque alignContent : Nat → BitVec 64 → BitVec 128

/-- FREE VALUE (log entry 8): the Message of a TRAIN frame that confirms CREDIT (R261 gives no layout), by port and time. -/
opaque confirmContent : Nat → BitVec 64 → BitVec 128

/-- FREE VALUE (log entry 8): the slots of a marker sector beyond its first (R357 gives the sectors no size). -/
opaque moreMarkerSlots : Nat
/-- The record slots of a marker sector. -/
def markerSlots : Nat := moreMarkerSlots + 1

/-- FREE VALUE (log entry 8): the reflex slot of an event that another die accepted, by origin, source and sequence. Its
source names the slot there (R108), fixed at acceptance (R73), and no field of the message carries it (R99, R100). -/
opaque farSlot : BitVec 5 → BitVec 13 → BitVec 24 → BitVec 6

end Sys2Proof.Config
end

