-- ==== Sys2Proof/Machine/State.lean ====
section
/-! DEFINITION. The state of the block as plain data: a field die and the host gate of its package (R2), the
command queue, and the state right after power-on reset (R461, R468, R489). Sparse stores are lists of key and
value in rising key order without default entries. -/

namespace Sys2Proof.Machine

/-- A sparse table: keys strictly rising, no entry equal to what an unlisted key reads as. -/
abbrev Tbl (α : Type) := List (Nat × α)

/-- What the block drives at its ports during one command (R516, R520 to R534). -/
inductive PortOut where
  | reg (via : Via) (rdata : Word) (err : Option Nat)                 -- a register response, err the cause of R480
  | mw (w : Writer) (refused : Bool) (reason : Nat)                   -- an answer to a message write (R524)
  | act (r : Nat) (addr : BitVec 16) (wdata : Word) (wr rd imm commit flush : Bool)   -- segment pins (R525)
  | slot (p : Nat) (levels : List (List Int))                         -- a slot of port p, by lane and symbol (R250)
  | bar (d : Side) (blocks : List (BitVec 40))                        -- the blocks of a side's four lanes (R369)
  | mpWrite (trace : Bool) (addr : Nat) (words : List Word) (rlx ns : Bool) (cache : BitVec 2)   -- R527
  | mpRead (addr : Nat) (rlx ns : Bool) (cache : BitVec 2)            -- a refill read (R527)
  | ring (w : Nat) (addr : Nat) (words : List Word) (pasid : Option (BitVec 20)) (rlx ns : Bool) (cache : BitVec 2)
  | msix (w : Nat) (vec : Nat)                                        -- an MSI-X write (R407, R529)
  | ld (cmd area addr : Nat) (wdata : Word)   -- a loader port command in a flash area, by its word there (R357, R530)
deriving DecidableEq, Repr

/-- The signals the surroundings hold (R364, R508, R512, R519, R521). -/
structure Pins where
  idPkg : BitVec 3 := 0
  idDie : BitVec 2 := 0
  rdpLevel : BitVec 2 := 0
  rdpErase : Bool := false
  testEn : Bool := false
  bscMode : Bool := false
  capIn : Tbl Bool := []            -- the levels of cap_in as sampled (R44, R189)
  mfault : BitVec 16 := 0
deriving DecidableEq, Repr

/-- Deep sleep (R459, R460). -/
inductive Sleep where
  | awake | entering | asleep | waking
deriving DecidableEq, Repr

/-- System time, captures and the time exchanges (R175 to R192, R208, R459). -/
structure TimeS where
  now : Tick := 0
  running : Bool := false
  sleep : Sleep := .awake
  pwrSleep : Bool := false
  tA : Tick := 0
  latch : Tbl Word := []            -- key: 16 * key of the high word + master (R177, R190, R449)
  units : Tbl Bool := []            -- 0 crossbar, 1 + r region r, 5 + k cluster k: loaded (R176)
  captures : Tbl Tick := []
  capPend : List (Nat × Tick) := []   -- captures whose second-stage cycle has not ended: input and stamp (R189, R191)
  t1 : Tbl (BitVec 64) := []        -- stamps of requests sent, by port, in 1/16 tick (R183)
  waiting : Tbl Bool := []          -- a request is out on the port
  lastStart : Option Tick := none   -- the last exchange began, none since start-up or the wake (R183, R211)
  lastDone : Tick := 0
  exchanged : Bool := false         -- an exchange has completed since start-up
  wakeSync : Bool := false          -- a wake sync is owed (R211)
  wakeHold : Bool := false          -- thaws wait for it (R211)
  sleptFrom : Tick := 0             -- E_k before the sleep (R210)
  sleptNum : BitVec 32 := 0
  sleptPrev : Tick := 0             -- E_(k-1) before the sleep (R540)
  lastTrim : Tick := 0
  slew : Int := 0                   -- phase still to slew, in 1/16 tick (R184)
  rateAcc : Int := 0                -- phase that TIME_RATE has gathered since the last exchange, in 2^-32 tick (R184)
  barT1 : Option (BitVec 64) := none
  lastBar : Tick := 0
  barStep : Bool := true            -- the next TIME_TRIM steps (R387)
deriving DecidableEq, Repr

/-- The epochs of the die (R193 to R195, R540). -/
structure EpochS where
  num : BitVec 32 := 0
  start : Tick := 0
  prev : Tick := 0
  short : Option Tick := none       -- a period write has cut the epoch: the start of the next thaw (R195)
deriving DecidableEq, Repr

/-- An event in a latch (R47, R69, R91). -/
structure Latched where
  stamp : Tick
  payload : BitVec 16
  typ : BitVec 6
  win : BitVec 32                   -- the epoch to whose window the stamp belongs (R67, R540)
  ready : Bool                      -- offerable (R69)
  counted : Bool                    -- its first refusal has been counted (R91)
deriving DecidableEq, Repr

/-- Wired inputs, their latches and those of internal sources (R42 to R49, R66). -/
structure SrcS where
  levels : Tbl Bool := []
  stamps : Tbl Tick := []
  bundles : Tbl (BitVec 16) := []
  latch : Tbl (Option Latched) := []
  marks : Tbl (Option (BitVec 16 × BitVec 6)) := []   -- thaw-pending marks of wired sources: payload and type (R203)
deriving DecidableEq, Repr

/-- What a combiner cell holds besides its record (R53 to R55, R58, R59). -/
structure CellRun where
  ins : BitVec 6 := 0               -- input values of its last evaluation
  f : Bool := false                 -- f of its last evaluation
  fStamp : Tick := 0                -- the stamp f took when it last changed (R54)
  fresh : Bool := true              -- no evaluation since the S0 copy (R59)
  count : BitVec 8 := 0
  lat : Bool := false
  out : Bool := false
  stamp : Tick := 0
  pay : BitVec 16 := 0
  mark : Bool := false              -- thaw-pending mark (R58)
  markStamp : Tick := 0
  markIns : BitVec 6 := 0
deriving DecidableEq, Repr

/-- The Yarrow array: structure words of the four groups (R329, R332) and the cells' run state. -/
structure YarS where
  words : Tbl Word := []            -- 768 * r + structure word
  run : Tbl CellRun := []
deriving DecidableEq, Repr

/-- The place a passing offer reserves (R218). -/
inductive Place where
  | none
  | lane (u : Nat)                  -- a lane entry of the unit, already taken by the A0 message
  | buf (key : Nat)                 -- an entry of crossbar buffer key = 3 * input + class
  | staging (i : Nat)
deriving DecidableEq, Repr

/-- An offer between A0 and the accept point (R79, R82, R83, R85). -/
structure Offer where
  msg : Msg
  writer : Option Writer
  a0 : Tick
  recs : Nat                        -- Firn records reserved and not yet written
  idx : Option Nat                  -- the event record, once written
  ack : Bool                        -- the local acknowledgement has been written
  partner : Option (BitVec 5)
  partnerAck : Bool
  place : Place
  need : List (BitVec 12)           -- destinations whose completion the record awaits
  early : List (BitVec 12 × BitVec 5)   -- completions reported before the accept point, and the die (R105)
deriving DecidableEq, Repr

/-- A write in a message-write channel (R60, R63, R524). -/
structure WriteReq where
  writer : Writer
  vec : BitVec 12
  payload : BitVec 16
  stamp : Option Tick               -- none while it waits for the end of a thaw (R84, R470)
  win : BitVec 32                   -- the epoch in which it was stamped (R100)
deriving DecidableEq, Repr

/-- A remote write that waits in its channel (R92). -/
structure RemoteWait where
  writer : Writer
  target : BitVec 5
  vec : BitVec 12
  payload : BitVec 16
deriving DecidableEq, Repr

/-- The VWRITE last taken in a slot, and its stored result (R381). -/
structure VRes where
  gen : Bool
  result : Option (Bool × Nat)
deriving DecidableEq, Repr

/-- A remote write of this die that awaits its response (R92). -/
structure RemoteOut where
  tag : BitVec 24
  writer : Writer
deriving DecidableEq, Repr

/-- The acceptance unit (R77 to R92, R97). -/
structure AccS where
  counters : Tbl (BitVec 24) := []
  offers : List Offer := []
  writes : List WriteReq := []
  unreach : Tbl Bool := []          -- partner marks by origin-die value (R86)
  remote : List RemoteOut := []
  remoteWait : List RemoteWait := []
  nextTag : BitVec 24 := 0
  vres : Tbl (Option VRes) := []    -- by slot (R381)
deriving DecidableEq, Repr

/-- The kinds of Firn records besides the replay buffers (R299). -/
inductive RecKind where
  | event | mirror | custody
deriving DecidableEq, Repr

/-- A Firn record with its tag (R299). -/
structure FirnRec where
  kind : RecKind
  msg : Msg
  need : List (BitVec 12) := []     -- event: replicas not yet completed
  came : List (BitVec 12) := []     -- event: replicas whose DONE has come, as it named them (R305)
  again : Bool := false             -- event: sent again since the LOSS of the old target of its migration (R320)
  donors : List (BitVec 5) := []    -- event: dies that reported done (R305)
  partner : Option (BitVec 5) := none
  accepted : Bool := true
  releasing : Bool := false         -- waits for RELEASED (R305)
  acting : Bool := false            -- a mirror turned into an acting event record (R317)
  since : Tick := 0                 -- acceptance or last probe (R312)
  absent : List (BitVec 12) := []
  place : Nat := 0                  -- custody: unit key, 128 for the barrier
  moved : Option (BitVec 12) := none    -- custody: the target to which its event travels (R303, R319)
  done : Bool := false              -- custody: marked done (R305)
  settle : Option Tick := none      -- custody of a flagged event: freed PSETTLE after this
  gen : Bool := false               -- custody: tag generation (R374)
  sent : Option Tick := none        -- custody: the EVENT was last sent (R380)
  sentGen : Option (BitVec 8) := none   -- custody: peer GEN under which it was sent (R385)
  pendAgain : Option Bool := none   -- custody: it waits to be sent again, flagged or not (R380, R385)
  kept : Bool := false              -- mirror: written in the resynchronization under way from its origin (R316)
  poisoned : Bool := false
deriving DecidableEq, Repr

/-- The Firn journal (R299 to R305). -/
structure FirnS where
  recs : Tbl (Option FirnRec) := []
  writes : List (BitVec 13 × BitVec 24) := []   -- offers whose record crosses to Firn: source, sequence
  dones : List Msg := []                        -- completions crossing to Firn
  scrub : BitVec 14 := 0
  tagGen : Tbl Bool := []
deriving DecidableEq, Repr

/-- Where a replica leaves the crossbar (R216, R275, R276). -/
inductive Route where
  | out (o : Nat)
  | noPort (entry : Nat)            -- its routing entry has no usable port
  | noRoute                         -- no valid entry at either version
  | held (p : Nat)                  -- held by the resolution of port p (R286)
deriving DecidableEq, Repr

/-- A stored message with the replicas it owes (R217, R231). -/
structure XEntry where
  msg : Msg
  owed : List (BitVec 12 × Route)
  order : Nat
  restored : Bool := false          -- a copy restored from this die's own custody record (R306, R310)
  res : Option Nat := none          -- re-entered by the resolution of this port (R288)
deriving DecidableEq, Repr

/-- A message that waits to enter the crossbar through input 21 (R213, R224). -/
structure RecEntry where
  msg : Msg
  restored : Bool := false
  res : Option Nat := none
deriving DecidableEq, Repr

/-- The crossbar, its buffers and Moraine (R213 to R231). -/
structure XbS where
  bufs : Tbl (List XEntry) := []    -- key 3 * input + class
  resv : Tbl Nat := []              -- reserved places by buffer key
  gptr : Tbl Nat := []
  aptr : Tbl Nat := []
  staging : Tbl (List XEntry) := []
  rings : Tbl (List (Nat × List XEntry)) := []   -- by input: block number in the ring and messages, oldest first
  tails : Tbl Nat := []             -- by input: number of the next block written (R226)
  spillOut : List (Nat × Nat) := [] -- spill writes awaiting mp_bresp: input and block, oldest first
  stopped : Bool := false
  full : Tbl Bool := []
  serial : Nat := 0
  ctl : List Msg := []
  recIn : List Msg := []
  ctlHold : List Msg := []          -- messages that wait to enter input 22 (R224)
  recHold : List RecEntry := []     -- messages that wait to enter input 21
  retHold : Tbl (List Msg) := []    -- by region: messages that wait to enter its region return (R319)
  barHold : List Msg := []          -- messages that wait to enter input 20 (R379)
  reflex : List Nat := []           -- regions whose crossing an A0 took in this cycle (R222)
deriving DecidableEq, Repr

/-- A message in a crossing toward a region, bound for the lane of unit u (0 to 63 cores, 64 to 127 Campions). -/
structure XMsg where
  msg : Msg
  u : Nat
  since : Tick := 0                 -- when it entered (R32, R198)
  dup : Bool := false               -- a flagged copy whose identity has a custody record already (R306)
  restored : Bool := false
deriving DecidableEq, Repr

/-- A stream that a migration has moved from unit u to another target (R319). -/
structure Redirect where
  u : Nat
  origin : BitVec 5
  source : BitVec 13
  target : BitVec 12
  seq : BitVec 24
  cls : Cls
deriving DecidableEq, Repr

/-- A stream that a migration blocks at unit u, and the die of its old target (R319, R320). -/
structure Blocked where
  u : Nat
  origin : BitVec 5
  source : BitVec 13
  sender : BitVec 5
  seq : BitVec 24
deriving DecidableEq, Repr

/-- Region queues and the crossings around them (R31, R219, R319). -/
structure RqS where
  crossing : Tbl (List XMsg) := []      -- by region
  lanes : Tbl (List Msg) := []          -- by unit key
  laneResv : Tbl Nat := []
  toClus : Tbl (List (Nat × Msg)) := [] -- by cluster: core and message
  blocked : List Blocked := []
  redirect : List Redirect := []
deriving DecidableEq, Repr

/-- A transfer that holds an arbitrated port (R233 to R240). -/
structure Xfer where
  j : Nat
  beats : Nat
  done : Nat
  f : Bool
  granted : Bool := true            -- not a resumption
  due : Nat := 0                    -- beats whose cycles have come, the present one's among them (R236)
deriving DecidableEq, Repr

/-- A shared arbiter (R233 to R242). -/
structure Arb where
  credit : Tbl Int := []
  gphase : Nat := 0
  next : Nat := 0                   -- where the rotation stands: one past the last winner
  holder : Option Xfer := none
  revoked : Option Xfer := none
  waits : Tbl Nat := []             -- cycles of the present wait
  spans : Tbl Nat := []             -- cycles since the request rose
  ranks : Tbl Nat := []
  scope : Bool := false             -- a reset or wake of its scope is being restored (R472)
  aging : Bool := true              -- the mode of its last decision, refill or cycle
  hints : Tbl Nat := []
  n : Nat := 8                      -- N, WINDOW and HINTEN in force since the last decision (R237, R241)
  window : Nat := 256
  hintEn : Bool := true
  since : Nat := 0                  -- cycles since the last refill (R234)
deriving DecidableEq, Repr

/-- A core's delivery state (R146 to R152, R171). -/
structure CoreS where
  pend : List Msg := []             -- the pending set without the taken events
  taken : List Msg := []            -- most recent first
  active : List Msg := []           -- innermost first
  halt : Bool := false
  irqLow : Bool := false            -- the cycle after a take (R150)
deriving DecidableEq, Repr

/-- The states a predictor holds (R160 to R162). Off and pinned follow from the enables and PIN. -/
inductive PredState where
  | learning | locked
deriving DecidableEq, Repr

/-- A predictor's hidden state (R162). PER and NEXT stand in the register words. -/
structure Pred where
  st : PredState := .learning
  havePrev : Bool := false
  prev : BitVec 32 := 0
  conf : Nat := 0
  misses : Nat := 0
  nextValid : Bool := false
  warm : Bool := false
  warmAt : Tick := 0                -- the start of the warm
deriving DecidableEq, Repr

/-- A vector-cache line (R157, R159). -/
structure Line where
  src : BitVec 13
  entry : Word
  ctx : Word
  once : Bool := false              -- filled with the fallback descriptor, not kept after the offer
deriving DecidableEq, Repr

/-- A cluster's vector cache, most recently used line first, and its fills (R157, R158). -/
structure ClusS where
  lines : List Line := []
  fills : List (Nat × BitVec 13) := []   -- core and source
  shown : List (BitVec 13) := []    -- the sources whose fallback line is being offered (R159)
deriving DecidableEq, Repr

/-- A queued reflex (R113, R128). -/
structure QEntry where
  msg : Msg
  runs : Nat
deriving DecidableEq, Repr

/-- What a running reflex waits for (R120, R121). -/
inductive Hold where
  | none
  | wait (target : BitVec 32)
  | emit (wd : Nat)
deriving DecidableEq, Repr

/-- A running reflex (R111). -/
structure Run where
  msg : Msg
  w : List Word
  lt : Bool := false
  eq : Bool := false
  loop : Nat := 0
  stage : List (BitVec 16 × Word) := []
  irqs : List (BitVec 12 × BitVec 16) := []
  prog : List (Option Word)         -- none: an uncorrectable bank word
  pc : Nat := 0
  runs : Nat
  cycles : Nat := 0
  d : Tick                          -- the dispatch cycle
  slot : BitVec 6                   -- the slot of its program (R108)
  hold : Hold := .none
  stood : Nat := 0                  -- STA.N and EMIT of this run (R129)
deriving DecidableEq, Repr

/-- An EMIT whose answer is awaited (R121). -/
structure EmitOut where
  vec : BitVec 12
  issued : Tick
  mine : Bool                       -- the reflex that issued it still holds for it
  late : Bool := false              -- the answer came after the bound
  answer : Option (Bool × Nat) := none
deriving DecidableEq, Repr

/-- A Campion, by logical index (R23, R111 to R114, R137). -/
structure CampS where
  run : Option Run := none
  q : List QEntry := []
  failed : Option (BitVec 2) := none
  emits : List EmitOut := []
deriving DecidableEq, Repr

/-- A burst handed to the segment controller (R123). -/
structure Burst where
  camp : Nat
  msg : Msg
  stage : List (BitVec 16 × Word)
  irqs : List (BitVec 12 × BitVec 16)
deriving DecidableEq, Repr

/-- A region's segment controller and its spare (R132, R138 to R141). -/
structure SegS where
  bursts : List Burst := []
  rot : Nat := 0
  spare : Option Nat := none        -- the held spare, local index
  took : Option Nat := none         -- the index the spare has taken, local index
  tookSpare : Nat := 0              -- the physical spare that took it
  defer : Bool := false
  flush : Bool := true              -- act_flush is held, as it is while the region queue domain is not ON (R131, R140)
deriving DecidableEq, Repr

/-- The port states (R261). -/
inductive LnkState where
  | off | detect | lock | align | ident | credit | up | down
deriving DecidableEq, Repr

/-- A Verrath port (R261 to R292). -/
structure PortS where
  st : LnkState := .off
  locked : BitVec 4 := 0
  since : Tick := 0                 -- entry into the present state
  idleFrom : Option Tick := none    -- when the transmitter went idle, if it has run
  everUp : Bool := false            -- an UP period since the die's reset (R262)
  fell : Bool := false              -- it has gone down with source 5,128 + p since the die's reset (R187, R285)
  noRetrain : Bool := false         -- cause 6 (R262)
  tx : List Msg := []
  unacked : List (BitVec 8 × Msg) := []    -- replay buffer, oldest first
  poisoned : List (BitVec 8) := []  -- its poisoned records, by sequence (R302)
  next : BitVec 8 := 0
  acked : BitVec 8 := 0xFF
  expect : BitVec 8 := 0
  nak : Option Tick := none         -- a NAK is outstanding since
  rx : List Msg := []
  infl : Tbl Nat := []              -- in flight by class code (R266)
  owe : Tbl Nat := []               -- credit to return by class code (R255)
  sinceAck : Nat := 0               -- DATA frames taken since the last ACK
  ackFrom : Tick := 0               -- when the first of them was taken (R270)
  failRun : Nat := 0
  replay : Option Nat := none       -- position in unacked of the next frame to resend
  replayFrom : Option (BitVec 8) := none
  replayRuns : Nat := 0
  progress : Tick := 0              -- last ACK progress
  ctl : List LinkFrame := []        -- ACK, NAK, SYNC and REPORT frames waiting, oldest first
  sub1 : Nat := 0                   -- units of 1/16 tick at which a sync request and a response leave in their cycle (R183)
  sub3 : Nat := 0
  checked : Bool := false           -- the peer's IDENT content has passed here (R261)
  resolving : Bool := false
  downAt : Tick := 0
  reports : Nat := 4                -- REPORTs sent of the last down
  lastReport : Tick := 0
  entered : Bool := false           -- the resolution has entered its frames through input 21 (R288)
  resolved : Option Tick := none    -- input 21 has forwarded all of them since
  noneRx : Bool := true             -- no frame has been received in this UP period
  lastRx : BitVec 8 := 0xFF         -- L of the last UP period, and whether it received no frame (R262, R287)
  lastNone : Bool := true
  group : List LinkFrame := []      -- frames of the present parity group (R257)
  fec : List LinkFrame := []        -- frames the decoder has passed
  scrTx : List (BitVec 31) := []    -- scrambler states by lane (R251)
  scrRx : List (BitVec 31) := []
deriving DecidableEq, Repr

/-- The crevasse audit (R293, R294). -/
structure AuditS where
  pos : Nat := 0
  found : List Nat := []            -- positions found neither free nor held at their last visit
deriving DecidableEq, Repr

/-- A migration slot (R318, R319). -/
structure MigSlot where
  source : BitVec 13
  old : BitVec 12
  new : BitVec 12
  phase : BitVec 2 := 0
  first : BitVec 24
  lost : Bool := false              -- the die of the old target is lost (R320)
deriving DecidableEq, Repr

/-- The recovery engine (R305, R311 to R320). -/
structure RecS where
  mig : Tbl (Option MigSlot) := []
  gated : List (BitVec 13 × BitVec 12 × BitVec 12) := []   -- waiting for a slot: source, old and new target
  oldCls : Tbl (Option Cls) := []               -- by source: the class in force until its migration ends (R318)
  resync : List (BitVec 5 × List (BitVec 13 × BitVec 24) × Bool) := []   -- partner, events and end whose RECORDED is awaited
  resyncIn : List (BitVec 5) := []  -- origins whose resynchronization of this die has begun (R316, log entry 13)
  actmap : Tbl (Option (BitVec 5)) := []        -- acting origin by origin die (R315)
  acting : Option (BitVec 5 × Tick) := none     -- takeover under way: origin, since
  actMore : List (BitVec 5 × Tick) := []        -- further takeovers under way, oldest first (R317)
  noRoute : Tbl (Option Tick) := []             -- by origin of mirror records: no usable port toward it since (R317)
  owed : Bool := false                          -- recovery steps of R315, R471 still to run
  sending : List Msg := []                      -- messages of those steps not yet sent (R473)
deriving DecidableEq, Repr

/-- A sequence lock (R321 to R323). -/
structure LockS where
  owner : BitVec 4 := 0
  held : Bool := false
  broken : Bool := false
  bcause : BitVec 2 := 0
  ovf : Bool := false
  set : List (Nat × Word) := []
  since : Tick := 0
deriving DecidableEq, Repr

/-- The loader's states (R340). -/
inductive LoadState where
  | idle | erase | header | body | verify | ready | error | restore
deriving DecidableEq, Repr

/-- The chunk now taken by the loader (R328). -/
structure Chunk where
  space : Nat
  left : Nat
  at_ : Nat
deriving DecidableEq, Repr

/-- A load (R325 to R347). -/
structure LoadS where
  st : LoadState := .idle
  err : Nat := 0
  fifo : List Word := []            -- oldest first
  words : List Word := []           -- words drained, newest first
  taken : Nat := 0
  chunk : Option Chunk := none
  chunkHi : Option Word := none     -- first word of a chunk header
  held : List (Nat × Nat × Word) := []     -- space, word index, value; newest first
  parts : List Nat := []            -- parts of a READY load still to commit: 0x10 + r S0, 0x30 + r S2, 1 the rest, 0x40 S5
  committed : Bool := false         -- some part has committed, or the marker is written
  boot : Bool := false
  twin : Bool := false              -- the boot load of the twin (R359)
  persist : Bool := false
  blk : Bool := false               -- the block booted from or persisted to: false A, true B
  erased : Bool := false            -- the erase of a persist has begun
  busy : Bool := false              -- a program of the flash, or an erase for a marker, is in progress
  mark : List Word := []            -- words of the marker record still to program (R358, R360)
  sector : Bool := false            -- the marker sector it goes to: false M0, true M1
  markErase : Bool := false         -- that sector is being erased first
  s0 : Bool := false                -- start-up has copied its S0 groups (R352)
  wait : Option (Access × Word × Tick) := none   -- a LOAD_DATA write that the port holds, and since when (R342, R520)
deriving DecidableEq, Repr

/-- The configuration image and its stores (R325 to R366). -/
structure ImgS where
  active : Tbl Word := []           -- key 65536 * space + word index: tables and banks in force
  half : Tbl Word := []             -- the load halves, the S0 load area and the S5 words of a load, by the same keys
  copies : List Nat := []           -- spaces being copied (R348)
  load : LoadS := {}
  hload : LoadS := {}               -- the host gate's loader
  flashA : List Word := []          -- boot block A, as the words programmed; empty is blank
  flashB : List Word := []
  torn : Tbl Bool := []             -- by block, A 0 and B 1: an erase has begun and not ended (R362)
  mark0 : List (List Word) := []    -- marker sectors M0 and M1: records in slot order, by the words programmed (R358)
  mark1 : List (List Word) := []
  otp : Tbl Word := []
  dtPhase : Nat := 0
  dtRegion : Nat := 0
  dtHold : Bool := false
deriving DecidableEq, Repr

/-- Rime (R353 to R356). -/
structure RimeS where
  pos : Nat := 0
  marks : List (Nat × Nat) := []    -- area and index marked for restore
  ref : Tbl (Option Word) := []     -- reference words that differ from the active ones: by offset, then 65536 + structure word
deriving DecidableEq, Repr

/-- A wake request at the wake-budget arbiter (R456). -/
structure WakeReq where
  d : Nat
  cls : Nat                         -- 0 class F, 1 demand, 2 warm
  age : Nat                         -- the tick of its arrival
  sw : Bool                         -- written to PWR_REQ (R455)
deriving DecidableEq, Repr

/-- The power domains and the wake budget (R450 to R458). -/
structure PwrS where
  st : Tbl (BitVec 2) := []
  good : Tbl Bool := []
  since : Tbl Tick := []            -- when the domain was granted
  tokens : Tbl (Nat × Bool) := []   -- tokens held, and whether for a warm
  reqs : List WakeReq := []
  delayed : List Nat := []          -- domains whose request has waited for tokens
  resets : List Nat := []           -- clusters and regions whose reset waits for the domain (R464)
deriving DecidableEq, Repr

/-- Start-up (R468 to R473). -/
structure SuS where
  phase : Nat := 0
  open_ : Bool := false
  recov : Bool := true
  hold : Bool := false              -- a reset input is asserted
  holdPhase : Nat := 0              -- the phase in which start-up begins at its release
  cold : Bool := true
  soft : Bool := false              -- phase LOAD is skipped
  linkFrom : Tick := 0
  bist : Bool := false              -- the self-test of R513 runs in this phase FIRN
  booted : Bool := false            -- the boot load has begun (R359, R439)
  gens : Nat := 0                   -- die resets since power-on
deriving DecidableEq, Repr

/-- The barrier states (R375). -/
inductive BarState where
  | down | hello | up
deriving DecidableEq, Repr

/-- One side of the barrier (R375, R376, R378, R383). -/
structure BarS where
  st : BarState := .down
  locked : BitVec 4 := 0
  stuck : Bool := false             -- cause 5 holds HELLO until EN is written 0
  credit : Nat := 16                -- credited frames it may still send
  rxUsed : Nat := 0                 -- entries of its receive buffer in use
  freed : Nat := 0                  -- entries freed and not yet returned
  lastRxcred : Tick := 0
  lastHello : Tick := 0
  sent : BitVec 32 := 0
  crcFails : BitVec 16 := 0
  failRun : Nat := 0
  lastRx : Tick := 0
  urgent : List (BitVec 8 × BitVec 128) := []   -- RXCRED, HELLO, SYNC frames ready
  ctl : List (BitVec 8 × BitVec 128) := []      -- other control frames ready, oldest first
  peerGen : Option (BitVec 8) := none           -- GEN of this UP period
  lastGen : BitVec 8 := 0
  run : Bool := false
  scr : List (BitVec 58) := []      -- scramblers of the sending lanes (R370)
  owe : Bool := false               -- the records of the last UP period are still to be sent again (R385)
deriving DecidableEq, Repr

/-- Field die 0's host-bound traffic (R377 to R388). -/
structure HostQ where
  credit : Tbl Nat := []            -- slice credit
  queue : Tbl (List Nat) := []      -- by slice: custody indexes to send
  live : List Nat := []             -- custody indexes without a report, in queue order
  unrep : List Nat := []            -- those sent and not waiting to be sent again, in order of sending
  rot : Nat := 0
  stops : List (Nat × List Nat × Nat) := []     -- slice, records to send first, records sent since (R373)
deriving DecidableEq, Repr

/-- Slice states (R393). -/
inductive SlcState where
  | free | open_ | stopping | closed | fault
deriving DecidableEq, Repr

/-- A record in a ring writer's queue (R404). -/
structure RingRec where
  msg : Msg
  tag : BitVec 15
  q : BitVec 32
deriving DecidableEq, Repr

/-- A tenant slice (R393 to R412). -/
structure Slice where
  st : SlcState := .free
  prod : BitVec 32 := 0
  cons : BitVec 32 := 0
  granted : Nat := 0
  arm : Bool := false
  q : List RingRec := []
  kept : List (Msg × BitVec 15) := []   -- STOPPING: events without a slot (R410)
  stopAt : Tick := 0
  rstFree : Bool := false               -- RSTTMO has passed (R412)
  fromFault : Bool := false             -- RESET from FAULT (R411)
  drained : Bool := false
  vwSlot : Option Nat := none
  size : Nat := 0                       -- what it took of the pool at CREATE: slots, vectors, meter channel (R396)
  vecs : Nat := 0
  meter : Bool := false
deriving DecidableEq, Repr

/-- A VWRITE slot of the host gate (R381). -/
structure VwSlot where
  gen : Bool := false
  busy : Option (BitVec 8) := none      -- the slice whose write is outstanding
  payload : BitVec 128 := 0
  sentAt : Tick := 0
deriving DecidableEq, Repr

/-- An entry of the host gate's tag table (R380, R401). -/
inductive TagEntry where
  | none
  | queued (gen : Bool)
  | done (gen : Bool)
deriving DecidableEq, Repr

/-- The host gate (R38, R390 to R414, R474 to R476). -/
structure GateS where
  bar : BarS := {}
  slices : Tbl Slice := []
  tags : Tbl TagEntry := []
  vw : Tbl VwSlot := []
  gen : BitVec 8 := 0
  now : Tick := 0                       -- the time copy
  clk : Tick := 0                       -- ticks of its own clock since its reset, which no TIME_TRIM moves (R188)
  slew : Int := 0
  lastSlew : Tick := 0                  -- the last tick slewed, by its own clock (R387)
  edwOnce : Bool := false               -- HEDW_CFG has been written once (R331)
  writtenTags : List (BitVec 15) := []  -- tags of the next WRITTEN frame
  discTags : List (BitVec 15) := []     -- tags of the next DISCARDED frame
  msix : List (Nat × Nat) := []         -- queued notifications: writer, vector
  pasidEn : Bool := false               -- PASID Enable of the function, at the last CREATE (R395)
  held : List (BitVec 128) := []        -- EVENTs in the receive buffer, which a full intake holds (R404)
  half : Tbl Bool := []                 -- by 16 * writer + group: the first beat of a record has passed (R405)
  cur : Tbl (Option (Nat × Nat)) := []  -- by 16 * writer + group: the slice of a transfer and the records left
  saved : Tbl (Option (Nat × Nat × Bool)) := []   -- the same of a revoked transfer, with its half record (R240)
  restop : Bool := false                -- SLICE_STOP is owed again (R413)
  served : Tbl Nat := []                -- last slice served, by 16 * writer + group
  mirror : Tbl (BitVec 64 × BitVec 32) := []
  everUp : Bool := false
  sealSeen : Bool := false              -- a SEAL frame has been stored since reset
  fieldOpen : Bool := false
  fieldAlost : Bool := false
  pwrE : BitVec 2 := 0                  -- the state of domain 3 (R451, R474)
  pwrGood : Bool := false
  pwrReq : Bool := false
  pwrSince : Tick := 0
  aging : Bool := true
deriving DecidableEq, Repr

/-- A meter channel (R428, R430, R445). -/
structure Chan where
  value : Int := 0
  count : BitVec 32 := 0
  ovf : Bool := false
  acked : Option (BitVec 32) := none
  lastMeter : Option Tick := none
  out : Bool := false
deriving DecidableEq, Repr

/-- A seal record (R433). -/
structure SealRec where
  tamper : BitVec 2
  cnt : BitVec 64
  time : Tick
  cfg : List Word
  values : List Int
  mac : BitVec 256
deriving DecidableEq, Repr

/-- The step of a seal under way (R436, R438). -/
inductive SealStep where
  | idle | mac | program (retry : Bool)
deriving DecidableEq, Repr

/-- The Edelweiss partition (R425 to R445). -/
structure EdwS where
  chan : Tbl Chan := []
  cfg : Bool := false
  sealed_ : Bool := false
  due : Bool := false
  held : Bool := false              -- a trigger waits for the gap
  tdue : Bool := false              -- a tamper seal waits for the seal under way
  scan : Bool := false              -- the slots are being read (R439)
  step : SealStep := .idle
  first : Bool := false             -- the seal under way is the first seal (R440)
  rec_ : Option SealRec := none
  lastCap : Option Tick := none
  cnt : BitVec 64 := 0
  sectors : Tbl (List (Option SealRec)) := []   -- by sector: used slots in order, none a cut program (R437)
  sector : Nat := 0
  inbox : List Msg := []
  asks : List (BitVec 8 × BitVec 128) := []     -- barrier frames that wait in the crossing for the island (R36, R445)
  meters : List Nat := []           -- the meter inputs as S5 named them when the domain last went off (R74, R432)
deriving DecidableEq, Repr

/-- A trace entry (R497). -/
structure TrEntry where
  w0 : Word
  w1 : Word
  w2 : Word
  w3 : Word
deriving DecidableEq, Repr

/-- The frost trace (R497 to R506). -/
structure TrcS where
  ring : List TrEntry := []         -- unread entries, oldest first
  queue : List TrEntry := []        -- the writer queue
  ptr : BitVec 13 := 0
  badHead : Bool := false           -- a word of the oldest entry was uncorrectable when read (R506)
  eseq : BitVec 16 := 0
  frozen : Bool := false
  trig : Option Nat := none         -- entries still to record after the trigger
  refusals : Nat := 0
  dbStop : Bool := false
  dbArmed : Bool := true
  dbDue : Nat := 0                  -- doorbell records still to write
  dbOut : Nat := 0                  -- doorbell writes awaiting mp_bresp
deriving DecidableEq, Repr

/-- The pattern checkers of the lanes (R511). -/
structure TstS where
  locked : Tbl Bool := []           -- key 4 * port + lane
  errs : Tbl Nat := []
  gen : List (BitVec 31) := []      -- the pattern generators of the lanes under test, lane 0 first (R510)
deriving DecidableEq, Repr

/-- The state of the block. -/
structure State where
  pending : List Instr := []
  out : List PortOut := []
  fresh : Nat := 0
  shape : List Nat := [0, 1, 2, 3]      -- the origin-die values that exist, host dies included (R14, R25)
  pins : Pins := {}
  regs : Tbl Nat := []                  -- register fields: key 32 * offset + low bit; unlisted, the Reset column (R489)
  staged : Tbl (Option Nat) := []       -- staged fields by the same keys (R490)
  once : Tbl Bool := []                 -- W1 words written since their reset, by offset (R487)
  time : TimeS := {}
  epoch : EpochS := {}
  src : SrcS := {}
  yar : YarS := {}
  acc : AccS := {}
  firn : FirnS := {}
  xb : XbS := {}
  rq : RqS := {}
  arb : Tbl Arb := []
  core : Tbl CoreS := []
  pred : Tbl Pred := []                 -- key 2 * core + i
  clus : Tbl ClusS := []
  camp : Tbl CampS := []
  seg : Tbl SegS := []
  lnk : Tbl PortS := []
  audit : AuditS := {}
  rec_ : RecS := {}
  lock : Tbl LockS := []
  img : ImgS := {}
  rime : RimeS := {}
  pwr : PwrS := {}
  su : SuS := {}
  bar : BarS := {}
  hostq : HostQ := {}
  gate : GateS := {}
  edw : EdwS := {}
  trc : TrcS := {}
  tst : TstS := {}
deriving DecidableEq, Repr

/-- Why a step stops. -/
inductive Fault where
  /-- Raised by a command whose operands name no place of the hardware (see WellFormed). Safe: nothing is claimed
  of such a command. -/
  | illFormed
deriving DecidableEq, Repr

/-- Why a command has no meaning. -/
inductive Refusal where
  /-- A command that has no meaning yet: raised by an arm of Dispatch only. Safe. -/
  | notModelled (mnemonic : String)
deriving DecidableEq, Repr

/-- The block right after power-on: start-up phase AON (R461, R468), every register at its Reset column (R489). -/
def State.reset : State := {}

end Sys2Proof.Machine
end

