-- ==== Sys2Proof/Machine/Bits.lean ====
section
/-! DEFINITION. Bit fields of messages and addresses, comparisons modulo a power of two, and the sparse tables. -/

namespace Sys2Proof.Machine

-- sparse tables

/-- The entry of key i; d when the table lists none. -/
def tget {α : Type} (d : α) : Tbl α → Nat → α
  | [], _ => d
  | (k, v) :: t, i => if k = i then v else tget d t i

/-- The table without the entry of key i. -/
def tdel {α : Type} (t : Tbl α) (i : Nat) : Tbl α := t.filter fun e => e.1 != i

/-- The table with an entry put before the first higher key. -/
def tput {α : Type} : Tbl α → Nat → α → Tbl α
  | [], i, v => [(i, v)]
  | (k, w) :: t, i, v => if i < k then (i, v) :: (k, w) :: t else (k, w) :: tput t i v

/-- The table with the entry of key i set to v; an entry equal to d is not listed. -/
def tset {α : Type} [DecidableEq α] (d : α) (t : Tbl α) (i : Nat) (v : α) : Tbl α :=
  if v = d then tdel t i else tput (tdel t i) i v

/-- The canonical form: keys strictly rising and no entry equal to d. -/
def twf {α : Type} [DecidableEq α] (d : α) : Tbl α → Bool
  | [] => true
  | [(_, v)] => v != d
  | (k, v) :: (k', v') :: t => v != d && decide (k < k') && twf d ((k', v') :: t)

-- numbers

/-- The field of width w at bit lo. -/
def bits (x lo w : Nat) : Nat := x / 2 ^ lo % 2 ^ w

/-- Bit k. -/
def bit (x k : Nat) : Bool := x / 2 ^ k % 2 == 1

/-- A flag as a number. -/
def b2n (b : Bool) : Nat := if b then 1 else 0

/-- a follows b, neither equal nor half the range away (R98, R179). -/
def after (w a b : Nat) : Bool :=
  let d := (a + 2 ^ w - b % 2 ^ w) % 2 ^ w
  decide (0 < d) && decide (d < 2 ^ (w - 1))

/-- The number of a two's complement word of width w. -/
def sgn (w x : Nat) : Int := if x < 2 ^ (w - 1) then (x : Int) else (x : Int) - 2 ^ w

/-- The two's complement word of width w of a number. -/
def ofSgn (w : Nat) (x : Int) : Nat := (x % 2 ^ w).toNat

-- lists

/-- The first element that satisfies p, and the list without it. -/
def takeFirst {α : Type} (p : α → Bool) : List α → Option (α × List α)
  | [] => none
  | x :: t => if p x then some (x, t) else (takeFirst p t).map fun q => (q.1, x :: q.2)

/-- The list with the first element that satisfies p replaced. -/
def modFirst {α : Type} (p : α → Bool) (f : α → α) : List α → List α
  | [] => []
  | x :: t => if p x then f x :: t else x :: modFirst p f t

/-- The element that precedes every other, the first of equals. -/
def best {α : Type} (lt : α → α → Bool) : List α → Option α
  | [] => none
  | x :: t => match best lt t with
    | none => some x
    | some y => if lt y x then some y else some x

end Sys2Proof.Machine

namespace Sys2Proof

-- classes and messages

/-- The class code (R94). -/
def Cls.code : Cls → Nat
  | .g => 0 | .s => 1 | .f => 2 | .m => 3

/-- The class of a code (R94). -/
def Cls.ofCode (n : Nat) : Cls :=
  if n % 4 = 0 then .g else if n % 4 = 1 then .s else if n % 4 = 2 then .f else .m

/-- A message as its 128 bits (R99, R100). -/
def Msg.pack (m : Msg) : BitVec 128 :=
  m.ts ++ m.epoch ++ m.typ ++ BitVec.ofBool m.aval ++ BitVec.ofBool m.repres ++ m.payload ++
    (m.seq ++ m.origin ++ m.source ++ m.dest ++ m.prio ++ BitVec.ofNat 2 (Cls.code m.cls) ++ m.rver)

/-- The fields of 128 bits read as a message (R99, R100). -/
def Msg.unpack (b : BitVec 128) : Msg :=
  { seq := b.extractLsb' 40 24, origin := b.extractLsb' 35 5, source := b.extractLsb' 22 13,
    dest := b.extractLsb' 10 12, prio := b.extractLsb' 5 5, cls := Cls.ofCode (b.extractLsb' 3 2).toNat,
    rver := b.extractLsb' 0 3, ts := b.extractLsb' 96 32, epoch := b.extractLsb' 88 8,
    typ := b.extractLsb' 82 6, aval := b.getLsbD 81, repres := b.getLsbD 80, payload := b.extractLsb' 64 16 }

/-- Types 0x00 to 0x07 are events (R101). -/
def Msg.isEvent (m : Msg) : Bool := decide (m.typ.toNat < 8)

/-- Types 0x10 to 0x14 are control messages (R101). -/
def Msg.isCtl (m : Msg) : Bool := decide (0x10 ≤ m.typ.toNat) && decide (m.typ.toNat ≤ 0x14)

/-- Types 0x10 to 0x13, which go to the control sink (R214). -/
def Msg.toSink (m : Msg) : Bool := decide (0x10 ≤ m.typ.toNat) && decide (m.typ.toNat ≤ 0x13)

/-- The identity of an event on one die: origin, source and sequence (R297). -/
def Msg.sameId (a b : Msg) : Bool := a.origin == b.origin && a.source == b.source && a.seq == b.seq

/-- The stream of an event (R97). -/
def Msg.sameStream (a b : Msg) : Bool := a.origin == b.origin && a.source == b.source

/-- Class G or F, the classes that hold custody (R303). -/
def Msg.isGF (m : Msg) : Bool := m.cls == .g || m.cls == .f

/-- A message with its re-presentation flag set (R100). -/
def Msg.flag (m : Msg) : Msg := { m with repres := true }

-- register accesses

/-- The access comes to the host gate (R482). -/
def Access.host (a : Access) : Bool := a.via == .bar0 || a.via == .bar2

/-- The access carries reg_dbg = 1; only the register port of a field instance has the signal (R482, R488, R522). -/
def Access.debug (a : Access) : Bool := a.dbg && a.via == .port

/-- The master that BUSERR and the latches name: reg_mid, or 0 for BAR0 and a core's own interface, 1 for BAR2 (R493). -/
def Access.master (a : Access) : Nat := match a.via with | .port => a.mid.toNat | .bar2 => 1 | _ => 0

end Sys2Proof

namespace Sys2Proof.Machine

/-- Word k, 32 bits, of a 128-bit payload. -/
def word128 (b : BitVec 128) (k : Nat) : Word := b.extractLsb' (32 * k) 32

-- destination addresses (R24)

/-- Bit 11 of a destination: a Campion. -/
def destCamp (d : BitVec 12) : Bool := d.getLsbD 11
/-- The die of a destination as an origin-die value, bits 10 to 6 (R24, R27). -/
def destDie (d : BitVec 12) : BitVec 5 := d.extractLsb' 6 5
/-- The local unit index of a destination, bits 5 to 0 (R24). -/
def destUnit (d : BitVec 12) : Nat := (d.extractLsb' 0 6).toNat
/-- The destination names a host gate (R25). -/
def destHost (d : BitVec 12) : Bool := d.extractLsb' 6 2 == 3
/-- The lane of a destination: cores 0 to 63, Campions 64 to 127 (R219). -/
def destLane (d : BitVec 12) : Nat := destUnit d + (if destCamp d then 64 else 0)
/-- The destination of a unit of a die. -/
def destOf (die : BitVec 5) (lane : Nat) : BitVec 12 :=
  BitVec.ofBool (decide (64 ≤ lane)) ++ die ++ BitVec.ofNat 6 lane
/-- A die address: kind 0 and bits 5 to 0 zero (R95, R102). -/
def dieAddr (die : BitVec 5) : BitVec 12 := (0 : BitVec 1) ++ die ++ (0 : BitVec 6)


end Sys2Proof.Machine
end

