-- ==== Sys2Proof/Machine/RegMap.lean ====
section
/-! DEFINITION. The register map (R494, R496): one row for each kind of register word with its place, its island
(R539) and its fields (R483), and one accessor for each field, named after its register and field. A field's value
is held at key 32 * offset + low bit; host gate words stand at 0x10_0000 + BAR0 offset and 0x20_0000 + BAR2 offset.
The reset value is that of the Reset column. -/

namespace Sys2Proof.Machine

/-- The access codes of R483. -/
inductive AccCode where
  | rw | ro | rc | rh | ws | w1
deriving DecidableEq, Repr

/-- A field of a register word: low bit, width, access code, reset value. -/
structure FldSpec where
  lo : Nat
  w : Nat
  acc : AccCode
  rst : Nat
deriving DecidableEq, Repr

/-- A field of one particular word: the word's offset, low bit, width, reset value. -/
structure Fld where
  off : Nat
  lo : Nat
  w : Nat
  rst : Nat
deriving DecidableEq, Repr

/-- The islands of R539, with the number of words' first indexes that one region, cluster or link island covers. -/
inductive Isl where
  | xbar | aon | region (div : Nat) | cluster (div : Nat) | link | edw | gate | gaon | gedw
deriving DecidableEq, Repr

/-- The kinds of register words. -/
inductive RegId where
  | ID | CAPS | CTRL | STATUS | FAULT | LOCKVIOL | LOCKVADDR | BUSERR | ACC_CTRL | ACC_HQUOTA | ACC_LASTREF 
  | ACC_REF | ACC_WINMISS | ACC_COAL | ACC_ACCEPT | CAMP_STAT | CAMP_DONE | CAMP_DISC | CAMP_EMIT 
  | CAMP_RCTRL | CAMP_RFAIL | CAMP_RERR | CAMP_RSTAT | TIME_LO | TIME_HI | EPOCH_PERIOD | EPOCH_NUM 
  | THAW_STATUS | EPOCH_COUNT | THAW0_LO | THAW0_HI | TIME_CTRL | TIME_STAT | TIME_RATE | CAP_CTRL | CAP_STAT 
  | TIME_MAKEUP | CAPTURE_LO | CAPTURE_HI | PEND | ENAB | ACTV | COAL | CLAIM | COMPLETE | THRESH | STATE 
  | ACT_W | PREWARM | PW_SRC | PW_PER | PW_NEXT | PW_CNT | SRC_CFG0 | SRC_CFG1 | SRC_CFG2 | SRC_CFG3 
  | VEC_CFG | ARBC_CTRL | ARBC_STAT | ARBC_EVT | ARBC_WT | ARBC_GRANTS | ARBC_WAITED | ARBC_LONGEST 
  | ARBV_CTRL | ARBV_STAT | ARBV_EVT | ARBV_WTL | ARBV_GRANTS | ARBV_WAITED | ARBV_LONGEST | ARBS_CTRL 
  | ARBS_STAT | ARBS_EVT | ARBS_WT | ARBS_WTL | ARBS_GRANTS | ARBS_WAITED | ARBS_LONGEST | XB_OCC | XB_ERR 
  | XB_AVA | RT_ENTRY | ROUTE_VER | RT_STAT | VER_INFLIGHT | LNK_CTRL | LNK_PEER | LNK_STAT | LNK_SEQ 
  | LNK_CRED | LNK_ERR0 | LNK_ERR1 | LNK_ERR2 | LNK_SFLUSH | LNK_UNCERT | AUDIT_CTRL | AUDIT_STAT | LOCK 
  | LOCK_CTRL | FIRN_STAT | FIRN_USE | FIRN_ERR | FIRN_ERRADDR | FIRN_SCRUB | REC_CTRL | REC_STAT | REC_CNT 
  | REC_ACTMAP | MIG0 | MIG1 | RIME_CTRL | RIME_STAT | RIME_LAST | RIME_PASS | MRN_BASE | MRN_CTRL | MRN_STAT 
  | MRN_QCFG | MRN_QSTAT | PWR_CFG | PWR_CFG22 | PWR_CFG23 | PWR_REQ | PWR_RES | PWR_STATE_LO | PWR_STATE_HI 
  | WB_CTRL | WB_COST | WB_STAT | WB_CNT | SLEEP_CTRL | RST_REQ | RST_STAT | SU_STAT | BAR_CTRL | BAR_STAT 
  | BAR_ERR | BAR_CUST | BAR_RES | BAR_DISC | MPU_CTRL | MPU_FSTAT | MPU_FADDR_LO | MPU_FADDR_HI 
  | MPU_RBASE_LO | MPU_RBASE_HI | MPU_RCFG | BANK | LOAD_CTRL | LOAD_DATA | LOAD_STATUS | IMG_ID_LO 
  | IMG_ID_HI | LOAD_GAP | LOAD_GEN | LOAD_BOOTERR | DT_CTRL | DT_STAT | LOAD_LASTP_LO | LOAD_LASTP_HI 
  | TRACE_CTRL | TRACE_DATA | TRACE_SEL | TRACE_STAT | TRACE_RDPTR | TRACE_TRIG | TRACE_DBADDR | TRACE_DBCTRL 
  | TEST_CTRL | TEST_MSG | TEST_LSEL | TEST_LERR | FIRN_BIST | EDW_CTRL | EDW_STAT | EDW_TAMPER | EDW_TADDR 
  | EDW_SCNT_LO | EDW_SCNT_HI | EDW_STIME_LO | EDW_STIME_HI | EDW_MAC | EDW_GLB | EDW_CH | EDW_VAL_LO 
  | EDW_VAL_HI | EDW_UCNT | H_ID | H_CAPS | H_CTRL | H_STATUS | H_FAULT | H_LOCKVIOL | H_LOCKVADDR | H_BUSERR 
  | GATE_CTRL | GATE_STAT | GATE_POOL | GATE_EVT | SLC_CMD | SLC_CMDRES | H_TIME_LO | H_TIME_HI | SLC_KEY 
  | SLC_RBASE_LO | SLC_RBASE_HI | SLC_RING | SLC_SHARE | SLC_VEC | SLC_STATE | SLC_PROD | SLC_CONS 
  | SLC_GRANT | SLC_WR | SLC_DISC | SLC_VWR | ARBW_CTRL | ARBW_STAT | ARBW_EVT | ARBW_WT | ARBW_WTL 
  | ARBW_GRANTS | ARBW_WAITED | ARBW_LONGEST | H_PWR_CFG | H_PWR_REQ | H_PWR_RES | H_PWR_STATE_LO | H_WB_CTRL 
  | H_WB_COST | H_WB_STAT | H_WB_CNT | H_RST_REQ | H_RST_STAT | H_SU_STAT | HMPU_CTRL | HMPU_FSTAT 
  | HMPU_FADDR_LO | HMPU_FADDR_HI | HMPU_RBASE_LO | HMPU_RBASE_HI | HMPU_RCFG | H_LOAD_CTRL | H_LOAD_DATA 
  | H_LOAD_STATUS | H_IMG_ID_LO | H_IMG_ID_HI | H_LOAD_GAP | H_LOAD_GEN | HEDW_CFG | HEDW_STAT | HSEAL_LO 
  | HSEAL_HI | HSEAL_MAC_LO | HSEAL_MAC_HI | HMTR_LO | HMTR_HI | HMTR_CNT | SLC_DIRTY | PG_PROD | PG_CONS 
  | PG_ARM | PG_STAT | PG_VW | PG_VWRES 
deriving DecidableEq, Repr

/-- A row of the map: words at base + s1 * i + s2 * j for i < n1 and j < n2. -/
structure RegRow where
  id : RegId
  base : Nat
  s1 : Nat
  n1 : Nat
  s2 : Nat
  n2 : Nat
  isl : Isl
  flds : List FldSpec
deriving DecidableEq, Repr

/-- Rows ID to CAMP_STAT of the map (R494, R496). -/
def regRows0 : List RegRow := [
  ⟨.ID, 0, 4, 1, 4, 1, .xbar, [⟨0, 4, .ro, 0⟩, ⟨4, 4, .ro, 1⟩, ⟨8, 8, .ro, 0x6E⟩, ⟨16, 2, .ro, 1⟩, ⟨20, 12, .ro,
    0xA5⟩]⟩,
  ⟨.CAPS, 4, 4, 1, 4, 1, .xbar, [⟨0, 8, .ro, 0x40⟩, ⟨8, 4, .ro, 4⟩, ⟨12, 1, .ro, 1⟩, ⟨13, 1, .ro, 1⟩, ⟨16, 4, .ro,
    1⟩]⟩,
  ⟨.CTRL, 8, 4, 1, 4, 1, .xbar, [⟨0, 1, .rw, 0⟩, ⟨1, 1, .w1, 0⟩, ⟨16, 9, .rw, 0⟩]⟩,
  ⟨.STATUS, 0xC, 4, 1, 4, 1, .xbar, [⟨0, 5, .ro, 0⟩, ⟨5, 1, .ro, 0⟩, ⟨6, 2, .ro, 0⟩, ⟨8, 1, .ro, 0⟩, ⟨9, 1, .ro, 1⟩]⟩,
  ⟨.FAULT, 0x10, 4, 1, 4, 1, .xbar, [⟨0, 1, .rh, 0⟩, ⟨1, 1, .rh, 0⟩, ⟨2, 1, .rh, 0⟩, ⟨3, 1, .rh, 0⟩, ⟨4, 1, .rh,
    0⟩, ⟨5, 1, .rh, 0⟩, ⟨6, 1, .rh, 0⟩, ⟨7, 1, .rh, 0⟩, ⟨8, 1, .rh, 0⟩]⟩,
  ⟨.LOCKVIOL, 0x14, 4, 1, 4, 1, .xbar, [⟨0, 16, .rc, 0⟩, ⟨16, 4, .ro, 0⟩]⟩,
  ⟨.LOCKVADDR, 0x18, 4, 1, 4, 1, .xbar, [⟨0, 20, .ro, 0⟩, ⟨31, 1, .rc, 0⟩]⟩,
  ⟨.BUSERR, 0x1C, 4, 1, 4, 1, .xbar, [⟨0, 20, .ro, 0⟩, ⟨20, 4, .ro, 0⟩, ⟨24, 3, .ro, 0⟩, ⟨27, 1, .ro, 0⟩, ⟨28, 1,
    .ro, 0⟩, ⟨31, 1, .rc, 0⟩]⟩,
  ⟨.ACC_CTRL, 0x100, 4, 1, 4, 1, .xbar, [⟨0, 1, .ws, 0⟩, ⟨8, 8, .ws, 0x40⟩]⟩,
  ⟨.ACC_HQUOTA, 0x104, 4, 1, 4, 1, .xbar, [⟨0, 15, .ws, 0x800⟩, ⟨16, 15, .ro, 0⟩, ⟨31, 1, .ro, 0⟩]⟩,
  ⟨.ACC_LASTREF, 0x108, 4, 1, 4, 1, .xbar, [⟨0, 13, .ro, 0⟩, ⟨16, 4, .ro, 0⟩, ⟨20, 3, .ro, 0⟩, ⟨31, 1, .rc, 0⟩]⟩,
  ⟨.ACC_REF, 0x110, 4, 10, 4, 1, .xbar, [⟨0, 32, .rc, 0⟩]⟩,
  ⟨.ACC_WINMISS, 0x138, 4, 1, 4, 1, .xbar, [⟨0, 32, .rc, 0⟩]⟩,
  ⟨.ACC_COAL, 0x13C, 4, 1, 4, 1, .xbar, [⟨0, 32, .rc, 0⟩]⟩,
  ⟨.ACC_ACCEPT, 0x140, 4, 1, 4, 1, .xbar, [⟨0, 32, .rc, 0⟩]⟩,
  ⟨.CAMP_STAT, 0x400, 0x10, 64, 4, 1, .region 16, [⟨0, 2, .ro, 0⟩, ⟨2, 3, .ro, 0⟩, ⟨5, 1, .ro, 0⟩, ⟨6, 6, .ro, 0⟩,
    ⟨12, 2, .ro, 0⟩, ⟨14, 1, .ro, 0⟩, ⟨15, 1, .ro, 0⟩, ⟨16, 6, .ro, 0⟩]⟩]

/-- Rows CAMP_DONE to TIME_CTRL of the map (R494, R496). -/
def regRows1 : List RegRow := [
  ⟨.CAMP_DONE, 0x404, 0x10, 64, 4, 1, .region 16, [⟨0, 32, .rc, 0⟩]⟩,
  ⟨.CAMP_DISC, 0x408, 0x10, 64, 4, 1, .region 16, [⟨0, 16, .rc, 0⟩, ⟨16, 16, .rc, 0⟩]⟩,
  ⟨.CAMP_EMIT, 0x40C, 0x10, 64, 4, 1, .region 16, [⟨0, 16, .rc, 0⟩, ⟨16, 16, .rc, 0⟩]⟩,
  ⟨.CAMP_RCTRL, 0x800, 0x10, 4, 4, 1, .xbar, [⟨0, 4, .ws, 0⟩, ⟨4, 1, .ws, 0⟩, ⟨16, 16, .ws, 0x400⟩]⟩,
  ⟨.CAMP_RFAIL, 0x804, 0x10, 4, 4, 1, .region 1, [⟨0, 4, .rw, 0⟩, ⟨31, 1, .rw, 0⟩]⟩,
  ⟨.CAMP_RERR, 0x808, 0x10, 4, 4, 1, .region 1, [⟨0, 16, .rc, 0⟩, ⟨16, 16, .rc, 0⟩]⟩,
  ⟨.CAMP_RSTAT, 0x80C, 0x10, 4, 4, 1, .region 1, [⟨0, 1, .ro, 0⟩, ⟨1, 4, .ro, 0⟩, ⟨5, 1, .ro, 0⟩, ⟨6, 1, .ro, 0⟩,
    ⟨7, 1, .ro, 0⟩]⟩,
  ⟨.TIME_LO, 0x1000, 4, 1, 4, 1, .aon, [⟨0, 32, .ro, 0⟩]⟩,
  ⟨.TIME_HI, 0x1004, 4, 1, 4, 1, .aon, [⟨0, 32, .ro, 0⟩]⟩,
  ⟨.EPOCH_PERIOD, 0x1008, 4, 1, 4, 1, .xbar, [⟨0, 24, .rw, 0xFA0⟩]⟩,
  ⟨.EPOCH_NUM, 0x100C, 4, 1, 4, 1, .aon, [⟨0, 32, .ro, 0⟩]⟩,
  ⟨.THAW_STATUS, 0x1010, 4, 1, 4, 1, .xbar, [⟨0, 1, .ro, 0⟩, ⟨1, 1, .ro, 0⟩, ⟨2, 1, .rc, 0⟩, ⟨3, 1, .ro, 0⟩, ⟨4, 5,
    .ro, 0⟩, ⟨16, 8, .rc, 0⟩]⟩,
  ⟨.EPOCH_COUNT, 0x1014, 4, 1, 4, 1, .aon, [⟨0, 24, .ro, 0⟩]⟩,
  ⟨.THAW0_LO, 0x1018, 4, 1, 4, 1, .xbar, [⟨0, 32, .rw, 0⟩]⟩,
  ⟨.THAW0_HI, 0x101C, 4, 1, 4, 1, .xbar, [⟨0, 32, .rw, 0⟩]⟩,
  ⟨.TIME_CTRL, 0x1020, 4, 1, 4, 1, .xbar, [⟨0, 2, .ws, 0⟩, ⟨2, 2, .ws, 0⟩, ⟨4, 1, .ws, 0⟩, ⟨5, 1, .ro, 0⟩, ⟨8, 6,
    .ws, 2⟩, ⟨16, 8, .ws, 0x10⟩]⟩]

/-- Rows TIME_STAT to ACT_W of the map (R494, R496). -/
def regRows2 : List RegRow := [
  ⟨.TIME_STAT, 0x1024, 4, 1, 4, 1, .aon, [⟨0, 16, .ro, 0⟩, ⟨16, 2, .ro, 0⟩, ⟨18, 1, .rh, 0⟩, ⟨19, 1, .rc, 0⟩, ⟨20,
    1, .rc, 0⟩]⟩,
  ⟨.TIME_RATE, 0x1028, 4, 1, 4, 1, .aon, [⟨0, 24, .ro, 0⟩]⟩,
  ⟨.CAP_CTRL, 0x102C, 4, 1, 4, 1, .xbar, [⟨0, 16, .rw, 0⟩, ⟨16, 16, .rw, 0⟩]⟩,
  ⟨.CAP_STAT, 0x1030, 4, 1, 4, 1, .xbar, [⟨0, 16, .ro, 0⟩, ⟨16, 16, .rc, 0⟩]⟩,
  ⟨.TIME_MAKEUP, 0x1034, 4, 1, 4, 1, .aon, [⟨0, 32, .ro, 0⟩]⟩,
  ⟨.CAPTURE_LO, 0x1040, 8, 16, 4, 1, .xbar, [⟨0, 32, .ro, 0⟩]⟩,
  ⟨.CAPTURE_HI, 0x1044, 8, 16, 4, 1, .xbar, [⟨0, 32, .ro, 0⟩]⟩,
  ⟨.PEND, 0x2000, 4, 160, 4, 1, .xbar, [⟨0, 32, .ro, 0⟩]⟩,
  ⟨.ENAB, 0x2400, 4, 160, 4, 1, .xbar, [⟨0, 32, .rw, 0xFFFFFFFF⟩]⟩,
  ⟨.ACTV, 0x2800, 4, 160, 4, 1, .xbar, [⟨0, 32, .ro, 0⟩]⟩,
  ⟨.COAL, 0x2C00, 4, 160, 4, 1, .xbar, [⟨0, 32, .rc, 0⟩]⟩,
  ⟨.CLAIM, 0x3000, 0x40, 64, 4, 1, .cluster 4, [⟨0, 13, .rc, 0⟩, ⟨13, 5, .rc, 0⟩, ⟨18, 1, .rc, 0⟩, ⟨19, 1, .rc, 0⟩,
    ⟨20, 2, .rc, 0⟩, ⟨22, 5, .rc, 0⟩, ⟨27, 4, .rc, 0⟩, ⟨31, 1, .rc, 0⟩]⟩,
  ⟨.COMPLETE, 0x3004, 0x40, 64, 4, 1, .cluster 4, [⟨0, 24, .rw, 0⟩, ⟨31, 1, .ro, 0⟩]⟩,
  ⟨.THRESH, 0x3008, 0x40, 64, 4, 1, .cluster 4, [⟨0, 6, .rw, 0⟩]⟩,
  ⟨.STATE, 0x300C, 0x40, 64, 4, 1, .cluster 4, [⟨0, 4, .ro, 0⟩, ⟨4, 1, .ro, 0⟩, ⟨5, 5, .ro, 0⟩, ⟨10, 6, .ro, 0x20⟩,
    ⟨16, 1, .ro, 0⟩, ⟨17, 1, .ro, 0⟩, ⟨18, 1, .ro, 0⟩, ⟨19, 1, .rc, 0⟩]⟩,
  ⟨.ACT_W, 0x3010, 0x40, 64, 4, 4, .cluster 4, [⟨0, 32, .ro, 0⟩]⟩]

/-- Rows PREWARM to ARBC_WAITED of the map (R494, R496). -/
def regRows3 : List RegRow := [
  ⟨.PREWARM, 0x3020, 0x40, 64, 4, 1, .region 16, [⟨0, 13, .rw, 0x190⟩, ⟨13, 8, .rw, 8⟩, ⟨21, 1, .rw, 0⟩, ⟨22, 1,
    .rw, 1⟩]⟩,
  ⟨.PW_SRC, 0x3024, 0x40, 64, 0xC, 2, .region 16, [⟨0, 13, .rw, 0⟩, ⟨13, 5, .rw, 0⟩, ⟨18, 1, .rw, 0⟩, ⟨19, 1, .rw,
    0⟩, ⟨20, 1, .rw, 0⟩]⟩,
  ⟨.PW_PER, 0x3028, 0x40, 64, 0xC, 2, .region 16, [⟨0, 24, .rw, 0⟩, ⟨24, 2, .ro, 0⟩, ⟨26, 1, .ro, 0⟩]⟩,
  ⟨.PW_NEXT, 0x302C, 0x40, 64, 0xC, 2, .region 16, [⟨0, 32, .rw, 0⟩]⟩,
  ⟨.PW_CNT, 0x303C, 0x40, 64, 4, 1, .region 16, [⟨0, 16, .rc, 0⟩, ⟨16, 8, .rc, 0⟩, ⟨24, 8, .rc, 0⟩]⟩,
  ⟨.SRC_CFG0, 0x4000, 0x10, 1024, 4, 1, .xbar, [⟨0, 1, .ws, 0⟩, ⟨1, 3, .ws, 0⟩, ⟨4, 2, .ws, 0⟩, ⟨6, 5, .ws, 0⟩,
    ⟨11, 1, .ws, 0⟩, ⟨12, 1, .ws, 0⟩, ⟨13, 1, .ro, 0⟩, ⟨14, 8, .ro, 0⟩, ⟨22, 1, .ro, 0⟩]⟩,
  ⟨.SRC_CFG1, 0x4004, 0x10, 1024, 4, 1, .xbar, [⟨0, 12, .ws, 0⟩, ⟨12, 6, .ws, 0⟩]⟩,
  ⟨.SRC_CFG2, 0x4008, 0x10, 1024, 4, 1, .xbar, [⟨0, 16, .ws, 0⟩, ⟨16, 16, .ws, 0⟩]⟩,
  ⟨.SRC_CFG3, 0x400C, 0x10, 1024, 4, 1, .xbar, [⟨0, 1, .ws, 0⟩, ⟨1, 5, .ws, 0⟩, ⟨8, 8, .ws, 0⟩]⟩,
  ⟨.VEC_CFG, 0x8000, 4, 4096, 4, 1, .xbar, [⟨0, 12, .ws, 0⟩, ⟨12, 5, .ws, 0⟩, ⟨17, 2, .ws, 0⟩, ⟨19, 1, .ws, 0⟩,
    ⟨20, 4, .ws, 0⟩, ⟨24, 8, .ws, 0⟩]⟩,
  ⟨.ARBC_CTRL, 0xC000, 0x80, 16, 4, 1, .xbar, [⟨0, 7, .ws, 8⟩, ⟨7, 1, .rw, 0⟩, ⟨8, 12, .ws, 0x100⟩, ⟨20, 1, .ws, 1⟩]⟩,
  ⟨.ARBC_STAT, 0xC004, 0x80, 16, 4, 1, .region 4, [⟨0, 1, .ro, 1⟩, ⟨1, 1, .ro, 0⟩, ⟨2, 5, .ro, 0⟩, ⟨7, 1, .ro, 0⟩,
    ⟨8, 6, .ro, 0⟩]⟩,
  ⟨.ARBC_EVT, 0xC008, 0x80, 16, 4, 1, .region 4, [⟨0, 16, .rc, 0⟩, ⟨16, 16, .rc, 0⟩]⟩,
  ⟨.ARBC_WT, 0xC010, 0x80, 16, 4, 2, .xbar, [⟨0, 8, .ws, 1⟩, ⟨8, 8, .ws, 1⟩, ⟨16, 8, .ws, 1⟩, ⟨24, 8, .ws, 1⟩]⟩,
  ⟨.ARBC_GRANTS, 0xC020, 0x80, 16, 0xC, 8, .region 4, [⟨0, 32, .ro, 0⟩]⟩,
  ⟨.ARBC_WAITED, 0xC024, 0x80, 16, 0xC, 8, .region 4, [⟨0, 32, .ro, 0⟩]⟩]

/-- Rows ARBC_LONGEST to ARBS_LONGEST of the map (R494, R496). -/
def regRows4 : List RegRow := [
  ⟨.ARBC_LONGEST, 0xC028, 0x80, 16, 0xC, 8, .region 4, [⟨0, 16, .rc, 0⟩]⟩,
  ⟨.ARBV_CTRL, 0xC800, 0x80, 4, 4, 1, .xbar, [⟨0, 7, .ws, 8⟩, ⟨7, 1, .rw, 0⟩, ⟨8, 12, .ws, 0x100⟩, ⟨20, 1, .ws, 1⟩]⟩,
  ⟨.ARBV_STAT, 0xC804, 0x80, 4, 4, 1, .link, [⟨0, 1, .ro, 1⟩, ⟨1, 1, .ro, 0⟩, ⟨2, 5, .ro, 0⟩, ⟨7, 1, .ro, 0⟩, ⟨8,
    6, .ro, 0⟩]⟩,
  ⟨.ARBV_EVT, 0xC808, 0x80, 4, 4, 1, .link, [⟨0, 16, .rc, 0⟩, ⟨16, 16, .rc, 0⟩]⟩,
  ⟨.ARBV_WTL, 0xC810, 0x80, 4, 4, 1, .xbar, [⟨0, 8, .ws, 1⟩, ⟨8, 8, .ws, 1⟩, ⟨16, 8, .ws, 1⟩]⟩,
  ⟨.ARBV_GRANTS, 0xC820, 0x80, 4, 0xC, 3, .link, [⟨0, 32, .ro, 0⟩]⟩,
  ⟨.ARBV_WAITED, 0xC824, 0x80, 4, 0xC, 3, .link, [⟨0, 32, .ro, 0⟩]⟩,
  ⟨.ARBV_LONGEST, 0xC828, 0x80, 4, 0xC, 3, .link, [⟨0, 16, .rc, 0⟩]⟩,
  ⟨.ARBS_CTRL, 0xCA00, 4, 1, 4, 1, .xbar, [⟨0, 7, .ws, 8⟩, ⟨7, 1, .rw, 0⟩, ⟨8, 12, .ws, 0x100⟩, ⟨20, 1, .ws, 1⟩]⟩,
  ⟨.ARBS_STAT, 0xCA04, 4, 1, 4, 1, .xbar, [⟨0, 1, .ro, 1⟩, ⟨1, 1, .ro, 0⟩, ⟨2, 5, .ro, 0⟩, ⟨7, 1, .ro, 0⟩, ⟨8, 6,
    .ro, 0⟩]⟩,
  ⟨.ARBS_EVT, 0xCA08, 4, 1, 4, 1, .xbar, [⟨0, 16, .rc, 0⟩, ⟨16, 16, .rc, 0⟩]⟩,
  ⟨.ARBS_WT, 0xCA10, 4, 5, 4, 1, .xbar, [⟨0, 8, .ws, 1⟩, ⟨8, 8, .ws, 1⟩, ⟨16, 8, .ws, 1⟩, ⟨24, 8, .ws, 1⟩]⟩,
  ⟨.ARBS_WTL, 0xCA24, 4, 1, 4, 1, .xbar, [⟨0, 8, .ws, 1⟩, ⟨8, 8, .ws, 1⟩]⟩,
  ⟨.ARBS_GRANTS, 0xCA40, 0xC, 22, 4, 1, .xbar, [⟨0, 32, .ro, 0⟩]⟩,
  ⟨.ARBS_WAITED, 0xCA44, 0xC, 22, 4, 1, .xbar, [⟨0, 32, .ro, 0⟩]⟩,
  ⟨.ARBS_LONGEST, 0xCA48, 0xC, 22, 4, 1, .xbar, [⟨0, 16, .rc, 0⟩]⟩]

/-- Rows XB_OCC to LNK_SFLUSH of the map (R494, R496). -/
def regRows5 : List RegRow := [
  ⟨.XB_OCC, 0xCC00, 4, 24, 4, 1, .xbar, [⟨0, 6, .ro, 0⟩, ⟨8, 6, .ro, 0⟩, ⟨16, 6, .ro, 0⟩, ⟨24, 1, .ro, 0⟩]⟩,
  ⟨.XB_ERR, 0xCC60, 4, 1, 4, 1, .xbar, [⟨0, 16, .rc, 0⟩, ⟨16, 16, .rc, 0⟩]⟩,
  ⟨.XB_AVA, 0xCC64, 4, 1, 4, 1, .xbar, [⟨0, 32, .rc, 0⟩]⟩,
  ⟨.RT_ENTRY, 0xD000, 4, 64, 4, 1, .xbar, [⟨0, 1, .ws, 0⟩, ⟨1, 5, .ws, 0⟩, ⟨6, 3, .ws, 0⟩, ⟨9, 2, .ws, 0⟩, ⟨11, 2,
    .ws, 0⟩, ⟨13, 1, .ws, 0⟩]⟩,
  ⟨.ROUTE_VER, 0xD100, 4, 1, 4, 1, .xbar, [⟨0, 3, .ws, 0⟩]⟩,
  ⟨.RT_STAT, 0xD104, 4, 1, 4, 1, .xbar, [⟨0, 1, .rh, 0⟩, ⟨16, 16, .rc, 0⟩]⟩,
  ⟨.VER_INFLIGHT, 0xD120, 4, 8, 4, 1, .xbar, [⟨0, 16, .ro, 0⟩, ⟨31, 1, .rc, 0⟩]⟩,
  ⟨.LNK_CTRL, 0xE000, 0x100, 4, 4, 1, .xbar, [⟨0, 1, .rw, 0⟩, ⟨1, 1, .rw, 1⟩, ⟨2, 1, .rw, 0⟩, ⟨8, 8, .rw, 0x40⟩,
    ⟨16, 4, .rw, 8⟩, ⟨20, 4, .rw, 4⟩, ⟨24, 8, .rw, 0x40⟩]⟩,
  ⟨.LNK_PEER, 0xE004, 0x100, 4, 4, 1, .xbar, [⟨0, 5, .ws, 0⟩, ⟨5, 2, .ws, 0⟩, ⟨7, 1, .ws, 0⟩, ⟨8, 5, .ro, 0⟩, ⟨13,
    2, .ro, 0⟩, ⟨15, 1, .ro, 0⟩]⟩,
  ⟨.LNK_STAT, 0xE008, 0x100, 4, 4, 1, .xbar, [⟨0, 3, .ro, 0⟩, ⟨3, 3, .ro, 0⟩, ⟨6, 1, .ro, 0⟩, ⟨7, 4, .ro, 0⟩]⟩,
  ⟨.LNK_SEQ, 0xE00C, 0x100, 4, 4, 1, .link, [⟨0, 8, .ro, 0⟩, ⟨8, 8, .ro, 0xFF⟩, ⟨16, 8, .ro, 0⟩, ⟨24, 8, .ro, 0⟩]⟩,
  ⟨.LNK_CRED, 0xE010, 0x100, 4, 4, 1, .link, [⟨0, 6, .ro, 0⟩, ⟨8, 6, .ro, 0⟩, ⟨16, 6, .ro, 0⟩, ⟨24, 5, .ro, 0⟩]⟩,
  ⟨.LNK_ERR0, 0xE014, 0x100, 4, 4, 1, .link, [⟨0, 16, .rc, 0⟩, ⟨16, 16, .rc, 0⟩]⟩,
  ⟨.LNK_ERR1, 0xE018, 0x100, 4, 4, 1, .link, [⟨0, 16, .rc, 0⟩, ⟨16, 16, .rc, 0⟩]⟩,
  ⟨.LNK_ERR2, 0xE01C, 0x100, 4, 4, 1, .xbar, [⟨0, 8, .rc, 0⟩, ⟨8, 8, .rc, 0⟩, ⟨16, 16, .rc, 0⟩]⟩,
  ⟨.LNK_SFLUSH, 0xE020, 0x100, 4, 4, 1, .xbar, [⟨0, 32, .rc, 0⟩]⟩]

/-- Rows LNK_UNCERT to MIG1 of the map (R494, R496). -/
def regRows6 : List RegRow := [
  ⟨.LNK_UNCERT, 0xE024, 0x100, 4, 4, 1, .xbar, [⟨0, 16, .rc, 0⟩]⟩,
  ⟨.AUDIT_CTRL, 0xE400, 4, 1, 4, 1, .xbar, [⟨0, 1, .rw, 1⟩]⟩,
  ⟨.AUDIT_STAT, 0xE404, 4, 1, 4, 1, .xbar, [⟨0, 16, .rc, 0⟩, ⟨16, 6, .ro, 0⟩, ⟨22, 10, .rc, 0⟩]⟩,
  ⟨.LOCK, 0xF000, 4, 64, 4, 1, .aon, [⟨0, 4, .ro, 0⟩, ⟨4, 1, .ro, 0⟩, ⟨5, 1, .ro, 0⟩, ⟨6, 1, .ro, 0⟩, ⟨7, 1, .ro,
    0⟩, ⟨8, 5, .ro, 0⟩, ⟨13, 2, .ro, 0⟩, ⟨16, 1, .rw, 0⟩, ⟨17, 1, .rw, 0⟩, ⟨18, 1, .rw, 0⟩]⟩,
  ⟨.LOCK_CTRL, 0xF100, 4, 1, 4, 1, .xbar, [⟨0, 16, .ws, 0x40⟩]⟩,
  ⟨.FIRN_STAT, 0xF140, 4, 1, 4, 1, .aon, [⟨0, 15, .ro, 0x400⟩, ⟨15, 1, .rh, 0⟩, ⟨16, 15, .ro, 0⟩, ⟨31, 1, .ro, 0⟩]⟩,
  ⟨.FIRN_USE, 0xF144, 4, 1, 4, 1, .aon, [⟨0, 15, .ro, 0⟩, ⟨16, 15, .ro, 0⟩]⟩,
  ⟨.FIRN_ERR, 0xF148, 4, 1, 4, 1, .aon, [⟨0, 12, .rc, 0⟩, ⟨12, 12, .rc, 0⟩, ⟨24, 8, .rc, 0⟩]⟩,
  ⟨.FIRN_ERRADDR, 0xF14C, 4, 1, 4, 1, .aon, [⟨0, 14, .ro, 0⟩, ⟨14, 1, .ro, 0⟩, ⟨31, 1, .rc, 0⟩]⟩,
  ⟨.FIRN_SCRUB, 0xF150, 4, 1, 4, 1, .aon, [⟨0, 1, .rw, 1⟩, ⟨16, 16, .rc, 0⟩]⟩,
  ⟨.REC_CTRL, 0xF1C0, 4, 1, 4, 1, .xbar, [⟨0, 10, .ws, 0x100⟩, ⟨10, 1, .ws, 1⟩, ⟨11, 1, .ws, 1⟩, ⟨16, 8, .ws, 0x10⟩]⟩,
  ⟨.REC_STAT, 0xF1C4, 4, 1, 4, 1, .xbar, [⟨0, 16, .rc, 0⟩, ⟨16, 5, .ro, 0⟩, ⟨21, 1, .ro, 0⟩]⟩,
  ⟨.REC_CNT, 0xF1C8, 4, 1, 4, 1, .xbar, [⟨0, 16, .rc, 0⟩, ⟨16, 16, .rc, 0⟩]⟩,
  ⟨.REC_ACTMAP, 0xF1E0, 4, 8, 4, 1, .xbar, [⟨0, 5, .ro, 0⟩, ⟨7, 1, .ro, 0⟩, ⟨8, 5, .ro, 0⟩, ⟨15, 1, .ro, 0⟩, ⟨16,
    5, .ro, 0⟩, ⟨23, 1, .ro, 0⟩, ⟨24, 5, .ro, 0⟩, ⟨31, 1, .ro, 0⟩]⟩,
  ⟨.MIG0, 0xF200, 8, 8, 4, 1, .xbar, [⟨0, 13, .ro, 0⟩, ⟨13, 1, .ro, 0⟩, ⟨14, 2, .ro, 0⟩, ⟨16, 12, .ro, 0⟩]⟩,
  ⟨.MIG1, 0xF204, 8, 8, 4, 1, .xbar, [⟨0, 24, .ro, 0⟩]⟩]

/-- Rows RIME_CTRL to PWR_STATE_HI of the map (R494, R496). -/
def regRows7 : List RegRow := [
  ⟨.RIME_CTRL, 0xF300, 4, 1, 4, 1, .xbar, [⟨0, 1, .rw, 1⟩, ⟨1, 1, .rw, 0⟩]⟩,
  ⟨.RIME_STAT, 0xF304, 4, 1, 4, 1, .xbar, [⟨0, 16, .rc, 0⟩, ⟨16, 8, .rc, 0⟩, ⟨24, 8, .rc, 0⟩]⟩,
  ⟨.RIME_LAST, 0xF308, 4, 1, 4, 1, .xbar, [⟨0, 14, .ro, 0⟩, ⟨14, 2, .ro, 0⟩, ⟨16, 7, .ro, 0⟩, ⟨23, 1, .rc, 0⟩, ⟨31,
    1, .rc, 0⟩]⟩,
  ⟨.RIME_PASS, 0xF30C, 4, 1, 4, 1, .xbar, [⟨0, 32, .rc, 0⟩]⟩,
  ⟨.MRN_BASE, 0xF400, 4, 1, 4, 1, .xbar, [⟨6, 26, .ws, 0⟩]⟩,
  ⟨.MRN_CTRL, 0xF404, 4, 1, 4, 1, .xbar, [⟨0, 1, .ws, 0⟩, ⟨1, 1, .ro, 0⟩, ⟨2, 1, .ro, 0⟩]⟩,
  ⟨.MRN_STAT, 0xF408, 4, 1, 4, 1, .xbar, [⟨0, 16, .rc, 0⟩, ⟨16, 16, .rc, 0⟩]⟩,
  ⟨.MRN_QCFG, 0xF440, 4, 22, 4, 1, .xbar, [⟨0, 16, .ws, 0⟩, ⟨16, 16, .ws, 0⟩]⟩,
  ⟨.MRN_QSTAT, 0xF4A0, 4, 22, 4, 1, .xbar, [⟨0, 16, .ro, 0⟩, ⟨16, 3, .ro, 0⟩, ⟨19, 1, .ro, 0⟩]⟩,
  ⟨.PWR_CFG, 0xF500, 4, 22, 4, 1, .xbar, [⟨0, 1, .ws, 1⟩, ⟨1, 1, .ws, 0⟩]⟩,
  ⟨.PWR_CFG22, 0xF558, 4, 1, 4, 1, .xbar, [⟨0, 1, .ro, 0⟩, ⟨1, 1, .ro, 0⟩]⟩,
  ⟨.PWR_CFG23, 0xF55C, 4, 1, 4, 1, .xbar, [⟨0, 1, .ws, 1⟩, ⟨1, 1, .ws, 0⟩]⟩,
  ⟨.PWR_REQ, 0xF560, 4, 1, 4, 1, .aon, [⟨0, 5, .rw, 0⟩, ⟨5, 1, .rw, 0⟩, ⟨31, 1, .rw, 0⟩]⟩,
  ⟨.PWR_RES, 0xF564, 4, 1, 4, 1, .aon, [⟨0, 3, .ro, 0⟩, ⟨3, 5, .ro, 0⟩, ⟨31, 1, .rc, 0⟩]⟩,
  ⟨.PWR_STATE_LO, 0xF568, 4, 1, 4, 1, .aon, [⟨0, 2, .ro, 0⟩, ⟨2, 2, .ro, 0⟩, ⟨4, 2, .ro, 0⟩, ⟨6, 2, .ro, 0⟩, ⟨8, 2,
    .ro, 0⟩, ⟨10, 2, .ro, 0⟩, ⟨12, 2, .ro, 0⟩, ⟨14, 2, .ro, 0⟩, ⟨16, 2, .ro, 0⟩, ⟨18, 2, .ro, 0⟩, ⟨20, 2, .ro, 0⟩,
    ⟨22, 2, .ro, 0⟩, ⟨24, 2, .ro, 0⟩, ⟨26, 2, .ro, 0⟩, ⟨28, 2, .ro, 0⟩, ⟨30, 2, .ro, 0⟩]⟩,
  ⟨.PWR_STATE_HI, 0xF56C, 4, 1, 4, 1, .aon, [⟨0, 2, .ro, 0⟩, ⟨2, 2, .ro, 0⟩, ⟨4, 2, .ro, 0⟩, ⟨6, 2, .ro, 0⟩, ⟨8, 2,
    .ro, 0⟩, ⟨10, 2, .ro, 0⟩, ⟨12, 2, .ro, 2⟩, ⟨14, 2, .ro, 0⟩]⟩]

/-- Rows WB_CTRL to MPU_FSTAT of the map (R494, R496). -/
def regRows8 : List RegRow := [
  ⟨.WB_CTRL, 0xF570, 4, 1, 4, 1, .xbar, [⟨0, 8, .ws, 0x10⟩, ⟨8, 8, .ws, 8⟩]⟩,
  ⟨.WB_COST, 0xF574, 4, 1, 4, 1, .xbar, [⟨0, 4, .ws, 4⟩, ⟨4, 4, .ws, 2⟩, ⟨8, 4, .ws, 3⟩, ⟨12, 4, .ws, 6⟩, ⟨16, 4,
    .ws, 1⟩]⟩,
  ⟨.WB_STAT, 0xF578, 4, 1, 4, 1, .aon, [⟨0, 8, .ro, 0⟩, ⟨8, 8, .ro, 0⟩, ⟨16, 5, .ro, 0⟩]⟩,
  ⟨.WB_CNT, 0xF57C, 4, 1, 4, 1, .aon, [⟨0, 16, .rc, 0⟩, ⟨16, 16, .rc, 0⟩]⟩,
  ⟨.SLEEP_CTRL, 0xF580, 4, 1, 4, 1, .aon, [⟨0, 1, .rw, 0⟩]⟩,
  ⟨.RST_REQ, 0xF590, 4, 1, 4, 1, .aon, [⟨0, 3, .rw, 0⟩, ⟨3, 6, .rw, 0⟩, ⟨31, 1, .rw, 0⟩]⟩,
  ⟨.RST_STAT, 0xF594, 4, 1, 4, 1, .aon, [⟨0, 3, .ro, 0⟩, ⟨3, 6, .ro, 0⟩, ⟨16, 16, .rc, 0⟩]⟩,
  ⟨.SU_STAT, 0xF5A0, 4, 1, 4, 1, .aon, [⟨0, 3, .ro, 0⟩, ⟨3, 1, .ro, 1⟩, ⟨4, 3, .ro, 0⟩, ⟨7, 1, .ro, 0⟩, ⟨8, 1, .rc,
    0⟩, ⟨9, 1, .rc, 0⟩]⟩,
  ⟨.BAR_CTRL, 0xF600, 4, 1, 4, 1, .xbar, [⟨0, 1, .rw, 0⟩, ⟨4, 8, .rw, 0x40⟩, ⟨12, 8, .rw, 0x10⟩]⟩,
  ⟨.BAR_STAT, 0xF604, 4, 1, 4, 1, .xbar, [⟨0, 2, .ro, 0⟩, ⟨2, 1, .ro, 0⟩, ⟨3, 1, .rh, 0⟩, ⟨4, 4, .ro, 0⟩, ⟨8, 8,
    .ro, 0⟩, ⟨16, 3, .ro, 0⟩]⟩,
  ⟨.BAR_ERR, 0xF608, 4, 1, 4, 1, .xbar, [⟨0, 16, .rc, 0⟩, ⟨16, 8, .rc, 0⟩, ⟨24, 8, .rc, 0⟩]⟩,
  ⟨.BAR_CUST, 0xF60C, 4, 1, 4, 1, .xbar, [⟨0, 15, .ro, 0⟩, ⟨15, 1, .ro, 0⟩, ⟨16, 15, .ro, 0⟩]⟩,
  ⟨.BAR_RES, 0xF610, 4, 1, 4, 1, .xbar, [⟨0, 16, .rc, 0⟩, ⟨16, 16, .rc, 0⟩]⟩,
  ⟨.BAR_DISC, 0xF614, 4, 1, 4, 1, .xbar, [⟨0, 16, .rc, 0⟩, ⟨16, 16, .rc, 0⟩]⟩,
  ⟨.MPU_CTRL, 0xF800, 0x200, 2, 4, 1, .xbar, [⟨0, 1, .rw, 0⟩]⟩,
  ⟨.MPU_FSTAT, 0xF804, 0x200, 2, 4, 1, .xbar, [⟨0, 1, .rc, 0⟩, ⟨1, 2, .ro, 0⟩, ⟨3, 4, .ro, 0⟩, ⟨7, 1, .ro, 0⟩, ⟨8,
    8, .ro, 0⟩, ⟨16, 16, .rc, 0⟩]⟩]

/-- Rows MPU_FADDR_LO to DT_STAT of the map (R494, R496). -/
def regRows9 : List RegRow := [
  ⟨.MPU_FADDR_LO, 0xF808, 0x200, 2, 4, 1, .xbar, [⟨0, 32, .ro, 0⟩]⟩,
  ⟨.MPU_FADDR_HI, 0xF80C, 0x200, 2, 4, 1, .xbar, [⟨0, 32, .ro, 0⟩]⟩,
  ⟨.MPU_RBASE_LO, 0xF840, 0x200, 2, 0x10, 16, .xbar, [⟨0, 32, .rw, 0⟩]⟩,
  ⟨.MPU_RBASE_HI, 0xF844, 0x200, 2, 0x10, 16, .xbar, [⟨0, 32, .ro, 0⟩]⟩,
  ⟨.MPU_RCFG, 0xF848, 0x200, 2, 0x10, 16, .xbar, [⟨0, 1, .rw, 0⟩, ⟨1, 6, .rw, 8⟩, ⟨7, 8, .rw, 0⟩, ⟨15, 1, .rw, 0⟩,
    ⟨16, 1, .rw, 0⟩, ⟨17, 1, .rw, 0⟩, ⟨18, 1, .rw, 0⟩, ⟨19, 1, .rw, 0⟩, ⟨20, 2, .rw, 0⟩]⟩,
  ⟨.BANK, 0x10000, 4, 16384, 4, 1, .region 4096, [⟨0, 32, .ro, 0⟩]⟩,
  ⟨.LOAD_CTRL, 0x20000, 4, 1, 4, 1, .xbar, [⟨0, 1, .rw, 0⟩, ⟨1, 1, .rw, 0⟩, ⟨2, 1, .rw, 0⟩]⟩,
  ⟨.LOAD_DATA, 0x20004, 4, 1, 4, 1, .xbar, [⟨0, 32, .rw, 0⟩]⟩,
  ⟨.LOAD_STATUS, 0x20008, 4, 1, 4, 1, .xbar, [⟨0, 3, .ro, 0⟩, ⟨3, 5, .ro, 0⟩, ⟨8, 7, .ro, 0x40⟩, ⟨15, 1, .rc, 0⟩,
    ⟨16, 4, .ro, 0⟩, ⟨20, 2, .ro, 0⟩, ⟨22, 1, .rc, 0⟩, ⟨23, 2, .ro, 0⟩, ⟨25, 1, .ro, 0⟩]⟩,
  ⟨.IMG_ID_LO, 0x2000C, 4, 1, 4, 1, .xbar, [⟨0, 32, .ro, 0⟩]⟩,
  ⟨.IMG_ID_HI, 0x20010, 4, 1, 4, 1, .xbar, [⟨0, 32, .ro, 0⟩]⟩,
  ⟨.LOAD_GAP, 0x20014, 4, 1, 4, 1, .xbar, [⟨0, 16, .rw, 0x258⟩]⟩,
  ⟨.LOAD_GEN, 0x20018, 4, 1, 4, 1, .xbar, [⟨0, 32, .ro, 0⟩]⟩,
  ⟨.LOAD_BOOTERR, 0x2001C, 4, 1, 4, 1, .xbar, [⟨0, 5, .ro, 0⟩, ⟨5, 5, .ro, 0⟩]⟩,
  ⟨.DT_CTRL, 0x20020, 4, 1, 4, 1, .xbar, [⟨0, 2, .rw, 0⟩, ⟨2, 1, .rw, 0⟩, ⟨3, 1, .rw, 0⟩]⟩,
  ⟨.DT_STAT, 0x20024, 4, 1, 4, 1, .xbar, [⟨0, 3, .ro, 0⟩, ⟨3, 2, .ro, 0⟩, ⟨5, 1, .rc, 0⟩, ⟨16, 16, .rc, 0⟩]⟩]

/-- Rows LOAD_LASTP_LO to EDW_CTRL of the map (R494, R496). -/
def regRows10 : List RegRow := [
  ⟨.LOAD_LASTP_LO, 0x20028, 4, 1, 4, 1, .aon, [⟨0, 32, .ro, 0⟩]⟩,
  ⟨.LOAD_LASTP_HI, 0x2002C, 4, 1, 4, 1, .aon, [⟨0, 31, .ro, 0⟩, ⟨31, 1, .ro, 0⟩]⟩,
  ⟨.TRACE_CTRL, 0x20040, 4, 1, 4, 1, .xbar, [⟨0, 1, .rw, 0⟩, ⟨1, 1, .rw, 0⟩, ⟨2, 4, .rw, 0⟩, ⟨6, 11, .rw, 0⟩, ⟨17,
    1, .rw, 0⟩, ⟨18, 1, .rw, 0⟩]⟩,
  ⟨.TRACE_DATA, 0x20044, 4, 1, 4, 1, .xbar, [⟨0, 32, .ro, 0⟩]⟩,
  ⟨.TRACE_SEL, 0x20048, 4, 1, 4, 1, .xbar, [⟨0, 13, .rw, 0⟩, ⟨13, 13, .rw, 0x1FFF⟩, ⟨26, 4, .rw, 0xF⟩]⟩,
  ⟨.TRACE_STAT, 0x2004C, 4, 1, 4, 1, .xbar, [⟨0, 12, .ro, 0⟩, ⟨12, 1, .ro, 0⟩, ⟨13, 1, .rc, 0⟩, ⟨14, 1, .ro, 0⟩,
    ⟨16, 16, .rc, 0⟩]⟩,
  ⟨.TRACE_RDPTR, 0x20050, 4, 1, 4, 1, .xbar, [⟨0, 13, .rw, 0⟩, ⟨13, 16, .ro, 0⟩]⟩,
  ⟨.TRACE_TRIG, 0x20054, 4, 1, 4, 1, .xbar, [⟨0, 13, .rw, 0⟩, ⟨13, 4, .rw, 0⟩, ⟨17, 11, .rw, 0⟩]⟩,
  ⟨.TRACE_DBADDR, 0x20058, 4, 1, 4, 1, .xbar, [⟨4, 28, .rw, 0⟩]⟩,
  ⟨.TRACE_DBCTRL, 0x2005C, 4, 1, 4, 1, .xbar, [⟨0, 12, .rw, 0x400⟩]⟩,
  ⟨.TEST_CTRL, 0x20060, 4, 1, 4, 1, .xbar, [⟨0, 1, .rw, 0⟩, ⟨1, 1, .rw, 0⟩, ⟨2, 5, .rw, 0⟩, ⟨7, 1, .rw, 0⟩, ⟨8, 1,
    .rc, 0⟩, ⟨9, 1, .rw, 0⟩]⟩,
  ⟨.TEST_MSG, 0x20064, 4, 4, 4, 1, .xbar, [⟨0, 32, .rw, 0⟩]⟩,
  ⟨.TEST_LSEL, 0x20074, 4, 1, 4, 1, .xbar, [⟨0, 2, .rw, 0⟩, ⟨2, 2, .rw, 0⟩, ⟨4, 2, .rw, 2⟩, ⟨6, 3, .rw, 0⟩, ⟨9, 4,
    .ro, 0⟩]⟩,
  ⟨.TEST_LERR, 0x20078, 4, 1, 4, 1, .xbar, [⟨0, 32, .rc, 0⟩]⟩,
  ⟨.FIRN_BIST, 0x2007C, 4, 1, 4, 1, .aon, [⟨0, 1, .rw, 0⟩, ⟨1, 1, .rc, 0⟩, ⟨2, 1, .ro, 0⟩, ⟨3, 15, .ro, 0⟩, ⟨18,
    14, .ro, 0⟩]⟩,
  ⟨.EDW_CTRL, 0x21000, 4, 1, 4, 1, .edw, [⟨0, 1, .rw, 0⟩]⟩]

/-- Rows EDW_STAT to H_CTRL of the map (R494, R496). -/
def regRows11 : List RegRow := [
  ⟨.EDW_STAT, 0x21004, 4, 1, 4, 1, .edw, [⟨0, 1, .ro, 0⟩, ⟨1, 1, .ro, 0⟩, ⟨2, 1, .ro, 0⟩, ⟨3, 1, .ro, 0⟩, ⟨4, 1,
    .rc, 0⟩, ⟨5, 1, .rc, 0⟩, ⟨16, 16, .rc, 0⟩]⟩,
  ⟨.EDW_TAMPER, 0x21008, 4, 1, 4, 1, .edw, [⟨0, 1, .rh, 0⟩, ⟨1, 1, .rh, 0⟩, ⟨16, 16, .ro, 0⟩]⟩,
  ⟨.EDW_TADDR, 0x2100C, 4, 1, 4, 1, .edw, [⟨0, 12, .ro, 0⟩, ⟨12, 12, .ro, 0⟩]⟩,
  ⟨.EDW_SCNT_LO, 0x21010, 4, 1, 4, 1, .edw, [⟨0, 32, .ro, 0⟩]⟩,
  ⟨.EDW_SCNT_HI, 0x21014, 4, 1, 4, 1, .edw, [⟨0, 32, .ro, 0⟩]⟩,
  ⟨.EDW_STIME_LO, 0x21018, 4, 1, 4, 1, .edw, [⟨0, 32, .ro, 0⟩]⟩,
  ⟨.EDW_STIME_HI, 0x2101C, 4, 1, 4, 1, .edw, [⟨0, 32, .ro, 0⟩]⟩,
  ⟨.EDW_MAC, 0x21020, 4, 8, 4, 1, .edw, [⟨0, 32, .ro, 0⟩]⟩,
  ⟨.EDW_GLB, 0x21040, 4, 1, 4, 1, .edw, [⟨0, 16, .w1, 0⟩, ⟨16, 8, .w1, 0⟩]⟩,
  ⟨.EDW_CH, 0x21100, 4, 64, 4, 1, .edw, [⟨0, 1, .w1, 0⟩, ⟨1, 7, .w1, 0⟩, ⟨8, 5, .w1, 0⟩, ⟨13, 1, .w1, 0⟩, ⟨14, 1,
    .w1, 0⟩]⟩,
  ⟨.EDW_VAL_LO, 0x21200, 0x10, 64, 4, 1, .edw, [⟨0, 32, .ro, 0⟩]⟩,
  ⟨.EDW_VAL_HI, 0x21204, 0x10, 64, 4, 1, .edw, [⟨0, 32, .ro, 0⟩]⟩,
  ⟨.EDW_UCNT, 0x21208, 0x10, 64, 4, 1, .edw, [⟨0, 31, .ro, 0⟩, ⟨31, 1, .rc, 0⟩]⟩,
  ⟨.H_ID, 0x100000, 4, 1, 4, 1, .gate, [⟨0, 4, .ro, 0⟩, ⟨4, 4, .ro, 1⟩, ⟨8, 8, .ro, 0x6E⟩, ⟨16, 2, .ro, 2⟩, ⟨20,
    12, .ro, 0xA5⟩]⟩,
  ⟨.H_CAPS, 0x100004, 4, 1, 4, 1, .gate, [⟨0, 8, .ro, 0⟩, ⟨8, 4, .ro, 0⟩, ⟨12, 1, .ro, 1⟩, ⟨13, 1, .ro, 1⟩, ⟨16, 4,
    .ro, 1⟩]⟩,
  ⟨.H_CTRL, 0x100008, 4, 1, 4, 1, .gate, [⟨0, 1, .rw, 0⟩, ⟨1, 1, .w1, 0⟩, ⟨16, 9, .rw, 0⟩]⟩]

/-- Rows H_STATUS to SLC_RBASE_HI of the map (R494, R496). -/
def regRows12 : List RegRow := [
  ⟨.H_STATUS, 0x10000C, 4, 1, 4, 1, .gate, [⟨0, 5, .ro, 0⟩, ⟨5, 1, .ro, 0⟩, ⟨6, 2, .ro, 0⟩, ⟨8, 1, .ro, 0⟩, ⟨9, 1,
    .ro, 1⟩]⟩,
  ⟨.H_FAULT, 0x100010, 4, 1, 4, 1, .gate, [⟨0, 1, .rh, 0⟩, ⟨1, 1, .rh, 0⟩, ⟨2, 1, .rh, 0⟩, ⟨3, 1, .rh, 0⟩, ⟨4, 1,
    .rh, 0⟩, ⟨5, 1, .rh, 0⟩, ⟨6, 1, .rh, 0⟩, ⟨7, 1, .rh, 0⟩, ⟨8, 1, .rh, 0⟩]⟩,
  ⟨.H_LOCKVIOL, 0x100014, 4, 1, 4, 1, .gate, [⟨0, 16, .rc, 0⟩, ⟨16, 4, .ro, 0⟩]⟩,
  ⟨.H_LOCKVADDR, 0x100018, 4, 1, 4, 1, .gate, [⟨0, 20, .ro, 0⟩, ⟨31, 1, .rc, 0⟩]⟩,
  ⟨.H_BUSERR, 0x10001C, 4, 1, 4, 1, .gate, [⟨0, 20, .ro, 0⟩, ⟨20, 4, .ro, 0⟩, ⟨24, 3, .ro, 0⟩, ⟨27, 1, .ro, 0⟩,
    ⟨28, 1, .ro, 0⟩, ⟨31, 1, .rc, 0⟩]⟩,
  ⟨.GATE_CTRL, 0x100100, 4, 1, 4, 1, .gate, [⟨0, 1, .rw, 0⟩, ⟨1, 10, .rw, 0x3FF⟩, ⟨11, 1, .rw, 0⟩, ⟨12, 8, .rw,
    0x10⟩]⟩,
  ⟨.GATE_STAT, 0x100104, 4, 1, 4, 1, .gate, [⟨0, 8, .ro, 0⟩, ⟨8, 2, .ro, 0⟩, ⟨10, 1, .rc, 0⟩, ⟨11, 7, .ro, 0x40⟩]⟩,
  ⟨.GATE_POOL, 0x100108, 4, 1, 4, 1, .gate, [⟨0, 17, .ro, 0x10000⟩, ⟨17, 11, .ro, 0x3FF⟩]⟩,
  ⟨.GATE_EVT, 0x10010C, 4, 1, 4, 1, .gate, [⟨0, 1, .rc, 0⟩, ⟨1, 1, .rc, 0⟩, ⟨2, 1, .rc, 0⟩, ⟨3, 1, .rc, 0⟩]⟩,
  ⟨.SLC_CMD, 0x100110, 4, 1, 4, 1, .gate, [⟨0, 8, .rw, 0⟩, ⟨8, 3, .rw, 0⟩, ⟨31, 1, .rw, 0⟩]⟩,
  ⟨.SLC_CMDRES, 0x100114, 4, 1, 4, 1, .gate, [⟨0, 4, .ro, 0⟩, ⟨4, 8, .ro, 0⟩, ⟨31, 1, .rc, 0⟩]⟩,
  ⟨.H_TIME_LO, 0x101000, 4, 1, 4, 1, .gaon, [⟨0, 32, .ro, 0⟩]⟩,
  ⟨.H_TIME_HI, 0x101004, 4, 1, 4, 1, .gaon, [⟨0, 32, .ro, 0⟩]⟩,
  ⟨.SLC_KEY, 0x104000, 0x40, 256, 4, 1, .gate, [⟨0, 20, .rw, 0⟩, ⟨20, 1, .rw, 0⟩, ⟨21, 1, .rw, 0⟩, ⟨22, 4, .rw, 0⟩]⟩,
  ⟨.SLC_RBASE_LO, 0x104004, 0x40, 256, 4, 1, .gate, [⟨0, 32, .rw, 0⟩]⟩,
  ⟨.SLC_RBASE_HI, 0x104008, 0x40, 256, 4, 1, .gate, [⟨0, 32, .rw, 0⟩]⟩]

/-- Rows SLC_RING to ARBW_GRANTS of the map (R494, R496). -/
def regRows13 : List RegRow := [
  ⟨.SLC_RING, 0x10400C, 0x40, 256, 4, 1, .gate, [⟨0, 5, .rw, 3⟩]⟩,
  ⟨.SLC_SHARE, 0x104010, 0x40, 256, 4, 1, .gate, [⟨0, 17, .ws, 0⟩]⟩,
  ⟨.SLC_VEC, 0x104014, 0x40, 256, 4, 1, .gate, [⟨0, 10, .rw, 0⟩, ⟨10, 4, .rw, 0⟩, ⟨14, 6, .rw, 0⟩, ⟨20, 1, .rw, 0⟩]⟩,
  ⟨.SLC_STATE, 0x104018, 0x40, 256, 4, 1, .gate, [⟨0, 3, .ro, 0⟩, ⟨3, 1, .rc, 0⟩, ⟨4, 1, .ro, 0⟩, ⟨5, 17, .ro, 0⟩]⟩,
  ⟨.SLC_PROD, 0x10401C, 0x40, 256, 4, 1, .gate, [⟨0, 32, .ro, 0⟩]⟩,
  ⟨.SLC_CONS, 0x104020, 0x40, 256, 4, 1, .gate, [⟨0, 32, .ro, 0⟩]⟩,
  ⟨.SLC_GRANT, 0x104024, 0x40, 256, 4, 1, .gate, [⟨0, 17, .ro, 0⟩]⟩,
  ⟨.SLC_WR, 0x104028, 0x40, 256, 4, 1, .gate, [⟨0, 32, .rc, 0⟩]⟩,
  ⟨.SLC_DISC, 0x10402C, 0x40, 256, 4, 1, .gate, [⟨0, 16, .rc, 0⟩, ⟨16, 16, .rc, 0⟩]⟩,
  ⟨.SLC_VWR, 0x104030, 0x40, 256, 4, 1, .gate, [⟨0, 12, .rw, 0⟩, ⟨12, 13, .rw, 0⟩]⟩,
  ⟨.ARBW_CTRL, 0x10C000, 0x200, 2, 4, 1, .gate, [⟨0, 7, .ws, 8⟩, ⟨7, 1, .rw, 0⟩, ⟨8, 12, .ws, 0x100⟩, ⟨20, 1, .ws,
    1⟩]⟩,
  ⟨.ARBW_STAT, 0x10C004, 0x200, 2, 4, 1, .gate, [⟨0, 1, .ro, 1⟩, ⟨1, 1, .ro, 0⟩, ⟨2, 5, .ro, 0⟩, ⟨7, 1, .ro, 0⟩,
    ⟨8, 6, .ro, 0⟩]⟩,
  ⟨.ARBW_EVT, 0x10C008, 0x200, 2, 4, 1, .gate, [⟨0, 16, .rc, 0⟩, ⟨16, 16, .rc, 0⟩]⟩,
  ⟨.ARBW_WT, 0x10C010, 0x200, 2, 4, 4, .gate, [⟨0, 8, .ws, 1⟩, ⟨8, 8, .ws, 1⟩, ⟨16, 8, .ws, 1⟩, ⟨24, 8, .ws, 1⟩]⟩,
  ⟨.ARBW_WTL, 0x10C020, 0x200, 2, 4, 1, .gate, [⟨0, 8, .ws, 1⟩]⟩,
  ⟨.ARBW_GRANTS, 0x10C040, 0x200, 2, 0xC, 17, .gate, [⟨0, 32, .ro, 0⟩]⟩]

/-- Rows ARBW_WAITED to HMPU_FADDR_LO of the map (R494, R496). -/
def regRows14 : List RegRow := [
  ⟨.ARBW_WAITED, 0x10C044, 0x200, 2, 0xC, 17, .gate, [⟨0, 32, .ro, 0⟩]⟩,
  ⟨.ARBW_LONGEST, 0x10C048, 0x200, 2, 0xC, 17, .gate, [⟨0, 16, .rc, 0⟩]⟩,
  ⟨.H_PWR_CFG, 0x10F500, 4, 4, 4, 1, .gaon, [⟨0, 1, .ws, 1⟩, ⟨1, 1, .ws, 0⟩]⟩,
  ⟨.H_PWR_REQ, 0x10F560, 4, 1, 4, 1, .gaon, [⟨0, 5, .rw, 0⟩, ⟨5, 1, .rw, 0⟩, ⟨31, 1, .rw, 0⟩]⟩,
  ⟨.H_PWR_RES, 0x10F564, 4, 1, 4, 1, .gaon, [⟨0, 3, .ro, 0⟩, ⟨3, 5, .ro, 0⟩, ⟨31, 1, .rc, 0⟩]⟩,
  ⟨.H_PWR_STATE_LO, 0x10F568, 4, 1, 4, 1, .gaon, [⟨0, 2, .ro, 0⟩, ⟨2, 2, .ro, 0⟩, ⟨4, 2, .ro, 0⟩, ⟨6, 2, .ro, 0⟩]⟩,
  ⟨.H_WB_CTRL, 0x10F570, 4, 1, 4, 1, .gaon, [⟨0, 8, .ws, 0x10⟩, ⟨8, 8, .ws, 8⟩]⟩,
  ⟨.H_WB_COST, 0x10F574, 4, 1, 4, 1, .gaon, [⟨0, 4, .ws, 4⟩, ⟨4, 4, .ws, 2⟩, ⟨8, 4, .ws, 3⟩, ⟨12, 4, .ws, 6⟩, ⟨16,
    4, .ws, 1⟩]⟩,
  ⟨.H_WB_STAT, 0x10F578, 4, 1, 4, 1, .gaon, [⟨0, 8, .ro, 0⟩, ⟨8, 8, .ro, 0⟩, ⟨16, 5, .ro, 0⟩]⟩,
  ⟨.H_WB_CNT, 0x10F57C, 4, 1, 4, 1, .gaon, [⟨0, 16, .rc, 0⟩, ⟨16, 16, .rc, 0⟩]⟩,
  ⟨.H_RST_REQ, 0x10F590, 4, 1, 4, 1, .gaon, [⟨0, 3, .rw, 0⟩, ⟨3, 6, .rw, 0⟩, ⟨31, 1, .rw, 0⟩]⟩,
  ⟨.H_RST_STAT, 0x10F594, 4, 1, 4, 1, .gaon, [⟨0, 3, .ro, 0⟩, ⟨3, 6, .ro, 0⟩, ⟨16, 16, .rc, 0⟩]⟩,
  ⟨.H_SU_STAT, 0x10F5A0, 4, 1, 4, 1, .gaon, [⟨0, 3, .ro, 0⟩, ⟨3, 1, .ro, 1⟩, ⟨4, 3, .ro, 0⟩, ⟨7, 1, .ro, 0⟩, ⟨8, 1,
    .rc, 0⟩, ⟨9, 1, .rc, 0⟩]⟩,
  ⟨.HMPU_CTRL, 0x10F800, 0x200, 2, 4, 1, .gate, [⟨0, 1, .rw, 0⟩]⟩,
  ⟨.HMPU_FSTAT, 0x10F804, 0x200, 2, 4, 1, .gate, [⟨0, 1, .rc, 0⟩, ⟨1, 2, .ro, 0⟩, ⟨3, 4, .ro, 0⟩, ⟨7, 1, .ro, 0⟩,
    ⟨8, 8, .ro, 0⟩, ⟨16, 16, .rc, 0⟩]⟩,
  ⟨.HMPU_FADDR_LO, 0x10F808, 0x200, 2, 4, 1, .gate, [⟨0, 32, .ro, 0⟩]⟩]

/-- Rows HMPU_FADDR_HI to HSEAL_MAC_LO of the map (R494, R496). -/
def regRows15 : List RegRow := [
  ⟨.HMPU_FADDR_HI, 0x10F80C, 0x200, 2, 4, 1, .gate, [⟨0, 32, .ro, 0⟩]⟩,
  ⟨.HMPU_RBASE_LO, 0x10F840, 0x200, 2, 0x10, 16, .gate, [⟨0, 32, .rw, 0⟩]⟩,
  ⟨.HMPU_RBASE_HI, 0x10F844, 0x200, 2, 0x10, 16, .gate, [⟨0, 32, .rw, 0⟩]⟩,
  ⟨.HMPU_RCFG, 0x10F848, 0x200, 2, 0x10, 16, .gate, [⟨0, 1, .rw, 0⟩, ⟨1, 6, .rw, 8⟩, ⟨7, 8, .rw, 0⟩, ⟨15, 1, .rw,
    0⟩, ⟨16, 1, .rw, 0⟩, ⟨17, 1, .rw, 0⟩, ⟨18, 1, .rw, 0⟩, ⟨19, 1, .rw, 0⟩, ⟨20, 2, .rw, 0⟩]⟩,
  ⟨.H_LOAD_CTRL, 0x120000, 4, 1, 4, 1, .gate, [⟨0, 1, .rw, 0⟩, ⟨1, 1, .rw, 0⟩, ⟨2, 1, .rw, 0⟩]⟩,
  ⟨.H_LOAD_DATA, 0x120004, 4, 1, 4, 1, .gate, [⟨0, 32, .rw, 0⟩]⟩,
  ⟨.H_LOAD_STATUS, 0x120008, 4, 1, 4, 1, .gate, [⟨0, 3, .ro, 0⟩, ⟨3, 5, .ro, 0⟩, ⟨8, 7, .ro, 0x40⟩, ⟨15, 1, .rc,
    0⟩, ⟨16, 4, .ro, 0⟩, ⟨20, 2, .ro, 0⟩, ⟨22, 1, .rc, 0⟩, ⟨23, 2, .ro, 0⟩, ⟨25, 1, .ro, 0⟩]⟩,
  ⟨.H_IMG_ID_LO, 0x12000C, 4, 1, 4, 1, .gate, [⟨0, 32, .ro, 0⟩]⟩,
  ⟨.H_IMG_ID_HI, 0x120010, 4, 1, 4, 1, .gate, [⟨0, 32, .ro, 0⟩]⟩,
  ⟨.H_LOAD_GAP, 0x120014, 4, 1, 4, 1, .gate, [⟨0, 16, .rw, 0x258⟩]⟩,
  ⟨.H_LOAD_GEN, 0x120018, 4, 1, 4, 1, .gate, [⟨0, 32, .ro, 0⟩]⟩,
  ⟨.HEDW_CFG, 0x121000, 4, 1, 4, 1, .gedw, [⟨0, 1, .w1, 0⟩]⟩,
  ⟨.HEDW_STAT, 0x121004, 4, 1, 4, 1, .gedw, [⟨0, 1, .rc, 0⟩, ⟨1, 1, .rc, 0⟩]⟩,
  ⟨.HSEAL_LO, 0x121008, 4, 1, 4, 1, .gedw, [⟨0, 32, .ro, 0⟩]⟩,
  ⟨.HSEAL_HI, 0x12100C, 4, 1, 4, 1, .gedw, [⟨0, 32, .ro, 0⟩]⟩,
  ⟨.HSEAL_MAC_LO, 0x121010, 4, 1, 4, 1, .gedw, [⟨0, 32, .ro, 0⟩]⟩]

/-- Rows HSEAL_MAC_HI to PG_VWRES of the map (R494, R496). -/
def regRows16 : List RegRow := [
  ⟨.HSEAL_MAC_HI, 0x121014, 4, 1, 4, 1, .gedw, [⟨0, 32, .ro, 0⟩]⟩,
  ⟨.HMTR_LO, 0x121100, 0x10, 64, 4, 1, .gedw, [⟨0, 32, .ro, 0⟩]⟩,
  ⟨.HMTR_HI, 0x121104, 0x10, 64, 4, 1, .gedw, [⟨0, 32, .ro, 0⟩]⟩,
  ⟨.HMTR_CNT, 0x121108, 0x10, 64, 4, 1, .gedw, [⟨0, 32, .ro, 0⟩]⟩,
  ⟨.SLC_DIRTY, 0x122000, 0x80, 256, 4, 17, .gate, [⟨0, 32, .rc, 0⟩]⟩,
  ⟨.PG_PROD, 0x200000, 0x1000, 256, 4, 1, .gate, [⟨0, 32, .ro, 0⟩]⟩,
  ⟨.PG_CONS, 0x200004, 0x1000, 256, 4, 1, .gate, [⟨0, 32, .rw, 0⟩]⟩,
  ⟨.PG_ARM, 0x200008, 0x1000, 256, 4, 1, .gate, [⟨0, 1, .rw, 0⟩]⟩,
  ⟨.PG_STAT, 0x20000C, 0x1000, 256, 4, 1, .gate, [⟨0, 3, .ro, 0⟩, ⟨3, 1, .rc, 0⟩, ⟨4, 1, .rc, 0⟩, ⟨5, 17, .ro, 0⟩]⟩,
  ⟨.PG_VW, 0x200010, 0x1000, 256, 4, 1, .gate, [⟨0, 28, .rw, 0⟩]⟩,
  ⟨.PG_VWRES, 0x200014, 0x1000, 256, 4, 1, .gate, [⟨0, 1, .ro, 0⟩, ⟨1, 1, .ro, 0⟩, ⟨2, 4, .ro, 0⟩, ⟨6, 1, .rc, 0⟩,
    ⟨31, 1, .ro, 0⟩]⟩]

/-- The register map. -/
def regRows : List RegRow :=
  regRows0 ++ regRows1 ++ regRows2 ++ regRows3 ++ regRows4 ++ regRows5 ++ regRows6 ++ regRows7 ++ regRows8 ++ regRows9 ++ regRows10 ++ regRows11 ++ regRows12 ++ regRows13 ++ regRows14 ++ regRows15 ++ regRows16

/-- The indexes of the word at an offset, when the row names it. -/
def RegRow.index (r : RegRow) (off : Nat) : Option (Nat × Nat) :=
  if off < r.base then none
  else
    let d := off - r.base
    let i := if r.n1 = 1 then 0 else d / r.s1
    let e := d - i * r.s1
    let j := if r.n2 = 1 then 0 else e / r.s2
    if i < r.n1 ∧ j < r.n2 ∧ r.s1 * i + r.s2 * j = d then some (i, j) else none

/-- The row and indexes of the word at an offset; none for a reserved location (R484). -/
def findReg (off : Nat) : Option (RegRow × Nat × Nat) :=
  regRows.findSome? fun r => (r.index off).map fun p => (r, p.1, p.2)

namespace Reg

/-- ID.MINOR, RO. -/
def ID_MINOR : Fld := ⟨0, 0, 4, 0⟩
/-- ID.MAJOR, RO. -/
def ID_MAJOR : Fld := ⟨0, 4, 4, 1⟩
/-- ID.PART, RO. -/
def ID_PART : Fld := ⟨0, 8, 8, 0x6E⟩
/-- ID.KIND, RO. -/
def ID_KIND : Fld := ⟨0, 16, 2, 1⟩
/-- ID.VENDOR, RO. -/
def ID_VENDOR : Fld := ⟨0, 20, 12, 0xA5⟩
/-- CAPS.UNITS, RO. -/
def CAPS_UNITS : Fld := ⟨4, 0, 8, 0x40⟩
/-- CAPS.PORTS, RO. -/
def CAPS_PORTS : Fld := ⟨4, 8, 4, 4⟩
/-- CAPS.EDW, RO. -/
def CAPS_EDW : Fld := ⟨4, 12, 1, 1⟩
/-- CAPS.BARRIER, RO. -/
def CAPS_BARRIER : Fld := ⟨4, 13, 1, 1⟩
/-- CAPS.FORMAT, RO. -/
def CAPS_FORMAT : Fld := ⟨4, 16, 4, 1⟩
/-- CTRL.FLTEN, RW. -/
def CTRL_FLTEN : Fld := ⟨8, 0, 1, 0⟩
/-- CTRL.DBGOFF, W1. -/
def CTRL_DBGOFF : Fld := ⟨8, 1, 1, 0⟩
/-- CTRL.FLTMASK, RW. -/
def CTRL_FLTMASK : Fld := ⟨8, 16, 9, 0⟩
/-- STATUS.ORIGIN, RO. -/
def STATUS_ORIGIN : Fld := ⟨0xC, 0, 5, 0⟩
/-- STATUS.FLT, RO. -/
def STATUS_FLT : Fld := ⟨0xC, 5, 1, 0⟩
/-- STATUS.RDP, RO. -/
def STATUS_RDP : Fld := ⟨0xC, 6, 2, 0⟩
/-- STATUS.OPEN, RO. -/
def STATUS_OPEN : Fld := ⟨0xC, 8, 1, 0⟩
/-- STATUS.RECOV, RO. -/
def STATUS_RECOV : Fld := ⟨0xC, 9, 1, 1⟩
/-- FAULT.FIRNNEAR, RH. -/
def FAULT_FIRNNEAR : Fld := ⟨0x10, 0, 1, 0⟩
/-- FAULT.FIRNPSN, RH. -/
def FAULT_FIRNPSN : Fld := ⟨0x10, 1, 1, 0⟩
/-- FAULT.LANEDN, RH. -/
def FAULT_LANEDN : Fld := ⟨0x10, 2, 1, 0⟩
/-- FAULT.ALOST, RH. -/
def FAULT_ALOST : Fld := ⟨0x10, 3, 1, 0⟩
/-- FAULT.NOROUTE, RH. -/
def FAULT_NOROUTE : Fld := ⟨0x10, 4, 1, 0⟩
/-- FAULT.NOSPARE, RH. -/
def FAULT_NOSPARE : Fld := ⟨0x10, 5, 1, 0⟩
/-- FAULT.MRNSTOP, RH. -/
def FAULT_MRNSTOP : Fld := ⟨0x10, 6, 1, 0⟩
/-- FAULT.TAMPER, RH. -/
def FAULT_TAMPER : Fld := ⟨0x10, 7, 1, 0⟩
/-- FAULT.PWRFAIL, RH. -/
def FAULT_PWRFAIL : Fld := ⟨0x10, 8, 1, 0⟩
/-- LOCKVIOL.COUNT, RC. -/
def LOCKVIOL_COUNT : Fld := ⟨0x14, 0, 16, 0⟩
/-- LOCKVIOL.MID, RO. -/
def LOCKVIOL_MID : Fld := ⟨0x14, 16, 4, 0⟩
/-- LOCKVADDR.OFFSET, RO. -/
def LOCKVADDR_OFFSET : Fld := ⟨0x18, 0, 20, 0⟩
/-- LOCKVADDR.VALID, RC. -/
def LOCKVADDR_VALID : Fld := ⟨0x18, 31, 1, 0⟩
/-- BUSERR.OFFSET, RO. -/
def BUSERR_OFFSET : Fld := ⟨0x1C, 0, 20, 0⟩
/-- BUSERR.MID, RO. -/
def BUSERR_MID : Fld := ⟨0x1C, 20, 4, 0⟩
/-- BUSERR.CAUSE, RO. -/
def BUSERR_CAUSE : Fld := ⟨0x1C, 24, 3, 0⟩
/-- BUSERR.WR, RO. -/
def BUSERR_WR : Fld := ⟨0x1C, 27, 1, 0⟩
/-- BUSERR.DBG, RO. -/
def BUSERR_DBG : Fld := ⟨0x1C, 28, 1, 0⟩
/-- BUSERR.VALID, RC. -/
def BUSERR_VALID : Fld := ⟨0x1C, 31, 1, 0⟩
/-- ACC_CTRL.PAIRPOL, WS. -/
def ACC_CTRL_PAIRPOL : Fld := ⟨0x100, 0, 1, 0⟩
/-- ACC_CTRL.PAIRTMO, WS. -/
def ACC_CTRL_PAIRTMO : Fld := ⟨0x100, 8, 8, 0x40⟩
/-- ACC_HQUOTA.HQUOTA, WS. -/
def ACC_HQUOTA_HQUOTA : Fld := ⟨0x104, 0, 15, 0x800⟩
/-- ACC_HQUOTA.HUSED, RO. -/
def ACC_HQUOTA_HUSED : Fld := ⟨0x104, 16, 15, 0⟩
/-- ACC_HQUOTA.HFULL, RO. -/
def ACC_HQUOTA_HFULL : Fld := ⟨0x104, 31, 1, 0⟩
/-- ACC_LASTREF.SOURCE, RO. -/
def ACC_LASTREF_SOURCE : Fld := ⟨0x108, 0, 13, 0⟩
/-- ACC_LASTREF.REASON, RO. -/
def ACC_LASTREF_REASON : Fld := ⟨0x108, 16, 4, 0⟩
/-- ACC_LASTREF.KIND, RO. -/
def ACC_LASTREF_KIND : Fld := ⟨0x108, 20, 3, 0⟩
/-- ACC_LASTREF.VALID, RC. -/
def ACC_LASTREF_VALID : Fld := ⟨0x108, 31, 1, 0⟩
/-- ACC_REF.COUNT, RC. -/
def ACC_REF (i : Nat) : Fld := ⟨0x110 + 4 * i, 0, 32, 0⟩
/-- ACC_WINMISS.COUNT, RC. -/
def ACC_WINMISS : Fld := ⟨0x138, 0, 32, 0⟩
/-- ACC_COAL.COUNT, RC. -/
def ACC_COAL : Fld := ⟨0x13C, 0, 32, 0⟩
/-- ACC_ACCEPT.COUNT, RC. -/
def ACC_ACCEPT : Fld := ⟨0x140, 0, 32, 0⟩
/-- CAMP_STAT.STATE, RO. -/
def CAMP_STAT_STATE (i : Nat) : Fld := ⟨0x400 + 0x10 * i, 0, 2, 0⟩
/-- CAMP_STAT.QLEN, RO. -/
def CAMP_STAT_QLEN (i : Nat) : Fld := ⟨0x400 + 0x10 * i, 2, 3, 0⟩
/-- CAMP_STAT.FQ, RO. -/
def CAMP_STAT_FQ (i : Nat) : Fld := ⟨0x400 + 0x10 * i, 5, 1, 0⟩
/-- CAMP_STAT.SLOT, RO. -/
def CAMP_STAT_SLOT (i : Nat) : Fld := ⟨0x400 + 0x10 * i, 6, 6, 0⟩
/-- CAMP_STAT.CAUSE, RO. -/
def CAMP_STAT_CAUSE (i : Nat) : Fld := ⟨0x400 + 0x10 * i, 12, 2, 0⟩
/-- CAMP_STAT.SPARE, RO. -/
def CAMP_STAT_SPARE (i : Nat) : Fld := ⟨0x400 + 0x10 * i, 14, 1, 0⟩
/-- CAMP_STAT.TAKEN, RO. -/
def CAMP_STAT_TAKEN (i : Nat) : Fld := ⟨0x400 + 0x10 * i, 15, 1, 0⟩
/-- CAMP_STAT.PHYS, RO. -/
def CAMP_STAT_PHYS (i : Nat) : Fld := ⟨0x400 + 0x10 * i, 16, 6, 0⟩
/-- CAMP_DONE.COUNT, RC. -/
def CAMP_DONE (i : Nat) : Fld := ⟨0x404 + 0x10 * i, 0, 32, 0⟩
/-- CAMP_DISC.DISC, RC. -/
def CAMP_DISC_DISC (i : Nat) : Fld := ⟨0x408 + 0x10 * i, 0, 16, 0⟩
/-- CAMP_DISC.NREP, RC. -/
def CAMP_DISC_NREP (i : Nat) : Fld := ⟨0x408 + 0x10 * i, 16, 16, 0⟩
/-- CAMP_EMIT.EREF, RC. -/
def CAMP_EMIT_EREF (i : Nat) : Fld := ⟨0x40C + 0x10 * i, 0, 16, 0⟩
/-- CAMP_EMIT.ELATE, RC. -/
def CAMP_EMIT_ELATE (i : Nat) : Fld := ⟨0x40C + 0x10 * i, 16, 16, 0⟩
/-- CAMP_RCTRL.SPLOCAL, WS. -/
def CAMP_RCTRL_SPLOCAL (i : Nat) : Fld := ⟨0x800 + 0x10 * i, 0, 4, 0⟩
/-- CAMP_RCTRL.SPEN, WS. -/
def CAMP_RCTRL_SPEN (i : Nat) : Fld := ⟨0x800 + 0x10 * i, 4, 1, 0⟩
/-- CAMP_RCTRL.WDOG, WS. -/
def CAMP_RCTRL_WDOG (i : Nat) : Fld := ⟨0x800 + 0x10 * i, 16, 16, 0x400⟩
/-- CAMP_RFAIL.LOCAL, RW. -/
def CAMP_RFAIL_LOCAL (i : Nat) : Fld := ⟨0x804 + 0x10 * i, 0, 4, 0⟩
/-- CAMP_RFAIL.GO, RW. -/
def CAMP_RFAIL_GO (i : Nat) : Fld := ⟨0x804 + 0x10 * i, 31, 1, 0⟩
/-- CAMP_RERR.ABERR, RC. -/
def CAMP_RERR_ABERR (i : Nat) : Fld := ⟨0x808 + 0x10 * i, 0, 16, 0⟩
/-- CAMP_RERR.BANKCE, RC. -/
def CAMP_RERR_BANKCE (i : Nat) : Fld := ⟨0x808 + 0x10 * i, 16, 16, 0⟩
/-- CAMP_RSTAT.TAKEPEND, RO. -/
def CAMP_RSTAT_TAKEPEND (i : Nat) : Fld := ⟨0x80C + 0x10 * i, 0, 1, 0⟩
/-- CAMP_RSTAT.PENDLOCAL, RO. -/
def CAMP_RSTAT_PENDLOCAL (i : Nat) : Fld := ⟨0x80C + 0x10 * i, 1, 4, 0⟩
/-- CAMP_RSTAT.SPUSED, RO. -/
def CAMP_RSTAT_SPUSED (i : Nat) : Fld := ⟨0x80C + 0x10 * i, 5, 1, 0⟩
/-- CAMP_RSTAT.NOSPARE, RO. -/
def CAMP_RSTAT_NOSPARE (i : Nat) : Fld := ⟨0x80C + 0x10 * i, 6, 1, 0⟩
/-- CAMP_RSTAT.SPDEFER, RO. -/
def CAMP_RSTAT_SPDEFER (i : Nat) : Fld := ⟨0x80C + 0x10 * i, 7, 1, 0⟩
/-- TIME_LO.TIME, RO. -/
def TIME_LO : Fld := ⟨0x1000, 0, 32, 0⟩
/-- TIME_HI.TIME, RO. -/
def TIME_HI : Fld := ⟨0x1004, 0, 32, 0⟩
/-- EPOCH_PERIOD.PERIOD, RW. -/
def EPOCH_PERIOD_PERIOD : Fld := ⟨0x1008, 0, 24, 0xFA0⟩
/-- EPOCH_NUM.NUM, RO. -/
def EPOCH_NUM_NUM : Fld := ⟨0x100C, 0, 32, 0⟩
/-- THAW_STATUS.ACTIVE, RO. -/
def THAW_STATUS_ACTIVE : Fld := ⟨0x1010, 0, 1, 0⟩
/-- THAW_STATUS.OPEN, RO. -/
def THAW_STATUS_OPEN : Fld := ⟨0x1010, 1, 1, 0⟩
/-- THAW_STATUS.SHORT_EPOCH, RC. -/
def THAW_STATUS_SHORT_EPOCH : Fld := ⟨0x1010, 2, 1, 0⟩
/-- THAW_STATUS.STAGED, RO. -/
def THAW_STATUS_STAGED : Fld := ⟨0x1010, 3, 1, 0⟩
/-- THAW_STATUS.LAST, RO. -/
def THAW_STATUS_LAST : Fld := ⟨0x1010, 4, 5, 0⟩
/-- THAW_STATUS.SKIPPED, RC. -/
def THAW_STATUS_SKIPPED : Fld := ⟨0x1010, 16, 8, 0⟩
/-- EPOCH_COUNT.COUNT, RO. -/
def EPOCH_COUNT : Fld := ⟨0x1014, 0, 24, 0⟩
/-- THAW0_LO.TICK, RW. -/
def THAW0_LO : Fld := ⟨0x1018, 0, 32, 0⟩
/-- THAW0_HI.TICK, RW. -/
def THAW0_HI : Fld := ⟨0x101C, 0, 32, 0⟩
/-- TIME_CTRL.UPPORT, WS. -/
def TIME_CTRL_UPPORT : Fld := ⟨0x1020, 0, 2, 0⟩
/-- TIME_CTRL.ALTPORT, WS. -/
def TIME_CTRL_ALTPORT : Fld := ⟨0x1020, 2, 2, 0⟩
/-- TIME_CTRL.ALTEN, WS. -/
def TIME_CTRL_ALTEN : Fld := ⟨0x1020, 4, 1, 0⟩
/-- TIME_CTRL.MASTER, RO. -/
def TIME_CTRL_MASTER : Fld := ⟨0x1020, 5, 1, 0⟩
/-- TIME_CTRL.ALIMIT, WS. -/
def TIME_CTRL_ALIMIT : Fld := ⟨0x1020, 8, 6, 2⟩
/-- TIME_CTRL.SYNCINT, WS. -/
def TIME_CTRL_SYNCINT : Fld := ⟨0x1020, 16, 8, 0x10⟩
/-- TIME_STAT.OFFSET, RO. -/
def TIME_STAT_OFFSET : Fld := ⟨0x1024, 0, 16, 0⟩
/-- TIME_STAT.PORT, RO. -/
def TIME_STAT_PORT : Fld := ⟨0x1024, 16, 2, 0⟩
/-- TIME_STAT.ALOST, RH. -/
def TIME_STAT_ALOST : Fld := ⟨0x1024, 18, 1, 0⟩
/-- TIME_STAT.COARSE, RC. -/
def TIME_STAT_COARSE : Fld := ⟨0x1024, 19, 1, 0⟩
/-- TIME_STAT.STEPPED, RC. -/
def TIME_STAT_STEPPED : Fld := ⟨0x1024, 20, 1, 0⟩
/-- TIME_RATE.RATE, RO. -/
def TIME_RATE_RATE : Fld := ⟨0x1028, 0, 24, 0⟩
/-- CAP_CTRL.EN, RW. -/
def CAP_CTRL_EN : Fld := ⟨0x102C, 0, 16, 0⟩
/-- CAP_CTRL.EDGE, RW. -/
def CAP_CTRL_EDGE : Fld := ⟨0x102C, 16, 16, 0⟩
/-- CAP_STAT.NEW, RO. -/
def CAP_STAT_NEW : Fld := ⟨0x1030, 0, 16, 0⟩
/-- CAP_STAT.OVR, RC. -/
def CAP_STAT_OVR : Fld := ⟨0x1030, 16, 16, 0⟩
/-- TIME_MAKEUP.N, RO. -/
def TIME_MAKEUP_N : Fld := ⟨0x1034, 0, 32, 0⟩
/-- CAPTURE_LO.LO, RO. -/
def CAPTURE_LO_LO (i : Nat) : Fld := ⟨0x1040 + 8 * i, 0, 32, 0⟩
/-- CAPTURE_HI.HI, RO. -/
def CAPTURE_HI_HI (i : Nat) : Fld := ⟨0x1044 + 8 * i, 0, 32, 0⟩
/-- ENAB.EN, RW. -/
def ENAB_EN (i : Nat) : Fld := ⟨0x2400 + 4 * i, 0, 32, 0xFFFFFFFF⟩
/-- COAL.COAL, RC. -/
def COAL (i : Nat) : Fld := ⟨0x2C00 + 4 * i, 0, 32, 0⟩
/-- CLAIM.SOURCE, RC. -/
def CLAIM_SOURCE (i : Nat) : Fld := ⟨0x3000 + 0x40 * i, 0, 13, 0⟩
/-- CLAIM.PRIO, RC. -/
def CLAIM_PRIO (i : Nat) : Fld := ⟨0x3000 + 0x40 * i, 13, 5, 0⟩
/-- CLAIM.REPRES, RC. -/
def CLAIM_REPRES (i : Nat) : Fld := ⟨0x3000 + 0x40 * i, 18, 1, 0⟩
/-- CLAIM.AVAL, RC. -/
def CLAIM_AVAL (i : Nat) : Fld := ⟨0x3000 + 0x40 * i, 19, 1, 0⟩
/-- CLAIM.CLASS, RC. -/
def CLAIM_CLASS (i : Nat) : Fld := ⟨0x3000 + 0x40 * i, 20, 2, 0⟩
/-- CLAIM.ORIGIN, RC. -/
def CLAIM_ORIGIN (i : Nat) : Fld := ⟨0x3000 + 0x40 * i, 22, 5, 0⟩
/-- CLAIM.DEPTH, RC. -/
def CLAIM_DEPTH (i : Nat) : Fld := ⟨0x3000 + 0x40 * i, 27, 4, 0⟩
/-- CLAIM.VALID, RC. -/
def CLAIM_VALID (i : Nat) : Fld := ⟨0x3000 + 0x40 * i, 31, 1, 0⟩
/-- COMPLETE.SEQ, RW. -/
def COMPLETE_SEQ (i : Nat) : Fld := ⟨0x3004 + 0x40 * i, 0, 24, 0⟩
/-- COMPLETE.LASTOK, RO. -/
def COMPLETE_LASTOK (i : Nat) : Fld := ⟨0x3004 + 0x40 * i, 31, 1, 0⟩
/-- THRESH.LEVEL, RW. -/
def THRESH_LEVEL (i : Nat) : Fld := ⟨0x3008 + 0x40 * i, 0, 6, 0⟩
/-- STATE.DEPTH, RO. -/
def STATE_DEPTH (i : Nat) : Fld := ⟨0x300C + 0x40 * i, 0, 4, 0⟩
/-- STATE.TAKEN, RO. -/
def STATE_TAKEN (i : Nat) : Fld := ⟨0x300C + 0x40 * i, 4, 1, 0⟩
/-- STATE.PENDN, RO. -/
def STATE_PENDN (i : Nat) : Fld := ⟨0x300C + 0x40 * i, 5, 5, 0⟩
/-- STATE.RUNPRIO, RO. -/
def STATE_RUNPRIO (i : Nat) : Fld := ⟨0x300C + 0x40 * i, 10, 6, 0x20⟩
/-- STATE.IRQ, RO. -/
def STATE_IRQ (i : Nat) : Fld := ⟨0x300C + 0x40 * i, 16, 1, 0⟩
/-- STATE.HALT, RO. -/
def STATE_HALT (i : Nat) : Fld := ⟨0x300C + 0x40 * i, 17, 1, 0⟩
/-- STATE.SLEEP, RO. -/
def STATE_SLEEP (i : Nat) : Fld := ⟨0x300C + 0x40 * i, 18, 1, 0⟩
/-- STATE.CERR, RC. -/
def STATE_CERR (i : Nat) : Fld := ⟨0x300C + 0x40 * i, 19, 1, 0⟩
/-- ACT_W.MSG, RO. -/
def ACT_W (i j : Nat) : Fld := ⟨0x3010 + 0x40 * i + 4 * j, 0, 32, 0⟩
/-- PREWARM.LEAD, RW. -/
def PREWARM_LEAD (i : Nat) : Fld := ⟨0x3020 + 0x40 * i, 0, 13, 0x190⟩
/-- PREWARM.TOL, RW. -/
def PREWARM_TOL (i : Nat) : Fld := ⟨0x3020 + 0x40 * i, 13, 8, 8⟩
/-- PREWARM.EN, RW. -/
def PREWARM_EN (i : Nat) : Fld := ⟨0x3020 + 0x40 * i, 21, 1, 0⟩
/-- PREWARM.WAKE, RW. -/
def PREWARM_WAKE (i : Nat) : Fld := ⟨0x3020 + 0x40 * i, 22, 1, 1⟩
/-- PW_SRC.SOURCE, RW. -/
def PW_SRC_SOURCE (i j : Nat) : Fld := ⟨0x3024 + 0x40 * i + 0xC * j, 0, 13, 0⟩
/-- PW_SRC.ORIGIN, RW. -/
def PW_SRC_ORIGIN (i j : Nat) : Fld := ⟨0x3024 + 0x40 * i + 0xC * j, 13, 5, 0⟩
/-- PW_SRC.EN, RW. -/
def PW_SRC_EN (i j : Nat) : Fld := ⟨0x3024 + 0x40 * i + 0xC * j, 18, 1, 0⟩
/-- PW_SRC.TOLD, RW. -/
def PW_SRC_TOLD (i j : Nat) : Fld := ⟨0x3024 + 0x40 * i + 0xC * j, 19, 1, 0⟩
/-- PW_SRC.PIN, RW. -/
def PW_SRC_PIN (i j : Nat) : Fld := ⟨0x3024 + 0x40 * i + 0xC * j, 20, 1, 0⟩
/-- PW_PER.PER, RW. -/
def PW_PER_PER (i j : Nat) : Fld := ⟨0x3028 + 0x40 * i + 0xC * j, 0, 24, 0⟩
/-- PW_PER.STATE, RO. -/
def PW_PER_STATE (i j : Nat) : Fld := ⟨0x3028 + 0x40 * i + 0xC * j, 24, 2, 0⟩
/-- PW_PER.WARM, RO. -/
def PW_PER_WARM (i j : Nat) : Fld := ⟨0x3028 + 0x40 * i + 0xC * j, 26, 1, 0⟩
/-- PW_NEXT.NEXT, RW. -/
def PW_NEXT_NEXT (i j : Nat) : Fld := ⟨0x302C + 0x40 * i + 0xC * j, 0, 32, 0⟩
/-- PW_CNT.HIT, RC. -/
def PW_CNT_HIT (i : Nat) : Fld := ⟨0x303C + 0x40 * i, 0, 16, 0⟩
/-- PW_CNT.MISS, RC. -/
def PW_CNT_MISS (i : Nat) : Fld := ⟨0x303C + 0x40 * i, 16, 8, 0⟩
/-- PW_CNT.COLD, RC. -/
def PW_CNT_COLD (i : Nat) : Fld := ⟨0x303C + 0x40 * i, 24, 8, 0⟩
/-- SRC_CFG0.EN, WS. -/
def SRC_CFG0_EN (i : Nat) : Fld := ⟨0x4000 + 0x10 * i, 0, 1, 0⟩
/-- SRC_CFG0.MODE, WS. -/
def SRC_CFG0_MODE (i : Nat) : Fld := ⟨0x4000 + 0x10 * i, 1, 3, 0⟩
/-- SRC_CFG0.CLASS, WS. -/
def SRC_CFG0_CLASS (i : Nat) : Fld := ⟨0x4000 + 0x10 * i, 4, 2, 0⟩
/-- SRC_CFG0.PRIO, WS. -/
def SRC_CFG0_PRIO (i : Nat) : Fld := ⟨0x4000 + 0x10 * i, 6, 5, 0⟩
/-- SRC_CFG0.WINEN, WS. -/
def SRC_CFG0_WINEN (i : Nat) : Fld := ⟨0x4000 + 0x10 * i, 11, 1, 0⟩
/-- SRC_CFG0.WINMODE, WS. -/
def SRC_CFG0_WINMODE (i : Nat) : Fld := ⟨0x4000 + 0x10 * i, 12, 1, 0⟩
/-- SRC_CFG0.CELLED, RO. -/
def SRC_CFG0_CELLED (i : Nat) : Fld := ⟨0x4000 + 0x10 * i, 13, 1, 0⟩
/-- SRC_CFG0.CELL, RO. -/
def SRC_CFG0_CELL (i : Nat) : Fld := ⟨0x4000 + 0x10 * i, 14, 8, 0⟩
/-- SRC_CFG0.LATCH, RO. -/
def SRC_CFG0_LATCH (i : Nat) : Fld := ⟨0x4000 + 0x10 * i, 22, 1, 0⟩
/-- SRC_CFG1.DEST, WS. -/
def SRC_CFG1_DEST (i : Nat) : Fld := ⟨0x4004 + 0x10 * i, 0, 12, 0⟩
/-- SRC_CFG1.SLOT, WS. -/
def SRC_CFG1_SLOT (i : Nat) : Fld := ⟨0x4004 + 0x10 * i, 12, 6, 0⟩
/-- SRC_CFG2.OPEN, WS. -/
def SRC_CFG2_OPEN (i : Nat) : Fld := ⟨0x4008 + 0x10 * i, 0, 16, 0⟩
/-- SRC_CFG2.CLOSE, WS. -/
def SRC_CFG2_CLOSE (i : Nat) : Fld := ⟨0x4008 + 0x10 * i, 16, 16, 0⟩
/-- SRC_CFG3.PAIR, WS. -/
def SRC_CFG3_PAIR (i : Nat) : Fld := ⟨0x400C + 0x10 * i, 0, 1, 0⟩
/-- SRC_CFG3.PARTNER, WS. -/
def SRC_CFG3_PARTNER (i : Nat) : Fld := ⟨0x400C + 0x10 * i, 1, 5, 0⟩
/-- SRC_CFG3.SLICE, WS. -/
def SRC_CFG3_SLICE (i : Nat) : Fld := ⟨0x400C + 0x10 * i, 8, 8, 0⟩
/-- VEC_CFG.DEST, WS. -/
def VEC_CFG_DEST (i : Nat) : Fld := ⟨0x8000 + 4 * i, 0, 12, 0⟩
/-- VEC_CFG.PRIO, WS. -/
def VEC_CFG_PRIO (i : Nat) : Fld := ⟨0x8000 + 4 * i, 12, 5, 0⟩
/-- VEC_CFG.CLASS, WS. -/
def VEC_CFG_CLASS (i : Nat) : Fld := ⟨0x8000 + 4 * i, 17, 2, 0⟩
/-- VEC_CFG.EN, WS. -/
def VEC_CFG_EN (i : Nat) : Fld := ⟨0x8000 + 4 * i, 19, 1, 0⟩
/-- VEC_CFG.WMASK, WS. -/
def VEC_CFG_WMASK (i : Nat) : Fld := ⟨0x8000 + 4 * i, 20, 4, 0⟩
/-- VEC_CFG.BIND, WS. -/
def VEC_CFG_BIND (i : Nat) : Fld := ⟨0x8000 + 4 * i, 24, 8, 0⟩
/-- XB_OCC.G, RO. -/
def XB_OCC_G (i : Nat) : Fld := ⟨0xCC00 + 4 * i, 0, 6, 0⟩
/-- XB_OCC.S, RO. -/
def XB_OCC_S (i : Nat) : Fld := ⟨0xCC00 + 4 * i, 8, 6, 0⟩
/-- XB_OCC.F, RO. -/
def XB_OCC_F (i : Nat) : Fld := ⟨0xCC00 + 4 * i, 16, 6, 0⟩
/-- XB_OCC.SPILL, RO. -/
def XB_OCC_SPILL (i : Nat) : Fld := ⟨0xCC00 + 4 * i, 24, 1, 0⟩
/-- XB_ERR.CE, RC. -/
def XB_ERR_CE : Fld := ⟨0xCC60, 0, 16, 0⟩
/-- XB_ERR.UE, RC. -/
def XB_ERR_UE : Fld := ⟨0xCC60, 16, 16, 0⟩
/-- XB_AVA.COUNT, RC. -/
def XB_AVA : Fld := ⟨0xCC64, 0, 32, 0⟩
/-- RT_ENTRY.VALID, WS. -/
def RT_ENTRY_VALID (i : Nat) : Fld := ⟨0xD000 + 4 * i, 0, 1, 0⟩
/-- RT_ENTRY.DIE, WS. -/
def RT_ENTRY_DIE (i : Nat) : Fld := ⟨0xD000 + 4 * i, 1, 5, 0⟩
/-- RT_ENTRY.VER, WS. -/
def RT_ENTRY_VER (i : Nat) : Fld := ⟨0xD000 + 4 * i, 6, 3, 0⟩
/-- RT_ENTRY.PORT, WS. -/
def RT_ENTRY_PORT (i : Nat) : Fld := ⟨0xD000 + 4 * i, 9, 2, 0⟩
/-- RT_ENTRY.ALTPORT, WS. -/
def RT_ENTRY_ALTPORT (i : Nat) : Fld := ⟨0xD000 + 4 * i, 11, 2, 0⟩
/-- RT_ENTRY.ALTEN, WS. -/
def RT_ENTRY_ALTEN (i : Nat) : Fld := ⟨0xD000 + 4 * i, 13, 1, 0⟩
/-- ROUTE_VER.VER, WS. -/
def ROUTE_VER_VER : Fld := ⟨0xD100, 0, 3, 0⟩
/-- RT_STAT.NOROUTE, RH. -/
def RT_STAT_NOROUTE : Fld := ⟨0xD104, 0, 1, 0⟩
/-- RT_STAT.VERMISS, RC. -/
def RT_STAT_VERMISS : Fld := ⟨0xD104, 16, 16, 0⟩
/-- VER_INFLIGHT.COUNT, RO. -/
def VER_INFLIGHT_COUNT (i : Nat) : Fld := ⟨0xD120 + 4 * i, 0, 16, 0⟩
/-- VER_INFLIGHT.SEEN, RC. -/
def VER_INFLIGHT_SEEN (i : Nat) : Fld := ⟨0xD120 + 4 * i, 31, 1, 0⟩
/-- LNK_CTRL.EN, RW. -/
def LNK_CTRL_EN (i : Nat) : Fld := ⟨0xE000 + 0x100 * i, 0, 1, 0⟩
/-- LNK_CTRL.AUTO, RW. -/
def LNK_CTRL_AUTO (i : Nat) : Fld := ⟨0xE000 + 0x100 * i, 1, 1, 1⟩
/-- LNK_CTRL.DOWN, RW. -/
def LNK_CTRL_DOWN (i : Nat) : Fld := ⟨0xE000 + 0x100 * i, 2, 1, 0⟩
/-- LNK_CTRL.ACKTMO, RW. -/
def LNK_CTRL_ACKTMO (i : Nat) : Fld := ⟨0xE000 + 0x100 * i, 8, 8, 0x40⟩
/-- LNK_CTRL.REPLAYLIM, RW. -/
def LNK_CTRL_REPLAYLIM (i : Nat) : Fld := ⟨0xE000 + 0x100 * i, 16, 4, 8⟩
/-- LNK_CTRL.SETTLE, RW. -/
def LNK_CTRL_SETTLE (i : Nat) : Fld := ⟨0xE000 + 0x100 * i, 20, 4, 4⟩
/-- LNK_CTRL.RPTTMO, RW. -/
def LNK_CTRL_RPTTMO (i : Nat) : Fld := ⟨0xE000 + 0x100 * i, 24, 8, 0x40⟩
/-- LNK_PEER.EXPECT, WS. -/
def LNK_PEER_EXPECT (i : Nat) : Fld := ⟨0xE004 + 0x100 * i, 0, 5, 0⟩
/-- LNK_PEER.EXPPORT, WS. -/
def LNK_PEER_EXPPORT (i : Nat) : Fld := ⟨0xE004 + 0x100 * i, 5, 2, 0⟩
/-- LNK_PEER.EXPEN, WS. -/
def LNK_PEER_EXPEN (i : Nat) : Fld := ⟨0xE004 + 0x100 * i, 7, 1, 0⟩
/-- LNK_PEER.PEER, RO. -/
def LNK_PEER_PEER (i : Nat) : Fld := ⟨0xE004 + 0x100 * i, 8, 5, 0⟩
/-- LNK_PEER.PEERPORT, RO. -/
def LNK_PEER_PEERPORT (i : Nat) : Fld := ⟨0xE004 + 0x100 * i, 13, 2, 0⟩
/-- LNK_PEER.KIND, RO. -/
def LNK_PEER_KIND (i : Nat) : Fld := ⟨0xE004 + 0x100 * i, 15, 1, 0⟩
/-- LNK_STAT.STATE, RO. -/
def LNK_STAT_STATE (i : Nat) : Fld := ⟨0xE008 + 0x100 * i, 0, 3, 0⟩
/-- LNK_STAT.CAUSE, RO. -/
def LNK_STAT_CAUSE (i : Nat) : Fld := ⟨0xE008 + 0x100 * i, 3, 3, 0⟩
/-- LNK_STAT.RESOLVING, RO. -/
def LNK_STAT_RESOLVING (i : Nat) : Fld := ⟨0xE008 + 0x100 * i, 6, 1, 0⟩
/-- LNK_STAT.LOCKED, RO. -/
def LNK_STAT_LOCKED (i : Nat) : Fld := ⟨0xE008 + 0x100 * i, 7, 4, 0⟩
/-- LNK_SEQ.NEXTTX, RO. -/
def LNK_SEQ_NEXTTX (i : Nat) : Fld := ⟨0xE00C + 0x100 * i, 0, 8, 0⟩
/-- LNK_SEQ.ACKED, RO. -/
def LNK_SEQ_ACKED (i : Nat) : Fld := ⟨0xE00C + 0x100 * i, 8, 8, 0xFF⟩
/-- LNK_SEQ.EXPECT, RO. -/
def LNK_SEQ_EXPECT (i : Nat) : Fld := ⟨0xE00C + 0x100 * i, 16, 8, 0⟩
/-- LNK_SEQ.UNACK, RO. -/
def LNK_SEQ_UNACK (i : Nat) : Fld := ⟨0xE00C + 0x100 * i, 24, 8, 0⟩
/-- LNK_CRED.G, RO. -/
def LNK_CRED_G (i : Nat) : Fld := ⟨0xE010 + 0x100 * i, 0, 6, 0⟩
/-- LNK_CRED.S, RO. -/
def LNK_CRED_S (i : Nat) : Fld := ⟨0xE010 + 0x100 * i, 8, 6, 0⟩
/-- LNK_CRED.F, RO. -/
def LNK_CRED_F (i : Nat) : Fld := ⟨0xE010 + 0x100 * i, 16, 6, 0⟩
/-- LNK_CRED.TXBUF, RO. -/
def LNK_CRED_TXBUF (i : Nat) : Fld := ⟨0xE010 + 0x100 * i, 24, 5, 0⟩
/-- LNK_ERR0.CRC, RC. -/
def LNK_ERR0_CRC (i : Nat) : Fld := ⟨0xE014 + 0x100 * i, 0, 16, 0⟩
/-- LNK_ERR0.REPLAY, RC. -/
def LNK_ERR0_REPLAY (i : Nat) : Fld := ⟨0xE014 + 0x100 * i, 16, 16, 0⟩
/-- LNK_ERR1.FECCE, RC. -/
def LNK_ERR1_FECCE (i : Nat) : Fld := ⟨0xE018 + 0x100 * i, 0, 16, 0⟩
/-- LNK_ERR1.FECUE, RC. -/
def LNK_ERR1_FECUE (i : Nat) : Fld := ⟨0xE018 + 0x100 * i, 16, 16, 0⟩
/-- LNK_ERR2.BADTYPE, RC. -/
def LNK_ERR2_BADTYPE (i : Nat) : Fld := ⟨0xE01C + 0x100 * i, 0, 8, 0⟩
/-- LNK_ERR2.TRAINFAIL, RC. -/
def LNK_ERR2_TRAINFAIL (i : Nat) : Fld := ⟨0xE01C + 0x100 * i, 8, 8, 0⟩
/-- LNK_ERR2.DOWNS, RC. -/
def LNK_ERR2_DOWNS (i : Nat) : Fld := ⟨0xE01C + 0x100 * i, 16, 16, 0⟩
/-- LNK_SFLUSH.COUNT, RC. -/
def LNK_SFLUSH (i : Nat) : Fld := ⟨0xE020 + 0x100 * i, 0, 32, 0⟩
/-- LNK_UNCERT.COUNT, RC. -/
def LNK_UNCERT (i : Nat) : Fld := ⟨0xE024 + 0x100 * i, 0, 16, 0⟩
/-- AUDIT_CTRL.EN, RW. -/
def AUDIT_CTRL_EN : Fld := ⟨0xE400, 0, 1, 1⟩
/-- AUDIT_STAT.LEAKS, RC. -/
def AUDIT_STAT_LEAKS : Fld := ⟨0xE404, 0, 16, 0⟩
/-- AUDIT_STAT.LASTLIST, RO. -/
def AUDIT_STAT_LASTLIST : Fld := ⟨0xE404, 16, 6, 0⟩
/-- AUDIT_STAT.PASSES, RC. -/
def AUDIT_STAT_PASSES : Fld := ⟨0xE404, 22, 10, 0⟩
/-- LOCK.OWNER, RO. -/
def LOCK_OWNER (i : Nat) : Fld := ⟨0xF000 + 4 * i, 0, 4, 0⟩
/-- LOCK.HELD, RO. -/
def LOCK_HELD (i : Nat) : Fld := ⟨0xF000 + 4 * i, 4, 1, 0⟩
/-- LOCK.GOT, RO. -/
def LOCK_GOT (i : Nat) : Fld := ⟨0xF000 + 4 * i, 5, 1, 0⟩
/-- LOCK.BROKEN, RO. -/
def LOCK_BROKEN (i : Nat) : Fld := ⟨0xF000 + 4 * i, 6, 1, 0⟩
/-- LOCK.OVF, RO. -/
def LOCK_OVF (i : Nat) : Fld := ⟨0xF000 + 4 * i, 7, 1, 0⟩
/-- LOCK.WORDS, RO. -/
def LOCK_WORDS (i : Nat) : Fld := ⟨0xF000 + 4 * i, 8, 5, 0⟩
/-- LOCK.BCAUSE, RO. -/
def LOCK_BCAUSE (i : Nat) : Fld := ⟨0xF000 + 4 * i, 13, 2, 0⟩
/-- LOCK.REL, RW. -/
def LOCK_REL (i : Nat) : Fld := ⟨0xF000 + 4 * i, 16, 1, 0⟩
/-- LOCK.ABORT, RW. -/
def LOCK_ABORT (i : Nat) : Fld := ⟨0xF000 + 4 * i, 17, 1, 0⟩
/-- LOCK.BREAK, RW. -/
def LOCK_BREAK (i : Nat) : Fld := ⟨0xF000 + 4 * i, 18, 1, 0⟩
/-- LOCK_CTRL.TMO, WS. -/
def LOCK_CTRL_TMO : Fld := ⟨0xF100, 0, 16, 0x40⟩
/-- FIRN_STAT.USED, RO. -/
def FIRN_STAT_USED : Fld := ⟨0xF140, 0, 15, 0x400⟩
/-- FIRN_STAT.NEAR, RH. -/
def FIRN_STAT_NEAR : Fld := ⟨0xF140, 15, 1, 0⟩
/-- FIRN_STAT.MIRROR, RO. -/
def FIRN_STAT_MIRROR : Fld := ⟨0xF140, 16, 15, 0⟩
/-- FIRN_STAT.FULL, RO. -/
def FIRN_STAT_FULL : Fld := ⟨0xF140, 31, 1, 0⟩
/-- FIRN_USE.EVENT, RO. -/
def FIRN_USE_EVENT : Fld := ⟨0xF144, 0, 15, 0⟩
/-- FIRN_USE.CUSTODY, RO. -/
def FIRN_USE_CUSTODY : Fld := ⟨0xF144, 16, 15, 0⟩
/-- FIRN_ERR.CE, RC. -/
def FIRN_ERR_CE : Fld := ⟨0xF148, 0, 12, 0⟩
/-- FIRN_ERR.UE, RC. -/
def FIRN_ERR_UE : Fld := ⟨0xF148, 12, 12, 0⟩
/-- FIRN_ERR.LOST, RC. -/
def FIRN_ERR_LOST : Fld := ⟨0xF148, 24, 8, 0⟩
/-- FIRN_ERRADDR.RECORD, RO. -/
def FIRN_ERRADDR_RECORD : Fld := ⟨0xF14C, 0, 14, 0⟩
/-- FIRN_ERRADDR.UE, RO. -/
def FIRN_ERRADDR_UE : Fld := ⟨0xF14C, 14, 1, 0⟩
/-- FIRN_ERRADDR.VALID, RC. -/
def FIRN_ERRADDR_VALID : Fld := ⟨0xF14C, 31, 1, 0⟩
/-- FIRN_SCRUB.EN, RW. -/
def FIRN_SCRUB_EN : Fld := ⟨0xF150, 0, 1, 1⟩
/-- FIRN_SCRUB.PASSES, RC. -/
def FIRN_SCRUB_PASSES : Fld := ⟨0xF150, 16, 16, 0⟩
/-- REC_CTRL.AGE, WS. -/
def REC_CTRL_AGE : Fld := ⟨0xF1C0, 0, 10, 0x100⟩
/-- REC_CTRL.AGEN, WS. -/
def REC_CTRL_AGEN : Fld := ⟨0xF1C0, 10, 1, 1⟩
/-- REC_CTRL.PTAKE, WS. -/
def REC_CTRL_PTAKE : Fld := ⟨0xF1C0, 11, 1, 1⟩
/-- REC_CTRL.PSETTLE, WS. -/
def REC_CTRL_PSETTLE : Fld := ⟨0xF1C0, 16, 8, 0x10⟩
/-- REC_STAT.RESENT, RC. -/
def REC_STAT_RESENT : Fld := ⟨0xF1C4, 0, 16, 0⟩
/-- REC_STAT.ACTING, RO. -/
def REC_STAT_ACTING : Fld := ⟨0xF1C4, 16, 5, 0⟩
/-- REC_STAT.TAKEV, RO. -/
def REC_STAT_TAKEV : Fld := ⟨0xF1C4, 21, 1, 0⟩
/-- REC_CNT.DUP, RC. -/
def REC_CNT_DUP : Fld := ⟨0xF1C8, 0, 16, 0⟩
/-- REC_CNT.RESTORED, RC. -/
def REC_CNT_RESTORED : Fld := ⟨0xF1C8, 16, 16, 0⟩
/-- MIG0.SOURCE, RO. -/
def MIG0_SOURCE (i : Nat) : Fld := ⟨0xF200 + 8 * i, 0, 13, 0⟩
/-- MIG0.ACTIVE, RO. -/
def MIG0_ACTIVE (i : Nat) : Fld := ⟨0xF200 + 8 * i, 13, 1, 0⟩
/-- MIG0.PHASE, RO. -/
def MIG0_PHASE (i : Nat) : Fld := ⟨0xF200 + 8 * i, 14, 2, 0⟩
/-- MIG0.NEWDEST, RO. -/
def MIG0_NEWDEST (i : Nat) : Fld := ⟨0xF200 + 8 * i, 16, 12, 0⟩
/-- MIG1.FIRSTSEQ, RO. -/
def MIG1_FIRSTSEQ (i : Nat) : Fld := ⟨0xF204 + 8 * i, 0, 24, 0⟩
/-- RIME_CTRL.EN, RW. -/
def RIME_CTRL_EN : Fld := ⟨0xF300, 0, 1, 1⟩
/-- RIME_CTRL.RESTORE, RW. -/
def RIME_CTRL_RESTORE : Fld := ⟨0xF300, 1, 1, 0⟩
/-- RIME_STAT.MISM, RC. -/
def RIME_STAT_MISM : Fld := ⟨0xF304, 0, 16, 0⟩
/-- RIME_STAT.RESTORED, RC. -/
def RIME_STAT_RESTORED : Fld := ⟨0xF304, 16, 8, 0⟩
/-- RIME_STAT.UNREC, RC. -/
def RIME_STAT_UNREC : Fld := ⟨0xF304, 24, 8, 0⟩
/-- RIME_LAST.INDEX, RO. -/
def RIME_LAST_INDEX : Fld := ⟨0xF308, 0, 14, 0⟩
/-- RIME_LAST.AREA, RO. -/
def RIME_LAST_AREA : Fld := ⟨0xF308, 14, 2, 0⟩
/-- RIME_LAST.MARKS, RO. -/
def RIME_LAST_MARKS : Fld := ⟨0xF308, 16, 7, 0⟩
/-- RIME_LAST.MOVF, RC. -/
def RIME_LAST_MOVF : Fld := ⟨0xF308, 23, 1, 0⟩
/-- RIME_LAST.VALID, RC. -/
def RIME_LAST_VALID : Fld := ⟨0xF308, 31, 1, 0⟩
/-- RIME_PASS.PASSES, RC. -/
def RIME_PASS_PASSES : Fld := ⟨0xF30C, 0, 32, 0⟩
/-- MRN_BASE.ADDR, WS. -/
def MRN_BASE : Fld := ⟨0xF400, 6, 26, 0⟩
/-- MRN_CTRL.EN, WS. -/
def MRN_CTRL_EN : Fld := ⟨0xF404, 0, 1, 0⟩
/-- MRN_CTRL.STOP, RO. -/
def MRN_CTRL_STOP : Fld := ⟨0xF404, 1, 1, 0⟩
/-- MRN_CTRL.CFGERR, RO. -/
def MRN_CTRL_CFGERR : Fld := ⟨0xF404, 2, 1, 0⟩
/-- MRN_STAT.RDERR, RC. -/
def MRN_STAT_RDERR : Fld := ⟨0xF408, 0, 16, 0⟩
/-- MRN_STAT.FULLS, RC. -/
def MRN_STAT_FULLS : Fld := ⟨0xF408, 16, 16, 0⟩
/-- MRN_QCFG.START, WS. -/
def MRN_QCFG_START (i : Nat) : Fld := ⟨0xF440 + 4 * i, 0, 16, 0⟩
/-- MRN_QCFG.LEN, WS. -/
def MRN_QCFG_LEN (i : Nat) : Fld := ⟨0xF440 + 4 * i, 16, 16, 0⟩
/-- MRN_QSTAT.USED, RO. -/
def MRN_QSTAT_USED (i : Nat) : Fld := ⟨0xF4A0 + 4 * i, 0, 16, 0⟩
/-- MRN_QSTAT.STAGED, RO. -/
def MRN_QSTAT_STAGED (i : Nat) : Fld := ⟨0xF4A0 + 4 * i, 16, 3, 0⟩
/-- MRN_QSTAT.FULL, RO. -/
def MRN_QSTAT_FULL (i : Nat) : Fld := ⟨0xF4A0 + 4 * i, 19, 1, 0⟩
/-- PWR_CFG.AUTOWAKE, WS. -/
def PWR_CFG_AUTOWAKE (i : Nat) : Fld := ⟨0xF500 + 4 * i, 0, 1, 1⟩
/-- PWR_CFG.SLPWAKE, WS. -/
def PWR_CFG_SLPWAKE (i : Nat) : Fld := ⟨0xF500 + 4 * i, 1, 1, 0⟩
/-- PWR_REQ.DOMAIN, RW. -/
def PWR_REQ_DOMAIN : Fld := ⟨0xF560, 0, 5, 0⟩
/-- PWR_REQ.ON, RW. -/
def PWR_REQ_ON : Fld := ⟨0xF560, 5, 1, 0⟩
/-- PWR_REQ.GO, RW. -/
def PWR_REQ_GO : Fld := ⟨0xF560, 31, 1, 0⟩
/-- PWR_RES.RES, RO. -/
def PWR_RES_RES : Fld := ⟨0xF564, 0, 3, 0⟩
/-- PWR_RES.DOMAIN, RO. -/
def PWR_RES_DOMAIN : Fld := ⟨0xF564, 3, 5, 0⟩
/-- PWR_RES.VALID, RC. -/
def PWR_RES_VALID : Fld := ⟨0xF564, 31, 1, 0⟩
/-- WB_CTRL.BUDGET, WS. -/
def WB_CTRL_BUDGET : Fld := ⟨0xF570, 0, 8, 0x10⟩
/-- WB_CTRL.PWLIM, WS. -/
def WB_CTRL_PWLIM : Fld := ⟨0xF570, 8, 8, 8⟩
/-- WB_COST.CLUSTER, WS. -/
def WB_COST_CLUSTER : Fld := ⟨0xF574, 0, 4, 4⟩
/-- WB_COST.REGION, WS. -/
def WB_COST_REGION : Fld := ⟨0xF574, 4, 4, 2⟩
/-- WB_COST.SHORT, WS. -/
def WB_COST_SHORT : Fld := ⟨0xF574, 8, 4, 3⟩
/-- WB_COST.LONG, WS. -/
def WB_COST_LONG : Fld := ⟨0xF574, 12, 4, 6⟩
/-- WB_COST.EDW, WS. -/
def WB_COST_EDW : Fld := ⟨0xF574, 16, 4, 1⟩
/-- WB_STAT.INUSE, RO. -/
def WB_STAT_INUSE : Fld := ⟨0xF578, 0, 8, 0⟩
/-- WB_STAT.PWUSE, RO. -/
def WB_STAT_PWUSE : Fld := ⟨0xF578, 8, 8, 0⟩
/-- WB_STAT.WAIT, RO. -/
def WB_STAT_WAIT : Fld := ⟨0xF578, 16, 5, 0⟩
/-- WB_CNT.GRANTS, RC. -/
def WB_CNT_GRANTS : Fld := ⟨0xF57C, 0, 16, 0⟩
/-- WB_CNT.DELAYED, RC. -/
def WB_CNT_DELAYED : Fld := ⟨0xF57C, 16, 16, 0⟩
/-- SLEEP_CTRL.GO, RW. -/
def SLEEP_CTRL_GO : Fld := ⟨0xF580, 0, 1, 0⟩
/-- RST_REQ.KIND, RW. -/
def RST_REQ_KIND : Fld := ⟨0xF590, 0, 3, 0⟩
/-- RST_REQ.INDEX, RW. -/
def RST_REQ_INDEX : Fld := ⟨0xF590, 3, 6, 0⟩
/-- RST_REQ.GO, RW. -/
def RST_REQ_GO : Fld := ⟨0xF590, 31, 1, 0⟩
/-- RST_STAT.KIND, RO. -/
def RST_STAT_KIND : Fld := ⟨0xF594, 0, 3, 0⟩
/-- RST_STAT.INDEX, RO. -/
def RST_STAT_INDEX : Fld := ⟨0xF594, 3, 6, 0⟩
/-- RST_STAT.COUNT, RC. -/
def RST_STAT_COUNT : Fld := ⟨0xF594, 16, 16, 0⟩
/-- SU_STAT.PHASE, RO. -/
def SU_STAT_PHASE : Fld := ⟨0xF5A0, 0, 3, 0⟩
/-- SU_STAT.RECOV, RO. -/
def SU_STAT_RECOV : Fld := ⟨0xF5A0, 3, 1, 1⟩
/-- SU_STAT.START, RO. -/
def SU_STAT_START : Fld := ⟨0xF5A0, 4, 3, 0⟩
/-- SU_STAT.FIRNKEPT, RO. -/
def SU_STAT_FIRNKEPT : Fld := ⟨0xF5A0, 7, 1, 0⟩
/-- SU_STAT.LINKTMO, RC. -/
def SU_STAT_LINKTMO : Fld := ⟨0xF5A0, 8, 1, 0⟩
/-- SU_STAT.SYNCTMO, RC. -/
def SU_STAT_SYNCTMO : Fld := ⟨0xF5A0, 9, 1, 0⟩
/-- BAR_CTRL.EN, RW. -/
def BAR_CTRL_EN : Fld := ⟨0xF600, 0, 1, 0⟩
/-- BAR_CTRL.RTMO, RW. -/
def BAR_CTRL_RTMO : Fld := ⟨0xF600, 4, 8, 0x40⟩
/-- BAR_CTRL.DTMO, RW. -/
def BAR_CTRL_DTMO : Fld := ⟨0xF600, 12, 8, 0x10⟩
/-- BAR_STAT.STATE, RO. -/
def BAR_STAT_STATE : Fld := ⟨0xF604, 0, 2, 0⟩
/-- BAR_STAT.RUN, RO. -/
def BAR_STAT_RUN : Fld := ⟨0xF604, 2, 1, 0⟩
/-- BAR_STAT.LANEDN, RH. -/
def BAR_STAT_LANEDN : Fld := ⟨0xF604, 3, 1, 0⟩
/-- BAR_STAT.LOCKED, RO. -/
def BAR_STAT_LOCKED : Fld := ⟨0xF604, 4, 4, 0⟩
/-- BAR_STAT.PEERGEN, RO. -/
def BAR_STAT_PEERGEN : Fld := ⟨0xF604, 8, 8, 0⟩
/-- BAR_STAT.CAUSE, RO. -/
def BAR_STAT_CAUSE : Fld := ⟨0xF604, 16, 3, 0⟩
/-- BAR_ERR.CRC, RC. -/
def BAR_ERR_CRC : Fld := ⟨0xF608, 0, 16, 0⟩
/-- BAR_ERR.BADTYPE, RC. -/
def BAR_ERR_BADTYPE : Fld := ⟨0xF608, 16, 8, 0⟩
/-- BAR_ERR.DOWNS, RC. -/
def BAR_ERR_DOWNS : Fld := ⟨0xF608, 24, 8, 0⟩
/-- BAR_CUST.HCUST, RO. -/
def BAR_CUST_HCUST : Fld := ⟨0xF60C, 0, 15, 0⟩
/-- BAR_CUST.HOLD, RO. -/
def BAR_CUST_HOLD : Fld := ⟨0xF60C, 15, 1, 0⟩
/-- BAR_CUST.UNREP, RO. -/
def BAR_CUST_UNREP : Fld := ⟨0xF60C, 16, 15, 0⟩
/-- BAR_RES.RESENT, RC. -/
def BAR_RES_RESENT : Fld := ⟨0xF610, 0, 16, 0⟩
/-- BAR_RES.FLAGGED, RC. -/
def BAR_RES_FLAGGED : Fld := ⟨0xF610, 16, 16, 0⟩
/-- BAR_DISC.DISC, RC. -/
def BAR_DISC_DISC : Fld := ⟨0xF614, 0, 16, 0⟩
/-- BAR_DISC.VWDUP, RC. -/
def BAR_DISC_VWDUP : Fld := ⟨0xF614, 16, 16, 0⟩
/-- MPU_CTRL.STRICT, RW. -/
def MPU_CTRL_STRICT (i : Nat) : Fld := ⟨0xF800 + 0x200 * i, 0, 1, 0⟩
/-- MPU_FSTAT.VALID, RC. -/
def MPU_FSTAT_VALID (i : Nat) : Fld := ⟨0xF804 + 0x200 * i, 0, 1, 0⟩
/-- MPU_FSTAT.CAUSE, RO. -/
def MPU_FSTAT_CAUSE (i : Nat) : Fld := ⟨0xF804 + 0x200 * i, 1, 2, 0⟩
/-- MPU_FSTAT.REGION, RO. -/
def MPU_FSTAT_REGION (i : Nat) : Fld := ⟨0xF804 + 0x200 * i, 3, 4, 0⟩
/-- MPU_FSTAT.TENANT, RO. -/
def MPU_FSTAT_TENANT (i : Nat) : Fld := ⟨0xF804 + 0x200 * i, 7, 1, 0⟩
/-- MPU_FSTAT.SLICE, RO. -/
def MPU_FSTAT_SLICE (i : Nat) : Fld := ⟨0xF804 + 0x200 * i, 8, 8, 0⟩
/-- MPU_FSTAT.COUNT, RC. -/
def MPU_FSTAT_COUNT (i : Nat) : Fld := ⟨0xF804 + 0x200 * i, 16, 16, 0⟩
/-- MPU_FADDR_LO.ADDR, RO. -/
def MPU_FADDR_LO (i : Nat) : Fld := ⟨0xF808 + 0x200 * i, 0, 32, 0⟩
/-- MPU_FADDR_HI.ADDR, RO. -/
def MPU_FADDR_HI (i : Nat) : Fld := ⟨0xF80C + 0x200 * i, 0, 32, 0⟩
/-- MPU_RBASE_LO.ADDR, RW. -/
def MPU_RBASE_LO (i j : Nat) : Fld := ⟨0xF840 + 0x200 * i + 0x10 * j, 0, 32, 0⟩
/-- MPU_RBASE_HI.ADDR, RO. -/
def MPU_RBASE_HI (i j : Nat) : Fld := ⟨0xF844 + 0x200 * i + 0x10 * j, 0, 32, 0⟩
/-- MPU_RCFG.EN, RW. -/
def MPU_RCFG_EN (i j : Nat) : Fld := ⟨0xF848 + 0x200 * i + 0x10 * j, 0, 1, 0⟩
/-- MPU_RCFG.SIZE, RW. -/
def MPU_RCFG_SIZE (i j : Nat) : Fld := ⟨0xF848 + 0x200 * i + 0x10 * j, 1, 6, 8⟩
/-- MPU_RCFG.SRD, RW. -/
def MPU_RCFG_SRD (i j : Nat) : Fld := ⟨0xF848 + 0x200 * i + 0x10 * j, 7, 8, 0⟩
/-- MPU_RCFG.PR, RW. -/
def MPU_RCFG_PR (i j : Nat) : Fld := ⟨0xF848 + 0x200 * i + 0x10 * j, 15, 1, 0⟩
/-- MPU_RCFG.PW, RW. -/
def MPU_RCFG_PW (i j : Nat) : Fld := ⟨0xF848 + 0x200 * i + 0x10 * j, 16, 1, 0⟩
/-- MPU_RCFG.TW, RW. -/
def MPU_RCFG_TW (i j : Nat) : Fld := ⟨0xF848 + 0x200 * i + 0x10 * j, 17, 1, 0⟩
/-- MPU_RCFG.RLX, RW. -/
def MPU_RCFG_RLX (i j : Nat) : Fld := ⟨0xF848 + 0x200 * i + 0x10 * j, 18, 1, 0⟩
/-- MPU_RCFG.NS, RW. -/
def MPU_RCFG_NS (i j : Nat) : Fld := ⟨0xF848 + 0x200 * i + 0x10 * j, 19, 1, 0⟩
/-- MPU_RCFG.CACHE, RW. -/
def MPU_RCFG_CACHE (i j : Nat) : Fld := ⟨0xF848 + 0x200 * i + 0x10 * j, 20, 2, 0⟩
/-- LOAD_CTRL.START, RW. -/
def LOAD_CTRL_START : Fld := ⟨0x20000, 0, 1, 0⟩
/-- LOAD_CTRL.ABORT, RW. -/
def LOAD_CTRL_ABORT : Fld := ⟨0x20000, 1, 1, 0⟩
/-- LOAD_CTRL.PERSIST, RW. -/
def LOAD_CTRL_PERSIST : Fld := ⟨0x20000, 2, 1, 0⟩
/-- LOAD_DATA.DATA, RW. -/
def LOAD_DATA : Fld := ⟨0x20004, 0, 32, 0⟩
/-- LOAD_STATUS.STATE, RO. -/
def LOAD_STATUS_STATE : Fld := ⟨0x20008, 0, 3, 0⟩
/-- LOAD_STATUS.ERR, RO. -/
def LOAD_STATUS_ERR : Fld := ⟨0x20008, 3, 5, 0⟩
/-- LOAD_STATUS.FREE, RO. -/
def LOAD_STATUS_FREE : Fld := ⟨0x20008, 8, 7, 0x40⟩
/-- LOAD_STATUS.COLL, RC. -/
def LOAD_STATUS_COLL : Fld := ⟨0x20008, 15, 1, 0⟩
/-- LOAD_STATUS.DEEPPEND, RO. -/
def LOAD_STATUS_DEEPPEND : Fld := ⟨0x20008, 16, 4, 0⟩
/-- LOAD_STATUS.BOOTBLK, RO. -/
def LOAD_STATUS_BOOTBLK : Fld := ⟨0x20008, 20, 2, 0⟩
/-- LOAD_STATUS.BOOTALT, RC. -/
def LOAD_STATUS_BOOTALT : Fld := ⟨0x20008, 22, 1, 0⟩
/-- LOAD_STATUS.TWIN, RO. -/
def LOAD_STATUS_TWIN : Fld := ⟨0x20008, 23, 2, 0⟩
/-- LOAD_STATUS.S2PEND, RO. -/
def LOAD_STATUS_S2PEND : Fld := ⟨0x20008, 25, 1, 0⟩
/-- IMG_ID_LO.ID, RO. -/
def IMG_ID_LO : Fld := ⟨0x2000C, 0, 32, 0⟩
/-- IMG_ID_HI.ID, RO. -/
def IMG_ID_HI : Fld := ⟨0x20010, 0, 32, 0⟩
/-- LOAD_GAP.GAP, RW. -/
def LOAD_GAP_GAP : Fld := ⟨0x20014, 0, 16, 0x258⟩
/-- LOAD_GEN.GEN, RO. -/
def LOAD_GEN : Fld := ⟨0x20018, 0, 32, 0⟩
/-- LOAD_BOOTERR.PREF, RO. -/
def LOAD_BOOTERR_PREF : Fld := ⟨0x2001C, 0, 5, 0⟩
/-- LOAD_BOOTERR.TWINERR, RO. -/
def LOAD_BOOTERR_TWINERR : Fld := ⟨0x2001C, 5, 5, 0⟩
/-- DT_CTRL.REGION, RW. -/
def DT_CTRL_REGION : Fld := ⟨0x20020, 0, 2, 0⟩
/-- DT_CTRL.HOLD, RW. -/
def DT_CTRL_HOLD : Fld := ⟨0x20020, 2, 1, 0⟩
/-- DT_CTRL.GO, RW. -/
def DT_CTRL_GO : Fld := ⟨0x20020, 3, 1, 0⟩
/-- DT_STAT.PHASE, RO. -/
def DT_STAT_PHASE : Fld := ⟨0x20024, 0, 3, 0⟩
/-- DT_STAT.REGION, RO. -/
def DT_STAT_REGION : Fld := ⟨0x20024, 3, 2, 0⟩
/-- DT_STAT.DONE, RC. -/
def DT_STAT_DONE : Fld := ⟨0x20024, 5, 1, 0⟩
/-- DT_STAT.COUNT, RC. -/
def DT_STAT_COUNT : Fld := ⟨0x20024, 16, 16, 0⟩
/-- LOAD_LASTP_LO.TICK, RO. -/
def LOAD_LASTP_LO : Fld := ⟨0x20028, 0, 32, 0⟩
/-- LOAD_LASTP_HI.TICK, RO. -/
def LOAD_LASTP_HI_TICK : Fld := ⟨0x2002C, 0, 31, 0⟩
/-- LOAD_LASTP_HI.VALID, RO. -/
def LOAD_LASTP_HI_VALID : Fld := ⟨0x2002C, 31, 1, 0⟩
/-- TRACE_CTRL.EN, RW. -/
def TRACE_CTRL_EN : Fld := ⟨0x20040, 0, 1, 0⟩
/-- TRACE_CTRL.WRAP, RW. -/
def TRACE_CTRL_WRAP : Fld := ⟨0x20040, 1, 1, 0⟩
/-- TRACE_CTRL.NLOG, RW. -/
def TRACE_CTRL_NLOG : Fld := ⟨0x20040, 2, 4, 0⟩
/-- TRACE_CTRL.PTS, RW. -/
def TRACE_CTRL_PTS : Fld := ⟨0x20040, 6, 11, 0⟩
/-- TRACE_CTRL.TRIGEN, RW. -/
def TRACE_CTRL_TRIGEN : Fld := ⟨0x20040, 17, 1, 0⟩
/-- TRACE_CTRL.DBEN, RW. -/
def TRACE_CTRL_DBEN : Fld := ⟨0x20040, 18, 1, 0⟩
/-- TRACE_DATA.DATA, RO. -/
def TRACE_DATA : Fld := ⟨0x20044, 0, 32, 0⟩
/-- TRACE_SEL.SRCLO, RW. -/
def TRACE_SEL_SRCLO : Fld := ⟨0x20048, 0, 13, 0⟩
/-- TRACE_SEL.SRCHI, RW. -/
def TRACE_SEL_SRCHI : Fld := ⟨0x20048, 13, 13, 0x1FFF⟩
/-- TRACE_SEL.CLASSMASK, RW. -/
def TRACE_SEL_CLASSMASK : Fld := ⟨0x20048, 26, 4, 0xF⟩
/-- TRACE_STAT.UNREAD, RO. -/
def TRACE_STAT_UNREAD : Fld := ⟨0x2004C, 0, 12, 0⟩
/-- TRACE_STAT.FROZEN, RO. -/
def TRACE_STAT_FROZEN : Fld := ⟨0x2004C, 12, 1, 0⟩
/-- TRACE_STAT.OVW, RC. -/
def TRACE_STAT_OVW : Fld := ⟨0x2004C, 13, 1, 0⟩
/-- TRACE_STAT.DBSTOP, RO. -/
def TRACE_STAT_DBSTOP : Fld := ⟨0x2004C, 14, 1, 0⟩
/-- TRACE_STAT.LOST, RC. -/
def TRACE_STAT_LOST : Fld := ⟨0x2004C, 16, 16, 0⟩
/-- TRACE_RDPTR.PTR, RW. -/
def TRACE_RDPTR_PTR : Fld := ⟨0x20050, 0, 13, 0⟩
/-- TRACE_RDPTR.NEXTSEQ, RO. -/
def TRACE_RDPTR_NEXTSEQ : Fld := ⟨0x20050, 13, 16, 0⟩
/-- TRACE_TRIG.SOURCE, RW. -/
def TRACE_TRIG_SOURCE : Fld := ⟨0x20054, 0, 13, 0⟩
/-- TRACE_TRIG.POINT, RW. -/
def TRACE_TRIG_POINT : Fld := ⟨0x20054, 13, 4, 0⟩
/-- TRACE_TRIG.POST, RW. -/
def TRACE_TRIG_POST : Fld := ⟨0x20054, 17, 11, 0⟩
/-- TRACE_DBADDR.ADDR, RW. -/
def TRACE_DBADDR : Fld := ⟨0x20058, 4, 28, 0⟩
/-- TRACE_DBCTRL.NTHR, RW. -/
def TRACE_DBCTRL_NTHR : Fld := ⟨0x2005C, 0, 12, 0x400⟩
/-- TEST_CTRL.TMODE, RW. -/
def TEST_CTRL_TMODE : Fld := ⟨0x20060, 0, 1, 0⟩
/-- TEST_CTRL.INJ, RW. -/
def TEST_CTRL_INJ : Fld := ⟨0x20060, 1, 1, 0⟩
/-- TEST_CTRL.OUT, RW. -/
def TEST_CTRL_OUT : Fld := ⟨0x20060, 2, 5, 0⟩
/-- TEST_CTRL.OBS, RW. -/
def TEST_CTRL_OBS : Fld := ⟨0x20060, 7, 1, 0⟩
/-- TEST_CTRL.OBSNEW, RC. -/
def TEST_CTRL_OBSNEW : Fld := ⟨0x20060, 8, 1, 0⟩
/-- TEST_CTRL.LTEST, RW. -/
def TEST_CTRL_LTEST : Fld := ⟨0x20060, 9, 1, 0⟩
/-- TEST_MSG.MSG, RW. -/
def TEST_MSG (i : Nat) : Fld := ⟨0x20064 + 4 * i, 0, 32, 0⟩
/-- TEST_LSEL.PORT, RW. -/
def TEST_LSEL_PORT : Fld := ⟨0x20074, 0, 2, 0⟩
/-- TEST_LSEL.LANE, RW. -/
def TEST_LSEL_LANE : Fld := ⟨0x20074, 2, 2, 0⟩
/-- TEST_LSEL.PAT, RW. -/
def TEST_LSEL_PAT : Fld := ⟨0x20074, 4, 2, 2⟩
/-- TEST_LSEL.LOOP, RW. -/
def TEST_LSEL_LOOP : Fld := ⟨0x20074, 6, 3, 0⟩
/-- TEST_LSEL.LOCKED, RO. -/
def TEST_LSEL_LOCKED : Fld := ⟨0x20074, 9, 4, 0⟩
/-- TEST_LERR.COUNT, RC. -/
def TEST_LERR : Fld := ⟨0x20078, 0, 32, 0⟩
/-- FIRN_BIST.ARM, RW. -/
def FIRN_BIST_ARM : Fld := ⟨0x2007C, 0, 1, 0⟩
/-- FIRN_BIST.DONE, RC. -/
def FIRN_BIST_DONE : Fld := ⟨0x2007C, 1, 1, 0⟩
/-- FIRN_BIST.FAIL, RO. -/
def FIRN_BIST_FAIL : Fld := ⟨0x2007C, 2, 1, 0⟩
/-- FIRN_BIST.ADDR, RO. -/
def FIRN_BIST_ADDR : Fld := ⟨0x2007C, 3, 15, 0⟩
/-- FIRN_BIST.COUNT, RO. -/
def FIRN_BIST_COUNT : Fld := ⟨0x2007C, 18, 14, 0⟩
/-- EDW_CTRL.SEAL, RW. -/
def EDW_CTRL_SEAL : Fld := ⟨0x21000, 0, 1, 0⟩
/-- EDW_STAT.CFG, RO. -/
def EDW_STAT_CFG : Fld := ⟨0x21004, 0, 1, 0⟩
/-- EDW_STAT.SEALED, RO. -/
def EDW_STAT_SEALED : Fld := ⟨0x21004, 1, 1, 0⟩
/-- EDW_STAT.DUE, RO. -/
def EDW_STAT_DUE : Fld := ⟨0x21004, 2, 1, 0⟩
/-- EDW_STAT.BUSY, RO. -/
def EDW_STAT_BUSY : Fld := ⟨0x21004, 3, 1, 0⟩
/-- EDW_STAT.RESTORED, RC. -/
def EDW_STAT_RESTORED : Fld := ⟨0x21004, 4, 1, 0⟩
/-- EDW_STAT.FLERR, RC. -/
def EDW_STAT_FLERR : Fld := ⟨0x21004, 5, 1, 0⟩
/-- EDW_STAT.NOCH, RC. -/
def EDW_STAT_NOCH : Fld := ⟨0x21004, 16, 16, 0⟩
/-- EDW_TAMPER.DBGW, RH. -/
def EDW_TAMPER_DBGW : Fld := ⟨0x21008, 0, 1, 0⟩
/-- EDW_TAMPER.RECMAC, RH. -/
def EDW_TAMPER_RECMAC : Fld := ⟨0x21008, 1, 1, 0⟩
/-- EDW_TAMPER.COUNT, RO. -/
def EDW_TAMPER_COUNT : Fld := ⟨0x21008, 16, 16, 0⟩
/-- EDW_TADDR.FIRST, RO. -/
def EDW_TADDR_FIRST : Fld := ⟨0x2100C, 0, 12, 0⟩
/-- EDW_TADDR.LAST, RO. -/
def EDW_TADDR_LAST : Fld := ⟨0x2100C, 12, 12, 0⟩
/-- EDW_SCNT_LO.VALUE, RO. -/
def EDW_SCNT_LO : Fld := ⟨0x21010, 0, 32, 0⟩
/-- EDW_SCNT_HI.VALUE, RO. -/
def EDW_SCNT_HI : Fld := ⟨0x21014, 0, 32, 0⟩
/-- EDW_STIME_LO.VALUE, RO. -/
def EDW_STIME_LO : Fld := ⟨0x21018, 0, 32, 0⟩
/-- EDW_STIME_HI.VALUE, RO. -/
def EDW_STIME_HI : Fld := ⟨0x2101C, 0, 32, 0⟩
/-- EDW_MAC.MAC, RO. -/
def EDW_MAC_MAC (i : Nat) : Fld := ⟨0x21020 + 4 * i, 0, 32, 0⟩
/-- EDW_GLB.SEALINT, W1. -/
def EDW_GLB_SEALINT : Fld := ⟨0x21040, 0, 16, 0⟩
/-- EDW_GLB.MRPT, W1. -/
def EDW_GLB_MRPT : Fld := ⟨0x21040, 16, 8, 0⟩
/-- EDW_CH.EN, W1. -/
def EDW_CH_EN (i : Nat) : Fld := ⟨0x21100 + 4 * i, 0, 1, 0⟩
/-- EDW_CH.SOURCE, W1. -/
def EDW_CH_SOURCE (i : Nat) : Fld := ⟨0x21100 + 4 * i, 1, 7, 0⟩
/-- EDW_CH.SHIFT, W1. -/
def EDW_CH_SHIFT (i : Nat) : Fld := ⟨0x21100 + 4 * i, 8, 5, 0⟩
/-- EDW_CH.SIGNED, W1. -/
def EDW_CH_SIGNED (i : Nat) : Fld := ⟨0x21100 + 4 * i, 13, 1, 0⟩
/-- EDW_CH.MIRROR, W1. -/
def EDW_CH_MIRROR (i : Nat) : Fld := ⟨0x21100 + 4 * i, 14, 1, 0⟩
/-- EDW_VAL_LO.VALUE, RO. -/
def EDW_VAL_LO (i : Nat) : Fld := ⟨0x21200 + 0x10 * i, 0, 32, 0⟩
/-- EDW_VAL_HI.VALUE, RO. -/
def EDW_VAL_HI (i : Nat) : Fld := ⟨0x21204 + 0x10 * i, 0, 32, 0⟩
/-- EDW_UCNT.COUNT, RO. -/
def EDW_UCNT_COUNT (i : Nat) : Fld := ⟨0x21208 + 0x10 * i, 0, 31, 0⟩
/-- EDW_UCNT.OVF, RC. -/
def EDW_UCNT_OVF (i : Nat) : Fld := ⟨0x21208 + 0x10 * i, 31, 1, 0⟩
/-- H_ID.MINOR, RO. -/
def H_ID_MINOR : Fld := ⟨0x100000, 0, 4, 0⟩
/-- H_ID.MAJOR, RO. -/
def H_ID_MAJOR : Fld := ⟨0x100000, 4, 4, 1⟩
/-- H_ID.PART, RO. -/
def H_ID_PART : Fld := ⟨0x100000, 8, 8, 0x6E⟩
/-- H_ID.KIND, RO. -/
def H_ID_KIND : Fld := ⟨0x100000, 16, 2, 2⟩
/-- H_ID.VENDOR, RO. -/
def H_ID_VENDOR : Fld := ⟨0x100000, 20, 12, 0xA5⟩
/-- H_CAPS.UNITS, RO. -/
def H_CAPS_UNITS : Fld := ⟨0x100004, 0, 8, 0⟩
/-- H_CAPS.PORTS, RO. -/
def H_CAPS_PORTS : Fld := ⟨0x100004, 8, 4, 0⟩
/-- H_CAPS.EDW, RO. -/
def H_CAPS_EDW : Fld := ⟨0x100004, 12, 1, 1⟩
/-- H_CAPS.BARRIER, RO. -/
def H_CAPS_BARRIER : Fld := ⟨0x100004, 13, 1, 1⟩
/-- H_CAPS.FORMAT, RO. -/
def H_CAPS_FORMAT : Fld := ⟨0x100004, 16, 4, 1⟩
/-- H_CTRL.FLTEN, RW. -/
def H_CTRL_FLTEN : Fld := ⟨0x100008, 0, 1, 0⟩
/-- H_CTRL.DBGOFF, W1. -/
def H_CTRL_DBGOFF : Fld := ⟨0x100008, 1, 1, 0⟩
/-- H_CTRL.FLTMASK, RW. -/
def H_CTRL_FLTMASK : Fld := ⟨0x100008, 16, 9, 0⟩
/-- H_STATUS.ORIGIN, RO. -/
def H_STATUS_ORIGIN : Fld := ⟨0x10000C, 0, 5, 0⟩
/-- H_STATUS.FLT, RO. -/
def H_STATUS_FLT : Fld := ⟨0x10000C, 5, 1, 0⟩
/-- H_STATUS.RDP, RO. -/
def H_STATUS_RDP : Fld := ⟨0x10000C, 6, 2, 0⟩
/-- H_STATUS.OPEN, RO. -/
def H_STATUS_OPEN : Fld := ⟨0x10000C, 8, 1, 0⟩
/-- H_STATUS.RECOV, RO. -/
def H_STATUS_RECOV : Fld := ⟨0x10000C, 9, 1, 1⟩
/-- H_FAULT.FIRNNEAR, RH. -/
def H_FAULT_FIRNNEAR : Fld := ⟨0x100010, 0, 1, 0⟩
/-- H_FAULT.FIRNPSN, RH. -/
def H_FAULT_FIRNPSN : Fld := ⟨0x100010, 1, 1, 0⟩
/-- H_FAULT.LANEDN, RH. -/
def H_FAULT_LANEDN : Fld := ⟨0x100010, 2, 1, 0⟩
/-- H_FAULT.ALOST, RH. -/
def H_FAULT_ALOST : Fld := ⟨0x100010, 3, 1, 0⟩
/-- H_FAULT.NOROUTE, RH. -/
def H_FAULT_NOROUTE : Fld := ⟨0x100010, 4, 1, 0⟩
/-- H_FAULT.NOSPARE, RH. -/
def H_FAULT_NOSPARE : Fld := ⟨0x100010, 5, 1, 0⟩
/-- H_FAULT.MRNSTOP, RH. -/
def H_FAULT_MRNSTOP : Fld := ⟨0x100010, 6, 1, 0⟩
/-- H_FAULT.TAMPER, RH. -/
def H_FAULT_TAMPER : Fld := ⟨0x100010, 7, 1, 0⟩
/-- H_FAULT.PWRFAIL, RH. -/
def H_FAULT_PWRFAIL : Fld := ⟨0x100010, 8, 1, 0⟩
/-- H_LOCKVIOL.COUNT, RC. -/
def H_LOCKVIOL_COUNT : Fld := ⟨0x100014, 0, 16, 0⟩
/-- H_LOCKVIOL.MID, RO. -/
def H_LOCKVIOL_MID : Fld := ⟨0x100014, 16, 4, 0⟩
/-- H_LOCKVADDR.OFFSET, RO. -/
def H_LOCKVADDR_OFFSET : Fld := ⟨0x100018, 0, 20, 0⟩
/-- H_LOCKVADDR.VALID, RC. -/
def H_LOCKVADDR_VALID : Fld := ⟨0x100018, 31, 1, 0⟩
/-- H_BUSERR.OFFSET, RO. -/
def H_BUSERR_OFFSET : Fld := ⟨0x10001C, 0, 20, 0⟩
/-- H_BUSERR.MID, RO. -/
def H_BUSERR_MID : Fld := ⟨0x10001C, 20, 4, 0⟩
/-- H_BUSERR.CAUSE, RO. -/
def H_BUSERR_CAUSE : Fld := ⟨0x10001C, 24, 3, 0⟩
/-- H_BUSERR.WR, RO. -/
def H_BUSERR_WR : Fld := ⟨0x10001C, 27, 1, 0⟩
/-- H_BUSERR.DBG, RO. -/
def H_BUSERR_DBG : Fld := ⟨0x10001C, 28, 1, 0⟩
/-- H_BUSERR.VALID, RC. -/
def H_BUSERR_VALID : Fld := ⟨0x10001C, 31, 1, 0⟩
/-- GATE_CTRL.RUN, RW. -/
def GATE_CTRL_RUN : Fld := ⟨0x100100, 0, 1, 0⟩
/-- GATE_CTRL.MVEC, RW. -/
def GATE_CTRL_MVEC : Fld := ⟨0x100100, 1, 10, 0x3FF⟩
/-- GATE_CTRL.MVEN, RW. -/
def GATE_CTRL_MVEN : Fld := ⟨0x100100, 11, 1, 0⟩
/-- GATE_CTRL.RSTTMO, RW. -/
def GATE_CTRL_RSTTMO : Fld := ⟨0x100100, 12, 8, 0x10⟩
/-- GATE_STAT.GEN, RO. -/
def GATE_STAT_GEN : Fld := ⟨0x100104, 0, 8, 0⟩
/-- GATE_STAT.BAR, RO. -/
def GATE_STAT_BAR : Fld := ⟨0x100104, 8, 2, 0⟩
/-- GATE_STAT.HRST, RC. -/
def GATE_STAT_HRST : Fld := ⟨0x100104, 10, 1, 0⟩
/-- GATE_STAT.MFREE, RO. -/
def GATE_STAT_MFREE : Fld := ⟨0x100104, 11, 7, 0x40⟩
/-- GATE_POOL.SLOTS, RO. -/
def GATE_POOL_SLOTS : Fld := ⟨0x100108, 0, 17, 0x10000⟩
/-- GATE_POOL.VECS, RO. -/
def GATE_POOL_VECS : Fld := ⟨0x100108, 17, 11, 0x3FF⟩
/-- GATE_EVT.RDONE, RC. -/
def GATE_EVT_RDONE : Fld := ⟨0x10010C, 0, 1, 0⟩
/-- GATE_EVT.MPU, RC. -/
def GATE_EVT_MPU : Fld := ⟨0x10010C, 1, 1, 0⟩
/-- GATE_EVT.BAR, RC. -/
def GATE_EVT_BAR : Fld := ⟨0x10010C, 2, 1, 0⟩
/-- GATE_EVT.HRST, RC. -/
def GATE_EVT_HRST : Fld := ⟨0x10010C, 3, 1, 0⟩
/-- SLC_CMD.SLICE, RW. -/
def SLC_CMD_SLICE : Fld := ⟨0x100110, 0, 8, 0⟩
/-- SLC_CMD.OP, RW. -/
def SLC_CMD_OP : Fld := ⟨0x100110, 8, 3, 0⟩
/-- SLC_CMD.GO, RW. -/
def SLC_CMD_GO : Fld := ⟨0x100110, 31, 1, 0⟩
/-- SLC_CMDRES.RES, RO. -/
def SLC_CMDRES_RES : Fld := ⟨0x100114, 0, 4, 0⟩
/-- SLC_CMDRES.SLICE, RO. -/
def SLC_CMDRES_SLICE : Fld := ⟨0x100114, 4, 8, 0⟩
/-- SLC_CMDRES.VALID, RC. -/
def SLC_CMDRES_VALID : Fld := ⟨0x100114, 31, 1, 0⟩
/-- H_TIME_LO.TIME, RO. -/
def H_TIME_LO : Fld := ⟨0x101000, 0, 32, 0⟩
/-- H_TIME_HI.TIME, RO. -/
def H_TIME_HI : Fld := ⟨0x101004, 0, 32, 0⟩
/-- SLC_KEY.PASID, RW. -/
def SLC_KEY_PASID (i : Nat) : Fld := ⟨0x104000 + 0x40 * i, 0, 20, 0⟩
/-- SLC_KEY.PRIV, RW. -/
def SLC_KEY_PRIV (i : Nat) : Fld := ⟨0x104000 + 0x40 * i, 20, 1, 0⟩
/-- SLC_KEY.WRITER, RW. -/
def SLC_KEY_WRITER (i : Nat) : Fld := ⟨0x104000 + 0x40 * i, 21, 1, 0⟩
/-- SLC_KEY.GROUP, RW. -/
def SLC_KEY_GROUP (i : Nat) : Fld := ⟨0x104000 + 0x40 * i, 22, 4, 0⟩
/-- SLC_RBASE_LO.ADDR, RW. -/
def SLC_RBASE_LO (i : Nat) : Fld := ⟨0x104004 + 0x40 * i, 0, 32, 0⟩
/-- SLC_RBASE_HI.ADDR, RW. -/
def SLC_RBASE_HI (i : Nat) : Fld := ⟨0x104008 + 0x40 * i, 0, 32, 0⟩
/-- SLC_RING.LOG2SIZE, RW. -/
def SLC_RING_LOG2SIZE (i : Nat) : Fld := ⟨0x10400C + 0x40 * i, 0, 5, 3⟩
/-- SLC_SHARE.SHARE, WS. -/
def SLC_SHARE_SHARE (i : Nat) : Fld := ⟨0x104010 + 0x40 * i, 0, 17, 0⟩
/-- SLC_VEC.VBASE, RW. -/
def SLC_VEC_VBASE (i : Nat) : Fld := ⟨0x104014 + 0x40 * i, 0, 10, 0⟩
/-- SLC_VEC.NVEC, RW. -/
def SLC_VEC_NVEC (i : Nat) : Fld := ⟨0x104014 + 0x40 * i, 10, 4, 0⟩
/-- SLC_VEC.METER, RW. -/
def SLC_VEC_METER (i : Nat) : Fld := ⟨0x104014 + 0x40 * i, 14, 6, 0⟩
/-- SLC_VEC.MEN, RW. -/
def SLC_VEC_MEN (i : Nat) : Fld := ⟨0x104014 + 0x40 * i, 20, 1, 0⟩
/-- SLC_STATE.STATE, RO. -/
def SLC_STATE_STATE (i : Nat) : Fld := ⟨0x104018 + 0x40 * i, 0, 3, 0⟩
/-- SLC_STATE.RESET_DONE, RC. -/
def SLC_STATE_RESET_DONE (i : Nat) : Fld := ⟨0x104018 + 0x40 * i, 3, 1, 0⟩
/-- SLC_STATE.ARM, RO. -/
def SLC_STATE_ARM (i : Nat) : Fld := ⟨0x104018 + 0x40 * i, 4, 1, 0⟩
/-- SLC_STATE.OCC, RO. -/
def SLC_STATE_OCC (i : Nat) : Fld := ⟨0x104018 + 0x40 * i, 5, 17, 0⟩
/-- SLC_PROD.SEQ, RO. -/
def SLC_PROD (i : Nat) : Fld := ⟨0x10401C + 0x40 * i, 0, 32, 0⟩
/-- SLC_CONS.SEQ, RO. -/
def SLC_CONS (i : Nat) : Fld := ⟨0x104020 + 0x40 * i, 0, 32, 0⟩
/-- SLC_GRANT.GRANTED, RO. -/
def SLC_GRANT_GRANTED (i : Nat) : Fld := ⟨0x104024 + 0x40 * i, 0, 17, 0⟩
/-- SLC_WR.COUNT, RC. -/
def SLC_WR (i : Nat) : Fld := ⟨0x104028 + 0x40 * i, 0, 32, 0⟩
/-- SLC_DISC.DISC, RC. -/
def SLC_DISC_DISC (i : Nat) : Fld := ⟨0x10402C + 0x40 * i, 0, 16, 0⟩
/-- SLC_DISC.RSTDISC, RC. -/
def SLC_DISC_RSTDISC (i : Nat) : Fld := ⟨0x10402C + 0x40 * i, 16, 16, 0⟩
/-- SLC_VWR.VWBASE, RW. -/
def SLC_VWR_VWBASE (i : Nat) : Fld := ⟨0x104030 + 0x40 * i, 0, 12, 0⟩
/-- SLC_VWR.VWCOUNT, RW. -/
def SLC_VWR_VWCOUNT (i : Nat) : Fld := ⟨0x104030 + 0x40 * i, 12, 13, 0⟩
/-- H_PWR_CFG.AUTOWAKE, WS. -/
def H_PWR_CFG_AUTOWAKE (i : Nat) : Fld := ⟨0x10F500 + 4 * i, 0, 1, 1⟩
/-- H_PWR_CFG.SLPWAKE, WS. -/
def H_PWR_CFG_SLPWAKE (i : Nat) : Fld := ⟨0x10F500 + 4 * i, 1, 1, 0⟩
/-- H_PWR_REQ.DOMAIN, RW. -/
def H_PWR_REQ_DOMAIN : Fld := ⟨0x10F560, 0, 5, 0⟩
/-- H_PWR_REQ.ON, RW. -/
def H_PWR_REQ_ON : Fld := ⟨0x10F560, 5, 1, 0⟩
/-- H_PWR_REQ.GO, RW. -/
def H_PWR_REQ_GO : Fld := ⟨0x10F560, 31, 1, 0⟩
/-- H_PWR_RES.RES, RO. -/
def H_PWR_RES_RES : Fld := ⟨0x10F564, 0, 3, 0⟩
/-- H_PWR_RES.DOMAIN, RO. -/
def H_PWR_RES_DOMAIN : Fld := ⟨0x10F564, 3, 5, 0⟩
/-- H_PWR_RES.VALID, RC. -/
def H_PWR_RES_VALID : Fld := ⟨0x10F564, 31, 1, 0⟩
/-- H_WB_CTRL.BUDGET, WS. -/
def H_WB_CTRL_BUDGET : Fld := ⟨0x10F570, 0, 8, 0x10⟩
/-- H_WB_CTRL.PWLIM, WS. -/
def H_WB_CTRL_PWLIM : Fld := ⟨0x10F570, 8, 8, 8⟩
/-- H_WB_COST.CLUSTER, WS. -/
def H_WB_COST_CLUSTER : Fld := ⟨0x10F574, 0, 4, 4⟩
/-- H_WB_COST.REGION, WS. -/
def H_WB_COST_REGION : Fld := ⟨0x10F574, 4, 4, 2⟩
/-- H_WB_COST.SHORT, WS. -/
def H_WB_COST_SHORT : Fld := ⟨0x10F574, 8, 4, 3⟩
/-- H_WB_COST.LONG, WS. -/
def H_WB_COST_LONG : Fld := ⟨0x10F574, 12, 4, 6⟩
/-- H_WB_COST.EDW, WS. -/
def H_WB_COST_EDW : Fld := ⟨0x10F574, 16, 4, 1⟩
/-- H_WB_STAT.INUSE, RO. -/
def H_WB_STAT_INUSE : Fld := ⟨0x10F578, 0, 8, 0⟩
/-- H_WB_STAT.PWUSE, RO. -/
def H_WB_STAT_PWUSE : Fld := ⟨0x10F578, 8, 8, 0⟩
/-- H_WB_STAT.WAIT, RO. -/
def H_WB_STAT_WAIT : Fld := ⟨0x10F578, 16, 5, 0⟩
/-- H_WB_CNT.GRANTS, RC. -/
def H_WB_CNT_GRANTS : Fld := ⟨0x10F57C, 0, 16, 0⟩
/-- H_WB_CNT.DELAYED, RC. -/
def H_WB_CNT_DELAYED : Fld := ⟨0x10F57C, 16, 16, 0⟩
/-- H_RST_REQ.KIND, RW. -/
def H_RST_REQ_KIND : Fld := ⟨0x10F590, 0, 3, 0⟩
/-- H_RST_REQ.INDEX, RW. -/
def H_RST_REQ_INDEX : Fld := ⟨0x10F590, 3, 6, 0⟩
/-- H_RST_REQ.GO, RW. -/
def H_RST_REQ_GO : Fld := ⟨0x10F590, 31, 1, 0⟩
/-- H_RST_STAT.KIND, RO. -/
def H_RST_STAT_KIND : Fld := ⟨0x10F594, 0, 3, 0⟩
/-- H_RST_STAT.INDEX, RO. -/
def H_RST_STAT_INDEX : Fld := ⟨0x10F594, 3, 6, 0⟩
/-- H_RST_STAT.COUNT, RC. -/
def H_RST_STAT_COUNT : Fld := ⟨0x10F594, 16, 16, 0⟩
/-- H_SU_STAT.PHASE, RO. -/
def H_SU_STAT_PHASE : Fld := ⟨0x10F5A0, 0, 3, 0⟩
/-- H_SU_STAT.RECOV, RO. -/
def H_SU_STAT_RECOV : Fld := ⟨0x10F5A0, 3, 1, 1⟩
/-- H_SU_STAT.START, RO. -/
def H_SU_STAT_START : Fld := ⟨0x10F5A0, 4, 3, 0⟩
/-- H_SU_STAT.FIRNKEPT, RO. -/
def H_SU_STAT_FIRNKEPT : Fld := ⟨0x10F5A0, 7, 1, 0⟩
/-- H_SU_STAT.LINKTMO, RC. -/
def H_SU_STAT_LINKTMO : Fld := ⟨0x10F5A0, 8, 1, 0⟩
/-- H_SU_STAT.SYNCTMO, RC. -/
def H_SU_STAT_SYNCTMO : Fld := ⟨0x10F5A0, 9, 1, 0⟩
/-- HMPU_CTRL.STRICT, RW. -/
def HMPU_CTRL_STRICT (i : Nat) : Fld := ⟨0x10F800 + 0x200 * i, 0, 1, 0⟩
/-- HMPU_FSTAT.VALID, RC. -/
def HMPU_FSTAT_VALID (i : Nat) : Fld := ⟨0x10F804 + 0x200 * i, 0, 1, 0⟩
/-- HMPU_FSTAT.CAUSE, RO. -/
def HMPU_FSTAT_CAUSE (i : Nat) : Fld := ⟨0x10F804 + 0x200 * i, 1, 2, 0⟩
/-- HMPU_FSTAT.REGION, RO. -/
def HMPU_FSTAT_REGION (i : Nat) : Fld := ⟨0x10F804 + 0x200 * i, 3, 4, 0⟩
/-- HMPU_FSTAT.TENANT, RO. -/
def HMPU_FSTAT_TENANT (i : Nat) : Fld := ⟨0x10F804 + 0x200 * i, 7, 1, 0⟩
/-- HMPU_FSTAT.SLICE, RO. -/
def HMPU_FSTAT_SLICE (i : Nat) : Fld := ⟨0x10F804 + 0x200 * i, 8, 8, 0⟩
/-- HMPU_FSTAT.COUNT, RC. -/
def HMPU_FSTAT_COUNT (i : Nat) : Fld := ⟨0x10F804 + 0x200 * i, 16, 16, 0⟩
/-- HMPU_FADDR_LO.ADDR, RO. -/
def HMPU_FADDR_LO (i : Nat) : Fld := ⟨0x10F808 + 0x200 * i, 0, 32, 0⟩
/-- HMPU_FADDR_HI.ADDR, RO. -/
def HMPU_FADDR_HI (i : Nat) : Fld := ⟨0x10F80C + 0x200 * i, 0, 32, 0⟩
/-- HMPU_RBASE_LO.ADDR, RW. -/
def HMPU_RBASE_LO (i j : Nat) : Fld := ⟨0x10F840 + 0x200 * i + 0x10 * j, 0, 32, 0⟩
/-- HMPU_RBASE_HI.ADDR, RW. -/
def HMPU_RBASE_HI (i j : Nat) : Fld := ⟨0x10F844 + 0x200 * i + 0x10 * j, 0, 32, 0⟩
/-- HMPU_RCFG.EN, RW. -/
def HMPU_RCFG_EN (i j : Nat) : Fld := ⟨0x10F848 + 0x200 * i + 0x10 * j, 0, 1, 0⟩
/-- HMPU_RCFG.SIZE, RW. -/
def HMPU_RCFG_SIZE (i j : Nat) : Fld := ⟨0x10F848 + 0x200 * i + 0x10 * j, 1, 6, 8⟩
/-- HMPU_RCFG.SRD, RW. -/
def HMPU_RCFG_SRD (i j : Nat) : Fld := ⟨0x10F848 + 0x200 * i + 0x10 * j, 7, 8, 0⟩
/-- HMPU_RCFG.PR, RW. -/
def HMPU_RCFG_PR (i j : Nat) : Fld := ⟨0x10F848 + 0x200 * i + 0x10 * j, 15, 1, 0⟩
/-- HMPU_RCFG.PW, RW. -/
def HMPU_RCFG_PW (i j : Nat) : Fld := ⟨0x10F848 + 0x200 * i + 0x10 * j, 16, 1, 0⟩
/-- HMPU_RCFG.TW, RW. -/
def HMPU_RCFG_TW (i j : Nat) : Fld := ⟨0x10F848 + 0x200 * i + 0x10 * j, 17, 1, 0⟩
/-- HMPU_RCFG.RLX, RW. -/
def HMPU_RCFG_RLX (i j : Nat) : Fld := ⟨0x10F848 + 0x200 * i + 0x10 * j, 18, 1, 0⟩
/-- HMPU_RCFG.NS, RW. -/
def HMPU_RCFG_NS (i j : Nat) : Fld := ⟨0x10F848 + 0x200 * i + 0x10 * j, 19, 1, 0⟩
/-- HMPU_RCFG.CACHE, RW. -/
def HMPU_RCFG_CACHE (i j : Nat) : Fld := ⟨0x10F848 + 0x200 * i + 0x10 * j, 20, 2, 0⟩
/-- H_LOAD_CTRL.START, RW. -/
def H_LOAD_CTRL_START : Fld := ⟨0x120000, 0, 1, 0⟩
/-- H_LOAD_CTRL.ABORT, RW. -/
def H_LOAD_CTRL_ABORT : Fld := ⟨0x120000, 1, 1, 0⟩
/-- H_LOAD_CTRL.PERSIST, RW. -/
def H_LOAD_CTRL_PERSIST : Fld := ⟨0x120000, 2, 1, 0⟩
/-- H_LOAD_DATA.DATA, RW. -/
def H_LOAD_DATA : Fld := ⟨0x120004, 0, 32, 0⟩
/-- H_LOAD_STATUS.STATE, RO. -/
def H_LOAD_STATUS_STATE : Fld := ⟨0x120008, 0, 3, 0⟩
/-- H_LOAD_STATUS.ERR, RO. -/
def H_LOAD_STATUS_ERR : Fld := ⟨0x120008, 3, 5, 0⟩
/-- H_LOAD_STATUS.FREE, RO. -/
def H_LOAD_STATUS_FREE : Fld := ⟨0x120008, 8, 7, 0x40⟩
/-- H_LOAD_STATUS.COLL, RC. -/
def H_LOAD_STATUS_COLL : Fld := ⟨0x120008, 15, 1, 0⟩
/-- H_LOAD_STATUS.DEEPPEND, RO. -/
def H_LOAD_STATUS_DEEPPEND : Fld := ⟨0x120008, 16, 4, 0⟩
/-- H_LOAD_STATUS.BOOTBLK, RO. -/
def H_LOAD_STATUS_BOOTBLK : Fld := ⟨0x120008, 20, 2, 0⟩
/-- H_LOAD_STATUS.BOOTALT, RC. -/
def H_LOAD_STATUS_BOOTALT : Fld := ⟨0x120008, 22, 1, 0⟩
/-- H_LOAD_STATUS.TWIN, RO. -/
def H_LOAD_STATUS_TWIN : Fld := ⟨0x120008, 23, 2, 0⟩
/-- H_LOAD_STATUS.S2PEND, RO. -/
def H_LOAD_STATUS_S2PEND : Fld := ⟨0x120008, 25, 1, 0⟩
/-- H_IMG_ID_LO.ID, RO. -/
def H_IMG_ID_LO : Fld := ⟨0x12000C, 0, 32, 0⟩
/-- H_IMG_ID_HI.ID, RO. -/
def H_IMG_ID_HI : Fld := ⟨0x120010, 0, 32, 0⟩
/-- H_LOAD_GAP.GAP, RW. -/
def H_LOAD_GAP_GAP : Fld := ⟨0x120014, 0, 16, 0x258⟩
/-- H_LOAD_GEN.GEN, RO. -/
def H_LOAD_GEN : Fld := ⟨0x120018, 0, 32, 0⟩
/-- HEDW_CFG.SEALCHK, W1. -/
def HEDW_CFG_SEALCHK : Fld := ⟨0x121000, 0, 1, 0⟩
/-- HEDW_STAT.ROLL, RC. -/
def HEDW_STAT_ROLL : Fld := ⟨0x121004, 0, 1, 0⟩
/-- HEDW_STAT.SEALNEW, RC. -/
def HEDW_STAT_SEALNEW : Fld := ⟨0x121004, 1, 1, 0⟩
/-- HSEAL_LO.VALUE, RO. -/
def HSEAL_LO : Fld := ⟨0x121008, 0, 32, 0⟩
/-- HSEAL_HI.VALUE, RO. -/
def HSEAL_HI : Fld := ⟨0x12100C, 0, 32, 0⟩
/-- HSEAL_MAC_LO.VALUE, RO. -/
def HSEAL_MAC_LO : Fld := ⟨0x121010, 0, 32, 0⟩
/-- HSEAL_MAC_HI.VALUE, RO. -/
def HSEAL_MAC_HI : Fld := ⟨0x121014, 0, 32, 0⟩
/-- HMTR_LO.VALUE, RO. -/
def HMTR_LO (i : Nat) : Fld := ⟨0x121100 + 0x10 * i, 0, 32, 0⟩
/-- HMTR_HI.VALUE, RO. -/
def HMTR_HI (i : Nat) : Fld := ⟨0x121104 + 0x10 * i, 0, 32, 0⟩
/-- HMTR_CNT.VALUE, RO. -/
def HMTR_CNT (i : Nat) : Fld := ⟨0x121108 + 0x10 * i, 0, 32, 0⟩
/-- SLC_DIRTY.PAGES, RC. -/
def SLC_DIRTY (i j : Nat) : Fld := ⟨0x122000 + 0x80 * i + 4 * j, 0, 32, 0⟩
/-- PG_PROD.SEQ, RO. -/
def PG_PROD (i : Nat) : Fld := ⟨0x200000 + 0x1000 * i, 0, 32, 0⟩
/-- PG_CONS.SEQ, RW. -/
def PG_CONS (i : Nat) : Fld := ⟨0x200004 + 0x1000 * i, 0, 32, 0⟩
/-- PG_ARM.ARM, RW. -/
def PG_ARM_ARM (i : Nat) : Fld := ⟨0x200008 + 0x1000 * i, 0, 1, 0⟩
/-- PG_STAT.STATE, RO. -/
def PG_STAT_STATE (i : Nat) : Fld := ⟨0x20000C + 0x1000 * i, 0, 3, 0⟩
/-- PG_STAT.CERR, RC. -/
def PG_STAT_CERR (i : Nat) : Fld := ⟨0x20000C + 0x1000 * i, 3, 1, 0⟩
/-- PG_STAT.VWBUSY, RC. -/
def PG_STAT_VWBUSY (i : Nat) : Fld := ⟨0x20000C + 0x1000 * i, 4, 1, 0⟩
/-- PG_STAT.OCC, RO. -/
def PG_STAT_OCC (i : Nat) : Fld := ⟨0x20000C + 0x1000 * i, 5, 17, 0⟩
/-- PG_VW.VW, RW. -/
def PG_VW_VW (i : Nat) : Fld := ⟨0x200010 + 0x1000 * i, 0, 28, 0⟩
/-- PG_VWRES.DONE, RO. -/
def PG_VWRES_DONE (i : Nat) : Fld := ⟨0x200014 + 0x1000 * i, 0, 1, 0⟩
/-- PG_VWRES.REFUSED, RO. -/
def PG_VWRES_REFUSED (i : Nat) : Fld := ⟨0x200014 + 0x1000 * i, 1, 1, 0⟩
/-- PG_VWRES.REASON, RO. -/
def PG_VWRES_REASON (i : Nat) : Fld := ⟨0x200014 + 0x1000 * i, 2, 4, 0⟩
/-- PG_VWRES.DENIED, RC. -/
def PG_VWRES_DENIED (i : Nat) : Fld := ⟨0x200014 + 0x1000 * i, 6, 1, 0⟩
/-- PG_VWRES.PEND, RO. -/
def PG_VWRES_PEND (i : Nat) : Fld := ⟨0x200014 + 0x1000 * i, 31, 1, 0⟩

/-- The block of an arbiter: cluster ports 0 to 15, Verrath outputs 16 to 19, spill port 20, ring writers 21 and 22
(R247, R405). -/
def arbBase (a : Nat) : Nat :=
  if a < 16 then 0xC000 + 0x80 * a else if a < 20 then 0xC800 + 0x80 * (a - 16)
  else if a = 20 then 0xCA00 else 0x10C000 + 0x200 * (a - 21)
/-- The first counter of an arbiter (R247, R405). -/
def arbCtr (a : Nat) : Nat := arbBase a + (if a < 20 then 0x20 else 0x40)
/-- ARB_CTRL.N, WS. -/
def ARB_CTRL_N (a : Nat) : Fld := ⟨arbBase a + 0, 0, 7, 8⟩
/-- ARB_CTRL.AGEFORCE, RW. -/
def ARB_CTRL_AGEFORCE (a : Nat) : Fld := ⟨arbBase a + 0, 7, 1, 0⟩
/-- ARB_CTRL.WINDOW, WS. -/
def ARB_CTRL_WINDOW (a : Nat) : Fld := ⟨arbBase a + 0, 8, 12, 0x100⟩
/-- ARB_CTRL.HINTEN, WS. -/
def ARB_CTRL_HINTEN (a : Nat) : Fld := ⟨arbBase a + 0, 20, 1, 1⟩
/-- ARB_STAT.AGING, RO. -/
def ARB_STAT_AGING (a : Nat) : Fld := ⟨arbBase a + 4, 0, 1, 1⟩
/-- ARB_STAT.BUSY, RO. -/
def ARB_STAT_BUSY (a : Nat) : Fld := ⟨arbBase a + 4, 1, 1, 0⟩
/-- ARB_STAT.HOLDER, RO. -/
def ARB_STAT_HOLDER (a : Nat) : Fld := ⟨arbBase a + 4, 2, 5, 0⟩
/-- ARB_STAT.REVOKED, RO. -/
def ARB_STAT_REVOKED (a : Nat) : Fld := ⟨arbBase a + 4, 7, 1, 0⟩
/-- ARB_STAT.GPHASE, RO. -/
def ARB_STAT_GPHASE (a : Nat) : Fld := ⟨arbBase a + 4, 8, 6, 0⟩
/-- ARB_EVT.WDRAW, RC. -/
def ARB_EVT_WDRAW (a : Nat) : Fld := ⟨arbBase a + 8, 0, 16, 0⟩
/-- ARB_EVT.REVOKE, RC. -/
def ARB_EVT_REVOKE (a : Nat) : Fld := ⟨arbBase a + 8, 16, 16, 0⟩
/-- ARB_WT weight byte of requester j, WS. -/
def ARB_WT_W (a j : Nat) : Fld := ⟨arbBase a + 0x10 + 4 * (j / 4), 8 * (j % 4), 8, 1⟩
/-- ARB_GRANTS of requester j, RO. -/
def ARB_GRANTS (a j : Nat) : Fld := ⟨arbCtr a + 12 * j, 0, 32, 0⟩
/-- ARB_WAITED of requester j, RO. -/
def ARB_WAITED (a j : Nat) : Fld := ⟨arbCtr a + 12 * j + 4, 0, 32, 0⟩
/-- ARB_LONGEST of requester j, RC. -/
def ARB_LONGEST (a j : Nat) : Fld := ⟨arbCtr a + 12 * j + 8, 0, 16, 0⟩

end Reg

end Sys2Proof.Machine
end

