-- ==== Sys2Proof/Machine/Ops.lean ====
section
/-! DEFINITION. The named operations over State that the meanings share: register fields, ports, the parts of State by
index, refusals, internal sources, trace records, MPU checks, wake requests, and the identity of the die. -/

namespace Sys2Proof.Machine

-- commands

/-- The state after an effect f: the outputs of the step before are gone, and f neither sees nor touches the queue of
waiting commands. -/
def effect (f : State → State) (s : State) : State := { f { s with pending := [], out := [] } with pending := s.pending }

/-- A command whose effect is f. -/
def run (f : State → State) (s : State) : Host.Outcome State Fault Refusal := .next (effect f s)

/-- The islands of the field die are clocked: no reset is held, and the die is not in deep sleep (R459, R519). -/
def clocked (s : State) : Bool := !s.su.hold && s.time.sleep != .asleep && s.time.sleep != .waking

/-- A command of the clocked islands, which has no effect while their clocks are stopped. -/
def runClk (f : State → State) (s : State) : Host.Outcome State Fault Refusal := run (fun s => if clocked s then f s else s) s

/-- A command with operands that must name a place of the hardware. -/
def runWf (ok : Bool) (f : State → State) (s : State) : Host.Outcome State Fault Refusal :=
  if ok then run f s else .fault .illFormed

-- registers

/-- The key of a field in State.regs. -/
def Fld.key (f : Fld) : Nat := 32 * f.off + f.lo

/-- The present value of a stored field. -/
def State.rd (s : State) (f : Fld) : Nat := tget f.rst s.regs f.key

/-- A one-bit field as a flag. -/
def State.flag (s : State) (f : Fld) : Bool := s.rd f != 0

/-- The state with a stored field set. -/
def State.wr (s : State) (f : Fld) (v : Nat) : State := { s with regs := tset f.rst s.regs f.key (v % 2 ^ f.w) }

/-- A count that saturates (R485). -/
def State.inc (s : State) (f : Fld) (n : Nat := 1) : State := s.wr f (min (2 ^ f.w - 1) (s.rd f + n))

/-- A count that wraps (R485). -/
def State.incW (s : State) (f : Fld) (n : Nat := 1) : State := s.wr f (s.rd f + n)

/-- A flag set. -/
def State.raise (s : State) (f : Fld) : State := s.wr f 1

/-- A further output at a port. -/
def State.emit (s : State) (o : PortOut) : State := { s with out := s.out ++ [o] }

/-- The state after a list of effects, in order. -/
def State.each {α : Type} (s : State) (l : List α) (f : α → State → State) : State := l.foldl (fun s a => f a s) s

-- parts of State by index

def State.campOf (s : State) (n : Nat) : CampS := tget {} s.camp n
def State.setCamp (s : State) (n : Nat) (c : CampS) : State := { s with camp := tset {} s.camp n c }
def State.segOf (s : State) (r : Nat) : SegS := tget {} s.seg r
def State.setSeg (s : State) (r : Nat) (c : SegS) : State := { s with seg := tset {} s.seg r c }
def State.coreOf (s : State) (n : Nat) : CoreS := tget {} s.core n
def State.setCore (s : State) (n : Nat) (c : CoreS) : State := { s with core := tset {} s.core n c }
def State.predOf (s : State) (n i : Nat) : Pred := tget {} s.pred (2 * n + i)
def State.setPred (s : State) (n i : Nat) (p : Pred) : State := { s with pred := tset {} s.pred (2 * n + i) p }
def State.clusOf (s : State) (k : Nat) : ClusS := tget {} s.clus k
def State.setClus (s : State) (k : Nat) (c : ClusS) : State := { s with clus := tset {} s.clus k c }
def State.arbOf (s : State) (a : Nat) : Arb := tget {} s.arb a
def State.setArb (s : State) (a : Nat) (b : Arb) : State := { s with arb := tset {} s.arb a b }
def State.port (s : State) (p : Nat) : PortS := tget {} s.lnk p
def State.setPort (s : State) (p : Nat) (x : PortS) : State := { s with lnk := tset {} s.lnk p x }
def State.lockOf (s : State) (i : Nat) : LockS := tget {} s.lock i
def State.setLock (s : State) (i : Nat) (l : LockS) : State := { s with lock := tset {} s.lock i l }
def State.latchOf (s : State) (src : Nat) : Option Latched := tget none s.src.latch src
def State.setLatch (s : State) (src : Nat) (l : Option Latched) : State :=
  { s with src := { s.src with latch := tset none s.src.latch src l } }
def State.recOf (s : State) (i : Nat) : Option FirnRec := tget none s.firn.recs i
def State.setRec (s : State) (i : Nat) (r : Option FirnRec) : State :=
  { s with firn := { s.firn with recs := tset none s.firn.recs i r } }
def State.buf (s : State) (k : Nat) : List XEntry := tget [] s.xb.bufs k
def State.setBuf (s : State) (k : Nat) (l : List XEntry) : State :=
  { s with xb := { s.xb with bufs := tset [] s.xb.bufs k l } }
def State.staging (s : State) (i : Nat) : List XEntry := tget [] s.xb.staging i
def State.setStaging (s : State) (i : Nat) (l : List XEntry) : State :=
  { s with xb := { s.xb with staging := tset [] s.xb.staging i l } }
def State.ring (s : State) (i : Nat) : List (Nat × List XEntry) := tget [] s.xb.rings i
def State.setRing (s : State) (i : Nat) (l : List (Nat × List XEntry)) : State :=
  { s with xb := { s.xb with rings := tset [] s.xb.rings i l } }
def State.resv (s : State) (k : Nat) : Nat := tget 0 s.xb.resv k
def State.setResv (s : State) (k n : Nat) : State := { s with xb := { s.xb with resv := tset 0 s.xb.resv k n } }
def State.crossing (s : State) (r : Nat) : List XMsg := tget [] s.rq.crossing r
def State.setCrossing (s : State) (r : Nat) (l : List XMsg) : State :=
  { s with rq := { s.rq with crossing := tset [] s.rq.crossing r l } }
def State.lane (s : State) (u : Nat) : List Msg := tget [] s.rq.lanes u
def State.setLane (s : State) (u : Nat) (l : List Msg) : State :=
  { s with rq := { s.rq with lanes := tset [] s.rq.lanes u l } }
def State.laneResv (s : State) (u : Nat) : Nat := tget 0 s.rq.laneResv u
def State.setLaneResv (s : State) (u n : Nat) : State :=
  { s with rq := { s.rq with laneResv := tset 0 s.rq.laneResv u n } }
def State.toClus (s : State) (k : Nat) : List (Nat × Msg) := tget [] s.rq.toClus k
def State.setToClus (s : State) (k : Nat) (l : List (Nat × Msg)) : State :=
  { s with rq := { s.rq with toClus := tset [] s.rq.toClus k l } }
def State.slice (s : State) (i : Nat) : Slice := tget {} s.gate.slices i
def State.setSlice (s : State) (i : Nat) (x : Slice) : State :=
  { s with gate := { s.gate with slices := tset {} s.gate.slices i x } }
def State.chan (s : State) (c : Nat) : Chan := tget {} s.edw.chan c
def State.setChan (s : State) (c : Nat) (x : Chan) : State :=
  { s with edw := { s.edw with chan := tset {} s.edw.chan c x } }

/-- A word of the active tables and banks: space and word index (R329). -/
def State.tab (s : State) (space i : Nat) : Nat := (tget 0 s.img.active (65536 * space + i)).toNat

/-- A structure word of group r in force (R329, R332). -/
def State.struct (s : State) (r i : Nat) : Nat := (tget 0 s.yar.words (768 * r + i)).toNat

-- identity

/-- This die as an origin-die value (R27). -/
def State.die (s : State) : BitVec 5 := s.pins.idPkg ++ s.pins.idDie

/-- This die is field die 0 of its package, which carries the barrier (R20). -/
def State.isDie0 (s : State) : Bool := s.pins.idDie == 0

/-- The die is the time master, package 0 die 0 (R20). -/
def State.isMaster (s : State) : Bool := s.die == 0

/-- The package and die exist in the system (R25). -/
def State.exists (s : State) (d : BitVec 5) : Bool := s.shape.contains d.toNat

/-- System time in ticks, as a number. -/
def State.t (s : State) : Nat := s.time.now.toNat

-- register accesses (R478 to R482, R520)

/-- The response to an access; a write to the host gate is posted and has none (R482, R520). -/
def respond (a : Access) (wrt : Bool) (rdata : Word) (err : Option Nat) (s : State) : State :=
  if a.host && wrt then s else s.emit (.reg a.via rdata err)

/-- An access raises a bus error: BUSERR records it and the response carries it (R480, R493). -/
def busError (a : Access) (addr cause : Nat) (wrt : Bool) (s : State) : State :=
  let f (off : Nat) : Fld := ⟨(if a.host then 0x10001C else 0x1C), off, (if off = 0 then 20 else if off = 20 then 4 else
    if off = 24 then 3 else 1), 0⟩
  let addr := if a.via == .bar2 then (0x80000 + addr) % 2 ^ 20 else addr
  let s := ((s.wr (f 0) addr).wr (f 20) a.master).wr (f 24) cause
  let s := ((s.wr (f 27) (b2n wrt)).wr (f 28) (b2n a.debug)).wr (f 31) 1
  respond a wrt 0 (some cause) s

-- power domains

/-- The state code of a domain (R451). Domain 22 is never switched (R453). -/
def State.dom (s : State) (d : Nat) : Nat := if d = 22 then 2 else (tget (0 : BitVec 2) s.pwr.st d).toNat
def State.setDom (s : State) (d : Nat) (v : Nat) : State :=
  { s with pwr := { s.pwr with st := tset 0 s.pwr.st d (BitVec.ofNat 2 v) } }
/-- The domain is ON. -/
def State.on (s : State) (d : Nat) : Bool := s.dom d == 2

/-- One more wake request, merged with a request of the same domain (R456). -/
def addWake (d cls : Nat) (sw : Bool) (s : State) : State :=
  let reqs := s.pwr.reqs
  let reqs := if reqs.any (·.d == d) then
      reqs.map fun q => if q.d == d then { q with cls := min q.cls cls, sw := q.sw || sw } else q
    else reqs ++ [{ d := d, cls := cls, age := s.t, sw := sw }]
  { s with pwr := { s.pwr with reqs := reqs } }

/-- A wake request for domain d in class cls, 0 F, 1 demand, 2 warm; sw when written to PWR_REQ (R451, R452, R456). -/
def wake (d cls : Nat) (sw : Bool) (s : State) : State :=
  let ask (d : Nat) (s : State) : State :=
    if s.dom d = 0 ∨ (s.dom d = 3 ∧ sw = true) then addWake d cls sw s else s
  if d < 16 ∧ ¬ s.on (16 + d / 4) then ask d (ask (16 + d / 4) s) else ask d s

/-- A demand request of start-up or of the wake from deep sleep, which AUTOWAKE does not hold and FAIL does not hear
(R451, R455, R460, R468). -/
def wakeSys (d : Nat) (s : State) : State :=
  let ask (d : Nat) (s : State) : State := if s.dom d = 0 then addWake d 1 true s else s
  if d < 16 ∧ ¬ s.on (16 + d / 4) then ask d (ask (16 + d / 4) s) else ask d s

/-- The physical Campion that serves logical Campion n, and its cluster domain (R23, R138). -/
def campPhys (s : State) (n : Nat) : Nat :=
  let g := s.segOf (n / 16)
  if g.took == some (n % 16) then 16 * (n / 16) + g.tookSpare else n
def campDom (s : State) (n : Nat) : Nat := campPhys s n / 4

/-- The domain that powers unit u, a core below 64 and a Campion from there (R23, R138). -/
def unitDom (s : State) (u : Nat) : Nat := if u < 64 then u / 4 else campDom s (u - 64)

/-- The wake request of a message bound for a unit of this die (R115, R138, R541). -/
def wakeFor (lane : Nat) (m : Msg) (s : State) : State :=
  let k := unitDom s lane
  if s.on k && s.on (16 + k / 4) then s else wake k (if m.cls == .f then 0 else 1) false s

-- the frost trace

/-- The sampling exponent of R499; a value above 8 acts as 8. -/
def traceNlog (s : State) : Nat := min 8 (s.rd Reg.TRACE_CTRL_NLOG)

/-- The tests of R499 except sampling. -/
def traceSelected (p : Nat) (m : Msg) (s : State) : Bool :=
  s.flag Reg.TRACE_CTRL_EN && !s.trc.frozen && bit (s.rd Reg.TRACE_CTRL_PTS) p
    && decide (s.rd Reg.TRACE_SEL_SRCLO ≤ m.source.toNat) && decide (m.source.toNat ≤ s.rd Reg.TRACE_SEL_SRCHI)
    && bit (s.rd Reg.TRACE_SEL_CLASSMASK) m.cls.code && !m.isCtl
    && (m.cls != .m || decide (p ≤ 1))

/-- An entry enters the writer queue of 8, or is lost (R497, R500). -/
def traceEnqueue (p detail : Nat) (m : Msg) (s : State) : State :=
  if s.trc.queue.length < 8 then
    let b := m.pack
    let e : TrEntry := ⟨word128 b 0, word128 b 1, s.time.now.truncate 32, BitVec.ofNat 32 (p + 16 * detail)⟩
    { s with trc := { s.trc with queue := s.trc.queue ++ [e] } }
  else ({ s with trc := { s.trc with eseq := s.trc.eseq + 1 } } : State).inc Reg.TRACE_STAT_LOST

/-- A happening at a trace point (R498, R499, R504). A trigger is recorded whether sampled or not; POST further
entries are recorded after it, and then the trace freezes and owes a doorbell (R505). -/
def trace (p detail : Nat) (m : Msg) (s : State) : State :=
  if traceSelected p m s then
    let n := 2 ^ traceNlog s
    let refN := s.trc.refusals + 1
    let s := if p = 1 then { s with trc := { s.trc with refusals := refN } } else s
    let sampled := if p = 1 then refN % n == 0 else m.seq.toNat % n == 0
    let trig := s.flag Reg.TRACE_CTRL_TRIGEN && s.trc.trig.isNone
      && m.source.toNat == s.rd Reg.TRACE_TRIG_SOURCE && p == s.rd Reg.TRACE_TRIG_POINT
    if trig || sampled then
      let s := traceEnqueue p detail m s
      let left := if trig then some (s.rd Reg.TRACE_TRIG_POST) else s.trc.trig.map (· - 1)
      let froze := left == some 0
      let due := s.trc.dbDue + b2n (froze && s.flag Reg.TRACE_CTRL_DBEN)
      { s with trc := { s.trc with trig := left, frozen := froze, dbDue := due } }
    else s
  else s

-- refusals and internal sources

/-- A counted refusal: the count of its reason, ACC_LASTREF and the REFUSE trace point (R89, R91, R498). -/
def countRefusal (reason kind : Nat) (m : Msg) (s : State) : State :=
  let s := s.inc (Reg.ACC_REF reason)
  let s := ((s.wr Reg.ACC_LASTREF_SOURCE m.source.toNat).wr Reg.ACC_LASTREF_REASON reason).wr Reg.ACC_LASTREF_KIND kind
  trace 1 reason { m with seq := 0, rver := 0 } (s.raise Reg.ACC_LASTREF_VALID)

/-- The kind of a wired or internal source in ACC_LASTREF. -/
def srcKind (src : Nat) : Nat := if src < 1024 then 0 else 1

/-- The configuration of a source in force (R41, R74, R64, R333). -/
def srcEn (s : State) (src : Nat) : Bool :=
  if src < 1024 then s.flag (Reg.SRC_CFG0_EN src) else if src < 5120 then s.flag (Reg.VEC_CFG_EN (src - 1024)) else true
/-- The class of a source: the committed one, or while its stream migrates the one before (R41, R74, R64, R318). -/
def srcCls (s : State) (src : Nat) : Cls :=
  (tget none s.rec_.oldCls src).getD <| if src < 1024 then Cls.ofCode (s.rd (Reg.SRC_CFG0_CLASS src))
  else if src < 5120 then Cls.ofCode (s.rd (Reg.VEC_CFG_CLASS (src - 1024))) else .f
def srcPrio (s : State) (src : Nat) : Nat :=
  if src < 1024 then s.rd (Reg.SRC_CFG0_PRIO src)
  else if src < 5120 then s.rd (Reg.VEC_CFG_PRIO (src - 1024)) else bits (s.tab 0x20 (src - 5120)) 12 5
def srcDest (s : State) (src : Nat) : BitVec 12 :=
  BitVec.ofNat 12 (if src < 1024 then s.rd (Reg.SRC_CFG1_DEST src)
    else if src < 5120 then s.rd (Reg.VEC_CFG_DEST (src - 1024)) else bits (s.tab 0x20 (src - 5120)) 0 12)
/-- The reflex slot of a source (R65, R74, R333). -/
def srcSlot (s : State) (src : Nat) : Nat :=
  if src < 1024 then s.rd (Reg.SRC_CFG1_SLOT src)
  else if src < 5120 then s.rd (Reg.VEC_CFG_BIND (src - 1024)) % 64 else bits (s.tab 0x20 (src - 5120)) 17 6
/-- The slice bound to a source (R25, R64, R103). DESIGN CHOICE (log entry 51): slice 0 for an internal source, which has no
such field. -/
def srcSlice (s : State) (src : Nat) : Nat :=
  if src < 1024 then s.rd (Reg.SRC_CFG3_SLICE src)
  else if src < 5120 then s.rd (Reg.VEC_CFG_BIND (src - 1024)) else 0
/-- PAIR takes effect for classes G and F of wired sources (R64, R74). -/
def srcPaired (s : State) (src : Nat) : Bool :=
  decide (src < 1024) && s.flag (Reg.SRC_CFG3_PAIR src) && (srcCls s src == .g || srcCls s src == .f)

/-- The destination is bound for a host gate, which no class M event is (R88, R95). -/
def hostBound (c : Cls) (d : BitVec 12) : Bool := c != .m && destHost d

/-- The message of an event under the configuration in force (R73, R95, R99, R100, R103, R108). -/
def formMsg (s : State) (src : Nat) (stamp : Tick) (win : BitVec 32) (payload : BitVec 16) (typ : BitVec 6)
    (seq : BitVec 24) : Msg :=
  let c := srcCls s src
  let d := if c == .m then dieAddr s.die else srcDest s src
  { seq := seq, origin := s.die, source := BitVec.ofNat 13 src, dest := d, prio := BitVec.ofNat 5 (srcPrio s src),
    cls := c, rver := BitVec.ofNat 3 (s.rd Reg.ROUTE_VER_VER), ts := stamp.truncate 32,
    epoch := if hostBound c d then BitVec.ofNat 8 (srcSlice s src) else win.truncate 8,
    typ := typ, aval := false, repres := false, payload := payload, slot := some (BitVec.ofNat 6 (srcSlot s src)) }

/-- An internal source raises an event: class F, one latch, LATCH when it is full (R47, R48, R66). From the write that starts
a deep sleep to its end nothing latches (R459). -/
def raiseInt (src payload : Nat) (s : State) : State :=
  let p := BitVec.ofNat 16 payload
  if s.time.sleep != .awake then s
  else match s.latchOf src with
  | some _ => countRefusal 0 1 (formMsg s src s.time.now s.epoch.num p 7 0) s
  | none => s.setLatch src (some ⟨s.time.now, p, 7, s.epoch.num, true, false⟩)

/-- A replacement of a class S event on this die: its COAL bit and ACC_COAL (R96). -/
def coalesce (src : Nat) (s : State) : State :=
  let f : Fld := Reg.COAL (src / 32)
  (s.wr f (s.rd f ||| 2 ^ (src % 32))).inc Reg.ACC_COAL

-- epochs and thaws

/-- The period in force (R193). -/
def periodInForce (s : State) : Nat :=
  let p := s.rd Reg.EPOCH_PERIOD_PERIOD
  max 256 (p / 2 * 2)

/-- The tick at which the next thaw is due: a whole period after E_k, or at once after a short epoch (R193, R195). -/
def nextThaw (s : State) : Nat :=
  match s.epoch.short with
  | some t => t.toNat
  | none => s.epoch.start.toNat + periodInForce s

/-- A thaw is due: the die is open, its clocks run and its time is known again after a sleep (R193, R211). -/
def thawDue (s : State) : Bool :=
  s.su.open_ && clocked s && !s.time.wakeHold && decide (nextThaw s ≤ s.t)

/-- A thaw is due or under way: the crossbar island takes nothing from its link-to-crossbar crossings (R198, R291). -/
def thawing (s : State) : Bool := thawDue s || s.flag Reg.THAW_STATUS_ACTIVE

/-- A deep thaw of wired source n's group is running: its sources latch and offer nothing (R59). -/
def groupHeld (s : State) (n : Nat) : Bool := decide (2 ≤ s.img.dtPhase) && s.img.dtRegion == n / 256

/-- An offer of source n's latched event is past A0 (R77, R84). -/
def offerFlying (s : State) (n : Nat) : Bool := s.acc.offers.any fun o => o.writer.isNone && o.msg.source.toNat == n

-- the crossbar's stores

/-- Every entry stored in the crossbar, its stagings and rings. -/
def xbEntries (s : State) : List XEntry :=
  (s.xb.bufs.flatMap (·.2)) ++ (s.xb.staging.flatMap (·.2)) ++ (s.xb.rings.flatMap fun r => r.2.flatMap (·.2))

-- destinations

/-- The destination is well formed (R25, R40). -/
def destOk (s : State) (d : BitVec 12) : Bool :=
  s.exists (destDie d) &&
    (if destHost d then !destCamp d && destUnit d == 0
     else !(destCamp d && destDie d == s.die && (s.segOf (destUnit d / 16)).spare == some (destUnit d % 16)))

-- the crevasse audit's lists

/-- The list and entry at a position of the audit's pass (R293). -/
def auditAt (pos : Nat) : Nat × Nat :=
  if pos < 1536 then (pos / 32, pos % 32)
  else if pos < 1600 then (48 + (pos - 1536) / 16, (pos - 1536) % 16)
  else if pos < 1728 then (52 + (pos - 1600) / 32, (pos - 1600) % 32)
  else (56 + (pos - 1728) / 256, (pos - 1728) % 256)

/-- The entries of free list l that the audit has found neither free nor held (R294). -/
def lostIn (s : State) (l : Nat) : Nat := (s.audit.found.filter fun p => (auditAt p).1 == l).length

-- Firn occupancy

/-- The records in use: the listed records and the replay records, always in use (R268, R299). -/
def firnInUse (s : State) : Nat := Config.replayRecords + s.firn.recs.length

/-- The records in use together with those reserved by offers in flight (R87). -/
def firnCount (s : State) : Nat := firnInUse s + (s.acc.offers.map (·.recs)).sum

/-- FIRN_STAT.NEAR follows USED; source 5,122 is raised when it rises (R301). -/
def firnNearCheck (before : State) (s : State) : State :=
  if firnCount before < Config.firnNear ∧ Config.firnNear ≤ firnCount s then raiseInt 5122 (firnCount s) s else s

/-- The lowest free record index (log entry 7). -/
def firnFree (s : State) : Nat :=
  let rec go : Tbl (Option FirnRec) → Nat → Nat
    | [], i => i
    | (k, _) :: t, i => if k = i then go t (i + 1) else i
  go s.firn.recs 0

/-- A record is written into a free Firn record, when one is free. -/
def firnWrite (r : FirnRec) (s : State) : State :=
  if firnCount s < Config.firnRecords then firnNearCheck s (s.setRec (firnFree s) (some r)) else s

/-- The index and record of the first record that satisfies p. -/
def firnFind (s : State) (p : FirnRec → Bool) : Option (Nat × FirnRec) :=
  s.firn.recs.findSome? fun e => match e.2 with
    | some r => if p r then some (e.1, r) else none
    | none => none

/-- The indexes and records that satisfy p, in index order. -/
def firnAll (s : State) (p : FirnRec → Bool) : List (Nat × FirnRec) :=
  s.firn.recs.filterMap fun e => match e.2 with
    | some r => if p r then some (e.1, r) else none
    | none => none

-- the memory protection units

/-- The outcome of an MPU check (R417, R420). -/
inductive MpuOut where
  | pass (rlx ns : Bool) (cache : Nat)
  | fault (cause region : Nat)
deriving DecidableEq, Repr

/-- The block of an MPU: engine 0 or 1 of the field instance, ring writer 0 or 1 of the host gate (R424). -/
def mpuBase (host : Bool) (e : Nat) : Nat := (if host then 0x10F800 else 0xF800) + 0x200 * e

/-- A word of an MPU block, fields and width. -/
def mpuFld (host : Bool) (e off lo w rst : Nat) : Fld := ⟨mpuBase host e + off, lo, w, rst⟩

/-- Region i of an MPU matches the address (R416). -/
def mpuMatch (host : Bool) (e : Nat) (addr i : Nat) (s : State) : Bool :=
  let c (lo w rst : Nat) : Nat := s.rd (mpuFld host e (0x48 + 16 * i) lo w rst)
  let size := if host then max 8 (c 1 6 8) else min 32 (max 8 (c 1 6 8))
  let base := s.rd (mpuFld host e (0x40 + 16 * i) 0 32 0) + 2 ^ 32 * s.rd (mpuFld host e (0x44 + 16 * i) 0 32 0)
  c 0 1 0 == 1 && addr / 2 ^ size == base / 2 ^ size
    && !bit (c 7 8 0) (addr % 2 ^ size / 2 ^ (size - 3))

/-- The check of one access at its first byte (R416, R417). -/
def mpuCheck (host : Bool) (e : Nat) (addr : Nat) (tenant wrt : Bool) (s : State) : MpuOut :=
  let hits := (List.range 16).filter fun i => mpuMatch host e addr i s
  let g (i lo w : Nat) : Nat := s.rd (mpuFld host e (0x48 + 16 * i) lo w 0)
  match hits with
  | [] => if tenant then .fault 0 15 else .pass false false 3
  | i :: rest =>
    if !rest.isEmpty && s.flag (mpuFld host e 0 0 1 0) then .fault 2 i
    else
      let permBit := if tenant then 17 else if wrt then 16 else 15
      if hits.all fun j => g j permBit 1 == 1 then
        .pass (hits.all fun j => g j 18 1 == 1) (hits.all fun j => g j 19 1 == 1)
          ((rest.map fun j => g j 20 2).foldl min (g i 20 2))
      else .fault 1 i

/-- A fault is recorded and sets STRICT (R418, R421). -/
def mpuRecord (host : Bool) (e addr cause region : Nat) (tenant : Bool) (slice : Nat) (s : State) : State :=
  let f (off lo w : Nat) : Fld := mpuFld host e off lo w 0
  let s := ((s.raise (f 0 0 1)).raise (f 4 0 1)).wr (f 4 1 2) cause
  let s := ((s.wr (f 4 3 4) region).wr (f 4 7 1) (b2n tenant)).wr (f 4 8 8) slice
  ((s.inc (f 4 16 16)).wr (f 8 0 32) (addr % 2 ^ 32)).wr (f 12 0 32) (addr / 2 ^ 32)

/-- A fault of the spill engine (0) or the frost-trace writer (1) raises source 5,126 (R421). -/
def mpuFaultField (e addr cause region : Nat) (s : State) : State :=
  raiseInt 5126 (e + 2 * cause + 8 * region) (mpuRecord false e addr cause region false 0 s)

end Sys2Proof.Machine
end

