-- ==== Sys2Proof/Machine/Fabric.lean ====
section
/-! DEFINITION. The crossbar: routes, stores, places, forwards, custody at the forward, and the senders of control
messages and fence tokens (R213 to R232, R274 to R279, R303, R307 to R311). -/

namespace Sys2Proof.Machine

-- routes

/-- The valid entry of lowest index for a target die and version (R274). -/
def rtFind (s : State) (die : BitVec 5) (ver : Nat) : Option Nat :=
  (List.range 64).find? fun e =>
    s.flag (Reg.RT_ENTRY_VALID e) && s.rd (Reg.RT_ENTRY_DIE e) == die.toNat && s.rd (Reg.RT_ENTRY_VER e) == ver

def portUp (s : State) (p : Nat) : Bool := (s.port p).st == .up

/-- The usable port of an entry (R275). -/
def rtUsable (s : State) (e : Nat) : Option Nat :=
  if portUp s (s.rd (Reg.RT_ENTRY_PORT e)) then some (s.rd (Reg.RT_ENTRY_PORT e))
  else if s.flag (Reg.RT_ENTRY_ALTEN e) && portUp s (s.rd (Reg.RT_ENTRY_ALTPORT e)) then
    some (s.rd (Reg.RT_ENTRY_ALTPORT e))
  else none

/-- The usable port toward a die at this die's ROUTE_VER (R92, R287). -/
def portToward (s : State) (die : BitVec 5) : Option Nat :=
  (rtFind s die (s.rd Reg.ROUTE_VER_VER)).bind (rtUsable s)

/-- The port whose resolution holds class G and F messages of an entry (R286). DEDUCED (log entry 57): a PORT that has come up
since ALTPORT went down leaves them held, so that a stream keeps its order (R290). -/
def rtHeldBy (s : State) (e : Nat) : Option Nat :=
  let p := s.rd (Reg.RT_ENTRY_PORT e)
  let q := s.rd (Reg.RT_ENTRY_ALTPORT e)
  let late := !portUp s p || decide ((s.port q).downAt.toNat ≤ (s.port p).since.toNat)
  if (s.port p).resolving then some p
  else if s.flag (Reg.RT_ENTRY_ALTEN e) && late && (s.port q).resolving then some q
  else none

/-- The die a destination is routed to: field die 0 of the package for a host gate (R216). -/
def targetDie (d : BitVec 12) : BitVec 5 :=
  if destHost d then d.extractLsb' 8 3 ++ (0 : BitVec 2) else destDie d

/-- The kind of a fence token (R309). -/
def fenceKind (m : Msg) : Nat := (m.payload.extractLsb' 0 4).toNat

/-- MIGRATE, INTAKE and RELEASE name a unit (R309). -/
def unitFence (m : Msg) : Bool := m.typ == 0x14 && decide (fenceKind m ≤ 2)

/-- The output of a destination on this die (R214, R216, R309). -/
def localOut (m : Msg) (d : BitVec 12) : Nat :=
  if m.toSink then 22 else if m.typ == 0x14 && !unitFence m then 21
  else if destHost d then 20 else destUnit d / 4

/-- A route, PORT of the entry taken, and whether it was taken for want of the message's version (R276). A message of
class S without a usable port has no route and is discarded (R275). -/
structure RouteRes where
  route : Option Route
  port : Nat
  miss : Bool
deriving DecidableEq, Repr

/-- The route of a message to one destination (R216, R274 to R276, R286). -/
def routeOf (s : State) (m : Msg) (d : BitVec 12) (bypass : Bool) : RouteRes :=
  if targetDie d == s.die then ⟨some (.out (localOut m d)), 0, false⟩
  else
    let t := targetDie d
    let own := rtFind s t m.rver.toNat
    let alt := rtFind s t (s.rd Reg.ROUTE_VER_VER)
    match own.or alt with
    | none => ⟨some .noRoute, 0, false⟩
    | some e =>
      let p := s.rd (Reg.RT_ENTRY_PORT e)
      let miss := own.isNone
      match (if m.cls == .s || bypass then none else rtHeldBy s e), rtUsable s e with
      | some h, _ => ⟨some (.held h), p, miss⟩
      | none, some q => ⟨some (.out (16 + q)), p, miss⟩
      | none, none => ⟨if m.cls == .s then none else some (.noPort e), p, miss⟩

-- places in the crossbar

/-- The key of a buffer: input and class (R217). -/
def bufKey (i : Nat) (c : Cls) : Nat := 3 * i + c.code

/-- Entries of a buffer in use or reserved, with those that the audit has found lost (R217, R294). -/
def bufUsed (s : State) (k : Nat) : Nat :=
  (s.buf k).length + s.resv k + (if k % 3 = 0 then lostIn s (k / 3) else if k % 3 = 2 then lostIn s (24 + k / 3) else 0)

/-- The committed Moraine rings overlap or reach past block 65,535 (MRN_CTRL.CFGERR). -/
def mrnCfgErr (s : State) : Bool :=
  let len (i : Nat) : Nat := s.rd (Reg.MRN_QCFG_LEN i)
  let lo (i : Nat) : Nat := s.rd (Reg.MRN_QCFG_START i)
  (List.range 22).any fun i => decide (0 < len i) &&
    (decide (65536 < lo i + len i)
      || (List.range i).any fun j => decide (0 < len j) && decide (lo i < lo j + len j) && decide (lo j < lo i + len i))

/-- Spilling is enabled (R226, MRN_CTRL). -/
def mrnOn (s : State) : Bool := s.flag Reg.MRN_CTRL_EN && !mrnCfgErr s

/-- Messages of a staging with the places reserved in it. -/
def stagingUsed (s : State) (i : Nat) : Nat := (s.staging i).length + s.resv (100 + i)

/-- The place an arriving message of class c takes at input i (R217, R226, R229). DEDUCED (log entry 15): with EN 0 too a class G
arrival waits while older messages of its input stand in the ring or the staging, since spilling never reorders a stream
(R227). -/
def xbRoom (s : State) (i : Nat) (c : Cls) : Option Place :=
  let k := bufKey i c
  if c == .g && decide (i < 22) then
    if (s.ring i).isEmpty && stagingUsed s i == 0 && decide (bufUsed s k < Config.bufDepth) then some (.buf k)
    else if mrnOn s && !s.xb.stopped && decide (stagingUsed s i < 4)
        && decide ((s.ring i).length < s.rd (Reg.MRN_QCFG_LEN i)) then some (.staging i)
    else none
  else if bufUsed s k < Config.bufDepth then some (.buf k) else none

/-- A class G arrival finds ring i full: FULL is set once, and source 5,125 raised (R228). -/
def mrnFull (i : Nat) (s : State) : State :=
  if mrnOn s && !s.xb.stopped && decide (i < 22) && decide (0 < s.rd (Reg.MRN_QCFG_LEN i))
      && decide (s.rd (Reg.MRN_QCFG_LEN i) ≤ (s.ring i).length) && !tget false s.xb.full i then
    let s := { s with xb := { s.xb with full := tset false s.xb.full i true } }
    raiseInt 5125 i (s.inc Reg.MRN_STAT_FULLS)
  else s

/-- FULL clears when a ring has a free block again: a block has left it, or its LEN has grown (R228). -/
def freeFull (s : State) : State :=
  let full := s.xb.full.filter fun e => decide (s.rd (Reg.MRN_QCFG_LEN e.1) ≤ (s.ring e.1).length)
  { s with xb := { s.xb with full := full } }

/-- A place is reserved. -/
def reserve (p : Place) (s : State) : State :=
  match p with
  | .buf k => s.setResv k (s.resv k + 1)
  | .staging i => s.setResv (100 + i) (s.resv (100 + i) + 1)
  | _ => s

/-- A reserved place is given up. -/
def unreserve (p : Place) (s : State) : State :=
  match p with
  | .buf k => s.setResv k (s.resv k - 1)
  | .staging i => s.setResv (100 + i) (s.resv (100 + i) - 1)
  | _ => s

/-- VER_INFLIGHT[v].SEEN is set while a message counts (R278). -/
def verSeen (m : Msg) (r : Route) (s : State) : State :=
  match r with
  | .out o => if 16 ≤ o ∧ o < 20 then s.raise (Reg.VER_INFLIGHT_SEEN m.rver.toNat) else s
  | _ => s.raise (Reg.VER_INFLIGHT_SEEN m.rver.toNat)

/-- The routes of a message to its destinations, and the counts that taking them makes (R275, R276, R278). -/
def takeRoutes (m : Msg) (bypass : Bool) : List (BitVec 12) → State → List (BitVec 12 × Route) × State
  | [], s => ([], s)
  | d :: ds, s =>
    let r := routeOf s m d bypass
    let s := if r.miss then s.inc Reg.RT_STAT_VERMISS else s
    match r.route with
    | none => takeRoutes m bypass ds (s.inc (Reg.LNK_SFLUSH r.port))
    | some x =>
      let (l, s) := takeRoutes m bypass ds (verSeen m x s)
      ((d, x) :: l, s)

/-- The wake requests of the local units among the routes (R541). -/
def wakeRoutes (m : Msg) (l : List (BitVec 12 × Route)) (s : State) : State :=
  s.each l fun e s => match e.2 with
    | .out o => if o < 16 then wakeFor (destLane e.1) m s else s
    | _ => s

/-- A message is stored at an input in a place, with a replica owed to each destination (R216, R217, R226, R231,
R279). -/
def xbStore (i : Nat) (m : Msg) (dests : List (BitVec 12)) (restored : Bool) (res : Option Nat) (place : Place)
    (s : State) : State :=
  let m := if i = 21 then { m with rver := BitVec.ofNat 3 (s.rd Reg.ROUTE_VER_VER) } else m
  let (owed, s) := takeRoutes m res.isSome dests s
  if owed.isEmpty then s
  else
    let e : XEntry := { msg := m, owed := owed, order := s.xb.serial, restored := restored, res := res }
    let s := wakeRoutes m owed { s with xb := { s.xb with serial := s.xb.serial + 1 } }
    match place with
    | .buf k => s.setBuf k (s.buf k ++ [e])
    | .staging j => if m.isCtl then s.setStaging j (s.staging j ++ [e])
      else trace 3 0 m (s.setStaging j (s.staging j ++ [e]))
    | _ => s

/-- A message is stored at an input when a place is free; the second component says so. -/
def xbTry (i : Nat) (m : Msg) (restored : Bool) (res : Option Nat) (s : State) : Bool × State :=
  match xbRoom s i m.cls with
  | some p => (true, xbStore i m [m.dest] restored res p s)
  | none => (false, if m.cls == .g then mrnFull i s else s)

/-- The messages of a list enter an input in order while their class has a place; those left over stay. A class that
has found no place takes no later message. -/
def pumpList (i : Nat) : List RecEntry → List Cls → State → List RecEntry × State
  | [], _, s => ([], s)
  | e :: l, shut, s =>
    if shut.contains e.msg.cls then
      let (r, s) := pumpList i l shut s
      (e :: r, s)
    else
      match xbTry i e.msg e.restored e.res s with
      | (true, s) => pumpList i l shut s
      | (false, s) =>
        let (r, s) := pumpList i l (e.msg.cls :: shut) s
        (e :: r, s)

/-- The waiting restores and fence tokens enter input 21 (R224). -/
def pumpRec (s : State) : State :=
  let (r, s) := pumpList 21 s.xb.recHold [] s
  { s with xb := { s.xb with recHold := r } }

/-- The waiting control messages enter input 22 (R224). -/
def pumpCtl (s : State) : State :=
  let (r, s) := pumpList 22 (s.xb.ctlHold.map fun m => { msg := m }) [] s
  { s with xb := { s.xb with ctlHold := r.map (·.msg) } }

/-- The tokens that wait in the barrier's receive buffer enter input 20 (R379). -/
def pumpBar (s : State) : State :=
  let (r, s) := pumpList 20 (s.xb.barHold.map fun m => { msg := m }) [] s
  { s with xb := { s.xb with barHold := r.map (·.msg) } }

/-- Moved events and fences enter region return r (R224, R319). -/
def pumpRet (r : Nat) (s : State) : State :=
  let (l, s) := pumpList (16 + r) ((tget [] s.xb.retHold r).map fun m => { msg := m }) [] s
  { s with xb := { s.xb with retHold := tset [] s.xb.retHold r (l.map (·.msg)) } }

/-- Frames of receive buffer p are released to input 12 + p by class, and owe their credit to the peer (R224, R267). -/
def pumpRx (p : Nat) (s : State) : State :=
  let rec go : List Msg → List Cls → State → List Msg × State
    | [], _, s => ([], s)
    | m :: l, shut, s =>
      if shut.contains m.cls then
        let (r, s) := go l shut s
        (m :: r, s)
      else
        match xbTry (12 + p) m false none s with
        | (true, s) =>
          let x := s.port p
          go l shut (s.setPort p { x with owe := tset 0 x.owe m.cls.code (tget 0 x.owe m.cls.code + 1) })
        | (false, s) =>
          let (r, s) := go l (m.cls :: shut) s
          (m :: r, s)
  if thawing s then s
  else
    let (r, s) := go (s.port p).rx [] s
    s.setPort p { s.port p with rx := r }

/-- Every producer that waits for an input enters what it can (R224). -/
def pumpAll (s : State) : State :=
  let s := pumpRx 3 (pumpRx 2 (pumpRx 1 (pumpRx 0 s)))
  pumpBar (pumpCtl (pumpRec (pumpRet 3 (pumpRet 2 (pumpRet 1 (pumpRet 0 s))))))

/-- A control message of this die enters input 22 (R309). -/
def sendCtl (m : Msg) (s : State) : State :=
  pumpCtl { s with xb := { s.xb with ctlHold := s.xb.ctlHold ++ [m] } }

/-- A message or fence token enters input 21. -/
def sendRec (e : RecEntry) (s : State) : State :=
  pumpRec { s with xb := { s.xb with recHold := s.xb.recHold ++ [e] } }

-- control messages

/-- A fence token of a stream (R309): kind, name, destination, class, Timestamp bits 11 to 0, further payload bits. -/
def fenceTok (s : State) (kind : Nat) (origin : BitVec 5) (source : BitVec 13) (seq : BitVec 24) (dest : BitVec 12)
    (cls : Cls) (low : BitVec 12) (extra : Nat) : Msg :=
  { seq := seq, origin := origin, source := source, dest := dest, prio := 0, cls := cls,
    rver := BitVec.ofNat 3 (s.rd Reg.ROUTE_VER_VER), ts := (0 : BitVec 15) ++ s.die ++ low, epoch := 0, typ := 0x14,
    aval := false, repres := false, payload := BitVec.ofNat 16 (kind + extra) }

/-- The sending die of a pair acknowledge or fence token, Timestamp bits 16 to 12 (R308, R309). -/
def senderOf (m : Msg) : BitVec 5 := m.ts.extractLsb' 12 5

/-- A fence token about an event goes to a die. -/
def sendFence (kind : Nat) (m : Msg) (die : BitVec 5) (low : BitVec 12) (extra : Nat) (s : State) : State :=
  sendRec { msg := fenceTok s kind m.origin m.source m.seq (dieAddr die) .g low extra } s

/-- The dies a broadcast reaches: those with a valid routing entry (R309). -/
def bcastDies (s : State) : List (BitVec 5) :=
  ((List.range 32).map (BitVec.ofNat 5)).filter fun d =>
    (List.range 64).any fun e => s.flag (Reg.RT_ENTRY_VALID e) && s.rd (Reg.RT_ENTRY_DIE e) == d.toNat

/-- ACTING or LOSS for a die is broadcast (R309, R315, R317). -/
def broadcast (kind : Nat) (about : BitVec 5) (extra : Nat) (s : State) : State :=
  s.each (bcastDies s) fun d s => sendRec { msg := fenceTok s kind about 0 0 (dieAddr d) .g 0 extra } s

/-- A pair acknowledge (R308): 0 RECORDED, 1 RELEASE, 2 RELEASED, 3 RESYNC_END. -/
def pairAck (s : State) (kind : Nat) (origin : BitVec 5) (source : BitVec 13) (seq : BitVec 24) (die : BitVec 5) : Msg :=
  { seq := seq, origin := origin, source := source, dest := dieAddr die, prio := 0, cls := .g,
    rver := BitVec.ofNat 3 (s.rd Reg.ROUTE_VER_VER), ts := (0 : BitVec 15) ++ s.die ++ (0 : BitVec 12), epoch := 0,
    typ := 0x13, aval := false, repres := false, payload := BitVec.ofNat 16 kind }

/-- The pair mirror of an event for a partner (R307). -/
def mirrorOf (s : State) (m : Msg) (partner : BitVec 5) : Msg :=
  { m with
    source := m.dest.extractLsb' 1 3 ++ m.source.extractLsb' 0 10
    dest := dieAddr partner, epoch := m.dest.extractLsb' 4 8, rver := BitVec.ofNat 3 (s.rd Reg.ROUTE_VER_VER)
    aval := m.dest.getLsbD 0, repres := m.typ.getLsbD 0, typ := 0x12 }

/-- The event that a pair mirror carries (R307). -/
def unmirror (m : Msg) : Msg :=
  { m with
    source := (0 : BitVec 3) ++ m.source.extractLsb' 0 10
    dest := m.epoch ++ m.source.extractLsb' 10 3 ++ BitVec.ofBool m.aval
    epoch := 0, rver := 0, aval := false, repres := false, typ := if m.repres then 1 else 0 }

/-- The response to a remote vector write (R102). -/
def remoteRsp (s : State) (tag : BitVec 24) (vec : BitVec 12) (die : BitVec 5) (refused : Bool) (reason : Nat) : Msg :=
  { seq := tag, origin := s.die, source := BitVec.ofNat 13 (1024 + vec.toNat), dest := dieAddr die, prio := 0, cls := .g,
    rver := BitVec.ofNat 3 (s.rd Reg.ROUTE_VER_VER), ts := 0, epoch := 0, typ := 0x11, aval := false, repres := false,
    payload := BitVec.ofNat 16 (32768 * b2n refused + reason) }

/-- An event is sent again, flagged, to one destination from a record (R298, R302, R311). -/
def resend (r : FirnRec) (d : BitVec 12) (s : State) : State :=
  if r.poisoned then s.inc Reg.FIRN_ERR_LOST
  else
    let ep := if r.acting then s.epoch.num.truncate 8 else r.msg.epoch
    (sendRec { msg := { r.msg.flag with dest := d, epoch := ep } } s).inc Reg.REC_STAT_RESENT

/-- The custody record of a message's identity with its destination (R300). -/
def custodyOf (s : State) (m : Msg) (d : BitVec 12) : Option (Nat × FirnRec) :=
  firnFind s fun r => r.kind == .custody && r.msg.sameId m && r.msg.dest == d

/-- A class G or F message lost in transport, for which this die has no custody record, is sent again from its event record,
or asked for at its origin (R311). -/
def lostInTransport (m : Msg) (d : BitVec 12) (s : State) : State :=
  if !m.isGF || !m.isEvent || (custodyOf s m d).isSome then s
  else if m.origin == s.die then
    match firnFind s fun r => r.kind == .event && r.msg.sameId m with
    | some (_, r) => resend r d s
    | none => s
  else sendFence 6 m m.origin 0 0 s

-- lanes and custody

/-- Entries of a lane in use: in the lane, reserved, or on their way in the crossing (R219). -/
def laneUsed (s : State) (u : Nat) : Nat :=
  (s.lane u).length + s.laneResv u + ((s.crossing (u % 64 / 16)).filter fun x => x.u == u).length

/-- A lane takes a message of class F while one entry is free, of another class while three are (R219). While the region's
queue domain is not ON its credits are held (R245). -/
def laneRoom (s : State) (u : Nat) (c : Cls) : Bool :=
  s.on (16 + u % 64 / 16)
    && (if c == .f then decide (laneUsed s u + 1 ≤ Config.laneDepth) else decide (laneUsed s u + 3 ≤ Config.laneDepth))

/-- The crossing toward a region has a free entry (R33, R36; log entry 62). -/
def crossRoom (s : State) (r : Nat) : Bool := decide ((s.crossing r).length < 16)

/-- A class G or F event holds custody where it is handed in (R303). -/
def takesCustody (m : Msg) : Bool := m.isGF && m.isEvent

/-- The live custody record of an event that stands at unit u (R303). -/
def custodyAt (s : State) (u : Nat) (m : Msg) : Option (Nat × FirnRec) :=
  firnFind s fun r => r.kind == .custody && r.msg.sameId m && !r.done && r.place == u

/-- Host-bound custody records of field die 0 (R303). -/
def hostCust (s : State) : Nat := (firnAll s fun r => r.kind == .custody && r.place == 128).length

/-- The quota of host-bound records; values above 14,336 act as 14,336 (R88). -/
def hquota (s : State) : Nat := min Config.firnNear (s.rd Reg.ACC_HQUOTA_HQUOTA)

/-- The record of a restored copy follows it to unit u, where a redirect has sent it (R310, R319). -/
def followRestored (m : Msg) (u : Nat) (s : State) : State :=
  match firnFind s fun c => c.kind == .custody && c.msg.sameId m && !c.done && c.place == u with
  | some _ => s
  | none => match firnFind s fun c => c.kind == .custody && c.msg.sameId m && !c.done && c.msg.repres with
    | some (k, c) => s.setRec k (some { c with place := u, moved := none })
    | none => s

/-- A message enters the crossing toward the region of unit u, and a custody record is written for it, unless it is a
restored copy or a flagged copy of one already held (R303, R306, R310). A message of a region return keeps its record,
whose place changes. -/
def intoCrossing (i : Nat) (m : Msg) (u : Nat) (restored : Bool) (s : State) : State :=
  let r := u % 64 / 16
  let put (x : XMsg) (s : State) : State := s.setCrossing r (s.crossing r ++ [{ x with since := s.time.now }])
  if restored then put { msg := m, u := u, restored := true } (followRestored m u s)
  else if !takesCustody m then put { msg := m, u := u } s
  else if 16 ≤ i ∧ i < 20 then
    match firnFind s fun c => c.kind == .custody && c.msg.sameId m && !c.done && c.moved == some m.dest with
    | some (k, c) => put { msg := m, u := u } (s.setRec k (some { c with place := u, moved := none }))
    | none => put { msg := m, u := u } (firnWrite { kind := .custody, msg := m, place := u, since := s.time.now } s)
  else if m.repres && (custodyOf s m m.dest).isSome then put { msg := m, u := u, dup := true } s
  else put { msg := m, u := u } (firnWrite { kind := .custody, msg := m, place := u, since := s.time.now } s)

/-- The barrier transmitter takes a host-bound message into its custody record, whose tag generation flips (R303,
R374, R377). -/
def intoBarrier (m : Msg) (s : State) : State :=
  if m.repres && (custodyOf s m m.dest).isSome then s.inc Reg.REC_CNT_DUP
  else
    let k := firnFree s
    let g := !tget false s.firn.tagGen k
    let s := firnWrite { kind := .custody, msg := m, place := 128, gen := g, since := s.time.now } s
    let s := { s with firn := { s.firn with tagGen := tset false s.firn.tagGen k g } }
    let sl := m.epoch.toNat
    let h := s.hostq
    { s with hostq := { h with queue := tset [] h.queue sl (tget [] h.queue sl ++ [k]), live := h.live ++ [k] } }

-- the scheduler

/-- A request: the eligible head of one queue of an input for one output (R220). -/
structure Req where
  i : Nat
  o : Nat
  c : Cls
  dest : BitVec 12
  order : Nat
deriving DecidableEq, Repr

/-- The position of an output in the rotation: a region's group stands at 4 * r (R221). -/
def outUnit (o : Nat) : Nat := if o < 16 then 4 * (o / 4) else o

/-- The heads of the queues of one buffer, by output (R217). DESIGN CHOICE (log entry 64): of the replicas that one message
owes to one output, the first in the order of its set is offered. -/
def bufHeads (i : Nat) (c : Cls) (l : List XEntry) : List Req :=
  let step (acc : List Req) (e : XEntry) : List Req :=
    e.owed.foldl (fun acc x => match x.2 with
      | .out o => if acc.any (·.o == o) then acc else acc ++ [⟨i, o, c, x.1, e.order⟩]
      | _ => acc) acc
  l.foldl step []

/-- Free entries of a transmit buffer: class F and control messages 0x12 and 0x13 take the last two (R264). -/
def txRoom (s : State) (p : Nat) (m : Msg) : Bool :=
  let n := (s.port p).tx.length + lostIn s (48 + p)
  if m.cls == .f || m.typ == 0x12 || m.typ == 0x13 then decide (n + 1 ≤ 16) else decide (n + 3 ≤ 16)

/-- The place beyond the output holds a free entry for the message (R219, R303). -/
def eligible (s : State) (e : XEntry) (r : Req) : Bool :=
  let needRec := takesCustody e.msg && !e.restored && !(decide (16 ≤ r.i) && decide (r.i < 20))
  if r.o < 16 then
    laneRoom s (destLane r.dest) e.msg.cls && crossRoom s (r.o / 4)
      && (!needRec || decide (firnCount s < Config.firnRecords))
  else if r.o < 20 then txRoom s (r.o - 16) e.msg
  else if r.o = 20 then s.isDie0 && decide (hostCust s < hquota s) && decide (firnCount s < Config.firnRecords)
  else true

/-- The entry that a request stands for. -/
def reqEntry (s : State) (r : Req) : Option XEntry := (s.buf (bufKey r.i r.c)).find? (·.order == r.order)

/-- The eligible requests of every input (R220, R222). -/
def schedReqs (s : State) : List Req :=
  s.xb.bufs.flatMap fun b =>
    let hs := bufHeads (b.1 / 3) (Cls.ofCode (b.1 % 3)) b.2
    hs.filter fun r =>
      !(decide (r.o < 16) && s.xb.reflex.contains (r.o / 4))
        && (match b.2.find? (·.order == r.order) with | some e => eligible s e r | none => false)

/-- How far x stands after ptr in the rotation of 24. -/
def rotDist (ptr x : Nat) : Nat := (x + 24 - ptr % 24) % 24

/-- The requests of class F when there is one, all of them otherwise (R221). -/
def fFirst (l : List Req) : List Req := if l.any (·.c == .f) then l.filter (·.c == .f) else l

/-- One iteration of request, grant and accept (R221): the matches made. -/
def schedIter (reqs : List Req) (xb : XbS) (done : List Req) : List Req :=
  let open_ := reqs.filter fun r => !done.any fun m => m.i == r.i || outUnit m.o == outUnit r.o
  let units := (open_.map fun r => outUnit r.o).dedup
  let grants := units.filterMap fun u =>
    let cands := fFirst (open_.filter fun r => outUnit r.o == u)
    let near (a b : Req) : Bool := decide (rotDist (tget 0 xb.gptr u) a.i < rotDist (tget 0 xb.gptr u) b.i)
    (best near cands).bind fun g => best (fun a b => decide (a.order < b.order)) (cands.filter (·.i == g.i))
  let inputs := (grants.map (·.i)).dedup
  inputs.filterMap fun i =>
    let offers := fFirst (grants.filter (·.i == i))
    best (fun a b => decide (rotDist (tget 0 xb.aptr i) (outUnit a.o) < rotDist (tget 0 xb.aptr i) (outUnit b.o))) offers

/-- The pointers move on the matches of the first iteration (R221). -/
def movePtrs (ms : List Req) (xb : XbS) : XbS :=
  ms.foldl (fun xb m =>
    { xb with
      gptr := tset 0 xb.gptr (outUnit m.o) ((m.i + 1) % 24)
      aptr := tset 0 xb.aptr m.i ((outUnit m.o + 1) % 24) }) xb

/-- The test observer captures a message (R509). -/
def observe (m : Msg) (s : State) : State :=
  if s.flag Reg.TEST_CTRL_OBS then
    let s := s.each [0, 1, 2, 3] fun k s => s.wr (Reg.TEST_MSG k) (word128 m.pack k).toNat
    s.raise Reg.TEST_CTRL_OBSNEW
  else s

/-- MIGRATE has left this die, and its slot waits for MIGRATED (R319, MIG.PHASE). -/
def noteMigrate (i : Nat) (m : Msg) (s : State) : State :=
  if i == 21 && m.typ == 0x14 && fenceKind m == 0 && m.origin == s.die then
    let mig := s.rec_.mig.map fun e => (e.1, e.2.map fun x => if x.source == m.source then { x with phase := 2 } else x)
    { s with rec_ := { s.rec_ with mig := mig } }
  else s

/-- The replica of a message that goes to one destination: a host-bound event carries no Avalanche flag (R219, R374). -/
def replicaOf (dest : BitVec 12) (m : Msg) : Msg := { m with dest := dest, aval := m.aval && !(m.isEvent && destHost dest) }

/-- A message passes the crossbar toward an output (R219, R223). A test message toward the barrier takes no record, so it has
no tag and goes no further (R374, R509; log entry 64). -/
def forwardTo (r : Req) (e : XEntry) (s : State) : State :=
  let m := replicaOf r.dest e.msg
  let s := if m.isEvent then trace 2 0 m s else s
  let s := noteMigrate r.i m (if m.aval && m.isEvent then s.inc Reg.XB_AVA else s)
  if r.o < 16 then intoCrossing r.i m (destLane r.dest) e.restored s
  else if r.o < 20 then
    s.setPort (r.o - 16) { s.port (r.o - 16) with tx := (s.port (r.o - 16)).tx ++ [m] }
  else if r.o = 20 then if r.i = 23 then s else intoBarrier m s
  else if r.o = 21 then { s with xb := { s.xb with recIn := s.xb.recIn ++ [m] } }
  else if r.o = 22 then { s with xb := { s.xb with ctl := s.xb.ctl ++ [m] } }
  else observe m s

/-- The replica of a request leaves its entry, which retires with its last replica (R231). -/
def dropOwed (r : Req) (s : State) : State :=
  let k := bufKey r.i r.c
  s.setBuf k ((s.buf k).filterMap fun e =>
    if e.order == r.order then
      let owed := e.owed.filter fun x => !(x.1 == r.dest)
      if owed.isEmpty then none else some { e with owed := owed }
    else some e)

/-- The outcomes of the checks of an input's two words (R217). -/
def eccOf (ecc : List (Fin 24 × Ecc × Ecc)) (i : Nat) : List Ecc :=
  match ecc.find? (·.1.val == i) with
  | some (_, a, b) => [a, b]
  | none => []

/-- A matched message is read, checked and forwarded, or discarded for an uncorrectable word; each corrected word counts
(R217, R223, R311). A message whose word 0 is lost cannot be named. -/
def schedMove (ecc : List (Fin 24 × Ecc × Ecc)) (r : Req) (s : State) : State :=
  match reqEntry s r with
  | none => s
  | some e =>
    if !eligible s e r then s
    else
      let w := eccOf ecc r.i
      let s := s.inc Reg.XB_ERR_CE (w.count .corrected)
      if w.contains .uncorrectable then
        let k := bufKey r.i r.c
        let s := (s.setBuf k ((s.buf k).filter (·.order != r.order))).inc Reg.XB_ERR_UE
        if w.head? == some .uncorrectable then s else s.each e.owed fun x s => lostInTransport e.msg x.1 s
      else dropOwed r (forwardTo r e s)

/-- While ring i is empty, the oldest message of its staging moves into the buffer (R227). -/
def stagingMove (i : Nat) (s : State) : State :=
  match s.staging i with
  | [] => s
  | e :: l =>
    if (s.ring i).isEmpty && decide (bufUsed s (bufKey i .g) < Config.bufDepth) && !s.xb.stopped then
      (s.setStaging i l).setBuf (bufKey i .g) (s.buf (bufKey i .g) ++ [e])
    else s

/-- Frames that a port's resolution has entered through input 21 and the crossbar has not forwarded (R288). -/
def entering (s : State) (p : Nat) : Bool :=
  let mine (x : Option Nat) : Bool := x == some p
  s.xb.recHold.any (mine ·.res) || ([0, 1, 2].any fun c => (s.buf (3 * 21 + c)).any (mine ·.res))
    || (s.staging 21).any (mine ·.res) || (s.ring 21).any fun b => b.2.any (mine ·.res)

/-- Input 21 has forwarded every frame that the resolution of port p entered (R288). -/
def noteResolved (p : Nat) (s : State) : State :=
  let x := s.port p
  if x.entered && x.resolved.isNone && !entering s p then s.setPort p { x with resolved := some s.time.now } else s

/-- One cycle of the scheduler (R220 to R224, R227, R231). From the first cycle of a thaw on it makes no match (R198,
R243). -/
def schedCycle (ecc : List (Fin 24 × Ecc × Ecc)) (s : State) : State :=
  let reqs := if thawDue s then [] else schedReqs s
  let m1 := schedIter reqs s.xb []
  let m2 := schedIter reqs s.xb m1
  let s := { s with xb := { movePtrs m1 s.xb with reflex := [] } }
  let s := s.each (m1 ++ m2) (schedMove ecc)
  let s := pumpAll (s.each (List.range 22) stagingMove)
  s.each [0, 1, 2, 3] noteResolved

-- routes that wait

/-- The stored messages whose route f names are routed again; those that a resolution has entered pass its own holds (R275,
R276, R288). -/
def reroute (f : Route → Bool) (s : State) : State :=
  let fix (l : List XEntry) (s : State) : List XEntry × State :=
    l.foldl (fun (acc : List XEntry × State) e =>
      if e.owed.any fun x => f x.2 then
        let stay := e.owed.filter fun x => !f x.2
        let (owed, s') := takeRoutes e.msg e.res.isSome ((e.owed.filter fun x => f x.2).map (·.1)) acc.2
        if (stay ++ owed).isEmpty then (acc.1, s') else (acc.1 ++ [{ e with owed := stay ++ owed }], s')
      else (acc.1 ++ [e], acc.2)) ([], s)
  let s := s.each (s.xb.bufs.map (·.1)) fun k s => let (l, s) := fix (s.buf k) s; s.setBuf k l
  let s := s.each (s.xb.staging.map (·.1)) fun k s => let (l, s) := fix (s.staging k) s; s.setStaging k l
  s.each (s.xb.rings.map (·.1)) fun k s =>
    let (l, s) := (s.ring k).foldl (fun (acc : List (Nat × List XEntry) × State) b =>
      let (e, s) := fix b.2 acc.2
      (acc.1 ++ [(b.1, e)], s)) ([], s)
    s.setRing k l

/-- Every entry stored at input i: in its buffers, its staging and its ring. -/
def inputEntries (s : State) (i : Nat) : List XEntry :=
  ([0, 1, 2].flatMap fun c => s.buf (3 * i + c)) ++ s.staging i ++ (s.ring i).flatMap (·.2)

/-- VER_INFLIGHT[v].COUNT (R278). An offer counts from the entry it reserves for another die. -/
def verCount (s : State) (v : Nat) : Nat :=
  let far (r : Route) : Bool := match r with | .out o => decide (16 ≤ o) && decide (o < 20) | _ => true
  let mine (m : Msg) : Bool := m.rver.toNat == v
  let away (m : Msg) : Bool := mine m && targetDie m.dest != s.die
  let inPort (p : Nat) : Nat :=
    let x := s.port p
    (x.tx.filter mine).length + (x.unacked.filter fun e => mine e.2).length + (x.rx.filter away).length
  ((xbEntries s).filter fun e => mine e.msg && e.owed.any fun x => far x.2).length
    + (s.xb.recHold.filter fun e => e.res.isSome && away e.msg).length
    + (s.acc.offers.filter fun o => mine o.msg && (o.need.any fun d => targetDie d != s.die)
        && match o.place with | .buf _ | .staging _ => true | _ => false).length
    + ([0, 1, 2, 3].map inPort).sum

end Sys2Proof.Machine
end

