-- ==== Sys2Proof/Machine/Custody.lean ====
section
/-! DEFINITION. Completion and recovery: what a completion releases, the partner of a paired event, restores from
custody records, probes, and the marks of a lost partner (R304, R305, R308 to R317). -/

namespace Sys2Proof.Machine

-- release at the origin

/-- The partner is marked unreachable (R86). -/
def unreachable (s : State) (p : BitVec 5) : Bool := tget false s.acc.unreach p.toNat

/-- An event record is freed, and every die that reported done is sent CONFIRM (R305). -/
def freeEvent (k : Nat) (e : FirnRec) (s : State) : State :=
  (s.setRec k none).each e.donors.dedup fun d s => sendFence 5 e.msg d 0 0 s

/-- Every replica of an event record is done: the partner is asked for release, or the record is freed (R305). -/
def releaseEvent (k : Nat) (e : FirnRec) (s : State) : State :=
  match e.partner with
  | some p =>
    if unreachable s p then freeEvent k e s
    else sendCtl (pairAck s 1 e.msg.origin e.msg.source e.msg.seq p) (s.setRec k (some { e with releasing := true }))
  | none => freeEvent k e s

/-- An event record after DONE for replica x from a die. A replica whose DONE has come is done already; a destination that
the record does not name is the event's own, moved by a migration (R305, R319). -/
def FirnRec.doneFor (e : FirnRec) (x : BitVec 12) (own : Bool) (die : BitVec 5) : FirnRec :=
  let donors := if own then e.donors else e.donors ++ [die]
  if e.came.contains x then { e with donors := donors }
  else
    let y := if e.need.contains x then x else e.msg.dest
    { e with need := e.need.erase y, came := e.came ++ (if y == x then [x] else [x, y]), donors := donors }

/-- Replica x of an event is done: its bit is set, and the event is released with its last (R305). An event not yet
accepted keeps the report (R105). -/
def applyDone (m : Msg) (x : BitVec 12) (die : BitVec 5) (s : State) : State :=
  if s.acc.offers.any fun o => o.msg.sameId m then
    let put (o : Offer) : Offer := { o with early := o.early ++ [(x, die)] }
    { s with acc := { s.acc with offers := modFirst (fun o => o.msg.sameId m) put s.acc.offers } }
  else
    match firnFind s fun r => r.kind == .event && r.msg.sameId m with
    | some (k, e) =>
      let e' := e.doneFor x (die == s.die && e.msg.origin == s.die) die
      if e.need.isEmpty then s.setRec k (some { e with donors := e'.donors })
      else if e'.need.isEmpty then releaseEvent k e' s else s.setRec k (some e')
    | none => s

/-- The die that DONE for an origin goes to: this die where it is the origin, else its acting origin where one stands
(R305, R315). -/
def doneTarget (s : State) (o : BitVec 5) : BitVec 5 := if o == s.die then o else (tget none s.rec_.actmap o.toNat).getD o

/-- A custody record whose event completed at the origin's own die is freed, a flagged one PSETTLE later (R305). -/
def freeCustody (k : Nat) (c : FirnRec) (s : State) : State :=
  if c.msg.repres then s.setRec k (some { c with done := true, settle := some s.time.now }) else s.setRec k none

/-- The completion of a replica reaches its custody record (R304, R305). A Campion's commit before the accept point is
held against the offer (R105). A die that acts for a lost origin is not the origin, and sends DONE to itself (R315). -/
def completeReplica (k : Nat) (c : FirnRec) (s : State) : State :=
  if c.msg.origin == s.die then
    if s.acc.offers.any fun o => o.msg.sameId c.msg then applyDone c.msg c.msg.dest s.die s
    else freeCustody k c (applyDone c.msg c.msg.dest s.die s)
  else sendFence 4 c.msg (doneTarget s c.msg.origin) c.msg.dest 0 (s.setRec k (some { c with done := true }))

/-- A host-bound replica completes: its DONE token enters through input 20 (R379). -/
def completeHost (k : Nat) (c : FirnRec) (s : State) : State :=
  if c.msg.origin == s.die then freeCustody k c (applyDone c.msg c.msg.dest s.die s)
  else
    let t := doneTarget s c.msg.origin
    let f := fenceTok s 4 c.msg.origin c.msg.source c.msg.seq (dieAddr t) .g c.msg.dest 0
    let s := s.setRec k (some { c with done := true })
    pumpBar { s with xb := { s.xb with barHold := s.xb.barHold ++ [f] } }

/-- A completion leaves a core or region toward Firn (R304, R306). -/
def sendDone (m : Msg) (s : State) : State :=
  if m.isGF && m.isEvent then { s with firn := { s.firn with dones := s.firn.dones ++ [m] } } else s

-- partners

/-- A partner is marked unreachable: source 5,148 is raised once, and the records that wait for its RELEASED are freed
(R86, R305, R315). -/
def markUnreachable (p : BitVec 5) (s : State) : State :=
  if unreachable s p then s
  else
    let s := { s with acc := { s.acc with unreach := tset false s.acc.unreach p.toNat true } }
    let s := raiseInt 5148 p.toNat s
    s.each (firnAll s fun r => r.kind == .event && r.releasing && r.partner == some p) fun e s => freeEvent e.1 e.2 s

/-- The origin sends a returning partner the mirrors of its records, then RESYNC_END; a returning origin gets those of the
records that act for it. A resynchronization that was cut short begins anew (R316, R317). -/
def startResync (p : BitVec 5) (s : State) : State :=
  let rs := firnAll s fun r => r.kind == .event && if r.acting then r.msg.origin == p else r.partner == some p
  let s := s.each rs fun e s => sendCtl (mirrorOf s e.2.msg p) s
  let s := sendCtl (pairAck s 3 0 0 0 p) s
  let ids := rs.map fun e => (e.2.msg.source, e.2.msg.seq)
  { s with rec_ := { s.rec_ with resync := s.rec_.resync.filter (·.1 != p) ++ [(p, ids, true)] } }

/-- A resynchronization of partner p is under way. -/
def resyncing (s : State) (p : BitVec 5) : Bool := s.rec_.resync.any (·.1 == p)

/-- A pair acknowledge arrives from partner p, marked unreachable: it is resynchronized, unless that is under way
(R316). -/
def pairHeard (p : BitVec 5) (s : State) : State := if unreachable s p && !resyncing s p then startResync p s else s

/-- The RECORDED m arrives during a resynchronization of p: of a mirror, or of RESYNC_END, which names no event; with the
last one the mark of the partner clears (R316). -/
def resyncRecorded (p : BitVec 5) (m : Msg) (s : State) : State :=
  let id := (m.source, m.seq)
  let upd := s.rec_.resync.map fun x =>
    if x.1 != p then x
    else if x.2.1.contains id && (m.origin == s.die || m.origin == p) then (x.1, x.2.1.erase id, x.2.2)
    else if m.origin == 0 && m.source == 0 && m.seq == 0 then (x.1, x.2.1, false) else x
  let fin := upd.any fun x => x.1 == p && x.2.1.isEmpty && !x.2.2
  let s := { s with rec_ := { s.rec_ with resync := if fin then upd.filter (·.1 != p) else upd } }
  if fin then { s with acc := { s.acc with unreach := tset false s.acc.unreach p.toNat false } } else s

-- restores

/-- Insertion into a list in stream sequence order (R310). -/
def insertSeq (x : Nat × FirnRec) : List (Nat × FirnRec) → List (Nat × FirnRec)
  | [] => [x]
  | y :: l => if after 24 y.2.msg.seq.toNat x.2.msg.seq.toNat then x :: y :: l else y :: insertSeq x l

/-- Records in stream sequence order. -/
def bySeq (l : List (Nat × FirnRec)) : List (Nat × FirnRec) := l.foldl (fun acc x => insertSeq x acc) []

/-- Where the events of a stream at unit u stand now: the redirect of a migration, or the unit (R310, R319). -/
def redirectOf (s : State) (u : Nat) (m : Msg) : BitVec 12 :=
  match s.rq.redirect.find? fun x => x.u == u && x.origin == m.origin && x.source == m.source with
  | some x => x.target
  | none => destOf s.die u

/-- A live event of unit u still stands in a place of the region, in a completion under way, or in a copy already being
restored or moved. -/
def standing (s : State) (u : Nat) (m : Msg) : Bool :=
  let me (x : Msg) : Bool := x.sameId m
  let b := redirectOf s u m
  let away (x : Msg) : Bool := me x && x.dest == b
  let back (e : XEntry) : Bool := e.restored && me e.msg
  (s.crossing (u % 64 / 16)).any (fun x => x.u == u && me x.msg) || (s.lane u).any me
    || (s.toClus (u % 64 / 4)).any (fun x => x.1 == u && me x.2)
    || (decide (u < 64) && ((s.coreOf u).pend.any me || (s.coreOf u).taken.any me || (s.coreOf u).active.any me))
    || (decide (64 ≤ u) && ((s.campOf (u - 64)).q.any (fun e => me e.msg) || (s.campOf (u - 64)).run.any (fun e => me e.msg)
        || (s.segOf ((u - 64) / 16)).bursts.any fun b => b.camp == u - 64 && me b.msg))
    || s.firn.dones.any (fun x => me x && destLane x.dest == u)
    || (targetDie b != s.die && s.lnk.any fun p => p.2.tx.any away || p.2.unacked.any (away ·.2)) || s.xb.recHold.any (fun e => e.restored && me e.msg)
    || (xbEntries s).any back || (s.xb.retHold.any fun l => l.2.any me)
    || [16, 17, 18, 19].any fun i => (inputEntries s i).any fun e => me e.msg

/-- Every live custody record of a scope whose event no longer stands anywhere is restored, flagged, through input 21
(R302, R310). -/
def restoreScope (inScope : Nat → Bool) (s : State) : State :=
  let rs := bySeq (firnAll s fun r =>
    r.kind == .custody && !r.done && r.place != 128 && inScope r.place && !standing s r.place r.msg)
  s.each rs fun e s =>
    if e.2.poisoned then s.inc Reg.FIRN_ERR_LOST
    else
      let b := redirectOf s e.2.place e.2.msg
      let moved := if targetDie b == s.die then e.2.moved else some b
      let s := s.setRec e.1 (some { e.2 with msg := e.2.msg.flag, moved := moved })
      let m := { e.2.msg.flag with dest := b }
      (sendRec { msg := m, restored := true } s).inc Reg.REC_CNT_RESTORED

-- probes

/-- The missing replicas of a record are probed (R312). -/
def probeRecord (k : Nat) (s : State) : State :=
  match s.recOf k with
  | some e =>
    let s := s.setRec k (some { e with since := s.time.now })
    s.each e.need fun x s => sendFence 7 e.msg (targetDie x) x 0 s
  | none => s

/-- What a die answers for a replica: 1 held, 2 done, 0 absent (R312). A class M event has no custody record, and is held
while it crosses to the Edelweiss island (R429, R432). -/
def probeState (s : State) (m : Msg) (x : BitVec 12) : Nat :=
  if s.edw.inbox.any (·.sameId m) then 1
  else match custodyOf s m x with
  | some (_, c) => if c.done then 2 else 1
  | none => 0

/-- Every incomplete event record that is not acting for another die is probed at once (R312, R315). -/
def probeAll (s : State) : State :=
  s.each (firnAll s fun r => r.kind == .event && !r.need.isEmpty) fun e s => probeRecord e.1 s

/-- DONE goes again for every custody record of an origin marked done (R315). -/
def resendDones (o : Option (BitVec 5)) (s : State) : State :=
  s.each (firnAll s fun r => r.kind == .custody && r.done && (o.isNone || o == some r.msg.origin)) fun e s =>
    if e.2.msg.origin == s.die then s else sendFence 4 e.2.msg (doneTarget s e.2.msg.origin) e.2.msg.dest 0 s

/-- PSETTLE in ticks; a value of 0 acts as 1 (REC_CTRL). -/
def psettle (s : State) : Nat := 4096 * max 1 (s.rd Reg.REC_CTRL_PSETTLE)
/-- AGE in ticks; a value of 0 acts as 1 (REC_CTRL). -/
def ageTicks (s : State) : Nat := 4096 * max 1 (s.rd Reg.REC_CTRL_AGE)

/-- A takeover for an origin is under way. -/
def takingOver (s : State) (o : BitVec 5) : Bool := s.rec_.acting.any (·.1 == o) || s.rec_.actMore.any (·.1 == o)

/-- The takeover of origin o takes its place among those under way. -/
def addTakeover (o : BitVec 5) (s : State) : State :=
  match s.rec_.acting with
  | none => { s with rec_ := { s.rec_ with acting := some (o, s.time.now) } }
  | some _ => { s with rec_ := { s.rec_ with actMore := s.rec_.actMore ++ [(o, s.time.now)] } }

/-- A takeover for origin o begins: ACTING is broadcast, and PSETTLE runs (R317). -/
def startTakeover (o : BitVec 5) (s : State) : State :=
  if s.flag Reg.REC_CTRL_PTAKE && !takingOver s o then
    let s := broadcast 9 o 0 (addTakeover o s)
    let s := { s with rec_ := { s.rec_ with actmap := tset none s.rec_.actmap o.toNat (some s.die) } }
    (s.wr Reg.REC_STAT_ACTING o.toNat).raise Reg.REC_STAT_TAKEV
  else s

/-- A control message that has reached the sink is taken (R214). -/
def takeCtl (m : Msg) (f : State → State) (s : State) : State :=
  match takeFirst (· == m) s.xb.ctl with
  | some (_, l) => f { s with xb := { s.xb with ctl := l } }
  | none => s

/-- A fence token that has reached output 21 is taken (R214). -/
def takeRec (m : Msg) (f : State → State) (s : State) : State :=
  match takeFirst (· == m) s.xb.recIn with
  | some (_, l) => f { s with xb := { s.xb with recIn := l } }
  | none => s

end Sys2Proof.Machine
end

