-- ==== Sys2Proof/Machine/Accept.lean ====
section
/-! DEFINITION. Acceptance: the message-write port, offers and their refusals, the accept point, paired acceptance and
remote vector writes (R60 to R64, R77 to R97, R305, R316). -/

namespace Sys2Proof.Machine

-- answers to writers

/-- A result for the host is ready to send, while the barrier is UP and RUN stands at 1 (R378, R384). -/
def barCtl (typ : BitVec 8) (p : BitVec 128) (s : State) : State :=
  if s.bar.st == .up && s.bar.run then { s with bar := { s.bar with ctl := s.bar.ctl ++ [(typ, p)] } } else s

/-- The payload of a VRESULT (R373). -/
def vresultBits (slot : Nat) (gen refused : Bool) (reason : Nat) : BitVec 128 :=
  BitVec.ofNat 128 (slot + 32 * b2n gen + 64 * b2n refused + 128 * reason)

/-- An answer reaches an EMIT of a Campion: the oldest of that vector without one (R121). -/
def answerEmit (n : Nat) (vec : BitVec 12) (refused : Bool) (reason : Nat) (s : State) : State :=
  let c := s.campOf n
  let put (e : EmitOut) : EmitOut :=
    { e with answer := some (refused, reason), late := decide (e.issued.toNat + 64 < s.t) }
  s.setCamp n { c with emits := modFirst (fun e => e.vec == vec && e.answer.isNone) put c.emits }

/-- A write is answered to its writer (R90, R381, R524). -/
def answer (w : Writer) (vec : BitVec 12) (refused : Bool) (reason : Nat) (s : State) : State :=
  match w with
  | .core _ | .dma _ => s.emit (.mw w refused reason)
  | .campion n irq =>
    if !irq then answerEmit n.val vec refused reason s
    else if refused then s.inc (Reg.CAMP_EMIT_EREF n) else s
  | .remote tag die => sendCtl (remoteRsp s tag vec die refused reason) s
  | .barrier slot =>
    match tget none s.acc.vres slot.val with
    | some v =>
      let v := { v with result := some (refused, reason) }
      let s := { s with acc := { s.acc with vres := tset none s.acc.vres slot.val (some v) } }
      barCtl 0x09 (vresultBits slot.val v.gen refused reason) s
    | none => s

/-- The writer kind in ACC_LASTREF, the permission bit and the event type (R60, R101). -/
def writerKind : Writer → Nat
  | .core _ => 2
  | .campion _ _ => 3
  | .dma _ => 4
  | .remote _ _ => 5
  | .barrier _ => 6

def writerBit : Writer → Nat
  | .core _ => 0
  | .campion _ _ => 1
  | .dma _ => 2
  | _ => 3

def writerType : Writer → BitVec 6
  | .core _ => 2
  | .campion _ _ => 3
  | .dma _ => 4
  | .remote _ _ => 5
  | .barrier _ => 6

-- the message-write port

/-- The writer has a write without an answer (R92, R524). -/
def writerBusy (s : State) (w : Writer) : Bool :=
  s.acc.writes.any (·.writer == w) || s.acc.offers.any (·.writer == some w)
    || s.acc.remote.any (·.writer == w) || s.acc.remoteWait.any (·.writer == w)

/-- The channel of a writer takes a write now (R524). -/
def channelTakes (s : State) (w : Writer) : Bool :=
  match w with
  | .core n => s.on (n.val / 4) && !writerBusy s w
  | .dma _ => !writerBusy s w
  | _ => true

/-- A write reaches the message-write port and is stamped; before thaw 0 and in a thaw it waits (R62, R84, R470). -/
def portWrite (w : Writer) (vec : BitVec 12) (payload : BitVec 16) (s : State) : State :=
  let r : WriteReq := ⟨w, vec, payload, if s.su.open_ && !thawDue s then some s.time.now else none, s.epoch.num⟩
  { s with acc := { s.acc with writes := s.acc.writes ++ [r] } }

/-- The tick and the epoch at which the link receiver checked a remote write, from the low bits that takeData keeps in
its message (R62, R178; log entry 51). -/
def remoteStamp (m : Msg) (s : State) : Tick := s.time.now - (s.time.now.truncate 32 - m.ts).zeroExtend 64
def remoteWin (m : Msg) (s : State) : BitVec 32 := s.epoch.num - (s.epoch.num.truncate 8 - m.epoch).zeroExtend 32

/-- A remote write reaches the message-write port with the stamp of its frame's check (R62). -/
def portRemote (m : Msg) (s : State) : State :=
  let r : WriteReq := ⟨.remote m.seq m.origin, BitVec.ofNat 12 (m.source.toNat - 1024), m.payload,
    if s.su.open_ then some (remoteStamp m s) else none, remoteWin m s⟩
  { s with acc := { s.acc with writes := s.acc.writes ++ [r] } }

/-- Waiting writes reach the message-write port at the end of a thaw (R84, R470). -/
def stampWrites (s : State) : State :=
  let put (r : WriteReq) : WriteReq :=
    if r.stamp.isNone then { r with stamp := some s.time.now, win := s.epoch.num } else r
  { s with acc := { s.acc with writes := s.acc.writes.map put } }

/-- The message of a remote vector write (R102). DESIGN CHOICE (log entry 51): Priority, Timestamp and Epoch, which R99 and
R100 give for an event alone, are 0. -/
def remoteMsg (s : State) (tag : BitVec 24) (w : RemoteWait) : Msg :=
  { seq := tag, origin := s.die, source := BitVec.ofNat 13 (1024 + w.vec.toNat), dest := dieAddr w.target, prio := 0,
    cls := .g, rver := BitVec.ofNat 3 (s.rd Reg.ROUTE_VER_VER), ts := 0, epoch := 0, typ := 0x10, aval := false,
    repres := false, payload := w.payload }

/-- The waiting remote writes leave in order while fewer than 32 are outstanding; without a usable port a write is
answered UNREACH, and its refusal is traced as that of the event it would have raised. Before thaw 0 and in a thaw they wait
(R84, R92, R470, R498). -/
def pumpRemote (s : State) : State :=
  let go (s : State) (w : RemoteWait) : State :=
    if (portToward s w.target).isNone then
      let m := remoteMsg s 0 w
      answer w.writer w.vec true 9 (countRefusal 9 (writerKind w.writer) { m with typ := writerType w.writer } s)
    else if s.acc.remote.length < Config.maxRemote then
      let tag := s.acc.nextTag
      let out : RemoteOut := ⟨tag, w.writer⟩
      let s := { s with acc := { s.acc with nextTag := tag + 1, remote := s.acc.remote ++ [out] } }
      sendCtl (remoteMsg s tag w) s
    else { s with acc := { s.acc with remoteWait := s.acc.remoteWait ++ [w] } }
  if s.su.open_ && !thawDue s then
    let ws := s.acc.remoteWait
    ws.foldl go { s with acc := { s.acc with remoteWait := [] } }
  else s

/-- MESSAGE_WRITE. A write is taken on its channel: to a vector of this die it reaches the message-write port, to a
vector of another die it leaves as a remote write (R60 to R63, R92, R524). -/
def execMessageWrite (w : Writer) (target : BitVec 5) (vec : BitVec 12) (payload : BitVec 16) (s : State) :
    Host.Outcome State Fault Refusal :=
  runClk (fun s =>
    if !channelTakes s w then s
    else if target == s.die then portWrite w vec payload s
    else
      let r : RemoteWait := ⟨w, target, vec, payload⟩
      pumpRemote { s with acc := { s.acc with remoteWait := s.acc.remoteWait ++ [r] } }) s

-- the checks of A0

/-- An enabled meter channel names the source, or did when the Edelweiss domain went off (R74, R427, R428, R432). -/
def meterInput (s : State) (src : Nat) : Bool :=
  s.edw.meters.contains src || (List.range 64).any fun c => s.flag (Reg.EDW_CH_EN c) && s.rd (Reg.EDW_CH_SOURCE c) == src

/-- The partner of a paired source is well formed (R74, R75). -/
def partnerOk (s : State) (p : BitVec 5) : Bool := p.extractLsb' 0 2 != 3 && p != s.die

/-- The partner of a source (R74). -/
def srcPartner (s : State) (src : Nat) : BitVec 5 := BitVec.ofNat 5 (s.rd (Reg.SRC_CFG3_PARTNER src))

/-- The event's destination is a Campion of this die (R81). -/
def ownCampion (s : State) (m : Msg) : Bool :=
  m.cls != .m && destCamp m.dest && !destHost m.dest && destDie m.dest == s.die

/-- The event's destination is a Campion of another die (R81). -/
def farCampion (s : State) (m : Msg) : Bool :=
  m.cls != .m && destCamp m.dest && !destHost m.dest && destDie m.dest != s.die

/-- The records an offer takes (R87, R303). -/
def recsNeeded (s : State) (m : Msg) : Nat :=
  if m.cls == .s then 0 else if m.isGF && ownCampion s m then 2 else 1

/-- Host-bound records of this die in use or reserved (R88). -/
def hostUsed (s : State) : Nat :=
  (firnAll s fun r => r.kind == .event && hostBound r.msg.cls r.msg.dest).length
    + (s.acc.offers.filter fun o => decide (0 < o.recs) && hostBound o.msg.cls o.msg.dest).length

/-- The limit of R87 for a class. -/
def firnLimit (c : Cls) : Nat := if c == .f then Config.firnRecords else Config.firnNear

/-- Vector v is configured and permits the writer (R61). -/
def permits (s : State) (v : Nat) (w : Writer) : Bool :=
  s.flag (Reg.VEC_CFG_EN v) && bit (s.rd (Reg.VEC_CFG_WMASK v)) (writerBit w)

/-- The reason for which A0 refuses an offer, in the order of R80; none when it passes (R61, R64, R74, R80, R86 to
R89). DESIGN CHOICE (log entry 63): the limit of R87 comes before the quota of R88. -/
def a0Refusal (s : State) (src : Nat) (w : Option Writer) (m : Msg) : Option Nat :=
  let perm := match w with
    | some w => permits s (src - 1024) w
    | none => true
  let need := recsNeeded s m
  if !perm then some 5
  else if m.cls == .m && !(decide (src < 1024) && meterInput s src) then some 2
  else if m.cls != .m && !destOk s m.dest then some 3
  else if srcPaired s src && !partnerOk s (srcPartner s src) then some 4
  else if 0 < need ∧ firnLimit m.cls < firnCount s + need then some 6
  else if 0 < need ∧ hostBound m.cls m.dest = true ∧ hquota s ≤ hostUsed s then some 7
  else if srcPaired s src && unreachable s (srcPartner s src) && s.flag Reg.ACC_CTRL_PAIRPOL then some 8
  else none

-- multicast and places

/-- The further destinations of a source's Avalanche set (R230, R335). -/
def avaDests (s : State) (src : Nat) : List (BitVec 12) :=
  let set := s.img.active.findSome? fun e =>
    let w := e.2.toNat
    if e.1 / 65536 == 0x22 && e.1 % 65536 % 4 == 0 && w % 8192 == src && bits w 13 3 != 0 then
      some (e.1 % 65536) else none
  match set with
  | none => []
  | some b =>
    let w (k : Nat) : Nat := s.tab 0x22 (b + k)
    let all := [bits (w 0) 16 12, bits (w 1) 0 12, bits (w 1) 12 12, bits (w 2) 0 12, bits (w 2) 12 12,
      bits (w 3) 0 12, bits (w 3) 12 12]
    (all.take (bits (w 0) 13 3)).map (BitVec.ofNat 12)

/-- The acceptance lane of a source (R215, R332). DESIGN CHOICE (log entry 5): lane 0 for a wired source before its group's
S0 words are copied. -/
def laneOf (s : State) (src : Nat) : Nat :=
  if src < 1024 then bits (s.struct (src / 256) (512 + src % 256)) 8 4 else src % 12

/-- The destinations that the accept point stores: those that A0 has not sent (R81, R231). -/
def laneDests (s : State) (m : Msg) (ava : List (BitVec 12)) : List (BitVec 12) :=
  if m.cls == .m then [] else if ownCampion s m || farCampion s m then ava else m.dest :: ava

/-- The place in an acceptance lane that an offer reserves: some .none when it needs none, none when there is none
(R218). -/
def lanePlace (s : State) (src : Nat) (m : Msg) (ava : List (BitVec 12)) : Option Place :=
  if (laneDests s m ava).isEmpty then some .none else xbRoom s (laneOf s src) m.cls

/-- Every place an offer needs is free (R218). -/
def placesFree (s : State) (src : Nat) (m : Msg) (ava : List (BitVec 12)) : Bool :=
  (lanePlace s src m ava).isSome
    && (!ownCampion s m || (laneRoom s (destLane m.dest) m.cls && crossRoom s (destUnit m.dest / 16)))
    && (!farCampion s m || (xbRoom s 22 m.cls).isSome)

-- offers

/-- A candidate of R79: an event in a latch, or a write in a channel. -/
structure Cand where
  src : Nat
  stamp : Tick
  win : BitVec 32
  payload : BitVec 16
  typ : BitVec 6
  writer : Option Writer
  counted : Bool
deriving DecidableEq, Repr

/-- A stream that migrates offers nothing (R318). -/
def gated (s : State) (src : Nat) : Bool :=
  s.rec_.mig.any (fun e => match e.2 with | some x => x.source.toNat == src | none => false)
    || s.rec_.gated.any fun x => x.1.toNat == src

/-- The source's ENAB bit lets it offer; internal sources have none (R76). -/
def enabled (s : State) (src : Nat) : Bool := decide (5120 ≤ src) || bit (s.rd (Reg.ENAB_EN (src / 32))) (src % 32)

/-- The latched events that may be offered; those of a group in a deep thaw wait for its end (R47, R59, R69, R71, R76,
R79). -/
def latchCands (s : State) : List Cand :=
  s.src.latch.filterMap fun e => match e.2 with
    | some l =>
      if l.ready && srcEn s e.1 && enabled s e.1 && !gated s e.1 && !groupHeld s e.1 && !offerFlying s e.1 then
        some ⟨e.1, l.stamp, l.win, l.payload, l.typ, none, l.counted⟩
      else none
    | none => none

/-- The order of the writes of one vector: the older stamp, then the writer kind, then the lower core (R63). DESIGN CHOICE (log
entry 63): among writes that are equal in these, the one that came first goes first. -/
def writeBefore (a b : WriteReq) : Bool :=
  let core (w : Writer) : Nat := match w with | .core n => n.val | _ => 0
  let key (r : WriteReq) : Nat × Nat × Nat := ((r.stamp.getD 0).toNat, writerBit r.writer, core r.writer)
  let x := key a
  let y := key b
  decide (x.1 < y.1) || (x.1 == y.1 && (decide (x.2.1 < y.2.1) || (x.2.1 == y.2.1 && decide (x.2.2 < y.2.2))))

/-- A write may be offered: it is to be refused for want of permission, whatever ENAB, or its source offers (R61, R76). -/
def writeOffers (s : State) (r : WriteReq) : Bool :=
  let src := 1024 + r.vec.toNat
  r.stamp.isSome && (!permits s r.vec.toNat r.writer || (enabled s src && !gated s src))

/-- The first write of each vector that may be offered (R61, R63, R76). -/
def writeCands (s : State) : List Cand :=
  let ws := s.acc.writes.filter (writeOffers s)
  (ws.map (·.vec)).dedup.filterMap fun v =>
    (best writeBefore (ws.filter (·.vec == v))).map fun r =>
      ⟨1024 + v.toNat, r.stamp.getD 0, r.win, r.payload, writerType r.writer, some r.writer, false⟩

/-- The order of R79: class F, the lower priority, the older stamp, the lower source. -/
def candBefore (s : State) (a b : Cand) : Bool :=
  let key (c : Cand) : List Nat := [b2n (srcCls s c.src != .f), srcPrio s c.src, c.stamp.toNat, c.src]
  decide (key a < key b)

/-- The message a candidate would form, with sequence q (R99, R100). -/
def candMsg (s : State) (c : Cand) (q : BitVec 24) : Msg := formMsg s c.src c.stamp c.win c.payload c.typ q

/-- The candidate can start: it would be refused, or its places are free (R79). -/
def canStart (s : State) (c : Cand) : Bool :=
  let m := candMsg s c 0
  (a0Refusal s c.src c.writer m).isSome || placesFree s c.src m (if m.cls == .m then [] else avaDests s c.src)

/-- The write of an offer leaves its channel. -/
def dropWrite (w : Writer) (vec : BitVec 12) (s : State) : State :=
  match takeFirst (fun (r : WriteReq) => r.writer == w && r.vec == vec) s.acc.writes with
  | some (_, l) => { s with acc := { s.acc with writes := l } }
  | none => s

/-- The vector of a source number. -/
def vecOf (src : Nat) : BitVec 12 := BitVec.ofNat 12 (src - 1024)

/-- An offer is refused in A0 (R89 to R91). -/
def refuseOffer (c : Cand) (reason : Nat) (s : State) : State :=
  let m := candMsg s c 0
  match c.writer with
  | some w => dropWrite w (vecOf c.src) (answer w (vecOf c.src) true reason (countRefusal reason (writerKind w) m s))
  | none =>
    if c.counted then s
    else
      let s := countRefusal reason (srcKind c.src) m s
      match s.latchOf c.src with
      | some l => s.setLatch c.src (some { l with counted := true })
      | none => s

/-- The accept point of an offer: the latch empties or the writer is answered, the message is stored, and the
completions reported before it apply (R77, R82, R105). -/
def acceptPoint (o : Offer) (dests : List (BitVec 12)) (s : State) : State :=
  let src := o.msg.source.toNat
  let s := unreserve o.place s
  let s := if dests.isEmpty then s else xbStore (laneOf s src) o.msg dests false none o.place s
  let s := match o.writer with
    | some w => answer w (vecOf src) false 0 s
    | none => s.setLatch src none
  let s := trace 0 0 o.msg (s.inc Reg.ACC_ACCEPT)
  let s := match firnFind s fun r => r.kind == .event && r.msg.sameId o.msg with
    | some (k, e) => s.setRec k (some { e with accepted := true, since := s.time.now })
    | none => s
  s.each o.early fun x s =>
    if x.2 == s.die then
      match custodyOf s o.msg x.1 with
      | some (k, c) => completeReplica k c s
      | none => applyDone o.msg x.1 x.2 s
    else applyDone o.msg x.1 x.2 s

/-- The message of a Campion-bound event leaves at the end of A0 (R81, R222, R231). -/
def sendReflex (m : Msg) (s : State) : State :=
  if ownCampion s m then
    let u := destLane m.dest
    let s := wakeFor u m s
    let s := { s with xb := { s.xb with reflex := s.xb.reflex ++ [u % 64 / 16] } }
    intoCrossing 0 m u false s
  else if farCampion s m then
    match xbRoom s 22 m.cls with
    | some p => xbStore 22 m [m.dest] false none p s
    | none => s
  else s

/-- The further destinations of a candidate's event (R230, R335). -/
def candAva (s : State) (c : Cand) : List (BitVec 12) := if srcCls s c.src == .m then [] else avaDests s c.src

/-- The message that a passing candidate forms (R97, R99, R100). -/
def passMsg (s : State) (c : Cand) : Msg :=
  { candMsg s c (tget 0 s.acc.counters c.src) with aval := !(candAva s c).isEmpty }

/-- The offer that a passing candidate becomes (R79, R85). -/
def passedOffer (s : State) (c : Cand) (place : Place) : Offer :=
  let m := passMsg s c
  let p := srcPartner s c.src
  let paired := srcPaired s c.src && m.cls != .s
  { msg := m, writer := c.writer, a0 := s.time.now, recs := min 1 (recsNeeded s m), idx := none, ack := false,
    partner := if paired then some p else none, partnerAck := !(paired && !unreachable s p), place := place,
    need := m.dest :: candAva s c, early := [] }

/-- A passing candidate takes its sequence, leaves its channel and reserves its place, and its reflex message leaves (R80
to R82, R97). -/
def passTake (c : Cand) (place : Place) (s : State) : State :=
  let q := tget 0 s.acc.counters c.src
  let t := { s with acc := { s.acc with counters := tset 0 s.acc.counters c.src (q + 1) } }
  let t := match c.writer with
    | some w => dropWrite w (vecOf c.src) t
    | none => t
  sendReflex (passMsg s c) (reserve place t)

/-- An offer enters the acceptance unit, its record crosses to Firn, and its pair mirror leaves (R82, R85). -/
def enterOffer (o : Offer) (s : State) : State :=
  let s := { s with acc := { s.acc with offers := s.acc.offers ++ [o] } }
  let s := { s with firn := { s.firn with writes := s.firn.writes ++ [(o.msg.source, o.msg.seq)] } }
  match o.partner with
  | some p => if o.partnerAck then s else sendCtl (mirrorOf s o.msg p) s
  | none => s

/-- An offer passes A0: its sequence, records and place are taken, its reflex message and pair mirror leave; an event
of class S is accepted at once (R77, R80 to R82, R85, R97). -/
def passOffer (c : Cand) (s : State) : State :=
  let m := passMsg s c
  let place := (lanePlace s c.src m (candAva s c)).getD .none
  let o := passedOffer s c place
  let t := passTake c place s
  if m.cls == .s then acceptPoint o (laneDests t m (candAva s c)) t else firnNearCheck t (enterOffer o t)

/-- A class G candidate is held by its acceptance lane, whose staging takes no arrival (R226, R228). -/
def stuckLane (s : State) (c : Cand) : Bool :=
  srcCls s c.src == .g && !canStart s c && (lanePlace s c.src (candMsg s c 0) (candAva s c)).isNone

/-- A candidate bound for a Campion of this die whose region gives no lane credit, because its queue domain is not ON. DEDUCED
(log entry 55): it requests the wake here, since it cannot leave the acceptance unit (R115, R245, R541). -/
def stuckRegion (s : State) (c : Cand) : Bool :=
  let m := candMsg s c 0
  m.cls != .m && ownCampion s m && !s.on (16 + destUnit m.dest / 16)

/-- OFFER. One cycle of the acceptance unit: the first candidate of R79 that can start takes its A0 (R79, R80). From the
first cycle of a thaw on no offer starts (R84, R198). A class G candidate that finds its Moraine ring full sets FULL
(R228). -/
def execOffer (s : State) : Host.Outcome State Fault Refusal :=
  runClk (fun s =>
    if !s.su.open_ || thawDue s || decide (Config.maxOffers ≤ s.acc.offers.length) then s
    else
      let cands := latchCands s ++ writeCands s
      let stuck := cands.filter (stuckLane s)
      let off := cands.filter (stuckRegion s)
      let s := s.each stuck fun c s => mrnFull (laneOf s c.src) s
      let s := s.each off fun c s => let m := candMsg s c 0; wakeFor (destLane m.dest) m s
      match best (candBefore s) (cands.filter (canStart s)) with
      | none => s
      | some c =>
        match a0Refusal s c.src c.writer (candMsg s c 0) with
        | some reason => refuseOffer c reason s
        | none => passOffer c s) s

/-- Firn writes the record of the oldest offer that has crossed to it and returns its acknowledgement; a class M record
also goes toward the Edelweiss island (R82, R299, R429). -/
def writeOldest (s : State) : State :=
  match s.firn.writes with
  | [] => s
  | (src, q) :: l =>
    let s := { s with firn := { s.firn with writes := l } }
    let mine (o : Offer) : Bool := o.msg.source == src && o.msg.seq == q
    match s.acc.offers.find? mine with
    | none => s
    | some o =>
      let k := firnFree s
      let r : FirnRec := { kind := .event, msg := o.msg, need := o.need, partner := o.partner, accepted := false,
                           since := s.time.now }
      let put (o : Offer) : Offer := { o with recs := 0, idx := some k, ack := true }
      let s := { s with acc := { s.acc with offers := modFirst mine put s.acc.offers } }
      let s := s.setRec k (some r)
      if o.msg.cls == .m then { s with edw := { s.edw with inbox := s.edw.inbox ++ [o.msg] } } else s

/-- FIRN_RECORD_WRITE (R82). -/
def execFirnRecordWrite (s : State) : Host.Outcome State Fault Refusal := runClk writeOldest s

/-- The destinations stored at the accept point of an offer. -/
def offerDests (s : State) (o : Offer) : List (BitVec 12) := laneDests s o.msg (o.need.drop 1)

/-- The oldest offer whose acknowledgements have all arrived is accepted (R77, R82). -/
def acceptOldest (s : State) : State :=
  match takeFirst (fun (o : Offer) => o.ack && o.partnerAck) s.acc.offers with
  | none => s
  | some (o, l) => acceptPoint o (offerDests s o) { s with acc := { s.acc with offers := l } }

/-- ACCEPT (R77, R82). -/
def execAccept (s : State) : Host.Outcome State Fault Refusal := runClk acceptOldest s

-- paired acceptance

/-- The mirror records of an origin take what f makes of them. -/
def eachMirror (o : BitVec 5) (f : FirnRec → Option FirnRec) (s : State) : State :=
  s.each (firnAll s fun r => r.kind == .mirror && r.msg.origin == o) fun e s => s.setRec e.1 (f e.2)

/-- A resynchronization of this die by an origin is under way (R316). -/
def resyncedBy (s : State) (o : BitVec 5) : Bool := s.rec_.resyncIn.contains o

/-- The first mirror of a resynchronization by an origin arrives: none of its records counts as written in it yet
(R316). -/
def resyncBegins (o : BitVec 5) (s : State) : State :=
  eachMirror o (fun r => some { r with kept := false })
    { s with rec_ := { s.rec_ with resyncIn := s.rec_.resyncIn.filter (· != o) ++ [o] } }

/-- The mirror of event e is written, or rewrites the record held for its identity, and RECORDED returns; with no record
free the partner stays silent (R85, R316). -/
def writeMirror (e : Msg) (s : State) : State :=
  let ack (s : State) : State := sendCtl (pairAck s 0 e.origin e.source e.seq e.origin) s
  let new : FirnRec := { kind := .mirror, msg := e, need := [e.dest], since := s.time.now,
                         kept := resyncedBy s e.origin }
  match firnFind s fun r => r.kind == .mirror && r.msg.sameId e with
  | some (k, _) => ack (s.setRec k (some new))
  | none => if firnCount s < Config.firnRecords then ack (firnWrite new s) else s

/-- PAIR_MIRROR. The partner writes a mirror record, or rewrites the one it holds, and returns RECORDED (R85, R307, R316;
log entry 13). -/
def execPairMirror (m : PairMirror) (s : State) : Host.Outcome State Fault Refusal :=
  runClk (fun s =>
    if m.msg.typ != 0x12 then s
    else takeCtl m.msg (fun s =>
      let e := unmirror m.msg
      writeMirror e (if m.first then resyncBegins e.origin s else s)) s) s

/-- PAIR_ACK_RECORDED. The origin notes that the partner has recorded an offer; during a resynchronization it counts,
and from a partner marked unreachable it starts one (R85, R308, R316). -/
def execPairAckRecorded (m : Msg) (s : State) : Host.Outcome State Fault Refusal :=
  runClk (fun s =>
    if m.typ != 0x13 || m.payload.extractLsb' 0 2 != 0 then s
    else takeCtl m (fun s =>
      let p := senderOf m
      let mine (o : Offer) : Bool := o.msg.sameId m && o.partner == some p
      let put (o : Offer) : Offer := { o with partnerAck := true }
      let s := { s with acc := { s.acc with offers := modFirst mine put s.acc.offers } }
      if resyncing s p then resyncRecorded p m s else pairHeard p s) s) s

/-- PAIR_ACK_RELEASE. The partner frees the mirror record, when it holds one, and answers RELEASED (R305). An origin that
this die has marked unreachable as its own partner is resynchronized (R316). -/
def execPairAckRelease (m : Msg) (s : State) : Host.Outcome State Fault Refusal :=
  runClk (fun s =>
    if m.typ != 0x13 || m.payload.extractLsb' 0 2 != 1 then s
    else takeCtl m (fun s =>
      let s := match firnFind s fun r => r.kind == .mirror && r.msg.sameId m with
        | some (k, _) => s.setRec k none
        | none => s
      pairHeard (senderOf m) (sendCtl (pairAck s 2 m.origin m.source m.seq (senderOf m)) s)) s) s

/-- PAIR_ACK_RELEASED. The origin frees the event record and sends CONFIRM (R305). From a partner marked unreachable it
starts a resynchronization (R316). -/
def execPairAckReleased (m : Msg) (s : State) : Host.Outcome State Fault Refusal :=
  runClk (fun s =>
    if m.typ != 0x13 || m.payload.extractLsb' 0 2 != 2 then s
    else takeCtl m (fun s =>
      let s := match firnFind s fun r => r.kind == .event && r.releasing && r.msg.sameId m with
        | some (k, e) => freeEvent k e s
        | none => s
      pairHeard (senderOf m) s) s) s

/-- PAIR_ACK_RESYNC_END. The partner frees every mirror record of the origin that the resynchronization has not
written, and answers RECORDED (R316; log entry 13). -/
def execPairAckResyncEnd (m : Msg) (s : State) : Host.Outcome State Fault Refusal :=
  runClk (fun s =>
    if m.typ != 0x13 || m.payload.extractLsb' 0 2 != 3 then s
    else takeCtl m (fun s =>
      let o := senderOf m
      let s := eachMirror o (fun r => if r.kept then some { r with kept := false } else none) s
      let s := { s with rec_ := { s.rec_ with resyncIn := s.rec_.resyncIn.filter (· != o) } }
      pairHeard o (sendCtl (pairAck s 0 0 0 0 o) s)) s) s

/-- The pair-acknowledgement timeout in ticks; a value of 0 acts as 1 (R86, ACC_CTRL). -/
def pairTmo (s : State) : Nat := 16 * max 1 (s.rd Reg.ACC_CTRL_PAIRTMO)

/-- PAIR_TIMEOUT. The oldest paired offer whose acknowledgement is overdue marks its partner unreachable and is
accepted on the local record alone (R86). -/
def execPairTimeout (s : State) : Host.Outcome State Fault Refusal :=
  runClk (fun s =>
    let late (o : Offer) : Bool := !o.partnerAck && decide (o.a0.toNat + pairTmo s ≤ s.t)
    match takeFirst late s.acc.offers with
    | none => s
    | some (o, l) =>
      let s := match o.partner with
        | some p => markUnreachable p s
        | none => s
      if o.ack then acceptPoint o (offerDests s o) { s with acc := { s.acc with offers := l } }
      else
        let put (o : Offer) : Offer := { o with partnerAck := true }
        { s with acc := { s.acc with offers := modFirst late put s.acc.offers } }) s

-- remote writes

/-- REMOTE_VECTOR_WRITE. A remote vector write reaches the die that holds the vector and its message-write port (R60,
R62, R92, R102). -/
def execRemoteVectorWrite (m : Msg) (s : State) : Host.Outcome State Fault Refusal :=
  runClk (fun s =>
    if m.typ != 0x10 then s
    else takeCtl m (portRemote m) s) s

/-- REMOTE_WRITE_RESPONSE. The answer with its tag passes to the writer's channel (R90, R92, R102). -/
def execRemoteWriteResponse (m : Msg) (s : State) : Host.Outcome State Fault Refusal :=
  runClk (fun s =>
    if m.typ != 0x11 then s
    else takeCtl m (fun s =>
      match takeFirst (fun (r : RemoteOut) => r.tag == m.seq) s.acc.remote with
      | none => s
      | some (r, l) =>
        let s := { s with acc := { s.acc with remote := l } }
        pumpRemote (answer r.writer (vecOf m.source.toNat) (m.payload.getLsbD 15) (m.payload.toNat % 16) s)) s) s

end Sys2Proof.Machine
end

