-- ==== Sys2Proof/Machine/Arbiter.lean ====
section
/-! DEFINITION. The shared arbiter (R233 to R242, R472): one design, given the requests that the units beside it
assert and the effect of one beat. -/

namespace Sys2Proof.Machine

/-- A request at an arbiter: requester, beats of its transfer, class F need (R233). -/
structure ArbReq where
  j : Nat
  beats : Nat
  f : Bool
deriving DecidableEq, Repr

/-- The number of requesters of an arbiter (R233, R405). -/
def arbSize (a : Nat) : Nat := if a < 16 then 8 else if a < 20 then 3 else if a = 20 then 22 else 17

/-- N as committed, 2 to 64 (ARB_CTRL). -/
def arbN (s : State) (a : Nat) : Nat := max 2 (min 64 (s.rd (Reg.ARB_CTRL_N a)))
/-- WINDOW as committed, at least 16 (ARB_CTRL). -/
def arbWindow (s : State) (a : Nat) : Nat := max 16 (s.rd (Reg.ARB_CTRL_WINDOW a))
/-- A weight in force, at least 1 (ARB_WT). -/
def arbWeight (s : State) (a j : Nat) : Nat := max 1 (s.rd (Reg.ARB_WT_W a j))

/-- A restored copy bound for a unit of cluster k has not been handed in yet (R472). -/
def restoring (s : State) (k : Nat) : Bool :=
  let mine (m : Msg) : Bool := m.dest.extractLsb' 6 5 == s.die && destUnit m.dest / 4 == k
  s.xb.recHold.any (fun e => e.restored && mine e.msg)
    || (xbEntries s).any (fun e => e.restored && mine e.msg)
    || s.rq.crossing.any fun c => c.2.any fun x => x.restored && x.u % 64 / 4 == k

/-- The conditions that hold an arbiter in aging mode (R238, R472, R509). -/
def arbMustAge (s : State) (a : Nat) : Bool :=
  let b := s.arbOf a
  s.flag (Reg.ARB_CTRL_AGEFORCE a)
    || (if a < 21 then s.su.recov || s.flag Reg.TEST_CTRL_TMODE else s.gate.aging)
    || (decide (a < 16) && b.scope && restoring s a)
    || (decide (16 ≤ a) && decide (a < 20) && (s.port (a - 16)).resolving)

/-- Every counter takes its requester's weight (R234, R238). -/
def arbFill (s : State) (a : Nat) (b : Arb) : Arb :=
  { b with credit := (List.range (arbSize a)).foldl (fun (t : Tbl Int) j => tset 0 t j (arbWeight s a j)) [] }

/-- A decision puts the committed N, WINDOW and HINTEN in force (R237, R241; log entry 44). -/
def arbInForce (s : State) (a : Nat) (b : Arb) : Arb :=
  { b with n := arbN s a, window := arbWindow s a, hintEn := s.flag (Reg.ARB_CTRL_HINTEN a) }

/-- The mode follows its conditions: every rank is 0 on entry to aging mode, every counter its weight on leaving it
(R238). -/
def arbSync (a : Nat) (s : State) : State :=
  let b := s.arbOf a
  let age := arbMustAge s a
  let b := { b with scope := b.scope && restoring s a }
  if age == b.aging then s.setArb a b
  else if age then s.setArb a { b with aging := true, ranks := [], hints := [] }
  else s.setArb a (arbFill s a { b with aging := false })

/-- How far requester j stands in the rotation (R235). -/
def arbRot (a next j : Nat) : Nat := (j + arbSize a - next % arbSize a) % arbSize a

/-- The debit of a grant, stopped at −512 (R234). -/
def debit (x : Int) (beats : Nat) : Int := max (-512) (x - beats)

/-- The requester that a decision picks, and whether class F need chose it (R235, R238). DESIGN CHOICE (log entry 66): a GPHASE
that N has fallen below counts as N − 1. -/
def arbPick (b : Arb) (a : Nat) (reqs : List ArbReq) : Option (ArbReq × Bool) :=
  let near (x y : ArbReq) : Bool := decide (arbRot a b.next x.j < arbRot a b.next y.j)
  let top (score : Nat → Int) : Option ArbReq :=
    best (fun x y => decide (score y.j < score x.j) || (score y.j == score x.j && near x y)) reqs
  if reqs.any (·.f) then (best near (reqs.filter (·.f))).map fun r => (r, true)
  else
    let win := if b.aging then top fun j => ((tget 0 b.ranks j : Nat) : Int)
      else if b.n ≤ b.gphase + 1 then top fun j => ((tget 0 b.waits j : Nat) : Int)
      else top fun j => tget 0 b.credit j
    win.map fun r => (r, false)

/-- The hints of a decision: beats of the holder's transfer still to come, and of every waiting requester ranked ahead
(R237). -/
def arbHints (a : Nat) (b : Arb) (win left : Nat) (reqs : List ArbReq) : Tbl Nat :=
  let cr (j : Nat) : Int := tget 0 b.credit j
  let ws := reqs.filter (·.j != win)
  ws.foldl (fun t r =>
    let ahead := ws.filter fun x => decide (cr r.j < cr x.j)
      || (cr x.j == cr r.j && decide (arbRot a (win + 1) x.j < arbRot a (win + 1) r.j))
    tset 0 t r.j (min 255 (left + (ahead.map (·.beats)).sum))) []

/-- The beats of a grant: one that class F need chose serves the class F head alone, which at a ring writer takes two beats
(R235, R405). -/
def grantBeats (a : Nat) (byF : Bool) (r : ArbReq) : Nat := if byF then if 21 ≤ a then 2 else 1 else r.beats

/-- A decision in a cycle; idle says that the winner's first beat falls in the same cycle (R235, R236). -/
def arbDecide (a : Nat) (reqs : List ArbReq) (idle : Bool) (s : State) : State :=
  let b := arbInForce s a (s.arbOf a)
  match b.revoked with
  | some x =>
    if reqs.any (·.f) then grant b s
    else
      let h := if b.aging || !b.hintEn then []
        else arbHints a b x.j (x.beats - x.done - b2n idle) reqs
      s.setArb a { b with
        revoked := none, holder := some { x with granted := false, due := x.done + b2n idle }, hints := h
        ranks := raise b x.j (tget 0 b.ranks x.j) }
  | none => grant b s
where
  /-- The ranks after a decision: one more for every requester that waits and is not chosen (R238). -/
  raise (b : Arb) (win rank : Nat) : Tbl Nat :=
    reqs.foldl (fun t x => tset 0 t x.j (if x.j == win then rank else tget 0 t x.j + 1)) b.ranks
  /-- A grant; one that class F need chose serves the class F head alone, which at a ring writer takes two beats (R235, R238,
  R242, R405). -/
  grant (b : Arb) (s : State) : State :=
    match arbPick b a reqs with
    | none => s.setArb a { b with hints := [] }
    | some (q, byF) =>
      let r := { q with beats := grantBeats a byF q }
      let n := b.n
      let gp := if b.aging then b.gphase
        else if byF then (b.gphase + 1) % n
        else if n ≤ b.gphase + 1 then 0 else b.gphase + 1
      let cr := if b.aging then b.credit else tset 0 b.credit r.j (debit (tget 0 b.credit r.j) r.beats)
      let rk := raise b r.j 0
      let x : Xfer := { j := r.j, beats := r.beats, done := 0, f := r.f, due := b2n idle }
      let w := if byF then b.waits else tset 0 b.waits r.j 0
      let b := { b with gphase := gp, credit := cr, ranks := rk, next := (r.j + 1) % arbSize a, holder := some x, waits := w }
      let h := if b.aging || !b.hintEn then [] else arbHints a b r.j (r.beats - b2n idle) reqs
      let b := { b with hints := h }
      let span := tget 0 b.spans r.j
      let s := s.setArb a { b with spans := tset 0 b.spans r.j 0 }
      let s := s.incW (Reg.ARB_GRANTS a r.j)
      s.wr (Reg.ARB_LONGEST a r.j) (max (s.rd (Reg.ARB_LONGEST a r.j)) (min 0xFFFF span))

/-- One beat of the transfer that holds the port; a resumption debits what remains at its first beat (R236, R240). -/
def arbBeat (a : Nat) (beat : Nat → State → State) (s : State) : State :=
  let b := s.arbOf a
  match b.holder with
  | none => s
  | some h =>
    let b := if h.granted || b.aging then b
      else { b with credit := tset 0 b.credit h.j (debit (tget 0 b.credit h.j) (h.beats - h.done)) }
    let x := if h.beats ≤ h.done + 1 then none else some { h with done := h.done + 1, granted := true }
    let b := { b with holder := x }
    beat h.j (s.setArb a b)

/-- The beats that the transfer still owes, one after the other. -/
def arbBeats (a : Nat) (beat : Nat → State → State) : Nat → State → State
  | 0, s => s
  | n + 1, s => arbBeats a beat n (arbBeat a beat s)

/-- A decision in the last beat of the holder's transfer, or on an idle port, where the first beat falls in the same
cycle (R236). -/
def arbRun (a : Nat) (reqs : State → List ArbReq) (beat : Nat → State → State) (s : State) : State :=
  let s := arbSync a s
  match (s.arbOf a).holder with
  | some h =>
    let s := arbBeats a beat (h.beats - h.done) s
    arbDecide a (reqs s) false s
  | none => arbBeat a beat (arbDecide a (reqs s) true s)

/-- The beats that the holder carries up to the present cycle's, which it always carries (R236, R240). -/
def arbNow (h : Xfer) : Nat := max 1 (h.due - h.done)

/-- The arbiter takes the port back from the transfer that has carried n beats more than h: the rest is credited and the
transfer waits (R240). -/
def arbTakeBack (a : Nat) (h : Xfer) (n : Nat) (s : State) : State :=
  let b := s.arbOf a
  let left := h.beats - (h.done + n)
  let cr := if b.aging then b.credit else tset 0 b.credit h.j (min 255 (tget 0 b.credit h.j + left))
  let b := { b with holder := none, revoked := some { h with done := h.done + n }, credit := cr }
  (s.setArb a b).inc (Reg.ARB_EVT_REVOKE a)

/-- Class F need revokes a transfer without class F that has beats left after this cycle: the beats up to this cycle's stand,
and the arbiter decides (R240). -/
def arbRevoke (a : Nat) (reqs : State → List ArbReq) (beat : Nat → State → State) (s : State) : State :=
  let s := arbSync a s
  match (s.arbOf a).holder with
  | none => s
  | some h =>
    if h.f || !(reqs s).any (·.f) || h.beats ≤ h.done + arbNow h then s
    else
      let s := arbTakeBack a h (arbNow h) (arbBeats a beat (arbNow h) s)
      arbDecide a (reqs s) false s

/-- What an arbiter does in one cycle: the holder's beat, a decision in the last one, a revocation that class F need asks for,
or a decision on an idle port (R235, R236, R240). -/
def arbStep (a : Nat) (reqs : State → List ArbReq) (beat : Nat → State → State) (s : State) : State :=
  match (s.arbOf a).holder with
  | none => arbRun a reqs beat s
  | some h =>
    if h.beats ≤ h.done + arbNow h then arbRun a reqs beat s
    else if !h.f && (reqs s).any (·.f) then arbRevoke a reqs beat s
    else arbBeats a beat (arbNow h) (arbSync a s)

/-- A requester withdraws: the holder between beats, at the cost of a dead cycle in which the arbiter decides, or the
revoked transfer that waits, which is dropped (R239, R240). -/
def arbWithdraw (a : Nat) (revoked : Bool) (reqs : State → List ArbReq) (s : State) : State :=
  let s := arbSync a s
  let b := s.arbOf a
  match revoked, b.revoked, b.holder with
  | true, some _, _ => (s.setArb a { b with revoked := none }).inc (Reg.ARB_EVT_WDRAW a)
  | false, _, some h =>
    let first := h.done == 0 && h.granted
    let back := if h.granted && !b.aging then h.beats - h.done else 0
    let n := b.n
    let cr := tset 0 b.credit h.j (min 255 (tget 0 b.credit h.j + back))
    let gp := if first && !b.aging then (b.gphase + n - 1) % n else b.gphase
    let b := { b with holder := none, credit := cr, gphase := gp }
    let s := (s.setArb a b).inc (Reg.ARB_EVT_WDRAW a)
    let s := if first then s.incW (Reg.ARB_GRANTS a h.j) (2 ^ 32 - 1) else s
    arbDecide a ((reqs s).filter (·.j != h.j)) false s
  | _, _, _ => s

/-- A refill, once in every WINDOW cycles; in aging mode it leaves the counters (R234, R238). -/
def arbRefill (a : Nat) (s : State) : State :=
  let s := arbSync a s
  let b := s.arbOf a
  if b.since < b.window then s
  else
    let b := { b with since := b.since - b.window }
    s.setArb a (if b.aging then b else arbFill s a b)

/-- A cycle has passed: the holder's next beat falls due. The beats of a link are slots of its own clock (R236, R248). -/
def arbDue (a : Nat) (h : Xfer) : Xfer :=
  if 16 ≤ a ∧ a < 20 then h else { h with due := min h.beats (h.due + 1) }

/-- A cycle passes at an arbiter: the waits of the asserted requests, the holder's among them for a further transfer only
(R234, R235, R242). -/
def arbTick (a : Nat) (reqs : List ArbReq) (s : State) : State :=
  let s := arbSync a s
  let b := s.arbOf a
  let asks (j : Nat) : Bool := reqs.any (·.j == j)
  let holds (j : Nat) : Bool := match b.holder with | some h => h.j == j | none => false
  let up (t : Tbl Nat) : Tbl Nat :=
    (List.range (arbSize a)).foldl (fun t j => tset 0 t j (if asks j then tget 0 t j + 1 else 0)) t
  let s := s.setArb a { b with holder := b.holder.map (arbDue a), waits := up b.waits, spans := up b.spans, since := b.since + 1 }
  s.each reqs fun r s => if holds r.j then s else s.incW (Reg.ARB_WAITED a r.j)

/-- The requests of a cycle: the holder asserts one only when something is left beyond its transfer (R235, R242). -/
def arbAsks (a : Nat) (reqs : State → List ArbReq) (beat : Nat → State → State) (s : State) : List ArbReq :=
  match (s.arbOf a).holder with
  | none => reqs s
  | some h =>
    (reqs s).filter (·.j != h.j) ++ (reqs (arbBeats a beat (h.beats - h.done) s)).filter (·.j == h.j)

end Sys2Proof.Machine
end

