-- ==== Sys2Proof/Machine/Links.lean ====
section
/-! DEFINITION. Verrath links: frames, forward error correction, training, sequence and credit, port down and its
resolution, and the crevasse audit (R248 to R294). -/

namespace Sys2Proof.Machine

-- the frame (R252 to R255)

/-- One step of the frame CRC (R254). -/
def crc16Step (c : Nat) (b : Bool) : Nat :=
  let top := c / 2 ^ 15 % 2 == 1
  let c := c * 2 % 2 ^ 16
  if top == b then c else c ^^^ 0x1021

/-- The CRC of frame bits [159:16], most significant first (R254). -/
def frameCrc (f : LinkFrame) : BitVec 16 :=
  BitVec.ofNat 16 ((List.range 144).foldl (fun c k => crc16Step c (f.getLsbD (159 - k))) 0xFFFF)

/-- A frame's type, sequence, credit return and message fields (R252). -/
def frType (f : LinkFrame) : Nat := (f.extractLsb' 156 4).toNat
def frSeq (f : LinkFrame) : BitVec 8 := f.extractLsb' 148 8
def frCredit (f : LinkFrame) : Nat × Nat := ((f.extractLsb' 146 2).toNat, (f.extractLsb' 144 2).toNat)
def frMsg (f : LinkFrame) : BitVec 128 := f.extractLsb' 16 128

/-- The frame passes R254. -/
def frOk (f : LinkFrame) : Bool := frameCrc f == f.extractLsb' 0 16

/-- A frame before its credit return and CRC. -/
def mkFrame (typ : Nat) (seq : BitVec 8) (msg : BitVec 128) : LinkFrame :=
  BitVec.ofNat 4 typ ++ seq ++ (0 : BitVec 4) ++ msg ++ (0 : BitVec 16)

/-- A frame with its credit return and CRC. -/
def sealFrame (f : LinkFrame) (cls n : Nat) : LinkFrame :=
  let f := f ||| (BitVec.ofNat 160 (4 * cls + n) <<< 144)
  f ||| (frameCrc f).zeroExtend 160

-- forward error correction (R258, R259)

/-- Product in GF(2^10) over x^10 + x^3 + 1. -/
def gfMul (a b : Nat) : Nat :=
  (List.range 10).foldl (fun r k =>
    let r := r * 2
    let r := if 1024 ≤ r then r ^^^ 0x409 else r
    if bit b (9 - k) then r ^^^ a else r) 0

/-- α to the power i. -/
def gfPow : Nat → Nat
  | 0 => 1
  | i + 1 => gfMul 2 (gfPow i)

/-- The inverse of α + 1, found by a power of the field's group order less one: (α + 1)^(2^10 − 2). -/
def gfInv3 : Nat :=
  ((List.range 9).foldl (fun (acc : Nat × Nat) _ => let sq := gfMul acc.2 acc.2; (gfMul acc.1 sq, sq)) (1, 3)).1

/-- The sixteen 10-bit symbols of a frame, bits [159:150] first. -/
def frSyms (f : LinkFrame) : List Nat := (List.range 16).map fun k => (f.extractLsb' (150 - 10 * k) 10).toNat

/-- A frame from its symbols. -/
def symsFrame (l : List Nat) : LinkFrame := BitVec.ofNat 160 (l.foldl (fun a x => a * 1024 + x) 0)

/-- The two syndromes of a codeword c33 first: its values at 1 and α. -/
def syndromes (c : List Nat) : Nat × Nat :=
  c.foldl (fun (a : Nat × Nat) x => (a.1 ^^^ x, gfMul 2 a.2 ^^^ x)) (0, 0)

/-- The parity symbols c1 and c0 of two frames (R258). -/
def rsParity (f g : LinkFrame) : Nat × Nat :=
  let (a, b) := syndromes (frSyms f ++ frSyms g ++ [0, 0])
  let c1 := gfMul gfInv3 (a ^^^ b)
  (c1, a ^^^ c1)

/-- A block decoded: its two frames and whether a symbol was corrected; none when it is uncorrectable (R259). -/
def rsDecode (f g : LinkFrame) (c1 c0 : Nat) : Option (LinkFrame × LinkFrame × Bool) :=
  let c := frSyms f ++ frSyms g ++ [c1, c0]
  let (s0, s1) := syndromes c
  if s0 = 0 ∧ s1 = 0 then some (f, g, false)
  else if s0 = 0 then none
  else match (List.range 34).find? fun i => gfMul s0 (gfPow i) == s1 with
    | none => none
    | some i =>
      let c := c.set (33 - i) (c.getD (33 - i) 0 ^^^ s0)
      some (symsFrame (c.take 16), symsFrame ((c.drop 16).take 16), true)

/-- The parity slot of 16 frames (R257, R258). -/
def parityOf (l : List LinkFrame) : LinkFrame :=
  BitVec.ofNat 160 (((List.range 8).map fun b =>
    let (c1, c0) := rsParity (l.getD (2 * b) 0) (l.getD (2 * b + 1) 0)
    (c1 * 1024 + c0) * 2 ^ (20 * b)).sum)

-- the scramblers (R251)

/-- The scrambler seeds of the four lanes. -/
def scrSeeds : List (BitVec 31) := [0, 1, 2, 3].map fun l => BitVec.ofNat 31 (0x5A5A5A5A ^^^ l)

/-- One line bit of a scrambler on x^31 + x^28 + 1. -/
def scrStep (x : BitVec 31) : BitVec 31 := (x <<< 1) ||| (BitVec.ofBool (x.getLsbD 30 != x.getLsbD 27)).zeroExtend 31

/-- The scramblers advance by one slot, 40 bits on every lane. -/
def scrSlot (l : List (BitVec 31)) : List (BitVec 31) := l.map fun x => (List.range 40).foldl (fun x _ => scrStep x) x

/-- The next 40 bits of a generator, first bit highest, and the generator after them. DESIGN CHOICE (log entry 56): each is the
bit that the step shifts in. -/
def lineBits (step : BitVec 31 → BitVec 31) (x : BitVec 31) : BitVec 40 × BitVec 31 :=
  (List.range 40).foldl (fun (a : BitVec 40 × BitVec 31) _ =>
    let y := step a.2
    ((a.1 <<< 1) ||| (BitVec.ofBool (y.getLsbD 0)).zeroExtend 40, y)) (0, x)

/-- The 40 bits that a scrambler adds to a slot of its lane, first bit highest. -/
def scrKey (x : BitVec 31) : BitVec 40 := (lineBits scrStep x).1

/-- The scramblers' bits for one slot of all lanes; none before they are seeded. -/
def scrMask (l : List (BitVec 31)) : LinkFrame :=
  match l with
  | [a, b, c, d] => scrKey d ++ scrKey c ++ scrKey b ++ scrKey a
  | _ => 0

/-- A slot scrambled, or descrambled: the scrambler is additive (R251). -/
def scramble (l : List (BitVec 31)) (f : LinkFrame) : LinkFrame := f ^^^ scrMask l

-- lanes, symbols and levels (R250)

/-- The level of a bit pair (R250). -/
def grayLevel : Bool → Bool → Int
  | false, false => -3
  | false, true => -1
  | true, true => 1
  | true, false => 3

/-- The levels of one slot by lane and symbol: lane l carries bits 40 l + 39 to 40 l, symbol m two of them (R250). -/
def slotLevels (f : LinkFrame) : List (List Int) :=
  (List.range 4).map fun l => (List.range 20).map fun m =>
    grayLevel (f.getLsbD (40 * l + 39 - 2 * m)) (f.getLsbD (40 * l + 38 - 2 * m))

-- transmission

/-- The credit owed that the next frame returns: the lowest class code with an entry to return, up to 3 (R255; log
entry 14). -/
def creditDue (x : PortS) : Nat × Nat :=
  match [0, 1, 2].find? fun c => tget 0 x.owe c != 0 with
  | some c => (c, min 3 (tget 0 x.owe c))
  | none => (0, 0)

/-- The bits of a slot of port p leave its lanes, scrambled (R250, R251). -/
def sendSlot (p : Nat) (f : LinkFrame) (s : State) : State :=
  let x := s.port p
  (s.setPort p { x with scrTx := scrSlot x.scrTx }).emit (.slot p (slotLevels (scramble x.scrTx f)))

/-- A frame takes the next slot of port p; on a long-reach port the sixteenth is followed by the parity slot (R252,
R257). -/
def sendFrame (p : Nat) (f : LinkFrame) (s : State) : State :=
  let x := s.port p
  let (c, n) := creditDue x
  let f := sealFrame f c n
  let x := { x with owe := tset 0 x.owe c (tget 0 x.owe c - n) }
  if p < 2 then sendSlot p f (s.setPort p x)
  else if x.group.length < 15 then sendSlot p f (s.setPort p { x with group := x.group ++ [f] })
  else sendSlot p (parityOf (x.group ++ [f])) (sendSlot p f (s.setPort p { x with group := [] }))

/-- A link-control frame waits for its slot (R265). -/
def queueCtl (p : Nat) (f : LinkFrame) (s : State) : State :=
  s.setPort p { s.port p with ctl := (s.port p).ctl ++ [f] }

/-- The ACK that carries E − 1 (R253, R270). -/
def ackFrame (x : PortS) : LinkFrame := mkFrame 0 (x.expect - 1) 0

/-- A message of types 0x12 and 0x13 counts as class F at a port (R264). -/
def portF (m : Msg) : Bool := m.cls == .f || m.typ == 0x12 || m.typ == 0x13

/-- The message that a transmit buffer offers (R264). -/
def txHead (l : List Msg) : Option Msg := (l.find? portF).or l.head?

/-- A DATA frame of a class may be sent (R266). -/
def creditOk (infl : Tbl Nat) (c : Nat) : Bool :=
  let n (k : Nat) : Nat := tget 0 infl k
  let spare (k : Nat) : Nat := if k == c then 0 else 4 - n k
  decide (n 0 + n 1 + n 2 + 1 + (spare 0 + spare 1 + spare 2) ≤ 32)

/-- The new frames that requester 0 can send in one transfer, at most k, while fewer than `bound` are unacknowledged (R233,
R264 to R266). -/
def txRun (bound : Nat) : Nat → List Msg → Tbl Nat → Nat → List Msg
  | 0, _, _, _ => []
  | k + 1, l, infl, unack =>
    match txHead l with
    | none => []
    | some m =>
      let c := m.cls.code
      if decide (unack < bound) && creditOk infl c then
        m :: txRun bound k (l.erase m) (tset 0 infl c (tget 0 infl c + 1)) (unack + 1)
      else []

/-- The new frames that port p may send, at most k: none while a replay is under way (R265, R266). -/
def txNew (s : State) (p k : Nat) : List Msg :=
  let x := s.port p
  if x.replay.isNone then txRun (min 255 (256 - lostIn s (56 + p))) k x.tx x.infl x.unacked.length else []

/-- The requests at Verrath output p (R233, R265). -/
def linkReqs (p : Nat) (s : State) : List ArbReq :=
  let x := s.port p
  if x.st != .up then []
  else
    let new := txNew s p 8
    let r0 := if new.isEmpty then [] else [⟨0, new.length, match new.head? with | some m => portF m | none => false⟩]
    let r1 := match x.replay with
      | some k => match x.unacked[k]? with
        | some (_, m) => [⟨1, min 8 (x.unacked.length - k), portF m⟩]
        | none => []
      | none => []
    let r2 := if x.ctl.isEmpty then [] else [⟨2, min 8 x.ctl.length, false⟩]
    r0 ++ r1 ++ r2

/-- System time in 1/16 tick, with the units of lane 0 inside the present cycle (R183). -/
def stamp16 (s : State) (sub : Nat) : BitVec 64 := BitVec.ofNat 64 (16 * s.t + sub)

/-- A link-control frame in its slot: an ACK carries the sequence taken last, a sync request is stamped t1 as it leaves, and
a sync response carries t3 (R183, R253, R270). -/
def sendCtlFrame (p : Nat) (f : LinkFrame) (s : State) : State :=
  let x := s.port p
  if frType f = 0 then sendFrame p (ackFrame x) (s.setPort p { x with sinceAck := 0 })
  else if frType f = 3 then
    sendFrame p f { s with time := { s.time with
      t1 := tset 0 s.time.t1 p (stamp16 s x.sub1), waiting := tset false s.time.waiting p true } }
  else if frType f = 4 then
    sendFrame p (mkFrame 4 0 (stamp16 s x.sub3 ++ (frMsg f).extractLsb' 0 64)) s
  else sendFrame p f s

/-- The replay record of a frame of port p cannot be read: it is poisoned, and the link island's copy of the 16 newest frames
does not hold it (R271, R302). -/
def replayLost (s : State) (p : Nat) (q : BitVec 8) : Bool :=
  (s.port p).poisoned.contains q && decide (16 < ((s.port p).next - q).toNat)

/-- One frame slot of port p for requester j, which sends a new frame only while R265 and R266 let it (R265, R266,
R268). DESIGN CHOICE (log entry 66): the credit that a message of types 0x12 and 0x13 spends is that of its Class field. -/
def linkBeat (p j : Nat) (s : State) : State :=
  let x := s.port p
  if x.st != .up then s
  else match j with
  | 0 =>
    match (txNew s p 1).head? with
    | none => s
    | some m =>
      let c := m.cls.code
      let x := { x with
        tx := x.tx.erase m, next := x.next + 1, unacked := x.unacked ++ [(x.next, m)]
        infl := tset 0 x.infl c (tget 0 x.infl c + 1), poisoned := x.poisoned.filter (· != x.next)
        progress := if x.unacked.isEmpty then s.time.now else x.progress }
      sendFrame p (mkFrame 1 (x.next - 1) m.pack) (s.setPort p x)
  | 1 =>
    match x.replay with
    | some k =>
      match x.unacked[k]? with
      | some (q, m) =>
        let go := if k + 1 < x.unacked.length then some (k + 1) else none
        let s := s.setPort p { x with replay := go }
        if replayLost s p q then sendFrame p (ackFrame x) (s.inc Reg.FIRN_ERR_LOST) else sendFrame p (mkFrame 1 q m.pack) s
      | none => s.setPort p { x with replay := none }
    | none => s
  | _ =>
    match x.ctl with
    | f :: l => sendCtlFrame p f (s.setPort p { x with ctl := l })
    | [] => s

/-- The beats that requester j of port p can carry now, of those that its transfer still owes (R265, R266). -/
def linkReady (p : Nat) (h : Xfer) (s : State) : Nat :=
  let left := h.beats - h.done
  let x := s.port p
  match h.j with
  | 0 => (txNew s p left).length
  | 1 => min left (match x.replay with | some k => x.unacked.length - k | none => 0)
  | _ => min left x.ctl.length

-- training (R261 to R263)

/-- The power domain of port p (R248). -/
def lnkDom (p : Nat) : Nat := if p < 2 then 20 else 21

/-- The transmitter has been idle for 256 ticks (R261). -/
def idleOver (s : State) (p : Nat) : Bool :=
  match (s.port p).idleFrom with
  | some t => decide (t.toNat + 256 ≤ s.t)
  | none => true

/-- The pattern test runs on port p (R510). -/
def testing (s : State) (p : Nat) : Bool := s.flag Reg.TEST_CTRL_LTEST && s.rd Reg.TEST_LSEL_PORT == p

/-- A port in OFF enters DETECT when EN is 1, its domain on and its idle time over; bsc_mode and the pattern test hold it OFF
(R261, R510, R512). -/
def tryDetect (p : Nat) (s : State) : State :=
  let x := s.port p
  if x.st == .off && s.flag (Reg.LNK_CTRL_EN p) && s.on (lnkDom p) && idleOver s p && !s.pins.bscMode && !testing s p then
    s.setPort p { x with st := .detect, since := s.time.now, locked := 0, noRetrain := false }
  else s

/-- A port without what its training has set up: seeds, groups and the check of IDENT (R251, R257, R261). -/
def unseeded (x : PortS) : PortS := { x with scrTx := [], scrRx := [], group := [], fec := [], checked := false }

/-- A port leaves its state for OFF: its transmitter goes idle (R261). -/
def goOff (p : Nat) (s : State) : State :=
  let x := s.port p
  if x.st == .off then s
  else
    let idle := if x.st == .down then x.idleFrom else some s.time.now
    s.setPort p { unseeded x with st := .off, idleFrom := idle, locked := 0, noRetrain := false }

/-- A training command finds its port in its state. -/
def inState (p : Nat) (st : LnkState) (f : State → State) (s : State) : State :=
  if (s.port p).st == st then f s else s

/-- A port enters a training state. -/
def train (p : Nat) (st : LnkState) (s : State) : State := s.setPort p { s.port p with st := st, since := s.time.now }

/-- LANE_ENERGY_DETECT. All four lanes of a port in DETECT see energy (R261). -/
def execLaneEnergyDetect (p : Fin 4) (s : State) : Host.Outcome State Fault Refusal := runClk (inState p .detect (train p .lock)) s

/-- LANE_LOCK_DONE. All four lanes of a port in LOCK are locked and adapted (R261). -/
def execLaneLockDone (p : Fin 4) (s : State) : Host.Outcome State Fault Refusal :=
  runClk (inState p .lock fun s => train p .align (s.setPort p { s.port p with locked := 0xF })) s

/-- The IDENT content of port p (R262). -/
def identOf (s : State) (p : Nat) : BitVec 128 :=
  let x := s.port p
  BitVec.ofNat 128 (s.die.toNat + 2 ^ 5 * p + 2 ^ 7 * b2n (decide (2 ≤ p)) + 2 ^ 8 * x.lastRx.toNat + 2 ^ 16 * b2n !x.everUp)

/-- A TRAIN frame of port p in the clear: it stands before the CREDIT marker and the groups of R257, or is the marker
(R251). -/
def sendTrain (p : Nat) (content : BitVec 128) (s : State) : State :=
  s.emit (.slot p (slotLevels (sealFrame (mkFrame 6 0 content) 0 0)))

/-- One step of the generator of a test pattern: PRBS7, PRBS15 or PRBS31 by PAT (R510). -/
def prbsStep (pat : Nat) (x : BitVec 31) : BitVec 31 :=
  let (n, m) := if pat = 0 then (7, 6) else if pat = 1 then (15, 14) else (31, 28)
  (x <<< 1) ||| (BitVec.ofBool (x.getLsbD (n - 1) != x.getLsbD (m - 1))).zeroExtend 31

/-- A slot of the pattern test: the lanes carry the pattern, unscrambled. PAT 3 sends nothing, and in far-end loopback the lanes
carry what they receive (R510; log entry 66). -/
def testSlot (p : Nat) (s : State) : State :=
  let pat := s.rd Reg.TEST_LSEL_PAT
  if pat = 3 || s.rd Reg.TEST_LSEL_LOOP = 3 then s
  else
    let r := s.tst.gen.map (lineBits (prbsStep pat))
    let lane (l : Nat) : BitVec 40 := (r.getD l (0, 0)).1
    ({ s with tst := { s.tst with gen := r.map (·.2) } } : State).emit
      (.slot p (slotLevels (lane 3 ++ lane 2 ++ lane 1 ++ lane 0)))

/-- A slot that no request claims: the pattern of a test in OFF, the bare sequence in DETECT and LOCK, TRAIN frames in ALIGN,
IDENT and CREDIT, ACK frames in UP, and nothing from an idle transmitter. On long reach LOCK sends TRAIN frames too, which set
the transmit FFE (R251, R253, R261, R510). The start of the sequence and the contents of TRAIN frames but IDENT's are free
values (log entry 8). -/
def idleSlot (p : Nat) (s : State) : State :=
  let x := s.port p
  let ffe := if x.st == .lock && decide (2 ≤ p) then Config.ffeContent p s.time.now else none
  match x.st with
  | .off => if testing s p then testSlot p s else s
  | .down => s
  | .detect | .lock =>
    let seeds := if x.scrTx.isEmpty then [0, 1, 2, 3].map fun l => Config.prbsSeed x.since (4 * p + l) else x.scrTx
    match ffe with
    | some content => sendTrain p content (s.setPort p { x with scrTx := scrSlot seeds })
    | none => sendSlot p 0 (s.setPort p { x with scrTx := seeds })
  | .align => sendTrain p (Config.alignContent p s.time.now) s
  | .ident => sendTrain p (identOf s p) s
  | .credit => sendFrame p (mkFrame 6 0 (Config.confirmContent p s.time.now)) s
  | .up => sendFrame p (ackFrame x) (s.setPort p { x with sinceAck := 0 })

/-- ALIGN_DONE. 64 TRAIN frames in a row have passed, and the port sends its IDENT content (R261, R262). -/
def execAlignDone (p : Fin 4) (s : State) : Host.Outcome State Fault Refusal :=
  runClk (inState p .align fun s => sendTrain p (identOf s p) (train p .ident s)) s

/-- The next die has taken a message, and the custody record that stood for it here is freed (R303). -/
def takenThere (m : Msg) (s : State) : State :=
  if destDie m.dest == s.die || !takesCustody m then s
  else match firnFind s fun c => c.kind == .custody && c.msg.sameId m && !c.done && c.moved == some m.dest with
    | some (k, _) => s.setRec k none
    | none => s

-- port down and its resolution (R285 to R289)

/-- The peer of port p as recorded from its last IDENT (R262). -/
def peerOf (s : State) (p : Nat) : BitVec 5 := BitVec.ofNat 5 (s.rd (Reg.LNK_PEER_PEER p))

/-- A down is recorded (R285). -/
def noteDown (p cause : Nat) (peer : BitVec 5) (s : State) : State :=
  let s := (s.wr (Reg.LNK_STAT_CAUSE p) cause).inc (Reg.LNK_ERR2_DOWNS p)
  raiseInt (5128 + p) (cause + 8 * peer.toNat) s

/-- The class S messages queued for an output leave their entries; the second component counts them (R286). -/
def flushS (o : Nat) (l : List XEntry) : List XEntry × Nat :=
  let hit (e : XEntry) (x : BitVec 12 × Route) : Bool := e.msg.cls == .s && x.2 == .out o
  let l' := l.filterMap fun e =>
    let owed := e.owed.filter fun x => !hit e x
    if owed.isEmpty then none else some { e with owed := owed }
  (l', (l.map fun e => (e.owed.filter (hit e)).length).sum)

/-- The messages of classes G and F queued for an output wait for the resolution of port p (R286). -/
def holdRoutes (p : Nat) (l : List XEntry) : List XEntry :=
  l.map fun e => { e with owed := e.owed.map fun x => if x.2 == .out (16 + p) then (x.1, .held p) else x }

/-- Port p leaves UP for DOWN or OFF (R285, R286). -/
def portDown (p cause : Nat) (off : Bool) (s : State) : State :=
  let s := noteDown p cause (peerOf s p) s
  let (bufs, n) := s.xb.bufs.foldl (fun (acc : Tbl (List XEntry) × Nat) b =>
    let (l, k) := flushS (16 + p) b.2
    (tset [] acc.1 b.1 (holdRoutes p l), acc.2 + k)) ([], 0)
  let staging := s.xb.staging.map fun b => (b.1, holdRoutes p b.2)
  let rings := s.xb.rings.map fun r => (r.1, r.2.map fun b => (b.1, holdRoutes p b.2))
  let s := { s with xb := { s.xb with bufs := bufs, staging := staging, rings := rings } }
  let x := s.port p
  let isS (m : Msg) : Bool := m.cls == .s
  let n := n + (x.tx.filter isS).length + (x.unacked.filter fun e => isS e.2).length
  let s := s.inc (Reg.LNK_SFLUSH p) n
  let x := { x with
    st := if off then .off else .down, fell := true, since := s.time.now, idleFrom := some s.time.now
    tx := x.tx.filter (!isS ·), unacked := x.unacked.filter fun e => !isS e.2
    nak := none, sinceAck := 0, failRun := 0, replay := none, replayFrom := none, replayRuns := 0, ctl := []
    resolving := true, downAt := s.time.now, reports := 0, lastReport := 0, entered := false, resolved := none
    lastRx := x.expect - 1, lastNone := x.noneRx }
  let s := s.setPort p (unseeded x)
  let s := { s with time := { s.time with waiting := tset false s.time.waiting p false } }
  s.setArb (16 + p) { s.arbOf (16 + p) with holder := none, revoked := none }

/-- A port in UP goes down with a cause. -/
def downIfUp (p cause : Nat) (s : State) : State := inState p .up (portDown p cause false) s

/-- The unacknowledged frames of a port after sequence q; all of them when q is none of those it has sent since the last
acknowledged one (R288). -/
def afterSeq (q : BitVec 8) (x : PortS) : List (BitVec 8 × Msg) :=
  let far (y : BitVec 8) : Nat := (y - x.acked).toNat
  if far q ≤ far (x.next - 1) then x.unacked.filter fun e => decide (far q < far e.1) else x.unacked

/-- The resolution of port p from a value L: later frames and buffered messages enter through input 21, flagged when
the outcome is uncertain (R288, R289). -/
def resolve (p : Nat) (q : BitVec 8) (uncertain : Bool) (s : State) : State :=
  let x := s.port p
  if !x.resolving || x.entered then s
  else
    let back := afterSeq q x
    let ms := (back.filter fun e => !replayLost s p e.1).map (·.2) ++ x.tx
    let s := s.inc Reg.FIRN_ERR_LOST (back.filter fun e => replayLost s p e.1).length
    let ms := if uncertain then ms.map Msg.flag else ms
    let s := if uncertain then s.inc (Reg.LNK_UNCERT p) ms.length else s
    let s := s.setPort p { x with unacked := [], tx := [], entered := true, acked := if uncertain then x.acked else q }
    let s := s.each (x.unacked.take (x.unacked.length - (afterSeq q x).length)) fun e s => takenThere e.2 s
    let es : List RecEntry := ms.map fun m => { msg := m, res := some p }
    noteResolved p (pumpRec { s with xb := { s.xb with recHold := s.xb.recHold ++ es } })

/-- A value of L arrives for port p, with NONE (R288, R289). -/
def resolveWith (p : Nat) (q : BitVec 8) (none_ : Bool) (s : State) : State :=
  if none_ then resolve p (s.port p).acked true s else resolve p q false s

/-- A port enters CREDIT: its first slot there carries the CREDIT marker in the clear, and the scramblers are seeded for the
next, which begins the first group of a long-reach port (R251, R257). -/
def enterCredit (p : Nat) (s : State) : State :=
  let s := sendTrain p ((0xC5 : BitVec 8) ++ (0 : BitVec 120)) (train p .credit s)
  s.setPort p { s.port p with scrTx := scrSeeds, group := [], checked := false }

/-- IDENT. The peer's IDENT content is checked: a wrong peer takes the port down with cause 6; any other is recorded and
resolves the last down (R262, R285, R288). Once the peer has checked this port's content too, the port enters
CREDIT (R261; log entry 56). -/
def execIdent (p : Fin 4) (x : PeerIdent) (s : State) : Host.Outcome State Fault Refusal :=
  runClk (inState p .ident fun s =>
    let content := x.content
    let peer : BitVec 5 := content.extractLsb' 0 5
    let pport := (content.extractLsb' 5 2).toNat
    let reach := content.getLsbD 7 == decide (2 ≤ p.val)
    let exp := !s.flag (Reg.LNK_PEER_EXPEN p)
      || (s.rd (Reg.LNK_PEER_EXPECT p) == peer.toNat && s.rd (Reg.LNK_PEER_EXPPORT p) == pport)
    if reach && exp then
      let s := (s.wr (Reg.LNK_PEER_PEER p) peer.toNat).wr (Reg.LNK_PEER_PEERPORT p) pport
      let s := resolveWith p (content.extractLsb' 8 8) (content.getLsbD 16) s
      if x.both then enterCredit p s else s.setPort p { s.port p with checked := true }
    else
      let s := noteDown p 6 peer s
      s.setPort p { unseeded (s.port p) with
        st := .down, fell := true, since := s.time.now, idleFrom := some s.time.now, noRetrain := true }) s

/-- CREDIT_MARKER. The descrambler is seeded, and the groups of a long-reach port begin (R251, R257). The peer sends it once
both ends have checked IDENT, so that a port that has checked it too enters CREDIT (R261). -/
def execCreditMarker (p : Fin 4) (s : State) : Host.Outcome State Fault Refusal :=
  runClk (fun s =>
    let x := s.port p
    if x.st == .ident || x.st == .credit then
      let s := s.setPort p { x with scrRx := scrSeeds, fec := [] }
      if x.st == .ident && x.checked then enterCredit p s else s
    else s) s

/-- A routing entry names port p. -/
def entryNames (s : State) (p e : Nat) : Bool :=
  s.rd (Reg.RT_ENTRY_PORT e) == p || (s.flag (Reg.RT_ENTRY_ALTEN e) && s.rd (Reg.RT_ENTRY_ALTPORT e) == p)

/-- LINK_UP. Both ends have confirmed CREDIT and no resolution of the port is pending: the
port enters UP, source 5,132 + p is raised, and the messages and partners that waited for the port go on (R261, R263, R275,
R285, R316). On a long-reach port the decoder has counted the slots (R257). -/
def execLinkUp (c : Confirmed) (s : State) : Host.Outcome State Fault Refusal :=
  runClk (inState c.p .credit fun s =>
    let p := c.p
    let x := s.port p
    if x.resolving || x.scrRx.isEmpty then s
    else
      let x := { x with
        scrRx := if p.val < 2 then (List.range c.slots).foldl (fun l _ => scrSlot l) x.scrRx else x.scrRx
        st := .up, since := s.time.now, next := 0, acked := 0xFF, expect := 0, unacked := [], infl := [], owe := []
        nak := none, sinceAck := 0, failRun := 0, replay := none, replayFrom := none, replayRuns := 0, ctl := []
        progress := s.time.now, everUp := true, noneRx := true }
      let s := s.setPort p x
      let s := raiseInt (5132 + p) ((peerOf s p).toNat + 32 * s.rd (Reg.LNK_PEER_PEERPORT p)) s
      let s := reroute (fun r => match r with | .noPort e => entryNames s p e | _ => false) s
      let acting (d : BitVec 5) : Bool := (firnFind s fun r => r.acting && r.msg.origin == d).isSome
      let back := ((List.range 32).map (BitVec.ofNat 5)).filter fun d =>
        (unreachable s d || acting d) && (portToward s d).isSome
      pumpAll (s.each back startResync)) s

/-- The bound of a training state in ticks (R261). -/
def trainBound (p : Nat) : LnkState → Option Nat
  | .lock => some (if p < 2 then 800000 else 8000000)
  | .align => some 80000
  | .ident | .credit => some 8000
  | _ => none

/-- TRAINING_TIMEOUT. A training state has lasted too long, and the port returns to DETECT (R261). -/
def execTrainingTimeout (p : Fin 4) (s : State) : Host.Outcome State Fault Refusal :=
  runClk (fun s =>
    let x := s.port p
    match trainBound p x.st with
    | some b =>
      if x.since.toNat + b ≤ s.t then
        let s := s.setPort p { unseeded x with st := .detect, since := s.time.now, locked := 0 }
        (s.inc (Reg.LNK_ERR2_TRAINFAIL p)).wr (Reg.LNK_STAT_CAUSE p) 5
      else s
    | none => s) s

/-- DOWN_IDLE_END. 256 ticks of electrical idle have passed in DOWN, or in OFF with EN at 1 (R261). -/
def execDownIdleEnd (p : Fin 4) (s : State) : Host.Outcome State Fault Refusal :=
  runClk (fun s =>
    let x := s.port p
    if x.st == .down then
      if idleOver s p && s.flag (Reg.LNK_CTRL_AUTO p) && !x.noRetrain && s.on (lnkDom p) && !s.pins.bscMode then
        s.setPort p { x with st := .detect, since := s.time.now, locked := 0 }
      else s
    else tryDetect p s) s

/-- LNK_CTRL.EN or DOWN has been written (R261, R285). -/
def lnkWritten (p : Nat) (down : Bool) (s : State) : State :=
  if !s.flag (Reg.LNK_CTRL_EN p) then
    if (s.port p).st == .up then portDown p 0 true s else goOff p s
  else if down then downIfUp p 0 s
  else tryDetect p s

/-- The link domain of port p goes off, and the port's arbiter loses its state with it (R29, R261, R285). -/
def lnkDomainOff (p : Nat) (s : State) : State :=
  (if (s.port p).st == .up then portDown p 7 true s else goOff p s).setArb (16 + p) {}

/-- LANE_LOCK_LOST. A lane loses lock; a port in UP goes down with cause 1 (R285). -/
def execLaneLockLost (p lane : Fin 4) (s : State) : Host.Outcome State Fault Refusal :=
  runClk (fun s =>
    let x := s.port p
    let s := s.setPort p { x with locked := x.locked &&& ~~~(1#4 <<< lane.val) }
    downIfUp p 1 s) s

-- reception (R253 to R256, R267 to R272)

/-- A frame that fails R254 or R259 counts toward cause 2 (R285). -/
def failFrame (p : Nat) (s : State) : State :=
  let x := s.port p
  if 8 ≤ x.failRun + 1 then downIfUp p 2 s else s.setPort p { x with failRun := x.failRun + 1 }

/-- A DATA frame is discarded: NAK with E, unless one is outstanding (R269). -/
def sendNak (p : Nat) (s : State) : State :=
  let x := s.port p
  if x.st != .up || x.nak.isSome then s
  else queueCtl p (mkFrame 2 x.expect 0) (s.setPort p { x with nak := some s.time.now })

/-- The credit return of a good frame (R255, R266). -/
def takeCredit (p : Nat) (f : LinkFrame) (s : State) : State :=
  let x := s.port p
  let (c, n) := frCredit f
  if c = 3 then s else s.setPort p { x with infl := tset 0 x.infl c (tget 0 x.infl c - n) }

/-- A frame as the receiver of port p has it: descrambled from the bits of its slot on a short-reach port; on a long-reach
port the decoder has descrambled it with its group (R251, R259). -/
def heard (s : State) (p : Nat) (frame : LinkFrame) : LinkFrame :=
  if p < 2 then scramble (s.port p).scrRx frame else frame

/-- A frame, as heard, arrives at port p in UP. On a long-reach port it is the next of its kind that the decoder has passed,
whose check counted toward cause 2 there. f acts on a frame that passes R254, bad on one that fails. -/
def rxFrame (p : Nat) (frame : LinkFrame) (f bad : State → State) (s : State) : State :=
  inState p .up (fun s =>
    let x := s.port p
    if decide (2 ≤ p) && !x.fec.contains frame then s
    else
      let s := if p < 2 then s.setPort p { x with scrRx := scrSlot x.scrRx } else s.setPort p { x with fec := x.fec.erase frame }
      if frOk frame then
        let x := s.port p
        let x := if p < 2 then { x with failRun := 0 } else x
        f (takeCredit p frame (s.setPort p { x with noneRx := false }))
      else
        let s := s.inc (Reg.LNK_ERR0_CRC p)
        bad (if p < 2 then failFrame p s else s)) s

/-- The message of a DATA frame is discarded and counted (R256, R309). -/
def badMsg (m : Msg) : Bool :=
  m.cls == .m || !(m.isEvent || m.isCtl) || (m.typ == 0x14 && decide (11 ≤ fenceKind m))

/-- A remote write keeps the tick and the epoch at which the link receiver checked its frame (R62; log entry 51). -/
def stampRemote (m : Msg) (s : State) : Msg :=
  if m.typ == 0x10 && targetDie m.dest == s.die then { m with ts := s.time.now.truncate 32, epoch := s.epoch.num.truncate 8 }
  else m

/-- A DATA frame with sequence E is taken (R256, R267, R269, R278). -/
def takeData (p : Nat) (m : Msg) (s : State) : State :=
  let x := s.port p
  let m := stampRemote m s
  let x := { x with
    expect := x.expect + 1, nak := none, sinceAck := x.sinceAck + 1
    ackFrom := if x.sinceAck = 0 then s.time.now else x.ackFrom }
  if badMsg m then
    let c := m.cls.code
    let owe := if c = 3 then x.owe else tset 0 x.owe c (tget 0 x.owe c + 1)
    (s.setPort p { x with owe := owe }).inc (Reg.LNK_ERR2_BADTYPE p)
  else
    let s := s.setPort p { x with rx := x.rx ++ [m] }
    let s := if targetDie m.dest == s.die then s else s.raise (Reg.VER_INFLIGHT_SEEN m.rver.toNat)
    pumpRx p (if m.isEvent then trace 4 p m s else s)

/-- DATA. A DATA frame whose sequence is E is taken; any other is discarded and NAKed, as is one that finds no receive
entry free (R266, R269). -/
def execData (p : Fin 4) (frame : LinkFrame) (s : State) : Host.Outcome State Fault Refusal :=
  runClk (fun s =>
    let frame := heard s p frame
    if frType frame ≠ 1 then s
    else rxFrame p frame (fun s =>
      let x := s.port p
      if frSeq frame == x.expect && decide (x.rx.length + lostIn s (52 + p) < 32) then takeData p (Msg.unpack (frMsg frame)) s
      else sendNak p s) (sendNak p) s) s

/-- An ACK is due: 8 DATA frames taken since the last one, or 16 slots of 20 symbols at 28 GBd passed since one that is not
acknowledged (R248, R270). -/
def ackDue (s : State) (p : Nat) : Bool :=
  let x := s.port p
  decide (8 ≤ x.sinceAck) || (decide (0 < x.sinceAck) && decide (16 * 20 * 4 ≤ 28 * (s.time.now - x.ackFrom).toNat))

/-- ACK_TIMER. The receiver owes an ACK, which waits for its slot (R270). -/
def execAckTimer (p : Fin 4) (s : State) : Host.Outcome State Fault Refusal :=
  runClk (inState p .up fun s =>
    let x := s.port p
    if !ackDue s p then s else queueCtl p (ackFrame x) (s.setPort p { x with sinceAck := 0 })) s

/-- ACKTMO in ticks; a value of 0 acts as 1 (LNK_CTRL). -/
def ackTmo (s : State) (p : Nat) : Nat := 16 * max 1 (s.rd (Reg.LNK_CTRL_ACKTMO p))

/-- A replay starts at position k of the unacknowledged frames; too many in a row at one sequence take the port down
(R271, R272). -/
def startReplay (p k : Nat) (s : State) : State :=
  let x := s.port p
  match x.unacked[k]? with
  | none => s
  | some (q, _) =>
    let runs := if x.replayFrom == some q then x.replayRuns + 1 else 1
    let x := { x with replay := some k, replayFrom := some q, replayRuns := runs, progress := s.time.now }
    let s := (s.setPort p x).inc (Reg.LNK_ERR0_REPLAY p)
    if max 1 (s.rd (Reg.LNK_CTRL_REPLAYLIM p)) ≤ runs then downIfUp p 3 s else s

/-- The replay records of the n oldest frames are freed (R271). -/
def freeFrames (p n : Nat) (s : State) : State :=
  let x := s.port p
  match x.unacked[n - 1]? with
  | none => s
  | some (q, _) =>
    if n = 0 then s
    else
      let gone := (x.unacked.take n).map (·.1)
      let s := s.each (x.unacked.take n) fun e s => takenThere e.2 s
      let x := { x with
        unacked := x.unacked.drop n, acked := q, progress := s.time.now
        replay := match x.replay with
          | some k => if x.unacked.length ≤ n then none else some (k - n)
          | none => none }
      let x := match x.replayFrom with
        | some r => if gone.contains r then { x with replayFrom := none, replayRuns := 0 } else x
        | none => x
      s.setPort p x

/-- ACK. An acknowledgement within the unacknowledged sequences frees the records up to it (R271). -/
def execAck (p : Fin 4) (frame : LinkFrame) (s : State) : Host.Outcome State Fault Refusal :=
  runClk (fun s =>
    let frame := heard s p frame
    if frType frame ≠ 0 ∨ frOk frame = false then s
    else rxFrame p frame (fun s =>
      match (s.port p).unacked.findIdx? (·.1 == frSeq frame) with
      | some k => freeFrames p (k + 1) s
      | none => s) id s) s

/-- NAK. The records before its sequence are freed, and a replay starts there, unless one that began there has not yet
sent beyond it (R271). -/
def execNak (p : Fin 4) (frame : LinkFrame) (s : State) : Host.Outcome State Fault Refusal :=
  runClk (fun s =>
    let frame := heard s p frame
    if frType frame ≠ 2 ∨ frOk frame = false then s
    else rxFrame p frame (fun s =>
      let x := s.port p
      let e := frSeq frame
      match x.unacked.findIdx? (·.1 == e) with
      | some k =>
        let s := freeFrames p k s
        let x := s.port p
        let early := x.replayFrom == some e && (match x.replay with | some j => decide (j ≤ 1) | none => false)
        if early then s else startReplay p 0 s
      | none => if e == x.next then freeFrames p x.unacked.length s else s) id s) s

/-- NAK_TIMEOUT. The frame with sequence E has not been taken within the bound of the NAK, which is sent again (R269). -/
def execNakTimeout (p : Fin 4) (s : State) : Host.Outcome State Fault Refusal :=
  runClk (inState p .up fun s =>
    let x := s.port p
    match x.nak with
    | some t => if t.toNat + ackTmo s p ≤ s.t then sendNak p (s.setPort p { x with nak := none }) else s
    | none => s) s

/-- REPLAY_TIMEOUT. No ACK progress for the bound while frames are unacknowledged (R271). -/
def execReplayTimeout (p : Fin 4) (s : State) : Host.Outcome State Fault Refusal :=
  runClk (inState p .up fun s =>
    let x := s.port p
    if !x.unacked.isEmpty && decide (x.progress.toNat + ackTmo s p ≤ s.t) then startReplay p 0 s else s) s

/-- LINK_FRAME_REJECT. A frame of a reserved type, or one other than DATA that fails R254, is discarded and counted
(R253, R254, R285). A TRAIN frame of a peer still in CREDIT has nothing for a port in UP but its slot (R251, R261). -/
def execLinkFrameReject (p : Fin 4) (frame : LinkFrame) (s : State) : Host.Outcome State Fault Refusal :=
  runClk (fun s =>
    let frame := heard s p frame
    if frType frame = 1 ∨ (frOk frame = true ∧ frType frame < 6) then s
    else rxFrame p frame (fun s => if frType frame = 6 then s else s.inc (Reg.LNK_ERR2_BADTYPE p)) id s) s

/-- The outcome of one block enters the list of frames passed, in order with their checks (R259, R285). In CREDIT it only
counts, and a TRAIN frame of CREDIT ends there. -/
def decodeBlock (p : Nat) (f g : LinkFrame) (c1 c0 : Nat) (s : State) : State :=
  match rsDecode f g c1 c0 with
  | none => sendNak p (failFrame p (failFrame p (s.inc (Reg.LNK_ERR1_FECUE p))))
  | some (f, g, fixed) =>
    let s := if fixed then s.inc (Reg.LNK_ERR1_FECCE p) else s
    let put (f : LinkFrame) (s : State) : State :=
      inState p .up (fun s =>
        let x := s.port p
        let s := if frType f = 6 then s else s.setPort p { x with fec := x.fec ++ [f] }
        if frOk f then s.setPort p { s.port p with failRun := 0 } else failFrame p s) s
    put g (put f s)

/-- Slots descrambled one after the other, and the scramblers after them (R251). -/
def descramble : List LinkFrame → List (BitVec 31) → List LinkFrame × List (BitVec 31)
  | [], x => ([], x)
  | f :: l, x =>
    let (r, y) := descramble l (scrSlot x)
    (scramble x f :: r, y)

/-- FEC_BLOCK_DECODE. The parity slot of a group has arrived, in CREDIT or in UP; its 17 slots are descrambled, and its eight
blocks decoded (R251, R257 to R259). -/
def execFecBlockDecode (p : Fin 4) (frames : List LinkFrame) (parity : LinkFrame) (s : State) :
    Host.Outcome State Fault Refusal :=
  runWf (frames.length == 16) (fun s =>
    let x := s.port p
    let live (s : State) : Bool := (s.port p).st == .up || (s.port p).st == .credit
    if p.val < 2 || !live s || x.scrRx.isEmpty then s
    else
      let (l, y) := descramble (frames ++ [parity]) x.scrRx
      let s := s.setPort p { x with scrRx := y }
      s.each (List.range 8) fun b s =>
        let sym (k : Nat) : Nat := ((l.getD 16 0).extractLsb' (20 * b + k) 10).toNat
        if live s then decodeBlock p (l.getD (2 * b) 0) (l.getD (2 * b + 1) 0) (sym 10) (sym 0) s else s) s

-- reports (R287 to R289)

/-- A REPORT toward a die leaves on the usable port of its routing entry at ROUTE_VER (R287). DESIGN CHOICE (log entry 57):
without a usable port it is dropped, and of the sending die's four it counts as one. -/
def sendReport (target : BitVec 5) (payload : BitVec 128) (s : State) : State :=
  match portToward s target with
  | some q => queueCtl q (mkFrame 5 0 payload) s
  | none => s

/-- REPORT_SEND. A port that has gone down sends its next REPORT (R287). -/
def execReportSend (p : Fin 4) (s : State) : Host.Outcome State Fault Refusal :=
  runClk (fun s =>
    let x := s.port p
    if x.reports < 4 ∧ (x.reports = 0 ∨ x.lastReport.toNat + 256 ≤ s.t) then
      let peer := peerOf s p
      let payload := BitVec.ofNat 128 (peer.toNat + 2 ^ 5 * s.die.toNat + 2 ^ 10 * p.val + 2 ^ 12 * x.lastRx.toNat
        + 2 ^ 20 * b2n x.lastNone)
      sendReport peer payload (s.setPort p { x with reports := x.reports + 1, lastReport := s.time.now })
    else s) s

/-- REPORT. A report for another die is forwarded; one that names a port of this die takes it down when it is UP, and
resolves it (R285, R287, R288). -/
def execReport (p : Fin 4) (frame : LinkFrame) (s : State) : Host.Outcome State Fault Refusal :=
  runClk (fun s =>
    let frame := heard s p frame
    if frType frame ≠ 5 ∨ frOk frame = false then s
    else rxFrame p frame (fun s =>
      let m := frMsg frame
      let target : BitVec 5 := m.extractLsb' 0 5
      if target != s.die then sendReport target m s
      else
        let named := [0, 1, 2, 3].filter fun q =>
          peerOf s q == m.extractLsb' 5 5 && s.rd (Reg.LNK_PEER_PEERPORT q) == (m.extractLsb' 10 2).toNat
            && (s.port q).everUp
        s.each named fun q s => resolveWith q (m.extractLsb' 12 8) (m.getLsbD 20) (downIfUp q 4 s)) id s) s

/-- REPORT_TIMEOUT. Nothing has resolved the port within RPTTMO (R289). -/
def execReportTimeout (p : Fin 4) (s : State) : Host.Outcome State Fault Refusal :=
  runClk (fun s =>
    let x := s.port p
    if x.resolving && !x.entered && decide (x.downAt.toNat + 256 * max 1 (s.rd (Reg.LNK_CTRL_RPTTMO p)) ≤ s.t) then
      resolve p x.acked true s
    else s) s

/-- SETTLE_EXPIRE. SETTLE has passed since input 21 forwarded the last frame: the held messages are routed again, and
RESOLVING clears (R288). -/
def execSettleExpire (p : Fin 4) (s : State) : Host.Outcome State Fault Refusal :=
  runClk (fun s =>
    let x := s.port p
    match x.resolving, x.resolved with
    | true, some t =>
      if t.toNat + 256 * s.rd (Reg.LNK_CTRL_SETTLE p) ≤ s.t then
        let s := s.setPort p { x with resolving := false, entered := false, resolved := none }
        pumpAll (reroute (· == .held p) s)
      else s
    | _, _ => s) s

/-- A port as after a die reset: OFF, sequences, credits and replay buffers cleared (R292). -/
def resetPort (p : Nat) (s : State) : State :=
  let x := s.port p
  let idle := match x.st with
    | .off | .down => x.idleFrom
    | _ => some s.time.now
  s.setPort p { ({} : PortS) with idleFrom := idle }

-- the crevasse audit (R293, R294)

/-- The entries of free list l that are held, reserved or found lost, and its size (R293). -/
def auditUsed (s : State) (l : Nat) : Nat × Nat :=
  if l < 24 then (bufUsed s (bufKey l .g), 32)
  else if l < 48 then (bufUsed s (bufKey (l - 24) .f), 32)
  else if l < 52 then ((s.port (l - 48)).tx.length + lostIn s l, 16)
  else if l < 56 then ((s.port (l - 52)).rx.length + lostIn s l, 32)
  else ((s.port (l - 56)).unacked.length + lostIn s l, 256)

/-- The entry at a position of the pass can be neither free nor held: the last pass found it so, or its list has an entry
that nothing holds (R294). -/
def mayLeak (s : State) (pos : Nat) : Bool :=
  s.audit.found.contains pos || decide ((auditUsed s (auditAt pos).1).1 < (auditUsed s (auditAt pos).1).2)

/-- AUDIT_VISIT. The audit visits its next entry; lost says that the entry is neither free nor held: until it is reclaimed,
it is an entry less of its list. One found so on two passes in a row returns to the free list and is reported (R293,
R294). -/
def execAuditVisit (lost : Bool) (s : State) : Host.Outcome State Fault Refusal :=
  runClk (fun s =>
    if !s.flag Reg.AUDIT_CTRL_EN then s
    else
      let a := s.audit
      let (l, e) := auditAt a.pos
      let lost := lost && mayLeak s a.pos
      let leak := lost && a.found.contains a.pos
      let rest := a.found.filter (· != a.pos)
      let found := if lost && !leak then rest ++ [a.pos] else rest
      let wrap := decide (2752 ≤ a.pos + 1)
      let s := { s with audit := { pos := if wrap then 0 else a.pos + 1, found := found } }
      let s := if leak then raiseInt 5121 (l + 256 * e) ((s.inc Reg.AUDIT_STAT_LEAKS).wr Reg.AUDIT_STAT_LASTLIST l) else s
      if wrap then s.inc Reg.AUDIT_STAT_PASSES else s) s

end Sys2Proof.Machine
end

