-- ==== Sys2Proof/Machine/Barrier.lean ====
section
/-! DEFINITION. The isolation barrier: frames, credit, the states of its two sides, and field die 0's part of host-bound
delivery (R367 to R388). -/

namespace Sys2Proof.Machine

-- sides

/-- The barrier side of field die 0 or of the host gate. -/
def barOf (d : Side) (s : State) : BarS := match d with | .field => s.bar | .host => s.gate.bar
def setBar (d : Side) (b : BarS) (s : State) : State :=
  match d with
  | .field => { s with bar := b }
  | .host => { s with gate := { s.gate with bar := b } }

/-- The time by which a side keeps its timers: system time, or the ticks of the host gate's own clock, since the gate's
copy of time serves timestamps alone (R188). -/
def clk (d : Side) (s : State) : Tick := match d with | .field => s.time.now | .host => s.gate.clk

/-- The side exists, since the barrier joins the host gate to field die 0, and is clocked (R367). -/
def hasSide (d : Side) (s : State) : Bool := d == .host || (s.isDie0 && clocked s)

/-- Field lo to lo + w − 1 of a payload. -/
def pf (p : BitVec 128) (lo w : Nat) : Nat := (p.extractLsb' lo w).toNat

/-- A payload given as a number. -/
def pay (n : Nat) : BitVec 128 := BitVec.ofNat 128 n

/-- The CRC of frame bits [151:16] (R254, R369). -/
def barCrc (f : BarFrame) : BitVec 16 :=
  BitVec.ofNat 16 ((List.range 136).foldl (fun c k => crc16Step c (f.getLsbD (151 - k))) 0xFFFF)

/-- A frame of a type and payload (R369). -/
def barFrame (typ : BitVec 8) (p : BitVec 128) : BarFrame :=
  let f : BarFrame := typ ++ p ++ (0 : BitVec 16)
  f ||| (barCrc f).zeroExtend 152

/-- One data bit through the scrambler x^58 + x^39 + 1 (R370). -/
def scr58Step (x : BitVec 58) (b : Bool) : BitVec 58 :=
  (x <<< 1) ||| (BitVec.ofBool ((x.getLsbD 57 != x.getLsbD 38) != b)).zeroExtend 58

/-- The scrambled bits of one block of a lane, first bit highest (R369, R370). -/
def scrBits (x : BitVec 58) (d : BitVec 38) : BitVec 38 :=
  ((List.range 38).foldl (fun (a : BitVec 38 × BitVec 58) i =>
    let y := scr58Step a.2 (d.getLsbD (37 - i))
    ((a.1 <<< 1) ||| (BitVec.ofBool (y.getLsbD 0)).zeroExtend 38, y)) (0, x)).1

/-- The blocks of the four lanes: header 0b10 and the bits of a frame, or header 0b01 and no bits (R369). Headers are not
scrambled (R370). -/
def barBlocks (l : List (BitVec 58)) (f : Option BarFrame) : List (BitVec 40) :=
  let header : BitVec 2 := if f.isSome then 2 else 1
  [0, 1, 2, 3].map fun k => header ++ scrBits (l.getD k 0) ((f.getD 0).extractLsb' (38 * k) 38)

/-- The scramblers of the four lanes after a block (R369, R370). -/
def scrBlock (l : List (BitVec 58)) (f : BarFrame) : List (BitVec 58) :=
  [0, 1, 2, 3].map fun k => (List.range 38).foldl (fun x i => scr58Step x (f.getLsbD (38 * k + 37 - i))) (l.getD k 0)

/-- The types that consume receive credit (R373). -/
def credited (typ : BitVec 8) : Bool := !(typ == 0x01 || typ == 0x0A || typ == 0x0B || typ == 0x14)

/-- The types that a side may send (R372, R373). -/
def sends (d : Side) (typ : BitVec 8) : Bool :=
  let both : List (BitVec 8) := [0x01, 0x14, 0x15, 0x16]
  let mine : List (BitVec 8) := match d with
    | .field => [0x03, 0x05, 0x09, 0x0A, 0x0C, 0x0D, 0x0E, 0x10, 0x12]
    | .host => [0x02, 0x04, 0x06, 0x07, 0x08, 0x0B, 0x0F, 0x11, 0x13, 0x17, 0x18]
  both.contains typ || mine.contains typ

/-- A control frame of a side is ready to send while its barrier is UP (R378). -/
def barQueue (d : Side) (typ : BitVec 8) (p : BitVec 128) (s : State) : State :=
  let b := barOf d s
  if b.st != .up then s
  else if typ == 0x14 || typ == 0x0B then setBar d { b with urgent := b.urgent ++ [(typ, p)] } s
  else setBar d { b with ctl := b.ctl ++ [(typ, p)] } s

-- reception

/-- Entries that waited for input 20 are free once their tokens have entered it (R376, R379). -/
def drainEntries (d : Side) (s : State) : State :=
  let b := barOf d s
  let wait := match d with | .field => !s.xb.barHold.isEmpty | .host => !s.gate.held.isEmpty
  if wait || b.rxUsed = 0 then s
  else setBar d { b with freed := b.freed + b.rxUsed, rxUsed := 0 } s

/-- A frame that passed its CRC arrives at a side in UP; a credited one takes an entry of the receive buffer until it has
been handled (R376). -/
def rxBar (d : Side) (typ : BitVec 8) (f : State → State) (s : State) : State :=
  let b := barOf d s
  if b.st != .up || !hasSide d s then s
  else
    let used := if credited typ then b.rxUsed + 1 else b.rxUsed
    drainEntries d (f (setBar d { b with lastRx := clk d s, failRun := 0, rxUsed := used } s))

/-- BAR_CTRL.DTMO and RTMO in ticks; a value of 0 acts as 1. -/
def dtmo (s : State) : Nat := 256 * max 1 (s.rd Reg.BAR_CTRL_DTMO)
def rtmo (s : State) : Nat := 256 * max 1 (s.rd Reg.BAR_CTRL_RTMO)

-- field die 0: reports (R379, R380, R388)

/-- The index, among the host-bound custody records of field die 0, that a tag names while its record is live (R374,
R379). -/
def tagRec (s : State) (tag : Nat) : Option (Nat × FirnRec) :=
  let k := tag % 2 ^ 14
  match s.recOf k with
  | some c => if c.kind == .custody && c.place == 128 && !c.done && c.gen == bit tag 14 then some (k, c) else none
  | none => none

/-- SLICE_DRAINED follows the last report that a stop waits for (R388). -/
def stopReported (k : Nat) (s : State) : State :=
  let hit := s.hostq.stops.filter fun x => x.2.1.contains k
  let stops := s.hostq.stops.map fun x => (x.1, x.2.1.erase k, x.2.2)
  let s := { s with hostq := { s.hostq with stops := stops } }
  s.each hit fun x s => if x.2.1.erase k == [] then barQueue .field 0x12 (pay (x.1 + 2 ^ 16 * (x.2.2 % 2 ^ 16))) s else s

/-- A tag is reported: its replica completes (R304, R379). -/
def reportTag (tag : Nat) (discarded : Bool) (s : State) : State :=
  match tagRec s tag with
  | none => s
  | some (k, c) =>
    let sl := c.msg.epoch.toNat
    let h := s.hostq
    let q := tset [] h.queue sl ((tget [] h.queue sl).erase k)
    let s := { s with hostq := { h with unrep := h.unrep.erase k, queue := q, live := h.live.erase k } }
    let s := if discarded then s.inc Reg.BAR_DISC_DISC else s
    completeHost k c (stopReported k s)

/-- The eight 16-bit entries of a payload that are valid, in order (R373). -/
def entries (p : BitVec 128) : List Nat :=
  (List.range 8).filterMap fun k => if p.getLsbD (16 * k + 15) then some (pf p (16 * k) 15) else none

/-- The slice of a host-bound record (R103). -/
def sliceOf (s : State) (k : Nat) : Option Nat := (s.recOf k).map (·.msg.epoch.toNat)

/-- The host-bound records of a slice without a report, in queue order. -/
def liveOf (s : State) (sl : Nat) : List Nat := s.hostq.live.filter fun k => sliceOf s k == some sl

/-- The records of a list by slice (R377). -/
def bySlice (s : State) (l : List Nat) : Tbl (List Nat) :=
  l.foldl (fun t k => match sliceOf s k with
    | some sl => tset [] t sl (tget [] t sl ++ [k])
    | none => t) []

/-- A record that is to be sent again waits at its place in the order of its slice (R378, R380). -/
def queueAgain (k : Nat) (s : State) : State :=
  match s.recOf k with
  | none => s
  | some c =>
    let sl := c.msg.epoch.toNat
    let late := s.hostq.live.drop ((s.hostq.live.findIdx? (· == k)).getD s.hostq.live.length)
    let (front, back) := (tget [] s.hostq.queue sl).partition fun x => !late.contains x
    let s := s.setRec k (some { c with pendAgain := some false })
    { s with hostq := { s.hostq with queue := tset [] s.hostq.queue sl (front ++ k :: back) } }

/-- After a down, every host-bound record is queued again slice by slice, in queue order; one that was sent is to be sent again,
flagged when the peer has been reset since; one that was sent and is poisoned is lost (R302, R385, R475). -/
def resendHost (s : State) : State :=
  let gen := s.bar.peerGen
  let mark (k : Nat) (s : State) : State :=
    match s.recOf k with
    | none => s
    | some c =>
      if c.sent.isNone then s
      else if c.poisoned then s.inc Reg.FIRN_ERR_LOST
      else s.setRec k (some { c with pendAgain := some !(c.sentGen == gen && gen != some 0) })
  let whole (k : Nat) : Bool := match s.recOf k with | some c => c.sent.isNone || !c.poisoned | none => true
  let live := s.hostq.live.filter whole
  let t := s.each s.hostq.live mark
  { t with hostq := { t.hostq with queue := bySlice s live, live := live, unrep := [] } }

/-- FIELD_STATE goes to the host gate (R373, R375). -/
def sendFieldState (s : State) : State :=
  if !s.isDie0 then s
  else
    let g := (Config.fieldGen s.su.gens).toNat
    barQueue .field 0x03 (pay (b2n s.su.open_ + 2 * b2n (s.flag Reg.TIME_STAT_ALOST) + 2 ^ 8 * g)) s

/-- A slice may send a record of its queue: its stop allows those it waits for alone (R388). -/
def stopAllows (s : State) (sl k : Nat) : Bool :=
  match s.hostq.stops.find? (·.1 == sl) with
  | some x => x.2.1.contains k
  | none => true

/-- The slices whose next record can be sent, with its index and class (R377, R384). -/
def readySlices (s : State) : List (Nat × Nat × Cls) :=
  if s.bar.st != .up || !s.bar.run || s.bar.credit = 0 then []
  else s.hostq.queue.filterMap fun e => match e.2 with
    | k :: _ =>
      if tget 0 s.hostq.credit e.1 = 0 || !stopAllows s e.1 k then none
      else (s.recOf k).map fun c => (e.1, k, c.msg.cls)
    | [] => none

/-- The slice that sends next: one with a class F record, else in rotation (R378). -/
def nextSlice (s : State) : Option (Nat × Nat × Cls) :=
  let l := readySlices s
  let fs := l.filter (·.2.2 == .f)
  best (fun a b => decide ((a.1 + 256 - s.hostq.rot) % 256 < (b.1 + 256 - s.hostq.rot) % 256)) (if fs.isEmpty then l else fs)

/-- The EVENT frame of a custody record (R374). -/
def eventPayload (k : Nat) (c : FirnRec) : BitVec 128 :=
  let m := { c.msg with dest := BitVec.ofNat 12 k, rver := BitVec.ofNat 3 (k / 2 ^ 12 + 4 * b2n c.gen) }
  m.pack

/-- A frame leaves a side (R369, R376). -/
def sendBar (d : Side) (typ : BitVec 8) (p : BitVec 128) (s : State) : State :=
  let b := barOf d s
  let f := barFrame typ p
  let t := { b with
    credit := if credited typ then b.credit - 1 else b.credit, sent := b.sent + 1, scr := scrBlock b.scr f }
  (setBar d t s).emit (.bar d (barBlocks b.scr (some f)))

/-- The idle blocks that the lanes of a side send when no frame is ready (R369, R375). -/
def sendIdle (d : Side) (s : State) : State :=
  let b := barOf d s
  if hasSide d s then (setBar d { b with scr := scrBlock b.scr 0 } s).emit (.bar d (barBlocks b.scr none)) else s

/-- A record has been sent for the first time: a stop of its slice counts it (R373; log entry 68). -/
def countStop (sl : Nat) (l : List (Nat × List Nat × Nat)) : List (Nat × List Nat × Nat) :=
  l.map fun x => if x.1 == sl then (x.1, x.2.1, x.2.2 + 1) else x

/-- A record after its EVENT has left: one that is sent again is counted, or flagged and counted (R380, R385). -/
def noteSent (k : Nat) (c : FirnRec) (s : State) : State :=
  let c := { c with
    msg := if c.pendAgain == some true then c.msg.flag else c.msg
    sent := some s.time.now, sentGen := s.bar.peerGen, pendAgain := none }
  s.setRec k (some c)

/-- The next EVENT leaves (R377). -/
def sendEvent (x : Nat × Nat × Cls) (s : State) : State :=
  let (sl, k, _) := x
  match s.recOf k with
  | some c =>
    let h := s.hostq
    let h := { h with queue := tset [] h.queue sl ((tget [] h.queue sl).drop 1), unrep := h.unrep ++ [k]
                      credit := tset 0 h.credit sl (tget 0 h.credit sl - 1), rot := (sl + 1) % 256
                      stops := if c.sent.isNone then countStop sl h.stops else h.stops }
    let s := noteSent k c { s with hostq := h }
    let s := match c.pendAgain with
      | some true => s.inc Reg.BAR_RES_FLAGGED
      | some false => s.inc Reg.BAR_RES_RESENT
      | none => s
    sendBar .field 0x05 (eventPayload k { c with msg := if c.pendAgain == some true then c.msg.flag else c.msg }) s
  | none => s

-- field die 0: up and down

/-- Field die 0 enters UP (R375, R376, R381, R387). -/
def fieldUp (gen : BitVec 8) (s : State) : State :=
  let b := s.bar
  let changed := b.lastGen != gen
  let b := { b with st := .up, credit := 16, rxUsed := 0, freed := 0, urgent := [], ctl := [], peerGen := some gen, run := false,
                    owe := true, lastRx := s.time.now, lastRxcred := s.time.now, lastGen := gen, failRun := 0 }
  let acc := if changed then { s.acc with vres := [] } else s.acc
  let time := { s.time with barStep := true, barT1 := none }
  let s := { s with bar := b, acc := acc, time := time, hostq := { s.hostq with credit := [], stops := [] } }
  sendFieldState s

/-- Field die 0 leaves UP with a cause (R383, R384, R388). -/
def fieldDown (cause : Nat) (s : State) : State :=
  let b := s.bar
  let gen := match b.peerGen with | some g => g.toNat | none => 0
  let b := { b with st := .down, stuck := b.stuck || cause == 5, urgent := [], ctl := [], run := false }
  let s := { s with bar := b, hostq := { s.hostq with credit := [], stops := [] }, time := { s.time with barT1 := none } }
  let s := (s.wr Reg.BAR_STAT_CAUSE cause).inc Reg.BAR_ERR_DOWNS
  raiseInt 5147 (cause + 2 ^ 8 * gen) s

/-- A side in DOWN with its lanes locked enters HELLO (R375). -/
def tryHello (d : Side) (s : State) : State :=
  let b := barOf d s
  let en := match d with | .field => s.isDie0 && s.flag Reg.BAR_CTRL_EN | .host => true
  if b.st == .down && en && b.locked == 0xF then setBar d { b with st := .hello, lastHello := 0 } s else s

/-- BAR_CTRL.EN has been written. EN at 0 frees both sides of a barrier that cause 5 holds, since only field die 0 has the
bit (R375, R383; log entry 68). -/
def barEnWritten (s : State) : State :=
  if s.flag Reg.BAR_CTRL_EN then tryHello .field s
  else
    let s := if s.bar.st == .up then fieldDown 0 s else s
    { s with
      bar := { s.bar with st := .down, stuck := false, urgent := [], ctl := [] }
      gate := { s.gate with bar := { s.gate.bar with stuck := s.gate.bar.stuck && !s.isDie0 } } }

-- field die 0: the frames it takes

/-- CREDIT. Slice credit grows by each entry (R377). -/
def execCredit (p : BitVec 128) (s : State) : Host.Outcome State Fault Refusal :=
  run (rxBar .field 0x04 fun s =>
    s.each (entries p) fun e s =>
      let sl := e % 256
      { s with hostq := { s.hostq with credit := tset 0 s.hostq.credit sl (tget 0 s.hostq.credit sl + e / 256) } }) s

/-- WRITTEN. Each entry completes the replica of a live host-bound record (R379). -/
def execWritten (p : BitVec 128) (s : State) : Host.Outcome State Fault Refusal :=
  run (rxBar .field 0x06 fun s => s.each (entries p) fun e s => reportTag e false s) s

/-- DISCARDED. As WRITTEN, for events completed without a ring record (R379). -/
def execDiscarded (p : BitVec 128) (s : State) : Host.Outcome State Fault Refusal :=
  run (rxBar .field 0x07 fun s => s.each (entries p) fun e s => reportTag e true s) s

/-- GATE_STATE. RUN of the host gate; the first RUN = 1 of an UP period sends the records of the last one again. At RUN = 0
neither VRESULT nor THAW is sent (R375, R384, R385). -/
def execGateState (p : BitVec 128) (s : State) : Host.Outcome State Fault Refusal :=
  run (rxBar .field 0x02 fun s =>
    let on := p.getLsbD 0
    let ctl := if on then s.bar.ctl else s.bar.ctl.filter fun x => !(x.1 == 0x09 || x.1 == 0x0D)
    let s := { s with bar := { s.bar with run := on, ctl := ctl } }
    if on && s.bar.owe then resendHost { s with bar := { s.bar with owe := false } } else s) s

/-- VWRITE. A tenant's vector write goes to the message-write port; a repeat is answered from the stored result (R60,
R381). -/
def execVwrite (p : BitVec 128) (s : State) : Host.Outcome State Fault Refusal :=
  run (rxBar .field 0x08 fun s =>
    let slot : Fin 32 := Fin.ofNat 32 (pf p 28 5)
    let g := p.getLsbD 33
    match tget none s.acc.vres slot.val with
    | some v =>
      if v.gen == g then
        match v.result with
        | some (refused, reason) => barCtl 0x09 (vresultBits slot.val g refused reason) (s.inc Reg.BAR_DISC_VWDUP)
        | none => s.inc Reg.BAR_DISC_VWDUP
      else new slot g p s
    | none => new slot g p s) s
where
  /-- A new write of a slot. -/
  new (slot : Fin 32) (g : Bool) (p : BitVec 128) (s : State) : State :=
    let s := { s with acc := { s.acc with vres := tset none s.acc.vres slot.val (some { gen := g, result := none }) } }
    portWrite (.barrier slot) (p.extractLsb' 0 12) (p.extractLsb' 12 16) s

/-- SLICE_STOP. The records of the slice held now are still sent, and SLICE_DRAINED follows their reports (R388). -/
def execSliceStop (p : BitVec 128) (s : State) : Host.Outcome State Fault Refusal :=
  run (rxBar .field 0x11 fun s =>
    let sl := pf p 0 8
    let all := liveOf s sl
    let stops := s.hostq.stops.filter (·.1 != sl) ++ [(sl, all, 0)]
    let s := { s with hostq := { s.hostq with stops := stops } }
    if all.isEmpty then barQueue .field 0x12 (pay sl) s else s) s

/-- SLICE_GO. The records held for the slice may be sent (R388). -/
def execSliceGo (p : BitVec 128) (s : State) : Host.Outcome State Fault Refusal :=
  run (rxBar .field 0x13 fun s =>
    { s with hostq := { s.hostq with stops := s.hostq.stops.filter (·.1 != pf p 0 8) } }) s

/-- BAR_SYNC_RSP. Field die 0 computes how far its time leads the host gate's copy and sends it as TIME_TRIM, whose first
in an UP period is a step (R183, R188, R387). -/
def execBarSyncRsp (p : BitVec 128) (s : State) : Host.Outcome State Fault Refusal :=
  run (rxBar .field 0x0B fun s =>
    match s.time.barT1 with
    | none => s
    | some t1 =>
      let t2 : Int := pf p 0 64
      let t3 : Int := pf p 64 64
      let lead := (((s.t / 2 * 2 : Nat) : Int) - t3 - (t2 - t1.toNat)) / 2
      let step := s.time.barStep
      let s := { s with time := { s.time with barT1 := none, barStep := false } }
      barQueue .field 0x0C (pay (ofSgn 64 lead + 2 ^ 64 * b2n step)) s) s

/-- BAR_EVENT_REPEAT. The EVENT sent longest ago has had no report for RTMO, and is sent again (R380). -/
def execBarEventRepeat (s : State) : Host.Outcome State Fault Refusal :=
  run (fun s =>
    let late (k : Nat) : Bool := match s.recOf k with
      | some c => match c.sent with | some t => decide (t.toNat + rtmo s ≤ s.t) | none => false
      | none => false
    if s.bar.st != .up || !s.bar.run then s
    else match takeFirst late s.hostq.unrep with
      | none => s
      | some (k, rest) => queueAgain k { s with hostq := { s.hostq with unrep := rest } }) s

end Sys2Proof.Machine
end

