-- ==== Sys2Proof/Machine/Lanes.lean ====
section
/-! DEFINITION. Lanes of the region queues and the delivery ports that empty them: the order of a lane, admission, and
the requests and beats of a delivery port (R96, R113, R114, R138, R146, R147, R233). -/

namespace Sys2Proof.Machine

/-- The stamp that gives an event its place in line: its own, or that of the event it has replaced (R96, R147). -/
def lineTs (m : Msg) : Nat := (m.rank.getD m.ts).toNat

/-- The delivery order at a core: priority, older stamp, origin, source (R147). -/
def presentBefore (a b : Msg) : Bool :=
  decide (a.prio.toNat < b.prio.toNat) || (a.prio == b.prio &&
    (after 32 (lineTs b) (lineTs a) || (!after 32 (lineTs a) (lineTs b) &&
      (decide (a.origin.toNat < b.origin.toNat) || (a.origin == b.origin && decide (a.source.toNat < b.source.toNat))))))

/-- A newer class S event takes the place of an older one of its stream, in line too (R96). -/
def replaceS (old new : Msg) : Msg :=
  { old with seq := new.seq, ts := new.ts, epoch := new.epoch, payload := new.payload, rank := some (old.rank.getD old.ts) }

/-- Event m replaces the waiting event x: both are of class S and of one stream (R94, R96). -/
def replaces (m x : Msg) : Bool := m.cls == .s && x.cls == .s && x.sameStream m && m.isEvent && x.isEvent

/-- An event enters a list, replacing an older class S event of its stream; the second component says that it has
replaced one (R96). -/
def enterOrReplace (m : Msg) (l : List Msg) : List Msg × Bool :=
  if l.any (replaces m) then (modFirst (replaces m) (fun x => replaceS x m) l, true) else (l ++ [m], false)

/-- A migration blocks the stream of a message at unit u (R319). -/
def streamBlocked (s : State) (u : Nat) (m : Msg) : Bool :=
  s.rq.blocked.any fun b => b.u == u && b.origin == m.origin && b.source == m.source

/-- An older event of m's stream stands in the list. -/
def overtakes (l : List Msg) (m : Msg) : Bool :=
  m.isEvent && l.any fun x => x.isEvent && x.sameStream m && after 24 m.seq.toNat x.seq.toNat

/-- The message at the head of a lane: a core's lane in delivery order, a Campion's in arrival order (R113, R147). DEDUCED
(log entry 50): no event of a core's lane overtakes an older one of its stream, whatever their priorities (R98). -/
def laneHead (u : Nat) (l : List Msg) : Option Msg :=
  if u < 64 then best presentBefore (l.filter (!overtakes l ·)) else l.head?

/-- Entries that a core's pending set holds or that the crossing toward it carries (R146). -/
def pendUsed (s : State) (n : Nat) : Nat :=
  let c := s.coreOf n
  c.pend.length + c.taken.length + ((s.toClus (n / 4)).filter fun x => x.1 == n).length

/-- The pending set of core u and the crossing toward its cluster, or Campion u's queue, admit one more event of class c
beside extra others (R33, R113, R146). -/
def admits (s : State) (u : Nat) (c : Cls) (extra : Nat) : Bool :=
  if u < 64 then
    decide (pendUsed s u + extra + (if c == .f then 1 else 3) ≤ 16) && decide ((s.toClus (u / 4)).length + extra < 16)
  else decide ((s.campOf (u - 64)).q.length + extra + (if c == .f then 1 else 2) ≤ 4)

/-- The messages of a transfer from a lane, at most n: those at its head that would be admitted (R233). A fence token or
a stream blocked at a Campion holds the lane (R309, R319). -/
def laneRun (s : State) (u : Nat) : Nat → Nat → List Msg → List Msg
  | 0, _, _ => []
  | n + 1, extra, l =>
    match laneHead u l with
    | none => []
    | some m =>
      if m.typ == 0x14 || (decide (64 ≤ u) && streamBlocked s u m) || !admits s u m.cls extra then []
      else m :: laneRun s u n (extra + 1) (l.erase m)

/-- The unit of requester j of delivery port k (R233). -/
def portUnit (k j : Nat) : Nat := if j < 4 then 4 * k + j else 64 + 4 * k + (j - 4)

/-- Unit u and its region queue are powered. -/
def unitOn (s : State) (u : Nat) : Bool := s.on (unitDom s u) && s.on (16 + u % 64 / 16)

/-- The requests at delivery port k (R233). -/
def clusReqs (k : Nat) (s : State) : List ArbReq :=
  (List.range 8).filterMap fun j =>
    let u := portUnit k j
    let t := laneRun s u 4 0 (s.lane u)
    if unitOn s u && !t.isEmpty then some ⟨j, t.length, match t.head? with | some m => m.cls == .f | none => false⟩
    else none

/-- An event enters a Campion's queue. It replaces the last class S event of its stream there: one that a pre-emption has
put back ahead of another keeps its place before both (R96, R98, R113). -/
def campEnqueue (n : Nat) (m : Msg) (s : State) : State :=
  let c := s.campOf n
  let same (e : QEntry) : Bool := replaces m e.msg
  if c.q.any same then
    coalesce m.source.toNat
      (s.setCamp n { c with q := (modFirst same (fun e => { e with msg := replaceS e.msg m }) c.q.reverse).reverse })
  else s.setCamp n { c with q := c.q ++ [⟨m, 0⟩] }

/-- One beat of delivery port k for requester j: the head of the lane leaves it while it is admitted, for the crossing to
the cluster or the Campion's queue (R112, R146, R233). -/
def clusBeat (k j : Nat) (s : State) : State :=
  let u := portUnit k j
  match (laneRun s u 1 0 (s.lane u)).head? with
  | none => s
  | some m =>
    let s := s.setLane u ((s.lane u).erase m)
    if u < 64 then s.setToClus k (s.toClus k ++ [(u, m)]) else campEnqueue (u - 64) m s

/-- The events of a list in sequence order of one stream (R310, R319). -/
def inSeq (l : List Msg) : List Msg :=
  l.foldl (fun acc m =>
    let before := acc.takeWhile fun x => !after 24 x.seq.toNat m.seq.toNat
    before ++ m :: acc.drop before.length) []

/-- The events of a stream that wait in unit u's lane or pending set leave for target b through the region return, in
sequence order (R319). -/
def moveOut (u : Nat) (origin : BitVec 5) (source : BitVec 13) (b : BitVec 12) (s : State) : State :=
  let mine (m : Msg) : Bool := m.isEvent && m.origin == origin && m.source == source
  let c := s.coreOf u
  let ms := (s.lane u).filter mine ++ (if u < 64 then c.pend.filter mine else [])
  let s := s.setLane u ((s.lane u).filter (!mine ·))
  let s := if u < 64 then s.setCore u { c with pend := c.pend.filter (!mine ·) } else s
  let r := u % 64 / 16
  let ms := inSeq ms
  let s := s.each ms fun m s => (match custodyAt s u m with
    | some (k, c) => s.setRec k (some { c with moved := some b })
    | none => s)
  let out := ms.map fun m => { m with dest := b }
  { s with xb := { s.xb with retHold := tset [] s.xb.retHold r (tget [] s.xb.retHold r ++ out) } }

/-- The streams redirected from unit u send what has come back to it to their new targets (R319). -/
def moveRedirected (u : Nat) (s : State) : State :=
  let s := s.each (s.rq.redirect.filter (·.u == u)) fun x s => moveOut u x.origin x.source x.target s
  pumpRet (u % 64 / 16) s

end Sys2Proof.Machine
end

