-- ==== Sys2Proof/Machine/Delivery.lean ====
section
/-! DEFINITION. Delivery to cores: pending sets, offers, claims and completions, the vector caches and Snowdrop
pre-warm (R146 to R171). The commands that come as register writes stand in Machine/Commands.lean. -/

namespace Sys2Proof.Machine

-- depth, eligibility, offer

/-- The core's taken and active events (R148). -/
def CoreS.held (c : CoreS) : List Msg := c.taken ++ c.active

/-- The running priority, 32 at depth 0 (R148). -/
def runPrio (c : CoreS) : Nat := (c.held.map fun m => m.prio.toNat).foldl min 32

/-- An event of the set is blocked at core n (R149, R319). -/
def blockedAt (s : State) (n : Nat) (m : Msg) : Bool :=
  let c := s.coreOf n
  c.held.any (·.sameStream m) || c.pend.any (fun x => x.sameStream m && after 24 m.seq.toNat x.seq.toNat)
    || streamBlocked s n m

/-- A pending event is eligible for an offer (R148, THRESH). -/
def eligibleAt (s : State) (n : Nat) (m : Msg) : Bool :=
  let c := s.coreOf n
  decide (m.prio.toNat < s.rd (Reg.THRESH_LEVEL n)) && decide (m.prio.toNat < runPrio c)
    && decide (c.held.length < 8) && !blockedAt s n m

/-- The first eligible event of core n (R147, R150). -/
def firstEligible (s : State) (n : Nat) : Option Msg := best presentBefore ((s.coreOf n).pend.filter (eligibleAt s n))

/-- The cached line of a source in cluster k. -/
def cached (s : State) (k : Nat) (src : BitVec 13) : Option Line := (s.clusOf k).lines.find? (·.src == src)

/-- The time unit of cluster k, region r and the crossbar is loaded (R176). -/
def unitLoaded (s : State) (i : Nat) : Bool := tget false s.time.units i

/-- What the fabric offers core n: cif_irq is 1 while this is some, cif_entry and cif_ctx carry the line (R150, R171,
R176). -/
def offered (s : State) (n : Nat) : Option (Msg × Line) :=
  let c := s.coreOf n
  if c.halt || c.irqLow || !s.on (n / 4) || !unitLoaded s (5 + n / 4) then none
  else (firstEligible s n).bind fun m => (cached s (n / 4) m.source).map fun l => (m, l)

-- the vector cache

/-- A predictor is enabled (R160). -/
def predEnabled (s : State) (n i : Nat) : Bool := s.flag (Reg.PREWARM_EN n) && s.flag (Reg.PW_SRC_EN n i)
/-- A predictor is pinned (R164). -/
def predPinned (s : State) (n i : Nat) : Bool := predEnabled s n i && s.flag (Reg.PW_SRC_PIN n i)
/-- The source of a predictor. -/
def predSrc (s : State) (n i : Nat) : BitVec 13 := BitVec.ofNat 13 (s.rd (Reg.PW_SRC_SOURCE n i))

/-- The sources whose lines core n pins (R157, R161, R164). -/
def pinsOf (s : State) (n : Nat) : List (BitVec 13) :=
  ([0, 1].filter fun i => predPinned s n i || (s.predOf n i).warm).map (predSrc s n)

/-- A line of cluster k is pinned. -/
def pinned (s : State) (k : Nat) (src : BitVec 13) : Bool :=
  (List.range 4).any fun j => (pinsOf s (4 * k + j)).contains src

/-- A line becomes the most recently used (R157). DESIGN CHOICE (log entry 52): a line is used at a fill, an admission and
a take. -/
def touchLine (k : Nat) (src : BitVec 13) (s : State) : State :=
  let c := s.clusOf k
  match takeFirst (fun (l : Line) => l.src == src) c.lines with
  | some (l, rest) => s.setClus k { c with lines := l :: rest }
  | none => s

/-- The lines with the last unpinned one taken away (R157). -/
def evict (s : State) (k : Nat) (l : List Line) : List Line :=
  match takeFirst (fun (x : Line) => !pinned s k x.src) l.reverse with
  | some (_, rest) => rest.reverse
  | none => l

/-- A line enters the cache of 32 (R157, R158). -/
def fillLine (k : Nat) (l : Line) (s : State) : State :=
  let c := s.clusOf k
  let rest := c.lines.filter (·.src != l.src)
  let rest := if rest.length < 32 then rest else evict s k rest
  s.setClus k { lines := l :: rest, fills := c.fills.filter (·.2 != l.src), shown := c.shown.filter (· != l.src) }

/-- Every core of cluster k without a fill outstanding asks for the descriptor that its first eligible event or a pinned
line lacks (R158, R161, R164). DESIGN CHOICE (log entry 67): the event's comes first, then those of predictors 0 and 1. -/
def askFills (k : Nat) (s : State) : State :=
  if !s.on k then s
  else s.each (List.range 4) fun j s =>
    let n := 4 * k + j
    let c := s.clusOf k
    let want := ((firstEligible s n).map (·.source)).toList ++ pinsOf s n
    match want.find? fun x => (cached s k x).isNone with
    | some x => if c.fills.any (·.1 == n) then s else s.setClus k { c with fills := c.fills ++ [(n, x)] }
    | none => s

/-- A line filled with the fallback descriptor goes once an offer of it has ended, however it ended, and what then lacks a line
asks for one (R158, R159). -/
def endOffers (s : State) : State :=
  s.each (s.clus.filter fun e => e.2.lines.any (·.once) || !e.2.shown.isEmpty) fun e s =>
    let c := s.clusOf e.1
    let live (src : BitVec 13) : Bool := (List.range 4).any fun j => (offered s (4 * e.1 + j)).any (·.2.src == src)
    let ended (l : Line) : Bool := l.once && c.shown.contains l.src && !live l.src
    let shown := ((c.lines.filter (·.once)).map (·.src)).filter live
    let t := s.setClus e.1 { c with lines := c.lines.filter (!ended ·), shown := shown }
    if c.lines.any ended then askFills e.1 t else t

/-- A line filled with the fallback descriptor goes after its offer (R159). -/
def dropOnce (k : Nat) (src : BitVec 13) (s : State) : State :=
  let c := s.clusOf k
  s.setClus k { c with lines := c.lines.filter fun l => !(l.once && l.src == src) }

/-- What cif_warm_entry carries while cif_warm is 1: the entry of the warm that started last among those whose line is
held (R161). -/
def cifWarm (s : State) (n : Nat) : Option Word :=
  let ws := [0, 1].filterMap fun i =>
    if (s.predOf n i).warm then (cached s (n / 4) (predSrc s n i)).map fun l => ((s.predOf n i).warmAt.toNat, l.entry) else none
  (best (fun a b => decide (b.1 < a.1)) ws).map (·.2)

-- Snowdrop pre-warm

/-- System time has reached stamp x by the half-range compare (R161, R179). -/
def reached32 (now x : Nat) : Bool := decide ((now + 2 ^ 32 - x % 2 ^ 32) % 2 ^ 32 < 2 ^ 31)

/-- The lead of core n; values above 8,000 act as 8,000 (PREWARM). -/
def leadOf (s : State) (n : Nat) : Nat := min 8000 (s.rd (Reg.PREWARM_LEAD n))

/-- A locked predictor whose warm time has been reached starts its warm (R161, R171). -/
def warmTry (n i : Nat) (s : State) : State :=
  let p := s.predOf n i
  let start := s.rd (Reg.PW_NEXT_NEXT n i) + 2 ^ 32 - leadOf s n
  if predEnabled s n i && !s.flag (Reg.PW_SRC_PIN n i) && p.st == .locked && p.nextValid && !p.warm && !(s.coreOf n).halt
      && unitLoaded s (1 + n / 16) && reached32 s.t start then
    let s := s.setPred n i { p with warm := true, warmAt := s.time.now }
    let s := if s.flag (Reg.PREWARM_WAKE n) then wake (n / 4) 2 false s else s
    askFills (n / 4) s
  else s

/-- The pure update of a predictor on an arrival: the state, and PER (R162). -/
def predUpdate (p : Pred) (per tol : Nat) (told : Bool) (stamp : BitVec 32) : Pred × Int :=
  let d := sgn 32 (stamp - p.prev).toNat
  let near := decide ((d - per).natAbs ≤ tol)
  let step : Int := (per : Int) + (d - per) / 8
  let r : Pred × Int :=
    if !p.havePrev || told then (p, per)
    else if p.st == .locked then
      if near then (p, step) else ({ p with st := .learning, conf := 0 }, d)
    else if per != 0 && near then
      if p.conf + 1 = 2 then ({ p with conf := 2, st := .locked }, step) else ({ p with conf := p.conf + 1 }, per)
    else ({ p with conf := 0 }, d)
  let p := if told then { r.1 with st := .locked } else r.1
  ({ p with prev := stamp, havePrev := true, misses := 0, warm := false, nextValid := p.nextValid || p.st == .locked }, r.2)

/-- An event of a predictor's stream enters the pending set: HIT or COLD, then the update (R162, R163, R171). -/
def predArrive (n i : Nat) (m : Msg) (s : State) : State :=
  let told := s.flag (Reg.PW_SRC_TOLD n i)
  let per := s.rd (Reg.PW_PER_PER n i)
  let mine := m.source == predSrc s n i && m.origin.toNat == s.rd (Reg.PW_SRC_ORIGIN n i)
  if !predEnabled s n i || !mine || predPinned s n i || (told && per == 0) then s
  else
    let p := s.predOf n i
    let tol := s.rd (Reg.PREWARM_TOL n)
    let off := sgn 32 (m.ts - BitVec.ofNat 32 (s.rd (Reg.PW_NEXT_NEXT n i))).toNat
    let hit := p.warm && decide (off.natAbs ≤ tol)
    let s := if (s.coreOf n).halt then s
      else if hit then s.inc (Reg.PW_CNT_HIT n)
      else if p.st == .locked then s.inc (Reg.PW_CNT_COLD n) else s
    let (p, per') := predUpdate p per tol told m.ts
    let s := (s.setPred n i p).wr (Reg.PW_PER_PER n i) (ofSgn 24 per')
    let s := if p.st == .locked then s.wr (Reg.PW_NEXT_NEXT n i) (m.ts.toNat + ofSgn 32 per') else s
    warmTry n i s

/-- A predictor resets its state (R160). -/
def predReset (n i : Nat) (s : State) : State :=
  let told := s.flag (Reg.PW_SRC_TOLD n i) && s.rd (Reg.PW_PER_PER n i) != 0
  let p := s.predOf n i
  let p := { p with havePrev := false, conf := 0, misses := 0, nextValid := false, warm := false }
  askFills (n / 4) (s.setPred n i { p with st := if told then .locked else .learning })

/-- A write to PREWARM, PW_SRC or PW_PER has its effect on predictor i: off while not enabled, a reset when it becomes
enabled or PER is written, no warm while pinned (R160, R164). DESIGN CHOICE (log entry 67): one that stays enabled when PIN
falls goes on from the state that it held under the pin. -/
def predWritten (n i : Nat) (wasOn perWritten : Bool) (s : State) : State :=
  let calm (s : State) : State := s.setPred n i { s.predOf n i with warm := false }
  if !predEnabled s n i then calm s
  else if !wasOn || perWritten then predReset n i s
  else if predPinned s n i then askFills (n / 4) (calm s) else s

/-- A write to PW_NEXT while the predictor is locked makes the prediction valid (R161). -/
def nextWritten (n i : Nat) (s : State) : State :=
  let p := s.predOf n i
  if predEnabled s n i && !predPinned s n i && p.st == .locked then warmTry n i (s.setPred n i { p with nextValid := true })
  else s

/-- The state that PW_PER shows: off, learning, locked, pinned (R160, R164). -/
def predCode (s : State) (n i : Nat) : Nat :=
  if !predEnabled s n i then 0 else if s.flag (Reg.PW_SRC_PIN n i) then 3 else if (s.predOf n i).st == .locked then 2 else 1

/-- WARM_START. A locked predictor reaches NEXT − LEAD (R161). -/
def execWarmStart (n : Fin 64) (i : Fin 2) (s : State) : Host.Outcome State Fault Refusal := runClk (warmTry n.val i.val) s

/-- PREDICTOR_MISS. System time reaches NEXT + TOL + 1,024 with no arrival (R163, R171). -/
def execPredictorMiss (n : Fin 64) (i : Fin 2) (s : State) : Host.Outcome State Fault Refusal :=
  runClk (fun s =>
    let p := s.predOf n i
    let next := s.rd (Reg.PW_NEXT_NEXT n i)
    let due := next + s.rd (Reg.PREWARM_TOL n) + 1024
    if predEnabled s n i && !predPinned s n i && p.st == .locked && p.nextValid && unitLoaded s (1 + n.val / 16)
        && reached32 s.t due then
      let told := s.flag (Reg.PW_SRC_TOLD n i)
      let back := decide (2 ≤ p.misses + 1) && !told
      let p := { p with prev := BitVec.ofNat 32 next, misses := p.misses + 1, warm := false }
      let p := if back then { p with st := .learning, conf := 0 } else p
      let s := if (s.coreOf n).halt then s else s.inc (Reg.PW_CNT_MISS n)
      let s := (s.setPred n i p).wr (Reg.PW_NEXT_NEXT n i) (next + s.rd (Reg.PW_PER_PER n i))
      warmTry n i s
    else s) s

-- admission and fills

/-- An event is admitted into core n's pending set; its line is looked up, and a line whose parity fails is invalidated
(R96, R146, R155, R157, R162, R166). -/
def admitCore (n : Nat) (parity : Bool) (m : Msg) (s : State) : State :=
  let c := s.coreOf n
  let (l, old) := enterOrReplace m c.pend
  let s := s.setCore n { c with pend := l }
  let s := if old then coalesce m.source.toNat s else s
  let s := trace 5 0 m s
  let k := n / 4
  let s := if parity then s.setClus k { s.clusOf k with lines := (s.clusOf k).lines.filter (·.src != m.source) }
    else touchLine k m.source s
  askFills k (predArrive n 1 m (predArrive n 0 m s))

/-- PENDING_ADMIT. The delivery port's crossing presents its oldest event, which enters core n's pending set when it is
core n's; with none of core n's in the crossing, a beat of the transfer that its lane holds brings one (R33, R146,
R233). -/
def execPendingAdmit (n : Fin 64) (parity : Bool) (s : State) : Host.Outcome State Fault Refusal :=
  runClk (fun s =>
    let k := n.val / 4
    if !s.on k then s
    else
      let mine : Bool := match (s.arbOf k).holder with | some h => h.j == n.val % 4 | none => false
      let s := if (s.toClus k).any (·.1 == n.val) || !mine then s else arbBeat k (clusBeat k) s
      match s.toClus k with
      | [] => s
      | x :: l =>
        if x.1 != n.val then s
        else
          let s := admitCore n.val parity x.2 (s.setToClus k l)
          if s.rq.redirect.any fun d => d.u == n.val && d.origin == x.2.origin && d.source == x.2.source then moveRedirected n.val s
          else s) s

/-- The descriptor of a source, or the fallback descriptor (R156, R159, R329). -/
def descriptor (s : State) (src : BitVec 13) (bad : Bool) : Line :=
  let i := if bad then 10496 else 2 * src.toNat
  ⟨src, BitVec.ofNat 32 (s.tab 0x21 i), BitVec.ofNat 32 (s.tab 0x21 (i + 1)), bad⟩

/-- VECTOR_CACHE_FILL. The descriptor of cluster k's oldest outstanding fill returns and fills a line (R157 to R159). -/
def execVectorCacheFill (k : Fin 16) (ecc : Ecc) (s : State) : Host.Outcome State Fault Refusal :=
  runClk (fun s =>
    match (s.clusOf k).fills with
    | [] => s
    | (_, src) :: _ => if !s.on k then s else askFills k (fillLine k (descriptor s src (ecc == .uncorrectable)) s)) s

-- take, claim, complete

/-- CIF_TAKE. The core takes the offer of this cycle (R150). -/
def execCifTake (n : Fin 64) (s : State) : Host.Outcome State Fault Refusal :=
  runClk (fun s =>
    match offered s n with
    | none => s
    | some (m, _) =>
      let c := s.coreOf n
      let s := s.setCore n { c with pend := c.pend.erase m, taken := m :: c.taken, irqLow := true }
      askFills (n / 4) (dropOnce (n / 4) m.source (touchLine (n / 4) m.source s))) s

/-- The event that a claim would claim now, and whether it has been taken (R151). -/
def claimable (s : State) (n : Nat) : Option (Msg × Bool) :=
  let c := s.coreOf n
  match c.taken with
  | m :: _ => some (m, true)
  | [] =>
    if c.held.length < 8 then (best presentBefore (c.pend.filter fun m => !blockedAt s n m)).map fun m => (m, false)
    else none

/-- The CLAIM word of an event claimed at a depth (CLAIM). -/
def claimWord (m : Msg) (depth : Nat) : Nat :=
  m.source.toNat + 2 ^ 13 * m.prio.toNat + 2 ^ 18 * b2n m.repres + 2 ^ 19 * b2n m.aval + 2 ^ 20 * m.cls.code
    + 2 ^ 22 * m.origin.toNat + 2 ^ 27 * depth + 2 ^ 31

/-- The word that a read of CLAIM returns: DEPTH counts a claim of a pending event (R151). -/
def claimValue (s : State) (n : Nat) : Nat :=
  match claimable s n with
  | some (m, took) => claimWord m ((s.coreOf n).held.length + b2n (!took))
  | none => 0

/-- The effect of a claim (R104, R151). -/
def claimEffect (n : Nat) (s : State) : State :=
  match claimable s n with
  | some (m, took) =>
    let c := s.coreOf n
    let c := if took then { c with taken := c.taken.drop 1 } else { c with pend := c.pend.erase m }
    let s := trace 6 0 m (s.setCore n { c with active := m :: c.active })
    askFills (n / 4) (dropOnce (n / 4) m.source s)
  | none => s

/-- CLAIM. Core n reads CLAIM through its own interface (R151). An OFF domain answers with the reset value (R481). -/
def execClaim (n : Fin 64) (s : State) : Host.Outcome State Fault Refusal :=
  runClk (fun s =>
    if !s.on (n.val / 4) then s.emit (.reg (.cif n) 0 none)
    else (claimEffect n s).emit (.reg (.cif n) (BitVec.ofNat 32 (claimValue s n)) none)) s

/-- The effect of a write to COMPLETE (R152). -/
def completeEffect (n : Nat) (w : Word) (s : State) : State :=
  let c := s.coreOf n
  match c.active with
  | m :: l =>
    if m.seq == w.extractLsb' 0 24 then
      let s := s.setCore n { c with active := l }
      let s := (s.wr (Reg.COMPLETE_SEQ n) m.seq.toNat).wr (Reg.COMPLETE_LASTOK n) 1
      askFills (n / 4) (sendDone m (trace 7 0 m s))
    else (s.raise (Reg.STATE_CERR n)).wr (Reg.COMPLETE_LASTOK n) 0
  | [] => (s.raise (Reg.STATE_CERR n)).wr (Reg.COMPLETE_LASTOK n) 0

/-- COMPLETE. Core n writes COMPLETE through its own interface (R152). The domain must be ON (R481). -/
def execComplete (n : Fin 64) (w : Word) (s : State) : Host.Outcome State Fault Refusal :=
  runClk (fun s =>
    if s.on (n.val / 4) then (completeEffect n w s).emit (.reg (.cif n) 0 none) else s.emit (.reg (.cif n) 0 (some 3))) s

-- halt and reset

/-- CIF_HALT_RISE. The core enters debug halt: no offer, and every warm held ends uncounted (R171). -/
def execCifHaltRise (n : Fin 64) (s : State) : Host.Outcome State Fault Refusal :=
  run (fun s =>
    let s := s.setCore n { s.coreOf n with halt := true }
    s.each [0, 1] fun i s => s.setPred n i { s.predOf n i with warm := false }) s

/-- CIF_HALT_FALL. Offers resume, and a warm whose time has come starts at once (R171). -/
def execCifHaltFall (n : Fin 64) (s : State) : Host.Outcome State Fault Refusal :=
  run (fun s =>
    let s := s.setCore n { s.coreOf n with halt := false }
    if clocked s then warmTry n 1 (warmTry n 0 s) else s) s

/-- A unit reset of core n: taken events return to pending, active events with the flag, THRESH to its reset value
(R168, R319). -/
def resetCore (n : Nat) (s : State) : State :=
  let c := s.coreOf n
  let s := s.setCore n { c with pend := c.pend ++ c.taken ++ c.active.map Msg.flag, taken := [], active := [] }
  askFills (n / 4) (moveRedirected n (s.wr (Reg.THRESH_LEVEL n) 0))

/-- A reset requested through RST_REQ is recorded (RST_STAT). -/
def noteReset (kind index : Nat) (s : State) : State :=
  ((s.wr Reg.RST_STAT_KIND kind).wr Reg.RST_STAT_INDEX index).inc Reg.RST_STAT_COUNT

/-- CORE_UNIT_RESET. A unit reset of core n by cif_rst or through RST_REQ KIND 0 (R168, R461, R462). -/
def execCoreUnitReset (n : Fin 64) (viaPin : Bool) (s : State) : Host.Outcome State Fault Refusal :=
  runClk (fun s => resetCore n (if viaPin then s else noteReset 0 n s)) s

end Sys2Proof.Machine
end

