-- ==== Sys2Proof/Machine/Operands.lean ====
section
/-! DEFINITION. The operand forms of the Campion instructions: the fields of a program word, and the words that a
Campion refuses at the fetch (R116 to R119, R137). -/

namespace Sys2Proof.Machine

/-- A source operand: a working register or an immediate (R116). -/
inductive Operand where
  | reg (w : Nat)
  | imm (v : Word)
deriving DecidableEq, Repr

/-- A Campion instruction by its operands (R116). -/
inductive COp where
  | lde (wd sel : Nat)
  | lda (wd : Nat) (addr : BitVec 16)
  | sta (now : Bool) (src : Operand) (addr : BitVec 16)
  | addi (wd ws : Nat) (imm : Word)
  | sub (wd ws wt : Nat)
  | clamp (wd ws : Nat) (hi : Bool) (imm : Word)
  | cmp (ws : Nat) (unsigned : Bool) (rhs : Operand)
  | br (cond off : Nat)
  | loop (count off : Nat)
  | wait (ticks : Nat)
  | emit (wd ws : Nat) (vec : BitVec 12)
  | irq (ws : Nat) (vec : BitVec 12)
  | ret
deriving DecidableEq, Repr

/-- A 16-bit immediate with sign extension. -/
def immS (v : Nat) : Word := (BitVec.ofNat 16 v).signExtend 32
/-- A 16-bit immediate with zero extension. -/
def immZ (v : Nat) : Word := BitVec.ofNat 32 (v % 2 ^ 16)

/-- The bits of a word outside the named fields, low bit and width, are all 0 (R116). -/
def onlyFields (w : Nat) (fs : List (Nat × Nat)) : Bool :=
  w == (fs.map fun f => bits w f.1 f.2 * 2 ^ f.1).sum

/-- The instruction of a program word at position pc; none for the words that R137 calls reserved encodings and for a
branch whose target lies outside the slot (R116, R117, R119, R137). -/
def campDecode (w pc : Nat) : Option COp :=
  let f (lo n : Nat) : Nat := bits w lo n
  let keep (fs : List (Nat × Nat)) (c : COp) : Option COp := if onlyFields w ((27, 5) :: fs) then some c else none
  match f 27 5 with
  | 0 => if f 0 4 < 10 then keep [(24, 3), (0, 4)] (.lde (f 24 3) (f 0 4)) else none
  | 1 => keep [(24, 3), (0, 16)] (.lda (f 24 3) (BitVec.ofNat 16 w))
  | 2 => store (w / 2 ^ 26 % 2) false keep f
  | 3 => store (w / 2 ^ 26 % 2) true keep f
  | 4 => keep [(24, 3), (21, 3), (20, 1), (0, 16)]
      (.addi (f 24 3) (f 21 3) (if f 20 1 = 1 then BitVec.ofNat 32 (f 0 16 * 2 ^ 16) else immS (f 0 16)))
  | 5 => keep [(24, 3), (21, 3), (18, 3)] (.sub (f 24 3) (f 21 3) (f 18 3))
  | 6 => keep [(24, 3), (21, 3), (20, 1), (0, 16)] (.clamp (f 24 3) (f 21 3) (f 20 1 == 1) (immZ (f 0 16)))
  | 7 =>
    let u := f 19 1 == 1
    if f 26 1 = 0 then keep [(26, 1), (23, 3), (19, 1), (20, 3)] (.cmp (f 23 3) u (.reg (f 20 3)))
    else keep [(26, 1), (23, 3), (19, 1), (0, 16)]
      (.cmp (f 23 3) u (.imm (if u then immZ (f 0 16) else immS (f 0 16))))
  | 8 =>
    let fs := [(24, 3), (23, 1), (16, 4), (0, 6)]
    if f 23 1 = 1 then
      if f 24 3 = 0 ∧ f 0 6 ≤ pc then keep fs (.loop (f 16 4 + 1) (f 0 6)) else none
    else if f 24 3 = 7 ∨ f 0 6 = 0 ∨ 63 < pc + f 0 6 then none else keep fs (.br (f 24 3) (f 0 6))
  | 9 => keep [(0, 16)] (.wait (f 0 16))
  | 10 => keep [(24, 3), (21, 3), (0, 12)] (.emit (f 24 3) (f 21 3) (BitVec.ofNat 12 w))
  | 11 => keep [(21, 3), (0, 12)] (.irq (f 21 3) (BitVec.ofNat 12 w))
  | 15 => keep [] .ret
  | _ => none
where
  /-- The two forms of STA and STA.N (R116). -/
  store (i : Nat) (now : Bool) (keep : List (Nat × Nat) → COp → Option COp) (f : Nat → Nat → Nat) : Option COp :=
    if i = 0 then keep [(26, 1), (23, 3), (0, 16)] (.sta now (.reg (f 23 3)) (BitVec.ofNat 16 (f 0 16)))
    else keep [(26, 1), (16, 10), (0, 16)] (.sta now (.imm (immZ (f 0 16))) (BitVec.ofNat 16 (f 16 10)))

/-- A working register of a run. -/
def Run.reg (r : Run) (i : Nat) : Word := r.w.getD i 0
/-- A run with a working register written. -/
def Run.put (r : Run) (i : Nat) (v : Word) : Run := { r with w := r.w.set i v }
/-- The value of a source operand. -/
def Run.val (r : Run) : Operand → Word
  | .reg i => r.reg i
  | .imm v => v

/-- The value that LDE loads (R117). -/
def ldeValue (r : Run) (now : Tick) (sel : Nat) : Word :=
  let m := r.msg
  match sel with
  | 0 => m.payload.zeroExtend 32
  | 1 => m.payload.signExtend 32
  | 2 => m.ts
  | 3 => m.seq.zeroExtend 32
  | 4 => m.source.zeroExtend 32
  | 5 => m.origin.zeroExtend 32
  | 6 => m.epoch.zeroExtend 32
  | 7 => BitVec.ofNat 32 (b2n m.repres + 2 * b2n m.aval + 4 * m.cls.code + 16 * m.prio.toNat)
  | 8 => BitVec.ofNat 32 r.runs
  | _ => now.truncate 32

end Sys2Proof.Machine
end

