-- ==== Sys2Proof/Machine/Flags.lean ====
section
/-! DEFINITION. The flags LT and EQ of a Campion, the conditions of BR, and the arithmetic of the compare and clamp
instructions (R118, R119). -/

namespace Sys2Proof.Machine

/-- ws is less than the operand, signed or unsigned (R118). -/
def lessThan (unsigned : Bool) (a b : Word) : Bool := if unsigned then a.ult b else a.slt b

/-- The flags that CMP sets; no other instruction changes them (R118). -/
def Run.compare (r : Run) (unsigned : Bool) (a b : Word) : Run := { r with lt := lessThan unsigned a b, eq := a == b }

/-- CLAMP: the smaller of the two with HI = 1, the larger with HI = 0, ws taken as signed (R118). -/
def clampTo (hi : Bool) (a imm : Word) : Word :=
  if hi then (if a.slt imm then a else imm) else (if a.slt imm then imm else a)

/-- The condition of a forward branch (R119). -/
def condHolds (r : Run) (cond : Nat) : Bool :=
  match cond with
  | 0 => true
  | 1 => r.eq
  | 2 => !r.eq
  | 3 => r.lt
  | 4 => !r.lt
  | 5 => !r.lt && !r.eq
  | _ => r.lt || r.eq

end Sys2Proof.Machine
end

