-- ==== Sys2Proof/Machine/Campion.lean ====
section
/-! DEFINITION. The Campion reflex engines: dispatch, the instructions, commit, pre-emption, failure and unit reset
(R107 to R144). -/

namespace Sys2Proof.Machine

-- discards and failures

/-- A run ends without a commit: DISC and NREP, and answers still awaited go only to CAMP_EMIT (R127, R129, R498). The
event stands in no queue afterwards. -/
def discardRun (n : Nat) (s : State) : State :=
  let c := s.campOf n
  match c.run with
  | none => s
  | some r =>
    let s := s.setCamp n { c with run := none, emits := c.emits.map fun e => { e with mine := false } }
    trace 10 0 r.msg ((s.inc (Reg.CAMP_DISC_DISC n)).inc (Reg.CAMP_DISC_NREP n) r.stood)

/-- A run is discarded and its event returns to the head of its kind in the queue, with its RUNS (R128, R137). DESIGN
CHOICE (log entry 53): a newer class S event of its stream in the queue stays beside it; neither replaces the other. -/
def returnRun (n : Nat) (s : State) : State :=
  match (s.campOf n).run with
  | none => s
  | some r =>
    let s := discardRun n s
    let c := s.campOf n
    s.setCamp n { c with q := ⟨r.msg, r.runs⟩ :: c.q }

/-- Campion n fails with a cause, once per failure (R137). -/
def failCampion (n cause : Nat) (s : State) : State :=
  if (s.campOf n).failed.isSome then s
  else
    let s := returnRun n s
    let s := s.setCamp n { s.campOf n with failed := some (BitVec.ofNat 2 cause) }
    raiseInt (5136 + n / 16) (n + 64 * cause) s

-- dispatch

/-- A Campion of region r dispatches nothing: no time unit, a deep thaw of the region, or one requested with HOLD (R143,
R176, R349). -/
def regionHeld (s : State) (r : Nat) : Bool :=
  !unitLoaded s (1 + r)
    || ((decide (2 ≤ s.img.dtPhase) || (s.img.dtPhase == 1 && s.img.dtHold)) && s.img.dtRegion == r)

/-- Index n is the spare that its region holds (R141). -/
def heldSpare (s : State) (n : Nat) : Bool := (s.segOf (n / 16)).spare == some (n % 16)

/-- Campion n may dispatch. -/
def campReady (s : State) (n : Nat) : Bool :=
  (s.campOf n).failed.isNone && unitOn s (64 + n) && !regionHeld s (n / 16) && !heldSpare s n

/-- The queue entry that a dispatch takes, and the queue without it (R114). -/
def nextEntry (s : State) (n : Nat) : Option (QEntry × List QEntry) :=
  let c := s.campOf n
  let pre : Bool := match c.run with | some r => r.msg.cls != .f | none => true
  if !pre then none
  else match takeFirst (fun (e : QEntry) => e.msg.cls == .f) c.q with
    | some x => some x
    | none => if c.run.isNone then takeFirst (fun _ => true) c.q else none

/-- The 64 words of a slot with the outcome of their checks, and the words corrected (R109, R112). -/
def loadSlot (s : State) (r slot : Nat) (ecc : List (Fin 64 × Ecc)) : List (Option Word) × Nat :=
  let word (i : Nat) : Option Word :=
    if ecc.any fun e => e.1.val == i && e.2 == .uncorrectable then none
    else some (BitVec.ofNat 32 (s.tab (0x30 + r) (64 * slot + i)))
  ((List.range 64).map word, (ecc.filter (·.2 == .corrected)).length)

/-- The reflex slot of an event: the one its source named at acceptance; for an event of another die a free value, the same
at every dispatch (R73, R108; log entry 45). -/
def slotOf (m : Msg) : BitVec 6 := m.slot.getD (Config.farSlot m.origin m.source m.seq)

/-- The dispatch of a queue entry (R108, R111, R112, R128). -/
def dispatchEntry (n : Nat) (ecc : List (Fin 64 × Ecc)) (e : QEntry) (s : State) : State :=
  let runs := min 255 (e.runs + 1)
  let slot := slotOf e.msg
  let (prog, ce) := loadSlot s (n / 16) slot.toNat ecc
  let run : Run := { msg := e.msg, w := List.replicate 8 0, prog := prog, runs := runs, d := s.time.now, slot := slot }
  let s := s.inc (Reg.CAMP_RERR_BANKCE (n / 16)) ce
  trace 8 (min 15 runs) e.msg (s.setCamp n { s.campOf n with run := some run })

/-- A class F event heads the lane of free Campion n, whose queue is full of other events: it is taken straight to dispatch,
without a queue entry (R114; log entry 53). -/
def straightF (n : Nat) (s : State) : Bool :=
  let c := s.campOf n
  c.run.isNone && decide (4 ≤ c.q.length) && !c.q.any (·.msg.cls == .f) && match (s.lane (64 + n)).head? with
    | some m => m.cls == .f && m.typ != 0x14 && !streamBlocked s (64 + n) m
    | none => false

/-- The head of Campion n's lane leaves it for the dispatch of this cycle. -/
def straightBeat (n : Nat) (s : State) : State :=
  match s.lane (64 + n) with
  | m :: l => campEnqueue n m (s.setLane (64 + n) l)
  | [] => s

/-- The port of Campion n's cluster is idle and brings the event of its lane in this cycle (R112, R114, R236). -/
def laneBeat (n : Nat) (s : State) : State :=
  let c := s.campOf n
  let k := n / 4
  let j := 4 + n % 4
  let head := (laneRun s (64 + n) 1 0 (s.lane (64 + n))).head?
  let fHead : Bool := match head with | some m => m.cls == .f | none => false
  let noF := !c.q.any (·.msg.cls == .f)
  if (s.arbOf k).holder.isSome then s
  else if straightF n s then
    arbRun k (fun s => clusReqs k s ++ [⟨j, 1, true⟩]) (fun i s => if i = j then straightBeat n s else clusBeat k i s) s
  else if (noF && fHead) || (c.q.isEmpty && c.run.isNone && head.isSome) then arbRun k (clusReqs k) (clusBeat k) s
  else s

/-- CAMPION_DISPATCH. Campion n, when free, dispatches the first event of R114, pre-empting a running reflex of another
class for one of class F (R112 to R114, R126 to R129). -/
def execCampionDispatch (n : Fin 64) (ecc : List (Fin 64 × Ecc)) (s : State) : Host.Outcome State Fault Refusal :=
  runClk (fun s =>
    if !campReady s n then s
    else
      let s := laneBeat n s
      match nextEntry s n with
      | none => s
      | some (e, q) =>
        let s := s.setCamp n { s.campOf n with q := q }
        dispatchEntry n ecc e (returnRun n s)) s

-- instructions

/-- The running reflex of Campion n, when it does not hold. -/
def running (s : State) (n : Nat) : Option Run :=
  match (s.campOf n).run with
  | some r => if (s.campOf n).failed.isNone && r.hold == .none then some r else none
  | none => none

def setRun (n : Nat) (r : Run) (s : State) : State := s.setCamp n { s.campOf n with run := some r }

/-- The run after an instruction of some cycles, at the next word. -/
def Run.step (r : Run) (cycles : Nat) : Run := { r with pc := r.pc + 1, cycles := r.cycles + cycles }

/-- An instruction of Campion n: the word at pc is executed by f, which answers none when it is another instruction's. A
reserved encoding, an uncorrectable word or a run past word 63 fails at the fetch (R112, R137). -/
def instruct (n : Nat) (f : Run → COp → Option (State → State)) (s : State) : State :=
  match running s n with
  | none => s
  | some r =>
    match r.prog.getD r.pc none with
    | none => failCampion n 3 s
    | some w =>
      match campDecode w.toNat r.pc with
      | none => failCampion n 3 s
      | some op => match f r op with
        | some g => g s
        | none => s

/-- A read of a working register whose parity fails ends the run with cause 0b01 (R111, R137). -/
def guardParity (n : Nat) (parity : Bool) (g : State → State) : State → State :=
  if parity then failCampion n 1 else g

/-- LDE (R117). -/
def execLde (n : Fin 64) (s : State) : Host.Outcome State Fault Refusal :=
  runClk (fun s => instruct n (fun r op => match op with
    | .lde wd sel => some (setRun n ((r.put wd (ldeValue r s.time.now sel)).step 1))
    | _ => none) s) s

/-- How far Campion n stands in the rotation of a segment. -/
def segRot (g : SegS) (n : Nat) : Nat := (n + 16 - g.rot) % 16

/-- The segment grants an access of Campion n before every burst that waits: class F comes first, then the rotation
(R132). -/
def segGrants (s : State) (n : Nat) (f : Bool) : Bool :=
  let g := s.segOf (n / 16)
  g.bursts.all fun b =>
    let bf := b.msg.cls == .f
    (f && !bf) || (f == bf && decide (segRot g n < segRot g b.camp))

/-- An access of Campion n on its segment, and its error (R130, R132, R133). -/
def segAccess (n : Nat) (addr : BitVec 16) (wdata : Word) (wr : Bool) (err : Bool) (s : State) : State :=
  let r := n / 16
  let s := s.emit (.act r addr wdata wr (!wr) wr false false)
  let s := s.setSeg r { s.segOf r with rot := (n + 1) % 16 }
  if err then s.inc (Reg.CAMP_RERR_ABERR r) else s

/-- LDA: a staged address gives the staged data; any other is read on the segment once it is granted (R124, R130, R132,
R133). -/
def execLda (n : Fin 64) (rdata : Word) (err parity : Bool) (s : State) : Host.Outcome State Fault Refusal :=
  runClk (fun s => instruct n (fun r op => match op with
    | .lda wd addr =>
      match r.stage.find? (·.1 == addr) with
      | some (_, v) => some (guardParity n parity (setRun n ((r.put wd v).step 1)))
      | none =>
        if segGrants s n (r.msg.cls == .f) then
          some fun s => segAccess n addr 0 false err (setRun n ((r.put wd (if err then 0 else rdata)).step 2) s)
        else none
    | _ => none) s) s

/-- The stage buffer with a write entered, in the order of first entries; none for a ninth address (R124). -/
def stageWrite (l : List (BitVec 16 × Word)) (addr : BitVec 16) (v : Word) : Option (List (BitVec 16 × Word)) :=
  if l.any (·.1 == addr) then some (l.map fun e => if e.1 == addr then (addr, v) else e)
  else if l.length < 8 then some (l ++ [(addr, v)]) else none

/-- The operand is a working register, whose read checks parity. -/
def Operand.isReg : Operand → Bool
  | .reg _ => true
  | .imm _ => false

/-- STA (R124). -/
def execSta (n : Fin 64) (parity : Bool) (s : State) : Host.Outcome State Fault Refusal :=
  runClk (fun s => instruct n (fun r op => match op with
    | .sta false src addr =>
      match stageWrite r.stage addr (r.val src) with
      | some l => some (guardParity n (parity && src.isReg) (setRun n ({ r with stage := l }.step 1)))
      | none => some (guardParity n (parity && src.isReg) (failCampion n 3))
    | _ => none) s) s

/-- STA.N: an immediate write, once the segment is granted (R130, R132). -/
def execStaN (n : Fin 64) (err parity : Bool) (s : State) : Host.Outcome State Fault Refusal :=
  runClk (fun s => instruct n (fun r op => match op with
    | .sta true src addr =>
      if parity && src.isReg then some (failCampion n 1)
      else if segGrants s n (r.msg.cls == .f) then
        some fun s => segAccess n addr (r.val src) true err (setRun n ({ r with stood := r.stood + 1 }.step 1) s)
      else none
    | _ => none) s) s

/-- ADDI (R118). -/
def execAddi (n : Fin 64) (parity : Bool) (s : State) : Host.Outcome State Fault Refusal :=
  runClk (fun s => instruct n (fun r op => match op with
    | .addi wd ws imm => some (guardParity n parity (setRun n ((r.put wd (r.reg ws + imm)).step 1)))
    | _ => none) s) s

/-- SUB (R118). -/
def execSub (n : Fin 64) (parity : Bool) (s : State) : Host.Outcome State Fault Refusal :=
  runClk (fun s => instruct n (fun r op => match op with
    | .sub wd ws wt => some (guardParity n parity (setRun n ((r.put wd (r.reg ws - r.reg wt)).step 1)))
    | _ => none) s) s

/-- CLAMP (R118). -/
def execClamp (n : Fin 64) (parity : Bool) (s : State) : Host.Outcome State Fault Refusal :=
  runClk (fun s => instruct n (fun r op => match op with
    | .clamp wd ws hi imm => some (guardParity n parity (setRun n ((r.put wd (clampTo hi (r.reg ws) imm)).step 1)))
    | _ => none) s) s

/-- CMP (R118). -/
def execCmp (n : Fin 64) (parity : Bool) (s : State) : Host.Outcome State Fault Refusal :=
  runClk (fun s => instruct n (fun r op => match op with
    | .cmp ws u rhs => some (guardParity n parity (setRun n ((r.compare u (r.reg ws) (r.val rhs)).step 1)))
    | _ => none) s) s

/-- BR: the forward form, and the loop form with its counter (R119, R125). -/
def execBr (n : Fin 64) (s : State) : Host.Outcome State Fault Refusal :=
  runClk (fun s => instruct n (fun r op => match op with
    | .br cond off =>
      if condHolds r cond then some (setRun n { r with pc := r.pc + off, cycles := r.cycles + 2 }) else some (setRun n (r.step 1))
    | .loop count off =>
      if r.loop + 1 < count then
        some (setRun n { r with pc := r.pc - off, loop := r.loop + 1, cycles := r.cycles + 2 })
      else some (setRun n ({ r with loop := 0 }.step 1))
    | _ => none) s) s

/-- WAIT: the reflex holds until system time reaches the stamp and TICKS; reached already, it takes one cycle (R120). Its
cycles do not count for the watchdog (R137). -/
def execWait (n : Fin 64) (s : State) : Host.Outcome State Fault Refusal :=
  runClk (fun s => instruct n (fun r op => match op with
    | .wait ticks =>
      let target := r.msg.ts + BitVec.ofNat 32 ticks
      if reached32 s.t target.toNat then some (setRun n (r.step 0)) else some (setRun n { r with hold := .wait target })
    | _ => none) s) s

/-- WAIT_END. The target of a WAIT is reached (R120). -/
def execWaitEnd (n : Fin 64) (s : State) : Host.Outcome State Fault Refusal :=
  runClk (fun s =>
    match (s.campOf n).run with
    | some r => match r.hold with
      | .wait target => if reached32 s.t target.toNat then setRun n ({ r with hold := .none }.step 0) s else s
      | _ => s
    | none => s) s

/-- EMIT: the write is issued at once, and the reflex holds for its answer (R121). -/
def execEmit (n : Fin 64) (parity : Bool) (s : State) : Host.Outcome State Fault Refusal :=
  runClk (fun s => instruct n (fun r op => match op with
    | .emit wd ws vec => some (guardParity n parity fun s =>
        let s := setRun n { r with hold := .emit wd, stood := r.stood + 1, cycles := r.cycles + 1 } s
        let c := s.campOf n
        let s := s.setCamp n { c with emits := c.emits ++ [{ vec := vec, issued := s.time.now, mine := true }] }
        portWrite (.campion n false) vec ((r.reg ws).truncate 16) s)
    | _ => none) s) s

/-- The cycles since an EMIT's issue cycle. -/
def emitCycles (s : State) (e : EmitOut) : Nat := (s.t - e.issued.toNat) / 2

/-- EMIT_ANSWER. The answer arrives within 32 cycles, or the bound passes; wd takes the outcome (R121). -/
def execEmitAnswer (n : Fin 64) (s : State) : Host.Outcome State Fault Refusal :=
  runClk (fun s =>
    let c := s.campOf n
    match c.run, c.emits.find? (·.mine) with
    | some r, some e => match r.hold with
      | .emit wd =>
        let go (v : Word) (emits : List EmitOut) (s : State) : State :=
          s.setCamp n { c with run := some ({ r.put wd v with hold := .none }.step (min 32 (emitCycles s e))), emits := emits }
        match e.answer, e.late with
        | some (refused, reason), false =>
          let v := if refused then BitVec.ofNat 32 (0x80000000 + reason) else 0
          let s := if refused then s.inc (Reg.CAMP_EMIT_EREF n) else s
          go v (c.emits.erase e) s
        | _, _ =>
          if 32 ≤ emitCycles s e then go 0x40000000 (c.emits.map fun x => if x == e then { x with mine := false } else x) s else s
      | _ => s
    | _, _ => s) s

/-- EMIT_LATE_ANSWER. An answer for which no reflex holds any more is counted only (R121, R127). -/
def execEmitLateAnswer (n : Fin 64) (s : State) : Host.Outcome State Fault Refusal :=
  runClk (fun s =>
    let c := s.campOf n
    match takeFirst (fun (e : EmitOut) => !e.mine && e.answer.isSome) c.emits with
    | none => s
    | some (e, l) =>
      let s := s.setCamp n { c with emits := l }
      let s := if e.late then s.inc (Reg.CAMP_EMIT_ELATE n) else s
      match e.answer with
      | some (true, _) => s.inc (Reg.CAMP_EMIT_EREF n)
      | _ => s) s

/-- IRQ stages a vector write; a third one fails (R122, R124, R137). -/
def execIrq (n : Fin 64) (parity : Bool) (s : State) : Host.Outcome State Fault Refusal :=
  runClk (fun s => instruct n (fun r op => match op with
    | .irq ws vec =>
      if r.irqs.length < 2 then
        some (guardParity n parity (setRun n ({ r with irqs := r.irqs ++ [(vec, (r.reg ws).truncate 16)] }.step 1)))
      else some (guardParity n parity (failCampion n 3))
    | _ => none) s) s

/-- A reflex commits: its IRQ writes leave, and its event completes (R104, R105, R122, R123). -/
def commitReflex (n : Nat) (m : Msg) (irqs : List (BitVec 12 × BitVec 16)) (s : State) : State :=
  let s := trace 9 0 m (s.inc (Reg.CAMP_DONE n))
  let s := s.each irqs fun x s => portWrite (.campion (Fin.ofNat 64 n) true) x.1 x.2 s
  sendDone m s

/-- RET: the stage buffer goes to the segment controller and the Campion is free; with nothing staged the reflex commits
at once (R123). -/
def execRet (n : Fin 64) (parity : Bool) (s : State) : Host.Outcome State Fault Refusal :=
  runClk (fun s => instruct n (fun r op => match op with
    | .ret => some (guardParity n (parity && !(r.stage.isEmpty && r.irqs.isEmpty)) fun s =>
        let s := s.setCamp n { s.campOf n with run := none }
        if r.stage.isEmpty then commitReflex n r.msg r.irqs s
        else
          let g := s.segOf (n / 16)
          let b : Burst := ⟨n, r.msg, r.stage, r.irqs⟩
          s.setSeg (n / 16) { g with bursts := g.bursts ++ [b] })
    | _ => none) s) s

/-- The burst that the segment grants next: a class F reflex first, then in rotation (R132). -/
def nextBurst (g : SegS) : Option Burst :=
  let fs := g.bursts.filter (·.msg.cls == .f)
  best (fun a b => decide (segRot g a.camp < segRot g b.camp)) (if fs.isEmpty then g.bursts else fs)

/-- The bus cycles of a burst, the last with act_commit (R123, R130, R133). -/
def driveBurst (r : Nat) : List (BitVec 16 × Word) → List Bool → State → State
  | [], _, s => s
  | (a, v) :: l, errs, s =>
    let s := s.emit (.act r a v true false false l.isEmpty false)
    let s := if errs.headD false then s.inc (Reg.CAMP_RERR_ABERR r) else s
    driveBurst r l (errs.drop 1) s

/-- REFLEX_COMMIT. The segment controller of region r drives the next burst to its act_commit cycle (R123, R130 to
R133). -/
def execReflexCommit (r : Fin 4) (errs : List Bool) (s : State) : Host.Outcome State Fault Refusal :=
  runClk (fun s =>
    let g := s.segOf r
    match nextBurst g with
    | none => s
    | some b =>
      let s := s.setSeg r { g with bursts := g.bursts.erase b, rot := (b.camp + 1) % 16 }
      commitReflex b.camp b.msg b.irqs (driveBurst r b.stage errs s)) s

/-- The watchdog limit of a region, at least 16 cycles (CAMP_RCTRL). -/
def wdog (s : State) (r : Nat) : Nat := max 16 (s.rd (Reg.CAMP_RCTRL_WDOG r))

/-- The cycles of a run that count for the watchdog (R137). -/
def runCycles (s : State) (n : Nat) (r : Run) : Nat :=
  r.cycles + match r.hold with
    | .emit _ => match (s.campOf n).emits.find? (·.mine) with | some e => emitCycles s e | none => 0
    | _ => 0

/-- CAMPION_WATCHDOG. A run exceeds its cycle limit (R137). -/
def execCampionWatchdog (n : Fin 64) (s : State) : Host.Outcome State Fault Refusal :=
  runClk (fun s =>
    match (s.campOf n).run with
    | some r => if wdog s (n / 16) < runCycles s n r then failCampion n 2 s else s
    | none => s) s

/-- A unit reset of Campion n: its run and its queue are discarded, and its class G and F events restored (R144, R310,
R472). -/
def resetCampion (n : Nat) (s : State) : State :=
  let s := discardRun n s
  let s := s.setCamp n { s.campOf n with q := [] }
  let s := s.setArb (n / 4) { s.arbOf (n / 4) with scope := true }
  restoreScope (fun p => p == 64 + n) s

/-- CAMPION_UNIT_RESET. RST_REQ KIND 1 (R144, R461). -/
def execCampionUnitReset (n : Fin 64) (s : State) : Host.Outcome State Fault Refusal :=
  runClk (fun s => resetCampion n (noteReset 1 n s)) s

end Sys2Proof.Machine
end

