-- ==== Sys2Proof/Machine/Crypto.lean ====
section
/-! DEFINITION. The checks that the spec names by their public standards: CRC-32 of IEEE 802.3, SHA-2, HMAC and Ed25519
(R327, R434). Their arithmetic is not in the spec (log entry 12). Bytes are numbers below 256. -/

namespace Sys2Proof.Machine

/-- The bytes of a word list, little-endian (R325). -/
def wordBytes (l : List Word) : List Nat := l.flatMap fun w => [0, 1, 2, 3].map fun k => bits w.toNat (8 * k) 8

/-- A number from bytes, the first the least significant. -/
def leNum : List Nat → Nat
  | [] => 0
  | b :: l => b + 256 * leNum l

/-- A number from bytes, the first the most significant. -/
def beNum (l : List Nat) : Nat := l.foldl (fun a b => 256 * a + b) 0

/-- n bytes of a number, most significant first. -/
def beBytes (n x : Nat) : List Nat := (List.range n).map fun i => x / 256 ^ (n - 1 - i) % 256

-- CRC-32

/-- One byte of the reflected CRC-32. -/
def crc32Byte (c b : Nat) : Nat :=
  (List.range 8).foldl (fun c _ => if c % 2 = 1 then c / 2 ^^^ 0xEDB88320 else c / 2) (c ^^^ b)

/-- CRC-32 of IEEE 802.3. -/
def crc32 (l : List Nat) : Nat := l.foldl crc32Byte 0xFFFFFFFF ^^^ 0xFFFFFFFF

-- SHA-2

/-- The first n primes from k on, trying fuel numbers. -/
def primesFrom : Nat → Nat → List Nat → List Nat
  | 0, _, acc => acc.reverse
  | fuel + 1, k, acc => primesFrom fuel (k + 1) (if acc.any fun p => k % p == 0 then acc else k :: acc)

/-- The primes below 410, of which SHA-2 takes the first 80. -/
def primes : List Nat := primesFrom 408 2 []

/-- The greatest r below 2 ^ n with r ^ e ≤ x. -/
def rootBelow (e x : Nat) : Nat → Nat → Nat
  | 0, r => r
  | n + 1, r => if (r + 2 ^ n) ^ e ≤ x then rootBelow e x n (r + 2 ^ n) else rootBelow e x n r

/-- The first w bits of the fraction of the e-th root of p. -/
def rootFrac (w e p : Nat) : Nat := rootBelow e (p * 2 ^ (e * w)) (w + 5) 0 % 2 ^ w

/-- The parameters of a SHA-2 function: word width, rounds and rotations. -/
structure Sha where
  w : Nat
  rounds : Nat
  big0 : Nat × Nat × Nat
  big1 : Nat × Nat × Nat
  small0 : Nat × Nat × Nat
  small1 : Nat × Nat × Nat

def sha256 : Sha := ⟨32, 64, (2, 13, 22), (6, 11, 25), (7, 18, 3), (17, 19, 10)⟩
def sha512 : Sha := ⟨64, 80, (28, 34, 39), (14, 18, 41), (1, 8, 7), (19, 61, 6)⟩

def Sha.rotr (h : Sha) (x n : Nat) : Nat := x / 2 ^ n + x % 2 ^ n * 2 ^ (h.w - n)
def Sha.sigma (h : Sha) (t : Nat × Nat × Nat) (x : Nat) : Nat := h.rotr x t.1 ^^^ h.rotr x t.2.1 ^^^ h.rotr x t.2.2
def Sha.sigmaS (h : Sha) (t : Nat × Nat × Nat) (x : Nat) : Nat := h.rotr x t.1 ^^^ h.rotr x t.2.1 ^^^ x / 2 ^ t.2.2

/-- The message schedule, extended by n words; newest word first. -/
def Sha.extend (h : Sha) : Nat → List Nat → List Nat
  | 0, l => l
  | n + 1, l =>
    let x := h.sigmaS h.small1 (l.getD 1 0) + l.getD 6 0 + h.sigmaS h.small0 (l.getD 14 0) + l.getD 15 0
    h.extend n (x % 2 ^ h.w :: l)

/-- The compression of one block of 16 words into the 8 state words. -/
def Sha.block (h : Sha) (st blk : List Nat) : List Nat :=
  let m := 2 ^ h.w
  let sched := (h.extend (h.rounds - 16) blk.reverse).reverse
  let step (v : List Nat) (kw : Nat × Nat) : List Nat :=
    let e := v.getD 4 0
    let a := v.getD 0 0
    let ch := (e &&& v.getD 5 0) ^^^ ((m - 1 - e) &&& v.getD 6 0)
    let maj := (a &&& v.getD 1 0) ^^^ (a &&& v.getD 2 0) ^^^ (v.getD 1 0 &&& v.getD 2 0)
    let t1 := v.getD 7 0 + h.sigma h.big1 e + ch + kw.1 + kw.2
    let t2 := h.sigma h.big0 a + maj
    [(t1 + t2) % m, a, v.getD 1 0, v.getD 2 0, (v.getD 3 0 + t1) % m, e, v.getD 5 0, v.getD 6 0]
  let out := (List.zip ((primes.take h.rounds).map (rootFrac h.w 3)) sched).foldl step st
  (List.zip st out).map fun p => (p.1 + p.2) % m

/-- Byte groups of size n. -/
def groups (n : Nat) : Nat → List Nat → List (List Nat)
  | 0, _ => []
  | fuel + 1, l => if l.isEmpty then [] else l.take n :: groups n fuel (l.drop n)

/-- The hash of a byte list. -/
def Sha.hash (h : Sha) (msg : List Nat) : List Nat :=
  let wb := h.w / 8
  let blk := 16 * wb
  let pad := (2 * blk - (msg.length + 1 + 2 * wb) % blk) % blk
  let bytes := msg ++ 0x80 :: List.replicate pad 0 ++ beBytes (2 * wb) (8 * msg.length)
  let init := (primes.take 8).map (rootFrac h.w 2)
  let out := (groups blk (bytes.length / blk + 1) bytes).foldl (fun st b => h.block st ((groups wb 16 b).map beNum)) init
  out.flatMap (beBytes wb)

/-- HMAC-SHA-256. -/
def hmac256 (key msg : List Nat) : List Nat :=
  let k := (if key.length ≤ 64 then key else sha256.hash key)
  let k := k ++ List.replicate (64 - k.length) 0
  sha256.hash (k.map (· ^^^ 0x5C) ++ sha256.hash (k.map (· ^^^ 0x36) ++ msg))

-- Ed25519

/-- The field prime. -/
def edP : Nat := 2 ^ 255 - 19
/-- The order of the base point. -/
def edL : Nat := 2 ^ 252 + 27742317777372353535851937790883648493

/-- x ^ e modulo p, by the bits of e from bit n - 1 down. -/
def powMod (x e : Nat) : Nat → Nat
  | 0 => 1
  | n + 1 =>
    let y := powMod x (e / 2) n
    let y2 := y * y % edP
    if e % 2 = 1 then y2 * x % edP else y2

def edInv (x : Nat) : Nat := powMod x (edP - 2) 256
def edSub (a b : Nat) : Nat := (a + edP - b % edP) % edP
def edD : Nat := edSub 0 (121665 * edInv 121666)
def edSqrtM1 : Nat := powMod 2 ((edP - 1) / 4) 256

/-- A point in extended coordinates X, Y, Z, T. -/
abbrev EdPoint := Nat × Nat × Nat × Nat

/-- The sum of two points. -/
def edAdd (p q : EdPoint) : EdPoint :=
  let (x1, y1, z1, t1) := p
  let (x2, y2, z2, t2) := q
  let a := edSub y1 x1 * edSub y2 x2 % edP
  let b := (y1 + x1) * (y2 + x2) % edP
  let c := t1 * 2 * edD * t2 % edP
  let d := z1 * 2 * z2 % edP
  let e := edSub b a
  let f := edSub d c
  let g := (d + c) % edP
  let h := (b + a) % edP
  (e * f % edP, g * h % edP, f * g % edP, e * h % edP)

/-- The multiple k of a point, by n bits of k. -/
def edMul (q : EdPoint) (k : Nat) : Nat → EdPoint
  | 0 => (0, 1, 1, 0)
  | n + 1 =>
    let r := edMul q (k / 2) n
    let r2 := edAdd r r
    if k % 2 = 1 then edAdd r2 q else r2

def edEq (p q : EdPoint) : Bool :=
  p.1 * q.2.2.1 % edP == q.1 * p.2.2.1 % edP && p.2.1 * q.2.2.1 % edP == q.2.1 * p.2.2.1 % edP

/-- The point of an encoding of 32 bytes. -/
def edPoint (b : List Nat) : Option EdPoint :=
  let n := leNum b
  let y := n % 2 ^ 255
  let sign := n / 2 ^ 255
  let u := edSub (y * y) 1
  let v := (edD * (y * y) + 1) % edP
  let x2 := u * edInv v % edP
  let r := powMod x2 ((edP + 3) / 8) 256
  let x := if r * r % edP == x2 then r else r * edSqrtM1 % edP
  if edP ≤ y || x * x % edP != x2 || (x == 0 && sign == 1) then none
  else
    let x := if x % 2 == sign then x else edP - x
    some (x, y, 1, x * y % edP)

/-- The base point. -/
def edBase : EdPoint := (edPoint (beBytes 32 (4 * edInv 5 % edP)).reverse).getD (0, 1, 1, 0)

/-- The verification of a pure Ed25519 signature of 64 bytes over a message under a key of 32 bytes (RFC 8032). -/
def edVerify (key sig msg : List Nat) : Bool :=
  let rb := sig.take 32
  let s := leNum (sig.drop 32)
  match edPoint rb, edPoint key with
  | some r, some a =>
    let k := leNum (sha512.hash (rb ++ key ++ msg)) % edL
    let eight (p : EdPoint) : EdPoint := edMul p 8 4
    decide (s < edL) && edEq (eight (edMul edBase s 256)) (eight (edAdd r (edMul a k 256)))
  | _, _ => false

end Sys2Proof.Machine
end

