-- ==== Sys2Proof/Machine/Sources.lean ====
section
/-! DEFINITION. Sources: windows, wired latches, the Yarrow array, and the commands of R43, R46 and R69. -/

namespace Sys2Proof.Machine

-- windows (R67, R69, R70, R540)

/-- The window an event with stamp st belongs to, as its epoch less the present one, and whether st lies inside the
window's bounds (R67, R540). A disabled window spans the whole epoch. DESIGN CHOICE (log entry 48): a stamp from before E_0
belongs to an epoch before epoch 0, of length 0 and numbered one below it. -/
def winPos (s : State) (en : Bool) (o c st : Nat) : Int × Bool :=
  let e := s.epoch.start.toNat
  let p := s.epoch.prev.toNat
  if !en then (if e ≤ st then (0, true) else (-1, true))
  else if e ≤ st then (if st < e + c then (0, decide (e + o ≤ st)) else (1, false))
  else
    let st := max st p
    if st < p + c then (-1, decide (p + o ≤ st)) else (0, false)

/-- The epoch number off epochs from the present one. -/
def epochAt (s : State) (off : Int) : BitVec 32 := s.epoch.num + BitVec.ofInt 32 off

/-- The opening of source n's window in the present epoch, in ticks (R69, R73). -/
def winOpens (s : State) (n : Nat) : Nat :=
  s.epoch.start.toNat + (if s.flag (Reg.SRC_CFG0_WINEN n) then s.rd (Reg.SRC_CFG2_OPEN n) else 0)

/-- An event of epoch win's window may be offered: the window of an epoch that has ended has opened, that of the present
one opens at OPEN (R69, R70). -/
def winReady (s : State) (n : Nat) (win : BitVec 32) : Bool :=
  decide (0 < (s.epoch.num - win).toInt) || (win == s.epoch.num && decide (winOpens s n ≤ s.t))

/-- Epoch k has ended at tick end_, and a window that had not opened by then is empty: the events it holds belong to the
next window (R70). -/
def emptyWindows (end_ : Nat) (s : State) : State :=
  s.each s.src.latch fun e s => match e.2 with
    | some l =>
      if e.1 < 1024 ∧ l.ready = false ∧ l.win = s.epoch.num ∧ end_ ≤ winOpens s e.1 then
        s.setLatch e.1 (some { l with win := l.win + 1 })
      else s
    | none => s

/-- A qualifying change reaches wired source n's latch (R46 to R48, R69, R70, R73, R93, R96, R470). An event past A0 is replaced
by none. -/
def latchEvent (n : Nat) (stamp : Tick) (payload : BitVec 16) (typ : BitVec 6) (s : State) : State :=
  let en := s.flag (Reg.SRC_CFG0_WINEN n)
  let o := s.rd (Reg.SRC_CFG2_OPEN n)
  let c := s.rd (Reg.SRC_CFG2_CLOSE n)
  if !s.su.open_ || !srcEn s n || groupHeld s n || (en && decide (c ≤ o)) then s
  else
    let (off, inside) := winPos s en o c stamp.toNat
    if en && s.flag (Reg.SRC_CFG0_WINMODE n) && !inside then s.inc Reg.ACC_WINMISS
    else
      let win := epochAt s off
      let l : Latched := ⟨stamp, payload, typ, win, inside || winReady s n win, false⟩
      match s.latchOf n with
      | none => s.setLatch n (some l)
      | some _ =>
        if srcCls s n = .s ∧ offerFlying s n = false then coalesce n (s.setLatch n (some l))
        else countRefusal 0 0 (formMsg s n stamp win payload typ 0) s

/-- A latched event of a source that is now disabled is discarded and counted; one whose offer is past A0 goes on to its
accept point (R71, R84, R91, R106). -/
def discardDisabled (s : State) : State :=
  s.each (s.src.latch.map (·.1)) fun n s =>
    match s.latchOf n with
    | some l =>
      if srcEn s n || offerFlying s n then s
      else countRefusal 1 0 (formMsg s n l.stamp l.win l.payload l.typ 0) (s.setLatch n none)
    | none => s

-- the input map and the cells (R50 to R59)

/-- The input-map word of wired source n (R51, R332). -/
def mapWord (s : State) (n : Nat) : Nat := s.struct (n / 256) (512 + n % 256)
/-- Source n is fed by a cell. -/
def mapCelled (s : State) (n : Nat) : Bool := bit (mapWord s n) 0
/-- The full index of the cell that feeds source n. -/
def mapCell (s : State) (n : Nat) : Nat := 64 * (n / 256) + bits (mapWord s n) 1 6

/-- Word w of a cell's record (R56). -/
def cellWord (s : State) (c w : Nat) : Nat := s.struct (c / 64) (8 * (c % 64) + w)
/-- The select of input k of a cell (R52, R56). -/
def cellSel (s : State) (c k : Nat) : Nat := bits (cellWord s c (2 + k / 2)) (16 * (k % 2)) 11
def cellRun (s : State) (c : Nat) : CellRun := tget {} s.yar.run c
def setCellRun (s : State) (c : Nat) (x : CellRun) : State :=
  { s with yar := { s.yar with run := tset {} s.yar.run c x } }

/-- The second-stage level of wired input n. -/
def lineLevel (s : State) (n : Nat) : Bool := tget false s.src.levels n

/-- The value of a select (R52). DESIGN CHOICE (log entry 48): a reserved select reads 0, and a cell of another group
gives its output. -/
def selValue (s : State) (x : Nat) : Bool :=
  if x < 0x400 then lineLevel s x else if x < 0x500 then (cellRun s (x - 0x400)).out else x == 0x501

/-- The stamp a select carries (R54). -/
def selStamp (s : State) (x : Nat) : Nat :=
  if x < 0x400 then (tget (0 : Tick) s.src.stamps x).toNat
  else if x < 0x500 then (cellRun s (x - 0x400)).stamp.toNat else 0

/-- A cell window lets a stamp through: mask behaviour (R53). -/
def cellWindow (s : State) (c : Nat) (st : Nat) : Bool :=
  let w := cellWord s c 6
  let r := winPos s true (bits w 0 16) (bits w 16 16) st
  decide (bits w 0 16 < bits w 16 16) && r.2

/-- Steps 4 and 5 of R53 for a cell whose qualifier q holds, with q's stamp and inputs, and the present inputs, one of which
clears the latch (R55). DESIGN CHOICE (log entry 48): a count of 0 makes a pulse of every q, the reserved CLRSEL clears
nothing, and an output that falls with its cleared latch keeps the stamp of the pulse that set it. -/
def cellFinish (s : State) (c : Nat) (q : Bool) (stamp : Tick) (ins now : BitVec 6) (x : CellRun) : CellRun :=
  let w := cellWord s c 5
  let n := bits w 8 8
  let cnt := if q && bit w 7 then x.count.toNat + 1 else x.count.toNat
  let hit := bit w 7 && q && decide (n ≤ cnt)
  let pulse := if bit w 7 then hit else q
  let x := { x with count := BitVec.ofNat 8 (if hit then 0 else cnt) }
  let pay := BitVec.ofNat 16 (ins.toNat + 64 * (if hit then n else 0))
  if bit w 2 then
    let sel := bits w 3 3
    let clr := decide (sel < 6) && now.getLsbD sel
    if pulse && !x.lat then { x with lat := true, out := true, stamp := stamp, pay := pay }
    else if pulse then x
    else if clr then { x with lat := false, out := false }
    else { x with out := x.lat }
  else if pulse then { x with out := true, stamp := stamp, pay := pay }
  else { x with out := false, stamp := if x.out then stamp else x.stamp }

/-- The stamp that a change of a thaw carries until the thaw ends: later than every tick (R58, R68; log entry 10). -/
def pendingStamp : Tick := BitVec.allOnes 64

/-- One evaluation of a cell from the registered outputs (R53, R54, R58, R59). In a thaw a windowed cell only marks on a
stamp that the thaw has still to give; once that stamp is known, which is in O, a marked cell applies its window to it and
takes steps 4 and 5 once. DESIGN CHOICE (log entry 48): at the first evaluation after the S0 copy, a lookup of 1 carries the
latest stamp of the inputs at 1, or 0. -/
def cellEval (s : State) (inThaw : Bool) (c : Nat) : CellRun :=
  let x := cellRun s c
  let ks := List.range 6
  let ins : BitVec 6 := BitVec.ofNat 6 ((ks.map fun k => b2n (selValue s (cellSel s c k)) * 2 ^ k).sum)
  let lut := cellWord s c 0 + 2 ^ 32 * cellWord s c 1
  let f := bit lut ins.toNat
  let prev := if x.fresh then f else x.f
  let moved := ks.filter fun k => ins.getLsbD k != x.ins.getLsbD k
  let st : Tick :=
    if f == x.f then x.fStamp else BitVec.ofNat 64 ((moved.map fun k => selStamp s (cellSel s c k)).foldl max 0)
  let edge := bits (cellWord s c 5) 0 2
  let q := match edge with
    | 0 => f
    | 1 => f && !prev
    | 2 => !f && prev
    | _ => f != prev
  let x := { x with ins := ins, f := f, fStamp := st, fresh := false }
  let win := bit (cellWord s c 5) 16
  if x.mark && x.markStamp != pendingStamp then
    cellFinish s c (cellWindow s c x.markStamp.toNat) x.markStamp x.markIns ins { x with mark := false }
  else if win && inThaw && q && st == pendingStamp then
    cellFinish s c false st ins ins { x with mark := true, markStamp := st, markIns := ins }
  else cellFinish s c (q && (!win || cellWindow s c st.toNat)) st ins ins x

/-- The cells whose record is not all zero; the others never change. -/
def cellsUsed (s : State) : List Nat :=
  let idx := s.yar.words.filterMap fun e => if e.1 % 768 < 512 then some (64 * (e.1 / 768) + e.1 % 768 / 8) else none
  idx.dedup

/-- The wired sources that a cell feeds. -/
def fedBy (s : State) (c : Nat) : List Nat :=
  let idx := s.yar.words.filterMap fun e =>
    if 512 ≤ e.1 % 768 then some (256 * (e.1 / 768) + (e.1 % 768 - 512)) else none
  idx.filter fun n => mapCelled s n && mapCell s n == c

/-- A change from old to new raises an event in the edge modes of R46. -/
def edgeMode (mode : Nat) (old new : Bool) : Bool :=
  (mode == 0 && !old && new) || (mode == 1 && old && !new) || (mode == 2 && old != new)

/-- The level that a level mode waits for (R46). -/
def levelMode (mode : Nat) (lvl : Bool) : Bool := (mode == 3 && lvl) || (mode == 4 && !lvl)

/-- An event of the stream stands somewhere on this die: in an offer, in a record that is not complete, or on its way
(R46). -/
def streamLive (s : State) (src : Nat) : Bool :=
  let mine (m : Msg) : Bool := m.origin == s.die && m.source.toNat == src && m.isEvent
  s.acc.offers.any (mine ·.msg)
    || (firnFind s fun r => (r.kind == .event && !r.releasing || r.kind == .custody && !r.done) && mine r.msg).isSome
    || s.xb.recHold.any (mine ·.msg) || s.xb.retHold.any (fun e => e.2.any mine) || s.xb.barHold.any mine
    || s.lnk.any (fun e => e.2.tx.any mine || e.2.unacked.any (mine ·.2))
    || s.xb.bufs.any (fun e => e.2.any (mine ·.msg)) || s.xb.staging.any (fun e => e.2.any (mine ·.msg))
    || s.xb.rings.any (fun e => e.2.any fun b => b.2.any (mine ·.msg))
    || s.rq.crossing.any (fun e => e.2.any (mine ·.msg)) || s.rq.lanes.any (fun e => e.2.any mine)
    || s.rq.toClus.any (fun e => e.2.any (mine ·.2))
    || s.core.any (fun e => e.2.pend.any mine || e.2.taken.any mine || e.2.active.any mine)
    || s.camp.any (fun e => e.2.q.any (mine ·.msg) || e.2.run.any (mine ·.msg))
    || s.seg.any (fun e => e.2.bursts.any (mine ·.msg))

/-- The source has no event latched, queued, pending, active or running (R46). -/
def sourceIdle (s : State) (n : Nat) : Bool := (s.latchOf n).isNone && !streamLive s n

/-- A change of the line or cell output that feeds source n reaches the source (R46). In a thaw it sets the source's
thaw-pending mark (R203). -/
def sourceChange (inThaw : Bool) (n : Nat) (old new : Bool) (stamp : Tick) (payload : BitVec 16) (typ : BitVec 6)
    (s : State) : State :=
  let mode := s.rd (Reg.SRC_CFG0_MODE n)
  if inThaw then
    if edgeMode mode old new then
      { s with src := { s.src with marks := tset none s.src.marks n (some (payload, typ)) } }
    else s
  else if edgeMode mode old new || (levelMode mode new && sourceIdle s n) then latchEvent n stamp payload typ s else s

/-- One cycle of the array: every cell evaluates from the outputs of the cycle before, and the sources see the changes
of the outputs (R53, R54). -/
def yarCycle (inThaw : Bool) (s : State) : State :=
  let cs := cellsUsed s
  let news := cs.map fun c => (c, cellEval s inThaw c)
  let olds := cs.map fun c => (c, (cellRun s c).out)
  let s := s.each news fun e s => setCellRun s e.1 e.2
  s.each olds fun e s =>
    let x := cellRun s e.1
    if x.out == e.2 then s else s.each (fedBy s e.1) fun n s => sourceChange inThaw n e.2 x.out x.stamp x.pay 1 s


/-- The pending stamp is resolved to the tick at which the thaw ends, wherever it stands (R58, R68). -/
def resolveStamps (stamp : Tick) (s : State) : State :=
  let fix (x : Tick) : Tick := if x == pendingStamp then stamp else x
  let s := s.each s.src.stamps fun e s => { s with src := { s.src with stamps := tset 0 s.src.stamps e.1 (fix e.2) } }
  s.each s.yar.run fun e s =>
    setCellRun s e.1 { e.2 with fStamp := fix e.2.fStamp, stamp := fix e.2.stamp, markStamp := fix e.2.markStamp }

/-- The payload of an event of a direct source (R49). -/
def directPayload (s : State) (n : Nat) (level : Bool) : BitVec 16 :=
  if n < 128 then tget 0 s.src.bundles n else BitVec.ofNat 16 (b2n level)

/-- The line of wired input n takes a new level with a stamp, and reaches its direct source; the array sees it in its
next cycle (R43, R45, R49, R53, R57). -/
def lineChange (inThaw : Bool) (n : Nat) (level : Bool) (data : BitVec 16) (stamp : Tick) (s : State) : State :=
  let old := lineLevel s n
  let src := { s.src with levels := tset false s.src.levels n level, stamps := tset 0 s.src.stamps n stamp }
  let src := if n < 128 then { src with bundles := tset 0 src.bundles n data } else src
  let s := { s with src := src }
  if mapCelled s n then s else sourceChange inThaw n old level stamp (directPayload s n level) 0 s

/-- A pulse shorter than 3 ticks is caught or not, and the fabric gives no rule for which (R44). -/
def pulseSeen (width : Nat) (s : State) : Bool := decide (3 ≤ width) || Config.pulseCaught s.fresh

/-- WIRED_INPUT_EDGE. The line wi_evt[n] takes a level for at least width ticks, its bundle beside it. In deep sleep
lines are not sampled (R459); before thaw 0 a change is neither stamped nor latched (R470). -/
def execWiredInputEdge (n : Fin 1024) (level : Bool) (data : BitVec 16) (odd : Bool) (width : Nat) (s : State) :
    Host.Outcome State Fault Refusal :=
  run (fun s =>
    let seen := pulseSeen width s
    let s := if width < 3 then { s with fresh := s.fresh + 1 } else s
    if !seen || s.time.sleep != .awake || level == lineLevel s n then s
    else if !s.su.open_ then lineChange false n level data (tget 0 s.src.stamps n) s
    else lineChange false n level data (s.time.now + BitVec.ofNat 64 (b2n odd)) s) s

/-- The line or cell output that feeds source n, and the payload of a level event (R46, R49, R51). -/
def sourceLevel (s : State) (n : Nat) : Bool :=
  if mapCelled s n then (cellRun s (mapCell s n)).out else lineLevel s n

/-- A level-mode source that is idle while its level is active raises an event (R46). -/
def levelTest (n : Nat) (stamp : Tick) (s : State) : State :=
  let lvl := sourceLevel s n
  if levelMode (s.rd (Reg.SRC_CFG0_MODE n)) lvl && sourceIdle s n then
    if mapCelled s n then latchEvent n stamp (cellRun s (mapCell s n)).pay 1 s
    else latchEvent n stamp (directPayload s n lvl) 0 s
  else s

/-- LEVEL_RERAISE. A second-stage sample finds the level of a level-mode source active and the source idle (R46). -/
def execLevelReraise (n : Fin 1024) (s : State) : Host.Outcome State Fault Refusal :=
  run (fun s =>
    if s.su.open_ && s.time.sleep == .awake then levelTest n s.time.now s else s) s

/-- WINDOW_OPEN. System time stands at the opening of the window that source n's latched event waits for, and the
event becomes offerable (R69, R73). -/
def execWindowOpen (n : Fin 1024) (s : State) : Host.Outcome State Fault Refusal :=
  run (fun s =>
    match s.latchOf n with
    | some l => if winReady s n l.win then s.setLatch n (some { l with ready := true }) else s
    | none => s) s

end Sys2Proof.Machine
end

