-- ==== Sys2Proof/Machine/Image.lean ====
section
/-! DEFINITION. The configuration image: the loader, its checks and its boot and persist runs, held and staged words, the
halves of tables and banks, and rime (R325 to R365). The side says whose loader acts: the field die's or the host
gate's. -/

namespace Sys2Proof.Machine

-- staged words

/-- The word at a window offset has a field of an access code. -/
def RegRow.has (r : RegRow) (c : AccCode) : Bool := r.flds.any (·.acc == c)

/-- A field of a row's word at an offset. -/
def FldSpec.at (f : FldSpec) (off : Nat) : Fld := ⟨off, f.lo, f.w, f.rst⟩

/-- The staged value of a field: the value last staged, or the committed one (R199, R490). -/
def State.rdStaged (s : State) (f : Fld) : Nat := (tget none s.staged f.key).getD (s.rd f)

/-- A field value enters the staged copy. -/
def State.stage (s : State) (f : Fld) (v : Nat) : State :=
  { s with staged := tset none s.staged f.key (some (v % 2 ^ f.w)) }

/-- A word enters the staged copy: its WS fields. -/
def stageWord (off w : Nat) (s : State) : State :=
  match findReg off with
  | some (r, _, _) => s.each (r.flds.filter (·.acc == .ws)) fun f s => s.stage (f.at off) (bits w f.lo f.w)
  | none => s

/-- A word of the staged copy returns to its committed value. -/
def unstageWord (off : Nat) (s : State) : State :=
  match findReg off with
  | some (r, _, _) => s.each (r.flds.filter (·.acc == .ws)) fun f s =>
      { s with staged := tset none s.staged (f.at off).key none }
  | none => s

/-- A word of the staged copy becomes the active word (R199). Its rime reference goes with it (R354, R356). -/
def commitWord (off : Nat) (s : State) : State :=
  match findReg off with
  | some (r, _, _) =>
    let s := s.each (r.flds.filter (·.acc == .ws)) fun f s =>
      match tget none s.staged (f.at off).key with
      | some v => s.wr (f.at off) v
      | none => s
    let s := unstageWord off s
    { s with rime := { s.rime with ref := tset none s.rime.ref off none, marks := s.rime.marks.filter (· != (0, off / 4)) } }
  | none => s

/-- The offsets of the staged words. -/
def stagedWords (s : State) : List Nat := (s.staged.map fun e => e.1 / 32).dedup

-- the loader's places

/-- The load of a side (R340). -/
def loadOf (d : Side) (s : State) : LoadS := match d with | .field => s.img.load | .host => s.img.hload
def setLoad (d : Side) (l : LoadS) (s : State) : State :=
  match d with
  | .field => { s with img := { s.img with load := l } }
  | .host => { s with img := { s.img with hload := l } }

/-- The words of spaces 0x10 to 0x33 (R329). -/
def spaceSize (space : Nat) : Nat :=
  if space = 0 then 16384 else if 0x10 ≤ space ∧ space < 0x14 then 768 else if space = 0x20 then 128
  else if space = 0x21 then 10498 else if space = 0x22 then 512 else if 0x30 ≤ space ∧ space < 0x34 then 4096
  else if space = 0x40 then 65 else 0

/-- The window offset of a register-space word of a side (R329, R331). -/
def spaceOff (d : Side) (idx : Nat) : Nat := 4 * idx + match d with | .field => 0 | .host => 0x100000

/-- The segment that may name a register word, and whether it is a boot-only word (R330, R331). -/
def regSeg (id : RegId) : Option (Nat × Bool) :=
  match id with
  | .SRC_CFG0 | .SRC_CFG1 | .SRC_CFG2 | .SRC_CFG3 | .VEC_CFG | .ACC_CTRL | .ACC_HQUOTA => some (1, false)
  | .CAMP_RCTRL => some (2, false)
  | .RT_ENTRY | .ROUTE_VER | .TIME_CTRL | .LNK_PEER => some (3, false)
  | .EPOCH_PERIOD | .THAW0_LO | .THAW0_HI | .LNK_CTRL | .CAP_CTRL | .RIME_CTRL => some (3, true)
  | .ARBC_CTRL | .ARBC_WT | .ARBV_CTRL | .ARBV_WTL | .ARBS_CTRL | .ARBS_WT | .ARBS_WTL | .MRN_BASE | .MRN_CTRL
  | .MRN_QCFG | .REC_CTRL | .LOCK_CTRL | .ARBW_CTRL | .ARBW_WT | .ARBW_WTL | .SLC_SHARE => some (4, false)
  | .PWR_CFG | .PWR_CFG23 | .WB_CTRL | .WB_COST | .H_PWR_CFG | .H_WB_CTRL | .H_WB_COST => some (6, false)
  | _ => none

/-- No field of a word holds a value that its register's table reserves: MODE alone has such values (R46, R74, R337). -/
def valuesOk (id : RegId) (w : Word) : Bool := id != .SRC_CFG0 || decide (bits w.toNat 1 3 < 5)

/-- A word may stand at an index of a space in segment seg of a load of this side (R329 to R331, R337). -/
def chunkWordOk (d : Side) (seg space idx : Nat) (boot : Bool) (w : Word) : Bool :=
  if space = 0 then
    match findReg (spaceOff d idx) with
    | some (r, i, _) =>
      let field := r.base < 0x100000
      (field == (d == .field)) && match regSeg r.id with
        | some (sg, once) =>
          let fs := r.flds.filter fun f => if once then f.acc == .rw else f.acc == .ws
          sg == seg && (!once || boot) && (r.id != .CAMP_RCTRL || decide (i < 4)) && valuesOk r.id w
            && w.toNat == (fs.map fun f => bits w.toNat f.lo f.w * 2 ^ f.lo).sum
        | none => false
    | none => false
  else if space = 0x40 then
    seg == 5 && if d == .host then decide (idx < 1) && decide (w.toNat < 2)
      else decide (idx < 65) && decide (w.toNat < if idx < 64 then 2 ^ 15 else 2 ^ 24)
  else
    d == .field && decide (idx < spaceSize space) &&
      (if space < 0x20 then seg == 0 else if space < 0x30 then seg == 1 else seg == 2)

/-- The key of a word in the tables of ImgS. -/
def imgKey (space idx : Nat) : Nat := 65536 * space + idx

/-- A word of a source map, the internal-source table or an Avalanche set keeps its layout: a source map has lanes below 12, and
sources 5,120 to 5,148 have well-formed destinations (R332, R333, R335). -/
def tableWordOk (s : State) (space idx : Nat) (w : Word) : Bool :=
  let x := w.toNat
  if 0x10 ≤ space ∧ space < 0x14 ∧ 512 ≤ idx then !bit x 7 && decide (bits x 8 24 < 12)
  else if space = 0x20 then if idx < 29 then decide (x < 2 ^ 23) && destOk s (BitVec.ofNat 12 x) else x == 0
  else if space = 0x22 then decide (x < if idx % 4 = 0 then 2 ^ 28 else 2 ^ 24)
  else true

-- the checks of a load

/-- Header word i of a load (R326). -/
def LoadS.hdr (l : LoadS) (i : Nat) : Nat := (l.words.reverse.getD i 0).toNat

/-- The DIR entry of segment k: offset and length in bytes. -/
def LoadS.seg (l : LoadS) (k : Nat) : Nat × Nat := (l.hdr (10 + 2 * k), l.hdr (11 + 2 * k))

/-- SEGMASK names segments that an image of its side and kind may or must hold: a full image S0 to S4 and S6, a host gate image
only S4, S5 and S6 (R326, R331, R336). -/
def maskOk (d : Side) (full : Bool) (mask : Nat) : Bool :=
  !bit mask 7 && match d with
    | .field => !full || [0, 1, 2, 3, 4, 6].all (bit mask)
    | .host => [0, 1, 2, 3].all (!bit mask ·) && (!full || [4, 6].all (bit mask))

/-- LENGTH keeps R325. -/
def lengthOk (len : Nat) : Bool := decide (192 ≤ len) && decide (len ≤ 262144) && len % 4 == 0

/-- Where the present segments before segment k end (R326). -/
def LoadS.endBefore (l : LoadS) (k : Nat) : Nat :=
  (List.range k).foldl (fun e j => if bit (l.hdr 1 / 2 ^ 24) j then (l.seg j).1 + (l.seg j).2 else e) 0xC0

/-- The DIR entry of segment k agrees with R326, given those before it. -/
def dirOk (l : LoadS) (k : Nat) : Bool :=
  let (o, n) := l.seg k
  if bit (l.hdr 1 / 2 ^ 24) k then
    decide (l.endBefore k ≤ o) && o % 4 == 0 && n % 4 == 0 && decide (o + n ≤ l.hdr 2)
  else o == 0 && n == 0

/-- The public key of a slot, and whether the slot is empty or revoked (R339). -/
def otpWord (s : State) (i : Nat) : Nat := (tget 0 s.img.otp i).toNat
def keySlot (s : State) (k : Nat) : List Nat := wordBytes ((List.range 8).map fun i => tget 0 s.img.otp (4 + 8 * k + i))
def keyBad (s : State) (k : Nat) : Bool := decide (3 < k) || (keySlot s k).all (· == 0) || bit (otpWord s 3) k
/-- MINSEC: the number of 1 bits in OTP word 2 (R339). -/
def minSec (s : State) : Nat := ((List.range 32).filter fun k => bit (otpWord s 2) k).length

/-- IMG_ID of a side. -/
def imgId (d : Side) (s : State) : Nat :=
  match d with
  | .field => s.rd Reg.IMG_ID_LO + 2 ^ 32 * s.rd Reg.IMG_ID_HI
  | .host => s.rd Reg.H_IMG_ID_LO + 2 ^ 32 * s.rd Reg.H_IMG_ID_HI

/-- The origin-die value an image must name: the host gate stands at die position 3 (R27, R38). -/
def sideDie (d : Side) (s : State) : Nat :=
  match d with
  | .field => s.die.toNat
  | .host => 4 * s.pins.idPkg.toNat + 3

/-- The image of a load is full: KIND is odd (R326). -/
def LoadS.full (l : LoadS) : Bool := bit (l.hdr 1) 16

/-- The reason that header word i, just taken, rejects the load; 0 for none (R326, R336, R337, R341). DEDUCED (log entry 59):
reserved bits give the reason of the field beside them, FLAGS that of the layout. -/
def headerCheck (d : Side) (l : LoadS) (i : Nat) (s : State) : Nat :=
  let w := l.hdr i
  match i with
  | 0 => if w = 0x474E4C50 then 0 else 1
  | 1 =>
    let kind := bits w 16 8
    let full := if d == .host then 3 else 1
    if bits w 0 16 ≠ 0x0100 then 2 else if ¬(kind = full ∨ (kind = full + 1 ∧ l.boot = false)) then 3
    else if maskOk d l.full (w / 2 ^ 24) then 0 else 5
  | 2 => if lengthOk w then 0 else 5
  | 7 => if l.hdr 6 + 2 ^ 32 * w = (if l.full then 0 else imgId d s) then 0 else 7
  | 8 => if w < 64 ∧ (bit w 5 ∨ bits w 0 5 = sideDie d s) then 0 else 4
  | 9 =>
    if keyBad s (bits w 0 8) then 11 else if bits w 8 8 < minSec s ∨ 32 < bits w 8 8 then 6
    else if 1 < bits w 16 16 then 5 else 0
  | _ =>
    if 10 ≤ i ∧ i < 24 ∧ i % 2 = 1 then if dirOk l ((i - 11) / 2) then 0 else 5
    else if 40 ≤ i ∧ w ≠ 0 then 5 else 0

-- ends of a load

/-- A load ends in ERROR: RESTORE undoes its held words first, and a write that the port still holds is answered with a
bus error (R341 to R343, R361). -/
def failLoad (d : Side) (reason : Nat) (s : State) : State :=
  let l := loadOf d s
  let l' := { l with st := .restore, err := reason, fifo := [], chunk := none, chunkHi := none, parts := [], wait := none }
  let s := setLoad d l' s
  let s := match l.wait with
    | some (a, _, _) => busError a 0x20004 6 true s
    | none => s
  if reason = 14 then s.wr Reg.LOAD_STATUS_TWIN 2 else s

/-- The seal keeps S5 words out of a load (R341, R440). -/
def sealClosed (s : State) : Bool := s.edw.sealed_ || s.edw.first

/-- One data word of a chunk: checked, written to the staged side of its target and held (R328 to R330, R343, R347). -/
def takeDatum (d : Side) (seg : Nat) (c : Chunk) (w : Word) (s : State) : State :=
  let l := loadOf d s
  if c.space == 0x40 && d == .field && sealClosed s then failLoad d 16 s
  else if c.space == 0x40 && d == .host && s.gate.edwOnce then failLoad d 16 s
  else if !chunkWordOk d seg c.space c.at_ l.boot w || !tableWordOk s c.space c.at_ w then failLoad d 8 s
  else
    let next : Chunk := { c with left := c.left - 1, at_ := c.at_ + 1 }
    let off := spaceOff d c.at_
    let once := c.space == 0 && ((findReg off).bind fun r => regSeg r.1.id).any (·.2)
    if once then
      let s := setLoad d { l with chunk := some next, committed := true } s
      match findReg off with
      | some (r, p, _) =>
        let s := s.each (r.flds.filter (·.acc == .rw)) fun f s => s.wr (f.at off) (bits w.toNat f.lo f.w)
        if r.id == .LNK_CTRL then s.wr (Reg.LNK_CTRL_DOWN p) 0 else s
      | none => s
    else
      let s := setLoad d { l with chunk := some next, held := (c.space, c.at_, w) :: l.held } s
      if c.space = 0 then stageWord off w.toNat s
      else
        let k := imgKey (c.space + if d == .host then 0x100 else 0) c.at_
        { s with img := { s.img with half := tset 0 s.img.half k w } }

/-- The segment whose bytes hold word i of the image, and the words left in it from there on. -/
def segAt (l : LoadS) (i : Nat) : Option (Nat × Nat) :=
  (List.range 7).findSome? fun k =>
    let (o, n) := l.seg k
    if bit (l.hdr 1 / 2 ^ 24) k && decide (o ≤ 4 * i) && decide (4 * i < o + n) then some (k, (o + n) / 4 - i) else none

/-- A word of the body (R326, R328). -/
def takeBody (d : Side) (i : Nat) (w : Word) (s : State) : State :=
  let l := loadOf d s
  match segAt l i with
  | none => if w = 0 then s else failLoad d 5 s
  | some (seg, room) =>
    match l.chunk with
    | some c => if c.left = 0 then header l room s else takeDatum d seg c w s
    | none => header l room s
where
  /-- A word of a chunk header; the chunk must end within its segment and its space (R328, R329). -/
  header (l : LoadS) (room : Nat) (s : State) : State :=
    match l.chunkHi with
    | none =>
      if room = 1 then failLoad d 8 s else setLoad d { l with chunkHi := some w, chunk := none } s
    | some h =>
      let space := bits h.toNat 0 8
      let count := bits h.toNat 16 16
      let start := w.toNat
      if bits h.toNat 8 8 = 0 ∧ 1 ≤ count ∧ count + 1 ≤ room ∧ start + count ≤ spaceSize space then
        setLoad d { l with chunkHi := none, chunk := some ⟨space, count, start⟩ } s
      else failLoad d 8 s

/-- The offsets of the register words of a side that a load of any kind may name, in map order (R330, R331). -/
def wsRegs (d : Side) : List Nat :=
  (regRows.filter fun r => (decide (r.base < 0x100000) == (d == .field)) && r.has .ws && (regSeg r.id).isSome).flatMap fun r =>
    (List.range (if r.id == .CAMP_RCTRL then 4 else r.n1)).flatMap fun i =>
      (List.range r.n2).map fun j => r.base + r.s1 * i + r.s2 * j

/-- The load holds every word of the spaces that a full image covers. DEDUCED (log entry 59): the boot-only words are no part of
that, since a full image at run time must leave them out (R330, R331, R336). -/
def covers (d : Side) (l : LoadS) : Bool :=
  let has (sp i : Nat) : Bool := l.held.any fun h => h.1 == sp && h.2.1 == i
  (d == .host || [0x10, 0x11, 0x12, 0x13, 0x20, 0x21, 0x22, 0x30, 0x31, 0x32, 0x33].all fun sp =>
      (List.range (spaceSize sp)).all (has sp))
    && (wsRegs d).all fun off => l.held.any fun h => h.1 == 0 && spaceOff d h.2.1 == off

/-- The Avalanche sets that a load names keep R335: an unused set is 0, and so are the destinations beyond COUNT. -/
def setsOk (s : State) (l : LoadS) : Bool :=
  ((l.held.filter (·.1 == 0x22)).map (·.2.1 / 4)).dedup.all fun q =>
    let w (k : Nat) : Nat := (tget 0 s.img.half (imgKey 0x22 (4 * q + k))).toNat
    let n := bits (w 0) 13 3
    let all := [bits (w 0) 16 12, bits (w 1) 0 12, bits (w 1) 12 12, bits (w 2) 0 12, bits (w 2) 12 12,
      bits (w 3) 0 12, bits (w 3) 12 12]
    (all.drop n).all (· == 0) && (n != 0 || w 0 == 0)

/-- A delta would change both the destination and the class of a source at one thaw (R318, R337). -/
def movesClass (s : State) (l : LoadS) : Bool :=
  let new (f : Fld) : Bool := s.rdStaged f != s.rd f
  l.held.any fun h => h.1 == 0 && match findReg (4 * h.2.1) with
    | some (r, n, _) =>
      (r.id == .SRC_CFG0 && new (Reg.SRC_CFG0_CLASS n) && new (Reg.SRC_CFG1_DEST n))
        || (r.id == .VEC_CFG && new (Reg.VEC_CFG_CLASS n) && new (Reg.VEC_CFG_DEST n))
    | none => false

/-- What the loader checks once the last word is taken (R335 to R337). DEDUCED (log entry 59): its reason is CHUNK. -/
def bodyOk (d : Side) (l : LoadS) (s : State) : Bool :=
  (!l.full || covers d l) && setsOk s l && (l.full || d == .host || !movesClass s l)

/-- One word of the FIFO is drained (R326, R340, R342). -/
def takeWord (d : Side) (w : Word) (s : State) : State :=
  let l := loadOf d s
  let i := l.taken
  let s := setLoad d { l with words := w :: l.words, taken := i + 1 } s
  let s :=
    if i < 48 then
      let r := headerCheck d (loadOf d s) i s
      if r = 0 then s else failLoad d r s
    else takeBody d i w s
  let l := loadOf d s
  if (l.st == .header || l.st == .body) && decide (24 ≤ l.taken) && l.hdr 2 == 4 * l.taken then
    if bodyOk d l s then setLoad d { l with st := .verify, fifo := [] } s else failLoad d 8 s
  else s

/-- The loader-port area of a boot block, A or B, and of a marker sector, M0 or M1 (R357; log entry 19). -/
def blkArea (b : Bool) : Nat := b2n b
def markArea (m1 : Bool) : Nat := if m1 then 11 else 2

/-- The loader drains its FIFO. After the header a field load waits for the copies of R348; a persist waits for the flash, and a
boot load reads its words through the loader port (R342, R348, R357, R360; log entry 58). -/
def drain (d : Side) : Nat → State → State
  | 0, s => s
  | n + 1, s =>
    let l := loadOf d s
    let l := if l.st == .header && l.taken == 48 && (d == .host || s.img.copies.isEmpty) then { l with st := .body } else l
    let s := setLoad d l s
    if !((l.st == .header && decide (l.taken < 48)) || l.st == .body) || l.busy then s
    else match l.fifo with
      | [] => s
      | w :: rest =>
        let s := setLoad d { l with fifo := rest, busy := l.persist } s
        let s := if l.persist then s.emit (.ld 1 (blkArea l.blk) l.taken w)
          else if l.boot then s.emit (.ld 0 (blkArea l.blk) l.taken 0) else s
        drain d n (takeWord d w s)

/-- The loader goes on, and the FIFO takes a write that the port holds once an entry is free (R342). -/
def pumpLoad (d : Side) (s : State) : State :=
  let s := drain d ((loadOf d s).fifo.length + 1) s
  let l := loadOf d s
  match l.wait with
  | some (a, w, _) =>
    if l.fifo.length < 64 then
      respond a true 0 none (drain d 65 (setLoad d { l with fifo := l.fifo ++ [w], wait := none } s))
    else s
  | none => s

-- the halves

/-- The words of one space in a table. -/
def spacePart (t : Tbl Word) (space : Nat) : Tbl Word := t.filter fun e => e.1 / 65536 == space
/-- A table with the words of one space replaced. -/
def withSpace (t : Tbl Word) (space : Nat) (p : Tbl Word) : Tbl Word :=
  (t.filter fun e => decide (e.1 / 65536 < space)) ++ p ++ t.filter fun e => decide (space < e.1 / 65536)

/-- The space and word of an index of areas 2 and 3 (R355). -/
def rimeSpace (area i : Nat) : Nat × Nat :=
  if area = 3 then (0x30 + i / 4096, i % 4096)
  else if i < 128 then (0x20, i) else if i < 640 then (0x22, i - 128) else (0x21, i - 640)

/-- The halves of a table or bank are exchanged, its marks drop, and the copy back begins (R348, R356). -/
def exchange (space : Nat) (s : State) : State :=
  let a := spacePart s.img.active space
  let h := spacePart s.img.half space
  let area := if space < 0x30 then 2 else 3
  let img := { s.img with
    active := withSpace s.img.active space h, half := withSpace s.img.half space a
    copies := s.img.copies ++ [space] }
  { s with img := img, rime := { s.rime with
    marks := s.rime.marks.filter fun m => m.1 != area || (rimeSpace m.1 m.2).1 != space } }

/-- The copy of a table or bank into its load half ends (R348). -/
def copyBack (space : Nat) (s : State) : State :=
  let half := withSpace s.img.half space (spacePart s.img.active space)
  { s with img := { s.img with half := half, copies := s.img.copies.filter (· != space) } }

/-- A load holds a word of a space. -/
def holds (d : Side) (s : State) (space idx : Nat) : Bool := (loadOf d s).held.any fun h => h.1 == space && h.2.1 == idx

/-- Every held word returns to its committed value: a register word in the staged copy, another in its load half or load
area (R343). -/
def restoreHeld (d : Side) (s : State) : State :=
  let off := if d == .host then 0x100 else 0
  s.each (loadOf d s).held fun h s =>
    if h.1 = 0 then unstageWord (spaceOff d h.2.1) s
    else
      let w := if h.1 < 0x20 ∨ h.1 = 0x40 then 0 else tget 0 s.img.active (imgKey h.1 h.2.1)
      { s with img := { s.img with half := tset 0 s.img.half (imgKey (h.1 + off) h.2.1) w } }

-- parts

/-- The parts that the held words make (R347). -/
def partsOf (l : LoadS) : List Nat :=
  (l.held.map fun h =>
    if 0x10 ≤ h.1 ∧ h.1 < 0x14 then h.1 else if 0x30 ≤ h.1 ∧ h.1 < 0x34 then h.1
    else if h.1 = 0x40 then 0x40
    else if h.1 = 0 ∧ 0x200 ≤ h.2.1 ∧ h.2.1 < 0x210 then 0x30 + (h.2.1 - 0x200) / 4
    else 1).dedup

/-- The held words of a part. -/
def partWords (l : LoadS) (p : Nat) : List (Nat × Nat × Word) :=
  l.held.filter fun h => partsOf { l with held := [h] } == [p]

/-- A part of a READY load has committed; with the last one IMG_ID takes the load's and the loader is IDLE (R340, R347). -/
def partDone (d : Side) (p : Nat) (s : State) : State :=
  let l := loadOf d s
  if l.st != .ready then s
  else
    let gone := partWords l p
    let l := { l with parts := l.parts.filter (· != p), committed := true, held := l.held.filter fun h => !gone.contains h }
    let s := setLoad d l s
    if l.parts.isEmpty then
      let s := setLoad d { l with st := .idle, held := [] } s
      match d with
      | .field => (s.wr Reg.IMG_ID_LO (l.hdr 4)).wr Reg.IMG_ID_HI (l.hdr 5)
      | .host => (s.wr Reg.H_IMG_ID_LO (l.hdr 4)).wr Reg.H_IMG_ID_HI (l.hdr 5)
    else s

/-- FLAGS.HOLDALL of the load (R336). -/
def holdAll (l : LoadS) : Bool := bit (l.hdr 9) 16

/-- A part of a load that was READY at T0 commits at this thaw: with HOLDALL only after the last deep thaw (R345, R347,
R348). -/
def partDue (l : LoadS) (p : Nat) : Bool :=
  l.st == .ready && l.parts.contains p && !(holdAll l && l.parts.any fun x => decide (0x10 ≤ x) && decide (x < 0x14))

-- start, words, verification

/-- The persist gap has not passed (R365). -/
def gapHolds (s : State) : Bool :=
  s.flag Reg.LOAD_LASTP_HI_VALID &&
    decide (s.t < s.rd Reg.LOAD_LASTP_LO + 2 ^ 32 * s.rd Reg.LOAD_LASTP_HI_TICK + 2 ^ 32 * s.rd Reg.LOAD_GAP_GAP)

/-- The records of marker sector M0 or M1. -/
def markRecs (s : State) (m1 : Bool) : List (List Word) := if m1 then s.img.mark1 else s.img.mark0
def setMarkRecs (m1 : Bool) (l : List (List Word)) (s : State) : State :=
  { s with img := if m1 then { s.img with mark1 := l } else { s.img with mark0 := l } }

/-- The words of a marker record (R358). -/
def markWords (gen : Word) (blk : Bool) : List Word :=
  let ws := [(0x4B524D50 : Word), gen, BitVec.ofNat 32 (b2n blk)]
  ws ++ [BitVec.ofNat 32 (crc32 (wordBytes ws))]

/-- The generation and block of a valid marker record; one only half programmed fails its CRC (R358). -/
def markOf : List Word → Option (Word × Word)
  | [a, g, b, c] => if a = 0x4B524D50 ∧ crc32 (wordBytes [a, g, b]) = c.toNat then some (g, b) else none
  | _ => none

/-- The newest valid marker: its sector, generation and block (R358). -/
def newestMark (s : State) : Option (Bool × Word × Word) :=
  let recs (m1 : Bool) : List (Bool × Word × Word) := (markRecs s m1).filterMap fun r => (markOf r).map fun x => (m1, x)
  best (fun a b => decide (b.2.1.toNat < a.2.1.toNat)) (recs false ++ recs true)

/-- The generation and block of the newest marker. -/
def newestMarker (s : State) : Option (Word × Word) := (newestMark s).map (·.2)

/-- The preferred block; A without a marker (R358, R359). -/
def preferred (s : State) : Bool := match newestMarker s with | some m => m.2.getLsbD 0 | none => false

/-- A word of a boot block; erased words read as ones (R357). -/
def flashBlock (s : State) (b : Bool) : List Word := if b then s.img.flashB else s.img.flashA

/-- The erase of a boot block has begun and not ended: what is not blank fails its CRC (R362). -/
def tearBlock (b : Bool) (s : State) : State :=
  if (flashBlock s b).all (· == 0xFFFFFFFF) then s else { s with img := { s.img with torn := tset false s.img.torn (b2n b) true } }

/-- A boot block is blank (R357, R360). -/
def blankBlock (b : Bool) (s : State) : State :=
  let img := { s.img with torn := tset false s.img.torn (b2n b) false }
  { s with img := if b then { img with flashB := [] } else { img with flashA := [] } }

/-- A boot block holds an erase that was cut (R362). -/
def tornBlock (s : State) (b : Bool) : Bool := tget false s.img.torn (b2n b)

/-- A load starts; a persist erases its target block first. The host gate has no flash area (R346, R357, R360, R365). -/
def loadStart (d : Side) (persist : Bool) (s : State) : State :=
  let l : LoadS := { st := .header }
  let l := if d == .field && persist then { l with persist := true, blk := !preferred s } else l
  if l.persist && gapHolds s then failLoad d 15 (setLoad d l s)
  else if l.persist then
    (tearBlock l.blk (setLoad d { l with st := .erase, erased := true } s)).emit (.ld 2 (blkArea l.blk) 0 0)
  else setLoad d l s

/-- START is taken in IDLE and ERROR only (R346). -/
def canStartLoad (d : Side) (s : State) : Bool := (loadOf d s).st == .idle || (loadOf d s).st == .error

/-- ABORT is taken from ERASE to READY until a part has committed or the marker is written (R346). -/
def canAbort (d : Side) (s : State) : Bool :=
  let l := loadOf d s
  !l.committed && match l.st with
    | .erase | .header | .body | .verify | .ready => true
    | _ => false

/-- LOAD_DATA takes a word in ERASE, HEADER and BODY, up to byte LENGTH − 1 of the words it has been given, taken or still in
the FIFO (R342). -/
def canTake (d : Side) (s : State) : Bool :=
  let l := loadOf d s
  let n := l.taken + l.fifo.length
  let len := ((l.words.reverse ++ l.fifo).getD 2 0).toNat
  (l.st == .erase || l.st == .header || l.st == .body)
    && !(decide (3 ≤ n) && lengthOk len && decide (len ≤ 4 * n))

/-- The clock by which a side's register port bounds a held write (R342). -/
def loadClk (d : Side) (s : State) : Tick := match d with | .field => s.time.now | .host => s.gate.clk

/-- A word enters the FIFO; while that is full, the port holds the write (R342). -/
def loadWord (d : Side) (a : Access) (w : Word) (s : State) : State :=
  let l := loadOf d s
  if l.fifo.length < 64 then respond a true 0 none (pumpLoad d (setLoad d { l with fifo := l.fifo ++ [w] } s))
  else setLoad d { l with wait := some (a, w, loadClk d s) } s

/-- The signed content M of the words taken, with the CRC field as given (R327). -/
def signedContent (l : LoadS) (crc : Word) : List Nat :=
  let ws := l.words.reverse
  let ws := ws.take 3 ++ crc :: ws.drop 4
  wordBytes (ws.take 24 ++ ws.drop 40)

/-- The CRC and the signature hold; the reason otherwise (R327, R341). -/
def verifyReason (l : LoadS) (s : State) : Nat :=
  if crc32 (signedContent l 0) ≠ l.hdr 3 then 9
  else
    let sig := (wordBytes l.words.reverse).drop 0x60 |>.take 64
    if edVerify (keySlot s (bits (l.hdr 9) 0 8)) sig (signedContent l (BitVec.ofNat 32 (l.hdr 3))) then 0 else 10

/-- LOAD_LASTP takes the present tick (R365). -/
def stampPersist (s : State) : State :=
  let t := s.t
  ((s.wr Reg.LOAD_LASTP_LO (t % 2 ^ 32)).wr Reg.LOAD_LASTP_HI_TICK (t / 2 ^ 32)).wr Reg.LOAD_LASTP_HI_VALID 1

/-- A load cut here ends a persist whose erase has begun and whose marker has not ended it (R365). -/
def persistCut (l : LoadS) : Bool :=
  l.persist && l.erased && l.st != .idle && l.st != .ready && l.st != .error

/-- The next word of the marker record being written goes to the flash (R358, R530). -/
def programMark (s : State) : State :=
  let l := s.img.load
  match l.mark with
  | w :: _ =>
    s.emit (.ld 1 (markArea l.sector) (4 * ((markRecs s l.sector).length - 1) + (4 - l.mark.length)) w)
  | [] => s

/-- A record in the next slot of the sector names the persist's block with the next generation (R358, R360). -/
def startMark (s : State) : State :=
  let l := s.img.load
  let gen : Word := match newestMarker s with | some m => m.1 + 1 | none => 1
  let s := setMarkRecs l.sector (markRecs s l.sector ++ [[]]) s
  programMark (setLoad .field { l with mark := markWords gen l.blk, markErase := false, busy := true } s)

/-- A marker is to be written: in the sector of the newest one, or in the other, erased first, when that one is full (R358,
R360). -/
def appendMarker (s : State) : State :=
  let l := s.img.load
  let m1 : Bool := match newestMark s with | some m => m.1 | none => false
  if (markRecs s m1).length < Config.markerSlots then startMark (setLoad .field { l with sector := m1 } s)
  else (setLoad .field { l with sector := !m1, markErase := true, busy := true } s).emit (.ld 2 (markArea !m1) 0 0)

/-- The loader reads the first n words of a boot block (R357, R530; log entry 58). -/
def readBlock (b : Bool) (n : Nat) (s : State) : State :=
  s.each (List.range n) fun i s => s.emit (.ld 0 (blkArea b) i 0)


/-- The outcome of the header and CRC checks of the block not booted (R359): 0, or the reason. -/
def twinReason (b : Bool) (s : State) : Nat :=
  let ws := flashBlock s b
  let l : LoadS := { boot := true, st := .header, words := ws.reverse }
  let rs := (List.range 48).map fun i => headerCheck .field l i s
  match rs.find? (· != 0) with
  | some r => r
  | none =>
    let l := { l with words := (ws.take (l.hdr 2 / 4)).reverse }
    if crc32 (signedContent l 0) = l.hdr 3 && !tornBlock s b then 0 else 9

/-- TWIN and TWINERR for the block not booted (R359). -/
def noteTwin (b : Bool) (s : State) : State :=
  let ws := flashBlock s b
  let s := readBlock b (max 48 (min 65536 ((ws.getD 2 0xFFFFFFFF).toNat / 4))) s
  let blank := ws.all (· == 0xFFFFFFFF)
  let r := twinReason b s
  let s := s.wr Reg.LOAD_STATUS_TWIN (if blank then 1 else if r = 0 then 0 else 2)
  s.wr Reg.LOAD_BOOTERR_TWINERR (if blank then 0 else r)

/-- A boot load of a block: its words go through the loader up to VERIFY (R359). -/
def bootFrom (blk twin : Bool) (s : State) : State :=
  let ws := flashBlock s blk
  let n := (ws.getD 2 0xFFFFFFFF).toNat / 4
  let ws := (List.range (max 48 (min n 65536))).map fun i => ws.getD i 0xFFFFFFFF
  let l : LoadS := { st := .header, boot := true, twin := twin, blk := blk, fifo := ws }
  pumpLoad .field (setLoad .field l s)

/-- The marker sectors are read (R358, R530). -/
def readMarks (s : State) : State :=
  s.each [false, true] fun m1 s =>
    s.each (List.range (4 * (markRecs s m1).length + 4)) fun i s => s.emit (.ld 0 (markArea m1) i 0)

/-- Phase LOAD begins: the OTP row and the markers are read and the preferred block loaded (R339, R359, R468, R530). -/
def startBoot (s : State) : State :=
  let gen := match newestMarker s with | some m => m.1.toNat | none => 0
  let s := readMarks (s.each (List.range 44) fun i s => s.emit (.ld 3 0 i 0))
  bootFrom (preferred s) false (s.wr Reg.LOAD_GEN gen)

-- rime

/-- The offsets of the register words that rime scans, in map order (R330, R353). -/
def rimeRegs : List Nat := wsRegs .field

/-- The word that rime reads at a position of its pass: area and index (R353 to R355). -/
def rimeWord (p : Nat) : Option (Nat × Nat) :=
  let n := rimeRegs.length
  if p < n then some (0, rimeRegs.getD p 0 / 4)
  else if p < n + 3072 then some (1, p - n)
  else if p < n + 3072 + 11138 then some (2, p - n - 3072)
  else if p < n + 3072 + 11138 + 16384 then some (3, p - n - 3072 - 11138)
  else none

/-- Rime skips a word that a load holds, a table being copied, and a group in phase Copy (R354). -/
def rimeSkips (s : State) (area i : Nat) : Bool :=
  match area with
  | 0 => holds .field s 0 i
  | 1 => holds .field s (0x10 + i / 768) (i % 768) || (s.img.dtPhase == 4 && s.img.dtRegion == i / 768)
  | _ =>
    let (sp, k) := rimeSpace area i
    holds .field s sp k || s.img.copies.contains sp

/-- The WS fields of the word at an offset, as a word. -/
def wsWord (s : State) (off : Nat) : Nat :=
  match findReg off with
  | some (r, _, _) => ((r.flds.filter (·.acc == .ws)).map fun f => s.rd (f.at off) * 2 ^ f.lo).sum
  | none => 0

/-- The WS fields of the word at an offset written from a word. -/
def putWsWord (off w : Nat) (s : State) : State :=
  match findReg off with
  | some (r, _, _) => s.each (r.flds.filter (·.acc == .ws)) fun f s => s.wr (f.at off) (bits w f.lo f.w)
  | none => s

/-- The active word that rime reads (R353). -/
def rimeActive (s : State) (area i : Nat) : Nat :=
  match area with
  | 0 => wsWord s (4 * i)
  | 1 => s.struct (i / 768) (i % 768)
  | _ => let (sp, k) := rimeSpace area i; s.tab sp k

/-- The active word written, as an upset or a restore changes it. -/
def rimePut (area i : Nat) (w : Nat) (s : State) : State :=
  match area with
  | 0 => putWsWord (4 * i) w s
  | 1 => { s with yar := { s.yar with words := tset 0 s.yar.words i (BitVec.ofNat 32 w) } }
  | _ =>
    let (sp, k) := rimeSpace area i
    { s with img := { s.img with active := tset 0 s.img.active (imgKey sp k) (BitVec.ofNat 32 w) } }

/-- The reference word (R353). The reference store is held as the words that differ from the active ones. -/
def rimeRef (s : State) (area i : Nat) : Nat :=
  match area with
  | 0 => ((tget none s.rime.ref (4 * i)).map (·.toNat)).getD (wsWord s (4 * i))
  | 1 => ((tget none s.rime.ref (65536 + i)).map (·.toNat)).getD (s.struct (i / 768) (i % 768))
  | _ => let (sp, k) := rimeSpace area i; (tget 0 s.img.half (imgKey sp k)).toNat

/-- The place of a reference word in the reference store, areas 0 and 1. -/
def refKey (area i : Nat) : Nat := if area = 0 then 4 * i else 65536 + i

/-- An upset flips bits of the active word; the reference keeps the value of the last commit (R353, R356). -/
def upsetWord (area i : Nat) (flip : Nat) (s : State) : State :=
  let old := rimeActive s area i
  let mask := if area = 0 then (match findReg (4 * i) with
    | some (r, _, _) => ((r.flds.filter (·.acc == .ws)).map fun f => bits flip f.lo f.w * 2 ^ f.lo).sum
    | none => 0) else flip
  if mask = 0 then s
  else
    let ref := rimeRef s area i
    let s := rimePut area i (old ^^^ mask) s
    if 2 ≤ area then s
    else { s with rime := { s.rime with ref := tset none s.rime.ref (refKey area i) (some (BitVec.ofNat 32 ref)) } }

/-- A mismatch is reported, and marked for restore while RESTORE is 1 and its reference is good (R355, R356). -/
def mismatch (area i : Nat) (refBad : Bool) (s : State) : State :=
  let s := raiseInt 5120 (area * 2 ^ 14 + i) (s.inc Reg.RIME_STAT_MISM)
  let s := ((s.wr Reg.RIME_LAST_INDEX i).wr Reg.RIME_LAST_AREA area).raise Reg.RIME_LAST_VALID
  if refBad || !s.flag Reg.RIME_CTRL_RESTORE || s.rime.marks.contains (area, i) then s
  else if 64 ≤ s.rime.marks.length then s.raise Reg.RIME_LAST_MOVF
  else { s with rime := { s.rime with marks := s.rime.marks ++ [(area, i)] } }

/-- A marked word takes its reference (R201, R356). -/
def restoreMark (m : Nat × Nat) (s : State) : State :=
  let s := rimePut m.1 m.2 (rimeRef s m.1 m.2) s
  let ref := if m.1 < 2 then tset none s.rime.ref (refKey m.1 m.2) none else s.rime.ref
  let s := { s with rime := { s.rime with ref := ref, marks := s.rime.marks.erase m } }
  s.inc Reg.RIME_STAT_RESTORED

/-- A restore finds the reference of a marked word: not while a load holds the word in its half, or that half is being copied
(R343, R348, R356). -/
def canRestore (s : State) (m : Nat × Nat) : Bool := decide (m.1 < 2) || !rimeSkips s m.1 m.2

/-- The position that rime reads next, passing the words it skips, at most n (R354). -/
def rimeNext (s : State) : Nat → Nat → Nat
  | 0, p => p
  | n + 1, p => match rimeWord p with
    | some (a, i) => if rimeSkips s a i then rimeNext s n (p + 1) else p
    | none => p

/-- RIME_COMPARE. Rime compares the next word of its pass with its reference; upset gives the bits of the active word
that have flipped since it was last compared (R353 to R356). A group's words change together, so a restored S0 or table
word is what the last commit gave. DEDUCED (log entry 60): a reference that cannot be read shows no difference, so that only an
active word that cannot be read is a mismatch beside it. -/
def execRimeCompare (active reference : Ecc) (upset : Word) (s : State) : Host.Outcome State Fault Refusal :=
  runClk (fun s =>
    if !s.su.open_ || !s.flag Reg.RIME_CTRL_EN then s
    else
      let p := rimeNext s 40000 s.rime.pos
      match rimeWord p with
      | none => ({ s with rime := { s.rime with pos := 0 } } : State).inc Reg.RIME_PASS_PASSES
      | some (a, i) =>
        let s := upsetWord a i upset.toNat s
        let s := { s with rime := { s.rime with pos := p + 1 } }
        let ce := a == 3 && active == .corrected
        let s := if ce then s.inc (Reg.CAMP_RERR_BANKCE (i / 4096)) else s
        let bad : Bool := reference == .uncorrectable
        let s := if bad then s.inc Reg.RIME_STAT_UNREC else s
        discardDisabled (if (bad = false ∧ rimeActive s a i ≠ rimeRef s a i) ∨ active = .uncorrectable then mismatch a i bad s
          else s)) s

-- the commands of the loader

/-- LOAD_DATA_OVERRUN. A write to LOAD_DATA held for 65,536 cycles is answered with a bus error, and the load ends (R342,
R480). The row's access form is written in Machine/Commands.lean. -/
def overrun (d : Side) (s : State) : State :=
  match (loadOf d s).wait with
  | some (_, _, t) => if 131072 ≤ (loadClk d s - t).toNat then failLoad d 12 s else s
  | none => s

/-- A verified load is READY, and a boot load notes its block and the twin (R340, R347, R359). -/
def becomeReady (side : Side) (s : State) : State :=
  let l := loadOf side s
  let parts := partsOf l
  let s := setLoad side { l with st := .ready, parts := parts, committed := l.committed || l.persist } s
  let s := if l.boot then
      let s := (s.wr Reg.LOAD_STATUS_BOOTBLK (b2n l.blk))
      noteTwin (!l.blk) (if l.twin then s.raise Reg.LOAD_STATUS_BOOTALT else s)
    else s
  if parts.isEmpty then partDone side 1 s else s

/-- LOAD_VERIFY_DONE. The CRC and the signature are checked; a persist then reads its block back, checks it likewise and writes
its marker (R340, R341, R347, R360). -/
def execLoadVerifyDone (side : Side) (s : State) : Host.Outcome State Fault Refusal :=
  run (fun s =>
    let l := loadOf side s
    if l.st != .verify || l.busy then s
    else match if l.boot && tornBlock s l.blk then 9 else verifyReason l s with
      | 0 =>
        if !l.persist then becomeReady side s
        else
          let n := l.words.length
          match verifyReason { l with words := ((flashBlock s l.blk).take n).reverse } s with
          | 0 => appendMarker (readBlock l.blk n s)
          | r => failLoad side r (readBlock l.blk n s)
      | r => failLoad side r s) s

/-- LOAD_RESTORE_DONE. The held words of a failed load stand at their committed values again; a boot load goes on to the
twin (R343, R359, R365). -/
def execLoadRestoreDone (side : Side) (s : State) : Host.Outcome State Fault Refusal :=
  run (fun s =>
    let l := loadOf side s
    if l.st != .restore then s
    else
      let s := setLoad side { l with st := .error, held := [] } (restoreHeld side s)
      let s := if l.persist && l.erased then stampPersist s else s
      if !l.boot then s
      else if !l.twin then bootFrom (!l.blk) true (s.wr Reg.LOAD_BOOTERR_PREF l.err)
      else noteTwin l.blk (s.wr Reg.LOAD_STATUS_BOOTBLK 2)) s

/-- PERSIST_ERASE_DONE. The target block is blank, and the header is taken, unless the load has been aborted meanwhile; or the
marker sector is, and its record is programmed (R340, R358, R360). -/
def execPersistEraseDone (s : State) : Host.Outcome State Fault Refusal :=
  run (fun s =>
    let l := s.img.load
    if l.markErase then
      let s := setMarkRecs l.sector [] s
      if l.st == .verify then startMark s else setLoad .field { l with markErase := false, busy := false } s
    else if l.st == .erase then pumpLoad .field (setLoad .field { l with st := .header } (blankBlock l.blk s))
    else if l.persist && tornBlock s l.blk then blankBlock l.blk s
    else s) s

/-- A word of the marker record is done: the next follows, and with the last the persist ends and the load is READY (R358,
R360, R365). A load that has been aborted meanwhile leaves the record as it is. -/
def markDone (w : Word) (rest : List Word) (s : State) : State :=
  let l := s.img.load
  let recs := markRecs s l.sector
  let s := setMarkRecs l.sector (recs.dropLast ++ [recs.getLastD [] ++ [w]]) s
  if l.st != .verify then setLoad .field { l with mark := [], busy := false } s
  else if rest.isEmpty then
    let gen := match newestMarker s with | some m => m.1.toNat | none => 0
    becomeReady .field (stampPersist ((setLoad .field { l with mark := [], busy := false } s).wr Reg.LOAD_GEN gen))
  else programMark (setLoad .field { l with mark := rest } s)

/-- PERSIST_WORD_PROGRAMMED. The flash reports a word done, of the image or of the marker, and the next is taken (R342, R360,
R530). -/
def execPersistWordProgrammed (s : State) : Host.Outcome State Fault Refusal :=
  run (fun s =>
    let l := s.img.load
    if !l.busy || l.markErase then s
    else match l.mark with
    | w :: rest => markDone w rest s
    | [] =>
      let w := l.words.headD 0xFFFFFFFF
      let img := if l.blk then { s.img with flashB := s.img.flashB ++ [w] } else { s.img with flashA := s.img.flashA ++ [w] }
      pumpLoad .field { s with img := { img with load := { l with busy := false } } }) s

/-- The flash fails an erase or a word of a persist, of the image or of its marker (R361). -/
def loadFlashFail (s : State) : State :=
  let l := s.img.load
  if l.st == .erase || l.busy then failLoad .field 14 (setLoad .field { l with busy := false, mark := [], markErase := false } s)
  else s

/-- The 768 structure words of group r are copied from the S0 load area, where a word that the load does not name stands as
last committed: an upset word takes its reference. The replaced cells start (R59, R350, R352). -/
def copyGroup (r : Nat) (s : State) : State :=
  let mine (i : Nat) : Bool := i / 768 == r
  let old := s.rime.ref.filterMap fun e => if 65536 ≤ e.1 ∧ mine (e.1 - 65536) then e.2.map fun w => (e.1 - 65536, w) else none
  let yar := old.foldl (fun y e => { y with words := tset 0 y.words e.1 e.2 }) s.yar
  let ws := s.img.load.held.reverse.filter fun h => h.1 == 0x10 + r
  let yar := ws.foldl (fun y h => { y with words := tset 0 y.words (768 * r + h.2.1) h.2.2 }) yar
  let cells := (ws.filterMap fun h => if h.2.1 < 512 then some (64 * r + h.2.1 / 8) else none).dedup
  let yar := { yar with run := cells.foldl (fun t c => tset {} t c {}) yar.run }
  let rime := { s.rime with
    marks := s.rime.marks.filter fun m => !(m.1 == 1 && mine m.2)
    ref := s.rime.ref.filter fun e => !(decide (65536 ≤ e.1) && mine (e.1 - 65536)) }
  { s with yar := yar, rime := rime }

/-- TABLE_COPY_END. The copy of a table or bank ends (0 to 2 the tables of spaces 0x20 to 0x22, 3 to 6 the banks), or the
S0 copy of start-up (7) (R348, R352). -/
def execTableCopyEnd (t : Fin 8) (s : State) : Host.Outcome State Fault Refusal :=
  run (fun s =>
    if t.val = 7 then
      let l := s.img.load
      if s.su.phase == 3 && l.st == .ready && !l.s0 then
        setLoad .field { l with s0 := true } (s.each (List.range 4) fun r s => copyGroup r s)
      else s
    else
      let sp := if t.val < 3 then 0x20 + t.val else 0x30 + (t.val - 3)
      if s.img.copies.contains sp then pumpLoad .field (copyBack sp s) else s) s
end Sys2Proof.Machine
end

