-- ==== Sys2Proof/Machine/Gate.lean ====
section
/-! DEFINITION. The host gate: slices, intake and credit, ring writers, tenant vector writes, resets, and the barrier's
commands that reach its two sides (R390 to R423, R475, R476). The commands that come as register accesses stand in
Machine/Commands.lean. -/

namespace Sys2Proof.Machine

-- events of the manager

/-- A bit of GATE_EVT is set, and the manager vector is sent through writer 0 when MVEN is 1 (GATE_EVT; log entry 17). -/
def gateEvt (f : Fld) (s : State) : State :=
  let s := s.raise f
  if s.flag Reg.GATE_CTRL_MVEN then
    { s with gate := { s.gate with msix := s.gate.msix ++ [(0, s.rd Reg.GATE_CTRL_MVEC)] } }
  else s

-- slices

/-- The ring size of a slice in slots. -/
def ringSize (s : State) (i : Nat) : Nat := 2 ^ s.rd (Reg.SLC_RING_LOG2SIZE i)

/-- OCC (R397; log entry 18: PROD advances as a record enters its writer's queue). -/
def Slice.occ (x : Slice) : Nat := (x.prod - x.cons).toNat

/-- SHARE in force (R402). -/
def shareOf (s : State) (i : Nat) : Nat := min (ringSize s i) (s.rd (Reg.SLC_SHARE_SHARE i))

/-- The credits that fall due for slice i (R402). -/
def grantDue (s : State) (i : Nat) : Nat :=
  let x := s.slice i
  let have_ := x.occ + x.granted
  match x.st with
  | .open_ => shareOf s i - have_
  | .stopping => if x.rstFree then 127 - min 127 x.granted else ringSize s i - have_
  | .free => 4 - x.granted
  | _ => 0

/-- A CREDIT frame of up to eight slices. -/
def creditPayload (l : List (Nat × Nat)) : BitVec 128 :=
  pay ((List.range 8).map fun k => match l[k]? with
    | some (i, n) => (i + 2 ^ 8 * n + 2 ^ 15) * 2 ^ (16 * k)
    | none => 0).sum

/-- The entries of a slice's credits, at most 127 in each (R373, R402). -/
def creditParts (i : Nat) : Nat → Nat → List (Nat × Nat)
  | 0, _ => []
  | f + 1, n => if n = 0 then [] else (i, min 127 n) :: creditParts i f (n - 127)

/-- Eight at a time. -/
def chunks8 {α : Type} : Nat → List α → List (List α)
  | 0, _ => []
  | n + 1, l => if l.isEmpty then [] else l.take 8 :: chunks8 n (l.drop 8)

/-- The credit that has fallen due for some slices is sent (R402). Nothing is granted while the barrier is not UP. -/
def grantCredit (is : List Nat) (s : State) : State :=
  if s.gate.bar.st != .up then s
  else
    let due := (is.map fun i => (i, grantDue s i)).filter fun e => e.2 != 0
    let s := s.each due fun e s => s.setSlice e.1 { s.slice e.1 with granted := (s.slice e.1).granted + e.2 }
    let entries := due.flatMap fun e => creditParts e.1 e.2 e.2
    s.each (chunks8 entries.length entries) fun l s => barQueue .host 0x04 (creditPayload l) s

-- intake (R401, R404)

def tagOf (s : State) (k : Nat) : TagEntry := tget .none s.gate.tags k
def setTag (k : Nat) (e : TagEntry) (s : State) : State :=
  { s with gate := { s.gate with tags := tset .none s.gate.tags k e } }

/-- A tag joins the next WRITTEN or DISCARDED frame, and its entry is done (R401, R406). -/
def report (tag : BitVec 15) (discarded : Bool) (s : State) : State :=
  let s := setTag (tag.toNat % 2 ^ 14) (.done (tag.getLsbD 14)) s
  if discarded then { s with gate := { s.gate with discTags := s.gate.discTags ++ [tag] } }
  else { s with gate := { s.gate with writtenTags := s.gate.writtenTags ++ [tag] } }

/-- The records in the intake of writer w (R404). -/
def intake (s : State) (w : Nat) : Nat :=
  (s.gate.slices.map fun e => if s.rd (Reg.SLC_KEY_WRITER e.1) == w then e.2.q.length else 0).sum

/-- The host gate's own address (R25, R374). -/
def gateAddr (s : State) : BitVec 12 := dieAddr (s.pins.idPkg ++ (3 : BitVec 2))

/-- An event enters its writer's queue with the next slice sequence (R374, R404). -/
def enqueueRec (i : Nat) (m : Msg) (tag : BitVec 15) (s : State) : State :=
  let x := s.slice i
  let r : RingRec := ⟨{ m with dest := gateAddr s, rver := 0 }, tag, x.prod⟩
  setTag (tag.toNat % 2 ^ 14) (.queued (tag.getLsbD 14)) (s.setSlice i { x with q := x.q ++ [r], prod := x.prod + 1 })

/-- An event completed during a reset without a record (R411, R412). -/
def rstDiscard (i : Nat) (tag : BitVec 15) (s : State) : State := report tag true (s.inc (Reg.SLC_DISC_RSTDISC i))

/-- A slice whose stop has drained closes once nothing of it is left in the writer (R410). -/
def finishReset (i : Nat) (s : State) : State :=
  let x := s.slice i
  if x.st == .stopping && x.drained && x.q.isEmpty && x.kept.isEmpty then
    let s := s.setSlice i { x with st := .closed, prod := 0, cons := 0, granted := 0, arm := false, rstFree := false,
                                   fromFault := false, drained := false }
    gateEvt Reg.GATE_EVT_RDONE (s.raise (Reg.SLC_STATE_RESET_DONE i))
  else s

/-- Kept events take the slots that have come free; after RSTTMO the others are discarded (R410, R412). -/
def pumpKept (i : Nat) : Nat → State → State
  | 0, s => s
  | n + 1, s =>
    let x := s.slice i
    match x.kept with
    | [] => s
    | (m, tag) :: rest =>
      if x.occ < ringSize s i then pumpKept i n (enqueueRec i m tag (s.setSlice i { x with kept := rest }))
      else if x.rstFree then pumpKept i n (rstDiscard i tag (s.setSlice i { x with kept := rest }))
      else s

/-- An event waits for a free slot behind those that wait already (R410). -/
def keepEvent (i : Nat) (m : Msg) (tag : BitVec 15) (s : State) : State :=
  let s := setTag (tag.toNat % 2 ^ 14) (.queued (tag.getLsbD 14)) s
  s.setSlice i { s.slice i with kept := (s.slice i).kept ++ [(m, tag)] }

/-- An EVENT for an index that needs handling, by the state of its slice (R393, R401, R410 to R412). -/
def takeEvent (i : Nat) (m : Msg) (tag : BitVec 15) (s : State) : State :=
  let x := s.slice i
  match x.st with
  | .free | .closed => report tag true (s.inc (Reg.SLC_DISC_DISC i))
  | .open_ | .fault => if x.kept = [] then enqueueRec i m tag s else keepEvent i m tag s
  | .stopping =>
    if x.fromFault then rstDiscard i tag s
    else if x.occ < ringSize s i ∧ x.kept = [] then enqueueRec i m tag s
    else if x.rstFree then rstDiscard i tag s
    else keepEvent i m tag s

/-- The slice and tag of an EVENT (R103, R374). -/
def eventSlice (p : BitVec 128) : Nat := (Msg.unpack p).epoch.toNat
def eventTag (p : BitVec 128) : BitVec 15 := (Msg.unpack p).rver ++ (Msg.unpack p).dest

/-- An EVENT is handled (R401, R402). -/
def handleEvent (p : BitVec 128) (s : State) : State :=
  let i := eventSlice p
  let tag := eventTag p
  let g := tag.getLsbD 14
  let x := s.slice i
  let s := s.setSlice i { x with granted := x.granted - 1 }
  let s := match tagOf s (tag.toNat % 2 ^ 14) with
    | .done h => if h == g then report tag false s else takeEvent i (Msg.unpack p) tag s
    | .queued h => if h == g then s else takeEvent i (Msg.unpack p) tag s
    | .none => takeEvent i (Msg.unpack p) tag s
  grantCredit [i] s

/-- The intake that an EVENT needs has room; one that its slice only reports needs none (R404, R411). -/
def intakeRoom (s : State) (p : BitVec 128) : Bool :=
  let x := s.slice (eventSlice p)
  let reported := x.st == .free || x.st == .closed || (x.st == .stopping && x.fromFault)
  reported || decide (intake s (s.rd (Reg.SLC_KEY_WRITER (eventSlice p))) < 256)

/-- EVENTs that a full intake held are handled as it empties (R376, R404). -/
def pumpHeld : Nat → State → State
  | 0, s => s
  | n + 1, s =>
    match s.gate.held with
    | [] => s
    | p :: rest =>
      if intakeRoom s p then pumpHeld n (handleEvent p { s with gate := { s.gate with held := rest } }) else s

/-- EVENT. The host gate takes a host-bound event (R376, R401, R404). -/
def execEvent (p : BitVec 128) (s : State) : Host.Outcome State Fault Refusal :=
  run (rxBar .host 0x05 fun s =>
    pumpHeld 16 { s with gate := { s.gate with held := s.gate.held ++ [p] } }) s

-- commands on slices (R394 to R396)

/-- The slices that are not FREE. -/
def busySlices (s : State) : List Nat := (s.gate.slices.filter fun e => e.2.st != .free).map (·.1)

/-- A slice's MSI-X vectors: base and number (SLC_VEC). -/
def vecRange (s : State) (i : Nat) : Nat × Nat := (s.rd (Reg.SLC_VEC_VBASE i), s.rd (Reg.SLC_VEC_NVEC i))

/-- The first result of CREATE that applies, after STATE (R395). -/
def createResult (i : Nat) (s : State) : Nat :=
  let others := (busySlices s).filter (· != i)
  let log := s.rd (Reg.SLC_RING_LOG2SIZE i)
  let (v, n) := vecRange s i
  let clash (j : Nat) : Bool :=
    let (w, m) := vecRange s j
    decide (0 < m) && decide (0 < n) && decide (v < w + m) && decide (w < v + n)
  let mvec := s.rd Reg.GATE_CTRL_MVEC
  let meter (j : Nat) : Bool := s.flag (Reg.SLC_VEC_MEN j) && s.rd (Reg.SLC_VEC_METER j) == s.rd (Reg.SLC_VEC_METER i)
  let priv (j : Nat) : Bool := s.flag (Reg.SLC_KEY_PRIV j)
  let pasid (j : Nat) : Bool := !priv j && s.rd (Reg.SLC_KEY_PASID j) == s.rd (Reg.SLC_KEY_PASID i)
  if log < 3 ∨ 16 < log then 2
  else if Config.ringSlots < (others.map fun j => (s.slice j).size).sum + 2 ^ log then 3
  else if 8 < n || decide (0 < n) && (decide (1024 < v + n) || others.any clash || (decide (v ≤ mvec) && decide (mvec < v + n)))
    then 4
  else if s.flag (Reg.SLC_VEC_MEN i) && others.any meter then 5
  else if s.rd (Reg.SLC_RBASE_LO i) % 32 ≠ 0 then 6
  else if !priv i && (others.any pasid || !s.gate.pasidEn) then 7
  else if 4096 < s.rd (Reg.SLC_VWR_VWBASE i) + s.rd (Reg.SLC_VWR_VWCOUNT i) then 8
  else 0

/-- A slice opens with an empty ring (R394, R397). -/
def openRing (i : Nat) (s : State) : State :=
  s.setSlice i { s.slice i with st := .open_, prod := 0, cons := 0, q := [], kept := [] }

/-- The EVENTs that wait behind a full intake for a slice that only reports them are handled at once, and the others as room
comes (R404, R411). -/
def handleHeld (i : Nat) (s : State) : State :=
  let (mine, rest) := s.gate.held.partition fun p => eventSlice p == i
  pumpHeld 16 (({ s with gate := { s.gate with held := rest } } : State).each mine handleEvent)

/-- SLICE_STOP goes to field die 0, or is owed until the barrier is UP (R410, R413). -/
def sendStop (i : Nat) (s : State) : State :=
  if s.gate.bar.st == .up then barQueue .host 0x11 (pay i) s else { s with gate := { s.gate with restop := true } }

/-- RESET: SLICE_STOP goes to field die 0; from FAULT every record in the writer, and every EVENT that waits, is discarded
(R410, R411). -/
def resetSlice (i : Nat) (s : State) : State :=
  let x := s.slice i
  let bad := x.st == .fault
  let s := s.setSlice i { x with st := .stopping, stopAt := s.gate.clk, rstFree := false, fromFault := bad, drained := false
                                 q := if bad then [] else x.q, kept := if bad then [] else x.kept }
  let s := if bad then
      let s := s.each (x.q.map (·.tag) ++ x.kept.map (·.2)) (rstDiscard i)
      drainEntries .host (handleHeld i s)
    else s
  grantCredit [i] (sendStop i s)

/-- What a slice takes of the pool at CREATE (R396). -/
def takeShare (i : Nat) (s : State) : State :=
  s.setSlice i { s.slice i with size := ringSize s i, vecs := (vecRange s i).2, meter := s.flag (Reg.SLC_VEC_MEN i) }

/-- A slice command: its result, and its effect when it is 0 (R394, R395). -/
def slcCommand (op i : Nat) (s : State) : State :=
  let x := s.slice i
  let (res, s) : Nat × State :=
    match op, x.st with
    | 1, .free => match createResult i s with
      | 0 => (0, grantCredit [i] (takeShare i (openRing i s)))
      | r => (r, s)
    | 2, .closed => (0, grantCredit [i] (barQueue .host 0x13 (pay i) (openRing i s)))
    | 2, .fault => (0, grantCredit [i] (pumpKept i x.kept.length (s.setSlice i { x with st := .open_ })))
    | 3, .open_ | 3, .fault => (0, resetSlice i s)
    | 4, .closed =>
      let x := { x with st := .free, size := 0, vecs := 0, meter := false }
      (0, grantCredit [i] (barQueue .host 0x13 (pay i) (s.setSlice i x)))
    | _, _ => (1, s)
  ((s.wr Reg.SLC_CMDRES_RES res).wr Reg.SLC_CMDRES_SLICE i).raise Reg.SLC_CMDRES_VALID

/-- SLICE_DRAINED. Every record of a stopping slice has been sent, and it closes once they are written (R410). -/
def execSliceDrained (p : BitVec 128) (s : State) : Host.Outcome State Fault Refusal :=
  run (rxBar .host 0x12 fun s =>
    let i := pf p 0 8
    let x := s.slice i
    if x.st == .stopping then finishReset i (s.setSlice i { x with drained := true }) else s) s

/-- SLICE_RESET_TIMEOUT. RSTTMO has passed since RESET: credit is granted freely, and events without a slot are
discarded (R412). -/
def execSliceResetTimeout (i : BitVec 8) (s : State) : Host.Outcome State Fault Refusal :=
  run (fun s =>
    let i := i.toNat
    let x := s.slice i
    let tmo := 2 ^ 16 * max 1 (s.rd Reg.GATE_CTRL_RSTTMO)
    if x.st == .stopping && decide (x.stopAt.toNat + tmo ≤ s.gate.clk.toNat) then
      finishReset i (grantCredit [i] (pumpKept i (x.kept.length + 1) (s.setSlice i { x with rstFree := true })))
    else s) s

-- notifications and the tenant's page (R400, R407, R409)

/-- An armed slice queues its notification and is disarmed (R407). -/
def notify (i : Nat) (f : Bool) (s : State) : State :=
  let x := s.slice i
  let (v, n) := vecRange s i
  if !x.arm || n = 0 then s
  else
    let vec := if f && decide (2 ≤ n) then v + n - 1 else v
    let s := s.setSlice i { x with arm := false }
    { s with gate := { s.gate with msix := s.gate.msix ++ [(s.rd (Reg.SLC_KEY_WRITER i), vec)] } }

/-- A write to PG_CONS (R400). -/
def consWritten (i : Nat) (c : Word) (s : State) : State :=
  let x := s.slice i
  if x.st == .open_ || x.st == .stopping then
    if (x.prod - c).toNat ≤ x.occ then
      let s := s.setSlice i { x with cons := c }
      finishReset i (grantCredit [i] (pumpKept i (x.kept.length + 1) s))
    else s.raise (Reg.PG_STAT_CERR i)
  else s

/-- A write of 1 to PG_ARM (R407). -/
def armWritten (i : Nat) (s : State) : State :=
  let s := s.setSlice i { s.slice i with arm := true }
  if 0 < (s.slice i).occ then notify i false s else s

/-- The payload of a VWRITE (R373, R409). -/
def vwritePayload (w : Word) (slot : Nat) (gen : Bool) : BitVec 128 :=
  pay (bits w.toNat 0 28 + 2 ^ 28 * slot + 2 ^ 33 * b2n gen)

/-- A write to PG_VW (R381, R409). -/
def vwWritten (i : Nat) (w : Word) (s : State) : State :=
  let x := s.slice i
  let v := bits w.toNat 0 12
  let base := s.rd (Reg.SLC_VWR_VWBASE i)
  if v < base ∨ base + s.rd (Reg.SLC_VWR_VWCOUNT i) ≤ v then s.raise (Reg.PG_VWRES_DENIED i)
  else match (List.range 32).find? fun k => (tget {} s.gate.vw k).busy.isNone with
    | none => s.raise (Reg.PG_STAT_VWBUSY i)
    | some k =>
      if x.st != .open_ || x.vwSlot.isSome then s.raise (Reg.PG_STAT_VWBUSY i)
      else
        let old : VwSlot := tget {} s.gate.vw k
        let g := !old.gen
        let p := vwritePayload w k g
        let new : VwSlot := { gen := g, busy := some (BitVec.ofNat 8 i), payload := p, sentAt := s.gate.clk }
        let s := { s with gate := { s.gate with vw := tset {} s.gate.vw k new } }
        let s := (s.setSlice i { x with vwSlot := some k }).wr (Reg.PG_VW_VW i) (bits w.toNat 0 28)
        barQueue .host 0x08 p (s.wr (Reg.PG_VWRES_DONE i) 0)

/-- VRESULT. The result of a VWRITE is posted in its slice's page (R381, R409). -/
def execVresult (p : BitVec 128) (s : State) : Host.Outcome State Fault Refusal :=
  run (rxBar .host 0x09 fun s =>
    let k := pf p 0 5
    let v : VwSlot := tget {} s.gate.vw k
    match v.busy with
    | some i =>
      if v.gen != p.getLsbD 5 then s
      else
        let s := { s with gate := { s.gate with vw := tset {} s.gate.vw k { v with busy := none } } }
        let x := s.slice i.toNat
        if x.vwSlot != some k then s
        else
          let s := s.setSlice i.toNat { x with vwSlot := none }
          ((s.wr (Reg.PG_VWRES_DONE i.toNat) 1).wr (Reg.PG_VWRES_REFUSED i.toNat) (b2n (p.getLsbD 6))).wr
            (Reg.PG_VWRES_REASON i.toNat) (pf p 7 4)
    | none => s) s

/-- VWRITE_REPEAT. A VWRITE has had no VRESULT for RTMO, and is sent again (R381). -/
def execVwriteRepeat (s : State) : Host.Outcome State Fault Refusal :=
  run (fun s =>
    let late (e : Nat × VwSlot) : Bool := e.2.busy.isSome && decide (e.2.sentAt.toNat + rtmo s ≤ s.gate.clk.toNat)
    if s.gate.bar.st != .up then s
    else match s.gate.vw.find? late with
      | some (k, v) =>
        let s := { s with gate := { s.gate with vw := tset {} s.gate.vw k { v with sentAt := s.gate.clk } } }
        barQueue .host 0x08 v.payload s
      | none => s) s

-- ring writers (R404 to R408, R415 to R421)

/-- The slices of a group of a writer that have a record to send. -/
def groupSlices (s : State) (w j : Nat) : List Nat :=
  (s.gate.slices.filter fun e => !e.2.q.isEmpty && (e.2.st == .open_ || e.2.st == .stopping)
    && s.rd (Reg.SLC_KEY_WRITER e.1) == w && s.rd (Reg.SLC_KEY_GROUP e.1) == j).map (·.1)

/-- The record at the head of a slice's queue is class F. -/
def headF (s : State) (i : Nat) : Bool := match (s.slice i).q with | r :: _ => r.msg.cls == .f | [] => false

/-- The slice that a group sends from next (R405). -/
def pickSlice (s : State) (w j : Nat) : Option Nat :=
  let l := groupSlices s w j
  let fs := l.filter (headF s)
  let last := tget 255 s.gate.served (16 * w + j)
  best (fun a b => decide ((a + 255 - last) % 256 < (b + 255 - last) % 256)) (if fs.isEmpty then l else fs)

/-- The slice of the transfer that group j has begun, or the one it would send from. -/
def groupSlice (s : State) (w j : Nat) : Option Nat :=
  match tget none s.gate.cur (16 * w + j) with
  | some (i, _) => some i
  | none => pickSlice s w j

/-- The requests at the memory port of writer w (R405). -/
def ringReqs (w : Nat) (s : State) : List ArbReq :=
  let groups := (List.range 16).filterMap fun j =>
    (groupSlice s w j).map fun i => (⟨j, 2 * min 4 (s.slice i).q.length, headF s i⟩ : ArbReq)
  groups ++ if s.gate.msix.any (·.1 == w) then [⟨16, 1, false⟩] else []

/-- A stamp extended to 64 bits against a time (R178). -/
def extendStamp (now : Tick) (ts : BitVec 32) : Tick :=
  let d := (now.toNat + 2 ^ 32 - ts.toNat) % 2 ^ 32
  if d < 2 ^ 31 then now - BitVec.ofNat 64 d else now + BitVec.ofNat 64 (2 ^ 32 - d)

/-- The eight words of a ring record, least significant first (R398). -/
def ringWords (s : State) (i : Nat) (r : RingRec) : List Word :=
  let full := extendStamp s.gate.now r.msg.ts
  let meter := if s.flag (Reg.SLC_VEC_MEN i) then
    (tget (0, 0) s.gate.mirror (s.rd (Reg.SLC_VEC_METER i))).1.extractLsb' 0 32 else 0
  [0, 1, 2, 3].map (word128 r.msg.pack) ++ [full.extractLsb' 0 32, full.extractLsb' 32 32, r.q, meter]

/-- The ring base of a slice. -/
def ringBase (s : State) (i : Nat) : Nat := s.rd (Reg.SLC_RBASE_LO i) + 2 ^ 32 * s.rd (Reg.SLC_RBASE_HI i)

/-- The record at the head of slice i is issued after its MPU check; a fault stops the slice (R406 to R408, R421). -/
def issueRecord (w i : Nat) (s : State) : State :=
  let x := s.slice i
  match x.q with
  | [] => s
  | r :: rest =>
    let base := ringBase s i
    let addr := (base + 32 * (r.q.toNat % ringSize s i)) % 2 ^ 64
    let tenant := !s.flag (Reg.SLC_KEY_PRIV i)
    match mpuCheck true w addr tenant true s with
    | .fault cause region =>
      gateEvt Reg.GATE_EVT_MPU (mpuRecord true w addr cause region tenant i (s.setSlice i { x with st := .fault }))
    | .pass rlx ns cache =>
      let pasid := if tenant then some (BitVec.ofNat 20 (s.rd (Reg.SLC_KEY_PASID i))) else none
      let s := s.emit (.ring w addr (ringWords s i r) pasid rlx ns (BitVec.ofNat 2 cache))
      let page := addr / 4096 - base / 4096
      let d : Fld := Reg.SLC_DIRTY i (page / 32)
      let s := (s.wr d (s.rd d ||| 2 ^ (page % 32))).inc (Reg.SLC_WR i)
      let s := report r.tag false (s.setSlice i { x with q := rest })
      finishReset i (notify i (r.msg.cls == .f) s)

/-- One beat of writer w's memory port: the second beat of a record issues it (R405, R406). -/
def ringBeat (w j : Nat) (s : State) : State :=
  if j = 16 then
    match takeFirst (fun (x : Nat × Nat) => x.1 == w) s.gate.msix with
    | some ((_, v), l) => ({ s with gate := { s.gate with msix := l } } : State).emit (.msix w v)
    | none => s
  else
    let key := 16 * w + j
    if !tget false s.gate.half key then
      let cur := match tget none s.gate.cur key, pickSlice s w j with
        | some c, _ => some c
        | none, some i => some (i, min 4 (s.slice i).q.length)
        | none, none => none
      { s with gate := { s.gate with half := tset false s.gate.half key true, cur := tset none s.gate.cur key cur } }
    else
      let cur := tget none s.gate.cur key
      let s := { s with gate := { s.gate with half := tset false s.gate.half key false } }
      match cur with
      | none => s
      | some (i, left) =>
        let s := issueRecord w i s
        let ended := decide (left ≤ 1) || (s.slice i).st == .fault || (s.slice i).q.isEmpty
        let s := { s with gate := { s.gate with
          served := tset 255 s.gate.served key i, cur := tset none s.gate.cur key (if ended then none else some (i, left - 1)) } }
        let s := if (s.slice i).st == .fault then s.setArb (21 + w) { s.arbOf (21 + w) with holder := none } else s
        drainEntries .host (pumpHeld 16 s)

/-- A grant of writer w names its slice and its records; those of a revoked transfer stand apart until it goes on, and those of
a transfer that holds the port no more are dropped (R240, R405). -/
def ringPin (w : Nat) (s : State) : State :=
  let b := s.arbOf (21 + w)
  let g := s.gate
  let saved := match b.revoked with
    | some x =>
      let key := 16 * w + x.j
      match tget none g.saved key, tget none g.cur key with
      | none, some (i, n) => tset none g.saved key (some (i, n, tget false g.half key))
      | _, _ => g.saved
    | none => g.saved
  let fresh := saved != g.saved
  let mine (k : Nat) : Bool := k / 16 == w
  let holds (k : Nat) : Bool := !fresh && (match b.holder with | some h => k == 16 * w + h.j | none => false)
  let g := { g with
    saved := saved, cur := g.cur.filter fun e => !mine e.1 || holds e.1, half := g.half.filter fun e => !mine e.1 || holds e.1 }
  let g := match b.holder with
    | some h =>
      let key := 16 * w + h.j
      if h.j = 16 || (tget none g.cur key).isSome then g
      else if h.granted then match pickSlice { s with gate := g } w h.j with
        | some i => { g with cur := tset none g.cur key (some (i, h.beats / 2)) }
        | none => g
      else match tget none g.saved key with
        | some (i, n, half) => { g with cur := tset none g.cur key (some (i, n)), half := tset false g.half key half }
        | none => g
    | none => g
  let g := if b.revoked.isNone then { g with saved := g.saved.filter fun e => !mine e.1 } else g
  { s with gate := g }

/-- RING_RECORD_WRITE. Writer w carries the two beats of its next record, after a decision when its port is idle
(R404 to R406). -/
def execRingRecordWrite (w : Fin 2) (s : State) : Host.Outcome State Fault Refusal :=
  run (fun s =>
    let a := 21 + w.val
    let s := arbSync a s
    let s := if (s.arbOf a).holder.isNone then ringPin w (arbDecide a (ringReqs w s) true s) else s
    arbBeats a (ringBeat w) 2 s) s

-- host resets (R414, R475)

/-- GATE_STATE goes to field die 0 (R373). -/
def sendGateState (s : State) : State :=
  let s := barQueue .host 0x02 (pay (b2n (s.flag Reg.GATE_CTRL_RUN) + 2 ^ 8 * s.gate.gen.toNat)) s
  if s.flag Reg.GATE_CTRL_RUN && s.gate.bar.st == .up then
    let stops := if s.gate.restop then (s.gate.slices.filter fun e => e.2.st == .stopping).map (·.1) else []
    let s := { s with gate := { s.gate with aging := false, restop := false } }
    s.each stops fun i s => barQueue .host 0x11 (pay i) s
  else s

/-- Every record not yet issued is dropped, its table entry none again, and every slice FREE (R414). -/
def freeAll (s : State) : State :=
  let tags := s.gate.tags.filter fun e => match e.2 with | .queued _ => false | _ => true
  let s := s.each s.gate.slices fun e s =>
    let s := s.each (List.range 17) fun w s => s.wr (Reg.SLC_DIRTY e.1 w) 0
    s.setSlice e.1 { ({} : Slice) with granted := e.2.granted }
  let gate := { s.gate with tags := tags, msix := [], held := [], half := [], cur := [], saved := [] }
  let s := { s with gate := gate }
  (s.setArb 21 { s.arbOf 21 with holder := none, revoked := none }).setArb 22
    { s.arbOf 22 with holder := none, revoked := none }

/-- The effect of hg_host_rst (R414, R472). -/
def hostRst (s : State) : State :=
  let s := drainEntries .host (freeAll (s.wr Reg.GATE_CTRL_RUN 0))
  let s := { s with gate := { s.gate with aging := true } }
  let s := gateEvt Reg.GATE_EVT_HRST (s.raise Reg.GATE_STAT_HRST)
  grantCredit (List.range 256) (sendGateState s)

/-- HOST_RESET. hg_host_rst is asserted (R414). -/
def execHostReset (s : State) : Host.Outcome State Fault Refusal := run hostRst s

/-- The next reset generation of the host gate (R475). -/
def nextGen (g : BitVec 8) : BitVec 8 := if g == 255 then 1 else g + 1

/-- The host gate's side leaves UP, and its copy of time runs free (R387, R413, GATE_EVT). -/
def hostDown (stuck : Bool) (s : State) : State :=
  let b := s.gate.bar
  let b := { b with st := .down, stuck := b.stuck || stuck, urgent := [], ctl := [] }
  let gate := { s.gate with bar := b, writtenTags := [], discTags := [], restop := true, slew := 0 }
  gateEvt Reg.GATE_EVT_BAR { s with gate := gate }

/-- The effect of a soft instance reset of the host gate (R475). -/
def hostSoft (s : State) : State :=
  let s := hostRst s
  let bar := { s.gate.bar with stuck := false }
  let s := { s with gate := { s.gate with bar := bar, tags := [], gen := nextGen s.gate.gen } }
  tryHello .host (if s.gate.bar.st == .up then hostDown false s
    else { s with gate := { s.gate with bar := { s.gate.bar with st := .down, urgent := [], ctl := [] } } })

/-- The host gate's side enters UP: of the credits it has given, only those of the EVENTs that it still holds count (R375, R402,
R413, R476). -/
def hostUp (gen : BitVec 8) (s : State) : State :=
  let b := s.gate.bar
  let b := { b with st := .up, credit := 16, rxUsed := 0, freed := 0, urgent := [], ctl := [], peerGen := some gen
                    lastRx := s.gate.clk, lastRxcred := s.gate.clk, lastGen := gen, failRun := 0 }
  let s := { s with gate := { s.gate with bar := b, everUp := true } }
  let here (i : Nat) : Nat := (s.gate.held.filter fun p => eventSlice p == i).length
  let s := s.each ((s.gate.slices.map (·.1) ++ s.gate.held.map eventSlice).dedup) fun i s =>
    s.setSlice i { s.slice i with granted := here i }
  let s := gateEvt Reg.GATE_EVT_BAR s
  grantCredit (List.range 256) (sendGateState s)

-- the barrier's commands on both sides

/-- A side leaves UP with a cause, and HELLO follows where its lanes are locked (R375, R383). -/
def barDown (d : Side) (cause : Nat) (s : State) : State :=
  if (barOf d s).st != .up then s
  else tryHello d (match d with
    | .field => fieldDown cause s
    | .host => hostDown (cause == 5) s)

/-- BAR_LANES_LOCKED. All four receive lanes of a side lock (R370, R375). -/
def execBarLanesLocked (d : Side) (s : State) : Host.Outcome State Fault Refusal :=
  run (fun s => if hasSide d s then tryHello d (setBar d { barOf d s with locked := 0xF } s) else s) s

/-- BAR_LANE_LOCK_LOST. A receive lane loses lock (R370, R383). -/
def execBarLaneLockLost (d : Side) (lane : Fin 4) (s : State) : Host.Outcome State Fault Refusal :=
  run (fun s =>
    let b := barOf d s
    barDown d 1 (setBar d { b with locked := b.locked &&& ~~~(1#4 <<< lane.val) } s)) s

/-- BAR_SILENCE_TIMEOUT. No frame has arrived for DTMO (R383). -/
def execBarSilenceTimeout (d : Side) (s : State) : Host.Outcome State Fault Refusal :=
  run (fun s => if (barOf d s).lastRx.toNat + dtmo s ≤ (clk d s).toNat then barDown d 3 s else s) s

/-- BAR_HELLO_TIMER. In HELLO a side sends HELLO every 256 ticks (R375). -/
def execBarHelloTimer (d : Side) (s : State) : Host.Outcome State Fault Refusal :=
  run (fun s =>
    let b := barOf d s
    if b.st != .hello || (b.lastHello != 0 && decide ((clk d s).toNat < b.lastHello.toNat + 256)) then s
    else
      let gen := match d with | .field => Config.fieldGen s.su.gens | .host => s.gate.gen
      let side := match d with | .field => 0 | .host => 1
      let p := pay (s.pins.idPkg.toNat + 8 * side + 16 + 2 ^ 8 * gen.toNat)
      setBar d { b with urgent := b.urgent ++ [(0x01, p)], lastHello := clk d s } s) s

/-- HELLO. A side in HELLO enters UP; a wrong package, VERSION or GEN holds it or takes it down (R375, R383). -/
def execHello (d : Side) (p : BitVec 128) (s : State) : Host.Outcome State Fault Refusal :=
  run (fun s =>
    let b := barOf d s
    let ok := pf p 0 3 == s.pins.idPkg.toNat && pf p 4 4 == 1
    let gen : BitVec 8 := p.extractLsb' 8 8
    let note (s : State) : State := match d with
      | .field => s.wr Reg.BAR_STAT_PEERGEN gen.toNat
      | .host => s
    match b.st with
    | .hello =>
      let s := note (setBar d { b with lastRx := clk d s, failRun := 0 } s)
      if b.stuck then s
      else if ok then match d with
        | .field => fieldUp gen s
        | .host => hostUp gen s
      else
        let s := setBar d { barOf d s with stuck := true } s
        match d with | .field => s.wr Reg.BAR_STAT_CAUSE 5 | .host => s
    | .up =>
      let s := note (setBar d { b with lastRx := clk d s, failRun := 0 } s)
      if !ok then barDown d 5 s else if b.peerGen != some gen then barDown d 4 s else s
    | .down => s) s

/-- RXCRED. A side's credit grows by the entries named (R376). -/
def execRxcred (d : Side) (p : BitVec 128) (s : State) : Host.Outcome State Fault Refusal :=
  run (rxBar d 0x14 fun s => let b := barOf d s; setBar d { b with credit := min 16 (b.credit + pf p 0 5) } s) s

/-- RXCRED_TIMER. A side returns the entries it has freed, and reports at least every 1,024 ticks (R376). -/
def execRxcredTimer (d : Side) (s : State) : Host.Outcome State Fault Refusal :=
  run (fun s =>
    let s := drainEntries d s
    let b := barOf d s
    if b.st != .up || (b.freed = 0 && decide ((clk d s).toNat < b.lastRxcred.toNat + 1024)) then s
    else
      let p := pay (b.freed + 2 ^ 16 * (b.sent + 1).toNat + 2 ^ 48 * b.crcFails.toNat)
      barQueue d 0x14 p (setBar d { b with freed := 0, lastRxcred := clk d s } s)) s

/-- ECHO_REQ. A side answers with the same bits (R373). -/
def execEchoReq (d : Side) (p : BitVec 128) (s : State) : Host.Outcome State Fault Refusal :=
  run (rxBar d 0x15 (barQueue d 0x16 p)) s

/-- ECHO_RSP. The answer to an ECHO_REQ arrives; no register shows it (R373). -/
def execEchoRsp (d : Side) (_p : BitVec 128) (s : State) : Host.Outcome State Fault Refusal := run (rxBar d 0x16 id) s

/-- FIELD_STATE. The host gate receives OPEN and ALOST of field die 0 (R373, R375). -/
def execFieldState (p : BitVec 128) (s : State) : Host.Outcome State Fault Refusal :=
  run (rxBar .host 0x03 fun s =>
    { s with gate := { s.gate with fieldOpen := p.getLsbD 0, fieldAlost := p.getLsbD 1 } }) s

/-- BAR_SYNC_REQ. The host gate answers with its stamps, at a resolution of 2 ticks (R188, R387). -/
def execBarSyncReq (_p : BitVec 128) (s : State) : Host.Outcome State Fault Refusal :=
  run (rxBar .host 0x0A fun s =>
    let t := s.gate.now.toNat / 2 * 2
    barQueue .host 0x0B (pay (t + 2 ^ 64 * t)) s) s

/-- TIME_TRIM. The host gate steps its copy by the correction, or slews it (R387). -/
def execTimeTrim (p : BitVec 128) (s : State) : Host.Outcome State Fault Refusal :=
  run (rxBar .host 0x0C fun s =>
    let c := p.extractLsb' 0 64
    if p.getLsbD 64 then { s with gate := { s.gate with now := s.gate.now + c, slew := 0 } }
    else { s with gate := { s.gate with slew := sgn 64 c.toNat } }) s

/-- BAR_FRAME_REJECT. A frame that fails its CRC, or whose type is not one the other side may send, is discarded and
counted; eight CRC failures in a row take the barrier down (R371, R372, R383). -/
def execBarFrameReject (d : Side) (frame : BarFrame) (s : State) : Host.Outcome State Fault Refusal :=
  run (fun s =>
    let b := barOf d s
    let other : Side := match d with | .field => .host | .host => .field
    if b.st == .down || !hasSide d s then s
    else if barCrc frame != frame.extractLsb' 0 16 then
      let s := match d with | .field => s.inc Reg.BAR_ERR_CRC | .host => s
      let fails := if b.crcFails == 0xFFFF then b.crcFails else b.crcFails + 1
      let s := setBar d { b with crcFails := fails, failRun := b.failRun + 1 } s
      if 8 ≤ b.failRun + 1 then barDown d 2 s else s
    else if sends other (frame.extractLsb' 144 8) then s
    else
      let s := setBar d { b with failRun := 0, lastRx := clk d s } s
      match d with | .field => s.inc Reg.BAR_ERR_BADTYPE | .host => s) s

/-- A WRITTEN or DISCARDED frame of up to eight tags. -/
def tagsPayload (l : List (BitVec 15)) : BitVec 128 :=
  pay ((List.range 8).map fun k => match l[k]? with
    | some t => (t.toNat + 2 ^ 15) * 2 ^ (16 * k)
    | none => 0).sum

/-- The tags that have gathered become frames (R406). -/
def flushReports (s : State) : State :=
  let g := s.gate
  let s := { s with gate := { g with writtenTags := [], discTags := [] } }
  let s := s.each (chunks8 g.writtenTags.length g.writtenTags) fun l s => barQueue .host 0x06 (tagsPayload l) s
  s.each (chunks8 g.discTags.length g.discTags) fun l s => barQueue .host 0x07 (tagsPayload l) s

/-- Field die 0 owes a SYNC_REQ: one in every sync interval (R387). -/
def barSyncDue (s : State) : Bool :=
  s.bar.st == .up && decide (s.time.lastBar.toNat + 256 * max 1 (s.rd Reg.TIME_CTRL_SYNCINT) ≤ s.t)

/-- BAR_TRANSMIT_SLOT. The transmitter of a side sends its next ready frame, or idle blocks. The stamp t1 has a resolution of 2
ticks (R188, R369, R375, R378). -/
def execBarTransmitSlot (d : Side) (s : State) : Host.Outcome State Fault Refusal :=
  run (fun s =>
    let s := match d with | .field => s | .host => flushReports s
    let b := barOf d s
    match b.st, b.urgent, b.ctl with
    | .down, _, _ => sendIdle d s
    | _, (t, p) :: rest, _ => sendBar d t p (setBar d { b with urgent := rest } s)
    | .hello, _, _ => sendIdle d s
    | .up, [], ctl =>
      if d == .field && barSyncDue s then
        sendBar .field 0x0A 0 { s with time := { s.time with barT1 := some (s.time.now &&& ~~~1), lastBar := s.time.now } }
      else if b.credit = 0 then sendIdle d s
      else match ctl with
        | (t, p) :: rest => sendBar d t p (setBar d { b with ctl := rest } s)
        | [] => match d with
          | .field => match nextSlice s with
            | some x => sendEvent x s
            | none => sendIdle d s
          | .host => sendIdle d s) s

end Sys2Proof.Machine
end

