-- ==== Sys2Proof/Machine/Edelweiss.lean ====
section
/-! DEFINITION. The Edelweiss metrology partition: channels, METER frames, seals, their restore and the tamper log, with
the host gate's mirrors (R425 to R449). -/

namespace Sys2Proof.Machine

/-- The Edelweiss domain is on and its clock runs (R432, R459). -/
def edwRuns (s : State) : Bool := s.on 23 && s.time.sleep == .awake

-- channels

/-- The enabled channel that names wired source n (R428). -/
def chanOf (s : State) (n : Nat) : Option Nat :=
  (List.range 64).find? fun c => s.flag (Reg.EDW_CH_EN c) && s.rd (Reg.EDW_CH_SOURCE c) == n

/-- The update of R430: the value saturates at the ends of its range, and the count wraps. -/
def chanUpdate (x : Int) (shift : Nat) (ch : Chan) : Chan :=
  let v := ch.value + x * 2 ^ shift
  let hi : Int := 2 ^ 63 - 1
  let lo : Int := -2 ^ 63
  { ch with value := max lo (min hi v), ovf := ch.ovf || decide (hi < v) || decide (v < lo), count := ch.count + 1 }

/-- METER_RECORD. The next class M record is applied to its channel, and its completion returns to Firn (R430, R431). -/
def execMeterRecord (s : State) : Host.Outcome State Fault Refusal :=
  run (fun s =>
    if !edwRuns s then s
    else match s.edw.inbox with
      | [] => s
      | m :: rest =>
        let s := { s with edw := { s.edw with inbox := rest } }
        let s := match chanOf s m.source.toNat with
          | some c =>
            let p := m.payload.toNat
            let x : Int := if s.flag (Reg.EDW_CH_SIGNED c) then sgn 16 p else p
            s.setChan c (chanUpdate x (s.rd (Reg.EDW_CH_SHIFT c)) (s.chan c))
          | none => s.inc Reg.EDW_STAT_NOCH
        applyDone m m.dest s.die s) s

-- METER frames of field die 0 (R445)

/-- METER for channel c leaves with its present value and count. -/
def sendMeter (c : Nat) (s : State) : State :=
  let ch := s.chan c
  let s := s.setChan c { ch with out := true, lastMeter := some s.time.now }
  barQueue .field 0x0E (pay (c + 2 ^ 32 * ch.count.toNat + 2 ^ 64 * ofSgn 64 ch.value)) s

/-- Field die 0 can send METER and SEAL frames. -/
def edwToBarrier (s : State) : Bool := s.isDie0 && s.bar.st == .up && edwRuns s

/-- METER_SEND. A mirrored channel whose count has changed sends METER once MRPT has passed (R445). -/
def execMeterSend (c : Fin 64) (s : State) : Host.Outcome State Fault Refusal :=
  run (fun s =>
    let ch := s.chan c.val
    let spaced := match ch.lastMeter with
      | some t => decide (t.toNat + 256 * max 1 (s.rd Reg.EDW_GLB_MRPT) ≤ s.t)
      | none => true
    if edwToBarrier s && s.flag (Reg.EDW_CH_MIRROR c.val) && ch.acked != some ch.count && !ch.out && spaced then sendMeter c.val s
    else s) s

/-- METER goes out for the channel named, or for every mirrored channel (R445). -/
def meterAsked (p : BitVec 128) (s : State) : State :=
  if !edwToBarrier s then s
  else if p.getLsbD 6 then s.each ((List.range 64).filter fun c => s.flag (Reg.EDW_CH_MIRROR c)) sendMeter
  else sendMeter (pf p 0 6) s

/-- METER_ACK_TIMEOUT. A METER without METER_ACK within RTMO is no longer outstanding (R445). -/
def execMeterAckTimeout (c : Fin 64) (s : State) : Host.Outcome State Fault Refusal :=
  run (fun s =>
    let ch := s.chan c.val
    match ch.lastMeter with
    | some t => if ch.out && decide (t.toNat + rtmo s ≤ s.t) then s.setChan c.val { ch with out := false } else s
    | none => s) s


-- seals (R433 to R438)

/-- A word of EDW_CH or EDW_GLB, by its index in S5. -/
def s5Word (s : State) (i : Nat) : Word :=
  BitVec.ofNat 32 (
    if i < 64 then
      s.rd (Reg.EDW_CH_EN i) + 2 * s.rd (Reg.EDW_CH_SOURCE i) + 2 ^ 8 * s.rd (Reg.EDW_CH_SHIFT i)
        + 2 ^ 13 * s.rd (Reg.EDW_CH_SIGNED i) + 2 ^ 14 * s.rd (Reg.EDW_CH_MIRROR i)
    else s.rd Reg.EDW_GLB_SEALINT + 2 ^ 16 * s.rd Reg.EDW_GLB_MRPT)

/-- EDW_CH and EDW_GLB take an S5 word. -/
def putS5Word (i : Nat) (w : Word) (s : State) : State :=
  let w := w.toNat
  if i < 64 then
    let s := (s.wr (Reg.EDW_CH_EN i) (bits w 0 1)).wr (Reg.EDW_CH_SOURCE i) (bits w 1 7)
    ((s.wr (Reg.EDW_CH_SHIFT i) (bits w 8 5)).wr (Reg.EDW_CH_SIGNED i) (bits w 13 1)).wr (Reg.EDW_CH_MIRROR i) (bits w 14 1)
  else (s.wr Reg.EDW_GLB_SEALINT (bits w 0 16)).wr Reg.EDW_GLB_MRPT (bits w 16 8)

/-- The tamper bits. -/
def tamper (s : State) : BitVec 2 :=
  BitVec.ofNat 2 (s.rd Reg.EDW_TAMPER_DBGW + 2 * s.rd Reg.EDW_TAMPER_RECMAC)

/-- n bytes of a number, the first the least significant. -/
def leBytes (n x : Nat) : List Nat := (beBytes n x).reverse

/-- Bytes 0x000 to 0x327 of a seal record (R433). -/
def sealBytes (s : State) (r : SealRec) : List Nat :=
  [0x45, 0x44, 0x57, 0x53, 1, 0] ++ leBytes 2 r.tamper.toNat ++ leBytes 8 r.cnt.toNat ++ leBytes 8 r.time.toNat
    ++ leBytes 4 (otpWord s 0) ++ leBytes 4 (otpWord s 1) ++ wordBytes r.cfg ++ [0, 0, 0, 0]
    ++ r.values.flatMap fun v => leBytes 8 (ofSgn 64 v)

/-- The MAC of a seal record under the key of this device (R434). -/
def sealMac (s : State) (r : SealRec) : BitVec 256 :=
  let root := (List.range 8).flatMap fun k => leBytes 4 (otpWord s (36 + k))
  let key := hmac256 root (leBytes 4 (otpWord s 0) ++ leBytes 4 (otpWord s 1))
  BitVec.ofNat 256 (leNum (hmac256 key (sealBytes s r)))

/-- The 210 words of a seal record with its MAC (R433). -/
def sealWords (s : State) (r : SealRec) : List Word :=
  let b := sealBytes s r ++ leBytes 32 r.mac.toNat
  (List.range 210).map fun k => BitVec.ofNat 32 (leNum ((b.drop (4 * k)).take 4))

/-- Step 1 of R436: the record is captured. -/
def sealCapture (s : State) : State :=
  let r : SealRec := { tamper := tamper s, cnt := s.edw.cnt + 1, time := s.time.now, cfg := (List.range 65).map (s5Word s)
                       values := (List.range 64).map fun c => (s.chan c).value, mac := 0 }
  { s with edw := { s.edw with
      step := .mac, rec_ := some r, lastCap := some s.time.now, due := false, held := false, tdue := false } }

/-- The ticks since the last capture are fewer than n times 2^32. With no capture there is no gap. -/
def capWithin (s : State) (n : Nat) : Bool :=
  match s.edw.lastCap with
  | some t => decide ((s.time.now - t).toNat < n * 2 ^ 32)
  | none => false

/-- A trigger of R435. The gap holds back every trigger but a tamper bit, and no seal starts during another. -/
def sealTrigger (isTamper : Bool) (s : State) : State :=
  let e := s.edw
  if !e.sealed_ && !e.first then s
  else if isTamper then
    if e.step == .idle then sealCapture s else { s with edw := { e with due := true, tdue := true } }
  else if capWithin s Config.sealGap || e.step != .idle then { s with edw := { e with due := true, held := true } }
  else sealCapture s

/-- SEAL_INTERVAL. SEALINT has passed since the last capture (R435). -/
def execSealInterval (s : State) : Host.Outcome State Fault Refusal :=
  run (fun s =>
    let n := s.rd Reg.EDW_GLB_SEALINT
    if !edwRuns s || n = 0 || capWithin s (max Config.sealGap n) then s else sealTrigger false s) s

/-- SEAL_GAP_EXPIRE. The gap passes, and the seal that it held back starts (R435). -/
def execSealGapExpire (s : State) : Host.Outcome State Fault Refusal :=
  run (fun s => if edwRuns s && s.edw.held && !capWithin s Config.sealGap then sealTrigger false s else s) s

/-- A load that holds S5 stands in a state from HEADER to READY: once SEGMASK has been taken it says so (R326, R440). -/
def s5Loading (s : State) : Bool :=
  let l := s.img.load
  l.st != .idle && l.st != .restore && l.st != .error && decide (1 < l.words.length) && bit (l.hdr 1 / 2 ^ 24) 5

/-- A write of EDW_CTRL.SEAL = 1 without reg_dbg: the first seal, or a request; none where it is a bus error (R440). -/
def sealWrite (s : State) : Option State :=
  if s.edw.sealed_ then some (sealTrigger false s)
  else if s.edw.cfg && !s5Loading s && s.edw.step == .idle then
    some (sealCapture { s with edw := { s.edw with first := true } })
  else none

-- frames from the host gate (R445)

/-- The partition takes a frame: METER_ACK, METER_REQ, or SEAL_REQ, which an unsealed partition ignores (R435, R445). -/
def edwTake (typ : BitVec 8) (p : BitVec 128) (s : State) : State :=
  if typ == 0x0F then
    let c := pf p 0 6
    s.setChan c { s.chan c with acked := some (p.extractLsb' 32 32), out := false }
  else if typ == 0x17 then meterAsked p s
  else if s.edw.sealed_ then sealTrigger false s else s

/-- The frames in the crossing reach the partition in order while its island runs (R34, R36). -/
def serveEdw (s : State) : State :=
  if edwRuns s then
    ({ s with edw := { s.edw with asks := [] } } : State).each s.edw.asks fun a s => edwTake a.1 a.2 s
  else s

/-- A frame for the partition enters the crossing toward its island (R36). -/
def edwAsk (typ : BitVec 8) (p : BitVec 128) (s : State) : State :=
  serveEdw { s with edw := { s.edw with asks := s.edw.asks ++ [(typ, p)] } }

/-- METER_ACK. The acknowledged count is recorded, and no METER of the channel is outstanding (R445). -/
def execMeterAck (p : BitVec 128) (s : State) : Host.Outcome State Fault Refusal := run (rxBar .field 0x0F (edwAsk 0x0F p)) s

/-- METER_REQ. METER goes out for the channel named, or for every mirrored channel (R445). -/
def execMeterReq (p : BitVec 128) (s : State) : Host.Outcome State Fault Refusal := run (rxBar .field 0x17 (edwAsk 0x17 p)) s

/-- SEAL_REQ. On field die 0 a seal is requested; an unsealed partition ignores it (R435, R445). -/
def execSealReq (p : BitVec 128) (s : State) : Host.Outcome State Fault Refusal := run (rxBar .field 0x18 (edwAsk 0x18 p)) s

/-- The next sector in rotation that does not hold the only valid record (R437). -/
def nextSector (s : State) : Nat :=
  let valid (k : Nat) : Nat := ((tget [] s.edw.sectors k).filter (·.isSome)).length
  let total := ((List.range 8).map valid).sum
  let l := (List.range 7).map fun d => (s.edw.sector + d + 1) % 8
  (l.find? fun k => total != 1 || valid k == 0).getD ((s.edw.sector + 1) % 8)

/-- The flash area of a seal sector at the loader port: 3 to 10, after the blocks and the markers (log entry 19). -/
def sealArea (k : Nat) : Nat := 3 + k

/-- The next sector is erased (R437, R438). -/
def eraseNext (s : State) : State :=
  let k := nextSector s
  let s := s.emit (.ld 2 (sealArea k) 0 0)
  { s with edw := { s.edw with sector := k, sectors := tset [] s.edw.sectors k [] } }

/-- The record is programmed into the next slot of the present sector, its MAC last (R436, R437). -/
def programSeal (retry : Bool) (s : State) : State :=
  match s.edw.rec_ with
  | none => s
  | some r =>
    let slot := (tget [] s.edw.sectors s.edw.sector).length
    let s := s.each (List.zip (List.range 210) (sealWords s r)) fun x s =>
      s.emit (.ld 1 (sealArea s.edw.sector) (210 * slot + x.1) x.2)
    { s with edw := { s.edw with step := .program retry } }

/-- A persist is under way: it ends with its marker, which makes the load READY, or in ERROR (R363, R365). -/
def persisting (s : State) : Bool :=
  let l := s.img.load
  l.persist && l.st != .idle && l.st != .ready && l.st != .error

/-- SEAL_MAC_DONE. The MAC is in the record, and the record goes to flash once no persist runs (R363, R436). -/
def execSealMacDone (s : State) : Host.Outcome State Fault Refusal :=
  run (fun s =>
    match s.edw.step, s.edw.rec_ with
    | .mac, some r =>
      if !edwRuns s || persisting s then s
      else
        let s := { s with edw := { s.edw with rec_ := some { r with mac := sealMac s r } } }
        let full := decide (9 ≤ (tget [] s.edw.sectors s.edw.sector).length)
        programSeal false (if full then eraseNext s else s)
    | _, _ => s) s

/-- The slot under program is used, with the record or cut (R437). -/
def useSlot (r : Option SealRec) (s : State) : State :=
  let k := s.edw.sector
  { s with edw := { s.edw with sectors := tset [] s.edw.sectors k (tget [] s.edw.sectors k ++ [r]) } }

/-- A seal has ended: a tamper seal that waited starts (R435). -/
def sealEnd (s : State) : State :=
  let s := { s with edw := { s.edw with step := .idle, rec_ := none, first := false } }
  if s.edw.tdue then sealTrigger true s else s

/-- The registers of the last seal (R436, R439). -/
def showSeal (r : SealRec) (s : State) : State :=
  let w64 (lo hi : Fld) (x : Nat) (s : State) : State := (s.wr lo (bits x 0 32)).wr hi (bits x 32 32)
  let s := w64 Reg.EDW_SCNT_LO Reg.EDW_SCNT_HI r.cnt.toNat s
  let s := w64 Reg.EDW_STIME_LO Reg.EDW_STIME_HI r.time.toNat s
  let s := s.each (List.range 8) fun k s => s.wr (Reg.EDW_MAC_MAC k) (bits r.mac.toNat (32 * k) 32)
  { s with edw := { s.edw with cnt := r.cnt } }

/-- A record that the flash has not taken is tried once more in the next sector, and then the seal is abandoned (R438,
R440). -/
def sealFails (retry : Bool) (s : State) : State :=
  if retry then
    let s := (useSlot none s).raise Reg.EDW_STAT_FLERR
    sealEnd { s with edw := { s.edw with due := true } }
  else programSeal true (eraseNext (useSlot none s))

/-- The first n words of slot j of seal sector k are read (R436, R439, R530). -/
def readSlot (k j n : Nat) (s : State) : State :=
  s.each (List.range n) fun i s => s.emit (.ld 0 (sealArea k) (210 * j + i) 0)

/-- The MAC of a record checks under the key of this device, and is not the blank one (R434, R439). -/
def macChecks (s : State) (r : SealRec) : Bool := r.mac == sealMac s r && r.mac != BitVec.allOnes 256

/-- A record that reads back right: the seal registers take it, the partition is sealed, and field die 0 sends SEAL (R436,
R440). -/
def sealDone (r : SealRec) (s : State) : State :=
  let s := showSeal r (useSlot (some r) s)
  let s := { s with edw := { s.edw with sealed_ := true } }
  let p := pay (r.cnt.toNat + 2 ^ 64 * bits r.mac.toNat 0 64)
  sealEnd (if edwToBarrier s then barQueue .field 0x10 p s else s)

/-- SEAL_PROGRAM_DONE. The record is read back and its MAC checked; one that fails counts as a failure of the flash (R436,
R438; log entry 33). -/
def execSealProgramDone (s : State) : Host.Outcome State Fault Refusal :=
  run (fun s =>
    match s.edw.step, s.edw.rec_ with
    | .program retry, some r =>
      let s := readSlot s.edw.sector (tget [] s.edw.sectors s.edw.sector).length 210 s
      if macChecks s r then sealDone r s else sealFails retry s
    | _, _ => s) s

/-- FLASH_FAIL. The flash fails during a seal (R438, R440), or during a persist (R361). -/
def execFlashFail (s : State) : Host.Outcome State Fault Refusal :=
  run (fun s =>
    match s.edw.step with
    | .program retry => sealFails retry s
    | _ => loadFlashFail s) s

-- the Edelweiss domain (R426, R432, R439)

/-- The partition after a reset of its domain: the channels and registers are lost, the flash and the crossing stay. -/
def edwReset (s : State) : State :=
  let s := match s.edw.step with | .program _ => useSlot none s | _ => s
  let keep : EdwS := { sectors := s.edw.sectors, sector := s.edw.sector, inbox := s.edw.inbox, asks := s.edw.asks }
  { s with edw := keep, regs := s.regs.filter fun e => !(decide (32 * 0x21000 ≤ e.1) && decide (e.1 < 32 * 0x22000)) }

/-- The sources that enabled channels name (R428). -/
def meterSources (s : State) : List Nat :=
  ((List.range 64).filter fun c => s.flag (Reg.EDW_CH_EN c)).map fun c => s.rd (Reg.EDW_CH_SOURCE c)

/-- The domain goes off or fails. The meter inputs that S5 has named stay meter inputs, whose events are accepted and wait
(R74, R432). -/
def edwOff (s : State) : State :=
  let l := s.edw.meters ++ meterSources s
  let s := edwReset s
  { s with edw := { s.edw with meters := l } }

/-- The domain comes on, and the partition starts to read its slots (R439). Frames that have waited reach it (R36). -/
def edwOn (s : State) : State := serveEdw { s with edw := { s.edw with scan := true } }

/-- The valid record with the highest counter. -/
def newestSeal (s : State) : Option SealRec :=
  best (fun a b => decide (b.cnt.toNat < a.cnt.toNat))
    ((s.edw.sectors.flatMap fun e => e.2.filterMap id).filter (macChecks s))

/-- Every slot is read: a used one whole, a blank one as far as its MAGIC (R439). -/
def readSlots (s : State) : State :=
  s.each (List.range 8) fun k s => s.each (List.range 9) fun j s =>
    readSlot k j (if j < (tget [] s.edw.sectors k).length then 210 else 1) s

/-- A whole record fails its MAC. -/
def macFails (s : State) : Bool :=
  s.edw.sectors.any fun e => e.2.any fun r => r.any fun r => r.mac != BitVec.allOnes 256 && !macChecks s r

/-- With no valid slot the partition starts unsealed, its values and its configuration at 0 (R439). -/
def edwEmpty (s : State) : State :=
  let s := s.each (List.range 65) fun i s => putS5Word i 0 s
  { s with edw := { s.edw with chan := [], cfg := false } }

/-- Every slot has been classed, and the newest valid record is restored (R439). A tamper bit that the record does not
carry makes a seal (R435). -/
def edwRestore (s : State) : State :=
  let s := readSlots { s with edw := { s.edw with scan := false, meters := [] } }
  let cut := s.edw.sectors.any fun e => e.2.any (·.isNone)
  let s := if macFails s || (cut && Config.slotFailsMac s.fresh) then s.raise Reg.EDW_TAMPER_RECMAC else s
  let s := if cut then { s with fresh := s.fresh + 1 } else s
  match newestSeal s with
  | none => edwEmpty s
  | some r =>
    let s := s.each (List.zip (List.range 65) r.cfg) fun x s => putS5Word x.1 x.2 s
    let s := s.each (List.zip (List.range 64) r.values) fun x s => s.setChan x.1 { value := x.2 }
    let both := tamper s ||| r.tamper
    let s := (s.wr Reg.EDW_TAMPER_DBGW (bits both.toNat 0 1)).wr Reg.EDW_TAMPER_RECMAC (bits both.toNat 1 1)
    let s := (showSeal r s).raise Reg.EDW_STAT_RESTORED
    let s := { s with edw := { s.edw with sealed_ := true, cfg := true, lastCap := some r.time } }
    if both != r.tamper then sealTrigger true s else s

-- the tamper log (R443)

/-- A debug write to the Edelweiss block is logged, and its first one changes DBGW. -/
def edwDebugLog (off : Nat) (s : State) : State :=
  let s := if s.rd Reg.EDW_TAMPER_COUNT = 0 then s.wr Reg.EDW_TADDR_FIRST off else s
  let was := s.flag Reg.EDW_TAMPER_DBGW
  let s := ((s.wr Reg.EDW_TADDR_LAST off).inc Reg.EDW_TAMPER_COUNT).raise Reg.EDW_TAMPER_DBGW
  if was then s else sealTrigger true s

-- the host gate (R446)

/-- The host gate's Edelweiss domain is on. -/
def hostEdwOn (s : State) : Bool := s.gate.pwrE == 2

/-- METER. The mirror takes the value and count, and METER_ACK answers (R446). -/
def execMeter (p : BitVec 128) (s : State) : Host.Outcome State Fault Refusal :=
  run (rxBar .host 0x0E fun s =>
    if !hostEdwOn s then s
    else
      let c := pf p 0 6
      let n : BitVec 32 := p.extractLsb' 32 32
      let s := { s with gate := { s.gate with mirror := tset (0, 0) s.gate.mirror c (p.extractLsb' 64 64, n) } }
      barQueue .host 0x0F (pay (c + 2 ^ 32 * n.toNat)) s) s

/-- SEAL. HSEAL takes the counter and MAC bytes; a counter that does not rise sets ROLL (R446). -/
def execSeal (p : BitVec 128) (s : State) : Host.Outcome State Fault Refusal :=
  run (rxBar .host 0x10 fun s =>
    if !hostEdwOn s then s
    else
      let last := s.rd Reg.HSEAL_LO + 2 ^ 32 * s.rd Reg.HSEAL_HI
      let roll := s.flag Reg.HEDW_CFG_SEALCHK && s.gate.sealSeen && decide (pf p 0 64 ≤ last)
      let s := if roll then s.raise Reg.HEDW_STAT_ROLL else s
      let s := (s.wr Reg.HSEAL_LO (pf p 0 32)).wr Reg.HSEAL_HI (pf p 32 32)
      let s := (s.wr Reg.HSEAL_MAC_LO (pf p 64 32)).wr Reg.HSEAL_MAC_HI (pf p 96 32)
      { s.raise Reg.HEDW_STAT_SEALNEW with gate := { s.gate with sealSeen := true } }) s

end Sys2Proof.Machine
end

