-- ==== Sys2Proof/Machine/Recovery.lean ====
section
/-! DEFINITION. Exactly-once delivery: hand-in, completion, fences, probes, takeover, migration, the Firn scrubber, and
the sequence locks (R302 to R323). The lock commands that come as register accesses stand in Machine/Commands.lean. -/

namespace Sys2Proof.Machine

-- hand-in and completion

/-- A restored copy goes to the head of its lane, behind older restored events of its stream (R310). -/
def enterRestored (m : Msg) (l : List Msg) : List Msg :=
  let older (x : Msg) : Bool := x.sameStream m && x.repres && after 24 m.seq.toNat x.seq.toNat
  let n := match l.reverse.findIdx? older with | some k => l.length - k | none => 0
  l.take n ++ m :: l.drop n

/-- Region r takes the next entry of its crossing into its lane; a flagged copy of an event already held is discarded
(R96, R303, R306, R310, R319). -/
def handIn (r : Nat) (s : State) : State :=
  match s.crossing r with
  | [] => s
  | x :: rest =>
    if !s.on (16 + r) then s
    else
      let s := s.setCrossing r rest
      if x.dup then s.inc Reg.REC_CNT_DUP
      else
        let s :=
          if x.restored then s.setLane x.u (enterRestored x.msg (s.lane x.u))
          else
            let (l, old) := enterOrReplace x.msg (s.lane x.u)
            let s := s.setLane x.u l
            if old then coalesce x.msg.source.toNat s else s
        let back := x.msg.isEvent
          && s.rq.redirect.any fun d => d.u == x.u && d.origin == x.msg.origin && d.source == x.msg.source
        if back then moveRedirected x.u s else s

/-- HAND_IN (R303). -/
def execHandIn (r : Fin 4) (s : State) : Host.Outcome State Fault Refusal := runClk (handIn r) s

/-- REPLICA_COMPLETE. The oldest completion that crosses to Firn reaches its custody record (R304, R305). A record whose
event was re-presented by a core reset counts as flagged. -/
def execReplicaComplete (s : State) : Host.Outcome State Fault Refusal :=
  runClk (fun s =>
    match s.firn.dones with
    | [] => s
    | m :: rest =>
      let s := { s with firn := { s.firn with dones := rest } }
      match custodyAt s (destLane m.dest) m with
      | some (k, c) => completeReplica k { c with msg := { c.msg with repres := c.msg.repres || m.repres } } s
      | none => s) s

-- fences of R305, R311 and R312

/-- A fence token of a kind that has reached this die (R214, R309). -/
def onFence (kind : Nat) (m : Msg) (f : State → State) (s : State) : State :=
  if m.typ == 0x14 && fenceKind m == kind then takeRec m f s else s

/-- The replica that DONE, PROBE and ANSWER name (R309). -/
def fenceReplica (m : Msg) : BitVec 12 := m.ts.extractLsb' 0 12

/-- FENCE_DONE. The origin sets a replica bit and releases the record with its last (R305). -/
def execFenceDone (m : Msg) (s : State) : Host.Outcome State Fault Refusal :=
  runClk (onFence 4 m (applyDone m (fenceReplica m) (senderOf m))) s

/-- FENCE_CONFIRM. The custody records of the event marked done are freed, flagged ones PSETTLE later (R305). -/
def execFenceConfirm (m : Msg) (s : State) : Host.Outcome State Fault Refusal :=
  runClk (onFence 5 m fun s =>
    s.each (firnAll s fun r => r.kind == .custody && r.done && r.msg.sameId m) fun e s =>
      if e.2.settle.isSome then s else freeCustody e.1 e.2 s) s

/-- CUSTODY_SETTLE_EXPIRE. PSETTLE has passed since the confirm of a flagged event, and its record is freed (R305). -/
def execCustodySettleExpire (idx : BitVec 14) (s : State) : Host.Outcome State Fault Refusal :=
  runClk (fun s =>
    match s.recOf idx.toNat with
    | some c => match c.settle with
      | some t => if c.kind == .custody && decide (t.toNat + psettle s ≤ s.t) then s.setRec idx.toNat none else s
      | none => s
    | none => s) s

/-- FENCE_RESTORE. The origin sends an event lost in transport again, flagged, to every destination that has not
completed (R311; the token names no destination). -/
def execFenceRestore (m : Msg) (s : State) : Host.Outcome State Fault Refusal :=
  runClk (onFence 6 m fun s =>
    match firnFind s fun r => r.kind == .event && r.msg.sameId m with
    | some (_, r) => s.each r.need fun x s => resend r x s
    | none => s) s

/-- AGE_PROBE. An event record has been incomplete for longer than AGE since its acceptance or its last probe (R312). -/
def execAgeProbe (idx : BitVec 14) (s : State) : Host.Outcome State Fault Refusal :=
  runClk (fun s =>
    match s.recOf idx.toNat with
    | some r =>
      let due := decide (r.since.toNat + ageTicks s < s.t)
      if s.flag Reg.REC_CTRL_AGEN && r.kind == .event && r.accepted && !r.need.isEmpty && due then
        probeRecord idx.toNat s
      else s
    | none => s) s

/-- FENCE_PROBE. A destination die answers whether it holds a replica, has done it, or knows nothing of it (R312). -/
def execFenceProbe (m : Msg) (s : State) : Host.Outcome State Fault Refusal :=
  runClk (onFence 7 m fun s =>
    let x := fenceReplica m
    sendFence 8 m (senderOf m) x (16 * probeState s m x) s) s

/-- A class M event is sent again from its record toward the Edelweiss island, which alone it is bound for (R95, R302,
R312). -/
def resendMeter (r : FirnRec) (s : State) : State :=
  if r.poisoned then s.inc Reg.FIRN_ERR_LOST
  else ({ s with edw := { s.edw with inbox := s.edw.inbox ++ [r.msg.flag] } } : State).inc Reg.REC_STAT_RESENT

/-- FENCE_ANSWER. Held or done clears the replica's absence; a second absence sends the replica again (R312). -/
def execFenceAnswer (m : Msg) (s : State) : Host.Outcome State Fault Refusal :=
  runClk (onFence 8 m fun s =>
    let x := fenceReplica m
    match firnFind s fun r => r.kind == .event && r.msg.sameId m && r.need.contains x with
    | some (k, r) =>
      let gone := r.absent.filter (· != x)
      if m.payload.extractLsb' 4 2 != 0 then s.setRec k (some { r with absent := gone })
      else if r.absent.contains x then
        let s := s.setRec k (some { r with absent := gone, again := true })
        if r.msg.cls == .m then resendMeter r s else resend r x s
      else s.setRec k (some { r with absent := r.absent ++ [x] })
    | none => s) s

-- lost dies (R315 to R317)

/-- FENCE_ACTING. The sender acts for the named origin, and every DONE for that origin goes to it (R315). -/
def execFenceActing (m : Msg) (s : State) : Host.Outcome State Fault Refusal :=
  runClk (onFence 9 m fun s =>
    let map := tset none s.rec_.actmap m.origin.toNat (some (senderOf m))
    resendDones (some m.origin) { s with rec_ := { s.rec_ with actmap := map } }) s

/-- Some source of this die, or an event record, has die o as its partner. -/
def hasPartner (s : State) (o : BitVec 5) : Bool :=
  (List.range 1024).any (fun n => srcPaired s n && srcPartner s n == o)
    || (firnFind s fun r => r.kind == .event && r.partner == some o).isSome

/-- This die is the partner of origin o: it holds mirror records of it. -/
def holdsMirrors (s : State) (o : BitVec 5) : Bool := (firnFind s fun r => r.kind == .mirror && r.msg.origin == o).isSome

/-- This die holds event records that act for origin o (R317). -/
def actsFor (s : State) (o : BitVec 5) : Bool := (firnFind s fun r => r.acting && r.msg.origin == o).isSome

/-- A waiting stream takes a free migration slot (R318). -/
def fillSlots (s : State) : State :=
  let free := (List.range 8).find? fun j => (tget none s.rec_.mig j).isNone
  match free, s.rec_.gated with
  | some j, (src, old, new) :: rest =>
    let slot : MigSlot := { source := src, old := old, new := new, first := tget 0 s.acc.counters src.toNat }
    { s with rec_ := { s.rec_ with mig := tset none s.rec_.mig j (some slot), gated := rest } }
  | _, _ => s

/-- A stream whose migration has ended takes the class committed with its destination, unless it waits for another slot
(R318). -/
def classEnds (s : State) : State :=
  let moving (n : Nat) : Bool := s.rec_.mig.any (fun e => e.2.any (·.source.toNat == n)) || s.rec_.gated.any (·.1.toNat == n)
  { s with rec_ := { s.rec_ with oldCls := s.rec_.oldCls.filter fun e => moving e.1 } }

/-- The slots that p names are freed, and waiting streams take them (R318, R319). -/
def freeSlots (p : MigSlot → Bool) (s : State) : State :=
  let gone := (List.range 8).filter fun j => match tget none s.rec_.mig j with | some x => p x | none => false
  classEnds (s.each gone fun j s => fillSlots { s with rec_ := { s.rec_ with mig := tset none s.rec_.mig j none } })

/-- The die of the old target of a stream's migration is lost: the migration ends when the probes have sent the stream's
incomplete events again (R320). -/
def loseTarget (o : BitVec 5) (s : State) : State :=
  let hit (x : MigSlot) : Bool := destDie x.old == o
  let srcs := s.rec_.mig.filterMap fun e => e.2.bind fun x => if hit x then some x.source else none
  let mig := s.rec_.mig.map fun e => (e.1, e.2.map fun x => if hit x then { x with lost := true } else x)
  let s := { s with rec_ := { s.rec_ with mig := mig } }
  s.each (firnAll s fun r => r.kind == .event && !r.acting && srcs.contains r.msg.source) fun e s =>
    s.setRec e.1 (some { e.2 with again := false })

/-- Every incomplete event of a stream of this die has been sent again since its migration's old target was lost. -/
def allAgain (s : State) (src : BitVec 13) : Bool :=
  (firnFind s fun r => r.kind == .event && !r.acting && r.msg.source == src && !r.need.isEmpty && !r.again).isNone

/-- The migrations whose old target is lost and whose events have been sent again end (R320). -/
def endLostMigrations (s : State) : State :=
  if s.rec_.mig.any fun e => e.2.any (·.lost) then freeSlots (fun x => x.lost && allAgain s x.source) s else s

/-- MIGRATED goes to the origin of a stream (R309, R319). -/
def sendMigrated (origin : BitVec 5) (source : BitVec 13) (seq : BitVec 24) (s : State) : State :=
  sendRec { msg := fenceTok s 3 origin source seq (dieAddr origin) .g 0 0 } s

/-- FENCE_LOSS. A die has lost what its transport held: the incomplete records are probed, a lost partner is marked
unreachable, a lost origin's partner takes over, and migrations whose old target lay on that die end once their events
have been sent again (R312, R315, R317, R320). -/
def execFenceLoss (m : Msg) (s : State) : Host.Outcome State Fault Refusal :=
  runClk (onFence 10 m fun s =>
    let o := m.origin
    let s := { s with rec_ := { s.rec_ with actmap := tset none s.rec_.actmap o.toNat none } }
    let s := if s.rd Reg.REC_STAT_ACTING == o.toNat then s.wr Reg.REC_STAT_TAKEV 0 else s
    let s := if hasPartner s o then markUnreachable o s else s
    let s := if s.flag Reg.REC_CTRL_AGEN then probeAll s else s
    let s := if m.payload.getLsbD 6 && holdsMirrors s o then startTakeover o s else s
    let s := if actsFor s o then startResync o s else s
    let cut := s.rq.blocked.filter (·.sender == o)
    let s := { s with rq := { s.rq with blocked := s.rq.blocked.filter (·.sender != o) } }
    let s := s.each cut fun b s => askFills (b.u % 64 / 4) (sendMigrated b.origin b.source b.seq s)
    endLostMigrations (loseTarget o s)) s

/-- The origins of mirror records toward which no port is usable, with the tick since which that is so (R317). -/
def noteRoutes (s : State) : State :=
  let os := ((firnAll s fun r => r.kind == .mirror).map fun e => e.2.msg.origin).dedup
  let cut := os.filter fun o => (portToward s o).isNone
  let upd := cut.foldl (fun (t : Tbl (Option Tick)) o =>
    tset none t o.toNat (some ((tget none s.rec_.noRoute o.toNat).getD s.time.now))) []
  { s with rec_ := { s.rec_ with noRoute := upd } }

/-- PARTNER_NO_ROUTE_TIMEOUT. The partner of origin o has had no usable port toward it for PSETTLE (R317). -/
def execPartnerNoRouteTimeout (o : BitVec 5) (s : State) : Host.Outcome State Fault Refusal :=
  runClk (fun s =>
    let s := noteRoutes s
    match tget none s.rec_.noRoute o.toNat with
    | some t => if t.toNat + psettle s ≤ s.t then startTakeover o s else s
    | none => s) s

/-- TAKEOVER_SETTLE_EXPIRE. PSETTLE has passed since ACTING was broadcast: each mirror record of the origin becomes an
event record that acts for it, and is probed (R312, R317). An origin that a port already reaches again is resynchronized
with the records held for it (R316, R317; log entry 65). -/
def execTakeoverSettleExpire (s : State) : Host.Outcome State Fault Refusal :=
  runClk (fun s =>
    match s.rec_.acting with
    | none => s
    | some (o, t) =>
      if s.t < t.toNat + psettle s then s
      else
        let rs := bySeq (firnAll s fun r => r.kind == .mirror && r.msg.origin == o)
        let s := { s with rec_ := { s.rec_ with acting := s.rec_.actMore.head?, actMore := s.rec_.actMore.drop 1 } }
        let s := s.each rs fun e s =>
          let r : FirnRec := { kind := .event, msg := e.2.msg, need := [e.2.msg.dest], acting := true, since := s.time.now,
                               poisoned := e.2.poisoned }
          let s := s.setRec e.1 (some r)
          if s.flag Reg.REC_CTRL_AGEN then probeRecord e.1 s else s
        if (portToward s o).isSome && actsFor s o then startResync o s else s) s

-- migration (R318 to R320)

/-- A committed new destination of a source of class cls starts a migration, or waits for a slot; the class stays in force
until the migration ends. A host gate has no lane to which a fence could go, and its streams do not migrate, nor does a
malformed destination have one (R26, R318; log entry 16). -/
def startMigration (src : Nat) (old new : BitVec 12) (cls : Cls) (s : State) : State :=
  if old == new || cls == .m || destHost old || destHost new || !destOk s old || !destOk s new then s
  else
    let wait := s.rec_.gated ++ [(BitVec.ofNat 13 src, old, new)]
    fillSlots { s with rec_ := { s.rec_ with gated := wait, oldCls := tset none s.rec_.oldCls src (some cls) } }

/-- A message of a stream of this die stands in its crossbar, stagings, rings or offers (R319). -/
def inTransport (s : State) (src : BitVec 13) : Bool :=
  let mine (m : Msg) : Bool := m.isEvent && m.origin == s.die && m.source == src
  s.acc.offers.any (mine ·.msg) || (xbEntries s).any (mine ·.msg) || s.xb.recHold.any (mine ·.msg)

/-- MIGRATION_DRAIN_END. No message of the gated stream remains on the origin die, and MIGRATE goes to the old target
(R319). -/
def execMigrationDrainEnd (slot : Fin 8) (s : State) : Host.Outcome State Fault Refusal :=
  runClk (fun s =>
    match tget none s.rec_.mig slot.val with
    | some x =>
      if x.phase != 0 || inTransport s x.source then s
      else
        let mig := tset none s.rec_.mig slot.val (some { x with phase := 1 })
        let s := { s with rec_ := { s.rec_ with mig := mig } }
        sendRec { msg := fenceTok s 0 s.die x.source x.first x.old (srcCls s x.source.toNat) x.new 0 } s
    | none => s) s

/-- The fence token of a kind that stands at the head of lane u, and the lane without it (R309). A blocked stream holds a
Campion's lane, and its RELEASE is taken from behind it (R319). -/
def fenceAt (s : State) (u kind : Nat) : Option (Msg × List Msg) :=
  let is (m : Msg) : Bool := m.typ == 0x14 && fenceKind m == kind
  let l := s.lane u
  match laneHead u l with
  | some m =>
    if is m then some (m, l.erase m)
    else if 64 ≤ u ∧ kind = 2 ∧ streamBlocked s u m then takeFirst is l
    else none
  | none => none

/-- A fence token formed by region r leaves through its region return (R319). -/
def sendRet (u : Nat) (m : Msg) (s : State) : State :=
  let r := u % 64 / 16
  { s with xb := { s.xb with retHold := tset [] s.xb.retHold r (tget [] s.xb.retHold r ++ [m]) } }

/-- FENCE_MIGRATE. MIGRATE reaches the head of the old target's lane: INTAKE and the stream's waiting events go to the new
target, and the redirect is set (R319). -/
def execFenceMigrate (u : Fin 128) (s : State) : Host.Outcome State Fault Refusal :=
  runClk (fun s =>
    match fenceAt s u 0 with
    | none => s
    | some (m, l) =>
      let b := fenceReplica m
      let s := s.setLane u l
      let s := sendRet u (fenceTok s 1 m.origin m.source m.seq b m.cls 0 0) s
      let s := moveOut u m.origin m.source b s
      let d : Redirect := ⟨u.val, m.origin, m.source, b, m.seq, m.cls⟩
      let s := pumpRet (u.val % 64 / 16) { s with rq := { s.rq with redirect := s.rq.redirect ++ [d] } }
      askFills (u.val % 64 / 4) s) s

/-- FENCE_INTAKE. INTAKE reaches the new target, which blocks the stream (R319). -/
def execFenceIntake (u : Fin 128) (s : State) : Host.Outcome State Fault Refusal :=
  runClk (fun s =>
    match fenceAt s u 1 with
    | none => s
    | some (m, l) =>
      let b : Blocked := ⟨u.val, m.origin, m.source, senderOf m, m.seq⟩
      let s := s.setLane u l
      { s with rq := { s.rq with blocked := s.rq.blocked ++ [b] } }) s

/-- An event of a stream is taken, active, running or queued at unit u (R319). -/
def heldAt (s : State) (u : Nat) (origin : BitVec 5) (source : BitVec 13) : Bool :=
  let mine (m : Msg) : Bool := m.isEvent && m.origin == origin && m.source == source
  if u < 64 then
    (s.coreOf u).held.any mine || (s.coreOf u).pend.any mine || (s.toClus (u / 4)).any fun x => x.1 == u && mine x.2
  else
    let n := u - 64
    (s.campOf n).q.any (mine ·.msg) || (s.campOf n).run.any (mine ·.msg)
      || (s.segOf (n / 16)).bursts.any fun b => b.camp == n && mine b.msg

/-- MIGRATION_OLD_TARGET_EMPTY. No event of the stream remains at the old target: RELEASE follows, and the redirect
clears (R319). -/
def execMigrationOldTargetEmpty (u : Fin 128) (origin : BitVec 5) (source : BitVec 13) (s : State) :
    Host.Outcome State Fault Refusal :=
  runClk (fun s =>
    let mine (d : Redirect) : Bool := d.u == u.val && d.origin == origin && d.source == source
    match takeFirst mine s.rq.redirect with
    | none => s
    | some (d, rest) =>
      if heldAt s u origin source then s
      else
        let s := { s with rq := { s.rq with redirect := rest } }
        pumpRet (u.val % 64 / 16) (sendRet u (fenceTok s 2 origin source d.seq d.target d.cls 0 0) s)) s

/-- FENCE_RELEASE. RELEASE reaches the new target, which unblocks the stream and tells its origin (R319). -/
def execFenceRelease (u : Fin 128) (s : State) : Host.Outcome State Fault Refusal :=
  runClk (fun s =>
    match fenceAt s u 2 with
    | none => s
    | some (m, l) =>
      let mine (b : Blocked) : Bool := b.u == u.val && b.origin == m.origin && b.source == m.source
      let s := s.setLane u l
      let s := { s with rq := { s.rq with blocked := s.rq.blocked.filter (!mine ·) } }
      askFills (u.val % 64 / 4) (sendMigrated m.origin m.source m.seq s)) s

/-- FENCE_MIGRATED. The origin ungates the stream and frees its slot (R319). -/
def execFenceMigrated (m : Msg) (s : State) : Host.Outcome State Fault Refusal :=
  runClk (onFence 3 m (freeSlots fun x => x.source == m.source)) s

-- the scrubber (R302)

/-- The kind code of a record in the payloads of R302. -/
def RecKind.code : RecKind → Nat
  | .event => 0 | .mirror => 1 | .custody => 2

/-- The kind of the record at an index: the replay records stand at the top; a free record has none. -/
def recKind (s : State) (i : Nat) : Option Nat :=
  if Config.firnRecords - Config.replayRecords ≤ i then some 3 else (s.recOf i).map (·.kind.code)

/-- The outcome of reading record i (R302). DESIGN CHOICE (log entry 54): the rows whose reads carry an outcome bring it. -/
def firnError (i : Nat) (ecc : Ecc) (s : State) : State :=
  match ecc, recKind s i with
  | .clean, _ => s
  | _, none => s
  | .corrected, some k =>
    let s := (((s.inc Reg.FIRN_ERR_CE).wr Reg.FIRN_ERRADDR_RECORD i).wr Reg.FIRN_ERRADDR_UE 0).raise Reg.FIRN_ERRADDR_VALID
    raiseInt 5123 (i + 2 ^ 14 * k) s
  | .uncorrectable, some k =>
    let s := (((s.inc Reg.FIRN_ERR_UE).wr Reg.FIRN_ERRADDR_RECORD i).wr Reg.FIRN_ERRADDR_UE 1).raise Reg.FIRN_ERRADDR_VALID
    let s := match s.recOf i with
      | some r => s.setRec i (some { r with poisoned := true })
      | none =>
        let j := i + Config.replayRecords - Config.firnRecords
        s.setPort (j / 256) { s.port (j / 256) with poisoned := BitVec.ofNat 8 j :: (s.port (j / 256)).poisoned }
    raiseInt 5124 (i + 2 ^ 14 * k) s

/-- FIRN_SCRUB. The scrubber reads its next record (R302). -/
def execFirnScrub (ecc : Ecc) (s : State) : Host.Outcome State Fault Refusal :=
  runClk (fun s =>
    if !s.flag Reg.FIRN_SCRUB_EN then s
    else
      let i := s.firn.scrub.toNat
      let s := firnError i ecc { s with firn := { s.firn with scrub := s.firn.scrub + 1 } }
      if i + 1 = Config.firnRecords then s.inc Reg.FIRN_SCRUB_PASSES else s) s

-- sequence locks (R321 to R323)

/-- The lock that a master holds. -/
def lockHeldBy (s : State) (mid : BitVec 4) : Option Nat :=
  (List.range 64).find? fun i => (s.lockOf i).held && (s.lockOf i).owner == mid

/-- The word that a read of LOCK[i] returns, with GOT as given (LOCK). -/
def lockWord (l : LockS) (got : Bool) : Nat :=
  l.owner.toNat + 2 ^ 4 * b2n l.held + 2 ^ 5 * b2n got + 2 ^ 6 * b2n l.broken + 2 ^ 7 * b2n l.ovf
    + 2 ^ 8 * l.set.length + 2 ^ 13 * l.bcause.toNat

/-- A read of LOCK[i] by a master: the word returned, and the state after it (R321). -/
def lockRead (i : Nat) (mid : BitVec 4) (dbg : Bool) (s : State) : Nat × State :=
  let l := s.lockOf i
  if l.held || dbg || (lockHeldBy s mid).isSome then (lockWord l false, s)
  else
    let new : LockS := { l with owner := mid, held := true, set := [], ovf := false, since := s.time.now }
    (lockWord new true, s.setLock i { new with broken := false })

/-- A lock is free again, its staging set gone (R321, R322). -/
def lockFree (i : Nat) (s : State) : State := s.setLock i { s.lockOf i with held := false, set := [], ovf := false }

/-- A release: the set enters the staged copy at once, or is discarded when it overflowed or a load holds one of its
words (R322, R344). -/
def lockRelease (i : Nat) (s : State) : State :=
  let l := s.lockOf i
  let hit := l.set.any fun w => holds .field s 0 (w.1 / 4)
  let s := lockFree i (if hit then s.raise Reg.LOAD_STATUS_COLL else s)
  if l.ovf || hit then s else s.each l.set fun w s => stageWord w.1 w.2.toNat s

/-- A break of lock i with a cause (R323). -/
def lockBreak (i cause : Nat) (s : State) : State :=
  let l := s.lockOf i
  if !l.held then s
  else
    let s := lockFree i s
    let s := s.setLock i { s.lockOf i with broken := true, bcause := BitVec.ofNat 2 cause }
    raiseInt 5127 (i + 64 * cause + 256 * l.owner.toNat) s

/-- A write by lock holder i that would go to the staged copy enters its set; none when it needs a seventeenth word
(R322). -/
def lockStage (i off : Nat) (w : Word) (s : State) : Option State :=
  let l := s.lockOf i
  if l.set.any (·.1 == off) then
    some (s.setLock i { l with set := l.set.map fun x => if x.1 == off then (off, w) else x })
  else if l.set.length < 16 then some (s.setLock i { l with set := l.set ++ [(off, w)] })
  else none

/-- LOCK_TIMEOUT. A lock has been held for longer than TMO (R323). -/
def execLockTimeout (i : Fin 64) (s : State) : Host.Outcome State Fault Refusal :=
  runClk (fun s =>
    let l := s.lockOf i
    let tmo := s.rd Reg.LOCK_CTRL_TMO
    if l.held && tmo != 0 && decide (l.since.toNat + 256 * tmo < s.t) then lockBreak i 1 s else s) s

/-- MASTER_FAULT. reg_mfault of a master takes a level; while it is 1 the master's locks are broken (R323, R521). -/
def execMasterFault (m : Fin 16) (level : Bool) (s : State) : Host.Outcome State Fault Refusal :=
  run (fun s =>
    let was := s.pins.mfault
    let now : BitVec 16 := if level then was ||| (1#16 <<< m.val) else was &&& ~~~(1#16 <<< m.val)
    let s := { s with pins := { s.pins with mfault := now } }
    if !level then s
    else s.each (List.range 64) fun i s => if (s.lockOf i).held && (s.lockOf i).owner.toNat == m.val then lockBreak i 0 s else s) s

end Sys2Proof.Machine
end

