-- ==== Sys2Proof/Machine/Time.lean ====
section
/-! DEFINITION. System time: sync exchanges, alignment, captures, epochs and the sleep make-up (R175 to R195, R208 to
R211). Time itself advances in Machine/Clock.lean. -/

namespace Sys2Proof.Machine

-- sync exchanges (R182 to R187)

/-- SYNCINT in ticks; a value of 0 acts as 1 (TIME_CTRL). -/
def syncInt (s : State) : Nat := 256 * max 1 (s.rd Reg.TIME_CTRL_SYNCINT)

/-- The port of the next exchange: UPPORT, or ALTPORT while UPPORT has gone down, out of UP or of IDENT, and ALTEN is 1 (R187,
R285). -/
def syncPort (s : State) : Option Nat :=
  let up := s.rd Reg.TIME_CTRL_UPPORT
  let alt := s.rd Reg.TIME_CTRL_ALTPORT
  if portUp s up then some up
  else if (s.port up).fell && s.flag Reg.TIME_CTRL_ALTEN && portUp s alt then some alt else none

/-- A sync exchange is due: the first since start-up or the wake, or an interval after the last began (R183, R211). -/
def syncDue (s : State) : Bool :=
  match s.time.lastStart with
  | none => true
  | some t => decide (t.toNat + syncInt s ≤ s.t)

/-- SYNC_INTERVAL. A die that is not the master has a sync request wait for its slot, which stamps it sub units into its cycle
(R183, R187, R265; log entry 20). -/
def execSyncInterval (sub : Fin 32) (s : State) : Host.Outcome State Fault Refusal :=
  runClk (fun s =>
    match syncPort s with
    | none => s
    | some p =>
      if s.isMaster || s.su.phase < 4 || !syncDue s then s
      else
        let s := { s with time := { s.time with
          waiting := tset false s.time.waiting p false, lastStart := some s.time.now } }
        queueCtl p (mkFrame 3 0 0) (s.setPort p { s.port p with sub1 := sub.val })) s

/-- SYNC_REQ. The upstream die stamps the request, and its answer waits for its slot, which stamps it sub3 units into its
cycle (R183, R253, R265; log entry 20). -/
def execSyncReq (p : Fin 4) (frame : LinkFrame) (sub2 sub3 : Fin 32) (s : State) : Host.Outcome State Fault Refusal :=
  runClk (fun s =>
    let frame := heard s p frame
    if frType frame ≠ 3 then s
    else rxFrame p frame (fun s =>
      queueCtl p (mkFrame 4 0 ((stamp16 s sub2.val).zeroExtend 128)) (s.setPort p { s.port p with sub3 := sub3.val })) id s) s

/-- Epochs passed over from E_k to a time, recomputed: E_k + m periods, with the epoch before it (R210, R211, R540). -/
def recomputeEpoch (s : State) : State :=
  if !s.su.open_ then s
  else
    let m := (s.t - s.time.sleptFrom.toNat) / periodInForce s
    let prev := if m = 0 then s.time.sleptPrev else s.time.sleptFrom + BitVec.ofNat 64 ((m - 1) * periodInForce s)
    let e : EpochS := { num := s.time.sleptNum + BitVec.ofNat 32 m, prev := prev
                        start := s.time.sleptFrom + BitVec.ofNat 64 (m * periodInForce s), short := none }
    ({ s with epoch := e } : State).wr Reg.THAW_STATUS_SKIPPED (min 255 m)

/-- ALOST is set, and source 5,146 raised once (R186). -/
def loseAlignment (missing : Bool) (s : State) : State :=
  if s.flag Reg.TIME_STAT_ALOST then s
  else
    let theta := sgn 16 (s.rd Reg.TIME_STAT_OFFSET)
    let exact := theta % 16 == 0
    let whole := theta / 16 + (if !exact && Config.wholeTicksUp s.fresh then 1 else 0)
    let s := if exact then s else { s with fresh := s.fresh + 1 }
    let byte := ofSgn 8 (max (-127) (min 127 whole))
    let s := s.raise Reg.TIME_STAT_ALOST
    sendFieldState (raiseInt 5146 (byte + 2 ^ 8 * s.rd Reg.TIME_STAT_PORT + 2 ^ 15 * b2n missing) s)

/-- The offset of an exchange in 1/16 tick; the half unit of an odd difference is free (R183). -/
def syncOffset (t1 t2 t3 t4 : BitVec 64) (s : State) : Int × State :=
  let d := sgn 64 (t2 - t1).toNat - sgn 64 (t4 - t3).toNat
  if d % 2 = 0 then (d / 2, s)
  else (d / 2 + (if Config.thetaRoundsUp s.fresh then 1 else 0), { s with fresh := s.fresh + 1 })

/-- A stamp as far back in a count stepped by d ticks as it was before. -/
def shiftTick (d : Int) (t : Tick) : Tick := BitVec.ofInt 64 (max 0 ((t.toNat : Int) + d))

/-- The count is stepped by an offset, and with it what the die's own time is measured from: its exchanges, trims and phase LINK.
What is less than a tick is left to the slew (R183, R184). -/
def stepTime (theta : Int) (s : State) : State :=
  let x := (16 * (s.t : Int) + theta)
  let d := x / 16 - s.t
  { s with
    time := { s.time with
      now := BitVec.ofInt 64 (x / 16), slew := x % 16, lastStart := s.time.lastStart.map (shiftTick d)
      lastTrim := shiftTick d s.time.lastTrim, lastBar := shiftTick d s.time.lastBar }
    su := { s.su with linkFrom := shiftTick d s.su.linkFrom } }

/-- SYNC_RSP. The die steps its time at its first exchange before thaw 0 and at a wake sync, and otherwise slews (R184,
R186, R211). -/
def execSyncRsp (p : Fin 4) (frame : LinkFrame) (sub4 : Fin 32) (s : State) : Host.Outcome State Fault Refusal :=
  runClk (fun s =>
    let frame := heard s p frame
    if frType frame ≠ 4 then s
    else rxFrame p frame (fun s =>
      if !tget false s.time.waiting p then s
      else
        let t1 := tget 0 s.time.t1 p
        let t2 := (frMsg frame).extractLsb' 0 64
        let t3 := (frMsg frame).extractLsb' 64 64
        let (theta, s) := syncOffset t1 t2 t3 (stamp16 s sub4.val) s
        let first := !s.time.exchanged && !s.su.open_
        let wake := s.time.wakeSync
        let rate := Config.timeRate s.fresh
        let time := { s.time with waiting := tset false s.time.waiting p false, exchanged := true, wakeSync := false
                                  wakeHold := false, slew := theta, rateAcc := 0 }
        let s := { s with time := time, fresh := s.fresh + 1 }
        let s := s.wr Reg.TIME_RATE_RATE rate.toNat
        let sat := max (-2 ^ 15) (min (2 ^ 15 - 1) theta)
        let s := (s.wr Reg.TIME_STAT_OFFSET (ofSgn 16 sat)).wr Reg.TIME_STAT_PORT p
        let s := if first || wake then stepTime theta s else s
        let s := if wake then recomputeEpoch (s.raise Reg.TIME_STAT_STEPPED) else s
        let s := { s with time := { s.time with lastDone := s.time.now } }
        let limit : Int := 16 * max 1 (s.rd Reg.TIME_CTRL_ALIMIT)
        if limit < theta ∨ theta < -limit then loseAlignment false s
        else if s.flag Reg.TIME_STAT_ALOST then sendFieldState (s.wr Reg.TIME_STAT_ALOST 0)
        else s) id s) s

/-- No exchange has completed for 256 sync intervals (R186). -/
def exchangeMissing (s : State) : Bool :=
  let from_ := max s.time.lastDone.toNat s.su.linkFrom.toNat
  !s.isMaster && decide (4 ≤ s.su.phase) && decide (from_ + 256 * syncInt s ≤ s.t)

/-- A wake that waits for its wake sync no longer waits: thaws run on the made-up time (R211). -/
def endWakeHold (s : State) : State :=
  if s.time.wakeHold then recomputeEpoch { s with time := { s.time with wakeHold := false } } else s

/-- The first exchange of a start-up has not completed in time (R469). -/
def noFirstSync (s : State) : State := loseAlignment true (s.raise Reg.SU_STAT_SYNCTMO)

/-- ALIGNMENT_TIMEOUT. ALOST is set, with SYNCTMO where start-up has had no exchange; after a wake the die runs its thaws on
the made-up time (R186, R211, R469). -/
def execAlignmentTimeout (s : State) : Host.Outcome State Fault Refusal :=
  runClk (fun s =>
    if exchangeMissing s then
      let s := endWakeHold s
      if s.time.exchanged then loseAlignment true s else noFirstSync s
    else s) s

-- captures (R189 to R192)

/-- A capture is written at the end of the cycle in which its second stage samples: the first rising edge at least 2
ticks after its stamp (R43, R189). -/
def captureDue (s : State) (stamp : Tick) : Bool := decide ((stamp.toNat + 3) / 2 * 2 + 2 ≤ s.t)

/-- A capture is written, or is an overrun (R189, R191, R192). -/
def captureWrite (i : Nat) (stamp : Tick) (s : State) : State :=
  let new := s.rd Reg.CAP_STAT_NEW
  let ovr := s.rd Reg.CAP_STAT_OVR
  if bit new i then
    if bit ovr i then s else raiseInt 5145 i (s.wr Reg.CAP_STAT_OVR (ovr ||| 2 ^ i))
  else
    ({ s with time := { s.time with captures := tset 0 s.time.captures i stamp } } : State).wr Reg.CAP_STAT_NEW (new ||| 2 ^ i)

/-- The captures whose second-stage cycle has ended are written (R189, R191). -/
def endCaptures (s : State) : State :=
  let due := s.time.capPend.filter fun c => captureDue s c.2
  let s := { s with time := { s.time with capPend := s.time.capPend.filter fun c => !captureDue s c.2 } }
  s.each due fun c s => captureWrite c.1 c.2 s

/-- CAPTURE. A capture input takes a level for at least width ticks: its edge, at an even or odd tick, is stamped, and written at
the end of its second-stage cycle. The end of a pulse that was missed is no edge (R44, R189, R191). -/
def execCapture (i : Fin 16) (rising : Bool) (odd : Bool) (width : Nat) (s : State) : Host.Outcome State Fault Refusal :=
  run (fun s =>
    let seen := pulseSeen width s
    let s := if width < 3 then { s with fresh := s.fresh + 1 } else s
    let sel := if bit (s.rd Reg.CAP_CTRL_EDGE) i then !rising else rising
    if !seen || tget false s.pins.capIn i == rising then s
    else
      let s := { s with pins := { s.pins with capIn := tset false s.pins.capIn i rising } }
      if !clocked s || !sel || !bit (s.rd Reg.CAP_CTRL_EN) i then s
      else { s with time := { s.time with capPend := s.time.capPend ++ [(i.val, s.time.now + BitVec.ofNat 64 (b2n odd))] } }) s

-- epochs (R193, R195)

/-- EPOCH_COUNT, the ticks since E_k: it stands in the always-on island, and counts on through a start-up from an epoch that the
die has had (R212, R539). -/
def epochCount (s : State) : Nat := if s.su.open_ || s.epoch.start != 0 then (s.time.now - s.epoch.start).toNat else 0

/-- EPOCH_PERIOD has been written: a period that the count of the next cycle has reached cuts the epoch short, once, but for
a thaw that begins in the cycle of the write (R195). DEDUCED (log entry 49): so does one written in the epoch's last cycle, since
R193 compares with the period in force. -/
def periodWritten (old s : State) : State :=
  if thawDue old then { s with epoch := { s.epoch with short := some (BitVec.ofNat 64 (nextThaw old)) } }
  else if !s.su.open_ || s.epoch.short.isSome || epochCount s + 2 < periodInForce s then s
  else
    let s := { s with epoch := { s.epoch with short := some (s.time.now + 4) } }
    raiseInt 5144 (s.epoch.num.toNat % 2 ^ 16) (s.raise Reg.THAW_STATUS_SHORT_EPOCH)

-- deep sleep (R208 to R211, R459, R460)

/-- A write of SLEEP_CTRL.GO is taken (R459). -/
def sleepOk (s : State) : Bool :=
  (List.range 22).all (fun d => s.dom d == 0) && s.img.load.st == .idle && s.lock.all (fun e => !e.2.held)
    && s.time.sleep == .awake

/-- SLEEP_ENTRY_EDGE. At a slow-clock edge the die records T_a and E_k, stops its islands and raises pwr_sleep (R208,
R210, R459). -/
def execSleepEntryEdge (s : State) : Host.Outcome State Fault Refusal :=
  run (fun s =>
    if s.time.sleep != .entering then s
    else { s with time := { s.time with
      sleep := .asleep, pwrSleep := true, tA := s.time.now, sleptFrom := s.epoch.start, sleptNum := s.epoch.num
      sleptPrev := s.epoch.prev, units := [], capPend := [] } }) s

/-- PWR_WAKE. A rising edge of pwr_wake ends deep sleep once the reference clock runs and tclk is locked (R460). -/
def execPwrWake (s : State) : Host.Outcome State Fault Refusal :=
  run (fun s => if s.time.sleep == .asleep then { s with time := { s.time with sleep := .waking } } else s) s

/-- The made-up time after N slow-clock edges (R209). -/
def makeupTime (tA : Nat) (n : Nat) : Nat := (16 * tA + n * 1953125) / 32 * 2

/-- SLEEP_MAKEUP. At a slow-clock edge after the wake, time and epochs are made up, pwr_sleep falls, the islands run and
the domains with SLPWAKE are requested (R209 to R211, R460). -/
def execSleepMakeup (edges : Word) (s : State) : Host.Outcome State Fault Refusal :=
  run (fun s =>
    if s.time.sleep != .waking then s
    else
      let now := BitVec.ofNat 64 (makeupTime s.time.tA.toNat edges.toNat)
      let time := { s.time with now := now, sleep := .awake, pwrSleep := false, wakeSync := !s.isMaster
                                wakeHold := !s.isMaster, lastStart := none, lastDone := now, waiting := [], units := [] }
      let s := recomputeEpoch { s with time := time }
      let s := (s.wr Reg.TIME_MAKEUP_N edges.toNat).raise Reg.TIME_STAT_COARSE
      serveEdw (s.each ((List.range 24).filter fun d => s.flag (Reg.PWR_CFG_SLPWAKE d)) wakeSys)) s

end Sys2Proof.Machine
end

