-- ==== Sys2Proof/Machine/Power.lean ====
section
/-! DEFINITION. Power domains, the wake budget, resets and start-up up to thaw 0, of the field instance and of the host
gate (R450 to R477). -/

namespace Sys2Proof.Machine

-- registers and resets (R489, R539)

/-- The RW fields of R330, which a soft instance reset keeps beside the WS fields. -/
def bootOnly (id : RegId) : Bool :=
  [RegId.EPOCH_PERIOD, .THAW0_LO, .THAW0_HI, .LNK_CTRL, .CAP_CTRL, .RIME_CTRL].contains id

/-- The fields that hit selects, by their row, first index and access code, take their Reset column. -/
def resetRegs (hit : RegRow → Nat → AccCode → Bool) (s : State) : State :=
  let stays (e : Nat × Nat) : Bool :=
    match findReg (e.1 / 32) with
    | some (r, i, _) => match r.flds.find? (·.lo == e.1 % 32) with
      | some f => !hit r i f.acc
      | none => true
    | none => true
  { s with regs := s.regs.filter stays }

/-- The word lies in the island of cluster k, of region r, or of the port. -/
def inCluster (k : Nat) (r : RegRow) (i : Nat) (_ : AccCode) : Bool := match r.isl with | .cluster d => i / d == k | _ => false
def inRegion (g : Nat) (r : RegRow) (i : Nat) (_ : AccCode) : Bool := match r.isl with | .region d => i / d == g | _ => false
def inLink (p : Nat) (r : RegRow) (i : Nat) (_ : AccCode) : Bool := r.isl == .link && i == p

/-- The words that a soft instance reset returns to their reset values, and with die those of a die reset; DBGOFF holds
until the next die reset, and IMG_ID belongs to the configuration that a soft one keeps (R461, R489, R493). -/
def inInstance (die : Bool) (r : RegRow) (_ : Nat) (a : AccCode) : Bool :=
  decide (r.base < 0x100000) && match r.isl with
    | .xbar => die || !(a == .ws || a == .w1 || (a == .rw && bootOnly r.id) || r.id == .IMG_ID_LO || r.id == .IMG_ID_HI)
    | .region _ | .cluster _ | .link => true
    | _ => false

-- the places a domain or reset takes with it

/-- The Campions, by logical index, that cluster k powers (R138). -/
def campsOf (s : State) (k : Nat) : List Nat := ((List.range 16).map (16 * (k / 4) + ·)).filter fun n => campDom s n == k

/-- Unit u lies in cluster k. -/
def inScopeCluster (s : State) (k u : Nat) : Bool := if u < 64 then u / 4 == k else decide (u < 128) && campDom s (u - 64) == k

/-- A reset of a sending island discards the completions that its units have sent and that still cross (R37, R304). -/
def dropDones (inScope : Nat → Bool) (f : FirnS) : FirnS :=
  { f with dones := f.dones.filter fun m => !inScope (destLane m.dest) }

/-- The contents of cluster k are lost: pending sets, vector cache, core interfaces, write channels, and the runs and
queues of its Campions (R144, R169). -/
def loseCluster (k : Nat) (s : State) : State :=
  let s := s.each (List.range 4) fun j s => s.setCore (4 * k + j) { halt := (s.coreOf (4 * k + j)).halt }
  let s := s.setClus k {}
  let s := s.each (campsOf s k) fun n s => let s := discardRun n s; s.setCamp n { s.campOf n with q := [] }
  let mine (w : Writer) : Bool := match w with | .core n => n.val / 4 == k | _ => false
  let acc := { s.acc with writes := s.acc.writes.filter (!mine ·.writer), remoteWait := s.acc.remoteWait.filter (!mine ·.writer) }
  let s := { s with acc := acc, firn := dropDones (fun u => decide (u < 64) && u / 4 == k) s.firn
                    time := { s.time with units := tset false s.time.units (5 + k) false } }
  let s := s.setArb k { s.arbOf k with scope := true }
  resetRegs (inCluster k) s

/-- The spare that CAMP_RCTRL configures (R140, R141). -/
def configuredSpare (s : State) (r : Nat) : Option Nat :=
  if s.flag (Reg.CAMP_RCTRL_SPEN r) then some (s.rd (Reg.CAMP_RCTRL_SPLOCAL r)) else none

/-- The contents of region r are lost: lanes, crossings toward its clusters, bursts, failures, takeovers, predictors and
delivery ports (R140, R144, R245). With a burst cut, act_flush is asserted; a power-off holds it (R140, R516). -/
def loseRegion (r : Nat) (off : Bool) (s : State) : State :=
  let ks := (List.range 4).map (4 * r + ·)
  let cut := !(s.segOf r).bursts.isEmpty
  let s := s.each ks fun k s => (s.setToClus k []).setArb k { scope := true }
  let s := s.each (List.range 16) fun j s =>
    let n := 16 * r + j
    let s := ((discardRun n s).setLane n []).setLane (64 + n) []
    ((s.setCamp n {}).setPred n 0 {}).setPred n 1 {}
  let s := s.setSeg r { spare := configuredSpare s r, flush := off }
  let s := if cut || off then s.emit (.act r 0 0 false false false false true) else s
  let xb := { s.xb with retHold := tset [] s.xb.retHold r [] }
  let s := { s with xb := xb, firn := dropDones (fun u => u % 64 / 16 == r) s.firn, time := { s.time with units := tset false s.time.units (1 + r) false } }
  resetRegs (inRegion r) s

/-- The custody records of cluster k or region r are restored (R310). -/
def restoreCluster (k : Nat) (s : State) : State := restoreScope (inScopeCluster s k) s
def restoreRegion (r : Nat) (s : State) : State := restoreScope (fun u => decide (u < 128) && u % 64 / 16 == r) s

-- domains going off (R454, R531)

/-- The messages that wait for a unit of this die in the crossbar, a crossing or a lane, with their lane (R541). -/
def waiting (s : State) : List (Nat × Msg) :=
  let x := (xbEntries s).flatMap fun e => e.owed.filterMap fun d => match d.2 with
    | .out o => if o < 16 then some (destLane d.1, e.msg) else none
    | _ => none
  let c := s.rq.crossing.flatMap fun c => c.2.map fun m => (m.u, m.msg)
  let l := s.rq.lanes.flatMap fun l => l.2.map fun m => (l.1, m)
  let k := s.rq.toClus.flatMap fun c => c.2
  x ++ c ++ l ++ k

/-- The messages that wait raise their wake requests again (R455, R541). -/
def rewake (s : State) : State := s.each (waiting s) fun x s => wakeFor x.1 x.2 s

/-- Domain d is down: its pwr_good counts no more, and its wake tokens return (R457). -/
def returnTokens (d : Nat) (s : State) : State :=
  { s with pwr := { s.pwr with good := tset false s.pwr.good d false, tokens := tset (0, false) s.pwr.tokens d (0, false) } }

/-- Domain d loses its contents and takes a state, OFF or FAIL. The lanes of a region that is ON take the restored copies
of a cluster at once, and there they wait for its domain (R310, R455; log entry 21). -/
def dropDomain (d state : Nat) (s : State) : State :=
  let s := returnTokens d (s.setDom d state)
  if d < 16 then
    let s := loseCluster d s
    rewake (if s.on (16 + d / 4) then restoreCluster d s else s)
  else if d < 20 then
    let r := d - 16
    let s := s.each ((List.range 4).map (4 * r + ·)) fun k s =>
      if s.dom k = 0 ∨ s.dom k = 3 then s else loseCluster k (returnTokens k (s.setDom k 0))
    rewake (loseRegion r true s)
  else if d < 22 then
    s.each [2 * (d - 20), 2 * (d - 20) + 1] fun p s => resetRegs (inLink p) (lnkDomainOff p s)
  else if d = 23 then edwOff s
  else s

/-- PWR_REQ on the field instance: the result code and the effect (R454). -/
def pwrRequest (d : Nat) (on : Bool) (s : State) : State :=
  let answer (res : Nat) (s : State) : State :=
    ((s.wr Reg.PWR_RES_RES res).wr Reg.PWR_RES_DOMAIN d).raise Reg.PWR_RES_VALID
  if 23 < d then answer 5 s
  else if on then answer 0 (if s.dom d = 0 ∨ s.dom d = 3 then wake d 1 true s else s)
  else if d = 22 then answer 1 s
  else if s.dom d = 0 ∨ s.dom d = 3 then answer 0 s
  else if 16 ≤ d ∧ d < 20 ∧ ((List.range 4).any fun j => s.dom (4 * (d - 16) + j) != 0) = true then answer 2 s
  else if d = 23 ∧ s.edw.sealed_ = true then answer 3 s
  else if s.dom d = 1 then answer 4 s
  else answer 0 (dropDomain d 0 s)

-- the wake budget (R456 to R458)

/-- A word of WB_CTRL or WB_COST in force: its reset value before thaw 0 (R458). -/
def wbField (f : Fld) (s : State) : Nat := if s.su.open_ then s.rd f else f.rst
def budget (s : State) : Nat := max 1 (wbField Reg.WB_CTRL_BUDGET s)
/-- The cost of a domain in force. -/
def domCost (d : Nat) (s : State) : Nat :=
  let f := if d < 16 then Reg.WB_COST_CLUSTER else if d < 20 then Reg.WB_COST_REGION
    else if d = 20 then Reg.WB_COST_SHORT else if d = 21 then Reg.WB_COST_LONG else Reg.WB_COST_EDW
  min (budget s) (max 1 (wbField f s))

/-- Tokens held, and those held by warms (WB_STAT). -/
def tokensUsed (s : State) : Nat := (s.pwr.tokens.map (·.2.1)).sum
def tokensWarm (s : State) : Nat := (s.pwr.tokens.map fun e => if e.2.2 then e.2.1 else 0).sum

/-- The arbiter considers a request: its domain is down, AUTOWAKE or software lets it, and the region of a cluster is ON
(R451, R452, R455). -/
def wakeReady (s : State) (q : WakeReq) : Bool :=
  (s.dom q.d == 0 || (s.dom q.d == 3 && q.sw)) && (q.sw || s.flag (Reg.PWR_CFG_AUTOWAKE q.d))
    && (decide (16 ≤ q.d) || s.on (16 + q.d / 4))

/-- The order of grants (R456). -/
def wakeBefore (a b : WakeReq) : Bool :=
  decide (a.cls < b.cls) || (a.cls == b.cls && (decide (a.age < b.age) || (a.age == b.age && decide (a.d < b.d))))
def firstWake (s : State) : Option WakeReq := best wakeBefore (s.pwr.reqs.filter (wakeReady s))

/-- The first request finds its tokens (R457). -/
def wakeFits (s : State) (q : WakeReq) : Bool :=
  let c := domCost q.d s
  decide (tokensUsed s + c ≤ budget s) && (q.cls != 2 || decide (tokensWarm s + c ≤ wbField Reg.WB_CTRL_PWLIM s))

/-- While the first request waits for tokens, it and those behind it count as delayed, each once (WB_CNT). -/
def noteDelayed (s : State) : State :=
  match firstWake s with
  | none => s
  | some q =>
    if wakeFits s q then s
    else
      let ds := ((s.pwr.reqs.filter (wakeReady s)).map (·.d)).filter fun d => !s.pwr.delayed.contains d
      ({ s with pwr := { s.pwr with delayed := s.pwr.delayed ++ ds } } : State).inc Reg.WB_CNT_DELAYED ds.length

/-- The host gate's domain 3 finds its request granted (R474). -/
def hostGrant (s : State) : State :=
  if s.gate.pwrReq && (s.gate.pwrE == 0 || s.gate.pwrE == 3) then
    ({ s with gate := { s.gate with pwrReq := false, pwrE := 1, pwrGood := false, pwrSince := s.gate.clk } } : State).inc
      Reg.H_WB_CNT_GRANTS
  else s

/-- WAKE_GRANT. The first request takes its tokens, and pwr_en rises (R456, R457). -/
def execWakeGrant (side : Side) (s : State) : Host.Outcome State Fault Refusal :=
  run (fun s => match side with
    | .host => hostGrant s
    | .field =>
      if !clocked s then s
      else
        let s := noteDelayed s
        match firstWake s with
        | none => s
        | some q =>
          if !wakeFits s q then s
          else
            let p := s.pwr
            let p := { p with
              reqs := p.reqs.filter (·.d != q.d), delayed := p.delayed.filter (· != q.d), since := tset 0 p.since q.d s.time.now
              good := tset false p.good q.d false, tokens := tset (0, false) p.tokens q.d (domCost q.d s, q.cls == 2) }
            noteDelayed ((({ s with pwr := p } : State).setDom q.d 1).inc Reg.WB_CNT_GRANTS)) s

/-- The ramp limit of a domain in ticks (R450). -/
def rampLimit (d : Nat) : Nat :=
  if d < 16 then 240 else if d < 20 then 120 else if d = 20 then 400 else if d = 21 then 1200 else 200

/-- PWR_GOOD_RISE. pwr_good rises in a ramping domain, whose tokens return (R457). -/
def execPwrGoodRise (side : Side) (d : Fin 24) (s : State) : Host.Outcome State Fault Refusal :=
  run (fun s => match side with
    | .host => if d.val = 3 ∧ s.gate.pwrE = 1 then { s with gate := { s.gate with pwrGood := true } } else s
    | .field =>
      if s.dom d = 1 ∧ d.val ≠ 22 then
        let p := { s.pwr with good := tset false s.pwr.good d true, tokens := tset (0, false) s.pwr.tokens d (0, false) }
        { s with pwr := p }
      else s) s

/-- A reset of cluster k or region r takes effect, or waits for a WAKING domain (R461, R464). -/
def resetCluster (k : Nat) (s : State) : State :=
  match s.dom k with
  | 2 => restoreCluster k (loseCluster k s)
  | 1 => { s with pwr := { s.pwr with resets := s.pwr.resets ++ [k] } }
  | _ => s
def resetRegion (r : Nat) (s : State) : State :=
  match s.dom (16 + r) with
  | 2 =>
    let s := s.each ((List.range 4).map (4 * r + ·)) fun k s => match s.dom k with
      | 2 => loseCluster k s
      | 1 => { s with pwr := { s.pwr with resets := s.pwr.resets ++ [k] } }
      | _ => s
    restoreRegion r (loseRegion r false s)
  | 1 => { s with pwr := { s.pwr with resets := s.pwr.resets ++ [16 + r] } }
  | _ => s

/-- What follows in the fabric when domain d reaches ON: restores, descriptor fetches, training, the seal scan (R161,
R261, R310, R439, R472). -/
def domainOn (d : Nat) (s : State) : State :=
  if d < 16 then
    let s := s.setArb d { s.arbOf d with scope := true }
    askFills d (restoreCluster d s)
  else if d < 20 then
    let r := d - 16
    let s := s.setSeg r { s.segOf r with flush := false }
    restoreRegion r s
  else if d < 22 then s.each [2 * (d - 20), 2 * (d - 20) + 1] tryDetect
  else if d = 23 then edwOn s
  else s

/-- DOMAIN_RELEASE_END. Isolation and domain reset are released and the domain is ON. A reset that waited for it takes
effect: one of the instance switches it off again (R450, R464). -/
def execDomainReleaseEnd (side : Side) (d : Fin 24) (s : State) : Host.Outcome State Fault Refusal :=
  run (fun s => match side with
    | .host => if d.val = 3 ∧ s.gate.pwrE = 1 ∧ s.gate.pwrGood = true then { s with gate := { s.gate with pwrE := 2 } } else s
    | .field =>
      if s.dom d ≠ 1 ∨ tget false s.pwr.good d = false then s
      else
        let off := s.pwr.resets.contains (32 + d.val)
        let s := { s with pwr := { s.pwr with resets := s.pwr.resets.filter fun x => x != d.val && x != 32 + d.val } }
        let s := s.setDom d 2
        if off then
          let s := dropDomain d 0 s
          if s.su.phase = 3 then wakeSys d s else s
        else domainOn d s) s

/-- The loader waits for no restore of R439. A cold start brings the Edelweiss domain up first, unless it enters FAIL; after
a die reset only a domain whose slots are being read holds the loader, and one that is held off does not (R427, R439,
R468). -/
def edwDone (s : State) : Bool :=
  if s.rd Reg.SU_STAT_START < 3 then (s.on 23 && !s.edw.scan) || s.dom 23 == 3 else !(s.on 23 && s.edw.scan)

/-- The boot load begins once the loader may read flash (R359, R439, R468). -/
def tryBoot (s : State) : State :=
  if s.su.phase = 3 ∧ s.su.booted = false ∧ edwDone s = true then
    startBoot { s with su := { s.su with booted := true } }
  else s

/-- DOMAIN_RAMP_FAIL. pwr_good has not risen within 4 × the ramp limit: FAIL, and the tokens return (R451, R457). -/
def execDomainRampFail (side : Side) (d : Fin 24) (s : State) : Host.Outcome State Fault Refusal :=
  run (fun s => match side with
    | .host =>
      if d.val = 3 ∧ s.gate.pwrE = 1 ∧ s.gate.pwrGood = false ∧ s.gate.pwrSince.toNat + 800 ≤ s.gate.clk.toNat then
        { s with gate := { s.gate with pwrE := 3 } }
      else s
    | .field =>
      if s.dom d ≠ 1 ∨ tget false s.pwr.good d = true ∨ s.t < (tget 0 s.pwr.since d).toNat + 4 * rampLimit d then s
      else
        let s := { s with pwr := { s.pwr with
          tokens := tset (0, false) s.pwr.tokens d (0, false), resets := s.pwr.resets.filter fun x => x != d.val && x != 32 + d.val } }
        tryBoot (s.setDom d 3)) s

/-- The host gate's Edelweiss domain loses its contents (R474). -/
def hostEdwDrop (state : BitVec 2) (s : State) : State :=
  let gate := { s.gate with pwrE := state, pwrGood := false, mirror := [], sealSeen := false }
  { s with gate := gate, regs := s.regs.filter fun e => !(decide (32 * 0x121000 ≤ e.1) && decide (e.1 < 32 * 0x122000)) }

/-- PWR_GOOD_FALL. pwr_good falls: a domain that is ON enters FAIL and its contents are lost; one still in its release
waits for it again (R531). -/
def execPwrGoodFall (side : Side) (d : Fin 24) (s : State) : Host.Outcome State Fault Refusal :=
  run (fun s => match side with
    | .host =>
      if d.val ≠ 3 then s
      else if s.gate.pwrE = 2 then hostEdwDrop 3 s
      else { s with gate := { s.gate with pwrGood := false } }
    | .field =>
      if d.val = 22 then s
      else if s.dom d = 2 then dropDomain d 3 s
      else { s with pwr := { s.pwr with good := tset false s.pwr.good d false } }) s

/-- PWR_REQ on the host gate: only domain 3 is switched (R454, R474). -/
def hostPwrRequest (d : Nat) (on : Bool) (s : State) : State :=
  let answer (res : Nat) (s : State) : State :=
    ((s.wr Reg.H_PWR_RES_RES res).wr Reg.H_PWR_RES_DOMAIN d).raise Reg.H_PWR_RES_VALID
  if 3 < d then answer 5 s
  else if d < 3 then answer (if on then 0 else 1) s
  else if on then
    answer 0 (if s.gate.pwrE = 0 ∨ s.gate.pwrE = 3 then { s with gate := { s.gate with pwrReq := true } } else s)
  else if s.gate.pwrE = 1 then answer 4 s
  else if s.gate.pwrE = 2 then answer 0 (hostEdwDrop 0 s)
  else answer 0 s

-- resets of a cluster and of a region

/-- RST_CLUSTER. RST_REQ KIND 2 (R169, R461). -/
def execRstCluster (k : Fin 16) (s : State) : Host.Outcome State Fault Refusal :=
  runClk (fun s => resetCluster k (noteReset 2 k s)) s

/-- RST_REGION. RST_REQ KIND 3 (R140, R245, R461). -/
def execRstRegion (r : Fin 4) (s : State) : Host.Outcome State Fault Refusal :=
  runClk (fun s => resetRegion r (noteReset 3 r s)) s

-- resets of the instance (R461, R466, R467)

/-- Events whose offers a reset cuts: a record already written stands, with the completions it has taken (R82, R105). -/
def cutOffers (s : State) : State :=
  let offers := s.acc.offers
  let s := { s with acc := { counters := s.acc.counters } }
  s.each offers fun o s => match o.idx with
    | some k => match s.recOf k with
      | some r =>
        let s := s.setRec k (some { r with accepted := true, since := s.time.now })
        s.each o.early fun e s => applyDone o.msg e.1 e.2 s
      | none => s
    | none => s

/-- The host-bound records that stand in Firn form the queues of field die 0 again, to be sent anew (R385). -/
def rebuildHostQ (s : State) : State :=
  let rs := bySeq (firnAll s fun r => r.kind == .custody && r.place == 128 && !r.done)
  { s with hostq := { queue := bySlice s (rs.map (·.1)), live := rs.map (·.1) } }

/-- Domains 0 to 21 go OFF; a WAKING one does so when it reaches ON. Their requests are cancelled (R461, R464). -/
def domainsOff (s : State) : State :=
  let waking := (List.range 22).filter fun d => s.dom d == 1
  let low (d : Nat) : Bool := decide (d < 22) && !waking.contains d
  let p := s.pwr
  let p := { p with
    st := p.st.filter fun e => !low e.1, good := p.good.filter fun e => !low e.1, tokens := p.tokens.filter fun e => !low e.1
    reqs := p.reqs.filter fun q => decide (22 ≤ q.d), delayed := p.delayed.filter fun d => decide (22 ≤ d)
    resets := waking.map (32 + ·) }
  { s with pwr := p }

/-- A word that masters latch lies in an island that an instance reset does not reach (R489). -/
def keepsLatch (off : Nat) : Bool :=
  match findReg off with
  | some (r, _, _) => r.isl == .aon || r.isl == .edw
  | none => false

/-- The effect of a soft instance reset, and with die that of a die reset, on everything but start-up's own state (R246,
R292, R461, R466, R489, R506). A persist cut after its erase began has ended (R365, R466). DESIGN CHOICE (log entry 65): a
reset in deep sleep wakes the die at T_a, with no time made up. -/
def resetInstance (die : Bool) (s : State) : State :=
  let bursts := (List.range 4).filter fun r => !(s.segOf r).bursts.isEmpty
  let s := s.each bursts fun r s => s.emit (.act r 0 0 false false false false true)
  let s := cutOffers (domainsOff (restoreHeld .field s))
  let s := if persistCut s.img.load then stampPersist s else s
  let img := s.img
  let img := if die then
      { img with active := [], half := [], copies := [], load := {}, dtPhase := 0, dtRegion := 0, dtHold := false }
    else
      let img := (s.each img.copies copyBack).img
      { img with load := {}, dtPhase := 0, dtRegion := 0, dtHold := false }
  let yar : YarS := if die then {} else { words := s.yar.words }
  let rime : RimeS := if die then {} else { ref := s.rime.ref }
  let time := { s.time with
    latch := s.time.latch.filter fun e => keepsLatch (e.1 / 16), units := [], captures := [], capPend := [], t1 := [], waiting := [], exchanged := false, wakeSync := false
    wakeHold := false, lastStart := none, slew := 0, rateAcc := 0, barT1 := none, barStep := true, sleep := .awake, pwrSleep := false }
  let halts := s.core.filterMap fun e => if e.2.halt then some (e.1, ({ halt := true } : CoreS)) else none
  let firn := { s.firn with writes := [], dones := [] }
  let src := { s.src with latch := [] }
  let s := { s with
    staged := [], time := time, src := src, yar := yar, firn := firn, xb := {}, rq := {}, core := halts, pred := [], clus := []
    camp := [], seg := [], audit := {}, rec_ := { owed := true }, img := img, rime := rime, bar := {}, trc := {}, tst := {} }
  let s := { s with arb := s.arb.filter fun e => decide (21 ≤ e.1) }
  let s := s.each [0, 1, 2, 3] resetPort
  let s := if die then { s with once := s.once.filter fun e => decide (0x100000 ≤ e.1) } else s
  let s := rebuildHostQ (resetRegs (inInstance die) s)
  let s := s.each (List.range 4) fun r s => s.setSeg r { spare := configuredSpare s r }
  s.each (List.range 64) fun i s => lockBreak i 0 s

/-- The self-test of R513 is armed. -/
def bistArmed (s : State) : Bool := s.flag Reg.FIRN_BIST_ARM && s.pins.testEn

/-- Start-up begins anew from phase FIRN (R468). -/
def startFrom (cause : Nat) (soft : Bool) (s : State) : State :=
  let su : SuS := { phase := 1, cold := false, soft := soft, bist := bistArmed s, gens := s.su.gens + 1 }
  ({ s with su := su } : State).wr Reg.SU_STAT_START cause |>.raise Reg.SU_STAT_FIRNKEPT

/-- RST_SOFT_INSTANCE. RST_REQ KIND 4 (R461). -/
def execRstSoftInstance (s : State) : Host.Outcome State Fault Refusal :=
  runClk (fun s => startFrom 4 true (resetInstance false (noteReset 4 0 s))) s

/-- A die reset that stays asserted (R461, R519). -/
def dieReset (cause : Nat) (s : State) : State :=
  let s := startFrom cause false (resetInstance true s)
  { s with su := { s.su with hold := true, holdPhase := 1 } }

/-- RST_DIE. rst_die_n is asserted; without effect while a wider reset is, that of rdp_erase included (R461, R463). -/
def execRstDie (s : State) : Host.Outcome State Fault Refusal :=
  run (fun s => if s.su.phase = 0 || s.pins.rdpErase then s else dieReset 3 s) s

/-- RDP_ERASE. rdp_erase is asserted: a die reset is held, flash loses its blocks, markers and seal records, and the
Edelweiss domain is reset (R364, R426, R444). In phase AON everything stands as after a wider reset, and start-up is held
there. What Firn has sent toward the Edelweiss island stays with it (R37). -/
def execRdpErase (level : BitVec 2) (s : State) : Host.Outcome State Fault Refusal :=
  run (fun s =>
    let s := { s with pins := { s.pins with rdpErase := true, rdpLevel := level } }
    let s := if s.su.phase = 0 then
        if s.su.hold then s else { s with su := { s.su with hold := true, holdPhase := 1 } }
      else edwReset (dieReset 5 s)
    let img := { s.img with flashA := [], flashB := [], torn := [], mark0 := [], mark1 := [] }
    { s with img := img, edw := { s.edw with sectors := [], sector := 0 } }) s

/-- Everything but flash, OTP and what the surroundings hold is as after power-on (R461). -/
def coldReset (cause : Nat) (s : State) : State :=
  let s := match s.edw.step with | .program _ => useSlot none s | _ => s
  let img : ImgS := { flashA := s.img.flashA, flashB := s.img.flashB, torn := s.img.torn, mark0 := s.img.mark0, mark1 := s.img.mark1
                      otp := s.img.otp }
  let edw : EdwS := { sectors := s.edw.sectors, sector := s.edw.sector }
  let su : SuS := { hold := true, gens := s.su.gens + 1 }
  let halts := s.core.filterMap fun e => if e.2.halt then some (e.1, ({ halt := true } : CoreS)) else none
  let src : SrcS := { levels := s.src.levels, bundles := s.src.bundles }
  let s' : State := { out := s.out, fresh := s.fresh, shape := s.shape, pins := s.pins, src := src
                      core := halts, img := img, edw := edw, su := su }
  (s'.wr Reg.SU_STAT_START cause).wr Reg.H_SU_STAT_START cause

/-- A system reset is held. -/
def sysHeld (s : State) : Bool := s.su.hold && s.su.phase == 0 && s.rd Reg.SU_STAT_START == 2

/-- RST_PACKAGE. rst_pkg_n is asserted: every die of the package and the host gate; without effect while a system reset is
(R461, R463). -/
def execRstPackage (s : State) : Host.Outcome State Fault Refusal := run (fun s => if sysHeld s then s else coldReset 1 s) s
/-- RST_SYSTEM. rst_sys_n is asserted: as a package reset (R461). -/
def execRstSystem (s : State) : Host.Outcome State Fault Refusal := run (coldReset 2) s
/-- POWER_ON. Power returns: as a package reset (R461). -/
def execPowerOn (s : State) : Host.Outcome State Fault Refusal := run (coldReset 0) s

/-- RESET_RELEASE. A held reset is released; one that reached the always-on domain samples the identity pins (R519).
The surroundings hold test_en and rdp_level from here on (R508, R530). -/
def execResetRelease (idPkg : BitVec 3) (idDie : BitVec 2) (testEn : Bool) (rdp : BitVec 2) (s : State) :
    Host.Outcome State Fault Refusal :=
  run (fun s =>
    if !s.su.hold then s
    else
      let pins := { s.pins with rdpErase := false, testEn := testEn, rdpLevel := rdp }
      let pins := if s.su.holdPhase = 0 then { pins with idPkg := idPkg, idDie := idDie } else pins
      let s := { s with pins := pins, su := { s.su with hold := false } }
      { s with su := { s.su with bist := bistArmed s } }) s

-- start-up (R468 to R471)

/-- TCLK_LOCK. tclk locks and phase AON ends; an instance that sampled die position 3 stays in it (R468, R519). -/
def execTclkLock (s : State) : Host.Outcome State Fault Refusal :=
  run (fun s =>
    if s.su.phase = 0 ∧ s.su.hold = false ∧ s.pins.idDie ≠ 3 then
      { s with su := { s.su with phase := 1, bist := bistArmed s }, time := { s.time with running := true } }
    else s) s

/-- The armed self-test has run: its result stands in FIRN_BIST, and no record is kept (R513). -/
def bistEnd (fails : List (BitVec 15)) (s : State) : State :=
  let s := ((s.raise Reg.FIRN_BIST_DONE).wr Reg.FIRN_BIST_ARM 0).wr Reg.FIRN_BIST_FAIL (b2n (!fails.isEmpty))
  let s := s.wr Reg.FIRN_BIST_ADDR ((best (fun a b => decide (a < b)) (fails.map (·.toNat))).getD 0)
  let s := (s.wr Reg.FIRN_BIST_COUNT (min (2 ^ 14 - 1) fails.length)).wr Reg.SU_STAT_FIRNKEPT 0
  { s with su := { s.su with cold := true }, firn := { tagGen := s.firn.tagGen } }

/-- FIRN_INIT_END. Every record has been written free, or read with its errors acted on; phase TIME begins and domain 23
is requested (R468). A self-test that was armed when the phase began has run (R513). -/
def execFirnInitEnd (errs : List (BitVec 14 × Ecc)) (bistFail : List (BitVec 15)) (s : State) :
    Host.Outcome State Fault Refusal :=
  run (fun s =>
    if s.su.phase ≠ 1 ∨ s.su.hold = true then s
    else
      let cold := s.su.cold
      let s := if s.su.bist then rebuildHostQ (bistEnd bistFail s) else s
      let s := if s.su.cold then { s with firn := { tagGen := s.firn.tagGen } }
        else s.each errs fun e s => firnError e.1.toNat e.2 s
      let s := { s with su := { s.su with phase := 2 } }
      if cold then wakeSys 23 s else if s.on 23 && !s.su.soft && s.rd Reg.SU_STAT_START == 5 then edwOn s else s) s

/-- Phase LINK begins: the link domains of enabled ports are woken and the ports train (R468). -/
def enterLink (s : State) : State :=
  let s := { s with su := { s.su with phase := 4, linkFrom := s.time.now } }
  let en (p : Nat) : Bool := s.flag (Reg.LNK_CTRL_EN p)
  let s := if en 0 || en 1 then wakeSys 20 s else s
  let s := if en 2 || en 3 then wakeSys 21 s else s
  s.each [0, 1, 2, 3] tryDetect

/-- Phase LOAD begins, or LINK after a soft instance reset: the region and cluster domains are requested (R468). -/
def enterLoad (s : State) : State :=
  if s.su.soft then enterLink s
  else
    let s := { s with su := { s.su with phase := 3, booted := false } }
    tryBoot (s.each ([16, 17, 18, 19] ++ List.range 16) wakeSys)

/-- TIME_UNIT_RELOAD. A time unit has reloaded: 0 the crossbar's, 1 + r that of region r, 5 + k that of cluster k; in
phase TIME the crossbar's ends the phase (R176, R468). -/
def execTimeUnitReload (u : Fin 21) (s : State) : Host.Outcome State Fault Refusal :=
  runClk (fun s =>
    let up := if u.val = 0 then decide (2 ≤ s.su.phase) else if u.val < 5 then s.on (15 + u.val) else s.on (u.val - 5)
    if !up then s
    else
      let s := { s with time := { s.time with units := tset false s.time.units u true } }
      let s := if 5 ≤ u.val then askFills (u.val - 5) s else s
      if u.val = 0 ∧ s.su.phase = 2 then enterLoad s else s) s

/-- EDW_RESTORE_DONE. The seal slots have been read; a boot load that waited for them begins (R439). -/
def execEdwRestoreDone (s : State) : Host.Outcome State Fault Refusal :=
  runClk (fun s => if s.edw.scan && edwRuns s then tryBoot (edwRestore s) else s) s

/-- STARTUP_LOAD_END. The image is READY and copied, the restore of R439 has ended and domains 0 to 19 are ON or in FAIL:
phase LINK begins (R352, R468). -/
def execStartupLoadEnd (s : State) : Host.Outcome State Fault Refusal :=
  runClk (fun s =>
    if s.su.phase = 3 ∧ s.img.load.st = .ready ∧ s.img.load.s0 = true ∧ edwDone s = true
        ∧ ((List.range 20).all fun d => s.dom d == 2 || s.dom d == 3) = true then
      enterLink s
    else s) s

/-- LINK_PHASE_END. Every enabled port is UP and the first exchange done, or their bounds have passed (R468, R469). -/
def execLinkPhaseEnd (s : State) : Host.Outcome State Fault Refusal :=
  runClk (fun s =>
    let down := [0, 1, 2, 3].any fun p => s.flag (Reg.LNK_CTRL_EN p) && !portUp s p
    let unsynced := !s.isMaster && !s.time.exchanged
    let late := decide (s.su.linkFrom.toNat + 16000000 ≤ s.t)
    let noSync := unsynced && decide (s.su.linkFrom.toNat + 256 * syncInt s ≤ s.t)
    if s.su.phase ≠ 4 ∨ (!late && (down || (unsynced && !noSync))) = true then s
    else
      let s := if down then s.raise Reg.SU_STAT_LINKTMO else s
      { (if noSync then noFirstSync s else s) with su := { s.su with phase := 5 } }) s

-- after thaw 0 (R315, R471, R473)

/-- The messages that wait to enter input 21 belong to the steps of R315 or R471, and recovery lasts until they are sent
(R473). -/
def noteSending (s : State) : State := { s with rec_ := { s.rec_ with owed := false, sending := s.xb.recHold.map (·.msg) } }

/-- The steps that follow thaw 0: with records kept they are restored, reported and probed; LOSS is broadcast (R315,
R471). -/
def afterThaw0 (s : State) : State :=
  let lost := s.su.cold
  let s := if lost then s
    else
      let s := resendDones none (restoreScope (fun u => decide (u < 128)) s)
      if s.flag Reg.REC_CTRL_AGEN then probeAll s else s
  noteSending (broadcast 10 s.die (2 ^ 6 * b2n lost) s)

/-- Recovery mode ends once nothing of it remains (R473). -/
def noteRecov (s : State) : State :=
  if s.su.recov && s.su.open_ && !s.rec_.owed then
    let left := s.rec_.sending.filter fun m => s.xb.recHold.any (·.msg == m)
    { s with rec_ := { s.rec_ with sending := left }
             su := { s.su with recov := !left.isEmpty || (List.range 16).any (restoring s) } }
  else s

end Sys2Proof.Machine
end

