-- ==== Sys2Proof/Machine/Transport.lean ====
section
/-! DEFINITION. The scheduler's command and Moraine, the spill of class G messages into system memory (R220 to R229,
R527, R528). -/

namespace Sys2Proof.Machine

/-- SCHEDULER_FORWARD. One cycle of the scheduler, with the outcomes of the checks of each input's two words (R217, R220
to R224). -/
def execSchedulerForward (ecc : List (Fin 24 × Ecc × Ecc)) (s : State) : Host.Outcome State Fault Refusal :=
  runClk (schedCycle ecc) s

-- Moraine

/-- The address of block no of ring i (R226, MRN_BASE, MRN_QCFG). -/
def blockAddr (s : State) (i no : Nat) : Nat :=
  64 * s.rd Reg.MRN_BASE + 64 * (s.rd (Reg.MRN_QCFG_START i) + no)

/-- Input i may write its full staging to the tail of its ring (R226). -/
def canSpill (s : State) (i : Nat) : Bool :=
  mrnOn s && !s.xb.stopped && (s.staging i).length == 4 && decide ((s.ring i).length < s.rd (Reg.MRN_QCFG_LEN i))

/-- Input i may read its oldest block (R227). -/
def canRefill (s : State) (i : Nat) : Bool :=
  !s.xb.stopped && !(s.ring i).isEmpty && decide (bufUsed s (bufKey i .g) + 4 ≤ Config.bufDepth)

/-- The requests at the spill port (R233). -/
def spillReqs (s : State) : List ArbReq :=
  (List.range 22).filterMap fun i => if canSpill s i || canRefill s i then some ⟨i, 4, false⟩ else none

/-- The tail block of ring i (R226). -/
def tailBlock (s : State) (i : Nat) : Nat := tget 0 s.xb.tails i % max 1 (s.rd (Reg.MRN_QCFG_LEN i))

/-- The full staging of input i stands as one block at the tail of its ring (R226). -/
def stageToRing (i : Nat) (s : State) : State :=
  let no := tailBlock s i
  let t := (s.setStaging i []).setRing i (s.ring i ++ [(no, s.staging i)])
  { t with xb := { t.xb with tails := tset 0 s.xb.tails i ((no + 1) % max 1 (s.rd (Reg.MRN_QCFG_LEN i))) } }

/-- The oldest block of ring i leaves the ring, and its messages enter the buffer unless the read has failed (R227,
R229). -/
def ringToBuf (i : Nat) (err : Bool) (s : State) : State :=
  match s.ring i with
  | [] => s
  | (_, l) :: rest =>
    let s := s.setRing i rest
    if err then s else s.setBuf (bufKey i .g) (s.buf (bufKey i .g) ++ l)

/-- The effect of a transfer's last beat at the spill port on the blocks: by it an arbiter sees whether its holder asks for
more. The access itself is the command's that the grant allows (R235; log entry 15). -/
def spillBeat (i : Nat) (s : State) : State :=
  if (s.arbOf 20).holder.isSome then s
  else if canSpill s i then stageToRing i s else if canRefill s i then ringToBuf i false s else s

/-- The spill port with the decision of this cycle when it is idle (R236). -/
def spillTurn (s : State) : State :=
  let s := arbSync 20 s
  if (s.arbOf 20).holder.isNone then arbDecide 20 (spillReqs s) true s else s

/-- Input i holds the spill port, from an earlier decision or from the one that an idle port makes now (R233, R236). -/
def spillHolds (s : State) (i : Nat) : Bool :=
  match ((spillTurn s).arbOf 20).holder with
  | some h => h.j == i
  | none => false

/-- The transfer of the spill port ends, and the arbiter decides in its last beat (R236). -/
def spillEnd (s : State) : State :=
  let s := s.setArb 20 { s.arbOf 20 with holder := none }
  arbDecide 20 (spillReqs s) false s

/-- A transfer of input i that holds the spill port, and its end; without the port nothing moves (R233, R236). -/
def spillGrant (i : Nat) (f : State → State) (s : State) : State :=
  if spillHolds s i then spillEnd (f (spillTurn s)) else s

/-- The spill engine stops after an MPU fault (R229, R421). -/
def spillStop (addr cause region : Nat) (s : State) : State :=
  mpuFaultField 0 addr cause region { s with xb := { s.xb with stopped := true } }

/-- An access of input i that its MPU check refuses: it gives the port back before its first beat (R229, R239, R421). DESIGN
CHOICE (log entry 66): the refusal counts as a withdrawal there. -/
def spillFault (i addr cause region : Nat) (s : State) : State :=
  if spillHolds s i then arbWithdraw 20 false spillReqs (spillStop addr cause region (spillTurn s)) else s

/-- The words of a block: its messages in order (R226). -/
def blockWords (l : List XEntry) : List Word := l.flatMap fun e => [0, 1, 2, 3].map (word128 e.msg.pack)

/-- SPILL_BLOCK_WRITE. The full staging of input i goes as one block to the tail of ring i, after its MPU check (R226,
R229, R527). -/
def execSpillBlockWrite (i : Fin 22) (s : State) : Host.Outcome State Fault Refusal :=
  runClk (fun s =>
    if !canSpill s i || decide (4 ≤ s.xb.spillOut.length) then s
    else
      let no := tailBlock s i
      let addr := blockAddr s i no
      let words := blockWords (s.staging i)
      match mpuCheck false 0 addr false true s with
      | .fault cause region => spillFault i addr cause region s
      | .pass rlx ns cache => spillGrant i (fun s =>
        let s := stageToRing i s
        let s := { s with xb := { s.xb with spillOut := s.xb.spillOut ++ [(i.val, no)] } }
        s.emit (.mpWrite false addr words rlx ns (BitVec.ofNat 2 cache))) s) s

/-- MORAINE_REFILL. The oldest block of ring i is read back into its buffer. A read answered with an error discards its
messages, which no one can name: the probes of R312 send them again (R227 to R229, R311). -/
def execMoraineRefill (i : Fin 22) (err : Bool) (s : State) : Host.Outcome State Fault Refusal :=
  runClk (fun s =>
    if !canRefill s i then s
    else
      let addr := blockAddr s i (match s.ring i with | (no, _) :: _ => no | [] => 0)
      match mpuCheck false 0 addr false false s with
      | .fault cause region => spillFault i addr cause region s
      | .pass rlx ns cache => spillGrant i (fun s =>
        let s := freeFull (ringToBuf i err (s.emit (.mpRead addr rlx ns (BitVec.ofNat 2 cache))))
        pumpAll (if err then s.inc Reg.MRN_STAT_RDERR else s)) s) s

/-- MASTER_PORT_WRITE_RESPONSE. The oldest write of the spill engine or of the frost-trace writer is answered: an error
loses the block's messages, as on a read, or stops the doorbell (R229, R528). -/
def execMasterPortWriteResponse (trace err : Bool) (s : State) : Host.Outcome State Fault Refusal :=
  runClk (fun s =>
    if trace then
      if s.trc.dbOut = 0 then s
      else { s with trc := { s.trc with dbOut := s.trc.dbOut - 1, dbStop := s.trc.dbStop || err } }
    else match s.xb.spillOut with
      | [] => s
      | (i, no) :: rest =>
        let s := { s with xb := { s.xb with spillOut := rest } }
        if !err then s
        else
          let ring := (s.ring i).map fun b => if b.1 == no then (no, []) else b
          (s.setRing i ring).inc Reg.MRN_STAT_RDERR) s

end Sys2Proof.Machine
end

