-- ==== Sys2Proof/Machine/Trace.lean ====
section
/-! DEFINITION. The frost trace's ring, doorbell and registers, and the test modes (R497 to R512). The trace points stand
in Machine/Ops.lean. -/

namespace Sys2Proof.Machine

/-- NTHR in force (TRACE_DBCTRL). -/
def dbThreshold (s : State) : Nat := max 1 (min Config.traceDepth (s.rd Reg.TRACE_DBCTRL_NTHR))

/-- UNREAD has changed: its rise to NTHR owes a doorbell, and its fall below arms the next (R505). -/
def noteUnread (s : State) : State :=
  let t := s.trc
  if t.ring.length < dbThreshold s then { s with trc := { t with dbArmed := true } }
  else if t.dbArmed then
    { s with trc := { t with dbArmed := false, dbDue := t.dbDue + b2n (s.flag Reg.TRACE_CTRL_DBEN) } }
  else s

/-- The oldest unread entry is freed, and RDPTR stands at word 0 of the next (R501, R502, R506). -/
def freeEntry (s : State) : State :=
  let t := s.trc
  let s := if t.badHead then s.inc Reg.TRACE_STAT_LOST else s
  let ptr := BitVec.ofNat 13 ((t.ptr.toNat / 4 + 1) * 4)
  { s with trc := { t with ring := t.ring.drop 1, ptr := ptr, badHead := false } }

/-- The ring takes the oldest entry of the writer queue (R500, R501). -/
def drainTrace (s : State) : State :=
  match s.trc.queue with
  | [] => s
  | e :: rest =>
    let e := { e with w3 := e.w3 ||| (BitVec.ofNat 32 (s.trc.eseq.toNat * 2 ^ 16)) }
    let s := { s with trc := { s.trc with queue := rest, eseq := s.trc.eseq + 1 } }
    if s.trc.ring.length < Config.traceDepth then
      noteUnread { s with trc := { s.trc with ring := s.trc.ring ++ [e] } }
    else if s.flag Reg.TRACE_CTRL_WRAP then
      let s := (freeEntry s).raise Reg.TRACE_STAT_OVW
      { s with trc := { s.trc with ring := s.trc.ring ++ [e] } }
    else s.inc Reg.TRACE_STAT_LOST

/-- A doorbell record that is due is written, after its MPU check (R421, R505, R527, R528). -/
def doorbell (s : State) : State :=
  let t := s.trc
  if t.dbDue = 0 ∨ 4 ≤ t.dbOut ∨ t.dbStop = true ∨ s.flag Reg.TRACE_CTRL_DBEN = false then s
  else
    let addr := 16 * s.rd Reg.TRACE_DBADDR
    match mpuCheck false 1 addr false true s with
    | .fault cause region =>
      mpuFaultField 1 addr cause region { s with trc := { t with dbStop := true, dbDue := 0 } }
    | .pass rlx ns cache =>
      let lost := BitVec.ofNat 32 (s.rd Reg.TRACE_STAT_LOST)
      let now := s.time.now
      let ws : List Word := [t.eseq.zeroExtend 32, lost, now.extractLsb' 0 32, now.extractLsb' 32 32]
      ({ s with trc := { t with dbDue := t.dbDue - 1, dbOut := t.dbOut + 1 } } : State).emit
        (.mpWrite true addr ws rlx ns (BitVec.ofNat 2 cache))

/-- The word that a read of TRACE_DATA returns (R502, R506). -/
def traceWord (s : State) (bad : Bool) : Word :=
  match s.trc.ring with
  | [] => 0
  | e :: _ => if bad then 0 else match s.trc.ptr.toNat % 4 with
    | 0 => e.w0 | 1 => e.w1 | 2 => e.w2 | _ => e.w3

/-- A read finds a word of the oldest entry uncorrectable (R506). -/
def noteBad (s : State) : State :=
  if s.trc.ring.isEmpty then s else { s with trc := { s.trc with badHead := true } }

/-- An entry overwrites the oldest unread one in this cycle (R501, R503). -/
def overwriting (s : State) : Bool :=
  !s.trc.queue.isEmpty && decide (Config.traceDepth ≤ s.trc.ring.length) && s.flag Reg.TRACE_CTRL_WRAP

/-- A read of TRACE_DATA without reg_dbg advances RDPTR, but not in the cycle of an overwrite (R502, R503). -/
def traceAdvance (s : State) : State :=
  if s.trc.ring.isEmpty || overwriting s then s
  else if s.trc.ptr.toNat % 4 = 3 then noteUnread (freeEntry s)
  else { s with trc := { s.trc with ptr := s.trc.ptr + 1 } }

/-- A write of RDPTR frees the entries before the named word, or is refused: none (R502). -/
def traceMove (w : Nat) (s : State) : Option State :=
  let t := s.trc
  let d := (w / 4 + Config.traceDepth - t.ptr.toNat / 4) % Config.traceDepth
  if w % 4 ≠ 0 ∨ t.ring.length < d then none
  else
    let bad := d != 0 && t.badHead
    let s := if bad then s.inc Reg.TRACE_STAT_LOST else s
    some (noteUnread { s with trc := { t with
      ring := t.ring.drop d, ptr := BitVec.ofNat 13 w, badHead := t.badHead && d == 0 } })

/-- TRACE_CTRL has been written: EN from 0 to 1 empties the ring, clears FROZEN and arms the trigger; DBEN from 0 to 1
lets a stopped doorbell write again (R499, R504, R505). -/
def traceCtrlWritten (enWas dbWas : Bool) (s : State) : State :=
  let t := s.trc
  let t := if !enWas && s.flag Reg.TRACE_CTRL_EN then
      let at_ := (t.ptr.toNat / 4 + t.ring.length) % Config.traceDepth
      { t with ring := [], ptr := BitVec.ofNat 13 (4 * at_), frozen := false, trig := none, refusals := 0, dbArmed := true
               badHead := false }
    else t
  let t := if !dbWas && s.flag Reg.TRACE_CTRL_DBEN then { t with dbStop := false, dbDue := 0 } else t
  { s with trc := t }

-- test modes (R508 to R511)

/-- The output's attachment is absent on this die (R214, R509). -/
def outAbsent (s : State) (o : Nat) : Bool := decide (24 ≤ o) || (o == 20 && !s.isDie0)

/-- A message enters the class S buffer of input 23 for output o (R509); none where it is refused. -/
def inject (o : Nat) (s : State) : Option State :=
  let k := bufKey 23 .s
  if outAbsent s o ∨ Config.bufDepth ≤ bufUsed s k then none
  else
    let b := [0, 1, 2, 3].foldl (fun (b : BitVec 128) j =>
      b ||| (BitVec.ofNat 128 (s.rd (Reg.TEST_MSG j) * 2 ^ (32 * j)))) 0
    let m := { Msg.unpack b with cls := .s }
    let e : XEntry := { msg := m, owed := [(m.dest, .out o)], order := s.xb.serial }
    let s := { s with xb := { s.xb with serial := s.xb.serial + 1 } }
    some (s.setBuf k (s.buf k ++ [e]))

/-- The pattern test of the selected port may run (R510). -/
def ltestOk (s : State) : Bool :=
  let p := s.rd Reg.TEST_LSEL_PORT
  !s.flag (Reg.LNK_CTRL_EN p) && s.on (lnkDom p)

/-- LTEST takes a value: the lanes of the port begin the pattern, or return to electrical idle (R510, R511). The start of the
pattern is a free value (log entry 8). -/
def setLtest (on : Bool) (s : State) : State :=
  let p := s.rd Reg.TEST_LSEL_PORT
  let was := s.flag Reg.TEST_CTRL_LTEST
  let s := s.wr Reg.TEST_CTRL_LTEST (b2n on)
  if on == was then s
  else if on then
    { s with tst := { s.tst with gen := [0, 1, 2, 3].map fun l => Config.prbsSeed s.time.now (4 * p + l) } }
  else ({ s with tst := { s.tst with locked := [], gen := [] } } : State).setPort p { s.port p with idleFrom := some s.time.now }

/-- A write of TEST_CTRL that R508 lets pass; none where R509 or R510 refuses it. INJ, OBS and LTEST are taken while
TMODE stands at 1. -/
def testCtrlWrite (w : Nat) (s : State) : Option State :=
  let mode := s.flag Reg.TEST_CTRL_TMODE
  if mode && bit w 9 && !ltestOk s then none
  else
    let put (s : State) : State :=
      let s := (s.wr Reg.TEST_CTRL_TMODE (bits w 0 1)).wr Reg.TEST_CTRL_OUT (bits w 2 5)
      if !mode then s else setLtest (bit w 9) (s.wr Reg.TEST_CTRL_OBS (bits w 7 1))
    if mode && bit w 1 then (inject (bits w 2 5) s).map put else some (put s)

/-- The key of a lane's checker. -/
def laneKey (p lane : Nat) : Nat := 4 * p + lane

/-- A lane's checker has counted bit errors (R511). -/
def countErrs (p lane n : Nat) (s : State) : State :=
  let k := laneKey p lane
  { s with tst := { s.tst with errs := tset 0 s.tst.errs k (min (2 ^ 32 - 1) (tget 0 s.tst.errs k + n)) } }


/-- CHECKER_LOCKED. A lane's checker locks, and counts the errors that it sees from then on (R511). -/
def execCheckerLocked (p lane : Fin 4) (errs : Nat) (s : State) : Host.Outcome State Fault Refusal :=
  runClk (fun s =>
    if !testing s p then s
    else
      let s := { s with tst := { s.tst with locked := tset false s.tst.locked (laneKey p lane) true } }
      countErrs p lane errs s) s

/-- CHECKER_LOCK_LOST. 16 errors within 64 bits: the checker has counted errors while locked, and loses lock (R511). -/
def execCheckerLockLost (p lane : Fin 4) (errs : Nat) (s : State) : Host.Outcome State Fault Refusal :=
  runClk (fun s =>
    if !testing s p || !tget false s.tst.locked (laneKey p lane) then s
    else
      let s := countErrs p lane errs s
      { s with tst := { s.tst with locked := tset false s.tst.locked (laneKey p lane) false } }) s

/-- BSC_MODE_CHANGE. bsc_mode rises and every port is OFF, or falls and enabled ports train again (R512). -/
def execBscModeChange (level : Bool) (s : State) : Host.Outcome State Fault Refusal :=
  run (fun s =>
    let s := { s with pins := { s.pins with bscMode := level } }
    if !clocked s then s
    else if !level then s.each [0, 1, 2, 3] tryDetect
    else s.each [0, 1, 2, 3] fun p s =>
      if (s.port p).st == .up then
        portDown p (Config.bscCause s.fresh).toNat true { s with fresh := s.fresh + 1 }
      else goOff p s) s

end Sys2Proof.Machine
end

