-- ==== Sys2Proof/Machine/Clock.lean ====
section
/-! DEFINITION. The shared arbiters by their places, the passing of a clock cycle, and trim cycles (R171, R176, R184,
R233 to R242). -/

namespace Sys2Proof.Machine

-- the arbiters: 0 to 15 delivery ports, 16 to 19 links, 20 the spill port, 21 and 22 ring writers

/-- The requests at arbiter a (R233, R405). -/
def arbReqs (a : Nat) (s : State) : List ArbReq :=
  if a < 16 then clusReqs a s else if a < 20 then linkReqs (a - 16) s else if a = 20 then spillReqs s else ringReqs (a - 21) s

/-- One beat of requester j at arbiter a (R233, R405). -/
def arbBeatOf (a j : Nat) (s : State) : State :=
  if a < 16 then clusBeat a j s else if a < 20 then linkBeat (a - 16) j s else if a = 20 then spillBeat j s
  else ringBeat (a - 21) j s

/-- The arbiter's island runs: the host gate's own clock drives the ring writers. -/
def arbClocked (s : State) (a : Nat) : Bool := decide (21 ≤ a) || clocked s

/-- The arbiter of a link carries its holder's beats. A transfer that R265 or R266 no longer lets run is withdrawn between beats
(R239). -/
def linkRun (a : Nat) (s : State) : State :=
  let s := arbSync a s
  match (s.arbOf a).holder with
  | some h =>
    let n := linkReady (a - 16) h s
    if n < h.beats - h.done then arbWithdraw a false (arbReqs a) (arbBeats a (arbBeatOf a) n s)
    else arbRun a (arbReqs a) (arbBeatOf a) s
  | none => arbRun a (arbReqs a) (arbBeatOf a) s

/-- A grant of a ring writer names its slice and its records (R405). -/
def pinRing (a : Nat) (s : State) : State := if 21 ≤ a then ringPin (a - 21) s else s

/-- ARBITER_DECIDE. The arbiter carries what its holder still owes and decides; a link without a request sends an idle
slot (R235, R236, R252). The holder of the spill port ends its transfer by its own command (log entry 15). -/
def execArbiterDecide (a : Fin 23) (s : State) : Host.Outcome State Fault Refusal :=
  run (fun s => pinRing a <|
    if !arbClocked s a then s
    else if 16 ≤ a.val ∧ a.val < 20 ∧ (arbReqs a s).isEmpty = true ∧ (s.arbOf a).holder = none then idleSlot (a - 16) s
    else if a.val = 20 ∧ (s.arbOf a).holder.isSome = true then s
    else if 16 ≤ a.val ∧ a.val < 20 then linkRun a s
    else arbRun a (arbReqs a) (arbBeatOf a) s) s

/-- ARBITER_REVOKE. Class F need revokes the transfer that holds the port (R240). -/
def execArbiterRevoke (a : Fin 23) (s : State) : Host.Outcome State Fault Refusal :=
  run (fun s => if arbClocked s a then pinRing a (arbRevoke a (arbReqs a) (arbBeatOf a) s) else s) s

/-- ARBITER_WITHDRAW. The holder, or the revoked requester, withdraws (R239, R240). -/
def execArbiterWithdraw (a : Fin 23) (revoked : Bool) (s : State) : Host.Outcome State Fault Refusal :=
  run (fun s => if arbClocked s a then pinRing a (arbWithdraw a revoked (arbReqs a) s) else s) s

/-- ARBITER_REFILL. WINDOW cycles have passed since the last refill (R234). -/
def execArbiterRefill (a : Fin 23) (s : State) : Host.Outcome State Fault Refusal :=
  run (fun s => if arbClocked s a then arbRefill a s else s) s

-- cycles

/-- The host gate's copy of time advances by a cycle, slewing by at most 1 tick in every 256 (R387). -/
def hostCycle (s : State) : State :=
  let g := s.gate
  let k : Int := if g.clk.toNat < g.lastSlew.toNat + 256 then 0 else max (-1) (min 1 g.slew)
  { s with gate := { g with
    now := BitVec.ofInt 64 ((g.now.toNat : Int) + 2 + k), slew := g.slew - k, clk := g.clk + 2
    lastSlew := if k = 0 then g.lastSlew else g.clk } }

/-- The low cycle of the interrupt outputs after a take ends (R150). -/
def endLow (s : State) : State :=
  s.each ((s.core.filter (·.2.irqLow)).map (·.1)) fun n s => s.setCore n { s.coreOf n with irqLow := false }

/-- The count runs: tclk is locked and the die is not in deep sleep (R175, R459, R461, R468). -/
def timeRuns (s : State) : Bool := s.time.running && s.time.sleep != .asleep && s.time.sleep != .waking

/-- The count advances by adv ticks, and TIME_RATE gathers its phase (R175, R184; log entry 49). -/
def countOn (adv : Nat) (s : State) : State :=
  { s with time := { s.time with
    now := s.time.now + BitVec.ofNat 64 adv, rateAcc := s.time.rateAcc + adv * sgn 24 (s.rd Reg.TIME_RATE_RATE) } }

/-- A cycle of arbiter a (R234, R235, R242). -/
def arbCycle (a : Nat) (s : State) : State := arbTick a (arbAsks a (arbReqs a) (arbBeatOf a) s) s

/-- SEEN is set in every cycle in which a version's COUNT is not 0 (R278). -/
def noteVersions (s : State) : State :=
  s.each (List.range 8) fun v s => if verCount s v = 0 then s else s.raise (Reg.VER_INFLIGHT_SEEN v)

/-- One cycle of the field instance's islands. A reflex message keeps its output group from a match for its own cycle
(R222). -/
def fieldCycle (inThaw : Bool) (s : State) : State :=
  let s := endOffers (endCaptures (endLow { s with xb := { s.xb with reflex := [] } }))
  let s := if s.yar.words.isEmpty then s else yarCycle inThaw s
  let s := noteVersions <| endLostMigrations (noteRecov (noteRoutes (noteDelayed (doorbell (drainTrace s)))))
  s.each (List.range 21) arbCycle

/-- One cycle of the block: 2 ticks, or 1 or 3 in a trim cycle (R171, R172, R184). The count stands still in deep sleep
and before tclk is locked, and runs on through a held die reset, in which the islands stand still (R459, R461, R468,
R519). -/
def cycle (adv : Nat) (inThaw : Bool) (s : State) : State :=
  let s := hostCycle s
  let s := if timeRuns s then countOn adv s else s
  let s := if s.time.running && clocked s then fieldCycle inThaw s else s
  s.each [21, 22] arbCycle

/-- What an idle block does: one cycle passes (log entry 2). -/
def tick (s : State) : State := effect (cycle 2 false) s

/-- The phase still to trim, in 2^-32 tick: what is left of the last offset, and what TIME_RATE has gathered (R184). -/
def trimPhase (s : State) : Int := s.time.slew * 2 ^ 28 + s.time.rateAcc

/-- A trim cycle may fall now: a whole tick is to trim, 256 ticks after the last (R184). -/
def trimReady (s : State) : Bool :=
  s.time.running && decide (2 ^ 32 ≤ (trimPhase s).natAbs) && decide (s.time.lastTrim.toNat + 256 ≤ s.t)

/-- TRIM_CYCLE. A cycle in which the count advances by 3 or by 1, toward the upstream time (R184). -/
def execTrimCycle (s : State) : Host.Outcome State Fault Refusal :=
  runClk (fun s =>
    if !trimReady s then s
    else
      let up : Bool := decide (0 < trimPhase s)
      let time := { s.time with rateAcc := s.time.rateAcc - (if up then 2 ^ 32 else -2 ^ 32), lastTrim := s.time.now }
      cycle (if up then 3 else 1) false { s with time := time }) s

end Sys2Proof.Machine
end

