-- ==== Sys2Proof/Machine/Thaw.lean ====
section
/-! DEFINITION. The thaw: freeze, drain, commit, restore, takeover, window restart and open; thaw 0; the deep thaw; and
the commit of the host gate (R58, R71, R84, R138 to R141, R165, R193 to R207, R318, R345 to R352, R403, R441, R471). -/

namespace Sys2Proof.Machine

/-- What reaches the die during a thaw, and the tick at which the thaw began (R198, R203, R244). -/
structure Wires where
  during : List ThawInput
  t0 : Nat

/-- The changes that reach the second stage in the present cycle of the thaw; with last, also all later ones. They carry
the stamp that the thaw has still to give (R68, R203). -/
def takeWires (w : Wires) (last : Bool) (s : State) : State :=
  let i := (s.t - w.t0) / 2
  s.each (w.during.filter fun x => x.cyc == i || (last && decide (i < x.cyc))) fun x s => match x.ev with
    | .wire n level data => if lineLevel s n == level then s else lineChange true n level data pendingStamp s
    | .slot _ => s

/-- One slot of link p: a beat of its arbiter, or an idle slot (R236, R244, R252). -/
def thawSlot (p : Nat) (s : State) : State :=
  let a := 16 + p
  if (arbReqs a s).isEmpty && (s.arbOf a).holder.isNone then idleSlot p s
  else match (s.arbOf a).holder with
    | some h => if linkReady p h s = 0 then linkRun a s else arbStep a (arbReqs a) (arbBeatOf a) s
    | none => arbStep a (arbReqs a) (arbBeatOf a) s

/-- The delivery ports and the links decide through a thaw, and refills fall in their cycles (R234, R244). -/
def thawArbs (w : Wires) (s : State) : State :=
  let i := (s.t - w.t0) / 2
  let s := s.each (List.range 21) arbRefill
  let s := s.each (List.range 16) fun a s => arbStep a (arbReqs a) (arbBeatOf a) s
  s.each (w.during.filter (·.cyc == i)) fun x s => match x.ev with
    | .slot p => thawSlot p s
    | .wire .. => s

/-- One cycle of a thaw. -/
def thawCycle (w : Wires) (s : State) : State := cycle 2 true (thawArbs w (takeWires w false s))

/-- n cycles of a thaw. -/
def thawCycles (w : Wires) : Nat → State → State
  | 0, s => s
  | n + 1, s => thawCycles w n (thawCycle w s)

/-- An effect applied n times. -/
def times (f : State → State) : Nat → State → State
  | 0, s => s
  | n + 1, s => times f n (f s)

-- F (R58, R198, R350)

/-- Cells with THAWCLR clear their latch and count (R58). -/
def clearCells (s : State) : State :=
  s.each ((cellsUsed s).filter fun c => bit (cellWord s c 5) 6) fun c s =>
    setCellRun s c { cellRun s c with lat := false, count := 0 }

/-- No Campion of region r runs a reflex and its segment holds no burst (R143, R350). -/
def regionIdle (s : State) (r : Nat) : Bool :=
  ((List.range 16).all fun j => (s.campOf (16 * r + j)).run.isNone) && (s.segOf r).bursts.isEmpty

/-- A deep thaw that waits begins when it finds its region idle (R350). -/
def deepBegin (s : State) : State :=
  let l := s.img.load
  if s.img.dtPhase = 1 ∧ regionIdle s s.img.dtRegion = true ∧ l.st = .ready
      ∧ l.parts.contains (0x10 + s.img.dtRegion) = true then
    { s with img := { s.img with dtPhase := 2 } }
  else s

/-- The first cycle of a thaw that opens an epoch. -/
def freeze (w : Wires) (e : EpochS) (s : State) : State :=
  let s := (emptyWindows e.start.toNat s).raise Reg.THAW_STATUS_ACTIVE
  let s := deepBegin (clearCells { s with epoch := e })
  thawCycle w s

-- D (R84, R197, R198)

/-- The offers past A0 that the drain runs on to their accept point: those that wait for no partner. -/
def drainedOffers (s : State) : List Offer := s.acc.offers.filter (·.partnerAck)

/-- The cycles of the drain that begins at the present tick: an offer is accepted, and a record in flight acknowledged,
18 ticks after its A0 began, and an entry of a crossing is presented within 6 ticks (R32, R82, R198). -/
def drainLength (s : State) : Nat :=
  let ends := (s.acc.offers.filter fun o => o.partnerAck || !o.ack).map (·.a0.toNat + 18)
    ++ ((List.range 4).filter fun r => s.on (16 + r)).flatMap fun r => (s.crossing r).map (·.since.toNat + 6)
  ends.foldl (fun n e => max n ((e - s.t) / 2)) 1

/-- What the drain moves: records and accept points, and the crossings toward regions that are ON. -/
def drainAll (s : State) : State :=
  let s := times writeOldest s.firn.writes.length s
  let s := times acceptOldest (drainedOffers s).length s
  s.each (List.range 4) fun r s => if s.on (16 + r) then times (handIn r) (s.crossing r).length s else s

-- P (R71, R141, R142, R165, R199, R200, R318, R345, R347, R351, R441)

/-- The sources whose destination a word may change. -/
def destWord (off : Nat) : Option Nat :=
  match findReg off with
  | some (r, i, _) => if r.id = .SRC_CFG1 then some i else if r.id = .VEC_CFG then some (1024 + i) else none
  | none => none

/-- The destinations that a commit of these words, and of the internal-source table, may change, as they stand, with the
classes of their sources. -/
def destsNow (offs : List Nat) (table : Bool) (s : State) : List (Nat × BitVec 12 × Cls) :=
  ((offs.filterMap destWord).dedup ++ (if table then (List.range 128).map (5120 + ·) else [])).map fun n =>
    (n, srcDest s n, srcCls s n)

/-- Committed new destinations start migrations (R318). -/
def migrateAll (olds : List (Nat × BitVec 12 × Cls)) (s : State) : State :=
  s.each olds fun x s => startMigration x.1 x.2.1 (srcDest s x.1) x.2.2 s


/-- The vector caches invalidate their lines, and pinned lines are fetched again (R165). -/
def invalidateCaches (s : State) : State :=
  s.each (s.clus.map (·.1)) fun k s => askFills k (s.setClus k { s.clusOf k with lines := [] })

/-- The words of the register space that a load holds in a part. -/
def regWords (l : LoadS) (p : Nat) : List Nat := ((partWords l p).filter (·.1 == 0)).map fun h => h.2.1

/-- Part 1 of the field die's load holds words of segment S1. -/
def holdsS1 (l : LoadS) : Bool :=
  (partWords l 1).any fun h => (decide (0x20 ≤ h.1) && decide (h.1 < 0x23))
    || (h.1 == 0 && match (findReg (4 * h.2.1)).bind fun r => regSeg r.1.id with | some (1, _) => true | _ => false)

/-- The spare that CAMP_RCTRL[r] names no more is released, unless it has taken an index (R141). -/
def releaseSpare (r : Nat) (s : State) : State :=
  let g := s.segOf r
  let want := configuredSpare s r
  if g.took.isSome then s.setSeg r { g with defer := want != some g.tookSpare }
  else if g.spare == want then s.setSeg r { g with defer := false }
  else s.setSeg r { g with spare := none, defer := want.isSome }

/-- Campion n has no running reflex, no queue entry and no event in its lane (R141). -/
def campIdle (s : State) (n : Nat) : Bool :=
  (s.campOf n).run.isNone && (s.campOf n).q.isEmpty && (s.lane (64 + n)).isEmpty

/-- A spare is designated once the named Campion is idle (R141). -/
def designate (r : Nat) (s : State) : State :=
  let s := releaseSpare r s
  let g := s.segOf r
  match configuredSpare s r with
  | some l => if g.defer && g.took.isNone && campIdle s (16 * r + l) then s.setSeg r { g with spare := some l, defer := false } else s
  | none => s

/-- The S2 part of region r commits at this thaw (R200, R347, R351). -/
def s2Due (l : LoadS) (s : State) (r : Nat) : Bool :=
  partDue l (0x30 + r) && !(decide (2 ≤ s.img.dtPhase) && s.img.dtRegion == r)

/-- The cycles from the first of P to region r's S2 commit: the copies under way end 16 ticks after their dispatch
(R112, R142, R200). -/
def s2Length (s : State) (r : Nat) : Nat :=
  (List.range 16).foldl (fun n j => match (s.campOf (16 * r + j)).run with
    | some x => max n (1 + (x.d.toNat + 17 - s.t) / 2)
    | none => n) 1

/-- Bank r and CAMP_RCTRL[r] of the load commit together (R347, R348). -/
def commitS2 (r : Nat) (s : State) : State :=
  let l := s.img.load
  let bank := (partWords l (0x30 + r)).any fun h => h.1 == 0x30 + r
  let s := s.each (regWords l (0x30 + r)) fun i s => commitWord (4 * i) s
  partDone .field (0x30 + r) (if bank then exchange (0x30 + r) s else s)

/-- The register words and tables of part 1 commit (R199, R347, R348). -/
def commitPart1 (s : State) : State :=
  let l := s.img.load
  let tabs := [0x20, 0x21, 0x22].filter fun sp => (partWords l 1).any fun h => h.1 == sp
  let s := s.each (regWords l 1) fun i s => commitWord (4 * i) s
  partDone .field 1 (s.each tabs exchange)

/-- The S5 words of the load commit (R441). -/
def commitS5 (s : State) : State :=
  let ws := (partWords s.img.load 0x40).reverse
  let s := s.each ws fun h s => putS5Word h.2.1 h.2.2 s
  partDone .field 0x40 { s with edw := { s.edw with cfg := true } }

/-- The dies that are marked unreachable as partners (R86). -/
def unreachables (s : State) : List (BitVec 5) := ((List.range 32).map (BitVec.ofNat 5)).filter (unreachable s)

/-- The first cycle of P: staged words, the load's parts, and what follows from them. due answers the parts of the load
that commit. A route that comes up toward an unreachable partner resynchronizes it (R316). -/
def commitFirst (migrate : Bool) (due : Nat → Bool) (s : State) : State :=
  let l := s.img.load
  let offs := (stagedWords s).filter fun o => decide (o < 0x100000) && !holds .field s 0 (o / 4)
  let p1 := due 1
  let olds := if migrate then
      destsNow (offs ++ if p1 then (regWords l 1).map (4 * ·) else []) (p1 && (partWords l 1).any fun h => h.1 == 0x20) s
    else []
  let mrnWas := s.flag Reg.MRN_CTRL_EN
  let cut := (unreachables s).filter fun d => (portToward s d).isNone
  let s := s.each offs commitWord
  let s := if p1 then commitPart1 s else s
  let s := if due 0x40 && !sealClosed s then commitS5 s else s
  let s := if p1 && holdsS1 l then invalidateCaches s else s
  let s := if !mrnWas && s.flag Reg.MRN_CTRL_EN then { s with xb := { s.xb with stopped := false } } else s
  let s := s.each (cut.filter fun d => (portToward s d).isSome) startResync
  let s := freeFull s
  reroute (· == .noRoute) (migrateAll olds (discardDisabled s))

/-- Phase P: the first cycle, and each region's S2 commit once its Campions have completed their copies (R199, R200). The
answer is the phase's length. -/
def commitPhase (w : Wires) (migrate : Bool) (due : Nat → Bool) (s2 : List Nat) (s : State) : Nat × State :=
  let now := s2.filter fun r => s2Length s r == 1
  let late := s2.filter fun r => s2Length s r != 1
  let len := s2.foldl (fun n r => max n (s2Length s r)) 1
  let s := commitFirst migrate due s
  let s := s.each now commitS2
  let s := s.each (List.range 4) designate
  let s := thawCycles w (len - 1) s
  let s := s.each late fun r s => releaseSpare r (commitS2 r s)
  (len, thawCycle w s)

-- R and K (R138, R139, R201, R202)

/-- Up to n restores, one per cycle. -/
def restorePhase (w : Wires) : Nat → State → Nat × State
  | 0, s => (0, s)
  | n + 1, s =>
    match s.rime.marks.find? (canRestore s) with
    | none => (0, s)
    | some m =>
      let (k, s) := restorePhase w n (thawCycle w (discardDisabled (restoreMark m s)))
      (k + 1, s)

/-- The takeover due in region r: the failed index and the spare, both local (R138, R139, R141). -/
def takeoverDue (s : State) (r : Nat) : Option (Nat × Nat) :=
  let g := s.segOf r
  match g.spare with
  | some sp =>
    if g.took.isSome || !s.flag (Reg.CAMP_RCTRL_SPEN r) || (s.campOf (16 * r + sp)).failed.isSome then none
    else ((List.range 16).find? fun j => j != sp && (s.campOf (16 * r + j)).failed.isSome).map fun j => (j, sp)
  | none => none

/-- The spare of region r takes over a failed index; its queue follows by its logical index (R138). -/
def takeOver (r j sp : Nat) (s : State) : State :=
  let n := 16 * r + j
  let s := s.setSeg r { s.segOf r with took := some j, tookSpare := sp }
  let s := s.setCamp n { s.campOf n with failed := none }
  raiseInt (5140 + r) (n + 64 * (16 * r + sp)) s

/-- Phase K. A spare whose domain is off is requested, and takes over at a later thaw (R138). -/
def takeoverPhase (w : Wires) (s : State) : Nat × State :=
  let due := (List.range 4).filterMap fun r => (takeoverDue s r).map fun x => (r, x)
  let ready := due.filter fun x => s.on ((16 * x.1 + x.2.2) / 4)
  let s := s.each due fun x s =>
    let d := (16 * x.1 + x.2.2) / 4
    if s.on d then takeOver x.1 x.2.1 x.2.2 s else wake d 1 false s
  if ready.isEmpty then (0, s) else (5, thawCycles w 5 s)

-- W and O (R58, R68, R198, R203)

/-- Each marked or level-mode source latches one event (R203). -/
def openLatches (stamp : Tick) (s : State) : State :=
  let marks := s.src.marks
  let s := { s with src := { s.src with marks := [] } }
  let s := s.each marks fun e s => match e.2 with
    | some (p, t) => latchEvent e.1 stamp p t s
    | none => s
  s.each ((List.range 1024).filter fun n => 3 ≤ s.rd (Reg.SRC_CFG0_MODE n)) fun n s => levelTest n stamp s

/-- Phase O: the changes of the thaw are stamped at its end, marked cells take their steps in the array's cycle, the latches
take theirs, and what waited at the crossings goes on. -/
def openPhase (w : Wires) (s : State) : State :=
  let stamp := s.time.now + 2
  let s := openLatches stamp (cycle 2 true (thawArbs w (resolveStamps stamp (takeWires w true s))))
  let s := if s.img.dtPhase = 2 then { s with img := { s.img with dtPhase := 3 } } else s
  let s := pumpRemote (stampWrites (s.wr Reg.THAW_STATUS_ACTIVE 0))
  if s.isDie0 && s.bar.st == .up && s.bar.run then
    barQueue .field 0x0D (pay (s.epoch.num.toNat + 2 ^ 32 * s.epoch.start.toNat)) s
  else s

/-- The phases after P of a thaw whose drain took d cycles and whose commit phase answered c (R198). -/
def closeThaw (w : Wires) (d : Nat) (c : Nat × State) : State :=
  let r := restorePhase w 8 c.2
  let k := takeoverPhase w r.2
  (openPhase w (thawCycle w k.2)).wr Reg.THAW_STATUS_LAST (1 + d + c.1 + r.1 + k.1 + 1 + 1)

/-- A part of the field die's load commits at this thaw. Thaw 0 takes every part of an image whose S0 groups start-up has
copied (R347, R348, R352). -/
def dueAt (zero : Bool) (l : LoadS) (p : Nat) : Bool :=
  if zero && l.s0 then l.st == .ready && l.parts.contains p else partDue l p

/-- A thaw that opens epoch e, with the changes of wired lines that fall inside it (R198). Thaw 0 moves streams only after a
soft instance reset, which alone keeps what they were sent under (R318; log entry 16). -/
def runThaw (e : EpochS) (zero : Bool) (during : List ThawInput) (s : State) : State :=
  let l := s.img.load
  let w : Wires := ⟨during, s.t⟩
  let s := freeze w e s
  let d := drainLength s
  let s := thawCycles w d (drainAll s)
  let due := dueAt zero l
  let s2 := (List.range 4).filter fun r => if zero && l.s0 then due (0x30 + r) else s2Due l s r
  let s := if zero && l.s0 then s.each ((List.range 4).filter fun r => due (0x10 + r)) fun r s => partDone .field (0x10 + r) s
    else s
  closeThaw w d (commitPhase w (!zero || s.su.soft) due s2 s)

/-- THAW. The die opens its next epoch (R193, R198). -/
def execThaw (during : List ThawInput) (s : State) : Host.Outcome State Fault Refusal :=
  run (fun s =>
    if !thawDue s then s
    else runThaw ⟨s.epoch.num + 1, BitVec.ofNat 64 (nextThaw s), s.epoch.start, none⟩ false during s) s

/-- The tick in THAW0; bit 0 is ignored (THAW0_LO). -/
def thaw0Tick (s : State) : Nat := s.rd Reg.THAW0_LO / 2 * 2 + 2 ^ 32 * s.rd Reg.THAW0_HI

/-- E_0: the tick in THAW0 in the cycle that reaches it, or system time where it had passed (R194). -/
def thaw0Start (s : State) : Tick := if s.t < thaw0Tick s + 2 then BitVec.ofNat 64 (thaw0Tick s) else s.time.now

/-- THAW0. Start-up stands at thaw 0 and its tick is reached: epoch 0 opens, and the steps after thaw 0 follow (R194,
R352, R470, R471). DESIGN CHOICE (log entry 48): no epoch precedes epoch 0, and E_0 stands for its start (R540). -/
def execThaw0 (during : List ThawInput) (s : State) : Host.Outcome State Fault Refusal :=
  runClk (fun s =>
    if s.su.open_ || s.su.phase != 5 || decide (s.t < thaw0Tick s) then s
    else
      let s := { s with su := { s.su with open_ := true, phase := 6 } }
      let s := runThaw ⟨0, thaw0Start s, thaw0Start s, none⟩ true during s
      sendFieldState (afterThaw0 s)) s

-- the deep thaw (R350)

/-- A message of a source of group r stands in an offer, an acceptance lane, a staging or a Moraine ring (R350). -/
def groupInTransport (s : State) (r : Nat) : Bool :=
  let mine (m : Msg) : Bool := m.isEvent && m.origin == s.die && decide (m.source.toNat < 1024) && m.source.toNat / 256 == r
  s.acc.offers.any (mine ·.msg)
    || s.xb.bufs.any (fun b => decide (b.1 / 3 < 12) && b.2.any (mine ·.msg))
    || s.xb.staging.any (fun b => b.2.any (mine ·.msg))
    || s.xb.rings.any fun b => b.2.any fun k => k.2.any (mine ·.msg)

/-- DEEP_THAW_DRAIN_END. Nothing of the group's sources remains in transport (R350). -/
def execDeepThawDrainEnd (s : State) : Host.Outcome State Fault Refusal :=
  runClk (fun s =>
    if s.img.dtPhase = 3 ∧ groupInTransport s s.img.dtRegion = false then
      { s with img := { s.img with dtPhase := 4 } }
    else s) s

/-- DEEP_THAW_COPY_END. The 768 words of the group have entered the array, and the region goes on (R59, R347, R350). A load
aborted meanwhile has nothing to copy (R346; log entry 61). -/
def execDeepThawCopyEnd (s : State) : Host.Outcome State Fault Refusal :=
  runClk (fun s =>
    if s.img.dtPhase ≠ 4 then s
    else
      let r := s.img.dtRegion
      let s := if s.img.load.st == .ready then partDone .field (0x10 + r) (copyGroup r s) else s
      let s := { s with img := { s.img with dtPhase := 0, dtHold := false } }
      (s.raise Reg.DT_STAT_DONE).inc Reg.DT_STAT_COUNT) s

-- the host gate

/-- BAR_THAW. The host gate commits its staged words and a READY load, and grants the credit that new shares allow
(R207, R403, R441). -/
def execBarThaw (_p : BitVec 128) (s : State) : Host.Outcome State Fault Refusal :=
  run (rxBar .host 0x0D fun s =>
    let l := s.img.hload
    let offs := (stagedWords s).filter fun o => decide (0x100000 ≤ o) && !holds .host s 0 ((o - 0x100000) / 4)
    let s := s.each offs commitWord
    let s := if l.st == .ready then
        let s := s.each ((l.held.filter (·.1 == 0)).map fun h => h.2.1) fun i s => commitWord (0x100000 + 4 * i) s
        let s := match partWords l 0x40 with
          | h :: _ =>
            let s := { s with gate := { s.gate with edwOnce := true } }
            if bit h.2.2.toNat 0 then s.raise Reg.HEDW_CFG_SEALCHK else s
          | [] => s
        s.each l.parts fun p s => partDone .host p s
      else s
    grantCredit (busySlices s) s) s

end Sys2Proof.Machine
end

