-- ==== Sys2Proof/Machine/Registers.lean ====
section
/-! DEFINITION. Register accesses: where an address leads, who may go there, and reads, whose fields are the stored ones
or follow the machine's state (R153, R155, R477 to R496, R539). -/

namespace Sys2Proof.Machine

-- places

/-- The three ways to a word (R490, R492). -/
inductive View where
  | active | staged | alias_ (k : Nat)
deriving DecidableEq, Repr

/-- The word an address leads to: its row and indexes, its offset, and the way. -/
structure Spot where
  row : RegRow
  i : Nat
  j : Nat
  off : Nat
  view : View
deriving DecidableEq, Repr

/-- The word of an address; none for a reserved location, the BAR words of a die without the barrier among them
(R484, R494, R496). -/
def locate (s : State) (v : Via) (addr : Nat) : Option Spot :=
  let b := match v with | .bar0 => 0x100000 | .bar2 => 0x200000 | _ => 0
  let get (off : Nat) (view : View) : Option Spot :=
    if b = 0 && !s.isDie0 && off / 0x20 == 0x7B0 then none
    else (findReg (b + off)).map fun r => ⟨r.1, r.2.1, r.2.2, b + off, view⟩
  if v = .bar2 ∨ addr < 0x30000 then get addr .active
  else if addr < 0x40000 then get (addr - 0x30000) .staged
  else if addr < 0xC0000 then get ((addr - 0x40000) / 128 * 4) (.alias_ ((addr - 0x40000) / 4 % 32))
  else none

/-- The island of a word answers (R481, R539). -/
def islandOn (s : State) (p : Spot) : Bool :=
  match p.row.isl with
  | .region d => s.on (16 + p.i / d)
  | .cluster d => s.on (p.i / d)
  | .link => s.on (lnkDom p.i)
  | .edw => s.on 23
  | .gedw => hostEdwOn s
  | .xbar | .aon | .gate | .gaon => true

/-- The field of a row that holds bit k. -/
def RegRow.fieldAt (r : RegRow) (k : Nat) : Option FldSpec := r.flds.find? fun f => decide (f.lo ≤ k) && decide (k < f.lo + f.w)

/-- The value of a field in the reset column; PHYS and KIND name expressions (R489). -/
def resetVal (p : Spot) (f : FldSpec) : Nat :=
  if p.row.id = .CAMP_STAT ∧ f.lo = 16 then p.i else f.rst

-- values that follow the machine's state

/-- RT_STAT.NOROUTE: a message waits without a routing entry (R276). -/
def noRouteNow (s : State) : Bool := (xbEntries s).any fun e => e.owed.any (·.2 == .noRoute)

/-- CAMP_RSTAT.NOSPARE of region r: a failure waits for a designation that is due, but not where a spare is used already (R139,
R141). -/
def noSpare (s : State) (r : Nat) : Bool :=
  let due := (takeoverDue s r).map (·.1)
  let waits := (s.segOf r).defer && (s.segOf r).took.isNone
  !waits && (List.range 16).any fun j => (s.campOf (16 * r + j)).failed.isSome && some j != due

/-- BAR_CUST.UNREP: the host-bound records sent and not yet reported, those that wait to be sent again among them (R389). -/
def sentUnreported (s : State) : Nat :=
  (s.hostq.live.filter fun k => match s.recOf k with | some c => c.sent.isSome | none => false).length

/-- BAR_STAT.LANEDN (R486). -/
def barLaneDown (s : State) : Bool := s.isDie0 && s.flag Reg.BAR_CTRL_EN && s.bar.locked != 0xF

/-- A poisoned Firn record stands, a replay record among them (R299, R302, R493). -/
def firnPoisoned (s : State) : Bool :=
  s.firn.recs.any (fun e => match e.2 with | some r => r.poisoned | none => false)
    || [0, 1, 2, 3].any fun p => (s.port p).poisoned.any fun q => (s.port p).unacked.any (·.1 == q)

/-- The bits of FAULT (R493). -/
def faultBits (s : State) : List Bool :=
  [ decide (Config.firnNear ≤ firnCount s),
    firnPoisoned s,
    [0, 1, 2, 3].any (fun p => s.flag (Reg.LNK_CTRL_EN p) && (s.port p).st != .up) || barLaneDown s,
    s.flag Reg.TIME_STAT_ALOST,
    noRouteNow s,
    [0, 1, 2, 3].any (noSpare s),
    s.xb.stopped,
    tamper s != 0,
    (List.range 24).any fun d => s.dom d == 3 ]

/-- The bits of the host gate's FAULT (R493). -/
def hostFaultBits (s : State) : List Bool :=
  [false, false, s.gate.bar.locked != 0xF, false, false, false, false, false, s.gate.pwrE == 3]

/-- The number whose bits a list gives, the first the lowest. -/
def ofBits : List Bool → Nat
  | [] => 0
  | b :: l => b2n b + 2 * ofBits l

/-- STATUS.FLT under a mask (R493). -/
def faultStands (l : List Bool) (mask : Nat) : Bool := (List.zip (List.range 9) l).any fun x => x.2 && !bit mask x.1

/-- fab_flt_n of a side, low while its CTRL.FLTEN and STATUS.FLT are 1 (R493). -/
def fabFltN (d : Side) (s : State) : Bool :=
  match d with
  | .field => !(s.flag Reg.CTRL_FLTEN && faultStands (faultBits s) (s.rd Reg.CTRL_FLTMASK))
  | .host => !(s.flag Reg.H_CTRL_FLTEN && faultStands (hostFaultBits s) (s.rd Reg.H_CTRL_FLTMASK))

/-- A bitmap word over sources: bit b for source 32 * w + b of some message (R155). -/
def sourceBits (w : Nat) (l : List Msg) : Nat := ofBits ((List.range 32).map fun b => l.any (·.source.toNat == 32 * w + b))

/-- The state code of CAMP_STAT. DESIGN CHOICE (log entry 53): a Campion that runs a reflex while an earlier burst of its
own is still in the segment shows running. -/
def campCode (s : State) (n : Nat) : Nat :=
  let c := s.campOf n
  if c.failed.isSome then 3 else if c.run.isSome then 1
  else if (s.segOf (n / 16)).bursts.any (·.camp == n) then 2 else 0

/-- The fields of ARB_STAT (R235, R238, R240). -/
def arbStat (s : State) (a : Nat) : List (Nat × Nat) :=
  let b := s.arbOf a
  [(0, b2n (arbMustAge s a)), (1, b2n b.holder.isSome), (2, match b.holder with | some x => x.j | none => 0),
    (7, b2n b.revoked.isSome), (8, b.gphase)]

/-- The codes of LNK_STAT.STATE (R261), LOAD_STATUS.STATE (R340), BAR_STAT.STATE (R375) and SLC_STATE.STATE (R393). -/
def LnkState.code : LnkState → Nat
  | .off => 0 | .detect => 1 | .lock => 2 | .align => 3 | .ident => 4 | .credit => 5 | .up => 6 | .down => 7
def LoadState.code : LoadState → Nat
  | .idle => 0 | .erase => 1 | .header => 2 | .body => 3 | .verify => 4 | .ready => 5 | .error => 6 | .restore => 7
def BarState.code : BarState → Nat
  | .down => 0 | .hello => 1 | .up => 2
def SlcState.code : SlcState → Nat
  | .free => 0 | .open_ => 1 | .stopping => 2 | .closed => 3 | .fault => 4

/-- The fields of LOAD_STATUS that follow a loader (R340 to R342, R348). -/
def loadStat (l : LoadS) : List (Nat × Nat) :=
  let has (p : Nat) : Bool := l.st == .ready && l.parts.contains p
  [(0, l.st.code), (3, l.err), (8, 64 - l.fifo.length), (16, ofBits ([0x10, 0x11, 0x12, 0x13].map has)),
    (25, b2n ([0x30, 0x31, 0x32, 0x33].any has))]

/-- The high word or half that a master latched (R177, R190, R449). -/
def latched (s : State) (off mid : Nat) : Nat := (tget 0 s.time.latch (16 * off + mid)).toNat

/-- The low and high words of a number. -/
def loWord (x : Nat) : Nat := x % 2 ^ 32
def hiWord (x : Nat) : Nat := x / 2 ^ 32 % 2 ^ 32

/-- The fields, by low bit, of a field-die word that follow the machine's state: the tables of chapters 02 to 07. -/
def live1 (s : State) (mid off : Nat) (id : RegId) (i j : Nat) : List (Nat × Nat) :=
  match id with
  | .CAPS => [(13, b2n s.isDie0)]
  | .STATUS => [(0, s.die.toNat), (5, b2n (faultStands (faultBits s) (s.rd Reg.CTRL_FLTMASK))), (6, s.pins.rdpLevel.toNat),
      (8, b2n s.su.open_), (9, b2n s.su.recov)]
  | .FAULT => List.zip (List.range 9) ((faultBits s).map b2n)
  | .ACC_HQUOTA => [(16, hostUsed s), (31, b2n (decide (hquota s ≤ hostUsed s)))]
  | .CAMP_STAT =>
    let c := s.campOf i
    [(0, campCode s i), (2, c.q.length), (5, b2n (c.q.any (·.msg.cls == .f))),
      (6, match c.run with | some r => r.slot.toNat | none => 0),
      (12, match c.failed with | some k => k.toNat | none => 0), (14, b2n (heldSpare s i)),
      (15, b2n ((s.segOf (i / 16)).took == some (i % 16))), (16, campPhys s i)]
  | .CAMP_RSTAT =>
    let due := takeoverDue s i
    [(0, b2n due.isSome), (1, match due with | some x => x.1 | none => 0), (5, b2n (s.segOf i).took.isSome),
      (6, b2n (noSpare s i)), (7, b2n (s.segOf i).defer)]
  | .TIME_LO => [(0, loWord s.t)]
  | .TIME_HI => [(0, latched s off mid)]
  | .EPOCH_NUM => [(0, s.epoch.num.toNat)]
  | .EPOCH_COUNT => [(0, epochCount s % 2 ^ 24)]
  | .THAW_STATUS => [(1, b2n s.su.open_), (3, b2n (s.staged.any fun e => decide (e.1 < 32 * 0x100000)))]
  | .TIME_CTRL => [(5, b2n s.isMaster)]
  | .CAPTURE_LO => [(0, loWord (tget 0 s.time.captures i).toNat)]
  | .CAPTURE_HI => [(0, latched s off mid)]
  | .PEND => [(0, sourceBits i (s.core.flatMap fun c => c.2.pend ++ c.2.taken))]
  | .ACTV => [(0, sourceBits i (s.core.flatMap fun c => c.2.active))]
  | .CLAIM =>
    let v := claimValue s i
    [(0, bits v 0 13), (13, bits v 13 5), (18, bits v 18 1), (19, bits v 19 1), (20, bits v 20 2), (22, bits v 22 5),
      (27, bits v 27 4), (31, bits v 31 1)]
  | .STATE =>
    let c := s.coreOf i
    [(0, c.held.length), (4, b2n (!c.taken.isEmpty)), (5, (c.pend ++ c.taken).length), (10, runPrio c),
      (16, b2n (offered s i).isSome), (17, b2n c.halt), (18, b2n (Config.coreSleeps i s.t))]
  | .ACT_W => [(0, match (s.coreOf i).active with | m :: _ => (word128 m.pack j).toNat | [] => 0)]
  | .PW_PER => [(24, predCode s i j), (26, b2n (s.predOf i j).warm)]
  | .SRC_CFG0 => [(13, b2n (mapCelled s i)), (14, if mapCelled s i then mapCell s i else 0), (22, b2n (s.latchOf i).isSome)]
  | .ARBC_STAT => arbStat s i
  | .ARBV_STAT => arbStat s (16 + i)
  | .ARBS_STAT => arbStat s 20
  | .XB_OCC =>
    let n (c : Cls) : Nat := bufUsed s (bufKey i c)
    [(0, n .g), (8, n .s), (16, n .f), (24, b2n (!(s.staging i).isEmpty || !(s.ring i).isEmpty))]
  | .MRN_CTRL => [(1, b2n s.xb.stopped), (2, b2n (mrnCfgErr s))]
  | .MRN_QSTAT => [(0, (s.ring i).length), (16, (s.staging i).length), (19, b2n (tget false s.xb.full i))]
  | _ => []

/-- The same of chapters 08 to 11. -/
def live2 (s : State) (id : RegId) (i : Nat) : List (Nat × Nat) :=
  match id with
  | .RT_STAT => [(0, b2n (noRouteNow s))]
  | .VER_INFLIGHT => [(0, verCount s i), (31, if verCount s i = 0 then s.rd (Reg.VER_INFLIGHT_SEEN i) else 1)]
  | .LNK_PEER => [(15, b2n (decide (2 ≤ i)))]
  | .LNK_STAT =>
    let x := s.port i
    [(0, x.st.code), (6, b2n x.resolving), (7, x.locked.toNat)]
  | .LNK_SEQ =>
    let x := s.port i
    [(0, x.next.toNat), (8, x.acked.toNat), (16, x.expect.toNat), (24, x.unacked.length)]
  | .LNK_CRED =>
    let x := s.port i
    [(0, tget 0 x.infl 0), (8, tget 0 x.infl 1), (16, tget 0 x.infl 2), (24, x.tx.length)]
  | .FIRN_STAT => [(0, firnCount s), (15, b2n (decide (Config.firnNear ≤ firnCount s))),
      (16, (firnAll s (·.kind == .mirror)).length), (31, b2n (firnCount s == Config.firnRecords))]
  | .FIRN_USE => [(0, (firnAll s (·.kind == .event)).length), (16, (firnAll s (·.kind == .custody)).length)]
  | .REC_ACTMAP => [0, 1, 2, 3].flatMap fun b => match tget none s.rec_.actmap (4 * i + b) with
      | some a => [(8 * b, a.toNat), (8 * b + 7, 1)]
      | none => []
  | .MIG0 => match tget none s.rec_.mig i with
      | some g => [(0, g.source.toNat), (13, 1), (14, g.phase.toNat), (16, g.new.toNat)]
      | none => []
  | .MIG1 => match tget none s.rec_.mig i with | some g => [(0, g.first.toNat)] | none => []
  | .RIME_LAST => [(16, s.rime.marks.length)]
  | .LOAD_DATA => [(0, s.img.load.taken)]
  | .LOAD_STATUS => loadStat s.img.load
  | .DT_STAT => [(0, s.img.dtPhase), (3, s.img.dtRegion)]
  | .BANK => [(0, s.tab (0x30 + i / 4096) (i % 4096))]
  | .BAR_STAT => [(0, s.bar.st.code), (2, b2n s.bar.run), (3, b2n (barLaneDown s)), (4, s.bar.locked.toNat)]
  | .BAR_CUST => [(0, hostCust s), (15, b2n (decide (hquota s ≤ hostCust s))), (16, sentUnreported s)]
  | _ => []

/-- The same of chapters 13, 14 and 16, with what master mid has latched of the Edelweiss words. -/
def live3 (s : State) (mid off : Nat) (id : RegId) (i : Nat) : List (Nat × Nat) :=
  match id with
  | .PWR_STATE_LO => (List.range 16).map fun d => (2 * d, s.dom d)
  | .PWR_STATE_HI => (List.range 8).map fun d => (2 * d, s.dom (16 + d))
  | .WB_STAT => [(0, tokensUsed s), (8, tokensWarm s), (16, s.pwr.reqs.length)]
  | .SU_STAT => [(0, s.su.phase), (3, b2n s.su.recov)]
  | .TRACE_STAT => [(0, s.trc.ring.length), (12, b2n s.trc.frozen), (14, b2n s.trc.dbStop)]
  | .TRACE_RDPTR => [(0, s.trc.ptr.toNat), (13, s.trc.eseq.toNat)]
  | .TEST_LSEL => [(9, ofBits ([0, 1, 2, 3].map fun l => tget false s.tst.locked (laneKey (s.rd Reg.TEST_LSEL_PORT) l)))]
  | .TEST_LERR => [(0, tget 0 s.tst.errs (laneKey (s.rd Reg.TEST_LSEL_PORT) (s.rd Reg.TEST_LSEL_LANE)))]
  | .EDW_STAT => [(0, b2n s.edw.cfg), (1, b2n s.edw.sealed_), (2, b2n s.edw.due), (3, b2n (s.edw.step != .idle))]
  | .EDW_SCNT_HI | .EDW_STIME_HI | .EDW_VAL_HI => [(0, latched s off mid)]
  | .EDW_VAL_LO => [(0, loWord (ofSgn 64 (s.chan i).value))]
  | .EDW_UCNT => [(0, latched s off mid), (31, b2n (s.chan i).ovf)]
  | _ => []

/-- The tokens that the host gate's domain 3 holds while it ramps (R457, R474). -/
def hostTokens (s : State) : Nat :=
  if s.gate.pwrE == 1 && !s.gate.pwrGood then
    min (max 1 (s.rd Reg.H_WB_CTRL_BUDGET)) (max 1 (s.rd Reg.H_WB_COST_EDW))
  else 0

/-- The fields of SLC_STATE and PG_STAT that follow slice i. -/
def slcFields (s : State) (i : Nat) : List (Nat × Nat) := [(0, (s.slice i).st.code), (5, (s.slice i).occ)]

/-- The fields of a host-gate word that follow the machine's state (chapters 06, 10 and 12 to 15). -/
def liveHost (s : State) (id : RegId) (i : Nat) : List (Nat × Nat) :=
  match id with
  | .H_STATUS => [(0, 4 * s.pins.idPkg.toNat + 3), (5, b2n (faultStands (hostFaultBits s) (s.rd Reg.H_CTRL_FLTMASK))),
      (9, b2n s.gate.aging)]
  | .H_FAULT => List.zip (List.range 9) ((hostFaultBits s).map b2n)
  | .GATE_STAT => [(0, s.gate.gen.toNat), (8, s.gate.bar.st.code),
      (11, 64 - ((busySlices s).filter fun k => (s.slice k).meter).length)]
  | .GATE_POOL => [(0, Config.ringSlots - ((busySlices s).map fun k => (s.slice k).size).sum),
      (17, 1023 - ((busySlices s).map fun k => (s.slice k).vecs).sum)]
  | .H_TIME_LO => [(0, loWord s.gate.now.toNat)]
  | .H_TIME_HI => [(0, latched s 0x101004 0)]
  | .SLC_STATE => (4, b2n (s.slice i).arm) :: slcFields s i
  | .SLC_PROD | .PG_PROD => [(0, (s.slice i).prod.toNat)]
  | .SLC_CONS | .PG_CONS => [(0, (s.slice i).cons.toNat)]
  | .SLC_GRANT => [(0, (s.slice i).granted)]
  | .ARBW_STAT => arbStat s (21 + i)
  | .H_PWR_STATE_LO => [(0, 2), (2, 2), (4, 2), (6, s.gate.pwrE.toNat)]
  | .H_WB_STAT => [(0, hostTokens s), (16, b2n s.gate.pwrReq)]
  | .H_SU_STAT => [(0, if s.gate.everUp then 6 else 0), (3, b2n s.gate.aging)]
  | .H_LOAD_DATA => [(0, s.img.hload.taken)]
  | .H_LOAD_STATUS => loadStat s.img.hload
  | .HMTR_LO => [(0, loWord (tget (0, 0) s.gate.mirror i).1.toNat)]
  | .HMTR_HI => [(0, hiWord (tget (0, 0) s.gate.mirror i).1.toNat)]
  | .HMTR_CNT => [(0, (tget (0, 0) s.gate.mirror i).2.toNat)]
  | .PG_ARM => [(0, b2n (s.slice i).arm)]
  | .PG_STAT => slcFields s i
  | .PG_VWRES => [(31, b2n (s.slice i).vwSlot.isSome)]
  | _ => []

/-- The fields of a word that follow the machine's state. -/
def live (s : State) (mid : Nat) (p : Spot) : List (Nat × Nat) :=
  if 0x100000 ≤ p.off then liveHost s p.row.id p.i
  else live1 s mid p.off p.row.id p.i p.j ++ live2 s p.row.id p.i ++ live3 s mid p.off p.row.id p.i

/-- The present value of a field of a word: what follows the machine's state, or what is stored (R483). -/
def fieldValue (s : State) (l : List (Nat × Nat)) (p : Spot) (f : FldSpec) : Nat :=
  match l.find? (·.1 == f.lo) with
  | some x => x.2 % 2 ^ f.w
  | none => s.rd (f.at p.off)

/-- A word whose fields have given values; its reserved bits are 0 (R484). -/
def wordOf (fs : List FldSpec) (v : FldSpec → Nat) : Nat := (fs.map fun f => v f * 2 ^ f.lo).sum

/-- The present value of an active word (R481, R483, R489, R502). LOCK and TRACE_DATA words have rules of their own. -/
def activeWord (s : State) (a : Access) (p : Spot) : Nat :=
  if !islandOn s p then wordOf p.row.flds (resetVal p)
  else match p.row.id with
    | .LOCK => lockWord (s.lockOf p.i) false
    | .TRACE_DATA => (traceWord s false).toNat
    | _ => let l := live s a.master p; wordOf p.row.flds (fieldValue s l p)

/-- The lock whose staging set takes this master's staged writes (R322). -/
def lockOwned (s : State) (a : Access) : Option Nat :=
  if a.via == .port && !a.dbg then lockHeldBy s a.mid else none

/-- The staged word that an access sees: the owner of a lock sees its set (R322, R490). -/
def stagedWord (s : State) (a : Access) (p : Spot) : Nat :=
  let fs := p.row.flds.filter (·.acc == .ws)
  match (lockOwned s a).bind fun i => (s.lockOf i).set.find? (·.1 == p.off) with
  | some x => wordOf fs fun f => bits x.2.toNat f.lo f.w
  | none => wordOf fs fun f => s.rdStaged (f.at p.off)

-- who may go where

/-- The access is a sub-word access, as is a host request of more than one DW (R478, R482). -/
def subWord (a : Access) (addr : Nat) : Bool := a.be != 0xF || addr % 4 != 0 || (a.host && a.more)

/-- The master is barred: DBGOFF, the read-out protection level, or a test register (R364, R493, R508). -/
def denied (s : State) (a : Access) (wrt : Bool) (addr : Nat) (p : Spot) : Bool :=
  let dbg := a.debug
  let test := p.row.id == .TEST_CTRL || p.row.id == .TEST_MSG || p.row.id == .TEST_LSEL || p.row.id == .FIRN_BIST
  (dbg && s.flag Reg.CTRL_DBGOFF && decide (0x20 ≤ addr))
    || (dbg && s.pins.rdpLevel == 1 && !wrt && (addr / 0x10000 == 1 || p.row.id == .LOAD_DATA))
    || (dbg && decide (2 ≤ s.pins.rdpLevel.toNat) && decide (0x1000 ≤ addr))
    || (test && wrt && !(dbg && s.pins.testEn && s.pins.rdpLevel == 0))

/-- A faulted master's accesses are refused (R521). -/
def masterFaulted (s : State) (a : Access) : Bool := a.via == .port && s.pins.mfault.getLsbD a.mid.toNat

/-- The cause of a read's bus error; none when it is answered (R480). -/
def readCause (s : State) (a : Access) (addr : Nat) : Option Nat :=
  if subWord a addr then some 0
  else match locate s a.via addr with
    | none => some 1
    | some p =>
      if p.view == .staged && !p.row.has .ws then some 1
      else if denied s a false addr p then some 2
      else if masterFaulted s a then some 6
      else none

/-- The port takes accesses now: its island is clocked, and it holds no LOAD_DATA write (R342, R459, R520). -/
def portOpen (s : State) (a : Access) : Bool :=
  match a.via with
  | .port => clocked s && s.img.load.wait.isNone
  | .cif _ => clocked s
  | .bar0 => s.img.hload.wait.isNone
  | .bar2 => true

-- reads

/-- A high word is latched for a master (R177, R190, R449). -/
def latchWord (off mid v : Nat) (s : State) : State :=
  { s with time := { s.time with latch := tset 0 s.time.latch (16 * off + mid) (BitVec.ofNat 32 v) } }

/-- The side effects of a read without reg_dbg beyond the clearing of RC fields. -/
def readEffect (a : Access) (p : Spot) (ecc : Ecc) (s : State) : State :=
  let mid := a.master
  let i := p.i
  match p.row.id with
  | .TIME_LO => latchWord (p.off + 4) mid (hiWord s.t) s
  | .H_TIME_LO => latchWord 0x101004 0 (hiWord s.gate.now.toNat) s
  | .CAPTURE_LO =>
    let s := latchWord (p.off + 4) mid (hiWord (tget 0 s.time.captures i).toNat) s
    s.wr Reg.CAP_STAT_NEW (s.rd Reg.CAP_STAT_NEW &&& (0xFFFF ^^^ 2 ^ i))
  | .EDW_SCNT_LO => latchWord (p.off + 4) mid (s.rd Reg.EDW_SCNT_HI) s
  | .EDW_STIME_LO => latchWord (p.off + 4) mid (s.rd Reg.EDW_STIME_HI) s
  | .EDW_VAL_LO =>
    latchWord (p.off + 8) mid ((s.chan i).count.toNat % 2 ^ 31) (latchWord (p.off + 4) mid (hiWord (ofSgn 64 (s.chan i).value)) s)
  | .EDW_UCNT => s.setChan i { s.chan i with ovf := false }
  | .LOCK => (lockRead i a.mid false s).2
  | .CLAIM => match a.via with | .cif _ => claimEffect i s | _ => s
  | .TRACE_DATA => traceAdvance s
  | .BANK => if ecc == .corrected then s.inc (Reg.CAMP_RERR_BANKCE (i / 4096)) else s
  | .TEST_LERR =>
    let k := laneKey (s.rd Reg.TEST_LSEL_PORT) (s.rd Reg.TEST_LSEL_LANE)
    { s with tst := { s.tst with errs := tset 0 s.tst.errs k 0 } }
  | _ => s

/-- The RC fields of a word are cleared by a read without reg_dbg (R485). -/
def clearRC (p : Spot) (s : State) : State :=
  s.each (p.row.flds.filter (·.acc == .rc)) fun f s => s.wr (f.at p.off) 0

/-- The word that a read of an active place returns, with the outcome of a check of stored words (R109, R321, R506). -/
def readWord (s : State) (a : Access) (p : Spot) (ecc : Ecc) : Nat :=
  match p.row.id with
  | .LOCK => (lockRead p.i a.mid a.debug s).1
  | .BANK => if ecc == .uncorrectable && islandOn s p then (Config.bankRead s.fresh).toNat else activeWord s a p
  | .TRACE_DATA => (traceWord s (ecc == .uncorrectable)).toNat
  | _ => activeWord s a p

/-- A register read: its response and its side effects (R153, R477 to R496). -/
def readReg (a : Access) (addr : Nat) (ecc : Ecc) (s : State) : State :=
  if !portOpen s a then s
  else match readCause s a addr, locate s a.via addr with
    | some c, _ => busError a addr c false s
    | none, none => s
    | none, some p =>
      match p.view with
      | .staged => respond a false (BitVec.ofNat 32 (stagedWord s a p)) none s
      | .alias_ k => respond a false (BitVec.ofNat 32 (bits (activeWord s a p) k 1)) none s
      | .active =>
        let v := BitVec.ofNat 32 (readWord s a p ecc)
        let s' := if p.row.id == .BANK && ecc == .uncorrectable then { s with fresh := s.fresh + 1 }
          else if p.row.id == .TRACE_DATA && ecc == .uncorrectable && islandOn s p then noteBad s else s
        let s' := if a.debug || !islandOn s p then s' else readEffect a p ecc (clearRC p s')
        respond a false v none s'

end Sys2Proof.Machine
end

