-- ==== Sys2Proof/Machine/Writes.lean ====
section
/-! DEFINITION. Register writes: the causes that turn a write away, the staged copy, the staging sets of the sequence
locks, the W1 fields, and what a write does in the machine (R442, R443, R479 to R492, R520, R521). -/

namespace Sys2Proof.Machine

/-- The word has no field that the way to it can write (R480, R490, R492). -/
def noWrite (p : Spot) : Bool :=
  match p.view with
  | .active => !(p.row.has .rw || p.row.has .ws || p.row.has .w1)
  | .staged => !p.row.has .ws
  | .alias_ k => p.row.id != .COMPLETE && match p.row.fieldAt k with
    | some f => f.acc == .ro || f.acc == .rh
    | none => false

/-- The lowest cause of a write's bus error up to NOWRITE (R480). -/
def writeCause (s : State) (a : Access) (addr : Nat) : Option Nat :=
  if subWord a addr then some 0
  else match locate s a.via addr with
    | none => some 1
    | some p =>
      if denied s a true addr p then some 2 else if !islandOn s p then some 3 else if noWrite p then some 4 else none

/-- What comes of a write that is taken or refused: answered by its effect itself or by the port, or in error. -/
inductive WrOut where
  | done (s : State)
  | held (s : State)                -- answered where it is taken (R342)
  | err (cause : Nat) (s : State)

/-- The W1 words that only S5 commits write (R441, R487). -/
def sealedWord (id : RegId) : Bool := id == .EDW_GLB || id == .EDW_CH || id == .HEDW_CFG

/-- LOCKVIOL and LOCKVADDR count a write (R487, R493). -/
def noteLocked (a : Access) (addr : Nat) (s : State) : State :=
  if a.host then
    (((s.inc Reg.H_LOCKVIOL_COUNT).wr Reg.H_LOCKVIOL_MID a.master).wr Reg.H_LOCKVADDR_OFFSET addr).raise Reg.H_LOCKVADDR_VALID
  else
    (((s.inc Reg.LOCKVIOL_COUNT).wr Reg.LOCKVIOL_MID a.master).wr Reg.LOCKVADDR_OFFSET addr).raise Reg.LOCKVADDR_VALID

/-- A write of the WS fields of a word: to the staging set of the master's lock, or to the staged copy; false where it is
refused (R322, R344, R491). -/
def stagePart (a : Access) (p : Spot) (w : Word) (s : State) : State × Bool :=
  if !p.row.has .ws then (s, true)
  else match lockOwned s a with
    | some i => match lockStage i p.off w s with
      | some s => (s, true)
      | none => (s.setLock i { s.lockOf i with ovf := true }, false)
    | none =>
      if a.host then
        if holds .host s 0 ((p.off - 0x100000) / 4) then (s.raise Reg.H_LOAD_STATUS_COLL, false) else (stageWord p.off w.toNat s, true)
      else if holds .field s 0 (p.off / 4) then (s.raise Reg.LOAD_STATUS_COLL, false)
      else (stageWord p.off w.toNat s, true)

/-- The RW fields that are commands, read 0 and hold nothing, by register and low bit. -/
def commandBits : List (RegId × Nat) :=
  [(.CAMP_RFAIL, 31), (.LNK_CTRL, 2), (.LOCK, 16), (.LOCK, 17), (.LOCK, 18), (.LOAD_CTRL, 0), (.LOAD_CTRL, 1), (.DT_CTRL, 3),
    (.PWR_REQ, 31), (.SLEEP_CTRL, 0), (.RST_REQ, 31), (.EDW_CTRL, 0), (.SLC_CMD, 31), (.H_LOAD_CTRL, 0), (.H_LOAD_CTRL, 1),
    (.H_PWR_REQ, 31), (.H_RST_REQ, 31)]

/-- The words whose RW fields are held elsewhere in the state, and written by their effects. -/
def ownWords : List RegId :=
  [.COMPLETE, .LOAD_DATA, .H_LOAD_DATA, .PG_CONS, .PG_ARM, .PG_VW, .TRACE_RDPTR, .TEST_CTRL]

/-- The RW fields of a word take a written value (R483). THAW0 takes none once OPEN is 1. -/
def putFields (p : Spot) (w : Nat) (s : State) : State :=
  if ownWords.contains p.row.id || ((p.row.id == .THAW0_LO || p.row.id == .THAW0_HI) && s.su.open_) then s
  else s.each (p.row.flds.filter fun f => f.acc == .rw && !commandBits.contains (p.row.id, f.lo)) fun f s =>
    s.wr (f.at p.off) (bits w f.lo f.w)

/-- A write of LOCK[i]: BREAK needs reg_dbg, REL and ABORT the owner (R321 to R323). -/
def lockWrite (a : Access) (i w : Nat) (s : State) : Option State :=
  let l := s.lockOf i
  let brk := bit w 18
  let free := bit w 16 || bit w 17
  if brk && !a.debug then none
  else if free && !(l.held && l.owner == a.mid) then none
  else if brk then some (lockBreak i 2 s)
  else if bit w 16 && bit w 17 then
    let s' := { s with fresh := s.fresh + 1 }
    some (if Config.relWins s.fresh then lockRelease i s' else lockFree i s')
  else if bit w 16 then some (lockRelease i s)
  else if bit w 17 then some (lockFree i s)
  else some s

/-- RST_REQ on the field instance; none for an INDEX outside the kind's range or an unknown KIND (R461, R462). -/
def resetRequest (kind index : Nat) (s : State) : Option State :=
  let s' := noteReset kind index s
  match kind with
  | 0 => some (resetCore index s')
  | 1 => some (resetCampion index s')
  | 2 => if index < 16 then some (resetCluster index s') else none
  | 3 => if index < 4 then some (resetRegion index s') else none
  | 4 => some (startFrom 4 true (resetInstance false s'))
  | _ => none

/-- RST_REQ on the host gate, which has a soft instance reset only (R462, R475). -/
def hostResetRequest (kind index : Nat) (s : State) : Option State :=
  if kind = 4 then
    let s := ((s.wr Reg.H_RST_STAT_KIND kind).wr Reg.H_RST_STAT_INDEX index).inc Reg.H_RST_STAT_COUNT
    some (hostSoft (s.wr Reg.H_SU_STAT_START 4))
  else none

/-- LOAD_CTRL of a side (R346). -/
def loadCtrl (d : Side) (w : Nat) (s : State) : Option State :=
  if (bit w 0 && !canStartLoad d s) || (bit w 1 && !canAbort d s) then none
  else if bit w 0 then some (loadStart d (bit w 2) s)
  else if bit w 1 then some (failLoad d 13 s)
  else some s

/-- DT_CTRL.GO (R349). -/
def deepRequest (r : Nat) (hold : Bool) (s : State) : Option State :=
  let l := s.img.load
  if s.img.dtPhase = 0 ∧ l.st = .ready ∧ l.parts.contains (0x10 + r) = true then
    some { s with img := { s.img with dtPhase := 1, dtRegion := r, dtHold := hold } }
  else none

/-- What a write of an active word does beyond its fields; none where its chapter refuses it (chapters 04 to 09). -/
def effect1 (a : Access) (p : Spot) (w : Nat) (old s : State) : Option State :=
  let i := p.i
  match p.row.id with
  | .CAMP_RFAIL => some (if bit w 31 then failCampion (16 * i + bits w 0 4) 0 s else s)
  | .COMPLETE => match a.via with
    | .cif _ => some (completeEffect i (BitVec.ofNat 32 w) s)
    | _ => none
  | .THRESH => some (askFills (i / 4) s)
  | .PREWARM => some (s.each [0, 1] fun k s => predWritten i k (predEnabled old i k) false s)
  | .PW_SRC => some (predWritten i p.j (predEnabled old i p.j) false s)
  | .PW_PER => some (predWritten i p.j (predEnabled old i p.j) true s)
  | .PW_NEXT => some (nextWritten i p.j s)
  | .EPOCH_PERIOD => some (periodWritten old s)
  | .ARBC_CTRL => some (arbSync i s)
  | .ARBV_CTRL => some (arbSync (16 + i) s)
  | .ARBS_CTRL => some (arbSync 20 s)
  | .LNK_CTRL => some (lnkWritten i (bit w 2) s)
  | .LOCK => lockWrite a i w s
  | _ => some s

/-- The same of chapters 10 to 16. -/
def effect2 (p : Spot) (w : Nat) (old s : State) : Option State :=
  let i := p.i
  match p.row.id with
  | .LOAD_CTRL => loadCtrl .field w s
  | .DT_CTRL => if bit w 3 then deepRequest (bits w 0 2) (bit w 2) s else some s
  | .PWR_REQ => some (if bit w 31 then pwrRequest (bits w 0 5) (bit w 5) s else s)
  | .SLEEP_CTRL =>
    if bit w 0 then if sleepOk s then some { s with time := { s.time with sleep := .entering } } else none else some s
  | .RST_REQ => if bit w 31 then resetRequest (bits w 0 3) (bits w 3 6) s else some s
  | .BAR_CTRL => some (barEnWritten s)
  | .TRACE_CTRL => some (traceCtrlWritten (old.flag Reg.TRACE_CTRL_EN) (old.flag Reg.TRACE_CTRL_DBEN) s)
  | .TRACE_RDPTR => traceMove (bits w 0 13) s
  | .TRACE_DBCTRL => some (noteUnread s)
  | .TEST_CTRL => testCtrlWrite w s
  | .EDW_CTRL => if bit w 0 then sealWrite s else some s
  | .GATE_CTRL => some (if old.flag Reg.GATE_CTRL_RUN == s.flag Reg.GATE_CTRL_RUN then s else sendGateState s)
  | .SLC_CMD => some (if bit w 31 then slcCommand (bits w 8 3) (bits w 0 8) s else s)
  | .SLC_KEY | .SLC_RBASE_LO | .SLC_RBASE_HI | .SLC_RING | .SLC_VEC | .SLC_VWR =>
    if (s.slice i).st == .free || (s.slice i).st == .closed then some s else none
  | .ARBW_CTRL => some (arbSync (21 + i) s)
  | .H_LOAD_CTRL => loadCtrl .host w s
  | .H_PWR_REQ => some (if bit w 31 then hostPwrRequest (bits w 0 5) (bit w 5) s else s)
  | .H_RST_REQ => if bit w 31 then hostResetRequest (bits w 0 3) (bits w 3 6) s else some s
  | .PG_CONS => some (consWritten i (BitVec.ofNat 32 w) s)
  | .PG_ARM => some (if bit w 0 then armWritten i s else s)
  | .PG_VW => some (vwWritten i (BitVec.ofNat 32 w) s)
  | _ => some s

/-- The W1 field of CTRL takes its first write, and keeps its value from then on: the state, and whether the write would
change it (R487). -/
def w1Part (p : Spot) (w : Nat) (s : State) : State × Bool :=
  if !p.row.has .w1 then (s, false)
  else
    let fs := p.row.flds.filter (·.acc == .w1)
    if tget false s.once p.off then (s, fs.any fun f => s.rd (f.at p.off) != bits w f.lo f.w)
    else
      let s := s.each fs fun f s => s.wr (f.at p.off) (bits w f.lo f.w)
      ({ s with once := tset false s.once p.off true }, false)

/-- A word write at an active word, which reaches its W1 fields or not (R483, R487, R491). -/
def writeActive (a : Access) (addr : Nat) (p : Spot) (w : Word) (reachW1 : Bool) (s : State) : WrOut :=
  let refused (s : State) : WrOut := .err 6 s
  if sealedWord p.row.id then .err 5 (noteLocked a addr s)
  else if p.row.id = .LOAD_DATA then
    if canTake .field s then .held (loadWord .field a w s) else refused s
  else if p.row.id = .H_LOAD_DATA then
    if canTake .host s then .held (loadWord .host a w s) else refused s
  else
    match stagePart a p w s with
    | (s', false) => refused s'
    | (s', true) =>
      let (s', clash) := if reachW1 then w1Part p w.toNat s' else (s', false)
      match (effect1 a p w.toNat s (putFields p w.toNat s')).bind (effect2 p w.toNat s) with
      | none => refused s
      | some t => if clash then .err 5 (noteLocked a addr t) else .done t

/-- The word that an alias write stands for: the present value with bit k replaced (R492). -/
def aliasWord (s : State) (a : Access) (p : Spot) (k : Nat) (v : Bool) : Nat :=
  let l := live s a.master p
  let x := wordOf (p.row.flds.filter fun f => f.acc == .rw || f.acc == .w1) (fieldValue s l p) + stagedWord s a p
  if bit x k == v then x else if v then x + 2 ^ k else x - 2 ^ k

/-- A write that no cause up to NOWRITE turns away. -/
def performWrite (a : Access) (addr : Nat) (p : Spot) (w : Word) (s : State) : WrOut :=
  match p.view with
  | .active => writeActive a addr p w true s
  | .staged => match stagePart a p w s with
    | (s, true) => .done s
    | (s, false) => .err 6 s
  | .alias_ k =>
    let v := w.getLsbD 0
    if p.row.id = .COMPLETE then .err 6 s
    else match p.row.fieldAt k with
      | none => .done s
      | some f =>
        if f.acc = .rc then
          let x := s.rd (f.at p.off)
          .done (if !v && bit x (k - f.lo) then s.wr (f.at p.off) (x - 2 ^ (k - f.lo)) else s)
        else writeActive a addr p (BitVec.ofNat 32 (aliasWord s a p k v)) (f.acc == .w1) s

/-- A debug write to the Edelweiss block (R443). -/
def edwDebug (a : Access) (addr : Nat) : Bool := a.debug && addr / 0x1000 == 0x21

/-- A register write: its effect and its response (R153, R443, R477 to R496, R521). -/
def writeReg (a : Access) (addr : Nat) (w : Word) (s : State) : State :=
  if !portOpen s a then s
  else
    let s := if edwDebug a addr && s.on 23 && !masterFaulted s a then edwDebugLog (addr % 0x1000) s else s
    match writeCause s a addr, locate s a.via addr with
    | some c, _ => busError a addr c true s
    | none, none => s
    | none, some p =>
      if edwDebug a addr then busError a addr (if sealedWord p.row.id then 5 else 6) true s
      else if masterFaulted s a then
        if sealedWord p.row.id then busError a addr 5 true (noteLocked a addr s) else busError a addr 6 true s
      else match performWrite a addr p w s with
        | .done s => respond a true 0 none s
        | .held s => s
        | .err c s => busError a addr c true s

end Sys2Proof.Machine
end

