-- ==== Sys2Proof/Machine/Commands.lean ====
section
/-! DEFINITION. The commands that are accesses of a register port, each one read or write at its register's place. -/

namespace Sys2Proof.Machine

/-- A read of an address. -/
def doRead (ok : Bool) (a : Access) (addr : Nat) (s : State) : Host.Outcome State Fault Refusal :=
  runWf ok (readReg a addr .clean) s

/-- A write of a word to an address. -/
def doWrite (ok : Bool) (a : Access) (addr w : Nat) (s : State) : Host.Outcome State Fault Refusal :=
  runWf ok (writeReg a addr (BitVec.ofNat 32 w)) s

/-- The RW fields of an active word of the field die as they stand. -/
def presentRW (s : State) (off : Nat) : Nat :=
  match findReg off with
  | some (r, _, _) => wordOf (r.flds.filter (·.acc == .rw)) fun f => s.rd (f.at off)
  | none => 0

/-- A write of a word's RW fields as they stand, but for some bits cleared and some set. -/
def doChange (ok : Bool) (a : Access) (addr clear set : Nat) (s : State) : Host.Outcome State Fault Refusal :=
  doWrite ok a addr (presentRW s addr &&& (0xFFFFFFFF ^^^ clear) ||| set) s

/-- The block of core n (R153). -/
def coreBlock (n : Fin 64) : Nat := 0x3000 + 0x40 * n.val

-- delivery and Campions

/-- CLAIM_PEEK. A read of CLAIM through the register port claims nothing (R153). -/
def execClaimPeek (a : Access) (n : Fin 64) (s : State) : Host.Outcome State Fault Refusal :=
  doRead a.atPort a (coreBlock n) s
/-- THRESH_WRITE (R167). -/
def execThreshWrite (a : Access) (n : Fin 64) (w : Word) (s : State) : Host.Outcome State Fault Refusal :=
  doWrite (a.atCore n) a (coreBlock n + 8) w.toNat s
/-- PREDICTOR_RESET. A write to PREWARM, PW_SRC or PW_PER (R160). -/
def execPredictorReset (a : Access) (n : Fin 64) (i : Fin 2) (r : PredReg) (w : Word) (s : State) :
    Host.Outcome State Fault Refusal :=
  doWrite (a.atCore n) a (coreBlock n + match r with
    | .prewarm => 0x20
    | .pwSrc => 0x24 + 12 * i.val
    | .pwPer => 0x28 + 12 * i.val) w.toNat s
/-- PW_NEXT_WRITE (R161). -/
def execPwNextWrite (a : Access) (n : Fin 64) (i : Fin 2) (w : Word) (s : State) : Host.Outcome State Fault Refusal :=
  doWrite (a.atCore n) a (coreBlock n + 0x2C + 12 * i.val) w.toNat s
/-- CAMP_RFAIL_GO. Software declares a Campion failed (R137). -/
def execCampRfailGo (a : Access) (r : Fin 4) (loc : BitVec 4) (s : State) : Host.Outcome State Fault Refusal :=
  doWrite a.atPort a (0x804 + 16 * r.val) (loc.toNat + 2 ^ 31) s

-- time

/-- TIME_LO_READ. The high word is latched for the reading master (R177, R391). -/
def execTimeLoRead (a : Access) (s : State) : Host.Outcome State Fault Refusal := doRead a.atWindow a 0x1000 s
/-- CAPTURE_READ. Word 0 of a capture is read (R190). -/
def execCaptureRead (a : Access) (i : Fin 16) (s : State) : Host.Outcome State Fault Refusal :=
  doRead a.atPort a (0x1040 + 8 * i.val) s
/-- EPOCH_PERIOD_WRITE (R195). -/
def execEpochPeriodWrite (a : Access) (w : Word) (s : State) : Host.Outcome State Fault Refusal :=
  doWrite a.atPort a 0x1008 w.toNat s

-- links and locks

/-- LNK_ENABLE. LNK_CTRL.EN is written 1 (R261). -/
def execLnkEnable (a : Access) (p : Fin 4) (s : State) : Host.Outcome State Fault Refusal :=
  doChange a.atPort a (0xE000 + 0x100 * p.val) 0 1 s
/-- LNK_DISABLE. LNK_CTRL.EN is written 0 (R261, R285). -/
def execLnkDisable (a : Access) (p : Fin 4) (s : State) : Host.Outcome State Fault Refusal :=
  doChange a.atPort a (0xE000 + 0x100 * p.val) 1 0 s
/-- LNK_DOWN_COMMAND. LNK_CTRL.DOWN is written 1 (R285). -/
def execLnkDownCommand (a : Access) (p : Fin 4) (s : State) : Host.Outcome State Fault Refusal :=
  doChange a.atPort a (0xE000 + 0x100 * p.val) 0 4 s
/-- LOCK_ACQUIRE. A read of LOCK[i] (R321). -/
def execLockAcquire (a : Access) (i : Fin 64) (s : State) : Host.Outcome State Fault Refusal :=
  doRead a.atPort a (0xF000 + 4 * i.val) s
/-- LOCK_REL (R321, R322). -/
def execLockRel (a : Access) (i : Fin 64) (s : State) : Host.Outcome State Fault Refusal :=
  doWrite a.atPort a (0xF000 + 4 * i.val) (2 ^ 16) s
/-- LOCK_ABORT (R321, R322). -/
def execLockAbort (a : Access) (i : Fin 64) (s : State) : Host.Outcome State Fault Refusal :=
  doWrite a.atPort a (0xF000 + 4 * i.val) (2 ^ 17) s
/-- LOCK_BREAK (R323). -/
def execLockBreak (a : Access) (i : Fin 64) (s : State) : Host.Outcome State Fault Refusal :=
  doWrite a.atPort a (0xF000 + 4 * i.val) (2 ^ 18) s

-- the loader

/-- LOAD_START (R346). -/
def execLoadStart (a : Access) (persist : Bool) (s : State) : Host.Outcome State Fault Refusal :=
  doWrite a.atWindow a 0x20000 (1 + 4 * b2n persist) s
/-- LOAD_ABORT, with PERSIST as it stands (R346). -/
def execLoadAbort (a : Access) (s : State) : Host.Outcome State Fault Refusal :=
  doWrite a.atWindow a 0x20000 (2 + (presentRW s (if a.host then 0x120000 else 0x20000))) s
/-- LOAD_DATA (R342). -/
def execLoadData (a : Access) (w : Word) (s : State) : Host.Outcome State Fault Refusal :=
  doWrite a.atWindow a 0x20004 w.toNat s
/-- LOAD_DATA_OVERRUN. A write that the port has held for its bound is answered with a bus error, and the load ends
(R342). -/
def execLoadDataOverrun (a : Access) (s : State) : Host.Outcome State Fault Refusal :=
  runWf a.atWindow (overrun (if a.host then .host else .field)) s
/-- DT_GO (R349). -/
def execDtGo (a : Access) (r : Fin 4) (hold : Bool) (s : State) : Host.Outcome State Fault Refusal :=
  doWrite a.atPort a 0x20020 (r.val + 4 * b2n hold + 8) s

-- the barrier and the host gate

/-- BAR_ENABLE. BAR_CTRL.EN is written 1 (R375). -/
def execBarEnable (a : Access) (s : State) : Host.Outcome State Fault Refusal := doChange a.atPort a 0xF600 0 1 s
/-- BAR_DISABLE. BAR_CTRL.EN is written 0 (R375, R383). -/
def execBarDisable (a : Access) (s : State) : Host.Outcome State Fault Refusal := doChange a.atPort a 0xF600 1 0 s
/-- SLC_CREATE, with the function's PASID Enable as the surroundings hold it (R394, R395). -/
def execSlcCreate (a : Access) (i : BitVec 8) (pasidEn : Bool) (s : State) : Host.Outcome State Fault Refusal :=
  runWf a.atBar0 (fun s =>
    writeReg a 0x110 (BitVec.ofNat 32 (i.toNat + 0x100 + 2 ^ 31)) { s with gate := { s.gate with pasidEn := pasidEn } }) s
/-- SLC_OPEN (R394). -/
def execSlcOpen (a : Access) (i : BitVec 8) (s : State) : Host.Outcome State Fault Refusal :=
  doWrite a.atBar0 a 0x110 (i.toNat + 0x200 + 2 ^ 31) s
/-- SLC_RESET (R394, R410). -/
def execSlcReset (a : Access) (i : BitVec 8) (s : State) : Host.Outcome State Fault Refusal :=
  doWrite a.atBar0 a 0x110 (i.toNat + 0x300 + 2 ^ 31) s
/-- SLC_DESTROY (R394). -/
def execSlcDestroy (a : Access) (i : BitVec 8) (s : State) : Host.Outcome State Fault Refusal :=
  doWrite a.atBar0 a 0x110 (i.toNat + 0x400 + 2 ^ 31) s
/-- PG_CONS_WRITE (R400). -/
def execPgConsWrite (a : Access) (i : BitVec 8) (w : Word) (s : State) : Host.Outcome State Fault Refusal :=
  doWrite a.atBar2 a (0x1000 * i.toNat + 4) w.toNat s
/-- PG_ARM_WRITE (R407). -/
def execPgArmWrite (a : Access) (i : BitVec 8) (w : Word) (s : State) : Host.Outcome State Fault Refusal :=
  doWrite a.atBar2 a (0x1000 * i.toNat + 8) w.toNat s
/-- PG_VW_WRITE (R409). -/
def execPgVwWrite (a : Access) (i : BitVec 8) (w : Word) (s : State) : Host.Outcome State Fault Refusal :=
  doWrite a.atBar2 a (0x1000 * i.toNat + 0x10) w.toNat s
/-- HOST_GATE_SOFT_RESET. RST_REQ KIND 4 of the host gate (R475). -/
def execHostGateSoftReset (a : Access) (s : State) : Host.Outcome State Fault Refusal :=
  doWrite a.atBar0 a 0xF590 (4 + 2 ^ 31) s
/-- SLC_DIRTY_READ (R408). -/
def execSlcDirtyRead (a : Access) (i : BitVec 8) (w : Fin 17) (s : State) : Host.Outcome State Fault Refusal :=
  doRead a.atBar0 a (0x22000 + 0x80 * i.toNat + 4 * w.val) s

-- Edelweiss, power and reset

/-- EDW_CTRL_SEAL (R435, R440). -/
def execEdwCtrlSeal (a : Access) (s : State) : Host.Outcome State Fault Refusal := doWrite a.atPort a 0x21000 1 s
/-- EDW_DEBUG_WRITE. A write with reg_dbg = 1 is refused and logged (R443). -/
def execEdwDebugWrite (a : Access) (off : BitVec 12) (w : Word) (s : State) : Host.Outcome State Fault Refusal :=
  doWrite (a.atPort && a.dbg) a (0x21000 + off.toNat) w.toNat s
/-- EDW_LATCHED_READ (R449). -/
def execEdwLatchedRead (a : Access) (off : BitVec 12) (s : State) : Host.Outcome State Fault Refusal :=
  doRead a.atPort a (0x21000 + off.toNat) s
/-- PWR_REQ_WAKE (R454, R474). -/
def execPwrReqWake (a : Access) (d : BitVec 5) (s : State) : Host.Outcome State Fault Refusal :=
  doWrite a.atWindow a 0xF560 (d.toNat + 32 + 2 ^ 31) s
/-- PWR_REQ_OFF (R454, R474). -/
def execPwrReqOff (a : Access) (d : BitVec 5) (s : State) : Host.Outcome State Fault Refusal :=
  doWrite a.atWindow a 0xF560 (d.toNat + 2 ^ 31) s
/-- SLEEP_GO (R459). -/
def execSleepGo (a : Access) (s : State) : Host.Outcome State Fault Refusal := doWrite a.atPort a 0xF580 1 s

-- registers at large

/-- REGISTER_WRITE (R478 to R491). -/
def execRegisterWrite (a : Access) (addr : BitVec 20) (w : Word) (s : State) : Host.Outcome State Fault Refusal :=
  doWrite (a.inBlock addr.toNat) a addr.toNat w.toNat s
/-- STAGED_VIEW_WRITE (R490). -/
def execStagedViewWrite (a : Access) (off : BitVec 16) (w : Word) (s : State) : Host.Outcome State Fault Refusal :=
  doWrite a.atWindow a (0x30000 + off.toNat) w.toNat s
/-- BIT_ALIAS_WRITE, to bit k of the word at an offset (R492). -/
def execBitAliasWrite (a : Access) (off : BitVec 14) (k : Fin 32) (v : Bool) (s : State) : Host.Outcome State Fault Refusal :=
  doWrite (a.atWindow && off.toNat % 4 == 0) a (0x40000 + 32 * off.toNat + 4 * k.val) (b2n v) s
/-- REGISTER_READ, with the outcome of the check of a stored word (R481, R483, R485, R488). -/
def execRegisterRead (a : Access) (addr : BitVec 20) (ecc : Ecc) (s : State) : Host.Outcome State Fault Refusal :=
  runWf (a.inBlock addr.toNat) (readReg a addr.toNat ecc) s

-- trace and test

/-- TRACE_DATA_READ (R502). -/
def execTraceDataRead (a : Access) (s : State) : Host.Outcome State Fault Refusal := doRead a.atPort a 0x20044 s
/-- TRACE_RDPTR_WRITE (R502). -/
def execTraceRdptrWrite (a : Access) (w : Word) (s : State) : Host.Outcome State Fault Refusal :=
  doWrite a.atPort a 0x20050 w.toNat s
/-- TRACE_ENABLE. TRACE_CTRL.EN is written 1 (R504). -/
def execTraceEnable (a : Access) (s : State) : Host.Outcome State Fault Refusal := doChange a.atPort a 0x20040 0 1 s
/-- TEST_INJECT. TEST_CTRL is written with INJ = 1 and an output (R509). -/
def execTestInject (a : Access) (o : BitVec 5) (s : State) : Host.Outcome State Fault Refusal :=
  doChange a.atPort a 0x20060 0x7C (2 + 4 * o.toNat) s
/-- LTEST_START. TEST_CTRL.LTEST is written 1 (R510). -/
def execLtestStart (a : Access) (s : State) : Host.Outcome State Fault Refusal := doChange a.atPort a 0x20060 0 0x200 s
/-- LTEST_STOP. TEST_CTRL.LTEST is written 0 (R511). -/
def execLtestStop (a : Access) (s : State) : Host.Outcome State Fault Refusal := doChange a.atPort a 0x20060 0x200 0 s

end Sys2Proof.Machine
end

