-- ==== Sys2Proof/Machine/Dispatch.lean ====
section
/-! DEFINITION. The dispatch of the block: one arm per command, each a direct call of its meaning. -/

namespace Sys2Proof.Machine

def exec (i : Instr) (s : State) : Host.Outcome State Fault Refusal :=
  match i with
  | .wiredInputEdge n level data odd width => Sys2Proof.Machine.execWiredInputEdge n level data odd width s
  | .levelReraise n => Sys2Proof.Machine.execLevelReraise n s
  | .windowOpen n => Sys2Proof.Machine.execWindowOpen n s
  | .messageWrite w target vec payload => Sys2Proof.Machine.execMessageWrite w target vec payload s
  | .offer => Sys2Proof.Machine.execOffer s
  | .firnRecordWrite => Sys2Proof.Machine.execFirnRecordWrite s
  | .accept => Sys2Proof.Machine.execAccept s
  | .pairMirror m => Sys2Proof.Machine.execPairMirror m s
  | .pairAckRecorded m => Sys2Proof.Machine.execPairAckRecorded m s
  | .pairAckRelease m => Sys2Proof.Machine.execPairAckRelease m s
  | .pairAckReleased m => Sys2Proof.Machine.execPairAckReleased m s
  | .pairAckResyncEnd m => Sys2Proof.Machine.execPairAckResyncEnd m s
  | .pairTimeout => Sys2Proof.Machine.execPairTimeout s
  | .remoteVectorWrite m => Sys2Proof.Machine.execRemoteVectorWrite m s
  | .remoteWriteResponse m => Sys2Proof.Machine.execRemoteWriteResponse m s
  | .schedulerForward ecc => Sys2Proof.Machine.execSchedulerForward ecc s
  | .spillBlockWrite k => Sys2Proof.Machine.execSpillBlockWrite k s
  | .moraineRefill k err => Sys2Proof.Machine.execMoraineRefill k err s
  | .arbiterDecide a => Sys2Proof.Machine.execArbiterDecide a s
  | .arbiterRevoke a => Sys2Proof.Machine.execArbiterRevoke a s
  | .arbiterWithdraw a revoked => Sys2Proof.Machine.execArbiterWithdraw a revoked s
  | .arbiterRefill a => Sys2Proof.Machine.execArbiterRefill a s
  | .pendingAdmit n parity => Sys2Proof.Machine.execPendingAdmit n parity s
  | .vectorCacheFill k ecc => Sys2Proof.Machine.execVectorCacheFill k ecc s
  | .cifTake n => Sys2Proof.Machine.execCifTake n s
  | .claim n => Sys2Proof.Machine.execClaim n s
  | .claimPeek a n => Sys2Proof.Machine.execClaimPeek a n s
  | .complete n w => Sys2Proof.Machine.execComplete n w s
  | .threshWrite a n w => Sys2Proof.Machine.execThreshWrite a n w s
  | .warmStart n k => Sys2Proof.Machine.execWarmStart n k s
  | .predictorMiss n k => Sys2Proof.Machine.execPredictorMiss n k s
  | .predictorReset a n k r w => Sys2Proof.Machine.execPredictorReset a n k r w s
  | .pwNextWrite a n k w => Sys2Proof.Machine.execPwNextWrite a n k w s
  | .cifHaltRise n => Sys2Proof.Machine.execCifHaltRise n s
  | .cifHaltFall n => Sys2Proof.Machine.execCifHaltFall n s
  | .coreUnitReset n viaPin => Sys2Proof.Machine.execCoreUnitReset n viaPin s
  | .campionDispatch n ecc => Sys2Proof.Machine.execCampionDispatch n ecc s
  | .lde n => Sys2Proof.Machine.execLde n s
  | .lda n rdata err parity => Sys2Proof.Machine.execLda n rdata err parity s
  | .sta n parity => Sys2Proof.Machine.execSta n parity s
  | .staN n err parity => Sys2Proof.Machine.execStaN n err parity s
  | .addi n parity => Sys2Proof.Machine.execAddi n parity s
  | .sub n parity => Sys2Proof.Machine.execSub n parity s
  | .clamp n parity => Sys2Proof.Machine.execClamp n parity s
  | .cmp n parity => Sys2Proof.Machine.execCmp n parity s
  | .br n => Sys2Proof.Machine.execBr n s
  | .wait n => Sys2Proof.Machine.execWait n s
  | .waitEnd n => Sys2Proof.Machine.execWaitEnd n s
  | .emit n parity => Sys2Proof.Machine.execEmit n parity s
  | .emitAnswer n => Sys2Proof.Machine.execEmitAnswer n s
  | .emitLateAnswer n => Sys2Proof.Machine.execEmitLateAnswer n s
  | .irq n parity => Sys2Proof.Machine.execIrq n parity s
  | .ret n parity => Sys2Proof.Machine.execRet n parity s
  | .reflexCommit r errs => Sys2Proof.Machine.execReflexCommit r errs s
  | .campionWatchdog n => Sys2Proof.Machine.execCampionWatchdog n s
  | .campRfailGo a r loc => Sys2Proof.Machine.execCampRfailGo a r loc s
  | .campionUnitReset n => Sys2Proof.Machine.execCampionUnitReset n s
  | .syncInterval sub => Sys2Proof.Machine.execSyncInterval sub s
  | .syncReq p frame sub2 sub3 => Sys2Proof.Machine.execSyncReq p frame sub2 sub3 s
  | .syncRsp p frame sub4 => Sys2Proof.Machine.execSyncRsp p frame sub4 s
  | .alignmentTimeout => Sys2Proof.Machine.execAlignmentTimeout s
  | .trimCycle => Sys2Proof.Machine.execTrimCycle s
  | .timeLoRead a => Sys2Proof.Machine.execTimeLoRead a s
  | .capture k rising odd width => Sys2Proof.Machine.execCapture k rising odd width s
  | .captureRead a k => Sys2Proof.Machine.execCaptureRead a k s
  | .thaw during => Sys2Proof.Machine.execThaw during s
  | .epochPeriodWrite a w => Sys2Proof.Machine.execEpochPeriodWrite a w s
  | .thaw0 during => Sys2Proof.Machine.execThaw0 during s
  | .timeUnitReload u => Sys2Proof.Machine.execTimeUnitReload u s
  | .lnkEnable a p => Sys2Proof.Machine.execLnkEnable a p s
  | .lnkDisable a p => Sys2Proof.Machine.execLnkDisable a p s
  | .lnkDownCommand a p => Sys2Proof.Machine.execLnkDownCommand a p s
  | .laneEnergyDetect p => Sys2Proof.Machine.execLaneEnergyDetect p s
  | .laneLockDone p => Sys2Proof.Machine.execLaneLockDone p s
  | .alignDone p => Sys2Proof.Machine.execAlignDone p s
  | .ident p content => Sys2Proof.Machine.execIdent p content s
  | .creditMarker p => Sys2Proof.Machine.execCreditMarker p s
  | .linkUp p => Sys2Proof.Machine.execLinkUp p s
  | .trainingTimeout p => Sys2Proof.Machine.execTrainingTimeout p s
  | .downIdleEnd p => Sys2Proof.Machine.execDownIdleEnd p s
  | .data p frame => Sys2Proof.Machine.execData p frame s
  | .ack p frame => Sys2Proof.Machine.execAck p frame s
  | .nak p frame => Sys2Proof.Machine.execNak p frame s
  | .ackTimer p => Sys2Proof.Machine.execAckTimer p s
  | .nakTimeout p => Sys2Proof.Machine.execNakTimeout p s
  | .replayTimeout p => Sys2Proof.Machine.execReplayTimeout p s
  | .fecBlockDecode p frames parity => Sys2Proof.Machine.execFecBlockDecode p frames parity s
  | .laneLockLost p lane => Sys2Proof.Machine.execLaneLockLost p lane s
  | .reportSend p => Sys2Proof.Machine.execReportSend p s
  | .report p frame => Sys2Proof.Machine.execReport p frame s
  | .reportTimeout p => Sys2Proof.Machine.execReportTimeout p s
  | .settleExpire p => Sys2Proof.Machine.execSettleExpire p s
  | .auditVisit lost => Sys2Proof.Machine.execAuditVisit lost s
  | .handIn r => Sys2Proof.Machine.execHandIn r s
  | .replicaComplete => Sys2Proof.Machine.execReplicaComplete s
  | .fenceDone m => Sys2Proof.Machine.execFenceDone m s
  | .fenceConfirm m => Sys2Proof.Machine.execFenceConfirm m s
  | .custodySettleExpire idx => Sys2Proof.Machine.execCustodySettleExpire idx s
  | .fenceRestore m => Sys2Proof.Machine.execFenceRestore m s
  | .ageProbe idx => Sys2Proof.Machine.execAgeProbe idx s
  | .fenceProbe m => Sys2Proof.Machine.execFenceProbe m s
  | .fenceAnswer m => Sys2Proof.Machine.execFenceAnswer m s
  | .fenceActing m => Sys2Proof.Machine.execFenceActing m s
  | .fenceLoss m => Sys2Proof.Machine.execFenceLoss m s
  | .partnerNoRouteTimeout o => Sys2Proof.Machine.execPartnerNoRouteTimeout o s
  | .takeoverSettleExpire => Sys2Proof.Machine.execTakeoverSettleExpire s
  | .migrationDrainEnd slot => Sys2Proof.Machine.execMigrationDrainEnd slot s
  | .fenceMigrate u => Sys2Proof.Machine.execFenceMigrate u s
  | .fenceIntake u => Sys2Proof.Machine.execFenceIntake u s
  | .migrationOldTargetEmpty u origin source => Sys2Proof.Machine.execMigrationOldTargetEmpty u origin source s
  | .fenceRelease u => Sys2Proof.Machine.execFenceRelease u s
  | .fenceMigrated m => Sys2Proof.Machine.execFenceMigrated m s
  | .lockAcquire a k => Sys2Proof.Machine.execLockAcquire a k s
  | .lockRel a k => Sys2Proof.Machine.execLockRel a k s
  | .lockAbort a k => Sys2Proof.Machine.execLockAbort a k s
  | .lockBreak a k => Sys2Proof.Machine.execLockBreak a k s
  | .lockTimeout k => Sys2Proof.Machine.execLockTimeout k s
  | .masterFault m level => Sys2Proof.Machine.execMasterFault m level s
  | .firnScrub ecc => Sys2Proof.Machine.execFirnScrub ecc s
  | .loadStart a persist => Sys2Proof.Machine.execLoadStart a persist s
  | .loadAbort a => Sys2Proof.Machine.execLoadAbort a s
  | .loadData a w => Sys2Proof.Machine.execLoadData a w s
  | .loadDataOverrun a => Sys2Proof.Machine.execLoadDataOverrun a s
  | .loadVerifyDone side => Sys2Proof.Machine.execLoadVerifyDone side s
  | .loadRestoreDone side => Sys2Proof.Machine.execLoadRestoreDone side s
  | .persistEraseDone => Sys2Proof.Machine.execPersistEraseDone s
  | .flashFail => Sys2Proof.Machine.execFlashFail s
  | .tableCopyEnd t => Sys2Proof.Machine.execTableCopyEnd t s
  | .dtGo a r hold => Sys2Proof.Machine.execDtGo a r hold s
  | .deepThawDrainEnd => Sys2Proof.Machine.execDeepThawDrainEnd s
  | .deepThawCopyEnd => Sys2Proof.Machine.execDeepThawCopyEnd s
  | .rimeCompare active reference upset => Sys2Proof.Machine.execRimeCompare active reference upset s
  | .rdpErase level => Sys2Proof.Machine.execRdpErase level s
  | .barEnable a => Sys2Proof.Machine.execBarEnable a s
  | .barDisable a => Sys2Proof.Machine.execBarDisable a s
  | .barLanesLocked d => Sys2Proof.Machine.execBarLanesLocked d s
  | .barLaneLockLost d lane => Sys2Proof.Machine.execBarLaneLockLost d lane s
  | .barSilenceTimeout d => Sys2Proof.Machine.execBarSilenceTimeout d s
  | .barHelloTimer d => Sys2Proof.Machine.execBarHelloTimer d s
  | .hello d p => Sys2Proof.Machine.execHello d p s
  | .gateState p => Sys2Proof.Machine.execGateState p s
  | .fieldState p => Sys2Proof.Machine.execFieldState p s
  | .credit p => Sys2Proof.Machine.execCredit p s
  | .event p => Sys2Proof.Machine.execEvent p s
  | .written p => Sys2Proof.Machine.execWritten p s
  | .discarded p => Sys2Proof.Machine.execDiscarded p s
  | .vwrite p => Sys2Proof.Machine.execVwrite p s
  | .vresult p => Sys2Proof.Machine.execVresult p s
  | .barSyncReq p => Sys2Proof.Machine.execBarSyncReq p s
  | .barSyncRsp p => Sys2Proof.Machine.execBarSyncRsp p s
  | .timeTrim p => Sys2Proof.Machine.execTimeTrim p s
  | .barThaw p => Sys2Proof.Machine.execBarThaw p s
  | .meter p => Sys2Proof.Machine.execMeter p s
  | .meterAck p => Sys2Proof.Machine.execMeterAck p s
  | .sealRecord p => Sys2Proof.Machine.execSeal p s
  | .sliceStop p => Sys2Proof.Machine.execSliceStop p s
  | .sliceDrained p => Sys2Proof.Machine.execSliceDrained p s
  | .sliceGo p => Sys2Proof.Machine.execSliceGo p s
  | .rxcred d p => Sys2Proof.Machine.execRxcred d p s
  | .rxcredTimer d => Sys2Proof.Machine.execRxcredTimer d s
  | .echoReq d p => Sys2Proof.Machine.execEchoReq d p s
  | .echoRsp d p => Sys2Proof.Machine.execEchoRsp d p s
  | .meterReq p => Sys2Proof.Machine.execMeterReq p s
  | .sealReq p => Sys2Proof.Machine.execSealReq p s
  | .barEventRepeat => Sys2Proof.Machine.execBarEventRepeat s
  | .vwriteRepeat => Sys2Proof.Machine.execVwriteRepeat s
  | .slcCreate a sl pasidEn => Sys2Proof.Machine.execSlcCreate a sl pasidEn s
  | .slcOpen a sl => Sys2Proof.Machine.execSlcOpen a sl s
  | .slcReset a sl => Sys2Proof.Machine.execSlcReset a sl s
  | .slcDestroy a sl => Sys2Proof.Machine.execSlcDestroy a sl s
  | .sliceResetTimeout sl => Sys2Proof.Machine.execSliceResetTimeout sl s
  | .pgConsWrite a sl w => Sys2Proof.Machine.execPgConsWrite a sl w s
  | .pgArmWrite a sl w => Sys2Proof.Machine.execPgArmWrite a sl w s
  | .pgVwWrite a sl w => Sys2Proof.Machine.execPgVwWrite a sl w s
  | .ringRecordWrite w => Sys2Proof.Machine.execRingRecordWrite w s
  | .hostReset => Sys2Proof.Machine.execHostReset s
  | .hostGateSoftReset a => Sys2Proof.Machine.execHostGateSoftReset a s
  | .slcDirtyRead a sl w => Sys2Proof.Machine.execSlcDirtyRead a sl w s
  | .meterRecord => Sys2Proof.Machine.execMeterRecord s
  | .meterSend c => Sys2Proof.Machine.execMeterSend c s
  | .meterAckTimeout c => Sys2Proof.Machine.execMeterAckTimeout c s
  | .sealInterval => Sys2Proof.Machine.execSealInterval s
  | .edwCtrlSeal a => Sys2Proof.Machine.execEdwCtrlSeal a s
  | .sealGapExpire => Sys2Proof.Machine.execSealGapExpire s
  | .sealMacDone => Sys2Proof.Machine.execSealMacDone s
  | .sealProgramDone => Sys2Proof.Machine.execSealProgramDone s
  | .edwRestoreDone => Sys2Proof.Machine.execEdwRestoreDone s
  | .edwDebugWrite a off w => Sys2Proof.Machine.execEdwDebugWrite a off w s
  | .edwLatchedRead a off => Sys2Proof.Machine.execEdwLatchedRead a off s
  | .pwrReqWake a d => Sys2Proof.Machine.execPwrReqWake a d s
  | .pwrReqOff a d => Sys2Proof.Machine.execPwrReqOff a d s
  | .wakeGrant side => Sys2Proof.Machine.execWakeGrant side s
  | .pwrGoodRise side d => Sys2Proof.Machine.execPwrGoodRise side d s
  | .domainReleaseEnd side d => Sys2Proof.Machine.execDomainReleaseEnd side d s
  | .domainRampFail side d => Sys2Proof.Machine.execDomainRampFail side d s
  | .pwrGoodFall side d => Sys2Proof.Machine.execPwrGoodFall side d s
  | .sleepGo a => Sys2Proof.Machine.execSleepGo a s
  | .sleepEntryEdge => Sys2Proof.Machine.execSleepEntryEdge s
  | .pwrWake => Sys2Proof.Machine.execPwrWake s
  | .sleepMakeup edges => Sys2Proof.Machine.execSleepMakeup edges s
  | .rstCluster k => Sys2Proof.Machine.execRstCluster k s
  | .rstRegion r => Sys2Proof.Machine.execRstRegion r s
  | .rstSoftInstance => Sys2Proof.Machine.execRstSoftInstance s
  | .rstDie => Sys2Proof.Machine.execRstDie s
  | .rstPackage => Sys2Proof.Machine.execRstPackage s
  | .rstSystem => Sys2Proof.Machine.execRstSystem s
  | .powerOn => Sys2Proof.Machine.execPowerOn s
  | .tclkLock => Sys2Proof.Machine.execTclkLock s
  | .firnInitEnd errs bistFail => Sys2Proof.Machine.execFirnInitEnd errs bistFail s
  | .startupLoadEnd => Sys2Proof.Machine.execStartupLoadEnd s
  | .linkPhaseEnd => Sys2Proof.Machine.execLinkPhaseEnd s
  | .registerWrite a addr w => Sys2Proof.Machine.execRegisterWrite a addr w s
  | .stagedViewWrite a off w => Sys2Proof.Machine.execStagedViewWrite a off w s
  | .bitAliasWrite a off bit v => Sys2Proof.Machine.execBitAliasWrite a off bit v s
  | .traceDataRead a => Sys2Proof.Machine.execTraceDataRead a s
  | .traceRdptrWrite a w => Sys2Proof.Machine.execTraceRdptrWrite a w s
  | .traceEnable a => Sys2Proof.Machine.execTraceEnable a s
  | .testInject a o => Sys2Proof.Machine.execTestInject a o s
  | .ltestStart a => Sys2Proof.Machine.execLtestStart a s
  | .ltestStop a => Sys2Proof.Machine.execLtestStop a s
  | .registerRead a addr ecc => Sys2Proof.Machine.execRegisterRead a addr ecc s
  | .barFrameReject d frame => Sys2Proof.Machine.execBarFrameReject d frame s
  | .linkFrameReject p frame => Sys2Proof.Machine.execLinkFrameReject p frame s
  | .barTransmitSlot d => Sys2Proof.Machine.execBarTransmitSlot d s
  | .masterPortWriteResponse trace err => Sys2Proof.Machine.execMasterPortWriteResponse trace err s
  | .persistWordProgrammed => Sys2Proof.Machine.execPersistWordProgrammed s
  | .resetRelease idPkg idDie testEn rdp => Sys2Proof.Machine.execResetRelease idPkg idDie testEn rdp s
  | .bscModeChange level => Sys2Proof.Machine.execBscModeChange level s
  | .checkerLocked p lane errs => Sys2Proof.Machine.execCheckerLocked p lane errs s
  | .checkerLockLost p lane errs => Sys2Proof.Machine.execCheckerLockLost p lane errs s

end Sys2Proof.Machine
end

