-- ==== Sys2Proof/Safety.lean ====
section
/-! DEFINITION. What the claims are stated in: the parts of State and what an operation leaves alone. -/

namespace Sys2Proof.Machine

/-- The parts of State, one per field. -/
inductive Part where
  | pending | out | fresh | shape | pins | regs | staged | once | time | epoch | src | yar | acc | firn | xb | rq | arb
  | core | pred | clus | camp | seg | lnk | audit | rec_ | lock | img | rime | pwr | su | bar | hostq | gate | edw | trc
  | tst
deriving DecidableEq, Repr

/-- A part is the same in two states. -/
def Part.same (s t : State) : Part → Prop
  | .pending => t.pending = s.pending | .out => t.out = s.out | .fresh => t.fresh = s.fresh
  | .shape => t.shape = s.shape | .pins => t.pins = s.pins | .regs => t.regs = s.regs | .staged => t.staged = s.staged
  | .once => t.once = s.once | .time => t.time = s.time | .epoch => t.epoch = s.epoch | .src => t.src = s.src
  | .yar => t.yar = s.yar | .acc => t.acc = s.acc | .firn => t.firn = s.firn | .xb => t.xb = s.xb | .rq => t.rq = s.rq
  | .arb => t.arb = s.arb | .core => t.core = s.core | .pred => t.pred = s.pred | .clus => t.clus = s.clus
  | .camp => t.camp = s.camp | .seg => t.seg = s.seg | .lnk => t.lnk = s.lnk | .audit => t.audit = s.audit
  | .rec_ => t.rec_ = s.rec_ | .lock => t.lock = s.lock | .img => t.img = s.img | .rime => t.rime = s.rime
  | .pwr => t.pwr = s.pwr | .su => t.su = s.su | .bar => t.bar = s.bar | .hostq => t.hostq = s.hostq
  | .gate => t.gate = s.gate | .edw => t.edw = s.edw | .trc => t.trc = s.trc | .tst => t.tst = s.tst

/-- Every part but those listed is the same in two states. -/
structure Keeps (w : List Part) (s t : State) : Prop where
  same : ∀ p, p ∉ w → p.same s t

/-- The state that a command's effect begins from: the queue set aside, and no output yet. -/
def State.bare (s : State) : State := { s with pending := [], out := [] }

/-- Campion n runs r, neither failed nor holding, and the word at its pc is the instruction op (R112, R116, R137). -/
def fetches (s : State) (n : Nat) (r : Run) (op : COp) : Prop :=
  running s n = some r ∧ ∃ w, r.prog.getD r.pc none = some w ∧ campDecode w.toNat r.pc = some op

/-- The state with its outputs cleared and a run in Campion n. -/
def withRun (s : State) (n : Nat) (r : Run) : State := { s with out := [] }.setCamp n { s.campOf n with run := some r }

/-- Port p is in UP and receives a frame that passes R254, on a long-reach port one that its decoder has passed. -/
def receives (s : State) (p : Nat) (f : LinkFrame) : Bool :=
  (s.port p).st == .up && (decide (p < 2) || (s.port p).fec.contains f) && frOk f

/-- Port p once a frame that passes R254 has been received: its credit return is taken (R251, R255, R266, R285). -/
def received (s : State) (p : Nat) (f : LinkFrame) : PortS :=
  let x := s.port p
  let x := if p < 2 then { x with scrRx := scrSlot x.scrRx, failRun := 0 } else { x with fec := x.fec.erase f }
  let x := { x with noneRx := false }
  if (frCredit f).1 = 3 then x
  else { x with infl := tset 0 x.infl (frCredit f).1 (tget 0 x.infl (frCredit f).1 - (frCredit f).2) }

/-- A message is m, whatever its Route version: what enters through input 21 takes the present one (R279). -/
def isMsg (m x : Msg) : Prop := { x with rver := m.rver } = m

/-- A message stands in an input buffer or a staging of the crossbar. -/
def stored (s : State) (m : Msg) : Prop := (∃ k, ∃ e ∈ s.buf k, isMsg m e.msg) ∨ ∃ i, ∃ e ∈ s.staging i, isMsg m e.msg

/-- A message is on its way: stored, or waiting at input 21, at a region return or at input 22. -/
def enRoute (s : State) (m : Msg) : Prop :=
  stored s m ∨ (∃ e ∈ s.xb.recHold, isMsg m e.msg) ∨ (∃ r, ∃ x ∈ tget [] s.xb.retHold r, isMsg m x) ∨ ∃ x ∈ s.xb.ctlHold, isMsg m x

/-- The token m of a kind is the first of its words that has reached output 21, and l is what else has (R214, R309). -/
def fenceIn (s : State) (kind : Nat) (m : Msg) (l : List Msg) : Prop :=
  m.typ = 0x14 ∧ fenceKind m = kind ∧ takeFirst (· == m) s.xb.recIn = some (m, l)

/-- What a side has received waits for input 20, or for a ring writer's intake (R376, R404). -/
def barWaits (d : Side) (s : State) : Bool := match d with | .field => !s.xb.barHold.isEmpty | .host => !s.gate.held.isEmpty

/-- A side of the barrier is UP and clocked, and nothing that it has received waits (R375, R376). -/
def barReady (d : Side) (s : State) : Prop :=
  (barOf d s).st = .up ∧ hasSide d s = true ∧ barWaits d s = false

/-- A side once a frame of a type has been taken: a credited one used an entry, and no entry is in use any more (R376). -/
def barTook (d : Side) (typ : BitVec 8) (s : State) : BarS :=
  { barOf d s with
    lastRx := clk d s, failRun := 0, rxUsed := 0
    freed := (barOf d s).freed + if credited typ then (barOf d s).rxUsed + 1 else (barOf d s).rxUsed }

/-- A side with one more control frame ready to send (R378). -/
def barWith (typ : BitVec 8) (p : BitVec 128) (b : BarS) : BarS :=
  if typ == 0x14 || typ == 0x0B then { b with urgent := b.urgent ++ [(typ, p)] } else { b with ctl := b.ctl ++ [(typ, p)] }

/-- A side in DOWN goes on to HELLO (R375). -/
def hellos (d : Side) (b : BarS) (s : State) : Bool :=
  b.locked == 0xF && match d with | .field => s.isDie0 && s.flag Reg.BAR_CTRL_EN | .host => true

/-- A side that has left UP: in DOWN, or in HELLO at once where its lanes are locked, with nothing left to send (R375, R383). -/
def barLeft (d : Side) (cause : Nat) (b : BarS) (s : State) : BarS :=
  { b with
    st := if hellos d b s then .hello else .down, lastHello := if hellos d b s then 0 else b.lastHello
    stuck := b.stuck || cause == 5, urgent := [], ctl := [] }

/-- A side of the barrier has left UP, with nothing left to send (R375, R383, R384, R387, R413). -/
def barFell (d : Side) (cause : Nat) (b : BarS) (s t : State) : Prop :=
  match d with
  | .field =>
    t.bar = { barLeft .field cause b s with run := false } ∧
      t.hostq.credit = [] ∧ t.hostq.stops = [] ∧ t.hostq.unrep = s.hostq.unrep ∧ t.time.barT1 = none ∧
      (s.latchOf 5147 = none → s.time.sleep = .awake → t.rd Reg.BAR_STAT_CAUSE = cause ∧ t.latchOf 5147 = some ⟨s.time.now,
        BitVec.ofNat 16 (cause + 2 ^ 8 * (match b.peerGen with | some g => g.toNat | none => 0)), 7, s.epoch.num, true, false⟩) ∧
      Keeps [.out, .regs, .time, .src, .bar, .hostq, .trc] s t
  | .host =>
    t.gate.bar = barLeft .host cause b s ∧ t.gate.writtenTags = [] ∧
      t.gate.discTags = [] ∧ t.gate.restop = true ∧ t.gate.slew = 0 ∧ t.rd Reg.GATE_EVT_BAR = 1 ∧ Keeps [.out, .regs, .gate] s t

/-- A side once the frame of a type and payload has left (R369, R370, R373, R376). -/
def barSent (typ : BitVec 8) (p : BitVec 128) (b : BarS) : BarS :=
  { b with
    credit := if credited typ then b.credit - 1 else b.credit, sent := b.sent + 1, scr := scrBlock b.scr (barFrame typ p) }

/-- The other side of the barrier. -/
def otherSide (d : Side) : Side := match d with | .field => .host | .host => .field

/-- A seal has captured its record: the counter one higher, the time and the value of every channel now (R436). -/
def sealStarted (e : EdwS) (s t : State) : Prop :=
  ∃ r : SealRec, t.edw = { e with step := .mac, rec_ := some r, lastCap := some s.time.now, due := false, held := false, tdue := false } ∧
    r.tamper = tamper s ∧ r.cnt = s.edw.cnt + 1 ∧ r.time = s.time.now ∧ r.cfg = (List.range 65).map (s5Word s) ∧
    r.values = (List.range 64).map fun c => (s.chan c).value

/-- A register write comes to a word of the map: the port takes it, and neither a cause of R480 nor a faulted master (R521) nor the rule for
debug writes of the Edelweiss block (R443) turns it away. -/
def lands (s : State) (a : Access) (addr : Nat) : Prop :=
  portOpen s a = true ∧ writeCause s a addr = none ∧ masterFaulted s a = false ∧ edwDebug a addr = false

/-- A register read comes to a word of the map: the port takes it, and no cause of R480 turns it away. -/
def reaches (s : State) (a : Access) (addr : Nat) : Prop := portOpen s a = true ∧ readCause s a addr = none

/-- The words whose reads do more than answer and clear their RC fields. -/
def readActs : List RegId :=
  [.TIME_LO, .H_TIME_LO, .CAPTURE_LO, .EDW_SCNT_LO, .EDW_STIME_LO, .EDW_VAL_LO, .EDW_UCNT, .LOCK, .CLAIM, .TRACE_DATA, .BANK, .TEST_LERR]

/-- The words whose writes do more than store their fields. -/
def writeActs : List RegId :=
  [.CAMP_RFAIL, .COMPLETE, .THRESH, .PREWARM, .PW_SRC, .PW_PER, .PW_NEXT, .EPOCH_PERIOD, .ARBC_CTRL, .ARBV_CTRL, .ARBS_CTRL, .LNK_CTRL, .LOCK, .LOAD_CTRL,
    .DT_CTRL, .PWR_REQ, .SLEEP_CTRL, .RST_REQ, .BAR_CTRL, .TRACE_CTRL, .TRACE_RDPTR, .TRACE_DBCTRL, .TEST_CTRL, .EDW_CTRL, .GATE_CTRL, .SLC_CMD, .SLC_KEY,
    .SLC_RBASE_LO, .SLC_RBASE_HI, .SLC_RING, .SLC_VEC, .SLC_VWR, .ARBW_CTRL, .H_LOAD_CTRL, .H_PWR_REQ, .H_RST_REQ, .PG_CONS, .PG_ARM, .PG_VW, .LOAD_DATA,
    .H_LOAD_DATA, .THAW0_LO, .THAW0_HI, .EDW_GLB, .EDW_CH, .HEDW_CFG]

/-- A load in progress holds the word for its own part of the configuration (R344). -/
def imageHolds (s : State) (a : Access) (off : Nat) : Bool :=
  if a.host then holds .host s 0 ((off - 0x100000) / 4) else holds .field s 0 (off / 4)

/-- The parts of State that few commands may change: the queue, the shape of the system, the pins, the W1 words written, the epoch grid, the actuator
segments, the audit, the locks, the reference of Rime, the start-up, the queue toward the host gate, Edelweiss and the test. -/
def guarded : List Part := [.pending, .shape, .pins, .once, .epoch, .audit, .lock, .tst, .su, .rime, .seg, .edw, .hostq]

/-- Which of the guarded parts a command may change; no other command changes any. -/
def mayChange : Instr → List Part
  | .firnRecordWrite .. | .flashFail .. | .fenceAnswer .. | .meterAck .. | .meterReq .. | .sealReq .. | .meterRecord .. | .meterSend .. | .meterAckTimeout ..
  | .sealInterval .. | .sealGapExpire .. | .sealMacDone .. | .sealProgramDone .. => [.edw]
  | .schedulerForward .. | .barLaneLockLost .. | .barSilenceTimeout .. | .hello .. | .gateState .. | .credit .. | .written .. | .discarded ..
  | .sliceStop .. | .sliceGo .. | .barEventRepeat .. | .barFrameReject .. | .barTransmitSlot .. => [.hostq]
  | .claimPeek .. | .timeLoRead .. | .captureRead .. | .lockAcquire .. | .slcDirtyRead .. | .edwLatchedRead .. | .traceDataRead .. | .registerRead .. => [.lock, .tst, .edw]
  | .threshWrite .. | .predictorReset .. | .pwNextWrite .. | .campRfailGo .. | .epochPeriodWrite .. | .lnkEnable .. | .lnkDisable ..
  | .lnkDownCommand .. | .lockRel .. | .lockAbort .. | .lockBreak .. | .loadStart .. | .loadAbort .. | .loadData .. | .dtGo .. | .barEnable ..
  | .barDisable .. | .slcCreate .. | .slcOpen .. | .slcReset .. | .slcDestroy .. | .pgConsWrite .. | .pgArmWrite .. | .pgVwWrite ..
  | .hostGateSoftReset .. | .edwCtrlSeal .. | .edwDebugWrite .. | .pwrReqWake .. | .pwrReqOff .. | .sleepGo .. | .rstPackage .. | .rstSystem ..
  | .powerOn .. | .registerWrite .. | .stagedViewWrite .. | .bitAliasWrite .. | .traceRdptrWrite .. | .traceEnable .. | .testInject ..
  | .ltestStart .. | .ltestStop .. => [.once, .epoch, .audit, .lock, .tst, .su, .rime, .seg, .edw, .hostq]
  | .lda .. | .staN .. | .ret .. | .reflexCommit .. | .rstRegion .. => [.seg]
  | .alignmentTimeout .. => [.epoch]
  | .syncRsp .. => [.epoch, .su]
  | .sleepMakeup .. => [.epoch, .edw]
  | .trimCycle .. | .timeUnitReload .. | .domainRampFail .. | .tclkLock .. | .startupLoadEnd .. | .linkPhaseEnd .. => [.su]
  | .thaw .. | .thaw0 .. => [.epoch, .su, .rime, .seg, .edw, .tst]
  | .auditVisit .. => [.audit]
  | .lockTimeout .. => [.lock]
  | .masterFault .. => [.pins, .lock]
  | .tableCopyEnd .. => [.su, .rime]
  | .deepThawCopyEnd .. | .rimeCompare .. | .barThaw .. => [.rime]
  | .rdpErase .. => [.pins, .once, .audit, .lock, .tst, .su, .rime, .seg, .edw, .hostq]
  | .edwRestoreDone .. => [.su, .edw]
  | .domainReleaseEnd .. | .pwrGoodFall .. => [.seg, .edw]
  | .rstSoftInstance .. | .rstDie .. => [.once, .audit, .lock, .tst, .su, .rime, .seg, .hostq]
  | .firnInitEnd .. => [.su, .edw, .hostq]
  | .resetRelease .. => [.pins, .su]
  | .capture .. | .bscModeChange .. => [.pins]
  | .arbiterDecide .. | .checkerLocked .. | .checkerLockLost .. => [.tst]
  | _ => []

/-- A master holds at most one lock, a staging set holds at most 16 words, and a free lock holds none (R321, R322). -/
def locksInv (s : State) : Prop :=
  (∀ i j : Fin 64, (s.lockOf i).held = true → (s.lockOf j).held = true → (s.lockOf i).owner = (s.lockOf j).owner → i = j) ∧
  ∀ i : Fin 64, (s.lockOf i).set.length ≤ 16 ∧ ((s.lockOf i).held = false → (s.lockOf i).set = [] ∧ (s.lockOf i).ovf = false)

/-- The lists of the staged copy, of the W1 words written and of the locks are in canonical form: keys rising, and no entry that an unlisted
key already has. -/
def listsCanonical (s : State) : Prop :=
  twf none s.staged = true ∧ twf false s.once = true ∧ twf {} s.lock = true

/-- The port by which the masters of a side reach its registers: the register port, and the manager window (R391, R520). -/
def sideVia : Side → Via
  | .field => .port
  | .host => .bar0

/-- Lock i has been broken with a cause: its set is gone, it is free, and outside deep sleep source 5127 is raised with the lock, the cause and the
owner (R323, R459). -/
def lockBroken (i cause : Nat) (s t : State) : Prop :=
  t.lockOf i = { s.lockOf i with held := false, set := [], ovf := false, broken := true, bcause := BitVec.ofNat 2 cause } ∧
  (∀ j, j ≠ i → t.lockOf j = s.lockOf j) ∧ (s.time.sleep = .awake → (t.latchOf 5127).isSome = true) ∧
  (s.latchOf 5127 = none → s.time.sleep = .awake → t.latchOf 5127 =
    some ⟨s.time.now, BitVec.ofNat 16 (i + 64 * cause + 256 * (s.lockOf i).owner.toNat), 7, s.epoch.num, true, false⟩)

end Sys2Proof.Machine
end

