-- ==== Sys2Proof/Certificates/Slice0/Obligations.lean ====
section
/-! DEFINITION. The statements for the provers: what each command does, when it completes, what it leaves, what a step keeps. Commands stand for the
moments that the spec's latencies leave open (log entry 4), and one whose condition does not hold has no effect (log entry 3). -/

open Sys2Proof Sys2Proof.Machine

/-- The step of a block: the command at the front of the queue runs, on everything but itself in the queue. -/
def Obligations.StepRunsFront : Prop :=
  ∀ (c : Instr) (rest : List Instr) (s : State), step { s with pending := c :: rest } = exec c { s with pending := rest }

/-- R171, R172, R387, R459, R461: an empty queue lets one cycle pass (log entry 2). The time of the field die advances by 2 ticks while its count
runs, and TIME_RATE's phase is gathered with it (log entry 49); in deep sleep and before tclk is locked it stands. Captures change only where one
waits for the end of its cycle. The host gate's copy of time advances by 2 ticks, and 256 ticks or more after its last correction by what it still
owes, of at most one tick; its own clock advances by 2. No configuration and no message changes. -/
def Obligations.IdleCycle : Prop :=
  ∀ (s : State), s.pending = [] → ∃ t, step s = .next t ∧ t.pending = [] ∧
    (timeRuns s = true → t.time = { s.time with
      now := s.time.now + 2, rateAcc := s.time.rateAcc + 2 * sgn 24 (s.rd Reg.TIME_RATE_RATE)
      captures := t.time.captures, capPend := t.time.capPend }) ∧
    (timeRuns s = false → t.time = { s.time with captures := t.time.captures, capPend := t.time.capPend }) ∧
    (s.time.capPend = [] → t.time.captures = s.time.captures ∧ t.time.capPend = []) ∧ t.gate.clk = s.gate.clk + 2 ∧
    (s.gate.clk.toNat < s.gate.lastSlew.toNat + 256 ∨ s.gate.slew = 0 →
      t.gate.now = s.gate.now + 2 ∧ t.gate.slew = s.gate.slew ∧ t.gate.lastSlew = s.gate.lastSlew) ∧
    (s.gate.lastSlew.toNat + 256 ≤ s.gate.clk.toNat →
      (0 < s.gate.slew → t.gate.now = s.gate.now + 3 ∧ t.gate.slew = s.gate.slew - 1 ∧ t.gate.lastSlew = s.gate.clk) ∧
      (s.gate.slew < 0 → t.gate.now = s.gate.now + 1 ∧ t.gate.slew = s.gate.slew + 1 ∧ t.gate.lastSlew = s.gate.clk)) ∧
    t.xb = { s.xb with reflex := t.xb.reflex } ∧
    Keeps [.out, .regs, .time, .src, .yar, .xb, .arb, .core, .clus, .rec_, .pwr, .su, .gate, .trc] s t

/-- Every command completes: a well-formed one answers a next state with the queue as it was, an ill-formed one, which names no place of the hardware,
stops the block. -/
def Obligations.EveryCommandCompletes : Prop :=
  ∀ (c : Instr) (s : State), (c.wf = true → ∃ t, exec c s = .next t ∧ t.pending = s.pending) ∧ (c.wf = false → exec c s = .fault .illFormed)

/-- A queue of well-formed commands runs to its end, first in, first out, whatever the state; an ill-formed command stops the block when it comes to
the front, and not before. -/
def Obligations.QueueRuns : Prop :=
  (∀ (n : Nat) (s : State), (∀ c ∈ s.pending, c.wf = true) → ∃ t, Sys2Proof.core.run n s = .next t ∧ t.pending = s.pending.drop n) ∧
  (∀ (l r : List Instr) (c : Instr) (s : State), (∀ x ∈ l, x.wf = true) → c.wf = false → s.pending = l ++ c :: r →
    Sys2Proof.core.run (l.length + 1) s = .fault .illFormed)

/-- R172, R190, R193, R295, R321, R445, R463, R487, R489, R512, R513, R521: what no command but those named changes. The queue and the system's shape
never change. The identity and level pins change only with the pins' own commands, a W1 word's first write is forgotten only at a reset, the epoch
grid moves only at a thaw, a sync response, a lost alignment, the make-up of a sleep, a register write or a reset, the locks only by accesses, breaks
and resets, the actuator segments only by reflexes, power, thaws, writes and resets, and the audit, the reference of Rime, the start-up, the queue
toward the host gate, Edelweiss and the test only by what concerns them. -/
def Obligations.WhatChangesWhat : Prop :=
  ∀ (c : Instr) (s t : State), exec c s = .next t → ∀ p ∈ guarded, p ∉ mayChange c → p.same s t

/-- R321, R322: in every state that a step leaves, a master holds at most one lock, a staging set holds at most 16 words, and a free lock holds none,
when it was so before the step. -/
def Obligations.LocksStayOwnedOnce : Prop :=
  ∀ (s t : State), locksInv s → step s = .next t → locksInv t

/-- R322, R463, R487, R490: a step keeps the staged copy, the list of W1 words written and the locks in canonical form, so that equal contents are
equal data. -/
def Obligations.ListsStayCanonical : Prop :=
  ∀ (s t : State), listsCanonical s → step s = .next t → listsCanonical t

/-- R321, R322: after reset every lock is free, so no master holds two. -/
def Obligations.LocksAtReset : Prop := locksInv State.reset ∧ listsCanonical State.reset

/-- R43, R45, R47 to R49, R67, R69, R70: a level of three ticks or more on a wired line reaches its second stage, is stamped with the tick of the
sample, and where the source is direct, enabled, of an edge mode that the change satisfies, without a window and with its latch free, the event is
latched; LEVEL_RERAISE latches an event of an idle source at its level; WINDOW_OPEN makes a latched event offerable. Complete, each with the effects
stated: wiredInputEdge, levelReraise, windowOpen. -/
def Obligations.SourceCommands : Prop :=
  (∀ (n : Fin 1024) (level : Bool) (data : BitVec 16) (odd : Bool) (width : Nat) (s : State),
    3 ≤ width → s.time.sleep = .awake → s.su.open_ = true → lineLevel s n = !level →
    ∃ t, exec (.wiredInputEdge n level data odd width) s = .next t ∧
      lineLevel t n = level ∧ tget 0 t.src.stamps n = s.time.now + (if odd then 1 else 0) ∧
      (∀ k, k ≠ n.val → lineLevel t k = lineLevel s k ∧ tget 0 t.src.stamps k = tget 0 s.src.stamps k) ∧
      (mapCelled s n = false → s.flag (Reg.SRC_CFG0_EN n) = true → s.flag (Reg.SRC_CFG0_WINEN n) = false →
        edgeMode (s.rd (Reg.SRC_CFG0_MODE n)) (!level) level = true → s.img.dtPhase < 2 → s.latchOf n = none →
        s.epoch.start.toNat ≤ (s.time.now + (if odd then 1 else 0)).toNat →
        t.latchOf n = some ⟨s.time.now + (if odd then 1 else 0), (if n.val < 128 then data else BitVec.ofNat 16 (b2n level)), 0,
          s.epoch.num, true, false⟩) ∧
      Keeps [.out, .regs, .src, .trc] s t) ∧
  (∀ (n : Fin 1024) (s : State), s.su.open_ = true → s.time.sleep = .awake → mapCelled s n = false →
    levelMode (s.rd (Reg.SRC_CFG0_MODE n)) (lineLevel s n) = true → sourceIdle s n = true →
    s.flag (Reg.SRC_CFG0_EN n) = true → s.flag (Reg.SRC_CFG0_WINEN n) = false → s.img.dtPhase < 2 →
    s.epoch.start.toNat ≤ s.time.now.toNat →
    exec (.levelReraise n) s = .next ({ s with out := [] }.setLatch n (some ⟨s.time.now,
      (if n.val < 128 then tget 0 s.src.bundles n else BitVec.ofNat 16 (b2n (lineLevel s n))), 0, s.epoch.num, true, false⟩))) ∧
  (∀ (n : Fin 1024) (l : Latched) (s : State), s.latchOf n = some l →
    (0 < (s.epoch.num - l.win).toInt ∨ (l.win = s.epoch.num ∧ winOpens s n ≤ s.time.now.toNat)) →
    exec (.windowOpen n) s = .next ({ s with out := [] }.setLatch n (some { l with ready := true })))

/-- R60, R62, R79, R82, R89, R92, R97: what the commands of acceptance do. A write to a vector of this die is stamped and waits in its channel; a
write to a vector of another die takes the next tag and is outstanding; an offer that passes A0 takes the next sequence number of its source and
awaits its record; Firn writes the record; the oldest offer whose acknowledgements have arrived is accepted, and its latch empties. Complete, each
with the effects stated: messageWrite, offer, firnRecordWrite, accept. -/
def Obligations.Acceptance : Prop :=
  (∀ (w : Writer) (vec : BitVec 12) (payload : BitVec 16) (s : State), clocked s = true → channelTakes s w = true →
    exec (.messageWrite w s.die vec payload) s = .next { s with out := [], acc := { s.acc with writes :=
      s.acc.writes ++ [⟨w, vec, payload, if s.su.open_ && !thawDue s then some s.time.now else none, s.epoch.num⟩] } }) ∧
  (∀ (w : Writer) (target : BitVec 5) (vec : BitVec 12) (payload : BitVec 16) (s : State), clocked s = true →
    channelTakes s w = true → target ≠ s.die → s.su.open_ = true → thawDue s = false → s.acc.remoteWait = [] →
    (portToward s target).isSome = true → s.acc.remote.length < 32 →
    ∃ t, exec (.messageWrite w target vec payload) s = .next t ∧ t.acc.remote = s.acc.remote ++ [⟨s.acc.nextTag, w⟩] ∧
      t.acc.nextTag = s.acc.nextTag + 1 ∧ t.acc.remoteWait = [] ∧
      Keeps [.out, .regs, .src, .acc, .xb, .camp, .pwr, .bar, .trc] s t) ∧
  (∀ (c : Cand) (s : State), clocked s = true → s.su.open_ = true → thawDue s = false → s.acc.offers.length < 64 →
    (∀ d ∈ latchCands s ++ writeCands s, canStart s d = true ∧ stuckRegion s d = false) →
    best (candBefore s) (latchCands s ++ writeCands s) = some c → a0Refusal s c.src c.writer (candMsg s c 0) = none →
    a0Refusal s c.src c.writer (candMsg s c (tget 0 s.acc.counters c.src)) = none → srcCls s c.src ≠ .s →
    ∃ t o, exec .offer s = .next t ∧ tget 0 t.acc.counters c.src = tget 0 s.acc.counters c.src + 1 ∧
      (∀ k, k ≠ c.src → tget 0 t.acc.counters k = tget 0 s.acc.counters k) ∧
      t.acc.offers = s.acc.offers ++ [o] ∧ o.msg.seq = tget 0 s.acc.counters c.src ∧ o.msg.source = BitVec.ofNat 13 c.src ∧
      o.a0 = s.time.now ∧ o.ack = false ∧ t.firn.writes = s.firn.writes ++ [(o.msg.source, o.msg.seq)] ∧
      Keeps [.out, .regs, .src, .acc, .firn, .xb, .rq, .camp, .pwr, .bar, .trc] s t) ∧
  (∀ (src : BitVec 13) (q : BitVec 24) (l : List (BitVec 13 × BitVec 24)) (o : Offer) (s : State), clocked s = true →
    s.firn.writes = (src, q) :: l → s.acc.offers.find? (fun o => o.msg.source == src && o.msg.seq == q) = some o →
    ∃ t, exec .firnRecordWrite s = .next t ∧ t.firn.writes = l ∧
      t.recOf (firnFree s) = some { kind := .event, msg := o.msg, need := o.need, partner := o.partner, accepted := false, since := s.time.now } ∧
      (∀ k, k ≠ firnFree s → t.recOf k = s.recOf k) ∧
      t.acc.offers = modFirst (fun o => o.msg.source == src && o.msg.seq == q)
        (fun o => { o with recs := 0, idx := some (firnFree s), ack := true }) s.acc.offers ∧
      t.edw.inbox = (if o.msg.cls = .m then s.edw.inbox ++ [o.msg] else s.edw.inbox) ∧ Keeps [.out, .acc, .firn, .edw] s t) ∧
  (∀ (o : Offer) (l : List Offer) (s : State), clocked s = true →
    takeFirst (fun o => o.ack && o.partnerAck) s.acc.offers = some (o, l) → o.writer = none → o.early = [] →
    ∃ t, exec .accept s = .next t ∧ t.acc.offers = l ∧ t.latchOf o.msg.source.toNat = none ∧
      Keeps [.out, .regs, .src, .acc, .firn, .xb, .camp, .pwr, .bar, .trc] s t)

/-- R85, R86, R90, R92, R305, R316: the control messages of paired acceptance and of remote writes. A mirror is recorded, and counts as written in a
resynchronization under way, whose first mirror begins it anew; a RECORDED marks the offer's partner as acknowledged; a RELEASE frees the mirror and a
RELEASED the event record; a RESYNC_END frees the mirrors that the resynchronization has not written; an overdue partner becomes unreachable; a remote
write reaches the port with its tag and die as writer; a response takes the outstanding write of its tag and answers its writer. Complete, each with
the effects stated: pairMirror, pairAckRecorded, pairAckRelease, pairAckReleased, pairAckResyncEnd, pairTimeout, remoteVectorWrite,
remoteWriteResponse. -/
def Obligations.PairedAcceptance : Prop :=
  (∀ (m : Msg) (s : State), clocked s = true → m.typ = 0x12 → m ∈ s.xb.ctl →
    firnFind s (fun r => r.kind == .mirror && r.msg.sameId (unmirror m)) = none → firnCount s < 16384 →
    ∃ t, exec (.pairMirror ⟨m, false⟩) s = .next t ∧ t.recOf (firnFree s) = some
        { kind := .mirror, msg := unmirror m, need := [(unmirror m).dest], since := s.time.now
          kept := resyncedBy s (unmirror m).origin } ∧
      (∀ k, k ≠ firnFree s → t.recOf k = s.recOf k) ∧ Keeps [.out, .regs, .src, .firn, .xb, .pwr, .trc] s t) ∧
  (∀ (m : Msg) (s : State), clocked s = true → m.typ = 0x12 → m ∈ s.xb.ctl → twf none s.firn.recs = true →
    firnFind s (fun r => r.kind == .mirror && r.msg.sameId (unmirror m)) = none → firnCount s < 16384 →
    ∃ t, exec (.pairMirror ⟨m, true⟩) s = .next t ∧ resyncedBy t (unmirror m).origin = true ∧ t.recOf (firnFree s) = some
        { kind := .mirror, msg := unmirror m, need := [(unmirror m).dest], since := s.time.now, kept := true } ∧
      (∀ k r, k ≠ firnFree s → s.recOf k = some r →
        t.recOf k = some (if r.kind = .mirror ∧ r.msg.origin = (unmirror m).origin then { r with kept := false } else r)) ∧
      Keeps [.out, .regs, .src, .firn, .xb, .rec_, .pwr, .trc] s t) ∧
  (∀ (m : Msg) (s : State), clocked s = true → m.typ = 0x13 → m.payload.extractLsb' 0 2 = 0 → m ∈ s.xb.ctl →
    resyncing s (senderOf m) = false → unreachable s (senderOf m) = false →
    ∃ t, exec (.pairAckRecorded m) s = .next t ∧
      t.acc.offers = modFirst (fun o => o.msg.sameId m && o.partner == some (senderOf m))
        (fun o => { o with partnerAck := true }) s.acc.offers ∧ t.xb.ctl = s.xb.ctl.erase m ∧ Keeps [.out, .acc, .xb] s t) ∧
  (∀ (m : Msg) (k : Nat) (r : FirnRec) (s : State), clocked s = true → m.typ = 0x13 → m.payload.extractLsb' 0 2 = 1 →
    m ∈ s.xb.ctl → firnFind s (fun r => r.kind == .mirror && r.msg.sameId m) = some (k, r) →
    unreachable s (senderOf m) = false →
    ∃ t, exec (.pairAckRelease m) s = .next t ∧ t.recOf k = none ∧ Keeps [.out, .regs, .src, .firn, .xb, .pwr, .trc] s t) ∧
  (∀ (m : Msg) (k : Nat) (r : FirnRec) (s : State), clocked s = true → m.typ = 0x13 → m.payload.extractLsb' 0 2 = 2 →
    m ∈ s.xb.ctl → firnFind s (fun r => r.kind == .event && r.releasing && r.msg.sameId m) = some (k, r) →
    unreachable s (senderOf m) = false →
    ∃ t, exec (.pairAckReleased m) s = .next t ∧ t.recOf k = none ∧ (∀ j, j ≠ k → t.recOf j = s.recOf j) ∧
      Keeps [.out, .regs, .src, .firn, .xb, .rec_, .pwr, .trc] s t) ∧
  (∀ (m : Msg) (k : Nat) (r : FirnRec) (s : State), clocked s = true → m.typ = 0x13 → m.payload.extractLsb' 0 2 = 3 →
    m ∈ s.xb.ctl → twf none s.firn.recs = true → s.recOf k = some r → r.kind = .mirror → r.msg.origin = senderOf m →
    unreachable s (senderOf m) = false →
    ∃ t, exec (.pairAckResyncEnd m) s = .next t ∧ resyncedBy t (senderOf m) = false ∧
      t.recOf k = (if r.kept then some { r with kept := false } else none) ∧
      Keeps [.out, .regs, .src, .firn, .xb, .rec_, .pwr, .trc] s t) ∧
  (∀ (o : Offer) (p : BitVec 5) (l : List Offer) (s : State), clocked s = true →
    takeFirst (fun o => !o.partnerAck && decide (o.a0.toNat + pairTmo s ≤ s.time.now.toNat)) s.acc.offers = some (o, l) →
    o.partner = some p → o.ack = false →
    ∃ t, exec .pairTimeout s = .next t ∧ unreachable t p = true ∧
      t.acc.offers = modFirst (fun o => !o.partnerAck && decide (o.a0.toNat + pairTmo s ≤ s.time.now.toNat))
        (fun o => { o with partnerAck := true }) s.acc.offers ∧
      Keeps [.out, .regs, .src, .acc, .firn, .xb, .camp, .pwr, .bar, .trc] s t) ∧
  (∀ (m : Msg) (s : State), clocked s = true → m.typ = 0x10 → m ∈ s.xb.ctl →
    ∃ t, exec (.remoteVectorWrite m) s = .next t ∧ t.xb.ctl = s.xb.ctl.erase m ∧
      t.acc.writes = s.acc.writes ++ [⟨.remote m.seq m.origin, BitVec.ofNat 12 (m.source.toNat - 1024), m.payload,
        if s.su.open_ then some (remoteStamp m s) else none, remoteWin m s⟩] ∧ Keeps [.out, .acc, .xb] s t) ∧
  (∀ (m : Msg) (n : Fin 64) (tag : BitVec 24) (l : List RemoteOut) (s : State), clocked s = true → m.typ = 0x11 → m ∈ s.xb.ctl →
    takeFirst (fun (r : RemoteOut) => r.tag == m.seq) s.acc.remote = some (⟨tag, .core n⟩, l) → s.acc.remoteWait = [] →
    ∃ t, exec (.remoteWriteResponse m) s = .next t ∧ t.acc = { s.acc with remote := l } ∧
      t.out = [.mw (.core n) (m.payload.getLsbD 15) (m.payload.toNat % 16)] ∧
      Keeps [.out, .acc, .xb] s t)

/-- R220, R221, R223, R226, R227, R303, R528: the scheduler and the spill rings. A matched replica bound for a unit of this die enters the crossing
toward its region, with a custody record when its class takes one; a full staging goes as one block to the tail of its ring; the oldest block is read
at its address, and an MPU fault stops the spill engine; without the spill port nothing moves; a write response frees the oldest block write.
Complete, each with the effects stated: schedulerForward, spillBlockWrite, moraineRefill, masterPortWriteResponse. -/
def Obligations.SchedulerAndSpill : Prop :=
  (∀ (r : Req) (e : XEntry) (s : State), clocked s = true → thawDue s = false → schedIter (schedReqs s) s.xb [] = [r] →
    schedIter (schedReqs s) s.xb [r] = [] → reqEntry s r = some e → eligible s e r = true → r.o < 16 → r.i < 16 →
    e.restored = false → e.msg.repres = false →
    ∃ t, exec (.schedulerForward []) s = .next t ∧
      t.crossing (destLane r.dest % 64 / 16) = s.crossing (destLane r.dest % 64 / 16) ++
        [{ msg := replicaOf r.dest e.msg, u := destLane r.dest, since := s.time.now }] ∧
      (takesCustody e.msg = true → firnCount s < 16384 → t.recOf (firnFree s) = some
        { kind := .custody, msg := replicaOf r.dest e.msg, place := destLane r.dest, since := s.time.now }) ∧
      (takesCustody e.msg = false → t.firn = s.firn) ∧
      Keeps [.out, .regs, .src, .firn, .xb, .rq, .lnk, .rec_, .pwr, .hostq, .trc] s t) ∧
  (∀ (i : Fin 22) (rlx ns : Bool) (cache : Nat) (s : State), clocked s = true → canSpill s i = true → s.xb.spillOut.length < 4 →
    spillHolds s i = true →
    mpuCheck false 0 (blockAddr s i (tget 0 s.xb.tails i % max 1 (s.rd (Reg.MRN_QCFG_LEN i)))) false true s = .pass rlx ns cache →
    ∃ t, exec (.spillBlockWrite i) s = .next t ∧ t.staging i = [] ∧
      t.ring i = s.ring i ++ [(tget 0 s.xb.tails i % max 1 (s.rd (Reg.MRN_QCFG_LEN i)), s.staging i)] ∧
      t.xb.spillOut = s.xb.spillOut ++ [(i.val, tget 0 s.xb.tails i % max 1 (s.rd (Reg.MRN_QCFG_LEN i)))] ∧
      t.out = [.mpWrite false (blockAddr s i (tget 0 s.xb.tails i % max 1 (s.rd (Reg.MRN_QCFG_LEN i)))) (blockWords (s.staging i)) rlx ns
        (BitVec.ofNat 2 cache)] ∧ Keeps [.out, .regs, .xb, .arb] s t) ∧
  (∀ (i : Fin 22) (no : Nat) (l : List XEntry) (rest : List (Nat × List XEntry)) (cause region : Nat) (s : State), clocked s = true →
    canRefill s i = true → spillHolds s i = true → s.ring i = (no, l) :: rest →
    mpuCheck false 0 (blockAddr s i no) false false s = .fault cause region →
    ∃ t, exec (.moraineRefill i false) s = .next t ∧ t.xb = { s.xb with stopped := true } ∧
      Keeps [.out, .regs, .src, .xb, .arb, .lnk, .pwr, .trc] s t) ∧
  (∀ (i : Fin 22) (no : Nat) (l : List XEntry) (rest : List (Nat × List XEntry)) (rlx ns : Bool) (cache : Nat) (s : State),
    clocked s = true → canRefill s i = true → spillHolds s i = true → s.ring i = (no, l) :: rest →
    mpuCheck false 0 (blockAddr s i no) false false s = .pass rlx ns cache →
    ∃ t, exec (.moraineRefill i false) s = .next t ∧ t.out = [.mpRead (blockAddr s i no) rlx ns (BitVec.ofNat 2 cache)] ∧
      t.ring i = rest ∧ Keeps [.out, .regs, .src, .xb, .arb, .lnk, .pwr, .trc] s t) ∧
  (∀ (i : Fin 22) (err : Bool) (s : State), clocked s = true → spillHolds s i = false →
    exec (.spillBlockWrite i) s = .next { s with out := [] } ∧ exec (.moraineRefill i err) s = .next { s with out := [] }) ∧
  (∀ (p : Nat × Nat) (l : List (Nat × Nat)) (s : State), clocked s = true → s.xb.spillOut = p :: l →
    exec (.masterPortWriteResponse false false) s = .next { s with out := [], xb := { s.xb with spillOut := l } }) ∧
  (∀ (err : Bool) (s : State), clocked s = true → s.trc.dbOut ≠ 0 →
    exec (.masterPortWriteResponse true err) s =
      .next { s with out := [], trc := { s.trc with dbOut := s.trc.dbOut - 1, dbStop := s.trc.dbStop || err } })

/-- R234 to R236, R240: the shared arbiters. A grant debits the winner and holds the port, one that class F need chose for the class F head alone; a
revoked transfer waits, a withdrawn one is dropped, and a refill gives every requester its weight, once WINDOW cycles have passed since the last one,
and not before. Complete, each with the effects stated: arbiterDecide, arbiterRevoke, arbiterWithdraw, arbiterRefill. -/
def Obligations.SharedArbiters : Prop :=
  (∀ (a : Fin 23) (r : ArbReq) (byF : Bool) (s : State), arbClocked s a = true → arbMustAge s a = false → (s.arbOf a).aging = false →
    (s.arbOf a).scope = false → (s.arbOf a).holder = none → (s.arbOf a).revoked = none →
    arbPick (arbInForce s a (s.arbOf a)) a (arbReqs a s) = some (r, byF) → 2 ≤ grantBeats a byF r →
    (21 ≤ a.val → r.j ≠ 16 → tget false s.gate.half (16 * (a - 21) + r.j) = false) →
    ∃ t, exec (.arbiterDecide a) s = .next t ∧
      (t.arbOf a).holder = some { j := r.j, beats := grantBeats a byF r, done := 1, f := r.f, due := 1 } ∧
      tget 0 (t.arbOf a).credit r.j = debit (tget 0 (s.arbOf a).credit r.j) (grantBeats a byF r) ∧
      (∀ j, j ≠ r.j → tget 0 (t.arbOf a).credit j = tget 0 (s.arbOf a).credit j) ∧
      (t.arbOf a).next = (r.j + 1) % arbSize a ∧ (∀ b, b ≠ a.val → t.arbOf b = s.arbOf b) ∧
      Keeps [.out, .regs, .time, .rq, .arb, .camp, .lnk, .bar, .gate] s t) ∧
  (∀ (a : Fin 23) (h : Xfer) (s : State), arbClocked s a = true → (s.arbOf a).holder = some h → h.f = false → h.done + arbNow h < h.beats →
    (arbReqs a (arbSync a s.bare)).any (·.f) = true →
    (arbReqs a (arbTakeBack a h (arbNow h) (arbBeats a (arbBeatOf a) (arbNow h) (arbSync a s.bare)))).any (·.f) = true →
    ∃ t, exec (.arbiterRevoke a) s = .next t ∧ (t.arbOf a).revoked = some { h with done := h.done + arbNow h } ∧
      Keeps [.out, .regs, .time, .rq, .arb, .camp, .lnk, .bar, .gate] s t) ∧
  (∀ (a : Fin 23) (h : Xfer) (s : State), arbClocked s a = true → arbMustAge s a = (s.arbOf a).aging →
    (s.arbOf a).revoked = some h →
    ∃ t, exec (.arbiterWithdraw a true) s = .next t ∧ (t.arbOf a).revoked = none ∧ (t.arbOf a).holder = (s.arbOf a).holder ∧
      (t.arbOf a).credit = (s.arbOf a).credit ∧ (∀ b, b ≠ a.val → t.arbOf b = s.arbOf b) ∧ Keeps [.out, .regs, .arb, .gate] s t) ∧
  (∀ (a : Fin 23) (s : State), arbClocked s a = true → arbMustAge s a = false → (s.arbOf a).window ≤ (s.arbOf a).since →
    ∃ t, exec (.arbiterRefill a) s = .next t ∧ (∀ j, j < arbSize a → tget 0 (t.arbOf a).credit j = arbWeight s a j) ∧
      (t.arbOf a).since = (s.arbOf a).since - (s.arbOf a).window ∧
      (t.arbOf a).holder = (s.arbOf a).holder ∧ (∀ b, b ≠ a.val → t.arbOf b = s.arbOf b) ∧ Keeps [.out, .arb] s t) ∧
  (∀ (a : Fin 23) (s : State), arbClocked s a = true → arbMustAge s a = (s.arbOf a).aging → (s.arbOf a).since < (s.arbOf a).window →
    ∃ t, exec (.arbiterRefill a) s = .next t ∧ (t.arbOf a).credit = (s.arbOf a).credit ∧ (∀ b, b ≠ a.val → t.arbOf b = s.arbOf b) ∧
      Keeps [.out, .arb] s t)

/-- R33, R146, R156 to R158, R161, R163, R168, R171: what enters a core's delivery state, and what a reset takes from it. The oldest event in the
crossing enters the pending set of its core, and none passes it; a fill brings the descriptor's line into the vector cache; a warm starts; a miss
advances the prediction; halt is held until it falls and ends the warms; a unit reset makes every event that the core holds pending again. Complete,
each with the effects stated: pendingAdmit, vectorCacheFill, warmStart, predictorMiss, cifHaltRise, cifHaltFall, coreUnitReset. -/
def Obligations.PendingSets : Prop :=
  (∀ (n : Fin 64) (parity : Bool) (m : Msg) (l : List (Nat × Msg)) (s : State), clocked s = true → s.on (n / 4) = true →
    s.toClus (n / 4) = (n.val, m) :: l → s.rq.redirect = [] →
    ∃ t, exec (.pendingAdmit n parity) s = .next t ∧
      t.coreOf n = { s.coreOf n with pend := (enterOrReplace m (s.coreOf n).pend).1 } ∧
      (∀ j, j ≠ n.val → t.coreOf j = s.coreOf j) ∧ t.toClus (n / 4) = l ∧
      Keeps [.out, .regs, .src, .firn, .xb, .rq, .arb, .core, .pred, .clus, .camp, .pwr, .trc] s t) ∧
  (∀ (n : Fin 64) (parity : Bool) (x : Nat × Msg) (l : List (Nat × Msg)) (s : State), clocked s = true → s.toClus (n / 4) = x :: l → x.1 ≠ n.val →
    l.any (·.1 == n.val) = true → exec (.pendingAdmit n parity) s = .next { s with out := [] }) ∧
  (∀ (k : Fin 16) (ecc : Ecc) (f : Nat × BitVec 13) (l : List (Nat × BitVec 13)) (s : State), clocked s = true → s.on k = true →
    (s.clusOf k).fills = f :: l →
    ∃ t, exec (.vectorCacheFill k ecc) s = .next t ∧
      cached t k f.2 = some (descriptor s f.2 (ecc == .uncorrectable)) ∧ Keeps [.out, .clus] s t) ∧
  (∀ (n : Fin 64) (i : Fin 2) (s : State), clocked s = true → predEnabled s n i = true → s.flag (Reg.PW_SRC_PIN n i) = false →
    (s.predOf n i).st = .locked → (s.predOf n i).nextValid = true → (s.predOf n i).warm = false → (s.coreOf n).halt = false →
    unitLoaded s (1 + n / 16) = true → reached32 s.t (s.rd (Reg.PW_NEXT_NEXT n i) + 2 ^ 32 - leadOf s n) = true →
    ∃ t, exec (.warmStart n i) s = .next t ∧ t.predOf n i = { s.predOf n i with warm := true, warmAt := s.time.now } ∧
      (∀ k j, (k, j) ≠ (n.val, i.val) → j < 2 → t.predOf k j = s.predOf k j) ∧ Keeps [.out, .pred, .clus, .pwr] s t) ∧
  (∀ (n : Fin 64) (i : Fin 2) (s : State), clocked s = true → predEnabled s n i = true → predPinned s n i = false →
    (s.predOf n i).st = .locked → (s.predOf n i).nextValid = true → unitLoaded s (1 + n / 16) = true →
    reached32 s.t (s.rd (Reg.PW_NEXT_NEXT n i) + s.rd (Reg.PREWARM_TOL n) + 1024) = true →
    ∃ t, exec (.predictorMiss n i) s = .next t ∧ (t.predOf n i).misses = (s.predOf n i).misses + 1 ∧
      (t.predOf n i).prev = BitVec.ofNat 32 (s.rd (Reg.PW_NEXT_NEXT n i)) ∧
      t.rd (Reg.PW_NEXT_NEXT n i) = (s.rd (Reg.PW_NEXT_NEXT n i) + s.rd (Reg.PW_PER_PER n i)) % 2 ^ 32 ∧
      Keeps [.out, .regs, .pred, .clus, .pwr] s t) ∧
  (∀ (n : Fin 64) (s : State),
    ∃ t, exec (.cifHaltRise n) s = .next t ∧ t.coreOf n = { s.coreOf n with halt := true } ∧
      (∀ j, j ≠ n.val → t.coreOf j = s.coreOf j) ∧ (∀ i, i < 2 → t.predOf n i = { s.predOf n i with warm := false }) ∧
      Keeps [.out, .core, .pred] s t) ∧
  (∀ (n : Fin 64) (s : State),
    ∃ t, exec (.cifHaltFall n) s = .next t ∧ t.coreOf n = { s.coreOf n with halt := false } ∧
      (∀ j, j ≠ n.val → t.coreOf j = s.coreOf j) ∧ Keeps [.out, .core, .pred, .clus, .pwr] s t) ∧
  (∀ (n : Fin 64) (viaPin : Bool) (s : State), clocked s = true → s.rq.redirect = [] →
    ∃ t, exec (.coreUnitReset n viaPin) s = .next t ∧
      t.coreOf n = { s.coreOf n with
        pend := (s.coreOf n).pend ++ (s.coreOf n).taken ++ (s.coreOf n).active.map Msg.flag
        taken := []
        active := [] } ∧
      (∀ j, j ≠ n.val → t.coreOf j = s.coreOf j) ∧
      Keeps [.out, .regs, .src, .firn, .xb, .rq, .core, .clus, .pwr, .trc] s t)

/-- R150 to R152: the core's handshakes. A take moves the offered event to the taken ones and lowers the line for a cycle; a claim activates the event
it answers, and answers none where none is taken; a completion whose sequence number is that of the innermost active event ends it, another sets the
error flag and ends nothing, and none is taken while a completion would have nowhere to go. Complete, each with the effects stated: cifTake, claim,
complete. -/
def Obligations.TakesAndCompletions : Prop :=
  (∀ (n : Fin 64) (m : Msg) (l : Line) (s : State), clocked s = true → offered s n = some (m, l) →
    ∃ t, exec (.cifTake n) s = .next t ∧
      t.coreOf n = { s.coreOf n with pend := (s.coreOf n).pend.erase m, taken := m :: (s.coreOf n).taken, irqLow := true } ∧
      (∀ j, j ≠ n.val → t.coreOf j = s.coreOf j) ∧ t.out = [] ∧ Keeps [.out, .core, .clus] s t) ∧
  (∀ (n : Fin 64) (m : Msg) (took : Bool) (s : State), clocked s = true → s.on (n / 4) = true → claimable s n = some (m, took) →
    ∃ t, exec (.claim n) s = .next t ∧
      t.coreOf n = { s.coreOf n with
        pend := if took then (s.coreOf n).pend else (s.coreOf n).pend.erase m
        taken := if took then (s.coreOf n).taken.drop 1 else (s.coreOf n).taken
        active := m :: (s.coreOf n).active } ∧
      (∀ j, j ≠ n.val → t.coreOf j = s.coreOf j) ∧
      t.out = [.reg (.cif n) (BitVec.ofNat 32 (claimWord m ((s.coreOf n).held.length + b2n (!took)))) none] ∧
      Keeps [.out, .regs, .core, .clus, .trc] s t) ∧
  (∀ (n : Fin 64) (s : State), clocked s = true → (s.on (n / 4) = false ∨ claimable s n = none) →
    exec (.claim n) s = .next { s with out := [.reg (.cif n) 0 none] }) ∧
  (∀ (n : Fin 64) (w : Word) (m : Msg) (l : List Msg) (s : State), clocked s = true → s.on (n / 4) = true →
    (s.coreOf n).active = m :: l → m.seq = w.extractLsb' 0 24 →
    ∃ t, exec (.complete n w) s = .next t ∧ t.coreOf n = { s.coreOf n with active := l } ∧
      (∀ j, j ≠ n.val → t.coreOf j = s.coreOf j) ∧ t.out = [.reg (.cif n) 0 none] ∧
      Keeps [.out, .regs, .firn, .core, .clus, .trc] s t) ∧
  (∀ (n : Fin 64) (w : Word) (s : State), clocked s = true → s.on (n / 4) = true →
    (∀ m ∈ (s.coreOf n).active.head?, m.seq ≠ w.extractLsb' 0 24) →
    ∃ t, exec (.complete n w) s = .next t ∧ t.flag (Reg.STATE_CERR n) = true ∧ t.flag (Reg.COMPLETE_LASTOK n) = false ∧
      t.out = [.reg (.cif n) 0 none] ∧ Keeps [.out, .regs] s t) ∧
  (∀ (n : Fin 64) (w : Word) (s : State), clocked s = true → s.on (n / 4) = false →
    exec (.complete n w) s = .next { s with out := [.reg (.cif n) 0 (some 3)] })

/-- R321: the sequence locks. A read of LOCK[i] by master m acquires the lock when HELD is 0, m holds no other lock and reg_dbg is 0: it returns GOT =
1 and BROKEN as it stood, and clears BROKEN. Any other read returns GOT = 0 and changes nothing but the answer. A write of REL or ABORT by the owner
frees the lock; by anyone else it changes nothing but BUSERR, and is answered with REFUSED. Complete, each with the effects stated: lockAcquire,
lockRel, lockAbort. -/
def Obligations.SequenceLocks : Prop :=
  ∀ (a : Access) (i : Fin 64) (s : State), a.atPort = true →
    (reaches s a (0xF000 + 4 * i) →
      ((s.lockOf i).held = false → a.dbg = false → (∀ j : Fin 64, (s.lockOf j).held = true → (s.lockOf j).owner ≠ a.mid) →
        ∃ t w, exec (.lockAcquire a i) s = .next t ∧ t.out = [.reg a.via w none] ∧ bits w.toNat 0 4 = a.mid.toNat ∧ bits w.toNat 4 1 = 1 ∧
          bits w.toNat 5 1 = 1 ∧ bits w.toNat 6 1 = b2n (s.lockOf i).broken ∧
          t.lockOf i = { s.lockOf i with owner := a.mid, held := true, set := [], ovf := false, broken := false, since := s.time.now } ∧
          (∀ j, j ≠ i.val → t.lockOf j = s.lockOf j) ∧ Keeps [.out, .lock] s t) ∧
      ((s.lockOf i).held = true ∨ a.dbg = true ∨ (∃ j : Fin 64, (s.lockOf j).held = true ∧ (s.lockOf j).owner = a.mid) →
        ∃ w : Word, exec (.lockAcquire a i) s = .next { s with out := [.reg a.via w none] } ∧ bits w.toNat 5 1 = 0)) ∧
    (lands s a (0xF000 + 4 * i) →
      ((s.lockOf i).held = true → (s.lockOf i).owner = a.mid →
        (∃ t, exec (.lockRel a i) s = .next t ∧ t.out = [.reg a.via 0 none] ∧ (t.lockOf i).held = false ∧ (∀ j, j ≠ i.val → t.lockOf j = s.lockOf j)) ∧
        ∃ t, exec (.lockAbort a i) s = .next t ∧ t.out = [.reg a.via 0 none] ∧ (t.lockOf i).held = false ∧ (∀ j, j ≠ i.val → t.lockOf j = s.lockOf j)) ∧
      ((s.lockOf i).held = false ∨ (s.lockOf i).owner ≠ a.mid →
        (∃ t, exec (.lockRel a i) s = .next t ∧ t.out = [.reg a.via 0 (some 6)] ∧ t.rd Reg.BUSERR_CAUSE = 6 ∧ Keeps [.out, .regs] s t ∧
          ∀ f : Fld, f.off ≠ 0x1C → f.lo < 32 → t.rd f = s.rd f) ∧
        ∃ t, exec (.lockAbort a i) s = .next t ∧ t.out = [.reg a.via 0 (some 6)] ∧ t.rd Reg.BUSERR_CAUSE = 6 ∧ Keeps [.out, .regs] s t ∧
          ∀ f : Fld, f.off ≠ 0x1C → f.lo < 32 → t.rd f = s.rd f))

/-- R177: a read of TIME_LO returns bits [31:0] of system time and latches bits [63:32] for the reading master; a read of TIME_HI returns that
master's latch and changes nothing; and no read by another master touches it, so the two reads make one consistent 64-bit value. Complete, each with
the effects stated: timeLoRead, registerRead. -/
def Obligations.ConsistentTimeReads : Prop :=
  (∀ (a : Access) (s : State), a.atPort = true → a.dbg = false → reaches s a 0x1000 → ∃ t, exec (.timeLoRead a) s = .next t ∧
    t.out = [.reg .port (BitVec.ofNat 32 s.time.now.toNat) none] ∧ latched t 0x1004 a.mid.toNat = s.time.now.toNat / 2 ^ 32 ∧
    t.time.now = s.time.now ∧ Keeps [.out, .time] s t) ∧
  (∀ (a : Access) (ecc : Ecc) (s : State), a.atPort = true → a.dbg = false → reaches s a 0x1004 → ∃ t, exec (.registerRead a 0x1004 ecc) s = .next t ∧
    t.out = [.reg .port (BitVec.ofNat 32 (latched s 0x1004 a.mid.toNat)) none] ∧ t.time = s.time ∧ Keeps [.out, .regs] s t) ∧
  (∀ (b : Access) (m : BitVec 4) (addr : BitVec 20) (ecc : Ecc) (s t : State), b.inBlock addr.toNat = true → b.mid ≠ m ∨ b.via ≠ .port ∨ b.dbg = true →
    exec (.registerRead b addr ecc) s = .next t → latched t 0x1004 m.toNat = latched s 0x1004 m.toNat)

/-- R323: a lock is broken when reg_mfault is asserted for its owner (cause 0), when it has been held for longer than TMO × 256 ticks with TMO not 0
(cause 1), and when a master with reg_dbg writes BREAK (cause 2): its staging set is gone, it is free, its cause is set, and internal source 5127 is
raised with the lock, the cause and the owner. BREAK without reg_dbg is ignored and answered with a bus error; a lock held for less stays held.
Complete, each with the effects stated: lockBreak, lockTimeout, masterFault. -/
def Obligations.BrokenLocks : Prop :=
  (∀ (m : Fin 16) (i : Fin 64) (s : State), (s.lockOf i).held = true → (s.lockOf i).owner.toNat = m.val →
    (∀ j : Fin 64, (s.lockOf j).held = true → (s.lockOf j).owner.toNat = m.val → j = i) →
    ∃ t, exec (.masterFault m true) s = .next t ∧ lockBroken i 0 s t) ∧
  (∀ (i : Fin 64) (s : State), clocked s = true → (s.lockOf i).held = true →
    (s.rd Reg.LOCK_CTRL_TMO ≠ 0 → (s.lockOf i).since.toNat + 256 * s.rd Reg.LOCK_CTRL_TMO < s.time.now.toNat →
      ∃ t, exec (.lockTimeout i) s = .next t ∧ lockBroken i 1 s t) ∧
    (s.rd Reg.LOCK_CTRL_TMO = 0 ∨ s.time.now.toNat ≤ (s.lockOf i).since.toNat + 256 * s.rd Reg.LOCK_CTRL_TMO →
      exec (.lockTimeout i) s = .next { s with out := [] })) ∧
  (∀ (a : Access) (i : Fin 64) (s : State), a.atPort = true → lands s a (0xF000 + 4 * i) →
    (a.dbg = true → (s.lockOf i).held = true → ∃ t, exec (.lockBreak a i) s = .next t ∧ lockBroken i 2 s t) ∧
    (a.dbg = false → ∃ t, exec (.lockBreak a i) s = .next t ∧ t.out = [.reg a.via 0 (some 6)] ∧ Keeps [.out, .regs] s t))

/-- R111, R117 to R120, R122, R124, R125, R137: the Campion instructions that act on the run alone, each for a run whose word at pc is that
instruction: the whole next state. A read of a working register whose parity fails ends the run with cause 1. Complete, each with the effects stated:
lde, sta, addi, sub, clamp, cmp, br, wait, waitEnd, irq. -/
def Obligations.CampionRegisters : Prop :=
  ∀ (n : Fin 64) (r : Run) (s : State), clocked s = true →
    (∀ (wd sel : Nat), fetches s n r (.lde wd sel) →
      exec (.lde n) s = .next (withRun s n ((r.put wd (ldeValue r s.time.now sel)).step 1))) ∧
    (∀ (wd ws : Nat) (imm : Word), fetches s n r (.addi wd ws imm) →
      exec (.addi n false) s = .next (withRun s n ((r.put wd (r.reg ws + imm)).step 1)) ∧
      ∃ t, exec (.addi n true) s = .next t ∧ (t.campOf n).failed = some 1 ∧ (t.campOf n).run = none ∧
        Keeps [.out, .regs, .src, .camp, .trc] s t) ∧
    (∀ (wd ws wt : Nat), fetches s n r (.sub wd ws wt) →
      exec (.sub n false) s = .next (withRun s n ((r.put wd (r.reg ws - r.reg wt)).step 1)) ∧
      ∃ t, exec (.sub n true) s = .next t ∧ (t.campOf n).failed = some 1 ∧ (t.campOf n).run = none ∧
        Keeps [.out, .regs, .src, .camp, .trc] s t) ∧
    (∀ (wd ws : Nat) (hi : Bool) (imm : Word), fetches s n r (.clamp wd ws hi imm) →
      exec (.clamp n false) s = .next (withRun s n ((r.put wd (clampTo hi (r.reg ws) imm)).step 1)) ∧
      ∃ t, exec (.clamp n true) s = .next t ∧ (t.campOf n).failed = some 1 ∧ (t.campOf n).run = none ∧
        Keeps [.out, .regs, .src, .camp, .trc] s t) ∧
    (∀ (ws : Nat) (u : Bool) (rhs : Operand), fetches s n r (.cmp ws u rhs) →
      exec (.cmp n false) s = .next (withRun s n ({ r with lt := lessThan u (r.reg ws) (r.val rhs), eq := r.reg ws == r.val rhs }.step 1)) ∧
      ∃ t, exec (.cmp n true) s = .next t ∧ (t.campOf n).failed = some 1 ∧ (t.campOf n).run = none ∧
        Keeps [.out, .regs, .src, .camp, .trc] s t) ∧
    (∀ (cond off : Nat), fetches s n r (.br cond off) →
      exec (.br n) s = .next (withRun s n (if condHolds r cond then { r with pc := r.pc + off, cycles := r.cycles + 2 } else r.step 1))) ∧
    (∀ (count off : Nat), fetches s n r (.loop count off) →
      exec (.br n) s = .next (withRun s n (if r.loop + 1 < count
        then { r with pc := r.pc - off, loop := r.loop + 1, cycles := r.cycles + 2 } else { r with loop := 0 }.step 1))) ∧
    (∀ (ticks : Nat), fetches s n r (.wait ticks) →
      exec (.wait n) s = .next (withRun s n (if reached32 s.t (r.msg.ts + BitVec.ofNat 32 ticks).toNat then r.step 0
        else { r with hold := .wait (r.msg.ts + BitVec.ofNat 32 ticks) }))) ∧
    (∀ (target : BitVec 32), (s.campOf n).run = some { r with hold := .wait target } → reached32 s.t target.toNat = true →
      exec (.waitEnd n) s = .next (withRun s n ({ r with hold := .none }.step 0))) ∧
    (∀ (src : Operand) (addr : BitVec 16) (l : List (BitVec 16 × Word)), fetches s n r (.sta false src addr) →
      stageWrite r.stage addr (r.val src) = some l → ∀ parity : Bool, parity = false ∨ src.isReg = false →
      exec (.sta n parity) s = .next (withRun s n ({ r with stage := l }.step 1))) ∧
    (∀ (src : Operand) (addr : BitVec 16), fetches s n r (.sta false src addr) → stageWrite r.stage addr (r.val src) = none →
      ∃ t, exec (.sta n false) s = .next t ∧ (t.campOf n).failed = some 3 ∧ (t.campOf n).run = none ∧
        Keeps [.out, .regs, .src, .camp, .trc] s t) ∧
    (∀ (ws : Nat) (vec : BitVec 12), fetches s n r (.irq ws vec) → r.irqs.length < 2 →
      exec (.irq n false) s = .next (withRun s n ({ r with irqs := r.irqs ++ [(vec, (r.reg ws).truncate 16)] }.step 1))) ∧
    (∀ (ws : Nat) (vec : BitVec 12), fetches s n r (.irq ws vec) → 2 ≤ r.irqs.length →
      ∃ t, exec (.irq n false) s = .next t ∧ (t.campOf n).failed = some 3 ∧ (t.campOf n).run = none ∧
        Keeps [.out, .regs, .src, .camp, .trc] s t)

/-- R104, R112 to R114, R121, R126 to R131, R144: the Campion instructions that reach a port. LDA and STA act on the segment where it grants them;
EMIT writes the message, waits for its answer and fails at its bound; an answer that comes late is dropped; RET ends the run and completes the event.
Complete, each with the effects stated: lda, staN, emit, emitAnswer, emitLateAnswer, ret. -/
def Obligations.CampionInstructionsAtPorts : Prop :=
  (∀ (n : Fin 64) (r : Run) (wd : Nat) (addr : BitVec 16) (v rdata : Word) (err : Bool) (s : State), clocked s = true →
    fetches s n r (.lda wd addr) → r.stage.find? (·.1 == addr) = some (addr, v) →
    exec (.lda n rdata err false) s = .next (withRun s n ((r.put wd v).step 1))) ∧
  (∀ (n : Fin 64) (r : Run) (wd : Nat) (addr : BitVec 16) (rdata : Word) (err parity : Bool) (s : State), clocked s = true →
    fetches s n r (.lda wd addr) → r.stage.find? (·.1 == addr) = none → segGrants s n (r.msg.cls == .f) = true →
    ∃ t, exec (.lda n rdata err parity) s = .next t ∧
      t.campOf n = { s.campOf n with run := some ((r.put wd (if err then 0 else rdata)).step 2) } ∧
      t.out = [.act (n / 16) addr 0 false true false false false] ∧ Keeps [.out, .regs, .src, .camp, .seg, .trc] s t) ∧
  (∀ (n : Fin 64) (r : Run) (src : Operand) (addr : BitVec 16) (err : Bool) (s : State), clocked s = true →
    fetches s n r (.sta true src addr) → segGrants s n (r.msg.cls == .f) = true →
    ∃ t, exec (.staN n err false) s = .next t ∧
      t.campOf n = { s.campOf n with run := some ({ r with stood := r.stood + 1 }.step 1) } ∧
      t.out = [.act (n / 16) addr (r.val src) true false true false false] ∧ Keeps [.out, .regs, .src, .camp, .seg, .trc] s t) ∧
  (∀ (n : Fin 64) (r : Run) (wd ws : Nat) (vec : BitVec 12) (s : State), clocked s = true → fetches s n r (.emit wd ws vec) →
    ∃ t, exec (.emit n false) s = .next t ∧
      t.campOf n = { s.campOf n with
        run := some { r with hold := .emit wd, stood := r.stood + 1, cycles := r.cycles + 1 }
        emits := (s.campOf n).emits ++ [{ vec := vec, issued := s.time.now, mine := true }] } ∧
      t.acc = { s.acc with writes := s.acc.writes ++ [⟨.campion n false, vec, (r.reg ws).truncate 16,
        if s.su.open_ && !thawDue s then some s.time.now else none, s.epoch.num⟩] } ∧ Keeps [.out, .acc, .camp] s t) ∧
  (∀ (n : Fin 64) (r : Run) (e : EmitOut) (wd reason : Nat) (refused : Bool) (s : State), clocked s = true →
    (s.campOf n).run = some r → r.hold = .emit wd → (s.campOf n).emits.find? (·.mine) = some e →
    e.answer = some (refused, reason) → e.late = false →
    ∃ t, exec (.emitAnswer n) s = .next t ∧
      (t.campOf n).run = some ({ r.put wd (if refused then BitVec.ofNat 32 (0x80000000 + reason) else 0) with hold := .none }.step
        (min 32 (emitCycles s e))) ∧ (t.campOf n).emits = (s.campOf n).emits.erase e ∧ Keeps [.out, .regs, .camp] s t) ∧
  (∀ (n : Fin 64) (r : Run) (e : EmitOut) (wd : Nat) (s : State), clocked s = true →
    (s.campOf n).run = some r → r.hold = .emit wd → (s.campOf n).emits.find? (·.mine) = some e →
    (e.answer = none ∨ e.late = true) → 32 ≤ emitCycles s e →
    ∃ t, exec (.emitAnswer n) s = .next t ∧ (t.campOf n).run = some ({ r.put wd 0x40000000 with hold := .none }.step 32) ∧
      Keeps [.out, .regs, .camp] s t) ∧
  (∀ (n : Fin 64) (e : EmitOut) (l : List EmitOut) (s : State), clocked s = true →
    takeFirst (fun (e : EmitOut) => !e.mine && e.answer.isSome) (s.campOf n).emits = some (e, l) →
    ∃ t, exec (.emitLateAnswer n) s = .next t ∧ t.campOf n = { s.campOf n with emits := l } ∧
      (e.late = false → t.rd (Reg.CAMP_EMIT_ELATE n) = s.rd (Reg.CAMP_EMIT_ELATE n)) ∧ Keeps [.out, .regs, .camp] s t) ∧
  (∀ (n : Fin 64) (r : Run) (s : State), clocked s = true → fetches s n r .ret → r.stage = [] →
    ∃ t, exec (.ret n false) s = .next t ∧ t.campOf n = { s.campOf n with run := none } ∧
      t.acc.writes = s.acc.writes ++ r.irqs.map (fun x => ⟨.campion n true, x.1, x.2,
        if s.su.open_ && !thawDue s then some s.time.now else none, s.epoch.num⟩) ∧
      t.firn.dones = s.firn.dones ++ (if r.msg.isGF && r.msg.isEvent then [r.msg] else []) ∧
      Keeps [.out, .regs, .src, .acc, .firn, .camp, .seg, .trc] s t) ∧
  (∀ (n : Fin 64) (r : Run) (s : State), clocked s = true → fetches s n r .ret → r.stage ≠ [] →
    ∃ t, exec (.ret n false) s = .next t ∧ t.campOf n = { s.campOf n with run := none } ∧
      t.segOf (n / 16) = { s.segOf (n / 16) with bursts := (s.segOf (n / 16)).bursts ++ [⟨n, r.msg, r.stage, r.irqs⟩] } ∧
      Keeps [.out, .camp, .seg] s t)

/-- R122 to R124, R132, R133, R137, R144: the commit of a burst, dispatch and pre-emption, the watchdog and the unit reset of a Campion. A failure
latches its cause, and the events it holds are dealt with as the rules say. Complete, each with the effects stated: campionDispatch, reflexCommit,
campionWatchdog, campionUnitReset. -/
def Obligations.ReflexRuns : Prop :=
  (∀ (r : Fin 4) (b : Burst) (errs : List Bool) (s : State), clocked s = true → nextBurst (s.segOf r) = some b → b.camp < 64 →
    ∃ t, exec (.reflexCommit r errs) s = .next t ∧
      t.segOf r = { s.segOf r with bursts := (s.segOf r).bursts.erase b, rot := (b.camp + 1) % 16 } ∧
      t.out = b.stage.dropLast.map (fun e => .act r e.1 e.2 true false false false false)
        ++ b.stage.getLast?.toList.map (fun e => .act r e.1 e.2 true false false true false) ∧
      t.firn.dones = s.firn.dones ++ (if b.msg.isGF && b.msg.isEvent then [b.msg] else []) ∧
      Keeps [.out, .regs, .acc, .firn, .seg, .trc] s t) ∧
  (∀ (n : Fin 64) (ecc : List (Fin 64 × Ecc)) (e : QEntry) (q : List QEntry) (s : State), clocked s = true →
    campReady s n = true → (s.arbOf (n / 4)).holder.isSome = true → nextEntry s n = some (e, q) →
    ∃ t, exec (.campionDispatch n ecc) s = .next t ∧
      (t.campOf n).run = some {
        msg := e.msg
        w := List.replicate 8 0
        prog := (loadSlot s (n / 16) (slotOf e.msg).toNat ecc).1
        runs := min 255 (e.runs + 1)
        d := s.time.now
        slot := slotOf e.msg } ∧
      (t.campOf n).q = (match (s.campOf n).run with | some r => ⟨r.msg, r.runs⟩ :: q | none => q) ∧
      Keeps [.out, .fresh, .regs, .rq, .arb, .camp, .trc] s t) ∧
  (∀ (n : Fin 64) (r : Run) (s : State), clocked s = true → (s.campOf n).run = some r → (s.campOf n).failed = none →
    wdog s (n / 16) < runCycles s n r →
    ∃ t, exec (.campionWatchdog n) s = .next t ∧ (t.campOf n).failed = some 2 ∧ (t.campOf n).run = none ∧
      (t.campOf n).q = ⟨r.msg, r.runs⟩ :: (s.campOf n).q ∧ Keeps [.out, .regs, .src, .camp, .trc] s t) ∧
  (∀ (n : Fin 64) (s : State), clocked s = true →
    ∃ t, exec (.campionUnitReset n) s = .next t ∧ (t.campOf n).run = none ∧ (t.campOf n).q = [] ∧
      (t.arbOf (n / 4)).scope = true ∧ Keeps [.out, .regs, .src, .firn, .xb, .arb, .camp, .pwr, .trc] s t)

/-- R172, R183, R184, R186, R189, R191, R192, R208 to R211, R265, R459, R460: system time. A sync exchange begins with a request that waits for its
slot; it leaves stamped, is answered with the stamps of its arrival and of the answer's slot, and the response slews the count by the offset, or steps
it at the first exchange before thaw 0 and at a wake (for an odd difference of the stamps by one of its two halves, log entry 8); a missing exchange
loses the alignment; a trim cycle counts 3 ticks or 1; a capture is stamped, and written at the end of its second-stage cycle or an overrun (log entry
49); deep sleep is entered, left and made up. Complete, each with the effects stated: arbiterDecide, syncInterval, syncReq, syncRsp, alignmentTimeout,
trimCycle, capture, sleepEntryEdge, pwrWake, sleepMakeup. -/
def Obligations.SystemTime : Prop :=
  (∀ (sub : Fin 32) (p : Nat) (s : State), clocked s = true → syncPort s = some p → s.isMaster = false → 4 ≤ s.su.phase → syncDue s = true →
    ∃ t, exec (.syncInterval sub) s = .next t ∧ t.time = { s.time with
        waiting := tset false s.time.waiting p false
        lastStart := some s.time.now } ∧
      t.port p = { s.port p with sub1 := sub.val, ctl := (s.port p).ctl ++ [mkFrame 3 0 0] } ∧
      (∀ q, q ≠ p → t.port q = s.port q) ∧ Keeps [.out, .time, .lnk] s t) ∧
  (∀ (a : Fin 23) (p : Nat) (r : ArbReq) (byF : Bool) (f : LinkFrame) (l : List LinkFrame) (s : State), clocked s = true → p < 4 → a.val = 16 + p →
    (s.arbOf a).holder = none → (s.arbOf a).revoked = none → arbMustAge s a = false → (s.arbOf a).aging = false → (s.arbOf a).scope = false →
    (s.port p).st = .up → (s.port p).ctl = f :: l → arbPick (arbInForce s a (s.arbOf a)) a (linkReqs p s) = some (r, byF) → r.j = 2 →
    (frType f = 3 → ∃ t, exec (.arbiterDecide a) s = .next t ∧ t.time = { s.time with
        t1 := tset 0 s.time.t1 p (BitVec.ofNat 64 (16 * s.t + (s.port p).sub1)), waiting := tset false s.time.waiting p true } ∧
      (∃ c n, PortOut.slot p (slotLevels (scramble (s.port p).scrTx (sealFrame f c n))) ∈ t.out) ∧ (t.port p).ctl = l ∧
      Keeps [.out, .regs, .time, .arb, .lnk] s t) ∧
    (frType f = 4 → ∃ t, exec (.arbiterDecide a) s = .next t ∧
      (∃ c n, PortOut.slot p (slotLevels (scramble (s.port p).scrTx (sealFrame (mkFrame 4 0
        (BitVec.ofNat 64 (16 * s.t + (s.port p).sub3) ++ (frMsg f).extractLsb' 0 64)) c n))) ∈ t.out) ∧ (t.port p).ctl = l ∧
      Keeps [.out, .regs, .arb, .lnk] s t)) ∧
  (∀ (p : Fin 4) (frame : LinkFrame) (sub2 sub3 : Fin 32) (s : State), clocked s = true → receives s p frame = true → frType frame = 3 →
    ∃ t, exec (.syncReq p (heard s p frame) sub2 sub3) s = .next t ∧
      t.port p = { received s p frame with
        sub3 := sub3.val, ctl := (s.port p).ctl ++ [mkFrame 4 0 ((BitVec.ofNat 64 (16 * s.t + sub2.val)).zeroExtend 128)] } ∧
      (∀ q, q ≠ p.val → t.port q = s.port q) ∧ Keeps [.out, .lnk] s t) ∧
  (∀ (p : Fin 4) (frame : LinkFrame) (sub4 : Fin 32) (d : Int) (s : State), clocked s = true → receives s p frame = true →
    frType frame = 4 → tget false s.time.waiting p = true → s.time.exchanged = true → s.time.wakeSync = false →
    (sgn 64 ((frMsg frame).extractLsb' 0 64 - tget 0 s.time.t1 p).toNat
      - sgn 64 (BitVec.ofNat 64 (16 * s.t + sub4.val) - (frMsg frame).extractLsb' 64 64).toNat) / 2 = d →
    ∃ t, exec (.syncRsp p (heard s p frame) sub4) s = .next t ∧ t.time = { s.time with
        waiting := tset false s.time.waiting p false
        wakeHold := false
        slew := t.time.slew
        rateAcc := 0
        lastDone := s.time.now } ∧
      (t.time.slew = d ∨ (t.time.slew = d + 1 ∧ (sgn 64 ((frMsg frame).extractLsb' 0 64 - tget 0 s.time.t1 p).toNat
        - sgn 64 (BitVec.ofNat 64 (16 * s.t + sub4.val) - (frMsg frame).extractLsb' 64 64).toNat) % 2 = 1)) ∧
      Keeps [.out, .fresh, .regs, .time, .src, .lnk, .bar, .gate, .trc] s t) ∧
  (∀ (p : Fin 4) (frame : LinkFrame) (sub4 : Fin 32) (d : Int) (s : State), clocked s = true → receives s p frame = true →
    frType frame = 4 → tget false s.time.waiting p = true → s.time.exchanged = false → s.su.open_ = false → s.time.wakeSync = false →
    sgn 64 ((frMsg frame).extractLsb' 0 64 - tget 0 s.time.t1 p).toNat
      - sgn 64 (BitVec.ofNat 64 (16 * s.t + sub4.val) - (frMsg frame).extractLsb' 64 64).toNat = 2 * d →
    ∃ t, exec (.syncRsp p (heard s p frame) sub4) s = .next t ∧ t.time.now = BitVec.ofInt 64 ((16 * (s.t : Int) + d) / 16) ∧
      t.time.slew = (16 * (s.t : Int) + d) % 16 ∧ t.time.exchanged = true ∧
      t.su = { s.su with linkFrom := shiftTick ((16 * (s.t : Int) + d) / 16 - s.t) s.su.linkFrom } ∧
      Keeps [.out, .fresh, .regs, .time, .src, .lnk, .su, .bar, .gate, .trc] s t) ∧
  (∀ (p : Fin 4) (frame : LinkFrame) (sub4 : Fin 32) (d : Int) (s : State), clocked s = true → receives s p frame = true →
    frType frame = 4 → tget false s.time.waiting p = true → s.time.wakeSync = true →
    sgn 64 ((frMsg frame).extractLsb' 0 64 - tget 0 s.time.t1 p).toNat
      - sgn 64 (BitVec.ofNat 64 (16 * s.t + sub4.val) - (frMsg frame).extractLsb' 64 64).toNat = 2 * d →
    ∃ t, exec (.syncRsp p (heard s p frame) sub4) s = .next t ∧ t.time.now = BitVec.ofInt 64 ((16 * (s.t : Int) + d) / 16) ∧
      t.time.slew = (16 * (s.t : Int) + d) % 16 ∧ t.time.wakeSync = false ∧ t.time.wakeHold = false ∧
      t.flag Reg.TIME_STAT_STEPPED = true ∧ (s.su.open_ = false → t.epoch = s.epoch) ∧
      t.su = { s.su with linkFrom := shiftTick ((16 * (s.t : Int) + d) / 16 - s.t) s.su.linkFrom } ∧
      Keeps [.out, .fresh, .regs, .time, .epoch, .src, .lnk, .su, .bar, .gate, .trc] s t) ∧
  (∀ (s : State), clocked s = true → exchangeMissing s = true → s.flag Reg.TIME_STAT_ALOST = false →
    ∃ t, exec .alignmentTimeout s = .next t ∧ t.time = { s.time with wakeHold := false } ∧ t.flag Reg.TIME_STAT_ALOST = true ∧
      (s.time.exchanged = false → t.flag Reg.SU_STAT_SYNCTMO = true) ∧ (s.time.wakeHold = false → t.epoch = s.epoch) ∧
      Keeps [.out, .fresh, .regs, .time, .epoch, .src, .bar, .gate, .trc] s t) ∧
  (∀ (s : State), clocked s = true → trimReady s = true →
    ∃ t, exec .trimCycle s = .next t ∧ t.time = { s.time with
        now := s.time.now + (if 0 < trimPhase s then 3 else 1)
        rateAcc := s.time.rateAcc - (if 0 < trimPhase s then 2 ^ 32 else -2 ^ 32)
          + (if 0 < trimPhase s then 3 else 1) * sgn 24 (s.rd Reg.TIME_RATE_RATE)
        lastTrim := s.time.now
        captures := t.time.captures
        capPend := t.time.capPend } ∧ t.xb = { s.xb with reflex := t.xb.reflex } ∧
      Keeps [.out, .regs, .time, .src, .yar, .xb, .arb, .core, .clus, .rec_, .pwr, .su, .gate, .trc] s t) ∧
  (∀ (i : Fin 16) (rising odd : Bool) (width : Nat) (s : State), clocked s = true → 3 ≤ width →
    (if bit (s.rd Reg.CAP_CTRL_EDGE) i then !rising else rising) = true → bit (s.rd Reg.CAP_CTRL_EN) i = true →
    tget false s.pins.capIn i = !rising →
    exec (.capture i rising odd width) s = .next { s with
      out := [], pins := { s.pins with capIn := tset false s.pins.capIn i rising }
      time := { s.time with capPend := s.time.capPend ++ [(i.val, s.time.now + (if odd then 1 else 0))] } }) ∧
  (∀ (i : Fin 16) (level odd : Bool) (width : Nat) (s : State), 3 ≤ width → tget false s.pins.capIn i = level →
    exec (.capture i level odd width) s = .next { s with out := [] }) ∧
  (∀ (i : Fin 16) (stamp : Tick) (s : State), s.pending = [] → clocked s = true → timeRuns s = true → s.time.capPend = [(i.val, stamp)] →
    (stamp.toNat + 3) / 2 * 2 + 2 ≤ s.t + 2 → s.t + 2 < 2 ^ 64 →
    ∃ t, step s = .next t ∧ t.time.capPend = [] ∧ bit (t.rd Reg.CAP_STAT_NEW) i = true ∧
      (bit (s.rd Reg.CAP_STAT_NEW) i = false → t.time.captures = tset 0 s.time.captures i stamp) ∧
      (bit (s.rd Reg.CAP_STAT_NEW) i = true → t.time.captures = s.time.captures ∧ bit (t.rd Reg.CAP_STAT_OVR) i = true)) ∧
  (∀ (s : State), s.time.sleep = .entering →
    exec .sleepEntryEdge s = .next { s with out := [], time := { s.time with
      sleep := .asleep, pwrSleep := true, tA := s.time.now, sleptFrom := s.epoch.start, sleptNum := s.epoch.num
      sleptPrev := s.epoch.prev, units := [], capPend := [] } }) ∧
  (∀ (s : State), s.time.sleep = .asleep →
    exec .pwrWake s = .next { s with out := [], time := { s.time with sleep := .waking } }) ∧
  (∀ (edges : Word) (s : State), s.time.sleep = .waking →
    ∃ t, exec (.sleepMakeup edges) s = .next t ∧ t.time = { s.time with
        now := BitVec.ofNat 64 ((16 * s.time.tA.toNat + edges.toNat * 1953125) / 32 * 2)
        sleep := .awake
        pwrSleep := false
        wakeSync := !s.isMaster
        wakeHold := !s.isMaster
        lastStart := none
        lastDone := BitVec.ofNat 64 ((16 * s.time.tA.toNat + edges.toNat * 1953125) / 32 * 2)
        waiting := []
        units := [] } ∧
      (s.su.open_ = false → t.epoch = s.epoch) ∧ Keeps [.out, .regs, .time, .epoch, .pwr, .bar, .gate, .edw] s t)

/-- R172, R176, R193, R194, R198, R350, R352, R468, R470: thaws. A thaw that is due opens the next epoch at its tick and takes LAST cycles of 2 ticks
each; thaw 0 opens epoch 0 and the die; the reload of a time unit lets the unit run; the deep thaw leaves its drain when nothing of the group remains
in transport, and ends when the copy has ended. Complete, each with the effects stated: thaw, thaw0, timeUnitReload, deepThawDrainEnd,
deepThawCopyEnd. -/
def Obligations.Thaws : Prop :=
  (∀ (during : List ThawInput) (s : State), thawDue s = true → s.time.running = true →
    ∃ t, exec (.thaw during) s = .next t ∧
      t.epoch = ⟨s.epoch.num + 1, BitVec.ofNat 64 (nextThaw s), s.epoch.start, none⟩ ∧
      (∃ n, 5 ≤ n ∧ t.time = { s.time with
          now := s.time.now + BitVec.ofNat 64 (2 * n), rateAcc := t.time.rateAcc, captures := t.time.captures, capPend := t.time.capPend
          t1 := t.time.t1, waiting := t.time.waiting } ∧
        t.rd Reg.THAW_STATUS_LAST = n % 2 ^ 5) ∧
      t.su.open_ = true ∧ t.su.phase = s.su.phase ∧
      Keeps [.out, .regs, .staged, .time, .epoch, .src, .yar, .acc, .firn, .xb, .rq, .arb, .core, .clus, .camp, .seg, .lnk, .rec_,
        .img, .rime, .pwr, .su, .bar, .gate, .edw, .trc, .tst] s t) ∧
  (∀ (during : List ThawInput) (s : State), clocked s = true → s.time.running = true → s.su.open_ = false → s.su.phase = 5 →
    thaw0Tick s ≤ s.t →
    ∃ t, exec (.thaw0 during) s = .next t ∧ t.epoch = ⟨0, thaw0Start s, thaw0Start s, none⟩ ∧ t.su.open_ = true ∧ t.su.phase = 6 ∧
      (∃ n, 5 ≤ n ∧ t.time = { s.time with
        now := s.time.now + BitVec.ofNat 64 (2 * n), rateAcc := t.time.rateAcc, captures := t.time.captures, capPend := t.time.capPend
        t1 := t.time.t1, waiting := t.time.waiting }) ∧
      Keeps [.out, .regs, .staged, .time, .epoch, .src, .yar, .acc, .firn, .xb, .rq, .arb, .core, .clus, .camp, .seg, .lnk, .rec_,
        .img, .rime, .pwr, .su, .bar, .gate, .edw, .trc, .tst] s t) ∧
  (∀ (u : Fin 21) (s : State), clocked s = true →
    (if u.val = 0 then decide (2 ≤ s.su.phase) else if u.val < 5 then s.on (15 + u.val) else s.on (u.val - 5)) = true →
    ∃ t, exec (.timeUnitReload u) s = .next t ∧ t.time = { s.time with units := tset false s.time.units u true } ∧
      (u.val = 0 → s.su.phase = 2 → s.su.soft = true → t.su.phase = 4) ∧
      (u.val ≠ 0 ∨ s.su.phase ≠ 2 → t.su = s.su) ∧
      Keeps [.out, .regs, .staged, .time, .clus, .lnk, .img, .pwr, .su] s t) ∧
  (∀ (s : State), clocked s = true → s.img.dtPhase = 3 → groupInTransport s s.img.dtRegion = false →
    exec .deepThawDrainEnd s = .next { s with out := [], img := { s.img with dtPhase := 4 } }) ∧
  (∀ (s : State), clocked s = true → s.img.dtPhase = 4 →
    ∃ t, exec .deepThawCopyEnd s = .next t ∧ t.img.dtPhase = 0 ∧ t.img.dtHold = false ∧ t.flag Reg.DT_STAT_DONE = true ∧
      t.yar = (if s.img.load.st = .ready then (copyGroup s.img.dtRegion s).yar else s.yar) ∧ Keeps [.out, .regs, .yar, .img, .rime] s t)

/-- R251, R257, R261 to R263, R285, R512: the training of a port. Each state's command takes the port to the next: energy to LOCK, lock to ALIGN,
alignment to IDENT, a matching identity to CREDIT, both credits to UP with source 5,132 + p; a bound passed leads back to DETECT with cause 5, a wrong
peer and a lost lane to DOWN with causes 6 and 1. Complete, each with the effects stated: laneEnergyDetect, laneLockDone, alignDone, ident,
creditMarker, linkUp, trainingTimeout, downIdleEnd, laneLockLost, bscModeChange. -/
def Obligations.Training : Prop :=
  (∀ (p : Fin 4) (s : State), clocked s = true → (s.port p).st = .detect →
    exec (.laneEnergyDetect p) s = .next ({ s with out := [] }.setPort p { s.port p with st := .lock, since := s.time.now })) ∧
  (∀ (p : Fin 4) (s : State), clocked s = true → (s.port p).st = .lock →
    ∃ t, exec (.laneLockDone p) s = .next t ∧ t.port p = { s.port p with locked := 0xF, st := .align, since := s.time.now } ∧
      (∀ q, q ≠ p.val → t.port q = s.port q) ∧ Keeps [.out, .lnk] s t) ∧
  (∀ (p : Fin 4) (s : State), clocked s = true → (s.port p).st = .align →
    ∃ t, exec (.alignDone p) s = .next t ∧ t.port p = { s.port p with st := .ident, since := s.time.now } ∧
      (∀ q, q ≠ p.val → t.port q = s.port q) ∧ t.out = [.slot p (slotLevels (sealFrame (mkFrame 6 0 (identOf s p)) 0 0))] ∧
      Keeps [.out, .lnk] s t) ∧
  (∀ (p : Fin 4) (content : BitVec 128) (s : State), clocked s = true → (s.port p).st = .ident →
    content.getLsbD 7 = decide (2 ≤ p.val) → (s.flag (Reg.LNK_PEER_EXPEN p) = false ∨
      (s.rd (Reg.LNK_PEER_EXPECT p) = (content.extractLsb' 0 5).toNat ∧ s.rd (Reg.LNK_PEER_EXPPORT p) = (content.extractLsb' 5 2).toNat)) →
    (∃ t, exec (.ident p ⟨content, true⟩) s = .next t ∧ (t.port p).st = .credit ∧ (t.port p).scrTx = scrSeeds ∧
      t.rd (Reg.LNK_PEER_PEER p) = (content.extractLsb' 0 5).toNat ∧ t.rd (Reg.LNK_PEER_PEERPORT p) = (content.extractLsb' 5 2).toNat ∧
      Keeps [.out, .regs, .src, .firn, .xb, .lnk, .pwr, .trc] s t) ∧
    ∃ t, exec (.ident p ⟨content, false⟩) s = .next t ∧ (t.port p).st = .ident ∧ (t.port p).checked = true ∧
      t.rd (Reg.LNK_PEER_PEER p) = (content.extractLsb' 0 5).toNat ∧ t.rd (Reg.LNK_PEER_PEERPORT p) = (content.extractLsb' 5 2).toNat ∧
      Keeps [.out, .regs, .src, .firn, .xb, .lnk, .pwr, .trc] s t) ∧
  (∀ (p : Fin 4) (content : BitVec 128) (both : Bool) (s : State), clocked s = true → (s.port p).st = .ident →
    (content.getLsbD 7 ≠ decide (2 ≤ p.val) ∨ (s.flag (Reg.LNK_PEER_EXPEN p) = true ∧
      (s.rd (Reg.LNK_PEER_EXPECT p) ≠ (content.extractLsb' 0 5).toNat ∨ s.rd (Reg.LNK_PEER_EXPPORT p) ≠ (content.extractLsb' 5 2).toNat))) →
    ∃ t, exec (.ident p ⟨content, both⟩) s = .next t ∧
      t.port p = { unseeded (s.port p) with st := .down, fell := true, since := s.time.now, idleFrom := some s.time.now, noRetrain := true } ∧
      (∀ q, q ≠ p.val → t.port q = s.port q) ∧ Keeps [.out, .regs, .src, .lnk, .trc] s t) ∧
  (∀ (p : Fin 4) (s : State), clocked s = true →
    ((s.port p).st = .credit ∨ ((s.port p).st = .ident ∧ (s.port p).checked = false) →
      exec (.creditMarker p) s = .next ({ s with out := [] }.setPort p { s.port p with scrRx := scrSeeds, fec := [] })) ∧
    ((s.port p).st = .ident → (s.port p).checked = true →
      ∃ t, exec (.creditMarker p) s = .next t ∧
        t.port p = { s.port p with st := .credit, since := s.time.now, scrRx := scrSeeds, scrTx := scrSeeds, fec := [], group := [], checked := false } ∧
        (∀ q, q ≠ p.val → t.port q = s.port q) ∧
        t.out = [.slot p (slotLevels (sealFrame (mkFrame 6 0 ((0xC5 : BitVec 8) ++ (0 : BitVec 120))) 0 0))] ∧ Keeps [.out, .lnk] s t)) ∧
  (∀ (p : Fin 4) (slots : Nat) (s : State), clocked s = true → (s.port p).st = .credit → (s.port p).resolving = false → (s.port p).scrRx ≠ [] →
    ∃ t, exec (.linkUp ⟨p, slots⟩) s = .next t ∧ (t.port p).st = .up ∧ (t.port p).next = 0 ∧ (t.port p).expect = 0 ∧
      (t.port p).everUp = true ∧ (2 ≤ p.val → (t.port p).scrRx = (s.port p).scrRx) ∧
      (p.val < 2 → slots = 1 → (t.port p).scrRx = scrSlot (s.port p).scrRx) ∧
      Keeps [.out, .regs, .src, .xb, .lnk, .rec_, .pwr, .trc] s t) ∧
  (∀ (p : Fin 4) (b : Nat) (s : State), clocked s = true → trainBound p (s.port p).st = some b → (s.port p).since.toNat + b ≤ s.t →
    ∃ t, exec (.trainingTimeout p) s = .next t ∧ t.port p = { unseeded (s.port p) with st := .detect, since := s.time.now, locked := 0 } ∧
      (∀ q, q ≠ p.val → t.port q = s.port q) ∧ t.rd (Reg.LNK_STAT_CAUSE p) = 5 ∧ Keeps [.out, .regs, .lnk] s t) ∧
  (∀ (p : Fin 4) (s : State), clocked s = true → idleOver s p = true → s.on (lnkDom p) = true → s.pins.bscMode = false →
    ((s.port p).st = .down ∧ s.flag (Reg.LNK_CTRL_AUTO p) = true ∧ (s.port p).noRetrain = false →
      exec (.downIdleEnd p) s = .next ({ s with out := [] }.setPort p { s.port p with st := .detect, since := s.time.now, locked := 0 })) ∧
    ((s.port p).st = .off ∧ s.flag (Reg.LNK_CTRL_EN p) = true ∧ testing s p = false →
      exec (.downIdleEnd p) s = .next ({ s with out := [] }.setPort p
        { s.port p with st := .detect, since := s.time.now, locked := 0, noRetrain := false }))) ∧
  (∀ (p lane : Fin 4) (s : State), clocked s = true →
    ((s.port p).st ≠ .up → exec (.laneLockLost p lane) s = .next ({ s with out := [] }.setPort p
      { s.port p with locked := (s.port p).locked &&& ~~~(1#4 <<< lane.val) })) ∧
    ((s.port p).st = .up → ∃ t, exec (.laneLockLost p lane) s = .next t ∧ (t.port p).st = .down ∧ (t.port p).resolving = true ∧
      (t.port p).downAt = s.time.now ∧ (t.port p).lastRx = (s.port p).expect - 1 ∧
      Keeps [.out, .regs, .time, .src, .xb, .arb, .lnk, .trc] s t)) ∧
  (∀ (s : State), clocked s = true →
    ∃ t, exec (.bscModeChange true) s = .next t ∧ t.pins = { s.pins with bscMode := true } ∧
      (∀ p, p < 4 → (t.port p).st = .off) ∧ Keeps [.out, .fresh, .pins, .regs, .time, .src, .xb, .arb, .lnk, .trc] s t) ∧
  (∀ (level : Bool) (s : State), clocked s = false →
    exec (.bscModeChange level) s = .next { s with out := [], pins := { s.pins with bscMode := level } })

/-- R251, R253, R254, R258, R269, R271, R272: what a port in UP does with the frames it receives, as it has descrambled them. A DATA frame with
sequence E is taken, and E advances; any other is discarded, and a NAK with E waits to be sent unless one is outstanding (a full receive buffer counts
as such a discard, log entry 40). An ACK or a NAK frees the records up to its sequence, and a NAK starts a replay there. A reserved type is counted,
and so is a frame that fails its check; a TRAIN frame of a peer that is still in CREDIT takes its slot. Complete, each with the effects stated: data,
ack, nak, linkFrameReject. -/
def Obligations.ReceivedFrames : Prop :=
  (∀ (p : Fin 4) (frame : LinkFrame) (s : State), clocked s = true → receives s p frame = true → frType frame = 1 →
    frSeq frame = (s.port p).expect → (s.port p).rx.length + lostIn s (52 + p) < 32 → badMsg (Msg.unpack (frMsg frame)) = false →
    ∃ t owe rx, exec (.data p (heard s p frame)) s = .next t ∧
      t.port p = { received s p frame with
        expect := (s.port p).expect + 1, nak := none, sinceAck := (s.port p).sinceAck + 1
        ackFrom := if (s.port p).sinceAck = 0 then s.time.now else (s.port p).ackFrom, owe := owe, rx := rx } ∧
      (∀ q, q ≠ p.val → t.port q = s.port q) ∧ Keeps [.out, .regs, .time, .src, .xb, .arb, .lnk, .pwr, .trc] s t) ∧
  (∀ (p : Fin 4) (frame : LinkFrame) (s : State), clocked s = true → receives s p frame = true → frType frame = 1 →
    (frSeq frame ≠ (s.port p).expect ∨ 32 ≤ (s.port p).rx.length + lostIn s (52 + p)) →
    ∃ t, exec (.data p (heard s p frame)) s = .next t ∧
      t.port p = (if (s.port p).nak.isSome then received s p frame
        else { received s p frame with
          nak := some s.time.now, ctl := (s.port p).ctl ++ [mkFrame 2 (s.port p).expect 0] }) ∧
      (∀ q, q ≠ p.val → t.port q = s.port q) ∧ Keeps [.out, .lnk] s t) ∧
  (∀ (p : Fin 4) (frame : LinkFrame) (k : Nat) (s : State), clocked s = true → receives s p frame = true → frType frame = 0 →
    (s.port p).unacked.findIdx? (·.1 == frSeq frame) = some k →
    ∃ t, exec (.ack p (heard s p frame)) s = .next t ∧ (t.port p).unacked = (s.port p).unacked.drop (k + 1) ∧
      (t.port p).acked = frSeq frame ∧ (t.port p).progress = s.time.now ∧ (t.port p).st = .up ∧
      (∀ q, q ≠ p.val → t.port q = s.port q) ∧ Keeps [.out, .firn, .lnk] s t) ∧
  (∀ (p : Fin 4) (frame : LinkFrame) (k : Nat) (s : State), clocked s = true → receives s p frame = true → frType frame = 2 →
    (s.port p).unacked.findIdx? (·.1 == frSeq frame) = some k → (s.port p).replayFrom ≠ some (frSeq frame) →
    2 ≤ s.rd (Reg.LNK_CTRL_REPLAYLIM p) →
    ∃ t, exec (.nak p (heard s p frame)) s = .next t ∧ (t.port p).unacked = (s.port p).unacked.drop k ∧
      (t.port p).replay = some 0 ∧ (t.port p).replayFrom = some (frSeq frame) ∧ (t.port p).replayRuns = 1 ∧ (t.port p).st = .up ∧
      t.regs = (s.inc (Reg.LNK_ERR0_REPLAY p)).regs ∧ (∀ q, q ≠ p.val → t.port q = s.port q) ∧
      Keeps [.out, .regs, .firn, .lnk] s t) ∧
  (∀ (p : Fin 4) (frame : LinkFrame) (s : State), clocked s = true → receives s p frame = true → 7 ≤ frType frame →
    ∃ t, exec (.linkFrameReject p (heard s p frame)) s = .next t ∧ t.port p = received s p frame ∧
      t.regs = (s.inc (Reg.LNK_ERR2_BADTYPE p)).regs ∧ (∀ q, q ≠ p.val → t.port q = s.port q) ∧ Keeps [.out, .regs, .lnk] s t) ∧
  (∀ (p : Fin 4) (frame : LinkFrame) (s : State), clocked s = true → receives s p frame = true → frType frame = 6 →
    ∃ t, exec (.linkFrameReject p (heard s p frame)) s = .next t ∧ t.port p = received s p frame ∧
      (∀ q, q ≠ p.val → t.port q = s.port q) ∧ Keeps [.out, .lnk] s t) ∧
  (∀ (p : Fin 4) (frame : LinkFrame) (s : State), clocked s = true → (s.port p).st = .up → p.val < 2 → frType frame ≠ 1 →
    frOk frame = false → (s.port p).failRun < 7 →
    ∃ t, exec (.linkFrameReject p (heard s p frame)) s = .next t ∧
      t.port p = { s.port p with
        scrRx := scrSlot (s.port p).scrRx, failRun := (s.port p).failRun + 1 } ∧
      t.regs = (s.inc (Reg.LNK_ERR0_CRC p)).regs ∧ (∀ q, q ≠ p.val → t.port q = s.port q) ∧ Keeps [.out, .regs, .lnk] s t)

/-- R251, R257, R259, R269, R270, R272, R285: the bounds that a port in UP keeps. An ACK is due after 8 frames taken or 16 slots after one; a NAK that
nothing followed is sent again; the lack of progress over the bound starts a replay, and too many in a row take the port down. The decoder of a
long-reach port descrambles the 17 slots of a group and passes the frames it has corrected, but for training frames. Complete, each with the effects
stated: ackTimer, nakTimeout, replayTimeout, fecBlockDecode. -/
def Obligations.LinkBounds : Prop :=
  (∀ (p : Fin 4) (s : State), clocked s = true → (s.port p).st = .up → ackDue s p = true →
    ∃ t, exec (.ackTimer p) s = .next t ∧
      t.port p = { s.port p with
        sinceAck := 0, ctl := (s.port p).ctl ++ [mkFrame 0 ((s.port p).expect - 1) 0] } ∧
      (∀ q, q ≠ p.val → t.port q = s.port q) ∧ Keeps [.out, .lnk] s t) ∧
  (∀ (p : Fin 4) (b : BitVec 64) (s : State), clocked s = true → (s.port p).st = .up → (s.port p).nak = some b →
    b.toNat + ackTmo s p ≤ s.t →
    ∃ t, exec (.nakTimeout p) s = .next t ∧
      t.port p = { s.port p with
        nak := some s.time.now, ctl := (s.port p).ctl ++ [mkFrame 2 (s.port p).expect 0] } ∧
      (∀ q, q ≠ p.val → t.port q = s.port q) ∧ Keeps [.out, .lnk] s t) ∧
  (∀ (p : Fin 4) (q : BitVec 8) (m : Msg) (l : List (BitVec 8 × Msg)) (s : State), clocked s = true → (s.port p).st = .up →
    (s.port p).unacked = (q, m) :: l → (s.port p).progress.toNat + ackTmo s p ≤ s.t →
    ((s.port p).replayFrom ≠ some q → 2 ≤ s.rd (Reg.LNK_CTRL_REPLAYLIM p) →
      ∃ t, exec (.replayTimeout p) s = .next t ∧
        t.port p = { s.port p with
          replay := some 0, replayFrom := some q, replayRuns := 1, progress := s.time.now } ∧
        t.regs = (s.inc (Reg.LNK_ERR0_REPLAY p)).regs ∧ (∀ q, q ≠ p.val → t.port q = s.port q) ∧ Keeps [.out, .regs, .lnk] s t) ∧
    ((s.port p).replayFrom = some q → max 1 (s.rd (Reg.LNK_CTRL_REPLAYLIM p)) ≤ (s.port p).replayRuns + 1 →
      ∃ t, exec (.replayTimeout p) s = .next t ∧ (t.port p).st = .down ∧ (t.port p).resolving = true ∧
        (∀ q, q ≠ p.val → t.port q = s.port q) ∧ Keeps [.out, .regs, .time, .src, .xb, .arb, .lnk, .trc] s t)) ∧
  (∀ (p : Fin 4) (raw frames : List LinkFrame) (rawParity parity : LinkFrame) (f g : Nat → LinkFrame) (fix : Nat → Bool) (s : State),
    raw.length = 16 → frames.length = 16 → 2 ≤ p.val → (s.port p).st = .up → (s.port p).scrRx ≠ [] →
    (descramble (raw ++ [rawParity]) (s.port p).scrRx).1 = frames ++ [parity] →
    (∀ b, b < 8 → frOk (f b) = true ∧ frOk (g b) = true ∧
      rsDecode (frames.getD (2 * b) 0) (frames.getD (2 * b + 1) 0) (parity.extractLsb' (20 * b + 10) 10).toNat
        (parity.extractLsb' (20 * b) 10).toNat = some (f b, g b, fix b)) →
    ∃ t, exec (.fecBlockDecode p raw rawParity) s = .next t ∧ (t.port p).st = .up ∧ (t.port p).failRun = 0 ∧
      (t.port p).scrRx = (descramble (raw ++ [rawParity]) (s.port p).scrRx).2 ∧
      (t.port p).fec = (s.port p).fec ++ ((List.range 8).flatMap fun b => [f b, g b]).filter (fun x => frType x ≠ 6) ∧
      (∀ q, q ≠ p.val → t.port q = s.port q) ∧ Keeps [.out, .regs, .lnk] s t) ∧
  (∀ (p : Fin 4) (raw : List LinkFrame) (rawParity : LinkFrame) (s : State), raw.length = 16 → 2 ≤ p.val →
    (s.port p).st = .credit → (s.port p).scrRx ≠ [] →
    ∃ t, exec (.fecBlockDecode p raw rawParity) s = .next t ∧ (t.port p).st = .credit ∧
      (t.port p).scrRx = (descramble (raw ++ [rawParity]) (s.port p).scrRx).2 ∧ (t.port p).fec = (s.port p).fec ∧
      (∀ q, q ≠ p.val → t.port q = s.port q) ∧ Keeps [.out, .regs, .lnk] s t)

/-- R287 to R289: after a down. A port that has gone down sends up to four REPORTs; a REPORT for another die goes on toward it, and one that names a
port of this die takes it down when it is UP (cause 4, log entry 39) and resolves it; the report bound resolves it otherwise; SETTLE ends the
resolution. Complete, each with the effects stated: reportSend, report, reportTimeout, settleExpire. -/
def Obligations.Reports : Prop :=
  (∀ (p : Fin 4) (q : Nat) (s : State), clocked s = true → (s.port p).reports < 4 →
    ((s.port p).reports = 0 ∨ (s.port p).lastReport.toNat + 256 ≤ s.t) → portToward s (peerOf s p) = some q → q ≠ p.val →
    ∃ t, exec (.reportSend p) s = .next t ∧
      t.port p = { s.port p with
        reports := (s.port p).reports + 1, lastReport := s.time.now } ∧
      t.port q = { s.port q with
        ctl := (s.port q).ctl ++ [mkFrame 5 0 (BitVec.ofNat 128 ((peerOf s p).toNat + 2 ^ 5 * s.die.toNat + 2 ^ 10 * p.val
          + 2 ^ 12 * (s.port p).lastRx.toNat + 2 ^ 20 * b2n (s.port p).lastNone))] } ∧
      (∀ k, k ≠ p.val → k ≠ q → t.port k = s.port k) ∧ Keeps [.out, .lnk] s t) ∧
  (∀ (p : Fin 4) (frame : LinkFrame) (q : Nat) (s : State), clocked s = true → receives s p frame = true → frType frame = 5 →
    (frMsg frame).extractLsb' 0 5 ≠ s.die → portToward s ((frMsg frame).extractLsb' 0 5) = some q → q ≠ p.val →
    ∃ t, exec (.report p (heard s p frame)) s = .next t ∧ t.port p = received s p frame ∧
      t.port q = { s.port q with
        ctl := (s.port q).ctl ++ [mkFrame 5 0 (frMsg frame)] } ∧
      (∀ k, k ≠ p.val → k ≠ q → t.port k = s.port k) ∧ Keeps [.out, .lnk] s t) ∧
  (∀ (p : Fin 4) (frame : LinkFrame) (q : Nat) (s : State), clocked s = true → receives s p frame = true → frType frame = 5 →
    (frMsg frame).extractLsb' 0 5 = s.die → q < 4 → q ≠ p.val →
    (∀ k, k < 4 → (peerOf s k = (frMsg frame).extractLsb' 5 5 ∧ s.rd (Reg.LNK_PEER_PEERPORT k) = ((frMsg frame).extractLsb' 10 2).toNat ∧
      (s.port k).everUp = true ↔ k = q)) →
    ((s.port q).st = .up ∨ ((s.port q).resolving = true ∧ (s.port q).entered = false)) →
    ∃ t, exec (.report p (heard s p frame)) s = .next t ∧ (t.port q).st = (if (s.port q).st = .up then .down else (s.port q).st) ∧
      (t.port q).resolving = true ∧ (t.port q).entered = true ∧ (t.port q).unacked = [] ∧ (t.port q).tx = [] ∧
      t.port p = received s p frame ∧ (∀ k, k ≠ p.val → k ≠ q → t.port k = s.port k) ∧
      Keeps [.out, .regs, .time, .src, .firn, .xb, .arb, .lnk, .pwr, .trc] s t) ∧
  (∀ (p : Fin 4) (s : State), clocked s = true → (s.port p).resolving = true → (s.port p).entered = false →
    (s.port p).downAt.toNat + 256 * max 1 (s.rd (Reg.LNK_CTRL_RPTTMO p)) ≤ s.t →
    ∃ t, exec (.reportTimeout p) s = .next t ∧ (t.port p).resolving = true ∧ (t.port p).entered = true ∧ (t.port p).unacked = [] ∧
      (t.port p).tx = [] ∧ (t.port p).acked = (s.port p).acked ∧ (∀ k, k ≠ p.val → t.port k = s.port k) ∧
      Keeps [.out, .regs, .src, .firn, .xb, .lnk, .pwr, .trc] s t) ∧
  (∀ (p : Fin 4) (b : BitVec 64) (s : State), clocked s = true → (s.port p).resolving = true → (s.port p).resolved = some b →
    b.toNat + 256 * s.rd (Reg.LNK_CTRL_SETTLE p) ≤ s.t →
    ∃ t, exec (.settleExpire p) s = .next t ∧ (t.port p).resolving = false ∧ (t.port p).entered = false ∧ (t.port p).resolved = none ∧
      (t.port p).st = (s.port p).st ∧ Keeps [.out, .regs, .src, .xb, .lnk, .pwr, .trc] s t)

/-- R293, R294, R511: beside the traffic. The audit goes on to its next entry, and reports one that can be neither free nor held and is found so on
two passes in a row with source 5,121. The checker of a lane under test locks, counts, and loses lock. Complete, each with the effects stated:
auditVisit, checkerLocked, checkerLockLost. -/
def Obligations.AuditAndPatternTest : Prop :=
  (∀ (lost : Bool) (s : State), clocked s = true → s.flag Reg.AUDIT_CTRL_EN = true → s.time.sleep = .awake → s.latchOf 5121 = none →
    ∃ t, exec (.auditVisit lost) s = .next t ∧ t.audit.pos = (if 2752 ≤ s.audit.pos + 1 then 0 else s.audit.pos + 1) ∧
      (s.audit.pos ∈ t.audit.found ↔ lost = true ∧ mayLeak s s.audit.pos = true ∧ s.audit.pos ∉ s.audit.found) ∧
      (∀ k, k ≠ s.audit.pos → (k ∈ t.audit.found ↔ k ∈ s.audit.found)) ∧
      t.latchOf 5121 = (if lost = true ∧ s.audit.pos ∈ s.audit.found then
        some ⟨s.time.now, BitVec.ofNat 16 ((auditAt s.audit.pos).1 + 256 * (auditAt s.audit.pos).2), 7, s.epoch.num, true, false⟩
        else none) ∧ Keeps [.out, .regs, .src, .audit] s t) ∧
  (∀ (p lane : Fin 4) (errs : Nat) (s : State), clocked s = true → testing s p = true →
    exec (.checkerLocked p lane errs) s = .next { s with out := [], tst := { s.tst with
      locked := tset false s.tst.locked (laneKey p lane) true,
      errs := tset 0 s.tst.errs (laneKey p lane) (min (2 ^ 32 - 1) (tget 0 s.tst.errs (laneKey p lane) + errs)) } }) ∧
  (∀ (p lane : Fin 4) (errs : Nat) (s : State), clocked s = true → testing s p = true → tget false s.tst.locked (laneKey p lane) = true →
    exec (.checkerLockLost p lane errs) s = .next { s with out := [], tst := { s.tst with
      locked := tset false s.tst.locked (laneKey p lane) false,
      errs := tset 0 s.tst.errs (laneKey p lane) (min (2 ^ 32 - 1) (tget 0 s.tst.errs (laneKey p lane) + errs)) } })

/-- R303 to R306, R310, R311: exactly-once delivery inside a die. HAND_IN moves the next message of a region's crossing into its lane, a restored copy
to its place at the head, and discards a flagged copy of an event held here. A completion that reaches its custody record completes the replica: its
DONE goes to the origin, or, at the origin itself, the event's record is released and the custody record freed. DONE, CONFIRM and RESTORE tokens do
the same between dies, and a flagged record outlives its CONFIRM by PSETTLE. Complete, each with the effects stated: handIn, replicaComplete,
fenceDone, fenceConfirm, custodySettleExpire, fenceRestore. -/
def Obligations.ExactlyOnce : Prop :=
  (∀ (r : Fin 4) (x : XMsg) (l : List XMsg) (s : State), clocked s = true → s.crossing r = x :: l → s.on (16 + r) = true →
    (x.dup = true → exec (.handIn r) s = .next (({ s with out := [] }.setCrossing r l).inc Reg.REC_CNT_DUP)) ∧
    (x.dup = false → (∀ d ∈ s.rq.redirect, ¬ (d.u = x.u ∧ d.origin = x.msg.origin ∧ d.source = x.msg.source)) →
      (x.restored = true → exec (.handIn r) s =
        .next (({ s with out := [] }.setCrossing r l).setLane x.u (enterRestored x.msg (s.lane x.u)))) ∧
      (x.restored = false → x.msg.cls ≠ .s → exec (.handIn r) s =
        .next (({ s with out := [] }.setCrossing r l).setLane x.u (s.lane x.u ++ [x.msg]))))) ∧
  (∀ (m : Msg) (l : List Msg) (k : Nat) (c : FirnRec) (s : State), clocked s = true → s.firn.dones = m :: l →
    custodyAt s (destLane m.dest) m = some (k, c) → c.msg.origin ≠ s.die →
    ∃ t, exec .replicaComplete s = .next t ∧ t.firn.dones = l ∧
      t.recOf k = some { c with msg := { c.msg with repres := c.msg.repres || m.repres }, done := true } ∧
      (∀ j, j ≠ k → t.recOf j = s.recOf j) ∧
      enRoute t (fenceTok s 4 c.msg.origin c.msg.source c.msg.seq (dieAddr (doneTarget s c.msg.origin)) .g c.msg.dest 0) ∧
      Keeps [.out, .regs, .src, .firn, .xb, .pwr, .trc] s t) ∧
  (∀ (m : Msg) (l : List Msg) (k j : Nat) (c e : FirnRec) (s : State), clocked s = true → s.firn.dones = m :: l →
    custodyAt s (destLane m.dest) m = some (k, c) → c.msg.origin = s.die → s.acc.offers = [] →
    firnFind s (fun r => r.kind == .event && r.msg.sameId c.msg) = some (j, e) → j ≠ k → e.releasing = false →
    e.need = [c.msg.dest] → c.msg.dest ∉ e.came → e.partner = none → e.donors = [] →
    ∃ t, exec .replicaComplete s = .next t ∧ t.firn.dones = l ∧ t.recOf j = none ∧
      t.recOf k = (if c.msg.repres || m.repres then
        some { c with msg := { c.msg with repres := true }, done := true, settle := some s.time.now } else none) ∧
      (∀ i, i ≠ j → i ≠ k → t.recOf i = s.recOf i) ∧ Keeps [.out, .firn] s t) ∧
  (∀ (m : Msg) (l : List Msg) (k : Nat) (e : FirnRec) (s : State), clocked s = true → fenceIn s 4 m l → s.acc.offers = [] →
    firnFind s (fun r => r.kind == .event && r.msg.sameId m) = some (k, e) → e.releasing = false →
    fenceReplica m ∈ e.need → senderOf m ≠ s.die →
    (fenceReplica m ∉ e.came → ∃ t, exec (.fenceDone m) s = .next t ∧ t.xb.recIn = l ∧ (∀ j, j ≠ k → t.recOf j = s.recOf j) ∧
      (e.need.erase (fenceReplica m) ≠ [] → t.recOf k = some { e with
        need := e.need.erase (fenceReplica m), came := e.came ++ [fenceReplica m], donors := e.donors ++ [senderOf m] }) ∧
      (e.need.erase (fenceReplica m) = [] → e.partner = none → t.recOf k = none ∧
        ∀ d ∈ e.donors ++ [senderOf m], enRoute t (fenceTok s 5 e.msg.origin e.msg.source e.msg.seq (dieAddr d) .g 0 0)) ∧
      Keeps [.out, .regs, .src, .acc, .firn, .xb, .pwr, .trc] s t) ∧
    (fenceReplica m ∈ e.came → ∃ t, exec (.fenceDone m) s = .next t ∧ t.xb = { s.xb with recIn := l } ∧
      t.recOf k = some { e with donors := e.donors ++ [senderOf m] } ∧ (∀ j, j ≠ k → t.recOf j = s.recOf j) ∧ Keeps [.out, .firn, .xb] s t)) ∧
  (∀ (m : Msg) (l : List Msg) (k : Nat) (c : FirnRec) (s : State), clocked s = true → fenceIn s 5 m l →
    firnAll s (fun r => r.kind == .custody && r.done && r.msg.sameId m) = [(k, c)] → c.settle = none →
    ∃ t, exec (.fenceConfirm m) s = .next t ∧ t.xb = { s.xb with recIn := l } ∧
      t.recOf k = (if c.msg.repres then some { c with done := true, settle := some s.time.now } else none) ∧
      (∀ j, j ≠ k → t.recOf j = s.recOf j) ∧ Keeps [.out, .firn, .xb] s t) ∧
  (∀ (idx : BitVec 14) (c : FirnRec) (b : Tick) (s : State), clocked s = true → s.recOf idx.toNat = some c → c.settle = some b →
    c.kind = .custody → b.toNat + psettle s ≤ s.t →
    exec (.custodySettleExpire idx) s = .next ({ s with out := [] }.setRec idx.toNat none)) ∧
  (∀ (m : Msg) (l : List Msg) (k : Nat) (e : FirnRec) (s : State), clocked s = true → fenceIn s 6 m l →
    firnFind s (fun r => r.kind == .event && r.msg.sameId m) = some (k, e) → e.poisoned = false → e.msg.cls ≠ .s →
    ∃ t, exec (.fenceRestore m) s = .next t ∧ t.xb.recIn = l ∧
      (∀ x ∈ e.need, enRoute t { e.msg.flag with
        dest := x, epoch := if e.acting then s.epoch.num.truncate 8 else e.msg.epoch }) ∧
      Keeps [.out, .regs, .src, .xb, .pwr, .trc] s t)

/-- R312, R315, R317: probes and lost dies. A record incomplete for longer than AGE is probed; a die answers held, done or absent; held or done clears
the replica's absence, a first absence is noted, and a second sends the replica again. ACTING names the die that takes DONE for an origin, and LOSS
ends that; the LOSS of an origin whose Firn is lost starts the takeover of its partner, behind any that is under way. Complete, each with the effects
stated: ageProbe, fenceProbe, fenceAnswer, fenceActing, fenceLoss. -/
def Obligations.ProbesAndLosses : Prop :=
  (∀ (idx : BitVec 14) (e : FirnRec) (s : State), clocked s = true → s.recOf idx.toNat = some e → s.flag Reg.REC_CTRL_AGEN = true →
    e.kind = .event → e.accepted = true → e.need ≠ [] → e.since.toNat + ageTicks s < s.t →
    ∃ t, exec (.ageProbe idx) s = .next t ∧ t.recOf idx.toNat = some { e with since := s.time.now } ∧
      (∀ j, j ≠ idx.toNat → t.recOf j = s.recOf j) ∧
      (∀ x ∈ e.need, enRoute t (fenceTok s 7 e.msg.origin e.msg.source e.msg.seq (dieAddr (targetDie x)) .g x 0)) ∧
      Keeps [.out, .regs, .src, .firn, .xb, .pwr, .trc] s t) ∧
  (∀ (m : Msg) (l : List Msg) (s : State), clocked s = true → fenceIn s 7 m l →
    ∃ t, exec (.fenceProbe m) s = .next t ∧ t.xb.recIn = l ∧
      enRoute t (fenceTok s 8 m.origin m.source m.seq (dieAddr (senderOf m)) .g (fenceReplica m)
        (16 * if s.edw.inbox.any (·.sameId m) then 1 else
          match custodyOf s m (fenceReplica m) with | none => 0 | some (_, c) => if c.done then 2 else 1)) ∧
      Keeps [.out, .regs, .src, .xb, .pwr, .trc] s t) ∧
  (∀ (m : Msg) (l : List Msg) (k : Nat) (e : FirnRec) (s : State), clocked s = true → fenceIn s 8 m l →
    firnFind s (fun r => r.kind == .event && r.msg.sameId m && r.need.contains (fenceReplica m)) = some (k, e) →
    (m.payload.extractLsb' 4 2 ≠ 0 →
      ∃ t, exec (.fenceAnswer m) s = .next t ∧ t.recOf k = some { e with absent := e.absent.filter (· != fenceReplica m) } ∧
        (∀ j, j ≠ k → t.recOf j = s.recOf j) ∧ t.xb = { s.xb with recIn := l } ∧ Keeps [.out, .firn, .xb] s t) ∧
    (m.payload.extractLsb' 4 2 = 0 → fenceReplica m ∉ e.absent →
      ∃ t, exec (.fenceAnswer m) s = .next t ∧ t.recOf k = some { e with absent := e.absent ++ [fenceReplica m] } ∧
        (∀ j, j ≠ k → t.recOf j = s.recOf j) ∧ t.xb = { s.xb with recIn := l } ∧ Keeps [.out, .firn, .xb] s t) ∧
    (m.payload.extractLsb' 4 2 = 0 → fenceReplica m ∈ e.absent → e.poisoned = false → e.msg.cls ≠ .s →
      ∃ t, exec (.fenceAnswer m) s = .next t ∧
        t.recOf k = some { e with absent := e.absent.filter (· != fenceReplica m), again := true } ∧
        (∀ j, j ≠ k → t.recOf j = s.recOf j) ∧ t.xb.recIn = l ∧
        (e.msg.cls ≠ .m → enRoute t { e.msg.flag with
          dest := fenceReplica m, epoch := if e.acting then s.epoch.num.truncate 8 else e.msg.epoch } ∧
          Keeps [.out, .regs, .src, .firn, .xb, .pwr, .trc] s t) ∧
        (e.msg.cls = .m → t.edw.inbox = s.edw.inbox ++ [e.msg.flag] ∧ Keeps [.out, .regs, .firn, .xb, .edw] s t))) ∧
  (∀ (m : Msg) (l : List Msg) (s : State), clocked s = true → fenceIn s 9 m l → m.origin ≠ s.die →
    ∃ t, exec (.fenceActing m) s = .next t ∧ t.xb.recIn = l ∧ doneTarget t m.origin = senderOf m ∧
      (∀ o, o ≠ m.origin → doneTarget t o = doneTarget s o) ∧ Keeps [.out, .regs, .src, .xb, .rec_, .pwr, .trc] s t) ∧
  (∀ (m : Msg) (l : List Msg) (s : State), clocked s = true → fenceIn s 10 m l →
    (m.payload.getLsbD 6 = false → ∃ t, exec (.fenceLoss m) s = .next t ∧ t.xb.recIn = l ∧ doneTarget t m.origin = m.origin ∧
      (∀ b, b ∈ t.rq.blocked ↔ b ∈ s.rq.blocked ∧ b.sender ≠ m.origin) ∧
      Keeps [.out, .regs, .src, .acc, .firn, .xb, .rq, .clus, .rec_, .pwr, .trc] s t) ∧
    (m.payload.getLsbD 6 = true → holdsMirrors s m.origin = true → hasPartner s m.origin = false → s.flag Reg.REC_CTRL_AGEN = false →
      s.rd Reg.REC_STAT_ACTING ≠ m.origin.toNat → s.flag Reg.REC_CTRL_PTAKE = true → takingOver s m.origin = false →
      ∃ t, exec (.fenceLoss m) s = .next t ∧ (s.rec_.acting = none → t.rec_.acting = some (m.origin, s.time.now)) ∧
        (∀ x, s.rec_.acting = some x → t.rec_.acting = some x ∧ t.rec_.actMore = s.rec_.actMore ++ [(m.origin, s.time.now)]) ∧
        doneTarget t m.origin = s.die ∧
        Keeps [.out, .regs, .src, .acc, .firn, .xb, .rq, .clus, .rec_, .pwr, .trc] s t))

/-- R317: the partner of an origin that no port has reached for PSETTLE broadcasts ACTING; PSETTLE later its mirror of the origin's event becomes an
event record that acts for it, and is probed while AGEN is 1; the next takeover then takes its place. Complete, each with the effects stated:
partnerNoRouteTimeout, takeoverSettleExpire. -/
def Obligations.Takeovers : Prop :=
  (∀ (o : BitVec 5) (b : Tick) (s : State), clocked s = true → tget none (noteRoutes s).rec_.noRoute o.toNat = some b →
    b.toNat + psettle s ≤ s.t → s.flag Reg.REC_CTRL_PTAKE = true →
    s.rec_.acting = none → s.rec_.actMore = [] →
    ∃ t, exec (.partnerNoRouteTimeout o) s = .next t ∧ t.rec_.acting = some (o, s.time.now) ∧ doneTarget t o = s.die ∧
      (∀ d ∈ bcastDies s, enRoute t (fenceTok s 9 o 0 0 (dieAddr d) .g 0 0)) ∧
      Keeps [.out, .regs, .src, .xb, .rec_, .pwr, .trc] s t) ∧
  (∀ (o : BitVec 5) (b : Tick) (k : Nat) (e : FirnRec) (s : State), clocked s = true → s.rec_.acting = some (o, b) →
    b.toNat + psettle s ≤ s.t → firnAll s (fun r => r.kind == .mirror && r.msg.origin == o) = [(k, e)] →
    ∃ t, exec .takeoverSettleExpire s = .next t ∧ t.rec_.acting = s.rec_.actMore.head? ∧ t.rec_.actMore = s.rec_.actMore.drop 1 ∧
      t.recOf k = some { kind := .event, msg := e.msg, need := [e.msg.dest], acting := true, since := s.time.now, poisoned := e.poisoned } ∧
      (∀ j, j ≠ k → t.recOf j = s.recOf j) ∧
      (s.flag Reg.REC_CTRL_AGEN = true →
        enRoute t (fenceTok s 7 e.msg.origin e.msg.source e.msg.seq (dieAddr (targetDie e.msg.dest)) .g e.msg.dest 0)) ∧
      Keeps [.out, .regs, .src, .firn, .xb, .rec_, .pwr, .trc] s t)

/-- R318 to R320: a stream moves to a new target. When nothing of the gated stream is left on the origin die, MIGRATE goes to the old target. At the
head of its lane there, MIGRATE sets the redirect, and INTAKE and the stream's waiting events go to the new target, which blocks the stream when
INTAKE arrives. When the old target holds nothing of it any more, RELEASE follows, which unblocks the stream at the new target; MIGRATED then frees
the origin's slot. A slot whose old target's die is lost is held until its stream's incomplete events have been sent again (log entry 47). Complete,
each with the effects stated: fenceLoss, migrationDrainEnd, fenceMigrate, fenceIntake, migrationOldTargetEmpty, fenceRelease, fenceMigrated. -/
def Obligations.Migration : Prop :=
  (∀ (slot : Fin 8) (x : MigSlot) (s : State), clocked s = true → tget none s.rec_.mig slot.val = some x → x.phase = 0 →
    inTransport s x.source = false →
    ∃ t, exec (.migrationDrainEnd slot) s = .next t ∧ tget none t.rec_.mig slot.val = some { x with phase := 1 } ∧
      (∀ j, j ≠ slot.val → tget none t.rec_.mig j = tget none s.rec_.mig j) ∧
      (srcCls s x.source.toNat ≠ .s →
        enRoute t (fenceTok s 0 s.die x.source x.first x.old (srcCls s x.source.toNat) x.new 0)) ∧
      Keeps [.out, .regs, .src, .xb, .rec_, .pwr, .trc] s t) ∧
  (∀ (u : Fin 128) (m : Msg) (l : List Msg) (s : State), clocked s = true → fenceAt s u 0 = some (m, l) →
    ∃ t, exec (.fenceMigrate u) s = .next t ∧
      t.rq.redirect = s.rq.redirect ++ [⟨u.val, m.origin, m.source, fenceReplica m, m.seq, m.cls⟩] ∧
      t.lane u = l.filter (fun x => !(x.isEvent && x.origin == m.origin && x.source == m.source)) ∧
      (∀ v, v ≠ u.val → t.lane v = s.lane v) ∧
      (m.cls ≠ .s → enRoute t (fenceTok s 1 m.origin m.source m.seq (fenceReplica m) m.cls 0 0)) ∧
      (∀ x ∈ l, x.isEvent = true → x.origin = m.origin → x.source = m.source → x.cls ≠ .s →
        enRoute t { x with dest := fenceReplica m }) ∧
      Keeps [.out, .regs, .src, .firn, .xb, .rq, .core, .clus, .pwr, .trc] s t) ∧
  (∀ (u : Fin 128) (m : Msg) (l : List Msg) (s : State), clocked s = true → fenceAt s u 1 = some (m, l) →
    exec (.fenceIntake u) s = .next { { s with out := [] }.setLane u l with
      rq := { (s.setLane u l).rq with blocked := s.rq.blocked ++ [⟨u.val, m.origin, m.source, senderOf m, m.seq⟩] } }) ∧
  (∀ (u : Fin 128) (origin : BitVec 5) (source : BitVec 13) (d : Redirect) (l : List Redirect) (s : State), clocked s = true →
    takeFirst (fun d => d.u == u.val && d.origin == origin && d.source == source) s.rq.redirect = some (d, l) →
    heldAt s u origin source = false →
    ∃ t, exec (.migrationOldTargetEmpty u origin source) s = .next t ∧ t.rq = { s.rq with redirect := l } ∧
      (d.cls ≠ .s → enRoute t (fenceTok s 2 origin source d.seq d.target d.cls 0 0)) ∧
      Keeps [.out, .regs, .src, .xb, .rq, .pwr, .trc] s t) ∧
  (∀ (u : Fin 128) (m : Msg) (l : List Msg) (s : State), clocked s = true → fenceAt s u 2 = some (m, l) →
    ∃ t, exec (.fenceRelease u) s = .next t ∧ t.lane u = l ∧ (∀ v, v ≠ u.val → t.lane v = s.lane v) ∧
      t.rq.blocked = s.rq.blocked.filter (fun b => !(b.u == u.val && b.origin == m.origin && b.source == m.source)) ∧
      enRoute t (fenceTok s 3 m.origin m.source m.seq (dieAddr m.origin) .g 0 0) ∧
      Keeps [.out, .regs, .src, .xb, .rq, .clus, .pwr, .trc] s t) ∧
  (∀ (m : Msg) (l : List Msg) (s : State), clocked s = true → fenceIn s 3 m l → s.rec_.gated = [] →
    ∃ t, exec (.fenceMigrated m) s = .next t ∧ t.xb = { s.xb with recIn := l } ∧ t.rec_.gated = [] ∧
      (∀ j x, j < 8 → tget none s.rec_.mig j = some x → tget none t.rec_.mig j = if x.source = m.source then none else some x) ∧
      (∀ j, tget none s.rec_.mig j = none → tget none t.rec_.mig j = none) ∧ Keeps [.out, .xb, .rec_] s t) ∧
  (∀ (m : Msg) (l : List Msg) (j k : Nat) (x : MigSlot) (e : FirnRec) (s : State), clocked s = true → fenceIn s 10 m l →
    m.payload.getLsbD 6 = false → s.flag Reg.REC_CTRL_AGEN = false → hasPartner s m.origin = false → twf none s.firn.recs = true →
    j < 8 → tget none s.rec_.mig j = some x → destDie x.old = m.origin → s.recOf k = some e → e.kind = .event → e.acting = false →
    e.msg.source = x.source → e.need ≠ [] →
    ∃ t, exec (.fenceLoss m) s = .next t ∧ tget none t.rec_.mig j = some { x with lost := true } ∧ t.recOf k = some { e with again := false })

/-- R302, R321 to R323, R521: the scrubber and the locks. FIRN_SCRUB reads the next record; a corrected error is counted, shown and raised with source
5,123, an uncorrectable one with 5,124, and poisons its record. A lock held for longer than TMO, and every lock of a master that faults, is broken: it
is free, its set is gone, and its cause is shown. Complete, each with the effects stated: lockTimeout, masterFault, firnScrub. -/
def Obligations.LocksAndScrub : Prop :=
  (∀ (i : Fin 64) (s : State), clocked s = true → (s.lockOf i).held = true → s.rd Reg.LOCK_CTRL_TMO ≠ 0 →
    (s.lockOf i).since.toNat + 256 * s.rd Reg.LOCK_CTRL_TMO < s.t →
    ∃ t, exec (.lockTimeout i) s = .next t ∧
      t.lockOf i = { s.lockOf i with held := false, set := [], ovf := false, broken := true, bcause := 1 } ∧
      (∀ j, j ≠ i.val → t.lockOf j = s.lockOf j) ∧ (s.time.sleep = .awake → (t.latchOf 5127).isSome = true) ∧
      (s.latchOf 5127 = none → s.time.sleep = .awake → t.latchOf 5127 =
        some ⟨s.time.now, BitVec.ofNat 16 (i + 64 * 1 + 256 * (s.lockOf i).owner.toNat), 7, s.epoch.num, true, false⟩) ∧
      Keeps [.out, .regs, .src, .lock, .trc] s t) ∧
  (∀ (m : Fin 16) (s : State),
    ∃ t, exec (.masterFault m true) s = .next t ∧ t.pins = { s.pins with mfault := s.pins.mfault ||| (1#16 <<< m.val) } ∧
      (∀ i, i < 64 → (s.lockOf i).held = true → (s.lockOf i).owner.toNat = m.val →
        t.lockOf i = { s.lockOf i with held := false, set := [], ovf := false, broken := true, bcause := 0 }) ∧
      (∀ i, (64 ≤ i ∨ (s.lockOf i).held = false ∨ (s.lockOf i).owner.toNat ≠ m.val) → t.lockOf i = s.lockOf i) ∧
      Keeps [.out, .pins, .regs, .src, .lock, .trc] s t) ∧
  (∀ (m : Fin 16) (s : State),
    exec (.masterFault m false) s = .next { s with out := [], pins := { s.pins with mfault := s.pins.mfault &&& ~~~(1#16 <<< m.val) } }) ∧
  (∀ (s : State), clocked s = true → s.flag Reg.FIRN_SCRUB_EN = true → s.firn.scrub.toNat + 1 ≠ Config.firnRecords →
    exec (.firnScrub .clean) s = .next { s with out := [], firn := { s.firn with scrub := s.firn.scrub + 1 } }) ∧
  (∀ (k : Nat) (s : State), clocked s = true → s.flag Reg.FIRN_SCRUB_EN = true → recKind s s.firn.scrub.toNat = some k →
    s.time.sleep = .awake → s.latchOf 5123 = none → ∃ t, exec (.firnScrub .corrected) s = .next t ∧ t.firn = { s.firn with scrub := s.firn.scrub + 1 } ∧
      t.rd Reg.FIRN_ERRADDR_RECORD = s.firn.scrub.toNat % 2 ^ 14 ∧ t.rd Reg.FIRN_ERRADDR_UE = 0 ∧ t.rd Reg.FIRN_ERRADDR_VALID = 1 ∧
      t.rd Reg.FIRN_ERR_CE = min (2 ^ Reg.FIRN_ERR_CE.w - 1) (s.rd Reg.FIRN_ERR_CE + 1) ∧
      t.latchOf 5123 = some ⟨s.time.now, BitVec.ofNat 16 (s.firn.scrub.toNat + 2 ^ 14 * k), 7, s.epoch.num, true, false⟩ ∧
      Keeps [.out, .regs, .src, .firn] s t) ∧
  (∀ (k : Nat) (s : State), clocked s = true → s.flag Reg.FIRN_SCRUB_EN = true → recKind s s.firn.scrub.toNat = some k →
    s.time.sleep = .awake → s.latchOf 5124 = none → ∃ t, exec (.firnScrub .uncorrectable) s = .next t ∧ t.firn.scrub = s.firn.scrub + 1 ∧
      (∀ j, j ≠ s.firn.scrub.toNat → t.recOf j = s.recOf j) ∧
      t.recOf s.firn.scrub.toNat = (s.recOf s.firn.scrub.toNat).map (fun r => { r with poisoned := true }) ∧
      (s.recOf s.firn.scrub.toNat = none → ∀ j, j = s.firn.scrub.toNat + Config.replayRecords - Config.firnRecords →
        (t.port (j / 256)).poisoned = BitVec.ofNat 8 j :: (s.port (j / 256)).poisoned) ∧
      t.rd Reg.FIRN_ERRADDR_RECORD = s.firn.scrub.toNat % 2 ^ 14 ∧ t.rd Reg.FIRN_ERRADDR_UE = 1 ∧ t.rd Reg.FIRN_ERRADDR_VALID = 1 ∧
      t.rd Reg.FIRN_ERR_UE = min (2 ^ Reg.FIRN_ERR_UE.w - 1) (s.rd Reg.FIRN_ERR_UE + 1) ∧
      t.latchOf 5124 = some ⟨s.time.now, BitVec.ofNat 16 (s.firn.scrub.toNat + 2 ^ 14 * k), 7, s.epoch.num, true, false⟩ ∧
      Keeps [.out, .regs, .src, .firn, .lnk] s t)

/-- R340 to R343, R357, R358, R360, R361, R438: loads and the flash. A verified load is READY with its parts, and one that fails goes to RESTORE with
its reason; RESTORE ends in ERROR. A persist goes on when its block is blank and when a word is programmed; once verified it is read back, and its
marker record is programmed word by word in the sector of the newest one, or in the other, erased first, when that one is full; with the last word it
is READY. A flash failure ends a persist with reason 14, moves a seal to the next sector once, and then abandons it. Complete, each with the effects
stated: loadVerifyDone, loadRestoreDone, persistEraseDone, flashFail, persistWordProgrammed. -/
def Obligations.LoadsAndFlash : Prop :=
  (∀ (side : Side) (s : State), (loadOf side s).st = .verify → (loadOf side s).busy = false → verifyReason (loadOf side s) s = 0 →
    (loadOf side s).persist = false → (loadOf side s).boot = false → partsOf (loadOf side s) ≠ [] →
    exec (.loadVerifyDone side) s = .next (setLoad side { loadOf side s with st := .ready, parts := partsOf (loadOf side s) } { s with out := [] })) ∧
  (∀ (side : Side) (r : Nat) (s : State), (loadOf side s).st = .verify → (loadOf side s).busy = false →
    (if (loadOf side s).boot = true ∧ tornBlock s (loadOf side s).blk = true then 9 else verifyReason (loadOf side s) s) = r → r ≠ 0 →
    ∃ t, exec (.loadVerifyDone side) s = .next t ∧ (loadOf side t).st = .restore ∧ (loadOf side t).err = r ∧
      (loadOf side t).held = (loadOf side s).held ∧ Keeps [.out, .regs, .img] s t) ∧
  (∀ (side : Side) (s : State), (loadOf side s).st = .restore → (loadOf side s).boot = false →
    ∃ t, exec (.loadRestoreDone side) s = .next t ∧ (loadOf side t).st = .error ∧ (loadOf side t).held = [] ∧
      (loadOf side t).err = (loadOf side s).err ∧ Keeps [.out, .regs, .staged, .img] s t) ∧
  (∀ (r : Nat) (s : State), s.img.load.st = .verify → s.img.load.busy = false → verifyReason s.img.load s = 0 → s.img.load.persist = true →
    verifyReason { s.img.load with words := ((flashBlock s s.img.load.blk).take s.img.load.words.length).reverse } s = r → r ≠ 0 →
    ∃ t, exec (.loadVerifyDone .field) s = .next t ∧ t.img.load.st = .restore ∧ t.img.load.err = r ∧ Keeps [.out, .regs, .img] s t) ∧
  (∀ (m1 : Bool) (s : State), s.img.load.st = .verify → s.img.load.busy = false → verifyReason s.img.load s = 0 → s.img.load.persist = true →
    verifyReason { s.img.load with words := ((flashBlock s s.img.load.blk).take s.img.load.words.length).reverse } s = 0 →
    m1 = (match newestMark s with | some m => m.1 | none => false) →
    ((markRecs s m1).length < Config.markerSlots → ∃ t, exec (.loadVerifyDone .field) s = .next t ∧ markRecs t m1 = markRecs s m1 ++ [[]] ∧
      t.img.load = { s.img.load with
        sector := m1, markErase := false, busy := true
        mark := markWords (match newestMarker s with | some m => m.1 + 1 | none => 1) s.img.load.blk } ∧ Keeps [.out, .img] s t) ∧
    (Config.markerSlots ≤ (markRecs s m1).length → ∃ t, exec (.loadVerifyDone .field) s = .next t ∧
      t.img = { s.img with load := { s.img.load with sector := !m1, markErase := true, busy := true } } ∧
      PortOut.ld 2 (markArea !m1) 0 0 ∈ t.out ∧ Keeps [.out, .img] s t)) ∧
  (∀ (s : State), s.img.load.markErase = true → s.img.load.st = .verify →
    ∃ t, exec .persistEraseDone s = .next t ∧ markRecs t s.img.load.sector = [[]] ∧ t.img.load.markErase = false ∧ t.img.load.busy = true ∧
      t.img.load.mark.length = 4 ∧ Keeps [.out, .img] s t) ∧
  (∀ (w x : Word) (l : List Word) (s : State), s.img.load.busy = true → s.img.load.st = .verify → s.img.load.markErase = false →
    s.img.load.mark = w :: x :: l →
    ∃ t, exec .persistWordProgrammed s = .next t ∧ t.img.load = { s.img.load with mark := x :: l } ∧
      markRecs t s.img.load.sector = (markRecs s s.img.load.sector).dropLast ++ [(markRecs s s.img.load.sector).getLastD [] ++ [w]] ∧
      Keeps [.out, .img] s t) ∧
  (∀ (w : Word) (s : State), s.img.load.busy = true → s.img.load.st = .verify → s.img.load.markErase = false → s.img.load.mark = [w] →
    s.img.load.boot = false → partsOf s.img.load ≠ [] →
    ∃ t, exec .persistWordProgrammed s = .next t ∧ t.img.load.st = .ready ∧ t.img.load.parts = partsOf s.img.load ∧ t.img.load.busy = false ∧
      markRecs t s.img.load.sector = (markRecs s s.img.load.sector).dropLast ++ [(markRecs s s.img.load.sector).getLastD [] ++ [w]] ∧
      t.rd Reg.LOAD_LASTP_HI_VALID = 1 ∧ Keeps [.out, .regs, .img] s t) ∧
  (∀ (s : State), s.img.load.st = .erase → s.img.load.markErase = false → s.img.load.fifo = [] → s.img.load.wait = none → s.img.load.taken = 0 →
    exec .persistEraseDone s = .next { s with out := [], img := { s.img with
      flashA := if s.img.load.blk then s.img.flashA else [], flashB := if s.img.load.blk then [] else s.img.flashB,
      load := { s.img.load with st := .header } } }) ∧
  (∀ (w : Word) (l : List Word) (s : State), s.img.load.busy = true → s.img.load.st = .body → s.img.load.fifo = [] →
    s.img.load.wait = none → s.img.load.words = w :: l → s.img.load.mark = [] → s.img.load.markErase = false →
    exec .persistWordProgrammed s = .next { s with out := [], img := { s.img with
      flashA := if s.img.load.blk then s.img.flashA else s.img.flashA ++ [w],
      flashB := if s.img.load.blk then s.img.flashB ++ [w] else s.img.flashB, load := { s.img.load with busy := false } } }) ∧
  (∀ (s : State), s.edw.step = .idle → (s.img.load.st = .erase ∨ s.img.load.busy = true) →
    ∃ t, exec .flashFail s = .next t ∧ t.img.load.st = .restore ∧ t.img.load.err = 14 ∧ t.img.load.busy = false ∧
      t.rd Reg.LOAD_STATUS_TWIN = 2 ∧ Keeps [.out, .regs, .img] s t) ∧
  (∀ (r : SealRec) (s : State), s.edw.step = .program false → s.edw.rec_ = some r →
    ∃ t, exec .flashFail s = .next t ∧ t.edw.step = .program true ∧ t.edw.rec_ = some r ∧ t.edw.sector = nextSector (useSlot none s) ∧
      tget [] t.edw.sectors t.edw.sector = [] ∧ Keeps [.out, .edw] s t) ∧
  (∀ (s : State), s.edw.step = .program true → s.edw.tdue = false →
    ∃ t, exec .flashFail s = .next t ∧ t.edw.step = .idle ∧ t.edw.rec_ = none ∧ t.edw.due = true ∧ t.rd Reg.EDW_STAT_FLERR = 1 ∧
      Keeps [.out, .regs, .edw] s t)

/-- R348, R350, R353 to R356, R364, R444: table copies, Rime and the erase. A copy that ends leaves the list of copies, that of start-up lets start-up
go on. Rime goes to its next word, marks a word that differs from its reference, and counts a reference that cannot be read (log entry 60). RDP_ERASE
empties the flash. Complete, each with the effects stated: tableCopyEnd, rimeCompare, rdpErase. -/
def Obligations.CopiesAndRime : Prop :=
  (∀ (n : Fin 8) (s : State), n.val < 7 → (if n.val < 3 then 0x20 + n.val else 0x30 + (n.val - 3)) ∈ s.img.copies → s.img.load.st = .idle →
    s.img.load.wait = none →
    ∃ t, exec (.tableCopyEnd n) s = .next t ∧ (∀ sp, sp ∈ t.img.copies ↔ sp ∈ s.img.copies ∧ sp ≠ if n.val < 3 then 0x20 + n.val else 0x30 + (n.val - 3)) ∧
      t.img.active = s.img.active ∧ t.img.load = s.img.load ∧ Keeps [.out, .img] s t) ∧
  (∀ (s : State), s.su.phase = 3 → s.img.load.st = .ready → s.img.load.s0 = false →
    ∃ t, exec (.tableCopyEnd 7) s = .next t ∧ t.img = { s.img with load := { s.img.load with s0 := true } } ∧
      Keeps [.out, .yar, .img, .rime] s t) ∧
  (∀ (a r : Ecc) (upset : Word) (s : State), clocked s = true → s.su.open_ = true → s.flag Reg.RIME_CTRL_EN = true → rimeWord (rimeNext s 40000 s.rime.pos) = none →
    exec (.rimeCompare a r upset) s = .next (({ s with out := [], rime := { s.rime with pos := 0 } } : State).inc Reg.RIME_PASS_PASSES)) ∧
  (∀ (a i : Nat) (s : State), clocked s = true → s.su.open_ = true → s.flag Reg.RIME_CTRL_EN = true →
    rimeWord (rimeNext s 40000 s.rime.pos) = some (a, i) → (∀ n l, s.latchOf n = some l → srcEn s n = true ∨ offerFlying s n = true) →
    (rimeActive s a i = rimeRef s a i → exec (.rimeCompare .clean .clean 0) s =
      .next { s with out := [], rime := { s.rime with pos := rimeNext s 40000 s.rime.pos + 1 } }) ∧
    exec (.rimeCompare .clean .uncorrectable 0) s =
      .next (({ s with out := [], rime := { s.rime with pos := rimeNext s 40000 s.rime.pos + 1 } } : State).inc Reg.RIME_STAT_UNREC) ∧
    (rimeActive s a i ≠ rimeRef s a i → s.flag Reg.RIME_CTRL_RESTORE = true → (a, i) ∉ s.rime.marks → s.rime.marks.length < 64 →
      s.time.sleep = .awake → s.latchOf 5120 = none →
      ∃ t, exec (.rimeCompare .clean .clean 0) s = .next t ∧
        t.rime = { s.rime with pos := rimeNext s 40000 s.rime.pos + 1, marks := s.rime.marks ++ [(a, i)] } ∧
        t.latchOf 5120 = some ⟨s.time.now, BitVec.ofNat 16 (a * 2 ^ 14 + i), 7, s.epoch.num, true, false⟩ ∧ Keeps [.out, .regs, .src, .rime, .trc] s t)) ∧
  (∀ (level : BitVec 2) (s : State),
    ∃ t, exec (.rdpErase level) s = .next t ∧ t.pins = { s.pins with rdpErase := true, rdpLevel := level } ∧ t.img.flashA = [] ∧
      t.img.flashB = [] ∧ t.img.mark0 = [] ∧ t.img.mark1 = [] ∧ t.img.torn = [] ∧ t.img.otp = s.img.otp ∧ t.edw.sectors = [] ∧
      t.edw.inbox = s.edw.inbox ∧ t.su.hold = true ∧ (s.su.phase = 0 → Keeps [.out, .pins, .img, .su, .edw] s t))

/-- R183, R188, R304, R373 to R377, R379 to R381, R384 to R388: the frames that field die 0 takes from the host gate. Each frame that is not HELLO,
RXCRED or a sync frame uses a buffer entry, free again once handled. GATE_STATE sets whether records may be sent, and its first RUN = 1 of an UP
period queues again what was sent and not reported. A tag of WRITTEN or DISCARDED completes its replica, and a tag that names nothing live does
nothing. VWRITE is a write at the message-write port, and a repeat is answered from the stored result. SLICE_STOP keeps the records held now, SLICE_GO
ends the stop. BAR_SYNC_RSP gives the correction that TIME_TRIM carries. An event without a report for RTMO is queued again, at its place in the order
of its slice. Complete, each with the effects stated: gateState, credit, written, discarded, vwrite, barSyncRsp, sliceStop, sliceGo, barEventRepeat.
-/
def Obligations.FieldFrames : Prop :=
  (∀ (p : BitVec 128) (s : State), barReady .field s → (p.getLsbD 0 = false ∨ s.bar.owe = false) →
    exec (.gateState p) s = .next { s with out := [], bar := { barTook .field 0x02 s with
      run := p.getLsbD 0, ctl := if p.getLsbD 0 then s.bar.ctl else s.bar.ctl.filter fun x => !(x.1 == 0x09 || x.1 == 0x0D) } }) ∧
  (∀ (p : BitVec 128) (s : State), barReady .field s → p.getLsbD 0 = true → s.bar.owe = true →
    ∃ t, exec (.gateState p) s = .next t ∧ t.bar = { barTook .field 0x02 s with run := true, owe := false } ∧ t.hostq.unrep = [] ∧
      t.hostq.credit = s.hostq.credit ∧ t.hostq.stops = s.hostq.stops ∧ t.hostq.queue = bySlice s t.hostq.live ∧
      t.hostq.live = s.hostq.live.filter (fun k => match s.recOf k with | some c => c.sent.isNone || !c.poisoned | none => true) ∧
      (∀ k ∈ s.hostq.live, ∀ c, s.recOf k = some c → c.sent.isSome = true → c.poisoned = false →
        t.recOf k = some { c with pendAgain := some !(c.sentGen == s.bar.peerGen && s.bar.peerGen != some 0) }) ∧
      Keeps [.out, .regs, .firn, .bar, .hostq] s t) ∧
  (∀ (p : BitVec 128) (s : State), barReady .field s → (∀ e ∈ entries p, tagRec s e = none) →
    exec (.written p) s = .next { s with out := [], bar := barTook .field 0x06 s } ∧
    exec (.discarded p) s = .next { s with out := [], bar := barTook .field 0x07 s }) ∧
  (∀ (p : BitVec 128) (tag k : Nat) (c : FirnRec) (s : State), barReady .field s → entries p = [tag] → tagRec s tag = some (k, c) →
    c.msg.origin ≠ s.die →
    (∃ t, exec (.written p) s = .next t ∧ t.recOf k = some { c with done := true } ∧ (∀ j, j ≠ k → t.recOf j = s.recOf j) ∧
      t.hostq.unrep = s.hostq.unrep.erase k ∧ t.hostq.live = s.hostq.live.erase k ∧
      Keeps [.out, .regs, .src, .acc, .firn, .xb, .pwr, .bar, .hostq, .gate, .trc] s t) ∧
    (∃ t, exec (.discarded p) s = .next t ∧ t.recOf k = some { c with done := true } ∧ (∀ j, j ≠ k → t.recOf j = s.recOf j) ∧
      t.hostq.unrep = s.hostq.unrep.erase k ∧ t.hostq.live = s.hostq.live.erase k ∧
      Keeps [.out, .regs, .src, .acc, .firn, .xb, .pwr, .bar, .hostq, .gate, .trc] s t)) ∧
  (∀ (p : BitVec 128) (v : VRes) (s : State), barReady .field s → tget none s.acc.vres (pf p 28 5) = some v →
    v.gen = p.getLsbD 33 →
    (∀ (refused : Bool) (reason : Nat), v.result = some (refused, reason) → exec (.vwrite p) s = .next
      (({ s with out := [], bar := if s.bar.run then barWith 0x09 (vresultBits (pf p 28 5) v.gen refused reason) (barTook .field 0x08 s)
        else barTook .field 0x08 s } : State).inc Reg.BAR_DISC_VWDUP)) ∧
    (v.result = none → exec (.vwrite p) s = .next (({ s with out := [], bar := barTook .field 0x08 s } : State).inc Reg.BAR_DISC_VWDUP))) ∧
  (∀ (p : BitVec 128) (s : State), barReady .field s →
    (∀ v, tget none s.acc.vres (pf p 28 5) = some v → v.gen ≠ p.getLsbD 33) →
    exec (.vwrite p) s = .next { s with out := [], bar := barTook .field 0x08 s, acc := { s.acc with
      vres := tset none s.acc.vres (pf p 28 5) (some ⟨p.getLsbD 33, none⟩)
      writes := s.acc.writes ++ [⟨.barrier (Fin.ofNat 32 (pf p 28 5)), p.extractLsb' 0 12, p.extractLsb' 12 16,
        if s.su.open_ && !thawDue s then some s.time.now else none, s.epoch.num⟩] } }) ∧
  (∀ (p : BitVec 128) (s : State), barReady .field s →
    (s.time.barT1 = none → exec (.barSyncRsp p) s = .next { s with out := [], bar := barTook .field 0x0B s }) ∧
    (∀ t1, s.time.barT1 = some t1 → exec (.barSyncRsp p) s = .next { s with
      out := [], time := { s.time with barT1 := none, barStep := false }
      bar := barWith 0x0C (pay (ofSgn 64 ((((s.t / 2 * 2 : Nat) : Int) - pf p 64 64 - (pf p 0 64 - t1.toNat)) / 2) + 2 ^ 64 * b2n s.time.barStep))
        (barTook .field 0x0B s) })) ∧
  (∀ (p : BitVec 128) (l : List Nat) (s : State), barReady .field s → l = liveOf s (pf p 0 8) →
    exec (.sliceStop p) s = .next { s with
      out := []
      bar := if l.isEmpty then barWith 0x12 (pay (pf p 0 8)) (barTook .field 0x11 s) else barTook .field 0x11 s
      hostq := { s.hostq with stops := s.hostq.stops.filter (·.1 != pf p 0 8) ++ [(pf p 0 8, l, 0)] } }) ∧
  (∀ (p : BitVec 128) (s : State), barReady .field s →
    exec (.sliceGo p) s = .next { s with
      out := [], bar := barTook .field 0x13 s, hostq := { s.hostq with stops := s.hostq.stops.filter (·.1 != pf p 0 8) } }) ∧
  (∀ (k : Nat) (l before after q : List Nat) (c : FirnRec) (b : Tick) (s : State), s.bar.st = .up → s.bar.run = true →
    s.hostq.unrep = k :: l → s.recOf k = some c → c.sent = some b → b.toNat + rtmo s ≤ s.t → s.hostq.live = before ++ k :: after →
    k ∉ before → tget [] s.hostq.queue c.msg.epoch.toNat = q →
    exec .barEventRepeat s = .next ({ s with out := [], hostq := { s.hostq with
      unrep := l
      queue := tset [] s.hostq.queue c.msg.epoch.toNat
        (q.filter (fun x => !(k :: after).contains x) ++ k :: q.filter (fun x => (k :: after).contains x)) } }.setRec k
          (some { c with pendAgain := some false }))) ∧
  (∀ (p : BitVec 128) (s : State), barReady .field s → ∃ t, exec (.credit p) s = .next t ∧ t.bar = barTook .field 0x04 s ∧
    (∀ sl, tget 0 t.hostq.credit sl =
      tget 0 s.hostq.credit sl + (((entries p).filter fun e => e % 256 == sl).map (· / 256)).sum) ∧
    t.hostq = { s.hostq with credit := t.hostq.credit } ∧ Keeps [.out, .bar, .hostq] s t)

/-- R370, R371, R373, R375: when a side of the barrier is up. A side in DOWN whose lanes lock enters HELLO, and a side in UP goes down when a lane
loses lock, when nothing has arrived for DTMO, and at a HELLO with another generation, package or VERSION. In HELLO it sends HELLO every 256 ticks,
and the peer's HELLO takes it to UP with 16 credits. Complete, each with the effects stated: barLanesLocked, barLaneLockLost, barSilenceTimeout,
barHelloTimer, hello. -/
def Obligations.BarrierLiveness : Prop :=
  (∀ (d : Side) (s : State), hasSide d s = true →
    ((barOf d s).st = .down → (d = .field → s.flag Reg.BAR_CTRL_EN = true) → exec (.barLanesLocked d) s =
      .next (setBar d { barOf d s with locked := 0xF, st := .hello, lastHello := 0 } { s with out := [] })) ∧
    ((barOf d s).st ≠ .down → exec (.barLanesLocked d) s = .next (setBar d { barOf d s with locked := 0xF } { s with out := [] }))) ∧
  (∀ (d : Side) (lane : Fin 4) (s : State),
    ((barOf d s).st ≠ .up → exec (.barLaneLockLost d lane) s =
      .next (setBar d { barOf d s with locked := (barOf d s).locked &&& ~~~(1#4 <<< lane.val) } { s with out := [] })) ∧
    ((barOf d s).st = .up → ∃ t, exec (.barLaneLockLost d lane) s = .next t ∧
      barFell d 1 { barOf d s with locked := (barOf d s).locked &&& ~~~(1#4 <<< lane.val) } s t)) ∧
  (∀ (d : Side) (s : State), (barOf d s).st = .up →
    ((clk d s).toNat < (barOf d s).lastRx.toNat + dtmo s → exec (.barSilenceTimeout d) s = .next { s with out := [] }) ∧
    ((barOf d s).lastRx.toNat + dtmo s ≤ (clk d s).toNat → ∃ t, exec (.barSilenceTimeout d) s = .next t ∧ barFell d 3 (barOf d s) s t)) ∧
  (∀ (d : Side) (s : State), (barOf d s).st = .hello → ((barOf d s).lastHello = 0 ∨ (barOf d s).lastHello.toNat + 256 ≤ (clk d s).toNat) →
    exec (.barHelloTimer d) s = .next (setBar d { barOf d s with
      lastHello := clk d s
      urgent := (barOf d s).urgent ++ [(0x01, pay (s.pins.idPkg.toNat + 8 * (match d with | .field => 0 | .host => 1) + 16 +
        2 ^ 8 * (match d with | .field => Config.fieldGen s.su.gens | .host => s.gate.gen).toNat))] } { s with out := [] })) ∧
  (∀ (d : Side) (p : BitVec 128) (s : State), (barOf d s).st = .hello → (barOf d s).stuck = false →
    pf p 0 3 = s.pins.idPkg.toNat → pf p 4 4 = 1 →
    ∃ t, exec (.hello d p) s = .next t ∧ (barOf d t).st = .up ∧ (barOf d t).credit = 16 ∧ (barOf d t).peerGen = some (p.extractLsb' 8 8) ∧
      (d = .field → t.rd Reg.BAR_STAT_PEERGEN = pf p 8 8 ∧ t.bar.run = false ∧ t.bar.owe = true ∧ t.hostq.credit = [] ∧
        t.hostq.stops = [] ∧ (s.bar.lastGen = p.extractLsb' 8 8 → t.acc = s.acc) ∧
        (s.bar.lastGen ≠ p.extractLsb' 8 8 → t.acc.vres = [])) ∧
      (d = .host → t.gate.everUp = true ∧ t.rd Reg.GATE_EVT_BAR = 1)) ∧
  (∀ (p : BitVec 128) (s : State), s.bar.st = .hello → s.bar.stuck = false → (pf p 0 3 ≠ s.pins.idPkg.toNat ∨ pf p 4 4 ≠ 1) →
    ∃ t, exec (.hello .field p) s = .next t ∧ t.bar = { s.bar with lastRx := s.time.now, failRun := 0, stuck := true } ∧
      t.rd Reg.BAR_STAT_CAUSE = 5 ∧ Keeps [.out, .regs, .bar] s t) ∧
  (∀ (d : Side) (p : BitVec 128) (s : State), (barOf d s).st = .up → pf p 0 3 = s.pins.idPkg.toNat → pf p 4 4 = 1 →
    (barOf d s).peerGen ≠ some (p.extractLsb' 8 8) →
    ∃ t, exec (.hello d p) s = .next t ∧ barFell d 4 { barOf d s with lastRx := clk d s, failRun := 0 } s t)

/-- R369, R370, R372, R376, R378, R380, R383 to R385, R387: what a side of the barrier sends and answers. RXCRED returns credit, an ECHO_REQ is
answered with its own bits, a frame whose CRC fails is counted, the eighth in a row takes the side down, and a transmit slot sends RXCRED, HELLO and
BAR_SYNC_RSP first, then what is ready in the order in which it became ready, as credit allows, and idle blocks where nothing is; blocks are scrambled
lane by lane. An event that is sent again is counted, and flagged where the peer has been reset. The host gate's side takes FIELD_STATE, answers
BAR_SYNC_REQ, and corrects its time by TIME_TRIM. Complete, each with the effects stated: fieldState, barSyncReq, timeTrim, rxcred, rxcredTimer,
echoReq, echoRsp, barFrameReject, barTransmitSlot. -/
def Obligations.BarrierTraffic : Prop :=
  (∀ (d : Side) (p : BitVec 128) (s : State), barReady d s →
    exec (.rxcred d p) s = .next (setBar d { barTook d 0x14 s with credit := min 16 ((barOf d s).credit + pf p 0 5) } { s with out := [] }) ∧
    exec (.echoReq d p) s = .next (setBar d (barWith 0x16 p (barTook d 0x15 s)) { s with out := [] }) ∧
    exec (.echoRsp d p) s = .next (setBar d (barTook d 0x16 s) { s with out := [] })) ∧
  (∀ (d : Side) (s : State), (barOf d s).st = .up → (barOf d s).rxUsed = 0 →
    ((barOf d s).freed ≠ 0 ∨ (barOf d s).lastRxcred.toNat + 1024 ≤ (clk d s).toNat) →
    exec (.rxcredTimer d) s = .next (setBar d (barWith 0x14 (pay ((barOf d s).freed + 2 ^ 16 * ((barOf d s).sent + 1).toNat +
      2 ^ 48 * (barOf d s).crcFails.toNat)) { barOf d s with freed := 0, lastRxcred := clk d s }) { s with out := [] })) ∧
  (∀ (d : Side) (f : BarFrame) (s : State), (barOf d s).st ≠ .down → hasSide d s = true → barCrc f ≠ f.extractLsb' 0 16 →
    ((barOf d s).failRun + 1 < 8 → ∃ t, exec (.barFrameReject d f) s = .next t ∧
      barOf d t = { barOf d s with
        failRun := (barOf d s).failRun + 1
        crcFails := if (barOf d s).crcFails == 0xFFFF then (barOf d s).crcFails else (barOf d s).crcFails + 1 } ∧
      (d = .field → t.rd Reg.BAR_ERR_CRC = min (2 ^ 16 - 1) (s.rd Reg.BAR_ERR_CRC + 1))) ∧
    (8 ≤ (barOf d s).failRun + 1 → (barOf d s).st = .up → ∃ t, exec (.barFrameReject d f) s = .next t ∧
      (barOf d t).st = (if hellos d (barOf d s) s then .hello else .down) ∧
      (d = .field → s.latchOf 5147 = none → s.time.sleep = .awake → t.rd Reg.BAR_STAT_CAUSE = 2))) ∧
  (∀ (d : Side) (f : BarFrame) (s : State), (barOf d s).st ≠ .down → hasSide d s = true → barCrc f = f.extractLsb' 0 16 →
    sends (otherSide d) (f.extractLsb' 144 8) = false →
    ∃ t, exec (.barFrameReject d f) s = .next t ∧ barOf d t = { barOf d s with failRun := 0, lastRx := clk d s } ∧
      (d = .field → t.rd Reg.BAR_ERR_BADTYPE = min (2 ^ 8 - 1) (s.rd Reg.BAR_ERR_BADTYPE + 1))) ∧
  (∀ (d : Side) (typ : BitVec 8) (p : BitVec 128) (l : List (BitVec 8 × BitVec 128)) (s : State),
    (d = .host → s.gate.writtenTags = [] ∧ s.gate.discTags = []) → (barOf d s).st ≠ .down →
    ((barOf d s).urgent = (typ, p) :: l → exec (.barTransmitSlot d) s =
      .next (setBar d (barSent typ p { barOf d s with urgent := l }) { s with out := [.bar d (barBlocks (barOf d s).scr (some (barFrame typ p)))] })) ∧
    ((barOf d s).st = .up → (barOf d s).urgent = [] → (d = .field → barSyncDue s = false) →
      ((barOf d s).credit ≠ 0 → (barOf d s).ctl = (typ, p) :: l → exec (.barTransmitSlot d) s =
        .next (setBar d (barSent typ p { barOf d s with ctl := l }) { s with out := [.bar d (barBlocks (barOf d s).scr (some (barFrame typ p)))] })))) ∧
  (∀ (d : Side) (s : State), hasSide d s = true → (d = .host → s.gate.writtenTags = [] ∧ s.gate.discTags = []) →
    ((barOf d s).st = .down ∨ ((barOf d s).st = .hello ∧ (barOf d s).urgent = []) ∨
      ((barOf d s).st = .up ∧ (barOf d s).urgent = [] ∧ (barOf d s).credit = 0 ∧ (d = .field → barSyncDue s = false))) →
    exec (.barTransmitSlot d) s = .next (setBar d { barOf d s with scr := scrBlock (barOf d s).scr 0 }
      { s with out := [.bar d (barBlocks (barOf d s).scr none)] })) ∧
  (∀ (s : State), s.bar.st = .up → s.bar.urgent = [] → barSyncDue s = true →
    exec (.barTransmitSlot .field) s = .next { s with
      out := [.bar .field (barBlocks s.bar.scr (some (barFrame 0x0A 0)))], bar := barSent 0x0A 0 s.bar
      time := { s.time with barT1 := some (s.time.now &&& ~~~1), lastBar := s.time.now } }) ∧
  (∀ (sl k : Nat) (cl : Cls) (c : FirnRec) (m : Msg) (s : State), s.bar.st = .up → s.bar.urgent = [] → s.bar.ctl = [] → barSyncDue s = false →
    s.bar.credit ≠ 0 → nextSlice s = some (sl, k, cl) → s.recOf k = some c → m = (if c.pendAgain = some true then c.msg.flag else c.msg) →
    ∃ t, exec (.barTransmitSlot .field) s = .next t ∧
      t.out = [.bar .field (barBlocks s.bar.scr (some (barFrame 0x05 (eventPayload k { c with msg := m }))))] ∧
      t.recOf k = some { c with msg := m, sent := some s.time.now, sentGen := s.bar.peerGen, pendAgain := none } ∧
      t.bar.credit = s.bar.credit - 1 ∧ t.regs = (match c.pendAgain with
        | some true => s.inc Reg.BAR_RES_FLAGGED
        | some false => s.inc Reg.BAR_RES_RESENT
        | none => s).regs ∧
      t.hostq = { s.hostq with
        queue := tset [] s.hostq.queue sl ((tget [] s.hostq.queue sl).drop 1), unrep := s.hostq.unrep ++ [k]
        credit := tset 0 s.hostq.credit sl (tget 0 s.hostq.credit sl - 1), rot := (sl + 1) % 256
        stops := if c.sent.isNone then countStop sl s.hostq.stops else s.hostq.stops } ∧
      Keeps [.out, .regs, .firn, .bar, .hostq] s t) ∧
  (∀ (p : BitVec 128) (s : State), barReady .host s →
    (∃ t, exec (.fieldState p) s = .next t ∧ t.gate.fieldOpen = p.getLsbD 0 ∧ t.gate.bar = barTook .host 0x03 s ∧ Keeps [.out, .gate] s t) ∧
    (∃ t, exec (.barSyncReq p) s = .next t ∧
      t.gate.bar = barWith 0x0B (pay (s.gate.now.toNat / 2 * 2 + 2 ^ 64 * (s.gate.now.toNat / 2 * 2))) (barTook .host 0x0A s) ∧
      Keeps [.out, .gate] s t) ∧
    (∃ t, exec (.timeTrim p) s = .next t ∧ t.gate.bar = barTook .host 0x0C s ∧
      t.gate.now = (if p.getLsbD 64 then s.gate.now + p.extractLsb' 0 64 else s.gate.now) ∧ Keeps [.out, .gate] s t))

/-- R373, R376, R381, R387, R397, R401, R402, R404, R409 to R412, R414: what the host gate does with the field die's messages. It takes FIELD_STATE,
answers BAR_SYNC_REQ with its own time, and steps or slews that time by TIME_TRIM. A vector write without its result for RTMO is sent again, and
VRESULT posts the result in its slice's page. An EVENT uses a credit of its slice; by the entry of its tag it is handled once, and repeated only as a
report: it enters the queue of a slice that is open or in fault, or of one that stops and has a free slot, it waits behind others that wait there, and
a slice that takes none reports it discarded; it is held while its writer's intake is full. A host reset clears RUN and says so to field die 0, frees
every slice with its dirty bits, and drops what has not been issued with its entries of the table. Complete, each with the effects stated: fieldState,
event, vresult, barSyncReq, timeTrim, vwriteRepeat, hostReset. -/
def Obligations.HostGateMessages : Prop :=
  (∀ (p : BitVec 128) (s : State), barReady .host s →
    exec (.fieldState p) s = .next { s with out := [], gate := { s.gate with
      bar := barTook .host 0x03 s, fieldOpen := p.getLsbD 0, fieldAlost := p.getLsbD 1 } } ∧
    exec (.barSyncReq p) s = .next { s with out := [], gate := { s.gate with
      bar := barWith 0x0B (pay (s.gate.now.toNat / 2 * 2 + 2 ^ 64 * (s.gate.now.toNat / 2 * 2))) (barTook .host 0x0A s) } } ∧
    (p.getLsbD 64 = true → exec (.timeTrim p) s = .next { s with out := [], gate := { s.gate with
      bar := barTook .host 0x0C s, now := s.gate.now + p.extractLsb' 0 64, slew := 0 } }) ∧
    (p.getLsbD 64 = false → exec (.timeTrim p) s = .next { s with out := [], gate := { s.gate with
      bar := barTook .host 0x0C s, slew := sgn 64 (p.extractLsb' 0 64).toNat } })) ∧
  (∀ (p : BitVec 128) (v : VwSlot) (i : BitVec 8) (s : State), barReady .host s → tget {} s.gate.vw (pf p 0 5) = v → v.busy = some i →
    v.gen = p.getLsbD 5 → (s.slice i.toNat).vwSlot = some (pf p 0 5) →
    ∃ t, exec (.vresult p) s = .next t ∧ tget {} t.gate.vw (pf p 0 5) = { v with busy := none } ∧
      t.slice i.toNat = { s.slice i.toNat with vwSlot := none } ∧ t.rd (Reg.PG_VWRES_DONE i.toNat) = 1 ∧
      t.rd (Reg.PG_VWRES_REFUSED i.toNat) = b2n (p.getLsbD 6) ∧ t.rd (Reg.PG_VWRES_REASON i.toNat) = pf p 7 4 ∧
      Keeps [.out, .regs, .gate] s t) ∧
  (∀ (k : Nat) (v : VwSlot) (i : BitVec 8) (l : Tbl VwSlot) (s : State), s.gate.bar.st = .up → s.gate.vw = (k, v) :: l → v.busy = some i →
    v.sentAt.toNat + rtmo s ≤ s.gate.clk.toNat →
    exec .vwriteRepeat s = .next { s with out := [], gate := { s.gate with
      bar := barWith 0x08 v.payload s.gate.bar, vw := tset {} s.gate.vw k { v with sentAt := s.gate.clk } } }) ∧
  (∀ (s : State), ∃ t, exec .hostReset s = .next t ∧ t.rd Reg.GATE_CTRL_RUN = 0 ∧ t.rd Reg.GATE_STAT_HRST = 1 ∧ t.rd Reg.GATE_EVT_HRST = 1 ∧
    (∀ i, (t.slice i).st = .free ∧ (t.slice i).q = [] ∧ (t.slice i).kept = [] ∧ (t.slice i).size = 0) ∧ t.gate.held = [] ∧ t.gate.aging = true ∧
    (∀ i ∈ s.gate.slices.map (·.1), ∀ w, w < 17 → t.rd (Reg.SLC_DIRTY i w) = 0) ∧ t.gate.gen = s.gate.gen ∧
    (twf .none s.gate.tags = true → ∀ k, tagOf t k = match tagOf s k with | .queued _ => .none | e => e) ∧
    (s.gate.bar.st = .up → (0x02, pay (2 ^ 8 * s.gate.gen.toNat)) ∈ t.gate.bar.ctl) ∧ Keeps [.out, .regs, .arb, .bar, .gate] s t) ∧
  (∀ (p : BitVec 128) (i k : Nat) (tag : BitVec 15) (x : Slice) (s : State), barReady .host s → intakeRoom s p = true → eventSlice p = i →
    eventTag p = tag → tag.toNat % 2 ^ 14 = k → s.slice i = x →
    (x.st = .free ∨ x.st = .closed → tagOf s k ≠ .done (tag.getLsbD 14) → tagOf s k ≠ .queued (tag.getLsbD 14) →
      ∃ t, exec (.event p) s = .next t ∧ tagOf t k = .done (tag.getLsbD 14) ∧ t.gate.discTags = s.gate.discTags ++ [tag] ∧
        t.rd (Reg.SLC_DISC_DISC i) = min (2 ^ 16 - 1) (s.rd (Reg.SLC_DISC_DISC i) + 1) ∧
        t.slice i = { x with granted := if x.st = .free then max 4 (x.granted - 1) else x.granted - 1 } ∧
        Keeps [.out, .regs, .bar, .gate] s t) ∧
    (x.st = .open_ ∨ x.st = .fault → x.kept = [] → (x.st = .open_ → shareOf s i ≤ (x.prod + 1 - x.cons).toNat + (x.granted - 1)) →
      tagOf s k ≠ .done (tag.getLsbD 14) → tagOf s k ≠ .queued (tag.getLsbD 14) →
      ∃ t, exec (.event p) s = .next t ∧ tagOf t k = .queued (tag.getLsbD 14) ∧ t.slice i = { x with
          prod := x.prod + 1, granted := x.granted - 1
          q := x.q ++ [⟨{ Msg.unpack p with dest := gateAddr s, rver := 0 }, tag, x.prod⟩] } ∧
        t.gate.bar = barTook .host 0x05 s ∧ t.gate.discTags = s.gate.discTags ∧ t.gate.writtenTags = s.gate.writtenTags ∧
        Keeps [.out, .regs, .bar, .gate] s t) ∧
    (tagOf s k ≠ .done (tag.getLsbD 14) → tagOf s k ≠ .queued (tag.getLsbD 14) →
      x.st = .stopping → x.fromFault = false → x.kept = [] → x.occ < ringSize s i →
      ∃ t, exec (.event p) s = .next t ∧ tagOf t k = .queued (tag.getLsbD 14) ∧ (t.slice i).prod = x.prod + 1 ∧
        (t.slice i).q = x.q ++ [⟨{ Msg.unpack p with dest := gateAddr s, rver := 0 }, tag, x.prod⟩] ∧ Keeps [.out, .regs, .bar, .gate] s t) ∧
    (tagOf s k ≠ .done (tag.getLsbD 14) → tagOf s k ≠ .queued (tag.getLsbD 14) →
      x.st = .stopping → x.fromFault = true ∨ (x.rstFree = true ∧ (x.kept ≠ [] ∨ ringSize s i ≤ x.occ)) →
      ∃ t, exec (.event p) s = .next t ∧ tagOf t k = .done (tag.getLsbD 14) ∧ t.gate.discTags = s.gate.discTags ++ [tag] ∧
        t.rd (Reg.SLC_DISC_RSTDISC i) = min (2 ^ (Reg.SLC_DISC_RSTDISC i).w - 1) (s.rd (Reg.SLC_DISC_RSTDISC i) + 1) ∧
        (t.slice i).q = x.q ∧ (t.slice i).kept = x.kept ∧ Keeps [.out, .regs, .bar, .gate] s t) ∧
    (tagOf s k ≠ .done (tag.getLsbD 14) → tagOf s k ≠ .queued (tag.getLsbD 14) →
      ((x.st = .open_ ∨ x.st = .fault) ∧ x.kept ≠ []) ∨
        (x.st = .stopping ∧ x.fromFault = false ∧ x.rstFree = false ∧ (x.kept ≠ [] ∨ ringSize s i ≤ x.occ)) →
      ∃ t, exec (.event p) s = .next t ∧ tagOf t k = .queued (tag.getLsbD 14) ∧ (t.slice i).q = x.q ∧ (t.slice i).prod = x.prod ∧
        (t.slice i).kept = x.kept ++ [(Msg.unpack p, tag)] ∧ Keeps [.out, .regs, .bar, .gate] s t) ∧
    (tagOf s k = .done (tag.getLsbD 14) → ∃ t, exec (.event p) s = .next t ∧ t.gate.writtenTags = s.gate.writtenTags ++ [tag] ∧
      (t.slice i).q = x.q ∧ (t.slice i).prod = x.prod ∧ Keeps [.out, .regs, .bar, .gate] s t) ∧
    (tagOf s k = .queued (tag.getLsbD 14) → ∃ t, exec (.event p) s = .next t ∧ t.gate.writtenTags = s.gate.writtenTags ∧
      t.gate.discTags = s.gate.discTags ∧ (t.slice i).q = x.q ∧ (t.slice i).prod = x.prod ∧ Keeps [.out, .regs, .bar, .gate] s t)) ∧
  (∀ (p : BitVec 128) (s : State), s.gate.bar.st = .up → (∀ h ∈ (s.gate.held ++ [p]).head?, intakeRoom s h = false) →
    exec (.event p) s = .next { s with out := [], gate := { s.gate with held := s.gate.held ++ [p], bar := { s.gate.bar with lastRx := s.gate.clk, failRun := 0, rxUsed := s.gate.bar.rxUsed + 1 } } })

/-- R401, R404 to R406, R408 to R413: slices that stop, and ring writers. A stopping slice closes when its stop has drained and nothing of it is left,
and after RSTTMO it is granted freely. An EVENT for an open slice enters its writer's queue. A ring writer checks the record at the head of its slice,
writes it into its slot of the ring, and reports its tag. Complete, each with the effects stated: event, sliceDrained, sliceResetTimeout,
ringRecordWrite. -/
def Obligations.RingWriters : Prop :=
  (∀ (p : BitVec 128) (s : State), barReady .host s → (s.slice (pf p 0 8)).st = .stopping →
    ((s.slice (pf p 0 8)).q ≠ [] ∨ (s.slice (pf p 0 8)).kept ≠ [] →
      ∃ t, exec (.sliceDrained p) s = .next t ∧ t.slice (pf p 0 8) = { s.slice (pf p 0 8) with drained := true } ∧
        Keeps [.out, .gate] s t) ∧
    ((s.slice (pf p 0 8)).q = [] → (s.slice (pf p 0 8)).kept = [] →
      ∃ t, exec (.sliceDrained p) s = .next t ∧ (t.slice (pf p 0 8)).st = .closed ∧ (t.slice (pf p 0 8)).granted = 0 ∧
        (t.slice (pf p 0 8)).prod = 0 ∧ (t.slice (pf p 0 8)).cons = 0 ∧ t.rd Reg.GATE_EVT_RDONE = 1 ∧
        t.rd (Reg.SLC_STATE_RESET_DONE (pf p 0 8)) = 1 ∧ Keeps [.out, .regs, .gate] s t)) ∧
  (∀ (i : BitVec 8) (s : State), (s.slice i.toNat).st = .stopping → (s.slice i.toNat).kept = [] → (s.slice i.toNat).drained = false →
    (s.slice i.toNat).stopAt.toNat + 2 ^ 16 * max 1 (s.rd Reg.GATE_CTRL_RSTTMO) ≤ s.gate.clk.toNat →
    ∃ t, exec (.sliceResetTimeout i) s = .next t ∧ (t.slice i.toNat).rstFree = true ∧ (t.slice i.toNat).st = .stopping ∧
      (s.gate.bar.st = .up → (t.slice i.toNat).granted = max (s.slice i.toNat).granted 127) ∧ Keeps [.out, .bar, .gate] s t) ∧
  (∀ (w : Fin 2) (v : Nat) (l : List (Nat × Nat)) (x : Xfer) (s : State), (s.arbOf (21 + w.val)).holder = some x → x.j = 16 →
    x.beats ≤ x.done + 1 → takeFirst (fun (e : Nat × Nat) => e.1 == w.val) s.gate.msix = some ((w.val, v), l) →
    (s.arbOf (21 + w.val)).aging = arbMustAge s (21 + w.val) →
    ∃ t, exec (.ringRecordWrite w) s = .next t ∧ t.out = [.msix w.val v] ∧ t.gate = { s.gate with msix := l } ∧
      (t.arbOf (21 + w.val)).holder = none ∧ Keeps [.out, .arb, .gate] s t) ∧
  (∀ (w : Fin 2) (i : Nat) (r : RingRec) (l : List RingRec) (x : Xfer) (rlx ns : Bool) (cache : Nat) (s : State),
    (s.arbOf (21 + w.val)).holder = some x → x.j < 16 → x.done + 2 ≤ x.beats → (s.arbOf (21 + w.val)).aging = arbMustAge s (21 + w.val) →
    tget false s.gate.half (16 * w.val + x.j) = false → groupSlice s w.val x.j = some i → (s.slice i).q = r :: l →
    mpuCheck true w.val ((ringBase s i + 32 * (r.q.toNat % ringSize s i)) % 2 ^ 64) (!s.flag (Reg.SLC_KEY_PRIV i)) true s =
      .pass rlx ns cache →
    ∃ t, exec (.ringRecordWrite w) s = .next t ∧
      t.out = [.ring w.val ((ringBase s i + 32 * (r.q.toNat % ringSize s i)) % 2 ^ 64) (ringWords s i r)
        (if s.flag (Reg.SLC_KEY_PRIV i) then none else some (BitVec.ofNat 20 (s.rd (Reg.SLC_KEY_PASID i)))) rlx ns (BitVec.ofNat 2 cache)] ∧
      Keeps [.out, .regs, .arb, .bar, .gate] s t) ∧
  (∀ (p : BitVec 128) (i : Nat) (s : State), barReady .host s → intakeRoom s p = true → eventSlice p = i → (s.slice i).st = .open_ →
    (s.slice i).kept = [] → tagOf s ((eventTag p).toNat % 2 ^ 14) = .none →
    ∃ t, exec (.event p) s = .next t ∧ tagOf t ((eventTag p).toNat % 2 ^ 14) = .queued ((eventTag p).getLsbD 14) ∧
      (t.slice i).q = (s.slice i).q ++ [⟨{ Msg.unpack p with dest := gateAddr s, rver := 0 }, eventTag p, (s.slice i).prod⟩] ∧
      (t.slice i).prod = (s.slice i).prod + 1 ∧ (∀ j, j ≠ i → t.slice j = s.slice j) ∧ Keeps [.out, .regs, .bar, .gate] s t)

/-- R426, R430, R431, R444, R445: the meter channels. A class M record is applied to the channel that names its source, its value saturating, or
counted as without one. METER goes out when due and asked for, and is outstanding until METER_ACK or RTMO; what arrives for a partition that does not
run waits for it. Complete, each with the effects stated: meterAck, meterReq, meterRecord, meterSend, meterAckTimeout. -/
def Obligations.Meters : Prop :=
  (∀ (m : Msg) (l : List Msg) (s : State), edwRuns s = true → s.edw.inbox = m :: l →
    (∀ c, chanOf s m.source.toNat = some c → ∃ t, exec .meterRecord s = .next t ∧ t.edw.inbox = l ∧
      t.chan c = chanUpdate (if s.flag (Reg.EDW_CH_SIGNED c) then sgn 16 m.payload.toNat else m.payload.toNat) (s.rd (Reg.EDW_CH_SHIFT c)) (s.chan c) ∧
      (∀ d, d ≠ c → t.chan d = s.chan d) ∧ Keeps [.out, .regs, .src, .acc, .firn, .xb, .pwr, .edw, .trc] s t) ∧
    (chanOf s m.source.toNat = none → ∃ t, exec .meterRecord s = .next t ∧ t.edw = { s.edw with inbox := l } ∧
      Keeps [.out, .regs, .src, .acc, .firn, .xb, .pwr, .edw, .trc] s t)) ∧
  (∀ (c : Fin 64) (s : State), s.isDie0 = true → s.bar.st = .up → edwRuns s = true → s.flag (Reg.EDW_CH_MIRROR c.val) = true →
    (s.chan c.val).acked ≠ some (s.chan c.val).count → (s.chan c.val).out = false → (s.chan c.val).lastMeter = none →
    exec (.meterSend c) s = .next { s.setChan c.val { s.chan c.val with out := true, lastMeter := some s.time.now } with
      out := [], bar := barWith 0x0E (pay (c.val + 2 ^ 32 * (s.chan c.val).count.toNat + 2 ^ 64 * ofSgn 64 (s.chan c.val).value)) s.bar }) ∧
  (∀ (p : BitVec 128) (s : State), barReady .field s → edwRuns s = true → s.edw.asks = [] →
    exec (.meterAck p) s = .next { s.setChan (pf p 0 6) { s.chan (pf p 0 6) with acked := some (p.extractLsb' 32 32), out := false } with
      out := [], bar := barTook .field 0x0F s } ∧
    (p.getLsbD 6 = false → exec (.meterReq p) s =
      .next { s.setChan (pf p 0 6) { s.chan (pf p 0 6) with out := true, lastMeter := some s.time.now } with
        out := [], bar := barWith 0x0E (pay (pf p 0 6 + 2 ^ 32 * (s.chan (pf p 0 6)).count.toNat + 2 ^ 64 * ofSgn 64 (s.chan (pf p 0 6)).value))
          (barTook .field 0x17 s) })) ∧
  (∀ (p : BitVec 128) (s : State), barReady .field s → edwRuns s = false →
    exec (.meterAck p) s = .next { s with
      out := [], bar := barTook .field 0x0F s, edw := { s.edw with asks := s.edw.asks ++ [(0x0F, p)] } } ∧
    exec (.meterReq p) s = .next { s with
      out := [], bar := barTook .field 0x17 s, edw := { s.edw with asks := s.edw.asks ++ [(0x17, p)] } }) ∧
  (∀ (c : Fin 64) (b : Tick) (s : State), (s.chan c.val).lastMeter = some b → (s.chan c.val).out = true → b.toNat + rtmo s ≤ s.t →
    exec (.meterAckTimeout c) s = .next ({ s with out := [] }.setChan c.val { s.chan c.val with out := false }))

/-- R433 to R440, R446: seals and mirrors. A seal starts on its interval, on a request, or when the gap that held it back has passed (a gap counts
from the restored TIME, log entry 33); its record is captured, given its MAC, programmed into the next slot, read back, and shown in the seal
registers; one whose MAC fails then counts as a failure of the flash. The restore takes the newest record whose MAC checks, and without one the
configuration is 0. A request waits while the partition does not run. The host gate mirrors METER and SEAL frames. Complete, each with the effects
stated: meter, sealRecord, sealReq, sealInterval, sealGapExpire, sealMacDone, sealProgramDone, edwRestoreDone. -/
def Obligations.Seals : Prop :=
  (∀ (s : State), edwRuns s = true → s.edw.sealed_ = true → s.edw.step = .idle → capWithin s Config.sealGap = false →
    (s.rd Reg.EDW_GLB_SEALINT ≠ 0 → capWithin s (max Config.sealGap (s.rd Reg.EDW_GLB_SEALINT)) = false →
      ∃ t, exec .sealInterval s = .next t ∧ sealStarted s.edw s t ∧ Keeps [.out, .edw] s t) ∧
    (s.edw.held = true → ∃ t, exec .sealGapExpire s = .next t ∧ sealStarted s.edw s t ∧ Keeps [.out, .edw] s t) ∧
    (∀ p, barReady .field s → s.edw.asks = [] → ∃ t, exec (.sealReq p) s = .next t ∧ sealStarted s.edw s t ∧ t.bar = barTook .field 0x18 s ∧
      Keeps [.out, .bar, .edw] s t)) ∧
  (∀ (p : BitVec 128) (s : State), edwRuns s = true → s.edw.sealed_ = true → (capWithin s Config.sealGap = true ∨ s.edw.step ≠ .idle) →
    barReady .field s → s.edw.asks = [] →
    exec (.sealReq p) s = .next { s with out := [], bar := barTook .field 0x18 s, edw := { s.edw with due := true, held := true } }) ∧
  (∀ (r : SealRec) (s : State), s.edw.step = .mac → s.edw.rec_ = some r → edwRuns s = true → persisting s = false →
    (tget [] s.edw.sectors s.edw.sector).length < 9 →
    ∃ t, exec .sealMacDone s = .next t ∧ t.edw = { s.edw with step := .program false, rec_ := some { r with mac := sealMac s r } } ∧
      t.out.length = 210 ∧ Keeps [.out, .edw] s t) ∧
  (∀ (r : SealRec) (retry : Bool) (s : State), s.edw.step = .program retry → s.edw.rec_ = some r → macChecks s r = true → s.edw.tdue = false →
    ∃ t, exec .sealProgramDone s = .next t ∧ t.edw = { s.edw with
        step := .idle, rec_ := none, first := false, sealed_ := true, cnt := r.cnt
        sectors := tset [] s.edw.sectors s.edw.sector (tget [] s.edw.sectors s.edw.sector ++ [some r]) } ∧
      t.rd Reg.EDW_SCNT_LO = bits r.cnt.toNat 0 32 ∧ t.rd Reg.EDW_SCNT_HI = bits r.cnt.toNat 32 32 ∧
      t.rd Reg.EDW_STIME_LO = bits r.time.toNat 0 32 ∧ t.rd Reg.EDW_STIME_HI = bits r.time.toNat 32 32 ∧
      (s.isDie0 = true → s.bar.st = .up → edwRuns s = true →
        t.bar = barWith 0x10 (pay (r.cnt.toNat + 2 ^ 64 * bits r.mac.toNat 0 64)) s.bar) ∧ Keeps [.out, .regs, .bar, .gate, .edw] s t) ∧
  (∀ (r : SealRec) (retry : Bool) (s : State), s.edw.step = .program retry → s.edw.rec_ = some r → macChecks s r = false →
    (retry = false → ∃ t, exec .sealProgramDone s = .next t ∧ t.edw.step = .program true ∧ t.edw.rec_ = some r ∧
      t.edw.sector = nextSector (useSlot none s) ∧ Keeps [.out, .edw] s t) ∧
    (retry = true → s.edw.tdue = false → ∃ t, exec .sealProgramDone s = .next t ∧ t.edw.step = .idle ∧ t.edw.rec_ = none ∧
      t.edw.due = true ∧ t.rd Reg.EDW_STAT_FLERR = 1 ∧ Keeps [.out, .regs, .edw] s t)) ∧
  (∀ (p : BitVec 128) (s : State), barReady .field s → edwRuns s = false → exec (.sealReq p) s = .next { s with
    out := [], bar := barTook .field 0x18 s, edw := { s.edw with asks := s.edw.asks ++ [(0x18, p)] } }) ∧
  (∀ (s : State), clocked s = true → edwRuns s = true → s.edw.scan = true → s.su.phase ≠ 3 →
    (s.edw.sectors.any fun e => e.2.any (·.isNone)) = false →
    (newestSeal s = none → ∃ t, exec .edwRestoreDone s = .next t ∧ t.edw = { s.edw with scan := false, meters := [], chan := [], cfg := false } ∧
      (∀ i, i < 65 → s5Word t i = 0) ∧ (macFails s = true → t.rd Reg.EDW_TAMPER_RECMAC = 1) ∧ Keeps [.out, .regs, .edw] s t) ∧
    (∀ r, newestSeal s = some r → ∃ t, exec .edwRestoreDone s = .next t ∧ t.edw.scan = false ∧ t.edw.sealed_ = true ∧ t.edw.cfg = true ∧
      t.edw.cnt = r.cnt ∧ t.edw.lastCap.isSome = true ∧ Keeps [.out, .fresh, .regs, .edw] s t)) ∧
  (∀ (p : BitVec 128) (s : State), barReady .host s →
    (hostEdwOn s = true → exec (.meter p) s = .next { s with out := [], gate := { s.gate with
      bar := barWith 0x0F (pay (pf p 0 6 + 2 ^ 32 * (p.extractLsb' 32 32 : BitVec 32).toNat)) (barTook .host 0x0E s)
      mirror := tset (0, 0) s.gate.mirror (pf p 0 6) (p.extractLsb' 64 64, p.extractLsb' 32 32) } }) ∧
    (hostEdwOn s = false → exec (.meter p) s = .next { s with out := [], gate := { s.gate with bar := barTook .host 0x0E s } } ∧
      exec (.sealRecord p) s = .next { s with out := [], gate := { s.gate with bar := barTook .host 0x10 s } }) ∧
    (hostEdwOn s = true → ∃ t, exec (.sealRecord p) s = .next t ∧ t.gate = { s.gate with bar := barTook .host 0x10 s, sealSeen := true } ∧
      t.rd Reg.HSEAL_LO = pf p 0 32 ∧ t.rd Reg.HSEAL_HI = pf p 32 32 ∧ t.rd Reg.HSEAL_MAC_LO = pf p 64 32 ∧
      t.rd Reg.HSEAL_MAC_HI = pf p 96 32 ∧ t.rd Reg.HEDW_STAT_SEALNEW = 1 ∧
      (s.flag Reg.HEDW_CFG_SEALCHK = true → s.gate.sealSeen = true → pf p 0 64 ≤ s.rd Reg.HSEAL_LO + 2 ^ 32 * s.rd Reg.HSEAL_HI →
        t.rd Reg.HEDW_STAT_ROLL = 1) ∧ Keeps [.out, .regs, .gate] s t))

/-- R450 to R458, R474, R516: power domains. The first wake request that finds its tokens is granted and its domain ramps; pwr_good returns the
tokens, the release ends in ON, a late ramp in FAIL, and a domain that loses pwr_good while ON in FAIL with its contents lost. Complete, each with the
effects stated: wakeGrant, pwrGoodRise, domainReleaseEnd, domainRampFail, pwrGoodFall. -/
def Obligations.PowerDomains : Prop :=
  (∀ (s : State), s.gate.pwrReq = true → (s.gate.pwrE = 0 ∨ s.gate.pwrE = 3) →
    exec (.wakeGrant .host) s = .next (({ s with out := [], gate := { s.gate with
      pwrReq := false, pwrE := 1, pwrGood := false, pwrSince := s.gate.clk } } : State).inc Reg.H_WB_CNT_GRANTS)) ∧
  (∀ (q : WakeReq) (s : State), clocked s = true → firstWake s = some q → q.d ≠ 22 →
    wakeFits s q = true → ∃ t, exec (.wakeGrant .field) s = .next t ∧ t.dom q.d = 1 ∧ (∀ d, d ≠ q.d → t.dom d = s.dom d) ∧
      t.pwr.reqs = s.pwr.reqs.filter (·.d != q.d) ∧ tget (0, false) t.pwr.tokens q.d = (domCost q.d s, q.cls == 2) ∧
      tget 0 t.pwr.since q.d = s.time.now ∧ Keeps [.out, .regs, .pwr] s t) ∧
  (∀ (d : Fin 24) (s : State), d.val ≠ 22 → s.dom d = 1 →
    exec (.pwrGoodRise .field d) s = .next { s with out := [], pwr := { s.pwr with
      good := tset false s.pwr.good d true, tokens := tset (0, false) s.pwr.tokens d (0, false) } }) ∧
  (∀ (s : State), s.gate.pwrE = 1 →
    exec (.pwrGoodRise .host 3) s = .next { s with out := [], gate := { s.gate with pwrGood := true } } ∧
    (s.gate.pwrGood = true → exec (.domainReleaseEnd .host 3) s = .next { s with out := [], gate := { s.gate with pwrE := 2 } }) ∧
    (s.gate.pwrGood = false → s.gate.pwrSince.toNat + 800 ≤ s.gate.clk.toNat →
      exec (.domainRampFail .host 3) s = .next { s with out := [], gate := { s.gate with pwrE := 3 } })) ∧
  (∀ (d : Fin 24) (s : State), s.dom d = 1 → tget false s.pwr.good d = true → 32 + d.val ∉ s.pwr.resets →
    firnAll s (fun r => r.kind == .custody) = [] →
    ∃ t, exec (.domainReleaseEnd .field d) s = .next t ∧ t.dom d = 2 ∧ (∀ e, e ≠ d.val → t.dom e = s.dom e) ∧
      t.pwr.reqs = s.pwr.reqs ∧ t.pwr.resets = s.pwr.resets.filter (fun x => x != d.val && x != 32 + d.val) ∧
      (d.val = 23 → t.edw.scan = true ∧ (s.edw.asks = [] → t.edw = { s.edw with scan := true })) ∧
      (∀ r < 4, d.val = 16 + r → (t.segOf r).flush = false) ∧
      Keeps [.out, .regs, .src, .firn, .xb, .arb, .clus, .seg, .lnk, .pwr, .bar, .edw, .trc] s t) ∧
  (∀ (d : Fin 24) (s : State), s.dom d = 1 → tget false s.pwr.good d = false →
    (tget 0 s.pwr.since d).toNat + 4 * rampLimit d ≤ s.t → s.su.phase ≠ 3 →
    exec (.domainRampFail .field d) s = .next (({ s with out := [], pwr := { s.pwr with
      tokens := tset (0, false) s.pwr.tokens d (0, false), resets := s.pwr.resets.filter fun x => x != d.val && x != 32 + d.val } } : State).setDom d 3)) ∧
  (∀ (s : State), s.gate.pwrE = 2 → ∃ t, exec (.pwrGoodFall .host 3) s = .next t ∧ t.gate = { s.gate with
      pwrE := 3, pwrGood := false, mirror := [], sealSeen := false } ∧ Keeps [.out, .regs, .gate] s t) ∧
  (∀ (d : Fin 24) (s : State), d.val ≠ 22 →
    (s.dom d ≠ 2 → exec (.pwrGoodFall .field d) s = .next { s with out := [], pwr := { s.pwr with good := tset false s.pwr.good d false } }) ∧
    (s.dom d = 2 → firnAll s (fun r => r.kind == .custody) = [] → ∃ t, exec (.pwrGoodFall .field d) s = .next t ∧ t.dom d = 3 ∧
      (d.val < 16 → t.clusOf d.val = {} ∧ ∀ j < 4, t.coreOf (4 * d.val + j) = { halt := (s.coreOf (4 * d.val + j)).halt }) ∧
      (∀ p < 4, lnkDom p = d.val → (t.port p).st = .off ∧ t.arbOf (16 + p) = {}) ∧
      (d.val = 23 → (∀ r, s.edw.step ≠ .program r) → t.edw = { sectors := s.edw.sectors, sector := s.edw.sector, inbox := s.edw.inbox
                                                               asks := s.edw.asks, meters := s.edw.meters ++ meterSources s })))

/-- R144, R169, R261, R310, R426, R461, R464, R531: the resets of a cluster and of a region. A reset of one that is ON loses its contents (the custody
that is lost in a cluster is restored at once, log entry 21), one of a WAKING domain waits for it (log entry 34), and one of a domain that is off does
nothing more than be counted. Complete, each with the effects stated: rstCluster, rstRegion. -/
def Obligations.ClusterAndRegionResets : Prop :=
  (∀ (k : Fin 16) (s : State), clocked s = true →
    (s.dom k.val = 2 → firnAll s (fun r => r.kind == .custody) = [] → ∃ t, exec (.rstCluster k) s = .next t ∧ t.clusOf k.val = {} ∧
      (∀ j < 4, t.coreOf (4 * k.val + j) = { halt := (s.coreOf (4 * k.val + j)).halt }) ∧ t.pwr = s.pwr ∧
      Keeps [.out, .regs, .time, .acc, .arb, .core, .clus, .camp, .trc] s t) ∧
    (s.dom k.val = 1 → ∃ t, exec (.rstCluster k) s = .next t ∧ t.pwr = { s.pwr with resets := s.pwr.resets ++ [k.val] } ∧
      t.rd Reg.RST_STAT_KIND = 2 ∧ t.rd Reg.RST_STAT_INDEX = k.val ∧ Keeps [.out, .regs, .pwr] s t) ∧
    (s.dom k.val ≠ 1 → s.dom k.val ≠ 2 → ∃ t, exec (.rstCluster k) s = .next t ∧ t.rd Reg.RST_STAT_KIND = 2 ∧
      t.rd Reg.RST_STAT_INDEX = k.val ∧ Keeps [.out, .regs] s t)) ∧
  (∀ (r : Fin 4) (s : State), clocked s = true →
    (s.dom (16 + r.val) = 2 → firnAll s (fun c => c.kind == .custody) = [] → ∃ t, exec (.rstRegion r) s = .next t ∧
      (t.segOf r.val).bursts = [] ∧ (∀ j < 16, t.campOf (16 * r.val + j) = {} ∧ t.lane (16 * r.val + j) = [] ∧ t.lane (64 + 16 * r.val + j) = []) ∧
      Keeps [.out, .regs, .time, .acc, .xb, .rq, .arb, .core, .pred, .clus, .camp, .seg, .pwr, .trc] s t) ∧
    (s.dom (16 + r.val) = 1 → ∃ t, exec (.rstRegion r) s = .next t ∧ t.pwr = { s.pwr with resets := s.pwr.resets ++ [16 + r.val] } ∧
      t.rd Reg.RST_STAT_KIND = 3 ∧ t.rd Reg.RST_STAT_INDEX = r.val ∧ Keeps [.out, .regs, .pwr] s t) ∧
    (s.dom (16 + r.val) ≠ 1 → s.dom (16 + r.val) ≠ 2 → ∃ t, exec (.rstRegion r) s = .next t ∧ t.rd Reg.RST_STAT_KIND = 3 ∧
      t.rd Reg.RST_STAT_INDEX = r.val ∧ Keeps [.out, .regs] s t))

/-- R351, R364, R414, R450, R461 to R463, R466, R468, R513, R519: resets of the instance and above. A soft instance reset and a die reset empty every
queue and buffer and begin anew in phase FIRN, the die reset held; a package, system or power-on reset begins in phase AON and leaves flash, OTP and
the seal sectors. A reset that a wider one covers has no effect. A release samples the identity pins when the reset reached the always-on domain. A
host reset clears RUN and frees every slice, and keeps GEN. Complete, each with the effects stated: hostReset, rstSoftInstance, rstDie, rstPackage,
rstSystem, powerOn, resetRelease. -/
def Obligations.Resets : Prop :=
  (∀ (s : State), clocked s = true → ∃ t, exec .rstSoftInstance s = .next t ∧
    t.su = { phase := 1, cold := false, soft := true, bist := bistArmed s, gens := s.su.gens + 1 } ∧ t.xb = {} ∧ t.rq = {} ∧ t.camp = [] ∧ t.bar = {} ∧
    t.staged = [] ∧ t.firn.writes = [] ∧ t.firn.dones = [] ∧ t.img.flashA = s.img.flashA ∧ t.img.flashB = s.img.flashB ∧
    t.img.torn = s.img.torn ∧ t.img.mark0 = s.img.mark0 ∧ t.img.mark1 = s.img.mark1 ∧ t.img.otp = s.img.otp ∧ t.edw = s.edw ∧ t.pins = s.pins ∧ t.gate = s.gate ∧ t.time.now = s.time.now ∧
    t.rd Reg.SU_STAT_START = 4 ∧ t.rd Reg.SU_STAT_FIRNKEPT = 1) ∧
  (∀ (s : State), (s.su.phase = 0 ∨ s.pins.rdpErase = true → exec .rstDie s = .next { s with out := [] }) ∧
    (s.su.phase ≠ 0 → s.pins.rdpErase = false → ∃ t, exec .rstDie s = .next t ∧
      t.su = { phase := 1, cold := false, bist := bistArmed s, gens := s.su.gens + 1, hold := true, holdPhase := 1 } ∧ t.xb = {} ∧ t.rq = {} ∧ t.camp = [] ∧
      t.img.flashA = s.img.flashA ∧ t.img.flashB = s.img.flashB ∧ t.img.torn = s.img.torn ∧ t.img.mark0 = s.img.mark0 ∧
      t.img.mark1 = s.img.mark1 ∧ t.img.otp = s.img.otp ∧ t.time.now = s.time.now ∧ t.gate = s.gate ∧ t.pins = s.pins)) ∧
  (∀ (c : Instr) (k : Nat) (s : State), (c = .powerOn ∧ k = 0 ∨ c = .rstPackage ∧ k = 1 ∨ c = .rstSystem ∧ k = 2) →
    (c = .rstPackage → sysHeld s = false) → (∀ r, s.edw.step ≠ .program r) →
    ∃ t, exec c s = .next t ∧ t.su = { hold := true, gens := s.su.gens + 1 } ∧ t.rd Reg.SU_STAT_START = k ∧ t.rd Reg.H_SU_STAT_START = k ∧
      t.img = { flashA := s.img.flashA, flashB := s.img.flashB, torn := s.img.torn, mark0 := s.img.mark0, mark1 := s.img.mark1
                otp := s.img.otp } ∧
      t.edw = { sectors := s.edw.sectors, sector := s.edw.sector } ∧ t.firn = {} ∧ t.xb = {} ∧ t.bar = {} ∧ t.gate = {} ∧ t.time = {} ∧
      t.pwr = {} ∧ t.once = [] ∧ t.staged = [] ∧ t.src.levels = s.src.levels ∧ t.pins = s.pins ∧ t.shape = s.shape) ∧
  (∀ (s : State), sysHeld s = true → exec .rstPackage s = .next { s with out := [] }) ∧
  (∀ (s : State), ∃ t, exec .hostReset s = .next t ∧ t.rd Reg.GATE_CTRL_RUN = 0 ∧ t.rd Reg.GATE_STAT_HRST = 1 ∧ t.gate.gen = s.gate.gen ∧
    (∀ i, (t.slice i).st = .free) ∧ Keeps [.out, .regs, .arb, .bar, .gate] s t) ∧
  (∀ (idPkg : BitVec 3) (idDie rdp : BitVec 2) (testEn : Bool) (s : State), s.su.hold = true →
    exec (.resetRelease idPkg idDie testEn rdp) s = .next { s with
      out := [], su := { s.su with hold := false, bist := s.flag Reg.FIRN_BIST_ARM && testEn }
      pins := { s.pins with
        idPkg := if s.su.holdPhase = 0 then idPkg else s.pins.idPkg, idDie := if s.su.holdPhase = 0 then idDie else s.pins.idDie
        rdpErase := false, testEn := testEn, rdpLevel := rdp } })

/-- R315, R352, R359, R439, R468 to R471, R513, R530: start-up. The phases follow: tclk locks, Firn is initialised, the unit time arrives, the image
is loaded, and the ports train, for as long as STMO bounds it. Complete, each with the effects stated: tclkLock, firnInitEnd, startupLoadEnd,
linkPhaseEnd. -/
def Obligations.StartUp : Prop :=
  (∀ (s : State), s.su.phase = 0 → s.su.hold = false →
    (s.pins.idDie ≠ 3 → exec .tclkLock s = .next { s with
      out := [], su := { s.su with phase := 1, bist := bistArmed s }, time := { s.time with running := true } }) ∧
    (s.pins.idDie = 3 → exec .tclkLock s = .next { s with out := [] })) ∧
  (∀ (errs : List (BitVec 14 × Ecc)) (bist : List (BitVec 15)) (s : State), s.su.phase = 1 → s.su.hold = false → s.su.cold = true →
    s.su.bist = false →
    ∃ t, exec (.firnInitEnd errs bist) s = .next t ∧ t.su = { s.su with phase := 2 } ∧ t.firn = { tagGen := s.firn.tagGen } ∧
      (s.dom 23 = 0 → t.pwr.reqs.any (·.d == 23) = true) ∧ Keeps [.firn, .out, .pwr, .su] s t) ∧
  (∀ (bist : List (BitVec 15)) (s : State), s.su.phase = 1 → s.su.hold = false → s.su.cold = false →
    s.su.bist = false → s.rd Reg.SU_STAT_START ≠ 5 →
    exec (.firnInitEnd [] bist) s = .next { s with out := [], su := { s.su with phase := 2 } }) ∧
  (∀ (bist : List (BitVec 15)) (errs : List (BitVec 14 × Ecc)) (s : State), s.su.phase = 1 → s.su.hold = false →
    s.su.bist = true →
    ∃ t, exec (.firnInitEnd errs bist) s = .next t ∧ t.su = { s.su with phase := 2, cold := true } ∧ t.firn = { tagGen := s.firn.tagGen } ∧
      t.rd Reg.FIRN_BIST_DONE = 1 ∧ t.rd Reg.FIRN_BIST_ARM = 0 ∧ t.rd Reg.FIRN_BIST_COUNT = min (2 ^ 14 - 1) bist.length) ∧
  (∀ (s : State), clocked s = true → s.su.phase = 3 → s.img.load.st = .ready → s.img.load.s0 = true → edwDone s = true →
    (∀ d < 20, s.dom d = 2 ∨ s.dom d = 3) →
    ∃ t, exec .startupLoadEnd s = .next t ∧ t.su = { s.su with phase := 4, linkFrom := s.time.now } ∧ Keeps [.out, .lnk, .pwr, .su] s t) ∧
  (∀ (s : State), clocked s = true → s.su.phase = 4 → (∀ p < 4, s.flag (Reg.LNK_CTRL_EN p) = true → portUp s p = true) →
    (s.isMaster = true ∨ s.time.exchanged = true) →
    exec .linkPhaseEnd s = .next { s with out := [], su := { s.su with phase := 5 } }) ∧
  (∀ (s : State), clocked s = true → s.su.phase = 4 → s.su.linkFrom.toNat + 16000000 ≤ s.t →
    (∃ p < 4, s.flag (Reg.LNK_CTRL_EN p) = true ∧ portUp s p = false) → (s.isMaster = true ∨ s.time.exchanged = true) →
    ∃ t, exec .linkPhaseEnd s = .next t ∧ t.su = { s.su with phase := 5 } ∧ t.rd Reg.SU_STAT_LINKTMO = 1 ∧ Keeps [.out, .regs, .su] s t)

/-- R109, R480, R483, R485, R489, R491: register reads. A read while the port is closed has no effect; one that a cause of R480 turns away is answered
with the error, which BUSERR records. A debug read changes nothing. Any other read answers the stored and the present values, or the reset values
where the island is off, and clears the RC fields (the answer to a bank word that its check finds uncorrectable is a free value, log entry 8).
Complete, each with the effects stated: registerRead. -/
def Obligations.RegisterReads : Prop :=
  (∀ (a : Access) (addr : BitVec 20) (ecc : Ecc) (s : State), a.inBlock addr.toNat = true →
    (portOpen s a = false → exec (.registerRead a addr ecc) s = .next { s with out := [] }) ∧
    (∀ c, portOpen s a = true → readCause s a addr.toNat = some c → ∃ t, exec (.registerRead a addr ecc) s = .next t ∧
      t.out = [.reg a.via 0 (some c)] ∧ Keeps [.out, .regs] s t ∧
      (a.host = false → t.rd Reg.BUSERR_OFFSET = addr.toNat ∧ t.rd Reg.BUSERR_CAUSE = c ∧ t.rd Reg.BUSERR_VALID = 1))) ∧
  (∀ (a : Access) (addr : BitVec 20) (ecc : Ecc) (s : State) (p : Spot), a.inBlock addr.toNat = true → reaches s a addr.toNat →
    locate s a.via addr.toNat = some p → p.view = .active →
    (a.debug = true → (p.row.id = .BANK ∨ p.row.id = .TRACE_DATA → ecc ≠ .uncorrectable) →
      exec (.registerRead a addr ecc) s = .next { s with out := [.reg a.via (BitVec.ofNat 32 (readWord s a p ecc)) none] }) ∧
    (a.debug = false → p.row.id ∉ readActs → ∃ t, exec (.registerRead a addr ecc) s = .next t ∧
      t.out = [.reg a.via (BitVec.ofNat 32 (if islandOn s p then wordOf p.row.flds (fieldValue s (live s a.master p) p)
        else wordOf p.row.flds (resetVal p))) none] ∧ Keeps [.out, .regs] s t ∧
      (islandOn s p = true → ∀ f ∈ p.row.flds, f.acc = .rc → t.rd (f.at p.off) = 0) ∧
      (∀ g : Fld, (∀ f ∈ p.row.flds, f.acc = .rc → g.key ≠ (f.at p.off).key) → t.rd g = s.rd g)))

/-- R153, R177, R190, R321, R408, R449, R502, R503: the reads with an effect of their own. The reads of TIME, of a capture, of a channel and of the
seal counter latch their high parts for the master, a read of CLAIM by the port claims nothing, a read of the dirty bits of the slices clears them, a
read of a free lock acquires it, and a read of TRACE_DATA moves the read pointer on, but not in the cycle of an overwrite. Complete, each with the
effects stated: claimPeek, timeLoRead, captureRead, lockAcquire, slcDirtyRead, edwLatchedRead, traceDataRead. -/
def Obligations.LatchingReads : Prop :=
  (∀ (a : Access) (n : Fin 64) (s : State), a.atPort = true → reaches s a (coreBlock n) → s.on (n / 4) = true → ∃ t, exec (.claimPeek a n) s = .next t ∧
    t.out = [.reg a.via (BitVec.ofNat 32 (claimValue s n)) none] ∧ Keeps [.out, .regs] s t) ∧
  (∀ (a : Access) (s : State), reaches s a 0x1000 →
    (a.via = .port → ∃ t, exec (.timeLoRead a) s = .next t ∧ t.out = [.reg .port (BitVec.ofNat 32 s.t) none] ∧
      (a.dbg = false → latched t 0x1004 a.mid.toNat = hiWord s.t) ∧ Keeps [.out, .time] s t ∧ t.time.now = s.time.now) ∧
    (a.via = .bar0 → ∃ t, exec (.timeLoRead a) s = .next t ∧ t.out = [.reg .bar0 (BitVec.ofNat 32 s.gate.now.toNat) none] ∧
      latched t 0x101004 0 = hiWord s.gate.now.toNat ∧ Keeps [.out, .time] s t ∧ t.time.now = s.time.now)) ∧
  (∀ (a : Access) (i : Fin 16) (s : State), a.atPort = true → reaches s a (0x1040 + 8 * i) → ∃ t, exec (.captureRead a i) s = .next t ∧
    t.out = [.reg a.via (BitVec.ofNat 32 (tget 0 s.time.captures i).toNat) none] ∧ Keeps [.out, .regs, .time] s t ∧ t.time.captures = s.time.captures ∧
    (a.dbg = false → latched t (0x1044 + 8 * i) a.mid.toNat = hiWord (tget 0 s.time.captures i).toNat ∧
      t.rd Reg.CAP_STAT_NEW = s.rd Reg.CAP_STAT_NEW &&& (0xFFFF ^^^ 2 ^ i.val))) ∧
  (∀ (a : Access) (c : Fin 64) (s : State), a.atPort = true → reaches s a (0x21200 + 16 * c) → s.on 23 = true →
    ∃ t, exec (.edwLatchedRead a (BitVec.ofNat 12 (0x200 + 16 * c))) s = .next t ∧
      t.out = [.reg a.via (BitVec.ofNat 32 (ofSgn 64 (s.chan c).value)) none] ∧ Keeps [.out, .time] s t ∧ t.time.now = s.time.now ∧
      (a.dbg = false → latched t (0x21204 + 16 * c) a.mid.toNat = hiWord (ofSgn 64 (s.chan c).value) ∧
        latched t (0x21208 + 16 * c) a.mid.toNat = (s.chan c).count.toNat % 2 ^ 31)) ∧
  (∀ (a : Access) (i : BitVec 8) (w : Fin 17) (s : State), a.atBar0 = true → reaches s a (0x22000 + 0x80 * i.toNat + 4 * w) →
    ∃ t, exec (.slcDirtyRead a i w) s = .next t ∧ t.out = [.reg .bar0 (BitVec.ofNat 32 (s.rd (Reg.SLC_DIRTY i.toNat w))) none] ∧
      t.rd (Reg.SLC_DIRTY i.toNat w) = 0 ∧ Keeps [.out, .regs] s t) ∧
  (∀ (a : Access) (s : State), a.atPort = true → reaches s a 0x20044 → ∃ t, exec (.traceDataRead a) s = .next t ∧
    t.out = [.reg a.via (traceWord s false) none] ∧ Keeps [.out, .regs, .trc] s t ∧
    (a.dbg = true ∨ s.trc.ring = [] ∨ overwriting s = true → t.trc = s.trc) ∧
    (a.dbg = false → s.trc.ring ≠ [] → overwriting s = false → s.trc.ptr.toNat % 4 ≠ 3 → t.trc = { s.trc with ptr := s.trc.ptr + 1 }) ∧
    (a.dbg = false → s.trc.ring ≠ [] → overwriting s = false → s.trc.ptr.toNat % 4 = 3 → t.trc.ring = s.trc.ring.drop 1)) ∧
  (∀ (a : Access) (i : Fin 64) (s : State), a.atPort = true → reaches s a (0xF000 + 4 * i) →
    ((s.lockOf i).held = true ∨ a.dbg = true ∨ (lockHeldBy s a.mid).isSome = true →
      exec (.lockAcquire a i) s = .next { s with out := [.reg a.via (BitVec.ofNat 32 (lockWord (s.lockOf i) false)) none] }) ∧
    ((s.lockOf i).held = false → a.dbg = false → lockHeldBy s a.mid = none → ∃ t, exec (.lockAcquire a i) s = .next t ∧
      t.out = [.reg a.via (BitVec.ofNat 32 (lockWord { s.lockOf i with owner := a.mid, held := true, set := [], ovf := false } true)) none] ∧
      t.lockOf i = { s.lockOf i with owner := a.mid, held := true, set := [], ovf := false, broken := false, since := s.time.now } ∧
      (∀ j, j ≠ i.val → t.lockOf j = s.lockOf j) ∧ Keeps [.out, .lock] s t))

/-- R322, R343, R344, R480, R482, R483, R487, R490, R491, R492, R493, R520: register writes. A write while the port is closed has no effect, and one
that a cause of R480 turns away changes nothing but BUSERR. A write of a plain word stores its RW fields; the first write of the W1 field of CTRL is
kept and a later one that would change it is LOCKED. A write of the staged view enters the staged copy, or the staging set of the lock that its master
holds, and is refused where a load holds the word. A bit alias replaces one bit of the word. Complete, each with the effects stated: registerWrite,
stagedViewWrite, bitAliasWrite. -/
def Obligations.RegisterWrites : Prop :=
  (∀ (a : Access) (addr : BitVec 20) (w : Word) (s : State), a.inBlock addr.toNat = true →
    (portOpen s a = false → exec (.registerWrite a addr w) s = .next { s with out := [] }) ∧
    (∀ c, portOpen s a = true → edwDebug a addr.toNat = false → writeCause s a addr.toNat = some c → ∃ t, exec (.registerWrite a addr w) s = .next t ∧
      t.out = (if a.host then [] else [.reg a.via 0 (some c)]) ∧ Keeps [.out, .regs] s t ∧
      (a.host = false → t.rd Reg.BUSERR_OFFSET = addr.toNat ∧ t.rd Reg.BUSERR_CAUSE = c ∧ t.rd Reg.BUSERR_VALID = 1))) ∧
  (∀ (a : Access) (addr : BitVec 20) (w : Word) (s : State) (p : Spot), a.inBlock addr.toNat = true → lands s a addr.toNat →
    locate s a.via addr.toNat = some p → p.view = .active → p.row.id ∉ writeActs → p.row.has .ws = false → p.row.has .w1 = false →
    ∃ t, exec (.registerWrite a addr w) s = .next t ∧ t.out = (if a.host then [] else [.reg a.via 0 none]) ∧ Keeps [.out, .regs] s t ∧
      (∀ f ∈ p.row.flds, f.acc = .rw → t.rd (f.at p.off) = bits w.toNat f.lo f.w) ∧
      (∀ g : Fld, (∀ f ∈ p.row.flds, f.acc = .rw → g.key ≠ (f.at p.off).key) → t.rd g = s.rd g)) ∧
  (∀ (a : Access) (w : Word) (s : State), a.atPort = true → lands s a 8 →
    (tget false s.once 8 = false → ∃ t, exec (.registerWrite a 8 w) s = .next t ∧ t.out = [.reg a.via 0 none] ∧ tget false t.once 8 = true ∧
      t.rd Reg.CTRL_DBGOFF = bits w.toNat 1 1 ∧ t.rd Reg.CTRL_FLTEN = bits w.toNat 0 1 ∧ t.rd Reg.CTRL_FLTMASK = bits w.toNat 16 9 ∧
      Keeps [.out, .regs, .once] s t) ∧
    (tget false s.once 8 = true → ∃ t, exec (.registerWrite a 8 w) s = .next t ∧
      t.out = [.reg a.via 0 (if s.rd Reg.CTRL_DBGOFF = bits w.toNat 1 1 then none else some 5)] ∧ t.rd Reg.CTRL_DBGOFF = s.rd Reg.CTRL_DBGOFF ∧
      t.rd Reg.CTRL_FLTEN = bits w.toNat 0 1 ∧ t.rd Reg.CTRL_FLTMASK = bits w.toNat 16 9 ∧ Keeps [.out, .regs] s t)) ∧
  (∀ (a : Access) (off : BitVec 16) (w : Word) (s : State) (p : Spot), a.atWindow = true → lands s a (0x30000 + off.toNat) →
    locate s a.via (0x30000 + off.toNat) = some p →
    (lockOwned s a = none → imageHolds s a p.off = false → ∃ t, exec (.stagedViewWrite a off w) s = .next t ∧
      t.out = (if a.host then [] else [.reg a.via 0 none]) ∧ (∀ f ∈ p.row.flds, f.acc = .ws → t.rdStaged (f.at p.off) = bits w.toNat f.lo f.w) ∧
      (∀ g : Fld, (∀ f ∈ p.row.flds, f.acc = .ws → g.key ≠ (f.at p.off).key) → t.rdStaged g = s.rdStaged g) ∧ Keeps [.out, .staged] s t) ∧
    (lockOwned s a = none → imageHolds s a p.off = true → ∃ t, exec (.stagedViewWrite a off w) s = .next t ∧
      t.out = (if a.host then [] else [.reg a.via 0 (some 6)]) ∧ t.staged = s.staged ∧ Keeps [.out, .regs] s t ∧
      t.rd (if a.host then Reg.H_LOAD_STATUS_COLL else Reg.LOAD_STATUS_COLL) = 1) ∧
    (∀ i, lockOwned s a = some i → (s.lockOf i).set.length < 16 → ∃ t, exec (.stagedViewWrite a off w) s = .next t ∧
      t.out = [.reg a.via 0 none] ∧ (p.off, w) ∈ (t.lockOf i).set ∧ (∀ j, j ≠ i → t.lockOf j = s.lockOf j) ∧ Keeps [.out, .lock] s t)) ∧
  (∀ (a : Access) (off : BitVec 14) (k : Fin 32) (v : Bool) (s : State) (p : Spot), a.atWindow = true → off.toNat % 4 = 0 →
    lands s a (0x40000 + 32 * off.toNat + 4 * k) → locate s a.via (0x40000 + 32 * off.toNat + 4 * k) = some p → p.view = .alias_ k →
    (p.row.id ≠ .COMPLETE → p.row.fieldAt k = none → ∃ t, exec (.bitAliasWrite a off k v) s = .next t ∧
      t.out = (if a.host then [] else [.reg a.via 0 none]) ∧ Keeps [.out] s t) ∧
    (∀ f, p.row.id ≠ .COMPLETE → p.row.fieldAt k = some f → f.acc = .rc → ∃ t, exec (.bitAliasWrite a off k v) s = .next t ∧
      t.out = (if a.host then [] else [.reg a.via 0 none]) ∧ Keeps [.out, .regs] s t ∧
      t.rd (f.at p.off) = if !v && bit (s.rd (f.at p.off)) (k - f.lo) then (s.rd (f.at p.off) - 2 ^ (k - f.lo)) % 2 ^ f.w else s.rd (f.at p.off)) ∧
    (∀ f, p.row.fieldAt k = some f → f.acc = .rw → p.row.id ∉ writeActs → p.row.has .ws = false → p.row.has .w1 = false →
      ∃ t, exec (.bitAliasWrite a off k v) s = .next t ∧ t.out = (if a.host then [] else [.reg a.via 0 none]) ∧ Keeps [.out, .regs] s t ∧
        (∀ g ∈ p.row.flds, g.acc = .rw → t.rd (g.at p.off) = bits (aliasWord s a p k v % 2 ^ 32) g.lo g.w)) ∧
    bit (aliasWord s a p k v) k = v ∧ (∀ j, j ≠ k.val → bit (aliasWord s a p k v) j = bit (aliasWord s a p k (!v)) j))

/-- R137, R160, R161, R162, R167, R195, R486: the writes that steer delivery, Campions and epochs. THRESH and the predictor registers take their
fields; a predictor that is newly enabled, or whose period is written while it is enabled, begins anew, locked when it is told and has a period; NEXT
makes the told time of a locked one valid. RFAIL.GO fails a Campion with cause 0. A period written too late for the epoch in force is reported, and
one written in the cycle in which a thaw begins leaves that thaw. Complete, each with the effects stated: threshWrite, predictorReset, pwNextWrite,
campRfailGo, epochPeriodWrite. -/
def Obligations.CoreWrites : Prop :=
  (∀ (a : Access) (n : Fin 64) (w : Word) (s : State), a.atCore n = true → lands s a (coreBlock n + 8) → ∃ t, exec (.threshWrite a n w) s = .next t ∧
    t.out = [.reg a.via 0 none] ∧ t.rd (Reg.THRESH_LEVEL n) = bits w.toNat 0 6 ∧ Keeps [.out, .regs, .clus] s t ∧
    (∀ g : Fld, g.key ≠ (Reg.THRESH_LEVEL n).key → t.rd g = s.rd g)) ∧
  (∀ (a : Access) (n : Fin 64) (i : Fin 2) (w : Word) (s : State), a.atCore n = true →
    (lands s a (coreBlock n + 0x20) → ∃ t, exec (.predictorReset a n i .prewarm w) s = .next t ∧ t.out = [.reg a.via 0 none] ∧
      t.rd (Reg.PREWARM_LEAD n) = bits w.toNat 0 13 ∧ t.rd (Reg.PREWARM_TOL n) = bits w.toNat 13 8 ∧ t.rd (Reg.PREWARM_EN n) = bits w.toNat 21 1 ∧
      t.rd (Reg.PREWARM_WAKE n) = bits w.toNat 22 1 ∧ Keeps [.out, .regs, .pred, .clus] s t) ∧
    (lands s a (coreBlock n + (0x24 + 12 * i)) → ∃ t, exec (.predictorReset a n i .pwSrc w) s = .next t ∧ t.out = [.reg a.via 0 none] ∧
      t.rd (Reg.PW_SRC_SOURCE n i) = bits w.toNat 0 13 ∧ t.rd (Reg.PW_SRC_ORIGIN n i) = bits w.toNat 13 5 ∧ t.rd (Reg.PW_SRC_EN n i) = bits w.toNat 18 1 ∧
      t.rd (Reg.PW_SRC_TOLD n i) = bits w.toNat 19 1 ∧ t.rd (Reg.PW_SRC_PIN n i) = bits w.toNat 20 1 ∧ Keeps [.out, .regs, .pred, .clus] s t ∧
      (predEnabled s n i = false → s.flag (Reg.PREWARM_EN n) = true → bits w.toNat 18 1 = 1 → t.predOf n i = { s.predOf n i with
        havePrev := false, conf := 0, misses := 0, nextValid := false, warm := false
        st := if bits w.toNat 19 1 = 1 ∧ s.rd (Reg.PW_PER_PER n i) ≠ 0 then .locked else .learning })) ∧
    (lands s a (coreBlock n + (0x28 + 12 * i)) → ∃ t, exec (.predictorReset a n i .pwPer w) s = .next t ∧ t.out = [.reg a.via 0 none] ∧
      t.rd (Reg.PW_PER_PER n i) = bits w.toNat 0 24 ∧ Keeps [.out, .regs, .pred, .clus] s t ∧
      (predEnabled s n i = true → t.predOf n i = { s.predOf n i with
        havePrev := false, conf := 0, misses := 0, nextValid := false, warm := false
        st := if s.flag (Reg.PW_SRC_TOLD n i) = true ∧ bits w.toNat 0 24 ≠ 0 then .locked else .learning })) ∧
    (lands s a (coreBlock n + 0x2C + 12 * i) → ∃ t, exec (.pwNextWrite a n i w) s = .next t ∧ t.out = [.reg a.via 0 none] ∧
      t.rd (Reg.PW_NEXT_NEXT n i) = w.toNat ∧ Keeps [.out, .regs, .pred, .clus, .pwr] s t ∧
      (predEnabled s n i = true → predPinned s n i = false → (s.predOf n i).st = .locked → (t.predOf n i).nextValid = true))) ∧
  (∀ (a : Access) (r : Fin 4) (loc : BitVec 4) (s : State), a.atPort = true → lands s a (0x804 + 16 * r) → ∃ t, exec (.campRfailGo a r loc) s = .next t ∧
    t.out = [.reg a.via 0 none] ∧ t.rd (Reg.CAMP_RFAIL_LOCAL r) = loc.toNat ∧ Keeps [.out, .regs, .src, .camp, .trc] s t ∧
    ((s.campOf (16 * r + loc.toNat)).failed = none → (t.campOf (16 * r + loc.toNat)).failed = some 0 ∧ (t.campOf (16 * r + loc.toNat)).run = none ∧
      (s.time.sleep = .awake → (t.latchOf (5136 + r)).isSome = true)) ∧
    ((s.campOf (16 * r + loc.toNat)).failed.isSome = true → t.camp = s.camp)) ∧
  (∀ (a : Access) (w : Word) (s : State), a.atPort = true → lands s a 0x1008 → ∃ t, exec (.epochPeriodWrite a w) s = .next t ∧
    t.out = [.reg a.via 0 none] ∧ t.rd Reg.EPOCH_PERIOD_PERIOD = bits w.toNat 0 24 ∧ Keeps [.out, .regs, .epoch, .src, .trc] s t ∧
    (s.su.open_ = false → t.epoch = s.epoch ∧ t.src = s.src) ∧
    (thawDue s = true → t.epoch = { s.epoch with short := some (BitVec.ofNat 64 (nextThaw s)) } ∧ t.src = s.src) ∧
    (s.su.open_ = true → thawDue s = false → s.epoch.short = none →
      periodInForce (s.wr Reg.EPOCH_PERIOD_PERIOD (bits w.toNat 0 24)) ≤ epochCount s + 2 →
      t.epoch = { s.epoch with short := some (s.time.now + 4) } ∧ t.rd Reg.THAW_STATUS_SHORT_EPOCH = 1 ∧
      (s.time.sleep = .awake → (t.latchOf 5144).isSome = true)) ∧
    (thawDue s = false → s.epoch.short.isSome = true → t.epoch = s.epoch ∧ t.src = s.src))

/-- R321 to R323, R486, R490: the writes of the locks. REL by the owner stages what its set holds and frees the lock, ABORT frees it and drops the
set, BREAK by a debug master breaks it (whatever else it names, log entry 26); anyone else is refused. Complete, each with the effects stated:
lockRel, lockAbort, lockBreak. -/
def Obligations.LockWrites : Prop :=
  (∀ (a : Access) (i : Fin 64) (s : State), a.atPort = true → lands s a (0xF000 + 4 * i) →
    ((s.lockOf i).held = true → (s.lockOf i).owner = a.mid →
      (∃ t, exec (.lockAbort a i) s = .next t ∧ t.out = [.reg a.via 0 none] ∧
        t.lockOf i = { s.lockOf i with held := false, set := [], ovf := false } ∧ t.staged = s.staged ∧ Keeps [.out, .lock] s t) ∧
      (∃ t, exec (.lockRel a i) s = .next t ∧ t.out = [.reg a.via 0 none] ∧
        t.lockOf i = { s.lockOf i with held := false, set := [], ovf := false } ∧ Keeps [.out, .regs, .staged, .lock] s t ∧
        ((s.lockOf i).set = [] → t.staged = s.staged) ∧
        (∀ off w p, (s.lockOf i).set = [(off, w)] → (s.lockOf i).ovf = false → holds .field s 0 (off / 4) = false → findReg off = some p →
          ∀ f ∈ p.1.flds, f.acc = .ws → t.rdStaged (f.at off) = bits w.toNat f.lo f.w))) ∧
    ((s.lockOf i).held = false ∨ (s.lockOf i).owner ≠ a.mid →
      (∃ t, exec (.lockAbort a i) s = .next t ∧ t.out = [.reg a.via 0 (some 6)] ∧ Keeps [.out, .regs] s t) ∧
      (∃ t, exec (.lockRel a i) s = .next t ∧ t.out = [.reg a.via 0 (some 6)] ∧ Keeps [.out, .regs] s t)) ∧
    (a.dbg = false → ∃ t, exec (.lockBreak a i) s = .next t ∧ t.out = [.reg a.via 0 (some 6)] ∧ Keeps [.out, .regs] s t) ∧
    (a.dbg = true → (s.lockOf i).held = true → ∃ t, exec (.lockBreak a i) s = .next t ∧ t.out = [.reg a.via 0 none] ∧
      t.lockOf i = { s.lockOf i with held := false, set := [], ovf := false, broken := true, bcause := 2 } ∧
      (s.time.sleep = .awake → (t.latchOf 5127).isSome = true) ∧ Keeps [.out, .regs, .src, .lock, .trc] s t))

/-- R261, R285: the writes that enable and disable a port. EN written 1 takes a port in OFF to DETECT when its domain is on and its idle time has
passed; EN written 0 ends in OFF; DOWN takes a port in UP to DOWN. What it may not start is REFUSED. Complete, each with the effects stated:
lnkEnable, lnkDisable, lnkDownCommand. -/
def Obligations.LinkWrites : Prop :=
  (∀ (a : Access) (p : Fin 4) (s : State), a.atPort = true → lands s a (0xE000 + 0x100 * p) →
    (∃ t, exec (.lnkEnable a p) s = .next t ∧ t.out = [.reg a.via 0 none] ∧ t.rd (Reg.LNK_CTRL_EN p) = 1 ∧
      Keeps [.out, .regs, .time, .src, .xb, .arb, .lnk, .trc] s t ∧
      (bit (presentRW s (0xE000 + 0x100 * p)) 2 = false → (s.port p).st = .off → s.on (lnkDom p) = true → idleOver s p = true → s.pins.bscMode = false →
        testing s p = false → t.port p = { s.port p with st := .detect, since := s.time.now, locked := 0, noRetrain := false } ∧ Keeps [.out, .regs, .lnk] s t)) ∧
    (∃ t, exec (.lnkDisable a p) s = .next t ∧ t.out = [.reg a.via 0 none] ∧ t.rd (Reg.LNK_CTRL_EN p) = 0 ∧ (t.port p).st = .off ∧
      ((s.port p).st = .up → (t.port p).resolving = true ∧ (t.port p).downAt = s.time.now) ∧
      (∀ q, q ≠ p.val → t.port q = s.port q) ∧ Keeps [.out, .regs, .time, .src, .xb, .arb, .lnk, .trc] s t) ∧
    (bit (presentRW s (0xE000 + 0x100 * p)) 0 = true → ∃ t, exec (.lnkDownCommand a p) s = .next t ∧ t.out = [.reg a.via 0 none] ∧
      ((s.port p).st = .up → (t.port p).st = .down ∧ (t.port p).resolving = true ∧ (t.port p).downAt = s.time.now) ∧
      ((s.port p).st ≠ .up → t.lnk = s.lnk) ∧
      (∀ q, q ≠ p.val → t.port q = s.port q) ∧ Keeps [.out, .regs, .time, .src, .xb, .arb, .lnk, .trc] s t))

/-- R340, R342, R346, R349, R350, R360: the loader's commands. START begins a load in IDLE and ERROR only, a persist with the erasure of the block not
preferred; ABORT ends one, until a part has committed, with reason 13; a word of LOAD_DATA waits in the FIFO of 64 entries, and a write past them is
held at the port (which turns other accesses away meanwhile, log entry 29); held past its bound it is answered with an error, and the load ends with
reason 12. DT_CTRL.GO starts a deep thaw of a region whose part a READY load holds. What a command may not start is REFUSED. Complete, each with the
effects stated: loadStart, loadAbort, loadData, loadDataOverrun, dtGo. -/
def Obligations.LoaderWrites : Prop :=
  (∀ (a : Access) (d : Side) (persist : Bool) (s : State), a.via = sideVia d → lands s a 0x20000 →
    (canStartLoad d s = false → ∃ t, exec (.loadStart a persist) s = .next t ∧ t.out = (if a.host then [] else [.reg a.via 0 (some 6)]) ∧
      Keeps [.out, .regs] s t) ∧
    (canStartLoad d s = true →
      (d = .host ∨ persist = false → ∃ t, exec (.loadStart a persist) s = .next t ∧ t.out = (if a.host then [] else [.reg a.via 0 none]) ∧
        loadOf d t = { st := .header } ∧ Keeps [.out, .regs, .img] s t) ∧
      (d = .field → persist = true → gapHolds s = false → ∃ t, exec (.loadStart a persist) s = .next t ∧
        t.out = [.ld 2 (blkArea (!preferred s)) 0 0, .reg a.via 0 none] ∧
        t.img.load = { st := .erase, erased := true, persist := true, blk := !preferred s } ∧ Keeps [.out, .regs, .img] s t) ∧
      (d = .field → persist = true → gapHolds s = true → ∃ t, exec (.loadStart a persist) s = .next t ∧
        t.img.load.st = .restore ∧ t.img.load.err = 15 ∧ Keeps [.out, .regs, .img] s t)) ∧
    (bits (presentRW s (if a.host then 0x120000 else 0x20000)) 0 2 = 0 →
      (canAbort d s = false → ∃ t, exec (.loadAbort a) s = .next t ∧ t.out = (if a.host then [] else [.reg a.via 0 (some 6)]) ∧ Keeps [.out, .regs] s t) ∧
      (canAbort d s = true → ∃ t, exec (.loadAbort a) s = .next t ∧ (loadOf d t).st = .restore ∧ (loadOf d t).err = 13 ∧
        (loadOf d t).held = (loadOf d s).held ∧ (loadOf d t).fifo = [] ∧ (loadOf d t).wait = none ∧ Keeps [.out, .regs, .img] s t))) ∧
  (∀ (a : Access) (d : Side) (w : Word) (s : State), a.via = sideVia d → lands s a 0x20004 →
    (canTake d s = false → ∃ t, exec (.loadData a w) s = .next t ∧ t.out = (if a.host then [] else [.reg a.via 0 (some 6)]) ∧ Keeps [.out, .regs] s t) ∧
    (canTake d s = true → 64 ≤ (loadOf d s).fifo.length → ∃ t, exec (.loadData a w) s = .next t ∧ t.out = [] ∧
      loadOf d t = { loadOf d s with wait := some (a, w, loadClk d s) } ∧ Keeps [.out, .img] s t) ∧
    (canTake d s = true → (loadOf d s).fifo.length < 64 → ∃ t, exec (.loadData a w) s = .next t ∧ Keeps [.out, .regs, .staged, .img] s t ∧
      (((loadOf d s).st = .erase ∨ (loadOf d s).busy = true) → (loadOf d s).st ≠ .header → (loadOf d s).wait = none →
        t.out = (if a.host then [] else [.reg a.via 0 none]) ∧ loadOf d t = { loadOf d s with fifo := (loadOf d s).fifo ++ [w] }))) ∧
  (∀ (a : Access) (d : Side) (s : State), a.via = sideVia d →
    ((loadOf d s).wait = none → exec (.loadDataOverrun a) s = .next { s with out := [] }) ∧
    (∀ x, (loadOf d s).wait = some x → (loadClk d s - x.2.2).toNat < 131072 → exec (.loadDataOverrun a) s = .next { s with out := [] }) ∧
    (∀ b v x, (loadOf d s).wait = some (b, v, x) → 131072 ≤ (loadClk d s - x).toNat → ∃ t, exec (.loadDataOverrun a) s = .next t ∧
      t.out = (if b.host then [] else [.reg b.via 0 (some 6)]) ∧ (loadOf d t).st = .restore ∧ (loadOf d t).err = 12 ∧ (loadOf d t).wait = none ∧
      Keeps [.out, .regs, .img] s t)) ∧
  (∀ (a : Access) (r : Fin 4) (hold : Bool) (s : State), a.atPort = true → lands s a 0x20020 →
    (s.img.dtPhase = 0 → s.img.load.st = .ready → s.img.load.parts.contains (0x10 + r.val) = true → ∃ t, exec (.dtGo a r hold) s = .next t ∧
      t.out = [.reg a.via 0 none] ∧ t.img = { s.img with dtPhase := 1, dtRegion := r, dtHold := hold } ∧ Keeps [.out, .regs, .img] s t) ∧
    (s.img.dtPhase ≠ 0 ∨ s.img.load.st ≠ .ready ∨ s.img.load.parts.contains (0x10 + r.val) = false → ∃ t, exec (.dtGo a r hold) s = .next t ∧
      t.out = [.reg a.via 0 (some 6)] ∧ Keeps [.out, .regs] s t))

/-- R454, R455, R456, R458, R459, R474: the writes that command power and sleep, on a field die and on the host gate. PWR_REQ answers with its result
code, and the wake of a domain that is down is requested, the power-off of one that is ON takes it down. SLEEP_CTRL.GO begins the entry into deep
sleep where nothing stands against it. Complete, each with the effects stated: pwrReqWake, pwrReqOff, sleepGo. -/
def Obligations.PowerWrites : Prop :=
  (∀ (a : Access) (d : BitVec 5) (s : State), a.atPort = true → lands s a 0xF560 →
    (∃ t, exec (.pwrReqWake a d) s = .next t ∧ t.out = [.reg a.via 0 none] ∧ t.rd Reg.PWR_RES_RES = (if 23 < d.toNat then 5 else 0) ∧
      t.rd Reg.PWR_RES_DOMAIN = d.toNat ∧ t.rd Reg.PWR_RES_VALID = 1 ∧ t.pwr.st = s.pwr.st ∧ Keeps [.out, .regs, .pwr] s t ∧
      (d.toNat ≤ 23 → s.dom d.toNat = 0 ∨ s.dom d.toNat = 3 → ∃ q ∈ t.pwr.reqs, q.d = d.toNat ∧ q.sw = true) ∧
      (23 < d.toNat ∨ (s.dom d.toNat ≠ 0 ∧ s.dom d.toNat ≠ 3) → t.pwr = s.pwr)) ∧
    (∃ t, exec (.pwrReqOff a d) s = .next t ∧ t.rd Reg.PWR_RES_DOMAIN = d.toNat ∧ t.rd Reg.PWR_RES_VALID = 1 ∧
      (23 < d.toNat → t.rd Reg.PWR_RES_RES = 5) ∧ (d.toNat = 22 → t.rd Reg.PWR_RES_RES = 1) ∧
      (d.toNat ≤ 23 → d.toNat ≠ 22 →
        (s.dom d.toNat = 0 ∨ s.dom d.toNat = 3 → t.rd Reg.PWR_RES_RES = 0) ∧
        (s.dom d.toNat = 1 ∨ s.dom d.toNat = 2 →
          (16 ≤ d.toNat → d.toNat < 20 → (∃ j < 4, s.dom (4 * (d.toNat - 16) + j) ≠ 0) → t.rd Reg.PWR_RES_RES = 2) ∧
          (d.toNat = 23 → s.edw.sealed_ = true → t.rd Reg.PWR_RES_RES = 3) ∧
          (d.toNat < 16 ∨ (20 ≤ d.toNat ∧ (d.toNat = 23 → s.edw.sealed_ = false)) →
            (s.dom d.toNat = 1 → t.rd Reg.PWR_RES_RES = 4 ∧ t.pwr = s.pwr) ∧
            (s.dom d.toNat = 2 → t.rd Reg.PWR_RES_RES = 0 ∧ t.dom d.toNat = 0)))))) ∧
  (∀ (a : Access) (d : BitVec 5) (s : State), a.via = .bar0 → lands s a 0xF560 →
    (∃ t, exec (.pwrReqWake a d) s = .next t ∧ t.out = [] ∧ t.rd Reg.H_PWR_RES_RES = (if 3 < d.toNat then 5 else 0) ∧
      t.rd Reg.H_PWR_RES_DOMAIN = d.toNat ∧ t.rd Reg.H_PWR_RES_VALID = 1 ∧ Keeps [.out, .regs, .gate] s t ∧
      (d.toNat = 3 → s.gate.pwrE = 0 ∨ s.gate.pwrE = 3 → t.gate = { s.gate with pwrReq := true }) ∧
      (d.toNat ≠ 3 ∨ (s.gate.pwrE ≠ 0 ∧ s.gate.pwrE ≠ 3) → t.gate = s.gate)) ∧
    (∃ t, exec (.pwrReqOff a d) s = .next t ∧ t.out = [] ∧ t.rd Reg.H_PWR_RES_DOMAIN = d.toNat ∧ t.rd Reg.H_PWR_RES_VALID = 1 ∧
      t.rd Reg.H_PWR_RES_RES = (if 3 < d.toNat then 5 else if d.toNat < 3 then 1 else if s.gate.pwrE = 1 then 4 else 0) ∧
      Keeps [.out, .regs, .gate] s t ∧
      (d.toNat = 3 → s.gate.pwrE = 2 → t.gate = { s.gate with pwrE := 0, pwrGood := false, mirror := [], sealSeen := false }) ∧
      (d.toNat ≠ 3 ∨ s.gate.pwrE ≠ 2 → t.gate = s.gate))) ∧
  (∀ (a : Access) (s : State), a.atPort = true → lands s a 0xF580 →
    (sleepOk s = true → ∃ t, exec (.sleepGo a) s = .next t ∧ t.out = [.reg a.via 0 none] ∧ t.time = { s.time with sleep := .entering } ∧
      Keeps [.out, .regs, .time] s t) ∧
    (sleepOk s = false → ∃ t, exec (.sleepGo a) s = .next t ∧ t.out = [.reg a.via 0 (some 6)] ∧ Keeps [.out, .regs] s t))

/-- R499, R502, R504, R508 to R511: the writes that command the trace and the test modes. A write of RDPTR frees the entries before the named word; EN
from 0 to 1 empties the ring. INJ puts the test message into input 23 for one output; LTEST starts the pattern test of a port that is disabled and
powered, whose start is a free value (log entry 8), and at its end the lanes return to idle. Complete, each with the effects stated: traceRdptrWrite,
traceEnable, testInject, ltestStart, ltestStop. -/
def Obligations.TraceAndTestWrites : Prop :=
  (∀ (a : Access) (w : Word) (d : Nat) (s : State), a.atPort = true → lands s a 0x20050 →
    d = (bits w.toNat 0 13 / 4 + Config.traceDepth - s.trc.ptr.toNat / 4) % Config.traceDepth →
    (bits w.toNat 0 13 % 4 = 0 → d ≤ s.trc.ring.length → ∃ t, exec (.traceRdptrWrite a w) s = .next t ∧ t.out = [.reg a.via 0 none] ∧
      t.trc.ring = s.trc.ring.drop d ∧ t.trc.ptr = BitVec.ofNat 13 (bits w.toNat 0 13) ∧ Keeps [.out, .regs, .trc] s t) ∧
    (bits w.toNat 0 13 % 4 ≠ 0 ∨ s.trc.ring.length < d → ∃ t, exec (.traceRdptrWrite a w) s = .next t ∧ t.out = [.reg a.via 0 (some 6)] ∧
      Keeps [.out, .regs] s t)) ∧
  (∀ (a : Access) (s : State), a.atPort = true → lands s a 0x20040 →
    ∃ t, exec (.traceEnable a) s = .next t ∧ t.out = [.reg a.via 0 none] ∧ t.rd Reg.TRACE_CTRL_EN = 1 ∧ Keeps [.out, .regs, .trc] s t ∧
      (s.flag Reg.TRACE_CTRL_EN = false → t.trc.ring = [] ∧ t.trc.frozen = false ∧ t.trc.trig = none ∧ t.trc.refusals = 0 ∧ t.trc.dbArmed = true) ∧
      (s.flag Reg.TRACE_CTRL_EN = true → t.trc.ring = s.trc.ring ∧ t.trc.frozen = s.trc.frozen)) ∧
  (∀ (a : Access) (o : BitVec 5) (s : State), a.atPort = true → lands s a 0x20060 → bit (presentRW s 0x20060) 9 = false →
    (s.flag Reg.TEST_CTRL_TMODE = true → outAbsent s o.toNat = false → bufUsed s (bufKey 23 .s) < Config.bufDepth →
      ∃ t e, exec (.testInject a o) s = .next t ∧ t.out = [.reg a.via 0 none] ∧ t.buf (bufKey 23 .s) = s.buf (bufKey 23 .s) ++ [e] ∧
        e.owed = [(e.msg.dest, .out o.toNat)] ∧ e.msg.cls = .s ∧ (∀ k, k ≠ bufKey 23 .s → t.buf k = s.buf k) ∧ t.rd Reg.TEST_CTRL_OUT = o.toNat ∧
        Keeps [.out, .regs, .xb, .tst] s t) ∧
    (s.flag Reg.TEST_CTRL_TMODE = true → outAbsent s o.toNat = true ∨ Config.bufDepth ≤ bufUsed s (bufKey 23 .s) →
      ∃ t, exec (.testInject a o) s = .next t ∧ t.out = [.reg a.via 0 (some 6)] ∧ Keeps [.out, .regs] s t) ∧
    (s.flag Reg.TEST_CTRL_TMODE = false → ∃ t, exec (.testInject a o) s = .next t ∧ t.out = [.reg a.via 0 none] ∧
      t.rd Reg.TEST_CTRL_OUT = o.toNat ∧ Keeps [.out, .regs] s t)) ∧
  (∀ (a : Access) (s : State), a.atPort = true → lands s a 0x20060 → bit (presentRW s 0x20060) 1 = false → s.flag Reg.TEST_CTRL_TMODE = true →
    (ltestOk s = true → ∃ t, exec (.ltestStart a) s = .next t ∧ t.out = [.reg a.via 0 none] ∧ t.rd Reg.TEST_CTRL_LTEST = 1 ∧
      (s.flag Reg.TEST_CTRL_LTEST = true → t.tst = s.tst) ∧ (s.flag Reg.TEST_CTRL_LTEST = false → t.tst = { s.tst with
        gen := [0, 1, 2, 3].map fun l => Config.prbsSeed s.time.now (4 * s.rd Reg.TEST_LSEL_PORT + l) }) ∧ Keeps [.out, .regs, .tst] s t) ∧
    (ltestOk s = false → ∃ t, exec (.ltestStart a) s = .next t ∧ t.out = [.reg a.via 0 (some 6)] ∧
      Keeps [.out, .regs] s t) ∧
    (∃ t, exec (.ltestStop a) s = .next t ∧ t.out = [.reg a.via 0 none] ∧ t.rd Reg.TEST_CTRL_LTEST = 0 ∧
      (s.flag Reg.TEST_CTRL_LTEST = false → t.tst = s.tst ∧ t.lnk = s.lnk) ∧ (s.flag Reg.TEST_CTRL_LTEST = true →
        t.tst = { s.tst with locked := [], gen := [] } ∧ (t.port (s.rd Reg.TEST_LSEL_PORT)).idleFrom = some s.time.now) ∧
      Keeps [.out, .regs, .lnk, .tst] s t))

/-- R435, R440, R443: the writes of the Edelweiss block. The first seal is made by EDW_CTRL.SEAL, later ones are requested by it. A debug write to the
block changes nothing but the log of such writes (also where it is turned away for another cause, log entry 27). Complete, each with the effects
stated: edwCtrlSeal, edwDebugWrite. -/
def Obligations.SealWrites : Prop :=
  (∀ (a : Access) (s : State), a.atPort = true → a.dbg = false → lands s a 0x21000 →
    (s.edw.sealed_ = true → s.edw.step = .idle → capWithin s Config.sealGap = false → ∃ t, exec (.edwCtrlSeal a) s = .next t ∧
      t.out = [.reg a.via 0 none] ∧ sealStarted s.edw s t ∧ Keeps [.out, .regs, .edw] s t) ∧
    (s.edw.sealed_ = true → s.edw.step ≠ .idle ∨ capWithin s Config.sealGap = true → ∃ t, exec (.edwCtrlSeal a) s = .next t ∧
      t.out = [.reg a.via 0 none] ∧ t.edw = { s.edw with due := true, held := true } ∧ Keeps [.out, .regs, .edw] s t) ∧
    (s.edw.sealed_ = false → s.edw.cfg = true → s5Loading s = false → s.edw.step = .idle → ∃ t, exec (.edwCtrlSeal a) s = .next t ∧
      t.out = [.reg a.via 0 none] ∧ sealStarted { s.edw with first := true } s t ∧ Keeps [.out, .regs, .edw] s t) ∧
    (s.edw.sealed_ = false → s.edw.cfg = false ∨ s5Loading s = true ∨ s.edw.step ≠ .idle → ∃ t, exec (.edwCtrlSeal a) s = .next t ∧
      t.out = [.reg a.via 0 (some 6)] ∧ Keeps [.out, .regs] s t)) ∧
  (∀ (a : Access) (off : BitVec 12) (w : Word) (s : State), a.atPort = true → a.dbg = true → portOpen s a = true → masterFaulted s a = false →
    s.on 23 = true →
    ∃ t c, exec (.edwDebugWrite a off w) s = .next t ∧ t.out = [.reg a.via 0 (some c)] ∧ t.rd Reg.EDW_TADDR_LAST = off.toNat ∧
      t.rd Reg.EDW_TAMPER_DBGW = 1 ∧ t.rd Reg.EDW_TAMPER_COUNT = min (2 ^ Reg.EDW_TAMPER_COUNT.w - 1) (s.rd Reg.EDW_TAMPER_COUNT + 1) ∧
      (s.rd Reg.EDW_TAMPER_COUNT = 0 → t.rd Reg.EDW_TADDR_FIRST = off.toNat) ∧ Keeps [.out, .regs, .edw] s t)

/-- R394, R395, R396, R410, R411: the slice commands. CREATE opens a FREE slice whose configuration passes its checks, OPEN a CLOSED one with an empty
ring or a FAULT one, RESET stops an OPEN or FAULT one, and discards what the FAULT one holds, DESTROY frees a CLOSED one, and any other answers 1 and
changes nothing else. The shares of the pool are taken at CREATE and returned at DESTROY. Complete, each with the effects stated: slcCreate, slcOpen,
slcReset, slcDestroy. -/
def Obligations.SliceWrites : Prop :=
  (∀ (a : Access) (i : BitVec 8) (pasidEn : Bool) (s : State), a.via = .bar0 → lands s a 0x110 →
    ((s.slice i.toNat).st = .free → createResult i.toNat { s with gate := { s.gate with pasidEn := pasidEn } } = 0 →
      ∃ t, exec (.slcCreate a i pasidEn) s = .next t ∧ t.rd Reg.SLC_CMDRES_RES = 0 ∧ t.rd Reg.SLC_CMDRES_SLICE = i.toNat ∧ t.rd Reg.SLC_CMDRES_VALID = 1 ∧
        (t.slice i.toNat).st = .open_ ∧ (t.slice i.toNat).prod = 0 ∧ (t.slice i.toNat).cons = 0 ∧ (t.slice i.toNat).q = [] ∧
        (t.slice i.toNat).size = ringSize s i.toNat ∧ (t.slice i.toNat).vecs = s.rd (Reg.SLC_VEC_NVEC i.toNat) ∧
        (∀ j, j ≠ i.toNat → t.slice j = s.slice j) ∧ Keeps [.out, .regs, .bar, .gate] s t) ∧
    (∀ r, (s.slice i.toNat).st = .free → createResult i.toNat { s with gate := { s.gate with pasidEn := pasidEn } } = r → r ≠ 0 → r < 16 →
      ∃ t, exec (.slcCreate a i pasidEn) s = .next t ∧ t.rd Reg.SLC_CMDRES_RES = r ∧ t.rd Reg.SLC_CMDRES_SLICE = i.toNat ∧
        t.gate = { s.gate with pasidEn := pasidEn } ∧ Keeps [.out, .regs, .gate] s t) ∧
    ((s.slice i.toNat).st ≠ .free → ∃ t, exec (.slcCreate a i pasidEn) s = .next t ∧ t.rd Reg.SLC_CMDRES_RES = 1 ∧
      t.gate = { s.gate with pasidEn := pasidEn } ∧ Keeps [.out, .regs, .gate] s t)) ∧
  (∀ (a : Access) (i : BitVec 8) (s : State), a.via = .bar0 → lands s a 0x110 →
    ((s.slice i.toNat).st = .closed →
      (∃ t, exec (.slcOpen a i) s = .next t ∧ t.rd Reg.SLC_CMDRES_RES = 0 ∧ t.rd Reg.SLC_CMDRES_SLICE = i.toNat ∧ (t.slice i.toNat).st = .open_ ∧
        (t.slice i.toNat).prod = 0 ∧ (t.slice i.toNat).cons = 0 ∧ (t.slice i.toNat).q = [] ∧ (∀ j, j ≠ i.toNat → t.slice j = s.slice j) ∧
        Keeps [.out, .regs, .bar, .gate] s t) ∧
      (∃ t, exec (.slcDestroy a i) s = .next t ∧ t.rd Reg.SLC_CMDRES_RES = 0 ∧ t.rd Reg.SLC_CMDRES_SLICE = i.toNat ∧ (t.slice i.toNat).st = .free ∧
        (t.slice i.toNat).size = 0 ∧ (t.slice i.toNat).vecs = 0 ∧ (∀ j, j ≠ i.toNat → t.slice j = s.slice j) ∧ Keeps [.out, .regs, .bar, .gate] s t)) ∧
    ((s.slice i.toNat).st = .fault → ∃ t, exec (.slcOpen a i) s = .next t ∧ t.rd Reg.SLC_CMDRES_RES = 0 ∧ (t.slice i.toNat).st = .open_ ∧
      (s.slice i.toNat).q <+: (t.slice i.toNat).q ∧ ((s.slice i.toNat).kept = [] → (t.slice i.toNat).q = (s.slice i.toNat).q) ∧
      (∀ j, j ≠ i.toNat → t.slice j = s.slice j) ∧ Keeps [.out, .regs, .bar, .gate] s t) ∧
    ((s.slice i.toNat).st = .fault → ∃ t, exec (.slcReset a i) s = .next t ∧ t.rd Reg.SLC_CMDRES_RES = 0 ∧ t.rd Reg.SLC_CMDRES_SLICE = i.toNat ∧
      (t.slice i.toNat).st = .stopping ∧ (t.slice i.toNat).fromFault = true ∧ (t.slice i.toNat).q = [] ∧ (t.slice i.toNat).kept = [] ∧
      (∀ r ∈ (s.slice i.toNat).q, r.tag ∈ t.gate.discTags) ∧ (s.gate.bar.st ≠ .up → t.gate.restop = true) ∧
      Keeps [.out, .regs, .bar, .gate] s t) ∧
    ((s.slice i.toNat).st = .open_ → ∃ t, exec (.slcReset a i) s = .next t ∧ t.rd Reg.SLC_CMDRES_RES = 0 ∧ t.rd Reg.SLC_CMDRES_SLICE = i.toNat ∧
      (t.slice i.toNat).st = .stopping ∧ (t.slice i.toNat).stopAt = s.gate.clk ∧ (t.slice i.toNat).q = (s.slice i.toNat).q ∧
      (t.slice i.toNat).kept = (s.slice i.toNat).kept ∧ (s.gate.bar.st ≠ .up → t.gate.restop = true) ∧
      (∀ j, j ≠ i.toNat → t.slice j = s.slice j) ∧ Keeps [.out, .regs, .bar, .gate] s t) ∧
    ((s.slice i.toNat).st ≠ .closed → (s.slice i.toNat).st ≠ .fault →
      ∃ t, exec (.slcOpen a i) s = .next t ∧ t.rd Reg.SLC_CMDRES_RES = 1 ∧ t.gate = s.gate ∧ Keeps [.out, .regs] s t) ∧
    ((s.slice i.toNat).st ≠ .open_ → (s.slice i.toNat).st ≠ .fault →
      ∃ t, exec (.slcReset a i) s = .next t ∧ t.rd Reg.SLC_CMDRES_RES = 1 ∧ t.gate = s.gate ∧ Keeps [.out, .regs] s t) ∧
    ((s.slice i.toNat).st ≠ .closed →
      ∃ t, exec (.slcDestroy a i) s = .next t ∧ t.rd Reg.SLC_CMDRES_RES = 1 ∧ t.gate = s.gate ∧ Keeps [.out, .regs] s t))

/-- R381, R397, R407, R409: what a tenant writes in its page. PG_CONS frees ring slots up to what is occupied, PG_ARM arms the notification or sends
it at once, PG_VW takes a free slot for a vector in range; its VWRITE is sent again until VRESULT frees the slot, and a VRESULT that answers none in
flight has no effect. Complete, each with the effects stated: vresult, vwriteRepeat, pgConsWrite, pgArmWrite, pgVwWrite. -/
def Obligations.TenantWrites : Prop :=
  (∀ (a : Access) (i : BitVec 8) (w : Word) (s : State), a.via = .bar2 →
    (lands s a (0x1000 * i.toNat + 4) →
      ((s.slice i.toNat).st = .open_ → ((s.slice i.toNat).prod - w).toNat ≤ (s.slice i.toNat).occ → (s.slice i.toNat).kept = [] →
        ∃ t, exec (.pgConsWrite a i w) s = .next t ∧ (t.slice i.toNat).cons = w ∧ (t.slice i.toNat).prod = (s.slice i.toNat).prod ∧
          (t.slice i.toNat).q = (s.slice i.toNat).q ∧ (∀ j, j ≠ i.toNat → t.slice j = s.slice j) ∧ Keeps [.out, .regs, .bar, .gate] s t) ∧
      ((s.slice i.toNat).st = .open_ ∨ (s.slice i.toNat).st = .stopping → (s.slice i.toNat).occ < ((s.slice i.toNat).prod - w).toNat →
        ∃ t, exec (.pgConsWrite a i w) s = .next t ∧ t.rd (Reg.PG_STAT_CERR i.toNat) = 1 ∧ t.gate = s.gate ∧ Keeps [.out, .regs] s t) ∧
      ((s.slice i.toNat).st ≠ .open_ → (s.slice i.toNat).st ≠ .stopping →
        ∃ t, exec (.pgConsWrite a i w) s = .next t ∧ t.gate = s.gate ∧ Keeps [.out, .regs] s t)) ∧
    (lands s a (0x1000 * i.toNat + 8) →
      (bit w.toNat 0 = false → ∃ t, exec (.pgArmWrite a i w) s = .next t ∧ t.gate = s.gate ∧ Keeps [.out, .regs] s t) ∧
      (bit w.toNat 0 = true → (s.slice i.toNat).occ = 0 ∨ s.rd (Reg.SLC_VEC_NVEC i.toNat) = 0 →
        ∃ t, exec (.pgArmWrite a i w) s = .next t ∧ t.slice i.toNat = { s.slice i.toNat with arm := true } ∧
          (∀ j, j ≠ i.toNat → t.slice j = s.slice j) ∧ t.gate.msix = s.gate.msix ∧ Keeps [.out, .regs, .gate] s t) ∧
      (bit w.toNat 0 = true → 0 < (s.slice i.toNat).occ → s.rd (Reg.SLC_VEC_NVEC i.toNat) ≠ 0 →
        ∃ t, exec (.pgArmWrite a i w) s = .next t ∧ t.slice i.toNat = { s.slice i.toNat with arm := false } ∧
          t.gate.msix = s.gate.msix ++ [(s.rd (Reg.SLC_KEY_WRITER i.toNat), s.rd (Reg.SLC_VEC_VBASE i.toNat))] ∧ Keeps [.out, .regs, .gate] s t)) ∧
    (lands s a (0x1000 * i.toNat + 0x10) →
      (bits w.toNat 0 12 < s.rd (Reg.SLC_VWR_VWBASE i.toNat) ∨
          s.rd (Reg.SLC_VWR_VWBASE i.toNat) + s.rd (Reg.SLC_VWR_VWCOUNT i.toNat) ≤ bits w.toNat 0 12 →
        ∃ t, exec (.pgVwWrite a i w) s = .next t ∧ t.rd (Reg.PG_VWRES_DENIED i.toNat) = 1 ∧ t.gate = s.gate ∧ Keeps [.out, .regs] s t) ∧
      (s.rd (Reg.SLC_VWR_VWBASE i.toNat) ≤ bits w.toNat 0 12 →
        bits w.toNat 0 12 < s.rd (Reg.SLC_VWR_VWBASE i.toNat) + s.rd (Reg.SLC_VWR_VWCOUNT i.toNat) →
        ((s.slice i.toNat).st ≠ .open_ ∨ (s.slice i.toNat).vwSlot ≠ none ∨ (∀ k < 32, (tget {} s.gate.vw k).busy ≠ none) →
          ∃ t, exec (.pgVwWrite a i w) s = .next t ∧ t.rd (Reg.PG_STAT_VWBUSY i.toNat) = 1 ∧ t.gate = s.gate ∧ Keeps [.out, .regs] s t) ∧
        (∀ k, (s.slice i.toNat).st = .open_ → (s.slice i.toNat).vwSlot = none → k < 32 → (tget {} s.gate.vw k).busy = none →
          (∀ j < k, (tget {} s.gate.vw j).busy ≠ none) →
          ∃ t, exec (.pgVwWrite a i w) s = .next t ∧ t.slice i.toNat = { s.slice i.toNat with vwSlot := some k } ∧
            (tget {} t.gate.vw k).busy = some i ∧ (tget {} t.gate.vw k).gen = !(tget {} s.gate.vw k).gen ∧
            t.rd (Reg.PG_VWRES_DONE i.toNat) = 0 ∧ Keeps [.out, .regs, .bar, .gate] s t)))) ∧
  (∀ (p : BitVec 128) (s : State), barReady .host s →
    (∀ i, (tget {} s.gate.vw (pf p 0 5)).busy = some i → (tget {} s.gate.vw (pf p 0 5)).gen = p.getLsbD 5 →
      (s.slice i.toNat).vwSlot = some (pf p 0 5) → ∃ t, exec (.vresult p) s = .next t ∧ (tget {} t.gate.vw (pf p 0 5)).busy = none ∧
        (t.slice i.toNat).vwSlot = none ∧ t.rd (Reg.PG_VWRES_DONE i.toNat) = 1 ∧ Keeps [.out, .regs, .gate] s t) ∧
    (((tget {} s.gate.vw (pf p 0 5)).busy = none ∨ (tget {} s.gate.vw (pf p 0 5)).gen ≠ p.getLsbD 5) →
      exec (.vresult p) s = .next { s with out := [], gate := { s.gate with bar := barTook .host 0x09 s } })) ∧
  (∀ (k : Nat) (v : VwSlot) (s : State), s.gate.bar.st = .up → v.busy.isSome = true →
    s.gate.vw.find? (fun e => e.2.busy.isSome && decide (e.2.sentAt.toNat + rtmo s ≤ s.gate.clk.toNat)) = some (k, v) →
    ∃ t, exec .vwriteRepeat s = .next t ∧ t.gate.bar = barWith 0x08 v.payload s.gate.bar ∧ tget {} t.gate.vw k = { v with sentAt := s.gate.clk } ∧
      (∀ j, j ≠ k → tget {} t.gate.vw j = tget {} s.gate.vw j) ∧ Keeps [.out, .gate] s t)

/-- R199, R207, R375, R383, R414, R475: the writes that command the barrier and the host gate as a whole. BAR_CTRL.EN at 1 takes a side whose lanes
are locked to HELLO, at 0 it ends in DOWN. A soft reset of the host gate frees every slice and takes the next generation. BAR_THAW commits the staged
words of the host gate. Complete, each with the effects stated: barEnable, barDisable, barThaw, hostGateSoftReset. -/
def Obligations.BarrierWrites : Prop :=
  (∀ (a : Access) (s : State), a.atPort = true → lands s a 0xF600 →
    (∃ t, exec (.barEnable a) s = .next t ∧ t.out = [.reg a.via 0 none] ∧ t.rd Reg.BAR_CTRL_EN = 1 ∧ Keeps [.out, .regs, .bar] s t ∧
      (s.bar.st = .down → s.bar.locked = 0xF → t.bar = { s.bar with st := .hello, lastHello := 0 }) ∧
      (s.bar.st ≠ .down ∨ s.bar.locked ≠ 0xF → t.bar = s.bar)) ∧
    (∃ t, exec (.barDisable a) s = .next t ∧ t.out = [.reg a.via 0 none] ∧ t.rd Reg.BAR_CTRL_EN = 0 ∧ t.bar.st = .down ∧ t.bar.stuck = false ∧
      t.bar.urgent = [] ∧ t.bar.ctl = [] ∧ (s.bar.st ≠ .up → Keeps [.out, .regs, .bar, .gate] s t) ∧
      (s.isDie0 = true → t.gate = { s.gate with bar := { s.gate.bar with stuck := false } }) ∧
      (s.bar.st = .up → (s.time.sleep = .awake → (t.latchOf 5147).isSome = true) ∧ t.rd Reg.BAR_STAT_CAUSE = 0))) ∧
  (∀ (a : Access) (s : State), a.via = .bar0 → lands s a 0xF590 →
    ∃ t, exec (.hostGateSoftReset a) s = .next t ∧ t.rd Reg.GATE_CTRL_RUN = 0 ∧ (∀ i, (t.slice i).st = .free ∧ (t.slice i).q = []) ∧
      t.gate.tags = [] ∧ t.gate.held = [] ∧ t.gate.gen = nextGen s.gate.gen ∧ t.gate.bar.st ≠ .up ∧ t.gate.bar.stuck = false ∧
      Keeps [.out, .regs, .arb, .bar, .gate] s t) ∧
  (∀ (p : BitVec 128) (s : State), barReady .host s →
    ∃ t, exec (.barThaw p) s = .next t ∧ Keeps [.out, .regs, .staged, .img, .rime, .bar, .gate] s t ∧
      (s.img.hload.st ≠ .ready → busySlices s = [] → t.gate = { s.gate with bar := barTook .host 0x0D s } ∧ t.img = s.img ∧
        ∀ (off : Nat) (q : RegRow × Nat × Nat) (f : FldSpec) (v : Nat), 0x100000 ≤ off → holds .host s 0 ((off - 0x100000) / 4) = false →
          findReg off = some q → f ∈ q.1.flds → f.acc = .ws → tget none s.staged (f.at off).key = some v → v < 2 ^ f.w →
          t.rd (f.at off) = v ∧ tget none t.staged (f.at off).key = none))

/-- R250 to R253, R262, R510: the lines of a link. Lane l carries frame bits 40 l + 39 to 40 l as 20 symbols of two bits each, the higher first, by
the Gray code, and no two frames give the same levels. Scrambling is undone by itself, so that a port of the same seeds hears the frame that was sent.
The seeds are 0x5A5A_5A5A xor l, and the key obeys x^31 + x^28 + 1 (which bit is added is the model's choice, log entry 56). A slot that nothing
claims carries IDENT in the clear in IDENT, and an ACK, scrambled, in UP; a port under test sends the next 40 bits of its pattern on each lane.
Complete, each with the effects stated: arbiterDecide. -/
def Obligations.LineCoding : Prop :=
  (∀ (f : LinkFrame) (l : Fin 4) (m : Fin 20), ((slotLevels f).getD l []).getD m 0 =
    match f.getLsbD (40 * l.val + 39 - 2 * m.val), f.getLsbD (40 * l.val + 38 - 2 * m.val) with
    | false, false => -3
    | false, true => -1
    | true, true => 1
    | true, false => 3) ∧
  (∀ f g : LinkFrame, slotLevels f = slotLevels g → f = g) ∧
  (∀ (seeds : List (BitVec 31)) (f : LinkFrame), scramble seeds (scramble seeds f) = f) ∧
  (∀ (p : Nat) (f : LinkFrame) (s : State), p < 2 → heard s p (scramble (s.port p).scrRx f) = f) ∧
  (∀ l : Fin 4, scrSeeds[l.val]? = some (BitVec.ofNat 31 (0x5A5A5A5A ^^^ l.val))) ∧
  (∀ (x : BitVec 31) (n : Nat), n < 9 →
    (scrKey x).getLsbD (8 - n) = ((scrKey x).getLsbD (39 - n) != (scrKey x).getLsbD (36 - n))) ∧
  (∀ (p : Fin 4) (a : Fin 23) (s : State), clocked s = true → a.val = 16 + p.val → arbReqs a s = [] → (s.arbOf a).holder = none →
    ((s.port p).st = .down ∨ ((s.port p).st = .off ∧ testing s p = false) → exec (.arbiterDecide a) s = .next { s with out := [] }) ∧
    ((s.port p).st = .off → testing s p = true → s.rd Reg.TEST_LSEL_PAT ≠ 3 → s.rd Reg.TEST_LSEL_LOOP ≠ 3 →
      ∃ t f, exec (.arbiterDecide a) s = .next t ∧ t.out = [.slot p (slotLevels f)] ∧
        (∀ (l : Fin 4) (x : BitVec 31), s.tst.gen[l.val]? = some x →
          f.extractLsb' (40 * l.val) 40 = (lineBits (prbsStep (s.rd Reg.TEST_LSEL_PAT)) x).1) ∧
        t.tst = { s.tst with gen := s.tst.gen.map fun x => (lineBits (prbsStep (s.rd Reg.TEST_LSEL_PAT)) x).2 } ∧ Keeps [.out, .tst] s t) ∧
    ((s.port p).st = .ident → exec (.arbiterDecide a) s =
      .next { s with out := [.slot p (slotLevels (sealFrame (mkFrame 6 0 (identOf s p)) 0 0))] }) ∧
    ((s.port p).st = .up → p.val < 2 → (s.port p).owe = [] → ∃ t, exec (.arbiterDecide a) s = .next t ∧
      t.out = [.slot p (slotLevels (scramble (s.port p).scrTx (sealFrame (ackFrame (s.port p)) 0 0)))] ∧
      t.port p = { s.port p with sinceAck := 0, scrTx := scrSlot (s.port p).scrTx } ∧ (∀ q, q ≠ p.val → t.port q = s.port q) ∧
      Keeps [.out, .lnk] s t))
end

