-- ==== Sys2Proof/Laws/Keeps.lean ====
section
/-! SUPPORT. Rules for showing what an operation leaves alone. -/

namespace Sys2Proof.Machine

theorem Keeps.refl {w : List Part} {s : State} : Keeps w s s := ⟨fun p _ => by cases p <;> rfl⟩

theorem Keeps.trans {w : List Part} {s t u : State} (h : Keeps w s t) (h' : Keeps w t u) : Keeps w s u := by
  constructor
  intro p hp
  have a := h.same p hp
  have b := h'.same p hp
  cases p <;> exact b.trans a

theorem Keeps.mono {w w' : List Part} {s t : State} (h : Keeps w s t) (hw : w ⊆ w') : Keeps w' s t :=
  ⟨fun p hp => h.same p fun h' => hp (hw h')⟩

/-- An operation that keeps all but w1, after one that keeps all but w. -/
theorem Keeps.step {w w1 : List Part} {s t u : State} (h : Keeps w1 t u) (hw : w1 ⊆ w) (h' : Keeps w s t) : Keeps w s u :=
  h'.trans (h.mono hw)

theorem Keeps.ite {w : List Part} {s t u : State} {c : Prop} [Decidable c] (ht : Keeps w s t) (hu : Keeps w s u) :
    Keeps w s (if c then t else u) := by
  split
  · exact ht
  · exact hu

/-- The state that an operation answers, if it answers one, keeps all but w. -/
structure KeepsO (w : List Part) (s : State) (o : Option State) : Prop where
  some : ∀ t, o = some t → Keeps w s t

theorem KeepsO.mk' {w : List Part} {s t : State} (h : Keeps w s t) : KeepsO w s (.some t) :=
  ⟨fun _ ht => by cases ht; exact h⟩

theorem KeepsO.none {w : List Part} {s : State} : KeepsO w s .none := ⟨fun _ ht => by cases ht⟩

theorem KeepsO.ite {w : List Part} {s : State} {a b : Option State} {c : Prop} [Decidable c] (ha : KeepsO w s a)
    (hb : KeepsO w s b) : KeepsO w s (if c then a else b) := by
  split
  · exact ha
  · exact hb

theorem KeepsO.step {w w1 : List Part} {s t : State} {o : Option State} (h : KeepsO w1 t o) (hw : w1 ⊆ w) (h' : Keeps w s t) :
    KeepsO w s o := ⟨fun u hu => Keeps.step (h.some u hu) hw h'⟩

theorem KeepsO.map {w : List Part} {s : State} {o : Option State} {f : State → State} (h : KeepsO w s o)
    (hf : ∀ t, Keeps w s t → Keeps w s (f t)) : KeepsO w s (o.map f) := by
  cases o with
  | none => exact KeepsO.none
  | some t => exact KeepsO.mk' (hf t (h.some t rfl))

theorem KeepsO.bind {w : List Part} {s : State} {o : Option State} {f : State → Option State} (h : KeepsO w s o)
    (hf : ∀ t, Keeps w s t → KeepsO w s (f t)) : KeepsO w s (o.bind f) := by
  cases o with
  | none => exact KeepsO.none
  | some t => exact hf t (h.some t rfl)

theorem Keeps.foldl {w : List Part} {s0 : State} {α : Type} {f : State → α → State} (hf : ∀ a s, Keeps w s (f s a)) (l : List α)
    {s : State} (h : Keeps w s0 s) : Keeps w s0 (l.foldl f s) := by
  induction l generalizing s with
  | nil => exact h
  | cons a l ih => exact ih (h.trans (hf a s))

theorem Keeps.each {w : List Part} {s0 : State} {α : Type} {f : α → State → State} {l : List α} (hf : ∀ a s, Keeps w s (f a s))
    {s : State} (h : Keeps w s0 s) : Keeps w s0 (s.each l f) := Keeps.foldl (fun a s => hf a s) l h

theorem Keeps.foldlPair {w : List Part} {s0 : State} {α β : Type} {f : β × State → α → β × State}
    (hf : ∀ a q, Keeps w q.2 (f q a).2) (l : List α) {q : β × State} (h : Keeps w s0 q.2) : Keeps w s0 (l.foldl f q).2 := by
  induction l generalizing q with
  | nil => exact h
  | cons a l ih => exact ih (h.trans (hf a q))

/-- The next state, if an outcome is one, keeps all but w. -/
structure KeepsX (w : List Part) (s : State) (o : Host.Outcome State Fault Refusal) : Prop where
  next : ∀ t, o = .next t → Keeps w s t

theorem KeepsX.mono {w w' : List Part} {s : State} {o : Host.Outcome State Fault Refusal} (h : KeepsX w s o) (hw : w ⊆ w') :
    KeepsX w' s o := ⟨fun t ht => (h.next t ht).mono hw⟩

theorem Keeps.mem {l w : List Part} {p : Part} (h : l ⊆ w) (hp : p ∈ l) : p ∈ w := h hp

theorem Keeps.iteSnd {w : List Part} {s : State} {β : Type} {t u : β × State} {c : Prop} [Decidable c] (ht : Keeps w s t.2)
    (hu : Keeps w s u.2) : Keeps w s (if c then t else u).2 := by
  split
  · exact ht
  · exact hu

theorem Keeps.iteFst {w : List Part} {s : State} {β : Type} {t u : State × β} {c : Prop} [Decidable c] (ht : Keeps w s t.1)
    (hu : Keeps w s u.1) : Keeps w s (if c then t else u).1 := by
  split
  · exact ht
  · exact hu

theorem Keeps.snd {w w1 : List Part} {s0 s t : State} {β : Type} {q : β × State} {a : β} (h : Keeps w1 s q.2) (hq : q = (a, t))
    (hw : w1 ⊆ w) (h0 : Keeps w s0 s) : Keeps w s0 t := by
  subst hq
  exact Keeps.step h hw h0

theorem Keeps.fst {w w1 : List Part} {s0 s t : State} {β : Type} {q : State × β} {a : β} (h : Keeps w1 s q.1) (hq : q = (t, a))
    (hw : w1 ⊆ w) (h0 : Keeps w s0 s) : Keeps w s0 t := by
  subst hq
  exact Keeps.step h hw h0

theorem Keeps.opt {w w1 : List Part} {s0 s t : State} {o : Option State} (h : KeepsO w1 s o) (ho : o = some t)
    (hw : w1 ⊆ w) (h0 : Keeps w s0 s) : Keeps w s0 t := Keeps.step (h.some t ho) hw h0

theorem Keeps.getD {w : List Part} {s0 s : State} {o : Option State} (h : Keeps w s0 s) (ho : KeepsO w s0 o) :
    Keeps w s0 (o.getD s) := by
  cases o with
  | none => exact h
  | some t => exact ho.some t rfl

theorem Keeps.pending {w : List Part} {s t : State} {v} (hw : Part.pending ∈ w) (h : Keeps w s t) :
    Keeps w s { t with pending := v } := ⟨fun p hp => by cases p <;> first | exact h.same _ hp | exact absurd hw hp⟩

theorem Keeps.out {w : List Part} {s t : State} {v} (hw : Part.out ∈ w) (h : Keeps w s t) :
    Keeps w s { t with out := v } := ⟨fun p hp => by cases p <;> first | exact h.same _ hp | exact absurd hw hp⟩

theorem Keeps.fresh {w : List Part} {s t : State} {v} (hw : Part.fresh ∈ w) (h : Keeps w s t) :
    Keeps w s { t with fresh := v } := ⟨fun p hp => by cases p <;> first | exact h.same _ hp | exact absurd hw hp⟩

theorem Keeps.shape {w : List Part} {s t : State} {v} (hw : Part.shape ∈ w) (h : Keeps w s t) :
    Keeps w s { t with shape := v } := ⟨fun p hp => by cases p <;> first | exact h.same _ hp | exact absurd hw hp⟩

theorem Keeps.pins {w : List Part} {s t : State} {v} (hw : Part.pins ∈ w) (h : Keeps w s t) :
    Keeps w s { t with pins := v } := ⟨fun p hp => by cases p <;> first | exact h.same _ hp | exact absurd hw hp⟩

theorem Keeps.regs {w : List Part} {s t : State} {v} (hw : Part.regs ∈ w) (h : Keeps w s t) :
    Keeps w s { t with regs := v } := ⟨fun p hp => by cases p <;> first | exact h.same _ hp | exact absurd hw hp⟩

theorem Keeps.staged {w : List Part} {s t : State} {v} (hw : Part.staged ∈ w) (h : Keeps w s t) :
    Keeps w s { t with staged := v } := ⟨fun p hp => by cases p <;> first | exact h.same _ hp | exact absurd hw hp⟩

theorem Keeps.once {w : List Part} {s t : State} {v} (hw : Part.once ∈ w) (h : Keeps w s t) :
    Keeps w s { t with once := v } := ⟨fun p hp => by cases p <;> first | exact h.same _ hp | exact absurd hw hp⟩

theorem Keeps.time {w : List Part} {s t : State} {v} (hw : Part.time ∈ w) (h : Keeps w s t) :
    Keeps w s { t with time := v } := ⟨fun p hp => by cases p <;> first | exact h.same _ hp | exact absurd hw hp⟩

theorem Keeps.epoch {w : List Part} {s t : State} {v} (hw : Part.epoch ∈ w) (h : Keeps w s t) :
    Keeps w s { t with epoch := v } := ⟨fun p hp => by cases p <;> first | exact h.same _ hp | exact absurd hw hp⟩

theorem Keeps.src {w : List Part} {s t : State} {v} (hw : Part.src ∈ w) (h : Keeps w s t) :
    Keeps w s { t with src := v } := ⟨fun p hp => by cases p <;> first | exact h.same _ hp | exact absurd hw hp⟩

theorem Keeps.yar {w : List Part} {s t : State} {v} (hw : Part.yar ∈ w) (h : Keeps w s t) :
    Keeps w s { t with yar := v } := ⟨fun p hp => by cases p <;> first | exact h.same _ hp | exact absurd hw hp⟩

theorem Keeps.acc {w : List Part} {s t : State} {v} (hw : Part.acc ∈ w) (h : Keeps w s t) :
    Keeps w s { t with acc := v } := ⟨fun p hp => by cases p <;> first | exact h.same _ hp | exact absurd hw hp⟩

theorem Keeps.firn {w : List Part} {s t : State} {v} (hw : Part.firn ∈ w) (h : Keeps w s t) :
    Keeps w s { t with firn := v } := ⟨fun p hp => by cases p <;> first | exact h.same _ hp | exact absurd hw hp⟩

theorem Keeps.xb {w : List Part} {s t : State} {v} (hw : Part.xb ∈ w) (h : Keeps w s t) :
    Keeps w s { t with xb := v } := ⟨fun p hp => by cases p <;> first | exact h.same _ hp | exact absurd hw hp⟩

theorem Keeps.rq {w : List Part} {s t : State} {v} (hw : Part.rq ∈ w) (h : Keeps w s t) :
    Keeps w s { t with rq := v } := ⟨fun p hp => by cases p <;> first | exact h.same _ hp | exact absurd hw hp⟩

theorem Keeps.arb {w : List Part} {s t : State} {v} (hw : Part.arb ∈ w) (h : Keeps w s t) :
    Keeps w s { t with arb := v } := ⟨fun p hp => by cases p <;> first | exact h.same _ hp | exact absurd hw hp⟩

theorem Keeps.core {w : List Part} {s t : State} {v} (hw : Part.core ∈ w) (h : Keeps w s t) :
    Keeps w s { t with core := v } := ⟨fun p hp => by cases p <;> first | exact h.same _ hp | exact absurd hw hp⟩

theorem Keeps.pred {w : List Part} {s t : State} {v} (hw : Part.pred ∈ w) (h : Keeps w s t) :
    Keeps w s { t with pred := v } := ⟨fun p hp => by cases p <;> first | exact h.same _ hp | exact absurd hw hp⟩

theorem Keeps.clus {w : List Part} {s t : State} {v} (hw : Part.clus ∈ w) (h : Keeps w s t) :
    Keeps w s { t with clus := v } := ⟨fun p hp => by cases p <;> first | exact h.same _ hp | exact absurd hw hp⟩

theorem Keeps.camp {w : List Part} {s t : State} {v} (hw : Part.camp ∈ w) (h : Keeps w s t) :
    Keeps w s { t with camp := v } := ⟨fun p hp => by cases p <;> first | exact h.same _ hp | exact absurd hw hp⟩

theorem Keeps.seg {w : List Part} {s t : State} {v} (hw : Part.seg ∈ w) (h : Keeps w s t) :
    Keeps w s { t with seg := v } := ⟨fun p hp => by cases p <;> first | exact h.same _ hp | exact absurd hw hp⟩

theorem Keeps.lnk {w : List Part} {s t : State} {v} (hw : Part.lnk ∈ w) (h : Keeps w s t) :
    Keeps w s { t with lnk := v } := ⟨fun p hp => by cases p <;> first | exact h.same _ hp | exact absurd hw hp⟩

theorem Keeps.audit {w : List Part} {s t : State} {v} (hw : Part.audit ∈ w) (h : Keeps w s t) :
    Keeps w s { t with audit := v } := ⟨fun p hp => by cases p <;> first | exact h.same _ hp | exact absurd hw hp⟩

theorem Keeps.rec_ {w : List Part} {s t : State} {v} (hw : Part.rec_ ∈ w) (h : Keeps w s t) :
    Keeps w s { t with rec_ := v } := ⟨fun p hp => by cases p <;> first | exact h.same _ hp | exact absurd hw hp⟩

theorem Keeps.lock {w : List Part} {s t : State} {v} (hw : Part.lock ∈ w) (h : Keeps w s t) :
    Keeps w s { t with lock := v } := ⟨fun p hp => by cases p <;> first | exact h.same _ hp | exact absurd hw hp⟩

theorem Keeps.img {w : List Part} {s t : State} {v} (hw : Part.img ∈ w) (h : Keeps w s t) :
    Keeps w s { t with img := v } := ⟨fun p hp => by cases p <;> first | exact h.same _ hp | exact absurd hw hp⟩

theorem Keeps.rime {w : List Part} {s t : State} {v} (hw : Part.rime ∈ w) (h : Keeps w s t) :
    Keeps w s { t with rime := v } := ⟨fun p hp => by cases p <;> first | exact h.same _ hp | exact absurd hw hp⟩

theorem Keeps.pwr {w : List Part} {s t : State} {v} (hw : Part.pwr ∈ w) (h : Keeps w s t) :
    Keeps w s { t with pwr := v } := ⟨fun p hp => by cases p <;> first | exact h.same _ hp | exact absurd hw hp⟩

theorem Keeps.su {w : List Part} {s t : State} {v} (hw : Part.su ∈ w) (h : Keeps w s t) :
    Keeps w s { t with su := v } := ⟨fun p hp => by cases p <;> first | exact h.same _ hp | exact absurd hw hp⟩

theorem Keeps.bar {w : List Part} {s t : State} {v} (hw : Part.bar ∈ w) (h : Keeps w s t) :
    Keeps w s { t with bar := v } := ⟨fun p hp => by cases p <;> first | exact h.same _ hp | exact absurd hw hp⟩

theorem Keeps.hostq {w : List Part} {s t : State} {v} (hw : Part.hostq ∈ w) (h : Keeps w s t) :
    Keeps w s { t with hostq := v } := ⟨fun p hp => by cases p <;> first | exact h.same _ hp | exact absurd hw hp⟩

theorem Keeps.gate {w : List Part} {s t : State} {v} (hw : Part.gate ∈ w) (h : Keeps w s t) :
    Keeps w s { t with gate := v } := ⟨fun p hp => by cases p <;> first | exact h.same _ hp | exact absurd hw hp⟩

theorem Keeps.edw {w : List Part} {s t : State} {v} (hw : Part.edw ∈ w) (h : Keeps w s t) :
    Keeps w s { t with edw := v } := ⟨fun p hp => by cases p <;> first | exact h.same _ hp | exact absurd hw hp⟩

theorem Keeps.trc {w : List Part} {s t : State} {v} (hw : Part.trc ∈ w) (h : Keeps w s t) :
    Keeps w s { t with trc := v } := ⟨fun p hp => by cases p <;> first | exact h.same _ hp | exact absurd hw hp⟩

theorem Keeps.tst {w : List Part} {s t : State} {v} (hw : Part.tst ∈ w) (h : Keeps w s t) :
    Keeps w s { t with tst := v } := ⟨fun p hp => by cases p <;> first | exact h.same _ hp | exact absurd hw hp⟩

theorem Keeps.parts32 {w : List Part} {s t : State} {v0} {v1} {v2} {v3} {v4} {v5} {v6} {v7} {v8} {v9} {v10} {v11} {v12} {v13} {v14} {v15} {v16} {v17} {v18} {v19} {v20} {v21} {v22} {v23} {v24} {v25} {v26} {v27} {v28} {v29} {v30} {v31} (h0 : Part.pending ∈ w) (h1 : Part.regs ∈ w) (h2 : Part.staged ∈ w) (h3 : Part.once ∈ w) (h4 : Part.time ∈ w) (h5 : Part.epoch ∈ w) (h6 : Part.src ∈ w) (h7 : Part.yar ∈ w) (h8 : Part.acc ∈ w) (h9 : Part.firn ∈ w) (h10 : Part.xb ∈ w) (h11 : Part.rq ∈ w) (h12 : Part.arb ∈ w) (h13 : Part.core ∈ w) (h14 : Part.pred ∈ w) (h15 : Part.clus ∈ w) (h16 : Part.camp ∈ w) (h17 : Part.seg ∈ w) (h18 : Part.lnk ∈ w) (h19 : Part.audit ∈ w) (h20 : Part.rec_ ∈ w) (h21 : Part.lock ∈ w) (h22 : Part.img ∈ w) (h23 : Part.rime ∈ w) (h24 : Part.pwr ∈ w) (h25 : Part.su ∈ w) (h26 : Part.bar ∈ w) (h27 : Part.hostq ∈ w) (h28 : Part.gate ∈ w) (h29 : Part.edw ∈ w) (h30 : Part.trc ∈ w) (h31 : Part.tst ∈ w)
    (h : Keeps w s t) : Keeps w s { t with pending := v0, regs := v1, staged := v2, once := v3, time := v4, epoch := v5, src := v6, yar := v7, acc := v8, firn := v9, xb := v10, rq := v11, arb := v12, core := v13, pred := v14, clus := v15, camp := v16, seg := v17, lnk := v18, audit := v19, rec_ := v20, lock := v21, img := v22, rime := v23, pwr := v24, su := v25, bar := v26, hostq := v27, gate := v28, edw := v29, trc := v30, tst := v31 } :=
  ⟨fun p hp => by cases p <;> first | exact h.same _ hp | exact absurd h0 hp | exact absurd h1 hp | exact absurd h2 hp | exact absurd h3 hp | exact absurd h4 hp | exact absurd h5 hp | exact absurd h6 hp | exact absurd h7 hp | exact absurd h8 hp | exact absurd h9 hp | exact absurd h10 hp | exact absurd h11 hp | exact absurd h12 hp | exact absurd h13 hp | exact absurd h14 hp | exact absurd h15 hp | exact absurd h16 hp | exact absurd h17 hp | exact absurd h18 hp | exact absurd h19 hp | exact absurd h20 hp | exact absurd h21 hp | exact absurd h22 hp | exact absurd h23 hp | exact absurd h24 hp | exact absurd h25 hp | exact absurd h26 hp | exact absurd h27 hp | exact absurd h28 hp | exact absurd h29 hp | exact absurd h30 hp | exact absurd h31 hp⟩

theorem Keeps.parts20 {w : List Part} {s t : State} {v0} {v1} {v2} {v3} {v4} {v5} {v6} {v7} {v8} {v9} {v10} {v11} {v12} {v13} {v14} {v15} {v16} {v17} {v18} {v19} (h0 : Part.staged ∈ w) (h1 : Part.time ∈ w) (h2 : Part.src ∈ w) (h3 : Part.yar ∈ w) (h4 : Part.firn ∈ w) (h5 : Part.xb ∈ w) (h6 : Part.rq ∈ w) (h7 : Part.arb ∈ w) (h8 : Part.core ∈ w) (h9 : Part.pred ∈ w) (h10 : Part.clus ∈ w) (h11 : Part.camp ∈ w) (h12 : Part.seg ∈ w) (h13 : Part.audit ∈ w) (h14 : Part.rec_ ∈ w) (h15 : Part.img ∈ w) (h16 : Part.rime ∈ w) (h17 : Part.bar ∈ w) (h18 : Part.trc ∈ w) (h19 : Part.tst ∈ w)
    (h : Keeps w s t) : Keeps w s { t with staged := v0, time := v1, src := v2, yar := v3, firn := v4, xb := v5, rq := v6, arb := v7, core := v8, pred := v9, clus := v10, camp := v11, seg := v12, audit := v13, rec_ := v14, img := v15, rime := v16, bar := v17, trc := v18, tst := v19 } :=
  ⟨fun p hp => by cases p <;> first | exact h.same _ hp | exact absurd h0 hp | exact absurd h1 hp | exact absurd h2 hp | exact absurd h3 hp | exact absurd h4 hp | exact absurd h5 hp | exact absurd h6 hp | exact absurd h7 hp | exact absurd h8 hp | exact absurd h9 hp | exact absurd h10 hp | exact absurd h11 hp | exact absurd h12 hp | exact absurd h13 hp | exact absurd h14 hp | exact absurd h15 hp | exact absurd h16 hp | exact absurd h17 hp | exact absurd h18 hp | exact absurd h19 hp⟩

theorem Keeps.time_acc_bar_hostq {w : List Part} {s t : State} {v0} {v1} {v2} {v3} (h0 : Part.time ∈ w) (h1 : Part.acc ∈ w) (h2 : Part.bar ∈ w) (h3 : Part.hostq ∈ w)
    (h : Keeps w s t) : Keeps w s { t with time := v0, acc := v1, bar := v2, hostq := v3 } :=
  ⟨fun p hp => by cases p <;> first | exact h.same _ hp | exact absurd h0 hp | exact absurd h1 hp | exact absurd h2 hp | exact absurd h3 hp⟩

theorem Keeps.acc_bar_hostq {w : List Part} {s t : State} {v0} {v1} {v2} (h0 : Part.acc ∈ w) (h1 : Part.bar ∈ w) (h2 : Part.hostq ∈ w)
    (h : Keeps w s t) : Keeps w s { t with acc := v0, bar := v1, hostq := v2 } :=
  ⟨fun p hp => by cases p <;> first | exact h.same _ hp | exact absurd h0 hp | exact absurd h1 hp | exact absurd h2 hp⟩

theorem Keeps.acc_firn_edw {w : List Part} {s t : State} {v0} {v1} {v2} (h0 : Part.acc ∈ w) (h1 : Part.firn ∈ w) (h2 : Part.edw ∈ w)
    (h : Keeps w s t) : Keeps w s { t with acc := v0, firn := v1, edw := v2 } :=
  ⟨fun p hp => by cases p <;> first | exact h.same _ hp | exact absurd h0 hp | exact absurd h1 hp | exact absurd h2 hp⟩

theorem Keeps.pins_img_edw {w : List Part} {s t : State} {v0} {v1} {v2} (h0 : Part.pins ∈ w) (h1 : Part.img ∈ w) (h2 : Part.edw ∈ w)
    (h : Keeps w s t) : Keeps w s { t with pins := v0, img := v1, edw := v2 } :=
  ⟨fun p hp => by cases p <;> first | exact h.same _ hp | exact absurd h0 hp | exact absurd h1 hp | exact absurd h2 hp⟩

theorem Keeps.time_acc_bar {w : List Part} {s t : State} {v0} {v1} {v2} (h0 : Part.time ∈ w) (h1 : Part.acc ∈ w) (h2 : Part.bar ∈ w)
    (h : Keeps w s t) : Keeps w s { t with time := v0, acc := v1, bar := v2 } :=
  ⟨fun p hp => by cases p <;> first | exact h.same _ hp | exact absurd h0 hp | exact absurd h1 hp | exact absurd h2 hp⟩

theorem Keeps.time_acc_hostq {w : List Part} {s t : State} {v0} {v1} {v2} (h0 : Part.time ∈ w) (h1 : Part.acc ∈ w) (h2 : Part.hostq ∈ w)
    (h : Keeps w s t) : Keeps w s { t with time := v0, acc := v1, hostq := v2 } :=
  ⟨fun p hp => by cases p <;> first | exact h.same _ hp | exact absurd h0 hp | exact absurd h1 hp | exact absurd h2 hp⟩

theorem Keeps.time_acc_xb {w : List Part} {s t : State} {v0} {v1} {v2} (h0 : Part.time ∈ w) (h1 : Part.acc ∈ w) (h2 : Part.xb ∈ w)
    (h : Keeps w s t) : Keeps w s { t with time := v0, acc := v1, xb := v2 } :=
  ⟨fun p hp => by cases p <;> first | exact h.same _ hp | exact absurd h0 hp | exact absurd h1 hp | exact absurd h2 hp⟩

theorem Keeps.time_bar_hostq {w : List Part} {s t : State} {v0} {v1} {v2} (h0 : Part.time ∈ w) (h1 : Part.bar ∈ w) (h2 : Part.hostq ∈ w)
    (h : Keeps w s t) : Keeps w s { t with time := v0, bar := v1, hostq := v2 } :=
  ⟨fun p hp => by cases p <;> first | exact h.same _ hp | exact absurd h0 hp | exact absurd h1 hp | exact absurd h2 hp⟩

theorem Keeps.acc_bar {w : List Part} {s t : State} {v0} {v1} (h0 : Part.acc ∈ w) (h1 : Part.bar ∈ w)
    (h : Keeps w s t) : Keeps w s { t with acc := v0, bar := v1 } :=
  ⟨fun p hp => by cases p <;> first | exact h.same _ hp | exact absurd h0 hp | exact absurd h1 hp⟩

theorem Keeps.acc_edw {w : List Part} {s t : State} {v0} {v1} (h0 : Part.acc ∈ w) (h1 : Part.edw ∈ w)
    (h : Keeps w s t) : Keeps w s { t with acc := v0, edw := v1 } :=
  ⟨fun p hp => by cases p <;> first | exact h.same _ hp | exact absurd h0 hp | exact absurd h1 hp⟩

theorem Keeps.acc_firn {w : List Part} {s t : State} {v0} {v1} (h0 : Part.acc ∈ w) (h1 : Part.firn ∈ w)
    (h : Keeps w s t) : Keeps w s { t with acc := v0, firn := v1 } :=
  ⟨fun p hp => by cases p <;> first | exact h.same _ hp | exact absurd h0 hp | exact absurd h1 hp⟩

theorem Keeps.acc_hostq {w : List Part} {s t : State} {v0} {v1} (h0 : Part.acc ∈ w) (h1 : Part.hostq ∈ w)
    (h : Keeps w s t) : Keeps w s { t with acc := v0, hostq := v1 } :=
  ⟨fun p hp => by cases p <;> first | exact h.same _ hp | exact absurd h0 hp | exact absurd h1 hp⟩

theorem Keeps.acc_rec_ {w : List Part} {s t : State} {v0} {v1} (h0 : Part.acc ∈ w) (h1 : Part.rec_ ∈ w)
    (h : Keeps w s t) : Keeps w s { t with acc := v0, rec_ := v1 } :=
  ⟨fun p hp => by cases p <;> first | exact h.same _ hp | exact absurd h0 hp | exact absurd h1 hp⟩

theorem Keeps.acc_xb {w : List Part} {s t : State} {v0} {v1} (h0 : Part.acc ∈ w) (h1 : Part.xb ∈ w)
    (h : Keeps w s t) : Keeps w s { t with acc := v0, xb := v1 } :=
  ⟨fun p hp => by cases p <;> first | exact h.same _ hp | exact absurd h0 hp | exact absurd h1 hp⟩

theorem Keeps.bar_gate {w : List Part} {s t : State} {v0} {v1} (h0 : Part.bar ∈ w) (h1 : Part.gate ∈ w)
    (h : Keeps w s t) : Keeps w s { t with bar := v0, gate := v1 } :=
  ⟨fun p hp => by cases p <;> first | exact h.same _ hp | exact absurd h0 hp | exact absurd h1 hp⟩

theorem Keeps.bar_hostq {w : List Part} {s t : State} {v0} {v1} (h0 : Part.bar ∈ w) (h1 : Part.hostq ∈ w)
    (h : Keeps w s t) : Keeps w s { t with bar := v0, hostq := v1 } :=
  ⟨fun p hp => by cases p <;> first | exact h.same _ hp | exact absurd h0 hp | exact absurd h1 hp⟩

theorem Keeps.firn_edw {w : List Part} {s t : State} {v0} {v1} (h0 : Part.firn ∈ w) (h1 : Part.edw ∈ w)
    (h : Keeps w s t) : Keeps w s { t with firn := v0, edw := v1 } :=
  ⟨fun p hp => by cases p <;> first | exact h.same _ hp | exact absurd h0 hp | exact absurd h1 hp⟩

theorem Keeps.firn_hostq {w : List Part} {s t : State} {v0} {v1} (h0 : Part.firn ∈ w) (h1 : Part.hostq ∈ w)
    (h : Keeps w s t) : Keeps w s { t with firn := v0, hostq := v1 } :=
  ⟨fun p hp => by cases p <;> first | exact h.same _ hp | exact absurd h0 hp | exact absurd h1 hp⟩

theorem Keeps.firn_su {w : List Part} {s t : State} {v0} {v1} (h0 : Part.firn ∈ w) (h1 : Part.su ∈ w)
    (h : Keeps w s t) : Keeps w s { t with firn := v0, su := v1 } :=
  ⟨fun p hp => by cases p <;> first | exact h.same _ hp | exact absurd h0 hp | exact absurd h1 hp⟩

theorem Keeps.fresh_edw {w : List Part} {s t : State} {v0} {v1} (h0 : Part.fresh ∈ w) (h1 : Part.edw ∈ w)
    (h : Keeps w s t) : Keeps w s { t with fresh := v0, edw := v1 } :=
  ⟨fun p hp => by cases p <;> first | exact h.same _ hp | exact absurd h0 hp | exact absurd h1 hp⟩

theorem Keeps.fresh_pins {w : List Part} {s t : State} {v0} {v1} (h0 : Part.fresh ∈ w) (h1 : Part.pins ∈ w)
    (h : Keeps w s t) : Keeps w s { t with fresh := v0, pins := v1 } :=
  ⟨fun p hp => by cases p <;> first | exact h.same _ hp | exact absurd h0 hp | exact absurd h1 hp⟩

theorem Keeps.fresh_time {w : List Part} {s t : State} {v0} {v1} (h0 : Part.fresh ∈ w) (h1 : Part.time ∈ w)
    (h : Keeps w s t) : Keeps w s { t with fresh := v0, time := v1 } :=
  ⟨fun p hp => by cases p <;> first | exact h.same _ hp | exact absurd h0 hp | exact absurd h1 hp⟩

theorem Keeps.img_edw {w : List Part} {s t : State} {v0} {v1} (h0 : Part.img ∈ w) (h1 : Part.edw ∈ w)
    (h : Keeps w s t) : Keeps w s { t with img := v0, edw := v1 } :=
  ⟨fun p hp => by cases p <;> first | exact h.same _ hp | exact absurd h0 hp | exact absurd h1 hp⟩

theorem Keeps.img_rime {w : List Part} {s t : State} {v0} {v1} (h0 : Part.img ∈ w) (h1 : Part.rime ∈ w)
    (h : Keeps w s t) : Keeps w s { t with img := v0, rime := v1 } :=
  ⟨fun p hp => by cases p <;> first | exact h.same _ hp | exact absurd h0 hp | exact absurd h1 hp⟩

theorem Keeps.pending_out {w : List Part} {s t : State} {v0} {v1} (h0 : Part.pending ∈ w) (h1 : Part.out ∈ w)
    (h : Keeps w s t) : Keeps w s { t with pending := v0, out := v1 } :=
  ⟨fun p hp => by cases p <;> first | exact h.same _ hp | exact absurd h0 hp | exact absurd h1 hp⟩

theorem Keeps.pins_edw {w : List Part} {s t : State} {v0} {v1} (h0 : Part.pins ∈ w) (h1 : Part.edw ∈ w)
    (h : Keeps w s t) : Keeps w s { t with pins := v0, edw := v1 } :=
  ⟨fun p hp => by cases p <;> first | exact h.same _ hp | exact absurd h0 hp | exact absurd h1 hp⟩

theorem Keeps.pins_img {w : List Part} {s t : State} {v0} {v1} (h0 : Part.pins ∈ w) (h1 : Part.img ∈ w)
    (h : Keeps w s t) : Keeps w s { t with pins := v0, img := v1 } :=
  ⟨fun p hp => by cases p <;> first | exact h.same _ hp | exact absurd h0 hp | exact absurd h1 hp⟩

theorem Keeps.pins_su {w : List Part} {s t : State} {v0} {v1} (h0 : Part.pins ∈ w) (h1 : Part.su ∈ w)
    (h : Keeps w s t) : Keeps w s { t with pins := v0, su := v1 } :=
  ⟨fun p hp => by cases p <;> first | exact h.same _ hp | exact absurd h0 hp | exact absurd h1 hp⟩

theorem Keeps.pwr_gate {w : List Part} {s t : State} {v0} {v1} (h0 : Part.pwr ∈ w) (h1 : Part.gate ∈ w)
    (h : Keeps w s t) : Keeps w s { t with pwr := v0, gate := v1 } :=
  ⟨fun p hp => by cases p <;> first | exact h.same _ hp | exact absurd h0 hp | exact absurd h1 hp⟩

theorem Keeps.regs_edw {w : List Part} {s t : State} {v0} {v1} (h0 : Part.regs ∈ w) (h1 : Part.edw ∈ w)
    (h : Keeps w s t) : Keeps w s { t with regs := v0, edw := v1 } :=
  ⟨fun p hp => by cases p <;> first | exact h.same _ hp | exact absurd h0 hp | exact absurd h1 hp⟩

theorem Keeps.regs_gate {w : List Part} {s t : State} {v0} {v1} (h0 : Part.regs ∈ w) (h1 : Part.gate ∈ w)
    (h : Keeps w s t) : Keeps w s { t with regs := v0, gate := v1 } :=
  ⟨fun p hp => by cases p <;> first | exact h.same _ hp | exact absurd h0 hp | exact absurd h1 hp⟩

theorem Keeps.rq_rec_ {w : List Part} {s t : State} {v0} {v1} (h0 : Part.rq ∈ w) (h1 : Part.rec_ ∈ w)
    (h : Keeps w s t) : Keeps w s { t with rq := v0, rec_ := v1 } :=
  ⟨fun p hp => by cases p <;> first | exact h.same _ hp | exact absurd h0 hp | exact absurd h1 hp⟩

theorem Keeps.src_img {w : List Part} {s t : State} {v0} {v1} (h0 : Part.src ∈ w) (h1 : Part.img ∈ w)
    (h : Keeps w s t) : Keeps w s { t with src := v0, img := v1 } :=
  ⟨fun p hp => by cases p <;> first | exact h.same _ hp | exact absurd h0 hp | exact absurd h1 hp⟩

theorem Keeps.time_acc {w : List Part} {s t : State} {v0} {v1} (h0 : Part.time ∈ w) (h1 : Part.acc ∈ w)
    (h : Keeps w s t) : Keeps w s { t with time := v0, acc := v1 } :=
  ⟨fun p hp => by cases p <;> first | exact h.same _ hp | exact absurd h0 hp | exact absurd h1 hp⟩

theorem Keeps.time_bar {w : List Part} {s t : State} {v0} {v1} (h0 : Part.time ∈ w) (h1 : Part.bar ∈ w)
    (h : Keeps w s t) : Keeps w s { t with time := v0, bar := v1 } :=
  ⟨fun p hp => by cases p <;> first | exact h.same _ hp | exact absurd h0 hp | exact absurd h1 hp⟩

theorem Keeps.time_hostq {w : List Part} {s t : State} {v0} {v1} (h0 : Part.time ∈ w) (h1 : Part.hostq ∈ w)
    (h : Keeps w s t) : Keeps w s { t with time := v0, hostq := v1 } :=
  ⟨fun p hp => by cases p <;> first | exact h.same _ hp | exact absurd h0 hp | exact absurd h1 hp⟩

theorem Keeps.time_su {w : List Part} {s t : State} {v0} {v1} (h0 : Part.time ∈ w) (h1 : Part.su ∈ w)
    (h : Keeps w s t) : Keeps w s { t with time := v0, su := v1 } :=
  ⟨fun p hp => by cases p <;> first | exact h.same _ hp | exact absurd h0 hp | exact absurd h1 hp⟩

theorem Keeps.time_xb {w : List Part} {s t : State} {v0} {v1} (h0 : Part.time ∈ w) (h1 : Part.xb ∈ w)
    (h : Keeps w s t) : Keeps w s { t with time := v0, xb := v1 } :=
  ⟨fun p hp => by cases p <;> first | exact h.same _ hp | exact absurd h0 hp | exact absurd h1 hp⟩

theorem Keeps.xb_trc {w : List Part} {s t : State} {v0} {v1} (h0 : Part.xb ∈ w) (h1 : Part.trc ∈ w)
    (h : Keeps w s t) : Keeps w s { t with xb := v0, trc := v1 } :=
  ⟨fun p hp => by cases p <;> first | exact h.same _ hp | exact absurd h0 hp | exact absurd h1 hp⟩

theorem Keeps.yar_img {w : List Part} {s t : State} {v0} {v1} (h0 : Part.yar ∈ w) (h1 : Part.img ∈ w)
    (h : Keeps w s t) : Keeps w s { t with yar := v0, img := v1 } :=
  ⟨fun p hp => by cases p <;> first | exact h.same _ hp | exact absurd h0 hp | exact absurd h1 hp⟩

theorem Keeps.yar_rime {w : List Part} {s t : State} {v0} {v1} (h0 : Part.yar ∈ w) (h1 : Part.rime ∈ w)
    (h : Keeps w s t) : Keeps w s { t with yar := v0, rime := v1 } :=
  ⟨fun p hp => by cases p <;> first | exact h.same _ hp | exact absurd h0 hp | exact absurd h1 hp⟩

theorem Keeps.time_acc_firn {w : List Part} {s t : State} {v0} {v1} {v2} (h0 : Part.time ∈ w) (h1 : Part.acc ∈ w) (h2 : Part.firn ∈ w)
    (h : Keeps w s t) : Keeps w s { t with time := v0, acc := v1, firn := v2 } :=
  ⟨fun p hp => by cases p <;> first | exact h.same _ hp | exact absurd h0 hp | exact absurd h1 hp | exact absurd h2 hp⟩

theorem Keeps.time_firn_xb {w : List Part} {s t : State} {v0} {v1} {v2} (h0 : Part.time ∈ w) (h1 : Part.firn ∈ w) (h2 : Part.xb ∈ w)
    (h : Keeps w s t) : Keeps w s { t with time := v0, firn := v1, xb := v2 } :=
  ⟨fun p hp => by cases p <;> first | exact h.same _ hp | exact absurd h0 hp | exact absurd h1 hp | exact absurd h2 hp⟩

theorem Keeps.parts19 {w : List Part} {s t : State} {v0} {v1} {v2} {v3} {v4} {v5} {v6} {v7} {v8} {v9} {v10} {v11} {v12} {v13} {v14} {v15} {v16} {v17} {v18} (h0 : Part.staged ∈ w) (h1 : Part.time ∈ w) (h2 : Part.src ∈ w) (h3 : Part.yar ∈ w) (h4 : Part.firn ∈ w) (h5 : Part.xb ∈ w) (h6 : Part.rq ∈ w) (h7 : Part.core ∈ w) (h8 : Part.pred ∈ w) (h9 : Part.clus ∈ w) (h10 : Part.camp ∈ w) (h11 : Part.seg ∈ w) (h12 : Part.audit ∈ w) (h13 : Part.rec_ ∈ w) (h14 : Part.img ∈ w) (h15 : Part.rime ∈ w) (h16 : Part.bar ∈ w) (h17 : Part.trc ∈ w) (h18 : Part.tst ∈ w)
    (h : Keeps w s t) : Keeps w s { t with staged := v0, time := v1, src := v2, yar := v3, firn := v4, xb := v5, rq := v6, core := v7, pred := v8, clus := v9, camp := v10, seg := v11, audit := v12, rec_ := v13, img := v14, rime := v15, bar := v16, trc := v17, tst := v18 } :=
  ⟨fun p hp => by cases p <;> first | exact h.same _ hp | exact absurd h0 hp | exact absurd h1 hp | exact absurd h2 hp | exact absurd h3 hp | exact absurd h4 hp | exact absurd h5 hp | exact absurd h6 hp | exact absurd h7 hp | exact absurd h8 hp | exact absurd h9 hp | exact absurd h10 hp | exact absurd h11 hp | exact absurd h12 hp | exact absurd h13 hp | exact absurd h14 hp | exact absurd h15 hp | exact absurd h16 hp | exact absurd h17 hp | exact absurd h18 hp⟩

theorem Keeps.rec__su {w : List Part} {s t : State} {v0} {v1} (h0 : Part.rec_ ∈ w) (h1 : Part.su ∈ w)
    (h : Keeps w s t) : Keeps w s { t with rec_ := v0, su := v1 } :=
  ⟨fun p hp => by cases p <;> first | exact h.same _ hp | exact absurd h0 hp | exact absurd h1 hp⟩

theorem Keeps.pins_time {w : List Part} {s t : State} {v0} {v1} (h0 : Part.pins ∈ w) (h1 : Part.time ∈ w)
    (h : Keeps w s t) : Keeps w s { t with pins := v0, time := v1 } :=
  ⟨fun p hp => by cases p <;> first | exact h.same _ hp | exact absurd h0 hp | exact absurd h1 hp⟩

end Sys2Proof.Machine
end

