-- ==== Sys2Proof/Laws/KeepsOps.lean ====
section
/-! SUPPORT. What the operations of Machine/Ops.lean leave alone. -/

namespace Sys2Proof.Machine

theorem effect_keeps {w w' : List Part} {f : State → State} (hf : ∀ s, Keeps w s (f s)) (hw : w ⊆ .pending :: .out :: w')
    (s : State) : Keeps (.out :: w') s (effect f s) := by
  constructor
  intro p hp
  by_cases h0 : p = .pending
  · subst h0
    rfl
  · have h := (hf { s with pending := [], out := [] }).same p fun h => by
      rcases List.mem_cons.1 (hw h) with h | h
      · exact h0 h
      · exact hp h
    unfold effect
    cases p <;> first | exact h | exact absurd rfl h0 | exact absurd List.mem_cons_self hp

theorem State.wr_keeps (s : State) (a1) (a2) : Keeps [.regs] s (State.wr s a1 a2) := by
  unfold State.wr
  repeat' first
    | with_reducible exact Keeps.refl
    | assumption
    | dsimp only
    | with_reducible apply Keeps.ite
    | with_reducible apply Keeps.iteSnd
    | with_reducible apply Keeps.iteFst
    | with_reducible apply Keeps.foldl (fun _ _ => ?_)
    | with_reducible apply Keeps.foldlPair (fun _ _ => ?_)
    | fail_if_no_progress with_reducible apply Keeps.regs (by decide)

theorem State.inc_keeps (s : State) (a1) (a2) : Keeps [.regs] s (State.inc s a1 a2) := by
  unfold State.inc
  repeat' first
    | with_reducible exact Keeps.refl
    | assumption
    | dsimp only
    | with_reducible apply Keeps.ite
    | with_reducible apply Keeps.step (State.wr_keeps ..) (by decide)

theorem State.incW_keeps (s : State) (a1) (a2) : Keeps [.regs] s (State.incW s a1 a2) := by
  unfold State.incW
  repeat' first
    | with_reducible exact Keeps.refl
    | assumption
    | dsimp only
    | with_reducible apply Keeps.ite
    | with_reducible apply Keeps.step (State.wr_keeps ..) (by decide)

theorem State.raise_keeps (s : State) (a1) : Keeps [.regs] s (State.raise s a1) := by
  unfold State.raise
  repeat' first
    | with_reducible exact Keeps.refl
    | assumption
    | dsimp only
    | with_reducible apply Keeps.ite
    | with_reducible apply Keeps.step (State.wr_keeps ..) (by decide)

theorem State.emit_keeps (s : State) (a1) : Keeps [.out] s (State.emit s a1) := by
  unfold State.emit
  repeat' first
    | with_reducible exact Keeps.refl
    | assumption
    | dsimp only
    | with_reducible apply Keeps.ite
    | with_reducible apply Keeps.iteSnd
    | with_reducible apply Keeps.iteFst
    | with_reducible apply Keeps.foldl (fun _ _ => ?_)
    | with_reducible apply Keeps.foldlPair (fun _ _ => ?_)
    | fail_if_no_progress with_reducible apply Keeps.out (by decide)

theorem State.setCamp_keeps (s : State) (a1) (a2) : Keeps [.camp] s (State.setCamp s a1 a2) := by
  unfold State.setCamp
  repeat' first
    | with_reducible exact Keeps.refl
    | assumption
    | dsimp only
    | with_reducible apply Keeps.ite
    | with_reducible apply Keeps.iteSnd
    | with_reducible apply Keeps.iteFst
    | with_reducible apply Keeps.foldl (fun _ _ => ?_)
    | with_reducible apply Keeps.foldlPair (fun _ _ => ?_)
    | fail_if_no_progress with_reducible apply Keeps.camp (by decide)

theorem State.setSeg_keeps (s : State) (a1) (a2) : Keeps [.seg] s (State.setSeg s a1 a2) := by
  unfold State.setSeg
  repeat' first
    | with_reducible exact Keeps.refl
    | assumption
    | dsimp only
    | with_reducible apply Keeps.ite
    | with_reducible apply Keeps.iteSnd
    | with_reducible apply Keeps.iteFst
    | with_reducible apply Keeps.foldl (fun _ _ => ?_)
    | with_reducible apply Keeps.foldlPair (fun _ _ => ?_)
    | fail_if_no_progress with_reducible apply Keeps.seg (by decide)

theorem State.setCore_keeps (s : State) (a1) (a2) : Keeps [.core] s (State.setCore s a1 a2) := by
  unfold State.setCore
  repeat' first
    | with_reducible exact Keeps.refl
    | assumption
    | dsimp only
    | with_reducible apply Keeps.ite
    | with_reducible apply Keeps.iteSnd
    | with_reducible apply Keeps.iteFst
    | with_reducible apply Keeps.foldl (fun _ _ => ?_)
    | with_reducible apply Keeps.foldlPair (fun _ _ => ?_)
    | fail_if_no_progress with_reducible apply Keeps.core (by decide)

theorem State.setPred_keeps (s : State) (a1) (a2) (a3) : Keeps [.pred] s (State.setPred s a1 a2 a3) := by
  unfold State.setPred
  repeat' first
    | with_reducible exact Keeps.refl
    | assumption
    | dsimp only
    | with_reducible apply Keeps.ite
    | with_reducible apply Keeps.iteSnd
    | with_reducible apply Keeps.iteFst
    | with_reducible apply Keeps.foldl (fun _ _ => ?_)
    | with_reducible apply Keeps.foldlPair (fun _ _ => ?_)
    | fail_if_no_progress with_reducible apply Keeps.pred (by decide)

theorem State.setClus_keeps (s : State) (a1) (a2) : Keeps [.clus] s (State.setClus s a1 a2) := by
  unfold State.setClus
  repeat' first
    | with_reducible exact Keeps.refl
    | assumption
    | dsimp only
    | with_reducible apply Keeps.ite
    | with_reducible apply Keeps.iteSnd
    | with_reducible apply Keeps.iteFst
    | with_reducible apply Keeps.foldl (fun _ _ => ?_)
    | with_reducible apply Keeps.foldlPair (fun _ _ => ?_)
    | fail_if_no_progress with_reducible apply Keeps.clus (by decide)

theorem State.setArb_keeps (s : State) (a1) (a2) : Keeps [.arb] s (State.setArb s a1 a2) := by
  unfold State.setArb
  repeat' first
    | with_reducible exact Keeps.refl
    | assumption
    | dsimp only
    | with_reducible apply Keeps.ite
    | with_reducible apply Keeps.iteSnd
    | with_reducible apply Keeps.iteFst
    | with_reducible apply Keeps.foldl (fun _ _ => ?_)
    | with_reducible apply Keeps.foldlPair (fun _ _ => ?_)
    | fail_if_no_progress with_reducible apply Keeps.arb (by decide)

theorem State.setPort_keeps (s : State) (a1) (a2) : Keeps [.lnk] s (State.setPort s a1 a2) := by
  unfold State.setPort
  repeat' first
    | with_reducible exact Keeps.refl
    | assumption
    | dsimp only
    | with_reducible apply Keeps.ite
    | with_reducible apply Keeps.iteSnd
    | with_reducible apply Keeps.iteFst
    | with_reducible apply Keeps.foldl (fun _ _ => ?_)
    | with_reducible apply Keeps.foldlPair (fun _ _ => ?_)
    | fail_if_no_progress with_reducible apply Keeps.lnk (by decide)

theorem State.setLock_keeps (s : State) (a1) (a2) : Keeps [.lock] s (State.setLock s a1 a2) := by
  unfold State.setLock
  repeat' first
    | with_reducible exact Keeps.refl
    | assumption
    | dsimp only
    | with_reducible apply Keeps.ite
    | with_reducible apply Keeps.iteSnd
    | with_reducible apply Keeps.iteFst
    | with_reducible apply Keeps.foldl (fun _ _ => ?_)
    | with_reducible apply Keeps.foldlPair (fun _ _ => ?_)
    | fail_if_no_progress with_reducible apply Keeps.lock (by decide)

theorem State.setLatch_keeps (s : State) (a1) (a2) : Keeps [.src] s (State.setLatch s a1 a2) := by
  unfold State.setLatch
  repeat' first
    | with_reducible exact Keeps.refl
    | assumption
    | dsimp only
    | with_reducible apply Keeps.ite
    | with_reducible apply Keeps.iteSnd
    | with_reducible apply Keeps.iteFst
    | with_reducible apply Keeps.foldl (fun _ _ => ?_)
    | with_reducible apply Keeps.foldlPair (fun _ _ => ?_)
    | fail_if_no_progress with_reducible apply Keeps.src (by decide)

theorem State.setRec_keeps (s : State) (a1) (a2) : Keeps [.firn] s (State.setRec s a1 a2) := by
  unfold State.setRec
  repeat' first
    | with_reducible exact Keeps.refl
    | assumption
    | dsimp only
    | with_reducible apply Keeps.ite
    | with_reducible apply Keeps.iteSnd
    | with_reducible apply Keeps.iteFst
    | with_reducible apply Keeps.foldl (fun _ _ => ?_)
    | with_reducible apply Keeps.foldlPair (fun _ _ => ?_)
    | fail_if_no_progress with_reducible apply Keeps.firn (by decide)

theorem State.setBuf_keeps (s : State) (a1) (a2) : Keeps [.xb] s (State.setBuf s a1 a2) := by
  unfold State.setBuf
  repeat' first
    | with_reducible exact Keeps.refl
    | assumption
    | dsimp only
    | with_reducible apply Keeps.ite
    | with_reducible apply Keeps.iteSnd
    | with_reducible apply Keeps.iteFst
    | with_reducible apply Keeps.foldl (fun _ _ => ?_)
    | with_reducible apply Keeps.foldlPair (fun _ _ => ?_)
    | fail_if_no_progress with_reducible apply Keeps.xb (by decide)

theorem State.setStaging_keeps (s : State) (a1) (a2) : Keeps [.xb] s (State.setStaging s a1 a2) := by
  unfold State.setStaging
  repeat' first
    | with_reducible exact Keeps.refl
    | assumption
    | dsimp only
    | with_reducible apply Keeps.ite
    | with_reducible apply Keeps.iteSnd
    | with_reducible apply Keeps.iteFst
    | with_reducible apply Keeps.foldl (fun _ _ => ?_)
    | with_reducible apply Keeps.foldlPair (fun _ _ => ?_)
    | fail_if_no_progress with_reducible apply Keeps.xb (by decide)

theorem State.setRing_keeps (s : State) (a1) (a2) : Keeps [.xb] s (State.setRing s a1 a2) := by
  unfold State.setRing
  repeat' first
    | with_reducible exact Keeps.refl
    | assumption
    | dsimp only
    | with_reducible apply Keeps.ite
    | with_reducible apply Keeps.iteSnd
    | with_reducible apply Keeps.iteFst
    | with_reducible apply Keeps.foldl (fun _ _ => ?_)
    | with_reducible apply Keeps.foldlPair (fun _ _ => ?_)
    | fail_if_no_progress with_reducible apply Keeps.xb (by decide)

theorem State.setResv_keeps (s : State) (a1) (a2) : Keeps [.xb] s (State.setResv s a1 a2) := by
  unfold State.setResv
  repeat' first
    | with_reducible exact Keeps.refl
    | assumption
    | dsimp only
    | with_reducible apply Keeps.ite
    | with_reducible apply Keeps.iteSnd
    | with_reducible apply Keeps.iteFst
    | with_reducible apply Keeps.foldl (fun _ _ => ?_)
    | with_reducible apply Keeps.foldlPair (fun _ _ => ?_)
    | fail_if_no_progress with_reducible apply Keeps.xb (by decide)

theorem State.setCrossing_keeps (s : State) (a1) (a2) : Keeps [.rq] s (State.setCrossing s a1 a2) := by
  unfold State.setCrossing
  repeat' first
    | with_reducible exact Keeps.refl
    | assumption
    | dsimp only
    | with_reducible apply Keeps.ite
    | with_reducible apply Keeps.iteSnd
    | with_reducible apply Keeps.iteFst
    | with_reducible apply Keeps.foldl (fun _ _ => ?_)
    | with_reducible apply Keeps.foldlPair (fun _ _ => ?_)
    | fail_if_no_progress with_reducible apply Keeps.rq (by decide)

theorem State.setLane_keeps (s : State) (a1) (a2) : Keeps [.rq] s (State.setLane s a1 a2) := by
  unfold State.setLane
  repeat' first
    | with_reducible exact Keeps.refl
    | assumption
    | dsimp only
    | with_reducible apply Keeps.ite
    | with_reducible apply Keeps.iteSnd
    | with_reducible apply Keeps.iteFst
    | with_reducible apply Keeps.foldl (fun _ _ => ?_)
    | with_reducible apply Keeps.foldlPair (fun _ _ => ?_)
    | fail_if_no_progress with_reducible apply Keeps.rq (by decide)

theorem State.setLaneResv_keeps (s : State) (a1) (a2) : Keeps [.rq] s (State.setLaneResv s a1 a2) := by
  unfold State.setLaneResv
  repeat' first
    | with_reducible exact Keeps.refl
    | assumption
    | dsimp only
    | with_reducible apply Keeps.ite
    | with_reducible apply Keeps.iteSnd
    | with_reducible apply Keeps.iteFst
    | with_reducible apply Keeps.foldl (fun _ _ => ?_)
    | with_reducible apply Keeps.foldlPair (fun _ _ => ?_)
    | fail_if_no_progress with_reducible apply Keeps.rq (by decide)

theorem State.setToClus_keeps (s : State) (a1) (a2) : Keeps [.rq] s (State.setToClus s a1 a2) := by
  unfold State.setToClus
  repeat' first
    | with_reducible exact Keeps.refl
    | assumption
    | dsimp only
    | with_reducible apply Keeps.ite
    | with_reducible apply Keeps.iteSnd
    | with_reducible apply Keeps.iteFst
    | with_reducible apply Keeps.foldl (fun _ _ => ?_)
    | with_reducible apply Keeps.foldlPair (fun _ _ => ?_)
    | fail_if_no_progress with_reducible apply Keeps.rq (by decide)

theorem State.setSlice_keeps (s : State) (a1) (a2) : Keeps [.gate] s (State.setSlice s a1 a2) := by
  unfold State.setSlice
  repeat' first
    | with_reducible exact Keeps.refl
    | assumption
    | dsimp only
    | with_reducible apply Keeps.ite
    | with_reducible apply Keeps.iteSnd
    | with_reducible apply Keeps.iteFst
    | with_reducible apply Keeps.foldl (fun _ _ => ?_)
    | with_reducible apply Keeps.foldlPair (fun _ _ => ?_)
    | fail_if_no_progress with_reducible apply Keeps.gate (by decide)

theorem State.setChan_keeps (s : State) (a1) (a2) : Keeps [.edw] s (State.setChan s a1 a2) := by
  unfold State.setChan
  repeat' first
    | with_reducible exact Keeps.refl
    | assumption
    | dsimp only
    | with_reducible apply Keeps.ite
    | with_reducible apply Keeps.iteSnd
    | with_reducible apply Keeps.iteFst
    | with_reducible apply Keeps.foldl (fun _ _ => ?_)
    | with_reducible apply Keeps.foldlPair (fun _ _ => ?_)
    | fail_if_no_progress with_reducible apply Keeps.edw (by decide)

theorem respond_keeps (a0) (a1) (a2) (a3) (s : State) : Keeps [.out] s (respond a0 a1 a2 a3 s) := by
  unfold respond
  repeat' first
    | with_reducible exact Keeps.refl
    | assumption
    | dsimp only
    | with_reducible apply Keeps.ite
    | with_reducible apply Keeps.step (State.emit_keeps ..) (by decide)

theorem busError_keeps (a0) (a1) (a2) (a3) (s : State) : Keeps [.out, .regs] s (busError a0 a1 a2 a3 s) := by
  unfold busError
  repeat' first
    | with_reducible exact Keeps.refl
    | assumption
    | dsimp only
    | with_reducible apply Keeps.ite
    | with_reducible apply Keeps.step (State.wr_keeps ..) (by decide)
    | with_reducible apply Keeps.step (respond_keeps ..) (by decide)

theorem State.setDom_keeps (s : State) (a1) (a2) : Keeps [.pwr] s (State.setDom s a1 a2) := by
  unfold State.setDom
  repeat' first
    | with_reducible exact Keeps.refl
    | assumption
    | dsimp only
    | with_reducible apply Keeps.ite
    | with_reducible apply Keeps.iteSnd
    | with_reducible apply Keeps.iteFst
    | with_reducible apply Keeps.foldl (fun _ _ => ?_)
    | with_reducible apply Keeps.foldlPair (fun _ _ => ?_)
    | fail_if_no_progress with_reducible apply Keeps.pwr (by decide)

theorem addWake_keeps (a0) (a1) (a2) (s : State) : Keeps [.pwr] s (addWake a0 a1 a2 s) := by
  unfold addWake
  repeat' first
    | with_reducible exact Keeps.refl
    | assumption
    | dsimp only
    | with_reducible apply Keeps.ite
    | with_reducible apply Keeps.iteSnd
    | with_reducible apply Keeps.iteFst
    | with_reducible apply Keeps.foldl (fun _ _ => ?_)
    | with_reducible apply Keeps.foldlPair (fun _ _ => ?_)
    | fail_if_no_progress with_reducible apply Keeps.pwr (by decide)

theorem wake_keeps (a0) (a1) (a2) (s : State) : Keeps [.pwr] s (wake a0 a1 a2 s) := by
  unfold wake
  repeat' first
    | with_reducible exact Keeps.refl
    | assumption
    | dsimp only
    | with_reducible apply Keeps.ite
    | with_reducible apply Keeps.step (addWake_keeps ..) (by decide)

theorem wakeSys_keeps (a0) (s : State) : Keeps [.pwr] s (wakeSys a0 s) := by
  unfold wakeSys
  repeat' first
    | with_reducible exact Keeps.refl
    | assumption
    | dsimp only
    | with_reducible apply Keeps.ite
    | with_reducible apply Keeps.step (addWake_keeps ..) (by decide)

theorem wakeFor_keeps (a0) (a1) (s : State) : Keeps [.pwr] s (wakeFor a0 a1 s) := by
  unfold wakeFor
  repeat' first
    | with_reducible exact Keeps.refl
    | assumption
    | dsimp only
    | with_reducible apply Keeps.ite
    | with_reducible apply Keeps.step (wake_keeps ..) (by decide)

theorem traceEnqueue_keeps (a0) (a1) (a2) (s : State) : Keeps [.regs, .trc] s (traceEnqueue a0 a1 a2 s) := by
  unfold traceEnqueue
  repeat' first
    | with_reducible exact Keeps.refl
    | assumption
    | dsimp only
    | with_reducible apply Keeps.ite
    | with_reducible apply Keeps.step (State.inc_keeps ..) (by decide)
    | with_reducible apply Keeps.iteSnd
    | with_reducible apply Keeps.iteFst
    | with_reducible apply Keeps.foldl (fun _ _ => ?_)
    | with_reducible apply Keeps.foldlPair (fun _ _ => ?_)
    | fail_if_no_progress with_reducible apply Keeps.trc (by decide)

theorem trace_keeps (a0) (a1) (a2) (s : State) : Keeps [.regs, .trc] s (trace a0 a1 a2 s) := by
  unfold trace
  repeat' first
    | with_reducible exact Keeps.refl
    | assumption
    | dsimp only
    | with_reducible apply Keeps.ite
    | with_reducible apply Keeps.step (traceEnqueue_keeps ..) (by decide)
    | with_reducible apply Keeps.iteSnd
    | with_reducible apply Keeps.iteFst
    | with_reducible apply Keeps.foldl (fun _ _ => ?_)
    | with_reducible apply Keeps.foldlPair (fun _ _ => ?_)
    | fail_if_no_progress with_reducible apply Keeps.trc (by decide)

theorem countRefusal_keeps (a0) (a1) (a2) (s : State) : Keeps [.regs, .trc] s (countRefusal a0 a1 a2 s) := by
  unfold countRefusal
  repeat' first
    | with_reducible exact Keeps.refl
    | assumption
    | dsimp only
    | with_reducible apply Keeps.ite
    | with_reducible apply Keeps.step (State.inc_keeps ..) (by decide)
    | with_reducible apply Keeps.step (State.raise_keeps ..) (by decide)
    | with_reducible apply Keeps.step (State.wr_keeps ..) (by decide)
    | with_reducible apply Keeps.step (trace_keeps ..) (by decide)

theorem raiseInt_keeps (a0) (a1) (s : State) : Keeps [.regs, .src, .trc] s (raiseInt a0 a1 s) := by
  unfold raiseInt
  repeat' first
    | with_reducible exact Keeps.refl
    | assumption
    | dsimp only
    | with_reducible apply Keeps.ite
    | with_reducible apply Keeps.step (State.setLatch_keeps ..) (by decide)
    | with_reducible apply Keeps.step (countRefusal_keeps ..) (by decide)
    | with_reducible apply Keeps.iteSnd
    | with_reducible apply Keeps.iteFst
    | with_reducible apply Keeps.foldl (fun _ _ => ?_)
    | with_reducible apply Keeps.foldlPair (fun _ _ => ?_)
    | split

theorem coalesce_keeps (a0) (s : State) : Keeps [.regs] s (coalesce a0 s) := by
  unfold coalesce
  repeat' first
    | with_reducible exact Keeps.refl
    | assumption
    | dsimp only
    | with_reducible apply Keeps.ite
    | with_reducible apply Keeps.step (State.inc_keeps ..) (by decide)
    | with_reducible apply Keeps.step (State.wr_keeps ..) (by decide)

theorem firnNearCheck_keeps (a0) (s : State) : Keeps [.regs, .src, .trc] s (firnNearCheck a0 s) := by
  unfold firnNearCheck
  repeat' first
    | with_reducible exact Keeps.refl
    | assumption
    | dsimp only
    | with_reducible apply Keeps.ite
    | with_reducible apply Keeps.step (raiseInt_keeps ..) (by decide)

theorem firnWrite_keeps (a0) (s : State) : Keeps [.regs, .src, .firn, .trc] s (firnWrite a0 s) := by
  unfold firnWrite
  repeat' first
    | with_reducible exact Keeps.refl
    | assumption
    | dsimp only
    | with_reducible apply Keeps.ite
    | with_reducible apply Keeps.step (State.setRec_keeps ..) (by decide)
    | with_reducible apply Keeps.step (firnNearCheck_keeps ..) (by decide)

theorem mpuRecord_keeps (a0) (a1) (a2) (a3) (a4) (a5) (a6) (s : State) : Keeps [.regs] s (mpuRecord a0 a1 a2 a3 a4 a5 a6 s) := by
  unfold mpuRecord
  repeat' first
    | with_reducible exact Keeps.refl
    | assumption
    | dsimp only
    | with_reducible apply Keeps.ite
    | with_reducible apply Keeps.step (State.inc_keeps ..) (by decide)
    | with_reducible apply Keeps.step (State.raise_keeps ..) (by decide)
    | with_reducible apply Keeps.step (State.wr_keeps ..) (by decide)

theorem mpuFaultField_keeps (a0) (a1) (a2) (a3) (s : State) : Keeps [.regs, .src, .trc] s (mpuFaultField a0 a1 a2 a3 s) := by
  unfold mpuFaultField
  repeat' first
    | with_reducible exact Keeps.refl
    | assumption
    | dsimp only
    | with_reducible apply Keeps.ite
    | with_reducible apply Keeps.step (mpuRecord_keeps ..) (by decide)
    | with_reducible apply Keeps.step (raiseInt_keeps ..) (by decide)

end Sys2Proof.Machine
end

