-- ==== Sys2Proof/Laws/KeepsSources.lean ====
section
/-! SUPPORT. What the operations of Machine/Sources.lean leave alone. -/

namespace Sys2Proof.Machine

theorem emptyWindows_keeps (a0) (s : State) : Keeps [.src] s (emptyWindows a0 s) := by
  unfold emptyWindows
  repeat' first
    | with_reducible exact Keeps.refl
    | assumption
    | dsimp only
    | with_reducible apply Keeps.ite
    | with_reducible apply Keeps.step (State.setLatch_keeps ..) (by decide)
    | with_reducible apply Keeps.iteSnd
    | with_reducible apply Keeps.iteFst
    | with_reducible apply Keeps.foldl (fun _ _ => ?_)
    | with_reducible apply Keeps.foldlPair (fun _ _ => ?_)
    | with_reducible apply Keeps.each (fun _ _ => ?_)
    | split

theorem latchEvent_keeps (a0) (a1) (a2) (a3) (s : State) : Keeps [.regs, .src, .trc] s (latchEvent a0 a1 a2 a3 s) := by
  unfold latchEvent
  repeat' first
    | with_reducible exact Keeps.refl
    | assumption
    | dsimp only
    | with_reducible apply Keeps.ite
    | with_reducible apply Keeps.step (State.inc_keeps ..) (by decide)
    | with_reducible apply Keeps.step (State.setLatch_keeps ..) (by decide)
    | with_reducible apply Keeps.step (coalesce_keeps ..) (by decide)
    | with_reducible apply Keeps.step (countRefusal_keeps ..) (by decide)
    | with_reducible apply Keeps.iteSnd
    | with_reducible apply Keeps.iteFst
    | with_reducible apply Keeps.foldl (fun _ _ => ?_)
    | with_reducible apply Keeps.foldlPair (fun _ _ => ?_)
    | split

theorem setCellRun_keeps (s : State) (a1) (a2) : Keeps [.yar] s (setCellRun s a1 a2) := by
  unfold setCellRun
  repeat' first
    | with_reducible exact Keeps.refl
    | assumption
    | dsimp only
    | with_reducible apply Keeps.ite
    | with_reducible apply Keeps.iteSnd
    | with_reducible apply Keeps.iteFst
    | with_reducible apply Keeps.foldl (fun _ _ => ?_)
    | with_reducible apply Keeps.foldlPair (fun _ _ => ?_)
    | fail_if_no_progress with_reducible apply Keeps.yar (by decide)

theorem sourceChange_keeps (a0) (a1) (a2) (a3) (a4) (a5) (a6) (s : State) : Keeps [.regs, .src, .trc] s (sourceChange a0 a1 a2 a3 a4 a5 a6 s) := by
  unfold sourceChange
  repeat' first
    | with_reducible exact Keeps.refl
    | assumption
    | dsimp only
    | with_reducible apply Keeps.ite
    | with_reducible apply Keeps.step (latchEvent_keeps ..) (by decide)
    | with_reducible apply Keeps.iteSnd
    | with_reducible apply Keeps.iteFst
    | with_reducible apply Keeps.foldl (fun _ _ => ?_)
    | with_reducible apply Keeps.foldlPair (fun _ _ => ?_)
    | fail_if_no_progress with_reducible apply Keeps.src (by decide)

theorem yarCycle_keeps (a0) (s : State) : Keeps [.regs, .src, .yar, .trc] s (yarCycle a0 s) := by
  unfold yarCycle
  repeat' first
    | with_reducible exact Keeps.refl
    | assumption
    | dsimp only
    | with_reducible apply Keeps.ite
    | with_reducible apply Keeps.step (setCellRun_keeps ..) (by decide)
    | with_reducible apply Keeps.step (sourceChange_keeps ..) (by decide)
    | with_reducible apply Keeps.each (fun _ _ => ?_)

theorem resolveStamps_keeps (a0) (s : State) : Keeps [.src, .yar] s (resolveStamps a0 s) := by
  unfold resolveStamps
  repeat' first
    | with_reducible exact Keeps.refl
    | assumption
    | dsimp only
    | with_reducible apply Keeps.ite
    | with_reducible apply Keeps.step (setCellRun_keeps ..) (by decide)
    | with_reducible apply Keeps.iteSnd
    | with_reducible apply Keeps.iteFst
    | with_reducible apply Keeps.foldl (fun _ _ => ?_)
    | with_reducible apply Keeps.foldlPair (fun _ _ => ?_)
    | with_reducible apply Keeps.each (fun _ _ => ?_)
    | fail_if_no_progress with_reducible apply Keeps.src (by decide)

theorem lineChange_keeps (a0) (a1) (a2) (a3) (a4) (s : State) : Keeps [.regs, .src, .trc] s (lineChange a0 a1 a2 a3 a4 s) := by
  unfold lineChange
  repeat' first
    | with_reducible exact Keeps.refl
    | assumption
    | dsimp only
    | with_reducible apply Keeps.ite
    | with_reducible apply Keeps.step (sourceChange_keeps ..) (by decide)
    | with_reducible apply Keeps.iteSnd
    | with_reducible apply Keeps.iteFst
    | with_reducible apply Keeps.foldl (fun _ _ => ?_)
    | with_reducible apply Keeps.foldlPair (fun _ _ => ?_)
    | fail_if_no_progress with_reducible apply Keeps.src (by decide)

theorem levelTest_keeps (a0) (a1) (s : State) : Keeps [.regs, .src, .trc] s (levelTest a0 a1 s) := by
  unfold levelTest
  repeat' first
    | with_reducible exact Keeps.refl
    | assumption
    | dsimp only
    | with_reducible apply Keeps.ite
    | with_reducible apply Keeps.step (latchEvent_keeps ..) (by decide)

end Sys2Proof.Machine
end

