-- ==== Sys2Proof/Laws/KeepsArbiter.lean ====
section
/-! SUPPORT. What the operations of Machine/Arbiter.lean leave alone. -/

namespace Sys2Proof.Machine

theorem arbSync_keeps (a0) (s : State) : Keeps [.arb] s (arbSync a0 s) := by
  unfold arbSync
  repeat' first
    | with_reducible exact Keeps.refl
    | assumption
    | dsimp only
    | with_reducible apply Keeps.ite
    | with_reducible apply Keeps.step (State.setArb_keeps ..) (by decide)

theorem arbDecide.grant_keeps (a0) (a1) (a2) (a3) (s : State) : Keeps [.regs, .arb] s (arbDecide.grant a0 a1 a2 a3 s) := by
  unfold arbDecide.grant
  repeat' first
    | with_reducible exact Keeps.refl
    | assumption
    | dsimp only
    | with_reducible apply Keeps.ite
    | with_reducible apply Keeps.step (State.incW_keeps ..) (by decide)
    | with_reducible apply Keeps.step (State.setArb_keeps ..) (by decide)
    | with_reducible apply Keeps.step (State.wr_keeps ..) (by decide)
    | with_reducible apply Keeps.iteSnd
    | with_reducible apply Keeps.iteFst
    | with_reducible apply Keeps.foldl (fun _ _ => ?_)
    | with_reducible apply Keeps.foldlPair (fun _ _ => ?_)
    | split

theorem arbDecide_keeps (a0) (a1) (a2) (s : State) : Keeps [.regs, .arb] s (arbDecide a0 a1 a2 s) := by
  unfold arbDecide
  repeat' first
    | with_reducible exact Keeps.refl
    | assumption
    | dsimp only
    | with_reducible apply Keeps.ite
    | with_reducible apply Keeps.step (State.setArb_keeps ..) (by decide)
    | with_reducible apply Keeps.step (arbDecide.grant_keeps ..) (by decide)
    | with_reducible apply Keeps.iteSnd
    | with_reducible apply Keeps.iteFst
    | with_reducible apply Keeps.foldl (fun _ _ => ?_)
    | with_reducible apply Keeps.foldlPair (fun _ _ => ?_)
    | split

theorem arbBeat_keeps {w : List Part} (hw : .arb ∈ w) (a) {beat : Nat → State → State} (hb : ∀ j s, Keeps w s (beat j s))
    (s : State) : Keeps w s (arbBeat a beat s) := by
  unfold arbBeat
  dsimp only
  split
  · exact Keeps.refl
  · exact Keeps.trans (Keeps.mono (State.setArb_keeps ..) (by simpa using hw)) (hb ..)

theorem arbBeats_keeps {w : List Part} (hw : .arb ∈ w) (a) {beat : Nat → State → State} (hb : ∀ j s, Keeps w s (beat j s)) (n)
    (s : State) : Keeps w s (arbBeats a beat n s) := by
  induction n generalizing s with
  | zero => exact Keeps.refl
  | succ n ih => exact (arbBeat_keeps hw a hb s).trans (ih _)

theorem arbRun_keeps {w : List Part} (hw : [.regs, .arb] ⊆ w) (a reqs) {beat : Nat → State → State}
    (hb : ∀ j s, Keeps w s (beat j s)) (s : State) : Keeps w s (arbRun a reqs beat s) := by
  have ha : .arb ∈ w := hw (by decide)
  have h1 : Keeps w s (arbSync a s) := Keeps.mono (arbSync_keeps ..) (by simpa using ha)
  unfold arbRun
  dsimp only
  split
  · exact (h1.trans (arbBeats_keeps ha a hb ..)).trans (Keeps.mono (arbDecide_keeps ..) hw)
  · exact (h1.trans (Keeps.mono (arbDecide_keeps ..) hw)).trans (arbBeat_keeps ha a hb _)

theorem arbTakeBack_keeps (a h n) (s : State) : Keeps [.regs, .arb] s (arbTakeBack a h n s) := by
  unfold arbTakeBack
  exact Keeps.step (State.inc_keeps ..) (by decide) (Keeps.step (State.setArb_keeps ..) (by decide) Keeps.refl)

theorem arbRevoke_keeps {w : List Part} (hw : [.regs, .arb] ⊆ w) (a reqs) {beat : Nat → State → State}
    (hb : ∀ j s, Keeps w s (beat j s)) (s : State) : Keeps w s (arbRevoke a reqs beat s) := by
  have ha : .arb ∈ w := hw (by decide)
  have h1 : Keeps w s (arbSync a s) := Keeps.mono (arbSync_keeps ..) (by simpa using ha)
  unfold arbRevoke
  dsimp only
  split
  · exact h1
  · exact Keeps.ite h1 (Keeps.step (arbDecide_keeps ..) hw (Keeps.step (arbTakeBack_keeps ..) hw (h1.trans (arbBeats_keeps ha a hb ..))))

theorem arbStep_keeps {w : List Part} (hw : [.regs, .arb] ⊆ w) (a reqs) {beat : Nat → State → State}
    (hb : ∀ j s, Keeps w s (beat j s)) (s : State) : Keeps w s (arbStep a reqs beat s) := by
  have ha : .arb ∈ w := hw (by decide)
  unfold arbStep
  split
  · exact arbRun_keeps hw a reqs hb s
  · exact Keeps.ite (arbRun_keeps hw a reqs hb s) (Keeps.ite (arbRevoke_keeps hw a reqs hb s)
      ((Keeps.mono (arbSync_keeps ..) (by simpa using ha)).trans (arbBeats_keeps ha a hb ..)))

theorem arbWithdraw_keeps (a0) (a1) (a2) (s : State) : Keeps [.regs, .arb] s (arbWithdraw a0 a1 a2 s) := by
  unfold arbWithdraw
  repeat' first
    | with_reducible exact Keeps.refl
    | assumption
    | dsimp only
    | with_reducible apply Keeps.ite
    | with_reducible apply Keeps.step (State.inc_keeps ..) (by decide)
    | with_reducible apply Keeps.step (State.incW_keeps ..) (by decide)
    | with_reducible apply Keeps.step (State.setArb_keeps ..) (by decide)
    | with_reducible apply Keeps.step (arbDecide_keeps ..) (by decide)
    | with_reducible apply Keeps.step (arbSync_keeps ..) (by decide)
    | with_reducible apply Keeps.iteSnd
    | with_reducible apply Keeps.iteFst
    | with_reducible apply Keeps.foldl (fun _ _ => ?_)
    | with_reducible apply Keeps.foldlPair (fun _ _ => ?_)
    | split

theorem arbRefill_keeps (a0) (s : State) : Keeps [.arb] s (arbRefill a0 s) := by
  unfold arbRefill
  repeat' first
    | with_reducible exact Keeps.refl
    | assumption
    | dsimp only
    | with_reducible apply Keeps.ite
    | with_reducible apply Keeps.step (State.setArb_keeps ..) (by decide)
    | with_reducible apply Keeps.step (arbSync_keeps ..) (by decide)

theorem arbTick_keeps (a0) (a1) (s : State) : Keeps [.regs, .arb] s (arbTick a0 a1 s) := by
  unfold arbTick
  repeat' first
    | with_reducible exact Keeps.refl
    | assumption
    | dsimp only
    | with_reducible apply Keeps.ite
    | with_reducible apply Keeps.step (State.incW_keeps ..) (by decide)
    | with_reducible apply Keeps.step (State.setArb_keeps ..) (by decide)
    | with_reducible apply Keeps.step (arbSync_keeps ..) (by decide)
    | with_reducible apply Keeps.each (fun _ _ => ?_)
    | with_reducible apply Keeps.foldl (fun _ _ => ?_)
    | split

end Sys2Proof.Machine
end

