-- ==== Sys2Proof/Laws/KeepsFabric.lean ====
section
/-! SUPPORT. What the operations of Machine/Fabric.lean leave alone. -/

set_option Elab.async false

namespace Sys2Proof.Machine

theorem mrnFull_keeps (a0) (s : State) : Keeps [.regs, .src, .xb, .trc] s (mrnFull a0 s) := by
  unfold mrnFull
  repeat' first
    | with_reducible exact Keeps.refl
    | assumption
    | dsimp only
    | with_reducible apply Keeps.ite
    | with_reducible apply Keeps.step (State.inc_keeps ..) (by decide)
    | with_reducible apply Keeps.step (raiseInt_keeps ..) (by decide)
    | with_reducible apply Keeps.iteSnd
    | with_reducible apply Keeps.iteFst
    | with_reducible apply Keeps.foldl (fun _ _ => ?_)
    | with_reducible apply Keeps.foldlPair (fun _ _ => ?_)
    | fail_if_no_progress with_reducible apply Keeps.xb (by decide)

theorem freeFull_keeps (s : State) : Keeps [.xb] s (freeFull s) := by
  unfold freeFull
  repeat' first
    | with_reducible exact Keeps.refl
    | assumption
    | dsimp only
    | with_reducible apply Keeps.ite
    | with_reducible apply Keeps.iteSnd
    | with_reducible apply Keeps.iteFst
    | with_reducible apply Keeps.foldl (fun _ _ => ?_)
    | with_reducible apply Keeps.foldlPair (fun _ _ => ?_)
    | fail_if_no_progress with_reducible apply Keeps.xb (by decide)

theorem reserve_keeps (a0) (s : State) : Keeps [.xb] s (reserve a0 s) := by
  unfold reserve
  repeat' first
    | with_reducible exact Keeps.refl
    | assumption
    | dsimp only
    | with_reducible apply Keeps.ite
    | with_reducible apply Keeps.step (State.setResv_keeps ..) (by decide)
    | with_reducible apply Keeps.iteSnd
    | with_reducible apply Keeps.iteFst
    | with_reducible apply Keeps.foldl (fun _ _ => ?_)
    | with_reducible apply Keeps.foldlPair (fun _ _ => ?_)
    | split

theorem unreserve_keeps (a0) (s : State) : Keeps [.xb] s (unreserve a0 s) := by
  unfold unreserve
  repeat' first
    | with_reducible exact Keeps.refl
    | assumption
    | dsimp only
    | with_reducible apply Keeps.ite
    | with_reducible apply Keeps.step (State.setResv_keeps ..) (by decide)
    | with_reducible apply Keeps.iteSnd
    | with_reducible apply Keeps.iteFst
    | with_reducible apply Keeps.foldl (fun _ _ => ?_)
    | with_reducible apply Keeps.foldlPair (fun _ _ => ?_)
    | split

theorem verSeen_keeps (a0) (a1) (s : State) : Keeps [.regs] s (verSeen a0 a1 s) := by
  unfold verSeen
  repeat' first
    | with_reducible exact Keeps.refl
    | assumption
    | dsimp only
    | with_reducible apply Keeps.ite
    | with_reducible apply Keeps.step (State.raise_keeps ..) (by decide)
    | with_reducible apply Keeps.iteSnd
    | with_reducible apply Keeps.iteFst
    | with_reducible apply Keeps.foldl (fun _ _ => ?_)
    | with_reducible apply Keeps.foldlPair (fun _ _ => ?_)
    | split

theorem takeRoutes_keeps (a0) (a1) (a2) (s : State) : Keeps [.regs] s (takeRoutes a0 a1 a2 s).2 := by
  induction a2 generalizing s with
  | nil => exact Keeps.refl
  | cons x l ih =>
    unfold takeRoutes
    repeat' first
      | with_reducible exact Keeps.refl
      | assumption
      | dsimp only
      | with_reducible apply Keeps.ite
      | with_reducible apply Keeps.step (State.inc_keeps ..) (by decide)
      | with_reducible apply Keeps.step (verSeen_keeps ..) (by decide)
      | with_reducible apply Keeps.iteSnd
      | with_reducible apply Keeps.iteFst
      | with_reducible apply Keeps.foldl (fun _ _ => ?_)
      | with_reducible apply Keeps.foldlPair (fun _ _ => ?_)
      | with_reducible apply Keeps.step (ih ..) (by decide)
      | split

theorem wakeRoutes_keeps (a0) (a1) (s : State) : Keeps [.pwr] s (wakeRoutes a0 a1 s) := by
  unfold wakeRoutes
  repeat' first
    | with_reducible exact Keeps.refl
    | assumption
    | dsimp only
    | with_reducible apply Keeps.ite
    | with_reducible apply Keeps.step (wakeFor_keeps ..) (by decide)
    | with_reducible apply Keeps.each (fun _ _ => ?_)
    | with_reducible apply Keeps.iteSnd
    | with_reducible apply Keeps.iteFst
    | with_reducible apply Keeps.foldl (fun _ _ => ?_)
    | with_reducible apply Keeps.foldlPair (fun _ _ => ?_)
    | split

theorem xbStore_keeps (a0) (a1) (a2) (a3) (a4) (a5) (s : State) : Keeps [.regs, .xb, .pwr, .trc] s (xbStore a0 a1 a2 a3 a4 a5 s) := by
  unfold xbStore
  repeat' first
    | with_reducible exact Keeps.refl
    | assumption
    | dsimp only
    | with_reducible apply Keeps.ite
    | with_reducible apply Keeps.step (State.setBuf_keeps ..) (by decide)
    | with_reducible apply Keeps.step (State.setStaging_keeps ..) (by decide)
    | with_reducible apply Keeps.step (takeRoutes_keeps ..) (by decide)
    | with_reducible apply Keeps.step (trace_keeps ..) (by decide)
    | with_reducible apply Keeps.step (wakeRoutes_keeps ..) (by decide)
    | with_reducible apply Keeps.iteSnd
    | with_reducible apply Keeps.iteFst
    | with_reducible apply Keeps.foldl (fun _ _ => ?_)
    | with_reducible apply Keeps.foldlPair (fun _ _ => ?_)
    | fail_if_no_progress with_reducible apply Keeps.xb (by decide)
    | split

theorem xbTry_keeps (a0) (a1) (a2) (a3) (s : State) : Keeps [.regs, .src, .xb, .pwr, .trc] s (xbTry a0 a1 a2 a3 s).2 := by
  unfold xbTry
  repeat' first
    | with_reducible exact Keeps.refl
    | assumption
    | dsimp only
    | with_reducible apply Keeps.ite
    | with_reducible apply Keeps.step (mrnFull_keeps ..) (by decide)
    | with_reducible apply Keeps.step (xbStore_keeps ..) (by decide)
    | with_reducible apply Keeps.iteSnd
    | with_reducible apply Keeps.iteFst
    | with_reducible apply Keeps.foldl (fun _ _ => ?_)
    | with_reducible apply Keeps.foldlPair (fun _ _ => ?_)
    | split

theorem pumpList_keeps (a0) (a1) (a2) (s : State) : Keeps [.regs, .src, .xb, .pwr, .trc] s (pumpList a0 a1 a2 s).2 := by
  induction a1 generalizing s a2 with
  | nil => exact Keeps.refl
  | cons x l ih =>
    unfold pumpList
    repeat' first
      | with_reducible exact Keeps.refl
      | assumption
      | dsimp only
      | with_reducible apply Keeps.ite
      | with_reducible apply Keeps.iteSnd
      | with_reducible apply Keeps.iteFst
      | with_reducible apply Keeps.foldl (fun _ _ => ?_)
      | with_reducible apply Keeps.foldlPair (fun _ _ => ?_)
      | with_reducible apply Keeps.step (ih ..) (by decide)
      | (with_reducible apply Keeps.snd (xbTry_keeps ..); assumption; decide)
      | split

theorem pumpRec_keeps (s : State) : Keeps [.regs, .src, .xb, .pwr, .trc] s (pumpRec s) := by
  unfold pumpRec
  repeat' first
    | with_reducible exact Keeps.refl
    | assumption
    | dsimp only
    | with_reducible apply Keeps.ite
    | with_reducible apply Keeps.step (pumpList_keeps ..) (by decide)
    | with_reducible apply Keeps.iteSnd
    | with_reducible apply Keeps.iteFst
    | with_reducible apply Keeps.foldl (fun _ _ => ?_)
    | with_reducible apply Keeps.foldlPair (fun _ _ => ?_)
    | fail_if_no_progress with_reducible apply Keeps.xb (by decide)

theorem pumpCtl_keeps (s : State) : Keeps [.regs, .src, .xb, .pwr, .trc] s (pumpCtl s) := by
  unfold pumpCtl
  repeat' first
    | with_reducible exact Keeps.refl
    | assumption
    | dsimp only
    | with_reducible apply Keeps.ite
    | with_reducible apply Keeps.step (pumpList_keeps ..) (by decide)
    | with_reducible apply Keeps.iteSnd
    | with_reducible apply Keeps.iteFst
    | with_reducible apply Keeps.foldl (fun _ _ => ?_)
    | with_reducible apply Keeps.foldlPair (fun _ _ => ?_)
    | fail_if_no_progress with_reducible apply Keeps.xb (by decide)

theorem pumpBar_keeps (s : State) : Keeps [.regs, .src, .xb, .pwr, .trc] s (pumpBar s) := by
  unfold pumpBar
  repeat' first
    | with_reducible exact Keeps.refl
    | assumption
    | dsimp only
    | with_reducible apply Keeps.ite
    | with_reducible apply Keeps.step (pumpList_keeps ..) (by decide)
    | with_reducible apply Keeps.iteSnd
    | with_reducible apply Keeps.iteFst
    | with_reducible apply Keeps.foldl (fun _ _ => ?_)
    | with_reducible apply Keeps.foldlPair (fun _ _ => ?_)
    | fail_if_no_progress with_reducible apply Keeps.xb (by decide)

theorem pumpRet_keeps (a0) (s : State) : Keeps [.regs, .src, .xb, .pwr, .trc] s (pumpRet a0 s) := by
  unfold pumpRet
  repeat' first
    | with_reducible exact Keeps.refl
    | assumption
    | dsimp only
    | with_reducible apply Keeps.ite
    | with_reducible apply Keeps.step (pumpList_keeps ..) (by decide)
    | with_reducible apply Keeps.iteSnd
    | with_reducible apply Keeps.iteFst
    | with_reducible apply Keeps.foldl (fun _ _ => ?_)
    | with_reducible apply Keeps.foldlPair (fun _ _ => ?_)
    | fail_if_no_progress with_reducible apply Keeps.xb (by decide)

theorem pumpRx.go_keeps (a0) (a1) (a2) (s : State) : Keeps [.regs, .src, .xb, .lnk, .pwr, .trc] s (pumpRx.go a0 a1 a2 s).2 := by
  induction a1 generalizing s a2 with
  | nil => exact Keeps.refl
  | cons x l ih =>
    unfold pumpRx.go
    repeat' first
      | with_reducible exact Keeps.refl
      | assumption
      | dsimp only
      | with_reducible apply Keeps.ite
      | with_reducible apply Keeps.step (State.setPort_keeps ..) (by decide)
      | with_reducible apply Keeps.iteSnd
      | with_reducible apply Keeps.iteFst
      | with_reducible apply Keeps.foldl (fun _ _ => ?_)
      | with_reducible apply Keeps.foldlPair (fun _ _ => ?_)
      | with_reducible apply Keeps.step (ih ..) (by decide)
      | (with_reducible apply Keeps.snd (xbTry_keeps ..); assumption; decide)
      | split

theorem pumpRx_keeps (a0) (s : State) : Keeps [.regs, .src, .xb, .lnk, .pwr, .trc] s (pumpRx a0 s) := by
  unfold pumpRx
  repeat' first
    | with_reducible exact Keeps.refl
    | assumption
    | dsimp only
    | with_reducible apply Keeps.ite
    | with_reducible apply Keeps.step (State.setPort_keeps ..) (by decide)
    | with_reducible apply Keeps.step (pumpRx.go_keeps ..) (by decide)

theorem pumpAll_keeps (s : State) : Keeps [.regs, .src, .xb, .lnk, .pwr, .trc] s (pumpAll s) := by
  unfold pumpAll
  repeat' first
    | with_reducible exact Keeps.refl
    | assumption
    | dsimp only
    | with_reducible apply Keeps.ite
    | with_reducible apply Keeps.step (pumpBar_keeps ..) (by decide)
    | with_reducible apply Keeps.step (pumpCtl_keeps ..) (by decide)
    | with_reducible apply Keeps.step (pumpRec_keeps ..) (by decide)
    | with_reducible apply Keeps.step (pumpRet_keeps ..) (by decide)
    | with_reducible apply Keeps.step (pumpRx_keeps ..) (by decide)

theorem sendCtl_keeps (a0) (s : State) : Keeps [.regs, .src, .xb, .pwr, .trc] s (sendCtl a0 s) := by
  unfold sendCtl
  repeat' first
    | with_reducible exact Keeps.refl
    | assumption
    | dsimp only
    | with_reducible apply Keeps.ite
    | with_reducible apply Keeps.step (pumpCtl_keeps ..) (by decide)
    | with_reducible apply Keeps.iteSnd
    | with_reducible apply Keeps.iteFst
    | with_reducible apply Keeps.foldl (fun _ _ => ?_)
    | with_reducible apply Keeps.foldlPair (fun _ _ => ?_)
    | fail_if_no_progress with_reducible apply Keeps.xb (by decide)

theorem sendRec_keeps (a0) (s : State) : Keeps [.regs, .src, .xb, .pwr, .trc] s (sendRec a0 s) := by
  unfold sendRec
  repeat' first
    | with_reducible exact Keeps.refl
    | assumption
    | dsimp only
    | with_reducible apply Keeps.ite
    | with_reducible apply Keeps.step (pumpRec_keeps ..) (by decide)
    | with_reducible apply Keeps.iteSnd
    | with_reducible apply Keeps.iteFst
    | with_reducible apply Keeps.foldl (fun _ _ => ?_)
    | with_reducible apply Keeps.foldlPair (fun _ _ => ?_)
    | fail_if_no_progress with_reducible apply Keeps.xb (by decide)

theorem sendFence_keeps (a0) (a1) (a2) (a3) (a4) (s : State) : Keeps [.regs, .src, .xb, .pwr, .trc] s (sendFence a0 a1 a2 a3 a4 s) := by
  unfold sendFence
  repeat' first
    | with_reducible exact Keeps.refl
    | assumption
    | dsimp only
    | with_reducible apply Keeps.ite
    | with_reducible apply Keeps.step (sendRec_keeps ..) (by decide)

theorem broadcast_keeps (a0) (a1) (a2) (s : State) : Keeps [.regs, .src, .xb, .pwr, .trc] s (broadcast a0 a1 a2 s) := by
  unfold broadcast
  repeat' first
    | with_reducible exact Keeps.refl
    | assumption
    | dsimp only
    | with_reducible apply Keeps.ite
    | with_reducible apply Keeps.step (sendRec_keeps ..) (by decide)
    | with_reducible apply Keeps.each (fun _ _ => ?_)

theorem resend_keeps (a0) (a1) (s : State) : Keeps [.regs, .src, .xb, .pwr, .trc] s (resend a0 a1 s) := by
  unfold resend
  repeat' first
    | with_reducible exact Keeps.refl
    | assumption
    | dsimp only
    | with_reducible apply Keeps.ite
    | with_reducible apply Keeps.step (State.inc_keeps ..) (by decide)
    | with_reducible apply Keeps.step (sendRec_keeps ..) (by decide)

theorem lostInTransport_keeps (a0) (a1) (s : State) : Keeps [.regs, .src, .xb, .pwr, .trc] s (lostInTransport a0 a1 s) := by
  unfold lostInTransport
  repeat' first
    | with_reducible exact Keeps.refl
    | assumption
    | dsimp only
    | with_reducible apply Keeps.ite
    | with_reducible apply Keeps.step (resend_keeps ..) (by decide)
    | with_reducible apply Keeps.step (sendFence_keeps ..) (by decide)
    | with_reducible apply Keeps.iteSnd
    | with_reducible apply Keeps.iteFst
    | with_reducible apply Keeps.foldl (fun _ _ => ?_)
    | with_reducible apply Keeps.foldlPair (fun _ _ => ?_)
    | split

theorem followRestored_keeps (a0) (a1) (s : State) : Keeps [.firn] s (followRestored a0 a1 s) := by
  unfold followRestored
  repeat' first
    | with_reducible exact Keeps.refl
    | assumption
    | dsimp only
    | with_reducible apply Keeps.ite
    | with_reducible apply Keeps.step (State.setRec_keeps ..) (by decide)
    | with_reducible apply Keeps.iteSnd
    | with_reducible apply Keeps.iteFst
    | with_reducible apply Keeps.foldl (fun _ _ => ?_)
    | with_reducible apply Keeps.foldlPair (fun _ _ => ?_)
    | split

theorem intoCrossing_keeps (a0) (a1) (a2) (a3) (s : State) : Keeps [.regs, .src, .firn, .rq, .trc] s (intoCrossing a0 a1 a2 a3 s) := by
  unfold intoCrossing
  repeat' first
    | with_reducible exact Keeps.refl
    | assumption
    | dsimp only
    | with_reducible apply Keeps.ite
    | with_reducible apply Keeps.step (followRestored_keeps ..) (by decide)
    | with_reducible apply Keeps.step (State.setCrossing_keeps ..) (by decide)
    | with_reducible apply Keeps.step (State.setRec_keeps ..) (by decide)
    | with_reducible apply Keeps.step (firnWrite_keeps ..) (by decide)
    | with_reducible apply Keeps.iteSnd
    | with_reducible apply Keeps.iteFst
    | with_reducible apply Keeps.foldl (fun _ _ => ?_)
    | with_reducible apply Keeps.foldlPair (fun _ _ => ?_)
    | split

theorem intoBarrier_keeps (a0) (s : State) : Keeps [.regs, .src, .firn, .hostq, .trc] s (intoBarrier a0 s) := by
  unfold intoBarrier
  repeat' first
    | with_reducible exact Keeps.refl
    | assumption
    | dsimp only
    | with_reducible apply Keeps.ite
    | with_reducible apply Keeps.step (State.inc_keeps ..) (by decide)
    | with_reducible apply Keeps.step (firnWrite_keeps ..) (by decide)
    | with_reducible apply Keeps.iteSnd
    | with_reducible apply Keeps.iteFst
    | with_reducible apply Keeps.foldl (fun _ _ => ?_)
    | with_reducible apply Keeps.foldlPair (fun _ _ => ?_)
    | fail_if_no_progress with_reducible apply Keeps.firn (by decide)
    | fail_if_no_progress with_reducible apply Keeps.hostq (by decide)
    | fail_if_no_progress with_reducible apply Keeps.firn_hostq (by decide) (by decide)

theorem observe_keeps (a0) (s : State) : Keeps [.regs] s (observe a0 s) := by
  unfold observe
  repeat' first
    | with_reducible exact Keeps.refl
    | assumption
    | dsimp only
    | with_reducible apply Keeps.ite
    | with_reducible apply Keeps.step (State.raise_keeps ..) (by decide)
    | with_reducible apply Keeps.step (State.wr_keeps ..) (by decide)
    | with_reducible apply Keeps.each (fun _ _ => ?_)

theorem noteMigrate_keeps (a0) (a1) (s : State) : Keeps [.rec_] s (noteMigrate a0 a1 s) := by
  unfold noteMigrate
  repeat' first
    | with_reducible exact Keeps.refl
    | assumption
    | dsimp only
    | with_reducible apply Keeps.ite
    | with_reducible apply Keeps.iteSnd
    | with_reducible apply Keeps.iteFst
    | with_reducible apply Keeps.foldl (fun _ _ => ?_)
    | with_reducible apply Keeps.foldlPair (fun _ _ => ?_)
    | fail_if_no_progress with_reducible apply Keeps.rec_ (by decide)

theorem forwardTo_keeps (a0) (a1) (s : State) : Keeps [.regs, .src, .firn, .xb, .rq, .lnk, .rec_, .hostq, .trc] s (forwardTo a0 a1 s) := by
  unfold forwardTo
  repeat' first
    | with_reducible exact Keeps.refl
    | assumption
    | dsimp only
    | with_reducible apply Keeps.ite
    | with_reducible apply Keeps.step (State.inc_keeps ..) (by decide)
    | with_reducible apply Keeps.step (State.setPort_keeps ..) (by decide)
    | with_reducible apply Keeps.step (intoBarrier_keeps ..) (by decide)
    | with_reducible apply Keeps.step (intoCrossing_keeps ..) (by decide)
    | with_reducible apply Keeps.step (noteMigrate_keeps ..) (by decide)
    | with_reducible apply Keeps.step (observe_keeps ..) (by decide)
    | with_reducible apply Keeps.step (trace_keeps ..) (by decide)
    | with_reducible apply Keeps.iteSnd
    | with_reducible apply Keeps.iteFst
    | with_reducible apply Keeps.foldl (fun _ _ => ?_)
    | with_reducible apply Keeps.foldlPair (fun _ _ => ?_)
    | fail_if_no_progress with_reducible apply Keeps.xb (by decide)

theorem dropOwed_keeps (a0) (s : State) : Keeps [.xb] s (dropOwed a0 s) := by
  unfold dropOwed
  repeat' first
    | with_reducible exact Keeps.refl
    | assumption
    | dsimp only
    | with_reducible apply Keeps.ite
    | with_reducible apply Keeps.step (State.setBuf_keeps ..) (by decide)

theorem schedMove_keeps (a0) (a1) (s : State) : Keeps [.regs, .src, .firn, .xb, .rq, .lnk, .rec_, .pwr, .hostq, .trc] s (schedMove a0 a1 s) := by
  unfold schedMove
  repeat' first
    | with_reducible exact Keeps.refl
    | assumption
    | dsimp only
    | with_reducible apply Keeps.ite
    | with_reducible apply Keeps.step (State.inc_keeps ..) (by decide)
    | with_reducible apply Keeps.step (State.setBuf_keeps ..) (by decide)
    | with_reducible apply Keeps.step (dropOwed_keeps ..) (by decide)
    | with_reducible apply Keeps.step (forwardTo_keeps ..) (by decide)
    | with_reducible apply Keeps.step (lostInTransport_keeps ..) (by decide)
    | with_reducible apply Keeps.each (fun _ _ => ?_)
    | with_reducible apply Keeps.iteSnd
    | with_reducible apply Keeps.iteFst
    | with_reducible apply Keeps.foldl (fun _ _ => ?_)
    | with_reducible apply Keeps.foldlPair (fun _ _ => ?_)
    | split

theorem stagingMove_keeps (a0) (s : State) : Keeps [.xb] s (stagingMove a0 s) := by
  unfold stagingMove
  repeat' first
    | with_reducible exact Keeps.refl
    | assumption
    | dsimp only
    | with_reducible apply Keeps.ite
    | with_reducible apply Keeps.step (State.setBuf_keeps ..) (by decide)
    | with_reducible apply Keeps.step (State.setStaging_keeps ..) (by decide)
    | with_reducible apply Keeps.iteSnd
    | with_reducible apply Keeps.iteFst
    | with_reducible apply Keeps.foldl (fun _ _ => ?_)
    | with_reducible apply Keeps.foldlPair (fun _ _ => ?_)
    | split

theorem noteResolved_keeps (a0) (s : State) : Keeps [.lnk] s (noteResolved a0 s) := by
  unfold noteResolved
  repeat' first
    | with_reducible exact Keeps.refl
    | assumption
    | dsimp only
    | with_reducible apply Keeps.ite
    | with_reducible apply Keeps.step (State.setPort_keeps ..) (by decide)

theorem schedCycle_keeps (a0) (s : State) : Keeps [.regs, .src, .firn, .xb, .rq, .lnk, .rec_, .pwr, .hostq, .trc] s (schedCycle a0 s) := by
  unfold schedCycle
  repeat' first
    | with_reducible exact Keeps.refl
    | assumption
    | dsimp only
    | with_reducible apply Keeps.ite
    | with_reducible apply Keeps.step (noteResolved_keeps ..) (by decide)
    | with_reducible apply Keeps.step (pumpAll_keeps ..) (by decide)
    | with_reducible apply Keeps.step (schedMove_keeps ..) (by decide)
    | with_reducible apply Keeps.step (stagingMove_keeps ..) (by decide)
    | with_reducible apply Keeps.each (fun _ _ => ?_)
    | with_reducible apply Keeps.iteSnd
    | with_reducible apply Keeps.iteFst
    | with_reducible apply Keeps.foldl (fun _ _ => ?_)
    | with_reducible apply Keeps.foldlPair (fun _ _ => ?_)
    | fail_if_no_progress with_reducible apply Keeps.xb (by decide)

theorem reroute_keeps (a0) (s : State) : Keeps [.regs, .xb] s (reroute a0 s) := by
  unfold reroute
  repeat' first
    | with_reducible exact Keeps.refl
    | assumption
    | dsimp only
    | with_reducible apply Keeps.ite
    | with_reducible apply Keeps.step (State.setBuf_keeps ..) (by decide)
    | with_reducible apply Keeps.step (State.setRing_keeps ..) (by decide)
    | with_reducible apply Keeps.step (State.setStaging_keeps ..) (by decide)
    | with_reducible apply Keeps.step (takeRoutes_keeps ..) (by decide)
    | with_reducible apply Keeps.each (fun _ _ => ?_)
    | with_reducible apply Keeps.iteSnd
    | with_reducible apply Keeps.iteFst
    | with_reducible apply Keeps.foldl (fun _ _ => ?_)
    | with_reducible apply Keeps.foldlPair (fun _ _ => ?_)
    | split

end Sys2Proof.Machine
end

