-- ==== Sys2Proof/Laws/KeepsCustody.lean ====
section
/-! SUPPORT. What the operations of Machine/Custody.lean leave alone. -/

namespace Sys2Proof.Machine

theorem freeEvent_keeps (a0) (a1) (s : State) : Keeps [.regs, .src, .firn, .xb, .pwr, .trc] s (freeEvent a0 a1 s) := by
  unfold freeEvent
  repeat' first
    | with_reducible exact Keeps.refl
    | assumption
    | dsimp only
    | with_reducible apply Keeps.ite
    | with_reducible apply Keeps.step (State.setRec_keeps ..) (by decide)
    | with_reducible apply Keeps.step (sendFence_keeps ..) (by decide)
    | with_reducible apply Keeps.each (fun _ _ => ?_)

theorem releaseEvent_keeps (a0) (a1) (s : State) : Keeps [.regs, .src, .firn, .xb, .pwr, .trc] s (releaseEvent a0 a1 s) := by
  unfold releaseEvent
  repeat' first
    | with_reducible exact Keeps.refl
    | assumption
    | dsimp only
    | with_reducible apply Keeps.ite
    | with_reducible apply Keeps.step (State.setRec_keeps ..) (by decide)
    | with_reducible apply Keeps.step (freeEvent_keeps ..) (by decide)
    | with_reducible apply Keeps.step (sendCtl_keeps ..) (by decide)
    | with_reducible apply Keeps.iteSnd
    | with_reducible apply Keeps.iteFst
    | with_reducible apply Keeps.foldl (fun _ _ => ?_)
    | with_reducible apply Keeps.foldlPair (fun _ _ => ?_)
    | split

theorem applyDone_keeps (a0) (a1) (a2) (s : State) : Keeps [.regs, .src, .acc, .firn, .xb, .pwr, .trc] s (applyDone a0 a1 a2 s) := by
  unfold applyDone
  repeat' first
    | with_reducible exact Keeps.refl
    | assumption
    | dsimp only
    | with_reducible apply Keeps.ite
    | with_reducible apply Keeps.step (State.setRec_keeps ..) (by decide)
    | with_reducible apply Keeps.step (releaseEvent_keeps ..) (by decide)
    | with_reducible apply Keeps.iteSnd
    | with_reducible apply Keeps.iteFst
    | with_reducible apply Keeps.foldl (fun _ _ => ?_)
    | with_reducible apply Keeps.foldlPair (fun _ _ => ?_)
    | fail_if_no_progress with_reducible apply Keeps.acc (by decide)
    | split

theorem freeCustody_keeps (a0) (a1) (s : State) : Keeps [.firn] s (freeCustody a0 a1 s) := by
  unfold freeCustody
  repeat' first
    | with_reducible exact Keeps.refl
    | assumption
    | dsimp only
    | with_reducible apply Keeps.ite
    | with_reducible apply Keeps.step (State.setRec_keeps ..) (by decide)

theorem completeReplica_keeps (a0) (a1) (s : State) : Keeps [.regs, .src, .acc, .firn, .xb, .pwr, .trc] s (completeReplica a0 a1 s) := by
  unfold completeReplica
  repeat' first
    | with_reducible exact Keeps.refl
    | assumption
    | dsimp only
    | with_reducible apply Keeps.ite
    | with_reducible apply Keeps.step (State.setRec_keeps ..) (by decide)
    | with_reducible apply Keeps.step (applyDone_keeps ..) (by decide)
    | with_reducible apply Keeps.step (freeCustody_keeps ..) (by decide)
    | with_reducible apply Keeps.step (sendFence_keeps ..) (by decide)

theorem completeHost_keeps (a0) (a1) (s : State) : Keeps [.regs, .src, .acc, .firn, .xb, .pwr, .trc] s (completeHost a0 a1 s) := by
  unfold completeHost
  repeat' first
    | with_reducible exact Keeps.refl
    | assumption
    | dsimp only
    | with_reducible apply Keeps.ite
    | with_reducible apply Keeps.step (State.setRec_keeps ..) (by decide)
    | with_reducible apply Keeps.step (applyDone_keeps ..) (by decide)
    | with_reducible apply Keeps.step (freeCustody_keeps ..) (by decide)
    | with_reducible apply Keeps.step (pumpBar_keeps ..) (by decide)
    | with_reducible apply Keeps.iteSnd
    | with_reducible apply Keeps.iteFst
    | with_reducible apply Keeps.foldl (fun _ _ => ?_)
    | with_reducible apply Keeps.foldlPair (fun _ _ => ?_)
    | fail_if_no_progress with_reducible apply Keeps.xb (by decide)

theorem sendDone_keeps (a0) (s : State) : Keeps [.firn] s (sendDone a0 s) := by
  unfold sendDone
  repeat' first
    | with_reducible exact Keeps.refl
    | assumption
    | dsimp only
    | with_reducible apply Keeps.ite
    | with_reducible apply Keeps.iteSnd
    | with_reducible apply Keeps.iteFst
    | with_reducible apply Keeps.foldl (fun _ _ => ?_)
    | with_reducible apply Keeps.foldlPair (fun _ _ => ?_)
    | fail_if_no_progress with_reducible apply Keeps.firn (by decide)

theorem markUnreachable_keeps (a0) (s : State) : Keeps [.regs, .src, .acc, .firn, .xb, .pwr, .trc] s (markUnreachable a0 s) := by
  unfold markUnreachable
  repeat' first
    | with_reducible exact Keeps.refl
    | assumption
    | dsimp only
    | with_reducible apply Keeps.ite
    | with_reducible apply Keeps.step (freeEvent_keeps ..) (by decide)
    | with_reducible apply Keeps.step (raiseInt_keeps ..) (by decide)
    | with_reducible apply Keeps.each (fun _ _ => ?_)
    | with_reducible apply Keeps.iteSnd
    | with_reducible apply Keeps.iteFst
    | with_reducible apply Keeps.foldl (fun _ _ => ?_)
    | with_reducible apply Keeps.foldlPair (fun _ _ => ?_)
    | fail_if_no_progress with_reducible apply Keeps.acc (by decide)

theorem startResync_keeps (a0) (s : State) : Keeps [.regs, .src, .xb, .rec_, .pwr, .trc] s (startResync a0 s) := by
  unfold startResync
  repeat' first
    | with_reducible exact Keeps.refl
    | assumption
    | dsimp only
    | with_reducible apply Keeps.ite
    | with_reducible apply Keeps.step (sendCtl_keeps ..) (by decide)
    | with_reducible apply Keeps.each (fun _ _ => ?_)
    | with_reducible apply Keeps.iteSnd
    | with_reducible apply Keeps.iteFst
    | with_reducible apply Keeps.foldl (fun _ _ => ?_)
    | with_reducible apply Keeps.foldlPair (fun _ _ => ?_)
    | fail_if_no_progress with_reducible apply Keeps.rec_ (by decide)

theorem pairHeard_keeps (a0) (s : State) : Keeps [.regs, .src, .xb, .rec_, .pwr, .trc] s (pairHeard a0 s) := by
  unfold pairHeard
  repeat' first
    | with_reducible exact Keeps.refl
    | assumption
    | dsimp only
    | with_reducible apply Keeps.ite
    | with_reducible apply Keeps.step (startResync_keeps ..) (by decide)
    | with_reducible apply Keeps.iteSnd
    | with_reducible apply Keeps.iteFst
    | with_reducible apply Keeps.foldl (fun _ _ => ?_)
    | with_reducible apply Keeps.foldlPair (fun _ _ => ?_)

theorem resyncRecorded_keeps (a0) (a1) (s : State) : Keeps [.acc, .rec_] s (resyncRecorded a0 a1 s) := by
  unfold resyncRecorded
  repeat' first
    | with_reducible exact Keeps.refl
    | assumption
    | dsimp only
    | with_reducible apply Keeps.ite
    | with_reducible apply Keeps.iteSnd
    | with_reducible apply Keeps.iteFst
    | with_reducible apply Keeps.foldl (fun _ _ => ?_)
    | with_reducible apply Keeps.foldlPair (fun _ _ => ?_)
    | fail_if_no_progress with_reducible apply Keeps.rec_ (by decide)
    | fail_if_no_progress with_reducible apply Keeps.acc (by decide)
    | fail_if_no_progress with_reducible apply Keeps.acc_rec_ (by decide) (by decide)

theorem restoreScope_keeps (a0) (s : State) : Keeps [.regs, .src, .firn, .xb, .pwr, .trc] s (restoreScope a0 s) := by
  unfold restoreScope
  repeat' first
    | with_reducible exact Keeps.refl
    | assumption
    | dsimp only
    | with_reducible apply Keeps.ite
    | with_reducible apply Keeps.step (State.inc_keeps ..) (by decide)
    | with_reducible apply Keeps.step (State.setRec_keeps ..) (by decide)
    | with_reducible apply Keeps.step (sendRec_keeps ..) (by decide)
    | with_reducible apply Keeps.each (fun _ _ => ?_)

theorem probeRecord_keeps (a0) (s : State) : Keeps [.regs, .src, .firn, .xb, .pwr, .trc] s (probeRecord a0 s) := by
  unfold probeRecord
  repeat' first
    | with_reducible exact Keeps.refl
    | assumption
    | dsimp only
    | with_reducible apply Keeps.ite
    | with_reducible apply Keeps.step (State.setRec_keeps ..) (by decide)
    | with_reducible apply Keeps.step (sendFence_keeps ..) (by decide)
    | with_reducible apply Keeps.each (fun _ _ => ?_)
    | with_reducible apply Keeps.iteSnd
    | with_reducible apply Keeps.iteFst
    | with_reducible apply Keeps.foldl (fun _ _ => ?_)
    | with_reducible apply Keeps.foldlPair (fun _ _ => ?_)
    | split

theorem probeAll_keeps (s : State) : Keeps [.regs, .src, .firn, .xb, .pwr, .trc] s (probeAll s) := by
  unfold probeAll
  repeat' first
    | with_reducible exact Keeps.refl
    | assumption
    | dsimp only
    | with_reducible apply Keeps.ite
    | with_reducible apply Keeps.step (probeRecord_keeps ..) (by decide)
    | with_reducible apply Keeps.each (fun _ _ => ?_)

theorem resendDones_keeps (a0) (s : State) : Keeps [.regs, .src, .xb, .pwr, .trc] s (resendDones a0 s) := by
  unfold resendDones
  repeat' first
    | with_reducible exact Keeps.refl
    | assumption
    | dsimp only
    | with_reducible apply Keeps.ite
    | with_reducible apply Keeps.step (sendFence_keeps ..) (by decide)
    | with_reducible apply Keeps.each (fun _ _ => ?_)

theorem addTakeover_keeps (a0) (s : State) : Keeps [.rec_] s (addTakeover a0 s) := by
  unfold addTakeover
  repeat' first
    | with_reducible exact Keeps.refl
    | assumption
    | dsimp only
    | with_reducible apply Keeps.ite
    | with_reducible apply Keeps.iteSnd
    | with_reducible apply Keeps.iteFst
    | with_reducible apply Keeps.foldl (fun _ _ => ?_)
    | with_reducible apply Keeps.foldlPair (fun _ _ => ?_)
    | fail_if_no_progress with_reducible apply Keeps.rec_ (by decide)
    | split

theorem startTakeover_keeps (a0) (s : State) : Keeps [.regs, .src, .xb, .rec_, .pwr, .trc] s (startTakeover a0 s) := by
  unfold startTakeover
  repeat' first
    | with_reducible exact Keeps.refl
    | assumption
    | dsimp only
    | with_reducible apply Keeps.ite
    | with_reducible apply Keeps.step (addTakeover_keeps ..) (by decide)
    | with_reducible apply Keeps.step (State.raise_keeps ..) (by decide)
    | with_reducible apply Keeps.step (State.wr_keeps ..) (by decide)
    | with_reducible apply Keeps.step (broadcast_keeps ..) (by decide)
    | with_reducible apply Keeps.iteSnd
    | with_reducible apply Keeps.iteFst
    | with_reducible apply Keeps.foldl (fun _ _ => ?_)
    | with_reducible apply Keeps.foldlPair (fun _ _ => ?_)
    | fail_if_no_progress with_reducible apply Keeps.rec_ (by decide)

theorem takeCtl_keeps {w : List Part} {s0 s : State} (hw : [.xb] ⊆ w) (a0) {a1} (h1 : ∀ s, Keeps w s (a1 s))
    (h : Keeps w s0 s) : Keeps w s0 (takeCtl a0 a1 s) := by
  unfold takeCtl
  repeat' first
    | with_reducible exact Keeps.refl
    | assumption
    | dsimp only
    | with_reducible apply Keeps.ite
    | with_reducible apply Keeps.iteSnd
    | with_reducible apply Keeps.iteFst
    | with_reducible apply Keeps.foldl (fun _ _ => ?_)
    | with_reducible apply Keeps.foldlPair (fun _ _ => ?_)
    | with_reducible apply Keeps.trans ?_ (h1 _)
    | fail_if_no_progress with_reducible apply Keeps.xb (Keeps.mem hw (by decide))
    | split

theorem takeRec_keeps {w : List Part} {s0 s : State} (hw : [.xb] ⊆ w) (a0) {a1} (h1 : ∀ s, Keeps w s (a1 s))
    (h : Keeps w s0 s) : Keeps w s0 (takeRec a0 a1 s) := by
  unfold takeRec
  repeat' first
    | with_reducible exact Keeps.refl
    | assumption
    | dsimp only
    | with_reducible apply Keeps.ite
    | with_reducible apply Keeps.iteSnd
    | with_reducible apply Keeps.iteFst
    | with_reducible apply Keeps.foldl (fun _ _ => ?_)
    | with_reducible apply Keeps.foldlPair (fun _ _ => ?_)
    | with_reducible apply Keeps.trans ?_ (h1 _)
    | fail_if_no_progress with_reducible apply Keeps.xb (Keeps.mem hw (by decide))
    | split

end Sys2Proof.Machine
end

