-- ==== Sys2Proof/Laws/KeepsLinks.lean ====
section
/-! SUPPORT. What the operations of Machine/Links.lean leave alone. -/

namespace Sys2Proof.Machine

theorem sendSlot_keeps (a0) (a1) (s : State) : Keeps [.out, .lnk] s (sendSlot a0 a1 s) := by
  unfold sendSlot
  repeat' first
    | with_reducible exact Keeps.refl
    | assumption
    | dsimp only
    | with_reducible apply Keeps.ite
    | with_reducible apply Keeps.step (State.setPort_keeps ..) (by decide)
    | with_reducible apply Keeps.step (State.emit_keeps ..) (by decide)
    | with_reducible apply Keeps.iteSnd
    | with_reducible apply Keeps.iteFst
    | with_reducible apply Keeps.foldl (fun _ _ => ?_)
    | with_reducible apply Keeps.foldlPair (fun _ _ => ?_)

theorem sendFrame_keeps (a0) (a1) (s : State) : Keeps [.out, .lnk] s (sendFrame a0 a1 s) := by
  unfold sendFrame
  repeat' first
    | with_reducible exact Keeps.refl
    | assumption
    | dsimp only
    | with_reducible apply Keeps.ite
    | with_reducible apply Keeps.step (sendSlot_keeps ..) (by decide)
    | with_reducible apply Keeps.step (State.setPort_keeps ..) (by decide)
    | split

theorem queueCtl_keeps (a0) (a1) (s : State) : Keeps [.lnk] s (queueCtl a0 a1 s) := by
  unfold queueCtl
  repeat' first
    | with_reducible exact Keeps.refl
    | assumption
    | dsimp only
    | with_reducible apply Keeps.ite
    | with_reducible apply Keeps.step (State.setPort_keeps ..) (by decide)

theorem sendCtlFrame_keeps (a0) (a1) (s : State) : Keeps [.out, .time, .lnk] s (sendCtlFrame a0 a1 s) := by
  unfold sendCtlFrame
  repeat' first
    | with_reducible exact Keeps.refl
    | assumption
    | dsimp only
    | with_reducible apply Keeps.ite
    | with_reducible apply Keeps.step (sendFrame_keeps ..) (by decide)
    | with_reducible apply Keeps.step (State.setPort_keeps ..) (by decide)
    | with_reducible apply Keeps.iteSnd
    | with_reducible apply Keeps.iteFst
    | with_reducible apply Keeps.foldl (fun _ _ => ?_)
    | with_reducible apply Keeps.foldlPair (fun _ _ => ?_)
    | fail_if_no_progress with_reducible apply Keeps.time (by decide)

theorem linkBeat_keeps (a0) (a1) (s : State) : Keeps [.out, .regs, .time, .lnk] s (linkBeat a0 a1 s) := by
  unfold linkBeat
  repeat' first
    | with_reducible exact Keeps.refl
    | assumption
    | dsimp only
    | with_reducible apply Keeps.ite
    | with_reducible apply Keeps.step (State.inc_keeps ..) (by decide)
    | with_reducible apply Keeps.step (sendCtlFrame_keeps ..) (by decide)
    | with_reducible apply Keeps.step (State.setPort_keeps ..) (by decide)
    | with_reducible apply Keeps.step (sendFrame_keeps ..) (by decide)
    | with_reducible apply Keeps.iteSnd
    | with_reducible apply Keeps.iteFst
    | with_reducible apply Keeps.foldl (fun _ _ => ?_)
    | with_reducible apply Keeps.foldlPair (fun _ _ => ?_)
    | split

theorem sendTrain_keeps (a0) (a1) (s : State) : Keeps [.out] s (sendTrain a0 a1 s) := by
  unfold sendTrain
  repeat' first
    | with_reducible exact Keeps.refl
    | assumption
    | dsimp only
    | with_reducible apply Keeps.ite
    | with_reducible apply Keeps.step (State.emit_keeps ..) (by decide)

theorem testSlot_keeps (a0) (s : State) : Keeps [.out, .tst] s (testSlot a0 s) := by
  unfold testSlot
  repeat' first
    | with_reducible exact Keeps.refl
    | assumption
    | dsimp only
    | with_reducible apply Keeps.ite
    | with_reducible apply Keeps.step (State.emit_keeps ..) (by decide)
    | with_reducible apply Keeps.iteSnd
    | with_reducible apply Keeps.iteFst
    | with_reducible apply Keeps.foldl (fun _ _ => ?_)
    | with_reducible apply Keeps.foldlPair (fun _ _ => ?_)
    | fail_if_no_progress with_reducible apply Keeps.tst (by decide)

theorem idleSlot_keeps (a0) (s : State) : Keeps [.out, .lnk, .tst] s (idleSlot a0 s) := by
  unfold idleSlot
  repeat' first
    | with_reducible exact Keeps.refl
    | assumption
    | dsimp only
    | with_reducible apply Keeps.ite
    | with_reducible apply Keeps.step (testSlot_keeps ..) (by decide)
    | with_reducible apply Keeps.step (sendSlot_keeps ..) (by decide)
    | with_reducible apply Keeps.step (sendTrain_keeps ..) (by decide)
    | with_reducible apply Keeps.step (State.setPort_keeps ..) (by decide)
    | with_reducible apply Keeps.step (sendFrame_keeps ..) (by decide)
    | split

theorem tryDetect_keeps (a0) (s : State) : Keeps [.lnk] s (tryDetect a0 s) := by
  unfold tryDetect
  repeat' first
    | with_reducible exact Keeps.refl
    | assumption
    | dsimp only
    | with_reducible apply Keeps.ite
    | with_reducible apply Keeps.step (State.setPort_keeps ..) (by decide)

theorem goOff_keeps (a0) (s : State) : Keeps [.lnk] s (goOff a0 s) := by
  unfold goOff
  repeat' first
    | with_reducible exact Keeps.refl
    | assumption
    | dsimp only
    | with_reducible apply Keeps.ite
    | with_reducible apply Keeps.step (State.setPort_keeps ..) (by decide)

theorem inState_keeps {w : List Part} {s0 s : State} (hw : [] ⊆ w) (a0) (a1) {a2} (h2 : ∀ s, Keeps w s (a2 s))
    (h : Keeps w s0 s) : Keeps w s0 (inState a0 a1 a2 s) := by
  unfold inState
  repeat' first
    | with_reducible exact Keeps.refl
    | assumption
    | dsimp only
    | with_reducible apply Keeps.ite
    | with_reducible apply Keeps.iteSnd
    | with_reducible apply Keeps.iteFst
    | with_reducible apply Keeps.foldl (fun _ _ => ?_)
    | with_reducible apply Keeps.foldlPair (fun _ _ => ?_)
    | with_reducible apply Keeps.trans ?_ (h2 _)

theorem train_keeps (a0) (a1) (s : State) : Keeps [.lnk] s (train a0 a1 s) := by
  unfold train
  repeat' first
    | with_reducible exact Keeps.refl
    | assumption
    | dsimp only
    | with_reducible apply Keeps.ite
    | with_reducible apply Keeps.step (State.setPort_keeps ..) (by decide)

theorem takenThere_keeps (a0) (s : State) : Keeps [.firn] s (takenThere a0 s) := by
  unfold takenThere
  repeat' first
    | with_reducible exact Keeps.refl
    | assumption
    | dsimp only
    | with_reducible apply Keeps.ite
    | with_reducible apply Keeps.step (State.setRec_keeps ..) (by decide)
    | with_reducible apply Keeps.iteSnd
    | with_reducible apply Keeps.iteFst
    | with_reducible apply Keeps.foldl (fun _ _ => ?_)
    | with_reducible apply Keeps.foldlPair (fun _ _ => ?_)
    | split

theorem noteDown_keeps (a0) (a1) (a2) (s : State) : Keeps [.regs, .src, .trc] s (noteDown a0 a1 a2 s) := by
  unfold noteDown
  repeat' first
    | with_reducible exact Keeps.refl
    | assumption
    | dsimp only
    | with_reducible apply Keeps.ite
    | with_reducible apply Keeps.step (State.inc_keeps ..) (by decide)
    | with_reducible apply Keeps.step (State.wr_keeps ..) (by decide)
    | with_reducible apply Keeps.step (raiseInt_keeps ..) (by decide)

theorem portDown_keeps (a0) (a1) (a2) (s : State) : Keeps [.regs, .time, .src, .xb, .arb, .lnk, .trc] s (portDown a0 a1 a2 s) := by
  unfold portDown
  repeat' first
    | with_reducible exact Keeps.refl
    | assumption
    | dsimp only
    | with_reducible apply Keeps.ite
    | with_reducible apply Keeps.step (State.inc_keeps ..) (by decide)
    | with_reducible apply Keeps.step (State.setArb_keeps ..) (by decide)
    | with_reducible apply Keeps.step (State.setPort_keeps ..) (by decide)
    | with_reducible apply Keeps.step (noteDown_keeps ..) (by decide)
    | with_reducible apply Keeps.iteSnd
    | with_reducible apply Keeps.iteFst
    | with_reducible apply Keeps.foldl (fun _ _ => ?_)
    | with_reducible apply Keeps.foldlPair (fun _ _ => ?_)
    | fail_if_no_progress with_reducible apply Keeps.xb (by decide)
    | fail_if_no_progress with_reducible apply Keeps.time (by decide)
    | fail_if_no_progress with_reducible apply Keeps.time_xb (by decide) (by decide)
    | split

theorem downIfUp_keeps (a0) (a1) (s : State) : Keeps [.regs, .time, .src, .xb, .arb, .lnk, .trc] s (downIfUp a0 a1 s) := by
  unfold downIfUp
  repeat' first
    | intro _
    | with_reducible exact Keeps.refl
    | assumption
    | dsimp only
    | with_reducible apply Keeps.ite
    | with_reducible apply inState_keeps (by decide)
    | with_reducible apply Keeps.step (portDown_keeps ..) (by decide)

theorem resolve_keeps (a0) (a1) (a2) (s : State) : Keeps [.regs, .src, .firn, .xb, .lnk, .pwr, .trc] s (resolve a0 a1 a2 s) := by
  unfold resolve
  repeat' first
    | with_reducible exact Keeps.refl
    | assumption
    | dsimp only
    | with_reducible apply Keeps.ite
    | with_reducible apply Keeps.step (State.inc_keeps ..) (by decide)
    | with_reducible apply Keeps.step (State.setPort_keeps ..) (by decide)
    | with_reducible apply Keeps.step (noteResolved_keeps ..) (by decide)
    | with_reducible apply Keeps.step (pumpRec_keeps ..) (by decide)
    | with_reducible apply Keeps.step (takenThere_keeps ..) (by decide)
    | with_reducible apply Keeps.each (fun _ _ => ?_)
    | with_reducible apply Keeps.iteSnd
    | with_reducible apply Keeps.iteFst
    | with_reducible apply Keeps.foldl (fun _ _ => ?_)
    | with_reducible apply Keeps.foldlPair (fun _ _ => ?_)
    | fail_if_no_progress with_reducible apply Keeps.xb (by decide)

theorem resolveWith_keeps (a0) (a1) (a2) (s : State) : Keeps [.regs, .src, .firn, .xb, .lnk, .pwr, .trc] s (resolveWith a0 a1 a2 s) := by
  unfold resolveWith
  repeat' first
    | with_reducible exact Keeps.refl
    | assumption
    | dsimp only
    | with_reducible apply Keeps.ite
    | with_reducible apply Keeps.step (resolve_keeps ..) (by decide)

theorem enterCredit_keeps (a0) (s : State) : Keeps [.out, .lnk] s (enterCredit a0 s) := by
  unfold enterCredit
  repeat' first
    | with_reducible exact Keeps.refl
    | assumption
    | dsimp only
    | with_reducible apply Keeps.ite
    | with_reducible apply Keeps.step (sendTrain_keeps ..) (by decide)
    | with_reducible apply Keeps.step (train_keeps ..) (by decide)
    | with_reducible apply Keeps.step (State.setPort_keeps ..) (by decide)
    | with_reducible apply Keeps.iteSnd
    | with_reducible apply Keeps.iteFst
    | with_reducible apply Keeps.foldl (fun _ _ => ?_)
    | with_reducible apply Keeps.foldlPair (fun _ _ => ?_)

theorem lnkWritten_keeps (a0) (a1) (s : State) : Keeps [.regs, .time, .src, .xb, .arb, .lnk, .trc] s (lnkWritten a0 a1 s) := by
  unfold lnkWritten
  repeat' first
    | with_reducible exact Keeps.refl
    | assumption
    | dsimp only
    | with_reducible apply Keeps.ite
    | with_reducible apply Keeps.step (downIfUp_keeps ..) (by decide)
    | with_reducible apply Keeps.step (goOff_keeps ..) (by decide)
    | with_reducible apply Keeps.step (portDown_keeps ..) (by decide)
    | with_reducible apply Keeps.step (tryDetect_keeps ..) (by decide)

theorem lnkDomainOff_keeps (a0) (s : State) : Keeps [.regs, .time, .src, .xb, .arb, .lnk, .trc] s (lnkDomainOff a0 s) := by
  unfold lnkDomainOff
  repeat' first
    | with_reducible exact Keeps.refl
    | assumption
    | dsimp only
    | with_reducible apply Keeps.ite
    | with_reducible apply Keeps.step (State.setArb_keeps ..) (by decide)
    | with_reducible apply Keeps.step (goOff_keeps ..) (by decide)
    | with_reducible apply Keeps.step (portDown_keeps ..) (by decide)

theorem failFrame_keeps (a0) (s : State) : Keeps [.regs, .time, .src, .xb, .arb, .lnk, .trc] s (failFrame a0 s) := by
  unfold failFrame
  repeat' first
    | with_reducible exact Keeps.refl
    | assumption
    | dsimp only
    | with_reducible apply Keeps.ite
    | with_reducible apply Keeps.step (State.setPort_keeps ..) (by decide)
    | with_reducible apply Keeps.step (downIfUp_keeps ..) (by decide)

theorem sendNak_keeps (a0) (s : State) : Keeps [.lnk] s (sendNak a0 s) := by
  unfold sendNak
  repeat' first
    | with_reducible exact Keeps.refl
    | assumption
    | dsimp only
    | with_reducible apply Keeps.ite
    | with_reducible apply Keeps.step (State.setPort_keeps ..) (by decide)
    | with_reducible apply Keeps.step (queueCtl_keeps ..) (by decide)

theorem takeCredit_keeps (a0) (a1) (s : State) : Keeps [.lnk] s (takeCredit a0 a1 s) := by
  unfold takeCredit
  repeat' first
    | with_reducible exact Keeps.refl
    | assumption
    | dsimp only
    | with_reducible apply Keeps.ite
    | with_reducible apply Keeps.step (State.setPort_keeps ..) (by decide)

theorem rxFrame_keeps {w : List Part} {s0 s : State} (hw : [.regs, .time, .src, .xb, .arb, .lnk, .trc] ⊆ w) (a0) (a1) {a2} {a3} (h2 : ∀ s, Keeps w s (a2 s)) (h3 : ∀ s, Keeps w s (a3 s))
    (h : Keeps w s0 s) : Keeps w s0 (rxFrame a0 a1 a2 a3 s) := by
  unfold rxFrame
  repeat' first
    | intro _
    | with_reducible exact Keeps.refl
    | assumption
    | dsimp only
    | with_reducible apply Keeps.ite
    | with_reducible apply Keeps.step (State.inc_keeps ..) (List.Subset.trans (by decide) hw)
    | with_reducible apply Keeps.step (State.setPort_keeps ..) (List.Subset.trans (by decide) hw)
    | with_reducible apply Keeps.step (failFrame_keeps ..) (List.Subset.trans (by decide) hw)
    | with_reducible apply inState_keeps (List.Subset.trans (by decide) hw)
    | with_reducible apply Keeps.step (takeCredit_keeps ..) (List.Subset.trans (by decide) hw)
    | with_reducible apply Keeps.iteSnd
    | with_reducible apply Keeps.iteFst
    | with_reducible apply Keeps.foldl (fun _ _ => ?_)
    | with_reducible apply Keeps.foldlPair (fun _ _ => ?_)
    | with_reducible apply Keeps.trans ?_ (h2 _)
    | with_reducible apply Keeps.trans ?_ (h3 _)

theorem takeData_keeps (a0) (a1) (s : State) : Keeps [.regs, .src, .xb, .lnk, .pwr, .trc] s (takeData a0 a1 s) := by
  unfold takeData
  repeat' first
    | with_reducible exact Keeps.refl
    | assumption
    | dsimp only
    | with_reducible apply Keeps.ite
    | with_reducible apply Keeps.step (State.inc_keeps ..) (by decide)
    | with_reducible apply Keeps.step (State.raise_keeps ..) (by decide)
    | with_reducible apply Keeps.step (State.setPort_keeps ..) (by decide)
    | with_reducible apply Keeps.step (pumpRx_keeps ..) (by decide)
    | with_reducible apply Keeps.step (trace_keeps ..) (by decide)

theorem startReplay_keeps (a0) (a1) (s : State) : Keeps [.regs, .time, .src, .xb, .arb, .lnk, .trc] s (startReplay a0 a1 s) := by
  unfold startReplay
  repeat' first
    | with_reducible exact Keeps.refl
    | assumption
    | dsimp only
    | with_reducible apply Keeps.ite
    | with_reducible apply Keeps.step (State.inc_keeps ..) (by decide)
    | with_reducible apply Keeps.step (State.setPort_keeps ..) (by decide)
    | with_reducible apply Keeps.step (downIfUp_keeps ..) (by decide)
    | with_reducible apply Keeps.iteSnd
    | with_reducible apply Keeps.iteFst
    | with_reducible apply Keeps.foldl (fun _ _ => ?_)
    | with_reducible apply Keeps.foldlPair (fun _ _ => ?_)
    | split

theorem freeFrames_keeps (a0) (a1) (s : State) : Keeps [.firn, .lnk] s (freeFrames a0 a1 s) := by
  unfold freeFrames
  repeat' first
    | with_reducible exact Keeps.refl
    | assumption
    | dsimp only
    | with_reducible apply Keeps.ite
    | with_reducible apply Keeps.step (State.setPort_keeps ..) (by decide)
    | with_reducible apply Keeps.step (takenThere_keeps ..) (by decide)
    | with_reducible apply Keeps.each (fun _ _ => ?_)
    | with_reducible apply Keeps.iteSnd
    | with_reducible apply Keeps.iteFst
    | with_reducible apply Keeps.foldl (fun _ _ => ?_)
    | with_reducible apply Keeps.foldlPair (fun _ _ => ?_)
    | split

theorem decodeBlock_keeps (a0) (a1) (a2) (a3) (a4) (s : State) : Keeps [.regs, .time, .src, .xb, .arb, .lnk, .trc] s (decodeBlock a0 a1 a2 a3 a4 s) := by
  unfold decodeBlock
  repeat' first
    | intro _
    | with_reducible exact Keeps.refl
    | assumption
    | dsimp only
    | with_reducible apply Keeps.ite
    | with_reducible apply Keeps.step (State.inc_keeps ..) (by decide)
    | with_reducible apply Keeps.step (State.setPort_keeps ..) (by decide)
    | with_reducible apply Keeps.step (failFrame_keeps ..) (by decide)
    | with_reducible apply inState_keeps (by decide)
    | with_reducible apply Keeps.step (sendNak_keeps ..) (by decide)
    | with_reducible apply Keeps.iteSnd
    | with_reducible apply Keeps.iteFst
    | with_reducible apply Keeps.foldl (fun _ _ => ?_)
    | with_reducible apply Keeps.foldlPair (fun _ _ => ?_)
    | split

theorem sendReport_keeps (a0) (a1) (s : State) : Keeps [.lnk] s (sendReport a0 a1 s) := by
  unfold sendReport
  repeat' first
    | with_reducible exact Keeps.refl
    | assumption
    | dsimp only
    | with_reducible apply Keeps.ite
    | with_reducible apply Keeps.step (queueCtl_keeps ..) (by decide)
    | with_reducible apply Keeps.iteSnd
    | with_reducible apply Keeps.iteFst
    | with_reducible apply Keeps.foldl (fun _ _ => ?_)
    | with_reducible apply Keeps.foldlPair (fun _ _ => ?_)
    | split

theorem resetPort_keeps (a0) (s : State) : Keeps [.lnk] s (resetPort a0 s) := by
  unfold resetPort
  repeat' first
    | with_reducible exact Keeps.refl
    | assumption
    | dsimp only
    | with_reducible apply Keeps.ite
    | with_reducible apply Keeps.step (State.setPort_keeps ..) (by decide)

end Sys2Proof.Machine
end

