-- ==== Sys2Proof/Laws/KeepsTransport.lean ====
section
/-! SUPPORT. What the operations of Machine/Transport.lean leave alone. -/

namespace Sys2Proof.Machine

theorem stageToRing_keeps (a0) (s : State) : Keeps [.xb] s (stageToRing a0 s) := by
  unfold stageToRing
  repeat' first
    | with_reducible exact Keeps.refl
    | assumption
    | dsimp only
    | with_reducible apply Keeps.ite
    | with_reducible apply Keeps.step (State.setStaging_keeps ..) (by decide)
    | with_reducible apply Keeps.step (State.setRing_keeps ..) (by decide)
    | with_reducible apply Keeps.iteSnd
    | with_reducible apply Keeps.iteFst
    | with_reducible apply Keeps.foldl (fun _ _ => ?_)
    | with_reducible apply Keeps.foldlPair (fun _ _ => ?_)
    | fail_if_no_progress with_reducible apply Keeps.xb (by decide)

theorem ringToBuf_keeps (a0) (a1) (s : State) : Keeps [.xb] s (ringToBuf a0 a1 s) := by
  unfold ringToBuf
  repeat' first
    | with_reducible exact Keeps.refl
    | assumption
    | dsimp only
    | with_reducible apply Keeps.ite
    | with_reducible apply Keeps.step (State.setRing_keeps ..) (by decide)
    | with_reducible apply Keeps.step (State.setBuf_keeps ..) (by decide)
    | with_reducible apply Keeps.iteSnd
    | with_reducible apply Keeps.iteFst
    | with_reducible apply Keeps.foldl (fun _ _ => ?_)
    | with_reducible apply Keeps.foldlPair (fun _ _ => ?_)
    | split

theorem spillBeat_keeps (a0) (s : State) : Keeps [.xb] s (spillBeat a0 s) := by
  unfold spillBeat
  repeat' first
    | assumption
    | dsimp only
    | with_reducible apply Keeps.ite
    | with_reducible apply Keeps.step (stageToRing_keeps ..) (by decide)
    | with_reducible apply Keeps.step (ringToBuf_keeps ..) (by decide)
    | with_reducible exact Keeps.refl

theorem spillTurn_keeps (s : State) : Keeps [.regs, .arb] s (spillTurn s) := by
  unfold spillTurn
  repeat' first
    | with_reducible exact Keeps.refl
    | assumption
    | dsimp only
    | with_reducible apply Keeps.ite
    | with_reducible apply Keeps.step (arbSync_keeps ..) (by decide)
    | with_reducible apply Keeps.step (arbDecide_keeps ..) (by decide)
    | with_reducible apply Keeps.iteSnd
    | with_reducible apply Keeps.iteFst
    | with_reducible apply Keeps.foldl (fun _ _ => ?_)
    | with_reducible apply Keeps.foldlPair (fun _ _ => ?_)

theorem spillEnd_keeps (s : State) : Keeps [.regs, .arb] s (spillEnd s) := by
  unfold spillEnd
  repeat' first
    | with_reducible exact Keeps.refl
    | assumption
    | dsimp only
    | with_reducible apply Keeps.ite
    | with_reducible apply Keeps.step (State.setArb_keeps ..) (by decide)
    | with_reducible apply Keeps.step (arbDecide_keeps ..) (by decide)
    | with_reducible apply Keeps.iteSnd
    | with_reducible apply Keeps.iteFst
    | with_reducible apply Keeps.foldl (fun _ _ => ?_)
    | with_reducible apply Keeps.foldlPair (fun _ _ => ?_)

theorem spillGrant_keeps {w : List Part} {s0 s : State} (hw : [.regs, .arb] ⊆ w) (a0) {a1} (h1 : ∀ s, Keeps w s (a1 s))
    (h : Keeps w s0 s) : Keeps w s0 (spillGrant a0 a1 s) := by
  unfold spillGrant
  repeat' first
    | with_reducible exact Keeps.refl
    | assumption
    | dsimp only
    | with_reducible apply Keeps.ite
    | with_reducible apply Keeps.step (spillEnd_keeps ..) (List.Subset.trans (by decide) hw)
    | with_reducible apply Keeps.step (spillTurn_keeps ..) (List.Subset.trans (by decide) hw)
    | with_reducible apply Keeps.iteSnd
    | with_reducible apply Keeps.iteFst
    | with_reducible apply Keeps.foldl (fun _ _ => ?_)
    | with_reducible apply Keeps.foldlPair (fun _ _ => ?_)
    | with_reducible apply Keeps.trans ?_ (h1 _)
    | split

theorem spillStop_keeps (a0) (a1) (a2) (s : State) : Keeps [.regs, .src, .xb, .trc] s (spillStop a0 a1 a2 s) := by
  unfold spillStop
  repeat' first
    | with_reducible exact Keeps.refl
    | assumption
    | dsimp only
    | with_reducible apply Keeps.ite
    | with_reducible apply Keeps.step (mpuFaultField_keeps ..) (by decide)
    | with_reducible apply Keeps.iteSnd
    | with_reducible apply Keeps.iteFst
    | with_reducible apply Keeps.foldl (fun _ _ => ?_)
    | with_reducible apply Keeps.foldlPair (fun _ _ => ?_)
    | fail_if_no_progress with_reducible apply Keeps.xb (by decide)

theorem spillFault_keeps (a0) (a1) (a2) (a3) (s : State) : Keeps [.regs, .src, .xb, .arb, .trc] s (spillFault a0 a1 a2 a3 s) := by
  unfold spillFault
  repeat' first
    | with_reducible exact Keeps.refl
    | assumption
    | dsimp only
    | with_reducible apply Keeps.ite
    | with_reducible apply Keeps.step (arbWithdraw_keeps ..) (by decide)
    | with_reducible apply Keeps.step (spillStop_keeps ..) (by decide)
    | with_reducible apply Keeps.step (spillTurn_keeps ..) (by decide)
    | with_reducible apply Keeps.iteSnd
    | with_reducible apply Keeps.iteFst
    | with_reducible apply Keeps.foldl (fun _ _ => ?_)
    | with_reducible apply Keeps.foldlPair (fun _ _ => ?_)

end Sys2Proof.Machine
end

