-- ==== Sys2Proof/Laws/KeepsAccept.lean ====
section
/-! SUPPORT. What the operations of Machine/Accept.lean leave alone. -/

namespace Sys2Proof.Machine

theorem barCtl_keeps (a0) (a1) (s : State) : Keeps [.bar] s (barCtl a0 a1 s) := by
  unfold barCtl
  repeat' first
    | with_reducible exact Keeps.refl
    | assumption
    | dsimp only
    | with_reducible apply Keeps.ite
    | with_reducible apply Keeps.iteSnd
    | with_reducible apply Keeps.iteFst
    | with_reducible apply Keeps.foldl (fun _ _ => ?_)
    | with_reducible apply Keeps.foldlPair (fun _ _ => ?_)
    | fail_if_no_progress with_reducible apply Keeps.bar (by decide)

theorem answerEmit_keeps (a0) (a1) (a2) (a3) (s : State) : Keeps [.out, .regs, .src, .acc, .xb, .camp, .pwr, .bar, .trc] s (answerEmit a0 a1 a2 a3 s) := by
  unfold answerEmit
  repeat' first
    | with_reducible exact Keeps.refl
    | assumption
    | dsimp only
    | with_reducible apply Keeps.ite
    | with_reducible apply Keeps.step (State.setCamp_keeps ..) (by decide)

theorem answer_keeps (a0) (a1) (a2) (a3) (s : State) : Keeps [.out, .regs, .src, .acc, .xb, .camp, .pwr, .bar, .trc] s (answer a0 a1 a2 a3 s) := by
  unfold answer
  repeat' first
    | with_reducible exact Keeps.refl
    | assumption
    | dsimp only
    | with_reducible apply Keeps.ite
    | with_reducible apply Keeps.step (State.emit_keeps ..) (by decide)
    | with_reducible apply Keeps.step (State.inc_keeps ..) (by decide)
    | with_reducible apply Keeps.step (answerEmit_keeps ..) (by decide)
    | with_reducible apply Keeps.step (barCtl_keeps ..) (by decide)
    | with_reducible apply Keeps.step (sendCtl_keeps ..) (by decide)
    | with_reducible apply Keeps.iteSnd
    | with_reducible apply Keeps.iteFst
    | with_reducible apply Keeps.foldl (fun _ _ => ?_)
    | with_reducible apply Keeps.foldlPair (fun _ _ => ?_)
    | fail_if_no_progress with_reducible apply Keeps.acc (by decide)
    | split

theorem portWrite_keeps (a0) (a1) (a2) (s : State) : Keeps [.acc] s (portWrite a0 a1 a2 s) := by
  unfold portWrite
  repeat' first
    | with_reducible exact Keeps.refl
    | assumption
    | dsimp only
    | with_reducible apply Keeps.ite
    | with_reducible apply Keeps.iteSnd
    | with_reducible apply Keeps.iteFst
    | with_reducible apply Keeps.foldl (fun _ _ => ?_)
    | with_reducible apply Keeps.foldlPair (fun _ _ => ?_)
    | fail_if_no_progress with_reducible apply Keeps.acc (by decide)

theorem portRemote_keeps (a0) (s : State) : Keeps [.acc] s (portRemote a0 s) := by
  unfold portRemote
  repeat' first
    | with_reducible exact Keeps.refl
    | assumption
    | dsimp only
    | with_reducible apply Keeps.ite
    | with_reducible apply Keeps.iteSnd
    | with_reducible apply Keeps.iteFst
    | with_reducible apply Keeps.foldl (fun _ _ => ?_)
    | with_reducible apply Keeps.foldlPair (fun _ _ => ?_)
    | fail_if_no_progress with_reducible apply Keeps.acc (by decide)

theorem stampWrites_keeps (s : State) : Keeps [.acc] s (stampWrites s) := by
  unfold stampWrites
  repeat' first
    | with_reducible exact Keeps.refl
    | assumption
    | dsimp only
    | with_reducible apply Keeps.ite
    | with_reducible apply Keeps.iteSnd
    | with_reducible apply Keeps.iteFst
    | with_reducible apply Keeps.foldl (fun _ _ => ?_)
    | with_reducible apply Keeps.foldlPair (fun _ _ => ?_)
    | fail_if_no_progress with_reducible apply Keeps.acc (by decide)

theorem pumpRemote_keeps (s : State) : Keeps [.out, .regs, .src, .acc, .xb, .camp, .pwr, .bar, .trc] s (pumpRemote s) := by
  unfold pumpRemote
  repeat' first
    | with_reducible exact Keeps.refl
    | assumption
    | dsimp only
    | with_reducible apply Keeps.ite
    | with_reducible apply Keeps.step (answer_keeps ..) (by decide)
    | with_reducible apply Keeps.step (countRefusal_keeps ..) (by decide)
    | with_reducible apply Keeps.step (sendCtl_keeps ..) (by decide)
    | with_reducible apply Keeps.iteSnd
    | with_reducible apply Keeps.iteFst
    | with_reducible apply Keeps.foldl (fun _ _ => ?_)
    | with_reducible apply Keeps.foldlPair (fun _ _ => ?_)
    | fail_if_no_progress with_reducible apply Keeps.acc (by decide)

theorem dropWrite_keeps (a0) (a1) (s : State) : Keeps [.acc] s (dropWrite a0 a1 s) := by
  unfold dropWrite
  repeat' first
    | with_reducible exact Keeps.refl
    | assumption
    | dsimp only
    | with_reducible apply Keeps.ite
    | with_reducible apply Keeps.iteSnd
    | with_reducible apply Keeps.iteFst
    | with_reducible apply Keeps.foldl (fun _ _ => ?_)
    | with_reducible apply Keeps.foldlPair (fun _ _ => ?_)
    | fail_if_no_progress with_reducible apply Keeps.acc (by decide)
    | split

theorem refuseOffer_keeps (a0) (a1) (s : State) : Keeps [.out, .regs, .src, .acc, .xb, .camp, .pwr, .bar, .trc] s (refuseOffer a0 a1 s) := by
  unfold refuseOffer
  repeat' first
    | with_reducible exact Keeps.refl
    | assumption
    | dsimp only
    | with_reducible apply Keeps.ite
    | with_reducible apply Keeps.step (State.setLatch_keeps ..) (by decide)
    | with_reducible apply Keeps.step (answer_keeps ..) (by decide)
    | with_reducible apply Keeps.step (countRefusal_keeps ..) (by decide)
    | with_reducible apply Keeps.step (dropWrite_keeps ..) (by decide)
    | with_reducible apply Keeps.iteSnd
    | with_reducible apply Keeps.iteFst
    | with_reducible apply Keeps.foldl (fun _ _ => ?_)
    | with_reducible apply Keeps.foldlPair (fun _ _ => ?_)
    | split

theorem acceptPoint_keeps (a0) (a1) (s : State) : Keeps [.out, .regs, .src, .acc, .firn, .xb, .camp, .pwr, .bar, .trc] s (acceptPoint a0 a1 s) := by
  unfold acceptPoint
  repeat' first
    | with_reducible exact Keeps.refl
    | assumption
    | dsimp only
    | with_reducible apply Keeps.ite
    | with_reducible apply Keeps.step (State.inc_keeps ..) (by decide)
    | with_reducible apply Keeps.step (State.setLatch_keeps ..) (by decide)
    | with_reducible apply Keeps.step (State.setRec_keeps ..) (by decide)
    | with_reducible apply Keeps.step (answer_keeps ..) (by decide)
    | with_reducible apply Keeps.step (applyDone_keeps ..) (by decide)
    | with_reducible apply Keeps.step (completeReplica_keeps ..) (by decide)
    | with_reducible apply Keeps.step (trace_keeps ..) (by decide)
    | with_reducible apply Keeps.step (unreserve_keeps ..) (by decide)
    | with_reducible apply Keeps.step (xbStore_keeps ..) (by decide)
    | with_reducible apply Keeps.each (fun _ _ => ?_)
    | with_reducible apply Keeps.iteSnd
    | with_reducible apply Keeps.iteFst
    | with_reducible apply Keeps.foldl (fun _ _ => ?_)
    | with_reducible apply Keeps.foldlPair (fun _ _ => ?_)
    | split

theorem sendReflex_keeps (a0) (s : State) : Keeps [.regs, .src, .firn, .xb, .rq, .pwr, .trc] s (sendReflex a0 s) := by
  unfold sendReflex
  repeat' first
    | with_reducible exact Keeps.refl
    | assumption
    | dsimp only
    | with_reducible apply Keeps.ite
    | with_reducible apply Keeps.step (intoCrossing_keeps ..) (by decide)
    | with_reducible apply Keeps.step (wakeFor_keeps ..) (by decide)
    | with_reducible apply Keeps.step (xbStore_keeps ..) (by decide)
    | with_reducible apply Keeps.iteSnd
    | with_reducible apply Keeps.iteFst
    | with_reducible apply Keeps.foldl (fun _ _ => ?_)
    | with_reducible apply Keeps.foldlPair (fun _ _ => ?_)
    | fail_if_no_progress with_reducible apply Keeps.xb (by decide)
    | split

theorem passTake_keeps (a0) (a1) (s : State) : Keeps [.regs, .src, .acc, .firn, .xb, .rq, .pwr, .trc] s (passTake a0 a1 s) := by
  unfold passTake
  repeat' first
    | with_reducible exact Keeps.refl
    | assumption
    | dsimp only
    | with_reducible apply Keeps.ite
    | with_reducible apply Keeps.step (dropWrite_keeps ..) (by decide)
    | with_reducible apply Keeps.step (reserve_keeps ..) (by decide)
    | with_reducible apply Keeps.step (sendReflex_keeps ..) (by decide)
    | with_reducible apply Keeps.iteSnd
    | with_reducible apply Keeps.iteFst
    | with_reducible apply Keeps.foldl (fun _ _ => ?_)
    | with_reducible apply Keeps.foldlPair (fun _ _ => ?_)
    | fail_if_no_progress with_reducible apply Keeps.acc (by decide)
    | split

theorem enterOffer_keeps (a0) (s : State) : Keeps [.regs, .src, .acc, .firn, .xb, .pwr, .trc] s (enterOffer a0 s) := by
  unfold enterOffer
  repeat' first
    | with_reducible exact Keeps.refl
    | assumption
    | dsimp only
    | with_reducible apply Keeps.ite
    | with_reducible apply Keeps.step (sendCtl_keeps ..) (by decide)
    | with_reducible apply Keeps.iteSnd
    | with_reducible apply Keeps.iteFst
    | with_reducible apply Keeps.foldl (fun _ _ => ?_)
    | with_reducible apply Keeps.foldlPair (fun _ _ => ?_)
    | fail_if_no_progress with_reducible apply Keeps.acc_firn (by decide) (by decide)
    | fail_if_no_progress with_reducible apply Keeps.acc (by decide)
    | fail_if_no_progress with_reducible apply Keeps.firn (by decide)
    | split

theorem passOffer_keeps (a0) (s : State) : Keeps [.out, .regs, .src, .acc, .firn, .xb, .rq, .camp, .pwr, .bar, .trc] s (passOffer a0 s) := by
  unfold passOffer
  repeat' first
    | with_reducible exact Keeps.refl
    | assumption
    | dsimp only
    | with_reducible apply Keeps.ite
    | with_reducible apply Keeps.step (acceptPoint_keeps ..) (by decide)
    | with_reducible apply Keeps.step (enterOffer_keeps ..) (by decide)
    | with_reducible apply Keeps.step (firnNearCheck_keeps ..) (by decide)
    | with_reducible apply Keeps.step (passTake_keeps ..) (by decide)

theorem writeOldest_keeps (s : State) : Keeps [.acc, .firn, .edw] s (writeOldest s) := by
  unfold writeOldest
  repeat' first
    | with_reducible exact Keeps.refl
    | assumption
    | dsimp only
    | with_reducible apply Keeps.ite
    | with_reducible apply Keeps.step (State.setRec_keeps ..) (by decide)
    | with_reducible apply Keeps.iteSnd
    | with_reducible apply Keeps.iteFst
    | with_reducible apply Keeps.foldl (fun _ _ => ?_)
    | with_reducible apply Keeps.foldlPair (fun _ _ => ?_)
    | fail_if_no_progress with_reducible apply Keeps.acc_firn_edw (by decide) (by decide) (by decide)
    | fail_if_no_progress with_reducible apply Keeps.acc_edw (by decide) (by decide)
    | fail_if_no_progress with_reducible apply Keeps.acc_firn (by decide) (by decide)
    | fail_if_no_progress with_reducible apply Keeps.firn_edw (by decide) (by decide)
    | fail_if_no_progress with_reducible apply Keeps.acc (by decide)
    | fail_if_no_progress with_reducible apply Keeps.firn (by decide)
    | fail_if_no_progress with_reducible apply Keeps.edw (by decide)
    | split

theorem acceptOldest_keeps (s : State) : Keeps [.out, .regs, .src, .acc, .firn, .xb, .camp, .pwr, .bar, .trc] s (acceptOldest s) := by
  unfold acceptOldest
  repeat' first
    | with_reducible exact Keeps.refl
    | assumption
    | dsimp only
    | with_reducible apply Keeps.ite
    | with_reducible apply Keeps.step (acceptPoint_keeps ..) (by decide)
    | with_reducible apply Keeps.iteSnd
    | with_reducible apply Keeps.iteFst
    | with_reducible apply Keeps.foldl (fun _ _ => ?_)
    | with_reducible apply Keeps.foldlPair (fun _ _ => ?_)
    | fail_if_no_progress with_reducible apply Keeps.acc (by decide)
    | split

theorem eachMirror_keeps (a0) (a1) (s : State) : Keeps [.firn] s (eachMirror a0 a1 s) := by
  unfold eachMirror
  repeat' first
    | with_reducible exact Keeps.refl
    | assumption
    | dsimp only
    | with_reducible apply Keeps.ite
    | with_reducible apply Keeps.step (State.setRec_keeps ..) (by decide)
    | with_reducible apply Keeps.iteSnd
    | with_reducible apply Keeps.iteFst
    | with_reducible apply Keeps.foldl (fun _ _ => ?_)
    | with_reducible apply Keeps.foldlPair (fun _ _ => ?_)
    | with_reducible apply Keeps.each (fun _ _ => ?_)

theorem resyncBegins_keeps (a0) (s : State) : Keeps [.firn, .rec_] s (resyncBegins a0 s) := by
  unfold resyncBegins
  repeat' first
    | with_reducible exact Keeps.refl
    | assumption
    | dsimp only
    | with_reducible apply Keeps.ite
    | with_reducible apply Keeps.step (eachMirror_keeps ..) (by decide)
    | with_reducible apply Keeps.iteSnd
    | with_reducible apply Keeps.iteFst
    | with_reducible apply Keeps.foldl (fun _ _ => ?_)
    | with_reducible apply Keeps.foldlPair (fun _ _ => ?_)
    | fail_if_no_progress with_reducible apply Keeps.rec_ (by decide)

theorem writeMirror_keeps (a0) (s : State) : Keeps [.regs, .src, .firn, .xb, .pwr, .trc] s (writeMirror a0 s) := by
  unfold writeMirror
  repeat' first
    | with_reducible exact Keeps.refl
    | assumption
    | dsimp only
    | with_reducible apply Keeps.ite
    | with_reducible apply Keeps.step (sendCtl_keeps ..) (by decide)
    | with_reducible apply Keeps.step (State.setRec_keeps ..) (by decide)
    | with_reducible apply Keeps.step (firnWrite_keeps ..) (by decide)
    | with_reducible apply Keeps.iteSnd
    | with_reducible apply Keeps.iteFst
    | with_reducible apply Keeps.foldl (fun _ _ => ?_)
    | with_reducible apply Keeps.foldlPair (fun _ _ => ?_)
    | split

end Sys2Proof.Machine
end

