-- ==== Sys2Proof/Laws/KeepsLanes.lean ====
section
/-! SUPPORT. What the operations of Machine/Lanes.lean leave alone. -/

namespace Sys2Proof.Machine

theorem campEnqueue_keeps (a0) (a1) (s : State) : Keeps [.regs, .camp] s (campEnqueue a0 a1 s) := by
  unfold campEnqueue
  repeat' first
    | with_reducible exact Keeps.refl
    | assumption
    | dsimp only
    | with_reducible apply Keeps.ite
    | with_reducible apply Keeps.step (State.setCamp_keeps ..) (by decide)
    | with_reducible apply Keeps.step (coalesce_keeps ..) (by decide)

theorem clusBeat_keeps (a0) (a1) (s : State) : Keeps [.regs, .rq, .camp] s (clusBeat a0 a1 s) := by
  unfold clusBeat
  repeat' first
    | with_reducible exact Keeps.refl
    | assumption
    | dsimp only
    | with_reducible apply Keeps.ite
    | with_reducible apply Keeps.step (State.setLane_keeps ..) (by decide)
    | with_reducible apply Keeps.step (State.setToClus_keeps ..) (by decide)
    | with_reducible apply Keeps.step (campEnqueue_keeps ..) (by decide)
    | with_reducible apply Keeps.iteSnd
    | with_reducible apply Keeps.iteFst
    | with_reducible apply Keeps.foldl (fun _ _ => ?_)
    | with_reducible apply Keeps.foldlPair (fun _ _ => ?_)
    | split

theorem moveOut_keeps (a0) (a1) (a2) (a3) (s : State) : Keeps [.firn, .xb, .rq, .core] s (moveOut a0 a1 a2 a3 s) := by
  unfold moveOut
  repeat' first
    | with_reducible exact Keeps.refl
    | assumption
    | dsimp only
    | with_reducible apply Keeps.ite
    | with_reducible apply Keeps.step (State.setCore_keeps ..) (by decide)
    | with_reducible apply Keeps.step (State.setLane_keeps ..) (by decide)
    | with_reducible apply Keeps.step (State.setRec_keeps ..) (by decide)
    | with_reducible apply Keeps.each (fun _ _ => ?_)
    | with_reducible apply Keeps.iteSnd
    | with_reducible apply Keeps.iteFst
    | with_reducible apply Keeps.foldl (fun _ _ => ?_)
    | with_reducible apply Keeps.foldlPair (fun _ _ => ?_)
    | fail_if_no_progress with_reducible apply Keeps.xb (by decide)
    | split

theorem moveRedirected_keeps (a0) (s : State) : Keeps [.regs, .src, .firn, .xb, .rq, .core, .pwr, .trc] s (moveRedirected a0 s) := by
  unfold moveRedirected
  repeat' first
    | with_reducible exact Keeps.refl
    | assumption
    | dsimp only
    | with_reducible apply Keeps.ite
    | with_reducible apply Keeps.step (moveOut_keeps ..) (by decide)
    | with_reducible apply Keeps.step (pumpRet_keeps ..) (by decide)
    | with_reducible apply Keeps.each (fun _ _ => ?_)

end Sys2Proof.Machine
end

