-- ==== Sys2Proof/Laws/KeepsDelivery.lean ====
section
/-! SUPPORT. What the operations of Machine/Delivery.lean leave alone. -/

namespace Sys2Proof.Machine

theorem touchLine_keeps (a0) (a1) (s : State) : Keeps [.clus] s (touchLine a0 a1 s) := by
  unfold touchLine
  repeat' first
    | with_reducible exact Keeps.refl
    | assumption
    | dsimp only
    | with_reducible apply Keeps.ite
    | with_reducible apply Keeps.step (State.setClus_keeps ..) (by decide)
    | with_reducible apply Keeps.iteSnd
    | with_reducible apply Keeps.iteFst
    | with_reducible apply Keeps.foldl (fun _ _ => ?_)
    | with_reducible apply Keeps.foldlPair (fun _ _ => ?_)
    | split

theorem fillLine_keeps (a0) (a1) (s : State) : Keeps [.clus] s (fillLine a0 a1 s) := by
  unfold fillLine
  repeat' first
    | with_reducible exact Keeps.refl
    | assumption
    | dsimp only
    | with_reducible apply Keeps.ite
    | with_reducible apply Keeps.step (State.setClus_keeps ..) (by decide)

theorem askFills_keeps (a0) (s : State) : Keeps [.clus] s (askFills a0 s) := by
  unfold askFills
  repeat' first
    | with_reducible exact Keeps.refl
    | assumption
    | dsimp only
    | with_reducible apply Keeps.ite
    | with_reducible apply Keeps.step (State.setClus_keeps ..) (by decide)
    | with_reducible apply Keeps.each (fun _ _ => ?_)
    | with_reducible apply Keeps.iteSnd
    | with_reducible apply Keeps.iteFst
    | with_reducible apply Keeps.foldl (fun _ _ => ?_)
    | with_reducible apply Keeps.foldlPair (fun _ _ => ?_)
    | split

theorem endOffers_keeps (s : State) : Keeps [.clus] s (endOffers s) := by
  unfold endOffers
  repeat' first
    | with_reducible exact Keeps.refl
    | assumption
    | dsimp only
    | with_reducible apply Keeps.ite
    | with_reducible apply Keeps.step (askFills_keeps ..) (by decide)
    | with_reducible apply Keeps.step (State.setClus_keeps ..) (by decide)
    | with_reducible apply Keeps.iteSnd
    | with_reducible apply Keeps.iteFst
    | with_reducible apply Keeps.foldl (fun _ _ => ?_)
    | with_reducible apply Keeps.foldlPair (fun _ _ => ?_)
    | with_reducible apply Keeps.each (fun _ _ => ?_)

theorem dropOnce_keeps (a0) (a1) (s : State) : Keeps [.clus] s (dropOnce a0 a1 s) := by
  unfold dropOnce
  repeat' first
    | with_reducible exact Keeps.refl
    | assumption
    | dsimp only
    | with_reducible apply Keeps.ite
    | with_reducible apply Keeps.step (State.setClus_keeps ..) (by decide)

theorem warmTry_keeps (a0) (a1) (s : State) : Keeps [.pred, .clus, .pwr] s (warmTry a0 a1 s) := by
  unfold warmTry
  repeat' first
    | with_reducible exact Keeps.refl
    | assumption
    | dsimp only
    | with_reducible apply Keeps.ite
    | with_reducible apply Keeps.step (State.setPred_keeps ..) (by decide)
    | with_reducible apply Keeps.step (askFills_keeps ..) (by decide)
    | with_reducible apply Keeps.step (wake_keeps ..) (by decide)

theorem predArrive_keeps (a0) (a1) (a2) (s : State) : Keeps [.regs, .pred, .clus, .pwr] s (predArrive a0 a1 a2 s) := by
  unfold predArrive
  repeat' first
    | with_reducible exact Keeps.refl
    | assumption
    | dsimp only
    | with_reducible apply Keeps.ite
    | with_reducible apply Keeps.step (State.inc_keeps ..) (by decide)
    | with_reducible apply Keeps.step (State.setPred_keeps ..) (by decide)
    | with_reducible apply Keeps.step (State.wr_keeps ..) (by decide)
    | with_reducible apply Keeps.step (warmTry_keeps ..) (by decide)

theorem predReset_keeps (a0) (a1) (s : State) : Keeps [.pred, .clus] s (predReset a0 a1 s) := by
  unfold predReset
  repeat' first
    | with_reducible exact Keeps.refl
    | assumption
    | dsimp only
    | with_reducible apply Keeps.ite
    | with_reducible apply Keeps.step (State.setPred_keeps ..) (by decide)
    | with_reducible apply Keeps.step (askFills_keeps ..) (by decide)

theorem predWritten_keeps (a0) (a1) (a2) (a3) (s : State) : Keeps [.pred, .clus] s (predWritten a0 a1 a2 a3 s) := by
  unfold predWritten
  repeat' first
    | with_reducible exact Keeps.refl
    | assumption
    | dsimp only
    | with_reducible apply Keeps.ite
    | with_reducible apply Keeps.step (State.setPred_keeps ..) (by decide)
    | with_reducible apply Keeps.step (askFills_keeps ..) (by decide)
    | with_reducible apply Keeps.step (predReset_keeps ..) (by decide)

theorem nextWritten_keeps (a0) (a1) (s : State) : Keeps [.pred, .clus, .pwr] s (nextWritten a0 a1 s) := by
  unfold nextWritten
  repeat' first
    | with_reducible exact Keeps.refl
    | assumption
    | dsimp only
    | with_reducible apply Keeps.ite
    | with_reducible apply Keeps.step (State.setPred_keeps ..) (by decide)
    | with_reducible apply Keeps.step (warmTry_keeps ..) (by decide)

theorem admitCore_keeps (a0) (a1) (a2) (s : State) : Keeps [.regs, .core, .pred, .clus, .pwr, .trc] s (admitCore a0 a1 a2 s) := by
  unfold admitCore
  repeat' first
    | with_reducible exact Keeps.refl
    | assumption
    | dsimp only
    | with_reducible apply Keeps.ite
    | with_reducible apply Keeps.step (State.setClus_keeps ..) (by decide)
    | with_reducible apply Keeps.step (State.setCore_keeps ..) (by decide)
    | with_reducible apply Keeps.step (askFills_keeps ..) (by decide)
    | with_reducible apply Keeps.step (coalesce_keeps ..) (by decide)
    | with_reducible apply Keeps.step (predArrive_keeps ..) (by decide)
    | with_reducible apply Keeps.step (touchLine_keeps ..) (by decide)
    | with_reducible apply Keeps.step (trace_keeps ..) (by decide)

theorem claimEffect_keeps (a0) (s : State) : Keeps [.regs, .core, .clus, .trc] s (claimEffect a0 s) := by
  unfold claimEffect
  repeat' first
    | with_reducible exact Keeps.refl
    | assumption
    | dsimp only
    | with_reducible apply Keeps.ite
    | with_reducible apply Keeps.step (State.setCore_keeps ..) (by decide)
    | with_reducible apply Keeps.step (askFills_keeps ..) (by decide)
    | with_reducible apply Keeps.step (dropOnce_keeps ..) (by decide)
    | with_reducible apply Keeps.step (trace_keeps ..) (by decide)
    | with_reducible apply Keeps.iteSnd
    | with_reducible apply Keeps.iteFst
    | with_reducible apply Keeps.foldl (fun _ _ => ?_)
    | with_reducible apply Keeps.foldlPair (fun _ _ => ?_)
    | split

theorem completeEffect_keeps (a0) (a1) (s : State) : Keeps [.regs, .firn, .core, .clus, .trc] s (completeEffect a0 a1 s) := by
  unfold completeEffect
  repeat' first
    | with_reducible exact Keeps.refl
    | assumption
    | dsimp only
    | with_reducible apply Keeps.ite
    | with_reducible apply Keeps.step (State.raise_keeps ..) (by decide)
    | with_reducible apply Keeps.step (State.setCore_keeps ..) (by decide)
    | with_reducible apply Keeps.step (State.wr_keeps ..) (by decide)
    | with_reducible apply Keeps.step (askFills_keeps ..) (by decide)
    | with_reducible apply Keeps.step (sendDone_keeps ..) (by decide)
    | with_reducible apply Keeps.step (trace_keeps ..) (by decide)
    | with_reducible apply Keeps.iteSnd
    | with_reducible apply Keeps.iteFst
    | with_reducible apply Keeps.foldl (fun _ _ => ?_)
    | with_reducible apply Keeps.foldlPair (fun _ _ => ?_)
    | split

theorem resetCore_keeps (a0) (s : State) : Keeps [.regs, .src, .firn, .xb, .rq, .core, .clus, .pwr, .trc] s (resetCore a0 s) := by
  unfold resetCore
  repeat' first
    | with_reducible exact Keeps.refl
    | assumption
    | dsimp only
    | with_reducible apply Keeps.ite
    | with_reducible apply Keeps.step (State.setCore_keeps ..) (by decide)
    | with_reducible apply Keeps.step (State.wr_keeps ..) (by decide)
    | with_reducible apply Keeps.step (askFills_keeps ..) (by decide)
    | with_reducible apply Keeps.step (moveRedirected_keeps ..) (by decide)

theorem noteReset_keeps (a0) (a1) (s : State) : Keeps [.regs] s (noteReset a0 a1 s) := by
  unfold noteReset
  repeat' first
    | with_reducible exact Keeps.refl
    | assumption
    | dsimp only
    | with_reducible apply Keeps.ite
    | with_reducible apply Keeps.step (State.inc_keeps ..) (by decide)
    | with_reducible apply Keeps.step (State.wr_keeps ..) (by decide)

end Sys2Proof.Machine
end

