-- ==== Sys2Proof/Laws/KeepsImage.lean ====
section
/-! SUPPORT. What the operations of Machine/Image.lean leave alone. -/

namespace Sys2Proof.Machine

theorem State.stage_keeps (s : State) (a1) (a2) : Keeps [.staged] s (State.stage s a1 a2) := by
  unfold State.stage
  repeat' first
    | with_reducible exact Keeps.refl
    | assumption
    | dsimp only
    | with_reducible apply Keeps.ite
    | with_reducible apply Keeps.iteSnd
    | with_reducible apply Keeps.iteFst
    | with_reducible apply Keeps.foldl (fun _ _ => ?_)
    | with_reducible apply Keeps.foldlPair (fun _ _ => ?_)
    | fail_if_no_progress with_reducible apply Keeps.staged (by decide)

theorem stageWord_keeps (a0) (a1) (s : State) : Keeps [.staged] s (stageWord a0 a1 s) := by
  unfold stageWord
  repeat' first
    | with_reducible exact Keeps.refl
    | assumption
    | dsimp only
    | with_reducible apply Keeps.ite
    | with_reducible apply Keeps.step (State.stage_keeps ..) (by decide)
    | with_reducible apply Keeps.each (fun _ _ => ?_)
    | with_reducible apply Keeps.iteSnd
    | with_reducible apply Keeps.iteFst
    | with_reducible apply Keeps.foldl (fun _ _ => ?_)
    | with_reducible apply Keeps.foldlPair (fun _ _ => ?_)
    | split

theorem unstageWord_keeps (a0) (s : State) : Keeps [.staged] s (unstageWord a0 s) := by
  unfold unstageWord
  repeat' first
    | with_reducible exact Keeps.refl
    | assumption
    | dsimp only
    | with_reducible apply Keeps.ite
    | with_reducible apply Keeps.each (fun _ _ => ?_)
    | with_reducible apply Keeps.iteSnd
    | with_reducible apply Keeps.iteFst
    | with_reducible apply Keeps.foldl (fun _ _ => ?_)
    | with_reducible apply Keeps.foldlPair (fun _ _ => ?_)
    | fail_if_no_progress with_reducible apply Keeps.staged (by decide)
    | split

theorem commitWord_keeps (a0) (s : State) : Keeps [.regs, .staged, .rime] s (commitWord a0 s) := by
  unfold commitWord
  repeat' first
    | with_reducible exact Keeps.refl
    | assumption
    | dsimp only
    | with_reducible apply Keeps.ite
    | with_reducible apply Keeps.step (State.wr_keeps ..) (by decide)
    | with_reducible apply Keeps.step (unstageWord_keeps ..) (by decide)
    | with_reducible apply Keeps.each (fun _ _ => ?_)
    | with_reducible apply Keeps.iteSnd
    | with_reducible apply Keeps.iteFst
    | with_reducible apply Keeps.foldl (fun _ _ => ?_)
    | with_reducible apply Keeps.foldlPair (fun _ _ => ?_)
    | fail_if_no_progress with_reducible apply Keeps.rime (by decide)
    | split

theorem setLoad_keeps (a0) (a1) (s : State) : Keeps [.img] s (setLoad a0 a1 s) := by
  unfold setLoad
  repeat' first
    | with_reducible exact Keeps.refl
    | assumption
    | dsimp only
    | with_reducible apply Keeps.ite
    | with_reducible apply Keeps.iteSnd
    | with_reducible apply Keeps.iteFst
    | with_reducible apply Keeps.foldl (fun _ _ => ?_)
    | with_reducible apply Keeps.foldlPair (fun _ _ => ?_)
    | fail_if_no_progress with_reducible apply Keeps.img (by decide)
    | split

theorem failLoad_keeps (a0) (a1) (s : State) : Keeps [.out, .regs, .img] s (failLoad a0 a1 s) := by
  unfold failLoad
  repeat' first
    | with_reducible exact Keeps.refl
    | assumption
    | dsimp only
    | with_reducible apply Keeps.ite
    | with_reducible apply Keeps.step (State.wr_keeps ..) (by decide)
    | with_reducible apply Keeps.step (busError_keeps ..) (by decide)
    | with_reducible apply Keeps.step (setLoad_keeps ..) (by decide)
    | with_reducible apply Keeps.iteSnd
    | with_reducible apply Keeps.iteFst
    | with_reducible apply Keeps.foldl (fun _ _ => ?_)
    | with_reducible apply Keeps.foldlPair (fun _ _ => ?_)
    | split

theorem takeDatum_keeps (a0) (a1) (a2) (a3) (s : State) : Keeps [.out, .regs, .staged, .img] s (takeDatum a0 a1 a2 a3 s) := by
  unfold takeDatum
  repeat' first
    | with_reducible exact Keeps.refl
    | assumption
    | dsimp only
    | with_reducible apply Keeps.ite
    | with_reducible apply Keeps.step (State.wr_keeps ..) (by decide)
    | with_reducible apply Keeps.step (failLoad_keeps ..) (by decide)
    | with_reducible apply Keeps.step (setLoad_keeps ..) (by decide)
    | with_reducible apply Keeps.step (stageWord_keeps ..) (by decide)
    | with_reducible apply Keeps.each (fun _ _ => ?_)
    | with_reducible apply Keeps.iteSnd
    | with_reducible apply Keeps.iteFst
    | with_reducible apply Keeps.foldl (fun _ _ => ?_)
    | with_reducible apply Keeps.foldlPair (fun _ _ => ?_)
    | fail_if_no_progress with_reducible apply Keeps.img (by decide)
    | split

theorem takeBody.header_keeps (a0) (a1) (a2) (a3) (s : State) : Keeps [.out, .regs, .img] s (takeBody.header a0 a1 a2 a3 s) := by
  unfold takeBody.header
  repeat' first
    | with_reducible exact Keeps.refl
    | assumption
    | dsimp only
    | with_reducible apply Keeps.ite
    | with_reducible apply Keeps.step (failLoad_keeps ..) (by decide)
    | with_reducible apply Keeps.step (setLoad_keeps ..) (by decide)
    | with_reducible apply Keeps.iteSnd
    | with_reducible apply Keeps.iteFst
    | with_reducible apply Keeps.foldl (fun _ _ => ?_)
    | with_reducible apply Keeps.foldlPair (fun _ _ => ?_)
    | split

theorem takeBody_keeps (a0) (a1) (a2) (s : State) : Keeps [.out, .regs, .staged, .img] s (takeBody a0 a1 a2 s) := by
  unfold takeBody
  repeat' first
    | with_reducible exact Keeps.refl
    | assumption
    | dsimp only
    | with_reducible apply Keeps.ite
    | with_reducible apply Keeps.step (failLoad_keeps ..) (by decide)
    | with_reducible apply Keeps.step (takeBody.header_keeps ..) (by decide)
    | with_reducible apply Keeps.step (takeDatum_keeps ..) (by decide)
    | with_reducible apply Keeps.iteSnd
    | with_reducible apply Keeps.iteFst
    | with_reducible apply Keeps.foldl (fun _ _ => ?_)
    | with_reducible apply Keeps.foldlPair (fun _ _ => ?_)
    | split

theorem takeWord_keeps (a0) (a1) (s : State) : Keeps [.out, .regs, .staged, .img] s (takeWord a0 a1 s) := by
  unfold takeWord
  repeat' first
    | with_reducible exact Keeps.refl
    | assumption
    | dsimp only
    | with_reducible apply Keeps.ite
    | with_reducible apply Keeps.step (failLoad_keeps ..) (by decide)
    | with_reducible apply Keeps.step (setLoad_keeps ..) (by decide)
    | with_reducible apply Keeps.step (takeBody_keeps ..) (by decide)

theorem drain_keeps (a0) (a1) (s : State) : Keeps [.out, .regs, .staged, .img] s (drain a0 a1 s) := by
  induction a1 generalizing s with
  | zero => exact Keeps.refl
  | succ n ih =>
    unfold drain
    repeat' first
      | with_reducible exact Keeps.refl
      | assumption
      | dsimp only
      | with_reducible apply Keeps.ite
      | with_reducible apply Keeps.step (State.emit_keeps ..) (by decide)
      | with_reducible apply Keeps.step (setLoad_keeps ..) (by decide)
      | with_reducible apply Keeps.step (takeWord_keeps ..) (by decide)
      | with_reducible apply Keeps.iteSnd
      | with_reducible apply Keeps.iteFst
      | with_reducible apply Keeps.foldl (fun _ _ => ?_)
      | with_reducible apply Keeps.foldlPair (fun _ _ => ?_)
      | with_reducible apply Keeps.step (ih ..) (by decide)
      | split

theorem pumpLoad_keeps (a0) (s : State) : Keeps [.out, .regs, .staged, .img] s (pumpLoad a0 s) := by
  unfold pumpLoad
  repeat' first
    | with_reducible exact Keeps.refl
    | assumption
    | dsimp only
    | with_reducible apply Keeps.ite
    | with_reducible apply Keeps.step (drain_keeps ..) (by decide)
    | with_reducible apply Keeps.step (respond_keeps ..) (by decide)
    | with_reducible apply Keeps.step (setLoad_keeps ..) (by decide)
    | with_reducible apply Keeps.iteSnd
    | with_reducible apply Keeps.iteFst
    | with_reducible apply Keeps.foldl (fun _ _ => ?_)
    | with_reducible apply Keeps.foldlPair (fun _ _ => ?_)
    | split

theorem exchange_keeps (a0) (s : State) : Keeps [.img, .rime] s (exchange a0 s) := by
  unfold exchange
  repeat' first
    | with_reducible exact Keeps.refl
    | assumption
    | dsimp only
    | with_reducible apply Keeps.ite
    | with_reducible apply Keeps.iteSnd
    | with_reducible apply Keeps.iteFst
    | with_reducible apply Keeps.foldl (fun _ _ => ?_)
    | with_reducible apply Keeps.foldlPair (fun _ _ => ?_)
    | fail_if_no_progress with_reducible apply Keeps.img_rime (by decide) (by decide)

theorem copyBack_keeps (a0) (s : State) : Keeps [.img] s (copyBack a0 s) := by
  unfold copyBack
  repeat' first
    | with_reducible exact Keeps.refl
    | assumption
    | dsimp only
    | with_reducible apply Keeps.ite
    | with_reducible apply Keeps.iteSnd
    | with_reducible apply Keeps.iteFst
    | with_reducible apply Keeps.foldl (fun _ _ => ?_)
    | with_reducible apply Keeps.foldlPair (fun _ _ => ?_)
    | fail_if_no_progress with_reducible apply Keeps.img (by decide)

theorem restoreHeld_keeps (a0) (s : State) : Keeps [.staged, .img] s (restoreHeld a0 s) := by
  unfold restoreHeld
  repeat' first
    | with_reducible exact Keeps.refl
    | assumption
    | dsimp only
    | with_reducible apply Keeps.ite
    | with_reducible apply Keeps.step (unstageWord_keeps ..) (by decide)
    | with_reducible apply Keeps.each (fun _ _ => ?_)
    | with_reducible apply Keeps.iteSnd
    | with_reducible apply Keeps.iteFst
    | with_reducible apply Keeps.foldl (fun _ _ => ?_)
    | with_reducible apply Keeps.foldlPair (fun _ _ => ?_)
    | fail_if_no_progress with_reducible apply Keeps.img (by decide)

theorem partDone_keeps (a0) (a1) (s : State) : Keeps [.regs, .img] s (partDone a0 a1 s) := by
  unfold partDone
  repeat' first
    | with_reducible exact Keeps.refl
    | assumption
    | dsimp only
    | with_reducible apply Keeps.ite
    | with_reducible apply Keeps.step (State.wr_keeps ..) (by decide)
    | with_reducible apply Keeps.step (setLoad_keeps ..) (by decide)
    | with_reducible apply Keeps.iteSnd
    | with_reducible apply Keeps.iteFst
    | with_reducible apply Keeps.foldl (fun _ _ => ?_)
    | with_reducible apply Keeps.foldlPair (fun _ _ => ?_)
    | split

theorem setMarkRecs_keeps (a0) (a1) (s : State) : Keeps [.img] s (setMarkRecs a0 a1 s) := by
  unfold setMarkRecs
  repeat' first
    | with_reducible exact Keeps.refl
    | assumption
    | dsimp only
    | with_reducible apply Keeps.ite
    | with_reducible apply Keeps.iteSnd
    | with_reducible apply Keeps.iteFst
    | with_reducible apply Keeps.foldl (fun _ _ => ?_)
    | with_reducible apply Keeps.foldlPair (fun _ _ => ?_)
    | fail_if_no_progress with_reducible apply Keeps.img (by decide)

theorem tearBlock_keeps (a0) (s : State) : Keeps [.img] s (tearBlock a0 s) := by
  unfold tearBlock
  repeat' first
    | with_reducible exact Keeps.refl
    | assumption
    | dsimp only
    | with_reducible apply Keeps.ite
    | with_reducible apply Keeps.iteSnd
    | with_reducible apply Keeps.iteFst
    | with_reducible apply Keeps.foldl (fun _ _ => ?_)
    | with_reducible apply Keeps.foldlPair (fun _ _ => ?_)
    | fail_if_no_progress with_reducible apply Keeps.img (by decide)

theorem blankBlock_keeps (a0) (s : State) : Keeps [.img] s (blankBlock a0 s) := by
  unfold blankBlock
  repeat' first
    | with_reducible exact Keeps.refl
    | assumption
    | dsimp only
    | with_reducible apply Keeps.ite
    | with_reducible apply Keeps.iteSnd
    | with_reducible apply Keeps.iteFst
    | with_reducible apply Keeps.foldl (fun _ _ => ?_)
    | with_reducible apply Keeps.foldlPair (fun _ _ => ?_)
    | fail_if_no_progress with_reducible apply Keeps.img (by decide)

theorem loadStart_keeps (a0) (a1) (s : State) : Keeps [.out, .regs, .img] s (loadStart a0 a1 s) := by
  unfold loadStart
  repeat' first
    | with_reducible exact Keeps.refl
    | assumption
    | dsimp only
    | with_reducible apply Keeps.ite
    | with_reducible apply Keeps.step (tearBlock_keeps ..) (by decide)
    | with_reducible apply Keeps.step (State.emit_keeps ..) (by decide)
    | with_reducible apply Keeps.step (failLoad_keeps ..) (by decide)
    | with_reducible apply Keeps.step (setLoad_keeps ..) (by decide)

theorem loadWord_keeps (a0) (a1) (a2) (s : State) : Keeps [.out, .regs, .staged, .img] s (loadWord a0 a1 a2 s) := by
  unfold loadWord
  repeat' first
    | with_reducible exact Keeps.refl
    | assumption
    | dsimp only
    | with_reducible apply Keeps.ite
    | with_reducible apply Keeps.step (pumpLoad_keeps ..) (by decide)
    | with_reducible apply Keeps.step (respond_keeps ..) (by decide)
    | with_reducible apply Keeps.step (setLoad_keeps ..) (by decide)

theorem stampPersist_keeps (s : State) : Keeps [.regs] s (stampPersist s) := by
  unfold stampPersist
  repeat' first
    | with_reducible exact Keeps.refl
    | assumption
    | dsimp only
    | with_reducible apply Keeps.ite
    | with_reducible apply Keeps.step (State.wr_keeps ..) (by decide)

theorem programMark_keeps (s : State) : Keeps [.out] s (programMark s) := by
  unfold programMark
  repeat' first
    | with_reducible exact Keeps.refl
    | assumption
    | dsimp only
    | with_reducible apply Keeps.ite
    | with_reducible apply Keeps.step (State.emit_keeps ..) (by decide)
    | with_reducible apply Keeps.iteSnd
    | with_reducible apply Keeps.iteFst
    | with_reducible apply Keeps.foldl (fun _ _ => ?_)
    | with_reducible apply Keeps.foldlPair (fun _ _ => ?_)
    | split

theorem startMark_keeps (s : State) : Keeps [.out, .img] s (startMark s) := by
  unfold startMark
  repeat' first
    | with_reducible exact Keeps.refl
    | assumption
    | dsimp only
    | with_reducible apply Keeps.ite
    | with_reducible apply Keeps.step (setMarkRecs_keeps ..) (by decide)
    | with_reducible apply Keeps.step (programMark_keeps ..) (by decide)
    | with_reducible apply Keeps.step (setLoad_keeps ..) (by decide)
    | with_reducible apply Keeps.iteSnd
    | with_reducible apply Keeps.iteFst
    | with_reducible apply Keeps.foldl (fun _ _ => ?_)
    | with_reducible apply Keeps.foldlPair (fun _ _ => ?_)
    | split

theorem appendMarker_keeps (s : State) : Keeps [.out, .img] s (appendMarker s) := by
  unfold appendMarker
  repeat' first
    | with_reducible exact Keeps.refl
    | assumption
    | dsimp only
    | with_reducible apply Keeps.ite
    | with_reducible apply Keeps.step (startMark_keeps ..) (by decide)
    | with_reducible apply Keeps.step (setLoad_keeps ..) (by decide)
    | with_reducible apply Keeps.step (State.emit_keeps ..) (by decide)
    | with_reducible apply Keeps.each (fun _ _ => ?_)
    | with_reducible apply Keeps.iteSnd
    | with_reducible apply Keeps.iteFst
    | with_reducible apply Keeps.foldl (fun _ _ => ?_)
    | with_reducible apply Keeps.foldlPair (fun _ _ => ?_)
    | fail_if_no_progress with_reducible apply Keeps.img (by decide)
    | split

theorem readBlock_keeps (a0) (a1) (s : State) : Keeps [.out] s (readBlock a0 a1 s) := by
  unfold readBlock
  repeat' first
    | with_reducible exact Keeps.refl
    | assumption
    | dsimp only
    | with_reducible apply Keeps.ite
    | with_reducible apply Keeps.step (State.emit_keeps ..) (by decide)
    | with_reducible apply Keeps.iteSnd
    | with_reducible apply Keeps.iteFst
    | with_reducible apply Keeps.foldl (fun _ _ => ?_)
    | with_reducible apply Keeps.foldlPair (fun _ _ => ?_)
    | with_reducible apply Keeps.each (fun _ _ => ?_)

theorem noteTwin_keeps (a0) (s : State) : Keeps [.out, .regs] s (noteTwin a0 s) := by
  unfold noteTwin
  repeat' first
    | with_reducible exact Keeps.refl
    | assumption
    | dsimp only
    | with_reducible apply Keeps.ite
    | with_reducible apply Keeps.step (readBlock_keeps ..) (by decide)
    | with_reducible apply Keeps.step (State.wr_keeps ..) (by decide)

theorem bootFrom_keeps (a0) (a1) (s : State) : Keeps [.out, .regs, .staged, .img] s (bootFrom a0 a1 s) := by
  unfold bootFrom
  repeat' first
    | with_reducible exact Keeps.refl
    | assumption
    | dsimp only
    | with_reducible apply Keeps.ite
    | with_reducible apply Keeps.step (pumpLoad_keeps ..) (by decide)
    | with_reducible apply Keeps.step (setLoad_keeps ..) (by decide)

theorem readMarks_keeps (s : State) : Keeps [.out] s (readMarks s) := by
  unfold readMarks
  repeat' first
    | with_reducible exact Keeps.refl
    | assumption
    | dsimp only
    | with_reducible apply Keeps.ite
    | with_reducible apply Keeps.step (State.emit_keeps ..) (by decide)
    | with_reducible apply Keeps.iteSnd
    | with_reducible apply Keeps.iteFst
    | with_reducible apply Keeps.foldl (fun _ _ => ?_)
    | with_reducible apply Keeps.foldlPair (fun _ _ => ?_)
    | with_reducible apply Keeps.each (fun _ _ => ?_)

theorem startBoot_keeps (s : State) : Keeps [.out, .regs, .staged, .img] s (startBoot s) := by
  unfold startBoot
  repeat' first
    | with_reducible exact Keeps.refl
    | assumption
    | dsimp only
    | with_reducible apply Keeps.ite
    | with_reducible apply Keeps.step (readMarks_keeps ..) (by decide)
    | with_reducible apply Keeps.step (State.emit_keeps ..) (by decide)
    | with_reducible apply Keeps.step (State.wr_keeps ..) (by decide)
    | with_reducible apply Keeps.step (bootFrom_keeps ..) (by decide)
    | with_reducible apply Keeps.each (fun _ _ => ?_)
    | split

theorem putWsWord_keeps (a0) (a1) (s : State) : Keeps [.regs] s (putWsWord a0 a1 s) := by
  unfold putWsWord
  repeat' first
    | with_reducible exact Keeps.refl
    | assumption
    | dsimp only
    | with_reducible apply Keeps.ite
    | with_reducible apply Keeps.step (State.wr_keeps ..) (by decide)
    | with_reducible apply Keeps.each (fun _ _ => ?_)
    | with_reducible apply Keeps.iteSnd
    | with_reducible apply Keeps.iteFst
    | with_reducible apply Keeps.foldl (fun _ _ => ?_)
    | with_reducible apply Keeps.foldlPair (fun _ _ => ?_)
    | split

theorem rimePut_keeps (a0) (a1) (a2) (s : State) : Keeps [.regs, .yar, .img] s (rimePut a0 a1 a2 s) := by
  unfold rimePut
  repeat' first
    | with_reducible exact Keeps.refl
    | assumption
    | dsimp only
    | with_reducible apply Keeps.ite
    | with_reducible apply Keeps.step (putWsWord_keeps ..) (by decide)
    | with_reducible apply Keeps.iteSnd
    | with_reducible apply Keeps.iteFst
    | with_reducible apply Keeps.foldl (fun _ _ => ?_)
    | with_reducible apply Keeps.foldlPair (fun _ _ => ?_)
    | fail_if_no_progress with_reducible apply Keeps.yar_img (by decide) (by decide)
    | fail_if_no_progress with_reducible apply Keeps.yar (by decide)
    | fail_if_no_progress with_reducible apply Keeps.img (by decide)
    | split

theorem upsetWord_keeps (a0) (a1) (a2) (s : State) : Keeps [.regs, .yar, .img, .rime] s (upsetWord a0 a1 a2 s) := by
  unfold upsetWord
  repeat' first
    | with_reducible exact Keeps.refl
    | assumption
    | dsimp only
    | with_reducible apply Keeps.ite
    | with_reducible apply Keeps.step (rimePut_keeps ..) (by decide)
    | with_reducible apply Keeps.iteSnd
    | with_reducible apply Keeps.iteFst
    | with_reducible apply Keeps.foldl (fun _ _ => ?_)
    | with_reducible apply Keeps.foldlPair (fun _ _ => ?_)
    | fail_if_no_progress with_reducible apply Keeps.rime (by decide)

theorem mismatch_keeps (a0) (a1) (a2) (s : State) : Keeps [.regs, .src, .rime, .trc] s (mismatch a0 a1 a2 s) := by
  unfold mismatch
  repeat' first
    | with_reducible exact Keeps.refl
    | assumption
    | dsimp only
    | with_reducible apply Keeps.ite
    | with_reducible apply Keeps.step (State.inc_keeps ..) (by decide)
    | with_reducible apply Keeps.step (State.raise_keeps ..) (by decide)
    | with_reducible apply Keeps.step (State.wr_keeps ..) (by decide)
    | with_reducible apply Keeps.step (raiseInt_keeps ..) (by decide)
    | with_reducible apply Keeps.iteSnd
    | with_reducible apply Keeps.iteFst
    | with_reducible apply Keeps.foldl (fun _ _ => ?_)
    | with_reducible apply Keeps.foldlPair (fun _ _ => ?_)
    | fail_if_no_progress with_reducible apply Keeps.rime (by decide)

theorem restoreMark_keeps (a0) (s : State) : Keeps [.regs, .yar, .img, .rime] s (restoreMark a0 s) := by
  unfold restoreMark
  repeat' first
    | with_reducible exact Keeps.refl
    | assumption
    | dsimp only
    | with_reducible apply Keeps.ite
    | with_reducible apply Keeps.step (State.inc_keeps ..) (by decide)
    | with_reducible apply Keeps.step (rimePut_keeps ..) (by decide)
    | with_reducible apply Keeps.iteSnd
    | with_reducible apply Keeps.iteFst
    | with_reducible apply Keeps.foldl (fun _ _ => ?_)
    | with_reducible apply Keeps.foldlPair (fun _ _ => ?_)
    | fail_if_no_progress with_reducible apply Keeps.rime (by decide)

theorem overrun_keeps (a0) (s : State) : Keeps [.out, .regs, .img] s (overrun a0 s) := by
  unfold overrun
  repeat' first
    | with_reducible exact Keeps.refl
    | assumption
    | dsimp only
    | with_reducible apply Keeps.ite
    | with_reducible apply Keeps.step (failLoad_keeps ..) (by decide)
    | split

theorem becomeReady_keeps (a0) (s : State) : Keeps [.out, .regs, .img] s (becomeReady a0 s) := by
  unfold becomeReady
  repeat' first
    | with_reducible exact Keeps.refl
    | assumption
    | dsimp only
    | with_reducible apply Keeps.ite
    | with_reducible apply Keeps.step (setLoad_keeps ..) (by decide)
    | with_reducible apply Keeps.step (State.wr_keeps ..) (by decide)
    | with_reducible apply Keeps.step (noteTwin_keeps ..) (by decide)
    | with_reducible apply Keeps.step (State.raise_keeps ..) (by decide)
    | with_reducible apply Keeps.step (partDone_keeps ..) (by decide)
    | with_reducible apply Keeps.iteSnd
    | with_reducible apply Keeps.iteFst
    | with_reducible apply Keeps.foldl (fun _ _ => ?_)
    | with_reducible apply Keeps.foldlPair (fun _ _ => ?_)

theorem markDone_keeps (a0) (a1) (s : State) : Keeps [.out, .regs, .img] s (markDone a0 a1 s) := by
  unfold markDone
  repeat' first
    | with_reducible exact Keeps.refl
    | assumption
    | dsimp only
    | with_reducible apply Keeps.ite
    | with_reducible apply Keeps.step (setMarkRecs_keeps ..) (by decide)
    | with_reducible apply Keeps.step (setLoad_keeps ..) (by decide)
    | with_reducible apply Keeps.step (becomeReady_keeps ..) (by decide)
    | with_reducible apply Keeps.step (stampPersist_keeps ..) (by decide)
    | with_reducible apply Keeps.step (State.wr_keeps ..) (by decide)
    | with_reducible apply Keeps.step (programMark_keeps ..) (by decide)
    | with_reducible apply Keeps.iteSnd
    | with_reducible apply Keeps.iteFst
    | with_reducible apply Keeps.foldl (fun _ _ => ?_)
    | with_reducible apply Keeps.foldlPair (fun _ _ => ?_)
    | split

theorem loadFlashFail_keeps (s : State) : Keeps [.out, .regs, .img] s (loadFlashFail s) := by
  unfold loadFlashFail
  repeat' first
    | with_reducible exact Keeps.refl
    | assumption
    | dsimp only
    | with_reducible apply Keeps.ite
    | with_reducible apply Keeps.step (failLoad_keeps ..) (by decide)
    | with_reducible apply Keeps.step (setLoad_keeps ..) (by decide)

theorem copyGroup_keeps (a0) (s : State) : Keeps [.yar, .rime] s (copyGroup a0 s) := by
  unfold copyGroup
  repeat' first
    | with_reducible exact Keeps.refl
    | assumption
    | dsimp only
    | with_reducible apply Keeps.ite
    | with_reducible apply Keeps.iteSnd
    | with_reducible apply Keeps.iteFst
    | with_reducible apply Keeps.foldl (fun _ _ => ?_)
    | with_reducible apply Keeps.foldlPair (fun _ _ => ?_)
    | fail_if_no_progress with_reducible apply Keeps.yar_rime (by decide) (by decide)

end Sys2Proof.Machine
end

