-- ==== Sys2Proof/Laws/KeepsRecovery.lean ====
section
/-! SUPPORT. What the operations of Machine/Recovery.lean leave alone. -/

namespace Sys2Proof.Machine

theorem handIn_keeps (a0) (s : State) : Keeps [.regs, .src, .firn, .xb, .rq, .core, .pwr, .trc] s (handIn a0 s) := by
  unfold handIn
  repeat' first
    | with_reducible exact Keeps.refl
    | assumption
    | dsimp only
    | with_reducible apply Keeps.ite
    | with_reducible apply Keeps.step (State.inc_keeps ..) (by decide)
    | with_reducible apply Keeps.step (State.setCrossing_keeps ..) (by decide)
    | with_reducible apply Keeps.step (State.setLane_keeps ..) (by decide)
    | with_reducible apply Keeps.step (coalesce_keeps ..) (by decide)
    | with_reducible apply Keeps.step (moveRedirected_keeps ..) (by decide)
    | with_reducible apply Keeps.iteSnd
    | with_reducible apply Keeps.iteFst
    | with_reducible apply Keeps.foldl (fun _ _ => ?_)
    | with_reducible apply Keeps.foldlPair (fun _ _ => ?_)
    | split

theorem onFence_keeps {w : List Part} {s0 s : State} (hw : [.xb] ⊆ w) (a0) (a1) {a2} (h2 : ∀ s, Keeps w s (a2 s))
    (h : Keeps w s0 s) : Keeps w s0 (onFence a0 a1 a2 s) := by
  unfold onFence
  repeat' first
    | intro _
    | with_reducible exact Keeps.refl
    | assumption
    | dsimp only
    | with_reducible apply Keeps.ite
    | with_reducible apply takeRec_keeps (List.Subset.trans (by decide) hw)
    | with_reducible apply Keeps.iteSnd
    | with_reducible apply Keeps.iteFst
    | with_reducible apply Keeps.foldl (fun _ _ => ?_)
    | with_reducible apply Keeps.foldlPair (fun _ _ => ?_)
    | with_reducible apply Keeps.trans ?_ (h2 _)

theorem resendMeter_keeps (a0) (s : State) : Keeps [.regs, .edw] s (resendMeter a0 s) := by
  unfold resendMeter
  repeat' first
    | with_reducible exact Keeps.refl
    | assumption
    | dsimp only
    | with_reducible apply Keeps.ite
    | with_reducible apply Keeps.step (State.inc_keeps ..) (by decide)
    | with_reducible apply Keeps.iteSnd
    | with_reducible apply Keeps.iteFst
    | with_reducible apply Keeps.foldl (fun _ _ => ?_)
    | with_reducible apply Keeps.foldlPair (fun _ _ => ?_)
    | fail_if_no_progress with_reducible apply Keeps.edw (by decide)

theorem fillSlots_keeps (s : State) : Keeps [.rec_] s (fillSlots s) := by
  unfold fillSlots
  repeat' first
    | with_reducible exact Keeps.refl
    | assumption
    | dsimp only
    | with_reducible apply Keeps.ite
    | with_reducible apply Keeps.iteSnd
    | with_reducible apply Keeps.iteFst
    | with_reducible apply Keeps.foldl (fun _ _ => ?_)
    | with_reducible apply Keeps.foldlPair (fun _ _ => ?_)
    | fail_if_no_progress with_reducible apply Keeps.rec_ (by decide)
    | split

theorem classEnds_keeps (s : State) : Keeps [.rec_] s (classEnds s) := by
  unfold classEnds
  repeat' first
    | with_reducible exact Keeps.refl
    | assumption
    | dsimp only
    | with_reducible apply Keeps.ite
    | with_reducible apply Keeps.iteSnd
    | with_reducible apply Keeps.iteFst
    | with_reducible apply Keeps.foldl (fun _ _ => ?_)
    | with_reducible apply Keeps.foldlPair (fun _ _ => ?_)
    | fail_if_no_progress with_reducible apply Keeps.rec_ (by decide)

theorem freeSlots_keeps (a0) (s : State) : Keeps [.rec_] s (freeSlots a0 s) := by
  unfold freeSlots
  repeat' first
    | with_reducible exact Keeps.refl
    | assumption
    | dsimp only
    | with_reducible apply Keeps.ite
    | with_reducible apply Keeps.step (classEnds_keeps ..) (by decide)
    | with_reducible apply Keeps.step (fillSlots_keeps ..) (by decide)
    | with_reducible apply Keeps.each (fun _ _ => ?_)
    | with_reducible apply Keeps.iteSnd
    | with_reducible apply Keeps.iteFst
    | with_reducible apply Keeps.foldl (fun _ _ => ?_)
    | with_reducible apply Keeps.foldlPair (fun _ _ => ?_)
    | fail_if_no_progress with_reducible apply Keeps.rec_ (by decide)
    | split

theorem loseTarget_keeps (a0) (s : State) : Keeps [.firn, .rec_] s (loseTarget a0 s) := by
  unfold loseTarget
  repeat' first
    | with_reducible exact Keeps.refl
    | assumption
    | dsimp only
    | with_reducible apply Keeps.ite
    | with_reducible apply Keeps.step (State.setRec_keeps ..) (by decide)
    | with_reducible apply Keeps.iteSnd
    | with_reducible apply Keeps.iteFst
    | with_reducible apply Keeps.foldl (fun _ _ => ?_)
    | with_reducible apply Keeps.foldlPair (fun _ _ => ?_)
    | with_reducible apply Keeps.each (fun _ _ => ?_)
    | fail_if_no_progress with_reducible apply Keeps.rec_ (by decide)

theorem endLostMigrations_keeps (s : State) : Keeps [.rec_] s (endLostMigrations s) := by
  unfold endLostMigrations
  repeat' first
    | with_reducible exact Keeps.refl
    | assumption
    | dsimp only
    | with_reducible apply Keeps.ite
    | with_reducible apply Keeps.step (freeSlots_keeps ..) (by decide)
    | with_reducible apply Keeps.iteSnd
    | with_reducible apply Keeps.iteFst
    | with_reducible apply Keeps.foldl (fun _ _ => ?_)
    | with_reducible apply Keeps.foldlPair (fun _ _ => ?_)

theorem sendMigrated_keeps (a0) (a1) (a2) (s : State) : Keeps [.regs, .src, .xb, .pwr, .trc] s (sendMigrated a0 a1 a2 s) := by
  unfold sendMigrated
  repeat' first
    | with_reducible exact Keeps.refl
    | assumption
    | dsimp only
    | with_reducible apply Keeps.ite
    | with_reducible apply Keeps.step (sendRec_keeps ..) (by decide)

theorem noteRoutes_keeps (s : State) : Keeps [.rec_] s (noteRoutes s) := by
  unfold noteRoutes
  repeat' first
    | with_reducible exact Keeps.refl
    | assumption
    | dsimp only
    | with_reducible apply Keeps.ite
    | with_reducible apply Keeps.iteSnd
    | with_reducible apply Keeps.iteFst
    | with_reducible apply Keeps.foldl (fun _ _ => ?_)
    | with_reducible apply Keeps.foldlPair (fun _ _ => ?_)
    | fail_if_no_progress with_reducible apply Keeps.rec_ (by decide)

theorem startMigration_keeps (a0) (a1) (a2) (a3) (s : State) : Keeps [.rec_] s (startMigration a0 a1 a2 a3 s) := by
  unfold startMigration
  repeat' first
    | with_reducible exact Keeps.refl
    | assumption
    | dsimp only
    | with_reducible apply Keeps.ite
    | with_reducible apply Keeps.step (fillSlots_keeps ..) (by decide)
    | with_reducible apply Keeps.iteSnd
    | with_reducible apply Keeps.iteFst
    | with_reducible apply Keeps.foldl (fun _ _ => ?_)
    | with_reducible apply Keeps.foldlPair (fun _ _ => ?_)
    | fail_if_no_progress with_reducible apply Keeps.rec_ (by decide)

theorem sendRet_keeps (a0) (a1) (s : State) : Keeps [.xb] s (sendRet a0 a1 s) := by
  unfold sendRet
  repeat' first
    | with_reducible exact Keeps.refl
    | assumption
    | dsimp only
    | with_reducible apply Keeps.ite
    | with_reducible apply Keeps.iteSnd
    | with_reducible apply Keeps.iteFst
    | with_reducible apply Keeps.foldl (fun _ _ => ?_)
    | with_reducible apply Keeps.foldlPair (fun _ _ => ?_)
    | fail_if_no_progress with_reducible apply Keeps.xb (by decide)

theorem firnError_keeps (a0) (a1) (s : State) : Keeps [.regs, .src, .firn, .lnk, .trc] s (firnError a0 a1 s) := by
  unfold firnError
  repeat' first
    | with_reducible exact Keeps.refl
    | assumption
    | dsimp only
    | with_reducible apply Keeps.ite
    | with_reducible apply Keeps.step (State.setPort_keeps ..) (by decide)
    | with_reducible apply Keeps.step (State.inc_keeps ..) (by decide)
    | with_reducible apply Keeps.step (State.raise_keeps ..) (by decide)
    | with_reducible apply Keeps.step (State.setRec_keeps ..) (by decide)
    | with_reducible apply Keeps.step (State.wr_keeps ..) (by decide)
    | with_reducible apply Keeps.step (raiseInt_keeps ..) (by decide)
    | with_reducible apply Keeps.iteSnd
    | with_reducible apply Keeps.iteFst
    | with_reducible apply Keeps.foldl (fun _ _ => ?_)
    | with_reducible apply Keeps.foldlPair (fun _ _ => ?_)
    | split

theorem lockRead_keeps (a0) (a1) (a2) (s : State) : Keeps [.lock] s (lockRead a0 a1 a2 s).2 := by
  unfold lockRead
  repeat' first
    | with_reducible exact Keeps.refl
    | assumption
    | dsimp only
    | with_reducible apply Keeps.ite
    | with_reducible apply Keeps.step (State.setLock_keeps ..) (by decide)
    | with_reducible apply Keeps.iteSnd

theorem lockFree_keeps (a0) (s : State) : Keeps [.lock] s (lockFree a0 s) := by
  unfold lockFree
  repeat' first
    | with_reducible exact Keeps.refl
    | assumption
    | dsimp only
    | with_reducible apply Keeps.ite
    | with_reducible apply Keeps.step (State.setLock_keeps ..) (by decide)

theorem lockRelease_keeps (a0) (s : State) : Keeps [.regs, .staged, .lock] s (lockRelease a0 s) := by
  unfold lockRelease
  repeat' first
    | with_reducible exact Keeps.refl
    | assumption
    | dsimp only
    | with_reducible apply Keeps.ite
    | with_reducible apply Keeps.step (State.raise_keeps ..) (by decide)
    | with_reducible apply Keeps.step (lockFree_keeps ..) (by decide)
    | with_reducible apply Keeps.step (stageWord_keeps ..) (by decide)
    | with_reducible apply Keeps.each (fun _ _ => ?_)

theorem lockBreak_keeps (a0) (a1) (s : State) : Keeps [.regs, .src, .lock, .trc] s (lockBreak a0 a1 s) := by
  unfold lockBreak
  repeat' first
    | with_reducible exact Keeps.refl
    | assumption
    | dsimp only
    | with_reducible apply Keeps.ite
    | with_reducible apply Keeps.step (State.setLock_keeps ..) (by decide)
    | with_reducible apply Keeps.step (lockFree_keeps ..) (by decide)
    | with_reducible apply Keeps.step (raiseInt_keeps ..) (by decide)

theorem lockStage_keeps (a0) (a1) (a2) (s : State) : KeepsO [.lock] s (lockStage a0 a1 a2 s) := by
  unfold lockStage
  repeat' first
    | with_reducible exact Keeps.refl
    | assumption
    | dsimp only
    | with_reducible apply Keeps.ite
    | with_reducible apply Keeps.step (State.setLock_keeps ..) (by decide)
    | with_reducible apply Keeps.iteSnd
    | with_reducible apply Keeps.iteFst
    | with_reducible apply Keeps.foldl (fun _ _ => ?_)
    | with_reducible apply Keeps.foldlPair (fun _ _ => ?_)
    | with_reducible exact KeepsO.none
    | with_reducible apply KeepsO.mk'
    | with_reducible apply KeepsO.ite

end Sys2Proof.Machine
end

