-- ==== Sys2Proof/Laws/KeepsBarrier.lean ====
section
/-! SUPPORT. What the operations of Machine/Barrier.lean leave alone. -/

namespace Sys2Proof.Machine

theorem setBar_keeps (a0) (a1) (s : State) : Keeps [.bar, .gate] s (setBar a0 a1 s) := by
  unfold setBar
  repeat' first
    | with_reducible exact Keeps.refl
    | assumption
    | dsimp only
    | with_reducible apply Keeps.ite
    | with_reducible apply Keeps.iteSnd
    | with_reducible apply Keeps.iteFst
    | with_reducible apply Keeps.foldl (fun _ _ => ?_)
    | with_reducible apply Keeps.foldlPair (fun _ _ => ?_)
    | fail_if_no_progress with_reducible apply Keeps.bar_gate (by decide) (by decide)
    | fail_if_no_progress with_reducible apply Keeps.bar (by decide)
    | fail_if_no_progress with_reducible apply Keeps.gate (by decide)
    | split

theorem barQueue_keeps (a0) (a1) (a2) (s : State) : Keeps [.bar, .gate] s (barQueue a0 a1 a2 s) := by
  unfold barQueue
  repeat' first
    | with_reducible exact Keeps.refl
    | assumption
    | dsimp only
    | with_reducible apply Keeps.ite
    | with_reducible apply Keeps.step (setBar_keeps ..) (by decide)

theorem drainEntries_keeps (a0) (s : State) : Keeps [.bar, .gate] s (drainEntries a0 s) := by
  unfold drainEntries
  repeat' first
    | with_reducible exact Keeps.refl
    | assumption
    | dsimp only
    | with_reducible apply Keeps.ite
    | with_reducible apply Keeps.step (setBar_keeps ..) (by decide)

theorem rxBar_keeps {w : List Part} {s0 s : State} (hw : [.bar, .gate] ⊆ w) (a0) (a1) {a2} (h2 : ∀ s, Keeps w s (a2 s))
    (h : Keeps w s0 s) : Keeps w s0 (rxBar a0 a1 a2 s) := by
  unfold rxBar
  repeat' first
    | with_reducible exact Keeps.refl
    | assumption
    | dsimp only
    | with_reducible apply Keeps.ite
    | with_reducible apply Keeps.step (drainEntries_keeps ..) (List.Subset.trans (by decide) hw)
    | with_reducible apply Keeps.step (setBar_keeps ..) (List.Subset.trans (by decide) hw)
    | with_reducible apply Keeps.iteSnd
    | with_reducible apply Keeps.iteFst
    | with_reducible apply Keeps.foldl (fun _ _ => ?_)
    | with_reducible apply Keeps.foldlPair (fun _ _ => ?_)
    | with_reducible apply Keeps.trans ?_ (h2 _)

theorem stopReported_keeps (a0) (s : State) : Keeps [.bar, .hostq, .gate] s (stopReported a0 s) := by
  unfold stopReported
  repeat' first
    | with_reducible exact Keeps.refl
    | assumption
    | dsimp only
    | with_reducible apply Keeps.ite
    | with_reducible apply Keeps.step (barQueue_keeps ..) (by decide)
    | with_reducible apply Keeps.each (fun _ _ => ?_)
    | with_reducible apply Keeps.iteSnd
    | with_reducible apply Keeps.iteFst
    | with_reducible apply Keeps.foldl (fun _ _ => ?_)
    | with_reducible apply Keeps.foldlPair (fun _ _ => ?_)
    | fail_if_no_progress with_reducible apply Keeps.hostq (by decide)

theorem reportTag_keeps (a0) (a1) (s : State) : Keeps [.regs, .src, .acc, .firn, .xb, .pwr, .bar, .hostq, .gate, .trc] s (reportTag a0 a1 s) := by
  unfold reportTag
  repeat' first
    | with_reducible exact Keeps.refl
    | assumption
    | dsimp only
    | with_reducible apply Keeps.ite
    | with_reducible apply Keeps.step (State.inc_keeps ..) (by decide)
    | with_reducible apply Keeps.step (completeHost_keeps ..) (by decide)
    | with_reducible apply Keeps.step (stopReported_keeps ..) (by decide)
    | with_reducible apply Keeps.iteSnd
    | with_reducible apply Keeps.iteFst
    | with_reducible apply Keeps.foldl (fun _ _ => ?_)
    | with_reducible apply Keeps.foldlPair (fun _ _ => ?_)
    | fail_if_no_progress with_reducible apply Keeps.hostq (by decide)
    | split

theorem queueAgain_keeps (a0) (s : State) : Keeps [.firn, .hostq] s (queueAgain a0 s) := by
  unfold queueAgain
  repeat' first
    | with_reducible exact Keeps.refl
    | assumption
    | dsimp only
    | with_reducible apply Keeps.ite
    | with_reducible apply Keeps.step (State.setRec_keeps ..) (by decide)
    | with_reducible apply Keeps.iteSnd
    | with_reducible apply Keeps.iteFst
    | with_reducible apply Keeps.foldl (fun _ _ => ?_)
    | with_reducible apply Keeps.foldlPair (fun _ _ => ?_)
    | fail_if_no_progress with_reducible apply Keeps.hostq (by decide)
    | split

theorem resendHost_keeps (s : State) : Keeps [.regs, .firn, .hostq] s (resendHost s) := by
  unfold resendHost
  repeat' first
    | with_reducible exact Keeps.refl
    | assumption
    | dsimp only
    | with_reducible apply Keeps.ite
    | with_reducible apply Keeps.step (State.inc_keeps ..) (by decide)
    | with_reducible apply Keeps.step (State.setRec_keeps ..) (by decide)
    | with_reducible apply Keeps.each (fun _ _ => ?_)
    | with_reducible apply Keeps.iteSnd
    | with_reducible apply Keeps.iteFst
    | with_reducible apply Keeps.foldl (fun _ _ => ?_)
    | with_reducible apply Keeps.foldlPair (fun _ _ => ?_)
    | fail_if_no_progress with_reducible apply Keeps.hostq (by decide)
    | split

theorem sendFieldState_keeps (s : State) : Keeps [.bar, .gate] s (sendFieldState s) := by
  unfold sendFieldState
  repeat' first
    | with_reducible exact Keeps.refl
    | assumption
    | dsimp only
    | with_reducible apply Keeps.ite
    | with_reducible apply Keeps.step (barQueue_keeps ..) (by decide)

theorem sendBar_keeps (a0) (a1) (a2) (s : State) : Keeps [.out, .bar, .gate] s (sendBar a0 a1 a2 s) := by
  unfold sendBar
  repeat' first
    | with_reducible exact Keeps.refl
    | assumption
    | dsimp only
    | with_reducible apply Keeps.ite
    | with_reducible apply Keeps.step (State.emit_keeps ..) (by decide)
    | with_reducible apply Keeps.step (setBar_keeps ..) (by decide)

theorem sendIdle_keeps (a0) (s : State) : Keeps [.out, .bar, .gate] s (sendIdle a0 s) := by
  unfold sendIdle
  repeat' first
    | with_reducible exact Keeps.refl
    | assumption
    | dsimp only
    | with_reducible apply Keeps.ite
    | with_reducible apply Keeps.step (setBar_keeps ..) (by decide)
    | with_reducible apply Keeps.step (State.emit_keeps ..) (by decide)
    | with_reducible apply Keeps.iteSnd
    | with_reducible apply Keeps.iteFst
    | with_reducible apply Keeps.foldl (fun _ _ => ?_)
    | with_reducible apply Keeps.foldlPair (fun _ _ => ?_)

theorem noteSent_keeps (a0) (a1) (s : State) : Keeps [.firn] s (noteSent a0 a1 s) := by
  unfold noteSent
  repeat' first
    | with_reducible exact Keeps.refl
    | assumption
    | dsimp only
    | with_reducible apply Keeps.ite
    | with_reducible apply Keeps.step (State.setRec_keeps ..) (by decide)
    | with_reducible apply Keeps.iteSnd
    | with_reducible apply Keeps.iteFst
    | with_reducible apply Keeps.foldl (fun _ _ => ?_)
    | with_reducible apply Keeps.foldlPair (fun _ _ => ?_)

theorem sendEvent_keeps (a0) (s : State) : Keeps [.out, .regs, .firn, .bar, .hostq, .gate] s (sendEvent a0 s) := by
  unfold sendEvent
  repeat' first
    | with_reducible exact Keeps.refl
    | assumption
    | dsimp only
    | with_reducible apply Keeps.ite
    | with_reducible apply Keeps.step (noteSent_keeps ..) (by decide)
    | with_reducible apply Keeps.step (State.inc_keeps ..) (by decide)
    | with_reducible apply Keeps.step (sendBar_keeps ..) (by decide)
    | with_reducible apply Keeps.iteSnd
    | with_reducible apply Keeps.iteFst
    | with_reducible apply Keeps.foldl (fun _ _ => ?_)
    | with_reducible apply Keeps.foldlPair (fun _ _ => ?_)
    | fail_if_no_progress with_reducible apply Keeps.hostq (by decide)
    | split

theorem fieldUp_keeps (a0) (s : State) : Keeps [.time, .acc, .bar, .hostq, .gate] s (fieldUp a0 s) := by
  unfold fieldUp
  repeat' first
    | with_reducible exact Keeps.refl
    | assumption
    | dsimp only
    | with_reducible apply Keeps.ite
    | with_reducible apply Keeps.step (sendFieldState_keeps ..) (by decide)
    | with_reducible apply Keeps.iteSnd
    | with_reducible apply Keeps.iteFst
    | with_reducible apply Keeps.foldl (fun _ _ => ?_)
    | with_reducible apply Keeps.foldlPair (fun _ _ => ?_)
    | fail_if_no_progress with_reducible apply Keeps.time_acc_bar_hostq (by decide) (by decide) (by decide) (by decide)

theorem fieldDown_keeps (a0) (s : State) : Keeps [.regs, .time, .src, .bar, .hostq, .trc] s (fieldDown a0 s) := by
  unfold fieldDown
  repeat' first
    | with_reducible exact Keeps.refl
    | assumption
    | dsimp only
    | with_reducible apply Keeps.ite
    | with_reducible apply Keeps.step (State.inc_keeps ..) (by decide)
    | with_reducible apply Keeps.step (State.wr_keeps ..) (by decide)
    | with_reducible apply Keeps.step (raiseInt_keeps ..) (by decide)
    | with_reducible apply Keeps.iteSnd
    | with_reducible apply Keeps.iteFst
    | with_reducible apply Keeps.foldl (fun _ _ => ?_)
    | with_reducible apply Keeps.foldlPair (fun _ _ => ?_)
    | fail_if_no_progress with_reducible apply Keeps.time_bar_hostq (by decide) (by decide) (by decide)

theorem tryHello_keeps (a0) (s : State) : Keeps [.bar, .gate] s (tryHello a0 s) := by
  unfold tryHello
  repeat' first
    | with_reducible exact Keeps.refl
    | assumption
    | dsimp only
    | with_reducible apply Keeps.ite
    | with_reducible apply Keeps.step (setBar_keeps ..) (by decide)

theorem barEnWritten_keeps (s : State) : Keeps [.regs, .time, .src, .bar, .hostq, .gate, .trc] s (barEnWritten s) := by
  unfold barEnWritten
  repeat' first
    | with_reducible exact Keeps.refl
    | assumption
    | dsimp only
    | with_reducible apply Keeps.ite
    | with_reducible apply Keeps.step (fieldDown_keeps ..) (by decide)
    | with_reducible apply Keeps.step (tryHello_keeps ..) (by decide)
    | with_reducible apply Keeps.iteSnd
    | with_reducible apply Keeps.iteFst
    | with_reducible apply Keeps.foldl (fun _ _ => ?_)
    | with_reducible apply Keeps.foldlPair (fun _ _ => ?_)
    | fail_if_no_progress with_reducible apply Keeps.bar_gate (by decide) (by decide)
    | fail_if_no_progress with_reducible apply Keeps.bar (by decide)

theorem execVwrite.new_keeps (a0) (a1) (a2) (s : State) : Keeps [.acc] s (execVwrite.new a0 a1 a2 s) := by
  unfold execVwrite.new
  repeat' first
    | with_reducible exact Keeps.refl
    | assumption
    | dsimp only
    | with_reducible apply Keeps.ite
    | with_reducible apply Keeps.step (portWrite_keeps ..) (by decide)
    | with_reducible apply Keeps.iteSnd
    | with_reducible apply Keeps.iteFst
    | with_reducible apply Keeps.foldl (fun _ _ => ?_)
    | with_reducible apply Keeps.foldlPair (fun _ _ => ?_)
    | fail_if_no_progress with_reducible apply Keeps.acc (by decide)

end Sys2Proof.Machine
end

