-- ==== Sys2Proof/Laws/KeepsGate.lean ====
section
/-! SUPPORT. What the operations of Machine/Gate.lean leave alone. -/

namespace Sys2Proof.Machine

theorem gateEvt_keeps (a0) (s : State) : Keeps [.regs, .gate] s (gateEvt a0 s) := by
  unfold gateEvt
  repeat' first
    | with_reducible exact Keeps.refl
    | assumption
    | dsimp only
    | with_reducible apply Keeps.ite
    | with_reducible apply Keeps.step (State.raise_keeps ..) (by decide)
    | with_reducible apply Keeps.iteSnd
    | with_reducible apply Keeps.iteFst
    | with_reducible apply Keeps.foldl (fun _ _ => ?_)
    | with_reducible apply Keeps.foldlPair (fun _ _ => ?_)
    | fail_if_no_progress with_reducible apply Keeps.gate (by decide)

theorem grantCredit_keeps (a0) (s : State) : Keeps [.bar, .gate] s (grantCredit a0 s) := by
  unfold grantCredit
  repeat' first
    | with_reducible exact Keeps.refl
    | assumption
    | dsimp only
    | with_reducible apply Keeps.ite
    | with_reducible apply Keeps.step (State.setSlice_keeps ..) (by decide)
    | with_reducible apply Keeps.step (barQueue_keeps ..) (by decide)
    | with_reducible apply Keeps.each (fun _ _ => ?_)

theorem setTag_keeps (a0) (a1) (s : State) : Keeps [.gate] s (setTag a0 a1 s) := by
  unfold setTag
  repeat' first
    | with_reducible exact Keeps.refl
    | assumption
    | dsimp only
    | with_reducible apply Keeps.ite
    | with_reducible apply Keeps.iteSnd
    | with_reducible apply Keeps.iteFst
    | with_reducible apply Keeps.foldl (fun _ _ => ?_)
    | with_reducible apply Keeps.foldlPair (fun _ _ => ?_)
    | fail_if_no_progress with_reducible apply Keeps.gate (by decide)

theorem report_keeps (a0) (a1) (s : State) : Keeps [.gate] s (report a0 a1 s) := by
  unfold report
  repeat' first
    | with_reducible exact Keeps.refl
    | assumption
    | dsimp only
    | with_reducible apply Keeps.ite
    | with_reducible apply Keeps.step (setTag_keeps ..) (by decide)
    | with_reducible apply Keeps.iteSnd
    | with_reducible apply Keeps.iteFst
    | with_reducible apply Keeps.foldl (fun _ _ => ?_)
    | with_reducible apply Keeps.foldlPair (fun _ _ => ?_)
    | fail_if_no_progress with_reducible apply Keeps.gate (by decide)

theorem enqueueRec_keeps (a0) (a1) (a2) (s : State) : Keeps [.gate] s (enqueueRec a0 a1 a2 s) := by
  unfold enqueueRec
  repeat' first
    | with_reducible exact Keeps.refl
    | assumption
    | dsimp only
    | with_reducible apply Keeps.ite
    | with_reducible apply Keeps.step (State.setSlice_keeps ..) (by decide)
    | with_reducible apply Keeps.step (setTag_keeps ..) (by decide)

theorem rstDiscard_keeps (a0) (a1) (s : State) : Keeps [.regs, .gate] s (rstDiscard a0 a1 s) := by
  unfold rstDiscard
  repeat' first
    | with_reducible exact Keeps.refl
    | assumption
    | dsimp only
    | with_reducible apply Keeps.ite
    | with_reducible apply Keeps.step (State.inc_keeps ..) (by decide)
    | with_reducible apply Keeps.step (report_keeps ..) (by decide)

theorem finishReset_keeps (a0) (s : State) : Keeps [.regs, .gate] s (finishReset a0 s) := by
  unfold finishReset
  repeat' first
    | with_reducible exact Keeps.refl
    | assumption
    | dsimp only
    | with_reducible apply Keeps.ite
    | with_reducible apply Keeps.step (State.raise_keeps ..) (by decide)
    | with_reducible apply Keeps.step (State.setSlice_keeps ..) (by decide)
    | with_reducible apply Keeps.step (gateEvt_keeps ..) (by decide)

theorem pumpKept_keeps (a0) (a1) (s : State) : Keeps [.regs, .gate] s (pumpKept a0 a1 s) := by
  induction a1 generalizing s with
  | zero => exact Keeps.refl
  | succ n ih =>
    unfold pumpKept
    repeat' first
      | with_reducible exact Keeps.refl
      | assumption
      | dsimp only
      | with_reducible apply Keeps.ite
      | with_reducible apply Keeps.step (State.setSlice_keeps ..) (by decide)
      | with_reducible apply Keeps.step (enqueueRec_keeps ..) (by decide)
      | with_reducible apply Keeps.step (rstDiscard_keeps ..) (by decide)
      | with_reducible apply Keeps.iteSnd
      | with_reducible apply Keeps.iteFst
      | with_reducible apply Keeps.foldl (fun _ _ => ?_)
      | with_reducible apply Keeps.foldlPair (fun _ _ => ?_)
      | with_reducible apply Keeps.step (ih ..) (by decide)
      | split

theorem keepEvent_keeps (a0) (a1) (a2) (s : State) : Keeps [.gate] s (keepEvent a0 a1 a2 s) := by
  unfold keepEvent
  repeat' first
    | with_reducible exact Keeps.refl
    | assumption
    | dsimp only
    | with_reducible apply Keeps.ite
    | with_reducible apply Keeps.step (setTag_keeps ..) (by decide)
    | with_reducible apply Keeps.step (State.setSlice_keeps ..) (by decide)
    | with_reducible apply Keeps.iteSnd
    | with_reducible apply Keeps.iteFst
    | with_reducible apply Keeps.foldl (fun _ _ => ?_)
    | with_reducible apply Keeps.foldlPair (fun _ _ => ?_)

theorem takeEvent_keeps (a0) (a1) (a2) (s : State) : Keeps [.regs, .gate] s (takeEvent a0 a1 a2 s) := by
  unfold takeEvent
  repeat' first
    | with_reducible exact Keeps.refl
    | assumption
    | dsimp only
    | with_reducible apply Keeps.ite
    | with_reducible apply Keeps.step (keepEvent_keeps ..) (by decide)
    | with_reducible apply Keeps.step (State.inc_keeps ..) (by decide)
    | with_reducible apply Keeps.step (enqueueRec_keeps ..) (by decide)
    | with_reducible apply Keeps.step (report_keeps ..) (by decide)
    | with_reducible apply Keeps.step (rstDiscard_keeps ..) (by decide)
    | with_reducible apply Keeps.iteSnd
    | with_reducible apply Keeps.iteFst
    | with_reducible apply Keeps.foldl (fun _ _ => ?_)
    | with_reducible apply Keeps.foldlPair (fun _ _ => ?_)
    | split

theorem handleEvent_keeps (a0) (s : State) : Keeps [.regs, .bar, .gate] s (handleEvent a0 s) := by
  unfold handleEvent
  repeat' first
    | with_reducible exact Keeps.refl
    | assumption
    | dsimp only
    | with_reducible apply Keeps.ite
    | with_reducible apply Keeps.step (State.setSlice_keeps ..) (by decide)
    | with_reducible apply Keeps.step (grantCredit_keeps ..) (by decide)
    | with_reducible apply Keeps.step (report_keeps ..) (by decide)
    | with_reducible apply Keeps.step (takeEvent_keeps ..) (by decide)
    | with_reducible apply Keeps.iteSnd
    | with_reducible apply Keeps.iteFst
    | with_reducible apply Keeps.foldl (fun _ _ => ?_)
    | with_reducible apply Keeps.foldlPair (fun _ _ => ?_)
    | split

theorem pumpHeld_keeps (a0) (s : State) : Keeps [.regs, .bar, .gate] s (pumpHeld a0 s) := by
  induction a0 generalizing s with
  | zero => exact Keeps.refl
  | succ n ih =>
    unfold pumpHeld
    repeat' first
      | with_reducible exact Keeps.refl
      | assumption
      | dsimp only
      | with_reducible apply Keeps.ite
      | with_reducible apply Keeps.step (handleEvent_keeps ..) (by decide)
      | with_reducible apply Keeps.iteSnd
      | with_reducible apply Keeps.iteFst
      | with_reducible apply Keeps.foldl (fun _ _ => ?_)
      | with_reducible apply Keeps.foldlPair (fun _ _ => ?_)
      | with_reducible apply Keeps.step (ih ..) (by decide)
      | fail_if_no_progress with_reducible apply Keeps.gate (by decide)
      | split

theorem openRing_keeps (a0) (s : State) : Keeps [.gate] s (openRing a0 s) := by
  unfold openRing
  repeat' first
    | with_reducible exact Keeps.refl
    | assumption
    | dsimp only
    | with_reducible apply Keeps.ite
    | with_reducible apply Keeps.step (State.setSlice_keeps ..) (by decide)

theorem handleHeld_keeps (a0) (s : State) : Keeps [.regs, .bar, .gate] s (handleHeld a0 s) := by
  unfold handleHeld
  repeat' first
    | with_reducible exact Keeps.refl
    | assumption
    | dsimp only
    | with_reducible apply Keeps.ite
    | with_reducible apply Keeps.step (pumpHeld_keeps ..) (by decide)
    | with_reducible apply Keeps.step (handleEvent_keeps ..) (by decide)
    | with_reducible apply Keeps.iteSnd
    | with_reducible apply Keeps.iteFst
    | with_reducible apply Keeps.foldl (fun _ _ => ?_)
    | with_reducible apply Keeps.foldlPair (fun _ _ => ?_)
    | with_reducible apply Keeps.each (fun _ _ => ?_)
    | fail_if_no_progress with_reducible apply Keeps.gate (by decide)
    | split

theorem sendStop_keeps (a0) (s : State) : Keeps [.bar, .gate] s (sendStop a0 s) := by
  unfold sendStop
  repeat' first
    | with_reducible exact Keeps.refl
    | assumption
    | dsimp only
    | with_reducible apply Keeps.ite
    | with_reducible apply Keeps.step (barQueue_keeps ..) (by decide)
    | with_reducible apply Keeps.iteSnd
    | with_reducible apply Keeps.iteFst
    | with_reducible apply Keeps.foldl (fun _ _ => ?_)
    | with_reducible apply Keeps.foldlPair (fun _ _ => ?_)
    | fail_if_no_progress with_reducible apply Keeps.gate (by decide)

theorem resetSlice_keeps (a0) (s : State) : Keeps [.regs, .bar, .gate] s (resetSlice a0 s) := by
  unfold resetSlice
  repeat' first
    | with_reducible exact Keeps.refl
    | assumption
    | dsimp only
    | with_reducible apply Keeps.ite
    | with_reducible apply Keeps.step (drainEntries_keeps ..) (by decide)
    | with_reducible apply Keeps.step (handleHeld_keeps ..) (by decide)
    | with_reducible apply Keeps.step (sendStop_keeps ..) (by decide)
    | with_reducible apply Keeps.step (State.setSlice_keeps ..) (by decide)
    | with_reducible apply Keeps.step (grantCredit_keeps ..) (by decide)
    | with_reducible apply Keeps.step (rstDiscard_keeps ..) (by decide)
    | with_reducible apply Keeps.each (fun _ _ => ?_)

theorem takeShare_keeps (a0) (s : State) : Keeps [.gate] s (takeShare a0 s) := by
  unfold takeShare
  repeat' first
    | with_reducible exact Keeps.refl
    | assumption
    | dsimp only
    | with_reducible apply Keeps.ite
    | with_reducible apply Keeps.step (State.setSlice_keeps ..) (by decide)
    | with_reducible apply Keeps.iteSnd
    | with_reducible apply Keeps.iteFst
    | with_reducible apply Keeps.foldl (fun _ _ => ?_)
    | with_reducible apply Keeps.foldlPair (fun _ _ => ?_)

theorem slcCommand_keeps (a0) (a1) (s : State) : Keeps [.regs, .bar, .gate] s (slcCommand a0 a1 s) := by
  unfold slcCommand
  repeat' first
    | with_reducible exact Keeps.refl
    | assumption
    | dsimp only
    | with_reducible apply Keeps.ite
    | with_reducible apply Keeps.step (takeShare_keeps ..) (by decide)
    | with_reducible apply Keeps.step (pumpKept_keeps ..) (by decide)
    | with_reducible apply Keeps.step (State.raise_keeps ..) (by decide)
    | with_reducible apply Keeps.step (State.setSlice_keeps ..) (by decide)
    | with_reducible apply Keeps.step (State.wr_keeps ..) (by decide)
    | with_reducible apply Keeps.step (barQueue_keeps ..) (by decide)
    | with_reducible apply Keeps.step (grantCredit_keeps ..) (by decide)
    | with_reducible apply Keeps.step (openRing_keeps ..) (by decide)
    | with_reducible apply Keeps.step (resetSlice_keeps ..) (by decide)
    | with_reducible apply Keeps.iteSnd
    | with_reducible apply Keeps.iteFst
    | with_reducible apply Keeps.foldl (fun _ _ => ?_)
    | with_reducible apply Keeps.foldlPair (fun _ _ => ?_)
    | split

theorem notify_keeps (a0) (a1) (s : State) : Keeps [.gate] s (notify a0 a1 s) := by
  unfold notify
  repeat' first
    | with_reducible exact Keeps.refl
    | assumption
    | dsimp only
    | with_reducible apply Keeps.ite
    | with_reducible apply Keeps.step (State.setSlice_keeps ..) (by decide)
    | with_reducible apply Keeps.iteSnd
    | with_reducible apply Keeps.iteFst
    | with_reducible apply Keeps.foldl (fun _ _ => ?_)
    | with_reducible apply Keeps.foldlPair (fun _ _ => ?_)
    | fail_if_no_progress with_reducible apply Keeps.gate (by decide)

theorem consWritten_keeps (a0) (a1) (s : State) : Keeps [.regs, .bar, .gate] s (consWritten a0 a1 s) := by
  unfold consWritten
  repeat' first
    | with_reducible exact Keeps.refl
    | assumption
    | dsimp only
    | with_reducible apply Keeps.ite
    | with_reducible apply Keeps.step (State.raise_keeps ..) (by decide)
    | with_reducible apply Keeps.step (State.setSlice_keeps ..) (by decide)
    | with_reducible apply Keeps.step (finishReset_keeps ..) (by decide)
    | with_reducible apply Keeps.step (grantCredit_keeps ..) (by decide)
    | with_reducible apply Keeps.step (pumpKept_keeps ..) (by decide)

theorem armWritten_keeps (a0) (s : State) : Keeps [.gate] s (armWritten a0 s) := by
  unfold armWritten
  repeat' first
    | with_reducible exact Keeps.refl
    | assumption
    | dsimp only
    | with_reducible apply Keeps.ite
    | with_reducible apply Keeps.step (State.setSlice_keeps ..) (by decide)
    | with_reducible apply Keeps.step (notify_keeps ..) (by decide)

theorem vwWritten_keeps (a0) (a1) (s : State) : Keeps [.regs, .bar, .gate] s (vwWritten a0 a1 s) := by
  unfold vwWritten
  repeat' first
    | with_reducible exact Keeps.refl
    | assumption
    | dsimp only
    | with_reducible apply Keeps.ite
    | with_reducible apply Keeps.step (State.raise_keeps ..) (by decide)
    | with_reducible apply Keeps.step (State.setSlice_keeps ..) (by decide)
    | with_reducible apply Keeps.step (State.wr_keeps ..) (by decide)
    | with_reducible apply Keeps.step (barQueue_keeps ..) (by decide)
    | with_reducible apply Keeps.iteSnd
    | with_reducible apply Keeps.iteFst
    | with_reducible apply Keeps.foldl (fun _ _ => ?_)
    | with_reducible apply Keeps.foldlPair (fun _ _ => ?_)
    | fail_if_no_progress with_reducible apply Keeps.gate (by decide)
    | split

theorem issueRecord_keeps (a0) (a1) (s : State) : Keeps [.out, .regs, .gate] s (issueRecord a0 a1 s) := by
  unfold issueRecord
  repeat' first
    | with_reducible exact Keeps.refl
    | assumption
    | dsimp only
    | with_reducible apply Keeps.ite
    | with_reducible apply Keeps.step (State.emit_keeps ..) (by decide)
    | with_reducible apply Keeps.step (State.inc_keeps ..) (by decide)
    | with_reducible apply Keeps.step (State.setSlice_keeps ..) (by decide)
    | with_reducible apply Keeps.step (State.wr_keeps ..) (by decide)
    | with_reducible apply Keeps.step (finishReset_keeps ..) (by decide)
    | with_reducible apply Keeps.step (gateEvt_keeps ..) (by decide)
    | with_reducible apply Keeps.step (mpuRecord_keeps ..) (by decide)
    | with_reducible apply Keeps.step (notify_keeps ..) (by decide)
    | with_reducible apply Keeps.step (report_keeps ..) (by decide)
    | with_reducible apply Keeps.iteSnd
    | with_reducible apply Keeps.iteFst
    | with_reducible apply Keeps.foldl (fun _ _ => ?_)
    | with_reducible apply Keeps.foldlPair (fun _ _ => ?_)
    | split

theorem ringBeat_keeps (a0) (a1) (s : State) : Keeps [.out, .regs, .arb, .bar, .gate] s (ringBeat a0 a1 s) := by
  unfold ringBeat
  repeat' first
    | with_reducible exact Keeps.refl
    | assumption
    | dsimp only
    | with_reducible apply Keeps.ite
    | with_reducible apply Keeps.step (State.emit_keeps ..) (by decide)
    | with_reducible apply Keeps.step (State.setArb_keeps ..) (by decide)
    | with_reducible apply Keeps.step (drainEntries_keeps ..) (by decide)
    | with_reducible apply Keeps.step (issueRecord_keeps ..) (by decide)
    | with_reducible apply Keeps.step (pumpHeld_keeps ..) (by decide)
    | with_reducible apply Keeps.iteSnd
    | with_reducible apply Keeps.iteFst
    | with_reducible apply Keeps.foldl (fun _ _ => ?_)
    | with_reducible apply Keeps.foldlPair (fun _ _ => ?_)
    | fail_if_no_progress with_reducible apply Keeps.gate (by decide)
    | split

theorem ringPin_keeps (a0) (s : State) : Keeps [.gate] s (ringPin a0 s) := by
  unfold ringPin
  repeat' first
    | with_reducible exact Keeps.refl
    | assumption
    | dsimp only
    | with_reducible apply Keeps.ite
    | with_reducible apply Keeps.iteSnd
    | with_reducible apply Keeps.iteFst
    | with_reducible apply Keeps.foldl (fun _ _ => ?_)
    | with_reducible apply Keeps.foldlPair (fun _ _ => ?_)
    | fail_if_no_progress with_reducible apply Keeps.gate (by decide)
    | split

theorem sendGateState_keeps (s : State) : Keeps [.bar, .gate] s (sendGateState s) := by
  unfold sendGateState
  repeat' first
    | with_reducible exact Keeps.refl
    | assumption
    | dsimp only
    | with_reducible apply Keeps.ite
    | with_reducible apply Keeps.step (barQueue_keeps ..) (by decide)
    | with_reducible apply Keeps.each (fun _ _ => ?_)
    | with_reducible apply Keeps.iteSnd
    | with_reducible apply Keeps.iteFst
    | with_reducible apply Keeps.foldl (fun _ _ => ?_)
    | with_reducible apply Keeps.foldlPair (fun _ _ => ?_)
    | fail_if_no_progress with_reducible apply Keeps.gate (by decide)

theorem freeAll_keeps (s : State) : Keeps [.regs, .arb, .gate] s (freeAll s) := by
  unfold freeAll
  repeat' first
    | with_reducible exact Keeps.refl
    | assumption
    | dsimp only
    | with_reducible apply Keeps.ite
    | with_reducible apply Keeps.step (State.setArb_keeps ..) (by decide)
    | with_reducible apply Keeps.step (State.setSlice_keeps ..) (by decide)
    | with_reducible apply Keeps.step (State.wr_keeps ..) (by decide)
    | with_reducible apply Keeps.each (fun _ _ => ?_)
    | with_reducible apply Keeps.iteSnd
    | with_reducible apply Keeps.iteFst
    | with_reducible apply Keeps.foldl (fun _ _ => ?_)
    | with_reducible apply Keeps.foldlPair (fun _ _ => ?_)
    | fail_if_no_progress with_reducible apply Keeps.gate (by decide)
    | split

theorem hostRst_keeps (s : State) : Keeps [.regs, .arb, .bar, .gate] s (hostRst s) := by
  unfold hostRst
  repeat' first
    | with_reducible exact Keeps.refl
    | assumption
    | dsimp only
    | with_reducible apply Keeps.ite
    | with_reducible apply Keeps.step (State.raise_keeps ..) (by decide)
    | with_reducible apply Keeps.step (State.wr_keeps ..) (by decide)
    | with_reducible apply Keeps.step (drainEntries_keeps ..) (by decide)
    | with_reducible apply Keeps.step (freeAll_keeps ..) (by decide)
    | with_reducible apply Keeps.step (gateEvt_keeps ..) (by decide)
    | with_reducible apply Keeps.step (grantCredit_keeps ..) (by decide)
    | with_reducible apply Keeps.step (sendGateState_keeps ..) (by decide)
    | with_reducible apply Keeps.iteSnd
    | with_reducible apply Keeps.iteFst
    | with_reducible apply Keeps.foldl (fun _ _ => ?_)
    | with_reducible apply Keeps.foldlPair (fun _ _ => ?_)
    | fail_if_no_progress with_reducible apply Keeps.gate (by decide)

theorem hostDown_keeps (a0) (s : State) : Keeps [.regs, .gate] s (hostDown a0 s) := by
  unfold hostDown
  repeat' first
    | with_reducible exact Keeps.refl
    | assumption
    | dsimp only
    | with_reducible apply Keeps.ite
    | with_reducible apply Keeps.step (gateEvt_keeps ..) (by decide)
    | with_reducible apply Keeps.iteSnd
    | with_reducible apply Keeps.iteFst
    | with_reducible apply Keeps.foldl (fun _ _ => ?_)
    | with_reducible apply Keeps.foldlPair (fun _ _ => ?_)
    | fail_if_no_progress with_reducible apply Keeps.gate (by decide)

theorem hostSoft_keeps (s : State) : Keeps [.regs, .arb, .bar, .gate] s (hostSoft s) := by
  unfold hostSoft
  repeat' first
    | with_reducible exact Keeps.refl
    | assumption
    | dsimp only
    | with_reducible apply Keeps.ite
    | with_reducible apply Keeps.step (hostDown_keeps ..) (by decide)
    | with_reducible apply Keeps.step (hostRst_keeps ..) (by decide)
    | with_reducible apply Keeps.step (tryHello_keeps ..) (by decide)
    | with_reducible apply Keeps.iteSnd
    | with_reducible apply Keeps.iteFst
    | with_reducible apply Keeps.foldl (fun _ _ => ?_)
    | with_reducible apply Keeps.foldlPair (fun _ _ => ?_)
    | fail_if_no_progress with_reducible apply Keeps.gate (by decide)

theorem hostUp_keeps (a0) (s : State) : Keeps [.regs, .bar, .gate] s (hostUp a0 s) := by
  unfold hostUp
  repeat' first
    | with_reducible exact Keeps.refl
    | assumption
    | dsimp only
    | with_reducible apply Keeps.ite
    | with_reducible apply Keeps.step (State.setSlice_keeps ..) (by decide)
    | with_reducible apply Keeps.step (gateEvt_keeps ..) (by decide)
    | with_reducible apply Keeps.step (grantCredit_keeps ..) (by decide)
    | with_reducible apply Keeps.step (sendGateState_keeps ..) (by decide)
    | with_reducible apply Keeps.each (fun _ _ => ?_)
    | with_reducible apply Keeps.iteSnd
    | with_reducible apply Keeps.iteFst
    | with_reducible apply Keeps.foldl (fun _ _ => ?_)
    | with_reducible apply Keeps.foldlPair (fun _ _ => ?_)
    | fail_if_no_progress with_reducible apply Keeps.gate (by decide)

theorem barDown_keeps (a0) (a1) (s : State) : Keeps [.regs, .time, .src, .bar, .hostq, .gate, .trc] s (barDown a0 a1 s) := by
  unfold barDown
  repeat' first
    | with_reducible exact Keeps.refl
    | assumption
    | dsimp only
    | with_reducible apply Keeps.ite
    | with_reducible apply Keeps.step (tryHello_keeps ..) (by decide)
    | with_reducible apply Keeps.step (fieldDown_keeps ..) (by decide)
    | with_reducible apply Keeps.step (hostDown_keeps ..) (by decide)
    | with_reducible apply Keeps.iteSnd
    | with_reducible apply Keeps.iteFst
    | with_reducible apply Keeps.foldl (fun _ _ => ?_)
    | with_reducible apply Keeps.foldlPair (fun _ _ => ?_)
    | split

theorem flushReports_keeps (s : State) : Keeps [.bar, .gate] s (flushReports s) := by
  unfold flushReports
  repeat' first
    | with_reducible exact Keeps.refl
    | assumption
    | dsimp only
    | with_reducible apply Keeps.ite
    | with_reducible apply Keeps.step (barQueue_keeps ..) (by decide)
    | with_reducible apply Keeps.each (fun _ _ => ?_)
    | with_reducible apply Keeps.iteSnd
    | with_reducible apply Keeps.iteFst
    | with_reducible apply Keeps.foldl (fun _ _ => ?_)
    | with_reducible apply Keeps.foldlPair (fun _ _ => ?_)
    | fail_if_no_progress with_reducible apply Keeps.gate (by decide)

end Sys2Proof.Machine
end

