-- ==== Sys2Proof/Laws/KeepsCampion.lean ====
section
/-! SUPPORT. What the operations of Machine/Campion.lean leave alone. -/

namespace Sys2Proof.Machine

theorem discardRun_keeps (a0) (s : State) : Keeps [.regs, .camp, .trc] s (discardRun a0 s) := by
  unfold discardRun
  repeat' first
    | with_reducible exact Keeps.refl
    | assumption
    | dsimp only
    | with_reducible apply Keeps.ite
    | with_reducible apply Keeps.step (State.inc_keeps ..) (by decide)
    | with_reducible apply Keeps.step (State.setCamp_keeps ..) (by decide)
    | with_reducible apply Keeps.step (trace_keeps ..) (by decide)
    | with_reducible apply Keeps.iteSnd
    | with_reducible apply Keeps.iteFst
    | with_reducible apply Keeps.foldl (fun _ _ => ?_)
    | with_reducible apply Keeps.foldlPair (fun _ _ => ?_)
    | split

theorem returnRun_keeps (a0) (s : State) : Keeps [.regs, .camp, .trc] s (returnRun a0 s) := by
  unfold returnRun
  repeat' first
    | with_reducible exact Keeps.refl
    | assumption
    | dsimp only
    | with_reducible apply Keeps.ite
    | with_reducible apply Keeps.step (State.setCamp_keeps ..) (by decide)
    | with_reducible apply Keeps.step (discardRun_keeps ..) (by decide)
    | with_reducible apply Keeps.iteSnd
    | with_reducible apply Keeps.iteFst
    | with_reducible apply Keeps.foldl (fun _ _ => ?_)
    | with_reducible apply Keeps.foldlPair (fun _ _ => ?_)
    | split

theorem failCampion_keeps (a0) (a1) (s : State) : Keeps [.regs, .src, .camp, .trc] s (failCampion a0 a1 s) := by
  unfold failCampion
  repeat' first
    | with_reducible exact Keeps.refl
    | assumption
    | dsimp only
    | with_reducible apply Keeps.ite
    | with_reducible apply Keeps.step (State.setCamp_keeps ..) (by decide)
    | with_reducible apply Keeps.step (raiseInt_keeps ..) (by decide)
    | with_reducible apply Keeps.step (returnRun_keeps ..) (by decide)

theorem dispatchEntry_keeps (a0) (a1) (a2) (s : State) : Keeps [.regs, .camp, .trc] s (dispatchEntry a0 a1 a2 s) := by
  unfold dispatchEntry
  repeat' first
    | with_reducible exact Keeps.refl
    | assumption
    | dsimp only
    | with_reducible apply Keeps.ite
    | with_reducible apply Keeps.step (State.inc_keeps ..) (by decide)
    | with_reducible apply Keeps.step (State.setCamp_keeps ..) (by decide)
    | with_reducible apply Keeps.step (trace_keeps ..) (by decide)
    | with_reducible apply Keeps.iteSnd
    | with_reducible apply Keeps.iteFst
    | with_reducible apply Keeps.foldl (fun _ _ => ?_)
    | with_reducible apply Keeps.foldlPair (fun _ _ => ?_)
    | split

theorem straightBeat_keeps (a0) (s : State) : Keeps [.regs, .rq, .camp] s (straightBeat a0 s) := by
  unfold straightBeat
  repeat' first
    | with_reducible exact Keeps.refl
    | assumption
    | dsimp only
    | with_reducible apply Keeps.ite
    | with_reducible apply Keeps.step (campEnqueue_keeps ..) (by decide)
    | with_reducible apply Keeps.step (State.setLane_keeps ..) (by decide)
    | with_reducible apply Keeps.iteSnd
    | with_reducible apply Keeps.iteFst
    | with_reducible apply Keeps.foldl (fun _ _ => ?_)
    | with_reducible apply Keeps.foldlPair (fun _ _ => ?_)
    | split

theorem laneBeat_keeps (a0) (s : State) : Keeps [.regs, .rq, .arb, .camp] s (laneBeat a0 s) := by
  unfold laneBeat
  repeat' first
    | with_reducible exact Keeps.refl
    | assumption
    | dsimp only
    | with_reducible apply Keeps.ite
    | with_reducible apply Keeps.step (straightBeat_keeps ..) (by decide)
    | with_reducible apply Keeps.step (clusBeat_keeps ..) (by decide)
    | with_reducible apply Keeps.iteSnd
    | with_reducible apply Keeps.iteFst
    | with_reducible apply Keeps.foldl (fun _ _ => ?_)
    | with_reducible apply Keeps.foldlPair (fun _ _ => ?_)
    | with_reducible refine Keeps.trans ?_ (arbRun_keeps (by decide) _ _ (fun _ _ => ?_) _)
    | split

theorem setRun_keeps (a0) (a1) (s : State) : Keeps [.camp] s (setRun a0 a1 s) := by
  unfold setRun
  repeat' first
    | with_reducible exact Keeps.refl
    | assumption
    | dsimp only
    | with_reducible apply Keeps.ite
    | with_reducible apply Keeps.step (State.setCamp_keeps ..) (by decide)

theorem instruct_keeps {w : List Part} {s0 s : State} (hw : [.regs, .src, .camp, .trc] ⊆ w) (n)
    {f : Run → COp → Option (State → State)} (hf : ∀ r op g s, f r op = some g → Keeps w s (g s)) (h : Keeps w s0 s) :
    Keeps w s0 (instruct n f s) := by
  unfold instruct
  split
  · exact h
  · split
    · exact Keeps.step (failCampion_keeps ..) hw h
    · split
      · exact Keeps.step (failCampion_keeps ..) hw h
      · split
        · exact h.trans (hf _ _ _ _ (by assumption))
        · exact h

theorem guardParity_keeps {w : List Part} {s0 s : State} (hw : [.regs, .src, .camp, .trc] ⊆ w) (a0) (a1) {a2} (h2 : ∀ s, Keeps w s (a2 s))
    (h : Keeps w s0 s) : Keeps w s0 (guardParity a0 a1 a2 s) := by
  unfold guardParity
  repeat' first
    | with_reducible exact Keeps.refl
    | assumption
    | dsimp only
    | with_reducible apply Keeps.ite
    | with_reducible apply Keeps.step (failCampion_keeps ..) (List.Subset.trans (by decide) hw)
    | with_reducible apply Keeps.iteSnd
    | with_reducible apply Keeps.iteFst
    | with_reducible apply Keeps.foldl (fun _ _ => ?_)
    | with_reducible apply Keeps.foldlPair (fun _ _ => ?_)
    | with_reducible apply Keeps.trans ?_ (h2 _)
    | split

theorem segAccess_keeps (a0) (a1) (a2) (a3) (a4) (s : State) : Keeps [.out, .regs, .seg] s (segAccess a0 a1 a2 a3 a4 s) := by
  unfold segAccess
  repeat' first
    | with_reducible exact Keeps.refl
    | assumption
    | dsimp only
    | with_reducible apply Keeps.ite
    | with_reducible apply Keeps.step (State.emit_keeps ..) (by decide)
    | with_reducible apply Keeps.step (State.inc_keeps ..) (by decide)
    | with_reducible apply Keeps.step (State.setSeg_keeps ..) (by decide)

theorem commitReflex_keeps (a0) (a1) (a2) (s : State) : Keeps [.regs, .acc, .firn, .trc] s (commitReflex a0 a1 a2 s) := by
  unfold commitReflex
  repeat' first
    | with_reducible exact Keeps.refl
    | assumption
    | dsimp only
    | with_reducible apply Keeps.ite
    | with_reducible apply Keeps.step (State.inc_keeps ..) (by decide)
    | with_reducible apply Keeps.step (portWrite_keeps ..) (by decide)
    | with_reducible apply Keeps.step (sendDone_keeps ..) (by decide)
    | with_reducible apply Keeps.step (trace_keeps ..) (by decide)
    | with_reducible apply Keeps.each (fun _ _ => ?_)

theorem driveBurst_keeps (a0) (a1) (a2) (s : State) : Keeps [.out, .regs] s (driveBurst a0 a1 a2 s) := by
  induction a1 generalizing s a2 with
  | nil => exact Keeps.refl
  | cons x l ih =>
    unfold driveBurst
    repeat' first
      | with_reducible exact Keeps.refl
      | assumption
      | dsimp only
      | with_reducible apply Keeps.ite
      | with_reducible apply Keeps.step (State.emit_keeps ..) (by decide)
      | with_reducible apply Keeps.step (State.inc_keeps ..) (by decide)
      | with_reducible apply Keeps.iteSnd
      | with_reducible apply Keeps.iteFst
      | with_reducible apply Keeps.foldl (fun _ _ => ?_)
      | with_reducible apply Keeps.foldlPair (fun _ _ => ?_)
      | with_reducible apply Keeps.step (ih ..) (by decide)

theorem resetCampion_keeps (a0) (s : State) : Keeps [.regs, .src, .firn, .xb, .arb, .camp, .pwr, .trc] s (resetCampion a0 s) := by
  unfold resetCampion
  repeat' first
    | with_reducible exact Keeps.refl
    | assumption
    | dsimp only
    | with_reducible apply Keeps.ite
    | with_reducible apply Keeps.step (State.setArb_keeps ..) (by decide)
    | with_reducible apply Keeps.step (State.setCamp_keeps ..) (by decide)
    | with_reducible apply Keeps.step (discardRun_keeps ..) (by decide)
    | with_reducible apply Keeps.step (restoreScope_keeps ..) (by decide)

end Sys2Proof.Machine
end

