-- ==== Sys2Proof/Laws/KeepsEdelweiss.lean ====
section
/-! SUPPORT. What the operations of Machine/Edelweiss.lean leave alone. -/

namespace Sys2Proof.Machine

theorem sendMeter_keeps (a0) (s : State) : Keeps [.bar, .gate, .edw] s (sendMeter a0 s) := by
  unfold sendMeter
  repeat' first
    | with_reducible exact Keeps.refl
    | assumption
    | dsimp only
    | with_reducible apply Keeps.ite
    | with_reducible apply Keeps.step (State.setChan_keeps ..) (by decide)
    | with_reducible apply Keeps.step (barQueue_keeps ..) (by decide)

theorem meterAsked_keeps (a0) (s : State) : Keeps [.bar, .gate, .edw] s (meterAsked a0 s) := by
  unfold meterAsked
  repeat' first
    | with_reducible exact Keeps.refl
    | assumption
    | dsimp only
    | with_reducible apply Keeps.ite
    | with_reducible apply Keeps.step (sendMeter_keeps ..) (by decide)
    | with_reducible apply Keeps.iteSnd
    | with_reducible apply Keeps.iteFst
    | with_reducible apply Keeps.foldl (fun _ _ => ?_)
    | with_reducible apply Keeps.foldlPair (fun _ _ => ?_)
    | with_reducible apply Keeps.each (fun _ _ => ?_)

theorem putS5Word_keeps (a0) (a1) (s : State) : Keeps [.regs] s (putS5Word a0 a1 s) := by
  unfold putS5Word
  repeat' first
    | with_reducible exact Keeps.refl
    | assumption
    | dsimp only
    | with_reducible apply Keeps.ite
    | with_reducible apply Keeps.step (State.wr_keeps ..) (by decide)

theorem sealCapture_keeps (s : State) : Keeps [.edw] s (sealCapture s) := by
  unfold sealCapture
  repeat' first
    | with_reducible exact Keeps.refl
    | assumption
    | dsimp only
    | with_reducible apply Keeps.ite
    | with_reducible apply Keeps.iteSnd
    | with_reducible apply Keeps.iteFst
    | with_reducible apply Keeps.foldl (fun _ _ => ?_)
    | with_reducible apply Keeps.foldlPair (fun _ _ => ?_)
    | fail_if_no_progress with_reducible apply Keeps.edw (by decide)

theorem sealTrigger_keeps (a0) (s : State) : Keeps [.edw] s (sealTrigger a0 s) := by
  unfold sealTrigger
  repeat' first
    | with_reducible exact Keeps.refl
    | assumption
    | dsimp only
    | with_reducible apply Keeps.ite
    | with_reducible apply Keeps.step (sealCapture_keeps ..) (by decide)
    | with_reducible apply Keeps.iteSnd
    | with_reducible apply Keeps.iteFst
    | with_reducible apply Keeps.foldl (fun _ _ => ?_)
    | with_reducible apply Keeps.foldlPair (fun _ _ => ?_)
    | fail_if_no_progress with_reducible apply Keeps.edw (by decide)

theorem sealWrite_keeps (s : State) : KeepsO [.edw] s (sealWrite s) := by
  unfold sealWrite
  repeat' first
    | with_reducible exact Keeps.refl
    | assumption
    | dsimp only
    | with_reducible apply Keeps.ite
    | with_reducible apply Keeps.step (sealCapture_keeps ..) (by decide)
    | with_reducible apply Keeps.step (sealTrigger_keeps ..) (by decide)
    | with_reducible apply Keeps.iteSnd
    | with_reducible apply Keeps.iteFst
    | with_reducible apply Keeps.foldl (fun _ _ => ?_)
    | with_reducible apply Keeps.foldlPair (fun _ _ => ?_)
    | with_reducible exact KeepsO.none
    | with_reducible apply KeepsO.mk'
    | with_reducible apply KeepsO.ite
    | with_reducible refine KeepsO.bind ?_ (fun _ _ => ?_)
    | with_reducible refine KeepsO.map ?_ (fun _ _ => ?_)
    | fail_if_no_progress with_reducible apply Keeps.edw (by decide)

theorem edwTake_keeps (a0) (a1) (s : State) : Keeps [.bar, .gate, .edw] s (edwTake a0 a1 s) := by
  unfold edwTake
  repeat' first
    | with_reducible exact Keeps.refl
    | assumption
    | dsimp only
    | with_reducible apply Keeps.ite
    | with_reducible apply Keeps.step (State.setChan_keeps ..) (by decide)
    | with_reducible apply Keeps.step (meterAsked_keeps ..) (by decide)
    | with_reducible apply Keeps.step (sealTrigger_keeps ..) (by decide)
    | with_reducible apply Keeps.iteSnd
    | with_reducible apply Keeps.iteFst
    | with_reducible apply Keeps.foldl (fun _ _ => ?_)
    | with_reducible apply Keeps.foldlPair (fun _ _ => ?_)

theorem serveEdw_keeps (s : State) : Keeps [.bar, .gate, .edw] s (serveEdw s) := by
  unfold serveEdw
  repeat' first
    | with_reducible exact Keeps.refl
    | assumption
    | dsimp only
    | with_reducible apply Keeps.ite
    | with_reducible apply Keeps.step (edwTake_keeps ..) (by decide)
    | with_reducible apply Keeps.iteSnd
    | with_reducible apply Keeps.iteFst
    | with_reducible apply Keeps.foldl (fun _ _ => ?_)
    | with_reducible apply Keeps.foldlPair (fun _ _ => ?_)
    | with_reducible apply Keeps.each (fun _ _ => ?_)
    | fail_if_no_progress with_reducible apply Keeps.edw (by decide)

theorem edwAsk_keeps (a0) (a1) (s : State) : Keeps [.bar, .gate, .edw] s (edwAsk a0 a1 s) := by
  unfold edwAsk
  repeat' first
    | with_reducible exact Keeps.refl
    | assumption
    | dsimp only
    | with_reducible apply Keeps.ite
    | with_reducible apply Keeps.step (serveEdw_keeps ..) (by decide)
    | with_reducible apply Keeps.iteSnd
    | with_reducible apply Keeps.iteFst
    | with_reducible apply Keeps.foldl (fun _ _ => ?_)
    | with_reducible apply Keeps.foldlPair (fun _ _ => ?_)
    | fail_if_no_progress with_reducible apply Keeps.edw (by decide)

theorem eraseNext_keeps (s : State) : Keeps [.out, .edw] s (eraseNext s) := by
  unfold eraseNext
  repeat' first
    | with_reducible exact Keeps.refl
    | assumption
    | dsimp only
    | with_reducible apply Keeps.ite
    | with_reducible apply Keeps.step (State.emit_keeps ..) (by decide)
    | with_reducible apply Keeps.iteSnd
    | with_reducible apply Keeps.iteFst
    | with_reducible apply Keeps.foldl (fun _ _ => ?_)
    | with_reducible apply Keeps.foldlPair (fun _ _ => ?_)
    | fail_if_no_progress with_reducible apply Keeps.edw (by decide)

theorem programSeal_keeps (a0) (s : State) : Keeps [.out, .edw] s (programSeal a0 s) := by
  unfold programSeal
  repeat' first
    | with_reducible exact Keeps.refl
    | assumption
    | dsimp only
    | with_reducible apply Keeps.ite
    | with_reducible apply Keeps.step (State.emit_keeps ..) (by decide)
    | with_reducible apply Keeps.each (fun _ _ => ?_)
    | with_reducible apply Keeps.iteSnd
    | with_reducible apply Keeps.iteFst
    | with_reducible apply Keeps.foldl (fun _ _ => ?_)
    | with_reducible apply Keeps.foldlPair (fun _ _ => ?_)
    | fail_if_no_progress with_reducible apply Keeps.edw (by decide)
    | split

theorem useSlot_keeps (a0) (s : State) : Keeps [.edw] s (useSlot a0 s) := by
  unfold useSlot
  repeat' first
    | with_reducible exact Keeps.refl
    | assumption
    | dsimp only
    | with_reducible apply Keeps.ite
    | with_reducible apply Keeps.iteSnd
    | with_reducible apply Keeps.iteFst
    | with_reducible apply Keeps.foldl (fun _ _ => ?_)
    | with_reducible apply Keeps.foldlPair (fun _ _ => ?_)
    | fail_if_no_progress with_reducible apply Keeps.edw (by decide)

theorem sealEnd_keeps (s : State) : Keeps [.edw] s (sealEnd s) := by
  unfold sealEnd
  repeat' first
    | with_reducible exact Keeps.refl
    | assumption
    | dsimp only
    | with_reducible apply Keeps.ite
    | with_reducible apply Keeps.step (sealTrigger_keeps ..) (by decide)
    | with_reducible apply Keeps.iteSnd
    | with_reducible apply Keeps.iteFst
    | with_reducible apply Keeps.foldl (fun _ _ => ?_)
    | with_reducible apply Keeps.foldlPair (fun _ _ => ?_)
    | fail_if_no_progress with_reducible apply Keeps.edw (by decide)

theorem showSeal_keeps (a0) (s : State) : Keeps [.regs, .edw] s (showSeal a0 s) := by
  unfold showSeal
  repeat' first
    | with_reducible exact Keeps.refl
    | assumption
    | dsimp only
    | with_reducible apply Keeps.ite
    | with_reducible apply Keeps.step (State.wr_keeps ..) (by decide)
    | with_reducible apply Keeps.each (fun _ _ => ?_)
    | with_reducible apply Keeps.iteSnd
    | with_reducible apply Keeps.iteFst
    | with_reducible apply Keeps.foldl (fun _ _ => ?_)
    | with_reducible apply Keeps.foldlPair (fun _ _ => ?_)
    | fail_if_no_progress with_reducible apply Keeps.edw (by decide)

theorem sealFails_keeps (a0) (s : State) : Keeps [.out, .regs, .edw] s (sealFails a0 s) := by
  unfold sealFails
  repeat' first
    | with_reducible exact Keeps.refl
    | assumption
    | dsimp only
    | with_reducible apply Keeps.ite
    | with_reducible apply Keeps.step (useSlot_keeps ..) (by decide)
    | with_reducible apply Keeps.step (State.raise_keeps ..) (by decide)
    | with_reducible apply Keeps.step (sealEnd_keeps ..) (by decide)
    | with_reducible apply Keeps.step (programSeal_keeps ..) (by decide)
    | with_reducible apply Keeps.step (eraseNext_keeps ..) (by decide)
    | with_reducible apply Keeps.iteSnd
    | with_reducible apply Keeps.iteFst
    | with_reducible apply Keeps.foldl (fun _ _ => ?_)
    | with_reducible apply Keeps.foldlPair (fun _ _ => ?_)
    | fail_if_no_progress with_reducible apply Keeps.edw (by decide)

theorem readSlot_keeps (a0) (a1) (a2) (s : State) : Keeps [.out] s (readSlot a0 a1 a2 s) := by
  unfold readSlot
  repeat' first
    | with_reducible exact Keeps.refl
    | assumption
    | dsimp only
    | with_reducible apply Keeps.ite
    | with_reducible apply Keeps.step (State.emit_keeps ..) (by decide)
    | with_reducible apply Keeps.iteSnd
    | with_reducible apply Keeps.iteFst
    | with_reducible apply Keeps.foldl (fun _ _ => ?_)
    | with_reducible apply Keeps.foldlPair (fun _ _ => ?_)
    | with_reducible apply Keeps.each (fun _ _ => ?_)

theorem sealDone_keeps (a0) (s : State) : Keeps [.regs, .bar, .gate, .edw] s (sealDone a0 s) := by
  unfold sealDone
  repeat' first
    | with_reducible exact Keeps.refl
    | assumption
    | dsimp only
    | with_reducible apply Keeps.ite
    | with_reducible apply Keeps.step (showSeal_keeps ..) (by decide)
    | with_reducible apply Keeps.step (useSlot_keeps ..) (by decide)
    | with_reducible apply Keeps.step (sealEnd_keeps ..) (by decide)
    | with_reducible apply Keeps.step (barQueue_keeps ..) (by decide)
    | with_reducible apply Keeps.iteSnd
    | with_reducible apply Keeps.iteFst
    | with_reducible apply Keeps.foldl (fun _ _ => ?_)
    | with_reducible apply Keeps.foldlPair (fun _ _ => ?_)
    | fail_if_no_progress with_reducible apply Keeps.edw (by decide)

theorem edwReset_keeps (s : State) : Keeps [.regs, .edw] s (edwReset s) := by
  unfold edwReset
  repeat' first
    | with_reducible exact Keeps.refl
    | assumption
    | dsimp only
    | with_reducible apply Keeps.ite
    | with_reducible apply Keeps.step (useSlot_keeps ..) (by decide)
    | with_reducible apply Keeps.iteSnd
    | with_reducible apply Keeps.iteFst
    | with_reducible apply Keeps.foldl (fun _ _ => ?_)
    | with_reducible apply Keeps.foldlPair (fun _ _ => ?_)
    | fail_if_no_progress with_reducible apply Keeps.regs_edw (by decide) (by decide)
    | fail_if_no_progress with_reducible apply Keeps.regs (by decide)
    | fail_if_no_progress with_reducible apply Keeps.edw (by decide)
    | split

theorem edwOff_keeps (s : State) : Keeps [.regs, .edw] s (edwOff s) := by
  unfold edwOff
  repeat' first
    | with_reducible exact Keeps.refl
    | assumption
    | dsimp only
    | with_reducible apply Keeps.ite
    | with_reducible apply Keeps.step (edwReset_keeps ..) (by decide)
    | with_reducible apply Keeps.iteSnd
    | with_reducible apply Keeps.iteFst
    | with_reducible apply Keeps.foldl (fun _ _ => ?_)
    | with_reducible apply Keeps.foldlPair (fun _ _ => ?_)
    | fail_if_no_progress with_reducible apply Keeps.edw (by decide)

theorem edwOn_keeps (s : State) : Keeps [.bar, .gate, .edw] s (edwOn s) := by
  unfold edwOn
  repeat' first
    | with_reducible exact Keeps.refl
    | assumption
    | dsimp only
    | with_reducible apply Keeps.ite
    | with_reducible apply Keeps.step (serveEdw_keeps ..) (by decide)
    | with_reducible apply Keeps.iteSnd
    | with_reducible apply Keeps.iteFst
    | with_reducible apply Keeps.foldl (fun _ _ => ?_)
    | with_reducible apply Keeps.foldlPair (fun _ _ => ?_)
    | fail_if_no_progress with_reducible apply Keeps.edw (by decide)

theorem readSlots_keeps (s : State) : Keeps [.out] s (readSlots s) := by
  unfold readSlots
  repeat' first
    | with_reducible exact Keeps.refl
    | assumption
    | dsimp only
    | with_reducible apply Keeps.ite
    | with_reducible apply Keeps.step (readSlot_keeps ..) (by decide)
    | with_reducible apply Keeps.iteSnd
    | with_reducible apply Keeps.iteFst
    | with_reducible apply Keeps.foldl (fun _ _ => ?_)
    | with_reducible apply Keeps.foldlPair (fun _ _ => ?_)
    | with_reducible apply Keeps.each (fun _ _ => ?_)

theorem edwEmpty_keeps (s : State) : Keeps [.regs, .edw] s (edwEmpty s) := by
  unfold edwEmpty
  repeat' first
    | with_reducible exact Keeps.refl
    | assumption
    | dsimp only
    | with_reducible apply Keeps.ite
    | with_reducible apply Keeps.step (putS5Word_keeps ..) (by decide)
    | with_reducible apply Keeps.iteSnd
    | with_reducible apply Keeps.iteFst
    | with_reducible apply Keeps.foldl (fun _ _ => ?_)
    | with_reducible apply Keeps.foldlPair (fun _ _ => ?_)
    | with_reducible apply Keeps.each (fun _ _ => ?_)
    | fail_if_no_progress with_reducible apply Keeps.edw (by decide)

theorem edwRestore_keeps (s : State) : Keeps [.out, .fresh, .regs, .edw] s (edwRestore s) := by
  unfold edwRestore
  repeat' first
    | with_reducible exact Keeps.refl
    | assumption
    | dsimp only
    | with_reducible apply Keeps.ite
    | with_reducible apply Keeps.step (readSlots_keeps ..) (by decide)
    | with_reducible apply Keeps.step (edwEmpty_keeps ..) (by decide)
    | with_reducible apply Keeps.step (State.raise_keeps ..) (by decide)
    | with_reducible apply Keeps.step (State.setChan_keeps ..) (by decide)
    | with_reducible apply Keeps.step (State.wr_keeps ..) (by decide)
    | with_reducible apply Keeps.step (putS5Word_keeps ..) (by decide)
    | with_reducible apply Keeps.step (sealTrigger_keeps ..) (by decide)
    | with_reducible apply Keeps.step (showSeal_keeps ..) (by decide)
    | with_reducible apply Keeps.each (fun _ _ => ?_)
    | with_reducible apply Keeps.iteSnd
    | with_reducible apply Keeps.iteFst
    | with_reducible apply Keeps.foldl (fun _ _ => ?_)
    | with_reducible apply Keeps.foldlPair (fun _ _ => ?_)
    | fail_if_no_progress with_reducible apply Keeps.edw (by decide)
    | fail_if_no_progress with_reducible apply Keeps.fresh (by decide)
    | fail_if_no_progress with_reducible apply Keeps.fresh_edw (by decide) (by decide)
    | split

theorem edwDebugLog_keeps (a0) (s : State) : Keeps [.regs, .edw] s (edwDebugLog a0 s) := by
  unfold edwDebugLog
  repeat' first
    | with_reducible exact Keeps.refl
    | assumption
    | dsimp only
    | with_reducible apply Keeps.ite
    | with_reducible apply Keeps.step (State.inc_keeps ..) (by decide)
    | with_reducible apply Keeps.step (State.raise_keeps ..) (by decide)
    | with_reducible apply Keeps.step (State.wr_keeps ..) (by decide)
    | with_reducible apply Keeps.step (sealTrigger_keeps ..) (by decide)

end Sys2Proof.Machine
end

