-- ==== Sys2Proof/Laws/KeepsPower.lean ====
section
/-! SUPPORT. What the operations of Machine/Power.lean leave alone. -/

namespace Sys2Proof.Machine

theorem resetRegs_keeps (a0) (s : State) : Keeps [.regs] s (resetRegs a0 s) := by
  unfold resetRegs
  repeat' first
    | with_reducible exact Keeps.refl
    | assumption
    | dsimp only
    | with_reducible apply Keeps.ite
    | with_reducible apply Keeps.iteSnd
    | with_reducible apply Keeps.iteFst
    | with_reducible apply Keeps.foldl (fun _ _ => ?_)
    | with_reducible apply Keeps.foldlPair (fun _ _ => ?_)
    | fail_if_no_progress with_reducible apply Keeps.regs (by decide)

theorem loseCluster_keeps (a0) (s : State) : Keeps [.regs, .time, .acc, .firn, .arb, .core, .clus, .camp, .trc] s (loseCluster a0 s) := by
  unfold loseCluster
  repeat' first
    | with_reducible exact Keeps.refl
    | assumption
    | dsimp only
    | with_reducible apply Keeps.ite
    | with_reducible apply Keeps.step (State.setArb_keeps ..) (by decide)
    | with_reducible apply Keeps.step (State.setCamp_keeps ..) (by decide)
    | with_reducible apply Keeps.step (State.setClus_keeps ..) (by decide)
    | with_reducible apply Keeps.step (State.setCore_keeps ..) (by decide)
    | with_reducible apply Keeps.step (discardRun_keeps ..) (by decide)
    | with_reducible apply Keeps.step (resetRegs_keeps ..) (by decide)
    | with_reducible apply Keeps.each (fun _ _ => ?_)
    | with_reducible apply Keeps.iteSnd
    | with_reducible apply Keeps.iteFst
    | with_reducible apply Keeps.foldl (fun _ _ => ?_)
    | with_reducible apply Keeps.foldlPair (fun _ _ => ?_)
    | fail_if_no_progress with_reducible apply Keeps.time_acc_firn (by decide) (by decide) (by decide)
    | fail_if_no_progress with_reducible apply Keeps.time_acc (by decide) (by decide)
    | split

theorem loseRegion_keeps (a0) (a1) (s : State) : Keeps [.out, .regs, .time, .firn, .xb, .rq, .arb, .pred, .camp, .seg, .trc] s (loseRegion a0 a1 s) := by
  unfold loseRegion
  repeat' first
    | with_reducible exact Keeps.refl
    | assumption
    | dsimp only
    | with_reducible apply Keeps.ite
    | with_reducible apply Keeps.step (State.emit_keeps ..) (by decide)
    | with_reducible apply Keeps.step (State.setArb_keeps ..) (by decide)
    | with_reducible apply Keeps.step (State.setCamp_keeps ..) (by decide)
    | with_reducible apply Keeps.step (State.setLane_keeps ..) (by decide)
    | with_reducible apply Keeps.step (State.setPred_keeps ..) (by decide)
    | with_reducible apply Keeps.step (State.setSeg_keeps ..) (by decide)
    | with_reducible apply Keeps.step (State.setToClus_keeps ..) (by decide)
    | with_reducible apply Keeps.step (discardRun_keeps ..) (by decide)
    | with_reducible apply Keeps.step (resetRegs_keeps ..) (by decide)
    | with_reducible apply Keeps.each (fun _ _ => ?_)
    | with_reducible apply Keeps.iteSnd
    | with_reducible apply Keeps.iteFst
    | with_reducible apply Keeps.foldl (fun _ _ => ?_)
    | with_reducible apply Keeps.foldlPair (fun _ _ => ?_)
    | fail_if_no_progress with_reducible apply Keeps.time_firn_xb (by decide) (by decide) (by decide)

theorem restoreCluster_keeps (a0) (s : State) : Keeps [.regs, .src, .firn, .xb, .pwr, .trc] s (restoreCluster a0 s) := by
  unfold restoreCluster
  repeat' first
    | with_reducible exact Keeps.refl
    | assumption
    | dsimp only
    | with_reducible apply Keeps.ite
    | with_reducible apply Keeps.step (restoreScope_keeps ..) (by decide)

theorem restoreRegion_keeps (a0) (s : State) : Keeps [.regs, .src, .firn, .xb, .pwr, .trc] s (restoreRegion a0 s) := by
  unfold restoreRegion
  repeat' first
    | with_reducible exact Keeps.refl
    | assumption
    | dsimp only
    | with_reducible apply Keeps.ite
    | with_reducible apply Keeps.step (restoreScope_keeps ..) (by decide)

theorem rewake_keeps (s : State) : Keeps [.pwr] s (rewake s) := by
  unfold rewake
  repeat' first
    | with_reducible exact Keeps.refl
    | assumption
    | dsimp only
    | with_reducible apply Keeps.ite
    | with_reducible apply Keeps.step (wakeFor_keeps ..) (by decide)
    | with_reducible apply Keeps.each (fun _ _ => ?_)

theorem returnTokens_keeps (a0) (s : State) : Keeps [.pwr] s (returnTokens a0 s) := by
  unfold returnTokens
  repeat' first
    | with_reducible exact Keeps.refl
    | assumption
    | dsimp only
    | with_reducible apply Keeps.ite
    | with_reducible apply Keeps.iteSnd
    | with_reducible apply Keeps.iteFst
    | with_reducible apply Keeps.foldl (fun _ _ => ?_)
    | with_reducible apply Keeps.foldlPair (fun _ _ => ?_)
    | fail_if_no_progress with_reducible apply Keeps.pwr (by decide)

theorem dropDomain_keeps (a0) (a1) (s : State) : Keeps [.out, .regs, .time, .src, .acc, .firn, .xb, .rq, .arb, .core, .pred, .clus, .camp, .seg, .lnk, .pwr, .edw, .trc] s (dropDomain a0 a1 s) := by
  unfold dropDomain
  repeat' first
    | with_reducible exact Keeps.refl
    | assumption
    | dsimp only
    | with_reducible apply Keeps.ite
    | with_reducible apply Keeps.step (returnTokens_keeps ..) (by decide)
    | with_reducible apply Keeps.step (edwOff_keeps ..) (by decide)
    | with_reducible apply Keeps.step (State.setDom_keeps ..) (by decide)
    | with_reducible apply Keeps.step (lnkDomainOff_keeps ..) (by decide)
    | with_reducible apply Keeps.step (loseCluster_keeps ..) (by decide)
    | with_reducible apply Keeps.step (loseRegion_keeps ..) (by decide)
    | with_reducible apply Keeps.step (resetRegs_keeps ..) (by decide)
    | with_reducible apply Keeps.step (restoreCluster_keeps ..) (by decide)
    | with_reducible apply Keeps.step (rewake_keeps ..) (by decide)
    | with_reducible apply Keeps.each (fun _ _ => ?_)
    | with_reducible apply Keeps.iteSnd
    | with_reducible apply Keeps.iteFst
    | with_reducible apply Keeps.foldl (fun _ _ => ?_)
    | with_reducible apply Keeps.foldlPair (fun _ _ => ?_)
    | fail_if_no_progress with_reducible apply Keeps.pwr (by decide)

theorem pwrRequest_keeps (a0) (a1) (s : State) : Keeps [.out, .regs, .time, .src, .acc, .firn, .xb, .rq, .arb, .core, .pred, .clus, .camp, .seg, .lnk, .pwr, .bar, .edw, .trc] s (pwrRequest a0 a1 s) := by
  unfold pwrRequest
  repeat' first
    | with_reducible exact Keeps.refl
    | assumption
    | dsimp only
    | with_reducible apply Keeps.ite
    | with_reducible apply Keeps.step (State.raise_keeps ..) (by decide)
    | with_reducible apply Keeps.step (State.wr_keeps ..) (by decide)
    | with_reducible apply Keeps.step (dropDomain_keeps ..) (by decide)
    | with_reducible apply Keeps.step (wake_keeps ..) (by decide)

theorem noteDelayed_keeps (s : State) : Keeps [.regs, .pwr] s (noteDelayed s) := by
  unfold noteDelayed
  repeat' first
    | with_reducible exact Keeps.refl
    | assumption
    | dsimp only
    | with_reducible apply Keeps.ite
    | with_reducible apply Keeps.step (State.inc_keeps ..) (by decide)
    | with_reducible apply Keeps.iteSnd
    | with_reducible apply Keeps.iteFst
    | with_reducible apply Keeps.foldl (fun _ _ => ?_)
    | with_reducible apply Keeps.foldlPair (fun _ _ => ?_)
    | fail_if_no_progress with_reducible apply Keeps.pwr (by decide)
    | split

theorem hostGrant_keeps (s : State) : Keeps [.regs, .gate] s (hostGrant s) := by
  unfold hostGrant
  repeat' first
    | with_reducible exact Keeps.refl
    | assumption
    | dsimp only
    | with_reducible apply Keeps.ite
    | with_reducible apply Keeps.step (State.inc_keeps ..) (by decide)
    | with_reducible apply Keeps.iteSnd
    | with_reducible apply Keeps.iteFst
    | with_reducible apply Keeps.foldl (fun _ _ => ?_)
    | with_reducible apply Keeps.foldlPair (fun _ _ => ?_)
    | fail_if_no_progress with_reducible apply Keeps.gate (by decide)

theorem resetCluster_keeps (a0) (s : State) : Keeps [.regs, .time, .src, .acc, .firn, .xb, .arb, .core, .clus, .camp, .pwr, .trc] s (resetCluster a0 s) := by
  unfold resetCluster
  repeat' first
    | with_reducible exact Keeps.refl
    | assumption
    | dsimp only
    | with_reducible apply Keeps.ite
    | with_reducible apply Keeps.step (loseCluster_keeps ..) (by decide)
    | with_reducible apply Keeps.step (restoreCluster_keeps ..) (by decide)
    | with_reducible apply Keeps.iteSnd
    | with_reducible apply Keeps.iteFst
    | with_reducible apply Keeps.foldl (fun _ _ => ?_)
    | with_reducible apply Keeps.foldlPair (fun _ _ => ?_)
    | fail_if_no_progress with_reducible apply Keeps.pwr (by decide)
    | split

theorem resetRegion_keeps (a0) (s : State) : Keeps [.out, .regs, .time, .src, .acc, .firn, .xb, .rq, .arb, .core, .pred, .clus, .camp, .seg, .pwr, .trc] s (resetRegion a0 s) := by
  unfold resetRegion
  repeat' first
    | with_reducible exact Keeps.refl
    | assumption
    | dsimp only
    | with_reducible apply Keeps.ite
    | with_reducible apply Keeps.step (loseCluster_keeps ..) (by decide)
    | with_reducible apply Keeps.step (loseRegion_keeps ..) (by decide)
    | with_reducible apply Keeps.step (restoreRegion_keeps ..) (by decide)
    | with_reducible apply Keeps.each (fun _ _ => ?_)
    | with_reducible apply Keeps.iteSnd
    | with_reducible apply Keeps.iteFst
    | with_reducible apply Keeps.foldl (fun _ _ => ?_)
    | with_reducible apply Keeps.foldlPair (fun _ _ => ?_)
    | fail_if_no_progress with_reducible apply Keeps.pwr (by decide)
    | split

theorem domainOn_keeps (a0) (s : State) : Keeps [.regs, .src, .firn, .xb, .arb, .clus, .seg, .lnk, .pwr, .bar, .gate, .edw, .trc] s (domainOn a0 s) := by
  unfold domainOn
  repeat' first
    | with_reducible exact Keeps.refl
    | assumption
    | dsimp only
    | with_reducible apply Keeps.ite
    | with_reducible apply Keeps.step (State.setArb_keeps ..) (by decide)
    | with_reducible apply Keeps.step (State.setSeg_keeps ..) (by decide)
    | with_reducible apply Keeps.step (askFills_keeps ..) (by decide)
    | with_reducible apply Keeps.step (edwOn_keeps ..) (by decide)
    | with_reducible apply Keeps.step (restoreCluster_keeps ..) (by decide)
    | with_reducible apply Keeps.step (restoreRegion_keeps ..) (by decide)
    | with_reducible apply Keeps.step (tryDetect_keeps ..) (by decide)
    | with_reducible apply Keeps.each (fun _ _ => ?_)

theorem tryBoot_keeps (s : State) : Keeps [.out, .regs, .staged, .img, .su] s (tryBoot s) := by
  unfold tryBoot
  repeat' first
    | with_reducible exact Keeps.refl
    | assumption
    | dsimp only
    | with_reducible apply Keeps.ite
    | with_reducible apply Keeps.step (startBoot_keeps ..) (by decide)
    | with_reducible apply Keeps.iteSnd
    | with_reducible apply Keeps.iteFst
    | with_reducible apply Keeps.foldl (fun _ _ => ?_)
    | with_reducible apply Keeps.foldlPair (fun _ _ => ?_)
    | fail_if_no_progress with_reducible apply Keeps.su (by decide)

theorem hostEdwDrop_keeps (a0) (s : State) : Keeps [.regs, .gate] s (hostEdwDrop a0 s) := by
  unfold hostEdwDrop
  repeat' first
    | with_reducible exact Keeps.refl
    | assumption
    | dsimp only
    | with_reducible apply Keeps.ite
    | with_reducible apply Keeps.iteSnd
    | with_reducible apply Keeps.iteFst
    | with_reducible apply Keeps.foldl (fun _ _ => ?_)
    | with_reducible apply Keeps.foldlPair (fun _ _ => ?_)
    | fail_if_no_progress with_reducible apply Keeps.regs_gate (by decide) (by decide)

theorem hostPwrRequest_keeps (a0) (a1) (s : State) : Keeps [.out, .regs, .src, .acc, .xb, .camp, .pwr, .bar, .gate, .trc] s (hostPwrRequest a0 a1 s) := by
  unfold hostPwrRequest
  repeat' first
    | with_reducible exact Keeps.refl
    | assumption
    | dsimp only
    | with_reducible apply Keeps.ite
    | with_reducible apply Keeps.step (State.raise_keeps ..) (by decide)
    | with_reducible apply Keeps.step (State.wr_keeps ..) (by decide)
    | with_reducible apply Keeps.step (hostEdwDrop_keeps ..) (by decide)
    | with_reducible apply Keeps.iteSnd
    | with_reducible apply Keeps.iteFst
    | with_reducible apply Keeps.foldl (fun _ _ => ?_)
    | with_reducible apply Keeps.foldlPair (fun _ _ => ?_)
    | fail_if_no_progress with_reducible apply Keeps.gate (by decide)

theorem cutOffers_keeps (s : State) : Keeps [.regs, .src, .acc, .firn, .xb, .pwr, .trc] s (cutOffers s) := by
  unfold cutOffers
  repeat' first
    | with_reducible exact Keeps.refl
    | assumption
    | dsimp only
    | with_reducible apply Keeps.ite
    | with_reducible apply Keeps.step (State.setRec_keeps ..) (by decide)
    | with_reducible apply Keeps.step (applyDone_keeps ..) (by decide)
    | with_reducible apply Keeps.each (fun _ _ => ?_)
    | with_reducible apply Keeps.iteSnd
    | with_reducible apply Keeps.iteFst
    | with_reducible apply Keeps.foldl (fun _ _ => ?_)
    | with_reducible apply Keeps.foldlPair (fun _ _ => ?_)
    | fail_if_no_progress with_reducible apply Keeps.acc (by decide)
    | split

theorem rebuildHostQ_keeps (s : State) : Keeps [.hostq] s (rebuildHostQ s) := by
  unfold rebuildHostQ
  repeat' first
    | with_reducible exact Keeps.refl
    | assumption
    | dsimp only
    | with_reducible apply Keeps.ite
    | with_reducible apply Keeps.iteSnd
    | with_reducible apply Keeps.iteFst
    | with_reducible apply Keeps.foldl (fun _ _ => ?_)
    | with_reducible apply Keeps.foldlPair (fun _ _ => ?_)
    | fail_if_no_progress with_reducible apply Keeps.hostq (by decide)

theorem domainsOff_keeps (s : State) : Keeps [.pwr] s (domainsOff s) := by
  unfold domainsOff
  repeat' first
    | with_reducible exact Keeps.refl
    | assumption
    | dsimp only
    | with_reducible apply Keeps.ite
    | with_reducible apply Keeps.iteSnd
    | with_reducible apply Keeps.iteFst
    | with_reducible apply Keeps.foldl (fun _ _ => ?_)
    | with_reducible apply Keeps.foldlPair (fun _ _ => ?_)
    | fail_if_no_progress with_reducible apply Keeps.pwr (by decide)

theorem resetInstance_keeps (a0) (s : State) : Keeps [.out, .regs, .staged, .once, .time, .src, .yar, .acc, .firn, .xb, .rq, .arb, .core, .pred, .clus, .camp, .seg, .lnk, .audit, .rec_, .lock, .img, .rime, .pwr, .bar, .hostq, .trc, .tst] s (resetInstance a0 s) := by
  unfold resetInstance
  repeat' first
    | with_reducible exact Keeps.refl
    | assumption
    | dsimp only
    | with_reducible apply Keeps.ite
    | with_reducible apply Keeps.step (stampPersist_keeps ..) (by decide)
    | with_reducible apply Keeps.step (copyBack_keeps ..) (by decide)
    | with_reducible apply Keeps.step (State.emit_keeps ..) (by decide)
    | with_reducible apply Keeps.step (State.setSeg_keeps ..) (by decide)
    | with_reducible apply Keeps.step (cutOffers_keeps ..) (by decide)
    | with_reducible apply Keeps.step (domainsOff_keeps ..) (by decide)
    | with_reducible apply Keeps.step (lockBreak_keeps ..) (by decide)
    | with_reducible apply Keeps.step (rebuildHostQ_keeps ..) (by decide)
    | with_reducible apply Keeps.step (resetPort_keeps ..) (by decide)
    | with_reducible apply Keeps.step (resetRegs_keeps ..) (by decide)
    | with_reducible apply Keeps.step (restoreHeld_keeps ..) (by decide)
    | with_reducible apply Keeps.each (fun _ _ => ?_)
    | with_reducible apply Keeps.iteSnd
    | with_reducible apply Keeps.iteFst
    | with_reducible apply Keeps.foldl (fun _ _ => ?_)
    | with_reducible apply Keeps.foldlPair (fun _ _ => ?_)
    | fail_if_no_progress with_reducible apply Keeps.parts20 (by decide) (by decide) (by decide) (by decide) (by decide) (by decide) (by decide) (by decide) (by decide) (by decide) (by decide) (by decide) (by decide) (by decide) (by decide) (by decide) (by decide) (by decide) (by decide) (by decide)
    | fail_if_no_progress with_reducible apply Keeps.parts19 (by decide) (by decide) (by decide) (by decide) (by decide) (by decide) (by decide) (by decide) (by decide) (by decide) (by decide) (by decide) (by decide) (by decide) (by decide) (by decide) (by decide) (by decide) (by decide)
    | fail_if_no_progress with_reducible apply Keeps.parts19 (by decide) (by decide) (by decide) (by decide) (by decide) (by decide) (by decide) (by decide) (by decide) (by decide) (by decide) (by decide) (by decide) (by decide) (by decide) (by decide) (by decide) (by decide) (by decide)
    | fail_if_no_progress with_reducible apply Keeps.parts19 (by decide) (by decide) (by decide) (by decide) (by decide) (by decide) (by decide) (by decide) (by decide) (by decide) (by decide) (by decide) (by decide) (by decide) (by decide) (by decide) (by decide) (by decide) (by decide)
    | fail_if_no_progress with_reducible apply Keeps.parts19 (by decide) (by decide) (by decide) (by decide) (by decide) (by decide) (by decide) (by decide) (by decide) (by decide) (by decide) (by decide) (by decide) (by decide) (by decide) (by decide) (by decide) (by decide) (by decide)
    | fail_if_no_progress with_reducible apply Keeps.arb (by decide)
    | fail_if_no_progress with_reducible apply Keeps.once (by decide)

theorem startFrom_keeps (a0) (a1) (s : State) : Keeps [.regs, .su] s (startFrom a0 a1 s) := by
  unfold startFrom
  repeat' first
    | with_reducible exact Keeps.refl
    | assumption
    | dsimp only
    | with_reducible apply Keeps.ite
    | with_reducible apply Keeps.step (State.raise_keeps ..) (by decide)
    | with_reducible apply Keeps.step (State.wr_keeps ..) (by decide)
    | with_reducible apply Keeps.iteSnd
    | with_reducible apply Keeps.iteFst
    | with_reducible apply Keeps.foldl (fun _ _ => ?_)
    | with_reducible apply Keeps.foldlPair (fun _ _ => ?_)
    | fail_if_no_progress with_reducible apply Keeps.su (by decide)

theorem dieReset_keeps (a0) (s : State) : Keeps [.out, .regs, .staged, .once, .time, .src, .yar, .acc, .firn, .xb, .rq, .arb, .core, .pred, .clus, .camp, .seg, .lnk, .audit, .rec_, .lock, .img, .rime, .pwr, .su, .bar, .hostq, .trc, .tst] s (dieReset a0 s) := by
  unfold dieReset
  repeat' first
    | with_reducible exact Keeps.refl
    | assumption
    | dsimp only
    | with_reducible apply Keeps.ite
    | with_reducible apply Keeps.step (resetInstance_keeps ..) (by decide)
    | with_reducible apply Keeps.step (startFrom_keeps ..) (by decide)
    | with_reducible apply Keeps.iteSnd
    | with_reducible apply Keeps.iteFst
    | with_reducible apply Keeps.foldl (fun _ _ => ?_)
    | with_reducible apply Keeps.foldlPair (fun _ _ => ?_)
    | fail_if_no_progress with_reducible apply Keeps.su (by decide)

theorem coldReset_keeps (a0) (s : State) : Keeps [.pending, .regs, .staged, .once, .time, .epoch, .src, .yar, .acc, .firn, .xb, .rq, .arb, .core, .pred, .clus, .camp, .seg, .lnk, .audit, .rec_, .lock, .img, .rime, .pwr, .su, .bar, .hostq, .gate, .edw, .trc, .tst] s (coldReset a0 s) := by
  unfold coldReset
  repeat' first
    | with_reducible exact Keeps.refl
    | assumption
    | dsimp only
    | with_reducible apply Keeps.ite
    | with_reducible apply Keeps.step (State.wr_keeps ..) (by decide)
    | with_reducible apply Keeps.step (useSlot_keeps ..) (by decide)
    | with_reducible apply Keeps.iteSnd
    | with_reducible apply Keeps.iteFst
    | with_reducible apply Keeps.foldl (fun _ _ => ?_)
    | with_reducible apply Keeps.foldlPair (fun _ _ => ?_)
    | fail_if_no_progress with_reducible apply Keeps.parts32 (by decide) (by decide) (by decide) (by decide) (by decide) (by decide) (by decide) (by decide) (by decide) (by decide) (by decide) (by decide) (by decide) (by decide) (by decide) (by decide) (by decide) (by decide) (by decide) (by decide) (by decide) (by decide) (by decide) (by decide) (by decide) (by decide) (by decide) (by decide) (by decide) (by decide) (by decide) (by decide)
    | fail_if_no_progress with_reducible apply Keeps.parts20 (by decide) (by decide) (by decide) (by decide) (by decide) (by decide) (by decide) (by decide) (by decide) (by decide) (by decide) (by decide) (by decide) (by decide) (by decide) (by decide) (by decide) (by decide) (by decide) (by decide)
    | fail_if_no_progress with_reducible apply Keeps.time_acc_bar_hostq (by decide) (by decide) (by decide) (by decide)
    | fail_if_no_progress with_reducible apply Keeps.acc_bar_hostq (by decide) (by decide) (by decide)
    | fail_if_no_progress with_reducible apply Keeps.acc_firn_edw (by decide) (by decide) (by decide)
    | fail_if_no_progress with_reducible apply Keeps.time_acc_bar (by decide) (by decide) (by decide)
    | fail_if_no_progress with_reducible apply Keeps.time_acc_hostq (by decide) (by decide) (by decide)
    | fail_if_no_progress with_reducible apply Keeps.time_acc_xb (by decide) (by decide) (by decide)
    | fail_if_no_progress with_reducible apply Keeps.time_bar_hostq (by decide) (by decide) (by decide)
    | fail_if_no_progress with_reducible apply Keeps.acc_bar (by decide) (by decide)
    | fail_if_no_progress with_reducible apply Keeps.acc_edw (by decide) (by decide)
    | fail_if_no_progress with_reducible apply Keeps.acc_firn (by decide) (by decide)
    | fail_if_no_progress with_reducible apply Keeps.acc_hostq (by decide) (by decide)
    | fail_if_no_progress with_reducible apply Keeps.acc_rec_ (by decide) (by decide)
    | fail_if_no_progress with_reducible apply Keeps.acc_xb (by decide) (by decide)
    | fail_if_no_progress with_reducible apply Keeps.bar_gate (by decide) (by decide)
    | fail_if_no_progress with_reducible apply Keeps.bar_hostq (by decide) (by decide)
    | fail_if_no_progress with_reducible apply Keeps.firn_edw (by decide) (by decide)
    | fail_if_no_progress with_reducible apply Keeps.firn_hostq (by decide) (by decide)
    | fail_if_no_progress with_reducible apply Keeps.firn_su (by decide) (by decide)
    | fail_if_no_progress with_reducible apply Keeps.img_edw (by decide) (by decide)
    | fail_if_no_progress with_reducible apply Keeps.img_rime (by decide) (by decide)
    | fail_if_no_progress with_reducible apply Keeps.pwr_gate (by decide) (by decide)
    | fail_if_no_progress with_reducible apply Keeps.regs_edw (by decide) (by decide)
    | fail_if_no_progress with_reducible apply Keeps.regs_gate (by decide) (by decide)
    | fail_if_no_progress with_reducible apply Keeps.rq_rec_ (by decide) (by decide)
    | fail_if_no_progress with_reducible apply Keeps.src_img (by decide) (by decide)
    | fail_if_no_progress with_reducible apply Keeps.time_acc (by decide) (by decide)
    | fail_if_no_progress with_reducible apply Keeps.time_bar (by decide) (by decide)
    | fail_if_no_progress with_reducible apply Keeps.time_hostq (by decide) (by decide)
    | fail_if_no_progress with_reducible apply Keeps.time_su (by decide) (by decide)
    | fail_if_no_progress with_reducible apply Keeps.time_xb (by decide) (by decide)
    | fail_if_no_progress with_reducible apply Keeps.xb_trc (by decide) (by decide)
    | fail_if_no_progress with_reducible apply Keeps.yar_img (by decide) (by decide)
    | fail_if_no_progress with_reducible apply Keeps.yar_rime (by decide) (by decide)
    | fail_if_no_progress with_reducible apply Keeps.pending (by decide)
    | fail_if_no_progress with_reducible apply Keeps.regs (by decide)
    | fail_if_no_progress with_reducible apply Keeps.staged (by decide)
    | fail_if_no_progress with_reducible apply Keeps.once (by decide)
    | fail_if_no_progress with_reducible apply Keeps.time (by decide)
    | fail_if_no_progress with_reducible apply Keeps.epoch (by decide)
    | fail_if_no_progress with_reducible apply Keeps.src (by decide)
    | fail_if_no_progress with_reducible apply Keeps.yar (by decide)
    | fail_if_no_progress with_reducible apply Keeps.acc (by decide)
    | fail_if_no_progress with_reducible apply Keeps.firn (by decide)
    | fail_if_no_progress with_reducible apply Keeps.xb (by decide)
    | fail_if_no_progress with_reducible apply Keeps.rq (by decide)
    | fail_if_no_progress with_reducible apply Keeps.arb (by decide)
    | fail_if_no_progress with_reducible apply Keeps.core (by decide)
    | fail_if_no_progress with_reducible apply Keeps.pred (by decide)
    | fail_if_no_progress with_reducible apply Keeps.clus (by decide)
    | fail_if_no_progress with_reducible apply Keeps.camp (by decide)
    | fail_if_no_progress with_reducible apply Keeps.seg (by decide)
    | fail_if_no_progress with_reducible apply Keeps.lnk (by decide)
    | fail_if_no_progress with_reducible apply Keeps.audit (by decide)
    | fail_if_no_progress with_reducible apply Keeps.rec_ (by decide)
    | fail_if_no_progress with_reducible apply Keeps.lock (by decide)
    | fail_if_no_progress with_reducible apply Keeps.img (by decide)
    | fail_if_no_progress with_reducible apply Keeps.rime (by decide)
    | fail_if_no_progress with_reducible apply Keeps.pwr (by decide)
    | fail_if_no_progress with_reducible apply Keeps.su (by decide)
    | fail_if_no_progress with_reducible apply Keeps.bar (by decide)
    | fail_if_no_progress with_reducible apply Keeps.hostq (by decide)
    | fail_if_no_progress with_reducible apply Keeps.gate (by decide)
    | fail_if_no_progress with_reducible apply Keeps.edw (by decide)
    | fail_if_no_progress with_reducible apply Keeps.trc (by decide)
    | fail_if_no_progress with_reducible apply Keeps.tst (by decide)
    | split

theorem bistEnd_keeps (a0) (s : State) : Keeps [.regs, .firn, .su] s (bistEnd a0 s) := by
  unfold bistEnd
  repeat' first
    | with_reducible exact Keeps.refl
    | assumption
    | dsimp only
    | with_reducible apply Keeps.ite
    | with_reducible apply Keeps.step (State.raise_keeps ..) (by decide)
    | with_reducible apply Keeps.step (State.wr_keeps ..) (by decide)
    | with_reducible apply Keeps.iteSnd
    | with_reducible apply Keeps.iteFst
    | with_reducible apply Keeps.foldl (fun _ _ => ?_)
    | with_reducible apply Keeps.foldlPair (fun _ _ => ?_)
    | fail_if_no_progress with_reducible apply Keeps.firn_su (by decide) (by decide)

theorem enterLink_keeps (s : State) : Keeps [.lnk, .pwr, .su] s (enterLink s) := by
  unfold enterLink
  repeat' first
    | with_reducible exact Keeps.refl
    | assumption
    | dsimp only
    | with_reducible apply Keeps.ite
    | with_reducible apply Keeps.step (tryDetect_keeps ..) (by decide)
    | with_reducible apply Keeps.step (wakeSys_keeps ..) (by decide)
    | with_reducible apply Keeps.each (fun _ _ => ?_)
    | with_reducible apply Keeps.iteSnd
    | with_reducible apply Keeps.iteFst
    | with_reducible apply Keeps.foldl (fun _ _ => ?_)
    | with_reducible apply Keeps.foldlPair (fun _ _ => ?_)
    | fail_if_no_progress with_reducible apply Keeps.su (by decide)

theorem enterLoad_keeps (s : State) : Keeps [.out, .regs, .staged, .lnk, .img, .pwr, .su] s (enterLoad s) := by
  unfold enterLoad
  repeat' first
    | with_reducible exact Keeps.refl
    | assumption
    | dsimp only
    | with_reducible apply Keeps.ite
    | with_reducible apply Keeps.step (enterLink_keeps ..) (by decide)
    | with_reducible apply Keeps.step (tryBoot_keeps ..) (by decide)
    | with_reducible apply Keeps.step (wakeSys_keeps ..) (by decide)
    | with_reducible apply Keeps.each (fun _ _ => ?_)
    | with_reducible apply Keeps.iteSnd
    | with_reducible apply Keeps.iteFst
    | with_reducible apply Keeps.foldl (fun _ _ => ?_)
    | with_reducible apply Keeps.foldlPair (fun _ _ => ?_)
    | fail_if_no_progress with_reducible apply Keeps.su (by decide)

theorem noteSending_keeps (s : State) : Keeps [.rec_] s (noteSending s) := by
  unfold noteSending
  repeat' first
    | with_reducible exact Keeps.refl
    | assumption
    | dsimp only
    | with_reducible apply Keeps.ite
    | with_reducible apply Keeps.iteSnd
    | with_reducible apply Keeps.iteFst
    | with_reducible apply Keeps.foldl (fun _ _ => ?_)
    | with_reducible apply Keeps.foldlPair (fun _ _ => ?_)
    | fail_if_no_progress with_reducible apply Keeps.rec_ (by decide)

theorem afterThaw0_keeps (s : State) : Keeps [.regs, .src, .firn, .xb, .rec_, .pwr, .trc] s (afterThaw0 s) := by
  unfold afterThaw0
  repeat' first
    | with_reducible exact Keeps.refl
    | assumption
    | dsimp only
    | with_reducible apply Keeps.ite
    | with_reducible apply Keeps.step (noteSending_keeps ..) (by decide)
    | with_reducible apply Keeps.step (broadcast_keeps ..) (by decide)
    | with_reducible apply Keeps.step (probeAll_keeps ..) (by decide)
    | with_reducible apply Keeps.step (resendDones_keeps ..) (by decide)
    | with_reducible apply Keeps.step (restoreScope_keeps ..) (by decide)
    | with_reducible apply Keeps.iteSnd
    | with_reducible apply Keeps.iteFst
    | with_reducible apply Keeps.foldl (fun _ _ => ?_)
    | with_reducible apply Keeps.foldlPair (fun _ _ => ?_)
    | fail_if_no_progress with_reducible apply Keeps.rec_ (by decide)

theorem noteRecov_keeps (s : State) : Keeps [.rec_, .su] s (noteRecov s) := by
  unfold noteRecov
  repeat' first
    | with_reducible exact Keeps.refl
    | assumption
    | dsimp only
    | with_reducible apply Keeps.ite
    | with_reducible apply Keeps.iteSnd
    | with_reducible apply Keeps.iteFst
    | with_reducible apply Keeps.foldl (fun _ _ => ?_)
    | with_reducible apply Keeps.foldlPair (fun _ _ => ?_)
    | fail_if_no_progress with_reducible apply Keeps.rec__su (by decide) (by decide)
    | fail_if_no_progress with_reducible apply Keeps.su (by decide)

end Sys2Proof.Machine
end

