-- ==== Sys2Proof/Laws/KeepsTrace.lean ====
section
/-! SUPPORT. What the operations of Machine/Trace.lean leave alone. -/

namespace Sys2Proof.Machine

theorem noteUnread_keeps (s : State) : Keeps [.trc] s (noteUnread s) := by
  unfold noteUnread
  repeat' first
    | with_reducible exact Keeps.refl
    | assumption
    | dsimp only
    | with_reducible apply Keeps.ite
    | with_reducible apply Keeps.iteSnd
    | with_reducible apply Keeps.iteFst
    | with_reducible apply Keeps.foldl (fun _ _ => ?_)
    | with_reducible apply Keeps.foldlPair (fun _ _ => ?_)
    | fail_if_no_progress with_reducible apply Keeps.trc (by decide)

theorem freeEntry_keeps (s : State) : Keeps [.regs, .trc] s (freeEntry s) := by
  unfold freeEntry
  repeat' first
    | with_reducible exact Keeps.refl
    | assumption
    | dsimp only
    | with_reducible apply Keeps.ite
    | with_reducible apply Keeps.step (State.inc_keeps ..) (by decide)
    | with_reducible apply Keeps.iteSnd
    | with_reducible apply Keeps.iteFst
    | with_reducible apply Keeps.foldl (fun _ _ => ?_)
    | with_reducible apply Keeps.foldlPair (fun _ _ => ?_)
    | fail_if_no_progress with_reducible apply Keeps.trc (by decide)

theorem drainTrace_keeps (s : State) : Keeps [.regs, .trc] s (drainTrace s) := by
  unfold drainTrace
  repeat' first
    | with_reducible exact Keeps.refl
    | assumption
    | dsimp only
    | with_reducible apply Keeps.ite
    | with_reducible apply Keeps.step (State.inc_keeps ..) (by decide)
    | with_reducible apply Keeps.step (State.raise_keeps ..) (by decide)
    | with_reducible apply Keeps.step (freeEntry_keeps ..) (by decide)
    | with_reducible apply Keeps.step (noteUnread_keeps ..) (by decide)
    | with_reducible apply Keeps.iteSnd
    | with_reducible apply Keeps.iteFst
    | with_reducible apply Keeps.foldl (fun _ _ => ?_)
    | with_reducible apply Keeps.foldlPair (fun _ _ => ?_)
    | fail_if_no_progress with_reducible apply Keeps.trc (by decide)
    | split

theorem doorbell_keeps (s : State) : Keeps [.out, .regs, .src, .trc] s (doorbell s) := by
  unfold doorbell
  repeat' first
    | with_reducible exact Keeps.refl
    | assumption
    | dsimp only
    | with_reducible apply Keeps.ite
    | with_reducible apply Keeps.step (State.emit_keeps ..) (by decide)
    | with_reducible apply Keeps.step (mpuFaultField_keeps ..) (by decide)
    | with_reducible apply Keeps.iteSnd
    | with_reducible apply Keeps.iteFst
    | with_reducible apply Keeps.foldl (fun _ _ => ?_)
    | with_reducible apply Keeps.foldlPair (fun _ _ => ?_)
    | fail_if_no_progress with_reducible apply Keeps.trc (by decide)
    | split

theorem noteBad_keeps (s : State) : Keeps [.trc] s (noteBad s) := by
  unfold noteBad
  repeat' first
    | with_reducible exact Keeps.refl
    | assumption
    | dsimp only
    | with_reducible apply Keeps.ite
    | with_reducible apply Keeps.iteSnd
    | with_reducible apply Keeps.iteFst
    | with_reducible apply Keeps.foldl (fun _ _ => ?_)
    | with_reducible apply Keeps.foldlPair (fun _ _ => ?_)
    | fail_if_no_progress with_reducible apply Keeps.trc (by decide)

theorem traceAdvance_keeps (s : State) : Keeps [.regs, .trc] s (traceAdvance s) := by
  unfold traceAdvance
  repeat' first
    | with_reducible exact Keeps.refl
    | assumption
    | dsimp only
    | with_reducible apply Keeps.ite
    | with_reducible apply Keeps.step (freeEntry_keeps ..) (by decide)
    | with_reducible apply Keeps.step (noteUnread_keeps ..) (by decide)
    | with_reducible apply Keeps.iteSnd
    | with_reducible apply Keeps.iteFst
    | with_reducible apply Keeps.foldl (fun _ _ => ?_)
    | with_reducible apply Keeps.foldlPair (fun _ _ => ?_)
    | fail_if_no_progress with_reducible apply Keeps.trc (by decide)

theorem traceMove_keeps (a0) (s : State) : KeepsO [.regs, .trc] s (traceMove a0 s) := by
  unfold traceMove
  repeat' first
    | with_reducible exact Keeps.refl
    | assumption
    | dsimp only
    | with_reducible apply Keeps.ite
    | with_reducible apply Keeps.step (State.inc_keeps ..) (by decide)
    | with_reducible apply Keeps.step (noteUnread_keeps ..) (by decide)
    | with_reducible apply Keeps.iteSnd
    | with_reducible apply Keeps.iteFst
    | with_reducible apply Keeps.foldl (fun _ _ => ?_)
    | with_reducible apply Keeps.foldlPair (fun _ _ => ?_)
    | with_reducible exact KeepsO.none
    | with_reducible apply KeepsO.mk'
    | with_reducible apply KeepsO.ite
    | with_reducible refine KeepsO.bind ?_ (fun _ _ => ?_)
    | with_reducible refine KeepsO.map ?_ (fun _ _ => ?_)
    | fail_if_no_progress with_reducible apply Keeps.trc (by decide)

theorem traceCtrlWritten_keeps (a0) (a1) (s : State) : Keeps [.trc] s (traceCtrlWritten a0 a1 s) := by
  unfold traceCtrlWritten
  repeat' first
    | with_reducible exact Keeps.refl
    | assumption
    | dsimp only
    | with_reducible apply Keeps.ite
    | with_reducible apply Keeps.iteSnd
    | with_reducible apply Keeps.iteFst
    | with_reducible apply Keeps.foldl (fun _ _ => ?_)
    | with_reducible apply Keeps.foldlPair (fun _ _ => ?_)
    | fail_if_no_progress with_reducible apply Keeps.trc (by decide)

theorem inject_keeps (a0) (s : State) : KeepsO [.xb] s (inject a0 s) := by
  unfold inject
  repeat' first
    | with_reducible exact Keeps.refl
    | assumption
    | dsimp only
    | with_reducible apply Keeps.ite
    | with_reducible apply Keeps.step (State.setBuf_keeps ..) (by decide)
    | with_reducible apply Keeps.iteSnd
    | with_reducible apply Keeps.iteFst
    | with_reducible apply Keeps.foldl (fun _ _ => ?_)
    | with_reducible apply Keeps.foldlPair (fun _ _ => ?_)
    | with_reducible exact KeepsO.none
    | with_reducible apply KeepsO.mk'
    | with_reducible apply KeepsO.ite
    | with_reducible refine KeepsO.bind ?_ (fun _ _ => ?_)
    | with_reducible refine KeepsO.map ?_ (fun _ _ => ?_)
    | fail_if_no_progress with_reducible apply Keeps.xb (by decide)

theorem setLtest_keeps (a0) (s : State) : Keeps [.regs, .lnk, .tst] s (setLtest a0 s) := by
  unfold setLtest
  repeat' first
    | with_reducible exact Keeps.refl
    | assumption
    | dsimp only
    | with_reducible apply Keeps.ite
    | with_reducible apply Keeps.step (State.wr_keeps ..) (by decide)
    | with_reducible apply Keeps.step (State.setPort_keeps ..) (by decide)
    | with_reducible apply Keeps.iteSnd
    | with_reducible apply Keeps.iteFst
    | with_reducible apply Keeps.foldl (fun _ _ => ?_)
    | with_reducible apply Keeps.foldlPair (fun _ _ => ?_)
    | fail_if_no_progress with_reducible apply Keeps.tst (by decide)

theorem testCtrlWrite_keeps (a0) (s : State) : KeepsO [.regs, .xb, .lnk, .tst] s (testCtrlWrite a0 s) := by
  unfold testCtrlWrite
  repeat' first
    | with_reducible exact Keeps.refl
    | assumption
    | dsimp only
    | with_reducible apply Keeps.ite
    | with_reducible apply Keeps.step (setLtest_keeps ..) (by decide)
    | with_reducible apply Keeps.step (State.wr_keeps ..) (by decide)
    | with_reducible apply KeepsO.step (inject_keeps ..) (by decide)
    | with_reducible apply Keeps.iteSnd
    | with_reducible apply Keeps.iteFst
    | with_reducible apply Keeps.foldl (fun _ _ => ?_)
    | with_reducible apply Keeps.foldlPair (fun _ _ => ?_)
    | with_reducible exact KeepsO.none
    | with_reducible apply KeepsO.mk'
    | with_reducible apply KeepsO.ite
    | with_reducible refine KeepsO.bind ?_ (fun _ _ => ?_)
    | with_reducible refine KeepsO.map ?_ (fun _ _ => ?_)
    | fail_if_no_progress with_reducible apply Keeps.tst (by decide)

theorem countErrs_keeps (a0) (a1) (a2) (s : State) : Keeps [.tst] s (countErrs a0 a1 a2 s) := by
  unfold countErrs
  repeat' first
    | with_reducible exact Keeps.refl
    | assumption
    | dsimp only
    | with_reducible apply Keeps.ite
    | with_reducible apply Keeps.iteSnd
    | with_reducible apply Keeps.iteFst
    | with_reducible apply Keeps.foldl (fun _ _ => ?_)
    | with_reducible apply Keeps.foldlPair (fun _ _ => ?_)
    | fail_if_no_progress with_reducible apply Keeps.tst (by decide)

end Sys2Proof.Machine
end

