-- ==== Sys2Proof/Laws/KeepsClock.lean ====
section
/-! SUPPORT. What the operations of Machine/Clock.lean leave alone. -/

namespace Sys2Proof.Machine

theorem arbBeatOf_keeps (a0) (a1) (s : State) : Keeps [.out, .regs, .time, .xb, .rq, .arb, .camp, .lnk, .bar, .gate] s (arbBeatOf a0 a1 s) := by
  unfold arbBeatOf
  repeat' first
    | with_reducible exact Keeps.refl
    | assumption
    | dsimp only
    | with_reducible apply Keeps.ite
    | with_reducible apply Keeps.step (clusBeat_keeps ..) (by decide)
    | with_reducible apply Keeps.step (linkBeat_keeps ..) (by decide)
    | with_reducible apply Keeps.step (ringBeat_keeps ..) (by decide)
    | with_reducible apply Keeps.step (spillBeat_keeps ..) (by decide)

theorem linkRun_keeps (a0) (s : State) : Keeps [.out, .regs, .time, .xb, .rq, .arb, .camp, .lnk, .bar, .gate] s (linkRun a0 s) := by
  have hb : ∀ j s, Keeps [.out, .regs, .time, .xb, .rq, .arb, .camp, .lnk, .bar, .gate] s (arbBeatOf a0 j s) := arbBeatOf_keeps a0
  unfold linkRun
  repeat' first
    | with_reducible exact Keeps.refl
    | assumption
    | dsimp only
    | with_reducible apply Keeps.ite
    | with_reducible apply Keeps.step (arbSync_keeps ..) (by decide)
    | with_reducible apply Keeps.step (arbWithdraw_keeps ..) (by decide)
    | with_reducible refine Keeps.trans ?_ (arbBeats_keeps (by decide) _ hb _ _)
    | with_reducible refine Keeps.trans ?_ (arbRun_keeps (by decide) _ _ hb _)
    | split

theorem pinRing_keeps (a0) (s : State) : Keeps [.gate] s (pinRing a0 s) := by
  unfold pinRing
  repeat' first
    | with_reducible exact Keeps.refl
    | assumption
    | dsimp only
    | with_reducible apply Keeps.ite
    | with_reducible apply Keeps.step (ringPin_keeps ..) (by decide)
    | with_reducible apply Keeps.iteSnd
    | with_reducible apply Keeps.iteFst
    | with_reducible apply Keeps.foldl (fun _ _ => ?_)
    | with_reducible apply Keeps.foldlPair (fun _ _ => ?_)

theorem hostCycle_keeps (s : State) : Keeps [.gate] s (hostCycle s) := by
  unfold hostCycle
  repeat' first
    | with_reducible exact Keeps.refl
    | assumption
    | dsimp only
    | with_reducible apply Keeps.ite
    | with_reducible apply Keeps.iteSnd
    | with_reducible apply Keeps.iteFst
    | with_reducible apply Keeps.foldl (fun _ _ => ?_)
    | with_reducible apply Keeps.foldlPair (fun _ _ => ?_)
    | fail_if_no_progress with_reducible apply Keeps.gate (by decide)

theorem endLow_keeps (s : State) : Keeps [.core] s (endLow s) := by
  unfold endLow
  repeat' first
    | with_reducible exact Keeps.refl
    | assumption
    | dsimp only
    | with_reducible apply Keeps.ite
    | with_reducible apply Keeps.step (State.setCore_keeps ..) (by decide)
    | with_reducible apply Keeps.each (fun _ _ => ?_)

theorem countOn_keeps (a0) (s : State) : Keeps [.time] s (countOn a0 s) := by
  unfold countOn
  repeat' first
    | with_reducible exact Keeps.refl
    | assumption
    | dsimp only
    | with_reducible apply Keeps.ite
    | with_reducible apply Keeps.iteSnd
    | with_reducible apply Keeps.iteFst
    | with_reducible apply Keeps.foldl (fun _ _ => ?_)
    | with_reducible apply Keeps.foldlPair (fun _ _ => ?_)
    | fail_if_no_progress with_reducible apply Keeps.time (by decide)

theorem arbCycle_keeps (a0) (s : State) : Keeps [.regs, .arb] s (arbCycle a0 s) := arbTick_keeps ..

theorem noteVersions_keeps (s : State) : Keeps [.regs] s (noteVersions s) := by
  unfold noteVersions
  repeat' first
    | with_reducible exact Keeps.refl
    | assumption
    | dsimp only
    | with_reducible apply Keeps.ite
    | with_reducible apply Keeps.step (State.raise_keeps ..) (by decide)
    | with_reducible apply Keeps.iteSnd
    | with_reducible apply Keeps.iteFst
    | with_reducible apply Keeps.foldl (fun _ _ => ?_)
    | with_reducible apply Keeps.foldlPair (fun _ _ => ?_)
    | with_reducible apply Keeps.each (fun _ _ => ?_)

theorem fieldCycle_keeps (a0) (s : State) : Keeps [.out, .regs, .time, .src, .yar, .xb, .arb, .core, .clus, .rec_, .pwr, .su, .trc] s (fieldCycle a0 s) := by
  unfold fieldCycle
  repeat' first
    | with_reducible exact Keeps.refl
    | assumption
    | dsimp only
    | with_reducible apply Keeps.ite
    | with_reducible apply Keeps.step (endOffers_keeps ..) (by decide)
    | with_reducible apply Keeps.step (endCaptures_keeps ..) (by decide)
    | with_reducible apply Keeps.step (noteVersions_keeps ..) (by decide)
    | with_reducible apply Keeps.step (endLostMigrations_keeps ..) (by decide)
    | with_reducible apply Keeps.step (arbCycle_keeps ..) (by decide)
    | with_reducible apply Keeps.step (doorbell_keeps ..) (by decide)
    | with_reducible apply Keeps.step (drainTrace_keeps ..) (by decide)
    | with_reducible apply Keeps.step (endLow_keeps ..) (by decide)
    | with_reducible apply Keeps.step (noteDelayed_keeps ..) (by decide)
    | with_reducible apply Keeps.step (noteRecov_keeps ..) (by decide)
    | with_reducible apply Keeps.step (noteRoutes_keeps ..) (by decide)
    | with_reducible apply Keeps.step (yarCycle_keeps ..) (by decide)
    | with_reducible apply Keeps.each (fun _ _ => ?_)
    | with_reducible apply Keeps.iteSnd
    | with_reducible apply Keeps.iteFst
    | with_reducible apply Keeps.foldl (fun _ _ => ?_)
    | with_reducible apply Keeps.foldlPair (fun _ _ => ?_)
    | fail_if_no_progress with_reducible apply Keeps.xb (by decide)
    | fail_if_no_progress with_reducible apply Keeps.time (by decide)

theorem cycle_keeps (a0) (a1) (s : State) : Keeps [.out, .regs, .time, .src, .yar, .xb, .arb, .core, .clus, .rec_, .pwr, .su, .gate, .trc] s (cycle a0 a1 s) := by
  unfold cycle
  repeat' first
    | with_reducible exact Keeps.refl
    | assumption
    | dsimp only
    | with_reducible apply Keeps.ite
    | with_reducible apply Keeps.step (countOn_keeps ..) (by decide)
    | with_reducible apply Keeps.step (arbCycle_keeps ..) (by decide)
    | with_reducible apply Keeps.step (fieldCycle_keeps ..) (by decide)
    | with_reducible apply Keeps.step (hostCycle_keeps ..) (by decide)
    | with_reducible apply Keeps.each (fun _ _ => ?_)

theorem tick_keeps (s : State) : Keeps [.out, .regs, .time, .src, .yar, .xb, .arb, .core, .clus, .rec_, .pwr, .su, .gate, .trc] s (tick s) :=
  effect_keeps (fun s => cycle_keeps 2 false s) (by decide) s

end Sys2Proof.Machine
end

