-- ==== Sys2Proof/Laws/KeepsThaw.lean ====
section
/-! SUPPORT. What the operations of Machine/Thaw.lean leave alone. -/

namespace Sys2Proof.Machine

theorem takeWires_keeps (a0) (a1) (s : State) : Keeps [.regs, .src, .trc] s (takeWires a0 a1 s) := by
  unfold takeWires
  repeat' first
    | with_reducible exact Keeps.refl
    | assumption
    | dsimp only
    | with_reducible apply Keeps.ite
    | with_reducible apply Keeps.step (lineChange_keeps ..) (by decide)
    | with_reducible apply Keeps.iteSnd
    | with_reducible apply Keeps.iteFst
    | with_reducible apply Keeps.foldl (fun _ _ => ?_)
    | with_reducible apply Keeps.foldlPair (fun _ _ => ?_)
    | with_reducible apply Keeps.each (fun _ _ => ?_)
    | split

theorem thawSlot_keeps (a0) (s : State) : Keeps [.out, .regs, .time, .xb, .rq, .arb, .camp, .lnk, .bar, .gate, .tst] s (thawSlot a0 s) := by
  unfold thawSlot
  repeat' first
    | with_reducible exact Keeps.refl
    | assumption
    | dsimp only
    | with_reducible apply Keeps.ite
    | with_reducible apply arbStep_keeps (by decide)
    | with_reducible apply Keeps.step (idleSlot_keeps ..) (by decide)
    | with_reducible apply Keeps.step (linkRun_keeps ..) (by decide)
    | with_reducible apply Keeps.step (arbBeatOf_keeps ..) (by decide)
    | with_reducible apply Keeps.iteSnd
    | with_reducible apply Keeps.iteFst
    | with_reducible apply Keeps.foldl (fun _ _ => ?_)
    | with_reducible apply Keeps.foldlPair (fun _ _ => ?_)
    | split
    | exact fun _ _ => Keeps.mono (arbBeatOf_keeps ..) (by decide)

theorem thawArbs_keeps (a0) (s : State) : Keeps [.out, .regs, .time, .xb, .rq, .arb, .camp, .lnk, .bar, .gate, .tst] s (thawArbs a0 s) := by
  unfold thawArbs
  repeat' first
    | with_reducible exact Keeps.refl
    | assumption
    | dsimp only
    | with_reducible apply Keeps.ite
    | with_reducible apply arbStep_keeps (by decide)
    | with_reducible apply Keeps.step (arbRefill_keeps ..) (by decide)
    | with_reducible apply Keeps.step (arbBeatOf_keeps ..) (by decide)
    | with_reducible apply Keeps.step (thawSlot_keeps ..) (by decide)
    | with_reducible apply Keeps.iteSnd
    | with_reducible apply Keeps.iteFst
    | with_reducible apply Keeps.foldl (fun _ _ => ?_)
    | with_reducible apply Keeps.foldlPair (fun _ _ => ?_)
    | with_reducible apply Keeps.each (fun _ _ => ?_)
    | split
    | exact fun _ _ => Keeps.mono (arbBeatOf_keeps ..) (by decide)

theorem thawCycle_keeps (a0) (s : State) : Keeps [.out, .regs, .time, .src, .yar, .xb, .rq, .arb, .core, .clus, .camp, .lnk, .rec_, .pwr, .su, .bar, .gate, .trc, .tst] s (thawCycle a0 s) := by
  unfold thawCycle
  repeat' first
    | with_reducible exact Keeps.refl
    | assumption
    | dsimp only
    | with_reducible apply Keeps.ite
    | with_reducible apply Keeps.step (thawArbs_keeps ..) (by decide)
    | with_reducible apply Keeps.step (cycle_keeps ..) (by decide)
    | with_reducible apply Keeps.step (takeWires_keeps ..) (by decide)
    | with_reducible apply Keeps.iteSnd
    | with_reducible apply Keeps.iteFst
    | with_reducible apply Keeps.foldl (fun _ _ => ?_)
    | with_reducible apply Keeps.foldlPair (fun _ _ => ?_)

theorem thawCycles_keeps (a0) (a1) (s : State) : Keeps [.out, .regs, .time, .src, .yar, .xb, .rq, .arb, .core, .clus, .camp, .lnk, .rec_, .pwr, .su, .bar, .gate, .trc, .tst] s (thawCycles a0 a1 s) := by
  induction a1 generalizing s with
  | zero => exact Keeps.refl
  | succ n ih => exact (thawCycle_keeps a0 s).trans (ih _)

theorem times_keeps {w : List Part} {s0 s : State} (_ : [] ⊆ w) {f : State → State} (hf : ∀ s, Keeps w s (f s)) (n)
    (h : Keeps w s0 s) : Keeps w s0 (times f n s) := by
  induction n generalizing s with
  | zero => exact h
  | succ n ih => exact ih (h.trans (hf s))

theorem clearCells_keeps (s : State) : Keeps [.yar] s (clearCells s) := by
  unfold clearCells
  repeat' first
    | with_reducible exact Keeps.refl
    | assumption
    | dsimp only
    | with_reducible apply Keeps.ite
    | with_reducible apply Keeps.step (setCellRun_keeps ..) (by decide)
    | with_reducible apply Keeps.each (fun _ _ => ?_)

theorem deepBegin_keeps (s : State) : Keeps [.img] s (deepBegin s) := by
  unfold deepBegin
  repeat' first
    | with_reducible exact Keeps.refl
    | assumption
    | dsimp only
    | with_reducible apply Keeps.ite
    | with_reducible apply Keeps.iteSnd
    | with_reducible apply Keeps.iteFst
    | with_reducible apply Keeps.foldl (fun _ _ => ?_)
    | with_reducible apply Keeps.foldlPair (fun _ _ => ?_)
    | fail_if_no_progress with_reducible apply Keeps.img (by decide)

theorem freeze_keeps (a0) (a1) (s : State) : Keeps [.out, .regs, .time, .epoch, .src, .yar, .xb, .rq, .arb, .core, .clus, .camp, .lnk, .rec_, .img, .pwr, .su, .bar, .gate, .trc, .tst] s (freeze a0 a1 s) := by
  unfold freeze
  repeat' first
    | with_reducible exact Keeps.refl
    | assumption
    | dsimp only
    | with_reducible apply Keeps.ite
    | with_reducible apply Keeps.step (State.raise_keeps ..) (by decide)
    | with_reducible apply Keeps.step (emptyWindows_keeps ..) (by decide)
    | with_reducible apply Keeps.step (thawCycle_keeps ..) (by decide)
    | with_reducible apply Keeps.step (clearCells_keeps ..) (by decide)
    | with_reducible apply Keeps.step (deepBegin_keeps ..) (by decide)
    | with_reducible apply Keeps.iteSnd
    | with_reducible apply Keeps.iteFst
    | with_reducible apply Keeps.foldl (fun _ _ => ?_)
    | with_reducible apply Keeps.foldlPair (fun _ _ => ?_)
    | fail_if_no_progress with_reducible apply Keeps.epoch (by decide)

theorem drainAll_keeps (s : State) : Keeps [.out, .regs, .src, .acc, .firn, .xb, .rq, .core, .camp, .pwr, .bar, .edw, .trc] s (drainAll s) := by
  unfold drainAll
  repeat' first
    | intro _
    | with_reducible exact Keeps.refl
    | assumption
    | dsimp only
    | with_reducible apply Keeps.ite
    | with_reducible apply Keeps.step (acceptOldest_keeps ..) (by decide)
    | with_reducible apply Keeps.step (handIn_keeps ..) (by decide)
    | with_reducible apply times_keeps (by decide)
    | with_reducible apply Keeps.step (writeOldest_keeps ..) (by decide)
    | with_reducible apply Keeps.each (fun _ _ => ?_)

theorem migrateAll_keeps (a0) (s : State) : Keeps [.rec_] s (migrateAll a0 s) := by
  unfold migrateAll
  repeat' first
    | with_reducible exact Keeps.refl
    | assumption
    | dsimp only
    | with_reducible apply Keeps.ite
    | with_reducible apply Keeps.step (startMigration_keeps ..) (by decide)
    | with_reducible apply Keeps.each (fun _ _ => ?_)

theorem discardDisabled_keeps (s : State) : Keeps [.regs, .src, .trc] s (discardDisabled s) := by
  unfold discardDisabled
  repeat' first
    | with_reducible exact Keeps.refl
    | assumption
    | dsimp only
    | with_reducible apply Keeps.ite
    | with_reducible apply Keeps.step (State.setLatch_keeps ..) (by decide)
    | with_reducible apply Keeps.step (countRefusal_keeps ..) (by decide)
    | with_reducible apply Keeps.each (fun _ _ => ?_)
    | with_reducible apply Keeps.iteSnd
    | with_reducible apply Keeps.iteFst
    | with_reducible apply Keeps.foldl (fun _ _ => ?_)
    | with_reducible apply Keeps.foldlPair (fun _ _ => ?_)
    | split

theorem invalidateCaches_keeps (s : State) : Keeps [.clus] s (invalidateCaches s) := by
  unfold invalidateCaches
  repeat' first
    | with_reducible exact Keeps.refl
    | assumption
    | dsimp only
    | with_reducible apply Keeps.ite
    | with_reducible apply Keeps.step (State.setClus_keeps ..) (by decide)
    | with_reducible apply Keeps.step (askFills_keeps ..) (by decide)
    | with_reducible apply Keeps.each (fun _ _ => ?_)

theorem releaseSpare_keeps (a0) (s : State) : Keeps [.seg] s (releaseSpare a0 s) := by
  unfold releaseSpare
  repeat' first
    | with_reducible exact Keeps.refl
    | assumption
    | dsimp only
    | with_reducible apply Keeps.ite
    | with_reducible apply Keeps.step (State.setSeg_keeps ..) (by decide)

theorem designate_keeps (a0) (s : State) : Keeps [.seg] s (designate a0 s) := by
  unfold designate
  repeat' first
    | with_reducible exact Keeps.refl
    | assumption
    | dsimp only
    | with_reducible apply Keeps.ite
    | with_reducible apply Keeps.step (State.setSeg_keeps ..) (by decide)
    | with_reducible apply Keeps.step (releaseSpare_keeps ..) (by decide)
    | with_reducible apply Keeps.iteSnd
    | with_reducible apply Keeps.iteFst
    | with_reducible apply Keeps.foldl (fun _ _ => ?_)
    | with_reducible apply Keeps.foldlPair (fun _ _ => ?_)
    | split

theorem commitS2_keeps (a0) (s : State) : Keeps [.regs, .staged, .img, .rime] s (commitS2 a0 s) := by
  unfold commitS2
  repeat' first
    | with_reducible exact Keeps.refl
    | assumption
    | dsimp only
    | with_reducible apply Keeps.ite
    | with_reducible apply Keeps.step (commitWord_keeps ..) (by decide)
    | with_reducible apply Keeps.step (exchange_keeps ..) (by decide)
    | with_reducible apply Keeps.step (partDone_keeps ..) (by decide)
    | with_reducible apply Keeps.each (fun _ _ => ?_)

theorem commitPart1_keeps (s : State) : Keeps [.regs, .staged, .img, .rime] s (commitPart1 s) := by
  unfold commitPart1
  repeat' first
    | with_reducible exact Keeps.refl
    | assumption
    | dsimp only
    | with_reducible apply Keeps.ite
    | with_reducible apply Keeps.step (commitWord_keeps ..) (by decide)
    | with_reducible apply Keeps.step (exchange_keeps ..) (by decide)
    | with_reducible apply Keeps.step (partDone_keeps ..) (by decide)
    | with_reducible apply Keeps.each (fun _ _ => ?_)

theorem commitS5_keeps (s : State) : Keeps [.regs, .img, .edw] s (commitS5 s) := by
  unfold commitS5
  repeat' first
    | with_reducible exact Keeps.refl
    | assumption
    | dsimp only
    | with_reducible apply Keeps.ite
    | with_reducible apply Keeps.step (partDone_keeps ..) (by decide)
    | with_reducible apply Keeps.step (putS5Word_keeps ..) (by decide)
    | with_reducible apply Keeps.each (fun _ _ => ?_)
    | with_reducible apply Keeps.iteSnd
    | with_reducible apply Keeps.iteFst
    | with_reducible apply Keeps.foldl (fun _ _ => ?_)
    | with_reducible apply Keeps.foldlPair (fun _ _ => ?_)
    | fail_if_no_progress with_reducible apply Keeps.edw (by decide)

theorem commitFirst_keeps (a0) (a1) (s : State) : Keeps [.regs, .staged, .src, .xb, .clus, .rec_, .img, .rime, .pwr, .edw, .trc] s (commitFirst a0 a1 s) := by
  unfold commitFirst
  repeat' first
    | with_reducible exact Keeps.refl
    | assumption
    | dsimp only
    | with_reducible apply Keeps.ite
    | with_reducible apply Keeps.step (freeFull_keeps ..) (by decide)
    | with_reducible apply Keeps.step (commitPart1_keeps ..) (by decide)
    | with_reducible apply Keeps.step (commitS5_keeps ..) (by decide)
    | with_reducible apply Keeps.step (commitWord_keeps ..) (by decide)
    | with_reducible apply Keeps.step (discardDisabled_keeps ..) (by decide)
    | with_reducible apply Keeps.step (invalidateCaches_keeps ..) (by decide)
    | with_reducible apply Keeps.step (migrateAll_keeps ..) (by decide)
    | with_reducible apply Keeps.step (reroute_keeps ..) (by decide)
    | with_reducible apply Keeps.step (startResync_keeps ..) (by decide)
    | with_reducible apply Keeps.each (fun _ _ => ?_)
    | with_reducible apply Keeps.iteSnd
    | with_reducible apply Keeps.iteFst
    | with_reducible apply Keeps.foldl (fun _ _ => ?_)
    | with_reducible apply Keeps.foldlPair (fun _ _ => ?_)
    | fail_if_no_progress with_reducible apply Keeps.xb (by decide)

theorem commitPhase_keeps (a0) (a1) (a2) (a3) (s : State) : Keeps [.out, .regs, .staged, .time, .src, .yar, .xb, .rq, .arb, .core, .clus, .camp, .seg, .lnk, .rec_, .img, .rime, .pwr, .su, .bar, .gate, .edw, .trc, .tst] s (commitPhase a0 a1 a2 a3 s).2 := by
  unfold commitPhase
  repeat' first
    | with_reducible exact Keeps.refl
    | assumption
    | dsimp only
    | with_reducible apply Keeps.ite
    | with_reducible apply Keeps.step (thawCycle_keeps ..) (by decide)
    | with_reducible apply Keeps.step (commitFirst_keeps ..) (by decide)
    | with_reducible apply Keeps.step (commitS2_keeps ..) (by decide)
    | with_reducible apply Keeps.step (designate_keeps ..) (by decide)
    | with_reducible apply Keeps.step (releaseSpare_keeps ..) (by decide)
    | with_reducible apply Keeps.step (thawCycles_keeps ..) (by decide)
    | with_reducible apply Keeps.each (fun _ _ => ?_)
    | with_reducible apply Keeps.foldl (fun _ _ => ?_)

theorem restorePhase_keeps (a0) (a1) (s : State) : Keeps [.out, .regs, .time, .src, .yar, .xb, .rq, .arb, .core, .clus, .camp, .lnk, .rec_, .img, .rime, .pwr, .su, .bar, .gate, .trc, .tst] s (restorePhase a0 a1 s).2 := by
  induction a1 generalizing s with
  | zero => exact Keeps.refl
  | succ n ih =>
    unfold restorePhase
    repeat' first
      | with_reducible exact Keeps.refl
      | assumption
      | dsimp only
      | with_reducible apply Keeps.ite
      | with_reducible apply Keeps.step (thawCycle_keeps ..) (by decide)
      | with_reducible apply Keeps.step (restoreMark_keeps ..) (by decide)
      | with_reducible apply Keeps.step (discardDisabled_keeps ..) (by decide)
      | with_reducible apply Keeps.iteSnd
      | with_reducible apply Keeps.iteFst
      | with_reducible apply Keeps.foldl (fun _ _ => ?_)
      | with_reducible apply Keeps.foldlPair (fun _ _ => ?_)
      | with_reducible apply Keeps.step (ih ..) (by decide)
      | split

theorem takeOver_keeps (a0) (a1) (a2) (s : State) : Keeps [.regs, .src, .camp, .seg, .trc] s (takeOver a0 a1 a2 s) := by
  unfold takeOver
  repeat' first
    | with_reducible exact Keeps.refl
    | assumption
    | dsimp only
    | with_reducible apply Keeps.ite
    | with_reducible apply Keeps.step (State.setCamp_keeps ..) (by decide)
    | with_reducible apply Keeps.step (State.setSeg_keeps ..) (by decide)
    | with_reducible apply Keeps.step (raiseInt_keeps ..) (by decide)

theorem takeoverPhase_keeps (a0) (s : State) : Keeps [.out, .regs, .time, .src, .yar, .xb, .rq, .arb, .core, .clus, .camp, .seg, .lnk, .rec_, .pwr, .su, .bar, .gate, .trc, .tst] s (takeoverPhase a0 s).2 := by
  unfold takeoverPhase
  repeat' first
    | with_reducible exact Keeps.refl
    | assumption
    | dsimp only
    | with_reducible apply Keeps.ite
    | with_reducible apply Keeps.step (takeOver_keeps ..) (by decide)
    | with_reducible apply Keeps.step (thawCycles_keeps ..) (by decide)
    | with_reducible apply Keeps.step (wake_keeps ..) (by decide)
    | with_reducible apply Keeps.each (fun _ _ => ?_)
    | with_reducible apply Keeps.iteSnd

theorem openLatches_keeps (a0) (s : State) : Keeps [.regs, .src, .trc] s (openLatches a0 s) := by
  unfold openLatches
  repeat' first
    | with_reducible exact Keeps.refl
    | assumption
    | dsimp only
    | with_reducible apply Keeps.ite
    | with_reducible apply Keeps.step (latchEvent_keeps ..) (by decide)
    | with_reducible apply Keeps.step (levelTest_keeps ..) (by decide)
    | with_reducible apply Keeps.iteSnd
    | with_reducible apply Keeps.iteFst
    | with_reducible apply Keeps.foldl (fun _ _ => ?_)
    | with_reducible apply Keeps.foldlPair (fun _ _ => ?_)
    | with_reducible apply Keeps.each (fun _ _ => ?_)
    | fail_if_no_progress with_reducible apply Keeps.src (by decide)
    | split

theorem openPhase_keeps (a0) (s : State) : Keeps [.out, .regs, .time, .src, .yar, .acc, .xb, .rq, .arb, .core, .clus, .camp, .lnk, .rec_, .img, .pwr, .su, .bar, .gate, .trc, .tst] s (openPhase a0 s) := by
  unfold openPhase
  repeat' first
    | with_reducible exact Keeps.refl
    | assumption
    | dsimp only
    | with_reducible apply Keeps.ite
    | with_reducible apply Keeps.step (openLatches_keeps ..) (by decide)
    | with_reducible apply Keeps.step (thawArbs_keeps ..) (by decide)
    | with_reducible apply Keeps.step (State.wr_keeps ..) (by decide)
    | with_reducible apply Keeps.step (resolveStamps_keeps ..) (by decide)
    | with_reducible apply Keeps.step (takeWires_keeps ..) (by decide)
    | with_reducible apply Keeps.step (barQueue_keeps ..) (by decide)
    | with_reducible apply Keeps.step (cycle_keeps ..) (by decide)
    | with_reducible apply Keeps.step (pumpRemote_keeps ..) (by decide)
    | with_reducible apply Keeps.step (stampWrites_keeps ..) (by decide)
    | with_reducible apply Keeps.each (fun _ _ => ?_)
    | with_reducible apply Keeps.iteSnd
    | with_reducible apply Keeps.iteFst
    | with_reducible apply Keeps.foldl (fun _ _ => ?_)
    | with_reducible apply Keeps.foldlPair (fun _ _ => ?_)
    | fail_if_no_progress with_reducible apply Keeps.img (by decide)
    | fail_if_no_progress with_reducible apply Keeps.src (by decide)
    | fail_if_no_progress with_reducible apply Keeps.src_img (by decide) (by decide)
    | split

theorem closeThaw_keeps (w d) (c : Nat × State) : Keeps [.out, .regs, .time, .src, .yar, .acc, .xb, .rq, .arb, .core, .clus, .camp, .seg, .lnk, .rec_, .img, .rime, .pwr, .su, .bar, .gate, .trc, .tst] c.2 (closeThaw w d c) := by
  unfold closeThaw
  exact Keeps.step (State.wr_keeps ..) (by decide) (Keeps.step (openPhase_keeps ..) (by decide) (Keeps.step (thawCycle_keeps ..) (by decide)
    (Keeps.step (takeoverPhase_keeps ..) (by decide) (Keeps.mono (restorePhase_keeps ..) (by decide)))))

theorem runThaw_keeps (a0) (a1) (a2) (s : State) : Keeps [.out, .regs, .staged, .time, .epoch, .src, .yar, .acc, .firn, .xb, .rq, .arb, .core, .clus, .camp, .seg, .lnk, .rec_, .img, .rime, .pwr, .su, .bar, .gate, .edw, .trc, .tst] s (runThaw a0 a1 a2 s) := by
  unfold runThaw
  repeat' first
    | with_reducible exact Keeps.refl
    | assumption
    | dsimp only
    | with_reducible apply Keeps.ite
    | with_reducible apply Keeps.step (closeThaw_keeps ..) (by decide)
    | with_reducible apply Keeps.step (commitPhase_keeps ..) (by decide)
    | with_reducible apply Keeps.step (drainAll_keeps ..) (by decide)
    | with_reducible apply Keeps.step (freeze_keeps ..) (by decide)
    | with_reducible apply Keeps.step (partDone_keeps ..) (by decide)
    | with_reducible apply Keeps.step (thawCycles_keeps ..) (by decide)
    | with_reducible apply Keeps.each (fun _ _ => ?_)

end Sys2Proof.Machine
end

