-- ==== Sys2Proof/Laws/KeepsRegisters.lean ====
section
/-! SUPPORT. What the operations of Machine/Registers.lean leave alone. -/

namespace Sys2Proof.Machine

theorem latchWord_keeps (a0) (a1) (a2) (s : State) : Keeps [.time] s (latchWord a0 a1 a2 s) := by
  unfold latchWord
  repeat' first
    | with_reducible exact Keeps.refl
    | assumption
    | dsimp only
    | with_reducible apply Keeps.ite
    | with_reducible apply Keeps.iteSnd
    | with_reducible apply Keeps.iteFst
    | with_reducible apply Keeps.foldl (fun _ _ => ?_)
    | with_reducible apply Keeps.foldlPair (fun _ _ => ?_)
    | fail_if_no_progress with_reducible apply Keeps.time (by decide)

theorem readEffect_keeps (a0) (a1) (a2) (s : State) : Keeps [.regs, .time, .core, .clus, .lock, .edw, .trc, .tst] s (readEffect a0 a1 a2 s) := by
  unfold readEffect
  repeat' first
    | with_reducible exact Keeps.refl
    | assumption
    | dsimp only
    | with_reducible apply Keeps.ite
    | with_reducible apply Keeps.step (State.inc_keeps ..) (by decide)
    | with_reducible apply Keeps.step (State.setChan_keeps ..) (by decide)
    | with_reducible apply Keeps.step (State.wr_keeps ..) (by decide)
    | with_reducible apply Keeps.step (claimEffect_keeps ..) (by decide)
    | with_reducible apply Keeps.step (latchWord_keeps ..) (by decide)
    | with_reducible apply Keeps.step (lockRead_keeps ..) (by decide)
    | with_reducible apply Keeps.step (traceAdvance_keeps ..) (by decide)
    | with_reducible apply Keeps.iteSnd
    | with_reducible apply Keeps.iteFst
    | with_reducible apply Keeps.foldl (fun _ _ => ?_)
    | with_reducible apply Keeps.foldlPair (fun _ _ => ?_)
    | fail_if_no_progress with_reducible apply Keeps.tst (by decide)
    | split

theorem clearRC_keeps (a0) (s : State) : Keeps [.regs] s (clearRC a0 s) := by
  unfold clearRC
  repeat' first
    | with_reducible exact Keeps.refl
    | assumption
    | dsimp only
    | with_reducible apply Keeps.ite
    | with_reducible apply Keeps.step (State.wr_keeps ..) (by decide)
    | with_reducible apply Keeps.each (fun _ _ => ?_)

theorem readReg_keeps (a0) (a1) (a2) (s : State) : Keeps [.out, .fresh, .regs, .time, .core, .clus, .lock, .edw, .trc, .tst] s (readReg a0 a1 a2 s) := by
  unfold readReg
  repeat' first
    | with_reducible exact Keeps.refl
    | assumption
    | dsimp only
    | with_reducible apply Keeps.ite
    | with_reducible apply Keeps.step (noteBad_keeps ..) (by decide)
    | with_reducible apply Keeps.step (busError_keeps ..) (by decide)
    | with_reducible apply Keeps.step (clearRC_keeps ..) (by decide)
    | with_reducible apply Keeps.step (readEffect_keeps ..) (by decide)
    | with_reducible apply Keeps.step (respond_keeps ..) (by decide)
    | with_reducible apply Keeps.iteSnd
    | with_reducible apply Keeps.iteFst
    | with_reducible apply Keeps.foldl (fun _ _ => ?_)
    | with_reducible apply Keeps.foldlPair (fun _ _ => ?_)
    | fail_if_no_progress with_reducible apply Keeps.fresh (by decide)
    | split

end Sys2Proof.Machine
end

