-- ==== Sys2Proof/Laws/KeepsWrites.lean ====
section
/-! SUPPORT. What the operations of Machine/Writes.lean leave alone. -/

namespace Sys2Proof.Machine

theorem noteLocked_keeps (a0) (a1) (s : State) : Keeps [.regs] s (noteLocked a0 a1 s) := by
  unfold noteLocked
  repeat' first
    | with_reducible exact Keeps.refl
    | assumption
    | dsimp only
    | with_reducible apply Keeps.ite
    | with_reducible apply Keeps.step (State.inc_keeps ..) (by decide)
    | with_reducible apply Keeps.step (State.raise_keeps ..) (by decide)
    | with_reducible apply Keeps.step (State.wr_keeps ..) (by decide)

theorem stagePart_keeps (a0) (a1) (a2) (s : State) : Keeps [.regs, .staged, .lock] s (stagePart a0 a1 a2 s).1 := by
  unfold stagePart
  repeat' first
    | with_reducible exact Keeps.refl
    | assumption
    | dsimp only
    | with_reducible apply Keeps.ite
    | with_reducible apply Keeps.step (State.raise_keeps ..) (by decide)
    | with_reducible apply Keeps.step (State.setLock_keeps ..) (by decide)
    | with_reducible apply Keeps.step (stageWord_keeps ..) (by decide)
    | with_reducible apply Keeps.iteSnd
    | with_reducible apply Keeps.iteFst
    | with_reducible apply Keeps.foldl (fun _ _ => ?_)
    | with_reducible apply Keeps.foldlPair (fun _ _ => ?_)
    | (with_reducible apply Keeps.opt (lockStage_keeps ..); assumption; decide)
    | split

theorem putFields_keeps (a0) (a1) (s : State) : Keeps [.regs] s (putFields a0 a1 s) := by
  unfold putFields
  repeat' first
    | with_reducible exact Keeps.refl
    | assumption
    | dsimp only
    | with_reducible apply Keeps.ite
    | with_reducible apply Keeps.step (State.wr_keeps ..) (by decide)
    | with_reducible apply Keeps.each (fun _ _ => ?_)

theorem lockWrite_keeps (a0) (a1) (a2) (s : State) : KeepsO [.fresh, .regs, .staged, .src, .lock, .trc] s (lockWrite a0 a1 a2 s) := by
  unfold lockWrite
  repeat' first
    | with_reducible exact Keeps.refl
    | assumption
    | dsimp only
    | with_reducible apply Keeps.ite
    | with_reducible apply Keeps.step (lockBreak_keeps ..) (by decide)
    | with_reducible apply Keeps.step (lockFree_keeps ..) (by decide)
    | with_reducible apply Keeps.step (lockRelease_keeps ..) (by decide)
    | with_reducible apply Keeps.iteSnd
    | with_reducible apply Keeps.iteFst
    | with_reducible apply Keeps.foldl (fun _ _ => ?_)
    | with_reducible apply Keeps.foldlPair (fun _ _ => ?_)
    | with_reducible exact KeepsO.none
    | with_reducible apply KeepsO.mk'
    | with_reducible apply KeepsO.ite
    | with_reducible refine KeepsO.bind ?_ (fun _ _ => ?_)
    | with_reducible refine KeepsO.map ?_ (fun _ _ => ?_)
    | fail_if_no_progress with_reducible apply Keeps.fresh (by decide)

theorem resetRequest_keeps (a0) (a1) (s : State) : KeepsO [.out, .regs, .staged, .once, .time, .src, .yar, .acc, .firn, .xb, .rq, .arb, .core, .pred, .clus, .camp, .seg, .lnk, .audit, .rec_, .lock, .img, .rime, .pwr, .su, .bar, .hostq, .trc, .tst] s (resetRequest a0 a1 s) := by
  unfold resetRequest
  repeat' first
    | with_reducible exact Keeps.refl
    | assumption
    | dsimp only
    | with_reducible apply Keeps.ite
    | with_reducible apply Keeps.step (noteReset_keeps ..) (by decide)
    | with_reducible apply Keeps.step (resetCampion_keeps ..) (by decide)
    | with_reducible apply Keeps.step (resetCluster_keeps ..) (by decide)
    | with_reducible apply Keeps.step (resetCore_keeps ..) (by decide)
    | with_reducible apply Keeps.step (resetInstance_keeps ..) (by decide)
    | with_reducible apply Keeps.step (resetRegion_keeps ..) (by decide)
    | with_reducible apply Keeps.step (startFrom_keeps ..) (by decide)
    | with_reducible apply Keeps.iteSnd
    | with_reducible apply Keeps.iteFst
    | with_reducible apply Keeps.foldl (fun _ _ => ?_)
    | with_reducible apply Keeps.foldlPair (fun _ _ => ?_)
    | with_reducible exact KeepsO.none
    | with_reducible apply KeepsO.mk'
    | with_reducible apply KeepsO.ite
    | with_reducible refine KeepsO.bind ?_ (fun _ _ => ?_)
    | with_reducible refine KeepsO.map ?_ (fun _ _ => ?_)
    | split

theorem hostResetRequest_keeps (a0) (a1) (s : State) : KeepsO [.regs, .arb, .bar, .gate] s (hostResetRequest a0 a1 s) := by
  unfold hostResetRequest
  repeat' first
    | with_reducible exact Keeps.refl
    | assumption
    | dsimp only
    | with_reducible apply Keeps.ite
    | with_reducible apply Keeps.step (State.inc_keeps ..) (by decide)
    | with_reducible apply Keeps.step (State.wr_keeps ..) (by decide)
    | with_reducible apply Keeps.step (hostSoft_keeps ..) (by decide)
    | with_reducible apply Keeps.iteSnd
    | with_reducible apply Keeps.iteFst
    | with_reducible apply Keeps.foldl (fun _ _ => ?_)
    | with_reducible apply Keeps.foldlPair (fun _ _ => ?_)
    | with_reducible exact KeepsO.none
    | with_reducible apply KeepsO.mk'
    | with_reducible apply KeepsO.ite

theorem loadCtrl_keeps (a0) (a1) (s : State) : KeepsO [.out, .regs, .img] s (loadCtrl a0 a1 s) := by
  unfold loadCtrl
  repeat' first
    | with_reducible exact Keeps.refl
    | assumption
    | dsimp only
    | with_reducible apply Keeps.ite
    | with_reducible apply Keeps.step (failLoad_keeps ..) (by decide)
    | with_reducible apply Keeps.step (loadStart_keeps ..) (by decide)
    | with_reducible apply Keeps.iteSnd
    | with_reducible apply Keeps.iteFst
    | with_reducible apply Keeps.foldl (fun _ _ => ?_)
    | with_reducible apply Keeps.foldlPair (fun _ _ => ?_)
    | with_reducible exact KeepsO.none
    | with_reducible apply KeepsO.mk'
    | with_reducible apply KeepsO.ite

theorem deepRequest_keeps (a0) (a1) (s : State) : KeepsO [.img] s (deepRequest a0 a1 s) := by
  unfold deepRequest
  repeat' first
    | with_reducible exact Keeps.refl
    | assumption
    | dsimp only
    | with_reducible apply Keeps.ite
    | with_reducible apply Keeps.iteSnd
    | with_reducible apply Keeps.iteFst
    | with_reducible apply Keeps.foldl (fun _ _ => ?_)
    | with_reducible apply Keeps.foldlPair (fun _ _ => ?_)
    | with_reducible exact KeepsO.none
    | with_reducible apply KeepsO.mk'
    | with_reducible apply KeepsO.ite
    | with_reducible refine KeepsO.bind ?_ (fun _ _ => ?_)
    | with_reducible refine KeepsO.map ?_ (fun _ _ => ?_)
    | fail_if_no_progress with_reducible apply Keeps.img (by decide)

theorem effect1_keeps (a0) (a1) (a2) (a3) (s : State) : KeepsO [.fresh, .regs, .staged, .time, .epoch, .src, .firn, .xb, .arb, .core, .pred, .clus, .camp, .lnk, .lock, .pwr, .trc] s (effect1 a0 a1 a2 a3 s) := by
  unfold effect1
  repeat' first
    | with_reducible exact Keeps.refl
    | assumption
    | dsimp only
    | with_reducible apply Keeps.ite
    | with_reducible apply Keeps.step (arbSync_keeps ..) (by decide)
    | with_reducible apply Keeps.step (askFills_keeps ..) (by decide)
    | with_reducible apply Keeps.step (completeEffect_keeps ..) (by decide)
    | with_reducible apply Keeps.step (failCampion_keeps ..) (by decide)
    | with_reducible apply Keeps.step (lnkWritten_keeps ..) (by decide)
    | with_reducible apply KeepsO.step (lockWrite_keeps ..) (by decide)
    | with_reducible apply Keeps.step (nextWritten_keeps ..) (by decide)
    | with_reducible apply Keeps.step (periodWritten_keeps ..) (by decide)
    | with_reducible apply Keeps.step (predWritten_keeps ..) (by decide)
    | with_reducible apply Keeps.each (fun _ _ => ?_)
    | with_reducible apply Keeps.iteSnd
    | with_reducible apply Keeps.iteFst
    | with_reducible apply Keeps.foldl (fun _ _ => ?_)
    | with_reducible apply Keeps.foldlPair (fun _ _ => ?_)
    | with_reducible exact KeepsO.none
    | with_reducible apply KeepsO.mk'
    | with_reducible apply KeepsO.ite
    | with_reducible refine KeepsO.bind ?_ (fun _ _ => ?_)
    | with_reducible refine KeepsO.map ?_ (fun _ _ => ?_)
    | split

theorem effect2_keeps (a0) (a1) (a2) (s : State) : KeepsO [.out, .regs, .staged, .once, .time, .src, .yar, .acc, .firn, .xb, .rq, .arb, .core, .pred, .clus, .camp, .seg, .lnk, .audit, .rec_, .lock, .img, .rime, .pwr, .su, .bar, .hostq, .gate, .edw, .trc, .tst] s (effect2 a0 a1 a2 s) := by
  unfold effect2
  repeat' first
    | with_reducible exact Keeps.refl
    | assumption
    | dsimp only
    | with_reducible apply Keeps.ite
    | with_reducible apply Keeps.step (arbSync_keeps ..) (by decide)
    | with_reducible apply Keeps.step (armWritten_keeps ..) (by decide)
    | with_reducible apply Keeps.step (barEnWritten_keeps ..) (by decide)
    | with_reducible apply Keeps.step (consWritten_keeps ..) (by decide)
    | with_reducible apply KeepsO.step (deepRequest_keeps ..) (by decide)
    | with_reducible apply Keeps.step (hostPwrRequest_keeps ..) (by decide)
    | with_reducible apply KeepsO.step (hostResetRequest_keeps ..) (by decide)
    | with_reducible apply KeepsO.step (loadCtrl_keeps ..) (by decide)
    | with_reducible apply Keeps.step (noteUnread_keeps ..) (by decide)
    | with_reducible apply Keeps.step (pwrRequest_keeps ..) (by decide)
    | with_reducible apply KeepsO.step (resetRequest_keeps ..) (by decide)
    | with_reducible apply KeepsO.step (sealWrite_keeps ..) (by decide)
    | with_reducible apply Keeps.step (sendGateState_keeps ..) (by decide)
    | with_reducible apply Keeps.step (slcCommand_keeps ..) (by decide)
    | with_reducible apply KeepsO.step (testCtrlWrite_keeps ..) (by decide)
    | with_reducible apply Keeps.step (traceCtrlWritten_keeps ..) (by decide)
    | with_reducible apply KeepsO.step (traceMove_keeps ..) (by decide)
    | with_reducible apply Keeps.step (vwWritten_keeps ..) (by decide)
    | with_reducible apply Keeps.iteSnd
    | with_reducible apply Keeps.iteFst
    | with_reducible apply Keeps.foldl (fun _ _ => ?_)
    | with_reducible apply Keeps.foldlPair (fun _ _ => ?_)
    | with_reducible exact KeepsO.none
    | with_reducible apply KeepsO.mk'
    | with_reducible apply KeepsO.ite
    | with_reducible refine KeepsO.bind ?_ (fun _ _ => ?_)
    | with_reducible refine KeepsO.map ?_ (fun _ _ => ?_)
    | fail_if_no_progress with_reducible apply Keeps.time (by decide)
    | split

theorem w1Part_keeps (a0) (a1) (s : State) : Keeps [.regs, .once] s (w1Part a0 a1 s).1 := by
  unfold w1Part
  repeat' first
    | with_reducible exact Keeps.refl
    | assumption
    | dsimp only
    | with_reducible apply Keeps.ite
    | with_reducible apply Keeps.step (State.wr_keeps ..) (by decide)
    | with_reducible apply Keeps.each (fun _ _ => ?_)
    | with_reducible apply Keeps.iteSnd
    | with_reducible apply Keeps.iteFst
    | with_reducible apply Keeps.foldl (fun _ _ => ?_)
    | with_reducible apply Keeps.foldlPair (fun _ _ => ?_)
    | fail_if_no_progress with_reducible apply Keeps.once (by decide)

/-- The parts that a register write can change. -/
abbrev writeParts : List Part := [.out, .fresh, .regs, .staged, .once, .time, .epoch, .src, .yar, .acc, .firn, .xb, .rq, .arb, .core, .pred, .clus, .camp, .seg, .lnk, .audit, .rec_, .lock, .img, .rime, .pwr, .su, .bar, .hostq, .gate, .edw, .trc, .tst]
/-- Whatever comes of a write keeps all but w. -/
structure KeepsW (w : List Part) (s : State) (r : WrOut) : Prop where
  done : ∀ t, r = .done t → Keeps w s t
  held : ∀ t, r = .held t → Keeps w s t
  err : ∀ c t, r = .err c t → Keeps w s t

theorem KeepsW.mkDone {w : List Part} {s t : State} (h : Keeps w s t) : KeepsW w s (.done t) :=
  ⟨fun _ e => (by cases e; exact h), fun _ e => (by cases e), fun _ _ e => (by cases e)⟩

theorem KeepsW.mkHeld {w : List Part} {s t : State} (h : Keeps w s t) : KeepsW w s (.held t) :=
  ⟨fun _ e => (by cases e), fun _ e => (by cases e; exact h), fun _ _ e => (by cases e)⟩

theorem KeepsW.mkErr {w : List Part} {s t : State} {c : Nat} (h : Keeps w s t) : KeepsW w s (.err c t) :=
  ⟨fun _ e => (by cases e), fun _ e => (by cases e), fun _ _ e => (by cases e; exact h)⟩

theorem KeepsW.ite {w : List Part} {s : State} {c : Prop} [Decidable c] {r q : WrOut} (hr : KeepsW w s r) (hq : KeepsW w s q) :
    KeepsW w s (if c then r else q) := by
  split
  · exact hr
  · exact hq

theorem writeActive_keeps (a addr p w r) (s : State) : KeepsW writeParts s (writeActive a addr p w r s) := by
  unfold writeActive
  dsimp only
  split
  · exact KeepsW.mkErr (Keeps.step (noteLocked_keeps ..) (by decide) Keeps.refl)
  split
  · split
    · exact KeepsW.mkHeld (Keeps.mono (loadWord_keeps ..) (by decide))
    · exact KeepsW.mkErr Keeps.refl
  split
  · split
    · exact KeepsW.mkHeld (Keeps.mono (loadWord_keeps ..) (by decide))
    · exact KeepsW.mkErr Keeps.refl
  split
  · exact KeepsW.mkErr (Keeps.fst (stagePart_keeps a p w s) (by assumption) (by decide) Keeps.refl)
  · rename_i s1 h1
    have k1 : Keeps writeParts s s1 := Keeps.fst (stagePart_keeps a p w s) h1 (by decide) Keeps.refl
    split
    · exact KeepsW.mkErr Keeps.refl
    · rename_i t ht
      have kt : Keeps writeParts s t := by
        refine (KeepsO.bind (KeepsO.step (effect1_keeps ..) (by decide) (Keeps.step (putFields_keeps ..) (by decide) ?_))
          (fun u hu => KeepsO.step (effect2_keeps ..) (by decide) hu)).some t ht
        split
        · exact Keeps.step (w1Part_keeps ..) (by decide) k1
        · exact k1
      exact KeepsW.ite (KeepsW.mkErr (Keeps.step (noteLocked_keeps ..) (by decide) kt)) (KeepsW.mkDone kt)

theorem performWrite_keeps (a addr p w) (s : State) : KeepsW writeParts s (performWrite a addr p w s) := by
  unfold performWrite
  split
  · exact writeActive_keeps ..
  · split
    · exact KeepsW.mkDone (Keeps.fst (stagePart_keeps a p w s) (by assumption) (by decide) Keeps.refl)
    · exact KeepsW.mkErr (Keeps.fst (stagePart_keeps a p w s) (by assumption) (by decide) Keeps.refl)
  · dsimp only
    split
    · exact KeepsW.mkErr Keeps.refl
    · split
      · exact KeepsW.mkDone Keeps.refl
      · split
        · exact KeepsW.mkDone (Keeps.ite (Keeps.step (State.wr_keeps ..) (by decide) Keeps.refl) Keeps.refl)
        · exact writeActive_keeps ..

theorem writeReg_keeps (a0 a1 a2) (s : State) : Keeps writeParts s (writeReg a0 a1 a2 s) := by
  unfold writeReg
  have h0 : Keeps writeParts s (if (edwDebug a0 a1 && s.on 23 && !masterFaulted s a0) = true then edwDebugLog (a1 % 4096) s else s) :=
    Keeps.ite (Keeps.mono (edwDebugLog_keeps ..) (by decide)) Keeps.refl
  dsimp only
  split
  · exact Keeps.refl
  generalize (if (edwDebug a0 a1 && s.on 23 && !masterFaulted s a0) = true then edwDebugLog (a1 % 4096) s else s) = s1 at h0 ⊢
  split
  · exact Keeps.step (busError_keeps ..) (by decide) h0
  · exact h0
  split
  · exact Keeps.step (busError_keeps ..) (by decide) h0
  split
  · split
    · exact Keeps.step (busError_keeps ..) (by decide) (Keeps.step (noteLocked_keeps ..) (by decide) h0)
    · exact Keeps.step (busError_keeps ..) (by decide) h0
  split
  · exact Keeps.step (respond_keeps ..) (by decide) (h0.trans ((performWrite_keeps ..).done _ (by assumption)))
  · exact h0.trans ((performWrite_keeps ..).held _ (by assumption))
  · exact Keeps.step (busError_keeps ..) (by decide) (h0.trans ((performWrite_keeps ..).err _ _ (by assumption)))

end Sys2Proof.Machine
end

