-- ==== Sys2Proof/Laws/KeepsExec.lean ====
section
/-! SUPPORT. What each command leaves alone. -/

namespace Sys2Proof.Machine

theorem KeepsX.run {w : List Part} {s : State} {f : State → State} (hf : ∀ s, Keeps (.pending :: .out :: w) s (f s)) :
    KeepsX (.out :: w) s (run f s) := ⟨fun t ht => by
  cases ht
  exact effect_keeps hf (List.Subset.refl _) s⟩

theorem KeepsX.runClk {w : List Part} {s : State} {f : State → State} (hf : ∀ s, Keeps (.pending :: .out :: w) s (f s)) :
    KeepsX (.out :: w) s (runClk f s) := KeepsX.run fun s => Keeps.ite (hf s) Keeps.refl

theorem KeepsX.runWf {w : List Part} {s : State} {ok : Bool} {f : State → State}
    (hf : ∀ s, Keeps (.pending :: .out :: w) s (f s)) : KeepsX (.out :: w) s (runWf ok f s) := ⟨fun t ht => by
  unfold Machine.runWf at ht
  split at ht
  · exact (KeepsX.run hf).next t ht
  · cases ht⟩

theorem execWiredInputEdge_keeps (a0) (a1) (a2) (a3) (a4) (s : State) : KeepsX [.out, .fresh, .regs, .src, .trc] s (execWiredInputEdge a0 a1 a2 a3 a4 s) := by
  unfold execWiredInputEdge
  repeat' first
    | with_reducible apply KeepsX.run (fun s => ?_)
    | with_reducible exact Keeps.refl
    | assumption
    | dsimp only
    | with_reducible apply Keeps.ite
    | with_reducible apply Keeps.step (lineChange_keeps ..) (by decide)
    | with_reducible apply Keeps.iteSnd
    | with_reducible apply Keeps.iteFst
    | with_reducible apply Keeps.foldl (fun _ _ => ?_)
    | with_reducible apply Keeps.foldlPair (fun _ _ => ?_)
    | fail_if_no_progress with_reducible apply Keeps.fresh (by decide)

theorem execLevelReraise_keeps (a0) (s : State) : KeepsX [.out, .regs, .src, .trc] s (execLevelReraise a0 s) := by
  unfold execLevelReraise
  repeat' first
    | with_reducible apply KeepsX.run (fun s => ?_)
    | with_reducible exact Keeps.refl
    | assumption
    | dsimp only
    | with_reducible apply Keeps.ite
    | with_reducible apply Keeps.step (levelTest_keeps ..) (by decide)

theorem execWindowOpen_keeps (a0) (s : State) : KeepsX [.out, .src] s (execWindowOpen a0 s) := by
  unfold execWindowOpen
  repeat' first
    | with_reducible apply KeepsX.run (fun s => ?_)
    | with_reducible exact Keeps.refl
    | assumption
    | dsimp only
    | with_reducible apply Keeps.ite
    | with_reducible apply Keeps.step (State.setLatch_keeps ..) (by decide)
    | with_reducible apply Keeps.iteSnd
    | with_reducible apply Keeps.iteFst
    | with_reducible apply Keeps.foldl (fun _ _ => ?_)
    | with_reducible apply Keeps.foldlPair (fun _ _ => ?_)
    | dsimp only [id]
    | split

theorem execSchedulerForward_keeps (a0) (s : State) : KeepsX [.out, .regs, .src, .firn, .xb, .rq, .lnk, .rec_, .pwr, .hostq, .trc] s (execSchedulerForward a0 s) := by
  unfold execSchedulerForward
  repeat' first
    | with_reducible apply KeepsX.runClk (fun s => ?_)
    | with_reducible exact Keeps.refl
    | assumption
    | dsimp only
    | with_reducible apply Keeps.ite
    | with_reducible apply Keeps.step (schedCycle_keeps ..) (by decide)

theorem execSpillBlockWrite_keeps (a0) (s : State) : KeepsX [.out, .regs, .src, .xb, .arb, .trc] s (execSpillBlockWrite a0 s) := by
  unfold execSpillBlockWrite
  repeat' first
    | with_reducible apply KeepsX.runClk (fun s => ?_)
    | intro _
    | with_reducible exact Keeps.refl
    | assumption
    | dsimp only
    | with_reducible apply Keeps.ite
    | with_reducible apply Keeps.step (spillFault_keeps ..) (by decide)
    | with_reducible apply Keeps.step (stageToRing_keeps ..) (by decide)
    | with_reducible apply Keeps.step (State.emit_keeps ..) (by decide)
    | with_reducible apply spillGrant_keeps (by decide)
    | with_reducible apply Keeps.iteSnd
    | with_reducible apply Keeps.iteFst
    | with_reducible apply Keeps.foldl (fun _ _ => ?_)
    | with_reducible apply Keeps.foldlPair (fun _ _ => ?_)
    | dsimp only [id]
    | fail_if_no_progress with_reducible apply Keeps.xb (by decide)
    | split

theorem execMoraineRefill_keeps (a0) (a1) (s : State) : KeepsX [.out, .regs, .src, .xb, .arb, .lnk, .pwr, .trc] s (execMoraineRefill a0 a1 s) := by
  unfold execMoraineRefill
  repeat' first
    | with_reducible apply KeepsX.runClk (fun s => ?_)
    | intro _
    | with_reducible exact Keeps.refl
    | assumption
    | dsimp only
    | with_reducible apply Keeps.ite
    | with_reducible apply Keeps.step (spillFault_keeps ..) (by decide)
    | with_reducible apply Keeps.step (freeFull_keeps ..) (by decide)
    | with_reducible apply Keeps.step (ringToBuf_keeps ..) (by decide)
    | with_reducible apply Keeps.step (State.emit_keeps ..) (by decide)
    | with_reducible apply Keeps.step (State.inc_keeps ..) (by decide)
    | with_reducible apply Keeps.step (pumpAll_keeps ..) (by decide)
    | with_reducible apply spillGrant_keeps (by decide)
    | with_reducible apply Keeps.iteSnd
    | with_reducible apply Keeps.iteFst
    | with_reducible apply Keeps.foldl (fun _ _ => ?_)
    | with_reducible apply Keeps.foldlPair (fun _ _ => ?_)
    | dsimp only [id]
    | fail_if_no_progress with_reducible apply Keeps.xb (by decide)
    | split

theorem execMasterPortWriteResponse_keeps (a0) (a1) (s : State) : KeepsX [.out, .regs, .xb, .trc] s (execMasterPortWriteResponse a0 a1 s) := by
  unfold execMasterPortWriteResponse
  repeat' first
    | with_reducible apply KeepsX.runClk (fun s => ?_)
    | with_reducible exact Keeps.refl
    | assumption
    | dsimp only
    | with_reducible apply Keeps.ite
    | with_reducible apply Keeps.step (trace_keeps ..) (by decide)
    | with_reducible apply Keeps.step (State.inc_keeps ..) (by decide)
    | with_reducible apply Keeps.step (State.setRing_keeps ..) (by decide)
    | with_reducible apply Keeps.iteSnd
    | with_reducible apply Keeps.iteFst
    | with_reducible apply Keeps.foldl (fun _ _ => ?_)
    | with_reducible apply Keeps.foldlPair (fun _ _ => ?_)
    | dsimp only [id]
    | fail_if_no_progress with_reducible apply Keeps.trc (by decide)
    | fail_if_no_progress with_reducible apply Keeps.xb (by decide)
    | fail_if_no_progress with_reducible apply Keeps.xb_trc (by decide) (by decide)
    | split

theorem execMessageWrite_keeps (a0) (a1) (a2) (a3) (s : State) : KeepsX [.out, .regs, .src, .acc, .xb, .camp, .pwr, .bar, .trc] s (execMessageWrite a0 a1 a2 a3 s) := by
  unfold execMessageWrite
  repeat' first
    | with_reducible apply KeepsX.runClk (fun s => ?_)
    | with_reducible exact Keeps.refl
    | assumption
    | dsimp only
    | with_reducible apply Keeps.ite
    | with_reducible apply Keeps.step (portWrite_keeps ..) (by decide)
    | with_reducible apply Keeps.step (pumpRemote_keeps ..) (by decide)
    | with_reducible apply Keeps.iteSnd
    | with_reducible apply Keeps.iteFst
    | with_reducible apply Keeps.foldl (fun _ _ => ?_)
    | with_reducible apply Keeps.foldlPair (fun _ _ => ?_)
    | fail_if_no_progress with_reducible apply Keeps.acc (by decide)

theorem execOffer_keeps (s : State) : KeepsX [.out, .regs, .src, .acc, .firn, .xb, .rq, .camp, .pwr, .bar, .trc] s (execOffer s) := by
  unfold execOffer
  repeat' first
    | with_reducible apply KeepsX.runClk (fun s => ?_)
    | with_reducible exact Keeps.refl
    | assumption
    | dsimp only
    | with_reducible apply Keeps.ite
    | with_reducible apply Keeps.step (wakeFor_keeps ..) (by decide)
    | with_reducible apply Keeps.step (mrnFull_keeps ..) (by decide)
    | with_reducible apply Keeps.step (passOffer_keeps ..) (by decide)
    | with_reducible apply Keeps.step (refuseOffer_keeps ..) (by decide)
    | with_reducible apply Keeps.each (fun _ _ => ?_)
    | with_reducible apply Keeps.iteSnd
    | with_reducible apply Keeps.iteFst
    | with_reducible apply Keeps.foldl (fun _ _ => ?_)
    | with_reducible apply Keeps.foldlPair (fun _ _ => ?_)
    | dsimp only [id]
    | split

theorem execFirnRecordWrite_keeps (s : State) : KeepsX [.out, .acc, .firn, .edw] s (execFirnRecordWrite s) := by
  unfold execFirnRecordWrite
  repeat' first
    | with_reducible apply KeepsX.runClk (fun s => ?_)
    | with_reducible exact Keeps.refl
    | assumption
    | dsimp only
    | with_reducible apply Keeps.ite
    | with_reducible apply Keeps.step (writeOldest_keeps ..) (by decide)

theorem execAccept_keeps (s : State) : KeepsX [.out, .regs, .src, .acc, .firn, .xb, .camp, .pwr, .bar, .trc] s (execAccept s) := by
  unfold execAccept
  repeat' first
    | with_reducible apply KeepsX.runClk (fun s => ?_)
    | with_reducible exact Keeps.refl
    | assumption
    | dsimp only
    | with_reducible apply Keeps.ite
    | with_reducible apply Keeps.step (acceptOldest_keeps ..) (by decide)

theorem execPairMirror_keeps (a0) (s : State) : KeepsX [.out, .regs, .src, .firn, .xb, .rec_, .pwr, .trc] s (execPairMirror a0 s) := by
  unfold execPairMirror
  repeat' first
    | with_reducible apply KeepsX.runClk (fun s => ?_)
    | intro _
    | with_reducible exact Keeps.refl
    | assumption
    | dsimp only
    | with_reducible apply Keeps.ite
    | with_reducible apply Keeps.step (writeMirror_keeps ..) (by decide)
    | with_reducible apply Keeps.step (resyncBegins_keeps ..) (by decide)
    | with_reducible apply takeCtl_keeps (by decide)
    | with_reducible apply Keeps.iteSnd
    | with_reducible apply Keeps.iteFst
    | with_reducible apply Keeps.foldl (fun _ _ => ?_)
    | with_reducible apply Keeps.foldlPair (fun _ _ => ?_)
    | dsimp only [id]
    | split

theorem execPairAckRecorded_keeps (a0) (s : State) : KeepsX [.out, .regs, .src, .acc, .xb, .rec_, .pwr, .trc] s (execPairAckRecorded a0 s) := by
  unfold execPairAckRecorded
  repeat' first
    | with_reducible apply KeepsX.runClk (fun s => ?_)
    | intro _
    | with_reducible exact Keeps.refl
    | assumption
    | dsimp only
    | with_reducible apply Keeps.ite
    | with_reducible apply Keeps.step (pairHeard_keeps ..) (by decide)
    | with_reducible apply Keeps.step (resyncRecorded_keeps ..) (by decide)
    | with_reducible apply takeCtl_keeps (by decide)
    | with_reducible apply Keeps.iteSnd
    | with_reducible apply Keeps.iteFst
    | with_reducible apply Keeps.foldl (fun _ _ => ?_)
    | with_reducible apply Keeps.foldlPair (fun _ _ => ?_)
    | dsimp only [id]
    | fail_if_no_progress with_reducible apply Keeps.acc (by decide)
    | split

theorem execPairAckRelease_keeps (a0) (s : State) : KeepsX [.out, .regs, .src, .firn, .xb, .rec_, .pwr, .trc] s (execPairAckRelease a0 s) := by
  unfold execPairAckRelease
  repeat' first
    | with_reducible apply KeepsX.runClk (fun s => ?_)
    | intro _
    | with_reducible exact Keeps.refl
    | assumption
    | dsimp only
    | with_reducible apply Keeps.ite
    | with_reducible apply Keeps.step (pairHeard_keeps ..) (by decide)
    | with_reducible apply Keeps.step (State.setRec_keeps ..) (by decide)
    | with_reducible apply Keeps.step (sendCtl_keeps ..) (by decide)
    | with_reducible apply takeCtl_keeps (by decide)
    | with_reducible apply Keeps.each (fun _ _ => ?_)
    | with_reducible apply Keeps.iteSnd
    | with_reducible apply Keeps.iteFst
    | with_reducible apply Keeps.foldl (fun _ _ => ?_)
    | with_reducible apply Keeps.foldlPair (fun _ _ => ?_)
    | dsimp only [id]
    | split

theorem execPairAckReleased_keeps (a0) (s : State) : KeepsX [.out, .regs, .src, .firn, .xb, .rec_, .pwr, .trc] s (execPairAckReleased a0 s) := by
  unfold execPairAckReleased
  repeat' first
    | with_reducible apply KeepsX.runClk (fun s => ?_)
    | intro _
    | with_reducible exact Keeps.refl
    | assumption
    | dsimp only
    | with_reducible apply Keeps.ite
    | with_reducible apply Keeps.step (pairHeard_keeps ..) (by decide)
    | with_reducible apply Keeps.step (freeEvent_keeps ..) (by decide)
    | with_reducible apply takeCtl_keeps (by decide)
    | with_reducible apply Keeps.iteSnd
    | with_reducible apply Keeps.iteFst
    | with_reducible apply Keeps.foldl (fun _ _ => ?_)
    | with_reducible apply Keeps.foldlPair (fun _ _ => ?_)
    | dsimp only [id]
    | split

theorem execPairAckResyncEnd_keeps (a0) (s : State) : KeepsX [.out, .regs, .src, .firn, .xb, .rec_, .pwr, .trc] s (execPairAckResyncEnd a0 s) := by
  unfold execPairAckResyncEnd
  repeat' first
    | with_reducible apply KeepsX.runClk (fun s => ?_)
    | intro _
    | with_reducible exact Keeps.refl
    | assumption
    | dsimp only
    | with_reducible apply Keeps.ite
    | with_reducible apply Keeps.step (eachMirror_keeps ..) (by decide)
    | with_reducible apply Keeps.step (pairHeard_keeps ..) (by decide)
    | with_reducible apply Keeps.step (sendCtl_keeps ..) (by decide)
    | with_reducible apply takeCtl_keeps (by decide)
    | with_reducible apply Keeps.each (fun _ _ => ?_)
    | fail_if_no_progress with_reducible apply Keeps.rec_ (by decide)

theorem execPairTimeout_keeps (s : State) : KeepsX [.out, .regs, .src, .acc, .firn, .xb, .camp, .pwr, .bar, .trc] s (execPairTimeout s) := by
  unfold execPairTimeout
  repeat' first
    | with_reducible apply KeepsX.runClk (fun s => ?_)
    | with_reducible exact Keeps.refl
    | assumption
    | dsimp only
    | with_reducible apply Keeps.ite
    | with_reducible apply Keeps.step (acceptPoint_keeps ..) (by decide)
    | with_reducible apply Keeps.step (markUnreachable_keeps ..) (by decide)
    | with_reducible apply Keeps.iteSnd
    | with_reducible apply Keeps.iteFst
    | with_reducible apply Keeps.foldl (fun _ _ => ?_)
    | with_reducible apply Keeps.foldlPair (fun _ _ => ?_)
    | fail_if_no_progress with_reducible apply Keeps.acc (by decide)
    | dsimp only [id]
    | split

theorem execRemoteVectorWrite_keeps (a0) (s : State) : KeepsX [.out, .acc, .xb] s (execRemoteVectorWrite a0 s) := by
  unfold execRemoteVectorWrite
  repeat' first
    | with_reducible apply KeepsX.runClk (fun s => ?_)
    | intro _
    | with_reducible exact Keeps.refl
    | assumption
    | dsimp only
    | with_reducible apply Keeps.ite
    | with_reducible apply Keeps.step (portRemote_keeps ..) (by decide)
    | with_reducible apply takeCtl_keeps (by decide)

theorem execRemoteWriteResponse_keeps (a0) (s : State) : KeepsX [.out, .regs, .src, .acc, .xb, .camp, .pwr, .bar, .trc] s (execRemoteWriteResponse a0 s) := by
  unfold execRemoteWriteResponse
  repeat' first
    | with_reducible apply KeepsX.runClk (fun s => ?_)
    | intro _
    | with_reducible exact Keeps.refl
    | assumption
    | dsimp only
    | with_reducible apply Keeps.ite
    | with_reducible apply Keeps.step (answer_keeps ..) (by decide)
    | with_reducible apply Keeps.step (pumpRemote_keeps ..) (by decide)
    | with_reducible apply takeCtl_keeps (by decide)
    | with_reducible apply Keeps.iteSnd
    | with_reducible apply Keeps.iteFst
    | with_reducible apply Keeps.foldl (fun _ _ => ?_)
    | with_reducible apply Keeps.foldlPair (fun _ _ => ?_)
    | fail_if_no_progress with_reducible apply Keeps.acc (by decide)
    | dsimp only [id]
    | split

theorem execWarmStart_keeps (a0) (a1) (s : State) : KeepsX [.out, .pred, .clus, .pwr] s (execWarmStart a0 a1 s) := by
  unfold execWarmStart
  repeat' first
    | with_reducible apply KeepsX.runClk (fun s => ?_)
    | with_reducible exact Keeps.refl
    | assumption
    | dsimp only
    | with_reducible apply Keeps.ite
    | with_reducible apply Keeps.step (warmTry_keeps ..) (by decide)

theorem execPredictorMiss_keeps (a0) (a1) (s : State) : KeepsX [.out, .regs, .pred, .clus, .pwr] s (execPredictorMiss a0 a1 s) := by
  unfold execPredictorMiss
  repeat' first
    | with_reducible apply KeepsX.runClk (fun s => ?_)
    | with_reducible exact Keeps.refl
    | assumption
    | dsimp only
    | with_reducible apply Keeps.ite
    | with_reducible apply Keeps.step (State.inc_keeps ..) (by decide)
    | with_reducible apply Keeps.step (State.setPred_keeps ..) (by decide)
    | with_reducible apply Keeps.step (State.wr_keeps ..) (by decide)
    | with_reducible apply Keeps.step (warmTry_keeps ..) (by decide)

theorem execPendingAdmit_keeps (a0) (a1) (s : State) : KeepsX [.out, .regs, .src, .firn, .xb, .rq, .arb, .core, .pred, .clus, .camp, .pwr, .trc] s (execPendingAdmit a0 a1 s) := by
  unfold execPendingAdmit
  repeat' first
    | with_reducible apply KeepsX.runClk (fun s => ?_)
    | with_reducible exact Keeps.refl
    | assumption
    | dsimp only
    | with_reducible apply Keeps.ite
    | with_reducible apply Keeps.step (State.setToClus_keeps ..) (by decide)
    | with_reducible apply Keeps.step (admitCore_keeps ..) (by decide)
    | with_reducible apply Keeps.step (clusBeat_keeps ..) (by decide)
    | with_reducible apply Keeps.step (moveRedirected_keeps ..) (by decide)
    | with_reducible apply Keeps.iteSnd
    | with_reducible apply Keeps.iteFst
    | with_reducible apply Keeps.foldl (fun _ _ => ?_)
    | with_reducible apply Keeps.foldlPair (fun _ _ => ?_)
    | with_reducible refine Keeps.trans ?_ (arbBeat_keeps (by decide) _ (fun _ _ => ?_) _)
    | dsimp only [id]
    | split

theorem execVectorCacheFill_keeps (a0) (a1) (s : State) : KeepsX [.out, .clus] s (execVectorCacheFill a0 a1 s) := by
  unfold execVectorCacheFill
  repeat' first
    | with_reducible apply KeepsX.runClk (fun s => ?_)
    | with_reducible exact Keeps.refl
    | assumption
    | dsimp only
    | with_reducible apply Keeps.ite
    | with_reducible apply Keeps.step (askFills_keeps ..) (by decide)
    | with_reducible apply Keeps.step (fillLine_keeps ..) (by decide)
    | with_reducible apply Keeps.iteSnd
    | with_reducible apply Keeps.iteFst
    | with_reducible apply Keeps.foldl (fun _ _ => ?_)
    | with_reducible apply Keeps.foldlPair (fun _ _ => ?_)
    | dsimp only [id]
    | split

theorem execCifTake_keeps (a0) (s : State) : KeepsX [.out, .core, .clus] s (execCifTake a0 s) := by
  unfold execCifTake
  repeat' first
    | with_reducible apply KeepsX.runClk (fun s => ?_)
    | with_reducible exact Keeps.refl
    | assumption
    | dsimp only
    | with_reducible apply Keeps.ite
    | with_reducible apply Keeps.step (State.setCore_keeps ..) (by decide)
    | with_reducible apply Keeps.step (askFills_keeps ..) (by decide)
    | with_reducible apply Keeps.step (dropOnce_keeps ..) (by decide)
    | with_reducible apply Keeps.step (touchLine_keeps ..) (by decide)
    | with_reducible apply Keeps.iteSnd
    | with_reducible apply Keeps.iteFst
    | with_reducible apply Keeps.foldl (fun _ _ => ?_)
    | with_reducible apply Keeps.foldlPair (fun _ _ => ?_)
    | dsimp only [id]
    | split

theorem execClaim_keeps (a0) (s : State) : KeepsX [.out, .regs, .core, .clus, .trc] s (execClaim a0 s) := by
  unfold execClaim
  repeat' first
    | with_reducible apply KeepsX.runClk (fun s => ?_)
    | with_reducible exact Keeps.refl
    | assumption
    | dsimp only
    | with_reducible apply Keeps.ite
    | with_reducible apply Keeps.step (State.emit_keeps ..) (by decide)
    | with_reducible apply Keeps.step (claimEffect_keeps ..) (by decide)

theorem execComplete_keeps (a0) (a1) (s : State) : KeepsX [.out, .regs, .firn, .core, .clus, .trc] s (execComplete a0 a1 s) := by
  unfold execComplete
  repeat' first
    | with_reducible apply KeepsX.runClk (fun s => ?_)
    | with_reducible exact Keeps.refl
    | assumption
    | dsimp only
    | with_reducible apply Keeps.ite
    | with_reducible apply Keeps.step (State.emit_keeps ..) (by decide)
    | with_reducible apply Keeps.step (completeEffect_keeps ..) (by decide)

theorem execCifHaltRise_keeps (a0) (s : State) : KeepsX [.out, .core, .pred] s (execCifHaltRise a0 s) := by
  unfold execCifHaltRise
  repeat' first
    | with_reducible apply KeepsX.run (fun s => ?_)
    | with_reducible exact Keeps.refl
    | assumption
    | dsimp only
    | with_reducible apply Keeps.ite
    | with_reducible apply Keeps.step (State.setCore_keeps ..) (by decide)
    | with_reducible apply Keeps.step (State.setPred_keeps ..) (by decide)
    | with_reducible apply Keeps.each (fun _ _ => ?_)

theorem execCifHaltFall_keeps (a0) (s : State) : KeepsX [.out, .core, .pred, .clus, .pwr] s (execCifHaltFall a0 s) := by
  unfold execCifHaltFall
  repeat' first
    | with_reducible apply KeepsX.run (fun s => ?_)
    | with_reducible exact Keeps.refl
    | assumption
    | dsimp only
    | with_reducible apply Keeps.ite
    | with_reducible apply Keeps.step (State.setCore_keeps ..) (by decide)
    | with_reducible apply Keeps.step (warmTry_keeps ..) (by decide)

theorem execCoreUnitReset_keeps (a0) (a1) (s : State) : KeepsX [.out, .regs, .src, .firn, .xb, .rq, .core, .clus, .pwr, .trc] s (execCoreUnitReset a0 a1 s) := by
  unfold execCoreUnitReset
  repeat' first
    | with_reducible apply KeepsX.runClk (fun s => ?_)
    | with_reducible exact Keeps.refl
    | assumption
    | dsimp only
    | with_reducible apply Keeps.ite
    | with_reducible apply Keeps.step (noteReset_keeps ..) (by decide)
    | with_reducible apply Keeps.step (resetCore_keeps ..) (by decide)

theorem execCampionDispatch_keeps (a0) (a1) (s : State) : KeepsX [.out, .regs, .rq, .arb, .camp, .trc] s (execCampionDispatch a0 a1 s) := by
  unfold execCampionDispatch
  repeat' first
    | with_reducible apply KeepsX.runClk (fun s => ?_)
    | with_reducible exact Keeps.refl
    | assumption
    | dsimp only
    | with_reducible apply Keeps.ite
    | with_reducible apply Keeps.step (State.setCamp_keeps ..) (by decide)
    | with_reducible apply Keeps.step (dispatchEntry_keeps ..) (by decide)
    | with_reducible apply Keeps.step (laneBeat_keeps ..) (by decide)
    | with_reducible apply Keeps.step (returnRun_keeps ..) (by decide)
    | with_reducible apply Keeps.iteSnd
    | with_reducible apply Keeps.iteFst
    | with_reducible apply Keeps.foldl (fun _ _ => ?_)
    | with_reducible apply Keeps.foldlPair (fun _ _ => ?_)
    | dsimp only [id]
    | split

theorem execLde_keeps (a0) (s : State) : KeepsX [.out, .regs, .src, .camp, .trc] s (execLde a0 s) := by
  unfold execLde
  repeat' first
    | with_reducible apply KeepsX.runClk (fun s => ?_)
    | intro _ _ _ _ hf
    | with_reducible apply instruct_keeps (by decide)
    | with_reducible exact Keeps.refl
    | assumption
    | dsimp only
    | with_reducible apply Keeps.ite
    | with_reducible apply Keeps.step (setRun_keeps ..) (by decide)
    | with_reducible apply Keeps.iteSnd
    | with_reducible apply Keeps.iteFst
    | with_reducible apply Keeps.foldl (fun _ _ => ?_)
    | with_reducible apply Keeps.foldlPair (fun _ _ => ?_)
    | dsimp only at hf
    | (split at hf)
    | cases hf

theorem execLda_keeps (a0) (a1) (a2) (a3) (s : State) : KeepsX [.out, .regs, .staged, .src, .camp, .seg, .trc] s (execLda a0 a1 a2 a3 s) := by
  unfold execLda
  repeat' first
    | with_reducible apply KeepsX.runClk (fun s => ?_)
    | intro _ _ _ _ hf
    | with_reducible apply instruct_keeps (by decide)
    | intro _
    | with_reducible exact Keeps.refl
    | assumption
    | dsimp only
    | with_reducible apply Keeps.ite
    | with_reducible apply Keeps.step (State.stage_keeps ..) (by decide)
    | with_reducible apply guardParity_keeps (by decide)
    | with_reducible apply Keeps.step (segAccess_keeps ..) (by decide)
    | with_reducible apply Keeps.step (setRun_keeps ..) (by decide)
    | with_reducible apply Keeps.iteSnd
    | with_reducible apply Keeps.iteFst
    | with_reducible apply Keeps.foldl (fun _ _ => ?_)
    | with_reducible apply Keeps.foldlPair (fun _ _ => ?_)
    | dsimp only at hf
    | (split at hf)
    | cases hf
    | split

theorem execSta_keeps (a0) (a1) (s : State) : KeepsX [.out, .regs, .staged, .src, .camp, .trc] s (execSta a0 a1 s) := by
  unfold execSta
  repeat' first
    | with_reducible apply KeepsX.runClk (fun s => ?_)
    | intro _ _ _ _ hf
    | with_reducible apply instruct_keeps (by decide)
    | intro _
    | with_reducible exact Keeps.refl
    | assumption
    | dsimp only
    | with_reducible apply Keeps.ite
    | with_reducible apply Keeps.step (failCampion_keeps ..) (by decide)
    | with_reducible apply guardParity_keeps (by decide)
    | with_reducible apply Keeps.step (setRun_keeps ..) (by decide)
    | with_reducible apply Keeps.iteSnd
    | with_reducible apply Keeps.iteFst
    | with_reducible apply Keeps.foldl (fun _ _ => ?_)
    | with_reducible apply Keeps.foldlPair (fun _ _ => ?_)
    | dsimp only at hf
    | (split at hf)
    | cases hf

theorem execStaN_keeps (a0) (a1) (a2) (s : State) : KeepsX [.out, .regs, .src, .camp, .seg, .trc] s (execStaN a0 a1 a2 s) := by
  unfold execStaN
  repeat' first
    | with_reducible apply KeepsX.runClk (fun s => ?_)
    | intro _ _ _ _ hf
    | with_reducible apply instruct_keeps (by decide)
    | with_reducible exact Keeps.refl
    | assumption
    | dsimp only
    | with_reducible apply Keeps.ite
    | with_reducible apply Keeps.step (failCampion_keeps ..) (by decide)
    | with_reducible apply Keeps.step (segAccess_keeps ..) (by decide)
    | with_reducible apply Keeps.step (setRun_keeps ..) (by decide)
    | with_reducible apply Keeps.iteSnd
    | with_reducible apply Keeps.iteFst
    | with_reducible apply Keeps.foldl (fun _ _ => ?_)
    | with_reducible apply Keeps.foldlPair (fun _ _ => ?_)
    | dsimp only at hf
    | (split at hf)
    | cases hf
    | split

theorem execAddi_keeps (a0) (a1) (s : State) : KeepsX [.out, .regs, .src, .camp, .trc] s (execAddi a0 a1 s) := by
  unfold execAddi
  repeat' first
    | with_reducible apply KeepsX.runClk (fun s => ?_)
    | intro _ _ _ _ hf
    | with_reducible apply instruct_keeps (by decide)
    | intro _
    | with_reducible exact Keeps.refl
    | assumption
    | dsimp only
    | with_reducible apply Keeps.ite
    | with_reducible apply guardParity_keeps (by decide)
    | with_reducible apply Keeps.step (setRun_keeps ..) (by decide)
    | with_reducible apply Keeps.iteSnd
    | with_reducible apply Keeps.iteFst
    | with_reducible apply Keeps.foldl (fun _ _ => ?_)
    | with_reducible apply Keeps.foldlPair (fun _ _ => ?_)
    | dsimp only at hf
    | (split at hf)
    | cases hf

theorem execSub_keeps (a0) (a1) (s : State) : KeepsX [.out, .regs, .src, .camp, .trc] s (execSub a0 a1 s) := by
  unfold execSub
  repeat' first
    | with_reducible apply KeepsX.runClk (fun s => ?_)
    | intro _ _ _ _ hf
    | with_reducible apply instruct_keeps (by decide)
    | intro _
    | with_reducible exact Keeps.refl
    | assumption
    | dsimp only
    | with_reducible apply Keeps.ite
    | with_reducible apply guardParity_keeps (by decide)
    | with_reducible apply Keeps.step (setRun_keeps ..) (by decide)
    | with_reducible apply Keeps.iteSnd
    | with_reducible apply Keeps.iteFst
    | with_reducible apply Keeps.foldl (fun _ _ => ?_)
    | with_reducible apply Keeps.foldlPair (fun _ _ => ?_)
    | dsimp only at hf
    | (split at hf)
    | cases hf

theorem execClamp_keeps (a0) (a1) (s : State) : KeepsX [.out, .regs, .src, .camp, .trc] s (execClamp a0 a1 s) := by
  unfold execClamp
  repeat' first
    | with_reducible apply KeepsX.runClk (fun s => ?_)
    | intro _ _ _ _ hf
    | with_reducible apply instruct_keeps (by decide)
    | intro _
    | with_reducible exact Keeps.refl
    | assumption
    | dsimp only
    | with_reducible apply Keeps.ite
    | with_reducible apply guardParity_keeps (by decide)
    | with_reducible apply Keeps.step (setRun_keeps ..) (by decide)
    | with_reducible apply Keeps.iteSnd
    | with_reducible apply Keeps.iteFst
    | with_reducible apply Keeps.foldl (fun _ _ => ?_)
    | with_reducible apply Keeps.foldlPair (fun _ _ => ?_)
    | dsimp only at hf
    | (split at hf)
    | cases hf

theorem execCmp_keeps (a0) (a1) (s : State) : KeepsX [.out, .regs, .src, .camp, .trc] s (execCmp a0 a1 s) := by
  unfold execCmp
  repeat' first
    | with_reducible apply KeepsX.runClk (fun s => ?_)
    | intro _ _ _ _ hf
    | with_reducible apply instruct_keeps (by decide)
    | intro _
    | with_reducible exact Keeps.refl
    | assumption
    | dsimp only
    | with_reducible apply Keeps.ite
    | with_reducible apply guardParity_keeps (by decide)
    | with_reducible apply Keeps.step (setRun_keeps ..) (by decide)
    | with_reducible apply Keeps.iteSnd
    | with_reducible apply Keeps.iteFst
    | with_reducible apply Keeps.foldl (fun _ _ => ?_)
    | with_reducible apply Keeps.foldlPair (fun _ _ => ?_)
    | dsimp only at hf
    | (split at hf)
    | cases hf

theorem execBr_keeps (a0) (s : State) : KeepsX [.out, .regs, .src, .camp, .trc] s (execBr a0 s) := by
  unfold execBr
  repeat' first
    | with_reducible apply KeepsX.runClk (fun s => ?_)
    | intro _ _ _ _ hf
    | with_reducible apply instruct_keeps (by decide)
    | with_reducible exact Keeps.refl
    | assumption
    | dsimp only
    | with_reducible apply Keeps.ite
    | with_reducible apply Keeps.step (setRun_keeps ..) (by decide)
    | with_reducible apply Keeps.iteSnd
    | with_reducible apply Keeps.iteFst
    | with_reducible apply Keeps.foldl (fun _ _ => ?_)
    | with_reducible apply Keeps.foldlPair (fun _ _ => ?_)
    | dsimp only at hf
    | (split at hf)
    | cases hf

theorem execWait_keeps (a0) (s : State) : KeepsX [.out, .regs, .src, .camp, .trc] s (execWait a0 s) := by
  unfold execWait
  repeat' first
    | with_reducible apply KeepsX.runClk (fun s => ?_)
    | intro _ _ _ _ hf
    | with_reducible apply instruct_keeps (by decide)
    | with_reducible exact Keeps.refl
    | assumption
    | dsimp only
    | with_reducible apply Keeps.ite
    | with_reducible apply Keeps.step (setRun_keeps ..) (by decide)
    | with_reducible apply Keeps.iteSnd
    | with_reducible apply Keeps.iteFst
    | with_reducible apply Keeps.foldl (fun _ _ => ?_)
    | with_reducible apply Keeps.foldlPair (fun _ _ => ?_)
    | dsimp only at hf
    | (split at hf)
    | cases hf

theorem execWaitEnd_keeps (a0) (s : State) : KeepsX [.out, .camp] s (execWaitEnd a0 s) := by
  unfold execWaitEnd
  repeat' first
    | with_reducible apply KeepsX.runClk (fun s => ?_)
    | with_reducible exact Keeps.refl
    | assumption
    | dsimp only
    | with_reducible apply Keeps.ite
    | with_reducible apply Keeps.step (setRun_keeps ..) (by decide)
    | with_reducible apply Keeps.iteSnd
    | with_reducible apply Keeps.iteFst
    | with_reducible apply Keeps.foldl (fun _ _ => ?_)
    | with_reducible apply Keeps.foldlPair (fun _ _ => ?_)
    | dsimp only [id]
    | split

theorem execEmit_keeps (a0) (a1) (s : State) : KeepsX [.out, .regs, .src, .acc, .camp, .trc] s (execEmit a0 a1 s) := by
  unfold execEmit
  repeat' first
    | with_reducible apply KeepsX.runClk (fun s => ?_)
    | intro _ _ _ _ hf
    | with_reducible apply instruct_keeps (by decide)
    | intro _
    | with_reducible exact Keeps.refl
    | assumption
    | dsimp only
    | with_reducible apply Keeps.ite
    | with_reducible apply Keeps.step (State.setCamp_keeps ..) (by decide)
    | with_reducible apply guardParity_keeps (by decide)
    | with_reducible apply Keeps.step (portWrite_keeps ..) (by decide)
    | with_reducible apply Keeps.step (setRun_keeps ..) (by decide)
    | with_reducible apply Keeps.iteSnd
    | with_reducible apply Keeps.iteFst
    | with_reducible apply Keeps.foldl (fun _ _ => ?_)
    | with_reducible apply Keeps.foldlPair (fun _ _ => ?_)
    | dsimp only at hf
    | (split at hf)
    | cases hf

theorem execEmitAnswer_keeps (a0) (s : State) : KeepsX [.out, .regs, .camp] s (execEmitAnswer a0 s) := by
  unfold execEmitAnswer
  repeat' first
    | with_reducible apply KeepsX.runClk (fun s => ?_)
    | with_reducible exact Keeps.refl
    | assumption
    | dsimp only
    | with_reducible apply Keeps.ite
    | with_reducible apply Keeps.step (State.inc_keeps ..) (by decide)
    | with_reducible apply Keeps.step (State.setCamp_keeps ..) (by decide)
    | with_reducible apply Keeps.iteSnd
    | with_reducible apply Keeps.iteFst
    | with_reducible apply Keeps.foldl (fun _ _ => ?_)
    | with_reducible apply Keeps.foldlPair (fun _ _ => ?_)
    | dsimp only [id]
    | split

theorem execEmitLateAnswer_keeps (a0) (s : State) : KeepsX [.out, .regs, .camp] s (execEmitLateAnswer a0 s) := by
  unfold execEmitLateAnswer
  repeat' first
    | with_reducible apply KeepsX.runClk (fun s => ?_)
    | with_reducible exact Keeps.refl
    | assumption
    | dsimp only
    | with_reducible apply Keeps.ite
    | with_reducible apply Keeps.step (State.inc_keeps ..) (by decide)
    | with_reducible apply Keeps.step (State.setCamp_keeps ..) (by decide)
    | with_reducible apply Keeps.iteSnd
    | with_reducible apply Keeps.iteFst
    | with_reducible apply Keeps.foldl (fun _ _ => ?_)
    | with_reducible apply Keeps.foldlPair (fun _ _ => ?_)
    | dsimp only [id]
    | split

theorem execIrq_keeps (a0) (a1) (s : State) : KeepsX [.out, .regs, .src, .camp, .trc] s (execIrq a0 a1 s) := by
  unfold execIrq
  repeat' first
    | with_reducible apply KeepsX.runClk (fun s => ?_)
    | intro _ _ _ _ hf
    | with_reducible apply instruct_keeps (by decide)
    | intro _
    | with_reducible exact Keeps.refl
    | assumption
    | dsimp only
    | with_reducible apply Keeps.ite
    | with_reducible apply Keeps.step (failCampion_keeps ..) (by decide)
    | with_reducible apply guardParity_keeps (by decide)
    | with_reducible apply Keeps.step (setRun_keeps ..) (by decide)
    | with_reducible apply Keeps.iteSnd
    | with_reducible apply Keeps.iteFst
    | with_reducible apply Keeps.foldl (fun _ _ => ?_)
    | with_reducible apply Keeps.foldlPair (fun _ _ => ?_)
    | dsimp only at hf
    | (split at hf)
    | cases hf

theorem execRet_keeps (a0) (a1) (s : State) : KeepsX [.out, .regs, .staged, .src, .acc, .firn, .camp, .seg, .trc] s (execRet a0 a1 s) := by
  unfold execRet
  repeat' first
    | with_reducible apply KeepsX.runClk (fun s => ?_)
    | intro _ _ _ _ hf
    | with_reducible apply instruct_keeps (by decide)
    | intro _
    | with_reducible exact Keeps.refl
    | assumption
    | dsimp only
    | with_reducible apply Keeps.ite
    | with_reducible apply Keeps.step (State.setCamp_keeps ..) (by decide)
    | with_reducible apply Keeps.step (State.setSeg_keeps ..) (by decide)
    | with_reducible apply Keeps.step (commitReflex_keeps ..) (by decide)
    | with_reducible apply guardParity_keeps (by decide)
    | with_reducible apply Keeps.iteSnd
    | with_reducible apply Keeps.iteFst
    | with_reducible apply Keeps.foldl (fun _ _ => ?_)
    | with_reducible apply Keeps.foldlPair (fun _ _ => ?_)
    | dsimp only at hf
    | (split at hf)
    | cases hf

theorem execReflexCommit_keeps (a0) (a1) (s : State) : KeepsX [.out, .regs, .staged, .acc, .firn, .seg, .trc] s (execReflexCommit a0 a1 s) := by
  unfold execReflexCommit
  repeat' first
    | with_reducible apply KeepsX.runClk (fun s => ?_)
    | with_reducible exact Keeps.refl
    | assumption
    | dsimp only
    | with_reducible apply Keeps.ite
    | with_reducible apply Keeps.step (State.setSeg_keeps ..) (by decide)
    | with_reducible apply Keeps.step (commitReflex_keeps ..) (by decide)
    | with_reducible apply Keeps.step (driveBurst_keeps ..) (by decide)
    | with_reducible apply Keeps.iteSnd
    | with_reducible apply Keeps.iteFst
    | with_reducible apply Keeps.foldl (fun _ _ => ?_)
    | with_reducible apply Keeps.foldlPair (fun _ _ => ?_)
    | dsimp only [id]
    | split

theorem execCampionWatchdog_keeps (a0) (s : State) : KeepsX [.out, .regs, .src, .camp, .trc] s (execCampionWatchdog a0 s) := by
  unfold execCampionWatchdog
  repeat' first
    | with_reducible apply KeepsX.runClk (fun s => ?_)
    | with_reducible exact Keeps.refl
    | assumption
    | dsimp only
    | with_reducible apply Keeps.ite
    | with_reducible apply Keeps.step (failCampion_keeps ..) (by decide)
    | with_reducible apply Keeps.iteSnd
    | with_reducible apply Keeps.iteFst
    | with_reducible apply Keeps.foldl (fun _ _ => ?_)
    | with_reducible apply Keeps.foldlPair (fun _ _ => ?_)
    | dsimp only [id]
    | split

theorem execCampionUnitReset_keeps (a0) (s : State) : KeepsX [.out, .regs, .src, .firn, .xb, .arb, .camp, .pwr, .trc] s (execCampionUnitReset a0 s) := by
  unfold execCampionUnitReset
  repeat' first
    | with_reducible apply KeepsX.runClk (fun s => ?_)
    | with_reducible exact Keeps.refl
    | assumption
    | dsimp only
    | with_reducible apply Keeps.ite
    | with_reducible apply Keeps.step (noteReset_keeps ..) (by decide)
    | with_reducible apply Keeps.step (resetCampion_keeps ..) (by decide)

theorem execMeterRecord_keeps (s : State) : KeepsX [.out, .regs, .src, .acc, .firn, .xb, .pwr, .edw, .trc] s (execMeterRecord s) := by
  unfold execMeterRecord
  repeat' first
    | with_reducible apply KeepsX.run (fun s => ?_)
    | with_reducible exact Keeps.refl
    | assumption
    | dsimp only
    | with_reducible apply Keeps.ite
    | with_reducible apply Keeps.step (State.inc_keeps ..) (by decide)
    | with_reducible apply Keeps.step (State.setChan_keeps ..) (by decide)
    | with_reducible apply Keeps.step (applyDone_keeps ..) (by decide)
    | with_reducible apply Keeps.iteSnd
    | with_reducible apply Keeps.iteFst
    | with_reducible apply Keeps.foldl (fun _ _ => ?_)
    | with_reducible apply Keeps.foldlPair (fun _ _ => ?_)
    | fail_if_no_progress with_reducible apply Keeps.edw (by decide)
    | dsimp only [id]
    | split

theorem execMeterSend_keeps (a0) (s : State) : KeepsX [.out, .bar, .gate, .edw] s (execMeterSend a0 s) := by
  unfold execMeterSend
  repeat' first
    | with_reducible apply KeepsX.run (fun s => ?_)
    | with_reducible exact Keeps.refl
    | assumption
    | dsimp only
    | with_reducible apply Keeps.ite
    | with_reducible apply Keeps.step (sendMeter_keeps ..) (by decide)

theorem execMeterAck_keeps (a0) (s : State) : KeepsX [.out, .bar, .gate, .edw] s (execMeterAck a0 s) := by
  unfold execMeterAck
  repeat' first
    | with_reducible apply KeepsX.run (fun s => ?_)
    | intro _
    | with_reducible exact Keeps.refl
    | assumption
    | dsimp only
    | with_reducible apply Keeps.ite
    | with_reducible apply Keeps.step (edwAsk_keeps ..) (by decide)
    | with_reducible apply rxBar_keeps (by decide)

theorem execMeterAckTimeout_keeps (a0) (s : State) : KeepsX [.out, .edw] s (execMeterAckTimeout a0 s) := by
  unfold execMeterAckTimeout
  repeat' first
    | with_reducible apply KeepsX.run (fun s => ?_)
    | with_reducible exact Keeps.refl
    | assumption
    | dsimp only
    | with_reducible apply Keeps.ite
    | with_reducible apply Keeps.step (State.setChan_keeps ..) (by decide)
    | with_reducible apply Keeps.iteSnd
    | with_reducible apply Keeps.iteFst
    | with_reducible apply Keeps.foldl (fun _ _ => ?_)
    | with_reducible apply Keeps.foldlPair (fun _ _ => ?_)
    | dsimp only [id]
    | split

theorem execMeterReq_keeps (a0) (s : State) : KeepsX [.out, .bar, .gate, .edw] s (execMeterReq a0 s) := by
  unfold execMeterReq
  repeat' first
    | with_reducible apply KeepsX.run (fun s => ?_)
    | intro _
    | with_reducible exact Keeps.refl
    | assumption
    | dsimp only
    | with_reducible apply Keeps.ite
    | with_reducible apply Keeps.step (edwAsk_keeps ..) (by decide)
    | with_reducible apply rxBar_keeps (by decide)
    | with_reducible apply Keeps.each (fun _ _ => ?_)

theorem execSealInterval_keeps (s : State) : KeepsX [.out, .edw] s (execSealInterval s) := by
  unfold execSealInterval
  repeat' first
    | with_reducible apply KeepsX.run (fun s => ?_)
    | with_reducible exact Keeps.refl
    | assumption
    | dsimp only
    | with_reducible apply Keeps.ite
    | with_reducible apply Keeps.step (sealTrigger_keeps ..) (by decide)

theorem execSealGapExpire_keeps (s : State) : KeepsX [.out, .edw] s (execSealGapExpire s) := by
  unfold execSealGapExpire
  repeat' first
    | with_reducible apply KeepsX.run (fun s => ?_)
    | with_reducible exact Keeps.refl
    | assumption
    | dsimp only
    | with_reducible apply Keeps.ite
    | with_reducible apply Keeps.step (sealTrigger_keeps ..) (by decide)

theorem execSealReq_keeps (a0) (s : State) : KeepsX [.out, .bar, .gate, .edw] s (execSealReq a0 s) := by
  unfold execSealReq
  repeat' first
    | with_reducible apply KeepsX.run (fun s => ?_)
    | intro _
    | with_reducible exact Keeps.refl
    | assumption
    | dsimp only
    | with_reducible apply Keeps.ite
    | with_reducible apply Keeps.step (edwAsk_keeps ..) (by decide)
    | with_reducible apply rxBar_keeps (by decide)

theorem execSealMacDone_keeps (s : State) : KeepsX [.out, .edw] s (execSealMacDone s) := by
  unfold execSealMacDone
  repeat' first
    | with_reducible apply KeepsX.run (fun s => ?_)
    | with_reducible exact Keeps.refl
    | assumption
    | dsimp only
    | with_reducible apply Keeps.ite
    | with_reducible apply Keeps.step (eraseNext_keeps ..) (by decide)
    | with_reducible apply Keeps.step (programSeal_keeps ..) (by decide)
    | with_reducible apply Keeps.iteSnd
    | with_reducible apply Keeps.iteFst
    | with_reducible apply Keeps.foldl (fun _ _ => ?_)
    | with_reducible apply Keeps.foldlPair (fun _ _ => ?_)
    | fail_if_no_progress with_reducible apply Keeps.edw (by decide)
    | dsimp only [id]
    | split

theorem execSealProgramDone_keeps (s : State) : KeepsX [.out, .regs, .bar, .gate, .edw] s (execSealProgramDone s) := by
  unfold execSealProgramDone
  repeat' first
    | with_reducible apply KeepsX.run (fun s => ?_)
    | with_reducible exact Keeps.refl
    | assumption
    | dsimp only
    | with_reducible apply Keeps.ite
    | with_reducible apply Keeps.step (readSlot_keeps ..) (by decide)
    | with_reducible apply Keeps.step (sealDone_keeps ..) (by decide)
    | with_reducible apply Keeps.step (sealFails_keeps ..) (by decide)
    | with_reducible apply Keeps.iteSnd
    | with_reducible apply Keeps.iteFst
    | with_reducible apply Keeps.foldl (fun _ _ => ?_)
    | with_reducible apply Keeps.foldlPair (fun _ _ => ?_)
    | dsimp only [id]
    | fail_if_no_progress with_reducible apply Keeps.edw (by decide)
    | split

theorem execFlashFail_keeps (s : State) : KeepsX [.out, .regs, .img, .edw] s (execFlashFail s) := by
  unfold execFlashFail
  repeat' first
    | with_reducible apply KeepsX.run (fun s => ?_)
    | with_reducible exact Keeps.refl
    | assumption
    | dsimp only
    | with_reducible apply Keeps.ite
    | with_reducible apply Keeps.step (sealFails_keeps ..) (by decide)
    | with_reducible apply Keeps.step (loadFlashFail_keeps ..) (by decide)
    | with_reducible apply Keeps.iteSnd
    | with_reducible apply Keeps.iteFst
    | with_reducible apply Keeps.foldl (fun _ _ => ?_)
    | with_reducible apply Keeps.foldlPair (fun _ _ => ?_)
    | dsimp only [id]
    | fail_if_no_progress with_reducible apply Keeps.edw (by decide)
    | split

theorem execMeter_keeps (a0) (s : State) : KeepsX [.out, .bar, .gate] s (execMeter a0 s) := by
  unfold execMeter
  repeat' first
    | with_reducible apply KeepsX.run (fun s => ?_)
    | intro _
    | with_reducible exact Keeps.refl
    | assumption
    | dsimp only
    | with_reducible apply Keeps.ite
    | with_reducible apply Keeps.step (barQueue_keeps ..) (by decide)
    | with_reducible apply rxBar_keeps (by decide)
    | with_reducible apply Keeps.iteSnd
    | with_reducible apply Keeps.iteFst
    | with_reducible apply Keeps.foldl (fun _ _ => ?_)
    | with_reducible apply Keeps.foldlPair (fun _ _ => ?_)
    | fail_if_no_progress with_reducible apply Keeps.gate (by decide)

theorem execSeal_keeps (a0) (s : State) : KeepsX [.out, .regs, .bar, .gate] s (execSeal a0 s) := by
  unfold execSeal
  repeat' first
    | with_reducible apply KeepsX.run (fun s => ?_)
    | intro _
    | with_reducible exact Keeps.refl
    | assumption
    | dsimp only
    | with_reducible apply Keeps.ite
    | with_reducible apply Keeps.step (State.raise_keeps ..) (by decide)
    | with_reducible apply Keeps.step (State.wr_keeps ..) (by decide)
    | with_reducible apply rxBar_keeps (by decide)
    | with_reducible apply Keeps.iteSnd
    | with_reducible apply Keeps.iteFst
    | with_reducible apply Keeps.foldl (fun _ _ => ?_)
    | with_reducible apply Keeps.foldlPair (fun _ _ => ?_)
    | fail_if_no_progress with_reducible apply Keeps.gate (by decide)

theorem execSyncInterval_keeps (a0) (s : State) : KeepsX [.out, .time, .lnk] s (execSyncInterval a0 s) := by
  unfold execSyncInterval
  repeat' first
    | with_reducible apply KeepsX.runClk (fun s => ?_)
    | with_reducible exact Keeps.refl
    | assumption
    | dsimp only
    | with_reducible apply Keeps.ite
    | with_reducible apply Keeps.step (queueCtl_keeps ..) (by decide)
    | with_reducible apply Keeps.step (State.setPort_keeps ..) (by decide)
    | with_reducible apply Keeps.iteSnd
    | with_reducible apply Keeps.iteFst
    | with_reducible apply Keeps.foldl (fun _ _ => ?_)
    | with_reducible apply Keeps.foldlPair (fun _ _ => ?_)
    | dsimp only [id]
    | fail_if_no_progress with_reducible apply Keeps.time (by decide)
    | split

theorem execSyncReq_keeps (a0) (a1) (a2) (a3) (s : State) : KeepsX [.out, .regs, .time, .src, .xb, .arb, .lnk, .trc] s (execSyncReq a0 a1 a2 a3 s) := by
  unfold execSyncReq
  repeat' first
    | with_reducible apply KeepsX.runClk (fun s => ?_)
    | intro _
    | with_reducible exact Keeps.refl
    | assumption
    | dsimp only
    | with_reducible apply Keeps.ite
    | with_reducible apply Keeps.step (queueCtl_keeps ..) (by decide)
    | with_reducible apply Keeps.step (State.setPort_keeps ..) (by decide)
    | with_reducible apply rxFrame_keeps (by decide)
    | with_reducible apply Keeps.iteSnd
    | with_reducible apply Keeps.iteFst
    | with_reducible apply Keeps.foldl (fun _ _ => ?_)
    | with_reducible apply Keeps.foldlPair (fun _ _ => ?_)
    | dsimp only [id]

theorem execSyncRsp_keeps (a0) (a1) (a2) (s : State) : KeepsX [.out, .fresh, .regs, .time, .epoch, .src, .xb, .arb, .lnk, .pwr, .su, .bar, .gate, .trc] s (execSyncRsp a0 a1 a2 s) := by
  unfold execSyncRsp
  repeat' first
    | with_reducible apply KeepsX.runClk (fun s => ?_)
    | intro _
    | with_reducible exact Keeps.refl
    | assumption
    | dsimp only
    | with_reducible apply Keeps.ite
    | with_reducible apply Keeps.step (wake_keeps ..) (by decide)
    | with_reducible apply Keeps.step (State.raise_keeps ..) (by decide)
    | with_reducible apply Keeps.step (State.wr_keeps ..) (by decide)
    | with_reducible apply Keeps.step (loseAlignment_keeps ..) (by decide)
    | with_reducible apply Keeps.step (recomputeEpoch_keeps ..) (by decide)
    | with_reducible apply rxFrame_keeps (by decide)
    | with_reducible apply Keeps.step (sendFieldState_keeps ..) (by decide)
    | with_reducible apply Keeps.step (stepTime_keeps ..) (by decide)
    | with_reducible apply Keeps.step (syncOffset_keeps ..) (by decide)
    | with_reducible apply Keeps.iteSnd
    | with_reducible apply Keeps.iteFst
    | with_reducible apply Keeps.foldl (fun _ _ => ?_)
    | with_reducible apply Keeps.foldlPair (fun _ _ => ?_)
    | dsimp only [id]
    | fail_if_no_progress with_reducible apply Keeps.fresh_time (by decide) (by decide)
    | fail_if_no_progress with_reducible apply Keeps.time (by decide)
    | fail_if_no_progress with_reducible apply Keeps.fresh (by decide)
    | split

theorem execAlignmentTimeout_keeps (s : State) : KeepsX [.out, .fresh, .regs, .time, .epoch, .src, .bar, .gate, .trc] s (execAlignmentTimeout s) := by
  unfold execAlignmentTimeout
  repeat' first
    | with_reducible apply KeepsX.runClk (fun s => ?_)
    | with_reducible exact Keeps.refl
    | assumption
    | dsimp only
    | with_reducible apply Keeps.ite
    | with_reducible apply Keeps.step (noFirstSync_keeps ..) (by decide)
    | with_reducible apply Keeps.step (endWakeHold_keeps ..) (by decide)
    | with_reducible apply Keeps.step (loseAlignment_keeps ..) (by decide)

theorem execCapture_keeps (a0) (a1) (a2) (a3) (s : State) : KeepsX [.out, .fresh, .pins, .time] s (execCapture a0 a1 a2 a3 s) := by
  unfold execCapture
  repeat' first
    | with_reducible apply KeepsX.run (fun s => ?_)
    | with_reducible exact Keeps.refl
    | assumption
    | dsimp only
    | with_reducible apply Keeps.ite
    | with_reducible apply Keeps.iteSnd
    | with_reducible apply Keeps.iteFst
    | with_reducible apply Keeps.foldl (fun _ _ => ?_)
    | with_reducible apply Keeps.foldlPair (fun _ _ => ?_)
    | fail_if_no_progress with_reducible apply Keeps.fresh (by decide)
    | fail_if_no_progress with_reducible apply Keeps.pins (by decide)
    | fail_if_no_progress with_reducible apply Keeps.time (by decide)
    | fail_if_no_progress with_reducible apply Keeps.fresh_time (by decide) (by decide)
    | fail_if_no_progress with_reducible apply Keeps.pins_time (by decide) (by decide)

theorem execSleepEntryEdge_keeps (s : State) : KeepsX [.out, .time] s (execSleepEntryEdge s) := by
  unfold execSleepEntryEdge
  repeat' first
    | with_reducible apply KeepsX.run (fun s => ?_)
    | with_reducible exact Keeps.refl
    | assumption
    | dsimp only
    | with_reducible apply Keeps.ite
    | with_reducible apply Keeps.iteSnd
    | with_reducible apply Keeps.iteFst
    | with_reducible apply Keeps.foldl (fun _ _ => ?_)
    | with_reducible apply Keeps.foldlPair (fun _ _ => ?_)
    | fail_if_no_progress with_reducible apply Keeps.time (by decide)

theorem execPwrWake_keeps (s : State) : KeepsX [.out, .time] s (execPwrWake s) := by
  unfold execPwrWake
  repeat' first
    | with_reducible apply KeepsX.run (fun s => ?_)
    | with_reducible exact Keeps.refl
    | assumption
    | dsimp only
    | with_reducible apply Keeps.ite
    | with_reducible apply Keeps.iteSnd
    | with_reducible apply Keeps.iteFst
    | with_reducible apply Keeps.foldl (fun _ _ => ?_)
    | with_reducible apply Keeps.foldlPair (fun _ _ => ?_)
    | fail_if_no_progress with_reducible apply Keeps.time (by decide)

theorem execSleepMakeup_keeps (a0) (s : State) : KeepsX [.out, .regs, .time, .epoch, .pwr, .bar, .gate, .edw] s (execSleepMakeup a0 s) := by
  unfold execSleepMakeup
  repeat' first
    | with_reducible apply KeepsX.run (fun s => ?_)
    | with_reducible exact Keeps.refl
    | assumption
    | dsimp only
    | with_reducible apply Keeps.ite
    | with_reducible apply Keeps.step (serveEdw_keeps ..) (by decide)
    | with_reducible apply Keeps.step (State.raise_keeps ..) (by decide)
    | with_reducible apply Keeps.step (State.wr_keeps ..) (by decide)
    | with_reducible apply Keeps.step (recomputeEpoch_keeps ..) (by decide)
    | with_reducible apply Keeps.step (wakeSys_keeps ..) (by decide)
    | with_reducible apply Keeps.each (fun _ _ => ?_)
    | with_reducible apply Keeps.iteSnd
    | with_reducible apply Keeps.iteFst
    | with_reducible apply Keeps.foldl (fun _ _ => ?_)
    | with_reducible apply Keeps.foldlPair (fun _ _ => ?_)
    | fail_if_no_progress with_reducible apply Keeps.time (by decide)

theorem execWakeGrant_keeps (a0) (s : State) : KeepsX [.out, .regs, .pwr, .gate] s (execWakeGrant a0 s) := by
  unfold execWakeGrant
  repeat' first
    | with_reducible apply KeepsX.run (fun s => ?_)
    | with_reducible exact Keeps.refl
    | assumption
    | dsimp only
    | with_reducible apply Keeps.ite
    | with_reducible apply Keeps.step (State.inc_keeps ..) (by decide)
    | with_reducible apply Keeps.step (State.setDom_keeps ..) (by decide)
    | with_reducible apply Keeps.step (hostGrant_keeps ..) (by decide)
    | with_reducible apply Keeps.step (noteDelayed_keeps ..) (by decide)
    | with_reducible apply Keeps.iteSnd
    | with_reducible apply Keeps.iteFst
    | with_reducible apply Keeps.foldl (fun _ _ => ?_)
    | with_reducible apply Keeps.foldlPair (fun _ _ => ?_)
    | fail_if_no_progress with_reducible apply Keeps.pwr (by decide)
    | dsimp only [id]
    | split

theorem execPwrGoodRise_keeps (a0) (a1) (s : State) : KeepsX [.out, .pwr, .gate] s (execPwrGoodRise a0 a1 s) := by
  unfold execPwrGoodRise
  repeat' first
    | with_reducible apply KeepsX.run (fun s => ?_)
    | with_reducible exact Keeps.refl
    | assumption
    | dsimp only
    | with_reducible apply Keeps.ite
    | with_reducible apply Keeps.iteSnd
    | with_reducible apply Keeps.iteFst
    | with_reducible apply Keeps.foldl (fun _ _ => ?_)
    | with_reducible apply Keeps.foldlPair (fun _ _ => ?_)
    | fail_if_no_progress with_reducible apply Keeps.pwr_gate (by decide) (by decide)
    | fail_if_no_progress with_reducible apply Keeps.pwr (by decide)
    | fail_if_no_progress with_reducible apply Keeps.gate (by decide)
    | dsimp only [id]
    | split

theorem execDomainReleaseEnd_keeps (a0) (a1) (s : State) : KeepsX [.out, .regs, .time, .src, .acc, .firn, .xb, .rq, .arb, .core, .pred, .clus, .camp, .seg, .lnk, .pwr, .bar, .gate, .edw, .trc] s (execDomainReleaseEnd a0 a1 s) := by
  unfold execDomainReleaseEnd
  repeat' first
    | with_reducible apply KeepsX.run (fun s => ?_)
    | with_reducible exact Keeps.refl
    | assumption
    | dsimp only
    | with_reducible apply Keeps.ite
    | with_reducible apply Keeps.step (State.setDom_keeps ..) (by decide)
    | with_reducible apply Keeps.step (domainOn_keeps ..) (by decide)
    | with_reducible apply Keeps.step (dropDomain_keeps ..) (by decide)
    | with_reducible apply Keeps.step (wakeSys_keeps ..) (by decide)
    | with_reducible apply Keeps.iteSnd
    | with_reducible apply Keeps.iteFst
    | with_reducible apply Keeps.foldl (fun _ _ => ?_)
    | with_reducible apply Keeps.foldlPair (fun _ _ => ?_)
    | fail_if_no_progress with_reducible apply Keeps.pwr_gate (by decide) (by decide)
    | fail_if_no_progress with_reducible apply Keeps.pwr (by decide)
    | fail_if_no_progress with_reducible apply Keeps.gate (by decide)
    | dsimp only [id]
    | split

theorem execDomainRampFail_keeps (a0) (a1) (s : State) : KeepsX [.out, .regs, .staged, .img, .pwr, .su, .gate] s (execDomainRampFail a0 a1 s) := by
  unfold execDomainRampFail
  repeat' first
    | with_reducible apply KeepsX.run (fun s => ?_)
    | with_reducible exact Keeps.refl
    | assumption
    | dsimp only
    | with_reducible apply Keeps.ite
    | with_reducible apply Keeps.step (State.setDom_keeps ..) (by decide)
    | with_reducible apply Keeps.step (tryBoot_keeps ..) (by decide)
    | with_reducible apply Keeps.iteSnd
    | with_reducible apply Keeps.iteFst
    | with_reducible apply Keeps.foldl (fun _ _ => ?_)
    | with_reducible apply Keeps.foldlPair (fun _ _ => ?_)
    | dsimp only [id]
    | fail_if_no_progress with_reducible apply Keeps.gate (by decide)
    | fail_if_no_progress with_reducible apply Keeps.pwr (by decide)
    | fail_if_no_progress with_reducible apply Keeps.pwr_gate (by decide) (by decide)
    | split

theorem execPwrGoodFall_keeps (a0) (a1) (s : State) : KeepsX [.out, .regs, .time, .src, .acc, .firn, .xb, .rq, .arb, .core, .pred, .clus, .camp, .seg, .lnk, .pwr, .gate, .edw, .trc] s (execPwrGoodFall a0 a1 s) := by
  unfold execPwrGoodFall
  repeat' first
    | with_reducible apply KeepsX.run (fun s => ?_)
    | with_reducible exact Keeps.refl
    | assumption
    | dsimp only
    | with_reducible apply Keeps.ite
    | with_reducible apply Keeps.step (dropDomain_keeps ..) (by decide)
    | with_reducible apply Keeps.step (hostEdwDrop_keeps ..) (by decide)
    | with_reducible apply Keeps.iteSnd
    | with_reducible apply Keeps.iteFst
    | with_reducible apply Keeps.foldl (fun _ _ => ?_)
    | with_reducible apply Keeps.foldlPair (fun _ _ => ?_)
    | fail_if_no_progress with_reducible apply Keeps.pwr_gate (by decide) (by decide)
    | fail_if_no_progress with_reducible apply Keeps.pwr (by decide)
    | fail_if_no_progress with_reducible apply Keeps.gate (by decide)
    | dsimp only [id]
    | split

theorem execRstCluster_keeps (a0) (s : State) : KeepsX [.out, .regs, .time, .src, .acc, .firn, .xb, .arb, .core, .clus, .camp, .pwr, .trc] s (execRstCluster a0 s) := by
  unfold execRstCluster
  repeat' first
    | with_reducible apply KeepsX.runClk (fun s => ?_)
    | with_reducible exact Keeps.refl
    | assumption
    | dsimp only
    | with_reducible apply Keeps.ite
    | with_reducible apply Keeps.step (noteReset_keeps ..) (by decide)
    | with_reducible apply Keeps.step (resetCluster_keeps ..) (by decide)

theorem execRstRegion_keeps (a0) (s : State) : KeepsX [.out, .regs, .time, .src, .acc, .firn, .xb, .rq, .arb, .core, .pred, .clus, .camp, .seg, .pwr, .trc] s (execRstRegion a0 s) := by
  unfold execRstRegion
  repeat' first
    | with_reducible apply KeepsX.runClk (fun s => ?_)
    | with_reducible exact Keeps.refl
    | assumption
    | dsimp only
    | with_reducible apply Keeps.ite
    | with_reducible apply Keeps.step (noteReset_keeps ..) (by decide)
    | with_reducible apply Keeps.step (resetRegion_keeps ..) (by decide)

theorem execRstSoftInstance_keeps (s : State) : KeepsX [.out, .regs, .staged, .once, .time, .src, .yar, .acc, .firn, .xb, .rq, .arb, .core, .pred, .clus, .camp, .seg, .lnk, .audit, .rec_, .lock, .img, .rime, .pwr, .su, .bar, .hostq, .trc, .tst] s (execRstSoftInstance s) := by
  unfold execRstSoftInstance
  repeat' first
    | with_reducible apply KeepsX.runClk (fun s => ?_)
    | with_reducible exact Keeps.refl
    | assumption
    | dsimp only
    | with_reducible apply Keeps.ite
    | with_reducible apply Keeps.step (noteReset_keeps ..) (by decide)
    | with_reducible apply Keeps.step (resetInstance_keeps ..) (by decide)
    | with_reducible apply Keeps.step (startFrom_keeps ..) (by decide)

theorem execRstDie_keeps (s : State) : KeepsX [.out, .regs, .staged, .once, .time, .src, .yar, .acc, .firn, .xb, .rq, .arb, .core, .pred, .clus, .camp, .seg, .lnk, .audit, .rec_, .lock, .img, .rime, .pwr, .su, .bar, .hostq, .trc, .tst] s (execRstDie s) := by
  unfold execRstDie
  repeat' first
    | with_reducible apply KeepsX.run (fun s => ?_)
    | with_reducible exact Keeps.refl
    | assumption
    | dsimp only
    | with_reducible apply Keeps.ite
    | with_reducible apply Keeps.step (dieReset_keeps ..) (by decide)

theorem execRdpErase_keeps (a0) (s : State) : KeepsX [.out, .pins, .regs, .staged, .once, .time, .src, .yar, .acc, .firn, .xb, .rq, .arb, .core, .pred, .clus, .camp, .seg, .lnk, .audit, .rec_, .lock, .img, .rime, .pwr, .su, .bar, .hostq, .edw, .trc, .tst] s (execRdpErase a0 s) := by
  unfold execRdpErase
  repeat' first
    | with_reducible apply KeepsX.run (fun s => ?_)
    | with_reducible exact Keeps.refl
    | assumption
    | dsimp only
    | with_reducible apply Keeps.ite
    | with_reducible apply Keeps.step (dieReset_keeps ..) (by decide)
    | with_reducible apply Keeps.step (edwReset_keeps ..) (by decide)
    | with_reducible apply Keeps.iteSnd
    | with_reducible apply Keeps.iteFst
    | with_reducible apply Keeps.foldl (fun _ _ => ?_)
    | with_reducible apply Keeps.foldlPair (fun _ _ => ?_)
    | fail_if_no_progress with_reducible apply Keeps.pins (by decide)
    | fail_if_no_progress with_reducible apply Keeps.su (by decide)
    | fail_if_no_progress with_reducible apply Keeps.img_edw (by decide) (by decide)
    | fail_if_no_progress with_reducible apply Keeps.pins_su (by decide) (by decide)
    | fail_if_no_progress with_reducible apply Keeps.pins_img_edw (by decide) (by decide) (by decide)

theorem execRstPackage_keeps (s : State) : KeepsX [.out, .regs, .staged, .once, .time, .epoch, .src, .yar, .acc, .firn, .xb, .rq, .arb, .core, .pred, .clus, .camp, .seg, .lnk, .audit, .rec_, .lock, .img, .rime, .pwr, .su, .bar, .hostq, .gate, .edw, .trc, .tst] s (execRstPackage s) := by
  unfold execRstPackage
  repeat' first
    | with_reducible apply KeepsX.run (fun s => ?_)
    | with_reducible exact Keeps.refl
    | assumption
    | dsimp only
    | with_reducible apply Keeps.ite
    | with_reducible apply Keeps.step (coldReset_keeps ..) (by decide)

theorem execRstSystem_keeps (s : State) : KeepsX [.out, .regs, .staged, .once, .time, .epoch, .src, .yar, .acc, .firn, .xb, .rq, .arb, .core, .pred, .clus, .camp, .seg, .lnk, .audit, .rec_, .lock, .img, .rime, .pwr, .su, .bar, .hostq, .gate, .edw, .trc, .tst] s (execRstSystem s) := by
  unfold execRstSystem
  repeat' first
    | with_reducible apply KeepsX.run (fun s => ?_)
    | with_reducible exact Keeps.refl
    | assumption
    | dsimp only
    | with_reducible apply Keeps.ite
    | with_reducible apply Keeps.step (coldReset_keeps ..) (by decide)

theorem execPowerOn_keeps (s : State) : KeepsX [.out, .regs, .staged, .once, .time, .epoch, .src, .yar, .acc, .firn, .xb, .rq, .arb, .core, .pred, .clus, .camp, .seg, .lnk, .audit, .rec_, .lock, .img, .rime, .pwr, .su, .bar, .hostq, .gate, .edw, .trc, .tst] s (execPowerOn s) := by
  unfold execPowerOn
  repeat' first
    | with_reducible apply KeepsX.run (fun s => ?_)
    | with_reducible exact Keeps.refl
    | assumption
    | dsimp only
    | with_reducible apply Keeps.ite
    | with_reducible apply Keeps.step (coldReset_keeps ..) (by decide)

theorem execResetRelease_keeps (a0) (a1) (a2) (a3) (s : State) : KeepsX [.out, .pins, .su] s (execResetRelease a0 a1 a2 a3 s) := by
  unfold execResetRelease
  repeat' first
    | with_reducible apply KeepsX.run (fun s => ?_)
    | with_reducible exact Keeps.refl
    | assumption
    | dsimp only
    | with_reducible apply Keeps.ite
    | with_reducible apply Keeps.iteSnd
    | with_reducible apply Keeps.iteFst
    | with_reducible apply Keeps.foldl (fun _ _ => ?_)
    | with_reducible apply Keeps.foldlPair (fun _ _ => ?_)
    | fail_if_no_progress with_reducible apply Keeps.pins_su (by decide) (by decide)
    | fail_if_no_progress with_reducible apply Keeps.su (by decide)

theorem execTclkLock_keeps (s : State) : KeepsX [.out, .time, .su] s (execTclkLock s) := by
  unfold execTclkLock
  repeat' first
    | with_reducible apply KeepsX.run (fun s => ?_)
    | with_reducible exact Keeps.refl
    | assumption
    | dsimp only
    | with_reducible apply Keeps.ite
    | with_reducible apply Keeps.iteSnd
    | with_reducible apply Keeps.iteFst
    | with_reducible apply Keeps.foldl (fun _ _ => ?_)
    | with_reducible apply Keeps.foldlPair (fun _ _ => ?_)
    | fail_if_no_progress with_reducible apply Keeps.time_su (by decide) (by decide)

theorem execFirnInitEnd_keeps (a0) (a1) (s : State) : KeepsX [.out, .regs, .src, .firn, .lnk, .pwr, .su, .bar, .hostq, .gate, .edw, .trc] s (execFirnInitEnd a0 a1 s) := by
  unfold execFirnInitEnd
  repeat' first
    | with_reducible apply KeepsX.run (fun s => ?_)
    | with_reducible exact Keeps.refl
    | assumption
    | dsimp only
    | with_reducible apply Keeps.ite
    | with_reducible apply Keeps.step (bistEnd_keeps ..) (by decide)
    | with_reducible apply Keeps.step (edwOn_keeps ..) (by decide)
    | with_reducible apply Keeps.step (firnError_keeps ..) (by decide)
    | with_reducible apply Keeps.step (rebuildHostQ_keeps ..) (by decide)
    | with_reducible apply Keeps.step (wakeSys_keeps ..) (by decide)
    | with_reducible apply Keeps.each (fun _ _ => ?_)
    | with_reducible apply Keeps.iteSnd
    | with_reducible apply Keeps.iteFst
    | with_reducible apply Keeps.foldl (fun _ _ => ?_)
    | with_reducible apply Keeps.foldlPair (fun _ _ => ?_)
    | fail_if_no_progress with_reducible apply Keeps.firn (by decide)
    | fail_if_no_progress with_reducible apply Keeps.su (by decide)
    | fail_if_no_progress with_reducible apply Keeps.firn_su (by decide) (by decide)

theorem execTimeUnitReload_keeps (a0) (s : State) : KeepsX [.out, .regs, .staged, .time, .clus, .lnk, .img, .pwr, .su] s (execTimeUnitReload a0 s) := by
  unfold execTimeUnitReload
  repeat' first
    | with_reducible apply KeepsX.runClk (fun s => ?_)
    | with_reducible exact Keeps.refl
    | assumption
    | dsimp only
    | with_reducible apply Keeps.ite
    | with_reducible apply Keeps.step (askFills_keeps ..) (by decide)
    | with_reducible apply Keeps.step (enterLoad_keeps ..) (by decide)
    | with_reducible apply Keeps.iteSnd
    | with_reducible apply Keeps.iteFst
    | with_reducible apply Keeps.foldl (fun _ _ => ?_)
    | with_reducible apply Keeps.foldlPair (fun _ _ => ?_)
    | fail_if_no_progress with_reducible apply Keeps.time (by decide)

theorem execEdwRestoreDone_keeps (s : State) : KeepsX [.out, .fresh, .regs, .staged, .img, .su, .edw] s (execEdwRestoreDone s) := by
  unfold execEdwRestoreDone
  repeat' first
    | with_reducible apply KeepsX.runClk (fun s => ?_)
    | with_reducible exact Keeps.refl
    | assumption
    | dsimp only
    | with_reducible apply Keeps.ite
    | with_reducible apply Keeps.step (edwRestore_keeps ..) (by decide)
    | with_reducible apply Keeps.step (tryBoot_keeps ..) (by decide)

theorem execStartupLoadEnd_keeps (s : State) : KeepsX [.out, .lnk, .pwr, .su] s (execStartupLoadEnd s) := by
  unfold execStartupLoadEnd
  repeat' first
    | with_reducible apply KeepsX.runClk (fun s => ?_)
    | with_reducible exact Keeps.refl
    | assumption
    | dsimp only
    | with_reducible apply Keeps.ite
    | with_reducible apply Keeps.step (enterLink_keeps ..) (by decide)

theorem execLinkPhaseEnd_keeps (s : State) : KeepsX [.out, .fresh, .regs, .src, .su, .bar, .gate, .trc] s (execLinkPhaseEnd s) := by
  unfold execLinkPhaseEnd
  repeat' first
    | with_reducible apply KeepsX.runClk (fun s => ?_)
    | with_reducible exact Keeps.refl
    | assumption
    | dsimp only
    | with_reducible apply Keeps.ite
    | with_reducible apply Keeps.step (noFirstSync_keeps ..) (by decide)
    | with_reducible apply Keeps.step (State.raise_keeps ..) (by decide)
    | with_reducible apply Keeps.iteSnd
    | with_reducible apply Keeps.iteFst
    | with_reducible apply Keeps.foldl (fun _ _ => ?_)
    | with_reducible apply Keeps.foldlPair (fun _ _ => ?_)
    | fail_if_no_progress with_reducible apply Keeps.su (by decide)

theorem execCheckerLocked_keeps (a0) (a1) (a2) (s : State) : KeepsX [.out, .tst] s (execCheckerLocked a0 a1 a2 s) := by
  unfold execCheckerLocked
  repeat' first
    | with_reducible apply KeepsX.runClk (fun s => ?_)
    | with_reducible exact Keeps.refl
    | assumption
    | dsimp only
    | with_reducible apply Keeps.ite
    | with_reducible apply Keeps.step (countErrs_keeps ..) (by decide)
    | with_reducible apply Keeps.iteSnd
    | with_reducible apply Keeps.iteFst
    | with_reducible apply Keeps.foldl (fun _ _ => ?_)
    | with_reducible apply Keeps.foldlPair (fun _ _ => ?_)
    | fail_if_no_progress with_reducible apply Keeps.tst (by decide)

theorem execCheckerLockLost_keeps (a0) (a1) (a2) (s : State) : KeepsX [.out, .tst] s (execCheckerLockLost a0 a1 a2 s) := by
  unfold execCheckerLockLost
  repeat' first
    | with_reducible apply KeepsX.runClk (fun s => ?_)
    | with_reducible exact Keeps.refl
    | assumption
    | dsimp only
    | with_reducible apply Keeps.ite
    | with_reducible apply Keeps.step (countErrs_keeps ..) (by decide)
    | with_reducible apply Keeps.iteSnd
    | with_reducible apply Keeps.iteFst
    | with_reducible apply Keeps.foldl (fun _ _ => ?_)
    | with_reducible apply Keeps.foldlPair (fun _ _ => ?_)
    | fail_if_no_progress with_reducible apply Keeps.tst (by decide)

theorem execBscModeChange_keeps (a0) (s : State) : KeepsX [.out, .fresh, .pins, .regs, .time, .src, .xb, .arb, .lnk, .trc] s (execBscModeChange a0 s) := by
  unfold execBscModeChange
  repeat' first
    | with_reducible apply KeepsX.run (fun s => ?_)
    | with_reducible exact Keeps.refl
    | assumption
    | dsimp only
    | with_reducible apply Keeps.ite
    | with_reducible apply Keeps.step (goOff_keeps ..) (by decide)
    | with_reducible apply Keeps.step (portDown_keeps ..) (by decide)
    | with_reducible apply Keeps.step (tryDetect_keeps ..) (by decide)
    | with_reducible apply Keeps.each (fun _ _ => ?_)
    | with_reducible apply Keeps.iteSnd
    | with_reducible apply Keeps.iteFst
    | with_reducible apply Keeps.foldl (fun _ _ => ?_)
    | with_reducible apply Keeps.foldlPair (fun _ _ => ?_)
    | fail_if_no_progress with_reducible apply Keeps.fresh_pins (by decide) (by decide)

theorem execArbiterDecide_keeps (a0) (s : State) : KeepsX [.out, .regs, .time, .xb, .rq, .arb, .camp, .lnk, .bar, .gate, .tst] s (execArbiterDecide a0 s) := by
  unfold execArbiterDecide
  repeat' first
    | with_reducible apply KeepsX.run (fun s => ?_)
    | with_reducible exact Keeps.refl
    | assumption
    | dsimp only
    | with_reducible apply Keeps.ite
    | with_reducible apply Keeps.step (pinRing_keeps ..) (by decide)
    | with_reducible apply Keeps.step (linkRun_keeps ..) (by decide)
    | with_reducible apply Keeps.step (arbBeatOf_keeps ..) (by decide)
    | with_reducible apply Keeps.step (idleSlot_keeps ..) (by decide)
    | with_reducible apply Keeps.iteSnd
    | with_reducible apply Keeps.iteFst
    | with_reducible apply Keeps.foldl (fun _ _ => ?_)
    | with_reducible apply Keeps.foldlPair (fun _ _ => ?_)
    | with_reducible refine Keeps.trans ?_ (arbRun_keeps (by decide) _ _ (fun _ _ => ?_) _)

theorem execArbiterRevoke_keeps (a0) (s : State) : KeepsX [.out, .regs, .time, .xb, .rq, .arb, .camp, .lnk, .bar, .gate] s (execArbiterRevoke a0 s) := by
  unfold execArbiterRevoke
  repeat' first
    | with_reducible apply KeepsX.run (fun s => ?_)
    | with_reducible exact Keeps.refl
    | assumption
    | dsimp only
    | with_reducible apply Keeps.ite
    | with_reducible apply Keeps.step (pinRing_keeps ..) (by decide)
    | with_reducible apply Keeps.step (arbBeatOf_keeps ..) (by decide)
    | with_reducible apply Keeps.iteSnd
    | with_reducible apply Keeps.iteFst
    | with_reducible apply Keeps.foldl (fun _ _ => ?_)
    | with_reducible apply Keeps.foldlPair (fun _ _ => ?_)
    | with_reducible refine Keeps.trans ?_ (arbRevoke_keeps (by decide) _ _ (fun _ _ => ?_) _)

theorem execArbiterWithdraw_keeps (a0) (a1) (s : State) : KeepsX [.out, .regs, .arb, .gate] s (execArbiterWithdraw a0 a1 s) := by
  unfold execArbiterWithdraw
  repeat' first
    | with_reducible apply KeepsX.run (fun s => ?_)
    | with_reducible exact Keeps.refl
    | assumption
    | dsimp only
    | with_reducible apply Keeps.ite
    | with_reducible apply Keeps.step (pinRing_keeps ..) (by decide)
    | with_reducible apply Keeps.step (arbWithdraw_keeps ..) (by decide)

theorem execArbiterRefill_keeps (a0) (s : State) : KeepsX [.out, .arb] s (execArbiterRefill a0 s) := by
  unfold execArbiterRefill
  repeat' first
    | with_reducible apply KeepsX.run (fun s => ?_)
    | with_reducible exact Keeps.refl
    | assumption
    | dsimp only
    | with_reducible apply Keeps.ite
    | with_reducible apply Keeps.step (arbRefill_keeps ..) (by decide)

theorem execTrimCycle_keeps (s : State) : KeepsX [.out, .regs, .time, .src, .yar, .xb, .arb, .core, .clus, .rec_, .pwr, .su, .gate, .trc] s (execTrimCycle s) := by
  unfold execTrimCycle
  repeat' first
    | with_reducible apply KeepsX.runClk (fun s => ?_)
    | with_reducible exact Keeps.refl
    | assumption
    | dsimp only
    | with_reducible apply Keeps.ite
    | with_reducible apply Keeps.step (cycle_keeps ..) (by decide)
    | with_reducible apply Keeps.iteSnd
    | with_reducible apply Keeps.iteFst
    | with_reducible apply Keeps.foldl (fun _ _ => ?_)
    | with_reducible apply Keeps.foldlPair (fun _ _ => ?_)
    | fail_if_no_progress with_reducible apply Keeps.time (by decide)

theorem execThaw_keeps (a0) (s : State) : KeepsX [.out, .regs, .staged, .time, .epoch, .src, .yar, .acc, .firn, .xb, .rq, .arb, .core, .clus, .camp, .seg, .lnk, .rec_, .img, .rime, .pwr, .su, .bar, .gate, .edw, .trc, .tst] s (execThaw a0 s) := by
  unfold execThaw
  repeat' first
    | with_reducible apply KeepsX.run (fun s => ?_)
    | with_reducible exact Keeps.refl
    | assumption
    | dsimp only
    | with_reducible apply Keeps.ite
    | with_reducible apply Keeps.step (runThaw_keeps ..) (by decide)

theorem execThaw0_keeps (a0) (s : State) : KeepsX [.out, .regs, .staged, .time, .epoch, .src, .yar, .acc, .firn, .xb, .rq, .arb, .core, .clus, .camp, .seg, .lnk, .rec_, .img, .rime, .pwr, .su, .bar, .gate, .edw, .trc, .tst] s (execThaw0 a0 s) := by
  unfold execThaw0
  repeat' first
    | with_reducible apply KeepsX.runClk (fun s => ?_)
    | with_reducible exact Keeps.refl
    | assumption
    | dsimp only
    | with_reducible apply Keeps.ite
    | with_reducible apply Keeps.step (afterThaw0_keeps ..) (by decide)
    | with_reducible apply Keeps.step (runThaw_keeps ..) (by decide)
    | with_reducible apply Keeps.step (sendFieldState_keeps ..) (by decide)
    | with_reducible apply Keeps.iteSnd
    | with_reducible apply Keeps.iteFst
    | with_reducible apply Keeps.foldl (fun _ _ => ?_)
    | with_reducible apply Keeps.foldlPair (fun _ _ => ?_)
    | fail_if_no_progress with_reducible apply Keeps.su (by decide)

theorem execDeepThawDrainEnd_keeps (s : State) : KeepsX [.out, .img] s (execDeepThawDrainEnd s) := by
  unfold execDeepThawDrainEnd
  repeat' first
    | with_reducible apply KeepsX.runClk (fun s => ?_)
    | with_reducible exact Keeps.refl
    | assumption
    | dsimp only
    | with_reducible apply Keeps.ite
    | with_reducible apply Keeps.iteSnd
    | with_reducible apply Keeps.iteFst
    | with_reducible apply Keeps.foldl (fun _ _ => ?_)
    | with_reducible apply Keeps.foldlPair (fun _ _ => ?_)
    | fail_if_no_progress with_reducible apply Keeps.img (by decide)

theorem execDeepThawCopyEnd_keeps (s : State) : KeepsX [.out, .regs, .yar, .img, .rime] s (execDeepThawCopyEnd s) := by
  unfold execDeepThawCopyEnd
  repeat' first
    | with_reducible apply KeepsX.runClk (fun s => ?_)
    | with_reducible exact Keeps.refl
    | assumption
    | dsimp only
    | with_reducible apply Keeps.ite
    | with_reducible apply Keeps.step (State.inc_keeps ..) (by decide)
    | with_reducible apply Keeps.step (State.raise_keeps ..) (by decide)
    | with_reducible apply Keeps.step (copyGroup_keeps ..) (by decide)
    | with_reducible apply Keeps.step (partDone_keeps ..) (by decide)
    | with_reducible apply Keeps.iteSnd
    | with_reducible apply Keeps.iteFst
    | with_reducible apply Keeps.foldl (fun _ _ => ?_)
    | with_reducible apply Keeps.foldlPair (fun _ _ => ?_)
    | fail_if_no_progress with_reducible apply Keeps.img (by decide)

theorem execBarThaw_keeps (a0) (s : State) : KeepsX [.out, .regs, .staged, .img, .rime, .bar, .gate] s (execBarThaw a0 s) := by
  unfold execBarThaw
  repeat' first
    | with_reducible apply KeepsX.run (fun s => ?_)
    | intro _
    | with_reducible exact Keeps.refl
    | assumption
    | dsimp only
    | with_reducible apply Keeps.ite
    | with_reducible apply Keeps.step (State.raise_keeps ..) (by decide)
    | with_reducible apply Keeps.step (commitWord_keeps ..) (by decide)
    | with_reducible apply Keeps.step (grantCredit_keeps ..) (by decide)
    | with_reducible apply Keeps.step (partDone_keeps ..) (by decide)
    | with_reducible apply rxBar_keeps (by decide)
    | with_reducible apply Keeps.each (fun _ _ => ?_)
    | fail_if_no_progress with_reducible apply Keeps.gate (by decide)
    | split

theorem execLaneEnergyDetect_keeps (a0) (s : State) : KeepsX [.out, .lnk] s (execLaneEnergyDetect a0 s) := by
  unfold execLaneEnergyDetect
  repeat' first
    | with_reducible apply KeepsX.runClk (fun s => ?_)
    | intro _
    | with_reducible exact Keeps.refl
    | assumption
    | dsimp only
    | with_reducible apply Keeps.ite
    | with_reducible apply inState_keeps (by decide)
    | with_reducible apply Keeps.step (train_keeps ..) (by decide)

theorem execLaneLockDone_keeps (a0) (s : State) : KeepsX [.out, .lnk] s (execLaneLockDone a0 s) := by
  unfold execLaneLockDone
  repeat' first
    | with_reducible apply KeepsX.runClk (fun s => ?_)
    | intro _
    | with_reducible exact Keeps.refl
    | assumption
    | dsimp only
    | with_reducible apply Keeps.ite
    | with_reducible apply Keeps.step (State.setPort_keeps ..) (by decide)
    | with_reducible apply inState_keeps (by decide)
    | with_reducible apply Keeps.step (train_keeps ..) (by decide)

theorem execAlignDone_keeps (a0) (s : State) : KeepsX [.out, .lnk] s (execAlignDone a0 s) := by
  unfold execAlignDone
  repeat' first
    | with_reducible apply KeepsX.runClk (fun s => ?_)
    | intro _
    | with_reducible exact Keeps.refl
    | assumption
    | dsimp only
    | with_reducible apply Keeps.ite
    | with_reducible apply inState_keeps (by decide)
    | with_reducible apply Keeps.step (sendTrain_keeps ..) (by decide)
    | with_reducible apply Keeps.step (train_keeps ..) (by decide)

theorem execIdent_keeps (a0) (a1) (s : State) : KeepsX [.out, .regs, .src, .firn, .xb, .lnk, .pwr, .trc] s (execIdent a0 a1 s) := by
  unfold execIdent
  repeat' first
    | with_reducible apply KeepsX.runClk (fun s => ?_)
    | intro _
    | with_reducible exact Keeps.refl
    | assumption
    | dsimp only
    | with_reducible apply Keeps.ite
    | with_reducible apply Keeps.step (enterCredit_keeps ..) (by decide)
    | with_reducible apply Keeps.step (State.setPort_keeps ..) (by decide)
    | with_reducible apply Keeps.step (State.wr_keeps ..) (by decide)
    | with_reducible apply inState_keeps (by decide)
    | with_reducible apply Keeps.step (noteDown_keeps ..) (by decide)
    | with_reducible apply Keeps.step (resolveWith_keeps ..) (by decide)

theorem execCreditMarker_keeps (a0) (s : State) : KeepsX [.out, .lnk] s (execCreditMarker a0 s) := by
  unfold execCreditMarker
  repeat' first
    | with_reducible apply KeepsX.runClk (fun s => ?_)
    | with_reducible exact Keeps.refl
    | assumption
    | dsimp only
    | with_reducible apply Keeps.ite
    | with_reducible apply Keeps.step (enterCredit_keeps ..) (by decide)
    | with_reducible apply Keeps.step (State.setPort_keeps ..) (by decide)

theorem execLinkUp_keeps (a0) (s : State) : KeepsX [.out, .regs, .src, .xb, .lnk, .rec_, .pwr, .trc] s (execLinkUp a0 s) := by
  unfold execLinkUp
  repeat' first
    | with_reducible apply KeepsX.runClk (fun s => ?_)
    | intro _
    | with_reducible exact Keeps.refl
    | assumption
    | dsimp only
    | with_reducible apply Keeps.ite
    | with_reducible apply Keeps.step (State.setPort_keeps ..) (by decide)
    | with_reducible apply inState_keeps (by decide)
    | with_reducible apply Keeps.step (pumpAll_keeps ..) (by decide)
    | with_reducible apply Keeps.step (raiseInt_keeps ..) (by decide)
    | with_reducible apply Keeps.step (reroute_keeps ..) (by decide)
    | with_reducible apply Keeps.step (startResync_keeps ..) (by decide)
    | with_reducible apply Keeps.each (fun _ _ => ?_)
    | with_reducible apply Keeps.foldl (fun _ _ => ?_)
    | split

theorem execTrainingTimeout_keeps (a0) (s : State) : KeepsX [.out, .regs, .lnk] s (execTrainingTimeout a0 s) := by
  unfold execTrainingTimeout
  repeat' first
    | with_reducible apply KeepsX.runClk (fun s => ?_)
    | with_reducible exact Keeps.refl
    | assumption
    | dsimp only
    | with_reducible apply Keeps.ite
    | with_reducible apply Keeps.step (State.inc_keeps ..) (by decide)
    | with_reducible apply Keeps.step (State.setPort_keeps ..) (by decide)
    | with_reducible apply Keeps.step (State.wr_keeps ..) (by decide)
    | with_reducible apply Keeps.iteSnd
    | with_reducible apply Keeps.iteFst
    | with_reducible apply Keeps.foldl (fun _ _ => ?_)
    | with_reducible apply Keeps.foldlPair (fun _ _ => ?_)
    | dsimp only [id]
    | split

theorem execDownIdleEnd_keeps (a0) (s : State) : KeepsX [.out, .lnk] s (execDownIdleEnd a0 s) := by
  unfold execDownIdleEnd
  repeat' first
    | with_reducible apply KeepsX.runClk (fun s => ?_)
    | with_reducible exact Keeps.refl
    | assumption
    | dsimp only
    | with_reducible apply Keeps.ite
    | with_reducible apply Keeps.step (State.setPort_keeps ..) (by decide)
    | with_reducible apply Keeps.step (tryDetect_keeps ..) (by decide)

theorem execLaneLockLost_keeps (a0) (a1) (s : State) : KeepsX [.out, .regs, .time, .src, .xb, .arb, .lnk, .trc] s (execLaneLockLost a0 a1 s) := by
  unfold execLaneLockLost
  repeat' first
    | with_reducible apply KeepsX.runClk (fun s => ?_)
    | with_reducible exact Keeps.refl
    | assumption
    | dsimp only
    | with_reducible apply Keeps.ite
    | with_reducible apply Keeps.step (State.setPort_keeps ..) (by decide)
    | with_reducible apply Keeps.step (downIfUp_keeps ..) (by decide)

theorem execData_keeps (a0) (a1) (s : State) : KeepsX [.out, .regs, .time, .src, .xb, .arb, .lnk, .pwr, .trc] s (execData a0 a1 s) := by
  unfold execData
  repeat' first
    | with_reducible apply KeepsX.runClk (fun s => ?_)
    | intro _
    | with_reducible exact Keeps.refl
    | assumption
    | dsimp only
    | with_reducible apply Keeps.ite
    | with_reducible apply rxFrame_keeps (by decide)
    | with_reducible apply Keeps.step (sendNak_keeps ..) (by decide)
    | with_reducible apply Keeps.step (takeData_keeps ..) (by decide)

theorem execAckTimer_keeps (a0) (s : State) : KeepsX [.out, .lnk] s (execAckTimer a0 s) := by
  unfold execAckTimer
  repeat' first
    | with_reducible apply KeepsX.runClk (fun s => ?_)
    | intro _
    | with_reducible exact Keeps.refl
    | assumption
    | dsimp only
    | with_reducible apply Keeps.ite
    | with_reducible apply Keeps.step (State.setPort_keeps ..) (by decide)
    | with_reducible apply inState_keeps (by decide)
    | with_reducible apply Keeps.step (queueCtl_keeps ..) (by decide)

theorem execAck_keeps (a0) (a1) (s : State) : KeepsX [.out, .regs, .time, .src, .firn, .xb, .arb, .lnk, .trc] s (execAck a0 a1 s) := by
  unfold execAck
  repeat' first
    | with_reducible apply KeepsX.runClk (fun s => ?_)
    | intro _
    | with_reducible exact Keeps.refl
    | assumption
    | dsimp only
    | with_reducible apply Keeps.ite
    | with_reducible apply Keeps.step (freeFrames_keeps ..) (by decide)
    | with_reducible apply rxFrame_keeps (by decide)
    | with_reducible apply Keeps.iteSnd
    | with_reducible apply Keeps.iteFst
    | with_reducible apply Keeps.foldl (fun _ _ => ?_)
    | with_reducible apply Keeps.foldlPair (fun _ _ => ?_)
    | dsimp only [id]
    | split

theorem execNak_keeps (a0) (a1) (s : State) : KeepsX [.out, .regs, .time, .src, .firn, .xb, .arb, .lnk, .trc] s (execNak a0 a1 s) := by
  unfold execNak
  repeat' first
    | with_reducible apply KeepsX.runClk (fun s => ?_)
    | intro _
    | with_reducible exact Keeps.refl
    | assumption
    | dsimp only
    | with_reducible apply Keeps.ite
    | with_reducible apply Keeps.step (freeFrames_keeps ..) (by decide)
    | with_reducible apply rxFrame_keeps (by decide)
    | with_reducible apply Keeps.step (startReplay_keeps ..) (by decide)
    | with_reducible apply Keeps.iteSnd
    | with_reducible apply Keeps.iteFst
    | with_reducible apply Keeps.foldl (fun _ _ => ?_)
    | with_reducible apply Keeps.foldlPair (fun _ _ => ?_)
    | dsimp only [id]
    | split

theorem execNakTimeout_keeps (a0) (s : State) : KeepsX [.out, .lnk] s (execNakTimeout a0 s) := by
  unfold execNakTimeout
  repeat' first
    | with_reducible apply KeepsX.runClk (fun s => ?_)
    | intro _
    | with_reducible exact Keeps.refl
    | assumption
    | dsimp only
    | with_reducible apply Keeps.ite
    | with_reducible apply Keeps.step (State.setPort_keeps ..) (by decide)
    | with_reducible apply inState_keeps (by decide)
    | with_reducible apply Keeps.step (sendNak_keeps ..) (by decide)
    | with_reducible apply Keeps.iteSnd
    | with_reducible apply Keeps.iteFst
    | with_reducible apply Keeps.foldl (fun _ _ => ?_)
    | with_reducible apply Keeps.foldlPair (fun _ _ => ?_)
    | dsimp only [id]
    | split

theorem execReplayTimeout_keeps (a0) (s : State) : KeepsX [.out, .regs, .time, .src, .xb, .arb, .lnk, .trc] s (execReplayTimeout a0 s) := by
  unfold execReplayTimeout
  repeat' first
    | with_reducible apply KeepsX.runClk (fun s => ?_)
    | intro _
    | with_reducible exact Keeps.refl
    | assumption
    | dsimp only
    | with_reducible apply Keeps.ite
    | with_reducible apply inState_keeps (by decide)
    | with_reducible apply Keeps.step (startReplay_keeps ..) (by decide)

theorem execLinkFrameReject_keeps (a0) (a1) (s : State) : KeepsX [.out, .regs, .time, .src, .xb, .arb, .lnk, .trc] s (execLinkFrameReject a0 a1 s) := by
  unfold execLinkFrameReject
  repeat' first
    | with_reducible apply KeepsX.runClk (fun s => ?_)
    | intro _
    | with_reducible exact Keeps.refl
    | assumption
    | dsimp only
    | with_reducible apply Keeps.ite
    | with_reducible apply Keeps.step (State.inc_keeps ..) (by decide)
    | with_reducible apply rxFrame_keeps (by decide)
    | with_reducible apply Keeps.iteSnd
    | with_reducible apply Keeps.iteFst
    | with_reducible apply Keeps.foldl (fun _ _ => ?_)
    | with_reducible apply Keeps.foldlPair (fun _ _ => ?_)
    | dsimp only [id]

theorem execFecBlockDecode_keeps (a0) (a1) (a2) (s : State) : KeepsX [.out, .regs, .time, .src, .xb, .arb, .lnk, .trc] s (execFecBlockDecode a0 a1 a2 s) := by
  unfold execFecBlockDecode
  repeat' first
    | with_reducible apply KeepsX.runWf (fun s => ?_)
    | intro _
    | with_reducible exact Keeps.refl
    | assumption
    | dsimp only
    | with_reducible apply Keeps.ite
    | with_reducible apply Keeps.step (State.setPort_keeps ..) (by decide)
    | with_reducible apply Keeps.step (decodeBlock_keeps ..) (by decide)
    | with_reducible apply inState_keeps (by decide)
    | with_reducible apply Keeps.each (fun _ _ => ?_)
    | split

theorem execReportSend_keeps (a0) (s : State) : KeepsX [.out, .lnk] s (execReportSend a0 s) := by
  unfold execReportSend
  repeat' first
    | with_reducible apply KeepsX.runClk (fun s => ?_)
    | with_reducible exact Keeps.refl
    | assumption
    | dsimp only
    | with_reducible apply Keeps.ite
    | with_reducible apply Keeps.step (State.setPort_keeps ..) (by decide)
    | with_reducible apply Keeps.step (sendReport_keeps ..) (by decide)

theorem execReport_keeps (a0) (a1) (s : State) : KeepsX [.out, .regs, .time, .src, .firn, .xb, .arb, .lnk, .pwr, .trc] s (execReport a0 a1 s) := by
  unfold execReport
  repeat' first
    | with_reducible apply KeepsX.runClk (fun s => ?_)
    | intro _
    | with_reducible exact Keeps.refl
    | assumption
    | dsimp only
    | with_reducible apply Keeps.ite
    | with_reducible apply Keeps.step (downIfUp_keeps ..) (by decide)
    | with_reducible apply Keeps.step (resolveWith_keeps ..) (by decide)
    | with_reducible apply rxFrame_keeps (by decide)
    | with_reducible apply Keeps.step (sendReport_keeps ..) (by decide)
    | with_reducible apply Keeps.each (fun _ _ => ?_)
    | with_reducible apply Keeps.iteSnd
    | with_reducible apply Keeps.iteFst
    | with_reducible apply Keeps.foldl (fun _ _ => ?_)
    | with_reducible apply Keeps.foldlPair (fun _ _ => ?_)
    | dsimp only [id]

theorem execReportTimeout_keeps (a0) (s : State) : KeepsX [.out, .regs, .src, .firn, .xb, .lnk, .pwr, .trc] s (execReportTimeout a0 s) := by
  unfold execReportTimeout
  repeat' first
    | with_reducible apply KeepsX.runClk (fun s => ?_)
    | with_reducible exact Keeps.refl
    | assumption
    | dsimp only
    | with_reducible apply Keeps.ite
    | with_reducible apply Keeps.step (resolve_keeps ..) (by decide)

theorem execSettleExpire_keeps (a0) (s : State) : KeepsX [.out, .regs, .src, .xb, .lnk, .pwr, .trc] s (execSettleExpire a0 s) := by
  unfold execSettleExpire
  repeat' first
    | with_reducible apply KeepsX.runClk (fun s => ?_)
    | with_reducible exact Keeps.refl
    | assumption
    | dsimp only
    | with_reducible apply Keeps.ite
    | with_reducible apply Keeps.step (State.setPort_keeps ..) (by decide)
    | with_reducible apply Keeps.step (pumpAll_keeps ..) (by decide)
    | with_reducible apply Keeps.step (reroute_keeps ..) (by decide)
    | with_reducible apply Keeps.iteSnd
    | with_reducible apply Keeps.iteFst
    | with_reducible apply Keeps.foldl (fun _ _ => ?_)
    | with_reducible apply Keeps.foldlPair (fun _ _ => ?_)
    | dsimp only [id]
    | split

theorem execAuditVisit_keeps (a0) (s : State) : KeepsX [.out, .regs, .src, .audit, .trc] s (execAuditVisit a0 s) := by
  unfold execAuditVisit
  repeat' first
    | with_reducible apply KeepsX.runClk (fun s => ?_)
    | with_reducible exact Keeps.refl
    | assumption
    | dsimp only
    | with_reducible apply Keeps.ite
    | with_reducible apply Keeps.step (State.inc_keeps ..) (by decide)
    | with_reducible apply Keeps.step (State.wr_keeps ..) (by decide)
    | with_reducible apply Keeps.step (raiseInt_keeps ..) (by decide)
    | with_reducible apply Keeps.iteSnd
    | with_reducible apply Keeps.iteFst
    | with_reducible apply Keeps.foldl (fun _ _ => ?_)
    | with_reducible apply Keeps.foldlPair (fun _ _ => ?_)
    | fail_if_no_progress with_reducible apply Keeps.audit (by decide)
    | split

theorem execHandIn_keeps (a0) (s : State) : KeepsX [.out, .regs, .src, .firn, .xb, .rq, .core, .pwr, .trc] s (execHandIn a0 s) := by
  unfold execHandIn
  repeat' first
    | with_reducible apply KeepsX.runClk (fun s => ?_)
    | with_reducible exact Keeps.refl
    | assumption
    | dsimp only
    | with_reducible apply Keeps.ite
    | with_reducible apply Keeps.step (handIn_keeps ..) (by decide)

theorem execReplicaComplete_keeps (s : State) : KeepsX [.out, .regs, .src, .acc, .firn, .xb, .pwr, .trc] s (execReplicaComplete s) := by
  unfold execReplicaComplete
  repeat' first
    | with_reducible apply KeepsX.runClk (fun s => ?_)
    | with_reducible exact Keeps.refl
    | assumption
    | dsimp only
    | with_reducible apply Keeps.ite
    | with_reducible apply Keeps.step (completeReplica_keeps ..) (by decide)
    | with_reducible apply Keeps.iteSnd
    | with_reducible apply Keeps.iteFst
    | with_reducible apply Keeps.foldl (fun _ _ => ?_)
    | with_reducible apply Keeps.foldlPair (fun _ _ => ?_)
    | fail_if_no_progress with_reducible apply Keeps.firn (by decide)
    | dsimp only [id]
    | split

theorem execFenceDone_keeps (a0) (s : State) : KeepsX [.out, .regs, .src, .acc, .firn, .xb, .pwr, .trc] s (execFenceDone a0 s) := by
  unfold execFenceDone
  repeat' first
    | with_reducible apply KeepsX.runClk (fun s => ?_)
    | intro _
    | with_reducible exact Keeps.refl
    | assumption
    | dsimp only
    | with_reducible apply Keeps.ite
    | with_reducible apply Keeps.step (applyDone_keeps ..) (by decide)
    | with_reducible apply onFence_keeps (by decide)

theorem execFenceConfirm_keeps (a0) (s : State) : KeepsX [.out, .firn, .xb] s (execFenceConfirm a0 s) := by
  unfold execFenceConfirm
  repeat' first
    | with_reducible apply KeepsX.runClk (fun s => ?_)
    | intro _
    | with_reducible exact Keeps.refl
    | assumption
    | dsimp only
    | with_reducible apply Keeps.ite
    | with_reducible apply Keeps.step (freeCustody_keeps ..) (by decide)
    | with_reducible apply onFence_keeps (by decide)
    | with_reducible apply Keeps.each (fun _ _ => ?_)

theorem execCustodySettleExpire_keeps (a0) (s : State) : KeepsX [.out, .firn] s (execCustodySettleExpire a0 s) := by
  unfold execCustodySettleExpire
  repeat' first
    | with_reducible apply KeepsX.runClk (fun s => ?_)
    | with_reducible exact Keeps.refl
    | assumption
    | dsimp only
    | with_reducible apply Keeps.ite
    | with_reducible apply Keeps.step (State.setRec_keeps ..) (by decide)
    | with_reducible apply Keeps.iteSnd
    | with_reducible apply Keeps.iteFst
    | with_reducible apply Keeps.foldl (fun _ _ => ?_)
    | with_reducible apply Keeps.foldlPair (fun _ _ => ?_)
    | dsimp only [id]
    | split

theorem execFenceRestore_keeps (a0) (s : State) : KeepsX [.out, .regs, .src, .xb, .pwr, .trc] s (execFenceRestore a0 s) := by
  unfold execFenceRestore
  repeat' first
    | with_reducible apply KeepsX.runClk (fun s => ?_)
    | intro _
    | with_reducible exact Keeps.refl
    | assumption
    | dsimp only
    | with_reducible apply Keeps.ite
    | with_reducible apply onFence_keeps (by decide)
    | with_reducible apply Keeps.step (resend_keeps ..) (by decide)
    | with_reducible apply Keeps.each (fun _ _ => ?_)
    | with_reducible apply Keeps.iteSnd
    | with_reducible apply Keeps.iteFst
    | with_reducible apply Keeps.foldl (fun _ _ => ?_)
    | with_reducible apply Keeps.foldlPair (fun _ _ => ?_)
    | dsimp only [id]
    | split

theorem execAgeProbe_keeps (a0) (s : State) : KeepsX [.out, .regs, .src, .firn, .xb, .pwr, .trc] s (execAgeProbe a0 s) := by
  unfold execAgeProbe
  repeat' first
    | with_reducible apply KeepsX.runClk (fun s => ?_)
    | with_reducible exact Keeps.refl
    | assumption
    | dsimp only
    | with_reducible apply Keeps.ite
    | with_reducible apply Keeps.step (probeRecord_keeps ..) (by decide)
    | with_reducible apply Keeps.iteSnd
    | with_reducible apply Keeps.iteFst
    | with_reducible apply Keeps.foldl (fun _ _ => ?_)
    | with_reducible apply Keeps.foldlPair (fun _ _ => ?_)
    | dsimp only [id]
    | split

theorem execFenceProbe_keeps (a0) (s : State) : KeepsX [.out, .regs, .src, .xb, .pwr, .trc] s (execFenceProbe a0 s) := by
  unfold execFenceProbe
  repeat' first
    | with_reducible apply KeepsX.runClk (fun s => ?_)
    | intro _
    | with_reducible exact Keeps.refl
    | assumption
    | dsimp only
    | with_reducible apply Keeps.ite
    | with_reducible apply onFence_keeps (by decide)
    | with_reducible apply Keeps.step (sendFence_keeps ..) (by decide)

theorem execFenceAnswer_keeps (a0) (s : State) : KeepsX [.out, .regs, .src, .firn, .xb, .pwr, .edw, .trc] s (execFenceAnswer a0 s) := by
  unfold execFenceAnswer
  repeat' first
    | with_reducible apply KeepsX.runClk (fun s => ?_)
    | intro _
    | with_reducible exact Keeps.refl
    | assumption
    | dsimp only
    | with_reducible apply Keeps.ite
    | with_reducible apply Keeps.step (resendMeter_keeps ..) (by decide)
    | with_reducible apply Keeps.step (State.setRec_keeps ..) (by decide)
    | with_reducible apply onFence_keeps (by decide)
    | with_reducible apply Keeps.step (resend_keeps ..) (by decide)
    | with_reducible apply Keeps.iteSnd
    | with_reducible apply Keeps.iteFst
    | with_reducible apply Keeps.foldl (fun _ _ => ?_)
    | with_reducible apply Keeps.foldlPair (fun _ _ => ?_)
    | dsimp only [id]
    | split

theorem execFenceActing_keeps (a0) (s : State) : KeepsX [.out, .regs, .src, .xb, .rec_, .pwr, .trc] s (execFenceActing a0 s) := by
  unfold execFenceActing
  repeat' first
    | with_reducible apply KeepsX.runClk (fun s => ?_)
    | intro _
    | with_reducible exact Keeps.refl
    | assumption
    | dsimp only
    | with_reducible apply Keeps.ite
    | with_reducible apply onFence_keeps (by decide)
    | with_reducible apply Keeps.step (resendDones_keeps ..) (by decide)
    | with_reducible apply Keeps.iteSnd
    | with_reducible apply Keeps.iteFst
    | with_reducible apply Keeps.foldl (fun _ _ => ?_)
    | with_reducible apply Keeps.foldlPair (fun _ _ => ?_)
    | fail_if_no_progress with_reducible apply Keeps.rec_ (by decide)

theorem execFenceLoss_keeps (a0) (s : State) : KeepsX [.out, .regs, .src, .acc, .firn, .xb, .rq, .clus, .rec_, .pwr, .trc] s (execFenceLoss a0 s) := by
  unfold execFenceLoss
  repeat' first
    | with_reducible apply KeepsX.runClk (fun s => ?_)
    | intro _
    | with_reducible exact Keeps.refl
    | assumption
    | dsimp only
    | with_reducible apply Keeps.ite
    | with_reducible apply Keeps.step (startResync_keeps ..) (by decide)
    | with_reducible apply Keeps.step (endLostMigrations_keeps ..) (by decide)
    | with_reducible apply Keeps.step (loseTarget_keeps ..) (by decide)
    | with_reducible apply Keeps.step (State.wr_keeps ..) (by decide)
    | with_reducible apply Keeps.step (askFills_keeps ..) (by decide)
    | with_reducible apply Keeps.step (markUnreachable_keeps ..) (by decide)
    | with_reducible apply onFence_keeps (by decide)
    | with_reducible apply Keeps.step (probeAll_keeps ..) (by decide)
    | with_reducible apply Keeps.step (sendMigrated_keeps ..) (by decide)
    | with_reducible apply Keeps.step (startTakeover_keeps ..) (by decide)
    | with_reducible apply Keeps.each (fun _ _ => ?_)
    | with_reducible apply Keeps.iteSnd
    | with_reducible apply Keeps.iteFst
    | with_reducible apply Keeps.foldl (fun _ _ => ?_)
    | with_reducible apply Keeps.foldlPair (fun _ _ => ?_)
    | fail_if_no_progress with_reducible apply Keeps.rec_ (by decide)
    | fail_if_no_progress with_reducible apply Keeps.rq (by decide)
    | fail_if_no_progress with_reducible apply Keeps.rq_rec_ (by decide) (by decide)

theorem execPartnerNoRouteTimeout_keeps (a0) (s : State) : KeepsX [.out, .regs, .src, .xb, .rec_, .pwr, .trc] s (execPartnerNoRouteTimeout a0 s) := by
  unfold execPartnerNoRouteTimeout
  repeat' first
    | with_reducible apply KeepsX.runClk (fun s => ?_)
    | with_reducible exact Keeps.refl
    | assumption
    | dsimp only
    | with_reducible apply Keeps.ite
    | with_reducible apply Keeps.step (noteRoutes_keeps ..) (by decide)
    | with_reducible apply Keeps.step (startTakeover_keeps ..) (by decide)
    | with_reducible apply Keeps.iteSnd
    | with_reducible apply Keeps.iteFst
    | with_reducible apply Keeps.foldl (fun _ _ => ?_)
    | with_reducible apply Keeps.foldlPair (fun _ _ => ?_)
    | dsimp only [id]
    | split

theorem execTakeoverSettleExpire_keeps (s : State) : KeepsX [.out, .regs, .src, .firn, .xb, .rec_, .pwr, .trc] s (execTakeoverSettleExpire s) := by
  unfold execTakeoverSettleExpire
  repeat' first
    | with_reducible apply KeepsX.runClk (fun s => ?_)
    | with_reducible exact Keeps.refl
    | assumption
    | dsimp only
    | with_reducible apply Keeps.ite
    | with_reducible apply Keeps.step (startResync_keeps ..) (by decide)
    | with_reducible apply Keeps.step (State.setRec_keeps ..) (by decide)
    | with_reducible apply Keeps.step (probeRecord_keeps ..) (by decide)
    | with_reducible apply Keeps.each (fun _ _ => ?_)
    | with_reducible apply Keeps.iteSnd
    | with_reducible apply Keeps.iteFst
    | with_reducible apply Keeps.foldl (fun _ _ => ?_)
    | with_reducible apply Keeps.foldlPair (fun _ _ => ?_)
    | dsimp only [id]
    | fail_if_no_progress with_reducible apply Keeps.rec_ (by decide)
    | split

theorem execMigrationDrainEnd_keeps (a0) (s : State) : KeepsX [.out, .regs, .src, .xb, .rec_, .pwr, .trc] s (execMigrationDrainEnd a0 s) := by
  unfold execMigrationDrainEnd
  repeat' first
    | with_reducible apply KeepsX.runClk (fun s => ?_)
    | with_reducible exact Keeps.refl
    | assumption
    | dsimp only
    | with_reducible apply Keeps.ite
    | with_reducible apply Keeps.step (sendRec_keeps ..) (by decide)
    | with_reducible apply Keeps.iteSnd
    | with_reducible apply Keeps.iteFst
    | with_reducible apply Keeps.foldl (fun _ _ => ?_)
    | with_reducible apply Keeps.foldlPair (fun _ _ => ?_)
    | fail_if_no_progress with_reducible apply Keeps.rec_ (by decide)
    | dsimp only [id]
    | split

theorem execFenceMigrate_keeps (a0) (s : State) : KeepsX [.out, .regs, .src, .firn, .xb, .rq, .core, .clus, .pwr, .trc] s (execFenceMigrate a0 s) := by
  unfold execFenceMigrate
  repeat' first
    | with_reducible apply KeepsX.runClk (fun s => ?_)
    | with_reducible exact Keeps.refl
    | assumption
    | dsimp only
    | with_reducible apply Keeps.ite
    | with_reducible apply Keeps.step (askFills_keeps ..) (by decide)
    | with_reducible apply Keeps.step (State.setLane_keeps ..) (by decide)
    | with_reducible apply Keeps.step (moveOut_keeps ..) (by decide)
    | with_reducible apply Keeps.step (pumpRet_keeps ..) (by decide)
    | with_reducible apply Keeps.step (sendRet_keeps ..) (by decide)
    | with_reducible apply Keeps.iteSnd
    | with_reducible apply Keeps.iteFst
    | with_reducible apply Keeps.foldl (fun _ _ => ?_)
    | with_reducible apply Keeps.foldlPair (fun _ _ => ?_)
    | dsimp only [id]
    | fail_if_no_progress with_reducible apply Keeps.rq (by decide)
    | split

theorem execFenceIntake_keeps (a0) (s : State) : KeepsX [.out, .rq] s (execFenceIntake a0 s) := by
  unfold execFenceIntake
  repeat' first
    | with_reducible apply KeepsX.runClk (fun s => ?_)
    | with_reducible exact Keeps.refl
    | assumption
    | dsimp only
    | with_reducible apply Keeps.ite
    | with_reducible apply Keeps.step (State.setLane_keeps ..) (by decide)
    | with_reducible apply Keeps.iteSnd
    | with_reducible apply Keeps.iteFst
    | with_reducible apply Keeps.foldl (fun _ _ => ?_)
    | with_reducible apply Keeps.foldlPair (fun _ _ => ?_)
    | fail_if_no_progress with_reducible apply Keeps.rq (by decide)
    | dsimp only [id]
    | split

theorem execMigrationOldTargetEmpty_keeps (a0) (a1) (a2) (s : State) : KeepsX [.out, .regs, .src, .xb, .rq, .pwr, .trc] s (execMigrationOldTargetEmpty a0 a1 a2 s) := by
  unfold execMigrationOldTargetEmpty
  repeat' first
    | with_reducible apply KeepsX.runClk (fun s => ?_)
    | with_reducible exact Keeps.refl
    | assumption
    | dsimp only
    | with_reducible apply Keeps.ite
    | with_reducible apply Keeps.step (pumpRet_keeps ..) (by decide)
    | with_reducible apply Keeps.step (sendRet_keeps ..) (by decide)
    | with_reducible apply Keeps.iteSnd
    | with_reducible apply Keeps.iteFst
    | with_reducible apply Keeps.foldl (fun _ _ => ?_)
    | with_reducible apply Keeps.foldlPair (fun _ _ => ?_)
    | fail_if_no_progress with_reducible apply Keeps.rq (by decide)
    | dsimp only [id]
    | split

theorem execFenceRelease_keeps (a0) (s : State) : KeepsX [.out, .regs, .src, .xb, .rq, .clus, .pwr, .trc] s (execFenceRelease a0 s) := by
  unfold execFenceRelease
  repeat' first
    | with_reducible apply KeepsX.runClk (fun s => ?_)
    | with_reducible exact Keeps.refl
    | assumption
    | dsimp only
    | with_reducible apply Keeps.ite
    | with_reducible apply Keeps.step (State.setLane_keeps ..) (by decide)
    | with_reducible apply Keeps.step (askFills_keeps ..) (by decide)
    | with_reducible apply Keeps.step (sendMigrated_keeps ..) (by decide)
    | with_reducible apply Keeps.iteSnd
    | with_reducible apply Keeps.iteFst
    | with_reducible apply Keeps.foldl (fun _ _ => ?_)
    | with_reducible apply Keeps.foldlPair (fun _ _ => ?_)
    | fail_if_no_progress with_reducible apply Keeps.rq (by decide)
    | dsimp only [id]
    | split

theorem execFenceMigrated_keeps (a0) (s : State) : KeepsX [.out, .xb, .rec_] s (execFenceMigrated a0 s) := by
  unfold execFenceMigrated
  repeat' first
    | with_reducible apply KeepsX.runClk (fun s => ?_)
    | intro _
    | with_reducible exact Keeps.refl
    | assumption
    | dsimp only
    | with_reducible apply Keeps.ite
    | with_reducible apply Keeps.step (freeSlots_keeps ..) (by decide)
    | with_reducible apply onFence_keeps (by decide)

theorem execFirnScrub_keeps (a0) (s : State) : KeepsX [.out, .regs, .src, .firn, .lnk, .trc] s (execFirnScrub a0 s) := by
  unfold execFirnScrub
  repeat' first
    | with_reducible apply KeepsX.runClk (fun s => ?_)
    | with_reducible exact Keeps.refl
    | assumption
    | dsimp only
    | with_reducible apply Keeps.ite
    | with_reducible apply Keeps.step (State.inc_keeps ..) (by decide)
    | with_reducible apply Keeps.step (firnError_keeps ..) (by decide)
    | with_reducible apply Keeps.iteSnd
    | with_reducible apply Keeps.iteFst
    | with_reducible apply Keeps.foldl (fun _ _ => ?_)
    | with_reducible apply Keeps.foldlPair (fun _ _ => ?_)
    | fail_if_no_progress with_reducible apply Keeps.firn (by decide)

theorem execLockTimeout_keeps (a0) (s : State) : KeepsX [.out, .regs, .src, .lock, .trc] s (execLockTimeout a0 s) := by
  unfold execLockTimeout
  repeat' first
    | with_reducible apply KeepsX.runClk (fun s => ?_)
    | with_reducible exact Keeps.refl
    | assumption
    | dsimp only
    | with_reducible apply Keeps.ite
    | with_reducible apply Keeps.step (lockBreak_keeps ..) (by decide)

theorem execMasterFault_keeps (a0) (a1) (s : State) : KeepsX [.out, .pins, .regs, .src, .lock, .trc] s (execMasterFault a0 a1 s) := by
  unfold execMasterFault
  repeat' first
    | with_reducible apply KeepsX.run (fun s => ?_)
    | with_reducible exact Keeps.refl
    | assumption
    | dsimp only
    | with_reducible apply Keeps.ite
    | with_reducible apply Keeps.step (lockBreak_keeps ..) (by decide)
    | with_reducible apply Keeps.each (fun _ _ => ?_)
    | with_reducible apply Keeps.iteSnd
    | with_reducible apply Keeps.iteFst
    | with_reducible apply Keeps.foldl (fun _ _ => ?_)
    | with_reducible apply Keeps.foldlPair (fun _ _ => ?_)
    | fail_if_no_progress with_reducible apply Keeps.pins (by decide)

theorem execCredit_keeps (a0) (s : State) : KeepsX [.out, .bar, .hostq, .gate] s (execCredit a0 s) := by
  unfold execCredit
  repeat' first
    | with_reducible apply KeepsX.run (fun s => ?_)
    | intro _
    | with_reducible exact Keeps.refl
    | assumption
    | dsimp only
    | with_reducible apply Keeps.ite
    | with_reducible apply rxBar_keeps (by decide)
    | with_reducible apply Keeps.each (fun _ _ => ?_)
    | with_reducible apply Keeps.iteSnd
    | with_reducible apply Keeps.iteFst
    | with_reducible apply Keeps.foldl (fun _ _ => ?_)
    | with_reducible apply Keeps.foldlPair (fun _ _ => ?_)
    | fail_if_no_progress with_reducible apply Keeps.hostq (by decide)

theorem execWritten_keeps (a0) (s : State) : KeepsX [.out, .regs, .src, .acc, .firn, .xb, .pwr, .bar, .hostq, .gate, .trc] s (execWritten a0 s) := by
  unfold execWritten
  repeat' first
    | with_reducible apply KeepsX.run (fun s => ?_)
    | intro _
    | with_reducible exact Keeps.refl
    | assumption
    | dsimp only
    | with_reducible apply Keeps.ite
    | with_reducible apply Keeps.step (reportTag_keeps ..) (by decide)
    | with_reducible apply rxBar_keeps (by decide)
    | with_reducible apply Keeps.each (fun _ _ => ?_)

theorem execDiscarded_keeps (a0) (s : State) : KeepsX [.out, .regs, .src, .acc, .firn, .xb, .pwr, .bar, .hostq, .gate, .trc] s (execDiscarded a0 s) := by
  unfold execDiscarded
  repeat' first
    | with_reducible apply KeepsX.run (fun s => ?_)
    | intro _
    | with_reducible exact Keeps.refl
    | assumption
    | dsimp only
    | with_reducible apply Keeps.ite
    | with_reducible apply Keeps.step (reportTag_keeps ..) (by decide)
    | with_reducible apply rxBar_keeps (by decide)
    | with_reducible apply Keeps.each (fun _ _ => ?_)

theorem execGateState_keeps (a0) (s : State) : KeepsX [.out, .regs, .firn, .bar, .hostq, .gate] s (execGateState a0 s) := by
  unfold execGateState
  repeat' first
    | with_reducible apply KeepsX.run (fun s => ?_)
    | intro _
    | with_reducible exact Keeps.refl
    | assumption
    | dsimp only
    | with_reducible apply Keeps.ite
    | with_reducible apply Keeps.step (resendHost_keeps ..) (by decide)
    | with_reducible apply rxBar_keeps (by decide)
    | with_reducible apply Keeps.iteSnd
    | with_reducible apply Keeps.iteFst
    | with_reducible apply Keeps.foldl (fun _ _ => ?_)
    | with_reducible apply Keeps.foldlPair (fun _ _ => ?_)
    | fail_if_no_progress with_reducible apply Keeps.bar (by decide)

theorem execVwrite_keeps (a0) (s : State) : KeepsX [.out, .regs, .acc, .bar, .gate] s (execVwrite a0 s) := by
  unfold execVwrite
  repeat' first
    | with_reducible apply KeepsX.run (fun s => ?_)
    | intro _
    | with_reducible exact Keeps.refl
    | assumption
    | dsimp only
    | with_reducible apply Keeps.ite
    | with_reducible apply Keeps.step (State.inc_keeps ..) (by decide)
    | with_reducible apply Keeps.step (barCtl_keeps ..) (by decide)
    | with_reducible apply Keeps.step (execVwrite.new_keeps ..) (by decide)
    | with_reducible apply rxBar_keeps (by decide)
    | with_reducible apply Keeps.iteSnd
    | with_reducible apply Keeps.iteFst
    | with_reducible apply Keeps.foldl (fun _ _ => ?_)
    | with_reducible apply Keeps.foldlPair (fun _ _ => ?_)
    | dsimp only [id]
    | split

theorem execSliceStop_keeps (a0) (s : State) : KeepsX [.out, .bar, .hostq, .gate] s (execSliceStop a0 s) := by
  unfold execSliceStop
  repeat' first
    | with_reducible apply KeepsX.run (fun s => ?_)
    | intro _
    | with_reducible exact Keeps.refl
    | assumption
    | dsimp only
    | with_reducible apply Keeps.ite
    | with_reducible apply Keeps.step (barQueue_keeps ..) (by decide)
    | with_reducible apply rxBar_keeps (by decide)
    | with_reducible apply Keeps.iteSnd
    | with_reducible apply Keeps.iteFst
    | with_reducible apply Keeps.foldl (fun _ _ => ?_)
    | with_reducible apply Keeps.foldlPair (fun _ _ => ?_)
    | fail_if_no_progress with_reducible apply Keeps.hostq (by decide)

theorem execSliceGo_keeps (a0) (s : State) : KeepsX [.out, .bar, .hostq, .gate] s (execSliceGo a0 s) := by
  unfold execSliceGo
  repeat' first
    | with_reducible apply KeepsX.run (fun s => ?_)
    | intro _
    | with_reducible exact Keeps.refl
    | assumption
    | dsimp only
    | with_reducible apply Keeps.ite
    | with_reducible apply rxBar_keeps (by decide)
    | with_reducible apply Keeps.iteSnd
    | with_reducible apply Keeps.iteFst
    | with_reducible apply Keeps.foldl (fun _ _ => ?_)
    | with_reducible apply Keeps.foldlPair (fun _ _ => ?_)
    | fail_if_no_progress with_reducible apply Keeps.hostq (by decide)

theorem execBarSyncRsp_keeps (a0) (s : State) : KeepsX [.out, .time, .bar, .gate] s (execBarSyncRsp a0 s) := by
  unfold execBarSyncRsp
  repeat' first
    | with_reducible apply KeepsX.run (fun s => ?_)
    | intro _
    | with_reducible exact Keeps.refl
    | assumption
    | dsimp only
    | with_reducible apply Keeps.ite
    | with_reducible apply Keeps.step (barQueue_keeps ..) (by decide)
    | with_reducible apply rxBar_keeps (by decide)
    | with_reducible apply Keeps.iteSnd
    | with_reducible apply Keeps.iteFst
    | with_reducible apply Keeps.foldl (fun _ _ => ?_)
    | with_reducible apply Keeps.foldlPair (fun _ _ => ?_)
    | dsimp only [id]
    | fail_if_no_progress with_reducible apply Keeps.time (by decide)
    | split

theorem execBarEventRepeat_keeps (s : State) : KeepsX [.out, .firn, .hostq] s (execBarEventRepeat s) := by
  unfold execBarEventRepeat
  repeat' first
    | with_reducible apply KeepsX.run (fun s => ?_)
    | with_reducible exact Keeps.refl
    | assumption
    | dsimp only
    | with_reducible apply Keeps.ite
    | with_reducible apply Keeps.step (queueAgain_keeps ..) (by decide)
    | with_reducible apply Keeps.iteSnd
    | with_reducible apply Keeps.iteFst
    | with_reducible apply Keeps.foldl (fun _ _ => ?_)
    | with_reducible apply Keeps.foldlPair (fun _ _ => ?_)
    | dsimp only [id]
    | fail_if_no_progress with_reducible apply Keeps.hostq (by decide)
    | split

theorem execEvent_keeps (a0) (s : State) : KeepsX [.out, .regs, .bar, .gate] s (execEvent a0 s) := by
  unfold execEvent
  repeat' first
    | with_reducible apply KeepsX.run (fun s => ?_)
    | intro _
    | with_reducible exact Keeps.refl
    | assumption
    | dsimp only
    | with_reducible apply Keeps.ite
    | with_reducible apply Keeps.step (pumpHeld_keeps ..) (by decide)
    | with_reducible apply rxBar_keeps (by decide)
    | with_reducible apply Keeps.iteSnd
    | with_reducible apply Keeps.iteFst
    | with_reducible apply Keeps.foldl (fun _ _ => ?_)
    | with_reducible apply Keeps.foldlPair (fun _ _ => ?_)
    | fail_if_no_progress with_reducible apply Keeps.gate (by decide)

theorem execSliceDrained_keeps (a0) (s : State) : KeepsX [.out, .regs, .bar, .gate] s (execSliceDrained a0 s) := by
  unfold execSliceDrained
  repeat' first
    | with_reducible apply KeepsX.run (fun s => ?_)
    | intro _
    | with_reducible exact Keeps.refl
    | assumption
    | dsimp only
    | with_reducible apply Keeps.ite
    | with_reducible apply Keeps.step (State.setSlice_keeps ..) (by decide)
    | with_reducible apply Keeps.step (finishReset_keeps ..) (by decide)
    | with_reducible apply rxBar_keeps (by decide)

theorem execSliceResetTimeout_keeps (a0) (s : State) : KeepsX [.out, .regs, .bar, .gate] s (execSliceResetTimeout a0 s) := by
  unfold execSliceResetTimeout
  repeat' first
    | with_reducible apply KeepsX.run (fun s => ?_)
    | with_reducible exact Keeps.refl
    | assumption
    | dsimp only
    | with_reducible apply Keeps.ite
    | with_reducible apply Keeps.step (State.setSlice_keeps ..) (by decide)
    | with_reducible apply Keeps.step (finishReset_keeps ..) (by decide)
    | with_reducible apply Keeps.step (grantCredit_keeps ..) (by decide)
    | with_reducible apply Keeps.step (pumpKept_keeps ..) (by decide)

theorem execVresult_keeps (a0) (s : State) : KeepsX [.out, .regs, .bar, .gate] s (execVresult a0 s) := by
  unfold execVresult
  repeat' first
    | with_reducible apply KeepsX.run (fun s => ?_)
    | intro _
    | with_reducible exact Keeps.refl
    | assumption
    | dsimp only
    | with_reducible apply Keeps.ite
    | with_reducible apply Keeps.step (State.setSlice_keeps ..) (by decide)
    | with_reducible apply Keeps.step (State.wr_keeps ..) (by decide)
    | with_reducible apply rxBar_keeps (by decide)
    | with_reducible apply Keeps.iteSnd
    | with_reducible apply Keeps.iteFst
    | with_reducible apply Keeps.foldl (fun _ _ => ?_)
    | with_reducible apply Keeps.foldlPair (fun _ _ => ?_)
    | fail_if_no_progress with_reducible apply Keeps.gate (by decide)
    | dsimp only [id]
    | split

theorem execVwriteRepeat_keeps (s : State) : KeepsX [.out, .bar, .gate] s (execVwriteRepeat s) := by
  unfold execVwriteRepeat
  repeat' first
    | with_reducible apply KeepsX.run (fun s => ?_)
    | with_reducible exact Keeps.refl
    | assumption
    | dsimp only
    | with_reducible apply Keeps.ite
    | with_reducible apply Keeps.step (barQueue_keeps ..) (by decide)
    | with_reducible apply Keeps.iteSnd
    | with_reducible apply Keeps.iteFst
    | with_reducible apply Keeps.foldl (fun _ _ => ?_)
    | with_reducible apply Keeps.foldlPair (fun _ _ => ?_)
    | dsimp only [id]
    | fail_if_no_progress with_reducible apply Keeps.gate (by decide)
    | split

theorem execRingRecordWrite_keeps (a0) (s : State) : KeepsX [.out, .regs, .arb, .bar, .gate] s (execRingRecordWrite a0 s) := by
  unfold execRingRecordWrite
  repeat' first
    | with_reducible apply KeepsX.run (fun s => ?_)
    | with_reducible exact Keeps.refl
    | assumption
    | dsimp only
    | with_reducible apply Keeps.ite
    | with_reducible apply Keeps.step (ringPin_keeps ..) (by decide)
    | with_reducible apply Keeps.step (arbDecide_keeps ..) (by decide)
    | with_reducible apply Keeps.step (arbSync_keeps ..) (by decide)
    | with_reducible apply Keeps.step (ringBeat_keeps ..) (by decide)
    | with_reducible apply Keeps.iteSnd
    | with_reducible apply Keeps.iteFst
    | with_reducible apply Keeps.foldl (fun _ _ => ?_)
    | with_reducible apply Keeps.foldlPair (fun _ _ => ?_)
    | with_reducible refine Keeps.trans ?_ (arbBeats_keeps (by decide) _ (fun _ _ => ?_) _ _)

theorem execHostReset_keeps (s : State) : KeepsX [.out, .regs, .arb, .bar, .gate] s (execHostReset s) := by
  unfold execHostReset
  repeat' first
    | with_reducible apply KeepsX.run (fun s => ?_)
    | with_reducible exact Keeps.refl
    | assumption
    | dsimp only
    | with_reducible apply Keeps.ite
    | with_reducible apply Keeps.step (hostRst_keeps ..) (by decide)

theorem execBarLanesLocked_keeps (a0) (s : State) : KeepsX [.out, .bar, .gate] s (execBarLanesLocked a0 s) := by
  unfold execBarLanesLocked
  repeat' first
    | with_reducible apply KeepsX.run (fun s => ?_)
    | with_reducible exact Keeps.refl
    | assumption
    | dsimp only
    | with_reducible apply Keeps.ite
    | with_reducible apply Keeps.step (setBar_keeps ..) (by decide)
    | with_reducible apply Keeps.step (tryHello_keeps ..) (by decide)

theorem execBarLaneLockLost_keeps (a0) (a1) (s : State) : KeepsX [.out, .regs, .time, .src, .bar, .hostq, .gate, .trc] s (execBarLaneLockLost a0 a1 s) := by
  unfold execBarLaneLockLost
  repeat' first
    | with_reducible apply KeepsX.run (fun s => ?_)
    | with_reducible exact Keeps.refl
    | assumption
    | dsimp only
    | with_reducible apply Keeps.ite
    | with_reducible apply Keeps.step (barDown_keeps ..) (by decide)
    | with_reducible apply Keeps.step (setBar_keeps ..) (by decide)

theorem execBarSilenceTimeout_keeps (a0) (s : State) : KeepsX [.out, .regs, .time, .src, .bar, .hostq, .gate, .trc] s (execBarSilenceTimeout a0 s) := by
  unfold execBarSilenceTimeout
  repeat' first
    | with_reducible apply KeepsX.run (fun s => ?_)
    | with_reducible exact Keeps.refl
    | assumption
    | dsimp only
    | with_reducible apply Keeps.ite
    | with_reducible apply Keeps.step (barDown_keeps ..) (by decide)

theorem execBarHelloTimer_keeps (a0) (s : State) : KeepsX [.out, .bar, .gate] s (execBarHelloTimer a0 s) := by
  unfold execBarHelloTimer
  repeat' first
    | with_reducible apply KeepsX.run (fun s => ?_)
    | with_reducible exact Keeps.refl
    | assumption
    | dsimp only
    | with_reducible apply Keeps.ite
    | with_reducible apply Keeps.step (setBar_keeps ..) (by decide)

theorem execHello_keeps (a0) (a1) (s : State) : KeepsX [.out, .regs, .time, .src, .acc, .bar, .hostq, .gate, .trc] s (execHello a0 a1 s) := by
  unfold execHello
  repeat' first
    | with_reducible apply KeepsX.run (fun s => ?_)
    | with_reducible exact Keeps.refl
    | assumption
    | dsimp only
    | with_reducible apply Keeps.ite
    | with_reducible apply Keeps.step (State.wr_keeps ..) (by decide)
    | with_reducible apply Keeps.step (barDown_keeps ..) (by decide)
    | with_reducible apply Keeps.step (fieldUp_keeps ..) (by decide)
    | with_reducible apply Keeps.step (hostUp_keeps ..) (by decide)
    | with_reducible apply Keeps.step (setBar_keeps ..) (by decide)
    | with_reducible apply Keeps.iteSnd
    | with_reducible apply Keeps.iteFst
    | with_reducible apply Keeps.foldl (fun _ _ => ?_)
    | with_reducible apply Keeps.foldlPair (fun _ _ => ?_)
    | dsimp only [id]
    | split

theorem execRxcred_keeps (a0) (a1) (s : State) : KeepsX [.out, .bar, .gate] s (execRxcred a0 a1 s) := by
  unfold execRxcred
  repeat' first
    | with_reducible apply KeepsX.run (fun s => ?_)
    | intro _
    | with_reducible exact Keeps.refl
    | assumption
    | dsimp only
    | with_reducible apply Keeps.ite
    | with_reducible apply rxBar_keeps (by decide)
    | with_reducible apply Keeps.step (setBar_keeps ..) (by decide)

theorem execRxcredTimer_keeps (a0) (s : State) : KeepsX [.out, .bar, .gate] s (execRxcredTimer a0 s) := by
  unfold execRxcredTimer
  repeat' first
    | with_reducible apply KeepsX.run (fun s => ?_)
    | with_reducible exact Keeps.refl
    | assumption
    | dsimp only
    | with_reducible apply Keeps.ite
    | with_reducible apply Keeps.step (barQueue_keeps ..) (by decide)
    | with_reducible apply Keeps.step (drainEntries_keeps ..) (by decide)
    | with_reducible apply Keeps.step (setBar_keeps ..) (by decide)

theorem execEchoReq_keeps (a0) (a1) (s : State) : KeepsX [.out, .bar, .gate] s (execEchoReq a0 a1 s) := by
  unfold execEchoReq
  repeat' first
    | with_reducible apply KeepsX.run (fun s => ?_)
    | intro _
    | with_reducible exact Keeps.refl
    | assumption
    | dsimp only
    | with_reducible apply Keeps.ite
    | with_reducible apply Keeps.step (barQueue_keeps ..) (by decide)
    | with_reducible apply rxBar_keeps (by decide)

theorem execEchoRsp_keeps (a0) (a1) (s : State) : KeepsX [.out, .bar, .gate] s (execEchoRsp a0 a1 s) := by
  unfold execEchoRsp
  repeat' first
    | with_reducible apply KeepsX.run (fun s => ?_)
    | intro _
    | with_reducible exact Keeps.refl
    | assumption
    | dsimp only
    | with_reducible apply Keeps.ite
    | with_reducible apply rxBar_keeps (by decide)
    | with_reducible apply Keeps.iteSnd
    | with_reducible apply Keeps.iteFst
    | with_reducible apply Keeps.foldl (fun _ _ => ?_)
    | with_reducible apply Keeps.foldlPair (fun _ _ => ?_)
    | dsimp only [id]

theorem execFieldState_keeps (a0) (s : State) : KeepsX [.out, .bar, .gate] s (execFieldState a0 s) := by
  unfold execFieldState
  repeat' first
    | with_reducible apply KeepsX.run (fun s => ?_)
    | intro _
    | with_reducible exact Keeps.refl
    | assumption
    | dsimp only
    | with_reducible apply Keeps.ite
    | with_reducible apply rxBar_keeps (by decide)
    | with_reducible apply Keeps.iteSnd
    | with_reducible apply Keeps.iteFst
    | with_reducible apply Keeps.foldl (fun _ _ => ?_)
    | with_reducible apply Keeps.foldlPair (fun _ _ => ?_)
    | fail_if_no_progress with_reducible apply Keeps.gate (by decide)

theorem execBarSyncReq_keeps (a0) (s : State) : KeepsX [.out, .bar, .gate] s (execBarSyncReq a0 s) := by
  unfold execBarSyncReq
  repeat' first
    | with_reducible apply KeepsX.run (fun s => ?_)
    | intro _
    | with_reducible exact Keeps.refl
    | assumption
    | dsimp only
    | with_reducible apply Keeps.ite
    | with_reducible apply Keeps.step (barQueue_keeps ..) (by decide)
    | with_reducible apply rxBar_keeps (by decide)

theorem execTimeTrim_keeps (a0) (s : State) : KeepsX [.out, .bar, .gate] s (execTimeTrim a0 s) := by
  unfold execTimeTrim
  repeat' first
    | with_reducible apply KeepsX.run (fun s => ?_)
    | intro _
    | with_reducible exact Keeps.refl
    | assumption
    | dsimp only
    | with_reducible apply Keeps.ite
    | with_reducible apply rxBar_keeps (by decide)
    | with_reducible apply Keeps.iteSnd
    | with_reducible apply Keeps.iteFst
    | with_reducible apply Keeps.foldl (fun _ _ => ?_)
    | with_reducible apply Keeps.foldlPair (fun _ _ => ?_)
    | fail_if_no_progress with_reducible apply Keeps.gate (by decide)

theorem execBarFrameReject_keeps (a0) (a1) (s : State) : KeepsX [.out, .regs, .time, .src, .bar, .hostq, .gate, .trc] s (execBarFrameReject a0 a1 s) := by
  unfold execBarFrameReject
  repeat' first
    | with_reducible apply KeepsX.run (fun s => ?_)
    | with_reducible exact Keeps.refl
    | assumption
    | dsimp only
    | with_reducible apply Keeps.ite
    | with_reducible apply Keeps.step (State.inc_keeps ..) (by decide)
    | with_reducible apply Keeps.step (barDown_keeps ..) (by decide)
    | with_reducible apply Keeps.step (setBar_keeps ..) (by decide)
    | with_reducible apply Keeps.iteSnd
    | with_reducible apply Keeps.iteFst
    | with_reducible apply Keeps.foldl (fun _ _ => ?_)
    | with_reducible apply Keeps.foldlPair (fun _ _ => ?_)
    | dsimp only [id]
    | split

theorem execBarTransmitSlot_keeps (a0) (s : State) : KeepsX [.out, .regs, .time, .firn, .bar, .hostq, .gate] s (execBarTransmitSlot a0 s) := by
  unfold execBarTransmitSlot
  repeat' first
    | with_reducible apply KeepsX.run (fun s => ?_)
    | with_reducible exact Keeps.refl
    | assumption
    | dsimp only
    | with_reducible apply Keeps.ite
    | with_reducible apply Keeps.step (sendIdle_keeps ..) (by decide)
    | with_reducible apply Keeps.step (flushReports_keeps ..) (by decide)
    | with_reducible apply Keeps.step (sendBar_keeps ..) (by decide)
    | with_reducible apply Keeps.step (sendEvent_keeps ..) (by decide)
    | with_reducible apply Keeps.step (setBar_keeps ..) (by decide)
    | with_reducible apply Keeps.iteSnd
    | with_reducible apply Keeps.iteFst
    | with_reducible apply Keeps.foldl (fun _ _ => ?_)
    | with_reducible apply Keeps.foldlPair (fun _ _ => ?_)
    | dsimp only [id]
    | fail_if_no_progress with_reducible apply Keeps.time (by decide)
    | split

theorem execRimeCompare_keeps (a0) (a1) (a2) (s : State) : KeepsX [.out, .regs, .src, .yar, .img, .rime, .trc] s (execRimeCompare a0 a1 a2 s) := by
  unfold execRimeCompare
  repeat' first
    | with_reducible apply KeepsX.runClk (fun s => ?_)
    | with_reducible exact Keeps.refl
    | assumption
    | dsimp only
    | with_reducible apply Keeps.ite
    | with_reducible apply Keeps.step (discardDisabled_keeps ..) (by decide)
    | with_reducible apply Keeps.step (State.inc_keeps ..) (by decide)
    | with_reducible apply Keeps.step (mismatch_keeps ..) (by decide)
    | with_reducible apply Keeps.step (upsetWord_keeps ..) (by decide)
    | with_reducible apply Keeps.iteSnd
    | with_reducible apply Keeps.iteFst
    | with_reducible apply Keeps.foldl (fun _ _ => ?_)
    | with_reducible apply Keeps.foldlPair (fun _ _ => ?_)
    | dsimp only [id]
    | fail_if_no_progress with_reducible apply Keeps.rime (by decide)
    | split

theorem execLoadVerifyDone_keeps (a0) (s : State) : KeepsX [.out, .regs, .img] s (execLoadVerifyDone a0 s) := by
  unfold execLoadVerifyDone
  repeat' first
    | with_reducible apply KeepsX.run (fun s => ?_)
    | with_reducible exact Keeps.refl
    | assumption
    | dsimp only
    | with_reducible apply Keeps.ite
    | with_reducible apply Keeps.step (becomeReady_keeps ..) (by decide)
    | with_reducible apply Keeps.step (readBlock_keeps ..) (by decide)
    | with_reducible apply Keeps.step (appendMarker_keeps ..) (by decide)
    | with_reducible apply Keeps.step (failLoad_keeps ..) (by decide)
    | with_reducible apply Keeps.iteSnd
    | with_reducible apply Keeps.iteFst
    | with_reducible apply Keeps.foldl (fun _ _ => ?_)
    | with_reducible apply Keeps.foldlPair (fun _ _ => ?_)
    | dsimp only [id]
    | split

theorem execLoadRestoreDone_keeps (a0) (s : State) : KeepsX [.out, .regs, .staged, .img] s (execLoadRestoreDone a0 s) := by
  unfold execLoadRestoreDone
  repeat' first
    | with_reducible apply KeepsX.run (fun s => ?_)
    | with_reducible exact Keeps.refl
    | assumption
    | dsimp only
    | with_reducible apply Keeps.ite
    | with_reducible apply Keeps.step (noteTwin_keeps ..) (by decide)
    | with_reducible apply Keeps.step (State.wr_keeps ..) (by decide)
    | with_reducible apply Keeps.step (bootFrom_keeps ..) (by decide)
    | with_reducible apply Keeps.step (restoreHeld_keeps ..) (by decide)
    | with_reducible apply Keeps.step (setLoad_keeps ..) (by decide)
    | with_reducible apply Keeps.step (stampPersist_keeps ..) (by decide)

theorem execPersistEraseDone_keeps (s : State) : KeepsX [.out, .regs, .staged, .img] s (execPersistEraseDone s) := by
  unfold execPersistEraseDone
  repeat' first
    | with_reducible apply KeepsX.run (fun s => ?_)
    | with_reducible exact Keeps.refl
    | assumption
    | dsimp only
    | with_reducible apply Keeps.ite
    | with_reducible apply Keeps.step (blankBlock_keeps ..) (by decide)
    | with_reducible apply Keeps.step (setMarkRecs_keeps ..) (by decide)
    | with_reducible apply Keeps.step (startMark_keeps ..) (by decide)
    | with_reducible apply Keeps.step (setLoad_keeps ..) (by decide)
    | with_reducible apply Keeps.step (pumpLoad_keeps ..) (by decide)
    | with_reducible apply Keeps.iteSnd
    | with_reducible apply Keeps.iteFst
    | with_reducible apply Keeps.foldl (fun _ _ => ?_)
    | with_reducible apply Keeps.foldlPair (fun _ _ => ?_)
    | fail_if_no_progress with_reducible apply Keeps.img (by decide)

theorem execPersistWordProgrammed_keeps (s : State) : KeepsX [.out, .regs, .staged, .img] s (execPersistWordProgrammed s) := by
  unfold execPersistWordProgrammed
  repeat' first
    | with_reducible apply KeepsX.run (fun s => ?_)
    | with_reducible exact Keeps.refl
    | assumption
    | dsimp only
    | with_reducible apply Keeps.ite
    | with_reducible apply Keeps.step (markDone_keeps ..) (by decide)
    | with_reducible apply Keeps.step (pumpLoad_keeps ..) (by decide)
    | with_reducible apply Keeps.iteSnd
    | with_reducible apply Keeps.iteFst
    | with_reducible apply Keeps.foldl (fun _ _ => ?_)
    | with_reducible apply Keeps.foldlPair (fun _ _ => ?_)
    | fail_if_no_progress with_reducible apply Keeps.img (by decide)
    | split

theorem execTableCopyEnd_keeps (a0) (s : State) : KeepsX [.out, .regs, .staged, .yar, .img, .rime] s (execTableCopyEnd a0 s) := by
  unfold execTableCopyEnd
  repeat' first
    | with_reducible apply KeepsX.run (fun s => ?_)
    | with_reducible exact Keeps.refl
    | assumption
    | dsimp only
    | with_reducible apply Keeps.ite
    | with_reducible apply Keeps.step (setLoad_keeps ..) (by decide)
    | with_reducible apply Keeps.step (copyBack_keeps ..) (by decide)
    | with_reducible apply Keeps.step (copyGroup_keeps ..) (by decide)
    | with_reducible apply Keeps.step (pumpLoad_keeps ..) (by decide)
    | with_reducible apply Keeps.each (fun _ _ => ?_)
    | with_reducible apply Keeps.iteSnd
    | with_reducible apply Keeps.iteFst
    | with_reducible apply Keeps.foldl (fun _ _ => ?_)
    | with_reducible apply Keeps.foldlPair (fun _ _ => ?_)

theorem doRead_keeps (a0) (a1) (a2) (s : State) : KeepsX [.out, .fresh, .regs, .time, .core, .clus, .lock, .edw, .trc, .tst] s (doRead a0 a1 a2 s) := by
  unfold doRead
  repeat' first
    | with_reducible apply KeepsX.runWf (fun s => ?_)
    | with_reducible exact Keeps.refl
    | assumption
    | dsimp only
    | with_reducible apply Keeps.ite
    | with_reducible apply Keeps.step (readReg_keeps ..) (by decide)

theorem doWrite_keeps (a0) (a1) (a2) (a3) (s : State) : KeepsX [.out, .fresh, .regs, .staged, .once, .time, .epoch, .src, .yar, .acc, .firn, .xb, .rq, .arb, .core, .pred, .clus, .camp, .seg, .lnk, .audit, .rec_, .lock, .img, .rime, .pwr, .su, .bar, .hostq, .gate, .edw, .trc, .tst] s (doWrite a0 a1 a2 a3 s) := by
  unfold doWrite
  repeat' first
    | with_reducible apply KeepsX.runWf (fun s => ?_)
    | with_reducible exact Keeps.refl
    | assumption
    | dsimp only
    | with_reducible apply Keeps.ite
    | with_reducible apply Keeps.step (writeReg_keeps ..) (by decide)

theorem doChange_keeps (a0) (a1) (a2) (a3) (a4) (s : State) : KeepsX [.out, .fresh, .regs, .staged, .once, .time, .epoch, .src, .yar, .acc, .firn, .xb, .rq, .arb, .core, .pred, .clus, .camp, .seg, .lnk, .audit, .rec_, .lock, .img, .rime, .pwr, .su, .bar, .hostq, .gate, .edw, .trc, .tst] s (doChange a0 a1 a2 a3 a4 s) := by
  unfold doChange
  repeat' first
    | with_reducible apply KeepsX.mono (doWrite_keeps ..) (by decide)

theorem execClaimPeek_keeps (a0) (a1) (s : State) : KeepsX [.out, .fresh, .regs, .time, .core, .clus, .lock, .edw, .trc, .tst] s (execClaimPeek a0 a1 s) := by
  unfold execClaimPeek
  repeat' first
    | with_reducible apply KeepsX.mono (doRead_keeps ..) (by decide)

theorem execThreshWrite_keeps (a0) (a1) (a2) (s : State) : KeepsX [.out, .fresh, .regs, .staged, .once, .time, .epoch, .src, .yar, .acc, .firn, .xb, .rq, .arb, .core, .pred, .clus, .camp, .seg, .lnk, .audit, .rec_, .lock, .img, .rime, .pwr, .su, .bar, .hostq, .gate, .edw, .trc, .tst] s (execThreshWrite a0 a1 a2 s) := by
  unfold execThreshWrite
  repeat' first
    | with_reducible apply KeepsX.mono (doWrite_keeps ..) (by decide)

theorem execPredictorReset_keeps (a0) (a1) (a2) (a3) (a4) (s : State) : KeepsX [.out, .fresh, .regs, .staged, .once, .time, .epoch, .src, .yar, .acc, .firn, .xb, .rq, .arb, .core, .pred, .clus, .camp, .seg, .lnk, .audit, .rec_, .lock, .img, .rime, .pwr, .su, .bar, .hostq, .gate, .edw, .trc, .tst] s (execPredictorReset a0 a1 a2 a3 a4 s) := by
  unfold execPredictorReset
  repeat' first
    | with_reducible apply KeepsX.mono (doWrite_keeps ..) (by decide)

theorem execPwNextWrite_keeps (a0) (a1) (a2) (a3) (s : State) : KeepsX [.out, .fresh, .regs, .staged, .once, .time, .epoch, .src, .yar, .acc, .firn, .xb, .rq, .arb, .core, .pred, .clus, .camp, .seg, .lnk, .audit, .rec_, .lock, .img, .rime, .pwr, .su, .bar, .hostq, .gate, .edw, .trc, .tst] s (execPwNextWrite a0 a1 a2 a3 s) := by
  unfold execPwNextWrite
  repeat' first
    | with_reducible apply KeepsX.mono (doWrite_keeps ..) (by decide)

theorem execCampRfailGo_keeps (a0) (a1) (a2) (s : State) : KeepsX [.out, .fresh, .regs, .staged, .once, .time, .epoch, .src, .yar, .acc, .firn, .xb, .rq, .arb, .core, .pred, .clus, .camp, .seg, .lnk, .audit, .rec_, .lock, .img, .rime, .pwr, .su, .bar, .hostq, .gate, .edw, .trc, .tst] s (execCampRfailGo a0 a1 a2 s) := by
  unfold execCampRfailGo
  repeat' first
    | with_reducible apply KeepsX.mono (doWrite_keeps ..) (by decide)

theorem execTimeLoRead_keeps (a0) (s : State) : KeepsX [.out, .fresh, .regs, .time, .core, .clus, .lock, .edw, .trc, .tst] s (execTimeLoRead a0 s) := by
  unfold execTimeLoRead
  repeat' first
    | with_reducible apply KeepsX.mono (doRead_keeps ..) (by decide)

theorem execCaptureRead_keeps (a0) (a1) (s : State) : KeepsX [.out, .fresh, .regs, .time, .core, .clus, .lock, .edw, .trc, .tst] s (execCaptureRead a0 a1 s) := by
  unfold execCaptureRead
  repeat' first
    | with_reducible apply KeepsX.mono (doRead_keeps ..) (by decide)

theorem execEpochPeriodWrite_keeps (a0) (a1) (s : State) : KeepsX [.out, .fresh, .regs, .staged, .once, .time, .epoch, .src, .yar, .acc, .firn, .xb, .rq, .arb, .core, .pred, .clus, .camp, .seg, .lnk, .audit, .rec_, .lock, .img, .rime, .pwr, .su, .bar, .hostq, .gate, .edw, .trc, .tst] s (execEpochPeriodWrite a0 a1 s) := by
  unfold execEpochPeriodWrite
  repeat' first
    | with_reducible apply KeepsX.mono (doWrite_keeps ..) (by decide)

theorem execLnkEnable_keeps (a0) (a1) (s : State) : KeepsX [.out, .fresh, .regs, .staged, .once, .time, .epoch, .src, .yar, .acc, .firn, .xb, .rq, .arb, .core, .pred, .clus, .camp, .seg, .lnk, .audit, .rec_, .lock, .img, .rime, .pwr, .su, .bar, .hostq, .gate, .edw, .trc, .tst] s (execLnkEnable a0 a1 s) := by
  unfold execLnkEnable
  repeat' first
    | with_reducible apply KeepsX.mono (doChange_keeps ..) (by decide)

theorem execLnkDisable_keeps (a0) (a1) (s : State) : KeepsX [.out, .fresh, .regs, .staged, .once, .time, .epoch, .src, .yar, .acc, .firn, .xb, .rq, .arb, .core, .pred, .clus, .camp, .seg, .lnk, .audit, .rec_, .lock, .img, .rime, .pwr, .su, .bar, .hostq, .gate, .edw, .trc, .tst] s (execLnkDisable a0 a1 s) := by
  unfold execLnkDisable
  repeat' first
    | with_reducible apply KeepsX.mono (doChange_keeps ..) (by decide)

theorem execLnkDownCommand_keeps (a0) (a1) (s : State) : KeepsX [.out, .fresh, .regs, .staged, .once, .time, .epoch, .src, .yar, .acc, .firn, .xb, .rq, .arb, .core, .pred, .clus, .camp, .seg, .lnk, .audit, .rec_, .lock, .img, .rime, .pwr, .su, .bar, .hostq, .gate, .edw, .trc, .tst] s (execLnkDownCommand a0 a1 s) := by
  unfold execLnkDownCommand
  repeat' first
    | with_reducible apply KeepsX.mono (doChange_keeps ..) (by decide)

theorem execLockAcquire_keeps (a0) (a1) (s : State) : KeepsX [.out, .fresh, .regs, .time, .core, .clus, .lock, .edw, .trc, .tst] s (execLockAcquire a0 a1 s) := by
  unfold execLockAcquire
  repeat' first
    | with_reducible apply KeepsX.mono (doRead_keeps ..) (by decide)

theorem execLockRel_keeps (a0) (a1) (s : State) : KeepsX [.out, .fresh, .regs, .staged, .once, .time, .epoch, .src, .yar, .acc, .firn, .xb, .rq, .arb, .core, .pred, .clus, .camp, .seg, .lnk, .audit, .rec_, .lock, .img, .rime, .pwr, .su, .bar, .hostq, .gate, .edw, .trc, .tst] s (execLockRel a0 a1 s) := by
  unfold execLockRel
  repeat' first
    | with_reducible apply KeepsX.mono (doWrite_keeps ..) (by decide)

theorem execLockAbort_keeps (a0) (a1) (s : State) : KeepsX [.out, .fresh, .regs, .staged, .once, .time, .epoch, .src, .yar, .acc, .firn, .xb, .rq, .arb, .core, .pred, .clus, .camp, .seg, .lnk, .audit, .rec_, .lock, .img, .rime, .pwr, .su, .bar, .hostq, .gate, .edw, .trc, .tst] s (execLockAbort a0 a1 s) := by
  unfold execLockAbort
  repeat' first
    | with_reducible apply KeepsX.mono (doWrite_keeps ..) (by decide)

theorem execLockBreak_keeps (a0) (a1) (s : State) : KeepsX [.out, .fresh, .regs, .staged, .once, .time, .epoch, .src, .yar, .acc, .firn, .xb, .rq, .arb, .core, .pred, .clus, .camp, .seg, .lnk, .audit, .rec_, .lock, .img, .rime, .pwr, .su, .bar, .hostq, .gate, .edw, .trc, .tst] s (execLockBreak a0 a1 s) := by
  unfold execLockBreak
  repeat' first
    | with_reducible apply KeepsX.mono (doWrite_keeps ..) (by decide)

theorem execLoadStart_keeps (a0) (a1) (s : State) : KeepsX [.out, .fresh, .regs, .staged, .once, .time, .epoch, .src, .yar, .acc, .firn, .xb, .rq, .arb, .core, .pred, .clus, .camp, .seg, .lnk, .audit, .rec_, .lock, .img, .rime, .pwr, .su, .bar, .hostq, .gate, .edw, .trc, .tst] s (execLoadStart a0 a1 s) := by
  unfold execLoadStart
  repeat' first
    | with_reducible apply KeepsX.mono (doWrite_keeps ..) (by decide)

theorem execLoadAbort_keeps (a0) (s : State) : KeepsX [.out, .fresh, .regs, .staged, .once, .time, .epoch, .src, .yar, .acc, .firn, .xb, .rq, .arb, .core, .pred, .clus, .camp, .seg, .lnk, .audit, .rec_, .lock, .img, .rime, .pwr, .su, .bar, .hostq, .gate, .edw, .trc, .tst] s (execLoadAbort a0 s) := by
  unfold execLoadAbort
  repeat' first
    | with_reducible apply KeepsX.mono (doWrite_keeps ..) (by decide)

theorem execLoadData_keeps (a0) (a1) (s : State) : KeepsX [.out, .fresh, .regs, .staged, .once, .time, .epoch, .src, .yar, .acc, .firn, .xb, .rq, .arb, .core, .pred, .clus, .camp, .seg, .lnk, .audit, .rec_, .lock, .img, .rime, .pwr, .su, .bar, .hostq, .gate, .edw, .trc, .tst] s (execLoadData a0 a1 s) := by
  unfold execLoadData
  repeat' first
    | with_reducible apply KeepsX.mono (doWrite_keeps ..) (by decide)

theorem execLoadDataOverrun_keeps (a0) (s : State) : KeepsX [.out, .regs, .img] s (execLoadDataOverrun a0 s) := by
  unfold execLoadDataOverrun
  repeat' first
    | with_reducible apply KeepsX.runWf (fun s => ?_)
    | with_reducible exact Keeps.refl
    | assumption
    | dsimp only
    | with_reducible apply Keeps.ite
    | with_reducible apply Keeps.step (overrun_keeps ..) (by decide)

theorem execDtGo_keeps (a0) (a1) (a2) (s : State) : KeepsX [.out, .fresh, .regs, .staged, .once, .time, .epoch, .src, .yar, .acc, .firn, .xb, .rq, .arb, .core, .pred, .clus, .camp, .seg, .lnk, .audit, .rec_, .lock, .img, .rime, .pwr, .su, .bar, .hostq, .gate, .edw, .trc, .tst] s (execDtGo a0 a1 a2 s) := by
  unfold execDtGo
  repeat' first
    | with_reducible apply KeepsX.mono (doWrite_keeps ..) (by decide)

theorem execBarEnable_keeps (a0) (s : State) : KeepsX [.out, .fresh, .regs, .staged, .once, .time, .epoch, .src, .yar, .acc, .firn, .xb, .rq, .arb, .core, .pred, .clus, .camp, .seg, .lnk, .audit, .rec_, .lock, .img, .rime, .pwr, .su, .bar, .hostq, .gate, .edw, .trc, .tst] s (execBarEnable a0 s) := by
  unfold execBarEnable
  repeat' first
    | with_reducible apply KeepsX.mono (doChange_keeps ..) (by decide)

theorem execBarDisable_keeps (a0) (s : State) : KeepsX [.out, .fresh, .regs, .staged, .once, .time, .epoch, .src, .yar, .acc, .firn, .xb, .rq, .arb, .core, .pred, .clus, .camp, .seg, .lnk, .audit, .rec_, .lock, .img, .rime, .pwr, .su, .bar, .hostq, .gate, .edw, .trc, .tst] s (execBarDisable a0 s) := by
  unfold execBarDisable
  repeat' first
    | with_reducible apply KeepsX.mono (doChange_keeps ..) (by decide)

theorem execSlcCreate_keeps (a0) (a1) (a2) (s : State) : KeepsX [.out, .fresh, .regs, .staged, .once, .time, .epoch, .src, .yar, .acc, .firn, .xb, .rq, .arb, .core, .pred, .clus, .camp, .seg, .lnk, .audit, .rec_, .lock, .img, .rime, .pwr, .su, .bar, .hostq, .gate, .edw, .trc, .tst] s (execSlcCreate a0 a1 a2 s) := by
  unfold execSlcCreate
  repeat' first
    | with_reducible apply KeepsX.runWf (fun s => ?_)
    | with_reducible exact Keeps.refl
    | assumption
    | dsimp only
    | with_reducible apply Keeps.ite
    | with_reducible apply Keeps.step (writeReg_keeps ..) (by decide)
    | with_reducible apply Keeps.iteSnd
    | with_reducible apply Keeps.iteFst
    | with_reducible apply Keeps.foldl (fun _ _ => ?_)
    | with_reducible apply Keeps.foldlPair (fun _ _ => ?_)
    | fail_if_no_progress with_reducible apply Keeps.gate (by decide)

theorem execSlcOpen_keeps (a0) (a1) (s : State) : KeepsX [.out, .fresh, .regs, .staged, .once, .time, .epoch, .src, .yar, .acc, .firn, .xb, .rq, .arb, .core, .pred, .clus, .camp, .seg, .lnk, .audit, .rec_, .lock, .img, .rime, .pwr, .su, .bar, .hostq, .gate, .edw, .trc, .tst] s (execSlcOpen a0 a1 s) := by
  unfold execSlcOpen
  repeat' first
    | with_reducible apply KeepsX.mono (doWrite_keeps ..) (by decide)

theorem execSlcReset_keeps (a0) (a1) (s : State) : KeepsX [.out, .fresh, .regs, .staged, .once, .time, .epoch, .src, .yar, .acc, .firn, .xb, .rq, .arb, .core, .pred, .clus, .camp, .seg, .lnk, .audit, .rec_, .lock, .img, .rime, .pwr, .su, .bar, .hostq, .gate, .edw, .trc, .tst] s (execSlcReset a0 a1 s) := by
  unfold execSlcReset
  repeat' first
    | with_reducible apply KeepsX.mono (doWrite_keeps ..) (by decide)

theorem execSlcDestroy_keeps (a0) (a1) (s : State) : KeepsX [.out, .fresh, .regs, .staged, .once, .time, .epoch, .src, .yar, .acc, .firn, .xb, .rq, .arb, .core, .pred, .clus, .camp, .seg, .lnk, .audit, .rec_, .lock, .img, .rime, .pwr, .su, .bar, .hostq, .gate, .edw, .trc, .tst] s (execSlcDestroy a0 a1 s) := by
  unfold execSlcDestroy
  repeat' first
    | with_reducible apply KeepsX.mono (doWrite_keeps ..) (by decide)

theorem execPgConsWrite_keeps (a0) (a1) (a2) (s : State) : KeepsX [.out, .fresh, .regs, .staged, .once, .time, .epoch, .src, .yar, .acc, .firn, .xb, .rq, .arb, .core, .pred, .clus, .camp, .seg, .lnk, .audit, .rec_, .lock, .img, .rime, .pwr, .su, .bar, .hostq, .gate, .edw, .trc, .tst] s (execPgConsWrite a0 a1 a2 s) := by
  unfold execPgConsWrite
  repeat' first
    | with_reducible apply KeepsX.mono (doWrite_keeps ..) (by decide)

theorem execPgArmWrite_keeps (a0) (a1) (a2) (s : State) : KeepsX [.out, .fresh, .regs, .staged, .once, .time, .epoch, .src, .yar, .acc, .firn, .xb, .rq, .arb, .core, .pred, .clus, .camp, .seg, .lnk, .audit, .rec_, .lock, .img, .rime, .pwr, .su, .bar, .hostq, .gate, .edw, .trc, .tst] s (execPgArmWrite a0 a1 a2 s) := by
  unfold execPgArmWrite
  repeat' first
    | with_reducible apply KeepsX.mono (doWrite_keeps ..) (by decide)

theorem execPgVwWrite_keeps (a0) (a1) (a2) (s : State) : KeepsX [.out, .fresh, .regs, .staged, .once, .time, .epoch, .src, .yar, .acc, .firn, .xb, .rq, .arb, .core, .pred, .clus, .camp, .seg, .lnk, .audit, .rec_, .lock, .img, .rime, .pwr, .su, .bar, .hostq, .gate, .edw, .trc, .tst] s (execPgVwWrite a0 a1 a2 s) := by
  unfold execPgVwWrite
  repeat' first
    | with_reducible apply KeepsX.mono (doWrite_keeps ..) (by decide)

theorem execHostGateSoftReset_keeps (a0) (s : State) : KeepsX [.out, .fresh, .regs, .staged, .once, .time, .epoch, .src, .yar, .acc, .firn, .xb, .rq, .arb, .core, .pred, .clus, .camp, .seg, .lnk, .audit, .rec_, .lock, .img, .rime, .pwr, .su, .bar, .hostq, .gate, .edw, .trc, .tst] s (execHostGateSoftReset a0 s) := by
  unfold execHostGateSoftReset
  repeat' first
    | with_reducible apply KeepsX.mono (doWrite_keeps ..) (by decide)

theorem execSlcDirtyRead_keeps (a0) (a1) (a2) (s : State) : KeepsX [.out, .fresh, .regs, .time, .core, .clus, .lock, .edw, .trc, .tst] s (execSlcDirtyRead a0 a1 a2 s) := by
  unfold execSlcDirtyRead
  repeat' first
    | with_reducible apply KeepsX.mono (doRead_keeps ..) (by decide)

theorem execEdwCtrlSeal_keeps (a0) (s : State) : KeepsX [.out, .fresh, .regs, .staged, .once, .time, .epoch, .src, .yar, .acc, .firn, .xb, .rq, .arb, .core, .pred, .clus, .camp, .seg, .lnk, .audit, .rec_, .lock, .img, .rime, .pwr, .su, .bar, .hostq, .gate, .edw, .trc, .tst] s (execEdwCtrlSeal a0 s) := by
  unfold execEdwCtrlSeal
  repeat' first
    | with_reducible apply KeepsX.mono (doWrite_keeps ..) (by decide)

theorem execEdwDebugWrite_keeps (a0) (a1) (a2) (s : State) : KeepsX [.out, .fresh, .regs, .staged, .once, .time, .epoch, .src, .yar, .acc, .firn, .xb, .rq, .arb, .core, .pred, .clus, .camp, .seg, .lnk, .audit, .rec_, .lock, .img, .rime, .pwr, .su, .bar, .hostq, .gate, .edw, .trc, .tst] s (execEdwDebugWrite a0 a1 a2 s) := by
  unfold execEdwDebugWrite
  repeat' first
    | with_reducible apply KeepsX.mono (doWrite_keeps ..) (by decide)

theorem execEdwLatchedRead_keeps (a0) (a1) (s : State) : KeepsX [.out, .fresh, .regs, .time, .core, .clus, .lock, .edw, .trc, .tst] s (execEdwLatchedRead a0 a1 s) := by
  unfold execEdwLatchedRead
  repeat' first
    | with_reducible apply KeepsX.mono (doRead_keeps ..) (by decide)

theorem execPwrReqWake_keeps (a0) (a1) (s : State) : KeepsX [.out, .fresh, .regs, .staged, .once, .time, .epoch, .src, .yar, .acc, .firn, .xb, .rq, .arb, .core, .pred, .clus, .camp, .seg, .lnk, .audit, .rec_, .lock, .img, .rime, .pwr, .su, .bar, .hostq, .gate, .edw, .trc, .tst] s (execPwrReqWake a0 a1 s) := by
  unfold execPwrReqWake
  repeat' first
    | with_reducible apply KeepsX.mono (doWrite_keeps ..) (by decide)

theorem execPwrReqOff_keeps (a0) (a1) (s : State) : KeepsX [.out, .fresh, .regs, .staged, .once, .time, .epoch, .src, .yar, .acc, .firn, .xb, .rq, .arb, .core, .pred, .clus, .camp, .seg, .lnk, .audit, .rec_, .lock, .img, .rime, .pwr, .su, .bar, .hostq, .gate, .edw, .trc, .tst] s (execPwrReqOff a0 a1 s) := by
  unfold execPwrReqOff
  repeat' first
    | with_reducible apply KeepsX.mono (doWrite_keeps ..) (by decide)

theorem execSleepGo_keeps (a0) (s : State) : KeepsX [.out, .fresh, .regs, .staged, .once, .time, .epoch, .src, .yar, .acc, .firn, .xb, .rq, .arb, .core, .pred, .clus, .camp, .seg, .lnk, .audit, .rec_, .lock, .img, .rime, .pwr, .su, .bar, .hostq, .gate, .edw, .trc, .tst] s (execSleepGo a0 s) := by
  unfold execSleepGo
  repeat' first
    | with_reducible apply KeepsX.mono (doWrite_keeps ..) (by decide)

theorem execRegisterWrite_keeps (a0) (a1) (a2) (s : State) : KeepsX [.out, .fresh, .regs, .staged, .once, .time, .epoch, .src, .yar, .acc, .firn, .xb, .rq, .arb, .core, .pred, .clus, .camp, .seg, .lnk, .audit, .rec_, .lock, .img, .rime, .pwr, .su, .bar, .hostq, .gate, .edw, .trc, .tst] s (execRegisterWrite a0 a1 a2 s) := by
  unfold execRegisterWrite
  repeat' first
    | with_reducible apply KeepsX.mono (doWrite_keeps ..) (by decide)

theorem execStagedViewWrite_keeps (a0) (a1) (a2) (s : State) : KeepsX [.out, .fresh, .regs, .staged, .once, .time, .epoch, .src, .yar, .acc, .firn, .xb, .rq, .arb, .core, .pred, .clus, .camp, .seg, .lnk, .audit, .rec_, .lock, .img, .rime, .pwr, .su, .bar, .hostq, .gate, .edw, .trc, .tst] s (execStagedViewWrite a0 a1 a2 s) := by
  unfold execStagedViewWrite
  repeat' first
    | with_reducible apply KeepsX.mono (doWrite_keeps ..) (by decide)

theorem execBitAliasWrite_keeps (a0) (a1) (a2) (a3) (s : State) : KeepsX [.out, .fresh, .regs, .staged, .once, .time, .epoch, .src, .yar, .acc, .firn, .xb, .rq, .arb, .core, .pred, .clus, .camp, .seg, .lnk, .audit, .rec_, .lock, .img, .rime, .pwr, .su, .bar, .hostq, .gate, .edw, .trc, .tst] s (execBitAliasWrite a0 a1 a2 a3 s) := by
  unfold execBitAliasWrite
  repeat' first
    | with_reducible apply KeepsX.mono (doWrite_keeps ..) (by decide)

theorem execRegisterRead_keeps (a0) (a1) (a2) (s : State) : KeepsX [.out, .fresh, .regs, .time, .core, .clus, .lock, .edw, .trc, .tst] s (execRegisterRead a0 a1 a2 s) := by
  unfold execRegisterRead
  repeat' first
    | with_reducible apply KeepsX.runWf (fun s => ?_)
    | with_reducible exact Keeps.refl
    | assumption
    | dsimp only
    | with_reducible apply Keeps.ite
    | with_reducible apply Keeps.step (readReg_keeps ..) (by decide)

theorem execTraceDataRead_keeps (a0) (s : State) : KeepsX [.out, .fresh, .regs, .time, .core, .clus, .lock, .edw, .trc, .tst] s (execTraceDataRead a0 s) := by
  unfold execTraceDataRead
  repeat' first
    | with_reducible apply KeepsX.mono (doRead_keeps ..) (by decide)

theorem execTraceRdptrWrite_keeps (a0) (a1) (s : State) : KeepsX [.out, .fresh, .regs, .staged, .once, .time, .epoch, .src, .yar, .acc, .firn, .xb, .rq, .arb, .core, .pred, .clus, .camp, .seg, .lnk, .audit, .rec_, .lock, .img, .rime, .pwr, .su, .bar, .hostq, .gate, .edw, .trc, .tst] s (execTraceRdptrWrite a0 a1 s) := by
  unfold execTraceRdptrWrite
  repeat' first
    | with_reducible apply KeepsX.mono (doWrite_keeps ..) (by decide)

theorem execTraceEnable_keeps (a0) (s : State) : KeepsX [.out, .fresh, .regs, .staged, .once, .time, .epoch, .src, .yar, .acc, .firn, .xb, .rq, .arb, .core, .pred, .clus, .camp, .seg, .lnk, .audit, .rec_, .lock, .img, .rime, .pwr, .su, .bar, .hostq, .gate, .edw, .trc, .tst] s (execTraceEnable a0 s) := by
  unfold execTraceEnable
  repeat' first
    | with_reducible apply KeepsX.mono (doChange_keeps ..) (by decide)

theorem execTestInject_keeps (a0) (a1) (s : State) : KeepsX [.out, .fresh, .regs, .staged, .once, .time, .epoch, .src, .yar, .acc, .firn, .xb, .rq, .arb, .core, .pred, .clus, .camp, .seg, .lnk, .audit, .rec_, .lock, .img, .rime, .pwr, .su, .bar, .hostq, .gate, .edw, .trc, .tst] s (execTestInject a0 a1 s) := by
  unfold execTestInject
  repeat' first
    | with_reducible apply KeepsX.mono (doChange_keeps ..) (by decide)

theorem execLtestStart_keeps (a0) (s : State) : KeepsX [.out, .fresh, .regs, .staged, .once, .time, .epoch, .src, .yar, .acc, .firn, .xb, .rq, .arb, .core, .pred, .clus, .camp, .seg, .lnk, .audit, .rec_, .lock, .img, .rime, .pwr, .su, .bar, .hostq, .gate, .edw, .trc, .tst] s (execLtestStart a0 s) := by
  unfold execLtestStart
  repeat' first
    | with_reducible apply KeepsX.mono (doChange_keeps ..) (by decide)

theorem execLtestStop_keeps (a0) (s : State) : KeepsX [.out, .fresh, .regs, .staged, .once, .time, .epoch, .src, .yar, .acc, .firn, .xb, .rq, .arb, .core, .pred, .clus, .camp, .seg, .lnk, .audit, .rec_, .lock, .img, .rime, .pwr, .su, .bar, .hostq, .gate, .edw, .trc, .tst] s (execLtestStop a0 s) := by
  unfold execLtestStop
  repeat' first
    | with_reducible apply KeepsX.mono (doChange_keeps ..) (by decide)

end Sys2Proof.Machine
end

