-- ==== Sys2Proof/Laws/Tables.lean ====
section
/-! SUPPORT. The laws of the sparse tables: a read after a write, and the canonical form. -/

set_option Elab.async false

namespace Sys2Proof.Machine

theorem tget_tdel_ne {α} (d : α) (t : Tbl α) {i j : Nat} (h : j ≠ i) : tget d (tdel t i) j = tget d t j := by
  induction t with
  | nil => rfl
  | cons e t ih =>
    obtain ⟨k, v⟩ := e
    by_cases hk : k = i
    · subst hk
      simp [tdel, tget, Ne.symm h] at ih ⊢
      exact ih
    · simp only [tdel, List.filter_cons, bne_iff_ne, ne_eq, hk, not_false_eq_true, ↓reduceIte, tget] at ih ⊢
      rw [ih]

theorem tget_tdel_same {α} (d : α) (t : Tbl α) (i : Nat) : tget d (tdel t i) i = d := by
  induction t with
  | nil => rfl
  | cons e t ih =>
    obtain ⟨k, v⟩ := e
    by_cases hk : k = i
    · simp only [tdel, List.filter_cons, hk, bne_self_eq_false, Bool.false_eq_true, ↓reduceIte] at ih ⊢
      exact ih
    · simp only [tdel, List.filter_cons, bne_iff_ne, ne_eq, hk, not_false_eq_true, ↓reduceIte, tget] at ih ⊢
      exact ih

theorem tget_tput_ne {α} (d : α) (t : Tbl α) {i j : Nat} (v : α) (h : j ≠ i) : tget d (tput t i v) j = tget d t j := by
  induction t with
  | nil => simp [tput, tget, Ne.symm h]
  | cons e t ih =>
    obtain ⟨k, w⟩ := e
    unfold tput
    split
    · simp [tget, Ne.symm h]
    · simp [tget, ih]

theorem tget_tput_same {α} (d : α) (t : Tbl α) (i : Nat) (v : α) : tget d (tput (tdel t i) i v) i = v := by
  induction t with
  | nil => simp [tdel, tput, tget]
  | cons e t ih =>
    obtain ⟨k, w⟩ := e
    by_cases hk : k = i
    · simp only [tdel, List.filter_cons, hk, bne_self_eq_false, Bool.false_eq_true, ↓reduceIte] at ih ⊢
      exact ih
    · simp only [tdel, List.filter_cons, bne_iff_ne, ne_eq, hk, not_false_eq_true, ↓reduceIte] at ih ⊢
      unfold tput
      split
      · simp [tget]
      · simp only [tget, hk, ↓reduceIte]
        exact ih

@[simp] theorem tget_tset_same {α} [DecidableEq α] (d : α) (t : Tbl α) (i : Nat) (v : α) : tget d (tset d t i v) i = v := by
  unfold tset
  split
  · rename_i h
    rw [h, tget_tdel_same]
  · exact tget_tput_same d t i v

theorem tget_tset_ne {α} [DecidableEq α] (d d' : α) (t : Tbl α) {i j : Nat} (v : α) (h : j ≠ i) :
    tget d (tset d' t i v) j = tget d t j := by
  unfold tset
  split
  · exact tget_tdel_ne d t h
  · rw [tget_tput_ne d _ v h, tget_tdel_ne d t h]

/-- Every key of a table lies above a bound. -/
theorem twf_cons {α} [DecidableEq α] {d : α} {k : Nat} {v : α} {t : Tbl α} :
    twf d ((k, v) :: t) = true ↔ v ≠ d ∧ (∀ e ∈ t, k < e.1) ∧ twf d t = true := by
  induction t generalizing k v with
  | nil => simp [twf]
  | cons e t ih =>
    obtain ⟨k', v'⟩ := e
    simp only [twf, Bool.and_eq_true, bne_iff_ne, ne_eq, decide_eq_true_eq, List.mem_cons, forall_eq_or_imp]
    constructor
    · rintro ⟨⟨h1, h2⟩, h3⟩
      exact ⟨h1, ⟨h2, fun e he => Nat.lt_trans h2 ((ih.1 h3).2.1 e he)⟩, h3⟩
    · rintro ⟨h1, ⟨h2, _⟩, h3⟩
      exact ⟨⟨h1, h2⟩, h3⟩

theorem twf_tdel {α} [DecidableEq α] {d : α} {t : Tbl α} (i : Nat) (h : twf d t = true) : twf d (tdel t i) = true := by
  induction t with
  | nil => rfl
  | cons e t ih =>
    obtain ⟨k, v⟩ := e
    obtain ⟨h1, h2, h3⟩ := twf_cons.1 h
    unfold tdel at ih ⊢
    simp only [List.filter_cons]
    split
    · exact twf_cons.2 ⟨h1, fun e he => h2 e (List.mem_of_mem_filter he), ih h3⟩
    · exact ih h3

theorem mem_tput {α} {t : Tbl α} {i : Nat} {v : α} {e : Nat × α} (h : e ∈ tput t i v) : e = (i, v) ∨ e ∈ t := by
  induction t with
  | nil => simpa [tput] using h
  | cons a t ih =>
    obtain ⟨k, w⟩ := a
    unfold tput at h
    split at h
    · simpa using h
    · rcases List.mem_cons.1 h with h | h
      · exact .inr (by simp [h])
      · rcases ih h with h | h
        · exact .inl h
        · exact .inr (List.mem_cons_of_mem _ h)

theorem twf_tput {α} [DecidableEq α] {d : α} {t : Tbl α} {i : Nat} {v : α} (hv : v ≠ d) (hi : ∀ e ∈ t, e.1 ≠ i)
    (h : twf d t = true) : twf d (tput t i v) = true := by
  induction t with
  | nil => simp [tput, twf, hv]
  | cons a t ih =>
    obtain ⟨k, w⟩ := a
    obtain ⟨h1, h2, h3⟩ := twf_cons.1 h
    unfold tput
    split
    · rename_i hk
      refine twf_cons.2 ⟨hv, fun e he => ?_, h⟩
      rcases List.mem_cons.1 he with he | he
      · rw [he]
        exact hk
      · exact Nat.lt_trans hk (h2 e he)
    · rename_i hk
      refine twf_cons.2 ⟨h1, fun e he => ?_, ih (fun e he => hi e (List.mem_cons_of_mem _ he)) h3⟩
      rcases mem_tput he with he | he
      · have := hi (k, w) List.mem_cons_self
        rw [he]
        simp only at this ⊢
        omega
      · exact h2 e he

/-- Every write keeps the canonical form. -/
theorem twf_tset {α} [DecidableEq α] {d : α} {t : Tbl α} (i : Nat) (v : α) (h : twf d t = true) :
    twf d (tset d t i v) = true := by
  unfold tset
  split
  · exact twf_tdel i h
  · rename_i hv
    refine twf_tput hv (fun e he => ?_) (twf_tdel i h)
    simpa using (List.mem_filter.1 he).2

end Sys2Proof.Machine
end

