-- ==== Sys2Proof/Laws/State.lean ====
section
/-! SUPPORT. The laws of the updates of State: which fields each leaves, and what is read after it. -/

namespace Sys2Proof.Machine

@[simp] theorem State.wr_pending (s : State) (f) (v) : (s.wr f v).pending = s.pending := rfl
@[simp] theorem State.wr_out (s : State) (f) (v) : (s.wr f v).out = s.out := rfl
@[simp] theorem State.wr_fresh (s : State) (f) (v) : (s.wr f v).fresh = s.fresh := rfl
@[simp] theorem State.wr_shape (s : State) (f) (v) : (s.wr f v).shape = s.shape := rfl
@[simp] theorem State.wr_pins (s : State) (f) (v) : (s.wr f v).pins = s.pins := rfl
@[simp] theorem State.wr_staged (s : State) (f) (v) : (s.wr f v).staged = s.staged := rfl
@[simp] theorem State.wr_once (s : State) (f) (v) : (s.wr f v).once = s.once := rfl
@[simp] theorem State.wr_time (s : State) (f) (v) : (s.wr f v).time = s.time := rfl
@[simp] theorem State.wr_epoch (s : State) (f) (v) : (s.wr f v).epoch = s.epoch := rfl
@[simp] theorem State.wr_src (s : State) (f) (v) : (s.wr f v).src = s.src := rfl
@[simp] theorem State.wr_yar (s : State) (f) (v) : (s.wr f v).yar = s.yar := rfl
@[simp] theorem State.wr_acc (s : State) (f) (v) : (s.wr f v).acc = s.acc := rfl
@[simp] theorem State.wr_firn (s : State) (f) (v) : (s.wr f v).firn = s.firn := rfl
@[simp] theorem State.wr_xb (s : State) (f) (v) : (s.wr f v).xb = s.xb := rfl
@[simp] theorem State.wr_rq (s : State) (f) (v) : (s.wr f v).rq = s.rq := rfl
@[simp] theorem State.wr_arb (s : State) (f) (v) : (s.wr f v).arb = s.arb := rfl
@[simp] theorem State.wr_core (s : State) (f) (v) : (s.wr f v).core = s.core := rfl
@[simp] theorem State.wr_pred (s : State) (f) (v) : (s.wr f v).pred = s.pred := rfl
@[simp] theorem State.wr_clus (s : State) (f) (v) : (s.wr f v).clus = s.clus := rfl
@[simp] theorem State.wr_camp (s : State) (f) (v) : (s.wr f v).camp = s.camp := rfl
@[simp] theorem State.wr_seg (s : State) (f) (v) : (s.wr f v).seg = s.seg := rfl
@[simp] theorem State.wr_lnk (s : State) (f) (v) : (s.wr f v).lnk = s.lnk := rfl
@[simp] theorem State.wr_audit (s : State) (f) (v) : (s.wr f v).audit = s.audit := rfl
@[simp] theorem State.wr_rec_ (s : State) (f) (v) : (s.wr f v).rec_ = s.rec_ := rfl
@[simp] theorem State.wr_lock (s : State) (f) (v) : (s.wr f v).lock = s.lock := rfl
@[simp] theorem State.wr_img (s : State) (f) (v) : (s.wr f v).img = s.img := rfl
@[simp] theorem State.wr_rime (s : State) (f) (v) : (s.wr f v).rime = s.rime := rfl
@[simp] theorem State.wr_pwr (s : State) (f) (v) : (s.wr f v).pwr = s.pwr := rfl
@[simp] theorem State.wr_su (s : State) (f) (v) : (s.wr f v).su = s.su := rfl
@[simp] theorem State.wr_bar (s : State) (f) (v) : (s.wr f v).bar = s.bar := rfl
@[simp] theorem State.wr_hostq (s : State) (f) (v) : (s.wr f v).hostq = s.hostq := rfl
@[simp] theorem State.wr_gate (s : State) (f) (v) : (s.wr f v).gate = s.gate := rfl
@[simp] theorem State.wr_edw (s : State) (f) (v) : (s.wr f v).edw = s.edw := rfl
@[simp] theorem State.wr_trc (s : State) (f) (v) : (s.wr f v).trc = s.trc := rfl
@[simp] theorem State.wr_tst (s : State) (f) (v) : (s.wr f v).tst = s.tst := rfl

@[simp] theorem State.inc_pending (s : State) (f) (n) : (s.inc f n).pending = s.pending := rfl
@[simp] theorem State.inc_out (s : State) (f) (n) : (s.inc f n).out = s.out := rfl
@[simp] theorem State.inc_fresh (s : State) (f) (n) : (s.inc f n).fresh = s.fresh := rfl
@[simp] theorem State.inc_shape (s : State) (f) (n) : (s.inc f n).shape = s.shape := rfl
@[simp] theorem State.inc_pins (s : State) (f) (n) : (s.inc f n).pins = s.pins := rfl
@[simp] theorem State.inc_staged (s : State) (f) (n) : (s.inc f n).staged = s.staged := rfl
@[simp] theorem State.inc_once (s : State) (f) (n) : (s.inc f n).once = s.once := rfl
@[simp] theorem State.inc_time (s : State) (f) (n) : (s.inc f n).time = s.time := rfl
@[simp] theorem State.inc_epoch (s : State) (f) (n) : (s.inc f n).epoch = s.epoch := rfl
@[simp] theorem State.inc_src (s : State) (f) (n) : (s.inc f n).src = s.src := rfl
@[simp] theorem State.inc_yar (s : State) (f) (n) : (s.inc f n).yar = s.yar := rfl
@[simp] theorem State.inc_acc (s : State) (f) (n) : (s.inc f n).acc = s.acc := rfl
@[simp] theorem State.inc_firn (s : State) (f) (n) : (s.inc f n).firn = s.firn := rfl
@[simp] theorem State.inc_xb (s : State) (f) (n) : (s.inc f n).xb = s.xb := rfl
@[simp] theorem State.inc_rq (s : State) (f) (n) : (s.inc f n).rq = s.rq := rfl
@[simp] theorem State.inc_arb (s : State) (f) (n) : (s.inc f n).arb = s.arb := rfl
@[simp] theorem State.inc_core (s : State) (f) (n) : (s.inc f n).core = s.core := rfl
@[simp] theorem State.inc_pred (s : State) (f) (n) : (s.inc f n).pred = s.pred := rfl
@[simp] theorem State.inc_clus (s : State) (f) (n) : (s.inc f n).clus = s.clus := rfl
@[simp] theorem State.inc_camp (s : State) (f) (n) : (s.inc f n).camp = s.camp := rfl
@[simp] theorem State.inc_seg (s : State) (f) (n) : (s.inc f n).seg = s.seg := rfl
@[simp] theorem State.inc_lnk (s : State) (f) (n) : (s.inc f n).lnk = s.lnk := rfl
@[simp] theorem State.inc_audit (s : State) (f) (n) : (s.inc f n).audit = s.audit := rfl
@[simp] theorem State.inc_rec_ (s : State) (f) (n) : (s.inc f n).rec_ = s.rec_ := rfl
@[simp] theorem State.inc_lock (s : State) (f) (n) : (s.inc f n).lock = s.lock := rfl
@[simp] theorem State.inc_img (s : State) (f) (n) : (s.inc f n).img = s.img := rfl
@[simp] theorem State.inc_rime (s : State) (f) (n) : (s.inc f n).rime = s.rime := rfl
@[simp] theorem State.inc_pwr (s : State) (f) (n) : (s.inc f n).pwr = s.pwr := rfl
@[simp] theorem State.inc_su (s : State) (f) (n) : (s.inc f n).su = s.su := rfl
@[simp] theorem State.inc_bar (s : State) (f) (n) : (s.inc f n).bar = s.bar := rfl
@[simp] theorem State.inc_hostq (s : State) (f) (n) : (s.inc f n).hostq = s.hostq := rfl
@[simp] theorem State.inc_gate (s : State) (f) (n) : (s.inc f n).gate = s.gate := rfl
@[simp] theorem State.inc_edw (s : State) (f) (n) : (s.inc f n).edw = s.edw := rfl
@[simp] theorem State.inc_trc (s : State) (f) (n) : (s.inc f n).trc = s.trc := rfl
@[simp] theorem State.inc_tst (s : State) (f) (n) : (s.inc f n).tst = s.tst := rfl

@[simp] theorem State.incW_pending (s : State) (f) (n) : (s.incW f n).pending = s.pending := rfl
@[simp] theorem State.incW_out (s : State) (f) (n) : (s.incW f n).out = s.out := rfl
@[simp] theorem State.incW_fresh (s : State) (f) (n) : (s.incW f n).fresh = s.fresh := rfl
@[simp] theorem State.incW_shape (s : State) (f) (n) : (s.incW f n).shape = s.shape := rfl
@[simp] theorem State.incW_pins (s : State) (f) (n) : (s.incW f n).pins = s.pins := rfl
@[simp] theorem State.incW_staged (s : State) (f) (n) : (s.incW f n).staged = s.staged := rfl
@[simp] theorem State.incW_once (s : State) (f) (n) : (s.incW f n).once = s.once := rfl
@[simp] theorem State.incW_time (s : State) (f) (n) : (s.incW f n).time = s.time := rfl
@[simp] theorem State.incW_epoch (s : State) (f) (n) : (s.incW f n).epoch = s.epoch := rfl
@[simp] theorem State.incW_src (s : State) (f) (n) : (s.incW f n).src = s.src := rfl
@[simp] theorem State.incW_yar (s : State) (f) (n) : (s.incW f n).yar = s.yar := rfl
@[simp] theorem State.incW_acc (s : State) (f) (n) : (s.incW f n).acc = s.acc := rfl
@[simp] theorem State.incW_firn (s : State) (f) (n) : (s.incW f n).firn = s.firn := rfl
@[simp] theorem State.incW_xb (s : State) (f) (n) : (s.incW f n).xb = s.xb := rfl
@[simp] theorem State.incW_rq (s : State) (f) (n) : (s.incW f n).rq = s.rq := rfl
@[simp] theorem State.incW_arb (s : State) (f) (n) : (s.incW f n).arb = s.arb := rfl
@[simp] theorem State.incW_core (s : State) (f) (n) : (s.incW f n).core = s.core := rfl
@[simp] theorem State.incW_pred (s : State) (f) (n) : (s.incW f n).pred = s.pred := rfl
@[simp] theorem State.incW_clus (s : State) (f) (n) : (s.incW f n).clus = s.clus := rfl
@[simp] theorem State.incW_camp (s : State) (f) (n) : (s.incW f n).camp = s.camp := rfl
@[simp] theorem State.incW_seg (s : State) (f) (n) : (s.incW f n).seg = s.seg := rfl
@[simp] theorem State.incW_lnk (s : State) (f) (n) : (s.incW f n).lnk = s.lnk := rfl
@[simp] theorem State.incW_audit (s : State) (f) (n) : (s.incW f n).audit = s.audit := rfl
@[simp] theorem State.incW_rec_ (s : State) (f) (n) : (s.incW f n).rec_ = s.rec_ := rfl
@[simp] theorem State.incW_lock (s : State) (f) (n) : (s.incW f n).lock = s.lock := rfl
@[simp] theorem State.incW_img (s : State) (f) (n) : (s.incW f n).img = s.img := rfl
@[simp] theorem State.incW_rime (s : State) (f) (n) : (s.incW f n).rime = s.rime := rfl
@[simp] theorem State.incW_pwr (s : State) (f) (n) : (s.incW f n).pwr = s.pwr := rfl
@[simp] theorem State.incW_su (s : State) (f) (n) : (s.incW f n).su = s.su := rfl
@[simp] theorem State.incW_bar (s : State) (f) (n) : (s.incW f n).bar = s.bar := rfl
@[simp] theorem State.incW_hostq (s : State) (f) (n) : (s.incW f n).hostq = s.hostq := rfl
@[simp] theorem State.incW_gate (s : State) (f) (n) : (s.incW f n).gate = s.gate := rfl
@[simp] theorem State.incW_edw (s : State) (f) (n) : (s.incW f n).edw = s.edw := rfl
@[simp] theorem State.incW_trc (s : State) (f) (n) : (s.incW f n).trc = s.trc := rfl
@[simp] theorem State.incW_tst (s : State) (f) (n) : (s.incW f n).tst = s.tst := rfl

@[simp] theorem State.raise_pending (s : State) (f) : (s.raise f).pending = s.pending := rfl
@[simp] theorem State.raise_out (s : State) (f) : (s.raise f).out = s.out := rfl
@[simp] theorem State.raise_fresh (s : State) (f) : (s.raise f).fresh = s.fresh := rfl
@[simp] theorem State.raise_shape (s : State) (f) : (s.raise f).shape = s.shape := rfl
@[simp] theorem State.raise_pins (s : State) (f) : (s.raise f).pins = s.pins := rfl
@[simp] theorem State.raise_staged (s : State) (f) : (s.raise f).staged = s.staged := rfl
@[simp] theorem State.raise_once (s : State) (f) : (s.raise f).once = s.once := rfl
@[simp] theorem State.raise_time (s : State) (f) : (s.raise f).time = s.time := rfl
@[simp] theorem State.raise_epoch (s : State) (f) : (s.raise f).epoch = s.epoch := rfl
@[simp] theorem State.raise_src (s : State) (f) : (s.raise f).src = s.src := rfl
@[simp] theorem State.raise_yar (s : State) (f) : (s.raise f).yar = s.yar := rfl
@[simp] theorem State.raise_acc (s : State) (f) : (s.raise f).acc = s.acc := rfl
@[simp] theorem State.raise_firn (s : State) (f) : (s.raise f).firn = s.firn := rfl
@[simp] theorem State.raise_xb (s : State) (f) : (s.raise f).xb = s.xb := rfl
@[simp] theorem State.raise_rq (s : State) (f) : (s.raise f).rq = s.rq := rfl
@[simp] theorem State.raise_arb (s : State) (f) : (s.raise f).arb = s.arb := rfl
@[simp] theorem State.raise_core (s : State) (f) : (s.raise f).core = s.core := rfl
@[simp] theorem State.raise_pred (s : State) (f) : (s.raise f).pred = s.pred := rfl
@[simp] theorem State.raise_clus (s : State) (f) : (s.raise f).clus = s.clus := rfl
@[simp] theorem State.raise_camp (s : State) (f) : (s.raise f).camp = s.camp := rfl
@[simp] theorem State.raise_seg (s : State) (f) : (s.raise f).seg = s.seg := rfl
@[simp] theorem State.raise_lnk (s : State) (f) : (s.raise f).lnk = s.lnk := rfl
@[simp] theorem State.raise_audit (s : State) (f) : (s.raise f).audit = s.audit := rfl
@[simp] theorem State.raise_rec_ (s : State) (f) : (s.raise f).rec_ = s.rec_ := rfl
@[simp] theorem State.raise_lock (s : State) (f) : (s.raise f).lock = s.lock := rfl
@[simp] theorem State.raise_img (s : State) (f) : (s.raise f).img = s.img := rfl
@[simp] theorem State.raise_rime (s : State) (f) : (s.raise f).rime = s.rime := rfl
@[simp] theorem State.raise_pwr (s : State) (f) : (s.raise f).pwr = s.pwr := rfl
@[simp] theorem State.raise_su (s : State) (f) : (s.raise f).su = s.su := rfl
@[simp] theorem State.raise_bar (s : State) (f) : (s.raise f).bar = s.bar := rfl
@[simp] theorem State.raise_hostq (s : State) (f) : (s.raise f).hostq = s.hostq := rfl
@[simp] theorem State.raise_gate (s : State) (f) : (s.raise f).gate = s.gate := rfl
@[simp] theorem State.raise_edw (s : State) (f) : (s.raise f).edw = s.edw := rfl
@[simp] theorem State.raise_trc (s : State) (f) : (s.raise f).trc = s.trc := rfl
@[simp] theorem State.raise_tst (s : State) (f) : (s.raise f).tst = s.tst := rfl

@[simp] theorem State.emit_pending (s : State) (o) : (s.emit o).pending = s.pending := rfl
@[simp] theorem State.emit_fresh (s : State) (o) : (s.emit o).fresh = s.fresh := rfl
@[simp] theorem State.emit_shape (s : State) (o) : (s.emit o).shape = s.shape := rfl
@[simp] theorem State.emit_pins (s : State) (o) : (s.emit o).pins = s.pins := rfl
@[simp] theorem State.emit_regs (s : State) (o) : (s.emit o).regs = s.regs := rfl
@[simp] theorem State.emit_staged (s : State) (o) : (s.emit o).staged = s.staged := rfl
@[simp] theorem State.emit_once (s : State) (o) : (s.emit o).once = s.once := rfl
@[simp] theorem State.emit_time (s : State) (o) : (s.emit o).time = s.time := rfl
@[simp] theorem State.emit_epoch (s : State) (o) : (s.emit o).epoch = s.epoch := rfl
@[simp] theorem State.emit_src (s : State) (o) : (s.emit o).src = s.src := rfl
@[simp] theorem State.emit_yar (s : State) (o) : (s.emit o).yar = s.yar := rfl
@[simp] theorem State.emit_acc (s : State) (o) : (s.emit o).acc = s.acc := rfl
@[simp] theorem State.emit_firn (s : State) (o) : (s.emit o).firn = s.firn := rfl
@[simp] theorem State.emit_xb (s : State) (o) : (s.emit o).xb = s.xb := rfl
@[simp] theorem State.emit_rq (s : State) (o) : (s.emit o).rq = s.rq := rfl
@[simp] theorem State.emit_arb (s : State) (o) : (s.emit o).arb = s.arb := rfl
@[simp] theorem State.emit_core (s : State) (o) : (s.emit o).core = s.core := rfl
@[simp] theorem State.emit_pred (s : State) (o) : (s.emit o).pred = s.pred := rfl
@[simp] theorem State.emit_clus (s : State) (o) : (s.emit o).clus = s.clus := rfl
@[simp] theorem State.emit_camp (s : State) (o) : (s.emit o).camp = s.camp := rfl
@[simp] theorem State.emit_seg (s : State) (o) : (s.emit o).seg = s.seg := rfl
@[simp] theorem State.emit_lnk (s : State) (o) : (s.emit o).lnk = s.lnk := rfl
@[simp] theorem State.emit_audit (s : State) (o) : (s.emit o).audit = s.audit := rfl
@[simp] theorem State.emit_rec_ (s : State) (o) : (s.emit o).rec_ = s.rec_ := rfl
@[simp] theorem State.emit_lock (s : State) (o) : (s.emit o).lock = s.lock := rfl
@[simp] theorem State.emit_img (s : State) (o) : (s.emit o).img = s.img := rfl
@[simp] theorem State.emit_rime (s : State) (o) : (s.emit o).rime = s.rime := rfl
@[simp] theorem State.emit_pwr (s : State) (o) : (s.emit o).pwr = s.pwr := rfl
@[simp] theorem State.emit_su (s : State) (o) : (s.emit o).su = s.su := rfl
@[simp] theorem State.emit_bar (s : State) (o) : (s.emit o).bar = s.bar := rfl
@[simp] theorem State.emit_hostq (s : State) (o) : (s.emit o).hostq = s.hostq := rfl
@[simp] theorem State.emit_gate (s : State) (o) : (s.emit o).gate = s.gate := rfl
@[simp] theorem State.emit_edw (s : State) (o) : (s.emit o).edw = s.edw := rfl
@[simp] theorem State.emit_trc (s : State) (o) : (s.emit o).trc = s.trc := rfl
@[simp] theorem State.emit_tst (s : State) (o) : (s.emit o).tst = s.tst := rfl

@[simp] theorem State.setCamp_pending (s : State) (n) (c) : (s.setCamp n c).pending = s.pending := rfl
@[simp] theorem State.setCamp_out (s : State) (n) (c) : (s.setCamp n c).out = s.out := rfl
@[simp] theorem State.setCamp_fresh (s : State) (n) (c) : (s.setCamp n c).fresh = s.fresh := rfl
@[simp] theorem State.setCamp_shape (s : State) (n) (c) : (s.setCamp n c).shape = s.shape := rfl
@[simp] theorem State.setCamp_pins (s : State) (n) (c) : (s.setCamp n c).pins = s.pins := rfl
@[simp] theorem State.setCamp_regs (s : State) (n) (c) : (s.setCamp n c).regs = s.regs := rfl
@[simp] theorem State.setCamp_staged (s : State) (n) (c) : (s.setCamp n c).staged = s.staged := rfl
@[simp] theorem State.setCamp_once (s : State) (n) (c) : (s.setCamp n c).once = s.once := rfl
@[simp] theorem State.setCamp_time (s : State) (n) (c) : (s.setCamp n c).time = s.time := rfl
@[simp] theorem State.setCamp_epoch (s : State) (n) (c) : (s.setCamp n c).epoch = s.epoch := rfl
@[simp] theorem State.setCamp_src (s : State) (n) (c) : (s.setCamp n c).src = s.src := rfl
@[simp] theorem State.setCamp_yar (s : State) (n) (c) : (s.setCamp n c).yar = s.yar := rfl
@[simp] theorem State.setCamp_acc (s : State) (n) (c) : (s.setCamp n c).acc = s.acc := rfl
@[simp] theorem State.setCamp_firn (s : State) (n) (c) : (s.setCamp n c).firn = s.firn := rfl
@[simp] theorem State.setCamp_xb (s : State) (n) (c) : (s.setCamp n c).xb = s.xb := rfl
@[simp] theorem State.setCamp_rq (s : State) (n) (c) : (s.setCamp n c).rq = s.rq := rfl
@[simp] theorem State.setCamp_arb (s : State) (n) (c) : (s.setCamp n c).arb = s.arb := rfl
@[simp] theorem State.setCamp_core (s : State) (n) (c) : (s.setCamp n c).core = s.core := rfl
@[simp] theorem State.setCamp_pred (s : State) (n) (c) : (s.setCamp n c).pred = s.pred := rfl
@[simp] theorem State.setCamp_clus (s : State) (n) (c) : (s.setCamp n c).clus = s.clus := rfl
@[simp] theorem State.setCamp_seg (s : State) (n) (c) : (s.setCamp n c).seg = s.seg := rfl
@[simp] theorem State.setCamp_lnk (s : State) (n) (c) : (s.setCamp n c).lnk = s.lnk := rfl
@[simp] theorem State.setCamp_audit (s : State) (n) (c) : (s.setCamp n c).audit = s.audit := rfl
@[simp] theorem State.setCamp_rec_ (s : State) (n) (c) : (s.setCamp n c).rec_ = s.rec_ := rfl
@[simp] theorem State.setCamp_lock (s : State) (n) (c) : (s.setCamp n c).lock = s.lock := rfl
@[simp] theorem State.setCamp_img (s : State) (n) (c) : (s.setCamp n c).img = s.img := rfl
@[simp] theorem State.setCamp_rime (s : State) (n) (c) : (s.setCamp n c).rime = s.rime := rfl
@[simp] theorem State.setCamp_pwr (s : State) (n) (c) : (s.setCamp n c).pwr = s.pwr := rfl
@[simp] theorem State.setCamp_su (s : State) (n) (c) : (s.setCamp n c).su = s.su := rfl
@[simp] theorem State.setCamp_bar (s : State) (n) (c) : (s.setCamp n c).bar = s.bar := rfl
@[simp] theorem State.setCamp_hostq (s : State) (n) (c) : (s.setCamp n c).hostq = s.hostq := rfl
@[simp] theorem State.setCamp_gate (s : State) (n) (c) : (s.setCamp n c).gate = s.gate := rfl
@[simp] theorem State.setCamp_edw (s : State) (n) (c) : (s.setCamp n c).edw = s.edw := rfl
@[simp] theorem State.setCamp_trc (s : State) (n) (c) : (s.setCamp n c).trc = s.trc := rfl
@[simp] theorem State.setCamp_tst (s : State) (n) (c) : (s.setCamp n c).tst = s.tst := rfl

@[simp] theorem State.setSeg_pending (s : State) (r) (c) : (s.setSeg r c).pending = s.pending := rfl
@[simp] theorem State.setSeg_out (s : State) (r) (c) : (s.setSeg r c).out = s.out := rfl
@[simp] theorem State.setSeg_fresh (s : State) (r) (c) : (s.setSeg r c).fresh = s.fresh := rfl
@[simp] theorem State.setSeg_shape (s : State) (r) (c) : (s.setSeg r c).shape = s.shape := rfl
@[simp] theorem State.setSeg_pins (s : State) (r) (c) : (s.setSeg r c).pins = s.pins := rfl
@[simp] theorem State.setSeg_regs (s : State) (r) (c) : (s.setSeg r c).regs = s.regs := rfl
@[simp] theorem State.setSeg_staged (s : State) (r) (c) : (s.setSeg r c).staged = s.staged := rfl
@[simp] theorem State.setSeg_once (s : State) (r) (c) : (s.setSeg r c).once = s.once := rfl
@[simp] theorem State.setSeg_time (s : State) (r) (c) : (s.setSeg r c).time = s.time := rfl
@[simp] theorem State.setSeg_epoch (s : State) (r) (c) : (s.setSeg r c).epoch = s.epoch := rfl
@[simp] theorem State.setSeg_src (s : State) (r) (c) : (s.setSeg r c).src = s.src := rfl
@[simp] theorem State.setSeg_yar (s : State) (r) (c) : (s.setSeg r c).yar = s.yar := rfl
@[simp] theorem State.setSeg_acc (s : State) (r) (c) : (s.setSeg r c).acc = s.acc := rfl
@[simp] theorem State.setSeg_firn (s : State) (r) (c) : (s.setSeg r c).firn = s.firn := rfl
@[simp] theorem State.setSeg_xb (s : State) (r) (c) : (s.setSeg r c).xb = s.xb := rfl
@[simp] theorem State.setSeg_rq (s : State) (r) (c) : (s.setSeg r c).rq = s.rq := rfl
@[simp] theorem State.setSeg_arb (s : State) (r) (c) : (s.setSeg r c).arb = s.arb := rfl
@[simp] theorem State.setSeg_core (s : State) (r) (c) : (s.setSeg r c).core = s.core := rfl
@[simp] theorem State.setSeg_pred (s : State) (r) (c) : (s.setSeg r c).pred = s.pred := rfl
@[simp] theorem State.setSeg_clus (s : State) (r) (c) : (s.setSeg r c).clus = s.clus := rfl
@[simp] theorem State.setSeg_camp (s : State) (r) (c) : (s.setSeg r c).camp = s.camp := rfl
@[simp] theorem State.setSeg_lnk (s : State) (r) (c) : (s.setSeg r c).lnk = s.lnk := rfl
@[simp] theorem State.setSeg_audit (s : State) (r) (c) : (s.setSeg r c).audit = s.audit := rfl
@[simp] theorem State.setSeg_rec_ (s : State) (r) (c) : (s.setSeg r c).rec_ = s.rec_ := rfl
@[simp] theorem State.setSeg_lock (s : State) (r) (c) : (s.setSeg r c).lock = s.lock := rfl
@[simp] theorem State.setSeg_img (s : State) (r) (c) : (s.setSeg r c).img = s.img := rfl
@[simp] theorem State.setSeg_rime (s : State) (r) (c) : (s.setSeg r c).rime = s.rime := rfl
@[simp] theorem State.setSeg_pwr (s : State) (r) (c) : (s.setSeg r c).pwr = s.pwr := rfl
@[simp] theorem State.setSeg_su (s : State) (r) (c) : (s.setSeg r c).su = s.su := rfl
@[simp] theorem State.setSeg_bar (s : State) (r) (c) : (s.setSeg r c).bar = s.bar := rfl
@[simp] theorem State.setSeg_hostq (s : State) (r) (c) : (s.setSeg r c).hostq = s.hostq := rfl
@[simp] theorem State.setSeg_gate (s : State) (r) (c) : (s.setSeg r c).gate = s.gate := rfl
@[simp] theorem State.setSeg_edw (s : State) (r) (c) : (s.setSeg r c).edw = s.edw := rfl
@[simp] theorem State.setSeg_trc (s : State) (r) (c) : (s.setSeg r c).trc = s.trc := rfl
@[simp] theorem State.setSeg_tst (s : State) (r) (c) : (s.setSeg r c).tst = s.tst := rfl

@[simp] theorem State.setCore_pending (s : State) (n) (c) : (s.setCore n c).pending = s.pending := rfl
@[simp] theorem State.setCore_out (s : State) (n) (c) : (s.setCore n c).out = s.out := rfl
@[simp] theorem State.setCore_fresh (s : State) (n) (c) : (s.setCore n c).fresh = s.fresh := rfl
@[simp] theorem State.setCore_shape (s : State) (n) (c) : (s.setCore n c).shape = s.shape := rfl
@[simp] theorem State.setCore_pins (s : State) (n) (c) : (s.setCore n c).pins = s.pins := rfl
@[simp] theorem State.setCore_regs (s : State) (n) (c) : (s.setCore n c).regs = s.regs := rfl
@[simp] theorem State.setCore_staged (s : State) (n) (c) : (s.setCore n c).staged = s.staged := rfl
@[simp] theorem State.setCore_once (s : State) (n) (c) : (s.setCore n c).once = s.once := rfl
@[simp] theorem State.setCore_time (s : State) (n) (c) : (s.setCore n c).time = s.time := rfl
@[simp] theorem State.setCore_epoch (s : State) (n) (c) : (s.setCore n c).epoch = s.epoch := rfl
@[simp] theorem State.setCore_src (s : State) (n) (c) : (s.setCore n c).src = s.src := rfl
@[simp] theorem State.setCore_yar (s : State) (n) (c) : (s.setCore n c).yar = s.yar := rfl
@[simp] theorem State.setCore_acc (s : State) (n) (c) : (s.setCore n c).acc = s.acc := rfl
@[simp] theorem State.setCore_firn (s : State) (n) (c) : (s.setCore n c).firn = s.firn := rfl
@[simp] theorem State.setCore_xb (s : State) (n) (c) : (s.setCore n c).xb = s.xb := rfl
@[simp] theorem State.setCore_rq (s : State) (n) (c) : (s.setCore n c).rq = s.rq := rfl
@[simp] theorem State.setCore_arb (s : State) (n) (c) : (s.setCore n c).arb = s.arb := rfl
@[simp] theorem State.setCore_pred (s : State) (n) (c) : (s.setCore n c).pred = s.pred := rfl
@[simp] theorem State.setCore_clus (s : State) (n) (c) : (s.setCore n c).clus = s.clus := rfl
@[simp] theorem State.setCore_camp (s : State) (n) (c) : (s.setCore n c).camp = s.camp := rfl
@[simp] theorem State.setCore_seg (s : State) (n) (c) : (s.setCore n c).seg = s.seg := rfl
@[simp] theorem State.setCore_lnk (s : State) (n) (c) : (s.setCore n c).lnk = s.lnk := rfl
@[simp] theorem State.setCore_audit (s : State) (n) (c) : (s.setCore n c).audit = s.audit := rfl
@[simp] theorem State.setCore_rec_ (s : State) (n) (c) : (s.setCore n c).rec_ = s.rec_ := rfl
@[simp] theorem State.setCore_lock (s : State) (n) (c) : (s.setCore n c).lock = s.lock := rfl
@[simp] theorem State.setCore_img (s : State) (n) (c) : (s.setCore n c).img = s.img := rfl
@[simp] theorem State.setCore_rime (s : State) (n) (c) : (s.setCore n c).rime = s.rime := rfl
@[simp] theorem State.setCore_pwr (s : State) (n) (c) : (s.setCore n c).pwr = s.pwr := rfl
@[simp] theorem State.setCore_su (s : State) (n) (c) : (s.setCore n c).su = s.su := rfl
@[simp] theorem State.setCore_bar (s : State) (n) (c) : (s.setCore n c).bar = s.bar := rfl
@[simp] theorem State.setCore_hostq (s : State) (n) (c) : (s.setCore n c).hostq = s.hostq := rfl
@[simp] theorem State.setCore_gate (s : State) (n) (c) : (s.setCore n c).gate = s.gate := rfl
@[simp] theorem State.setCore_edw (s : State) (n) (c) : (s.setCore n c).edw = s.edw := rfl
@[simp] theorem State.setCore_trc (s : State) (n) (c) : (s.setCore n c).trc = s.trc := rfl
@[simp] theorem State.setCore_tst (s : State) (n) (c) : (s.setCore n c).tst = s.tst := rfl

@[simp] theorem State.setPred_pending (s : State) (n) (i) (p) : (s.setPred n i p).pending = s.pending := rfl
@[simp] theorem State.setPred_out (s : State) (n) (i) (p) : (s.setPred n i p).out = s.out := rfl
@[simp] theorem State.setPred_fresh (s : State) (n) (i) (p) : (s.setPred n i p).fresh = s.fresh := rfl
@[simp] theorem State.setPred_shape (s : State) (n) (i) (p) : (s.setPred n i p).shape = s.shape := rfl
@[simp] theorem State.setPred_pins (s : State) (n) (i) (p) : (s.setPred n i p).pins = s.pins := rfl
@[simp] theorem State.setPred_regs (s : State) (n) (i) (p) : (s.setPred n i p).regs = s.regs := rfl
@[simp] theorem State.setPred_staged (s : State) (n) (i) (p) : (s.setPred n i p).staged = s.staged := rfl
@[simp] theorem State.setPred_once (s : State) (n) (i) (p) : (s.setPred n i p).once = s.once := rfl
@[simp] theorem State.setPred_time (s : State) (n) (i) (p) : (s.setPred n i p).time = s.time := rfl
@[simp] theorem State.setPred_epoch (s : State) (n) (i) (p) : (s.setPred n i p).epoch = s.epoch := rfl
@[simp] theorem State.setPred_src (s : State) (n) (i) (p) : (s.setPred n i p).src = s.src := rfl
@[simp] theorem State.setPred_yar (s : State) (n) (i) (p) : (s.setPred n i p).yar = s.yar := rfl
@[simp] theorem State.setPred_acc (s : State) (n) (i) (p) : (s.setPred n i p).acc = s.acc := rfl
@[simp] theorem State.setPred_firn (s : State) (n) (i) (p) : (s.setPred n i p).firn = s.firn := rfl
@[simp] theorem State.setPred_xb (s : State) (n) (i) (p) : (s.setPred n i p).xb = s.xb := rfl
@[simp] theorem State.setPred_rq (s : State) (n) (i) (p) : (s.setPred n i p).rq = s.rq := rfl
@[simp] theorem State.setPred_arb (s : State) (n) (i) (p) : (s.setPred n i p).arb = s.arb := rfl
@[simp] theorem State.setPred_core (s : State) (n) (i) (p) : (s.setPred n i p).core = s.core := rfl
@[simp] theorem State.setPred_clus (s : State) (n) (i) (p) : (s.setPred n i p).clus = s.clus := rfl
@[simp] theorem State.setPred_camp (s : State) (n) (i) (p) : (s.setPred n i p).camp = s.camp := rfl
@[simp] theorem State.setPred_seg (s : State) (n) (i) (p) : (s.setPred n i p).seg = s.seg := rfl
@[simp] theorem State.setPred_lnk (s : State) (n) (i) (p) : (s.setPred n i p).lnk = s.lnk := rfl
@[simp] theorem State.setPred_audit (s : State) (n) (i) (p) : (s.setPred n i p).audit = s.audit := rfl
@[simp] theorem State.setPred_rec_ (s : State) (n) (i) (p) : (s.setPred n i p).rec_ = s.rec_ := rfl
@[simp] theorem State.setPred_lock (s : State) (n) (i) (p) : (s.setPred n i p).lock = s.lock := rfl
@[simp] theorem State.setPred_img (s : State) (n) (i) (p) : (s.setPred n i p).img = s.img := rfl
@[simp] theorem State.setPred_rime (s : State) (n) (i) (p) : (s.setPred n i p).rime = s.rime := rfl
@[simp] theorem State.setPred_pwr (s : State) (n) (i) (p) : (s.setPred n i p).pwr = s.pwr := rfl
@[simp] theorem State.setPred_su (s : State) (n) (i) (p) : (s.setPred n i p).su = s.su := rfl
@[simp] theorem State.setPred_bar (s : State) (n) (i) (p) : (s.setPred n i p).bar = s.bar := rfl
@[simp] theorem State.setPred_hostq (s : State) (n) (i) (p) : (s.setPred n i p).hostq = s.hostq := rfl
@[simp] theorem State.setPred_gate (s : State) (n) (i) (p) : (s.setPred n i p).gate = s.gate := rfl
@[simp] theorem State.setPred_edw (s : State) (n) (i) (p) : (s.setPred n i p).edw = s.edw := rfl
@[simp] theorem State.setPred_trc (s : State) (n) (i) (p) : (s.setPred n i p).trc = s.trc := rfl
@[simp] theorem State.setPred_tst (s : State) (n) (i) (p) : (s.setPred n i p).tst = s.tst := rfl

@[simp] theorem State.setClus_pending (s : State) (k) (c) : (s.setClus k c).pending = s.pending := rfl
@[simp] theorem State.setClus_out (s : State) (k) (c) : (s.setClus k c).out = s.out := rfl
@[simp] theorem State.setClus_fresh (s : State) (k) (c) : (s.setClus k c).fresh = s.fresh := rfl
@[simp] theorem State.setClus_shape (s : State) (k) (c) : (s.setClus k c).shape = s.shape := rfl
@[simp] theorem State.setClus_pins (s : State) (k) (c) : (s.setClus k c).pins = s.pins := rfl
@[simp] theorem State.setClus_regs (s : State) (k) (c) : (s.setClus k c).regs = s.regs := rfl
@[simp] theorem State.setClus_staged (s : State) (k) (c) : (s.setClus k c).staged = s.staged := rfl
@[simp] theorem State.setClus_once (s : State) (k) (c) : (s.setClus k c).once = s.once := rfl
@[simp] theorem State.setClus_time (s : State) (k) (c) : (s.setClus k c).time = s.time := rfl
@[simp] theorem State.setClus_epoch (s : State) (k) (c) : (s.setClus k c).epoch = s.epoch := rfl
@[simp] theorem State.setClus_src (s : State) (k) (c) : (s.setClus k c).src = s.src := rfl
@[simp] theorem State.setClus_yar (s : State) (k) (c) : (s.setClus k c).yar = s.yar := rfl
@[simp] theorem State.setClus_acc (s : State) (k) (c) : (s.setClus k c).acc = s.acc := rfl
@[simp] theorem State.setClus_firn (s : State) (k) (c) : (s.setClus k c).firn = s.firn := rfl
@[simp] theorem State.setClus_xb (s : State) (k) (c) : (s.setClus k c).xb = s.xb := rfl
@[simp] theorem State.setClus_rq (s : State) (k) (c) : (s.setClus k c).rq = s.rq := rfl
@[simp] theorem State.setClus_arb (s : State) (k) (c) : (s.setClus k c).arb = s.arb := rfl
@[simp] theorem State.setClus_core (s : State) (k) (c) : (s.setClus k c).core = s.core := rfl
@[simp] theorem State.setClus_pred (s : State) (k) (c) : (s.setClus k c).pred = s.pred := rfl
@[simp] theorem State.setClus_camp (s : State) (k) (c) : (s.setClus k c).camp = s.camp := rfl
@[simp] theorem State.setClus_seg (s : State) (k) (c) : (s.setClus k c).seg = s.seg := rfl
@[simp] theorem State.setClus_lnk (s : State) (k) (c) : (s.setClus k c).lnk = s.lnk := rfl
@[simp] theorem State.setClus_audit (s : State) (k) (c) : (s.setClus k c).audit = s.audit := rfl
@[simp] theorem State.setClus_rec_ (s : State) (k) (c) : (s.setClus k c).rec_ = s.rec_ := rfl
@[simp] theorem State.setClus_lock (s : State) (k) (c) : (s.setClus k c).lock = s.lock := rfl
@[simp] theorem State.setClus_img (s : State) (k) (c) : (s.setClus k c).img = s.img := rfl
@[simp] theorem State.setClus_rime (s : State) (k) (c) : (s.setClus k c).rime = s.rime := rfl
@[simp] theorem State.setClus_pwr (s : State) (k) (c) : (s.setClus k c).pwr = s.pwr := rfl
@[simp] theorem State.setClus_su (s : State) (k) (c) : (s.setClus k c).su = s.su := rfl
@[simp] theorem State.setClus_bar (s : State) (k) (c) : (s.setClus k c).bar = s.bar := rfl
@[simp] theorem State.setClus_hostq (s : State) (k) (c) : (s.setClus k c).hostq = s.hostq := rfl
@[simp] theorem State.setClus_gate (s : State) (k) (c) : (s.setClus k c).gate = s.gate := rfl
@[simp] theorem State.setClus_edw (s : State) (k) (c) : (s.setClus k c).edw = s.edw := rfl
@[simp] theorem State.setClus_trc (s : State) (k) (c) : (s.setClus k c).trc = s.trc := rfl
@[simp] theorem State.setClus_tst (s : State) (k) (c) : (s.setClus k c).tst = s.tst := rfl

@[simp] theorem State.setArb_pending (s : State) (a) (b) : (s.setArb a b).pending = s.pending := rfl
@[simp] theorem State.setArb_out (s : State) (a) (b) : (s.setArb a b).out = s.out := rfl
@[simp] theorem State.setArb_fresh (s : State) (a) (b) : (s.setArb a b).fresh = s.fresh := rfl
@[simp] theorem State.setArb_shape (s : State) (a) (b) : (s.setArb a b).shape = s.shape := rfl
@[simp] theorem State.setArb_pins (s : State) (a) (b) : (s.setArb a b).pins = s.pins := rfl
@[simp] theorem State.setArb_regs (s : State) (a) (b) : (s.setArb a b).regs = s.regs := rfl
@[simp] theorem State.setArb_staged (s : State) (a) (b) : (s.setArb a b).staged = s.staged := rfl
@[simp] theorem State.setArb_once (s : State) (a) (b) : (s.setArb a b).once = s.once := rfl
@[simp] theorem State.setArb_time (s : State) (a) (b) : (s.setArb a b).time = s.time := rfl
@[simp] theorem State.setArb_epoch (s : State) (a) (b) : (s.setArb a b).epoch = s.epoch := rfl
@[simp] theorem State.setArb_src (s : State) (a) (b) : (s.setArb a b).src = s.src := rfl
@[simp] theorem State.setArb_yar (s : State) (a) (b) : (s.setArb a b).yar = s.yar := rfl
@[simp] theorem State.setArb_acc (s : State) (a) (b) : (s.setArb a b).acc = s.acc := rfl
@[simp] theorem State.setArb_firn (s : State) (a) (b) : (s.setArb a b).firn = s.firn := rfl
@[simp] theorem State.setArb_xb (s : State) (a) (b) : (s.setArb a b).xb = s.xb := rfl
@[simp] theorem State.setArb_rq (s : State) (a) (b) : (s.setArb a b).rq = s.rq := rfl
@[simp] theorem State.setArb_core (s : State) (a) (b) : (s.setArb a b).core = s.core := rfl
@[simp] theorem State.setArb_pred (s : State) (a) (b) : (s.setArb a b).pred = s.pred := rfl
@[simp] theorem State.setArb_clus (s : State) (a) (b) : (s.setArb a b).clus = s.clus := rfl
@[simp] theorem State.setArb_camp (s : State) (a) (b) : (s.setArb a b).camp = s.camp := rfl
@[simp] theorem State.setArb_seg (s : State) (a) (b) : (s.setArb a b).seg = s.seg := rfl
@[simp] theorem State.setArb_lnk (s : State) (a) (b) : (s.setArb a b).lnk = s.lnk := rfl
@[simp] theorem State.setArb_audit (s : State) (a) (b) : (s.setArb a b).audit = s.audit := rfl
@[simp] theorem State.setArb_rec_ (s : State) (a) (b) : (s.setArb a b).rec_ = s.rec_ := rfl
@[simp] theorem State.setArb_lock (s : State) (a) (b) : (s.setArb a b).lock = s.lock := rfl
@[simp] theorem State.setArb_img (s : State) (a) (b) : (s.setArb a b).img = s.img := rfl
@[simp] theorem State.setArb_rime (s : State) (a) (b) : (s.setArb a b).rime = s.rime := rfl
@[simp] theorem State.setArb_pwr (s : State) (a) (b) : (s.setArb a b).pwr = s.pwr := rfl
@[simp] theorem State.setArb_su (s : State) (a) (b) : (s.setArb a b).su = s.su := rfl
@[simp] theorem State.setArb_bar (s : State) (a) (b) : (s.setArb a b).bar = s.bar := rfl
@[simp] theorem State.setArb_hostq (s : State) (a) (b) : (s.setArb a b).hostq = s.hostq := rfl
@[simp] theorem State.setArb_gate (s : State) (a) (b) : (s.setArb a b).gate = s.gate := rfl
@[simp] theorem State.setArb_edw (s : State) (a) (b) : (s.setArb a b).edw = s.edw := rfl
@[simp] theorem State.setArb_trc (s : State) (a) (b) : (s.setArb a b).trc = s.trc := rfl
@[simp] theorem State.setArb_tst (s : State) (a) (b) : (s.setArb a b).tst = s.tst := rfl

@[simp] theorem State.setPort_pending (s : State) (p) (x) : (s.setPort p x).pending = s.pending := rfl
@[simp] theorem State.setPort_out (s : State) (p) (x) : (s.setPort p x).out = s.out := rfl
@[simp] theorem State.setPort_fresh (s : State) (p) (x) : (s.setPort p x).fresh = s.fresh := rfl
@[simp] theorem State.setPort_shape (s : State) (p) (x) : (s.setPort p x).shape = s.shape := rfl
@[simp] theorem State.setPort_pins (s : State) (p) (x) : (s.setPort p x).pins = s.pins := rfl
@[simp] theorem State.setPort_regs (s : State) (p) (x) : (s.setPort p x).regs = s.regs := rfl
@[simp] theorem State.setPort_staged (s : State) (p) (x) : (s.setPort p x).staged = s.staged := rfl
@[simp] theorem State.setPort_once (s : State) (p) (x) : (s.setPort p x).once = s.once := rfl
@[simp] theorem State.setPort_time (s : State) (p) (x) : (s.setPort p x).time = s.time := rfl
@[simp] theorem State.setPort_epoch (s : State) (p) (x) : (s.setPort p x).epoch = s.epoch := rfl
@[simp] theorem State.setPort_src (s : State) (p) (x) : (s.setPort p x).src = s.src := rfl
@[simp] theorem State.setPort_yar (s : State) (p) (x) : (s.setPort p x).yar = s.yar := rfl
@[simp] theorem State.setPort_acc (s : State) (p) (x) : (s.setPort p x).acc = s.acc := rfl
@[simp] theorem State.setPort_firn (s : State) (p) (x) : (s.setPort p x).firn = s.firn := rfl
@[simp] theorem State.setPort_xb (s : State) (p) (x) : (s.setPort p x).xb = s.xb := rfl
@[simp] theorem State.setPort_rq (s : State) (p) (x) : (s.setPort p x).rq = s.rq := rfl
@[simp] theorem State.setPort_arb (s : State) (p) (x) : (s.setPort p x).arb = s.arb := rfl
@[simp] theorem State.setPort_core (s : State) (p) (x) : (s.setPort p x).core = s.core := rfl
@[simp] theorem State.setPort_pred (s : State) (p) (x) : (s.setPort p x).pred = s.pred := rfl
@[simp] theorem State.setPort_clus (s : State) (p) (x) : (s.setPort p x).clus = s.clus := rfl
@[simp] theorem State.setPort_camp (s : State) (p) (x) : (s.setPort p x).camp = s.camp := rfl
@[simp] theorem State.setPort_seg (s : State) (p) (x) : (s.setPort p x).seg = s.seg := rfl
@[simp] theorem State.setPort_audit (s : State) (p) (x) : (s.setPort p x).audit = s.audit := rfl
@[simp] theorem State.setPort_rec_ (s : State) (p) (x) : (s.setPort p x).rec_ = s.rec_ := rfl
@[simp] theorem State.setPort_lock (s : State) (p) (x) : (s.setPort p x).lock = s.lock := rfl
@[simp] theorem State.setPort_img (s : State) (p) (x) : (s.setPort p x).img = s.img := rfl
@[simp] theorem State.setPort_rime (s : State) (p) (x) : (s.setPort p x).rime = s.rime := rfl
@[simp] theorem State.setPort_pwr (s : State) (p) (x) : (s.setPort p x).pwr = s.pwr := rfl
@[simp] theorem State.setPort_su (s : State) (p) (x) : (s.setPort p x).su = s.su := rfl
@[simp] theorem State.setPort_bar (s : State) (p) (x) : (s.setPort p x).bar = s.bar := rfl
@[simp] theorem State.setPort_hostq (s : State) (p) (x) : (s.setPort p x).hostq = s.hostq := rfl
@[simp] theorem State.setPort_gate (s : State) (p) (x) : (s.setPort p x).gate = s.gate := rfl
@[simp] theorem State.setPort_edw (s : State) (p) (x) : (s.setPort p x).edw = s.edw := rfl
@[simp] theorem State.setPort_trc (s : State) (p) (x) : (s.setPort p x).trc = s.trc := rfl
@[simp] theorem State.setPort_tst (s : State) (p) (x) : (s.setPort p x).tst = s.tst := rfl

@[simp] theorem State.setLock_pending (s : State) (i) (l) : (s.setLock i l).pending = s.pending := rfl
@[simp] theorem State.setLock_out (s : State) (i) (l) : (s.setLock i l).out = s.out := rfl
@[simp] theorem State.setLock_fresh (s : State) (i) (l) : (s.setLock i l).fresh = s.fresh := rfl
@[simp] theorem State.setLock_shape (s : State) (i) (l) : (s.setLock i l).shape = s.shape := rfl
@[simp] theorem State.setLock_pins (s : State) (i) (l) : (s.setLock i l).pins = s.pins := rfl
@[simp] theorem State.setLock_regs (s : State) (i) (l) : (s.setLock i l).regs = s.regs := rfl
@[simp] theorem State.setLock_staged (s : State) (i) (l) : (s.setLock i l).staged = s.staged := rfl
@[simp] theorem State.setLock_once (s : State) (i) (l) : (s.setLock i l).once = s.once := rfl
@[simp] theorem State.setLock_time (s : State) (i) (l) : (s.setLock i l).time = s.time := rfl
@[simp] theorem State.setLock_epoch (s : State) (i) (l) : (s.setLock i l).epoch = s.epoch := rfl
@[simp] theorem State.setLock_src (s : State) (i) (l) : (s.setLock i l).src = s.src := rfl
@[simp] theorem State.setLock_yar (s : State) (i) (l) : (s.setLock i l).yar = s.yar := rfl
@[simp] theorem State.setLock_acc (s : State) (i) (l) : (s.setLock i l).acc = s.acc := rfl
@[simp] theorem State.setLock_firn (s : State) (i) (l) : (s.setLock i l).firn = s.firn := rfl
@[simp] theorem State.setLock_xb (s : State) (i) (l) : (s.setLock i l).xb = s.xb := rfl
@[simp] theorem State.setLock_rq (s : State) (i) (l) : (s.setLock i l).rq = s.rq := rfl
@[simp] theorem State.setLock_arb (s : State) (i) (l) : (s.setLock i l).arb = s.arb := rfl
@[simp] theorem State.setLock_core (s : State) (i) (l) : (s.setLock i l).core = s.core := rfl
@[simp] theorem State.setLock_pred (s : State) (i) (l) : (s.setLock i l).pred = s.pred := rfl
@[simp] theorem State.setLock_clus (s : State) (i) (l) : (s.setLock i l).clus = s.clus := rfl
@[simp] theorem State.setLock_camp (s : State) (i) (l) : (s.setLock i l).camp = s.camp := rfl
@[simp] theorem State.setLock_seg (s : State) (i) (l) : (s.setLock i l).seg = s.seg := rfl
@[simp] theorem State.setLock_lnk (s : State) (i) (l) : (s.setLock i l).lnk = s.lnk := rfl
@[simp] theorem State.setLock_audit (s : State) (i) (l) : (s.setLock i l).audit = s.audit := rfl
@[simp] theorem State.setLock_rec_ (s : State) (i) (l) : (s.setLock i l).rec_ = s.rec_ := rfl
@[simp] theorem State.setLock_img (s : State) (i) (l) : (s.setLock i l).img = s.img := rfl
@[simp] theorem State.setLock_rime (s : State) (i) (l) : (s.setLock i l).rime = s.rime := rfl
@[simp] theorem State.setLock_pwr (s : State) (i) (l) : (s.setLock i l).pwr = s.pwr := rfl
@[simp] theorem State.setLock_su (s : State) (i) (l) : (s.setLock i l).su = s.su := rfl
@[simp] theorem State.setLock_bar (s : State) (i) (l) : (s.setLock i l).bar = s.bar := rfl
@[simp] theorem State.setLock_hostq (s : State) (i) (l) : (s.setLock i l).hostq = s.hostq := rfl
@[simp] theorem State.setLock_gate (s : State) (i) (l) : (s.setLock i l).gate = s.gate := rfl
@[simp] theorem State.setLock_edw (s : State) (i) (l) : (s.setLock i l).edw = s.edw := rfl
@[simp] theorem State.setLock_trc (s : State) (i) (l) : (s.setLock i l).trc = s.trc := rfl
@[simp] theorem State.setLock_tst (s : State) (i) (l) : (s.setLock i l).tst = s.tst := rfl

@[simp] theorem State.setLatch_pending (s : State) (i) (l) : (s.setLatch i l).pending = s.pending := rfl
@[simp] theorem State.setLatch_out (s : State) (i) (l) : (s.setLatch i l).out = s.out := rfl
@[simp] theorem State.setLatch_fresh (s : State) (i) (l) : (s.setLatch i l).fresh = s.fresh := rfl
@[simp] theorem State.setLatch_shape (s : State) (i) (l) : (s.setLatch i l).shape = s.shape := rfl
@[simp] theorem State.setLatch_pins (s : State) (i) (l) : (s.setLatch i l).pins = s.pins := rfl
@[simp] theorem State.setLatch_regs (s : State) (i) (l) : (s.setLatch i l).regs = s.regs := rfl
@[simp] theorem State.setLatch_staged (s : State) (i) (l) : (s.setLatch i l).staged = s.staged := rfl
@[simp] theorem State.setLatch_once (s : State) (i) (l) : (s.setLatch i l).once = s.once := rfl
@[simp] theorem State.setLatch_time (s : State) (i) (l) : (s.setLatch i l).time = s.time := rfl
@[simp] theorem State.setLatch_epoch (s : State) (i) (l) : (s.setLatch i l).epoch = s.epoch := rfl
@[simp] theorem State.setLatch_yar (s : State) (i) (l) : (s.setLatch i l).yar = s.yar := rfl
@[simp] theorem State.setLatch_acc (s : State) (i) (l) : (s.setLatch i l).acc = s.acc := rfl
@[simp] theorem State.setLatch_firn (s : State) (i) (l) : (s.setLatch i l).firn = s.firn := rfl
@[simp] theorem State.setLatch_xb (s : State) (i) (l) : (s.setLatch i l).xb = s.xb := rfl
@[simp] theorem State.setLatch_rq (s : State) (i) (l) : (s.setLatch i l).rq = s.rq := rfl
@[simp] theorem State.setLatch_arb (s : State) (i) (l) : (s.setLatch i l).arb = s.arb := rfl
@[simp] theorem State.setLatch_core (s : State) (i) (l) : (s.setLatch i l).core = s.core := rfl
@[simp] theorem State.setLatch_pred (s : State) (i) (l) : (s.setLatch i l).pred = s.pred := rfl
@[simp] theorem State.setLatch_clus (s : State) (i) (l) : (s.setLatch i l).clus = s.clus := rfl
@[simp] theorem State.setLatch_camp (s : State) (i) (l) : (s.setLatch i l).camp = s.camp := rfl
@[simp] theorem State.setLatch_seg (s : State) (i) (l) : (s.setLatch i l).seg = s.seg := rfl
@[simp] theorem State.setLatch_lnk (s : State) (i) (l) : (s.setLatch i l).lnk = s.lnk := rfl
@[simp] theorem State.setLatch_audit (s : State) (i) (l) : (s.setLatch i l).audit = s.audit := rfl
@[simp] theorem State.setLatch_rec_ (s : State) (i) (l) : (s.setLatch i l).rec_ = s.rec_ := rfl
@[simp] theorem State.setLatch_lock (s : State) (i) (l) : (s.setLatch i l).lock = s.lock := rfl
@[simp] theorem State.setLatch_img (s : State) (i) (l) : (s.setLatch i l).img = s.img := rfl
@[simp] theorem State.setLatch_rime (s : State) (i) (l) : (s.setLatch i l).rime = s.rime := rfl
@[simp] theorem State.setLatch_pwr (s : State) (i) (l) : (s.setLatch i l).pwr = s.pwr := rfl
@[simp] theorem State.setLatch_su (s : State) (i) (l) : (s.setLatch i l).su = s.su := rfl
@[simp] theorem State.setLatch_bar (s : State) (i) (l) : (s.setLatch i l).bar = s.bar := rfl
@[simp] theorem State.setLatch_hostq (s : State) (i) (l) : (s.setLatch i l).hostq = s.hostq := rfl
@[simp] theorem State.setLatch_gate (s : State) (i) (l) : (s.setLatch i l).gate = s.gate := rfl
@[simp] theorem State.setLatch_edw (s : State) (i) (l) : (s.setLatch i l).edw = s.edw := rfl
@[simp] theorem State.setLatch_trc (s : State) (i) (l) : (s.setLatch i l).trc = s.trc := rfl
@[simp] theorem State.setLatch_tst (s : State) (i) (l) : (s.setLatch i l).tst = s.tst := rfl

@[simp] theorem State.setRec_pending (s : State) (i) (r) : (s.setRec i r).pending = s.pending := rfl
@[simp] theorem State.setRec_out (s : State) (i) (r) : (s.setRec i r).out = s.out := rfl
@[simp] theorem State.setRec_fresh (s : State) (i) (r) : (s.setRec i r).fresh = s.fresh := rfl
@[simp] theorem State.setRec_shape (s : State) (i) (r) : (s.setRec i r).shape = s.shape := rfl
@[simp] theorem State.setRec_pins (s : State) (i) (r) : (s.setRec i r).pins = s.pins := rfl
@[simp] theorem State.setRec_regs (s : State) (i) (r) : (s.setRec i r).regs = s.regs := rfl
@[simp] theorem State.setRec_staged (s : State) (i) (r) : (s.setRec i r).staged = s.staged := rfl
@[simp] theorem State.setRec_once (s : State) (i) (r) : (s.setRec i r).once = s.once := rfl
@[simp] theorem State.setRec_time (s : State) (i) (r) : (s.setRec i r).time = s.time := rfl
@[simp] theorem State.setRec_epoch (s : State) (i) (r) : (s.setRec i r).epoch = s.epoch := rfl
@[simp] theorem State.setRec_src (s : State) (i) (r) : (s.setRec i r).src = s.src := rfl
@[simp] theorem State.setRec_yar (s : State) (i) (r) : (s.setRec i r).yar = s.yar := rfl
@[simp] theorem State.setRec_acc (s : State) (i) (r) : (s.setRec i r).acc = s.acc := rfl
@[simp] theorem State.setRec_xb (s : State) (i) (r) : (s.setRec i r).xb = s.xb := rfl
@[simp] theorem State.setRec_rq (s : State) (i) (r) : (s.setRec i r).rq = s.rq := rfl
@[simp] theorem State.setRec_arb (s : State) (i) (r) : (s.setRec i r).arb = s.arb := rfl
@[simp] theorem State.setRec_core (s : State) (i) (r) : (s.setRec i r).core = s.core := rfl
@[simp] theorem State.setRec_pred (s : State) (i) (r) : (s.setRec i r).pred = s.pred := rfl
@[simp] theorem State.setRec_clus (s : State) (i) (r) : (s.setRec i r).clus = s.clus := rfl
@[simp] theorem State.setRec_camp (s : State) (i) (r) : (s.setRec i r).camp = s.camp := rfl
@[simp] theorem State.setRec_seg (s : State) (i) (r) : (s.setRec i r).seg = s.seg := rfl
@[simp] theorem State.setRec_lnk (s : State) (i) (r) : (s.setRec i r).lnk = s.lnk := rfl
@[simp] theorem State.setRec_audit (s : State) (i) (r) : (s.setRec i r).audit = s.audit := rfl
@[simp] theorem State.setRec_rec_ (s : State) (i) (r) : (s.setRec i r).rec_ = s.rec_ := rfl
@[simp] theorem State.setRec_lock (s : State) (i) (r) : (s.setRec i r).lock = s.lock := rfl
@[simp] theorem State.setRec_img (s : State) (i) (r) : (s.setRec i r).img = s.img := rfl
@[simp] theorem State.setRec_rime (s : State) (i) (r) : (s.setRec i r).rime = s.rime := rfl
@[simp] theorem State.setRec_pwr (s : State) (i) (r) : (s.setRec i r).pwr = s.pwr := rfl
@[simp] theorem State.setRec_su (s : State) (i) (r) : (s.setRec i r).su = s.su := rfl
@[simp] theorem State.setRec_bar (s : State) (i) (r) : (s.setRec i r).bar = s.bar := rfl
@[simp] theorem State.setRec_hostq (s : State) (i) (r) : (s.setRec i r).hostq = s.hostq := rfl
@[simp] theorem State.setRec_gate (s : State) (i) (r) : (s.setRec i r).gate = s.gate := rfl
@[simp] theorem State.setRec_edw (s : State) (i) (r) : (s.setRec i r).edw = s.edw := rfl
@[simp] theorem State.setRec_trc (s : State) (i) (r) : (s.setRec i r).trc = s.trc := rfl
@[simp] theorem State.setRec_tst (s : State) (i) (r) : (s.setRec i r).tst = s.tst := rfl

@[simp] theorem State.setBuf_pending (s : State) (k) (l) : (s.setBuf k l).pending = s.pending := rfl
@[simp] theorem State.setBuf_out (s : State) (k) (l) : (s.setBuf k l).out = s.out := rfl
@[simp] theorem State.setBuf_fresh (s : State) (k) (l) : (s.setBuf k l).fresh = s.fresh := rfl
@[simp] theorem State.setBuf_shape (s : State) (k) (l) : (s.setBuf k l).shape = s.shape := rfl
@[simp] theorem State.setBuf_pins (s : State) (k) (l) : (s.setBuf k l).pins = s.pins := rfl
@[simp] theorem State.setBuf_regs (s : State) (k) (l) : (s.setBuf k l).regs = s.regs := rfl
@[simp] theorem State.setBuf_staged (s : State) (k) (l) : (s.setBuf k l).staged = s.staged := rfl
@[simp] theorem State.setBuf_once (s : State) (k) (l) : (s.setBuf k l).once = s.once := rfl
@[simp] theorem State.setBuf_time (s : State) (k) (l) : (s.setBuf k l).time = s.time := rfl
@[simp] theorem State.setBuf_epoch (s : State) (k) (l) : (s.setBuf k l).epoch = s.epoch := rfl
@[simp] theorem State.setBuf_src (s : State) (k) (l) : (s.setBuf k l).src = s.src := rfl
@[simp] theorem State.setBuf_yar (s : State) (k) (l) : (s.setBuf k l).yar = s.yar := rfl
@[simp] theorem State.setBuf_acc (s : State) (k) (l) : (s.setBuf k l).acc = s.acc := rfl
@[simp] theorem State.setBuf_firn (s : State) (k) (l) : (s.setBuf k l).firn = s.firn := rfl
@[simp] theorem State.setBuf_rq (s : State) (k) (l) : (s.setBuf k l).rq = s.rq := rfl
@[simp] theorem State.setBuf_arb (s : State) (k) (l) : (s.setBuf k l).arb = s.arb := rfl
@[simp] theorem State.setBuf_core (s : State) (k) (l) : (s.setBuf k l).core = s.core := rfl
@[simp] theorem State.setBuf_pred (s : State) (k) (l) : (s.setBuf k l).pred = s.pred := rfl
@[simp] theorem State.setBuf_clus (s : State) (k) (l) : (s.setBuf k l).clus = s.clus := rfl
@[simp] theorem State.setBuf_camp (s : State) (k) (l) : (s.setBuf k l).camp = s.camp := rfl
@[simp] theorem State.setBuf_seg (s : State) (k) (l) : (s.setBuf k l).seg = s.seg := rfl
@[simp] theorem State.setBuf_lnk (s : State) (k) (l) : (s.setBuf k l).lnk = s.lnk := rfl
@[simp] theorem State.setBuf_audit (s : State) (k) (l) : (s.setBuf k l).audit = s.audit := rfl
@[simp] theorem State.setBuf_rec_ (s : State) (k) (l) : (s.setBuf k l).rec_ = s.rec_ := rfl
@[simp] theorem State.setBuf_lock (s : State) (k) (l) : (s.setBuf k l).lock = s.lock := rfl
@[simp] theorem State.setBuf_img (s : State) (k) (l) : (s.setBuf k l).img = s.img := rfl
@[simp] theorem State.setBuf_rime (s : State) (k) (l) : (s.setBuf k l).rime = s.rime := rfl
@[simp] theorem State.setBuf_pwr (s : State) (k) (l) : (s.setBuf k l).pwr = s.pwr := rfl
@[simp] theorem State.setBuf_su (s : State) (k) (l) : (s.setBuf k l).su = s.su := rfl
@[simp] theorem State.setBuf_bar (s : State) (k) (l) : (s.setBuf k l).bar = s.bar := rfl
@[simp] theorem State.setBuf_hostq (s : State) (k) (l) : (s.setBuf k l).hostq = s.hostq := rfl
@[simp] theorem State.setBuf_gate (s : State) (k) (l) : (s.setBuf k l).gate = s.gate := rfl
@[simp] theorem State.setBuf_edw (s : State) (k) (l) : (s.setBuf k l).edw = s.edw := rfl
@[simp] theorem State.setBuf_trc (s : State) (k) (l) : (s.setBuf k l).trc = s.trc := rfl
@[simp] theorem State.setBuf_tst (s : State) (k) (l) : (s.setBuf k l).tst = s.tst := rfl

@[simp] theorem State.setStaging_pending (s : State) (i) (l) : (s.setStaging i l).pending = s.pending := rfl
@[simp] theorem State.setStaging_out (s : State) (i) (l) : (s.setStaging i l).out = s.out := rfl
@[simp] theorem State.setStaging_fresh (s : State) (i) (l) : (s.setStaging i l).fresh = s.fresh := rfl
@[simp] theorem State.setStaging_shape (s : State) (i) (l) : (s.setStaging i l).shape = s.shape := rfl
@[simp] theorem State.setStaging_pins (s : State) (i) (l) : (s.setStaging i l).pins = s.pins := rfl
@[simp] theorem State.setStaging_regs (s : State) (i) (l) : (s.setStaging i l).regs = s.regs := rfl
@[simp] theorem State.setStaging_staged (s : State) (i) (l) : (s.setStaging i l).staged = s.staged := rfl
@[simp] theorem State.setStaging_once (s : State) (i) (l) : (s.setStaging i l).once = s.once := rfl
@[simp] theorem State.setStaging_time (s : State) (i) (l) : (s.setStaging i l).time = s.time := rfl
@[simp] theorem State.setStaging_epoch (s : State) (i) (l) : (s.setStaging i l).epoch = s.epoch := rfl
@[simp] theorem State.setStaging_src (s : State) (i) (l) : (s.setStaging i l).src = s.src := rfl
@[simp] theorem State.setStaging_yar (s : State) (i) (l) : (s.setStaging i l).yar = s.yar := rfl
@[simp] theorem State.setStaging_acc (s : State) (i) (l) : (s.setStaging i l).acc = s.acc := rfl
@[simp] theorem State.setStaging_firn (s : State) (i) (l) : (s.setStaging i l).firn = s.firn := rfl
@[simp] theorem State.setStaging_rq (s : State) (i) (l) : (s.setStaging i l).rq = s.rq := rfl
@[simp] theorem State.setStaging_arb (s : State) (i) (l) : (s.setStaging i l).arb = s.arb := rfl
@[simp] theorem State.setStaging_core (s : State) (i) (l) : (s.setStaging i l).core = s.core := rfl
@[simp] theorem State.setStaging_pred (s : State) (i) (l) : (s.setStaging i l).pred = s.pred := rfl
@[simp] theorem State.setStaging_clus (s : State) (i) (l) : (s.setStaging i l).clus = s.clus := rfl
@[simp] theorem State.setStaging_camp (s : State) (i) (l) : (s.setStaging i l).camp = s.camp := rfl
@[simp] theorem State.setStaging_seg (s : State) (i) (l) : (s.setStaging i l).seg = s.seg := rfl
@[simp] theorem State.setStaging_lnk (s : State) (i) (l) : (s.setStaging i l).lnk = s.lnk := rfl
@[simp] theorem State.setStaging_audit (s : State) (i) (l) : (s.setStaging i l).audit = s.audit := rfl
@[simp] theorem State.setStaging_rec_ (s : State) (i) (l) : (s.setStaging i l).rec_ = s.rec_ := rfl
@[simp] theorem State.setStaging_lock (s : State) (i) (l) : (s.setStaging i l).lock = s.lock := rfl
@[simp] theorem State.setStaging_img (s : State) (i) (l) : (s.setStaging i l).img = s.img := rfl
@[simp] theorem State.setStaging_rime (s : State) (i) (l) : (s.setStaging i l).rime = s.rime := rfl
@[simp] theorem State.setStaging_pwr (s : State) (i) (l) : (s.setStaging i l).pwr = s.pwr := rfl
@[simp] theorem State.setStaging_su (s : State) (i) (l) : (s.setStaging i l).su = s.su := rfl
@[simp] theorem State.setStaging_bar (s : State) (i) (l) : (s.setStaging i l).bar = s.bar := rfl
@[simp] theorem State.setStaging_hostq (s : State) (i) (l) : (s.setStaging i l).hostq = s.hostq := rfl
@[simp] theorem State.setStaging_gate (s : State) (i) (l) : (s.setStaging i l).gate = s.gate := rfl
@[simp] theorem State.setStaging_edw (s : State) (i) (l) : (s.setStaging i l).edw = s.edw := rfl
@[simp] theorem State.setStaging_trc (s : State) (i) (l) : (s.setStaging i l).trc = s.trc := rfl
@[simp] theorem State.setStaging_tst (s : State) (i) (l) : (s.setStaging i l).tst = s.tst := rfl

@[simp] theorem State.setRing_pending (s : State) (i) (l) : (s.setRing i l).pending = s.pending := rfl
@[simp] theorem State.setRing_out (s : State) (i) (l) : (s.setRing i l).out = s.out := rfl
@[simp] theorem State.setRing_fresh (s : State) (i) (l) : (s.setRing i l).fresh = s.fresh := rfl
@[simp] theorem State.setRing_shape (s : State) (i) (l) : (s.setRing i l).shape = s.shape := rfl
@[simp] theorem State.setRing_pins (s : State) (i) (l) : (s.setRing i l).pins = s.pins := rfl
@[simp] theorem State.setRing_regs (s : State) (i) (l) : (s.setRing i l).regs = s.regs := rfl
@[simp] theorem State.setRing_staged (s : State) (i) (l) : (s.setRing i l).staged = s.staged := rfl
@[simp] theorem State.setRing_once (s : State) (i) (l) : (s.setRing i l).once = s.once := rfl
@[simp] theorem State.setRing_time (s : State) (i) (l) : (s.setRing i l).time = s.time := rfl
@[simp] theorem State.setRing_epoch (s : State) (i) (l) : (s.setRing i l).epoch = s.epoch := rfl
@[simp] theorem State.setRing_src (s : State) (i) (l) : (s.setRing i l).src = s.src := rfl
@[simp] theorem State.setRing_yar (s : State) (i) (l) : (s.setRing i l).yar = s.yar := rfl
@[simp] theorem State.setRing_acc (s : State) (i) (l) : (s.setRing i l).acc = s.acc := rfl
@[simp] theorem State.setRing_firn (s : State) (i) (l) : (s.setRing i l).firn = s.firn := rfl
@[simp] theorem State.setRing_rq (s : State) (i) (l) : (s.setRing i l).rq = s.rq := rfl
@[simp] theorem State.setRing_arb (s : State) (i) (l) : (s.setRing i l).arb = s.arb := rfl
@[simp] theorem State.setRing_core (s : State) (i) (l) : (s.setRing i l).core = s.core := rfl
@[simp] theorem State.setRing_pred (s : State) (i) (l) : (s.setRing i l).pred = s.pred := rfl
@[simp] theorem State.setRing_clus (s : State) (i) (l) : (s.setRing i l).clus = s.clus := rfl
@[simp] theorem State.setRing_camp (s : State) (i) (l) : (s.setRing i l).camp = s.camp := rfl
@[simp] theorem State.setRing_seg (s : State) (i) (l) : (s.setRing i l).seg = s.seg := rfl
@[simp] theorem State.setRing_lnk (s : State) (i) (l) : (s.setRing i l).lnk = s.lnk := rfl
@[simp] theorem State.setRing_audit (s : State) (i) (l) : (s.setRing i l).audit = s.audit := rfl
@[simp] theorem State.setRing_rec_ (s : State) (i) (l) : (s.setRing i l).rec_ = s.rec_ := rfl
@[simp] theorem State.setRing_lock (s : State) (i) (l) : (s.setRing i l).lock = s.lock := rfl
@[simp] theorem State.setRing_img (s : State) (i) (l) : (s.setRing i l).img = s.img := rfl
@[simp] theorem State.setRing_rime (s : State) (i) (l) : (s.setRing i l).rime = s.rime := rfl
@[simp] theorem State.setRing_pwr (s : State) (i) (l) : (s.setRing i l).pwr = s.pwr := rfl
@[simp] theorem State.setRing_su (s : State) (i) (l) : (s.setRing i l).su = s.su := rfl
@[simp] theorem State.setRing_bar (s : State) (i) (l) : (s.setRing i l).bar = s.bar := rfl
@[simp] theorem State.setRing_hostq (s : State) (i) (l) : (s.setRing i l).hostq = s.hostq := rfl
@[simp] theorem State.setRing_gate (s : State) (i) (l) : (s.setRing i l).gate = s.gate := rfl
@[simp] theorem State.setRing_edw (s : State) (i) (l) : (s.setRing i l).edw = s.edw := rfl
@[simp] theorem State.setRing_trc (s : State) (i) (l) : (s.setRing i l).trc = s.trc := rfl
@[simp] theorem State.setRing_tst (s : State) (i) (l) : (s.setRing i l).tst = s.tst := rfl

@[simp] theorem State.setResv_pending (s : State) (k) (n) : (s.setResv k n).pending = s.pending := rfl
@[simp] theorem State.setResv_out (s : State) (k) (n) : (s.setResv k n).out = s.out := rfl
@[simp] theorem State.setResv_fresh (s : State) (k) (n) : (s.setResv k n).fresh = s.fresh := rfl
@[simp] theorem State.setResv_shape (s : State) (k) (n) : (s.setResv k n).shape = s.shape := rfl
@[simp] theorem State.setResv_pins (s : State) (k) (n) : (s.setResv k n).pins = s.pins := rfl
@[simp] theorem State.setResv_regs (s : State) (k) (n) : (s.setResv k n).regs = s.regs := rfl
@[simp] theorem State.setResv_staged (s : State) (k) (n) : (s.setResv k n).staged = s.staged := rfl
@[simp] theorem State.setResv_once (s : State) (k) (n) : (s.setResv k n).once = s.once := rfl
@[simp] theorem State.setResv_time (s : State) (k) (n) : (s.setResv k n).time = s.time := rfl
@[simp] theorem State.setResv_epoch (s : State) (k) (n) : (s.setResv k n).epoch = s.epoch := rfl
@[simp] theorem State.setResv_src (s : State) (k) (n) : (s.setResv k n).src = s.src := rfl
@[simp] theorem State.setResv_yar (s : State) (k) (n) : (s.setResv k n).yar = s.yar := rfl
@[simp] theorem State.setResv_acc (s : State) (k) (n) : (s.setResv k n).acc = s.acc := rfl
@[simp] theorem State.setResv_firn (s : State) (k) (n) : (s.setResv k n).firn = s.firn := rfl
@[simp] theorem State.setResv_rq (s : State) (k) (n) : (s.setResv k n).rq = s.rq := rfl
@[simp] theorem State.setResv_arb (s : State) (k) (n) : (s.setResv k n).arb = s.arb := rfl
@[simp] theorem State.setResv_core (s : State) (k) (n) : (s.setResv k n).core = s.core := rfl
@[simp] theorem State.setResv_pred (s : State) (k) (n) : (s.setResv k n).pred = s.pred := rfl
@[simp] theorem State.setResv_clus (s : State) (k) (n) : (s.setResv k n).clus = s.clus := rfl
@[simp] theorem State.setResv_camp (s : State) (k) (n) : (s.setResv k n).camp = s.camp := rfl
@[simp] theorem State.setResv_seg (s : State) (k) (n) : (s.setResv k n).seg = s.seg := rfl
@[simp] theorem State.setResv_lnk (s : State) (k) (n) : (s.setResv k n).lnk = s.lnk := rfl
@[simp] theorem State.setResv_audit (s : State) (k) (n) : (s.setResv k n).audit = s.audit := rfl
@[simp] theorem State.setResv_rec_ (s : State) (k) (n) : (s.setResv k n).rec_ = s.rec_ := rfl
@[simp] theorem State.setResv_lock (s : State) (k) (n) : (s.setResv k n).lock = s.lock := rfl
@[simp] theorem State.setResv_img (s : State) (k) (n) : (s.setResv k n).img = s.img := rfl
@[simp] theorem State.setResv_rime (s : State) (k) (n) : (s.setResv k n).rime = s.rime := rfl
@[simp] theorem State.setResv_pwr (s : State) (k) (n) : (s.setResv k n).pwr = s.pwr := rfl
@[simp] theorem State.setResv_su (s : State) (k) (n) : (s.setResv k n).su = s.su := rfl
@[simp] theorem State.setResv_bar (s : State) (k) (n) : (s.setResv k n).bar = s.bar := rfl
@[simp] theorem State.setResv_hostq (s : State) (k) (n) : (s.setResv k n).hostq = s.hostq := rfl
@[simp] theorem State.setResv_gate (s : State) (k) (n) : (s.setResv k n).gate = s.gate := rfl
@[simp] theorem State.setResv_edw (s : State) (k) (n) : (s.setResv k n).edw = s.edw := rfl
@[simp] theorem State.setResv_trc (s : State) (k) (n) : (s.setResv k n).trc = s.trc := rfl
@[simp] theorem State.setResv_tst (s : State) (k) (n) : (s.setResv k n).tst = s.tst := rfl

@[simp] theorem State.setCrossing_pending (s : State) (r) (l) : (s.setCrossing r l).pending = s.pending := rfl
@[simp] theorem State.setCrossing_out (s : State) (r) (l) : (s.setCrossing r l).out = s.out := rfl
@[simp] theorem State.setCrossing_fresh (s : State) (r) (l) : (s.setCrossing r l).fresh = s.fresh := rfl
@[simp] theorem State.setCrossing_shape (s : State) (r) (l) : (s.setCrossing r l).shape = s.shape := rfl
@[simp] theorem State.setCrossing_pins (s : State) (r) (l) : (s.setCrossing r l).pins = s.pins := rfl
@[simp] theorem State.setCrossing_regs (s : State) (r) (l) : (s.setCrossing r l).regs = s.regs := rfl
@[simp] theorem State.setCrossing_staged (s : State) (r) (l) : (s.setCrossing r l).staged = s.staged := rfl
@[simp] theorem State.setCrossing_once (s : State) (r) (l) : (s.setCrossing r l).once = s.once := rfl
@[simp] theorem State.setCrossing_time (s : State) (r) (l) : (s.setCrossing r l).time = s.time := rfl
@[simp] theorem State.setCrossing_epoch (s : State) (r) (l) : (s.setCrossing r l).epoch = s.epoch := rfl
@[simp] theorem State.setCrossing_src (s : State) (r) (l) : (s.setCrossing r l).src = s.src := rfl
@[simp] theorem State.setCrossing_yar (s : State) (r) (l) : (s.setCrossing r l).yar = s.yar := rfl
@[simp] theorem State.setCrossing_acc (s : State) (r) (l) : (s.setCrossing r l).acc = s.acc := rfl
@[simp] theorem State.setCrossing_firn (s : State) (r) (l) : (s.setCrossing r l).firn = s.firn := rfl
@[simp] theorem State.setCrossing_xb (s : State) (r) (l) : (s.setCrossing r l).xb = s.xb := rfl
@[simp] theorem State.setCrossing_arb (s : State) (r) (l) : (s.setCrossing r l).arb = s.arb := rfl
@[simp] theorem State.setCrossing_core (s : State) (r) (l) : (s.setCrossing r l).core = s.core := rfl
@[simp] theorem State.setCrossing_pred (s : State) (r) (l) : (s.setCrossing r l).pred = s.pred := rfl
@[simp] theorem State.setCrossing_clus (s : State) (r) (l) : (s.setCrossing r l).clus = s.clus := rfl
@[simp] theorem State.setCrossing_camp (s : State) (r) (l) : (s.setCrossing r l).camp = s.camp := rfl
@[simp] theorem State.setCrossing_seg (s : State) (r) (l) : (s.setCrossing r l).seg = s.seg := rfl
@[simp] theorem State.setCrossing_lnk (s : State) (r) (l) : (s.setCrossing r l).lnk = s.lnk := rfl
@[simp] theorem State.setCrossing_audit (s : State) (r) (l) : (s.setCrossing r l).audit = s.audit := rfl
@[simp] theorem State.setCrossing_rec_ (s : State) (r) (l) : (s.setCrossing r l).rec_ = s.rec_ := rfl
@[simp] theorem State.setCrossing_lock (s : State) (r) (l) : (s.setCrossing r l).lock = s.lock := rfl
@[simp] theorem State.setCrossing_img (s : State) (r) (l) : (s.setCrossing r l).img = s.img := rfl
@[simp] theorem State.setCrossing_rime (s : State) (r) (l) : (s.setCrossing r l).rime = s.rime := rfl
@[simp] theorem State.setCrossing_pwr (s : State) (r) (l) : (s.setCrossing r l).pwr = s.pwr := rfl
@[simp] theorem State.setCrossing_su (s : State) (r) (l) : (s.setCrossing r l).su = s.su := rfl
@[simp] theorem State.setCrossing_bar (s : State) (r) (l) : (s.setCrossing r l).bar = s.bar := rfl
@[simp] theorem State.setCrossing_hostq (s : State) (r) (l) : (s.setCrossing r l).hostq = s.hostq := rfl
@[simp] theorem State.setCrossing_gate (s : State) (r) (l) : (s.setCrossing r l).gate = s.gate := rfl
@[simp] theorem State.setCrossing_edw (s : State) (r) (l) : (s.setCrossing r l).edw = s.edw := rfl
@[simp] theorem State.setCrossing_trc (s : State) (r) (l) : (s.setCrossing r l).trc = s.trc := rfl
@[simp] theorem State.setCrossing_tst (s : State) (r) (l) : (s.setCrossing r l).tst = s.tst := rfl

@[simp] theorem State.setLane_pending (s : State) (u) (l) : (s.setLane u l).pending = s.pending := rfl
@[simp] theorem State.setLane_out (s : State) (u) (l) : (s.setLane u l).out = s.out := rfl
@[simp] theorem State.setLane_fresh (s : State) (u) (l) : (s.setLane u l).fresh = s.fresh := rfl
@[simp] theorem State.setLane_shape (s : State) (u) (l) : (s.setLane u l).shape = s.shape := rfl
@[simp] theorem State.setLane_pins (s : State) (u) (l) : (s.setLane u l).pins = s.pins := rfl
@[simp] theorem State.setLane_regs (s : State) (u) (l) : (s.setLane u l).regs = s.regs := rfl
@[simp] theorem State.setLane_staged (s : State) (u) (l) : (s.setLane u l).staged = s.staged := rfl
@[simp] theorem State.setLane_once (s : State) (u) (l) : (s.setLane u l).once = s.once := rfl
@[simp] theorem State.setLane_time (s : State) (u) (l) : (s.setLane u l).time = s.time := rfl
@[simp] theorem State.setLane_epoch (s : State) (u) (l) : (s.setLane u l).epoch = s.epoch := rfl
@[simp] theorem State.setLane_src (s : State) (u) (l) : (s.setLane u l).src = s.src := rfl
@[simp] theorem State.setLane_yar (s : State) (u) (l) : (s.setLane u l).yar = s.yar := rfl
@[simp] theorem State.setLane_acc (s : State) (u) (l) : (s.setLane u l).acc = s.acc := rfl
@[simp] theorem State.setLane_firn (s : State) (u) (l) : (s.setLane u l).firn = s.firn := rfl
@[simp] theorem State.setLane_xb (s : State) (u) (l) : (s.setLane u l).xb = s.xb := rfl
@[simp] theorem State.setLane_arb (s : State) (u) (l) : (s.setLane u l).arb = s.arb := rfl
@[simp] theorem State.setLane_core (s : State) (u) (l) : (s.setLane u l).core = s.core := rfl
@[simp] theorem State.setLane_pred (s : State) (u) (l) : (s.setLane u l).pred = s.pred := rfl
@[simp] theorem State.setLane_clus (s : State) (u) (l) : (s.setLane u l).clus = s.clus := rfl
@[simp] theorem State.setLane_camp (s : State) (u) (l) : (s.setLane u l).camp = s.camp := rfl
@[simp] theorem State.setLane_seg (s : State) (u) (l) : (s.setLane u l).seg = s.seg := rfl
@[simp] theorem State.setLane_lnk (s : State) (u) (l) : (s.setLane u l).lnk = s.lnk := rfl
@[simp] theorem State.setLane_audit (s : State) (u) (l) : (s.setLane u l).audit = s.audit := rfl
@[simp] theorem State.setLane_rec_ (s : State) (u) (l) : (s.setLane u l).rec_ = s.rec_ := rfl
@[simp] theorem State.setLane_lock (s : State) (u) (l) : (s.setLane u l).lock = s.lock := rfl
@[simp] theorem State.setLane_img (s : State) (u) (l) : (s.setLane u l).img = s.img := rfl
@[simp] theorem State.setLane_rime (s : State) (u) (l) : (s.setLane u l).rime = s.rime := rfl
@[simp] theorem State.setLane_pwr (s : State) (u) (l) : (s.setLane u l).pwr = s.pwr := rfl
@[simp] theorem State.setLane_su (s : State) (u) (l) : (s.setLane u l).su = s.su := rfl
@[simp] theorem State.setLane_bar (s : State) (u) (l) : (s.setLane u l).bar = s.bar := rfl
@[simp] theorem State.setLane_hostq (s : State) (u) (l) : (s.setLane u l).hostq = s.hostq := rfl
@[simp] theorem State.setLane_gate (s : State) (u) (l) : (s.setLane u l).gate = s.gate := rfl
@[simp] theorem State.setLane_edw (s : State) (u) (l) : (s.setLane u l).edw = s.edw := rfl
@[simp] theorem State.setLane_trc (s : State) (u) (l) : (s.setLane u l).trc = s.trc := rfl
@[simp] theorem State.setLane_tst (s : State) (u) (l) : (s.setLane u l).tst = s.tst := rfl

@[simp] theorem State.setLaneResv_pending (s : State) (u) (n) : (s.setLaneResv u n).pending = s.pending := rfl
@[simp] theorem State.setLaneResv_out (s : State) (u) (n) : (s.setLaneResv u n).out = s.out := rfl
@[simp] theorem State.setLaneResv_fresh (s : State) (u) (n) : (s.setLaneResv u n).fresh = s.fresh := rfl
@[simp] theorem State.setLaneResv_shape (s : State) (u) (n) : (s.setLaneResv u n).shape = s.shape := rfl
@[simp] theorem State.setLaneResv_pins (s : State) (u) (n) : (s.setLaneResv u n).pins = s.pins := rfl
@[simp] theorem State.setLaneResv_regs (s : State) (u) (n) : (s.setLaneResv u n).regs = s.regs := rfl
@[simp] theorem State.setLaneResv_staged (s : State) (u) (n) : (s.setLaneResv u n).staged = s.staged := rfl
@[simp] theorem State.setLaneResv_once (s : State) (u) (n) : (s.setLaneResv u n).once = s.once := rfl
@[simp] theorem State.setLaneResv_time (s : State) (u) (n) : (s.setLaneResv u n).time = s.time := rfl
@[simp] theorem State.setLaneResv_epoch (s : State) (u) (n) : (s.setLaneResv u n).epoch = s.epoch := rfl
@[simp] theorem State.setLaneResv_src (s : State) (u) (n) : (s.setLaneResv u n).src = s.src := rfl
@[simp] theorem State.setLaneResv_yar (s : State) (u) (n) : (s.setLaneResv u n).yar = s.yar := rfl
@[simp] theorem State.setLaneResv_acc (s : State) (u) (n) : (s.setLaneResv u n).acc = s.acc := rfl
@[simp] theorem State.setLaneResv_firn (s : State) (u) (n) : (s.setLaneResv u n).firn = s.firn := rfl
@[simp] theorem State.setLaneResv_xb (s : State) (u) (n) : (s.setLaneResv u n).xb = s.xb := rfl
@[simp] theorem State.setLaneResv_arb (s : State) (u) (n) : (s.setLaneResv u n).arb = s.arb := rfl
@[simp] theorem State.setLaneResv_core (s : State) (u) (n) : (s.setLaneResv u n).core = s.core := rfl
@[simp] theorem State.setLaneResv_pred (s : State) (u) (n) : (s.setLaneResv u n).pred = s.pred := rfl
@[simp] theorem State.setLaneResv_clus (s : State) (u) (n) : (s.setLaneResv u n).clus = s.clus := rfl
@[simp] theorem State.setLaneResv_camp (s : State) (u) (n) : (s.setLaneResv u n).camp = s.camp := rfl
@[simp] theorem State.setLaneResv_seg (s : State) (u) (n) : (s.setLaneResv u n).seg = s.seg := rfl
@[simp] theorem State.setLaneResv_lnk (s : State) (u) (n) : (s.setLaneResv u n).lnk = s.lnk := rfl
@[simp] theorem State.setLaneResv_audit (s : State) (u) (n) : (s.setLaneResv u n).audit = s.audit := rfl
@[simp] theorem State.setLaneResv_rec_ (s : State) (u) (n) : (s.setLaneResv u n).rec_ = s.rec_ := rfl
@[simp] theorem State.setLaneResv_lock (s : State) (u) (n) : (s.setLaneResv u n).lock = s.lock := rfl
@[simp] theorem State.setLaneResv_img (s : State) (u) (n) : (s.setLaneResv u n).img = s.img := rfl
@[simp] theorem State.setLaneResv_rime (s : State) (u) (n) : (s.setLaneResv u n).rime = s.rime := rfl
@[simp] theorem State.setLaneResv_pwr (s : State) (u) (n) : (s.setLaneResv u n).pwr = s.pwr := rfl
@[simp] theorem State.setLaneResv_su (s : State) (u) (n) : (s.setLaneResv u n).su = s.su := rfl
@[simp] theorem State.setLaneResv_bar (s : State) (u) (n) : (s.setLaneResv u n).bar = s.bar := rfl
@[simp] theorem State.setLaneResv_hostq (s : State) (u) (n) : (s.setLaneResv u n).hostq = s.hostq := rfl
@[simp] theorem State.setLaneResv_gate (s : State) (u) (n) : (s.setLaneResv u n).gate = s.gate := rfl
@[simp] theorem State.setLaneResv_edw (s : State) (u) (n) : (s.setLaneResv u n).edw = s.edw := rfl
@[simp] theorem State.setLaneResv_trc (s : State) (u) (n) : (s.setLaneResv u n).trc = s.trc := rfl
@[simp] theorem State.setLaneResv_tst (s : State) (u) (n) : (s.setLaneResv u n).tst = s.tst := rfl

@[simp] theorem State.setToClus_pending (s : State) (k) (l) : (s.setToClus k l).pending = s.pending := rfl
@[simp] theorem State.setToClus_out (s : State) (k) (l) : (s.setToClus k l).out = s.out := rfl
@[simp] theorem State.setToClus_fresh (s : State) (k) (l) : (s.setToClus k l).fresh = s.fresh := rfl
@[simp] theorem State.setToClus_shape (s : State) (k) (l) : (s.setToClus k l).shape = s.shape := rfl
@[simp] theorem State.setToClus_pins (s : State) (k) (l) : (s.setToClus k l).pins = s.pins := rfl
@[simp] theorem State.setToClus_regs (s : State) (k) (l) : (s.setToClus k l).regs = s.regs := rfl
@[simp] theorem State.setToClus_staged (s : State) (k) (l) : (s.setToClus k l).staged = s.staged := rfl
@[simp] theorem State.setToClus_once (s : State) (k) (l) : (s.setToClus k l).once = s.once := rfl
@[simp] theorem State.setToClus_time (s : State) (k) (l) : (s.setToClus k l).time = s.time := rfl
@[simp] theorem State.setToClus_epoch (s : State) (k) (l) : (s.setToClus k l).epoch = s.epoch := rfl
@[simp] theorem State.setToClus_src (s : State) (k) (l) : (s.setToClus k l).src = s.src := rfl
@[simp] theorem State.setToClus_yar (s : State) (k) (l) : (s.setToClus k l).yar = s.yar := rfl
@[simp] theorem State.setToClus_acc (s : State) (k) (l) : (s.setToClus k l).acc = s.acc := rfl
@[simp] theorem State.setToClus_firn (s : State) (k) (l) : (s.setToClus k l).firn = s.firn := rfl
@[simp] theorem State.setToClus_xb (s : State) (k) (l) : (s.setToClus k l).xb = s.xb := rfl
@[simp] theorem State.setToClus_arb (s : State) (k) (l) : (s.setToClus k l).arb = s.arb := rfl
@[simp] theorem State.setToClus_core (s : State) (k) (l) : (s.setToClus k l).core = s.core := rfl
@[simp] theorem State.setToClus_pred (s : State) (k) (l) : (s.setToClus k l).pred = s.pred := rfl
@[simp] theorem State.setToClus_clus (s : State) (k) (l) : (s.setToClus k l).clus = s.clus := rfl
@[simp] theorem State.setToClus_camp (s : State) (k) (l) : (s.setToClus k l).camp = s.camp := rfl
@[simp] theorem State.setToClus_seg (s : State) (k) (l) : (s.setToClus k l).seg = s.seg := rfl
@[simp] theorem State.setToClus_lnk (s : State) (k) (l) : (s.setToClus k l).lnk = s.lnk := rfl
@[simp] theorem State.setToClus_audit (s : State) (k) (l) : (s.setToClus k l).audit = s.audit := rfl
@[simp] theorem State.setToClus_rec_ (s : State) (k) (l) : (s.setToClus k l).rec_ = s.rec_ := rfl
@[simp] theorem State.setToClus_lock (s : State) (k) (l) : (s.setToClus k l).lock = s.lock := rfl
@[simp] theorem State.setToClus_img (s : State) (k) (l) : (s.setToClus k l).img = s.img := rfl
@[simp] theorem State.setToClus_rime (s : State) (k) (l) : (s.setToClus k l).rime = s.rime := rfl
@[simp] theorem State.setToClus_pwr (s : State) (k) (l) : (s.setToClus k l).pwr = s.pwr := rfl
@[simp] theorem State.setToClus_su (s : State) (k) (l) : (s.setToClus k l).su = s.su := rfl
@[simp] theorem State.setToClus_bar (s : State) (k) (l) : (s.setToClus k l).bar = s.bar := rfl
@[simp] theorem State.setToClus_hostq (s : State) (k) (l) : (s.setToClus k l).hostq = s.hostq := rfl
@[simp] theorem State.setToClus_gate (s : State) (k) (l) : (s.setToClus k l).gate = s.gate := rfl
@[simp] theorem State.setToClus_edw (s : State) (k) (l) : (s.setToClus k l).edw = s.edw := rfl
@[simp] theorem State.setToClus_trc (s : State) (k) (l) : (s.setToClus k l).trc = s.trc := rfl
@[simp] theorem State.setToClus_tst (s : State) (k) (l) : (s.setToClus k l).tst = s.tst := rfl

@[simp] theorem State.setSlice_pending (s : State) (i) (x) : (s.setSlice i x).pending = s.pending := rfl
@[simp] theorem State.setSlice_out (s : State) (i) (x) : (s.setSlice i x).out = s.out := rfl
@[simp] theorem State.setSlice_fresh (s : State) (i) (x) : (s.setSlice i x).fresh = s.fresh := rfl
@[simp] theorem State.setSlice_shape (s : State) (i) (x) : (s.setSlice i x).shape = s.shape := rfl
@[simp] theorem State.setSlice_pins (s : State) (i) (x) : (s.setSlice i x).pins = s.pins := rfl
@[simp] theorem State.setSlice_regs (s : State) (i) (x) : (s.setSlice i x).regs = s.regs := rfl
@[simp] theorem State.setSlice_staged (s : State) (i) (x) : (s.setSlice i x).staged = s.staged := rfl
@[simp] theorem State.setSlice_once (s : State) (i) (x) : (s.setSlice i x).once = s.once := rfl
@[simp] theorem State.setSlice_time (s : State) (i) (x) : (s.setSlice i x).time = s.time := rfl
@[simp] theorem State.setSlice_epoch (s : State) (i) (x) : (s.setSlice i x).epoch = s.epoch := rfl
@[simp] theorem State.setSlice_src (s : State) (i) (x) : (s.setSlice i x).src = s.src := rfl
@[simp] theorem State.setSlice_yar (s : State) (i) (x) : (s.setSlice i x).yar = s.yar := rfl
@[simp] theorem State.setSlice_acc (s : State) (i) (x) : (s.setSlice i x).acc = s.acc := rfl
@[simp] theorem State.setSlice_firn (s : State) (i) (x) : (s.setSlice i x).firn = s.firn := rfl
@[simp] theorem State.setSlice_xb (s : State) (i) (x) : (s.setSlice i x).xb = s.xb := rfl
@[simp] theorem State.setSlice_rq (s : State) (i) (x) : (s.setSlice i x).rq = s.rq := rfl
@[simp] theorem State.setSlice_arb (s : State) (i) (x) : (s.setSlice i x).arb = s.arb := rfl
@[simp] theorem State.setSlice_core (s : State) (i) (x) : (s.setSlice i x).core = s.core := rfl
@[simp] theorem State.setSlice_pred (s : State) (i) (x) : (s.setSlice i x).pred = s.pred := rfl
@[simp] theorem State.setSlice_clus (s : State) (i) (x) : (s.setSlice i x).clus = s.clus := rfl
@[simp] theorem State.setSlice_camp (s : State) (i) (x) : (s.setSlice i x).camp = s.camp := rfl
@[simp] theorem State.setSlice_seg (s : State) (i) (x) : (s.setSlice i x).seg = s.seg := rfl
@[simp] theorem State.setSlice_lnk (s : State) (i) (x) : (s.setSlice i x).lnk = s.lnk := rfl
@[simp] theorem State.setSlice_audit (s : State) (i) (x) : (s.setSlice i x).audit = s.audit := rfl
@[simp] theorem State.setSlice_rec_ (s : State) (i) (x) : (s.setSlice i x).rec_ = s.rec_ := rfl
@[simp] theorem State.setSlice_lock (s : State) (i) (x) : (s.setSlice i x).lock = s.lock := rfl
@[simp] theorem State.setSlice_img (s : State) (i) (x) : (s.setSlice i x).img = s.img := rfl
@[simp] theorem State.setSlice_rime (s : State) (i) (x) : (s.setSlice i x).rime = s.rime := rfl
@[simp] theorem State.setSlice_pwr (s : State) (i) (x) : (s.setSlice i x).pwr = s.pwr := rfl
@[simp] theorem State.setSlice_su (s : State) (i) (x) : (s.setSlice i x).su = s.su := rfl
@[simp] theorem State.setSlice_bar (s : State) (i) (x) : (s.setSlice i x).bar = s.bar := rfl
@[simp] theorem State.setSlice_hostq (s : State) (i) (x) : (s.setSlice i x).hostq = s.hostq := rfl
@[simp] theorem State.setSlice_edw (s : State) (i) (x) : (s.setSlice i x).edw = s.edw := rfl
@[simp] theorem State.setSlice_trc (s : State) (i) (x) : (s.setSlice i x).trc = s.trc := rfl
@[simp] theorem State.setSlice_tst (s : State) (i) (x) : (s.setSlice i x).tst = s.tst := rfl

@[simp] theorem State.setChan_pending (s : State) (c) (x) : (s.setChan c x).pending = s.pending := rfl
@[simp] theorem State.setChan_out (s : State) (c) (x) : (s.setChan c x).out = s.out := rfl
@[simp] theorem State.setChan_fresh (s : State) (c) (x) : (s.setChan c x).fresh = s.fresh := rfl
@[simp] theorem State.setChan_shape (s : State) (c) (x) : (s.setChan c x).shape = s.shape := rfl
@[simp] theorem State.setChan_pins (s : State) (c) (x) : (s.setChan c x).pins = s.pins := rfl
@[simp] theorem State.setChan_regs (s : State) (c) (x) : (s.setChan c x).regs = s.regs := rfl
@[simp] theorem State.setChan_staged (s : State) (c) (x) : (s.setChan c x).staged = s.staged := rfl
@[simp] theorem State.setChan_once (s : State) (c) (x) : (s.setChan c x).once = s.once := rfl
@[simp] theorem State.setChan_time (s : State) (c) (x) : (s.setChan c x).time = s.time := rfl
@[simp] theorem State.setChan_epoch (s : State) (c) (x) : (s.setChan c x).epoch = s.epoch := rfl
@[simp] theorem State.setChan_src (s : State) (c) (x) : (s.setChan c x).src = s.src := rfl
@[simp] theorem State.setChan_yar (s : State) (c) (x) : (s.setChan c x).yar = s.yar := rfl
@[simp] theorem State.setChan_acc (s : State) (c) (x) : (s.setChan c x).acc = s.acc := rfl
@[simp] theorem State.setChan_firn (s : State) (c) (x) : (s.setChan c x).firn = s.firn := rfl
@[simp] theorem State.setChan_xb (s : State) (c) (x) : (s.setChan c x).xb = s.xb := rfl
@[simp] theorem State.setChan_rq (s : State) (c) (x) : (s.setChan c x).rq = s.rq := rfl
@[simp] theorem State.setChan_arb (s : State) (c) (x) : (s.setChan c x).arb = s.arb := rfl
@[simp] theorem State.setChan_core (s : State) (c) (x) : (s.setChan c x).core = s.core := rfl
@[simp] theorem State.setChan_pred (s : State) (c) (x) : (s.setChan c x).pred = s.pred := rfl
@[simp] theorem State.setChan_clus (s : State) (c) (x) : (s.setChan c x).clus = s.clus := rfl
@[simp] theorem State.setChan_camp (s : State) (c) (x) : (s.setChan c x).camp = s.camp := rfl
@[simp] theorem State.setChan_seg (s : State) (c) (x) : (s.setChan c x).seg = s.seg := rfl
@[simp] theorem State.setChan_lnk (s : State) (c) (x) : (s.setChan c x).lnk = s.lnk := rfl
@[simp] theorem State.setChan_audit (s : State) (c) (x) : (s.setChan c x).audit = s.audit := rfl
@[simp] theorem State.setChan_rec_ (s : State) (c) (x) : (s.setChan c x).rec_ = s.rec_ := rfl
@[simp] theorem State.setChan_lock (s : State) (c) (x) : (s.setChan c x).lock = s.lock := rfl
@[simp] theorem State.setChan_img (s : State) (c) (x) : (s.setChan c x).img = s.img := rfl
@[simp] theorem State.setChan_rime (s : State) (c) (x) : (s.setChan c x).rime = s.rime := rfl
@[simp] theorem State.setChan_pwr (s : State) (c) (x) : (s.setChan c x).pwr = s.pwr := rfl
@[simp] theorem State.setChan_su (s : State) (c) (x) : (s.setChan c x).su = s.su := rfl
@[simp] theorem State.setChan_bar (s : State) (c) (x) : (s.setChan c x).bar = s.bar := rfl
@[simp] theorem State.setChan_hostq (s : State) (c) (x) : (s.setChan c x).hostq = s.hostq := rfl
@[simp] theorem State.setChan_gate (s : State) (c) (x) : (s.setChan c x).gate = s.gate := rfl
@[simp] theorem State.setChan_trc (s : State) (c) (x) : (s.setChan c x).trc = s.trc := rfl
@[simp] theorem State.setChan_tst (s : State) (c) (x) : (s.setChan c x).tst = s.tst := rfl

@[simp] theorem State.setDom_pending (s : State) (d) (v) : (s.setDom d v).pending = s.pending := rfl
@[simp] theorem State.setDom_out (s : State) (d) (v) : (s.setDom d v).out = s.out := rfl
@[simp] theorem State.setDom_fresh (s : State) (d) (v) : (s.setDom d v).fresh = s.fresh := rfl
@[simp] theorem State.setDom_shape (s : State) (d) (v) : (s.setDom d v).shape = s.shape := rfl
@[simp] theorem State.setDom_pins (s : State) (d) (v) : (s.setDom d v).pins = s.pins := rfl
@[simp] theorem State.setDom_regs (s : State) (d) (v) : (s.setDom d v).regs = s.regs := rfl
@[simp] theorem State.setDom_staged (s : State) (d) (v) : (s.setDom d v).staged = s.staged := rfl
@[simp] theorem State.setDom_once (s : State) (d) (v) : (s.setDom d v).once = s.once := rfl
@[simp] theorem State.setDom_time (s : State) (d) (v) : (s.setDom d v).time = s.time := rfl
@[simp] theorem State.setDom_epoch (s : State) (d) (v) : (s.setDom d v).epoch = s.epoch := rfl
@[simp] theorem State.setDom_src (s : State) (d) (v) : (s.setDom d v).src = s.src := rfl
@[simp] theorem State.setDom_yar (s : State) (d) (v) : (s.setDom d v).yar = s.yar := rfl
@[simp] theorem State.setDom_acc (s : State) (d) (v) : (s.setDom d v).acc = s.acc := rfl
@[simp] theorem State.setDom_firn (s : State) (d) (v) : (s.setDom d v).firn = s.firn := rfl
@[simp] theorem State.setDom_xb (s : State) (d) (v) : (s.setDom d v).xb = s.xb := rfl
@[simp] theorem State.setDom_rq (s : State) (d) (v) : (s.setDom d v).rq = s.rq := rfl
@[simp] theorem State.setDom_arb (s : State) (d) (v) : (s.setDom d v).arb = s.arb := rfl
@[simp] theorem State.setDom_core (s : State) (d) (v) : (s.setDom d v).core = s.core := rfl
@[simp] theorem State.setDom_pred (s : State) (d) (v) : (s.setDom d v).pred = s.pred := rfl
@[simp] theorem State.setDom_clus (s : State) (d) (v) : (s.setDom d v).clus = s.clus := rfl
@[simp] theorem State.setDom_camp (s : State) (d) (v) : (s.setDom d v).camp = s.camp := rfl
@[simp] theorem State.setDom_seg (s : State) (d) (v) : (s.setDom d v).seg = s.seg := rfl
@[simp] theorem State.setDom_lnk (s : State) (d) (v) : (s.setDom d v).lnk = s.lnk := rfl
@[simp] theorem State.setDom_audit (s : State) (d) (v) : (s.setDom d v).audit = s.audit := rfl
@[simp] theorem State.setDom_rec_ (s : State) (d) (v) : (s.setDom d v).rec_ = s.rec_ := rfl
@[simp] theorem State.setDom_lock (s : State) (d) (v) : (s.setDom d v).lock = s.lock := rfl
@[simp] theorem State.setDom_img (s : State) (d) (v) : (s.setDom d v).img = s.img := rfl
@[simp] theorem State.setDom_rime (s : State) (d) (v) : (s.setDom d v).rime = s.rime := rfl
@[simp] theorem State.setDom_su (s : State) (d) (v) : (s.setDom d v).su = s.su := rfl
@[simp] theorem State.setDom_bar (s : State) (d) (v) : (s.setDom d v).bar = s.bar := rfl
@[simp] theorem State.setDom_hostq (s : State) (d) (v) : (s.setDom d v).hostq = s.hostq := rfl
@[simp] theorem State.setDom_gate (s : State) (d) (v) : (s.setDom d v).gate = s.gate := rfl
@[simp] theorem State.setDom_edw (s : State) (d) (v) : (s.setDom d v).edw = s.edw := rfl
@[simp] theorem State.setDom_trc (s : State) (d) (v) : (s.setDom d v).trc = s.trc := rfl
@[simp] theorem State.setDom_tst (s : State) (d) (v) : (s.setDom d v).tst = s.tst := rfl

@[simp] theorem State.rd_wr_same (s : State) (f : Fld) (v : Nat) : (s.wr f v).rd f = v % 2 ^ f.w := tget_tset_same ..

theorem State.rd_wr_ne (s : State) {f g : Fld} (v : Nat) (h : g.key ≠ f.key) : (s.wr f v).rd g = s.rd g :=
  tget_tset_ne _ _ _ _ h

@[simp] theorem State.campOf_setCamp (s : State) (n) (c) : (s.setCamp n c).campOf n = c := tget_tset_same ..

theorem State.campOf_setCamp_ne (s : State) {n m} (c) (h : m ≠ n) : (s.setCamp n c).campOf m = s.campOf m := tget_tset_ne _ _ _ _ h

@[simp] theorem State.segOf_setSeg (s : State) (n) (c) : (s.setSeg n c).segOf n = c := tget_tset_same ..

theorem State.segOf_setSeg_ne (s : State) {n m} (c) (h : m ≠ n) : (s.setSeg n c).segOf m = s.segOf m := tget_tset_ne _ _ _ _ h

@[simp] theorem State.coreOf_setCore (s : State) (n) (c) : (s.setCore n c).coreOf n = c := tget_tset_same ..

theorem State.coreOf_setCore_ne (s : State) {n m} (c) (h : m ≠ n) : (s.setCore n c).coreOf m = s.coreOf m := tget_tset_ne _ _ _ _ h

@[simp] theorem State.clusOf_setClus (s : State) (n) (c) : (s.setClus n c).clusOf n = c := tget_tset_same ..

theorem State.clusOf_setClus_ne (s : State) {n m} (c) (h : m ≠ n) : (s.setClus n c).clusOf m = s.clusOf m := tget_tset_ne _ _ _ _ h

@[simp] theorem State.arbOf_setArb (s : State) (n) (c) : (s.setArb n c).arbOf n = c := tget_tset_same ..

theorem State.arbOf_setArb_ne (s : State) {n m} (c) (h : m ≠ n) : (s.setArb n c).arbOf m = s.arbOf m := tget_tset_ne _ _ _ _ h

@[simp] theorem State.port_setPort (s : State) (n) (c) : (s.setPort n c).port n = c := tget_tset_same ..

theorem State.port_setPort_ne (s : State) {n m} (c) (h : m ≠ n) : (s.setPort n c).port m = s.port m := tget_tset_ne _ _ _ _ h

@[simp] theorem State.lockOf_setLock (s : State) (n) (c) : (s.setLock n c).lockOf n = c := tget_tset_same ..

theorem State.lockOf_setLock_ne (s : State) {n m} (c) (h : m ≠ n) : (s.setLock n c).lockOf m = s.lockOf m := tget_tset_ne _ _ _ _ h

@[simp] theorem State.latchOf_setLatch (s : State) (n) (c) : (s.setLatch n c).latchOf n = c := tget_tset_same ..

theorem State.latchOf_setLatch_ne (s : State) {n m} (c) (h : m ≠ n) : (s.setLatch n c).latchOf m = s.latchOf m := tget_tset_ne _ _ _ _ h

@[simp] theorem State.recOf_setRec (s : State) (n) (c) : (s.setRec n c).recOf n = c := tget_tset_same ..

theorem State.recOf_setRec_ne (s : State) {n m} (c) (h : m ≠ n) : (s.setRec n c).recOf m = s.recOf m := tget_tset_ne _ _ _ _ h

@[simp] theorem State.buf_setBuf (s : State) (n) (c) : (s.setBuf n c).buf n = c := tget_tset_same ..

theorem State.buf_setBuf_ne (s : State) {n m} (c) (h : m ≠ n) : (s.setBuf n c).buf m = s.buf m := tget_tset_ne _ _ _ _ h

@[simp] theorem State.staging_setStaging (s : State) (n) (c) : (s.setStaging n c).staging n = c := tget_tset_same ..

theorem State.staging_setStaging_ne (s : State) {n m} (c) (h : m ≠ n) : (s.setStaging n c).staging m = s.staging m := tget_tset_ne _ _ _ _ h

@[simp] theorem State.ring_setRing (s : State) (n) (c) : (s.setRing n c).ring n = c := tget_tset_same ..

theorem State.ring_setRing_ne (s : State) {n m} (c) (h : m ≠ n) : (s.setRing n c).ring m = s.ring m := tget_tset_ne _ _ _ _ h

@[simp] theorem State.resv_setResv (s : State) (n) (c) : (s.setResv n c).resv n = c := tget_tset_same ..

theorem State.resv_setResv_ne (s : State) {n m} (c) (h : m ≠ n) : (s.setResv n c).resv m = s.resv m := tget_tset_ne _ _ _ _ h

@[simp] theorem State.crossing_setCrossing (s : State) (n) (c) : (s.setCrossing n c).crossing n = c := tget_tset_same ..

theorem State.crossing_setCrossing_ne (s : State) {n m} (c) (h : m ≠ n) : (s.setCrossing n c).crossing m = s.crossing m := tget_tset_ne _ _ _ _ h

@[simp] theorem State.lane_setLane (s : State) (n) (c) : (s.setLane n c).lane n = c := tget_tset_same ..

theorem State.lane_setLane_ne (s : State) {n m} (c) (h : m ≠ n) : (s.setLane n c).lane m = s.lane m := tget_tset_ne _ _ _ _ h

@[simp] theorem State.laneResv_setLaneResv (s : State) (n) (c) : (s.setLaneResv n c).laneResv n = c := tget_tset_same ..

theorem State.laneResv_setLaneResv_ne (s : State) {n m} (c) (h : m ≠ n) : (s.setLaneResv n c).laneResv m = s.laneResv m := tget_tset_ne _ _ _ _ h

@[simp] theorem State.toClus_setToClus (s : State) (n) (c) : (s.setToClus n c).toClus n = c := tget_tset_same ..

theorem State.toClus_setToClus_ne (s : State) {n m} (c) (h : m ≠ n) : (s.setToClus n c).toClus m = s.toClus m := tget_tset_ne _ _ _ _ h

@[simp] theorem State.slice_setSlice (s : State) (n) (c) : (s.setSlice n c).slice n = c := tget_tset_same ..

theorem State.slice_setSlice_ne (s : State) {n m} (c) (h : m ≠ n) : (s.setSlice n c).slice m = s.slice m := tget_tset_ne _ _ _ _ h

@[simp] theorem State.chan_setChan (s : State) (n) (c) : (s.setChan n c).chan n = c := tget_tset_same ..

theorem State.chan_setChan_ne (s : State) {n m} (c) (h : m ≠ n) : (s.setChan n c).chan m = s.chan m := tget_tset_ne _ _ _ _ h

end Sys2Proof.Machine
end

