-- ==== Sys2Proof/Laws/Run.lean ====
section
/-! SUPPORT. What the wrappers of the meanings answer. -/

set_option Elab.async false

namespace Sys2Proof.Machine

@[simp] theorem State.bare_fresh (s : State) : s.bare.fresh = s.fresh := rfl
@[simp] theorem State.bare_shape (s : State) : s.bare.shape = s.shape := rfl
@[simp] theorem State.bare_pins (s : State) : s.bare.pins = s.pins := rfl
@[simp] theorem State.bare_regs (s : State) : s.bare.regs = s.regs := rfl
@[simp] theorem State.bare_staged (s : State) : s.bare.staged = s.staged := rfl
@[simp] theorem State.bare_once (s : State) : s.bare.once = s.once := rfl
@[simp] theorem State.bare_time (s : State) : s.bare.time = s.time := rfl
@[simp] theorem State.bare_epoch (s : State) : s.bare.epoch = s.epoch := rfl
@[simp] theorem State.bare_src (s : State) : s.bare.src = s.src := rfl
@[simp] theorem State.bare_yar (s : State) : s.bare.yar = s.yar := rfl
@[simp] theorem State.bare_acc (s : State) : s.bare.acc = s.acc := rfl
@[simp] theorem State.bare_firn (s : State) : s.bare.firn = s.firn := rfl
@[simp] theorem State.bare_xb (s : State) : s.bare.xb = s.xb := rfl
@[simp] theorem State.bare_rq (s : State) : s.bare.rq = s.rq := rfl
@[simp] theorem State.bare_arb (s : State) : s.bare.arb = s.arb := rfl
@[simp] theorem State.bare_core (s : State) : s.bare.core = s.core := rfl
@[simp] theorem State.bare_pred (s : State) : s.bare.pred = s.pred := rfl
@[simp] theorem State.bare_clus (s : State) : s.bare.clus = s.clus := rfl
@[simp] theorem State.bare_camp (s : State) : s.bare.camp = s.camp := rfl
@[simp] theorem State.bare_seg (s : State) : s.bare.seg = s.seg := rfl
@[simp] theorem State.bare_lnk (s : State) : s.bare.lnk = s.lnk := rfl
@[simp] theorem State.bare_audit (s : State) : s.bare.audit = s.audit := rfl
@[simp] theorem State.bare_rec_ (s : State) : s.bare.rec_ = s.rec_ := rfl
@[simp] theorem State.bare_lock (s : State) : s.bare.lock = s.lock := rfl
@[simp] theorem State.bare_img (s : State) : s.bare.img = s.img := rfl
@[simp] theorem State.bare_rime (s : State) : s.bare.rime = s.rime := rfl
@[simp] theorem State.bare_pwr (s : State) : s.bare.pwr = s.pwr := rfl
@[simp] theorem State.bare_su (s : State) : s.bare.su = s.su := rfl
@[simp] theorem State.bare_bar (s : State) : s.bare.bar = s.bar := rfl
@[simp] theorem State.bare_hostq (s : State) : s.bare.hostq = s.hostq := rfl
@[simp] theorem State.bare_gate (s : State) : s.bare.gate = s.gate := rfl
@[simp] theorem State.bare_edw (s : State) : s.bare.edw = s.edw := rfl
@[simp] theorem State.bare_trc (s : State) : s.bare.trc = s.trc := rfl
@[simp] theorem State.bare_tst (s : State) : s.bare.tst = s.tst := rfl

/-- What a command's effect leaves is what f makes of the bare state, with the queue put back. -/
theorem effect_eq {f : State → State} {s t : State} (h : f s.bare = t) : effect f s = { t with pending := s.pending } := by
  rw [← h]
  rfl

theorem run_eq {f : State → State} {s t : State} (h : f s.bare = t) : run f s = .next { t with pending := s.pending } := by
  rw [← h]
  rfl

theorem effect_congr {f g : State → State} {s : State} (h : f s.bare = g s.bare) : effect f s = effect g s := by
  rw [effect_eq h]
  rfl

theorem runClk_clocked {f : State → State} {s : State} (h : clocked s = true) : runClk f s = .next (effect f s) := by
  have h' : clocked s.bare = true := h
  exact congrArg _ (effect_congr (if_pos h'))

theorem runClk_eq {f : State → State} {s t : State} (h : clocked s = true) (e : f s.bare = t) :
    runClk f s = .next { t with pending := s.pending } := by
  rw [runClk_clocked h, effect_eq e]

theorem runWf_eq {ok : Bool} {f : State → State} {s t : State} (h : ok = true) (e : f s.bare = t) :
    runWf ok f s = .next { t with pending := s.pending } := by
  subst h
  exact run_eq e

theorem runWf_ok {ok : Bool} {f : State → State} {s : State} (h : ok = true) : runWf ok f s = .next (effect f s) := by
  simp [runWf, run, h]

theorem runWf_bad {ok : Bool} {f : State → State} {s : State} (h : ok = false) : runWf ok f s = .fault .illFormed := by
  simp [runWf, h]

/-- What an effect keeps of the bare state, the command keeps of the state, the outputs apart. -/
theorem Keeps.bare {w w' : List Part} {s t : State} (h : Keeps w s.bare t) (hw : w ⊆ .pending :: .out :: w') :
    Keeps (.out :: w') s { t with pending := s.pending } := by
  constructor
  intro p hp
  by_cases h0 : p = .pending
  · subst h0
    rfl
  · have h1 := h.same p fun h => by
      rcases List.mem_cons.1 (hw h) with h | h
      · exact h0 h
      · exact hp h
    cases p <;> first | exact h1 | exact absurd rfl h0 | exact absurd List.mem_cons_self hp

/-- To say what a clocked command leaves, say it of what f makes of the bare state. -/
theorem next_clk {f : State → State} {s : State} {P : State → Prop} (h : clocked s = true)
    (k : ∀ t, f s.bare = t → runClk f s = .next { t with pending := s.pending } → P { t with pending := s.pending }) :
    ∃ t, runClk f s = .next t ∧ P t :=
  ⟨_, runClk_eq h rfl, k _ rfl (runClk_eq h rfl)⟩

theorem next_run {f : State → State} {s : State} {P : State → Prop}
    (k : ∀ t, f s.bare = t → run f s = .next { t with pending := s.pending } → P { t with pending := s.pending }) :
    ∃ t, run f s = .next t ∧ P t :=
  ⟨_, run_eq rfl, k _ rfl (run_eq rfl)⟩

theorem next_wf {ok : Bool} {f : State → State} {s : State} {P : State → Prop} (h : ok = true)
    (k : ∀ t, f s.bare = t → runWf ok f s = .next { t with pending := s.pending } → P { t with pending := s.pending }) :
    ∃ t, runWf ok f s = .next t ∧ P t :=
  ⟨_, runWf_eq h rfl, k _ rfl (runWf_eq h rfl)⟩

/-- A part other than the queue after an effect is what f leaves there. -/
theorem effect_same {f : State → State} {s : State} {p : Part} (hp : p ≠ .pending) :
    p.same (f s.bare) (effect f s) := by
  cases p <;> first | rfl | exact absurd rfl hp

/-- An effect keeps the queue. -/
@[simp] theorem effect_pending (f : State → State) (s : State) : (effect f s).pending = s.pending := rfl

end Sys2Proof.Machine
end

