-- ==== Sys2Proof/Laws/Bare.lean ====
section
/-! SUPPORT. What is read of the bare state is what is read of the state. -/

namespace Sys2Proof.Machine

@[simp] theorem bare_State_arbOf (a1) (s : State) : State.arbOf s.bare a1 = State.arbOf s a1 := rfl
@[simp] theorem bare_State_buf (a1) (s : State) : State.buf s.bare a1 = State.buf s a1 := rfl
@[simp] theorem bare_State_campOf (a1) (s : State) : State.campOf s.bare a1 = State.campOf s a1 := rfl
@[simp] theorem bare_State_chan (a1) (s : State) : State.chan s.bare a1 = State.chan s a1 := rfl
@[simp] theorem bare_State_clusOf (a1) (s : State) : State.clusOf s.bare a1 = State.clusOf s a1 := rfl
@[simp] theorem bare_State_coreOf (a1) (s : State) : State.coreOf s.bare a1 = State.coreOf s a1 := rfl
@[simp] theorem bare_State_crossing (a1) (s : State) : State.crossing s.bare a1 = State.crossing s a1 := rfl
@[simp] theorem bare_State_die (s : State) : State.die s.bare = State.die s := rfl
@[simp] theorem bare_State_dom (a1) (s : State) : State.dom s.bare a1 = State.dom s a1 := rfl
@[simp] theorem bare_State_exists (a1) (s : State) : State.exists s.bare a1 = State.exists s a1 := rfl
@[simp] theorem bare_State_flag (a1) (s : State) : State.flag s.bare a1 = State.flag s a1 := rfl
@[simp] theorem bare_State_isDie0 (s : State) : State.isDie0 s.bare = State.isDie0 s := rfl
@[simp] theorem bare_State_isMaster (s : State) : State.isMaster s.bare = State.isMaster s := rfl
@[simp] theorem bare_State_lane (a1) (s : State) : State.lane s.bare a1 = State.lane s a1 := rfl
@[simp] theorem bare_State_laneResv (a1) (s : State) : State.laneResv s.bare a1 = State.laneResv s a1 := rfl
@[simp] theorem bare_State_latchOf (a1) (s : State) : State.latchOf s.bare a1 = State.latchOf s a1 := rfl
@[simp] theorem bare_State_lockOf (a1) (s : State) : State.lockOf s.bare a1 = State.lockOf s a1 := rfl
@[simp] theorem bare_State_on (a1) (s : State) : State.on s.bare a1 = State.on s a1 := rfl
@[simp] theorem bare_State_port (a1) (s : State) : State.port s.bare a1 = State.port s a1 := rfl
@[simp] theorem bare_State_predOf (a1) (a2) (s : State) : State.predOf s.bare a1 a2 = State.predOf s a1 a2 := rfl
@[simp] theorem bare_State_rd (a1) (s : State) : State.rd s.bare a1 = State.rd s a1 := rfl
@[simp] theorem bare_State_rdStaged (a1) (s : State) : State.rdStaged s.bare a1 = State.rdStaged s a1 := rfl
@[simp] theorem bare_State_recOf (a1) (s : State) : State.recOf s.bare a1 = State.recOf s a1 := rfl
@[simp] theorem bare_State_resv (a1) (s : State) : State.resv s.bare a1 = State.resv s a1 := rfl
@[simp] theorem bare_State_ring (a1) (s : State) : State.ring s.bare a1 = State.ring s a1 := rfl
@[simp] theorem bare_State_segOf (a1) (s : State) : State.segOf s.bare a1 = State.segOf s a1 := rfl
@[simp] theorem bare_State_slice (a1) (s : State) : State.slice s.bare a1 = State.slice s a1 := rfl
@[simp] theorem bare_State_staging (a1) (s : State) : State.staging s.bare a1 = State.staging s a1 := rfl
@[simp] theorem bare_State_struct (a1) (a2) (s : State) : State.struct s.bare a1 a2 = State.struct s a1 a2 := rfl
@[simp] theorem bare_State_t (s : State) : State.t s.bare = State.t s := rfl
@[simp] theorem bare_State_tab (a1) (a2) (s : State) : State.tab s.bare a1 a2 = State.tab s a1 a2 := rfl
@[simp] theorem bare_State_toClus (a1) (s : State) : State.toClus s.bare a1 = State.toClus s a1 := rfl
@[simp] theorem bare_a0Refusal (a1) (a2) (a3) (s : State) : a0Refusal s.bare a1 a2 a3 = a0Refusal s a1 a2 a3 := rfl
@[simp] theorem bare_ackDue (a1) (s : State) : ackDue s.bare a1 = ackDue s a1 := rfl
@[simp] theorem bare_ackTmo (a1) (s : State) : ackTmo s.bare a1 = ackTmo s a1 := rfl
@[simp] theorem bare_activeWord (a1) (a2) (s : State) : activeWord s.bare a1 a2 = activeWord s a1 a2 := rfl
@[simp] theorem bare_actsFor (a1) (s : State) : actsFor s.bare a1 = actsFor s a1 := rfl
@[simp] theorem bare_admits (a1) (a2) (a3) (s : State) : admits s.bare a1 a2 a3 = admits s a1 a2 a3 := rfl
@[simp] theorem bare_ageTicks (s : State) : ageTicks s.bare = ageTicks s := rfl
@[simp] theorem bare_aliasWord (a1) (a2) (a3) (a4) (s : State) : aliasWord s.bare a1 a2 a3 a4 = aliasWord s a1 a2 a3 a4 := rfl
@[simp] theorem bare_allAgain (a1) (s : State) : allAgain s.bare a1 = allAgain s a1 := rfl
@[simp] theorem bare_arbClocked (a1) (s : State) : arbClocked s.bare a1 = arbClocked s a1 := rfl
@[simp] theorem bare_arbFill (a1) (a2) (s : State) : arbFill s.bare a1 a2 = arbFill s a1 a2 := rfl
@[simp] theorem bare_arbInForce (a1) (a2) (s : State) : arbInForce s.bare a1 a2 = arbInForce s a1 a2 := rfl
@[simp] theorem bare_arbMustAge (a1) (s : State) : arbMustAge s.bare a1 = arbMustAge s a1 := rfl
@[simp] theorem bare_arbN (a1) (s : State) : arbN s.bare a1 = arbN s a1 := rfl
@[simp] theorem bare_arbReqs (a0) (s : State) : arbReqs a0 s.bare = arbReqs a0 s := rfl
@[simp] theorem bare_arbStat (a1) (s : State) : arbStat s.bare a1 = arbStat s a1 := rfl
@[simp] theorem bare_arbWeight (a1) (a2) (s : State) : arbWeight s.bare a1 a2 = arbWeight s a1 a2 := rfl
@[simp] theorem bare_arbWindow (a1) (s : State) : arbWindow s.bare a1 = arbWindow s a1 := rfl
@[simp] theorem bare_auditUsed (a1) (s : State) : auditUsed s.bare a1 = auditUsed s a1 := rfl
@[simp] theorem bare_avaDests (a1) (s : State) : avaDests s.bare a1 = avaDests s a1 := rfl
@[simp] theorem bare_barLaneDown (s : State) : barLaneDown s.bare = barLaneDown s := rfl
@[simp] theorem bare_barOf (a0) (s : State) : barOf a0 s.bare = barOf a0 s := rfl
@[simp] theorem bare_barSyncDue (s : State) : barSyncDue s.bare = barSyncDue s := rfl
@[simp] theorem bare_bcastDies (s : State) : bcastDies s.bare = bcastDies s := rfl
@[simp] theorem bare_bistArmed (s : State) : bistArmed s.bare = bistArmed s := rfl
@[simp] theorem bare_blockAddr (a1) (a2) (s : State) : blockAddr s.bare a1 a2 = blockAddr s a1 a2 := rfl
@[simp] theorem bare_blockedAt (a1) (a2) (s : State) : blockedAt s.bare a1 a2 = blockedAt s a1 a2 := rfl
@[simp] theorem bare_bodyOk (a0) (a1) (s : State) : bodyOk a0 a1 s.bare = bodyOk a0 a1 s := rfl
@[simp] theorem bare_budget (s : State) : budget s.bare = budget s := rfl
@[simp] theorem bare_bufUsed (a1) (s : State) : bufUsed s.bare a1 = bufUsed s a1 := rfl
@[simp] theorem bare_busySlices (s : State) : busySlices s.bare = busySlices s := rfl
@[simp] theorem bare_bySlice (a1) (s : State) : bySlice s.bare a1 = bySlice s a1 := rfl
@[simp] theorem bare_cached (a1) (a2) (s : State) : cached s.bare a1 a2 = cached s a1 a2 := rfl
@[simp] theorem bare_campCode (a1) (s : State) : campCode s.bare a1 = campCode s a1 := rfl
@[simp] theorem bare_campDom (a1) (s : State) : campDom s.bare a1 = campDom s a1 := rfl
@[simp] theorem bare_campIdle (a1) (s : State) : campIdle s.bare a1 = campIdle s a1 := rfl
@[simp] theorem bare_campPhys (a1) (s : State) : campPhys s.bare a1 = campPhys s a1 := rfl
@[simp] theorem bare_campReady (a1) (s : State) : campReady s.bare a1 = campReady s a1 := rfl
@[simp] theorem bare_campsOf (a1) (s : State) : campsOf s.bare a1 = campsOf s a1 := rfl
@[simp] theorem bare_canAbort (a0) (s : State) : canAbort a0 s.bare = canAbort a0 s := rfl
@[simp] theorem bare_canRefill (a1) (s : State) : canRefill s.bare a1 = canRefill s a1 := rfl
@[simp] theorem bare_canRestore (a1) (s : State) : canRestore s.bare a1 = canRestore s a1 := rfl
@[simp] theorem bare_canSpill (a1) (s : State) : canSpill s.bare a1 = canSpill s a1 := rfl
@[simp] theorem bare_canStart (a1) (s : State) : canStart s.bare a1 = canStart s a1 := rfl
@[simp] theorem bare_canStartLoad (a0) (s : State) : canStartLoad a0 s.bare = canStartLoad a0 s := rfl
@[simp] theorem bare_canTake (a0) (s : State) : canTake a0 s.bare = canTake a0 s := rfl
@[simp] theorem bare_candAva (a1) (s : State) : candAva s.bare a1 = candAva s a1 := rfl
@[simp] theorem bare_candBefore (a1) (a2) (s : State) : candBefore s.bare a1 a2 = candBefore s a1 a2 := rfl
@[simp] theorem bare_candMsg (a1) (a2) (s : State) : candMsg s.bare a1 a2 = candMsg s a1 a2 := rfl
@[simp] theorem bare_capWithin (a1) (s : State) : capWithin s.bare a1 = capWithin s a1 := rfl
@[simp] theorem bare_captureDue (a1) (s : State) : captureDue s.bare a1 = captureDue s a1 := rfl
@[simp] theorem bare_cellEval (a1) (a2) (s : State) : cellEval s.bare a1 a2 = cellEval s a1 a2 := rfl
@[simp] theorem bare_cellFinish (a1) (a2) (a3) (a4) (a5) (a6) (s : State) : cellFinish s.bare a1 a2 a3 a4 a5 a6 = cellFinish s a1 a2 a3 a4 a5 a6 := rfl
@[simp] theorem bare_cellRun (a1) (s : State) : cellRun s.bare a1 = cellRun s a1 := rfl
@[simp] theorem bare_cellSel (a1) (a2) (s : State) : cellSel s.bare a1 a2 = cellSel s a1 a2 := rfl
@[simp] theorem bare_cellWindow (a1) (a2) (s : State) : cellWindow s.bare a1 a2 = cellWindow s a1 a2 := rfl
@[simp] theorem bare_cellWord (a1) (a2) (s : State) : cellWord s.bare a1 a2 = cellWord s a1 a2 := rfl
@[simp] theorem bare_cellsUsed (s : State) : cellsUsed s.bare = cellsUsed s := rfl
@[simp] theorem bare_chanOf (a1) (s : State) : chanOf s.bare a1 = chanOf s a1 := rfl
@[simp] theorem bare_channelTakes (a1) (s : State) : channelTakes s.bare a1 = channelTakes s a1 := rfl
@[simp] theorem bare_cifWarm (a1) (s : State) : cifWarm s.bare a1 = cifWarm s a1 := rfl
@[simp] theorem bare_claimValue (a1) (s : State) : claimValue s.bare a1 = claimValue s a1 := rfl
@[simp] theorem bare_claimable (a1) (s : State) : claimable s.bare a1 = claimable s a1 := rfl
@[simp] theorem bare_clk (a0) (s : State) : clk a0 s.bare = clk a0 s := rfl
@[simp] theorem bare_clocked (s : State) : clocked s.bare = clocked s := rfl
@[simp] theorem bare_clusReqs (a0) (s : State) : clusReqs a0 s.bare = clusReqs a0 s := rfl
@[simp] theorem bare_configuredSpare (a1) (s : State) : configuredSpare s.bare a1 = configuredSpare s a1 := rfl
@[simp] theorem bare_createResult (a0) (s : State) : createResult a0 s.bare = createResult a0 s := rfl
@[simp] theorem bare_crossRoom (a1) (s : State) : crossRoom s.bare a1 = crossRoom s a1 := rfl
@[simp] theorem bare_custodyAt (a1) (a2) (s : State) : custodyAt s.bare a1 a2 = custodyAt s a1 a2 := rfl
@[simp] theorem bare_custodyOf (a1) (a2) (s : State) : custodyOf s.bare a1 a2 = custodyOf s a1 a2 := rfl
@[simp] theorem bare_dbThreshold (s : State) : dbThreshold s.bare = dbThreshold s := rfl
@[simp] theorem bare_denied (a1) (a2) (a3) (a4) (s : State) : denied s.bare a1 a2 a3 a4 = denied s a1 a2 a3 a4 := rfl
@[simp] theorem bare_descriptor (a1) (a2) (s : State) : descriptor s.bare a1 a2 = descriptor s a1 a2 := rfl
@[simp] theorem bare_destOk (a1) (s : State) : destOk s.bare a1 = destOk s a1 := rfl
@[simp] theorem bare_destsNow (a0) (a1) (s : State) : destsNow a0 a1 s.bare = destsNow a0 a1 s := rfl
@[simp] theorem bare_directPayload (a1) (a2) (s : State) : directPayload s.bare a1 a2 = directPayload s a1 a2 := rfl
@[simp] theorem bare_domCost (a0) (s : State) : domCost a0 s.bare = domCost a0 s := rfl
@[simp] theorem bare_doneTarget (a1) (s : State) : doneTarget s.bare a1 = doneTarget s a1 := rfl
@[simp] theorem bare_drainLength (s : State) : drainLength s.bare = drainLength s := rfl
@[simp] theorem bare_drainedOffers (s : State) : drainedOffers s.bare = drainedOffers s := rfl
@[simp] theorem bare_dtmo (s : State) : dtmo s.bare = dtmo s := rfl
@[simp] theorem bare_edwDone (s : State) : edwDone s.bare = edwDone s := rfl
@[simp] theorem bare_edwRuns (s : State) : edwRuns s.bare = edwRuns s := rfl
@[simp] theorem bare_edwToBarrier (s : State) : edwToBarrier s.bare = edwToBarrier s := rfl
@[simp] theorem bare_eligible (a1) (a2) (s : State) : eligible s.bare a1 a2 = eligible s a1 a2 := rfl
@[simp] theorem bare_eligibleAt (a1) (a2) (s : State) : eligibleAt s.bare a1 a2 = eligibleAt s a1 a2 := rfl
@[simp] theorem bare_emitCycles (a1) (s : State) : emitCycles s.bare a1 = emitCycles s a1 := rfl
@[simp] theorem bare_enabled (a1) (s : State) : enabled s.bare a1 = enabled s a1 := rfl
@[simp] theorem bare_entering (a1) (s : State) : entering s.bare a1 = entering s a1 := rfl
@[simp] theorem bare_entryNames (a1) (a2) (s : State) : entryNames s.bare a1 a2 = entryNames s a1 a2 := rfl
@[simp] theorem bare_epochAt (a1) (s : State) : epochAt s.bare a1 = epochAt s a1 := rfl
@[simp] theorem bare_epochCount (s : State) : epochCount s.bare = epochCount s := rfl
@[simp] theorem bare_evict (a1) (a2) (s : State) : evict s.bare a1 a2 = evict s a1 a2 := rfl
@[simp] theorem bare_exchangeMissing (s : State) : exchangeMissing s.bare = exchangeMissing s := rfl
@[simp] theorem bare_fabFltN (a0) (s : State) : fabFltN a0 s.bare = fabFltN a0 s := rfl
@[simp] theorem bare_farCampion (a1) (s : State) : farCampion s.bare a1 = farCampion s a1 := rfl
@[simp] theorem bare_faultBits (s : State) : faultBits s.bare = faultBits s := rfl
@[simp] theorem bare_fedBy (a1) (s : State) : fedBy s.bare a1 = fedBy s a1 := rfl
@[simp] theorem bare_fenceAt (a1) (a2) (s : State) : fenceAt s.bare a1 a2 = fenceAt s a1 a2 := rfl
@[simp] theorem bare_fenceTok (a1) (a2) (a3) (a4) (a5) (a6) (a7) (a8) (s : State) : fenceTok s.bare a1 a2 a3 a4 a5 a6 a7 a8 = fenceTok s a1 a2 a3 a4 a5 a6 a7 a8 := rfl
@[simp] theorem bare_fieldValue (a1) (a2) (a3) (s : State) : fieldValue s.bare a1 a2 a3 = fieldValue s a1 a2 a3 := rfl
@[simp] theorem bare_firnAll (a1) (s : State) : firnAll s.bare a1 = firnAll s a1 := rfl
@[simp] theorem bare_firnCount (s : State) : firnCount s.bare = firnCount s := rfl
@[simp] theorem bare_firnFind (a1) (s : State) : firnFind s.bare a1 = firnFind s a1 := rfl
@[simp] theorem bare_firnFree (s : State) : firnFree s.bare = firnFree s := rfl
@[simp] theorem bare_firnInUse (s : State) : firnInUse s.bare = firnInUse s := rfl
@[simp] theorem bare_firnPoisoned (s : State) : firnPoisoned s.bare = firnPoisoned s := rfl
@[simp] theorem bare_firstEligible (a1) (s : State) : firstEligible s.bare a1 = firstEligible s a1 := rfl
@[simp] theorem bare_firstWake (s : State) : firstWake s.bare = firstWake s := rfl
@[simp] theorem bare_flashBlock (a1) (s : State) : flashBlock s.bare a1 = flashBlock s a1 := rfl
@[simp] theorem bare_formMsg (a1) (a2) (a3) (a4) (a5) (a6) (s : State) : formMsg s.bare a1 a2 a3 a4 a5 a6 = formMsg s a1 a2 a3 a4 a5 a6 := rfl
@[simp] theorem bare_gapHolds (s : State) : gapHolds s.bare = gapHolds s := rfl
@[simp] theorem bare_gateAddr (s : State) : gateAddr s.bare = gateAddr s := rfl
@[simp] theorem bare_gated (a1) (s : State) : gated s.bare a1 = gated s a1 := rfl
@[simp] theorem bare_grantDue (a1) (s : State) : grantDue s.bare a1 = grantDue s a1 := rfl
@[simp] theorem bare_groupHeld (a1) (s : State) : groupHeld s.bare a1 = groupHeld s a1 := rfl
@[simp] theorem bare_groupInTransport (a1) (s : State) : groupInTransport s.bare a1 = groupInTransport s a1 := rfl
@[simp] theorem bare_groupSlice (a1) (a2) (s : State) : groupSlice s.bare a1 a2 = groupSlice s a1 a2 := rfl
@[simp] theorem bare_groupSlices (a1) (a2) (s : State) : groupSlices s.bare a1 a2 = groupSlices s a1 a2 := rfl
@[simp] theorem bare_hasPartner (a1) (s : State) : hasPartner s.bare a1 = hasPartner s a1 := rfl
@[simp] theorem bare_hasSide (a0) (s : State) : hasSide a0 s.bare = hasSide a0 s := rfl
@[simp] theorem bare_headF (a1) (s : State) : headF s.bare a1 = headF s a1 := rfl
@[simp] theorem bare_headerCheck (a0) (a1) (a2) (s : State) : headerCheck a0 a1 a2 s.bare = headerCheck a0 a1 a2 s := rfl
@[simp] theorem bare_heard (a1) (a2) (s : State) : heard s.bare a1 a2 = heard s a1 a2 := rfl
@[simp] theorem bare_heldAt (a1) (a2) (a3) (s : State) : heldAt s.bare a1 a2 a3 = heldAt s a1 a2 a3 := rfl
@[simp] theorem bare_heldSpare (a1) (s : State) : heldSpare s.bare a1 = heldSpare s a1 := rfl
@[simp] theorem bare_holds (a0) (a2) (a3) (s : State) : holds a0 s.bare a2 a3 = holds a0 s a2 a3 := rfl
@[simp] theorem bare_holdsMirrors (a1) (s : State) : holdsMirrors s.bare a1 = holdsMirrors s a1 := rfl
@[simp] theorem bare_hostCust (s : State) : hostCust s.bare = hostCust s := rfl
@[simp] theorem bare_hostEdwOn (s : State) : hostEdwOn s.bare = hostEdwOn s := rfl
@[simp] theorem bare_hostFaultBits (s : State) : hostFaultBits s.bare = hostFaultBits s := rfl
@[simp] theorem bare_hostTokens (s : State) : hostTokens s.bare = hostTokens s := rfl
@[simp] theorem bare_hostUsed (s : State) : hostUsed s.bare = hostUsed s := rfl
@[simp] theorem bare_hquota (s : State) : hquota s.bare = hquota s := rfl
@[simp] theorem bare_identOf (a1) (s : State) : identOf s.bare a1 = identOf s a1 := rfl
@[simp] theorem bare_idleOver (a1) (s : State) : idleOver s.bare a1 = idleOver s a1 := rfl
@[simp] theorem bare_imgId (a0) (s : State) : imgId a0 s.bare = imgId a0 s := rfl
@[simp] theorem bare_inScopeCluster (a1) (a2) (s : State) : inScopeCluster s.bare a1 a2 = inScopeCluster s a1 a2 := rfl
@[simp] theorem bare_inTransport (a1) (s : State) : inTransport s.bare a1 = inTransport s a1 := rfl
@[simp] theorem bare_inputEntries (a1) (s : State) : inputEntries s.bare a1 = inputEntries s a1 := rfl
@[simp] theorem bare_intake (a1) (s : State) : intake s.bare a1 = intake s a1 := rfl
@[simp] theorem bare_intakeRoom (a1) (s : State) : intakeRoom s.bare a1 = intakeRoom s a1 := rfl
@[simp] theorem bare_islandOn (a1) (s : State) : islandOn s.bare a1 = islandOn s a1 := rfl
@[simp] theorem bare_keyBad (a1) (s : State) : keyBad s.bare a1 = keyBad s a1 := rfl
@[simp] theorem bare_keySlot (a1) (s : State) : keySlot s.bare a1 = keySlot s a1 := rfl
@[simp] theorem bare_laneDests (a1) (a2) (s : State) : laneDests s.bare a1 a2 = laneDests s a1 a2 := rfl
@[simp] theorem bare_laneOf (a1) (s : State) : laneOf s.bare a1 = laneOf s a1 := rfl
@[simp] theorem bare_lanePlace (a1) (a2) (a3) (s : State) : lanePlace s.bare a1 a2 a3 = lanePlace s a1 a2 a3 := rfl
@[simp] theorem bare_laneRoom (a1) (a2) (s : State) : laneRoom s.bare a1 a2 = laneRoom s a1 a2 := rfl
@[simp] theorem bare_laneUsed (a1) (s : State) : laneUsed s.bare a1 = laneUsed s a1 := rfl
@[simp] theorem bare_latchCands (s : State) : latchCands s.bare = latchCands s := rfl
@[simp] theorem bare_latched (a1) (a2) (s : State) : latched s.bare a1 a2 = latched s a1 a2 := rfl
@[simp] theorem bare_leadOf (a1) (s : State) : leadOf s.bare a1 = leadOf s a1 := rfl
@[simp] theorem bare_lineLevel (a1) (s : State) : lineLevel s.bare a1 = lineLevel s a1 := rfl
@[simp] theorem bare_linkReady (a0) (a1) (s : State) : linkReady a0 a1 s.bare = linkReady a0 a1 s := rfl
@[simp] theorem bare_linkReqs (a0) (s : State) : linkReqs a0 s.bare = linkReqs a0 s := rfl
@[simp] theorem bare_live (a1) (a2) (s : State) : live s.bare a1 a2 = live s a1 a2 := rfl
@[simp] theorem bare_live1 (a1) (a2) (a3) (a4) (a5) (s : State) : live1 s.bare a1 a2 a3 a4 a5 = live1 s a1 a2 a3 a4 a5 := rfl
@[simp] theorem bare_live2 (a1) (a2) (s : State) : live2 s.bare a1 a2 = live2 s a1 a2 := rfl
@[simp] theorem bare_live3 (a1) (a2) (a3) (a4) (s : State) : live3 s.bare a1 a2 a3 a4 = live3 s a1 a2 a3 a4 := rfl
@[simp] theorem bare_liveHost (a1) (a2) (s : State) : liveHost s.bare a1 a2 = liveHost s a1 a2 := rfl
@[simp] theorem bare_liveOf (a1) (s : State) : liveOf s.bare a1 = liveOf s a1 := rfl
@[simp] theorem bare_loadClk (a0) (s : State) : loadClk a0 s.bare = loadClk a0 s := rfl
@[simp] theorem bare_loadOf (a0) (s : State) : loadOf a0 s.bare = loadOf a0 s := rfl
@[simp] theorem bare_loadSlot (a1) (a2) (a3) (s : State) : loadSlot s.bare a1 a2 a3 = loadSlot s a1 a2 a3 := rfl
@[simp] theorem bare_locate (a1) (a2) (s : State) : locate s.bare a1 a2 = locate s a1 a2 := rfl
@[simp] theorem bare_lockHeldBy (a1) (s : State) : lockHeldBy s.bare a1 = lockHeldBy s a1 := rfl
@[simp] theorem bare_lockOwned (a1) (s : State) : lockOwned s.bare a1 = lockOwned s a1 := rfl
@[simp] theorem bare_lostIn (a1) (s : State) : lostIn s.bare a1 = lostIn s a1 := rfl
@[simp] theorem bare_ltestOk (s : State) : ltestOk s.bare = ltestOk s := rfl
@[simp] theorem bare_macChecks (a1) (s : State) : macChecks s.bare a1 = macChecks s a1 := rfl
@[simp] theorem bare_macFails (s : State) : macFails s.bare = macFails s := rfl
@[simp] theorem bare_mapCell (a1) (s : State) : mapCell s.bare a1 = mapCell s a1 := rfl
@[simp] theorem bare_mapCelled (a1) (s : State) : mapCelled s.bare a1 = mapCelled s a1 := rfl
@[simp] theorem bare_mapWord (a1) (s : State) : mapWord s.bare a1 = mapWord s a1 := rfl
@[simp] theorem bare_markRecs (a1) (s : State) : markRecs s.bare a1 = markRecs s a1 := rfl
@[simp] theorem bare_masterFaulted (a1) (s : State) : masterFaulted s.bare a1 = masterFaulted s a1 := rfl
@[simp] theorem bare_mayLeak (a1) (s : State) : mayLeak s.bare a1 = mayLeak s a1 := rfl
@[simp] theorem bare_meterInput (a1) (s : State) : meterInput s.bare a1 = meterInput s a1 := rfl
@[simp] theorem bare_meterSources (s : State) : meterSources s.bare = meterSources s := rfl
@[simp] theorem bare_minSec (s : State) : minSec s.bare = minSec s := rfl
@[simp] theorem bare_mirrorOf (a1) (a2) (s : State) : mirrorOf s.bare a1 a2 = mirrorOf s a1 a2 := rfl
@[simp] theorem bare_movesClass (a1) (s : State) : movesClass s.bare a1 = movesClass s a1 := rfl
@[simp] theorem bare_mpuCheck (a0) (a1) (a2) (a3) (a4) (s : State) : mpuCheck a0 a1 a2 a3 a4 s.bare = mpuCheck a0 a1 a2 a3 a4 s := rfl
@[simp] theorem bare_mpuMatch (a0) (a1) (a2) (a3) (s : State) : mpuMatch a0 a1 a2 a3 s.bare = mpuMatch a0 a1 a2 a3 s := rfl
@[simp] theorem bare_mrnCfgErr (s : State) : mrnCfgErr s.bare = mrnCfgErr s := rfl
@[simp] theorem bare_mrnOn (s : State) : mrnOn s.bare = mrnOn s := rfl
@[simp] theorem bare_newestMark (s : State) : newestMark s.bare = newestMark s := rfl
@[simp] theorem bare_newestMarker (s : State) : newestMarker s.bare = newestMarker s := rfl
@[simp] theorem bare_newestSeal (s : State) : newestSeal s.bare = newestSeal s := rfl
@[simp] theorem bare_nextEntry (a1) (s : State) : nextEntry s.bare a1 = nextEntry s a1 := rfl
@[simp] theorem bare_nextSector (s : State) : nextSector s.bare = nextSector s := rfl
@[simp] theorem bare_nextSlice (s : State) : nextSlice s.bare = nextSlice s := rfl
@[simp] theorem bare_nextThaw (s : State) : nextThaw s.bare = nextThaw s := rfl
@[simp] theorem bare_noRouteNow (s : State) : noRouteNow s.bare = noRouteNow s := rfl
@[simp] theorem bare_noSpare (a1) (s : State) : noSpare s.bare a1 = noSpare s a1 := rfl
@[simp] theorem bare_offerDests (a1) (s : State) : offerDests s.bare a1 = offerDests s a1 := rfl
@[simp] theorem bare_offerFlying (a1) (s : State) : offerFlying s.bare a1 = offerFlying s a1 := rfl
@[simp] theorem bare_offered (a1) (s : State) : offered s.bare a1 = offered s a1 := rfl
@[simp] theorem bare_otpWord (a1) (s : State) : otpWord s.bare a1 = otpWord s a1 := rfl
@[simp] theorem bare_outAbsent (a1) (s : State) : outAbsent s.bare a1 = outAbsent s a1 := rfl
@[simp] theorem bare_overwriting (s : State) : overwriting s.bare = overwriting s := rfl
@[simp] theorem bare_ownCampion (a1) (s : State) : ownCampion s.bare a1 = ownCampion s a1 := rfl
@[simp] theorem bare_pairAck (a1) (a2) (a3) (a4) (a5) (s : State) : pairAck s.bare a1 a2 a3 a4 a5 = pairAck s a1 a2 a3 a4 a5 := rfl
@[simp] theorem bare_pairTmo (s : State) : pairTmo s.bare = pairTmo s := rfl
@[simp] theorem bare_partnerOk (a1) (s : State) : partnerOk s.bare a1 = partnerOk s a1 := rfl
@[simp] theorem bare_passMsg (a1) (s : State) : passMsg s.bare a1 = passMsg s a1 := rfl
@[simp] theorem bare_passedOffer (a1) (a2) (s : State) : passedOffer s.bare a1 a2 = passedOffer s a1 a2 := rfl
@[simp] theorem bare_peerOf (a1) (s : State) : peerOf s.bare a1 = peerOf s a1 := rfl
@[simp] theorem bare_pendUsed (a1) (s : State) : pendUsed s.bare a1 = pendUsed s a1 := rfl
@[simp] theorem bare_periodInForce (s : State) : periodInForce s.bare = periodInForce s := rfl
@[simp] theorem bare_permits (a1) (a2) (s : State) : permits s.bare a1 a2 = permits s a1 a2 := rfl
@[simp] theorem bare_persisting (s : State) : persisting s.bare = persisting s := rfl
@[simp] theorem bare_pickSlice (a1) (a2) (s : State) : pickSlice s.bare a1 a2 = pickSlice s a1 a2 := rfl
@[simp] theorem bare_pinned (a1) (a2) (s : State) : pinned s.bare a1 a2 = pinned s a1 a2 := rfl
@[simp] theorem bare_pinsOf (a1) (s : State) : pinsOf s.bare a1 = pinsOf s a1 := rfl
@[simp] theorem bare_placesFree (a1) (a2) (a3) (s : State) : placesFree s.bare a1 a2 a3 = placesFree s a1 a2 a3 := rfl
@[simp] theorem bare_portOpen (a1) (s : State) : portOpen s.bare a1 = portOpen s a1 := rfl
@[simp] theorem bare_portToward (a1) (s : State) : portToward s.bare a1 = portToward s a1 := rfl
@[simp] theorem bare_portUp (a1) (s : State) : portUp s.bare a1 = portUp s a1 := rfl
@[simp] theorem bare_predCode (a1) (a2) (s : State) : predCode s.bare a1 a2 = predCode s a1 a2 := rfl
@[simp] theorem bare_predEnabled (a1) (a2) (s : State) : predEnabled s.bare a1 a2 = predEnabled s a1 a2 := rfl
@[simp] theorem bare_predPinned (a1) (a2) (s : State) : predPinned s.bare a1 a2 = predPinned s a1 a2 := rfl
@[simp] theorem bare_predSrc (a1) (a2) (s : State) : predSrc s.bare a1 a2 = predSrc s a1 a2 := rfl
@[simp] theorem bare_preferred (s : State) : preferred s.bare = preferred s := rfl
@[simp] theorem bare_presentRW (a1) (s : State) : presentRW s.bare a1 = presentRW s a1 := rfl
@[simp] theorem bare_probeState (a1) (a2) (s : State) : probeState s.bare a1 a2 = probeState s a1 a2 := rfl
@[simp] theorem bare_psettle (s : State) : psettle s.bare = psettle s := rfl
@[simp] theorem bare_pulseSeen (a0) (s : State) : pulseSeen a0 s.bare = pulseSeen a0 s := rfl
@[simp] theorem bare_readCause (a1) (a2) (s : State) : readCause s.bare a1 a2 = readCause s a1 a2 := rfl
@[simp] theorem bare_readySlices (s : State) : readySlices s.bare = readySlices s := rfl
@[simp] theorem bare_recKind (a1) (s : State) : recKind s.bare a1 = recKind s a1 := rfl
@[simp] theorem bare_recsNeeded (a1) (s : State) : recsNeeded s.bare a1 = recsNeeded s a1 := rfl
@[simp] theorem bare_redirectOf (a1) (a2) (s : State) : redirectOf s.bare a1 a2 = redirectOf s a1 a2 := rfl
@[simp] theorem bare_regionHeld (a1) (s : State) : regionHeld s.bare a1 = regionHeld s a1 := rfl
@[simp] theorem bare_regionIdle (a1) (s : State) : regionIdle s.bare a1 = regionIdle s a1 := rfl
@[simp] theorem bare_remoteMsg (a1) (a2) (s : State) : remoteMsg s.bare a1 a2 = remoteMsg s a1 a2 := rfl
@[simp] theorem bare_remoteRsp (a1) (a2) (a3) (a4) (a5) (s : State) : remoteRsp s.bare a1 a2 a3 a4 a5 = remoteRsp s a1 a2 a3 a4 a5 := rfl
@[simp] theorem bare_remoteStamp (a0) (s : State) : remoteStamp a0 s.bare = remoteStamp a0 s := rfl
@[simp] theorem bare_remoteWin (a0) (s : State) : remoteWin a0 s.bare = remoteWin a0 s := rfl
@[simp] theorem bare_replayLost (a1) (a2) (s : State) : replayLost s.bare a1 a2 = replayLost s a1 a2 := rfl
@[simp] theorem bare_reqEntry (a1) (s : State) : reqEntry s.bare a1 = reqEntry s a1 := rfl
@[simp] theorem bare_restoring (a1) (s : State) : restoring s.bare a1 = restoring s a1 := rfl
@[simp] theorem bare_resyncedBy (a1) (s : State) : resyncedBy s.bare a1 = resyncedBy s a1 := rfl
@[simp] theorem bare_resyncing (a1) (s : State) : resyncing s.bare a1 = resyncing s a1 := rfl
@[simp] theorem bare_rimeActive (a1) (a2) (s : State) : rimeActive s.bare a1 a2 = rimeActive s a1 a2 := rfl
@[simp] theorem bare_rimeRef (a1) (a2) (s : State) : rimeRef s.bare a1 a2 = rimeRef s a1 a2 := rfl
@[simp] theorem bare_rimeSkips (a1) (a2) (s : State) : rimeSkips s.bare a1 a2 = rimeSkips s a1 a2 := rfl
@[simp] theorem bare_ringBase (a1) (s : State) : ringBase s.bare a1 = ringBase s a1 := rfl
@[simp] theorem bare_ringReqs (a0) (s : State) : ringReqs a0 s.bare = ringReqs a0 s := rfl
@[simp] theorem bare_ringSize (a1) (s : State) : ringSize s.bare a1 = ringSize s a1 := rfl
@[simp] theorem bare_ringWords (a1) (a2) (s : State) : ringWords s.bare a1 a2 = ringWords s a1 a2 := rfl
@[simp] theorem bare_routeOf (a1) (a2) (a3) (s : State) : routeOf s.bare a1 a2 a3 = routeOf s a1 a2 a3 := rfl
@[simp] theorem bare_rtFind (a1) (a2) (s : State) : rtFind s.bare a1 a2 = rtFind s a1 a2 := rfl
@[simp] theorem bare_rtHeldBy (a1) (s : State) : rtHeldBy s.bare a1 = rtHeldBy s a1 := rfl
@[simp] theorem bare_rtUsable (a1) (s : State) : rtUsable s.bare a1 = rtUsable s a1 := rfl
@[simp] theorem bare_rtmo (s : State) : rtmo s.bare = rtmo s := rfl
@[simp] theorem bare_runCycles (a1) (a2) (s : State) : runCycles s.bare a1 a2 = runCycles s a1 a2 := rfl
@[simp] theorem bare_running (a1) (s : State) : running s.bare a1 = running s a1 := rfl
@[simp] theorem bare_s2Due (a0) (a2) (s : State) : s2Due a0 s.bare a2 = s2Due a0 s a2 := rfl
@[simp] theorem bare_s2Length (a1) (s : State) : s2Length s.bare a1 = s2Length s a1 := rfl
@[simp] theorem bare_s5Loading (s : State) : s5Loading s.bare = s5Loading s := rfl
@[simp] theorem bare_s5Word (a1) (s : State) : s5Word s.bare a1 = s5Word s a1 := rfl
@[simp] theorem bare_schedReqs (s : State) : schedReqs s.bare = schedReqs s := rfl
@[simp] theorem bare_sealBytes (a1) (s : State) : sealBytes s.bare a1 = sealBytes s a1 := rfl
@[simp] theorem bare_sealClosed (s : State) : sealClosed s.bare = sealClosed s := rfl
@[simp] theorem bare_sealMac (a1) (s : State) : sealMac s.bare a1 = sealMac s a1 := rfl
@[simp] theorem bare_sealWords (a1) (s : State) : sealWords s.bare a1 = sealWords s a1 := rfl
@[simp] theorem bare_segGrants (a1) (a2) (s : State) : segGrants s.bare a1 a2 = segGrants s a1 a2 := rfl
@[simp] theorem bare_selStamp (a1) (s : State) : selStamp s.bare a1 = selStamp s a1 := rfl
@[simp] theorem bare_selValue (a1) (s : State) : selValue s.bare a1 = selValue s a1 := rfl
@[simp] theorem bare_sentUnreported (s : State) : sentUnreported s.bare = sentUnreported s := rfl
@[simp] theorem bare_setsOk (a1) (s : State) : setsOk s.bare a1 = setsOk s a1 := rfl
@[simp] theorem bare_shareOf (a1) (s : State) : shareOf s.bare a1 = shareOf s a1 := rfl
@[simp] theorem bare_sideDie (a0) (s : State) : sideDie a0 s.bare = sideDie a0 s := rfl
@[simp] theorem bare_slcFields (a1) (s : State) : slcFields s.bare a1 = slcFields s a1 := rfl
@[simp] theorem bare_sleepOk (s : State) : sleepOk s.bare = sleepOk s := rfl
@[simp] theorem bare_sliceOf (a1) (s : State) : sliceOf s.bare a1 = sliceOf s a1 := rfl
@[simp] theorem bare_sourceIdle (a1) (s : State) : sourceIdle s.bare a1 = sourceIdle s a1 := rfl
@[simp] theorem bare_sourceLevel (a1) (s : State) : sourceLevel s.bare a1 = sourceLevel s a1 := rfl
@[simp] theorem bare_spillReqs (s : State) : spillReqs s.bare = spillReqs s := rfl
@[simp] theorem bare_srcCls (a1) (s : State) : srcCls s.bare a1 = srcCls s a1 := rfl
@[simp] theorem bare_srcDest (a1) (s : State) : srcDest s.bare a1 = srcDest s a1 := rfl
@[simp] theorem bare_srcEn (a1) (s : State) : srcEn s.bare a1 = srcEn s a1 := rfl
@[simp] theorem bare_srcPaired (a1) (s : State) : srcPaired s.bare a1 = srcPaired s a1 := rfl
@[simp] theorem bare_srcPartner (a1) (s : State) : srcPartner s.bare a1 = srcPartner s a1 := rfl
@[simp] theorem bare_srcPrio (a1) (s : State) : srcPrio s.bare a1 = srcPrio s a1 := rfl
@[simp] theorem bare_srcSlice (a1) (s : State) : srcSlice s.bare a1 = srcSlice s a1 := rfl
@[simp] theorem bare_srcSlot (a1) (s : State) : srcSlot s.bare a1 = srcSlot s a1 := rfl
@[simp] theorem bare_stagedWord (a1) (a2) (s : State) : stagedWord s.bare a1 a2 = stagedWord s a1 a2 := rfl
@[simp] theorem bare_stagedWords (s : State) : stagedWords s.bare = stagedWords s := rfl
@[simp] theorem bare_stagingUsed (a1) (s : State) : stagingUsed s.bare a1 = stagingUsed s a1 := rfl
@[simp] theorem bare_stamp16 (a1) (s : State) : stamp16 s.bare a1 = stamp16 s a1 := rfl
@[simp] theorem bare_stampRemote (a0) (s : State) : stampRemote a0 s.bare = stampRemote a0 s := rfl
@[simp] theorem bare_standing (a1) (a2) (s : State) : standing s.bare a1 a2 = standing s a1 a2 := rfl
@[simp] theorem bare_stopAllows (a1) (a2) (s : State) : stopAllows s.bare a1 a2 = stopAllows s a1 a2 := rfl
@[simp] theorem bare_straightF (a0) (s : State) : straightF a0 s.bare = straightF a0 s := rfl
@[simp] theorem bare_streamBlocked (a1) (a2) (s : State) : streamBlocked s.bare a1 a2 = streamBlocked s a1 a2 := rfl
@[simp] theorem bare_streamLive (a1) (s : State) : streamLive s.bare a1 = streamLive s a1 := rfl
@[simp] theorem bare_stuckLane (a1) (s : State) : stuckLane s.bare a1 = stuckLane s a1 := rfl
@[simp] theorem bare_stuckRegion (a1) (s : State) : stuckRegion s.bare a1 = stuckRegion s a1 := rfl
@[simp] theorem bare_syncDue (s : State) : syncDue s.bare = syncDue s := rfl
@[simp] theorem bare_syncInt (s : State) : syncInt s.bare = syncInt s := rfl
@[simp] theorem bare_syncPort (s : State) : syncPort s.bare = syncPort s := rfl
@[simp] theorem bare_sysHeld (s : State) : sysHeld s.bare = sysHeld s := rfl
@[simp] theorem bare_tableWordOk (a1) (a2) (a3) (s : State) : tableWordOk s.bare a1 a2 a3 = tableWordOk s a1 a2 a3 := rfl
@[simp] theorem bare_tagOf (a1) (s : State) : tagOf s.bare a1 = tagOf s a1 := rfl
@[simp] theorem bare_tagRec (a1) (s : State) : tagRec s.bare a1 = tagRec s a1 := rfl
@[simp] theorem bare_tailBlock (a1) (s : State) : tailBlock s.bare a1 = tailBlock s a1 := rfl
@[simp] theorem bare_takeoverDue (a1) (s : State) : takeoverDue s.bare a1 = takeoverDue s a1 := rfl
@[simp] theorem bare_takingOver (a1) (s : State) : takingOver s.bare a1 = takingOver s a1 := rfl
@[simp] theorem bare_tamper (s : State) : tamper s.bare = tamper s := rfl
@[simp] theorem bare_testing (a1) (s : State) : testing s.bare a1 = testing s a1 := rfl
@[simp] theorem bare_thaw0Start (s : State) : thaw0Start s.bare = thaw0Start s := rfl
@[simp] theorem bare_thaw0Tick (s : State) : thaw0Tick s.bare = thaw0Tick s := rfl
@[simp] theorem bare_thawDue (s : State) : thawDue s.bare = thawDue s := rfl
@[simp] theorem bare_thawing (s : State) : thawing s.bare = thawing s := rfl
@[simp] theorem bare_timeRuns (s : State) : timeRuns s.bare = timeRuns s := rfl
@[simp] theorem bare_tokensUsed (s : State) : tokensUsed s.bare = tokensUsed s := rfl
@[simp] theorem bare_tokensWarm (s : State) : tokensWarm s.bare = tokensWarm s := rfl
@[simp] theorem bare_tornBlock (a1) (s : State) : tornBlock s.bare a1 = tornBlock s a1 := rfl
@[simp] theorem bare_traceNlog (s : State) : traceNlog s.bare = traceNlog s := rfl
@[simp] theorem bare_traceSelected (a0) (a1) (s : State) : traceSelected a0 a1 s.bare = traceSelected a0 a1 s := rfl
@[simp] theorem bare_traceWord (a1) (s : State) : traceWord s.bare a1 = traceWord s a1 := rfl
@[simp] theorem bare_trimPhase (s : State) : trimPhase s.bare = trimPhase s := rfl
@[simp] theorem bare_trimReady (s : State) : trimReady s.bare = trimReady s := rfl
@[simp] theorem bare_twinReason (a0) (s : State) : twinReason a0 s.bare = twinReason a0 s := rfl
@[simp] theorem bare_txNew (a1) (a2) (s : State) : txNew s.bare a1 a2 = txNew s a1 a2 := rfl
@[simp] theorem bare_txRoom (a1) (a2) (s : State) : txRoom s.bare a1 a2 = txRoom s a1 a2 := rfl
@[simp] theorem bare_unitDom (a1) (s : State) : unitDom s.bare a1 = unitDom s a1 := rfl
@[simp] theorem bare_unitLoaded (a1) (s : State) : unitLoaded s.bare a1 = unitLoaded s a1 := rfl
@[simp] theorem bare_unitOn (a1) (s : State) : unitOn s.bare a1 = unitOn s a1 := rfl
@[simp] theorem bare_unreachable (a1) (s : State) : unreachable s.bare a1 = unreachable s a1 := rfl
@[simp] theorem bare_unreachables (s : State) : unreachables s.bare = unreachables s := rfl
@[simp] theorem bare_vecRange (a1) (s : State) : vecRange s.bare a1 = vecRange s a1 := rfl
@[simp] theorem bare_verCount (a1) (s : State) : verCount s.bare a1 = verCount s a1 := rfl
@[simp] theorem bare_verifyReason (a0) (s : State) : verifyReason a0 s.bare = verifyReason a0 s := rfl
@[simp] theorem bare_waiting (s : State) : waiting s.bare = waiting s := rfl
@[simp] theorem bare_wakeFits (a1) (s : State) : wakeFits s.bare a1 = wakeFits s a1 := rfl
@[simp] theorem bare_wakeReady (a1) (s : State) : wakeReady s.bare a1 = wakeReady s a1 := rfl
@[simp] theorem bare_wbField (a0) (s : State) : wbField a0 s.bare = wbField a0 s := rfl
@[simp] theorem bare_wdog (a1) (s : State) : wdog s.bare a1 = wdog s a1 := rfl
@[simp] theorem bare_winOpens (a1) (s : State) : winOpens s.bare a1 = winOpens s a1 := rfl
@[simp] theorem bare_winPos (a1) (a2) (a3) (a4) (s : State) : winPos s.bare a1 a2 a3 a4 = winPos s a1 a2 a3 a4 := rfl
@[simp] theorem bare_winReady (a1) (a2) (s : State) : winReady s.bare a1 a2 = winReady s a1 a2 := rfl
@[simp] theorem bare_writeCands (s : State) : writeCands s.bare = writeCands s := rfl
@[simp] theorem bare_writeCause (a1) (a2) (s : State) : writeCause s.bare a1 a2 = writeCause s a1 a2 := rfl
@[simp] theorem bare_writeOffers (a1) (s : State) : writeOffers s.bare a1 = writeOffers s a1 := rfl
@[simp] theorem bare_writerBusy (a1) (s : State) : writerBusy s.bare a1 = writerBusy s a1 := rfl
@[simp] theorem bare_wsWord (a1) (s : State) : wsWord s.bare a1 = wsWord s a1 := rfl
@[simp] theorem bare_xbEntries (s : State) : xbEntries s.bare = xbEntries s := rfl
@[simp] theorem bare_xbRoom (a1) (a2) (s : State) : xbRoom s.bare a1 a2 = xbRoom s a1 a2 := rfl

end Sys2Proof.Machine
end

