-- ==== Sys2Proof/Laws/Read.lean ====
section
/-! SUPPORT. What is read of a part that an operation leaves alone is what was read before it. -/

namespace Sys2Proof.Machine

theorem Keeps.rd_eq {w : List Part} {s t : State} (h : Keeps w s t) (f) (hp : Part.regs ∉ w := by decide) : t.rd f = s.rd f := by
  unfold State.rd
  rw [h.same .regs hp]

theorem Keeps.flag_eq {w : List Part} {s t : State} (h : Keeps w s t) (f) (hp : Part.regs ∉ w := by decide) : t.flag f = s.flag f := by
  unfold State.flag State.rd
  rw [h.same .regs hp]

theorem Keeps.coreOf_eq {w : List Part} {s t : State} (h : Keeps w s t) (n) (hp : Part.core ∉ w := by decide) : t.coreOf n = s.coreOf n := by
  unfold State.coreOf
  rw [h.same .core hp]

theorem Keeps.predOf_eq {w : List Part} {s t : State} (h : Keeps w s t) (n i) (hp : Part.pred ∉ w := by decide) : t.predOf n i = s.predOf n i := by
  unfold State.predOf
  rw [h.same .pred hp]

theorem Keeps.clusOf_eq {w : List Part} {s t : State} (h : Keeps w s t) (n) (hp : Part.clus ∉ w := by decide) : t.clusOf n = s.clusOf n := by
  unfold State.clusOf
  rw [h.same .clus hp]

theorem Keeps.arbOf_eq {w : List Part} {s t : State} (h : Keeps w s t) (n) (hp : Part.arb ∉ w := by decide) : t.arbOf n = s.arbOf n := by
  unfold State.arbOf
  rw [h.same .arb hp]

theorem Keeps.campOf_eq {w : List Part} {s t : State} (h : Keeps w s t) (n) (hp : Part.camp ∉ w := by decide) : t.campOf n = s.campOf n := by
  unfold State.campOf
  rw [h.same .camp hp]

theorem Keeps.segOf_eq {w : List Part} {s t : State} (h : Keeps w s t) (n) (hp : Part.seg ∉ w := by decide) : t.segOf n = s.segOf n := by
  unfold State.segOf
  rw [h.same .seg hp]

theorem Keeps.port_eq {w : List Part} {s t : State} (h : Keeps w s t) (n) (hp : Part.lnk ∉ w := by decide) : t.port n = s.port n := by
  unfold State.port
  rw [h.same .lnk hp]

theorem Keeps.lockOf_eq {w : List Part} {s t : State} (h : Keeps w s t) (n) (hp : Part.lock ∉ w := by decide) : t.lockOf n = s.lockOf n := by
  unfold State.lockOf
  rw [h.same .lock hp]

theorem Keeps.latchOf_eq {w : List Part} {s t : State} (h : Keeps w s t) (n) (hp : Part.src ∉ w := by decide) : t.latchOf n = s.latchOf n := by
  unfold State.latchOf
  rw [h.same .src hp]

theorem Keeps.recOf_eq {w : List Part} {s t : State} (h : Keeps w s t) (n) (hp : Part.firn ∉ w := by decide) : t.recOf n = s.recOf n := by
  unfold State.recOf
  rw [h.same .firn hp]

theorem Keeps.buf_eq {w : List Part} {s t : State} (h : Keeps w s t) (n) (hp : Part.xb ∉ w := by decide) : t.buf n = s.buf n := by
  unfold State.buf
  rw [h.same .xb hp]

theorem Keeps.staging_eq {w : List Part} {s t : State} (h : Keeps w s t) (n) (hp : Part.xb ∉ w := by decide) : t.staging n = s.staging n := by
  unfold State.staging
  rw [h.same .xb hp]

theorem Keeps.ring_eq {w : List Part} {s t : State} (h : Keeps w s t) (n) (hp : Part.xb ∉ w := by decide) : t.ring n = s.ring n := by
  unfold State.ring
  rw [h.same .xb hp]

theorem Keeps.resv_eq {w : List Part} {s t : State} (h : Keeps w s t) (n) (hp : Part.xb ∉ w := by decide) : t.resv n = s.resv n := by
  unfold State.resv
  rw [h.same .xb hp]

theorem Keeps.crossing_eq {w : List Part} {s t : State} (h : Keeps w s t) (n) (hp : Part.rq ∉ w := by decide) : t.crossing n = s.crossing n := by
  unfold State.crossing
  rw [h.same .rq hp]

theorem Keeps.lane_eq {w : List Part} {s t : State} (h : Keeps w s t) (n) (hp : Part.rq ∉ w := by decide) : t.lane n = s.lane n := by
  unfold State.lane
  rw [h.same .rq hp]

theorem Keeps.laneResv_eq {w : List Part} {s t : State} (h : Keeps w s t) (n) (hp : Part.rq ∉ w := by decide) : t.laneResv n = s.laneResv n := by
  unfold State.laneResv
  rw [h.same .rq hp]

theorem Keeps.toClus_eq {w : List Part} {s t : State} (h : Keeps w s t) (n) (hp : Part.rq ∉ w := by decide) : t.toClus n = s.toClus n := by
  unfold State.toClus
  rw [h.same .rq hp]

theorem Keeps.slice_eq {w : List Part} {s t : State} (h : Keeps w s t) (n) (hp : Part.gate ∉ w := by decide) : t.slice n = s.slice n := by
  unfold State.slice
  rw [h.same .gate hp]

theorem Keeps.chan_eq {w : List Part} {s t : State} (h : Keeps w s t) (n) (hp : Part.edw ∉ w := by decide) : t.chan n = s.chan n := by
  unfold State.chan
  rw [h.same .edw hp]

theorem Keeps.tab_eq {w : List Part} {s t : State} (h : Keeps w s t) (n i) (hp : Part.img ∉ w := by decide) : t.tab n i = s.tab n i := by
  unfold State.tab
  rw [h.same .img hp]

theorem Keeps.struct_eq {w : List Part} {s t : State} (h : Keeps w s t) (n i) (hp : Part.yar ∉ w := by decide) : t.struct n i = s.struct n i := by
  unfold State.struct
  rw [h.same .yar hp]

@[simp] theorem State.predOf_setPred (s : State) (n i) (p) : (s.setPred n i p).predOf n i = p := tget_tset_same ..

theorem State.predOf_setPred_ne (s : State) {n i k j} (p) (h : 2 * k + j ≠ 2 * n + i) : (s.setPred n i p).predOf k j = s.predOf k j :=
  tget_tset_ne _ _ _ _ h

/-- A counter that rises leaves the other fields. -/
theorem inc_rd_ne (s : State) {f g : Fld} (n : Nat) (h : g.key ≠ f.key) : (s.inc f n).rd g = s.rd g := by
  unfold State.inc
  exact State.rd_wr_ne _ _ h

theorem wr_off (s : State) {f g : Fld} (v : Nat) (h : f.off ≠ g.off) (h1 : f.lo < 32) (h2 : g.lo < 32) : (s.wr g v).rd f = s.rd f :=
  State.rd_wr_ne _ _ (by unfold Fld.key; omega)

/-- Tracing a point changes no register but TRACE_STAT. -/
theorem trace_rd (p d : Nat) (m : Msg) (s : State) (f : Fld) (h : f.off ≠ 0x2004C) (hl : f.lo < 32) : (trace p d m s).rd f = s.rd f := by
  have he (u : State) : (traceEnqueue p d m u).rd f = u.rd f := by
    unfold traceEnqueue
    dsimp only
    (repeat' split) <;> first
      | rfl
      | exact wr_off _ _ h hl (by decide)
  unfold trace
  split
  · dsimp only
    by_cases q : p = 1
    · simp only [if_pos q]
      split
      · exact he _
      · rfl
    · simp only [if_neg q]
      split
      · exact he _
      · rfl
  · rfl

/-- An internal event changes no register but those that count refusals and TRACE_STAT. -/
theorem raiseInt_rd (src payload : Nat) (s : State) (f : Fld) (h : (f.off < 0x108 ∨ 0x160 ≤ f.off) ∧ f.off ≠ 0x2004C) (hl : f.lo < 32) :
    (raiseInt src payload s).rd f = s.rd f := by
  unfold raiseInt
  dsimp only
  split
  · rfl
  split
  · unfold countRefusal State.raise State.inc
    dsimp only
    refine (trace_rd _ _ _ _ f h.2 hl).trans ?_
    have : (⟨0x110 + 4 * 0, 0, 32, 0⟩ : Fld).off = 0x110 := rfl
    rw [wr_off _ _ (by unfold Reg.ACC_LASTREF_VALID; dsimp only; omega) hl (by decide), wr_off _ _ (by unfold Reg.ACC_LASTREF_KIND; dsimp only; omega) hl (by decide),
      wr_off _ _ (by unfold Reg.ACC_LASTREF_REASON; dsimp only; omega) hl (by decide), wr_off _ _ (by unfold Reg.ACC_LASTREF_SOURCE; dsimp only; omega) hl (by decide),
      wr_off _ _ (by unfold Reg.ACC_REF; dsimp only; omega) hl (by decide)]
  · rfl

end Sys2Proof.Machine
end

