-- ==== Sys2Proof/Laws/Acceptance.lean ====
section
/-! SUPPORT. Lemmas on acceptance: records, offers and custody. -/

set_option maxHeartbeats 1000000

namespace Sys2Proof.Machine

theorem takeFirst_beq {α} [BEq α] [LawfulBEq α] {a : α} {l : List α} (h : a ∈ l) :
    takeFirst (· == a) l = some (a, l.erase a) := by
  induction l with
  | nil => cases h
  | cons x l ih =>
    unfold takeFirst
    by_cases hx : x = a
    · subst hx
      simp
    · rw [if_neg (by simpa using hx), ih (List.mem_of_ne_of_mem (Ne.symm hx) h)]
      simp [hx]

theorem takeCtl_mem {m : Msg} {f : State → State} {s : State} (h : m ∈ s.xb.ctl) :
    takeCtl m f s = f { s with xb := { s.xb with ctl := s.xb.ctl.erase m } } := by
  unfold takeCtl
  rw [takeFirst_beq h]

theorem takeRec_mem {m : Msg} {f : State → State} {s : State} (h : m ∈ s.xb.recIn) :
    takeRec m f s = f { s with xb := { s.xb with recIn := s.xb.recIn.erase m } } := by
  unfold takeRec
  rw [takeFirst_beq h]

/-- A record write leaves the offers that cross to Firn. -/
theorem firnWrite_writes (r : FirnRec) (s : State) : (firnWrite r s).firn.writes = s.firn.writes := by
  unfold firnWrite
  split
  · rw [show (firnNearCheck s (s.setRec (firnFree s) (some r))).firn = (s.setRec (firnFree s) (some r)).firn from
      (firnNearCheck_keeps ..).same .firn (by decide)]
    rfl
  · rfl

theorem followRestored_writes (m u) (s : State) : (followRestored m u s).firn.writes = s.firn.writes := by
  unfold followRestored
  (repeat' split) <;> rfl

theorem intoCrossing_writes (i m u r) (s : State) : (intoCrossing i m u r s).firn.writes = s.firn.writes := by
  unfold intoCrossing
  dsimp only
  repeat' first
    | rfl
    | exact followRestored_writes ..
    | exact firnWrite_writes ..
    | split

theorem sendReflex_writes (m) (s : State) : (sendReflex m s).firn.writes = s.firn.writes := by
  unfold sendReflex
  dsimp only
  split
  · rw [intoCrossing_writes]
    exact congrArg FirnS.writes ((wakeFor_keeps ..).same .firn (by decide))
  · split
    · split
      · exact congrArg FirnS.writes ((xbStore_keeps ..).same .firn (by decide))
      · rfl
    · rfl

theorem dropWrite_offers (w v) (s : State) : (dropWrite w v s).acc.offers = s.acc.offers ∧
    (dropWrite w v s).acc.counters = s.acc.counters := by
  unfold dropWrite
  split <;> exact ⟨rfl, rfl⟩

theorem passTake_does (c : Cand) (p : Place) (s : State) :
    (passTake c p s).acc.counters = tset 0 s.acc.counters c.src (tget 0 s.acc.counters c.src + 1) ∧
      (passTake c p s).acc.offers = s.acc.offers ∧ (passTake c p s).firn.writes = s.firn.writes := by
  unfold passTake
  dsimp only
  rw [(sendReflex_keeps ..).same .acc (by decide), (reserve_keeps ..).same .acc (by decide), sendReflex_writes,
    (reserve_keeps ..).same .firn (by decide)]
  split
  · refine ⟨(dropWrite_offers ..).2, (dropWrite_offers ..).1, ?_⟩
    rw [(dropWrite_keeps ..).same .firn (by decide)]
  · exact ⟨rfl, rfl, rfl⟩

theorem enterOffer_does (o : Offer) (s : State) : (enterOffer o s).acc.offers = s.acc.offers ++ [o] ∧
    (enterOffer o s).acc.counters = s.acc.counters ∧
    (enterOffer o s).firn.writes = s.firn.writes ++ [(o.msg.source, o.msg.seq)] := by
  unfold enterOffer
  dsimp only
  split
  · split
    · exact ⟨rfl, rfl, rfl⟩
    · rw [(sendCtl_keeps ..).same .acc (by decide), (sendCtl_keeps ..).same .firn (by decide)]
      exact ⟨rfl, rfl, rfl⟩
  · exact ⟨rfl, rfl, rfl⟩

/-- What an offer that passes A0 takes, when its class is not S. -/
theorem passOffer_does (c : Cand) (s : State) (hc : srcCls s c.src ≠ .s) : ∃ o : Offer,
    tget 0 (passOffer c s).acc.counters c.src = tget 0 s.acc.counters c.src + 1 ∧
      (∀ k, k ≠ c.src → tget 0 (passOffer c s).acc.counters k = tget 0 s.acc.counters k) ∧
      (passOffer c s).acc.offers = s.acc.offers ++ [o] ∧ o.msg.seq = tget 0 s.acc.counters c.src ∧
      o.msg.source = BitVec.ofNat 13 c.src ∧ o.a0 = s.time.now ∧ o.ack = false ∧
      (passOffer c s).firn.writes = s.firn.writes ++ [(o.msg.source, o.msg.seq)] := by
  unfold passOffer
  dsimp only
  have hm : ((passMsg s c).cls == .s) = false := by
    have : (passMsg s c).cls = srcCls s c.src := rfl
    rw [this]
    cases h : srcCls s c.src <;> first | rfl | exact absurd h hc
  rw [hm]
  simp only [Bool.false_eq_true, ↓reduceIte]
  generalize (lanePlace s c.src (passMsg s c) (candAva s c)).getD .none = p
  rw [(firnNearCheck_keeps ..).same .acc (by decide), (firnNearCheck_keeps ..).same .firn (by decide)]
  obtain ⟨a1, a2, a3⟩ := enterOffer_does (passedOffer s c p) (passTake c p s)
  obtain ⟨b1, b2, b3⟩ := passTake_does c p s
  refine ⟨passedOffer s c p, ?_, fun k hk => ?_, ?_, rfl, rfl, rfl, rfl, ?_⟩
  · rw [a2, b1, tget_tset_same]
  · rw [a2, b1, tget_tset_ne _ _ _ _ hk]
  · rw [a1, b2]
  · rw [a3, b3]

/-- What the writing of the oldest record leaves. -/
theorem writeOldest_does {s : State} {src : BitVec 13} {q : BitVec 24} {l : List (BitVec 13 × BitVec 24)} {o : Offer}
    (h : s.firn.writes = (src, q) :: l)
    (ho : s.acc.offers.find? (fun o => o.msg.source == src && o.msg.seq == q) = some o) :
    (writeOldest s).firn.writes = l ∧
      (writeOldest s).recOf (firnFree s) = some { kind := .event, msg := o.msg, need := o.need, partner := o.partner, accepted := false, since := s.time.now } ∧
      (∀ k, k ≠ firnFree s → (writeOldest s).recOf k = s.recOf k) ∧
      (writeOldest s).acc.offers = modFirst (fun o => o.msg.source == src && o.msg.seq == q)
        (fun o => { o with recs := 0, idx := some (firnFree s), ack := true }) s.acc.offers ∧
      (writeOldest s).edw.inbox = (if o.msg.cls = .m then s.edw.inbox ++ [o.msg] else s.edw.inbox) := by
  unfold writeOldest
  rw [h]
  dsimp only
  rw [ho]
  dsimp only
  have e : ∀ c : Cls, (c == .m) = decide (c = .m) := fun c => by cases c <;> rfl
  rw [e]
  by_cases hm : o.msg.cls = .m
  · simp only [hm, decide_true, ↓reduceIte]
    exact ⟨rfl, State.recOf_setRec .., fun k hk => State.recOf_setRec_ne _ _ hk, rfl, rfl⟩
  · simp only [hm, decide_false, Bool.false_eq_true, ↓reduceIte]
    exact ⟨rfl, State.recOf_setRec .., fun k hk => State.recOf_setRec_ne _ _ hk, rfl, rfl⟩

/-- The accept point of an event from a latch, no completion of which has come early. -/
theorem acceptPoint_does (o : Offer) (d) (s : State) (hw : o.writer = none) (he : o.early = []) :
    (acceptPoint o d s).acc = s.acc ∧ (acceptPoint o d s).latchOf o.msg.source.toNat = none := by
  unfold acceptPoint
  simp only [hw, he, State.each, List.foldl_nil]
  generalize hs : (if d.isEmpty = true then unreserve o.place s else _ : State) = s1
  have k : Keeps [.regs, .xb, .pwr, .trc] s s1 := by
    rw [← hs]
    exact Keeps.ite (Keeps.mono (unreserve_keeps ..) (by decide)) (Keeps.step (xbStore_keeps ..) (by decide) (Keeps.mono (unreserve_keeps ..) (by decide)))
  generalize hs2 : trace 0 0 o.msg ((s1.setLatch o.msg.source.toNat none).inc Reg.ACC_ACCEPT) = s2
  have k2 : Keeps [.regs, .trc] (s1.setLatch o.msg.source.toNat none) s2 := by
    rw [← hs2]
    exact Keeps.step (trace_keeps ..) (by decide) (Keeps.mono (State.inc_keeps ..) (by decide))
  have a : s2.acc = s.acc := (k2.same .acc (by decide)).trans (k.same .acc (by decide))
  have b : s2.latchOf o.msg.source.toNat = none := by
    unfold State.latchOf
    rw [k2.same .src (by decide)]
    exact State.latchOf_setLatch ..
  split
  · exact ⟨a, b⟩
  · exact ⟨a, b⟩

end Sys2Proof.Machine
end

