-- ==== Sys2Proof/Laws/Delivery.lean ====
section
/-! SUPPORT. Lemmas on delivery to cores, and on loops over the state. -/

set_option maxHeartbeats 1000000

namespace Sys2Proof.Machine

theorem predArrive2_core (n parity) (m : Msg) (s : State) : Keeps [.regs, .src, .pred, .clus, .pwr, .trc] (s.setCore n { s.coreOf n with pend := (enterOrReplace m (s.coreOf n).pend).1 }) (admitCore n parity m s) := by
  unfold admitCore
  dsimp only
  refine Keeps.step (askFills_keeps ..) (by decide) (Keeps.step (predArrive_keeps ..) (by decide) (Keeps.step (predArrive_keeps ..) (by decide) ?_))
  have h1 : Keeps [.regs, .src, .pred, .clus, .pwr, .trc] (s.setCore n { s.coreOf n with pend := (enterOrReplace m (s.coreOf n).pend).1 }) (if (enterOrReplace m (s.coreOf n).pend).2 = true then coalesce m.source.toNat (s.setCore n { s.coreOf n with pend := (enterOrReplace m (s.coreOf n).pend).1 }) else s.setCore n { s.coreOf n with pend := (enterOrReplace m (s.coreOf n).pend).1 }) :=
    Keeps.ite (Keeps.mono (coalesce_keeps ..) (by decide)) Keeps.refl
  have h2 := Keeps.step (trace_keeps 5 0 m _) (by decide) h1
  exact Keeps.ite (Keeps.step (State.setClus_keeps ..) (by decide) h2) (Keeps.step (touchLine_keeps ..) (by decide) h2)

/-- What every step of a loop keeps, the loop keeps. -/
theorem State.each_inv {α β : Type} (g : State → β) {f : α → State → State} (l : List α) (h : ∀ a s, g (f a s) = g s) (s : State) :
    g (s.each l f) = g s := by
  unfold State.each
  induction l generalizing s with
  | nil => rfl
  | cons a l ih => rw [List.foldl_cons, ih]; exact h a s

theorem askFills_lines (k j : Nat) (s : State) : ((askFills k s).clusOf j).lines = (s.clusOf j).lines := by
  unfold askFills
  split
  · rfl
  · refine State.each_inv (fun s => (s.clusOf j).lines) _ (fun a s => ?_) s
    dsimp only
    split
    · split
      · rfl
      · by_cases h : j = k
        · subst h; simp
        · rw [State.clusOf_setClus_ne _ _ h]
    · rfl

theorem takeFirst_any {α} {p : α → Bool} {l l' : List α} {x : α} (h : takeFirst p l = some (x, l')) : l.any p = true := by
  induction l generalizing l' with
  | nil => simp [takeFirst] at h
  | cons a l ih =>
    unfold takeFirst at h
    by_cases hp : p a = true
    · simp [hp]
    · rw [if_neg hp] at h
      cases hq : takeFirst p l with
      | none => rw [hq] at h; simp at h
      | some q => rw [hq] at h; simp at h; simp [ih (l' := q.2) (by rw [hq, ← h.1])]

theorem warmTry_pred (n i : Nat) (s : State) : ((warmTry n i s).predOf n i).misses = (s.predOf n i).misses ∧
    ((warmTry n i s).predOf n i).prev = (s.predOf n i).prev := by
  unfold warmTry
  dsimp only
  split
  · have k (u : State) : Keeps [.pwr, .clus] u (askFills (n / 4) (if u.flag (Reg.PREWARM_WAKE n) = true then wake (n / 4) 2 false u else u)) :=
      Keeps.step (askFills_keeps ..) (by decide) (Keeps.ite (Keeps.mono (wake_keeps ..) (by decide)) Keeps.refl)
    rw [(k _).predOf_eq, State.predOf_setPred]
    exact ⟨rfl, rfl⟩
  · exact ⟨rfl, rfl⟩

theorem warmTry_set {n i : Nat} {u t : State} {p : Pred} {f : Fld} {v : Nat} (h : warmTry n i ((u.setPred n i p).wr f v) = t) :
    (t.predOf n i).misses = p.misses ∧ (t.predOf n i).prev = p.prev ∧ t.rd f = v % 2 ^ f.w := by
  rw [← h]
  refine ⟨(warmTry_pred ..).1.trans ?_, (warmTry_pred ..).2.trans ?_, ((warmTry_keeps ..).rd_eq _).trans (State.rd_wr_same ..)⟩
  · exact congrArg Pred.misses (State.predOf_setPred u n i p)
  · exact congrArg Pred.prev (State.predOf_setPred u n i p)

end Sys2Proof.Machine
end

