-- ==== Sys2Proof/Laws/Power.lean ====
section
/-! SUPPORT. Lemmas on power domains. -/

set_option maxHeartbeats 1000000

namespace Sys2Proof.Machine

theorem State.each_inv_mem {α β : Type} (g : State → β) {f : α → State → State} (l : List α) (h : ∀ a ∈ l, ∀ s, g (f a s) = g s) (s : State) :
    g (s.each l f) = g s := by
  unfold State.each
  induction l generalizing s with
  | nil => rfl
  | cons a l ih => rw [List.foldl_cons, ih (fun b hb => h b (List.mem_cons_of_mem _ hb))]; exact h a List.mem_cons_self s

theorem restoreScope_none (p : Nat → Bool) (s : State) (h : firnAll s (fun r => r.kind == .custody) = []) : restoreScope p s = s := by
  unfold restoreScope
  have : firnAll s (fun r => r.kind == .custody && !r.done && r.place != 128 && p r.place && !standing s r.place r.msg) = [] := by
    unfold firnAll at *
    rw [List.filterMap_eq_nil_iff] at h ⊢
    intro e he
    have := h e he
    cases hr : e.2 with
    | none => rfl
    | some r =>
      rw [hr] at this
      dsimp only at this ⊢
      split at this
      · exact nomatch this
      · rename_i hk
        rw [if_neg]
        simp only [Bool.and_eq_true, not_and]
        intro q
        exact absurd q.1.1.1 hk
  dsimp only
  rw [this]
  rfl

theorem firnAll_congr {s u : State} (h : u.firn.recs = s.firn.recs) (p : FirnRec → Bool) : firnAll u p = firnAll s p := by unfold firnAll; rw [h]

/-- The loss of a cluster takes no record. -/
theorem loseCluster_recs (k : Nat) (s : State) : (loseCluster k s).firn.recs = s.firn.recs := by
  unfold loseCluster
  dsimp only
  rw [(resetRegs_keeps ..).same .firn (by decide)]
  refine (congrArg FirnS.recs (State.each_inv (fun s => s.firn)
    (f := fun n s => (discardRun n s).setCamp n { (discardRun n s).campOf n with q := [] }) _ (fun n u => ?_) _)).trans
    (congrArg FirnS.recs (State.each_inv (fun s => s.firn)
      (f := fun j s => s.setCore (4 * k + j) { halt := (s.coreOf (4 * k + j)).halt }) _ (fun _ _ => rfl) s))
  exact (discardRun_keeps n u).same .firn (by decide)

theorem wakeFor_st (l : Nat) (m : Msg) (s : State) : (wakeFor l m s).pwr.st = s.pwr.st := by
  unfold wakeFor
  dsimp only
  split
  · rfl
  · unfold wake addWake
    dsimp only
    (repeat' split) <;> rfl

theorem rewake_st (s : State) : (rewake s).pwr.st = s.pwr.st := State.each_inv (fun s => s.pwr.st) (f := fun (x : Nat × Msg) s => wakeFor x.1 x.2 s) (waiting s) (fun x u => wakeFor_st ..) s

theorem dom_congr {s u : State} (h : u.pwr.st = s.pwr.st) (d : Nat) : u.dom d = s.dom d := by unfold State.dom; rw [h]

theorem dom_setDom (s : State) (d v : Nat) (h : d ≠ 22) (hv : v < 4) : (s.setDom d v).dom d = v := by
  unfold State.dom State.setDom
  rw [if_neg h, tget_tset_same]
  simp only [BitVec.toNat_ofNat]
  omega

theorem dom_setDom_ne (s : State) (d e v : Nat) (h : e ≠ d) : (s.setDom d v).dom e = s.dom e := by
  unfold State.dom State.setDom
  rw [tget_tset_ne _ _ _ _ h]

theorem noteReset_rd (kind index : Nat) (s : State) (h : kind < 8) (h1 : index < 64) :
    (noteReset kind index s).rd Reg.RST_STAT_KIND = kind ∧ (noteReset kind index s).rd Reg.RST_STAT_INDEX = index := by
  unfold noteReset State.inc
  constructor
  · rw [State.rd_wr_ne _ _ (by decide), State.rd_wr_ne _ _ (by decide), State.rd_wr_same]; exact Nat.mod_eq_of_lt h
  · rw [State.rd_wr_ne _ _ (by decide), State.rd_wr_same]; exact Nat.mod_eq_of_lt h1

theorem noteDelayed_view (s : State) : (noteDelayed s).pwr.st = s.pwr.st ∧ (noteDelayed s).pwr.reqs = s.pwr.reqs ∧ (noteDelayed s).pwr.tokens = s.pwr.tokens ∧
    (noteDelayed s).pwr.since = s.pwr.since := by
  unfold noteDelayed
  dsimp only
  (repeat' split) <;> exact ⟨rfl, rfl, rfl, rfl⟩

theorem noteDelayed_fits (q : WakeReq) (s : State) (h : firstWake s = some q) (h1 : wakeFits s q = true) : noteDelayed s = s := by
  unfold noteDelayed
  rw [h]
  dsimp only
  rw [if_pos h1]

theorem setCore_each (n : Nat) (l : List Nat) (hd : l.Nodup) (s : State) (j : Nat) :
    (State.each s l fun j s => s.setCore (n + j) { halt := (s.coreOf (n + j)).halt }).coreOf (n + j) =
      if j ∈ l then { halt := (s.coreOf (n + j)).halt } else s.coreOf (n + j) := by
  induction l generalizing s with
  | nil => rfl
  | cons a l ih =>
    rw [List.nodup_cons] at hd
    refine (ih hd.2 _).trans ?_
    by_cases e : j = a
    · subst e
      rw [if_neg hd.1, State.coreOf_setCore, if_pos List.mem_cons_self]
    · rw [State.coreOf_setCore_ne _ _ (by omega)]
      by_cases hj : j ∈ l
      · rw [if_pos hj, if_pos (List.mem_cons_of_mem _ hj)]
      · rw [if_neg hj, if_neg (by simp [e, hj])]

theorem loseCluster_does (k : Nat) (s : State) : (loseCluster k s).clusOf k = {} ∧
    ∀ j < 4, (loseCluster k s).coreOf (4 * k + j) = { halt := (s.coreOf (4 * k + j)).halt } := by
  unfold loseCluster
  dsimp only
  obtain ⟨a, ha⟩ : ∃ a, a = State.each s (List.range 4) fun j s => s.setCore (4 * k + j) { halt := (s.coreOf (4 * k + j)).halt } := ⟨_, rfl⟩
  have a1 (j : Nat) (h : j < 4) : a.coreOf (4 * k + j) = { halt := (s.coreOf (4 * k + j)).halt } := by
    rw [ha, setCore_each (4 * k) (List.range 4) List.nodup_range s j, if_pos (List.mem_range.mpr h)]
  rw [← ha]
  obtain ⟨b, hb⟩ : ∃ b, b = a.setClus k {} := ⟨_, rfl⟩
  have b1 : b.clusOf k = {} := by rw [hb]; exact State.clusOf_setClus ..
  have b2 : b.core = a.core := by rw [hb]; rfl
  rw [← hb]
  obtain ⟨c, hc⟩ : ∃ c, c = State.each b (campsOf b k) fun n s => (discardRun n s).setCamp n { (discardRun n s).campOf n with q := [] } := ⟨_, rfl⟩
  have kc : Keeps [.regs, .camp, .trc] b c := by
    rw [hc]
    exact Keeps.each (fun n u => Keeps.step (State.setCamp_keeps ..) (by decide) (discardRun_keeps ..)) Keeps.refl
  rw [show (State.each b (campsOf b k) fun n s => let s := discardRun n s; s.setCamp n { s.campOf n with q := [] }) = c from hc.symm]
  have kr := fun u => resetRegs_keeps (inCluster k) u
  refine ⟨?_, fun j hj => ?_⟩
  · unfold State.clusOf
    rw [(kr _).same .clus (by decide)]
    exact (congrArg (fun l => tget ({} : ClusS) l k) (kc.same .clus (by decide))).trans b1
  · unfold State.coreOf
    rw [(kr _).same .core (by decide)]
    refine (congrArg (fun l => tget ({} : CoreS) l (4 * k + j)) (kc.same .core (by decide))).trans ?_
    rw [b2]
    exact a1 j hj

theorem tryBoot_not (s : State) (h : s.su.phase ≠ 3) : tryBoot s = s := by
  unfold tryBoot
  dsimp only
  rw [if_neg (fun q => h q.1)]


theorem setDom_st (s : State) (d v : Nat) : (s.setDom d v).pwr.reqs = s.pwr.reqs ∧ (s.setDom d v).pwr.resets = s.pwr.resets ∧
    (s.setDom d v).pwr.tokens = s.pwr.tokens ∧ (s.setDom d v).pwr.since = s.pwr.since := ⟨rfl, rfl, rfl, rfl⟩

/-- A partition that no frame waits for starts to read its slots. -/
theorem edwOn_edw (s : State) (h : s.edw.asks = []) : (edwOn s).edw = { s.edw with scan := true } := by
  unfold edwOn serveEdw
  generalize hu : ({ s with edw := { s.edw with scan := true } } : State) = u
  have h1 : u.edw = { s.edw with scan := true } := by rw [← hu]
  split
  · rw [show u.edw.asks = [] by rw [h1]; exact h]
    refine Eq.trans (b := ({ u.edw with asks := [] } : EdwS)) rfl ?_
    rw [h1, ← h]
  · exact h1

/-- What follows a domain that comes on, with no custody record to restore. -/
theorem domainOn_does (d : Nat) (s : State) (h : firnAll s (fun r => r.kind == .custody) = []) :
    (domainOn d s).pwr = s.pwr ∧ (d = 23 → s.edw.asks = [] → (domainOn d s).edw = { s.edw with scan := true }) ∧
      (∀ r < 4, d = 16 + r → ((domainOn d s).segOf r).flush = false) := by
  unfold domainOn
  by_cases h1 : d < 16
  · rw [if_pos h1]
    dsimp only
    unfold restoreCluster
    rw [restoreScope_none _ _ (by exact h)]
    exact ⟨(askFills_keeps ..).same .pwr (by decide), fun q => by omega, fun r hr q => by omega⟩
  · rw [if_neg h1]
    by_cases h2 : d < 20
    · rw [if_pos h2]
      dsimp only
      unfold restoreRegion
      rw [restoreScope_none _ _ (by exact h)]
      refine ⟨rfl, fun q => by omega, fun r hr q => ?_⟩
      rw [show d - 16 = r by omega, State.segOf_setSeg]
    · rw [if_neg h2]
      by_cases h3 : d < 22
      · rw [if_pos h3]
        refine ⟨?_, fun q => by omega, fun r hr q => by omega⟩
        exact State.each_inv (fun s => s.pwr) (f := tryDetect) _ (fun x u => (tryDetect_keeps ..).same .pwr (by decide)) s
      · rw [if_neg h3]
        by_cases h4 : d = 23
        · rw [if_pos h4]
          exact ⟨(edwOn_keeps s).same .pwr (by decide), fun _ q => edwOn_edw s q, fun r hr q => by omega⟩
        · rw [if_neg h4]
          exact ⟨rfl, fun q => absurd q h4, fun r hr q => by omega⟩

/-- The regions of a list of clusters fall, and the domains outside it stand. -/
theorem dropDomain_dom (d v : Nat) (s : State) (hd : d ≠ 22) (hv : v = 0 ∨ v = 3) (hf : firnAll s (fun r => r.kind == .custody) = []) : (dropDomain d v s).dom d = v := by
  have hv4 : v < 4 := by omega
  unfold dropDomain
  dsimp only
  obtain ⟨a, ha⟩ : ∃ a : State, a = returnTokens d (s.setDom d v) := ⟨_, rfl⟩
  have a1 : a.dom d = v := by rw [ha]; exact dom_setDom s d v hd hv4
  have a2 : a.firn = s.firn := by rw [ha]; rfl
  rw [← ha]
  by_cases h1 : d < 16
  · rw [if_pos h1]
    have kl := loseCluster_keeps d a
    refine (dom_congr (rewake_st _) d).trans ?_
    unfold restoreCluster
    rw [restoreScope_none _ _ (by rw [firnAll_congr (loseCluster_recs d a), firnAll_congr (congrArg FirnS.recs a2)]; exact hf), ite_self]
    exact (dom_congr (congrArg PwrS.st (kl.same .pwr (by decide))) d).trans a1
  · rw [if_neg h1]
    by_cases h2 : d < 20
    · rw [if_pos h2]
      refine (dom_congr (rewake_st _) d).trans ?_
      refine (dom_congr (congrArg PwrS.st ((loseRegion_keeps ..).same .pwr (by decide))) d).trans ?_
      refine (State.each_inv_mem (fun s => s.dom d) _ (fun k hk u => ?_) a).trans a1
      split
      · rfl
      · refine (dom_congr (congrArg PwrS.st ((loseCluster_keeps ..).same .pwr (by decide))) d).trans ?_
        refine (show (returnTokens k (u.setDom k 0)).dom d = (u.setDom k 0).dom d from rfl).trans (dom_setDom_ne _ _ _ _ ?_)
        simp only [List.mem_map, List.mem_range] at hk
        omega
    · rw [if_neg h2]
      by_cases h3 : d < 22
      · rw [if_pos h3]
        refine (State.each_inv (fun s => s.dom d) (f := fun p s => resetRegs (inLink p) (lnkDomainOff p s)) _ (fun x u => ?_) a).trans a1
        exact (dom_congr (congrArg PwrS.st ((resetRegs_keeps ..).same .pwr (by decide))) d).trans (dom_congr (congrArg PwrS.st ((lnkDomainOff_keeps ..).same .pwr (by decide))) d)
      · rw [if_neg h3]
        split
        · exact (dom_congr (congrArg PwrS.st ((edwReset_keeps ..).same .pwr (by decide))) d).trans a1
        · exact a1

theorem discardRun_other (n m : Nat) (h : m ≠ n) (s : State) : (discardRun n s).campOf m = s.campOf m := by
  unfold discardRun
  dsimp only
  split
  · rfl
  · refine ((trace_keeps ..).campOf_eq m).trans ?_
    exact State.campOf_setCamp_ne s _ h

/-- A unit of a region that is lost. -/
def loseUnit (n : Nat) (s : State) : State :=
  (((((discardRun n s).setLane n []).setLane (64 + n) []).setCamp n {}).setPred n 0 {}).setPred n 1 {}

theorem loseUnit_camp (n m : Nat) (s : State) : (loseUnit n s).campOf m = if m = n then {} else s.campOf m := by
  unfold loseUnit
  refine ((State.setPred_keeps ..).campOf_eq m).trans (((State.setPred_keeps ..).campOf_eq m).trans ?_)
  split
  · rename_i h; rw [h]; exact State.campOf_setCamp ..
  · rename_i h
    refine (State.campOf_setCamp_ne _ _ h).trans (((State.setLane_keeps ..).campOf_eq m).trans (((State.setLane_keeps ..).campOf_eq m).trans ?_))
    exact discardRun_other n m h s

theorem loseUnit_lane (n m : Nat) (s : State) : (loseUnit n s).lane m = if m = n ∨ m = 64 + n then [] else s.lane m := by
  have h0 : (loseUnit n s).lane m = (((discardRun n s).setLane n []).setLane (64 + n) []).lane m := by
    unfold loseUnit
    exact ((State.setPred_keeps ..).lane_eq m).trans (((State.setPred_keeps ..).lane_eq m).trans ((State.setCamp_keeps ..).lane_eq m))
  rw [h0]
  by_cases h1 : m = 64 + n
  · rw [if_pos (.inr h1), h1]; exact State.lane_setLane ..
  · rw [State.lane_setLane_ne _ _ h1]
    by_cases h2 : m = n
    · rw [if_pos (.inl h2), h2]; exact State.lane_setLane ..
    · rw [State.lane_setLane_ne _ _ h2, if_neg (by omega)]
      exact congrArg (fun l => tget [] l.lanes m) ((discardRun_keeps n s).same .rq (by decide))

theorem loseUnits (b : Nat) (l : List Nat) (s : State) (m : Nat) :
    (m ∈ l.map (b + ·) → (State.each s l fun j s => loseUnit (b + j) s).campOf m = {}) ∧
    (m ∉ l.map (b + ·) → (State.each s l fun j s => loseUnit (b + j) s).campOf m = s.campOf m) ∧
    (m ∈ l.map (b + ·) → m < 64 → (State.each s l fun j s => loseUnit (b + j) s).lane m = [] ∧ (State.each s l fun j s => loseUnit (b + j) s).lane (64 + m) = []) ∧
    (s.lane m = [] → (State.each s l fun j s => loseUnit (b + j) s).lane m = []) := by
  induction l generalizing s m with
  | nil => exact ⟨fun h => by simp at h, fun _ => rfl, fun h => by simp at h, id⟩
  | cons a l ih =>
    have i1 := fun m => ih (loseUnit (b + a) s) m
    refine ⟨fun h => ?_, fun h => ?_, fun h hm => ?_, fun h => ?_⟩
    · by_cases hl : m ∈ l.map (b + ·)
      · exact (i1 m).1 hl
      · refine ((i1 m).2.1 hl).trans ?_
        simp only [List.map_cons, List.mem_cons] at h
        rw [loseUnit_camp, if_pos (h.resolve_right hl)]
    · simp only [List.map_cons, List.mem_cons, not_or] at h
      refine ((i1 m).2.1 h.2).trans ?_
      rw [loseUnit_camp, if_neg h.1]
    · by_cases hl : m ∈ l.map (b + ·)
      · exact (i1 m).2.2.1 hl hm
      · simp only [List.map_cons, List.mem_cons] at h
        have e := h.resolve_right hl
        exact ⟨(i1 m).2.2.2 (by rw [loseUnit_lane, if_pos (.inl e)]), (i1 (64 + m)).2.2.2 (by rw [loseUnit_lane, if_pos (.inr (by rw [e]))])⟩
    · refine (i1 m).2.2.2 ?_
      rw [loseUnit_lane]
      split
      · rfl
      · exact h

theorem loseRegion_does (r : Nat) (hr : r < 4) (off : Bool) (s : State) :
    ((loseRegion r off s).segOf r).bursts = [] ∧ ∀ j < 16, (loseRegion r off s).campOf (16 * r + j) = {} ∧ (loseRegion r off s).lane (16 * r + j) = [] ∧
      (loseRegion r off s).lane (64 + 16 * r + j) = [] := by
  unfold loseRegion
  dsimp only
  obtain ⟨a, ha⟩ : ∃ a, a = State.each s ((List.range 4).map (4 * r + ·)) fun k s => (s.setToClus k []).setArb k { scope := true } := ⟨_, rfl⟩
  rw [← ha]
  have hb := fun m => loseUnits (16 * r) (List.range 16) a m
  obtain ⟨b, hbe⟩ : ∃ b, b = State.each a (List.range 16) fun j s => loseUnit (16 * r + j) s := ⟨_, rfl⟩
  rw [← hbe] at hb
  rw [show (State.each a (List.range 16) fun j s => let n := 16 * r + j; let s := ((discardRun n s).setLane n []).setLane (64 + n) []; ((s.setCamp n {}).setPred n 0 {}).setPred n 1 {}) = b from hbe.symm]
  have kr := fun u => resetRegs_keeps (inRegion r) u
  refine ⟨?_, fun j hj => ?_⟩
  · unfold State.segOf
    rw [(kr _).same .seg (by decide)]
    dsimp only
    split
    · exact congrArg SegS.bursts (State.segOf_setSeg b r _)
    · exact congrArg SegS.bursts (State.segOf_setSeg b r _)
  · have hm : 16 * r + j ∈ (List.range 16).map (16 * r + ·) := List.mem_map.mpr ⟨j, List.mem_range.mpr hj, rfl⟩
    have h1 := (hb (16 * r + j)).1 hm
    have h2 := (hb (16 * r + j)).2.2.1 hm (by omega)
    rw [← Nat.add_assoc] at h2
    refine ⟨?_, ?_, ?_⟩
    · refine ((kr _).campOf_eq _).trans ?_
      split <;> exact h1
    · refine (congrArg (fun l => tget [] l.lanes (16 * r + j)) ((kr _).same .rq (by decide))).trans ?_
      split <;> exact h2.1
    · refine (congrArg (fun l => tget [] l.lanes (64 + 16 * r + j)) ((kr _).same .rq (by decide))).trans ?_
      split <;> exact h2.2

theorem dropDomain_cluster (d v : Nat) (s : State) (h : d < 16) (hf : firnAll s (fun r => r.kind == .custody) = []) :
    ∃ a : State, a.core = s.core ∧ dropDomain d v s = rewake (loseCluster d a) := by
  unfold dropDomain
  dsimp only
  obtain ⟨a, ha⟩ : ∃ a : State, a = returnTokens d (s.setDom d v) := ⟨_, rfl⟩
  have a2 : a.firn = s.firn := by rw [ha]; rfl
  have a3 : a.core = s.core := by rw [ha]; rfl
  rw [← ha, if_pos h]
  refine ⟨a, a3, ?_⟩
  unfold restoreCluster
  rw [restoreScope_none _ _ (by rw [firnAll_congr (loseCluster_recs d a), firnAll_congr (congrArg FirnS.recs a2)]; exact hf), ite_self]

theorem edwReset_edw (s : State) (h : ∀ r, s.edw.step ≠ .program r) :
    (edwReset s).edw = { sectors := s.edw.sectors, sector := s.edw.sector, inbox := s.edw.inbox, asks := s.edw.asks } := by
  unfold edwReset
  dsimp only
  split
  · rename_i r q; exact absurd q (h r)
  · rfl

end Sys2Proof.Machine
end

