-- ==== Sys2Proof/Laws/Accesses.lean ====
section
/-! SUPPORT. Lemmas on register accesses. -/

set_option maxHeartbeats 1000000

namespace Sys2Proof.Machine

-- where addresses lead

theorem locate_field {s : State} {v : Via} {addr : Nat} {r : RegRow} {i j : Nat} (hv : v ≠ .bar0) (hv2 : v ≠ .bar2) (h : addr < 0x30000)
    (hb : addr / 0x20 ≠ 0x7B0) (hf : findReg addr = some (r, i, j)) : locate s v addr = some ⟨r, i, j, addr, .active⟩ := by
  unfold locate
  cases v with
  | bar0 => exact absurd rfl hv
  | bar2 => exact absurd rfl hv2
  | port | cif => simp [h, hb, hf]

theorem locate_bar {s : State} {v : Via} {addr : Nat} {r : RegRow} {i j : Nat} (hv : v ≠ .bar0) (hv2 : v ≠ .bar2) (h : addr < 0x30000)
    (hb : s.isDie0 = true) (hf : findReg addr = some (r, i, j)) : locate s v addr = some ⟨r, i, j, addr, .active⟩ := by
  unfold locate
  cases v with
  | bar0 => exact absurd rfl hv
  | bar2 => exact absurd rfl hv2
  | port | cif => simp [h, hb, hf]

theorem locate_host {s : State} {addr : Nat} {r : RegRow} {i j : Nat} (h : addr < 0x30000)
    (hf : findReg (0x100000 + addr) = some (r, i, j)) : locate s .bar0 addr = some ⟨r, i, j, 0x100000 + addr, .active⟩ := by
  unfold locate
  simp [h, hf]

theorem locate_page {s : State} {addr : Nat} {r : RegRow} {i j : Nat}
    (hf : findReg (0x200000 + addr) = some (r, i, j)) : locate s .bar2 addr = some ⟨r, i, j, 0x200000 + addr, .active⟩ := by
  unfold locate
  simp [hf]

-- accesses that come to a word

theorem readReg_reaches {s : State} {a : Access} {addr : Nat} {p : Spot} (h : reaches s a addr) (hp : locate s a.via addr = some p) (hv : p.view = .active)
    (ecc : Ecc) : readReg a addr ecc s =
      let s' := if p.row.id == .BANK && ecc == .uncorrectable then { s with fresh := s.fresh + 1 }
        else if p.row.id == .TRACE_DATA && ecc == .uncorrectable && islandOn s p then noteBad s else s
      respond a false (BitVec.ofNat 32 (readWord s a p ecc)) none (if a.debug || !islandOn s p then s' else readEffect a p ecc (clearRC p s')) := by
  unfold readReg
  rw [if_neg (by rw [h.1]; decide), h.2, hp]
  dsimp only
  rw [hv]

theorem writeReg_lands {s u : State} {a : Access} {addr : Nat} {w : Word} {p : Spot} (h : lands s a addr) (hp : locate s a.via addr = some p)
    (hd : performWrite a addr p w s = .done u) : writeReg a addr w s = respond a true 0 none u := by
  unfold writeReg
  rw [if_neg (by rw [h.1]; decide), show (edwDebug a addr && s.on 23 && !masterFaulted s a) = false from by rw [h.2.2.2]; rfl]
  dsimp only
  rw [if_neg (by decide), h.2.1, hp]
  dsimp only
  rw [if_neg (by rw [h.2.2.2]; decide), if_neg (by rw [h.2.2.1]; decide), hd]

theorem writeReg_held {s u : State} {a : Access} {addr : Nat} {w : Word} {p : Spot} (h : lands s a addr) (hp : locate s a.via addr = some p)
    (hd : performWrite a addr p w s = .held u) : writeReg a addr w s = u := by
  unfold writeReg
  rw [if_neg (by rw [h.1]; decide), show (edwDebug a addr && s.on 23 && !masterFaulted s a) = false from by rw [h.2.2.2]; rfl]
  dsimp only
  rw [if_neg (by decide), h.2.1, hp]
  dsimp only
  rw [if_neg (by rw [h.2.2.2]; decide), if_neg (by rw [h.2.2.1]; decide), hd]

theorem writeReg_refused {s u : State} {a : Access} {addr c : Nat} {w : Word} {p : Spot} (h : lands s a addr) (hp : locate s a.via addr = some p)
    (hd : performWrite a addr p w s = .err c u) : writeReg a addr w s = busError a addr c true u := by
  unfold writeReg
  rw [if_neg (by rw [h.1]; decide), show (edwDebug a addr && s.on 23 && !masterFaulted s a) = false from by rw [h.2.2.2]; rfl]
  dsimp only
  rw [if_neg (by decide), h.2.1, hp]
  dsimp only
  rw [if_neg (by rw [h.2.2.2]; decide), if_neg (by rw [h.2.2.1]; decide), hd]

/-- What the write of a word without WS and W1 fields leaves: its chapter's effect on the stored fields, or a refusal. -/
theorem writeActive_eq {s : State} {a : Access} {addr : Nat} {w : Word} {p : Spot} (r : Bool) (h1 : sealedWord p.row.id = false) (h2 : p.row.id ≠ .LOAD_DATA)
    (h3 : p.row.id ≠ .H_LOAD_DATA) (h4 : p.row.has .ws = false) (h5 : p.row.has .w1 = false) : writeActive a addr p w r s =
      match (effect1 a p w.toNat s (putFields p w.toNat s)).bind (effect2 p w.toNat s) with
      | none => .err 6 s
      | some t => .done t := by
  unfold writeActive
  dsimp only
  rw [if_neg (by rw [h1]; decide), if_neg h2, if_neg h3]
  have e : stagePart a p w s = (s, true) := by unfold stagePart; rw [h4]; rfl
  have e1 (x : State) : (if r = true then w1Part p w.toNat x else (x, false)) = (x, false) := by
    unfold w1Part
    rw [h5]
    cases r <;> rfl
  rw [e]
  simp only [e1]
  cases (effect1 a p w.toNat s (putFields p w.toNat s)).bind (effect2 p w.toNat s) <;> rfl

theorem respond_out (a : Access) (wr : Bool) (v : Word) (e : Option Nat) (s : State) :
    (respond a wr v e s).out = if a.host && wr then s.out else s.out ++ [.reg a.via v e] := by
  unfold respond State.emit
  split <;> rfl

-- what a bus error leaves

theorem busError_does (a : Access) (addr cause : Nat) (wr : Bool) (s : State) (hc : cause < 8) : Keeps [.out, .regs] s (busError a addr cause wr s) ∧
    (busError a addr cause wr s).out = (if a.host && wr then s.out else s.out ++ [.reg a.via 0 (some cause)]) ∧
    (a.host = false → (busError a addr cause wr s).rd Reg.BUSERR_OFFSET = addr % 2 ^ 20 ∧ (busError a addr cause wr s).rd Reg.BUSERR_CAUSE = cause ∧
      (busError a addr cause wr s).rd Reg.BUSERR_VALID = 1) := by
  refine ⟨Keeps.mono (busError_keeps ..) (by decide), ?_, fun h => ?_⟩
  · unfold busError
    dsimp only
    rw [respond_out]
    simp only [State.wr_out]
  · have hr (x : State) (f : Fld) : (respond a wr 0 (some cause) x).rd f = x.rd f := by unfold respond State.emit; split <;> rfl
    have hv : (a.via == Via.bar2) = false := by
      unfold Access.host at h
      revert h
      cases a.via == Via.bar2 <;> simp
    have e : busError a addr cause wr s = respond a wr 0 (some cause) ((((((s.wr Reg.BUSERR_OFFSET addr).wr Reg.BUSERR_MID a.master).wr Reg.BUSERR_CAUSE cause).wr
        Reg.BUSERR_WR (b2n wr)).wr Reg.BUSERR_DBG (b2n a.debug)).wr Reg.BUSERR_VALID 1) := by
      unfold busError
      rw [h, hv]
      rfl
    rw [e, hr, hr, hr]
    refine ⟨?_, ?_, ?_⟩
    · rw [State.rd_wr_ne _ _ (by decide), State.rd_wr_ne _ _ (by decide), State.rd_wr_ne _ _ (by decide), State.rd_wr_ne _ _ (by decide),
        State.rd_wr_ne _ _ (by decide), State.rd_wr_same]
      rfl
    · rw [State.rd_wr_ne _ _ (by decide), State.rd_wr_ne _ _ (by decide), State.rd_wr_ne _ _ (by decide), State.rd_wr_same]
      exact Nat.mod_eq_of_lt hc
    · rw [State.rd_wr_same]
      rfl

-- the fields of a word

theorem rows_lo : ∀ r ∈ regRows, r.flds.Pairwise (fun f g => f.lo ≠ g.lo) := by decide +kernel

theorem findReg_mem {off : Nat} {r : RegRow} {i j : Nat} (h : findReg off = some (r, i, j)) : r ∈ regRows := by
  unfold findReg at h
  obtain ⟨q, hq, hm⟩ := List.exists_of_findSome?_eq_some h
  cases hx : q.index off with
  | none => rw [hx] at hm; exact nomatch hm
  | some x =>
    rw [hx] at hm
    simp only [Option.map_some, Option.some.injEq, Prod.mk.injEq] at hm
    rw [← hm.1]; exact hq

theorem locate_mem {s : State} {v : Via} {addr : Nat} {p : Spot} (h : locate s v addr = some p) : p.row ∈ regRows := by
  have go (b off : Nat) (view : View) (h : (if b = 0 && !s.isDie0 && off / 0x20 == 0x7B0 then none
      else (findReg (b + off)).map fun r => (⟨r.1, r.2.1, r.2.2, b + off, view⟩ : Spot)) = some p) : p.row ∈ regRows := by
    split at h
    · exact nomatch h
    · cases hf : findReg (b + off) with
      | none => rw [hf] at h; exact nomatch h
      | some x =>
        rw [hf] at h
        simp only [Option.map_some, Option.some.injEq] at h
        rw [← h]
        exact findReg_mem (i := x.2.1) (j := x.2.2) hf
  unfold locate at h
  dsimp only at h
  split at h
  · exact go _ _ _ h
  · split at h
    · exact go _ _ _ h
    · split at h
      · exact go _ _ _ h
      · exact nomatch h

theorem key_ne {f g : FldSpec} (off : Nat) (h : f.lo ≠ g.lo) : (f.at off).key ≠ (g.at off).key := by
  unfold Fld.key FldSpec.at
  dsimp only
  omega

/-- Writes of the fields of a word: each holds its value, and no other field changes. -/
theorem each_wr_rd (off : Nat) (v : FldSpec → Nat) (l : List FldSpec) (hl : l.Pairwise (fun f g => f.lo ≠ g.lo)) (s : State) :
    (∀ f ∈ l, (s.each l fun f s => s.wr (f.at off) (v f)).rd (f.at off) = v f % 2 ^ f.w) ∧
    (∀ g : Fld, (∀ f ∈ l, g.key ≠ (f.at off).key) → (s.each l fun f s => s.wr (f.at off) (v f)).rd g = s.rd g) := by
  unfold State.each
  induction l generalizing s with
  | nil => exact ⟨nofun, fun _ _ => rfl⟩
  | cons a l ih =>
    rw [List.pairwise_cons] at hl
    obtain ⟨i1, i2⟩ := ih hl.2 (s.wr (a.at off) (v a))
    refine ⟨fun f hf => ?_, fun g hg => ?_⟩
    · rw [List.foldl_cons]
      rcases List.mem_cons.mp hf with rfl | hf
      · rw [i2 _ fun g hg => key_ne off (hl.1 g hg)]
        exact State.rd_wr_same ..
      · exact i1 f hf
    · rw [List.foldl_cons, i2 g fun f hf => hg f (List.mem_cons_of_mem _ hf)]
      exact State.rd_wr_ne _ _ (hg a (List.mem_cons_self ..))

theorem each_wr_keeps (off : Nat) (v : FldSpec → Nat) (l : List FldSpec) (s : State) : Keeps [.regs] s (s.each l fun f s => s.wr (f.at off) (v f)) :=
  Keeps.each (fun a s => ⟨fun p hp => by cases p <;> first | rfl | simp at hp⟩) Keeps.refl

theorem clearRC_does {p : Spot} (h : p.row ∈ regRows) (s : State) : Keeps [.regs] s (clearRC p s) ∧
    (∀ f ∈ p.row.flds, f.acc = .rc → (clearRC p s).rd (f.at p.off) = 0) ∧
    (∀ g : Fld, (∀ f ∈ p.row.flds, f.acc = .rc → g.key ≠ (f.at p.off).key) → (clearRC p s).rd g = s.rd g) := by
  have := each_wr_rd p.off (fun _ => 0) (p.row.flds.filter (·.acc == .rc)) ((rows_lo _ h).filter _) s
  refine ⟨each_wr_keeps p.off (fun _ => 0) _ s, fun f hf ha => ?_, fun g hg => ?_⟩
  · refine (this.1 f (List.mem_filter.mpr ⟨hf, by rw [ha]; rfl⟩)).trans (Nat.zero_mod _)
  · exact this.2 g fun f hf => hg f (List.mem_filter.mp hf).1 (beq_iff_eq.mp (List.mem_filter.mp hf).2)

theorem clearRC_none {p : Spot} (h : p.row.has .rc = false) (s : State) : clearRC p s = s := by
  unfold clearRC
  have : p.row.flds.filter (·.acc == .rc) = [] := by
    rw [List.filter_eq_nil_iff]
    intro f hf hc
    unfold RegRow.has at h
    rw [List.any_eq_false] at h
    exact h f hf hc
  rw [this]
  rfl

theorem readEffect_none (a : Access) {p : Spot} (ecc : Ecc) (s : State) (h : p.row.id ∉ readActs) : readEffect a p ecc s = s := by
  unfold readEffect
  dsimp only
  split <;> first | rfl | (rename_i q; exact absurd (by rw [q]; decide) h)

theorem readWord_plain (s : State) (a : Access) {p : Spot} (ecc : Ecc) (h : p.row.id ∉ readActs) : readWord s a p ecc =
    if islandOn s p then wordOf p.row.flds (fieldValue s (live s a.master p) p) else wordOf p.row.flds (resetVal p) := by
  unfold readWord
  split <;> first | (rename_i q; exact absurd (by rw [q]; decide) h) | skip
  unfold activeWord
  cases islandOn s p
  · rfl
  · dsimp only [Bool.not_true, Bool.false_eq_true, if_false, if_true]
    rw [if_neg (by decide), if_pos rfl]
    split <;> first | (rename_i q; exact absurd (by rw [q]; decide) h) | rfl

-- the places of the map

theorem RegRow.index_out (q : RegRow) {off : Nat} (h : off < q.base ∨ q.base + q.s1 * (q.n1 - 1) + q.s2 * (q.n2 - 1) < off) : q.index off = none := by
  unfold RegRow.index
  split
  · rfl
  · dsimp only
    rw [if_neg]
    rintro ⟨h1, h2, h3⟩
    have a1 := Nat.mul_le_mul_left q.s1 (Nat.le_sub_one_of_lt h1)
    have a2 := Nat.mul_le_mul_left q.s2 (Nat.le_sub_one_of_lt h2)
    omega

theorem RegRow.index_res (q : RegRow) {off k : Nat} (hk : q.s1 % k = 0) (h : ∀ j < q.n2, (q.base + q.s2 * j) % k ≠ off % k) : q.index off = none := by
  unfold RegRow.index
  split
  · rfl
  · dsimp only
    rw [if_neg]
    rintro ⟨-, h2, h3⟩
    refine h _ h2 ?_
    obtain ⟨m, hm⟩ := Nat.dvd_of_mod_eq_zero hk
    rename_i hb
    have e : off = q.base + q.s2 * (if q.n2 = 1 then 0 else (off - q.base - (if q.n1 = 1 then 0 else (off - q.base) / q.s1) * q.s1) / q.s2) +
        k * (m * (if q.n1 = 1 then 0 else (off - q.base) / q.s1)) := by
      rw [← Nat.mul_assoc, ← hm]
      omega
    conv => rhs; rw [e]
    rw [Nat.add_mul_mod_self_left]

/-- A row leads nowhere from lo to hi, or from no offset there that leaves a remainder. -/
def RegRow.apart (lo hi k res : Nat) (q : RegRow) : Bool :=
  decide (hi < q.base) || decide (q.base + q.s1 * (q.n1 - 1) + q.s2 * (q.n2 - 1) < lo) ||
    (decide (q.s1 % k = 0) && (List.range q.n2).all fun j => (q.base + q.s2 * j) % k != res)

/-- Where one row alone leads anywhere, the offset leads to it. -/
theorem findReg_in (lo hi k : Nat) {off : Nat} {r : RegRow} {i j : Nat} (h1 : lo ≤ off) (h2 : off ≤ hi) (res : Nat) (h3 : off % k = res)
    (hr : (regRows.all fun q => q.id == r.id || q.apart lo hi k res) = true) (hm : (regRows.filter fun q => q.id == r.id) = [r])
    (h : r.index off = some (i, j)) : findReg off = some (r, i, j) := by
  have hin (q : RegRow) (hq : q ∈ regRows) (e : q.id = r.id) : q = r := by
    have : q ∈ regRows.filter fun q => q.id == r.id := List.mem_filter.mpr ⟨hq, by rw [e]; exact beq_self_eq_true _⟩
    rw [hm] at this
    exact List.mem_singleton.mp this
  have hmem : r ∈ regRows := by
    have : r ∈ regRows.filter fun q => q.id == r.id := by rw [hm]; exact List.mem_singleton.mpr rfl
    exact (List.mem_filter.mp this).1
  unfold findReg
  have ho : ∀ q ∈ regRows, q = r ∨ q.index off = none := by
    intro q hq
    have := List.all_eq_true.mp hr q hq
    rw [Bool.or_eq_true] at this
    rcases this with e | e
    · exact .inl (hin q hq (beq_iff_eq.mp e))
    · right
      unfold RegRow.apart at e
      rw [Bool.or_eq_true, Bool.or_eq_true, Bool.and_eq_true, decide_eq_true_eq, decide_eq_true_eq, decide_eq_true_eq, List.all_eq_true] at e
      rcases e with (e | e) | ⟨e1, e2⟩
      · exact q.index_out (.inl (by omega))
      · exact q.index_out (.inr (by omega))
      · refine q.index_res (k := k) e1 fun j hj => ?_
        rw [h3]
        have := e2 j (List.mem_range.mpr hj)
        rw [bne_iff_ne] at this
        exact this
  generalize regRows = l at hmem ho
  induction l with
  | nil => exact nomatch hmem
  | cons a l ih =>
    rw [List.findSome?_cons]
    rcases ho a (List.mem_cons_self ..) with q | q
    · rw [q, h]; rfl
    · rw [q]
      dsimp only [Option.map_none]
      refine ih ?_ fun x hx => ho x (List.mem_cons_of_mem _ hx)
      rcases List.mem_cons.mp hmem with e | e
      · subst e; rw [q] at h; exact nomatch h
      · exact e

end Sys2Proof.Machine
end

