-- ==== Sys2Proof/Laws/Time.lean ====
section
/-! SUPPORT. Lemmas on system time and the epochs. -/

set_option maxHeartbeats 1000000

namespace Sys2Proof.Machine

theorem rxFrame_good {p : Nat} {fr : LinkFrame} {s : State} (h : receives s p fr = true) (f bad : State → State) :
    ∃ u, rxFrame p fr f bad s = f u ∧ Keeps [.lnk] s u := by
  unfold receives at h
  simp only [Bool.and_eq_true] at h
  obtain ⟨⟨h1, h2⟩, h3⟩ := h
  unfold rxFrame inState
  rw [if_pos h1]
  dsimp only
  rw [if_neg, if_pos h3]
  · refine ⟨_, rfl, Keeps.step (takeCredit_keeps ..) (by decide) (Keeps.step (State.setPort_keeps ..) (by decide) ?_)⟩
    exact Keeps.ite (State.setPort_keeps ..) (State.setPort_keeps ..)
  · simp only [Bool.or_eq_true, decide_eq_true_eq] at h2
    rcases h2 with h2 | h2
    · simp; omega
    · simp at h2; simp [h2]

/-- The slot of a frame leaves as the levels of its scrambled bits. -/
theorem sendFrame_out (p : Nat) (f : LinkFrame) (s : State) :
    ∃ c n, PortOut.slot p (slotLevels (scramble (s.port p).scrTx (sealFrame f c n))) ∈ (sendFrame p f s).out := by
  unfold sendFrame
  dsimp only
  refine ⟨(creditDue (s.port p)).1, (creditDue (s.port p)).2, ?_⟩
  have h (x : PortS) (u : State) (hx : x.scrTx = (s.port p).scrTx) :
      PortOut.slot p (slotLevels (scramble (s.port p).scrTx (sealFrame f (creditDue (s.port p)).1 (creditDue (s.port p)).2))) ∈
        (sendSlot p (sealFrame f (creditDue (s.port p)).1 (creditDue (s.port p)).2) (u.setPort p x)).out := by
    unfold sendSlot
    rw [State.port_setPort]
    dsimp only
    rw [hx]
    exact List.mem_append_right _ (List.mem_singleton.2 rfl)
  split_ifs
  · exact h _ _ rfl
  · exact h _ _ rfl
  · exact List.mem_append_left _ (h _ _ rfl)

/-- The time of a state, its captures apart, is the same in another. -/
def sameClock (s t : State) : Prop := t.time = { s.time with captures := t.time.captures, capPend := t.time.capPend }

theorem sameClock.ofTime {s t : State} (h : t.time = s.time) : sameClock s t := by unfold sameClock; rw [h]

theorem sameClock.trans {s t u : State} (h : sameClock s t) (k : sameClock t u) : sameClock s u := by
  unfold sameClock at *
  rw [k, h]

theorem sameClock.each {α : Type} {f : α → State → State} (hf : ∀ a s, sameClock s (f a s)) (l : List α) (s : State) :
    sameClock s (s.each l f) := by
  unfold State.each
  induction l generalizing s with
  | nil => exact .ofTime rfl
  | cons a l ih => exact (hf a s).trans (ih _)

theorem captureWrite_clock (i : Nat) (st : Tick) (s : State) : sameClock s (captureWrite i st s) := by
  unfold captureWrite
  dsimp only
  split_ifs
  · exact .ofTime rfl
  · exact .ofTime ((raiseInt_keeps ..).same .time (by decide))
  · rfl

theorem endCaptures_clock (s : State) : sameClock s (endCaptures s) := by
  unfold endCaptures
  exact .trans (t := { s with time := { s.time with capPend := s.time.capPend.filter fun c => !captureDue s c.2 } }) rfl
    (.each (f := fun (c : Nat × Tick) s => captureWrite c.1 c.2 s) (fun c s => captureWrite_clock c.1 c.2 s) _ _)

theorem fieldCycle_clock (b : Bool) (s : State) : sameClock s (fieldCycle b s) := by
  obtain ⟨u, hu⟩ : ∃ u : State, u = { s with xb := { s.xb with reflex := [] } } := ⟨_, rfl⟩
  have ht : u.time = s.time := by rw [hu]
  refine .trans (.ofTime (((endLow_keeps u).same .time (by decide)).trans ht)) (.trans (endCaptures_clock (endLow u)) (.ofTime ?_))
  have k : Keeps [.out, .regs, .src, .yar, .arb, .core, .clus, .rec_, .pwr, .su, .trc] (endCaptures (endLow u)) (fieldCycle b s) := by
    unfold fieldCycle
    rw [← hu]
    dsimp only
    refine Keeps.each (fun a s => Keeps.mono (arbCycle_keeps ..) (by decide)) ?_
    refine Keeps.step (noteVersions_keeps ..) (by decide) (Keeps.step (endLostMigrations_keeps ..) (by decide) (Keeps.step (noteRecov_keeps ..) (by decide) (Keeps.step (noteRoutes_keeps ..) (by decide) (Keeps.step (noteDelayed_keeps ..) (by decide) (Keeps.step (doorbell_keeps ..) (by decide) (Keeps.step (drainTrace_keeps ..) (by decide) ?_))))))
    have h0 : Keeps [.out, .regs, .src, .yar, .arb, .core, .clus, .rec_, .pwr, .su, .trc] (endCaptures (endLow u)) (endOffers (endCaptures (endLow u))) :=
      Keeps.mono (endOffers_keeps ..) (by decide)
    exact Keeps.ite h0 (Keeps.step (yarCycle_keeps ..) (by decide) h0)
  exact k.same .time (by decide)

theorem timeRuns_hostCycle (s : State) : timeRuns (hostCycle s) = timeRuns s := by
  unfold timeRuns
  rw [(hostCycle_keeps s).same .time (by decide)]

/-- A cycle advances the time of an instance whose count runs, and what TIME_RATE has gathered. -/
theorem cycle_time {adv : Nat} {b : Bool} {s : State} (h : timeRuns s = true) :
    (cycle adv b s).time = { s.time with
      now := s.time.now + BitVec.ofNat 64 adv, rateAcc := s.time.rateAcc + adv * sgn 24 (s.rd Reg.TIME_RATE_RATE)
      captures := (cycle adv b s).time.captures, capPend := (cycle adv b s).time.capPend } := by
  have hh := hostCycle_keeps s
  have ht : (hostCycle s).time = s.time := hh.same .time (by decide)
  have hr : (hostCycle s).rd Reg.TIME_RATE_RATE = s.rd Reg.TIME_RATE_RATE := by
    unfold State.rd
    rw [hh.same .regs (by decide)]
  have k1 (u : State) : sameClock u (u.each [21, 22] arbCycle) :=
    .each (fun a s => .ofTime ((arbCycle_keeps ..).same .time (by decide))) _ _
  have k : sameClock (countOn adv (hostCycle s)) (cycle adv b s) := by
    unfold cycle
    dsimp only
    rw [if_pos ((timeRuns_hostCycle s).trans h)]
    refine .trans ?_ (k1 _)
    split_ifs
    · exact fieldCycle_clock ..
    · exact .ofTime rfl
  unfold sameClock at k
  have e : (countOn adv (hostCycle s)).time = { s.time with
      now := s.time.now + BitVec.ofNat 64 adv, rateAcc := s.time.rateAcc + adv * sgn 24 (s.rd Reg.TIME_RATE_RATE) } := by
    unfold countOn
    rw [hr, ht]
  rw [e] at k
  exact k

/-- A cycle of an instance whose count stands leaves its time, the captures apart. -/
theorem cycle_stands {adv : Nat} {b : Bool} {s : State} (h : timeRuns s = false) : sameClock s (cycle adv b s) := by
  unfold cycle
  dsimp only
  simp only [timeRuns_hostCycle, h, Bool.false_eq_true, ↓reduceIte]
  refine .trans (.ofTime ((hostCycle_keeps s).same .time (by decide))) (.trans ?_ (.each (fun a s => .ofTime ((arbCycle_keeps a s).same .time (by decide))) _ _))
  split_ifs
  · exact fieldCycle_clock ..
  · exact .ofTime rfl

theorem syncOffset_even {t1 t2 t3 t4 : BitVec 64} {d : Int} (h : sgn 64 (t2 - t1).toNat - sgn 64 (t4 - t3).toNat = 2 * d) (s : State) :
    syncOffset t1 t2 t3 t4 s = (d, s) := by
  unfold syncOffset
  dsimp only
  rw [h, if_pos (by omega)]
  congr 1
  omega

end Sys2Proof.Machine
end

