-- ==== Sys2Proof/Laws/Training.lean ====
section
/-! SUPPORT. Lemmas on the training of link ports. -/

set_option maxHeartbeats 1000000

namespace Sys2Proof.Machine

theorem xbTry_keeps' (i m r res) (s : State) : Keeps [.regs, .src, .xb, .pwr, .trc] s (xbTry i m r res s).2 := xbTry_keeps ..

/-- What is released from a receive buffer changes only what the port owes and what it holds. -/
theorem pumpRx_port (p : Nat) (s : State) :
    (∃ owe rx, (pumpRx p s).port p = { s.port p with owe := owe, rx := rx }) ∧ (∀ q, q ≠ p → (pumpRx p s).port q = s.port q) := by
  have hgo (l : List Msg) (shut : List Cls) (s : State) : (∃ owe, (pumpRx.go p l shut s).2.port p = { s.port p with owe := owe }) ∧
      (∀ q, q ≠ p → (pumpRx.go p l shut s).2.port q = s.port q) := by
    induction l generalizing shut s with
    | nil => exact ⟨⟨_, rfl⟩, fun _ _ => rfl⟩
    | cons m l ih =>
      unfold pumpRx.go
      split
      · exact ih ..
      · have hk := xbTry_keeps (12 + p) m false none s
        split
        · rename_i u hu
          rw [hu] at hk
          obtain ⟨⟨o, h1⟩, h2⟩ := ih shut (u.setPort p { u.port p with owe := tset 0 (u.port p).owe m.cls.code (tget 0 (u.port p).owe m.cls.code + 1) })
          refine ⟨⟨o, h1.trans ?_⟩, fun q hq => (h2 q hq).trans ?_⟩
          · rw [State.port_setPort, hk.port_eq]
          · rw [State.port_setPort_ne _ _ hq, hk.port_eq]
        · rename_i u hu
          rw [hu] at hk
          obtain ⟨⟨o, h1⟩, h2⟩ := ih (m.cls :: shut) u
          refine ⟨⟨o, h1.trans ?_⟩, fun q hq => (h2 q hq).trans ?_⟩
          · rw [hk.port_eq]
          · rw [hk.port_eq]
  unfold pumpRx
  split
  · exact ⟨⟨_, _, rfl⟩, fun _ _ => rfl⟩
  dsimp only
  obtain ⟨⟨o, h1⟩, h2⟩ := hgo (s.port p).rx [] s
  refine ⟨⟨o, (pumpRx.go p (s.port p).rx [] s).1, ?_⟩, fun q hq => ?_⟩
  · rw [State.port_setPort, h1]
  · rw [State.port_setPort_ne _ _ hq, h2 q hq]

/-- Pumping leaves every port with its state, but for what it owes and holds. -/
theorem pumpAll_port (s : State) (p : Nat) : ∃ owe rx, (pumpAll s).port p = { s.port p with owe := owe, rx := rx } := by
  have h1 (q : Nat) (s : State) : ∃ owe rx, (pumpRx q s).port p = { s.port p with owe := owe, rx := rx } := by
    by_cases h : p = q
    · subst h; exact (pumpRx_port p s).1
    · exact ⟨(s.port p).owe, (s.port p).rx, (pumpRx_port q s).2 p h⟩
  have h2 (q : Nat) {s u : State} (h : ∃ owe rx, s.port p = { u.port p with owe := owe, rx := rx }) :
      ∃ owe rx, (pumpRx q s).port p = { u.port p with owe := owe, rx := rx } := by
    obtain ⟨o, r, h⟩ := h
    obtain ⟨o', r', h'⟩ := h1 q s
    exact ⟨o', r', h'.trans (by rw [h])⟩
  obtain ⟨o, r, h⟩ := h2 3 (h2 2 (h2 1 (h1 0 s)))
  refine ⟨o, r, ?_⟩
  unfold pumpAll
  dsimp only
  rw [(pumpBar_keeps ..).port_eq, (pumpCtl_keeps ..).port_eq, (pumpRec_keeps ..).port_eq, (pumpRet_keeps ..).port_eq, (pumpRet_keeps ..).port_eq, (pumpRet_keeps ..).port_eq, (pumpRet_keeps ..).port_eq, h]

theorem goOff_port (p : Nat) (s : State) : ((goOff p s).port p).st = .off ∧ ∀ q, q ≠ p → (goOff p s).port q = s.port q := by
  unfold goOff
  dsimp only
  split
  · rename_i h
    exact ⟨by simpa using h, fun _ _ => rfl⟩
  · exact ⟨by rw [State.port_setPort], fun q hq => State.port_setPort_ne _ _ hq⟩

theorem portDown_port (p cause : Nat) (off : Bool) (s : State) :
    ((portDown p cause off s).port p).st = (if off then .off else .down) ∧ ((portDown p cause off s).port p).resolving = true ∧
      ((portDown p cause off s).port p).downAt = s.time.now ∧ ((portDown p cause off s).port p).lastRx = (s.port p).expect - 1 ∧
      ∀ q, q ≠ p → (portDown p cause off s).port q = s.port q := by
  have k := noteDown_keeps p cause (peerOf s p) s
  obtain ⟨u, x, hu, hx, h1, h2, h3, h4⟩ : ∃ u x, (portDown p cause off s).lnk = (State.setPort u p x).lnk ∧ u.lnk = s.lnk ∧
      x.st = (if off then .off else .down) ∧ x.resolving = true ∧ x.downAt = s.time.now ∧ x.lastRx = (s.port p).expect - 1 := by
    unfold portDown
    have kt := k.same .time (by decide)
    have kl := k.same .lnk (by decide)
    revert kt kl
    generalize noteDown p cause (peerOf s p) s = u
    intro kt kl
    refine ⟨_, _, rfl, ?_, rfl, rfl, ?_, ?_⟩
    · exact kl
    · exact congrArg TimeS.now kt
    · exact congrArg (fun l => (tget ({} : PortS) l p).expect - 1) kl
  have hp (q) : (portDown p cause off s).port q = (State.setPort u p x).port q := congrArg (fun l => tget ({} : PortS) l q) hu
  refine ⟨?_, ?_, ?_, ?_, fun q hq => ?_⟩
  · rw [hp, State.port_setPort, h1]
  · rw [hp, State.port_setPort, h2]
  · rw [hp, State.port_setPort, h3]
  · rw [hp, State.port_setPort, h4]
  · rw [hp, State.port_setPort_ne _ _ hq]
    exact congrArg (fun l => tget ({} : PortS) l q) hx

@[simp] theorem sendTrain_port (p : Nat) (c : BitVec 128) (s : State) (q : Nat) : (sendTrain p c s).port q = s.port q := rfl
theorem train_port (p : Nat) (st : LnkState) (s : State) : (train p st s).port p = { s.port p with st := st, since := s.time.now } := State.port_setPort ..
theorem train_port_ne {p q : Nat} (st : LnkState) (s : State) (h : q ≠ p) : (train p st s).port q = s.port q := State.port_setPort_ne _ _ h

/-- What each port's turn gives it, the loop gives them all. -/
theorem each_ports (P : PortS → Prop) {f : Nat → State → State} (h : ∀ p s, P ((f p s).port p) ∧ ∀ q, q ≠ p → (f p s).port q = s.port q)
    (l : List Nat) (s : State) (p : Nat) (hp : p ∈ l ∨ P (s.port p)) : P ((s.each l f).port p) := by
  unfold State.each
  induction l generalizing s with
  | nil => simpa using hp
  | cons a l ih =>
    rw [List.foldl_cons]
    apply ih
    by_cases e : p = a
    · subst e; exact .inr (h p s).1
    · rcases hp with hp | hp
      · exact .inl ((List.mem_cons.1 hp).resolve_left e)
      · rw [(h a s).2 p e]; exact .inr hp

end Sys2Proof.Machine
end

