-- ==== Sys2Proof/Laws/Frames.lean ====
section
/-! SUPPORT. Lemmas on link frames. -/

set_option Elab.async false

set_option maxHeartbeats 1000000

namespace Sys2Proof.Machine

theorem rxFrame_ports {p : Nat} {fr : LinkFrame} {s : State} (h : receives s p fr = true) (f bad : State → State) :
    ∃ u, rxFrame p fr f bad s = f u ∧ u.port p = received s p fr ∧ (∀ q, q ≠ p → u.port q = s.port q) ∧ Keeps [.lnk] s u := by
  unfold receives at h
  simp only [Bool.and_eq_true] at h
  obtain ⟨⟨h1, h2⟩, h3⟩ := h
  unfold rxFrame inState
  rw [if_pos h1]
  dsimp only
  rw [if_neg, if_pos h3]
  · refine ⟨_, rfl, ?_, fun q hq => ?_, Keeps.step (takeCredit_keeps ..) (by decide) (Keeps.step (State.setPort_keeps ..) (by decide) (Keeps.ite (State.setPort_keeps ..) (State.setPort_keeps ..)))⟩
    · unfold takeCredit received
      by_cases hp : p < 2 <;> by_cases hc : (frCredit fr).1 = 3 <;> simp [hp, hc, State.port_setPort]
    · unfold takeCredit
      by_cases hp : p < 2 <;> by_cases hc : (frCredit fr).1 = 3 <;> simp [hp, hc, State.port_setPort_ne _ _ hq]
  · simp only [Bool.or_eq_true, decide_eq_true_eq] at h2
    rcases h2 with h2 | h2
    · simp; omega
    · simp at h2; simp [h2]

theorem received_eq (s : State) (p : Nat) (fr : LinkFrame) :
    ∃ a b c d, received s p fr = { s.port p with scrRx := a, failRun := b, fec := c, noneRx := false, infl := d } := by
  unfold received
  by_cases hp : p < 2 <;> by_cases hc : (frCredit fr).1 = 3 <;> simp [hp, hc]

theorem received_bare (s : State) (p : Nat) (fr : LinkFrame) : received s.bare p fr = received s p fr := rfl

theorem sendNak_port (p : Nat) (s : State) (h : (s.port p).st = .up) :
    (sendNak p s).port p = (if (s.port p).nak.isSome then s.port p
        else { s.port p with nak := some s.time.now, ctl := (s.port p).ctl ++ [mkFrame 2 (s.port p).expect 0] }) ∧
      (∀ q, q ≠ p → (sendNak p s).port q = s.port q) := by
  unfold sendNak queueCtl
  dsimp only
  rw [h]
  cases h1 : (s.port p).nak.isSome
  · simp only [bne_self_eq_false, Bool.or_self, Bool.false_eq_true, if_false]
    refine ⟨by simp [State.port_setPort], fun q hq => ?_⟩
    rw [State.port_setPort_ne _ _ hq, State.port_setPort_ne _ _ hq]
  · simp

/-- Freeing the oldest frames leaves a port its state, and the rest of its frames. -/
theorem freeFrames_port (p n : Nat) (s : State) (q : BitVec 8) (m : Msg) (h : (s.port p).unacked[n]? = some (q, m)) :
    ((freeFrames p (n + 1) s).port p).unacked = (s.port p).unacked.drop (n + 1) ∧ ((freeFrames p (n + 1) s).port p).acked = q ∧
      ((freeFrames p (n + 1) s).port p).progress = s.time.now ∧ ((freeFrames p (n + 1) s).port p).st = (s.port p).st ∧
      (((freeFrames p (n + 1) s).port p).replayFrom = (s.port p).replayFrom ∨ ((freeFrames p (n + 1) s).port p).replayFrom = none) := by
  unfold freeFrames
  simp only [Nat.add_sub_cancel, h, Nat.succ_ne_zero, if_false, State.port_setPort]
  have h0 (l : List (BitVec 8 × Msg)) (s : State) : (s.each l fun e s => takenThere e.2 s).time = s.time :=
    State.each_inv State.time l (fun a s => (takenThere_keeps a.2 s).same .time (by decide)) s
  have ht := h0 ((s.port p).unacked.take (n + 1)) s
  split
  · split
    · exact ⟨rfl, rfl, congrArg TimeS.now ht, rfl, .inr rfl⟩
    · exact ⟨rfl, rfl, congrArg TimeS.now ht, rfl, .inl rfl⟩
  · exact ⟨rfl, rfl, congrArg TimeS.now ht, rfl, .inl rfl⟩

theorem freeFrames_other (p n : Nat) (s : State) (q : Nat) (hq : q ≠ p) : (freeFrames p n s).port q = s.port q := by
  unfold freeFrames
  dsimp only
  split
  · rfl
  · split
    · rfl
    · rw [State.port_setPort_ne _ _ hq]
      have (l : List (BitVec 8 × Msg)) (s : State) : (s.each l fun e s => takenThere e.2 s).port q = s.port q :=
        State.each_inv (fun s => State.port s q) l (fun a s => (takenThere_keeps a.2 s).port_eq q) s
      exact this _ _

/-- A first replay at a sequence, below the limit, is what the port does and no more. -/
theorem startReplay_first (p k : Nat) (s : State) (q : BitVec 8) (m : Msg) (h : (s.port p).unacked[k]? = some (q, m))
    (h1 : (s.port p).replayFrom ≠ some q) (h2 : 2 ≤ s.rd (Reg.LNK_CTRL_REPLAYLIM p)) :
    startReplay p k s = (s.setPort p { s.port p with replay := some k, replayFrom := some q, replayRuns := 1, progress := s.time.now }).inc (Reg.LNK_ERR0_REPLAY p) := by
  have e : (if (s.port p).replayFrom == some q then (s.port p).replayRuns + 1 else 1) = 1 := if_neg (by simpa using h1)
  unfold startReplay
  dsimp only
  rw [h]
  dsimp only
  rw [e, if_neg]
  unfold State.inc
  rw [State.rd_wr_ne, (State.setPort_keeps ..).rd_eq]
  · omega
  · unfold Fld.key Reg.LNK_CTRL_REPLAYLIM Reg.LNK_ERR0_REPLAY
    dsimp only
    omega

/-- A frame that the decoder has passed waits for its command; an idle slot has none. -/
def fecList (f : LinkFrame) : List LinkFrame := if frType f = 6 then [] else [f]

theorem decodeBlock_port (p : Nat) (F G : LinkFrame) (c1 c0 : Nat) (s : State) (f g : LinkFrame) (k : Bool)
    (h : rsDecode F G c1 c0 = some (f, g, k)) (hf : frOk f = true) (hg : frOk g = true) (hs : (s.port p).st = .up) :
    (decodeBlock p F G c1 c0 s).port p = { s.port p with fec := (s.port p).fec ++ (fecList f ++ fecList g), failRun := 0 } ∧
      (∀ q, q ≠ p → (decodeBlock p F G c1 c0 s).port q = s.port q) ∧ Keeps [.regs, .lnk] s (decodeBlock p F G c1 c0 s) := by
  have put (f : LinkFrame) (s : State) (hf : frOk f = true) (hs : (s.port p).st = .up) :
      ∃ t, (inState p .up (fun s =>
        let x := s.port p
        let s := if frType f = 6 then s else s.setPort p { x with fec := x.fec ++ [f] }
        if frOk f then s.setPort p { s.port p with failRun := 0 } else failFrame p s) s) = t ∧
        t.port p = { s.port p with fec := (s.port p).fec ++ fecList f, failRun := 0 } ∧
        (∀ q, q ≠ p → t.port q = s.port q) ∧ Keeps [.lnk] s t := by
    refine ⟨_, rfl, ?_⟩
    unfold inState fecList
    rw [if_pos (by simp [hs])]
    dsimp only
    rw [if_pos hf]
    split_ifs
    · refine ⟨?_, fun q hq => State.port_setPort_ne _ _ hq, State.setPort_keeps ..⟩
      rw [State.port_setPort, List.append_nil]
    · refine ⟨?_, fun q hq => ?_, Keeps.step (State.setPort_keeps ..) (by decide) (State.setPort_keeps ..)⟩
      · rw [State.port_setPort, State.port_setPort]
      · rw [State.port_setPort_ne _ _ hq, State.port_setPort_ne _ _ hq]
  unfold decodeBlock
  rw [h]
  dsimp only
  obtain ⟨u, hu, ku, hup⟩ : ∃ u, u = (if k = true then s.inc (Reg.LNK_ERR1_FECCE p) else s) ∧ Keeps [.regs] s u ∧ ∀ q, u.port q = s.port q := by
    refine ⟨_, rfl, ?_, fun q => ?_⟩
    · split_ifs
      · exact State.inc_keeps ..
      · exact Keeps.refl
    · split_ifs
      · rw [(State.inc_keeps ..).port_eq]
      · rfl
  rw [← hu]
  obtain ⟨v, hv, v1, v2, v3⟩ := put f u hf (by rw [hup]; exact hs)
  dsimp only at hv
  rw [hv]
  obtain ⟨w, hw, w1, w2, w3⟩ := put g v hg (by rw [v1, hup]; exact hs)
  dsimp only at hw
  rw [hw]
  refine ⟨?_, fun q hq => (w2 q hq).trans ((v2 q hq).trans (hup q)), Keeps.step w3 (by decide) (Keeps.step v3 (by decide) (Keeps.mono ku (by decide)))⟩
  rw [w1, v1, hup]
  simp

/-- Blocks that decode put their frames into the list. -/
theorem decodeBlocks_port (p : Nat) (F G : Nat → LinkFrame) (c1 c0 : Nat → Nat) (f g : Nat → LinkFrame) (k : Nat → Bool) (l : List Nat)
    (live : State → Bool) (hl : ∀ s, (s.port p).st = .up → live s = true)
    (h : ∀ b ∈ l, frOk (f b) = true ∧ frOk (g b) = true ∧ rsDecode (F b) (G b) (c1 b) (c0 b) = some (f b, g b, k b)) (s : State)
    (hs : (s.port p).st = .up) :
    ∃ t, s.each l (fun b s => if live s = true then decodeBlock p (F b) (G b) (c1 b) (c0 b) s else s) = t ∧
      t.port p = { s.port p with
        fec := (s.port p).fec ++ l.flatMap (fun b => fecList (f b) ++ fecList (g b)), failRun := if l = [] then (s.port p).failRun else 0 } ∧
      (∀ q, q ≠ p → t.port q = s.port q) ∧ Keeps [.regs, .lnk] s t := by
  refine ⟨_, rfl, ?_⟩
  unfold State.each
  induction l generalizing s with
  | nil => exact ⟨by simp, fun _ _ => rfl, Keeps.refl⟩
  | cons b l ih =>
    rw [List.foldl_cons]
    obtain ⟨h1, h2, h3⟩ := h b (List.mem_cons_self ..)
    dsimp only
    rw [if_pos (hl s hs)]
    obtain ⟨a1, a2, a3⟩ := decodeBlock_port p (F b) (G b) (c1 b) (c0 b) s (f b) (g b) (k b) h3 h1 h2 hs
    obtain ⟨i1, i2, i3⟩ := ih (fun b hb => h b (List.mem_cons_of_mem _ hb)) (decodeBlock p (F b) (G b) (c1 b) (c0 b) s) (by rw [a1]; exact hs)
    refine ⟨?_, fun q hq => (i2 q hq).trans (a2 q hq), a3.trans i3⟩
    rw [i1, a1]
    cases l <;> simp

end Sys2Proof.Machine
end

