-- ==== Sys2Proof/Laws/ExactlyOnce.lean ====
section
/-! SUPPORT. Lemmas on messages under way and on their records. -/

set_option Elab.async false

set_option maxHeartbeats 1000000

namespace Sys2Proof.Machine

/-- Nothing that stands in the crossbar has left it or changed its place. -/
def Grows (s t : State) : Prop := (∀ k, s.buf k <+: t.buf k) ∧ ∀ i, s.staging i <+: t.staging i

theorem Grows.refl {s : State} : Grows s s := ⟨fun _ => List.prefix_refl _, fun _ => List.prefix_refl _⟩
theorem Grows.trans {s t u : State} (h : Grows s t) (h' : Grows t u) : Grows s u :=
  ⟨fun k => (h.1 k).trans (h'.1 k), fun i => (h.2 i).trans (h'.2 i)⟩
theorem Grows.of {s t : State} (h : t.xb.bufs = s.xb.bufs) (h' : t.xb.staging = s.xb.staging) : Grows s t := by
  refine ⟨fun k => ?_, fun i => ?_⟩
  · unfold State.buf; rw [h]
  · unfold State.staging; rw [h']
theorem Grows.keeps {w : List Part} {s t : State} (h : Keeps w s t) (hp : Part.xb ∉ w := by decide) : Grows s t :=
  Grows.of (congrArg XbS.bufs (h.same .xb hp)) (congrArg XbS.staging (h.same .xb hp))
theorem Grows.buf (s : State) (k : Nat) (l : List XEntry) : Grows s (s.setBuf k (s.buf k ++ l)) := by
  refine ⟨fun j => ?_, fun i => List.prefix_refl _⟩
  by_cases h : j = k
  · subst h; rw [State.buf_setBuf]; exact List.prefix_append ..
  · rw [State.buf_setBuf_ne _ _ h]
theorem Grows.staging (s : State) (k : Nat) (l : List XEntry) : Grows s (s.setStaging k (s.staging k ++ l)) := by
  refine ⟨fun j => List.prefix_refl _, fun j => ?_⟩
  by_cases h : j = k
  · subst h; rw [State.staging_setStaging]; exact List.prefix_append ..
  · rw [State.staging_setStaging_ne _ _ h]

theorem stored.grows {s t : State} {m : Msg} (h : stored s m) (g : Grows s t) : stored t m := by
  rcases h with ⟨k, e, he, h⟩ | ⟨i, e, he, h⟩
  · exact .inl ⟨k, e, (g.1 k).subset he, h⟩
  · exact .inr ⟨i, e, (g.2 i).subset he, h⟩

theorem mrnFull_grows (i : Nat) (s : State) : Grows s (mrnFull i s) := by
  unfold mrnFull
  split
  · exact Grows.trans (t := { s with xb := { s.xb with full := tset false s.xb.full i true } }) (Grows.of rfl rfl)
      (Grows.keeps (w := [.regs, .src, .trc]) (Keeps.step (raiseInt_keeps ..) (by decide) (Keeps.mono (State.inc_keeps ..) (by decide))))
  · exact Grows.refl

theorem xbRoom_place {s : State} {i : Nat} {c : Cls} {p : Place} (h : xbRoom s i c = some p) : (∃ k, p = .buf k) ∨ ∃ j, p = .staging j := by
  unfold xbRoom at h
  dsimp only at h
  split_ifs at h <;> cases h <;> simp

theorem takeRoutes_some (m : Msg) (b : Bool) (d : BitVec 12) (s : State) (h : m.cls ≠ .s) : (takeRoutes m b [d] s).1 ≠ [] := by
  have hr : (routeOf s m d b).route ≠ none := by
    unfold routeOf
    split
    · simp
    · dsimp only
      split
      · simp
      · split
        · simp
        · simp
        · have : (m.cls == Cls.s) = false := by simpa using h
          simp [this]
  unfold takeRoutes
  dsimp only
  split
  · rename_i h'; exact absurd h' hr
  · simp

theorem xbStore_grows (i : Nat) (m : Msg) (ds : List (BitVec 12)) (re : Bool) (res : Option Nat) (p : Place) (s : State) :
    Grows s (xbStore i m ds re res p s) := by
  have k1 (m) := Grows.keeps (takeRoutes_keeps m res.isSome ds s)
  unfold xbStore
  generalize (if i = 21 then { m with rver := BitVec.ofNat 3 (s.rd Reg.ROUTE_VER_VER) } else m) = m'
  dsimp only
  split
  · exact k1 _
  · have k2 (m l) (u : State) : Grows u (wakeRoutes m l { u with xb := { u.xb with serial := u.xb.serial + 1 } }) :=
      Grows.trans (t := { u with xb := { u.xb with serial := u.xb.serial + 1 } }) (Grows.of rfl rfl) (Grows.keeps (wakeRoutes_keeps m l _))
    refine Grows.trans (k1 m') (Grows.trans (k2 m' (takeRoutes m' res.isSome ds s).1 _) ?_)
    split
    · exact Grows.buf ..
    · split
      · exact Grows.staging ..
      · exact Grows.trans (Grows.staging ..) (Grows.keeps (trace_keeps ..))
    · exact Grows.refl

theorem xbStore_stored (i : Nat) (m : Msg) (re : Bool) (res : Option Nat) (p : Place) (s : State) (h : m.cls ≠ .s)
    (hp : (∃ k, p = .buf k) ∨ ∃ j, p = .staging j) : stored (xbStore i m [m.dest] re res p s) m := by
  have he : ∀ v, ({ (if i = 21 then { m with rver := v } else m) with rver := m.rver } : Msg) = m := by
    intro v; split_ifs <;> rfl
  have hc : ∀ v, (if i = 21 then { m with rver := v } else m).cls ≠ .s := by
    intro v; split_ifs <;> exact h
  unfold xbStore
  replace he := he (BitVec.ofNat 3 (s.rd Reg.ROUTE_VER_VER))
  replace hc := hc (BitVec.ofNat 3 (s.rd Reg.ROUTE_VER_VER))
  revert he hc
  generalize (if i = 21 then { m with rver := BitVec.ofNat 3 (s.rd Reg.ROUTE_VER_VER) } else m) = m'
  intro he hc
  dsimp only
  rw [if_neg]
  · rcases hp with ⟨k, rfl⟩ | ⟨j, rfl⟩
    · refine .inl ⟨k, { msg := m', owed := (takeRoutes m' res.isSome [m.dest] s).1, order := (takeRoutes m' res.isSome [m.dest] s).2.xb.serial, restored := re, res := res }, ?_, ?_⟩
      · rw [State.buf_setBuf]; exact List.mem_append_right _ (List.mem_singleton_self _)
      · exact he
    · dsimp only
      split
      · refine .inr ⟨j, { msg := m', owed := (takeRoutes m' res.isSome [m.dest] s).1, order := (takeRoutes m' res.isSome [m.dest] s).2.xb.serial, restored := re, res := res }, ?_, ?_⟩
        · rw [State.staging_setStaging]; exact List.mem_append_right _ (List.mem_singleton_self _)
        · exact he
      · refine .inr ⟨j, { msg := m', owed := (takeRoutes m' res.isSome [m.dest] s).1, order := (takeRoutes m' res.isSome [m.dest] s).2.xb.serial, restored := re, res := res }, ?_, ?_⟩
        · rw [(trace_keeps ..).staging_eq, State.staging_setStaging]; exact List.mem_append_right _ (List.mem_singleton_self _)
        · exact he
  · rw [List.isEmpty_iff]
    exact takeRoutes_some _ _ _ _ hc

theorem xbTry_grows (i : Nat) (m : Msg) (re : Bool) (res : Option Nat) (s : State) : Grows s (xbTry i m re res s).2 := by
  unfold xbTry
  split
  · exact xbStore_grows ..
  · dsimp only
    split
    · exact mrnFull_grows ..
    · exact Grows.refl

theorem xbTry_stored (i : Nat) (m : Msg) (re : Bool) (res : Option Nat) (s : State) (h : m.cls ≠ .s) (h' : (xbTry i m re res s).1 = true) :
    stored (xbTry i m re res s).2 m := by
  unfold xbTry at h' ⊢
  split
  · rename_i p hp; exact xbStore_stored _ _ _ _ _ _ h (xbRoom_place hp)
  · rename_i hp; rw [hp] at h'; simp at h'

/-- What enters an input from a list stands in the crossbar, and the rest is left over. -/
theorem pumpList_grows (i : Nat) (l : List RecEntry) (shut : List Cls) (s : State) :
    Grows s (pumpList i l shut s).2 ∧ ∀ e ∈ l, e.msg.cls ≠ .s → e ∈ (pumpList i l shut s).1 ∨ stored (pumpList i l shut s).2 e.msg := by
  induction l generalizing shut s with
  | nil => exact ⟨Grows.refl, fun e h => absurd h (List.not_mem_nil)⟩
  | cons x l ih =>
    unfold pumpList
    split
    · refine ⟨(ih shut s).1, fun e he hc => ?_⟩
      rcases List.mem_cons.1 he with rfl | he
      · exact .inl (List.mem_cons_self ..)
      · rcases (ih shut s).2 e he hc with h | h
        · exact .inl (List.mem_cons_of_mem _ h)
        · exact .inr h
    · have hg := xbTry_grows i x.msg x.restored x.res s
      have hs := xbTry_stored i x.msg x.restored x.res s
      split
      · rename_i u hu
        rw [hu] at hg hs
        refine ⟨hg.trans (ih shut u).1, fun e he hc => ?_⟩
        rcases List.mem_cons.1 he with rfl | he
        · exact .inr ((hs hc rfl).grows (ih shut u).1)
        · exact (ih shut u).2 e he hc
      · rename_i u hu
        rw [hu] at hg
        refine ⟨hg.trans (ih _ u).1, fun e he hc => ?_⟩
        rcases List.mem_cons.1 he with rfl | he
        · exact .inl (List.mem_cons_self ..)
        · rcases (ih _ u).2 e he hc with h | h
          · exact .inl (List.mem_cons_of_mem _ h)
          · exact .inr h

/-- The lists that wait to enter the crossbar. -/
def waits (s : State) : List RecEntry × Tbl (List Msg) × List Msg × List Msg × List Msg :=
  (s.xb.recHold, s.xb.retHold, s.xb.ctlHold, s.xb.recIn, s.xb.ctl)

theorem waits_keeps {w : List Part} {s t : State} (h : Keeps w s t) (hp : Part.xb ∉ w := by decide) : waits t = waits s := by
  unfold waits; rw [h.same .xb hp]

theorem xbTry_waits (i : Nat) (m : Msg) (re : Bool) (res : Option Nat) (s : State) : waits (xbTry i m re res s).2 = waits s := by
  unfold xbTry
  split
  · unfold xbStore
    generalize (if i = 21 then { m with rver := BitVec.ofNat 3 (s.rd Reg.ROUTE_VER_VER) } else m) = m'
    dsimp only
    have k1 := waits_keeps (takeRoutes_keeps m' res.isSome [m.dest] s)
    split
    · exact k1
    · refine Eq.trans ?_ k1
      have k2 (l) (u : State) : waits (wakeRoutes m' l { u with xb := { u.xb with serial := u.xb.serial + 1 } }) = waits u :=
        (waits_keeps (wakeRoutes_keeps ..)).trans rfl
      refine Eq.trans ?_ (k2 (takeRoutes m' res.isSome [m.dest] s).1 _)
      split
      · rfl
      · split
        · rfl
        · exact (waits_keeps (trace_keeps ..)).trans rfl
      · rfl
  · dsimp only
    split
    · unfold mrnFull
      split
      · exact (waits_keeps (raiseInt_keeps ..)).trans ((waits_keeps (State.inc_keeps ..)).trans rfl)
      · rfl
    · rfl

theorem pumpList_waits (i : Nat) (l : List RecEntry) (shut : List Cls) (s : State) : waits (pumpList i l shut s).2 = waits s := by
  induction l generalizing shut s with
  | nil => rfl
  | cons x l ih =>
    unfold pumpList
    split
    · exact ih shut s
    · have h := xbTry_waits i x.msg x.restored x.res s
      split
      · rename_i u hu; rw [hu] at h; exact (ih shut u).trans h
      · rename_i u hu; rw [hu] at h; exact (ih _ u).trans h

/-- What was on its way still is. -/
def Carries (s t : State) : Prop := ∀ m, m.cls ≠ .s → enRoute s m → enRoute t m

theorem Carries.refl {s : State} : Carries s s := fun _ _ h => h
theorem Carries.trans {s t u : State} (h : Carries s t) (h' : Carries t u) : Carries s u := fun m hc x => h' m hc (h m hc x)
theorem Carries.keeps {w : List Part} {s t : State} (h : Keeps w s t) (hp : Part.xb ∉ w := by decide) : Carries s t := by
  intro m _ x
  unfold enRoute stored State.buf State.staging
  rw [h.same .xb hp]
  exact x

theorem isMsg.stored {s : State} {m x : Msg} (h : isMsg m x) (h' : stored s x) : stored s m := by
  have ht (y : Msg) (hy : isMsg x y) : isMsg m y := by
    unfold isMsg at *
    rw [← h, ← hy]
  rcases h' with ⟨k, e, he, h'⟩ | ⟨i, e, he, h'⟩
  · exact .inl ⟨k, e, he, ht _ h'⟩
  · exact .inr ⟨i, e, he, ht _ h'⟩

theorem isMsg.cls {m x : Msg} (h : isMsg m x) : x.cls = m.cls := by unfold isMsg at h; rw [← h]

theorem pumpRec_carries (s : State) : Carries s (pumpRec s) := by
  intro m hc h
  obtain ⟨h1, h2⟩ := pumpList_grows 21 s.xb.recHold [] s
  have h3 := pumpList_waits 21 s.xb.recHold [] s
  unfold waits at h3
  simp only [Prod.mk.injEq] at h3
  unfold pumpRec
  dsimp only
  rcases h with h | ⟨e, he, hm⟩ | ⟨r, x, h, hm⟩ | ⟨x, h, hm⟩
  · exact .inl (h.grows (h1.trans (Grows.of rfl rfl)))
  · rcases h2 e he (by rw [hm.cls]; exact hc) with h | h
    · exact .inr (.inl ⟨e, h, hm⟩)
    · exact .inl (hm.stored (h.grows (Grows.of rfl rfl)))
  · exact .inr (.inr (.inl ⟨r, x, by rw [← h3.2.1] at h; exact h, hm⟩))
  · exact .inr (.inr (.inr ⟨x, by rw [← h3.2.2.1] at h; exact h, hm⟩))

theorem sendRec_enRoute (e : RecEntry) (s : State) {m : Msg} (h : m.cls ≠ .s) (hm : isMsg m e.msg) : enRoute (sendRec e s) m :=
  pumpRec_carries _ _ h (.inr (.inl ⟨e, List.mem_append_right _ (List.mem_singleton.2 rfl), hm⟩))

theorem sendRec_carries (e : RecEntry) (s : State) : Carries s (sendRec e s) := by
  refine Carries.trans (t := { s with xb := { s.xb with recHold := s.xb.recHold ++ [e] } }) ?_ (pumpRec_carries _)
  intro m _ h
  rcases h with h | ⟨x, hx, h⟩ | h
  · exact .inl (h.grows (Grows.of rfl rfl))
  · exact .inr (.inl ⟨x, List.mem_append_left _ hx, h⟩)
  · exact .inr (.inr h)

/-- Tokens formed in states of one die are the same but for the Route version. -/
theorem fenceTok_isMsg {s u : State} (h : u.pins = s.pins) (k : Nat) (o : BitVec 5) (src : BitVec 13) (q : BitVec 24) (d : BitVec 12) (c : Cls) (low : BitVec 12) (x : Nat) :
    isMsg (fenceTok s k o src q d c low x) (fenceTok u k o src q d c low x) := by
  unfold isMsg fenceTok State.die
  rw [h]

theorem sendFence_enRoute {s u : State} (h : u.pins = s.pins) (k : Nat) (m : Msg) (d : BitVec 5) (low : BitVec 12) (x : Nat) :
    enRoute (sendFence k m d low x u) (fenceTok s k m.origin m.source m.seq (dieAddr d) .g low x) :=
  sendRec_enRoute _ u (by unfold fenceTok; simp) (fenceTok_isMsg h ..)
theorem sendFence_carries (k : Nat) (m : Msg) (d : BitVec 5) (low : BitVec 12) (x : Nat) (s : State) : Carries s (sendFence k m d low x s) :=
  sendRec_carries _ _

/-- What each turn of a loop puts on its way is there after the loop. -/
theorem each_enRoute {α : Type} (P : State → Prop) (f : α → State → State) (tok : α → Msg) (hf : ∀ a s, P s → P (f a s) ∧ Carries s (f a s) ∧ enRoute (f a s) (tok a))
    (ht : ∀ a, (tok a).cls ≠ .s) (l : List α) (s : State) (hs : P s) : P (s.each l f) ∧ Carries s (s.each l f) ∧ ∀ a ∈ l, enRoute (s.each l f) (tok a) := by
  unfold State.each
  induction l generalizing s with
  | nil => exact ⟨hs, Carries.refl, fun a h => absurd h List.not_mem_nil⟩
  | cons x l ih =>
    rw [List.foldl_cons]
    obtain ⟨h1, h2, h3⟩ := hf x s hs
    obtain ⟨i1, i2, i3⟩ := ih _ h1
    refine ⟨i1, h2.trans i2, fun a ha => ?_⟩
    rcases List.mem_cons.1 ha with rfl | ha
    · exact i2 _ (ht a) h3
    · exact i3 a ha

theorem sendRec_recIn (e : RecEntry) (s : State) : (sendRec e s).xb.recIn = s.xb.recIn := by
  have h := pumpList_waits 21 (s.xb.recHold ++ [e]) [] { s with xb := { s.xb with recHold := s.xb.recHold ++ [e] } }
  unfold waits at h
  simp only [Prod.mk.injEq] at h
  exact h.2.2.2.1

theorem onFence_eq {s : State} {kind : Nat} {m : Msg} {l : List Msg} (h : fenceIn s kind m l) (f : State → State) :
    onFence kind m f s = f { s with xb := { s.xb with recIn := l } } := by
  obtain ⟨h1, h2, h3⟩ := h
  unfold onFence takeRec
  rw [if_pos (by simp [h1, h2]), h3]

theorem fenceIn_bare {s : State} {kind : Nat} {m : Msg} {l : List Msg} (h : fenceIn s kind m l) : fenceIn s.bare kind m l := h

theorem State.recOf_setRec' (s : State) (i j : Nat) (r : Option FirnRec) : (s.setRec i r).recOf j = if j = i then r else s.recOf j := by
  split
  · rename_i h; subst h; exact State.recOf_setRec ..
  · rename_i h; exact State.recOf_setRec_ne _ _ h

/-- An event record that is freed is gone, no other record changes, and CONFIRM goes to each donor. -/
theorem freeEvent_does (k : Nat) (e : FirnRec) (s : State) :
    (∀ j, (freeEvent k e s).recOf j = if j = k then none else s.recOf j) ∧ (freeEvent k e s).xb.recIn = s.xb.recIn ∧ Carries s (freeEvent k e s) ∧
      ∀ d ∈ e.donors, enRoute (freeEvent k e s) (fenceTok s 5 e.msg.origin e.msg.source e.msg.seq (dieAddr d) .g 0 0) := by
  have h := each_enRoute (fun u => u.pins = s.pins ∧ u.firn = (s.setRec k none).firn ∧ u.xb.recIn = s.xb.recIn) (fun d u => sendFence 5 e.msg d 0 0 u)
    (fun d => fenceTok s 5 e.msg.origin e.msg.source e.msg.seq (dieAddr d) .g 0 0)
    (fun d u hu => ⟨⟨((sendFence_keeps ..).same .pins (by decide)).trans hu.1, ((sendFence_keeps ..).same .firn (by decide)).trans hu.2.1,
      (sendRec_recIn ..).trans hu.2.2⟩, sendFence_carries 5 e.msg d 0 0 u, sendFence_enRoute hu.1 5 e.msg d 0 0⟩) (fun d => by unfold fenceTok; simp) e.donors.dedup (s.setRec k none) ⟨rfl, rfl, rfl⟩
  unfold freeEvent
  refine ⟨fun j => ?_, h.1.2.2, (Carries.keeps (State.setRec_keeps ..)).trans h.2.1, fun d hd => h.2.2 d (List.mem_dedup.2 hd)⟩
  rw [← State.recOf_setRec']
  unfold State.recOf
  rw [h.1.2.1]

theorem sendCtl_recIn (m : Msg) (s : State) : (sendCtl m s).xb.recIn = s.xb.recIn := by
  have h := pumpList_waits 22 ((s.xb.ctlHold ++ [m]).map fun m => { msg := m }) [] { s with xb := { s.xb with ctlHold := s.xb.ctlHold ++ [m] } }
  unfold waits at h
  simp only [Prod.mk.injEq] at h
  exact h.2.2.2.1

/-- A release concerns one record alone. -/
theorem releaseEvent_recs (k : Nat) (e : FirnRec) (s : State) :
    (∀ j, j ≠ k → (releaseEvent k e s).recOf j = s.recOf j) ∧ (releaseEvent k e s).xb.recIn = s.xb.recIn := by
  unfold releaseEvent
  have hf := freeEvent_does k e s
  have hf' : (∀ j, j ≠ k → (freeEvent k e s).recOf j = s.recOf j) ∧ (freeEvent k e s).xb.recIn = s.xb.recIn :=
    ⟨fun j hj => by rw [hf.1, if_neg hj], hf.2.1⟩
  split
  · split
    · exact hf'
    · refine ⟨fun j hj => ?_, sendCtl_recIn ..⟩
      rw [(sendCtl_keeps ..).recOf_eq, State.recOf_setRec_ne _ _ hj]
  · exact hf'

theorem resend_enRoute {s u : State} (h : u.epoch = s.epoch) (r : FirnRec) (d : BitVec 12) (hp : r.poisoned = false) (hc : r.msg.cls ≠ .s) :
    enRoute (resend r d u) { r.msg.flag with dest := d, epoch := if r.acting then s.epoch.num.truncate 8 else r.msg.epoch } := by
  unfold resend
  rw [hp, if_neg (by decide)]
  refine Carries.keeps (State.inc_keeps ..) (by decide) _ (by exact hc) ?_
  rw [h]
  exact sendRec_enRoute _ _ (by exact hc) rfl

theorem resend_carries (r : FirnRec) (d : BitVec 12) (s : State) : Carries s (resend r d s) := by
  unfold resend
  split
  · exact Carries.keeps (State.inc_keeps ..)
  · exact (sendRec_carries _ _).trans (Carries.keeps (State.inc_keeps ..))

theorem resend_recIn (r : FirnRec) (d : BitVec 12) (s : State) : (resend r d s).xb.recIn = s.xb.recIn := by
  unfold resend
  split
  · exact congrArg XbS.recIn ((State.inc_keeps ..).same .xb (by decide))
  · exact (congrArg XbS.recIn ((State.inc_keeps ..).same .xb (by decide))).trans (sendRec_recIn ..)

end Sys2Proof.Machine
end

