-- ==== Sys2Proof/Laws/BarrierFrames.lean ====
section
/-! SUPPORT. Lemmas on barrier frames. -/

set_option maxHeartbeats 1000000

namespace Sys2Proof.Machine

theorem drain_eq (d : Side) (u : State) (h : barWaits d u = false) :
    drainEntries d u = setBar d { barOf d u with freed := (barOf d u).freed + (barOf d u).rxUsed, rxUsed := 0 } u := by
  unfold drainEntries
  dsimp only
  by_cases hz : (barOf d u).rxUsed = 0
  · rw [if_pos (by cases d <;> simp_all [barWaits])]
    rw [hz]
    cases d
    · have e : ({ barOf .field u with freed := (barOf .field u).freed + 0, rxUsed := 0 } : BarS) = u.bar := by
        conv => rhs; rw [show u.bar = { u.bar with rxUsed := u.bar.rxUsed } from rfl, show u.bar.rxUsed = 0 from hz]
        rfl
      rw [e]; rfl
    · have e : ({ barOf .host u with freed := (barOf .host u).freed + 0, rxUsed := 0 } : BarS) = u.gate.bar := by
        conv => rhs; rw [show u.gate.bar = { u.gate.bar with rxUsed := u.gate.bar.rxUsed } from rfl, show u.gate.bar.rxUsed = 0 from hz]
        rfl
      rw [e]; rfl
  · rw [if_neg (by cases d <;> simp_all [barWaits])]

/-- The side as a frame of a type arrives. -/
def barHeard (d : Side) (typ : BitVec 8) (s : State) : BarS :=
  { barOf d s with lastRx := clk d s, failRun := 0, rxUsed := if credited typ then (barOf d s).rxUsed + 1 else (barOf d s).rxUsed }

theorem rxBar_eq (d : Side) (typ : BitVec 8) (f : State → State) (s : State) (h : barReady d s) :
    rxBar d typ f s = drainEntries d (f (setBar d (barHeard d typ s) s)) := by
  unfold rxBar
  dsimp only
  rw [if_neg (by rw [h.1, h.2.1]; decide)]
  rfl

theorem barQueue_eq (d : Side) (typ : BitVec 8) (p : BitVec 128) (s : State) (h : (barOf d s).st = .up) :
    barQueue d typ p s = setBar d (barWith typ p (barOf d s)) s := by
  unfold barQueue barWith
  dsimp only
  rw [if_neg (by rw [h]; decide)]
  split <;> rfl

theorem resendHost_does (s : State) : (resendHost s).hostq.unrep = [] ∧ (resendHost s).hostq.credit = s.hostq.credit ∧
    (resendHost s).hostq.stops = s.hostq.stops := by
  unfold resendHost
  dsimp only
  refine ⟨rfl, ?_, ?_⟩
  · refine congrArg HostQ.credit (State.each_inv (f := _) (fun s => s.hostq) _ (fun k v => ?_) s)
    repeat' first
      | rfl
      | exact (State.inc_keeps ..).same .hostq (by decide)
      | split
  · refine congrArg HostQ.stops (State.each_inv (f := _) (fun s => s.hostq) _ (fun k v => ?_) s)
    repeat' first
      | rfl
      | exact (State.inc_keeps ..).same .hostq (by decide)
      | split

theorem stopReported_unrep (k : Nat) (s : State) : (stopReported k s).hostq.unrep = s.hostq.unrep := by
  unfold stopReported
  dsimp only
  refine State.each_inv (f := _) (fun s => s.hostq.unrep) _ (fun x u => ?_) _
  split
  · exact congrArg HostQ.unrep ((barQueue_keeps ..).same .hostq (by decide))
  · rfl

/-- A completion of a host-bound record whose origin is another die. -/
theorem completeHost_away (k : Nat) (c : FirnRec) (s : State) (h : c.msg.origin ≠ s.die) :
    (completeHost k c s).recOf k = some { c with done := true } ∧ (∀ j, j ≠ k → (completeHost k c s).recOf j = s.recOf j) ∧
      (completeHost k c s).hostq = s.hostq := by
  unfold completeHost
  dsimp only
  rw [if_neg (by simpa using h)]
  have kp := fun u => pumpBar_keeps u
  refine ⟨((kp _).recOf_eq k).trans ?_, fun j hj => ((kp _).recOf_eq j).trans ?_, ((kp _).same .hostq (by decide)).trans rfl⟩
  · exact State.recOf_setRec s k _
  · exact State.recOf_setRec_ne s _ hj

theorem barCtl_eq (typ : BitVec 8) (p : BitVec 128) (s : State) (h : s.bar.st = .up) (hr : s.bar.run = true) :
    barCtl typ p s = { s with bar := { s.bar with ctl := s.bar.ctl ++ [(typ, p)] } } := by
  unfold barCtl
  rw [if_pos (by rw [h, hr]; decide)]


theorem inc_withBar (s : State) (b : BarS) (f : Fld) (n : Nat) : ({ s with bar := b } : State).inc f n = { s.inc f n with bar := b } := rfl


theorem rd_congr {s u : State} (h : u.regs = s.regs) (f : Fld) : u.rd f = s.rd f := by unfold State.rd; rw [h]
theorem flag_congr {s u : State} (h : u.regs = s.regs) (f : Fld) : u.flag f = s.flag f := by unfold State.flag; rw [rd_congr h]

end Sys2Proof.Machine
end

