-- ==== Sys2Proof/Laws/LostDies.lean ====
section
/-! SUPPORT. Lemmas on the loss of a die and the restore of custody. -/

set_option maxHeartbeats 1000000

namespace Sys2Proof.Machine

/-- A probe of a record: its time starts again, and PROBE goes to each missing replica. -/
theorem probeRecord_does (k : Nat) (e : FirnRec) (s : State) (h : s.recOf k = some e) :
    (∀ j, (probeRecord k s).recOf j = if j = k then some { e with since := s.time.now } else s.recOf j) ∧ (probeRecord k s).xb.recIn = s.xb.recIn ∧
      Carries s (probeRecord k s) ∧
      ∀ x ∈ e.need, enRoute (probeRecord k s) (fenceTok s 7 e.msg.origin e.msg.source e.msg.seq (dieAddr (targetDie x)) .g x 0) := by
  have h1 := each_enRoute (fun u => u.pins = s.pins ∧ u.firn = (s.setRec k (some { e with since := s.time.now })).firn ∧ u.xb.recIn = s.xb.recIn)
    (fun x u => sendFence 7 e.msg (targetDie x) x 0 u) (fun x => fenceTok s 7 e.msg.origin e.msg.source e.msg.seq (dieAddr (targetDie x)) .g x 0)
    (fun x u hu => ⟨⟨((sendFence_keeps ..).same .pins (by decide)).trans hu.1, ((sendFence_keeps ..).same .firn (by decide)).trans hu.2.1,
      (sendRec_recIn ..).trans hu.2.2⟩, sendFence_carries 7 e.msg _ x 0 u, sendFence_enRoute hu.1 7 e.msg _ x 0⟩) (fun d => by unfold fenceTok; simp) e.need
    (s.setRec k (some { e with since := s.time.now })) ⟨rfl, rfl, rfl⟩
  unfold probeRecord
  rw [h]
  dsimp only
  refine ⟨fun j => ?_, h1.1.2.2, (Carries.keeps (State.setRec_keeps ..)).trans h1.2.1, h1.2.2⟩
  rw [← State.recOf_setRec']
  unfold State.recOf
  rw [h1.1.2.1]

theorem broadcast_does (k : Nat) (o : BitVec 5) (x : Nat) {s u : State} (hp : u.pins = s.pins) (hr : u.regs = s.regs) :
    ∀ d ∈ bcastDies s, enRoute (broadcast k o x u) (fenceTok s k o 0 0 (dieAddr d) .g 0 x) := by
  have h1 := each_enRoute (fun u => u.pins = s.pins)
    (fun d u => sendRec { msg := fenceTok u k o 0 0 (dieAddr d) .g 0 x } u) (fun d => fenceTok s k o 0 0 (dieAddr d) .g 0 x)
    (fun x u hu => ⟨((sendRec_keeps ..).same .pins (by decide)).trans hu, sendRec_carries _ u, sendRec_enRoute _ u (by unfold fenceTok; simp) (fenceTok_isMsg hu ..)⟩)
    (fun d => by unfold fenceTok; simp) (bcastDies u) u hp
  have he : bcastDies u = bcastDies s := by unfold bcastDies State.flag State.rd; rw [hr]
  rw [he] at h1
  unfold broadcast
  rw [he]
  exact h1.2.2

theorem startTakeover_does (o : BitVec 5) (s : State) (h : s.flag Reg.REC_CTRL_PTAKE = true) (h1 : takingOver s o = false) :
    (s.rec_.acting = none → (startTakeover o s).rec_.acting = some (o, s.time.now)) ∧
      (s.rec_.acting ≠ none → (startTakeover o s).rec_.actMore = s.rec_.actMore ++ [(o, s.time.now)]) ∧
      tget none (startTakeover o s).rec_.actmap o.toNat = some s.die ∧
      ∀ d ∈ bcastDies s, enRoute (startTakeover o s) (fenceTok s 9 o 0 0 (dieAddr d) .g 0 0) := by
  have e : startTakeover o s = (((({ broadcast 9 o 0 (addTakeover o s) with
      rec_ := { (broadcast 9 o 0 (addTakeover o s)).rec_ with
        actmap := tset none (broadcast 9 o 0 (addTakeover o s)).rec_.actmap o.toNat (some (broadcast 9 o 0 (addTakeover o s)).die) } } : State).wr
          Reg.REC_STAT_ACTING o.toNat).raise Reg.REC_STAT_TAKEV)) := by
    unfold startTakeover
    rw [h, h1, if_pos (by decide)]
  have ka : Keeps [.rec_] s (addTakeover o s) := addTakeover_keeps ..
  have k := broadcast_keeps 9 o 0 (addTakeover o s)
  have b := broadcast_does 9 o 0 (s := s) (u := addTakeover o s) (ka.same .pins (by decide)) (ka.same .regs (by decide))
  rw [e]
  generalize broadcast 9 o 0 (addTakeover o s) = u at *
  have kr : u.rec_ = (addTakeover o s).rec_ := k.same .rec_ (by decide)
  refine ⟨fun h2 => ?_, fun h2 => ?_, ?_, fun d hd => ?_⟩
  · show u.rec_.acting = _
    rw [kr]
    unfold addTakeover
    rw [h2]
  · show u.rec_.actMore = _
    rw [kr]
    unfold addTakeover
    cases h3 : s.rec_.acting with
    | none => exact absurd h3 h2
    | some x => rfl
  · show tget none (tset none u.rec_.actmap o.toNat (some u.die)) o.toNat = some s.die
    rw [tget_tset_same]
    unfold State.die
    rw [k.same .pins (by decide), ka.same .pins (by decide)]
  · exact (Carries.keeps (Keeps.step (State.raise_keeps ..) (by decide) (Keeps.mono (State.wr_keeps ..) (by decide)) : Keeps [.regs] _ _)) _ (by unfold fenceTok; simp) (b d hd)

theorem each_recIn {α : Type} (l : List α) {f : α → State → State} (h : ∀ a s, (f a s).xb.recIn = s.xb.recIn) (s : State) :
    (s.each l f).xb.recIn = s.xb.recIn := State.each_inv (fun s => s.xb.recIn) l h s

theorem probeRecord_recIn (k : Nat) (s : State) : (probeRecord k s).xb.recIn = s.xb.recIn := by
  cases h : s.recOf k with
  | some e => exact (probeRecord_does k e s h).2.1
  | none => unfold probeRecord; rw [h]

theorem probeAll_recIn (s : State) : (probeAll s).xb.recIn = s.xb.recIn := each_recIn _ (fun _ _ => probeRecord_recIn ..) s

theorem markUnreachable_recIn (p : BitVec 5) (s : State) : (markUnreachable p s).xb.recIn = s.xb.recIn := by
  unfold markUnreachable
  split
  · rfl
  · refine (each_recIn _ (fun (e : Nat × FirnRec) s => (freeEvent_does e.1 e.2 s).2.1) _).trans ?_
    exact congrArg XbS.recIn ((raiseInt_keeps ..).same .xb (by decide))

theorem resendDones_recIn (o : Option (BitVec 5)) (s : State) : (resendDones o s).xb.recIn = s.xb.recIn := by
  refine each_recIn _ (fun e s => ?_) s
  split
  · rfl
  · exact sendRec_recIn ..

theorem broadcast_recIn (k : Nat) (o : BitVec 5) (x : Nat) (s : State) : (broadcast k o x s).xb.recIn = s.xb.recIn :=
  each_recIn _ (fun _ _ => sendRec_recIn ..) s

/-- Slots that are freed and filled leave the rest of the recovery state as it is. -/
theorem freeSlots_rec (p : MigSlot → Bool) (s : State) : (freeSlots p s).rec_.actmap = s.rec_.actmap ∧ (freeSlots p s).rec_.acting = s.rec_.acting := by
  have h (s : State) : (fillSlots s).rec_.actmap = s.rec_.actmap ∧ (fillSlots s).rec_.acting = s.rec_.acting := by
    unfold fillSlots
    dsimp only
    split
    · exact ⟨rfl, rfl⟩
    · exact ⟨rfl, rfl⟩
  have := State.each_inv (fun s => (s.rec_.actmap, s.rec_.acting)) ((List.range 8).filter fun j => match tget none s.rec_.mig j with | some x => p x | none => false)
    (f := fun j s => fillSlots { s with rec_ := { s.rec_ with mig := tset none s.rec_.mig j none } }) (fun j s => by
      rw [Prod.mk.injEq]; exact h _) s
  rw [Prod.mk.injEq] at this
  exact this

/-- The first part of a LOSS: the map, the takeover shown, the partner and the probes. -/
def lossHead (m : Msg) (s : State) : State :=
  let s := { s with rec_ := { s.rec_ with actmap := tset none s.rec_.actmap m.origin.toNat none } }
  let s := if s.rd Reg.REC_STAT_ACTING == m.origin.toNat then s.wr Reg.REC_STAT_TAKEV 0 else s
  let s := if hasPartner s m.origin then markUnreachable m.origin s else s
  if s.flag Reg.REC_CTRL_AGEN then probeAll s else s

/-- The last part of a LOSS: the migrations. -/
def lossTail (m : Msg) (s : State) : State :=
  let cut := s.rq.blocked.filter (·.sender == m.origin)
  let s := { s with rq := { s.rq with blocked := s.rq.blocked.filter (·.sender != m.origin) } }
  let s := s.each cut fun b s => askFills (b.u % 64 / 4) (sendMigrated b.origin b.source b.seq s)
  endLostMigrations (loseTarget m.origin s)

/-- The marks of migrations whose target is lost, and their ends, leave the rest of the recovery state as it is. -/
theorem loseTarget_rec (o : BitVec 5) (s : State) : (endLostMigrations (loseTarget o s)).rec_.actmap = s.rec_.actmap ∧
    (endLostMigrations (loseTarget o s)).rec_.acting = s.rec_.acting := by
  have h1 : (loseTarget o s).rec_.actmap = s.rec_.actmap ∧ (loseTarget o s).rec_.acting = s.rec_.acting := by
    unfold loseTarget
    dsimp only
    have k (l : List (Nat × FirnRec)) (u : State) : (u.each l fun e s => s.setRec e.1 (some { e.2 with again := false })).rec_ = u.rec_ :=
      State.each_inv (fun s => s.rec_) l (f := fun e s => s.setRec e.1 (some { e.2 with again := false })) (fun _ _ => rfl) u
    rw [k]
    exact ⟨rfl, rfl⟩
  generalize loseTarget o s = u at *
  unfold endLostMigrations
  split
  · exact ⟨(freeSlots_rec _ u).1.trans h1.1, (freeSlots_rec _ u).2.trans h1.2⟩
  · exact h1

theorem lossHead_does {m : Msg} {s u : State} (h : lossHead m s = u) :
    u.rec_.actmap = tset none s.rec_.actmap m.origin.toNat none ∧ u.rec_.acting = s.rec_.acting ∧ u.xb.recIn = s.xb.recIn ∧ u.rq = s.rq := by
  obtain ⟨a, ha, ka⟩ : ∃ a, (if ({ s with rec_ := { s.rec_ with actmap := tset none s.rec_.actmap m.origin.toNat none } } : State).rd Reg.REC_STAT_ACTING == m.origin.toNat
      then ({ s with rec_ := { s.rec_ with actmap := tset none s.rec_.actmap m.origin.toNat none } } : State).wr Reg.REC_STAT_TAKEV 0
      else { s with rec_ := { s.rec_ with actmap := tset none s.rec_.actmap m.origin.toNat none } }) = a ∧
      Keeps [.regs] { s with rec_ := { s.rec_ with actmap := tset none s.rec_.actmap m.origin.toNat none } } a := by
    refine ⟨_, rfl, ?_⟩
    split_ifs
    · exact State.wr_keeps ..
    · exact Keeps.refl
  obtain ⟨b, hb, kb, rb⟩ : ∃ b, (if hasPartner a m.origin then markUnreachable m.origin a else a) = b ∧
      Keeps [.regs, .src, .acc, .firn, .xb, .pwr, .trc] a b ∧ b.xb.recIn = a.xb.recIn := by
    refine ⟨_, rfl, ?_, ?_⟩ <;> split_ifs
    · exact markUnreachable_keeps ..
    · exact Keeps.refl
    · exact markUnreachable_recIn ..
    · rfl
  obtain ⟨kc, rc⟩ : Keeps [.regs, .src, .firn, .xb, .pwr, .trc] b u ∧ u.xb.recIn = b.xb.recIn := by
    unfold lossHead at h
    dsimp only at h
    rw [ha, hb] at h
    rw [← h]
    constructor <;> split_ifs
    · exact probeAll_keeps ..
    · exact Keeps.refl
    · exact probeAll_recIn ..
    · rfl
  have e1 : u.rec_ = { s.rec_ with actmap := tset none s.rec_.actmap m.origin.toNat none } :=
    (kc.same .rec_ (by decide)).trans ((kb.same .rec_ (by decide)).trans (ka.same .rec_ (by decide)))
  refine ⟨congrArg RecS.actmap e1, (congrArg RecS.acting e1).trans rfl, rc.trans (rb.trans (congrArg XbS.recIn (ka.same .xb (by decide)))),
    (kc.same .rq (by decide)).trans ((kb.same .rq (by decide)).trans (ka.same .rq (by decide)))⟩

theorem lossTail_does (m : Msg) (s : State) :
    (lossTail m s).rec_.actmap = s.rec_.actmap ∧ (lossTail m s).rec_.acting = s.rec_.acting ∧ (lossTail m s).xb.recIn = s.xb.recIn ∧
      (lossTail m s).rq.blocked = s.rq.blocked.filter (·.sender != m.origin) := by
  have hr := loseTarget_rec m.origin
    (({ s with rq := { s.rq with blocked := s.rq.blocked.filter (·.sender != m.origin) } } : State).each (s.rq.blocked.filter (·.sender == m.origin))
      fun b s => askFills (b.u % 64 / 4) (sendMigrated b.origin b.source b.seq s))
  have hk : Keeps [.firn, .rec_] (({ s with rq := { s.rq with blocked := s.rq.blocked.filter (·.sender != m.origin) } } : State).each (s.rq.blocked.filter (·.sender == m.origin))
      fun b s => askFills (b.u % 64 / 4) (sendMigrated b.origin b.source b.seq s)) (lossTail m s) :=
    Keeps.step (endLostMigrations_keeps ..) (by decide) (loseTarget_keeps ..)
  have k (b : Blocked) (s : State) : Keeps [.regs, .src, .xb, .clus, .pwr, .trc] s (askFills (b.u % 64 / 4) (sendMigrated b.origin b.source b.seq s)) :=
    Keeps.step (askFills_keeps ..) (by decide) (Keeps.mono (sendMigrated_keeps ..) (by decide))
  have e1 (l : List Blocked) (s : State) : Keeps [.regs, .src, .xb, .clus, .pwr, .trc] s (s.each l fun b s => askFills (b.u % 64 / 4) (sendMigrated b.origin b.source b.seq s)) := by
    unfold State.each
    induction l generalizing s with
    | nil => exact Keeps.refl
    | cons b l ih => exact (k b s).trans (ih _)
  have e2 (l : List Blocked) (s : State) : (s.each l fun b s => askFills (b.u % 64 / 4) (sendMigrated b.origin b.source b.seq s)).xb.recIn = s.xb.recIn :=
    each_recIn l (fun b s => (congrArg XbS.recIn ((askFills_keeps ..).same .xb (by decide))).trans (sendRec_recIn ..)) s
  have k2 := e1 (s.rq.blocked.filter (·.sender == m.origin)) ({ s with rq := { s.rq with blocked := s.rq.blocked.filter (·.sender != m.origin) } } : State)
  have k3 := e2 (s.rq.blocked.filter (·.sender == m.origin)) ({ s with rq := { s.rq with blocked := s.rq.blocked.filter (·.sender != m.origin) } } : State)
  have r := k2.same .rec_ (by decide)
  refine ⟨hr.1.trans (congrArg RecS.actmap r), hr.2.trans (congrArg RecS.acting r), ?_, ?_⟩
  · exact (congrArg XbS.recIn (hk.same .xb (by decide))).trans k3
  · exact (congrArg RqS.blocked (hk.same .rq (by decide))).trans (congrArg RqS.blocked (k2.same .rq (by decide)))

theorem lossHead_plain (m : Msg) (s : State) (h7 : s.rd Reg.REC_STAT_ACTING ≠ m.origin.toNat) (h3 : hasPartner s m.origin = false)
    (h4 : s.flag Reg.REC_CTRL_AGEN = false) : lossHead m s = { s with rec_ := { s.rec_ with actmap := tset none s.rec_.actmap m.origin.toNat none } } := by
  unfold lossHead
  obtain ⟨u, hu⟩ : ∃ u : State, u = { s with rec_ := { s.rec_ with actmap := tset none s.rec_.actmap m.origin.toNat none } } := ⟨_, rfl⟩
  have e1 : u.rd Reg.REC_STAT_ACTING = s.rd Reg.REC_STAT_ACTING := by rw [hu]; rfl
  have e3 : hasPartner u m.origin = hasPartner s m.origin := by rw [hu]; rfl
  have e4 : u.flag Reg.REC_CTRL_AGEN = s.flag Reg.REC_CTRL_AGEN := by rw [hu]; rfl
  rw [← hu]
  dsimp only
  have e5 : (s.rd Reg.REC_STAT_ACTING == m.origin.toNat) = false := beq_eq_false_iff_ne.2 h7
  simp only [e1, e5, Bool.false_eq_true, if_false, e3, h3, e4, h4]

end Sys2Proof.Machine
end

