-- ==== Sys2Proof/Laws/Locks.lean ====
section
/-! SUPPORT. Lemmas on sequence locks and scrubbing. -/

set_option maxHeartbeats 1000000

namespace Sys2Proof.Machine

theorem raiseInt_free (src payload : Nat) (s : State) (h : s.latchOf src = none) (hs : s.time.sleep = .awake) :
    raiseInt src payload s = s.setLatch src (some ⟨s.time.now, BitVec.ofNat 16 payload, 7, s.epoch.num, true, false⟩) := by
  unfold raiseInt
  rw [h]
  simp [hs]

theorem raiseInt_latch (src payload : Nat) (s : State) (hs : s.time.sleep = .awake) : ((raiseInt src payload s).latchOf src).isSome = true := by
  unfold raiseInt
  simp only [hs, bne_self_eq_false, Bool.false_eq_true, ↓reduceIte]
  cases h : s.latchOf src with
  | some l => dsimp only; rw [(countRefusal_keeps ..).latchOf_eq, h]; rfl
  | none => dsimp only; rw [State.latchOf_setLatch]; rfl

theorem lockBreak_does (i c : Nat) (s : State) (h : (s.lockOf i).held = true) (hs : s.time.sleep = .awake) :
    (lockBreak i c s).lockOf i = { s.lockOf i with held := false, set := [], ovf := false, broken := true, bcause := BitVec.ofNat 2 c } ∧
      (∀ j, j ≠ i → (lockBreak i c s).lockOf j = s.lockOf j) ∧ ((lockBreak i c s).latchOf 5127).isSome = true ∧
      (s.latchOf 5127 = none → (lockBreak i c s).latchOf 5127 = some ⟨s.time.now, BitVec.ofNat 16 (i + 64 * c + 256 * (s.lockOf i).owner.toNat), 7, s.epoch.num, true, false⟩) := by
  unfold lockBreak lockFree
  dsimp only
  rw [h, if_neg (by decide)]
  refine ⟨?_, fun j hj => ?_, raiseInt_latch _ _ _ (by exact hs), fun hl => ?_⟩
  · rw [(raiseInt_keeps ..).lockOf_eq, State.lockOf_setLock, State.lockOf_setLock]
  · rw [(raiseInt_keeps ..).lockOf_eq, State.lockOf_setLock_ne _ _ hj, State.lockOf_setLock_ne _ _ hj]
  · rw [raiseInt_free _ _ _ (by exact hl) (by exact hs), State.latchOf_setLatch]
    rfl

/-- What the passes of the scrubber count changes nothing else. -/
theorem passes_does (c : Prop) [Decidable c] (u : State) :
    (∀ f : Fld, f.key ≠ Reg.FIRN_SCRUB_PASSES.key → (if c then u.inc Reg.FIRN_SCRUB_PASSES else u).rd f = u.rd f) ∧
      Keeps [.regs] u (if c then u.inc Reg.FIRN_SCRUB_PASSES else u) := by
  split_ifs
  · exact ⟨fun f hf => State.rd_wr_ne _ _ hf, State.inc_keeps ..⟩
  · exact ⟨fun _ _ => rfl, Keeps.refl⟩

/-- The registers of an error that the scrubber shows. -/
theorem errRegs_does (cnt : Fld) (i ue : Nat) (s : State) (h1 : cnt.key ≠ Reg.FIRN_ERRADDR_RECORD.key) (h2 : cnt.key ≠ Reg.FIRN_ERRADDR_UE.key)
    (h3 : cnt.key ≠ Reg.FIRN_ERRADDR_VALID.key) :
    let u := (((s.inc cnt).wr Reg.FIRN_ERRADDR_RECORD i).wr Reg.FIRN_ERRADDR_UE ue).raise Reg.FIRN_ERRADDR_VALID
    u.rd Reg.FIRN_ERRADDR_RECORD = i % 2 ^ 14 ∧ u.rd Reg.FIRN_ERRADDR_UE = ue % 2 ∧ u.rd Reg.FIRN_ERRADDR_VALID = 1 ∧
      u.rd cnt = min (2 ^ cnt.w - 1) (s.rd cnt + 1) % 2 ^ cnt.w ∧ Keeps [.regs] s u := by
  dsimp only
  unfold State.raise
  refine ⟨?_, ?_, ?_, ?_, ?_⟩
  · rw [State.rd_wr_ne _ _ (by decide), State.rd_wr_ne _ _ (by decide), State.rd_wr_same]; rfl
  · rw [State.rd_wr_ne _ _ (by decide), State.rd_wr_same]; rfl
  · rw [State.rd_wr_same]; rfl
  · rw [State.rd_wr_ne _ _ h3, State.rd_wr_ne _ _ h2, State.rd_wr_ne _ _ h1]
    exact State.rd_wr_same ..
  · exact Keeps.step (State.wr_keeps ..) (by decide) (Keeps.step (State.wr_keeps ..) (by decide) (Keeps.step (State.wr_keeps ..) (by decide) (State.inc_keeps ..)))

/-- A reported error of a record: what is counted, shown and raised. -/
theorem scrubErr_does (c : Prop) [Decidable c] (cnt : Fld) (i ue src payload : Nat) (s t : State) (h1 : cnt.key ≠ Reg.FIRN_ERRADDR_RECORD.key) (h2 : cnt.key ≠ Reg.FIRN_ERRADDR_UE.key)
    (h3 : cnt.key ≠ Reg.FIRN_ERRADDR_VALID.key) (h4 : cnt.key ≠ Reg.FIRN_SCRUB_PASSES.key) (g : State → State) (hg : ∀ u, Keeps [.firn] u (g u)) (hl : s.latchOf src = none)
    (hs : s.time.sleep = .awake)
    (ht : (if c then (raiseInt src payload (g ((((s.inc cnt).wr Reg.FIRN_ERRADDR_RECORD i).wr Reg.FIRN_ERRADDR_UE ue).raise Reg.FIRN_ERRADDR_VALID))).inc Reg.FIRN_SCRUB_PASSES
      else raiseInt src payload (g ((((s.inc cnt).wr Reg.FIRN_ERRADDR_RECORD i).wr Reg.FIRN_ERRADDR_UE ue).raise Reg.FIRN_ERRADDR_VALID))) = t) :
    t.rd Reg.FIRN_ERRADDR_RECORD = i % 2 ^ 14 ∧ t.rd Reg.FIRN_ERRADDR_UE = ue % 2 ∧ t.rd Reg.FIRN_ERRADDR_VALID = 1 ∧
      t.rd cnt = min (2 ^ cnt.w - 1) (s.rd cnt + 1) ∧ t.latchOf src = some ⟨s.time.now, BitVec.ofNat 16 payload, 7, s.epoch.num, true, false⟩ ∧
      (∃ u, Keeps [.regs] s u ∧ t.firn = (g u).firn) ∧
      Keeps [.regs, .src, .firn] s t := by
  obtain ⟨r1, r2, r3, r4, r5⟩ := errRegs_does cnt i ue s h1 h2 h3
  revert ht r1 r2 r3 r4 r5
  generalize (((s.inc cnt).wr Reg.FIRN_ERRADDR_RECORD i).wr Reg.FIRN_ERRADDR_UE ue).raise Reg.FIRN_ERRADDR_VALID = u
  intro ht r1 r2 r3 r4 r5
  have kg := hg u
  obtain ⟨v, ev⟩ : ∃ v, g u = v := ⟨_, rfl⟩
  rw [ev] at ht kg
  have hv : v.latchOf src = none := by rw [kg.latchOf_eq, r5.latchOf_eq]; exact hl
  have hw : v.time.sleep = .awake := by rw [kg.same .time (by decide), r5.same .time (by decide)]; exact hs
  rw [raiseInt_free _ _ _ hv hw] at ht
  obtain ⟨q1, q2⟩ := passes_does c (v.setLatch src (some ⟨v.time.now, BitVec.ofNat 16 payload, 7, v.epoch.num, true, false⟩))
  rw [ht] at q1 q2
  have hrd (f : Fld) (hf : f.key ≠ Reg.FIRN_SCRUB_PASSES.key) : t.rd f = u.rd f := by
    rw [q1 f hf, (State.setLatch_keeps ..).rd_eq, kg.rd_eq]
  have kk : Keeps [.regs, .src] v t := Keeps.step q2 (by decide) (Keeps.mono (State.setLatch_keeps ..) (by decide))
  refine ⟨(hrd _ (by decide)).trans r1, (hrd _ (by decide)).trans r2, (hrd _ (by decide)).trans r3, (hrd _ h4).trans (r4.trans ?_), ?_,
    ⟨u, r5, (kk.same .firn (by decide)).trans (by rw [ev])⟩, Keeps.step kk (by decide) (Keeps.step kg (by decide) (Keeps.mono r5 (by decide)))⟩
  · apply Nat.mod_eq_of_lt
    have : 0 < 2 ^ cnt.w := Nat.two_pow_pos _
    omega
  · rw [q2.latchOf_eq, State.latchOf_setLatch, kg.same .time (by decide), kg.same .epoch (by decide), r5.same .time (by decide), r5.same .epoch (by decide)]

end Sys2Proof.Machine
end

