-- ==== Sys2Proof/Laws/BarrierSides.lean ====
section
/-! SUPPORT. Lemmas on the sides of the barrier. -/

set_option maxHeartbeats 1000000

namespace Sys2Proof.Machine

theorem inc_ctlKeep (s : State) (f : Fld) (n : Nat) : (s.inc f n).latchOf = s.latchOf := rfl

/-- A side of the barrier in DOWN. -/
def barShut (cause : Nat) (b : BarS) : BarS := { b with st := .down, stuck := b.stuck || cause == 5, urgent := [], ctl := [] }

theorem tryHello_eq (d : Side) (cause : Nat) (b : BarS) (s u : State) (hb : barOf d u = { barShut cause b with run := (barOf d u).run })
    (hp : u.pins = s.pins) (hr : u.flag Reg.BAR_CTRL_EN = s.flag Reg.BAR_CTRL_EN) :
    tryHello d u = setBar d { barLeft d cause b s with run := (barOf d u).run } u := by
  have h0 : u.isDie0 = s.isDie0 := by unfold State.isDie0; rw [hp]
  obtain ⟨q, hq⟩ : ∃ q, q = (barOf d u).run := ⟨_, rfl⟩
  rw [← hq] at hb ⊢
  have hs : setBar d { barShut cause b with run := q } u = u := by rw [← hb]; cases d <;> rfl
  unfold tryHello barLeft hellos
  rw [hb]
  cases d
  · dsimp only [barShut]
    rw [h0, hr]
    cases hl : (b.locked == 15#4) <;> cases he : (s.isDie0 && s.flag Reg.BAR_CTRL_EN)
    all_goals simp only [beq_self_eq_true, Bool.and_false, Bool.false_and, Bool.and_true, Bool.true_and, Bool.and_self, Bool.false_eq_true, ↓reduceIte]
    all_goals first | exact hs.symm | rfl
  · dsimp only [barShut]
    cases hl : (b.locked == 15#4)
    all_goals simp only [beq_self_eq_true, Bool.and_false, Bool.false_and, Bool.and_true, Bool.true_and, Bool.and_self, Bool.false_eq_true, ↓reduceIte]
    all_goals first | exact hs.symm | rfl

theorem fieldDown_fell (cause : Nat) (b : BarS) (s u : State) (hc : cause < 8) (hu : u = { s with bar := b }) :
    barFell .field cause b s (tryHello .field (fieldDown cause u)) := by
  obtain ⟨v, hv⟩ : ∃ v : State, v = ((({ u with bar := { u.bar with st := .down, stuck := u.bar.stuck || cause == 5, urgent := [], ctl := [], run := false }, hostq := { u.hostq with credit := [], stops := [] }, time := { u.time with barT1 := none } } : State).wr Reg.BAR_STAT_CAUSE cause).inc Reg.BAR_ERR_DOWNS) := ⟨_, rfl⟩
  have h : fieldDown cause u = raiseInt 5147 (cause + 2 ^ 8 * (match u.bar.peerGen with | some g => g.toNat | none => 0)) v := by
    rw [hv]; rfl
  have kr := raiseInt_keeps 5147 (cause + 2 ^ 8 * (match u.bar.peerGen with | some g => g.toNat | none => 0)) v
  rw [← h] at kr
  have kv : Keeps [.regs, .bar, .hostq, .time] s v := by
    rw [hv, hu]; exact ⟨fun p hp => by cases p <;> first | rfl | simp at hp⟩
  have hb : v.bar = { barShut cause b with run := false } := by rw [hv, hu]; rfl
  have hq : v.hostq = { s.hostq with credit := [], stops := [] } := by rw [hv, hu]; rfl
  have hm : v.time = { s.time with barT1 := none } := by rw [hv, hu]; rfl
  have hr : v.rd Reg.BAR_STAT_CAUSE = cause := by
    rw [hv]
    unfold State.inc
    rw [State.rd_wr_ne _ _ (by decide), State.rd_wr_same]
    exact Nat.mod_eq_of_lt hc
  have hx : (fieldDown cause u).bar = { barShut cause b with run := false } := (kr.same .bar (by decide)).trans hb
  have he : (fieldDown cause u).flag Reg.BAR_CTRL_EN = s.flag Reg.BAR_CTRL_EN := by
    unfold State.flag
    rw [h, raiseInt_rd _ _ _ _ (by decide) (by decide), hv, inc_rd_ne _ _ (by decide),
      State.rd_wr_ne _ _ (by decide), hu]
    rfl
  have hp : (fieldDown cause u).pins = s.pins := (kr.same .pins (by decide)).trans (kv.same .pins (by decide))
  have hr0 : (barOf .field (fieldDown cause u)).run = false := congrArg BarS.run hx
  rw [tryHello_eq .field cause b s (fieldDown cause u) (by rw [hr0]; exact hx) hp he, hr0]
  refine ⟨rfl, ?_, ?_, ?_, ?_, fun hl hw => ?_, ?_⟩
  · exact (congrArg HostQ.credit (kr.same .hostq (by decide))).trans (by rw [hq])
  · exact (congrArg HostQ.stops (kr.same .hostq (by decide))).trans (by rw [hq])
  · exact (congrArg HostQ.unrep (kr.same .hostq (by decide))).trans (by rw [hq])
  · exact (congrArg TimeS.barT1 (kr.same .time (by decide))).trans (by rw [hm])
  · have hf := raiseInt_free 5147 (cause + 2 ^ 8 * (match u.bar.peerGen with | some g => g.toNat | none => 0)) v ((kv.latchOf_eq _).trans hl) (by rw [hm]; exact hw)
    refine ⟨?_, ?_⟩
    · refine Eq.trans (b := (fieldDown cause u).rd Reg.BAR_STAT_CAUSE) rfl ?_
      rw [h, hf]
      exact hr
    · refine Eq.trans (b := (fieldDown cause u).latchOf 5147) rfl ?_
      rw [h, hf]
      refine (State.latchOf_setLatch ..).trans ?_
      have e1 : u.bar = b := by rw [hu]
      rw [e1, kv.same .epoch (by decide), hm] <;> rfl
  · have k1 : Keeps [.out, .regs, .time, .src, .bar, .hostq, .trc] s (fieldDown cause u) :=
      Keeps.step (w1 := [.regs, .src, .trc]) kr (by decide) (Keeps.mono kv (by decide))
    exact Keeps.bar (by decide) k1

theorem gateEvt_keeps' (f : Fld) (s : State) : Keeps [.regs, .gate] s (gateEvt f s) ∧ (gateEvt f s).gate.bar = s.gate.bar ∧
    (gateEvt f s).gate.writtenTags = s.gate.writtenTags ∧ (gateEvt f s).gate.discTags = s.gate.discTags ∧ (gateEvt f s).gate.restop = s.gate.restop ∧
    (gateEvt f s).gate.everUp = s.gate.everUp ∧ (gateEvt f s).gate.slew = s.gate.slew := by
  unfold gateEvt
  dsimp only
  split <;> exact ⟨⟨fun p hp => by cases p <;> first | rfl | simp at hp⟩, rfl, rfl, rfl, rfl, rfl, rfl⟩

theorem gateEvt_rd_ne (f : Fld) (s : State) {g : Fld} (h : g.key ≠ f.key) : (gateEvt f s).rd g = s.rd g := by
  have : (s.raise f).rd g = s.rd g := State.rd_wr_ne _ _ h
  unfold gateEvt
  dsimp only
  split <;> exact this

theorem gateEvt_rd (f : Fld) (s : State) (h : 0 < f.w) : (gateEvt f s).rd f = 1 := by
  have : (s.raise f).rd f = 1 := by
    unfold State.raise
    rw [State.rd_wr_same, Nat.mod_eq_of_lt]
    exact Nat.one_lt_two_pow (by omega)
  unfold gateEvt
  dsimp only
  split
  · exact this
  · exact this

theorem hostDown_fell (cause : Nat) (b : BarS) (s u : State) (hu : u = { s with gate := { s.gate with bar := b } }) :
    barFell .host cause b s (tryHello .host (hostDown (cause == 5) u)) := by
  obtain ⟨v, hv⟩ : ∃ v : State, v = { u with gate := { u.gate with bar := barShut cause u.gate.bar, writtenTags := [], discTags := [], restop := true, slew := 0 } } := ⟨_, rfl⟩
  have h : hostDown (cause == 5) u = gateEvt Reg.GATE_EVT_BAR v := by rw [hv]; rfl
  obtain ⟨k, g1, g2, g3, g4, -, g5⟩ := gateEvt_keeps' Reg.GATE_EVT_BAR v
  have kv : Keeps [.gate] s v := by rw [hv, hu]; exact ⟨fun p hp => by cases p <;> first | rfl | simp at hp⟩
  have hb : (hostDown (cause == 5) u).gate.bar = barShut cause b := by rw [h]; exact g1.trans (by rw [hv, hu])
  have hp : (hostDown (cause == 5) u).pins = s.pins := by rw [h]; exact (k.same .pins (by decide)).trans (kv.same .pins (by decide))
  have he : (hostDown (cause == 5) u).flag Reg.BAR_CTRL_EN = s.flag Reg.BAR_CTRL_EN := by
    rw [h]; unfold State.flag; rw [gateEvt_rd_ne _ _ (by decide), hv, hu]; rfl
  have hr : (barOf .host (hostDown (cause == 5) u)).run = b.run := by
    show (hostDown (cause == 5) u).gate.bar.run = b.run
    rw [hb]; rfl
  rw [tryHello_eq .host cause b s (hostDown (cause == 5) u) (by rw [hr]; exact hb) hp he, hr]
  refine ⟨rfl, ?_, ?_, ?_, ?_, ?_, ?_⟩
  · exact Eq.trans (b := (hostDown (cause == 5) u).gate.writtenTags) rfl (by rw [h]; exact g2.trans (by rw [hv]))
  · exact Eq.trans (b := (hostDown (cause == 5) u).gate.discTags) rfl (by rw [h]; exact g3.trans (by rw [hv]))
  · exact Eq.trans (b := (hostDown (cause == 5) u).gate.restop) rfl (by rw [h]; exact g4.trans (by rw [hv]))
  · exact Eq.trans (b := (hostDown (cause == 5) u).gate.slew) rfl (by rw [h]; exact g5.trans (by rw [hv]))
  · exact Eq.trans (b := (hostDown (cause == 5) u).rd Reg.GATE_EVT_BAR) rfl (by rw [h]; exact gateEvt_rd _ _ (by decide))
  · have k1 : Keeps [.out, .regs, .gate] s (hostDown (cause == 5) u) := by rw [h]; exact Keeps.step k (by decide) (Keeps.mono kv (by decide))
    exact Keeps.gate (by decide) k1

theorem barDown_fell (d : Side) (cause : Nat) (b : BarS) (s : State) (hc : cause < 8) (hb : b.st = .up) :
    barFell d cause b s (barDown d cause (setBar d b s)) := by
  unfold barDown
  cases d
  · rw [if_neg (by show ¬(b.st != .up) = true; rw [hb]; decide)]
    exact fieldDown_fell cause b s _ hc rfl
  · rw [if_neg (by show ¬(b.st != .up) = true; rw [hb]; decide)]
    exact hostDown_fell cause b s _ rfl

theorem barDown_idle (d : Side) (cause : Nat) (s : State) (h : (barOf d s).st ≠ .up) : barDown d cause s = s := by
  unfold barDown
  rw [if_pos (by simpa using h)]

theorem setBar_self (d : Side) (s : State) : setBar d (barOf d s) s = s := by cases d <;> rfl

/-- What fell in the bare state fell in the state. -/
theorem barFell_bare (d : Side) (cause : Nat) (b : BarS) (s t : State) (h : barFell d cause b s.bare t) : barFell d cause b s { t with pending := s.pending } := by
  cases d
  · obtain ⟨h1, h2, h3, h4, h5, h6, h7⟩ := h
    exact ⟨h1, h2, h3, h4, h5, h6, (Keeps.bare (w := [.out, .regs, .time, .src, .bar, .hostq, .trc]) (w' := [.regs, .time, .src, .bar, .hostq, .trc]) h7 (by decide))⟩
  · obtain ⟨h1, h2, h3, h4, h4', h5, h6⟩ := h
    exact ⟨h1, h2, h3, h4, h4', h5, (Keeps.bare (w := [.out, .regs, .gate]) (w' := [.regs, .gate]) h6 (by decide))⟩


/-- What a frame that becomes ready leaves of a side. -/
def barCore (s : State) : (BarState × Nat × Option (BitVec 8)) × (BarState × Nat × Option (BitVec 8)) × Bool × Bool × Bool :=
  ((s.bar.st, s.bar.credit, s.bar.peerGen), (s.gate.bar.st, s.gate.bar.credit, s.gate.bar.peerGen), s.gate.everUp, s.bar.run, s.bar.owe)

theorem barQueue_core (d : Side) (typ : BitVec 8) (p : BitVec 128) (s : State) : barCore (barQueue d typ p s) = barCore s := by
  unfold barQueue
  dsimp only
  cases d <;> (repeat' split) <;> rfl

theorem grantCredit_core (l : List Nat) (s : State) : barCore (grantCredit l s) = barCore s := by
  unfold grantCredit
  split
  · rfl
  · dsimp only
    refine (State.each_inv (f := _) barCore _ (fun x u => ?_) _).trans ?_
    · exact barQueue_core ..
    · refine State.each_inv (f := _) barCore _ (fun x u => ?_) _
      rfl

theorem sendGateState_core (s : State) : barCore (sendGateState s) = barCore s := by
  unfold sendGateState
  dsimp only
  split
  · refine (State.each_inv (f := _) barCore _ (fun x u => ?_) _).trans ?_
    · exact barQueue_core ..
    · exact barQueue_core .host _ _ s
  · exact barQueue_core ..

theorem sendFieldState_core (s : State) : barCore (sendFieldState s) = barCore s := by
  unfold sendFieldState
  split
  · rfl
  · exact barQueue_core ..

theorem gateEvt_core (f : Fld) (s : State) : barCore (gateEvt f s) = barCore s := by
  unfold gateEvt
  dsimp only
  split <;> rfl


theorem tryHello_not (d : Side) (s : State) (h : (barOf d s).locked ≠ 0xF) : tryHello d s = s := by
  unfold tryHello
  dsimp only
  rw [if_neg]
  cases d <;> simp_all

theorem barFell_wr (d : Side) (cause : Nat) (b : BarS) (f : Fld) (n : Nat) (s t : State) (hf : Reg.BAR_CTRL_EN.key ≠ f.key) (h : barFell d cause b (s.wr f n) t) : barFell d cause b s t := by
  have kw := State.wr_keeps s f n
  have hl : barLeft d cause b (s.wr f n) = barLeft d cause b s := by
    unfold barLeft hellos State.flag
    rw [State.rd_wr_ne _ _ hf]
    cases d <;> rfl
  cases d
  · obtain ⟨h1, h2, h3, h4, h5, h6, h7⟩ := h
    exact ⟨by rw [← hl]; exact h1, h2, h3, h4, h5, h6, Keeps.step h7 (by decide) (Keeps.mono kw (by decide))⟩
  · obtain ⟨h1, h2, h3, h4, h4', h5, h6⟩ := h
    exact ⟨by rw [← hl]; exact h1, h2, h3, h4, h4', h5, Keeps.step h6 (by decide) (Keeps.mono kw (by decide))⟩

theorem drain_none (d : Side) (s : State) (h : (barOf d s).rxUsed = 0) : drainEntries d s = s := by
  unfold drainEntries
  dsimp only
  rw [if_pos (by simp [h])]

theorem barOf_setBar (d : Side) (b : BarS) (s : State) : barOf d (setBar d b s) = b := by cases d <;> rfl

theorem sendBar_eq (d : Side) (typ : BitVec 8) (p : BitVec 128) (s : State) :
    sendBar d typ p s = setBar d (barSent typ p (barOf d s)) { s with out := s.out ++ [.bar d (barBlocks (barOf d s).scr (some (barFrame typ p)))] } := by cases d <;> rfl

theorem setBar_setBar (d : Side) (b c : BarS) (s : State) : setBar d c (setBar d b s) = setBar d c s := by cases d <;> rfl

theorem flushReports_none (s : State) (h : s.gate.writtenTags = []) (h1 : s.gate.discTags = []) : flushReports s = s := by
  unfold flushReports
  dsimp only
  rw [h, h1]
  show { s with gate := { s.gate with writtenTags := [], discTags := [] } } = s
  have : ({ s.gate with writtenTags := [], discTags := [] } : GateS) = s.gate := by
    conv => rhs; rw [show s.gate = { s.gate with writtenTags := s.gate.writtenTags, discTags := s.gate.discTags } from rfl, h, h1]
  rw [this]


/-- The first frame of a list leaves, and the rest stays. -/
def slotUrgent (d : Side) (t : BitVec 8) (p : BitVec 128) (rest : List (BitVec 8 × BitVec 128)) (s : State) : State :=
  sendBar d t p (setBar d { barOf d s with urgent := rest } s)
def slotCtl (d : Side) (t : BitVec 8) (p : BitVec 128) (rest : List (BitVec 8 × BitVec 128)) (s : State) : State :=
  sendBar d t p (setBar d { barOf d s with ctl := rest } s)

/-- With no control frame ready, field die 0 sends its next EVENT. -/
def slotRest (d : Side) (s : State) : State :=
  match d with
  | .field => match nextSlice s with
    | some x => sendEvent x s
    | none => sendIdle .field s
  | .host => sendIdle .host s

/-- A side's transmit slot once its reports have become frames. -/
def slotBody (d : Side) (s : State) : State :=
  match (barOf d s).st, (barOf d s).urgent, (barOf d s).ctl with
  | .down, _, _ => sendIdle d s
  | _, (t, p) :: rest, _ => slotUrgent d t p rest s
  | .hello, _, _ => sendIdle d s
  | .up, [], ctl =>
    if d == .field && barSyncDue s then
      sendBar .field 0x0A 0 { s with time := { s.time with barT1 := some (s.time.now &&& ~~~1), lastBar := s.time.now } }
    else if (barOf d s).credit = 0 then sendIdle d s
    else match ctl with
      | (t, p) :: rest => slotCtl d t p rest s
      | [] => slotRest d s

theorem transmit_eq (d : Side) (s : State) (h : d = .host → s.gate.writtenTags = [] ∧ s.gate.discTags = []) :
    exec (.barTransmitSlot d) s = run (slotBody d) s := by
  show execBarTransmitSlot d s = _
  unfold execBarTransmitSlot run
  refine congrArg Host.Outcome.next (effect_congr ?_)
  cases d with
  | field => rfl
  | host =>
    dsimp only
    rw [flushReports_none s.bare (h rfl).1 (h rfl).2]
    rfl

theorem slotBody_urgent (d : Side) (typ : BitVec 8) (p : BitVec 128) (l : List (BitVec 8 × BitVec 128)) (s : State) (h : (barOf d s).st ≠ .down)
    (h1 : (barOf d s).urgent = (typ, p) :: l) : slotBody d s = sendBar d typ p (setBar d { barOf d s with urgent := l } s) := by
  unfold slotBody
  rw [h1]
  cases h2 : (barOf d s).st with
  | down => exact absurd h2 h
  | hello => rfl
  | up => rfl

theorem slotBody_sync (s : State) (h : s.bar.st = .up) (h1 : s.bar.urgent = []) (h2 : barSyncDue s = true) :
    slotBody .field s = sendBar .field 0x0A 0 { s with time := { s.time with barT1 := some (s.time.now &&& ~~~1), lastBar := s.time.now } } := by
  unfold slotBody
  rw [show (barOf .field s).st = .up from h, show (barOf .field s).urgent = [] from h1]
  exact if_pos (by rw [h2]; rfl)

theorem slotBody_up (d : Side) (s : State) (h : (barOf d s).st = .up) (h1 : (barOf d s).urgent = []) (h2 : d = .field → barSyncDue s = false) :
    slotBody d s = if (barOf d s).credit = 0 then sendIdle d s
      else match (barOf d s).ctl with
        | (t, p) :: rest => slotCtl d t p rest s
        | [] => slotRest d s := by
  unfold slotBody
  rw [h, h1]
  refine if_neg ?_
  cases d
  · rw [h2 rfl]; decide
  · exact Bool.false_ne_true

theorem slotBody_wait (d : Side) (s : State) (h : (barOf d s).st = .up) (h1 : (barOf d s).urgent = []) (h2 : d = .field → barSyncDue s = false)
    (h3 : (barOf d s).credit = 0) : slotBody d s = sendIdle d s := by
  rw [slotBody_up d s h h1 h2, if_pos h3]

theorem slotBody_ctl (d : Side) (typ : BitVec 8) (p : BitVec 128) (l : List (BitVec 8 × BitVec 128)) (s : State) (h : (barOf d s).st = .up)
    (h1 : (barOf d s).urgent = []) (h2 : d = .field → barSyncDue s = false) (h3 : (barOf d s).credit ≠ 0) (h4 : (barOf d s).ctl = (typ, p) :: l) :
    slotBody d s = sendBar d typ p (setBar d { barOf d s with ctl := l } s) := by
  rw [slotBody_up d s h h1 h2, if_neg h3, h4]
  rfl

theorem slotBody_event (x : Nat × Nat × Cls) (s : State) (h : s.bar.st = .up) (h1 : s.bar.urgent = []) (h2 : barSyncDue s = false)
    (h3 : s.bar.credit ≠ 0) (h4 : s.bar.ctl = []) (h5 : nextSlice s = some x) : slotBody .field s = sendEvent x s := by
  rw [slotBody_up .field s h h1 (fun _ => h2), if_neg (by exact h3), show (barOf .field s).ctl = [] from h4]
  unfold slotRest
  rw [h5]

end Sys2Proof.Machine
end

