-- ==== Sys2Proof/Laws/CampionRegs.lean ====
section
/-! SUPPORT. Lemmas on Campion instructions that work on registers. -/

set_option maxHeartbeats 1000000

namespace Sys2Proof.Machine

theorem instruct_does {s : State} {n : Nat} {r : Run} {op : COp} {f : Run → COp → Option (State → State)} {g : State → State}
    (h : fetches s n r op) (hf : f r op = some g) : instruct n f s.bare = g s.bare := by
  obtain ⟨h1, w, h2, h3⟩ := h
  unfold instruct
  simp only [bare_running, h1, h2, h3, hf]

theorem instruct_run {s : State} {n : Nat} {r r' : Run} {op : COp} {f : Run → COp → Option (State → State)}
    (hc : clocked s = true) (h : fetches s n r op) (hf : f r op = some (setRun n r')) :
    runClk (fun s => instruct n f s) s = .next (withRun s n r') :=
  runClk_eq hc ((instruct_does h hf).trans rfl)

theorem failCampion_does {s : State} {n cause : Nat} (h : (s.campOf n).failed = none) (hr : ((s.campOf n).run).isSome = true) :
    ((failCampion n cause s).campOf n).failed = some (BitVec.ofNat 2 cause) ∧ ((failCampion n cause s).campOf n).run = none := by
  unfold failCampion
  rw [h, if_neg (by decide)]
  dsimp only
  have k (u : State) := raiseInt_keeps (5136 + n / 16) (n + 64 * cause) u
  rw [(k _).campOf_eq, State.campOf_setCamp]
  refine ⟨rfl, ?_⟩
  unfold returnRun
  cases hq : (s.campOf n).run with
  | none => rw [hq] at hr; cases hr
  | some r =>
    simp only [State.campOf_setCamp]
    unfold discardRun
    dsimp only
    rw [hq]
    dsimp only
    rw [(trace_keeps ..).campOf_eq]
    show (State.campOf (State.setCamp _ n _) n).run = none
    rw [State.campOf_setCamp]

theorem instruct_fails {s : State} {n : Nat} {r : Run} {op : COp} {f : Run → COp → Option (State → State)} {cause : Nat} {P : State → Prop}
    (hc : clocked s = true) (h : fetches s n r op) (hf : f r op = some (failCampion n cause))
    (hp : ∀ t, runClk (fun s => instruct n f s) s = .next t → P t) :
    ∃ t, runClk (fun s => instruct n f s) s = .next t ∧ (t.campOf n).failed = some (BitVec.ofNat 2 cause) ∧ (t.campOf n).run = none ∧ P t := by
  refine next_clk hc fun t ht e => ?_
  rw [instruct_does h hf] at ht
  subst ht
  have h1 := h.1
  unfold running at h1
  have hr : (s.campOf n).failed = none ∧ ((s.campOf n).run).isSome = true := by
    split at h1
    · split at h1
      · simp_all
      · cases h1
    · cases h1
  obtain ⟨a, b⟩ := failCampion_does (s := s.bare) (cause := cause) (by simpa using hr.1) (by simpa using hr.2)
  exact ⟨a, b, hp _ e⟩

end Sys2Proof.Machine
end

