-- ==== Sys2Proof/Laws/CampionPorts.lean ====
section
/-! SUPPORT. Lemmas on Campion instructions that reach the ports. -/

set_option maxHeartbeats 1000000

namespace Sys2Proof.Machine

theorem driveBurst_out (r : Nat) (l : List (BitVec 16 × Word)) (errs : List Bool) (s : State) :
    (driveBurst r l errs s).out = s.out ++ (l.dropLast.map (fun e => PortOut.act r e.1 e.2 true false false false false)
        ++ l.getLast?.toList.map (fun e => PortOut.act r e.1 e.2 true false false true false)) := by
  induction l generalizing errs s with
  | nil => simp [driveBurst]
  | cons x l ih =>
    obtain ⟨a, v⟩ := x
    unfold driveBurst
    dsimp only
    rw [ih]
    have ho : (if errs.headD false = true then (s.emit (.act r a v true false false l.isEmpty false)).inc (Reg.CAMP_RERR_ABERR r) else s.emit (.act r a v true false false l.isEmpty false)).out = s.out ++ [.act r a v true false false l.isEmpty false] := by
      split <;> rfl
    rw [ho]
    cases l with
    | nil => simp
    | cons y l => simp [List.dropLast, List.getLast?_cons_cons]

theorem portWrites (n : Nat) (irq : Bool) (l : List (BitVec 12 × BitVec 16)) (s : State) :
    (s.each l fun x s => portWrite (.campion (Fin.ofNat 64 n) irq) x.1 x.2 s).acc.writes = s.acc.writes ++ l.map (fun x =>
      (⟨.campion (Fin.ofNat 64 n) irq, x.1, x.2, if s.su.open_ && !thawDue s then some s.time.now else none, s.epoch.num⟩ : WriteReq)) ∧
    Keeps [.acc] s (s.each l fun x s => portWrite (.campion (Fin.ofNat 64 n) irq) x.1 x.2 s) := by
  refine ⟨?_, Keeps.each (fun _ _ => portWrite_keeps ..) Keeps.refl⟩
  unfold State.each
  induction l generalizing s with
  | nil => simp
  | cons x l ih =>
    rw [List.foldl_cons, ih]
    simp only [portWrite, List.append_assoc, List.map_cons, List.singleton_append]
    rfl

/-- A reflex that commits leaves the time of the next thaw. -/
theorem doneTrace_thawDue (n : Nat) (m : Msg) (s : State) : thawDue (trace 9 0 m (s.inc (Reg.CAMP_DONE n))) = thawDue s := by
  have k : Keeps [.regs, .trc] s (trace 9 0 m (s.inc (Reg.CAMP_DONE n))) := Keeps.step (trace_keeps ..) (by decide) (Keeps.mono (State.inc_keeps ..) (by decide))
  have hr : (trace 9 0 m (s.inc (Reg.CAMP_DONE n))).rd Reg.EPOCH_PERIOD_PERIOD = s.rd Reg.EPOCH_PERIOD_PERIOD :=
    (trace_rd 9 0 m _ _ (by decide) (by decide)).trans (inc_rd_ne _ _ (by simp only [Fld.key, Reg.EPOCH_PERIOD_PERIOD, Reg.CAMP_DONE]; omega))
  unfold thawDue nextThaw periodInForce clocked State.t
  rw [hr, k.same .su (by decide), k.same .time (by decide), k.same .epoch (by decide)]

theorem commitReflex_does (n : Nat) (m : Msg) (irqs) (s : State) :
    (commitReflex n m irqs s).acc.writes = s.acc.writes ++ irqs.map (fun x =>
      (⟨.campion (Fin.ofNat 64 n) true, x.1, x.2, if s.su.open_ && !thawDue s then some s.time.now else none, s.epoch.num⟩ : WriteReq)) ∧
    (commitReflex n m irqs s).firn.dones = s.firn.dones ++ (if m.isGF && m.isEvent then [m] else []) := by
  have k1 : Keeps [.regs, .trc] s (trace 9 0 m (s.inc (Reg.CAMP_DONE n))) := Keeps.step (trace_keeps ..) (by decide) (Keeps.mono (State.inc_keeps ..) (by decide))
  obtain ⟨h1, h2⟩ := portWrites n true irqs (trace 9 0 m (s.inc (Reg.CAMP_DONE n)))
  unfold commitReflex
  dsimp only
  constructor
  · have hd : thawDue (trace 9 0 m (s.inc (Reg.CAMP_DONE n))) = thawDue s := doneTrace_thawDue ..
    rw [(sendDone_keeps ..).same .acc (by decide), h1, hd, k1.same .acc (by decide), k1.same .su (by decide), k1.same .time (by decide), k1.same .epoch (by decide)]
  · unfold sendDone
    have hf := (h2.same .firn (by decide)).trans (k1.same .firn (by decide))
    split
    · exact congrArg (· ++ [m]) (congrArg FirnS.dones hf)
    · simp only [List.append_nil]
      exact congrArg FirnS.dones hf

theorem discardRun_camp {s : State} {n : Nat} {r : Run} (h : (s.campOf n).run = some r) :
    (discardRun n s).campOf n = { s.campOf n with run := none, emits := (s.campOf n).emits.map fun e => { e with mine := false } } := by
  unfold discardRun
  dsimp only
  rw [h]
  dsimp only
  rw [(trace_keeps ..).campOf_eq]
  exact State.campOf_setCamp ..

theorem returnRun_camp {s : State} {n : Nat} {r : Run} (h : (s.campOf n).run = some r) :
    ((returnRun n s).campOf n).q = ⟨r.msg, r.runs⟩ :: (s.campOf n).q ∧ ((returnRun n s).campOf n).run = none := by
  unfold returnRun
  rw [h]
  dsimp only
  rw [State.campOf_setCamp, discardRun_camp h]
  exact ⟨rfl, rfl⟩

end Sys2Proof.Machine
end

