-- ==== Sys2Proof/Laws/Edelweiss.lean ====
section
/-! SUPPORT. Lemmas on the Edelweiss partition. -/

set_option Elab.async false

set_option maxHeartbeats 1000000

namespace Sys2Proof.Machine

theorem sealCapture_started (s : State) : sealStarted s.edw s (sealCapture s) ∧ Keeps [.edw] s (sealCapture s) :=
  ⟨⟨_, rfl, rfl, rfl, rfl, rfl, rfl⟩, ⟨fun p hp => by cases p <;> first | rfl | simp at hp⟩⟩

theorem sealTrigger_captures (s : State) (h : s.edw.sealed_ = true) (h1 : s.edw.step = .idle) (h2 : capWithin s Config.sealGap = false) :
    sealTrigger false s = sealCapture s := by
  unfold sealTrigger
  dsimp only
  rw [if_neg (by rw [h]; simp), if_neg (by decide), if_neg (by rw [h1, h2]; decide)]

theorem sealTrigger_held (s : State) (h : s.edw.sealed_ = true) (h1 : capWithin s Config.sealGap = true ∨ s.edw.step ≠ .idle) :
    sealTrigger false s = { s with edw := { s.edw with due := true, held := true } } := by
  unfold sealTrigger
  dsimp only
  rw [if_neg (by rw [h]; simp), if_neg (by decide), if_pos (by rcases h1 with h1 | h1 <;> simp [h1])]

theorem each_emit {α : Type} (f : α → PortOut) (l : List α) (s : State) :
    (State.each s l fun x s => s.emit (f x)) = { s with out := s.out ++ l.map f } := by
  induction l generalizing s with
  | nil => simp [State.each]
  | cons a l ih =>
    show State.each (s.emit (f a)) l _ = _
    rw [ih]
    simp [State.emit]

theorem applyDone_edw (m : Msg) (d : BitVec 12) (die : BitVec 5) (s : State) : (applyDone m d die s).edw = s.edw := (applyDone_keeps ..).same .edw (by decide)

/-- The registers that show a seal, one by one. -/
theorem showSeal_rd (r : SealRec) (s : State) :
    (showSeal r s).rd Reg.EDW_SCNT_LO = bits r.cnt.toNat 0 32 ∧ (showSeal r s).rd Reg.EDW_SCNT_HI = bits r.cnt.toNat 32 32 ∧
      (showSeal r s).rd Reg.EDW_STIME_LO = bits r.time.toNat 0 32 ∧ (showSeal r s).rd Reg.EDW_STIME_HI = bits r.time.toNat 32 32 ∧
      (showSeal r s).edw = { s.edw with cnt := r.cnt } := by
  unfold showSeal
  dsimp only
  obtain ⟨u, hu⟩ : ∃ u, u = (((s.wr Reg.EDW_SCNT_LO (bits r.cnt.toNat 0 32)).wr Reg.EDW_SCNT_HI (bits r.cnt.toNat 32 32)).wr Reg.EDW_STIME_LO (bits r.time.toNat 0 32)).wr
    Reg.EDW_STIME_HI (bits r.time.toNat 32 32) := ⟨_, rfl⟩
  have hb (x l) : bits x l 32 % 2 ^ 32 = bits x l 32 := Nat.mod_eq_of_lt (Nat.mod_lt _ (by decide))
  have u1 : u.rd Reg.EDW_SCNT_LO = bits r.cnt.toNat 0 32 := by
    rw [hu, State.rd_wr_ne _ _ (by decide), State.rd_wr_ne _ _ (by decide), State.rd_wr_ne _ _ (by decide), State.rd_wr_same]; exact hb ..
  have u2 : u.rd Reg.EDW_SCNT_HI = bits r.cnt.toNat 32 32 := by
    rw [hu, State.rd_wr_ne _ _ (by decide), State.rd_wr_ne _ _ (by decide), State.rd_wr_same]; exact hb ..
  have u3 : u.rd Reg.EDW_STIME_LO = bits r.time.toNat 0 32 := by
    rw [hu, State.rd_wr_ne _ _ (by decide), State.rd_wr_same]; exact hb ..
  have u4 : u.rd Reg.EDW_STIME_HI = bits r.time.toNat 32 32 := by rw [hu, State.rd_wr_same]; exact hb ..
  have u5 : u.edw = s.edw := by rw [hu]; rfl
  rw [← hu]
  have hw (f : Fld) (hf : ∀ k, f.key ≠ (Reg.EDW_MAC_MAC k).key) :
      (State.each u (List.range 8) fun k s => s.wr (Reg.EDW_MAC_MAC k) (bits r.mac.toNat (32 * k) 32)).rd f = u.rd f :=
    State.each_inv (fun s => s.rd f) (f := fun k s => s.wr (Reg.EDW_MAC_MAC k) (bits r.mac.toNat (32 * k) 32)) (List.range 8) (fun k v => State.rd_wr_ne _ _ (hf k)) u
  have he : (State.each u (List.range 8) fun k s => s.wr (Reg.EDW_MAC_MAC k) (bits r.mac.toNat (32 * k) 32)).edw = u.edw :=
    State.each_inv (fun s => s.edw) (f := fun k s => s.wr (Reg.EDW_MAC_MAC k) (bits r.mac.toNat (32 * k) 32)) (List.range 8) (fun k v => rfl) u
  revert hw he
  generalize (State.each u (List.range 8) fun k s => s.wr (Reg.EDW_MAC_MAC k) (bits r.mac.toNat (32 * k) 32)) = v
  intro hw he
  refine ⟨(hw _ ?_).trans u1, (hw _ ?_).trans u2, (hw _ ?_).trans u3, (hw _ ?_).trans u4, ?_⟩
  · intro k; unfold Fld.key Reg.EDW_SCNT_LO Reg.EDW_MAC_MAC; dsimp only; omega
  · intro k; unfold Fld.key Reg.EDW_SCNT_HI Reg.EDW_MAC_MAC; dsimp only; omega
  · intro k; unfold Fld.key Reg.EDW_STIME_LO Reg.EDW_MAC_MAC; dsimp only; omega
  · intro k; unfold Fld.key Reg.EDW_STIME_HI Reg.EDW_MAC_MAC; dsimp only; omega
  · show { v.edw with cnt := r.cnt } = _
    rw [he, u5]


theorem programSeal_does (retry : Bool) (r : SealRec) (s : State) (h : s.edw.rec_ = some r) :
    programSeal retry s = { s with
      out := s.out ++ (List.zip (List.range 210) (sealWords s r)).map fun x =>
        .ld 1 (sealArea s.edw.sector) (210 * (tget [] s.edw.sectors s.edw.sector).length + x.1) x.2
      edw := { s.edw with step := .program retry } } := by
  have key (c : Nat) (l : List (Nat × Word)) : ∀ u : State, u.edw = s.edw →
      (State.each u l fun x s => s.emit (.ld 1 (sealArea s.edw.sector) (c + x.1) x.2)) =
        { u with out := u.out ++ l.map fun x => .ld 1 (sealArea s.edw.sector) (c + x.1) x.2 } := by
    induction l with
    | nil => intro u hu; simp [State.each]
    | cons a l ih =>
      intro u hu
      refine (ih (u.emit (.ld 1 (sealArea u.edw.sector) (c + a.1) a.2)) hu).trans ?_
      rw [hu]
      simp [State.emit, hu]
  unfold programSeal
  rw [h]
  dsimp only
  rw [key _ _ s rfl]

theorem sealWords_length (s : State) (r : SealRec) : (sealWords s r).length = 210 := by
  unfold sealWords
  rw [List.length_map, List.length_range]


theorem sealTrigger_view (tm : Bool) (s : State) : (sealTrigger tm s).edw.scan = s.edw.scan ∧ (sealTrigger tm s).edw.sealed_ = s.edw.sealed_ ∧
    (sealTrigger tm s).edw.cfg = s.edw.cfg ∧ (sealTrigger tm s).edw.cnt = s.edw.cnt ∧ (s.edw.lastCap.isSome = true → (sealTrigger tm s).edw.lastCap.isSome = true) := by
  unfold sealTrigger
  dsimp only
  repeat' split
  all_goals exact ⟨rfl, rfl, rfl, rfl, fun h => by first | exact h | rfl⟩

/-- What the seal records of a state check is the flash's and the keys'. -/
theorem macChecks_congr {s u : State} (h : u.img.otp = s.img.otp) (r : SealRec) : macChecks u r = macChecks s r := by
  unfold macChecks sealMac sealBytes otpWord
  rw [h]

theorem macFails_congr {s u : State} (h : u.img.otp = s.img.otp) (h1 : u.edw.sectors = s.edw.sectors) : macFails u = macFails s := by
  unfold macFails
  simp only [h1, macChecks_congr h]

theorem newestSeal_congr {s u : State} (h : u.img.otp = s.img.otp) (h1 : u.edw.sectors = s.edw.sectors) : newestSeal u = newestSeal s := by
  unfold newestSeal
  rw [h1, show macChecks u = macChecks s from funext (macChecks_congr h)]

theorem edwRestore_does (r : SealRec) (s : State) (h : (s.edw.sectors.any fun e => e.2.any (·.isNone)) = false)
    (h1 : newestSeal s = some r) :
    (edwRestore s).edw.scan = false ∧ (edwRestore s).edw.sealed_ = true ∧ (edwRestore s).edw.cfg = true ∧ (edwRestore s).edw.cnt = r.cnt ∧
      (edwRestore s).edw.lastCap.isSome = true := by
  unfold edwRestore
  dsimp only
  have k := readSlots_keeps { s with edw := { s.edw with scan := false, meters := [] } }
  revert k
  generalize readSlots { s with edw := { s.edw with scan := false, meters := [] } } = z
  intro k
  have z0 : z.edw = { s.edw with scan := false, meters := [] } := k.same .edw (by decide)
  rw [show z.edw.sectors = s.edw.sectors by rw [z0], h]
  simp only [Bool.false_and, Bool.or_false, Bool.false_eq_true, if_false]
  have z1 : (if macFails z = true then z.raise Reg.EDW_TAMPER_RECMAC else z).edw = { s.edw with scan := false, meters := [] } := by
    rw [← z0]
    split <;> rfl
  have z2 : (if macFails z = true then z.raise Reg.EDW_TAMPER_RECMAC else z).img.otp = s.img.otp := by
    refine Eq.trans ?_ (congrArg ImgS.otp (k.same .img (by decide)))
    split <;> rfl
  revert z1 z2
  generalize (if macFails z = true then z.raise Reg.EDW_TAMPER_RECMAC else z) = z
  intro z1 z2
  rw [newestSeal_congr z2 (by rw [z1]), h1]
  dsimp only
  obtain ⟨a, ha⟩ : ∃ a, a = State.each z (List.zip (List.range 65) r.cfg) fun x s => putS5Word x.1 x.2 s := ⟨_, rfl⟩
  have a1 : a.edw = { s.edw with scan := false, meters := [] } := by
    rw [ha, ← z1]
    exact State.each_inv (fun s => s.edw) (f := fun (x : Nat × Word) s => putS5Word x.1 x.2 s) _ (fun x u => (putS5Word_keeps ..).same .edw (by decide)) _
  rw [← ha]
  obtain ⟨b, hb⟩ : ∃ b, b = State.each a (List.zip (List.range 64) r.values) fun x s => s.setChan x.1 { value := x.2 } := ⟨_, rfl⟩
  have b1 : b.edw.scan = false := by
    rw [hb]
    refine (State.each_inv (fun s => s.edw.scan) (f := fun (x : Nat × Int) s => s.setChan x.1 { value := x.2 }) _ (fun x u => rfl) _).trans ?_
    rw [a1]
  rw [← hb]
  obtain ⟨c, hc, c1⟩ : ∃ c : State, c = ((b.wr Reg.EDW_TAMPER_DBGW (bits (tamper b ||| r.tamper).toNat 0 1)).wr Reg.EDW_TAMPER_RECMAC (bits (tamper b ||| r.tamper).toNat 1 1)) ∧ c.edw.scan = false :=
    ⟨_, rfl, b1⟩
  rw [← hc]
  obtain ⟨d, hd⟩ : ∃ d : State, d = { (showSeal r c).raise Reg.EDW_STAT_RESTORED with edw := { ((showSeal r c).raise Reg.EDW_STAT_RESTORED).edw with sealed_ := true, cfg := true, lastCap := some r.time } } := ⟨_, rfl⟩
  have d0 : d.edw = { (showSeal r c).edw with sealed_ := true, cfg := true, lastCap := some r.time } := by rw [hd]; rfl
  have d1 : d.edw.scan = false := by rw [d0, (showSeal_rd r c).2.2.2.2]; exact c1
  have d2 : d.edw.cnt = r.cnt := by rw [d0, (showSeal_rd r c).2.2.2.2]
  have d3 : d.edw.sealed_ = true ∧ d.edw.cfg = true ∧ d.edw.lastCap.isSome = true := by rw [d0]; exact ⟨rfl, rfl, rfl⟩
  rw [← hd]
  split
  · obtain ⟨v1, v2, v3, v4, v5⟩ := sealTrigger_view true d
    exact ⟨v1.trans d1, v2.trans d3.1, v3.trans d3.2.1, v4.trans d2, v5 d3.2.2⟩
  · exact ⟨d1, d3.1, d3.2.1, d2, d3.2.2⟩

end Sys2Proof.Machine
end

