-- ==== Sys2Proof/Laws/HostGate.lean ====
section
/-! SUPPORT. Lemmas on the host gate. -/

set_option maxHeartbeats 1000000

namespace Sys2Proof.Machine

theorem setSlice_keeps' (s : State) (i : Nat) (x : Slice) : Keeps [.gate] s (s.setSlice i x) := ⟨fun p hp => by cases p <;> first | rfl | simp at hp⟩

theorem barQueue_slice (d : Side) (typ : BitVec 8) (p : BitVec 128) (s : State) (i : Nat) : (barQueue d typ p s).slice i = s.slice i := by
  unfold barQueue
  dsimp only
  cases d <;> (repeat' split) <;> rfl

theorem gateEvt_slice (f : Fld) (s : State) (i : Nat) : (gateEvt f s).slice i = s.slice i := by
  unfold gateEvt
  dsimp only
  split <;> rfl

theorem grantCredit_one (i : Nat) (s : State) (h : s.gate.bar.st = .up) :
    (grantCredit [i] s).slice i = { s.slice i with granted := (s.slice i).granted + grantDue s i } := by
  unfold grantCredit
  rw [if_neg (by rw [h]; decide)]
  dsimp only
  refine (State.each_inv (f := _) (fun s => s.slice i) _ (fun x u => barQueue_slice ..) _).trans ?_
  by_cases hz : grantDue s i = 0
  · rw [show List.filter (fun e => e.2 != 0) (List.map (fun i => (i, grantDue s i)) [i]) = [] by simp [hz]]
    show s.slice i = _
    rw [hz]; rfl
  · rw [show List.filter (fun e => e.2 != 0) (List.map (fun i => (i, grantDue s i)) [i]) = [(i, grantDue s i)] by simp [hz]]
    exact State.slice_setSlice ..

/-- What a grant of credit leaves of a slice. -/
def sliceView (i : Nat) (s : State) : SlcState × List RingRec × Bool × Bool × List (Msg × BitVec 15) :=
  ((s.slice i).st, (s.slice i).q, (s.slice i).rstFree, (s.slice i).drained, (s.slice i).kept)

theorem grantCredit_view (l : List Nat) (s : State) (i : Nat) : sliceView i (grantCredit l s) = sliceView i s := by
  unfold grantCredit
  split
  · rfl
  · dsimp only
    refine (State.each_inv (f := _) (sliceView i) _ (fun x u => ?_) _).trans (State.each_inv (f := _) (sliceView i) _ (fun x u => ?_) _)
    · unfold sliceView; rw [barQueue_slice]
    · unfold sliceView
      by_cases e : i = x.1
      · subst e; rw [State.slice_setSlice]
      · rw [State.slice_setSlice_ne _ _ e]

theorem tget_out {α : Type} (d : α) (t : Tbl α) (i : Nat) (h : i ∉ t.map (·.1)) : tget d t i = d := by
  induction t with
  | nil => rfl
  | cons a t ih =>
    obtain ⟨k, v⟩ := a
    simp only [List.map_cons, List.mem_cons, not_or] at h
    unfold tget
    rw [if_neg (Ne.symm h.1)]
    exact ih h.2

theorem wipe_slice (W : Nat → State → State) (i : Nat) (hW : ∀ k u, (W k u).slice i = u.slice i) (l : Tbl Slice) (u : State)
    (h : (u.slice i).st = .free ∧ (u.slice i).q = [] ∨ i ∈ l.map (·.1)) :
    ((u.each l fun e s => (W e.1 s).setSlice e.1 { ({} : Slice) with granted := e.2.granted }).slice i).st = .free ∧
      ((u.each l fun e s => (W e.1 s).setSlice e.1 { ({} : Slice) with granted := e.2.granted }).slice i).q = [] := by
  induction l generalizing u with
  | nil => exact h.elim id (by simp)
  | cons a l ih =>
    refine ih _ ?_
    by_cases e : i = a.1
    · left
      subst e
      rw [State.slice_setSlice]
      exact ⟨rfl, rfl⟩
    · rcases h with h | h
      · left
        rw [State.slice_setSlice_ne _ _ e, hW]
        exact h
      · right
        simp only [List.map_cons, List.mem_cons] at h
        exact h.resolve_left e

theorem freeAll_slice (s : State) (i : Nat) : ((freeAll s).slice i).st = .free ∧ ((freeAll s).slice i).q = [] := by
  have h0 : (s.slice i).st = .free ∧ (s.slice i).q = [] ∨ i ∈ s.gate.slices.map (·.1) := by
    by_cases e : i ∈ s.gate.slices.map (·.1)
    · exact .inr e
    · left
      have : s.slice i = {} := tget_out _ _ _ e
      rw [this]; exact ⟨rfl, rfl⟩
  obtain ⟨W, hw⟩ : ∃ W : Nat → State → State, W = fun k s => s.each (List.range 17) fun w s => s.wr (Reg.SLC_DIRTY k w) 0 := ⟨_, rfl⟩
  have hW (k u) : (W k u).slice i = u.slice i := by
    subst hw
    exact State.each_inv (fun s => s.slice i) (f := fun w s => s.wr (Reg.SLC_DIRTY k w) 0) (List.range 17) (fun x u => rfl) u
  have key := wipe_slice W i hW s.gate.slices s h0
  obtain ⟨u, hu⟩ : ∃ u, u = s.each s.gate.slices fun e s => (W e.1 s).setSlice e.1 { ({} : Slice) with granted := e.2.granted } := ⟨_, rfl⟩
  rw [← hu] at key
  have hf : ∃ g : GateS, ∃ x y : Arb, freeAll s = (({ u with gate := { u.gate with tags := g.tags, msix := g.msix, held := g.held, half := g.half, cur := g.cur, saved := g.saved } } : State).setArb 21 x).setArb 22 y := by
    subst hu hw
    exact ⟨{ s.gate with tags := s.gate.tags.filter fun e => match e.2 with | .queued _ => false | _ => true, msix := [], held := [], half := [], cur := [], saved := [] }, _, _, rfl⟩
  obtain ⟨g, x, y, hf⟩ := hf
  rw [hf]
  exact key


theorem arbSync_same (a : Nat) (s : State) (h : (s.arbOf a).aging = arbMustAge s a) :
    arbSync a s = s.setArb a { s.arbOf a with scope := (s.arbOf a).scope && restoring s a } := by
  unfold arbSync
  dsimp only
  rw [if_pos (by rw [h]; exact beq_self_eq_true _)]

theorem mpuCheck_congr {s u : State} (h : u.regs = s.regs) (host : Bool) (e a : Nat) (t w : Bool) : mpuCheck host e a t w u = mpuCheck host e a t w s := by
  unfold mpuCheck mpuMatch
  simp only [rd_congr h, flag_congr h]

theorem issueRecord_out (w i : Nat) (r : RingRec) (l : List RingRec) (rlx ns : Bool) (cache : Nat) (s : State) (h : (s.slice i).q = r :: l)
    (hm : mpuCheck true w ((ringBase s i + 32 * (r.q.toNat % ringSize s i)) % 2 ^ 64) (!s.flag (Reg.SLC_KEY_PRIV i)) true s = .pass rlx ns cache) :
    (issueRecord w i s).out = s.out ++ [.ring w ((ringBase s i + 32 * (r.q.toNat % ringSize s i)) % 2 ^ 64) (ringWords s i r)
      (if s.flag (Reg.SLC_KEY_PRIV i) then none else some (BitVec.ofNat 20 (s.rd (Reg.SLC_KEY_PASID i)))) rlx ns (BitVec.ofNat 2 cache)] := by
  unfold issueRecord
  dsimp only
  rw [h]
  dsimp only
  rw [hm]
  dsimp only
  rw [(finishReset_keeps ..).same .out (by decide), (notify_keeps ..).same .out (by decide), (report_keeps ..).same .out (by decide)]
  cases s.flag (Reg.SLC_KEY_PRIV i) <;> rfl

theorem freeAll_rd (f : Fld) (s : State) (h : ∀ i w, f.key ≠ (Reg.SLC_DIRTY i w).key) : (freeAll s).rd f = s.rd f := by
  have hw (k : Nat) (u : State) : (u.each (List.range 17) fun w s => s.wr (Reg.SLC_DIRTY k w) 0).rd f = u.rd f :=
    State.each_inv (fun s => s.rd f) (f := fun w s => s.wr (Reg.SLC_DIRTY k w) 0) (List.range 17) (fun x u => State.rd_wr_ne _ _ (h k x)) u
  obtain ⟨W, hW⟩ : ∃ W : Nat → State → State, W = fun k s => s.each (List.range 17) fun w s => s.wr (Reg.SLC_DIRTY k w) 0 := ⟨_, rfl⟩
  have h1 (k u) : (W k u).rd f = u.rd f := by subst hW; exact hw k u
  obtain ⟨u, hu⟩ : ∃ u, u = s.each s.gate.slices fun e s => (W e.1 s).setSlice e.1 { ({} : Slice) with granted := e.2.granted } := ⟨_, rfl⟩
  have h2 : u.rd f = s.rd f := by
    subst hu
    exact State.each_inv (fun s => s.rd f) (f := fun (e : Nat × Slice) s => (W e.1 s).setSlice e.1 { ({} : Slice) with granted := e.2.granted }) s.gate.slices (fun x u => (h1 x.1 u)) s
  have hf : ∃ g : GateS, ∃ x y : Arb, freeAll s = (({ u with gate := { u.gate with tags := g.tags, msix := g.msix, held := g.held, half := g.half, cur := g.cur, saved := g.saved } } : State).setArb 21 x).setArb 22 y ∧ g.held = [] := by
    subst hu hW
    exact ⟨{ s.gate with tags := s.gate.tags.filter fun e => match e.2 with | .queued _ => false | _ => true, msix := [], held := [], half := [], cur := [], saved := [] }, _, _, rfl, rfl⟩
  obtain ⟨g, x, y, hf, -⟩ := hf
  rw [hf]
  exact h2

theorem freeAll_held (s : State) : (freeAll s).gate.held = [] := by
  unfold freeAll
  dsimp only [State.setArb]


theorem barQueue_gate (d : Side) (typ : BitVec 8) (p : BitVec 128) (s : State) :
    ((barQueue d typ p s).gate.held, (barQueue d typ p s).gate.aging, (barQueue d typ p s).gate.msix) = (s.gate.held, s.gate.aging, s.gate.msix) := by
  unfold barQueue
  dsimp only
  cases d <;> (repeat' split) <;> rfl

theorem grantCredit_gate (l : List Nat) (s : State) :
    ((grantCredit l s).gate.held, (grantCredit l s).gate.aging, (grantCredit l s).gate.msix) = (s.gate.held, s.gate.aging, s.gate.msix) := by
  unfold grantCredit
  split
  · rfl
  · dsimp only
    refine (State.each_inv (f := _) (fun s => (s.gate.held, s.gate.aging, s.gate.msix)) _ (fun x u => ?_) _).trans
      (State.each_inv (f := _) (fun s => (s.gate.held, s.gate.aging, s.gate.msix)) _ (fun x u => ?_) _)
    · exact barQueue_gate ..
    · rfl

theorem sendGateState_idle (s : State) (h : s.rd Reg.GATE_CTRL_RUN = 0) :
    sendGateState s = barQueue .host 0x02 (pay (b2n (s.flag Reg.GATE_CTRL_RUN) + 2 ^ 8 * s.gate.gen.toNat)) s := by
  unfold sendGateState
  dsimp only
  rw [if_neg]
  have : (barQueue .host 0x02 (pay (b2n (s.flag Reg.GATE_CTRL_RUN) + 2 ^ 8 * s.gate.gen.toNat)) s).flag Reg.GATE_CTRL_RUN = false := by
    unfold State.flag
    rw [(barQueue_keeps ..).rd_eq, h]; rfl
  rw [this]; simp


theorem arbBeat_idle (a : Nat) (beat : Nat → State → State) (s : State) (h : (s.arbOf a).holder = none) : arbBeat a beat s = s := by
  unfold arbBeat
  dsimp only
  rw [h]

theorem arbBeat_holder (a : Nat) (beat : Nat → State → State) (x : Xfer) (s : State) (h : (s.arbOf a).holder = some x) :
    ∃ y : Arb, arbBeat a beat s = beat x.j (s.setArb a y) := by
  unfold arbBeat
  dsimp only
  rw [h]
  exact ⟨_, rfl⟩

theorem arbBeat_last (a : Nat) (beat : Nat → State → State) (x : Xfer) (s : State) (h : (s.arbOf a).holder = some x) (h1 : x.beats ≤ x.done + 1) :
    ∃ y : Arb, arbBeat a beat s = beat x.j (s.setArb a y) ∧ y.holder = none := by
  unfold arbBeat
  dsimp only
  rw [h]
  dsimp only
  rw [if_pos h1]
  exact ⟨_, rfl, rfl⟩

theorem arbBeat_more (a : Nat) (beat : Nat → State → State) (x : Xfer) (s : State) (h : (s.arbOf a).holder = some x) (h1 : ¬ x.beats ≤ x.done + 1) :
    ∃ y : Arb, ∃ y' : Xfer, arbBeat a beat s = beat x.j (s.setArb a y) ∧ y.holder = some y' ∧ y'.j = x.j := by
  unfold arbBeat
  dsimp only
  rw [h]
  dsimp only
  rw [if_neg h1]
  exact ⟨_, _, rfl, rfl, rfl⟩

end Sys2Proof.Machine
end

