-- ==== Sys2Proof/Laws/Images.lean ====
section
/-! SUPPORT. Lemmas on images and on what a reset leaves. -/

set_option Elab.async false

set_option maxHeartbeats 1000000

namespace Sys2Proof.Machine

theorem loadOf_setLoad (d : Side) (l : LoadS) (s : State) : loadOf d (setLoad d l s) = l := by cases d <;> rfl
theorem loadOf_keeps {w : List Part} {s t : State} (h : Keeps w s t) (d : Side) (hp : Part.img ∉ w := by decide) : loadOf d t = loadOf d s := by
  cases d
  · exact congrArg ImgS.load (h.same .img hp)
  · exact congrArg ImgS.hload (h.same .img hp)

theorem failLoad_load (d : Side) (r : Nat) (s : State) : loadOf d (failLoad d r s) =
    { loadOf d s with st := .restore, err := r, fifo := [], chunk := none, chunkHi := none, parts := [], wait := none } := by
  unfold failLoad
  dsimp only
  have h1 (u : State) : loadOf d (match (loadOf d s).wait with | some (a, _, _) => busError a 0x20004 6 true u | none => u) = loadOf d u := by
    split
    · exact loadOf_keeps (busError_keeps ..) d
    · rfl
  split
  · exact (loadOf_keeps (State.wr_keeps ..) d).trans ((h1 _).trans (loadOf_setLoad ..))
  · exact (h1 _).trans (loadOf_setLoad ..)

theorem failLoad_twin (d : Side) (s : State) : (failLoad d 14 s).rd Reg.LOAD_STATUS_TWIN = 2 := by
  unfold failLoad
  dsimp only
  rw [if_pos rfl]
  exact State.rd_wr_same ..

theorem setLoad_self (d : Side) (s : State) : setLoad d (loadOf d s) s = s := by cases d <;> rfl

/-- A loader that is not at work, or whose FIFO is empty, stays as it is. -/
theorem pumpLoad_idle (d : Side) (s : State) (h : (loadOf d s).wait = none) (h1 : (loadOf d s).fifo = [])
    (h2 : ¬ ((loadOf d s).st = .header ∧ (loadOf d s).taken = 48)) : pumpLoad d s = s := by
  unfold pumpLoad
  have hd : drain d ((loadOf d s).fifo.length + 1) s = s := by
    rw [h1]
    show drain d 1 s = s
    unfold drain
    dsimp only
    rw [if_neg (c := ((loadOf d s).st == .header && (loadOf d s).taken == 48 && (d == .host || s.img.copies.isEmpty)) = true) (by simp only [Bool.and_eq_true, beq_iff_eq]; exact fun h => h2 h.1), setLoad_self, h1]
    split <;> rfl
  rw [hd]
  dsimp only
  rw [h]

theorem pumpLoad_off (d : Side) (s : State) (h : (loadOf d s).wait = none) (h1 : (loadOf d s).st = .idle) : pumpLoad d s = s := by
  unfold pumpLoad
  have hd (n) : drain d (n + 1) s = s := by
    unfold drain
    dsimp only
    rw [if_neg (c := ((loadOf d s).st == .header && (loadOf d s).taken == 48 && (d == .host || s.img.copies.isEmpty)) = true) (by rw [h1]; simp), setLoad_self, if_pos]
    rw [h1]; rfl
  rw [hd]
  dsimp only
  rw [h]

set_option maxRecDepth 100000 in
theorem rimeNext_succ (s : State) (n p : Nat) : rimeNext s (n + 1) p = match rimeWord p with
    | some (a, i) => if rimeSkips s a i then rimeNext s n (p + 1) else p
    | none => p := rfl

theorem rimeNext_zero (s : State) (p : Nat) : rimeNext s 0 p = p := rfl

theorem rimeNext_bare (n p : Nat) (s : State) : rimeNext s.bare n p = rimeNext s n p := by
  induction n generalizing p with
  | zero => exact (rimeNext_zero ..).trans (rimeNext_zero ..).symm
  | succ n ih =>
    rw [rimeNext_succ, rimeNext_succ]
    split
    · rw [bare_rimeSkips, ih]
    · with_reducible rfl

theorem upsetWord_none (a i : Nat) (u : State) : upsetWord a i (0 : Word).toNat u = u := by
  unfold upsetWord
  dsimp only
  rw [if_pos]
  split
  · split
    · have hz (l : List FldSpec) : (l.map fun f => bits (0 : Word).toNat f.lo f.w * 2 ^ f.lo).sum = 0 := by
        have : (l.map fun f => bits (0 : Word).toNat f.lo f.w * 2 ^ f.lo) = l.map fun _ => 0 := by
          apply List.map_congr_left; intro f _; simp [bits]
        rw [this]; simp
      exact hz _
    · rfl
  · rfl

/-- What of the images a reset keeps: the flash, its markers and the keys. -/
def kept (s : State) : List Word × List Word × List (List Word) × List (List Word) × Tbl Word :=
  (s.img.flashA, s.img.flashB, s.img.mark0, s.img.mark1, s.img.otp)

theorem kept_keeps {w : List Part} {s t : State} (h : Keeps w s t) (hp : Part.img ∉ w := by decide) : kept t = kept s := by
  unfold kept; rw [h.same .img hp]

theorem restoreHeld_kept (d : Side) (s : State) : kept (restoreHeld d s) = kept s := by
  unfold restoreHeld
  dsimp only
  refine State.each_inv kept _ (fun h s => ?_) s
  split
  · exact kept_keeps (unstageWord_keeps ..)
  · rfl

/-- The base of an instance reset: what every queue, record and register of it starts from. -/
theorem resetInstance_base (die : Bool) (s : State) : ∃ A : State, Keeps [.lnk, .once, .regs, .hostq, .seg, .lock, .src, .trc] A (resetInstance die s) ∧
    A.xb = {} ∧ A.rq = {} ∧ A.camp = [] ∧ A.bar = {} ∧ A.staged = [] ∧ A.firn.writes = [] ∧ A.firn.dones = [] ∧
      kept A = kept s ∧ A.pins = s.pins ∧ A.time.now = s.time.now ∧ A.img.load = {} ∧ A.edw = s.edw := by
  unfold resetInstance
  dsimp only
  have k0 : Keeps [.out] (s) (s.each ((List.range 4).filter fun r => !(s.segOf r).bursts.isEmpty) fun r s => s.emit (.act r 0 0 false false false false true)) :=
    Keeps.each (fun r u => State.emit_keeps ..) Keeps.refl
  revert k0
  generalize (s.each ((List.range 4).filter fun r => !(s.segOf r).bursts.isEmpty) fun r s => s.emit (.act r 0 0 false false false false true)) = a
  intro k0
  have k1 : Keeps [.staged, .img] a (restoreHeld .field a) := restoreHeld_keeps ..
  have q1 := restoreHeld_kept .field a
  revert k1 q1
  generalize restoreHeld .field a = b
  intro k1 q1
  have k2' : Keeps [.regs, .src, .acc, .firn, .xb, .pwr, .trc] b (cutOffers (domainsOff b)) := Keeps.step (cutOffers_keeps ..) (by decide) (Keeps.mono (domainsOff_keeps ..) (by decide))
  have k2 : Keeps [.regs, .src, .acc, .firn, .xb, .pwr, .trc] b
      (if persistCut (cutOffers (domainsOff b)).img.load = true then stampPersist (cutOffers (domainsOff b)) else cutOffers (domainsOff b)) :=
    Keeps.ite (Keeps.step (stampPersist_keeps ..) (by decide) k2') k2'
  revert k2
  generalize (if persistCut (cutOffers (domainsOff b)).img.load = true then stampPersist (cutOffers (domainsOff b)) else cutOffers (domainsOff b)) = c
  intro k2
  have hk : kept c = kept s := (kept_keeps k2).trans (q1.trans (kept_keeps k0))
  have hp : c.pins = s.pins := (k2.same .pins (by decide)).trans ((k1.same .pins (by decide)).trans (k0.same .pins (by decide)))
  have hn : c.time = s.time := (k2.same .time (by decide)).trans ((k1.same .time (by decide)).trans (k0.same .time (by decide)))
  have he : c.edw = s.edw := (k2.same .edw (by decide)).trans ((k1.same .edw (by decide)).trans (k0.same .edw (by decide)))
  have hi : kept c = (({ c with img := (State.each c c.img.copies copyBack).img } : State) |> kept) := by
    exact (State.each_inv (f := copyBack) kept c.img.copies (fun sp u => rfl) c).symm
  have done {A X B : State} (w : State → State) (hA : Keeps [.lnk] A X) (hB : B = (if die then { X with once := X.once.filter fun e => decide (0x100000 ≤ e.1) } else X)) :
      Keeps [.lnk, .once, .regs, .hostq, .seg, .lock, .src, .trc] A (State.each (State.each (rebuildHostQ (resetRegs (inInstance die) B)) (List.range 4) (fun r s => s.setSeg r { spare := configuredSpare s r }))
        (List.range 64) (fun i s => lockBreak i 0 s)) := by
    refine Keeps.each (fun i u => Keeps.mono (lockBreak_keeps ..) (by decide)) (Keeps.each (fun r u => Keeps.mono (State.setSeg_keeps ..) (by decide))
      (Keeps.step (rebuildHostQ_keeps ..) (by decide) (Keeps.step (resetRegs_keeps ..) (by decide) ?_)))
    rw [hB]
    refine Keeps.trans (Keeps.mono hA (by decide)) ?_
    split_ifs
    · exact ⟨fun p hp => by cases p <;> first | rfl | simp at hp⟩
    · exact Keeps.refl
  refine ⟨_, done id (Keeps.each (fun p u => resetPort_keeps ..) Keeps.refl) rfl, rfl, rfl, rfl, rfl, rfl, rfl, rfl, ?_, hp, (congrArg TimeS.now hn : c.time.now = s.time.now), ?_, he⟩
  · rw [← hk]
    cases die
    · exact hi.symm
    · rfl
  · cases die <;> rfl

/-- What a reset held by a pin leaves of its instance. -/
theorem dieReset_does (c : Nat) (s : State) :
    kept (dieReset c s) = kept s ∧ (dieReset c s).su.phase = 1 ∧ (dieReset c s).su.hold = true ∧ (dieReset c s).su.open_ = false ∧ (dieReset c s).xb = {} ∧
      (dieReset c s).rq = {} ∧ (dieReset c s).camp = [] ∧ (dieReset c s).time.now = s.time.now ∧ (dieReset c s).img.load = {} := by
  obtain ⟨A, k, a1, a2, a3, -, -, -, -, a4, -, a5, a6, -⟩ := resetInstance_base true s
  have k2 := startFrom_keeps c false (resetInstance true s)
  unfold dieReset
  dsimp only
  have hx : (startFrom c false (resetInstance true s)).img = A.img := (k2.same .img (by decide)).trans (k.same .img (by decide))
  refine ⟨?_, ?_, ?_, ?_, ?_, ?_, ?_, ?_, ?_⟩
  · rw [← a4]; unfold kept; dsimp only; rw [hx]
  · rfl
  · rfl
  · rfl
  · exact (k2.same .xb (by decide)).trans ((k.same .xb (by decide)).trans a1)
  · exact (k2.same .rq (by decide)).trans ((k.same .rq (by decide)).trans a2)
  · exact (k2.same .camp (by decide)).trans ((k.same .camp (by decide)).trans a3)
  · exact (congrArg TimeS.now ((k2.same .time (by decide)).trans (k.same .time (by decide)))).trans a5
  · exact (congrArg ImgS.load hx).trans a6

theorem mismatch_does (a i : Nat) (s : State) (h4 : s.flag Reg.RIME_CTRL_RESTORE = true) (h5 : (a, i) ∉ s.rime.marks) (h6 : s.rime.marks.length < 64)
    (h7 : s.latchOf 5120 = none) (h8 : s.time.sleep = .awake) :
    (mismatch a i false s).rime = { s.rime with marks := s.rime.marks ++ [(a, i)] } ∧
      (mismatch a i false s).latchOf 5120 = some ⟨s.time.now, BitVec.ofNat 16 (a * 2 ^ 14 + i), 7, s.epoch.num, true, false⟩ := by
  unfold mismatch
  rw [raiseInt_free _ _ _ (by rw [(State.inc_keeps ..).latchOf_eq]; exact h7) (by exact h8)]
  dsimp only
  obtain ⟨u, hu, ku, hr⟩ : ∃ u, ((((s.inc Reg.RIME_STAT_MISM).setLatch 5120 (some ⟨s.time.now, BitVec.ofNat 16 (a * 2 ^ 14 + i), 7, s.epoch.num, true, false⟩)).wr Reg.RIME_LAST_INDEX i).wr
      Reg.RIME_LAST_AREA a).raise Reg.RIME_LAST_VALID = u ∧
      Keeps [.regs] ((s.inc Reg.RIME_STAT_MISM).setLatch 5120 (some ⟨s.time.now, BitVec.ofNat 16 (a * 2 ^ 14 + i), 7, s.epoch.num, true, false⟩)) u ∧
      u.flag Reg.RIME_CTRL_RESTORE = true := by
    refine ⟨_, rfl, Keeps.step (State.raise_keeps ..) (by decide) (Keeps.step (State.wr_keeps ..) (by decide) (State.wr_keeps ..)), ?_⟩
    unfold State.flag State.raise at *
    rw [State.rd_wr_ne _ _ (by decide), State.rd_wr_ne _ _ (by decide), State.rd_wr_ne _ _ (by decide), (State.setLatch_keeps ..).rd_eq]
    unfold State.inc
    rw [State.rd_wr_ne _ _ (by decide)]
    exact h4
  have hu' : ((((s.inc Reg.RIME_STAT_MISM).setLatch 5120 (some ⟨(s.inc Reg.RIME_STAT_MISM).time.now, BitVec.ofNat 16 (a * 2 ^ 14 + i), 7, (s.inc Reg.RIME_STAT_MISM).epoch.num, true, false⟩)).wr Reg.RIME_LAST_INDEX i).wr
      Reg.RIME_LAST_AREA a).raise Reg.RIME_LAST_VALID = u := hu
  rw [hu']
  have hm : u.rime = s.rime := ku.same .rime (by decide)
  rw [if_neg (by rw [hr, hm]; simpa using h5), hm, if_neg (by omega)]
  refine ⟨rfl, ?_⟩
  exact (ku.latchOf_eq 5120).trans (State.latchOf_setLatch ..)

end Sys2Proof.Machine
end

