-- ==== Sys2Proof/Laws/Migration.lean ====
section
/-! SUPPORT. Lemmas on migration. -/

set_option maxHeartbeats 1000000

namespace Sys2Proof.Machine

theorem pumpRet_carries (n : Nat) (s : State) : Carries s (pumpRet n s) := by
  intro m hc h
  obtain ⟨h1, h2⟩ := pumpList_grows (16 + n) ((tget [] s.xb.retHold n).map fun m => { msg := m }) [] s
  have h3 := pumpList_waits (16 + n) ((tget [] s.xb.retHold n).map fun m => { msg := m }) [] s
  unfold waits at h3
  simp only [Prod.mk.injEq] at h3
  unfold pumpRet
  dsimp only
  rcases h with h | ⟨e, he, hm⟩ | ⟨r, x, h, hm⟩ | ⟨x, h, hm⟩
  · exact .inl (h.grows (h1.trans (Grows.of rfl rfl)))
  · exact .inr (.inl ⟨e, by rw [← h3.1] at he; exact he, hm⟩)
  · by_cases hr : r = n
    · subst hr
      rcases h2 { msg := x } (List.mem_map.2 ⟨x, h, rfl⟩) (by rw [hm.cls]; exact hc) with h | h
      · refine .inr (.inr (.inl ⟨r, x, ?_, hm⟩))
        show x ∈ tget [] (tset [] _ r _) r
        rw [tget_tset_same]
        exact List.mem_map.2 ⟨_, h, rfl⟩
      · exact .inl (hm.stored (h.grows (Grows.of rfl rfl)))
    · refine .inr (.inr (.inl ⟨r, x, ?_, hm⟩))
      show x ∈ tget [] (tset [] _ n _) r
      rw [tget_tset_ne _ _ _ _ hr, h3.2.1]
      exact h
  · exact .inr (.inr (.inr ⟨x, by rw [← h3.2.2.1] at h; exact h, hm⟩))

/-- A message put at a region return is on its way. -/
theorem retHold_enRoute (n : Nat) (x m : Msg) (l : List Msg) (s : State) (h : isMsg m x) (hx : x ∈ l) :
    enRoute { s with xb := { s.xb with retHold := tset [] s.xb.retHold n (tget [] s.xb.retHold n ++ l) } } m := by
  refine .inr (.inr (.inl ⟨n, x, ?_, h⟩))
  show x ∈ tget [] (tset [] _ n _) n
  rw [tget_tset_same]
  exact List.mem_append_right _ hx

theorem retHold_carries (n : Nat) (l : List Msg) (s : State) :
    Carries s { s with xb := { s.xb with retHold := tset [] s.xb.retHold n (tget [] s.xb.retHold n ++ l) } } := by
  intro m _ h
  rcases h with h | h | ⟨r, x, h, hm⟩ | h
  · exact .inl (h.grows (Grows.of rfl rfl))
  · exact .inr (.inl h)
  · refine .inr (.inr (.inl ⟨r, x, ?_, hm⟩))
    show x ∈ tget [] (tset [] _ n _) r
    by_cases hr : r = n
    · subst hr; rw [tget_tset_same]; exact List.mem_append_left _ h
    · rw [tget_tset_ne _ _ _ _ hr]; exact h
  · exact .inr (.inr (.inr h))

theorem sendRet_enRoute (u : Nat) (x m : Msg) (s : State) (h : isMsg m x) : enRoute (sendRet u x s) m :=
  retHold_enRoute _ x m [x] s h (List.mem_singleton.2 rfl)
theorem sendRet_carries (u : Nat) (x : Msg) (s : State) : Carries s (sendRet u x s) := retHold_carries _ _ s

theorem mem_inSeq (l : List Msg) (x : Msg) : x ∈ inSeq l ↔ x ∈ l := by
  have h (l : List Msg) (acc : List Msg) : x ∈ l.foldl (fun acc m =>
      let before := acc.takeWhile fun x => !after 24 x.seq.toNat m.seq.toNat
      before ++ m :: acc.drop before.length) acc ↔ x ∈ acc ∨ x ∈ l := by
    induction l generalizing acc with
    | nil => simp
    | cons m l ih =>
      rw [List.foldl_cons, ih]
      dsimp only
      have e : acc.takeWhile (fun x => !after 24 x.seq.toNat m.seq.toNat) ++ acc.drop (acc.takeWhile (fun x => !after 24 x.seq.toNat m.seq.toNat)).length = acc := by
        conv_rhs => rw [← List.takeWhile_append_dropWhile (p := fun x : Msg => !after 24 x.seq.toNat m.seq.toNat) (l := acc)]
        congr 1
        have := List.takeWhile_append_dropWhile (p := fun x : Msg => !after 24 x.seq.toNat m.seq.toNat) (l := acc)
        conv_lhs => rw [← this]
        rw [List.drop_append]
        simp
      rw [List.mem_cons]
      have e2 : x ∈ acc ↔ x ∈ acc.takeWhile (fun x => !after 24 x.seq.toNat m.seq.toNat) ∨ x ∈ acc.drop (acc.takeWhile (fun x => !after 24 x.seq.toNat m.seq.toNat)).length := by
        conv_lhs => rw [← e]
        exact List.mem_append
      rw [List.mem_append, List.mem_cons, e2]
      tauto
  unfold inSeq
  rw [h]
  simp

/-- What a stream's events become when they leave a unit for a new target. -/
theorem moveOut_does (u : Nat) (o : BitVec 5) (src : BitVec 13) (b : BitVec 12) (s : State) :
    (moveOut u o src b s).lane u = (s.lane u).filter (fun m => !(m.isEvent && m.origin == o && m.source == src)) ∧
      (∀ v, v ≠ u → (moveOut u o src b s).lane v = s.lane v) ∧ (moveOut u o src b s).rq.redirect = s.rq.redirect ∧ Carries s (moveOut u o src b s) ∧
      ∀ x ∈ s.lane u, x.isEvent = true → x.origin = o → x.source = src → enRoute (moveOut u o src b s) { x with dest := b } := by
  have kE (l : List Msg) (s : State) : Keeps [.firn] s (s.each l fun m s => (match custodyAt s u m with
      | some (k, c) => s.setRec k (some { c with moved := some b })
      | none => s)) := by
    unfold State.each
    induction l generalizing s with
    | nil => exact Keeps.refl
    | cons m l ih =>
      rw [List.foldl_cons]
      refine Keeps.trans ?_ (ih _)
      dsimp only
      split
      · exact State.setRec_keeps ..
      · exact Keeps.refl
  unfold moveOut
  dsimp only
  generalize (if u < 64 then (s.coreOf u).pend.filter (fun m => m.isEvent && m.origin == o && m.source == src) else []) = P
  obtain ⟨S, hS, k1⟩ : ∃ S, (if u < 64 then (s.setLane u ((s.lane u).filter fun m => !(m.isEvent && m.origin == o && m.source == src))).setCore u
      { s.coreOf u with pend := (s.coreOf u).pend.filter fun m => !(m.isEvent && m.origin == o && m.source == src) }
      else s.setLane u ((s.lane u).filter fun m => !(m.isEvent && m.origin == o && m.source == src))) = S ∧
      Keeps [.core] (s.setLane u ((s.lane u).filter fun m => !(m.isEvent && m.origin == o && m.source == src))) S := by
    refine ⟨_, rfl, ?_⟩
    split_ifs
    · exact State.setCore_keeps ..
    · exact Keeps.refl
  rw [hS]
  have k2 := kE (inSeq ((s.lane u).filter (fun m => m.isEvent && m.origin == o && m.source == src) ++ P)) S
  revert k2
  generalize State.each S (inSeq ((s.lane u).filter (fun m => m.isEvent && m.origin == o && m.source == src) ++ P)) (fun m s => (match custodyAt s u m with
      | some (k, c) => s.setRec k (some { c with moved := some b })
      | none => s)) = W
  intro k2
  have hrq : W.rq = (s.setLane u ((s.lane u).filter fun m => !(m.isEvent && m.origin == o && m.source == src))).rq :=
    (k2.same .rq (by decide)).trans (k1.same .rq (by decide))
  have hl (v) : W.lane v = (s.setLane u ((s.lane u).filter fun m => !(m.isEvent && m.origin == o && m.source == src))).lane v := by
    show tget [] W.rq.lanes v = _
    rw [hrq]; rfl
  refine ⟨(hl u).trans (State.lane_setLane ..), fun v hv => (hl v).trans (State.lane_setLane_ne _ _ hv), (congrArg RqS.redirect hrq).trans rfl, ?_, fun x hx h1 h2 h3 => ?_⟩
  · refine Carries.trans ?_ (retHold_carries (u % 64 / 16) _ W)
    exact (Carries.keeps (State.setLane_keeps ..)).trans ((Carries.keeps k1).trans (Carries.keeps k2))
  · refine retHold_enRoute (u % 64 / 16) { x with dest := b } _ _ W rfl (List.mem_map.2 ⟨x, ?_, rfl⟩)
    rw [mem_inSeq]
    exact List.mem_append_left _ (List.mem_filter.2 ⟨hx, by rw [h1, h2, h3]; simp⟩)

theorem fillSlots_none (s : State) (h : s.rec_.gated = []) : fillSlots s = s := by
  unfold fillSlots
  dsimp only
  rw [h]
  split
  · contradiction
  · rfl

/-- With no stream waiting, a freed slot stays free. -/
theorem freeSlots_none (p : MigSlot → Bool) (s : State) (h : s.rec_.gated = []) :
    (freeSlots p s).rec_.gated = [] ∧ ∀ j, tget none (freeSlots p s).rec_.mig j =
      if j < 8 ∧ (match tget none s.rec_.mig j with | some x => p x | none => false) = true then none else tget none s.rec_.mig j := by
  have hg (l : List Nat) (s : State) (h : s.rec_.gated = []) :
      (s.each l fun j s => fillSlots { s with rec_ := { s.rec_ with mig := tset none s.rec_.mig j none } }).rec_.gated = [] ∧
      ∀ j, tget none (s.each l fun j s => fillSlots { s with rec_ := { s.rec_ with mig := tset none s.rec_.mig j none } }).rec_.mig j =
        if j ∈ l then none else tget none s.rec_.mig j := by
    unfold State.each
    dsimp only
    induction l generalizing s with
    | nil => exact ⟨h, fun j => by simp⟩
    | cons a l ih =>
      rw [List.foldl_cons, fillSlots_none _ (by exact h)]
      obtain ⟨i1, i2⟩ := ih { s with rec_ := { s.rec_ with mig := tset none s.rec_.mig a none } } h
      refine ⟨i1, fun j => (i2 j).trans ?_⟩
      show (if j ∈ l then none else tget none (tset none s.rec_.mig a none) j) = _
      by_cases hj : j = a
      · subst hj; rw [tget_tset_same]; simp
      · rw [tget_tset_ne _ _ _ _ hj]; simp [hj]
  have := hg ((List.range 8).filter fun j => match tget none s.rec_.mig j with | some x => p x | none => false) s h
  unfold freeSlots
  refine ⟨this.1, fun j => (this.2 j).trans ?_⟩
  simp only [List.mem_filter, List.mem_range]

end Sys2Proof.Machine
end

