-- ==== Sys2Proof/Laws/Places.lean ====
section
/-! SUPPORT. The places of the words that commands name. -/

set_option Elab.async false

set_option maxHeartbeats 1000000

namespace Sys2Proof.Machine

-- the words that commands name, row by row

/-- The row of CLAIM. -/
abbrev row_CLAIM : RegRow :=
  ⟨.CLAIM, 0x3000, 0x40, 64, 4, 1, .cluster 4, [⟨0, 13, .rc, 0⟩, ⟨13, 5, .rc, 0⟩, ⟨18, 1, .rc, 0⟩, ⟨19, 1, .rc, 0⟩, ⟨20, 2, .rc, 0⟩, ⟨22, 5, .rc, 0⟩, ⟨27, 4, .rc, 0⟩, ⟨31, 1, .rc, 0⟩]⟩

theorem at_CLAIM (i : Nat) (hi : i < 64) : findReg (0x3000 + 0x40 * i) = some (row_CLAIM, i, 0) := by
  refine findReg_in 0x3000 0x3fc0 0x40 (by omega) (by omega) (0x0) (by omega) (by decide +kernel) (by decide +kernel) ?_
  unfold RegRow.index
  rw [if_neg (show ¬ (0x3000 + 0x40 * i < 0x3000) by omega)]
  dsimp only
  rw [if_neg (show ¬ (64 = 1) by decide), show (0x3000 + 0x40 * i - 0x3000) / 0x40 = i by omega, if_pos rfl, if_pos ⟨hi, by decide, by omega⟩]

/-- The row of THRESH. -/
abbrev row_THRESH : RegRow :=
  ⟨.THRESH, 0x3008, 0x40, 64, 4, 1, .cluster 4, [⟨0, 6, .rw, 0⟩]⟩

theorem at_THRESH (i : Nat) (hi : i < 64) : findReg (0x3008 + 0x40 * i) = some (row_THRESH, i, 0) := by
  refine findReg_in 0x3008 0x3fc8 0x40 (by omega) (by omega) (0x8) (by omega) (by decide +kernel) (by decide +kernel) ?_
  unfold RegRow.index
  rw [if_neg (show ¬ (0x3008 + 0x40 * i < 0x3008) by omega)]
  dsimp only
  rw [if_neg (show ¬ (64 = 1) by decide), show (0x3008 + 0x40 * i - 0x3008) / 0x40 = i by omega, if_pos rfl, if_pos ⟨hi, by decide, by omega⟩]

/-- The row of PREWARM. -/
abbrev row_PREWARM : RegRow :=
  ⟨.PREWARM, 0x3020, 0x40, 64, 4, 1, .region 16, [⟨0, 13, .rw, 0x190⟩, ⟨13, 8, .rw, 8⟩, ⟨21, 1, .rw, 0⟩, ⟨22, 1, .rw, 1⟩]⟩

theorem at_PREWARM (i : Nat) (hi : i < 64) : findReg (0x3020 + 0x40 * i) = some (row_PREWARM, i, 0) := by
  refine findReg_in 0x3020 0x3fe0 0x40 (by omega) (by omega) (0x20) (by omega) (by decide +kernel) (by decide +kernel) ?_
  unfold RegRow.index
  rw [if_neg (show ¬ (0x3020 + 0x40 * i < 0x3020) by omega)]
  dsimp only
  rw [if_neg (show ¬ (64 = 1) by decide), show (0x3020 + 0x40 * i - 0x3020) / 0x40 = i by omega, if_pos rfl, if_pos ⟨hi, by decide, by omega⟩]

/-- The row of PW_SRC. -/
abbrev row_PW_SRC : RegRow :=
  ⟨.PW_SRC, 0x3024, 0x40, 64, 0xC, 2, .region 16, [⟨0, 13, .rw, 0⟩, ⟨13, 5, .rw, 0⟩, ⟨18, 1, .rw, 0⟩, ⟨19, 1, .rw, 0⟩, ⟨20, 1, .rw, 0⟩]⟩

theorem at_PW_SRC (i : Nat) (hi : i < 64) (j : Nat) (hj : j < 2) : findReg (0x3024 + 0x40 * i + 0xc * j) = some (row_PW_SRC, i, j) := by
  have : ∀ j < 2, (regRows.all fun q => q.id == row_PW_SRC.id || q.apart 0x3024 0x3ff0 0x40 ((0x3024 + 0xc * j) % 0x40)) = true := by decide +kernel
  refine findReg_in 0x3024 0x3ff0 0x40 (by omega) (by omega) ((0x3024 + 0xc * j) % 0x40) (by omega) (this j hj) (by decide +kernel) ?_
  unfold RegRow.index
  rw [if_neg (show ¬ (0x3024 + 0x40 * i + 0xc * j < 0x3024) by omega)]
  dsimp only
  rw [if_neg (show ¬ (64 = 1) by decide), show (0x3024 + 0x40 * i + 0xc * j - 0x3024) / 0x40 = i by omega, if_neg (show ¬ (2 = 1) by decide), show (0x3024 + 0x40 * i + 0xc * j - 0x3024 - i * 0x40) / 0xc = j by omega, if_pos ⟨hi, hj, by omega⟩]

/-- The row of PW_PER. -/
abbrev row_PW_PER : RegRow :=
  ⟨.PW_PER, 0x3028, 0x40, 64, 0xC, 2, .region 16, [⟨0, 24, .rw, 0⟩, ⟨24, 2, .ro, 0⟩, ⟨26, 1, .ro, 0⟩]⟩

theorem at_PW_PER (i : Nat) (hi : i < 64) (j : Nat) (hj : j < 2) : findReg (0x3028 + 0x40 * i + 0xc * j) = some (row_PW_PER, i, j) := by
  have : ∀ j < 2, (regRows.all fun q => q.id == row_PW_PER.id || q.apart 0x3028 0x3ff4 0x40 ((0x3028 + 0xc * j) % 0x40)) = true := by decide +kernel
  refine findReg_in 0x3028 0x3ff4 0x40 (by omega) (by omega) ((0x3028 + 0xc * j) % 0x40) (by omega) (this j hj) (by decide +kernel) ?_
  unfold RegRow.index
  rw [if_neg (show ¬ (0x3028 + 0x40 * i + 0xc * j < 0x3028) by omega)]
  dsimp only
  rw [if_neg (show ¬ (64 = 1) by decide), show (0x3028 + 0x40 * i + 0xc * j - 0x3028) / 0x40 = i by omega, if_neg (show ¬ (2 = 1) by decide), show (0x3028 + 0x40 * i + 0xc * j - 0x3028 - i * 0x40) / 0xc = j by omega, if_pos ⟨hi, hj, by omega⟩]

/-- The row of PW_NEXT. -/
abbrev row_PW_NEXT : RegRow :=
  ⟨.PW_NEXT, 0x302C, 0x40, 64, 0xC, 2, .region 16, [⟨0, 32, .rw, 0⟩]⟩

theorem at_PW_NEXT (i : Nat) (hi : i < 64) (j : Nat) (hj : j < 2) : findReg (0x302c + 0x40 * i + 0xc * j) = some (row_PW_NEXT, i, j) := by
  have : ∀ j < 2, (regRows.all fun q => q.id == row_PW_NEXT.id || q.apart 0x302c 0x3ff8 0x40 ((0x302c + 0xc * j) % 0x40)) = true := by decide +kernel
  refine findReg_in 0x302c 0x3ff8 0x40 (by omega) (by omega) ((0x302c + 0xc * j) % 0x40) (by omega) (this j hj) (by decide +kernel) ?_
  unfold RegRow.index
  rw [if_neg (show ¬ (0x302c + 0x40 * i + 0xc * j < 0x302c) by omega)]
  dsimp only
  rw [if_neg (show ¬ (64 = 1) by decide), show (0x302c + 0x40 * i + 0xc * j - 0x302c) / 0x40 = i by omega, if_neg (show ¬ (2 = 1) by decide), show (0x302c + 0x40 * i + 0xc * j - 0x302c - i * 0x40) / 0xc = j by omega, if_pos ⟨hi, hj, by omega⟩]

/-- The row of CAMP_RFAIL. -/
abbrev row_CAMP_RFAIL : RegRow :=
  ⟨.CAMP_RFAIL, 0x804, 0x10, 4, 4, 1, .region 1, [⟨0, 4, .rw, 0⟩, ⟨31, 1, .rw, 0⟩]⟩

theorem at_CAMP_RFAIL (i : Nat) (hi : i < 4) : findReg (0x804 + 0x10 * i) = some (row_CAMP_RFAIL, i, 0) := by
  refine findReg_in 0x804 0x834 0x10 (by omega) (by omega) (0x4) (by omega) (by decide +kernel) (by decide +kernel) ?_
  unfold RegRow.index
  rw [if_neg (show ¬ (0x804 + 0x10 * i < 0x804) by omega)]
  dsimp only
  rw [if_neg (show ¬ (4 = 1) by decide), show (0x804 + 0x10 * i - 0x804) / 0x10 = i by omega, if_pos rfl, if_pos ⟨hi, by decide, by omega⟩]

/-- The row of CAPTURE_LO. -/
abbrev row_CAPTURE_LO : RegRow :=
  ⟨.CAPTURE_LO, 0x1040, 8, 16, 4, 1, .xbar, [⟨0, 32, .ro, 0⟩]⟩

theorem at_CAPTURE_LO (i : Nat) (hi : i < 16) : findReg (0x1040 + 0x8 * i) = some (row_CAPTURE_LO, i, 0) := by
  refine findReg_in 0x1040 0x10b8 0x8 (by omega) (by omega) (0x0) (by omega) (by decide +kernel) (by decide +kernel) ?_
  unfold RegRow.index
  rw [if_neg (show ¬ (0x1040 + 0x8 * i < 0x1040) by omega)]
  dsimp only
  rw [if_neg (show ¬ (16 = 1) by decide), show (0x1040 + 0x8 * i - 0x1040) / 0x8 = i by omega, if_pos rfl, if_pos ⟨hi, by decide, by omega⟩]

/-- The row of EDW_VAL_LO. -/
abbrev row_EDW_VAL_LO : RegRow :=
  ⟨.EDW_VAL_LO, 0x21200, 0x10, 64, 4, 1, .edw, [⟨0, 32, .ro, 0⟩]⟩

theorem at_EDW_VAL_LO (i : Nat) (hi : i < 64) : findReg (0x21200 + 0x10 * i) = some (row_EDW_VAL_LO, i, 0) := by
  refine findReg_in 0x21200 0x215f0 0x10 (by omega) (by omega) (0x0) (by omega) (by decide +kernel) (by decide +kernel) ?_
  unfold RegRow.index
  rw [if_neg (show ¬ (0x21200 + 0x10 * i < 0x21200) by omega)]
  dsimp only
  rw [if_neg (show ¬ (64 = 1) by decide), show (0x21200 + 0x10 * i - 0x21200) / 0x10 = i by omega, if_pos rfl, if_pos ⟨hi, by decide, by omega⟩]

/-- The row of LOCK. -/
abbrev row_LOCK : RegRow :=
  ⟨.LOCK, 0xF000, 4, 64, 4, 1, .aon, [⟨0, 4, .ro, 0⟩, ⟨4, 1, .ro, 0⟩, ⟨5, 1, .ro, 0⟩, ⟨6, 1, .ro, 0⟩, ⟨7, 1, .ro, 0⟩, ⟨8, 5, .ro, 0⟩, ⟨13, 2, .ro, 0⟩, ⟨16, 1, .rw, 0⟩, ⟨17, 1, .rw, 0⟩, ⟨18, 1, .rw, 0⟩]⟩

theorem at_LOCK (i : Nat) (hi : i < 64) : findReg (0xf000 + 0x4 * i) = some (row_LOCK, i, 0) := by
  refine findReg_in 0xf000 0xf0fc 0x4 (by omega) (by omega) (0x0) (by omega) (by decide +kernel) (by decide +kernel) ?_
  unfold RegRow.index
  rw [if_neg (show ¬ (0xf000 + 0x4 * i < 0xf000) by omega)]
  dsimp only
  rw [if_neg (show ¬ (64 = 1) by decide), show (0xf000 + 0x4 * i - 0xf000) / 0x4 = i by omega, if_pos rfl, if_pos ⟨hi, by decide, by omega⟩]

/-- The row of LNK_CTRL. -/
abbrev row_LNK_CTRL : RegRow :=
  ⟨.LNK_CTRL, 0xE000, 0x100, 4, 4, 1, .xbar, [⟨0, 1, .rw, 0⟩, ⟨1, 1, .rw, 1⟩, ⟨2, 1, .rw, 0⟩, ⟨8, 8, .rw, 0x40⟩, ⟨16, 4, .rw, 8⟩, ⟨20, 4, .rw, 4⟩, ⟨24, 8, .rw, 0x40⟩]⟩

theorem at_LNK_CTRL (i : Nat) (hi : i < 4) : findReg (0xe000 + 0x100 * i) = some (row_LNK_CTRL, i, 0) := by
  refine findReg_in 0xe000 0xe300 0x100 (by omega) (by omega) (0x0) (by omega) (by decide +kernel) (by decide +kernel) ?_
  unfold RegRow.index
  rw [if_neg (show ¬ (0xe000 + 0x100 * i < 0xe000) by omega)]
  dsimp only
  rw [if_neg (show ¬ (4 = 1) by decide), show (0xe000 + 0x100 * i - 0xe000) / 0x100 = i by omega, if_pos rfl, if_pos ⟨hi, by decide, by omega⟩]

/-- The row of SLC_DIRTY. -/
abbrev row_SLC_DIRTY : RegRow :=
  ⟨.SLC_DIRTY, 0x122000, 0x80, 256, 4, 17, .gate, [⟨0, 32, .rc, 0⟩]⟩

theorem at_SLC_DIRTY (i : Nat) (hi : i < 256) (j : Nat) (hj : j < 17) : findReg (0x122000 + 0x80 * i + 0x4 * j) = some (row_SLC_DIRTY, i, j) := by
  have : ∀ j < 17, (regRows.all fun q => q.id == row_SLC_DIRTY.id || q.apart 0x122000 0x129fc0 0x80 ((0x122000 + 0x4 * j) % 0x80)) = true := by decide +kernel
  refine findReg_in 0x122000 0x129fc0 0x80 (by omega) (by omega) ((0x122000 + 0x4 * j) % 0x80) (by omega) (this j hj) (by decide +kernel) ?_
  unfold RegRow.index
  rw [if_neg (show ¬ (0x122000 + 0x80 * i + 0x4 * j < 0x122000) by omega)]
  dsimp only
  rw [if_neg (show ¬ (256 = 1) by decide), show (0x122000 + 0x80 * i + 0x4 * j - 0x122000) / 0x80 = i by omega, if_neg (show ¬ (17 = 1) by decide), show (0x122000 + 0x80 * i + 0x4 * j - 0x122000 - i * 0x80) / 0x4 = j by omega, if_pos ⟨hi, hj, by omega⟩]

/-- The row of PG_CONS. -/
abbrev row_PG_CONS : RegRow :=
  ⟨.PG_CONS, 0x200004, 0x1000, 256, 4, 1, .gate, [⟨0, 32, .rw, 0⟩]⟩

theorem at_PG_CONS (i : Nat) (hi : i < 256) : findReg (0x200004 + 0x1000 * i) = some (row_PG_CONS, i, 0) := by
  refine findReg_in 0x200004 0x2ff004 0x1000 (by omega) (by omega) (0x4) (by omega) (by decide +kernel) (by decide +kernel) ?_
  unfold RegRow.index
  rw [if_neg (show ¬ (0x200004 + 0x1000 * i < 0x200004) by omega)]
  dsimp only
  rw [if_neg (show ¬ (256 = 1) by decide), show (0x200004 + 0x1000 * i - 0x200004) / 0x1000 = i by omega, if_pos rfl, if_pos ⟨hi, by decide, by omega⟩]

/-- The row of PG_ARM. -/
abbrev row_PG_ARM : RegRow :=
  ⟨.PG_ARM, 0x200008, 0x1000, 256, 4, 1, .gate, [⟨0, 1, .rw, 0⟩]⟩

theorem at_PG_ARM (i : Nat) (hi : i < 256) : findReg (0x200008 + 0x1000 * i) = some (row_PG_ARM, i, 0) := by
  refine findReg_in 0x200008 0x2ff008 0x1000 (by omega) (by omega) (0x8) (by omega) (by decide +kernel) (by decide +kernel) ?_
  unfold RegRow.index
  rw [if_neg (show ¬ (0x200008 + 0x1000 * i < 0x200008) by omega)]
  dsimp only
  rw [if_neg (show ¬ (256 = 1) by decide), show (0x200008 + 0x1000 * i - 0x200008) / 0x1000 = i by omega, if_pos rfl, if_pos ⟨hi, by decide, by omega⟩]

/-- The row of PG_VW. -/
abbrev row_PG_VW : RegRow :=
  ⟨.PG_VW, 0x200010, 0x1000, 256, 4, 1, .gate, [⟨0, 28, .rw, 0⟩]⟩

theorem at_PG_VW (i : Nat) (hi : i < 256) : findReg (0x200010 + 0x1000 * i) = some (row_PG_VW, i, 0) := by
  refine findReg_in 0x200010 0x2ff010 0x1000 (by omega) (by omega) (0x10) (by omega) (by decide +kernel) (by decide +kernel) ?_
  unfold RegRow.index
  rw [if_neg (show ¬ (0x200010 + 0x1000 * i < 0x200010) by omega)]
  dsimp only
  rw [if_neg (show ¬ (256 = 1) by decide), show (0x200010 + 0x1000 * i - 0x200010) / 0x1000 = i by omega, if_pos rfl, if_pos ⟨hi, by decide, by omega⟩]

/-- The row of CTRL. -/
abbrev row_CTRL : RegRow :=
  ⟨.CTRL, 8, 4, 1, 4, 1, .xbar, [⟨0, 1, .rw, 0⟩, ⟨1, 1, .w1, 0⟩, ⟨16, 9, .rw, 0⟩]⟩

theorem at_CTRL : findReg 0x8 = some (row_CTRL, 0, 0) := by decide +kernel

/-- The row of TIME_LO. -/
abbrev row_TIME_LO : RegRow :=
  ⟨.TIME_LO, 0x1000, 4, 1, 4, 1, .aon, [⟨0, 32, .ro, 0⟩]⟩

theorem at_TIME_LO : findReg 0x1000 = some (row_TIME_LO, 0, 0) := by decide +kernel

/-- The row of H_TIME_LO. -/
abbrev row_H_TIME_LO : RegRow :=
  ⟨.H_TIME_LO, 0x101000, 4, 1, 4, 1, .gaon, [⟨0, 32, .ro, 0⟩]⟩

theorem at_H_TIME_LO : findReg 0x101000 = some (row_H_TIME_LO, 0, 0) := by decide +kernel

/-- The row of TRACE_DATA. -/
abbrev row_TRACE_DATA : RegRow :=
  ⟨.TRACE_DATA, 0x20044, 4, 1, 4, 1, .xbar, [⟨0, 32, .ro, 0⟩]⟩

theorem at_TRACE_DATA : findReg 0x20044 = some (row_TRACE_DATA, 0, 0) := by decide +kernel

/-- The row of EPOCH_PERIOD. -/
abbrev row_EPOCH_PERIOD : RegRow :=
  ⟨.EPOCH_PERIOD, 0x1008, 4, 1, 4, 1, .xbar, [⟨0, 24, .rw, 0xFA0⟩]⟩

theorem at_EPOCH_PERIOD : findReg 0x1008 = some (row_EPOCH_PERIOD, 0, 0) := by decide +kernel

/-- The row of LOAD_CTRL. -/
abbrev row_LOAD_CTRL : RegRow :=
  ⟨.LOAD_CTRL, 0x20000, 4, 1, 4, 1, .xbar, [⟨0, 1, .rw, 0⟩, ⟨1, 1, .rw, 0⟩, ⟨2, 1, .rw, 0⟩]⟩

theorem at_LOAD_CTRL : findReg 0x20000 = some (row_LOAD_CTRL, 0, 0) := by decide +kernel

/-- The row of H_LOAD_CTRL. -/
abbrev row_H_LOAD_CTRL : RegRow :=
  ⟨.H_LOAD_CTRL, 0x120000, 4, 1, 4, 1, .gate, [⟨0, 1, .rw, 0⟩, ⟨1, 1, .rw, 0⟩, ⟨2, 1, .rw, 0⟩]⟩

theorem at_H_LOAD_CTRL : findReg 0x120000 = some (row_H_LOAD_CTRL, 0, 0) := by decide +kernel

/-- The row of LOAD_DATA. -/
abbrev row_LOAD_DATA : RegRow :=
  ⟨.LOAD_DATA, 0x20004, 4, 1, 4, 1, .xbar, [⟨0, 32, .rw, 0⟩]⟩

theorem at_LOAD_DATA : findReg 0x20004 = some (row_LOAD_DATA, 0, 0) := by decide +kernel

/-- The row of H_LOAD_DATA. -/
abbrev row_H_LOAD_DATA : RegRow :=
  ⟨.H_LOAD_DATA, 0x120004, 4, 1, 4, 1, .gate, [⟨0, 32, .rw, 0⟩]⟩

theorem at_H_LOAD_DATA : findReg 0x120004 = some (row_H_LOAD_DATA, 0, 0) := by decide +kernel

/-- The row of DT_CTRL. -/
abbrev row_DT_CTRL : RegRow :=
  ⟨.DT_CTRL, 0x20020, 4, 1, 4, 1, .xbar, [⟨0, 2, .rw, 0⟩, ⟨2, 1, .rw, 0⟩, ⟨3, 1, .rw, 0⟩]⟩

theorem at_DT_CTRL : findReg 0x20020 = some (row_DT_CTRL, 0, 0) := by decide +kernel

/-- The row of BAR_CTRL. -/
abbrev row_BAR_CTRL : RegRow :=
  ⟨.BAR_CTRL, 0xF600, 4, 1, 4, 1, .xbar, [⟨0, 1, .rw, 0⟩, ⟨4, 8, .rw, 0x40⟩, ⟨12, 8, .rw, 0x10⟩]⟩

theorem at_BAR_CTRL : findReg 0xf600 = some (row_BAR_CTRL, 0, 0) := by decide +kernel

/-- The row of SLC_CMD. -/
abbrev row_SLC_CMD : RegRow :=
  ⟨.SLC_CMD, 0x100110, 4, 1, 4, 1, .gate, [⟨0, 8, .rw, 0⟩, ⟨8, 3, .rw, 0⟩, ⟨31, 1, .rw, 0⟩]⟩

theorem at_SLC_CMD : findReg 0x100110 = some (row_SLC_CMD, 0, 0) := by decide +kernel

/-- The row of H_RST_REQ. -/
abbrev row_H_RST_REQ : RegRow :=
  ⟨.H_RST_REQ, 0x10F590, 4, 1, 4, 1, .gaon, [⟨0, 3, .rw, 0⟩, ⟨3, 6, .rw, 0⟩, ⟨31, 1, .rw, 0⟩]⟩

theorem at_H_RST_REQ : findReg 0x10f590 = some (row_H_RST_REQ, 0, 0) := by decide +kernel

/-- The row of EDW_CTRL. -/
abbrev row_EDW_CTRL : RegRow :=
  ⟨.EDW_CTRL, 0x21000, 4, 1, 4, 1, .edw, [⟨0, 1, .rw, 0⟩]⟩

theorem at_EDW_CTRL : findReg 0x21000 = some (row_EDW_CTRL, 0, 0) := by decide +kernel

/-- The row of PWR_REQ. -/
abbrev row_PWR_REQ : RegRow :=
  ⟨.PWR_REQ, 0xF560, 4, 1, 4, 1, .aon, [⟨0, 5, .rw, 0⟩, ⟨5, 1, .rw, 0⟩, ⟨31, 1, .rw, 0⟩]⟩

theorem at_PWR_REQ : findReg 0xf560 = some (row_PWR_REQ, 0, 0) := by decide +kernel

/-- The row of H_PWR_REQ. -/
abbrev row_H_PWR_REQ : RegRow :=
  ⟨.H_PWR_REQ, 0x10F560, 4, 1, 4, 1, .gaon, [⟨0, 5, .rw, 0⟩, ⟨5, 1, .rw, 0⟩, ⟨31, 1, .rw, 0⟩]⟩

theorem at_H_PWR_REQ : findReg 0x10f560 = some (row_H_PWR_REQ, 0, 0) := by decide +kernel

/-- The row of SLEEP_CTRL. -/
abbrev row_SLEEP_CTRL : RegRow :=
  ⟨.SLEEP_CTRL, 0xF580, 4, 1, 4, 1, .aon, [⟨0, 1, .rw, 0⟩]⟩

theorem at_SLEEP_CTRL : findReg 0xf580 = some (row_SLEEP_CTRL, 0, 0) := by decide +kernel

/-- The row of TRACE_RDPTR. -/
abbrev row_TRACE_RDPTR : RegRow :=
  ⟨.TRACE_RDPTR, 0x20050, 4, 1, 4, 1, .xbar, [⟨0, 13, .rw, 0⟩, ⟨13, 16, .ro, 0⟩]⟩

theorem at_TRACE_RDPTR : findReg 0x20050 = some (row_TRACE_RDPTR, 0, 0) := by decide +kernel

/-- The row of TRACE_CTRL. -/
abbrev row_TRACE_CTRL : RegRow :=
  ⟨.TRACE_CTRL, 0x20040, 4, 1, 4, 1, .xbar, [⟨0, 1, .rw, 0⟩, ⟨1, 1, .rw, 0⟩, ⟨2, 4, .rw, 0⟩, ⟨6, 11, .rw, 0⟩, ⟨17, 1, .rw, 0⟩, ⟨18, 1, .rw, 0⟩]⟩

theorem at_TRACE_CTRL : findReg 0x20040 = some (row_TRACE_CTRL, 0, 0) := by decide +kernel

/-- The row of TEST_CTRL. -/
abbrev row_TEST_CTRL : RegRow :=
  ⟨.TEST_CTRL, 0x20060, 4, 1, 4, 1, .xbar, [⟨0, 1, .rw, 0⟩, ⟨1, 1, .rw, 0⟩, ⟨2, 5, .rw, 0⟩, ⟨7, 1, .rw, 0⟩, ⟨8, 1, .rc, 0⟩, ⟨9, 1, .rw, 0⟩]⟩

theorem at_TEST_CTRL : findReg 0x20060 = some (row_TEST_CTRL, 0, 0) := by decide +kernel

-- accesses by the register port of the field instance

theorem port_of {a : Access} (h : a.atPort = true) : a.via = .port := beq_iff_eq.mp h
theorem dbg_of {a : Access} (h : a.atPort = true) : a.debug = a.dbg := by unfold Access.debug; rw [port_of h]; cases a.dbg <;> rfl
theorem mid_of {a : Access} (h : a.atPort = true) : a.master = a.mid.toNat := by unfold Access.master; rw [port_of h]
theorem host_of {a : Access} (h : a.atPort = true) : a.host = false := by unfold Access.host; rw [port_of h]; rfl
theorem host_bar0 {a : Access} (h : a.via = .bar0) : a.host = true ∧ a.debug = false ∧ a.master = 0 := by
  unfold Access.host Access.debug Access.master; rw [h]; cases a.dbg <;> exact ⟨rfl, rfl, rfl⟩
theorem bare_reaches {s : State} {a : Access} {addr : Nat} (h : reaches s a addr) : reaches s.bare a addr := ⟨h.1, h.2⟩
theorem bare_lands {s : State} {a : Access} {addr : Nat} (h : lands s a addr) : lands s.bare a addr := ⟨h.1, h.2⟩

/-- The state that a read of a word leaves, but for the response. -/
def readLeaves (s : State) (a : Access) (p : Spot) : State :=
  if a.debug || !islandOn s p then s else readEffect a p .clean (clearRC p s)

/-- A read of a word: its response, and what it leaves. -/
theorem doRead_eq {s : State} {a : Access} {addr : Nat} {p : Spot} {ok : Bool} (ho : ok = true) (h : reaches s a addr)
    (hp : locate s.bare a.via addr = some p) (hv : p.view = .active) (hn : p.row.id ≠ .BANK) : doRead ok a addr s = .next {
      (readLeaves s.bare a p).emit (.reg a.via (BitVec.ofNat 32 (readWord s.bare a p .clean)) none) with pending := s.pending } := by
  refine runWf_eq ho ?_
  rw [readReg_reaches (bare_reaches h) hp hv]
  dsimp only
  rw [show (p.row.id == RegId.BANK) = false from beq_false_of_ne hn, show (Ecc.clean == Ecc.uncorrectable) = false from rfl]
  unfold respond
  simp only [Bool.and_false, Bool.false_and, Bool.false_eq_true, ↓reduceIte]
  rfl

theorem readLeaves_keeps {s : State} {a : Access} {p : Spot} {w : List Part} (h : Keeps w s (readEffect a p .clean (clearRC p s))) :
    Keeps w s (readLeaves s a p) := Keeps.ite Keeps.refl h

theorem next_of {o : Host.Outcome State Fault Refusal} {u : State} {P : State → Prop} (h : o = .next u) (hp : P u) : ∃ t, o = .next t ∧ P t := ⟨u, h, hp⟩

theorem emit_keeps {w : List Part} {s u : State} (o : PortOut) (h : Keeps w s.bare u) (h2 : Part.out ∉ w := by decide) :
    ({ u.emit o with pending := s.pending } : State).out = [o] ∧ Keeps (.out :: w) s { u.emit o with pending := s.pending } := by
  refine ⟨(show u.out ++ [o] = [o] from ?_), ?_⟩
  · rw [show u.out = [] from h.same .out h2]; rfl
  · refine Keeps.bare (w := .out :: w) (Keeps.trans (w := .out :: w) (Keeps.mono h (List.subset_cons_self ..)) ⟨fun p hp => ?_⟩) (List.subset_cons_of_subset _ (List.Subset.refl _))
    cases p <;> first | rfl | exact absurd (List.mem_cons_self ..) hp

/-- A read of a word of the field die by the register port. -/
theorem port_read {s : State} {a : Access} {addr : Nat} {r : RegRow} {i j : Nat} (ha : a.atPort = true) (h : reaches s a addr) (hl : addr < 0x30000)
    (hb : addr / 0x20 ≠ 0x7B0) (hf : findReg addr = some (r, i, j)) (hn : r.id ≠ .BANK) : doRead a.atPort a addr s = .next {
      (readLeaves s.bare a ⟨r, i, j, addr, .active⟩).emit (.reg a.via (BitVec.ofNat 32 (readWord s.bare a ⟨r, i, j, addr, .active⟩ .clean)) none) with pending := s.pending } :=
  doRead_eq ha h (locate_field (by rw [port_of ha]; decide) (by rw [port_of ha]; decide) hl hb hf) rfl hn

theorem ofNat_mod32 (v : Nat) : BitVec.ofNat 32 (v % 2 ^ 32) = BitVec.ofNat 32 v := BitVec.eq_of_toNat_eq (by simp)

/-- The value of a word with one field, which follows the machine's state. -/
theorem wordOf_one (v : Nat) : wordOf [⟨0, 32, .ro, 0⟩] (fun _ => v % 2 ^ 32) = v % 2 ^ 32 := by
  unfold wordOf
  simp

theorem lockRead_fst (i : Nat) (mid : BitVec 4) (dbg : Bool) (s : State) : (lockRead i mid dbg s).1 =
    if ((s.lockOf i).held || dbg || (lockHeldBy s mid).isSome) = true then lockWord (s.lockOf i) false
    else lockWord { s.lockOf i with owner := mid, held := true, set := [], ovf := false, since := s.time.now } true := by
  unfold lockRead
  dsimp only
  split <;> rfl

theorem readWord_bare (s : State) (a : Access) (p : Spot) (ecc : Ecc) : readWord s.bare a p ecc = readWord s a p ecc := by
  unfold readWord
  have e : (lockRead p.i a.mid a.debug s.bare).1 = (lockRead p.i a.mid a.debug s).1 := by
    rw [lockRead_fst, lockRead_fst]
    rfl
  rw [e]
  simp only [bare_activeWord, bare_islandOn]
  rfl

theorem wordOf_congr {l : List FldSpec} {v v' : FldSpec → Nat} (h : ∀ f ∈ l, v f = v' f) : wordOf l v = wordOf l v' := by
  unfold wordOf
  rw [List.map_congr_left fun f hf => by rw [h f hf]]

/-- The word that a field-die row shows where the island answers. -/
theorem readWord_live (s : State) (a : Access) {p : Spot} (h : p.row.id ≠ .BANK) (h1 : p.row.id ≠ .LOCK) (h2 : p.row.id ≠ .TRACE_DATA)
    (hi : islandOn s p = true) (ecc : Ecc) : readWord s a p ecc = wordOf p.row.flds (fieldValue s (live s a.master p) p) := by
  unfold readWord activeWord
  split <;> first | (rename_i q; first | exact absurd q h | exact absurd q h1 | exact absurd q h2) | skip
  rw [if_neg (by rw [hi]; decide)]
  split <;> first | (rename_i q; first | exact absurd q h | exact absurd q h1 | exact absurd q h2) | rfl

theorem live_field (s : State) (m : Nat) {p : Spot} (h : p.off < 0x100000) :
    live s m p = live1 s m p.off p.row.id p.i p.j ++ live2 s p.row.id p.i ++ live3 s m p.off p.row.id p.i := by
  unfold live
  rw [if_neg (by omega)]

theorem bits_join (v a w : Nat) : v % 2 ^ a + bits v a w * 2 ^ a = v % 2 ^ (a + w) := by
  unfold bits
  rw [Nat.pow_add, Nat.mod_mul, Nat.mul_comm]

theorem bits_lt (v a w : Nat) : bits v a w % 2 ^ w = bits v a w := Nat.mod_mod ..

/-- Where fields that follow each other without a gap from bit a end. -/
def tiles (a : Nat) : List FldSpec → Option Nat
  | [] => some a
  | f :: l => if f.lo = a then tiles (a + f.w) l else none

theorem wordOf_tiles (v : Nat) (l : List FldSpec) : ∀ (a : Nat) {b : Nat}, tiles a l = some b →
    v % 2 ^ a + wordOf l (fun f => bits v f.lo f.w % 2 ^ f.w) = v % 2 ^ b := by
  induction l with
  | nil => intro a b h; cases h; exact Nat.add_zero _
  | cons f l ih =>
    intro a b h
    unfold tiles at h
    split at h
    · rename_i e
      have := ih _ h
      rw [← this, ← bits_join]
      unfold wordOf
      rw [List.map_cons, List.sum_cons]
      dsimp only
      rw [bits_lt, e]
      omega
    · exact nomatch h

end Sys2Proof.Machine
end

