-- ==== Sys2Proof/Laws/Writes.lean ====
section
/-! SUPPORT. Lemmas on register writes and what they do. -/

set_option maxHeartbeats 1000000

namespace Sys2Proof.Machine

/-- A register write whose effect is known: its response, and what it leaves. -/
theorem doWrite_done {s u : State} {a : Access} {addr w : Nat} {p : Spot} {ok : Bool} (ho : ok = true) (h : lands s a addr)
    (hp : locate s.bare a.via addr = some p) (hd : performWrite a addr p (BitVec.ofNat 32 w) s.bare = .done u) :
    doWrite ok a addr w s = .next { respond a true 0 none u with pending := s.pending } :=
  runWf_eq ho (writeReg_lands (bare_lands h) hp hd)

theorem doWrite_refused {s u : State} {a : Access} {addr w c : Nat} {p : Spot} {ok : Bool} (ho : ok = true) (h : lands s a addr)
    (hp : locate s.bare a.via addr = some p) (hd : performWrite a addr p (BitVec.ofNat 32 w) s.bare = .err c u) :
    doWrite ok a addr w s = .next { busError a addr c true u with pending := s.pending } :=
  runWf_eq ho (writeReg_refused (bare_lands h) hp hd)

/-- The response to a write leaves what the write left. -/
theorem answered {w : List Part} {s u : State} (a : Access) (h : Keeps w s.bare u) :
    Keeps (.out :: w) s { respond a true 0 none u with pending := s.pending } := by
  refine Keeps.bare (w := .out :: w) (Keeps.trans (w := .out :: w) (Keeps.mono h (List.subset_cons_self ..)) (Keeps.mono (respond_keeps ..) ?_)) (List.subset_cons_of_subset _ (List.Subset.refl _))
  intro x hx
  rw [List.mem_singleton.mp hx]
  exact List.mem_cons_self ..

/-- The response to a write that sends nothing itself. -/
theorem answered_out {s u : State} (a : Access) (h : u.out = []) :
    ({ respond a true 0 none u with pending := s.pending } : State).out = if a.host then [] else [.reg a.via 0 none] := by
  show (respond a true 0 none u).out = _
  rw [respond_out, h, Bool.and_true]
  rfl

/-- A part other than the outputs and the queue is after the response what the write left. -/
theorem answered_same {s u : State} (a : Access) (p : Part) (h : p ≠ .out) (h1 : p ≠ .pending) : p.same u { respond a true 0 none u with pending := s.pending } :=
  (show Keeps [.out, .pending] u { respond a true 0 none u with pending := s.pending } from
    ⟨fun q hq => by
      have := (respond_keeps a true 0 none u).same q (by intro x; exact hq (by rw [List.mem_singleton.mp x]; exact List.mem_cons_self ..))
      cases q <;> first | exact this | exact absurd (List.mem_cons_of_mem _ (List.mem_cons_self ..)) hq⟩).same p (by simp [h, h1])

theorem answered_rd {s u : State} (a : Access) (f : Fld) : ({ respond a true 0 none u with pending := s.pending } : State).rd f = u.rd f := by
  unfold respond State.emit
  split <;> rfl

/-- The word is stored as it is written: none of its fields is a command or held elsewhere. -/
theorem putFields_does {p : Spot} (h : p.row ∈ regRows) (ho : ownWords.contains p.row.id = false) (h0 : p.row.id ≠ .THAW0_LO) (h1 : p.row.id ≠ .THAW0_HI)
    (w : Nat) (s : State) : Keeps [.regs] s (putFields p w s) ∧
    (∀ f ∈ p.row.flds, f.acc = .rw → commandBits.contains (p.row.id, f.lo) = false → (putFields p w s).rd (f.at p.off) = bits w f.lo f.w) ∧
    (∀ g : Fld, (∀ f ∈ p.row.flds, f.acc = .rw → commandBits.contains (p.row.id, f.lo) = false → g.key ≠ (f.at p.off).key) → (putFields p w s).rd g = s.rd g) := by
  have e : putFields p w s = s.each (p.row.flds.filter fun f => f.acc == .rw && !commandBits.contains (p.row.id, f.lo)) fun f s => s.wr (f.at p.off) (bits w f.lo f.w) := by
    unfold putFields
    rw [if_neg]
    rw [ho, show (p.row.id == RegId.THAW0_LO) = false from beq_false_of_ne h0, show (p.row.id == RegId.THAW0_HI) = false from beq_false_of_ne h1]
    simp
  rw [e]
  have := each_wr_rd p.off (fun f => bits w f.lo f.w) _ ((rows_lo _ h).filter fun f => f.acc == .rw && !commandBits.contains (p.row.id, f.lo)) s
  refine ⟨each_wr_keeps p.off (fun f => bits w f.lo f.w) _ s, fun f hf ha hc => ?_, fun g hg => ?_⟩
  · exact (this.1 f (List.mem_filter.mpr ⟨hf, by rw [ha, hc]; rfl⟩)).trans (bits_lt ..)
  · refine this.2 g fun f hf => ?_
    have hf := List.mem_filter.mp hf
    rw [Bool.and_eq_true, Bool.not_eq_true'] at hf
    exact hg f hf.1 (beq_iff_eq.mp hf.2.1) hf.2.2

/-- A write of a plain word stores its fields and does nothing else. -/
theorem effects_none (a : Access) {p : Spot} (w : Nat) (old s : State) (h : p.row.id ∉ writeActs) : (effect1 a p w old s).bind (effect2 p w old) = some s := by
  have h1 : effect1 a p w old s = some s := by
    unfold effect1
    dsimp only
    split <;> first | rfl | (rename_i q; exact absurd (by rw [q]; decide) h)
  have h2 : effect2 p w old s = some s := by
    unfold effect2
    dsimp only
    split <;> first | rfl | (rename_i q; exact absurd (by rw [q]; decide) h)
  rw [h1]
  exact h2

theorem ownWords_plain {id : RegId} (h : id ∉ writeActs) : ownWords.contains id = false := by
  cases id <;> first | rfl | exact absurd (by decide) h

theorem sealed_plain {id : RegId} (h : id ∉ writeActs) : sealedWord id = false := by
  cases id <;> first | rfl | exact absurd (by decide) h

theorem command_plain {id : RegId} (h : id ∉ writeActs) (k : Nat) : commandBits.contains (id, k) = false := by
  rw [List.contains_eq_any_beq, List.any_eq_false]
  intro x hx q
  have q := beq_iff_eq.mp q
  subst q
  have : ∀ x ∈ commandBits, x.1 ∈ writeActs := by decide
  exact h (this _ hx)

-- the staged copy

theorem each_stage_rd (off : Nat) (v : FldSpec → Nat) (l : List FldSpec) (hl : l.Pairwise (fun f g => f.lo ≠ g.lo)) (s : State) :
    Keeps [.staged] s (s.each l fun f s => s.stage (f.at off) (v f)) ∧
    (∀ f ∈ l, (s.each l fun f s => s.stage (f.at off) (v f)).rdStaged (f.at off) = v f % 2 ^ f.w) ∧
    (∀ g : Fld, (∀ f ∈ l, g.key ≠ (f.at off).key) → (s.each l fun f s => s.stage (f.at off) (v f)).rdStaged g = s.rdStaged g) := by
  refine ⟨Keeps.each (fun a s => ⟨fun p hp => by cases p <;> first | rfl | simp at hp⟩) Keeps.refl, ?_⟩
  have one (s : State) (f : Fld) (x : Nat) : (s.stage f x).rdStaged f = x % 2 ^ f.w := by
    unfold State.rdStaged State.stage
    dsimp only
    rw [tget_tset_same]
    rfl
  have ne (s : State) (f g : Fld) (x : Nat) (h : g.key ≠ f.key) : (s.stage f x).rdStaged g = s.rdStaged g := by
    unfold State.rdStaged State.stage
    dsimp only
    rw [tget_tset_ne _ _ _ _ h]
    rfl
  unfold State.each
  induction l generalizing s with
  | nil => exact ⟨nofun, fun _ _ => rfl⟩
  | cons a l ih =>
    rw [List.pairwise_cons] at hl
    obtain ⟨i1, i2⟩ := ih hl.2 (s.stage (a.at off) (v a))
    refine ⟨fun f hf => ?_, fun g hg => ?_⟩
    · rw [List.foldl_cons]
      rcases List.mem_cons.mp hf with rfl | hf
      · rw [i2 _ fun g hg => key_ne off (hl.1 g hg)]
        exact one ..
      · exact i1 f hf
    · rw [List.foldl_cons, i2 g fun f hf => hg f (List.mem_cons_of_mem _ hf)]
      exact ne _ _ _ _ (hg a (List.mem_cons_self ..))

theorem locate_find {s : State} {v : Via} {addr : Nat} {p : Spot} (h : locate s v addr = some p) : findReg p.off = some (p.row, p.i, p.j) := by
  have go (b off : Nat) (view : View) (h : (if b = 0 && !s.isDie0 && off / 0x20 == 0x7B0 then none
      else (findReg (b + off)).map fun r => (⟨r.1, r.2.1, r.2.2, b + off, view⟩ : Spot)) = some p) : findReg p.off = some (p.row, p.i, p.j) := by
    split at h
    · exact nomatch h
    · cases hf : findReg (b + off) with
      | none => rw [hf] at h; exact nomatch h
      | some x =>
        rw [hf] at h
        simp only [Option.map_some, Option.some.injEq] at h
        rw [← h]
        exact hf
  unfold locate at h
  dsimp only at h
  split at h
  · exact go _ _ _ h
  · split at h
    · exact go _ _ _ h
    · split at h
      · exact go _ _ _ h
      · exact nomatch h

/-- A word enters the staged copy: its WS fields, and nothing else. -/
theorem stageWord_does {p : Spot} (h : findReg p.off = some (p.row, p.i, p.j)) (w : Nat) (s : State) : Keeps [.staged] s (stageWord p.off w s) ∧
    (∀ f ∈ p.row.flds, f.acc = .ws → (stageWord p.off w s).rdStaged (f.at p.off) = bits w f.lo f.w) ∧
    (∀ g : Fld, (∀ f ∈ p.row.flds, f.acc = .ws → g.key ≠ (f.at p.off).key) → (stageWord p.off w s).rdStaged g = s.rdStaged g) := by
  have e : stageWord p.off w s = s.each (p.row.flds.filter (·.acc == .ws)) fun f s => s.stage (f.at p.off) (bits w f.lo f.w) := by
    unfold stageWord
    rw [h]
  rw [e]
  obtain ⟨a, b, c⟩ := each_stage_rd p.off (fun f => bits w f.lo f.w) _ ((rows_lo _ (findReg_mem h)).filter (·.acc == .ws)) s
  refine ⟨a, fun f hf ha => ?_, fun g hg => ?_⟩
  · exact (b f (List.mem_filter.mpr ⟨hf, by rw [ha]; rfl⟩)).trans (bits_lt ..)
  · refine c g fun f hf => ?_
    have hf := List.mem_filter.mp hf
    exact hg f hf.1 (beq_iff_eq.mp hf.2)

-- the bits of a word

theorem bit_add (x k j : Nat) (h : bit x k = false) (hj : j ≠ k) : bit (x + 2 ^ k) j = bit x j := by
  unfold bit at h ⊢
  have h0 : x / 2 ^ k % 2 = 0 := by
    have := beq_eq_false_iff_ne.mp h
    omega
  rcases Nat.lt_or_gt_of_ne hj with q | q
  · have : (x + 2 ^ k) / 2 ^ j = x / 2 ^ j + 2 * 2 ^ (k - j - 1) := by
      have e : 2 ^ k = 2 ^ j * (2 * 2 ^ (k - j - 1)) := by
        rw [← Nat.pow_succ', ← Nat.pow_add]
        congr 1
        omega
      rw [e, Nat.add_mul_div_left _ _ (Nat.two_pow_pos j)]
    rw [this]
    congr 1
    omega
  · have e : (x + 2 ^ k) / 2 ^ (k + 1) = x / 2 ^ (k + 1) := by
      rw [Nat.pow_succ, ← Nat.div_div_eq_div_mul, ← Nat.div_div_eq_div_mul, Nat.add_div_right _ (Nat.two_pow_pos k)]
      omega
    have e2 (y : Nat) : y / 2 ^ j = y / 2 ^ (k + 1) / 2 ^ (j - (k + 1)) := by
      rw [Nat.div_div_eq_div_mul, ← Nat.pow_add]
      congr 2
      omega
    rw [e2 (x + 2 ^ k), e, ← e2]

theorem bit_add_same (x k : Nat) (h : bit x k = false) : bit (x + 2 ^ k) k = true := by
  unfold bit at h ⊢
  rw [Nat.add_div_right _ (Nat.two_pow_pos k)]
  have := beq_eq_false_iff_ne.mp h
  exact beq_iff_eq.mpr (by omega)

theorem le_of_bit (x k : Nat) (h : bit x k = true) : 2 ^ k ≤ x := by
  unfold bit at h
  rcases Nat.lt_or_ge x (2 ^ k) with q | q
  · rw [Nat.div_eq_of_lt q] at h; exact nomatch h
  · exact q

theorem bit_sub_same (x k : Nat) (h : bit x k = true) : bit (x - 2 ^ k) k = false := by
  have hl := le_of_bit x k h
  unfold bit at h ⊢
  have e : x / 2 ^ k = (x - 2 ^ k) / 2 ^ k + 1 := by
    conv => lhs; rw [← Nat.sub_add_cancel hl]
    exact Nat.add_div_right _ (Nat.two_pow_pos k)
  have h := beq_iff_eq.mp h
  exact beq_eq_false_iff_ne.mpr (by omega)

theorem bit_sub (x k j : Nat) (h : bit x k = true) (hj : j ≠ k) : bit (x - 2 ^ k) j = bit x j := by
  have := bit_add (x - 2 ^ k) k j (bit_sub_same x k h) hj
  rw [Nat.sub_add_cancel (le_of_bit x k h)] at this
  exact this.symm

-- accesses of the staged view, and errors

theorem locate_staged {s : State} {v : Via} {off : BitVec 16} {p : Spot} (h : locate s v (0x30000 + off.toNat) = some p) (hv : v ≠ .bar2) :
    p.view = .staged := by
  have key (c : Bool) (o : Option (RegRow × Nat × Nat)) (x : Nat) : (if c = true then none else o.map fun r => (⟨r.1, r.2.1, r.2.2, x, .staged⟩ : Spot)) = some p → p.view = .staged := by
    cases c
    · intro h
      obtain ⟨x, -, hx⟩ := Option.map_eq_some_iff.mp h
      rw [← hx]
    · exact nofun
  have := off.isLt
  unfold locate at h
  dsimp only at h
  rw [if_neg (by rintro (q | q); exacts [hv q, by omega]), if_pos (by omega)] at h
  exact key _ _ _ h

theorem lands_ws {s : State} {a : Access} {addr : Nat} {p : Spot} (h : lands s a addr) (hp : locate s a.via addr = some p) (hv : p.view = .staged) :
    p.row.has .ws = true := by
  have := h.2.1
  unfold writeCause at this
  split at this
  · exact nomatch this
  · rw [hp] at this
    dsimp only at this
    cases x : p.row.has .ws with
    | true => rfl
    | false =>
      have hn : noWrite p = true := by unfold noWrite; rw [hv]; dsimp only; rw [x]; rfl
      rw [hn] at this
      (repeat' split at this) <;> first | (cases this; done) | (rename_i q; exact absurd rfl q)

theorem answered_staged {s u : State} (a : Access) (f : Fld) : ({ respond a true 0 none u with pending := s.pending } : State).rdStaged f = u.rdStaged f := by
  unfold respond State.emit
  split <;> rfl

/-- A bus error changes no field but those of BUSERR. -/
theorem busError_rd (a : Access) (addr cause : Nat) (wr : Bool) (s : State) (f : Fld) (h : f.off ≠ 0x1C ∧ f.off ≠ 0x10001C) (hl : f.lo < 32) :
    (busError a addr cause wr s).rd f = s.rd f := by
  unfold busError
  dsimp only
  have ne (n w : Nat) (hn : n < 32) : f.key ≠ (⟨if a.host = true then 0x10001C else 0x1C, n, w, 0⟩ : Fld).key := by
    unfold Fld.key
    dsimp only
    cases a.host
    · rw [if_neg (by decide)]; omega
    · rw [if_pos rfl]; omega
  refine (show State.rd (respond _ _ _ _ _) f = State.rd _ f by unfold respond State.emit; split <;> rfl).trans ?_
  rw [State.rd_wr_ne _ _ (ne 31 _ (by decide)), State.rd_wr_ne _ _ (ne 28 _ (by decide)), State.rd_wr_ne _ _ (ne 27 _ (by decide)), State.rd_wr_ne _ _ (ne 24 _ (by decide)),
    State.rd_wr_ne _ _ (ne 20 _ (by decide)), State.rd_wr_ne _ _ (ne 0 _ (by decide))]

-- writes of words without WS and W1 fields

/-- A write of such a word of the field die, by the register port or a core's own interface. -/
theorem plain_write {s u : State} {a : Access} {addr w : Nat} {r : RegRow} {i j : Nat} {ok : Bool} (ho : ok = true) (ha : a.via ≠ .bar0) (ha2 : a.via ≠ .bar2)
    (h : lands s a addr) (hl : addr < 0x30000) (hb : addr / 0x20 ≠ 0x7B0) (hf : findReg addr = some (r, i, j)) (hw : w < 2 ^ 32)
    (h1 : sealedWord r.id = false) (h2 : r.id ≠ .LOAD_DATA) (h3 : r.id ≠ .H_LOAD_DATA) (h4 : r.has .ws = false) (h5 : r.has .w1 = false)
    (he : (effect1 a ⟨r, i, j, addr, .active⟩ w s.bare (putFields ⟨r, i, j, addr, .active⟩ w s.bare)).bind (effect2 ⟨r, i, j, addr, .active⟩ w s.bare) = some u) :
    doWrite ok a addr w s = .next { respond a true 0 none u with pending := s.pending } := by
  refine doWrite_done ho h (locate_field ha ha2 hl hb hf) ?_
  show writeActive a addr ⟨r, i, j, addr, .active⟩ (BitVec.ofNat 32 w) true s.bare = _
  rw [writeActive_eq true h1 h2 h3 h4 h5, BitVec.toNat_ofNat, Nat.mod_eq_of_lt hw, he]

theorem plain_refused {s : State} {a : Access} {addr w : Nat} {r : RegRow} {i j : Nat} {ok : Bool} (ho : ok = true) (ha : a.via ≠ .bar0) (ha2 : a.via ≠ .bar2)
    (h : lands s a addr) (hl : addr < 0x30000) (hb : addr / 0x20 ≠ 0x7B0) (hf : findReg addr = some (r, i, j)) (hw : w < 2 ^ 32)
    (h1 : sealedWord r.id = false) (h2 : r.id ≠ .LOAD_DATA) (h3 : r.id ≠ .H_LOAD_DATA) (h4 : r.has .ws = false) (h5 : r.has .w1 = false)
    (he : (effect1 a ⟨r, i, j, addr, .active⟩ w s.bare (putFields ⟨r, i, j, addr, .active⟩ w s.bare)).bind (effect2 ⟨r, i, j, addr, .active⟩ w s.bare) = none) :
    doWrite ok a addr w s = .next { busError a addr 6 true s.bare with pending := s.pending } := by
  refine doWrite_refused ho h (locate_field ha ha2 hl hb hf) ?_
  show writeActive a addr ⟨r, i, j, addr, .active⟩ (BitVec.ofNat 32 w) true s.bare = _
  rw [writeActive_eq true h1 h2 h3 h4 h5, BitVec.toNat_ofNat, Nat.mod_eq_of_lt hw, he]

/-- The response leaves everything else. -/
theorem answered_from {s u : State} (a : Access) : Keeps [.out, .pending] u { respond a true 0 none u with pending := s.pending } :=
  ⟨fun q hq => by
    have := (respond_keeps a true 0 none u).same q (by intro x; exact hq (by rw [List.mem_singleton.mp x]; exact List.mem_cons_self ..))
    cases q <;> first | exact this | exact absurd (List.mem_cons_of_mem _ (List.mem_cons_self ..)) hq⟩

theorem refused_does {s : State} (a : Access) (addr : Nat) (ha : a.atPort = true) :
    ({ busError a addr 6 true s.bare with pending := s.pending } : State).out = [.reg a.via 0 (some 6)] ∧
      Keeps [.out, .regs] s { busError a addr 6 true s.bare with pending := s.pending } := by
  obtain ⟨b1, b2, -⟩ := busError_does a addr 6 true s.bare (by decide)
  refine ⟨b2.trans ?_, b1.bare (by decide)⟩
  rw [host_of ha]
  rfl

theorem core_of {a : Access} {n : Fin 64} (h : a.atCore n = true) : a.via ≠ .bar0 ∧ a.via ≠ .bar2 ∧ a.host = false := by
  unfold Access.atCore at h
  rw [Bool.or_eq_true, beq_iff_eq, beq_iff_eq] at h
  unfold Access.host
  rcases h with h | h <;> rw [h] <;> exact ⟨nofun, nofun, rfl⟩

@[simp] theorem State.predOf_setPred' (s : State) (n i) (p) : (s.setPred n i p).predOf n i = p := tget_tset_same ..

theorem State.predOf_setPred_ne' (s : State) {n i k} (p) (h : k ≠ i) : (s.setPred n i p).predOf n k = s.predOf n k :=
  tget_tset_ne _ _ _ _ (by omega)

theorem predReset_pred (n i : Nat) (s : State) : (predReset n i s).predOf n i = { s.predOf n i with
    havePrev := false, conf := 0, misses := 0, nextValid := false, warm := false
    st := if (s.flag (Reg.PW_SRC_TOLD n i) && s.rd (Reg.PW_PER_PER n i) != 0) = true then .locked else .learning } := by
  unfold predReset
  dsimp only
  rw [(askFills_keeps ..).predOf_eq, State.predOf_setPred']

/-- Returning a run changes no register but the Campion's CAMP_DISC and TRACE_STAT. -/
theorem returnRun_rd (n : Nat) (s : State) (f : Fld) (h : f.off ≠ 0x2004C) (hd : f.off ≠ 0x408 + 0x10 * n) (hl : f.lo < 32) :
    (returnRun n s).rd f = s.rd f := by
  unfold returnRun
  split
  · rfl
  · refine (show _ = (discardRun n s).rd f from rfl).trans ?_
    unfold discardRun
    dsimp only
    split
    · rfl
    · refine (trace_rd _ _ _ _ f h hl).trans ?_
      unfold State.inc
      rw [wr_off _ _ (by unfold Reg.CAMP_DISC_NREP; exact hd) hl (show 16 < 32 by decide), wr_off _ _ (by unfold Reg.CAMP_DISC_DISC; exact hd) hl (show 0 < 32 by decide)]
      rfl

end Sys2Proof.Machine
end

