-- ==== Sys2Proof/Laws/Orders.lean ====
section
/-! SUPPORT. Lemmas on the register writes that command links, loads, power and the host gate. -/

set_option Elab.async false

set_option maxHeartbeats 1000000

namespace Sys2Proof.Machine

-- writes of words without WS and W1 fields, at whatever place

theorem spot_write {s u : State} {a : Access} {addr w : Nat} {p : Spot} {ok : Bool} (ho : ok = true) (h : lands s a addr)
    (hp : locate s.bare a.via addr = some p) (hv : p.view = .active) (hw : w < 2 ^ 32)
    (h1 : sealedWord p.row.id = false) (h2 : p.row.id ≠ .LOAD_DATA) (h3 : p.row.id ≠ .H_LOAD_DATA) (h4 : p.row.has .ws = false) (h5 : p.row.has .w1 = false)
    (he : (effect1 a p w s.bare (putFields p w s.bare)).bind (effect2 p w s.bare) = some u) :
    doWrite ok a addr w s = .next { respond a true 0 none u with pending := s.pending } := by
  refine doWrite_done ho h hp ?_
  unfold performWrite
  rw [hv]
  show writeActive a addr p (BitVec.ofNat 32 w) true s.bare = _
  rw [writeActive_eq true h1 h2 h3 h4 h5, BitVec.toNat_ofNat, Nat.mod_eq_of_lt hw, he]

theorem spot_refused {s : State} {a : Access} {addr w : Nat} {p : Spot} {ok : Bool} (ho : ok = true) (h : lands s a addr)
    (hp : locate s.bare a.via addr = some p) (hv : p.view = .active) (hw : w < 2 ^ 32)
    (h1 : sealedWord p.row.id = false) (h2 : p.row.id ≠ .LOAD_DATA) (h3 : p.row.id ≠ .H_LOAD_DATA) (h4 : p.row.has .ws = false) (h5 : p.row.has .w1 = false)
    (he : (effect1 a p w s.bare (putFields p w s.bare)).bind (effect2 p w s.bare) = none) :
    doWrite ok a addr w s = .next { busError a addr 6 true s.bare with pending := s.pending } := by
  refine doWrite_refused ho h hp ?_
  unfold performWrite
  rw [hv]
  show writeActive a addr p (BitVec.ofNat 32 w) true s.bare = _
  rw [writeActive_eq true h1 h2 h3 h4 h5, BitVec.toNat_ofNat, Nat.mod_eq_of_lt hw, he]

/-- What a write that is refused leaves, by whatever port. -/
theorem refused_by {s : State} (a : Access) (addr : Nat) :
    ({ busError a addr 6 true s.bare with pending := s.pending } : State).out = (if a.host then [] else [.reg a.via 0 (some 6)]) ∧
      Keeps [.out, .regs] s { busError a addr 6 true s.bare with pending := s.pending } := by
  obtain ⟨b1, b2, -⟩ := busError_does a addr 6 true s.bare (by decide)
  refine ⟨b2.trans ?_, b1.bare (by decide)⟩
  cases a.host <;> rfl

-- bits of the words that commands write

theorem bit_testBit (x k : Nat) : bit x k = x.testBit k := by
  unfold bit
  rw [Nat.testBit_eq_decide_div_mod_eq]
  cases h : decide (x / 2 ^ k % 2 = 1) <;> simp_all

theorem bits_one (x k : Nat) : bits x k 1 = b2n (bit x k) := by
  unfold bits bit b2n
  have : x / 2 ^ k % 2 = 0 ∨ x / 2 ^ k % 2 = 1 := by omega
  rcases this with h | h <;> simp [h]

theorem changed_lt (x c e : Nat) (he : e < 2 ^ 32) : x &&& (0xFFFFFFFF ^^^ c) ||| e < 2 ^ 32 ∨ 2 ^ 32 ≤ c := by
  by_cases h : 2 ^ 32 ≤ c
  · exact .inr h
  · refine .inl (Nat.or_lt_two_pow (lt_of_le_of_lt Nat.and_le_right (Nat.xor_lt_two_pow (by decide) (by omega))) he)

theorem bit_changed (x c e k : Nat) (hk : k < 32) : bit (x &&& (0xFFFFFFFF ^^^ c) ||| e) k = ((bit x k && !bit c k) || bit e k) := by
  simp only [bit_testBit, Nat.testBit_or, Nat.testBit_and, Nat.testBit_xor]
  have : Nat.testBit 0xFFFFFFFF k = true := by
    rw [show 0xFFFFFFFF = 2 ^ 32 - 1 by decide, Nat.testBit_two_pow_sub_one]
    simpa using hk
  rw [this]
  simp

-- ports

/-- A port going down leaves LNK_CTRL as it is. -/
theorem portDown_ctrl (p q cause lo w r : Nat) (off : Bool) (s : State) (_hp : p < 4) (hq : q < 4) (hl : lo < 32) :
    (portDown p cause off s).rd ⟨0xE000 + 0x100 * q, lo, w, r⟩ = s.rd ⟨0xE000 + 0x100 * q, lo, w, r⟩ := by
  obtain ⟨n, e⟩ : ∃ n, (portDown p cause off s).rd ⟨0xE000 + 0x100 * q, lo, w, r⟩ = ((noteDown p cause (peerOf s p) s).inc (Reg.LNK_SFLUSH p) n).rd ⟨0xE000 + 0x100 * q, lo, w, r⟩ := ⟨_, rfl⟩
  rw [e]
  unfold State.inc
  rw [wr_off _ _ (by unfold Reg.LNK_SFLUSH; dsimp only; omega) hl (show 0 < 32 by decide)]
  unfold noteDown
  dsimp only
  rw [raiseInt_rd _ _ _ _ (by dsimp only; omega) hl]
  unfold State.inc
  rw [wr_off _ _ (by unfold Reg.LNK_ERR2_DOWNS; dsimp only; omega) hl (show 16 < 32 by decide), wr_off _ _ (by unfold Reg.LNK_STAT_CAUSE; dsimp only; omega) hl (show 3 < 32 by decide)]

theorem lnkWritten_ctrl (p q lo w r : Nat) (down : Bool) (s : State) (hp : p < 4) (hq : q < 4) (hl : lo < 32) :
    (lnkWritten p down s).rd ⟨0xE000 + 0x100 * q, lo, w, r⟩ = s.rd ⟨0xE000 + 0x100 * q, lo, w, r⟩ := by
  unfold lnkWritten
  split
  · split
    · exact portDown_ctrl _ _ _ _ _ _ _ _ hp hq hl
    · exact (goOff_keeps ..).rd_eq ..
  · split
    · unfold downIfUp inState
      split
      · exact portDown_ctrl _ _ _ _ _ _ _ _ hp hq hl
      · rfl
    · exact (tryDetect_keeps ..).rd_eq ..

-- the loader

theorem side_of {a : Access} {d : Side} (h : a.via = sideVia d) :
    a.atWindow = true ∧ a.host = (d == .host) ∧ (if a.host then Side.host else .field) = d := by
  unfold Access.atWindow Access.host
  rw [h]
  cases d <;> exact ⟨rfl, rfl, rfl⟩

theorem rows_low {r : RegRow} (h : r ∈ regRows) : ∀ f ∈ r.flds, f.lo < 32 := by
  have : regRows.all (fun r => r.flds.all fun f => decide (f.lo < 32)) = true := by decide +kernel
  intro f hf
  simpa using List.all_eq_true.mp (List.all_eq_true.mp this r h) f hf

theorem key_off {f : Fld} {g : FldSpec} {off : Nat} (h : f.off ≠ off) (h1 : f.lo < 32) (h2 : g.lo < 32) : f.key ≠ (g.at off).key := by
  unfold Fld.key FldSpec.at
  dsimp only
  omega

/-- A write of LOAD_CTRL of a side. -/
theorem loadCtrl_write {s : State} {a : Access} {d : Side} (w : Nat) (hv : a.via = sideVia d) (h : lands s a 0x20000) :
    ∃ x, Keeps [.regs] s.bare x ∧ (∀ f : Fld, f.off ≠ 0x20000 → f.off ≠ 0x120000 → f.lo < 32 → x.rd f = s.rd f) ∧
      (∀ u, loadCtrl d (w % 2 ^ 32) x = some u → doWrite a.atWindow a 0x20000 w s = .next { respond a true 0 none u with pending := s.pending }) ∧
      (loadCtrl d (w % 2 ^ 32) x = none → doWrite a.atWindow a 0x20000 w s = .next { busError a 0x20000 6 true s.bare with pending := s.pending }) := by
  have hm : doWrite a.atWindow a 0x20000 w s = doWrite a.atWindow a 0x20000 (w % 2 ^ 32) s := by
    unfold doWrite
    rw [show BitVec.ofNat 32 w = BitVec.ofNat 32 (w % 2 ^ 32) from BitVec.eq_of_toNat_eq (by simp)]
  rw [hm]
  have hb : w % 2 ^ 32 < 2 ^ 32 := Nat.mod_lt _ (by decide)
  generalize w % 2 ^ 32 = w at hb ⊢
  have hw := (side_of hv).1
  cases d with
  | field =>
    have hl : locate s.bare a.via 0x20000 = some ⟨row_LOAD_CTRL, 0, 0, 0x20000, .active⟩ :=
      locate_field (by rw [hv]; decide) (by rw [hv]; decide) (by decide) (by decide) at_LOAD_CTRL
    obtain ⟨p1, -, p3⟩ := putFields_does (p := ⟨row_LOAD_CTRL, 0, 0, 0x20000, .active⟩) (findReg_mem at_LOAD_CTRL) rfl nofun nofun w s.bare
    exact ⟨_, p1, fun f h1 _ h3 => p3 f (fun g hg _ _ => key_off h1 h3 (rows_low (findReg_mem at_LOAD_CTRL) g hg)), fun u hu => spot_write hw h hl rfl hb (by decide) nofun nofun (by decide) (by decide) hu,
      fun hu => spot_refused hw h hl rfl hb (by decide) nofun nofun (by decide) (by decide) hu⟩
  | host =>
    have hl : locate s.bare a.via 0x20000 = some ⟨row_H_LOAD_CTRL, 0, 0, 0x120000, .active⟩ := by
      rw [hv]
      exact locate_host (by decide) at_H_LOAD_CTRL
    obtain ⟨p1, -, p3⟩ := putFields_does (p := ⟨row_H_LOAD_CTRL, 0, 0, 0x120000, .active⟩) (findReg_mem at_H_LOAD_CTRL) rfl nofun nofun w s.bare
    exact ⟨_, p1, fun f _ h1 h3 => p3 f (fun g hg _ _ => key_off h1 h3 (rows_low (findReg_mem at_H_LOAD_CTRL) g hg)), fun u hu => spot_write hw h hl rfl hb (by decide) nofun nofun (by decide) (by decide) hu,
      fun hu => spot_refused hw h hl rfl hb (by decide) nofun nofun (by decide) (by decide) hu⟩

theorem loadOf_img {s t : State} (h : t.img = s.img) (d : Side) : loadOf d t = loadOf d s := by
  unfold loadOf
  rw [h]

theorem bit_mod32 (x k : Nat) (h : k < 32) : bit (x % 2 ^ 32) k = bit x k := by
  rw [bit_testBit, bit_testBit, Nat.testBit_mod_two_pow]
  simp [h]

/-- A word of LOAD_DATA that the loader takes. -/
theorem loadData_write {s : State} {a : Access} {d : Side} (w : Word) (hv : a.via = sideVia d) (h : lands s a 0x20004) :
    doWrite a.atWindow a 0x20004 w.toNat s = .next
      (if canTake d s then { loadWord d a w s.bare with pending := s.pending } else { busError a 0x20004 6 true s.bare with pending := s.pending }) := by
  have hw := (side_of hv).1
  have hm : BitVec.ofNat 32 w.toNat = w := by simp
  have hc : canTake d s.bare = canTake d s := rfl
  have hb := bare_lands h
  cases d with
  | field =>
    have hl : locate s.bare a.via 0x20004 = some ⟨row_LOAD_DATA, 0, 0, 0x20004, .active⟩ :=
      locate_field (by rw [hv]; decide) (by rw [hv]; decide) (by decide) (by decide) at_LOAD_DATA
    have hp : performWrite a 0x20004 ⟨row_LOAD_DATA, 0, 0, 0x20004, .active⟩ w s.bare =
        if canTake .field s then .held (loadWord .field a w s.bare) else .err 6 s.bare := by
      show writeActive a 0x20004 ⟨row_LOAD_DATA, 0, 0, 0x20004, .active⟩ w true s.bare = _
      unfold writeActive
      dsimp only
      rw [if_neg (by decide), if_pos rfl, hc]
    cases q : canTake .field s with
    | true =>
      rw [q] at hp
      exact runWf_eq hw (by rw [hm]; exact writeReg_held hb hl hp)
    | false =>
      rw [q] at hp
      exact doWrite_refused hw h hl (by rw [hm]; exact hp)
  | host =>
    have hl : locate s.bare a.via 0x20004 = some ⟨row_H_LOAD_DATA, 0, 0, 0x120004, .active⟩ := by
      rw [hv]
      exact locate_host (by decide) at_H_LOAD_DATA
    have hp : performWrite a 0x20004 ⟨row_H_LOAD_DATA, 0, 0, 0x120004, .active⟩ w s.bare =
        if canTake .host s then .held (loadWord .host a w s.bare) else .err 6 s.bare := by
      show writeActive a 0x20004 ⟨row_H_LOAD_DATA, 0, 0, 0x120004, .active⟩ w true s.bare = _
      unfold writeActive
      dsimp only
      rw [if_neg (by decide), if_neg nofun, if_pos rfl, hc]
    cases q : canTake .host s with
    | true =>
      rw [q] at hp
      exact runWf_eq hw (by rw [hm]; exact writeReg_held hb hl hp)
    | false =>
      rw [q] at hp
      exact doWrite_refused hw h hl (by rw [hm]; exact hp)

theorem setLoad_gap (d : Side) (l : LoadS) (s : State) : gapHolds (setLoad d l s) = gapHolds s := by cases d <;> rfl
theorem setLoad_again (d : Side) (l l' : LoadS) (s : State) : setLoad d l' (setLoad d l s) = setLoad d l' s := by cases d <;> rfl

end Sys2Proof.Machine
end

