-- ==== Sys2Proof/Laws/Paired.lean ====
section
/-! SUPPORT. Lemmas on paired acceptance. -/

set_option maxHeartbeats 1000000

namespace Sys2Proof.Machine

theorem firnWrite_recs {r : FirnRec} {s : State} (h : firnCount s < Config.firnRecords) :
    (firnWrite r s).firn = (s.setRec (firnFree s) (some r)).firn := by
  unfold firnWrite
  rw [if_pos h]
  exact (firnNearCheck_keeps ..).same .firn (by decide)

theorem recOf_firn {s t : State} (h : t.firn = s.firn) (k) : t.recOf k = s.recOf k := by
  unfold State.recOf
  rw [h]

/-- Firn records set one by one from a list of updates. -/
theorem each_setRec_not {α : Type} {l : List α} {k : Nat} (i : α → Nat) (g : α → Option FirnRec) (h : ∀ a ∈ l, i a ≠ k) (s : State) :
    (s.each l fun a s => s.setRec (i a) (g a)).recOf k = s.recOf k := by
  unfold State.each
  induction l generalizing s with
  | nil => rfl
  | cons a l ih =>
    rw [List.foldl_cons, ih fun b hb => h b (List.mem_cons_of_mem _ hb)]
    exact State.recOf_setRec_ne _ _ (Ne.symm (h a List.mem_cons_self))

theorem tget_none_of {α} {t : Tbl (Option α)} {k : Nat} {r : α} (hw : ∀ v, (k, some v) ∉ t) : tget none t k ≠ some r := by
  induction t with
  | nil => simp [tget]
  | cons e t ih =>
    obtain ⟨j, v⟩ := e
    unfold tget
    split
    · rename_i h
      subst h
      cases v with
      | none => simp
      | some v => exact absurd List.mem_cons_self (hw v)
    · exact ih fun v hv => hw v (List.mem_cons_of_mem _ hv)

theorem mem_tdel {α} {t : Tbl α} {k : Nat} {e : Nat × α} (h : e ∈ tdel t k) : e ∈ t ∧ e.1 ≠ k := by
  simpa [tdel] using h

theorem mem_tset {α} [DecidableEq α] {d : α} {t : Tbl α} {k : Nat} {v : α} {e : Nat × α} (h : e ∈ tset d t k v) :
    (e = (k, v) ∧ v ≠ d) ∨ (e ∈ t ∧ e.1 ≠ k) := by
  unfold tset at h
  split at h
  · exact .inr (mem_tdel h)
  · rename_i hv
    rcases mem_tput h with h | h
    · exact .inl ⟨h, hv⟩
    · exact .inr (mem_tdel h)

theorem mem_firnAll {s : State} {p : FirnRec → Bool} {k : Nat} {r : FirnRec} :
    (k, r) ∈ firnAll s p ↔ (k, some r) ∈ s.firn.recs ∧ p r = true := by
  unfold firnAll
  simp only [List.mem_filterMap, Prod.exists]
  constructor
  · rintro ⟨a, b, h, h'⟩
    cases b with
    | none => simp at h'
    | some b =>
      simp only [Option.ite_none_right_eq_some, Option.some.injEq, Prod.mk.injEq] at h'
      obtain ⟨h1, h2, h3⟩ := h'
      subst h2 h3
      exact ⟨h, h1⟩
  · rintro ⟨h, h'⟩
    exact ⟨k, some r, h, by simp [h']⟩

/-- In a canonical table a listed entry is what its key reads as. -/
theorem tget_of_mem {α} [DecidableEq α] {d : α} {t : Tbl α} {k : Nat} {v : α} (hw : twf d t = true) (h : (k, v) ∈ t) : tget d t k = v := by
  induction t with
  | nil => cases h
  | cons e t ih =>
    obtain ⟨j, w⟩ := e
    obtain ⟨h1, h2, h3⟩ := twf_cons.1 hw
    unfold tget
    rcases List.mem_cons.1 h with h | h
    · obtain ⟨rfl, rfl⟩ := Prod.mk.inj h
      simp
    · rw [if_neg (by have := h2 _ h; simp only at this; omega)]
      exact ih h3 h

theorem mem_of_tget {α} {t : Tbl (Option α)} {k : Nat} {r : α} (h : tget none t k = some r) : (k, some r) ∈ t := by
  induction t with
  | nil => simp [tget] at h
  | cons e t ih =>
    obtain ⟨j, v⟩ := e
    unfold tget at h
    split at h
    · rename_i hj
      subst hj h
      exact List.mem_cons_self
    · exact List.mem_cons_of_mem _ (ih h)

theorem twf_keys_nodup {α} [DecidableEq α] {d : α} {t : Tbl α} (h : twf d t = true) : t.Pairwise fun a b => a.1 ≠ b.1 := by
  induction t with
  | nil => exact .nil
  | cons e t ih =>
    obtain ⟨k, v⟩ := e
    obtain ⟨_, h2, h3⟩ := twf_cons.1 h
    exact .cons (fun e he => by have := h2 e he; simp only; omega) (ih h3)

theorem firnAll_pairwise {s : State} {p : FirnRec → Bool} (h : twf none s.firn.recs = true) :
    (firnAll s p).Pairwise fun a b => a.1 ≠ b.1 := by
  have := twf_keys_nodup h
  unfold firnAll
  refine List.Pairwise.filterMap _ (fun a b hab x hx y hy => ?_) this
  revert hx hy
  cases ha : a.2 <;> cases hb : b.2 <;> simp
  rintro _ rfl _ rfl
  exact hab

theorem each_setRec_mem {l : List (Nat × FirnRec)} {k : Nat} {r : FirnRec} (g : FirnRec → Option FirnRec)
    (hl : l.Pairwise fun a b => a.1 ≠ b.1) (h : (k, r) ∈ l) (s : State) :
    (s.each l fun e s => s.setRec e.1 (g e.2)).recOf k = g r := by
  induction l generalizing s with
  | nil => cases h
  | cons a l ih =>
    obtain ⟨ha, hl'⟩ := List.pairwise_cons.1 hl
    show ((s.setRec a.1 (g a.2)).each l fun e s => s.setRec e.1 (g e.2)).recOf k = g r
    rcases List.mem_cons.1 h with h | h
    · subst h
      rw [each_setRec_not (fun e : Nat × FirnRec => e.1) (fun e => g e.2) (fun b hb => Ne.symm (ha b hb))]
      exact State.recOf_setRec ..
    · exact ih hl' h _

end Sys2Proof.Machine
end

