-- ==== Sys2Proof/Laws/PerInstr.lean ====
section
/-! SUPPORT. Per command: by which way its register access comes. A slice page reaches the commands of a page and plain accesses only, and a
core's own interface the commands of its own block and plain accesses only (R153, R391, R482, R496, R522). -/

namespace Sys2Proof.Laws

/-- The register access that a command carries. -/
def accessOf : Instr → Option Access
  | .claimPeek a _ => some a
  | .threshWrite a _ _ => some a
  | .predictorReset a _ _ _ _ => some a
  | .pwNextWrite a _ _ _ => some a
  | .campRfailGo a _ _ => some a
  | .timeLoRead a => some a
  | .captureRead a _ => some a
  | .epochPeriodWrite a _ => some a
  | .lnkEnable a _ => some a
  | .lnkDisable a _ => some a
  | .lnkDownCommand a _ => some a
  | .lockAcquire a _ => some a
  | .lockRel a _ => some a
  | .lockAbort a _ => some a
  | .lockBreak a _ => some a
  | .loadStart a _ => some a
  | .loadAbort a => some a
  | .loadData a _ => some a
  | .loadDataOverrun a => some a
  | .dtGo a _ _ => some a
  | .barEnable a => some a
  | .barDisable a => some a
  | .slcCreate a _ _ => some a
  | .slcOpen a _ => some a
  | .slcReset a _ => some a
  | .slcDestroy a _ => some a
  | .pgConsWrite a _ _ => some a
  | .pgArmWrite a _ _ => some a
  | .pgVwWrite a _ _ => some a
  | .hostGateSoftReset a => some a
  | .slcDirtyRead a _ _ => some a
  | .edwCtrlSeal a => some a
  | .edwDebugWrite a _ _ => some a
  | .edwLatchedRead a _ => some a
  | .pwrReqWake a _ => some a
  | .pwrReqOff a _ => some a
  | .sleepGo a => some a
  | .registerWrite a _ _ => some a
  | .stagedViewWrite a _ _ => some a
  | .bitAliasWrite a _ _ _ => some a
  | .traceDataRead a => some a
  | .traceRdptrWrite a _ => some a
  | .traceEnable a => some a
  | .testInject a _ => some a
  | .ltestStart a => some a
  | .ltestStop a => some a
  | .registerRead a _ _ => some a
  | _ => none

/-- The commands that a slice page may carry. -/
def onPage : Instr → Bool
  | .pgConsWrite .. | .pgArmWrite .. | .pgVwWrite .. | .registerRead .. | .registerWrite .. => true
  | _ => false

/-- The commands that a core's own interface may carry. -/
def onCore : Instr → Bool
  | .threshWrite .. | .predictorReset .. | .pwNextWrite .. | .registerRead .. | .registerWrite .. => true
  | _ => false

/-- A well-formed command whose access comes by a slice page is one of a page, and one whose access comes by a core's interface is one of a core. -/
def Reach.Statement (i : Instr) : Prop :=
  i.wf = true → ∀ a, accessOf i = some a → (a.via = .bar2 → onPage i = true) ∧ (∀ n, a.via = .cif n → onCore i = true)

/-- An access by the port or the manager window comes by no page and by no core. -/
theorem not_page_core {a : Access} {p q : Prop} (h : a.atWindow = true ∨ a.atBar0 = true ∨ a.atPort = true) :
    (a.via = .bar2 → p) ∧ (∀ n, a.via = .cif n → q) := by
  obtain ⟨v, m, d, b⟩ := a
  cases v <;> simp_all [Access.atWindow, Access.atBar0, Access.atPort]

/-- An access by a slice page comes by no core. -/
theorem page_only {a : Access} {p : Bool} {q : Prop} (h : a.atBar2 = true) (hp : p = true) : (a.via = .bar2 → p = true) ∧ (∀ n, a.via = .cif n → q) := by
  obtain ⟨v, m, d, b⟩ := a
  cases v <;> simp_all [Access.atBar2]

/-- An access by the port or a core's own interface comes by no page. -/
theorem core_only {a : Access} {n : Fin 64} {p : Prop} {q : Bool} (h : a.atCore n = true) (hq : q = true) :
    (a.via = .bar2 → p) ∧ (∀ m, a.via = .cif m → q = true) := by
  obtain ⟨v, m, d, b⟩ := a
  cases v <;> simp_all [Access.atCore]

theorem Reach.wiredInputEdge (x0 : Fin 1024) (x1 : Bool) (x2 : BitVec 16) (x3 : Bool) (x4 : Nat) : Reach.Statement (.wiredInputEdge x0 x1 x2 x3 x4) := by
  intro _ _ ha; cases ha
theorem Reach.levelReraise (x0 : Fin 1024) : Reach.Statement (.levelReraise x0) := by
  intro _ _ ha; cases ha
theorem Reach.windowOpen (x0 : Fin 1024) : Reach.Statement (.windowOpen x0) := by
  intro _ _ ha; cases ha
theorem Reach.messageWrite (x0 : Writer) (x1 : BitVec 5) (x2 : BitVec 12) (x3 : BitVec 16) : Reach.Statement (.messageWrite x0 x1 x2 x3) := by
  intro _ _ ha; cases ha
theorem Reach.offer : Reach.Statement (.offer) := by
  intro _ _ ha; cases ha
theorem Reach.firnRecordWrite : Reach.Statement (.firnRecordWrite) := by
  intro _ _ ha; cases ha
theorem Reach.accept : Reach.Statement (.accept) := by
  intro _ _ ha; cases ha
theorem Reach.pairMirror (x0 : PairMirror) : Reach.Statement (.pairMirror x0) := by
  intro _ _ ha; cases ha
theorem Reach.pairAckRecorded (x0 : Msg) : Reach.Statement (.pairAckRecorded x0) := by
  intro _ _ ha; cases ha
theorem Reach.pairAckRelease (x0 : Msg) : Reach.Statement (.pairAckRelease x0) := by
  intro _ _ ha; cases ha
theorem Reach.pairAckReleased (x0 : Msg) : Reach.Statement (.pairAckReleased x0) := by
  intro _ _ ha; cases ha
theorem Reach.pairAckResyncEnd (x0 : Msg) : Reach.Statement (.pairAckResyncEnd x0) := by
  intro _ _ ha; cases ha
theorem Reach.pairTimeout : Reach.Statement (.pairTimeout) := by
  intro _ _ ha; cases ha
theorem Reach.remoteVectorWrite (x0 : Msg) : Reach.Statement (.remoteVectorWrite x0) := by
  intro _ _ ha; cases ha
theorem Reach.remoteWriteResponse (x0 : Msg) : Reach.Statement (.remoteWriteResponse x0) := by
  intro _ _ ha; cases ha
theorem Reach.schedulerForward (x0 : List (Fin 24 × Ecc × Ecc)) : Reach.Statement (.schedulerForward x0) := by
  intro _ _ ha; cases ha
theorem Reach.spillBlockWrite (x0 : Fin 22) : Reach.Statement (.spillBlockWrite x0) := by
  intro _ _ ha; cases ha
theorem Reach.moraineRefill (x0 : Fin 22) (x1 : Bool) : Reach.Statement (.moraineRefill x0 x1) := by
  intro _ _ ha; cases ha
theorem Reach.arbiterDecide (x0 : Fin 23) : Reach.Statement (.arbiterDecide x0) := by
  intro _ _ ha; cases ha
theorem Reach.arbiterRevoke (x0 : Fin 23) : Reach.Statement (.arbiterRevoke x0) := by
  intro _ _ ha; cases ha
theorem Reach.arbiterWithdraw (x0 : Fin 23) (x1 : Bool) : Reach.Statement (.arbiterWithdraw x0 x1) := by
  intro _ _ ha; cases ha
theorem Reach.arbiterRefill (x0 : Fin 23) : Reach.Statement (.arbiterRefill x0) := by
  intro _ _ ha; cases ha
theorem Reach.pendingAdmit (x0 : Fin 64) (x1 : Bool) : Reach.Statement (.pendingAdmit x0 x1) := by
  intro _ _ ha; cases ha
theorem Reach.vectorCacheFill (x0 : Fin 16) (x1 : Ecc) : Reach.Statement (.vectorCacheFill x0 x1) := by
  intro _ _ ha; cases ha
theorem Reach.cifTake (x0 : Fin 64) : Reach.Statement (.cifTake x0) := by
  intro _ _ ha; cases ha
theorem Reach.claim (x0 : Fin 64) : Reach.Statement (.claim x0) := by
  intro _ _ ha; cases ha
theorem Reach.claimPeek (x0 : Access) (x1 : Fin 64) : Reach.Statement (.claimPeek x0 x1) := by
  intro h a ha; obtain rfl := Option.some.inj ha; exact not_page_core (.inr (.inr h))
theorem Reach.complete (x0 : Fin 64) (x1 : Word) : Reach.Statement (.complete x0 x1) := by
  intro _ _ ha; cases ha
theorem Reach.threshWrite (x0 : Access) (x1 : Fin 64) (x2 : Word) : Reach.Statement (.threshWrite x0 x1 x2) := by
  intro h a ha; obtain rfl := Option.some.inj ha; exact core_only h rfl
theorem Reach.warmStart (x0 : Fin 64) (x1 : Fin 2) : Reach.Statement (.warmStart x0 x1) := by
  intro _ _ ha; cases ha
theorem Reach.predictorMiss (x0 : Fin 64) (x1 : Fin 2) : Reach.Statement (.predictorMiss x0 x1) := by
  intro _ _ ha; cases ha
theorem Reach.predictorReset (x0 : Access) (x1 : Fin 64) (x2 : Fin 2) (x3 : PredReg) (x4 : Word) : Reach.Statement (.predictorReset x0 x1 x2 x3 x4) := by
  intro h a ha; obtain rfl := Option.some.inj ha; exact core_only h rfl
theorem Reach.pwNextWrite (x0 : Access) (x1 : Fin 64) (x2 : Fin 2) (x3 : Word) : Reach.Statement (.pwNextWrite x0 x1 x2 x3) := by
  intro h a ha; obtain rfl := Option.some.inj ha; exact core_only h rfl
theorem Reach.cifHaltRise (x0 : Fin 64) : Reach.Statement (.cifHaltRise x0) := by
  intro _ _ ha; cases ha
theorem Reach.cifHaltFall (x0 : Fin 64) : Reach.Statement (.cifHaltFall x0) := by
  intro _ _ ha; cases ha
theorem Reach.coreUnitReset (x0 : Fin 64) (x1 : Bool) : Reach.Statement (.coreUnitReset x0 x1) := by
  intro _ _ ha; cases ha
theorem Reach.campionDispatch (x0 : Fin 64) (x1 : List (Fin 64 × Ecc)) : Reach.Statement (.campionDispatch x0 x1) := by
  intro _ _ ha; cases ha
theorem Reach.lde (x0 : Fin 64) : Reach.Statement (.lde x0) := by
  intro _ _ ha; cases ha
theorem Reach.lda (x0 : Fin 64) (x1 : Word) (x2 : Bool) (x3 : Bool) : Reach.Statement (.lda x0 x1 x2 x3) := by
  intro _ _ ha; cases ha
theorem Reach.sta (x0 : Fin 64) (x1 : Bool) : Reach.Statement (.sta x0 x1) := by
  intro _ _ ha; cases ha
theorem Reach.staN (x0 : Fin 64) (x1 : Bool) (x2 : Bool) : Reach.Statement (.staN x0 x1 x2) := by
  intro _ _ ha; cases ha
theorem Reach.addi (x0 : Fin 64) (x1 : Bool) : Reach.Statement (.addi x0 x1) := by
  intro _ _ ha; cases ha
theorem Reach.sub (x0 : Fin 64) (x1 : Bool) : Reach.Statement (.sub x0 x1) := by
  intro _ _ ha; cases ha
theorem Reach.clamp (x0 : Fin 64) (x1 : Bool) : Reach.Statement (.clamp x0 x1) := by
  intro _ _ ha; cases ha
theorem Reach.cmp (x0 : Fin 64) (x1 : Bool) : Reach.Statement (.cmp x0 x1) := by
  intro _ _ ha; cases ha
theorem Reach.br (x0 : Fin 64) : Reach.Statement (.br x0) := by
  intro _ _ ha; cases ha
theorem Reach.wait (x0 : Fin 64) : Reach.Statement (.wait x0) := by
  intro _ _ ha; cases ha
theorem Reach.waitEnd (x0 : Fin 64) : Reach.Statement (.waitEnd x0) := by
  intro _ _ ha; cases ha
theorem Reach.emit (x0 : Fin 64) (x1 : Bool) : Reach.Statement (.emit x0 x1) := by
  intro _ _ ha; cases ha
theorem Reach.emitAnswer (x0 : Fin 64) : Reach.Statement (.emitAnswer x0) := by
  intro _ _ ha; cases ha
theorem Reach.emitLateAnswer (x0 : Fin 64) : Reach.Statement (.emitLateAnswer x0) := by
  intro _ _ ha; cases ha
theorem Reach.irq (x0 : Fin 64) (x1 : Bool) : Reach.Statement (.irq x0 x1) := by
  intro _ _ ha; cases ha
theorem Reach.ret (x0 : Fin 64) (x1 : Bool) : Reach.Statement (.ret x0 x1) := by
  intro _ _ ha; cases ha
theorem Reach.reflexCommit (x0 : Fin 4) (x1 : List Bool) : Reach.Statement (.reflexCommit x0 x1) := by
  intro _ _ ha; cases ha
theorem Reach.campionWatchdog (x0 : Fin 64) : Reach.Statement (.campionWatchdog x0) := by
  intro _ _ ha; cases ha
theorem Reach.campRfailGo (x0 : Access) (x1 : Fin 4) (x2 : BitVec 4) : Reach.Statement (.campRfailGo x0 x1 x2) := by
  intro h a ha; obtain rfl := Option.some.inj ha; exact not_page_core (.inr (.inr h))
theorem Reach.campionUnitReset (x0 : Fin 64) : Reach.Statement (.campionUnitReset x0) := by
  intro _ _ ha; cases ha
theorem Reach.syncInterval (x0 : Fin 32) : Reach.Statement (.syncInterval x0) := by
  intro _ _ ha; cases ha
theorem Reach.syncReq (x0 : Fin 4) (x1 : LinkFrame) (x2 : Fin 32) (x3 : Fin 32) : Reach.Statement (.syncReq x0 x1 x2 x3) := by
  intro _ _ ha; cases ha
theorem Reach.syncRsp (x0 : Fin 4) (x1 : LinkFrame) (x2 : Fin 32) : Reach.Statement (.syncRsp x0 x1 x2) := by
  intro _ _ ha; cases ha
theorem Reach.alignmentTimeout : Reach.Statement (.alignmentTimeout) := by
  intro _ _ ha; cases ha
theorem Reach.trimCycle : Reach.Statement (.trimCycle) := by
  intro _ _ ha; cases ha
theorem Reach.timeLoRead (x0 : Access) : Reach.Statement (.timeLoRead x0) := by
  intro h a ha; obtain rfl := Option.some.inj ha; exact not_page_core (.inl h)
theorem Reach.capture (x0 : Fin 16) (x1 : Bool) (x2 : Bool) (x3 : Nat) : Reach.Statement (.capture x0 x1 x2 x3) := by
  intro _ _ ha; cases ha
theorem Reach.captureRead (x0 : Access) (x1 : Fin 16) : Reach.Statement (.captureRead x0 x1) := by
  intro h a ha; obtain rfl := Option.some.inj ha; exact not_page_core (.inr (.inr h))
theorem Reach.thaw (x0 : List ThawInput) : Reach.Statement (.thaw x0) := by
  intro _ _ ha; cases ha
theorem Reach.epochPeriodWrite (x0 : Access) (x1 : Word) : Reach.Statement (.epochPeriodWrite x0 x1) := by
  intro h a ha; obtain rfl := Option.some.inj ha; exact not_page_core (.inr (.inr h))
theorem Reach.thaw0 (x0 : List ThawInput) : Reach.Statement (.thaw0 x0) := by
  intro _ _ ha; cases ha
theorem Reach.timeUnitReload (x0 : Fin 21) : Reach.Statement (.timeUnitReload x0) := by
  intro _ _ ha; cases ha
theorem Reach.lnkEnable (x0 : Access) (x1 : Fin 4) : Reach.Statement (.lnkEnable x0 x1) := by
  intro h a ha; obtain rfl := Option.some.inj ha; exact not_page_core (.inr (.inr h))
theorem Reach.lnkDisable (x0 : Access) (x1 : Fin 4) : Reach.Statement (.lnkDisable x0 x1) := by
  intro h a ha; obtain rfl := Option.some.inj ha; exact not_page_core (.inr (.inr h))
theorem Reach.lnkDownCommand (x0 : Access) (x1 : Fin 4) : Reach.Statement (.lnkDownCommand x0 x1) := by
  intro h a ha; obtain rfl := Option.some.inj ha; exact not_page_core (.inr (.inr h))
theorem Reach.laneEnergyDetect (x0 : Fin 4) : Reach.Statement (.laneEnergyDetect x0) := by
  intro _ _ ha; cases ha
theorem Reach.laneLockDone (x0 : Fin 4) : Reach.Statement (.laneLockDone x0) := by
  intro _ _ ha; cases ha
theorem Reach.alignDone (x0 : Fin 4) : Reach.Statement (.alignDone x0) := by
  intro _ _ ha; cases ha
theorem Reach.ident (x0 : Fin 4) (x1 : PeerIdent) : Reach.Statement (.ident x0 x1) := by
  intro _ _ ha; cases ha
theorem Reach.creditMarker (x0 : Fin 4) : Reach.Statement (.creditMarker x0) := by
  intro _ _ ha; cases ha
theorem Reach.linkUp (x0 : Confirmed) : Reach.Statement (.linkUp x0) := by
  intro _ _ ha; cases ha
theorem Reach.trainingTimeout (x0 : Fin 4) : Reach.Statement (.trainingTimeout x0) := by
  intro _ _ ha; cases ha
theorem Reach.downIdleEnd (x0 : Fin 4) : Reach.Statement (.downIdleEnd x0) := by
  intro _ _ ha; cases ha
theorem Reach.data (x0 : Fin 4) (x1 : LinkFrame) : Reach.Statement (.data x0 x1) := by
  intro _ _ ha; cases ha
theorem Reach.ack (x0 : Fin 4) (x1 : LinkFrame) : Reach.Statement (.ack x0 x1) := by
  intro _ _ ha; cases ha
theorem Reach.nak (x0 : Fin 4) (x1 : LinkFrame) : Reach.Statement (.nak x0 x1) := by
  intro _ _ ha; cases ha
theorem Reach.ackTimer (x0 : Fin 4) : Reach.Statement (.ackTimer x0) := by
  intro _ _ ha; cases ha
theorem Reach.nakTimeout (x0 : Fin 4) : Reach.Statement (.nakTimeout x0) := by
  intro _ _ ha; cases ha
theorem Reach.replayTimeout (x0 : Fin 4) : Reach.Statement (.replayTimeout x0) := by
  intro _ _ ha; cases ha
theorem Reach.fecBlockDecode (x0 : Fin 4) (x1 : List LinkFrame) (x2 : LinkFrame) : Reach.Statement (.fecBlockDecode x0 x1 x2) := by
  intro _ _ ha; cases ha
theorem Reach.laneLockLost (x0 : Fin 4) (x1 : Fin 4) : Reach.Statement (.laneLockLost x0 x1) := by
  intro _ _ ha; cases ha
theorem Reach.reportSend (x0 : Fin 4) : Reach.Statement (.reportSend x0) := by
  intro _ _ ha; cases ha
theorem Reach.report (x0 : Fin 4) (x1 : LinkFrame) : Reach.Statement (.report x0 x1) := by
  intro _ _ ha; cases ha
theorem Reach.reportTimeout (x0 : Fin 4) : Reach.Statement (.reportTimeout x0) := by
  intro _ _ ha; cases ha
theorem Reach.settleExpire (x0 : Fin 4) : Reach.Statement (.settleExpire x0) := by
  intro _ _ ha; cases ha
theorem Reach.auditVisit (x0 : Bool) : Reach.Statement (.auditVisit x0) := by
  intro _ _ ha; cases ha
theorem Reach.handIn (x0 : Fin 4) : Reach.Statement (.handIn x0) := by
  intro _ _ ha; cases ha
theorem Reach.replicaComplete : Reach.Statement (.replicaComplete) := by
  intro _ _ ha; cases ha
theorem Reach.fenceDone (x0 : Msg) : Reach.Statement (.fenceDone x0) := by
  intro _ _ ha; cases ha
theorem Reach.fenceConfirm (x0 : Msg) : Reach.Statement (.fenceConfirm x0) := by
  intro _ _ ha; cases ha
theorem Reach.custodySettleExpire (x0 : BitVec 14) : Reach.Statement (.custodySettleExpire x0) := by
  intro _ _ ha; cases ha
theorem Reach.fenceRestore (x0 : Msg) : Reach.Statement (.fenceRestore x0) := by
  intro _ _ ha; cases ha
theorem Reach.ageProbe (x0 : BitVec 14) : Reach.Statement (.ageProbe x0) := by
  intro _ _ ha; cases ha
theorem Reach.fenceProbe (x0 : Msg) : Reach.Statement (.fenceProbe x0) := by
  intro _ _ ha; cases ha
theorem Reach.fenceAnswer (x0 : Msg) : Reach.Statement (.fenceAnswer x0) := by
  intro _ _ ha; cases ha
theorem Reach.fenceActing (x0 : Msg) : Reach.Statement (.fenceActing x0) := by
  intro _ _ ha; cases ha
theorem Reach.fenceLoss (x0 : Msg) : Reach.Statement (.fenceLoss x0) := by
  intro _ _ ha; cases ha
theorem Reach.partnerNoRouteTimeout (x0 : BitVec 5) : Reach.Statement (.partnerNoRouteTimeout x0) := by
  intro _ _ ha; cases ha
theorem Reach.takeoverSettleExpire : Reach.Statement (.takeoverSettleExpire) := by
  intro _ _ ha; cases ha
theorem Reach.migrationDrainEnd (x0 : Fin 8) : Reach.Statement (.migrationDrainEnd x0) := by
  intro _ _ ha; cases ha
theorem Reach.fenceMigrate (x0 : Fin 128) : Reach.Statement (.fenceMigrate x0) := by
  intro _ _ ha; cases ha
theorem Reach.fenceIntake (x0 : Fin 128) : Reach.Statement (.fenceIntake x0) := by
  intro _ _ ha; cases ha
theorem Reach.migrationOldTargetEmpty (x0 : Fin 128) (x1 : BitVec 5) (x2 : BitVec 13) : Reach.Statement (.migrationOldTargetEmpty x0 x1 x2) := by
  intro _ _ ha; cases ha
theorem Reach.fenceRelease (x0 : Fin 128) : Reach.Statement (.fenceRelease x0) := by
  intro _ _ ha; cases ha
theorem Reach.fenceMigrated (x0 : Msg) : Reach.Statement (.fenceMigrated x0) := by
  intro _ _ ha; cases ha
theorem Reach.lockAcquire (x0 : Access) (x1 : Fin 64) : Reach.Statement (.lockAcquire x0 x1) := by
  intro h a ha; obtain rfl := Option.some.inj ha; exact not_page_core (.inr (.inr h))
theorem Reach.lockRel (x0 : Access) (x1 : Fin 64) : Reach.Statement (.lockRel x0 x1) := by
  intro h a ha; obtain rfl := Option.some.inj ha; exact not_page_core (.inr (.inr h))
theorem Reach.lockAbort (x0 : Access) (x1 : Fin 64) : Reach.Statement (.lockAbort x0 x1) := by
  intro h a ha; obtain rfl := Option.some.inj ha; exact not_page_core (.inr (.inr h))
theorem Reach.lockBreak (x0 : Access) (x1 : Fin 64) : Reach.Statement (.lockBreak x0 x1) := by
  intro h a ha; obtain rfl := Option.some.inj ha; exact not_page_core (.inr (.inr h))
theorem Reach.lockTimeout (x0 : Fin 64) : Reach.Statement (.lockTimeout x0) := by
  intro _ _ ha; cases ha
theorem Reach.masterFault (x0 : Fin 16) (x1 : Bool) : Reach.Statement (.masterFault x0 x1) := by
  intro _ _ ha; cases ha
theorem Reach.firnScrub (x0 : Ecc) : Reach.Statement (.firnScrub x0) := by
  intro _ _ ha; cases ha
theorem Reach.loadStart (x0 : Access) (x1 : Bool) : Reach.Statement (.loadStart x0 x1) := by
  intro h a ha; obtain rfl := Option.some.inj ha; exact not_page_core (.inl h)
theorem Reach.loadAbort (x0 : Access) : Reach.Statement (.loadAbort x0) := by
  intro h a ha; obtain rfl := Option.some.inj ha; exact not_page_core (.inl h)
theorem Reach.loadData (x0 : Access) (x1 : Word) : Reach.Statement (.loadData x0 x1) := by
  intro h a ha; obtain rfl := Option.some.inj ha; exact not_page_core (.inl h)
theorem Reach.loadDataOverrun (x0 : Access) : Reach.Statement (.loadDataOverrun x0) := by
  intro h a ha; obtain rfl := Option.some.inj ha; exact not_page_core (.inl h)
theorem Reach.loadVerifyDone (x0 : Side) : Reach.Statement (.loadVerifyDone x0) := by
  intro _ _ ha; cases ha
theorem Reach.loadRestoreDone (x0 : Side) : Reach.Statement (.loadRestoreDone x0) := by
  intro _ _ ha; cases ha
theorem Reach.persistEraseDone : Reach.Statement (.persistEraseDone) := by
  intro _ _ ha; cases ha
theorem Reach.flashFail : Reach.Statement (.flashFail) := by
  intro _ _ ha; cases ha
theorem Reach.tableCopyEnd (x0 : Fin 8) : Reach.Statement (.tableCopyEnd x0) := by
  intro _ _ ha; cases ha
theorem Reach.dtGo (x0 : Access) (x1 : Fin 4) (x2 : Bool) : Reach.Statement (.dtGo x0 x1 x2) := by
  intro h a ha; obtain rfl := Option.some.inj ha; exact not_page_core (.inr (.inr h))
theorem Reach.deepThawDrainEnd : Reach.Statement (.deepThawDrainEnd) := by
  intro _ _ ha; cases ha
theorem Reach.deepThawCopyEnd : Reach.Statement (.deepThawCopyEnd) := by
  intro _ _ ha; cases ha
theorem Reach.rimeCompare (x0 : Ecc) (x1 : Ecc) (x2 : Word) : Reach.Statement (.rimeCompare x0 x1 x2) := by
  intro _ _ ha; cases ha
theorem Reach.rdpErase (x0 : BitVec 2) : Reach.Statement (.rdpErase x0) := by
  intro _ _ ha; cases ha
theorem Reach.barEnable (x0 : Access) : Reach.Statement (.barEnable x0) := by
  intro h a ha; obtain rfl := Option.some.inj ha; exact not_page_core (.inr (.inr h))
theorem Reach.barDisable (x0 : Access) : Reach.Statement (.barDisable x0) := by
  intro h a ha; obtain rfl := Option.some.inj ha; exact not_page_core (.inr (.inr h))
theorem Reach.barLanesLocked (x0 : Side) : Reach.Statement (.barLanesLocked x0) := by
  intro _ _ ha; cases ha
theorem Reach.barLaneLockLost (x0 : Side) (x1 : Fin 4) : Reach.Statement (.barLaneLockLost x0 x1) := by
  intro _ _ ha; cases ha
theorem Reach.barSilenceTimeout (x0 : Side) : Reach.Statement (.barSilenceTimeout x0) := by
  intro _ _ ha; cases ha
theorem Reach.barHelloTimer (x0 : Side) : Reach.Statement (.barHelloTimer x0) := by
  intro _ _ ha; cases ha
theorem Reach.hello (x0 : Side) (x1 : BitVec 128) : Reach.Statement (.hello x0 x1) := by
  intro _ _ ha; cases ha
theorem Reach.gateState (x0 : BitVec 128) : Reach.Statement (.gateState x0) := by
  intro _ _ ha; cases ha
theorem Reach.fieldState (x0 : BitVec 128) : Reach.Statement (.fieldState x0) := by
  intro _ _ ha; cases ha
theorem Reach.credit (x0 : BitVec 128) : Reach.Statement (.credit x0) := by
  intro _ _ ha; cases ha
theorem Reach.event (x0 : BitVec 128) : Reach.Statement (.event x0) := by
  intro _ _ ha; cases ha
theorem Reach.written (x0 : BitVec 128) : Reach.Statement (.written x0) := by
  intro _ _ ha; cases ha
theorem Reach.discarded (x0 : BitVec 128) : Reach.Statement (.discarded x0) := by
  intro _ _ ha; cases ha
theorem Reach.vwrite (x0 : BitVec 128) : Reach.Statement (.vwrite x0) := by
  intro _ _ ha; cases ha
theorem Reach.vresult (x0 : BitVec 128) : Reach.Statement (.vresult x0) := by
  intro _ _ ha; cases ha
theorem Reach.barSyncReq (x0 : BitVec 128) : Reach.Statement (.barSyncReq x0) := by
  intro _ _ ha; cases ha
theorem Reach.barSyncRsp (x0 : BitVec 128) : Reach.Statement (.barSyncRsp x0) := by
  intro _ _ ha; cases ha
theorem Reach.timeTrim (x0 : BitVec 128) : Reach.Statement (.timeTrim x0) := by
  intro _ _ ha; cases ha
theorem Reach.barThaw (x0 : BitVec 128) : Reach.Statement (.barThaw x0) := by
  intro _ _ ha; cases ha
theorem Reach.meter (x0 : BitVec 128) : Reach.Statement (.meter x0) := by
  intro _ _ ha; cases ha
theorem Reach.meterAck (x0 : BitVec 128) : Reach.Statement (.meterAck x0) := by
  intro _ _ ha; cases ha
theorem Reach.sealRecord (x0 : BitVec 128) : Reach.Statement (.sealRecord x0) := by
  intro _ _ ha; cases ha
theorem Reach.sliceStop (x0 : BitVec 128) : Reach.Statement (.sliceStop x0) := by
  intro _ _ ha; cases ha
theorem Reach.sliceDrained (x0 : BitVec 128) : Reach.Statement (.sliceDrained x0) := by
  intro _ _ ha; cases ha
theorem Reach.sliceGo (x0 : BitVec 128) : Reach.Statement (.sliceGo x0) := by
  intro _ _ ha; cases ha
theorem Reach.rxcred (x0 : Side) (x1 : BitVec 128) : Reach.Statement (.rxcred x0 x1) := by
  intro _ _ ha; cases ha
theorem Reach.rxcredTimer (x0 : Side) : Reach.Statement (.rxcredTimer x0) := by
  intro _ _ ha; cases ha
theorem Reach.echoReq (x0 : Side) (x1 : BitVec 128) : Reach.Statement (.echoReq x0 x1) := by
  intro _ _ ha; cases ha
theorem Reach.echoRsp (x0 : Side) (x1 : BitVec 128) : Reach.Statement (.echoRsp x0 x1) := by
  intro _ _ ha; cases ha
theorem Reach.meterReq (x0 : BitVec 128) : Reach.Statement (.meterReq x0) := by
  intro _ _ ha; cases ha
theorem Reach.sealReq (x0 : BitVec 128) : Reach.Statement (.sealReq x0) := by
  intro _ _ ha; cases ha
theorem Reach.barEventRepeat : Reach.Statement (.barEventRepeat) := by
  intro _ _ ha; cases ha
theorem Reach.vwriteRepeat : Reach.Statement (.vwriteRepeat) := by
  intro _ _ ha; cases ha
theorem Reach.slcCreate (x0 : Access) (x1 : BitVec 8) (x2 : Bool) : Reach.Statement (.slcCreate x0 x1 x2) := by
  intro h a ha; obtain rfl := Option.some.inj ha; exact not_page_core (.inr (.inl h))
theorem Reach.slcOpen (x0 : Access) (x1 : BitVec 8) : Reach.Statement (.slcOpen x0 x1) := by
  intro h a ha; obtain rfl := Option.some.inj ha; exact not_page_core (.inr (.inl h))
theorem Reach.slcReset (x0 : Access) (x1 : BitVec 8) : Reach.Statement (.slcReset x0 x1) := by
  intro h a ha; obtain rfl := Option.some.inj ha; exact not_page_core (.inr (.inl h))
theorem Reach.slcDestroy (x0 : Access) (x1 : BitVec 8) : Reach.Statement (.slcDestroy x0 x1) := by
  intro h a ha; obtain rfl := Option.some.inj ha; exact not_page_core (.inr (.inl h))
theorem Reach.sliceResetTimeout (x0 : BitVec 8) : Reach.Statement (.sliceResetTimeout x0) := by
  intro _ _ ha; cases ha
theorem Reach.pgConsWrite (x0 : Access) (x1 : BitVec 8) (x2 : Word) : Reach.Statement (.pgConsWrite x0 x1 x2) := by
  intro h a ha; obtain rfl := Option.some.inj ha; exact page_only h rfl
theorem Reach.pgArmWrite (x0 : Access) (x1 : BitVec 8) (x2 : Word) : Reach.Statement (.pgArmWrite x0 x1 x2) := by
  intro h a ha; obtain rfl := Option.some.inj ha; exact page_only h rfl
theorem Reach.pgVwWrite (x0 : Access) (x1 : BitVec 8) (x2 : Word) : Reach.Statement (.pgVwWrite x0 x1 x2) := by
  intro h a ha; obtain rfl := Option.some.inj ha; exact page_only h rfl
theorem Reach.ringRecordWrite (x0 : Fin 2) : Reach.Statement (.ringRecordWrite x0) := by
  intro _ _ ha; cases ha
theorem Reach.hostReset : Reach.Statement (.hostReset) := by
  intro _ _ ha; cases ha
theorem Reach.hostGateSoftReset (x0 : Access) : Reach.Statement (.hostGateSoftReset x0) := by
  intro h a ha; obtain rfl := Option.some.inj ha; exact not_page_core (.inr (.inl h))
theorem Reach.slcDirtyRead (x0 : Access) (x1 : BitVec 8) (x2 : Fin 17) : Reach.Statement (.slcDirtyRead x0 x1 x2) := by
  intro h a ha; obtain rfl := Option.some.inj ha; exact not_page_core (.inr (.inl h))
theorem Reach.meterRecord : Reach.Statement (.meterRecord) := by
  intro _ _ ha; cases ha
theorem Reach.meterSend (x0 : Fin 64) : Reach.Statement (.meterSend x0) := by
  intro _ _ ha; cases ha
theorem Reach.meterAckTimeout (x0 : Fin 64) : Reach.Statement (.meterAckTimeout x0) := by
  intro _ _ ha; cases ha
theorem Reach.sealInterval : Reach.Statement (.sealInterval) := by
  intro _ _ ha; cases ha
theorem Reach.edwCtrlSeal (x0 : Access) : Reach.Statement (.edwCtrlSeal x0) := by
  intro h a ha; obtain rfl := Option.some.inj ha; exact not_page_core (.inr (.inr h))
theorem Reach.sealGapExpire : Reach.Statement (.sealGapExpire) := by
  intro _ _ ha; cases ha
theorem Reach.sealMacDone : Reach.Statement (.sealMacDone) := by
  intro _ _ ha; cases ha
theorem Reach.sealProgramDone : Reach.Statement (.sealProgramDone) := by
  intro _ _ ha; cases ha
theorem Reach.edwRestoreDone : Reach.Statement (.edwRestoreDone) := by
  intro _ _ ha; cases ha
theorem Reach.edwDebugWrite (x0 : Access) (x1 : BitVec 12) (x2 : Word) : Reach.Statement (.edwDebugWrite x0 x1 x2) := by
  intro h a ha; obtain rfl := Option.some.inj ha; exact not_page_core (.inr (.inr (Bool.and_eq_true_iff.mp h).1))
theorem Reach.edwLatchedRead (x0 : Access) (x1 : BitVec 12) : Reach.Statement (.edwLatchedRead x0 x1) := by
  intro h a ha; obtain rfl := Option.some.inj ha; exact not_page_core (.inr (.inr h))
theorem Reach.pwrReqWake (x0 : Access) (x1 : BitVec 5) : Reach.Statement (.pwrReqWake x0 x1) := by
  intro h a ha; obtain rfl := Option.some.inj ha; exact not_page_core (.inl h)
theorem Reach.pwrReqOff (x0 : Access) (x1 : BitVec 5) : Reach.Statement (.pwrReqOff x0 x1) := by
  intro h a ha; obtain rfl := Option.some.inj ha; exact not_page_core (.inl h)
theorem Reach.wakeGrant (x0 : Side) : Reach.Statement (.wakeGrant x0) := by
  intro _ _ ha; cases ha
theorem Reach.pwrGoodRise (x0 : Side) (x1 : Fin 24) : Reach.Statement (.pwrGoodRise x0 x1) := by
  intro _ _ ha; cases ha
theorem Reach.domainReleaseEnd (x0 : Side) (x1 : Fin 24) : Reach.Statement (.domainReleaseEnd x0 x1) := by
  intro _ _ ha; cases ha
theorem Reach.domainRampFail (x0 : Side) (x1 : Fin 24) : Reach.Statement (.domainRampFail x0 x1) := by
  intro _ _ ha; cases ha
theorem Reach.pwrGoodFall (x0 : Side) (x1 : Fin 24) : Reach.Statement (.pwrGoodFall x0 x1) := by
  intro _ _ ha; cases ha
theorem Reach.sleepGo (x0 : Access) : Reach.Statement (.sleepGo x0) := by
  intro h a ha; obtain rfl := Option.some.inj ha; exact not_page_core (.inr (.inr h))
theorem Reach.sleepEntryEdge : Reach.Statement (.sleepEntryEdge) := by
  intro _ _ ha; cases ha
theorem Reach.pwrWake : Reach.Statement (.pwrWake) := by
  intro _ _ ha; cases ha
theorem Reach.sleepMakeup (x0 : Word) : Reach.Statement (.sleepMakeup x0) := by
  intro _ _ ha; cases ha
theorem Reach.rstCluster (x0 : Fin 16) : Reach.Statement (.rstCluster x0) := by
  intro _ _ ha; cases ha
theorem Reach.rstRegion (x0 : Fin 4) : Reach.Statement (.rstRegion x0) := by
  intro _ _ ha; cases ha
theorem Reach.rstSoftInstance : Reach.Statement (.rstSoftInstance) := by
  intro _ _ ha; cases ha
theorem Reach.rstDie : Reach.Statement (.rstDie) := by
  intro _ _ ha; cases ha
theorem Reach.rstPackage : Reach.Statement (.rstPackage) := by
  intro _ _ ha; cases ha
theorem Reach.rstSystem : Reach.Statement (.rstSystem) := by
  intro _ _ ha; cases ha
theorem Reach.powerOn : Reach.Statement (.powerOn) := by
  intro _ _ ha; cases ha
theorem Reach.tclkLock : Reach.Statement (.tclkLock) := by
  intro _ _ ha; cases ha
theorem Reach.firnInitEnd (x0 : List (BitVec 14 × Ecc)) (x1 : List (BitVec 15)) : Reach.Statement (.firnInitEnd x0 x1) := by
  intro _ _ ha; cases ha
theorem Reach.startupLoadEnd : Reach.Statement (.startupLoadEnd) := by
  intro _ _ ha; cases ha
theorem Reach.linkPhaseEnd : Reach.Statement (.linkPhaseEnd) := by
  intro _ _ ha; cases ha
theorem Reach.registerWrite (x0 : Access) (x1 : BitVec 20) (x2 : Word) : Reach.Statement (.registerWrite x0 x1 x2) := by
  intro h a ha; obtain rfl := Option.some.inj ha; exact ⟨fun _ => rfl, fun _ _ => rfl⟩
theorem Reach.stagedViewWrite (x0 : Access) (x1 : BitVec 16) (x2 : Word) : Reach.Statement (.stagedViewWrite x0 x1 x2) := by
  intro h a ha; obtain rfl := Option.some.inj ha; exact not_page_core (.inl h)
theorem Reach.bitAliasWrite (x0 : Access) (x1 : BitVec 14) (x2 : Fin 32) (x3 : Bool) : Reach.Statement (.bitAliasWrite x0 x1 x2 x3) := by
  intro h a ha; obtain rfl := Option.some.inj ha; exact not_page_core (.inl (Bool.and_eq_true_iff.mp h).1)
theorem Reach.traceDataRead (x0 : Access) : Reach.Statement (.traceDataRead x0) := by
  intro h a ha; obtain rfl := Option.some.inj ha; exact not_page_core (.inr (.inr h))
theorem Reach.traceRdptrWrite (x0 : Access) (x1 : Word) : Reach.Statement (.traceRdptrWrite x0 x1) := by
  intro h a ha; obtain rfl := Option.some.inj ha; exact not_page_core (.inr (.inr h))
theorem Reach.traceEnable (x0 : Access) : Reach.Statement (.traceEnable x0) := by
  intro h a ha; obtain rfl := Option.some.inj ha; exact not_page_core (.inr (.inr h))
theorem Reach.testInject (x0 : Access) (x1 : BitVec 5) : Reach.Statement (.testInject x0 x1) := by
  intro h a ha; obtain rfl := Option.some.inj ha; exact not_page_core (.inr (.inr h))
theorem Reach.ltestStart (x0 : Access) : Reach.Statement (.ltestStart x0) := by
  intro h a ha; obtain rfl := Option.some.inj ha; exact not_page_core (.inr (.inr h))
theorem Reach.ltestStop (x0 : Access) : Reach.Statement (.ltestStop x0) := by
  intro h a ha; obtain rfl := Option.some.inj ha; exact not_page_core (.inr (.inr h))
theorem Reach.registerRead (x0 : Access) (x1 : BitVec 20) (x2 : Ecc) : Reach.Statement (.registerRead x0 x1 x2) := by
  intro h a ha; obtain rfl := Option.some.inj ha; exact ⟨fun _ => rfl, fun _ _ => rfl⟩
theorem Reach.barFrameReject (x0 : Side) (x1 : BarFrame) : Reach.Statement (.barFrameReject x0 x1) := by
  intro _ _ ha; cases ha
theorem Reach.linkFrameReject (x0 : Fin 4) (x1 : LinkFrame) : Reach.Statement (.linkFrameReject x0 x1) := by
  intro _ _ ha; cases ha
theorem Reach.barTransmitSlot (x0 : Side) : Reach.Statement (.barTransmitSlot x0) := by
  intro _ _ ha; cases ha
theorem Reach.masterPortWriteResponse (x0 : Bool) (x1 : Bool) : Reach.Statement (.masterPortWriteResponse x0 x1) := by
  intro _ _ ha; cases ha
theorem Reach.persistWordProgrammed : Reach.Statement (.persistWordProgrammed) := by
  intro _ _ ha; cases ha
theorem Reach.resetRelease (x0 : BitVec 3) (x1 : BitVec 2) (x2 : Bool) (x3 : BitVec 2) : Reach.Statement (.resetRelease x0 x1 x2 x3) := by
  intro _ _ ha; cases ha
theorem Reach.bscModeChange (x0 : Bool) : Reach.Statement (.bscModeChange x0) := by
  intro _ _ ha; cases ha
theorem Reach.checkerLocked (x0 : Fin 4) (x1 : Fin 4) (x2 : Nat) : Reach.Statement (.checkerLocked x0 x1 x2) := by
  intro _ _ ha; cases ha
theorem Reach.checkerLockLost (x0 : Fin 4) (x1 : Fin 4) (x2 : Nat) : Reach.Statement (.checkerLockLost x0 x1 x2) := by
  intro _ _ ha; cases ha

end Sys2Proof.Laws
end

