-- ==== Sys2Proof/Laws/Reports.lean ====
section
/-! SUPPORT. Lemmas on reports between dies. -/

set_option maxHeartbeats 1000000

namespace Sys2Proof.Machine

theorem rtUsable_congr {s u : State} (hr : u.regs = s.regs) (hp : ∀ q, (u.port q).st = (s.port q).st) (d : BitVec 5) :
    portToward u d = portToward s d := by
  unfold portToward rtFind rtUsable portUp State.rd State.flag State.rd
  simp only [hr, hp]

theorem resolve_port (p : Nat) (q : BitVec 8) (un : Bool) (s : State) (h : (s.port p).resolving = true) (h1 : (s.port p).entered = false) :
    ((resolve p q un s).port p).st = (s.port p).st ∧ ((resolve p q un s).port p).resolving = true ∧ ((resolve p q un s).port p).entered = true ∧
      ((resolve p q un s).port p).unacked = [] ∧ ((resolve p q un s).port p).tx = [] ∧
      ((resolve p q un s).port p).acked = (if un then (s.port p).acked else q) ∧ ∀ k, k ≠ p → (resolve p q un s).port k = s.port k := by
  have hn (s : State) : (∃ r, (noteResolved p s).port p = { s.port p with resolved := r }) ∧ ∀ k, k ≠ p → (noteResolved p s).port k = s.port k := by
    unfold noteResolved
    dsimp only
    split
    · exact ⟨⟨_, State.port_setPort ..⟩, fun k hk => State.port_setPort_ne _ _ hk⟩
    · exact ⟨⟨_, rfl⟩, fun _ _ => rfl⟩
  have he (l : List (BitVec 8 × Msg)) (s : State) (k : Nat) : (s.each l fun e s => takenThere e.2 s).port k = s.port k :=
    State.each_inv (fun s => State.port s k) l (fun a s => (takenThere_keeps a.2 s).port_eq k) s
  obtain ⟨u, hu, hx, hy⟩ : ∃ u, resolve p q un s = noteResolved p u ∧
      u.port p = { s.port p with unacked := [], tx := [], entered := true, acked := if un then (s.port p).acked else q } ∧
      ∀ k, k ≠ p → u.port k = s.port k := by
    unfold resolve
    dsimp only
    rw [h, h1, if_neg (by decide)]
    refine ⟨_, rfl, ?_, fun k hk => ?_⟩
    · rw [(pumpRec_keeps ..).port_eq]
      refine (he _ _ _).trans ?_
      rw [State.port_setPort]
    · rw [(pumpRec_keeps ..).port_eq]
      refine (he _ _ _).trans ?_
      rw [State.port_setPort_ne _ _ hk]
      split_ifs <;> rfl
  obtain ⟨⟨r, h5⟩, h6⟩ := hn u
  rw [hu]
  refine ⟨?_, ?_, ?_, ?_, ?_, ?_, fun k hk => (h6 k hk).trans (hy k hk)⟩ <;> rw [h5, hx]
  exact h
theorem portDown_entered (p cause : Nat) (off : Bool) (s : State) : ((portDown p cause off s).port p).entered = false := by
  obtain ⟨u, x, hu, h1⟩ : ∃ u x, (portDown p cause off s).lnk = (State.setPort u p x).lnk ∧ x.entered = false := by
    unfold portDown
    generalize noteDown p cause (peerOf s p) s = u
    exact ⟨_, _, rfl, rfl⟩
  have hp : (portDown p cause off s).port p = (State.setPort u p x).port p := congrArg (fun l => tget ({} : PortS) l p) hu
  rw [hp, State.port_setPort, h1]

end Sys2Proof.Machine
end

