-- ==== Sys2Proof/Laws/Resets.lean ====
section
/-! SUPPORT. Lemmas on resets and start-up. -/

set_option maxHeartbeats 1000000

namespace Sys2Proof.Machine

theorem startFrom_rd (c : Nat) (soft : Bool) (s : State) (h : c < 8) : (startFrom c soft s).rd Reg.SU_STAT_START = c ∧ (startFrom c soft s).rd Reg.SU_STAT_FIRNKEPT = 1 := by
  unfold startFrom State.raise
  dsimp only
  constructor
  · rw [State.rd_wr_ne _ _ (by decide), State.rd_wr_same]; exact Nat.mod_eq_of_lt h
  · rw [State.rd_wr_same]; rfl

/-- A seal record that a reset cuts has used its slot. -/
def cutSeal (s : State) : State := match s.edw.step with | .program _ => useSlot none s | _ => s

/-- What a cold reset makes of a state without a seal under program. -/
def coldBody (cause : Nat) (s : State) : State :=
  ((({ out := s.out, fresh := s.fresh, shape := s.shape, pins := s.pins, src := { levels := s.src.levels, bundles := s.src.bundles }
       core := s.core.filterMap fun e => if e.2.halt then some (e.1, ({ halt := true } : CoreS)) else none
       img := { flashA := s.img.flashA, flashB := s.img.flashB, torn := s.img.torn, mark0 := s.img.mark0, mark1 := s.img.mark1, otp := s.img.otp }
       edw := { sectors := s.edw.sectors, sector := s.edw.sector }, su := { hold := true, gens := s.su.gens + 1 } } : State).wr Reg.SU_STAT_START cause).wr
    Reg.H_SU_STAT_START cause)

theorem coldReset_eq (k : Nat) (s : State) : coldReset k s = coldBody k (cutSeal s) := rfl

theorem cutSeal_none (s : State) (h : ∀ r, s.edw.step ≠ .program r) : cutSeal s = s := by
  unfold cutSeal
  split
  · rename_i r q; exact absurd q (h r)
  · rfl

theorem coldReset_does (k : Nat) (s : State) (hk : k < 8) (h : ∀ r, s.edw.step ≠ .program r) :
    (coldReset k s).su = { hold := true, gens := s.su.gens + 1 } ∧ (coldReset k s).rd Reg.SU_STAT_START = k ∧ (coldReset k s).rd Reg.H_SU_STAT_START = k ∧
      (coldReset k s).img = { flashA := s.img.flashA, flashB := s.img.flashB, torn := s.img.torn, mark0 := s.img.mark0, mark1 := s.img.mark1, otp := s.img.otp } ∧
      (coldReset k s).edw = { sectors := s.edw.sectors, sector := s.edw.sector } ∧ (coldReset k s).firn = {} ∧ (coldReset k s).xb = {} ∧ (coldReset k s).bar = {} ∧
      (coldReset k s).gate = {} ∧ (coldReset k s).time = {} ∧ (coldReset k s).pwr = {} ∧ (coldReset k s).once = [] ∧ (coldReset k s).staged = [] ∧
      (coldReset k s).src.levels = s.src.levels ∧ (coldReset k s).pins = s.pins ∧ (coldReset k s).shape = s.shape := by
  rw [coldReset_eq, cutSeal_none s h]
  unfold coldBody
  refine ⟨rfl, ?_, ?_, rfl, rfl, rfl, rfl, rfl, rfl, rfl, rfl, rfl, rfl, rfl, rfl, rfl⟩
  · rw [State.rd_wr_ne _ _ (by decide), State.rd_wr_same]; exact Nat.mod_eq_of_lt hk
  · rw [State.rd_wr_same]; exact Nat.mod_eq_of_lt hk

theorem rebuildHostQ_none (s : State) : (rebuildHostQ s).firn = s.firn ∧ (rebuildHostQ s).su = s.su ∧ (rebuildHostQ s).regs = s.regs := ⟨rfl, rfl, rfl⟩


def bistStage (bist : List (BitVec 15)) (s : State) : State :=
  if s.su.bist then rebuildHostQ (bistEnd bist s) else s
def recStage (errs : List (BitVec 14 × Ecc)) (s : State) : State :=
  if s.su.cold then { s with firn := { tagGen := s.firn.tagGen } } else s.each errs fun e s => firnError e.1.toNat e.2 s
def phaseStage (cold : Bool) (s : State) : State :=
  if cold then wakeSys 23 s else if s.on 23 && !s.su.soft && s.rd Reg.SU_STAT_START == 5 then edwOn s else s

theorem firnInit_eq (errs : List (BitVec 14 × Ecc)) (bist : List (BitVec 15)) (s : State) : exec (.firnInitEnd errs bist) s =
    run (fun s => if s.su.phase ≠ 1 ∨ s.su.hold = true then s else
      phaseStage s.su.cold { recStage errs (bistStage bist s) with su := { (recStage errs (bistStage bist s)).su with phase := 2 } }) s := rfl

theorem addWake_asks (d cls : Nat) (sw : Bool) (s : State) : (addWake d cls sw s).pwr.reqs.any (·.d == d) = true := by
  unfold addWake
  dsimp only
  split
  · rename_i h
    rw [List.any_map]
    rw [List.any_eq_true] at h ⊢
    obtain ⟨q, hq, hd⟩ := h
    exact ⟨q, hq, by simp only [Function.comp_apply, hd, if_true]⟩
  · rw [List.any_append]
    simp

theorem wakeSys_asks (d : Nat) (s : State) (h : 16 ≤ d) (h1 : s.dom d = 0) : (wakeSys d s).pwr.reqs.any (·.d == d) = true := by
  unfold wakeSys
  dsimp only
  rw [if_neg (by omega), if_pos h1]
  exact addWake_asks ..

theorem firnInit_run (errs : List (BitVec 14 × Ecc)) (bist : List (BitVec 15)) (s : State) (h : s.su.phase = 1) (h1 : s.su.hold = false) :
    exec (.firnInitEnd errs bist) s = .next { phaseStage s.su.cold { recStage errs (bistStage bist s.bare) with
      su := { (recStage errs (bistStage bist s.bare)).su with phase := 2 } } with pending := s.pending } := by
  rw [firnInit_eq]
  refine run_eq ?_
  rw [if_neg]
  · rfl
  · rintro (q | q)
    · exact q h
    · exact nomatch q.symm.trans h1

theorem bistEnd_does (fails : List (BitVec 15)) (s : State) : (bistEnd fails s).su = { s.su with cold := true } ∧ (bistEnd fails s).firn = { tagGen := s.firn.tagGen } ∧
    (bistEnd fails s).rd Reg.FIRN_BIST_DONE = 1 ∧ (bistEnd fails s).rd Reg.FIRN_BIST_ARM = 0 ∧ (bistEnd fails s).rd Reg.FIRN_BIST_COUNT = min (2 ^ 14 - 1) fails.length := by
  unfold bistEnd State.raise
  dsimp only
  refine ⟨rfl, rfl, ?_, ?_, ?_⟩
  · rw [show ∀ (u : State) (a : FirnS) (b : SuS) (f : Fld), ({ u with su := b, firn := a } : State).rd f = u.rd f from fun _ _ _ _ => rfl, State.rd_wr_ne _ _ (by decide)]
    rw [State.rd_wr_ne _ _ (by decide), State.rd_wr_ne _ _ (by decide), State.rd_wr_ne _ _ (by decide), State.rd_wr_ne _ _ (by decide), State.rd_wr_same]; rfl
  · rw [show ∀ (u : State) (a : FirnS) (b : SuS) (f : Fld), ({ u with su := b, firn := a } : State).rd f = u.rd f from fun _ _ _ _ => rfl, State.rd_wr_ne _ _ (by decide)]
    rw [State.rd_wr_ne _ _ (by decide), State.rd_wr_ne _ _ (by decide), State.rd_wr_ne _ _ (by decide), State.rd_wr_same]; rfl
  · rw [show ∀ (u : State) (a : FirnS) (b : SuS) (f : Fld), ({ u with su := b, firn := a } : State).rd f = u.rd f from fun _ _ _ _ => rfl, State.rd_wr_ne _ _ (by decide)]
    rw [State.rd_wr_same]
    exact Nat.mod_eq_of_lt (Nat.lt_of_le_of_lt (Nat.min_le_left ..) (by decide))

theorem enterLink_su (s : State) : (enterLink s).su = { s.su with phase := 4, linkFrom := s.time.now } := by
  unfold enterLink
  dsimp only
  refine (State.each_inv (fun s => s.su) (f := tryDetect) _ (fun x u => (tryDetect_keeps ..).same .su (by decide)) _).trans ?_
  (repeat' split) <;> first
    | rfl
    | exact (wakeSys_keeps ..).same .su (by decide)
    | exact ((wakeSys_keeps ..).same .su (by decide)).trans ((wakeSys_keeps ..).same .su (by decide))

end Sys2Proof.Machine
end

