-- ==== Sys2Proof/Laws/Sources.lean ====
section
/-! SUPPORT. Lemmas on the sources: inputs, levels, windows and offers. -/

set_option maxHeartbeats 1000000

namespace Sys2Proof.Machine

/-- The lines, their stamps, the structure words, and the latches of the sources in N are the same. -/
structure SrcSame (N : Nat → Prop) (s t : State) : Prop where
  lev : t.src.levels = s.src.levels
  st : t.src.stamps = s.src.stamps
  lat : ∀ n, N n → t.latchOf n = s.latchOf n
  words : t.yar.words = s.yar.words

theorem SrcSame.refl {N s} : SrcSame N s s := ⟨rfl, rfl, fun _ _ => rfl, rfl⟩

theorem SrcSame.trans {N s t u} (h : SrcSame N s t) (g : SrcSame N t u) : SrcSame N s u :=
  ⟨g.lev.trans h.lev, g.st.trans h.st, fun n hn => (g.lat n hn).trans (h.lat n hn), g.words.trans h.words⟩

theorem SrcSame.ofKeeps {N s t w} (h : Keeps w s t) (h1 : .src ∉ w) (h2 : .yar ∉ w) : SrcSame N s t := by
  have a : t.src = s.src := h.same .src h1
  have b : t.yar = s.yar := h.same .yar h2
  exact ⟨by rw [a], by rw [a], fun n _ => by unfold State.latchOf; rw [a], by rw [b]⟩

theorem SrcSame.setLatch {N m s l} (h : ¬ N m) : SrcSame N s (s.setLatch m l) :=
  ⟨rfl, rfl, fun _ hn => State.latchOf_setLatch_ne _ _ (fun e => h (e ▸ hn)), rfl⟩

theorem SrcSame.each {α} {N} {f : α → State → State} {l : List α} (hf : ∀ a ∈ l, ∀ s, SrcSame N s (f a s)) (s) :
    SrcSame N s (s.each l f) := by
  unfold State.each
  induction l generalizing s with
  | nil => exact SrcSame.refl
  | cons a l ih => exact (hf a List.mem_cons_self s).trans (ih (fun b hb => hf b (List.mem_cons_of_mem _ hb)) _)

theorem latchEvent_src {N m} (h : ¬ N m) (a b c s) : SrcSame N s (latchEvent m a b c s) := by
  unfold latchEvent
  dsimp only
  repeat' first
    | exact SrcSame.refl
    | exact SrcSame.ofKeeps (State.inc_keeps ..) (by decide) (by decide)
    | exact SrcSame.ofKeeps (countRefusal_keeps ..) (by decide) (by decide)
    | exact SrcSame.setLatch h
    | exact (SrcSame.setLatch h).trans (SrcSame.ofKeeps (coalesce_keeps ..) (by decide) (by decide))
    | split

theorem sourceChange_src {N m} (h : ¬ N m) (a b c d e f s) : SrcSame N s (sourceChange a m b c d e f s) := by
  unfold sourceChange
  dsimp only
  repeat' first
    | exact SrcSame.refl
    | exact latchEvent_src h ..
    | exact ⟨rfl, rfl, fun _ _ => rfl, rfl⟩
    | split

theorem mapCelled_words {s t : State} (n) (h : t.yar.words = s.yar.words) : mapCelled t n = mapCelled s n := by
  unfold mapCelled mapWord State.struct
  rw [h]

theorem yarCycle_src {N s} (hn : ∀ n, N n → mapCelled s n = false) : SrcSame N s (yarCycle false s) := by
  unfold yarCycle
  dsimp only
  have h0 : SrcSame N s (s.each ((cellsUsed s).map fun c => (c, cellEval s false c)) fun e s => setCellRun s e.1 e.2) :=
    SrcSame.each (f := fun (e : Nat × CellRun) s => setCellRun s e.1 e.2) (fun a _ s => ⟨rfl, rfl, fun _ _ => rfl, rfl⟩) s
  refine h0.trans ?_
  generalize (s.each ((cellsUsed s).map fun c => (c, cellEval s false c)) fun e s => setCellRun s e.1 e.2) = s1 at h0 ⊢
  have hn1 : ∀ n, N n → mapCelled s1 n = false := fun n h => (mapCelled_words n h0.words).trans (hn n h)
  clear h0
  unfold State.each
  generalize ((cellsUsed s).map fun c => (c, (cellRun s c).out)) = l
  induction l generalizing s1 with
  | nil => exact SrcSame.refl
  | cons e l ih =>
    have k : SrcSame N s1 (if ((cellRun s1 e.1).out == e.2) = true then s1 else s1.each (fedBy s1 e.1) fun n s =>
        sourceChange false n e.2 (cellRun s1 e.1).out (cellRun s1 e.1).stamp (cellRun s1 e.1).pay 1 s) := by
      split
      · exact SrcSame.refl
      · refine SrcSame.each (fun m hm s => sourceChange_src (fun hN => ?_) ..) s1
        have := (List.mem_filter.1 hm).2
        simp [hn1 m hN] at this
    exact k.trans (ih _ fun n h => (mapCelled_words n k.words).trans (hn1 n h))

/-- An enabled source without a window, whose latch is free, latches the event. -/
theorem latchEvent_free {s : State} {n : Nat} {stamp : Tick} {payload : BitVec 16} {typ : BitVec 6} (h1 : s.su.open_ = true)
    (h2 : srcEn s n = true) (h3 : groupHeld s n = false) (h4 : s.flag (Reg.SRC_CFG0_WINEN n) = false) (h5 : s.latchOf n = none)
    (h6 : s.epoch.start.toNat ≤ stamp.toNat) :
    latchEvent n stamp payload typ s = s.setLatch n (some ⟨stamp, payload, typ, s.epoch.num, true, false⟩) := by
  unfold latchEvent
  simp [h1, h2, h3, h4, h5, h6, winPos, epochAt]

theorem groupHeld_none {s : State} (n : Nat) (h : s.img.dtPhase < 2) : groupHeld s n = false := by
  unfold groupHeld
  simp
  omega

end Sys2Proof.Machine
end

