-- ==== Sys2Proof/Laws/Thaws.lean ====
section
/-! SUPPORT. Lemmas on thaws and staged configuration. -/

set_option Elab.async false

set_option maxHeartbeats 1000000

namespace Sys2Proof.Machine

/-- Two states whose times differ in no more than the requests that are out on the links. -/
def sameLink (s t : State) : Prop := t.time = { s.time with t1 := t.time.t1, waiting := t.time.waiting }

theorem sameLink.refl {s : State} : sameLink s s := rfl

theorem sameLink.trans {s t u : State} (h : sameLink s t) (k : sameLink t u) : sameLink s u := by
  unfold sameLink at *
  rw [k, h]

theorem Keeps.sameLink {w : List Part} {s t : State} (h : Keeps w s t) (h1 : .time ∉ w := by decide) : sameLink s t := by
  unfold Machine.sameLink
  rw [h.same .time h1]

theorem sameLink.keeps {w : List Part} {s t u : State} (h : sameLink s t) (k : Keeps w t u) (h1 : .time ∉ w := by decide) :
    sameLink s u := h.trans (k.sameLink h1)

theorem sameLink.foldl {α : Type} {f : State → α → State} {l : List α} (hf : ∀ a ∈ l, ∀ s, sameLink s (f s a)) (s : State) :
    sameLink s (l.foldl f s) := by
  induction l generalizing s with
  | nil => exact .refl
  | cons a l ih => exact (hf a (by simp) s).trans (ih (fun b hb => hf b (by simp [hb])) _)

theorem sameLink.each {α : Type} {f : α → State → State} (hf : ∀ a s, sameLink s (f a s)) (l : List α) (s : State) :
    sameLink s (s.each l f) := by
  unfold State.each
  induction l generalizing s with
  | nil => exact .refl
  | cons a l ih => exact (hf a s).trans (ih _)

section
variable {beat : Nat → State → State} (hb : ∀ j s, sameLink s (beat j s))
include hb

theorem arbBeat_link (a : Nat) (s : State) : sameLink s (arbBeat a beat s) := by
  unfold arbBeat
  dsimp only
  split
  · exact .refl
  · exact .trans (t := s.setArb a _) rfl (hb ..)

theorem arbBeats_link (a n : Nat) (s : State) : sameLink s (arbBeats a beat n s) := by
  induction n generalizing s with
  | zero => exact .refl
  | succ n ih => exact (arbBeat_link hb a s).trans (ih _)

theorem arbRun_link (a : Nat) (reqs) (s : State) : sameLink s (arbRun a reqs beat s) := by
  have h := (arbSync_keeps a s).sameLink
  unfold arbRun
  dsimp only
  split
  · exact (h.trans (arbBeats_link hb ..)).keeps (arbDecide_keeps ..)
  · exact (h.keeps (arbDecide_keeps ..)).trans (arbBeat_link hb ..)

theorem arbRevoke_link (a : Nat) (reqs) (s : State) : sameLink s (arbRevoke a reqs beat s) := by
  have h := (arbSync_keeps a s).sameLink
  unfold arbRevoke
  dsimp only
  split
  · exact h
  · split
    · exact h
    · exact ((h.trans (arbBeats_link hb ..)).keeps (arbTakeBack_keeps ..)).keeps (arbDecide_keeps ..)

theorem arbStep_link (a : Nat) (reqs) (s : State) : sameLink s (arbStep a reqs beat s) := by
  unfold arbStep
  split
  · exact arbRun_link hb ..
  · split
    · exact arbRun_link hb ..
    · split
      · exact arbRevoke_link hb ..
      · exact (arbSync_keeps a s).sameLink.trans (arbBeats_link hb ..)

end

theorem sendFrame_link {s t : State} (h : sameLink s t) (p : Nat) (f : LinkFrame) : sameLink s (sendFrame p f t) :=
  h.keeps (sendFrame_keeps ..)

theorem setPort_link {s t : State} (h : sameLink s t) (p : Nat) (x : PortS) : sameLink s (t.setPort p x) :=
  h.keeps (State.setPort_keeps ..)

theorem sendCtlFrame_link {s t : State} (h : sameLink s t) (p : Nat) (f : LinkFrame) : sameLink s (sendCtlFrame p f t) := by
  unfold sendCtlFrame
  dsimp only
  split
  · exact sendFrame_link (setPort_link h ..) ..
  · split
    · refine sendFrame_link (h.trans ?_) ..
      unfold sameLink
      dsimp only
    · split <;> exact sendFrame_link h ..

theorem linkBeat_link (p j : Nat) (s : State) : sameLink s (linkBeat p j s) := by
  unfold linkBeat
  dsimp only
  repeat' first
    | with_reducible exact .refl
    | with_reducible apply sendCtlFrame_link
    | with_reducible apply sendFrame_link
    | with_reducible apply setPort_link
    | with_reducible apply sameLink.keeps _ (State.inc_keeps ..) (by decide)
    | split

theorem arbBeatOf_link (a j : Nat) (h : a < 20) (s : State) : sameLink s (arbBeatOf a j s) := by
  unfold arbBeatOf
  split_ifs
  · exact (clusBeat_keeps ..).sameLink
  · exact linkBeat_link ..

theorem linkRun_link (a : Nat) (h : a < 20) (s : State) : sameLink s (linkRun a s) := by
  have h0 := (arbSync_keeps a s).sameLink
  have hb := fun j s => arbBeatOf_link a j h s
  unfold linkRun
  dsimp only
  split
  · split
    · exact (h0.trans (arbBeats_link hb ..)).keeps (arbWithdraw_keeps ..)
    · exact h0.trans (arbRun_link hb ..)
  · exact h0.trans (arbRun_link hb ..)

theorem thawSlot_link (p : Fin 4) (s : State) : sameLink s (thawSlot p s) := by
  have hb := fun j s => arbBeatOf_link (16 + p) j (by omega) s
  unfold thawSlot
  dsimp only
  split
  · exact (idleSlot_keeps ..).sameLink
  · split
    · split
      · exact linkRun_link _ (by omega) _
      · exact arbStep_link hb ..
    · exact arbStep_link hb ..

theorem thawArbs_link (w : Wires) (s : State) : sameLink s (thawArbs w s) := by
  unfold thawArbs
  dsimp only
  refine .trans ?_ (.each (fun x s => ?_) _ _)
  · refine .trans (t := s.each (List.range 21) arbRefill) (.each (fun a s => (arbRefill_keeps a s).sameLink) (List.range 21) s) ?_
    unfold State.each
    refine sameLink.foldl (fun a ha s => arbStep_link (fun j s => arbBeatOf_link a j (by have := List.mem_range.mp ha; omega) s) ..) (State.each s (List.range 21) arbRefill)
  · split
    · exact thawSlot_link ..
    · exact .refl

/-- A passage of n cycles, at whose ends start-up stands alike. -/
structure Adv (n : Nat) (s t : State) : Prop where
  time : t.time = { s.time with
    now := s.time.now + BitVec.ofNat 64 (2 * n), rateAcc := t.time.rateAcc, captures := t.time.captures, capPend := t.time.capPend
    t1 := t.time.t1, waiting := t.time.waiting }
  open_ : t.su.open_ = s.su.open_
  hold : t.su.hold = s.su.hold
  phase : t.su.phase = s.su.phase

theorem Adv.trans {m n : Nat} {s t u : State} (h : Adv m s t) (k : Adv n t u) : Adv (m + n) s u where
  time := by
    rw [k.time, h.time]
    simp only [TimeS.mk.injEq, and_true, true_and]
    rw [BitVec.add_assoc, ← BitVec.ofNat_add]
    congr 2
    omega
  open_ := k.open_.trans h.open_
  hold := k.hold.trans h.hold
  phase := k.phase.trans h.phase

theorem Keeps.adv {w : List Part} {s t : State} (h : Keeps w s t) (h1 : .time ∉ w := by decide) (h2 : .su ∉ w := by decide) :
    Adv 0 s t where
  time := by rw [h.same .time h1]; simp
  open_ := congrArg SuS.open_ (h.same .su h2)
  hold := congrArg SuS.hold (h.same .su h2)
  phase := congrArg SuS.phase (h.same .su h2)

theorem sameLink.adv {w : List Part} {s t : State} (h : sameLink s t) (k : Keeps w s t) (h2 : .su ∉ w := by decide) : Adv 0 s t where
  time := by rw [h]; simp
  open_ := congrArg SuS.open_ (k.same .su h2)
  hold := congrArg SuS.hold (k.same .su h2)
  phase := congrArg SuS.phase (k.same .su h2)

theorem Adv.keeps {w : List Part} {n : Nat} {s t u : State} (h : Adv n s t) (k : Keeps w t u) (h1 : .time ∉ w := by decide)
    (h2 : .su ∉ w := by decide) : Adv n s u :=
  h.trans (k.adv h1 h2)

/-- The instance's clocks and its count run. -/
def goes (s : State) : Prop := timeRuns s = true ∧ s.time.running = true ∧ clocked s = true

theorem Adv.goes {n : Nat} {s t : State} (h : Adv n s t) (k : goes s) : goes t := by
  obtain ⟨k1, k2, k3⟩ := k
  unfold clocked at k3
  unfold timeRuns at k1
  refine ⟨?_, by rw [h.time]; exact k2, ?_⟩
  · unfold timeRuns
    rw [h.time]
    exact k1
  · unfold clocked
    rw [h.time, h.hold]
    exact k3

theorem noteRecov_su (s : State) : (noteRecov s).su = { s.su with recov := (noteRecov s).su.recov } := by
  unfold noteRecov
  split <;> rfl

theorem fieldCycle_su (b) (s : State) : (fieldCycle b s).su = { s.su with recov := (fieldCycle b s).su.recov } := by
  have k : ∃ u, Keeps [.out, .regs, .time, .src, .yar, .xb, .core, .clus, .rec_, .pwr, .trc] s u ∧
      Keeps [.regs, .arb, .rec_] (noteRecov u) (fieldCycle b s) := by
    unfold fieldCycle
    dsimp only
    refine ⟨_, ?_, Keeps.each (fun a s => Keeps.mono (arbCycle_keeps ..) (by decide))
      (Keeps.step (noteVersions_keeps ..) (by decide) (Keeps.mono (endLostMigrations_keeps ..) (by decide)))⟩
    refine Keeps.step (noteRoutes_keeps ..) (by decide) (Keeps.step (noteDelayed_keeps ..) (by decide) (Keeps.step (doorbell_keeps ..) (by decide) (Keeps.step (drainTrace_keeps ..) (by decide) ?_)))
    have h1 : Keeps [.out, .regs, .time, .src, .yar, .xb, .core, .clus, .rec_, .pwr, .trc] s
        (endOffers (endCaptures (endLow { s with xb := { s.xb with reflex := [] } }))) :=
      Keeps.step (endOffers_keeps ..) (by decide) (Keeps.step (endCaptures_keeps ..) (by decide) (Keeps.step (endLow_keeps ..) (by decide)
        (Keeps.xb (by decide) Keeps.refl)))
    exact Keeps.ite h1 (Keeps.step (yarCycle_keeps ..) (by decide) h1)
  obtain ⟨u, k1, k2⟩ := k
  rw [k2.same .su (by decide), noteRecov_su u, k1.same .su (by decide)]

theorem cycle_adv {b : Bool} {s : State} (h : goes s) : Adv 1 s (cycle 2 b s) := by
  have k : (cycle 2 b s).su = { s.su with recov := (cycle 2 b s).su.recov } := by
    have hh := hostCycle_keeps s
    have k1 (u : State) : Keeps [.regs, .arb] u (u.each [21, 22] arbCycle) :=
      Keeps.each (fun a s => arbCycle_keeps ..) Keeps.refl
    have k2 (u : State) : (countOn 2 u).su = u.su := rfl
    unfold cycle
    dsimp only
    rw [(k1 _).same .su (by decide)]
    split_ifs
    · rw [fieldCycle_su, k2, hh.same .su (by decide)]
    · rw [k2, hh.same .su (by decide)]
    · rw [fieldCycle_su, hh.same .su (by decide)]
    · rw [hh.same .su (by decide)]
  exact ⟨by rw [cycle_time h.1], by rw [k], by rw [k], by rw [k]⟩

theorem thawCycle_adv (w : Wires) {s : State} (h : goes s) : Adv 1 s (thawCycle w s) := by
  have k := (takeWires_keeps w false s).adv
  have k1 := (thawArbs_link w (takeWires w false s)).adv (thawArbs_keeps ..)
  have k2 := k.trans k1
  exact k2.trans (cycle_adv (b := true) (k2.goes h))

theorem thawCycles_adv (w : Wires) (n : Nat) {s : State} (h : goes s) : Adv n s (thawCycles w n s) := by
  induction n generalizing s with
  | zero => exact (Keeps.refl : Keeps [] s s).adv
  | succ n ih =>
    have h1 := thawCycle_adv w h
    have h2 := ih (h1.goes h)
    have h3 := h1.trans h2
    rw [Nat.add_comm] at h3
    exact h3

theorem freeze_adv (w : Wires) (e) {s : State} (h : goes s) : Adv 1 s (freeze w e s) := by
  have k : Keeps [.regs, .epoch, .src, .yar, .img] s
      (deepBegin (clearCells { (emptyWindows e.start.toNat s).raise Reg.THAW_STATUS_ACTIVE with epoch := e })) :=
    Keeps.step (deepBegin_keeps ..) (by decide) (Keeps.step (clearCells_keeps ..) (by decide)
      (Keeps.epoch (by decide) (Keeps.step (State.raise_keeps ..) (by decide) (Keeps.mono (emptyWindows_keeps ..) (by decide)))))
  exact k.adv.trans (thawCycle_adv w (k.adv.goes h))

theorem foldl_max (f : Nat → Nat) (l : List Nat) (n : Nat) : n ≤ l.foldl (fun n r => max n (f r)) n := by
  induction l generalizing n with
  | nil => exact Nat.le_refl _
  | cons a l ih => exact Nat.le_trans (Nat.le_max_left ..) (ih _)

theorem commitPhase_adv (w : Wires) (m due s2) {s : State} (h : goes s) :
    Adv (commitPhase w m due s2 s).1 s (commitPhase w m due s2 s).2 ∧ 1 ≤ (commitPhase w m due s2 s).1 := by
  unfold commitPhase
  dsimp only
  have h0 := foldl_max (fun r => s2Length s r) s2 1
  have k1 : Keeps [.regs, .staged, .src, .xb, .clus, .rec_, .img, .rime, .pwr, .edw, .trc, .seg] s
      (((commitFirst m due s).each (s2.filter fun r => s2Length s r == 1) commitS2).each (List.range 4) designate) :=
    Keeps.each (fun _ _ => Keeps.mono (designate_keeps ..) (by decide)) (Keeps.each (fun _ _ => Keeps.mono (commitS2_keeps ..) (by decide)) (Keeps.mono (commitFirst_keeps ..) (by decide)))
  have a1 := k1.adv
  have a2 := a1.trans (thawCycles_adv w (List.foldl (fun n r => max n (s2Length s r)) 1 s2 - 1) (a1.goes h))
  have k3 (u : State) : Keeps [.regs, .staged, .img, .rime, .seg] u (u.each (s2.filter fun r => s2Length s r != 1) fun r s => releaseSpare r (commitS2 r s)) :=
    Keeps.each (fun _ _ => Keeps.step (releaseSpare_keeps ..) (by decide) (Keeps.mono (commitS2_keeps ..) (by decide))) Keeps.refl
  have a3 := a2.trans (k3 _).adv
  have a4 := a3.trans (thawCycle_adv w (a3.goes h))
  refine ⟨?_, h0⟩
  have : 0 + (List.foldl (fun n r => max n (s2Length s r)) 1 s2 - 1) + 0 + 1 = List.foldl (fun n r => max n (s2Length s r)) 1 s2 := by omega
  rw [this] at a4
  exact a4

theorem restorePhase_adv (w : Wires) (n : Nat) {s : State} (h : goes s) : Adv (restorePhase w n s).1 s (restorePhase w n s).2 := by
  induction n generalizing s with
  | zero => exact (Keeps.refl : Keeps [] s s).adv
  | succ n ih =>
    unfold restorePhase
    split
    · exact (Keeps.refl : Keeps [] s s).adv
    · rename_i m _
      have a1 := (restoreMark_keeps m s).adv.keeps (discardDisabled_keeps (restoreMark m s))
      have a2 := a1.trans (thawCycle_adv w (a1.goes h))
      have a3 := a2.trans (ih (a2.goes h))
      have : 0 + 1 + (restorePhase w n (thawCycle w (discardDisabled (restoreMark m s)))).1
          = (restorePhase w n (thawCycle w (discardDisabled (restoreMark m s)))).1 + 1 := by omega
      rw [this] at a3
      exact a3

theorem takeoverPhase_adv (w : Wires) {s : State} (h : goes s) : Adv (takeoverPhase w s).1 s (takeoverPhase w s).2 := by
  unfold takeoverPhase
  dsimp only
  have k (l : List (Nat × Nat × Nat)) : Keeps [.regs, .src, .camp, .seg, .trc, .pwr] s (s.each l fun x s =>
      if s.on ((16 * x.1 + x.2.2) / 4) = true then takeOver x.1 x.2.1 x.2.2 s else wake ((16 * x.1 + x.2.2) / 4) 1 false s) :=
    Keeps.each (fun _ _ => Keeps.ite (Keeps.mono (takeOver_keeps ..) (by decide)) (Keeps.mono (wake_keeps ..) (by decide))) Keeps.refl
  split
  · exact (k _).adv
  · have a (l) := ((k l).adv).trans (thawCycles_adv w 5 ((k l).adv.goes h))
    rw [Nat.zero_add] at a
    dsimp only
    exact a _

theorem openPhase_adv (w : Wires) {s : State} (h : goes s) : Adv 1 s (openPhase w s) := by
  have k1 := (Keeps.step (resolveStamps_keeps (s.time.now + 2) (takeWires w true s)) (w := [.src, .yar, .regs, .trc]) (by decide)
    (Keeps.mono (takeWires_keeps w true s) (by decide))).adv
  have k2 := k1.trans ((thawArbs_link w (resolveStamps (s.time.now + 2) (takeWires w true s))).adv (thawArbs_keeps ..))
  have k3 := (k2.trans (cycle_adv (b := true) (k2.goes h))).keeps (openLatches_keeps (s.time.now + 2) _)
  unfold openPhase
  dsimp only
  generalize openLatches (s.time.now + 2) (cycle 2 true (thawArbs w (resolveStamps (s.time.now + 2) (takeWires w true s)))) = X at k3
  have k4 (c : Prop) [Decidable c] (Y : State) (hY : Keeps [.img] X Y) : Adv 1 s (if c then Y else X) := by
    split
    · exact k3.keeps hY
    · exact k3
  have k5 := k4 (X.img.dtPhase = 2) { X with img := { X.img with dtPhase := 3 } } (Keeps.img (by decide) Keeps.refl)
  generalize (if X.img.dtPhase = 2 then ({ X with img := { X.img with dtPhase := 3 } } : State) else X) = Y at k5
  have k6 := ((k5.keeps (State.wr_keeps Y Reg.THAW_STATUS_ACTIVE 0)).keeps (stampWrites_keeps _)).keeps (pumpRemote_keeps _)
  split
  · exact k6.keeps (barQueue_keeps ..)
  · exact k6

theorem drainLength_pos (s : State) : 1 ≤ drainLength s := foldl_max (fun e => (e - s.t) / 2) _ 1

/-- What a thaw has done when its commit phase begins. -/
def thawDrained (w : Wires) (e : EpochS) (s : State) : State := thawCycles w (drainLength (freeze w e s)) (drainAll (freeze w e s))

/-- A thaw's length is the time it takes. -/
theorem runThaw_adv (e zero d) {s : State} (h : goes s) : ∃ n, Adv n s (runThaw e zero d s) ∧ 5 ≤ n ∧
    (runThaw e zero d s).rd Reg.THAW_STATUS_LAST = n % 2 ^ 5 ∧ (runThaw e zero d s).epoch = e := by
  have kf := freeze_adv ⟨d, s.t⟩ e h
  generalize hw : (⟨d, s.t⟩ : Wires) = w at kf
  have ef : (freeze w e s).epoch = e := by
    unfold freeze
    dsimp only
    rw [(thawCycle_keeps ..).same .epoch (by decide), (deepBegin_keeps ..).same .epoch (by decide), (clearCells_keeps ..).same .epoch (by decide)]
  have a1 := kf.keeps (drainAll_keeps (freeze w e s))
  have a2 : Adv (1 + drainLength (freeze w e s)) s (thawDrained w e s) := a1.trans (thawCycles_adv w _ (a1.goes h))
  have e2 : (thawDrained w e s).epoch = e := by
    unfold thawDrained
    rw [(thawCycles_keeps ..).same .epoch (by decide), (drainAll_keeps ..).same .epoch (by decide), ef]
  have k4 (X : State) (hX : Keeps [.regs, .img] (thawDrained w e s) X) (m due sp) :
      ∃ n, Adv n s (closeThaw w (drainLength (freeze w e s)) (commitPhase w m due sp X)) ∧ 5 ≤ n ∧
        (closeThaw w (drainLength (freeze w e s)) (commitPhase w m due sp X)).rd Reg.THAW_STATUS_LAST = n % 2 ^ 5 ∧
        (closeThaw w (drainLength (freeze w e s)) (commitPhase w m due sp X)).epoch = e := by
    have a3 := a2.keeps hX
    obtain ⟨c1, c2⟩ := commitPhase_adv w m due sp (a3.goes h)
    have a4 := a3.trans c1
    have a5 := a4.trans (restorePhase_adv w 8 (a4.goes h))
    have a6 := a5.trans (takeoverPhase_adv w (a5.goes h))
    have a7 := a6.trans (thawCycle_adv w (a6.goes h))
    have a8 := a7.trans (openPhase_adv w (a7.goes h))
    have hd := drainLength_pos (freeze w e s)
    have e3 : (commitPhase w m due sp X).2.epoch = e :=
      ((commitPhase_keeps w m due sp X).same .epoch (by decide)).trans ((hX.same .epoch (by decide)).trans e2)
    have e4 := (closeThaw_keeps w (drainLength (freeze w e s)) (commitPhase w m due sp X)).same .epoch (by decide)
    generalize commitPhase w m due sp X = c at *
    refine ⟨_, a8.keeps (State.wr_keeps ..), by omega, State.rd_wr_same .., e4.trans e3⟩
  unfold runThaw
  dsimp only
  rw [hw]
  refine k4 _ ?_ ..
  exact Keeps.ite (Keeps.each (fun _ _ => partDone_keeps ..) Keeps.refl) Keeps.refl

end Sys2Proof.Machine
end

