-- ==== Sys2Proof/Laws/Transport.lean ====
section
/-! SUPPORT. Lemmas on transport: the scheduler, the arbiters and the rings. -/

set_option maxHeartbeats 1000000

namespace Sys2Proof.Machine

theorem arbSync_arbOf (a : Nat) (s : State) : ((arbSync a s).arbOf a).holder = (s.arbOf a).holder ∧
    ((arbSync a s).arbOf a).revoked = (s.arbOf a).revoked ∧ ((arbSync a s).arbOf a).next = (s.arbOf a).next := by
  unfold arbSync
  dsimp only
  split_ifs <;> simp [arbFill]

theorem arbSync_other (a : Nat) {b : Nat} (h : b ≠ a) (s : State) : (arbSync a s).arbOf b = s.arbOf b := by
  unfold arbSync
  dsimp only
  split_ifs <;> simp [State.arbOf_setArb_ne, h]

theorem arbOf_arb {s t : State} (h : t.arb = s.arb) (a : Nat) : t.arbOf a = s.arbOf a := by
  unfold State.arbOf
  rw [h]

theorem State.wr_arbOf (s : State) (f v a) : (s.wr f v).arbOf a = s.arbOf a := rfl
theorem State.inc_arbOf (s : State) (f v a) : (s.inc f v).arbOf a = s.arbOf a := rfl
theorem State.incW_arbOf (s : State) (f v a) : (s.incW f v).arbOf a = s.arbOf a := rfl

theorem arbDecide_other (a : Nat) {b : Nat} (h : b ≠ a) (reqs idle) (s : State) : (arbDecide a reqs idle s).arbOf b = s.arbOf b := by
  unfold arbDecide arbDecide.grant
  dsimp only
  split <;> split_ifs <;> (try split) <;> simp only [State.wr_arbOf, State.incW_arbOf, State.arbOf_setArb_ne _ _ h]

theorem arbDecide_revoked {a : Nat} {reqs : List ArbReq} (idle) {s : State} (h : reqs.any (·.f) = true) :
    ((arbDecide a reqs idle s).arbOf a).revoked = (s.arbOf a).revoked := by
  unfold arbDecide arbDecide.grant
  dsimp only
  split
  · rw [if_pos h]
    split <;> simp [State.wr_arbOf, State.incW_arbOf, arbInForce]
  · split <;> simp [State.wr_arbOf, State.incW_arbOf, arbInForce]

theorem arbBeatOf_arb (a j : Nat) (s : State)
    (h : 21 ≤ a → j ≠ 16 → tget false s.gate.half (16 * (a - 21) + j) = false) : (arbBeatOf a j s).arb = s.arb := by
  unfold arbBeatOf
  split_ifs
  · exact (clusBeat_keeps ..).same .arb (by decide)
  · exact (linkBeat_keeps ..).same .arb (by decide)
  · exact (spillBeat_keeps ..).same .arb (by decide)
  · unfold ringBeat
    by_cases hj : j = 16
    · rw [if_pos hj]
      split <;> rfl
    · rw [if_neg hj]
      dsimp only
      rw [if_pos (by simp [h (by omega) hj])]

/-- What a refill does to the arbiter. -/
theorem credit_fill (w : Nat → Nat) (n : Nat) (j : Nat) (h : j < n) :
    tget (0 : Int) ((List.range n).foldl (fun (t : Tbl Int) j => tset 0 t j (w j)) []) j = w j := by
  induction n with
  | zero => omega
  | succ n ih =>
    rw [List.range_succ, List.foldl_append]
    simp only [List.foldl]
    by_cases hj : j = n
    · subst hj
      exact tget_tset_same ..
    · rw [tget_tset_ne _ _ _ _ hj]
      exact ih (by omega)

theorem arbReqs_setArb (a b : Nat) (x) (s : State) : arbReqs a (s.setArb b x) = arbReqs a s := rfl

/-- What a grant leaves at its arbiter, in normal mode. -/
theorem arbDecide_grants {a : Nat} {reqs : List ArbReq} {r : ArbReq} {byF : Bool} {s : State} (idle)
    (h1 : (s.arbOf a).revoked = none) (h2 : arbPick (arbInForce s a (s.arbOf a)) a reqs = some (r, byF)) (h3 : (s.arbOf a).aging = false) :
    ((arbDecide a reqs idle s).arbOf a).holder = some { j := r.j, beats := grantBeats a byF r, done := 0, f := r.f, due := b2n idle } ∧
      ((arbDecide a reqs idle s).arbOf a).credit = tset 0 (s.arbOf a).credit r.j (debit (tget 0 (s.arbOf a).credit r.j) (grantBeats a byF r)) ∧
      ((arbDecide a reqs idle s).arbOf a).next = (r.j + 1) % arbSize a ∧ (arbDecide a reqs idle s).gate = s.gate := by
  refine ⟨?_, ?_, ?_, (arbDecide_keeps ..).same .gate (by decide)⟩ <;>
  · unfold arbDecide arbDecide.grant
    dsimp only
    rw [show (arbInForce s a (s.arbOf a)).revoked = none from h1]
    dsimp only
    rw [h2]
    simp [State.wr_arbOf, State.incW_arbOf, h3, arbInForce]

/-- The synchronization changes nothing at an arbiter whose mode stands and whose scope is not restored. -/
theorem arbSync_calm {a : Nat} {s : State} (h1 : arbMustAge s a = (s.arbOf a).aging) (h2 : (s.arbOf a).scope = false) :
    arbSync a s = s.setArb a (s.arbOf a) := by
  unfold arbSync
  dsimp only
  rw [if_pos (by simp [h1]), show ({ s.arbOf a with scope := (s.arbOf a).scope && restoring s a } : Arb) = s.arbOf a from
    (by cases hb : s.arbOf a; rw [hb] at h2; simp at h2; simp [h2])]

theorem arbInForce_regs {a : Nat} {s t : State} (h : t.regs = s.regs) (b : Arb) : arbInForce t a b = arbInForce s a b := by
  unfold arbInForce arbN arbWindow State.flag State.rd
  rw [h]

/-- A beat in the middle of a granted transfer. -/
theorem arbBeat_mid {a : Nat} {h : Xfer} {s : State} (h1 : (s.arbOf a).holder = some h) (h2 : h.granted = true) (h3 : h.done + 1 < h.beats)
    (h4 : 21 ≤ a → h.j ≠ 16 → tget false s.gate.half (16 * (a - 21) + h.j) = false) :
    (arbBeat a (arbBeatOf a) s).arb = tset {} s.arb a { s.arbOf a with holder := some { h with done := h.done + 1, granted := true } } := by
  unfold arbBeat
  dsimp only
  rw [h1]
  dsimp only
  rw [arbBeatOf_arb _ _ _ (by exact h4), if_pos (by simp [h2]), if_neg (by omega)]
  rfl

/-- The scheduler moves its one match; the rest of the cycle touches neither crossings nor records. -/
theorem schedCycle_one {ecc} {r : Req} {s : State} (h0 : thawDue s = false) (h1 : schedIter (schedReqs s) s.xb [] = [r])
    (h2 : schedIter (schedReqs s) s.xb [r] = []) :
    Keeps [.regs, .src, .xb, .lnk, .pwr, .trc] (schedMove ecc r { s with xb := { movePtrs [r] s.xb with reflex := [] } }) (schedCycle ecc s) := by
  unfold schedCycle
  simp only [h0, h1, h2, List.append_nil, Bool.false_eq_true, ↓reduceIte]
  refine Keeps.each (fun p s => Keeps.mono (noteResolved_keeps p s) (by decide)) ?_
  refine Keeps.step (pumpAll_keeps _) (by decide) ?_
  exact Keeps.each (fun p s => Keeps.mono (stagingMove_keeps p s) (by decide)) Keeps.refl

/-- What is forwarded to a region of this die enters its crossing. -/
theorem forwardTo_region {r : Req} {e : XEntry} (s : State) (h : r.o < 16) :
    ∃ u, forwardTo r e s = intoCrossing r.i (replicaOf r.dest e.msg) (destLane r.dest) e.restored u ∧ Keeps [.regs, .trc, .rec_] s u := by
  unfold forwardTo
  dsimp only
  rw [if_pos h]
  refine ⟨_, rfl, Keeps.step (noteMigrate_keeps ..) (by decide) ?_⟩
  have h1 : Keeps [.regs, .trc, .rec_] s (if (replicaOf r.dest e.msg).isEvent = true then trace 2 0 (replicaOf r.dest e.msg) s else s) :=
    Keeps.ite (Keeps.mono (trace_keeps ..) (by decide)) Keeps.refl
  exact Keeps.ite (Keeps.step (State.inc_keeps ..) (by decide) h1) h1

theorem crossing_rq {s t : State} (h : t.rq = s.rq) (a : Nat) : t.crossing a = s.crossing a := by
  unfold State.crossing
  rw [h]

end Sys2Proof.Machine
end

