-- ==== Sys2Proof/Tests/Slice0.lean ====
section
/-! SUPPORT. Tests of the model: well-formedness refuses what it should, small steps, and a state that meets the hypotheses of each statement. -/

namespace Sys2Proof.Tests

open Sys2Proof Sys2Proof.Machine

set_option Elab.async false
set_option maxRecDepth 20000

/-- An access by the register port of master 1, with every byte. -/
def port1 : Access := ⟨.port, 1, false, 0xF, false⟩

/-- The same with reg_dbg at 1. -/
def dbg1 : Access := ⟨.port, 1, true, 0xF, false⟩

/-- An access through the manager window of the host gate. -/
def mgr : Access := ⟨.bar0, 0, false, 0xF, false⟩

/-- An access through a slice page of the host gate. -/
def page : Access := ⟨.bar2, 0, false, 0xF, false⟩

/-- An access by core 0's own interface. -/
def cif0 : Access := ⟨.cif 0, 0, false, 0xF, false⟩

/-- A die that runs: thaw 0 has passed, every domain is ON and every time unit loaded. -/
def base : State :=
  { State.reset with
    time := { now := 1000000, running := true, units := (List.range 21).map fun u => (u, true) }
    su := { phase := 6, open_ := true, recov := false }
    epoch := { num := 9, start := 999000, prev := 995000 }
    pwr := { st := (List.range 24).map fun d => (d, 2) } }

/-- An event of class G of source 5 of this die, bound for core 0. -/
def ev : Msg := ⟨7, 0, 5, 0, 3, .g, 0, 100, 0, 0, false, false, 0x1234, none, none⟩

/-- The running die with port 0 in UP and a route to die 1 through it. -/
def linked : State :=
  ({ base with lnk := [(0, { st := .up, everUp := true })] }.wr (Reg.RT_ENTRY_VALID 0) 1).wr (Reg.RT_ENTRY_DIE 0) 1

/-- The running die with an event of source 3 to offer. -/
def offering : State := { base with src := { latch := [(3, some ⟨5, 0, 0, 0, true, false⟩)] } }.wr (Reg.SRC_CFG0_EN 3) 1

/-- An entry of the crossbar bound for core 0. -/
def entry0 : XEntry := { msg := ev, owed := [(0, .out 0)], order := 0 }

/-- The running die with Moraine on and a ring of four blocks for input 0. -/
def moraine : State := (base.wr Reg.MRN_CTRL_EN 1).wr (Reg.MRN_QCFG_LEN 0) 4

/-- A full staging, and an empty ring. -/
def spilling : State := { moraine with xb := { staging := [(0, [entry0, entry0, entry0, entry0])] } }

/-- A block in the ring. -/
def spilled : State := { moraine with xb := { rings := [(0, [(0, [entry0])])] } }

/-- The same, with a region of the MPU over the block that permits nothing. -/
def strictSpill : State := spilled.wr (mpuFld false 0 0x48 0 1 0) 1

/-- The running die with port 0 in a given state. -/
def withPort (x : PortS) : State := { base with lnk := [(0, x)] }

/-- A frame with its CRC and no credit return. -/
def frame (t : Nat) (q : BitVec 8) (m : BitVec 128) : LinkFrame := sealFrame (mkFrame t q m) 0 0

/-- The running die as die 1, with port 0 in UP. -/
def slave : State := { base with pins := { idDie := 1 }, lnk := [(0, { st := .up })] }

/-- Ports 0 and 1 in UP, port 0 toward die 1. -/
def twoPorts : State := ({ linked with lnk := [(0, { st := .up, everUp := true }), (1, { st := .up })] }).wr (Reg.LNK_PEER_PEER 0) 1

/-- A run whose program begins with a word. -/
def runOf (w : Word) : Run := { msg := ev, w := List.replicate 8 0, prog := [some w], runs := 1, d := 0, slot := 0 }

/-- The running die with a run in Campion 0. -/
def camp (r : Run) : State := { base with camp := [(0, { run := some r })] }

theorem fetches_intro {s : State} {n : Nat} {r : Run} {op : COp} {w : Word} (h : running s n = some r)
    (hw : r.prog.getD r.pc none = some w) (hd : campDecode w.toNat r.pc = some op) : fetches s n r op := ⟨h, w, hw, hd⟩

/-- A lock held by master 1. -/
def locked1 : State := { base with lock := [(0, { owner := 1, held := true })] }

/-- Core 0 with an event in its pending set, its line cached. -/
def pended : State :=
  ({ base with core := [(0, { pend := [ev] })], clus := [(0, { lines := [⟨5, 0, 0, false⟩] })] } : State).wr (Reg.THRESH_LEVEL 0) 32

/-- A predictor of core 0 that is locked on a prediction. -/
def predicting : State :=
  (({ base with pred := [(0, { st := .locked, nextValid := true })] } : State).wr (Reg.PREWARM_EN 0) 1).wr (Reg.PW_SRC_EN 0 0) 1

/-- A token about the event, sent by die 1. -/
def tok (k : BitVec 16) : Msg := { ev with typ := 0x14, payload := k, ts := 0x1000 }

/-- The token has reached output 21, beside some Firn records. -/
def tokIn (k : BitVec 16) (l : List (Nat × Option FirnRec)) : State :=
  { base with xb := { recIn := [tok k] }, firn := { recs := l } }

/-- The event's record, with two replicas or one outstanding. -/
def rec2 : FirnRec := { kind := .event, msg := ev, need := [0, 1] }
def rec1 : FirnRec := { kind := .event, msg := ev, need := [0] }

/-- The mirror of an event of die 1. -/
def mirror1 : FirnRec := { kind := .mirror, msg := { ev with origin := 1 } }

/-- A migration slot of source 5. -/
def slot5 : MigSlot := { source := 5, old := 0, new := 1, first := 0 }

/-- A load of the field die in a given state. -/
def loadSt (l : LoadS) : State := { base with img := { load := l } }

/-- A seal record. -/
def rec0 : SealRec := ⟨0, 1, 0, [], [], 0⟩

/-- The running die with Edelweiss as given. -/
def edw (e : EdwS) : State := { base with edw := e }

/-- The barrier of field die 0 as given. -/
def bup (b : BarS) : State := { base with bar := b }

/-- The host gate as given, its barrier in UP. -/
def gup (g : GateS) : State := { base with gate := { g with bar := { st := .up } } }

/-- A custody record of a host-bound event. -/
def cust : FirnRec := { kind := .custody, msg := ev, place := 128 }

/-- The running die with slice 0 as given. -/
def slc (x : Slice) : State := gup { slices := [(0, x)] }

/-- A record in a ring writer. -/
def rrec : RingRec := ⟨ev, 0, 0⟩

/-- A ring writer's record has its first beat before it. -/
def ringing : State :=
  { slc { st := .open_, q := [rrec] } with arb := [(21, { holder := some ⟨0, 8, 0, false, true, 0⟩ })] }.wr (Reg.SLC_KEY_PRIV 0) 1

/-- The running die with one domain in a given state. -/
def domAt (d v : Nat) : State := base.setDom d v

/-- Start-up in a given phase. -/
def suAt (u : SuS) : State := { base with su := u }

/-- The word that an access leads to. -/
def spotAt (s : State) (a : Access) (addr : Nat) : Spot := (locate s a.via addr).getD ⟨⟨.ID, 0, 0, 0, 0, 0, .xbar, []⟩, 0, 0, 0, .active⟩

/-- The row of an offset. -/
def regAt (off : Nat) : RegRow × Nat × Nat := (findReg off).getD (⟨.ID, 0, 0, 0, 0, 0, .xbar, []⟩, 0, 0)

/-- The die under test. -/
def inTest : State := { base with pins := { testEn := true } }.wr Reg.TEST_CTRL_TMODE 1
/-- An image of a header alone, signed under key slot 0 by a key made for this test (RFC 8032, IEEE 802.3). -/
def signed : List Word :=
  [0, 0, 0xc0, 0x351438a5, 0, 0x1234, 0, 0,
    0, 0, 0, 0, 0, 0, 0, 0,
    0, 0, 0, 0, 0, 0, 0, 0,
    0xc19dac1c, 0x2e747a17, 0xea22501a, 0x397f6adc, 0x831caec1, 0xedef56dd, 0x87d600e, 0x12a5280f,
    0x7a4b7676, 0x357e633, 0xb40ff9bd, 0xd00b7cf9, 0x60072434, 0xb339f953, 0xcc402e30, 0x475b566,
    0, 0, 0, 0, 0, 0, 0, 0]

/-- The running die with that key in the OTP row. -/
def keyed : State := { base with img := { otp := [(4, 0xbf07a103), (5, 0xbe10cef3), (6, 0x18dd701d), (7, 0x99c04be7), (8, 0x30d6e467), (9, 0x5f0da59b), (10, 0x6486dc1d), (11, 0xb8315512)] } }

/-- The image has been taken, and holds a word of bank 3. -/
def verifying : State := { keyed with img := { keyed.img with load := { st := .verify, words := signed.reverse, held := [(0x33, 0, 1)] } } }

/-- The image is to be persisted, and stands in block A. -/
def persisted : State :=
  { keyed with img := { keyed.img with flashA := signed, load := { st := .verify, words := signed.reverse, persist := true, held := [(0x33, 0, 1)] } } }

/-- The same with a marker sector full of half-programmed records. -/
def fullMarks : State := { persisted with img := { persisted.img with mark0 := List.replicate Config.markerSlots [] } }

theorem newestMark_fullMarks : newestMark fullMarks = none := by
  have h : (List.replicate Config.markerSlots ([] : List Word)).filterMap (fun r => (markOf r).map fun x => (false, x)) = [] := by
    rw [List.filterMap_eq_nil_iff]
    intro a ha
    rw [List.eq_of_mem_replicate ha]
    decide
  show best _ ((List.replicate Config.markerSlots ([] : List Word)).filterMap (fun r => (markOf r).map fun x => (false, x)) ++ []) = none
  rw [h]
  rfl

theorem fullMarks_meets : fullMarks.img.load.st = .verify ∧ fullMarks.img.load.busy = false ∧ verifyReason fullMarks.img.load fullMarks = 0 ∧
    fullMarks.img.load.persist = true ∧ verifyReason { fullMarks.img.load with
      words := ((flashBlock fullMarks fullMarks.img.load.blk).take fullMarks.img.load.words.length).reverse } fullMarks = 0 ∧
    false = (match newestMark fullMarks with | some m => m.1 | none => false) ∧ Config.markerSlots ≤ (markRecs fullMarks false).length :=
  ⟨rfl, rfl, by decide +kernel, rfl, by decide +kernel, by rw [newestMark_fullMarks], by
    show Config.markerSlots ≤ (List.replicate Config.markerSlots ([] : List Word)).length
    rw [List.length_replicate]⟩

/-- A seal record with its MAC. -/
def sealed0 : SealRec := { rec0 with mac := sealMac base rec0 }

/-- Line test on: port 0 is under test, its domain on and its EN at 0. -/
def testing0 : State := ((inTest.wr (Reg.LNK_CTRL_EN 0) 0).wr Reg.TEST_LSEL_PORT 0).wr Reg.TEST_CTRL_LTEST 1

-- well-formedness refuses a command that names no place of the hardware, one for each check

theorem test_claimPeek_refuses_gate : (Instr.claimPeek mgr 0).wf = false := by decide
theorem test_threshWrite_refuses_other_core : (Instr.threshWrite cif0 1 0).wf = false := by decide
theorem test_timeLoRead_refuses_page : (Instr.timeLoRead page).wf = false := by decide
theorem test_slcCreate_refuses_field : (Instr.slcCreate port1 0 false).wf = false := by decide
theorem test_pgConsWrite_refuses_manager : (Instr.pgConsWrite mgr 0 0).wf = false := by decide
theorem test_edwDebugWrite_refuses_no_debug : (Instr.edwDebugWrite port1 0 0).wf = false := by decide
theorem test_registerWrite_refuses_outside_block : (Instr.registerWrite cif0 0x3040 0).wf = false := by decide
theorem test_registerRead_refuses_outside_block : (Instr.registerRead cif0 0x2FFC .clean).wf = false := by decide
theorem test_bitAliasWrite_refuses_no_word : (Instr.bitAliasWrite port1 0x2425 0 false).wf = false := by decide
theorem test_fecBlockDecode_refuses_short_block : (Instr.fecBlockDecode 2 [] 0).wf = false := by decide
theorem test_ill_formed_stops : exec (.claimPeek mgr 0) base = .fault .illFormed := rfl
theorem test_no_word_spells_a_command : decodeTableWord 32 0 = none := rfl

-- public vectors: CRC-32 of IEEE 802.3, FIPS 180-4, RFC 4231 and RFC 8032

theorem test_crc32 : crc32 [0x31, 0x32, 0x33, 0x34, 0x35, 0x36, 0x37, 0x38, 0x39] = 0xCBF43926 := by decide +kernel
theorem test_sha256 :
    beNum (sha256.hash [0x61, 0x62, 0x63]) = 0xBA7816BF8F01CFEA414140DE5DAE2223B00361A396177A9CB410FF61F20015AD := by
  decide +kernel
theorem test_sha512 :
    beNum (sha512.hash [0x61, 0x62, 0x63]) =
      0xDDAF35A193617ABACC417349AE20413112E6FA4E89A97EA20A9EEEE64B55D39A2192992A274FC1A836BA3C23A3FEEBBD454D4423643CE80E2A9AC94FA54CA49F := by
  decide +kernel
/-- HMAC-SHA-256 of "Hi There" under twenty bytes 0x0B. -/
theorem test_hmac256 :
    beNum (hmac256 (List.replicate 20 0x0B) [0x48, 0x69, 0x20, 0x54, 0x68, 0x65, 0x72, 0x65]) =
      0xB0344C61D8DB38535CA8AFCEAF0BF12B881DC200C9833DA726E9376C2E32CFF7 := by decide +kernel

/-- The public key and the signature of test 2 of RFC 8032. -/
def rfcKey : List Nat := (beBytes 32 0x3D4017C3E843895A92B70AA74D1B7EBC9C982CCF2EC4968CC0CD55F12AF4660C)
def rfcSig : List Nat :=
  beBytes 64 0x92A009A9F0D4CAB8720E820B5F642540A2B27B5416503F8FB3762223EBDB69DA085AC1E43E15996E458F3613D0F11D8C387B2EAEB4302AEEB00D291612BB0C00
theorem test_ed25519_accepts : edVerify rfcKey rfcSig [0x72] = true := by decide +kernel
theorem test_ed25519_refuses : edVerify rfcKey rfcSig [0x73] = false := by decide +kernel

-- the spec's worked examples

/-- The state after a command. -/
def nextOf (c : Instr) (s : State) : State := match exec c s with | .next t => t | _ => State.reset

/-- Word 0 of the message of the worked trace (16, "Worked trace"). -/
theorem test_message_word :
    (Msg.pack ⟨0x41, 1, 3124, 0x64, 3, .g, 2, 0, 0, 0, false, false, 0, none, none⟩).extractLsb' 0 64 = 0x0000410B0D019062 := by decide

/-- The alias words of ENAB of source 300 and of COAL of source 3,124 (R492). -/
theorem test_alias_place_enab : (locate base .port 0x884B0).map (fun p => (p.off, p.view)) = some (0x2424, .alias_ 12) := by
  decide +kernel
theorem test_alias_place_coal : (locate base .port 0x9B0D0).map (fun p => (p.off, p.view)) = some (0x2D84, .alias_ 20) := by
  decide +kernel
/-- A write of 0 to the alias clears the one bit of COAL; the other 31 stand (R492). -/
theorem test_alias_clears_one_bit :
    (nextOf (.registerWrite port1 0x9B0D0 0) (base.wr ⟨0x2D84, 0, 32, 0⟩ 0xFFFFFFFF)).rd ⟨0x2D84, 0, 32, 0⟩ = 0xFFEFFFFF := by
  decide +kernel

/-- 0x181 written to SRC_CFG[37] word 0 is staged: the staged view shows it, and the active word keeps its value (15). -/
theorem test_staged_view_shows_write :
    (nextOf (.registerRead port1 0x34250 .clean) (nextOf (.registerWrite port1 0x4250 0x181) base)).out =
      [.reg .port 0x181 none] := by decide +kernel
theorem test_active_word_keeps_value :
    (nextOf (.registerRead port1 0x4250 .clean) (nextOf (.registerWrite port1 0x4250 0x181) base)).out =
      (nextOf (.registerRead port1 0x4250 .clean) base).out := by decide +kernel

/-- System time 0x0000_0001_FFFF_FFFE read by master 2; TIME_HI two cycles later (06). -/
def early : State := { base with time := { base.time with now := 0x1FFFFFFFE } }
def master2 : Access := ⟨.port, 2, false, 0xF, false⟩
theorem test_time_lo : (nextOf (.timeLoRead master2) early).out = [.reg .port 0xFFFFFFFE none] := by decide +kernel
theorem test_time_hi :
    (nextOf (.registerRead master2 0x1004 .clean)
      { nextOf (.timeLoRead master2) early with time := { (nextOf (.timeLoRead master2) early).time with now := 0x200000002 } }).out =
      [.reg .port 1 none] := by decide +kernel

/-- The tenant's three writes of CONS in the worked credit example (12). -/
def tenant (prod cons : BitVec 32) (granted share : Nat) : State :=
  (((gup { slices := [(12, { st := .open_, prod := prod, cons := cons, granted := granted })] }).wr
    (Reg.SLC_SHARE_SHARE 12) share).wr (Reg.SLC_RING_LOG2SIZE 12) 8)
theorem test_credit_below_share : ((nextOf (.pgConsWrite page 12 410) (tenant 462 400 2 64)).slice 12).granted = 12 := by decide +kernel
theorem test_credit_above_share : ((nextOf (.pgConsWrite page 12 440) (tenant 474 410 0 32)).slice 12).granted = 0 := by decide +kernel
theorem test_credit_again : ((nextOf (.pgConsWrite page 12 443) (tenant 474 440 0 32)).slice 12).granted = 1 := by decide +kernel

/-- The worked update of channel 5 (13). -/
def metered : State :=
  ((edw { inbox := [{ ev with source := 100, cls := .m, payload := 0x01F4 }]
          chan := [(5, { value := 1000000000, count := 0x12E4A, acked := some 0x12E4A })] }).wr (Reg.EDW_CH_EN 5) 1).wr (Reg.EDW_CH_SOURCE 5) 100
theorem test_meter_value : ((nextOf .meterRecord metered).chan 5).value = 1000000500 := by decide +kernel
theorem test_meter_count : ((nextOf .meterRecord metered).chan 5).count = 0x12E4B := by decide +kernel

/-- The report timeout at reset is that of the worked loss and repeat: 4,016,384 − 4,000,000 ticks (11). -/
theorem test_report_timeout : rtmo base = 16384 := by decide +kernel

/-- The table of R181. -/
theorem test_reached_table :
    [reached32 0x000FFFF0 0x00100000, reached32 0x00100000 0x00100000, reached32 0x00100100 0x00100000, reached32 0xFFFFFFE0 0x00000020,
      reached32 0x00000020 0x00000020, reached32 0x80100000 0x00100000] = [false, true, true, false, true, false] := by decide

/-- The worked message (03). -/
theorem test_worked_message :
    Msg.pack ⟨0xA17, 20, 300, 0x5B6, 4, .g, 2, 1000001, 77, 1, false, false, 3, none, none⟩ = 0x000F42414D040003000A17A04B16D882 := by decide

/-- The program of the worked droop reflex (04). -/
theorem test_worked_reflex_decodes :
    [0x1C400FFF, 0x09000041, 0x2120000C, 0x31300010, 0x10800041, 0x58200834, 0x78000000].map (fun w => campDecode w 0) =
      [some (.sta true (.imm 0xFFF) 0x40), some (.lda 1 0x41), some (.addi 1 1 12), some (.clamp 1 1 true 16),
        some (.sta false (.reg 1) 0x41), some (.irq 1 2100), some .ret] := by decide +kernel

/-- A die at a tick. -/
def atTick (t : Nat) (s : State) : State := { s with time := { s.time with now := BitVec.ofNat 64 t } }

/-- The state after one idle cycle. -/
def idle (s : State) : State := match step s with | .next t => t | _ => s

/-- Cell 70 fires on line 40, in the cycle after: the event of the worked cell, with its stamp and payload (02). -/
def celled : State :=
  ({ atTick 1000000 base with
      yar := { words := [(816, 0x08080808), (817, 0x08080808), (818, 0x00CF0028), (819, 0x050000D7), (820, 0x05000500), (821, 1), (1324, 13)]
               run := [(70, { ins := 2, fresh := false })] }
      src := { levels := [(207, true)] }, epoch := { num := 333, start := 999000, prev := 996000 } }).wr (Reg.SRC_CFG0_EN 300) 1
theorem test_worked_cell :
    ((idle (nextOf (.wiredInputEdge 40 true 0 true 1000) celled)).latchOf 300).map (fun l => (l.stamp, l.payload, l.typ, l.win)) =
      some (1000001, 3, 1, 333) := by decide +kernel

/-- The worked window in hold mode: the window of each stamp, and whether it can be offered at once (02). -/
def windowed (t : Nat) : State :=
  (((({ atTick t base with epoch := { num := 100, start := 2400000, prev := 2396000 } }.wr (Reg.SRC_CFG0_WINEN 3) 1).wr
    (Reg.SRC_CFG2_OPEN 3) 400).wr (Reg.SRC_CFG2_CLOSE 3) 3600).wr (Reg.SRC_CFG0_EN 3) 1)
theorem test_worked_window :
    [2400399, 2400400, 2403599, 2403600, 2403950].map (fun t =>
      ((latchEvent 3 (BitVec.ofNat 64 t) 0 0 (windowed t)).latchOf 3).map fun l => (l.win, l.ready)) =
      [some (100, false), some (100, true), some (100, true), some (101, false), some (101, false)] := by decide +kernel

/-- The core of the worked load step, its event taken (05, 16). -/
def loadStep : Msg := ⟨0x41, 1, 3124, 0x64, 3, .g, 2, 7340038, 0, 1, false, false, 0x10, none, none⟩
def handling : State :=
  ((((({ atTick 7340140 base with
      pins := { idDie := 1 }
      core := [(36, { taken := [loadStep], active := [{ loadStep with seq := 1, source := 96, prio := 12, cls := .s }] })] }.wr
    Reg.TRACE_CTRL_EN 1).wr Reg.TRACE_CTRL_PTS 0xE5).wr Reg.TRACE_SEL_SRCLO 3124).wr Reg.TRACE_SEL_SRCHI 3124).wr Reg.TRACE_SEL_CLASSMASK 0xF)
theorem test_worked_claim : (nextOf (.claim 36) handling).out = [.reg (.cif 36) 0x90406C34 none] := by decide +kernel
theorem test_worked_claim_trace :
    ((nextOf (.claim 36) handling).trc.ring ++ (nextOf (.claim 36) handling).trc.queue).map (fun e => (e.w0, e.w1, e.w2)) =
      [(0x0D019062, 0x410B, 0x70006C)] := by decide +kernel
theorem test_worked_complete : ((nextOf (.complete 36 0x41) (nextOf (.claim 36) handling)).coreOf 36).active.map (·.prio) = [12] := by
  decide +kernel

/-- The worked prediction before its fourth event, and after its miss (05). -/
def predictor (p : Pred) (per next : Nat) : State :=
  ((((((({ base with pred := [(72, p)] } : State).wr (Reg.PREWARM_EN 36) 1).wr (Reg.PREWARM_TOL 36) 8).wr (Reg.PW_SRC_EN 36 0) 1).wr
    (Reg.PW_SRC_SOURCE 36 0) 96).wr (Reg.PW_SRC_ORIGIN 36 0) 1).wr (Reg.PW_PER_PER 36 0) per).wr (Reg.PW_NEXT_NEXT 36 0) next
def arrival (t : BitVec 32) : Msg := { ev with source := 96, origin := 1, ts := t }
def shows (s : State) : Nat × Nat × Nat :=
  (s.rd (Reg.PW_PER_PER 36 0), s.rd (Reg.PW_NEXT_NEXT 36 0), s.rd (Reg.PW_CNT_HIT 36))
theorem test_worked_prediction_locks :
    shows (predArrive 36 0 (arrival 3011999) (predictor { havePrev := true, prev := 3008001, conf := 1 } 4002 0)) = (4001, 3016000, 0) := by
  decide +kernel
theorem test_worked_prediction_hits :
    shows (predArrive 36 0 (arrival 3024001)
      (predictor { st := .locked, havePrev := true, prev := 3020004, conf := 2, nextValid := true, warm := true } 4001 3024005)) =
      (4000, 3028001, 1) := by decide +kernel
theorem test_worked_prediction_misses :
    (nextOf (.predictorMiss 36 0)
      (atTick 3021036 (predictor { st := .locked, havePrev := true, prev := 3016003, conf := 2, nextValid := true } 4001 3020004))).rd
      (Reg.PW_NEXT_NEXT 36 0) = 3024005 := by decide +kernel

/-- A capture stamped 600,007 is read while a second one has overrun (06). -/
def capturing : State := (((atTick 600026 base).wr Reg.CAP_CTRL_EN 8).wr Reg.CAP_STAT_NEW 8)
def captured : State := { capturing with time := { capturing.time with captures := [(3, 600007)] } }
theorem test_capture_overruns :
    (idle { atTick 600030 captured with time := { captured.time with now := 600030, capPend := [(3, 600027)] } }).rd Reg.CAP_STAT_OVR = 8 := by
  decide +kernel
theorem test_capture_reads : (nextOf (.captureRead port1 3) captured).out = [.reg .port 0x927C7 none] := by decide +kernel

/-- The period of the worked epoch written in the cycle from 5,003,100 (06). -/
theorem test_period_cuts_epoch :
    (nextOf (.epochPeriodWrite port1 3000) { atTick 5003100 base with epoch := { num := 9, start := 5000000 } }).epoch.short =
      some 5003104 := by decide +kernel

/-- The worked sleep of 3 s: the made-up time, the epoch and the periods skipped (06). -/
def sleeping : State :=
  { base with time := { base.time with sleep := .waking, tA := 50000000000, sleptFrom := 49999998000, sleptNum := 7 } }
theorem test_sleep_made_up :
    ((nextOf (.sleepMakeup 98304) sleeping).t, (nextOf (.sleepMakeup 98304) sleeping).epoch.num) = (62000000000, 3000007) := by
  decide +kernel

/-- The worked tight budget: the class F wake overtakes once the tokens of domain 21 return (14). -/
def tight : State :=
  let s := (((base.setDom 3 0).setDom 12 0).setDom 21 1).wr Reg.WB_CTRL_BUDGET 8
  { s with pwr := { s.pwr with reqs := [⟨12, 1, 1004, false⟩, ⟨3, 0, 1010, false⟩], tokens := [(21, (6, false))] } }
theorem test_wake_waits : (nextOf (.wakeGrant .field) tight).dom 3 = 0 := by decide +kernel
theorem test_class_f_wakes_first :
    (nextOf (.wakeGrant .field) (nextOf (.pwrGoodRise .field 21) tight)).dom 3 = 1 ∧
      (nextOf (.wakeGrant .field) (nextOf (.pwrGoodRise .field 21) tight)).dom 12 = 0 := by decide +kernel

/-- The worked loss and repeat: a fresh tag is queued with its new generation, a repeat of a written one is answered alone (11). -/
def tagged (g : TagEntry) : State :=
  (gup { fieldOpen := true, slices := [(7, { st := .open_, granted := 9 })], tags := [(0x1A3, g)] }).wr (Reg.SLC_RING_LOG2SIZE 7) 8
theorem test_event_taken_once :
    ((nextOf (.event (eventPayload 0x1A3 { cust with gen := true, msg := { ev with epoch := 7 } })) (tagged (.done false))).slice 7).prod = 1 := by decide +kernel
theorem test_event_repeat_answered :
    (nextOf (.event (eventPayload 0x1A3 { cust with gen := true, msg := { ev with epoch := 7 } })) (tagged (.done true))).gate.writtenTags =
      [0x41A3] := by decide +kernel

-- a state that meets the hypotheses of each statement, clause by clause

/-- The hypotheses of O2 are met together, clause by clause. -/
theorem meets_IdleCycle :
    (∃ (s : State), s.pending = [] ∧ timeRuns s = true) ∧
    (∃ (s : State), s.pending = [] ∧ timeRuns s = false) ∧
    (∃ (s : State), s.pending = [] ∧ s.time.capPend = []) ∧
    (∃ (s : State), s.pending = [] ∧ (s.gate.clk.toNat < s.gate.lastSlew.toNat + 256 ∨ s.gate.slew = 0)) ∧
    (∃ (s : State), s.pending = [] ∧ s.gate.lastSlew.toNat + 256 ≤ s.gate.clk.toNat ∧ 0 < s.gate.slew) ∧
    (∃ (s : State), s.pending = [] ∧ s.gate.lastSlew.toNat + 256 ≤ s.gate.clk.toNat ∧ s.gate.slew < 0) :=
  ⟨⟨base, by decide +kernel⟩,
    ⟨State.reset, by decide +kernel⟩,
    ⟨State.reset, by decide +kernel⟩,
    ⟨State.reset, by decide +kernel⟩,
    ⟨{ State.reset with gate := { clk := 256, slew := 1 } }, by decide +kernel⟩,
    ⟨{ State.reset with gate := { clk := 256, slew := -1 } }, by decide +kernel⟩⟩

/-- The hypotheses of O3 are met together, clause by clause. -/
theorem meets_EveryCommandCompletes :
    (∃ (c : Instr), c.wf = true) ∧
    (∃ (c : Instr), c.wf = false) :=
  ⟨⟨.offer, by decide +kernel⟩,
    ⟨.claimPeek mgr 0, by decide +kernel⟩⟩

/-- The hypotheses of O4 are met together, clause by clause. -/
theorem meets_QueueRuns :
    (∃ (s : State), (∀ c ∈ s.pending, c.wf = true)) ∧
    (∃ (l r : List Instr) (c : Instr) (s : State), (∀ x ∈ l, x.wf = true) ∧ c.wf = false ∧ s.pending = l ++ c :: r) :=
  ⟨⟨{ State.reset with pending := [.offer] }, by decide +kernel⟩,
    ⟨[.offer], [.accept], .claimPeek mgr 0, { State.reset with pending := [.offer, .claimPeek mgr 0, .accept] }, by decide +kernel⟩⟩

/-- The hypotheses of O5 are met together. -/
theorem meets_WhatChangesWhat :
    ∃ (c : Instr) (s t : State) (p : _), p ∈ guarded ∧ exec c s = .next t ∧ p ∉ mayChange c :=
  ⟨.windowOpen 0, State.reset, _, Part.lock, by decide, rfl, by decide⟩

/-- The hypotheses of O6 are met together. -/
theorem meets_LocksStayOwnedOnce :
    ∃ (s t : State), locksInv s ∧ step s = .next t :=
  ⟨State.reset, tick State.reset, by unfold locksInv; decide +kernel, rfl⟩

/-- The hypotheses of O7 are met together. -/
theorem meets_ListsStayCanonical :
    ∃ (s t : State), listsCanonical s ∧ step s = .next t :=
  ⟨State.reset, tick State.reset, by unfold listsCanonical; decide +kernel, rfl⟩

/-- The hypotheses of O9 are met together, clause by clause. -/
theorem meets_SourceCommands :
    (∃ (n : Fin 1024) (level odd : Bool) (width : Nat) (s : State), 3 ≤ width ∧ s.time.sleep = .awake ∧ s.su.open_ = true ∧ lineLevel s n =
        !level ∧ mapCelled s n = false ∧ s.flag (Reg.SRC_CFG0_EN n) = true ∧ s.flag (Reg.SRC_CFG0_WINEN n) = false ∧ edgeMode (s.rd
        (Reg.SRC_CFG0_MODE n)) (!level) level = true ∧ s.img.dtPhase < 2 ∧ s.latchOf n = none ∧ s.epoch.start.toNat ≤ (s.time.now + (if odd
        then 1 else 0)).toNat) ∧
    (∃ (n : Fin 1024) (s : State), s.su.open_ = true ∧ s.time.sleep = .awake ∧ mapCelled s n = false ∧ levelMode (s.rd (Reg.SRC_CFG0_MODE n))
        (lineLevel s n) = true ∧ sourceIdle s n = true ∧ s.flag (Reg.SRC_CFG0_EN n) = true ∧ s.flag (Reg.SRC_CFG0_WINEN n) = false ∧
        s.img.dtPhase < 2 ∧ s.epoch.start.toNat ≤ s.time.now.toNat) ∧
    (∃ (n : Fin 1024) (l : Latched) (s : State), s.latchOf n = some l ∧ (0 < (s.epoch.num - l.win).toInt ∨ (l.win = s.epoch.num ∧ winOpens s
        n ≤ s.time.now.toNat))) :=
  ⟨⟨3, true, false, 3, base.wr (Reg.SRC_CFG0_EN 3) 1, by decide +kernel⟩,
    ⟨3, ({ base with src := { levels := [(3, true)] } }.wr (Reg.SRC_CFG0_EN 3) 1).wr (Reg.SRC_CFG0_MODE 3) 3, by decide +kernel⟩,
    ⟨3, ⟨5, 0, 0, 0, false, false⟩, { base with src := { latch := [(3, some ⟨5, 0, 0, 0, false, false⟩)] } }, by decide +kernel⟩⟩

/-- The hypotheses of O10 are met together, clause by clause. -/
theorem meets_Acceptance :
    (∃ (w : Writer) (target : BitVec 5) (s : State), clocked s = true ∧ channelTakes s w = true ∧ target ≠ s.die ∧ s.su.open_ = true ∧
        thawDue s = false ∧ s.acc.remoteWait = [] ∧ (portToward s target).isSome = true ∧ s.acc.remote.length < 32) ∧
    (∃ (c : Cand) (s : State), clocked s = true ∧ s.su.open_ = true ∧ thawDue s = false ∧ s.acc.offers.length < 64 ∧ (∀ d ∈ latchCands s ++
        writeCands s, canStart s d = true ∧ stuckRegion s d = false) ∧ best (candBefore s) (latchCands s ++ writeCands s) = some c ∧
        a0Refusal s c.src c.writer (candMsg s c 0) = none ∧ a0Refusal s c.src c.writer (candMsg s c (tget 0 s.acc.counters c.src)) = none ∧
        srcCls s c.src ≠ .s) ∧
    (∃ (src : BitVec 13) (q : BitVec 24) (l : List (BitVec 13 × BitVec 24)) (o : Offer) (s : State) (k : _), clocked s = true ∧ s.firn.writes
        = (src, q) :: l ∧ (s.acc.offers.find? (fun o => o.msg.source == src && o.msg.seq == q) = some o) ∧ k ≠ firnFree s) ∧
    (∃ (o : Offer) (l : List Offer) (s : State), clocked s = true ∧ (takeFirst (fun o => o.ack && o.partnerAck) s.acc.offers = some (o, l)) ∧
        o.writer = none ∧ o.early = []) :=
  ⟨⟨.core 0, 1, linked, by decide +kernel⟩,
    ⟨⟨3, 5, 0, 0, 0, none, false⟩, offering, by decide +kernel⟩,
    ⟨5, 7, [], ⟨ev, none, 0, 1, none, false, none, false, .none, [0], []⟩, { base with acc := { offers := [⟨ev, none, 0, 1, none, false, none, false, .none, [0], []⟩] }, firn := { writes := [(5, 7)] } }, 1, by decide +kernel⟩,
    ⟨⟨ev, none, 0, 0, some 0, true, none, true, .none, [0], []⟩, [], { base with acc := { offers := [⟨ev, none, 0, 0, some 0, true, none, true, .none, [0], []⟩] } }, by decide +kernel⟩⟩

/-- The hypotheses of O11 are met together, clause by clause. -/
theorem meets_PairedAcceptance :
    (∃ (m : Msg) (s : State) (k r : _), clocked s = true ∧ m.typ = 0x12 ∧ m ∈ s.xb.ctl ∧ twf none s.firn.recs = true ∧ (firnFind s (fun r =>
        r.kind == .mirror && r.msg.sameId (unmirror m)) = none) ∧ firnCount s < 16384 ∧ k ≠ firnFree s ∧ s.recOf k = some r) ∧
    (∃ (m : Msg) (s : State), clocked s = true ∧ m.typ = 0x13 ∧ m.payload.extractLsb' 0 2 = 0 ∧ m ∈ s.xb.ctl ∧ resyncing s (senderOf m) =
        false ∧ unreachable s (senderOf m) = false) ∧
    (∃ (m : Msg) (k : Nat) (r : FirnRec) (s : State), clocked s = true ∧ m.typ = 0x13 ∧ m.payload.extractLsb' 0 2 = 1 ∧ m ∈ s.xb.ctl ∧
        (firnFind s (fun r => r.kind == .mirror && r.msg.sameId m) = some (k, r)) ∧ unreachable s (senderOf m) = false) ∧
    (∃ (m : Msg) (k : Nat) (r : FirnRec) (s : State), clocked s = true ∧ m.typ = 0x13 ∧ m.payload.extractLsb' 0 2 = 2 ∧ m ∈ s.xb.ctl ∧
        (firnFind s (fun r => r.kind == .event && r.releasing && r.msg.sameId m) = some (k, r)) ∧ unreachable s (senderOf m) = false) ∧
    (∃ (m : Msg) (k : Nat) (r : FirnRec) (s : State), clocked s = true ∧ m.typ = 0x13 ∧ m.payload.extractLsb' 0 2 = 3 ∧ m ∈ s.xb.ctl ∧ twf
        none s.firn.recs = true ∧ s.recOf k = some r ∧ r.kind = .mirror ∧ r.msg.origin = senderOf m ∧ unreachable s (senderOf m) = false) ∧
    (∃ (o : Offer) (p : BitVec 5) (l : List Offer) (s : State), clocked s = true ∧ (takeFirst (fun o => !o.partnerAck && decide (o.a0.toNat +
        pairTmo s ≤ s.time.now.toNat)) s.acc.offers = some (o, l)) ∧ o.partner = some p ∧ o.ack = false) ∧
    (∃ (m : Msg) (s : State), clocked s = true ∧ m.typ = 0x10 ∧ m ∈ s.xb.ctl) ∧
    (∃ (m : Msg) (n : Fin 64) (tag : BitVec 24) (l : List RemoteOut) (s : State), clocked s = true ∧ m.typ = 0x11 ∧ m ∈ s.xb.ctl ∧ (takeFirst
        (fun (r : RemoteOut) => r.tag == m.seq) s.acc.remote = some (⟨tag, .core n⟩, l)) ∧ s.acc.remoteWait = []) :=
  ⟨⟨{ ev with typ := 0x12 }, { base with xb := { ctl := [{ ev with typ := 0x12 }] }, firn := { recs := [(1, some rec1)] } }, 1, rec1, by decide +kernel⟩,
    ⟨{ ev with typ := 0x13, payload := 0 }, { base with xb := { ctl := [{ ev with typ := 0x13, payload := 0 }] } }, by decide +kernel⟩,
    ⟨{ ev with typ := 0x13, payload := 1 }, 0, { kind := .mirror, msg := ev }, { base with xb := { ctl := [{ ev with typ := 0x13, payload := 1 }] }, firn := { recs := [(0, some { kind := .mirror, msg := ev })] } }, by decide +kernel⟩,
    ⟨{ ev with typ := 0x13, payload := 2 }, 0, { kind := .event, msg := ev, releasing := true }, { base with xb := { ctl := [{ ev with typ := 0x13, payload := 2 }] }, firn := { recs := [(0, some { kind := .event, msg := ev, releasing := true })] } }, by decide +kernel⟩,
    ⟨{ ev with typ := 0x13, payload := 3, ts := 0 }, 0, { kind := .mirror, msg := ev }, { base with xb := { ctl := [{ ev with typ := 0x13, payload := 3, ts := 0 }] }, firn := { recs := [(0, some { kind := .mirror, msg := ev })] } }, by decide +kernel⟩,
    ⟨⟨ev, none, 0, 0, some 0, false, some 1, false, .none, [0], []⟩, 1, [], { base with acc := { offers := [⟨ev, none, 0, 0, some 0, false, some 1, false, .none, [0], []⟩] } }, by decide +kernel⟩,
    ⟨{ ev with typ := 0x10 }, { base with xb := { ctl := [{ ev with typ := 0x10 }] } }, by decide +kernel⟩,
    ⟨{ ev with typ := 0x11 }, 0, 7, [], { base with xb := { ctl := [{ ev with typ := 0x11 }] }, acc := { remote := [⟨7, .core 0⟩] } }, by decide +kernel⟩⟩

/-- The hypotheses of O12 are met together, clause by clause. -/
theorem meets_SchedulerAndSpill :
    (∃ (r : Req) (e : XEntry) (s : State), clocked s = true ∧ thawDue s = false ∧ schedIter (schedReqs s) s.xb [] = [r] ∧ schedIter
        (schedReqs s) s.xb [r] = [] ∧ reqEntry s r = some e ∧ eligible s e r = true ∧ r.o < 16 ∧ r.i < 16 ∧ e.restored = false ∧
        e.msg.repres = false ∧ takesCustody e.msg = true ∧ firnCount s < 16384) ∧
    (∃ (r : Req) (e : XEntry) (s : State), clocked s = true ∧ thawDue s = false ∧ schedIter (schedReqs s) s.xb [] = [r] ∧ schedIter
        (schedReqs s) s.xb [r] = [] ∧ reqEntry s r = some e ∧ eligible s e r = true ∧ r.o < 16 ∧ r.i < 16 ∧ e.restored = false ∧
        e.msg.repres = false ∧ takesCustody e.msg = false) ∧
    (∃ (i : Fin 22) (rlx ns : Bool) (cache : Nat) (s : State), clocked s = true ∧ canSpill s i = true ∧ s.xb.spillOut.length < 4 ∧ spillHolds
        s i = true ∧ mpuCheck false 0 (blockAddr s i (tget 0 s.xb.tails i % max 1 (s.rd (Reg.MRN_QCFG_LEN i)))) false true s = .pass rlx ns
        cache) ∧
    (∃ (i : Fin 22) (no : Nat) (l : List XEntry) (rest : List (Nat × List XEntry)) (cause region : Nat) (s : State), clocked s = true ∧
        canRefill s i = true ∧ spillHolds s i = true ∧ s.ring i = (no, l) :: rest ∧ mpuCheck false 0 (blockAddr s i no) false false s =
        .fault cause region) ∧
    (∃ (i : Fin 22) (no : Nat) (l : List XEntry) (rest : List (Nat × List XEntry)) (rlx ns : Bool) (cache : Nat) (s : State), clocked s =
        true ∧ canRefill s i = true ∧ spillHolds s i = true ∧ s.ring i = (no, l) :: rest ∧ mpuCheck false 0 (blockAddr s i no) false false s
        = .pass rlx ns cache) ∧
    (∃ (i : Fin 22) (s : State), clocked s = true ∧ spillHolds s i = false) ∧
    (∃ (p : Nat × Nat) (l : List (Nat × Nat)) (s : State), clocked s = true ∧ s.xb.spillOut = p :: l) ∧
    (∃ (s : State), clocked s = true ∧ s.trc.dbOut ≠ 0) :=
  ⟨⟨⟨0, 0, .g, 0, 0⟩, { msg := ev, owed := [(0, .out 0)], order := 0 }, { base with xb := { bufs := [(0, [{ msg := ev, owed := [(0, .out 0)], order := 0 }])], serial := 1 } }, by decide +kernel⟩,
    ⟨⟨0, 0, .s, 0, 0⟩, { msg := { ev with cls := .s }, owed := [(0, .out 0)], order := 0 }, { base with xb := { bufs := [(1, [{ msg := { ev with cls := .s }, owed := [(0, .out 0)], order := 0 }])], serial := 1 } }, by decide +kernel⟩,
    ⟨0, false, false, 3, spilling, by decide +kernel⟩,
    ⟨0, 0, [{ msg := ev, owed := [(0, .out 0)], order := 0 }], [], 1, 0, strictSpill, by decide +kernel⟩,
    ⟨0, 0, [{ msg := ev, owed := [(0, .out 0)], order := 0 }], [], false, false, 3, spilled, by decide +kernel⟩,
    ⟨0, base, by decide +kernel⟩,
    ⟨(0, 0), [], { base with xb := { spillOut := [(0, 0)] } }, by decide +kernel⟩,
    ⟨{ base with trc := { dbOut := 1 } }, by decide +kernel⟩⟩

/-- The hypotheses of O13 are met together, clause by clause. -/
theorem meets_SharedArbiters :
    (∃ (a : Fin 23) (r : ArbReq) (byF : Bool) (s : State), arbClocked s a = true ∧ arbMustAge s a = false ∧ (s.arbOf a).aging = false ∧
        (s.arbOf a).scope = false ∧ (s.arbOf a).holder = none ∧ (s.arbOf a).revoked = none ∧ arbPick (arbInForce s a (s.arbOf a)) a (arbReqs
        a s) = some (r, byF) ∧ 2 ≤ grantBeats a byF r ∧ (21 ≤ a.val → r.j ≠ 16 → tget false s.gate.half (16 * (a - 21) + r.j) = false)) ∧
    (∃ (a : Fin 23) (h : Xfer) (s : State), arbClocked s a = true ∧ (s.arbOf a).holder = some h ∧ h.f = false ∧ h.done + arbNow h < h.beats ∧
        (arbReqs a (arbSync a s.bare)).any (·.f) = true ∧ (arbReqs a (arbTakeBack a h (arbNow h) (arbBeats a (arbBeatOf a) (arbNow h)
        (arbSync a s.bare)))).any (·.f) = true) ∧
    (∃ (a : Fin 23) (h : Xfer) (s : State), arbClocked s a = true ∧ arbMustAge s a = (s.arbOf a).aging ∧ (s.arbOf a).revoked = some h) ∧
    (∃ (a : Fin 23) (s : State) (j : _), arbClocked s a = true ∧ arbMustAge s a = false ∧ (s.arbOf a).window ≤ (s.arbOf a).since ∧ j <
        arbSize a) ∧
    (∃ (a : Fin 23) (s : State), arbClocked s a = true ∧ arbMustAge s a = (s.arbOf a).aging ∧ (s.arbOf a).since < (s.arbOf a).window) :=
  ⟨⟨20, ⟨0, 4, false⟩, false, { spilling with arb := [(20, { aging := false })] }, by decide +kernel⟩,
    ⟨16, { j := 2, beats := 4, done := 0, f := false }, { withPort { st := .up, tx := [{ ev with cls := .f }], ctl := [mkFrame 0 0 0, mkFrame 0 1 0] } with arb := [(16, { aging := false, holder := some { j := 2, beats := 4, done := 0, f := false } })] }, by decide +kernel⟩,
    ⟨20, { j := 0, beats := 4, done := 1, f := false }, { base with arb := [(20, { aging := false, revoked := some { j := 0, beats := 4, done := 1, f := false } })] }, by decide +kernel⟩,
    ⟨20, { base with arb := [(20, { since := 256 })] }, 21, by decide +kernel⟩,
    ⟨20, { base with arb := [(20, { aging := false })] }, by decide +kernel⟩⟩

/-- The hypotheses of O14 are met together, clause by clause. -/
theorem meets_PendingSets :
    (∃ (n : Fin 64) (m : Msg) (l : List (Nat × Msg)) (s : State), clocked s = true ∧ s.on (n / 4) = true ∧ s.toClus (n / 4) = (n.val, m) :: l
        ∧ s.rq.redirect = []) ∧
    (∃ (n : Fin 64) (x : Nat × Msg) (l : List (Nat × Msg)) (s : State), clocked s = true ∧ s.toClus (n / 4) = x :: l ∧ x.1 ≠ n.val ∧ l.any
        (·.1 == n.val) = true) ∧
    (∃ (k : Fin 16) (f : Nat × BitVec 13) (l : List (Nat × BitVec 13)) (s : State), clocked s = true ∧ s.on k = true ∧ (s.clusOf k).fills = f
        :: l) ∧
    (∃ (n : Fin 64) (i : Fin 2) (s : State) (k j : _), clocked s = true ∧ predEnabled s n i = true ∧ s.flag (Reg.PW_SRC_PIN n i) = false ∧
        (s.predOf n i).st = .locked ∧ (s.predOf n i).nextValid = true ∧ (s.predOf n i).warm = false ∧ (s.coreOf n).halt = false ∧ unitLoaded
        s (1 + n / 16) = true ∧ reached32 s.t (s.rd (Reg.PW_NEXT_NEXT n i) + 2 ^ 32 - leadOf s n) = true ∧ (k, j) ≠ (n.val, i.val) ∧ j < 2) ∧
    (∃ (n : Fin 64) (i : Fin 2) (s : State), clocked s = true ∧ predEnabled s n i = true ∧ predPinned s n i = false ∧ (s.predOf n i).st =
        .locked ∧ (s.predOf n i).nextValid = true ∧ unitLoaded s (1 + n / 16) = true ∧ reached32 s.t (s.rd (Reg.PW_NEXT_NEXT n i) + s.rd
        (Reg.PREWARM_TOL n) + 1024) = true) ∧
    (∃ (i : _), i < 2) :=
  ⟨⟨0, ev, [], { base with rq := { toClus := [(0, [(0, ev)])] } }, by decide +kernel⟩,
    ⟨0, (1, ev), [(0, ev)], { base with rq := { toClus := [(0, [(1, ev), (0, ev)])] } }, by decide +kernel⟩,
    ⟨0, (0, 5), [], { base with clus := [(0, { fills := [(0, 5)] })] }, by decide +kernel⟩,
    ⟨0, 0, predicting, 1, 1, by decide +kernel⟩,
    ⟨0, 0, predicting, by decide +kernel⟩,
    ⟨1, by decide +kernel⟩⟩

/-- The hypotheses of O15 are met together, clause by clause. -/
theorem meets_TakesAndCompletions :
    (∃ (n : Fin 64) (m : Msg) (l : Line) (s : State), clocked s = true ∧ offered s n = some (m, l)) ∧
    (∃ (n : Fin 64) (m : Msg) (took : Bool) (s : State), clocked s = true ∧ s.on (n / 4) = true ∧ claimable s n = some (m, took)) ∧
    (∃ (n : Fin 64) (s : State), clocked s = true ∧ (s.on (n / 4) = false ∨ claimable s n = none)) ∧
    (∃ (n : Fin 64) (w : Word) (m : Msg) (l : List Msg) (s : State), clocked s = true ∧ s.on (n / 4) = true ∧ (s.coreOf n).active = m :: l ∧
        m.seq = w.extractLsb' 0 24) ∧
    (∃ (n : Fin 64) (w : Word) (s : State), clocked s = true ∧ s.on (n / 4) = true ∧ (∀ m ∈ (s.coreOf n).active.head?, m.seq ≠ w.extractLsb'
        0 24)) ∧
    (∃ (n : Fin 64) (s : State), clocked s = true ∧ s.on (n / 4) = false) :=
  ⟨⟨0, ev, ⟨5, 0, 0, false⟩, pended, by decide +kernel⟩,
    ⟨0, ev, false, pended, by decide +kernel⟩,
    ⟨0, base, by decide +kernel⟩,
    ⟨0, 7, ev, [], { base with core := [(0, { active := [ev] })] }, by decide +kernel⟩,
    ⟨0, 8, { base with core := [(0, { active := [ev] })] }, by decide +kernel⟩,
    ⟨0, State.reset, by decide +kernel⟩⟩

/-- The hypotheses of O16 are met together, clause by clause. -/
theorem meets_SequenceLocks :
    (∃ (a : Access) (i : Fin 64) (s : State), a.atPort = true ∧ reaches s a (0xF000 + 4 * i) ∧ (s.lockOf i).held = false ∧ a.dbg = false ∧ (∀
        j : Fin 64, (s.lockOf j).held = true → (s.lockOf j).owner ≠ a.mid)) ∧
    (∃ (a : Access) (i : Fin 64) (s : State), a.atPort = true ∧ reaches s a (0xF000 + 4 * i) ∧ ((s.lockOf i).held = true ∨ a.dbg = true ∨ (∃
        j : Fin 64, (s.lockOf j).held = true ∧ (s.lockOf j).owner = a.mid))) ∧
    (∃ (a : Access) (i : Fin 64) (s : State), a.atPort = true ∧ lands s a (0xF000 + 4 * i) ∧ (s.lockOf i).held = true ∧ (s.lockOf i).owner =
        a.mid) ∧
    (∃ (a : Access) (i : Fin 64) (s : State) (f : Fld), a.atPort = true ∧ lands s a (0xF000 + 4 * i) ∧ ((s.lockOf i).held = false ∨ (s.lockOf
        i).owner ≠ a.mid) ∧ f.off ≠ 0x1C ∧ f.lo < 32) :=
  ⟨⟨port1, 0, base, by unfold reaches; decide +kernel⟩,
    ⟨port1, 63, locked1, by unfold reaches; decide +kernel⟩,
    ⟨port1, 0, locked1, by unfold lands; decide +kernel⟩,
    ⟨port1, 1, locked1, Reg.CTRL_FLTEN, by unfold lands; decide +kernel⟩⟩

/-- The hypotheses of O17 are met together, clause by clause. -/
theorem meets_ConsistentTimeReads :
    (∃ (a : Access) (s : State), a.atPort = true ∧ a.dbg = false ∧ reaches s a 0x1000) ∧
    (∃ (a : Access) (s : State), a.atPort = true ∧ a.dbg = false ∧ reaches s a 0x1004) ∧
    (∃ (b : Access) (m : BitVec 4) (addr : BitVec 20) (ecc : Ecc) (s t : State), b.inBlock addr.toNat = true ∧ (b.mid ≠ m ∨ b.via ≠ .port ∨
        b.dbg = true) ∧ exec (.registerRead b addr ecc) s = .next t) :=
  ⟨⟨port1, base, by unfold reaches; decide +kernel⟩,
    ⟨port1, base, by unfold reaches; decide +kernel⟩,
    ⟨dbg1, 1, 0x1004, .clean, base, _, by exact ⟨by decide, by decide, rfl⟩⟩⟩

/-- The hypotheses of O18 are met together, clause by clause. -/
theorem meets_BrokenLocks :
    (∃ (m : Fin 16) (i : Fin 64) (s : State), (s.lockOf i).held = true ∧ (s.lockOf i).owner.toNat = m.val ∧ (∀ j : Fin 64, (s.lockOf j).held
        = true → (s.lockOf j).owner.toNat = m.val → j = i)) ∧
    (∃ (i : Fin 64) (s : State), clocked s = true ∧ (s.lockOf i).held = true ∧ s.rd Reg.LOCK_CTRL_TMO ≠ 0 ∧ (s.lockOf i).since.toNat + 256 *
        s.rd Reg.LOCK_CTRL_TMO < s.time.now.toNat) ∧
    (∃ (i : Fin 64) (s : State), clocked s = true ∧ (s.lockOf i).held = true ∧ (s.rd Reg.LOCK_CTRL_TMO = 0 ∨ s.time.now.toNat ≤ (s.lockOf
        i).since.toNat + 256 * s.rd Reg.LOCK_CTRL_TMO)) ∧
    (∃ (a : Access) (i : Fin 64) (s : State), a.atPort = true ∧ lands s a (0xF000 + 4 * i) ∧ a.dbg = true ∧ (s.lockOf i).held = true) ∧
    (∃ (a : Access) (i : Fin 64) (s : State), a.atPort = true ∧ lands s a (0xF000 + 4 * i) ∧ a.dbg = false) :=
  ⟨⟨1, 0, locked1, by decide +kernel⟩,
    ⟨0, locked1.wr Reg.LOCK_CTRL_TMO 1, by decide +kernel⟩,
    ⟨0, locked1.wr Reg.LOCK_CTRL_TMO 0, by decide +kernel⟩,
    ⟨dbg1, 0, locked1, by unfold lands; decide +kernel⟩,
    ⟨port1, 0, locked1, by unfold lands; decide +kernel⟩⟩

/-- The hypotheses of O19 are met together, clause by clause. -/
theorem meets_CampionRegisters :
    (∃ (n : Fin 64) (r : Run) (s : State) (wd sel : Nat), clocked s = true ∧ fetches s n r (.lde wd sel)) ∧
    (∃ (n : Fin 64) (r : Run) (s : State) (wd ws : Nat) (imm : Word), clocked s = true ∧ fetches s n r (.addi wd ws imm)) ∧
    (∃ (n : Fin 64) (r : Run) (s : State) (wd ws wt : Nat), clocked s = true ∧ fetches s n r (.sub wd ws wt)) ∧
    (∃ (n : Fin 64) (r : Run) (s : State) (wd ws : Nat) (hi : Bool) (imm : Word), clocked s = true ∧ fetches s n r (.clamp wd ws hi imm)) ∧
    (∃ (n : Fin 64) (r : Run) (s : State) (ws : Nat) (u : Bool) (rhs : Operand), clocked s = true ∧ fetches s n r (.cmp ws u rhs)) ∧
    (∃ (n : Fin 64) (r : Run) (s : State) (cond off : Nat), clocked s = true ∧ fetches s n r (.br cond off)) ∧
    (∃ (n : Fin 64) (r : Run) (s : State) (count off : Nat), clocked s = true ∧ fetches s n r (.loop count off)) ∧
    (∃ (n : Fin 64) (r : Run) (s : State) (ticks : Nat), clocked s = true ∧ fetches s n r (.wait ticks)) ∧
    (∃ (n : Fin 64) (r : Run) (s : State) (target : BitVec 32), clocked s = true ∧ (s.campOf n).run = some { r with hold := .wait target } ∧
        reached32 s.t target.toNat = true) ∧
    (∃ (n : Fin 64) (r : Run) (s : State) (src : Operand) (addr : BitVec 16) (l : List (BitVec 16 × Word)) (parity : Bool), clocked s = true
        ∧ fetches s n r (.sta false src addr) ∧ stageWrite r.stage addr (r.val src) = some l ∧ (parity = false ∨ src.isReg = false)) ∧
    (∃ (n : Fin 64) (r : Run) (s : State) (src : Operand) (addr : BitVec 16), clocked s = true ∧ fetches s n r (.sta false src addr) ∧
        stageWrite r.stage addr (r.val src) = none) ∧
    (∃ (n : Fin 64) (r : Run) (s : State) (ws : Nat) (vec : BitVec 12), clocked s = true ∧ fetches s n r (.irq ws vec) ∧ r.irqs.length < 2) ∧
    (∃ (n : Fin 64) (r : Run) (s : State) (ws : Nat) (vec : BitVec 12), clocked s = true ∧ fetches s n r (.irq ws vec) ∧ 2 ≤ r.irqs.length) :=
  ⟨⟨0, runOf 0x01000002, camp (runOf 0x01000002), 1, 2, by decide +kernel, by exact fetches_intro (by decide +kernel) rfl (by decide +kernel)⟩,
    ⟨0, runOf 0x21400005, camp (runOf 0x21400005), 1, 2, 5, by decide +kernel, by exact fetches_intro (by decide +kernel) rfl (by decide +kernel)⟩,
    ⟨0, runOf 0x294C0000, camp (runOf 0x294C0000), 1, 2, 3, by decide +kernel, by exact fetches_intro (by decide +kernel) rfl (by decide +kernel)⟩,
    ⟨0, runOf 0x31500009, camp (runOf 0x31500009), 1, 2, true, 9, by decide +kernel, by exact fetches_intro (by decide +kernel) rfl (by decide +kernel)⟩,
    ⟨0, runOf 0x39380000, camp (runOf 0x39380000), 2, true, .reg 3, by decide +kernel, by exact fetches_intro (by decide +kernel) rfl (by decide +kernel)⟩,
    ⟨0, runOf 0x41000002, camp (runOf 0x41000002), 1, 2, by decide +kernel, by exact fetches_intro (by decide +kernel) rfl (by decide +kernel)⟩,
    ⟨0, runOf 0x40820000, camp (runOf 0x40820000), 3, 0, by decide +kernel, by exact fetches_intro (by decide +kernel) rfl (by decide +kernel)⟩,
    ⟨0, runOf 0x48000064, camp (runOf 0x48000064), 100, by decide +kernel, by exact fetches_intro (by decide +kernel) rfl (by decide +kernel)⟩,
    ⟨0, runOf 0x48000064, camp { runOf 0x48000064 with hold := .wait 5 }, 5, by decide +kernel⟩,
    ⟨0, runOf 0x10800004, camp (runOf 0x10800004), .reg 1, 4, [(4, 0)], false, by decide +kernel, by exact fetches_intro (by decide +kernel) rfl (by decide +kernel), by decide +kernel, by decide +kernel⟩,
    ⟨0, { runOf 0x14040007 with stage := (List.range 8).map fun k => (BitVec.ofNat 16 (100 + k), 0) }, camp { runOf 0x14040007 with stage := (List.range 8).map fun k => (BitVec.ofNat 16 (100 + k), 0) }, .imm 7, 4, by decide +kernel, by exact fetches_intro (by decide +kernel) rfl (by decide +kernel), by decide +kernel⟩,
    ⟨0, { runOf 0x58400009 with irqs := [(0, 0)] }, camp { runOf 0x58400009 with irqs := [(0, 0)] }, 2, 9, by decide +kernel, by exact fetches_intro (by decide +kernel) rfl (by decide +kernel), by decide +kernel⟩,
    ⟨0, { runOf 0x58400009 with irqs := [(0, 0), (1, 0)] }, camp { runOf 0x58400009 with irqs := [(0, 0), (1, 0)] }, 2, 9, by decide +kernel, by exact fetches_intro (by decide +kernel) rfl (by decide +kernel), by decide +kernel⟩⟩

/-- The hypotheses of O20 are met together, clause by clause. -/
theorem meets_CampionInstructionsAtPorts :
    (∃ (n : Fin 64) (r : Run) (wd : Nat) (addr : BitVec 16) (v : Word) (s : State), clocked s = true ∧ fetches s n r (.lda wd addr) ∧
        r.stage.find? (·.1 == addr) = some (addr, v)) ∧
    (∃ (n : Fin 64) (r : Run) (wd : Nat) (addr : BitVec 16) (s : State), clocked s = true ∧ fetches s n r (.lda wd addr) ∧ r.stage.find? (·.1
        == addr) = none ∧ segGrants s n (r.msg.cls == .f) = true) ∧
    (∃ (n : Fin 64) (r : Run) (src : Operand) (addr : BitVec 16) (s : State), clocked s = true ∧ fetches s n r (.sta true src addr) ∧
        segGrants s n (r.msg.cls == .f) = true) ∧
    (∃ (n : Fin 64) (r : Run) (wd ws : Nat) (vec : BitVec 12) (s : State), clocked s = true ∧ fetches s n r (.emit wd ws vec)) ∧
    (∃ (n : Fin 64) (r : Run) (e : EmitOut) (wd reason : Nat) (refused : Bool) (s : State), clocked s = true ∧ (s.campOf n).run = some r ∧
        r.hold = .emit wd ∧ (s.campOf n).emits.find? (·.mine) = some e ∧ e.answer = some (refused, reason) ∧ e.late = false) ∧
    (∃ (n : Fin 64) (r : Run) (e : EmitOut) (wd : Nat) (s : State), clocked s = true ∧ (s.campOf n).run = some r ∧ r.hold = .emit wd ∧
        (s.campOf n).emits.find? (·.mine) = some e ∧ (e.answer = none ∨ e.late = true) ∧ 32 ≤ emitCycles s e) ∧
    (∃ (n : Fin 64) (e : EmitOut) (l : List EmitOut) (s : State), clocked s = true ∧ (takeFirst (fun (e : EmitOut) => !e.mine &&
        e.answer.isSome) (s.campOf n).emits = some (e, l)) ∧ e.late = false) ∧
    (∃ (n : Fin 64) (r : Run) (s : State), clocked s = true ∧ fetches s n r .ret ∧ r.stage = []) ∧
    (∃ (n : Fin 64) (r : Run) (s : State), clocked s = true ∧ fetches s n r .ret ∧ r.stage ≠ []) :=
  ⟨⟨0, { runOf 0x09000004 with stage := [(4, 8)] }, 1, 4, 8, camp { runOf 0x09000004 with stage := [(4, 8)] }, by decide +kernel, by exact fetches_intro (by decide +kernel) rfl (by decide +kernel), by decide +kernel⟩,
    ⟨0, runOf 0x09000004, 1, 4, camp (runOf 0x09000004), by decide +kernel, by exact fetches_intro (by decide +kernel) rfl (by decide +kernel), by decide +kernel, by decide +kernel⟩,
    ⟨0, runOf 0x18800004, .reg 1, 4, camp (runOf 0x18800004), by decide +kernel, by exact fetches_intro (by decide +kernel) rfl (by decide +kernel), by decide +kernel⟩,
    ⟨0, runOf 0x51400009, 1, 2, 9, camp (runOf 0x51400009), by decide +kernel, by exact fetches_intro (by decide +kernel) rfl (by decide +kernel)⟩,
    ⟨0, { runOf 0x51400009 with hold := .emit 1 }, { vec := 9, issued := 999990, mine := true, answer := some (true, 6) }, 1, 6, true, { base with camp := [(0, { run := some { runOf 0x51400009 with hold := .emit 1 }, emits := [{ vec := 9, issued := 999990, mine := true, answer := some (true, 6) }] })] }, by decide +kernel⟩,
    ⟨0, { runOf 0x51400009 with hold := .emit 1 }, { vec := 9, issued := 999936, mine := true }, 1, { base with camp := [(0, { run := some { runOf 0x51400009 with hold := .emit 1 }, emits := [{ vec := 9, issued := 999936, mine := true }] })] }, by decide +kernel⟩,
    ⟨0, { vec := 9, issued := 0, mine := false, answer := some (false, 0) }, [], { base with camp := [(0, { emits := [{ vec := 9, issued := 0, mine := false, answer := some (false, 0) }] })] }, by decide +kernel⟩,
    ⟨0, runOf 0x78000000, camp (runOf 0x78000000), by decide +kernel, by exact fetches_intro (by decide +kernel) rfl (by decide +kernel), by decide +kernel⟩,
    ⟨0, { runOf 0x78000000 with stage := [(4, 8)] }, camp { runOf 0x78000000 with stage := [(4, 8)] }, by decide +kernel, by exact fetches_intro (by decide +kernel) rfl (by decide +kernel), by decide +kernel⟩⟩

/-- The hypotheses of O21 are met together, clause by clause. -/
theorem meets_ReflexRuns :
    (∃ (r : Fin 4) (b : Burst) (s : State), clocked s = true ∧ nextBurst (s.segOf r) = some b ∧ b.camp < 64) ∧
    (∃ (n : Fin 64) (e : QEntry) (q : List QEntry) (s : State), clocked s = true ∧ campReady s n = true ∧ (s.arbOf (n / 4)).holder.isSome =
        true ∧ nextEntry s n = some (e, q)) ∧
    (∃ (n : Fin 64) (r : Run) (s : State), clocked s = true ∧ (s.campOf n).run = some r ∧ (s.campOf n).failed = none ∧ wdog s (n / 16) <
        runCycles s n r) :=
  ⟨⟨0, ⟨3, ev, [(4, 8)], []⟩, { base with seg := [(0, { bursts := [⟨3, ev, [(4, 8)], []⟩] })] }, by decide +kernel⟩,
    ⟨0, ⟨{ ev with slot := some 2 }, 0⟩, [], { base with camp := [(0, { q := [⟨{ ev with slot := some 2 }, 0⟩] })], arb := [(0, { holder := some { j := 4, beats := 1, done := 0, f := false } })] }, by decide +kernel⟩,
    ⟨0, { runOf 0 with cycles := 1025 }, camp { runOf 0 with cycles := 1025 }, by decide +kernel⟩⟩

/-- The hypotheses of O22 are met together, clause by clause. -/
theorem meets_SystemTime :
    (∃ (p : Nat) (s : State), clocked s = true ∧ syncPort s = some p ∧ s.isMaster = false ∧ 4 ≤ s.su.phase ∧ syncDue s = true) ∧
    (∃ (a : Fin 23) (p : Nat) (r : ArbReq) (byF : Bool) (f : LinkFrame) (l : List LinkFrame) (s : State), clocked s = true ∧ p < 4 ∧ a.val =
        16 + p ∧ (s.arbOf a).holder = none ∧ (s.arbOf a).revoked = none ∧ arbMustAge s a = false ∧ (s.arbOf a).aging = false ∧ (s.arbOf
        a).scope = false ∧ (s.port p).st = .up ∧ (s.port p).ctl = f :: l ∧ arbPick (arbInForce s a (s.arbOf a)) a (linkReqs p s) = some (r,
        byF) ∧ r.j = 2 ∧ frType f = 3) ∧
    (∃ (a : Fin 23) (p : Nat) (r : ArbReq) (byF : Bool) (f : LinkFrame) (l : List LinkFrame) (s : State), clocked s = true ∧ p < 4 ∧ a.val =
        16 + p ∧ (s.arbOf a).holder = none ∧ (s.arbOf a).revoked = none ∧ arbMustAge s a = false ∧ (s.arbOf a).aging = false ∧ (s.arbOf
        a).scope = false ∧ (s.port p).st = .up ∧ (s.port p).ctl = f :: l ∧ arbPick (arbInForce s a (s.arbOf a)) a (linkReqs p s) = some (r,
        byF) ∧ r.j = 2 ∧ frType f = 4) ∧
    (∃ (p : Fin 4) (frame : LinkFrame) (s : State), clocked s = true ∧ receives s p frame = true ∧ frType frame = 3) ∧
    (∃ (p : Fin 4) (frame : LinkFrame) (sub4 : Fin 32) (d : Int) (s : State), clocked s = true ∧ receives s p frame = true ∧ frType frame = 4
        ∧ tget false s.time.waiting p = true ∧ s.time.exchanged = true ∧ s.time.wakeSync = false ∧ (sgn 64 ((frMsg frame).extractLsb' 0 64 -
        tget 0 s.time.t1 p).toNat - sgn 64 (BitVec.ofNat 64 (16 * s.t + sub4.val) - (frMsg frame).extractLsb' 64 64).toNat) / 2 = d) ∧
    (∃ (p : Fin 4) (frame : LinkFrame) (sub4 : Fin 32) (d : Int) (s : State), clocked s = true ∧ receives s p frame = true ∧ frType frame = 4
        ∧ tget false s.time.waiting p = true ∧ s.time.exchanged = false ∧ s.su.open_ = false ∧ s.time.wakeSync = false ∧ sgn 64 ((frMsg
        frame).extractLsb' 0 64 - tget 0 s.time.t1 p).toNat - sgn 64 (BitVec.ofNat 64 (16 * s.t + sub4.val) - (frMsg frame).extractLsb' 64
        64).toNat = 2 * d) ∧
    (∃ (p : Fin 4) (frame : LinkFrame) (sub4 : Fin 32) (d : Int) (s : State), clocked s = true ∧ receives s p frame = true ∧ frType frame = 4
        ∧ tget false s.time.waiting p = true ∧ s.time.wakeSync = true ∧ sgn 64 ((frMsg frame).extractLsb' 0 64 - tget 0 s.time.t1 p).toNat -
        sgn 64 (BitVec.ofNat 64 (16 * s.t + sub4.val) - (frMsg frame).extractLsb' 64 64).toNat = 2 * d ∧ s.su.open_ = false) ∧
    (∃ (s : State), clocked s = true ∧ exchangeMissing s = true ∧ s.flag Reg.TIME_STAT_ALOST = false ∧ s.time.exchanged = false) ∧
    (∃ (s : State), clocked s = true ∧ exchangeMissing s = true ∧ s.flag Reg.TIME_STAT_ALOST = false ∧ s.time.wakeHold = false) ∧
    (∃ (s : State), clocked s = true ∧ trimReady s = true) ∧
    (∃ (i : Fin 16) (rising : Bool) (width : Nat) (s : State), clocked s = true ∧ 3 ≤ width ∧ (if bit (s.rd Reg.CAP_CTRL_EDGE) i then !rising
        else rising) = true ∧ bit (s.rd Reg.CAP_CTRL_EN) i = true ∧ tget false s.pins.capIn i = !rising) ∧
    (∃ (i : Fin 16) (level : Bool) (width : Nat) (s : State), 3 ≤ width ∧ tget false s.pins.capIn i = level) ∧
    (∃ (i : Fin 16) (stamp : Tick) (s : State), s.pending = [] ∧ clocked s = true ∧ timeRuns s = true ∧ s.time.capPend = [(i.val, stamp)] ∧
        (stamp.toNat + 3) / 2 * 2 + 2 ≤ s.t + 2 ∧ s.t + 2 < 2 ^ 64 ∧ bit (s.rd Reg.CAP_STAT_NEW) i = false) ∧
    (∃ (i : Fin 16) (stamp : Tick) (s : State), s.pending = [] ∧ clocked s = true ∧ timeRuns s = true ∧ s.time.capPend = [(i.val, stamp)] ∧
        (stamp.toNat + 3) / 2 * 2 + 2 ≤ s.t + 2 ∧ s.t + 2 < 2 ^ 64 ∧ bit (s.rd Reg.CAP_STAT_NEW) i = true) ∧
    (∃ (s : State), s.time.sleep = .entering) ∧
    (∃ (s : State), s.time.sleep = .asleep) ∧
    (∃ (s : State), s.time.sleep = .waking ∧ s.su.open_ = false) :=
  ⟨⟨0, slave, by decide +kernel⟩,
    ⟨16, 0, ⟨2, 1, false⟩, false, frame 3 0 0, [], { withPort { st := .up, ctl := [frame 3 0 0] } with arb := [(16, { aging := false })] }, by decide +kernel⟩,
    ⟨16, 0, ⟨2, 1, false⟩, false, frame 4 0 0, [], { withPort { st := .up, ctl := [frame 4 0 0] } with arb := [(16, { aging := false })] }, by decide +kernel⟩,
    ⟨0, frame 3 0 0, withPort { st := .up }, by decide +kernel⟩,
    ⟨0, frame 4 0 0, 0, -8000000, { withPort { st := .up } with time := { base.time with waiting := [(0, true)], exchanged := true } }, by decide +kernel⟩,
    ⟨0, frame 4 0 0, 0, -8000000, { withPort { st := .up } with time := { base.time with waiting := [(0, true)] }, su := { phase := 4 } }, by decide +kernel⟩,
    ⟨0, frame 4 0 0, 0, -8000000, { withPort { st := .up } with time := { base.time with waiting := [(0, true)], wakeSync := true }, su := { phase := 4 } }, by decide +kernel⟩,
    ⟨(slave.wr Reg.TIME_CTRL_SYNCINT 1).wr Reg.TIME_STAT_ALOST 0, by decide +kernel⟩,
    ⟨(slave.wr Reg.TIME_CTRL_SYNCINT 1).wr Reg.TIME_STAT_ALOST 0, by decide +kernel⟩,
    ⟨{ base with time := { base.time with slew := 16 } }, by decide +kernel⟩,
    ⟨15, true, 3, base.wr Reg.CAP_CTRL_EN 0x8000, by decide +kernel⟩,
    ⟨0, false, 3, base, by decide +kernel⟩,
    ⟨15, 999990, { base with time := { base.time with capPend := [(15, 999990)] } }, by decide +kernel⟩,
    ⟨15, 999990, { base with time := { base.time with capPend := [(15, 999990)] } }.wr Reg.CAP_STAT_NEW 0x8000, by decide +kernel⟩,
    ⟨{ base with time := { sleep := .entering } }, by decide +kernel⟩,
    ⟨{ base with time := { sleep := .asleep } }, by decide +kernel⟩,
    ⟨{ State.reset with time := { sleep := .waking } }, by decide +kernel⟩⟩

/-- The hypotheses of O23 are met together, clause by clause. -/
theorem meets_Thaws :
    (∃ (s : State), thawDue s = true ∧ s.time.running = true) ∧
    (∃ (s : State), clocked s = true ∧ s.time.running = true ∧ s.su.open_ = false ∧ s.su.phase = 5 ∧ thaw0Tick s ≤ s.t) ∧
    (∃ (u : Fin 21) (s : State), clocked s = true ∧ (if u.val = 0 then decide (2 ≤ s.su.phase) else if u.val < 5 then s.on (15 + u.val) else
        s.on (u.val - 5)) = true ∧ u.val = 0 ∧ s.su.phase = 2 ∧ s.su.soft = true) ∧
    (∃ (u : Fin 21) (s : State), clocked s = true ∧ (if u.val = 0 then decide (2 ≤ s.su.phase) else if u.val < 5 then s.on (15 + u.val) else
        s.on (u.val - 5)) = true ∧ (u.val ≠ 0 ∨ s.su.phase ≠ 2)) ∧
    (∃ (s : State), clocked s = true ∧ s.img.dtPhase = 3 ∧ groupInTransport s s.img.dtRegion = false) ∧
    (∃ (s : State), clocked s = true ∧ s.img.dtPhase = 4) :=
  ⟨⟨{ base with epoch := {} }, by decide +kernel⟩,
    ⟨{ base with su := { phase := 5 } }, by decide +kernel⟩,
    ⟨0, { base with su := { phase := 2, soft := true } }, by decide +kernel⟩,
    ⟨20, base, by decide +kernel⟩,
    ⟨{ base with img := { dtPhase := 3 } }, by decide +kernel⟩,
    ⟨{ base with img := { dtPhase := 4 } }, by decide +kernel⟩⟩

/-- The hypotheses of O24 are met together, clause by clause. -/
theorem meets_Training :
    (∃ (p : Fin 4) (s : State), clocked s = true ∧ (s.port p).st = .detect) ∧
    (∃ (p : Fin 4) (s : State), clocked s = true ∧ (s.port p).st = .lock) ∧
    (∃ (p : Fin 4) (s : State), clocked s = true ∧ (s.port p).st = .align) ∧
    (∃ (p : Fin 4) (content : BitVec 128) (s : State), clocked s = true ∧ (s.port p).st = .ident ∧ content.getLsbD 7 = decide (2 ≤ p.val) ∧
        (s.flag (Reg.LNK_PEER_EXPEN p) = false ∨ (s.rd (Reg.LNK_PEER_EXPECT p) = (content.extractLsb' 0 5).toNat ∧ s.rd
        (Reg.LNK_PEER_EXPPORT p) = (content.extractLsb' 5 2).toNat))) ∧
    (∃ (p : Fin 4) (content : BitVec 128) (s : State), clocked s = true ∧ (s.port p).st = .ident ∧ (content.getLsbD 7 ≠ decide (2 ≤ p.val) ∨
        (s.flag (Reg.LNK_PEER_EXPEN p) = true ∧ (s.rd (Reg.LNK_PEER_EXPECT p) ≠ (content.extractLsb' 0 5).toNat ∨ s.rd (Reg.LNK_PEER_EXPPORT
        p) ≠ (content.extractLsb' 5 2).toNat)))) ∧
    (∃ (p : Fin 4) (s : State), clocked s = true ∧ ((s.port p).st = .credit ∨ ((s.port p).st = .ident ∧ (s.port p).checked = false))) ∧
    (∃ (p : Fin 4) (s : State), clocked s = true ∧ (s.port p).st = .ident ∧ (s.port p).checked = true) ∧
    (∃ (p : Fin 4) (s : State), clocked s = true ∧ (s.port p).st = .credit ∧ (s.port p).resolving = false ∧ (s.port p).scrRx ≠ [] ∧ 2 ≤ p.val) ∧
    (∃ (p : Fin 4) (slots : Nat) (s : State), clocked s = true ∧ (s.port p).st = .credit ∧ (s.port p).resolving = false ∧ (s.port p).scrRx ≠
        [] ∧ p.val < 2 ∧ slots = 1) ∧
    (∃ (p : Fin 4) (b : Nat) (s : State), clocked s = true ∧ trainBound p (s.port p).st = some b ∧ (s.port p).since.toNat + b ≤ s.t) ∧
    (∃ (p : Fin 4) (s : State), clocked s = true ∧ idleOver s p = true ∧ s.on (lnkDom p) = true ∧ s.pins.bscMode = false ∧ (s.port p).st =
        .down ∧ s.flag (Reg.LNK_CTRL_AUTO p) = true ∧ (s.port p).noRetrain = false) ∧
    (∃ (p : Fin 4) (s : State), clocked s = true ∧ idleOver s p = true ∧ s.on (lnkDom p) = true ∧ s.pins.bscMode = false ∧ (s.port p).st =
        .off ∧ s.flag (Reg.LNK_CTRL_EN p) = true ∧ testing s p = false) ∧
    (∃ (p : Fin 4) (s : State), clocked s = true ∧ (s.port p).st ≠ .up) ∧
    (∃ (p : Fin 4) (s : State), clocked s = true ∧ (s.port p).st = .up) ∧
    (∃ (s : State) (p : _), clocked s = true ∧ p < 4) ∧
    (∃ (s : State), clocked s = false) :=
  ⟨⟨0, withPort { st := .detect }, by decide +kernel⟩,
    ⟨0, withPort { st := .lock }, by decide +kernel⟩,
    ⟨0, withPort { st := .align }, by decide +kernel⟩,
    ⟨0, 0, withPort { st := .ident }, by decide +kernel⟩,
    ⟨0, 1, ((withPort { st := .ident }).wr (Reg.LNK_PEER_EXPEN 0) 1).wr (Reg.LNK_PEER_EXPECT 0) 2, by decide +kernel⟩,
    ⟨0, withPort { st := .credit }, by decide +kernel⟩,
    ⟨0, withPort { st := .ident, checked := true }, by decide +kernel⟩,
    ⟨2, { base with lnk := [(2, { st := .credit, scrRx := scrSeeds })] }, by decide +kernel⟩,
    ⟨0, 1, withPort { st := .credit, scrRx := scrSeeds }, by decide +kernel⟩,
    ⟨0, 80000, withPort { st := .align, since := 920000 }, by decide +kernel⟩,
    ⟨0, (withPort { st := .down, idleFrom := some 999744 }).wr (Reg.LNK_CTRL_AUTO 0) 1, by decide +kernel⟩,
    ⟨0, (withPort { idleFrom := some 999744 }).wr (Reg.LNK_CTRL_EN 0) 1, by decide +kernel⟩,
    ⟨0, withPort { st := .down }, by decide +kernel⟩,
    ⟨0, withPort { st := .up }, by decide +kernel⟩,
    ⟨base, 3, by decide +kernel⟩,
    ⟨{ base with time := { sleep := .asleep } }, by decide +kernel⟩⟩

/-- The hypotheses of O25 are met together, clause by clause. -/
theorem meets_ReceivedFrames :
    (∃ (p : Fin 4) (frame : LinkFrame) (s : State), clocked s = true ∧ receives s p frame = true ∧ frType frame = 1 ∧ frSeq frame = (s.port
        p).expect ∧ (s.port p).rx.length + lostIn s (52 + p) < 32 ∧ badMsg (Msg.unpack (frMsg frame)) = false) ∧
    (∃ (p : Fin 4) (frame : LinkFrame) (s : State), clocked s = true ∧ receives s p frame = true ∧ frType frame = 1 ∧ (frSeq frame ≠ (s.port
        p).expect ∨ 32 ≤ (s.port p).rx.length + lostIn s (52 + p))) ∧
    (∃ (p : Fin 4) (frame : LinkFrame) (k : Nat) (s : State), clocked s = true ∧ receives s p frame = true ∧ frType frame = 0 ∧ (s.port
        p).unacked.findIdx? (·.1 == frSeq frame) = some k) ∧
    (∃ (p : Fin 4) (frame : LinkFrame) (k : Nat) (s : State), clocked s = true ∧ receives s p frame = true ∧ frType frame = 2 ∧ (s.port
        p).unacked.findIdx? (·.1 == frSeq frame) = some k ∧ (s.port p).replayFrom ≠ some (frSeq frame) ∧ 2 ≤ s.rd (Reg.LNK_CTRL_REPLAYLIM p)) ∧
    (∃ (p : Fin 4) (frame : LinkFrame) (s : State), clocked s = true ∧ receives s p frame = true ∧ 7 ≤ frType frame) ∧
    (∃ (p : Fin 4) (frame : LinkFrame) (s : State), clocked s = true ∧ receives s p frame = true ∧ frType frame = 6) ∧
    (∃ (p : Fin 4) (frame : LinkFrame) (s : State), clocked s = true ∧ (s.port p).st = .up ∧ p.val < 2 ∧ frType frame ≠ 1 ∧ frOk frame =
        false ∧ (s.port p).failRun < 7) :=
  ⟨⟨0, frame 1 0xFF ev.pack, withPort { st := .up, expect := 0xFF }, by decide +kernel⟩,
    ⟨0, frame 1 1 ev.pack, withPort { st := .up }, by decide +kernel⟩,
    ⟨0, frame 0 4 0, 1, withPort { st := .up, unacked := [(3, ev), (4, ev)] }, by decide +kernel⟩,
    ⟨0, frame 2 4 0, 1, (withPort { st := .up, unacked := [(3, ev), (4, ev)] }).wr (Reg.LNK_CTRL_REPLAYLIM 0) 2, by decide +kernel⟩,
    ⟨0, frame 7 0 0, withPort { st := .up }, by decide +kernel⟩,
    ⟨0, frame 6 0 0, withPort { st := .up }, by decide +kernel⟩,
    ⟨0, 0, withPort { st := .up, failRun := 6 }, by decide +kernel⟩⟩

/-- The hypotheses of O26 are met together, clause by clause. -/
theorem meets_LinkBounds :
    (∃ (p : Fin 4) (s : State), clocked s = true ∧ (s.port p).st = .up ∧ ackDue s p = true) ∧
    (∃ (p : Fin 4) (b : BitVec 64) (s : State), clocked s = true ∧ (s.port p).st = .up ∧ (s.port p).nak = some b ∧ b.toNat + ackTmo s p ≤ s.t) ∧
    (∃ (p : Fin 4) (q : BitVec 8) (m : Msg) (l : List (BitVec 8 × Msg)) (s : State), clocked s = true ∧ (s.port p).st = .up ∧ (s.port
        p).unacked = (q, m) :: l ∧ (s.port p).progress.toNat + ackTmo s p ≤ s.t ∧ (s.port p).replayFrom ≠ some q ∧ 2 ≤ s.rd
        (Reg.LNK_CTRL_REPLAYLIM p)) ∧
    (∃ (p : Fin 4) (q : BitVec 8) (m : Msg) (l : List (BitVec 8 × Msg)) (s : State), clocked s = true ∧ (s.port p).st = .up ∧ (s.port
        p).unacked = (q, m) :: l ∧ (s.port p).progress.toNat + ackTmo s p ≤ s.t ∧ (s.port p).replayFrom = some q ∧ max 1 (s.rd
        (Reg.LNK_CTRL_REPLAYLIM p)) ≤ (s.port p).replayRuns + 1) ∧
    (∃ (p : Fin 4) (raw frames : List LinkFrame) (rawParity parity : LinkFrame) (f g : Nat → LinkFrame) (fix : Nat → Bool) (s : State),
        raw.length = 16 ∧ frames.length = 16 ∧ 2 ≤ p.val ∧ (s.port p).st = .up ∧ (s.port p).scrRx ≠ [] ∧ (descramble (raw ++ [rawParity])
        (s.port p).scrRx).1 = frames ++ [parity] ∧ (∀ b, b < 8 → frOk (f b) = true ∧ frOk (g b) = true ∧ rsDecode (frames.getD (2 * b) 0)
        (frames.getD (2 * b + 1) 0) (parity.extractLsb' (20 * b + 10) 10).toNat (parity.extractLsb' (20 * b) 10).toNat = some (f b, g b, fix
        b))) ∧
    (∃ (p : Fin 4) (raw : List LinkFrame) (s : State), raw.length = 16 ∧ 2 ≤ p.val ∧ (s.port p).st = .credit ∧ (s.port p).scrRx ≠ []) :=
  ⟨⟨0, withPort { st := .up, sinceAck := 8 }, by decide +kernel⟩,
    ⟨0, 0, withPort { st := .up, nak := some 0 }, by decide +kernel⟩,
    ⟨0, 3, ev, [], (withPort { st := .up, unacked := [(3, ev)] }).wr (Reg.LNK_CTRL_REPLAYLIM 0) 2, by decide +kernel⟩,
    ⟨0, 3, ev, [], (withPort { st := .up, unacked := [(3, ev)], replayFrom := some 3, replayRuns := 1 }).wr (Reg.LNK_CTRL_REPLAYLIM 0) 2, by decide +kernel⟩,
    ⟨2, List.replicate 16 (frame 0 0 0), List.replicate 16 (frame 0 0 0), parityOf (List.replicate 16 (frame 0 0 0)), parityOf (List.replicate 16 (frame 0 0 0)), fun _ => frame 0 0 0, fun _ => frame 0 0 0, fun _ => false, { base with lnk := [(2, { st := .up, scrRx := [0, 0, 0, 0] })] }, by decide +kernel⟩,
    ⟨2, List.replicate 16 0, { base with lnk := [(2, { st := .credit, scrRx := scrSeeds })] }, by decide +kernel⟩⟩

/-- The hypotheses of O27 are met together, clause by clause. -/
theorem meets_Reports :
    (∃ (p : Fin 4) (q : Nat) (s : State), clocked s = true ∧ (s.port p).reports < 4 ∧ ((s.port p).reports = 0 ∨ (s.port p).lastReport.toNat +
        256 ≤ s.t) ∧ portToward s (peerOf s p) = some q ∧ q ≠ p.val) ∧
    (∃ (p : Fin 4) (frame : LinkFrame) (q : Nat) (s : State), clocked s = true ∧ receives s p frame = true ∧ frType frame = 5 ∧ (frMsg
        frame).extractLsb' 0 5 ≠ s.die ∧ portToward s ((frMsg frame).extractLsb' 0 5) = some q ∧ q ≠ p.val) ∧
    (∃ (p : Fin 4) (frame : LinkFrame) (q : Nat) (s : State), clocked s = true ∧ receives s p frame = true ∧ frType frame = 5 ∧ (frMsg
        frame).extractLsb' 0 5 = s.die ∧ q < 4 ∧ q ≠ p.val ∧ (∀ k, k < 4 → (peerOf s k = (frMsg frame).extractLsb' 5 5 ∧ s.rd
        (Reg.LNK_PEER_PEERPORT k) = ((frMsg frame).extractLsb' 10 2).toNat ∧ (s.port k).everUp = true ↔ k = q)) ∧ ((s.port q).st = .up ∨
        ((s.port q).resolving = true ∧ (s.port q).entered = false))) ∧
    (∃ (p : Fin 4) (s : State), clocked s = true ∧ (s.port p).resolving = true ∧ (s.port p).entered = false ∧ (s.port p).downAt.toNat + 256 *
        max 1 (s.rd (Reg.LNK_CTRL_RPTTMO p)) ≤ s.t) ∧
    (∃ (p : Fin 4) (b : BitVec 64) (s : State), clocked s = true ∧ (s.port p).resolving = true ∧ (s.port p).resolved = some b ∧ b.toNat + 256
        * s.rd (Reg.LNK_CTRL_SETTLE p) ≤ s.t) :=
  ⟨⟨1, 0, { linked with lnk := [(0, { st := .up, everUp := true }), (1, { reports := 0 })] }.wr (Reg.LNK_PEER_PEER 1) 1, by decide +kernel⟩,
    ⟨1, frame 5 0 1, 0, twoPorts, by decide +kernel⟩,
    ⟨1, frame 5 0 32, 0, twoPorts, by decide +kernel⟩,
    ⟨0, (withPort { st := .down, resolving := true }).wr (Reg.LNK_CTRL_RPTTMO 0) 1, by decide +kernel⟩,
    ⟨0, 0, (withPort { st := .down, resolving := true, resolved := some 0 }).wr (Reg.LNK_CTRL_SETTLE 0) 1, by decide +kernel⟩⟩

/-- The hypotheses of O28 are met together, clause by clause. -/
theorem meets_AuditAndPatternTest :
    (∃ (s : State), clocked s = true ∧ s.flag Reg.AUDIT_CTRL_EN = true ∧ s.time.sleep = .awake ∧ s.latchOf 5121 = none) ∧
    (∃ (p lane : Fin 4) (s : State), clocked s = true ∧ testing s p = true ∧ tget false s.tst.locked (laneKey p lane) = true) :=
  ⟨⟨{ base with audit := { found := [0] } }.wr Reg.AUDIT_CTRL_EN 1, by decide +kernel⟩,
    ⟨0, 0, ({ base with tst := { locked := [(0, true)] } }.wr Reg.TEST_CTRL_LTEST 1).wr Reg.TEST_LSEL_PORT 0, by decide +kernel⟩⟩

/-- The hypotheses of O29 are met together, clause by clause. -/
theorem meets_ExactlyOnce :
    (∃ (r : Fin 4) (x : XMsg) (l : List XMsg) (s : State), clocked s = true ∧ s.crossing r = x :: l ∧ s.on (16 + r) = true ∧ x.dup = true) ∧
    (∃ (r : Fin 4) (x : XMsg) (l : List XMsg) (s : State), clocked s = true ∧ s.crossing r = x :: l ∧ s.on (16 + r) = true ∧ x.dup = false ∧
        (∀ d ∈ s.rq.redirect, ¬ (d.u = x.u ∧ d.origin = x.msg.origin ∧ d.source = x.msg.source)) ∧ x.restored = true) ∧
    (∃ (r : Fin 4) (x : XMsg) (l : List XMsg) (s : State), clocked s = true ∧ s.crossing r = x :: l ∧ s.on (16 + r) = true ∧ x.dup = false ∧
        (∀ d ∈ s.rq.redirect, ¬ (d.u = x.u ∧ d.origin = x.msg.origin ∧ d.source = x.msg.source)) ∧ x.restored = false ∧ x.msg.cls ≠ .s) ∧
    (∃ (m : Msg) (l : List Msg) (k : Nat) (c : FirnRec) (s : State), clocked s = true ∧ s.firn.dones = m :: l ∧ custodyAt s (destLane m.dest)
        m = some (k, c) ∧ c.msg.origin ≠ s.die) ∧
    (∃ (m : Msg) (l : List Msg) (k j : Nat) (c e : FirnRec) (s : State), clocked s = true ∧ s.firn.dones = m :: l ∧ custodyAt s (destLane
        m.dest) m = some (k, c) ∧ c.msg.origin = s.die ∧ s.acc.offers = [] ∧ (firnFind s (fun r => r.kind == .event && r.msg.sameId c.msg) =
        some (j, e)) ∧ j ≠ k ∧ e.releasing = false ∧ e.need = [c.msg.dest] ∧ c.msg.dest ∉ e.came ∧ e.partner = none ∧ e.donors = []) ∧
    (∃ (m : Msg) (l : List Msg) (k : Nat) (e : FirnRec) (s : State), clocked s = true ∧ fenceIn s 4 m l ∧ s.acc.offers = [] ∧ (firnFind s
        (fun r => r.kind == .event && r.msg.sameId m) = some (k, e)) ∧ e.releasing = false ∧ fenceReplica m ∈ e.need ∧ senderOf m ≠ s.die ∧
        fenceReplica m ∉ e.came ∧ e.need.erase (fenceReplica m) ≠ []) ∧
    (∃ (m : Msg) (l : List Msg) (k : Nat) (e : FirnRec) (s : State), clocked s = true ∧ fenceIn s 4 m l ∧ s.acc.offers = [] ∧ (firnFind s
        (fun r => r.kind == .event && r.msg.sameId m) = some (k, e)) ∧ e.releasing = false ∧ fenceReplica m ∈ e.need ∧ senderOf m ≠ s.die ∧
        fenceReplica m ∉ e.came ∧ e.need.erase (fenceReplica m) = [] ∧ e.partner = none) ∧
    (∃ (m : Msg) (l : List Msg) (k : Nat) (e : FirnRec) (s : State), clocked s = true ∧ fenceIn s 4 m l ∧ s.acc.offers = [] ∧ (firnFind s
        (fun r => r.kind == .event && r.msg.sameId m) = some (k, e)) ∧ e.releasing = false ∧ fenceReplica m ∈ e.need ∧ senderOf m ≠ s.die ∧
        fenceReplica m ∈ e.came) ∧
    (∃ (m : Msg) (l : List Msg) (k : Nat) (c : FirnRec) (s : State), clocked s = true ∧ fenceIn s 5 m l ∧ (firnAll s (fun r => r.kind ==
        .custody && r.done && r.msg.sameId m) = [(k, c)]) ∧ c.settle = none) ∧
    (∃ (idx : BitVec 14) (c : FirnRec) (b : Tick) (s : State), clocked s = true ∧ s.recOf idx.toNat = some c ∧ c.settle = some b ∧ c.kind =
        .custody ∧ b.toNat + psettle s ≤ s.t) ∧
    (∃ (m : Msg) (l : List Msg) (k : Nat) (e : FirnRec) (s : State), clocked s = true ∧ fenceIn s 6 m l ∧ (firnFind s (fun r => r.kind ==
        .event && r.msg.sameId m) = some (k, e)) ∧ e.poisoned = false ∧ e.msg.cls ≠ .s) :=
  ⟨⟨0, { msg := ev, u := 0, dup := true }, [], { base with rq := { crossing := [(0, [{ msg := ev, u := 0, dup := true }])] } }, by decide +kernel⟩,
    ⟨0, { msg := ev, u := 0, restored := true }, [], { base with rq := { crossing := [(0, [{ msg := ev, u := 0, restored := true }])] } }, by decide +kernel⟩,
    ⟨3, { msg := ev, u := 63 }, [], { base with rq := { crossing := [(3, [{ msg := ev, u := 63 }])] } }, by decide +kernel⟩,
    ⟨{ ev with origin := 1 }, [], 0, { kind := .custody, msg := { ev with origin := 1 } }, { base with firn := { dones := [{ ev with origin := 1 }], recs := [(0, some { kind := .custody, msg := { ev with origin := 1 } })] } }, by decide +kernel⟩,
    ⟨ev, [], 0, 1, { kind := .custody, msg := ev }, rec1, { base with firn := { dones := [ev], recs := [(0, some { kind := .custody, msg := ev }), (1, some rec1)] } }, by decide +kernel⟩,
    ⟨tok 4, [], 0, rec2, tokIn 4 [(0, some rec2)], by unfold fenceIn; decide +kernel⟩,
    ⟨tok 4, [], 0, rec1, tokIn 4 [(0, some rec1)], by unfold fenceIn; decide +kernel⟩,
    ⟨tok 4, [], 0, { rec2 with came := [0] }, tokIn 4 [(0, some { rec2 with came := [0] })], by unfold fenceIn; decide +kernel⟩,
    ⟨tok 5, [], 0, { kind := .custody, msg := ev, done := true }, tokIn 5 [(0, some { kind := .custody, msg := ev, done := true })], by unfold fenceIn; decide +kernel⟩,
    ⟨3, { kind := .custody, msg := ev, done := true, settle := some 0 }, 0, { base with firn := { recs := [(3, some { kind := .custody, msg := ev, done := true, settle := some 0 })] } }.wr Reg.REC_CTRL_PSETTLE 1, by decide +kernel⟩,
    ⟨tok 6, [], 0, rec1, tokIn 6 [(0, some rec1)], by unfold fenceIn; decide +kernel⟩⟩

/-- The hypotheses of O30 are met together, clause by clause. -/
theorem meets_ProbesAndLosses :
    (∃ (idx : BitVec 14) (e : FirnRec) (s : State), clocked s = true ∧ s.recOf idx.toNat = some e ∧ s.flag Reg.REC_CTRL_AGEN = true ∧ e.kind
        = .event ∧ e.accepted = true ∧ e.need ≠ [] ∧ e.since.toNat + ageTicks s < s.t) ∧
    (∃ (m : Msg) (l : List Msg) (s : State), clocked s = true ∧ fenceIn s 7 m l) ∧
    (∃ (m : Msg) (l : List Msg) (k : Nat) (e : FirnRec) (s : State), clocked s = true ∧ fenceIn s 8 m l ∧ (firnFind s (fun r => r.kind ==
        .event && r.msg.sameId m && r.need.contains (fenceReplica m)) = some (k, e)) ∧ m.payload.extractLsb' 4 2 ≠ 0) ∧
    (∃ (m : Msg) (l : List Msg) (k : Nat) (e : FirnRec) (s : State), clocked s = true ∧ fenceIn s 8 m l ∧ (firnFind s (fun r => r.kind ==
        .event && r.msg.sameId m && r.need.contains (fenceReplica m)) = some (k, e)) ∧ m.payload.extractLsb' 4 2 = 0 ∧ fenceReplica m ∉
        e.absent) ∧
    (∃ (m : Msg) (l : List Msg) (k : Nat) (e : FirnRec) (s : State), clocked s = true ∧ fenceIn s 8 m l ∧ (firnFind s (fun r => r.kind ==
        .event && r.msg.sameId m && r.need.contains (fenceReplica m)) = some (k, e)) ∧ m.payload.extractLsb' 4 2 = 0 ∧ fenceReplica m ∈
        e.absent ∧ e.poisoned = false ∧ e.msg.cls ≠ .s ∧ e.msg.cls ≠ .m) ∧
    (∃ (m : Msg) (l : List Msg) (k : Nat) (e : FirnRec) (s : State), clocked s = true ∧ fenceIn s 8 m l ∧ (firnFind s (fun r => r.kind ==
        .event && r.msg.sameId m && r.need.contains (fenceReplica m)) = some (k, e)) ∧ m.payload.extractLsb' 4 2 = 0 ∧ fenceReplica m ∈
        e.absent ∧ e.poisoned = false ∧ e.msg.cls ≠ .s ∧ e.msg.cls = .m) ∧
    (∃ (m : Msg) (l : List Msg) (s : State), clocked s = true ∧ fenceIn s 9 m l ∧ m.origin ≠ s.die) ∧
    (∃ (m : Msg) (l : List Msg) (s : State), clocked s = true ∧ fenceIn s 10 m l ∧ m.payload.getLsbD 6 = false) ∧
    (∃ (m : Msg) (l : List Msg) (s : State), clocked s = true ∧ fenceIn s 10 m l ∧ m.payload.getLsbD 6 = true ∧ holdsMirrors s m.origin =
        true ∧ hasPartner s m.origin = false ∧ s.flag Reg.REC_CTRL_AGEN = false ∧ s.rd Reg.REC_STAT_ACTING ≠ m.origin.toNat ∧ s.flag
        Reg.REC_CTRL_PTAKE = true ∧ takingOver s m.origin = false ∧ s.rec_.acting = none) ∧
    (∃ (m : Msg) (l : List Msg) (s : State) (x : _), clocked s = true ∧ fenceIn s 10 m l ∧ m.payload.getLsbD 6 = true ∧ holdsMirrors s
        m.origin = true ∧ hasPartner s m.origin = false ∧ s.flag Reg.REC_CTRL_AGEN = false ∧ s.rd Reg.REC_STAT_ACTING ≠ m.origin.toNat ∧
        s.flag Reg.REC_CTRL_PTAKE = true ∧ takingOver s m.origin = false ∧ s.rec_.acting = some x) :=
  ⟨⟨3, rec1, ({ base with firn := { recs := [(3, some rec1)] } }.wr Reg.REC_CTRL_AGEN 1).wr Reg.REC_CTRL_AGE 1, by decide +kernel⟩,
    ⟨tok 7, [], tokIn 7 [], by unfold fenceIn; decide +kernel⟩,
    ⟨tok 24, [], 0, rec1, tokIn 24 [(0, some rec1)], by unfold fenceIn; decide +kernel⟩,
    ⟨tok 8, [], 0, rec1, tokIn 8 [(0, some rec1)], by unfold fenceIn; decide +kernel⟩,
    ⟨tok 8, [], 0, { rec1 with absent := [0] }, tokIn 8 [(0, some { rec1 with absent := [0] })], by unfold fenceIn; decide +kernel⟩,
    ⟨tok 8, [], 0, { rec1 with absent := [0], msg := { ev with cls := .m } }, tokIn 8 [(0, some { rec1 with absent := [0], msg := { ev with cls := .m } })], by unfold fenceIn; decide +kernel⟩,
    ⟨{ tok 9 with origin := 1 }, [], { base with xb := { recIn := [{ tok 9 with origin := 1 }] } }, by unfold fenceIn; decide +kernel⟩,
    ⟨tok 10, [], tokIn 10 [], by unfold fenceIn; decide +kernel⟩,
    ⟨{ tok 0x4A with origin := 1 }, [], ({ base with xb := { recIn := [{ tok 0x4A with origin := 1 }] }, firn := { recs := [(0, some mirror1)] } }.wr Reg.REC_CTRL_PTAKE 1).wr Reg.REC_CTRL_AGEN 0, by unfold fenceIn; decide +kernel⟩,
    ⟨{ tok 0x4A with origin := 1 }, [], ({ base with xb := { recIn := [{ tok 0x4A with origin := 1 }] }, firn := { recs := [(0, some mirror1)] }, rec_ := { acting := some (2, 0) } }.wr Reg.REC_CTRL_PTAKE 1).wr Reg.REC_CTRL_AGEN 0, (2, 0), by unfold fenceIn; decide +kernel⟩⟩

/-- The hypotheses of O31 are met together, clause by clause. -/
theorem meets_Takeovers :
    (∃ (o : BitVec 5) (b : Tick) (s : State), clocked s = true ∧ tget none (noteRoutes s).rec_.noRoute o.toNat = some b ∧ b.toNat + psettle s
        ≤ s.t ∧ s.flag Reg.REC_CTRL_PTAKE = true ∧ s.rec_.acting = none ∧ s.rec_.actMore = []) ∧
    (∃ (o : BitVec 5) (b : Tick) (k : Nat) (e : FirnRec) (s : State), clocked s = true ∧ s.rec_.acting = some (o, b) ∧ b.toNat + psettle s ≤
        s.t ∧ (firnAll s (fun r => r.kind == .mirror && r.msg.origin == o) = [(k, e)]) ∧ s.flag Reg.REC_CTRL_AGEN = true) :=
  ⟨⟨1, 0, ({ base with firn := { recs := [(0, some mirror1)] }, rec_ := { noRoute := [(1, some 0)] } }.wr Reg.REC_CTRL_PTAKE 1).wr Reg.REC_CTRL_PSETTLE 1, by decide +kernel⟩,
    ⟨1, 0, 0, mirror1, ({ base with firn := { recs := [(0, some mirror1)] }, rec_ := { acting := some (1, 0) } }.wr Reg.REC_CTRL_PSETTLE 1).wr Reg.REC_CTRL_AGEN 1, by decide +kernel⟩⟩

/-- The hypotheses of O32 are met together, clause by clause. -/
theorem meets_Migration :
    (∃ (slot : Fin 8) (x : MigSlot) (s : State), clocked s = true ∧ tget none s.rec_.mig slot.val = some x ∧ x.phase = 0 ∧ inTransport s
        x.source = false ∧ srcCls s x.source.toNat ≠ .s) ∧
    (∃ (u : Fin 128) (m : Msg) (l : List Msg) (s : State), clocked s = true ∧ fenceAt s u 0 = some (m, l) ∧ m.cls ≠ .s) ∧
    (∃ (u : Fin 128) (m : Msg) (l : List Msg) (s : State) (x : _), x ∈ l ∧ clocked s = true ∧ fenceAt s u 0 = some (m, l) ∧ x.isEvent = true
        ∧ x.origin = m.origin ∧ x.source = m.source ∧ x.cls ≠ .s) ∧
    (∃ (u : Fin 128) (m : Msg) (l : List Msg) (s : State), clocked s = true ∧ fenceAt s u 1 = some (m, l)) ∧
    (∃ (u : Fin 128) (origin : BitVec 5) (source : BitVec 13) (d : Redirect) (l : List Redirect) (s : State), clocked s = true ∧ (takeFirst
        (fun d => d.u == u.val && d.origin == origin && d.source == source) s.rq.redirect = some (d, l)) ∧ heldAt s u origin source = false
        ∧ d.cls ≠ .s) ∧
    (∃ (u : Fin 128) (m : Msg) (l : List Msg) (s : State), clocked s = true ∧ fenceAt s u 2 = some (m, l)) ∧
    (∃ (m : Msg) (l : List Msg) (s : State) (j x : _), clocked s = true ∧ fenceIn s 3 m l ∧ s.rec_.gated = [] ∧ j < 8 ∧ tget none s.rec_.mig
        j = some x) ∧
    (∃ (m : Msg) (l : List Msg) (s : State) (j : _), clocked s = true ∧ fenceIn s 3 m l ∧ s.rec_.gated = [] ∧ tget none s.rec_.mig j = none) ∧
    (∃ (m : Msg) (l : List Msg) (j k : Nat) (x : MigSlot) (e : FirnRec) (s : State), clocked s = true ∧ fenceIn s 10 m l ∧ m.payload.getLsbD
        6 = false ∧ s.flag Reg.REC_CTRL_AGEN = false ∧ hasPartner s m.origin = false ∧ twf none s.firn.recs = true ∧ j < 8 ∧ tget none
        s.rec_.mig j = some x ∧ destDie x.old = m.origin ∧ s.recOf k = some e ∧ e.kind = .event ∧ e.acting = false ∧ e.msg.source = x.source
        ∧ e.need ≠ []) :=
  ⟨⟨7, slot5, { base with rec_ := { mig := [(7, some slot5)] } }, by decide +kernel⟩,
    ⟨0, tok 0, [], { base with rq := { lanes := [(0, [tok 0])] } }, by decide +kernel⟩,
    ⟨0, tok 0, [{ ev with seq := 6, ts := 0x2000 }], { base with rq := { lanes := [(0, [tok 0, { ev with seq := 6, ts := 0x2000 }])] } }, { ev with seq := 6, ts := 0x2000 }, by decide +kernel⟩,
    ⟨127, tok 1, [], { base with rq := { lanes := [(127, [tok 1])] } }, by decide +kernel⟩,
    ⟨0, 0, 5, ⟨0, 0, 5, 1, 0, .g⟩, [], { base with rq := { redirect := [⟨0, 0, 5, 1, 0, .g⟩] } }, by decide +kernel⟩,
    ⟨0, tok 2, [], { base with rq := { lanes := [(0, [tok 2])] } }, by decide +kernel⟩,
    ⟨tok 3, [], { tokIn 3 [] with rec_ := { mig := [(7, some slot5)] } }, 7, slot5, by unfold fenceIn; decide +kernel⟩,
    ⟨tok 3, [], { tokIn 3 [] with rec_ := { mig := [(7, some slot5)] } }, 6, by unfold fenceIn; decide +kernel⟩,
    ⟨{ tok 10 with origin := 1 }, [], 0, 0, { slot5 with old := 64 }, rec1, { base with xb := { recIn := [{ tok 10 with origin := 1 }] }, firn := { recs := [(0, some rec1)] }, rec_ := { mig := [(0, some { slot5 with old := 64 })] } }.wr Reg.REC_CTRL_AGEN 0, by unfold fenceIn; decide +kernel⟩⟩

/-- The hypotheses of O33 are met together, clause by clause. -/
theorem meets_LocksAndScrub :
    (∃ (i : Fin 64) (s : State), clocked s = true ∧ (s.lockOf i).held = true ∧ s.rd Reg.LOCK_CTRL_TMO ≠ 0 ∧ (s.lockOf i).since.toNat + 256 *
        s.rd Reg.LOCK_CTRL_TMO < s.t ∧ s.latchOf 5127 = none ∧ s.time.sleep = .awake) ∧
    (∃ (m : Fin 16) (s : State) (i : _), i < 64 ∧ (s.lockOf i).held = true ∧ (s.lockOf i).owner.toNat = m.val) ∧
    (∃ (m : Fin 16) (s : State) (i : _), (64 ≤ i ∨ (s.lockOf i).held = false ∨ (s.lockOf i).owner.toNat ≠ m.val)) ∧
    (∃ (s : State), clocked s = true ∧ s.flag Reg.FIRN_SCRUB_EN = true ∧ s.firn.scrub.toNat + 1 ≠ Config.firnRecords) ∧
    (∃ (k : Nat) (s : State), clocked s = true ∧ s.flag Reg.FIRN_SCRUB_EN = true ∧ recKind s s.firn.scrub.toNat = some k ∧ s.time.sleep =
        .awake ∧ s.latchOf 5123 = none) ∧
    (∃ (k : Nat) (s : State) (j : _), clocked s = true ∧ s.flag Reg.FIRN_SCRUB_EN = true ∧ recKind s s.firn.scrub.toNat = some k ∧
        s.time.sleep = .awake ∧ s.latchOf 5124 = none ∧ s.recOf s.firn.scrub.toNat = none ∧ j = s.firn.scrub.toNat + Config.replayRecords -
        Config.firnRecords) :=
  ⟨⟨0, locked1.wr Reg.LOCK_CTRL_TMO 1, by decide +kernel⟩,
    ⟨1, locked1, 0, by decide +kernel⟩,
    ⟨1, locked1, 64, by decide +kernel⟩,
    ⟨{ base with firn := { scrub := 16382 } }.wr Reg.FIRN_SCRUB_EN 1, by decide +kernel⟩,
    ⟨0, { base with firn := { recs := [(0, some rec1)] } }.wr Reg.FIRN_SCRUB_EN 1, by decide +kernel⟩,
    ⟨3, { base with firn := { scrub := 16383 } }.wr Reg.FIRN_SCRUB_EN 1, 16383 + Config.replayRecords - Config.firnRecords, by decide +kernel⟩⟩

/-- The hypotheses of O34 are met together, clause by clause. -/
theorem meets_LoadsAndFlash :
    (∃ (side : Side) (s : State), (loadOf side s).st = .verify ∧ (loadOf side s).busy = false ∧ verifyReason (loadOf side s) s = 0 ∧ (loadOf
        side s).persist = false ∧ (loadOf side s).boot = false ∧ partsOf (loadOf side s) ≠ []) ∧
    (∃ (side : Side) (r : Nat) (s : State), (loadOf side s).st = .verify ∧ (loadOf side s).busy = false ∧ ((if (loadOf side s).boot = true ∧
        tornBlock s (loadOf side s).blk = true then 9 else verifyReason (loadOf side s) s) = r) ∧ r ≠ 0) ∧
    (∃ (side : Side) (s : State), (loadOf side s).st = .restore ∧ (loadOf side s).boot = false) ∧
    (∃ (r : Nat) (s : State), s.img.load.st = .verify ∧ s.img.load.busy = false ∧ verifyReason s.img.load s = 0 ∧ s.img.load.persist = true ∧
        verifyReason { s.img.load with words := ((flashBlock s s.img.load.blk).take s.img.load.words.length).reverse } s = r ∧ r ≠ 0) ∧
    (∃ (m1 : Bool) (s : State), s.img.load.st = .verify ∧ s.img.load.busy = false ∧ verifyReason s.img.load s = 0 ∧ s.img.load.persist = true
        ∧ verifyReason { s.img.load with words := ((flashBlock s s.img.load.blk).take s.img.load.words.length).reverse } s = 0 ∧ m1 = (match
        newestMark s with | some m => m.1 | none => false) ∧ (markRecs s m1).length < Config.markerSlots) ∧
    (∃ (m1 : Bool) (s : State), s.img.load.st = .verify ∧ s.img.load.busy = false ∧ verifyReason s.img.load s = 0 ∧ s.img.load.persist = true
        ∧ verifyReason { s.img.load with words := ((flashBlock s s.img.load.blk).take s.img.load.words.length).reverse } s = 0 ∧ m1 = (match
        newestMark s with | some m => m.1 | none => false) ∧ Config.markerSlots ≤ (markRecs s m1).length) ∧
    (∃ (s : State), s.img.load.markErase = true ∧ s.img.load.st = .verify) ∧
    (∃ (w x : Word) (l : List Word) (s : State), s.img.load.busy = true ∧ s.img.load.st = .verify ∧ s.img.load.markErase = false ∧
        s.img.load.mark = w :: x :: l) ∧
    (∃ (w : Word) (s : State), s.img.load.busy = true ∧ s.img.load.st = .verify ∧ s.img.load.markErase = false ∧ s.img.load.mark = [w] ∧
        s.img.load.boot = false ∧ partsOf s.img.load ≠ []) ∧
    (∃ (s : State), s.img.load.st = .erase ∧ s.img.load.markErase = false ∧ s.img.load.fifo = [] ∧ s.img.load.wait = none ∧ s.img.load.taken
        = 0) ∧
    (∃ (w : Word) (l : List Word) (s : State), s.img.load.busy = true ∧ s.img.load.st = .body ∧ s.img.load.fifo = [] ∧ s.img.load.wait = none
        ∧ s.img.load.words = w :: l ∧ s.img.load.mark = [] ∧ s.img.load.markErase = false) ∧
    (∃ (s : State), s.edw.step = .idle ∧ (s.img.load.st = .erase ∨ s.img.load.busy = true)) ∧
    (∃ (r : SealRec) (s : State), s.edw.step = .program false ∧ s.edw.rec_ = some r) ∧
    (∃ (s : State), s.edw.step = .program true ∧ s.edw.tdue = false) :=
  ⟨⟨.field, verifying, by decide +kernel⟩,
    ⟨.field, 9, loadSt { st := .verify, words := [1] }, by decide +kernel⟩,
    ⟨.field, loadSt { st := .restore }, by decide +kernel⟩,
    ⟨9, { persisted with img := { persisted.img with flashA := [] } }, by decide +kernel⟩,
    ⟨false, persisted, by decide +kernel⟩,
    ⟨false, fullMarks, fullMarks_meets⟩,
    ⟨loadSt { st := .verify, markErase := true }, by decide +kernel⟩,
    ⟨7, 8, [], loadSt { st := .verify, busy := true, mark := [7, 8] }, by decide +kernel⟩,
    ⟨7, loadSt { st := .verify, busy := true, mark := [7], held := [(0x33, 0, 1)] }, by decide +kernel⟩,
    ⟨loadSt { st := .erase }, by decide +kernel⟩,
    ⟨7, [], loadSt { st := .body, busy := true, words := [7] }, by decide +kernel⟩,
    ⟨loadSt { st := .erase }, by decide +kernel⟩,
    ⟨rec0, edw { step := .program false, rec_ := some rec0 }, by decide +kernel⟩,
    ⟨edw { step := .program true }, by decide +kernel⟩⟩

/-- The hypotheses of O35 are met together, clause by clause. -/
theorem meets_CopiesAndRime :
    (∃ (n : Fin 8) (s : State), n.val < 7 ∧ (if n.val < 3 then 0x20 + n.val else 0x30 + (n.val - 3)) ∈ s.img.copies ∧ s.img.load.st = .idle ∧
        s.img.load.wait = none) ∧
    (∃ (s : State), s.su.phase = 3 ∧ s.img.load.st = .ready ∧ s.img.load.s0 = false) ∧
    (∃ (s : State), clocked s = true ∧ s.su.open_ = true ∧ s.flag Reg.RIME_CTRL_EN = true ∧ rimeWord (rimeNext s 40000 s.rime.pos) = none) ∧
    (∃ (a i : Nat) (s : State), clocked s = true ∧ s.su.open_ = true ∧ s.flag Reg.RIME_CTRL_EN = true ∧ rimeWord (rimeNext s 40000
        s.rime.pos) = some (a, i) ∧ (∀ n l, s.latchOf n = some l → srcEn s n = true ∨ offerFlying s n = true) ∧ rimeActive s a i = rimeRef s
        a i) ∧
    (∃ (a i : Nat) (s : State), clocked s = true ∧ s.su.open_ = true ∧ s.flag Reg.RIME_CTRL_EN = true ∧ rimeWord (rimeNext s 40000
        s.rime.pos) = some (a, i) ∧ (∀ n l, s.latchOf n = some l → srcEn s n = true ∨ offerFlying s n = true) ∧ rimeActive s a i ≠ rimeRef s
        a i ∧ s.flag Reg.RIME_CTRL_RESTORE = true ∧ (a, i) ∉ s.rime.marks ∧ s.rime.marks.length < 64 ∧ s.time.sleep = .awake ∧ s.latchOf
        5120 = none) ∧
    (∃ (s : State), s.su.phase = 0) :=
  ⟨⟨3, { base with img := { copies := [0x30] } }, by decide +kernel⟩,
    ⟨{ base with su := { phase := 3 }, img := { load := { st := .ready } } }, by decide +kernel⟩,
    ⟨{ base with rime := { pos := 60000 } }.wr Reg.RIME_CTRL_EN 1, by decide +kernel⟩,
    ⟨0, 64, base.wr Reg.RIME_CTRL_EN 1, by decide +kernel, by decide +kernel, by decide +kernel, by decide +kernel, by intro n l h; exact absurd (show (none : Option Latched) = some l from h) (by simp), by decide +kernel⟩,
    ⟨0, 64, ({ base with rime := { ref := [(256, some 0xFFFF)] } }.wr Reg.RIME_CTRL_EN 1).wr Reg.RIME_CTRL_RESTORE 1, by decide +kernel, by decide +kernel, by decide +kernel, by decide +kernel, by intro n l h; exact absurd (show (none : Option Latched) = some l from h) (by simp), by decide +kernel, by decide +kernel, by decide +kernel, by decide +kernel, by decide +kernel, by decide +kernel⟩,
    ⟨State.reset, by decide +kernel⟩⟩

/-- The hypotheses of O36 are met together, clause by clause. -/
theorem meets_FieldFrames :
    (∃ (p : BitVec 128) (s : State), barReady .field s ∧ (p.getLsbD 0 = false ∨ s.bar.owe = false)) ∧
    (∃ (p : BitVec 128) (s : State) (k c : _), k ∈ s.hostq.live ∧ barReady .field s ∧ p.getLsbD 0 = true ∧ s.bar.owe = true ∧ s.recOf k =
        some c ∧ c.sent.isSome = true ∧ c.poisoned = false) ∧
    (∃ (p : BitVec 128) (s : State), barReady .field s ∧ (∀ e ∈ entries p, tagRec s e = none)) ∧
    (∃ (p : BitVec 128) (tag k : Nat) (c : FirnRec) (s : State), barReady .field s ∧ entries p = [tag] ∧ tagRec s tag = some (k, c) ∧
        c.msg.origin ≠ s.die) ∧
    (∃ (p : BitVec 128) (v : VRes) (s : State) (refused : Bool) (reason : Nat), barReady .field s ∧ tget none s.acc.vres (pf p 28 5) = some v
        ∧ v.gen = p.getLsbD 33 ∧ v.result = some (refused, reason)) ∧
    (∃ (p : BitVec 128) (v : VRes) (s : State), barReady .field s ∧ tget none s.acc.vres (pf p 28 5) = some v ∧ v.gen = p.getLsbD 33 ∧
        v.result = none) ∧
    (∃ (p : BitVec 128) (s : State), barReady .field s ∧ (∀ v, tget none s.acc.vres (pf p 28 5) = some v → v.gen ≠ p.getLsbD 33)) ∧
    (∃ (s : State), barReady .field s ∧ s.time.barT1 = none) ∧
    (∃ (s : State) (t1 : _), barReady .field s ∧ s.time.barT1 = some t1) ∧
    (∃ (p : BitVec 128) (l : List Nat) (s : State), barReady .field s ∧ l = liveOf s (pf p 0 8)) ∧
    (∃ (k : Nat) (l before after q : List Nat) (c : FirnRec) (b : Tick) (s : State), s.bar.st = .up ∧ s.bar.run = true ∧ s.hostq.unrep = k ::
        l ∧ s.recOf k = some c ∧ c.sent = some b ∧ b.toNat + rtmo s ≤ s.t ∧ s.hostq.live = before ++ k :: after ∧ k ∉ before ∧ tget []
        s.hostq.queue c.msg.epoch.toNat = q) :=
  ⟨⟨1, bup { st := .up }, by unfold barReady; decide +kernel⟩,
    ⟨1, { bup { st := .up, owe := true } with firn := { recs := [(3, some { cust with sent := some 0 })] }, hostq := { live := [3] } }, 3, { cust with sent := some 0 }, by unfold barReady; decide +kernel⟩,
    ⟨0x8000, bup { st := .up }, by unfold barReady; decide +kernel⟩,
    ⟨0x8003, 3, 3, { cust with msg := { ev with origin := 1 } }, { bup { st := .up } with firn := { recs := [(3, some { cust with msg := { ev with origin := 1 } })] } }, by unfold barReady; decide +kernel⟩,
    ⟨0, ⟨false, some (true, 4)⟩, { bup { st := .up } with acc := { vres := [(0, some ⟨false, some (true, 4)⟩)] } }, true, 4, by unfold barReady; decide +kernel⟩,
    ⟨0, ⟨false, none⟩, { bup { st := .up } with acc := { vres := [(0, some ⟨false, none⟩)] } }, by unfold barReady; decide +kernel⟩,
    ⟨0, bup { st := .up }, by unfold barReady; decide +kernel, fun v h => absurd (show (none : Option VRes) = some v from h) (by simp)⟩,
    ⟨bup { st := .up }, by unfold barReady; decide +kernel⟩,
    ⟨{ bup { st := .up } with time := { base.time with barT1 := some 5 } }, 5, by unfold barReady; decide +kernel⟩,
    ⟨7, [3], { bup { st := .up } with firn := { recs := [(3, some { cust with msg := { ev with epoch := 7 } })] }, hostq := { live := [3] } }, by unfold barReady; decide +kernel⟩,
    ⟨3, [], [2], [4], [4], { cust with sent := some 0, msg := { ev with epoch := 7 } }, 0, { bup { st := .up, run := true } with firn := { recs := [(3, some { cust with sent := some 0, msg := { ev with epoch := 7 } })] }, hostq := { unrep := [3], live := [2, 3, 4], queue := [(7, [4])] } }, by decide +kernel⟩⟩

/-- The hypotheses of O37 are met together, clause by clause. -/
theorem meets_BarrierLiveness :
    (∃ (d : Side) (s : State), hasSide d s = true ∧ (barOf d s).st = .down ∧ (d = .field → s.flag Reg.BAR_CTRL_EN = true)) ∧
    (∃ (d : Side) (s : State), hasSide d s = true ∧ (barOf d s).st ≠ .down) ∧
    (∃ (d : Side) (s : State), (barOf d s).st ≠ .up) ∧
    (∃ (d : Side) (s : State), (barOf d s).st = .up ∧ (clk d s).toNat < (barOf d s).lastRx.toNat + dtmo s) ∧
    (∃ (d : Side) (s : State), (barOf d s).st = .up ∧ (barOf d s).lastRx.toNat + dtmo s ≤ (clk d s).toNat) ∧
    (∃ (d : Side) (s : State), (barOf d s).st = .hello ∧ ((barOf d s).lastHello = 0 ∨ (barOf d s).lastHello.toNat + 256 ≤ (clk d s).toNat)) ∧
    (∃ (d : Side) (p : BitVec 128) (s : State), (barOf d s).st = .hello ∧ (barOf d s).stuck = false ∧ pf p 0 3 = s.pins.idPkg.toNat ∧ pf p 4
        4 = 1 ∧ d = .field ∧ s.bar.lastGen = p.extractLsb' 8 8) ∧
    (∃ (d : Side) (p : BitVec 128) (s : State), (barOf d s).st = .hello ∧ (barOf d s).stuck = false ∧ pf p 0 3 = s.pins.idPkg.toNat ∧ pf p 4
        4 = 1 ∧ d = .field ∧ s.bar.lastGen ≠ p.extractLsb' 8 8) ∧
    (∃ (d : Side) (p : BitVec 128) (s : State), (barOf d s).st = .hello ∧ (barOf d s).stuck = false ∧ pf p 0 3 = s.pins.idPkg.toNat ∧ pf p 4
        4 = 1 ∧ d = .host) ∧
    (∃ (p : BitVec 128) (s : State), s.bar.st = .hello ∧ s.bar.stuck = false ∧ (pf p 0 3 ≠ s.pins.idPkg.toNat ∨ pf p 4 4 ≠ 1)) ∧
    (∃ (d : Side) (p : BitVec 128) (s : State), (barOf d s).st = .up ∧ pf p 0 3 = s.pins.idPkg.toNat ∧ pf p 4 4 = 1 ∧ (barOf d s).peerGen ≠
        some (p.extractLsb' 8 8)) :=
  ⟨⟨.field, (bup {}).wr Reg.BAR_CTRL_EN 1, by decide +kernel⟩,
    ⟨.field, bup { st := .up }, by decide +kernel⟩,
    ⟨.field, bup { st := .hello }, by decide +kernel⟩,
    ⟨.field, bup { st := .up, lastRx := 999999 }, by decide +kernel⟩,
    ⟨.field, bup { st := .up }, by decide +kernel⟩,
    ⟨.field, bup { st := .hello, lastHello := 999744 }, by decide +kernel⟩,
    ⟨.field, 0x510, bup { st := .hello, lastGen := 5 }, by decide +kernel⟩,
    ⟨.field, 0x510, bup { st := .hello, lastGen := 4 }, by decide +kernel⟩,
    ⟨.host, 0x510, { base with gate := { bar := { st := .hello } } }, by decide +kernel⟩,
    ⟨0x511, bup { st := .hello }, by decide +kernel⟩,
    ⟨.field, 0x510, bup { st := .up, peerGen := some 4 }, by decide +kernel⟩⟩

/-- The hypotheses of O38 are met together, clause by clause. -/
theorem meets_BarrierTraffic :
    (∃ (d : Side) (s : State), barReady d s) ∧
    (∃ (d : Side) (s : State), (barOf d s).st = .up ∧ (barOf d s).rxUsed = 0 ∧ ((barOf d s).freed ≠ 0 ∨ (barOf d s).lastRxcred.toNat + 1024 ≤
        (clk d s).toNat)) ∧
    (∃ (d : Side) (f : BarFrame) (s : State), (barOf d s).st ≠ .down ∧ hasSide d s = true ∧ barCrc f ≠ f.extractLsb' 0 16 ∧ (barOf d
        s).failRun + 1 < 8 ∧ d = .field) ∧
    (∃ (d : Side) (f : BarFrame) (s : State), (barOf d s).st ≠ .down ∧ hasSide d s = true ∧ barCrc f ≠ f.extractLsb' 0 16 ∧ 8 ≤ (barOf d
        s).failRun + 1 ∧ (barOf d s).st = .up ∧ d = .field ∧ s.latchOf 5147 = none ∧ s.time.sleep = .awake) ∧
    (∃ (d : Side) (f : BarFrame) (s : State), (barOf d s).st ≠ .down ∧ hasSide d s = true ∧ barCrc f = f.extractLsb' 0 16 ∧ sends (otherSide
        d) (f.extractLsb' 144 8) = false ∧ d = .field) ∧
    (∃ (d : Side) (typ : BitVec 8) (p : BitVec 128) (l : List (BitVec 8 × BitVec 128)) (s : State), (d = .host → s.gate.writtenTags = [] ∧
        s.gate.discTags = []) ∧ (barOf d s).st ≠ .down ∧ (barOf d s).urgent = (typ, p) :: l) ∧
    (∃ (d : Side) (typ : BitVec 8) (p : BitVec 128) (l : List (BitVec 8 × BitVec 128)) (s : State), (d = .host → s.gate.writtenTags = [] ∧
        s.gate.discTags = []) ∧ (barOf d s).st ≠ .down ∧ (barOf d s).st = .up ∧ (barOf d s).urgent = [] ∧ (d = .field → barSyncDue s =
        false) ∧ (barOf d s).credit ≠ 0 ∧ (barOf d s).ctl = (typ, p) :: l) ∧
    (∃ (d : Side) (s : State), hasSide d s = true ∧ (d = .host → s.gate.writtenTags = [] ∧ s.gate.discTags = []) ∧ ((barOf d s).st = .down ∨
        ((barOf d s).st = .hello ∧ (barOf d s).urgent = []) ∨ ((barOf d s).st = .up ∧ (barOf d s).urgent = [] ∧ (barOf d s).credit = 0 ∧ (d
        = .field → barSyncDue s = false)))) ∧
    (∃ (s : State), s.bar.st = .up ∧ s.bar.urgent = [] ∧ barSyncDue s = true) ∧
    (∃ (sl k : Nat) (cl : Cls) (c : FirnRec) (m : Msg) (s : State), s.bar.st = .up ∧ s.bar.urgent = [] ∧ s.bar.ctl = [] ∧ barSyncDue s =
        false ∧ s.bar.credit ≠ 0 ∧ nextSlice s = some (sl, k, cl) ∧ s.recOf k = some c ∧ m = (if c.pendAgain = some true then c.msg.flag
        else c.msg)) ∧
    (∃ (s : State), barReady .host s) :=
  ⟨⟨.host, gup {}, by unfold barReady; decide +kernel⟩,
    ⟨.field, bup { st := .up, freed := 1 }, by decide +kernel⟩,
    ⟨.field, 0, bup { st := .up, failRun := 6 }, by decide +kernel⟩,
    ⟨.field, 0, bup { st := .up, failRun := 7 }, by decide +kernel⟩,
    ⟨.field, barFrame 0x03 0, bup { st := .up }, by decide +kernel⟩,
    ⟨.field, 0x16, 0, [], bup { st := .hello, urgent := [(0x16, 0)] }, by decide +kernel⟩,
    ⟨.field, 0x12, 0, [], { bup { st := .up, ctl := [(0x12, 0)] } with time := { base.time with lastBar := 1000000 } }, by decide +kernel⟩,
    ⟨.field, bup {}, by decide +kernel⟩,
    ⟨bup { st := .up }, by decide +kernel⟩,
    ⟨7, 3, .g, cust, ev, { bup { st := .up, run := true } with time := { base.time with lastBar := 1000000 }, firn := { recs := [(3, some cust)] }, hostq := { queue := [(7, [3])], credit := [(7, 1)] } }, by decide +kernel⟩,
    ⟨gup {}, by unfold barReady; decide +kernel⟩⟩

/-- The hypotheses of O39 are met together, clause by clause. -/
theorem meets_HostGateMessages :
    (∃ (p : BitVec 128) (s : State), barReady .host s ∧ p.getLsbD 64 = true) ∧
    (∃ (p : BitVec 128) (s : State), barReady .host s ∧ p.getLsbD 64 = false) ∧
    (∃ (p : BitVec 128) (v : VwSlot) (i : BitVec 8) (s : State), barReady .host s ∧ tget {} s.gate.vw (pf p 0 5) = v ∧ v.busy = some i ∧
        v.gen = p.getLsbD 5 ∧ (s.slice i.toNat).vwSlot = some (pf p 0 5)) ∧
    (∃ (k : Nat) (v : VwSlot) (i : BitVec 8) (l : Tbl VwSlot) (s : State), s.gate.bar.st = .up ∧ s.gate.vw = (k, v) :: l ∧ v.busy = some i ∧
        v.sentAt.toNat + rtmo s ≤ s.gate.clk.toNat) ∧
    (∃ (s : State) (i w : _), i ∈ s.gate.slices.map (·.1) ∧ w < 17) ∧
    (∃ (s : State), twf .none s.gate.tags = true) ∧
    (∃ (p : BitVec 128) (i k : Nat) (tag : BitVec 15) (x : Slice) (s : State), barReady .host s ∧ intakeRoom s p = true ∧ eventSlice p = i ∧
        eventTag p = tag ∧ tag.toNat % 2 ^ 14 = k ∧ s.slice i = x ∧ (x.st = .free ∨ x.st = .closed) ∧ tagOf s k ≠ .done (tag.getLsbD 14) ∧
        tagOf s k ≠ .queued (tag.getLsbD 14)) ∧
    (∃ (p : BitVec 128) (i k : Nat) (tag : BitVec 15) (x : Slice) (s : State), barReady .host s ∧ intakeRoom s p = true ∧ eventSlice p = i ∧
        eventTag p = tag ∧ tag.toNat % 2 ^ 14 = k ∧ s.slice i = x ∧ (x.st = .open_ ∨ x.st = .fault) ∧ x.kept = [] ∧ (x.st = .open_ → shareOf
        s i ≤ (x.prod + 1 - x.cons).toNat + (x.granted - 1)) ∧ tagOf s k ≠ .done (tag.getLsbD 14) ∧ tagOf s k ≠ .queued (tag.getLsbD 14)) ∧
    (∃ (p : BitVec 128) (i k : Nat) (tag : BitVec 15) (x : Slice) (s : State), barReady .host s ∧ intakeRoom s p = true ∧ eventSlice p = i ∧
        eventTag p = tag ∧ tag.toNat % 2 ^ 14 = k ∧ s.slice i = x ∧ tagOf s k ≠ .done (tag.getLsbD 14) ∧ tagOf s k ≠ .queued (tag.getLsbD
        14) ∧ x.st = .stopping ∧ x.fromFault = false ∧ x.kept = [] ∧ x.occ < ringSize s i) ∧
    (∃ (p : BitVec 128) (i k : Nat) (tag : BitVec 15) (x : Slice) (s : State), barReady .host s ∧ intakeRoom s p = true ∧ eventSlice p = i ∧
        eventTag p = tag ∧ tag.toNat % 2 ^ 14 = k ∧ s.slice i = x ∧ tagOf s k ≠ .done (tag.getLsbD 14) ∧ tagOf s k ≠ .queued (tag.getLsbD
        14) ∧ x.st = .stopping ∧ (x.fromFault = true ∨ (x.rstFree = true ∧ (x.kept ≠ [] ∨ ringSize s i ≤ x.occ)))) ∧
    (∃ (p : BitVec 128) (i k : Nat) (tag : BitVec 15) (x : Slice) (s : State), barReady .host s ∧ intakeRoom s p = true ∧ eventSlice p = i ∧
        eventTag p = tag ∧ tag.toNat % 2 ^ 14 = k ∧ s.slice i = x ∧ tagOf s k ≠ .done (tag.getLsbD 14) ∧ tagOf s k ≠ .queued (tag.getLsbD
        14) ∧ (((x.st = .open_ ∨ x.st = .fault) ∧ x.kept ≠ []) ∨ (x.st = .stopping ∧ x.fromFault = false ∧ x.rstFree = false ∧ (x.kept ≠ []
        ∨ ringSize s i ≤ x.occ)))) ∧
    (∃ (p : BitVec 128) (i k : Nat) (tag : BitVec 15) (x : Slice) (s : State), barReady .host s ∧ intakeRoom s p = true ∧ eventSlice p = i ∧
        eventTag p = tag ∧ tag.toNat % 2 ^ 14 = k ∧ s.slice i = x ∧ tagOf s k = .done (tag.getLsbD 14)) ∧
    (∃ (p : BitVec 128) (i k : Nat) (tag : BitVec 15) (x : Slice) (s : State), barReady .host s ∧ intakeRoom s p = true ∧ eventSlice p = i ∧
        eventTag p = tag ∧ tag.toNat % 2 ^ 14 = k ∧ s.slice i = x ∧ tagOf s k = .queued (tag.getLsbD 14)) ∧
    (∃ (p : BitVec 128) (s : State), s.gate.bar.st = .up ∧ (∀ h ∈ (s.gate.held ++ [p]).head?, intakeRoom s h = false)) :=
  ⟨⟨0x10000000000000000, gup {}, by unfold barReady; decide +kernel⟩,
    ⟨0xFFFFFFFFFFFFFFFF, gup {}, by unfold barReady; decide +kernel⟩,
    ⟨31, { busy := some 7 }, 7, gup { vw := [(31, { busy := some 7 })], slices := [(7, { st := .open_, vwSlot := some 31 })] }, by unfold barReady; decide +kernel⟩,
    ⟨31, { busy := some 7 }, 7, [], gup { vw := [(31, { busy := some 7 })], clk := 1000000 }, by decide +kernel⟩,
    ⟨slc { st := .open_ }, 0, 16, by decide +kernel⟩,
    ⟨gup { tags := [(0, .queued true)] }, by decide +kernel⟩,
    ⟨0, 0, 0, 0, {}, gup {}, by unfold barReady; decide +kernel⟩,
    ⟨0, 0, 0, 0, { st := .fault, granted := 7 }, slc { st := .fault, granted := 7 }, by unfold barReady; decide +kernel⟩,
    ⟨0, 0, 0, 0, { st := .stopping }, slc { st := .stopping }, by unfold barReady; decide +kernel⟩,
    ⟨0, 0, 0, 0, { st := .stopping, fromFault := true }, slc { st := .stopping, fromFault := true }, by unfold barReady; decide +kernel⟩,
    ⟨0, 0, 0, 0, { st := .fault, kept := [(ev, 5)] }, slc { st := .fault, kept := [(ev, 5)] }, by unfold barReady; decide +kernel⟩,
    ⟨0, 0, 0, 0, {}, gup { tags := [(0, .done false)] }, by unfold barReady; decide +kernel⟩,
    ⟨0, 0, 0, 0, {}, gup { tags := [(0, .queued false)] }, by unfold barReady; decide +kernel⟩,
    ⟨0, slc { st := .open_, q := List.replicate 256 rrec }, by decide +kernel, by intro h hh; obtain rfl : 0 = h := Option.mem_some.mp hh; decide +kernel⟩⟩

/-- The hypotheses of O40 are met together, clause by clause. -/
theorem meets_RingWriters :
    (∃ (p : BitVec 128) (s : State), barReady .host s ∧ (s.slice (pf p 0 8)).st = .stopping ∧ ((s.slice (pf p 0 8)).q ≠ [] ∨ (s.slice (pf p 0
        8)).kept ≠ [])) ∧
    (∃ (p : BitVec 128) (s : State), barReady .host s ∧ (s.slice (pf p 0 8)).st = .stopping ∧ (s.slice (pf p 0 8)).q = [] ∧ (s.slice (pf p 0
        8)).kept = []) ∧
    (∃ (i : BitVec 8) (s : State), (s.slice i.toNat).st = .stopping ∧ (s.slice i.toNat).kept = [] ∧ (s.slice i.toNat).drained = false ∧
        (s.slice i.toNat).stopAt.toNat + 2 ^ 16 * max 1 (s.rd Reg.GATE_CTRL_RSTTMO) ≤ s.gate.clk.toNat ∧ s.gate.bar.st = .up) ∧
    (∃ (w : Fin 2) (v : Nat) (l : List (Nat × Nat)) (x : Xfer) (s : State), (s.arbOf (21 + w.val)).holder = some x ∧ x.j = 16 ∧ x.beats ≤
        x.done + 1 ∧ (takeFirst (fun (e : Nat × Nat) => e.1 == w.val) s.gate.msix = some ((w.val, v), l)) ∧ (s.arbOf (21 + w.val)).aging =
        arbMustAge s (21 + w.val)) ∧
    (∃ (w : Fin 2) (i : Nat) (r : RingRec) (l : List RingRec) (x : Xfer) (rlx ns : Bool) (cache : Nat) (s : State), (s.arbOf (21 +
        w.val)).holder = some x ∧ x.j < 16 ∧ x.done + 2 ≤ x.beats ∧ (s.arbOf (21 + w.val)).aging = arbMustAge s (21 + w.val) ∧ tget false
        s.gate.half (16 * w.val + x.j) = false ∧ groupSlice s w.val x.j = some i ∧ (s.slice i).q = r :: l ∧ mpuCheck true w.val ((ringBase s
        i + 32 * (r.q.toNat % ringSize s i)) % 2 ^ 64) (!s.flag (Reg.SLC_KEY_PRIV i)) true s = .pass rlx ns cache) ∧
    (∃ (p : BitVec 128) (i : Nat) (s : State), barReady .host s ∧ intakeRoom s p = true ∧ eventSlice p = i ∧ (s.slice i).st = .open_ ∧
        (s.slice i).kept = [] ∧ tagOf s ((eventTag p).toNat % 2 ^ 14) = .none) :=
  ⟨⟨0, slc { st := .stopping, q := [rrec] }, by unfold barReady; decide +kernel⟩,
    ⟨0, slc { st := .stopping }, by unfold barReady; decide +kernel⟩,
    ⟨0, gup { slices := [(0, { st := .stopping })], clk := 0x1000000000 }, by decide +kernel⟩,
    ⟨0, 5, [], ⟨16, 1, 0, false, true, 0⟩, { gup { msix := [(0, 5)] } with arb := [(21, { holder := some ⟨16, 1, 0, false, true, 0⟩ })] }, by decide +kernel⟩,
    ⟨0, 0, rrec, [], ⟨0, 8, 0, false, true, 0⟩, false, false, 3, ringing, by decide +kernel⟩,
    ⟨0, 0, slc { st := .open_ }, by unfold barReady; decide +kernel⟩⟩

/-- The hypotheses of O41 are met together, clause by clause. -/
theorem meets_Meters :
    (∃ (m : Msg) (l : List Msg) (s : State) (c : _), edwRuns s = true ∧ s.edw.inbox = m :: l ∧ chanOf s m.source.toNat = some c) ∧
    (∃ (m : Msg) (l : List Msg) (s : State), edwRuns s = true ∧ s.edw.inbox = m :: l ∧ chanOf s m.source.toNat = none) ∧
    (∃ (c : Fin 64) (s : State), s.isDie0 = true ∧ s.bar.st = .up ∧ edwRuns s = true ∧ s.flag (Reg.EDW_CH_MIRROR c.val) = true ∧ (s.chan
        c.val).acked ≠ some (s.chan c.val).count ∧ (s.chan c.val).out = false ∧ (s.chan c.val).lastMeter = none) ∧
    (∃ (p : BitVec 128) (s : State), barReady .field s ∧ edwRuns s = true ∧ s.edw.asks = [] ∧ p.getLsbD 6 = false) ∧
    (∃ (s : State), barReady .field s ∧ edwRuns s = false) ∧
    (∃ (c : Fin 64) (b : Tick) (s : State), (s.chan c.val).lastMeter = some b ∧ (s.chan c.val).out = true ∧ b.toNat + rtmo s ≤ s.t) :=
  ⟨⟨ev, [], ((edw { inbox := [ev] }).wr (Reg.EDW_CH_EN 63) 1).wr (Reg.EDW_CH_SOURCE 63) 5, 63, by decide +kernel⟩,
    ⟨ev, [], edw { inbox := [ev] }, by decide +kernel⟩,
    ⟨63, { bup { st := .up } with edw := { chan := [(63, { count := 1, acked := some 0 })] } }.wr (Reg.EDW_CH_MIRROR 63) 1, by decide +kernel⟩,
    ⟨0, bup { st := .up }, by unfold barReady; decide +kernel⟩,
    ⟨{ bup { st := .up } with pwr := {} }, by unfold barReady; decide +kernel⟩,
    ⟨63, 0, edw { chan := [(63, { out := true, lastMeter := some 0 })] }, by decide +kernel⟩⟩

/-- The hypotheses of O42 are met together, clause by clause. -/
theorem meets_Seals :
    (∃ (s : State), edwRuns s = true ∧ s.edw.sealed_ = true ∧ s.edw.step = .idle ∧ capWithin s Config.sealGap = false ∧ s.rd
        Reg.EDW_GLB_SEALINT ≠ 0 ∧ capWithin s (max Config.sealGap (s.rd Reg.EDW_GLB_SEALINT)) = false) ∧
    (∃ (s : State), edwRuns s = true ∧ s.edw.sealed_ = true ∧ s.edw.step = .idle ∧ capWithin s Config.sealGap = false ∧ s.edw.held = true) ∧
    (∃ (s : State), edwRuns s = true ∧ s.edw.sealed_ = true ∧ s.edw.step = .idle ∧ capWithin s Config.sealGap = false ∧ barReady .field s ∧
        s.edw.asks = []) ∧
    (∃ (s : State), edwRuns s = true ∧ s.edw.sealed_ = true ∧ (capWithin s Config.sealGap = true ∨ s.edw.step ≠ .idle) ∧ barReady .field s ∧
        s.edw.asks = []) ∧
    (∃ (r : SealRec) (s : State), s.edw.step = .mac ∧ s.edw.rec_ = some r ∧ edwRuns s = true ∧ persisting s = false ∧ (tget [] s.edw.sectors
        s.edw.sector).length < 9) ∧
    (∃ (r : SealRec) (retry : Bool) (s : State), s.edw.step = .program retry ∧ s.edw.rec_ = some r ∧ macChecks s r = true ∧ s.edw.tdue =
        false ∧ s.isDie0 = true ∧ s.bar.st = .up ∧ edwRuns s = true) ∧
    (∃ (r : SealRec) (retry : Bool) (s : State), s.edw.step = .program retry ∧ s.edw.rec_ = some r ∧ macChecks s r = false ∧ retry = false) ∧
    (∃ (r : SealRec) (retry : Bool) (s : State), s.edw.step = .program retry ∧ s.edw.rec_ = some r ∧ macChecks s r = false ∧ retry = true ∧
        s.edw.tdue = false) ∧
    (∃ (s : State), barReady .field s ∧ edwRuns s = false) ∧
    (∃ (s : State) (i : _), clocked s = true ∧ edwRuns s = true ∧ s.edw.scan = true ∧ s.su.phase ≠ 3 ∧ ((s.edw.sectors.any fun e => e.2.any
        (·.isNone)) = false) ∧ newestSeal s = none ∧ i < 65) ∧
    (∃ (s : State), clocked s = true ∧ edwRuns s = true ∧ s.edw.scan = true ∧ s.su.phase ≠ 3 ∧ ((s.edw.sectors.any fun e => e.2.any
        (·.isNone)) = false) ∧ newestSeal s = none ∧ macFails s = true) ∧
    (∃ (s : State) (r : _), clocked s = true ∧ edwRuns s = true ∧ s.edw.scan = true ∧ s.su.phase ≠ 3 ∧ ((s.edw.sectors.any fun e => e.2.any
        (·.isNone)) = false) ∧ newestSeal s = some r) ∧
    (∃ (s : State), barReady .host s ∧ hostEdwOn s = false) ∧
    (∃ (p : BitVec 128) (s : State), barReady .host s ∧ hostEdwOn s = true ∧ s.flag Reg.HEDW_CFG_SEALCHK = true ∧ s.gate.sealSeen = true ∧ pf
        p 0 64 ≤ s.rd Reg.HSEAL_LO + 2 ^ 32 * s.rd Reg.HSEAL_HI) :=
  ⟨⟨(edw { sealed_ := true }).wr Reg.EDW_GLB_SEALINT 1, by decide +kernel⟩,
    ⟨edw { sealed_ := true, held := true }, by decide +kernel⟩,
    ⟨{ bup { st := .up } with edw := { sealed_ := true } }, by unfold barReady; decide +kernel⟩,
    ⟨{ bup { st := .up } with edw := { sealed_ := true, step := .mac } }, by unfold barReady; decide +kernel⟩,
    ⟨rec0, edw { step := .mac, rec_ := some rec0, sectors := [(0, List.replicate 8 none)] }, by decide +kernel⟩,
    ⟨sealed0, false, { bup { st := .up } with edw := { step := .program false, rec_ := some sealed0 } }, by decide +kernel⟩,
    ⟨rec0, false, edw { step := .program false, rec_ := some rec0 }, by decide +kernel⟩,
    ⟨rec0, true, edw { step := .program true, rec_ := some rec0 }, by decide +kernel⟩,
    ⟨{ bup { st := .up } with pwr := {} }, by unfold barReady; decide +kernel⟩,
    ⟨edw { scan := true }, 64, by decide +kernel⟩,
    ⟨edw { scan := true, sectors := [(0, [some rec0])] }, by decide +kernel⟩,
    ⟨edw { scan := true, sectors := [(0, [some sealed0])] }, sealed0, by decide +kernel⟩,
    ⟨gup {}, by unfold barReady; decide +kernel⟩,
    ⟨0, (gup { pwrE := 2, sealSeen := true }).wr Reg.HEDW_CFG_SEALCHK 1, by unfold barReady; decide +kernel⟩⟩

/-- The hypotheses of O43 are met together, clause by clause. -/
theorem meets_PowerDomains :
    (∃ (s : State), s.gate.pwrReq = true ∧ (s.gate.pwrE = 0 ∨ s.gate.pwrE = 3)) ∧
    (∃ (q : WakeReq) (s : State), clocked s = true ∧ firstWake s = some q ∧ q.d ≠ 22 ∧ wakeFits s q = true) ∧
    (∃ (d : Fin 24) (s : State), d.val ≠ 22 ∧ s.dom d = 1) ∧
    (∃ (s : State), s.gate.pwrE = 1 ∧ s.gate.pwrGood = true) ∧
    (∃ (s : State), s.gate.pwrE = 1 ∧ s.gate.pwrGood = false ∧ s.gate.pwrSince.toNat + 800 ≤ s.gate.clk.toNat) ∧
    (∃ (d : Fin 24) (s : State), s.dom d = 1 ∧ tget false s.pwr.good d = true ∧ 32 + d.val ∉ s.pwr.resets ∧ (firnAll s (fun r => r.kind ==
        .custody) = []) ∧ d.val = 23 ∧ s.edw.asks = []) ∧
    (∃ (d : Fin 24) (s : State) (r : _), r < 4 ∧ s.dom d = 1 ∧ tget false s.pwr.good d = true ∧ 32 + d.val ∉ s.pwr.resets ∧ (firnAll s (fun r
        => r.kind == .custody) = []) ∧ d.val = 16 + r) ∧
    (∃ (d : Fin 24) (s : State), s.dom d = 1 ∧ tget false s.pwr.good d = false ∧ (tget 0 s.pwr.since d).toNat + 4 * rampLimit d ≤ s.t ∧
        s.su.phase ≠ 3) ∧
    (∃ (s : State), s.gate.pwrE = 2) ∧
    (∃ (d : Fin 24) (s : State), d.val ≠ 22 ∧ s.dom d ≠ 2) ∧
    (∃ (d : Fin 24) (s : State), d.val ≠ 22 ∧ s.dom d = 2 ∧ (firnAll s (fun r => r.kind == .custody) = []) ∧ d.val < 16) ∧
    (∃ (d : Fin 24) (s : State) (p : _), p < 4 ∧ d.val ≠ 22 ∧ s.dom d = 2 ∧ (firnAll s (fun r => r.kind == .custody) = []) ∧ lnkDom p = d.val) ∧
    (∃ (d : Fin 24) (s : State), d.val ≠ 22 ∧ s.dom d = 2 ∧ (firnAll s (fun r => r.kind == .custody) = []) ∧ d.val = 23 ∧ (∀ r, s.edw.step ≠
        .program r)) :=
  ⟨⟨gup { pwrReq := true, pwrE := 3 }, by decide +kernel⟩,
    ⟨⟨5, 1, 0, true⟩, { domAt 5 0 with pwr := { (domAt 5 0).pwr with reqs := [⟨5, 1, 0, true⟩] } }, by decide +kernel⟩,
    ⟨23, domAt 23 1, by decide +kernel⟩,
    ⟨gup { pwrE := 1, pwrGood := true }, by decide +kernel⟩,
    ⟨gup { pwrE := 1, clk := 800 }, by decide +kernel⟩,
    ⟨23, { domAt 23 1 with pwr := { (domAt 23 1).pwr with good := [(23, true)] } }, by decide +kernel⟩,
    ⟨19, { domAt 19 1 with pwr := { (domAt 19 1).pwr with good := [(19, true)] } }, 3, by decide +kernel⟩,
    ⟨23, domAt 23 1, by decide +kernel⟩,
    ⟨gup { pwrE := 2 }, by decide +kernel⟩,
    ⟨21, domAt 21 3, by decide +kernel⟩,
    ⟨15, base, by decide +kernel⟩,
    ⟨21, base, 2, by decide +kernel⟩,
    ⟨23, edw { step := .mac }, by decide +kernel⟩⟩

/-- The hypotheses of O44 are met together, clause by clause. -/
theorem meets_ClusterAndRegionResets :
    (∃ (k : Fin 16) (s : State), clocked s = true ∧ s.dom k.val = 2 ∧ (firnAll s (fun r => r.kind == .custody) = [])) ∧
    (∃ (k : Fin 16) (s : State), clocked s = true ∧ s.dom k.val = 1) ∧
    (∃ (k : Fin 16) (s : State), clocked s = true ∧ s.dom k.val ≠ 1 ∧ s.dom k.val ≠ 2) ∧
    (∃ (r : Fin 4) (s : State), clocked s = true ∧ s.dom (16 + r.val) = 2 ∧ (firnAll s (fun c => c.kind == .custody) = [])) ∧
    (∃ (r : Fin 4) (s : State), clocked s = true ∧ s.dom (16 + r.val) = 1) ∧
    (∃ (r : Fin 4) (s : State), clocked s = true ∧ s.dom (16 + r.val) ≠ 1 ∧ s.dom (16 + r.val) ≠ 2) :=
  ⟨⟨15, base, by decide +kernel⟩,
    ⟨15, domAt 15 1, by decide +kernel⟩,
    ⟨15, domAt 15 3, by decide +kernel⟩,
    ⟨3, base, by decide +kernel⟩,
    ⟨3, domAt 19 1, by decide +kernel⟩,
    ⟨3, domAt 19 0, by decide +kernel⟩⟩

/-- The hypotheses of O45 are met together, clause by clause. -/
theorem meets_Resets :
    (∃ (s : State), clocked s = true) ∧
    (∃ (s : State), (s.su.phase = 0 ∨ s.pins.rdpErase = true)) ∧
    (∃ (s : State), s.su.phase ≠ 0 ∧ s.pins.rdpErase = false) ∧
    (∃ (c : Instr) (k : Nat) (s : State), (c = .powerOn ∧ k = 0 ∨ c = .rstPackage ∧ k = 1 ∨ c = .rstSystem ∧ k = 2) ∧ (c = .rstPackage →
        sysHeld s = false) ∧ (∀ r, s.edw.step ≠ .program r)) ∧
    (∃ (s : State), sysHeld s = true) ∧
    (∃ (s : State), s.su.hold = true) :=
  ⟨⟨base, by decide +kernel⟩,
    ⟨State.reset, by decide +kernel⟩,
    ⟨base, by decide +kernel⟩,
    ⟨.rstSystem, 2, edw { step := .mac }, by decide +kernel⟩,
    ⟨suAt { hold := true, phase := 0 } |>.wr Reg.SU_STAT_START 2, by decide +kernel⟩,
    ⟨suAt { hold := true }, by decide +kernel⟩⟩

/-- The hypotheses of O46 are met together, clause by clause. -/
theorem meets_StartUp :
    (∃ (s : State), s.su.phase = 0 ∧ s.su.hold = false ∧ s.pins.idDie ≠ 3) ∧
    (∃ (s : State), s.su.phase = 0 ∧ s.su.hold = false ∧ s.pins.idDie = 3) ∧
    (∃ (s : State), s.su.phase = 1 ∧ s.su.hold = false ∧ s.su.cold = true ∧ s.su.bist = false ∧ s.dom 23 = 0) ∧
    (∃ (s : State), s.su.phase = 1 ∧ s.su.hold = false ∧ s.su.cold = false ∧ s.su.bist = false ∧ s.rd Reg.SU_STAT_START ≠ 5) ∧
    (∃ (s : State), s.su.phase = 1 ∧ s.su.hold = false ∧ s.su.bist = true) ∧
    (∃ (s : State), clocked s = true ∧ s.su.phase = 3 ∧ s.img.load.st = .ready ∧ s.img.load.s0 = true ∧ edwDone s = true ∧ (∀ d < 20, s.dom d
        = 2 ∨ s.dom d = 3)) ∧
    (∃ (s : State), clocked s = true ∧ s.su.phase = 4 ∧ (∀ p < 4, s.flag (Reg.LNK_CTRL_EN p) = true → portUp s p = true) ∧ (s.isMaster = true
        ∨ s.time.exchanged = true)) ∧
    (∃ (s : State), clocked s = true ∧ s.su.phase = 4 ∧ s.su.linkFrom.toNat + 16000000 ≤ s.t ∧ (∃ p < 4, s.flag (Reg.LNK_CTRL_EN p) = true ∧
        portUp s p = false) ∧ (s.isMaster = true ∨ s.time.exchanged = true)) :=
  ⟨⟨{ State.reset with pins := { idDie := 2 } }, by decide +kernel⟩,
    ⟨{ State.reset with pins := { idDie := 3 } }, by decide +kernel⟩,
    ⟨{ State.reset with su := { phase := 1 } }, by decide +kernel⟩,
    ⟨suAt { phase := 1, cold := false }, by decide +kernel⟩,
    ⟨{ State.reset with su := { phase := 1, bist := true } }, by decide +kernel⟩,
    ⟨{ suAt { phase := 3 } with img := { load := { st := .ready, s0 := true } } }, by decide +kernel⟩,
    ⟨{ linked with su := { phase := 4 } }.wr (Reg.LNK_CTRL_EN 0) 1, by decide +kernel⟩,
    ⟨{ suAt { phase := 4 } with time := { now := 16000000 } }.wr (Reg.LNK_CTRL_EN 3) 1, by decide +kernel⟩⟩

/-- The hypotheses of O47 are met together, clause by clause. -/
theorem meets_RegisterReads :
    (∃ (a : Access) (addr : BitVec 20) (s : State), a.inBlock addr.toNat = true ∧ portOpen s a = false) ∧
    (∃ (a : Access) (addr : BitVec 20) (s : State) (c : _), a.inBlock addr.toNat = true ∧ portOpen s a = true ∧ readCause s a addr.toNat =
        some c ∧ a.host = false) ∧
    (∃ (a : Access) (addr : BitVec 20) (ecc : Ecc) (s : State) (p : Spot), a.inBlock addr.toNat = true ∧ reaches s a addr.toNat ∧ locate s
        a.via addr.toNat = some p ∧ p.view = .active ∧ a.debug = true ∧ (p.row.id = .BANK ∨ p.row.id = .TRACE_DATA → ecc ≠ .uncorrectable)) ∧
    (∃ (a : Access) (addr : BitVec 20) (s : State) (p : Spot) (f : _), f ∈ p.row.flds ∧ a.inBlock addr.toNat = true ∧ reaches s a addr.toNat
        ∧ locate s a.via addr.toNat = some p ∧ p.view = .active ∧ a.debug = false ∧ p.row.id ∉ readActs ∧ islandOn s p = true ∧ f.acc = .rc) ∧
    (∃ (a : Access) (addr : BitVec 20) (s : State) (p : Spot) (g : Fld), a.inBlock addr.toNat = true ∧ reaches s a addr.toNat ∧ locate s
        a.via addr.toNat = some p ∧ p.view = .active ∧ a.debug = false ∧ p.row.id ∉ readActs ∧ (∀ f ∈ p.row.flds, f.acc = .rc → g.key ≠
        (f.at p.off).key)) :=
  ⟨⟨port1, 0x14, suAt { hold := true }, by decide +kernel⟩,
    ⟨⟨.port, 1, false, 1, false⟩, 0x14, base, 0, by decide +kernel⟩,
    ⟨dbg1, 0x14, .clean, base, spotAt base dbg1 0x14, by unfold reaches; decide +kernel⟩,
    ⟨port1, 0x14, base, spotAt base port1 0x14, ⟨0, 16, .rc, 0⟩, by unfold reaches; decide +kernel⟩,
    ⟨port1, 0x14, base, spotAt base port1 0x14, Reg.LOCKVIOL_MID, by unfold reaches; decide +kernel⟩⟩

/-- The hypotheses of O48 are met together, clause by clause. -/
theorem meets_LatchingReads :
    (∃ (a : Access) (n : Fin 64) (s : State), a.atPort = true ∧ reaches s a (coreBlock n) ∧ s.on (n / 4) = true) ∧
    (∃ (a : Access) (s : State), reaches s a 0x1000 ∧ a.via = .port ∧ a.dbg = false) ∧
    (∃ (a : Access) (s : State), reaches s a 0x1000 ∧ a.via = .bar0) ∧
    (∃ (a : Access) (i : Fin 16) (s : State), a.atPort = true ∧ reaches s a (0x1040 + 8 * i) ∧ a.dbg = false) ∧
    (∃ (a : Access) (c : Fin 64) (s : State), a.atPort = true ∧ reaches s a (0x21200 + 16 * c) ∧ s.on 23 = true ∧ a.dbg = false) ∧
    (∃ (a : Access) (i : BitVec 8) (w : Fin 17) (s : State), a.atBar0 = true ∧ reaches s a (0x22000 + 0x80 * i.toNat + 4 * w)) ∧
    (∃ (a : Access) (s : State), a.atPort = true ∧ reaches s a 0x20044 ∧ (a.dbg = true ∨ s.trc.ring = [] ∨ overwriting s = true)) ∧
    (∃ (a : Access) (s : State), a.atPort = true ∧ reaches s a 0x20044 ∧ a.dbg = false ∧ s.trc.ring ≠ [] ∧ overwriting s = false ∧
        s.trc.ptr.toNat % 4 ≠ 3) ∧
    (∃ (a : Access) (s : State), a.atPort = true ∧ reaches s a 0x20044 ∧ a.dbg = false ∧ s.trc.ring ≠ [] ∧ overwriting s = false ∧
        s.trc.ptr.toNat % 4 = 3) ∧
    (∃ (a : Access) (i : Fin 64) (s : State), a.atPort = true ∧ reaches s a (0xF000 + 4 * i) ∧ ((s.lockOf i).held = true ∨ a.dbg = true ∨
        (lockHeldBy s a.mid).isSome = true)) ∧
    (∃ (a : Access) (i : Fin 64) (s : State), a.atPort = true ∧ reaches s a (0xF000 + 4 * i) ∧ (s.lockOf i).held = false ∧ a.dbg = false ∧
        lockHeldBy s a.mid = none) :=
  ⟨⟨port1, 63, base, by unfold reaches; decide +kernel⟩,
    ⟨port1, base, by unfold reaches; decide +kernel⟩,
    ⟨mgr, base, by unfold reaches; decide +kernel⟩,
    ⟨port1, 15, base, by unfold reaches; decide +kernel⟩,
    ⟨port1, 63, base, by unfold reaches; decide +kernel⟩,
    ⟨mgr, 255, 16, base, by unfold reaches; decide +kernel⟩,
    ⟨port1, base, by unfold reaches; decide +kernel⟩,
    ⟨port1, { base with trc := { ring := [⟨1, 2, 3, 4⟩], ptr := 2 } }, by unfold reaches; decide +kernel⟩,
    ⟨port1, { base with trc := { ring := [⟨1, 2, 3, 4⟩], ptr := 3 } }, by unfold reaches; decide +kernel⟩,
    ⟨port1, 63, locked1, by unfold reaches; decide +kernel⟩,
    ⟨port1, 63, base, by unfold reaches; decide +kernel⟩⟩

/-- The hypotheses of O49 are met together, clause by clause. -/
theorem meets_RegisterWrites :
    (∃ (a : Access) (addr : BitVec 20) (s : State), a.inBlock addr.toNat = true ∧ portOpen s a = false) ∧
    (∃ (a : Access) (addr : BitVec 20) (s : State) (c : _), a.inBlock addr.toNat = true ∧ portOpen s a = true ∧ edwDebug a addr.toNat = false
        ∧ writeCause s a addr.toNat = some c ∧ a.host = false) ∧
    (∃ (a : Access) (addr : BitVec 20) (s : State) (p : Spot) (f : _), f ∈ p.row.flds ∧ a.inBlock addr.toNat = true ∧ lands s a addr.toNat ∧
        locate s a.via addr.toNat = some p ∧ p.view = .active ∧ p.row.id ∉ writeActs ∧ p.row.has .ws = false ∧ p.row.has .w1 = false ∧ f.acc
        = .rw) ∧
    (∃ (a : Access) (addr : BitVec 20) (s : State) (p : Spot) (g : Fld), a.inBlock addr.toNat = true ∧ lands s a addr.toNat ∧ locate s a.via
        addr.toNat = some p ∧ p.view = .active ∧ p.row.id ∉ writeActs ∧ p.row.has .ws = false ∧ p.row.has .w1 = false ∧ (∀ f ∈ p.row.flds,
        f.acc = .rw → g.key ≠ (f.at p.off).key)) ∧
    (∃ (a : Access) (s : State), a.atPort = true ∧ lands s a 8 ∧ tget false s.once 8 = false) ∧
    (∃ (a : Access) (s : State), a.atPort = true ∧ lands s a 8 ∧ tget false s.once 8 = true) ∧
    (∃ (a : Access) (off : BitVec 16) (s : State) (p : Spot) (f : _), f ∈ p.row.flds ∧ a.atWindow = true ∧ lands s a (0x30000 + off.toNat) ∧
        locate s a.via (0x30000 + off.toNat) = some p ∧ lockOwned s a = none ∧ imageHolds s a p.off = false ∧ f.acc = .ws) ∧
    (∃ (a : Access) (off : BitVec 16) (s : State) (p : Spot) (g : Fld), a.atWindow = true ∧ lands s a (0x30000 + off.toNat) ∧ locate s a.via
        (0x30000 + off.toNat) = some p ∧ lockOwned s a = none ∧ imageHolds s a p.off = false ∧ (∀ f ∈ p.row.flds, f.acc = .ws → g.key ≠
        (f.at p.off).key)) ∧
    (∃ (a : Access) (off : BitVec 16) (s : State) (p : Spot), a.atWindow = true ∧ lands s a (0x30000 + off.toNat) ∧ locate s a.via (0x30000 +
        off.toNat) = some p ∧ lockOwned s a = none ∧ imageHolds s a p.off = true) ∧
    (∃ (a : Access) (off : BitVec 16) (s : State) (p : Spot) (i : _), a.atWindow = true ∧ lands s a (0x30000 + off.toNat) ∧ locate s a.via
        (0x30000 + off.toNat) = some p ∧ lockOwned s a = some i ∧ (s.lockOf i).set.length < 16) ∧
    (∃ (a : Access) (off : BitVec 14) (k : Fin 32) (s : State) (p : Spot), a.atWindow = true ∧ off.toNat % 4 = 0 ∧ lands s a (0x40000 + 32 *
        off.toNat + 4 * k) ∧ locate s a.via (0x40000 + 32 * off.toNat + 4 * k) = some p ∧ p.view = .alias_ k ∧ p.row.id ≠ .COMPLETE ∧
        p.row.fieldAt k = none) ∧
    (∃ (a : Access) (off : BitVec 14) (k : Fin 32) (s : State) (p : Spot) (f : _), a.atWindow = true ∧ off.toNat % 4 = 0 ∧ lands s a (0x40000
        + 32 * off.toNat + 4 * k) ∧ locate s a.via (0x40000 + 32 * off.toNat + 4 * k) = some p ∧ p.view = .alias_ k ∧ p.row.id ≠ .COMPLETE ∧
        p.row.fieldAt k = some f ∧ f.acc = .rc) ∧
    (∃ (a : Access) (off : BitVec 14) (k : Fin 32) (s : State) (p : Spot) (f g : _), g ∈ p.row.flds ∧ a.atWindow = true ∧ off.toNat % 4 = 0 ∧
        lands s a (0x40000 + 32 * off.toNat + 4 * k) ∧ locate s a.via (0x40000 + 32 * off.toNat + 4 * k) = some p ∧ p.view = .alias_ k ∧
        p.row.fieldAt k = some f ∧ f.acc = .rw ∧ p.row.id ∉ writeActs ∧ p.row.has .ws = false ∧ p.row.has .w1 = false ∧ g.acc = .rw) ∧
    (∃ (a : Access) (off : BitVec 14) (k : Fin 32) (s : State) (p : Spot) (j : _), a.atWindow = true ∧ off.toNat % 4 = 0 ∧ lands s a (0x40000
        + 32 * off.toNat + 4 * k) ∧ locate s a.via (0x40000 + 32 * off.toNat + 4 * k) = some p ∧ p.view = .alias_ k ∧ j ≠ k.val) :=
  ⟨⟨port1, 8, suAt { hold := true }, by decide +kernel⟩,
    ⟨⟨.port, 1, false, 7, false⟩, 8, base, 0, by decide +kernel⟩,
    ⟨port1, 0x102C, base, spotAt base port1 0x102C, ⟨16, 16, .rw, 0⟩, by unfold lands; decide +kernel⟩,
    ⟨port1, 0x102C, base, spotAt base port1 0x102C, Reg.LOCKVIOL_MID, by unfold lands; decide +kernel⟩,
    ⟨port1, base, by unfold lands; decide +kernel⟩,
    ⟨port1, { base with once := [(8, true)] }, by unfold lands; decide +kernel⟩,
    ⟨port1, 0x100, base, spotAt base port1 0x30100, ⟨8, 8, .ws, 0x40⟩, by unfold lands; decide +kernel⟩,
    ⟨port1, 0x100, base, spotAt base port1 0x30100, Reg.LOCKVIOL_MID, by unfold lands; decide +kernel⟩,
    ⟨port1, 0x100, loadSt { held := [(0, 0x40, 1)] }, spotAt base port1 0x30100, by unfold lands; decide +kernel⟩,
    ⟨port1, 0x100, locked1, spotAt base port1 0x30100, 0, by unfold lands; decide +kernel⟩,
    ⟨port1, 0x100, 31, base, spotAt base port1 0x4207C, by unfold lands; decide +kernel⟩,
    ⟨port1, 0x14, 15, base, spotAt base port1 0x402BC, ⟨0, 16, .rc, 0⟩, by unfold lands; decide +kernel⟩,
    ⟨port1, 0x102C, 31, base, spotAt base port1 0x605FC, ⟨16, 16, .rw, 0⟩, ⟨0, 16, .rw, 0⟩, by unfold lands; decide +kernel⟩,
    ⟨port1, 0x102C, 31, base, spotAt base port1 0x605FC, 30, by unfold lands; decide +kernel⟩⟩

/-- The hypotheses of O50 are met together, clause by clause. -/
theorem meets_CoreWrites :
    (∃ (a : Access) (n : Fin 64) (s : State) (g : Fld), a.atCore n = true ∧ lands s a (coreBlock n + 8) ∧ g.key ≠ (Reg.THRESH_LEVEL n).key) ∧
    (∃ (a : Access) (n : Fin 64) (s : State), a.atCore n = true ∧ lands s a (coreBlock n + 0x20)) ∧
    (∃ (a : Access) (n : Fin 64) (i : Fin 2) (w : Word) (s : State), a.atCore n = true ∧ lands s a (coreBlock n + (0x24 + 12 * i)) ∧
        predEnabled s n i = false ∧ s.flag (Reg.PREWARM_EN n) = true ∧ bits w.toNat 18 1 = 1) ∧
    (∃ (a : Access) (n : Fin 64) (i : Fin 2) (s : State), a.atCore n = true ∧ lands s a (coreBlock n + (0x28 + 12 * i)) ∧ predEnabled s n i =
        true) ∧
    (∃ (a : Access) (n : Fin 64) (i : Fin 2) (s : State), a.atCore n = true ∧ lands s a (coreBlock n + 0x2C + 12 * i) ∧ predEnabled s n i =
        true ∧ predPinned s n i = false ∧ (s.predOf n i).st = .locked) ∧
    (∃ (a : Access) (r : Fin 4) (loc : BitVec 4) (s : State), a.atPort = true ∧ lands s a (0x804 + 16 * r) ∧ (s.campOf (16 * r +
        loc.toNat)).failed = none ∧ s.time.sleep = .awake) ∧
    (∃ (a : Access) (r : Fin 4) (loc : BitVec 4) (s : State), a.atPort = true ∧ lands s a (0x804 + 16 * r) ∧ (s.campOf (16 * r +
        loc.toNat)).failed.isSome = true) ∧
    (∃ (a : Access) (s : State), a.atPort = true ∧ lands s a 0x1008 ∧ s.su.open_ = false) ∧
    (∃ (a : Access) (s : State), a.atPort = true ∧ lands s a 0x1008 ∧ thawDue s = true) ∧
    (∃ (a : Access) (w : Word) (s : State), a.atPort = true ∧ lands s a 0x1008 ∧ s.su.open_ = true ∧ thawDue s = false ∧ s.epoch.short = none
        ∧ periodInForce (s.wr Reg.EPOCH_PERIOD_PERIOD (bits w.toNat 0 24)) ≤ epochCount s + 2 ∧ s.time.sleep = .awake) ∧
    (∃ (a : Access) (s : State), a.atPort = true ∧ lands s a 0x1008 ∧ thawDue s = false ∧ s.epoch.short.isSome = true) :=
  ⟨⟨cif0, 0, base, Reg.LOCKVIOL_MID, by unfold lands; decide +kernel⟩,
    ⟨port1, 63, base, by unfold lands; decide +kernel⟩,
    ⟨port1, 63, 1, 0x40000, base.wr (Reg.PREWARM_EN 63) 1, by unfold lands; decide +kernel⟩,
    ⟨cif0, 0, 0, predicting, by unfold lands; decide +kernel⟩,
    ⟨cif0, 0, 0, predicting, by unfold lands; decide +kernel⟩,
    ⟨port1, 3, 15, base, by unfold lands; decide +kernel⟩,
    ⟨port1, 3, 15, { base with camp := [(63, { failed := some 1 })] }, by unfold lands; decide +kernel⟩,
    ⟨port1, suAt { phase := 5 }, by unfold lands; decide +kernel⟩,
    ⟨port1, { base with epoch := {} }, by unfold lands; decide +kernel⟩,
    ⟨port1, 1, base, by unfold lands; decide +kernel⟩,
    ⟨port1, { base with epoch := { base.epoch with short := some 1000004 } }, by unfold lands; decide +kernel⟩⟩

/-- The hypotheses of O51 are met together, clause by clause. -/
theorem meets_LockWrites :
    (∃ (a : Access) (i : Fin 64) (s : State), a.atPort = true ∧ lands s a (0xF000 + 4 * i) ∧ (s.lockOf i).held = true ∧ (s.lockOf i).owner =
        a.mid ∧ (s.lockOf i).set = []) ∧
    (∃ (a : Access) (i : Fin 64) (s : State) (off w p f : _), f ∈ p.1.flds ∧ a.atPort = true ∧ lands s a (0xF000 + 4 * i) ∧ (s.lockOf i).held
        = true ∧ (s.lockOf i).owner = a.mid ∧ (s.lockOf i).set = [(off, w)] ∧ (s.lockOf i).ovf = false ∧ holds .field s 0 (off / 4) = false
        ∧ findReg off = some p ∧ f.acc = .ws) ∧
    (∃ (a : Access) (i : Fin 64) (s : State), a.atPort = true ∧ lands s a (0xF000 + 4 * i) ∧ ((s.lockOf i).held = false ∨ (s.lockOf i).owner
        ≠ a.mid)) ∧
    (∃ (a : Access) (i : Fin 64) (s : State), a.atPort = true ∧ lands s a (0xF000 + 4 * i) ∧ a.dbg = false) ∧
    (∃ (a : Access) (i : Fin 64) (s : State), a.atPort = true ∧ lands s a (0xF000 + 4 * i) ∧ a.dbg = true ∧ (s.lockOf i).held = true ∧
        s.time.sleep = .awake) :=
  ⟨⟨port1, 0, locked1, by unfold lands; decide +kernel⟩,
    ⟨port1, 0, { base with lock := [(0, { owner := 1, held := true, set := [(0x100, 3)] })] }, 0x100, 3, regAt 0x100, ⟨8, 8, .ws, 0x40⟩, by unfold lands; decide +kernel⟩,
    ⟨port1, 63, locked1, by unfold lands; decide +kernel⟩,
    ⟨port1, 0, locked1, by unfold lands; decide +kernel⟩,
    ⟨dbg1, 0, locked1, by unfold lands; decide +kernel⟩⟩

/-- The hypotheses of O52 are met together, clause by clause. -/
theorem meets_LinkWrites :
    (∃ (a : Access) (p : Fin 4) (s : State), a.atPort = true ∧ lands s a (0xE000 + 0x100 * p) ∧ bit (presentRW s (0xE000 + 0x100 * p)) 2 =
        false ∧ (s.port p).st = .off ∧ s.on (lnkDom p) = true ∧ idleOver s p = true ∧ s.pins.bscMode = false ∧ testing s p = false) ∧
    (∃ (a : Access) (p : Fin 4) (s : State), a.atPort = true ∧ lands s a (0xE000 + 0x100 * p) ∧ bit (presentRW s (0xE000 + 0x100 * p)) 0 =
        true ∧ (s.port p).st = .up) ∧
    (∃ (a : Access) (p : Fin 4) (s : State), a.atPort = true ∧ lands s a (0xE000 + 0x100 * p) ∧ bit (presentRW s (0xE000 + 0x100 * p)) 0 =
        true ∧ (s.port p).st ≠ .up) :=
  ⟨⟨port1, 3, base, by unfold lands; decide +kernel⟩,
    ⟨port1, 0, (withPort { st := .up }).wr (Reg.LNK_CTRL_EN 0) 1, by unfold lands; decide +kernel⟩,
    ⟨port1, 0, (withPort { st := .lock }).wr (Reg.LNK_CTRL_EN 0) 1, by unfold lands; decide +kernel⟩⟩

/-- The hypotheses of O53 are met together, clause by clause. -/
theorem meets_LoaderWrites :
    (∃ (a : Access) (d : Side) (s : State), a.via = sideVia d ∧ lands s a 0x20000 ∧ canStartLoad d s = false) ∧
    (∃ (a : Access) (d : Side) (persist : Bool) (s : State), a.via = sideVia d ∧ lands s a 0x20000 ∧ canStartLoad d s = true ∧ (d = .host ∨
        persist = false)) ∧
    (∃ (a : Access) (d : Side) (persist : Bool) (s : State), a.via = sideVia d ∧ lands s a 0x20000 ∧ canStartLoad d s = true ∧ d = .field ∧
        persist = true ∧ gapHolds s = false) ∧
    (∃ (a : Access) (d : Side) (persist : Bool) (s : State), a.via = sideVia d ∧ lands s a 0x20000 ∧ canStartLoad d s = true ∧ d = .field ∧
        persist = true ∧ gapHolds s = true) ∧
    (∃ (a : Access) (d : Side) (s : State), a.via = sideVia d ∧ lands s a 0x20000 ∧ bits (presentRW s (if a.host then 0x120000 else 0x20000))
        0 2 = 0 ∧ canAbort d s = false) ∧
    (∃ (a : Access) (d : Side) (s : State), a.via = sideVia d ∧ lands s a 0x20000 ∧ bits (presentRW s (if a.host then 0x120000 else 0x20000))
        0 2 = 0 ∧ canAbort d s = true) ∧
    (∃ (a : Access) (d : Side) (s : State), a.via = sideVia d ∧ lands s a 0x20004 ∧ canTake d s = false) ∧
    (∃ (a : Access) (d : Side) (s : State), a.via = sideVia d ∧ lands s a 0x20004 ∧ canTake d s = true ∧ 64 ≤ (loadOf d s).fifo.length) ∧
    (∃ (a : Access) (d : Side) (s : State), a.via = sideVia d ∧ lands s a 0x20004 ∧ canTake d s = true ∧ (loadOf d s).fifo.length < 64 ∧
        ((loadOf d s).st = .erase ∨ (loadOf d s).busy = true) ∧ (loadOf d s).st ≠ .header ∧ (loadOf d s).wait = none) ∧
    (∃ (a : Access) (d : Side) (s : State) (x : _), a.via = sideVia d ∧ (loadOf d s).wait = some x ∧ (loadClk d s - x.2.2).toNat < 131072) ∧
    (∃ (a : Access) (d : Side) (s : State) (b v x : _), a.via = sideVia d ∧ (loadOf d s).wait = some (b, v, x) ∧ 131072 ≤ (loadClk d s -
        x).toNat) ∧
    (∃ (a : Access) (r : Fin 4) (s : State), a.atPort = true ∧ lands s a 0x20020 ∧ s.img.dtPhase = 0 ∧ s.img.load.st = .ready ∧
        s.img.load.parts.contains (0x10 + r.val) = true) ∧
    (∃ (a : Access) (r : Fin 4) (s : State), a.atPort = true ∧ lands s a 0x20020 ∧ (s.img.dtPhase ≠ 0 ∨ s.img.load.st ≠ .ready ∨
        s.img.load.parts.contains (0x10 + r.val) = false)) :=
  ⟨⟨port1, .field, loadSt { st := .ready }, by unfold lands; decide +kernel⟩,
    ⟨mgr, .host, true, base, by unfold lands; decide +kernel⟩,
    ⟨port1, .field, true, base, by unfold lands; decide +kernel⟩,
    ⟨port1, .field, true, (base.wr Reg.LOAD_LASTP_HI_VALID 1).wr Reg.LOAD_GAP_GAP 1, by unfold lands; decide +kernel⟩,
    ⟨port1, .field, base, by unfold lands; decide +kernel⟩,
    ⟨port1, .field, loadSt { st := .ready }, by unfold lands; decide +kernel⟩,
    ⟨port1, .field, base, by unfold lands; decide +kernel⟩,
    ⟨port1, .field, loadSt { st := .erase, fifo := List.replicate 64 0 }, by unfold lands; decide +kernel⟩,
    ⟨port1, .field, loadSt { st := .erase }, by unfold lands; decide +kernel⟩,
    ⟨port1, .field, loadSt { st := .erase, wait := some (port1, 9, 1000000) }, (port1, 9, 1000000), by decide +kernel⟩,
    ⟨port1, .field, loadSt { st := .erase, wait := some (port1, 9, 0) }, port1, 9, 0, by decide +kernel⟩,
    ⟨port1, 3, loadSt { st := .ready, parts := [0x13] }, by unfold lands; decide +kernel⟩,
    ⟨port1, 3, loadSt { st := .ready, parts := [0x12] }, by unfold lands; decide +kernel⟩⟩

/-- The hypotheses of O54 are met together, clause by clause. -/
theorem meets_PowerWrites :
    (∃ (a : Access) (d : BitVec 5) (s : State), a.atPort = true ∧ lands s a 0xF560 ∧ (23 < d.toNat ∨ (s.dom d.toNat ≠ 0 ∧ s.dom d.toNat ≠ 3))) ∧
    (∃ (a : Access) (d : BitVec 5) (s : State), a.atPort = true ∧ lands s a 0xF560 ∧ 23 < d.toNat) ∧
    (∃ (a : Access) (d : BitVec 5) (s : State), a.atPort = true ∧ lands s a 0xF560 ∧ d.toNat = 22) ∧
    (∃ (a : Access) (d : BitVec 5) (s : State), a.atPort = true ∧ lands s a 0xF560 ∧ d.toNat ≤ 23 ∧ d.toNat ≠ 22 ∧ (s.dom d.toNat = 0 ∨ s.dom
        d.toNat = 3)) ∧
    (∃ (a : Access) (d : BitVec 5) (s : State), a.atPort = true ∧ lands s a 0xF560 ∧ d.toNat ≤ 23 ∧ d.toNat ≠ 22 ∧ (s.dom d.toNat = 1 ∨ s.dom
        d.toNat = 2) ∧ 16 ≤ d.toNat ∧ d.toNat < 20 ∧ (∃ j < 4, s.dom (4 * (d.toNat - 16) + j) ≠ 0)) ∧
    (∃ (a : Access) (d : BitVec 5) (s : State), a.atPort = true ∧ lands s a 0xF560 ∧ d.toNat ≤ 23 ∧ d.toNat ≠ 22 ∧ (s.dom d.toNat = 1 ∨ s.dom
        d.toNat = 2) ∧ d.toNat = 23 ∧ s.edw.sealed_ = true) ∧
    (∃ (a : Access) (d : BitVec 5) (s : State), a.atPort = true ∧ lands s a 0xF560 ∧ d.toNat ≤ 23 ∧ d.toNat ≠ 22 ∧ (s.dom d.toNat = 1 ∨ s.dom
        d.toNat = 2) ∧ (d.toNat < 16 ∨ (20 ≤ d.toNat ∧ (d.toNat = 23 → s.edw.sealed_ = false))) ∧ s.dom d.toNat = 1) ∧
    (∃ (a : Access) (d : BitVec 5) (s : State), a.atPort = true ∧ lands s a 0xF560 ∧ d.toNat ≤ 23 ∧ d.toNat ≠ 22 ∧ (s.dom d.toNat = 1 ∨ s.dom
        d.toNat = 2) ∧ (d.toNat < 16 ∨ (20 ≤ d.toNat ∧ (d.toNat = 23 → s.edw.sealed_ = false))) ∧ s.dom d.toNat = 2) ∧
    (∃ (a : Access) (d : BitVec 5) (s : State), a.via = .bar0 ∧ lands s a 0xF560 ∧ d.toNat = 3 ∧ (s.gate.pwrE = 0 ∨ s.gate.pwrE = 3)) ∧
    (∃ (a : Access) (d : BitVec 5) (s : State), a.via = .bar0 ∧ lands s a 0xF560 ∧ (d.toNat ≠ 3 ∨ (s.gate.pwrE ≠ 0 ∧ s.gate.pwrE ≠ 3))) ∧
    (∃ (a : Access) (d : BitVec 5) (s : State), a.via = .bar0 ∧ lands s a 0xF560 ∧ d.toNat = 3 ∧ s.gate.pwrE = 2) ∧
    (∃ (a : Access) (d : BitVec 5) (s : State), a.via = .bar0 ∧ lands s a 0xF560 ∧ (d.toNat ≠ 3 ∨ s.gate.pwrE ≠ 2)) ∧
    (∃ (a : Access) (s : State), a.atPort = true ∧ lands s a 0xF580 ∧ sleepOk s = true) ∧
    (∃ (a : Access) (s : State), a.atPort = true ∧ lands s a 0xF580 ∧ sleepOk s = false) :=
  ⟨⟨port1, 24, base, by unfold lands; decide +kernel⟩,
    ⟨port1, 24, base, by unfold lands; decide +kernel⟩,
    ⟨port1, 22, base, by unfold lands; decide +kernel⟩,
    ⟨port1, 5, domAt 5 0, by unfold lands; decide +kernel⟩,
    ⟨port1, 16, base, by unfold lands; decide +kernel⟩,
    ⟨port1, 23, edw { sealed_ := true }, by unfold lands; decide +kernel⟩,
    ⟨port1, 21, domAt 21 1, by unfold lands; decide +kernel⟩,
    ⟨port1, 15, base, by unfold lands; decide +kernel⟩,
    ⟨mgr, 3, base, by unfold lands; decide +kernel⟩,
    ⟨mgr, 2, base, by unfold lands; decide +kernel⟩,
    ⟨mgr, 3, gup { pwrE := 2 }, by unfold lands; decide +kernel⟩,
    ⟨mgr, 3, base, by unfold lands; decide +kernel⟩,
    ⟨port1, { base with pwr := {} }, by unfold lands; decide +kernel⟩,
    ⟨port1, base, by unfold lands; decide +kernel⟩⟩

/-- The hypotheses of O55 are met together, clause by clause. -/
theorem meets_TraceAndTestWrites :
    (∃ (a : Access) (w : Word) (d : Nat) (s : State), a.atPort = true ∧ lands s a 0x20050 ∧ d = (bits w.toNat 0 13 / 4 + Config.traceDepth -
        s.trc.ptr.toNat / 4) % Config.traceDepth ∧ bits w.toNat 0 13 % 4 = 0 ∧ d ≤ s.trc.ring.length) ∧
    (∃ (a : Access) (w : Word) (d : Nat) (s : State), a.atPort = true ∧ lands s a 0x20050 ∧ d = (bits w.toNat 0 13 / 4 + Config.traceDepth -
        s.trc.ptr.toNat / 4) % Config.traceDepth ∧ (bits w.toNat 0 13 % 4 ≠ 0 ∨ s.trc.ring.length < d)) ∧
    (∃ (a : Access) (s : State), a.atPort = true ∧ lands s a 0x20040 ∧ s.flag Reg.TRACE_CTRL_EN = false) ∧
    (∃ (a : Access) (s : State), a.atPort = true ∧ lands s a 0x20040 ∧ s.flag Reg.TRACE_CTRL_EN = true) ∧
    (∃ (a : Access) (o : BitVec 5) (s : State) (k : _), a.atPort = true ∧ lands s a 0x20060 ∧ bit (presentRW s 0x20060) 9 = false ∧ s.flag
        Reg.TEST_CTRL_TMODE = true ∧ outAbsent s o.toNat = false ∧ bufUsed s (bufKey 23 .s) < Config.bufDepth ∧ k ≠ bufKey 23 .s) ∧
    (∃ (a : Access) (o : BitVec 5) (s : State), a.atPort = true ∧ lands s a 0x20060 ∧ bit (presentRW s 0x20060) 9 = false ∧ s.flag
        Reg.TEST_CTRL_TMODE = true ∧ (outAbsent s o.toNat = true ∨ Config.bufDepth ≤ bufUsed s (bufKey 23 .s))) ∧
    (∃ (a : Access) (s : State), a.atPort = true ∧ lands s a 0x20060 ∧ bit (presentRW s 0x20060) 9 = false ∧ s.flag Reg.TEST_CTRL_TMODE =
        false) ∧
    (∃ (a : Access) (s : State), a.atPort = true ∧ lands s a 0x20060 ∧ bit (presentRW s 0x20060) 1 = false ∧ s.flag Reg.TEST_CTRL_TMODE =
        true ∧ ltestOk s = true ∧ s.flag Reg.TEST_CTRL_LTEST = true) ∧
    (∃ (a : Access) (s : State), a.atPort = true ∧ lands s a 0x20060 ∧ bit (presentRW s 0x20060) 1 = false ∧ s.flag Reg.TEST_CTRL_TMODE =
        true ∧ ltestOk s = true ∧ s.flag Reg.TEST_CTRL_LTEST = false) ∧
    (∃ (a : Access) (s : State), a.atPort = true ∧ lands s a 0x20060 ∧ bit (presentRW s 0x20060) 1 = false ∧ s.flag Reg.TEST_CTRL_TMODE =
        true ∧ ltestOk s = false) :=
  ⟨⟨port1, 4, 1, { base with trc := { ring := [⟨1, 2, 3, 4⟩] } }, by unfold lands; decide +kernel⟩,
    ⟨port1, 4, 1, base, by unfold lands; decide +kernel⟩,
    ⟨port1, base, by unfold lands; decide +kernel⟩,
    ⟨port1, base.wr Reg.TRACE_CTRL_EN 1, by unfold lands; decide +kernel⟩,
    ⟨dbg1, 23, inTest, 0, by unfold lands; decide +kernel⟩,
    ⟨dbg1, 24, inTest, by unfold lands; decide +kernel⟩,
    ⟨dbg1, { base with pins := { testEn := true } }, by unfold lands; decide +kernel⟩,
    ⟨dbg1, testing0, by unfold lands; decide +kernel⟩,
    ⟨dbg1, inTest, by unfold lands; decide +kernel⟩,
    ⟨dbg1, inTest.wr (Reg.LNK_CTRL_EN 0) 1, by unfold lands; decide +kernel⟩⟩

/-- The hypotheses of O56 are met together, clause by clause. -/
theorem meets_SealWrites :
    (∃ (a : Access) (s : State), a.atPort = true ∧ a.dbg = false ∧ lands s a 0x21000 ∧ s.edw.sealed_ = true ∧ s.edw.step = .idle ∧ capWithin
        s Config.sealGap = false) ∧
    (∃ (a : Access) (s : State), a.atPort = true ∧ a.dbg = false ∧ lands s a 0x21000 ∧ s.edw.sealed_ = true ∧ (s.edw.step ≠ .idle ∨ capWithin
        s Config.sealGap = true)) ∧
    (∃ (a : Access) (s : State), a.atPort = true ∧ a.dbg = false ∧ lands s a 0x21000 ∧ s.edw.sealed_ = false ∧ s.edw.cfg = true ∧ s5Loading s
        = false ∧ s.edw.step = .idle) ∧
    (∃ (a : Access) (s : State), a.atPort = true ∧ a.dbg = false ∧ lands s a 0x21000 ∧ s.edw.sealed_ = false ∧ (s.edw.cfg = false ∨ s5Loading
        s = true ∨ s.edw.step ≠ .idle)) ∧
    (∃ (a : Access) (s : State), a.atPort = true ∧ a.dbg = true ∧ portOpen s a = true ∧ masterFaulted s a = false ∧ s.on 23 = true ∧ s.rd
        Reg.EDW_TAMPER_COUNT = 0) :=
  ⟨⟨port1, edw { sealed_ := true }, by unfold lands; decide +kernel⟩,
    ⟨port1, edw { sealed_ := true, step := .mac }, by unfold lands; decide +kernel⟩,
    ⟨port1, edw { cfg := true }, by unfold lands; decide +kernel⟩,
    ⟨port1, base, by unfold lands; decide +kernel⟩,
    ⟨dbg1, base, by decide +kernel⟩⟩

/-- The hypotheses of O57 are met together, clause by clause. -/
theorem meets_SliceWrites :
    (∃ (a : Access) (i : BitVec 8) (pasidEn : Bool) (s : State), a.via = .bar0 ∧ lands s a 0x110 ∧ (s.slice i.toNat).st = .free ∧
        createResult i.toNat { s with gate := { s.gate with pasidEn := pasidEn } } = 0) ∧
    (∃ (a : Access) (i : BitVec 8) (pasidEn : Bool) (s : State) (r : _), a.via = .bar0 ∧ lands s a 0x110 ∧ (s.slice i.toNat).st = .free ∧
        createResult i.toNat { s with gate := { s.gate with pasidEn := pasidEn } } = r ∧ r ≠ 0 ∧ r < 16) ∧
    (∃ (a : Access) (i : BitVec 8) (s : State), a.via = .bar0 ∧ lands s a 0x110 ∧ (s.slice i.toNat).st ≠ .free) ∧
    (∃ (a : Access) (i : BitVec 8) (s : State), a.via = .bar0 ∧ lands s a 0x110 ∧ (s.slice i.toNat).st = .closed) ∧
    (∃ (a : Access) (i : BitVec 8) (s : State), a.via = .bar0 ∧ lands s a 0x110 ∧ (s.slice i.toNat).st = .fault ∧ (s.slice i.toNat).kept = []) ∧
    (∃ (a : Access) (i : BitVec 8) (s : State), a.via = .bar0 ∧ lands s a 0x110 ∧ (s.slice i.toNat).st = .fault ∧ s.gate.bar.st ≠ .up) ∧
    (∃ (a : Access) (i : BitVec 8) (s : State), a.via = .bar0 ∧ lands s a 0x110 ∧ (s.slice i.toNat).st = .open_ ∧ s.gate.bar.st ≠ .up) ∧
    (∃ (a : Access) (i : BitVec 8) (s : State), a.via = .bar0 ∧ lands s a 0x110 ∧ (s.slice i.toNat).st ≠ .closed ∧ (s.slice i.toNat).st ≠
        .fault) ∧
    (∃ (a : Access) (i : BitVec 8) (s : State), a.via = .bar0 ∧ lands s a 0x110 ∧ (s.slice i.toNat).st ≠ .open_ ∧ (s.slice i.toNat).st ≠
        .fault) :=
  ⟨⟨mgr, 255, true, base.wr (Reg.SLC_RING_LOG2SIZE 255) 3, by unfold lands; decide +kernel⟩,
    ⟨mgr, 255, false, base.wr (Reg.SLC_RING_LOG2SIZE 255) 3, 7, by unfold lands; decide +kernel⟩,
    ⟨mgr, 0, slc { st := .open_ }, by unfold lands; decide +kernel⟩,
    ⟨mgr, 0, slc { st := .closed }, by unfold lands; decide +kernel⟩,
    ⟨mgr, 0, slc { st := .fault }, by unfold lands; decide +kernel⟩,
    ⟨mgr, 0, { base with gate := { slices := [(0, { st := .fault })] } }, by unfold lands; decide +kernel⟩,
    ⟨mgr, 0, { base with gate := { slices := [(0, { st := .open_ })] } }, by unfold lands; decide +kernel⟩,
    ⟨mgr, 0, slc { st := .stopping }, by unfold lands; decide +kernel⟩,
    ⟨mgr, 0, slc { st := .stopping }, by unfold lands; decide +kernel⟩⟩

/-- The hypotheses of O58 are met together, clause by clause. -/
theorem meets_TenantWrites :
    (∃ (a : Access) (i : BitVec 8) (w : Word) (s : State), a.via = .bar2 ∧ lands s a (0x1000 * i.toNat + 4) ∧ (s.slice i.toNat).st = .open_ ∧
        ((s.slice i.toNat).prod - w).toNat ≤ (s.slice i.toNat).occ ∧ (s.slice i.toNat).kept = []) ∧
    (∃ (a : Access) (i : BitVec 8) (w : Word) (s : State), a.via = .bar2 ∧ lands s a (0x1000 * i.toNat + 4) ∧ ((s.slice i.toNat).st = .open_
        ∨ (s.slice i.toNat).st = .stopping) ∧ (s.slice i.toNat).occ < ((s.slice i.toNat).prod - w).toNat) ∧
    (∃ (a : Access) (i : BitVec 8) (s : State), a.via = .bar2 ∧ lands s a (0x1000 * i.toNat + 4) ∧ (s.slice i.toNat).st ≠ .open_ ∧ (s.slice
        i.toNat).st ≠ .stopping) ∧
    (∃ (a : Access) (i : BitVec 8) (w : Word) (s : State), a.via = .bar2 ∧ lands s a (0x1000 * i.toNat + 8) ∧ bit w.toNat 0 = false) ∧
    (∃ (a : Access) (i : BitVec 8) (w : Word) (s : State), a.via = .bar2 ∧ lands s a (0x1000 * i.toNat + 8) ∧ bit w.toNat 0 = true ∧
        ((s.slice i.toNat).occ = 0 ∨ s.rd (Reg.SLC_VEC_NVEC i.toNat) = 0)) ∧
    (∃ (a : Access) (i : BitVec 8) (w : Word) (s : State), a.via = .bar2 ∧ lands s a (0x1000 * i.toNat + 8) ∧ bit w.toNat 0 = true ∧ 0 <
        (s.slice i.toNat).occ ∧ s.rd (Reg.SLC_VEC_NVEC i.toNat) ≠ 0) ∧
    (∃ (a : Access) (i : BitVec 8) (w : Word) (s : State), a.via = .bar2 ∧ lands s a (0x1000 * i.toNat + 0x10) ∧ (bits w.toNat 0 12 < s.rd
        (Reg.SLC_VWR_VWBASE i.toNat) ∨ s.rd (Reg.SLC_VWR_VWBASE i.toNat) + s.rd (Reg.SLC_VWR_VWCOUNT i.toNat) ≤ bits w.toNat 0 12)) ∧
    (∃ (a : Access) (i : BitVec 8) (w : Word) (s : State), a.via = .bar2 ∧ lands s a (0x1000 * i.toNat + 0x10) ∧ s.rd (Reg.SLC_VWR_VWBASE
        i.toNat) ≤ bits w.toNat 0 12 ∧ bits w.toNat 0 12 < s.rd (Reg.SLC_VWR_VWBASE i.toNat) + s.rd (Reg.SLC_VWR_VWCOUNT i.toNat) ∧
        ((s.slice i.toNat).st ≠ .open_ ∨ (s.slice i.toNat).vwSlot ≠ none ∨ (∀ k < 32, (tget {} s.gate.vw k).busy ≠ none))) ∧
    (∃ (a : Access) (i : BitVec 8) (w : Word) (s : State) (k : _), a.via = .bar2 ∧ lands s a (0x1000 * i.toNat + 0x10) ∧ s.rd
        (Reg.SLC_VWR_VWBASE i.toNat) ≤ bits w.toNat 0 12 ∧ bits w.toNat 0 12 < s.rd (Reg.SLC_VWR_VWBASE i.toNat) + s.rd (Reg.SLC_VWR_VWCOUNT
        i.toNat) ∧ (s.slice i.toNat).st = .open_ ∧ (s.slice i.toNat).vwSlot = none ∧ k < 32 ∧ (tget {} s.gate.vw k).busy = none ∧ (∀ j < k,
        (tget {} s.gate.vw j).busy ≠ none)) ∧
    (∃ (p : BitVec 128) (s : State) (i : _), barReady .host s ∧ (tget {} s.gate.vw (pf p 0 5)).busy = some i ∧ (tget {} s.gate.vw (pf p 0
        5)).gen = p.getLsbD 5 ∧ (s.slice i.toNat).vwSlot = some (pf p 0 5)) ∧
    (∃ (p : BitVec 128) (s : State), barReady .host s ∧ ((tget {} s.gate.vw (pf p 0 5)).busy = none ∨ (tget {} s.gate.vw (pf p 0 5)).gen ≠
        p.getLsbD 5)) ∧
    (∃ (k : Nat) (v : VwSlot) (s : State), s.gate.bar.st = .up ∧ v.busy.isSome = true ∧ (s.gate.vw.find? (fun e => e.2.busy.isSome && decide
        (e.2.sentAt.toNat + rtmo s ≤ s.gate.clk.toNat)) = some (k, v))) :=
  ⟨⟨page, 0, 2, slc { st := .open_, prod := 4, cons := 2 }, by unfold lands; decide +kernel⟩,
    ⟨page, 0, 1, slc { st := .stopping, prod := 4, cons := 2 }, by unfold lands; decide +kernel⟩,
    ⟨page, 255, base, by unfold lands; decide +kernel⟩,
    ⟨page, 255, 0, base, by unfold lands; decide +kernel⟩,
    ⟨page, 255, 1, base, by unfold lands; decide +kernel⟩,
    ⟨page, 0, 1, (slc { st := .open_, prod := 4, cons := 2 }).wr (Reg.SLC_VEC_NVEC 0) 1, by unfold lands; decide +kernel⟩,
    ⟨page, 255, 7, base, by unfold lands; decide +kernel⟩,
    ⟨page, 255, 7, base.wr (Reg.SLC_VWR_VWCOUNT 255) 8, by unfold lands; decide +kernel⟩,
    ⟨page, 0, 7, (gup { slices := [(0, { st := .open_ })], vw := [(0, { busy := some 9 })] }).wr (Reg.SLC_VWR_VWCOUNT 0) 8, 1, by unfold lands; decide +kernel⟩,
    ⟨31, gup { vw := [(31, { busy := some 7 })], slices := [(7, { st := .open_, vwSlot := some 31 })] }, 7, by unfold barReady; decide +kernel⟩,
    ⟨31, gup {}, by unfold barReady; decide +kernel⟩,
    ⟨31, { busy := some 7 }, gup { vw := [(30, {}), (31, { busy := some 7 })], clk := 1000000 }, by decide +kernel⟩⟩

/-- The hypotheses of O59 are met together, clause by clause. -/
theorem meets_BarrierWrites :
    (∃ (a : Access) (s : State), a.atPort = true ∧ lands s a 0xF600 ∧ s.bar.st = .down ∧ s.bar.locked = 0xF) ∧
    (∃ (a : Access) (s : State), a.atPort = true ∧ lands s a 0xF600 ∧ (s.bar.st ≠ .down ∨ s.bar.locked ≠ 0xF)) ∧
    (∃ (a : Access) (s : State), a.atPort = true ∧ lands s a 0xF600 ∧ s.bar.st ≠ .up) ∧
    (∃ (a : Access) (s : State), a.atPort = true ∧ lands s a 0xF600 ∧ s.isDie0 = true) ∧
    (∃ (a : Access) (s : State), a.atPort = true ∧ lands s a 0xF600 ∧ s.bar.st = .up ∧ s.time.sleep = .awake) ∧
    (∃ (a : Access) (s : State), a.via = .bar0 ∧ lands s a 0xF590) ∧
    (∃ (s : State) (off : Nat) (q : RegRow × Nat × Nat) (f : FldSpec) (v : Nat), barReady .host s ∧ s.img.hload.st ≠ .ready ∧ busySlices s =
        [] ∧ 0x100000 ≤ off ∧ holds .host s 0 ((off - 0x100000) / 4) = false ∧ findReg off = some q ∧ f ∈ q.1.flds ∧ f.acc = .ws ∧ tget none
        s.staged (f.at off).key = some v ∧ v < 2 ^ f.w) :=
  ⟨⟨port1, bup { locked := 0xF }, by unfold lands; decide +kernel⟩,
    ⟨port1, bup { locked := 0xE }, by unfold lands; decide +kernel⟩,
    ⟨port1, bup {}, by unfold lands; decide +kernel⟩,
    ⟨port1, base, by unfold lands; decide +kernel⟩,
    ⟨port1, bup { st := .up }, by unfold lands; decide +kernel⟩,
    ⟨mgr, base, by unfold lands; decide +kernel⟩,
    ⟨(gup {}).stage (FldSpec.at ⟨1, 1, .ws, 0⟩ 0x10F500) 1, 0x10F500, regAt 0x10F500, ⟨1, 1, .ws, 0⟩, 1, by unfold barReady; decide +kernel⟩⟩

/-- The hypotheses of O60 are met together, clause by clause. -/
theorem meets_LineCoding :
    (∃ (f g : LinkFrame), slotLevels f = slotLevels g) ∧
    (∃ (p : Nat), p < 2) ∧
    (∃ (n : Nat), n < 9) ∧
    (∃ (p : Fin 4) (a : Fin 23) (s : State), clocked s = true ∧ a.val = 16 + p.val ∧ arbReqs a s = [] ∧ (s.arbOf a).holder = none ∧ ((s.port
        p).st = .down ∨ ((s.port p).st = .off ∧ testing s p = false))) ∧
    (∃ (p : Fin 4) (a : Fin 23) (s : State) (l : Fin 4) (x : BitVec 31), clocked s = true ∧ a.val = 16 + p.val ∧ arbReqs a s = [] ∧ (s.arbOf
        a).holder = none ∧ (s.port p).st = .off ∧ testing s p = true ∧ s.rd Reg.TEST_LSEL_PAT ≠ 3 ∧ s.rd Reg.TEST_LSEL_LOOP ≠ 3 ∧
        s.tst.gen[l.val]? = some x) ∧
    (∃ (p : Fin 4) (a : Fin 23) (s : State), clocked s = true ∧ a.val = 16 + p.val ∧ arbReqs a s = [] ∧ (s.arbOf a).holder = none ∧ (s.port
        p).st = .ident) ∧
    (∃ (p : Fin 4) (a : Fin 23) (s : State), clocked s = true ∧ a.val = 16 + p.val ∧ arbReqs a s = [] ∧ (s.arbOf a).holder = none ∧ (s.port
        p).st = .up ∧ p.val < 2 ∧ (s.port p).owe = []) :=
  ⟨⟨0, 0, by decide +kernel⟩,
    ⟨0, by decide +kernel⟩,
    ⟨8, by decide +kernel⟩,
    ⟨0, 16, base, by decide +kernel⟩,
    ⟨0, 16, { testing0 with tst := { gen := [5, 6, 7, 8] } }, 3, 8, by decide +kernel⟩,
    ⟨0, 16, withPort { st := .ident }, by decide +kernel⟩,
    ⟨0, 16, withPort { st := .up }, by decide +kernel⟩⟩

end Sys2Proof.Tests
end

namespace Sys2Proof.Machine

/-- The step of a state in whose queue a command waits (R1, log entry 1): the first one runs, and its own state holds the queue without it. -/
theorem step_of_pending_cons {s : State} {c : Instr} {rest : List Instr} (h : s.pending = c :: rest) :
    step s = exec c { s with pending := rest } := by
  rw [step, h]

/-- Settles O1: the queue given is a command and a rest, and the update that takes the command off overwrites the queue alone. -/
theorem stepRunsFront : Obligations.StepRunsFront := by
  intro c rest s
  exact step_of_pending_cons (s := { s with pending := c :: rest }) rfl

end Sys2Proof.Machine

namespace Sys2Proof.Machine

-- the word and the read of a lock (R321)

/-- A master holds a lock exactly where one of the 64 locks is held in its name. -/
theorem lockHeldBy_isSome (s : State) (mid : BitVec 4) :
    (lockHeldBy s mid).isSome = true ↔ ∃ j : Fin 64, (s.lockOf j).held = true ∧ (s.lockOf j).owner = mid := by
  unfold lockHeldBy
  rw [List.find?_isSome]
  simp only [List.mem_range, Bool.and_eq_true, beq_iff_eq, Fin.exists_iff, exists_prop]

theorem lockHeldBy_none {s : State} {mid : BitVec 4} (h : ∀ j : Fin 64, (s.lockOf j).held = true → (s.lockOf j).owner ≠ mid) :
    lockHeldBy s mid = none := by
  rw [← Option.not_isSome_iff_eq_none, lockHeldBy_isSome]
  rintro ⟨j, hj, e⟩
  exact h j hj e

/-- The fields that a read of LOCK[i] shows. -/
theorem lockWord_fields (l : LockS) (got : Bool) :
    bits (BitVec.ofNat 32 (lockWord l got)).toNat 0 4 = l.owner.toNat ∧ bits (BitVec.ofNat 32 (lockWord l got)).toNat 4 1 = b2n l.held ∧
      bits (BitVec.ofNat 32 (lockWord l got)).toNat 5 1 = b2n got ∧ bits (BitVec.ofNat 32 (lockWord l got)).toNat 6 1 = b2n l.broken := by
  have one (b : Bool) : b2n b < 2 := by cases b <;> decide
  have := one l.held
  have := one got
  have := one l.broken
  have := l.owner.isLt
  rw [BitVec.toNat_ofNat]
  unfold bits lockWord
  omega

/-- The lock that a master takes by its read; BROKEN is cleared. -/
def acquired (s : State) (i : Nat) (mid : BitVec 4) : LockS :=
  { s.lockOf i with owner := mid, held := true, set := [], ovf := false, broken := false, since := s.time.now }

/-- A read that acquires: the word shows BROKEN as it stood. -/
theorem lockRead_acquires {s : State} {i : Nat} {mid : BitVec 4} (h : (s.lockOf i).held = false) (hn : lockHeldBy s mid = none) :
    lockRead i mid false s = (lockWord { acquired s i mid with broken := (s.lockOf i).broken } true, s.setLock i (acquired s i mid)) := by
  unfold lockRead
  dsimp only
  rw [h, hn]
  rfl

/-- A read that does not acquire: the word of the lock as it stands, with GOT = 0. -/
theorem lockRead_fails {s : State} {i : Nat} {mid : BitVec 4} {dbg : Bool}
    (h : (s.lockOf i).held = true ∨ dbg = true ∨ (lockHeldBy s mid).isSome = true) :
    lockRead i mid dbg s = (lockWord (s.lockOf i) false, s) := by
  unfold lockRead
  dsimp only
  rw [if_pos]
  simpa only [Bool.or_eq_true, or_assoc] using h

/-- What a read of LOCK[i] leaves, but for the response: what lockRead leaves, for a debug access too. -/
theorem readLeaves_lock {a : Access} (ha : a.atPort = true) (i addr : Nat) (s : State) :
    readLeaves s a ⟨row_LOCK, i, 0, addr, .active⟩ = (lockRead i a.mid a.dbg s).2 := by
  unfold readLeaves
  rw [dbg_of ha, clearRC_none (p := ⟨row_LOCK, i, 0, addr, .active⟩) rfl]
  cases hd : a.dbg with
  | true => rw [lockRead_fails (.inr (.inl rfl))]; rfl
  | false => rfl

/-- LOCK_ACQUIRE is the read of a lock, answered. -/
theorem exec_lockAcquire {s : State} {a : Access} {i : Fin 64} (ha : a.atPort = true) (h : reaches s a (0xF000 + 4 * i)) :
    exec (.lockAcquire a i) s = .next { (lockRead i a.mid a.dbg s.bare).2.emit
      (.reg a.via (BitVec.ofNat 32 (lockRead i a.mid a.dbg s.bare).1) none) with pending := s.pending } := by
  have e : readWord s.bare a ⟨row_LOCK, i, 0, 0xF000 + 4 * i, .active⟩ .clean = (lockRead i a.mid a.dbg s.bare).1 := by
    rw [← dbg_of ha]
    rfl
  rw [← readLeaves_lock ha i (0xF000 + 4 * i) s.bare, ← e]
  exact port_read ha h (by omega) (by omega) (at_LOCK i i.isLt) (by decide)

theorem lockAcquire_acquires {s : State} {a : Access} {i : Fin 64} (ha : a.atPort = true) (h : reaches s a (0xF000 + 4 * i))
    (hf : (s.lockOf i).held = false) (hd : a.dbg = false) (hn : lockHeldBy s a.mid = none) :
    exec (.lockAcquire a i) s = .next { (s.bare.setLock i (acquired s i a.mid)).emit
      (.reg a.via (BitVec.ofNat 32 (lockWord { acquired s i a.mid with broken := (s.lockOf i).broken } true)) none) with
      pending := s.pending } := by
  rw [exec_lockAcquire ha h, hd, lockRead_acquires (s := s.bare) hf hn]
  rfl

theorem lockAcquire_fails {s : State} {a : Access} {i : Fin 64} (ha : a.atPort = true) (h : reaches s a (0xF000 + 4 * i))
    (hf : (s.lockOf i).held = true ∨ a.dbg = true ∨ (lockHeldBy s a.mid).isSome = true) :
    exec (.lockAcquire a i) s = .next { s with out := [.reg a.via (BitVec.ofNat 32 (lockWord (s.lockOf i) false)) none] } := by
  rw [exec_lockAcquire ha h, lockRead_fails (s := s.bare) hf]
  rfl

-- locks that become free (R321, R322)

/-- Lock i is free in t, its set gone, and no other lock differs from s. -/
def lockFreed (i : Nat) (s t : State) : Prop :=
  t.lockOf i = { s.lockOf i with held := false, set := [], ovf := false } ∧ ∀ j, j ≠ i → t.lockOf j = s.lockOf j

theorem lockFree_frees (i : Nat) (s : State) : lockFreed i s (lockFree i s) :=
  ⟨State.lockOf_setLock .., fun _ hj => State.lockOf_setLock_ne _ _ hj⟩

/-- What an operation leaves of the locks before and after the lock is freed. -/
theorem lockFreed.of_keeps {w w' : List Part} {i : Nat} {s s' t t' : State} (h : lockFreed i s' t) (hs : Keeps w s s') (ht : Keeps w' t t')
    (hw : Part.lock ∉ w := by decide) (hw' : Part.lock ∉ w' := by decide) : lockFreed i s t' := by
  obtain ⟨hi, hj⟩ := h
  refine ⟨?_, fun j hne => ?_⟩
  · rw [ht.lockOf_eq i hw', hi, hs.lockOf_eq i hw]
  · rw [ht.lockOf_eq j hw', hj j hne, hs.lockOf_eq j hw]

theorem lockRelease_frees (i : Nat) (s : State) : lockFreed i s (lockRelease i s) := by
  unfold lockRelease
  dsimp only
  have before (c : Bool) : Keeps [.regs] s (if c then s.raise Reg.LOAD_STATUS_COLL else s) := Keeps.ite (State.raise_keeps ..) Keeps.refl
  have after (c : Bool) (l : List (Nat × Word)) (u : State) : Keeps [.staged] u (if c then u else u.each l fun w s => stageWord w.1 w.2.toNat s) :=
    Keeps.ite Keeps.refl (Keeps.each (fun w u => stageWord_keeps ..) Keeps.refl)
  exact (lockFree_frees i _).of_keeps (before _) (after ..)

-- writes of LOCK[i] (R321 to R323)

/-- The fields of LOCK that can be written are commands: none is stored. -/
theorem putFields_lock (i addr w : Nat) (s : State) : putFields ⟨row_LOCK, i, 0, addr, .active⟩ w s = s := rfl

/-- A write of LOCK does what its commands do and nothing else. -/
theorem effects_lock (a : Access) (i addr w : Nat) (s : State) :
    (effect1 a ⟨row_LOCK, i, 0, addr, .active⟩ w s (putFields ⟨row_LOCK, i, 0, addr, .active⟩ w s)).bind
      (effect2 ⟨row_LOCK, i, 0, addr, .active⟩ w s) = lockWrite a i w s := by
  rw [putFields_lock]
  show (lockWrite a i w s).bind _ = _
  cases lockWrite a i w s <;> rfl

/-- A write of LOCK[i] that is taken leaves what its command leaves. -/
theorem doWrite_lock {s u : State} {a : Access} {i : Fin 64} {w : Nat} (ha : a.atPort = true) (h : lands s a (0xF000 + 4 * i)) (hw : w < 2 ^ 32)
    (he : lockWrite a i w s.bare = some u) :
    doWrite a.atPort a (0xF000 + 4 * i) w s = .next { respond a true 0 none u with pending := s.pending } :=
  plain_write ha (by rw [port_of ha]; decide) (by rw [port_of ha]; decide) h (by omega) (by omega) (at_LOCK i i.isLt) hw
    rfl (by decide) (by decide) rfl rfl ((effects_lock ..).trans he)

/-- A bus error of the register port changes no field but those of BUSERR at 0x1C. -/
theorem busError_rd_port {a : Access} (ha : a.atPort = true) (addr cause : Nat) (wr : Bool) (s : State) {f : Fld} (h : f.off ≠ 0x1C)
    (hl : f.lo < 32) : (busError a addr cause wr s).rd f = s.rd f := by
  unfold busError
  rw [host_of ha]
  refine (show State.rd (respond _ _ _ _ _) f = State.rd _ f by unfold respond State.emit; split <;> rfl).trans ?_
  rw [wr_off _ _ h hl (by decide), wr_off _ _ h hl (by decide), wr_off _ _ h hl (by decide), wr_off _ _ h hl (by decide),
    wr_off _ _ h hl (by decide), wr_off _ _ h hl (by decide)]

/-- A write of LOCK[i] that is refused changes nothing but BUSERR. -/
theorem doWrite_lock_refused {s : State} {a : Access} {i : Fin 64} {w : Nat} (ha : a.atPort = true) (h : lands s a (0xF000 + 4 * i))
    (hw : w < 2 ^ 32) (he : lockWrite a i w s.bare = none) :
    ∃ t, doWrite a.atPort a (0xF000 + 4 * i) w s = .next t ∧ t.out = [.reg a.via 0 (some 6)] ∧ t.rd Reg.BUSERR_CAUSE = 6 ∧
      Keeps [.out, .regs] s t ∧ ∀ f : Fld, f.off ≠ 0x1C → f.lo < 32 → t.rd f = s.rd f := by
  obtain ⟨hout, hkeep⟩ := refused_does (s := s) a (0xF000 + 4 * i) ha
  obtain ⟨-, hcause, -⟩ := (busError_does a (0xF000 + 4 * i) 6 true s.bare (by decide)).2.2 (host_of ha)
  exact next_of (plain_refused ha (by rw [port_of ha]; decide) (by rw [port_of ha]; decide) h (by omega) (by omega) (at_LOCK i i.isLt) hw
    rfl (by decide) (by decide) rfl rfl ((effects_lock ..).trans he))
    ⟨hout, hcause, hkeep, fun f hf hl => busError_rd_port ha _ _ _ s.bare hf hl⟩

/-- A write of LOCK[i] that frees the lock is answered without error. -/
theorem doWrite_lock_frees {w' : List Part} {s u : State} {a : Access} {i : Fin 64} {w : Nat} (ha : a.atPort = true)
    (h : lands s a (0xF000 + 4 * i)) (hw : w < 2 ^ 32) (he : lockWrite a i w s.bare = some u) (hk : Keeps w' s.bare u)
    (hu : lockFreed i s u) (hout : Part.out ∉ w' := by decide) :
    ∃ t, doWrite a.atPort a (0xF000 + 4 * i) w s = .next t ∧ t.out = [.reg a.via 0 none] ∧ (t.lockOf i).held = false ∧
      ∀ j, j ≠ i.val → t.lockOf j = s.lockOf j := by
  obtain ⟨hi, hj⟩ := hu.of_keeps (w := []) Keeps.refl (answered_from (s := s) a)
  refine next_of (doWrite_lock ha h hw he) ⟨?_, by rw [hi], hj⟩
  rw [answered_out a (hk.same .out hout), host_of ha]
  rfl

/-- REL by the owner releases the lock. -/
theorem lockWrite_rel {s : State} {a : Access} {i : Nat} (h : (s.lockOf i).held = true) (ho : (s.lockOf i).owner = a.mid) :
    lockWrite a i (2 ^ 16) s = some (lockRelease i s) := by
  unfold lockWrite
  dsimp only
  rw [h, ho, beq_self_eq_true]
  rfl

/-- ABORT by the owner frees the lock. -/
theorem lockWrite_abort {s : State} {a : Access} {i : Nat} (h : (s.lockOf i).held = true) (ho : (s.lockOf i).owner = a.mid) :
    lockWrite a i (2 ^ 17) s = some (lockFree i s) := by
  unfold lockWrite
  dsimp only
  rw [h, ho, beq_self_eq_true]
  rfl

/-- REL and ABORT by anyone else are refused. -/
theorem lockWrite_not_owner {s : State} {a : Access} {i w : Nat} (h : (s.lockOf i).held = false ∨ (s.lockOf i).owner ≠ a.mid)
    (hw : (bit w 16 || bit w 17) = true) : lockWrite a i w s = none := by
  have no : ((s.lockOf i).held && (s.lockOf i).owner == a.mid) = false := by
    rcases h with h | h
    · rw [h]; rfl
    · rw [beq_false_of_ne h, Bool.and_false]
  unfold lockWrite
  dsimp only
  rw [hw, no]
  split <;> rfl

/-- BREAK needs a master with reg_dbg. -/
theorem lockWrite_break (a : Access) (i : Nat) (s : State) :
    lockWrite a i (2 ^ 18) s = if a.debug then some (lockBreak i 2 s) else none := by
  unfold lockWrite
  cases a.debug <;> rfl

-- broken locks (R323)

theorem lockBreak_locks {i : Nat} (c : Nat) {s : State} (h : (s.lockOf i).held = true) :
    (lockBreak i c s).lockOf i = { s.lockOf i with held := false, set := [], ovf := false, broken := true, bcause := BitVec.ofNat 2 c } ∧
      ∀ j, j ≠ i → (lockBreak i c s).lockOf j = s.lockOf j := by
  obtain ⟨hi, hne⟩ := lockFree_frees i s
  unfold lockBreak
  dsimp only
  rw [h, if_neg (by decide)]
  refine ⟨?_, fun j hj => ?_⟩
  · rw [(raiseInt_keeps ..).lockOf_eq, State.lockOf_setLock, hi]
  · rw [(raiseInt_keeps ..).lockOf_eq, State.lockOf_setLock_ne _ _ hj, hne j hj]

/-- A break of a held lock, in deep sleep too, where no source is raised (R459). -/
theorem lockBreak_broken {i : Nat} (c : Nat) {s : State} (h : (s.lockOf i).held = true) : lockBroken i c s (lockBreak i c s) := by
  obtain ⟨hi, hj⟩ := lockBreak_locks c h
  exact ⟨hi, hj, fun hs => (lockBreak_does i c s h hs).2.2.1, fun hl hs => (lockBreak_does i c s h hs).2.2.2 hl⟩

/-- A lock that is broken stays so where neither locks nor sources change. -/
theorem lockBroken.of_keeps {w : List Part} {i c : Nat} {s t u : State} (h : lockBroken i c s t) (hk : Keeps w t u)
    (hl : Part.lock ∉ w := by decide) (hs : Part.src ∉ w := by decide) : lockBroken i c s u := by
  unfold lockBroken at h ⊢
  simpa only [hk.lockOf_eq _ hl, hk.latchOf_eq _ hs] using h

/-- LOCK_TIMEOUT breaks a lock that has been held past its bound. -/
theorem lockTimeout_breaks {i : Fin 64} {s : State} (hc : clocked s = true) (h : (s.lockOf i).held = true) (hm : s.rd Reg.LOCK_CTRL_TMO ≠ 0)
    (ht : (s.lockOf i).since.toNat + 256 * s.rd Reg.LOCK_CTRL_TMO < s.time.now.toNat) :
    exec (.lockTimeout i) s = .next { lockBreak i 1 s.bare with pending := s.pending } := by
  refine runClk_eq hc ?_
  have past : ((s.bare.lockOf i).held && s.bare.rd Reg.LOCK_CTRL_TMO != 0 &&
      decide ((s.bare.lockOf i).since.toNat + 256 * s.bare.rd Reg.LOCK_CTRL_TMO < s.bare.t)) = true := by
    simp only [Bool.and_eq_true, bne_iff_ne, decide_eq_true_eq]
    exact ⟨⟨h, hm⟩, ht⟩
  exact if_pos past

/-- LOCK_TIMEOUT does nothing where TMO is 0 or the bound has not passed. -/
theorem lockTimeout_waits {i : Fin 64} {s : State} (hc : clocked s = true)
    (h : s.rd Reg.LOCK_CTRL_TMO = 0 ∨ s.time.now.toNat ≤ (s.lockOf i).since.toNat + 256 * s.rd Reg.LOCK_CTRL_TMO) :
    exec (.lockTimeout i) s = .next { s with out := [] } := by
  refine runClk_eq (t := s.bare) hc ?_
  refine if_neg (fun q => ?_)
  simp only [Bool.and_eq_true, bne_iff_ne, decide_eq_true_eq] at q
  obtain ⟨⟨-, hm⟩, ht⟩ := q
  exact h.elim hm (Nat.not_le_of_lt ht)

/-- A loop no step of which changes the state leaves it. -/
theorem State.each_id {α : Type} {f : α → State → State} {l : List α} {s : State} (h : ∀ a ∈ l, f a s = s) : s.each l f = s := by
  unfold State.each
  induction l with
  | nil => rfl
  | cons a l ih => rw [List.foldl_cons, h a List.mem_cons_self, ih fun b hb => h b (List.mem_cons_of_mem _ hb)]

/-- A loop in which one step alone has an effect, before which and after which the others have none. -/
theorem State.each_single {α : Type} {f : α → State → State} {l : List α} {i : α} {s : State} (hn : l.Nodup) (hi : i ∈ l)
    (h0 : ∀ j ∈ l, j ≠ i → f j s = s) (h1 : ∀ j ∈ l, j ≠ i → f j (f i s) = f i s) : s.each l f = f i s := by
  induction l with
  | nil => exact absurd hi List.not_mem_nil
  | cons a l ih =>
    obtain ⟨ha, hn⟩ := List.nodup_cons.mp hn
    show State.each (f a s) l f = f i s
    by_cases e : a = i
    · subst e
      exact State.each_id fun j hj => h1 j (List.mem_cons_of_mem _ hj) (fun e => ha (e ▸ hj))
    · rw [h0 a List.mem_cons_self e]
      exact ih hn ((List.mem_cons.mp hi).resolve_left (Ne.symm e)) (fun j hj => h0 j (List.mem_cons_of_mem _ hj))
        (fun j hj => h1 j (List.mem_cons_of_mem _ hj))

/-- The breaking of lock i where master m holds it (R323). -/
def breakIfOf (m : Nat) (i : Nat) (s : State) : State :=
  if (s.lockOf i).held && (s.lockOf i).owner.toNat == m then lockBreak i 0 s else s

theorem breakIfOf_held {m i : Nat} {s : State} (h : (s.lockOf i).held = true) (ho : (s.lockOf i).owner.toNat = m) :
    breakIfOf m i s = lockBreak i 0 s :=
  if_pos (by rw [h, ho, beq_self_eq_true]; rfl)

theorem breakIfOf_other {m i : Nat} {s : State} (h : (s.lockOf i).held = true → (s.lockOf i).owner.toNat ≠ m) : breakIfOf m i s = s :=
  if_neg fun q => by
    rw [Bool.and_eq_true, beq_iff_eq] at q
    exact h q.1 q.2

/-- The locks of a master that holds one alone: that one is broken, and the others stay. -/
theorem each_breakIfOf {m : Nat} {i : Fin 64} {s : State} (h : (s.lockOf i).held = true) (ho : (s.lockOf i).owner.toNat = m)
    (hu : ∀ j : Fin 64, (s.lockOf j).held = true → (s.lockOf j).owner.toNat = m → j = i) :
    s.each (List.range 64) (breakIfOf m) = lockBreak i 0 s := by
  have others (j : Nat) (hj : j ∈ List.range 64) (hne : j ≠ i) : (s.lockOf j).held = true → (s.lockOf j).owner.toNat ≠ m :=
    fun hh he => hne (congrArg Fin.val (hu ⟨j, List.mem_range.mp hj⟩ hh he))
  rw [← breakIfOf_held h ho]
  refine State.each_single List.nodup_range (List.mem_range.mpr i.isLt) (fun j hj hne => breakIfOf_other (others j hj hne)) fun j hj hne => ?_
  rw [breakIfOf_held h ho]
  refine breakIfOf_other ?_
  rw [(lockBreak_locks 0 h).2 j hne]
  exact others j hj hne

/-- The bare state once reg_mfault of a master is 1 (R521). -/
def mfaultRaised (m : Fin 16) (s : State) : State := { s.bare with pins := { s.pins with mfault := s.pins.mfault ||| (1#16 <<< m.val) } }

/-- MASTER_FAULT at level 1 sets the master's pin and breaks what the master holds. -/
theorem exec_masterFault_high (m : Fin 16) (s : State) : exec (.masterFault m true) s = .next
    { (mfaultRaised m s).each (List.range 64) (breakIfOf m) with pending := s.pending } := rfl

/-- BREAK by a master with reg_dbg breaks a held lock. -/
theorem exec_lockBreak {s : State} {a : Access} {i : Fin 64} (ha : a.atPort = true) (h : lands s a (0xF000 + 4 * i)) (hd : a.dbg = true) :
    exec (.lockBreak a i) s = .next { respond a true 0 none (lockBreak i 2 s.bare) with pending := s.pending } :=
  doWrite_lock ha h (by decide) (by rw [lockWrite_break, dbg_of ha, hd]; rfl)

-- the obligations

/-- Settles O16: a read is decided by whether the lock is free and the master holds none, a write of REL or ABORT by whether its master is the
owner. -/
theorem sequenceLocks : Obligations.SequenceLocks := by
  unfold Obligations.SequenceLocks
  intro a i s ha
  refine ⟨fun hr => ⟨fun hfree hdbg hnone => ?acquires, fun hnot => ?fails⟩, fun hl => ⟨fun hheld howner => ⟨?rel, ?abort⟩, fun hnot => ⟨?_, ?_⟩⟩⟩
  case acquires =>
    obtain ⟨howner, hheld, hgot, hbroken⟩ := lockWord_fields { acquired s i a.mid with broken := (s.lockOf i).broken } true
    obtain ⟨hout, hkeep⟩ := emit_keeps (s := s) (u := s.bare.setLock i (acquired s i a.mid))
      (.reg a.via (BitVec.ofNat 32 (lockWord { acquired s i a.mid with broken := (s.lockOf i).broken } true)) none) (State.setLock_keeps ..)
    exact ⟨_, _, lockAcquire_acquires ha hr hfree hdbg (lockHeldBy_none hnone), hout, howner, hheld, hgot, hbroken,
      State.lockOf_setLock s.bare i _, fun j hj => State.lockOf_setLock_ne s.bare _ hj, hkeep⟩
  case fails =>
    exact ⟨_, lockAcquire_fails ha hr (hnot.imp_right (Or.imp_right (lockHeldBy_isSome s a.mid).mpr)), (lockWord_fields ..).2.2.1⟩
  case rel =>
    exact doWrite_lock_frees ha hl (by decide) (lockWrite_rel (s := s.bare) hheld howner) (lockRelease_keeps ..) (lockRelease_frees i s.bare)
  case abort =>
    exact doWrite_lock_frees ha hl (by decide) (lockWrite_abort (s := s.bare) hheld howner) (lockFree_keeps ..) (lockFree_frees i s.bare)
  all_goals exact doWrite_lock_refused ha hl (by decide) (lockWrite_not_owner (s := s.bare) hnot (by decide))

/-- Settles O18: each of the three causes comes down to one break of a held lock. -/
theorem brokenLocks : Obligations.BrokenLocks := by
  unfold Obligations.BrokenLocks
  refine ⟨fun m i s hheld howner honly => ?fault, fun i s hc hheld => ⟨fun htmo hpast => ?timeout, lockTimeout_waits hc⟩,
    fun a i s ha hl => ⟨fun hdbg hheld => ?broken, fun hdbg => ?ignored⟩⟩
  case fault =>
    refine next_of (exec_masterFault_high m s) ?_
    rw [each_breakIfOf (s := mfaultRaised m s) hheld howner honly]
    exact lockBreak_broken (s := mfaultRaised m s) 0 hheld
  case timeout =>
    exact next_of (lockTimeout_breaks hc hheld htmo hpast) (lockBreak_broken (s := s.bare) 1 hheld)
  case broken =>
    exact next_of (exec_lockBreak ha hl hdbg) ((lockBreak_broken (s := s.bare) 2 hheld).of_keeps (answered_from (s := s) a))
  case ignored =>
    obtain ⟨t, ht, hout, -, hkeep, -⟩ := doWrite_lock_refused (w := 2 ^ 18) ha hl (by decide) (by rw [lockWrite_break, dbg_of ha, hdbg]; rfl)
    exact ⟨t, ht, hout, hkeep⟩

end Sys2Proof.Machine

namespace Sys2Proof.Machine

set_option Elab.async false

-- every command completes (log entry 3)

/-- Every command is one run of its meaning behind the check of its form (log entry 3). -/
theorem exec_runs (c : Instr) (s : State) : ∃ f, exec c s = runWf c.wf f s := by
  cases c <;> exact ⟨_, rfl⟩

/-- Settles O3: the check of a command's form decides between a next state, whose queue is the one before, and the fault. -/
theorem everyCommandCompletes : Obligations.EveryCommandCompletes := by
  intro c s
  obtain ⟨f, hf⟩ := exec_runs c s
  rw [hf]
  exact ⟨fun hok => ⟨effect f s, runWf_ok hok, effect_pending f s⟩, runWf_bad⟩

-- runs of a queue (R1, log entry 1)

/-- A run whose first step answers a next state goes on from there. -/
theorem run_of_next {M : Host.Core} {n : Nat} {s t : M.State} (h : M.step s = .next t) : M.run (n + 1) s = M.run n t := by
  rw [Host.Core.run, h]

/-- A run whose first step faults ends there. -/
theorem run_of_fault {M : Host.Core} {n : Nat} {s : M.State} {r : M.Fault} (h : M.step s = .fault r) : M.run (n + 1) s = .fault r := by
  rw [Host.Core.run, h]

/-- The step of a state whose front command is well formed leaves the rest of the queue. -/
theorem step_of_front_wf {c : Instr} {rest : List Instr} {s : State} (h : s.pending = c :: rest) (hc : c.wf = true) :
    ∃ t, step s = .next t ∧ t.pending = rest := by
  rw [step_of_pending_cons h]
  exact (everyCommandCompletes c { s with pending := rest }).1 hc

/-- A step of the idle block keeps its queue empty. -/
theorem step_of_idle {s : State} (h : s.pending = []) : ∃ t, step s = .next t ∧ t.pending = [] :=
  ⟨tick s, by rw [step, h], ((tick_keeps s).same .pending (by decide)).trans h⟩

/-- A step of a state whose queued commands are well formed takes the front one off. -/
theorem step_of_queue_wf {s : State} (h : ∀ c ∈ s.pending, c.wf = true) : ∃ t, step s = .next t ∧ t.pending = s.pending.drop 1 := by
  cases hp : s.pending with
  | nil => exact step_of_idle hp
  | cons c rest => exact step_of_front_wf hp (h c (by rw [hp]; exact List.mem_cons_self))

/-- Settles O4: by induction on the steps taken, and on the well-formed commands in front of the ill-formed one. -/
theorem queueRuns : Obligations.QueueRuns := by
  refine ⟨fun n => ?_, fun l r c => ?_⟩
  · induction n with
    | zero => exact fun s _ => ⟨s, rfl, rfl⟩
    | succ n ih =>
      intro s hwf
      obtain ⟨t, hstep, hrest⟩ := step_of_queue_wf hwf
      obtain ⟨u, hrun, hu⟩ := ih t fun c hc => hwf c (List.mem_of_mem_drop (hrest ▸ hc))
      exact ⟨u, (run_of_next (M := core) hstep).trans hrun, by rw [hu, hrest, List.drop_drop, Nat.add_comm]⟩
  · induction l with
    | nil =>
      intro s _ hc hq
      exact run_of_fault (M := core) ((step_of_pending_cons hq).trans ((everyCommandCompletes c _).2 hc))
    | cons x l ih =>
      intro s hl hc hq
      obtain ⟨t, hstep, hrest⟩ := step_of_front_wf hq (hl x List.mem_cons_self)
      exact (run_of_next (M := core) hstep).trans (ih t (fun y hy => hl y (List.mem_cons_of_mem _ hy)) hc hrest)

end Sys2Proof.Machine

namespace Sys2Proof.Machine

set_option Elab.async false

-- what no command but those named changes

/-- LDA leaves the staged copy of the registers alone: what it reads is the stage buffer of its run (R124, R130). -/
theorem lda_keeps (n : Fin 64) (rdata : Word) (err parity : Bool) (s : State) :
    KeepsX [.out, .regs, .src, .camp, .seg, .trc] s (exec (.lda n rdata err parity) s) := by
  refine KeepsX.runClk fun s => instruct_keeps (by decide) _ (fun r op g u hf => ?_) Keeps.refl
  cases op with
  | lda wd addr =>
    dsimp only at hf
    split at hf
    · cases hf
      exact guardParity_keeps (by decide) _ _ (fun u => (setRun_keeps ..).mono (by decide)) Keeps.refl
    · split at hf
      · cases hf
        exact Keeps.step (segAccess_keeps ..) (by decide) ((setRun_keeps ..).mono (by decide))
      · cases hf
  | _ => cases hf

/-- STA leaves the staged copy of the registers alone: it writes the stage buffer of its run (R124). -/
theorem sta_keeps (n : Fin 64) (parity : Bool) (s : State) :
    KeepsX [.out, .regs, .src, .camp, .trc] s (exec (.sta n parity) s) := by
  refine KeepsX.runClk fun s => instruct_keeps (by decide) _ (fun r op g u hf => ?_) Keeps.refl
  split at hf
  · split at hf
    · cases hf
      exact guardParity_keeps (by decide) _ _ (fun u => (setRun_keeps ..).mono (by decide)) Keeps.refl
    · cases hf
      exact guardParity_keeps (by decide) _ _ (fun u => (failCampion_keeps ..).mono (by decide)) Keeps.refl
  · cases hf

/-- RET hands the stage buffer to the segment, or commits at once (R123). -/
theorem ret_keeps (n : Fin 64) (parity : Bool) (s : State) :
    KeepsX [.out, .regs, .src, .acc, .firn, .camp, .seg, .trc] s (exec (.ret n parity) s) := by
  refine KeepsX.runClk fun s => instruct_keeps (by decide) _ (fun r op g u hf => ?_) Keeps.refl
  cases op with
  | ret =>
    cases hf
    refine guardParity_keeps (by decide) _ _ (fun u => ?_) Keeps.refl
    exact Keeps.ite (Keeps.step (commitReflex_keeps ..) (by decide) ((State.setCamp_keeps ..).mono (by decide)))
      (Keeps.step (State.setSeg_keeps ..) (by decide) ((State.setCamp_keeps ..).mono (by decide)))
  | _ => cases hf

/-- REFLEX_COMMIT drives the burst of a segment and commits its reflex (R123, R130). -/
theorem reflexCommit_keeps (r : Fin 4) (errs : List Bool) (s : State) :
    KeepsX [.out, .regs, .acc, .firn, .seg, .trc] s (exec (.reflexCommit r errs) s) := by
  refine KeepsX.runClk fun s => ?_
  dsimp only
  split
  · exact Keeps.refl
  · exact Keeps.step (commitReflex_keeps ..) (by decide) (Keeps.step (driveBurst_keeps ..) (by decide) ((State.setSeg_keeps ..).mono (by decide)))

/-- The commands that may change the staged copy of the configuration: those of a load, of start-up, of a thaw, the resets and the register writes. -/
def mayStage : Instr → Bool
  | .threshWrite .. | .predictorReset .. | .pwNextWrite .. | .campRfailGo .. | .thaw .. | .epochPeriodWrite .. | .thaw0 .. |
  .timeUnitReload .. | .lnkEnable .. | .lnkDisable .. | .lnkDownCommand .. | .lockRel .. | .lockAbort .. | .lockBreak .. | .loadStart .. |
  .loadAbort .. | .loadData .. | .loadRestoreDone .. | .persistEraseDone .. | .tableCopyEnd .. | .dtGo .. | .rdpErase .. | .barEnable .. |
  .barDisable .. | .barThaw .. | .slcCreate .. | .slcOpen .. | .slcReset .. | .slcDestroy .. | .pgConsWrite .. | .pgArmWrite .. |
  .pgVwWrite .. | .hostGateSoftReset .. | .edwCtrlSeal .. | .edwRestoreDone .. | .edwDebugWrite .. | .pwrReqWake .. | .pwrReqOff .. |
  .domainRampFail .. | .sleepGo .. | .rstSoftInstance .. | .rstDie .. | .rstPackage .. | .rstSystem .. | .powerOn .. | .registerWrite .. |
  .stagedViewWrite .. | .bitAliasWrite .. | .traceRdptrWrite .. | .traceEnable .. | .testInject .. | .ltestStart .. | .ltestStop .. |
  .persistWordProgrammed .. => true
  | _ => false

/-- A list of parts names of the guarded ones, and of the staged copy, only what a command may change. -/
def leavable (c : Instr) (w : List Part) : Bool :=
  w.all fun p => if guarded.contains p then (mayChange c).contains p else p != .staged || mayStage c

theorem mem_mayChange_of_leavable {c : Instr} {w : List Part} {p : Part} (h : leavable c w = true) (hp : p ∈ guarded) (hw : p ∈ w) :
    p ∈ mayChange c := by
  have := List.all_eq_true.mp h p hw
  rw [if_pos (List.contains_iff_mem.mpr hp)] at this
  exact List.contains_iff_mem.mp this

theorem mayStage_of_leavable {c : Instr} {w : List Part} (h : leavable c w = true) (hw : .staged ∈ w) : mayStage c = true :=
  List.all_eq_true.mp h _ hw

/-- Each command's own frame lemma names only what the command may change. -/
theorem exec_leaves (c : Instr) (s : State) : ∃ w, KeepsX w s (exec c s) ∧ leavable c w = true := by
  cases c with
  | wiredInputEdge n level data odd width => exact ⟨_, execWiredInputEdge_keeps n level data odd width s, rfl⟩
  | levelReraise n => exact ⟨_, execLevelReraise_keeps n s, rfl⟩
  | windowOpen n => exact ⟨_, execWindowOpen_keeps n s, rfl⟩
  | messageWrite w target vec payload => exact ⟨_, execMessageWrite_keeps w target vec payload s, rfl⟩
  | offer => exact ⟨_, execOffer_keeps s, rfl⟩
  | firnRecordWrite => exact ⟨_, execFirnRecordWrite_keeps s, rfl⟩
  | accept => exact ⟨_, execAccept_keeps s, rfl⟩
  | pairMirror m => exact ⟨_, execPairMirror_keeps m s, rfl⟩
  | pairAckRecorded m => exact ⟨_, execPairAckRecorded_keeps m s, rfl⟩
  | pairAckRelease m => exact ⟨_, execPairAckRelease_keeps m s, rfl⟩
  | pairAckReleased m => exact ⟨_, execPairAckReleased_keeps m s, rfl⟩
  | pairAckResyncEnd m => exact ⟨_, execPairAckResyncEnd_keeps m s, rfl⟩
  | pairTimeout => exact ⟨_, execPairTimeout_keeps s, rfl⟩
  | remoteVectorWrite m => exact ⟨_, execRemoteVectorWrite_keeps m s, rfl⟩
  | remoteWriteResponse m => exact ⟨_, execRemoteWriteResponse_keeps m s, rfl⟩
  | schedulerForward ecc => exact ⟨_, execSchedulerForward_keeps ecc s, rfl⟩
  | spillBlockWrite k => exact ⟨_, execSpillBlockWrite_keeps k s, rfl⟩
  | moraineRefill k err => exact ⟨_, execMoraineRefill_keeps k err s, rfl⟩
  | arbiterDecide a => exact ⟨_, execArbiterDecide_keeps a s, rfl⟩
  | arbiterRevoke a => exact ⟨_, execArbiterRevoke_keeps a s, rfl⟩
  | arbiterWithdraw a revoked => exact ⟨_, execArbiterWithdraw_keeps a revoked s, rfl⟩
  | arbiterRefill a => exact ⟨_, execArbiterRefill_keeps a s, rfl⟩
  | pendingAdmit n parity => exact ⟨_, execPendingAdmit_keeps n parity s, rfl⟩
  | vectorCacheFill k ecc => exact ⟨_, execVectorCacheFill_keeps k ecc s, rfl⟩
  | cifTake n => exact ⟨_, execCifTake_keeps n s, rfl⟩
  | claim n => exact ⟨_, execClaim_keeps n s, rfl⟩
  | claimPeek a n => exact ⟨_, execClaimPeek_keeps a n s, rfl⟩
  | complete n w => exact ⟨_, execComplete_keeps n w s, rfl⟩
  | threshWrite a n w => exact ⟨_, execThreshWrite_keeps a n w s, rfl⟩
  | warmStart n k => exact ⟨_, execWarmStart_keeps n k s, rfl⟩
  | predictorMiss n k => exact ⟨_, execPredictorMiss_keeps n k s, rfl⟩
  | predictorReset a n k r w => exact ⟨_, execPredictorReset_keeps a n k r w s, rfl⟩
  | pwNextWrite a n k w => exact ⟨_, execPwNextWrite_keeps a n k w s, rfl⟩
  | cifHaltRise n => exact ⟨_, execCifHaltRise_keeps n s, rfl⟩
  | cifHaltFall n => exact ⟨_, execCifHaltFall_keeps n s, rfl⟩
  | coreUnitReset n viaPin => exact ⟨_, execCoreUnitReset_keeps n viaPin s, rfl⟩
  | campionDispatch n ecc => exact ⟨_, execCampionDispatch_keeps n ecc s, rfl⟩
  | lde n => exact ⟨_, execLde_keeps n s, rfl⟩
  | lda n rdata err parity => exact ⟨_, lda_keeps n rdata err parity s, rfl⟩
  | sta n parity => exact ⟨_, sta_keeps n parity s, rfl⟩
  | staN n err parity => exact ⟨_, execStaN_keeps n err parity s, rfl⟩
  | addi n parity => exact ⟨_, execAddi_keeps n parity s, rfl⟩
  | sub n parity => exact ⟨_, execSub_keeps n parity s, rfl⟩
  | clamp n parity => exact ⟨_, execClamp_keeps n parity s, rfl⟩
  | cmp n parity => exact ⟨_, execCmp_keeps n parity s, rfl⟩
  | br n => exact ⟨_, execBr_keeps n s, rfl⟩
  | wait n => exact ⟨_, execWait_keeps n s, rfl⟩
  | waitEnd n => exact ⟨_, execWaitEnd_keeps n s, rfl⟩
  | emit n parity => exact ⟨_, execEmit_keeps n parity s, rfl⟩
  | emitAnswer n => exact ⟨_, execEmitAnswer_keeps n s, rfl⟩
  | emitLateAnswer n => exact ⟨_, execEmitLateAnswer_keeps n s, rfl⟩
  | irq n parity => exact ⟨_, execIrq_keeps n parity s, rfl⟩
  | ret n parity => exact ⟨_, ret_keeps n parity s, rfl⟩
  | reflexCommit r errs => exact ⟨_, reflexCommit_keeps r errs s, rfl⟩
  | campionWatchdog n => exact ⟨_, execCampionWatchdog_keeps n s, rfl⟩
  | campRfailGo a r loc => exact ⟨_, execCampRfailGo_keeps a r loc s, rfl⟩
  | campionUnitReset n => exact ⟨_, execCampionUnitReset_keeps n s, rfl⟩
  | syncInterval sub => exact ⟨_, execSyncInterval_keeps sub s, rfl⟩
  | syncReq p frame sub2 sub3 => exact ⟨_, execSyncReq_keeps p frame sub2 sub3 s, rfl⟩
  | syncRsp p frame sub4 => exact ⟨_, execSyncRsp_keeps p frame sub4 s, rfl⟩
  | alignmentTimeout => exact ⟨_, execAlignmentTimeout_keeps s, rfl⟩
  | trimCycle => exact ⟨_, execTrimCycle_keeps s, rfl⟩
  | timeLoRead a => exact ⟨_, execTimeLoRead_keeps a s, rfl⟩
  | capture k rising odd width => exact ⟨_, execCapture_keeps k rising odd width s, rfl⟩
  | captureRead a k => exact ⟨_, execCaptureRead_keeps a k s, rfl⟩
  | thaw during => exact ⟨_, execThaw_keeps during s, rfl⟩
  | epochPeriodWrite a w => exact ⟨_, execEpochPeriodWrite_keeps a w s, rfl⟩
  | thaw0 during => exact ⟨_, execThaw0_keeps during s, rfl⟩
  | timeUnitReload u => exact ⟨_, execTimeUnitReload_keeps u s, rfl⟩
  | lnkEnable a p => exact ⟨_, execLnkEnable_keeps a p s, rfl⟩
  | lnkDisable a p => exact ⟨_, execLnkDisable_keeps a p s, rfl⟩
  | lnkDownCommand a p => exact ⟨_, execLnkDownCommand_keeps a p s, rfl⟩
  | laneEnergyDetect p => exact ⟨_, execLaneEnergyDetect_keeps p s, rfl⟩
  | laneLockDone p => exact ⟨_, execLaneLockDone_keeps p s, rfl⟩
  | alignDone p => exact ⟨_, execAlignDone_keeps p s, rfl⟩
  | ident p content => exact ⟨_, execIdent_keeps p content s, rfl⟩
  | creditMarker p => exact ⟨_, execCreditMarker_keeps p s, rfl⟩
  | linkUp p => exact ⟨_, execLinkUp_keeps p s, rfl⟩
  | trainingTimeout p => exact ⟨_, execTrainingTimeout_keeps p s, rfl⟩
  | downIdleEnd p => exact ⟨_, execDownIdleEnd_keeps p s, rfl⟩
  | data p frame => exact ⟨_, execData_keeps p frame s, rfl⟩
  | ack p frame => exact ⟨_, execAck_keeps p frame s, rfl⟩
  | nak p frame => exact ⟨_, execNak_keeps p frame s, rfl⟩
  | ackTimer p => exact ⟨_, execAckTimer_keeps p s, rfl⟩
  | nakTimeout p => exact ⟨_, execNakTimeout_keeps p s, rfl⟩
  | replayTimeout p => exact ⟨_, execReplayTimeout_keeps p s, rfl⟩
  | fecBlockDecode p frames parity => exact ⟨_, execFecBlockDecode_keeps p frames parity s, rfl⟩
  | laneLockLost p lane => exact ⟨_, execLaneLockLost_keeps p lane s, rfl⟩
  | reportSend p => exact ⟨_, execReportSend_keeps p s, rfl⟩
  | report p frame => exact ⟨_, execReport_keeps p frame s, rfl⟩
  | reportTimeout p => exact ⟨_, execReportTimeout_keeps p s, rfl⟩
  | settleExpire p => exact ⟨_, execSettleExpire_keeps p s, rfl⟩
  | auditVisit lost => exact ⟨_, execAuditVisit_keeps lost s, rfl⟩
  | handIn r => exact ⟨_, execHandIn_keeps r s, rfl⟩
  | replicaComplete => exact ⟨_, execReplicaComplete_keeps s, rfl⟩
  | fenceDone m => exact ⟨_, execFenceDone_keeps m s, rfl⟩
  | fenceConfirm m => exact ⟨_, execFenceConfirm_keeps m s, rfl⟩
  | custodySettleExpire idx => exact ⟨_, execCustodySettleExpire_keeps idx s, rfl⟩
  | fenceRestore m => exact ⟨_, execFenceRestore_keeps m s, rfl⟩
  | ageProbe idx => exact ⟨_, execAgeProbe_keeps idx s, rfl⟩
  | fenceProbe m => exact ⟨_, execFenceProbe_keeps m s, rfl⟩
  | fenceAnswer m => exact ⟨_, execFenceAnswer_keeps m s, rfl⟩
  | fenceActing m => exact ⟨_, execFenceActing_keeps m s, rfl⟩
  | fenceLoss m => exact ⟨_, execFenceLoss_keeps m s, rfl⟩
  | partnerNoRouteTimeout o => exact ⟨_, execPartnerNoRouteTimeout_keeps o s, rfl⟩
  | takeoverSettleExpire => exact ⟨_, execTakeoverSettleExpire_keeps s, rfl⟩
  | migrationDrainEnd slot => exact ⟨_, execMigrationDrainEnd_keeps slot s, rfl⟩
  | fenceMigrate u => exact ⟨_, execFenceMigrate_keeps u s, rfl⟩
  | fenceIntake u => exact ⟨_, execFenceIntake_keeps u s, rfl⟩
  | migrationOldTargetEmpty u origin source => exact ⟨_, execMigrationOldTargetEmpty_keeps u origin source s, rfl⟩
  | fenceRelease u => exact ⟨_, execFenceRelease_keeps u s, rfl⟩
  | fenceMigrated m => exact ⟨_, execFenceMigrated_keeps m s, rfl⟩
  | lockAcquire a k => exact ⟨_, execLockAcquire_keeps a k s, rfl⟩
  | lockRel a k => exact ⟨_, execLockRel_keeps a k s, rfl⟩
  | lockAbort a k => exact ⟨_, execLockAbort_keeps a k s, rfl⟩
  | lockBreak a k => exact ⟨_, execLockBreak_keeps a k s, rfl⟩
  | lockTimeout k => exact ⟨_, execLockTimeout_keeps k s, rfl⟩
  | masterFault m level => exact ⟨_, execMasterFault_keeps m level s, rfl⟩
  | firnScrub ecc => exact ⟨_, execFirnScrub_keeps ecc s, rfl⟩
  | loadStart a persist => exact ⟨_, execLoadStart_keeps a persist s, rfl⟩
  | loadAbort a => exact ⟨_, execLoadAbort_keeps a s, rfl⟩
  | loadData a w => exact ⟨_, execLoadData_keeps a w s, rfl⟩
  | loadDataOverrun a => exact ⟨_, execLoadDataOverrun_keeps a s, rfl⟩
  | loadVerifyDone side => exact ⟨_, execLoadVerifyDone_keeps side s, rfl⟩
  | loadRestoreDone side => exact ⟨_, execLoadRestoreDone_keeps side s, rfl⟩
  | persistEraseDone => exact ⟨_, execPersistEraseDone_keeps s, rfl⟩
  | flashFail => exact ⟨_, execFlashFail_keeps s, rfl⟩
  | tableCopyEnd t => exact ⟨_, execTableCopyEnd_keeps t s, rfl⟩
  | dtGo a r hold => exact ⟨_, execDtGo_keeps a r hold s, rfl⟩
  | deepThawDrainEnd => exact ⟨_, execDeepThawDrainEnd_keeps s, rfl⟩
  | deepThawCopyEnd => exact ⟨_, execDeepThawCopyEnd_keeps s, rfl⟩
  | rimeCompare active reference upset => exact ⟨_, execRimeCompare_keeps active reference upset s, rfl⟩
  | rdpErase level => exact ⟨_, execRdpErase_keeps level s, rfl⟩
  | barEnable a => exact ⟨_, execBarEnable_keeps a s, rfl⟩
  | barDisable a => exact ⟨_, execBarDisable_keeps a s, rfl⟩
  | barLanesLocked d => exact ⟨_, execBarLanesLocked_keeps d s, rfl⟩
  | barLaneLockLost d lane => exact ⟨_, execBarLaneLockLost_keeps d lane s, rfl⟩
  | barSilenceTimeout d => exact ⟨_, execBarSilenceTimeout_keeps d s, rfl⟩
  | barHelloTimer d => exact ⟨_, execBarHelloTimer_keeps d s, rfl⟩
  | hello d p => exact ⟨_, execHello_keeps d p s, rfl⟩
  | gateState p => exact ⟨_, execGateState_keeps p s, rfl⟩
  | fieldState p => exact ⟨_, execFieldState_keeps p s, rfl⟩
  | credit p => exact ⟨_, execCredit_keeps p s, rfl⟩
  | event p => exact ⟨_, execEvent_keeps p s, rfl⟩
  | written p => exact ⟨_, execWritten_keeps p s, rfl⟩
  | discarded p => exact ⟨_, execDiscarded_keeps p s, rfl⟩
  | vwrite p => exact ⟨_, execVwrite_keeps p s, rfl⟩
  | vresult p => exact ⟨_, execVresult_keeps p s, rfl⟩
  | barSyncReq p => exact ⟨_, execBarSyncReq_keeps p s, rfl⟩
  | barSyncRsp p => exact ⟨_, execBarSyncRsp_keeps p s, rfl⟩
  | timeTrim p => exact ⟨_, execTimeTrim_keeps p s, rfl⟩
  | barThaw p => exact ⟨_, execBarThaw_keeps p s, rfl⟩
  | meter p => exact ⟨_, execMeter_keeps p s, rfl⟩
  | meterAck p => exact ⟨_, execMeterAck_keeps p s, rfl⟩
  | sealRecord p => exact ⟨_, execSeal_keeps p s, rfl⟩
  | sliceStop p => exact ⟨_, execSliceStop_keeps p s, rfl⟩
  | sliceDrained p => exact ⟨_, execSliceDrained_keeps p s, rfl⟩
  | sliceGo p => exact ⟨_, execSliceGo_keeps p s, rfl⟩
  | rxcred d p => exact ⟨_, execRxcred_keeps d p s, rfl⟩
  | rxcredTimer d => exact ⟨_, execRxcredTimer_keeps d s, rfl⟩
  | echoReq d p => exact ⟨_, execEchoReq_keeps d p s, rfl⟩
  | echoRsp d p => exact ⟨_, execEchoRsp_keeps d p s, rfl⟩
  | meterReq p => exact ⟨_, execMeterReq_keeps p s, rfl⟩
  | sealReq p => exact ⟨_, execSealReq_keeps p s, rfl⟩
  | barEventRepeat => exact ⟨_, execBarEventRepeat_keeps s, rfl⟩
  | vwriteRepeat => exact ⟨_, execVwriteRepeat_keeps s, rfl⟩
  | slcCreate a sl pasidEn => exact ⟨_, execSlcCreate_keeps a sl pasidEn s, rfl⟩
  | slcOpen a sl => exact ⟨_, execSlcOpen_keeps a sl s, rfl⟩
  | slcReset a sl => exact ⟨_, execSlcReset_keeps a sl s, rfl⟩
  | slcDestroy a sl => exact ⟨_, execSlcDestroy_keeps a sl s, rfl⟩
  | sliceResetTimeout sl => exact ⟨_, execSliceResetTimeout_keeps sl s, rfl⟩
  | pgConsWrite a sl w => exact ⟨_, execPgConsWrite_keeps a sl w s, rfl⟩
  | pgArmWrite a sl w => exact ⟨_, execPgArmWrite_keeps a sl w s, rfl⟩
  | pgVwWrite a sl w => exact ⟨_, execPgVwWrite_keeps a sl w s, rfl⟩
  | ringRecordWrite w => exact ⟨_, execRingRecordWrite_keeps w s, rfl⟩
  | hostReset => exact ⟨_, execHostReset_keeps s, rfl⟩
  | hostGateSoftReset a => exact ⟨_, execHostGateSoftReset_keeps a s, rfl⟩
  | slcDirtyRead a sl w => exact ⟨_, execSlcDirtyRead_keeps a sl w s, rfl⟩
  | meterRecord => exact ⟨_, execMeterRecord_keeps s, rfl⟩
  | meterSend c => exact ⟨_, execMeterSend_keeps c s, rfl⟩
  | meterAckTimeout c => exact ⟨_, execMeterAckTimeout_keeps c s, rfl⟩
  | sealInterval => exact ⟨_, execSealInterval_keeps s, rfl⟩
  | edwCtrlSeal a => exact ⟨_, execEdwCtrlSeal_keeps a s, rfl⟩
  | sealGapExpire => exact ⟨_, execSealGapExpire_keeps s, rfl⟩
  | sealMacDone => exact ⟨_, execSealMacDone_keeps s, rfl⟩
  | sealProgramDone => exact ⟨_, execSealProgramDone_keeps s, rfl⟩
  | edwRestoreDone => exact ⟨_, execEdwRestoreDone_keeps s, rfl⟩
  | edwDebugWrite a off w => exact ⟨_, execEdwDebugWrite_keeps a off w s, rfl⟩
  | edwLatchedRead a off => exact ⟨_, execEdwLatchedRead_keeps a off s, rfl⟩
  | pwrReqWake a d => exact ⟨_, execPwrReqWake_keeps a d s, rfl⟩
  | pwrReqOff a d => exact ⟨_, execPwrReqOff_keeps a d s, rfl⟩
  | wakeGrant side => exact ⟨_, execWakeGrant_keeps side s, rfl⟩
  | pwrGoodRise side d => exact ⟨_, execPwrGoodRise_keeps side d s, rfl⟩
  | domainReleaseEnd side d => exact ⟨_, execDomainReleaseEnd_keeps side d s, rfl⟩
  | domainRampFail side d => exact ⟨_, execDomainRampFail_keeps side d s, rfl⟩
  | pwrGoodFall side d => exact ⟨_, execPwrGoodFall_keeps side d s, rfl⟩
  | sleepGo a => exact ⟨_, execSleepGo_keeps a s, rfl⟩
  | sleepEntryEdge => exact ⟨_, execSleepEntryEdge_keeps s, rfl⟩
  | pwrWake => exact ⟨_, execPwrWake_keeps s, rfl⟩
  | sleepMakeup edges => exact ⟨_, execSleepMakeup_keeps edges s, rfl⟩
  | rstCluster k => exact ⟨_, execRstCluster_keeps k s, rfl⟩
  | rstRegion r => exact ⟨_, execRstRegion_keeps r s, rfl⟩
  | rstSoftInstance => exact ⟨_, execRstSoftInstance_keeps s, rfl⟩
  | rstDie => exact ⟨_, execRstDie_keeps s, rfl⟩
  | rstPackage => exact ⟨_, execRstPackage_keeps s, rfl⟩
  | rstSystem => exact ⟨_, execRstSystem_keeps s, rfl⟩
  | powerOn => exact ⟨_, execPowerOn_keeps s, rfl⟩
  | tclkLock => exact ⟨_, execTclkLock_keeps s, rfl⟩
  | firnInitEnd errs bistFail => exact ⟨_, execFirnInitEnd_keeps errs bistFail s, rfl⟩
  | startupLoadEnd => exact ⟨_, execStartupLoadEnd_keeps s, rfl⟩
  | linkPhaseEnd => exact ⟨_, execLinkPhaseEnd_keeps s, rfl⟩
  | registerWrite a addr w => exact ⟨_, execRegisterWrite_keeps a addr w s, rfl⟩
  | stagedViewWrite a off w => exact ⟨_, execStagedViewWrite_keeps a off w s, rfl⟩
  | bitAliasWrite a off bit v => exact ⟨_, execBitAliasWrite_keeps a off bit v s, rfl⟩
  | traceDataRead a => exact ⟨_, execTraceDataRead_keeps a s, rfl⟩
  | traceRdptrWrite a w => exact ⟨_, execTraceRdptrWrite_keeps a w s, rfl⟩
  | traceEnable a => exact ⟨_, execTraceEnable_keeps a s, rfl⟩
  | testInject a o => exact ⟨_, execTestInject_keeps a o s, rfl⟩
  | ltestStart a => exact ⟨_, execLtestStart_keeps a s, rfl⟩
  | ltestStop a => exact ⟨_, execLtestStop_keeps a s, rfl⟩
  | registerRead a addr ecc => exact ⟨_, execRegisterRead_keeps a addr ecc s, rfl⟩
  | barFrameReject d frame => exact ⟨_, execBarFrameReject_keeps d frame s, rfl⟩
  | linkFrameReject p frame => exact ⟨_, execLinkFrameReject_keeps p frame s, rfl⟩
  | barTransmitSlot d => exact ⟨_, execBarTransmitSlot_keeps d s, rfl⟩
  | masterPortWriteResponse trace err => exact ⟨_, execMasterPortWriteResponse_keeps trace err s, rfl⟩
  | persistWordProgrammed => exact ⟨_, execPersistWordProgrammed_keeps s, rfl⟩
  | resetRelease idPkg idDie testEn rdp => exact ⟨_, execResetRelease_keeps idPkg idDie testEn rdp s, rfl⟩
  | bscModeChange level => exact ⟨_, execBscModeChange_keeps level s, rfl⟩
  | checkerLocked p lane errs => exact ⟨_, execCheckerLocked_keeps p lane errs s, rfl⟩
  | checkerLockLost p lane errs => exact ⟨_, execCheckerLockLost_keeps p lane errs s, rfl⟩

/-- Settles O5: of the guarded parts, each command leaves those alone that its own frame lemma does not name. -/
theorem whatChangesWhat : Obligations.WhatChangesWhat := by
  intro c s t hstep p hp hc
  obtain ⟨w, hkeep, hw⟩ := exec_leaves c s
  exact (hkeep.next t hstep).same p fun h => hc (mem_mayChange_of_leavable hw hp h)

end Sys2Proof.Machine

namespace Sys2Proof.Machine

set_option Elab.async false

-- the staged copy, the W1 words and the locks stay well formed (R321, R322, R487, R490)

/-- Where the locks of a state are owned once and its lists canonical, they are in t too. -/
structure Sound (s t : State) : Prop where
  lists : listsCanonical s → listsCanonical t
  locks : locksInv s → locksInv t

theorem Sound.refl {s : State} : Sound s s := ⟨id, id⟩

theorem Sound.trans {s t u : State} (h : Sound s t) (k : Sound t u) : Sound s u := ⟨k.lists ∘ h.lists, k.locks ∘ h.locks⟩

/-- A state that differs in other parts alone. -/
theorem Sound.of_eq {s t : State} (h1 : t.staged = s.staged) (h2 : t.once = s.once) (h3 : t.lock = s.lock) : Sound s t := by
  constructor
  · unfold listsCanonical
    rw [h1, h2, h3]
    exact id
  · unfold locksInv State.lockOf
    rw [h3]
    exact id

theorem Keeps.sound {w : List Part} {s t : State} (h : Keeps w s t) (h1 : Part.staged ∉ w := by decide) (h2 : Part.once ∉ w := by decide)
    (h3 : Part.lock ∉ w := by decide) : Sound s t := Sound.of_eq (h.same _ h1) (h.same _ h2) (h.same _ h3)

/-- What follows an operation may be one that leaves the tables alone. -/
theorem Sound.keeps {w : List Part} {s t u : State} (h : Sound s t) (k : Keeps w t u) (h1 : Part.staged ∉ w := by decide)
    (h2 : Part.once ∉ w := by decide) (h3 : Part.lock ∉ w := by decide) : Sound s u := h.trans (k.sound h1 h2 h3)

theorem Sound.ite {s t u : State} {c : Prop} [Decidable c] (ht : Sound s t) (hu : Sound s u) : Sound s (if c then t else u) := by
  split
  · exact ht
  · exact hu

theorem Sound.each {α : Type} {f : α → State → State} {l : List α} {s t : State} (hf : ∀ a s, Sound s (f a s)) (h : Sound s t) :
    Sound s (t.each l f) := by
  unfold State.each
  induction l generalizing t with
  | nil => exact h
  | cons a l ih => exact ih (h.trans (hf a t))

/-- The same of an operation that may refuse. -/
def SoundO (s : State) (o : Option State) : Prop := ∀ t, o = some t → Sound s t

theorem SoundO.some {s t : State} (h : Sound s t) : SoundO s (some t) := by
  intro u hu
  cases hu
  exact h

theorem SoundO.none {s : State} : SoundO s none := by
  intro u hu
  cases hu

theorem SoundO.ite {s : State} {a b : Option State} {c : Prop} [Decidable c] (ha : SoundO s a) (hb : SoundO s b) :
    SoundO s (if c then a else b) := by
  split
  · exact ha
  · exact hb

theorem KeepsO.sound {w : List Part} {s : State} {o : Option State} (h : KeepsO w s o) (h1 : Part.staged ∉ w := by decide)
    (h2 : Part.once ∉ w := by decide) (h3 : Part.lock ∉ w := by decide) : SoundO s o := fun t ht => (h.some t ht).sound h1 h2 h3

/-- The same of a command. -/
def SoundX (s : State) (o : Host.Outcome State Fault Refusal) : Prop := ∀ t, o = .next t → Sound s t

theorem SoundX.run {s : State} {f : State → State} (hf : ∀ s, Sound s (f s)) : SoundX s (run f s) := by
  intro t ht
  cases ht
  have bare : Sound s s.bare := Sound.of_eq rfl rfl rfl
  exact (bare.trans (hf s.bare)).trans (Sound.of_eq rfl rfl rfl)

theorem SoundX.runClk {s : State} {f : State → State} (hf : ∀ s, Sound s (f s)) : SoundX s (runClk f s) :=
  SoundX.run fun s => Sound.ite (hf s) Sound.refl

theorem SoundX.runWf {s : State} {ok : Bool} {f : State → State} (hf : ∀ s, Sound s (f s)) : SoundX s (runWf ok f s) := by
  unfold Machine.runWf
  split
  · exact SoundX.run hf
  · exact fun _ ht => by cases ht

theorem KeepsX.sound {w : List Part} {s : State} {o : Host.Outcome State Fault Refusal} (h : KeepsX w s o) (h1 : Part.staged ∉ w)
    (h2 : Part.once ∉ w) (h3 : Part.lock ∉ w) : SoundX s o := fun t ht => (h.next t ht).sound h1 h2 h3

-- the staged copy (R199, R343, R490)

/-- A write of the staged copy keeps its canonical form. -/
theorem sound_setStaged (s : State) (k : Nat) (v : Option Nat) : Sound s { s with staged := tset none s.staged k v } := by
  refine ⟨fun h => ?_, id⟩
  obtain ⟨hs, ho, hl⟩ := h
  exact ⟨twf_tset k v hs, ho, hl⟩

theorem stageWord_sound (off w : Nat) (s : State) : Sound s (stageWord off w s) := by
  unfold stageWord
  split
  · exact Sound.each (fun _ _ => sound_setStaged ..) Sound.refl
  · exact Sound.refl

theorem unstageWord_sound (off : Nat) (s : State) : Sound s (unstageWord off s) := by
  unfold unstageWord
  split
  · exact Sound.each (fun _ _ => sound_setStaged ..) Sound.refl
  · exact Sound.refl

theorem commitWord_sound (off : Nat) (s : State) : Sound s (commitWord off s) := by
  unfold commitWord
  split
  · refine ((Sound.each (fun f u => ?_) Sound.refl).trans (unstageWord_sound ..)).trans (Sound.of_eq rfl rfl rfl)
    split
    · exact (State.wr_keeps ..).sound
    · exact Sound.refl
  · exact Sound.refl

-- loads (R328, R342, R343, R359)

theorem takeDatum_sound (d : Side) (seg : Nat) (c : Chunk) (w : Word) (s : State) : Sound s (takeDatum d seg c w s) := by
  unfold takeDatum
  dsimp only
  have fails (r : Nat) : Sound s (failLoad d r s) := (failLoad_keeps ..).sound
  have taken (l : LoadS) : Sound s (setLoad d l s) := (setLoad_keeps ..).sound
  refine Sound.ite (fails _) (Sound.ite (fails _) (Sound.ite (fails _) (Sound.ite ?_ (Sound.ite ?_ ?_))))
  · split
    · refine Sound.ite (Sound.keeps (Sound.each ?_ (taken _)) (State.wr_keeps ..)) (Sound.each ?_ (taken _))
      all_goals exact fun _ _ => (State.wr_keeps ..).sound
    · exact taken _
  · exact (taken _).trans (stageWord_sound ..)
  · exact (taken _).trans (Sound.of_eq rfl rfl rfl)

theorem takeBody_header_sound (d : Side) (w : Word) (l : LoadS) (room : Nat) (s : State) : Sound s (takeBody.header d w l room s) := by
  unfold takeBody.header
  split
  · exact Sound.ite (failLoad_keeps ..).sound (setLoad_keeps ..).sound
  · exact Sound.ite (setLoad_keeps ..).sound (failLoad_keeps ..).sound

theorem takeBody_sound (d : Side) (i : Nat) (w : Word) (s : State) : Sound s (takeBody d i w s) := by
  unfold takeBody
  dsimp only
  split
  · exact Sound.ite Sound.refl (failLoad_keeps ..).sound
  · split
    · exact Sound.ite (takeBody_header_sound ..) (takeDatum_sound ..)
    · exact takeBody_header_sound ..

theorem takeWord_sound (d : Side) (w : Word) (s : State) : Sound s (takeWord d w s) := by
  have word {u : State} (h : Sound s u) (c c' : Prop) [Decidable c] [Decidable c'] (r i : Nat) :
      Sound s (if c then if c' then u else failLoad d r u else takeBody d i w u) :=
    Sound.ite (Sound.ite h (h.keeps (failLoad_keeps ..))) (h.trans (takeBody_sound ..))
  unfold takeWord
  dsimp only
  refine Sound.ite (Sound.ite (Sound.keeps ?_ (setLoad_keeps ..)) (Sound.keeps ?_ (failLoad_keeps ..))) ?_
  all_goals exact word (setLoad_keeps ..).sound ..

theorem drain_sound (d : Side) (n : Nat) (s : State) : Sound s (drain d n s) := by
  induction n generalizing s with
  | zero => exact Sound.refl
  | succ n ih =>
    have once (l : LoadS) : Sound s (setLoad d l s) := (setLoad_keeps ..).sound
    have twice (l l' : LoadS) : Sound s (setLoad d l' (setLoad d l s)) := (once l).keeps (setLoad_keeps ..)
    unfold drain
    dsimp only
    refine Sound.ite (once _) ?_
    split
    · exact once _
    · refine Sound.trans ?_ ((takeWord_sound ..).trans (ih _))
      exact Sound.ite ((twice ..).keeps (State.emit_keeps ..)) (Sound.ite ((twice ..).keeps (State.emit_keeps ..)) (twice ..))

theorem pumpLoad_sound (d : Side) (s : State) : Sound s (pumpLoad d s) := by
  unfold pumpLoad
  dsimp only
  split
  · exact Sound.ite (((drain_sound ..).keeps (setLoad_keeps ..)).trans ((drain_sound ..).keeps (respond_keeps ..))) (drain_sound ..)
  · exact drain_sound ..

theorem setLoad_pumpLoad_sound (d : Side) (l : LoadS) (s : State) : Sound s (pumpLoad d (setLoad d l s)) :=
  (setLoad_keeps ..).sound.trans (pumpLoad_sound ..)

theorem restoreHeld_sound (d : Side) (s : State) : Sound s (restoreHeld d s) :=
  Sound.each (fun _ _ => Sound.ite (unstageWord_sound ..) (Sound.of_eq rfl rfl rfl)) Sound.refl

theorem loadWord_sound (d : Side) (a : Access) (w : Word) (s : State) : Sound s (loadWord d a w s) :=
  Sound.ite ((setLoad_pumpLoad_sound ..).keeps (respond_keeps ..)) (setLoad_keeps ..).sound

theorem bootFrom_sound (blk twin : Bool) (s : State) : Sound s (bootFrom blk twin s) := setLoad_pumpLoad_sound ..

theorem startBoot_sound (s : State) : Sound s (startBoot s) := by
  have marks : Sound s (readMarks (s.each (List.range 44) fun i s => s.emit (.ld 3 0 i 0))) :=
    Sound.keeps (Sound.each (fun _ _ => (State.emit_keeps ..).sound) Sound.refl) (readMarks_keeps _)
  unfold startBoot
  exact (marks.keeps (State.wr_keeps ..)).trans (bootFrom_sound ..)

theorem tryBoot_sound (s : State) : Sound s (tryBoot s) := by
  have booted : Sound s { s with su := { s.su with booted := true } } := Sound.of_eq rfl rfl rfl
  exact Sound.ite (booted.trans (startBoot_sound _)) Sound.refl

theorem enterLoad_sound (s : State) : Sound s (enterLoad s) := by
  have phase : Sound s { s with su := { s.su with phase := 3, booted := false } } := Sound.of_eq rfl rfl rfl
  exact Sound.ite (enterLink_keeps s).sound ((Sound.each (fun _ _ => (wakeSys_keeps ..).sound) phase).trans (tryBoot_sound _))

end Sys2Proof.Machine

namespace Sys2Proof.Machine

set_option Elab.async false

-- the sequence locks (R321, R322)

/-- A lock may take a new content that keeps its staging set bounded, and its owner while it is held. -/
theorem sound_setLock {s : State} {i : Nat} {l : LockS} (h : locksInv s → l.set.length ≤ 16)
    (hfree : locksInv s → l.held = false → l.set = [] ∧ l.ovf = false)
    (hheld : locksInv s → l.held = true → ∀ j : Fin 64, j.val ≠ i → (s.lockOf j).held = true → (s.lockOf j).owner ≠ l.owner) :
    Sound s (s.setLock i l) := by
  refine ⟨fun hc => ?_, fun hi => ?_⟩
  · obtain ⟨hs, ho, hl⟩ := hc
    exact ⟨hs, ho, twf_tset i l hl⟩
  · obtain ⟨hone, hset⟩ := hi
    have at_ (j : Fin 64) (hj : j.val = i) : (s.setLock i l).lockOf j = l := by rw [hj]; exact State.lockOf_setLock ..
    have off (j : Fin 64) (hj : j.val ≠ i) : (s.setLock i l).lockOf j = s.lockOf j := State.lockOf_setLock_ne s l hj
    refine ⟨fun j k => ?_, fun j => ?_⟩
    · by_cases hj : j.val = i <;> by_cases hk : k.val = i
      · exact fun _ _ _ => Fin.ext (hj.trans hk.symm)
      · rw [at_ j hj, off k hk]
        exact fun h1 h2 h3 => absurd h3.symm (hheld ⟨hone, hset⟩ h1 k hk h2)
      · rw [at_ k hk, off j hj]
        exact fun h1 h2 h3 => absurd h3 (hheld ⟨hone, hset⟩ h2 j hj h1)
      · rw [off j hj, off k hk]
        exact hone j k
    · by_cases hj : j.val = i
      · rw [at_ j hj]
        exact ⟨h ⟨hone, hset⟩, hfree ⟨hone, hset⟩⟩
      · rw [off j hj]
        exact hset j

/-- A lock that ends free, with no set. -/
theorem sound_freeLock {s : State} {i : Nat} {l : LockS} (hh : l.held = false) (hs : l.set = []) (ho : l.ovf = false) :
    Sound s (s.setLock i l) :=
  sound_setLock (fun _ => by rw [hs]; decide) (fun _ _ => ⟨hs, ho⟩) fun _ h => absurd (hh ▸ h) (by decide)

/-- The set of a held lock changes within its bound. -/
theorem sound_lockSet {s : State} {i : Fin 64} {l : LockS} (hh : (s.lockOf i).held = true) (hl : l.held = true) (ho : l.owner = (s.lockOf i).owner)
    (hs : locksInv s → l.set.length ≤ 16) : Sound s (s.setLock i l) := by
  refine sound_setLock hs (fun _ h => absurd (hl ▸ h) (by decide)) fun hi _ j hj hheld howner => hj ?_
  exact congrArg Fin.val (hi.1 j i hheld hh (howner.trans ho))

theorem lockFree_sound (i : Nat) (s : State) : Sound s (lockFree i s) := sound_freeLock rfl rfl rfl

theorem lockRelease_sound (i : Nat) (s : State) : Sound s (lockRelease i s) := by
  have freed (c : Prop) [Decidable c] : Sound s (lockFree i (if c then s.raise Reg.LOAD_STATUS_COLL else s)) :=
    (Sound.ite (State.raise_keeps ..).sound Sound.refl).trans (lockFree_sound ..)
  exact Sound.ite (freed _) (Sound.each (fun _ _ => stageWord_sound ..) (freed _))

theorem lockBreak_sound (i c : Nat) (s : State) : Sound s (lockBreak i c s) := by
  refine Sound.ite Sound.refl (Sound.keeps ((lockFree_sound i s).trans (sound_freeLock ?_ ?_ ?_)) (raiseInt_keeps ..))
  all_goals rw [(lockFree_frees i s).1]

theorem lockRead_sound (i : Nat) (mid : BitVec 4) (dbg : Bool) (s : State) : Sound s (lockRead i mid dbg s).2 := by
  unfold lockRead
  dsimp only
  split
  · exact Sound.refl
  · rename_i h
    rw [Bool.or_eq_true, Bool.or_eq_true, lockHeldBy_isSome] at h
    exact sound_setLock (fun _ => Nat.zero_le _) (fun _ h => nomatch h) fun _ _ j _ hj ho => h (.inr ⟨j, hj, ho⟩)

/-- The lock that takes a master's staged writes is held. -/
theorem lockOwned_held {s : State} {a : Access} {i : Nat} (h : lockOwned s a = some i) : i < 64 ∧ (s.lockOf i).held = true := by
  unfold lockOwned at h
  split at h
  · have hmem := List.mem_of_find?_eq_some h
    have hp := List.find?_some h
    rw [Bool.and_eq_true] at hp
    exact ⟨List.mem_range.mp hmem, hp.1⟩
  · cases h

theorem lockStage_sound {s : State} {i : Nat} (hi : i < 64) (hh : (s.lockOf i).held = true) (off : Nat) (w : Word) :
    SoundO s (lockStage i off w s) := by
  unfold lockStage
  dsimp only
  refine SoundO.ite (SoundO.some ?_) ?_
  · refine sound_lockSet (i := ⟨i, hi⟩) hh hh rfl fun hinv => ?_
    rw [List.length_map]
    exact (hinv.2 ⟨i, hi⟩).1
  · split
    · rename_i hroom
      refine SoundO.some (sound_lockSet (i := ⟨i, hi⟩) hh hh rfl fun _ => ?_)
      rw [List.length_append]
      exact hroom
    · exact SoundO.none

theorem stagePart_sound (a : Access) (p : Spot) (w : Word) (s : State) : Sound s (stagePart a p w s).1 := by
  unfold stagePart
  have staged (c : Prop) [Decidable c] (f : Fld) : Sound s (if c then (s.raise f, false) else (stageWord p.off w.toNat s, true)).1 := by
    split
    · exact (State.raise_keeps ..).sound
    · exact stageWord_sound ..
  split
  · exact Sound.refl
  · split
    case h_1 i hi =>
      obtain ⟨hlt, hheld⟩ := lockOwned_held hi
      split
      case h_1 t ht => exact lockStage_sound hlt hheld _ _ t ht
      case h_2 => exact sound_lockSet (i := ⟨i, hlt⟩) hheld hheld rfl fun hinv => (hinv.2 ⟨i, hlt⟩).1
    case h_2 =>
      split
      · exact staged ..
      · exact staged ..

theorem lockWrite_sound (a : Access) (i w : Nat) (s : State) : SoundO s (lockWrite a i w s) := by
  have both :
      Sound s (if Config.relWins s.fresh then lockRelease i { s with fresh := s.fresh + 1 } else lockFree i { s with fresh := s.fresh + 1 }) := by
    have fresh : Sound s { s with fresh := s.fresh + 1 } := Sound.of_eq rfl rfl rfl
    exact Sound.ite (fresh.trans (lockRelease_sound ..)) (fresh.trans (lockFree_sound ..))
  unfold lockWrite
  exact SoundO.ite SoundO.none <| SoundO.ite SoundO.none <| SoundO.ite (SoundO.some (lockBreak_sound ..)) <|
    SoundO.ite (SoundO.some both) <| SoundO.ite (SoundO.some (lockRelease_sound ..)) <|
    SoundO.ite (SoundO.some (lockFree_sound ..)) (SoundO.some Sound.refl)

-- resets (R461, R466)

/-- The filter of a table keeps its canonical form. -/
theorem twf_filter {α : Type} [DecidableEq α] {d : α} {t : Tbl α} (p : Nat × α → Bool) (h : twf d t = true) : twf d (t.filter p) = true := by
  induction t with
  | nil => rfl
  | cons e t ih =>
    obtain ⟨hv, hlt, ht⟩ := twf_cons.1 h
    rw [List.filter_cons]
    split
    · exact twf_cons.2 ⟨hv, fun x hx => hlt x (List.mem_of_mem_filter hx), ih ht⟩
    · exact ih ht

/-- A state whose staged copy is empty and whose locks are those of s. -/
theorem sound_unstaged {s t : State} (h1 : t.staged = []) (h2 : t.once = s.once) (h3 : t.lock = s.lock) : Sound s t := by
  have locks : Sound s { t with staged := s.staged } := Sound.of_eq rfl h2 h3
  refine locks.trans ⟨fun h => ?_, id⟩
  obtain ⟨-, ho, hl⟩ := h
  exact ⟨by rw [h1]; rfl, ho, hl⟩

theorem sound_filterOnce (p : Nat × Bool → Bool) (s : State) : Sound s { s with once := s.once.filter p } := by
  refine ⟨fun h => ?_, id⟩
  obtain ⟨hs, ho, hl⟩ := h
  exact ⟨hs, twf_filter p ho, hl⟩

/-- What the reset of a die or of the host gate does before it clears the state: bursts, domains, offers and a cut persist. -/
def resetFirst (s : State) : State :=
  let bursts := (List.range 4).filter fun r => !(s.segOf r).bursts.isEmpty
  let s := s.each bursts fun r s => s.emit (.act r 0 0 false false false false true)
  let s := cutOffers (domainsOff (restoreHeld .field s))
  if persistCut s.img.load then stampPersist s else s

theorem resetFirst_keeps (s : State) : Keeps [.out, .staged, .img, .pwr, .regs, .src, .acc, .firn, .xb, .trc] s (resetFirst s) := by
  have cut : Keeps [.out, .staged, .img, .pwr, .regs, .src, .acc, .firn, .xb, .trc] s (cutOffers (domainsOff (restoreHeld .field
      (s.each ((List.range 4).filter fun r => !(s.segOf r).bursts.isEmpty) fun r s => s.emit (.act r 0 0 false false false false true))))) :=
    Keeps.step (cutOffers_keeps _) (by decide) <| Keeps.step (domainsOff_keeps _) (by decide) <|
      Keeps.step (restoreHeld_keeps ..) (by decide) <| Keeps.each (fun _ _ => (State.emit_keeps ..).mono (by decide)) Keeps.refl
  exact Keeps.ite (Keeps.step (stampPersist_keeps _) (by decide) cut) cut

theorem resetInstance_sound (die : Bool) (s : State) : Sound s (resetInstance die s) := by
  have k := resetFirst_keeps s
  have once (c : Prop) [Decidable c] (u : State) : Sound u (if c then { u with once := u.once.filter fun e => decide (0x100000 ≤ e.1) } else u) :=
    Sound.ite (sound_filterOnce ..) Sound.refl
  unfold resetInstance
  refine Sound.each (fun _ _ => lockBreak_sound ..) (Sound.each (fun _ _ => (State.setSeg_keeps ..).sound)
    (Sound.keeps (Sound.keeps (Sound.trans ?_ (once ..)) (resetRegs_keeps ..)) (rebuildHostQ_keeps ..)))
  refine Sound.each (fun _ _ => (resetPort_keeps ..).sound) ?_
  exact sound_unstaged rfl (k.same .once (by decide)) (k.same .lock (by decide))

end Sys2Proof.Machine

namespace Sys2Proof.Machine

set_option Elab.async false

theorem dieReset_sound (c : Nat) (s : State) : Sound s (dieReset c s) := by
  have begun : Sound s (startFrom c false (resetInstance true s)) := (resetInstance_sound ..).keeps (startFrom_keeps ..)
  exact begun.keeps (Keeps.su (w := [.su]) (by decide) Keeps.refl)

/-- A state without a staged word, a W1 word written or a lock held. -/
theorem sound_cleared {s t : State} (h1 : t.staged = []) (h2 : t.once = []) (h3 : t.lock = []) : Sound s t := by
  have free (i : Nat) : t.lockOf i = {} := by unfold State.lockOf; rw [h3]; rfl
  refine ⟨fun _ => by rw [listsCanonical, h1, h2, h3]; exact ⟨rfl, rfl, rfl⟩, fun _ => ⟨fun i j h => ?_, fun i => ?_⟩⟩
  · rw [free] at h
    cases h
  · rw [free]
    exact ⟨Nat.zero_le _, fun _ => ⟨rfl, rfl⟩⟩

theorem coldReset_sound (c : Nat) (s : State) : Sound s (coldReset c s) := sound_cleared rfl rfl rfl

theorem resetRequest_sound (kind index : Nat) (s : State) : SoundO s (resetRequest kind index s) := by
  have noted : Sound s (noteReset kind index s) := (noteReset_keeps ..).sound
  unfold resetRequest
  dsimp only
  split
  · exact SoundO.some (noted.keeps (resetCore_keeps ..))
  · exact SoundO.some (noted.keeps (resetCampion_keeps ..))
  · exact SoundO.ite (SoundO.some (noted.keeps (resetCluster_keeps ..))) SoundO.none
  · exact SoundO.ite (SoundO.some (noted.keeps (resetRegion_keeps ..))) SoundO.none
  · exact SoundO.some ((noted.trans (resetInstance_sound ..)).keeps (startFrom_keeps ..))
  · exact SoundO.none

-- thaws (R198, R199)

theorem commitS2_sound (r : Nat) (s : State) : Sound s (commitS2 r s) := by
  have words : Sound s (s.each (regWords s.img.load (0x30 + r)) fun i s => commitWord (4 * i) s) :=
    Sound.each (fun _ _ => commitWord_sound ..) Sound.refl
  exact (Sound.ite (words.keeps (exchange_keeps ..)) words).keeps (partDone_keeps ..)

theorem commitPart1_sound (s : State) : Sound s (commitPart1 s) :=
  Sound.keeps (Sound.each (fun _ _ => (exchange_keeps ..).sound) (Sound.each (fun _ _ => commitWord_sound ..) Sound.refl)) (partDone_keeps ..)

theorem commitFirst_sound (migrate : Bool) (due : Nat → Bool) (s : State) : Sound s (commitFirst migrate due s) := by
  have part1 {u : State} (h : Sound s u) (c : Prop) [Decidable c] : Sound s (if c then commitPart1 u else u) :=
    Sound.ite (h.trans (commitPart1_sound _)) h
  have s5 {u : State} (h : Sound s u) (c : Prop) [Decidable c] : Sound s (if c then commitS5 u else u) :=
    Sound.ite (h.keeps (commitS5_keeps _)) h
  have caches {u : State} (h : Sound s u) (c : Prop) [Decidable c] : Sound s (if c then invalidateCaches u else u) :=
    Sound.ite (h.keeps (invalidateCaches_keeps _)) h
  have spill {u : State} (h : Sound s u) (c : Prop) [Decidable c] : Sound s (if c then { u with xb := { u.xb with stopped := false } } else u) :=
    Sound.ite (h.trans (Sound.of_eq rfl rfl rfl)) h
  unfold commitFirst
  refine Sound.keeps (Sound.keeps (Sound.keeps ?_ (discardDisabled_keeps _)) (migrateAll_keeps ..)) (reroute_keeps ..)
  refine Sound.keeps (Sound.each (fun _ _ => (startResync_keeps ..).sound) ?_) (freeFull_keeps _)
  exact spill (caches (s5 (part1 (Sound.each (fun _ _ => commitWord_sound ..) Sound.refl) _) _) _) _

theorem commitPhase_sound (w : Wires) (migrate : Bool) (due : Nat → Bool) (s2 : List Nat) (s : State) :
    Sound s (commitPhase w migrate due s2 s).2 := by
  unfold commitPhase
  refine Sound.keeps (Sound.each (fun r u => (commitS2_sound r u).keeps (releaseSpare_keeps ..)) ?_) (thawCycle_keeps ..)
  refine Sound.keeps (Sound.each (fun _ _ => (designate_keeps ..).sound) ?_) (thawCycles_keeps ..)
  exact Sound.each commitS2_sound (commitFirst_sound ..)

theorem runThaw_sound (e : EpochS) (zero : Bool) (during : List ThawInput) (s : State) : Sound s (runThaw e zero during s) := by
  unfold runThaw
  dsimp only
  have drained (w : Wires) (n : Nat) : Sound s (thawCycles w n (drainAll (freeze w e s))) :=
    ((freeze_keeps ..).sound.keeps (drainAll_keeps _)).keeps (thawCycles_keeps ..)
  refine Sound.keeps (Sound.trans ?_ (commitPhase_sound ..)) (closeThaw_keeps ..)
  exact Sound.ite (Sound.each (fun _ _ => (partDone_keeps ..).sound) (drained ..)) (drained ..)

theorem thaw_sound (during : List ThawInput) (s : State) : SoundX s (exec (.thaw during) s) :=
  SoundX.run fun _ => Sound.ite Sound.refl (runThaw_sound ..)

theorem thaw0_sound (during : List ThawInput) (s : State) : SoundX s (exec (.thaw0 during) s) := by
  refine SoundX.runClk fun s => Sound.ite Sound.refl (Sound.keeps (Sound.keeps ?_ (afterThaw0_keeps _)) (sendFieldState_keeps _))
  have opened : Sound s { s with su := { s.su with open_ := true, phase := 6 } } := Sound.of_eq rfl rfl rfl
  exact opened.trans (runThaw_sound ..)

theorem rxBar_sound (d : Side) (typ : BitVec 8) {f : State → State} (hf : ∀ s, Sound s (f s)) (s : State) : Sound s (rxBar d typ f s) :=
  Sound.ite Sound.refl (Sound.keeps ((setBar_keeps ..).sound.trans (hf _)) (drainEntries_keeps ..))

/-- A part of the host gate takes a new content, and a register word may be raised. -/
theorem sound_raiseIf {s u : State} (f : Fld) (g : GateS) (c : Prop) [Decidable c] (h : Sound s u) :
    Sound s (if c then { u with gate := g }.raise f else { u with gate := g }) := by
  have gated : Sound s { u with gate := g } := h.trans (Sound.of_eq rfl rfl rfl)
  exact Sound.ite (gated.keeps (State.raise_keeps ..)) gated

theorem barThaw_sound (p : BitVec 128) (s : State) : SoundX s (exec (.barThaw p) s) := by
  refine SoundX.run fun s => rxBar_sound .host 0x0D (fun s => ?_) s
  have staged (l : List Nat) : Sound s (s.each l commitWord) := Sound.each commitWord_sound Sound.refl
  refine Sound.keeps (Sound.ite (Sound.each (fun _ _ => (partDone_keeps ..).sound) ?_) (staged _)) (grantCredit_keeps ..)
  have loaded (l l' : List Nat) : Sound s ((s.each l commitWord).each l' fun i s => commitWord (0x100000 + 4 * i) s) :=
    Sound.each (fun _ _ => commitWord_sound ..) (staged _)
  split
  · exact sound_raiseIf _ _ _ (loaded ..)
  · exact loaded ..

-- register accesses (R321, R322, R483, R487)

theorem w1Part_sound (p : Spot) (w : Nat) (s : State) : Sound s (w1Part p w s).1 := by
  unfold w1Part
  dsimp only
  split
  · exact Sound.refl
  · split
    · exact Sound.refl
    · have written (l : List FldSpec) : Sound s (s.each l fun f s => s.wr (f.at p.off) (bits w f.lo f.w)) :=
        Sound.each (fun _ _ => (State.wr_keeps ..).sound) Sound.refl
      refine (written _).trans ⟨fun h => ?_, id⟩
      obtain ⟨hs, ho, hl⟩ := h
      have marked := twf_tset p.off true ho
      exact ⟨hs, marked, hl⟩

theorem effect1_sound (a : Access) (p : Spot) (w : Nat) (old s : State) : SoundO s (effect1 a p w old s) := by
  unfold effect1
  dsimp only
  split
  · exact SoundO.some (Sound.ite (failCampion_keeps ..).sound Sound.refl)
  · split
    · exact SoundO.some (completeEffect_keeps ..).sound
    · exact SoundO.none
  · exact SoundO.some (askFills_keeps ..).sound
  · exact SoundO.some (Sound.each (fun _ _ => (predWritten_keeps ..).sound) Sound.refl)
  · exact SoundO.some (predWritten_keeps ..).sound
  · exact SoundO.some (predWritten_keeps ..).sound
  · exact SoundO.some (nextWritten_keeps ..).sound
  · exact SoundO.some (periodWritten_keeps ..).sound
  · exact SoundO.some (arbSync_keeps ..).sound
  · exact SoundO.some (arbSync_keeps ..).sound
  · exact SoundO.some (arbSync_keeps ..).sound
  · exact SoundO.some (lnkWritten_keeps ..).sound
  · exact lockWrite_sound _ _ _ _
  · exact SoundO.some Sound.refl

theorem effect2_sound (p : Spot) (w : Nat) (old s : State) : SoundO s (effect2 p w old s) := by
  have same : SoundO s (some s) := SoundO.some Sound.refl
  unfold effect2
  dsimp only
  split
  · exact (loadCtrl_keeps ..).sound
  · exact SoundO.ite (deepRequest_keeps ..).sound same
  · exact SoundO.some (Sound.ite (pwrRequest_keeps ..).sound Sound.refl)
  · exact SoundO.ite (SoundO.ite (SoundO.some (Sound.of_eq rfl rfl rfl)) SoundO.none) same
  · exact SoundO.ite (resetRequest_sound _ _ _) same
  · exact SoundO.some (barEnWritten_keeps ..).sound
  · exact SoundO.some (traceCtrlWritten_keeps ..).sound
  · exact (traceMove_keeps ..).sound
  · exact SoundO.some (noteUnread_keeps ..).sound
  · exact (testCtrlWrite_keeps ..).sound
  · exact SoundO.ite (sealWrite_keeps ..).sound same
  · exact SoundO.some (Sound.ite Sound.refl (sendGateState_keeps ..).sound)
  · exact SoundO.some (Sound.ite (slcCommand_keeps ..).sound Sound.refl)
  all_goals first
    | exact SoundO.ite same SoundO.none
    | skip
  · exact SoundO.some (arbSync_keeps ..).sound
  · exact (loadCtrl_keeps ..).sound
  · exact SoundO.some (Sound.ite (hostPwrRequest_keeps ..).sound Sound.refl)
  · exact SoundO.ite (hostResetRequest_keeps ..).sound same
  · exact SoundO.some (consWritten_keeps ..).sound
  · exact SoundO.some (Sound.ite (armWritten_keeps ..).sound Sound.refl)
  · exact SoundO.some (vwWritten_keeps ..).sound
  · exact same

/-- The same of a write, whatever comes of it. -/
structure SoundW (s : State) (r : WrOut) : Prop where
  done : ∀ t, r = .done t → Sound s t
  held : ∀ t, r = .held t → Sound s t
  err : ∀ c t, r = .err c t → Sound s t

theorem SoundW.mkDone {s t : State} (h : Sound s t) : SoundW s (.done t) :=
  ⟨fun _ e => (by cases e; exact h), fun _ e => (by cases e), fun _ _ e => (by cases e)⟩

theorem SoundW.mkHeld {s t : State} (h : Sound s t) : SoundW s (.held t) :=
  ⟨fun _ e => (by cases e), fun _ e => (by cases e; exact h), fun _ _ e => (by cases e)⟩

theorem SoundW.mkErr {s t : State} {c : Nat} (h : Sound s t) : SoundW s (.err c t) :=
  ⟨fun _ e => (by cases e), fun _ e => (by cases e), fun _ _ e => (by cases e; exact h)⟩

theorem SoundW.ite {s : State} {c : Prop} [Decidable c] {r q : WrOut} (hr : SoundW s r) (hq : SoundW s q) : SoundW s (if c then r else q) := by
  split
  · exact hr
  · exact hq

theorem stagePart_sound_of_eq {a : Access} {p : Spot} {w : Word} {s t : State} {b : Bool} (h : stagePart a p w s = (t, b)) : Sound s t := by
  have k := stagePart_sound a p w s
  rwa [h] at k

theorem writeActive_sound (a : Access) (addr : Nat) (p : Spot) (w : Word) (r : Bool) (s : State) : SoundW s (writeActive a addr p w r s) := by
  unfold writeActive
  dsimp only
  refine SoundW.ite (SoundW.mkErr (noteLocked_keeps ..).sound) (SoundW.ite ?_ (SoundW.ite ?_ ?_))
  · exact SoundW.ite (SoundW.mkHeld (loadWord_sound ..)) (SoundW.mkErr Sound.refl)
  · exact SoundW.ite (SoundW.mkHeld (loadWord_sound ..)) (SoundW.mkErr Sound.refl)
  split
  · exact SoundW.mkErr (stagePart_sound_of_eq (by assumption))
  · rename_i u hu
    have staged : Sound s u := stagePart_sound_of_eq hu
    split
    · exact SoundW.mkErr Sound.refl
    · rename_i t ht
      obtain ⟨v, hv, hvt⟩ := Option.bind_eq_some_iff.mp ht
      have first : Sound s (if r = true then w1Part p w.toNat u else (u, false)).1 := by
        split
        · exact staged.trans (w1Part_sound ..)
        · exact staged
      have done : Sound s t := ((first.keeps (putFields_keeps ..)).trans (effect1_sound _ _ _ _ _ v hv)).trans (effect2_sound _ _ _ _ t hvt)
      exact SoundW.ite (SoundW.mkErr (done.keeps (noteLocked_keeps ..))) (SoundW.mkDone done)

theorem performWrite_sound (a : Access) (addr : Nat) (p : Spot) (w : Word) (s : State) : SoundW s (performWrite a addr p w s) := by
  unfold performWrite
  split
  · exact writeActive_sound ..
  · split
    · exact SoundW.mkDone (stagePart_sound_of_eq (by assumption))
    · exact SoundW.mkErr (stagePart_sound_of_eq (by assumption))
  · dsimp only
    refine SoundW.ite (SoundW.mkErr Sound.refl) ?_
    split
    · exact SoundW.mkDone Sound.refl
    · exact SoundW.ite (SoundW.mkDone (Sound.ite (State.wr_keeps ..).sound Sound.refl)) (writeActive_sound ..)

theorem writeReg_sound (a : Access) (addr : Nat) (w : Word) (s : State) : Sound s (writeReg a addr w s) := by
  unfold writeReg
  refine Sound.ite Sound.refl ?_
  have logged : Sound s (if (edwDebug a addr && s.on 23 && !masterFaulted s a) = true then edwDebugLog (addr % 0x1000) s else s) :=
    Sound.ite (edwDebugLog_keeps ..).sound Sound.refl
  revert logged
  generalize (if (edwDebug a addr && s.on 23 && !masterFaulted s a) = true then edwDebugLog (addr % 0x1000) s else s) = u
  intro logged
  dsimp only
  split
  · exact logged.keeps (busError_keeps ..)
  · exact logged
  · refine Sound.ite (logged.keeps (busError_keeps ..)) (Sound.ite (Sound.ite ?_ (logged.keeps (busError_keeps ..))) ?_)
    · exact (logged.keeps (noteLocked_keeps ..)).keeps (busError_keeps ..)
    · split
      · exact (logged.trans ((performWrite_sound ..).done _ (by assumption))).keeps (respond_keeps ..)
      · exact logged.trans ((performWrite_sound ..).held _ (by assumption))
      · exact (logged.trans ((performWrite_sound ..).err _ _ (by assumption))).keeps (busError_keeps ..)

theorem readEffect_sound (a : Access) (p : Spot) (ecc : Ecc) (s : State) : Sound s (readEffect a p ecc s) := by
  unfold readEffect
  dsimp only
  split
  · exact (latchWord_keeps ..).sound
  · exact (latchWord_keeps ..).sound
  · exact (latchWord_keeps ..).sound.keeps (State.wr_keeps ..)
  · exact (latchWord_keeps ..).sound
  · exact (latchWord_keeps ..).sound
  · exact (latchWord_keeps ..).sound.keeps (latchWord_keeps ..)
  · exact (State.setChan_keeps ..).sound
  · exact lockRead_sound ..
  · split
    · exact (claimEffect_keeps ..).sound
    · exact Sound.refl
  · exact (traceAdvance_keeps ..).sound
  · exact Sound.ite (State.inc_keeps ..).sound Sound.refl
  · exact Sound.of_eq rfl rfl rfl
  · exact Sound.refl

theorem readReg_sound (a : Access) (addr : Nat) (ecc : Ecc) (s : State) : Sound s (readReg a addr ecc s) := by
  unfold readReg
  refine Sound.ite Sound.refl ?_
  split
  · exact (busError_keeps ..).sound
  · exact Sound.refl
  · rename_i p _ _
    split
    · exact (respond_keeps ..).sound
    · exact (respond_keeps ..).sound
    · have noted (c c' : Prop) [Decidable c] [Decidable c'] (n : Nat) :
          Sound s (if c then { s with fresh := n } else if c' then noteBad s else s) :=
        Sound.ite (Sound.of_eq rfl rfl rfl) (Sound.ite (noteBad_keeps ..).sound Sound.refl)
      refine Sound.keeps (Sound.ite (noted ..) (Sound.trans ((noted ..).keeps (clearRC_keeps p _)) (readEffect_sound ..))) (respond_keeps ..)

end Sys2Proof.Machine

namespace Sys2Proof.Machine

set_option Elab.async false

-- every command keeps the tables sound

theorem doRead_sound (ok : Bool) (a : Access) (addr : Nat) (s : State) : SoundX s (doRead ok a addr s) :=
  SoundX.runWf fun s => readReg_sound a addr .clean s

theorem doWrite_sound (ok : Bool) (a : Access) (addr w : Nat) (s : State) : SoundX s (doWrite ok a addr w s) :=
  SoundX.runWf fun s => writeReg_sound a addr (BitVec.ofNat 32 w) s

theorem execSlcCreate_sound (a : Access) (i : BitVec 8) (pasidEn : Bool) (s : State) : SoundX s (execSlcCreate a i pasidEn s) :=
  SoundX.runWf fun s => by
    have asked : Sound s { s with gate := { s.gate with pasidEn := pasidEn } } := Sound.of_eq rfl rfl rfl
    exact asked.trans (writeReg_sound ..)

theorem execTimeUnitReload_sound (u : Fin 21) (s : State) : SoundX s (execTimeUnitReload u s) := by
  refine SoundX.runClk fun s => Sound.ite Sound.refl ?_
  have marked : Sound s { s with time := { s.time with units := tset false s.time.units u true } } := Sound.of_eq rfl rfl rfl
  have asked := Sound.ite (c := 5 ≤ u.val) (marked.keeps (askFills_keeps (u.val - 5) _)) marked
  exact Sound.ite (asked.trans (enterLoad_sound _)) asked

theorem execEdwRestoreDone_sound (s : State) : SoundX s (execEdwRestoreDone s) :=
  SoundX.runClk fun s => Sound.ite ((edwRestore_keeps s).sound.trans (tryBoot_sound _)) Sound.refl

theorem execDomainRampFail_sound (side : Side) (d : Fin 24) (s : State) : SoundX s (execDomainRampFail side d s) := by
  refine SoundX.run fun s => ?_
  cases side
  case host => exact Sound.ite (Sound.of_eq rfl rfl rfl) Sound.refl
  case field =>
    refine Sound.ite Sound.refl (Sound.trans (Sound.trans ?_ (State.setDom_keeps _ d 3).sound) (tryBoot_sound _))
    exact Sound.of_eq rfl rfl rfl

theorem execLoadRestoreDone_sound (side : Side) (s : State) : SoundX s (execLoadRestoreDone side s) := by
  refine SoundX.run fun s => Sound.ite Sound.refl ?_
  have restored (l : LoadS) : Sound s (setLoad side l (restoreHeld side s)) := (restoreHeld_sound ..).keeps (setLoad_keeps ..)
  have stamped (l : LoadS) (c : Prop) [Decidable c] :
      Sound s (if c then stampPersist (setLoad side l (restoreHeld side s)) else setLoad side l (restoreHeld side s)) :=
    Sound.ite ((restored l).keeps (stampPersist_keeps _)) (restored l)
  refine Sound.ite (stamped ..) (Sound.ite ?_ ?_)
  · exact ((stamped ..).keeps (State.wr_keeps ..)).trans (bootFrom_sound ..)
  · exact ((stamped ..).keeps (State.wr_keeps ..)).keeps (noteTwin_keeps ..)

theorem execPersistEraseDone_sound (s : State) : SoundX s (execPersistEraseDone s) := by
  refine SoundX.run fun s => Sound.ite ?_ (Sound.ite ?_ ?_)
  · have erased : Sound s (setMarkRecs s.img.load.sector [] s) := (setMarkRecs_keeps ..).sound
    exact Sound.ite (erased.keeps (startMark_keeps _)) (erased.keeps (setLoad_keeps ..))
  · exact (blankBlock_keeps ..).sound.trans (setLoad_pumpLoad_sound ..)
  · exact Sound.ite (blankBlock_keeps ..).sound Sound.refl

theorem execPersistWordProgrammed_sound (s : State) : SoundX s (execPersistWordProgrammed s) := by
  refine SoundX.run fun s => Sound.ite Sound.refl ?_
  split
  · exact (markDone_keeps ..).sound
  · have programmed (img : ImgS) : Sound s { s with img := img } := Sound.of_eq rfl rfl rfl
    exact (programmed _).trans (pumpLoad_sound ..)

theorem execTableCopyEnd_sound (t : Fin 8) (s : State) : SoundX s (execTableCopyEnd t s) := by
  refine SoundX.run fun s => Sound.ite (Sound.ite ?_ Sound.refl) (Sound.ite ?_ Sound.refl)
  · exact Sound.keeps (Sound.each (fun _ _ => (copyGroup_keeps ..).sound) Sound.refl) (setLoad_keeps ..)
  · exact (copyBack_keeps ..).sound.trans (pumpLoad_sound ..)

theorem execRdpErase_sound (level : BitVec 2) (s : State) : SoundX s (execRdpErase level s) := by
  refine SoundX.run fun s => ?_
  have told : Sound s { s with pins := { s.pins with rdpErase := true, rdpLevel := level } } := Sound.of_eq rfl rfl rfl
  have held (u : State) : Sound u (if u.su.hold then u else { u with su := { u.su with hold := true, holdPhase := 1 } }) :=
    Sound.ite Sound.refl (Sound.of_eq rfl rfl rfl)
  have erased (u : State) (img : ImgS) (edw : EdwS) : Sound u { u with img := img, edw := edw } := Sound.of_eq rfl rfl rfl
  have reset (u : State) : Sound u (edwReset (dieReset 5 u)) := (dieReset_sound ..).keeps (edwReset_keeps _)
  exact (told.trans (Sound.ite (held _) (reset _))).trans (erased ..)

theorem execLockTimeout_sound (i : Fin 64) (s : State) : SoundX s (execLockTimeout i s) :=
  SoundX.runClk fun _ => Sound.ite (lockBreak_sound ..) Sound.refl

theorem execMasterFault_sound (m : Fin 16) (level : Bool) (s : State) : SoundX s (execMasterFault m level s) := by
  refine SoundX.run fun s => ?_
  have noted (pins : Pins) : Sound s { s with pins := pins } := Sound.of_eq rfl rfl rfl
  exact Sound.ite (noted _) (Sound.each (fun _ _ => Sound.ite (lockBreak_sound ..) Sound.refl) (noted _))

/-- The command changes neither the staged copy nor the W1 words written nor the locks. -/
def calm (c : Instr) : Bool := !(mayStage c || (mayChange c).contains .once || (mayChange c).contains .lock)

theorem exec_sound_of_calm {c : Instr} (h : calm c = true) (s : State) : SoundX s (exec c s) := by
  obtain ⟨w, hk, hw⟩ := exec_leaves c s
  have hc : mayStage c = false ∧ (mayChange c).contains .once = false ∧ (mayChange c).contains .lock = false := by
    simpa only [calm, Bool.not_eq_true', Bool.or_eq_false_iff, and_assoc] using h
  obtain ⟨hstage, honce, hlock⟩ := hc
  have off {p : Part} (hp : p ∈ guarded) (hc : (mayChange c).contains p = false) : p ∉ w := fun hm => by
    rw [List.contains_iff_mem.mpr (mem_mayChange_of_leavable hw hp hm)] at hc
    exact nomatch hc
  refine hk.sound (fun hm => ?_) (off (by decide) honce) (off (by decide) hlock)
  rw [mayStage_of_leavable hw hm] at hstage
  exact nomatch hstage

/-- A command that is a read or a write of a register, or that changes the tables otherwise, keeps them sound. -/
theorem exec_sound (c : Instr) (s : State) : SoundX s (exec c s) := by
  cases c with
  | claimPeek _ _ => exact doRead_sound _ _ _ s
  | threshWrite _ _ _ => exact doWrite_sound _ _ _ _ s
  | predictorReset _ _ _ _ _ => exact doWrite_sound _ _ _ _ s
  | pwNextWrite _ _ _ _ => exact doWrite_sound _ _ _ _ s
  | campRfailGo _ _ _ => exact doWrite_sound _ _ _ _ s
  | timeLoRead _ => exact doRead_sound _ _ _ s
  | captureRead _ _ => exact doRead_sound _ _ _ s
  | thaw during => exact thaw_sound during s
  | epochPeriodWrite _ _ => exact doWrite_sound _ _ _ _ s
  | thaw0 during => exact thaw0_sound during s
  | timeUnitReload u => exact execTimeUnitReload_sound u s
  | lnkEnable _ _ => exact doWrite_sound _ _ _ _ s
  | lnkDisable _ _ => exact doWrite_sound _ _ _ _ s
  | lnkDownCommand _ _ => exact doWrite_sound _ _ _ _ s
  | lockAcquire _ _ => exact doRead_sound _ _ _ s
  | lockRel _ _ => exact doWrite_sound _ _ _ _ s
  | lockAbort _ _ => exact doWrite_sound _ _ _ _ s
  | lockBreak _ _ => exact doWrite_sound _ _ _ _ s
  | lockTimeout k => exact execLockTimeout_sound k s
  | masterFault m level => exact execMasterFault_sound m level s
  | loadStart _ _ => exact doWrite_sound _ _ _ _ s
  | loadAbort _ => exact doWrite_sound _ _ _ _ s
  | loadData _ _ => exact doWrite_sound _ _ _ _ s
  | loadRestoreDone side => exact execLoadRestoreDone_sound side s
  | persistEraseDone => exact execPersistEraseDone_sound s
  | tableCopyEnd t => exact execTableCopyEnd_sound t s
  | dtGo _ _ _ => exact doWrite_sound _ _ _ _ s
  | rdpErase level => exact execRdpErase_sound level s
  | barEnable _ => exact doWrite_sound _ _ _ _ s
  | barDisable _ => exact doWrite_sound _ _ _ _ s
  | barThaw p => exact barThaw_sound p s
  | slcCreate a sl pasidEn => exact execSlcCreate_sound a sl pasidEn s
  | slcOpen _ _ => exact doWrite_sound _ _ _ _ s
  | slcReset _ _ => exact doWrite_sound _ _ _ _ s
  | slcDestroy _ _ => exact doWrite_sound _ _ _ _ s
  | pgConsWrite _ _ _ => exact doWrite_sound _ _ _ _ s
  | pgArmWrite _ _ _ => exact doWrite_sound _ _ _ _ s
  | pgVwWrite _ _ _ => exact doWrite_sound _ _ _ _ s
  | hostGateSoftReset _ => exact doWrite_sound _ _ _ _ s
  | slcDirtyRead _ _ _ => exact doRead_sound _ _ _ s
  | edwCtrlSeal _ => exact doWrite_sound _ _ _ _ s
  | edwRestoreDone => exact execEdwRestoreDone_sound s
  | edwDebugWrite _ _ _ => exact doWrite_sound _ _ _ _ s
  | edwLatchedRead _ _ => exact doRead_sound _ _ _ s
  | pwrReqWake _ _ => exact doWrite_sound _ _ _ _ s
  | pwrReqOff _ _ => exact doWrite_sound _ _ _ _ s
  | domainRampFail side d => exact execDomainRampFail_sound side d s
  | sleepGo _ => exact doWrite_sound _ _ _ _ s
  | rstSoftInstance => exact SoundX.runClk fun s => ((noteReset_keeps 4 0 s).sound.trans (resetInstance_sound ..)).keeps (startFrom_keeps ..)
  | rstDie => exact SoundX.run fun s => Sound.ite Sound.refl (dieReset_sound 3 s)
  | rstPackage => exact SoundX.run fun s => Sound.ite Sound.refl (coldReset_sound 1 s)
  | rstSystem => exact SoundX.run fun s => coldReset_sound 2 s
  | powerOn => exact SoundX.run fun s => coldReset_sound 0 s
  | registerWrite _ _ _ => exact doWrite_sound _ _ _ _ s
  | stagedViewWrite _ _ _ => exact doWrite_sound _ _ _ _ s
  | bitAliasWrite _ _ _ _ => exact doWrite_sound _ _ _ _ s
  | traceDataRead _ => exact doRead_sound _ _ _ s
  | traceRdptrWrite _ _ => exact doWrite_sound _ _ _ _ s
  | traceEnable _ => exact doWrite_sound _ _ _ _ s
  | testInject _ _ => exact doWrite_sound _ _ _ _ s
  | ltestStart _ => exact doWrite_sound _ _ _ _ s
  | ltestStop _ => exact doWrite_sound _ _ _ _ s
  | registerRead _ _ _ => exact SoundX.runWf fun s => readReg_sound _ _ _ s
  | persistWordProgrammed => exact execPersistWordProgrammed_sound s
  | _ => exact exec_sound_of_calm rfl s

/-- Every step keeps them: a cycle of the free-running blocks changes none of the three, and a command is run beside the rest of its queue. -/
theorem step_sound (s : State) : SoundX s (step s) := by
  intro t ht
  cases hs : s.pending with
  | nil =>
    rw [step, hs] at ht
    cases ht
    exact (tick_keeps s).sound
  | cons c rest =>
    rw [step_of_pending_cons hs] at ht
    have taken : Sound s { s with pending := rest } := Sound.of_eq rfl rfl rfl
    exact taken.trans (exec_sound c _ t ht)

/-- Settles O6: the locks are changed by acquisitions, releases and breaks alone, and each keeps them owned once. -/
theorem locksStayOwnedOnce : Obligations.LocksStayOwnedOnce :=
  fun s t h ht => (step_sound s t ht).locks h

/-- Settles O7: each write of the three tables is by the function that keeps a table canonical. -/
theorem listsStayCanonical : Obligations.ListsStayCanonical :=
  fun s t h ht => (step_sound s t ht).lists h

end Sys2Proof.Machine

namespace Sys2Proof.Machine

set_option Elab.async false

/-- What a state without outputs puts on a port is its one output. -/
theorem emit_only {u : State} (h : u.out = []) (o : PortOut) : (u.emit o).out = [o] := by
  rw [State.emit, h]
  rfl

-- flags: a field written 1 or 0

theorem flag_raise (s : State) (f : Fld) (h : f.w = 1) : (s.raise f).flag f = true := by
  unfold State.raise State.flag
  rw [State.rd_wr_same, h]
  rfl

theorem flag_wr_zero (s : State) (f : Fld) : (s.wr f 0).flag f = false := by
  unfold State.flag
  rw [State.rd_wr_same, Nat.zero_mod]
  rfl

/-- A write of another word. -/
theorem flag_wr_off {s : State} {f g : Fld} (v : Nat) (h : f.off ≠ g.off) (h1 : f.lo < 32) (h2 : g.lo < 32) : (s.wr g v).flag f = s.flag f := by
  unfold State.flag
  rw [wr_off s v h h1 h2]

-- take, claim and complete (R150 to R152)

/-- A claim that answers an event activates it, and changes the core's delivery state alone beside counters and caches. -/
theorem claimEffect_core {n : Nat} {m : Msg} {took : Bool} {s : State} (h : claimable s n = some (m, took)) :
    Keeps [.regs, .clus, .trc]
      (s.setCore n { (if took then { s.coreOf n with taken := (s.coreOf n).taken.drop 1 } else { s.coreOf n with pend := (s.coreOf n).pend.erase m })
        with active := m :: (s.coreOf n).active }) (claimEffect n s) := by
  unfold claimEffect
  rw [h]
  have activated (u : State) : Keeps [.regs, .clus, .trc] u (askFills (n / 4) (dropOnce (n / 4) m.source (trace 6 0 m u))) :=
    (((trace_keeps ..).mono (by decide)).trans ((dropOnce_keeps ..).mono (by decide))).trans ((askFills_keeps ..).mono (by decide))
  cases took
  all_goals exact activated _

/-- A completion of the innermost active event takes it off the core's stack. -/
theorem completeEffect_core {n : Nat} {w : Word} {m : Msg} {l : List Msg} {s : State} (ha : (s.coreOf n).active = m :: l)
    (hq : m.seq = w.extractLsb' 0 24) :
    Keeps [.regs, .firn, .clus, .trc] (s.setCore n { s.coreOf n with active := l }) (completeEffect n w s) := by
  unfold completeEffect
  dsimp only
  rw [ha]
  dsimp only
  rw [if_pos (beq_iff_eq.mpr hq)]
  exact ((((State.wr_keeps ..).mono (by decide)).trans ((State.wr_keeps ..).mono (by decide))).trans ((trace_keeps ..).mono (by decide))).trans
    (((sendDone_keeps ..).mono (by decide)).trans ((askFills_keeps ..).mono (by decide)))

/-- Any other completion sets the error flag and ends nothing. -/
theorem completeEffect_refuses {n : Nat} {w : Word} {s : State} (h : ∀ m ∈ (s.coreOf n).active.head?, m.seq ≠ w.extractLsb' 0 24) :
    completeEffect n w s = (s.raise (Reg.STATE_CERR n)).wr (Reg.COMPLETE_LASTOK n) 0 := by
  unfold completeEffect
  dsimp only
  split
  next m l ha =>
    rw [if_neg]
    rw [ha] at h
    exact fun hq => h m rfl (beq_iff_eq.mp hq)
  · rfl

/-- Settles O15: the offered event is taken, the claimable one claimed, and the innermost active one completed. -/
theorem takesAndCompletions : Obligations.TakesAndCompletions := by
  refine ⟨fun n m l s hc ho => ?_, fun n m took s hc hon hcl => ?_, fun n s hc h => ?_, fun n w m l s hc hon ha hq => ?_, fun n w s hc hon h => ?_,
    fun n w s hc hon => ?_⟩
  case refine_1 =>
    refine next_clk hc fun t ht hrun => ?_
    have ho' : offered s.bare n = some (m, l) := ho
    dsimp only at ht
    rw [ho'] at ht
    have core : Keeps [.clus] (s.bare.setCore n { s.coreOf n with
        pend := (s.coreOf n).pend.erase m, taken := m :: (s.coreOf n).taken, irqLow := true }) t :=
      ht ▸ ((touchLine_keeps ..).trans (dropOnce_keeps ..)).trans (askFills_keeps ..)
    exact ⟨(core.coreOf_eq n).trans (State.coreOf_setCore ..), fun j hj => (core.coreOf_eq j).trans (State.coreOf_setCore_ne _ _ hj),
      core.same .out (by decide), (execCifTake_keeps n s).next _ hrun⟩
  case refine_2 =>
    refine next_clk hc fun t ht hrun => ?_
    have hon' : s.bare.on (n / 4) = true := hon
    have hcl' : claimable s.bare n = some (m, took) := hcl
    rw [hon'] at ht
    have core := claimEffect_core hcl'
    have out : (claimEffect n s.bare).out = [] := core.same .out (by decide)
    subst ht
    refine ⟨(core.coreOf_eq n).trans ((State.coreOf_setCore ..).trans ?_), fun j hj => (core.coreOf_eq j).trans (State.coreOf_setCore_ne _ _ hj),
      ?_, (execClaim_keeps n s).next _ hrun⟩
    · cases took
      all_goals rfl
    · refine (emit_only out _).trans ?_
      have hv : claimValue s.bare n = claimWord m ((s.coreOf n).held.length + b2n (!took)) := by rw [claimValue, hcl']; rfl
      rw [hv]
  case refine_3 =>
    refine runClk_eq (t := s.bare.emit (.reg (.cif n) 0 none)) hc ?_
    cases hon : s.bare.on (n / 4) with
    | false => rfl
    | true =>
      have hcl : claimable s.bare n = none := h.resolve_left fun h => Bool.false_ne_true (h.symm.trans hon)
      rw [claimValue, claimEffect, hcl]
      rfl
  case refine_4 =>
    refine next_clk hc fun t ht hrun => ?_
    have hon' : s.bare.on (n / 4) = true := hon
    rw [if_pos hon'] at ht
    have core := completeEffect_core (s := s.bare) ha hq
    subst ht
    exact ⟨(core.coreOf_eq n).trans (State.coreOf_setCore ..), fun j hj => (core.coreOf_eq j).trans (State.coreOf_setCore_ne _ _ hj),
      emit_only (core.same .out (by decide)) _, (execComplete_keeps n w s).next _ hrun⟩
  case refine_5 =>
    refine next_clk hc fun t ht _ => ?_
    have hon' : s.bare.on (n / 4) = true := hon
    rw [if_pos hon', completeEffect_refuses (s := s.bare) h] at ht
    have flags : Keeps [.regs] s.bare ((s.bare.raise (Reg.STATE_CERR n)).wr (Reg.COMPLETE_LASTOK n) 0) :=
      (State.raise_keeps ..).trans (State.wr_keeps ..)
    obtain ⟨out, only⟩ := emit_keeps (.reg (.cif n) 0 none) flags
    subst ht
    have apart : (Reg.STATE_CERR n).off ≠ (Reg.COMPLETE_LASTOK n).off := by
      show 0x300C + 0x40 * n.val ≠ 0x3004 + 0x40 * n.val
      omega
    have raised := (flag_wr_off 0 apart (by decide : 19 < 32) (by decide : 31 < 32)).trans (flag_raise s.bare _ rfl)
    exact ⟨(flag_congr rfl _).trans raised, (flag_congr rfl _).trans (flag_wr_zero ..), out, only⟩
  case refine_6 =>
    refine runClk_eq (t := s.bare.emit (.reg (.cif n) 0 (some 3))) hc ?_
    have hon' : s.bare.on (n / 4) = false := hon
    rw [hon']
    rfl

end Sys2Proof.Machine

namespace Sys2Proof.Machine

set_option Elab.async false

theorem Keeps.rdStaged_eq {w : List Part} {s t : State} (h : Keeps w s t) (f : Fld) (hs : Part.staged ∉ w := by decide)
    (hr : Part.regs ∉ w := by decide) : t.rdStaged f = s.rdStaged f := by
  have staged : t.staged = s.staged := h.same .staged hs
  unfold State.rdStaged
  rw [staged, h.rd_eq f hr]

-- REL, ABORT and BREAK (R321 to R323)

/-- A write of LOCK[i] that is taken is answered, and leaves what its command leaves. -/
theorem doWrite_lock_does {w' : List Part} {s u : State} {a : Access} {i : Fin 64} {w : Nat} (ha : a.atPort = true)
    (h : lands s a (0xF000 + 4 * i)) (hw : w < 2 ^ 32) (he : lockWrite a i w s.bare = some u) (hk : Keeps w' s.bare u)
    (hout : Part.out ∉ w' := by decide) :
    ∃ t, doWrite a.atPort a (0xF000 + 4 * i) w s = .next t ∧ t.out = [.reg a.via 0 none] ∧
      Keeps (.out :: w') s t ∧ Keeps [.out, .pending] u t := by
  refine next_of (doWrite_lock ha h hw he) ⟨?_, answered a hk, answered_from (s := s) a⟩
  rw [answered_out a (hk.same .out hout), host_of ha]
  rfl

/-- A released lock whose set is empty stages nothing. -/
theorem lockRelease_empty {i : Nat} {s : State} (h : (s.lockOf i).set = []) : (lockRelease i s).staged = s.staged := by
  unfold lockRelease
  dsimp only
  rw [h]
  cases (s.lockOf i).ovf
  all_goals rfl

/-- A released lock stages the one word of its set, which no load holds. -/
theorem lockRelease_one {i off : Nat} {w : Word} {s : State} (h : (s.lockOf i).set = [(off, w)]) (ho : (s.lockOf i).ovf = false)
    (hh : holds .field s 0 (off / 4) = false) : lockRelease i s = stageWord off w.toNat (lockFree i s) := by
  unfold lockRelease
  dsimp only
  rw [h, ho]
  simp only [List.any_cons, List.any_nil, hh]
  rfl

/-- Settles O51: each of the three writes does its command's effect, or is refused for want of the lock or of reg_dbg. -/
theorem lockWrites : Obligations.LockWrites := by
  intro a i s ha hl
  refine ⟨fun hheld howner => ⟨?abort, ?rel⟩, fun hnot => ?others, fun hdbg => ?undebug, fun hdbg hheld => ?broken⟩
  case abort =>
    obtain ⟨t, ht, hout, hkeep, hfrom⟩ := doWrite_lock_does ha hl (by decide) (lockWrite_abort (s := s.bare) hheld howner) (lockFree_keeps ..)
    exact ⟨t, ht, hout, (hfrom.lockOf_eq i).trans (lockFree_frees i s.bare).1, hkeep.same .staged (by decide), hkeep⟩
  case rel =>
    obtain ⟨t, ht, hout, hkeep, hfrom⟩ := doWrite_lock_does ha hl (by decide) (lockWrite_rel (s := s.bare) hheld howner) (lockRelease_keeps ..)
    refine ⟨t, ht, hout, (hfrom.lockOf_eq i).trans (lockRelease_frees i s.bare).1, hkeep, 
      fun he => (hfrom.same .staged (by decide)).trans (lockRelease_empty he), ?_⟩
    intro off w p he ho hh hp f hf hws
    obtain ⟨-, hrd, -⟩ := stageWord_does (p := ⟨p.1, p.2.1, p.2.2, off, .active⟩) hp w.toNat (lockFree i s.bare)
    rw [hfrom.rdStaged_eq, lockRelease_one (s := s.bare) he ho hh]
    exact hrd f hf hws
  case others =>
    have refused (w : Nat) (hw : w < 2 ^ 32) (hb : (bit w 16 || bit w 17) = true) :
        ∃ t, doWrite a.atPort a (0xF000 + 4 * i) w s = .next t ∧ t.out = [.reg a.via 0 (some 6)] ∧ Keeps [.out, .regs] s t := by
      obtain ⟨t, ht, hout, -, hkeep, -⟩ := doWrite_lock_refused ha hl hw (lockWrite_not_owner (s := s.bare) hnot hb)
      exact ⟨t, ht, hout, hkeep⟩
    exact ⟨refused _ (by decide) (by decide), refused _ (by decide) (by decide)⟩
  case undebug =>
    obtain ⟨t, ht, hout, -, hkeep, -⟩ := doWrite_lock_refused (w := 2 ^ 18) ha hl (by decide) (by rw [lockWrite_break, dbg_of ha, hdbg]; rfl)
    exact ⟨t, ht, hout, hkeep⟩
  case broken =>
    obtain ⟨t, ht, hout, hkeep, hfrom⟩ := doWrite_lock_does (w := 2 ^ 18) ha hl (by decide) (by rw [lockWrite_break, dbg_of ha, hdbg]; rfl)
      (lockBreak_keeps i 2 s.bare)
    obtain ⟨hi, -, hsrc, -⟩ := (lockBreak_broken (s := s.bare) 2 hheld).of_keeps hfrom
    exact ⟨t, ht, hout, hi, hsrc, hkeep.mono (by decide)⟩

end Sys2Proof.Machine

namespace Sys2Proof.Machine

set_option Elab.async false

-- Campion instructions on registers (R116 to R120, R124, R137)

/-- An instruction that fails ends its run with the cause, and leaves the rest of the machine. -/
theorem instruct_failing {s : State} {n : Nat} {r : Run} {op : COp} {f : Run → COp → Option (State → State)} (cause : Nat)
    (hc : clocked s = true) (h : fetches s n r op) (hf : f r op = some (failCampion n cause)) :
    ∃ t, runClk (fun s => instruct n f s) s = .next t ∧ (t.campOf n).failed = some (BitVec.ofNat 2 cause) ∧ (t.campOf n).run = none ∧
      Keeps [.out, .regs, .src, .camp, .trc] s t := by
  refine instruct_fails hc h hf fun t ht => ?_
  have failed := runClk_eq hc (instruct_does h hf)
  cases ht.symm.trans failed
  exact (failCampion_keeps n cause s.bare).bare (by decide)

/-- Settles O19: each instruction is the function of its operands that its encoding names. -/
theorem campionRegisters : Obligations.CampionRegisters := by
  intro n r s hc
  refine ⟨fun wd sel h => instruct_run hc h rfl, fun wd ws imm h => ⟨instruct_run hc h rfl, instruct_failing 1 hc h rfl⟩,
    fun wd ws wt h => ⟨instruct_run hc h rfl, instruct_failing 1 hc h rfl⟩,
    fun wd ws hi imm h => ⟨instruct_run hc h rfl, instruct_failing 1 hc h rfl⟩,
    fun ws u rhs h => ⟨instruct_run hc h rfl, instruct_failing 1 hc h rfl⟩,
    fun cond off h => instruct_run hc h (apply_ite (fun q => some (setRun n q)) ..).symm,
    fun count off h => instruct_run hc h (apply_ite (fun q => some (setRun n q)) ..).symm, fun ticks h => ?wait, fun target hr ht => ?waitEnd,
    fun src addr l h hl parity hp => instruct_run hc h ?sta, fun src addr h hl => instruct_failing 3 hc h ?full,
    fun ws vec h hl => instruct_run hc h (if_pos hl), fun ws vec h hl => instruct_failing 3 hc h (if_neg (Nat.not_lt.mpr hl))⟩
  case wait =>
    cases ht : reached32 s.bare.t (r.msg.ts + BitVec.ofNat 32 ticks).toNat with
    | true =>
      rw [show reached32 s.t _ = true from ht]
      refine runClk_eq (t := setRun n (r.step 0) s.bare) hc (instruct_does h ?_)
      exact if_pos ht
    | false =>
      rw [show reached32 s.t _ = false from ht]
      refine runClk_eq (t := setRun n { r with hold := .wait (r.msg.ts + BitVec.ofNat 32 ticks) } s.bare) hc (instruct_does h ?_)
      exact if_neg (ht ▸ Bool.false_ne_true)
  case waitEnd =>
    refine runClk_eq (t := setRun n ({ r with hold := .none }.step 0) s.bare) hc ?_
    have hr' : (s.bare.campOf n).run = some { r with hold := .wait target } := hr
    rw [hr']
    exact if_pos ht
  case sta =>
    have read : (parity && src.isReg) = false := by rcases hp with rfl | hr <;> simp [*]
    simp only [hl, read]
    rfl
  case full =>
    simp only [hl]
    rfl

end Sys2Proof.Machine

namespace Sys2Proof.Machine

set_option Elab.async false

-- Campion instructions at the ports (R121 to R124, R130 to R133)

/-- An instruction that runs leaves what its effect leaves. -/
theorem fetched_next {s : State} {n : Nat} {r : Run} {op : COp} {F : State → Run → COp → Option (State → State)} {g : State → State}
    {P : State → Prop} (hc : clocked s = true) (h : fetches s n r op) (hf : F s.bare r op = some g)
    (k : runClk (fun s => instruct n (F s) s) s = .next { g s.bare with pending := s.pending } → P { g s.bare with pending := s.pending }) :
    ∃ t, runClk (fun s => instruct n (F s) s) s = .next t ∧ P t := by
  have e := runClk_eq (f := fun s => instruct n (F s) s) hc (instruct_does h hf)
  exact ⟨_, e, k e⟩

/-- An access on a segment drives the port for a cycle, and moves the rotation. -/
theorem segAccess_does (n : Nat) (addr : BitVec 16) (v : Word) (wr err : Bool) (s : State) :
    (segAccess n addr v wr err s).out = s.out ++ [.act (n / 16) addr v wr (!wr) wr false false] ∧
      Keeps [.out, .regs, .seg] s (segAccess n addr v wr err s) := by
  refine ⟨?_, segAccess_keeps ..⟩
  unfold segAccess
  split
  all_goals rfl

/-- A reflex holds for the answer of an EMIT that it issues. -/
def holdEmit (n : Nat) (r : Run) (wd : Nat) (vec : BitVec 12) (s : State) : State :=
  let s := setRun n { r with hold := .emit wd, stood := r.stood + 1, cycles := r.cycles + 1 } s
  s.setCamp n { s.campOf n with emits := (s.campOf n).emits ++ [{ vec := vec, issued := s.time.now, mine := true }] }

theorem holdEmit_campOf (n : Nat) (r : Run) (wd : Nat) (vec : BitVec 12) (s : State) :
    (holdEmit n r wd vec s).campOf n = { s.campOf n with
      run := some { r with hold := .emit wd, stood := r.stood + 1, cycles := r.cycles + 1 }
      emits := (s.campOf n).emits ++ [{ vec := vec, issued := s.time.now, mine := true }] } := by
  unfold holdEmit setRun
  rw [State.campOf_setCamp, State.campOf_setCamp]
  rfl

theorem holdEmit_keeps (n : Nat) (r : Run) (wd : Nat) (vec : BitVec 12) (s : State) : Keeps [.camp] s (holdEmit n r wd vec s) :=
  (setRun_keeps ..).trans (State.setCamp_keeps ..)

/-- Settles O20: each port instruction acts on its segment or its channel, and holds or ends the run as its chapter says. -/
theorem campionInstructionsAtPorts : Obligations.CampionInstructionsAtPorts := by
  refine ⟨fun n r wd addr v rdata err s hc h hs => ?staged, fun n r wd addr rdata err parity s hc h hs hg => ?lda,
    fun n r src addr err s hc h hg => ?staN,
    fun n r wd ws vec s hc h => ?emit, fun n r e wd reason refused s hc hr hh he ha hl => ?answer, fun n r e wd s hc hr hh he ha hl => ?bound,
    fun n e l s hc ht => ?late, fun n r s hc h hs => ?ret, fun n r s hc h hs => ?burst⟩
  case staged =>
    refine instruct_run hc h ?_
    simp only [hs]
    rfl
  case lda =>
    refine fetched_next (g := fun s => segAccess n addr 0 false err (setRun n ((r.put wd (if err then 0 else rdata)).step 2) s)) hc h ?_ fun e => ?_
    · simp only [hs]
      exact if_pos hg
    · obtain ⟨hout, hkeep⟩ := segAccess_does n addr 0 false err (setRun n ((r.put wd (if err then 0 else rdata)).step 2) s.bare)
      exact ⟨(hkeep.campOf_eq n).trans (State.campOf_setCamp ..), hout, (lda_keeps ..).next _ e⟩
  case staN =>
    refine fetched_next (g := fun s => segAccess n addr (r.val src) true err (setRun n ({ r with stood := r.stood + 1 }.step 1) s)) hc h ?_
      fun e => ?_
    · exact (if_neg Bool.false_ne_true).trans (if_pos hg)
    · obtain ⟨hout, hkeep⟩ := segAccess_does n addr (r.val src) true err (setRun n ({ r with stood := r.stood + 1 }.step 1) s.bare)
      exact ⟨(hkeep.campOf_eq n).trans (State.campOf_setCamp ..), hout, (execStaN_keeps n err false s).next _ e⟩
  case emit =>
    refine fetched_next (g := fun s => portWrite (.campion n false) vec ((r.reg ws).truncate 16) (holdEmit n r wd vec s)) hc h rfl fun _ => ?_
    have write := portWrite_keeps (.campion n false) vec ((r.reg ws).truncate 16) (holdEmit n r wd vec s.bare)
    exact ⟨(write.campOf_eq n).trans (holdEmit_campOf ..), rfl,
      (((holdEmit_keeps ..).mono (by decide)).trans (write.mono (by decide)) : Keeps [.acc, .camp] s.bare _).bare (by decide)⟩
  case answer =>
    refine next_clk hc fun t ht hrun => ?_
    have hr' : (s.bare.campOf n).run = some r := hr
    have he' : (s.bare.campOf n).emits.find? (·.mine) = some e := he
    simp only [hr', he', hh, ha, hl] at ht
    have camp : t.campOf n = { s.campOf n with
        run := some ({ r.put wd (if refused then BitVec.ofNat 32 (0x80000000 + reason) else 0) with hold := .none }.step (min 32 (emitCycles s e)))
        emits := (s.campOf n).emits.erase e } := by
      subst ht
      cases refused
      all_goals exact State.campOf_setCamp ..
    exact ⟨congrArg CampS.run camp, congrArg CampS.emits camp, (execEmitAnswer_keeps n s).next _ hrun⟩
  case bound =>
    refine next_clk hc fun t ht hrun => ?_
    have hr' : (s.bare.campOf n).run = some r := hr
    have he' : (s.bare.campOf n).emits.find? (·.mine) = some e := he
    have hl' : 32 ≤ emitCycles s.bare e := hl
    simp only [hr', he', hh, if_pos hl', Nat.min_eq_left hl'] at ht
    have ran : (t.campOf n).run = some ({ r.put wd 0x40000000 with hold := .none }.step 32) := by
      subst ht
      rcases ha with ha | ha
      · rw [ha]
        exact congrArg CampS.run (State.campOf_setCamp ..)
      · rw [ha]
        cases e.answer
        all_goals exact congrArg CampS.run (State.campOf_setCamp ..)
    exact ⟨ran, (execEmitAnswer_keeps n s).next _ hrun⟩
  case late =>
    refine next_clk hc fun t hx hrun => ?_
    have ht' : takeFirst (fun (e : EmitOut) => !e.mine && e.answer.isSome) (s.bare.campOf n).emits = some (e, l) := ht
    simp only [ht'] at hx
    have late (u : State) : Keeps [.regs] u (if e.late then u.inc (Reg.CAMP_EMIT_ELATE n) else u) := Keeps.ite (State.inc_keeps ..) Keeps.refl
    have apart : (Reg.CAMP_EMIT_ELATE n).key ≠ (Reg.CAMP_EMIT_EREF n).key := by
      show 32 * (0x40C + 0x10 * n.val) + 16 ≠ 32 * (0x40C + 0x10 * n.val) + 0
      omega
    have counted : Keeps [.regs] (s.bare.setCamp n { s.bare.campOf n with emits := l }) t := by
      subst hx
      split
      · exact (late _).trans (State.inc_keeps ..)
      · exact late _
    refine ⟨(counted.campOf_eq n).trans (State.campOf_setCamp ..), fun hl => ?_, (execEmitLateAnswer_keeps n s).next _ hrun⟩
    subst hx
    rw [hl]
    split
    · exact inc_rd_ne _ _ apart
    · rfl
  case ret =>
    refine fetched_next (g := fun s => commitReflex n r.msg r.irqs (s.setCamp n { s.campOf n with run := none })) hc h ?_ fun hrun => ?_
    · simp only [hs]
      rfl
    · obtain ⟨hwrites, hdones⟩ := commitReflex_does n r.msg r.irqs (s.bare.setCamp n { s.bare.campOf n with run := none })
      rw [show Fin.ofNat 64 n.val = n from Fin.ext (Nat.mod_eq_of_lt n.isLt)] at hwrites
      exact ⟨((commitReflex_keeps ..).campOf_eq n).trans (State.campOf_setCamp ..), hwrites, hdones, (ret_keeps n false s).next _ hrun⟩
  case burst =>
    refine fetched_next (g := fun s => (s.setCamp n { s.campOf n with run := none }).setSeg (n / 16) { s.segOf (n / 16) with
      bursts := (s.segOf (n / 16)).bursts ++ [⟨n, r.msg, r.stage, r.irqs⟩] }) hc h ?_ fun _ => ?_
    · have full : r.stage.isEmpty = false := List.isEmpty_eq_false_iff.mpr hs
      simp only [full]
      rfl
    · have freed (c : CampS) (g : SegS) : Keeps [.camp, .seg] s.bare ((s.bare.setCamp n c).setSeg (n / 16) g) :=
        ((State.setCamp_keeps ..).mono (by decide)).trans ((State.setSeg_keeps ..).mono (by decide))
      exact ⟨State.campOf_setCamp s.bare n _, State.segOf_setSeg .., (freed ..).bare (by decide)⟩

end Sys2Proof.Machine

namespace Sys2Proof.Machine

set_option Elab.async false

-- bursts, dispatch, watchdog and unit reset (R108, R114, R126 to R133, R137, R144)

/-- The segment controller drives the burst, moves its rotation on, and the burst's reflex commits. -/
theorem commit_driven {r : Fin 4} {b : Burst} (errs : List Bool) (s : State) (g : SegS) :
    let t := commitReflex b.camp b.msg b.irqs (driveBurst r b.stage errs (s.setSeg r g))
    t.segOf r = g ∧
      t.out = s.out ++ (b.stage.dropLast.map (fun e => PortOut.act r e.1 e.2 true false false false false) ++
        b.stage.getLast?.toList.map (fun e => PortOut.act r e.1 e.2 true false false true false)) ∧
      t.firn.dones = s.firn.dones ++ (if b.msg.isGF && b.msg.isEvent then [b.msg] else []) := by
  have drive := driveBurst_keeps r b.stage errs (s.setSeg r g)
  have commit := commitReflex_keeps b.camp b.msg b.irqs (driveBurst r b.stage errs (s.setSeg r g))
  refine ⟨?_, ?_, ?_⟩
  · rw [commit.segOf_eq, drive.segOf_eq, State.segOf_setSeg]
  · exact (commit.same .out (by decide)).trans (driveBurst_out ..)
  · have firn : (driveBurst r b.stage errs (s.setSeg r g)).firn = s.firn := drive.same .firn (by decide)
    rw [(commitReflex_does ..).2, firn]

/-- What a dispatch of an entry makes of the Campion. -/
theorem dispatchEntry_campOf (n : Nat) (ecc : List (Fin 64 × Ecc)) (e : QEntry) (s : State) :
    (dispatchEntry n ecc e s).campOf n = { s.campOf n with run := some {
      msg := e.msg, w := List.replicate 8 0, prog := (loadSlot s (n / 16) (slotOf e.msg).toNat ecc).1, runs := min 255 (e.runs + 1)
      d := s.time.now, slot := slotOf e.msg } } := by
  unfold dispatchEntry
  exact ((trace_keeps ..).campOf_eq n).trans (State.campOf_setCamp ..)

/-- The bank words of a region are of the images alone. -/
theorem loadSlot_congr {s t : State} (h : t.img = s.img) (r slot : Nat) (ecc : List (Fin 64 × Ecc)) :
    loadSlot t r slot ecc = loadSlot s r slot ecc := by
  unfold loadSlot State.tab
  rw [h]

/-- A pre-empted run goes back to the head of the queue. -/
theorem returnRun_q (n : Nat) (s : State) :
    ((returnRun n s).campOf n).q = match (s.campOf n).run with | some r => ⟨r.msg, r.runs⟩ :: (s.campOf n).q | none => (s.campOf n).q := by
  cases hr : (s.campOf n).run with
  | some r => exact (returnRun_camp hr).1
  | none => rw [returnRun, hr]

/-- A run that fails goes back to the head of the queue. -/
theorem failCampion_q {n cause : Nat} {s : State} (h : (s.campOf n).failed = none) :
    ((failCampion n cause s).campOf n).q = ((returnRun n s).campOf n).q := by
  unfold failCampion
  rw [h, if_neg (by decide)]
  dsimp only
  rw [(raiseInt_keeps ..).campOf_eq, State.campOf_setCamp]

theorem discardRun_idle (n : Nat) (s : State) : ((discardRun n s).campOf n).run = none := by
  cases hr : (s.campOf n).run with
  | some r => rw [discardRun_camp hr]
  | none => rw [discardRun, hr, hr]

/-- A unit reset takes a Campion's run and queue away, and opens the restore scope of its arbiter. -/
theorem resetCampion_does (n : Nat) (s : State) :
    ((resetCampion n s).campOf n).run = none ∧ ((resetCampion n s).campOf n).q = [] ∧ ((resetCampion n s).arbOf (n / 4)).scope = true := by
  have camp : (resetCampion n s).campOf n = { (discardRun n s).campOf n with q := [] } :=
    ((restoreScope_keeps ..).campOf_eq n).trans (State.campOf_setCamp ..)
  have arb : (resetCampion n s).arbOf (n / 4) = { (discardRun n s).arbOf (n / 4) with scope := true } :=
    ((restoreScope_keeps ..).arbOf_eq (n / 4)).trans (State.arbOf_setArb ..)
  exact ⟨(congrArg CampS.run camp).trans (discardRun_idle n s), congrArg CampS.q camp, congrArg Arb.scope arb⟩

/-- Settles O21: a burst commits, a free or pre-empted Campion dispatches, and a failure or a reset takes its run away. -/
theorem reflexRuns : Obligations.ReflexRuns := by
  refine ⟨fun r b errs s hc hb _ => ?commit, fun n ecc e q s hc hready hbusy he => ?dispatch,
    fun n r s hc hr hf hw => ?watchdog, fun n s hc => ?reset⟩
  case commit =>
    refine next_clk hc fun t ht hrun => ?_
    have hb' : nextBurst (s.bare.segOf r) = some b := hb
    simp only [hb'] at ht
    obtain ⟨hseg, hout, hdones⟩ := commit_driven errs s.bare { s.bare.segOf r with
      bursts := (s.bare.segOf r).bursts.erase b, rot := (b.camp + 1) % 16 }
    subst ht
    exact ⟨hseg, hout, hdones, (reflexCommit_keeps r errs s).next _ hrun⟩
  case dispatch =>
    refine next_clk hc fun t ht hrun => ?_
    have hready' : campReady s.bare n = true := hready
    have idle : laneBeat n s.bare = s.bare := if_pos hbusy
    have he' : nextEntry s.bare n = some (e, q) := he
    rw [hready', idle] at ht
    simp only [he', Bool.not_true, Bool.false_eq_true, if_false] at ht
    have kept := returnRun_keeps n (s.bare.setCamp n { s.bare.campOf n with q := q })
    have camp := dispatchEntry_campOf n ecc e (returnRun n (s.bare.setCamp n { s.bare.campOf n with q := q }))
    have queue := returnRun_q n (s.bare.setCamp n { s.bare.campOf n with q := q })
    have now : (returnRun n (s.bare.setCamp n { s.bare.campOf n with q := q })).time = s.time := kept.same .time (by decide)
    rw [ht, loadSlot_congr (kept.same .img (by decide)), now] at camp
    rw [State.campOf_setCamp] at queue
    exact ⟨congrArg CampS.run camp, (congrArg CampS.q camp).trans queue, ((execCampionDispatch_keeps n ecc s).next _ hrun).mono (by decide)⟩
  case watchdog =>
    refine next_clk hc fun t ht hrun => ?_
    have hr' : (s.bare.campOf n).run = some r := hr
    simp only [hr'] at ht
    have hw' : wdog s.bare (n / 16) < runCycles s.bare n r := hw
    rw [if_pos hw'] at ht
    obtain ⟨hfailed, hnone⟩ := failCampion_does (n := n) (cause := 2) (s := s.bare) hf (by rw [hr']; rfl)
    have queue := (failCampion_q (cause := 2) (n := n) (s := s.bare) hf).trans (returnRun_q ..)
    simp only [hr'] at queue
    subst ht
    exact ⟨hfailed, hnone, queue, (execCampionWatchdog_keeps n s).next _ hrun⟩
  case reset =>
    refine next_clk hc fun t ht hrun => ?_
    obtain ⟨hnone, hq, hscope⟩ := resetCampion_does n (noteReset 1 n s.bare)
    subst ht
    exact ⟨hnone, hq, hscope, (execCampionUnitReset_keeps n s).next _ hrun⟩

end Sys2Proof.Machine

namespace Sys2Proof.Machine

set_option Elab.async false

-- wired inputs, levels and windows (R43 to R49, R67 to R70)

/-- The line of wired input n stands at a level that it took at a tick, with its bundle. -/
def lineTaken (n : Nat) (level : Bool) (data : BitVec 16) (stamp : Tick) (s : State) : State :=
  { s with src := { s.src with
    levels := tset false s.src.levels n level, stamps := tset 0 s.src.stamps n stamp
    bundles := if n < 128 then tset 0 s.src.bundles n data else s.src.bundles } }

/-- A change of a line reaches its direct source alone. -/
theorem lineChange_eq (n : Nat) (level : Bool) (data : BitVec 16) (stamp : Tick) (s : State) :
    lineChange false n level data stamp s =
      if mapCelled s n then lineTaken n level data stamp s
      else sourceChange false n (lineLevel s n) level stamp (directPayload (lineTaken n level data stamp s) n level) 0
        (lineTaken n level data stamp s) := by
  unfold lineChange lineTaken
  split
  all_goals rfl

/-- A line that changes takes its level and its stamp, and no other line changes. -/
theorem lineChange_lines (n : Nat) (level : Bool) (data : BitVec 16) (stamp : Tick) (s : State) :
    SrcSame (· ≠ n) (lineTaken n level data stamp s) (lineChange false n level data stamp s) := by
  rw [lineChange_eq]
  split
  · exact SrcSame.refl
  · exact sourceChange_src (fun h => h rfl) ..

/-- The payload of a direct source at the change of its line. -/
theorem directPayload_taken (n : Nat) (level : Bool) (data : BitVec 16) (stamp : Tick) (s : State) :
    directPayload (lineTaken n level data stamp s) n level = if n < 128 then data else BitVec.ofNat 16 (b2n level) := by
  unfold directPayload lineTaken
  split
  · exact tget_tset_same ..
  · rfl

theorem srcEn_wired (n : Fin 1024) (s : State) : srcEn s n = s.flag (Reg.SRC_CFG0_EN n) := if_pos n.isLt

/-- A change that the edge mode of an enabled source without a window satisfies is latched where the latch is free. -/
theorem lineChange_latches {n : Nat} {level : Bool} {data : BitVec 16} {stamp : Tick} {s : State} (ho : s.su.open_ = true)
    (hm : mapCelled s n = false) (hsrc : srcEn s n = true) (hwin : s.flag (Reg.SRC_CFG0_WINEN n) = false)
    (he : edgeMode (s.rd (Reg.SRC_CFG0_MODE n)) (lineLevel s n) level = true) (hdt : s.img.dtPhase < 2) (hl : s.latchOf n = none)
    (hst : s.epoch.start.toNat ≤ stamp.toNat) :
    (lineChange false n level data stamp s).latchOf n =
      some ⟨stamp, (if n < 128 then data else BitVec.ofNat 16 (b2n level)), 0, s.epoch.num, true, false⟩ := by
  have hm' : ¬ mapCelled s n = true := by rw [hm]; decide
  have edge : edgeMode ((lineTaken n level data stamp s).rd (Reg.SRC_CFG0_MODE n)) (lineLevel s n) level = true := he
  rw [lineChange_eq, if_neg hm', directPayload_taken]
  unfold sourceChange
  simp only [edge, Bool.false_eq_true, if_false, Bool.true_or, if_true]
  rw [latchEvent_free (s := lineTaken n level data stamp s) ho hsrc (groupHeld_none n hdt) hwin hl hst]
  exact State.latchOf_setLatch ..

/-- Settles O9: a lasting level is stamped and latched, an idle level raised again, and a window opened. -/
theorem sourceCommands : Obligations.SourceCommands := by
  refine ⟨fun n level data odd width s hw hs ho hl => ?edge, fun n s ho hs hm hlev hidle hen hwin hdt hst => ?level, fun n l s hl hw => ?window⟩
  case edge =>
    have one : s.time.now + BitVec.ofNat 64 (b2n odd) = s.time.now + (if odd then 1 else 0) := by cases odd <;> rfl
    refine next_run fun t ht _ => ?_
    have change : t = lineChange false n level data (s.time.now + (if odd then 1 else 0)) s.bare := by
      have hs' : s.bare.time.sleep = .awake := hs
      have ho' : s.bare.su.open_ = true := ho
      have hl' : lineLevel s.bare n = !level := hl
      rw [← ht, ← one]
      simp only [pulseSeen, decide_eq_true hw, Nat.not_lt.mpr hw, if_false, Bool.true_or, Bool.not_true, hs', hl', ho']
      cases level
      all_goals rfl
    obtain ⟨hlev, hst, -, -⟩ := lineChange_lines n level data (s.time.now + (if odd then 1 else 0)) s.bare
    rw [← change] at hlev hst
    refine ⟨?_, ?_, fun k hk => ⟨?_, ?_⟩, fun hm hen hwin hedge hdt hlatch hepoch => ?_, ?_⟩
    · exact (congrArg (tget false · n.val) hlev).trans (tget_tset_same ..)
    · exact (congrArg (tget 0 · n.val) hst).trans (tget_tset_same ..)
    · exact (congrArg (tget false · k) hlev).trans (tget_tset_ne _ _ _ _ hk)
    · exact (congrArg (tget 0 · k) hst).trans (tget_tset_ne _ _ _ _ hk)
    · rw [change]
      exact lineChange_latches ho hm ((srcEn_wired ..).trans hen) hwin
        (by rw [show lineLevel s.bare n = !level from hl]; exact hedge) hdt hlatch hepoch
    · exact (change ▸ lineChange_keeps ..).bare (by decide)
  case level =>
    have free : s.bare.latchOf n = none := by
      unfold sourceIdle at hidle
      rw [Bool.and_eq_true, Option.isNone_iff_eq_none] at hidle
      exact hidle.1
    have hm' : mapCelled s.bare n = false := hm
    have hlev' : levelMode (s.bare.rd (Reg.SRC_CFG0_MODE n)) (lineLevel s.bare n) = true := hlev
    have hidle' : sourceIdle s.bare n = true := hidle
    have direct : sourceLevel s.bare n = lineLevel s.bare n := by rw [sourceLevel, hm']; rfl
    have awake : (s.bare.su.open_ && s.bare.time.sleep == .awake) = true := by
      rw [show s.bare.su.open_ = true from ho, show s.bare.time.sleep = .awake from hs]
      rfl
    refine run_eq (t := s.bare.setLatch n (some ⟨s.time.now, directPayload s n (lineLevel s n), 0, s.epoch.num, true, false⟩)) ?_
    rw [if_pos awake, levelTest, direct, hlev', hidle', hm']
    exact latchEvent_free (s := s.bare) ho ((srcEn_wired ..).trans hen) (groupHeld_none (s := s.bare) n hdt) hwin free hst
  case window =>
    refine run_eq (t := s.bare.setLatch n (some { l with ready := true })) ?_
    have hl' : s.bare.latchOf n = some l := hl
    have ready : winReady s.bare n l.win = true := by
      unfold winReady
      rw [Bool.or_eq_true, Bool.and_eq_true, decide_eq_true_eq, decide_eq_true_eq, beq_iff_eq]
      exact hw
    simp only [hl', ready]
    rfl

end Sys2Proof.Machine

namespace Sys2Proof.Machine

set_option Elab.async false

-- message writes, offers, records and accept points (R60, R62, R77 to R92, R97)

/-- A remote write that has a way and a tag leaves at once, when none waits before it. -/
theorem pumpRemote_one {s : State} {w : RemoteWait} (ho : s.su.open_ = true) (ht : thawDue s = false) (hw : s.acc.remoteWait = [w])
    (hp : (portToward s w.target).isSome = true) (hr : s.acc.remote.length < 32) :
    (pumpRemote s).acc = { s.acc with
      remoteWait := [], nextTag := s.acc.nextTag + 1, remote := s.acc.remote ++ [⟨s.acc.nextTag, w.writer⟩] } := by
  have way : (portToward s w.target).isNone = false := by rw [← Option.not_isSome, hp]; rfl
  have due : (s.su.open_ && !thawDue s) = true := by rw [ho, ht]; rfl
  unfold pumpRemote
  rw [if_pos due, hw]
  dsimp only [List.foldl]
  rw [if_neg, if_pos]
  · exact (sendCtl_keeps ..).same .acc (by decide)
  · exact hr
  · exact fun h => Bool.false_ne_true (way.symm.trans h)

/-- An offer starts where every candidate can start: the first candidate passes A0. -/
theorem exec_offer {c : Cand} {s : State} (hc : clocked s = true) (ho : s.su.open_ = true) (hth : thawDue s = false)
    (hlen : s.acc.offers.length < 64) (hall : ∀ d ∈ latchCands s ++ writeCands s, canStart s d = true ∧ stuckRegion s d = false)
    (hbest : best (candBefore s) (latchCands s ++ writeCands s) = some c) (h0 : a0Refusal s c.src c.writer (candMsg s c 0) = none) :
    exec .offer s = .next { passOffer c s.bare with pending := s.pending } := by
  have starts : (!s.bare.su.open_ || thawDue s.bare || decide (Config.maxOffers ≤ s.bare.acc.offers.length)) = false := by
    rw [show s.bare.su.open_ = true from ho, show thawDue s.bare = false from hth,
      decide_eq_false (show ¬ Config.maxOffers ≤ s.bare.acc.offers.length from Nat.not_le.mpr hlen)]
    rfl
  have lane : (latchCands s.bare ++ writeCands s.bare).filter (stuckLane s.bare) = [] := List.filter_eq_nil_iff.mpr fun d hd => by
    rw [stuckLane, show canStart s.bare d = true from (hall d hd).1, Bool.not_true, Bool.and_false, Bool.false_and]
    decide
  have region : (latchCands s.bare ++ writeCands s.bare).filter (stuckRegion s.bare) = [] := List.filter_eq_nil_iff.mpr fun d hd => by
    rw [show stuckRegion s.bare d = false from (hall d hd).2]
    decide
  have start : (latchCands s.bare ++ writeCands s.bare).filter (canStart s.bare) = latchCands s.bare ++ writeCands s.bare :=
    List.filter_eq_self.mpr fun d hd => (hall d hd).1
  have hbest' : best (candBefore s.bare) (latchCands s.bare ++ writeCands s.bare) = some c := hbest
  have h0' : a0Refusal s.bare c.src c.writer (candMsg s.bare c 0) = none := h0
  refine runClk_eq hc ?_
  simp only [starts, lane, region, State.each, List.foldl_nil]
  simp only [start, hbest', h0']
  rfl

/-- Settles O10: each command of acceptance is the step of an offer that its chapter describes. -/
theorem acceptance : Obligations.Acceptance := by
  refine ⟨fun w vec payload s hc ht => ?own, fun w target vec payload s hc ht hne ho hth hwait hport hlen => ?remote,
    fun c s hc ho hth hlen hall hbest h0 hq hcls => ?offer, fun src q l o s hc hw hof => ?record, fun o l s hc htake hw he => ?accept⟩
  case own =>
    refine runClk_eq (t := portWrite w vec payload s.bare) hc ?_
    have ht' : channelTakes s.bare w = true := ht
    have own : (s.die == s.bare.die) = true := beq_iff_eq.mpr rfl
    rw [ht', own]
    rfl
  case remote =>
    refine next_clk hc fun t hx hrun => ?_
    have ht' : channelTakes s.bare w = true := ht
    have far : (target == s.bare.die) = false := beq_false_of_ne hne
    rw [ht', far] at hx
    have acc := pumpRemote_one (w := ⟨w, target, vec, payload⟩)
      (s := { s.bare with acc := { s.bare.acc with remoteWait := s.bare.acc.remoteWait ++ [⟨w, target, vec, payload⟩] } })
      ho hth (by rw [show s.bare.acc.remoteWait = [] from hwait]; rfl) hport hlen
    subst hx
    exact ⟨congrArg AccS.remote acc, congrArg AccS.nextTag acc, congrArg AccS.remoteWait acc,
      (execMessageWrite_keeps w target vec payload s).next _ hrun⟩
  case offer =>
    have run := exec_offer hc ho hth hlen hall hbest h0
    obtain ⟨o, hown, hothers, hoffers, hseq, hsource, ha0, hack, hwrites⟩ := passOffer_does c s.bare hcls
    exact ⟨_, o, run, hown, hothers, hoffers, hseq, hsource, ha0, hack, hwrites, (execOffer_keeps s).next _ run⟩
  case record =>
    refine next_clk hc fun t hx hrun => ?_
    obtain ⟨hwrites, hrec, hothers, hoffers, hinbox⟩ := writeOldest_does (s := s.bare) hw hof
    subst hx
    exact ⟨hwrites, hrec, hothers, hoffers, hinbox, (execFirnRecordWrite_keeps s).next _ hrun⟩
  case accept =>
    refine next_clk hc fun t hx hrun => ?_
    have htake' : takeFirst (fun (o : Offer) => o.ack && o.partnerAck) s.bare.acc.offers = some (o, l) := htake
    unfold acceptOldest at hx
    simp only [htake'] at hx
    obtain ⟨hacc, hlatch⟩ := acceptPoint_does o (offerDests s.bare o) { s.bare with acc := { s.bare.acc with offers := l } } hw he
    subst hx
    exact ⟨congrArg AccS.offers hacc, hlatch, (execAccept_keeps s).next _ hrun⟩

end Sys2Proof.Machine

namespace Sys2Proof.Machine

set_option Elab.async false

-- paired acceptance (R83 to R92, R305 to R316)

/-- A partner that is not marked unreachable is heard without a resynchronization. -/
theorem pairHeard_of_reachable {p : BitVec 5} {s : State} (h : unreachable s p = false) : pairHeard p s = s := by
  unfold pairHeard
  rw [h]
  rfl

theorem unreachable_of_acc {s t : State} (h : t.acc = s.acc) (p : BitVec 5) : unreachable t p = unreachable s p := by
  unfold unreachable
  rw [h]

theorem Keeps.unreachable_eq {w : List Part} {s t : State} (h : Keeps w s t) (p : BitVec 5) (hp : Part.acc ∉ w := by decide) :
    unreachable t p = unreachable s p :=
  unreachable_of_acc (h.same .acc hp) p

/-- With a record free, the mirror of an event that has none is written in the lowest free record. -/
theorem writeMirror_new {e : Msg} {s : State} (hf : firnFind s (fun r => r.kind == .mirror && r.msg.sameId e) = none)
    (hn : firnCount s < 16384) (k : Nat) :
    (writeMirror e s).recOf k = if k = firnFree s then some
      { kind := .mirror, msg := e, need := [e.dest], since := s.time.now, kept := resyncedBy s e.origin } else s.recOf k := by
  have hn' : firnCount s < Config.firnRecords := hn
  unfold writeMirror
  simp only [hf, if_pos hn']
  rw [(sendCtl_keeps ..).recOf_eq k, recOf_firn (firnWrite_recs hn') k, State.recOf_setRec']

/-- A beginning resynchronization clears the mark of every mirror of its origin, and of no other record. -/
theorem eachMirror_recOf {o : BitVec 5} {f : FirnRec → Option FirnRec} {s : State} (hw : twf none s.firn.recs = true) {k : Nat} {r : FirnRec}
    (hr : s.recOf k = some r) : (eachMirror o f s).recOf k = if r.kind = .mirror ∧ r.msg.origin = o then f r else some r := by
  unfold eachMirror
  split
  next h =>
    exact each_setRec_mem f (firnAll_pairwise hw) (mem_firnAll.2 ⟨mem_of_tget hr, by simp [h]⟩) s
  next h =>
    rw [each_setRec_not (fun e : Nat × FirnRec => e.1) (fun e => f e.2), hr]
    rintro ⟨j, q⟩ hq rfl
    obtain ⟨hmem, hkind⟩ := mem_firnAll.1 hq
    have : some q = some r := (tget_of_mem hw hmem).symm.trans hr
    obtain rfl := Option.some.inj this
    exact h (by simpa using hkind)

/-- A write over an entry that a canonical table lists leaves its keys. -/
theorem tset_keys {α} [DecidableEq α] {d : α} {t : Tbl α} {k : Nat} {v : α} (hw : twf d t = true) (hv : v ≠ d)
    (hk : k ∈ t.map Prod.fst) : (tset d t k v).map Prod.fst = t.map Prod.fst := by
  unfold tset
  rw [if_neg hv]
  induction t with
  | nil => cases hk
  | cons e t ih =>
    obtain ⟨j, w⟩ := e
    obtain ⟨-, hlt, hw'⟩ := twf_cons.1 hw
    by_cases hj : j = k
    · subst hj
      have hdel : tdel ((j, w) :: t) j = t := by
        refine (List.filter_cons_of_neg (by simp)).trans ?_
        exact List.filter_eq_self.2 fun e he => by simpa using (hlt e he).ne'
      rw [hdel]
      cases t with
      | nil => rfl
      | cons e t => rw [tput, if_pos (hlt e List.mem_cons_self)]; rfl
    · have hk' : k ∈ t.map Prod.fst := by simpa [Ne.symm hj] using hk
      obtain ⟨e, he, rfl⟩ := List.mem_map.1 hk'
      have hdel : tdel ((j, w) :: t) e.1 = (j, w) :: tdel t e.1 := List.filter_cons_of_pos (by simpa using hj)
      rw [hdel, tput, if_neg (Nat.not_lt.2 (hlt e he).le), List.map_cons, List.map_cons, ih hw' hk']

/-- The lowest free record depends on the indexes in use alone. -/
theorem firnFree_go_keys {t u : Tbl (Option FirnRec)} (h : t.map Prod.fst = u.map Prod.fst) (i : Nat) : firnFree.go t i = firnFree.go u i := by
  induction t generalizing u i with
  | nil => rw [List.map_eq_nil_iff.1 h.symm]
  | cons e t ih =>
    cases u with
    | nil => cases h
    | cons e' u =>
      obtain ⟨h1, h2⟩ := List.cons.inj h
      obtain ⟨k, r⟩ := e
      obtain ⟨k', r'⟩ := e'
      obtain rfl : k = k' := h1
      unfold firnFree.go
      rw [ih h2]

theorem firnFind_eq_none {s : State} {p : FirnRec → Bool} : firnFind s p = none ↔ ∀ k r, (k, some r) ∈ s.firn.recs → p r = false := by
  unfold firnFind
  rw [List.findSome?_eq_none_iff]
  constructor
  · intro h k r hr
    simpa using h _ hr
  · rintro h ⟨k, _ | r⟩ hr
    · rfl
    · exact if_neg (by rw [h k r hr]; exact Bool.false_ne_true)

/-- A record that does not count as written in a resynchronization. -/
def FirnRec.unkept (r : FirnRec) : FirnRec := { r with kept := false }

/-- Clearing the marks of an origin's mirrors takes no record away, and gives none another identity. -/
theorem eachMirror_unkept {o : BitVec 5} {s : State} {p : FirnRec → Bool} (hw : twf none s.firn.recs = true)
    (hp : ∀ r : FirnRec, p r.unkept = p r) (hf : firnFind s p = none) :
    (eachMirror o (fun r => some r.unkept) s).firn.recs.map Prod.fst = s.firn.recs.map Prod.fst ∧
      firnFind (eachMirror o (fun r => some r.unkept) s) p = none := by
  have step : ∀ (l : List (Nat × FirnRec)) (u : State), (∀ e ∈ l, e.1 ∈ s.firn.recs.map Prod.fst ∧ p e.2 = false) →
      (twf none u.firn.recs = true ∧ u.firn.recs.map Prod.fst = s.firn.recs.map Prod.fst ∧ firnFind u p = none) →
      let v := u.each l fun e s => s.setRec e.1 (some e.2.unkept)
      v.firn.recs.map Prod.fst = s.firn.recs.map Prod.fst ∧ firnFind v p = none := by
    intro l
    induction l with
    | nil => exact fun u _ h => h.2
    | cons e l ih =>
      rintro u hl ⟨hu, hkeys, hnone⟩
      obtain ⟨he, hpe⟩ := hl e List.mem_cons_self
      have hset : (u.setRec e.1 (some e.2.unkept)).firn.recs = tset none u.firn.recs e.1 (some e.2.unkept) := rfl
      refine ih (u.setRec e.1 (some e.2.unkept)) (fun d hd => hl d (List.mem_cons_of_mem _ hd)) ⟨?_, ?_, ?_⟩
      · exact hset ▸ twf_tset _ _ hu
      · exact (congrArg _ hset).trans ((tset_keys hu (Option.some_ne_none _) (hkeys ▸ he)).trans hkeys)
      · refine firnFind_eq_none.2 fun k r hr => ?_
        rcases mem_tset (hset ▸ hr) with ⟨h, -⟩ | ⟨h, -⟩
        · obtain ⟨-, h⟩ := Prod.mk.inj h
          obtain rfl := Option.some.inj h
          exact (hp e.2).trans hpe
        · exact firnFind_eq_none.1 hnone k r h
  refine step _ s (fun e he => ?_) ⟨hw, rfl, hf⟩
  obtain ⟨hmem, -⟩ := mem_firnAll.1 he
  exact ⟨List.mem_map.2 ⟨_, hmem, rfl⟩, firnFind_eq_none.1 hf _ _ hmem⟩

/-- The mark of a partner is set (R86). -/
def unreachMarked (p : BitVec 5) (s : State) : State := { s with acc := { s.acc with unreach := tset false s.acc.unreach p.toNat true } }

/-- A partner marked for the first time: what follows the mark leaves it and the offers alone. -/
theorem markUnreachable_from {p : BitVec 5} {s : State} (h : ¬ unreachable s p = true) :
    Keeps [.regs, .src, .firn, .xb, .pwr, .trc] (unreachMarked p s) (markUnreachable p s) := by
  unfold markUnreachable
  rw [if_neg h]
  exact Keeps.each (s0 := unreachMarked p s) (f := fun (e : Nat × FirnRec) u => freeEvent e.1 e.2 u) (fun e u => freeEvent_keeps e.1 e.2 u)
    ((raiseInt_keeps 5148 p.toNat (unreachMarked p s)).mono (by decide))

/-- Marking a partner leaves the offers as they were. -/
theorem markUnreachable_acc (p : BitVec 5) (s : State) :
    (markUnreachable p s).acc.offers = s.acc.offers ∧ unreachable (markUnreachable p s) p = true := by
  by_cases h : unreachable s p = true
  · unfold markUnreachable
    rw [if_pos h]
    exact ⟨rfl, h⟩
  · have hacc : (markUnreachable p s).acc = (unreachMarked p s).acc := (markUnreachable_from h).same .acc (by decide)
    rw [unreachable_of_acc hacc, hacc]
    exact ⟨rfl, tget_tset_same false s.acc.unreach p.toNat true⟩

/-- The state that is left once a control message is taken. -/
def ctlTaken (m : Msg) (s : State) : State := { s with xb := { s.xb with ctl := s.xb.ctl.erase m } }

/-- A pair acknowledgement of a known kind that waits for this die is taken. -/
theorem takePairAck {m : Msg} {k : BitVec 2} {f : State → State} {s : State} (ht : m.typ = 0x13) (hp : m.payload.extractLsb' 0 2 = k)
    (hm : m ∈ s.xb.ctl) :
    (if (m.typ != 0x13 || m.payload.extractLsb' 0 2 != k) = true then s else takeCtl m f s) =
      f (ctlTaken m s) := by
  rw [if_neg (by simp [ht, hp]), takeCtl_mem hm]
  rfl

theorem resyncedBy_filter (s : State) (o : BitVec 5) :
    resyncedBy { s with rec_ := { s.rec_ with resyncIn := s.rec_.resyncIn.filter (· != o) } } o = false := by
  simp [resyncedBy]

theorem ctlTaken_keeps (m : Msg) (s : State) : Keeps [.xb] s (ctlTaken m s) := Keeps.refl.xb (by decide)

/-- The oldest offer of an event that its partner says it recorded counts as acknowledged by it (R85). -/
def partnerAcked (m : Msg) (s : State) : State :=
  let mine (o : Offer) : Bool := o.msg.sameId m && o.partner == some (senderOf m)
  let put (o : Offer) : Offer := { o with partnerAck := true }
  { s with acc := { s.acc with offers := modFirst mine put s.acc.offers } }

/-- The mirrors that a resynchronization wrote remain, without their mark, and its end is noted (R316). -/
def resyncEnded (o : BitVec 5) (s : State) : State :=
  let u := eachMirror o (fun r => if r.kept then some r.unkept else none) s
  { u with rec_ := { u.rec_ with resyncIn := u.rec_.resyncIn.filter (· != o) } }

theorem resyncEnded_keeps (o : BitVec 5) (s : State) : Keeps [.firn, .rec_] s (resyncEnded o s) :=
  Keeps.rec_ (by decide) ((eachMirror_keeps ..).mono (by decide))

/-- Without a remote write that waits none leaves. -/
theorem pumpRemote_none {s : State} (h : s.acc.remoteWait = []) : pumpRemote s = s := by
  unfold pumpRemote
  simp only [h, List.foldl_nil]
  rw [show ({ s with acc := { s.acc with remoteWait := [] } } : State) = s by rw [← h], ite_self]

/-- Settles O11: each control message is taken, and does to its record, offer or write what its kind says. -/
theorem pairedAcceptance : Obligations.PairedAcceptance := by
  refine ⟨fun m s hc ht hm hf hn => ?mirror, fun m s hc ht hm hw hf hn => ?first, fun m s hc ht hp hm hr hu => ?recorded,
    fun m k r s hc ht hp hm hf hu => ?release, fun m k r s hc ht hp hm hf hu => ?released, fun m k r s hc ht hp hm hw hr hk ho hu => ?resyncEnd,
    fun o p l s hc hl hp ha => ?late, fun m s hc ht hm => ?remote, fun m n tag l s hc ht hm hl hw => ?response⟩
  case mirror =>
    refine next_clk hc fun t hx hrun => ?_
    rw [if_neg (by simp [ht]), takeCtl_mem (show m ∈ s.bare.xb.ctl from hm)] at hx
    replace hx : writeMirror (unmirror m) (ctlTaken m s.bare) = t := hx
    have hrec := writeMirror_new (s := ctlTaken m s.bare) hf hn
    have hk : Keeps [.regs, .src, .firn, .xb, .pwr, .trc] s.bare (writeMirror (unmirror m) (ctlTaken m s.bare)) :=
      (writeMirror_keeps ..).step (by decide) ((ctlTaken_keeps m s.bare).mono (by decide))
    subst hx
    exact ⟨(hrec _).trans (if_pos rfl), fun k h => (hrec k).trans (if_neg h), hk.bare (by decide)⟩
  case first =>
    refine next_clk hc fun t hx hrun => ?_
    rw [if_neg (by simp [ht]), takeCtl_mem (show m ∈ s.bare.xb.ctl from hm)] at hx
    replace hx : writeMirror (unmirror m) (resyncBegins (unmirror m).origin (ctlTaken m s.bare)) = t := hx
    have hby : resyncedBy (resyncBegins (unmirror m).origin (ctlTaken m s.bare)) (unmirror m).origin = true := by
      unfold resyncBegins resyncedBy
      rw [(eachMirror_keeps ..).same .rec_ (by decide)]
      simp
    obtain ⟨u, hu⟩ : ∃ u, resyncBegins (unmirror m).origin (ctlTaken m s.bare) = u := ⟨_, rfl⟩
    have hkeep : Keeps [.xb, .firn, .rec_] s.bare u := hu ▸ (resyncBegins_keeps ..).step (by decide) ((ctlTaken_keeps m s.bare).mono (by decide))
    obtain ⟨hkeys, hnone⟩ : u.firn.recs.map Prod.fst = s.firn.recs.map Prod.fst ∧
        firnFind u (fun r => r.kind == .mirror && r.msg.sameId (unmirror m)) = none := hu ▸ eachMirror_unkept hw (fun r => rfl) hf
    have hcount : firnCount u = firnCount s := by
      have hlen := congrArg List.length hkeys
      rw [List.length_map, List.length_map] at hlen
      unfold firnCount firnInUse
      rw [hlen, hkeep.same .acc (by decide)]
      rfl
    have hfree : firnFree u = firnFree s := firnFree_go_keys hkeys 0
    have hold : ∀ k r, s.recOf k = some r →
        u.recOf k = if r.kind = .mirror ∧ r.msg.origin = (unmirror m).origin then some r.unkept else some r :=
      fun k r hr => by
        rw [← hu, resyncBegins]
        exact eachMirror_recOf (by exact hw) (by exact hr)
    have hrec := writeMirror_new hnone (hcount ▸ hn)
    rw [hu] at hby hx
    subst hx
    refine ⟨?_, ?_, fun k r hk hr => ?_, (execPairMirror_keeps _ s).next _ hrun⟩
    · exact (congrArg (fun x : RecS => x.resyncIn.contains _) ((writeMirror_keeps ..).same .rec_ (by decide))).trans hby
    · refine (hrec _).trans ((if_pos hfree.symm).trans ?_)
      rw [hby, hkeep.same .time (by decide)]
      rfl
    · refine (hrec k).trans ((if_neg (hfree ▸ hk)).trans ((hold k r hr).trans ?_))
      exact (apply_ite some ..).symm
  case recorded =>
    refine next_clk hc fun t hx hrun => ?_
    rw [takePairAck ht hp (show m ∈ s.bare.xb.ctl from hm)] at hx
    have hk : Keeps [.out, .acc, .xb] s.bare (partnerAcked m (ctlTaken m s.bare)) :=
      Keeps.acc (by decide) ((ctlTaken_keeps m s.bare).mono (by decide))
    have hr' : resyncing (partnerAcked m (ctlTaken m s.bare)) (senderOf m) = false := hr
    have hu' : unreachable (partnerAcked m (ctlTaken m s.bare)) (senderOf m) = false := hu
    replace hx : (if resyncing (partnerAcked m (ctlTaken m s.bare)) (senderOf m) = true then
      resyncRecorded (senderOf m) m (partnerAcked m (ctlTaken m s.bare))
      else pairHeard (senderOf m) (partnerAcked m (ctlTaken m s.bare))) = t := hx
    rw [hr', if_neg Bool.false_ne_true, pairHeard_of_reachable hu'] at hx
    subst hx
    exact ⟨rfl, rfl, hk.bare (by decide)⟩
  case release =>
    refine next_clk hc fun t hx hrun => ?_
    rw [takePairAck ht hp (show m ∈ s.bare.xb.ctl from hm)] at hx
    have hf' : firnFind (ctlTaken m s.bare) (fun r => r.kind == .mirror && r.msg.sameId m) = some (k, r) := hf
    obtain ⟨u, hmirror⟩ : ∃ u, (ctlTaken m s.bare).setRec k none = u := ⟨_, rfl⟩
    have hkeep : Keeps [.firn, .xb] s.bare u := hmirror ▸ (State.setRec_keeps ..).step (by decide) ((ctlTaken_keeps m s.bare).mono (by decide))
    have hnone : u.recOf k = none := hmirror ▸ State.recOf_setRec ..
    have hsent := sendCtl_keeps (pairAck u 2 m.origin m.source m.seq (senderOf m)) u
    simp only [hf', hmirror] at hx
    rw [pairHeard_of_reachable ((hsent.unreachable_eq _).trans ((hkeep.unreachable_eq _).trans hu))] at hx
    subst hx
    exact ⟨(hsent.recOf_eq k).trans hnone,
      (hsent.step (w := [.regs, .src, .firn, .xb, .pwr, .trc]) (by decide) (hkeep.mono (by decide))).bare (by decide)⟩
  case released =>
    refine next_clk hc fun t hx hrun => ?_
    rw [takePairAck ht hp (show m ∈ s.bare.xb.ctl from hm)] at hx
    have hf' : firnFind (ctlTaken m s.bare) (fun r => r.kind == .event && r.releasing && r.msg.sameId m) = some (k, r) := hf
    simp only [hf'] at hx
    rw [pairHeard_of_reachable (((freeEvent_keeps k r (ctlTaken m s.bare)).unreachable_eq _).trans hu)] at hx
    obtain ⟨hrec, -⟩ := freeEvent_does k r (ctlTaken m s.bare)
    subst hx
    exact ⟨(hrec k).trans (if_pos rfl), fun j hj => (hrec j).trans (if_neg hj), (execPairAckReleased_keeps m s).next _ hrun⟩
  case resyncEnd =>
    refine next_clk hc fun t hx hrun => ?_
    rw [takePairAck ht hp (show m ∈ s.bare.xb.ctl from hm)] at hx
    obtain ⟨u, hend⟩ : ∃ u, resyncEnded (senderOf m) (ctlTaken m s.bare) = u := ⟨_, rfl⟩
    have hkeep : Keeps [.firn, .rec_, .xb] s.bare u :=
      hend ▸ (resyncEnded_keeps ..).step (by decide) ((ctlTaken_keeps m s.bare).mono (by decide))
    have hrec : u.recOf k = if r.kept then some r.unkept else none :=
      hend ▸ (eachMirror_recOf (s := ctlTaken m s.bare) hw hr).trans (if_pos ⟨hk, ho⟩)
    have hby : resyncedBy u (senderOf m) = false := hend ▸ resyncedBy_filter _ _
    have hsent := sendCtl_keeps (pairAck u 0 0 0 0 (senderOf m)) u
    replace hx : pairHeard (senderOf m) (sendCtl (pairAck u 0 0 0 0 (senderOf m)) u) = t := hend ▸ hx
    rw [pairHeard_of_reachable ((hsent.unreachable_eq _).trans ((hkeep.unreachable_eq _).trans hu))] at hx
    subst hx
    exact ⟨(congrArg (fun x : RecS => x.resyncIn.contains _) (hsent.same .rec_ (by decide))).trans hby,
      (hsent.recOf_eq k).trans hrec, (execPairAckResyncEnd_keeps m s).next _ hrun⟩
  case late =>
    refine next_clk hc fun t hx hrun => ?_
    have hl' : takeFirst (fun o => !o.partnerAck && decide (o.a0.toNat + pairTmo s.bare ≤ s.bare.t)) s.bare.acc.offers = some (o, l) := hl
    simp only [hl', hp, ha] at hx
    obtain ⟨hoffers, hmark⟩ := markUnreachable_acc p s.bare
    subst hx
    exact ⟨hmark, congrArg (modFirst _ _) hoffers, (execPairTimeout_keeps s).next _ hrun⟩
  case remote =>
    refine next_clk hc fun t hx hrun => ?_
    rw [if_neg (by simp [ht]), takeCtl_mem (show m ∈ s.bare.xb.ctl from hm)] at hx
    subst hx
    exact ⟨rfl, rfl, (execRemoteVectorWrite_keeps m s).next _ hrun⟩
  case response =>
    refine next_clk hc fun t hx hrun => ?_
    rw [if_neg (by simp [ht]), takeCtl_mem (show m ∈ s.bare.xb.ctl from hm)] at hx
    have hl' : takeFirst (fun (r : RemoteOut) => r.tag == m.seq) s.bare.acc.remote = some (⟨tag, .core n⟩, l) := hl
    simp only [hl'] at hx
    obtain ⟨u, hu⟩ : ∃ u : State,
        { s.bare with acc := { s.acc with remote := l }, xb := { s.xb with ctl := s.xb.ctl.erase m } } = u := ⟨_, rfl⟩
    replace hx : pumpRemote (u.emit (.mw (.core n) (m.payload.getLsbD 15) (m.payload.toNat % 16))) = t := hu ▸ hx
    have hkeep : Keeps [.acc, .xb] s.bare u := hu ▸ Keeps.acc_xb (by decide) (by decide) Keeps.refl
    rw [pumpRemote_none (hu ▸ hw)] at hx
    obtain ⟨hout, hframe⟩ := emit_keeps (.mw (.core n) (m.payload.getLsbD 15) (m.payload.toNat % 16)) hkeep
    subst hx hu
    exact ⟨rfl, hout, hframe⟩

end Sys2Proof.Machine

namespace Sys2Proof.Machine

set_option Elab.async false

-- the scheduler and the spill rings (R220 to R229, R527)

theorem Keeps.andThen {w w1 w2 : List Part} {s t u : State} (h : Keeps w1 s t) (h' : Keeps w2 t u) (h1 : w1 ⊆ w := by decide)
    (h2 : w2 ⊆ w := by decide) : Keeps w s u :=
  (h.mono h1).trans (h'.mono h2)

theorem best_mem {α : Type} {lt : α → α → Bool} {l : List α} {x : α} (h : best lt l = some x) : x ∈ l := by
  induction l generalizing x with
  | nil => cases h
  | cons y l ih =>
    unfold best at h
    split at h
    next => exact Option.some.inj h ▸ List.mem_cons_self
    next z hz =>
      split_ifs at h
      · exact Option.some.inj h ▸ List.mem_cons_of_mem _ (ih hz)
      · exact Option.some.inj h ▸ List.mem_cons_self

/-- An arbiter picks one of those that ask. -/
theorem arbPick_mem {b : Arb} {a : Nat} {reqs : List ArbReq} {r : ArbReq} {byF : Bool} (h : arbPick b a reqs = some (r, byF)) : r ∈ reqs := by
  unfold arbPick at h
  dsimp only at h
  split_ifs at h
  all_goals
    obtain ⟨q, hq, he⟩ := Option.map_eq_some_iff.1 h
    obtain ⟨rfl, -⟩ := Prod.mk.inj he
  · exact List.mem_of_mem_filter (best_mem hq)
  all_goals exact best_mem hq

theorem spillReqs_lt {s : State} {r : ArbReq} (h : r ∈ spillReqs s) : r.j < 22 := by
  obtain ⟨i, hi, he⟩ := List.mem_filterMap.1 h
  split_ifs at he
  exact Option.some.inj he ▸ List.mem_range.1 hi

/-- A decision at the spill port counts in the port's own words alone, and no ring's configuration stands among them. -/
theorem arbDecide_ringLen {reqs : List ArbReq} {s : State} (h : ∀ r ∈ reqs, r.j < 22) (idle : Bool) (i : Fin 22) :
    (arbDecide 20 reqs idle s).rd (Reg.MRN_QCFG_LEN i) = s.rd (Reg.MRN_QCFG_LEN i) := by
  have grant : ∀ b, (arbDecide.grant 20 reqs idle b s).rd (Reg.MRN_QCFG_LEN i) = s.rd (Reg.MRN_QCFG_LEN i) := by
    intro b
    unfold arbDecide.grant
    split
    next => rfl
    next q byF hq =>
      have hj := h q (arbPick_mem hq)
      have grants : (Reg.MRN_QCFG_LEN i).off ≠ (Reg.ARB_GRANTS 20 q.j).off := by
        show 0xF440 + 4 * i.val ≠ 0xCA40 + 12 * q.j
        omega
      have longest : (Reg.MRN_QCFG_LEN i).off ≠ (Reg.ARB_LONGEST 20 q.j).off := by
        show 0xF440 + 4 * i.val ≠ 0xCA40 + 12 * q.j + 8
        omega
      exact (wr_off _ _ longest (by exact (by decide : 16 < 32)) (by exact (by decide : 0 < 32))).trans
        (wr_off _ _ grants (by exact (by decide : 16 < 32)) (by exact (by decide : 0 < 32)))
  unfold arbDecide
  dsimp only
  split
  · split
    · exact grant _
    · rfl
  · exact grant _

theorem spillTurn_ringLen (s : State) (i : Fin 22) : (spillTurn s).rd (Reg.MRN_QCFG_LEN i) = s.rd (Reg.MRN_QCFG_LEN i) := by
  have hsync : (arbSync 20 s).rd (Reg.MRN_QCFG_LEN i) = s.rd (Reg.MRN_QCFG_LEN i) := (arbSync_keeps ..).rd_eq _
  unfold spillTurn
  dsimp only
  split
  · exact (arbDecide_ringLen (fun r => spillReqs_lt) true i).trans hsync
  · exact hsync

theorem arbSync_bare (a : Nat) (s : State) : arbSync a s.bare = (arbSync a s).bare := by
  unfold arbSync
  dsimp only
  rw [apply_ite State.bare, apply_ite State.bare]
  rfl

theorem arbDecide_bare (a : Nat) (reqs : List ArbReq) (idle : Bool) (s : State) : arbDecide a reqs idle s.bare = (arbDecide a reqs idle s).bare := by
  have grant : ∀ b, arbDecide.grant a reqs idle b s.bare = (arbDecide.grant a reqs idle b s).bare := by
    intro b
    unfold arbDecide.grant
    split <;> rfl
  unfold arbDecide
  dsimp only
  rw [bare_State_arbOf, bare_arbInForce]
  split
  · rw [grant]
    split <;> rfl
  · exact grant _

/-- The turn of the spill port reads neither the queue nor the outputs. -/
theorem spillHolds_bare (s : State) (i : Nat) : spillHolds s.bare i = spillHolds s i := by
  have turn : spillTurn s.bare = (spillTurn s).bare := by
    unfold spillTurn
    dsimp only
    rw [arbSync_bare, bare_State_arbOf, bare_spillReqs, arbDecide_bare]
    split <;> rfl
  unfold spillHolds
  rw [turn, bare_State_arbOf]

/-- A transfer of the input that holds the spill port, and its end. -/
theorem spillGrant_holder {i : Nat} {f : State → State} {s : State} (h : spillHolds s i = true) :
    spillGrant i f s = spillEnd (f (spillTurn s)) := if_pos h

theorem stageToRing_does (i : Nat) (s : State) : (stageToRing i s).staging i = [] ∧
    (stageToRing i s).ring i = s.ring i ++ [(tailBlock s i, s.staging i)] ∧ (stageToRing i s).xb.spillOut = s.xb.spillOut :=
  ⟨State.staging_setStaging s i [], State.ring_setRing .., rfl⟩

/-- The full staging stands at the tail of its ring, whatever the turn of the port has counted. -/
theorem stageToRing_turn (i : Fin 22) (s : State) :
    (stageToRing i (spillTurn s)).staging i = [] ∧ (stageToRing i (spillTurn s)).ring i = s.ring i ++ [(tailBlock s i, s.staging i)] ∧
      (stageToRing i (spillTurn s)).xb.spillOut = s.xb.spillOut := by
  obtain ⟨hstaging, hring, hout⟩ := stageToRing_does i (spillTurn s)
  have hkeep := spillTurn_keeps s
  have htail : tailBlock (spillTurn s) i = tailBlock s i := by
    unfold tailBlock
    rw [hkeep.same .xb (by decide), spillTurn_ringLen]
  rw [htail, hkeep.ring_eq, hkeep.staging_eq] at hring
  exact ⟨hstaging, hring, hout.trans (congrArg XbS.spillOut (hkeep.same .xb (by decide)))⟩

/-- What pumping leaves of the crossbar: the rings, what it has put out and what waits for answers at the spill port. -/
def unpumped (s : State) : Tbl (List (Nat × List XEntry)) × List Msg × List Msg × List (Nat × Nat) :=
  (s.xb.rings, s.xb.recIn, s.xb.ctl, s.xb.spillOut)

theorem Keeps.unpumped_eq {w : List Part} {s t : State} (h : Keeps w s t) (hp : Part.xb ∉ w := by decide) : unpumped t = unpumped s := by
  unfold unpumped
  rw [h.same .xb hp]

theorem xbStore_unpumped (i : Nat) (m : Msg) (d : List (BitVec 12)) (re : Bool) (res : Option Nat) (p : Place) (s : State) :
    unpumped (xbStore i m d re res p s) = unpumped s := by
  unfold xbStore
  generalize (if i = 21 then { m with rver := BitVec.ofNat 3 (s.rd Reg.ROUTE_VER_VER) } else m) = m'
  dsimp only
  have routed := (takeRoutes_keeps m' res.isSome d s).unpumped_eq
  split
  next => exact routed
  next =>
    have woken (u : State) : unpumped (wakeRoutes m' (takeRoutes m' res.isSome d s).1 { u with xb := { u.xb with serial := u.xb.serial + 1 } }) =
        unpumped u := (wakeRoutes_keeps ..).unpumped_eq
    have stored := (woken (takeRoutes m' res.isSome d s).2).trans routed
    split
    next => exact stored
    next =>
      split
      · exact stored
      · exact (trace_keeps ..).unpumped_eq.trans stored
    next => exact stored

theorem xbTry_unpumped (i : Nat) (m : Msg) (re : Bool) (res : Option Nat) (s : State) : unpumped (xbTry i m re res s).2 = unpumped s := by
  unfold xbTry
  split
  next => exact xbStore_unpumped ..
  next =>
    dsimp only
    split
    · unfold mrnFull
      split
      · exact (raiseInt_keeps ..).unpumped_eq.trans (State.inc_keeps ..).unpumped_eq
      · rfl
    · rfl

theorem pumpList_unpumped (i : Nat) (l : List RecEntry) (shut : List Cls) (s : State) : unpumped (pumpList i l shut s).2 = unpumped s := by
  induction l generalizing shut s with
  | nil => rfl
  | cons x l ih =>
    unfold pumpList
    split
    · exact ih shut s
    · have h := xbTry_unpumped i x.msg x.restored x.res s
      split
      next u hu => rw [hu] at h; exact (ih shut u).trans h
      next u hu => rw [hu] at h; exact (ih _ u).trans h

theorem pumpRx_unpumped (p : Nat) (s : State) : unpumped (pumpRx p s) = unpumped s := by
  have enter : ∀ (l : List Msg) (shut : List Cls) (s : State), unpumped (pumpRx.go p l shut s).2 = unpumped s := by
    intro l
    induction l with
    | nil => exact fun _ _ => rfl
    | cons m l ih =>
      intro shut s
      unfold pumpRx.go
      split
      · exact ih shut s
      · have h := xbTry_unpumped (12 + p) m false none s
        split
        next u hu => rw [hu] at h; exact (ih shut _).trans h
        next u hu => rw [hu] at h; exact (ih _ u).trans h
  unfold pumpRx
  split
  · rfl
  · exact enter ..

/-- What is pumped into the crossbar enters a buffer or a staging. -/
theorem pumpAll_unpumped (s : State) : unpumped (pumpAll s) = unpumped s := by
  have list (i l) (u : State) := pumpList_unpumped i l [] u
  have ret (r u) : unpumped (pumpRet r u) = unpumped u := list ..
  have bar (u) : unpumped (pumpBar u) = unpumped u := list ..
  have ctl (u) : unpumped (pumpCtl u) = unpumped u := list ..
  have rec_ (u) : unpumped (pumpRec u) = unpumped u := list ..
  unfold pumpAll
  dsimp only
  rw [bar, ctl, rec_, ret, ret, ret, ret, pumpRx_unpumped, pumpRx_unpumped, pumpRx_unpumped, pumpRx_unpumped]

theorem ring_of_unpumped {s t : State} (h : unpumped t = unpumped s) (i : Nat) : t.ring i = s.ring i :=
  congrArg (fun r : Tbl (List (Nat × List XEntry)) => tget [] r i) (congrArg Prod.fst h)

/-- The oldest block leaves its ring (R227). -/
theorem ringToBuf_ring {i no : Nat} {l : List XEntry} {rest : List (Nat × List XEntry)} {s : State} (h : s.ring i = (no, l) :: rest) :
    (ringToBuf i false s).ring i = rest := by
  unfold ringToBuf
  simp only [h]
  exact State.ring_setRing ..

/-- A replica of an event that takes custody enters its region's crossing with its record, another replica without (R303). -/
theorem intoCrossing_does {i u : Nat} {m : Msg} {s : State} (hi : i < 16) (hr : m.repres = false) :
    (intoCrossing i m u false s).crossing (u % 64 / 16) = s.crossing (u % 64 / 16) ++ [{ msg := m, u := u, since := s.time.now }] ∧
      (takesCustody m = true → firnCount s < 16384 → (intoCrossing i m u false s).recOf (firnFree s) = some
        { kind := .custody, msg := m, place := u, since := s.time.now }) ∧
      (takesCustody m = false → (intoCrossing i m u false s).firn = s.firn) := by
  unfold intoCrossing
  dsimp only
  have direct : ¬ (m.repres && (custodyOf s m m.dest).isSome) = true := by
    rw [hr]
    exact Bool.false_ne_true
  rw [if_neg Bool.false_ne_true, if_neg (show ¬(16 ≤ i ∧ i < 20) by omega), if_neg direct]
  cases hc : takesCustody m with
  | false =>
    rw [if_pos (by decide)]
    exact ⟨State.crossing_setCrossing .., fun h => absurd h Bool.false_ne_true, fun _ => rfl⟩
  | true =>
    have hw := firnWrite_keeps { kind := .custody, msg := m, place := u, since := s.time.now } s
    rw [if_neg (by decide)]
    refine ⟨(State.crossing_setCrossing ..).trans ?_, fun _ hn => ?_, fun h => absurd h.symm Bool.false_ne_true⟩
    · rw [hw.crossing_eq, hw.same .time (by decide)]
    · exact (recOf_firn (firnWrite_recs (show firnCount s < Config.firnRecords from hn)) _).trans (State.recOf_setRec ..)

/-- The one match of a cycle is read, and passes toward its output. -/
theorem schedMove_one {r : Req} {e : XEntry} {s : State} (he : reqEntry s r = some e) (hel : eligible s e r = true) :
    schedMove [] r s = dropOwed r (forwardTo r e (s.inc Reg.XB_ERR_CE 0)) := by
  unfold schedMove
  simp only [he, hel]
  rfl

/-- The cycle in which the scheduler matches one replica for a unit of this die. -/
theorem schedCycle_crosses {r : Req} {e : XEntry} {s : State} (hth : thawDue s = false) (h1 : schedIter (schedReqs s) s.xb [] = [r])
    (h2 : schedIter (schedReqs s) s.xb [r] = []) (he : reqEntry s r = some e) (hel : eligible s e r = true) (ho : r.o < 16) (hi : r.i < 16)
    (hres : e.restored = false) (hrep : e.msg.repres = false) :
    (schedCycle [] s).crossing (destLane r.dest % 64 / 16) = s.crossing (destLane r.dest % 64 / 16) ++
        [{ msg := replicaOf r.dest e.msg, u := destLane r.dest, since := s.time.now }] ∧
      (takesCustody e.msg = true → firnCount s < 16384 → (schedCycle [] s).recOf (firnFree s) = some
        { kind := .custody, msg := replicaOf r.dest e.msg, place := destLane r.dest, since := s.time.now }) ∧
      (takesCustody e.msg = false → (schedCycle [] s).firn = s.firn) := by
  have hcycle := schedCycle_one (ecc := []) hth h1 h2
  obtain ⟨s1, hs1⟩ : ∃ s1, { s with xb := { movePtrs [r] s.xb with reflex := [] } } = s1 := ⟨_, rfl⟩
  have hpre : Keeps [.xb] s s1 := hs1 ▸ Keeps.xb (by decide) Keeps.refl
  obtain ⟨u, hu, hku⟩ := forwardTo_region (e := e) (s1.inc Reg.XB_ERR_CE 0) ho
  have hk : Keeps [.xb, .regs, .trc, .rec_] s u := (hpre.andThen (State.inc_keeps ..) : Keeps [.xb, .regs] s _).andThen hku
  have hmove : schedMove [] r s1 = dropOwed r (intoCrossing r.i (replicaOf r.dest e.msg) (destLane r.dest) false u) := by
    have he1 : reqEntry s1 r = some e := by
      rw [← hs1]
      exact he
    have hel1 : eligible s1 e r = true := by
      rw [← hs1]
      exact hel
    rw [schedMove_one he1 hel1, hu, hres]
  have hlast : Keeps [.regs, .src, .xb, .lnk, .pwr, .trc] (intoCrossing r.i (replicaOf r.dest e.msg) (destLane r.dest) false u)
      (schedCycle [] s) := by
    rw [hs1, hmove] at hcycle
    exact (dropOwed_keeps ..).andThen hcycle
  obtain ⟨hcross, hrec, hfirn⟩ := intoCrossing_does (u := destLane r.dest) (m := replicaOf r.dest e.msg) (s := u) hi hrep
  have hcount : firnCount u = firnCount s := by
    unfold firnCount firnInUse
    rw [hk.same .firn (by decide), hk.same .acc (by decide)]
  have hfree : firnFree u = firnFree s := congrArg (fun x : FirnS => firnFree.go x.recs 0) (hk.same .firn (by decide))
  have htime : u.time = s.time := hk.same .time (by decide)
  rw [hk.crossing_eq, htime] at hcross
  rw [hcount, hfree, htime] at hrec
  exact ⟨(hlast.crossing_eq _).trans hcross, fun hc hn => (hlast.recOf_eq _).trans (hrec hc hn),
    fun hc => (hlast.same .firn (by decide)).trans ((hfirn hc).trans (hk.same .firn (by decide)))⟩

/-- An access that the unit refuses for the spill engine stops it, and gives the port back (R229, R239). -/
theorem spillFault_stops {i : Nat} {addr cause region : Nat} {s : State} (h : spillHolds s i = true) :
    (spillFault i addr cause region s).xb = { s.xb with stopped := true } := by
  unfold spillFault spillStop
  rw [if_pos h, (arbWithdraw_keeps ..).same .xb (by decide), (mpuFaultField_keeps ..).same .xb (by decide)]
  exact congrArg (fun x : XbS => { x with stopped := true }) ((spillTurn_keeps s).same .xb (by decide))

/-- Without the spill port neither an access nor a refused one does anything. -/
theorem spillGrant_none {i : Nat} (f : State → State) {s : State} (h : spillHolds s i = false) : spillGrant i f s = s := by
  unfold spillGrant
  rw [h]
  rfl

theorem spillFault_none {i : Nat} (addr cause region : Nat) {s : State} (h : spillHolds s i = false) : spillFault i addr cause region s = s := by
  unfold spillFault
  rw [h]
  rfl

/-- Settles O12: the scheduler's match enters its crossing, and a block moves whole while its input holds the spill port. -/
theorem schedulerAndSpill : Obligations.SchedulerAndSpill := by
  refine ⟨fun r e s hc hth h1 h2 he hel ho hi hres hrep => ?forward, fun i rlx ns cache s hc hcan hlen hholds hmpu => ?write,
    fun i no l rest cause region s hc hcan hholds hring hmpu => ?fault, fun i no l rest rlx ns cache s hc hcan hholds hring hmpu => ?refill,
    fun i err s hc hholds => ⟨?idleWrite, ?idleRefill⟩, fun p l s hc hout => ?spilled, fun err s hc hout => ?traced⟩
  case forward =>
    refine next_clk hc fun t hx hrun => ?_
    have hth' : thawDue s.bare = false := hth
    have he' : reqEntry s.bare r = some e := he
    have hel' : eligible s.bare e r = true := hel
    have moved := schedCycle_crosses (s := s.bare) hth' h1 h2 he' hel' ho hi hres hrep
    rw [hx] at moved
    obtain ⟨hcross, hrec, hfirn⟩ := moved
    exact ⟨hcross, hrec, hfirn, (execSchedulerForward_keeps [] s).next _ hrun⟩
  case write =>
    refine next_clk hc fun t hx hrun => ?_
    have hcan' : canSpill s.bare i = true := hcan
    have hlen' : decide (4 ≤ s.bare.xb.spillOut.length) = false := decide_eq_false (Nat.not_le.2 hlen)
    have hmpu' : mpuCheck false 0 (blockAddr s.bare i (tailBlock s.bare i)) false true s.bare = .pass rlx ns cache := hmpu
    have hholds' : spillHolds s.bare i = true := (spillHolds_bare s i).trans hholds
    simp only [hcan', hlen', hmpu', spillGrant_holder hholds', Bool.not_true, Bool.or_self, Bool.false_eq_true, ↓reduceIte] at hx
    obtain ⟨hstaging, hring, hout⟩ := stageToRing_turn i s.bare
    obtain ⟨u, hu⟩ : ∃ u, stageToRing i (spillTurn s.bare) = u := ⟨_, rfl⟩
    have hkeep : Keeps [.regs, .arb, .xb] s.bare u := hu ▸ (spillTurn_keeps s.bare).andThen (stageToRing_keeps ..)
    rw [hu] at hx hstaging hring hout
    obtain ⟨v, hv⟩ : ∃ v : State, { u with xb := { u.xb with spillOut := u.xb.spillOut ++ [(i.val, tailBlock s i)] } } = v := ⟨_, rfl⟩
    have hxb : v.staging i = u.staging i ∧ v.ring i = u.ring i ∧ v.xb.spillOut = u.xb.spillOut ++ [(i.val, tailBlock s i)] :=
      hv ▸ ⟨rfl, rfl, rfl⟩
    have hkv : Keeps [.regs, .arb, .xb] s.bare v := hv ▸ hkeep.xb (by decide)
    obtain ⟨o, ho⟩ : ∃ o : PortOut,
        .mpWrite false (blockAddr s i (tailBlock s i)) (blockWords (s.staging i)) rlx ns (BitVec.ofNat 2 cache) = o := ⟨_, rfl⟩
    replace hx : spillEnd (v.emit o) = t := by
      rw [← hv, ← ho]
      exact hx
    have hend : Keeps [.regs, .arb] (v.emit o) t := hx ▸ spillEnd_keeps _
    have hall : Keeps [.out, .regs, .xb, .arb] s.bare t := (hkv.andThen (State.emit_keeps v o) : Keeps [.out, .regs, .xb, .arb] _ _).andThen hend
    refine ⟨?_, ?_, ?_, ?_, hall.bare (by decide)⟩
    · exact (hend.staging_eq i).trans (hxb.1.trans hstaging)
    · exact (hend.ring_eq i).trans (hxb.2.1.trans hring)
    · exact (congrArg XbS.spillOut (hend.same .xb (by decide))).trans (hxb.2.2.trans (congrArg (· ++ _) hout))
    · refine (hend.same .out (by decide)).trans ((emit_only ?_ o).trans (ho ▸ rfl))
      exact hkv.same .out (by decide)
  case fault =>
    refine next_clk hc fun t hx hrun => ?_
    have hcan' : canRefill s.bare i = true := hcan
    have hring' : s.bare.ring i = (no, l) :: rest := hring
    have hmpu' : mpuCheck false 0 (blockAddr s.bare i no) false false s.bare = .fault cause region := hmpu
    simp only [hcan', hring', hmpu'] at hx
    subst hx
    exact ⟨spillFault_stops ((spillHolds_bare s i).trans hholds), (execMoraineRefill_keeps i false s).next _ hrun⟩
  case refill =>
    refine next_clk hc fun t hx hrun => ?_
    have hcan' : canRefill s.bare i = true := hcan
    have hring' : s.bare.ring i = (no, l) :: rest := hring
    have hmpu' : mpuCheck false 0 (blockAddr s.bare i no) false false s.bare = .pass rlx ns cache := hmpu
    have hholds' : spillHolds s.bare i = true := (spillHolds_bare s i).trans hholds
    simp only [hcan', hring', hmpu', spillGrant_holder hholds', Bool.not_true, Bool.false_eq_true, ↓reduceIte] at hx
    obtain ⟨v, hv⟩ : ∃ v, spillTurn s.bare = v := ⟨_, rfl⟩
    have hkv : Keeps [.regs, .arb] s.bare v := hv ▸ spillTurn_keeps s.bare
    obtain ⟨o, ho⟩ : ∃ o : PortOut, .mpRead (blockAddr s i no) rlx ns (BitVec.ofNat 2 cache) = o := ⟨_, rfl⟩
    replace hx : spillEnd (pumpAll (freeFull (ringToBuf i false (v.emit o)))) = t := by
      rw [← hv, ← ho]
      exact hx
    have hend : Keeps [.regs, .arb] (pumpAll (freeFull (ringToBuf i false (v.emit o)))) t := hx ▸ spillEnd_keeps _
    have hemit : (v.emit o).out = [o] := emit_only (hkv.same .out (by decide)) o
    have hread : ((ringToBuf i false (v.emit o)).ring i) = rest := ringToBuf_ring ((hkv.ring_eq i).trans hring)
    have hmoved : Keeps [.regs, .src, .xb, .lnk, .pwr, .trc] (v.emit o) (pumpAll (freeFull (ringToBuf i false (v.emit o)))) :=
      ((ringToBuf_keeps ..).andThen (freeFull_keeps _) : Keeps [.xb] _ _).andThen (pumpAll_keeps _)
    refine ⟨?_, ?_, (execMoraineRefill_keeps i false s).next _ hrun⟩
    · exact (hend.same .out (by decide)).trans ((hmoved.same .out (by decide)).trans (hemit.trans (ho ▸ rfl)))
    · exact (hend.ring_eq i).trans ((ring_of_unpumped (pumpAll_unpumped _) i).trans hread)
  case idleWrite =>
    have hholds' : spillHolds s.bare i = false := (spillHolds_bare s i).trans hholds
    refine runClk_eq (t := s.bare) hc ?_
    simp only [spillGrant_none _ hholds', spillFault_none _ _ _ hholds']
    split
    · rfl
    · split <;> rfl
  case idleRefill =>
    have hholds' : spillHolds s.bare i = false := (spillHolds_bare s i).trans hholds
    refine runClk_eq (t := s.bare) hc ?_
    simp only [spillGrant_none _ hholds', spillFault_none _ _ _ hholds']
    split
    · rfl
    · split <;> rfl
  case spilled =>
    refine runClk_eq (t := { s.bare with xb := { s.xb with spillOut := l } }) hc ?_
    have hout' : s.bare.xb.spillOut = p :: l := hout
    simp only [hout']
    rfl
  case traced =>
    refine runClk_eq (t := { s.bare with trc := { s.trc with dbOut := s.trc.dbOut - 1, dbStop := s.trc.dbStop || err } }) hc ?_
    exact if_neg (show ¬ s.bare.trc.dbOut = 0 from hout)

end Sys2Proof.Machine

namespace Sys2Proof.Machine

set_option Elab.async false

-- the shared arbiters (R233 to R242)

/-- The synchronization of an arbiter whose mode stands restores its scope at most. -/
theorem arbSync_stands {a : Nat} {s : State} (h : arbMustAge s a = (s.arbOf a).aging) :
    arbSync a s = s.setArb a { s.arbOf a with scope := (s.arbOf a).scope && restoring s a } := by
  unfold arbSync
  exact if_pos (by simp [h])

/-- Out of the conditions of aging mode the synchronization ends it, and leaves the window's count and the holder. -/
theorem arbSync_normal {a : Nat} {s : State} (h : arbMustAge s a = false) : ∃ b : Arb, arbSync a s = s.setArb a b ∧
    b.aging = false ∧ b.since = (s.arbOf a).since ∧ b.window = (s.arbOf a).window ∧ b.holder = (s.arbOf a).holder := by
  cases hb : (s.arbOf a).aging with
  | false => exact ⟨_, arbSync_stands (h.trans hb.symm), hb, rfl, rfl, rfl⟩
  | true =>
    refine ⟨arbFill s a { { s.arbOf a with scope := (s.arbOf a).scope && restoring s a } with aging := false }, ?_, rfl, rfl, rfl, rfl⟩
    unfold arbSync
    dsimp only
    rw [h, hb, if_neg (by decide), if_neg (by decide)]

/-- Where no one asks, no one is picked. -/
theorem arbPick_nil (b : Arb) (a : Nat) : arbPick b a [] = none := by
  unfold arbPick
  simp [best]

/-- A beat by a transfer that goes on, or at another port than the spill port, leaves the crossbar. -/
theorem arbBeatOf_goesOn {a j : Nat} {s : State} (h : a = 20 → (s.arbOf 20).holder.isSome = true) :
    Keeps [.out, .regs, .time, .rq, .arb, .camp, .lnk, .bar, .gate] s (arbBeatOf a j s) := by
  unfold arbBeatOf
  split_ifs with h1 h2 h3
  · exact (clusBeat_keeps ..).mono (by decide)
  · exact (linkBeat_keeps ..).mono (by decide)
  · unfold spillBeat
    rw [if_pos (h h3)]
    exact Keeps.refl
  · exact (ringBeat_keeps ..).mono (by decide)

/-- At the spill port the beats of a transfer that goes on count in the arbiter alone. -/
theorem arbBeats_spill {h : Xfer} {n : Nat} {s : State} (hh : (s.arbOf 20).holder = some h) (hn : h.done + n < h.beats) :
    Keeps [.arb] s (arbBeats 20 (arbBeatOf 20) n s) := by
  induction n generalizing h s with
  | zero => exact Keeps.refl
  | succ n ih =>
    obtain ⟨u, hu⟩ : ∃ u, arbBeat 20 (arbBeatOf 20) s = u := ⟨_, rfl⟩
    have beat : (∃ b : Arb, u = s.setArb 20 b) ∧ (u.arbOf 20).holder = some { h with done := h.done + 1, granted := true } := by
      unfold arbBeat at hu
      simp only [hh, if_neg (show ¬ h.beats ≤ h.done + 1 by omega)] at hu
      have stays : ∀ b : Arb, b.holder.isSome = true → arbBeatOf 20 h.j (s.setArb 20 b) = s.setArb 20 b := fun b hb => by
        rw [arbBeatOf, if_neg (by decide), if_neg (by decide), if_pos rfl, spillBeat, State.arbOf_setArb, if_pos hb]
      rw [stays _ rfl] at hu
      exact ⟨⟨_, hu.symm⟩, by rw [← hu, State.arbOf_setArb]⟩
    obtain ⟨⟨b, hb⟩, hholder⟩ := beat
    rw [arbBeats, hu]
    exact (hb ▸ State.setArb_keeps .. : Keeps [.arb] s u).trans (ih hholder (by show h.done + 1 + n < h.beats; omega))

/-- A beat in the middle of a transfer leaves the crossbar. -/
theorem arbBeat_goesOn {a : Nat} {h : Xfer} {s : State} (hh : (s.arbOf a).holder = some h) (hn : h.done + 1 < h.beats) :
    Keeps [.out, .regs, .time, .rq, .arb, .camp, .lnk, .bar, .gate] s (arbBeat a (arbBeatOf a) s) := by
  unfold arbBeat
  simp only [hh, if_neg (show ¬ h.beats ≤ h.done + 1 by omega)]
  refine (State.setArb_keeps ..).andThen (arbBeatOf_goesOn fun ha => ?_)
  subst ha
  rw [State.arbOf_setArb]
  rfl

/-- An idle arbiter grants, and the first beat of a longer transfer falls in the same cycle (R235, R236). -/
theorem arbRun_grants {a : Nat} {r : ArbReq} {byF : Bool} {s : State} (hage : arbMustAge s a = false) (haging : (s.arbOf a).aging = false)
    (hscope : (s.arbOf a).scope = false) (hholder : (s.arbOf a).holder = none) (hrev : (s.arbOf a).revoked = none)
    (hpick : arbPick (arbInForce s a (s.arbOf a)) a (arbReqs a s) = some (r, byF)) (hbeats : 2 ≤ grantBeats a byF r)
    (hhalf : 21 ≤ a → r.j ≠ 16 → tget false s.gate.half (16 * (a - 21) + r.j) = false) :
    let u := arbRun a (arbReqs a) (arbBeatOf a) s
    (u.arbOf a).holder = some { j := r.j, beats := grantBeats a byF r, done := 1, f := r.f, due := 1 } ∧
      (u.arbOf a).credit = tset 0 (s.arbOf a).credit r.j (debit (tget 0 (s.arbOf a).credit r.j) (grantBeats a byF r)) ∧
      (u.arbOf a).next = (r.j + 1) % arbSize a ∧ (∀ b, b ≠ a → u.arbOf b = s.arbOf b) ∧
      Keeps [.out, .regs, .time, .rq, .arb, .camp, .lnk, .bar, .gate] s u := by
  obtain ⟨s1, hs1⟩ : ∃ s1, s.setArb a (s.arbOf a) = s1 := ⟨_, rfl⟩
  have own : s1.arbOf a = s.arbOf a := hs1 ▸ State.arbOf_setArb ..
  have calm : Keeps [.arb] s s1 := hs1 ▸ State.setArb_keeps ..
  obtain ⟨d, hd⟩ : ∃ d, arbDecide a (arbReqs a s) true s1 = d := ⟨_, rfl⟩
  have run : arbRun a (arbReqs a) (arbBeatOf a) s = arbBeat a (arbBeatOf a) d := by
    unfold arbRun
    rw [arbSync_calm (hage.trans haging.symm) hscope, hs1]
    dsimp only
    rw [own, hholder, ← hd, ← hs1, arbReqs_setArb]
  have grant := arbDecide_grants (a := a) (reqs := arbReqs a s) (s := s1) true (by rw [own]; exact hrev)
    (by rw [own, arbInForce_regs (calm.same .regs (by decide))]; exact hpick) (by rw [own]; exact haging)
  rw [hd, own] at grant
  obtain ⟨hx, hcredit, hnext, hgate⟩ := grant
  have decided : Keeps [.regs, .arb] s d := calm.andThen (hd ▸ arbDecide_keeps ..)
  have beat := arbBeat_mid hx rfl (show 0 + 1 < grantBeats a byF r by omega)
    (fun h1 h2 => (congrArg (fun g : GateS => tget false g.half _) (decided.same .gate (by decide))).trans (hhalf h1 h2))
  obtain ⟨x, hx1⟩ : ∃ x : Xfer, { j := r.j, beats := grantBeats a byF r, done := 1, f := r.f, due := 1 } = x := ⟨_, rfl⟩
  have after : ∀ b, (arbBeat a (arbBeatOf a) d).arbOf b = (d.setArb a { d.arbOf a with holder := some x }).arbOf b :=
    fun b => arbOf_arb (hx1 ▸ beat) b
  dsimp only
  rw [run, hx1]
  refine ⟨?_, ?_, ?_, fun b hb => ?_, decided.andThen (arbBeat_goesOn hx (show 0 + 1 < grantBeats a byF r by omega))⟩
  · rw [after, State.arbOf_setArb]
  · rw [after, State.arbOf_setArb]
    exact hcredit
  · rw [after, State.arbOf_setArb]
    exact hnext
  · rw [after, State.arbOf_setArb_ne _ _ hb, ← hd, arbDecide_other a hb, ← hs1, State.arbOf_setArb_ne _ _ hb]

theorem arbMustAge_setArb (a : Nat) (s : State) : arbMustAge (s.setArb a (s.arbOf a)) a = arbMustAge s a := by
  unfold arbMustAge
  rw [State.arbOf_setArb]
  rfl

/-- An idle link grants as any arbiter does. -/
theorem linkRun_grants {a : Nat} {r : ArbReq} {byF : Bool} {s : State} (hage : arbMustAge s a = false) (haging : (s.arbOf a).aging = false)
    (hscope : (s.arbOf a).scope = false) (hholder : (s.arbOf a).holder = none) (hrev : (s.arbOf a).revoked = none)
    (hpick : arbPick (arbInForce s a (s.arbOf a)) a (arbReqs a s) = some (r, byF)) (hbeats : 2 ≤ grantBeats a byF r)
    (hhalf : 21 ≤ a → r.j ≠ 16 → tget false s.gate.half (16 * (a - 21) + r.j) = false) :
    let u := linkRun a s
    (u.arbOf a).holder = some { j := r.j, beats := grantBeats a byF r, done := 1, f := r.f, due := 1 } ∧
      (u.arbOf a).credit = tset 0 (s.arbOf a).credit r.j (debit (tget 0 (s.arbOf a).credit r.j) (grantBeats a byF r)) ∧
      (u.arbOf a).next = (r.j + 1) % arbSize a ∧ (∀ b, b ≠ a → u.arbOf b = s.arbOf b) ∧
      Keeps [.out, .regs, .time, .rq, .arb, .camp, .lnk, .bar, .gate] s u := by
  have own : (s.setArb a (s.arbOf a)).arbOf a = s.arbOf a := State.arbOf_setArb ..
  have run : linkRun a s = arbRun a (arbReqs a) (arbBeatOf a) (s.setArb a (s.arbOf a)) := by
    unfold linkRun
    dsimp only
    rw [arbSync_calm (hage.trans haging.symm) hscope, own, hholder]
  have grants := arbRun_grants (r := r) (byF := byF) ((arbMustAge_setArb a s).trans hage) (by rw [own]; exact haging)
    (by rw [own]; exact hscope) (by rw [own]; exact hholder) (by rw [own]; exact hrev) (by rw [own]; exact hpick) hbeats hhalf
  rw [← run, own] at grants
  obtain ⟨hx, hcredit, hnext, hothers, hkeep⟩ := grants
  exact ⟨hx, hcredit, hnext, fun b hb => (hothers b hb).trans (State.arbOf_setArb_ne _ _ hb),
    (State.setArb_keeps s a (s.arbOf a)).andThen hkeep⟩

/-- Pinning a ring writer's grant leaves every arbiter. -/
theorem pinRing_arbOf (a b : Nat) (s : State) : (pinRing a s).arbOf b = s.arbOf b := (pinRing_keeps a s).arbOf_eq b

/-- The revoked transfer that waits is dropped, and nothing else at the arbiters changes. -/
theorem arbWithdraw_drops {a : Nat} {h : Xfer} {reqs : State → List ArbReq} {s : State} (hage : arbMustAge s a = (s.arbOf a).aging)
    (hrev : (s.arbOf a).revoked = some h) :
    let u := arbWithdraw a true reqs s
    (u.arbOf a).revoked = none ∧ (u.arbOf a).holder = (s.arbOf a).holder ∧ (u.arbOf a).credit = (s.arbOf a).credit ∧
      ∀ b, b ≠ a → u.arbOf b = s.arbOf b := by
  unfold arbWithdraw
  simp only [arbSync_stands hage, State.arbOf_setArb, hrev, State.inc_arbOf, true_and]
  exact fun b hb => (State.arbOf_setArb_ne _ _ hb).trans (State.arbOf_setArb_ne _ _ hb)

/-- Past its window, and out of the conditions of aging mode, an arbiter gives every requester its weight (R234). -/
theorem arbRefill_fills {a : Nat} {s : State} (hage : arbMustAge s a = false) (hwin : (s.arbOf a).window ≤ (s.arbOf a).since) :
    let u := arbRefill a s
    (∀ j, j < arbSize a → tget 0 (u.arbOf a).credit j = arbWeight s a j) ∧ (u.arbOf a).since = (s.arbOf a).since - (s.arbOf a).window ∧
      (u.arbOf a).holder = (s.arbOf a).holder ∧ ∀ b, b ≠ a → u.arbOf b = s.arbOf b := by
  obtain ⟨b, hsync, haging, hsince, hwindow, hholder⟩ := arbSync_normal hage
  have hpast : ¬ b.since < b.window := by
    rw [hsince, hwindow]
    exact Nat.not_lt.2 hwin
  unfold arbRefill
  simp only [hsync, State.arbOf_setArb, if_neg hpast, haging, Bool.false_eq_true, ↓reduceIte]
  refine ⟨fun j hj => credit_fill (arbWeight s a) (arbSize a) j hj, ?_, hholder, fun c hc => ?_⟩
  · show b.since - b.window = _
    rw [hsince, hwindow]
  · exact (State.arbOf_setArb_ne _ _ hc).trans (State.arbOf_setArb_ne _ _ hc)

/-- Before its window has passed an arbiter refills nothing. -/
theorem arbRefill_early {a : Nat} {s : State} (hage : arbMustAge s a = (s.arbOf a).aging) (hwin : (s.arbOf a).since < (s.arbOf a).window) :
    let u := arbRefill a s
    (u.arbOf a).credit = (s.arbOf a).credit ∧ ∀ b, b ≠ a → u.arbOf b = s.arbOf b := by
  unfold arbRefill
  simp only [arbSync_stands hage, State.arbOf_setArb, if_pos hwin, true_and]
  exact fun b hb => State.arbOf_setArb_ne _ _ hb

/-- Class F need takes the port back: the transfer waits with the beats that it has carried (R240). -/
theorem arbRevoke_takes {a : Nat} {h : Xfer} {s : State} (hholder : (s.arbOf a).holder = some h) (hf : h.f = false)
    (hleft : h.done + arbNow h < h.beats) (hneed : (arbReqs a (arbSync a s)).any (·.f) = true)
    (hneed' : (arbReqs a (arbTakeBack a h (arbNow h) (arbBeats a (arbBeatOf a) (arbNow h) (arbSync a s)))).any (·.f) = true) :
    let u := arbRevoke a (arbReqs a) (arbBeatOf a) s
    (u.arbOf a).revoked = some { h with done := h.done + arbNow h } ∧ Keeps [.out, .regs, .time, .rq, .arb, .camp, .lnk, .bar, .gate] s u := by
  have holds : ((arbSync a s).arbOf a).holder = some h := (arbSync_arbOf a s).1.trans hholder
  have hgo : ¬ (h.f || !(arbReqs a (arbSync a s)).any (·.f) || decide (h.beats ≤ h.done + arbNow h)) = true := by
    rw [hf, hneed, decide_eq_false (Nat.not_le.2 hleft)]
    decide
  have beats : Keeps [.out, .regs, .time, .rq, .arb, .camp, .lnk, .bar, .gate] s (arbBeats a (arbBeatOf a) (arbNow h) (arbSync a s)) := by
    refine (arbSync_keeps a s).andThen (w2 := [.out, .regs, .time, .rq, .arb, .camp, .lnk, .bar, .gate]) ?_
    by_cases ha : a = 20
    · subst ha
      exact (arbBeats_spill holds hleft).mono (by decide)
    · exact arbBeats_keeps (by decide) a (fun j u => arbBeatOf_goesOn fun h => absurd h ha) _ _
  unfold arbRevoke
  simp only [holds]
  rw [if_neg (by simpa using hgo)]
  refine ⟨(arbDecide_revoked false hneed').trans ?_, (beats.andThen (arbTakeBack_keeps ..) : Keeps
    [.out, .regs, .time, .rq, .arb, .camp, .lnk, .bar, .gate] s _).andThen (arbDecide_keeps ..)⟩
  unfold arbTakeBack
  dsimp only
  rw [State.inc_arbOf, State.arbOf_setArb]

/-- Settles O13: each clause follows the arbiter's one step, and what pins a ring writer's grant leaves the arbiters. -/
theorem sharedArbiters : Obligations.SharedArbiters := by
  refine ⟨fun a r byF s hc hage haging hscope hholder hrev hpick hbeats hhalf => ?grant, fun a h s hc hholder hf hleft hneed hneed' => ?revoke,
    fun a h s hc hage hrev => ?withdraw, fun a s hc hage hwin => ?refill, fun a s hc hage hwin => ?early⟩
  case grant =>
    refine next_run fun t hx hrun => ?_
    have hask : ¬ (16 ≤ a.val ∧ a.val < 20 ∧ (arbReqs a s.bare).isEmpty = true ∧ (s.bare.arbOf a).holder = none) := by
      rintro ⟨-, -, hempty, -⟩
      have hnil : arbReqs a s = [] := List.isEmpty_iff.1 hempty
      rw [hnil, arbPick_nil] at hpick
      cases hpick
    have hidle : ¬ (a.val = 20 ∧ (s.bare.arbOf a).holder.isSome = true) := by
      rw [show (s.bare.arbOf a).holder = none from hholder]
      exact fun h => Bool.false_ne_true h.2
    have hc' : arbClocked s.bare a = true := hc
    rw [hc', if_neg (by decide), if_neg hask, if_neg hidle] at hx
    obtain ⟨u, hu⟩ : ∃ u, (if 16 ≤ a.val ∧ a.val < 20 then linkRun a s.bare
      else arbRun a (arbReqs a) (arbBeatOf a) s.bare) = u := ⟨_, rfl⟩
    have grants : (u.arbOf a).holder = some { j := r.j, beats := grantBeats a byF r, done := 1, f := r.f, due := 1 } ∧
        (u.arbOf a).credit = tset 0 (s.arbOf a).credit r.j (debit (tget 0 (s.arbOf a).credit r.j) (grantBeats a byF r)) ∧
        (u.arbOf a).next = (r.j + 1) % arbSize a ∧ (∀ b, b ≠ a.val → u.arbOf b = s.arbOf b) ∧
        Keeps [.out, .regs, .time, .rq, .arb, .camp, .lnk, .bar, .gate] s.bare u := by
      rw [← hu]
      split
      · exact linkRun_grants (s := s.bare) hage haging hscope hholder hrev hpick hbeats hhalf
      · exact arbRun_grants (s := s.bare) hage haging hscope hholder hrev hpick hbeats hhalf
    obtain ⟨hx', hcredit, hnext, hothers, hkeep⟩ := grants
    have pinned : ∀ b, t.arbOf b = u.arbOf b := fun b => hx ▸ hu ▸ pinRing_arbOf a b _
    have hall : Keeps [.out, .regs, .time, .rq, .arb, .camp, .lnk, .bar, .gate] s.bare t :=
      hkeep.andThen (hx ▸ hu ▸ pinRing_keeps a _ : Keeps [.gate] u t)
    refine ⟨(congrArg Arb.holder (pinned a)).trans hx', ?_, fun j hj => ?_, (congrArg Arb.next (pinned a)).trans hnext,
      fun b hb => (pinned b).trans (hothers b hb), hall.bare (by decide)⟩
    · exact (congrArg (fun b : Arb => tget 0 b.credit r.j) (pinned a)).trans ((congrArg (tget 0 · r.j) hcredit).trans (tget_tset_same ..))
    · exact (congrArg (fun b : Arb => tget 0 b.credit j) (pinned a)).trans ((congrArg (tget 0 · j) hcredit).trans (tget_tset_ne _ _ _ _ hj))
  case revoke =>
    refine next_run fun t hx hrun => ?_
    have hc' : arbClocked s.bare a = true := hc
    have took := arbRevoke_takes (s := s.bare) hholder hf hleft hneed hneed'
    rw [if_pos hc'] at hx
    obtain ⟨u, hu⟩ : ∃ u, arbRevoke a (arbReqs a) (arbBeatOf a) s.bare = u := ⟨_, rfl⟩
    dsimp only at took
    rw [hu] at hx took
    obtain ⟨hrevoked, hkeep⟩ := took
    have hall : Keeps [.out, .regs, .time, .rq, .arb, .camp, .lnk, .bar, .gate] s.bare t := hkeep.andThen (hx ▸ pinRing_keeps a u)
    exact ⟨(congrArg Arb.revoked (hx ▸ pinRing_arbOf a a u)).trans hrevoked, hall.bare (by decide)⟩
  case withdraw =>
    refine next_run fun t hx hrun => ?_
    have hc' : arbClocked s.bare a = true := hc
    have drops := arbWithdraw_drops (reqs := arbReqs a) (s := s.bare) hage hrev
    rw [if_pos hc'] at hx
    obtain ⟨u, hu⟩ : ∃ u, arbWithdraw a true (arbReqs a) s.bare = u := ⟨_, rfl⟩
    dsimp only at drops
    rw [hu] at hx drops
    obtain ⟨hnone, hholder, hcredit, hothers⟩ := drops
    have pinned : ∀ b, t.arbOf b = u.arbOf b := fun b => hx ▸ pinRing_arbOf a b u
    exact ⟨(congrArg Arb.revoked (pinned a)).trans hnone, (congrArg Arb.holder (pinned a)).trans hholder,
      (congrArg Arb.credit (pinned a)).trans hcredit, fun b hb => (pinned b).trans (hothers b hb), (execArbiterWithdraw_keeps a true s).next _ hrun⟩
  case refill =>
    refine next_run fun t hx hrun => ?_
    have hc' : arbClocked s.bare a = true := hc
    have fills := arbRefill_fills (s := s.bare) hage hwin
    rw [if_pos hc'] at hx
    dsimp only at fills
    rw [hx] at fills
    obtain ⟨hcredit, hsince, hholder, hothers⟩ := fills
    exact ⟨hcredit, hsince, hholder, hothers, (execArbiterRefill_keeps a s).next _ hrun⟩
  case early =>
    refine next_run fun t hx hrun => ?_
    have hc' : arbClocked s.bare a = true := hc
    have stays := arbRefill_early (s := s.bare) hage hwin
    rw [if_pos hc'] at hx
    dsimp only at stays
    rw [hx] at stays
    obtain ⟨hcredit, hothers⟩ := stays
    exact ⟨hcredit, hothers, (execArbiterRefill_keeps a s).next _ hrun⟩

end Sys2Proof.Machine

namespace Sys2Proof.Machine

set_option Elab.async false

-- pending sets, vector caches and warms of a core (R96, R146 to R171)

/-- Without a redirected stream nothing is moved from a unit. -/
theorem moveRedirected_none {u : Nat} {s : State} (h : s.rq.redirect = []) : moveRedirected u s = pumpRet (u % 64 / 16) s := by
  unfold moveRedirected
  rw [h]
  rfl

/-- A line that has been filled is what the cache holds of its source. -/
theorem cached_filled (k : Nat) (l : Line) (s : State) : cached (askFills k (fillLine k l s)) k l.src = some l := by
  unfold cached
  rw [askFills_lines]
  unfold fillLine
  rw [State.clusOf_setClus]
  exact List.find?_cons_of_pos (by simp)

/-- A warm that is due starts, and the other predictors stand (R161). -/
theorem warmTry_starts {n i : Nat} {s : State} (hen : predEnabled s n i = true) (hpin : s.flag (Reg.PW_SRC_PIN n i) = false)
    (hst : (s.predOf n i).st = .locked) (hnext : (s.predOf n i).nextValid = true) (hwarm : (s.predOf n i).warm = false)
    (hhalt : (s.coreOf n).halt = false) (hload : unitLoaded s (1 + n / 16) = true)
    (hdue : reached32 s.t (s.rd (Reg.PW_NEXT_NEXT n i) + 2 ^ 32 - leadOf s n) = true) :
    Keeps [.clus, .pwr] (s.setPred n i { s.predOf n i with warm := true, warmAt := s.time.now }) (warmTry n i s) := by
  unfold warmTry
  simp only [hen, hpin, hst, hnext, hwarm, hhalt, hload, hdue]
  exact (Keeps.ite (wake_keeps ..) Keeps.refl : Keeps [.pwr] _ _).andThen (askFills_keeps ..)

/-- A core that is reset holds every event as a pending one, the active ones flagged (R168). -/
theorem resetCore_core {n : Nat} {s : State} (h : s.rq.redirect = []) : Keeps [.regs, .src, .xb, .clus, .pwr, .trc]
    (s.setCore n { s.coreOf n with pend := (s.coreOf n).pend ++ (s.coreOf n).taken ++ (s.coreOf n).active.map Msg.flag, taken := [], active := [] })
    (resetCore n s) := by
  obtain ⟨u, hu⟩ : ∃ u, s.setCore n { s.coreOf n with
    pend := (s.coreOf n).pend ++ (s.coreOf n).taken ++ (s.coreOf n).active.map Msg.flag, taken := [], active := [] } = u := ⟨_, rfl⟩
  have hr : (u.wr (Reg.THRESH_LEVEL n) 0).rq.redirect = [] := hu ▸ h
  unfold resetCore
  dsimp only
  rw [hu, moveRedirected_none hr]
  exact ((State.wr_keeps ..).andThen (pumpRet_keeps ..) : Keeps [.regs, .src, .xb, .pwr, .trc] u _).andThen (askFills_keeps ..)

/-- A warm ends (R171). -/
def calmed (n i : Nat) (s : State) : State := s.setPred n i { s.predOf n i with warm := false }

theorem calmed_both {n i : Nat} (hi : i < 2) (s : State) : (calmed n 1 (calmed n 0 s)).predOf n i = { s.predOf n i with warm := false } := by
  unfold calmed
  match i, hi with
  | 0, _ => rw [State.predOf_setPred_ne _ _ (by omega), State.predOf_setPred]
  | 1, _ => rw [State.predOf_setPred, State.predOf_setPred_ne _ _ (by omega)]

/-- A counted miss leaves the period. -/
theorem missCounted_period (n : Fin 64) (i : Fin 2) (s : State) :
    (if (s.coreOf n).halt then s else s.inc (Reg.PW_CNT_MISS n)).rd (Reg.PW_PER_PER n i) = s.rd (Reg.PW_PER_PER n i) := by
  split
  · rfl
  · refine wr_off _ _ ?_ (by exact (by decide : 0 < 32)) (by exact (by decide : 16 < 32))
    show 0x3028 + 0x40 * n.val + 0xC * i.val ≠ 0x303C + 0x40 * n.val
    omega

/-- Settles O14: each command's change of its core, its predictors or its cluster, with what follows it leaving them. -/
theorem pendingSets : Obligations.PendingSets := by
  refine ⟨fun n parity m l s hc hon hq hred => ?enters, fun n parity x l s hc hq hne hany => ?passed, fun k ecc f l s hc hon hf => ?fill,
    fun n i s hc hen hpin hst hnext hwarm hhalt hload hdue => ?warm, fun n i s hc hen hpin hst hnext hload hdue => ?miss,
    fun n s => ?rise, fun n s => ?fall, fun n viaPin s hc hred => ?reset⟩
  case enters =>
    refine next_clk hc fun t hx hrun => ?_
    have hon' : s.bare.on (n.val / 4) = true := hon
    have hq' : s.bare.toClus (n.val / 4) = (n.val, m) :: l := hq
    have hred' : (admitCore n parity m (s.bare.setToClus (n / 4) l)).rq.redirect = [] :=
      (congrArg RqS.redirect ((admitCore_keeps ..).same .rq (by decide))).trans hred
    simp only [hon', hq', List.any_cons, beq_self_eq_true, bne_self_eq_false, Bool.true_or, Bool.not_true, Bool.false_eq_true, ↓reduceIte, hred',
      List.any_nil] at hx
    have hadmit := predArrive2_core n parity m (s.bare.setToClus (n / 4) l)
    rw [hx] at hadmit
    exact ⟨(hadmit.coreOf_eq n).trans (State.coreOf_setCore ..), fun j hj => (hadmit.coreOf_eq j).trans (State.coreOf_setCore_ne _ _ hj),
      (hadmit.toClus_eq _).trans (State.toClus_setToClus ..), (execPendingAdmit_keeps n parity s).next _ hrun⟩
  case passed =>
    refine runClk_eq (t := s.bare) hc ?_
    have hq' : s.bare.toClus (n.val / 4) = x :: l := hq
    have hany' : (x :: l).any (·.1 == n.val) = true := by
      rw [List.any_cons, hany, Bool.or_true]
    have hne' : (x.1 != n.val) = true := by simpa using hne
    simp only [hq', hany', hne', Bool.true_or, ↓reduceIte]
    exact ite_self _
  case fill =>
    refine next_clk hc fun t hx hrun => ?_
    have hf' : (s.bare.clusOf k).fills = f :: l := hf
    have hon' : s.bare.on k = true := hon
    simp only [hf', hon'] at hx
    replace hx : askFills k (fillLine k (descriptor s.bare f.2 (ecc == .uncorrectable)) s.bare) = t := hx
    have hline := cached_filled k (descriptor s.bare f.2 (ecc == .uncorrectable)) s.bare
    rw [hx] at hline
    exact ⟨hline, (execVectorCacheFill_keeps k ecc s).next _ hrun⟩
  case warm =>
    refine next_clk hc fun t hx hrun => ?_
    have hstart := warmTry_starts (n := n) (i := i) (s := s.bare) hen hpin hst hnext hwarm hhalt hload hdue
    rw [hx] at hstart
    refine ⟨(hstart.predOf_eq n i).trans (State.predOf_setPred ..), fun k j hne hj => ?_, (execWarmStart_keeps n i s).next _ hrun⟩
    refine (hstart.predOf_eq k j).trans (State.predOf_setPred_ne _ _ fun h => hne ?_)
    have hi := i.isLt
    exact Prod.ext (show k = n.val by omega) (show j = i.val by omega)
  case miss =>
    refine next_clk hc fun t hx hrun => ?_
    have hen' : predEnabled s.bare n i = true := hen
    have hpin' : predPinned s.bare n i = false := hpin
    have hst' : (s.bare.predOf n i).st = .locked := hst
    have hnext' : (s.bare.predOf n i).nextValid = true := hnext
    have hload' : unitLoaded s.bare (1 + n / 16) = true := hload
    have hdue' : reached32 s.bare.t (s.bare.rd (Reg.PW_NEXT_NEXT n i) + s.bare.rd (Reg.PREWARM_TOL n) + 1024) = true := hdue
    simp only [hen', hpin', hst', hnext', hload', hdue', Bool.not_false, Bool.and_self, beq_self_eq_true, ↓reduceIte, missCounted_period] at hx
    obtain ⟨hmisses, hprev, hpred⟩ := warmTry_set hx
    refine ⟨hmisses.trans ?_, hprev.trans ?_, hpred, (execPredictorMiss_keeps n i s).next _ hrun⟩
    · split <;> rfl
    · split <;> rfl
  case rise =>
    refine next_run fun t hx hrun => ?_
    obtain ⟨u, hu⟩ : ∃ u, s.bare.setCore n { s.bare.coreOf n with halt := true } = u := ⟨_, rfl⟩
    have hpred : ∀ i, u.predOf n i = s.predOf n i := fun i => hu ▸ rfl
    replace hx : calmed n 1 (calmed n 0 u) = t := hu ▸ hx
    have hcalm : Keeps [.pred] u t := hx ▸ (State.setPred_keeps ..).trans (State.setPred_keeps ..)
    refine ⟨(hcalm.coreOf_eq n).trans (hu ▸ State.coreOf_setCore ..),
      fun j hj => (hcalm.coreOf_eq j).trans (hu ▸ State.coreOf_setCore_ne _ _ hj),
      fun i hi => ?_, (execCifHaltRise_keeps n s).next _ hrun⟩
    rw [← hpred i]
    exact hx ▸ calmed_both hi u
  case fall =>
    refine next_run fun t hx hrun => ?_
    obtain ⟨u, hu⟩ : ∃ u, s.bare.setCore n { s.bare.coreOf n with halt := false } = u := ⟨_, rfl⟩
    replace hx : (if clocked u then warmTry n 1 (warmTry n 0 u) else u) = t := hu ▸ hx
    have hwarm : Keeps [.pred, .clus, .pwr] u t :=
      hx ▸ Keeps.ite ((warmTry_keeps ..).trans (warmTry_keeps ..)) Keeps.refl
    subst hu
    exact ⟨(hwarm.coreOf_eq n).trans (State.coreOf_setCore ..), fun j hj => (hwarm.coreOf_eq j).trans (State.coreOf_setCore_ne _ _ hj),
      (execCifHaltFall_keeps n s).next _ hrun⟩
  case reset =>
    refine next_clk hc fun t hx hrun => ?_
    obtain ⟨u, hu⟩ : ∃ u, (if viaPin then s.bare else noteReset 0 n s.bare) = u := ⟨_, rfl⟩
    have hnote : Keeps [.regs] s.bare u := hu ▸ Keeps.ite Keeps.refl (noteReset_keeps ..)
    replace hx : resetCore n u = t := hu ▸ hx
    have hreset := resetCore_core (n := n) (s := u) ((congrArg RqS.redirect (hnote.same .rq (by decide))).trans hred)
    rw [hx, hnote.coreOf_eq] at hreset
    exact ⟨(hreset.coreOf_eq n).trans (State.coreOf_setCore ..),
      fun j hj => (hreset.coreOf_eq j).trans ((State.coreOf_setCore_ne _ _ hj).trans (hnote.coreOf_eq j)),
      (execCoreUnitReset_keeps n viaPin s).next _ hrun⟩

end Sys2Proof.Machine

namespace Sys2Proof.Machine

set_option Elab.async false

-- the frames of a link

/-- A frame that was scrambled by the seeds of a port is heard as it was. -/
theorem heard_heard (s : State) (p : Nat) (f : LinkFrame) : heard s p (heard s p f) = f := by
  unfold heard scramble
  split
  · rw [BitVec.xor_assoc, BitVec.xor_self, BitVec.xor_zero]
  · rfl

theorem heard_bare (s : State) (p : Nat) (f : LinkFrame) : heard s.bare p f = heard s p f := rfl

/-- A link-control frame that waits is the last of its port's. -/
theorem queueCtl_port (p : Nat) (f : LinkFrame) (s : State) :
    (queueCtl p f s).port p = { s.port p with ctl := (s.port p).ctl ++ [f] } ∧ ∀ q, q ≠ p → (queueCtl p f s).port q = s.port q :=
  ⟨State.port_setPort .., fun _ hq => State.port_setPort_ne _ _ hq⟩

/-- Frames in their slots leave the control frames that wait. -/
theorem sendSlot_ctl (p : Nat) (f : LinkFrame) (s : State) : ((sendSlot p f s).port p).ctl = (s.port p).ctl :=
  (congrArg PortS.ctl (State.port_setPort s p { s.port p with scrTx := scrSlot (s.port p).scrTx }) :)

theorem sendFrame_ctl (p : Nat) (f : LinkFrame) (s : State) : ((sendFrame p f s).port p).ctl = (s.port p).ctl := by
  unfold sendFrame
  dsimp only
  split_ifs
  · rw [sendSlot_ctl, State.port_setPort]
  · rw [sendSlot_ctl, State.port_setPort]
  · rw [sendSlot_ctl, sendSlot_ctl, State.port_setPort]

-- system time (R182 to R192, R208 to R211)

/-- What a request for an exchange leaves (R183). -/
theorem syncInterval_run {sub : Fin 32} {p : Nat} {s : State} (hc : clocked s = true) (hp : syncPort s = some p) (hm : s.isMaster = false)
    (hph : 4 ≤ s.su.phase) (hd : syncDue s = true) :
    ∃ t, exec (.syncInterval sub) s = .next t ∧ t.time = { s.time with
        waiting := tset false s.time.waiting p false
        lastStart := some s.time.now } ∧
      t.port p = { s.port p with sub1 := sub.val, ctl := (s.port p).ctl ++ [mkFrame 3 0 0] } ∧
      (∀ q, q ≠ p → t.port q = s.port q) ∧ Keeps [.out, .time, .lnk] s t := by
  refine next_clk hc fun t hx hrun => ?_
  have hp' : syncPort s.bare = some p := hp
  have hm' : s.bare.isMaster = false := hm
  have hph' : ¬ s.bare.su.phase < 4 := Nat.not_lt.2 hph
  have hd' : syncDue s.bare = true := hd
  simp only [hp', hm', hph', hd', Bool.not_true, decide_false, Bool.or_self, Bool.false_eq_true, ↓reduceIte] at hx
  obtain ⟨u, hu⟩ : ∃ u : State, { s.bare with time := { s.time with
    waiting := tset false s.time.waiting p false, lastStart := some s.time.now } } = u := ⟨_, rfl⟩
  replace hx : queueCtl p (mkFrame 3 0 0) (u.setPort p { u.port p with sub1 := sub.val }) = t := hu ▸ hx
  have hport : ∀ q, u.port q = s.port q := fun q => hu ▸ rfl
  obtain ⟨hown, hothers⟩ := queueCtl_port p (mkFrame 3 0 0) (u.setPort p { u.port p with sub1 := sub.val })
  have htime := (queueCtl_keeps p (mkFrame 3 0 0) (u.setPort p { u.port p with sub1 := sub.val })).same .time (by decide)
  rw [hx] at hown hothers htime
  refine ⟨htime.trans (hu ▸ rfl), hown.trans ?_, fun q hq => (hothers q hq).trans ((State.port_setPort_ne _ _ hq).trans (hport q)),
    (execSyncInterval_keeps sub s).next _ hrun⟩
  rw [State.port_setPort, hport]

/-- A request is answered with the stamp of its arrival, and the answer waits for its slot (R183). -/
theorem syncReq_run {p : Fin 4} {frame : LinkFrame} {sub2 sub3 : Fin 32} {s : State} (hc : clocked s = true)
    (hr : receives s p frame = true) (ht : frType frame = 3) :
    ∃ t, exec (.syncReq p (heard s p frame) sub2 sub3) s = .next t ∧
      t.port p = { received s p frame with
        sub3 := sub3.val, ctl := (s.port p).ctl ++ [mkFrame 4 0 ((BitVec.ofNat 64 (16 * s.t + sub2.val)).zeroExtend 128)] } ∧
      (∀ q, q ≠ p.val → t.port q = s.port q) ∧ Keeps [.out, .lnk] s t := by
  refine next_clk hc fun t hx hrun => ?_
  rw [heard_bare, heard_heard, if_neg (not_not.2 ht)] at hx
  obtain ⟨u, hu, hown, hothers, hkeep⟩ := rxFrame_ports (s := s.bare) hr (fun s =>
    queueCtl p (mkFrame 4 0 ((stamp16 s sub2.val).zeroExtend 128)) (s.setPort p { s.port p with sub3 := sub3.val })) id
  rw [hu] at hx
  have hstamp : stamp16 u sub2.val = BitVec.ofNat 64 (16 * s.t + sub2.val) := by
    unfold stamp16 State.t
    rw [hkeep.same .time (by decide)]
    rfl
  obtain ⟨hport, hport'⟩ := queueCtl_port p (mkFrame 4 0 ((stamp16 u sub2.val).zeroExtend 128)) (u.setPort p { u.port p with sub3 := sub3.val })
  have hall : Keeps [.lnk] s.bare t := hkeep.trans ((State.setPort_keeps ..).trans (hx ▸ queueCtl_keeps ..))
  rw [hx] at hport hport'
  have hctl : (received s p frame).ctl = (s.port p).ctl := by
    obtain ⟨a, b, c, d, h⟩ := received_eq s p frame
    rw [h]
  refine ⟨hport.trans ?_, fun q hq => (hport' q hq).trans ((State.port_setPort_ne _ _ hq).trans (hothers q hq)),
    hall.bare (by decide)⟩
  rw [State.port_setPort, hown, hstamp, received_bare]
  dsimp only
  rw [hctl]

/-- What a response notes of its exchange: the offset that the count is to make up, and its rate (R184, R186). -/
def syncNoted (p : Nat) (theta : Int) (s : State) : State :=
  let rate := Config.timeRate s.fresh
  let time := { s.time with waiting := tset false s.time.waiting p false, exchanged := true, wakeSync := false
                            wakeHold := false, slew := theta, rateAcc := 0 }
  let s := { s with time := time, fresh := s.fresh + 1 }
  let s := s.wr Reg.TIME_RATE_RATE rate.toNat
  let sat := max (-2 ^ 15) (min (2 ^ 15 - 1) theta)
  (s.wr Reg.TIME_STAT_OFFSET (ofSgn 16 sat)).wr Reg.TIME_STAT_PORT p

/-- The end of an exchange: its tick, and the alignment that its offset keeps, loses or restores (R186). -/
def syncEnded (theta : Int) (s : State) : State :=
  let s := { s with time := { s.time with lastDone := s.time.now } }
  let limit : Int := 16 * max 1 (s.rd Reg.TIME_CTRL_ALIMIT)
  if limit < theta ∨ theta < -limit then loseAlignment false s
  else if s.flag Reg.TIME_STAT_ALOST then sendFieldState (s.wr Reg.TIME_STAT_ALOST 0)
  else s

theorem syncNoted_keeps (p : Nat) (theta : Int) (s : State) : Keeps [.fresh, .regs, .time] s (syncNoted p theta s) :=
  ((Keeps.refl.fresh_time (by decide) (by decide) : Keeps [.fresh, .time] s _).andThen (State.wr_keeps ..) : Keeps [.fresh, .regs, .time] s _).andThen
    ((State.wr_keeps ..).andThen (State.wr_keeps ..) : Keeps [.regs] _ _)

/-- The end of an exchange notes its tick; the rest of the time stands. -/
theorem syncEnded_from (theta : Int) (s : State) :
    Keeps [.fresh, .regs, .src, .bar, .gate, .trc] { s with time := { s.time with lastDone := s.time.now } } (syncEnded theta s) :=
  Keeps.ite ((loseAlignment_keeps ..).mono (by decide)) (Keeps.ite ((State.wr_keeps ..).andThen (sendFieldState_keeps _)) Keeps.refl)

/-- An exchange before thaw 0's first and a wake's step the count, and a wake recomputes its epoch (R184, R211). -/
def syncSettled (p : Nat) (theta : Int) (s : State) : State :=
  let n := if !s.time.exchanged && !s.su.open_ || s.time.wakeSync then stepTime theta (syncNoted p theta s) else syncNoted p theta s
  if s.time.wakeSync then recomputeEpoch (n.raise Reg.TIME_STAT_STEPPED) else n

theorem syncEnded_keeps (theta : Int) (s : State) : Keeps [.fresh, .regs, .time, .src, .bar, .gate, .trc] s (syncEnded theta s) :=
  Keeps.andThen (Keeps.refl.time (by decide) : Keeps [.time] s { s with time := { s.time with lastDone := s.time.now } }) (syncEnded_from theta s)

/-- A response to a request that waits is noted, steps the count where it is to be stepped, and ends the exchange (R184, R211). -/
theorem exec_syncRsp {p : Fin 4} {frame : LinkFrame} {sub4 : Fin 32} {s : State} (hc : clocked s = true)
    (hr : receives s p frame = true) (ht : frType frame = 4) (hw : tget false s.time.waiting p = true) :
    ∃ u theta v, Keeps [.lnk] s.bare u ∧ Keeps [.fresh] u v ∧
      syncOffset (tget 0 s.time.t1 p) ((frMsg frame).extractLsb' 0 64) ((frMsg frame).extractLsb' 64 64)
        (BitVec.ofNat 64 (16 * s.t + sub4.val)) u = (theta, v) ∧
      exec (.syncRsp p (heard s p frame) sub4) s = .next { syncEnded theta (syncSettled p theta v) with pending := s.pending } := by
  obtain ⟨u, hu, hkeep⟩ := rxFrame_good (s := s.bare) hr (fun s =>
      if !tget false s.time.waiting p then s
      else
        let t1 := tget 0 s.time.t1 p
        let t2 := (frMsg frame).extractLsb' 0 64
        let t3 := (frMsg frame).extractLsb' 64 64
        let (theta, s) := syncOffset t1 t2 t3 (stamp16 s sub4.val) s
        syncEnded theta (syncSettled p theta s)) id
  have htime : u.time = s.time := hkeep.same .time (by decide)
  have hstamp : stamp16 u sub4.val = BitVec.ofNat 64 (16 * s.t + sub4.val) := by
    unfold stamp16 State.t
    rw [htime]
  obtain ⟨⟨theta, v⟩, hoff⟩ : ∃ r, syncOffset (tget 0 s.time.t1 p) ((frMsg frame).extractLsb' 0 64) ((frMsg frame).extractLsb' 64 64)
    (BitVec.ofNat 64 (16 * s.t + sub4.val)) u = r := ⟨_, rfl⟩
  have hv := syncOffset_keeps (tget 0 s.time.t1 p) ((frMsg frame).extractLsb' 0 64) ((frMsg frame).extractLsb' 64 64)
    (BitVec.ofNat 64 (16 * s.t + sub4.val)) u
  rw [hoff] at hv
  refine ⟨u, theta, v, hkeep, hv, hoff, runClk_eq hc ?_⟩
  rw [heard_bare, heard_heard, if_neg (not_not.2 ht)]
  refine Eq.trans hu ?_
  simp only [htime, hw, hstamp, hoff]
  rfl

/-- Losing the alignment shows it, and writes no other field outside the refusal counts (R186). -/
theorem loseAlignment_rd (missing : Bool) (s : State) {f : Fld} (hk : f.key ≠ Reg.TIME_STAT_ALOST.key)
    (ho : (f.off < 0x108 ∨ 0x160 ≤ f.off) ∧ f.off ≠ 0x2004C) (hl : f.lo < 32) : (loseAlignment missing s).rd f = s.rd f := by
  unfold loseAlignment
  dsimp only
  split
  · rfl
  · rw [(sendFieldState_keeps _).rd_eq, raiseInt_rd _ _ _ _ ho hl, State.raise, State.rd_wr_ne _ _ hk]
    split <;> rfl

theorem loseAlignment_lost (missing : Bool) (s : State) : (loseAlignment missing s).flag Reg.TIME_STAT_ALOST = true := by
  unfold loseAlignment
  dsimp only
  split
  next h => exact h
  next =>
    unfold State.flag
    rw [(sendFieldState_keeps _).rd_eq, raiseInt_rd _ _ _ _ (by decide) (by decide), State.raise, State.rd_wr_same]
    rfl

/-- An epoch is recomputed after thaw 0 alone, and shows how many were passed over. -/
theorem recomputeEpoch_closed {s : State} (h : s.su.open_ = false) : recomputeEpoch s = s := by
  unfold recomputeEpoch
  rw [h]
  rfl

theorem recomputeEpoch_rd (s : State) {f : Fld} (hk : f.key ≠ Reg.THAW_STATUS_SKIPPED.key) : (recomputeEpoch s).rd f = s.rd f := by
  unfold recomputeEpoch
  split
  · rfl
  · exact State.rd_wr_ne _ _ hk

/-- The end of an exchange leaves what a wake has shown of its step. -/
theorem syncEnded_stepped (theta : Int) (s : State) : (syncEnded theta s).flag Reg.TIME_STAT_STEPPED = s.flag Reg.TIME_STAT_STEPPED := by
  unfold State.flag syncEnded
  dsimp only
  split
  · rw [loseAlignment_rd _ _ (by decide) (by decide) (by decide)]
    rfl
  · split
    · rw [(sendFieldState_keeps _).rd_eq, State.rd_wr_ne _ _ (by decide)]
      rfl
    · rfl

/-- The offset is half the difference of the stamps' intervals; of an odd one, either half (log entry 8). -/
theorem syncOffset_half {t1 t2 t3 t4 : BitVec 64} {s v : State} {theta : Int} (h : syncOffset t1 t2 t3 t4 s = (theta, v)) :
    theta = (sgn 64 (t2 - t1).toNat - sgn 64 (t4 - t3).toNat) / 2 ∨
      (theta = (sgn 64 (t2 - t1).toNat - sgn 64 (t4 - t3).toNat) / 2 + 1 ∧ (sgn 64 (t2 - t1).toNat - sgn 64 (t4 - t3).toNat) % 2 = 1) := by
  unfold syncOffset at h
  dsimp only at h
  split at h
  next => exact .inl (Prod.mk.inj h).1.symm
  next hodd =>
    obtain ⟨rfl, -⟩ := Prod.mk.inj h
    split
    · exact .inr ⟨rfl, by omega⟩
    · exact .inl (Int.add_zero _)

/-- In a running die a response slews the count by the offset (R184). -/
theorem syncRsp_slews {p : Fin 4} {frame : LinkFrame} {sub4 : Fin 32} {d : Int} {s : State} (hc : clocked s = true)
    (hr : receives s p frame = true) (ht : frType frame = 4) (hw : tget false s.time.waiting p = true) (hex : s.time.exchanged = true)
    (hwake : s.time.wakeSync = false)
    (hd : (sgn 64 ((frMsg frame).extractLsb' 0 64 - tget 0 s.time.t1 p).toNat
      - sgn 64 (BitVec.ofNat 64 (16 * s.t + sub4.val) - (frMsg frame).extractLsb' 64 64).toNat) / 2 = d) :
    ∃ t, exec (.syncRsp p (heard s p frame) sub4) s = .next t ∧ t.time = { s.time with
        waiting := tset false s.time.waiting p false
        wakeHold := false
        slew := t.time.slew
        rateAcc := 0
        lastDone := s.time.now } ∧
      (t.time.slew = d ∨ (t.time.slew = d + 1 ∧ (sgn 64 ((frMsg frame).extractLsb' 0 64 - tget 0 s.time.t1 p).toNat
        - sgn 64 (BitVec.ofNat 64 (16 * s.t + sub4.val) - (frMsg frame).extractLsb' 64 64).toNat) % 2 = 1)) ∧
      Keeps [.out, .fresh, .regs, .time, .src, .lnk, .bar, .gate, .trc] s t := by
  obtain ⟨u, theta, v, hu, hv, hoff, hrun⟩ := exec_syncRsp (sub4 := sub4) hc hr ht hw
  have htime : v.time = s.time := (hv.same .time (by decide)).trans (hu.same .time (by decide))
  have hset : syncSettled p theta v = syncNoted p theta v := by
    unfold syncSettled
    rw [htime, hex, hwake]
    rfl
  rw [hset] at hrun
  have hall : Keeps [.fresh, .regs, .time, .src, .lnk, .bar, .gate, .trc] s.bare (syncEnded theta (syncNoted p theta v)) :=
    ((hu.andThen hv : Keeps [.lnk, .fresh] s.bare v).andThen (syncNoted_keeps p theta v) : Keeps [.fresh, .regs, .time, .lnk] s.bare _).andThen
      (syncEnded_keeps ..)
  have hnoted : (syncEnded theta (syncNoted p theta v)).time = { v.time with
      waiting := tset false v.time.waiting p false, exchanged := true, wakeSync := false, wakeHold := false
      slew := theta, rateAcc := 0, lastDone := v.time.now } := (syncEnded_from theta _).same .time (by decide)
  obtain ⟨t, ht'⟩ : ∃ t, syncEnded theta (syncNoted p theta v) = t := ⟨_, rfl⟩
  rw [ht'] at hrun hall hnoted
  have hslew : t.time.slew = theta := congrArg TimeS.slew hnoted
  refine ⟨_, hrun, ?_, ?_, hall.bare (by decide)⟩
  · refine hnoted.trans ?_
    rw [htime]
    simp only [hex, hwake, hslew]
  · show t.time.slew = d ∨ t.time.slew = d + 1 ∧ _
    rw [hslew, ← hd]
    exact syncOffset_half hoff

/-- What a step leaves of a state that notes an exchange: the count at its whole ticks, the rest in the slew (R183). -/
theorem stepTime_noted {p : Nat} {theta : Int} {v : State} :
    (stepTime theta (syncNoted p theta v)).time.now = BitVec.ofInt 64 ((16 * (v.t : Int) + theta) / 16) ∧
      (stepTime theta (syncNoted p theta v)).time.slew = (16 * (v.t : Int) + theta) % 16 ∧
      (stepTime theta (syncNoted p theta v)).time.exchanged = true ∧ (stepTime theta (syncNoted p theta v)).time.wakeSync = false ∧
      (stepTime theta (syncNoted p theta v)).time.wakeHold = false ∧
      (stepTime theta (syncNoted p theta v)).su = { v.su with linkFrom := shiftTick ((16 * (v.t : Int) + theta) / 16 - v.t) v.su.linkFrom } :=
  ⟨rfl, rfl, rfl, rfl, rfl, rfl⟩

/-- The first exchange before thaw 0 steps the count (R184). -/
theorem syncRsp_steps {p : Fin 4} {frame : LinkFrame} {sub4 : Fin 32} {d : Int} {s : State} (hc : clocked s = true)
    (hr : receives s p frame = true) (ht : frType frame = 4) (hw : tget false s.time.waiting p = true) (hex : s.time.exchanged = false)
    (hopen : s.su.open_ = false) (hwake : s.time.wakeSync = false)
    (hd : sgn 64 ((frMsg frame).extractLsb' 0 64 - tget 0 s.time.t1 p).toNat
      - sgn 64 (BitVec.ofNat 64 (16 * s.t + sub4.val) - (frMsg frame).extractLsb' 64 64).toNat = 2 * d) :
    ∃ t, exec (.syncRsp p (heard s p frame) sub4) s = .next t ∧ t.time.now = BitVec.ofInt 64 ((16 * (s.t : Int) + d) / 16) ∧
      t.time.slew = (16 * (s.t : Int) + d) % 16 ∧ t.time.exchanged = true ∧
      t.su = { s.su with linkFrom := shiftTick ((16 * (s.t : Int) + d) / 16 - s.t) s.su.linkFrom } ∧
      Keeps [.out, .fresh, .regs, .time, .src, .lnk, .su, .bar, .gate, .trc] s t := by
  obtain ⟨u, theta, v, hu, hv, hoff, hrun⟩ := exec_syncRsp (sub4 := sub4) hc hr ht hw
  rw [syncOffset_even hd] at hoff
  obtain ⟨rfl, rfl⟩ := Prod.mk.inj hoff
  have htime : u.time = s.time := hu.same .time (by decide)
  have hsu : u.su = s.su := hu.same .su (by decide)
  have hset : syncSettled p d u = stepTime d (syncNoted p d u) := by
    unfold syncSettled
    rw [htime, hsu, hex, hwake, hopen]
    rfl
  rw [hset] at hrun
  obtain ⟨hnow, hslew, hexd, -, -, hlink⟩ := stepTime_noted (p := p) (theta := d) (v := u)
  obtain ⟨t, ht'⟩ : ∃ t, syncEnded d (stepTime d (syncNoted p d u)) = t := ⟨_, rfl⟩
  have hend := syncEnded_from d (stepTime d (syncNoted p d u))
  have hall : Keeps [.fresh, .regs, .time, .src, .lnk, .su, .bar, .gate, .trc] s.bare t :=
    ((hu.andThen (syncNoted_keeps p d u) : Keeps [.fresh, .regs, .time, .lnk] s.bare _).andThen (stepTime_keeps d _) :
      Keeps [.fresh, .regs, .time, .lnk, .su] s.bare _).andThen (ht' ▸ syncEnded_keeps ..)
  rw [ht'] at hrun hend
  have hT : t.time = _ := hend.same .time (by decide)
  have hnow0 : u.t = s.t := congrArg (fun x : TimeS => x.now.toNat) htime
  rw [hnow0] at hnow hslew hlink
  rw [hsu] at hlink
  exact ⟨_, hrun, (congrArg TimeS.now hT).trans hnow, (congrArg TimeS.slew hT).trans hslew, (congrArg TimeS.exchanged hT).trans hexd,
    (hend.same .su (by decide)).trans hlink, hall.bare (by decide)⟩

/-- The exchange of a wake steps the count and ends the wait for it (R211). -/
theorem syncRsp_wakes {p : Fin 4} {frame : LinkFrame} {sub4 : Fin 32} {d : Int} {s : State} (hc : clocked s = true)
    (hr : receives s p frame = true) (ht : frType frame = 4) (hw : tget false s.time.waiting p = true) (hwake : s.time.wakeSync = true)
    (hd : sgn 64 ((frMsg frame).extractLsb' 0 64 - tget 0 s.time.t1 p).toNat
      - sgn 64 (BitVec.ofNat 64 (16 * s.t + sub4.val) - (frMsg frame).extractLsb' 64 64).toNat = 2 * d) :
    ∃ t, exec (.syncRsp p (heard s p frame) sub4) s = .next t ∧ t.time.now = BitVec.ofInt 64 ((16 * (s.t : Int) + d) / 16) ∧
      t.time.slew = (16 * (s.t : Int) + d) % 16 ∧ t.time.wakeSync = false ∧ t.time.wakeHold = false ∧
      t.flag Reg.TIME_STAT_STEPPED = true ∧ (s.su.open_ = false → t.epoch = s.epoch) ∧
      t.su = { s.su with linkFrom := shiftTick ((16 * (s.t : Int) + d) / 16 - s.t) s.su.linkFrom } ∧
      Keeps [.out, .fresh, .regs, .time, .epoch, .src, .lnk, .su, .bar, .gate, .trc] s t := by
  obtain ⟨u, theta, v, hu, hv, hoff, hrun⟩ := exec_syncRsp (sub4 := sub4) hc hr ht hw
  rw [syncOffset_even hd] at hoff
  obtain ⟨rfl, rfl⟩ := Prod.mk.inj hoff
  have htime : u.time = s.time := hu.same .time (by decide)
  have hsu : u.su = s.su := hu.same .su (by decide)
  obtain ⟨n, hn⟩ : ∃ n, (stepTime d (syncNoted p d u)).raise Reg.TIME_STAT_STEPPED = n := ⟨_, rfl⟩
  have hset : syncSettled p d u = recomputeEpoch n := by
    unfold syncSettled
    rw [htime, hwake, Bool.or_true, ← hn]
    rfl
  rw [hset] at hrun
  obtain ⟨hnow, hslew, -, hsync, hhold, hlink⟩ := stepTime_noted (p := p) (theta := d) (v := u)
  have hnk : Keeps [.regs] (stepTime d (syncNoted p d u)) n := hn ▸ State.raise_keeps ..
  have hend := syncEnded_from d (recomputeEpoch n)
  have hstep := syncEnded_stepped d (recomputeEpoch n)
  obtain ⟨t, ht'⟩ : ∃ t, syncEnded d (recomputeEpoch n) = t := ⟨_, rfl⟩
  have hpre : Keeps [.fresh, .regs, .time, .lnk, .su] s.bare n :=
    ((hu.andThen (syncNoted_keeps p d u) : Keeps [.fresh, .regs, .time, .lnk] s.bare _).andThen (stepTime_keeps d _) :
      Keeps [.fresh, .regs, .time, .lnk, .su] s.bare _).andThen hnk
  have hall : Keeps [.fresh, .regs, .time, .epoch, .src, .lnk, .su, .bar, .gate, .trc] s.bare t :=
    (hpre.andThen (recomputeEpoch_keeps n) : Keeps [.fresh, .regs, .time, .epoch, .lnk, .su] s.bare _).andThen (ht' ▸ syncEnded_keeps ..)
  rw [ht'] at hrun hend hstep
  have hT : t.time = { n.time with lastDone := n.time.now } := by
    refine (hend.same .time (by decide)).trans ?_
    show ({ (recomputeEpoch n).time with lastDone := (recomputeEpoch n).time.now } : TimeS) = _
    rw [(recomputeEpoch_keeps n).same .time (by decide)]
  have hN : n.time = (stepTime d (syncNoted p d u)).time := hnk.same .time (by decide)
  have hnow0 : u.t = s.t := congrArg (fun x : TimeS => x.now.toNat) htime
  rw [hnow0] at hnow hslew hlink
  rw [hsu] at hlink
  rw [← hN] at hnow hslew hsync hhold
  refine ⟨_, hrun, (congrArg TimeS.now hT).trans hnow, (congrArg TimeS.slew hT).trans hslew, (congrArg TimeS.wakeSync hT).trans hsync,
    (congrArg TimeS.wakeHold hT).trans hhold, hstep.trans ?_, fun hopen => ?_, ?_, hall.bare (by decide)⟩
  · unfold State.flag
    rw [recomputeEpoch_rd n (by decide), ← hn, State.raise, State.rd_wr_same]
    rfl
  · have hclosed : n.su.open_ = false := (congrArg SuS.open_ ((hnk.same .su (by decide)).trans hlink)).trans hopen
    rw [recomputeEpoch_closed hclosed] at hend
    exact (hend.same .epoch (by decide)).trans (hpre.same .epoch (by decide))
  · refine (hend.same .su (by decide)).trans (((recomputeEpoch_keeps n).same .su (by decide)).trans ?_)
    exact (hnk.same .su (by decide)).trans hlink

/-- A missing exchange loses the alignment, and ends the wait of a wake (R186, R211). -/
theorem alignmentTimeout_loses {s : State} (hc : clocked s = true) (hm : exchangeMissing s = true) :
    ∃ t, exec .alignmentTimeout s = .next t ∧ t.time = { s.time with wakeHold := false } ∧ t.flag Reg.TIME_STAT_ALOST = true ∧
      (s.time.exchanged = false → t.flag Reg.SU_STAT_SYNCTMO = true) ∧ (s.time.wakeHold = false → t.epoch = s.epoch) ∧
      Keeps [.out, .fresh, .regs, .time, .epoch, .src, .bar, .gate, .trc] s t := by
  refine next_clk hc fun t hx hrun => ?_
  have hm' : exchangeMissing s.bare = true := hm
  obtain ⟨u, hu⟩ : ∃ u, endWakeHold s.bare = u := ⟨_, rfl⟩
  have held : u.time = { s.time with wakeHold := false } ∧ (s.time.wakeHold = false → u.epoch = s.epoch) := by
    rw [← hu]
    unfold endWakeHold
    split
    next h => exact ⟨(recomputeEpoch_keeps _).same .time (by decide), fun h' => absurd (h.symm.trans h') (by decide)⟩
    next h =>
      have h' : s.time.wakeHold = false := by simpa using h
      exact ⟨by rw [← h']; rfl, fun _ => rfl⟩
  simp only [hm', ↓reduceIte, hu] at hx
  have hlost : Keeps [.fresh, .regs, .src, .bar, .gate, .trc] u t := hx ▸ Keeps.ite (loseAlignment_keeps ..) (noFirstSync_keeps ..)
  refine ⟨(hlost.same .time (by decide)).trans held.1, ?_, fun hex => ?_, fun hh => (hlost.same .epoch (by decide)).trans (held.2 hh),
    (execAlignmentTimeout_keeps s).next _ hrun⟩
  · show t.flag _ = true
    rw [← hx]
    split
    · exact loseAlignment_lost ..
    · exact loseAlignment_lost ..
  · have hex' : u.time.exchanged = false := (congrArg TimeS.exchanged held.1).trans hex
    show t.flag _ = true
    rw [← hx, hex', if_neg Bool.false_ne_true]
    unfold State.flag noFirstSync
    rw [loseAlignment_rd _ _ (by decide) (by decide) (by decide), State.raise, State.rd_wr_same]
    rfl

end Sys2Proof.Machine

namespace Sys2Proof.Machine

set_option Elab.async false

-- an idle link's slot (R235, R252, R265)

/-- The decision of an idle link in normal mode sends one slot of the requester that it picks; before it, arbiters and registers alone
change. -/
theorem exec_linkDecide {a : Fin 23} {p : Nat} {r : ArbReq} {byF : Bool} {s : State} (hc : clocked s = true) (hp : p < 4) (ha : a.val = 16 + p)
    (hholder : (s.arbOf a).holder = none) (hrev : (s.arbOf a).revoked = none) (hage : arbMustAge s a = false)
    (haging : (s.arbOf a).aging = false) (hscope : (s.arbOf a).scope = false)
    (hpick : arbPick (arbInForce s a (s.arbOf a)) a (linkReqs p s) = some (r, byF)) :
    ∃ w, Keeps [.regs, .arb] s.bare w ∧ exec (.arbiterDecide a) s = .next { linkBeat p r.j w with pending := s.pending } := by
  have hreqs : arbReqs a s = linkReqs p s := by
    unfold arbReqs
    rw [if_neg (by omega), if_pos (by omega), show a.val - 16 = p by omega]
  have hbeat : ∀ j w, arbBeatOf a j w = linkBeat p j w := fun j w => by
    unfold arbBeatOf
    rw [if_neg (by omega), if_pos (by omega), show a.val - 16 = p by omega]
  have own : (s.bare.setArb a (s.arbOf a)).arbOf a = s.arbOf a := State.arbOf_setArb ..
  obtain ⟨v, hv⟩ : ∃ v, (s.bare.setArb a (s.arbOf a)).setArb a (s.arbOf a) = v := ⟨_, rfl⟩
  have hvk : Keeps [.arb] s.bare v := hv ▸ (State.setArb_keeps ..).trans (State.setArb_keeps ..)
  have ownv : v.arbOf a = s.arbOf a := hv ▸ State.arbOf_setArb ..
  obtain ⟨d, hd⟩ : ∃ d, arbDecide a (linkReqs p s) true v = d := ⟨_, rfl⟩
  have grant := arbDecide_grants (a := a) (reqs := linkReqs p s) (s := v) true (by rw [ownv]; exact hrev)
    (by rw [ownv, arbInForce_regs (hvk.same .regs (by decide))]; exact hpick) (by rw [ownv]; exact haging)
  rw [hd] at grant
  obtain ⟨hx, -⟩ := grant
  have hdk : Keeps [.regs, .arb] s.bare d := hvk.andThen (hd ▸ arbDecide_keeps ..)
  have hsync : arbSync a s.bare = s.bare.setArb a (s.arbOf a) := arbSync_calm (hage.trans haging.symm) hscope
  have hsync' : arbSync a (s.bare.setArb a (s.arbOf a)) = v := by
    have h := arbSync_calm (a := a) (s := s.bare.setArb a (s.arbOf a)) (by rw [own, haging]; exact (arbMustAge_setArb a s.bare).trans hage)
      (by rw [own]; exact hscope)
    rw [h, own, hv]
  have run : linkRun a s.bare = arbBeat a (arbBeatOf a) d := by
    unfold linkRun
    rw [hsync]
    dsimp only
    rw [own, hholder]
    unfold arbRun
    rw [hsync']
    dsimp only
    rw [ownv, hholder, ← hd]
    have : arbReqs a v = linkReqs p s := by
      rw [← hv, arbReqs_setArb, arbReqs_setArb]
      exact hreqs
    rw [this]
  have beat : ∃ b, arbBeat a (arbBeatOf a) d = linkBeat p r.j (d.setArb a b) := by
    unfold arbBeat
    simp only [hx, hbeat]
    exact ⟨_, rfl⟩
  obtain ⟨b, hb⟩ := beat
  refine ⟨d.setArb a b, hdk.andThen (State.setArb_keeps d a b), run_eq ?_⟩
  have hask : ¬ (16 ≤ a.val ∧ a.val < 20 ∧ (arbReqs a s.bare).isEmpty = true ∧ (s.bare.arbOf a).holder = none) := by
    rintro ⟨-, -, hempty, -⟩
    have hnil : linkReqs p s = [] := hreqs ▸ List.isEmpty_iff.1 hempty
    rw [hnil, arbPick_nil] at hpick
    cases hpick
  have hclk : arbClocked s.bare a = true := by
    unfold arbClocked
    rw [show clocked s.bare = true from hc, Bool.or_true]
  rw [hclk, if_neg (by decide), if_neg hask, if_neg (by omega), if_pos (by omega), run, hb]
  unfold pinRing
  exact if_neg (by omega)

/-- The slot of the link-control requester takes the oldest control frame. -/
theorem linkBeat_ctl {p : Nat} {f : LinkFrame} {l : List LinkFrame} {s : State} (hup : (s.port p).st = .up) (hctl : (s.port p).ctl = f :: l) :
    linkBeat p 2 s = sendCtlFrame p f (s.setPort p { s.port p with ctl := l }) := by
  unfold linkBeat
  simp only [hup, hctl]
  rfl

/-- A request for an exchange leaves with its stamp noted, and an answer carries the stamp of its slot (R183). -/
theorem syncSlot {a : Fin 23} {p : Nat} {r : ArbReq} {byF : Bool} {f : LinkFrame} {l : List LinkFrame} {s : State} (hc : clocked s = true)
    (hp : p < 4) (ha : a.val = 16 + p) (hholder : (s.arbOf a).holder = none) (hrev : (s.arbOf a).revoked = none) (hage : arbMustAge s a = false)
    (haging : (s.arbOf a).aging = false) (hscope : (s.arbOf a).scope = false) (hup : (s.port p).st = .up) (hctl : (s.port p).ctl = f :: l)
    (hpick : arbPick (arbInForce s a (s.arbOf a)) a (linkReqs p s) = some (r, byF)) (hj : r.j = 2) :
    (frType f = 3 → ∃ t, exec (.arbiterDecide a) s = .next t ∧ t.time = { s.time with
        t1 := tset 0 s.time.t1 p (BitVec.ofNat 64 (16 * s.t + (s.port p).sub1)), waiting := tset false s.time.waiting p true } ∧
      (∃ c n, PortOut.slot p (slotLevels (scramble (s.port p).scrTx (sealFrame f c n))) ∈ t.out) ∧ (t.port p).ctl = l ∧
      Keeps [.out, .regs, .time, .arb, .lnk] s t) ∧
    (frType f = 4 → ∃ t, exec (.arbiterDecide a) s = .next t ∧
      (∃ c n, PortOut.slot p (slotLevels (scramble (s.port p).scrTx (sealFrame (mkFrame 4 0
        (BitVec.ofNat 64 (16 * s.t + (s.port p).sub3) ++ (frMsg f).extractLsb' 0 64)) c n))) ∈ t.out) ∧ (t.port p).ctl = l ∧
      Keeps [.out, .regs, .arb, .lnk] s t) := by
  obtain ⟨w, hw, hrun⟩ := exec_linkDecide hc hp ha hholder hrev hage haging hscope hpick
  have hport : w.port p = s.port p := hw.port_eq p
  have htime : w.time = s.time := hw.same .time (by decide)
  obtain ⟨v, hv⟩ : ∃ v, w.setPort p { w.port p with ctl := l } = v := ⟨_, rfl⟩
  have hvport : v.port p = { s.port p with ctl := l } := hv ▸ hport ▸ State.port_setPort ..
  have hvtime : v.time = s.time := hv ▸ htime
  have hvk : Keeps [.regs, .arb, .lnk] s.bare v := hw.andThen (hv ▸ State.setPort_keeps ..)
  rw [hj, linkBeat_ctl (hport ▸ hup) (hport ▸ hctl), hv] at hrun
  constructor
  · intro ht
    obtain ⟨u, hu⟩ : ∃ u : State, { v with time := { v.time with
      t1 := tset 0 v.time.t1 p (stamp16 v (v.port p).sub1), waiting := tset false v.time.waiting p true } } = u := ⟨_, rfl⟩
    have hsend : sendCtlFrame p f v = sendFrame p f u := by
      unfold sendCtlFrame
      rw [if_neg (by omega), if_pos ht, ← hu]
    have huport : u.port p = v.port p := hu ▸ rfl
    have hout := sendFrame_out p f u
    have hkeep := sendFrame_keeps p f u
    have hctl' := sendFrame_ctl p f u
    obtain ⟨t, ht'⟩ : ∃ t, sendFrame p f u = t := ⟨_, rfl⟩
    rw [ht'] at hout hkeep hctl'
    rw [hsend, ht'] at hrun
    rw [huport, hvport] at hout hctl'
    have huk : Keeps [.time] v u := hu ▸ Keeps.refl.time (by decide)
    have hall : Keeps [.out, .regs, .time, .arb, .lnk] s.bare t := (hvk.andThen huk : Keeps [.regs, .arb, .lnk, .time] s.bare u).andThen hkeep
    refine ⟨_, hrun, (hkeep.same .time (by decide)).trans ?_, hout, hctl', hall.bare (by decide)⟩
    rw [← hu, hvtime, hvport]
    unfold stamp16 State.t
    rw [hvtime]
  · intro ht
    have hstamp : stamp16 v (v.port p).sub3 = BitVec.ofNat 64 (16 * s.t + (s.port p).sub3) := by
      unfold stamp16 State.t
      rw [hvtime, hvport]
    have hsend : sendCtlFrame p f v = sendFrame p (mkFrame 4 0 (BitVec.ofNat 64 (16 * s.t + (s.port p).sub3) ++ (frMsg f).extractLsb' 0 64)) v := by
      unfold sendCtlFrame
      rw [if_neg (by omega), if_neg (by omega), if_pos ht, ← hstamp]
    obtain ⟨g, hg⟩ : ∃ g : LinkFrame, mkFrame 4 0 (BitVec.ofNat 64 (16 * s.t + (s.port p).sub3) ++ (frMsg f).extractLsb' 0 64) = g :=
      ⟨_, rfl⟩
    rw [hg] at hsend ⊢
    have hout := sendFrame_out p g v
    have hkeep := sendFrame_keeps p g v
    have hctl' := sendFrame_ctl p g v
    obtain ⟨t, ht'⟩ : ∃ t, sendFrame p g v = t := ⟨_, rfl⟩
    rw [ht'] at hout hkeep hctl'
    rw [hsend, ht'] at hrun
    rw [hvport] at hout hctl'
    have hall : Keeps [.out, .regs, .arb, .lnk] s.bare t := hvk.andThen hkeep
    exact ⟨_, hrun, hout, hctl', hall.bare (by decide)⟩

end Sys2Proof.Machine

namespace Sys2Proof.Machine

set_option Elab.async false

-- what leaves the word of a register alone

/-- The fields of the word at off read the same in t as in s. -/
structure SameWord (off : Nat) (s t : State) : Prop where
  rd : ∀ f : Fld, f.off = off → f.lo < 32 → t.rd f = s.rd f

theorem SameWord.refl {off : Nat} {s : State} : SameWord off s s := ⟨fun _ _ _ => rfl⟩

theorem SameWord.trans {off : Nat} {s t u : State} (h : SameWord off s t) (k : SameWord off t u) : SameWord off s u :=
  ⟨fun f hf hl => (k.rd f hf hl).trans (h.rd f hf hl)⟩

theorem SameWord.ofKeeps {off : Nat} {w : List Part} {s t : State} (h : Keeps w s t) (hp : Part.regs ∉ w := by decide) : SameWord off s t :=
  ⟨fun f _ _ => h.rd_eq f hp⟩

/-- A field of another word is written. -/
theorem SameWord.wr {off : Nat} {f : Fld} (s : State) (v : Nat) (h : f.off ≠ off) (hl : f.lo < 32) : SameWord off s (s.wr f v) :=
  ⟨fun _ hg hgl => wr_off s v (by omega) hgl hl⟩

theorem SameWord.inc {off : Nat} (f : Fld) (n : Nat) (s : State) (h : f.off ≠ off) (hl : f.lo < 32) : SameWord off s (s.inc f n) := .wr s _ h hl

theorem SameWord.ofRegs {off : Nat} {s t : State} (h : t.regs = s.regs) : SameWord off s t := ⟨fun f _ _ => rd_congr h f⟩

theorem SameWord.each {off : Nat} {α : Type} {f : α → State → State} (l : List α) (h : ∀ a s, SameWord off s (f a s)) (s : State) :
    SameWord off s (s.each l f) :=
  ⟨fun g hg hl => State.each_inv (·.rd g) l (fun a s => (h a s).rd g hg hl) s⟩

-- a cycle's other ends leave CAP_STAT as the captures left it (R191, R192)

theorem trace_capStat (p d : Nat) (m : Msg) (s : State) : SameWord 0x1030 s (trace p d m s) :=
  ⟨fun f hf hl => trace_rd p d m s f (by omega) hl⟩

theorem raiseInt_capStat (src payload : Nat) (s : State) : SameWord 0x1030 s (raiseInt src payload s) :=
  ⟨fun f hf hl => raiseInt_rd src payload s f (by omega) hl⟩

theorem countRefusal_capStat (reason kind : Nat) (h : reason < 8) (m : Msg) (s : State) : SameWord 0x1030 s (countRefusal reason kind m s) := by
  unfold countRefusal State.raise State.inc
  dsimp only
  refine .trans ?_ (trace_capStat ..)
  iterate 4 refine .trans ?_ (.wr _ _ (by decide) (by decide))
  exact .wr s _ (by unfold Reg.ACC_REF; dsimp only; omega) (by exact (by decide : 0 < 32))

theorem latchEvent_capStat (n : Nat) (stamp : Tick) (payload : BitVec 16) (typ : BitVec 6) (s : State) :
    SameWord 0x1030 s (latchEvent n stamp payload typ s) := by
  unfold latchEvent
  dsimp only
  split_ifs
  · exact .refl
  · exact .wr _ _ (by decide) (by decide)
  · split
    · exact .ofKeeps (State.setLatch_keeps ..)
    · exact (SameWord.ofKeeps (State.setLatch_keeps ..)).trans
        ((SameWord.wr _ _ (by unfold Reg.COAL; dsimp only; omega) (by exact (by decide : 0 < 32))).trans (.wr _ _ (by decide) (by decide)))
  · split
    · exact .ofKeeps (State.setLatch_keeps ..)
    · exact countRefusal_capStat 0 0 (by decide) ..

theorem sourceChange_capStat (n : Nat) (old new : Bool) (stamp : Tick) (payload : BitVec 16) (typ : BitVec 6) (s : State) :
    SameWord 0x1030 s (sourceChange false n old new stamp payload typ s) := by
  unfold sourceChange
  dsimp only
  simp only [Bool.false_eq_true, ↓reduceIte]
  split_ifs
  · exact latchEvent_capStat ..
  · exact .refl

theorem yarCycle_capStat (s : State) : SameWord 0x1030 s (yarCycle false s) := by
  unfold yarCycle
  dsimp only
  refine (SameWord.each _ (fun e s => .ofKeeps (setCellRun_keeps ..)) s).trans (SameWord.each _ (fun e s => ?_) _)
  split_ifs
  · exact .refl
  · exact .each _ (fun n s => sourceChange_capStat ..) s

theorem freeEntry_capStat (s : State) : SameWord 0x1030 s (freeEntry s) := by
  unfold freeEntry
  dsimp only
  split_ifs
  · exact (SameWord.inc Reg.TRACE_STAT_LOST 1 s (by decide) (by decide)).trans (.ofRegs rfl)
  · exact .ofRegs rfl

theorem drainTrace_capStat (s : State) : SameWord 0x1030 s (drainTrace s) := by
  unfold drainTrace
  split
  · exact .refl
  · dsimp only
    split_ifs
    · refine .trans ?_ (.ofKeeps (noteUnread_keeps _))
      exact .ofRegs rfl
    · refine .trans (t := (freeEntry _).raise Reg.TRACE_STAT_OVW) (.trans ?_ (.wr _ 1 (by decide) (by decide))) (.ofRegs rfl)
      refine .trans ?_ (freeEntry_capStat _)
      exact .ofRegs rfl
    · refine .trans ?_ (.inc Reg.TRACE_STAT_LOST 1 _ (by decide) (by decide))
      exact .ofRegs rfl

theorem mpuFaultField_capStat (e addr cause region : Nat) (s : State) : SameWord 0x1030 s (mpuFaultField e addr cause region s) := by
  unfold mpuFaultField
  refine .trans ?_ (raiseInt_capStat ..)
  have wr (u : State) (o lo w v : Nat) (hl : lo < 32) : SameWord 0x1030 u (u.wr (mpuFld false e o lo w 0) v) :=
    .wr u v (by unfold mpuFld mpuBase; dsimp only; split_ifs <;> omega) hl
  unfold mpuRecord State.raise State.inc
  dsimp only
  iterate 8 refine SameWord.trans ?_ (wr _ _ _ _ _ (by decide))
  exact wr _ _ _ _ _ (by decide)

theorem doorbell_capStat (s : State) : SameWord 0x1030 s (doorbell s) := by
  unfold doorbell
  dsimp only
  split_ifs
  · exact .refl
  · split
    · refine .trans ?_ (mpuFaultField_capStat ..)
      exact .ofRegs rfl
    · exact .ofRegs rfl

theorem noteDelayed_capStat (s : State) : SameWord 0x1030 s (noteDelayed s) := by
  unfold noteDelayed
  split
  · exact .refl
  · dsimp only
    split_ifs
    · exact .refl
    · refine .trans ?_ (.inc Reg.WB_CNT_DELAYED _ _ (by decide) (by decide))
      exact .ofRegs rfl

theorem noteVersions_capStat (s : State) : SameWord 0x1030 s (noteVersions s) := by
  unfold noteVersions
  refine .each _ (fun v s => ?_) s
  split_ifs
  · exact .refl
  · exact .wr _ _ (by unfold Reg.VER_INFLIGHT_SEEN; dsimp only; omega) (by exact (by decide : 31 < 32))

theorem arbCycle_capStat (a : Nat) (s : State) : SameWord 0x1030 s (arbCycle a s) := by
  unfold arbCycle arbTick
  dsimp only
  refine ((SameWord.ofKeeps (arbSync_keeps ..)).trans (.ofKeeps (State.setArb_keeps ..))).trans (.each _ (fun r s => ?_) _)
  split_ifs
  · exact .refl
  · refine .wr _ _ ?_ (by exact (by decide : 0 < 32))
    unfold Reg.ARB_WAITED Reg.arbCtr Reg.arbBase
    dsimp only
    split_ifs <;> omega

/-- The island cycle that follows the captures. -/
theorem fieldCycle_capStat (s : State) : SameWord 0x1030 (endCaptures (endLow { s with xb := { s.xb with reflex := [] } })) (fieldCycle false s) := by
  obtain ⟨u, hu⟩ : ∃ u, endCaptures (endLow { s with xb := { s.xb with reflex := [] } }) = u := ⟨_, rfl⟩
  unfold fieldCycle
  dsimp only
  rw [hu]
  have hyar : SameWord 0x1030 u (if (endOffers u).yar.words.isEmpty = true then endOffers u else yarCycle false (endOffers u)) := by
    split_ifs
    · exact .ofKeeps (endOffers_keeps u)
    · exact .trans (.ofKeeps (endOffers_keeps u)) (yarCycle_capStat _)
  refine SameWord.trans ?_ (.each _ arbCycle_capStat _)
  refine .trans ?_ (noteVersions_capStat _)
  refine .trans ?_ (.ofKeeps (endLostMigrations_keeps _))
  refine .trans ?_ (.ofKeeps (noteRecov_keeps _))
  refine .trans ?_ (.ofKeeps (noteRoutes_keeps _))
  exact hyar.trans ((drainTrace_capStat _).trans ((doorbell_capStat _).trans (noteDelayed_capStat _)))

end Sys2Proof.Machine

namespace Sys2Proof.Machine

set_option Elab.async false

-- cycles (R171, R184, R191)

/-- A bit set in a field of 16 bits is read as 1. -/
theorem bit_or_mod {x i : Nat} (hi : i < 16) : bit ((x ||| 2 ^ i) % 2 ^ 16) i = true := by
  unfold bit
  have h : ((x ||| 2 ^ i) % 2 ^ 16).testBit i = true := by
    rw [Nat.testBit_mod_two_pow, Nat.testBit_or, Nat.testBit_two_pow_self, Bool.or_true, decide_eq_true hi, Bool.and_true]
  rw [Nat.testBit_eq_decide_div_mod_eq, decide_eq_true_eq] at h
  rw [h]
  rfl

/-- A cycle of the islands forgets the reflex messages in the crossbar, and changes nothing else there. -/
theorem fieldCycle_xb (b : Bool) (s : State) : (fieldCycle b s).xb = { s.xb with reflex := [] } := by
  obtain ⟨u, hu⟩ : ∃ u : State, { s with xb := { s.xb with reflex := [] } } = u := ⟨_, rfl⟩
  have hux : u.xb = { s.xb with reflex := [] } := hu ▸ rfl
  unfold fieldCycle
  dsimp only
  rw [hu, ← hux]
  obtain ⟨v, hv⟩ : ∃ v, endOffers (endCaptures (endLow u)) = v := ⟨_, rfl⟩
  have hvx : v.xb = u.xb := by
    rw [← hv, (endOffers_keeps _).same .xb (by decide), (endCaptures_keeps _).same .xb (by decide), (endLow_keeps _).same .xb (by decide)]
  rw [hv, ← hvx]
  rw [State.each_inv State.xb _ (fun a s => (arbCycle_keeps a s).same .xb (by decide)), (noteVersions_keeps _).same .xb (by decide),
    (endLostMigrations_keeps _).same .xb (by decide), (noteRecov_keeps _).same .xb (by decide), (noteRoutes_keeps _).same .xb (by decide),
    (noteDelayed_keeps _).same .xb (by decide), (doorbell_keeps _).same .xb (by decide), (drainTrace_keeps _).same .xb (by decide)]
  split_ifs
  · rfl
  · exact (yarCycle_keeps ..).same .xb (by decide)

/-- What a cycle runs before the arbiters of the host gate. -/
def cycleCore (adv : Nat) (b : Bool) (s : State) : State :=
  let s := hostCycle s
  let s := if timeRuns s then countOn adv s else s
  if s.time.running && clocked s then fieldCycle b s else s

theorem cycle_core (adv : Nat) (b : Bool) (s : State) : cycle adv b s = (cycleCore adv b s).each [21, 22] arbCycle := rfl

theorem cycle_from_core (adv : Nat) (b : Bool) (s : State) : Keeps [.regs, .arb] (cycleCore adv b s) (cycle adv b s) := by
  rw [cycle_core]
  exact Keeps.each (fun a s => arbCycle_keeps a s) .refl

/-- A cycle of a block whose count and islands run. -/
theorem cycleCore_runs {adv : Nat} {b : Bool} {s : State} (hc : clocked s = true) (hr : s.time.running = true) :
    ∃ u, cycleCore adv b s = fieldCycle b u ∧ u.time = { s.time with
        now := s.time.now + BitVec.ofNat 64 adv, rateAcc := s.time.rateAcc + adv * sgn 24 (s.rd Reg.TIME_RATE_RATE) } ∧
      Keeps [.time, .gate] s u := by
  obtain ⟨hold, hsleep⟩ : (!s.su.hold) = true ∧ (s.time.sleep != .asleep && s.time.sleep != .waking) = true := by
    unfold clocked at hc
    rw [Bool.and_assoc, Bool.and_eq_true] at hc
    exact hc
  have hh := hostCycle_keeps s
  obtain ⟨v, hv⟩ : ∃ v, hostCycle s = v := ⟨_, rfl⟩
  rw [hv] at hh
  have ht : v.time = s.time := hh.same .time (by decide)
  have hruns : timeRuns v = true := by
    unfold timeRuns
    rw [ht, hr, Bool.true_and]
    exact hsleep
  have hn := countOn_keeps adv v
  refine ⟨countOn adv v, ?_, ?_, hh.andThen hn⟩
  · have hclk : ((countOn adv v).time.running && clocked (countOn adv v)) = true := by
      unfold clocked
      rw [hn.same .su (by decide), hh.same .su (by decide)]
      unfold countOn
      rw [ht, hr, Bool.true_and, Bool.and_assoc, Bool.and_eq_true]
      exact ⟨hold, hsleep⟩
    unfold cycleCore
    dsimp only
    rw [hv, if_pos hruns, if_pos hclk]
  · unfold countOn
    rw [ht, hh.rd_eq]

/-- The captures are the only part of time that a cycle of the islands changes, and they are as endCaptures leaves them. -/
theorem fieldCycle_time (s : State) : (fieldCycle false s).time = (endCaptures (endLow { s with xb := { s.xb with reflex := [] } })).time := by
  obtain ⟨u, hu⟩ : ∃ u, endCaptures (endLow { s with xb := { s.xb with reflex := [] } }) = u := ⟨_, rfl⟩
  unfold fieldCycle
  dsimp only
  rw [hu]
  rw [State.each_inv State.time _ (fun a s => (arbCycle_keeps a s).same .time (by decide)), (noteVersions_keeps _).same .time (by decide),
    (endLostMigrations_keeps _).same .time (by decide), (noteRecov_keeps _).same .time (by decide), (noteRoutes_keeps _).same .time (by decide),
    (noteDelayed_keeps _).same .time (by decide), (doorbell_keeps _).same .time (by decide), (drainTrace_keeps _).same .time (by decide)]
  split_ifs
  · exact (endOffers_keeps u).same .time (by decide)
  · exact ((yarCycle_keeps ..).same .time (by decide)).trans ((endOffers_keeps u).same .time (by decide))

theorem cycle_xb (adv : Nat) (b : Bool) (s : State) : (cycle adv b s).xb = { s.xb with reflex := (cycle adv b s).xb.reflex } := by
  have hx : (cycleCore adv b s).xb = { s.xb with reflex := (cycleCore adv b s).xb.reflex } := by
    obtain ⟨v, hv⟩ : ∃ v, (if timeRuns (hostCycle s) then countOn adv (hostCycle s) else hostCycle s) = v := ⟨_, rfl⟩
    have hvx : v.xb = s.xb := by
      rw [← hv]
      split_ifs
      · exact ((countOn_keeps ..).same .xb (by decide)).trans ((hostCycle_keeps s).same .xb (by decide))
      · exact (hostCycle_keeps s).same .xb (by decide)
    unfold cycleCore
    dsimp only
    rw [hv, ← hvx]
    split_ifs
    · rw [fieldCycle_xb]
    · rfl
  rw [(cycle_from_core adv b s).same .xb (by decide)]
  exact hx

/-- What a trim cycle leaves (R184). -/
theorem trimCycle_trims {s : State} (hc : clocked s = true) (hready : trimReady s = true) :
    ∃ t, exec .trimCycle s = .next t ∧ t.time = { s.time with
        now := s.time.now + (if 0 < trimPhase s then 3 else 1)
        rateAcc := s.time.rateAcc - (if 0 < trimPhase s then 2 ^ 32 else -2 ^ 32)
          + (if 0 < trimPhase s then 3 else 1) * sgn 24 (s.rd Reg.TIME_RATE_RATE)
        lastTrim := s.time.now
        captures := t.time.captures
        capPend := t.time.capPend } ∧ t.xb = { s.xb with reflex := t.xb.reflex } ∧
      Keeps [.out, .regs, .time, .src, .yar, .xb, .arb, .core, .clus, .rec_, .pwr, .su, .gate, .trc] s t := by
  refine next_clk hc fun t hx hrun => ?_
  have hready' : trimReady s.bare = true := hready
  simp only [hready', Bool.not_true, Bool.false_eq_true, ↓reduceIte] at hx
  have hruns : s.time.running = true ∧ (s.time.sleep != .asleep && s.time.sleep != .waking) = true := by
    unfold trimReady at hready
    unfold clocked at hc
    rw [Bool.and_assoc, Bool.and_eq_true] at hc hready
    exact ⟨hready.1, hc.2⟩
  have hphase : trimPhase s.bare = trimPhase s := rfl
  rw [hphase] at hx
  obtain ⟨v, hv⟩ : ∃ v : State, { s.bare with time := { s.time with
    rateAcc := s.time.rateAcc - (if decide (0 < trimPhase s) = true then 2 ^ 32 else -2 ^ 32), lastTrim := s.time.now } } = v := ⟨_, rfl⟩
  replace hx : cycle (if decide (0 < trimPhase s) = true then 3 else 1) false v = t := hv ▸ hx
  have hvruns : timeRuns v = true := by
    rw [← hv]
    unfold timeRuns
    rw [Bool.and_assoc, Bool.and_eq_true]
    exact hruns
  have htime := cycle_time (adv := if decide (0 < trimPhase s) = true then 3 else 1) (b := false) hvruns
  have hxb := cycle_xb (if decide (0 < trimPhase s) = true then 3 else 1) false v
  rw [hx] at htime hxb
  refine ⟨htime.trans ?_, hxb.trans (hv ▸ rfl), (execTrimCycle_keeps s).next _ hrun⟩
  rw [← hv]
  by_cases h : 0 < trimPhase s
  · simp only [h, decide_true, ↓reduceIte]
    rfl
  · simp only [h, decide_false, Bool.false_eq_true, ↓reduceIte]
    rfl

-- captures (R189 to R192)

theorem capture_stamps {i : Fin 16} {rising odd : Bool} {width : Nat} {s : State} (hc : clocked s = true) (hw : 3 ≤ width)
    (hsel : (if bit (s.rd Reg.CAP_CTRL_EDGE) i then !rising else rising) = true) (hen : bit (s.rd Reg.CAP_CTRL_EN) i = true)
    (hin : tget false s.pins.capIn i = !rising) :
    exec (.capture i rising odd width) s = .next { s with
      out := [], pins := { s.pins with capIn := tset false s.pins.capIn i rising }
      time := { s.time with capPend := s.time.capPend ++ [(i.val, s.time.now + (if odd then 1 else 0))] } } := by
  refine run_eq (t := { s.bare with
    pins := { s.pins with capIn := tset false s.pins.capIn i rising }
    time := { s.time with capPend := s.time.capPend ++ [(i.val, s.time.now + (if odd then 1 else 0))] } }) ?_
  have hseen : pulseSeen width s.bare = true := by
    unfold pulseSeen
    rw [decide_eq_true hw, Bool.true_or]
  have hclk (u : State) (h : u.su = s.su) (h' : u.time = s.time) : clocked u = true := by
    unfold clocked
    rw [h, h']
    exact hc
  have hin' : tget false s.bare.pins.capIn i = !rising := hin
  have hne : ((!rising) == rising) = false := by cases rising <;> rfl
  have hsel' : (if bit (s.bare.rd Reg.CAP_CTRL_EDGE) i = true then !rising else rising) = true := hsel
  have hodd : BitVec.ofNat 64 (b2n odd) = if odd = true then 1 else 0 := by cases odd <;> rfl
  obtain ⟨v, hv⟩ : ∃ v : State, { s.bare with pins := { s.bare.pins with capIn := tset false s.bare.pins.capIn i rising } } = v := ⟨_, rfl⟩
  have hen' : bit (v.rd Reg.CAP_CTRL_EN) i = true := hv ▸ hen
  simp only [hseen, if_neg (Nat.not_lt.2 hw), hin', hne, Bool.not_true, Bool.or_self, Bool.false_eq_true, ↓reduceIte]
  rw [hv, hclk v (hv ▸ rfl) (hv ▸ rfl), hsel', hodd, hen', if_neg (by decide)]
  rfl

theorem capture_idle {i : Fin 16} {level odd : Bool} {width : Nat} {s : State} (hw : 3 ≤ width) (hin : tget false s.pins.capIn i = level) :
    exec (.capture i level odd width) s = .next { s with out := [] } := by
  refine run_eq (t := s.bare) ?_
  have hin' : tget false s.bare.pins.capIn i = level := hin
  simp only [if_neg (Nat.not_lt.2 hw), hin', BEq.rfl, Bool.or_true, ↓reduceIte]

/-- The capture that is due is written, or is an overrun. -/
theorem endCaptures_one {i : Nat} {stamp : Tick} {s : State} (hi : i < 16) (hp : s.time.capPend = [(i, stamp)]) (hd : captureDue s stamp = true) :
    (endCaptures s).time.capPend = [] ∧ bit ((endCaptures s).rd Reg.CAP_STAT_NEW) i = true ∧
      (bit (s.rd Reg.CAP_STAT_NEW) i = false → (endCaptures s).time.captures = tset 0 s.time.captures i stamp) ∧
      (bit (s.rd Reg.CAP_STAT_NEW) i = true → (endCaptures s).time.captures = s.time.captures ∧
        bit ((endCaptures s).rd Reg.CAP_STAT_OVR) i = true) := by
  obtain ⟨u, hu⟩ : ∃ u : State, { s with time := { s.time with capPend := [] } } = u := ⟨_, rfl⟩
  have hend : endCaptures s = captureWrite i stamp u := by
    unfold endCaptures
    rw [hp, ← hu]
    simp only [List.filter_cons, List.filter_nil, hd, Bool.not_true, Bool.false_eq_true, ↓reduceIte, State.each, List.foldl_cons, List.foldl_nil]
  have hrd (f : Fld) : u.rd f = s.rd f := hu ▸ rfl
  have htime : u.time = { s.time with capPend := [] } := hu ▸ rfl
  rw [hend]
  unfold captureWrite
  dsimp only
  rw [hrd, hrd]
  cases hnew : bit (s.rd Reg.CAP_STAT_NEW) i
  · rw [if_neg (by decide)]
    obtain ⟨v, hv⟩ : ∃ v : State, { u with time := { u.time with captures := tset 0 u.time.captures i stamp } } = v := ⟨_, rfl⟩
    have hvt : v.time = { u.time with captures := tset 0 u.time.captures i stamp } := hv ▸ rfl
    rw [hv]
    refine ⟨?_, ?_, fun _ => ?_, fun h => absurd h (by decide)⟩
    · rw [State.wr_time, hvt, htime]
    · rw [State.rd_wr_same]
      exact bit_or_mod hi
    · rw [State.wr_time, hvt, htime]
  · rw [if_pos rfl]
    cases hovr : bit (s.rd Reg.CAP_STAT_OVR) i
    · rw [if_neg (by decide)]
      obtain ⟨v, hv⟩ : ∃ v, u.wr Reg.CAP_STAT_OVR (s.rd Reg.CAP_STAT_OVR ||| 2 ^ i) = v := ⟨_, rfl⟩
      have hvt : v.time = u.time := hv ▸ rfl
      have hraise := (raiseInt_keeps 5145 i v).same .time (by decide)
      rw [hv, raiseInt_rd _ _ _ _ (by decide) (by decide), raiseInt_rd _ _ _ _ (by decide) (by decide), hraise, hvt, htime]
      refine ⟨rfl, ?_, fun h => absurd h (by decide), fun _ => ⟨rfl, ?_⟩⟩
      · rw [← hv, State.rd_wr_ne _ _ (by decide), hrd]
        exact hnew
      · rw [← hv, State.rd_wr_same]
        exact bit_or_mod hi
    · rw [if_pos rfl, htime, hrd, hrd]
      exact ⟨rfl, hnew, fun h => absurd h (by decide), fun _ => ⟨rfl, hovr⟩⟩

theorem step_idle {s : State} (h : s.pending = []) : step s = .next (tick s) := by
  unfold step
  rw [h]

/-- The cycle at whose end the second stage of a capture samples writes it. -/
theorem tick_captures {i : Fin 16} {stamp : Tick} {s : State} (hq : s.pending = []) (hc : clocked s = true) (hr : timeRuns s = true)
    (hp : s.time.capPend = [(i.val, stamp)]) (hdue : (stamp.toNat + 3) / 2 * 2 + 2 ≤ s.t + 2) (hmax : s.t + 2 < 2 ^ 64) :
    ∃ t, step s = .next t ∧ t.time.capPend = [] ∧ bit (t.rd Reg.CAP_STAT_NEW) i = true ∧
      (bit (s.rd Reg.CAP_STAT_NEW) i = false → t.time.captures = tset 0 s.time.captures i stamp) ∧
      (bit (s.rd Reg.CAP_STAT_NEW) i = true → t.time.captures = s.time.captures ∧ bit (t.rd Reg.CAP_STAT_OVR) i = true) := by
  have hrunning : s.bare.time.running = true := by
    unfold timeRuns at hr
    rw [Bool.and_assoc, Bool.and_eq_true] at hr
    exact hr.1
  have hc' : clocked s.bare = true := hc
  obtain ⟨u, hcore, hut, huk⟩ := cycleCore_runs (adv := 2) (b := false) hc' hrunning
  obtain ⟨v, hv⟩ : ∃ v, endLow { u with xb := { u.xb with reflex := [] } } = v := ⟨_, rfl⟩
  have hvk : Keeps [.xb, .core] u v :=
    hv ▸ (Keeps.refl.xb (by decide) : Keeps [.xb] u { u with xb := { u.xb with reflex := [] } }).andThen (endLow_keeps _)
  have hvt : v.time = u.time := hvk.same .time (by decide)
  have hvp : v.time.capPend = [(i.val, stamp)] := by rw [hvt, hut]; exact hp
  have hvd : captureDue v stamp = true := by
    unfold captureDue State.t
    rw [hvt, hut, decide_eq_true_eq]
    have h2 : (s.bare.time.now + BitVec.ofNat 64 2).toNat = s.t + 2 := (BitVec.toNat_add ..).trans (Nat.mod_eq_of_lt hmax)
    exact h2 ▸ hdue
  have hvcap : v.time.captures = s.time.captures := by rw [hvt, hut]; rfl
  have hvrd (f : Fld) : v.rd f = s.rd f := (hvk.rd_eq f).trans (huk.rd_eq f)
  have hone := endCaptures_one i.isLt hvp hvd
  rw [hvcap, hvrd] at hone
  obtain ⟨hpend, hnew, hwrites, hoverruns⟩ := hone
  have hword : SameWord 0x1030 (endCaptures v) (cycle 2 false s.bare) := by
    refine .trans (hv ▸ fieldCycle_capStat u) ?_
    rw [← hcore, cycle_core]
    exact .each _ arbCycle_capStat _
  have htime : (cycle 2 false s.bare).time = (endCaptures v).time := by
    rw [(cycle_from_core 2 false s.bare).same .time (by decide), hcore, ← hv]
    exact fieldCycle_time ..
  have hnew' := hword.rd Reg.CAP_STAT_NEW rfl (by decide)
  have hovr' := hword.rd Reg.CAP_STAT_OVR rfl (by decide)
  rw [step_idle hq]
  obtain ⟨t, ht⟩ : ∃ t, cycle 2 false s.bare = t := ⟨_, rfl⟩
  rw [ht] at htime hnew' hovr'
  have htick : tick s = { t with pending := s.pending } := ht ▸ rfl
  refine ⟨_, congrArg _ htick, ?_, ?_, fun h => ?_, fun h => ⟨?_, ?_⟩⟩
  · exact (congrArg TimeS.capPend htime).trans hpend
  · exact hnew' ▸ hnew
  · exact (congrArg TimeS.captures htime).trans (hwrites h)
  · exact (congrArg TimeS.captures htime).trans (hoverruns h).1
  · exact hovr' ▸ (hoverruns h).2

-- deep sleep (R208 to R211)

theorem sleepEntryEdge_sleeps {s : State} (h : s.time.sleep = .entering) :
    exec .sleepEntryEdge s = .next { s with out := [], time := { s.time with
      sleep := .asleep, pwrSleep := true, tA := s.time.now, sleptFrom := s.epoch.start, sleptNum := s.epoch.num
      sleptPrev := s.epoch.prev, units := [], capPend := [] } } := by
  refine run_eq (t := { s.bare with time := { s.time with
      sleep := .asleep, pwrSleep := true, tA := s.time.now, sleptFrom := s.epoch.start, sleptNum := s.epoch.num
      sleptPrev := s.epoch.prev, units := [], capPend := [] } }) ?_
  have h' : s.bare.time.sleep = .entering := h
  rw [h', if_neg (by decide)]
  rfl

theorem pwrWake_wakes {s : State} (h : s.time.sleep = .asleep) :
    exec .pwrWake s = .next { s with out := [], time := { s.time with sleep := .waking } } := by
  refine run_eq (t := { s.bare with time := { s.time with sleep := .waking } }) ?_
  have h' : s.bare.time.sleep = .asleep := h
  rw [h', if_pos (by decide)]
  rfl

theorem sleepMakeup_makesUp {edges : Word} {s : State} (h : s.time.sleep = .waking) :
    ∃ t, exec (.sleepMakeup edges) s = .next t ∧ t.time = { s.time with
        now := BitVec.ofNat 64 ((16 * s.time.tA.toNat + edges.toNat * 1953125) / 32 * 2)
        sleep := .awake
        pwrSleep := false
        wakeSync := !s.isMaster
        wakeHold := !s.isMaster
        lastStart := none
        lastDone := BitVec.ofNat 64 ((16 * s.time.tA.toNat + edges.toNat * 1953125) / 32 * 2)
        waiting := []
        units := [] } ∧
      (s.su.open_ = false → t.epoch = s.epoch) ∧ Keeps [.out, .regs, .time, .epoch, .pwr, .bar, .gate, .edw] s t := by
  refine next_run fun t hx hrun => ?_
  have h' : s.bare.time.sleep = .waking := h
  simp only [h', bne_self_eq_false, Bool.false_eq_true, ↓reduceIte] at hx
  obtain ⟨u, hu⟩ : ∃ u : State, { s.bare with time := { s.time with
        now := BitVec.ofNat 64 (makeupTime s.time.tA.toNat edges.toNat), sleep := .awake, pwrSleep := false, wakeSync := !s.isMaster
        wakeHold := !s.isMaster, lastStart := none, lastDone := BitVec.ofNat 64 (makeupTime s.time.tA.toNat edges.toNat)
        waiting := [], units := [] } } = u := ⟨_, rfl⟩
  obtain ⟨v, hv⟩ : ∃ v, ((recomputeEpoch u).wr Reg.TIME_MAKEUP_N edges.toNat).raise Reg.TIME_STAT_COARSE = v := ⟨_, rfl⟩
  replace hx : serveEdw (v.each ((List.range 24).filter fun d => v.flag (Reg.PWR_CFG_SLPWAKE d)) wakeSys) = t := by
    rw [← hv, ← hu]
    exact hx
  have hvt : Keeps [.regs, .pwr, .bar, .gate, .edw] v t := by
    rw [← hx]
    have hw : Keeps [.pwr] v (v.each ((List.range 24).filter fun d => v.flag (Reg.PWR_CFG_SLPWAKE d)) wakeSys) :=
      Keeps.each (fun d s => wakeSys_keeps d s) .refl
    exact (hw.andThen (serveEdw_keeps _) : Keeps [.pwr, .bar, .gate, .edw] v _).mono (by decide)
  have hsu : u.su = s.su := hu ▸ rfl
  refine ⟨?_, fun ho => ?_, (execSleepMakeup_keeps edges s).next _ hrun⟩
  · refine (hvt.same .time (by decide)).trans ?_
    rw [← hv, State.raise_time, State.wr_time, (recomputeEpoch_keeps u).same .time (by decide), ← hu]
    rfl
  · refine (hvt.same .epoch (by decide)).trans ?_
    rw [← hv, State.raise_epoch, State.wr_epoch, recomputeEpoch_closed (hsu ▸ ho), ← hu]
    rfl

/-- Settles O22: exchanges, their slots and answers, trim, captures and deep sleep. -/
theorem systemTime : Obligations.SystemTime :=
  ⟨fun _ _ _ hc hp hm hph hd => syncInterval_run hc hp hm hph hd,
    fun _ _ _ _ _ _ _ hc hp ha hh hr hage haging hscope hup hctl hpick hj => syncSlot hc hp ha hh hr hage haging hscope hup hctl hpick hj,
    fun _ _ _ _ _ hc hr hf => syncReq_run hc hr hf,
    fun _ _ _ _ _ hc hr hf hw he hws hd => syncRsp_slews hc hr hf hw he hws hd,
    fun _ _ _ _ _ hc hr hf hw he ho hws hd => syncRsp_steps hc hr hf hw he ho hws hd,
    fun _ _ _ _ _ hc hr hf hw hws hd => syncRsp_wakes hc hr hf hw hws hd,
    fun _ hc hm _ => alignmentTimeout_loses hc hm,
    fun _ hc hr => trimCycle_trims hc hr,
    fun _ _ _ _ _ hc hw hsel hen hin => capture_stamps hc hw hsel hen hin,
    fun _ _ _ _ _ hw hin => capture_idle hw hin,
    fun _ _ _ hq hc hr hp hdue hmax => tick_captures hq hc hr hp hdue hmax,
    fun _ h => sleepEntryEdge_sleeps h, fun _ h => pwrWake_wakes h, fun _ _ h => sleepMakeup_makesUp h⟩

end Sys2Proof.Machine

namespace Sys2Proof.Machine

set_option Elab.async false

-- frames that a port in UP receives (R253 to R271)

theorem receives_up {s : State} {p : Nat} {f : LinkFrame} (h : receives s p f = true) : (s.port p).st = .up := by
  unfold receives at h
  rw [Bool.and_assoc, Bool.and_eq_true] at h
  exact eq_of_beq h.1

theorem receives_ok {s : State} {p : Nat} {f : LinkFrame} (h : receives s p f = true) : frOk f = true := by
  unfold receives at h
  rw [Bool.and_eq_true] at h
  exact h.2

/-- A port that has received a frame keeps all but its scramblers, its failures, its decoded frames and its credit. -/
theorem received_same (s : State) (p : Nat) (f : LinkFrame) :
    (received s p f).st = (s.port p).st ∧ (received s p f).expect = (s.port p).expect ∧ (received s p f).rx = (s.port p).rx ∧
      (received s p f).sinceAck = (s.port p).sinceAck ∧ (received s p f).ackFrom = (s.port p).ackFrom ∧ (received s p f).nak = (s.port p).nak ∧
      (received s p f).ctl = (s.port p).ctl ∧ (received s p f).unacked = (s.port p).unacked ∧
      (received s p f).replayFrom = (s.port p).replayFrom := by
  obtain ⟨a, b, c, d, h⟩ := received_eq s p f
  rw [h]
  exact ⟨rfl, rfl, rfl, rfl, rfl, rfl, rfl, rfl, rfl⟩

theorem Keeps.lostIn_eq {w : List Part} {s t : State} (h : Keeps w s t) (l : Nat) (hp : Part.audit ∉ w := by decide) :
    lostIn t l = lostIn s l := by
  unfold lostIn
  rw [h.same .audit hp]

/-- A counter of equal registers. -/
theorem inc_regs {s t : State} {f : Fld} {n : Nat} (h : t.regs = s.regs) : (t.inc f n).regs = (s.inc f n).regs := by
  unfold State.inc State.wr State.rd
  rw [h]

/-- A frame that lets the registers change, for a state whose registers are the same. -/
theorem Keeps.unwritten {w : List Part} {s t : State} (h : Keeps (.out :: .regs :: w) s t) (hr : t.regs = s.regs) : Keeps (.out :: w) s t :=
  ⟨fun p hp => by
    by_cases e : p = .regs
    · exact e ▸ hr
    · exact h.same p fun hm => (List.mem_cons.1 hm).elim (fun h => hp (h ▸ List.mem_cons_self ..)) fun hm =>
        (List.mem_cons.1 hm).elim e fun hm => hp (List.mem_cons_of_mem _ hm)⟩

theorem badMsg_stampRemote (m : Msg) (s : State) : badMsg (stampRemote m s) = badMsg m := by
  unfold stampRemote
  split_ifs <;> rfl

/-- A DATA frame with a good message advances E and ends an outstanding NAK (R267, R269). -/
theorem takeData_port (p : Nat) {m : Msg} (s : State) (h : badMsg m = false) :
    (∃ owe rx, (takeData p m s).port p = { s.port p with
      expect := (s.port p).expect + 1, nak := none, sinceAck := (s.port p).sinceAck + 1
      ackFrom := if (s.port p).sinceAck = 0 then s.time.now else (s.port p).ackFrom, owe := owe, rx := rx }) ∧
    ∀ q, q ≠ p → (takeData p m s).port q = s.port q := by
  obtain ⟨x, hx⟩ : ∃ x : PortS, { s.port p with
    expect := (s.port p).expect + 1, nak := none, sinceAck := (s.port p).sinceAck + 1
    ackFrom := if (s.port p).sinceAck = 0 then s.time.now else (s.port p).ackFrom, rx := (s.port p).rx ++ [stampRemote m s] } = x := ⟨_, rfl⟩
  obtain ⟨u, hu, hport⟩ : ∃ u, takeData p m s = pumpRx p u ∧ ∀ q, u.port q = (s.setPort p x).port q := by
    unfold takeData
    dsimp only
    rw [badMsg_stampRemote, h, if_neg (by decide), hx]
    refine ⟨_, rfl, fun q => ?_⟩
    split_ifs
    · exact (trace_keeps ..).port_eq q
    · exact ((trace_keeps ..).port_eq q).trans ((State.raise_keeps ..).port_eq q)
    · rfl
    · exact (State.raise_keeps ..).port_eq q
  obtain ⟨⟨owe, rx, hown⟩, hothers⟩ := pumpRx_port p u
  rw [hport, State.port_setPort, ← hx] at hown
  refine ⟨⟨owe, rx, ?_⟩, fun q hq => ?_⟩
  · rw [hu, hown]
  · rw [hu, hothers q hq, hport, State.port_setPort_ne _ _ hq]

/-- What a frame that is received brings about, its reception done. -/
theorem received_from {p : Nat} {fr : LinkFrame} {f bad : State → State} {s t : State} (hr : receives s p fr = true)
    (hx : rxFrame p fr f bad s.bare = t) :
    ∃ u, f u = t ∧ u.port p = received s p fr ∧ (∀ q, q ≠ p → u.port q = s.port q) ∧ Keeps [.lnk] s.bare u := by
  obtain ⟨u, hu, hown, hothers, hkeep⟩ := rxFrame_ports (s := s.bare) hr f bad
  exact ⟨u, hu.symm.trans hx, hown, hothers, hkeep⟩

theorem data_taken {p : Fin 4} {frame : LinkFrame} {s : State} (hc : clocked s = true) (hr : receives s p frame = true) (ht : frType frame = 1)
    (hseq : frSeq frame = (s.port p).expect) (hroom : (s.port p).rx.length + lostIn s (52 + p) < 32)
    (hgood : badMsg (Msg.unpack (frMsg frame)) = false) :
    ∃ t, exec (.data p (heard s p frame)) s = .next t ∧ (∃ owe rx, t.port p = { received s p frame with
        expect := (s.port p).expect + 1, nak := none, sinceAck := (s.port p).sinceAck + 1
        ackFrom := if (s.port p).sinceAck = 0 then s.time.now else (s.port p).ackFrom, owe := owe, rx := rx }) ∧
      (∀ q, q ≠ p.val → t.port q = s.port q) ∧ Keeps [.out, .regs, .time, .src, .xb, .arb, .lnk, .pwr, .trc] s t := by
  refine next_clk hc fun t hx hrun => ?_
  rw [heard_bare, heard_heard, if_neg (not_not.2 ht)] at hx
  obtain ⟨u, hx, hown, hothers, hkeep⟩ := received_from hr hx
  obtain ⟨-, hexp, hrx, hsince, hfrom, -, -, -, -⟩ := received_same s p frame
  have hlost : lostIn u (52 + p) = lostIn s (52 + p) := hkeep.lostIn_eq _
  have htaken : (frSeq frame == (u.port p).expect && decide ((u.port p).rx.length + lostIn u (52 + p) < 32)) = true := by
    rw [hown, hexp, hrx, hlost, hseq, beq_self_eq_true, decide_eq_true hroom]
    rfl
  rw [if_pos htaken] at hx
  obtain ⟨⟨owe, rx, hport⟩, hport'⟩ := takeData_port p u hgood
  rw [hx] at hport hport'
  have hnow : u.time = s.time := hkeep.same .time (by decide)
  rw [hown, hexp, hsince, hfrom, hnow] at hport
  exact ⟨⟨owe, rx, hport⟩, fun q hq => (hport' q hq).trans (hothers q hq), (execData_keeps p (heard s p frame) s).next _ hrun⟩

theorem data_discarded {p : Fin 4} {frame : LinkFrame} {s : State} (hc : clocked s = true) (hr : receives s p frame = true)
    (ht : frType frame = 1) (hnot : frSeq frame ≠ (s.port p).expect ∨ 32 ≤ (s.port p).rx.length + lostIn s (52 + p)) :
    ∃ t, exec (.data p (heard s p frame)) s = .next t ∧
      t.port p = (if (s.port p).nak.isSome then received s p frame
        else { received s p frame with
          nak := some s.time.now, ctl := (s.port p).ctl ++ [mkFrame 2 (s.port p).expect 0] }) ∧
      (∀ q, q ≠ p.val → t.port q = s.port q) ∧ Keeps [.out, .lnk] s t := by
  refine next_clk hc fun t hx hrun => ?_
  rw [heard_bare, heard_heard, if_neg (not_not.2 ht)] at hx
  obtain ⟨u, hx, hown, hothers, hkeep⟩ := received_from hr hx
  obtain ⟨hst, hexp, hrx, -, -, hnak, hctl, -, -⟩ := received_same s p frame
  have hlost : lostIn u (52 + p) = lostIn s (52 + p) := hkeep.lostIn_eq _
  have hnot' : ¬ (frSeq frame == (u.port p).expect && decide ((u.port p).rx.length + lostIn u (52 + p) < 32)) = true := by
    rw [hown, hexp, hrx, hlost, Bool.and_eq_true, beq_iff_eq, decide_eq_true_eq]
    exact fun ⟨hseq, hroom⟩ => hnot.elim (fun h => h hseq) fun h => Nat.not_lt.2 h hroom
  rw [if_neg hnot'] at hx
  obtain ⟨hport, hport'⟩ := sendNak_port p u (by rw [hown, hst]; exact receives_up hr)
  have hnow : u.time = s.time := hkeep.same .time (by decide)
  have hall := hkeep.trans (hx ▸ sendNak_keeps p u : Keeps [.lnk] u t)
  rw [hx] at hport hport'
  rw [hown, hexp, hnak, hctl, hnow] at hport
  exact ⟨hport, fun q hq => (hport' q hq).trans (hothers q hq), hall.bare (by decide)⟩

theorem findIdx?_get {l : List (BitVec 8 × Msg)} {q : BitVec 8} {k : Nat} (h : l.findIdx? (·.1 == q) = some k) :
    ∃ m, l[k]? = some (q, m) := by
  obtain ⟨hk, hq, -⟩ := List.findIdx?_eq_some_iff_getElem.1 h
  exact ⟨l[k].2, by rw [List.getElem?_eq_getElem hk, ← eq_of_beq hq]⟩

theorem ack_frees {p : Fin 4} {frame : LinkFrame} {k : Nat} {s : State} (hc : clocked s = true) (hr : receives s p frame = true)
    (ht : frType frame = 0) (hk : (s.port p).unacked.findIdx? (·.1 == frSeq frame) = some k) :
    ∃ t, exec (.ack p (heard s p frame)) s = .next t ∧ (t.port p).unacked = (s.port p).unacked.drop (k + 1) ∧
      (t.port p).acked = frSeq frame ∧ (t.port p).progress = s.time.now ∧ (t.port p).st = .up ∧
      (∀ q, q ≠ p.val → t.port q = s.port q) ∧ Keeps [.out, .firn, .lnk] s t := by
  refine next_clk hc fun t hx hrun => ?_
  rw [heard_bare, heard_heard, if_neg (by rw [ht, receives_ok hr]; decide)] at hx
  obtain ⟨u, hx, hown, hothers, hkeep⟩ := received_from hr hx
  obtain ⟨hst, -, -, -, -, -, -, hun, -⟩ := received_same s p frame
  have hk' : (u.port p).unacked.findIdx? (·.1 == frSeq frame) = some k := by rw [hown, hun]; exact hk
  rw [hk'] at hx
  dsimp only at hx
  obtain ⟨m, hm⟩ := findIdx?_get hk'
  obtain ⟨hunacked, hacked, hprogress, hst', -⟩ := freeFrames_port p k u _ m hm
  have hothers' := freeFrames_other p (k + 1) u
  have hall : Keeps [.lnk, .firn] s.bare t := hkeep.andThen (hx ▸ freeFrames_keeps p (k + 1) u)
  have hnow : u.time = s.time := hkeep.same .time (by decide)
  rw [hx] at hunacked hacked hprogress hst' hothers'
  rw [hown, hun] at hunacked
  rw [hown, hst, receives_up hr] at hst'
  exact ⟨hunacked, hacked, hprogress.trans (congrArg TimeS.now hnow), hst',
    fun q hq => (hothers' q hq).trans (hothers q hq), hall.bare (by decide)⟩

/-- Freeing the frames before one that stands at k leaves the rest, and the port as it was but for an earlier replay. -/
theorem freeFrames_before {p k : Nat} {q : BitVec 8} {m : Msg} {s : State} (hk : (s.port p).unacked[k]? = some (q, m)) :
    ((freeFrames p k s).port p).unacked = (s.port p).unacked.drop k ∧ ((freeFrames p k s).port p).st = (s.port p).st ∧
      (((freeFrames p k s).port p).replayFrom = (s.port p).replayFrom ∨ ((freeFrames p k s).port p).replayFrom = none) := by
  cases k with
  | zero =>
    have hid : freeFrames p 0 s = s := by
      unfold freeFrames
      dsimp only
      split <;> rfl
    rw [hid, List.drop_zero]
    exact ⟨rfl, rfl, .inl rfl⟩
  | succ n =>
    obtain ⟨⟨q', m'⟩, h⟩ : ∃ e, (s.port p).unacked[n]? = some e :=
      ⟨_, List.getElem?_eq_getElem (Nat.lt_of_succ_lt (List.getElem?_eq_some_iff.1 hk).1)⟩
    obtain ⟨hun, -, -, hst, hfrom⟩ := freeFrames_port p n s q' m' h
    exact ⟨hun, hst, hfrom⟩

/-- A NAK starts a replay at its sequence, the frames before it freed (R271). -/
theorem nak_replays {p : Fin 4} {frame : LinkFrame} {k : Nat} {s : State} (hc : clocked s = true) (hr : receives s p frame = true)
    (ht : frType frame = 2) (hk : (s.port p).unacked.findIdx? (·.1 == frSeq frame) = some k)
    (hfrom : (s.port p).replayFrom ≠ some (frSeq frame)) (hlim : 2 ≤ s.rd (Reg.LNK_CTRL_REPLAYLIM p)) :
    ∃ t, exec (.nak p (heard s p frame)) s = .next t ∧ (t.port p).unacked = (s.port p).unacked.drop k ∧
      (t.port p).replay = some 0 ∧ (t.port p).replayFrom = some (frSeq frame) ∧ (t.port p).replayRuns = 1 ∧ (t.port p).st = .up ∧
      t.regs = (s.inc (Reg.LNK_ERR0_REPLAY p)).regs ∧ (∀ q, q ≠ p.val → t.port q = s.port q) ∧
      Keeps [.out, .regs, .firn, .lnk] s t := by
  refine next_clk hc fun t hx hrun => ?_
  rw [heard_bare, heard_heard, if_neg (by rw [ht, receives_ok hr]; decide)] at hx
  obtain ⟨u, hx, hown, hothers, hkeep⟩ := received_from hr hx
  obtain ⟨hst, -, -, -, -, -, -, hun, hrf⟩ := received_same s p frame
  have hk' : (u.port p).unacked.findIdx? (·.1 == frSeq frame) = some k := by rw [hown, hun]; exact hk
  dsimp only at hx
  rw [hk'] at hx
  dsimp only at hx
  obtain ⟨m, hm⟩ := findIdx?_get hk'
  obtain ⟨hunacked, hst', hfrom'⟩ := freeFrames_before hm
  have hothers' := freeFrames_other p k u
  have hfree := freeFrames_keeps p k u
  obtain ⟨v, hv⟩ : ∃ v, freeFrames p k u = v := ⟨_, rfl⟩
  rw [hv] at hx hunacked hst' hfrom' hothers' hfree
  have hne : (v.port p).replayFrom ≠ some (frSeq frame) := by
    rcases hfrom' with h | h
    · rw [h, hown, hrf]
      exact hfrom
    · rw [h]
      exact (Option.some_ne_none _).symm
  have hfirst : (v.port p).unacked[0]? = some (frSeq frame, m) := by
    rw [hunacked, List.getElem?_drop, Nat.add_zero]
    exact hm
  have hvk : Keeps [.lnk, .firn] s.bare v := hkeep.andThen hfree
  have hlim' : 2 ≤ v.rd (Reg.LNK_CTRL_REPLAYLIM p) := by
    rw [hvk.rd_eq]
    exact hlim
  rw [beq_eq_false_iff_ne.2 hne, Bool.false_and, if_neg (by decide), startReplay_first p 0 v _ m hfirst hne hlim'] at hx
  obtain ⟨x, hxp⟩ : ∃ x : PortS, { v.port p with
    replay := some 0, replayFrom := some (frSeq frame), replayRuns := 1, progress := v.time.now } = x := ⟨_, rfl⟩
  rw [hxp] at hx
  have hport : t.port p = x := by rw [← hx, (State.inc_keeps ..).port_eq, State.port_setPort]
  have hport' (q : Nat) (hq : q ≠ p.val) : t.port q = s.port q := by
    rw [← hx, (State.inc_keeps ..).port_eq, State.port_setPort_ne _ _ hq, hothers' q hq, hothers q hq]
  have hregs : t.regs = (s.inc (Reg.LNK_ERR0_REPLAY p)).regs := by
    rw [← hx]
    exact inc_regs ((State.setPort_keeps ..).same .regs (by decide) |>.trans (hvk.same .regs (by decide)))
  have hall : Keeps [.lnk, .firn, .regs] s.bare t :=
    hvk.andThen (hx ▸ (State.setPort_keeps ..).andThen (State.inc_keeps ..) : Keeps [.lnk, .regs] v t)
  rw [hown, hst, receives_up hr] at hst'
  rw [hown, hun] at hunacked
  refine ⟨(congrArg PortS.unacked hport).trans ?_, (congrArg PortS.replay hport).trans ?_, (congrArg PortS.replayFrom hport).trans ?_,
    (congrArg PortS.replayRuns hport).trans ?_, (congrArg PortS.st hport).trans ?_, hregs, hport', hall.bare (by decide)⟩
  · exact hxp ▸ hunacked
  · exact hxp ▸ rfl
  · exact hxp ▸ rfl
  · exact hxp ▸ rfl
  · exact hxp ▸ hst'

/-- A received frame that is rejected: a reserved type is counted, a TRAIN frame leaves its slot (R251, R253). -/
theorem reject_received {p : Fin 4} {frame : LinkFrame} {s : State} (hc : clocked s = true) (hr : receives s p frame = true)
    (ht : 6 ≤ frType frame) :
    ∃ t, exec (.linkFrameReject p (heard s p frame)) s = .next t ∧ t.port p = received s p frame ∧
      t.regs = (if frType frame = 6 then s else s.inc (Reg.LNK_ERR2_BADTYPE p)).regs ∧ (∀ q, q ≠ p.val → t.port q = s.port q) ∧
      Keeps [.out, .regs, .lnk] s t := by
  refine next_clk hc fun t hx hrun => ?_
  rw [heard_bare, heard_heard, if_neg (by omega)] at hx
  obtain ⟨u, hx, hown, hothers, hkeep⟩ := received_from hr hx
  have hregs : u.regs = s.regs := hkeep.same .regs (by decide)
  by_cases h : frType frame = 6
  · rw [if_pos h] at hx ⊢
    rw [← hx]
    exact ⟨hown, hregs, hothers, hkeep.bare (by decide)⟩
  · rw [if_neg h] at hx ⊢
    have hinc : Keeps [.regs] u t := hx ▸ State.inc_keeps ..
    have hall : Keeps [.lnk, .regs] s.bare t := hkeep.andThen hinc
    exact ⟨(hinc.port_eq _).trans hown, hx ▸ inc_regs hregs, fun q hq => (hinc.port_eq q).trans (hothers q hq), hall.bare (by decide)⟩

/-- A frame on a short-reach port that fails its check counts toward cause 2 (R254, R285). -/
theorem reject_failed {p : Fin 4} {frame : LinkFrame} {s : State} (hc : clocked s = true) (hup : (s.port p).st = .up) (hp : p.val < 2)
    (ht : frType frame ≠ 1) (hbad : frOk frame = false) (hrun7 : (s.port p).failRun < 7) :
    ∃ t, exec (.linkFrameReject p (heard s p frame)) s = .next t ∧
      t.port p = { s.port p with
        scrRx := scrSlot (s.port p).scrRx, failRun := (s.port p).failRun + 1 } ∧
      t.regs = (s.inc (Reg.LNK_ERR0_CRC p)).regs ∧ (∀ q, q ≠ p.val → t.port q = s.port q) ∧ Keeps [.out, .regs, .lnk] s t := by
  refine next_clk hc fun t hx hrun => ?_
  rw [heard_bare, heard_heard, if_neg (by rw [hbad]; exact fun h => h.elim ht fun h => Bool.noConfusion h.1)] at hx
  unfold rxFrame inState at hx
  have hup' : ((s.bare.port p).st == .up) = true := beq_iff_eq.2 hup
  have hshort : ¬ (decide (2 ≤ p.val) && !(s.bare.port p).fec.contains frame) = true := by
    rw [decide_eq_false (by omega), Bool.false_and]
    decide
  rw [if_pos hup'] at hx
  dsimp only at hx
  rw [if_neg hshort, if_pos hp, hbad, if_neg (by decide), if_pos hp] at hx
  obtain ⟨x, hxp⟩ : ∃ x : PortS, { s.port p with scrRx := scrSlot (s.port p).scrRx } = x := ⟨_, rfl⟩
  obtain ⟨u, hu⟩ : ∃ u, (s.bare.setPort p x).inc (Reg.LNK_ERR0_CRC p) = u := ⟨_, rfl⟩
  replace hx : failFrame p u = t := by
    rw [← hu, ← hxp]
    exact hx
  have hown : u.port p = x := by rw [← hu, (State.inc_keeps ..).port_eq, State.port_setPort]
  have hothers (q : Nat) (hq : q ≠ p.val) : u.port q = s.port q := by
    rw [← hu, (State.inc_keeps ..).port_eq, State.port_setPort_ne _ _ hq]
    rfl
  have hfail : failFrame p u = u.setPort p { x with failRun := x.failRun + 1 } := by
    unfold failFrame
    dsimp only
    rw [hown, if_neg]
    have hx7 : x.failRun < 7 := hxp ▸ hrun7
    omega
  rw [hfail] at hx
  have hregs : t.regs = (s.inc (Reg.LNK_ERR0_CRC p)).regs := by
    rw [← hx, ← hu]
    exact inc_regs rfl
  have hall : Keeps [.lnk, .regs] s.bare t :=
    ((State.setPort_keeps ..).andThen (hu ▸ State.inc_keeps ..) : Keeps [.lnk, .regs] s.bare u).andThen (hx ▸ State.setPort_keeps ..)
  refine ⟨?_, hregs, fun q hq => ?_, hall.bare (by decide)⟩
  · refine Eq.trans (b := t.port p) rfl ?_
    rw [← hx, State.port_setPort, ← hxp]
  · refine Eq.trans (b := t.port q) rfl ?_
    rw [← hx, State.port_setPort_ne _ _ hq, hothers q hq]

/-- Settles O25: what a port in UP does with each frame. -/
theorem receivedFrames : Obligations.ReceivedFrames := by
  refine ⟨fun p frame s hc hr ht hseq hroom hgood => ?_, fun _ _ _ hc hr ht hnot => data_discarded hc hr ht hnot,
    fun _ _ _ _ hc hr ht hk => ack_frees hc hr ht hk, fun _ _ _ _ hc hr ht hk hfrom hlim => nak_replays hc hr ht hk hfrom hlim,
    fun p frame s hc hr ht => ?_, fun p frame s hc hr ht => ?_, fun _ _ _ hc hup hp ht hbad h7 => reject_failed hc hup hp ht hbad h7⟩
  · obtain ⟨t, hx, ⟨owe, rx, hport⟩, hrest⟩ := data_taken hc hr ht hseq hroom hgood
    exact ⟨t, owe, rx, hx, hport, hrest⟩
  · obtain ⟨t, hx, hport, hregs, hrest⟩ := reject_received hc hr (by omega)
    rw [if_neg (by omega)] at hregs
    exact ⟨t, hx, hport, hregs, hrest⟩
  · obtain ⟨t, hx, hport, hregs, hothers, hkeep⟩ := reject_received hc hr (by omega)
    rw [if_pos ht] at hregs
    exact ⟨t, hx, hport, hothers, hkeep.unwritten hregs⟩

end Sys2Proof.Machine

namespace Sys2Proof.Machine

set_option Elab.async false

-- the bounds of a port in UP (R269 to R272)

theorem inState_on {p : Nat} {st : LnkState} {s : State} (h : (s.port p).st = st) (f : State → State) : inState p st f s = f s := by
  unfold inState
  rw [if_pos (beq_iff_eq.2 h)]

theorem inState_off {p : Nat} {st : LnkState} {s : State} (h : (s.port p).st ≠ st) (f : State → State) : inState p st f s = s := by
  unfold inState
  rw [if_neg fun e => h (beq_iff_eq.1 e)]

theorem ackTimer_acks {p : Fin 4} {s : State} (hc : clocked s = true) (hup : (s.port p).st = .up) (hdue : ackDue s p = true) :
    ∃ t, exec (.ackTimer p) s = .next t ∧
      t.port p = { s.port p with
        sinceAck := 0, ctl := (s.port p).ctl ++ [mkFrame 0 ((s.port p).expect - 1) 0] } ∧
      (∀ q, q ≠ p.val → t.port q = s.port q) ∧ Keeps [.out, .lnk] s t := by
  refine next_clk hc fun t hx hrun => ?_
  have hdue' : ackDue s.bare p = true := hdue
  rw [inState_on (by exact hup)] at hx
  simp only [hdue', Bool.not_true, Bool.false_eq_true, ↓reduceIte] at hx
  obtain ⟨hown, hothers⟩ := queueCtl_port p (ackFrame (s.bare.port p)) (s.bare.setPort p { s.bare.port p with sinceAck := 0 })
  rw [hx] at hown hothers
  refine ⟨hown.trans ?_, fun q hq => (hothers q hq).trans (State.port_setPort_ne _ _ hq), (execAckTimer_keeps p s).next _ hrun⟩
  rw [State.port_setPort]
  rfl

theorem nakTimeout_repeats {p : Fin 4} {b : BitVec 64} {s : State} (hc : clocked s = true) (hup : (s.port p).st = .up)
    (hnak : (s.port p).nak = some b) (hdue : b.toNat + ackTmo s p ≤ s.t) :
    ∃ t, exec (.nakTimeout p) s = .next t ∧
      t.port p = { s.port p with
        nak := some s.time.now, ctl := (s.port p).ctl ++ [mkFrame 2 (s.port p).expect 0] } ∧
      (∀ q, q ≠ p.val → t.port q = s.port q) ∧ Keeps [.out, .lnk] s t := by
  refine next_clk hc fun t hx hrun => ?_
  have hnak' : (s.bare.port p).nak = some b := hnak
  have hdue' : b.toNat + ackTmo s.bare p ≤ s.bare.t := hdue
  rw [inState_on (by exact hup)] at hx
  simp only [hnak', if_pos hdue'] at hx
  obtain ⟨hown, hothers⟩ := sendNak_port p (s.bare.setPort p { s.bare.port p with nak := none }) (by rw [State.port_setPort]; exact hup)
  rw [hx] at hown hothers
  refine ⟨hown.trans ?_, fun q hq => (hothers q hq).trans (State.port_setPort_ne _ _ hq), (execNakTimeout_keeps p s).next _ hrun⟩
  rw [State.port_setPort]
  rfl

/-- A replay is due when nothing is acknowledged for the bound. -/
theorem replayTimeout_starts {p : Fin 4} {q : BitVec 8} {m : Msg} {l : List (BitVec 8 × Msg)} {s : State} (hc : clocked s = true)
    (hup : (s.port p).st = .up) (hun : (s.port p).unacked = (q, m) :: l) (hdue : (s.port p).progress.toNat + ackTmo s p ≤ s.t) :
    exec (.replayTimeout p) s = .next { startReplay p 0 s.bare with pending := s.pending } := by
  refine runClk_eq hc ?_
  have hun' : (s.bare.port p).unacked = (q, m) :: l := hun
  have hdue' : (s.bare.port p).progress.toNat + ackTmo s.bare p ≤ s.bare.t := hdue
  rw [inState_on (by exact hup)]
  simp only [hun', List.isEmpty_cons, Bool.not_false, Bool.true_and, decide_eq_true_eq, if_pos hdue']

theorem replayTimeout_replays {p : Fin 4} {q : BitVec 8} {m : Msg} {l : List (BitVec 8 × Msg)} {s : State} (hc : clocked s = true)
    (hup : (s.port p).st = .up) (hun : (s.port p).unacked = (q, m) :: l) (hdue : (s.port p).progress.toNat + ackTmo s p ≤ s.t)
    (hfrom : (s.port p).replayFrom ≠ some q) (hlim : 2 ≤ s.rd (Reg.LNK_CTRL_REPLAYLIM p)) :
    ∃ t, exec (.replayTimeout p) s = .next t ∧
        t.port p = { s.port p with
          replay := some 0, replayFrom := some q, replayRuns := 1, progress := s.time.now } ∧
        t.regs = (s.inc (Reg.LNK_ERR0_REPLAY p)).regs ∧ (∀ q, q ≠ p.val → t.port q = s.port q) ∧ Keeps [.out, .regs, .lnk] s t := by
  have hfirst : (s.bare.port p).unacked[0]? = some (q, m) := by
    have h : (s.bare.port p).unacked = (q, m) :: l := hun
    rw [h]
    rfl
  obtain ⟨x, hx⟩ : ∃ x : PortS, { s.port p with replay := some 0, replayFrom := some q, replayRuns := 1, progress := s.time.now } = x :=
    ⟨_, rfl⟩
  obtain ⟨t, ht⟩ : ∃ t, (s.bare.setPort p x).inc (Reg.LNK_ERR0_REPLAY p) = t := ⟨_, rfl⟩
  have hstart : startReplay p 0 s.bare = t := (startReplay_first p 0 s.bare q m hfirst hfrom hlim).trans (by rw [← ht, ← hx]; rfl)
  have hrun := replayTimeout_starts hc hup hun hdue
  rw [hstart] at hrun
  have hall : Keeps [.lnk, .regs] s.bare t := ht ▸ (State.setPort_keeps ..).andThen (State.inc_keeps ..)
  have hport (k : Nat) : t.port k = (s.bare.setPort p x).port k := by rw [← ht, (State.inc_keeps ..).port_eq]
  rw [hx]
  refine ⟨_, hrun, (hport p).trans (State.port_setPort ..), ?_,
    fun k hk => (hport k).trans (State.port_setPort_ne _ _ hk), hall.bare (by decide)⟩
  exact ht ▸ inc_regs rfl

theorem replayTimeout_down {p : Fin 4} {q : BitVec 8} {m : Msg} {l : List (BitVec 8 × Msg)} {s : State} (hc : clocked s = true)
    (hup : (s.port p).st = .up) (hun : (s.port p).unacked = (q, m) :: l) (hdue : (s.port p).progress.toNat + ackTmo s p ≤ s.t)
    (hfrom : (s.port p).replayFrom = some q) (hlim : max 1 (s.rd (Reg.LNK_CTRL_REPLAYLIM p)) ≤ (s.port p).replayRuns + 1) :
    ∃ t, exec (.replayTimeout p) s = .next t ∧ (t.port p).st = .down ∧ (t.port p).resolving = true ∧
        (∀ q, q ≠ p.val → t.port q = s.port q) ∧ Keeps [.out, .regs, .time, .src, .xb, .arb, .lnk, .trc] s t := by
  have hrun := replayTimeout_starts hc hup hun hdue
  obtain ⟨x, hx⟩ : ∃ x : PortS, { s.port p with
    replay := some 0, replayFrom := some q, replayRuns := (s.port p).replayRuns + 1, progress := s.time.now } = x := ⟨_, rfl⟩
  obtain ⟨u, hu⟩ : ∃ u, (s.bare.setPort p x).inc (Reg.LNK_ERR0_REPLAY p) = u := ⟨_, rfl⟩
  have hport (k : Nat) : u.port k = (s.bare.setPort p x).port k := by rw [← hu, (State.inc_keeps ..).port_eq]
  have hxup : x.st = .up := hx ▸ hup
  have hlim' : max 1 (u.rd (Reg.LNK_CTRL_REPLAYLIM p)) ≤ (s.port p).replayRuns + 1 := by
    have hrd : u.rd (Reg.LNK_CTRL_REPLAYLIM p) = s.rd (Reg.LNK_CTRL_REPLAYLIM p) := by
      rw [← hu, inc_rd_ne, (State.setPort_keeps ..).rd_eq]
      · rfl
      · unfold Fld.key Reg.LNK_CTRL_REPLAYLIM Reg.LNK_ERR0_REPLAY
        dsimp only
        omega
    rw [hrd]
    exact hlim
  have hdown : startReplay p 0 s.bare = portDown p 3 false u := by
    have hfirst : (s.bare.port p).unacked[0]? = some (q, m) := by
      have h : (s.bare.port p).unacked = (q, m) :: l := hun
      rw [h]
      rfl
    have hfrom' : (s.bare.port p).replayFrom = some q := hfrom
    unfold startReplay
    dsimp only
    rw [hfirst]
    dsimp only
    rw [hfrom', beq_self_eq_true, if_pos rfl]
    have hu' : (s.bare.setPort p { s.bare.port p with
      replay := some 0, replayFrom := some q, replayRuns := (s.bare.port p).replayRuns + 1, progress := s.bare.time.now }).inc
        (Reg.LNK_ERR0_REPLAY p) = u := hu ▸ hx ▸ rfl
    rw [hu', if_pos (by exact hlim')]
    exact inState_on (by rw [hport, State.port_setPort]; exact hxup) _
  obtain ⟨hst, hres, -, -, hothers⟩ := portDown_port p 3 false u
  obtain ⟨t, ht⟩ : ∃ t, portDown p 3 false u = t := ⟨_, rfl⟩
  rw [hdown, ht] at hrun
  rw [ht] at hst hres hothers
  exact ⟨_, hrun, hst, hres, fun k hk => (hothers k hk).trans ((hport k).trans (State.port_setPort_ne _ _ hk)),
    (execReplayTimeout_keeps p s).next _ hrun⟩

-- the decoder of a long-reach port (R251, R257 to R259)

/-- A port that is not in UP takes a failed frame into its count at most. -/
theorem failFrame_credit {p : Nat} {s : State} (h : (s.port p).st = .credit) :
    (∃ r, (failFrame p s).port p = { s.port p with failRun := r }) ∧ (∀ q, q ≠ p → (failFrame p s).port q = s.port q) ∧
      Keeps [.lnk] s (failFrame p s) := by
  unfold failFrame downIfUp
  dsimp only
  rw [inState_off (by rw [h]; decide)]
  split_ifs
  · exact ⟨⟨_, rfl⟩, fun _ _ => rfl, .refl⟩
  · exact ⟨⟨_, State.port_setPort ..⟩, fun q hq => State.port_setPort_ne _ _ hq, State.setPort_keeps ..⟩

/-- In CREDIT a decoded block only counts (R259). -/
theorem decodeBlock_credit {p : Nat} {f g : LinkFrame} {c1 c0 : Nat} {s : State} (h : (s.port p).st = .credit) :
    (∃ r, (decodeBlock p f g c1 c0 s).port p = { s.port p with failRun := r }) ∧
      (∀ q, q ≠ p → (decodeBlock p f g c1 c0 s).port q = s.port q) ∧ Keeps [.regs, .lnk] s (decodeBlock p f g c1 c0 s) := by
  unfold decodeBlock
  split
  · obtain ⟨u, hu⟩ : ∃ u, s.inc (Reg.LNK_ERR1_FECUE p) = u := ⟨_, rfl⟩
    have huk : Keeps [.regs] s u := hu ▸ State.inc_keeps ..
    obtain ⟨⟨r, hr⟩, hq, hk⟩ := failFrame_credit (p := p) (s := u) (by rw [huk.port_eq]; exact h)
    obtain ⟨v, hv⟩ : ∃ v, failFrame p u = v := ⟨_, rfl⟩
    rw [hv, huk.port_eq] at hr
    rw [hv] at hq hk
    obtain ⟨⟨r', hr'⟩, hq', hk'⟩ := failFrame_credit (p := p) (s := v) (by rw [hr]; exact h)
    obtain ⟨w, hw⟩ : ∃ w, failFrame p v = w := ⟨_, rfl⟩
    rw [hw, hr] at hr'
    rw [hw] at hq' hk'
    have hnak : sendNak p w = w := by
      unfold sendNak
      dsimp only
      rw [if_pos]
      rw [hr', h]
      rfl
    rw [hu, hv, hw, hnak]
    exact ⟨⟨r', hr'⟩, fun q hne => (hq' q hne).trans ((hq q hne).trans (huk.port_eq q)),
      (huk.andThen (hk.trans hk') : Keeps [.regs, .lnk] s w)⟩
  · rename_i f' g' fixed _
    dsimp only
    obtain ⟨u, hu⟩ : ∃ u, (if fixed = true then s.inc (Reg.LNK_ERR1_FECCE p) else s) = u := ⟨_, rfl⟩
    have huk : Keeps [.regs] s u := hu ▸ Keeps.ite (State.inc_keeps ..) .refl
    have hoff : (u.port p).st ≠ .up := by
      rw [huk.port_eq, h]
      decide
    rw [hu, inState_off hoff, inState_off hoff]
    exact ⟨⟨_, huk.port_eq p⟩, fun q _ => huk.port_eq q, huk.mono (by decide)⟩

/-- The turn of block b among the descrambled slots l of a group. -/
def fecTurn (p : Nat) (l : List LinkFrame) (b : Nat) (s : State) : State :=
  if ((s.port p).st == .up || (s.port p).st == .credit) = true then
    decodeBlock p (l.getD (2 * b) 0) (l.getD (2 * b + 1) 0) ((l.getD 16 0).extractLsb' (20 * b + 10) 10).toNat
      ((l.getD 16 0).extractLsb' (20 * b + 0) 10).toNat s
  else s

theorem fecTurns_credit (p : Nat) (l : List LinkFrame) (bs : List Nat) {s : State} (h : (s.port p).st = .credit) :
    (∃ r, (s.each bs (fecTurn p l)).port p = { s.port p with failRun := r }) ∧
      (∀ q, q ≠ p → (s.each bs (fecTurn p l)).port q = s.port q) ∧ Keeps [.regs, .lnk] s (s.each bs (fecTurn p l)) := by
  unfold State.each
  induction bs generalizing s with
  | nil => exact ⟨⟨_, rfl⟩, fun _ _ => rfl, .refl⟩
  | cons b bs ih =>
    rw [List.foldl_cons]
    obtain ⟨u, hu⟩ : ∃ u, fecTurn p l b s = u := ⟨_, rfl⟩
    have hstep : (∃ r, u.port p = { s.port p with failRun := r }) ∧ (∀ q, q ≠ p → u.port q = s.port q) ∧ Keeps [.regs, .lnk] s u := by
      rw [← hu]
      unfold fecTurn
      split_ifs
      · exact decodeBlock_credit h
      · exact ⟨⟨_, rfl⟩, fun _ _ => rfl, .refl⟩
    obtain ⟨⟨r, hr⟩, hq, hk⟩ := hstep
    obtain ⟨⟨r', hr'⟩, hq', hk'⟩ := ih (s := u) (by rw [hr]; exact h)
    rw [hu]
    rw [hr] at hr'
    exact ⟨⟨r', hr'⟩, fun q hne => (hq' q hne).trans (hq q hne), hk.trans hk'⟩

/-- A group whose parity slot has arrived is descrambled, and its blocks are decoded in turn. -/
theorem exec_fecBlockDecode {p : Fin 4} {raw : List LinkFrame} {rawParity : LinkFrame} {s : State} (hlen : raw.length = 16) (hp : 2 ≤ p.val)
    (hlive : (s.port p).st = .up ∨ (s.port p).st = .credit) (hseed : (s.port p).scrRx ≠ []) :
    exec (.fecBlockDecode p raw rawParity) s = .next
      { (s.bare.setPort p { s.port p with scrRx := (descramble (raw ++ [rawParity]) (s.port p).scrRx).2 }).each (List.range 8)
          (fecTurn p (descramble (raw ++ [rawParity]) (s.port p).scrRx).1) with pending := s.pending } := by
  refine runWf_eq (by rw [hlen]; rfl) ?_
  have hgoes : ¬ (decide (p.val < 2) || !((s.bare.port p).st == .up || (s.bare.port p).st == .credit) || (s.bare.port p).scrRx.isEmpty) = true := by
    have hst : ((s.bare.port p).st == .up || (s.bare.port p).st == .credit) = true := by
      rw [Bool.or_eq_true, beq_iff_eq, beq_iff_eq]
      exact hlive
    have hne : (s.bare.port p).scrRx.isEmpty = false := by
      rw [List.isEmpty_eq_false_iff]
      exact hseed
    rw [hst, hne, decide_eq_false (by omega)]
    decide
  dsimp only
  rw [if_neg]
  · rfl
  · simpa using hgoes

theorem fecBlockDecode_credit {p : Fin 4} {raw : List LinkFrame} {rawParity : LinkFrame} {s : State} (hlen : raw.length = 16) (hp : 2 ≤ p.val)
    (hst : (s.port p).st = .credit) (hseed : (s.port p).scrRx ≠ []) :
    ∃ t, exec (.fecBlockDecode p raw rawParity) s = .next t ∧ (t.port p).st = .credit ∧
      (t.port p).scrRx = (descramble (raw ++ [rawParity]) (s.port p).scrRx).2 ∧ (t.port p).fec = (s.port p).fec ∧
      (∀ q, q ≠ p.val → t.port q = s.port q) ∧ Keeps [.out, .regs, .lnk] s t := by
  have hrun := exec_fecBlockDecode (rawParity := rawParity) hlen hp (.inr hst) hseed
  obtain ⟨x, hx⟩ : ∃ x : PortS, { s.port p with scrRx := (descramble (raw ++ [rawParity]) (s.port p).scrRx).2 } = x := ⟨_, rfl⟩
  rw [hx] at hrun
  have hxst : x.st = .credit := hx ▸ hst
  obtain ⟨⟨r, hr⟩, hq, hk⟩ := fecTurns_credit p (descramble (raw ++ [rawParity]) (s.port p).scrRx).1 (List.range 8)
    (s := s.bare.setPort p x) (by rw [State.port_setPort]; exact hxst)
  obtain ⟨t, ht⟩ : ∃ t, (s.bare.setPort p x).each (List.range 8)
    (fecTurn p (descramble (raw ++ [rawParity]) (s.port p).scrRx).1) = t := ⟨_, rfl⟩
  rw [ht, State.port_setPort] at hr
  rw [ht] at hrun hq hk
  have hall : Keeps [.lnk, .regs] s.bare t := (State.setPort_keeps s.bare p x).andThen hk
  refine ⟨_, hrun, (congrArg PortS.st hr).trans hxst, (congrArg PortS.scrRx hr).trans (hx ▸ rfl), (congrArg PortS.fec hr).trans (hx ▸ rfl),
    fun q hne => (hq q hne).trans (State.port_setPort_ne _ _ hne), hall.bare (by decide)⟩

theorem filter_fecList (f : LinkFrame) : fecList f = [f].filter (fun x => frType x ≠ 6) := by
  unfold fecList
  by_cases h : frType f = 6
  · rw [if_pos h, List.filter_cons_of_neg (by simpa using h), List.filter_nil]
  · rw [if_neg h, List.filter_cons_of_pos (by simpa using h), List.filter_nil]

theorem flatMap_fecList (f g : Nat → LinkFrame) (l : List Nat) :
    l.flatMap (fun b => fecList (f b) ++ fecList (g b)) = (l.flatMap fun b => [f b, g b]).filter (fun x => frType x ≠ 6) := by
  induction l with
  | nil => rfl
  | cons b l ih =>
    rw [List.flatMap_cons, List.flatMap_cons, ih, List.filter_append, filter_fecList, filter_fecList, ← List.filter_append]
    rfl

theorem fecBlockDecode_passes {p : Fin 4} {raw frames : List LinkFrame} {rawParity parity : LinkFrame} {f g : Nat → LinkFrame}
    {fix : Nat → Bool} {s : State} (hlen : raw.length = 16) (hframes : frames.length = 16) (hp : 2 ≤ p.val) (hup : (s.port p).st = .up)
    (hseed : (s.port p).scrRx ≠ []) (hclear : (descramble (raw ++ [rawParity]) (s.port p).scrRx).1 = frames ++ [parity])
    (hdec : ∀ b, b < 8 → frOk (f b) = true ∧ frOk (g b) = true ∧
      rsDecode (frames.getD (2 * b) 0) (frames.getD (2 * b + 1) 0) (parity.extractLsb' (20 * b + 10) 10).toNat
        (parity.extractLsb' (20 * b) 10).toNat = some (f b, g b, fix b)) :
    ∃ t, exec (.fecBlockDecode p raw rawParity) s = .next t ∧ (t.port p).st = .up ∧ (t.port p).failRun = 0 ∧
      (t.port p).scrRx = (descramble (raw ++ [rawParity]) (s.port p).scrRx).2 ∧
      (t.port p).fec = (s.port p).fec ++ ((List.range 8).flatMap fun b => [f b, g b]).filter (fun x => frType x ≠ 6) ∧
      (∀ q, q ≠ p.val → t.port q = s.port q) ∧ Keeps [.out, .regs, .lnk] s t := by
  have hrun := exec_fecBlockDecode (rawParity := rawParity) hlen hp (.inl hup) hseed
  obtain ⟨x, hx⟩ : ∃ x : PortS, { s.port p with scrRx := (descramble (raw ++ [rawParity]) (s.port p).scrRx).2 } = x := ⟨_, rfl⟩
  rw [hx, hclear] at hrun
  have hxup : x.st = .up := hx ▸ hup
  have hsym : (frames ++ [parity]).getD 16 0 = parity := by
    rw [List.getD_append_right _ _ _ _ (by omega), hframes]
    rfl
  have hget (k : Nat) (hk : k < 16) : (frames ++ [parity]).getD k 0 = frames.getD k 0 := List.getD_append _ _ _ _ (by omega)
  obtain ⟨t, ht, hport, hq, hk⟩ := decodeBlocks_port p
    (fun b => (frames ++ [parity]).getD (2 * b) 0) (fun b => (frames ++ [parity]).getD (2 * b + 1) 0)
    (fun b => (((frames ++ [parity]).getD 16 0).extractLsb' (20 * b + 10) 10).toNat)
    (fun b => (((frames ++ [parity]).getD 16 0).extractLsb' (20 * b + 0) 10).toNat) f g fix (List.range 8)
    (fun s => (s.port p).st == .up || (s.port p).st == .credit) (fun s h => by rw [h]; rfl)
    (fun b hb => by
      have hb8 : b < 8 := List.mem_range.1 hb
      rw [hsym, hget _ (by omega), hget _ (by omega), Nat.add_zero]
      exact hdec b hb8)
    (s.bare.setPort p x) (by rw [State.port_setPort]; exact hxup)
  have hall : Keeps [.lnk, .regs] s.bare t := (State.setPort_keeps s.bare p x).andThen hk
  rw [State.port_setPort, flatMap_fecList, if_neg (by decide)] at hport
  replace hrun : exec (.fecBlockDecode p raw rawParity) s = .next { t with pending := s.pending } := ht ▸ hrun
  refine ⟨_, hrun, (congrArg PortS.st hport).trans hxup, congrArg PortS.failRun hport, (congrArg PortS.scrRx hport).trans (hx ▸ rfl),
    (congrArg PortS.fec hport).trans (hx ▸ rfl), fun q hne => (hq q hne).trans (State.port_setPort_ne _ _ hne), hall.bare (by decide)⟩

/-- Settles O26: ACKs, NAKs, replays and the decoder of a port in UP. -/
theorem linkBounds : Obligations.LinkBounds :=
  ⟨fun _ _ hc hup hdue => ackTimer_acks hc hup hdue, fun _ _ _ hc hup hnak hdue => nakTimeout_repeats hc hup hnak hdue,
    fun _ _ _ _ _ hc hup hun hdue => ⟨fun hfrom hlim => replayTimeout_replays hc hup hun hdue hfrom hlim,
      fun hfrom hlim => replayTimeout_down hc hup hun hdue hfrom hlim⟩,
    fun _ _ _ _ _ _ _ _ _ hlen hframes hp hup hseed hclear hdec => fecBlockDecode_passes hlen hframes hp hup hseed hclear hdec,
    fun _ _ _ _ hlen hp hst hseed => fecBlockDecode_credit hlen hp hst hseed⟩

end Sys2Proof.Machine

namespace Sys2Proof.Machine

set_option Elab.async false

-- reports after a down (R287 to R289)

/-- A report leaves on the usable port of its routing entry (R287). -/
theorem sendReport_port {target : BitVec 5} {payload : BitVec 128} {q : Nat} {s : State} (h : portToward s target = some q) :
    (sendReport target payload s).port q = { s.port q with ctl := (s.port q).ctl ++ [mkFrame 5 0 payload] } ∧
      (∀ k, k ≠ q → (sendReport target payload s).port k = s.port k) ∧ Keeps [.lnk] s (sendReport target payload s) := by
  have hsend : sendReport target payload s = queueCtl q (mkFrame 5 0 payload) s := by
    unfold sendReport
    rw [h]
  rw [hsend]
  exact ⟨(queueCtl_port ..).1, (queueCtl_port ..).2, queueCtl_keeps ..⟩

theorem reportSend_sends {p : Fin 4} {q : Nat} {s : State} (hc : clocked s = true) (hn : (s.port p).reports < 4)
    (hdue : (s.port p).reports = 0 ∨ (s.port p).lastReport.toNat + 256 ≤ s.t) (hq : portToward s (peerOf s p) = some q) (hne : q ≠ p.val) :
    ∃ t, exec (.reportSend p) s = .next t ∧
      t.port p = { s.port p with
        reports := (s.port p).reports + 1, lastReport := s.time.now } ∧
      t.port q = { s.port q with
        ctl := (s.port q).ctl ++ [mkFrame 5 0 (BitVec.ofNat 128 ((peerOf s p).toNat + 2 ^ 5 * s.die.toNat + 2 ^ 10 * p.val
          + 2 ^ 12 * (s.port p).lastRx.toNat + 2 ^ 20 * b2n (s.port p).lastNone))] } ∧
      (∀ k, k ≠ p.val → k ≠ q → t.port k = s.port k) ∧ Keeps [.out, .lnk] s t := by
  refine next_clk hc fun t hx hrun => ?_
  have hgo : (s.bare.port p).reports < 4 ∧ ((s.bare.port p).reports = 0 ∨ (s.bare.port p).lastReport.toNat + 256 ≤ s.bare.t) := ⟨hn, hdue⟩
  dsimp only at hx
  rw [if_pos hgo] at hx
  obtain ⟨x, hxp⟩ : ∃ x : PortS, { s.port p with reports := (s.port p).reports + 1, lastReport := s.time.now } = x := ⟨_, rfl⟩
  obtain ⟨v, hv⟩ : ∃ v, s.bare.setPort p x = v := ⟨_, rfl⟩
  have hown : v.port p = x := hv ▸ State.port_setPort ..
  have hothers (k : Nat) (hk : k ≠ p.val) : v.port k = s.port k := hv ▸ State.port_setPort_ne _ _ hk
  have hroute : portToward v (peerOf s p) = some q := by
    refine (rtUsable_congr (s := s) (hv ▸ rfl) (fun k => ?_) _).trans hq
    by_cases hk : k = p.val
    · rw [hk, hown, ← hxp]
    · rw [hothers k hk]
  obtain ⟨hto, hrest, -⟩ := sendReport_port (payload := BitVec.ofNat 128 ((peerOf s p).toNat + 2 ^ 5 * s.die.toNat + 2 ^ 10 * p.val
    + 2 ^ 12 * (s.port p).lastRx.toNat + 2 ^ 20 * b2n (s.port p).lastNone)) hroute
  replace hx : sendReport (peerOf s p) (BitVec.ofNat 128 ((peerOf s p).toNat + 2 ^ 5 * s.die.toNat + 2 ^ 10 * p.val
    + 2 ^ 12 * (s.port p).lastRx.toNat + 2 ^ 20 * b2n (s.port p).lastNone)) v = t := hv ▸ hxp ▸ hx
  rw [hx] at hto hrest
  rw [hothers q hne] at hto
  refine ⟨(hrest p (Ne.symm hne)).trans (hown.trans hxp.symm), hto, fun k hk hkq => (hrest k hkq).trans (hothers k hk),
    (execReportSend_keeps p s).next _ hrun⟩

theorem report_forwarded {p : Fin 4} {frame : LinkFrame} {q : Nat} {s : State} (hc : clocked s = true) (hr : receives s p frame = true)
    (ht : frType frame = 5) (hd : (frMsg frame).extractLsb' 0 5 ≠ s.die) (hq : portToward s ((frMsg frame).extractLsb' 0 5) = some q)
    (hne : q ≠ p.val) :
    ∃ t, exec (.report p (heard s p frame)) s = .next t ∧ t.port p = received s p frame ∧
      t.port q = { s.port q with
        ctl := (s.port q).ctl ++ [mkFrame 5 0 (frMsg frame)] } ∧
      (∀ k, k ≠ p.val → k ≠ q → t.port k = s.port k) ∧ Keeps [.out, .lnk] s t := by
  refine next_clk hc fun t hx hrun => ?_
  rw [heard_bare, heard_heard, if_neg (by rw [ht, receives_ok hr]; decide)] at hx
  obtain ⟨u, hx, hown, hothers, hkeep⟩ := received_from hr hx
  obtain ⟨hst, -⟩ := received_same s p frame
  have hdie : u.die = s.die := congrArg (fun x : Pins => x.idPkg ++ x.idDie) (hkeep.same .pins (by decide))
  dsimp only at hx
  rw [hdie, if_pos (bne_iff_ne.2 hd)] at hx
  have hroute : portToward u ((frMsg frame).extractLsb' 0 5) = some q := by
    refine (rtUsable_congr (hkeep.same .regs (by decide)) (fun k => ?_) _).trans hq
    by_cases hk : k = p.val
    · rw [hk, hown, hst]
      rfl
    · rw [hothers k hk]
      rfl
  obtain ⟨hto, hrest, hsend⟩ := sendReport_port (payload := frMsg frame) hroute
  rw [hx] at hto hrest hsend
  rw [hothers q hne] at hto
  exact ⟨(hrest p (Ne.symm hne)).trans hown, hto, fun k hk hkq => (hrest k hkq).trans (hothers k hk), (hkeep.trans hsend).bare (by decide)⟩

/-- What a value of L leaves of a port that it resolves (R288). -/
theorem resolveWith_port {q : Nat} {l : BitVec 8} {none_ : Bool} {s : State} (h : (s.port q).resolving = true) (h1 : (s.port q).entered = false) :
    ((resolveWith q l none_ s).port q).st = (s.port q).st ∧ ((resolveWith q l none_ s).port q).resolving = true ∧
      ((resolveWith q l none_ s).port q).entered = true ∧ ((resolveWith q l none_ s).port q).unacked = [] ∧
      ((resolveWith q l none_ s).port q).tx = [] ∧ ∀ k, k ≠ q → (resolveWith q l none_ s).port k = s.port k := by
  unfold resolveWith
  split_ifs
  · obtain ⟨hst, hres, hent, hun, htx, -, hrest⟩ := resolve_port q (s.port q).acked true s h h1
    exact ⟨hst, hres, hent, hun, htx, hrest⟩
  · obtain ⟨hst, hres, hent, hun, htx, -, hrest⟩ := resolve_port q l false s h h1
    exact ⟨hst, hres, hent, hun, htx, hrest⟩

/-- A port that is named by a report is taken down when it is UP, and then waits for its value of L (R285, R287). -/
theorem downIfUp_resolving {q : Nat} {s : State} (h : (s.port q).st = .up ∨ ((s.port q).resolving = true ∧ (s.port q).entered = false)) :
    ((downIfUp q 4 s).port q).st = (if (s.port q).st = .up then .down else (s.port q).st) ∧ ((downIfUp q 4 s).port q).resolving = true ∧
      ((downIfUp q 4 s).port q).entered = false ∧ ∀ k, k ≠ q → (downIfUp q 4 s).port k = s.port k := by
  unfold downIfUp
  by_cases hup : (s.port q).st = .up
  · rw [inState_on hup, if_pos hup]
    obtain ⟨hst, hres, -, -, hrest⟩ := portDown_port q 4 false s
    exact ⟨hst, hres, portDown_entered .., hrest⟩
  · rw [inState_off hup, if_neg hup]
    obtain ⟨hres, hent⟩ := h.resolve_left hup
    exact ⟨rfl, hres, hent, fun _ _ => rfl⟩

theorem filter_named {q : Nat} {f : Nat → Bool} (hq : q < 4) (h : ∀ k, k < 4 → (f k = true ↔ k = q)) : [0, 1, 2, 3].filter f = [q] := by
  have hf : ∀ k ∈ [0, 1, 2, 3], f k = decide (k = q) := fun k hk => by
    rw [Bool.eq_iff_iff, decide_eq_true_eq]
    exact h k (by simp only [List.mem_cons, List.not_mem_nil, or_false] at hk; omega)
  rw [List.filter_congr hf]
  obtain rfl | rfl | rfl | rfl : q = 0 ∨ q = 1 ∨ q = 2 ∨ q = 3 := by omega
  all_goals rfl

theorem report_resolves {p : Fin 4} {frame : LinkFrame} {q : Nat} {s : State} (hc : clocked s = true) (hr : receives s p frame = true)
    (ht : frType frame = 5) (hd : (frMsg frame).extractLsb' 0 5 = s.die) (hq : q < 4) (hne : q ≠ p.val)
    (hnamed : ∀ k, k < 4 → (peerOf s k = (frMsg frame).extractLsb' 5 5 ∧
      s.rd (Reg.LNK_PEER_PEERPORT k) = ((frMsg frame).extractLsb' 10 2).toNat ∧ (s.port k).everUp = true ↔ k = q))
    (hst : (s.port q).st = .up ∨ ((s.port q).resolving = true ∧ (s.port q).entered = false)) :
    ∃ t, exec (.report p (heard s p frame)) s = .next t ∧ (t.port q).st = (if (s.port q).st = .up then .down else (s.port q).st) ∧
      (t.port q).resolving = true ∧ (t.port q).entered = true ∧ (t.port q).unacked = [] ∧ (t.port q).tx = [] ∧
      t.port p = received s p frame ∧ (∀ k, k ≠ p.val → k ≠ q → t.port k = s.port k) ∧
      Keeps [.out, .regs, .time, .src, .firn, .xb, .arb, .lnk, .pwr, .trc] s t := by
  refine next_clk hc fun t hx hrun => ?_
  rw [heard_bare, heard_heard, if_neg (by rw [ht, receives_ok hr]; decide)] at hx
  obtain ⟨u, hx, hown, hothers, hkeep⟩ := received_from hr hx
  have hdie : u.die = s.die := congrArg (fun x : Pins => x.idPkg ++ x.idDie) (hkeep.same .pins (by decide))
  have hever (k : Nat) : (u.port k).everUp = (s.port k).everUp := by
    by_cases hk : k = p.val
    · obtain ⟨a, b, c, d, h⟩ := received_eq s p frame
      rw [hk, hown, h]
    · rw [hothers k hk]
  have hpeer (k : Nat) : peerOf u k = peerOf s k := congrArg (BitVec.ofNat 5) (hkeep.rd_eq _)
  have hport (k : Nat) : u.rd (Reg.LNK_PEER_PEERPORT k) = s.rd (Reg.LNK_PEER_PEERPORT k) := hkeep.rd_eq _
  dsimp only at hx
  rw [hdie, if_neg (by rw [hd, bne_self_eq_false]; decide), filter_named hq fun k hk => by
    rw [hever, hpeer, hport, Bool.and_assoc, Bool.and_eq_true, Bool.and_eq_true, beq_iff_eq, beq_iff_eq]
    exact hnamed k hk] at hx
  replace hx : resolveWith q ((frMsg frame).extractLsb' 12 8) ((frMsg frame).getLsbD 20) (downIfUp q 4 u) = t := hx
  have hqport : u.port q = s.port q := hothers q hne
  obtain ⟨hst1, hres1, hent1, hrest1⟩ := downIfUp_resolving (q := q) (s := u) (by rw [hqport]; exact hst)
  obtain ⟨hst2, hres2, hent2, hun2, htx2, hrest2⟩ := resolveWith_port
    (l := (frMsg frame).extractLsb' 12 8) (none_ := (frMsg frame).getLsbD 20) hres1 hent1
  rw [hx] at hst2 hres2 hent2 hun2 htx2 hrest2
  rw [hqport] at hst1
  exact ⟨hst2.trans hst1, hres2, hent2, hun2, htx2, (hrest2 p (Ne.symm hne)).trans ((hrest1 p (Ne.symm hne)).trans hown),
    fun k hk hkq => (hrest2 k hkq).trans ((hrest1 k hkq).trans (hothers k hk)), (execReport_keeps p (heard s p frame) s).next _ hrun⟩

theorem reportTimeout_resolves {p : Fin 4} {s : State} (hc : clocked s = true) (hres : (s.port p).resolving = true)
    (hent : (s.port p).entered = false) (hdue : (s.port p).downAt.toNat + 256 * max 1 (s.rd (Reg.LNK_CTRL_RPTTMO p)) ≤ s.t) :
    ∃ t, exec (.reportTimeout p) s = .next t ∧ (t.port p).resolving = true ∧ (t.port p).entered = true ∧ (t.port p).unacked = [] ∧
      (t.port p).tx = [] ∧ (t.port p).acked = (s.port p).acked ∧ (∀ k, k ≠ p.val → t.port k = s.port k) ∧
      Keeps [.out, .regs, .src, .firn, .xb, .lnk, .pwr, .trc] s t := by
  refine next_clk hc fun t hx hrun => ?_
  have hgo : ((s.bare.port p).resolving && !(s.bare.port p).entered &&
      decide ((s.bare.port p).downAt.toNat + 256 * max 1 (s.bare.rd (Reg.LNK_CTRL_RPTTMO p)) ≤ s.bare.t)) = true := by
    rw [Bool.and_eq_true, Bool.and_eq_true, Bool.not_eq_true', decide_eq_true_eq]
    exact ⟨⟨hres, hent⟩, hdue⟩
  dsimp only at hx
  rw [if_pos hgo] at hx
  obtain ⟨-, hres', hent', hun, htx, hacked, hrest⟩ := resolve_port p (s.bare.port p).acked true s.bare hres hent
  rw [hx] at hres' hent' hun htx hacked hrest
  exact ⟨hres', hent', hun, htx, hacked, hrest, (execReportTimeout_keeps p s).next _ hrun⟩

theorem settleExpire_settles {p : Fin 4} {b : BitVec 64} {s : State} (hc : clocked s = true) (hres : (s.port p).resolving = true)
    (hb : (s.port p).resolved = some b) (hdue : b.toNat + 256 * s.rd (Reg.LNK_CTRL_SETTLE p) ≤ s.t) :
    ∃ t, exec (.settleExpire p) s = .next t ∧ (t.port p).resolving = false ∧ (t.port p).entered = false ∧ (t.port p).resolved = none ∧
      (t.port p).st = (s.port p).st ∧ Keeps [.out, .regs, .src, .xb, .lnk, .pwr, .trc] s t := by
  refine next_clk hc fun t hx hrun => ?_
  have hres' : (s.bare.port p).resolving = true := hres
  have hb' : (s.bare.port p).resolved = some b := hb
  have hdue' : b.toNat + 256 * s.bare.rd (Reg.LNK_CTRL_SETTLE p) ≤ s.bare.t := hdue
  simp only [hres', hb', if_pos hdue'] at hx
  obtain ⟨x, hxp⟩ : ∃ x : PortS, { s.port p with resolving := false, entered := false, resolved := none } = x := ⟨_, rfl⟩
  obtain ⟨u, hu⟩ : ∃ u, reroute (· == .held p) (s.bare.setPort p x) = u := ⟨_, rfl⟩
  have hown : u.port p = x := by rw [← hu, (reroute_keeps ..).port_eq, State.port_setPort]
  replace hx : pumpAll u = t := by
    rw [← hu, ← hxp]
    exact hx
  obtain ⟨owe, rx, hpump⟩ := pumpAll_port u p
  rw [hx, hown, ← hxp] at hpump
  exact ⟨congrArg PortS.resolving hpump, congrArg PortS.entered hpump, congrArg PortS.resolved hpump, (congrArg PortS.st hpump).trans rfl,
    (execSettleExpire_keeps p s).next _ hrun⟩

/-- Settles O27: reports are sent, forwarded and taken, and a down is resolved and settled. -/
theorem reports : Obligations.Reports :=
  ⟨fun _ _ _ hc hn hdue hq hne => reportSend_sends hc hn hdue hq hne, fun _ _ _ _ hc hr ht hd hq hne => report_forwarded hc hr ht hd hq hne,
    fun _ _ _ _ hc hr ht hd hq hne hnamed hst => report_resolves hc hr ht hd hq hne hnamed hst,
    fun _ _ hc hres hent hdue => reportTimeout_resolves hc hres hent hdue, fun _ _ _ hc hres hb hdue => settleExpire_settles hc hres hb hdue⟩

-- the crevasse audit and the pattern test (R293, R294, R511)

/-- What the audit has found once entry k has been visited (R294). -/
def foundAfter (s : State) (k : Nat) (lost : Bool) : List Nat :=
  if (lost && mayLeak s k && !(lost && mayLeak s k && s.audit.found.contains k)) = true then s.audit.found.filter (· != k) ++ [k]
  else s.audit.found.filter (· != k)

theorem foundAfter_self (s : State) (k : Nat) (lost : Bool) :
    k ∈ foundAfter s k lost ↔ lost = true ∧ mayLeak s k = true ∧ k ∉ s.audit.found := by
  unfold foundAfter
  have hnot : k ∉ s.audit.found.filter (· != k) := fun h => bne_iff_ne.1 (List.mem_filter.1 h).2 rfl
  cases lost <;> cases hm : mayLeak s k <;> by_cases hf : k ∈ s.audit.found <;> simp [hf, hnot]

theorem foundAfter_other {s : State} {k j : Nat} (lost : Bool) (h : j ≠ k) : j ∈ foundAfter s k lost ↔ j ∈ s.audit.found := by
  unfold foundAfter
  have hrest : j ∈ s.audit.found.filter (· != k) ↔ j ∈ s.audit.found := by
    rw [List.mem_filter, bne_iff_ne]
    exact and_iff_left h
  split_ifs
  · rw [List.mem_append, hrest, List.mem_singleton]
    exact or_iff_left h
  · exact hrest

/-- A visit goes on to the next entry and notes what it has found. -/
theorem auditVisit_visits {lost : Bool} {s : State} (hc : clocked s = true) (hen : s.flag Reg.AUDIT_CTRL_EN = true)
    (hsleep : s.time.sleep = .awake) (hfree : s.latchOf 5121 = none) :
    ∃ t, exec (.auditVisit lost) s = .next t ∧
      t.audit = { pos := if 2752 ≤ s.audit.pos + 1 then 0 else s.audit.pos + 1, found := foundAfter s s.audit.pos lost } ∧
      t.latchOf 5121 = (if (lost && mayLeak s s.audit.pos && s.audit.found.contains s.audit.pos) = true then
        some ⟨s.time.now, BitVec.ofNat 16 ((auditAt s.audit.pos).1 + 256 * (auditAt s.audit.pos).2), 7, s.epoch.num, true, false⟩
        else none) ∧ Keeps [.out, .regs, .src, .audit] s t := by
  refine next_clk hc fun t hx hrun => ?_
  have hen' : s.bare.flag Reg.AUDIT_CTRL_EN = true := hen
  simp only [hen', Bool.not_true, Bool.false_eq_true, ↓reduceIte] at hx
  obtain ⟨u, hu⟩ : ∃ u : State, { s.bare with audit :=
    { pos := if decide (2752 ≤ s.audit.pos + 1) = true then 0 else s.audit.pos + 1, found := foundAfter s s.audit.pos lost } } = u := ⟨_, rfl⟩
  obtain ⟨leak, hleak⟩ : ∃ b, (lost && mayLeak s s.audit.pos && s.audit.found.contains s.audit.pos) = b := ⟨_, rfl⟩
  obtain ⟨v, hv⟩ : ∃ v, (if leak = true then raiseInt 5121 ((auditAt s.audit.pos).1 + 256 * (auditAt s.audit.pos).2)
    ((u.inc Reg.AUDIT_STAT_LEAKS).wr Reg.AUDIT_STAT_LASTLIST (auditAt s.audit.pos).1) else u) = v := ⟨_, rfl⟩
  replace hx : (if decide (2752 ≤ s.audit.pos + 1) = true then v.inc Reg.AUDIT_STAT_PASSES else v) = t := by
    rw [← hv, ← hleak, ← hu]
    exact hx
  have hlast : Keeps [.regs] v t := hx ▸ Keeps.ite (State.inc_keeps ..) .refl
  have huk : Keeps [.audit] s.bare u := hu ▸ Keeps.refl.audit (by decide)
  have hvk : Keeps [.regs, .src] u v ∧ v.latchOf 5121 = (if leak = true then
      some ⟨s.time.now, BitVec.ofNat 16 ((auditAt s.audit.pos).1 + 256 * (auditAt s.audit.pos).2), 7, s.epoch.num, true, false⟩ else none) := by
    rw [← hv]
    split_ifs
    · obtain ⟨w, hw⟩ : ∃ w, (u.inc Reg.AUDIT_STAT_LEAKS).wr Reg.AUDIT_STAT_LASTLIST (auditAt s.audit.pos).1 = w := ⟨_, rfl⟩
      have hwk : Keeps [.regs] u w := hw ▸ (State.inc_keeps ..).trans (State.wr_keeps ..)
      have huw : Keeps [.audit, .regs] s.bare w := huk.andThen hwk
      rw [hw, raiseInt_free _ _ w ((huw.latchOf_eq _).trans hfree) ((congrArg TimeS.sleep (huw.same .time (by decide))).trans hsleep)]
      refine ⟨hwk.andThen (State.setLatch_keeps ..), ?_⟩
      rw [State.latchOf_setLatch, huw.same .time (by decide), huw.same .epoch (by decide)]
      rfl
    · exact ⟨.refl, (huk.latchOf_eq _).trans hfree⟩
  obtain ⟨hvk, hlatch⟩ := hvk
  have hall : Keeps [.audit, .regs, .src] s.bare t := (huk.andThen hvk : Keeps [.audit, .regs, .src] s.bare v).andThen hlast
  refine ⟨?_, ?_, hall.bare (by decide)⟩
  · refine (hlast.same .audit (by decide)).trans ((hvk.same .audit (by decide)).trans ?_)
    rw [← hu]
    simp only [decide_eq_true_eq]
  · rw [hleak]
    exact (hlast.latchOf_eq _).trans hlatch

theorem checkerLocked_locks {p lane : Fin 4} {errs : Nat} {s : State} (hc : clocked s = true) (ht : testing s p = true) :
    exec (.checkerLocked p lane errs) s = .next { s with out := [], tst := { s.tst with
      locked := tset false s.tst.locked (laneKey p lane) true,
      errs := tset 0 s.tst.errs (laneKey p lane) (min (2 ^ 32 - 1) (tget 0 s.tst.errs (laneKey p lane) + errs)) } } := by
  refine runClk_eq (t := { s.bare with tst := { s.tst with
      locked := tset false s.tst.locked (laneKey p lane) true,
      errs := tset 0 s.tst.errs (laneKey p lane) (min (2 ^ 32 - 1) (tget 0 s.tst.errs (laneKey p lane) + errs)) } }) hc ?_
  have ht' : testing s.bare p = true := ht
  simp only [ht', Bool.not_true, Bool.false_eq_true, ↓reduceIte]
  rfl

theorem checkerLockLost_unlocks {p lane : Fin 4} {errs : Nat} {s : State} (hc : clocked s = true) (ht : testing s p = true)
    (hl : tget false s.tst.locked (laneKey p lane) = true) :
    exec (.checkerLockLost p lane errs) s = .next { s with out := [], tst := { s.tst with
      locked := tset false s.tst.locked (laneKey p lane) false,
      errs := tset 0 s.tst.errs (laneKey p lane) (min (2 ^ 32 - 1) (tget 0 s.tst.errs (laneKey p lane) + errs)) } } := by
  refine runClk_eq (t := { s.bare with tst := { s.tst with
      locked := tset false s.tst.locked (laneKey p lane) false,
      errs := tset 0 s.tst.errs (laneKey p lane) (min (2 ^ 32 - 1) (tget 0 s.tst.errs (laneKey p lane) + errs)) } }) hc ?_
  have ht' : testing s.bare p = true := ht
  have hl' : tget false s.bare.tst.locked (laneKey p lane) = true := hl
  simp only [ht', hl', Bool.not_true, Bool.or_self, Bool.false_eq_true, ↓reduceIte]
  rfl

/-- Settles O28: a visit of the audit, and the checkers of the pattern test. -/
theorem auditAndPatternTest : Obligations.AuditAndPatternTest := by
  refine ⟨fun lost s hc hen hsleep hfree => ?_, fun _ _ _ _ hc ht => checkerLocked_locks hc ht,
    fun _ _ _ _ hc ht hl => checkerLockLost_unlocks hc ht hl⟩
  obtain ⟨t, hx, haudit, hlatch, hkeep⟩ := auditVisit_visits (lost := lost) hc hen hsleep hfree
  refine ⟨t, hx, congrArg AuditS.pos haudit, ?_, fun k hk => ?_, hlatch.trans (if_congr ?_ rfl rfl), hkeep⟩
  · rw [haudit]
    exact foundAfter_self ..
  · rw [haudit]
    exact foundAfter_other lost hk
  · have hmay : s.audit.found.contains s.audit.pos = true → mayLeak s s.audit.pos = true := fun h => by
      unfold mayLeak
      rw [h, Bool.true_or]
    rw [Bool.and_eq_true, Bool.and_eq_true, ← List.contains_iff_mem]
    exact ⟨fun ⟨⟨hl, _⟩, hf⟩ => ⟨hl, hf⟩, fun ⟨hl, hf⟩ => ⟨⟨hl, hmay hf⟩, hf⟩⟩

end Sys2Proof.Machine

namespace Sys2Proof.Machine

set_option Elab.async false

-- levels and scrambling (R250, R251)

theorem slotLevels_getD (f : LinkFrame) (l : Fin 4) (m : Fin 20) : ((slotLevels f).getD l []).getD m 0 =
    grayLevel (f.getLsbD (40 * l.val + 39 - 2 * m.val)) (f.getLsbD (40 * l.val + 38 - 2 * m.val)) := by
  unfold slotLevels
  simp only [List.getD_eq_getElem?_getD, List.getElem?_map, List.getElem?_range l.isLt, Option.map_some, Option.getD_some,
    List.getElem?_range m.isLt]

theorem grayLevel_inj : ∀ {a b c d : Bool}, grayLevel a b = grayLevel c d → a = c ∧ b = d := by decide

theorem slotLevels_inj {f g : LinkFrame} (h : slotLevels f = slotLevels g) : f = g := by
  have hsym (l : Fin 4) (m : Fin 20) := grayLevel_inj <|
    (slotLevels_getD f l m).symm.trans ((congrArg (fun x => (x.getD l []).getD m 0) h).trans (slotLevels_getD g l m))
  refine BitVec.eq_of_getLsbD_eq fun i hi => ?_
  obtain ⟨hhigh, hlow⟩ := hsym ⟨i / 40, by omega⟩ ⟨(39 - i % 40) / 2, by omega⟩
  rcases Nat.mod_two_eq_zero_or_one i with he | ho
  · rw [show i = 40 * (i / 40) + 38 - 2 * ((39 - i % 40) / 2) by omega]
    exact hlow
  · rw [show i = 40 * (i / 40) + 39 - 2 * ((39 - i % 40) / 2) by omega]
    exact hhigh

theorem scramble_scramble (seeds : List (BitVec 31)) (f : LinkFrame) : scramble seeds (scramble seeds f) = f := by
  unfold scramble
  rw [BitVec.xor_assoc, BitVec.xor_self, BitVec.xor_zero]

/-- Bit j + 1 after a step of the scrambler is bit j before it. -/
theorem scrStep_shift (x : BitVec 31) {j : Nat} (hj : j + 1 < 31) : (scrStep x).getLsbD (j + 1) = x.getLsbD j := by
  unfold scrStep
  rw [BitVec.getLsbD_or, BitVec.getLsbD_shiftLeft, BitVec.getLsbD_setWidth, BitVec.getLsbD_ofBool]
  simp [hj]

theorem scrStep_new (x : BitVec 31) : (scrStep x).getLsbD 0 = (x.getLsbD 30 != x.getLsbD 27) := by
  unfold scrStep
  rw [BitVec.getLsbD_or, BitVec.getLsbD_shiftLeft, BitVec.getLsbD_setWidth, BitVec.getLsbD_ofBool]
  simp

/-- A bit that has been shifted in stands j places higher after j more steps. -/
theorem scrStep_iterate_shift (x : BitVec 31) (k : Nat) {j : Nat} (hj : j < 31) :
    (scrStep^[k + j] x).getLsbD j = (scrStep^[k] x).getLsbD 0 := by
  induction j with
  | zero => rfl
  | succ j ih =>
    rw [← Nat.add_assoc, Function.iterate_succ_apply', scrStep_shift _ hj]
    exact ih (by omega)

/-- What the first k bits of a generator are: each is the bit that its step shifts in. -/
theorem lineBits_prefix (step : BitVec 31 → BitVec 31) (x : BitVec 31) (k : Nat) :
    let r := (List.range k).foldl (fun (a : BitVec 40 × BitVec 31) _ =>
      ((a.1 <<< 1) ||| (BitVec.ofBool ((step a.2).getLsbD 0)).zeroExtend 40, step a.2)) (0, x)
    r.2 = step^[k] x ∧ ∀ i, i < k → k - 1 - i < 40 → r.1.getLsbD (k - 1 - i) = (step^[i + 1] x).getLsbD 0 := by
  induction k with
  | zero => exact ⟨rfl, fun i hi => absurd hi (Nat.not_lt_zero i)⟩
  | succ k ih =>
    obtain ⟨hstate, hbits⟩ := ih
    dsimp only
    rw [List.range_succ, List.foldl_append, List.foldl_cons, List.foldl_nil]
    obtain ⟨r, hr⟩ : ∃ r, (List.range k).foldl (fun (a : BitVec 40 × BitVec 31) _ =>
      ((a.1 <<< 1) ||| (BitVec.ofBool ((step a.2).getLsbD 0)).zeroExtend 40, step a.2)) (0, x) = r := ⟨_, rfl⟩
    rw [hr] at hstate hbits ⊢
    refine ⟨by rw [hstate, Function.iterate_succ_apply'], fun i hi h40 => ?_⟩
    dsimp only
    rw [BitVec.getLsbD_or, BitVec.getLsbD_shiftLeft, BitVec.getLsbD_setWidth, BitVec.getLsbD_ofBool]
    rcases Nat.lt_or_eq_of_le (Nat.lt_succ_iff.1 hi) with hlt | heq
    · have hpos : 0 < k + 1 - 1 - i := by omega
      rw [show k + 1 - 1 - i - 1 = k - 1 - i by omega, hbits i hlt (by omega)]
      simp only [h40, decide_true, Bool.true_and, show ¬ k + 1 - 1 - i < 1 by omega, decide_false, Bool.not_false, hpos.ne', Bool.false_and,
        Bool.or_false]
    · rw [heq, Function.iterate_succ_apply', ← hstate]
      simp

/-- The bits of a scrambler's key: bit 39 − i is what step i + 1 shifts in. -/
theorem scrKey_bit (x : BitVec 31) {i : Nat} (hi : i < 40) : (scrKey x).getLsbD (39 - i) = (scrStep^[i + 1] x).getLsbD 0 :=
  (lineBits_prefix scrStep x 40).2 i hi (by omega)

/-- The key obeys x^31 + x^28 + 1 (R251). -/
theorem scrKey_recurrence (x : BitVec 31) {n : Nat} (hn : n < 9) :
    (scrKey x).getLsbD (8 - n) = ((scrKey x).getLsbD (39 - n) != (scrKey x).getLsbD (36 - n)) := by
  have h31 := scrStep_iterate_shift x (n + 1) (j := 30) (by decide)
  have h28 := scrStep_iterate_shift x (n + 4) (j := 27) (by decide)
  rw [show 8 - n = 39 - (31 + n) by omega, scrKey_bit x (by omega), scrKey_bit x (by omega), show 36 - n = 39 - (n + 3) by omega,
    scrKey_bit x (by omega), Function.iterate_succ_apply', scrStep_new, ← h31, ← h28, show n + 1 + 30 = 31 + n by omega]

-- slots that nothing claims (R251, R253, R262, R510)

/-- A link without a request sends its idle slot. -/
theorem exec_idleLink {p : Fin 4} {a : Fin 23} {s t : State} (hc : clocked s = true) (ha : a.val = 16 + p.val) (hreqs : arbReqs a s = [])
    (hholder : (s.arbOf a).holder = none) (hx : idleSlot p s.bare = t) :
    exec (.arbiterDecide a) s = .next { t with pending := s.pending } := by
  refine run_eq ?_
  have hclk : arbClocked s.bare a = true := by
    unfold arbClocked
    rw [show clocked s.bare = true from hc, Bool.or_true]
  have hidle : 16 ≤ a.val ∧ a.val < 20 ∧ (arbReqs a s.bare).isEmpty = true ∧ (s.bare.arbOf a).holder = none :=
    ⟨by omega, by omega, by rw [show arbReqs a s.bare = [] from hreqs]; rfl, hholder⟩
  rw [hclk, if_neg (by decide), if_pos hidle, show (a.val - 16) = p.val by omega, hx]
  unfold pinRing
  exact if_neg (by omega)

theorem idleSlot_silent {p : Nat} {s : State} (h : (s.port p).st = .down ∨ ((s.port p).st = .off ∧ testing s p = false)) : idleSlot p s = s := by
  unfold idleSlot
  rcases h with h | ⟨h, ht⟩
  · simp only [h]
  · simp only [h, ht, Bool.false_eq_true, ↓reduceIte]

theorem idleSlot_ident {p : Nat} {s : State} (h : (s.port p).st = .ident) : idleSlot p s = sendTrain p (identOf s p) s := by
  unfold idleSlot
  simp only [h]

theorem idleSlot_up {p : Nat} {s : State} (h : (s.port p).st = .up) :
    idleSlot p s = sendFrame p (ackFrame (s.port p)) (s.setPort p { s.port p with sinceAck := 0 }) := by
  unfold idleSlot
  simp only [h]

theorem idleSlot_test {p : Nat} {s : State} (h : (s.port p).st = .off) (ht : testing s p = true) : idleSlot p s = testSlot p s := by
  unfold idleSlot
  simp only [h, ht, ↓reduceIte]

/-- The bits of a test slot by lane: the next of each lane's generator (R510). -/
def testBits (s : State) : LinkFrame :=
  let r := s.tst.gen.map (lineBits (prbsStep (s.rd Reg.TEST_LSEL_PAT)))
  let lane (l : Nat) : BitVec 40 := (r.getD l (0, 0)).1
  lane 3 ++ lane 2 ++ lane 1 ++ lane 0

theorem testSlot_sends {p : Nat} {s : State} (hpat : s.rd Reg.TEST_LSEL_PAT ≠ 3) (hloop : s.rd Reg.TEST_LSEL_LOOP ≠ 3) :
    testSlot p s = { s with
      tst := { s.tst with gen := s.tst.gen.map fun x => (lineBits (prbsStep (s.rd Reg.TEST_LSEL_PAT)) x).2 }
      out := s.out ++ [.slot p (slotLevels (testBits s))] } := by
  unfold testSlot
  dsimp only
  rw [if_neg (by simp [hpat, hloop]), List.map_map]
  rfl

theorem extract_lanes (w x y z : BitVec 40) (l : Fin 4) :
    (w ++ x ++ y ++ z : LinkFrame).extractLsb' (40 * l.val) 40 = [z, y, x, w].getD l 0 := by
  refine BitVec.eq_of_getLsbD_eq fun i hi => ?_
  rw [BitVec.getLsbD_extractLsb', decide_eq_true hi, Bool.true_and]
  obtain ⟨l, hl⟩ := l
  simp only [BitVec.getLsbD_append]
  obtain rfl | rfl | rfl | rfl : l = 0 ∨ l = 1 ∨ l = 2 ∨ l = 3 := by omega
  · rw [if_pos (by omega), Nat.mul_zero, Nat.zero_add]
    rfl
  · rw [if_neg (by omega), if_pos (by omega), show 40 * 1 + i - 40 = i by omega]
    rfl
  · rw [if_neg (by omega), if_neg (by omega), if_pos (by omega), show 40 * 2 + i - 40 - 40 = i by omega]
    rfl
  · rw [if_neg (by omega), if_neg (by omega), if_neg (by omega), show 40 * 3 + i - 40 - 40 - 40 = i by omega]
    rfl

theorem testBits_lane {s : State} {l : Fin 4} {x : BitVec 31} (h : s.tst.gen[l.val]? = some x) :
    (testBits s).extractLsb' (40 * l.val) 40 = (lineBits (prbsStep (s.rd Reg.TEST_LSEL_PAT)) x).1 := by
  unfold testBits
  rw [extract_lanes]
  have hlane : ((s.tst.gen.map (lineBits (prbsStep (s.rd Reg.TEST_LSEL_PAT)))).getD l (0, 0)).1 =
      (lineBits (prbsStep (s.rd Reg.TEST_LSEL_PAT)) x).1 := by
    rw [List.getD_eq_getElem?_getD, List.getElem?_map, h]
    rfl
  rw [← hlane]
  obtain ⟨l, hl⟩ := l
  obtain rfl | rfl | rfl | rfl : l = 0 ∨ l = 1 ∨ l = 2 ∨ l = 3 := by omega
  all_goals rfl

/-- An ACK that returns no credit leaves a short-reach port in its slot. -/
theorem sendFrame_unowed {p : Nat} {f : LinkFrame} {s : State} (hp : p < 2) (h : (s.port p).owe = []) :
    ∃ u : State, u.port p = s.port p ∧ (∀ q, q ≠ p → u.port q = s.port q) ∧ Keeps [.lnk] s u ∧
      sendFrame p f s = sendSlot p (sealFrame f 0 0) u := by
  have hdue : creditDue (s.port p) = (0, 0) := by
    unfold creditDue
    rw [h]
    rfl
  refine ⟨s.setPort p { s.port p with owe := tset 0 (s.port p).owe 0 (tget 0 (s.port p).owe 0 - 0) }, ?_, fun q hq => State.port_setPort_ne _ _ hq,
    State.setPort_keeps .., ?_⟩
  · obtain ⟨x, hx⟩ : ∃ x, s.port p = x := ⟨_, rfl⟩
    rw [State.port_setPort, hx]
    rw [hx] at h
    obtain ⟨⟩ := x
    subst h
    rfl
  · unfold sendFrame
    dsimp only
    rw [hdue]
    exact if_pos hp

theorem lineCoding_slot (p : Fin 4) (a : Fin 23) (s : State) (hc : clocked s = true) (ha : a.val = 16 + p.val) (hreqs : arbReqs a s = [])
    (hholder : (s.arbOf a).holder = none) (hup : (s.port p).st = .up) (hp : p.val < 2) (howe : (s.port p).owe = []) :
    ∃ t, exec (.arbiterDecide a) s = .next t ∧
      t.out = [.slot p (slotLevels (scramble (s.port p).scrTx (sealFrame (ackFrame (s.port p)) 0 0)))] ∧
      t.port p = { s.port p with sinceAck := 0, scrTx := scrSlot (s.port p).scrTx } ∧ (∀ q, q ≠ p.val → t.port q = s.port q) ∧
      Keeps [.out, .lnk] s t := by
  obtain ⟨x, hx⟩ : ∃ x : PortS, { s.port p with sinceAck := 0 } = x := ⟨_, rfl⟩
  obtain ⟨v, hv⟩ : ∃ v, s.bare.setPort p x = v := ⟨_, rfl⟩
  have hvx : v.port p = x := hv ▸ State.port_setPort ..
  obtain ⟨u, hown, hothers, hkeep, hsend⟩ := sendFrame_unowed (p := p) (f := ackFrame (s.port p)) (s := v) hp (by rw [hvx, ← hx]; exact howe)
  have hidle : idleSlot p s.bare = sendSlot p (sealFrame (ackFrame (s.port p)) 0 0) u := by
    rw [idleSlot_up (by exact hup), ← hsend, ← hv, ← hx]
    rfl
  have hvk : Keeps [.lnk] s.bare v := hv ▸ State.setPort_keeps ..
  have hvothers (q : Nat) (hq : q ≠ p.val) : v.port q = s.port q := hv ▸ State.port_setPort_ne _ _ hq
  have huk : Keeps [.lnk] s.bare u := hvk.trans hkeep
  obtain ⟨t, ht⟩ : ∃ t, sendSlot p (sealFrame (ackFrame (s.port p)) 0 0) u = t := ⟨_, rfl⟩
  rw [ht] at hidle
  have hrun := exec_idleLink hc ha hreqs hholder hidle
  have hall : Keeps [.lnk, .out] s.bare t := huk.andThen (ht ▸ sendSlot_keeps ..)
  refine ⟨_, hrun, ?_, ?_, fun q hq => ?_, hall.bare (by decide)⟩
  · refine Eq.trans (b := t.out) rfl ?_
    rw [← ht]
    refine (emit_only (by exact huk.same .out (by decide)) _).trans ?_
    rw [hown, hvx, ← hx]
  · refine Eq.trans (b := t.port p) rfl ?_
    rw [← ht]
    refine (State.port_setPort ..).trans ?_
    rw [hown, hvx, ← hx]
  · refine Eq.trans (b := t.port q) rfl ?_
    rw [← ht]
    exact (State.port_setPort_ne _ _ hq).trans ((hothers q hq).trans (hvothers q hq))

/-- Settles O60: levels, scrambling, and the slots that nothing claims. -/
theorem lineCoding : Obligations.LineCoding := by
  refine ⟨fun f l m => ?_, fun _ _ h => slotLevels_inj h, scramble_scramble, fun p f s hp => ?_, by decide, fun x _ hn => scrKey_recurrence x hn,
    fun p a s hc ha hreqs hholder => ⟨fun h => ?_, fun hst ht hpat hloop => ?_, fun h => ?_,
      fun hup hp howe => lineCoding_slot p a s hc ha hreqs hholder hup hp howe⟩⟩
  · rw [slotLevels_getD]
    unfold grayLevel
    rfl
  · unfold heard
    rw [if_pos hp, scramble_scramble]
  · exact exec_idleLink hc ha hreqs hholder (idleSlot_silent (by exact h))
  · have hx := (idleSlot_test (by exact hst) (by exact ht)).trans (testSlot_sends (p := p) (s := s.bare) hpat hloop)
    refine ⟨_, testBits s, exec_idleLink hc ha hreqs hholder hx, rfl, fun l x h => testBits_lane h, rfl, ?_⟩
    have hk := testSlot_keeps p s.bare
    rw [testSlot_sends (by exact hpat) (by exact hloop)] at hk
    exact hk.bare (by decide)
  · exact exec_idleLink hc ha hreqs hholder (idleSlot_ident (by exact h))

end Sys2Proof.Machine

namespace Sys2Proof.Machine

set_option Elab.async false

-- hand-in and completion (R303 to R306)

theorem firnFind_sat {s : State} {p : FirnRec → Bool} {k : Nat} {r : FirnRec} (h : firnFind s p = some (k, r)) : p r = true := by
  unfold firnFind at h
  obtain ⟨⟨i, o⟩, -, ho⟩ := List.exists_of_findSome?_eq_some h
  cases o with
  | none => cases ho
  | some x =>
    dsimp only at ho
    split_ifs at ho with hp
    cases ho
    exact hp

theorem enterOrReplace_last {m : Msg} (l : List Msg) (h : m.cls ≠ .s) : enterOrReplace m l = (l ++ [m], false) := by
  have hnone : l.any (replaces m) = false := by
    rw [List.any_eq_false]
    intro x _
    unfold replaces
    simp [h]
  unfold enterOrReplace
  rw [hnone]
  rfl

theorem handIn_dup {r : Nat} {x : XMsg} {l : List XMsg} {s : State} (hx : s.crossing r = x :: l) (hon : s.on (16 + r) = true)
    (hd : x.dup = true) : handIn r s = (s.setCrossing r l).inc Reg.REC_CNT_DUP := by
  unfold handIn
  rw [hx]
  dsimp only
  rw [hon, hd]
  rfl

/-- An event that the die does not hold yet enters its lane, and stays there when no redirection names its stream (R303, R310). -/
theorem handIn_new {r : Nat} {x : XMsg} {l : List XMsg} {s : State} (hx : s.crossing r = x :: l) (hon : s.on (16 + r) = true)
    (hd : x.dup = false) (hred : ∀ d ∈ s.rq.redirect, ¬ (d.u = x.u ∧ d.origin = x.msg.origin ∧ d.source = x.msg.source))
    (hs : x.restored = true ∨ x.msg.cls ≠ .s) :
    handIn r s = (s.setCrossing r l).setLane x.u (if x.restored = true then enterRestored x.msg (s.lane x.u) else s.lane x.u ++ [x.msg]) := by
  have hback (u : State) (hu : u.rq.redirect = s.rq.redirect) :
      (x.msg.isEvent && u.rq.redirect.any fun d => d.u == x.u && d.origin == x.msg.origin && d.source == x.msg.source) = false := by
    rw [hu, Bool.and_eq_false_iff]
    refine .inr (List.any_eq_false.2 fun d hdm => ?_)
    rw [Bool.and_assoc, Bool.and_eq_true, Bool.and_eq_true, beq_iff_eq, beq_iff_eq, beq_iff_eq]
    exact hred d hdm
  unfold handIn
  rw [hx]
  dsimp only
  rw [hon, hd]
  simp only [Bool.not_true, Bool.false_eq_true, ↓reduceIte]
  cases hr : x.restored with
  | true =>
    rw [if_pos rfl]
    exact if_neg (Bool.eq_false_iff.1 (hback _ rfl))
  | false =>
    have hcls := hs.resolve_left (by rw [hr]; decide)
    have hlane : (s.setCrossing r l).lane x.u = s.lane x.u := rfl
    rw [enterOrReplace_last _ hcls, hlane]
    simp only [Bool.false_eq_true, ↓reduceIte]
    exact if_neg (Bool.eq_false_iff.1 (hback _ rfl))

theorem handIn_run {r : Fin 4} {s t : State} (hc : clocked s = true) (h : handIn r s.bare = t) :
    exec (.handIn r) s = .next { t with pending := s.pending } := runClk_eq hc h

/-- A completion at another die than the origin marks the record done and sends DONE (R305). -/
theorem replicaComplete_reports {m : Msg} {l : List Msg} {k : Nat} {c : FirnRec} {s : State} (hc : clocked s = true)
    (hd : s.firn.dones = m :: l) (hcust : custodyAt s (destLane m.dest) m = some (k, c)) (ho : c.msg.origin ≠ s.die) :
    ∃ t, exec .replicaComplete s = .next t ∧ t.firn.dones = l ∧
      t.recOf k = some { c with msg := { c.msg with repres := c.msg.repres || m.repres }, done := true } ∧
      (∀ j, j ≠ k → t.recOf j = s.recOf j) ∧
      enRoute t (fenceTok s 4 c.msg.origin c.msg.source c.msg.seq (dieAddr (doneTarget s c.msg.origin)) .g c.msg.dest 0) ∧
      Keeps [.out, .regs, .src, .firn, .xb, .pwr, .trc] s t := by
  refine next_clk hc fun t hx hrun => ?_
  obtain ⟨u, hu⟩ : ∃ u : State, { s.bare with firn := { s.firn with dones := l } } = u := ⟨_, rfl⟩
  have hd' : s.bare.firn.dones = m :: l := hd
  have hcust' : custodyAt u (destLane m.dest) m = some (k, c) := hu ▸ hcust
  obtain ⟨c', hc'⟩ : ∃ c' : FirnRec, { c with msg := { c.msg with repres := c.msg.repres || m.repres }, done := true } = c' := ⟨_, rfl⟩
  have ho' : (c.msg.origin == u.die) = false := beq_eq_false_iff_ne.2 (hu ▸ ho)
  have huk : Keeps [.firn] s.bare u := hu ▸ Keeps.refl.firn (by decide)
  replace hx : sendFence 4 c'.msg (doneTarget s c.msg.origin) c.msg.dest 0 (u.setRec k (some c')) = t := by
    simp only [hd'] at hx
    rw [show ({ s.bare with firn := { s.bare.firn with dones := l } } : State) = u from hu, hcust'] at hx
    dsimp only at hx
    unfold completeReplica at hx
    dsimp only at hx
    rw [ho', if_neg (by decide)] at hx
    rw [← hc', ← hx, ← hu]
    rfl
  have hsend := sendFence_keeps 4 c'.msg (doneTarget s c.msg.origin) c.msg.dest 0 (u.setRec k (some c'))
  have htok := sendFence_enRoute (s := s) (u := u.setRec k (some c')) (huk.same .pins (by decide)) 4 c'.msg (doneTarget s c.msg.origin) c.msg.dest 0
  rw [hx] at hsend htok
  have hall : Keeps [.firn, .regs, .src, .xb, .pwr, .trc] s.bare t := (huk.trans (State.setRec_keeps ..)).andThen hsend
  refine ⟨(congrArg FirnS.dones (hsend.same .firn (by decide))).trans (hu ▸ rfl),
    (hsend.recOf_eq k).trans ((State.recOf_setRec ..).trans (hc' ▸ rfl)),
    fun j hj => (hsend.recOf_eq j).trans ((State.recOf_setRec_ne _ _ hj).trans (hu ▸ rfl)), ?_, hall.bare (by decide)⟩
  rw [← hc'] at htok
  exact htok

/-- The record of an event that waits for its last replica is freed when that completes at the origin (R305). -/
theorem applyDone_last {m : Msg} {j : Nat} {e : FirnRec} {s : State} (ho : m.origin = s.die) (hoffers : s.acc.offers = [])
    (hf : firnFind s (fun r => r.kind == .event && r.msg.sameId m) = some (j, e)) (hneed : e.need = [m.dest]) (hcame : m.dest ∉ e.came)
    (hpart : e.partner = none) (hdon : e.donors = []) : applyDone m m.dest s.die s = s.setRec j none := by
  have horigin : e.msg.origin = s.die := by
    have h := firnFind_sat hf
    unfold Msg.sameId at h
    simp only [Bool.and_eq_true, beq_iff_eq] at h
    exact h.2.1.1.trans ho
  have hdone : e.doneFor m.dest (s.die == s.die && e.msg.origin == s.die) s.die = { e with need := [], came := e.came ++ [m.dest] } := by
    unfold FirnRec.doneFor
    simp only [horigin, beq_self_eq_true, Bool.and_self, ↓reduceIte, hneed, List.contains_iff_mem, hcame, List.mem_singleton, List.erase_cons_head]
  unfold applyDone
  rw [hoffers, List.any_nil, if_neg (by decide), hf]
  dsimp only
  rw [hdone, hneed]
  unfold releaseEvent freeEvent
  rw [hpart, hdon]
  rfl

theorem replicaComplete_releases {m : Msg} {l : List Msg} {k j : Nat} {c e : FirnRec} {s : State} (hc : clocked s = true)
    (hd : s.firn.dones = m :: l) (hcust : custodyAt s (destLane m.dest) m = some (k, c)) (ho : c.msg.origin = s.die)
    (hoffers : s.acc.offers = []) (hf : firnFind s (fun r => r.kind == .event && r.msg.sameId c.msg) = some (j, e)) (hjk : j ≠ k)
    (hneed : e.need = [c.msg.dest]) (hcame : c.msg.dest ∉ e.came) (hpart : e.partner = none) (hdon : e.donors = []) :
    ∃ t, exec .replicaComplete s = .next t ∧ t.firn.dones = l ∧ t.recOf j = none ∧
      t.recOf k = (if c.msg.repres || m.repres then
        some { c with msg := { c.msg with repres := true }, done := true, settle := some s.time.now } else none) ∧
      (∀ i, i ≠ j → i ≠ k → t.recOf i = s.recOf i) ∧ Keeps [.out, .firn] s t := by
  refine next_clk hc fun t hx hrun => ?_
  obtain ⟨u, hu⟩ : ∃ u : State, { s.bare with firn := { s.firn with dones := l } } = u := ⟨_, rfl⟩
  have hd' : s.bare.firn.dones = m :: l := hd
  have hcust' : custodyAt u (destLane m.dest) m = some (k, c) := hu ▸ hcust
  have huk : Keeps [.firn] s.bare u := hu ▸ Keeps.refl.firn (by decide)
  obtain ⟨m', hm'⟩ : ∃ m' : Msg, { c.msg with repres := c.msg.repres || m.repres } = m' := ⟨_, rfl⟩
  have hdie : u.die = s.die := congrArg (fun x : Pins => x.idPkg ++ x.idDie) (huk.same .pins (by decide))
  have ho' : (m'.origin == u.die) = true := beq_iff_eq.2 (hm' ▸ hdie ▸ ho)
  have hoffers' : u.acc.offers = [] := hu ▸ hoffers
  have hlast : applyDone m' m'.dest u.die u = u.setRec j none :=
    applyDone_last (e := e) (eq_of_beq ho') hoffers' (hu ▸ hm' ▸ hf) (hm' ▸ hneed) (hm' ▸ hcame) hpart hdon
  simp only [hd'] at hx
  rw [show ({ s.bare with firn := { s.bare.firn with dones := l } } : State) = u from hu, hcust'] at hx
  dsimp only at hx
  rw [hm'] at hx
  unfold completeReplica at hx
  dsimp only at hx
  rw [ho', if_pos rfl, hoffers', List.any_nil, if_neg (by decide), hlast] at hx
  have hfree : t = (u.setRec j none).setRec k (if (c.msg.repres || m.repres) = true then
      some { c with msg := { c.msg with repres := true }, done := true, settle := some s.time.now } else none) := by
    rw [← hx, ← hm', ← hu]
    unfold freeCustody
    dsimp only
    cases hrep : (c.msg.repres || m.repres) <;> rfl
  have hall : Keeps [.firn] s.bare t := huk.trans (hfree ▸ (State.setRec_keeps ..).trans (State.setRec_keeps ..))
  refine ⟨?_, ?_, ?_, fun i hij hik => ?_, hall.bare (by decide)⟩
  · refine (congrArg (fun x => x.firn.dones) hfree).trans ?_
    rw [← hu]
    rfl
  · refine (congrArg (fun x => x.recOf j) hfree).trans ?_
    rw [State.recOf_setRec_ne _ _ hjk, State.recOf_setRec]
  · refine (congrArg (fun x => x.recOf k) hfree).trans ?_
    rw [State.recOf_setRec]
  · refine (congrArg (fun x => x.recOf i) hfree).trans ?_
    rw [State.recOf_setRec_ne _ _ hik, State.recOf_setRec_ne _ _ hij, ← hu]
    rfl

-- tokens between dies (R305, R311)

/-- The state once the token that has reached output 21 is taken. -/
def tokenTaken (s : State) (l : List Msg) : State := { s.bare with xb := { s.xb with recIn := l } }

theorem tokenTaken_keeps (s : State) (l : List Msg) : Keeps [.xb] s.bare (tokenTaken s l) := Keeps.refl.xb (by decide)

theorem fence_eq {s : State} {kind : Nat} {m : Msg} {l : List Msg} (h : fenceIn s kind m l) (f : State → State) :
    onFence kind m f s.bare = f (tokenTaken s l) := onFence_eq (fenceIn_bare h) f

/-- What DONE from another die makes of an event record. -/
theorem doneFor_other {e : FirnRec} {x : BitVec 12} (die : BitVec 5) (hx : x ∈ e.need) :
    e.doneFor x false die = if x ∈ e.came then { e with donors := e.donors ++ [die] }
      else { e with need := e.need.erase x, came := e.came ++ [x], donors := e.donors ++ [die] } := by
  unfold FirnRec.doneFor
  simp only [List.contains_iff_mem, hx, ↓reduceIte, beq_self_eq_true, Bool.false_eq_true]

/-- DONE from another die for a replica that is needed, at the event's record (R305). -/
theorem applyDone_other {m : Msg} {x : BitVec 12} {die : BitVec 5} {k : Nat} {e : FirnRec} {s : State} (hoffers : s.acc.offers = [])
    (hf : firnFind s (fun r => r.kind == .event && r.msg.sameId m) = some (k, e)) (hx : x ∈ e.need) (hd : die ≠ s.die) :
    applyDone m x die s = if (e.doneFor x false die).need.isEmpty = true then releaseEvent k (e.doneFor x false die) s
      else s.setRec k (some (e.doneFor x false die)) := by
  have hne : e.need.isEmpty = false := by
    rw [List.isEmpty_eq_false_iff]
    exact List.ne_nil_of_mem hx
  unfold applyDone
  rw [hoffers, List.any_nil, if_neg (by decide), hf]
  dsimp only
  rw [beq_eq_false_iff_ne.2 hd, Bool.false_and, hne, if_neg (by decide)]

theorem fenceDone_run {m : Msg} {l : List Msg} {s t : State} (hc : clocked s = true) (h : fenceIn s 4 m l)
    (hx : applyDone m (fenceReplica m) (senderOf m) (tokenTaken s l) = t) :
    exec (.fenceDone m) s = .next { t with pending := s.pending } := runClk_eq hc ((fence_eq h _).trans hx)

theorem fenceDone_counts {m : Msg} {l : List Msg} {k : Nat} {e : FirnRec} {s : State} (hc : clocked s = true) (h : fenceIn s 4 m l)
    (hoffers : s.acc.offers = []) (hf : firnFind s (fun r => r.kind == .event && r.msg.sameId m) = some (k, e))
    (hneed : fenceReplica m ∈ e.need) (hd : senderOf m ≠ s.die) (hcame : fenceReplica m ∉ e.came) :
    ∃ t, exec (.fenceDone m) s = .next t ∧ t.xb.recIn = l ∧ (∀ j, j ≠ k → t.recOf j = s.recOf j) ∧
      (e.need.erase (fenceReplica m) ≠ [] → t.recOf k = some { e with
        need := e.need.erase (fenceReplica m), came := e.came ++ [fenceReplica m], donors := e.donors ++ [senderOf m] }) ∧
      (e.need.erase (fenceReplica m) = [] → e.partner = none → t.recOf k = none ∧
        ∀ d ∈ e.donors ++ [senderOf m], enRoute t (fenceTok s 5 e.msg.origin e.msg.source e.msg.seq (dieAddr d) .g 0 0)) ∧
      Keeps [.out, .regs, .src, .acc, .firn, .xb, .pwr, .trc] s t := by
  obtain ⟨t, hx⟩ : ∃ t, applyDone m (fenceReplica m) (senderOf m) (tokenTaken s l) = t := ⟨_, rfl⟩
  have hrun := fenceDone_run hc h hx
  obtain ⟨e', he'⟩ : ∃ e' : FirnRec, { e with
    need := e.need.erase (fenceReplica m), came := e.came ++ [fenceReplica m], donors := e.donors ++ [senderOf m] } = e' := ⟨_, rfl⟩
  have hdone : e.doneFor (fenceReplica m) false (senderOf m) = e' := (doneFor_other _ hneed).trans ((if_neg hcame).trans he')
  have hneed' : e'.need = e.need.erase (fenceReplica m) := he' ▸ rfl
  rw [applyDone_other (s := tokenTaken s l) hoffers hf hneed hd, hdone] at hx
  rw [he']
  have hk := (execFenceDone_keeps m s).next _ hrun
  by_cases hlast : e.need.erase (fenceReplica m) = []
  · rw [if_pos (by rw [hneed', hlast]; rfl)] at hx
    obtain ⟨hothers, hin⟩ := releaseEvent_recs k e' (tokenTaken s l)
    rw [hx] at hothers hin
    refine ⟨_, hrun, hin, hothers, fun h => absurd hlast h, fun _ hp => ?_, hk⟩
    have hfree : freeEvent k e' (tokenTaken s l) = t := by
      rw [← hx]
      unfold releaseEvent
      rw [show e'.partner = none from he' ▸ hp]
    obtain ⟨hrecs, -, -, htok⟩ := freeEvent_does k e' (tokenTaken s l)
    rw [hfree] at hrecs htok
    refine ⟨(hrecs k).trans (if_pos rfl), fun d hd => ?_⟩
    have ht := htok d (he' ▸ hd)
    rw [← he'] at ht
    exact ht
  · rw [if_neg (by rw [hneed', List.isEmpty_iff]; exact hlast)] at hx
    rw [← hx] at hrun hk
    exact ⟨_, hrun, rfl, fun j hj => State.recOf_setRec_ne _ _ hj, fun _ => State.recOf_setRec .., fun h => absurd h hlast, hk⟩

theorem fenceDone_again {m : Msg} {l : List Msg} {k : Nat} {e : FirnRec} {s : State} (hc : clocked s = true) (h : fenceIn s 4 m l)
    (hoffers : s.acc.offers = []) (hf : firnFind s (fun r => r.kind == .event && r.msg.sameId m) = some (k, e))
    (hneed : fenceReplica m ∈ e.need) (hd : senderOf m ≠ s.die) (hcame : fenceReplica m ∈ e.came) :
    ∃ t, exec (.fenceDone m) s = .next t ∧ t.xb = { s.xb with recIn := l } ∧
      t.recOf k = some { e with donors := e.donors ++ [senderOf m] } ∧ (∀ j, j ≠ k → t.recOf j = s.recOf j) ∧
      Keeps [.out, .firn, .xb] s t := by
  have hdone := (doneFor_other (senderOf m) hneed).trans (if_pos hcame)
  have hx : applyDone m (fenceReplica m) (senderOf m) (tokenTaken s l) =
      (tokenTaken s l).setRec k (some { e with donors := e.donors ++ [senderOf m] }) := by
    rw [applyDone_other (s := tokenTaken s l) hoffers hf hneed hd, hdone]
    refine if_neg ?_
    rw [List.isEmpty_iff]
    exact List.ne_nil_of_mem hneed
  have hall : Keeps [.xb, .firn] s.bare ((tokenTaken s l).setRec k (some { e with donors := e.donors ++ [senderOf m] })) :=
    (tokenTaken_keeps s l).andThen (State.setRec_keeps ..)
  exact ⟨_, fenceDone_run hc h hx, rfl, State.recOf_setRec .., fun j hj => State.recOf_setRec_ne _ _ hj, hall.bare (by decide)⟩

theorem fenceConfirm_frees {m : Msg} {l : List Msg} {k : Nat} {c : FirnRec} {s : State} (hc : clocked s = true) (h : fenceIn s 5 m l)
    (hall : firnAll s (fun r => r.kind == .custody && r.done && r.msg.sameId m) = [(k, c)]) (hs : c.settle = none) :
    ∃ t, exec (.fenceConfirm m) s = .next t ∧ t.xb = { s.xb with recIn := l } ∧
      t.recOf k = (if c.msg.repres then some { c with done := true, settle := some s.time.now } else none) ∧
      (∀ j, j ≠ k → t.recOf j = s.recOf j) ∧ Keeps [.out, .firn, .xb] s t := by
  have hall' : firnAll (tokenTaken s l) (fun r => r.kind == .custody && r.done && r.msg.sameId m) = [(k, c)] := hall
  have hx : (tokenTaken s l).each (firnAll (tokenTaken s l) fun r => r.kind == .custody && r.done && r.msg.sameId m) (fun e s =>
      if e.2.settle.isSome then s else freeCustody e.1 e.2 s) =
      (tokenTaken s l).setRec k (if c.msg.repres then some { c with done := true, settle := some s.time.now } else none) := by
    rw [hall']
    unfold State.each freeCustody
    rw [List.foldl_cons, List.foldl_nil]
    dsimp only
    rw [hs]
    cases c.msg.repres <;> rfl
  have hk (o : Option FirnRec) : Keeps [.xb, .firn] s.bare ((tokenTaken s l).setRec k o) :=
    (tokenTaken_keeps s l).andThen (State.setRec_keeps ..)
  exact ⟨_, runClk_eq hc ((fence_eq h _).trans hx), rfl, State.recOf_setRec .., fun j hj => State.recOf_setRec_ne _ _ hj, (hk _).bare (by decide)⟩

theorem custodySettleExpire_frees {idx : BitVec 14} {c : FirnRec} {b : Tick} {s : State} (hc : clocked s = true)
    (hr : s.recOf idx.toNat = some c) (hs : c.settle = some b) (hk : c.kind = .custody) (hdue : b.toNat + psettle s ≤ s.t) :
    exec (.custodySettleExpire idx) s = .next ({ s with out := [] }.setRec idx.toNat none) := by
  refine runClk_eq (t := s.bare.setRec idx.toNat none) hc ?_
  have hr' : s.bare.recOf idx.toNat = some c := hr
  have hdue' : b.toNat + psettle s.bare ≤ s.bare.t := hdue
  simp only [hr', hs, hk, decide_eq_true hdue', beq_self_eq_true, Bool.and_self, ↓reduceIte]

/-- RESTORE sends a lost event again to every destination that has not completed (R311). -/
theorem fenceRestore_resends {m : Msg} {l : List Msg} {k : Nat} {e : FirnRec} {s : State} (hc : clocked s = true) (h : fenceIn s 6 m l)
    (hf : firnFind s (fun r => r.kind == .event && r.msg.sameId m) = some (k, e)) (hp : e.poisoned = false) (hcls : e.msg.cls ≠ .s) :
    ∃ t, exec (.fenceRestore m) s = .next t ∧ t.xb.recIn = l ∧
      (∀ x ∈ e.need, enRoute t { e.msg.flag with
        dest := x, epoch := if e.acting then s.epoch.num.truncate 8 else e.msg.epoch }) ∧
      Keeps [.out, .regs, .src, .xb, .pwr, .trc] s t := by
  have hf' : firnFind (tokenTaken s l) (fun r => r.kind == .event && r.msg.sameId m) = some (k, e) := hf
  obtain ⟨⟨-, hin⟩, -, hsent⟩ := each_enRoute (fun u => u.epoch = s.epoch ∧ u.xb.recIn = l) (fun x u => resend e x u)
    (fun x => { e.msg.flag with dest := x, epoch := if e.acting then s.epoch.num.truncate 8 else e.msg.epoch })
    (fun x u hu => ⟨⟨((resend_keeps ..).same .epoch (by decide)).trans hu.1, (resend_recIn ..).trans hu.2⟩, resend_carries e x u,
      resend_enRoute hu.1 e x hp hcls⟩) (fun _ => hcls) e.need (tokenTaken s l) ⟨rfl, rfl⟩
  obtain ⟨t, ht⟩ : ∃ t, (tokenTaken s l).each e.need (fun x u => resend e x u) = t := ⟨_, rfl⟩
  have hrun : exec (.fenceRestore m) s = .next { t with pending := s.pending } := by
    refine runClk_eq hc ((fence_eq h _).trans ?_)
    rw [hf']
    exact ht
  rw [ht] at hin hsent
  exact ⟨_, hrun, hin, hsent, (execFenceRestore_keeps m s).next _ hrun⟩

/-- Settles O29: hand-in, completions and the tokens of exactly-once delivery. -/
theorem exactlyOnce : Obligations.ExactlyOnce := by
  refine ⟨fun r x l s hc hx hon => ⟨fun hd => handIn_run hc (handIn_dup hx hon hd), fun hd hred => ⟨fun hr => ?_, fun hr hs => ?_⟩⟩,
    fun _ _ _ _ _ hc hd hcust ho => replicaComplete_reports hc hd hcust ho,
    fun _ _ _ _ _ _ _ hc hd hcust ho hoffers hf hjk _ hneed hcame hpart hdon =>
      replicaComplete_releases hc hd hcust ho hoffers hf hjk hneed hcame hpart hdon,
    fun _ _ _ _ _ hc h hoffers hf _ hneed hd => ⟨fun hcame => fenceDone_counts hc h hoffers hf hneed hd hcame,
      fun hcame => fenceDone_again hc h hoffers hf hneed hd hcame⟩,
    fun _ _ _ _ _ hc h hall hs => fenceConfirm_frees hc h hall hs,
    fun _ _ _ _ hc hr hs hk hdue => custodySettleExpire_frees hc hr hs hk hdue,
    fun _ _ _ _ _ hc h hf hp hcls => fenceRestore_resends hc h hf hp hcls⟩
  · have h := handIn_new (s := s.bare) hx hon hd hred (.inl hr)
    rw [if_pos hr] at h
    exact handIn_run hc h
  · have h := handIn_new (s := s.bare) hx hon hd hred (.inr hs)
    rw [if_neg (by rw [hr]; decide)] at h
    exact handIn_run hc h

end Sys2Proof.Machine

namespace Sys2Proof.Machine

set_option Elab.async false

-- probes (R312)

theorem ageProbe_probes {idx : BitVec 14} {e : FirnRec} {s : State} (hc : clocked s = true) (hr : s.recOf idx.toNat = some e)
    (hen : s.flag Reg.REC_CTRL_AGEN = true) (hk : e.kind = .event) (ha : e.accepted = true) (hneed : e.need ≠ [])
    (hdue : e.since.toNat + ageTicks s < s.t) :
    ∃ t, exec (.ageProbe idx) s = .next t ∧ t.recOf idx.toNat = some { e with since := s.time.now } ∧
      (∀ j, j ≠ idx.toNat → t.recOf j = s.recOf j) ∧
      (∀ x ∈ e.need, enRoute t (fenceTok s 7 e.msg.origin e.msg.source e.msg.seq (dieAddr (targetDie x)) .g x 0)) ∧
      Keeps [.out, .regs, .src, .firn, .xb, .pwr, .trc] s t := by
  refine next_clk hc fun t hx hrun => ?_
  have hr' : s.bare.recOf idx.toNat = some e := hr
  have hen' : s.bare.flag Reg.REC_CTRL_AGEN = true := hen
  have hdue' : e.since.toNat + ageTicks s.bare < s.bare.t := hdue
  have hneed' : e.need.isEmpty = false := by
    rw [List.isEmpty_eq_false_iff]
    exact hneed
  simp only [hr', hen', hk, ha, hneed', decide_eq_true hdue', beq_self_eq_true, Bool.not_false, Bool.and_self, ↓reduceIte] at hx
  obtain ⟨hrecs, -, -, htok⟩ := probeRecord_does idx.toNat e s.bare hr
  rw [hx] at hrecs htok
  exact ⟨(hrecs _).trans (if_pos rfl), fun j hj => (hrecs j).trans (if_neg hj), htok, (execAgeProbe_keeps idx s).next _ hrun⟩

theorem fenceProbe_answers {m : Msg} {l : List Msg} {s : State} (hc : clocked s = true) (h : fenceIn s 7 m l) :
    ∃ t, exec (.fenceProbe m) s = .next t ∧ t.xb.recIn = l ∧
      enRoute t (fenceTok s 8 m.origin m.source m.seq (dieAddr (senderOf m)) .g (fenceReplica m) (16 * probeState s m (fenceReplica m))) ∧
      Keeps [.out, .regs, .src, .xb, .pwr, .trc] s t := by
  obtain ⟨t, ht⟩ : ∃ t, sendFence 8 m (senderOf m) (fenceReplica m) (16 * probeState s m (fenceReplica m)) (tokenTaken s l) = t := ⟨_, rfl⟩
  have hrun : exec (.fenceProbe m) s = .next { t with pending := s.pending } := runClk_eq hc ((fence_eq h _).trans ht)
  have htok := sendFence_enRoute (s := s) (u := tokenTaken s l) rfl 8 m (senderOf m) (fenceReplica m) (16 * probeState s m (fenceReplica m))
  have hin : t.xb.recIn = l := ht ▸ sendRec_recIn ..
  rw [ht] at htok
  exact ⟨_, hrun, hin, htok, (execFenceProbe_keeps m s).next _ hrun⟩

/-- An answer that sets the record of the event alone. -/
theorem fenceAnswer_sets {m : Msg} {l : List Msg} {k : Nat} {e' : FirnRec} {s : State}
    (hrun : exec (.fenceAnswer m) s = .next { (tokenTaken s l).setRec k (some e') with pending := s.pending }) :
    ∃ t, exec (.fenceAnswer m) s = .next t ∧ t.recOf k = some e' ∧
      (∀ j, j ≠ k → t.recOf j = s.recOf j) ∧ t.xb = { s.xb with recIn := l } ∧ Keeps [.out, .firn, .xb] s t := by
  have hall : Keeps [.xb, .firn] s.bare ((tokenTaken s l).setRec k (some e')) := (tokenTaken_keeps s l).andThen (State.setRec_keeps ..)
  exact ⟨_, hrun, State.recOf_setRec .., fun j hj => State.recOf_setRec_ne _ _ hj, rfl, hall.bare (by decide)⟩

section
variable {m : Msg} {l : List Msg} {k : Nat} {e : FirnRec} {s : State} (hc : clocked s = true) (h : fenceIn s 8 m l)
  (hf : firnFind s (fun r => r.kind == .event && r.msg.sameId m && r.need.contains (fenceReplica m)) = some (k, e))
include hc h hf

/-- What ANSWER does at the record that it concerns. -/
theorem fenceAnswer_run {t : State}
    (hx : (if (m.payload.extractLsb' 4 2 != 0) = true then
        (tokenTaken s l).setRec k (some { e with absent := e.absent.filter (· != fenceReplica m) })
      else if e.absent.contains (fenceReplica m) = true then
        if e.msg.cls == .m then
          resendMeter e ((tokenTaken s l).setRec k (some { e with absent := e.absent.filter (· != fenceReplica m), again := true }))
        else resend e (fenceReplica m) ((tokenTaken s l).setRec k (some { e with absent := e.absent.filter (· != fenceReplica m), again := true }))
      else (tokenTaken s l).setRec k (some { e with absent := e.absent ++ [fenceReplica m] })) = t) :
    exec (.fenceAnswer m) s = .next { t with pending := s.pending } := by
  refine runClk_eq hc ((fence_eq h _).trans ?_)
  have hf' : firnFind (tokenTaken s l) (fun r => r.kind == .event && r.msg.sameId m && r.need.contains (fenceReplica m)) = some (k, e) := hf
  dsimp only
  rw [hf']
  exact hx

theorem fenceAnswer_present (hp : m.payload.extractLsb' 4 2 ≠ 0) :
    ∃ t, exec (.fenceAnswer m) s = .next t ∧ t.recOf k = some { e with absent := e.absent.filter (· != fenceReplica m) } ∧
      (∀ j, j ≠ k → t.recOf j = s.recOf j) ∧ t.xb = { s.xb with recIn := l } ∧ Keeps [.out, .firn, .xb] s t :=
  fenceAnswer_sets (fenceAnswer_run hc h hf (if_pos (bne_iff_ne.2 hp)))

theorem fenceAnswer_absent (hp : m.payload.extractLsb' 4 2 = 0) (ha : fenceReplica m ∉ e.absent) :
    ∃ t, exec (.fenceAnswer m) s = .next t ∧ t.recOf k = some { e with absent := e.absent ++ [fenceReplica m] } ∧
      (∀ j, j ≠ k → t.recOf j = s.recOf j) ∧ t.xb = { s.xb with recIn := l } ∧ Keeps [.out, .firn, .xb] s t :=
  fenceAnswer_sets (fenceAnswer_run hc h hf
    ((if_neg (by rw [hp]; decide)).trans (if_neg (by rw [List.contains_iff_mem]; exact ha))))

/-- A second absence sends the replica again (R312). -/
theorem fenceAnswer_twice (hp : m.payload.extractLsb' 4 2 = 0) (ha : fenceReplica m ∈ e.absent) (hpo : e.poisoned = false) (hs : e.msg.cls ≠ .s) :
    ∃ t, exec (.fenceAnswer m) s = .next t ∧
      t.recOf k = some { e with absent := e.absent.filter (· != fenceReplica m), again := true } ∧
      (∀ j, j ≠ k → t.recOf j = s.recOf j) ∧ t.xb.recIn = l ∧
      (e.msg.cls ≠ .m → enRoute t { e.msg.flag with
        dest := fenceReplica m, epoch := if e.acting then s.epoch.num.truncate 8 else e.msg.epoch } ∧
        Keeps [.out, .regs, .src, .firn, .xb, .pwr, .trc] s t) ∧
      (e.msg.cls = .m → t.edw.inbox = s.edw.inbox ++ [e.msg.flag] ∧ Keeps [.out, .regs, .firn, .xb, .edw] s t) := by
  obtain ⟨e', he'⟩ : ∃ e' : FirnRec, { e with absent := e.absent.filter (· != fenceReplica m), again := true } = e' := ⟨_, rfl⟩
  obtain ⟨u, hu⟩ : ∃ u, (tokenTaken s l).setRec k (some e') = u := ⟨_, rfl⟩
  have huk : Keeps [.xb, .firn] s.bare u := hu ▸ (tokenTaken_keeps s l).andThen (State.setRec_keeps ..)
  have hin : u.xb.recIn = l := hu ▸ rfl
  have hown : u.recOf k = some e' := hu ▸ State.recOf_setRec ..
  have hothers (j : Nat) (hj : j ≠ k) : u.recOf j = s.recOf j := hu ▸ State.recOf_setRec_ne _ _ hj
  obtain ⟨t, ht⟩ : ∃ t, (if e.msg.cls == .m then resendMeter e u else resend e (fenceReplica m) u) = t := ⟨_, rfl⟩
  have hrun : exec (.fenceAnswer m) s = .next { t with pending := s.pending } := fenceAnswer_run hc h hf <|
    (if_neg (by rw [hp]; decide)).trans ((if_pos (List.contains_iff_mem.2 ha)).trans (by rw [he', hu]; exact ht))
  rw [he']
  by_cases hm : e.msg.cls = .m
  · rw [if_pos (beq_iff_eq.2 hm)] at ht
    obtain ⟨v, hv⟩ : ∃ v : State, { u with edw := { u.edw with inbox := u.edw.inbox ++ [e.msg.flag] } } = v := ⟨_, rfl⟩
    have hvk : Keeps [.edw] u v := hv ▸ Keeps.refl.edw (by decide)
    have hvt : v.inc Reg.REC_STAT_RESENT = t := by
      rw [← ht, ← hv]
      unfold resendMeter
      rw [hpo]
      rfl
    have htk : Keeps [.regs] v t := hvt ▸ State.inc_keeps ..
    have hut : Keeps [.edw, .regs] u t := hvk.andThen htk
    have hall : Keeps [.xb, .firn, .edw, .regs] s.bare t := huk.andThen hut
    refine ⟨_, hrun, (hut.recOf_eq k).trans hown, fun j hj => (hut.recOf_eq j).trans (hothers j hj),
      (congrArg XbS.recIn (hut.same .xb (by decide))).trans hin, fun hne => absurd hm hne, fun _ => ⟨?_, hall.bare (by decide)⟩⟩
    refine (congrArg EdwS.inbox (htk.same .edw (by decide))).trans ?_
    rw [← hv]
    exact congrArg (· ++ [e.msg.flag]) (congrArg EdwS.inbox (huk.same .edw (by decide)))
  · rw [if_neg (by rw [beq_iff_eq]; exact hm)] at ht
    have hut := resend_keeps e (fenceReplica m) u
    have hsent := resend_enRoute (s := s) (u := u) (huk.same .epoch (by decide)) e (fenceReplica m) hpo hs
    have hin' := resend_recIn e (fenceReplica m) u
    rw [ht] at hut hsent hin'
    have hall : Keeps [.xb, .firn, .regs, .src, .pwr, .trc] s.bare t := huk.andThen hut
    exact ⟨_, hrun, (hut.recOf_eq k).trans hown, fun j hj => (hut.recOf_eq j).trans (hothers j hj), hin'.trans hin,
      fun _ => ⟨hsent, hall.bare (by decide)⟩, fun h => absurd h hm⟩

end

-- lost dies (R315, R317)

theorem doneTarget_of {s t : State} (hp : t.pins = s.pins) (o : BitVec 5) :
    doneTarget t o = if o == s.die then o else (tget none t.rec_.actmap o.toNat).getD o := by
  unfold doneTarget State.die
  rw [hp]

theorem fenceActing_maps {m : Msg} {l : List Msg} {s : State} (hc : clocked s = true) (h : fenceIn s 9 m l) (ho : m.origin ≠ s.die) :
    ∃ t, exec (.fenceActing m) s = .next t ∧ t.xb.recIn = l ∧ doneTarget t m.origin = senderOf m ∧
      (∀ o, o ≠ m.origin → doneTarget t o = doneTarget s o) ∧ Keeps [.out, .regs, .src, .xb, .rec_, .pwr, .trc] s t := by
  obtain ⟨u, hu⟩ : ∃ u : State, { tokenTaken s l with rec_ := { s.rec_ with
    actmap := tset none s.rec_.actmap m.origin.toNat (some (senderOf m)) } } = u := ⟨_, rfl⟩
  obtain ⟨t, ht⟩ : ∃ t, resendDones (some m.origin) u = t := ⟨_, rfl⟩
  have hrun : exec (.fenceActing m) s = .next { t with pending := s.pending } :=
    runClk_eq hc ((fence_eq h _).trans (by rw [← ht, ← hu]; rfl))
  have hk := resendDones_keeps (some m.origin) u
  have hin := resendDones_recIn (some m.origin) u
  rw [ht] at hk hin
  have hmap : t.rec_.actmap = tset none s.rec_.actmap m.origin.toNat (some (senderOf m)) :=
    (congrArg RecS.actmap (hk.same .rec_ (by decide))).trans (hu ▸ rfl)
  have hpins : t.pins = s.pins := (hk.same .pins (by decide)).trans (hu ▸ rfl)
  refine ⟨_, hrun, hin.trans (hu ▸ rfl), ?_, fun o hne => ?_, (execFenceActing_keeps m s).next _ hrun⟩
  · refine (doneTarget_of (t := t) hpins m.origin).trans ?_
    rw [beq_eq_false_iff_ne.2 ho, if_neg (by decide), hmap, tget_tset_same]
    rfl
  · refine (doneTarget_of (t := t) hpins o).trans ?_
    rw [hmap, tget_tset_ne _ _ _ _ (fun he => hne (BitVec.eq_of_toNat_eq he))]
    rfl

/-- The middle part of a LOSS: the takeover of a lost Firn, and the resynchronization of an origin that this die acts for. -/
def lossMid (m : Msg) (s : State) : State :=
  let s := if m.payload.getLsbD 6 && holdsMirrors s m.origin then startTakeover m.origin s else s
  if actsFor s m.origin then startResync m.origin s else s

theorem fenceLoss_run {m : Msg} {l : List Msg} {s t : State} (hc : clocked s = true) (h : fenceIn s 10 m l)
    (hx : lossTail m (lossMid m (lossHead m (tokenTaken s l))) = t) :
    exec (.fenceLoss m) s = .next { t with pending := s.pending } := runClk_eq hc ((fence_eq h _).trans hx)

/-- A resynchronization is noted, and leaves the rest of the recovery state. -/
theorem startResync_rec (o : BitVec 5) (s : State) : (startResync o s).rec_.actmap = s.rec_.actmap ∧
    (startResync o s).rec_.acting = s.rec_.acting ∧ (startResync o s).rec_.actMore = s.rec_.actMore ∧
    (startResync o s).xb.recIn = s.xb.recIn := by
  obtain ⟨v, hv⟩ : ∃ v, s.each (firnAll s fun r => r.kind == .event && if r.acting then r.msg.origin == o else r.partner == some o)
    (fun e s => sendCtl (mirrorOf s e.2.msg o) s) = v := ⟨_, rfl⟩
  obtain ⟨u, hu⟩ : ∃ u, sendCtl (pairAck v 3 0 0 0 o) v = u := ⟨_, rfl⟩
  have hr : u.rec_ = s.rec_ := by
    rw [← hu, (sendCtl_keeps ..).same .rec_ (by decide), ← hv]
    exact State.each_inv State.rec_ _ (fun e s => (sendCtl_keeps ..).same .rec_ (by decide)) s
  have hin : u.xb.recIn = s.xb.recIn := by
    rw [← hu, sendCtl_recIn, ← hv]
    exact each_recIn _ (fun e s => sendCtl_recIn ..) s
  unfold startResync
  dsimp only
  rw [hv, hu]
  exact ⟨congrArg RecS.actmap hr, congrArg RecS.acting hr, congrArg RecS.actMore hr, hin⟩

theorem startTakeover_recIn (o : BitVec 5) (s : State) : (startTakeover o s).xb.recIn = s.xb.recIn := by
  unfold startTakeover
  split_ifs
  · exact (broadcast_recIn ..).trans (congrArg XbS.recIn ((addTakeover_keeps o s).same .xb (by decide)))
  · rfl

/-- A takeover behind another leaves that under way. -/
theorem startTakeover_behind {o : BitVec 5} {x : BitVec 5 × Tick} {s : State} (h : s.rec_.acting = some x) :
    (startTakeover o s).rec_.acting = some x := by
  unfold startTakeover
  split_ifs
  · refine (congrArg RecS.acting ((broadcast_keeps 9 o 0 (addTakeover o s)).same .rec_ (by decide))).trans ?_
    unfold addTakeover
    rw [h]
    exact h
  · exact h

/-- The end of migrations leaves the takeovers that wait. -/
theorem lossTail_actMore (m : Msg) (s : State) : (lossTail m s).rec_.actMore = s.rec_.actMore := by
  have hfill (s : State) : (fillSlots s).rec_.actMore = s.rec_.actMore := by
    unfold fillSlots
    dsimp only
    split <;> rfl
  have hfree (p : MigSlot → Bool) (s : State) : (freeSlots p s).rec_.actMore = s.rec_.actMore :=
    State.each_inv (fun s => s.rec_.actMore) _
      (f := fun j s => fillSlots { s with rec_ := { s.rec_ with mig := tset none s.rec_.mig j none } }) (fun j s => hfill _) s
  have hlose (s : State) : (loseTarget m.origin s).rec_.actMore = s.rec_.actMore := by
    unfold loseTarget
    dsimp only
    exact State.each_inv (fun s => s.rec_.actMore) _
      (f := fun (e : Nat × FirnRec) s => s.setRec e.1 (some { e.2 with again := false })) (fun _ _ => rfl) _
  have hend (s : State) : (endLostMigrations s).rec_.actMore = s.rec_.actMore := by
    unfold endLostMigrations
    split_ifs
    · exact hfree ..
    · rfl
  unfold lossTail
  dsimp only
  rw [hend, hlose]
  refine (State.each_inv (fun s => s.rec_) _ (fun b s => ?_) _ : _).symm ▸ rfl
  rw [(askFills_keeps ..).same .rec_ (by decide), (sendMigrated_keeps ..).same .rec_ (by decide)]

/-- What LOSS leaves of the map, the takeovers, the tokens and the blocked streams, by its middle part. -/
theorem fenceLoss_leaves {m : Msg} {l : List Msg} {s : State} (hc : clocked s = true) (h : fenceIn s 10 m l) :
    ∃ t, exec (.fenceLoss m) s = .next t ∧ t.xb.recIn = l ∧ t.pins = s.pins ∧
      t.rec_.actmap = (lossMid m (lossHead m (tokenTaken s l))).rec_.actmap ∧
      t.rec_.acting = (lossMid m (lossHead m (tokenTaken s l))).rec_.acting ∧
      t.rec_.actMore = (lossMid m (lossHead m (tokenTaken s l))).rec_.actMore ∧
      t.rq.blocked = s.rq.blocked.filter (·.sender != m.origin) ∧
      Keeps [.out, .regs, .src, .acc, .firn, .xb, .rq, .clus, .rec_, .pwr, .trc] s t := by
  obtain ⟨u, hu⟩ : ∃ u, lossHead m (tokenTaken s l) = u := ⟨_, rfl⟩
  obtain ⟨-, -, hin, hrq⟩ := lossHead_does hu
  obtain ⟨v, hv⟩ : ∃ v, lossMid m u = v := ⟨_, rfl⟩
  have hmid : v.xb.recIn = u.xb.recIn ∧ v.rq = u.rq := by
    rw [← hv]
    unfold lossMid
    dsimp only
    split_ifs
    · exact ⟨(startResync_rec ..).2.2.2.trans (startTakeover_recIn ..),
        ((startResync_keeps ..).same .rq (by decide)).trans ((startTakeover_keeps ..).same .rq (by decide))⟩
    · exact ⟨startTakeover_recIn .., (startTakeover_keeps ..).same .rq (by decide)⟩
    · exact ⟨(startResync_rec ..).2.2.2, (startResync_keeps ..).same .rq (by decide)⟩
    · exact ⟨rfl, rfl⟩
  obtain ⟨hmap, hact, hin', hblocked⟩ := lossTail_does m v
  have hmore := lossTail_actMore m v
  obtain ⟨t, ht⟩ : ∃ t, lossTail m v = t := ⟨_, rfl⟩
  rw [ht] at hmap hact hin' hblocked hmore
  have hrun := fenceLoss_run hc h (t := t) (by rw [hu, hv, ht])
  have hk := (execFenceLoss_keeps m s).next _ hrun
  rw [hu, hv]
  exact ⟨_, hrun, hin'.trans (hmid.1.trans hin), hk.same .pins (by decide), hmap, hact, hmore,
    hblocked.trans (by rw [hmid.2, hrq]; rfl), hk⟩

/-- LOSS of a die whose Firn stands ends what another acted for it (R315). -/
theorem fenceLoss_clears {m : Msg} {l : List Msg} {s : State} (hc : clocked s = true) (h : fenceIn s 10 m l) (hbit : m.payload.getLsbD 6 = false) :
    ∃ t, exec (.fenceLoss m) s = .next t ∧ t.xb.recIn = l ∧ doneTarget t m.origin = m.origin ∧
      (∀ b, b ∈ t.rq.blocked ↔ b ∈ s.rq.blocked ∧ b.sender ≠ m.origin) ∧
      Keeps [.out, .regs, .src, .acc, .firn, .xb, .rq, .clus, .rec_, .pwr, .trc] s t := by
  obtain ⟨t, hrun, hin, hpins, hmap, -, -, hblocked, hk⟩ := fenceLoss_leaves hc h
  obtain ⟨u, hu⟩ : ∃ u, lossHead m (tokenTaken s l) = u := ⟨_, rfl⟩
  obtain ⟨hhead, -, -, -⟩ := lossHead_does hu
  have hmid : (lossMid m u).rec_.actmap = u.rec_.actmap := by
    unfold lossMid
    simp only [hbit, Bool.false_and, Bool.false_eq_true, ↓reduceIte]
    split_ifs
    · exact (startResync_rec ..).1
    · rfl
  rw [hu, hmid, hhead] at hmap
  refine ⟨t, hrun, hin, ?_, fun b => ?_, hk⟩
  · rw [doneTarget_of hpins, hmap, tget_tset_same]
    split_ifs <;> rfl
  · rw [hblocked, List.mem_filter, bne_iff_ne]

/-- LOSS of an origin whose Firn is lost starts the takeover of its partner (R317). -/
theorem fenceLoss_takesOver {m : Msg} {l : List Msg} {s : State} (hc : clocked s = true) (h : fenceIn s 10 m l) (hbit : m.payload.getLsbD 6 = true)
    (hmir : holdsMirrors s m.origin = true) (hpart : hasPartner s m.origin = false) (hage : s.flag Reg.REC_CTRL_AGEN = false)
    (hshown : s.rd Reg.REC_STAT_ACTING ≠ m.origin.toNat) (htake : s.flag Reg.REC_CTRL_PTAKE = true) (hnot : takingOver s m.origin = false) :
    ∃ t, exec (.fenceLoss m) s = .next t ∧ (s.rec_.acting = none → t.rec_.acting = some (m.origin, s.time.now)) ∧
      (∀ x, s.rec_.acting = some x → t.rec_.acting = some x ∧ t.rec_.actMore = s.rec_.actMore ++ [(m.origin, s.time.now)]) ∧
      doneTarget t m.origin = s.die ∧
      Keeps [.out, .regs, .src, .acc, .firn, .xb, .rq, .clus, .rec_, .pwr, .trc] s t := by
  obtain ⟨t, hrun, -, hpins, hmap, hact, hmore, -, hk⟩ := fenceLoss_leaves hc h
  obtain ⟨u, hu⟩ : ∃ u : State, { tokenTaken s l with rec_ := { s.rec_ with actmap := tset none s.rec_.actmap m.origin.toNat none } } = u :=
    ⟨_, rfl⟩
  have hhead : lossHead m (tokenTaken s l) = u := (lossHead_plain m (tokenTaken s l) hshown hpart hage).trans hu
  have hmid : (lossMid m u).rec_.actmap = (startTakeover m.origin u).rec_.actmap ∧
      (lossMid m u).rec_.acting = (startTakeover m.origin u).rec_.acting ∧
      (lossMid m u).rec_.actMore = (startTakeover m.origin u).rec_.actMore := by
    have hmir' : holdsMirrors u m.origin = true := hu ▸ hmir
    unfold lossMid
    simp only [hbit, hmir', Bool.and_self, ↓reduceIte]
    split_ifs
    · obtain ⟨h1, h2, h3, -⟩ := startResync_rec m.origin (startTakeover m.origin u)
      exact ⟨h1, h2, h3⟩
    · exact ⟨rfl, rfl, rfl⟩
  obtain ⟨hfirst, hlater, hme, -⟩ := startTakeover_does m.origin u (hu ▸ htake) (hu ▸ hnot)
  rw [hhead] at hmap hact hmore
  rw [hmid.1] at hmap
  rw [hmid.2.1] at hact
  rw [hmid.2.2] at hmore
  have hua : u.rec_.acting = s.rec_.acting := hu ▸ rfl
  have hum : u.rec_.actMore = s.rec_.actMore := hu ▸ rfl
  have hut : u.time = s.time := hu ▸ rfl
  have hud : u.die = s.die := hu ▸ rfl
  rw [hua, hut] at hfirst
  rw [hua, hum, hut] at hlater
  refine ⟨t, hrun, fun hn => hact.trans (hfirst hn), fun x hx => ⟨?_, hmore.trans (hlater (by rw [hx]; exact Option.some_ne_none x))⟩, ?_, hk⟩
  · exact hact.trans (startTakeover_behind (hua.trans hx))
  · rw [doneTarget_of hpins, hmap, hme, hud]
    split_ifs with ho
    · exact eq_of_beq ho
    · rfl

/-- Settles O30: probes, their answers, ACTING and LOSS. -/
theorem probesAndLosses : Obligations.ProbesAndLosses := by
  refine ⟨fun _ _ _ hc hr hen hk ha hneed hdue => ageProbe_probes hc hr hen hk ha hneed hdue,
    fun m l s hc h => ?_,
    fun _ _ _ _ _ hc h hf => ⟨fun hp => fenceAnswer_present hc h hf hp, fun hp ha => fenceAnswer_absent hc h hf hp ha,
      fun hp ha hpo hs => fenceAnswer_twice hc h hf hp ha hpo hs⟩,
    fun _ _ _ hc h ho => fenceActing_maps hc h ho,
    fun _ _ _ hc h => ⟨fun hbit => fenceLoss_clears hc h hbit,
      fun hbit hmir hpart hage hshown htake hnot => fenceLoss_takesOver hc h hbit hmir hpart hage hshown htake hnot⟩⟩
  have hanswer := fenceProbe_answers hc h
  unfold probeState at hanswer
  cases hcust : custodyOf s m (fenceReplica m) <;> simp only [hcust] at hanswer ⊢ <;> exact hanswer

end Sys2Proof.Machine

namespace Sys2Proof.Machine

set_option Elab.async false

-- what was on its way stays so past input 22 and a resynchronization

theorem pumpCtl_carries (s : State) : Carries s (pumpCtl s) := by
  intro m hc h
  obtain ⟨h1, h2⟩ := pumpList_grows 22 (s.xb.ctlHold.map fun m => { msg := m }) [] s
  have h3 := pumpList_waits 22 (s.xb.ctlHold.map fun m => { msg := m }) [] s
  unfold waits at h3
  simp only [Prod.mk.injEq] at h3
  obtain ⟨hrec, hret, -⟩ := h3
  unfold pumpCtl
  dsimp only
  rcases h with h | ⟨e, he, hm⟩ | ⟨r, x, h, hm⟩ | ⟨x, h, hm⟩
  · exact .inl (h.grows (h1.trans (Grows.of rfl rfl)))
  · exact .inr (.inl ⟨e, by rw [← hrec] at he; exact he, hm⟩)
  · exact .inr (.inr (.inl ⟨r, x, by rw [← hret] at h; exact h, hm⟩))
  · rcases h2 { msg := x } (List.mem_map.2 ⟨x, h, rfl⟩) (by rw [hm.cls]; exact hc) with h | h
    · exact .inr (.inr (.inr ⟨x, List.mem_map.2 ⟨_, h, rfl⟩, hm⟩))
    · exact .inl (hm.stored (h.grows (Grows.of rfl rfl)))

theorem sendCtl_carries (m : Msg) (s : State) : Carries s (sendCtl m s) := by
  refine Carries.trans (t := { s with xb := { s.xb with ctlHold := s.xb.ctlHold ++ [m] } }) ?_ (pumpCtl_carries _)
  intro x _ h
  rcases h with h | h | h | ⟨y, hy, hm⟩
  · exact .inl (h.grows (Grows.of rfl rfl))
  · exact .inr (.inl h)
  · exact .inr (.inr (.inl h))
  · exact .inr (.inr (.inr ⟨y, List.mem_append_left _ hy, hm⟩))

theorem Carries.each {α : Type} (l : List α) {f : α → State → State} (h : ∀ a s, Carries s (f a s)) (s : State) : Carries s (s.each l f) := by
  unfold State.each
  induction l generalizing s with
  | nil => exact Carries.refl
  | cons a l ih => exact (h a s).trans (ih _)

theorem startResync_carries (o : BitVec 5) (s : State) : Carries s (startResync o s) := by
  obtain ⟨rs, hrs⟩ : ∃ rs, (firnAll s fun r => r.kind == .event && if r.acting then r.msg.origin == o else r.partner == some o) = rs := ⟨_, rfl⟩
  obtain ⟨v, hv⟩ : ∃ v, s.each rs (fun e s => sendCtl (mirrorOf s e.2.msg o) s) = v := ⟨_, rfl⟩
  have hcv : Carries s v := hv ▸ Carries.each rs (fun _ _ => sendCtl_carries _ _) s
  have hcu : Carries v (sendCtl (pairAck v 3 0 0 0 o) v) := sendCtl_carries _ _
  unfold startResync
  dsimp only
  rw [hrs, hv]
  exact hcv.trans (hcu.trans (Carries.keeps (w := [.rec_]) (Keeps.refl.rec_ (by decide))))

-- takeovers (R317)

theorem partnerNoRouteTimeout_takes {o : BitVec 5} {b : Tick} {s : State} (hc : clocked s = true)
    (hr : tget none (noteRoutes s).rec_.noRoute o.toNat = some b) (hb : b.toNat + psettle s ≤ s.t)
    (hp : s.flag Reg.REC_CTRL_PTAKE = true) (ha : s.rec_.acting = none) (hm : s.rec_.actMore = []) :
    ∃ t, exec (.partnerNoRouteTimeout o) s = .next t ∧ t.rec_.acting = some (o, s.time.now) ∧ doneTarget t o = s.die ∧
      (∀ d ∈ bcastDies s, enRoute t (fenceTok s 9 o 0 0 (dieAddr d) .g 0 0)) ∧
      Keeps [.out, .regs, .src, .xb, .rec_, .pwr, .trc] s t := by
  refine next_clk hc fun t hx hrun => ?_
  have hr' : tget none (noteRoutes s.bare).rec_.noRoute o.toNat = some b := hr
  have hb' : b.toNat + psettle (noteRoutes s.bare) ≤ (noteRoutes s.bare).t := hb
  simp only [hr', if_pos hb'] at hx
  have hfree : takingOver (noteRoutes s.bare) o = false := by
    show takingOver s o = false
    unfold takingOver
    rw [ha, hm]
    rfl
  obtain ⟨hact, -, hmap, htok⟩ := startTakeover_does o (noteRoutes s.bare) hp hfree
  rw [hx] at hact hmap htok
  have hk := (execPartnerNoRouteTimeout_keeps o s).next _ hrun
  refine ⟨hact ha, ?_, htok, hk⟩
  refine (doneTarget_of (t := t) (hk.same .pins (by decide)) o).trans ?_
  rw [hmap]
  by_cases hd : o = s.die
  · rw [hd, beq_self_eq_true, if_pos rfl]
  · rw [beq_eq_false_iff_ne.2 hd, if_neg Bool.false_ne_true]
    rfl

/-- The record of an event that a partner takes over from its mirror. -/
def takenOver (e : FirnRec) (s : State) : FirnRec :=
  { kind := .event, msg := e.msg, need := [e.msg.dest], acting := true, since := s.time.now, poisoned := e.poisoned }

/-- A partner makes one mirror an event record, and probes for it while AGEN is 1. -/
def takeMirror (e : Nat × FirnRec) (s : State) : State :=
  let s := s.setRec e.1 (some (takenOver e.2 s))
  if s.flag Reg.REC_CTRL_AGEN then probeRecord e.1 s else s

theorem takeMirror_does (k : Nat) (e : FirnRec) (s : State) :
    (∀ j, (takeMirror (k, e) s).recOf j = if j = k then some (takenOver e s) else s.recOf j) ∧
      (takeMirror (k, e) s).rec_ = s.rec_ ∧
      (s.flag Reg.REC_CTRL_AGEN = true → enRoute (takeMirror (k, e) s)
        (fenceTok s 7 e.msg.origin e.msg.source e.msg.seq (dieAddr (targetDie e.msg.dest)) .g e.msg.dest 0)) := by
  have hset (j : Nat) : (s.setRec k (some (takenOver e s))).recOf j = if j = k then some (takenOver e s) else s.recOf j :=
    State.recOf_setRec' ..
  have hflag : (s.setRec k (some (takenOver e s))).flag Reg.REC_CTRL_AGEN = s.flag Reg.REC_CTRL_AGEN := rfl
  unfold takeMirror
  dsimp only
  rw [hflag]
  cases hen : s.flag Reg.REC_CTRL_AGEN with
  | false =>
    refine ⟨hset, rfl, fun h => absurd h Bool.false_ne_true⟩
  | true =>
    rw [if_pos rfl]
    obtain ⟨hrecs, -, -, htok⟩ := probeRecord_does k (takenOver e s) (s.setRec k (some (takenOver e s))) ((hset k).trans (if_pos rfl))
    refine ⟨fun j => (hrecs j).trans ?_, (probeRecord_keeps ..).same .rec_ (by decide), fun _ => htok _ (List.mem_singleton_self _)⟩
    by_cases hj : j = k
    · rw [if_pos hj, if_pos hj]
      rfl
    · rw [if_neg hj, if_neg hj, hset, if_neg hj]

theorem takeoverSettleExpire_takes {o : BitVec 5} {b : Tick} {k : Nat} {e : FirnRec} {s : State} (hc : clocked s = true)
    (ha : s.rec_.acting = some (o, b)) (hb : b.toNat + psettle s ≤ s.t)
    (hall : firnAll s (fun r => r.kind == .mirror && r.msg.origin == o) = [(k, e)]) :
    ∃ t, exec .takeoverSettleExpire s = .next t ∧ t.rec_.acting = s.rec_.actMore.head? ∧ t.rec_.actMore = s.rec_.actMore.drop 1 ∧
      t.recOf k = some { kind := .event, msg := e.msg, need := [e.msg.dest], acting := true, since := s.time.now, poisoned := e.poisoned } ∧
      (∀ j, j ≠ k → t.recOf j = s.recOf j) ∧
      (s.flag Reg.REC_CTRL_AGEN = true →
        enRoute t (fenceTok s 7 e.msg.origin e.msg.source e.msg.seq (dieAddr (targetDie e.msg.dest)) .g e.msg.dest 0)) ∧
      Keeps [.out, .regs, .src, .firn, .xb, .rec_, .pwr, .trc] s t := by
  obtain ⟨w, hw⟩ : ∃ w : State, { s.bare with rec_ := { s.rec_ with
    acting := s.rec_.actMore.head?, actMore := s.rec_.actMore.drop 1 } } = w := ⟨_, rfl⟩
  obtain ⟨u, hu⟩ : ∃ u, takeMirror (k, e) w = u := ⟨_, rfl⟩
  obtain ⟨t, ht⟩ : ∃ t, (if (portToward u o).isSome && actsFor u o then startResync o u else u) = t := ⟨_, rfl⟩
  have ha' : s.bare.rec_.acting = some (o, b) := ha
  have hrun : exec .takeoverSettleExpire s = .next { t with pending := s.pending } := by
    refine runClk_eq hc ?_
    have hall' : firnAll s.bare (fun r => r.kind == .mirror && r.msg.origin == o) = [(k, e)] := hall
    have hb' : ¬ s.bare.t < b.toNat + psettle s.bare := Nat.not_lt.2 hb
    have hone : bySeq [(k, e)] = [(k, e)] := rfl
    simp only [ha', if_neg hb', hall', hone]
    rw [← ht, ← hu, ← hw]
    rfl
  obtain ⟨hrecs, hrec_, htok⟩ := takeMirror_does k e w
  rw [hu] at hrecs hrec_ htok
  have htail : (∀ j, t.recOf j = u.recOf j) ∧ t.rec_.acting = u.rec_.acting ∧ t.rec_.actMore = u.rec_.actMore ∧ Carries u t := by
    rw [← ht]
    split_ifs
    · obtain ⟨-, hact, hmore, -⟩ := startResync_rec o u
      exact ⟨fun j => (startResync_keeps ..).recOf_eq j, hact, hmore, startResync_carries _ _⟩
    · exact ⟨fun _ => rfl, rfl, rfl, Carries.refl⟩
  obtain ⟨hrec, hact, hmore, hcar⟩ := htail
  rw [hrec_, ← hw] at hact hmore
  have hrecs' (j : Nat) : t.recOf j = if j = k then some (takenOver e s) else s.recOf j := by
    rw [hrec, hrecs, ← hw]
    rfl
  refine ⟨_, hrun, hact, hmore, (hrecs' k).trans (if_pos rfl), fun j hj => (hrecs' j).trans (if_neg hj), fun hen => ?_,
    (execTakeoverSettleExpire_keeps s).next _ hrun⟩
  rw [← hw] at htok
  exact hcar _ (by unfold fenceTok; simp) (htok hen)

/-- Settles O31: the broadcast and the map of a takeover that starts, and the mirror that becomes an acting record when it settles. -/
theorem takeovers : Obligations.Takeovers :=
  ⟨fun _ _ _ hc hr hb hp ha hm => partnerNoRouteTimeout_takes hc hr hb hp ha hm,
    fun _ _ _ _ _ hc ha hb hall => takeoverSettleExpire_takes hc ha hb hall⟩

end Sys2Proof.Machine

namespace Sys2Proof.Machine

set_option Elab.async false

-- the tokens of a migration (R318, R319)

theorem migrationDrainEnd_starts {slot : Fin 8} {x : MigSlot} {s : State} (hc : clocked s = true)
    (hm : tget none s.rec_.mig slot.val = some x) (hp : x.phase = 0) (ht : inTransport s x.source = false) :
    ∃ t, exec (.migrationDrainEnd slot) s = .next t ∧ tget none t.rec_.mig slot.val = some { x with phase := 1 } ∧
      (∀ j, j ≠ slot.val → tget none t.rec_.mig j = tget none s.rec_.mig j) ∧
      (srcCls s x.source.toNat ≠ .s →
        enRoute t (fenceTok s 0 s.die x.source x.first x.old (srcCls s x.source.toNat) x.new 0)) ∧
      Keeps [.out, .regs, .src, .xb, .rec_, .pwr, .trc] s t := by
  refine next_clk hc fun t hx hrun => ?_
  have hm' : tget none s.bare.rec_.mig slot.val = some x := hm
  have ht' : inTransport s.bare x.source = false := ht
  have hp' : (x.phase != 0) = false := by rw [hp]; rfl
  simp only [hm', ht', hp', Bool.or_self, Bool.false_eq_true, ↓reduceIte] at hx
  obtain ⟨u, hu⟩ : ∃ u : State, { s.bare with rec_ := { s.bare.rec_ with
    mig := tset none s.bare.rec_.mig slot.val (some { x with phase := 1 }) } } = u :=
    ⟨_, rfl⟩
  rw [hu] at hx
  have hmig : t.rec_.mig = tset none s.rec_.mig slot.val (some { x with phase := 1 }) := by
    rw [← hx, (sendRec_keeps ..).same .rec_ (by decide), ← hu]
    rfl
  refine ⟨by rw [hmig, tget_tset_same], fun j hj => by rw [hmig, tget_tset_ne _ _ _ _ hj], fun hcls => ?_,
    (execMigrationDrainEnd_keeps slot s).next _ hrun⟩
  rw [← hx]
  refine sendRec_enRoute _ u hcls ?_
  rw [← hu]
  rfl

theorem fenceMigrate_moves {u : Fin 128} {m : Msg} {l : List Msg} {s : State} (hc : clocked s = true) (h : fenceAt s u 0 = some (m, l)) :
    ∃ t, exec (.fenceMigrate u) s = .next t ∧
      t.rq.redirect = s.rq.redirect ++ [⟨u.val, m.origin, m.source, fenceReplica m, m.seq, m.cls⟩] ∧
      t.lane u = l.filter (fun x => !(x.isEvent && x.origin == m.origin && x.source == m.source)) ∧
      (∀ v, v ≠ u.val → t.lane v = s.lane v) ∧
      (m.cls ≠ .s → enRoute t (fenceTok s 1 m.origin m.source m.seq (fenceReplica m) m.cls 0 0)) ∧
      (∀ x ∈ l, x.isEvent = true → x.origin = m.origin → x.source = m.source → x.cls ≠ .s →
        enRoute t { x with dest := fenceReplica m }) ∧
      Keeps [.out, .regs, .src, .firn, .xb, .rq, .core, .clus, .pwr, .trc] s t := by
  refine next_clk hc fun t hx hrun => ?_
  have h' : fenceAt s.bare u 0 = some (m, l) := h
  simp only [h'] at hx
  obtain ⟨a, ha⟩ : ∃ a, sendRet u (fenceTok (s.bare.setLane u l) 1 m.origin m.source m.seq (fenceReplica m) m.cls 0 0)
    (s.bare.setLane u l) = a := ⟨_, rfl⟩
  rw [ha] at hx
  have halane (v : Nat) : a.lane v = (s.setLane u l).lane v := by rw [← ha]; rfl
  have hared : a.rq.redirect = s.rq.redirect := by rw [← ha]; rfl
  have htok : enRoute a (fenceTok s 1 m.origin m.source m.seq (fenceReplica m) m.cls 0 0) := by
    rw [← ha]
    exact sendRet_enRoute _ _ _ _ rfl
  obtain ⟨hlane, hother, hred, hcar, hout⟩ := moveOut_does u m.origin m.source (fenceReplica m) a
  obtain ⟨b, hb⟩ : ∃ b, moveOut u m.origin m.source (fenceReplica m) a = b := ⟨_, rfl⟩
  rw [hb] at hx hlane hother hred hcar hout
  obtain ⟨c, hcc⟩ : ∃ c : State, { b with rq := { b.rq with
    redirect := b.rq.redirect ++ [⟨u.val, m.origin, m.source, fenceReplica m, m.seq, m.cls⟩] } } = c :=
    ⟨_, rfl⟩
  rw [hcc] at hx
  have hrq : t.rq = c.rq := by
    rw [← hx, (askFills_keeps ..).same .rq (by decide), (pumpRet_keeps ..).same .rq (by decide)]
  have hbt : Carries b t := by
    rw [← hx, ← hcc]
    exact (Carries.keeps (w := [.rq]) (Keeps.refl.rq (by decide))).trans ((pumpRet_carries _ _).trans (Carries.keeps (askFills_keeps ..)))
  have hlanes (v : Nat) : t.lane v = b.lane v := by
    show tget [] t.rq.lanes v = _
    rw [hrq, ← hcc]
    rfl
  refine ⟨?_, ?_, fun v hv => ?_, fun hcls => hbt _ hcls (hcar _ hcls htok), fun x hm h1 h2 h3 hcls => hbt _ hcls ?_,
    (execFenceMigrate_keeps u s).next _ hrun⟩
  · rw [hrq, ← hcc]
    show b.rq.redirect ++ _ = _
    rw [hred, hared]
  · exact (hlanes u).trans (by rw [hlane, halane, State.lane_setLane])
  · exact (hlanes v).trans (by rw [hother v hv, halane, State.lane_setLane_ne _ _ hv])
  · exact hout x (by rw [halane, State.lane_setLane]; exact hm) h1 h2 h3

theorem fenceIntake_blocks {u : Fin 128} {m : Msg} {l : List Msg} {s : State} (hc : clocked s = true) (h : fenceAt s u 1 = some (m, l)) :
    exec (.fenceIntake u) s = .next { { s with out := [] }.setLane u l with
      rq := { (s.setLane u l).rq with blocked := s.rq.blocked ++ [⟨u.val, m.origin, m.source, senderOf m, m.seq⟩] } } := by
  refine runClk_eq (t := { s.bare.setLane u l with
    rq := { (s.setLane u l).rq with blocked := s.rq.blocked ++ [⟨u.val, m.origin, m.source, senderOf m, m.seq⟩] } }) hc ?_
  have h' : fenceAt s.bare u 1 = some (m, l) := h
  simp only [h']
  rfl

theorem migrationOldTargetEmpty_releases {u : Fin 128} {origin : BitVec 5} {source : BitVec 13} {d : Redirect} {l : List Redirect} {s : State}
    (hc : clocked s = true)
    (h : takeFirst (fun d => d.u == u.val && d.origin == origin && d.source == source) s.rq.redirect = some (d, l))
    (hh : heldAt s u origin source = false) :
    ∃ t, exec (.migrationOldTargetEmpty u origin source) s = .next t ∧ t.rq = { s.rq with redirect := l } ∧
      (d.cls ≠ .s → enRoute t (fenceTok s 2 origin source d.seq d.target d.cls 0 0)) ∧
      Keeps [.out, .regs, .src, .xb, .rq, .pwr, .trc] s t := by
  refine next_clk hc fun t hx hrun => ?_
  have h' : takeFirst (fun d => d.u == u.val && d.origin == origin && d.source == source) s.bare.rq.redirect = some (d, l) := h
  have hh' : heldAt s.bare u origin source = false := hh
  simp only [h', hh', Bool.false_eq_true, ↓reduceIte] at hx
  obtain ⟨a, ha⟩ : ∃ a : State, { s.bare with rq := { s.bare.rq with redirect := l } } = a := ⟨_, rfl⟩
  rw [ha] at hx
  refine ⟨?_, fun hcls => ?_, (execMigrationOldTargetEmpty_keeps u origin source s).next _ hrun⟩
  · rw [← hx, (pumpRet_keeps ..).same .rq (by decide), (sendRet_keeps ..).same .rq (by decide), ← ha]
    rfl
  · rw [← hx]
    refine pumpRet_carries _ _ _ hcls (sendRet_enRoute _ _ _ _ ?_)
    rw [← ha]
    rfl

theorem fenceRelease_unblocks {u : Fin 128} {m : Msg} {l : List Msg} {s : State} (hc : clocked s = true) (h : fenceAt s u 2 = some (m, l)) :
    ∃ t, exec (.fenceRelease u) s = .next t ∧ t.lane u = l ∧ (∀ v, v ≠ u.val → t.lane v = s.lane v) ∧
      t.rq.blocked = s.rq.blocked.filter (fun b => !(b.u == u.val && b.origin == m.origin && b.source == m.source)) ∧
      enRoute t (fenceTok s 3 m.origin m.source m.seq (dieAddr m.origin) .g 0 0) ∧
      Keeps [.out, .regs, .src, .xb, .rq, .clus, .pwr, .trc] s t := by
  refine next_clk hc fun t hx hrun => ?_
  have h' : fenceAt s.bare u 2 = some (m, l) := h
  simp only [h'] at hx
  obtain ⟨a, ha⟩ : ∃ a : State, { s.bare.setLane u l with rq := { (s.bare.setLane u l).rq with
    blocked := (s.bare.setLane u l).rq.blocked.filter fun b => !(b.u == u.val && b.origin == m.origin && b.source == m.source) } } = a := ⟨_, rfl⟩
  rw [ha] at hx
  have hrq : t.rq = a.rq := by
    rw [← hx, (askFills_keeps ..).same .rq (by decide), (sendMigrated_keeps ..).same .rq (by decide)]
  have hlanes (v : Nat) : t.lane v = (s.setLane u l).lane v := by
    show tget [] t.rq.lanes v = _
    rw [hrq, ← ha]
    rfl
  refine ⟨(hlanes u).trans (State.lane_setLane ..), fun v hv => (hlanes v).trans (State.lane_setLane_ne _ _ hv), ?_, ?_,
    (execFenceRelease_keeps u s).next _ hrun⟩
  · rw [hrq, ← ha]
    rfl
  · rw [← hx]
    refine (Carries.keeps (askFills_keeps ..)) _ (by unfold fenceTok; simp) ?_
    unfold sendMigrated
    refine sendRec_enRoute _ a (by unfold fenceTok; simp) ?_
    rw [← ha]
    rfl

theorem fenceMigrated_frees {m : Msg} {l : List Msg} {s : State} (hc : clocked s = true) (h : fenceIn s 3 m l) (hg : s.rec_.gated = []) :
    ∃ t, exec (.fenceMigrated m) s = .next t ∧ t.xb = { s.xb with recIn := l } ∧ t.rec_.gated = [] ∧
      (∀ j x, j < 8 → tget none s.rec_.mig j = some x → tget none t.rec_.mig j = if x.source = m.source then none else some x) ∧
      (∀ j, tget none s.rec_.mig j = none → tget none t.rec_.mig j = none) ∧ Keeps [.out, .xb, .rec_] s t := by
  obtain ⟨t, ht⟩ : ∃ t, freeSlots (fun x => x.source == m.source) (tokenTaken s l) = t := ⟨_, rfl⟩
  have hrun : exec (.fenceMigrated m) s = .next { t with pending := s.pending } := runClk_eq hc ((fence_eq h _).trans ht)
  obtain ⟨hgated, hmig⟩ := freeSlots_none (fun x => x.source == m.source) (tokenTaken s l) hg
  have hxb : t.xb = (tokenTaken s l).xb := ht ▸ (freeSlots_keeps ..).same .xb (by decide)
  rw [ht] at hgated hmig
  refine ⟨_, hrun, hxb, hgated, fun j x hj hx => (hmig j).trans ?_, fun j hx => (hmig j).trans ?_, (execFenceMigrated_keeps m s).next _ hrun⟩
  · have hx' : tget none (tokenTaken s l).rec_.mig j = some x := hx
    simp only [hx', hj, true_and, beq_iff_eq]
  · have hx' : tget none (tokenTaken s l).rec_.mig j = none := hx
    simp only [hx', Bool.false_eq_true, and_false, ↓reduceIte]

-- a migration whose old target is lost (R320)

theorem tget_mapSome {α : Type} (f : α → α) (t : Tbl (Option α)) (j : Nat) :
    tget none (t.map fun e => (e.1, e.2.map f)) j = (tget none t j).map f := by
  induction t with
  | nil => rfl
  | cons e t ih =>
    simp only [List.map_cons, tget]
    split_ifs
    · rfl
    · exact ih

/-- Waiting streams take free slots alone. -/
theorem fillSlots_held {j : Nat} {x : MigSlot} {s : State} (h : tget none s.rec_.mig j = some x) :
    tget none (fillSlots s).rec_.mig j = some x := by
  unfold fillSlots
  dsimp only
  split
  case h_1 i _ _ _ _ hfree _ =>
    have hi := List.find?_some hfree
    have hne : j ≠ i := by
      rintro rfl
      rw [h] at hi
      exact Bool.false_ne_true hi
    dsimp only
    rw [tget_tset_ne _ _ _ _ hne]
    exact h
  case h_2 => exact h

/-- A slot that is not named stays. -/
theorem freeSlots_held {p : MigSlot → Bool} {j : Nat} {x : MigSlot} {s : State} (h : tget none s.rec_.mig j = some x) (hp : p x = false) :
    tget none (freeSlots p s).rec_.mig j = some x := by
  have hfree (l : List Nat) (hl : j ∉ l) (s : State) (h : tget none s.rec_.mig j = some x) :
      tget none (s.each l fun j s => fillSlots { s with rec_ := { s.rec_ with mig := tset none s.rec_.mig j none } }).rec_.mig j = some x := by
    induction l generalizing s with
    | nil => exact h
    | cons i l ih =>
      obtain ⟨hi, hl⟩ := not_or.1 (List.mem_cons.not.1 hl)
      refine ih hl _ (fillSlots_held ?_)
      dsimp only
      rw [tget_tset_ne _ _ _ _ hi]
      exact h
  refine hfree _ ?_ s h
  simp [h, hp]

/-- The loss of a target's die marks the migration, and its stream's records as not sent again. -/
theorem loseTarget_marks {o : BitVec 5} {j k : Nat} {x : MigSlot} {e : FirnRec} {s : State} (hw : twf none s.firn.recs = true)
    (hm : tget none s.rec_.mig j = some x) (hx : destDie x.old = o) (hr : s.recOf k = some e) (hk : e.kind = .event) (ha : e.acting = false)
    (hs : e.msg.source = x.source) :
    tget none (loseTarget o s).rec_.mig j = some { x with lost := true } ∧ (loseTarget o s).recOf k = some { e with again := false } := by
  obtain ⟨srcs, hsrcs⟩ : ∃ srcs, (s.rec_.mig.filterMap fun e => e.2.bind fun x => if destDie x.old == o then some x.source else none) = srcs :=
    ⟨_, rfl⟩
  obtain ⟨u, hu⟩ : ∃ u : State, { s with rec_ := { s.rec_ with
    mig := s.rec_.mig.map fun e => (e.1, e.2.map fun x => if destDie x.old == o then { x with lost := true } else x) } } = u := ⟨_, rfl⟩
  have hmig : tget none u.rec_.mig j = some { x with lost := true } := by
    rw [← hu]
    refine (tget_mapSome _ s.rec_.mig j).trans ?_
    rw [hm]
    simp only [hx, beq_self_eq_true, ↓reduceIte, Option.map_some]
  have hin : e.msg.source ∈ srcs := by
    rw [← hsrcs, List.mem_filterMap]
    exact ⟨_, mem_of_tget hm, by simp only [hx, hs, beq_self_eq_true, ↓reduceIte, Option.bind_some]⟩
  have hrecs : u.firn = s.firn := hu ▸ rfl
  have hmem : (k, e) ∈ firnAll u fun r => r.kind == .event && !r.acting && srcs.contains r.msg.source := by
    rw [mem_firnAll, hrecs]
    exact ⟨mem_of_tget hr, by simp only [hk, ha, List.contains_iff_mem.2 hin, beq_self_eq_true, Bool.not_false, Bool.and_self]⟩
  unfold loseTarget
  dsimp only
  rw [hsrcs, hu]
  refine ⟨?_, each_setRec_mem (fun e => some { e with again := false }) (firnAll_pairwise (by rw [hrecs]; exact hw)) hmem u⟩
  have hrec := State.each_inv State.rec_ (firnAll u fun r => r.kind == .event && !r.acting && srcs.contains r.msg.source)
    (f := fun (e : Nat × FirnRec) s => s.setRec e.1 (some { e.2 with again := false })) (fun _ _ => rfl) u
  rw [hrec]
  exact hmig

/-- A lost migration whose stream has an incomplete record not sent again goes on. -/
theorem endLostMigrations_held {j k : Nat} {x : MigSlot} {e : FirnRec} {s : State} (hm : tget none s.rec_.mig j = some x)
    (hr : s.recOf k = some e) (hk : e.kind = .event) (ha : e.acting = false) (hs : e.msg.source = x.source) (hn : e.need ≠ [])
    (hagain : e.again = false) :
    tget none (endLostMigrations s).rec_.mig j = some x ∧ (endLostMigrations s).recOf k = some e := by
  have hnot : allAgain s x.source = false := by
    unfold allAgain firnFind
    rw [Option.isNone_eq_false_iff, List.isSome_findSome?, List.any_eq_true]
    refine ⟨_, mem_of_tget hr, ?_⟩
    simp [hk, ha, hs, hn, hagain]
  unfold endLostMigrations
  split_ifs
  · exact ⟨freeSlots_held hm (by rw [hnot, Bool.and_false]), ((freeSlots_keeps ..).recOf_eq k).trans hr⟩
  · exact ⟨hm, hr⟩

theorem hasPartner_takev (s : State) (v : Nat) (o : BitVec 5) : hasPartner (s.wr Reg.REC_STAT_TAKEV v) o = hasPartner s o := by
  have hrd (n : Nat) (f : Fld) (hf : f.off = 0x4000 + 0x10 * n ∨ f.off = 0x400C + 0x10 * n) (hn : n < 1024) (hl : f.lo < 32) :
      (s.wr Reg.REC_STAT_TAKEV v).rd f = s.rd f := wr_off s v (by show f.off ≠ 0xF1C4; omega) hl (by decide)
  have hsame (n : Nat) (hn : n ∈ List.range 1024) : (srcPaired (s.wr Reg.REC_STAT_TAKEV v) n && srcPartner (s.wr Reg.REC_STAT_TAKEV v) n == o) =
      (srcPaired s n && srcPartner s n == o) := by
    rw [List.mem_range] at hn
    have hpair := hrd n (Reg.SRC_CFG3_PAIR n) (.inr rfl) hn (by show 0 < 32; decide)
    have hpartner := hrd n (Reg.SRC_CFG3_PARTNER n) (.inr rfl) hn (by show 1 < 32; decide)
    have hclass := hrd n (Reg.SRC_CFG0_CLASS n) (.inl rfl) hn (by show 4 < 32; decide)
    have hcls : srcCls (s.wr Reg.REC_STAT_TAKEV v) n = srcCls s n := by
      unfold srcCls
      rw [if_pos hn, if_pos hn, hclass]
      rfl
    unfold srcPaired srcPartner State.flag
    rw [hcls, hpair, hpartner]
  have hany : ((List.range 1024).any fun n => srcPaired (s.wr Reg.REC_STAT_TAKEV v) n && srcPartner (s.wr Reg.REC_STAT_TAKEV v) n == o) =
      (List.range 1024).any fun n => srcPaired s n && srcPartner s n == o := by
    generalize List.range 1024 = l at hsame
    rw [Bool.eq_iff_iff, List.any_eq_true, List.any_eq_true]
    exact exists_congr fun n => and_congr_right fun hn => by rw [hsame n hn]
  unfold hasPartner
  rw [hany]
  rfl

/-- LOSS of a die that is no partner, without probes, begins by leaving records and migrations. -/
theorem lossHead_quiet {m : Msg} {s : State} (hpart : hasPartner s m.origin = false) (hage : s.flag Reg.REC_CTRL_AGEN = false) :
    (lossHead m s).firn = s.firn ∧ (lossHead m s).rec_.mig = s.rec_.mig := by
  obtain ⟨u, hu⟩ : ∃ u : State, { s with rec_ := { s.rec_ with actmap := tset none s.rec_.actmap m.origin.toNat none } } = u := ⟨_, rfl⟩
  obtain ⟨v, hv⟩ : ∃ v, (if u.rd Reg.REC_STAT_ACTING == m.origin.toNat then u.wr Reg.REC_STAT_TAKEV 0 else u) = v := ⟨_, rfl⟩
  have hup : hasPartner u m.origin = false := hu ▸ hpart
  have hua : u.flag Reg.REC_CTRL_AGEN = false := hu ▸ hage
  have hvv : hasPartner v m.origin = false ∧ v.flag Reg.REC_CTRL_AGEN = false ∧ v.firn = s.firn ∧ v.rec_.mig = s.rec_.mig := by
    rw [← hv]
    split_ifs
    · refine ⟨(hasPartner_takev ..).trans hup, ?_, hu ▸ rfl, hu ▸ rfl⟩
      unfold State.flag
      rw [State.rd_wr_ne _ _ (by decide)]
      exact hua
    · exact ⟨hup, hua, hu ▸ rfl, hu ▸ rfl⟩
  obtain ⟨hvp, hva, hfirn, hmig⟩ := hvv
  unfold lossHead
  dsimp only
  simp only [hu, hv, hvp, hva, Bool.false_eq_true, ↓reduceIte]
  exact ⟨hfirn, hmig⟩

theorem startResync_mig (o : BitVec 5) (s : State) : (startResync o s).rec_.mig = s.rec_.mig := by
  unfold startResync
  dsimp only
  refine (congrArg RecS.mig ((sendCtl_keeps ..).same .rec_ (by decide))).trans ?_
  exact State.each_inv (fun s => s.rec_.mig) _ (fun e s => congrArg RecS.mig ((sendCtl_keeps ..).same .rec_ (by decide))) s

/-- Before the marks, the last part of a LOSS leaves records and migrations. -/
theorem lossTail_eq (m : Msg) (s : State) : ∃ u, lossTail m s = endLostMigrations (loseTarget m.origin u) ∧ u.firn = s.firn ∧ u.rec_ = s.rec_ := by
  refine ⟨_, rfl, ?_, ?_⟩
  · refine (State.each_inv State.firn _ (fun b s => ?_) _).trans rfl
    rw [(askFills_keeps ..).same .firn (by decide), (sendMigrated_keeps ..).same .firn (by decide)]
  · refine (State.each_inv State.rec_ _ (fun b s => ?_) _).trans rfl
    rw [(askFills_keeps ..).same .rec_ (by decide), (sendMigrated_keeps ..).same .rec_ (by decide)]

theorem fenceLoss_losesTarget {m : Msg} {l : List Msg} {j k : Nat} {x : MigSlot} {e : FirnRec} {s : State} (hc : clocked s = true)
    (h : fenceIn s 10 m l) (hbit : m.payload.getLsbD 6 = false) (hage : s.flag Reg.REC_CTRL_AGEN = false)
    (hpart : hasPartner s m.origin = false) (hw : twf none s.firn.recs = true) (hm : tget none s.rec_.mig j = some x)
    (hx : destDie x.old = m.origin) (hr : s.recOf k = some e) (hk : e.kind = .event) (ha : e.acting = false)
    (hs : e.msg.source = x.source) (hn : e.need ≠ []) :
    ∃ t, exec (.fenceLoss m) s = .next t ∧ tget none t.rec_.mig j = some { x with lost := true } ∧ t.recOf k = some { e with again := false } := by
  obtain ⟨u, hu⟩ : ∃ u, lossHead m (tokenTaken s l) = u := ⟨_, rfl⟩
  obtain ⟨hufirn, humig⟩ := lossHead_quiet (m := m) (s := tokenTaken s l) hpart hage
  rw [hu] at hufirn humig
  obtain ⟨v, hv⟩ : ∃ v, lossMid m u = v := ⟨_, rfl⟩
  have hmid : v.firn = u.firn ∧ v.rec_.mig = u.rec_.mig := by
    rw [← hv]
    unfold lossMid
    simp only [hbit, Bool.false_and, Bool.false_eq_true, ↓reduceIte]
    split_ifs
    · exact ⟨(startResync_keeps ..).same .firn (by decide), startResync_mig ..⟩
    · exact ⟨rfl, rfl⟩
  obtain ⟨hvfirn, hvmig⟩ := hmid
  obtain ⟨w, hwt, hwfirn, hwrec⟩ := lossTail_eq m v
  have hfirn : w.firn = s.firn := by
    rw [hwfirn, hvfirn, hufirn]
    rfl
  have hmig : w.rec_.mig = s.rec_.mig := by
    rw [hwrec, hvmig, humig]
    rfl
  have hrw : w.recOf k = some e := by
    unfold State.recOf
    rw [hfirn]
    exact hr
  obtain ⟨hlost, hmark⟩ := loseTarget_marks (s := w) (by rw [hfirn]; exact hw) (by rw [hmig]; exact hm) hx hrw hk ha hs
  obtain ⟨hkept, hrec⟩ := endLostMigrations_held hlost hmark hk ha hs hn rfl
  exact ⟨_, fenceLoss_run hc h (by rw [hu, hv, hwt]), hkept, hrec⟩

/-- Settles O32: the tokens of a migration in their order, and the migration whose old target's die is lost. -/
theorem migration : Obligations.Migration :=
  ⟨fun _ _ _ hc hm hp ht => migrationDrainEnd_starts hc hm hp ht, fun _ _ _ _ hc h => fenceMigrate_moves hc h,
    fun _ _ _ _ hc h => fenceIntake_blocks hc h, fun _ _ _ _ _ _ hc h hh => migrationOldTargetEmpty_releases hc h hh,
    fun _ _ _ _ hc h => fenceRelease_unblocks hc h, fun _ _ _ hc h hg => fenceMigrated_frees hc h hg,
    fun _ _ _ _ _ _ _ hc h hbit hage hpart hw _ hm hx hr hk ha hs hn =>
      fenceLoss_losesTarget hc h hbit hage hpart hw hm hx hr hk ha hs hn⟩

end Sys2Proof.Machine

namespace Sys2Proof.Machine

set_option Elab.async false

-- breaks of locks (R323)

/-- The locks of a master that are listed break, and no other lock changes. -/
theorem each_breakIfOf_locks {m : Nat} {l : List Nat} (hl : l.Nodup) (s : State) (i : Nat) :
    (s.each l (breakIfOf m)).lockOf i =
      if i ∈ l ∧ (s.lockOf i).held = true ∧ (s.lockOf i).owner.toNat = m then
        { s.lockOf i with held := false, set := [], ovf := false, broken := true, bcause := 0 }
      else s.lockOf i := by
  induction l generalizing s with
  | nil => exact (if_neg fun h => List.not_mem_nil h.1).symm
  | cons a l ih =>
    obtain ⟨ha, hl⟩ := List.nodup_cons.1 hl
    refine (ih hl (breakIfOf m a s)).trans ?_
    by_cases hia : i = a
    · subst hia
      rw [if_neg fun h => ha h.1]
      by_cases hm : (s.lockOf i).held = true ∧ (s.lockOf i).owner.toNat = m
      · rw [if_pos ⟨List.mem_cons_self, hm⟩, breakIfOf_held hm.1 hm.2]
        exact (lockBreak_locks 0 hm.1).1
      · rw [if_neg fun h => hm h.2, breakIfOf_other fun hh ho => hm ⟨hh, ho⟩]
    · have hsame : (breakIfOf m a s).lockOf i = s.lockOf i := by
        unfold breakIfOf
        split_ifs with hh
        · exact (lockBreak_locks 0 (Bool.and_eq_true _ _ ▸ hh).1).2 i hia
        · rfl
      rw [hsame]
      simp only [List.mem_cons, hia, false_or]

theorem masterFault_breaks (m : Fin 16) (s : State) :
    ∃ t, exec (.masterFault m true) s = .next t ∧ t.pins = { s.pins with mfault := s.pins.mfault ||| (1#16 <<< m.val) } ∧
      (∀ i, i < 64 → (s.lockOf i).held = true → (s.lockOf i).owner.toNat = m.val →
        t.lockOf i = { s.lockOf i with held := false, set := [], ovf := false, broken := true, bcause := 0 }) ∧
      (∀ i, (64 ≤ i ∨ (s.lockOf i).held = false ∨ (s.lockOf i).owner.toNat ≠ m.val) → t.lockOf i = s.lockOf i) ∧
      Keeps [.out, .pins, .regs, .src, .lock, .trc] s t := by
  have hrun := exec_masterFault_high m s
  have hlocks := each_breakIfOf_locks (m := m.val) List.nodup_range (mfaultRaised m s) (l := List.range 64)
  have hpins : ((mfaultRaised m s).each (List.range 64) (breakIfOf m)).pins = (mfaultRaised m s).pins := by
    refine State.each_inv State.pins _ (fun i s => ?_) _
    unfold breakIfOf
    split_ifs
    · exact (lockBreak_keeps ..).same .pins (by decide)
    · rfl
  generalize (mfaultRaised m s).each (List.range 64) (breakIfOf m) = v at hrun hlocks hpins
  refine ⟨_, hrun, hpins, fun i hi hheld hown => (hlocks i).trans (if_pos ⟨List.mem_range.2 hi, hheld, hown⟩),
    fun i hi => (hlocks i).trans (if_neg ?_), (execMasterFault_keeps m true s).next _ hrun⟩
  rintro ⟨hmem, hheld, hown⟩
  rcases hi with hi | hi | hi
  · exact absurd (List.mem_range.1 hmem) (Nat.not_lt.2 hi)
  · exact Bool.false_ne_true (hi.symm.trans hheld)
  · exact hi hown

-- the scrubber (R302)

theorem firnScrub_clean {s : State} (hc : clocked s = true) (hen : s.flag Reg.FIRN_SCRUB_EN = true)
    (hlast : s.firn.scrub.toNat + 1 ≠ Config.firnRecords) :
    exec (.firnScrub .clean) s = .next { s with out := [], firn := { s.firn with scrub := s.firn.scrub + 1 } } := by
  refine runClk_eq (t := { s.bare with firn := { s.firn with scrub := s.firn.scrub + 1 } }) hc ?_
  have hen' : s.bare.flag Reg.FIRN_SCRUB_EN = true := hen
  have hlast' : s.bare.firn.scrub.toNat + 1 ≠ Config.firnRecords := hlast
  simp only [hen', Bool.not_true, Bool.false_eq_true, ↓reduceIte, if_neg hlast']
  rfl

theorem firnScrub_corrected {k : Nat} {s : State} (hc : clocked s = true) (hen : s.flag Reg.FIRN_SCRUB_EN = true)
    (hkind : recKind s s.firn.scrub.toNat = some k) (ha : s.time.sleep = .awake) (hl : s.latchOf 5123 = none) :
    ∃ t, exec (.firnScrub .corrected) s = .next t ∧ t.firn = { s.firn with scrub := s.firn.scrub + 1 } ∧
      t.rd Reg.FIRN_ERRADDR_RECORD = s.firn.scrub.toNat % 2 ^ 14 ∧ t.rd Reg.FIRN_ERRADDR_UE = 0 ∧ t.rd Reg.FIRN_ERRADDR_VALID = 1 ∧
      t.rd Reg.FIRN_ERR_CE = min (2 ^ Reg.FIRN_ERR_CE.w - 1) (s.rd Reg.FIRN_ERR_CE + 1) ∧
      t.latchOf 5123 = some ⟨s.time.now, BitVec.ofNat 16 (s.firn.scrub.toNat + 2 ^ 14 * k), 7, s.epoch.num, true, false⟩ ∧
      Keeps [.out, .regs, .src, .firn] s t := by
  refine next_clk hc fun t hx hrun => ?_
  have hen' : s.bare.flag Reg.FIRN_SCRUB_EN = true := hen
  obtain ⟨u, hu⟩ : ∃ u : State, { s.bare with firn := { s.bare.firn with scrub := s.bare.firn.scrub + 1 } } = u := ⟨_, rfl⟩
  have hku : recKind u s.firn.scrub.toNat = some k := hu ▸ hkind
  simp only [hen', Bool.not_true, Bool.false_eq_true, ↓reduceIte, hu] at hx
  have hx' : (if s.firn.scrub.toNat + 1 = Config.firnRecords then (firnError s.firn.scrub.toNat .corrected u).inc Reg.FIRN_SCRUB_PASSES
    else firnError s.firn.scrub.toNat .corrected u) = t := hx
  unfold firnError at hx'
  simp only [hku] at hx'
  obtain ⟨hrec, hue, hvalid, hcnt, hlatch, ⟨v, hv, hfirn⟩, hk⟩ := scrubErr_does (s.firn.scrub.toNat + 1 = Config.firnRecords) Reg.FIRN_ERR_CE
    s.firn.scrub.toNat 0 5123 (s.firn.scrub.toNat + 2 ^ 14 * k) u t (by decide) (by decide) (by decide) (by decide) id (fun _ => Keeps.refl)
    (hu ▸ hl) (hu ▸ ha) hx'
  have huf : u.firn = { s.firn with scrub := s.firn.scrub + 1 } := hu ▸ rfl
  refine ⟨hfirn.trans ((hv.same .firn (by decide)).trans huf), hrec, hue, hvalid, ?_, ?_, ?_⟩
  · refine hcnt.trans ?_
    rw [← hu]
    rfl
  · refine hlatch.trans ?_
    rw [← hu]
    rfl
  · have hsu : Keeps [.firn] s.bare u := hu ▸ Keeps.refl.firn (by decide)
    have hall : Keeps [.regs, .src, .firn] s.bare t := hsu.andThen hk
    exact hall.bare (by decide)

/-- An uncorrectable error poisons the record itself, or the replay record of its port. -/
def poison (i : Nat) (s : State) : State :=
  match s.recOf i with
  | some r => s.setRec i (some { r with poisoned := true })
  | none =>
    let j := i + Config.replayRecords - Config.firnRecords
    s.setPort (j / 256) { s.port (j / 256) with poisoned := BitVec.ofNat 8 j :: (s.port (j / 256)).poisoned }

theorem poison_keeps (i : Nat) (s : State) : Keeps [.firn, .lnk] s (poison i s) := by
  unfold poison
  split
  · exact (State.setRec_keeps ..).mono (by decide)
  · exact (State.setPort_keeps ..).mono (by decide)

theorem poison_does (i : Nat) (s : State) :
    (poison i s).firn.scrub = s.firn.scrub ∧ (poison i s).recOf i = (s.recOf i).map (fun r => { r with poisoned := true }) ∧
      (∀ j, j ≠ i → (poison i s).recOf j = s.recOf j) ∧
      (s.recOf i = none → ∀ j, j = i + Config.replayRecords - Config.firnRecords →
        ((poison i s).port (j / 256)).poisoned = BitVec.ofNat 8 j :: (s.port (j / 256)).poisoned) := by
  unfold poison
  cases hr : s.recOf i with
  | some r => exact ⟨rfl, State.recOf_setRec .., fun j hj => State.recOf_setRec_ne _ _ hj, fun h => absurd h (Option.some_ne_none r)⟩
  | none =>
    refine ⟨rfl, hr, fun _ _ => rfl, ?_⟩
    intro _ j hj
    rw [hj]
    exact congrArg PortS.poisoned (State.port_setPort ..)

/-- The registers that show an uncorrectable error. -/
def showUe (i : Nat) (s : State) : State :=
  (((s.inc Reg.FIRN_ERR_UE).wr Reg.FIRN_ERRADDR_RECORD i).wr Reg.FIRN_ERRADDR_UE 1).raise Reg.FIRN_ERRADDR_VALID

theorem showUe_setPort (i j : Nat) (p : PortS) (s : State) : (showUe i s).setPort j p = showUe i (s.setPort j p) := rfl

/-- An uncorrectable error may poison its record before it is shown. -/
theorem firnError_poisons {i k : Nat} {s : State} (h : recKind s i = some k) :
    firnError i .uncorrectable s = raiseInt 5124 (i + 2 ^ 14 * k) (showUe i (poison i s)) := by
  have hrec : (showUe i s).recOf i = s.recOf i := rfl
  have hport (j : Nat) : (showUe i s).port j = s.port j := rfl
  have herr : firnError i .uncorrectable s = raiseInt 5124 (i + 2 ^ 14 * k) (poison i (showUe i s)) := by
    unfold firnError
    rw [h]
    rfl
  rw [herr]
  unfold poison
  rw [hrec]
  cases s.recOf i with
  | some r => rfl
  | none =>
    dsimp only
    rw [hport, showUe_setPort]

theorem firnScrub_uncorrectable {k : Nat} {s : State} (hc : clocked s = true) (hen : s.flag Reg.FIRN_SCRUB_EN = true)
    (hkind : recKind s s.firn.scrub.toNat = some k) (ha : s.time.sleep = .awake) (hl : s.latchOf 5124 = none) :
    ∃ t, exec (.firnScrub .uncorrectable) s = .next t ∧ t.firn.scrub = s.firn.scrub + 1 ∧
      (∀ j, j ≠ s.firn.scrub.toNat → t.recOf j = s.recOf j) ∧
      t.recOf s.firn.scrub.toNat = (s.recOf s.firn.scrub.toNat).map (fun r => { r with poisoned := true }) ∧
      (s.recOf s.firn.scrub.toNat = none → ∀ j, j = s.firn.scrub.toNat + Config.replayRecords - Config.firnRecords →
        (t.port (j / 256)).poisoned = BitVec.ofNat 8 j :: (s.port (j / 256)).poisoned) ∧
      t.rd Reg.FIRN_ERRADDR_RECORD = s.firn.scrub.toNat % 2 ^ 14 ∧ t.rd Reg.FIRN_ERRADDR_UE = 1 ∧ t.rd Reg.FIRN_ERRADDR_VALID = 1 ∧
      t.rd Reg.FIRN_ERR_UE = min (2 ^ Reg.FIRN_ERR_UE.w - 1) (s.rd Reg.FIRN_ERR_UE + 1) ∧
      t.latchOf 5124 = some ⟨s.time.now, BitVec.ofNat 16 (s.firn.scrub.toNat + 2 ^ 14 * k), 7, s.epoch.num, true, false⟩ ∧
      Keeps [.out, .regs, .src, .firn, .lnk] s t := by
  refine next_clk hc fun t hx hrun => ?_
  have hen' : s.bare.flag Reg.FIRN_SCRUB_EN = true := hen
  obtain ⟨i, hi⟩ : ∃ i, s.firn.scrub.toNat = i := ⟨_, rfl⟩
  have hi' : s.bare.firn.scrub.toNat = i := hi
  obtain ⟨u, hu⟩ : ∃ u : State, { s.bare with firn := { s.bare.firn with scrub := s.bare.firn.scrub + 1 } } = u := ⟨_, rfl⟩
  obtain ⟨v, hv⟩ : ∃ v, poison i u = v := ⟨_, rfl⟩
  rw [hi] at hkind ⊢
  have hku : recKind u i = some k := hu ▸ hkind
  have hui : u.recOf i = s.recOf i := hu ▸ rfl
  simp only [hen', Bool.not_true, Bool.false_eq_true, ↓reduceIte, hu, hi'] at hx
  have herr := firnError_poisons hku
  rw [hv] at herr
  rw [herr] at hx
  have hsu : Keeps [.firn] s.bare u := hu ▸ Keeps.refl.firn (by decide)
  have huv : Keeps [.firn, .lnk] u v := hv ▸ poison_keeps i u
  obtain ⟨hrec, hue, hvalid, hcnt, hlatch, ⟨w, hw, hfirn⟩, hk⟩ := scrubErr_does (i + 1 = Config.firnRecords) Reg.FIRN_ERR_UE
    i 1 5124 (i + 2 ^ 14 * k) v t (by decide) (by decide) (by decide) (by decide) id (fun _ => Keeps.refl)
    ((huv.latchOf_eq _).trans (hu ▸ hl)) ((congrArg TimeS.sleep (huv.same .time (by decide))).trans (hu ▸ ha)) hx
  have hsv : Keeps [.firn, .lnk] s.bare v := hsu.andThen huv
  have hfirn' : t.firn = v.firn := hfirn.trans (hw.same .firn (by decide))
  obtain ⟨hscrub, hone, hothers, hport⟩ := poison_does i u
  rw [hv, hui] at hone hport
  rw [hv] at hscrub hothers
  have hrecs (j : Nat) : t.recOf j = v.recOf j := by
    unfold State.recOf
    rw [hfirn']
  refine ⟨?_, fun j hj => ?_, (hrecs i).trans hone, fun hn j hj => ?_, hrec, hue, hvalid, ?_, ?_, ?_⟩
  · exact (congrArg FirnS.scrub hfirn').trans (hscrub.trans (hu ▸ rfl))
  · exact (hrecs j).trans ((hothers j hj).trans (hu ▸ rfl))
  · refine (congrArg PortS.poisoned (hk.port_eq (j / 256))).trans ((hport hn j hj).trans ?_)
    rw [← hu]
    rfl
  · refine hcnt.trans ?_
    rw [hsv.rd_eq]
    rfl
  · refine hlatch.trans ?_
    rw [hsv.same .time (by decide), hsv.same .epoch (by decide)]
    rfl
  · have hall : Keeps [.regs, .src, .firn, .lnk] s.bare t := hsv.andThen hk
    exact hall.bare (by decide)

/-- Settles O33: breaks of locks by their time or a master's fault, and the scrubber's three results. -/
theorem locksAndScrub : Obligations.LocksAndScrub :=
  ⟨fun i s hc h ht hl =>
    have hb := lockBreak_broken (s := s.bare) 1 h
    have hrun := lockTimeout_breaks hc h ht hl
    ⟨_, hrun, hb.1, hb.2.1, hb.2.2.1, hb.2.2.2, (execLockTimeout_keeps i s).next _ hrun⟩,
    masterFault_breaks, fun _ _ => rfl, fun _ hc hen hlast => firnScrub_clean hc hen hlast,
    fun _ _ hc hen hk ha hl => firnScrub_corrected hc hen hk ha hl,
    fun _ _ hc hen hk ha hl => firnScrub_uncorrectable hc hen hk ha hl⟩

end Sys2Proof.Machine

namespace Sys2Proof.Machine

set_option Elab.async false

-- a boot load marked as a persist, whose block is torn (R341, R360)

/-- An image with its CRC and the signature (R, S) = (1, 0), which the key 1, the neutral element of the group, verifies for any content. -/
def neutralImage : List Word := [0, 0, 0, 3136578990] ++ List.replicate 20 0 ++ [1] ++ List.replicate 15 0

/-- A load of that image in VERIFY, of both kinds at once, from block A, which holds the image and an erase that was cut. -/
def tornPersist : State :=
  { State.reset with img := { otp := [(4, 1)], flashA := neutralImage, torn := [(0, true)],
                              load := { st := .verify, boot := true, persist := true, words := neutralImage.reverse } } }

theorem tornPersist_verifies : verifyReason tornPersist.img.load tornPersist = 0 := by decide +kernel

theorem tornPersist_readsBack :
    { tornPersist.img.load with words :=
      ((flashBlock tornPersist tornPersist.img.load.blk).take tornPersist.img.load.words.length).reverse } = tornPersist.img.load := rfl

theorem loadVerifyDone_tornPersist : exec (.loadVerifyDone .field) tornPersist =
    .next { failLoad .field 9 tornPersist.bare with pending := tornPersist.pending } := run_eq rfl

/-- Refutes O34: its clauses on a persist whose read back checks leave BOOT free, and a boot load from a torn block fails with reason 9
whatever its words say, so no marker is begun. -/
theorem not_loadsAndFlash : ¬ Obligations.LoadsAndFlash := by
  rintro ⟨-, -, -, -, hmark, -⟩
  have hagain : verifyReason { tornPersist.img.load with words :=
      ((flashBlock tornPersist tornPersist.img.load.blk).take tornPersist.img.load.words.length).reverse } tornPersist = 0 := by
    rw [tornPersist_readsBack]
    exact tornPersist_verifies
  obtain ⟨t, hrun, -, hload, -⟩ := (hmark false tornPersist rfl rfl tornPersist_verifies rfl hagain rfl).1 (by decide)
  rw [loadVerifyDone_tornPersist] at hrun
  injection hrun with ht
  have hfailed : t.img.load.st = .restore := ht ▸ congrArg LoadS.st (failLoad_load .field 9 tornPersist.bare)
  rw [hload] at hfailed
  exact absurd hfailed (by decide)

end Sys2Proof.Machine

namespace Sys2Proof.Machine

set_option Elab.async false

-- table copies (R348, R352)

theorem tableCopyEnd_ends {n : Fin 8} {sp : Nat} {s : State} (hn : n.val < 7) (hsp : (if n.val < 3 then 0x20 + n.val else 0x30 + (n.val - 3)) = sp)
    (hm : sp ∈ s.img.copies) (hi : s.img.load.st = .idle) (hw : s.img.load.wait = none) :
    ∃ t, exec (.tableCopyEnd n) s = .next t ∧ (∀ x, x ∈ t.img.copies ↔ x ∈ s.img.copies ∧ x ≠ sp) ∧
      t.img.active = s.img.active ∧ t.img.load = s.img.load ∧ Keeps [.out, .img] s t := by
  have hrun : exec (.tableCopyEnd n) s = .next { copyBack sp s.bare with pending := s.pending } := by
    refine run_eq ?_
    have hm' : s.bare.img.copies.contains sp = true := List.contains_iff_mem.2 hm
    dsimp only
    rw [if_neg (Nat.ne_of_lt hn), hsp, if_pos hm']
    exact pumpLoad_off .field (copyBack sp s.bare) hw hi
  refine ⟨_, hrun, fun x => ?_, rfl, rfl, ?_⟩
  · exact List.mem_filter.trans (and_congr_right fun _ => bne_iff_ne)
  · have hk : Keeps [.img] s.bare (copyBack sp s.bare) := Keeps.refl.img (by decide)
    exact hk.bare (by decide)

theorem tableCopyEnd_startUp {s : State} (hp : s.su.phase = 3) (hr : s.img.load.st = .ready) (h0 : s.img.load.s0 = false) :
    ∃ t, exec (.tableCopyEnd 7) s = .next t ∧ t.img = { s.img with load := { s.img.load with s0 := true } } ∧
      Keeps [.out, .yar, .img, .rime] s t := by
  obtain ⟨u, hu⟩ : ∃ u, s.bare.each (List.range 4) (fun r s => copyGroup r s) = u := ⟨_, rfl⟩
  have hsu : Keeps [.yar, .rime] s.bare u := hu ▸ Keeps.each (fun r v => copyGroup_keeps r v) Keeps.refl
  have hrun : exec (.tableCopyEnd 7) s = .next { setLoad .field { s.img.load with s0 := true } u with pending := s.pending } := by
    refine run_eq ?_
    have hgo : (s.bare.su.phase == 3 && s.bare.img.load.st == .ready && !s.bare.img.load.s0) = true := by
      show (s.su.phase == 3 && s.img.load.st == .ready && !s.img.load.s0) = true
      rw [hp, hr, h0]
      rfl
    dsimp only
    rw [if_pos (by decide), hu, if_pos hgo]
    rfl
  refine ⟨_, hrun, ?_, ?_⟩
  · exact congrArg (fun i : ImgS => { i with load := { s.img.load with s0 := true } }) (hsu.same .img (by decide))
  · have hut : Keeps [.img] u (setLoad .field { s.img.load with s0 := true } u) := Keeps.refl.img (by decide)
    have hall : Keeps [.yar, .img, .rime] s.bare (setLoad .field { s.img.load with s0 := true } u) := hsu.andThen hut
    exact hall.bare (by decide)

-- Rime (R353 to R356)

theorem rimeCompare_passes {a r : Ecc} {upset : Word} {s : State} (hc : clocked s = true) (ho : s.su.open_ = true)
    (hen : s.flag Reg.RIME_CTRL_EN = true) (hw : rimeWord (rimeNext s 40000 s.rime.pos) = none) :
    exec (.rimeCompare a r upset) s = .next (({ s with out := [], rime := { s.rime with pos := 0 } } : State).inc Reg.RIME_PASS_PASSES) := by
  refine runClk_eq (t := ({ s.bare with rime := { s.rime with pos := 0 } } : State).inc Reg.RIME_PASS_PASSES) hc ?_
  have ho' : s.bare.su.open_ = true := ho
  have hen' : s.bare.flag Reg.RIME_CTRL_EN = true := hen
  simp only [ho', hen', Bool.not_true, Bool.or_self, Bool.false_eq_true, ↓reduceIte, rimeNext_bare, State.bare_rime, hw]

/-- Every latched event can still be offered, or is on its way. -/
def allLive (s : State) : Prop := ∀ n l, s.latchOf n = some l → srcEn s n = true ∨ offerFlying s n = true

theorem discardDisabled_live {s : State} (h : allLive s) : discardDisabled s = s := by
  refine State.each_id fun n _ => ?_
  cases hl : s.latchOf n with
  | none => rfl
  | some l =>
    dsimp only
    rw [if_pos (Bool.or_eq_true _ _ ▸ h n l hl)]

/-- The enables of sources lie below the registers of Rime. -/
theorem srcEn_of_low {s t : State} (h : ∀ off, off < 0xF304 → SameWord off s t) (n : Nat) : srcEn t n = srcEn s n := by
  unfold srcEn State.flag
  split_ifs with h1 h2
  · rw [(h _ (by unfold Reg.SRC_CFG0_EN; dsimp only; omega)).rd (Reg.SRC_CFG0_EN n) rfl (by show 0 < 32; decide)]
  · rw [(h _ (by unfold Reg.VEC_CFG_EN; dsimp only; omega)).rd (Reg.VEC_CFG_EN (n - 1024)) rfl (by show 19 < 32; decide)]
  · rfl

/-- What leaves those enables, the offers, and the latches but that of an internal source, discards nothing. -/
theorem allLive_of_low {s t : State} (h : allLive s) (hr : ∀ off, off < 0xF304 → SameWord off s t) (ha : t.acc = s.acc)
    (hl : ∀ n, n < 5120 → t.latchOf n = s.latchOf n) : allLive t := by
  intro n l hn
  rw [srcEn_of_low hr]
  unfold offerFlying
  rw [ha]
  by_cases h5 : n < 5120
  · exact h n l (hl n h5 ▸ hn)
  · left
    unfold srcEn
    rw [if_neg (by omega), if_neg h5]

/-- The state in which Rime compares the word at position p. -/
def rimeAt (p : Nat) (s : State) : State := { s.bare with rime := { s.rime with pos := p } }

theorem rimeActive_rimeAt (p a i : Nat) (s : State) : rimeActive (rimeAt p s) a i = rimeActive s a i := rfl
theorem rimeRef_rimeAt (p a i : Nat) (s : State) : rimeRef (rimeAt p s) a i = rimeRef s a i := rfl

section
variable {a i : Nat} {s : State}

theorem rimeCompare_good (hc : clocked s = true) (ho : s.su.open_ = true) (hen : s.flag Reg.RIME_CTRL_EN = true)
    (hw : rimeWord (rimeNext s 40000 s.rime.pos) = some (a, i)) {u t : State} (hu : rimeAt (rimeNext s 40000 s.rime.pos + 1) s = u)
    (ht : discardDisabled (if rimeActive s a i ≠ rimeRef s a i then mismatch a i false u else u) = t) :
    exec (.rimeCompare .clean .clean 0) s = .next { t with pending := s.pending } := by
  refine runClk_eq hc ?_
  have ho' : s.bare.su.open_ = true := ho
  have hen' : s.bare.flag Reg.RIME_CTRL_EN = true := hen
  have hclean : (a == 3 && Ecc.clean == Ecc.corrected) = false := Bool.and_false _
  have hgood : (Ecc.clean == Ecc.uncorrectable) = false := rfl
  have hread : ¬ Ecc.clean = Ecc.uncorrectable := by decide
  have hact := rimeActive_rimeAt (rimeNext s 40000 s.rime.pos + 1) a i s
  have href := rimeRef_rimeAt (rimeNext s 40000 s.rime.pos + 1) a i s
  have hpos : ({ s.bare with rime := { s.rime with pos := rimeNext s 40000 s.rime.pos + 1 } } : State) = u := hu
  rw [hu] at hact href
  simp only [ho', hen', Bool.not_true, Bool.or_self, Bool.false_eq_true, ↓reduceIte, rimeNext_bare, State.bare_rime, hw, upsetWord_none,
    hclean, hgood, hpos, hact, href, true_and, hread, or_false]
  exact ht

theorem rimeCompare_unread (hc : clocked s = true) (ho : s.su.open_ = true) (hen : s.flag Reg.RIME_CTRL_EN = true)
    (hw : rimeWord (rimeNext s 40000 s.rime.pos) = some (a, i)) {u : State} (hu : rimeAt (rimeNext s 40000 s.rime.pos + 1) s = u) :
    exec (.rimeCompare .clean .uncorrectable 0) s = .next { discardDisabled (u.inc Reg.RIME_STAT_UNREC) with pending := s.pending } := by
  refine runClk_eq hc ?_
  have ho' : s.bare.su.open_ = true := ho
  have hen' : s.bare.flag Reg.RIME_CTRL_EN = true := hen
  have hclean : (a == 3 && Ecc.clean == Ecc.corrected) = false := Bool.and_false _
  have hbad : (Ecc.uncorrectable == Ecc.uncorrectable) = true := rfl
  have hread : ¬ Ecc.clean = Ecc.uncorrectable := by decide
  have hpos : ({ s.bare with rime := { s.rime with pos := rimeNext s 40000 s.rime.pos + 1 } } : State) = u := hu
  simp only [ho', hen', Bool.not_true, Bool.or_self, Bool.false_eq_true, Bool.true_eq_false, ↓reduceIte, rimeNext_bare, State.bare_rime, hw,
    upsetWord_none, hclean, hbad, hpos, false_and, hread, or_false]

end

theorem mismatch_low (a i : Nat) (s : State) {off : Nat} (h : off < 0xF304) (h0 : s.latchOf 5120 = none) (hs : s.time.sleep = .awake) :
    SameWord off s (mismatch a i false s) := by
  have hshow : SameWord off s (((((raiseInt 5120 (a * 2 ^ 14 + i) (s.inc Reg.RIME_STAT_MISM)).wr Reg.RIME_LAST_INDEX i).wr
      Reg.RIME_LAST_AREA a).raise Reg.RIME_LAST_VALID)) := by
    rw [raiseInt_free _ _ _ (show (s.inc Reg.RIME_STAT_MISM).latchOf 5120 = none from h0) hs]
    refine .trans ?_ (.wr _ _ (by show 0xF308 ≠ off; omega) (by decide))
    refine .trans ?_ (.wr _ _ (by show 0xF308 ≠ off; omega) (by decide))
    refine .trans ?_ (.wr _ _ (by show 0xF308 ≠ off; omega) (by decide))
    refine .trans ?_ (.ofKeeps (State.setLatch_keeps ..))
    exact .wr _ _ (by show 0xF304 ≠ off; omega) (by decide)
  unfold mismatch
  dsimp only
  split_ifs
  · exact hshow
  · exact hshow.trans (.wr _ _ (by show 0xF308 ≠ off; omega) (by decide))
  · exact hshow.trans (.ofRegs rfl)

theorem mismatch_latches (a i : Nat) {n : Nat} (s : State) (h : n ≠ 5120) (h0 : s.latchOf 5120 = none) (hs : s.time.sleep = .awake) :
    (mismatch a i false s).latchOf n = s.latchOf n := by
  unfold mismatch
  rw [raiseInt_free _ _ _ (show (s.inc Reg.RIME_STAT_MISM).latchOf 5120 = none from h0) hs]
  dsimp only
  split_ifs <;> exact State.latchOf_setLatch_ne _ _ h

theorem rimeCompare_compares {a i : Nat} {s : State} (hc : clocked s = true) (ho : s.su.open_ = true) (hen : s.flag Reg.RIME_CTRL_EN = true)
    (hw : rimeWord (rimeNext s 40000 s.rime.pos) = some (a, i)) (hlive : ∀ n l, s.latchOf n = some l → srcEn s n = true ∨ offerFlying s n = true) :
    (rimeActive s a i = rimeRef s a i → exec (.rimeCompare .clean .clean 0) s =
      .next { s with out := [], rime := { s.rime with pos := rimeNext s 40000 s.rime.pos + 1 } }) ∧
    exec (.rimeCompare .clean .uncorrectable 0) s =
      .next (({ s with out := [], rime := { s.rime with pos := rimeNext s 40000 s.rime.pos + 1 } } : State).inc Reg.RIME_STAT_UNREC) ∧
    (rimeActive s a i ≠ rimeRef s a i → s.flag Reg.RIME_CTRL_RESTORE = true → (a, i) ∉ s.rime.marks → s.rime.marks.length < 64 →
      s.time.sleep = .awake → s.latchOf 5120 = none →
      ∃ t, exec (.rimeCompare .clean .clean 0) s = .next t ∧
        t.rime = { s.rime with pos := rimeNext s 40000 s.rime.pos + 1, marks := s.rime.marks ++ [(a, i)] } ∧
        t.latchOf 5120 = some ⟨s.time.now, BitVec.ofNat 16 (a * 2 ^ 14 + i), 7, s.epoch.num, true, false⟩ ∧
        Keeps [.out, .regs, .src, .rime, .trc] s t) := by
  obtain ⟨u, hu⟩ : ∃ u, rimeAt (rimeNext s 40000 s.rime.pos + 1) s = u := ⟨_, rfl⟩
  have hsu : Keeps [.rime] s.bare u := hu ▸ Keeps.refl.rime (by decide)
  have hliveu : allLive u := hu ▸ hlive
  refine ⟨fun heq => ?_, ?_, fun hne hrest hmark hlen ha hl => ?_⟩
  · rw [rimeCompare_good hc ho hen hw hu (t := u) (by rw [if_neg (not_not.2 heq), discardDisabled_live hliveu]), ← hu]
    rfl
  · have hliveinc : allLive (u.inc Reg.RIME_STAT_UNREC) :=
      allLive_of_low hliveu (fun off h => .wr _ _ (by show 0xF304 ≠ off; omega) (by decide)) rfl (fun _ _ => rfl)
    rw [rimeCompare_unread hc ho hen hw hu, discardDisabled_live hliveinc, ← hu]
    rfl
  · have hl' : u.latchOf 5120 = none := hu ▸ hl
    have ha' : u.time.sleep = .awake := hu ▸ ha
    obtain ⟨hrime, hlatch⟩ := mismatch_does a i u (hu ▸ hrest) (hu ▸ hmark) (hu ▸ hlen) hl' ha'
    have hlivem : allLive (mismatch a i false u) := allLive_of_low hliveu (fun off h => mismatch_low a i u h hl' ha')
      ((mismatch_keeps ..).same .acc (by decide)) (fun n hn => mismatch_latches a i u (by omega) hl' ha')
    have hrun := rimeCompare_good hc ho hen hw hu (by rw [if_pos hne, discardDisabled_live hlivem])
    refine ⟨_, hrun, ?_, ?_, ?_⟩
    · refine hrime.trans ?_
      rw [← hu]
      rfl
    · refine hlatch.trans ?_
      rw [← hu]
      rfl
    · have hall : Keeps [.regs, .src, .rime, .trc] s.bare (mismatch a i false u) := hsu.andThen (mismatch_keeps ..)
      exact hall.bare (by decide)

-- the erase (R364, R426, R444)

/-- The bare state once rdp_erase is asserted. -/
def eraseAsserted (level : BitVec 2) (s : State) : State := { s.bare with pins := { s.pins with rdpErase := true, rdpLevel := level } }

theorem rdpErase_run {level : BitVec 2} {s u : State}
    (hu : (if s.su.phase = 0 then
        if s.su.hold then eraseAsserted level s
        else { eraseAsserted level s with su := { s.su with hold := true, holdPhase := 1 } }
      else edwReset (dieReset 5 (eraseAsserted level s))) = u) :
    exec (.rdpErase level) s = .next { { u with
      img := { u.img with flashA := [], flashB := [], torn := [], mark0 := [], mark1 := [] }
      edw := { u.edw with sectors := [], sector := 0 } } with pending := s.pending } := by
  refine run_eq ?_
  rw [← hu]
  rfl

theorem edwReset_inbox (s : State) : (edwReset s).edw.inbox = s.edw.inbox := by
  unfold edwReset
  dsimp only
  split <;> rfl

theorem rdpErase_erases (level : BitVec 2) (s : State) :
    ∃ t, exec (.rdpErase level) s = .next t ∧ t.pins = { s.pins with rdpErase := true, rdpLevel := level } ∧ t.img.flashA = [] ∧
      t.img.flashB = [] ∧ t.img.mark0 = [] ∧ t.img.mark1 = [] ∧ t.img.torn = [] ∧ t.img.otp = s.img.otp ∧ t.edw.sectors = [] ∧
      t.edw.inbox = s.edw.inbox ∧ t.su.hold = true ∧ (s.su.phase = 0 → Keeps [.out, .pins, .img, .su, .edw] s t) := by
  obtain ⟨a, ha⟩ : ∃ a, eraseAsserted level s = a := ⟨_, rfl⟩
  obtain ⟨u, hu⟩ : ∃ u, (if s.su.phase = 0 then if s.su.hold then a else { a with su := { s.su with hold := true, holdPhase := 1 } }
    else edwReset (dieReset 5 a)) = u := ⟨_, rfl⟩
  have hrun := rdpErase_run (level := level) (s := s) (u := u) (by rw [ha]; exact hu)
  have hdoes : u.pins = a.pins ∧ u.img.otp = a.img.otp ∧ u.edw.inbox = a.edw.inbox ∧ u.su.hold = true ∧
      (s.su.phase = 0 → Keeps [.su] a u) := by
    rw [← hu]
    split_ifs with h0 hh
    · exact ⟨rfl, rfl, rfl, ha ▸ hh, fun _ => Keeps.refl⟩
    · have hk : Keeps [.su] a { a with su := { s.su with hold := true, holdPhase := 1 } } := Keeps.refl.su (by decide)
      exact ⟨rfl, rfl, rfl, rfl, fun _ => hk⟩
    · obtain ⟨hkept, -, hhold, -⟩ := dieReset_does 5 a
      unfold kept at hkept
      simp only [Prod.mk.injEq] at hkept
      obtain ⟨-, -, -, -, hotp⟩ := hkept
      refine ⟨((edwReset_keeps ..).same .pins (by decide)).trans ((dieReset_keeps ..).same .pins (by decide)), ?_, ?_, ?_, fun h => absurd h h0⟩
      · rw [(edwReset_keeps ..).same .img (by decide), hotp]
      · rw [edwReset_inbox, (dieReset_keeps ..).same .edw (by decide)]
      · rw [(edwReset_keeps ..).same .su (by decide), hhold]
  obtain ⟨hpins, hotp, hinbox, hhold, hk⟩ := hdoes
  rw [← ha] at hpins hotp hinbox
  refine ⟨_, hrun, hpins, rfl, rfl, rfl, rfl, rfl, hotp, rfl, hinbox, hhold, fun h0 => ?_⟩
  have hsa : Keeps [.pins] s.bare a := ha ▸ Keeps.refl.pins (by decide)
  have hsu : Keeps [.pins, .su] s.bare u := hsa.andThen (hk h0)
  obtain ⟨v, hv⟩ : ∃ v : State, { u with img := { u.img with flashA := [], flashB := [], torn := [], mark0 := [], mark1 := [] } } = v := ⟨_, rfl⟩
  have huv : Keeps [.img] u v := hv ▸ Keeps.refl.img (by decide)
  have hedw : Keeps [.edw] v { v with edw := { u.edw with sectors := [], sector := 0 } } := Keeps.refl.edw (by decide)
  have hsv : Keeps [.pins, .img, .su] s.bare v := hsu.andThen huv
  have hall : Keeps [.pins, .img, .su, .edw] s.bare { v with edw := { u.edw with sectors := [], sector := 0 } } := hsv.andThen hedw
  rw [← hv] at hall
  exact hall.bare (by decide)

/-- Settles O35: the ends of table copies, Rime's comparison in its three outcomes, and the erase. -/
theorem copiesAndRime : Obligations.CopiesAndRime :=
  ⟨fun _ _ hn hm hi hw => tableCopyEnd_ends hn rfl hm hi hw, fun _ hp hr h0 => tableCopyEnd_startUp hp hr h0,
    fun _ _ _ _ hc ho hen hw => rimeCompare_passes hc ho hen hw, fun _ _ _ hc ho hen hw hl => rimeCompare_compares hc ho hen hw hl,
    rdpErase_erases⟩

end Sys2Proof.Machine

namespace Sys2Proof.Machine

set_option Elab.async false

-- a frame that a side takes (R376)

/-- A side as a frame of a type arrives. -/
def hearing (d : Side) (typ : BitVec 8) (s : State) : State := setBar d (barHeard d typ s) s.bare

/-- A side once every entry of its receive buffer is free again. -/
def emptied (d : Side) (u : State) : State := setBar d { barOf d u with freed := (barOf d u).freed + (barOf d u).rxUsed, rxUsed := 0 } u

theorem rxBar_runs {d : Side} {typ : BitVec 8} {f : State → State} {s u : State} (h : barReady d s) (hu : f (hearing d typ s) = u) :
    run (rxBar d typ f) s = .next { drainEntries d u with pending := s.pending } := by
  refine run_eq ((rxBar_eq d typ f s.bare (by cases d <;> exact h)).trans ?_)
  rw [← hu]
  cases d <;> rfl

theorem rxBar_empties {d : Side} {typ : BitVec 8} {f : State → State} {s u : State} (h : barReady d s) (hu : f (hearing d typ s) = u)
    (hw : barWaits d u = false) : run (rxBar d typ f) s = .next { emptied d u with pending := s.pending } := by
  rw [rxBar_runs h hu, drain_eq d u hw]
  rfl

theorem fieldWaits_same {s u : State} (h : barReady .field s) (hx : u.xb = s.xb) : barWaits .field u = false := by
  unfold barWaits
  rw [hx]
  exact h.2.2

/-- A frame of field die 0 whose handling leaves the crossbar. -/
theorem fieldFrame_runs {typ : BitVec 8} {f : State → State} {s u : State} (h : barReady .field s) (hu : f (hearing .field typ s) = u)
    (hx : u.xb = s.xb) : run (rxBar .field typ f) s = .next { emptied .field u with pending := s.pending } :=
  rxBar_empties h hu (fieldWaits_same h hx)

-- GATE_STATE (R375, R384, R385)

theorem gateState_quiet {p : BitVec 128} {s : State} (h : barReady .field s) (ho : p.getLsbD 0 = false ∨ s.bar.owe = false) :
    exec (.gateState p) s = .next { s with out := [], bar := { barTook .field 0x02 s with
      run := p.getLsbD 0, ctl := if p.getLsbD 0 then s.bar.ctl else s.bar.ctl.filter fun x => !(x.1 == 0x09 || x.1 == 0x0D) } } := by
  have howe : (p.getLsbD 0 && (barHeard .field 0x02 s).owe) = false := by
    rcases ho with ho | ho
    · rw [ho, Bool.false_and]
    · rw [show (barHeard .field 0x02 s).owe = false from ho, Bool.and_false]
  exact fieldFrame_runs (u := { s.bare with bar := { barHeard .field 0x02 s with
    run := p.getLsbD 0, ctl := if p.getLsbD 0 then s.bar.ctl else s.bar.ctl.filter fun x => !(x.1 == 0x09 || x.1 == 0x0D) } }) h
    (if_neg (by rw [Bool.not_eq_true]; exact howe)) rfl

/-- A record that was sent is to be sent again. -/
def againFor (gen : Option (BitVec 8)) (c : FirnRec) : FirnRec :=
  { c with pendAgain := some !(c.sentGen == gen && gen != some 0) }

/-- One record is marked to be sent again, or lost (R385). -/
def markAgain (gen : Option (BitVec 8)) (k : Nat) (s : State) : State :=
  match s.recOf k with
  | none => s
  | some c =>
    if c.sent.isNone then s
    else if c.poisoned then s.inc Reg.FIRN_ERR_LOST
    else s.setRec k (some (againFor gen c))

theorem markAgain_sent {gen : Option (BitVec 8)} {k : Nat} {c : FirnRec} {s : State} (h : s.recOf k = some c) (hs : c.sent.isSome = true)
    (hp : c.poisoned = false) : (markAgain gen k s).recOf k = some (againFor gen c) := by
  unfold markAgain
  simp only [h, Option.isNone_eq_false_iff.2 hs, hp, Bool.false_eq_true, ↓reduceIte]
  exact State.recOf_setRec ..

theorem markAgain_other {gen : Option (BitVec 8)} {k j : Nat} {s : State} (h : j ≠ k) : (markAgain gen k s).recOf j = s.recOf j := by
  unfold markAgain
  split
  · rfl
  · split_ifs
    · rfl
    · rfl
    · exact State.recOf_setRec_ne _ _ h

/-- A record that is marked, once or again, is marked. -/
theorem each_markAgain {gen : Option (BitVec 8)} {k : Nat} {c : FirnRec} (hs : c.sent.isSome = true) (hp : c.poisoned = false) (l : List Nat)
    (s : State) (h : s.recOf k = some c) :
    (s.each l (markAgain gen)).recOf k = some (if k ∈ l then againFor gen c else c) := by
  have hmarked (l : List Nat) (s : State) (h : s.recOf k = some (againFor gen c)) : (s.each l (markAgain gen)).recOf k = some (againFor gen c) := by
    induction l generalizing s with
    | nil => exact h
    | cons a l ih =>
      refine ih _ ?_
      by_cases ha : k = a
      · subst ha
        exact markAgain_sent (c := againFor gen c) h hs hp
      · exact (markAgain_other ha).trans h
  induction l generalizing s with
  | nil => exact h
  | cons a l ih =>
    by_cases ha : k = a
    · subst ha
      rw [if_pos List.mem_cons_self]
      exact hmarked l _ (markAgain_sent h hs hp)
    · refine (ih (markAgain gen a s) ((markAgain_other ha).trans h)).trans ?_
      simp only [List.mem_cons, ha, false_or]

theorem gateState_resends {p : BitVec 128} {s : State} (h : barReady .field s) (hp : p.getLsbD 0 = true) (ho : s.bar.owe = true) :
    ∃ t, exec (.gateState p) s = .next t ∧ t.bar = { barTook .field 0x02 s with run := true, owe := false } ∧ t.hostq.unrep = [] ∧
      t.hostq.credit = s.hostq.credit ∧ t.hostq.stops = s.hostq.stops ∧ t.hostq.queue = bySlice s t.hostq.live ∧
      t.hostq.live = s.hostq.live.filter (fun k => match s.recOf k with | some c => c.sent.isNone || !c.poisoned | none => true) ∧
      (∀ k ∈ s.hostq.live, ∀ c, s.recOf k = some c → c.sent.isSome = true → c.poisoned = false →
        t.recOf k = some { c with pendAgain := some !(c.sentGen == s.bar.peerGen && s.bar.peerGen != some 0) }) ∧
      Keeps [.out, .regs, .firn, .bar, .hostq] s t := by
  obtain ⟨v, hv⟩ : ∃ v : State, { s.bare with bar := { barHeard .field 0x02 s with run := true, owe := false } } = v := ⟨_, rfl⟩
  obtain ⟨u, hu⟩ : ∃ u, resendHost v = u := ⟨_, rfl⟩
  have hk := resendHost_keeps v
  rw [hu] at hk
  have hvs : Keeps [.bar] s.bare v := hv ▸ Keeps.refl.bar (by decide)
  have hrun : exec (.gateState p) s = .next { emptied .field u with pending := s.pending } := by
    refine fieldFrame_runs h ?_ ((hk.same .xb (by decide)).trans (hvs.same .xb (by decide)))
    have howe : (hearing .field 0x02 s).bar.owe = true := ho
    simp only [hp, howe, Bool.and_self, ↓reduceIte]
    rw [← hu, ← hv]
    rfl
  obtain ⟨hunrep, hcredit, hstops⟩ := resendHost_does v
  rw [hu] at hunrep hcredit hstops
  have hbar : u.bar = { barHeard .field 0x02 s with run := true, owe := false } := by
    rw [hk.same .bar (by decide), ← hv]
  have hq : v.hostq = s.hostq := hvs.same .hostq (by decide)
  have hlive : u.hostq.live = s.hostq.live.filter (fun k => match s.recOf k with | some c => c.sent.isNone || !c.poisoned | none => true) := by
    rw [← hu, ← hv]
    rfl
  have hqueue : u.hostq.queue = bySlice s u.hostq.live := by
    rw [← hu, ← hv]
    rfl
  refine ⟨_, hrun, ?_, hunrep, hcredit.trans (congrArg HostQ.credit hq), hstops.trans (congrArg HostQ.stops hq), hqueue, hlive,
    fun k hkl c hc hs hpo => ?_, ?_⟩
  · show { u.bar with freed := u.bar.freed + u.bar.rxUsed, rxUsed := 0 } = _
    rw [hbar]
    rfl
  · have hmark := each_markAgain (gen := s.bar.peerGen) hs hpo s.hostq.live v ((hvs.recOf_eq k).trans hc)
    rw [if_pos hkl] at hmark
    refine Eq.trans ?_ hmark
    have hrec : u.recOf k = (v.each s.hostq.live (markAgain s.bar.peerGen)).recOf k := by
      rw [← hu, ← hv]
      rfl
    exact hrec
  · have hem : Keeps [.bar] u (emptied .field u) := Keeps.refl.bar (by decide)
    have hsu : Keeps [.regs, .firn, .bar, .hostq] s.bare u := hvs.andThen hk
    have hall : Keeps [.regs, .firn, .bar, .hostq] s.bare (emptied .field u) := hsu.andThen hem
    exact hall.bare (by decide)

end Sys2Proof.Machine

namespace Sys2Proof.Machine

set_option Elab.async false

-- WRITTEN and DISCARDED (R379)

theorem reportTags_none {p : BitVec 128} {d : Bool} {s : State} (h : ∀ e ∈ entries p, tagRec s e = none) :
    s.each (entries p) (fun e s => reportTag e d s) = s := by
  refine State.each_id fun e he => ?_
  unfold reportTag
  rw [h e he]

theorem reported_ignored {p : BitVec 128} {s : State} (h : barReady .field s) (hn : ∀ e ∈ entries p, tagRec s e = none) :
    exec (.written p) s = .next { s with out := [], bar := barTook .field 0x06 s } ∧
      exec (.discarded p) s = .next { s with out := [], bar := barTook .field 0x07 s } :=
  ⟨fieldFrame_runs (u := hearing .field 0x06 s) h (reportTags_none hn) rfl, fieldFrame_runs (u := hearing .field 0x07 s) h (reportTags_none hn) rfl⟩

theorem stopReported_live (k : Nat) (s : State) : (stopReported k s).hostq.live = s.hostq.live := by
  unfold stopReported
  dsimp only
  refine State.each_inv (f := _) (fun s => s.hostq.live) _ (fun x u => ?_) _
  split
  · exact congrArg HostQ.live ((barQueue_keeps ..).same .hostq (by decide))
  · rfl

/-- A tag's report completes the record of another die that it names. -/
theorem reportTag_completes {tag k : Nat} {d : Bool} {c : FirnRec} {s : State} (h : tagRec s tag = some (k, c)) (ho : c.msg.origin ≠ s.die) :
    (reportTag tag d s).recOf k = some { c with done := true } ∧ (∀ j, j ≠ k → (reportTag tag d s).recOf j = s.recOf j) ∧
      (reportTag tag d s).hostq.unrep = s.hostq.unrep.erase k ∧ (reportTag tag d s).hostq.live = s.hostq.live.erase k := by
  unfold reportTag
  rw [h]
  dsimp only
  obtain ⟨u, hu⟩ : ∃ u : State, { s with hostq := { s.hostq with
    unrep := s.hostq.unrep.erase k
    queue := tset [] s.hostq.queue c.msg.epoch.toNat ((tget [] s.hostq.queue c.msg.epoch.toNat).erase k)
    live := s.hostq.live.erase k } } = u := ⟨_, rfl⟩
  rw [hu]
  obtain ⟨v, hv⟩ : ∃ v, (if d then u.inc Reg.BAR_DISC_DISC else u) = v := ⟨_, rfl⟩
  rw [hv]
  have hsu : Keeps [.hostq] s u := hu ▸ Keeps.refl.hostq (by decide)
  have huv : Keeps [.regs] u v := by
    rw [← hv]
    split_ifs
    · exact State.inc_keeps ..
    · exact Keeps.refl
  have hsv : Keeps [.regs, .hostq] s v := hsu.andThen huv
  have hpins : (stopReported k v).pins = s.pins := ((stopReported_keeps ..).same .pins (by decide)).trans (hsv.same .pins (by decide))
  have hdie : c.msg.origin ≠ (stopReported k v).die := by
    unfold State.die
    rw [hpins]
    exact ho
  obtain ⟨hone, hothers, hq⟩ := completeHost_away k c (stopReported k v) hdie
  refine ⟨hone, fun j hj => ?_, ?_, ?_⟩
  · rw [hothers j hj, (stopReported_keeps ..).recOf_eq, hsv.recOf_eq]
  · rw [hq, stopReported_unrep, huv.same .hostq (by decide), ← hu]
  · rw [hq, stopReported_live, huv.same .hostq (by decide), ← hu]

/-- The frame of one tag, WRITTEN or DISCARDED. -/
theorem reported_completes {p : BitVec 128} {tag k : Nat} {typ : BitVec 8} {d : Bool} {c : FirnRec} {s : State} (h : barReady .field s)
    (he : entries p = [tag]) (ht : tagRec s tag = some (k, c)) (ho : c.msg.origin ≠ s.die) :
    ∃ t, run (rxBar .field typ fun s => s.each (entries p) fun e s => reportTag e d s) s = .next t ∧
      t.recOf k = some { c with done := true } ∧ (∀ j, j ≠ k → t.recOf j = s.recOf j) ∧
      t.hostq.unrep = s.hostq.unrep.erase k ∧ t.hostq.live = s.hostq.live.erase k := by
  obtain ⟨u, hu⟩ : ∃ u, reportTag tag d (hearing .field typ s) = u := ⟨_, rfl⟩
  obtain ⟨hone, hothers, hunrep, hlive⟩ := reportTag_completes (d := d) (s := hearing .field typ s) ht ho
  rw [hu] at hone hothers hunrep hlive
  have hrun := rxBar_runs (f := fun s => s.each (entries p) fun e s => reportTag e d s) h (u := u) (by rw [he]; exact hu)
  have hk := drainEntries_keeps .field u
  exact ⟨_, hrun, (hk.recOf_eq k).trans hone, fun j hj => (hk.recOf_eq j).trans (hothers j hj),
    (congrArg HostQ.unrep (hk.same .hostq (by decide))).trans hunrep, (congrArg HostQ.live (hk.same .hostq (by decide))).trans hlive⟩

-- VWRITE (R381)

section
variable {p : BitVec 128} {s : State}

theorem slot_val : (Fin.ofNat 32 (pf p 28 5)).val = pf p 28 5 := Nat.mod_eq_of_lt (p.extractLsb' 28 5).isLt

theorem vwrite_repeats {v : VRes} (h : barReady .field s) (hv : tget none s.acc.vres (pf p 28 5) = some v) (hg : v.gen = p.getLsbD 33) :
    (∀ (refused : Bool) (reason : Nat), v.result = some (refused, reason) → exec (.vwrite p) s = .next
      (({ s with out := [], bar := if s.bar.run then barWith 0x09 (vresultBits (pf p 28 5) v.gen refused reason) (barTook .field 0x08 s)
        else barTook .field 0x08 s } : State).inc Reg.BAR_DISC_VWDUP)) ∧
    (v.result = none → exec (.vwrite p) s = .next (({ s with out := [], bar := barTook .field 0x08 s } : State).inc Reg.BAR_DISC_VWDUP)) := by
  have hv' : tget none (hearing .field 0x08 s).acc.vres (pf p 28 5) = some v := hv
  have hg' : (v.gen == p.getLsbD 33) = true := beq_iff_eq.2 hg
  refine ⟨fun refused reason hr => ?_, fun hr => ?_⟩
  · obtain ⟨b, hb⟩ : ∃ b : BarS, (if s.bar.run then barWith 0x09 (vresultBits (pf p 28 5) v.gen refused reason) (barHeard .field 0x08 s)
      else barHeard .field 0x08 s) = b := ⟨_, rfl⟩
    have hrun : exec (.vwrite p) s = .next { emptied .field { (s.bare).inc Reg.BAR_DISC_VWDUP with bar := b } with pending := s.pending } := by
      refine fieldFrame_runs h ?_ rfl
      simp only [slot_val, hv', hg', hr, ↓reduceIte]
      unfold barCtl
      have hup : ((hearing .field 0x08 s).inc Reg.BAR_DISC_VWDUP).bar.st = .up := h.1
      have hr2 : ((hearing .field 0x08 s).inc Reg.BAR_DISC_VWDUP).bar.run = s.bar.run := rfl
      rw [hup, hr2, ← hb, ← hg]
      cases s.bar.run <;> rfl
    rw [hrun, ← hb]
    cases s.bar.run <;> rfl
  · have hrun : exec (.vwrite p) s = .next { emptied .field ((hearing .field 0x08 s).inc Reg.BAR_DISC_VWDUP) with pending := s.pending } := by
      refine fieldFrame_runs h ?_ rfl
      simp only [slot_val, hv', hg', hr, ↓reduceIte]
    exact hrun

theorem vwrite_writes (h : barReady .field s) (hv : ∀ v, tget none s.acc.vres (pf p 28 5) = some v → v.gen ≠ p.getLsbD 33) :
    exec (.vwrite p) s = .next { s with out := [], bar := barTook .field 0x08 s, acc := { s.acc with
      vres := tset none s.acc.vres (pf p 28 5) (some ⟨p.getLsbD 33, none⟩)
      writes := s.acc.writes ++ [⟨.barrier (Fin.ofNat 32 (pf p 28 5)), p.extractLsb' 0 12, p.extractLsb' 12 16,
        if s.su.open_ && !thawDue s then some s.time.now else none, s.epoch.num⟩] } } := by
  have hrun : exec (.vwrite p) s = .next { emptied .field (execVwrite.new (Fin.ofNat 32 (pf p 28 5)) (p.getLsbD 33) p (hearing .field 0x08 s)) with
      pending := s.pending } := by
    refine fieldFrame_runs h ?_ rfl
    have hv' : tget none (hearing .field 0x08 s).acc.vres (Fin.ofNat 32 (pf p 28 5)).val = tget none s.acc.vres (pf p 28 5) := by
      rw [slot_val]
      rfl
    dsimp only
    rw [hv']
    cases hs : tget none s.acc.vres (pf p 28 5) with
    | none => rfl
    | some v => exact if_neg (by rw [beq_iff_eq]; exact hv v hs)
  rw [hrun]
  unfold execVwrite.new
  rw [slot_val]
  rfl

-- the other frames (R188, R377, R388)

theorem barSyncRsp_corrects (h : barReady .field s) :
    (s.time.barT1 = none → exec (.barSyncRsp p) s = .next { s with out := [], bar := barTook .field 0x0B s }) ∧
    (∀ t1, s.time.barT1 = some t1 → exec (.barSyncRsp p) s = .next { s with
      out := [], time := { s.time with barT1 := none, barStep := false }
      bar := barWith 0x0C (pay (ofSgn 64 ((((s.t / 2 * 2 : Nat) : Int) - pf p 64 64 - (pf p 0 64 - t1.toNat)) / 2) + 2 ^ 64 * b2n s.time.barStep))
        (barTook .field 0x0B s) }) := by
  refine ⟨fun hn => ?_, fun t1 ht => ?_⟩
  · have hrun : exec (.barSyncRsp p) s = .next { emptied .field (hearing .field 0x0B s) with pending := s.pending } := by
      refine fieldFrame_runs h ?_ rfl
      have hn' : (hearing .field 0x0B s).time.barT1 = none := hn
      simp only [hn']
    exact hrun
  · obtain ⟨c, hcc⟩ : ∃ c,
      pay (ofSgn 64 ((((s.t / 2 * 2 : Nat) : Int) - pf p 64 64 - (pf p 0 64 - t1.toNat)) / 2) + 2 ^ 64 * b2n s.time.barStep) = c := ⟨_, rfl⟩
    rw [hcc]
    obtain ⟨v, hv⟩ : ∃ v : State, { hearing .field 0x0B s with time := { s.time with barT1 := none, barStep := false } } = v := ⟨_, rfl⟩
    have hrun : exec (.barSyncRsp p) s = .next { emptied .field (setBar .field (barWith 0x0C c (barOf .field v)) v) with pending := s.pending } := by
      refine fieldFrame_runs h ?_ (by rw [← hv]; rfl)
      have ht' : (hearing .field 0x0B s).time.barT1 = some t1 := ht
      simp only [ht']
      have hup : (barOf .field v).st = .up := by
        rw [← hv]
        exact h.1
      rw [← barQueue_eq .field 0x0C c v hup, ← hv, ← hcc]
      rfl
    rw [hrun, ← hv]
    rfl

theorem sliceStop_waits {l : List Nat} (h : barReady .field s) (hl : l = liveOf s (pf p 0 8)) :
    exec (.sliceStop p) s = .next { s with
      out := []
      bar := if l.isEmpty then barWith 0x12 (pay (pf p 0 8)) (barTook .field 0x11 s) else barTook .field 0x11 s
      hostq := { s.hostq with stops := s.hostq.stops.filter (·.1 != pf p 0 8) ++ [(pf p 0 8, l, 0)] } } := by
  obtain ⟨v, hv⟩ : ∃ v : State, { hearing .field 0x11 s with
    hostq := { s.hostq with stops := s.hostq.stops.filter (·.1 != pf p 0 8) ++ [(pf p 0 8, l, 0)] } } = v := ⟨_, rfl⟩
  have hup : (barOf .field v).st = .up := by
    rw [← hv]
    exact h.1
  have hrun : exec (.sliceStop p) s = .next { emptied .field
      (if l.isEmpty then setBar .field (barWith 0x12 (pay (pf p 0 8)) (barOf .field v)) v else v) with pending := s.pending } := by
    refine fieldFrame_runs h ?_ ?_
    · have hl' : liveOf (hearing .field 0x11 s) (pf p 0 8) = l := hl.symm
      simp only [hl']
      rw [← barQueue_eq .field 0x12 (pay (pf p 0 8)) v hup, ← hv]
      rfl
    · rw [← hv]
      split_ifs <;> rfl
  rw [hrun, ← hv]
  cases l.isEmpty <;> rfl

theorem sliceGo_ends (h : barReady .field s) :
    exec (.sliceGo p) s = .next { s with
      out := [], bar := barTook .field 0x13 s, hostq := { s.hostq with stops := s.hostq.stops.filter (·.1 != pf p 0 8) } } :=
  fieldFrame_runs (u := { hearing .field 0x13 s with hostq := { s.hostq with stops := s.hostq.stops.filter (·.1 != pf p 0 8) } }) h rfl rfl

/-- Slice credit grows by one entry of a CREDIT frame. -/
def creditBy (e : Nat) (s : State) : State :=
  { s with hostq := { s.hostq with credit := tset 0 s.hostq.credit (e % 256) (tget 0 s.hostq.credit (e % 256) + e / 256) } }

theorem each_creditBy (l : List Nat) (s : State) :
    ∃ c, s.each l creditBy = { s with hostq := { s.hostq with credit := c } } ∧
      ∀ sl, tget 0 c sl = tget 0 s.hostq.credit sl + ((l.filter fun e => e % 256 == sl).map (· / 256)).sum := by
  induction l generalizing s with
  | nil => exact ⟨s.hostq.credit, rfl, fun sl => (Nat.add_zero _).symm⟩
  | cons e l ih =>
    obtain ⟨c, hcc, hsum⟩ := ih (creditBy e s)
    refine ⟨c, hcc, fun sl => (hsum sl).trans ?_⟩
    show tget 0 (tset 0 s.hostq.credit (e % 256) (tget 0 s.hostq.credit (e % 256) + e / 256)) sl + _ = _
    by_cases he : e % 256 = sl
    · subst he
      rw [tget_tset_same, List.filter_cons_of_pos (p := fun x => x % 256 == e % 256) (beq_self_eq_true _), List.map_cons,
        List.sum_cons, Nat.add_assoc]
    · rw [tget_tset_ne _ _ _ _ (Ne.symm he), List.filter_cons_of_neg (p := fun x => x % 256 == sl) (by rw [beq_iff_eq]; exact he)]

theorem credit_grows (h : barReady .field s) : ∃ t, exec (.credit p) s = .next t ∧ t.bar = barTook .field 0x04 s ∧
    (∀ sl, tget 0 t.hostq.credit sl =
      tget 0 s.hostq.credit sl + (((entries p).filter fun e => e % 256 == sl).map (· / 256)).sum) ∧
    t.hostq = { s.hostq with credit := t.hostq.credit } ∧ Keeps [.out, .bar, .hostq] s t := by
  obtain ⟨c, hcc, hsum⟩ := each_creditBy (entries p) (hearing .field 0x04 s)
  obtain ⟨t, ht⟩ : ∃ t : State, { s.bare with bar := barTook .field 0x04 s, hostq := { s.hostq with credit := c } } = t := ⟨_, rfl⟩
  have hrun : exec (.credit p) s = .next { t with pending := s.pending } := by
    rw [← ht]
    exact fieldFrame_runs (u := { hearing .field 0x04 s with hostq := { s.hostq with credit := c } }) h hcc rfl
  refine ⟨_, hrun, by rw [← ht], fun sl => ?_, by rw [← ht], ?_⟩
  · rw [← ht]
    exact hsum sl
  · have hbar : Keeps [.bar] s.bare { s.bare with bar := barTook .field 0x04 s } := Keeps.refl.bar (by decide)
    have hall : Keeps [.bar, .hostq] s.bare t := ht ▸ (hbar.mono (by decide) : Keeps [.bar, .hostq] _ _).hostq (by decide)
    exact hall.bare (by decide)

end

-- an EVENT without its report (R378, R380)

theorem barEventRepeat_queues {k : Nat} {l before after q : List Nat} {c : FirnRec} {b : Tick} {s : State} (hup : s.bar.st = .up)
    (hrun : s.bar.run = true) (hu : s.hostq.unrep = k :: l) (hr : s.recOf k = some c) (hs : c.sent = some b) (hb : b.toNat + rtmo s ≤ s.t)
    (hl : s.hostq.live = before ++ k :: after) (hk : k ∉ before) (hq : tget [] s.hostq.queue c.msg.epoch.toNat = q) :
    exec .barEventRepeat s = .next ({ s with out := [], hostq := { s.hostq with
      unrep := l
      queue := tset [] s.hostq.queue c.msg.epoch.toNat
        (q.filter (fun x => !(k :: after).contains x) ++ k :: q.filter (fun x => (k :: after).contains x)) } }.setRec k
          (some { c with pendAgain := some false })) := by
  obtain ⟨t, ht⟩ : ∃ t : State, ({ s.bare with hostq := { s.hostq with
      unrep := l
      queue := tset [] s.hostq.queue c.msg.epoch.toNat
        (q.filter (fun x => !(k :: after).contains x) ++ k :: q.filter (fun x => (k :: after).contains x)) } } : State).setRec k
          (some { c with pendAgain := some false }) = t := ⟨_, rfl⟩
  suffices hexec : exec .barEventRepeat s = .next { t with pending := s.pending } by
    rw [hexec, ← ht]
    rfl
  refine run_eq ?_
  have hup' : s.bare.bar.st = .up := hup
  have hrun' : s.bare.bar.run = true := hrun
  have hr' : s.bare.recOf k = some c := hr
  have hu' : s.bare.hostq.unrep = k :: l := hu
  have hb' : b.toNat + rtmo s.bare ≤ s.bare.t := hb
  have hidle : (s.bare.bar.st != .up || !s.bare.bar.run) = false := by
    rw [hup', hrun']
    rfl
  simp only [hidle, Bool.false_eq_true, ↓reduceIte, hu', takeFirst, hr', hs, decide_eq_true hb']
  have hfind : (before ++ k :: after).findIdx? (· == k) = some before.length := by
    have hnone : before.findIdx? (· == k) = none := List.findIdx?_eq_none_iff.2 fun x hx => beq_eq_false_iff_ne.2 fun he => hk (he ▸ hx)
    rw [List.findIdx?_append, hnone, List.findIdx?_cons, if_pos (beq_self_eq_true k)]
    exact congrArg some (Nat.zero_add _)
  have hlate : s.hostq.live.drop ((s.hostq.live.findIdx? (· == k)).getD s.hostq.live.length) = k :: after := by
    rw [hl, hfind, Option.getD_some, List.drop_left]
  unfold queueAgain
  have hr2 : ({ s.bare with hostq := { s.bare.hostq with unrep := l } } : State).recOf k = some c := hr
  simp only [hr2]
  have hlive : ({ s.bare with hostq := { s.bare.hostq with unrep := l } } : State).hostq.live = s.hostq.live := rfl
  have hqueue : ({ s.bare with hostq := { s.bare.hostq with unrep := l } } : State).hostq.queue = s.hostq.queue := rfl
  have hpart : q.partition (fun x => !(k :: after).contains x) =
      (q.filter (fun x => !(k :: after).contains x), q.filter (fun x => (k :: after).contains x)) := by
    rw [List.partition_eq_filter_filter]
    congr 2
    funext x
    exact Bool.not_not _
  rw [hlive, hqueue, hlate, hq, hpart, ← ht]
  rfl

/-- Settles O36: what each frame of the host gate does on field die 0, and the EVENT that waits too long for its report. -/
theorem fieldFrames : Obligations.FieldFrames :=
  ⟨fun _ _ h ho => gateState_quiet h ho, fun _ _ h hp ho => gateState_resends h hp ho, fun _ _ h hn => reported_ignored h hn,
    fun p _ _ _ s h he ht ho =>
      have hw := reported_completes (typ := 0x06) (d := false) h he ht ho
      have hd := reported_completes (typ := 0x07) (d := true) h he ht ho
      ⟨hw.imp fun _ ⟨hrun, h1, h2, h3, h4⟩ => ⟨hrun, h1, h2, h3, h4, (execWritten_keeps p s).next _ hrun⟩,
        hd.imp fun _ ⟨hrun, h1, h2, h3, h4⟩ => ⟨hrun, h1, h2, h3, h4, (execDiscarded_keeps p s).next _ hrun⟩⟩,
    fun _ _ _ h hv hg => vwrite_repeats h hv hg, fun _ _ h hv => vwrite_writes h hv, fun _ _ h => barSyncRsp_corrects h,
    fun _ _ _ h hl => sliceStop_waits h hl, fun _ _ h => sliceGo_ends h,
    fun _ _ _ _ _ _ _ _ hup hrun hu hr hs hb hl hk hq => barEventRepeat_queues hup hrun hu hr hs hb hl hk hq, fun _ _ h => credit_grows h⟩

end Sys2Proof.Machine

namespace Sys2Proof.Machine

set_option Elab.async false

-- frames that either side takes (R373, R376)

theorem sideWaits_hearing {d : Side} {typ : BitVec 8} {s : State} (b : BarS) (h : barReady d s) :
    barWaits d (setBar d b (hearing d typ s)) = false := by
  obtain ⟨-, -, hw⟩ := h
  cases d <;> exact hw

/-- A frame that changes the side alone. -/
theorem sideFrame_runs {d : Side} {typ : BitVec 8} {f : State → State} {s : State} {b : BarS} (h : barReady d s)
    (hf : f (hearing d typ s) = setBar d b (hearing d typ s)) :
    run (rxBar d typ f) s = .next (setBar d { b with freed := b.freed + b.rxUsed, rxUsed := 0 } { s with out := [] }) := by
  rw [rxBar_empties h hf (sideWaits_hearing b h)]
  cases d <;> rfl

theorem sideFrames_taken {d : Side} {p : BitVec 128} {s : State} (h : barReady d s) :
    exec (.rxcred d p) s = .next (setBar d { barTook d 0x14 s with credit := min 16 ((barOf d s).credit + pf p 0 5) } { s with out := [] }) ∧
    exec (.echoReq d p) s = .next (setBar d (barWith 0x16 p (barTook d 0x15 s)) { s with out := [] }) ∧
    exec (.echoRsp d p) s = .next (setBar d (barTook d 0x16 s) { s with out := [] }) := by
  refine ⟨?_, ?_, ?_⟩
  · refine (sideFrame_runs (b := { barHeard d 0x14 s with credit := min 16 ((barOf d s).credit + pf p 0 5) }) h ?_).trans ?_
    · cases d <;> rfl
    · cases d <;> rfl
  · refine (sideFrame_runs (b := barWith 0x16 p (barHeard d 0x15 s)) h ?_).trans ?_
    · have hup : (barOf d (hearing d 0x15 s)).st = .up := by
        obtain ⟨hup, -⟩ := h
        cases d <;> exact hup
      refine (barQueue_eq d 0x16 p _ hup).trans ?_
      cases d <;> rfl
    · cases d <;> rfl
  · refine (sideFrame_runs (b := barHeard d 0x16 s) h ?_).trans ?_
    · cases d <;> rfl
    · cases d <;> rfl

theorem rxcredTimer_returns {d : Side} {s : State} (hup : (barOf d s).st = .up) (hz : (barOf d s).rxUsed = 0)
    (hdue : (barOf d s).freed ≠ 0 ∨ (barOf d s).lastRxcred.toNat + 1024 ≤ (clk d s).toNat) :
    exec (.rxcredTimer d) s = .next (setBar d (barWith 0x14 (pay ((barOf d s).freed + 2 ^ 16 * ((barOf d s).sent + 1).toNat +
      2 ^ 48 * (barOf d s).crcFails.toNat)) { barOf d s with freed := 0, lastRxcred := clk d s }) { s with out := [] }) := by
  have hb : barOf d s.bare = barOf d s := by cases d <;> rfl
  have hc : clk d s.bare = clk d s := by cases d <;> rfl
  obtain ⟨b, hbe⟩ : ∃ b : BarS, { barOf d s with freed := 0, lastRxcred := clk d s } = b := ⟨_, rfl⟩
  obtain ⟨p, hp⟩ : ∃ p, pay ((barOf d s).freed + 2 ^ 16 * ((barOf d s).sent + 1).toNat + 2 ^ 48 * (barOf d s).crcFails.toNat) = p := ⟨_, rfl⟩
  have hrun : exec (.rxcredTimer d) s = .next { setBar d (barWith 0x14 p b) (setBar d b s.bare) with pending := s.pending } := by
    refine run_eq ?_
    have hgo : ((barOf d s).st != .up ||
        (decide ((barOf d s).freed = 0) && decide ((clk d s).toNat < (barOf d s).lastRxcred.toNat + 1024))) = false := by
      rw [hup]
      rcases hdue with h | h
      · rw [decide_eq_false h]; rfl
      · rw [decide_eq_false (Nat.not_lt.2 h), Bool.and_false]; rfl
    simp only [drain_none d s.bare (by rw [hb]; exact hz), hb, hc, hgo, Bool.false_eq_true, ↓reduceIte, hbe, hp]
    rw [barQueue_eq d 0x14 p (setBar d b s.bare) (by rw [barOf_setBar, ← hbe]; exact hup), barOf_setBar]
  subst hbe hp
  refine hrun.trans ?_
  cases d <;> rfl

-- frames that are rejected (R371, R372, R383)

theorem badCrc_runs {d : Side} {f : BarFrame} {s : State} (hd : (barOf d s).st ≠ .down) (hs : hasSide d s = true) (hf : barCrc f ≠ f.extractLsb' 0 16)
    {b : BarS} (hb : { barOf d s with
      crcFails := if (barOf d s).crcFails == 0xFFFF then (barOf d s).crcFails else (barOf d s).crcFails + 1
      failRun := (barOf d s).failRun + 1 } = b) {u t : State} (hu : (match d with | .field => s.bare.inc Reg.BAR_ERR_CRC | .host => s.bare) = u)
    (ht : (if 8 ≤ (barOf d s).failRun + 1 then barDown d 2 (setBar d b u) else setBar d b u) = t) :
    exec (.barFrameReject d f) s = .next { t with pending := s.pending } := by
  refine run_eq ?_
  have hbb : barOf d s.bare = barOf d s := by cases d <;> rfl
  have hss : hasSide d s.bare = hasSide d s := by cases d <;> rfl
  have hgo : ((barOf d s).st == .down || !hasSide d s) = false := by
    rw [hs, beq_eq_false_iff_ne.2 hd]
    rfl
  have hcrc : (barCrc f != f.extractLsb' 0 16) = true := bne_iff_ne.2 hf
  simp only [hbb, hss, hgo, hcrc, Bool.false_eq_true, ↓reduceIte, hb]
  subst hu ht
  cases d <;> rfl

theorem inc_rd_self (s : State) (f : Fld) (n : Nat) : (s.inc f n).rd f = min (2 ^ f.w - 1) (s.rd f + n) := by
  unfold State.inc
  rw [State.rd_wr_same, Nat.mod_eq_of_lt]
  have := Nat.two_pow_pos f.w
  omega

theorem barFrameReject_counts {d : Side} {f : BarFrame} {s : State} (hd : (barOf d s).st ≠ .down) (hs : hasSide d s = true)
    (hf : barCrc f ≠ f.extractLsb' 0 16) (hfew : (barOf d s).failRun + 1 < 8) :
    ∃ t, exec (.barFrameReject d f) s = .next t ∧
      barOf d t = { barOf d s with
        failRun := (barOf d s).failRun + 1
        crcFails := if (barOf d s).crcFails == 0xFFFF then (barOf d s).crcFails else (barOf d s).crcFails + 1 } ∧
      (d = .field → t.rd Reg.BAR_ERR_CRC = min (2 ^ 16 - 1) (s.rd Reg.BAR_ERR_CRC + 1)) := by
  refine ⟨_, badCrc_runs hd hs hf rfl rfl (if_neg (Nat.not_le.2 hfew)), ?_, ?_⟩
  · cases d <;> rfl
  · rintro rfl
    exact inc_rd_self s.bare Reg.BAR_ERR_CRC 1

theorem barFrameReject_downs {d : Side} {f : BarFrame} {s : State} (hs : hasSide d s = true)
    (hf : barCrc f ≠ f.extractLsb' 0 16) (hmany : 8 ≤ (barOf d s).failRun + 1) (hup : (barOf d s).st = .up) :
    ∃ t, exec (.barFrameReject d f) s = .next t ∧
      (barOf d t).st = (if hellos d (barOf d s) s then .hello else .down) ∧
      (d = .field → s.latchOf 5147 = none → s.time.sleep = .awake → t.rd Reg.BAR_STAT_CAUSE = 2) := by
  obtain ⟨b, hb⟩ : ∃ b : BarS, { barOf d s with
      crcFails := if (barOf d s).crcFails == 0xFFFF then (barOf d s).crcFails else (barOf d s).crcFails + 1
      failRun := (barOf d s).failRun + 1 } = b := ⟨_, rfl⟩
  obtain ⟨u, hu⟩ : ∃ u, (match d with | .field => s.bare.inc Reg.BAR_ERR_CRC | .host => s.bare) = u := ⟨_, rfl⟩
  obtain ⟨t, ht⟩ : ∃ t, barDown d 2 (setBar d b u) = t := ⟨_, rfl⟩
  have hrun := badCrc_runs (t := t) (by rw [hup]; decide) hs hf hb hu ((if_pos hmany).trans ht)
  have hfell : barFell d 2 b s.bare t := by
    have hdown := barDown_fell d 2 b u (by decide) (by rw [← hb]; exact hup)
    rw [ht, ← hu] at hdown
    cases d with
    | field => exact barFell_wr .field 2 b Reg.BAR_ERR_CRC _ s.bare t (by decide) hdown
    | host => exact hdown
  have hfell' := barFell_bare d 2 b s t hfell
  have hleft : (barLeft d 2 b s).st = if hellos d (barOf d s) s then .hello else .down := by
    rw [← hb]
    rfl
  cases d with
  | field =>
    obtain ⟨hbar, -, -, -, -, hshown, -⟩ := hfell'
    exact ⟨_, hrun, (congrArg BarS.st hbar).trans hleft, fun _ hl ha => (hshown hl ha).1⟩
  | host => exact ⟨_, hrun, (congrArg BarS.st hfell'.1).trans hleft, fun h => absurd h (by decide)⟩

theorem barFrameReject_badType {d : Side} {f : BarFrame} {s : State} (hd : (barOf d s).st ≠ .down) (hs : hasSide d s = true)
    (hf : barCrc f = f.extractLsb' 0 16) (ht : sends (otherSide d) (f.extractLsb' 144 8) = false) :
    ∃ t, exec (.barFrameReject d f) s = .next t ∧ barOf d t = { barOf d s with failRun := 0, lastRx := clk d s } ∧
      (d = .field → t.rd Reg.BAR_ERR_BADTYPE = min (2 ^ 8 - 1) (s.rd Reg.BAR_ERR_BADTYPE + 1)) := by
  obtain ⟨u, hu⟩ : ∃ u, setBar d { barOf d s with failRun := 0, lastRx := clk d s } s.bare = u := ⟨_, rfl⟩
  have hrun : exec (.barFrameReject d f) s =
      .next { (match d with | .field => u.inc Reg.BAR_ERR_BADTYPE | .host => u) with pending := s.pending } := by
    refine run_eq ?_
    have hgo : ((barOf d s.bare).st == .down || !hasSide d s.bare) = false := by
      have hs' : hasSide d s.bare = true := by cases d <;> exact hs
      have hd' : (barOf d s.bare).st ≠ .down := by cases d <;> exact hd
      rw [hs', beq_eq_false_iff_ne.2 hd']
      rfl
    have hcrc : (barCrc f != f.extractLsb' 0 16) = false := bne_eq_false_iff_eq.2 hf
    rw [← hu]
    cases d <;> simp only [hgo, hcrc, Bool.false_eq_true, ↓reduceIte] <;>
      exact if_neg (by rw [Bool.not_eq_true]; exact ht)
  refine ⟨_, hrun, ?_, ?_⟩
  · rw [← hu]
    cases d <;> rfl
  · rintro rfl
    refine (inc_rd_self u Reg.BAR_ERR_BADTYPE 1).trans ?_
    rw [← hu]
    rfl

-- what a transmit slot carries (R375, R378)

/-- The slot of a side whose frame leaves. -/
theorem slot_sends {d : Side} {typ : BitVec 8} {p : BitVec 128} {b : BarS} {s : State}
    (h : d = .host → s.gate.writtenTags = [] ∧ s.gate.discTags = [])
    (hscr : b.scr = (barOf d s).scr) (hb : slotBody d s.bare = sendBar d typ p (setBar d b s.bare)) :
    exec (.barTransmitSlot d) s =
      .next (setBar d (barSent typ p b) { s with out := [.bar d (barBlocks (barOf d s).scr (some (barFrame typ p)))] }) := by
  rw [transmit_eq d s h, run_eq (hb.trans (sendBar_eq ..)), barOf_setBar, hscr]
  cases d <;> rfl

theorem transmit_frames {d : Side} {typ : BitVec 8} {p : BitVec 128} {l : List (BitVec 8 × BitVec 128)} {s : State}
    (h : d = .host → s.gate.writtenTags = [] ∧ s.gate.discTags = []) (hd : (barOf d s).st ≠ .down) :
    ((barOf d s).urgent = (typ, p) :: l → exec (.barTransmitSlot d) s =
      .next (setBar d (barSent typ p { barOf d s with urgent := l })
        { s with out := [.bar d (barBlocks (barOf d s).scr (some (barFrame typ p)))] })) ∧
    ((barOf d s).st = .up → (barOf d s).urgent = [] → (d = .field → barSyncDue s = false) →
      ((barOf d s).credit ≠ 0 → (barOf d s).ctl = (typ, p) :: l → exec (.barTransmitSlot d) s =
        .next (setBar d (barSent typ p { barOf d s with ctl := l })
          { s with out := [.bar d (barBlocks (barOf d s).scr (some (barFrame typ p)))] }))) := by
  have hb : barOf d s.bare = barOf d s := by cases d <;> rfl
  refine ⟨fun hu => ?_, fun hup hu hsync hcr hctl => ?_⟩
  · refine slot_sends (b := { barOf d s with urgent := l }) h rfl ?_
    rw [slotBody_urgent d typ p l s.bare (by rw [hb]; exact hd) (by rw [hb]; exact hu), hb]
  · refine slot_sends (b := { barOf d s with ctl := l }) h rfl ?_
    rw [slotBody_ctl d typ p l s.bare (by rw [hb]; exact hup) (by rw [hb]; exact hu) hsync (by rw [hb]; exact hcr) (by rw [hb]; exact hctl), hb]

theorem slotBody_down {d : Side} {s : State} (h : (barOf d s).st = .down) : slotBody d s = sendIdle d s := by
  unfold slotBody
  rw [h]

theorem slotBody_hello {d : Side} {s : State} (h : (barOf d s).st = .hello) (hu : (barOf d s).urgent = []) : slotBody d s = sendIdle d s := by
  unfold slotBody
  rw [h, hu]

theorem transmit_idle {d : Side} {s : State} (hs : hasSide d s = true) (h : d = .host → s.gate.writtenTags = [] ∧ s.gate.discTags = [])
    (hi : (barOf d s).st = .down ∨ ((barOf d s).st = .hello ∧ (barOf d s).urgent = []) ∨
      ((barOf d s).st = .up ∧ (barOf d s).urgent = [] ∧ (barOf d s).credit = 0 ∧ (d = .field → barSyncDue s = false))) :
    exec (.barTransmitSlot d) s = .next (setBar d { barOf d s with scr := scrBlock (barOf d s).scr 0 }
      { s with out := [.bar d (barBlocks (barOf d s).scr none)] }) := by
  have hb : barOf d s.bare = barOf d s := by cases d <;> rfl
  have hidle : slotBody d s.bare = sendIdle d s.bare := by
    rcases hi with hi | ⟨hi, hu⟩ | ⟨hi, hu, hcr, hsync⟩
    · exact slotBody_down (by rw [hb]; exact hi)
    · exact slotBody_hello (by rw [hb]; exact hi) (by rw [hb]; exact hu)
    · exact slotBody_wait d s.bare (by rw [hb]; exact hi) (by rw [hb]; exact hu) hsync (by rw [hb]; exact hcr)
  have hsend : sendIdle d s.bare = (setBar d { barOf d s with scr := scrBlock (barOf d s).scr 0 } s.bare).emit
      (.bar d (barBlocks (barOf d s).scr none)) := by
    unfold sendIdle
    rw [if_pos (show hasSide d s.bare = true by cases d <;> exact hs), hb]
  rw [transmit_eq d s h, run_eq (hidle.trans hsend)]
  cases d <;> rfl

theorem transmit_sync {s : State} (hup : s.bar.st = .up) (hu : s.bar.urgent = []) (hsync : barSyncDue s = true) :
    exec (.barTransmitSlot .field) s = .next { s with
      out := [.bar .field (barBlocks s.bar.scr (some (barFrame 0x0A 0)))], bar := barSent 0x0A 0 s.bar
      time := { s.time with barT1 := some (s.time.now &&& ~~~1), lastBar := s.time.now } } := by
  rw [transmit_eq .field s (fun h => absurd h (by decide)), run_eq ((slotBody_sync s.bare hup hu hsync).trans (sendBar_eq ..))]
  rfl

/-- The queue toward the host gate once the next EVENT of a slice has left (R377, R388). -/
def queueSent (sl k : Nat) (c : FirnRec) (h : HostQ) : HostQ :=
  { h with
    queue := tset [] h.queue sl ((tget [] h.queue sl).drop 1), unrep := h.unrep ++ [k]
    credit := tset 0 h.credit sl (tget 0 h.credit sl - 1), rot := (sl + 1) % 256
    stops := if c.sent.isNone then countStop sl h.stops else h.stops }

/-- An EVENT that is sent again is counted, by whether it is flagged (R380, R385). -/
def countAgain (c : FirnRec) (s : State) : State :=
  match c.pendAgain with
  | some true => s.inc Reg.BAR_RES_FLAGGED
  | some false => s.inc Reg.BAR_RES_RESENT
  | none => s

theorem countAgain_keeps (c : FirnRec) (s : State) : Keeps [.regs] s (countAgain c s) := by
  unfold countAgain
  split
  · exact State.inc_keeps ..
  · exact State.inc_keeps ..
  · exact Keeps.refl

theorem transmit_event {sl k : Nat} {cl : Cls} {c : FirnRec} {m : Msg} {s : State} (hup : s.bar.st = .up) (hu : s.bar.urgent = [])
    (hctl : s.bar.ctl = []) (hsync : barSyncDue s = false) (hcr : s.bar.credit ≠ 0) (hn : nextSlice s = some (sl, k, cl))
    (hr : s.recOf k = some c) (hm : m = (if c.pendAgain = some true then c.msg.flag else c.msg)) :
    ∃ t, exec (.barTransmitSlot .field) s = .next t ∧
      t.out = [.bar .field (barBlocks s.bar.scr (some (barFrame 0x05 (eventPayload k { c with msg := m }))))] ∧
      t.recOf k = some { c with msg := m, sent := some s.time.now, sentGen := s.bar.peerGen, pendAgain := none } ∧
      t.bar.credit = s.bar.credit - 1 ∧ t.regs = (countAgain c s).regs ∧ t.hostq = queueSent sl k c s.hostq ∧
      Keeps [.out, .regs, .firn, .bar, .hostq] s t := by
  obtain ⟨r, hre⟩ : ∃ r : FirnRec, { c with msg := m, sent := some s.time.now, sentGen := s.bar.peerGen, pendAgain := none } = r := ⟨_, rfl⟩
  obtain ⟨v, hv⟩ : ∃ v : State, ({ s.bare with hostq := queueSent sl k c s.hostq } : State).setRec k (some r) = v := ⟨_, rfl⟩
  obtain ⟨w, hw⟩ : ∃ w, countAgain c v = w := ⟨_, rfl⟩
  have hflag : (if c.pendAgain == some true then c.msg.flag else c.msg) = m := by
    rw [hm]
    simp only [beq_iff_eq]
  have hsend : sendEvent (sl, k, cl) s.bare = sendBar .field 0x05 (eventPayload k { c with msg := m }) w := by
    have hr' : s.bare.recOf k = some c := hr
    unfold sendEvent noteSent
    simp only [hr', hflag]
    rw [← hw, ← hv, ← hre]
    rfl
  have hrun : exec (.barTransmitSlot .field) s =
      .next { sendBar .field 0x05 (eventPayload k { c with msg := m }) w with pending := s.pending } := by
    rw [transmit_eq .field s (fun h => absurd h (by decide))]
    exact run_eq ((slotBody_event (sl, k, cl) s.bare hup hu hsync hcr hctl hn).trans hsend)
  have hsv : Keeps [.firn, .hostq] s.bare v := by
    have hq : Keeps [.hostq] s.bare { s.bare with hostq := queueSent sl k c s.hostq } := Keeps.refl.hostq (by decide)
    rw [← hv]
    exact hq.andThen (State.setRec_keeps ..)
  have hvw : Keeps [.regs] v w := hw ▸ countAgain_keeps c v
  have hsw : Keeps [.regs, .firn, .hostq] s.bare w := hsv.andThen hvw
  have hbar : w.bar = s.bar := hsw.same .bar (by decide)
  have hout : w.out = [] := hsw.same .out (by decide)
  rw [sendBar_eq] at hrun
  refine ⟨_, hrun, ?_, ?_, ?_, ?_, ?_, ?_⟩
  · show w.out ++ [.bar .field (barBlocks w.bar.scr _)] = _
    rw [hout, hbar]
    rfl
  · refine Eq.trans (b := w.recOf k) rfl ((hvw.recOf_eq k).trans ?_)
    rw [← hv, hre]
    exact State.recOf_setRec ..
  · show w.bar.credit - 1 = _
    rw [hbar]
  · show w.regs = _
    rw [← hw, ← hv]
    unfold countAgain
    split <;> rfl
  · show w.hostq = _
    rw [hvw.same .hostq (by decide), ← hv]
    rfl
  · have hx : Keeps [.out, .bar] w (setBar .field (barSent 0x05 (eventPayload k { c with msg := m }) (barOf .field w))
        { w with out := w.out ++ [.bar .field (barBlocks (barOf .field w).scr (some (barFrame 0x05 (eventPayload k { c with msg := m }))))] }) := by
      have ho : Keeps [.out] w { w with
        out := w.out ++ [.bar .field (barBlocks (barOf .field w).scr (some (barFrame 0x05 (eventPayload k { c with msg := m }))))] } :=
        Keeps.refl.out (by decide)
      have hb : Keeps [.out, .bar] w _ := ho.mono (by decide)
      exact hb.bar (by decide)
    have hall : Keeps [.out, .regs, .firn, .bar, .hostq] s.bare _ := hsw.andThen hx
    exact hall.bare (by decide)

-- frames that the host gate takes (R188, R387)

section
variable {p : BitVec 128} {s : State}

/-- A frame of the host gate that leaves what its intake holds. -/
theorem gateFrame_runs {typ : BitVec 8} {f : State → State} {u : State} (h : barReady .host s) (hu : f (hearing .host typ s) = u)
    (hh : u.gate.held = s.gate.held) : run (rxBar .host typ f) s = .next { emptied .host u with pending := s.pending } := by
  refine rxBar_empties h hu ?_
  unfold barWaits
  rw [hh]
  exact h.2.2

theorem fieldState_taken (h : barReady .host s) :
    exec (.fieldState p) s = .next { s with out := [], gate := { s.gate with
      bar := barTook .host 0x03 s, fieldOpen := p.getLsbD 0, fieldAlost := p.getLsbD 1 } } :=
  gateFrame_runs (u := { hearing .host 0x03 s with gate := { (hearing .host 0x03 s).gate with
    fieldOpen := p.getLsbD 0, fieldAlost := p.getLsbD 1 } }) h rfl rfl

theorem barSyncReq_answered (h : barReady .host s) :
    exec (.barSyncReq p) s = .next { s with out := [], gate := { s.gate with
      bar := barWith 0x0B (pay (s.gate.now.toNat / 2 * 2 + 2 ^ 64 * (s.gate.now.toNat / 2 * 2))) (barTook .host 0x0A s) } } := by
  obtain ⟨q, hq⟩ : ∃ q, pay (s.gate.now.toNat / 2 * 2 + 2 ^ 64 * (s.gate.now.toNat / 2 * 2)) = q := ⟨_, rfl⟩
  have hrun : exec (.barSyncReq p) s = .next
      { emptied .host (setBar .host (barWith 0x0B q (barHeard .host 0x0A s)) (hearing .host 0x0A s)) with pending := s.pending } := by
    refine gateFrame_runs h ?_ rfl
    rw [← hq]
    exact barQueue_eq .host 0x0B _ (hearing .host 0x0A s) h.1
  rw [hrun, hq]
  rfl

theorem timeTrim_steps (h : barReady .host s) (hs : p.getLsbD 64 = true) :
    exec (.timeTrim p) s = .next { s with out := [], gate := { s.gate with
      bar := barTook .host 0x0C s, now := s.gate.now + p.extractLsb' 0 64, slew := 0 } } := by
  have hrun : exec (.timeTrim p) s = .next { emptied .host { hearing .host 0x0C s with gate := { (hearing .host 0x0C s).gate with
      now := s.gate.now + p.extractLsb' 0 64, slew := 0 } } with pending := s.pending } := gateFrame_runs h (if_pos hs) rfl
  exact hrun

theorem timeTrim_slews (h : barReady .host s) (hs : p.getLsbD 64 = false) :
    exec (.timeTrim p) s = .next { s with out := [], gate := { s.gate with
      bar := barTook .host 0x0C s, slew := sgn 64 (p.extractLsb' 0 64).toNat } } := by
  have hrun : exec (.timeTrim p) s = .next { emptied .host { hearing .host 0x0C s with gate := { (hearing .host 0x0C s).gate with
      slew := sgn 64 (p.extractLsb' 0 64).toNat } } with pending := s.pending } :=
    gateFrame_runs h (if_neg (by rw [hs]; exact Bool.false_ne_true)) rfl
  exact hrun

theorem gate_keeps_of {g : GateS} : Keeps [.out, .gate] s { s with out := [], gate := g } := by
  have h : Keeps [.gate] s.bare { s.bare with gate := g } := Keeps.refl.gate (by decide)
  exact h.bare (by decide)

theorem hostFrames_taken (h : barReady .host s) :
    (∃ t, exec (.fieldState p) s = .next t ∧ t.gate.fieldOpen = p.getLsbD 0 ∧ t.gate.bar = barTook .host 0x03 s ∧ Keeps [.out, .gate] s t) ∧
    (∃ t, exec (.barSyncReq p) s = .next t ∧
      t.gate.bar = barWith 0x0B (pay (s.gate.now.toNat / 2 * 2 + 2 ^ 64 * (s.gate.now.toNat / 2 * 2))) (barTook .host 0x0A s) ∧
      Keeps [.out, .gate] s t) ∧
    (∃ t, exec (.timeTrim p) s = .next t ∧ t.gate.bar = barTook .host 0x0C s ∧
      t.gate.now = (if p.getLsbD 64 then s.gate.now + p.extractLsb' 0 64 else s.gate.now) ∧ Keeps [.out, .gate] s t) := by
  refine ⟨⟨_, fieldState_taken h, rfl, rfl, gate_keeps_of⟩, ⟨_, barSyncReq_answered h, rfl, gate_keeps_of⟩, ?_⟩
  cases hs : p.getLsbD 64 with
  | true => exact ⟨_, timeTrim_steps h hs, rfl, rfl, gate_keeps_of⟩
  | false => exact ⟨_, timeTrim_slews h hs, rfl, rfl, gate_keeps_of⟩

end

/-- Settles O38: the frames that either side takes, rejects and sends, slot by slot. -/
theorem barrierTraffic : Obligations.BarrierTraffic :=
  ⟨fun _ _ _ h => sideFrames_taken h, fun _ _ hup hz hdue => rxcredTimer_returns hup hz hdue,
    fun _ _ _ hd hs hf => ⟨fun hfew => barFrameReject_counts hd hs hf hfew, fun hmany hup => barFrameReject_downs hs hf hmany hup⟩,
    fun _ _ _ hd hs hf ht => barFrameReject_badType hd hs hf ht, fun _ _ _ _ _ h hd => transmit_frames h hd,
    fun _ _ hs h hi => transmit_idle hs h hi, fun _ hup hu hsync => transmit_sync hup hu hsync,
    fun _ _ _ _ _ _ hup hu hctl hsync hcr hn hr hm => transmit_event hup hu hctl hsync hcr hn hr hm, fun _ _ h => hostFrames_taken h⟩

end Sys2Proof.Machine

namespace Sys2Proof.Machine

set_option Elab.async false

-- loops and invariants

/-- What every turn of a loop keeps, the loop keeps. -/
theorem State.each_invariant {α : Type} {P : State → Prop} {f : α → State → State} (h : ∀ a s, P s → P (f a s)) (l : List α) (s : State)
    (hs : P s) : P (s.each l f) := by
  unfold State.each
  induction l generalizing s with
  | nil => exact hs
  | cons a l ih => exact ih _ (h a s hs)

/-- What one turn of a loop brings about and every turn keeps, the loop brings about. -/
theorem State.each_establishes {α : Type} {P : State → Prop} {f : α → State → State} {a : α} {l : List α} (ha : a ∈ l)
    (hf : ∀ s, P (f a s)) (h : ∀ a s, P s → P (f a s)) (s : State) : P (s.each l f) := by
  induction l generalizing s with
  | nil => exact absurd ha List.not_mem_nil
  | cons b l ih =>
    rcases List.mem_cons.1 ha with rfl | ha
    · exact State.each_invariant h l _ (hf s)
    · exact ih ha (f b s)

-- what the host gate's shared steps leave

/-- The host gate without its side of the barrier, its slices and its notifications. -/
def gateCore (s : State) : GateS := { s.gate with bar := {}, slices := [], msix := [] }

theorem gateCore_keeps {w : List Part} {s t : State} (h : Keeps w s t) (hp : Part.gate ∉ w := by decide) : gateCore t = gateCore s := by
  unfold gateCore
  rw [h.same .gate hp]

@[simp] theorem gateCore_setSlice (i : Nat) (x : Slice) (s : State) : gateCore (s.setSlice i x) = gateCore s := rfl

@[simp] theorem gateCore_barQueue (d : Side) (typ : BitVec 8) (p : BitVec 128) (s : State) : gateCore (barQueue d typ p s) = gateCore s := by
  unfold barQueue
  dsimp only
  cases d <;> split_ifs <;> rfl

@[simp] theorem gateCore_gateEvt (f : Fld) (s : State) : gateCore (gateEvt f s) = gateCore s := by
  unfold gateEvt
  dsimp only
  split_ifs <;> rfl

@[simp] theorem gateCore_drainEntries (d : Side) (s : State) : gateCore (drainEntries d s) = gateCore s := by
  unfold drainEntries
  dsimp only
  split_ifs
  · rfl
  · cases d <;> rfl

@[simp] theorem gateCore_grantCredit (l : List Nat) (s : State) : gateCore (grantCredit l s) = gateCore s := by
  unfold grantCredit
  split_ifs
  · rfl
  · dsimp only
    refine (State.each_inv gateCore _ (fun x u => gateCore_barQueue ..) _).trans ?_
    exact State.each_inv gateCore _
      (f := fun (e : Nat × Nat) s => s.setSlice e.1 { s.slice e.1 with granted := (s.slice e.1).granted + e.2 }) (fun x u => rfl) s

/-- A grant of credit changes what a slice has been granted alone. -/
theorem grantCredit_slice (l : List Nat) (s : State) (i : Nat) : ∃ g, (grantCredit l s).slice i = { s.slice i with granted := g } := by
  have hgrant (due : List (Nat × Nat)) (s : State) :
      ∃ g, (s.each due fun e s => s.setSlice e.1 { s.slice e.1 with granted := (s.slice e.1).granted + e.2 }).slice i =
        { s.slice i with granted := g } := by
    unfold State.each
    induction due generalizing s with
    | nil => exact ⟨_, rfl⟩
    | cons e due ih =>
      obtain ⟨g, hg⟩ := ih (s.setSlice e.1 { s.slice e.1 with granted := (s.slice e.1).granted + e.2 })
      by_cases hi : i = e.1
      · subst hi
        rw [State.slice_setSlice] at hg
        exact ⟨g, hg⟩
      · rw [State.slice_setSlice_ne _ _ hi] at hg
        exact ⟨g, hg⟩
  unfold grantCredit
  split_ifs
  · exact ⟨_, rfl⟩
  · dsimp only
    obtain ⟨g, hg⟩ := hgrant ((l.map fun i => (i, grantDue s i)).filter fun e => e.2 != 0) s
    exact ⟨g, (State.each_inv (f := _) (fun s => s.slice i) _ (fun x u => barQueue_slice ..) _).trans hg⟩

/-- Where nothing falls due, nothing is granted. -/
theorem grantCredit_nothing {i : Nat} {s : State} (h : grantDue s i = 0) : grantCredit [i] s = s := by
  unfold grantCredit
  split_ifs
  · rfl
  · rw [List.map_singleton, h]
    rfl

/-- The control frames that wait stay in their order before those that follow. -/
theorem barQueue_ctl {x : BitVec 8 × BitVec 128} (d : Side) (typ : BitVec 8) (p : BitVec 128) {s : State} (h : x ∈ s.gate.bar.ctl) :
    x ∈ (barQueue d typ p s).gate.bar.ctl := by
  unfold barQueue
  dsimp only
  cases d with
  | field => split_ifs <;> exact h
  | host =>
    split_ifs
    · exact h
    · exact h
    · exact List.mem_append_left _ h

theorem grantCredit_ctl {x : BitVec 8 × BitVec 128} (l : List Nat) {s : State} (h : x ∈ s.gate.bar.ctl) : x ∈ (grantCredit l s).gate.bar.ctl := by
  unfold grantCredit
  split_ifs
  · exact h
  · refine State.each_invariant (P := fun s => x ∈ s.gate.bar.ctl) (fun a s h => barQueue_ctl .host 0x04 (creditPayload a) h) _ _ ?_
    exact State.each_invariant (P := fun s => x ∈ s.gate.bar.ctl)
      (f := fun (e : Nat × Nat) s => s.setSlice e.1 { s.slice e.1 with granted := (s.slice e.1).granted + e.2 }) (fun _ _ h => h) _ s h

-- a host reset (R414)

/-- What the loop over the slices leaves of one: free, or as it was where its index has no entry. -/
theorem wipe_free (W : Nat → State → State) (i : Nat) (hW : ∀ k u, (W k u).slice i = u.slice i) (l : Tbl Slice) (u : State)
    (h : (∃ g, u.slice i = { granted := g }) ∨ i ∈ l.map (·.1)) :
    ∃ g, (u.each l fun e s => (W e.1 s).setSlice e.1 { ({} : Slice) with granted := e.2.granted }).slice i = { granted := g } := by
  unfold State.each
  induction l generalizing u with
  | nil => exact h.resolve_right List.not_mem_nil
  | cons a l ih =>
    refine ih _ ?_
    by_cases hi : i = a.1
    · subst hi
      exact .inl ⟨_, State.slice_setSlice ..⟩
    · rcases h with ⟨g, hg⟩ | h
      · exact .inl ⟨g, (State.slice_setSlice_ne _ _ hi).trans ((hW ..).trans hg)⟩
      · exact .inr ((List.mem_cons.1 h).resolve_left hi)

/-- A row of fields is cleared. -/
def clearRow (row : Nat → Fld) (l : List Nat) (s : State) : State := s.each l fun w s => s.wr (row w) 0

theorem wr_zero_keeps_zero {f g : Fld} {s : State} (hr : f.rst = g.rst) (h : s.rd f = 0) : (s.wr g 0).rd f = 0 := by
  by_cases hk : f.key = g.key
  · unfold State.rd
    rw [hk, hr]
    exact (State.rd_wr_same s g 0).trans (Nat.zero_mod _)
  · rw [State.rd_wr_ne _ _ hk, h]

theorem clearRow_zero {f : Fld} {row : Nat → Fld} (hr : ∀ w, f.rst = (row w).rst) (l : List Nat) {s : State} (h : s.rd f = 0) :
    (clearRow row l s).rd f = 0 :=
  State.each_invariant (P := fun s => s.rd f = 0) (f := fun w s => s.wr (row w) 0) (fun w _ h => wr_zero_keeps_zero (hr w) h) l s h

theorem clearRow_clears {row : Nat → Fld} (hr : ∀ v w, (row v).rst = (row w).rst) {l : List Nat} {w : Nat} (hw : w ∈ l) (s : State) :
    (clearRow row l s).rd (row w) = 0 :=
  State.each_establishes (P := fun s => s.rd (row w) = 0) (f := fun w s => s.wr (row w) 0) hw
    (fun s => (State.rd_wr_same s (row w) 0).trans (Nat.zero_mod _)) (fun v _ h => wr_zero_keeps_zero (hr w v) h) s

theorem clearRow_gate (row : Nat → Fld) (l : List Nat) (s : State) : (clearRow row l s).gate = s.gate :=
  State.each_inv State.gate l (f := fun w s => s.wr (row w) 0) (fun _ _ => rfl) s

/-- A slice is freed, with its row of dirty bits. -/
def wipeSlice (row : Nat → Nat → Fld) (l : List Nat) (e : Nat × Slice) (s : State) : State :=
  (clearRow (row e.1) l s).setSlice e.1 { ({} : Slice) with granted := e.2.granted }

/-- Every slice is freed, with its dirty bits. -/
def wipeRows (row : Nat → Nat → Fld) (l : List Nat) (s : State) : State := s.each s.gate.slices (wipeSlice row l)

section
variable (row : Nat → Nat → Fld) (l : List Nat)

theorem wipeRows_clears (hr : ∀ i j v w, (row i v).rst = (row j w).rst) {i w : Nat} {s : State} (hi : i ∈ s.gate.slices.map (·.1)) (hw : w ∈ l) :
    (wipeRows row l s).rd (row i w) = 0 := by
  obtain ⟨e, he, rfl⟩ := List.mem_map.1 hi
  exact State.each_establishes (P := fun s => s.rd (row e.1 w) = 0) (f := wipeSlice row l) he
    (fun s => clearRow_clears (hr e.1 e.1) hw s) (fun a s h => clearRow_zero (s := s) (hr e.1 a.1 w) l h) s

theorem wipeRows_slice (s : State) (i : Nat) : ∃ g, (wipeRows row l s).slice i = { granted := g } := by
  refine wipe_free (fun k s => clearRow (row k) l s) i (fun k u => ?_) s.gate.slices s ?_
  · exact congrArg (fun g : GateS => tget {} g.slices i) (clearRow_gate (row k) l u)
  · by_cases hi : i ∈ s.gate.slices.map (·.1)
    · exact .inr hi
    · exact .inl ⟨0, tget_out _ _ _ hi⟩

theorem gateCore_wipeRows (s : State) : gateCore (wipeRows row l s) = gateCore s :=
  State.each_inv gateCore _ (f := wipeSlice row l)
    (fun e u => (gateCore_setSlice ..).trans
      (congrArg (fun g : GateS => { g with bar := {}, slices := [], msix := [] }) (clearRow_gate (row e.1) l u))) s

theorem wipeRows_bar (s : State) : (wipeRows row l s).gate.bar = s.gate.bar :=
  State.each_inv (fun s => s.gate.bar) _ (f := wipeSlice row l)
    (fun e u => show (clearRow (row e.1) l u).gate.bar = _ from congrArg GateS.bar (clearRow_gate (row e.1) l u)) s

end

/-- What remains of the host gate when every record not yet issued is dropped. -/
def dropped (s : State) (g : GateS) : GateS :=
  { g with
    tags := s.gate.tags.filter fun e => match e.2 with | .queued _ => false | _ => true
    msix := [], held := [], half := [], cur := [], saved := [] }

theorem freeAll_does (s : State) : ∃ x y : Arb, freeAll s =
    (({ wipeRows Reg.SLC_DIRTY (List.range 17) s with gate := dropped s (wipeRows Reg.SLC_DIRTY (List.range 17) s).gate } : State).setArb 21 x).setArb
      22 y := ⟨_, _, rfl⟩

/-- A filter of a canonical table keeps or drops each entry by itself. -/
theorem tget_filter {α : Type} [DecidableEq α] {d : α} {t : Tbl α} (p : Nat × α → Bool) (h : twf d t = true) (k : Nat) :
    tget d (t.filter p) k = if p (k, tget d t k) then tget d t k else d := by
  by_cases hk : k ∈ t.map (·.1)
  · obtain ⟨⟨j, v⟩, hmem, rfl⟩ := List.mem_map.1 hk
    rw [tget_of_mem h hmem]
    split_ifs with hp
    · exact tget_of_mem (twf_filter p h) (List.mem_filter.2 ⟨hmem, hp⟩)
    · refine tget_out _ _ _ fun hin => hp ?_
      obtain ⟨⟨i, u⟩, hin', hiu⟩ := List.mem_map.1 hin
      obtain ⟨hin', hpu⟩ := List.mem_filter.1 hin'
      have hij : i = j := hiu
      subst hij
      rw [(tget_of_mem h hmem).symm.trans (tget_of_mem h hin')]
      exact hpu
  · have hout : k ∉ (t.filter p).map (·.1) := fun hin =>
      hk (by obtain ⟨e, he, hek⟩ := List.mem_map.1 hin; exact List.mem_map.2 ⟨e, List.mem_of_mem_filter he, hek⟩)
    rw [tget_out _ _ _ hout, tget_out _ _ _ hk]
    split_ifs <;> rfl

end Sys2Proof.Machine

namespace Sys2Proof.Machine

set_option Elab.async false

-- a host reset (R414)

section
variable (s : State)

theorem freeAll_slice_free (i : Nat) : ∃ g, (freeAll s).slice i = { granted := g } := by
  obtain ⟨x, y, h⟩ := freeAll_does s
  rw [h]
  exact wipeRows_slice ..

theorem freeAll_core : gateCore (freeAll s) = dropped s (gateCore s) := by
  obtain ⟨x, y, h⟩ := freeAll_does s
  rw [h, ← gateCore_wipeRows Reg.SLC_DIRTY (List.range 17) s]
  rfl

theorem freeAll_bar : (freeAll s).gate.bar = s.gate.bar := by
  obtain ⟨x, y, h⟩ := freeAll_does s
  rw [h]
  exact wipeRows_bar ..

theorem freeAll_dirty {i w : Nat} (hi : i ∈ s.gate.slices.map (·.1)) (hw : w < 17) : (freeAll s).rd (Reg.SLC_DIRTY i w) = 0 := by
  obtain ⟨x, y, h⟩ := freeAll_does s
  rw [h]
  exact wipeRows_clears Reg.SLC_DIRTY (List.range 17) (fun _ _ _ _ => rfl) hi (List.mem_range.2 hw)

/-- Entries of the host gate's receive buffer that are freed change the count of its side alone. -/
theorem drainEntries_host : ∃ f r, drainEntries .host s = setBar .host { s.gate.bar with freed := f, rxUsed := r } s := by
  unfold drainEntries
  dsimp only
  split_ifs
  · exact ⟨_, _, rfl⟩
  · exact ⟨_, _, rfl⟩

/-- The host gate without what a host reset frees. -/
def hostWiped : State :=
  { drainEntries .host (freeAll (s.wr Reg.GATE_CTRL_RUN 0)) with
    gate := { (drainEntries .host (freeAll (s.wr Reg.GATE_CTRL_RUN 0))).gate with aging := true } }

/-- A host reset is shown in the gate's status and events. -/
def hostHeard : State := gateEvt Reg.GATE_EVT_HRST (s.raise Reg.GATE_STAT_HRST)

/-- A host reset is shown, field die 0 is told, and the credit that is due is granted. -/
def hostTold : State := grantCredit (List.range 256) (sendGateState (hostHeard s))

theorem hostWiped_slice (i : Nat) : ∃ g, (hostWiped s).slice i = { granted := g } := by
  obtain ⟨f, r, h⟩ := drainEntries_host (freeAll (s.wr Reg.GATE_CTRL_RUN 0))
  unfold hostWiped
  rw [h]
  exact freeAll_slice_free ..

theorem hostWiped_core : gateCore (hostWiped s) = { dropped s (gateCore s) with aging := true } :=
  congrArg (fun g : GateS => { g with aging := true })
    ((gateCore_drainEntries .host (freeAll (s.wr Reg.GATE_CTRL_RUN 0))).trans (freeAll_core (s.wr Reg.GATE_CTRL_RUN 0)))

theorem hostWiped_up (h : s.gate.bar.st = .up) : (hostWiped s).gate.bar.st = .up := by
  obtain ⟨f, r, hd⟩ := drainEntries_host (freeAll (s.wr Reg.GATE_CTRL_RUN 0))
  unfold hostWiped
  rw [hd]
  exact (congrArg BarS.st (freeAll_bar (s.wr Reg.GATE_CTRL_RUN 0))).trans h

theorem hostWiped_rd (f : Fld) : (hostWiped s).rd f = (freeAll (s.wr Reg.GATE_CTRL_RUN 0)).rd f :=
  (drainEntries_keeps .host (freeAll (s.wr Reg.GATE_CTRL_RUN 0))).rd_eq f

theorem hostWiped_run : (hostWiped s).rd Reg.GATE_CTRL_RUN = 0 := by
  rw [hostWiped_rd, freeAll_rd _ _ fun i w => by unfold Fld.key; show 32 * 0x100100 + 0 ≠ 32 * (0x122000 + 0x80 * i + 4 * w) + 0; omega]
  exact (State.rd_wr_same ..).trans (Nat.zero_mod _)

theorem hostWiped_dirty {i w : Nat} (hi : i ∈ s.gate.slices.map (·.1)) (hw : w < 17) : (hostWiped s).rd (Reg.SLC_DIRTY i w) = 0 := by
  rw [hostWiped_rd]
  exact freeAll_dirty (s.wr Reg.GATE_CTRL_RUN 0) hi hw

theorem gateEvt_bar (f : Fld) : (gateEvt f s).gate.bar = s.gate.bar := by
  unfold gateEvt
  dsimp only
  split_ifs <;> rfl

theorem hostHeard_rd_ne {f : Fld} (h1 : f.key ≠ Reg.GATE_STAT_HRST.key) (h2 : f.key ≠ Reg.GATE_EVT_HRST.key) : (hostHeard s).rd f = s.rd f :=
  (gateEvt_rd_ne _ _ h2).trans (State.rd_wr_ne _ _ h1)

section
variable {s} (h : s.rd Reg.GATE_CTRL_RUN = 0)
include h

theorem hostTold_eq : hostTold s = grantCredit (List.range 256) (barQueue .host 0x02 (pay (2 ^ 8 * s.gate.gen.toNat)) (hostHeard s)) := by
  have hrun : (hostHeard s).rd Reg.GATE_CTRL_RUN = 0 := (hostHeard_rd_ne s (by decide) (by decide)).trans h
  have hgen : (hostHeard s).gate.gen = s.gate.gen := (congrArg GateS.gen (gateCore_gateEvt Reg.GATE_EVT_HRST (s.raise Reg.GATE_STAT_HRST)) :)
  have hpay : b2n ((hostHeard s).flag Reg.GATE_CTRL_RUN) + 2 ^ 8 * (hostHeard s).gate.gen.toNat = 2 ^ 8 * s.gate.gen.toNat := by
    unfold State.flag
    rw [hrun, hgen]
    exact Nat.zero_add _
  unfold hostTold
  rw [sendGateState_idle _ hrun, hpay]

theorem hostTold_slice (i : Nat) : ∃ g, (hostTold s).slice i = { s.slice i with granted := g } := by
  rw [hostTold_eq h]
  obtain ⟨g, hg⟩ := grantCredit_slice (List.range 256) (barQueue .host 0x02 (pay (2 ^ 8 * s.gate.gen.toNat)) (hostHeard s)) i
  rw [barQueue_slice] at hg
  rw [hg, show (hostHeard s).slice i = s.slice i from gateEvt_slice ..]
  exact ⟨_, rfl⟩

theorem hostTold_core : gateCore (hostTold s) = gateCore s := by
  rw [hostTold_eq h, gateCore_grantCredit, gateCore_barQueue]
  exact gateCore_gateEvt ..

theorem hostTold_rd (f : Fld) : (hostTold s).rd f = (hostHeard s).rd f := by
  rw [hostTold_eq h]
  exact ((grantCredit_keeps ..).rd_eq _).trans ((barQueue_keeps ..).rd_eq _)

theorem hostTold_ctl (hup : s.gate.bar.st = .up) : (0x02, pay (2 ^ 8 * s.gate.gen.toNat)) ∈ (hostTold s).gate.bar.ctl := by
  have hbar : (hostHeard s).gate.bar = s.gate.bar := gateEvt_bar ..
  rw [hostTold_eq h]
  refine grantCredit_ctl _ ?_
  rw [barQueue_eq .host 0x02 _ _ ((congrArg BarS.st hbar).trans hup)]
  exact List.mem_append_right _ (List.mem_singleton.2 rfl)

end

end

/-- What a host reset does to the host gate (R414). -/
theorem hostReset_frees (s : State) : ∃ t, exec .hostReset s = .next t ∧ t.rd Reg.GATE_CTRL_RUN = 0 ∧ t.rd Reg.GATE_STAT_HRST = 1 ∧
    t.rd Reg.GATE_EVT_HRST = 1 ∧
    (∀ i, (t.slice i).st = .free ∧ (t.slice i).q = [] ∧ (t.slice i).kept = [] ∧ (t.slice i).size = 0) ∧ t.gate.held = [] ∧ t.gate.aging = true ∧
    (∀ i ∈ s.gate.slices.map (·.1), ∀ w, w < 17 → t.rd (Reg.SLC_DIRTY i w) = 0) ∧ t.gate.gen = s.gate.gen ∧
    (twf .none s.gate.tags = true → ∀ k, tagOf t k = match tagOf s k with | .queued _ => .none | e => e) ∧
    (s.gate.bar.st = .up → (0x02, pay (2 ^ 8 * s.gate.gen.toNat)) ∈ t.gate.bar.ctl) ∧ Keeps [.out, .regs, .arb, .bar, .gate] s t := by
  refine next_run fun t hx hrun => ?_
  obtain ⟨u, hu⟩ : ∃ u, hostWiped s.bare = u := ⟨_, rfl⟩
  have ht : hostTold u = t := by rw [← hu]; exact hx
  have hoff : u.rd Reg.GATE_CTRL_RUN = 0 := hu ▸ hostWiped_run _
  have hcore : gateCore t = { dropped s (gateCore s) with aging := true } := by
    rw [← ht, hostTold_core hoff, ← hu]
    exact hostWiped_core _
  have hgen : u.gate.gen = s.gate.gen := by
    rw [← hu]
    exact (congrArg GateS.gen (hostWiped_core s.bare) :)
  have hrd (f : Fld) : t.rd f = (hostHeard u).rd f := ht ▸ hostTold_rd hoff f
  refine ⟨(hrd _).trans ((hostHeard_rd_ne u (by decide) (by decide)).trans hoff),
    (hrd _).trans ((gateEvt_rd_ne _ _ (by decide)).trans (State.rd_wr_same ..)),
    (hrd _).trans (gateEvt_rd _ _ (by decide)), fun i => ?_, (congrArg GateS.held hcore :), (congrArg GateS.aging hcore :),
    fun i hi w hw => ?_, (congrArg GateS.gen hcore :), fun hwf k => ?_, fun hup => ?_, (execHostReset_keeps s).next _ hrun⟩
  · obtain ⟨g, hg⟩ := hostTold_slice hoff i
    obtain ⟨g', hg'⟩ := hostWiped_slice s.bare i
    rw [ht, ← hu, hg'] at hg
    have hst : ({ t with pending := s.pending } : State).slice i = { granted := g } := hg
    rw [hst]
    exact ⟨rfl, rfl, rfl, rfl⟩
  · refine (hrd _).trans ((hostHeard_rd_ne u ?_ ?_).trans (hu ▸ hostWiped_dirty s.bare hi hw))
    · unfold Fld.key
      show 32 * (0x122000 + 0x80 * i + 4 * w) + 0 ≠ 32 * 0x100104 + 10
      omega
    · unfold Fld.key
      show 32 * (0x122000 + 0x80 * i + 4 * w) + 0 ≠ 32 * 0x10010C + 3
      omega
  · have htags : t.gate.tags = (dropped s (gateCore s)).tags := (congrArg GateS.tags hcore :)
    refine (congrArg (fun l => tget TagEntry.none l k) htags).trans ((tget_filter _ hwf k).trans ?_)
    show (if _ then tagOf s k else _) = _
    dsimp only
    cases h : tagOf s k <;> simp [show tget TagEntry.none s.gate.tags k = _ from h]
  · have hu' : u.gate.bar.st = .up := hu ▸ hostWiped_up s.bare hup
    have hctl := hostTold_ctl hoff hu'
    rw [ht, hgen] at hctl
    exact hctl

end Sys2Proof.Machine

namespace Sys2Proof.Machine

set_option Elab.async false

-- vector writes of tenants at the host gate (R381, R409)

/-- A change of the host gate alone. -/
theorem Keeps.of_gate {s t : State} (h : { s with gate := t.gate } = t) : Keeps [.gate] s t := by
  rw [← h]
  exact Keeps.refl.gate (by decide)

theorem slot_gate_keeps {s u : State} (h : Keeps [.regs, .gate] (hearing .host 0x09 s) u) :
    Keeps [.out, .regs, .gate] s { emptied .host u with pending := s.pending } := by
  have h0 : Keeps [.regs, .gate] s.bare (hearing .host 0x09 s) := Keeps.refl.gate (by decide)
  have h1 : Keeps [.regs, .gate] u (emptied .host u) := Keeps.refl.gate (by decide)
  exact ((h0.trans h).trans h1).bare (by decide)

/-- The result of a vector write is posted in the page of a slice. -/
def vwPosted (p : BitVec 128) (i : Nat) (s : State) : State :=
  ((s.wr (Reg.PG_VWRES_DONE i) 1).wr (Reg.PG_VWRES_REFUSED i) (b2n (p.getLsbD 6))).wr (Reg.PG_VWRES_REASON i) (pf p 7 4)

theorem vwPosted_rd (p : BitVec 128) (i : Nat) (s : State) : (vwPosted p i s).rd (Reg.PG_VWRES_DONE i) = 1 ∧
    (vwPosted p i s).rd (Reg.PG_VWRES_REFUSED i) = b2n (p.getLsbD 6) ∧ (vwPosted p i s).rd (Reg.PG_VWRES_REASON i) = pf p 7 4 := by
  unfold vwPosted
  refine ⟨?_, ?_, ?_⟩
  · rw [State.rd_wr_ne _ _ (by unfold Fld.key; show 32 * (0x200014 + 0x1000 * i) + 0 ≠ 32 * (0x200014 + 0x1000 * i) + 2; omega),
      State.rd_wr_ne _ _ (by unfold Fld.key; show 32 * (0x200014 + 0x1000 * i) + 0 ≠ 32 * (0x200014 + 0x1000 * i) + 1; omega), State.rd_wr_same]
    rfl
  · rw [State.rd_wr_ne _ _ (by unfold Fld.key; show 32 * (0x200014 + 0x1000 * i) + 1 ≠ 32 * (0x200014 + 0x1000 * i) + 2; omega), State.rd_wr_same]
    cases p.getLsbD 6 <;> rfl
  · rw [State.rd_wr_same]
    exact Nat.mod_eq_of_lt (p.extractLsb' 7 4).isLt

theorem vresult_posts {p : BitVec 128} {v : VwSlot} {i : BitVec 8} {s : State} (h : barReady .host s) (hv : tget {} s.gate.vw (pf p 0 5) = v)
    (hb : v.busy = some i) (hg : v.gen = p.getLsbD 5) (hs : (s.slice i.toNat).vwSlot = some (pf p 0 5)) :
    ∃ t, exec (.vresult p) s = .next t ∧ tget {} t.gate.vw (pf p 0 5) = { v with busy := none } ∧
      t.slice i.toNat = { s.slice i.toNat with vwSlot := none } ∧ t.rd (Reg.PG_VWRES_DONE i.toNat) = 1 ∧
      t.rd (Reg.PG_VWRES_REFUSED i.toNat) = b2n (p.getLsbD 6) ∧ t.rd (Reg.PG_VWRES_REASON i.toNat) = pf p 7 4 ∧
      Keeps [.out, .regs, .gate] s t := by
  obtain ⟨u, hu⟩ : ∃ u, (({ hearing .host 0x09 s with gate := { (hearing .host 0x09 s).gate with
    vw := tset {} s.gate.vw (pf p 0 5) { v with busy := none } } } : State).setSlice i.toNat { s.slice i.toNat with vwSlot := none }) = u := ⟨_, rfl⟩
  have hrun : exec (.vresult p) s = .next { emptied .host (vwPosted p i.toNat u) with pending := s.pending } := by
    refine gateFrame_runs h ?_ (hu ▸ rfl)
    have hv' : tget {} (hearing .host 0x09 s).gate.vw (pf p 0 5) = v := hv
    dsimp only
    rw [hv', hb]
    dsimp only
    rw [if_neg (by rw [hg, bne_self_eq_false]; exact Bool.false_ne_true)]
    rw [if_neg (by
      refine fun hne => ?_
      have : ((s.slice i.toNat).vwSlot != some (pf p 0 5)) = true := hne
      rw [hs, bne_self_eq_false] at this
      exact Bool.false_ne_true this)]
    rw [← hu]
    rfl
  obtain ⟨hdone, href, hreason⟩ := vwPosted_rd p i.toNat u
  refine ⟨_, hrun, hu ▸ tget_tset_same .., hu ▸ State.slice_setSlice .., hdone, href, hreason, slot_gate_keeps ?_⟩
  have h1 : Keeps [.regs, .gate] (hearing .host 0x09 s) u := (Keeps.of_gate (hu ▸ rfl)).mono (by decide)
  have h2 : Keeps [.regs, .gate] u (vwPosted p i.toNat u) := ((Keeps.refl.regs (by decide)).regs (by decide)).regs (by decide)
  exact h1.trans h2

theorem vwriteRepeat_repeats {k : Nat} {v : VwSlot} {i : BitVec 8} {l : Tbl VwSlot} {s : State} (hup : s.gate.bar.st = .up)
    (hvw : s.gate.vw = (k, v) :: l) (hb : v.busy = some i) (hlate : v.sentAt.toNat + rtmo s ≤ s.gate.clk.toNat) :
    exec .vwriteRepeat s = .next { s with out := [], gate := { s.gate with
      bar := barWith 0x08 v.payload s.gate.bar, vw := tset {} s.gate.vw k { v with sentAt := s.gate.clk } } } := by
  refine run_eq (t := { s.bare with gate := { s.gate with
    bar := barWith 0x08 v.payload s.gate.bar, vw := tset {} s.gate.vw k { v with sentAt := s.gate.clk } } }) ?_
  have hfind : s.bare.gate.vw.find? (fun e => e.2.busy.isSome && decide (e.2.sentAt.toNat + rtmo s.bare ≤ s.bare.gate.clk.toNat)) = some (k, v) := by
    rw [show s.bare.gate.vw = _ from hvw, List.find?_cons_of_pos]
    rw [hb, Option.isSome_some, Bool.true_and]
    exact decide_eq_true hlate
  dsimp only
  rw [if_neg (by rw [show s.bare.gate.bar.st = _ from hup]; decide), hfind]
  exact barQueue_eq .host 0x08 v.payload _ hup

-- EVENTs at the host gate (R401, R402, R410 to R412)

/-- The credit that an EVENT used. -/
def usedCredit (i : Nat) (s : State) : State := s.setSlice i { s.slice i with granted := (s.slice i).granted - 1 }

/-- What the entry of its tag makes of an EVENT. -/
def answerEvent (p : BitVec 128) (s : State) : State :=
  match tagOf s ((eventTag p).toNat % 2 ^ 14) with
  | .done h => if h == (eventTag p).getLsbD 14 then report (eventTag p) false s else takeEvent (eventSlice p) (Msg.unpack p) (eventTag p) s
  | .queued h => if h == (eventTag p).getLsbD 14 then s else takeEvent (eventSlice p) (Msg.unpack p) (eventTag p) s
  | .none => takeEvent (eventSlice p) (Msg.unpack p) (eventTag p) s

theorem handleEvent_eq (p : BitVec 128) (s : State) :
    handleEvent p s = grantCredit [eventSlice p] (answerEvent p (usedCredit (eventSlice p) s)) := rfl

section
variable {p : BitVec 128} {s w : State}

theorem answerEvent_takes (hd : tagOf s ((eventTag p).toNat % 2 ^ 14) ≠ .done ((eventTag p).getLsbD 14))
    (hq : tagOf s ((eventTag p).toNat % 2 ^ 14) ≠ .queued ((eventTag p).getLsbD 14)) :
    answerEvent p s = takeEvent (eventSlice p) (Msg.unpack p) (eventTag p) s := by
  unfold answerEvent
  cases htag : tagOf s ((eventTag p).toNat % 2 ^ 14) with
  | none => rfl
  | queued g => exact if_neg fun he => hq (htag.trans (congrArg TagEntry.queued (eq_of_beq he)))
  | done g => exact if_neg fun he => hd (htag.trans (congrArg TagEntry.done (eq_of_beq he)))

theorem answerEvent_done (h : tagOf s ((eventTag p).toNat % 2 ^ 14) = .done ((eventTag p).getLsbD 14)) :
    answerEvent p s = report (eventTag p) false s := by
  unfold answerEvent
  rw [h]
  exact if_pos (beq_self_eq_true _)

theorem answerEvent_queued (h : tagOf s ((eventTag p).toNat % 2 ^ 14) = .queued ((eventTag p).getLsbD 14)) : answerEvent p s = s := by
  unfold answerEvent
  rw [h]
  exact if_pos (beq_self_eq_true _)

/-- The host gate as the answer to an EVENT finds it: a credit of its slice is used. -/
def eventHeard (p : BitVec 128) (s : State) : State := usedCredit (eventSlice p) (hearing .host 0x05 s)

theorem eventHeard_slice : (eventHeard p s).slice (eventSlice p) = { s.slice (eventSlice p) with granted := (s.slice (eventSlice p)).granted - 1 } :=
  State.slice_setSlice ..

theorem noHeld {s : State} (h : s.gate.held = []) : { s with gate := { s.gate with held := [] } } = s := by
  rw [← h]

/-- An EVENT whose intake has room is answered at once, and the credit that falls due is granted. -/
theorem event_runs (h : barReady .host s) (hroom : intakeRoom s p = true) (hw : answerEvent p (eventHeard p s) = w)
    (hheld : w.gate.held = s.gate.held) :
    exec (.event p) s = .next { emptied .host (grantCredit [eventSlice p] w) with pending := s.pending } := by
  have hempty : s.gate.held = [] := by
    obtain ⟨-, -, hwait⟩ := h
    have hwait : (!s.gate.held.isEmpty) = false := hwait
    exact List.isEmpty_iff.1 (Bool.not_eq_false' _ ▸ hwait)
  have hkept : (grantCredit [eventSlice p] w).gate.held = s.gate.held := (congrArg GateS.held (gateCore_grantCredit [eventSlice p] w) :).trans hheld
  refine gateFrame_runs h ?_ hkept
  obtain ⟨u, hu⟩ : ∃ u, hearing .host 0x05 s = u := ⟨_, rfl⟩
  have hone : u.gate.held = [] := hu ▸ hempty
  have hroom' : intakeRoom { u with gate := { u.gate with held := [p] } } p = true := hu ▸ hroom
  have hdone : handleEvent p u = grantCredit [eventSlice p] w := by
    rw [← hw, ← hu]
    rfl
  rw [hu, hone]
  show pumpHeld 16 { u with gate := { u.gate with held := [p] } } = _
  unfold pumpHeld
  dsimp only
  rw [if_pos hroom', noHeld hone, hdone]
  unfold pumpHeld
  rw [hkept, hempty]

end

end Sys2Proof.Machine

namespace Sys2Proof.Machine

set_option Elab.async false

-- the answers to an EVENT (R401, R402, R410 to R412)

@[simp] theorem tagOf_setTag (k : Nat) (e : TagEntry) (s : State) : tagOf (setTag k e s) k = e := tget_tset_same ..

theorem report_tag (tag : BitVec 15) (d : Bool) (s : State) : tagOf (report tag d s) (tag.toNat % 2 ^ 14) = .done (tag.getLsbD 14) := by
  unfold report
  cases d with
  | false => exact tagOf_setTag (tag.toNat % 2 ^ 14) (.done (tag.getLsbD 14)) s
  | true => exact tagOf_setTag (tag.toNat % 2 ^ 14) (.done (tag.getLsbD 14)) s

theorem keepEvent_tag (i : Nat) (m : Msg) (tag : BitVec 15) (s : State) :
    tagOf (keepEvent i m tag s) (tag.toNat % 2 ^ 14) = .queued (tag.getLsbD 14) := tagOf_setTag (tag.toNat % 2 ^ 14) (.queued (tag.getLsbD 14)) s

theorem enqueueRec_slice (i : Nat) (m : Msg) (tag : BitVec 15) (s : State) : (enqueueRec i m tag s).slice i = { s.slice i with
    q := (s.slice i).q ++ [⟨{ m with dest := gateAddr s, rver := 0 }, tag, (s.slice i).prod⟩]
    prod := (s.slice i).prod + 1 } := State.slice_setSlice ..

section
variable {p : BitVec 128} {s w : State}

/-- What the host gate holds once an EVENT has been answered. -/
theorem event_answered (h : barReady .host s) (hroom : intakeRoom s p = true) (hw : answerEvent p (eventHeard p s) = w)
    (hheld : w.gate.held = s.gate.held) (hbar : w.gate.bar = barHeard .host 0x05 s) :
    ∃ t, exec (.event p) s = .next t ∧ tagOf t = tagOf w ∧ t.gate.discTags = w.gate.discTags ∧ t.gate.writtenTags = w.gate.writtenTags ∧
      (∀ f, t.rd f = w.rd f) ∧
      t.slice (eventSlice p) = { w.slice (eventSlice p) with granted := (w.slice (eventSlice p)).granted + grantDue w (eventSlice p) } ∧
      (grantDue w (eventSlice p) = 0 → t.gate.bar = barTook .host 0x05 s) ∧ Keeps [.out, .regs, .bar, .gate] s t := by
  have hrun := event_runs h hroom hw hheld
  obtain ⟨v, hv⟩ : ∃ v, grantCredit [eventSlice p] w = v := ⟨_, rfl⟩
  have hcore : gateCore v = gateCore w := hv ▸ gateCore_grantCredit ..
  have hrd (f : Fld) : v.rd f = w.rd f := hv ▸ (grantCredit_keeps ..).rd_eq f
  have hup : w.gate.bar.st = .up := by
    rw [hbar]
    exact h.1
  have hslice := hv ▸ grantCredit_one (eventSlice p) w hup
  rw [hv] at hrun
  refine ⟨_, hrun, (congrArg (fun g : GateS => tget TagEntry.none g.tags) hcore :), (congrArg GateS.discTags hcore :),
    (congrArg GateS.writtenTags hcore :), hrd, hslice, fun hdue => ?_, (execEvent_keeps p s).next _ hrun⟩
  have hvw : v = w := hv.symm.trans (grantCredit_nothing hdue)
  show (emptied .host v).gate.bar = _
  rw [hvw]
  show { w.gate.bar with freed := w.gate.bar.freed + w.gate.bar.rxUsed, rxUsed := 0 } = _
  rw [hbar]
  rfl

theorem inc_rd_other (u : State) (i : Nat) (x : Slice) (f : Fld) : ((u.setSlice i x).inc f).rd f = min (2 ^ f.w - 1) (u.rd f + 1) := inc_rd_self ..

variable (hready : barReady .host s) (hroom : intakeRoom s p = true)
include hready hroom

section
variable (hd : tagOf s ((eventTag p).toNat % 2 ^ 14) ≠ .done ((eventTag p).getLsbD 14))
  (hq : tagOf s ((eventTag p).toNat % 2 ^ 14) ≠ .queued ((eventTag p).getLsbD 14))
include hd hq

theorem event_discarded {f : Fld}
    (hw : takeEvent (eventSlice p) (Msg.unpack p) (eventTag p) (eventHeard p s) = report (eventTag p) true ((eventHeard p s).inc f)) :
    ∃ t, exec (.event p) s = .next t ∧ tagOf t ((eventTag p).toNat % 2 ^ 14) = .done ((eventTag p).getLsbD 14) ∧
      t.gate.discTags = s.gate.discTags ++ [eventTag p] ∧ t.rd f = min (2 ^ f.w - 1) (s.rd f + 1) ∧
      t.slice (eventSlice p) = { s.slice (eventSlice p) with
        granted := (s.slice (eventSlice p)).granted - 1 + grantDue (report (eventTag p) true ((eventHeard p s).inc f)) (eventSlice p) } ∧
      Keeps [.out, .regs, .bar, .gate] s t := by
  obtain ⟨t, hrun, htag, hdisc, -, hrd, hslice, -, hk⟩ :=
    event_answered hready hroom ((answerEvent_takes (s := eventHeard p s) hd hq).trans hw) rfl rfl
  refine ⟨t, hrun, (congrFun htag _).trans (report_tag ..), hdisc, (hrd f).trans (inc_rd_other ..), hslice.trans ?_, hk⟩
  rw [show (report (eventTag p) true ((eventHeard p s).inc f)).slice (eventSlice p) = _ from eventHeard_slice]

theorem event_enqueued (hw : takeEvent (eventSlice p) (Msg.unpack p) (eventTag p) (eventHeard p s) =
      enqueueRec (eventSlice p) (Msg.unpack p) (eventTag p) (eventHeard p s)) :
    ∃ t, exec (.event p) s = .next t ∧ tagOf t ((eventTag p).toNat % 2 ^ 14) = .queued ((eventTag p).getLsbD 14) ∧
      t.slice (eventSlice p) = { s.slice (eventSlice p) with
        prod := (s.slice (eventSlice p)).prod + 1
        granted := (s.slice (eventSlice p)).granted - 1 +
          grantDue (enqueueRec (eventSlice p) (Msg.unpack p) (eventTag p) (eventHeard p s)) (eventSlice p)
        q := (s.slice (eventSlice p)).q ++
          [⟨{ Msg.unpack p with dest := gateAddr s, rver := 0 }, eventTag p, (s.slice (eventSlice p)).prod⟩] } ∧
      (grantDue (enqueueRec (eventSlice p) (Msg.unpack p) (eventTag p) (eventHeard p s)) (eventSlice p) = 0 → t.gate.bar = barTook .host 0x05 s) ∧
      t.gate.discTags = s.gate.discTags ∧ t.gate.writtenTags = s.gate.writtenTags ∧ Keeps [.out, .regs, .bar, .gate] s t := by
  obtain ⟨t, hrun, htag, hdisc, hwritten, -, hslice, hbar, hk⟩ :=
    event_answered hready hroom ((answerEvent_takes (s := eventHeard p s) hd hq).trans hw) rfl rfl
  refine ⟨t, hrun, (congrFun htag _).trans (tagOf_setTag ..), hslice.trans ?_, hbar, hdisc, hwritten, hk⟩
  rw [show (enqueueRec (eventSlice p) (Msg.unpack p) (eventTag p) (eventHeard p s)).slice (eventSlice p) = _ from enqueueRec_slice ..,
    eventHeard_slice]
  rfl

theorem event_kept (hw : takeEvent (eventSlice p) (Msg.unpack p) (eventTag p) (eventHeard p s) =
      keepEvent (eventSlice p) (Msg.unpack p) (eventTag p) (eventHeard p s)) :
    ∃ t, exec (.event p) s = .next t ∧ tagOf t ((eventTag p).toNat % 2 ^ 14) = .queued ((eventTag p).getLsbD 14) ∧
      (t.slice (eventSlice p)).q = (s.slice (eventSlice p)).q ∧ (t.slice (eventSlice p)).prod = (s.slice (eventSlice p)).prod ∧
      (t.slice (eventSlice p)).kept = (s.slice (eventSlice p)).kept ++ [(Msg.unpack p, eventTag p)] ∧ Keeps [.out, .regs, .bar, .gate] s t := by
  obtain ⟨t, hrun, htag, -, -, -, hslice, -, hk⟩ :=
    event_answered hready hroom ((answerEvent_takes (s := eventHeard p s) hd hq).trans hw) rfl rfl
  have hx : (keepEvent (eventSlice p) (Msg.unpack p) (eventTag p) (eventHeard p s)).slice (eventSlice p) = { s.slice (eventSlice p) with
      granted := (s.slice (eventSlice p)).granted - 1, kept := (s.slice (eventSlice p)).kept ++ [(Msg.unpack p, eventTag p)] } := by
    refine (State.slice_setSlice ..).trans ?_
    rw [show (setTag ((eventTag p).toNat % 2 ^ 14) (.queued ((eventTag p).getLsbD 14)) (eventHeard p s)).slice (eventSlice p) = _ from
      eventHeard_slice]
  rw [hx] at hslice
  exact ⟨t, hrun, (congrFun htag _).trans (keepEvent_tag ..),
    (congrArg Slice.q hslice :), (congrArg Slice.prod hslice :), (congrArg Slice.kept hslice :), hk⟩

end

theorem event_again (h : tagOf s ((eventTag p).toNat % 2 ^ 14) = .done ((eventTag p).getLsbD 14)) :
    ∃ t, exec (.event p) s = .next t ∧ t.gate.writtenTags = s.gate.writtenTags ++ [eventTag p] ∧
      (t.slice (eventSlice p)).q = (s.slice (eventSlice p)).q ∧ (t.slice (eventSlice p)).prod = (s.slice (eventSlice p)).prod ∧
      Keeps [.out, .regs, .bar, .gate] s t := by
  obtain ⟨t, hrun, -, -, hwritten, -, hslice, -, hk⟩ := event_answered hready hroom (answerEvent_done (s := eventHeard p s) h) rfl rfl
  rw [show (report (eventTag p) false (eventHeard p s)).slice (eventSlice p) = _ from eventHeard_slice] at hslice
  exact ⟨t, hrun, hwritten, (congrArg Slice.q hslice :), (congrArg Slice.prod hslice :), hk⟩

theorem event_ignored (h : tagOf s ((eventTag p).toNat % 2 ^ 14) = .queued ((eventTag p).getLsbD 14)) :
    ∃ t, exec (.event p) s = .next t ∧ t.gate.writtenTags = s.gate.writtenTags ∧ t.gate.discTags = s.gate.discTags ∧
      (t.slice (eventSlice p)).q = (s.slice (eventSlice p)).q ∧ (t.slice (eventSlice p)).prod = (s.slice (eventSlice p)).prod ∧
      Keeps [.out, .regs, .bar, .gate] s t := by
  obtain ⟨t, hrun, -, hdisc, hwritten, -, hslice, -, hk⟩ := event_answered hready hroom (answerEvent_queued (s := eventHeard p s) h) rfl rfl
  rw [eventHeard_slice] at hslice
  exact ⟨t, hrun, hwritten, hdisc, (congrArg Slice.q hslice :), (congrArg Slice.prod hslice :), hk⟩

end

theorem no_slot {x : Slice} {n : Nat} (h : x.kept ≠ [] ∨ n ≤ x.occ) : ¬ (x.occ < n ∧ x.kept = []) := by
  rintro ⟨ho, hk⟩
  exact h.elim (fun h => h hk) (Nat.not_le.2 ho)

-- an EVENT by the state of its slice (R393, R410 to R412)

section
variable {i : Nat} {m : Msg} {tag : BitVec 15} {x : Slice} {u : State} (hx : u.slice i = x)
include hx

theorem takeEvent_off (h : x.st = .free ∨ x.st = .closed) : takeEvent i m tag u = report tag true (u.inc (Reg.SLC_DISC_DISC i)) := by
  unfold takeEvent
  dsimp only
  rw [hx]
  rcases h with h | h
  · rw [h]
  · rw [h]

theorem takeEvent_on (h : x.st = .open_ ∨ x.st = .fault) (hk : x.kept = []) : takeEvent i m tag u = enqueueRec i m tag u := by
  unfold takeEvent
  dsimp only
  rw [hx]
  rcases h with h | h
  · rw [h]
    exact if_pos hk
  · rw [h]
    exact if_pos hk

theorem takeEvent_behind (h : x.st = .open_ ∨ x.st = .fault) (hk : x.kept ≠ []) : takeEvent i m tag u = keepEvent i m tag u := by
  unfold takeEvent
  dsimp only
  rw [hx]
  rcases h with h | h
  · rw [h]
    exact if_neg hk
  · rw [h]
    exact if_neg hk

/-- While its slice stops, an EVENT takes a free slot, is discarded, or waits. -/
theorem takeEvent_stopping (h : x.st = .stopping) : takeEvent i m tag u =
    if x.fromFault then rstDiscard i tag u
    else if x.occ < ringSize u i ∧ x.kept = [] then enqueueRec i m tag u
    else if x.rstFree then rstDiscard i tag u
    else keepEvent i m tag u := by
  unfold takeEvent
  dsimp only
  rw [hx, h]

theorem takeEvent_fits (h : x.st = .stopping) (hf : x.fromFault = false) (hk : x.kept = []) (ho : x.occ < ringSize u i) :
    takeEvent i m tag u = enqueueRec i m tag u := by
  rw [takeEvent_stopping hx h, if_neg (by rw [hf]; exact Bool.false_ne_true), if_pos ⟨ho, hk⟩]

theorem takeEvent_dropped (h : x.st = .stopping) (hf : x.fromFault = true ∨ (x.rstFree = true ∧ (x.kept ≠ [] ∨ ringSize u i ≤ x.occ))) :
    takeEvent i m tag u = rstDiscard i tag u := by
  rw [takeEvent_stopping hx h]
  rcases hf with hf | ⟨hr, hfull⟩
  · exact if_pos hf
  · rw [if_neg (no_slot hfull), if_pos hr, ite_self]

theorem takeEvent_stays (h : x.st = .stopping) (hf : x.fromFault = false) (hr : x.rstFree = false) (hfull : x.kept ≠ [] ∨ ringSize u i ≤ x.occ) :
    takeEvent i m tag u = keepEvent i m tag u := by
  rw [takeEvent_stopping hx h, if_neg (by rw [hf]; exact Bool.false_ne_true), if_neg (no_slot hfull),
    if_neg (by rw [hr]; exact Bool.false_ne_true)]

end

section
variable {i : Nat} {x : Slice} {s : State} (hx : s.slice i = x)
include hx

theorem grantDue_free (h : x.st = .free) : grantDue s i = 4 - x.granted := by
  unfold grantDue
  dsimp only
  rw [hx, h]

theorem grantDue_closed (h : x.st = .closed) : grantDue s i = 0 := by
  unfold grantDue
  dsimp only
  rw [hx, h]

theorem grantDue_fault (h : x.st = .fault) : grantDue s i = 0 := by
  unfold grantDue
  dsimp only
  rw [hx, h]

theorem grantDue_open (h : x.st = .open_) : grantDue s i = shareOf s i - (x.occ + x.granted) := by
  unfold grantDue
  dsimp only
  rw [hx, h]

end

section
variable {p : BitVec 128} {s : State} {x : Slice} (hready : barReady .host s) (hroom : intakeRoom s p = true) (hx : s.slice (eventSlice p) = x)
  (hd : tagOf s ((eventTag p).toNat % 2 ^ 14) ≠ .done ((eventTag p).getLsbD 14))
  (hq : tagOf s ((eventTag p).toNat % 2 ^ 14) ≠ .queued ((eventTag p).getLsbD 14))
include hready hroom hx hd hq

theorem event_off (h : x.st = .free ∨ x.st = .closed) :
    ∃ t, exec (.event p) s = .next t ∧ tagOf t ((eventTag p).toNat % 2 ^ 14) = .done ((eventTag p).getLsbD 14) ∧
      t.gate.discTags = s.gate.discTags ++ [eventTag p] ∧
      t.rd (Reg.SLC_DISC_DISC (eventSlice p)) = min (2 ^ 16 - 1) (s.rd (Reg.SLC_DISC_DISC (eventSlice p)) + 1) ∧
      t.slice (eventSlice p) = { x with granted := if x.st = .free then max 4 (x.granted - 1) else x.granted - 1 } ∧
      Keeps [.out, .regs, .bar, .gate] s t := by
  subst hx
  obtain ⟨t, hrun, htag, hdisc, hrd, hslice, hk⟩ := event_discarded hready hroom hd hq (takeEvent_off eventHeard_slice h)
  refine ⟨t, hrun, htag, hdisc, hrd, hslice.trans ?_, hk⟩
  have hx : (report (eventTag p) true ((eventHeard p s).inc (Reg.SLC_DISC_DISC (eventSlice p)))).slice (eventSlice p) = _ := eventHeard_slice
  rcases h with h | h
  · rw [grantDue_free hx h, if_pos h, show ∀ a, a + (4 - a) = max 4 a by omega]
  · rw [grantDue_closed hx h, if_neg (by rw [h]; decide), Nat.add_zero]

theorem event_on (h : x.st = .open_ ∨ x.st = .fault) (hkept : x.kept = [])
    (hshare : x.st = .open_ → shareOf s (eventSlice p) ≤ (x.prod + 1 - x.cons).toNat + (x.granted - 1)) :
    ∃ t, exec (.event p) s = .next t ∧ tagOf t ((eventTag p).toNat % 2 ^ 14) = .queued ((eventTag p).getLsbD 14) ∧
      t.slice (eventSlice p) = { x with
        prod := x.prod + 1, granted := x.granted - 1
        q := x.q ++ [⟨{ Msg.unpack p with dest := gateAddr s, rver := 0 }, eventTag p, x.prod⟩] } ∧
      t.gate.bar = barTook .host 0x05 s ∧ t.gate.discTags = s.gate.discTags ∧ t.gate.writtenTags = s.gate.writtenTags ∧
      Keeps [.out, .regs, .bar, .gate] s t := by
  subst hx
  obtain ⟨t, hrun, htag, hslice, hbar, hdisc, hwritten, hk⟩ := event_enqueued hready hroom hd hq (takeEvent_on eventHeard_slice h hkept)
  have hx := enqueueRec_slice (eventSlice p) (Msg.unpack p) (eventTag p) (eventHeard p s)
  rw [eventHeard_slice] at hx
  have hdue : grantDue (enqueueRec (eventSlice p) (Msg.unpack p) (eventTag p) (eventHeard p s)) (eventSlice p) = 0 := by
    rcases h with h | h
    · rw [grantDue_open hx h]
      exact Nat.sub_eq_zero_of_le (hshare h)
    · exact grantDue_fault hx h
  rw [hdue] at hslice
  exact ⟨t, hrun, htag, hslice, hbar hdue, hdisc, hwritten, hk⟩

end

end Sys2Proof.Machine

namespace Sys2Proof.Machine

set_option Elab.async false

section
variable {p : BitVec 128} {s : State}

/-- An EVENT that its writer's intake has no room for waits, and no entry of the receive buffer is freed. -/
theorem event_waits (hup : s.gate.bar.st = .up) (hfull : ∀ h ∈ (s.gate.held ++ [p]).head?, intakeRoom s h = false) :
    exec (.event p) s = .next { s with out := [], gate := { s.gate with
      held := s.gate.held ++ [p]
      bar := { s.gate.bar with lastRx := s.gate.clk, failRun := 0, rxUsed := s.gate.bar.rxUsed + 1 } } } := by
  obtain ⟨u, hu⟩ : ∃ u : State, { s.bare with gate := { s.gate with
      held := s.gate.held ++ [p]
      bar := { s.gate.bar with lastRx := s.gate.clk, failRun := 0, rxUsed := s.gate.bar.rxUsed + 1 } } } = u := ⟨_, rfl⟩
  have hrun : exec (.event p) s = .next { u with pending := s.pending } := by
    refine run_eq ?_
    unfold rxBar
    dsimp only
    rw [if_neg (by rw [show (barOf .host s.bare).st = .up from hup]; exact Bool.false_ne_true)]
    have hstay : pumpHeld 16 u = u := by
      obtain ⟨q, l, hq⟩ : ∃ q l, s.gate.held ++ [p] = q :: l := by
        cases s.gate.held with
        | nil => exact ⟨p, [], rfl⟩
        | cons q l => exact ⟨q, l ++ [p], rfl⟩
      have hheld : u.gate.held = q :: l := hu ▸ hq
      have hroom : intakeRoom u q = false := by
        rw [← hu]
        exact hfull q (by rw [hq]; rfl)
      unfold pumpHeld
      rw [hheld]
      exact if_neg (by rw [hroom]; exact Bool.false_ne_true)
    have hne : u.gate.held.isEmpty = false := by
      rw [← hu]
      show (s.gate.held ++ [p]).isEmpty = false
      cases s.gate.held <;> rfl
    refine (congrArg (fun v => drainEntries .host (pumpHeld 16 v)) hu).trans ?_
    rw [hstay]
    unfold drainEntries
    dsimp only
    rw [hne]
    exact if_pos rfl
  rw [hrun, ← hu]
  rfl

end

/-- Settles O39: control frames, results of vector writes, host reset and EVENTs by the entry of their tag and the state of their slice. -/
theorem hostGateMessages : Obligations.HostGateMessages := by
  refine ⟨fun p s h => ⟨fieldState_taken h, barSyncReq_answered h, timeTrim_steps h, timeTrim_slews h⟩,
    fun p v i s h hv hb hg hs => vresult_posts h hv hb hg hs, fun k v i l s hup hvw hb hlate => vwriteRepeat_repeats hup hvw hb hlate,
    hostReset_frees, ?_, fun p s hup hfull => event_waits hup hfull⟩
  rintro p _ _ _ x s h hroom rfl rfl rfl hx
  have hst : (eventHeard p s).slice (eventSlice p) = { x with granted := x.granted - 1 } := hx ▸ eventHeard_slice
  refine ⟨fun hoff hd hq => event_off h hroom hx hd hq hoff, fun hon hk hshare hd hq => event_on h hroom hx hd hq hon hk hshare,
    fun hd hq hstop hf hk ho => ?_, fun hd hq hstop hf => ?_, fun hd hq hwait => ?_, fun hdone => hx ▸ event_again h hroom hdone,
    fun hqueued => hx ▸ event_ignored h hroom hqueued⟩
  · obtain ⟨t, hrun, htag, hslice, -, -, -, hkeep⟩ := event_enqueued h hroom hd hq (takeEvent_fits hst hstop hf hk ho)
    rw [hx] at hslice
    exact ⟨t, hrun, htag, (congrArg Slice.prod hslice :), (congrArg Slice.q hslice :), hkeep⟩
  · obtain ⟨t, hrun, htag, hdisc, hrd, hslice, hkeep⟩ := event_discarded h hroom hd hq (takeEvent_dropped hst hstop hf)
    rw [hx] at hslice
    exact ⟨t, hrun, htag, hdisc, hrd, (congrArg Slice.q hslice :), (congrArg Slice.kept hslice :), hkeep⟩
  · have hkeeps : takeEvent (eventSlice p) (Msg.unpack p) (eventTag p) (eventHeard p s) =
        keepEvent (eventSlice p) (Msg.unpack p) (eventTag p) (eventHeard p s) := by
      rcases hwait with ⟨hon, hk⟩ | ⟨hstop, hf, hr, hfull⟩
      · exact takeEvent_behind hst hon hk
      · exact takeEvent_stays hst hstop hf hr hfull
    exact hx ▸ event_kept h hroom hd hq hkeeps

end Sys2Proof.Machine

namespace Sys2Proof.Machine

set_option Elab.async false

-- start-up (R468 to R471, R513)

theorem bistStage_off (bist : List (BitVec 15)) {s : State} (h : s.su.bist = false) : bistStage bist s = s :=
  if_neg (by rw [h]; exact Bool.false_ne_true)

theorem recStage_cold (errs : List (BitVec 14 × Ecc)) {s : State} (h : s.su.cold = true) :
    recStage errs s = { s with firn := { tagGen := s.firn.tagGen } } := if_pos h

theorem recStage_warm {s : State} (h : s.su.cold = false) : recStage [] s = s := if_neg (by rw [h]; exact Bool.false_ne_true)

section
variable {s : State}

theorem tclkLock_starts (h0 : s.su.phase = 0) (hh : s.su.hold = false) :
    (s.pins.idDie ≠ 3 → exec .tclkLock s = .next { s with
      out := [], su := { s.su with phase := 1, bist := bistArmed s }, time := { s.time with running := true } }) ∧
    (s.pins.idDie = 3 → exec .tclkLock s = .next { s with out := [] }) := by
  refine ⟨fun hd => ?_, fun hd => ?_⟩
  · exact run_eq (t := { s.bare with su := { s.su with phase := 1, bist := bistArmed s }, time := { s.time with running := true } })
      (if_pos ⟨h0, hh, hd⟩)
  · exact run_eq (t := s.bare) (if_neg fun h => h.2.2 hd)

section
variable {errs : List (BitVec 14 × Ecc)} {bist : List (BitVec 15)} (h1 : s.su.phase = 1) (hh : s.su.hold = false)
include h1 hh

/-- A cold start forgets every record and asks for domain 23 (R468). -/
theorem firnInitEnd_cold (hc : s.su.cold = true) (hb : s.su.bist = false) :
    ∃ t, exec (.firnInitEnd errs bist) s = .next t ∧ t.su = { s.su with phase := 2 } ∧ t.firn = { tagGen := s.firn.tagGen } ∧
      (s.dom 23 = 0 → t.pwr.reqs.any (·.d == 23) = true) ∧ Keeps [.firn, .out, .pwr, .su] s t := by
  obtain ⟨u, hu⟩ : ∃ u : State, { s.bare with su := { s.su with phase := 2 }, firn := { tagGen := s.firn.tagGen } } = u := ⟨_, rfl⟩
  have hstage : phaseStage s.su.cold { recStage errs (bistStage bist s.bare) with
      su := { (recStage errs (bistStage bist s.bare)).su with phase := 2 } } = wakeSys 23 u := by
    rw [bistStage_off bist (s := s.bare) hb, recStage_cold errs (s := s.bare) hc, hc, ← hu]
    rfl
  have hrun := firnInit_run errs bist s h1 hh
  rw [hstage] at hrun
  have hw := wakeSys_keeps 23 u
  have hu' : Keeps [.out, .firn, .pwr, .su] s.bare u := by
    have h0 : Keeps [.out, .firn, .pwr, .su] s.bare { s.bare with firn := { tagGen := s.firn.tagGen } } := Keeps.refl.firn (by decide)
    rw [← hu]
    exact h0.su (by decide)
  have hall : Keeps [.out, .firn, .pwr, .su] s.bare (wakeSys 23 u) := Keeps.step hw (by decide) hu'
  have hnext : Keeps [.out, .firn, .pwr, .su] s { wakeSys 23 u with pending := s.pending } := hall.bare (by decide)
  refine ⟨_, hrun, (hw.same .su (by decide)).trans (hu ▸ rfl), (hw.same .firn (by decide)).trans (hu ▸ rfl), fun hd => ?_, hnext.mono (by decide)⟩
  exact wakeSys_asks 23 u (by decide) (hu ▸ hd)

/-- A warm start without an error keeps every record (R468). -/
theorem firnInitEnd_warm (hc : s.su.cold = false) (hb : s.su.bist = false) (h5 : s.rd Reg.SU_STAT_START ≠ 5) :
    exec (.firnInitEnd [] bist) s = .next { s with out := [], su := { s.su with phase := 2 } } := by
  refine (firnInit_run [] bist s h1 hh).trans ?_
  have hrec : recStage [] (bistStage bist s.bare) = s.bare := by
    rw [bistStage_off bist (s := s.bare) hb, recStage_warm (s := s.bare) hc]
  have hstart : (s.rd Reg.SU_STAT_START == 5) = false := beq_eq_false_iff_ne.2 h5
  rw [hrec]
  unfold phaseStage
  rw [hc, if_neg Bool.false_ne_true, if_neg]
  · rfl
  · show ¬ (_ && (s.rd Reg.SU_STAT_START == 5)) = true
    rw [hstart, Bool.and_false]
    exact Bool.false_ne_true

/-- The armed self-test leaves no record, and its result stands in FIRN_BIST (R513). -/
theorem firnInitEnd_bist (hb : s.su.bist = true) :
    ∃ t, exec (.firnInitEnd errs bist) s = .next t ∧ t.su = { s.su with phase := 2, cold := true } ∧ t.firn = { tagGen := s.firn.tagGen } ∧
      t.rd Reg.FIRN_BIST_DONE = 1 ∧ t.rd Reg.FIRN_BIST_ARM = 0 ∧ t.rd Reg.FIRN_BIST_COUNT = min (2 ^ 14 - 1) bist.length := by
  obtain ⟨hsu, hfirn, hdone, harm, hcount⟩ := bistEnd_does bist s.bare
  obtain ⟨v, hv⟩ : ∃ v, rebuildHostQ (bistEnd bist s.bare) = v := ⟨_, rfl⟩
  have hvsu : v.su = { s.su with cold := true } := hv ▸ hsu
  have hvfirn : v.firn = { tagGen := s.firn.tagGen } := hv ▸ hfirn
  have hvrd (f : Fld) : v.rd f = (bistEnd bist s.bare).rd f := hv ▸ rfl
  obtain ⟨u, hu⟩ : ∃ u : State, { v with firn := { tagGen := v.firn.tagGen }, su := { v.su with phase := 2 } } = u := ⟨_, rfl⟩
  have hstage : recStage errs (bistStage bist s.bare) = { v with firn := { tagGen := v.firn.tagGen } } := by
    unfold bistStage recStage
    rw [if_pos (show s.bare.su.bist = true from hb), hv, if_pos (by rw [hvsu])]
  have hrun := firnInit_run errs bist s h1 hh
  rw [hstage] at hrun
  obtain ⟨w, hw⟩ : ∃ w, phaseStage s.su.cold u = w := ⟨_, rfl⟩
  have hkeep : Keeps [.pwr, .bar, .gate, .edw] u w := by
    rw [← hw]
    unfold phaseStage
    split_ifs
    · exact (wakeSys_keeps ..).mono (by decide)
    · exact (edwOn_keeps _).mono (by decide)
    · exact Keeps.refl
  have hwrd (f : Fld) : w.rd f = (bistEnd bist s.bare).rd f := (hkeep.rd_eq f).trans ((hu ▸ rfl : u.rd f = v.rd f).trans (hvrd f))
  have hwsu : w.su = { s.su with phase := 2, cold := true } := by
    rw [hkeep.same .su (by decide), ← hu]
    exact congrArg (fun x : SuS => { x with phase := 2 }) hvsu
  have hwfirn : w.firn = { tagGen := s.firn.tagGen } := by
    rw [hkeep.same .firn (by decide), ← hu]
    exact (congrArg (fun x : FirnS => ({ tagGen := x.tagGen } : FirnS)) hvfirn :)
  rw [show phaseStage s.su.cold _ = w from (congrArg (phaseStage s.su.cold) hu).trans hw] at hrun
  exact ⟨_, hrun, hwsu, hwfirn, (hwrd _).trans hdone, (hwrd _).trans harm, (hwrd _).trans hcount⟩

end

theorem startupLoadEnd_links (hc : clocked s = true) (h3 : s.su.phase = 3) (hr : s.img.load.st = .ready) (h0 : s.img.load.s0 = true)
    (he : edwDone s = true) (hd : ∀ d < 20, s.dom d = 2 ∨ s.dom d = 3) :
    ∃ t, exec .startupLoadEnd s = .next t ∧ t.su = { s.su with phase := 4, linkFrom := s.time.now } ∧ Keeps [.out, .lnk, .pwr, .su] s t := by
  refine next_clk hc fun t hx hrun => ?_
  have hdoms : ((List.range 20).all fun d => s.dom d == 2 || s.dom d == 3) = true := by
    rw [List.all_eq_true]
    intro d hmem
    rw [Bool.or_eq_true, beq_iff_eq, beq_iff_eq]
    exact hd d (List.mem_range.1 hmem)
  have ht : enterLink s.bare = t := (if_pos ⟨h3, hr, h0, he, hdoms⟩).symm.trans hx
  exact ⟨(congrArg State.su ht.symm).trans (enterLink_su s.bare), (execStartupLoadEnd_keeps s).next _ hrun⟩

/-- A port that is enabled and not UP. -/
def linkDown (s : State) (p : Nat) : Bool := s.flag (Reg.LNK_CTRL_EN p) && !portUp s p

theorem linkPhaseEnd_ends (hc : clocked s = true) (h4 : s.su.phase = 4)
    (hup : ∀ p < 4, s.flag (Reg.LNK_CTRL_EN p) = true → portUp s p = true) (hsync : s.isMaster = true ∨ s.time.exchanged = true) :
    exec .linkPhaseEnd s = .next { s with out := [], su := { s.su with phase := 5 } } := by
  refine runClk_eq (t := { s.bare with su := { s.su with phase := 5 } }) hc ?_
  have hsynced : (!s.bare.isMaster && !s.bare.time.exchanged) = false := by
    rcases hsync with h | h
    · rw [show s.bare.isMaster = true from h]; rfl
    · rw [show s.bare.time.exchanged = true from h, Bool.not_true, Bool.and_false]
  have hdown : ([0, 1, 2, 3].any fun p => s.bare.flag (Reg.LNK_CTRL_EN p) && !portUp s.bare p) = false := by
    rw [List.any_eq_false]
    intro p hp hdown
    have hlt : p < 4 := by
      simp only [List.mem_cons, List.not_mem_nil, or_false] at hp
      omega
    rw [Bool.and_eq_true, Bool.not_eq_true'] at hdown
    exact Bool.false_ne_true (hdown.2.symm.trans (hup p hlt hdown.1))
  dsimp only
  rw [hsynced, hdown, if_neg]
  · rfl
  · rw [show s.bare.su.phase = 4 from h4, Bool.false_and, Bool.or_false, Bool.and_false]
    exact fun h => h.elim (fun h => h rfl) Bool.false_ne_true

theorem linkPhaseEnd_late (hc : clocked s = true) (h4 : s.su.phase = 4) (hlate : s.su.linkFrom.toNat + 16000000 ≤ s.t)
    (hdown : ∃ p < 4, s.flag (Reg.LNK_CTRL_EN p) = true ∧ portUp s p = false) (hsync : s.isMaster = true ∨ s.time.exchanged = true) :
    ∃ t, exec .linkPhaseEnd s = .next t ∧ t.su = { s.su with phase := 5 } ∧ t.rd Reg.SU_STAT_LINKTMO = 1 ∧ Keeps [.out, .regs, .su] s t := by
  have hsynced : (!s.bare.isMaster && !s.bare.time.exchanged) = false := by
    rcases hsync with h | h
    · rw [show s.bare.isMaster = true from h]; rfl
    · rw [show s.bare.time.exchanged = true from h, Bool.not_true, Bool.and_false]
  have hany : ([0, 1, 2, 3].any fun p => s.bare.flag (Reg.LNK_CTRL_EN p) && !portUp s.bare p) = true := by
    obtain ⟨p, hp, hen, hd⟩ := hdown
    refine List.any_eq_true.2 ⟨p, ?_, ?_⟩
    · simp only [List.mem_cons, List.not_mem_nil]
      omega
    · rw [show s.bare.flag (Reg.LNK_CTRL_EN p) = true from hen, show portUp s.bare p = false from hd]
      rfl
  have hpast : decide (s.bare.su.linkFrom.toNat + 16000000 ≤ s.bare.t) = true := decide_eq_true hlate
  have hrun : exec .linkPhaseEnd s =
      .next { { s.bare.raise Reg.SU_STAT_LINKTMO with su := { s.su with phase := 5 } } with pending := s.pending } := by
    refine runClk_eq hc ?_
    dsimp only
    rw [hsynced, hany, hpast, if_neg]
    · rfl
    · rw [show s.bare.su.phase = 4 from h4, Bool.not_true, Bool.false_and]
      exact fun h => h.elim (fun h => h rfl) Bool.false_ne_true
  have hall : Keeps [.out, .regs, .su] s.bare { s.bare.raise Reg.SU_STAT_LINKTMO with su := { s.su with phase := 5 } } :=
    (Keeps.refl.regs (by decide)).su (by decide)
  exact ⟨_, hrun, rfl, State.rd_wr_same s.bare Reg.SU_STAT_LINKTMO 1, hall.bare (by decide)⟩

end

/-- Settles O46: the phases of start-up follow in order. -/
theorem startUp : Obligations.StartUp :=
  ⟨fun _ h0 hh => tclkLock_starts h0 hh, fun _ _ _ h1 hh hc hb => firnInitEnd_cold h1 hh hc hb,
    fun _ _ h1 hh hc hb h5 => firnInitEnd_warm h1 hh hc hb h5, fun _ _ _ h1 hh hb => firnInitEnd_bist h1 hh hb,
    fun _ hc h3 hr h0 he hd => startupLoadEnd_links hc h3 hr h0 he hd, fun _ hc h4 hup hs => linkPhaseEnd_ends hc h4 hup hs,
    fun _ hc h4 hl hd hs => linkPhaseEnd_late hc h4 hl hd hs⟩

end Sys2Proof.Machine

namespace Sys2Proof.Machine

set_option Elab.async false

-- a reset of the whole die leaves the word of FIRN_BIST, which lies in the always-on island (R489, R513)

theorem tget_filter_stays {α : Type} (d : α) {p : Nat × α → Bool} {k : Nat} (h : ∀ v, p (k, v) = true) (t : Tbl α) :
    tget d (t.filter p) k = tget d t k := by
  induction t with
  | nil => rfl
  | cons a t ih =>
    obtain ⟨j, v⟩ := a
    by_cases hj : j = k
    · subst hj
      rw [List.filter_cons_of_pos (h v)]
      unfold tget
      rw [if_pos rfl, if_pos rfl]
    · have hrest : tget d ((j, v) :: t) k = tget d t k := by
        rw [show tget d ((j, v) :: t) k = if j = k then v else tget d t k from rfl, if_neg hj]
      rw [hrest, ← ih]
      by_cases hp : p (j, v) = true
      · rw [List.filter_cons_of_pos hp]
        rw [show tget d ((j, v) :: t.filter p) k = if j = k then v else tget d (t.filter p) k from rfl, if_neg hj]
      · rw [List.filter_cons_of_neg hp]

/-- The word of FIRN_BIST reads the same. -/
abbrev SameBist (s t : State) : Prop := SameWord 0x2007C s t

theorem trace_bist (p d : Nat) (m : Msg) (s : State) : SameBist s (trace p d m s) := ⟨fun f hf hl => trace_rd p d m s f (by omega) hl⟩

theorem raiseInt_bist (src payload : Nat) (s : State) : SameBist s (raiseInt src payload s) :=
  ⟨fun f hf hl => raiseInt_rd src payload s f (by omega) hl⟩

theorem mrnFull_bist (i : Nat) (s : State) : SameBist s (mrnFull i s) := by
  unfold mrnFull
  split_ifs
  · dsimp only
    refine .trans (.trans ?_ (.inc Reg.MRN_STAT_FULLS 1 _ (by decide) (by decide))) (raiseInt_bist ..)
    exact .ofRegs rfl
  · exact .refl

theorem verSeen_bist (m : Msg) (r : Route) (s : State) : SameBist s (verSeen m r s) := by
  have hoff : (Reg.VER_INFLIGHT_SEEN m.rver.toNat).off ≠ 0x2007C := by
    have := m.rver.isLt
    unfold Reg.VER_INFLIGHT_SEEN
    dsimp only
    omega
  have hraise : SameBist s (s.raise (Reg.VER_INFLIGHT_SEEN m.rver.toNat)) := .wr s 1 hoff (by exact (by decide : 31 < 32))
  unfold verSeen
  split
  · split_ifs
    · exact hraise
    · exact .refl
  · exact hraise

theorem takeRoutes_bist (m : Msg) (b : Bool) (l : List (BitVec 12)) (s : State) : SameBist s (takeRoutes m b l s).2 := by
  induction l generalizing s with
  | nil => exact .refl
  | cons d l ih =>
    have hmiss : SameBist s (if (routeOf s m d b).miss then s.inc Reg.RT_STAT_VERMISS else s) := by
      split_ifs
      · exact .inc Reg.RT_STAT_VERMISS 1 s (by decide) (by decide)
      · exact .refl
    unfold takeRoutes
    dsimp only
    split
    · refine (hmiss.trans (.inc _ 1 _ ?_ (by exact (by decide : 0 < 32)))).trans (ih _)
      unfold Reg.LNK_SFLUSH
      dsimp only
      omega
    · exact (hmiss.trans (verSeen_bist ..)).trans (ih _)

theorem xbStore_bist (i : Nat) (m : Msg) (l : List (BitVec 12)) (b : Bool) (r : Option Nat) (p : Place) (s : State) :
    SameBist s (xbStore i m l b r p s) := by
  unfold xbStore
  dsimp only
  obtain ⟨x, hx⟩ : ∃ x, (if i = 21 then { m with rver := BitVec.ofNat 3 (s.rd Reg.ROUTE_VER_VER) } else m) = x := ⟨_, rfl⟩
  rw [hx]
  obtain ⟨u, hu⟩ : ∃ u, takeRoutes x r.isSome l s = u := ⟨_, rfl⟩
  have hs : SameBist s u.2 := hu ▸ takeRoutes_bist ..
  rw [hu]
  have hw : SameBist s (wakeRoutes x u.1 { u.2 with xb := { u.2.xb with serial := u.2.xb.serial + 1 } }) :=
    (hs.trans (SameWord.ofRegs (t := { u.2 with xb := { u.2.xb with serial := u.2.xb.serial + 1 } }) rfl)).trans (.ofKeeps (wakeRoutes_keeps ..))
  split
  · exact hs
  · cases p with
    | buf k => exact hw.trans (.ofKeeps (State.setBuf_keeps ..))
    | staging j =>
      dsimp only
      split_ifs
      · exact hw.trans (.ofKeeps (State.setStaging_keeps ..))
      · exact (hw.trans (.ofKeeps (State.setStaging_keeps ..))).trans (trace_bist ..)
    | _ => exact hw

theorem xbTry_bist (i : Nat) (m : Msg) (b : Bool) (r : Option Nat) (s : State) : SameBist s (xbTry i m b r s).2 := by
  unfold xbTry
  cases xbRoom s i m.cls with
  | some p => exact xbStore_bist i m [m.dest] b r p s
  | none =>
    dsimp only
    split_ifs
    · exact mrnFull_bist ..
    · exact .refl

theorem pumpList_bist (i : Nat) (l : List RecEntry) (shut : List Cls) (s : State) : SameBist s (pumpList i l shut s).2 := by
  induction l generalizing shut s with
  | nil => exact .refl
  | cons e l ih =>
    unfold pumpList
    split_ifs
    · exact ih shut s
    · have htry := xbTry_bist i e.msg e.restored e.res s
      obtain ⟨⟨took, u⟩, hu⟩ : ∃ u, xbTry i e.msg e.restored e.res s = u := ⟨_, rfl⟩
      rw [hu] at htry ⊢
      cases took with
      | true => exact htry.trans (ih shut u)
      | false => exact htry.trans (ih _ u)

theorem sendCtl_bist (m : Msg) (s : State) : SameBist s (sendCtl m s) :=
  let u : State := { s with xb := { s.xb with ctlHold := s.xb.ctlHold ++ [m] } }
  have hu : SameBist s u := .ofRegs rfl
  have hp : SameBist u (pumpCtl u) := (pumpList_bist 22 (u.xb.ctlHold.map fun m => { msg := m }) [] u).trans (.ofRegs rfl)
  hu.trans hp

theorem sendRec_bist (e : RecEntry) (s : State) : SameBist s (sendRec e s) :=
  let u : State := { s with xb := { s.xb with recHold := s.xb.recHold ++ [e] } }
  have hu : SameBist s u := .ofRegs rfl
  have hp : SameBist u (pumpRec u) := (pumpList_bist 21 u.xb.recHold [] u).trans (.ofRegs rfl)
  hu.trans hp

theorem freeEvent_bist (k : Nat) (e : FirnRec) (s : State) : SameBist s (freeEvent k e s) :=
  (SameWord.ofKeeps (State.setRec_keeps ..)).trans (.each _ (fun _ _ => sendRec_bist ..) _)

theorem releaseEvent_bist (k : Nat) (e : FirnRec) (s : State) : SameBist s (releaseEvent k e s) := by
  unfold releaseEvent
  split
  · split_ifs
    · exact freeEvent_bist ..
    · exact (SameWord.ofKeeps (State.setRec_keeps ..)).trans (sendCtl_bist ..)
  · exact freeEvent_bist ..

theorem applyDone_bist (m : Msg) (x : BitVec 12) (die : BitVec 5) (s : State) : SameBist s (applyDone m x die s) := by
  unfold applyDone
  split_ifs
  · exact .ofRegs rfl
  · split
    · dsimp only
      split_ifs
      · exact .ofKeeps (State.setRec_keeps ..)
      · exact releaseEvent_bist ..
      · exact .ofKeeps (State.setRec_keeps ..)
    · exact .refl

theorem cutOffers_bist (s : State) : SameBist s (cutOffers s) := by
  unfold cutOffers
  dsimp only
  have hcut : SameBist s { s with acc := { counters := s.acc.counters } } := .ofRegs rfl
  refine hcut.trans (.each _ (fun o s => ?_) _)
  split
  · split
    · exact (SameWord.ofKeeps (State.setRec_keeps ..)).trans (.each _ (fun _ _ => applyDone_bist ..) _)
    · exact .refl
  · exact .refl

theorem stampPersist_bist (s : State) : SameBist s (stampPersist s) :=
  ((SameWord.wr s _ (by decide) (by decide)).trans (.wr _ _ (by decide) (by decide))).trans (.wr _ _ (by decide) (by decide))

theorem noteReset_bist (kind index : Nat) (s : State) : SameBist s (noteReset kind index s) :=
  ((SameWord.wr s _ (by decide) (by decide)).trans (.wr _ _ (by decide) (by decide))).trans (.inc _ _ _ (by decide) (by decide))

theorem lockBreak_bist (i cause : Nat) (s : State) : SameBist s (lockBreak i cause s) := by
  unfold lockBreak
  dsimp only
  split_ifs
  · exact .refl
  · exact ((SameWord.ofKeeps (lockFree_keeps ..)).trans (.ofKeeps (State.setLock_keeps ..))).trans (raiseInt_bist ..)

theorem bist_row : findReg 0x2007C = some (⟨.FIRN_BIST, 0x2007C, 4, 1, 4, 1, .aon,
    [⟨0, 1, .rw, 0⟩, ⟨1, 1, .rc, 0⟩, ⟨2, 1, .ro, 0⟩, ⟨3, 15, .ro, 0⟩, ⟨18, 14, .ro, 0⟩]⟩, 0, 0) := by decide +kernel

theorem resetRegs_bist (die : Bool) (s : State) : SameBist s (resetRegs (inInstance die) s) := by
  refine ⟨fun f hf hl => ?_⟩
  refine tget_filter_stays _ (fun v => ?_) _
  have hkey : f.key / 32 = 0x2007C := by
    unfold Fld.key
    omega
  dsimp only
  rw [hkey, bist_row]
  dsimp only
  split
  · rfl
  · rfl

end Sys2Proof.Machine

namespace Sys2Proof.Machine

set_option Elab.async false

-- a reset of the whole die (R461, R466)

/-- Every burst is flushed. -/
def flushBursts (s : State) : State :=
  s.each ((List.range 4).filter fun r => !(s.segOf r).bursts.isEmpty) fun r s => s.emit (.act r 0 0 false false false false true)

theorem flushBursts_keeps (s : State) : Keeps [.out] s (flushBursts s) := Keeps.each (fun _ _ => Keeps.refl.out (by decide)) Keeps.refl

/-- Held words are restored, domains off and offers cut. -/
def cutWork (s : State) : State := cutOffers (domainsOff (restoreHeld .field s))

theorem cutWork_keeps (s : State) : Keeps [.staged, .img, .pwr, .regs, .src, .acc, .firn, .xb, .trc] s (cutWork s) :=
  Keeps.step (cutOffers_keeps _) (by decide) (Keeps.step (domainsOff_keeps _) (by decide) (Keeps.step (restoreHeld_keeps ..) (by decide) Keeps.refl))

theorem cutWork_bist (s : State) : SameBist s (cutWork s) :=
  ((SameWord.ofKeeps (restoreHeld_keeps ..)).trans (.ofKeeps (domainsOff_keeps _))).trans (cutOffers_bist _)

/-- What is in flight when a reset of the whole die comes: bursts are flushed, held words restored, domains off, offers cut, a persist ended. -/
def cutInstance (s : State) : State :=
  let s := cutWork (flushBursts s)
  if persistCut s.img.load then stampPersist s else s

/-- The ports are reset, and after a die reset the W1 words of the die may be written again. -/
def resetPorts (die : Bool) (s : State) : State :=
  let s := s.each [0, 1, 2, 3] resetPort
  if die then { s with once := s.once.filter fun e => decide (0x100000 ≤ e.1) } else s

theorem resetPorts_keeps (die : Bool) (s : State) : Keeps [.lnk, .once] s (resetPorts die s) := by
  have hports : Keeps [.lnk, .once] s (s.each [0, 1, 2, 3] resetPort) :=
    Keeps.each (fun _ _ => Keeps.step (resetPort_keeps ..) (by decide) Keeps.refl) Keeps.refl
  cases die with
  | true => exact hports.once (by decide)
  | false => exact hports

/-- Ports, registers, spares and locks after a reset of the whole die. -/
def closeInstance (die : Bool) (s : State) : State :=
  let s := rebuildHostQ (resetRegs (inInstance die) (resetPorts die s))
  let s := s.each (List.range 4) fun r s => s.setSeg r { spare := configuredSpare s r }
  s.each (List.range 64) fun i s => lockBreak i 0 s

/-- The parts of the flash and the OTP that resets leave. -/
def flashOf (i : ImgS) : ImgS := { flashA := i.flashA, flashB := i.flashB, torn := i.torn, mark0 := i.mark0, mark1 := i.mark1, otp := i.otp }

theorem restoreHeld_flash (d : Side) (s : State) : flashOf (restoreHeld d s).img = flashOf s.img := by
  unfold restoreHeld
  dsimp only
  refine State.each_inv (fun s => flashOf s.img) _ (fun h u => ?_) s
  split
  · exact congrArg flashOf ((unstageWord_keeps ..).same .img (by decide))
  · rfl

theorem cutWork_flash (s : State) : flashOf (cutWork s).img = flashOf s.img := by
  unfold cutWork
  rw [(cutOffers_keeps _).same .img (by decide), (domainsOff_keeps _).same .img (by decide), restoreHeld_flash]

theorem cutInstance_keeps (s : State) : Keeps [.out, .staged, .img, .pwr, .regs, .src, .acc, .firn, .xb, .trc] s (cutInstance s) := by
  have hcut : Keeps [.out, .staged, .img, .pwr, .regs, .src, .acc, .firn, .xb, .trc] s (cutWork (flushBursts s)) :=
    Keeps.step (cutWork_keeps _) (by decide) (Keeps.step (flushBursts_keeps s) (by decide) Keeps.refl)
  unfold cutInstance
  dsimp only
  split
  · exact Keeps.step (stampPersist_keeps _) (by decide) hcut
  · exact hcut

theorem cutInstance_flash (s : State) : flashOf (cutInstance s).img = flashOf s.img := by
  have hcut : flashOf (cutWork (flushBursts s)).img = flashOf s.img := by
    rw [cutWork_flash, (flushBursts_keeps s).same .img (by decide)]
  unfold cutInstance
  dsimp only
  split
  · rw [(stampPersist_keeps _).same .img (by decide), hcut]
  · exact hcut

theorem cutInstance_bist (s : State) : SameBist s (cutInstance s) := by
  have hcut : SameBist s (cutWork (flushBursts s)) := (SameWord.ofKeeps (flushBursts_keeps s)).trans (cutWork_bist _)
  unfold cutInstance
  dsimp only
  split
  · exact hcut.trans (stampPersist_bist _)
  · exact hcut

theorem closeInstance_keeps (die : Bool) (s : State) : Keeps [.lnk, .once, .regs, .hostq, .seg, .src, .lock, .trc] s (closeInstance die s) :=
  Keeps.each (fun _ _ => Keeps.step (lockBreak_keeps ..) (by decide) Keeps.refl)
    (Keeps.each (fun _ _ => Keeps.step (State.setSeg_keeps ..) (by decide) Keeps.refl)
      (Keeps.step (rebuildHostQ_keeps _) (by decide) (Keeps.step (resetRegs_keeps ..) (by decide)
        (Keeps.step (resetPorts_keeps die s) (by decide) Keeps.refl))))

theorem closeInstance_bist (die : Bool) (s : State) : SameBist s (closeInstance die s) :=
  ((((SameWord.ofKeeps (resetPorts_keeps die s)).trans (resetRegs_bist die _)).trans (.ofKeeps (rebuildHostQ_keeps _))).trans
    (.each (List.range 4) (fun _ _ => .ofKeeps (State.setSeg_keeps ..)) _)).trans (.each (List.range 64) (fun i u => lockBreak_bist i 0 u) _)

/-- What a reset of the whole die empties, and what it leaves. -/
structure Emptied (s t : State) : Prop where
  su : t.su = s.su
  xb : t.xb = {}
  rq : t.rq = {}
  camp : t.camp = []
  bar : t.bar = {}
  staged : t.staged = []
  writes : t.firn.writes = []
  dones : t.firn.dones = []
  flash : flashOf t.img = flashOf s.img
  edw : t.edw = s.edw
  pins : t.pins = s.pins
  gate : t.gate = s.gate
  now : t.time.now = s.time.now
  bist : SameBist s t

theorem Emptied.closes {s t : State} (h : Emptied s t) (die : Bool) : Emptied s (closeInstance die t) := by
  have hk := closeInstance_keeps die t
  obtain ⟨hsu, hxb, hrq, hcamp, hbar, hstaged, hwrites, hdones, hflash, hedw, hpins, hgate, hnow, hbist⟩ := h
  exact ⟨(hk.same .su (by decide)).trans hsu, (hk.same .xb (by decide)).trans hxb, (hk.same .rq (by decide)).trans hrq,
    (hk.same .camp (by decide)).trans hcamp, (hk.same .bar (by decide)).trans hbar, (hk.same .staged (by decide)).trans hstaged,
    (congrArg FirnS.writes (hk.same .firn (by decide))).trans hwrites, (congrArg FirnS.dones (hk.same .firn (by decide))).trans hdones,
    (congrArg flashOf (hk.same .img (by decide))).trans hflash, (hk.same .edw (by decide)).trans hedw, (hk.same .pins (by decide)).trans hpins,
    (hk.same .gate (by decide)).trans hgate, (congrArg TimeS.now (hk.same .time (by decide))).trans hnow, hbist.trans (closeInstance_bist die t)⟩

theorem copies_flash (s : State) : flashOf (s.each s.img.copies copyBack).img = flashOf s.img :=
  State.each_inv (fun s => flashOf s.img) _ (f := copyBack) (fun _ _ => rfl) s

theorem resetInstance_empties (die : Bool) (s : State) : Emptied s (resetInstance die s) := by
  obtain ⟨c, hc⟩ : ∃ c, cutInstance s = c := ⟨_, rfl⟩
  have hk : Keeps [.out, .staged, .img, .pwr, .regs, .src, .acc, .firn, .xb, .trc] s c := hc ▸ cutInstance_keeps s
  have hflash : flashOf c.img = flashOf s.img := hc ▸ cutInstance_flash s
  have hbist : SameBist s c := hc ▸ cutInstance_bist s
  obtain ⟨v, hv, hcv⟩ : ∃ v, resetInstance die s = closeInstance die v ∧ Emptied c v := by
    subst hc
    cases die with
    | true => exact ⟨_, rfl, rfl, rfl, rfl, rfl, rfl, rfl, rfl, rfl, rfl, rfl, rfl, rfl, rfl, .ofRegs rfl⟩
    | false => exact ⟨_, rfl, rfl, rfl, rfl, rfl, rfl, rfl, rfl, rfl, copies_flash _, rfl, rfl, rfl, rfl, .ofRegs rfl⟩
  obtain ⟨hsu, hxb, hrq, hcamp, hbar, hstaged, hwrites, hdones, hfl, hedw, hpins, hgate, hnow, hb⟩ := hcv
  have hsv : Emptied s v := ⟨hsu.trans (hk.same .su (by decide)), hxb, hrq, hcamp, hbar, hstaged, hwrites, hdones, hfl.trans hflash,
    hedw.trans (hk.same .edw (by decide)), hpins.trans (hk.same .pins (by decide)), hgate.trans (hk.same .gate (by decide)),
    hnow.trans (congrArg TimeS.now (hk.same .time (by decide))), hbist.trans hb⟩
  rw [hv]
  exact hsv.closes die

end Sys2Proof.Machine

namespace Sys2Proof.Machine

set_option Elab.async false

-- resets of the die and above (R461 to R468, R519)

section
variable {s u : State} (h : Emptied s u)
include h

theorem Emptied.armed : bistArmed u = bistArmed s := by
  unfold bistArmed State.flag
  rw [h.bist.rd _ rfl (by decide), h.pins]

/-- Start-up begins anew from phase FIRN after a reset of the whole die. -/
theorem Emptied.starts (c : Nat) (soft : Bool) :
    (startFrom c soft u).su = { phase := 1, cold := false, soft := soft, bist := bistArmed s, gens := s.su.gens + 1 } := by
  rw [← h.armed, ← h.su]
  rfl

theorem Emptied.flashA : u.img.flashA = s.img.flashA := (congrArg ImgS.flashA h.flash :)
theorem Emptied.flashB : u.img.flashB = s.img.flashB := (congrArg ImgS.flashB h.flash :)
theorem Emptied.torn : u.img.torn = s.img.torn := (congrArg ImgS.torn h.flash :)
theorem Emptied.mark0 : u.img.mark0 = s.img.mark0 := (congrArg ImgS.mark0 h.flash :)
theorem Emptied.mark1 : u.img.mark1 = s.img.mark1 := (congrArg ImgS.mark1 h.flash :)
theorem Emptied.otp : u.img.otp = s.img.otp := (congrArg ImgS.otp h.flash :)

end

section
variable {s : State}

theorem rstSoftInstance_restarts (hc : clocked s = true) : ∃ t, exec .rstSoftInstance s = .next t ∧
    t.su = { phase := 1, cold := false, soft := true, bist := bistArmed s, gens := s.su.gens + 1 } ∧ t.xb = {} ∧ t.rq = {} ∧ t.camp = [] ∧
    t.bar = {} ∧ t.staged = [] ∧ t.firn.writes = [] ∧ t.firn.dones = [] ∧ t.img.flashA = s.img.flashA ∧ t.img.flashB = s.img.flashB ∧
    t.img.torn = s.img.torn ∧ t.img.mark0 = s.img.mark0 ∧ t.img.mark1 = s.img.mark1 ∧ t.img.otp = s.img.otp ∧ t.edw = s.edw ∧ t.pins = s.pins ∧
    t.gate = s.gate ∧ t.time.now = s.time.now ∧ t.rd Reg.SU_STAT_START = 4 ∧ t.rd Reg.SU_STAT_FIRNKEPT = 1 := by
  refine next_clk hc fun t hx hrun => ?_
  obtain ⟨n, hn⟩ : ∃ n, noteReset 4 0 s.bare = n := ⟨_, rfl⟩
  have hsn : Keeps [.regs] s.bare n := hn ▸ noteReset_keeps 4 0 s.bare
  have harm : bistArmed n = bistArmed s := by
    unfold bistArmed State.flag
    rw [(hn ▸ noteReset_bist 4 0 s.bare : SameBist s.bare n).rd _ rfl (by decide), hsn.same .pins (by decide)]
    rfl
  obtain ⟨u, hu⟩ : ∃ u, resetInstance false n = u := ⟨_, rfl⟩
  have he : Emptied n u := hu ▸ resetInstance_empties false n
  have ht : startFrom 4 true u = t := by rw [← hu, ← hn]; exact hx
  have hk : Keeps [.regs, .su] u t := ht ▸ startFrom_keeps 4 true u
  obtain ⟨hstart, hkept⟩ := startFrom_rd 4 true u (by decide)
  rw [ht] at hstart hkept
  have hsu := he.starts 4 true
  rw [ht, harm, hsn.same .su (by decide)] at hsu
  have himg : t.img = u.img := hk.same .img (by decide)
  have hnimg : n.img = s.img := hsn.same .img (by decide)
  have hnow : t.time.now = s.time.now :=
    (congrArg TimeS.now (hk.same .time (by decide))).trans (he.now.trans (congrArg TimeS.now (hsn.same .time (by decide))))
  refine ⟨hsu, (hk.same .xb (by decide)).trans he.xb, (hk.same .rq (by decide)).trans he.rq, (hk.same .camp (by decide)).trans he.camp,
    (hk.same .bar (by decide)).trans he.bar, (hk.same .staged (by decide)).trans he.staged,
    (congrArg FirnS.writes (hk.same .firn (by decide))).trans he.writes, (congrArg FirnS.dones (hk.same .firn (by decide))).trans he.dones,
    ?_, ?_, ?_, ?_, ?_, ?_, (hk.same .edw (by decide)).trans (he.edw.trans (hsn.same .edw (by decide))),
    (hk.same .pins (by decide)).trans (he.pins.trans (hsn.same .pins (by decide))),
    (hk.same .gate (by decide)).trans (he.gate.trans (hsn.same .gate (by decide))), hnow, hstart, hkept⟩
  · exact (congrArg ImgS.flashA himg).trans (he.flashA.trans (congrArg ImgS.flashA hnimg))
  · exact (congrArg ImgS.flashB himg).trans (he.flashB.trans (congrArg ImgS.flashB hnimg))
  · exact (congrArg ImgS.torn himg).trans (he.torn.trans (congrArg ImgS.torn hnimg))
  · exact (congrArg ImgS.mark0 himg).trans (he.mark0.trans (congrArg ImgS.mark0 hnimg))
  · exact (congrArg ImgS.mark1 himg).trans (he.mark1.trans (congrArg ImgS.mark1 hnimg))
  · exact (congrArg ImgS.otp himg).trans (he.otp.trans (congrArg ImgS.otp hnimg))

theorem rstDie_holds (h0 : s.su.phase ≠ 0) (hr : s.pins.rdpErase = false) : ∃ t, exec .rstDie s = .next t ∧
    t.su = { phase := 1, cold := false, bist := bistArmed s, gens := s.su.gens + 1, hold := true, holdPhase := 1 } ∧ t.xb = {} ∧ t.rq = {} ∧
    t.camp = [] ∧ t.img.flashA = s.img.flashA ∧ t.img.flashB = s.img.flashB ∧ t.img.torn = s.img.torn ∧ t.img.mark0 = s.img.mark0 ∧
    t.img.mark1 = s.img.mark1 ∧ t.img.otp = s.img.otp ∧ t.time.now = s.time.now ∧ t.gate = s.gate ∧ t.pins = s.pins := by
  refine next_run fun t hx hrun => ?_
  obtain ⟨u, hu⟩ : ∃ u, resetInstance true s.bare = u := ⟨_, rfl⟩
  have he : Emptied s.bare u := hu ▸ resetInstance_empties true s.bare
  obtain ⟨v, hv⟩ : ∃ v, startFrom 3 false u = v := ⟨_, rfl⟩
  have hopen : (decide (s.bare.su.phase = 0) || s.bare.pins.rdpErase) = false := by
    rw [show s.bare.pins.rdpErase = false from hr, Bool.or_false]
    exact decide_eq_false h0
  rw [hopen, if_neg Bool.false_ne_true] at hx
  have ht : { v with su := { v.su with hold := true, holdPhase := 1 } } = t := by rw [← hv, ← hu]; exact hx
  have hk : Keeps [.regs, .su] u t := by
    rw [← ht]
    exact (hv ▸ startFrom_keeps 3 false u : Keeps [.regs, .su] u v).su (by decide)
  have hsu : t.su = { phase := 1, cold := false, bist := bistArmed s, gens := s.su.gens + 1, hold := true, holdPhase := 1 } := by
    rw [← ht]
    exact congrArg (fun x : SuS => { x with hold := true, holdPhase := 1 }) ((congrArg State.su hv).symm.trans (he.starts 3 false))
  have himg : t.img = u.img := hk.same .img (by decide)
  exact ⟨hsu, (hk.same .xb (by decide)).trans he.xb, (hk.same .rq (by decide)).trans he.rq, (hk.same .camp (by decide)).trans he.camp,
    (congrArg ImgS.flashA himg).trans he.flashA, (congrArg ImgS.flashB himg).trans he.flashB, (congrArg ImgS.torn himg).trans he.torn,
    (congrArg ImgS.mark0 himg).trans he.mark0, (congrArg ImgS.mark1 himg).trans he.mark1, (congrArg ImgS.otp himg).trans he.otp,
    (congrArg TimeS.now (hk.same .time (by decide))).trans he.now, (hk.same .gate (by decide)).trans he.gate,
    (hk.same .pins (by decide)).trans he.pins⟩

theorem rstDie_covered (h : s.su.phase = 0 ∨ s.pins.rdpErase = true) : exec .rstDie s = .next { s with out := [] } := by
  refine run_eq (t := s.bare) (if_pos ?_)
  rw [Bool.or_eq_true, decide_eq_true_eq]
  exact h

/-- A package, system or power-on reset is a cold one with its own cause. -/
theorem coldReset_runs {c : Instr} {k : Nat} (hc : c = .powerOn ∧ k = 0 ∨ c = .rstPackage ∧ k = 1 ∨ c = .rstSystem ∧ k = 2)
    (hp : c = .rstPackage → sysHeld s = false) : exec c s = .next { coldReset k s.bare with pending := s.pending } := by
  rcases hc with ⟨rfl, rfl⟩ | ⟨rfl, rfl⟩ | ⟨rfl, rfl⟩
  · exact run_eq rfl
  · exact run_eq (if_neg (by rw [show sysHeld s.bare = false from hp rfl]; exact Bool.false_ne_true))
  · exact run_eq rfl

theorem coldReset_restarts {c : Instr} {k : Nat} (hc : c = .powerOn ∧ k = 0 ∨ c = .rstPackage ∧ k = 1 ∨ c = .rstSystem ∧ k = 2)
    (hp : c = .rstPackage → sysHeld s = false) (he : ∀ r, s.edw.step ≠ .program r) :
    ∃ t, exec c s = .next t ∧ t.su = { hold := true, gens := s.su.gens + 1 } ∧ t.rd Reg.SU_STAT_START = k ∧ t.rd Reg.H_SU_STAT_START = k ∧
      t.img = { flashA := s.img.flashA, flashB := s.img.flashB, torn := s.img.torn, mark0 := s.img.mark0, mark1 := s.img.mark1
                otp := s.img.otp } ∧
      t.edw = { sectors := s.edw.sectors, sector := s.edw.sector } ∧ t.firn = {} ∧ t.xb = {} ∧ t.bar = {} ∧ t.gate = {} ∧ t.time = {} ∧
      t.pwr = {} ∧ t.once = [] ∧ t.staged = [] ∧ t.src.levels = s.src.levels ∧ t.pins = s.pins ∧ t.shape = s.shape :=
  ⟨_, coldReset_runs hc hp, coldReset_does k s.bare (by omega) he⟩

theorem resetRelease_samples {idPkg : BitVec 3} {idDie rdp : BitVec 2} {testEn : Bool} (h : s.su.hold = true) :
    exec (.resetRelease idPkg idDie testEn rdp) s = .next { s with
      out := [], su := { s.su with hold := false, bist := s.flag Reg.FIRN_BIST_ARM && testEn }
      pins := { s.pins with
        idPkg := if s.su.holdPhase = 0 then idPkg else s.pins.idPkg, idDie := if s.su.holdPhase = 0 then idDie else s.pins.idDie
        rdpErase := false, testEn := testEn, rdpLevel := rdp } } := by
  refine run_eq (t := { s.bare with
    su := { s.su with hold := false, bist := s.flag Reg.FIRN_BIST_ARM && testEn }
    pins := { s.pins with
      idPkg := if s.su.holdPhase = 0 then idPkg else s.pins.idPkg, idDie := if s.su.holdPhase = 0 then idDie else s.pins.idDie
      rdpErase := false, testEn := testEn, rdpLevel := rdp } }) ?_
  rw [if_neg (by rw [show s.bare.su.hold = true from h]; exact Bool.false_ne_true)]
  by_cases h0 : s.su.holdPhase = 0
  · have h0' : s.bare.su.holdPhase = 0 := h0
    simp only [if_pos h0, if_pos h0']
    rfl
  · have h0' : ¬ s.bare.su.holdPhase = 0 := h0
    simp only [if_neg h0, if_neg h0']
    rfl

end

/-- Settles O45: resets of the die and above, the host reset and the release of a reset. -/
theorem resets : Obligations.Resets := by
  refine ⟨fun s hc => rstSoftInstance_restarts hc, fun s => ⟨rstDie_covered, rstDie_holds⟩, fun c k s hc hp he => coldReset_restarts hc hp he,
    fun s hh => run_eq (t := s.bare) (if_pos hh), fun s => ?_, fun _ _ _ _ _ h => resetRelease_samples h⟩
  obtain ⟨t, hrun, hoff, hstat, -, hslices, -, -, -, hgen, -, -, hk⟩ := hostReset_frees s
  exact ⟨t, hrun, hoff, hstat, hgen, fun i => (hslices i).1, hk⟩

end Sys2Proof.Machine

namespace Sys2Proof.Machine

set_option Elab.async false

-- what a partition that comes on does to the barrier (R36, R445)

theorem barQueue_field_keeps (typ : BitVec 8) (p : BitVec 128) (s : State) : Keeps [.bar] s (barQueue .field typ p s) := by
  have hset (b : BarS) : Keeps [.bar] s (setBar .field b s) := Keeps.refl.bar (by decide)
  unfold barQueue
  dsimp only
  split_ifs
  · exact Keeps.refl
  · exact hset _
  · exact hset _

theorem sendMeter_field (c : Nat) (s : State) : Keeps [.bar, .edw] s (sendMeter c s) :=
  Keeps.step (barQueue_field_keeps ..) (by decide) (Keeps.step (State.setChan_keeps ..) (by decide) Keeps.refl)

theorem meterAsked_field (p : BitVec 128) (s : State) : Keeps [.bar, .edw] s (meterAsked p s) := by
  unfold meterAsked
  split_ifs
  · exact Keeps.refl
  · exact Keeps.each (fun _ _ => Keeps.step (sendMeter_field ..) (by decide) Keeps.refl) Keeps.refl
  · exact sendMeter_field ..

theorem edwTake_field (typ : BitVec 8) (p : BitVec 128) (s : State) : Keeps [.bar, .edw] s (edwTake typ p s) := by
  unfold edwTake
  dsimp only
  split_ifs
  · exact (State.setChan_keeps ..).mono (by decide)
  · exact meterAsked_field ..
  · exact (sealTrigger_keeps ..).mono (by decide)
  · exact Keeps.refl

theorem edwOn_field (s : State) : Keeps [.bar, .edw] s (edwOn s) := by
  have hscan : Keeps [.bar, .edw] s { s with edw := { s.edw with scan := true } } := Keeps.refl.edw (by decide)
  unfold edwOn serveEdw
  split_ifs
  · exact Keeps.each (fun _ _ => Keeps.step (edwTake_field ..) (by decide) Keeps.refl) (hscan.edw (by decide))
  · exact hscan

theorem sendMeter_scan (c : Nat) (s : State) : (sendMeter c s).edw.scan = s.edw.scan := by
  unfold sendMeter
  dsimp only
  rw [(barQueue_field_keeps ..).same .edw (by decide)]
  rfl

theorem sealTrigger_scan (b : Bool) (s : State) : (sealTrigger b s).edw.scan = s.edw.scan := by
  unfold sealTrigger
  dsimp only
  split_ifs <;> rfl

theorem edwTake_scan (typ : BitVec 8) (p : BitVec 128) (s : State) : (edwTake typ p s).edw.scan = s.edw.scan := by
  unfold edwTake meterAsked
  dsimp only
  split_ifs
  · rfl
  · rfl
  · exact State.each_inv (fun s => s.edw.scan) _ sendMeter_scan s
  · exact sendMeter_scan ..
  · exact sealTrigger_scan ..
  · rfl

theorem edwOn_scan (s : State) : (edwOn s).edw.scan = true := by
  unfold edwOn serveEdw
  split_ifs
  · exact State.each_inv (fun s => s.edw.scan) _ (f := fun (a : BitVec 8 × BitVec 128) s => edwTake a.1 a.2 s) (fun a s => edwTake_scan a.1 a.2 s) _
  · rfl

-- power domains (R450 to R458, R464, R474, R531)

section
variable {s : State}

theorem wakeGrant_host (hr : s.gate.pwrReq = true) (hd : s.gate.pwrE = 0 ∨ s.gate.pwrE = 3) :
    exec (.wakeGrant .host) s = .next (({ s with out := [], gate := { s.gate with
      pwrReq := false, pwrE := 1, pwrGood := false, pwrSince := s.gate.clk } } : State).inc Reg.H_WB_CNT_GRANTS) := by
  refine run_eq (t := ({ s.bare with gate := { s.gate with
    pwrReq := false, pwrE := 1, pwrGood := false, pwrSince := s.gate.clk } } : State).inc Reg.H_WB_CNT_GRANTS) (if_pos ?_)
  rw [show s.bare.gate = s.gate from rfl, hr, Bool.true_and, Bool.or_eq_true, beq_iff_eq, beq_iff_eq]
  exact hd

theorem wakeGrant_field {q : WakeReq} (hc : clocked s = true) (hf : firstWake s = some q) (hq : q.d ≠ 22) (hfit : wakeFits s q = true) :
    ∃ t, exec (.wakeGrant .field) s = .next t ∧ t.dom q.d = 1 ∧ (∀ d, d ≠ q.d → t.dom d = s.dom d) ∧
      t.pwr.reqs = s.pwr.reqs.filter (·.d != q.d) ∧ tget (0, false) t.pwr.tokens q.d = (domCost q.d s, q.cls == 2) ∧
      tget 0 t.pwr.since q.d = s.time.now ∧ Keeps [.out, .regs, .pwr] s t := by
  refine next_run fun t hx hrun => ?_
  have hf' : firstWake s.bare = some q := hf
  have hfit' : wakeFits s.bare q = true := hfit
  have hc' : clocked s.bare = true := hc
  simp only [hc', Bool.not_true, Bool.false_eq_true, ↓reduceIte, noteDelayed_fits q s.bare hf' hfit', hf', hfit'] at hx
  obtain ⟨p, hp⟩ : ∃ p : PwrS, { s.pwr with
    reqs := s.pwr.reqs.filter (·.d != q.d), delayed := s.pwr.delayed.filter (· != q.d), since := tset 0 s.pwr.since q.d s.time.now
    good := tset false s.pwr.good q.d false, tokens := tset (0, false) s.pwr.tokens q.d (domCost q.d s, q.cls == 2) } = p := ⟨_, rfl⟩
  obtain ⟨u, hu⟩ : ∃ u : State, (({ s.bare with pwr := p } : State).setDom q.d 1).inc Reg.WB_CNT_GRANTS = u := ⟨_, rfl⟩
  have ht : noteDelayed u = t := by rw [← hu, ← hp]; exact hx
  obtain ⟨hst, hreqs, htok, hsince⟩ := noteDelayed_view u
  rw [ht] at hst hreqs htok hsince
  have hpst : p.st = s.pwr.st := hp ▸ rfl
  have hdom (d : Nat) : t.dom d = (({ s.bare with pwr := p } : State).setDom q.d 1).dom d := dom_congr (hst.trans (hu ▸ rfl)) d
  refine ⟨(hdom _).trans (dom_setDom _ _ _ hq (by decide)), fun d hd => (hdom d).trans ((dom_setDom_ne _ _ _ _ hd).trans (dom_congr hpst d)),
    ?_, ?_, ?_, ?_⟩
  · exact hreqs.trans (hu ▸ hp ▸ rfl)
  · rw [show ({ t with pending := s.pending } : State).pwr.tokens = p.tokens from htok.trans (hu ▸ rfl), ← hp]
    exact tget_tset_same ..
  · rw [show ({ t with pending := s.pending } : State).pwr.since = p.since from hsince.trans (hu ▸ rfl), ← hp]
    exact tget_tset_same ..
  · have hsu : Keeps [.out, .regs, .pwr] s.bare u := by
      have h0 : Keeps [.out, .regs, .pwr] s.bare { s.bare with pwr := p } := Keeps.refl.pwr (by decide)
      rw [← hu]
      exact (Keeps.step (State.setDom_keeps ..) (by decide) h0).regs (by decide)
    have hall : Keeps [.out, .regs, .pwr] s.bare t := ht ▸ Keeps.step (noteDelayed_keeps u) (by decide) hsu
    exact hall.bare (by decide)

theorem pwrGoodRise_field {d : Fin 24} (hd : d.val ≠ 22) (h1 : s.dom d = 1) :
    exec (.pwrGoodRise .field d) s = .next { s with out := [], pwr := { s.pwr with
      good := tset false s.pwr.good d true, tokens := tset (0, false) s.pwr.tokens d (0, false) } } :=
  run_eq (t := { s.bare with pwr := { s.pwr with
    good := tset false s.pwr.good d true, tokens := tset (0, false) s.pwr.tokens d (0, false) } }) (if_pos ⟨h1, hd⟩)

theorem hostRamp_runs (h1 : s.gate.pwrE = 1) :
    exec (.pwrGoodRise .host 3) s = .next { s with out := [], gate := { s.gate with pwrGood := true } } ∧
    (s.gate.pwrGood = true → exec (.domainReleaseEnd .host 3) s = .next { s with out := [], gate := { s.gate with pwrE := 2 } }) ∧
    (s.gate.pwrGood = false → s.gate.pwrSince.toNat + 800 ≤ s.gate.clk.toNat →
      exec (.domainRampFail .host 3) s = .next { s with out := [], gate := { s.gate with pwrE := 3 } }) := by
  refine ⟨?_, fun hg => ?_, fun hg hlate => ?_⟩
  · exact run_eq (t := { s.bare with gate := { s.gate with pwrGood := true } }) (if_pos ⟨rfl, h1⟩)
  · exact run_eq (t := { s.bare with gate := { s.gate with pwrE := 2 } }) (if_pos ⟨rfl, h1, hg⟩)
  · exact run_eq (t := { s.bare with gate := { s.gate with pwrE := 3 } }) (if_pos ⟨rfl, h1, hg, hlate⟩)

theorem domainRampFail_field {d : Fin 24} (h1 : s.dom d = 1) (hg : tget false s.pwr.good d = false)
    (hlate : (tget 0 s.pwr.since d).toNat + 4 * rampLimit d ≤ s.t) (h3 : s.su.phase ≠ 3) :
    exec (.domainRampFail .field d) s = .next (({ s with out := [], pwr := { s.pwr with
      tokens := tset (0, false) s.pwr.tokens d (0, false)
      resets := s.pwr.resets.filter fun x => x != d.val && x != 32 + d.val } } : State).setDom d 3) := by
  refine run_eq (t := ({ s.bare with pwr := { s.pwr with
    tokens := tset (0, false) s.pwr.tokens d (0, false)
    resets := s.pwr.resets.filter fun x => x != d.val && x != 32 + d.val } } : State).setDom d 3) ?_
  refine (if_neg ?_).trans (tryBoot_not _ h3)
  rintro (h | h | h)
  · exact h h1
  · exact Bool.false_ne_true (hg.symm.trans h)
  · exact absurd hlate (Nat.not_le.2 h)

theorem pwrGoodFall_host (h2 : s.gate.pwrE = 2) : ∃ t, exec (.pwrGoodFall .host 3) s = .next t ∧
    t.gate = { s.gate with pwrE := 3, pwrGood := false, mirror := [], sealSeen := false } ∧ Keeps [.out, .regs, .gate] s t := by
  have hrun : exec (.pwrGoodFall .host 3) s = .next { hostEdwDrop 3 s.bare with pending := s.pending } :=
    run_eq ((if_neg (fun h => h rfl)).trans (if_pos h2))
  have hgate : Keeps [.out, .regs, .gate] s.bare { s.bare with gate := (hostEdwDrop 3 s.bare).gate } := Keeps.refl.gate (by decide)
  have hall : Keeps [.out, .regs, .gate] s.bare (hostEdwDrop 3 s.bare) := hgate.regs (by decide)
  exact ⟨_, hrun, rfl, hall.bare (by decide)⟩

-- a domain that comes on (R310, R450, R464)

theorem restoreScope_same (p : Nat → Bool) {s u : State} (hf : u.firn = s.firn) (h : firnAll s (fun r => r.kind == .custody) = []) :
    restoreScope p u = u := restoreScope_none p u ((firnAll_congr (congrArg FirnS.recs hf) _).trans h)

theorem domainOn_keeps' {d : Nat} (h : firnAll s (fun r => r.kind == .custody) = []) :
    Keeps [.arb, .clus, .seg, .lnk, .bar, .edw] s (domainOn d s) := by
  unfold domainOn
  dsimp only
  split_ifs
  · have harb : Keeps [.arb, .clus, .seg, .lnk, .bar, .edw] s (s.setArb d { s.arbOf d with scope := true }) :=
      Keeps.step (State.setArb_keeps ..) (by decide) Keeps.refl
    unfold restoreCluster
    rw [restoreScope_same _ (harb.same .firn (by decide)) h]
    exact Keeps.step (askFills_keeps ..) (by decide) harb
  · have hseg : Keeps [.arb, .clus, .seg, .lnk, .bar, .edw] s (s.setSeg (d - 16) { s.segOf (d - 16) with flush := false }) :=
      Keeps.step (State.setSeg_keeps ..) (by decide) Keeps.refl
    unfold restoreRegion
    rw [restoreScope_same _ (hseg.same .firn (by decide)) h]
    exact hseg
  · exact Keeps.each (fun _ _ => Keeps.step (tryDetect_keeps ..) (by decide) Keeps.refl) Keeps.refl
  · exact (edwOn_field s).mono (by decide)
  · exact Keeps.refl

theorem domainReleaseEnd_field {d : Fin 24} (h1 : s.dom d = 1) (hg : tget false s.pwr.good d = true) (hr : 32 + d.val ∉ s.pwr.resets)
    (hf : firnAll s (fun r => r.kind == .custody) = []) :
    ∃ t, exec (.domainReleaseEnd .field d) s = .next t ∧ t.dom d = 2 ∧ (∀ e, e ≠ d.val → t.dom e = s.dom e) ∧
      t.pwr.reqs = s.pwr.reqs ∧ t.pwr.resets = s.pwr.resets.filter (fun x => x != d.val && x != 32 + d.val) ∧
      (d.val = 23 → t.edw.scan = true ∧ (s.edw.asks = [] → t.edw = { s.edw with scan := true })) ∧
      (∀ r < 4, d.val = 16 + r → (t.segOf r).flush = false) ∧
      Keeps [.out, .regs, .src, .firn, .xb, .arb, .clus, .seg, .lnk, .pwr, .bar, .edw, .trc] s t := by
  refine next_run fun t hx hrun => ?_
  have hd22 : d.val ≠ 22 := by
    intro hd
    unfold State.dom at h1
    rw [if_pos hd] at h1
    exact absurd h1 (by decide)
  obtain ⟨u, hu⟩ : ∃ u : State, ({ s.bare with pwr := { s.pwr with
    resets := s.pwr.resets.filter fun x => x != d.val && x != 32 + d.val } } : State).setDom d 2 = u := ⟨_, rfl⟩
  have hoff : s.pwr.resets.contains (32 + d.val) = false := by
    rw [Bool.eq_false_iff]
    exact fun h => hr (List.contains_iff_mem.1 h)
  have ht : domainOn d u = t := by
    dsimp only at hx
    rw [if_neg, show s.bare.pwr.resets.contains (32 + d.val) = false from hoff, if_neg Bool.false_ne_true] at hx
    · rw [← hu]
      exact hx
    · rintro (h | h)
      · exact h h1
      · exact Bool.false_ne_true (h.symm.trans hg)
  have hfu : firnAll u (fun r => r.kind == .custody) = [] := hu ▸ hf
  obtain ⟨hpwr, hedw, hflush⟩ := domainOn_does d u hfu
  have hon : Keeps [.arb, .clus, .seg, .lnk, .bar, .edw] u (domainOn d u) := domainOn_keeps' hfu
  rw [ht] at hpwr hedw hflush hon
  have hscan (hd : d.val = 23) : t.edw.scan = true := by
    rw [← ht, hd]
    exact edwOn_scan u
  have hsu : Keeps [.out, .pwr] s.bare u := by
    have h0 : Keeps [.out, .pwr] s.bare { s.bare with pwr := { s.pwr with
      resets := s.pwr.resets.filter fun x => x != d.val && x != 32 + d.val } } := Keeps.refl.pwr (by decide)
    rw [← hu]
    exact Keeps.step (State.setDom_keeps ..) (by decide) h0
  have hedwu : u.edw = s.edw := hsu.same .edw (by decide)
  rw [hedwu] at hedw
  have hdom (e : Nat) : t.dom e = u.dom e := dom_congr (congrArg PwrS.st hpwr) e
  have hall : Keeps [.out, .regs, .src, .firn, .xb, .arb, .clus, .seg, .lnk, .pwr, .bar, .edw, .trc] s.bare t :=
    (hsu.mono (by decide)).trans (hon.mono (by decide))
  refine ⟨(hdom _).trans (hu ▸ dom_setDom _ _ _ hd22 (by decide)), fun e he => (hdom e).trans (hu ▸ dom_setDom_ne _ _ _ _ he),
    (congrArg PwrS.reqs hpwr).trans (hu ▸ rfl), (congrArg PwrS.resets hpwr).trans (hu ▸ rfl), fun hd => ⟨hscan hd, hedw hd⟩, hflush,
    hall.bare (by decide)⟩

end

end Sys2Proof.Machine

namespace Sys2Proof.Machine

set_option Elab.async false

-- a domain that loses pwr_good (R531)

theorem portDown_arb (p cause : Nat) (off : Bool) (s : State) {a : Nat} (h : a ≠ 16 + p) : (portDown p cause off s).arbOf a = s.arbOf a := by
  obtain ⟨u, x, hu, hx⟩ : ∃ u x, (portDown p cause off s).arb = (State.setArb u (16 + p) x).arb ∧ u.arb = s.arb := by
    have k := (noteDown_keeps p cause (peerOf s p) s).same .arb (by decide)
    unfold portDown
    revert k
    generalize noteDown p cause (peerOf s p) s = v
    intro k
    exact ⟨_, _, rfl, k⟩
  have hp : (portDown p cause off s).arbOf a = (State.setArb u (16 + p) x).arbOf a := congrArg (fun l => tget ({} : Arb) l a) hu
  rw [hp, State.arbOf_setArb_ne _ _ h]
  exact congrArg (fun l => tget ({} : Arb) l a) hx

/-- The domain of a port is lost. -/
def linkLost (p : Nat) (s : State) : State := resetRegs (inLink p) (lnkDomainOff p s)

theorem linkLost_off (p : Nat) (s : State) : ((linkLost p s).port p).st = .off ∧ (linkLost p s).arbOf (16 + p) = {} := by
  have hk := resetRegs_keeps (inLink p) (lnkDomainOff p s)
  refine ⟨?_, ((congrArg (fun l => tget ({} : Arb) l (16 + p)) (hk.same .arb (by decide))).trans (State.arbOf_setArb ..) : _)⟩
  refine (congrArg (fun l => (tget ({} : PortS) l p).st) (hk.same .lnk (by decide))).trans ?_
  unfold lnkDomainOff
  split_ifs
  · exact (portDown_port p 7 true s).1
  · exact (goOff_port p s).1

theorem linkLost_other {p q : Nat} (s : State) (h : q ≠ p) : (linkLost p s).port q = s.port q ∧ (linkLost p s).arbOf (16 + q) = s.arbOf (16 + q) := by
  have hk := resetRegs_keeps (inLink p) (lnkDomainOff p s)
  have hne : 16 + q ≠ 16 + p := by omega
  refine ⟨(congrArg (fun l => tget ({} : PortS) l q) (hk.same .lnk (by decide))).trans ?_,
    (congrArg (fun l => tget ({} : Arb) l (16 + q)) (hk.same .arb (by decide))).trans ((State.arbOf_setArb_ne _ _ hne).trans ?_)⟩
  · unfold lnkDomainOff
    split_ifs
    · exact (portDown_port p 7 true s).2.2.2.2 q h
    · exact (goOff_port p s).2 q h
  · split_ifs
    · exact portDown_arb p 7 true s hne
    · exact (goOff_keeps p s).arbOf_eq _

/-- Both ports of a link domain are lost with it. -/
theorem linksLost {p d : Nat} (s : State) (hp : p = d ∨ p = d + 1) :
    ((linkLost (d + 1) (linkLost d s)).port p).st = .off ∧ (linkLost (d + 1) (linkLost d s)).arbOf (16 + p) = {} := by
  rcases hp with rfl | rfl
  · obtain ⟨hport, harb⟩ := linkLost_other (p := p + 1) (linkLost p s) (by omega : p ≠ p + 1)
    rw [hport, harb]
    exact linkLost_off p s
  · exact linkLost_off (d + 1) (linkLost d s)

theorem dropDomain_link {p d v : Nat} (s : State) (hp : p < 4) (hd : lnkDom p = d) :
    ((dropDomain d v s).port p).st = .off ∧ (dropDomain d v s).arbOf (16 + p) = {} := by
  have hd' : d = 20 ∧ (p = 0 ∨ p = 1) ∨ d = 21 ∧ (p = 2 ∨ p = 3) := by
    unfold lnkDom at hd
    split_ifs at hd <;> omega
  rcases hd' with ⟨rfl, hp⟩ | ⟨rfl, hp⟩
  · exact linksLost (returnTokens 20 (s.setDom 20 v)) hp
  · exact linksLost (returnTokens 21 (s.setDom 21 v)) hp

theorem dropDomain_edw (v : Nat) {s : State} (h : ∀ r, s.edw.step ≠ .program r) : (dropDomain 23 v s).edw =
    { sectors := s.edw.sectors, sector := s.edw.sector, inbox := s.edw.inbox, asks := s.edw.asks, meters := s.edw.meters ++ meterSources s } := by
  have hedw := edwReset_edw (returnTokens 23 (s.setDom 23 v)) h
  exact congrArg (fun e : EdwS => { e with meters := s.edw.meters ++ meterSources s }) hedw

theorem pwrGoodFall_field {d : Fin 24} {s : State} (hd : d.val ≠ 22) :
    (s.dom d ≠ 2 → exec (.pwrGoodFall .field d) s = .next { s with out := [], pwr := { s.pwr with good := tset false s.pwr.good d false } }) ∧
    (s.dom d = 2 → firnAll s (fun r => r.kind == .custody) = [] → ∃ t, exec (.pwrGoodFall .field d) s = .next t ∧ t.dom d = 3 ∧
      (d.val < 16 → t.clusOf d.val = {} ∧ ∀ j < 4, t.coreOf (4 * d.val + j) = { halt := (s.coreOf (4 * d.val + j)).halt }) ∧
      (∀ p < 4, lnkDom p = d.val → (t.port p).st = .off ∧ t.arbOf (16 + p) = {}) ∧
      (d.val = 23 → (∀ r, s.edw.step ≠ .program r) → t.edw = { sectors := s.edw.sectors, sector := s.edw.sector, inbox := s.edw.inbox
                                                               asks := s.edw.asks, meters := s.edw.meters ++ meterSources s })) := by
  refine ⟨fun h2 => ?_, fun h2 hf => ?_⟩
  · exact run_eq (t := { s.bare with pwr := { s.pwr with good := tset false s.pwr.good d false } }) ((if_neg hd).trans (if_neg h2))
  · have hrun : exec (.pwrGoodFall .field d) s = .next { dropDomain d 3 s.bare with pending := s.pending } := run_eq ((if_neg hd).trans (if_pos h2))
    have hf' : firnAll s.bare (fun r => r.kind == .custody) = [] := hf
    refine ⟨_, hrun, dropDomain_dom d 3 s.bare hd (.inr rfl) hf', fun hlt => ?_, fun p hp hl => dropDomain_link s.bare hp hl, fun h23 hs => ?_⟩
    · obtain ⟨a, hcore, hdrop⟩ := dropDomain_cluster d 3 s.bare hlt hf'
      obtain ⟨hclus, hcores⟩ := loseCluster_does d a
      have hk := rewake_keeps (loseCluster d a)
      rw [hdrop]
      refine ⟨(congrArg (fun l => tget ({} : ClusS) l d) (hk.same .clus (by decide))).trans hclus, fun j hj => ?_⟩
      refine (congrArg (fun l => tget ({} : CoreS) l (4 * d + j)) (hk.same .core (by decide))).trans ((hcores j hj).trans ?_)
      exact congrArg (fun l => ({ halt := (tget ({} : CoreS) l (4 * d + j)).halt } : CoreS)) hcore
    · rw [h23]
      exact dropDomain_edw 3 (s := s.bare) hs

/-- Settles O43: the wake, the ramp, the release, the failure and the loss of a domain. -/
theorem powerDomains : Obligations.PowerDomains :=
  ⟨fun _ hr hd => wakeGrant_host hr hd, fun _ _ hc hf hq hfit => wakeGrant_field hc hf hq hfit, fun _ _ hd h1 => pwrGoodRise_field hd h1,
    fun _ h1 => hostRamp_runs h1, fun _ _ h1 hg hr hf => domainReleaseEnd_field h1 hg hr hf,
    fun _ _ h1 hg hl h3 => domainRampFail_field h1 hg hl h3, fun _ h2 => pwrGoodFall_host h2, fun _ _ hd => pwrGoodFall_field hd⟩

end Sys2Proof.Machine

namespace Sys2Proof.Machine

set_option Elab.async false

-- writes of plain words, on any port

theorem writeReg_active {s u : State} {a : Access} {addr w : Nat} {p : Spot} (h : lands s a addr) (hp : locate s a.via addr = some p)
    (hv : p.view = .active) (hw : w < 2 ^ 32) (h1 : sealedWord p.row.id = false) (h2 : p.row.id ≠ .LOAD_DATA) (h3 : p.row.id ≠ .H_LOAD_DATA)
    (h4 : p.row.has .ws = false) (h5 : p.row.has .w1 = false)
    (he : (effect1 a p w s (putFields p w s)).bind (effect2 p w s) = some u) :
    writeReg a addr (BitVec.ofNat 32 w) s = respond a true 0 none u := by
  refine writeReg_lands h hp ?_
  unfold performWrite
  rw [hv]
  show writeActive a addr p (BitVec.ofNat 32 w) true s = _
  rw [writeActive_eq true h1 h2 h3 h4 h5, BitVec.toNat_ofNat, Nat.mod_eq_of_lt hw, he]

-- a slice command (R394, R395)

/-- The place of SLC_CMD. -/
abbrev spotSlcCmd : Spot := ⟨row_SLC_CMD, 0, 0, 0x100110, .active⟩

/-- The word that commands an operation on a slice. -/
def slcWord (op : Nat) (i : BitVec 8) : Nat := i.toNat + 0x100 * op + 2 ^ 31

/-- The result of a slice command. -/
def slcAnswer (res i : Nat) (s : State) : State := ((s.wr Reg.SLC_CMDRES_RES res).wr Reg.SLC_CMDRES_SLICE i).raise Reg.SLC_CMDRES_VALID

theorem slcAnswer_rd {res i : Nat} (s : State) (hr : res < 16) (hi : i < 256) : (slcAnswer res i s).rd Reg.SLC_CMDRES_RES = res ∧
    (slcAnswer res i s).rd Reg.SLC_CMDRES_SLICE = i ∧ (slcAnswer res i s).rd Reg.SLC_CMDRES_VALID = 1 := by
  unfold slcAnswer State.raise
  refine ⟨?_, ?_, State.rd_wr_same ..⟩
  · rw [State.rd_wr_ne _ _ (by decide), State.rd_wr_ne _ _ (by decide), State.rd_wr_same]
    exact Nat.mod_eq_of_lt hr
  · rw [State.rd_wr_ne _ _ (by decide), State.rd_wr_same]
    exact Nat.mod_eq_of_lt hi

theorem slcAnswer_keeps (res i : Nat) (s : State) : Keeps [.regs] s (slcAnswer res i s) := by
  unfold slcAnswer
  exact Keeps.step (State.wr_keeps ..) (by decide) (Keeps.step (State.wr_keeps ..) (by decide) (State.wr_keeps ..))

/-- The state in which a slice command acts: the fields of SLC_CMD are stored. -/
def slcHeard (op : Nat) (i : BitVec 8) (s : State) : State := putFields spotSlcCmd (slcWord op i) s

theorem slcHeard_stores (op : Nat) (i : BitVec 8) (s : State) : Keeps [.regs] s (slcHeard op i s) ∧
    ∀ g : Fld, g.off ≠ 0x100110 → g.lo < 32 → (slcHeard op i s).rd g = s.rd g := by
  obtain ⟨hk, -, hother⟩ := putFields_does (p := spotSlcCmd) (findReg_mem at_SLC_CMD) (by decide) (by decide) (by decide) (slcWord op i) s
  refine ⟨hk, fun g hg hl => hother g fun f hf _ _ => ?_⟩
  have hlo : f.lo < 32 := by
    simp only [List.mem_cons, List.not_mem_nil, or_false] at hf
    rcases hf with rfl | rfl | rfl <;> decide
  unfold Fld.key FldSpec.at
  dsimp only
  omega

theorem slcWrite_answers {op : Nat} (hop : op < 8) {i : BitVec 8} {a : Access} {s : State} (ha : a.via = .bar0) (h : lands s a 0x110) :
    writeReg a 0x110 (BitVec.ofNat 32 (slcWord op i)) s = respond a true 0 none (slcCommand op i.toNat (slcHeard op i s)) := by
  have hi := i.isLt
  have hgo : bit (slcWord op i) 31 = true := by
    unfold bit slcWord
    rw [beq_iff_eq]
    omega
  have hopc : bits (slcWord op i) 8 3 = op := by
    unfold bits slcWord
    omega
  have hidx : bits (slcWord op i) 0 8 = i.toNat := by
    unfold bits slcWord
    omega
  refine writeReg_active (p := spotSlcCmd) h (by rw [ha]; exact locate_host (by decide) at_SLC_CMD) rfl (by unfold slcWord; omega) rfl
    (by decide) (by decide) (by decide) (by decide) ?_
  show some (if bit (slcWord op i) 31 then slcCommand (bits (slcWord op i) 8 3) (bits (slcWord op i) 0 8) (slcHeard op i s) else slcHeard op i s) = _
  rw [hgo, if_pos rfl, hopc, hidx]

theorem slc_runs {op : Nat} (hop : op < 8) {i : BitVec 8} {a : Access} {s : State} (ha : a.via = .bar0) (h : lands s a 0x110) :
    doWrite a.atBar0 a 0x110 (slcWord op i) s =
      .next { respond a true 0 none (slcCommand op i.toNat (slcHeard op i s.bare)) with pending := s.pending } :=
  runWf_eq (beq_iff_eq.2 ha) (slcWrite_answers hop ha (bare_lands h))

/-- What the host sees of a slice command whose result and effect are known. -/
theorem slc_does {o : Host.Outcome State Fault Refusal} {w : List Part} {op res : Nat} {i : BitVec 8} {a : Access} {s v p u : State} (hr : res < 16)
    (ho : o = .next { respond a true 0 none (slcCommand op i.toNat (slcHeard op i v)) with pending := s.pending }) (hv : Keeps w s.bare v)
    (hp : slcHeard op i v = p) (hc : slcCommand op i.toNat p = slcAnswer res i.toNat u) (hu : Keeps w p u) (hw : .regs ∈ w) :
    ∃ t, o = .next t ∧ t.rd Reg.SLC_CMDRES_RES = res ∧ t.rd Reg.SLC_CMDRES_SLICE = i.toNat ∧ t.rd Reg.SLC_CMDRES_VALID = 1 ∧
      t.gate = u.gate ∧ Keeps (.out :: w) s t := by
  obtain ⟨hres, hidx, hvalid⟩ := slcAnswer_rd u hr i.isLt
  rw [hp, hc] at ho
  have hvp : Keeps [.regs] v p := hp ▸ (slcHeard_stores op i v).1
  have hregs : [Part.regs] ⊆ w := fun p hp => List.mem_singleton.1 hp ▸ hw
  have hall : Keeps w s.bare (slcAnswer res i.toNat u) :=
    Keeps.step (slcAnswer_keeps ..) hregs (hv.trans ((hvp.mono hregs).trans hu))
  refine ⟨_, ho, (answered_rd a _).trans hres, (answered_rd a _).trans hidx, (answered_rd a _).trans hvalid, ?_, answered a hall⟩
  exact answered_same (s := s) (u := slcAnswer res i.toNat u) a .gate (by decide) (by decide)

-- what a grant and a stop leave of the other slices

theorem grantCredit_other {i j : Nat} (h : j ≠ i) (s : State) : (grantCredit [i] s).slice j = s.slice j := by
  unfold grantCredit
  split_ifs
  · rfl
  · dsimp only
    refine (State.each_inv (f := fun l s => barQueue .host 0x04 (creditPayload l) s) (fun s => s.slice j) _ (fun x u => barQueue_slice ..) _).trans ?_
    refine State.each_inv_mem (fun s => s.slice j) _ (fun e he u => ?_) s
    obtain ⟨k, hk, rfl⟩ := List.mem_map.1 (List.mem_filter.1 he).1
    exact State.slice_setSlice_ne _ _ fun hj => h (hj.trans (List.mem_singleton.1 hk))

theorem pumpKept_other {i j : Nat} (h : j ≠ i) (n : Nat) (s : State) : (pumpKept i n s).slice j = s.slice j := by
  induction n generalizing s with
  | zero => rfl
  | succ n ih =>
    unfold pumpKept
    dsimp only
    split
    · rfl
    · split_ifs
      · exact (ih _).trans ((State.slice_setSlice_ne _ _ h).trans (State.slice_setSlice_ne _ _ h))
      · exact (ih _).trans (State.slice_setSlice_ne _ _ h)
      · rfl

end Sys2Proof.Machine

namespace Sys2Proof.Machine

set_option Elab.async false

-- CREATE (R394 to R396)

theorem createResult_congr {u v : State} (i : Nat) (hg : u.gate = v.gate) (hr : ∀ g : Fld, g.off ≠ 0x100110 → g.lo < 32 → u.rd g = v.rd g) :
    createResult i u = createResult i v := by
  have hring (j : Nat) : u.rd (Reg.SLC_RING_LOG2SIZE j) = v.rd (Reg.SLC_RING_LOG2SIZE j) :=
    hr _ (by unfold Reg.SLC_RING_LOG2SIZE; dsimp only; omega) (by exact (by decide : 0 < 32))
  have hvbase (j : Nat) : u.rd (Reg.SLC_VEC_VBASE j) = v.rd (Reg.SLC_VEC_VBASE j) :=
    hr _ (by unfold Reg.SLC_VEC_VBASE; dsimp only; omega) (by exact (by decide : 0 < 32))
  have hnvec (j : Nat) : u.rd (Reg.SLC_VEC_NVEC j) = v.rd (Reg.SLC_VEC_NVEC j) :=
    hr _ (by unfold Reg.SLC_VEC_NVEC; dsimp only; omega) (by exact (by decide : 10 < 32))
  have hmen (j : Nat) : u.rd (Reg.SLC_VEC_MEN j) = v.rd (Reg.SLC_VEC_MEN j) :=
    hr _ (by unfold Reg.SLC_VEC_MEN; dsimp only; omega) (by exact (by decide : 20 < 32))
  have hmeter (j : Nat) : u.rd (Reg.SLC_VEC_METER j) = v.rd (Reg.SLC_VEC_METER j) :=
    hr _ (by unfold Reg.SLC_VEC_METER; dsimp only; omega) (by exact (by decide : 14 < 32))
  have hpriv (j : Nat) : u.rd (Reg.SLC_KEY_PRIV j) = v.rd (Reg.SLC_KEY_PRIV j) :=
    hr _ (by unfold Reg.SLC_KEY_PRIV; dsimp only; omega) (by exact (by decide : 20 < 32))
  have hpasid (j : Nat) : u.rd (Reg.SLC_KEY_PASID j) = v.rd (Reg.SLC_KEY_PASID j) :=
    hr _ (by unfold Reg.SLC_KEY_PASID; dsimp only; omega) (by exact (by decide : 0 < 32))
  have hrbase (j : Nat) : u.rd (Reg.SLC_RBASE_LO j) = v.rd (Reg.SLC_RBASE_LO j) :=
    hr _ (by unfold Reg.SLC_RBASE_LO; dsimp only; omega) (by exact (by decide : 0 < 32))
  have hvwb (j : Nat) : u.rd (Reg.SLC_VWR_VWBASE j) = v.rd (Reg.SLC_VWR_VWBASE j) :=
    hr _ (by unfold Reg.SLC_VWR_VWBASE; dsimp only; omega) (by exact (by decide : 0 < 32))
  have hvwc (j : Nat) : u.rd (Reg.SLC_VWR_VWCOUNT j) = v.rd (Reg.SLC_VWR_VWCOUNT j) :=
    hr _ (by unfold Reg.SLC_VWR_VWCOUNT; dsimp only; omega) (by exact (by decide : 12 < 32))
  have hmvec : u.rd Reg.GATE_CTRL_MVEC = v.rd Reg.GATE_CTRL_MVEC := hr _ (by decide) (by decide)
  unfold createResult vecRange busySlices State.flag State.slice
  simp only [hg, hring, hvbase, hnvec, hmen, hmeter, hpriv, hpasid, hrbase, hvwb, hvwc, hmvec]

section
variable {i : Nat} {s : State}

theorem slcCommand_create (h : (s.slice i).st = .free) (hr : createResult i s = 0) :
    slcCommand 1 i s = slcAnswer 0 i (grantCredit [i] (takeShare i (openRing i s))) := by
  unfold slcCommand slcAnswer
  simp only [h, hr]

theorem slcCommand_createBad {r : Nat} (h : (s.slice i).st = .free) (hr : createResult i s = r) (h0 : r ≠ 0) :
    slcCommand 1 i s = slcAnswer r i s := by
  unfold slcCommand slcAnswer
  obtain ⟨n, rfl⟩ := Nat.exists_eq_succ_of_ne_zero h0
  simp only [h, hr]

theorem slcCommand_createBusy (h : (s.slice i).st ≠ .free) : slcCommand 1 i s = slcAnswer 1 i s := by
  unfold slcCommand slcAnswer
  cases hst : (s.slice i).st with
  | free => exact absurd hst h
  | _ => simp only [hst]

theorem slcCommand_open (h : (s.slice i).st = .closed) :
    slcCommand 2 i s = slcAnswer 0 i (grantCredit [i] (barQueue .host 0x13 (pay i) (openRing i s))) := by
  unfold slcCommand slcAnswer
  simp only [h]

theorem slcCommand_openFault (h : (s.slice i).st = .fault) : slcCommand 2 i s =
    slcAnswer 0 i (grantCredit [i] (pumpKept i (s.slice i).kept.length (s.setSlice i { s.slice i with st := .open_ }))) := by
  unfold slcCommand slcAnswer
  simp only [h]

theorem slcCommand_openBusy (hc : (s.slice i).st ≠ .closed) (hf : (s.slice i).st ≠ .fault) : slcCommand 2 i s = slcAnswer 1 i s := by
  unfold slcCommand slcAnswer
  cases hst : (s.slice i).st with
  | closed => exact absurd hst hc
  | fault => exact absurd hst hf
  | _ => simp only [hst]

theorem slcCommand_reset (h : (s.slice i).st = .open_ ∨ (s.slice i).st = .fault) : slcCommand 3 i s = slcAnswer 0 i (resetSlice i s) := by
  unfold slcCommand slcAnswer
  rcases h with h | h
  · simp only [h]
  · simp only [h]

theorem slcCommand_resetBusy (ho : (s.slice i).st ≠ .open_) (hf : (s.slice i).st ≠ .fault) : slcCommand 3 i s = slcAnswer 1 i s := by
  unfold slcCommand slcAnswer
  cases hst : (s.slice i).st with
  | open_ => exact absurd hst ho
  | fault => exact absurd hst hf
  | _ => simp only [hst]

theorem slcCommand_destroy (h : (s.slice i).st = .closed) : slcCommand 4 i s = slcAnswer 0 i
    (grantCredit [i] (barQueue .host 0x13 (pay i) (s.setSlice i { s.slice i with st := .free, size := 0, vecs := 0, meter := false }))) := by
  unfold slcCommand slcAnswer
  simp only [h]

theorem slcCommand_destroyBusy (h : (s.slice i).st ≠ .closed) : slcCommand 4 i s = slcAnswer 1 i s := by
  unfold slcCommand slcAnswer
  cases hst : (s.slice i).st with
  | closed => exact absurd hst h
  | _ => simp only [hst]

end

/-- A free slice as CREATE makes it: open, with an empty ring and its share of the pool. -/
theorem createdSlice (i : Nat) (s : State) : ∃ g, (grantCredit [i] (takeShare i (openRing i s))).slice i =
    { s.slice i with st := .open_, prod := 0, cons := 0, q := [], kept := [], size := ringSize s i, vecs := s.rd (Reg.SLC_VEC_NVEC i)
                     meter := s.flag (Reg.SLC_VEC_MEN i), granted := g } := by
  obtain ⟨g, hg⟩ := grantCredit_slice [i] (takeShare i (openRing i s)) i
  have hopen : (openRing i s).slice i = { s.slice i with st := .open_, prod := 0, cons := 0, q := [], kept := [] } := State.slice_setSlice ..
  have htake : (takeShare i (openRing i s)).slice i = { (openRing i s).slice i with
    size := ringSize s i, vecs := s.rd (Reg.SLC_VEC_NVEC i), meter := s.flag (Reg.SLC_VEC_MEN i) } := State.slice_setSlice ..
  exact ⟨g, hg.trans (by rw [htake, hopen])⟩

theorem created_other {i j : Nat} (h : j ≠ i) (s : State) : (grantCredit [i] (takeShare i (openRing i s))).slice j = s.slice j :=
  (grantCredit_other h _).trans ((State.slice_setSlice_ne _ _ h).trans (State.slice_setSlice_ne _ _ h))

section
variable {a : Access} {i : BitVec 8} {pasidEn : Bool} {s : State} (ha : a.via = .bar0) (h : lands s a 0x110)
include ha h

/-- The host gate as CREATE finds it. -/
theorem create_runs : exec (.slcCreate a i pasidEn) s = .next { respond a true 0 none
    (slcCommand 1 i.toNat (slcHeard 1 i { s.bare with gate := { s.gate with pasidEn := pasidEn } })) with pending := s.pending } :=
  runWf_eq (beq_iff_eq.2 ha) (slcWrite_answers (op := 1) (s := { s.bare with gate := { s.gate with pasidEn := pasidEn } }) (by decide) ha h)

end

section
variable {a : Access} {i : BitVec 8} {pasidEn : Bool} {s : State}

theorem slcCreate_answers (ha : a.via = .bar0) (h : lands s a 0x110) :
    ((s.slice i.toNat).st = .free → createResult i.toNat { s with gate := { s.gate with pasidEn := pasidEn } } = 0 →
      ∃ t, exec (.slcCreate a i pasidEn) s = .next t ∧ t.rd Reg.SLC_CMDRES_RES = 0 ∧ t.rd Reg.SLC_CMDRES_SLICE = i.toNat ∧
        t.rd Reg.SLC_CMDRES_VALID = 1 ∧ (t.slice i.toNat).st = .open_ ∧ (t.slice i.toNat).prod = 0 ∧ (t.slice i.toNat).cons = 0 ∧
        (t.slice i.toNat).q = [] ∧ (t.slice i.toNat).size = ringSize s i.toNat ∧ (t.slice i.toNat).vecs = s.rd (Reg.SLC_VEC_NVEC i.toNat) ∧
        (∀ j, j ≠ i.toNat → t.slice j = s.slice j) ∧ Keeps [.out, .regs, .bar, .gate] s t) ∧
    (∀ r, (s.slice i.toNat).st = .free → createResult i.toNat { s with gate := { s.gate with pasidEn := pasidEn } } = r → r ≠ 0 → r < 16 →
      ∃ t, exec (.slcCreate a i pasidEn) s = .next t ∧ t.rd Reg.SLC_CMDRES_RES = r ∧ t.rd Reg.SLC_CMDRES_SLICE = i.toNat ∧
        t.gate = { s.gate with pasidEn := pasidEn } ∧ Keeps [.out, .regs, .gate] s t) ∧
    ((s.slice i.toNat).st ≠ .free → ∃ t, exec (.slcCreate a i pasidEn) s = .next t ∧ t.rd Reg.SLC_CMDRES_RES = 1 ∧
      t.gate = { s.gate with pasidEn := pasidEn } ∧ Keeps [.out, .regs, .gate] s t) := by
  have ho := create_runs (i := i) (pasidEn := pasidEn) ha h
  obtain ⟨v, hv⟩ : ∃ v : State, { s.bare with gate := { s.gate with pasidEn := pasidEn } } = v := ⟨_, rfl⟩
  have hsv : Keeps [.gate] s.bare v := Keeps.of_gate (hv ▸ rfl)
  rw [hv] at ho
  obtain ⟨p, hp⟩ : ∃ p, slcHeard 1 i v = p := ⟨_, rfl⟩
  obtain ⟨hvp, hrd⟩ : Keeps [.regs] v p ∧ ∀ g : Fld, g.off ≠ 0x100110 → g.lo < 32 → p.rd g = v.rd g := hp ▸ slcHeard_stores 1 i v
  have hgate : p.gate = { s.gate with pasidEn := pasidEn } := (hvp.same .gate (by decide)).trans (hv ▸ rfl)
  have hslice (j : Nat) : p.slice j = s.slice j := (congrArg (fun g : GateS => tget ({} : Slice) g.slices j) hgate :)
  have hres : createResult i.toNat p = createResult i.toNat { s with gate := { s.gate with pasidEn := pasidEn } } :=
    createResult_congr _ hgate fun g hg hl => (hrd g hg hl).trans (hv ▸ rfl)
  refine ⟨fun hfree hr => ?_, fun r hfree hr h0 hlt => ?_, fun hbusy => ?_⟩
  · have hall : Keeps [.regs, .bar, .gate] p (grantCredit [i.toNat] (takeShare i.toNat (openRing i.toNat p))) :=
      Keeps.step (grantCredit_keeps ..) (by decide) (Keeps.step (takeShare_keeps ..) (by decide)
        (Keeps.step (openRing_keeps ..) (by decide) Keeps.refl))
    obtain ⟨t, hrun, hok, hidx, hvalid, htg, hk⟩ := slc_does (u := grantCredit [i.toNat] (takeShare i.toNat (openRing i.toNat p)))
      (w := [.regs, .bar, .gate]) (res := 0) (by decide) ho (hsv.mono (by decide))
      hp (slcCommand_create (by rw [hslice]; exact hfree) (hres.trans hr)) hall (by decide)
    obtain ⟨g, hg⟩ := createdSlice i.toNat p
    have ht (j : Nat) : t.slice j = (grantCredit [i.toNat] (takeShare i.toNat (openRing i.toNat p))).slice j :=
      congrArg (fun g : GateS => tget ({} : Slice) g.slices j) htg
    have hx := (ht i.toNat).trans hg
    have hnvec : p.rd (Reg.SLC_VEC_NVEC i.toNat) = s.rd (Reg.SLC_VEC_NVEC i.toNat) :=
      (hrd _ (by unfold Reg.SLC_VEC_NVEC; dsimp only; omega) (by exact (by decide : 10 < 32))).trans (hv ▸ rfl)
    have hring : ringSize p i.toNat = ringSize s i.toNat := by
      unfold ringSize
      rw [hrd _ (by unfold Reg.SLC_RING_LOG2SIZE; dsimp only; omega) (by exact (by decide : 0 < 32)), ← hv]
      rfl
    exact ⟨t, hrun, hok, hidx, hvalid, (congrArg Slice.st hx :), (congrArg Slice.prod hx :), (congrArg Slice.cons hx :), (congrArg Slice.q hx :),
      (congrArg Slice.size hx :).trans hring, (congrArg Slice.vecs hx :).trans hnvec,
      fun j hj => (ht j).trans ((created_other hj p).trans (hslice j)), hk⟩
  · obtain ⟨t, hrun, hok, hidx, -, htg, hk⟩ := slc_does (w := [.regs, .gate]) hlt ho (hsv.mono (by decide))
      hp (slcCommand_createBad (by rw [hslice]; exact hfree) (hres.trans hr) h0) Keeps.refl (by decide)
    exact ⟨t, hrun, hok, hidx, htg.trans hgate, hk⟩
  · obtain ⟨t, hrun, hok, -, -, htg, hk⟩ := slc_does (w := [.regs, .gate]) (res := 1) (by decide) ho (hsv.mono (by decide))
      hp (slcCommand_createBusy (by rw [hslice]; exact hbusy)) Keeps.refl (by decide)
    exact ⟨t, hrun, hok, htg.trans hgate, hk⟩

end

end Sys2Proof.Machine

namespace Sys2Proof.Machine

set_option Elab.async false

-- what leaves a slice and its discards as they are (R410, R411)

/-- A slice but for its credit, the tags reported discarded and whether the barrier is up stand, and no tag is lost. -/
structure Calm (i : Nat) (s t : State) : Prop where
  slice : ∃ g, t.slice i = { s.slice i with granted := g }
  disc : ∀ tag ∈ s.gate.discTags, tag ∈ t.gate.discTags
  bar : t.gate.bar.st = s.gate.bar.st

section
variable {i : Nat}

theorem Calm.same {s t : State} (hs : t.slice i = s.slice i) (hd : t.gate.discTags = s.gate.discTags) (hb : t.gate.bar.st = s.gate.bar.st) :
    Calm i s t := ⟨⟨_, hs⟩, fun _ h => hd ▸ h, hb⟩

theorem Calm.refl {s : State} : Calm i s s := .same rfl rfl rfl

theorem Calm.trans {s t u : State} (h : Calm i s t) (h' : Calm i t u) : Calm i s u := by
  obtain ⟨⟨g, hg⟩, hd, hb⟩ := h
  obtain ⟨⟨g', hg'⟩, hd', hb'⟩ := h'
  exact ⟨⟨g', hg'.trans (by rw [hg])⟩, fun tag ht => hd' tag (hd tag ht), hb'.trans hb⟩

theorem Calm.keeps {w : List Part} {s t : State} (h : Keeps w s t) (hp : Part.gate ∉ w := by decide) : Calm i s t := by
  have hg : t.gate = s.gate := h.same .gate hp
  exact .same (congrArg (fun g : GateS => tget ({} : Slice) g.slices i) hg) (congrArg GateS.discTags hg) (congrArg (fun g : GateS => g.bar.st) hg)

theorem Calm.each {α : Type} {f : α → State → State} (h : ∀ a s, Calm i s (f a s)) (l : List α) (s : State) : Calm i s (s.each l f) := by
  unfold State.each
  induction l generalizing s with
  | nil => exact .refl
  | cons a l ih => exact (h a s).trans (ih _)

theorem barQueue_calm (d : Side) (typ : BitVec 8) (p : BitVec 128) (s : State) : Calm i s (barQueue d typ p s) := by
  unfold barQueue
  dsimp only
  cases d <;> split_ifs <;> exact .same rfl rfl rfl

theorem report_calm (tag : BitVec 15) (d : Bool) (s : State) : Calm i s (report tag d s) := by
  unfold report
  cases d with
  | false => exact .same rfl rfl rfl
  | true => exact ⟨⟨_, rfl⟩, fun _ h => List.mem_append_left _ h, rfl⟩

theorem rstDiscard_calm (k : Nat) (tag : BitVec 15) (s : State) : Calm i s (rstDiscard k tag s) :=
  (Calm.keeps (State.wr_keeps ..)).trans (report_calm ..)

theorem rstDiscard_reports (k : Nat) (tag : BitVec 15) (s : State) : tag ∈ (rstDiscard k tag s).gate.discTags :=
  List.mem_append_right _ (List.mem_singleton.2 rfl)

/-- A change of a slice's credit alone. -/
theorem setGranted_calm (k g : Nat) (s : State) : Calm i s (s.setSlice k { s.slice k with granted := g }) := by
  refine ⟨?_, fun _ h => h, rfl⟩
  by_cases hk : i = k
  · subst hk
    exact ⟨g, State.slice_setSlice ..⟩
  · exact ⟨_, State.slice_setSlice_ne _ _ hk⟩

/-- A change of another slice. -/
theorem setOther_calm {k : Nat} (x : Slice) (h : i ≠ k) (s : State) : Calm i s (s.setSlice k x) :=
  .same (State.slice_setSlice_ne _ _ h) rfl rfl

theorem grantCredit_calm (l : List Nat) (s : State) : Calm i s (grantCredit l s) := by
  unfold grantCredit
  split_ifs
  · exact .refl
  · exact (Calm.each (f := fun (e : Nat × Nat) s => s.setSlice e.1 { s.slice e.1 with granted := (s.slice e.1).granted + e.2 })
      (fun e s => setGranted_calm e.1 _ s) _ s).trans (.each (fun l s => barQueue_calm ..) _ _)

theorem drainEntries_calm (s : State) : Calm i s (drainEntries .host s) := by
  obtain ⟨f, r, h⟩ := drainEntries_host s
  rw [h]
  exact .same rfl rfl rfl

theorem sendStop_calm (k : Nat) (s : State) : Calm i s (sendStop k s) := by
  unfold sendStop
  split_ifs
  · exact barQueue_calm ..
  · exact .same rfl rfl rfl

/-- A slice that stops from FAULT takes no event any more. -/
theorem takeEvent_calm {k : Nat} {m : Msg} {tag : BitVec 15} {s : State} (h : k = i → (s.slice i).st = .stopping ∧ (s.slice i).fromFault = true) :
    Calm i s (takeEvent k m tag s) := by
  by_cases hk : k = i
  · subst hk
    obtain ⟨hst, hf⟩ := h rfl
    rw [takeEvent_dropped rfl hst (.inl hf)]
    exact rstDiscard_calm ..
  · have hne : i ≠ k := Ne.symm hk
    have henq (s : State) : Calm i s (enqueueRec k m tag s) := (setOther_calm _ hne s).trans (.same rfl rfl rfl)
    have hkeep (s : State) : Calm i s (keepEvent k m tag s) := by
      have htag : Calm i s (setTag (tag.toNat % 2 ^ 14) (.queued (tag.getLsbD 14)) s) := .same rfl rfl rfl
      exact htag.trans (setOther_calm _ hne _)
    unfold takeEvent
    dsimp only
    split
    · exact (Calm.keeps (State.wr_keeps ..)).trans (report_calm ..)
    · exact (Calm.keeps (State.wr_keeps ..)).trans (report_calm ..)
    · split_ifs
      · exact henq s
      · exact hkeep s
    · split_ifs
      · exact henq s
      · exact hkeep s
    · split_ifs
      · exact rstDiscard_calm ..
      · exact henq s
      · exact rstDiscard_calm ..
      · exact hkeep s

/-- The slice stops, from FAULT. -/
def StopsFaulted (i : Nat) (s : State) : Prop := (s.slice i).st = .stopping ∧ (s.slice i).fromFault = true

theorem Calm.stops {s t : State} (h : Calm i s t) (hs : StopsFaulted i s) : StopsFaulted i t := by
  obtain ⟨⟨g, hg⟩, -, -⟩ := h
  unfold StopsFaulted
  rw [hg]
  exact hs

theorem handleEvent_calm (p : BitVec 128) {s : State} (h : StopsFaulted i s) : Calm i s (handleEvent p s) := by
  have hused : Calm i s (usedCredit (eventSlice p) s) := setGranted_calm ..
  have htake : Calm i (usedCredit (eventSlice p) s) (takeEvent (eventSlice p) (Msg.unpack p) (eventTag p) (usedCredit (eventSlice p) s)) :=
    takeEvent_calm fun _ => hused.stops h
  have hans : Calm i (usedCredit (eventSlice p) s) (answerEvent p (usedCredit (eventSlice p) s)) := by
    unfold answerEvent
    split
    · split_ifs
      · exact report_calm ..
      · exact htake
    · split_ifs
      · exact .refl
      · exact htake
    · exact htake
  rw [handleEvent_eq]
  exact (hused.trans hans).trans (grantCredit_calm ..)

theorem pumpHeld_calm (n : Nat) {s : State} (h : StopsFaulted i s) : Calm i s (pumpHeld n s) := by
  induction n generalizing s with
  | zero => exact .refl
  | succ n ih =>
    unfold pumpHeld
    split
    · exact .refl
    · next p rest hheld =>
      split_ifs
      · have hrest : Calm i s { s with gate := { s.gate with held := rest } } := .same rfl rfl rfl
        have hev := hrest.trans (handleEvent_calm p (hrest.stops h))
        exact hev.trans (ih (hev.stops h))
      · exact .refl

theorem eachEvent_calm (l : List (BitVec 128)) {s : State} (h : StopsFaulted i s) : Calm i s (s.each l handleEvent) := by
  unfold State.each
  induction l generalizing s with
  | nil => exact .refl
  | cons p l ih =>
    have hev := handleEvent_calm p h
    exact hev.trans (ih (hev.stops h))

theorem handleHeld_calm {s : State} (h : StopsFaulted i s) : Calm i s (handleHeld i s) := by
  unfold handleHeld
  dsimp only
  have hrest : Calm i s { s with gate := { s.gate with held := (s.gate.held.partition fun p => eventSlice p == i).2 } } := .same rfl rfl rfl
  have hmine := hrest.trans (eachEvent_calm (s.gate.held.partition fun p => eventSlice p == i).1 (hrest.stops h))
  exact hmine.trans (pumpHeld_calm 16 (hmine.stops h))

end

end Sys2Proof.Machine

namespace Sys2Proof.Machine

set_option Elab.async false

-- RESET (R410, R411)

/-- A slice as RESET makes it: it stops, and from FAULT without its records. -/
def resetTo (bad : Bool) (now : Tick) (x : Slice) : Slice :=
  { x with st := .stopping, stopAt := now, rstFree := false, fromFault := bad, drained := false
           q := if bad then [] else x.q, kept := if bad then [] else x.kept }

/-- The state in which what a FAULT slice held has been discarded. -/
def discardFault (i : Nat) (s : State) : State :=
  (s.setSlice i (resetTo true s.gate.clk (s.slice i))).each ((s.slice i).q.map (·.tag) ++ (s.slice i).kept.map (·.2)) (rstDiscard i)

section
variable {i : Nat} {s : State}

theorem resetSlice_fault (h : (s.slice i).st = .fault) :
    resetSlice i s = grantCredit [i] (sendStop i (drainEntries .host (handleHeld i (discardFault i s)))) := by
  have hbad : ((s.slice i).st == SlcState.fault) = true := by rw [h]; rfl
  unfold resetSlice
  simp only [hbad, if_true]
  rfl

theorem resetSlice_open (h : (s.slice i).st = .open_) :
    resetSlice i s = grantCredit [i] (sendStop i (s.setSlice i (resetTo false s.gate.clk (s.slice i)))) := by
  have hbad : ((s.slice i).st == SlcState.fault) = false := by rw [h]; rfl
  unfold resetSlice
  simp only [hbad, Bool.false_eq_true, if_false]
  rfl

/-- SLICE_STOP is owed where the barrier is down (R413). -/
theorem stop_owed {u : State} (h : u.gate.bar.st ≠ .up) : (grantCredit [i] (sendStop i u)).gate.restop = true := by
  have hcore : (grantCredit [i] (sendStop i u)).gate.restop = (sendStop i u).gate.restop :=
    (congrArg GateS.restop (gateCore_grantCredit [i] (sendStop i u)) :)
  rw [hcore]
  unfold sendStop
  rw [if_neg (by rw [beq_iff_eq]; exact h)]

theorem stop_calm (u : State) : Calm i u (grantCredit [i] (sendStop i u)) := (sendStop_calm i u).trans (grantCredit_calm ..)

theorem resetFault_does (h : (s.slice i).st = .fault) : (∃ g, (resetSlice i s).slice i = { resetTo true s.gate.clk (s.slice i) with granted := g }) ∧
    (∀ r ∈ (s.slice i).q, r.tag ∈ (resetSlice i s).gate.discTags) ∧ (s.gate.bar.st ≠ .up → (resetSlice i s).gate.restop = true) := by
  obtain ⟨u, hu⟩ : ∃ u, s.setSlice i (resetTo true s.gate.clk (s.slice i)) = u := ⟨_, rfl⟩
  have hux : u.slice i = resetTo true s.gate.clk (s.slice i) := hu ▸ State.slice_setSlice ..
  obtain ⟨d, hd⟩ : ∃ d, discardFault i s = d := ⟨_, rfl⟩
  have hud : Calm i u d := by
    rw [← hd, ← hu]
    exact Calm.each (fun tag s => rstDiscard_calm i tag s) _ _
  have hstops : StopsFaulted i d := hud.stops (by unfold StopsFaulted; rw [hux]; exact ⟨rfl, rfl⟩)
  have hdrain : Calm i d (drainEntries .host (handleHeld i d)) := (handleHeld_calm hstops).trans (drainEntries_calm _)
  have hreset : resetSlice i s = grantCredit [i] (sendStop i (drainEntries .host (handleHeld i d))) := hd ▸ resetSlice_fault h
  have hall : Calm i d (resetSlice i s) := hreset ▸ hdrain.trans (stop_calm _)
  refine ⟨?_, fun r hr => ?_, fun hb => ?_⟩
  · obtain ⟨g, hg⟩ := (hud.trans hall).slice
    exact ⟨g, hg.trans (by rw [hux])⟩
  · refine hall.disc _ ?_
    rw [← hd]
    exact State.each_establishes (P := fun s => r.tag ∈ s.gate.discTags) (List.mem_append_left _ (List.mem_map.2 ⟨r, hr, rfl⟩))
      (fun s => rstDiscard_reports i r.tag s) (fun tag s h => (rstDiscard_calm (i := i) i tag s).disc _ h) _
  · rw [hreset]
    refine stop_owed ?_
    rw [(hud.trans hdrain).bar, ← hu]
    exact hb

theorem resetOpen_does (h : (s.slice i).st = .open_) : (∃ g, (resetSlice i s).slice i = { resetTo false s.gate.clk (s.slice i) with granted := g }) ∧
    (s.gate.bar.st ≠ .up → (resetSlice i s).gate.restop = true) ∧ ∀ j, j ≠ i → (resetSlice i s).slice j = s.slice j := by
  rw [resetSlice_open h]
  refine ⟨?_, fun hb => stop_owed hb, fun j hj => ?_⟩
  · obtain ⟨g, hg⟩ := (stop_calm (s.setSlice i (resetTo false s.gate.clk (s.slice i)))).slice
    exact ⟨g, hg.trans (by rw [State.slice_setSlice])⟩
  · have hstop (u : State) : (sendStop i u).slice j = u.slice j := by
      unfold sendStop
      split_ifs
      · exact barQueue_slice ..
      · rfl
    exact (grantCredit_other hj _).trans ((hstop _).trans (State.slice_setSlice_ne _ _ hj))

-- OPEN of a faulty slice (R394, R410)

/-- Kept events join the queue of a slice behind what waits there, and its state stands. -/
theorem pumpKept_grows (n : Nat) : ((pumpKept i n s).slice i).st = (s.slice i).st ∧ (s.slice i).q <+: ((pumpKept i n s).slice i).q := by
  induction n generalizing s with
  | zero => exact ⟨rfl, List.prefix_rfl⟩
  | succ n ih =>
    unfold pumpKept
    dsimp only
    split
    · exact ⟨rfl, List.prefix_rfl⟩
    · next m tag rest hkept =>
      obtain ⟨u, hu⟩ : ∃ u, s.setSlice i { s.slice i with kept := rest } = u := ⟨_, rfl⟩
      have hux : u.slice i = { s.slice i with kept := rest } := hu ▸ State.slice_setSlice ..
      rw [hu]
      split_ifs
      · obtain ⟨hst, hq⟩ := ih (s := enqueueRec i m tag u)
        rw [enqueueRec_slice, hux] at hst hq
        exact ⟨hst, (List.prefix_append _ _).trans hq⟩
      · obtain ⟨hst, hq⟩ := ih (s := rstDiscard i tag u)
        rw [show (rstDiscard i tag u).slice i = u.slice i from rfl, hux] at hst hq
        exact ⟨hst, hq⟩
      · exact ⟨rfl, List.prefix_rfl⟩

end

section
variable {a : Access} {i : BitVec 8} {s : State} (ha : a.via = .bar0) (h : lands s a 0x110)
include ha h

/-- A command that the slice's state turns away answers 1, and changes nothing else. -/
theorem slc_turned {op : Nat} (hop : op < 8) (hc : ∀ u : State, u.gate = s.gate → slcCommand op i.toNat u = slcAnswer 1 i.toNat u) :
    ∃ t, doWrite a.atBar0 a 0x110 (slcWord op i) s = .next t ∧ t.rd Reg.SLC_CMDRES_RES = 1 ∧ t.gate = s.gate ∧ Keeps [.out, .regs] s t := by
  have hg : (slcHeard op i s.bare).gate = s.gate := (slcHeard_stores op i s.bare).1.same .gate (by decide)
  obtain ⟨t, hrun, hres, -, -, htg, hk⟩ :=
    slc_does (w := [.regs]) (res := 1) (by decide) (slc_runs hop ha h) Keeps.refl rfl (hc _ hg) Keeps.refl (by decide)
  exact ⟨t, hrun, hres, htg.trans hg, hk⟩

/-- A command that is taken answers 0, with its effect. -/
theorem slc_taken {op : Nat} (hop : op < 8) (f : State → State)
    (hc : ∀ u : State, u.gate = s.gate → slcCommand op i.toNat u = slcAnswer 0 i.toNat (f u))
    (hf : ∀ u, Keeps [.regs, .bar, .gate] u (f u)) :
    ∃ t u, doWrite a.atBar0 a 0x110 (slcWord op i) s = .next t ∧ t.rd Reg.SLC_CMDRES_RES = 0 ∧ t.rd Reg.SLC_CMDRES_SLICE = i.toNat ∧
      t.gate = (f u).gate ∧ u.gate = s.gate ∧ Keeps [.out, .regs, .bar, .gate] s t := by
  have hg : (slcHeard op i s.bare).gate = s.gate := (slcHeard_stores op i s.bare).1.same .gate (by decide)
  obtain ⟨t, hrun, hres, hidx, -, htg, hk⟩ :=
    slc_does (w := [.regs, .bar, .gate]) (res := 0) (by decide) (slc_runs hop ha h) Keeps.refl rfl (hc _ hg) (hf _) (by decide)
  exact ⟨t, _, hrun, hres, hidx, htg, hg, hk⟩

end

theorem slice_of {s t : State} (h : t.gate = s.gate) (j : Nat) : t.slice j = s.slice j := congrArg (fun g : GateS => tget ({} : Slice) g.slices j) h

section
variable {a : Access} {i : BitVec 8} {s : State} (ha : a.via = .bar0) (h : lands s a 0x110)
include ha h

theorem slcOpen_closed (hst : (s.slice i.toNat).st = .closed) : ∃ t, exec (.slcOpen a i) s = .next t ∧ t.rd Reg.SLC_CMDRES_RES = 0 ∧
    t.rd Reg.SLC_CMDRES_SLICE = i.toNat ∧ (t.slice i.toNat).st = .open_ ∧ (t.slice i.toNat).prod = 0 ∧ (t.slice i.toNat).cons = 0 ∧
    (t.slice i.toNat).q = [] ∧ (∀ j, j ≠ i.toNat → t.slice j = s.slice j) ∧ Keeps [.out, .regs, .bar, .gate] s t := by
  obtain ⟨t, u, hrun, hres, hidx, htg, hug, hk⟩ := slc_taken (op := 2) (i := i) ha h (by decide)
    (fun u => grantCredit [i.toNat] (barQueue .host 0x13 (pay i.toNat) (openRing i.toNat u)))
    (fun u hu => slcCommand_open (by rw [slice_of hu]; exact hst))
    (fun u => Keeps.step (grantCredit_keeps ..) (by decide) (Keeps.step (barQueue_keeps ..) (by decide)
      (Keeps.step (openRing_keeps ..) (by decide) Keeps.refl)))
  obtain ⟨g, hg⟩ := grantCredit_slice [i.toNat] (barQueue .host 0x13 (pay i.toNat) (openRing i.toNat u)) i.toNat
  rw [barQueue_slice, show (openRing i.toNat u).slice i.toNat = _ from State.slice_setSlice ..] at hg
  have hx := (slice_of htg i.toNat).trans hg
  refine ⟨t, hrun, hres, hidx, (congrArg Slice.st hx :), (congrArg Slice.prod hx :), (congrArg Slice.cons hx :),
    (congrArg Slice.q hx :), fun j hj => ?_, hk⟩
  rw [slice_of htg, grantCredit_other hj, barQueue_slice, ← slice_of hug]
  exact State.slice_setSlice_ne _ _ hj

theorem slcDestroy_closed (hst : (s.slice i.toNat).st = .closed) : ∃ t, exec (.slcDestroy a i) s = .next t ∧ t.rd Reg.SLC_CMDRES_RES = 0 ∧
    t.rd Reg.SLC_CMDRES_SLICE = i.toNat ∧ (t.slice i.toNat).st = .free ∧ (t.slice i.toNat).size = 0 ∧ (t.slice i.toNat).vecs = 0 ∧
    (∀ j, j ≠ i.toNat → t.slice j = s.slice j) ∧ Keeps [.out, .regs, .bar, .gate] s t := by
  obtain ⟨t, u, hrun, hres, hidx, htg, hug, hk⟩ := slc_taken (op := 4) (i := i) ha h (by decide)
    (fun u => grantCredit [i.toNat] (barQueue .host 0x13 (pay i.toNat)
      (u.setSlice i.toNat { u.slice i.toNat with st := .free, size := 0, vecs := 0, meter := false })))
    (fun u hu => slcCommand_destroy (by rw [slice_of hu]; exact hst))
    (fun u => Keeps.step (grantCredit_keeps ..) (by decide) (Keeps.step (barQueue_keeps ..) (by decide) ((setSlice_keeps' ..).mono (by decide))))
  obtain ⟨g, hg⟩ := grantCredit_slice [i.toNat] (barQueue .host 0x13 (pay i.toNat)
    (u.setSlice i.toNat { u.slice i.toNat with st := .free, size := 0, vecs := 0, meter := false })) i.toNat
  rw [barQueue_slice, State.slice_setSlice] at hg
  have hx := (slice_of htg i.toNat).trans hg
  refine ⟨t, hrun, hres, hidx, (congrArg Slice.st hx :), (congrArg Slice.size hx :), (congrArg Slice.vecs hx :), fun j hj => ?_, hk⟩
  rw [slice_of htg, grantCredit_other hj, barQueue_slice, ← slice_of hug]
  exact State.slice_setSlice_ne _ _ hj

theorem slcOpen_fault (hst : (s.slice i.toNat).st = .fault) : ∃ t, exec (.slcOpen a i) s = .next t ∧ t.rd Reg.SLC_CMDRES_RES = 0 ∧
    (t.slice i.toNat).st = .open_ ∧ (s.slice i.toNat).q <+: (t.slice i.toNat).q ∧
    ((s.slice i.toNat).kept = [] → (t.slice i.toNat).q = (s.slice i.toNat).q) ∧
    (∀ j, j ≠ i.toNat → t.slice j = s.slice j) ∧ Keeps [.out, .regs, .bar, .gate] s t := by
  obtain ⟨t, u, hrun, hres, -, htg, hug, hk⟩ := slc_taken (op := 2) (i := i) ha h (by decide)
    (fun u => grantCredit [i.toNat] (pumpKept i.toNat (u.slice i.toNat).kept.length (u.setSlice i.toNat { u.slice i.toNat with st := .open_ })))
    (fun u hu => slcCommand_openFault (by rw [slice_of hu]; exact hst))
    (fun u => Keeps.step (grantCredit_keeps ..) (by decide) (Keeps.step (pumpKept_keeps ..) (by decide) ((setSlice_keeps' ..).mono (by decide))))
  obtain ⟨v, hv⟩ : ∃ v, u.setSlice i.toNat { u.slice i.toNat with st := .open_ } = v := ⟨_, rfl⟩
  have hvx : v.slice i.toNat = { s.slice i.toNat with st := .open_ } := by
    rw [← hv, State.slice_setSlice, slice_of hug]
  rw [hv] at htg
  obtain ⟨g, hg⟩ := grantCredit_slice [i.toNat] (pumpKept i.toNat (u.slice i.toNat).kept.length v) i.toNat
  have hx := (slice_of htg i.toNat).trans hg
  obtain ⟨hopen, hq⟩ := pumpKept_grows (i := i.toNat) (s := v) (u.slice i.toNat).kept.length
  rw [hvx] at hopen hq
  refine ⟨t, hrun, hres, (congrArg Slice.st hx :).trans hopen, ?_, fun hkept => ?_, fun j hj => ?_, hk⟩
  · rw [show (t.slice i.toNat).q = _ from (congrArg Slice.q hx :)]
    exact hq
  · refine (congrArg Slice.q hx :).trans ?_
    rw [slice_of hug, hkept]
    exact (congrArg Slice.q hvx :)
  · rw [slice_of htg, grantCredit_other hj, pumpKept_other hj, ← hv, ← slice_of hug]
    exact State.slice_setSlice_ne _ _ hj

theorem slcReset_fault (hst : (s.slice i.toNat).st = .fault) : ∃ t, exec (.slcReset a i) s = .next t ∧ t.rd Reg.SLC_CMDRES_RES = 0 ∧
    t.rd Reg.SLC_CMDRES_SLICE = i.toNat ∧ (t.slice i.toNat).st = .stopping ∧ (t.slice i.toNat).fromFault = true ∧ (t.slice i.toNat).q = [] ∧
    (t.slice i.toNat).kept = [] ∧ (∀ r ∈ (s.slice i.toNat).q, r.tag ∈ t.gate.discTags) ∧ (s.gate.bar.st ≠ .up → t.gate.restop = true) ∧
    Keeps [.out, .regs, .bar, .gate] s t := by
  obtain ⟨t, u, hrun, hres, hidx, htg, hug, hk⟩ := slc_taken (op := 3) (i := i) ha h (by decide) (resetSlice i.toNat)
    (fun u hu => slcCommand_reset (.inr (by rw [slice_of hu]; exact hst))) (fun u => (resetSlice_keeps ..).mono (by decide))
  obtain ⟨⟨g, hg⟩, hdisc, hstop⟩ := resetFault_does (i := i.toNat) (s := u) (by rw [slice_of hug]; exact hst)
  have hx := (slice_of htg i.toNat).trans hg
  rw [hug] at hstop
  rw [slice_of hug] at hdisc
  refine ⟨t, hrun, hres, hidx, (congrArg Slice.st hx :), (congrArg Slice.fromFault hx :), (congrArg Slice.q hx :), (congrArg Slice.kept hx :),
    fun r hr => ?_, fun hb => ?_, hk⟩
  · rw [htg]
    exact hdisc r hr
  · rw [htg]
    exact hstop hb

theorem slcReset_open (hst : (s.slice i.toNat).st = .open_) : ∃ t, exec (.slcReset a i) s = .next t ∧ t.rd Reg.SLC_CMDRES_RES = 0 ∧
    t.rd Reg.SLC_CMDRES_SLICE = i.toNat ∧ (t.slice i.toNat).st = .stopping ∧ (t.slice i.toNat).stopAt = s.gate.clk ∧
    (t.slice i.toNat).q = (s.slice i.toNat).q ∧ (t.slice i.toNat).kept = (s.slice i.toNat).kept ∧ (s.gate.bar.st ≠ .up → t.gate.restop = true) ∧
    (∀ j, j ≠ i.toNat → t.slice j = s.slice j) ∧ Keeps [.out, .regs, .bar, .gate] s t := by
  obtain ⟨t, u, hrun, hres, hidx, htg, hug, hk⟩ := slc_taken (op := 3) (i := i) ha h (by decide) (resetSlice i.toNat)
    (fun u hu => slcCommand_reset (.inl (by rw [slice_of hu]; exact hst))) (fun u => (resetSlice_keeps ..).mono (by decide))
  obtain ⟨⟨g, hg⟩, hstop, hother⟩ := resetOpen_does (i := i.toNat) (s := u) (by rw [slice_of hug]; exact hst)
  rw [hug, slice_of hug] at hg
  rw [hug] at hstop
  have hx := (slice_of htg i.toNat).trans hg
  refine ⟨t, hrun, hres, hidx, (congrArg Slice.st hx :), (congrArg Slice.stopAt hx :), (congrArg Slice.q hx :), (congrArg Slice.kept hx :),
    fun hb => ?_, fun j hj => (slice_of htg j).trans ((hother j hj).trans (slice_of hug j)), hk⟩
  rw [htg]
  exact hstop hb

end

/-- Settles O57: each slice command by the state of its slice. -/
theorem sliceWrites : Obligations.SliceWrites := by
  refine ⟨fun a i pasidEn s ha h => slcCreate_answers ha h, fun a i s ha h => ⟨fun hst => ⟨slcOpen_closed ha h hst, slcDestroy_closed ha h hst⟩,
    slcOpen_fault ha h, slcReset_fault ha h, slcReset_open ha h, fun hc hf => ?_, fun ho hf => ?_, fun hc => ?_⟩⟩
  · exact slc_turned (op := 2) ha h (by decide) fun u hu => slcCommand_openBusy (by rw [slice_of hu]; exact hc) (by rw [slice_of hu]; exact hf)
  · exact slc_turned (op := 3) ha h (by decide) fun u hu => slcCommand_resetBusy (by rw [slice_of hu]; exact ho) (by rw [slice_of hu]; exact hf)
  · exact slc_turned (op := 4) ha h (by decide) fun u hu => slcCommand_destroyBusy (by rw [slice_of hu]; exact hc)

end Sys2Proof.Machine

namespace Sys2Proof.Machine

set_option Elab.async false

-- a tenant's writes in its page (R400, R407, R409)

section
variable {a : Access} {i : BitVec 8} {w : Word} {s u : State}

/-- A write of a page's word, whose row holds nothing but the command. -/
theorem page_write {off : Nat} {r : RegRow} (ha : a.via = .bar2) (hoff : 0x200000 + (0x1000 * i.toNat + off) = r.base + 0x1000 * i.toNat)
    (hat : findReg (r.base + 0x1000 * i.toNat) = some (r, i.toNat, 0)) (h : lands s a (0x1000 * i.toNat + off))
    (h1 : sealedWord r.id = false) (h2 : r.id ≠ .LOAD_DATA) (h3 : r.id ≠ .H_LOAD_DATA) (h4 : r.has .ws = false) (h5 : r.has .w1 = false)
    (ho : ownWords.contains r.id = true)
    (he : (effect1 a ⟨r, i.toNat, 0, r.base + 0x1000 * i.toNat, .active⟩ w.toNat s.bare s.bare).bind
      (effect2 ⟨r, i.toNat, 0, r.base + 0x1000 * i.toNat, .active⟩ w.toNat s.bare) = some u) :
    doWrite a.atBar2 a (0x1000 * i.toNat + off) w.toNat s = .next { respond a true 0 none u with pending := s.pending } := by
  have hp : locate s.bare a.via (0x1000 * i.toNat + off) = some ⟨r, i.toNat, 0, r.base + 0x1000 * i.toNat, .active⟩ := by
    rw [ha, locate_page (hoff ▸ hat), hoff]
  refine runWf_eq (beq_iff_eq.2 ha) (writeReg_active (bare_lands h) hp rfl w.isLt h1 h2 h3 h4 h5 ?_)
  have hput : putFields ⟨r, i.toNat, 0, r.base + 0x1000 * i.toNat, .active⟩ w.toNat s.bare = s.bare :=
    if_pos (by rw [ho, Bool.true_or])
  rw [hput]
  exact he

theorem pgCons_runs (ha : a.via = .bar2) (h : lands s a (0x1000 * i.toNat + 4)) : exec (.pgConsWrite a i w) s =
    .next { respond a true 0 none (consWritten i.toNat w s.bare) with pending := s.pending } := by
  refine page_write (r := row_PG_CONS) ha (by show _ = 0x200004 + _; omega) (at_PG_CONS _ i.isLt) h rfl (by decide) (by decide) (by decide)
    (by decide) (by decide) ?_
  show some (consWritten i.toNat (BitVec.ofNat 32 w.toNat) s.bare) = _
  rw [BitVec.ofNat_toNat, BitVec.setWidth_eq]

theorem pgArm_runs (ha : a.via = .bar2) (h : lands s a (0x1000 * i.toNat + 8)) : exec (.pgArmWrite a i w) s =
    .next { respond a true 0 none (if bit w.toNat 0 then armWritten i.toNat s.bare else s.bare) with pending := s.pending } :=
  page_write (r := row_PG_ARM) ha (by show _ = 0x200008 + _; omega) (at_PG_ARM _ i.isLt) h rfl (by decide) (by decide) (by decide) (by decide)
    (by decide) rfl

theorem pgVw_runs (ha : a.via = .bar2) (h : lands s a (0x1000 * i.toNat + 0x10)) : exec (.pgVwWrite a i w) s =
    .next { respond a true 0 none (vwWritten i.toNat w s.bare) with pending := s.pending } := by
  refine page_write (r := row_PG_VW) ha (by show _ = 0x200010 + _; omega) (at_PG_VW _ i.isLt) h rfl (by decide) (by decide) (by decide) (by decide)
    (by decide) ?_
  show some (vwWritten i.toNat (BitVec.ofNat 32 w.toNat) s.bare) = _
  rw [BitVec.ofNat_toNat, BitVec.setWidth_eq]

/-- What a write leaves of the host gate. -/
theorem answered_gate : ({ respond a true 0 none u with pending := s.pending } : State).gate = u.gate :=
  answered_same (s := s) (u := u) a .gate (by decide) (by decide)

theorem answered_slice (j : Nat) : ({ respond a true 0 none u with pending := s.pending } : State).slice j = u.slice j :=
  slice_of answered_gate j

/-- A write that only raises a flag of the page. -/
theorem page_flagged {f : Fld} {o : Host.Outcome State Fault Refusal}
    (ho : o = .next { respond a true 0 none (s.bare.raise f) with pending := s.pending }) :
    ∃ t, o = .next t ∧ t.rd f = 1 % 2 ^ f.w ∧ t.gate = s.gate ∧ Keeps [.out, .regs] s t :=
  ⟨_, ho, (answered_rd a f).trans (State.rd_wr_same ..), answered_gate, answered a (State.wr_keeps ..)⟩

/-- A write that has no effect. -/
theorem page_ignored {o : Host.Outcome State Fault Refusal} (ho : o = .next { respond a true 0 none s.bare with pending := s.pending }) :
    ∃ t, o = .next t ∧ t.gate = s.gate ∧ Keeps [.out, .regs] s t :=
  ⟨_, ho, answered_gate, answered a Keeps.refl⟩

-- PG_CONS

theorem consWritten_frees (hst : (s.slice i.toNat).st = .open_) (hle : ((s.slice i.toNat).prod - w).toNat ≤ (s.slice i.toNat).occ)
    (hk : (s.slice i.toNat).kept = []) :
    consWritten i.toNat w s = grantCredit [i.toNat] (s.setSlice i.toNat { s.slice i.toNat with cons := w }) := by
  obtain ⟨u, hu⟩ : ∃ u, s.setSlice i.toNat { s.slice i.toNat with cons := w } = u := ⟨_, rfl⟩
  have hslice : u.slice i.toNat = { s.slice i.toNat with cons := w } := hu ▸ State.slice_setSlice ..
  have hpump : pumpKept i.toNat 1 u = u := by
    unfold pumpKept
    rw [hslice]
    dsimp only
    rw [hk]
  obtain ⟨g, hg⟩ := grantCredit_slice [i.toNat] u i.toNat
  refine (if_pos (by rw [hst]; rfl)).trans ((if_pos hle).trans ?_)
  have hone : (s.slice i.toNat).kept.length + 1 = 1 := by rw [hk]; rfl
  dsimp only at hu ⊢
  rw [hone, hu, hpump]
  refine if_neg ?_
  rw [hg, hslice]
  dsimp only
  rw [hst]
  exact Bool.false_ne_true

theorem pgCons_frees (ha : a.via = .bar2) (h : lands s a (0x1000 * i.toNat + 4)) (hst : (s.slice i.toNat).st = .open_)
    (hle : ((s.slice i.toNat).prod - w).toNat ≤ (s.slice i.toNat).occ) (hk : (s.slice i.toNat).kept = []) :
    ∃ t, exec (.pgConsWrite a i w) s = .next t ∧ (t.slice i.toNat).cons = w ∧ (t.slice i.toNat).prod = (s.slice i.toNat).prod ∧
      (t.slice i.toNat).q = (s.slice i.toNat).q ∧ (∀ j, j ≠ i.toNat → t.slice j = s.slice j) ∧ Keeps [.out, .regs, .bar, .gate] s t := by
  obtain ⟨u, hu⟩ : ∃ u, s.bare.setSlice i.toNat { s.slice i.toNat with cons := w } = u := ⟨_, rfl⟩
  have hcons : consWritten i.toNat w s.bare = grantCredit [i.toNat] u :=
    hu ▸ consWritten_frees (s := s.bare) hst hle hk
  have hslice : u.slice i.toNat = { s.slice i.toNat with cons := w } := hu ▸ State.slice_setSlice ..
  obtain ⟨g, hg⟩ := grantCredit_slice [i.toNat] u i.toNat
  have hself : ({ respond a true 0 none (consWritten i.toNat w s.bare) with pending := s.pending } : State).slice i.toNat =
      { s.slice i.toNat with cons := w, granted := g } := by
    rw [answered_slice, hcons, hg, hslice]
  refine ⟨_, pgCons_runs ha h, ?_, ?_, ?_, fun j hj => ?_, answered a (consWritten_keeps ..)⟩
  · rw [hself]
  · rw [hself]
  · rw [hself]
  · rw [answered_slice, hcons, grantCredit_other hj, ← hu]
    exact State.slice_setSlice_ne _ _ hj

theorem consWritten_errs (hst : (s.slice i.toNat).st = .open_ ∨ (s.slice i.toNat).st = .stopping)
    (hlt : (s.slice i.toNat).occ < ((s.slice i.toNat).prod - w).toNat) :
    consWritten i.toNat w s.bare = s.bare.raise (Reg.PG_STAT_CERR i.toNat) := by
  have hgo : ((s.slice i.toNat).st == .open_ || (s.slice i.toNat).st == .stopping) = true := by
    rcases hst with h | h <;> rw [h] <;> rfl
  exact (if_pos hgo).trans (if_neg (Nat.not_le.2 hlt))

theorem consWritten_idle (h1 : (s.slice i.toNat).st ≠ .open_) (h2 : (s.slice i.toNat).st ≠ .stopping) :
    consWritten i.toNat w s = s :=
  if_neg (by simp [h1, h2])

-- PG_ARM

theorem armWritten_waits (h : (s.slice i.toNat).occ = 0 ∨ s.rd (Reg.SLC_VEC_NVEC i.toNat) = 0) :
    armWritten i.toNat s = s.setSlice i.toNat { s.slice i.toNat with arm := true } := by
  unfold armWritten
  dsimp only
  rw [State.slice_setSlice]
  split_ifs with hocc
  · rcases h with h | h
    · exact absurd h (Nat.pos_iff_ne_zero.1 hocc)
    · unfold notify vecRange
      dsimp only
      rw [if_pos]
      rw [Bool.or_eq_true]
      exact Or.inr (decide_eq_true h)
  · rfl

theorem armWritten_notifies (hocc : 0 < (s.slice i.toNat).occ) (hn : s.rd (Reg.SLC_VEC_NVEC i.toNat) ≠ 0) :
    (armWritten i.toNat s).slice i.toNat = { s.slice i.toNat with arm := false } ∧
      (armWritten i.toNat s).gate.msix = s.gate.msix ++ [(s.rd (Reg.SLC_KEY_WRITER i.toNat), s.rd (Reg.SLC_VEC_VBASE i.toNat))] := by
  obtain ⟨u, hu⟩ : ∃ u, s.setSlice i.toNat { s.slice i.toNat with arm := true } = u := ⟨_, rfl⟩
  have hslice : u.slice i.toNat = { s.slice i.toNat with arm := true } := hu ▸ State.slice_setSlice ..
  have hrd (f : Fld) : u.rd f = s.rd f := hu ▸ rfl
  have hm : u.gate.msix = s.gate.msix := hu ▸ rfl
  have hrun : armWritten i.toNat s = { u.setSlice i.toNat { s.slice i.toNat with arm := false } with
      gate := { (u.setSlice i.toNat { s.slice i.toNat with arm := false }).gate with
        msix := s.gate.msix ++ [(s.rd (Reg.SLC_KEY_WRITER i.toNat), s.rd (Reg.SLC_VEC_VBASE i.toNat))] } } := by
    unfold armWritten
    dsimp only
    rw [hu, hslice, if_pos (show 0 < ({ s.slice i.toNat with arm := true } : Slice).occ from hocc)]
    unfold notify vecRange
    dsimp only
    rw [hslice, hrd, hrd, if_neg (by simp [hn])]
    simp only [Bool.false_and, Bool.false_eq_true, ↓reduceIte]
    rw [← hm, ← hrd (Reg.SLC_KEY_WRITER i.toNat)]
    rfl
  rw [hrun]
  exact ⟨State.slice_setSlice .., rfl⟩

theorem armWritten_other {j : Nat} (hj : j ≠ i.toNat) : (armWritten i.toNat s).slice j = s.slice j := by
  unfold armWritten
  dsimp only
  split
  · unfold notify
    dsimp only
    split
    · exact State.slice_setSlice_ne _ _ hj
    · exact (State.slice_setSlice_ne _ _ hj).trans (State.slice_setSlice_ne _ _ hj)
  · exact State.slice_setSlice_ne _ _ hj

-- PG_VW

/-- The write names a vector of the slice's range. -/
def vwInRange (i : Nat) (w : Word) (s : State) : Prop :=
  s.rd (Reg.SLC_VWR_VWBASE i) ≤ bits w.toNat 0 12 ∧ bits w.toNat 0 12 < s.rd (Reg.SLC_VWR_VWBASE i) + s.rd (Reg.SLC_VWR_VWCOUNT i)

theorem vwWritten_busy (hr : vwInRange i.toNat w s)
    (h : (s.slice i.toNat).st ≠ .open_ ∨ (s.slice i.toNat).vwSlot ≠ none ∨ (∀ k < 32, (tget {} s.gate.vw k).busy ≠ none)) :
    vwWritten i.toNat w s = s.raise (Reg.PG_STAT_VWBUSY i.toNat) := by
  obtain ⟨hlo, hhi⟩ := hr
  unfold vwWritten
  dsimp only
  rw [if_neg (by omega)]
  split
  · rfl
  · next k hk =>
    have hfree : (tget {} s.gate.vw k).busy = none := Option.isNone_iff_eq_none.1 (by simpa using List.find?_some hk)
    have hk32 : k < 32 := List.mem_range.1 (List.mem_of_find?_eq_some hk)
    refine if_pos ?_
    rcases h with h | h | h
    · simp [h]
    · simp [Option.isSome_iff_ne_none.2 h]
    · exact absurd hfree (h k hk32)

/-- The slot of a vector write that is sent. -/
def vwSent (w : Word) (k : Nat) (i : BitVec 8) (s : State) : VwSlot where
  gen := !(tget {} s.gate.vw k).gen
  busy := some i
  payload := vwritePayload w k !(tget {} s.gate.vw k).gen
  sentAt := s.gate.clk

theorem vwWritten_sends {k : Nat} (hr : vwInRange i.toNat w s) (hst : (s.slice i.toNat).st = .open_) (hs : (s.slice i.toNat).vwSlot = none)
    (hk : k < 32) (hfree : (tget {} s.gate.vw k).busy = none) (hfirst : ∀ j < k, (tget {} s.gate.vw j).busy ≠ none) :
    vwWritten i.toNat w s = barQueue .host 0x08 (vwSent w k i s).payload
      (((({ s with gate := { s.gate with vw := tset {} s.gate.vw k (vwSent w k i s) } } : State).setSlice i.toNat
        { s.slice i.toNat with vwSlot := some k }).wr (Reg.PG_VW_VW i.toNat) (bits w.toNat 0 28)).wr (Reg.PG_VWRES_DONE i.toNat) 0) := by
  obtain ⟨hlo, hhi⟩ := hr
  have hfind : (List.range 32).find? (fun k => (tget {} s.gate.vw k).busy.isNone) = some k := by
    refine List.find?_range_eq_some.2 ⟨by rw [hfree]; rfl, List.mem_range.2 hk, fun j hj => ?_⟩
    simpa [← Option.isSome_iff_ne_none] using hfirst j hj
  unfold vwWritten
  dsimp only
  rw [if_neg (by omega), hfind]
  dsimp only
  rw [if_neg (by rw [hst, hs]; decide), BitVec.ofNat_toNat, BitVec.setWidth_eq]
  rfl

theorem pgVw_sends {k : Nat} (ha : a.via = .bar2) (h : lands s a (0x1000 * i.toNat + 0x10)) (hr : vwInRange i.toNat w s)
    (hst : (s.slice i.toNat).st = .open_) (hs : (s.slice i.toNat).vwSlot = none) (hk : k < 32) (hfree : (tget {} s.gate.vw k).busy = none)
    (hfirst : ∀ j < k, (tget {} s.gate.vw j).busy ≠ none) :
    ∃ t, exec (.pgVwWrite a i w) s = .next t ∧ t.slice i.toNat = { s.slice i.toNat with vwSlot := some k } ∧
      (tget {} t.gate.vw k).busy = some i ∧ (tget {} t.gate.vw k).gen = !(tget {} s.gate.vw k).gen ∧
      t.rd (Reg.PG_VWRES_DONE i.toNat) = 0 ∧ Keeps [.out, .regs, .bar, .gate] s t := by
  have hv := vwWritten_sends (s := s.bare) hr hst hs hk hfree hfirst
  obtain ⟨u, hu⟩ : ∃ u, ({ s.bare with gate := { s.gate with vw := tset {} s.gate.vw k (vwSent w k i s) } } : State).setSlice i.toNat
    { s.slice i.toNat with vwSlot := some k } = u := ⟨_, rfl⟩
  obtain ⟨v, hvd⟩ : ∃ v, (u.wr (Reg.PG_VW_VW i.toNat) (bits w.toNat 0 28)).wr (Reg.PG_VWRES_DONE i.toNat) 0 = v := ⟨_, rfl⟩
  have hrun : vwWritten i.toNat w s.bare = barQueue .host 0x08 (vwSent w k i s).payload v := by
    rw [← hvd, ← hu]
    exact hv
  have hg : v.gate = u.gate := hvd ▸ rfl
  have hvw : (barQueue .host 0x08 (vwSent w k i s).payload v).gate.vw = tset {} s.gate.vw k (vwSent w k i s) := by
    have hq : (barQueue .host 0x08 (vwSent w k i s).payload v).gate.vw = v.gate.vw := by
      unfold barQueue
      dsimp only
      split_ifs <;> rfl
    rw [hq, hg, ← hu]
    rfl
  refine ⟨_, pgVw_runs ha h, ?_, ?_, ?_, ?_, answered a (vwWritten_keeps ..)⟩
  · rw [answered_slice, hrun, barQueue_slice, slice_of hg, ← hu]
    exact State.slice_setSlice ..
  · rw [answered_gate, hrun, hvw, tget_tset_same]
    rfl
  · rw [answered_gate, hrun, hvw, tget_tset_same]
    rfl
  · have hq (f : Fld) : (barQueue .host 0x08 (vwSent w k i s).payload v).rd f = v.rd f := by
      unfold barQueue
      dsimp only
      split_ifs <;> rfl
    rw [answered_rd, hrun, hq, ← hvd, State.rd_wr_same]
    rfl

end

-- VRESULT and the repeat of a vector write (R381)

theorem vresult_ignored {p : BitVec 128} {s : State} (h : barReady .host s)
    (hno : (tget {} s.gate.vw (pf p 0 5)).busy = none ∨ (tget {} s.gate.vw (pf p 0 5)).gen ≠ p.getLsbD 5) :
    exec (.vresult p) s = .next { s with out := [], gate := { s.gate with bar := barTook .host 0x09 s } } := by
  obtain ⟨v, hv⟩ : ∃ v, tget {} s.gate.vw (pf p 0 5) = v := ⟨_, rfl⟩
  rw [hv] at hno
  refine gateFrame_runs (u := hearing .host 0x09 s) h ?_ rfl
  have hv' : tget {} (hearing .host 0x09 s).gate.vw (pf p 0 5) = v := hv
  dsimp only
  rw [hv']
  split
  · next i hb =>
    rcases hno with hno | hno
    · rw [hb] at hno
      cases hno
    · exact if_pos (bne_iff_ne.2 hno)
  · rfl

theorem vwriteRepeat_sends {k : Nat} {v : VwSlot} {s : State} (hup : s.gate.bar.st = .up)
    (hfind : s.gate.vw.find? (fun e => e.2.busy.isSome && decide (e.2.sentAt.toNat + rtmo s ≤ s.gate.clk.toNat)) = some (k, v)) :
    exec .vwriteRepeat s = .next { s with out := [], gate := { s.gate with
      bar := barWith 0x08 v.payload s.gate.bar, vw := tset {} s.gate.vw k { v with sentAt := s.gate.clk } } } := by
  refine run_eq (t := { s.bare with gate := { s.gate with
    bar := barWith 0x08 v.payload s.gate.bar, vw := tset {} s.gate.vw k { v with sentAt := s.gate.clk } } }) ?_
  have hfind' : s.bare.gate.vw.find? (fun e => e.2.busy.isSome && decide (e.2.sentAt.toNat + rtmo s.bare ≤ s.bare.gate.clk.toNat)) =
    some (k, v) := hfind
  dsimp only
  rw [if_neg (by rw [show s.bare.gate.bar.st = _ from hup]; decide), hfind']
  exact barQueue_eq .host 0x08 v.payload _ hup

/-- Settles O58: a tenant's writes in its page, the repeat of a vector write and its result. -/
theorem tenantWrites : Obligations.TenantWrites := by
  refine ⟨fun a i w s ha => ⟨fun h => ⟨fun hst hle hk => pgCons_frees ha h hst hle hk, fun hst hlt => ?_, fun h1 h2 => ?_⟩,
    fun h => ⟨fun hb => ?_, fun hb hn => ?_, fun hb hocc hn => ?_⟩,
    fun h => ⟨fun hout => ?_, fun hlo hhi => ⟨fun hno => ?_,
      fun k hst hs hk hfree hfirst => pgVw_sends ha h ⟨hlo, hhi⟩ hst hs hk hfree hfirst⟩⟩⟩,
    fun p s hr => ⟨fun i hb hg hs => ?_, vresult_ignored hr⟩, fun k v s hup _ hfind => ?_⟩
  · exact page_flagged (by rw [pgCons_runs ha h, consWritten_errs hst hlt])
  · refine page_ignored (a := a) (by rw [pgCons_runs ha h, consWritten_idle (s := s.bare) h1 h2])
  · refine page_ignored (a := a) (by rw [pgArm_runs ha h, if_neg (by rw [hb]; exact Bool.false_ne_true)])
  · have hrun := pgArm_runs (w := w) ha h
    rw [if_pos hb] at hrun
    refine ⟨_, hrun, ?_, fun j hj => (answered_slice j).trans (armWritten_other (s := s.bare) hj), ?_,
      answered a ((armWritten_keeps ..).mono (by decide))⟩
    · rw [answered_slice, armWritten_waits (s := s.bare) hn]
      exact State.slice_setSlice ..
    · rw [answered_gate, armWritten_waits (s := s.bare) hn]
      rfl
  · have hrun := pgArm_runs (w := w) ha h
    rw [if_pos hb] at hrun
    obtain ⟨hslice, hmsix⟩ := armWritten_notifies (s := s.bare) hocc hn
    refine ⟨_, hrun, (answered_slice _).trans hslice, ?_, answered a ((armWritten_keeps ..).mono (by decide))⟩
    rw [answered_gate]
    exact hmsix
  · refine page_flagged (a := a) (f := Reg.PG_VWRES_DENIED i.toNat) ?_
    rw [pgVw_runs ha h, show vwWritten i.toNat w s.bare = s.bare.raise (Reg.PG_VWRES_DENIED i.toNat) from if_pos hout]
  · refine page_flagged (a := a) (f := Reg.PG_STAT_VWBUSY i.toNat) ?_
    rw [pgVw_runs ha h, vwWritten_busy (s := s.bare) ⟨hlo, hhi⟩ hno]
  · obtain ⟨t, hrun, hvw, hslice, hdone, -, -, hkeep⟩ := vresult_posts hr rfl hb hg hs
    exact ⟨t, hrun, by rw [hvw], by rw [hslice], hdone, hkeep⟩
  · refine ⟨_, vwriteRepeat_sends hup hfind, rfl, tget_tset_same .., fun j hj => tget_tset_ne _ _ _ _ hj, ?_⟩
    have h0 : Keeps [.out, .gate] s { s with out := [] } := Keeps.refl.out (by decide)
    exact h0.gate (by decide)

end Sys2Proof.Machine

namespace Sys2Proof.Machine

set_option Elab.async false

-- words of which some bits are changed

/-- The word of a field-die row with some bits cleared and some set. -/
def changedWord (x clear set : Nat) : Nat := x &&& (0xFFFFFFFF ^^^ clear) ||| set

theorem changedWord_lt (x : Nat) {clear set : Nat} (hc : clear < 2 ^ 32) (hs : set < 2 ^ 32) : changedWord x clear set < 2 ^ 32 :=
  (changed_lt x clear set hs).resolve_right (Nat.not_le.2 hc)

/-- A bit that is set is 1, whatever stood there. -/
theorem changedWord_set {x clear set k : Nat} (hk : k < 32) (h : bit set k = true) : bit (changedWord x clear set) k = true := by
  unfold changedWord
  rw [bit_changed x clear set k hk, h, Bool.or_true]

/-- A bit that is cleared is 0. -/
theorem changedWord_clear {x clear set k : Nat} (hk : k < 32) (hc : bit clear k = true) (hs : bit set k = false) :
    bit (changedWord x clear set) k = false := by
  unfold changedWord
  rw [bit_changed x clear set k hk, hc, hs, Bool.not_true, Bool.and_false, Bool.or_false]

/-- A bit that is neither set nor cleared stays as it is. -/
theorem changedWord_stays {x clear set k : Nat} (hk : k < 32) (hc : bit clear k = false) (hs : bit set k = false) :
    bit (changedWord x clear set) k = bit x k := by
  unfold changedWord
  rw [bit_changed x clear set k hk, hc, hs, Bool.not_false, Bool.and_true, Bool.or_false]

theorem doChange_eq (ok : Bool) (a : Access) (addr clear set : Nat) (s : State) :
    doChange ok a addr clear set s = doWrite ok a addr (changedWord (presentRW s addr) clear set) s := rfl

-- BAR_CTRL.EN (R375, R383)

/-- The place of BAR_CTRL. -/
abbrev spotBarCtrl : Spot := ⟨row_BAR_CTRL, 0, 0, 0xF600, .active⟩

section
variable {a : Access} {s : State}

theorem spot_of_lands {addr : Nat} (h : lands s a addr) : ∃ p, locate s a.via addr = some p := by
  have hc : writeCause s a addr = none := h.2.1
  unfold writeCause at hc
  cases hl : locate s a.via addr with
  | some p => exact ⟨p, rfl⟩
  | none =>
    rw [hl] at hc
    split at hc <;> cases hc

/-- Only field die 0 has the words of the barrier. -/
theorem isDie0_of_lands (ha : a.via = .port) (h : lands s a 0xF600) : s.isDie0 = true := by
  obtain ⟨p, hp⟩ := spot_of_lands h
  by_contra h0
  rw [ha, Bool.not_eq_true] at *
  unfold locate at hp
  simp [h0] at hp

/-- The state in which a write of BAR_CTRL acts: its fields are stored. -/
def barHeardCtrl (w : Nat) (s : State) : State := putFields spotBarCtrl w s

theorem barHeardCtrl_stores (w : Nat) (s : State) : Keeps [.regs] s (barHeardCtrl w s) ∧ (barHeardCtrl w s).rd Reg.BAR_CTRL_EN = bits w 0 1 := by
  obtain ⟨hk, hset, -⟩ := putFields_does (p := spotBarCtrl) (findReg_mem at_BAR_CTRL) (by decide) (by decide) (by decide) w s
  exact ⟨hk, hset ⟨0, 1, .rw, 0⟩ (by simp) rfl (by decide)⟩

theorem barCtrl_runs {w : Nat} (ha : a.atPort = true) (h : lands s a 0xF600) (hw : w < 2 ^ 32) :
    doWrite a.atPort a 0xF600 w s = .next { respond a true 0 none (barEnWritten (barHeardCtrl w s.bare)) with pending := s.pending } := by
  have hv : a.via = .port := beq_iff_eq.1 ha
  have hp : locate s.bare a.via 0xF600 = some spotBarCtrl := by
    rw [hv]
    exact locate_bar (by decide) (by decide) (by decide) (isDie0_of_lands hv h) at_BAR_CTRL
  exact runWf_eq ha (writeReg_active (p := spotBarCtrl) (bare_lands h) hp rfl hw rfl (by decide) (by decide) (by decide) (by decide) rfl)

theorem port_out {u : State} (ha : a.atPort = true) (ho : u.out = []) :
    ({ respond a true 0 none u with pending := s.pending } : State).out = [.reg a.via 0 none] := by
  rw [answered_out a ho]
  have hv : a.via = .port := beq_iff_eq.1 ha
  unfold Access.host
  rw [hv]
  rfl

theorem tryHello_enters (h0 : s.isDie0 = true) (hen : s.flag Reg.BAR_CTRL_EN = true) (hd : s.bar.st = .down) (hl : s.bar.locked = 0xF) :
    tryHello .field s = setBar .field { s.bar with st := .hello, lastHello := 0 } s := by
  refine if_pos ?_
  show (s.bar.st == .down && (s.isDie0 && s.flag Reg.BAR_CTRL_EN) && s.bar.locked == 0xF) = true
  rw [h0, hen, hd, hl]
  rfl

theorem tryHello_stays (h : s.bar.st ≠ .down ∨ s.bar.locked ≠ 0xF) : tryHello .field s = s := by
  refine if_neg ?_
  show ¬ (s.bar.st == .down && (s.isDie0 && s.flag Reg.BAR_CTRL_EN) && s.bar.locked == 0xF) = true
  rcases h with h | h
  · rw [beq_eq_false_iff_ne.2 h]
    exact Bool.false_ne_true
  · rw [beq_eq_false_iff_ne.2 h, Bool.and_false]
    exact Bool.false_ne_true

theorem tryHello_field_keeps (s : State) : Keeps [.bar] s (tryHello .field s) := by
  unfold tryHello
  dsimp only
  split_ifs
  · exact Keeps.refl.bar (by decide)
  · exact Keeps.refl

theorem barEnable_does (ha : a.atPort = true) (h : lands s a 0xF600) :
    ∃ t, exec (.barEnable a) s = .next t ∧ t.out = [.reg a.via 0 none] ∧ t.rd Reg.BAR_CTRL_EN = 1 ∧ Keeps [.out, .regs, .bar] s t ∧
      (s.bar.st = .down → s.bar.locked = 0xF → t.bar = { s.bar with st := .hello, lastHello := 0 }) ∧
      (s.bar.st ≠ .down ∨ s.bar.locked ≠ 0xF → t.bar = s.bar) := by
  obtain ⟨w, hw⟩ : ∃ w, changedWord (presentRW s 0xF600) 0 1 = w := ⟨_, rfl⟩
  have hlt : w < 2 ^ 32 := hw ▸ changedWord_lt _ (by decide) (by decide)
  have hrun := barCtrl_runs ha h hlt
  obtain ⟨hk, hen⟩ := barHeardCtrl_stores w s.bare
  obtain ⟨u, hu⟩ : ∃ u, barHeardCtrl w s.bare = u := ⟨_, rfl⟩
  rw [hu] at hrun hk hen
  have hone : u.rd Reg.BAR_CTRL_EN = 1 := by
    rw [hen, bits_one, ← hw, changedWord_set (by decide) (by exact (by decide : bit 1 0 = true))]
    rfl
  have hflag : u.flag Reg.BAR_CTRL_EN = true := by
    unfold State.flag
    rw [hone]
    rfl
  have hdie : u.isDie0 = true := by
    unfold State.isDie0
    rw [hk.same .pins (by decide)]
    exact isDie0_of_lands (beq_iff_eq.1 ha) h
  have hbar : u.bar = s.bar := hk.same .bar (by decide)
  have heff : barEnWritten u = tryHello .field u := if_pos hflag
  have hall : Keeps [.regs, .bar] s.bare (barEnWritten u) :=
    heff ▸ (hk.mono (by decide)).trans ((tryHello_field_keeps u).mono (by decide))
  have htb : ({ respond a true 0 none (barEnWritten u) with pending := s.pending } : State).bar = (tryHello .field u).bar :=
    (answered_same (s := s) a .bar (by decide) (by decide)).trans (congrArg State.bar heff)
  refine ⟨_, by rw [← hw] at hrun; exact hrun, port_out ha (hall.same .out (by decide)), ?_, answered a hall, fun hd hl => ?_, fun hno => ?_⟩
  · exact (answered_rd a _).trans ((congrArg (State.rd · Reg.BAR_CTRL_EN) heff).trans (((tryHello_field_keeps u).rd_eq _).trans hone))
  · rw [htb, tryHello_enters hdie hflag (hbar ▸ hd) (hbar ▸ hl), hbar]
    rfl
  · rw [htb, tryHello_stays (hbar ▸ hno), hbar]

/-- A barrier side that leaves UP shows its cause and latches source 5,147. -/
theorem fieldDown_shows (s : State) {cause : Nat} (hc : cause < 8) : (fieldDown cause s).rd Reg.BAR_STAT_CAUSE = cause ∧
    (fieldDown cause s).rd Reg.BAR_CTRL_EN = s.rd Reg.BAR_CTRL_EN ∧
    (s.time.sleep = .awake → ((fieldDown cause s).latchOf 5147).isSome = true) := by
  unfold fieldDown State.inc
  dsimp only
  refine ⟨?_, ?_, fun hs => raiseInt_latch _ _ _ hs⟩
  · rw [raiseInt_rd _ _ _ _ (by decide) (by decide), State.rd_wr_ne _ _ (by decide), State.rd_wr_same]
    exact Nat.mod_eq_of_lt hc
  · rw [raiseInt_rd _ _ _ _ (by decide) (by decide), State.rd_wr_ne _ _ (by decide), State.rd_wr_ne _ _ (by decide)]
    rfl

/-- The barrier ends in DOWN, free of what cause 5 held. -/
def barEnded (s : State) : State :=
  { s with
    bar := { s.bar with st := .down, stuck := false, urgent := [], ctl := [] }
    gate := { s.gate with bar := { s.gate.bar with stuck := s.gate.bar.stuck && !s.isDie0 } } }

theorem barEnded_keeps (s : State) : Keeps [.bar, .gate] s (barEnded s) := by
  have h0 : Keeps [.bar, .gate] s { s with bar := { s.bar with st := .down, stuck := false, urgent := [], ctl := [] } } :=
    Keeps.refl.bar (by decide)
  exact h0.gate (by decide)

theorem barEnWritten_ends (h : s.flag Reg.BAR_CTRL_EN = false) :
    barEnWritten s = barEnded (if s.bar.st == .up then fieldDown 0 s else s) :=
  if_neg (by rw [h]; exact Bool.false_ne_true)

theorem barDisable_does (ha : a.atPort = true) (h : lands s a 0xF600) :
    ∃ t, exec (.barDisable a) s = .next t ∧ t.out = [.reg a.via 0 none] ∧ t.rd Reg.BAR_CTRL_EN = 0 ∧ t.bar.st = .down ∧ t.bar.stuck = false ∧
      t.bar.urgent = [] ∧ t.bar.ctl = [] ∧ (s.bar.st ≠ .up → Keeps [.out, .regs, .bar, .gate] s t) ∧
      (s.isDie0 = true → t.gate = { s.gate with bar := { s.gate.bar with stuck := false } }) ∧
      (s.bar.st = .up → (s.time.sleep = .awake → (t.latchOf 5147).isSome = true) ∧ t.rd Reg.BAR_STAT_CAUSE = 0) := by
  obtain ⟨w, hw⟩ : ∃ w, changedWord (presentRW s 0xF600) 1 0 = w := ⟨_, rfl⟩
  have hlt : w < 2 ^ 32 := hw ▸ changedWord_lt _ (by decide) (by decide)
  have hrun := barCtrl_runs ha h hlt
  obtain ⟨hk, hen⟩ := barHeardCtrl_stores w s.bare
  obtain ⟨u, hu⟩ : ∃ u, barHeardCtrl w s.bare = u := ⟨_, rfl⟩
  rw [hu] at hrun hk hen
  have hzero : u.rd Reg.BAR_CTRL_EN = 0 := by
    rw [hen, bits_one, ← hw, changedWord_clear (by decide) (by exact (by decide : bit 1 0 = true)) (by exact (by decide : bit 0 0 = false))]
    rfl
  have hflag : u.flag Reg.BAR_CTRL_EN = false := by
    unfold State.flag
    rw [hzero]
    rfl
  obtain ⟨hcause, hkeep, hlatch⟩ := fieldDown_shows u (cause := 0) (by decide)
  obtain ⟨v, hv⟩ : ∃ v, (if u.bar.st == .up then fieldDown 0 u else u) = v := ⟨_, rfl⟩
  have heff : barEnWritten u = barEnded v := (barEnWritten_ends hflag).trans (congrArg barEnded hv)
  have huv : Keeps [.regs, .time, .src, .bar, .hostq, .trc] u v := by
    rw [← hv]
    split
    · exact fieldDown_keeps ..
    · exact Keeps.refl
  have hsv : Keeps [.regs, .time, .src, .bar, .hostq, .trc] s.bare v := (hk.mono (by decide)).trans huv
  have hend := barEnded_keeps v
  have hout : (barEnded v).out = [] := (hend.same .out (by decide)).trans (hsv.same .out (by decide))
  have hrd (f : Fld) : ({ respond a true 0 none (barEnded v) with pending := s.pending } : State).rd f = v.rd f :=
    (answered_rd a f).trans (hend.rd_eq f)
  have hbar : ({ respond a true 0 none (barEnded v) with pending := s.pending } : State).bar =
      { v.bar with st := .down, stuck := false, urgent := [], ctl := [] } := answered_same (s := s) a .bar (by decide) (by decide)
  have hven : v.rd Reg.BAR_CTRL_EN = 0 := by
    rw [← hv]
    split
    · exact hkeep.trans hzero
    · exact hzero
  have hst : u.bar.st = s.bar.st := congrArg BarS.st (hk.same .bar (by decide))
  rw [heff, ← hw] at hrun
  refine ⟨_, hrun, port_out ha hout, (hrd _).trans hven, by rw [hbar], by rw [hbar], by rw [hbar], by rw [hbar], fun hup => ?_, fun h0 => ?_,
    fun hup => ⟨fun hawake => ?_, ?_⟩⟩
  · have huv : u = v := (if_neg (by rw [hst, beq_iff_eq]; exact hup)).symm.trans hv
    rw [← huv] at hend ⊢
    exact answered a ((hk.mono (by decide)).trans (hend.mono (by decide)))
  · have hg : v.gate = s.gate := hsv.same .gate (by decide)
    have hdie : v.isDie0 = true := by
      unfold State.isDie0
      rw [hsv.same .pins (by decide)]
      exact h0
    have hgate : ({ respond a true 0 none (barEnded v) with pending := s.pending } : State).gate =
        { v.gate with bar := { v.gate.bar with stuck := v.gate.bar.stuck && !v.isDie0 } } :=
      answered_same (s := s) a .gate (by decide) (by decide)
    rw [hgate, hdie, hg, Bool.not_true, Bool.and_false]
  · have hdown : fieldDown 0 u = v := (if_pos (by rw [hst, hup]; rfl)).symm.trans hv
    have hsrc : ({ respond a true 0 none (barEnded v) with pending := s.pending } : State).src = v.src :=
      answered_same (s := s) a .src (by decide) (by decide)
    unfold State.latchOf
    rw [hsrc, ← hdown]
    exact hlatch ((congrArg TimeS.sleep (hk.same .time (by decide))).trans hawake)
  · have hdown : fieldDown 0 u = v := (if_pos (by rw [hst, hup]; rfl)).symm.trans hv
    exact (hrd _).trans (hdown ▸ hcause)

end

end Sys2Proof.Machine

namespace Sys2Proof.Machine

set_option Elab.async false

-- the soft reset of the host gate (R414, R475)

section
variable (s : State)

theorem hostRst_eq : hostRst s = hostTold (hostWiped s) := rfl

theorem hostRst_slice (i : Nat) : ((hostRst s).slice i).st = .free ∧ ((hostRst s).slice i).q = [] := by
  obtain ⟨g, hg⟩ := hostTold_slice (hostWiped_run s) i
  obtain ⟨g', hg'⟩ := hostWiped_slice s i
  rw [hostRst_eq, hg, hg']
  exact ⟨rfl, rfl⟩

theorem hostRst_core : gateCore (hostRst s) = { dropped s (gateCore s) with aging := true } := by
  rw [hostRst_eq, hostTold_core (hostWiped_run s), hostWiped_core]

theorem hostRst_held : (hostRst s).gate.held = [] := by
  obtain ⟨u, hu⟩ : ∃ u, hostRst s = u := ⟨_, rfl⟩
  have hcore := hostRst_core s
  rw [hu] at hcore ⊢
  exact (congrArg GateS.held hcore :)

theorem hostRst_gen : (hostRst s).gate.gen = s.gate.gen := by
  obtain ⟨u, hu⟩ : ∃ u, hostRst s = u := ⟨_, rfl⟩
  have hcore := hostRst_core s
  rw [hu] at hcore ⊢
  exact (congrArg GateS.gen hcore :)

theorem hostRst_run : (hostRst s).rd Reg.GATE_CTRL_RUN = 0 := by
  rw [hostRst_eq, hostTold_rd (hostWiped_run s), hostHeard_rd_ne _ (by decide) (by decide), hostWiped_run]

/-- The host gate in its next generation. -/
def hostRenewed : State :=
  { s with gate := { s.gate with bar := { s.gate.bar with stuck := false }, tags := [], gen := nextGen s.gate.gen } }

/-- The side of the host gate leaves UP, or ends in DOWN. -/
def hostEnded : State :=
  if s.gate.bar.st == .up then hostDown false s
  else { s with gate := { s.gate with bar := { s.gate.bar with st := .down, urgent := [], ctl := [] } } }

theorem hostSoft_eq : hostSoft s = tryHello .host (hostEnded (hostRenewed (hostRst s))) := rfl

variable {s}

theorem hostEnded_side (h : s.gate.bar.stuck = false) : (hostEnded s).gate.bar.st = .down ∧ (hostEnded s).gate.bar.stuck = false := by
  unfold hostEnded hostDown
  split
  · dsimp only
    rw [gateEvt_bar]
    exact ⟨rfl, by rw [h]; rfl⟩
  · exact ⟨rfl, h⟩

theorem hostEnded_slice (i : Nat) : (hostEnded s).slice i = s.slice i := by
  unfold hostEnded hostDown
  split
  · exact gateEvt_slice ..
  · rfl

theorem hostEnded_core : (hostEnded s).gate.tags = s.gate.tags ∧ (hostEnded s).gate.held = s.gate.held ∧ (hostEnded s).gate.gen = s.gate.gen := by
  unfold hostEnded
  split
  · obtain ⟨v, hv⟩ : ∃ v, ({ s with gate := { s.gate with
      bar := { s.gate.bar with st := .down, stuck := s.gate.bar.stuck || false, urgent := [], ctl := [] }
      writtenTags := []
      discTags := []
      restop := true
      slew := 0 } } : State) = v := ⟨_, rfl⟩
    have hd : hostDown false s = gateEvt Reg.GATE_EVT_BAR v := hv ▸ rfl
    have hc := gateCore_gateEvt Reg.GATE_EVT_BAR v
    rw [hd]
    exact ⟨(congrArg GateS.tags hc :).trans (hv ▸ rfl), (congrArg GateS.held hc :).trans (hv ▸ rfl),
      (congrArg GateS.gen hc :).trans (hv ▸ rfl)⟩
  · exact ⟨rfl, rfl, rfl⟩

theorem hostEnded_rd {f : Fld} (hf : f.key ≠ Reg.GATE_EVT_BAR.key) : (hostEnded s).rd f = s.rd f := by
  unfold hostEnded hostDown
  split
  · exact gateEvt_rd_ne _ _ hf
  · rfl

/-- A side of the host gate in DOWN may enter HELLO, which changes nothing else. -/
theorem tryHello_host (h : s.gate.bar.st = .down) :
    ∃ b : BarS, tryHello .host s = setBar .host b s ∧ b.st ≠ .up ∧ b.stuck = s.gate.bar.stuck := by
  unfold tryHello
  dsimp only
  split_ifs
  · exact ⟨_, rfl, nofun, rfl⟩
  · exact ⟨s.gate.bar, rfl, by rw [h]; decide, rfl⟩

/-- What a soft reset of the host gate leaves. -/
theorem hostSoft_frees (s : State) : (hostSoft s).rd Reg.GATE_CTRL_RUN = 0 ∧
    (∀ i, ((hostSoft s).slice i).st = .free ∧ ((hostSoft s).slice i).q = []) ∧ (hostSoft s).gate.tags = [] ∧ (hostSoft s).gate.held = [] ∧
    (hostSoft s).gate.gen = nextGen s.gate.gen ∧ (hostSoft s).gate.bar.st ≠ .up ∧ (hostSoft s).gate.bar.stuck = false := by
  have hempty := hostRst_held s
  have hnext := hostRst_gen s
  have hrun := hostRst_run s
  have hfreed := hostRst_slice s
  rw [hostSoft_eq]
  obtain ⟨u, hu⟩ : ∃ u, hostRst s = u := ⟨_, rfl⟩
  rw [hu] at hempty hnext hrun hfreed ⊢
  obtain ⟨w, hw⟩ : ∃ w, hostRenewed u = w := ⟨_, rfl⟩
  have hheld : w.gate.held = [] := hw ▸ hempty
  have hgen : w.gate.gen = nextGen s.gate.gen := by
    rw [← hw, ← hnext]
    rfl
  have htags : w.gate.tags = [] := hw ▸ rfl
  have hslice (i : Nat) : w.slice i = u.slice i := hw ▸ rfl
  have hrd (f : Fld) : w.rd f = u.rd f := hw ▸ rfl
  obtain ⟨hdown, hfree⟩ := hostEnded_side (s := w) (hw ▸ rfl)
  obtain ⟨etags, eheld, egen⟩ := hostEnded_core (s := w)
  obtain ⟨b, hb, hup, hstuck⟩ := tryHello_host hdown
  rw [hw, hb]
  refine ⟨?_, fun i => ?_, etags.trans htags, eheld.trans hheld, egen.trans hgen, hup, hstuck.trans hfree⟩
  · exact (hostEnded_rd (by decide)).trans ((hrd _).trans hrun)
  · have hi : (setBar .host b (hostEnded w)).slice i = u.slice i := (hostEnded_slice i).trans (hslice i)
    rw [hi]
    exact hfreed i

/-- The place of H_RST_REQ. -/
abbrev spotHostReset : Spot := ⟨row_H_RST_REQ, 0, 0, 0x10F590, .active⟩

theorem hostGateSoftReset_does {a : Access} (ha : a.via = .bar0) (h : lands s a 0xF590) :
    ∃ t, exec (.hostGateSoftReset a) s = .next t ∧ t.rd Reg.GATE_CTRL_RUN = 0 ∧ (∀ i, (t.slice i).st = .free ∧ (t.slice i).q = []) ∧
      t.gate.tags = [] ∧ t.gate.held = [] ∧ t.gate.gen = nextGen s.gate.gen ∧ t.gate.bar.st ≠ .up ∧ t.gate.bar.stuck = false ∧
      Keeps [.out, .regs, .arb, .bar, .gate] s t := by
  obtain ⟨u, hu⟩ : ∃ u,
    (((putFields spotHostReset (4 + 2 ^ 31) s.bare).wr Reg.H_RST_STAT_KIND 4).wr Reg.H_RST_STAT_INDEX 0).inc Reg.H_RST_STAT_COUNT = u := ⟨_, rfl⟩
  have hk : Keeps [.regs] s.bare u := by
    rw [← hu]
    unfold State.inc
    exact Keeps.step (State.wr_keeps ..) (by decide) (Keeps.step (State.wr_keeps ..) (by decide) (Keeps.step (State.wr_keeps ..) (by decide)
      (putFields_keeps ..)))
  obtain ⟨v, hv⟩ : ∃ v, u.wr Reg.H_SU_STAT_START 4 = v := ⟨_, rfl⟩
  have hkv : Keeps [.regs] s.bare v := hv ▸ Keeps.step (State.wr_keeps ..) (by decide) hk
  have hrun : exec (.hostGateSoftReset a) s = .next { respond a true 0 none (hostSoft v) with pending := s.pending } := by
    refine runWf_eq (beq_iff_eq.2 ha) (writeReg_active (p := spotHostReset) (bare_lands h)
      (by rw [ha]; exact locate_host (by decide) at_H_RST_REQ) rfl (by decide) rfl (by decide) (by decide) (by decide) (by decide) ?_)
    rw [← hv, ← hu]
    rfl
  obtain ⟨hrd, hslices, htags, hheld, hgen, hup, hstuck⟩ := hostSoft_frees v
  have hg : ({ respond a true 0 none (hostSoft v) with pending := s.pending } : State).gate = (hostSoft v).gate := answered_gate
  refine ⟨_, hrun, (answered_rd a _).trans hrd, fun i => ?_, ?_, ?_, ?_, ?_, ?_, answered a ((hkv.mono (by decide)).trans (hostSoft_keeps v))⟩
  · rw [answered_slice]
    exact hslices i
  · rw [hg, htags]
  · rw [hg, hheld]
  · rw [hg, hgen, hkv.same .gate (by decide)]
    rfl
  · rw [hg]
    exact hup
  · rw [hg]
    exact hstuck

end

-- BAR_THAW (R199, R207)

/-- A staged field becomes the active one. -/
def commitField (off : Nat) (f : FldSpec) (s : State) : State :=
  match tget none s.staged (f.at off).key with
  | some v => s.wr (f.at off) v
  | none => s

theorem commitField_staged (off : Nat) (f : FldSpec) (s : State) : (commitField off f s).staged = s.staged := by
  unfold commitField
  split <;> rfl

theorem commitFields_staged (off : Nat) (l : List FldSpec) (s : State) : (s.each l (commitField off)).staged = s.staged :=
  State.each_inv State.staged _ (commitField_staged off) s

/-- A field without a staged value keeps its value. -/
theorem commitFields_stays {off : Nat} {g : Fld} {l : List FldSpec} {s : State}
    (h : ∀ f ∈ l, g.key ≠ (f.at off).key ∨ tget none s.staged g.key = none) :
    (s.each l (commitField off)).rd g = s.rd g := by
  unfold State.each
  induction l generalizing s with
  | nil => rfl
  | cons f l ih =>
    have hf : (commitField off f s).rd g = s.rd g := by
      unfold commitField
      split
      · next v hv =>
        rcases h f List.mem_cons_self with hne | hnone
        · exact State.rd_wr_ne _ _ hne
        · refine State.rd_wr_ne _ _ fun he => ?_
          rw [← he, hnone] at hv
          cases hv
      · rfl
    refine (ih fun f' hf' => ?_).trans hf
    rw [commitField_staged]
    exact h f' (List.mem_cons_of_mem _ hf')

theorem commitFields_takes {off v : Nat} {f : FldSpec} {l : List FldSpec} {s : State} (hl : l.Pairwise (fun f g => f.lo ≠ g.lo)) (hf : f ∈ l)
    (hs : tget none s.staged (f.at off).key = some v) (hv : v < 2 ^ f.w) : (s.each l (commitField off)).rd (f.at off) = v := by
  have hstay (g : FldSpec) (l : List FldSpec) (u : State) (hne : ∀ x ∈ l, g.lo ≠ x.lo) :
      (u.each l (commitField off)).rd (g.at off) = u.rd (g.at off) :=
    commitFields_stays fun x hx => .inl fun he => hne x hx (by unfold Fld.key FldSpec.at at he; dsimp only at he; omega)
  induction l generalizing s with
  | nil => exact absurd hf List.not_mem_nil
  | cons x l ih =>
    obtain ⟨hx, hl⟩ := List.pairwise_cons.1 hl
    rcases List.mem_cons.1 hf with rfl | hf
    · refine (hstay f l (commitField off f s) hx).trans ?_
      unfold commitField
      rw [hs]
      exact (State.rd_wr_same ..).trans (Nat.mod_eq_of_lt hv)
    · refine ih (s := commitField off x s) hl hf ?_
      rw [commitField_staged]
      exact hs

/-- The staged value of a field is dropped. -/
def unstageField (off : Nat) (f : FldSpec) (s : State) : State := { s with staged := tset none s.staged (f.at off).key none }

/-- A staged value that is dropped leaves the others. -/
theorem unstageFields_staged (off K : Nat) (l : List FldSpec) (s : State) :
    (tget none (s.each l (unstageField off)).staged K = none ∨
      tget none (s.each l (unstageField off)).staged K = tget none s.staged K) ∧
    ((∀ f ∈ l, K ≠ (f.at off).key) →
      tget none (s.each l (unstageField off)).staged K = tget none s.staged K) ∧
    ((∃ f ∈ l, K = (f.at off).key) → tget none (s.each l (unstageField off)).staged K = none) := by
  unfold State.each
  induction l generalizing s with
  | nil => exact ⟨.inr rfl, fun _ => rfl, fun ⟨f, hf, _⟩ => absurd hf List.not_mem_nil⟩
  | cons x l ih =>
    obtain ⟨i1, i2, i3⟩ := ih (unstageField off x s)
    by_cases hx : K = (x.at off).key
    · have hnone : tget none (tset none s.staged (x.at off).key none) K = (none : Option Nat) := by rw [hx, tget_tset_same]
      have hall := i1.elim id fun h => h.trans hnone
      exact ⟨.inl hall, fun h => absurd hx (h x List.mem_cons_self), fun _ => hall⟩
    · have hsame : tget none (tset none s.staged (x.at off).key none) K = tget none s.staged K := tget_tset_ne _ _ _ _ hx
      refine ⟨i1.imp id fun h => h.trans hsame, fun h => (i2 fun f hf => h f (List.mem_cons_of_mem _ hf)).trans hsame, fun ⟨f, hf, he⟩ => ?_⟩
      rcases List.mem_cons.1 hf with rfl | hf
      · exact absurd he hx
      · exact i3 ⟨f, hf, he⟩

section
variable {o off : Nat} {q : RegRow × Nat × Nat} {f : FldSpec} {s : State}

theorem commitWord_eq (h : findReg off = some q) : ∃ r : RimeS, commitWord off s =
    { unstageWord off (s.each (q.1.flds.filter (·.acc == .ws)) (commitField off)) with rime := r } := by
  unfold commitWord
  rw [h]
  exact ⟨_, rfl⟩

theorem unstageWord_eq (h : findReg off = some q) (s : State) : unstageWord off s = s.each (q.1.flds.filter (·.acc == .ws)) (unstageField off) := by
  unfold unstageWord
  rw [h]
  rfl

theorem unstageWord_rd (off : Nat) (s : State) (g : Fld) : (unstageWord off s).rd g = s.rd g :=
  (unstageWord_keeps off s).rd_eq g

/-- What a commit of a word makes of a field of it that has a staged value. -/
theorem commitWord_takes {v : Nat} (h : findReg off = some q) (hf : f ∈ q.1.flds) (ha : f.acc = .ws)
    (hs : tget none s.staged (f.at off).key = some v) (hv : v < 2 ^ f.w) :
    (commitWord off s).rd (f.at off) = v ∧ tget none (commitWord off s).staged (f.at off).key = none := by
  have hmem : f ∈ q.1.flds.filter (·.acc == .ws) := List.mem_filter.2 ⟨hf, by rw [ha]; rfl⟩
  obtain ⟨r, hr⟩ := commitWord_eq (s := s) h
  rw [hr]
  refine ⟨?_, ?_⟩
  · refine (unstageWord_rd ..).trans (commitFields_takes ?_ hmem hs hv)
    exact (rows_lo _ (findReg_mem (r := q.1) (i := q.2.1) (j := q.2.2) h)).filter _
  · show tget none (unstageWord off _).staged _ = none
    rw [unstageWord_eq h]
    exact (unstageFields_staged ..).2.2 ⟨f, hmem, rfl⟩

/-- A commit of another word leaves the fields of this one. -/
theorem commitWord_other (hf : f.lo < 32) (hne : o ≠ off) (s : State) : (commitWord o s).rd (f.at off) = s.rd (f.at off) ∧
    tget none (commitWord o s).staged (f.at off).key = tget none s.staged (f.at off).key := by
  cases h : findReg o with
  | none =>
    unfold commitWord
    rw [h]
    exact ⟨rfl, rfl⟩
  | some q =>
    obtain ⟨r, hr⟩ := commitWord_eq (s := s) h
    have hkey : ∀ x ∈ q.1.flds.filter (·.acc == .ws), (f.at off).key ≠ (x.at o).key := fun x hx => by
      have := rows_low (findReg_mem (r := q.1) (i := q.2.1) (j := q.2.2) h) x (List.mem_filter.1 hx).1
      unfold Fld.key FldSpec.at
      dsimp only
      omega
    rw [hr]
    refine ⟨(unstageWord_rd ..).trans (commitFields_stays fun x hx => .inl (hkey x hx)), ?_⟩
    show tget none (unstageWord o _).staged _ = _
    rw [unstageWord_eq h, (unstageFields_staged ..).2.1 hkey, commitFields_staged]

/-- A field without a staged value is left as it is. -/
theorem commitWord_idle {g : Fld} (hg : tget none s.staged g.key = none) : (commitWord o s).rd g = s.rd g ∧
    tget none (commitWord o s).staged g.key = none := by
  cases h : findReg o with
  | none =>
    unfold commitWord
    rw [h]
    exact ⟨rfl, hg⟩
  | some q =>
    obtain ⟨r, hr⟩ := commitWord_eq (s := s) h
    rw [hr]
    refine ⟨(unstageWord_rd ..).trans (commitFields_stays fun x _ => .inr hg), ?_⟩
    show tget none (unstageWord o _).staged _ = none
    rw [unstageWord_eq h]
    refine (unstageFields_staged ..).1.elim id fun he => ?_
    rw [he, commitFields_staged, hg]

/-- A staged field of a word among those that are committed becomes active. -/
theorem commits_field {v : Nat} {l : List Nat} (h : findReg off = some q) (hf : f ∈ q.1.flds) (ha : f.acc = .ws) (hv : v < 2 ^ f.w)
    (hl : off ∈ l) (hs : tget none s.staged (f.at off).key = some v) :
    (s.each l commitWord).rd (f.at off) = v ∧ tget none (s.each l commitWord).staged (f.at off).key = none := by
  have hlow := rows_low (findReg_mem (r := q.1) (i := q.2.1) (j := q.2.2) h) f hf
  induction l generalizing s with
  | nil => exact absurd hl List.not_mem_nil
  | cons o l ih =>
    by_cases ho : o = off
    · subst ho
      refine State.each_invariant (P := fun t => t.rd (f.at o) = v ∧ tget none t.staged (f.at o).key = none) (fun a u hu => ?_) l (commitWord o s)
        (commitWord_takes h hf ha hs hv)
      obtain ⟨hr, hk⟩ := commitWord_idle (o := a) hu.2
      exact ⟨hr.trans hu.1, hk⟩
    · refine ih (s := commitWord o s) ((List.mem_cons.1 hl).resolve_left fun he => ho he.symm) ?_
      rw [(commitWord_other hlow ho s).2]
      exact hs

theorem stagedWords_mem {v : Nat} (hf : f.lo < 32) (hs : tget none s.staged (f.at off).key = some v) : off ∈ stagedWords s := by
  have hin : (f.at off).key ∈ s.staged.map (·.1) := by
    by_contra hno
    rw [tget_out none s.staged _ hno] at hs
    cases hs
  obtain ⟨e, he, hk⟩ := List.mem_map.1 hin
  refine List.mem_dedup.2 (List.mem_map.2 ⟨e, he, ?_⟩)
  rw [hk]
  unfold Fld.key FldSpec.at
  dsimp only
  omega

end

/-- The words of the host gate that BAR_THAW commits. -/
def hostStaged (s : State) : List Nat := (stagedWords s).filter fun o => decide (0x100000 ≤ o) && !holds .host s 0 ((o - 0x100000) / 4)

theorem barThaw_runs {p : BitVec 128} {s : State} (h : barReady .host s) (hl : s.img.hload.st ≠ .ready) (hb : busySlices s = []) :
    exec (.barThaw p) s = .next { emptied .host ((hearing .host 0x0D s).each (hostStaged s) commitWord) with pending := s.pending } := by
  obtain ⟨u, hu⟩ : ∃ u, (hearing .host 0x0D s).each (hostStaged s) commitWord = u := ⟨_, rfl⟩
  have hk : Keeps [.regs, .staged, .rime] (hearing .host 0x0D s) u := hu ▸ Keeps.each commitWord_keeps .refl
  have hbusy : busySlices u = [] := by
    unfold busySlices
    rw [hk.same .gate (by decide)]
    exact hb
  have hheld : u.gate.held = s.gate.held := by
    rw [hk.same .gate (by decide)]
    rfl
  rw [hu]
  refine gateFrame_runs h ?_ hheld
  have hst : ((hearing .host 0x0D s).img.hload.st == .ready) = false := beq_eq_false_iff_ne.2 hl
  have hoffs : (hearing .host 0x0D s).each ((stagedWords (hearing .host 0x0D s)).filter fun o =>
    decide (0x100000 ≤ o) && !holds .host (hearing .host 0x0D s) 0 ((o - 0x100000) / 4)) commitWord = u := hu
  dsimp only
  rw [hoffs, hst, if_neg Bool.false_ne_true, hbusy]
  unfold grantCredit
  split_ifs <;> rfl

/-- Settles O59: the writes that command the barrier and the host gate as a whole, and BAR_THAW. -/
theorem barrierWrites : Obligations.BarrierWrites := by
  refine ⟨fun a s ha h => ⟨barEnable_does ha h, barDisable_does ha h⟩, fun a s ha h => hostGateSoftReset_does ha h, fun p s hr => ?_⟩
  obtain ⟨t, hrun⟩ : ∃ t, exec (.barThaw p) s = .next t := ⟨_, rfl⟩
  refine ⟨t, hrun, (execBarThaw_keeps p s).next _ hrun, fun hl hb => ?_⟩
  obtain ⟨u, hu⟩ : ∃ u, (hearing .host 0x0D s).each (hostStaged s) commitWord = u := ⟨_, rfl⟩
  have hk : Keeps [.regs, .staged, .rime] (hearing .host 0x0D s) u := hu ▸ Keeps.each commitWord_keeps .refl
  rw [barThaw_runs hr hl hb, hu] at hrun
  cases hrun
  refine ⟨?_, hk.same .img (by decide), fun off q f v hoff hheld hq hf ha hs hv => ?_⟩
  · show { u.gate with bar := { u.gate.bar with freed := u.gate.bar.freed + u.gate.bar.rxUsed, rxUsed := 0 } } = _
    rw [hk.same .gate (by decide)]
    rfl
  · have hlow := rows_low (findReg_mem (r := q.1) (i := q.2.1) (j := q.2.2) hq) f hf
    have hmem : off ∈ hostStaged s := List.mem_filter.2 ⟨stagedWords_mem hlow hs, by rw [decide_eq_true hoff, hheld]; rfl⟩
    have hs' : tget none (hearing .host 0x0D s).staged (f.at off).key = some v := hs
    exact hu ▸ commits_field (s := hearing .host 0x0D s) hq hf ha hv hmem hs'

end Sys2Proof.Machine

namespace Sys2Proof.Machine

set_option Elab.async false

-- writes of field-die words that are stored and then have an effect

/-- A word of plain RW fields, stored as it is written. -/
def storedRow (r : RegRow) : Bool :=
  !sealedWord r.id && !r.has .ws && !r.has .w1 && !ownWords.contains r.id && r.id != .THAW0_LO && r.id != .THAW0_HI

theorem storedRow_iff {r : RegRow} (h : storedRow r = true) : sealedWord r.id = false ∧ r.id ≠ .LOAD_DATA ∧ r.id ≠ .H_LOAD_DATA ∧
    r.has .ws = false ∧ r.has .w1 = false ∧ ownWords.contains r.id = false ∧ r.id ≠ .THAW0_LO ∧ r.id ≠ .THAW0_HI := by
  unfold storedRow at h
  simp only [Bool.and_eq_true, Bool.not_eq_true', bne_iff_ne] at h
  obtain ⟨⟨⟨⟨⟨hs, hw⟩, h1⟩, ho⟩, h2⟩, h3⟩ := h
  have hne (id : RegId) (hi : ownWords.contains id = true) : r.id ≠ id := fun he => by
    rw [he, hi] at ho
    cases ho
  exact ⟨hs, hne _ (by decide), hne _ (by decide), hw, h1, ho, h2, h3⟩

section
variable {ok : Bool} {a : Access} {addr w i j : Nat} {r : RegRow} {s : State}

theorem stored_write (f : State → State) (ho : ok = true) (hp0 : a.via ≠ .bar0) (hp2 : a.via ≠ .bar2) (h : lands s a addr) (hl : addr < 0x30000)
    (hb : addr / 0x20 ≠ 0x7B0) (hf : findReg addr = some (r, i, j)) (hw : w < 2 ^ 32) (hr : storedRow r = true)
    (he : ∀ u, (effect1 a ⟨r, i, j, addr, .active⟩ w s.bare u).bind (effect2 ⟨r, i, j, addr, .active⟩ w s.bare) = some (f u)) :
    ∃ u, Keeps [.regs] s.bare u ∧
      (∀ g ∈ r.flds, g.acc = .rw → commandBits.contains (r.id, g.lo) = false → u.rd (g.at addr) = bits w g.lo g.w) ∧
      (∀ g : Fld, (∀ x ∈ r.flds, g.key ≠ (x.at addr).key) → u.rd g = s.rd g) ∧
      doWrite ok a addr w s = .next { respond a true 0 none (f u) with pending := s.pending } := by
  obtain ⟨hs, hld, hhld, hws, hw1, hown, ht0, ht1⟩ := storedRow_iff hr
  obtain ⟨hk, hset, hother⟩ := putFields_does (p := ⟨r, i, j, addr, .active⟩) (findReg_mem hf) hown ht0 ht1 w s.bare
  exact ⟨_, hk, hset, fun g hg => hother g fun x hx _ _ => hg x hx,
    plain_write ho hp0 hp2 h hl hb hf hw hs hld hhld hws hw1 (he _)⟩

end

section
variable {a : Access} {n : Fin 64} {i : Fin 2} {w : Word} {s u : State}

/-- The access of a core is answered at its port. -/
theorem core_out (ha : a.atCore n = true) (ho : u.out = []) :
    ({ respond a true 0 none u with pending := s.pending } : State).out = [.reg a.via 0 none] := by
  obtain ⟨-, -, hh⟩ := core_of ha
  rw [answered_out a ho, hh]
  rfl

theorem flag_iff (s : State) (f : Fld) : s.flag f = true ↔ s.rd f ≠ 0 := bne_iff_ne

theorem bits_one_ne {w k : Nat} : bits w k 1 ≠ 0 ↔ bits w k 1 = 1 := by
  have h : bits w k 1 < 2 := Nat.mod_lt _ (by decide)
  omega

/-- A field of another word than the one written. -/
theorem key_elsewhere {addr : Nat} {r : RegRow} {g : Fld} (hr : r ∈ regRows) (hg : g.off ≠ addr) (hlo : g.lo < 32) :
    ∀ x ∈ r.flds, g.key ≠ (x.at addr).key := fun x hx => by
  have := rows_low hr x hx
  unfold Fld.key FldSpec.at
  dsimp only
  omega

-- THRESH (R167)

theorem threshWrite_does (ha : a.atCore n = true) (h : lands s a (coreBlock n + 8)) : ∃ t, exec (.threshWrite a n w) s = .next t ∧
    t.out = [.reg a.via 0 none] ∧ t.rd (Reg.THRESH_LEVEL n) = bits w.toNat 0 6 ∧ Keeps [.out, .regs, .clus] s t ∧
    (∀ g : Fld, g.key ≠ (Reg.THRESH_LEVEL n).key → t.rd g = s.rd g) := by
  have hn := n.isLt
  obtain ⟨hp0, hp2, -⟩ := core_of ha
  have e : coreBlock n + 8 = 0x3008 + 0x40 * n.val := by unfold coreBlock; omega
  obtain ⟨u, hk, hset, hother, hrun⟩ := stored_write (askFills (n / 4)) ha hp0 hp2 (e ▸ h) (by omega) (by omega) (at_THRESH _ hn) w.isLt
    (by decide) fun _ => rfl
  have hf := askFills_keeps (n / 4) u
  have hall : Keeps [.regs, .clus] s.bare (askFills (n / 4) u) := (hk.mono (by decide)).trans (hf.mono (by decide))
  refine ⟨_, (congrArg (fun x => doWrite _ a x w.toNat s) e).trans hrun, core_out ha (hall.same .out (by decide)), ?_, answered a hall,
    fun g hg => ?_⟩
  · rw [answered_rd, hf.rd_eq]
    exact hset ⟨0, 6, .rw, 0⟩ List.mem_cons_self rfl (by decide)
  · rw [answered_rd, hf.rd_eq]
    refine hother g fun f hf => ?_
    rw [List.mem_singleton.1 hf]
    exact hg

-- the predictors (R160, R161)

theorem prewarmWrite_does (ha : a.atCore n = true) (h : lands s a (coreBlock n + 0x20)) : ∃ t, exec (.predictorReset a n i .prewarm w) s = .next t ∧
    t.out = [.reg a.via 0 none] ∧ t.rd (Reg.PREWARM_LEAD n) = bits w.toNat 0 13 ∧ t.rd (Reg.PREWARM_TOL n) = bits w.toNat 13 8 ∧
    t.rd (Reg.PREWARM_EN n) = bits w.toNat 21 1 ∧ t.rd (Reg.PREWARM_WAKE n) = bits w.toNat 22 1 ∧ Keeps [.out, .regs, .pred, .clus] s t := by
  have hn := n.isLt
  obtain ⟨hp0, hp2, -⟩ := core_of ha
  have e : coreBlock n + 0x20 = 0x3020 + 0x40 * n.val := by unfold coreBlock; omega
  obtain ⟨u, hk, hset, -, hrun⟩ := stored_write (fun s' => s'.each [0, 1] fun k v => predWritten n k (predEnabled s.bare n k) false v)
    ha hp0 hp2 (e ▸ h) (by omega) (by omega) (at_PREWARM _ hn) w.isLt (by decide) fun _ => rfl
  have hf : Keeps [.pred, .clus] u (u.each [0, 1] fun k v => predWritten n k (predEnabled s.bare n k) false v) :=
    Keeps.each (fun k v => predWritten_keeps ..) .refl
  have hall := (hk.mono (w' := [.regs, .pred, .clus]) (by decide)).trans (hf.mono (by decide))
  have hfield {g : FldSpec} (hg : g ∈ row_PREWARM.flds) (ha : g.acc = .rw) (hc : commandBits.contains (row_PREWARM.id, g.lo) = false) :=
    (answered_rd (s := s) a (g.at (0x3020 + 0x40 * n.val))).trans ((hf.rd_eq _).trans (hset g hg ha hc))
  exact ⟨_, (congrArg (fun x => doWrite _ a x w.toNat s) e).trans hrun, core_out ha (hall.same .out (by decide)),
    hfield (g := ⟨0, 13, .rw, 0x190⟩) (by simp) rfl (by decide), hfield (g := ⟨13, 8, .rw, 8⟩) (by simp) rfl (by decide),
    hfield (g := ⟨21, 1, .rw, 0⟩) (by simp) rfl (by decide), hfield (g := ⟨22, 1, .rw, 1⟩) (by simp) rfl (by decide), answered a hall⟩

/-- A predictor that is newly enabled, or whose period is written, begins anew. -/
theorem predWritten_resets {n i : Nat} {wasOn perWritten : Bool} {u : State} (hon : predEnabled u n i = true)
    (h : wasOn = false ∨ perWritten = true) :
    predWritten n i wasOn perWritten u = predReset n i u := by
  unfold predWritten
  rw [hon]
  refine (if_neg (by decide)).trans (if_pos ?_)
  rcases h with h | h <;> rw [h]
  · rfl
  · exact Bool.or_true _

theorem predReset_begins {n i : Nat} {u : State} {P : Prop} [Decidable P] {p : Pred} (hp : u.predOf n i = p)
    (hP : (u.rd (Reg.PW_SRC_TOLD n i) ≠ 0 ∧ u.rd (Reg.PW_PER_PER n i) ≠ 0) ↔ P) : (predReset n i u).predOf n i = { p with
      havePrev := false, conf := 0, misses := 0, nextValid := false, warm := false
      st := if P then .locked else .learning } := by
  rw [predReset_pred, hp]
  have hiff : (u.flag (Reg.PW_SRC_TOLD n i) && u.rd (Reg.PW_PER_PER n i) != 0) = true ↔ P := by
    rw [Bool.and_eq_true, flag_iff, bne_iff_ne]
    exact hP
  exact congrArg (fun st : PredState => ({ p with havePrev := false, conf := 0, misses := 0, nextValid := false, warm := false, st := st } : Pred))
    (if_congr hiff rfl rfl)

theorem pwSrcWrite_does (ha : a.atCore n = true) (h : lands s a (coreBlock n + (0x24 + 12 * i))) :
    ∃ t, exec (.predictorReset a n i .pwSrc w) s = .next t ∧ t.out = [.reg a.via 0 none] ∧
    t.rd (Reg.PW_SRC_SOURCE n i) = bits w.toNat 0 13 ∧ t.rd (Reg.PW_SRC_ORIGIN n i) = bits w.toNat 13 5 ∧
    t.rd (Reg.PW_SRC_EN n i) = bits w.toNat 18 1 ∧ t.rd (Reg.PW_SRC_TOLD n i) = bits w.toNat 19 1 ∧ t.rd (Reg.PW_SRC_PIN n i) = bits w.toNat 20 1 ∧
    Keeps [.out, .regs, .pred, .clus] s t ∧
    (predEnabled s n i = false → s.flag (Reg.PREWARM_EN n) = true → bits w.toNat 18 1 = 1 → t.predOf n i = { s.predOf n i with
      havePrev := false, conf := 0, misses := 0, nextValid := false, warm := false
      st := if bits w.toNat 19 1 = 1 ∧ s.rd (Reg.PW_PER_PER n i) ≠ 0 then .locked else .learning }) := by
  have hn := n.isLt
  have hi := i.isLt
  obtain ⟨hp0, hp2, -⟩ := core_of ha
  have e : coreBlock n + (0x24 + 12 * i.val) = 0x3024 + 0x40 * n.val + 0xC * i.val := by unfold coreBlock; omega
  have hat := at_PW_SRC n.val hn i.val hi
  obtain ⟨u, hk, hset, hother, hrun⟩ := stored_write (predWritten n i (predEnabled s.bare n i) false) ha hp0 hp2
    (e ▸ h) (by omega) (by omega) hat w.isLt (by decide) fun _ => rfl
  have hf := predWritten_keeps n i (predEnabled s.bare n i) false u
  have hall := (hk.mono (w' := [.regs, .pred, .clus]) (by decide)).trans (hf.mono (by decide))
  have hfield {g : FldSpec} (hg : g ∈ row_PW_SRC.flds) (ha : g.acc = .rw) (hc : commandBits.contains (row_PW_SRC.id, g.lo) = false) :=
    (answered_rd (s := s) a (g.at (0x3024 + 0x40 * n.val + 0xC * i.val))).trans ((hf.rd_eq _).trans (hset g hg ha hc))
  refine ⟨_, (congrArg (fun x => doWrite _ a x w.toNat s) e).trans hrun, core_out ha (hall.same .out (by decide)),
    hfield (g := ⟨0, 13, .rw, 0⟩) (by simp) rfl (by decide), hfield (g := ⟨13, 5, .rw, 0⟩) (by simp) rfl (by decide),
    hfield (g := ⟨18, 1, .rw, 0⟩) (by simp) rfl (by decide), hfield (g := ⟨19, 1, .rw, 0⟩) (by simp) rfl (by decide),
    hfield (g := ⟨20, 1, .rw, 0⟩) (by simp) rfl (by decide), answered a hall, fun hoff hen hon => ?_⟩
  have hEN : u.rd (Reg.PW_SRC_EN n i) = bits w.toNat 18 1 := hset ⟨18, 1, .rw, 0⟩ (by simp) rfl (by decide)
  have hTOLD : u.rd (Reg.PW_SRC_TOLD n i) = bits w.toNat 19 1 := hset ⟨19, 1, .rw, 0⟩ (by simp) rfl (by decide)
  have hPRE : u.rd (Reg.PREWARM_EN n) = s.rd (Reg.PREWARM_EN n) :=
    hother _ (key_elsewhere (findReg_mem hat) (by unfold Reg.PREWARM_EN; dsimp only; omega) (by exact (by decide : 21 < 32)))
  have hPER : u.rd (Reg.PW_PER_PER n i) = s.rd (Reg.PW_PER_PER n i) :=
    hother _ (key_elsewhere (findReg_mem hat) (by unfold Reg.PW_PER_PER; dsimp only; omega) (by exact (by decide : 0 < 32)))
  have hnow : predEnabled u n i = true := by
    unfold predEnabled
    rw [Bool.and_eq_true, flag_iff, flag_iff, hPRE, hEN, hon]
    exact ⟨(flag_iff ..).1 hen, by decide⟩
  have hpred : ({ respond a true 0 none (predWritten n i (predEnabled s.bare n i) false u) with pending := s.pending } : State).pred =
      (predWritten n i (predEnabled s.bare n i) false u).pred := answered_same (s := s) a .pred (by decide) (by decide)
  unfold State.predOf
  rw [hpred, predWritten_resets (wasOn := predEnabled s.bare n i) hnow (.inl hoff)]
  exact predReset_begins (hk.predOf_eq n i) (by rw [hTOLD, hPER, bits_one_ne])

theorem pwPerWrite_does (ha : a.atCore n = true) (h : lands s a (coreBlock n + (0x28 + 12 * i))) :
    ∃ t, exec (.predictorReset a n i .pwPer w) s = .next t ∧ t.out = [.reg a.via 0 none] ∧
    t.rd (Reg.PW_PER_PER n i) = bits w.toNat 0 24 ∧ Keeps [.out, .regs, .pred, .clus] s t ∧
    (predEnabled s n i = true → t.predOf n i = { s.predOf n i with
      havePrev := false, conf := 0, misses := 0, nextValid := false, warm := false
      st := if s.flag (Reg.PW_SRC_TOLD n i) = true ∧ bits w.toNat 0 24 ≠ 0 then .locked else .learning }) := by
  have hn := n.isLt
  have hi := i.isLt
  obtain ⟨hp0, hp2, -⟩ := core_of ha
  have e : coreBlock n + (0x28 + 12 * i.val) = 0x3028 + 0x40 * n.val + 0xC * i.val := by unfold coreBlock; omega
  have hat := at_PW_PER n.val hn i.val hi
  obtain ⟨u, hk, hset, hother, hrun⟩ := stored_write (predWritten n i (predEnabled s.bare n i) true) ha hp0 hp2
    (e ▸ h) (by omega) (by omega) hat w.isLt (by decide) fun _ => rfl
  have hf := predWritten_keeps n i (predEnabled s.bare n i) true u
  have hall := (hk.mono (w' := [.regs, .pred, .clus]) (by decide)).trans (hf.mono (by decide))
  have hPER : u.rd (Reg.PW_PER_PER n i) = bits w.toNat 0 24 := hset ⟨0, 24, .rw, 0⟩ (by simp) rfl (by decide)
  refine ⟨_, (congrArg (fun x => doWrite _ a x w.toNat s) e).trans hrun, core_out ha (hall.same .out (by decide)),
    (answered_rd a _).trans ((hf.rd_eq _).trans hPER), answered a hall, fun hon => ?_⟩
  have hsrc (g : Fld) (ho : g.off = 0x3024 + 0x40 * n.val + 0xC * i.val) (hl : g.lo < 32) : u.rd g = s.rd g :=
    hother _ (key_elsewhere (findReg_mem hat) (by omega) hl)
  have hPRE : u.rd (Reg.PREWARM_EN n) = s.rd (Reg.PREWARM_EN n) :=
    hother _ (key_elsewhere (findReg_mem hat) (by unfold Reg.PREWARM_EN; dsimp only; omega) (by exact (by decide : 21 < 32)))
  have hnow : predEnabled u n i = true := by
    unfold predEnabled State.flag at hon ⊢
    rw [hPRE, hsrc (Reg.PW_SRC_EN n i) rfl (by exact (by decide : 18 < 32))]
    exact hon
  have hTOLD := hsrc (Reg.PW_SRC_TOLD n i) rfl (by exact (by decide : 19 < 32))
  have hpred : ({ respond a true 0 none (predWritten n i (predEnabled s.bare n i) true u) with pending := s.pending } : State).pred =
      (predWritten n i (predEnabled s.bare n i) true u).pred := answered_same (s := s) a .pred (by decide) (by decide)
  unfold State.predOf
  rw [hpred, predWritten_resets hnow (.inr rfl)]
  exact predReset_begins (hk.predOf_eq n i) (by rw [hTOLD, hPER, flag_iff])

/-- A warm that may start leaves a prediction that is valid. -/
theorem warmTry_valid {n i : Nat} {u : State} (h : (u.predOf n i).nextValid = true) : ((warmTry n i u).predOf n i).nextValid = true := by
  unfold warmTry
  dsimp only
  split
  · rw [(askFills_keeps ..).predOf_eq]
    split
    · rw [(wake_keeps ..).predOf_eq, State.predOf_setPred']
      exact h
    · rw [State.predOf_setPred']
      exact h
  · exact h

theorem pwNextWrite_does (ha : a.atCore n = true) (h : lands s a (coreBlock n + 0x2C + 12 * i)) : ∃ t, exec (.pwNextWrite a n i w) s = .next t ∧
    t.out = [.reg a.via 0 none] ∧ t.rd (Reg.PW_NEXT_NEXT n i) = w.toNat ∧ Keeps [.out, .regs, .pred, .clus, .pwr] s t ∧
    (predEnabled s n i = true → predPinned s n i = false → (s.predOf n i).st = .locked → (t.predOf n i).nextValid = true) := by
  have hn := n.isLt
  have hi := i.isLt
  obtain ⟨hp0, hp2, -⟩ := core_of ha
  have e : coreBlock n + 0x2C + 12 * i.val = 0x302C + 0x40 * n.val + 0xC * i.val := by unfold coreBlock; omega
  have hat := at_PW_NEXT n.val hn i.val hi
  obtain ⟨u, hk, hset, hother, hrun⟩ := stored_write (nextWritten n i) ha hp0 hp2 (e ▸ h) (by omega) (by omega) hat w.isLt (by decide) fun _ => rfl
  have hf := nextWritten_keeps n i u
  have hall := (hk.mono (w' := [.regs, .pred, .clus, .pwr]) (by decide)).trans (hf.mono (by decide))
  have hNEXT : u.rd (Reg.PW_NEXT_NEXT n i) = bits w.toNat 0 32 := hset ⟨0, 32, .rw, 0⟩ (by simp) rfl (by decide)
  have hword : bits w.toNat 0 32 = w.toNat := by
    have := w.isLt
    unfold bits
    omega
  refine ⟨_, (congrArg (fun x => doWrite _ a x w.toNat s) e).trans hrun, core_out ha (hall.same .out (by decide)),
    (answered_rd a _).trans ((hf.rd_eq _).trans (hNEXT.trans hword)), answered a hall, fun hon hpin hst => ?_⟩
  have hkeep (g : Fld) (ho : g.off ≠ 0x302C + 0x40 * n.val + 0xC * i.val) (hl : g.lo < 32) : u.rd g = s.rd g :=
    hother _ (key_elsewhere (findReg_mem hat) ho hl)
  have hEN := hkeep (Reg.PW_SRC_EN n i) (by unfold Reg.PW_SRC_EN; dsimp only; omega) (by exact (by decide : 18 < 32))
  have hPIN := hkeep (Reg.PW_SRC_PIN n i) (by unfold Reg.PW_SRC_PIN; dsimp only; omega) (by exact (by decide : 20 < 32))
  have hPRE := hkeep (Reg.PREWARM_EN n) (by unfold Reg.PREWARM_EN; dsimp only; omega) (by exact (by decide : 21 < 32))
  have hnow : predEnabled u n i = predEnabled s n i := by
    unfold predEnabled State.flag
    rw [hPRE, hEN]
  have hfree : predPinned u n i = predPinned s n i := by
    unfold predPinned State.flag
    rw [hnow, hPIN]
  have hgo : (predEnabled u n i && !predPinned u n i && (u.predOf n i).st == .locked) = true := by
    rw [hnow, hfree, hon, hpin, hk.predOf_eq n i]
    exact beq_iff_eq.2 hst
  have hpred : ({ respond a true 0 none (nextWritten n i u) with pending := s.pending } : State).pred = (nextWritten n i u).pred :=
    answered_same (s := s) a .pred (by decide) (by decide)
  have hrun : nextWritten n i u = warmTry n i (u.setPred n i { u.predOf n i with nextValid := true }) := if_pos hgo
  unfold State.predOf
  rw [hpred, hrun]
  exact warmTry_valid (by rw [State.predOf_setPred'])

end

end Sys2Proof.Machine

namespace Sys2Proof.Machine

set_option Elab.async false

section
variable {a : Access} {s u : State}

theorem port_stored {addr w i j : Nat} {r : RegRow} (f : State → State) (ha : a.atPort = true) (h : lands s a addr) (hl : addr < 0x30000)
    (hb : addr / 0x20 ≠ 0x7B0) (hf : findReg addr = some (r, i, j)) (hw : w < 2 ^ 32) (hr : storedRow r = true)
    (he : ∀ u, (effect1 a ⟨r, i, j, addr, .active⟩ w s.bare u).bind (effect2 ⟨r, i, j, addr, .active⟩ w s.bare) = some (f u)) :
    ∃ u, Keeps [.regs] s.bare u ∧
      (∀ g ∈ r.flds, g.acc = .rw → commandBits.contains (r.id, g.lo) = false → u.rd (g.at addr) = bits w g.lo g.w) ∧
      (∀ g : Fld, (∀ x ∈ r.flds, g.key ≠ (x.at addr).key) → u.rd g = s.rd g) ∧
      doWrite a.atPort a addr w s = .next { respond a true 0 none (f u) with pending := s.pending } := by
  have hv : a.via = .port := beq_iff_eq.1 ha
  exact stored_write f ha (by rw [hv]; decide) (by rw [hv]; decide) h hl hb hf hw hr he

-- RFAIL (R137)

theorem failCampion_LOCAL {n cause r : Nat} (hn : n < 64) (s : State) :
    (failCampion n cause s).rd (Reg.CAMP_RFAIL_LOCAL r) = s.rd (Reg.CAMP_RFAIL_LOCAL r) := by
  have hlo : (Reg.CAMP_RFAIL_LOCAL r).lo < 32 := by exact (by decide : 0 < 32)
  have hreturn : (returnRun n s).rd (Reg.CAMP_RFAIL_LOCAL r) = s.rd (Reg.CAMP_RFAIL_LOCAL r) :=
    returnRun_rd n s _ (by unfold Reg.CAMP_RFAIL_LOCAL; dsimp only; omega) (by unfold Reg.CAMP_RFAIL_LOCAL; dsimp only; omega) hlo
  unfold failCampion
  split
  · rfl
  · exact (raiseInt_rd _ _ _ _ (by unfold Reg.CAMP_RFAIL_LOCAL; dsimp only; omega) hlo).trans hreturn

theorem returnRun_idle (n : Nat) (s : State) : ((returnRun n s).campOf n).run = none := by
  cases hr : (s.campOf n).run with
  | some r => exact (returnRun_camp hr).2
  | none => rw [returnRun, hr, hr]

/-- A Campion that fails shows its cause, runs nothing, and latches its event. -/
theorem failCampion_fails {n cause : Nat} {s : State} (h : (s.campOf n).failed = none) :
    ((failCampion n cause s).campOf n).failed = some (BitVec.ofNat 2 cause) ∧ ((failCampion n cause s).campOf n).run = none ∧
      (s.time.sleep = .awake → ((failCampion n cause s).latchOf (5136 + n / 16)).isSome = true) := by
  obtain ⟨v, hv⟩ : ∃ v, (returnRun n s).setCamp n { (returnRun n s).campOf n with failed := some (BitVec.ofNat 2 cause) } = v := ⟨_, rfl⟩
  have hrun : failCampion n cause s = raiseInt (5136 + n / 16) (n + 64 * cause) v := by
    rw [← hv]
    exact if_neg (by rw [h]; decide)
  have hcamp : v.campOf n = { (returnRun n s).campOf n with failed := some (BitVec.ofNat 2 cause) } := hv ▸ State.campOf_setCamp ..
  rw [hrun, (raiseInt_keeps ..).campOf_eq, hcamp]
  refine ⟨rfl, returnRun_idle n s, fun hs => raiseInt_latch _ _ _ ?_⟩
  rw [← hv]
  exact (congrArg TimeS.sleep ((returnRun_keeps n s).same .time (by decide) :)).trans hs

theorem campRfailGo_fails {r : Fin 4} {loc : BitVec 4} (ha : a.atPort = true) (h : lands s a (0x804 + 16 * r)) :
    ∃ t, exec (.campRfailGo a r loc) s = .next t ∧ t.out = [.reg a.via 0 none] ∧ t.rd (Reg.CAMP_RFAIL_LOCAL r) = loc.toNat ∧
      Keeps [.out, .regs, .src, .camp, .trc] s t ∧
      ((s.campOf (16 * r + loc.toNat)).failed = none → (t.campOf (16 * r + loc.toNat)).failed = some 0 ∧ (t.campOf (16 * r + loc.toNat)).run = none ∧
        (s.time.sleep = .awake → (t.latchOf (5136 + r)).isSome = true)) ∧
      ((s.campOf (16 * r + loc.toNat)).failed.isSome = true → t.camp = s.camp) := by
  have hr := r.isLt
  have hloc := loc.isLt
  have hgo : bit (loc.toNat + 2 ^ 31) 31 = true := by
    unfold bit
    rw [beq_iff_eq]
    omega
  have hidx : bits (loc.toNat + 2 ^ 31) 0 4 = loc.toNat := by
    unfold bits
    omega
  obtain ⟨u, hk, hset, -, hrun⟩ := port_stored (w := loc.toNat + 2 ^ 31) (failCampion (16 * r + loc.toNat) 0) ha h (by omega) (by omega)
    (at_CAMP_RFAIL r.val hr) (by omega) (by decide) fun u => by
      show some (if bit (loc.toNat + 2 ^ 31) 31 then failCampion (16 * r.val + bits (loc.toNat + 2 ^ 31) 0 4) 0 u else u) = _
      rw [hgo, hidx, if_pos rfl]
  have hf := failCampion_keeps (16 * r + loc.toNat) 0 u
  have hall : Keeps [.regs, .src, .camp, .trc] s.bare (failCampion (16 * r + loc.toNat) 0 u) := (hk.mono (by decide)).trans hf
  have hLOCAL : u.rd (Reg.CAMP_RFAIL_LOCAL r) = loc.toNat := (hset ⟨0, 4, .rw, 0⟩ (by simp) rfl (by decide)).trans hidx
  have hcamp : ({ respond a true 0 none (failCampion (16 * r + loc.toNat) 0 u) with pending := s.pending } : State).camp =
      (failCampion (16 * r + loc.toNat) 0 u).camp := answered_same (s := s) a .camp (by decide) (by decide)
  have hsrc : ({ respond a true 0 none (failCampion (16 * r + loc.toNat) 0 u) with pending := s.pending } : State).src =
      (failCampion (16 * r + loc.toNat) 0 u).src := answered_same (s := s) a .src (by decide) (by decide)
  have hu : u.campOf (16 * r + loc.toNat) = s.campOf (16 * r + loc.toNat) := hk.campOf_eq _
  refine ⟨_, hrun, port_out ha (hall.same .out (by decide)), ?_, answered a hall, fun hno => ?_, fun hfailed => ?_⟩
  · exact (answered_rd a _).trans ((failCampion_LOCAL (by omega) u).trans hLOCAL)
  · obtain ⟨h1, h2, h3⟩ := failCampion_fails (cause := 0) (hu ▸ hno)
    rw [show (16 * r.val + loc.toNat) / 16 = r.val by omega] at h3
    unfold State.campOf State.latchOf at *
    rw [hcamp, hsrc]
    exact ⟨h1, h2, fun hs => h3 ((congrArg TimeS.sleep (hk.same .time (by decide))).trans hs)⟩
  · have hidle : failCampion (16 * r + loc.toNat) 0 u = u := if_pos (hu ▸ hfailed)
    rw [hcamp, hidle]
    exact hk.same .camp (by decide)

-- EPOCH_PERIOD (R193, R195)

theorem epochCount_keeps {s t : State} (h : Keeps [.regs] s t) : epochCount t = epochCount s := by
  unfold epochCount
  rw [h.same .su (by decide), h.same .epoch (by decide), h.same .time (by decide)]

/-- A period that the count has reached cuts the epoch short. -/
theorem periodWritten_cuts {old s : State} (hd : thawDue old = false) (ho : s.su.open_ = true) (hs : s.epoch.short = none)
    (hp : periodInForce s ≤ epochCount s + 2) : (periodWritten old s).epoch = { s.epoch with short := some (s.time.now + 4) } ∧
      (periodWritten old s).rd Reg.THAW_STATUS_SHORT_EPOCH = 1 ∧
      (s.time.sleep = .awake → ((periodWritten old s).latchOf 5144).isSome = true) := by
  obtain ⟨v, hv⟩ : ∃ v,
    ({ s with epoch := { s.epoch with short := some (s.time.now + 4) } } : State).raise Reg.THAW_STATUS_SHORT_EPOCH = v := ⟨_, rfl⟩
  have hrun : periodWritten old s = raiseInt 5144 (s.epoch.num.toNat % 2 ^ 16) v := by
    unfold periodWritten
    rw [if_neg (by rw [hd]; exact Bool.false_ne_true), if_neg]
    · rw [← hv]
    · rw [ho, hs]
      simp only [Bool.not_true, Option.isSome_none, Bool.false_or]
      simp only [decide_eq_true_eq]
      omega
  rw [hrun]
  refine ⟨?_, ?_, fun h => raiseInt_latch _ _ _ (hv ▸ h)⟩
  · rw [(raiseInt_keeps ..).same .epoch (by decide), ← hv]
    rfl
  · rw [raiseInt_rd _ _ _ _ (by decide) (by decide), ← hv]
    exact State.rd_wr_same ..

theorem periodWritten_idle {old s : State} (hd : thawDue old = false) (h : s.su.open_ = false ∨ s.epoch.short.isSome = true) :
    periodWritten old s = s := by
  unfold periodWritten
  rw [if_neg (by rw [hd]; exact Bool.false_ne_true), if_pos]
  rcases h with h | h <;> simp [h]

theorem thawDue_open {s : State} (h : thawDue s = true) : s.su.open_ = true := by
  unfold thawDue at h
  simp only [Bool.and_eq_true] at h
  obtain ⟨⟨⟨ho, -⟩, -⟩, -⟩ := h
  exact ho

theorem periodWritten_PERIOD (old s : State) : (periodWritten old s).rd Reg.EPOCH_PERIOD_PERIOD = s.rd Reg.EPOCH_PERIOD_PERIOD := by
  unfold periodWritten
  split
  · rfl
  · split
    · rfl
    · dsimp only
      rw [raiseInt_rd _ _ _ _ (by decide) (by decide)]
      exact State.rd_wr_ne _ _ (by decide)

theorem epochPeriodWrite_does {w : Word} (ha : a.atPort = true) (h : lands s a 0x1008) : ∃ t, exec (.epochPeriodWrite a w) s = .next t ∧
    t.out = [.reg a.via 0 none] ∧ t.rd Reg.EPOCH_PERIOD_PERIOD = bits w.toNat 0 24 ∧ Keeps [.out, .regs, .epoch, .src, .trc] s t ∧
    (s.su.open_ = false → t.epoch = s.epoch ∧ t.src = s.src) ∧
    (thawDue s = true → t.epoch = { s.epoch with short := some (BitVec.ofNat 64 (nextThaw s)) } ∧ t.src = s.src) ∧
    (s.su.open_ = true → thawDue s = false → s.epoch.short = none →
      periodInForce (s.wr Reg.EPOCH_PERIOD_PERIOD (bits w.toNat 0 24)) ≤ epochCount s + 2 →
      t.epoch = { s.epoch with short := some (s.time.now + 4) } ∧ t.rd Reg.THAW_STATUS_SHORT_EPOCH = 1 ∧
      (s.time.sleep = .awake → (t.latchOf 5144).isSome = true)) ∧
    (thawDue s = false → s.epoch.short.isSome = true → t.epoch = s.epoch ∧ t.src = s.src) := by
  obtain ⟨u, hk, hset, -, hrun⟩ := port_stored (periodWritten s.bare) ha h (by decide) (by decide) at_EPOCH_PERIOD w.isLt (by decide) fun _ => rfl
  have hf := periodWritten_keeps s.bare u
  have hall : Keeps [.regs, .epoch, .src, .trc] s.bare (periodWritten s.bare u) := (hk.mono (by decide)).trans hf
  have hPER : u.rd Reg.EPOCH_PERIOD_PERIOD = bits w.toNat 0 24 := hset ⟨0, 24, .rw, 0xFA0⟩ (by simp) rfl (by decide)
  have hepoch : ({ respond a true 0 none (periodWritten s.bare u) with pending := s.pending } : State).epoch = (periodWritten s.bare u).epoch :=
    answered_same (s := s) a .epoch (by decide) (by decide)
  have hsrc : ({ respond a true 0 none (periodWritten s.bare u) with pending := s.pending } : State).src = (periodWritten s.bare u).src :=
    answered_same (s := s) a .src (by decide) (by decide)
  have hue : u.epoch = s.epoch := hk.same .epoch (by decide)
  have hus : u.src = s.src := hk.same .src (by decide)
  have huo : u.su.open_ = s.su.open_ := congrArg SuS.open_ (hk.same .su (by decide) :)
  have hidle (hd : thawDue s = false) (ho : s.su.open_ = false ∨ s.epoch.short.isSome = true) : periodWritten s.bare u = u :=
    periodWritten_idle (old := s.bare) hd (by rw [huo, hue]; exact ho)
  refine ⟨_, hrun, port_out ha (hall.same .out (by decide)), (answered_rd a _).trans ((periodWritten_PERIOD ..).trans hPER), answered a hall,
    fun hclosed => ?_, fun hdue => ?_, fun hopen hdue hshort hper => ?_, fun hdue hshort => ?_⟩
  · have hdue : thawDue s = false := by
      by_contra hd
      rw [thawDue_open (Bool.not_eq_false _ ▸ hd)] at hclosed
      cases hclosed
    rw [hepoch, hsrc, hidle hdue (.inl hclosed)]
    exact ⟨hue, hus⟩
  · have hcut : periodWritten s.bare u = { u with epoch := { u.epoch with short := some (BitVec.ofNat 64 (nextThaw s.bare)) } } := if_pos hdue
    rw [hepoch, hsrc, hcut]
    exact ⟨by rw [hue]; rfl, hus⟩
  · have hforce : periodInForce u = periodInForce (s.wr Reg.EPOCH_PERIOD_PERIOD (bits w.toNat 0 24)) := by
      have hwr : (s.wr Reg.EPOCH_PERIOD_PERIOD (bits w.toNat 0 24)).rd Reg.EPOCH_PERIOD_PERIOD = bits w.toNat 0 24 :=
        (State.rd_wr_same ..).trans (Nat.mod_eq_of_lt (Nat.mod_lt _ (by decide)))
      unfold periodInForce
      rw [hPER, hwr]
    have hcount : epochCount u = epochCount s := epochCount_keeps (s := s.bare) hk
    obtain ⟨h1, h2, h3⟩ := periodWritten_cuts (old := s.bare) (s := u) hdue (huo.trans hopen) (by rw [hue]; exact hshort)
      (by rw [hforce, hcount]; exact hper)
    have htime : u.time = s.time := hk.same .time (by decide)
    refine ⟨?_, (answered_rd a _).trans h2, fun hs => ?_⟩
    · rw [hepoch, h1, hue, htime]
    · unfold State.latchOf
      rw [hsrc]
      exact h3 (by rw [htime]; exact hs)
  · rw [hepoch, hsrc, hidle hdue (.inr hshort)]
    exact ⟨hue, hus⟩

end

/-- Settles O50: the writes of THRESH, of the predictors, of RFAIL and of the epoch period. -/
theorem coreWrites : Obligations.CoreWrites :=
  ⟨fun _ _ _ _ ha h => threshWrite_does ha h,
    fun _ _ _ _ _ ha => ⟨fun h => prewarmWrite_does ha h, fun h => pwSrcWrite_does ha h, fun h => pwPerWrite_does ha h,
      fun h => pwNextWrite_does ha h⟩,
    fun _ _ _ _ ha h => campRfailGo_fails ha h, fun _ _ _ ha h => epochPeriodWrite_does ha h⟩

end Sys2Proof.Machine

namespace Sys2Proof.Machine

set_option Elab.async false

-- LOAD_CTRL of a side (R346)

section
variable {a : Access} {d : Side} {s u : State}

/-- What answers a write of a side's port. -/
theorem answered_side (ho : u.out = []) :
    ({ respond a true 0 none u with pending := s.pending } : State).out = (if a.host then [] else [.reg a.via 0 none]) :=
  answered_out a ho

theorem answered_load : loadOf d ({ respond a true 0 none u with pending := s.pending } : State) = loadOf d u :=
  loadOf_img (answered_same (s := s) (u := u) a .img (by decide) (by decide)) d

/-- A write that is refused, with its answer. -/
theorem refused_write {o : Host.Outcome State Fault Refusal} {addr : Nat}
    (ho : o = .next { busError a addr 6 true s.bare with pending := s.pending }) :
    ∃ t, o = .next t ∧ t.out = (if a.host then [] else [.reg a.via 0 (some 6)]) ∧ Keeps [.out, .regs] s t := by
  obtain ⟨hout, hk⟩ := refused_by (s := s) a addr
  exact ⟨_, ho, hout, hk⟩

/-- The word that starts a load. -/
def startWord (persist : Bool) : Nat := 1 + 4 * b2n persist

theorem startWord_bits (persist : Bool) : bit (startWord persist % 2 ^ 32) 0 = true ∧ bit (startWord persist % 2 ^ 32) 1 = false ∧
    bit (startWord persist % 2 ^ 32) 2 = persist := by
  cases persist <;> exact ⟨by decide, by decide, by decide⟩

theorem loadCtrl_start {persist : Bool} (h : canStartLoad d s = true) :
    loadCtrl d (startWord persist % 2 ^ 32) s = some (loadStart d persist s) := by
  obtain ⟨h0, h1, h2⟩ := startWord_bits persist
  unfold loadCtrl
  rw [h0, h1, h2, h]
  rfl

theorem loadCtrl_noStart {persist : Bool} (h : canStartLoad d s = false) : loadCtrl d (startWord persist % 2 ^ 32) s = none := by
  obtain ⟨h0, -, -⟩ := startWord_bits persist
  unfold loadCtrl
  rw [h0, h]
  rfl

theorem loadStart_header {persist : Bool} (h : d = .host ∨ persist = false) (s : State) : loadStart d persist s = setLoad d { st := .header } s := by
  have hno : (d == .field && persist) = false := by
    rcases h with h | h <;> rw [h]
    · rfl
    · exact Bool.and_false _
  unfold loadStart
  rw [hno]
  rfl

/-- The load of a persist that begins, with the erase of its block. -/
def persistLoad (blk : Bool) : LoadS := { st := .erase, erased := true, persist := true, blk := blk }

theorem tearBlock_load (b : Bool) (s : State) : (tearBlock b s).img.load = s.img.load := by
  unfold tearBlock
  split <;> rfl

theorem loadStart_persist (hg : gapHolds s = false) : (loadStart .field true s).img.load = persistLoad (!preferred s) ∧
    (loadStart .field true s).out = s.out ++ [.ld 2 (blkArea (!preferred s)) 0 0] := by
  obtain ⟨v, hv⟩ : ∃ v, setLoad .field (persistLoad (!preferred s)) s = v := ⟨_, rfl⟩
  have hrun : loadStart .field true s = (tearBlock (!preferred s) v).emit (.ld 2 (blkArea (!preferred s)) 0 0) := by
    rw [← hv]
    unfold loadStart
    simp only [beq_self_eq_true, Bool.and_self, ↓reduceIte, hg, Bool.and_false, Bool.false_eq_true]
    rfl
  rw [hrun]
  refine ⟨(tearBlock_load ..).trans (hv ▸ rfl), ?_⟩
  show (tearBlock (!preferred s) v).out ++ _ = _
  rw [(tearBlock_keeps ..).same .out (by decide), ← hv]
  rfl

theorem loadStart_early (hg : gapHolds s = true) :
    (loadStart .field true s).img.load.st = .restore ∧ (loadStart .field true s).img.load.err = 15 := by
  obtain ⟨v, hv⟩ : ∃ v, setLoad .field { st := .header, persist := true, blk := !preferred s } s = v := ⟨_, rfl⟩
  have hrun : loadStart .field true s = failLoad .field 15 v := by
    rw [← hv]
    unfold loadStart
    simp only [beq_self_eq_true, Bool.and_self, ↓reduceIte, hg]
  have hload := failLoad_load .field 15 v
  rw [← hrun] at hload
  exact ⟨congrArg LoadS.st hload, congrArg LoadS.err hload⟩

/-- What a write of LOAD_CTRL stores does not bear on what a load needs. -/
theorem gapHolds_stored {x : State} (hk : Keeps [.regs] s.bare x) (hr : ∀ f : Fld, f.off ≠ 0x20000 → f.off ≠ 0x120000 → f.lo < 32 → x.rd f = s.rd f) :
    gapHolds x = gapHolds s := by
  have ht : x.t = s.t := congrArg (fun y : TimeS => y.now.toNat) (hk.same .time (by decide) :)
  unfold gapHolds State.flag
  rw [ht, hr _ (by decide) (by decide) (by decide), hr _ (by decide) (by decide) (by decide), hr _ (by decide) (by decide) (by decide),
    hr _ (by decide) (by decide) (by decide)]

theorem preferred_stored {x : State} (hk : Keeps [.regs] s.bare x) : preferred x = preferred s := by
  have hrecs : markRecs x = markRecs s := by
    funext m1
    unfold markRecs
    rw [hk.same .img (by decide)]
    rfl
  unfold preferred newestMarker newestMark
  rw [hrecs]

section
variable {persist : Bool} (hv : a.via = sideVia d) (h : lands s a 0x20000)
include hv h

theorem loadStart_refused (hc : canStartLoad d s = false) : ∃ t, exec (.loadStart a persist) s = .next t ∧
    t.out = (if a.host then [] else [.reg a.via 0 (some 6)]) ∧ Keeps [.out, .regs] s t := by
  obtain ⟨x, hk, -, -, hno⟩ := loadCtrl_write (startWord persist) hv h
  refine refused_write (hno (loadCtrl_noStart ?_))
  unfold canStartLoad
  rw [loadOf_img (hk.same .img (by decide))]
  exact hc

/-- A load that may start runs as its state says. -/
theorem loadStart_runs (hc : canStartLoad d s = true) : ∃ x, Keeps [.regs] s.bare x ∧ gapHolds x = gapHolds s ∧ preferred x = preferred s ∧
    exec (.loadStart a persist) s = .next { respond a true 0 none (loadStart d persist x) with pending := s.pending } := by
  obtain ⟨x, hk, hr, hyes, -⟩ := loadCtrl_write (startWord persist) hv h
  refine ⟨x, hk, gapHolds_stored hk hr, preferred_stored hk, hyes _ (loadCtrl_start ?_)⟩
  unfold canStartLoad
  rw [loadOf_img (hk.same .img (by decide))]
  exact hc

theorem loadStart_begins (hc : canStartLoad d s = true) (hp : d = .host ∨ persist = false) : ∃ t, exec (.loadStart a persist) s = .next t ∧
    t.out = (if a.host then [] else [.reg a.via 0 none]) ∧ loadOf d t = { st := .header } ∧ Keeps [.out, .regs, .img] s t := by
  obtain ⟨x, hk, -, -, hrun⟩ := loadStart_runs (persist := persist) hv h hc
  rw [loadStart_header hp] at hrun
  have hset : Keeps [.img] x (setLoad d { st := .header } x) := setLoad_keeps ..
  have hall : Keeps [.regs, .img] s.bare (setLoad d { st := .header } x) := (hk.mono (by decide)).trans (hset.mono (by decide))
  exact ⟨_, hrun, answered_side (hall.same .out (by decide)), answered_load.trans (loadOf_setLoad ..), answered a hall⟩

end

theorem loadStart_persists (hv : a.via = .port) (h : lands s a 0x20000) (hc : canStartLoad .field s = true) (hg : gapHolds s = false) :
    ∃ t, exec (.loadStart a true) s = .next t ∧ t.out = [.ld 2 (blkArea (!preferred s)) 0 0, .reg a.via 0 none] ∧
      t.img.load = { st := .erase, erased := true, persist := true, blk := !preferred s } ∧ Keeps [.out, .regs, .img] s t := by
  obtain ⟨x, hk, hgap, hpref, hrun⟩ := loadStart_runs (persist := true) (d := .field) hv h hc
  obtain ⟨hload, hout⟩ := loadStart_persist (hgap.trans hg)
  have hall : Keeps [.out, .regs, .img] s.bare (loadStart .field true x) := (hk.mono (by decide)).trans (loadStart_keeps ..)
  have himg : ({ respond a true 0 none (loadStart .field true x) with pending := s.pending } : State).img = (loadStart .field true x).img :=
    answered_same (s := s) a .img (by decide) (by decide)
  refine ⟨_, hrun, ?_, ?_, (answered a hall).mono (by decide)⟩
  · show (respond a true 0 none (loadStart .field true x)).out = _
    have hhost : a.host = false := by
      unfold Access.host
      rw [hv]
      rfl
    rw [respond_out, hhost, hout, hpref, hk.same .out (by decide)]
    rfl
  · rw [himg, hload, hpref]
    rfl

theorem loadStart_held (hv : a.via = .port) (h : lands s a 0x20000) (hc : canStartLoad .field s = true) (hg : gapHolds s = true) :
    ∃ t, exec (.loadStart a true) s = .next t ∧ t.img.load.st = .restore ∧ t.img.load.err = 15 ∧ Keeps [.out, .regs, .img] s t := by
  obtain ⟨x, hk, hgap, -, hrun⟩ := loadStart_runs (persist := true) (d := .field) hv h hc
  obtain ⟨hst, herr⟩ := loadStart_early (hgap.trans hg)
  have hall : Keeps [.out, .regs, .img] s.bare (loadStart .field true x) := (hk.mono (by decide)).trans (loadStart_keeps ..)
  have himg : ({ respond a true 0 none (loadStart .field true x) with pending := s.pending } : State).img = (loadStart .field true x).img :=
    answered_same (s := s) a .img (by decide) (by decide)
  exact ⟨_, hrun, by rw [himg, hst], by rw [himg, herr], (answered a hall).mono (by decide)⟩

-- ABORT

/-- The word that aborts a load: PERSIST stays as it stands. -/
theorem abortWord_bits {x : Nat} (h : bits x 0 2 = 0) : bit ((2 + x) % 2 ^ 32) 0 = false ∧ bit ((2 + x) % 2 ^ 32) 1 = true := by
  unfold bits at h
  unfold bit
  rw [beq_eq_false_iff_ne, beq_iff_eq]
  omega

theorem loadCtrl_abort {w : Nat} (h0 : bit w 0 = false) (h1 : bit w 1 = true) :
    loadCtrl d w s = if canAbort d s then some (failLoad d 13 s) else none := by
  unfold loadCtrl
  rw [h0, h1]
  cases canAbort d s <;> rfl

theorem loadAbort_does (hv : a.via = sideVia d) (h : lands s a 0x20000) (hb : bits (presentRW s (if a.host then 0x120000 else 0x20000)) 0 2 = 0) :
    (canAbort d s = false → ∃ t, exec (.loadAbort a) s = .next t ∧
      t.out = (if a.host then [] else [.reg a.via 0 (some 6)]) ∧ Keeps [.out, .regs] s t) ∧
    (canAbort d s = true → ∃ t, exec (.loadAbort a) s = .next t ∧ (loadOf d t).st = .restore ∧ (loadOf d t).err = 13 ∧
      (loadOf d t).held = (loadOf d s).held ∧ (loadOf d t).fifo = [] ∧ (loadOf d t).wait = none ∧ Keeps [.out, .regs, .img] s t) := by
  obtain ⟨h0, h1⟩ := abortWord_bits hb
  obtain ⟨x, hk, -, hyes, hno⟩ := loadCtrl_write (2 + presentRW s (if a.host then 0x120000 else 0x20000)) hv h
  have hload : loadOf d x = loadOf d s := loadOf_img (hk.same .img (by decide)) d
  have hcan : canAbort d x = canAbort d s := by
    unfold canAbort
    rw [hload]
  have hctrl := loadCtrl_abort (d := d) (s := x) h0 h1
  refine ⟨fun hc => refused_write (hno ?_), fun hc => ⟨_, hyes (failLoad d 13 x) ?_, ?_⟩⟩
  · rw [hctrl, hcan, hc]
    rfl
  · rw [hctrl, hcan, hc]
    rfl
  · have hall : Keeps [.out, .regs, .img] s.bare (failLoad d 13 x) := (hk.mono (by decide)).trans (failLoad_keeps ..)
    rw [answered_load, failLoad_load]
    exact ⟨rfl, rfl, (congrArg LoadS.held hload :), rfl, rfl, (answered a hall).mono (by decide)⟩

-- LOAD_DATA (R342)

/-- A loader that waits for the flash takes nothing from its FIFO. -/
theorem pumpLoad_waits (hst : (loadOf d s).st = .erase ∨ (loadOf d s).busy = true) (hh : (loadOf d s).st ≠ .header) (hw : (loadOf d s).wait = none) :
    pumpLoad d s = s := by
  have hdrain (n : Nat) : drain d (n + 1) s = s := by
    have hno : ((loadOf d s).st == .header && (loadOf d s).taken == 48 && (d == .host || s.img.copies.isEmpty)) = false := by
      rw [beq_eq_false_iff_ne.2 hh]
      rfl
    have hstop : (!(((loadOf d s).st == .header && decide ((loadOf d s).taken < 48)) || (loadOf d s).st == .body) || (loadOf d s).busy) = true := by
      rcases hst with h | h <;> rw [h]
      · rfl
      · exact Bool.or_true _
    unfold drain
    dsimp only
    rw [hno, if_neg (c := false = true) Bool.false_ne_true, setLoad_self, if_pos hstop]
  unfold pumpLoad
  rw [hdrain]
  dsimp only
  rw [hw]

theorem loadData_does {w : Word} (hv : a.via = sideVia d) (h : lands s a 0x20004) :
    (canTake d s = false → ∃ t, exec (.loadData a w) s = .next t ∧
      t.out = (if a.host then [] else [.reg a.via 0 (some 6)]) ∧ Keeps [.out, .regs] s t) ∧
    (canTake d s = true → 64 ≤ (loadOf d s).fifo.length → ∃ t, exec (.loadData a w) s = .next t ∧ t.out = [] ∧
      loadOf d t = { loadOf d s with wait := some (a, w, loadClk d s) } ∧ Keeps [.out, .img] s t) ∧
    (canTake d s = true → (loadOf d s).fifo.length < 64 → ∃ t, exec (.loadData a w) s = .next t ∧ Keeps [.out, .regs, .staged, .img] s t ∧
      (((loadOf d s).st = .erase ∨ (loadOf d s).busy = true) → (loadOf d s).st ≠ .header → (loadOf d s).wait = none →
        t.out = (if a.host then [] else [.reg a.via 0 none]) ∧ loadOf d t = { loadOf d s with fifo := (loadOf d s).fifo ++ [w] })) := by
  have hrun := loadData_write w hv h
  have hbare : loadOf d s.bare = loadOf d s := loadOf_img rfl d
  refine ⟨fun hc => refused_write (addr := 0x20004) (hrun.trans ?_), fun hc hfull => ?_, fun hc hroom => ?_⟩
  · rw [hc]
    rfl
  · have hload : loadWord d a w s.bare = setLoad d { loadOf d s with wait := some (a, w, loadClk d s) } s.bare := by
      have hclk : loadClk d s.bare = loadClk d s := by cases d <;> rfl
      unfold loadWord
      rw [hbare, hclk]
      exact if_neg (Nat.not_lt.2 hfull)
    rw [hc, if_pos rfl, hload] at hrun
    refine ⟨_, hrun, ?_, ?_, ?_⟩
    · cases d <;> rfl
    · cases d <;> rfl
    · have h0 : Keeps [.img] s.bare (setLoad d { loadOf d s with wait := some (a, w, loadClk d s) } s.bare) := setLoad_keeps ..
      exact (h0.mono (w' := [.out, .img]) (by decide)).bare (by decide)
  · obtain ⟨v, hvd⟩ : ∃ v, setLoad d { loadOf d s with fifo := (loadOf d s).fifo ++ [w] } s.bare = v := ⟨_, rfl⟩
    have hload : loadWord d a w s.bare = respond a true 0 none (pumpLoad d v) := by
      unfold loadWord
      rw [hbare, ← hvd]
      exact if_pos hroom
    have hkv : Keeps [.img] s.bare v := hvd ▸ setLoad_keeps ..
    have hvl : loadOf d v = { loadOf d s with fifo := (loadOf d s).fifo ++ [w] } := hvd ▸ loadOf_setLoad ..
    rw [hc, if_pos rfl, hload] at hrun
    refine ⟨_, hrun, ?_, fun hst hh hw => ?_⟩
    · exact (answered a ((hkv.mono (by decide)).trans (pumpLoad_keeps d v))).mono (by decide)
    · have hidle : pumpLoad d v = v := pumpLoad_waits (by rw [hvl]; exact hst) (by rw [hvl]; exact hh) (by rw [hvl]; exact hw)
      rw [hidle]
      exact ⟨answered_side (hkv.same .out (by decide)), answered_load.trans hvl⟩

-- LOAD_DATA held past its bound

theorem overrun_runs (hv : a.via = sideVia d) : exec (.loadDataOverrun a) s = .next { overrun d s.bare with pending := s.pending } := by
  obtain ⟨hw, -, hd⟩ := side_of hv
  refine runWf_eq hw ?_
  rw [hd]

theorem overrun_none (hv : a.via = sideVia d) (h : ∀ x, (loadOf d s).wait = some x → (loadClk d s - x.2.2).toNat < 131072) :
    exec (.loadDataOverrun a) s = .next { s with out := [] } := by
  have hidle : overrun d s.bare = s.bare := by
    have hbare : loadOf d s.bare = loadOf d s := loadOf_img rfl d
    have hclk : loadClk d s.bare = loadClk d s := by cases d <;> rfl
    unfold overrun
    rw [hbare, hclk]
    split
    · next b v t hw => exact if_neg (Nat.not_le.2 (h _ hw))
    · rfl
  rw [overrun_runs hv, hidle]
  rfl

theorem overrun_ends {b : Access} {v : Word} {x : Tick} (hv : a.via = sideVia d) (hw : (loadOf d s).wait = some (b, v, x))
    (hx : 131072 ≤ (loadClk d s - x).toNat) : ∃ t, exec (.loadDataOverrun a) s = .next t ∧
      t.out = (if b.host then [] else [.reg b.via 0 (some 6)]) ∧ (loadOf d t).st = .restore ∧ (loadOf d t).err = 12 ∧ (loadOf d t).wait = none ∧
      Keeps [.out, .regs, .img] s t := by
  have hbare : loadOf d s.bare = loadOf d s := loadOf_img rfl d
  have hclk : loadClk d s.bare = loadClk d s := by cases d <;> rfl
  have hover : overrun d s.bare = failLoad d 12 s.bare := by
    unfold overrun
    rw [hbare, hw, hclk]
    exact if_pos hx
  have hrun := overrun_runs (s := s) hv
  rw [hover] at hrun
  have hload := failLoad_load d 12 s.bare
  have ht : loadOf d ({ failLoad d 12 s.bare with pending := s.pending } : State) = loadOf d (failLoad d 12 s.bare) := loadOf_img rfl d
  refine ⟨_, hrun, ?_, ?_, ?_, ?_, (failLoad_keeps ..).bare (by decide)⟩
  · obtain ⟨l, hl⟩ : ∃ l : LoadS, failLoad d 12 s.bare = busError b 0x20004 6 true (setLoad d l s.bare) := by
      unfold failLoad
      dsimp only
      rw [hbare, hw]
      exact ⟨_, rfl⟩
    obtain ⟨-, hout, -⟩ := busError_does b 0x20004 6 true (setLoad d l s.bare) (by decide)
    show (failLoad d 12 s.bare).out = _
    rw [hl, hout, (setLoad_keeps ..).same .out (by decide)]
    cases b.host <;> rfl
  · rw [ht, hload]
  · rw [ht, hload]
  · rw [ht, hload]

-- DT_CTRL.GO (R349)

theorem dtWord_bits (r : Fin 4) (hold : Bool) : bit (r.val + 4 * b2n hold + 8) 3 = true ∧ bits (r.val + 4 * b2n hold + 8) 0 2 = r.val ∧
    bit (r.val + 4 * b2n hold + 8) 2 = hold ∧ r.val + 4 * b2n hold + 8 < 2 ^ 32 := by
  revert r hold
  decide

theorem dtGo_does {r : Fin 4} {hold : Bool} (ha : a.atPort = true) (h : lands s a 0x20020) :
    (s.img.dtPhase = 0 → s.img.load.st = .ready → s.img.load.parts.contains (0x10 + r.val) = true → ∃ t, exec (.dtGo a r hold) s = .next t ∧
      t.out = [.reg a.via 0 none] ∧ t.img = { s.img with dtPhase := 1, dtRegion := r, dtHold := hold } ∧ Keeps [.out, .regs, .img] s t) ∧
    (s.img.dtPhase ≠ 0 ∨ s.img.load.st ≠ .ready ∨ s.img.load.parts.contains (0x10 + r.val) = false → ∃ t, exec (.dtGo a r hold) s = .next t ∧
      t.out = [.reg a.via 0 (some 6)] ∧ Keeps [.out, .regs] s t) := by
  obtain ⟨h3, hr, h2, hw⟩ := dtWord_bits r hold
  have hv : a.via = .port := beq_iff_eq.1 ha
  have hp : locate s.bare a.via 0x20020 = some ⟨row_DT_CTRL, 0, 0, 0x20020, .active⟩ :=
    locate_field (by rw [hv]; decide) (by rw [hv]; decide) (by decide) (by decide) at_DT_CTRL
  obtain ⟨hk, -, -⟩ := putFields_does (p := ⟨row_DT_CTRL, 0, 0, 0x20020, .active⟩) (findReg_mem at_DT_CTRL) rfl nofun nofun
    (r.val + 4 * b2n hold + 8) s.bare
  obtain ⟨u, hu⟩ : ∃ u, putFields ⟨row_DT_CTRL, 0, 0, 0x20020, .active⟩ (r.val + 4 * b2n hold + 8) s.bare = u := ⟨_, rfl⟩
  rw [hu] at hk
  have himg : u.img = s.img := hk.same .img (by decide)
  have heff : (effect1 a ⟨row_DT_CTRL, 0, 0, 0x20020, .active⟩ (r.val + 4 * b2n hold + 8) s.bare u).bind
      (effect2 ⟨row_DT_CTRL, 0, 0, 0x20020, .active⟩ (r.val + 4 * b2n hold + 8) s.bare) = deepRequest r hold u := by
    show (if bit (r.val + 4 * b2n hold + 8) 3 then deepRequest (bits (r.val + 4 * b2n hold + 8) 0 2) (bit (r.val + 4 * b2n hold + 8) 2) u
      else some u) = _
    rw [h3, hr, h2, if_pos rfl]
  refine ⟨fun hd hl hc => ?_, fun hno => ?_⟩
  · have hreq : deepRequest r hold u = some { u with img := { u.img with dtPhase := 1, dtRegion := r, dtHold := hold } } := by
      unfold deepRequest
      dsimp only
      rw [himg, if_pos ⟨hd, hl, hc⟩]
    have hall : Keeps [.regs, .img] s.bare { u with img := { u.img with dtPhase := 1, dtRegion := r, dtHold := hold } } := by
      have h0 : Keeps [.regs, .img] s.bare u := hk.mono (by decide)
      exact h0.img (by decide)
    refine ⟨_, spot_write ha h hp rfl hw (by decide) nofun nofun (by decide) (by decide) (by rw [hu, heff, hreq]),
      port_out ha (hall.same .out (by decide)), ?_, answered a hall⟩
    refine (answered_same (s := s) a .img (by decide) (by decide)).trans ?_
    show ({ u.img with dtPhase := 1, dtRegion := r, dtHold := hold } : ImgS) = _
    rw [himg]
  · have hreq : deepRequest r hold u = none := by
      unfold deepRequest
      dsimp only
      rw [himg]
      refine if_neg fun ⟨hd, hl, hc⟩ => ?_
      rcases hno with hno | hno | hno
      · exact hno hd
      · exact hno hl
      · rw [hc] at hno
        cases hno
    obtain ⟨hout, hkeep⟩ := refused_does (s := s) a 0x20020 ha
    exact ⟨_, spot_refused ha h hp rfl hw (by decide) nofun nofun (by decide) (by decide) (by rw [hu, heff, hreq]), hout, hkeep⟩

end

/-- Settles O53: START, ABORT and LOAD_DATA of the loader, and the deep thaw's GO. -/
theorem loaderWrites : Obligations.LoaderWrites := by
  refine ⟨fun a d persist s hv h => ⟨loadStart_refused hv h, fun hc => ⟨loadStart_begins hv h hc, ?_, ?_⟩, loadAbort_does hv h⟩,
    fun a d w s hv h => loadData_does hv h, fun a d s hv => ⟨fun hw => ?_, fun x hw hx => ?_, fun b v x hw hx => overrun_ends hv hw hx⟩,
    fun a r hold s ha h => dtGo_does ha h⟩
  · rintro rfl rfl hg
    exact loadStart_persists hv h hc hg
  · rintro rfl rfl hg
    exact loadStart_held hv h hc hg
  · exact overrun_none hv fun x hx => by rw [hw] at hx; cases hx
  · exact overrun_none hv fun y hy => by
      rw [hw, Option.some_inj] at hy
      exact hy ▸ hx

end Sys2Proof.Machine

namespace Sys2Proof.Machine

set_option Elab.async false

-- messages that enter the crossbar ask for domains, and change the state of none (R455)

section
variable {s : State}

theorem Keeps.domains_eq {w : List Part} {s t : State} (h : Keeps w s t) (hp : Part.pwr ∉ w := by decide) : t.pwr.st = s.pwr.st :=
  congrArg PwrS.st (h.same .pwr hp)

theorem wakeRoutes_st (m : Msg) (l : List (BitVec 12 × Route)) (s : State) : (wakeRoutes m l s).pwr.st = s.pwr.st := by
  unfold wakeRoutes
  refine State.each_inv (fun s => s.pwr.st) _ (fun e u => ?_) s
  split
  · split
    · exact wakeFor_st ..
    · rfl
  · rfl

theorem xbStore_st (i : Nat) (m : Msg) (d : List (BitVec 12)) (re : Bool) (res : Option Nat) (p : Place) (s : State) :
    (xbStore i m d re res p s).pwr.st = s.pwr.st := by
  unfold xbStore
  generalize (if i = 21 then { m with rver := BitVec.ofNat 3 (s.rd Reg.ROUTE_VER_VER) } else m) = m'
  dsimp only
  have routed := (takeRoutes_keeps m' res.isSome d s).domains_eq
  split
  next => exact routed
  next =>
    have woken (u : State) : (wakeRoutes m' (takeRoutes m' res.isSome d s).1 { u with xb := { u.xb with serial := u.xb.serial + 1 } }).pwr.st =
        u.pwr.st := wakeRoutes_st ..
    have stored := (woken (takeRoutes m' res.isSome d s).2).trans routed
    split
    next => exact stored
    next =>
      split
      · exact stored
      · exact (trace_keeps ..).domains_eq.trans stored
    next => exact stored

theorem xbTry_st (i : Nat) (m : Msg) (re : Bool) (res : Option Nat) (s : State) : (xbTry i m re res s).2.pwr.st = s.pwr.st := by
  unfold xbTry
  split
  next => exact xbStore_st ..
  next =>
    dsimp only
    split
    · exact (mrnFull_keeps ..).domains_eq
    · rfl

theorem pumpList_st (i : Nat) (l : List RecEntry) (shut : List Cls) (s : State) : (pumpList i l shut s).2.pwr.st = s.pwr.st := by
  induction l generalizing shut s with
  | nil => rfl
  | cons x l ih =>
    unfold pumpList
    split
    · exact ih shut s
    · have h := xbTry_st i x.msg x.restored x.res s
      split
      next u hu => rw [hu] at h; exact (ih shut u).trans h
      next u hu => rw [hu] at h; exact (ih _ u).trans h

theorem sendRec_st (e : RecEntry) (s : State) : (sendRec e s).pwr.st = s.pwr.st :=
  pumpList_st 21 (s.xb.recHold ++ [e]) [] { s with xb := { s.xb with recHold := s.xb.recHold ++ [e] } }

theorem restoreScope_st (p : Nat → Bool) (s : State) : (restoreScope p s).pwr.st = s.pwr.st := by
  unfold restoreScope
  refine State.each_inv (fun s => s.pwr.st) _ (fun e u => ?_) s
  dsimp only
  split
  · rfl
  · exact ((State.inc_keeps ..).domains_eq).trans (sendRec_st ..)

/-- A domain other than a region that is dropped is in the state named, whatever is restored. -/
theorem dropDomain_state {d v : Nat} (h : d < 16 ∨ 20 ≤ d) (hd : d ≠ 22) (hv : v < 4) (s : State) : (dropDomain d v s).dom d = v := by
  obtain ⟨a, ha⟩ : ∃ a : State, returnTokens d (s.setDom d v) = a := ⟨_, rfl⟩
  have hdom : a.dom d = v := ha ▸ dom_setDom s d v hd hv
  have hsame {u : State} (hu : u.pwr.st = a.pwr.st) : u.dom d = v := (dom_congr hu d).trans hdom
  unfold dropDomain
  dsimp only
  rw [ha]
  by_cases h1 : d < 16
  · rw [if_pos h1]
    have hlost : (loseCluster d a).pwr.st = a.pwr.st := (loseCluster_keeps d a).domains_eq
    refine hsame ((rewake_st _).trans ?_)
    split
    · exact (restoreScope_st ..).trans hlost
    · exact hlost
  · rw [if_neg h1, if_neg (by omega)]
    by_cases h3 : d < 22
    · rw [if_pos h3]
      exact hsame (State.each_inv (fun s => s.pwr.st) (f := fun p s => resetRegs (inLink p) (lnkDomainOff p s)) _
        (fun _ _ => (resetRegs_keeps ..).domains_eq.trans (lnkDomainOff_keeps ..).domains_eq) a)
    · rw [if_neg h3]
      split
      · exact hsame (edwReset_keeps ..).domains_eq
      · exact hdom

-- PWR_REQ of a field die (R454)

/-- The result of PWR_REQ. -/
def pwrAnswer (res d : Nat) (s : State) : State := ((s.wr Reg.PWR_RES_RES res).wr Reg.PWR_RES_DOMAIN d).raise Reg.PWR_RES_VALID

theorem pwrAnswer_rd {res d : Nat} (hr : res < 8) (hd : d < 32) (s : State) : (pwrAnswer res d s).rd Reg.PWR_RES_RES = res ∧
    (pwrAnswer res d s).rd Reg.PWR_RES_DOMAIN = d ∧ (pwrAnswer res d s).rd Reg.PWR_RES_VALID = 1 := by
  unfold pwrAnswer State.raise
  refine ⟨?_, ?_, State.rd_wr_same ..⟩
  · rw [State.rd_wr_ne _ _ (by decide), State.rd_wr_ne _ _ (by decide), State.rd_wr_same]
    exact Nat.mod_eq_of_lt hr
  · rw [State.rd_wr_ne _ _ (by decide), State.rd_wr_same]
    exact Nat.mod_eq_of_lt hd

theorem pwrAnswer_keeps (res d : Nat) (s : State) : Keeps [.regs] s (pwrAnswer res d s) := by
  unfold pwrAnswer
  exact Keeps.step (State.raise_keeps ..) (by decide) (Keeps.step (State.wr_keeps ..) (by decide) (State.wr_keeps ..))

/-- The word that requests a domain on or off. -/
def pwrWord (on : Bool) (d : BitVec 5) : Nat := d.toNat + 32 * b2n on + 2 ^ 31

theorem pwrWord_bits (on : Bool) (d : BitVec 5) : bit (pwrWord on d) 31 = true ∧ bits (pwrWord on d) 0 5 = d.toNat ∧
    bit (pwrWord on d) 5 = on ∧ pwrWord on d < 2 ^ 32 := by
  revert on d
  decide

variable {a : Access} {d : BitVec 5}

/-- A write of PWR_REQ acts on a state whose fields alone have changed. -/
theorem pwrReq_runs (on : Bool) (ha : a.atPort = true) (h : lands s a 0xF560) : ∃ u, Keeps [.regs] s.bare u ∧
    doWrite a.atWindow a 0xF560 (pwrWord on d) s = .next { respond a true 0 none (pwrRequest d.toNat on u) with pending := s.pending } := by
  obtain ⟨h31, hidx, hon, hlt⟩ := pwrWord_bits on d
  have hv : a.via = .port := beq_iff_eq.1 ha
  have hw : a.atWindow = true := by
    unfold Access.atWindow
    rw [hv]
    rfl
  obtain ⟨u, hk, -, -, hrun⟩ := stored_write (ok := a.atWindow) (w := pwrWord on d) (pwrRequest d.toNat on) hw
    (by rw [hv]; decide) (by rw [hv]; decide) h (by decide) (by decide) at_PWR_REQ hlt (by decide) fun u => by
      show some (if bit (pwrWord on d) 31 then pwrRequest (bits (pwrWord on d) 0 5) (bit (pwrWord on d) 5) u else u) = _
      rw [h31, hidx, hon, if_pos rfl]
  exact ⟨u, hk, hrun⟩

theorem addWake_software (d cls : Nat) (s : State) : ∃ q ∈ (addWake d cls true s).pwr.reqs, q.d = d ∧ q.sw = true := by
  unfold addWake
  dsimp only
  split
  · next hany =>
    obtain ⟨q, hq, hd⟩ := List.any_eq_true.1 hany
    refine ⟨_, List.mem_map.2 ⟨q, hq, rfl⟩, ?_⟩
    rw [if_pos hd]
    exact ⟨beq_iff_eq.1 hd, Bool.or_true _⟩
  · exact ⟨_, List.mem_append_right _ (List.mem_singleton.2 rfl), rfl, rfl⟩

theorem addWake_st (d cls : Nat) (sw : Bool) (s : State) : (addWake d cls sw s).pwr.st = s.pwr.st := rfl

/-- A wake that software requests is among the requests, and moves no domain. -/
theorem wake_software {d cls : Nat} (h : s.dom d = 0 ∨ s.dom d = 3) : (wake d cls true s).pwr.st = s.pwr.st ∧
    ∃ q ∈ (wake d cls true s).pwr.reqs, q.d = d ∧ q.sw = true := by
  have hask (u : State) (hu : u.pwr.st = s.pwr.st) :
      (if u.dom d = 0 ∨ (u.dom d = 3 ∧ true = true) then addWake d cls true u else u) = addWake d cls true u :=
    if_pos (by rw [dom_congr hu]; exact h.imp id fun h3 => ⟨h3, rfl⟩)
  obtain ⟨v, hv, hst⟩ : ∃ v, wake d cls true s = addWake d cls true v ∧ v.pwr.st = s.pwr.st := by
    unfold wake
    dsimp only
    split
    · refine ⟨_, hask _ ?_, ?_⟩
      · split <;> rfl
      · split <;> rfl
    · exact ⟨s, hask s rfl, rfl⟩
  rw [hv]
  exact ⟨hst, addWake_software ..⟩

/-- What answers a request for a domain: the result and what the request has done. -/
theorem pwrRequest_on : ∃ u, pwrRequest d.toNat true s = pwrAnswer (if 23 < d.toNat then 5 else 0) d.toNat u ∧ Keeps [.pwr] s u ∧
    u.pwr.st = s.pwr.st ∧ (d.toNat ≤ 23 → s.dom d.toNat = 0 ∨ s.dom d.toNat = 3 → ∃ q ∈ u.pwr.reqs, q.d = d.toNat ∧ q.sw = true) ∧
    (23 < d.toNat ∨ (s.dom d.toNat ≠ 0 ∧ s.dom d.toNat ≠ 3) → u = s) := by
  unfold pwrRequest
  dsimp only
  by_cases h23 : 23 < d.toNat
  · rw [if_pos h23, if_pos h23]
    exact ⟨s, rfl, .refl, rfl, fun hle => absurd h23 (Nat.not_lt.2 hle), fun _ => rfl⟩
  · rw [if_neg h23, if_neg h23]
    by_cases hdown : s.dom d.toNat = 0 ∨ s.dom d.toNat = 3
    · obtain ⟨hst, hq⟩ := wake_software (cls := 1) hdown
      refine ⟨wake d.toNat 1 true s, ?_, wake_keeps .., hst, fun _ _ => hq, fun hno => ?_⟩
      · rw [if_pos rfl, if_pos hdown]
        rfl
      · rcases hno with hno | ⟨h0, h3⟩
        · exact absurd hno h23
        · exact absurd hdown (not_or.2 ⟨h0, h3⟩)
    · refine ⟨s, ?_, .refl, rfl, fun _ hd => absurd hd hdown, fun _ => rfl⟩
      rw [if_pos rfl, if_neg hdown]
      rfl

theorem pwrReqWake_does (ha : a.atPort = true) (h : lands s a 0xF560) : ∃ t, exec (.pwrReqWake a d) s = .next t ∧ t.out = [.reg a.via 0 none] ∧
    t.rd Reg.PWR_RES_RES = (if 23 < d.toNat then 5 else 0) ∧ t.rd Reg.PWR_RES_DOMAIN = d.toNat ∧ t.rd Reg.PWR_RES_VALID = 1 ∧ t.pwr.st = s.pwr.st ∧
    Keeps [.out, .regs, .pwr] s t ∧
    (d.toNat ≤ 23 → s.dom d.toNat = 0 ∨ s.dom d.toNat = 3 → ∃ q ∈ t.pwr.reqs, q.d = d.toNat ∧ q.sw = true) ∧
    (23 < d.toNat ∨ (s.dom d.toNat ≠ 0 ∧ s.dom d.toNat ≠ 3) → t.pwr = s.pwr) := by
  have hd := d.isLt
  obtain ⟨u, hk, hrun⟩ := pwrReq_runs (d := d) true ha h
  obtain ⟨v, hans, hkv, hst, hask, hnone⟩ := pwrRequest_on (s := u)
  have hup : u.pwr = s.pwr := hk.same .pwr (by decide)
  have hdom : u.dom d.toNat = s.dom d.toNat := dom_congr (congrArg PwrS.st hup) _
  rw [hans] at hrun
  rw [hdom] at hask hnone
  obtain ⟨w, hw⟩ : ∃ w, pwrAnswer (if 23 < d.toNat then 5 else 0) d.toNat v = w := ⟨_, rfl⟩
  have hres : (if 23 < d.toNat then 5 else 0) < 8 := by split <;> decide
  obtain ⟨hr, hdm, hvalid⟩ := pwrAnswer_rd hres hd v
  have hkw := pwrAnswer_keeps (if 23 < d.toNat then 5 else 0) d.toNat v
  rw [hw] at hrun hr hdm hvalid hkw
  have hall : Keeps [.regs, .pwr] s.bare w := ((hk.mono (by decide)).trans (hkv.mono (by decide))).trans (hkw.mono (by decide))
  have hpwr : ({ respond a true 0 none w with pending := s.pending } : State).pwr = v.pwr :=
    (answered_same (s := s) a .pwr (by decide) (by decide)).trans (hkw.same .pwr (by decide))
  refine ⟨_, hrun, port_out ha (hall.same .out (by decide)), (answered_rd a _).trans hr, (answered_rd a _).trans hdm, (answered_rd a _).trans hvalid,
    ?_, answered a hall, fun hle hdown => ?_, fun hno => ?_⟩
  · rw [hpwr, hst, hup]
  · rw [hpwr]
    exact hask hle hdown
  · rw [hpwr, hnone hno, hup]

/-- What a request to take a domain off answers. -/
def offResult (d : Nat) (s : State) : Nat :=
  if 23 < d then 5
  else if d = 22 then 1
  else if s.dom d = 0 ∨ s.dom d = 3 then 0
  else if 16 ≤ d ∧ d < 20 ∧ ((List.range 4).any fun j => s.dom (4 * (d - 16) + j) != 0) = true then 2
  else if d = 23 ∧ s.edw.sealed_ = true then 3
  else if s.dom d = 1 then 4
  else 0

theorem offResult_lt (d : Nat) (s : State) : offResult d s < 8 := by
  unfold offResult
  split_ifs <;> decide

theorem pwrRequest_off (d : Nat) (s : State) : ∃ u, pwrRequest d false s = pwrAnswer (offResult d s) d u ∧
    (s.dom d = 1 → u.pwr = s.pwr) ∧
    (s.dom d = 2 → d < 16 ∨ (20 ≤ d ∧ d ≠ 22 ∧ d ≤ 23 ∧ (d = 23 → s.edw.sealed_ = false)) → u.dom d = 0) := by
  unfold pwrRequest offResult
  dsimp only
  by_cases h23 : 23 < d
  · simp only [if_pos h23]
    exact ⟨s, rfl, fun _ => rfl, fun _ hd => by omega⟩
  by_cases h22 : d = 22
  · simp only [if_neg h23, if_neg Bool.false_ne_true, if_pos h22]
    exact ⟨s, rfl, fun _ => rfl, fun _ hd => by omega⟩
  by_cases h0 : s.dom d = 0 ∨ s.dom d = 3
  · simp only [if_neg h23, if_neg Bool.false_ne_true, if_neg h22, if_pos h0]
    exact ⟨s, rfl, fun _ => rfl, fun h2 _ => by omega⟩
  by_cases hregion : 16 ≤ d ∧ d < 20 ∧ ((List.range 4).any fun j => s.dom (4 * (d - 16) + j) != 0) = true
  · simp only [if_neg h23, if_neg Bool.false_ne_true, if_neg h22, if_neg h0, if_pos hregion]
    exact ⟨s, rfl, fun _ => rfl, fun _ hd => by omega⟩
  by_cases hseal : d = 23 ∧ s.edw.sealed_ = true
  · simp only [if_neg h23, if_neg Bool.false_ne_true, if_neg h22, if_neg h0, if_neg hregion, if_pos hseal]
    refine ⟨s, rfl, fun _ => rfl, fun _ hd => ?_⟩
    rcases hd with hd | ⟨-, -, -, hd⟩
    · omega
    · rw [hd hseal.1] at hseal
      cases hseal.2
  by_cases h1 : s.dom d = 1
  · simp only [if_neg h23, if_neg Bool.false_ne_true, if_neg h22, if_neg h0, if_neg hregion, if_neg hseal, if_pos h1]
    exact ⟨s, rfl, fun _ => rfl, fun h2 _ => by omega⟩
  · simp only [if_neg h23, if_neg Bool.false_ne_true, if_neg h22, if_neg h0, if_neg hregion, if_neg hseal, if_neg h1]
    exact ⟨dropDomain d 0 s, rfl, fun h => absurd h h1, fun _ hd => dropDomain_state (hd.imp id And.left) h22 (by decide) s⟩

end

end Sys2Proof.Machine

namespace Sys2Proof.Machine

set_option Elab.async false

section
variable {a : Access} {d : BitVec 5} {s : State}

theorem pwrReqOff_runs (ha : a.atPort = true) (h : lands s a 0xF560) : ∃ t, exec (.pwrReqOff a d) s = .next t ∧
    t.rd Reg.PWR_RES_DOMAIN = d.toNat ∧ t.rd Reg.PWR_RES_VALID = 1 ∧ t.rd Reg.PWR_RES_RES = offResult d.toNat s ∧
    (s.dom d.toNat = 1 → t.pwr = s.pwr) ∧
    (s.dom d.toNat = 2 → d.toNat < 16 ∨ (20 ≤ d.toNat ∧ d.toNat ≠ 22 ∧ d.toNat ≤ 23 ∧ (d.toNat = 23 → s.edw.sealed_ = false)) →
      t.dom d.toNat = 0) := by
  have hd := d.isLt
  obtain ⟨u, hk, hrun⟩ := pwrReq_runs (d := d) false ha h
  obtain ⟨v, hans, hone, htwo⟩ := pwrRequest_off d.toNat u
  have hup : u.pwr = s.pwr := hk.same .pwr (by decide)
  have hdom (k : Nat) : u.dom k = s.dom k := dom_congr (congrArg PwrS.st hup) k
  have hedw : u.edw = s.edw := hk.same .edw (by decide)
  have hoff : offResult d.toNat u = offResult d.toNat s := by
    unfold offResult
    simp only [hdom, hedw]
  rw [hans, hoff] at hrun
  rw [hdom] at hone htwo
  rw [hedw] at htwo
  obtain ⟨hr, hdm, hvalid⟩ := pwrAnswer_rd (offResult_lt d.toNat s) hd v
  have hkw := pwrAnswer_keeps (offResult d.toNat s) d.toNat v
  obtain ⟨w, hw⟩ : ∃ w, pwrAnswer (offResult d.toNat s) d.toNat v = w := ⟨_, rfl⟩
  rw [hw] at hrun hr hdm hvalid hkw
  have hpwr : ({ respond a true 0 none w with pending := s.pending } : State).pwr = v.pwr :=
    (answered_same (s := s) a .pwr (by decide) (by decide)).trans (hkw.same .pwr (by decide))
  refine ⟨_, hrun, (answered_rd a _).trans hdm, (answered_rd a _).trans hvalid, (answered_rd a _).trans hr, fun h1 => ?_, fun h2 hc => ?_⟩
  · rw [hpwr, hone h1, hup]
  · exact (dom_congr (congrArg PwrS.st hpwr) _).trans (htwo h2 hc)

theorem pwrReqOff_does (ha : a.atPort = true) (h : lands s a 0xF560) : ∃ t, exec (.pwrReqOff a d) s = .next t ∧ t.rd Reg.PWR_RES_DOMAIN = d.toNat ∧
    t.rd Reg.PWR_RES_VALID = 1 ∧ (23 < d.toNat → t.rd Reg.PWR_RES_RES = 5) ∧ (d.toNat = 22 → t.rd Reg.PWR_RES_RES = 1) ∧
    (d.toNat ≤ 23 → d.toNat ≠ 22 →
      (s.dom d.toNat = 0 ∨ s.dom d.toNat = 3 → t.rd Reg.PWR_RES_RES = 0) ∧
      (s.dom d.toNat = 1 ∨ s.dom d.toNat = 2 →
        (16 ≤ d.toNat → d.toNat < 20 → (∃ j < 4, s.dom (4 * (d.toNat - 16) + j) ≠ 0) → t.rd Reg.PWR_RES_RES = 2) ∧
        (d.toNat = 23 → s.edw.sealed_ = true → t.rd Reg.PWR_RES_RES = 3) ∧
        (d.toNat < 16 ∨ (20 ≤ d.toNat ∧ (d.toNat = 23 → s.edw.sealed_ = false)) →
          (s.dom d.toNat = 1 → t.rd Reg.PWR_RES_RES = 4 ∧ t.pwr = s.pwr) ∧
          (s.dom d.toNat = 2 → t.rd Reg.PWR_RES_RES = 0 ∧ t.dom d.toNat = 0)))) := by
  obtain ⟨t, hrun, hdm, hvalid, hres, hone, htwo⟩ := pwrReqOff_runs (d := d) ha h
  refine ⟨t, hrun, hdm, hvalid, fun h23 => ?_, fun h22 => ?_, fun h23 h22 => ⟨fun h0 => ?_, fun hup => ⟨fun hlo hhi hj => ?_,
    fun h23' hs => ?_, fun hc => ?_⟩⟩⟩
  · rw [hres, offResult, if_pos h23]
  · rw [hres, offResult, if_neg (by omega), if_pos h22]
  · rw [hres, offResult, if_neg (by omega), if_neg h22, if_pos h0]
  · obtain ⟨j, hj4, hj⟩ := hj
    rw [hres, offResult, if_neg (by omega), if_neg h22, if_neg (by omega),
      if_pos ⟨hlo, hhi, List.any_eq_true.2 ⟨j, List.mem_range.2 hj4, bne_iff_ne.2 hj⟩⟩]
  · rw [hres, offResult, if_neg (by omega), if_neg h22, if_neg (by omega), if_neg (by omega), if_pos ⟨h23', hs⟩]
  · have hseal : ¬ (d.toNat = 23 ∧ s.edw.sealed_ = true) := fun ⟨h, hs⟩ => by
      rcases hc with hc | ⟨-, hc⟩
      · omega
      · rw [hc h] at hs
        cases hs
    have hlast : t.rd Reg.PWR_RES_RES = if s.dom d.toNat = 1 then 4 else 0 := by
      rw [hres, offResult, if_neg (by omega), if_neg h22, if_neg (by omega), if_neg (by omega), if_neg hseal]
    refine ⟨fun h1 => ⟨by rw [hlast, if_pos h1], hone h1⟩, fun h2 => ⟨by rw [hlast, if_neg (by omega)], htwo h2 ?_⟩⟩
    exact hc.imp id fun ⟨h20, hs⟩ => ⟨h20, h22, h23, hs⟩

-- PWR_REQ of the host gate (R474)

/-- The result of PWR_REQ at the host gate. -/
def hostAnswer (res d : Nat) (s : State) : State := ((s.wr Reg.H_PWR_RES_RES res).wr Reg.H_PWR_RES_DOMAIN d).raise Reg.H_PWR_RES_VALID

theorem hostAnswer_rd {res d : Nat} (hr : res < 8) (hd : d < 32) (s : State) : (hostAnswer res d s).rd Reg.H_PWR_RES_RES = res ∧
    (hostAnswer res d s).rd Reg.H_PWR_RES_DOMAIN = d ∧ (hostAnswer res d s).rd Reg.H_PWR_RES_VALID = 1 := by
  unfold hostAnswer State.raise
  refine ⟨?_, ?_, State.rd_wr_same ..⟩
  · rw [State.rd_wr_ne _ _ (by decide), State.rd_wr_ne _ _ (by decide), State.rd_wr_same]
    exact Nat.mod_eq_of_lt hr
  · rw [State.rd_wr_ne _ _ (by decide), State.rd_wr_same]
    exact Nat.mod_eq_of_lt hd

theorem hostAnswer_keeps (res d : Nat) (s : State) : Keeps [.regs] s (hostAnswer res d s) := by
  unfold hostAnswer
  exact Keeps.step (State.raise_keeps ..) (by decide) (Keeps.step (State.wr_keeps ..) (by decide) (State.wr_keeps ..))

/-- The place of PWR_REQ of the host gate. -/
abbrev spotHostPwr : Spot := ⟨row_H_PWR_REQ, 0, 0, 0x10F560, .active⟩

/-- A write of PWR_REQ at the host gate whose answer and effect are known. -/
theorem hostPwr_does {on : Bool} {res : Nat} (ha : a.via = .bar0) (h : lands s a 0xF560) (hr : res < 8) {f : State → State}
    (hreq : ∀ u, u.gate = s.gate → hostPwrRequest d.toNat on u = hostAnswer res d.toNat (f u)) (hf : ∀ u, Keeps [.regs, .gate] u (f u)) :
    ∃ t u, u.gate = s.gate ∧ doWrite a.atWindow a 0xF560 (pwrWord on d) s = .next t ∧ t.out = [] ∧ t.rd Reg.H_PWR_RES_RES = res ∧
      t.rd Reg.H_PWR_RES_DOMAIN = d.toNat ∧ t.rd Reg.H_PWR_RES_VALID = 1 ∧ t.gate = (f u).gate ∧ Keeps [.out, .regs, .gate] s t := by
  obtain ⟨h31, hidx, hon, hlt⟩ := pwrWord_bits on d
  have hw : a.atWindow = true := by
    unfold Access.atWindow
    rw [ha]
    rfl
  have hhost : a.host = true := by
    unfold Access.host
    rw [ha]
    rfl
  obtain ⟨hk, -, -⟩ := putFields_does (p := spotHostPwr) (findReg_mem at_H_PWR_REQ) (by decide) (by decide) (by decide) (pwrWord on d) s.bare
  obtain ⟨u, hu⟩ : ∃ u, putFields spotHostPwr (pwrWord on d) s.bare = u := ⟨_, rfl⟩
  rw [hu] at hk
  have hg : u.gate = s.gate := hk.same .gate (by decide)
  have hrun : doWrite a.atWindow a 0xF560 (pwrWord on d) s =
      .next { respond a true 0 none (hostAnswer res d.toNat (f u)) with pending := s.pending } := by
    refine runWf_eq hw (writeReg_active (p := spotHostPwr) (bare_lands h) (by rw [ha]; exact locate_host (by decide) at_H_PWR_REQ) rfl hlt rfl
      (by decide) (by decide) (by decide) (by decide) ?_)
    show some (if bit (pwrWord on d) 31 then hostPwrRequest (bits (pwrWord on d) 0 5) (bit (pwrWord on d) 5)
      (putFields spotHostPwr (pwrWord on d) s.bare) else putFields spotHostPwr (pwrWord on d) s.bare) = _
    rw [h31, hidx, hon, if_pos rfl, hu, hreq u hg]
  obtain ⟨hres, hdm, hvalid⟩ := hostAnswer_rd hr d.isLt (f u)
  have hans := hostAnswer_keeps res d.toNat (f u)
  have hall : Keeps [.regs, .gate] s.bare (hostAnswer res d.toNat (f u)) := ((hk.mono (by decide)).trans (hf u)).trans (hans.mono (by decide))
  refine ⟨_, u, hg, hrun, ?_, (answered_rd a _).trans hres, (answered_rd a _).trans hdm, (answered_rd a _).trans hvalid, ?_, answered a hall⟩
  · rw [answered_out a (hall.same .out (by decide)), hhost]
    rfl
  · exact answered_gate.trans (hans.same .gate (by decide))

/-- The wake of the host gate's own domain is asked for where it is down. -/
def hostAsk (d : Nat) (s : State) : State :=
  if d = 3 ∧ (s.gate.pwrE = 0 ∨ s.gate.pwrE = 3) then { s with gate := { s.gate with pwrReq := true } } else s

theorem hostPwrRequest_on {d : Nat} (u : State) : hostPwrRequest d true u = hostAnswer (if 3 < d then 5 else 0) d (hostAsk d u) := by
  unfold hostPwrRequest hostAsk
  dsimp only
  by_cases h3 : 3 < d
  · rw [if_pos h3, if_pos h3, if_neg (by omega)]
    rfl
  · rw [if_neg h3, if_neg h3]
    by_cases hlt : d < 3
    · rw [if_pos hlt, if_pos rfl, if_neg (fun h => by omega)]
      rfl
    · rw [if_neg hlt, if_pos rfl]
      have hd : d = 3 := by omega
      simp only [hd, true_and]
      rfl

/-- The host gate's own domain goes off where it is ON. -/
def hostCut (d : Nat) (s : State) : State := if d = 3 ∧ s.gate.pwrE = 2 then hostEdwDrop 0 s else s

theorem hostPwrRequest_off {d : Nat} (u : State) :
    hostPwrRequest d false u = hostAnswer (if 3 < d then 5 else if d < 3 then 1 else if u.gate.pwrE = 1 then 4 else 0) d (hostCut d u) := by
  unfold hostPwrRequest hostCut
  dsimp only
  by_cases h3 : 3 < d
  · rw [if_pos h3, if_pos h3, if_neg (by omega)]
    rfl
  · rw [if_neg h3, if_neg h3]
    by_cases hlt : d < 3
    · rw [if_pos hlt, if_pos hlt, if_neg Bool.false_ne_true, if_neg (fun h => by omega)]
      rfl
    · rw [if_neg hlt, if_neg hlt, if_neg Bool.false_ne_true]
      have hd : d = 3 := by omega
      by_cases h1 : u.gate.pwrE = 1
      · rw [if_pos h1, if_pos h1, if_neg fun ⟨_, h2⟩ => absurd (h1.symm.trans h2) (by decide)]
        rfl
      · rw [if_neg h1, if_neg h1]
        by_cases h2 : u.gate.pwrE = 2
        · rw [if_pos h2, if_pos ⟨hd, h2⟩]
          rfl
        · rw [if_neg h2, if_neg (fun h => h2 h.2)]
          rfl

theorem hostWake_does (ha : a.via = .bar0) (h : lands s a 0xF560) : ∃ t, exec (.pwrReqWake a d) s = .next t ∧ t.out = [] ∧
    t.rd Reg.H_PWR_RES_RES = (if 3 < d.toNat then 5 else 0) ∧ t.rd Reg.H_PWR_RES_DOMAIN = d.toNat ∧ t.rd Reg.H_PWR_RES_VALID = 1 ∧
    Keeps [.out, .regs, .gate] s t ∧
    (d.toNat = 3 → s.gate.pwrE = 0 ∨ s.gate.pwrE = 3 → t.gate = { s.gate with pwrReq := true }) ∧
    (d.toNat ≠ 3 ∨ (s.gate.pwrE ≠ 0 ∧ s.gate.pwrE ≠ 3) → t.gate = s.gate) := by
  obtain ⟨t, u, hu, hrun, hout, hres, hdm, hvalid, hg, hk⟩ := hostPwr_does (d := d) (on := true) (f := hostAsk d.toNat) ha h
    (res := if 3 < d.toNat then 5 else 0) (by split <;> decide) (fun u _ => hostPwrRequest_on u) fun u => by
      unfold hostAsk
      split
      · exact Keeps.refl.gate (by decide)
      · exact .refl
  refine ⟨t, hrun, hout, hres, hdm, hvalid, hk, fun h3 hdown => ?_, fun hno => ?_⟩
  · have hask : hostAsk d.toNat u = { u with gate := { u.gate with pwrReq := true } } := if_pos ⟨h3, by rw [hu]; exact hdown⟩
    rw [hg, hask, ← hu]
  · have hask : hostAsk d.toNat u = u := by
      refine if_neg fun ⟨h3, hdown⟩ => ?_
      rw [hu] at hdown
      rcases hno with hno | ⟨h0, h3'⟩
      · exact hno h3
      · exact hdown.elim h0 h3'
    rw [hg, hask, hu]

theorem hostOff_does (ha : a.via = .bar0) (h : lands s a 0xF560) : ∃ t, exec (.pwrReqOff a d) s = .next t ∧ t.out = [] ∧
    t.rd Reg.H_PWR_RES_DOMAIN = d.toNat ∧ t.rd Reg.H_PWR_RES_VALID = 1 ∧
    t.rd Reg.H_PWR_RES_RES = (if 3 < d.toNat then 5 else if d.toNat < 3 then 1 else if s.gate.pwrE = 1 then 4 else 0) ∧
    Keeps [.out, .regs, .gate] s t ∧
    (d.toNat = 3 → s.gate.pwrE = 2 → t.gate = { s.gate with pwrE := 0, pwrGood := false, mirror := [], sealSeen := false }) ∧
    (d.toNat ≠ 3 ∨ s.gate.pwrE ≠ 2 → t.gate = s.gate) := by
  obtain ⟨t, u, hu, hrun, hout, hres, hdm, hvalid, hg, hk⟩ := hostPwr_does (d := d) (on := false) (f := hostCut d.toNat) ha h
    (res := if 3 < d.toNat then 5 else if d.toNat < 3 then 1 else if s.gate.pwrE = 1 then 4 else 0) (by split_ifs <;> decide)
    (fun u hu => by rw [hostPwrRequest_off, hu]) fun u => by
      unfold hostCut
      split
      · exact hostEdwDrop_keeps ..
      · exact .refl
  refine ⟨t, hrun, hout, hdm, hvalid, hres, hk, fun h3 h2 => ?_, fun hno => ?_⟩
  · have hcut : hostCut d.toNat u = hostEdwDrop 0 u := if_pos ⟨h3, by rw [hu]; exact h2⟩
    rw [hg, hcut, ← hu]
    rfl
  · have hcut : hostCut d.toNat u = u := by
      refine if_neg fun ⟨h3, h2⟩ => ?_
      rw [hu] at h2
      exact hno.elim (fun h => h h3) fun h => h h2
    rw [hg, hcut, hu]

-- SLEEP_CTRL.GO (R459)

theorem sleepOk_stored {u : State} (hk : Keeps [.regs] s.bare u) : sleepOk u = sleepOk s := by
  unfold sleepOk State.dom
  rw [hk.same .pwr (by decide), hk.same .img (by decide), hk.same .lock (by decide), hk.same .time (by decide)]
  rfl

theorem sleepGo_does (ha : a.atPort = true) (h : lands s a 0xF580) :
    (sleepOk s = true → ∃ t, exec (.sleepGo a) s = .next t ∧ t.out = [.reg a.via 0 none] ∧ t.time = { s.time with sleep := .entering } ∧
      Keeps [.out, .regs, .time] s t) ∧
    (sleepOk s = false → ∃ t, exec (.sleepGo a) s = .next t ∧ t.out = [.reg a.via 0 (some 6)] ∧ Keeps [.out, .regs] s t) := by
  have hv : a.via = .port := beq_iff_eq.1 ha
  have hp : locate s.bare a.via 0xF580 = some ⟨row_SLEEP_CTRL, 0, 0, 0xF580, .active⟩ :=
    locate_field (by rw [hv]; decide) (by rw [hv]; decide) (by decide) (by decide) at_SLEEP_CTRL
  obtain ⟨hk, -, -⟩ := putFields_does (p := ⟨row_SLEEP_CTRL, 0, 0, 0xF580, .active⟩) (findReg_mem at_SLEEP_CTRL) rfl nofun nofun 1 s.bare
  obtain ⟨u, hu⟩ : ∃ u, putFields ⟨row_SLEEP_CTRL, 0, 0, 0xF580, .active⟩ 1 s.bare = u := ⟨_, rfl⟩
  rw [hu] at hk
  have hok := sleepOk_stored hk
  have heff : (effect1 a ⟨row_SLEEP_CTRL, 0, 0, 0xF580, .active⟩ 1 s.bare u).bind (effect2 ⟨row_SLEEP_CTRL, 0, 0, 0xF580, .active⟩ 1 s.bare) =
      if sleepOk u then some { u with time := { u.time with sleep := .entering } } else none := rfl
  refine ⟨fun hyes => ?_, fun hno => ?_⟩
  · have hall : Keeps [.regs, .time] s.bare { u with time := { u.time with sleep := .entering } } := by
      have h0 : Keeps [.regs, .time] s.bare u := hk.mono (by decide)
      exact h0.time (by decide)
    refine ⟨_, spot_write ha h hp rfl (by decide) (by decide) nofun nofun (by decide) (by decide)
      (by rw [hu, heff, hok, hyes, if_pos rfl]), port_out ha (hall.same .out (by decide)), ?_, answered a hall⟩
    refine (answered_same (s := s) a .time (by decide) (by decide)).trans ?_
    exact congrArg (fun x : TimeS => { x with sleep := .entering }) (hk.same .time (by decide))
  · obtain ⟨hout, hkeep⟩ := refused_does (s := s) a 0xF580 ha
    exact ⟨_, spot_refused ha h hp rfl (by decide) (by decide) nofun nofun (by decide) (by decide)
      (by rw [hu, heff, hok, hno, if_neg Bool.false_ne_true]), hout, hkeep⟩

end

/-- Settles O54: PWR_REQ of a field die and of the host gate, and the entry into deep sleep. -/
theorem powerWrites : Obligations.PowerWrites :=
  ⟨fun _ _ _ ha h => ⟨pwrReqWake_does ha h, pwrReqOff_does ha h⟩, fun _ _ _ ha h => ⟨hostWake_does ha h, hostOff_does ha h⟩,
    fun _ _ ha h => sleepGo_does ha h⟩

end Sys2Proof.Machine

namespace Sys2Proof.Machine

set_option Elab.async false

-- INJ of TEST_CTRL (R509, R510)

/-- A die under test whose LTEST holds 2, more than its one bit: its word shows LTEST at 0, yet the flag stands. -/
def overfullTest : State where
  pins := { testEn := true }
  su := { phase := 6, open_ := true }
  regs := [(Reg.TEST_CTRL_TMODE.key, 1), (Reg.TEST_CTRL_LTEST.key, 2)]

/-- A debug access of the whole word. -/
def testAccess : Access where
  via := .port
  mid := 0
  dbg := true
  be := 0xF

/-- The place of TEST_CTRL. -/
abbrev spotTestCtrl : Spot := ⟨row_TEST_CTRL, 0, 0, 0x20060, .active⟩

theorem overfullTest_lands : lands overfullTest testAccess 0x20060 := by
  have hp : locate overfullTest testAccess.via 0x20060 = some spotTestCtrl :=
    locate_field (by decide) (by decide) (by decide) (by decide) at_TEST_CTRL
  refine ⟨by decide, ?_, by decide, by decide⟩
  unfold writeCause
  rw [hp]
  decide

theorem overfullTest_word : presentRW overfullTest 0x20060 = 1025 := by
  unfold presentRW
  rw [at_TEST_CTRL]
  decide

/-- The write that injects a message for output 0 ends the pattern test. -/
theorem overfullTest_ends : (testCtrlWrite 1027 overfullTest.bare).map (fun u => u.lnk.isEmpty) = some false := by decide +kernel

theorem overfullTest_injects : ∃ u, u.lnk.isEmpty = false ∧
    exec (.testInject testAccess 0) overfullTest = .next { respond testAccess true 0 none u with pending := overfullTest.pending } := by
  obtain ⟨u, hu, hlnk⟩ := Option.map_eq_some_iff.1 overfullTest_ends
  refine ⟨u, hlnk, ?_⟩
  have hp : locate overfullTest.bare testAccess.via 0x20060 = some spotTestCtrl :=
    locate_field (by decide) (by decide) (by decide) (by decide) at_TEST_CTRL
  show doWrite testAccess.atPort testAccess 0x20060 (changedWord (presentRW overfullTest 0x20060) 0x7C 2) overfullTest = _
  rw [overfullTest_word]
  exact spot_write rfl overfullTest_lands hp rfl (by decide) (by decide) nofun nofun (by decide) (by decide) hu

/-- Refutes O55: an LTEST that holds more than its one bit shows as 0, and the write of INJ then ends the pattern test, which moves the lanes
of the port, outside what the statement lets INJ change. -/
theorem not_traceAndTestWrites : ¬ Obligations.TraceAndTestWrites := by
  rintro ⟨-, -, hinject, -⟩
  have hbit : bit (presentRW overfullTest 0x20060) 9 = false := by
    rw [overfullTest_word]
    decide
  obtain ⟨t, e, hrun, -, -, -, -, -, -, hk⟩ := (hinject testAccess 0 overfullTest rfl overfullTest_lands hbit).1 (by decide) (by decide) (by decide)
  obtain ⟨u, hlnk, hinj⟩ := overfullTest_injects
  rw [hinj] at hrun
  injection hrun with ht
  have hempty : t.lnk.isEmpty = true := by
    rw [hk.same .lnk (by decide)]
    rfl
  have hsame : t.lnk = u.lnk := ht ▸ answered_same (s := overfullTest) testAccess .lnk (by decide) (by decide)
  rw [hsame, hlnk] at hempty
  cases hempty

end Sys2Proof.Machine

namespace Sys2Proof.Machine

set_option Elab.async false

-- reads of the register port (R480, R483, R485)

section
variable {a : Access} {addr : Nat} {s : State} {p : Spot} {c : Nat} {ecc : Ecc}

theorem readReg_closed (h : portOpen s a = false) (ecc : Ecc) : readReg a addr ecc s = s := by
  unfold readReg
  rw [h]
  rfl

theorem readReg_turned (h : portOpen s a = true) (hc : readCause s a addr = some c) (ecc : Ecc) :
    readReg a addr ecc s = busError a addr c false s := by
  unfold readReg
  rw [if_neg (by rw [h]; decide), hc]

/-- R480 knows the causes 0, 1, 2 and 6 of a read. -/
theorem readCause_lt (h : readCause s a addr = some c) : c < 8 := by
  unfold readCause at h
  split at h
  · cases h; decide
  · split at h
    · cases h; decide
    · split at h
      · cases h; decide
      · split at h
        · cases h; decide
        · split at h
          · cases h; decide
          · exact nomatch h

/-- The state that a read with a check that failed leaves at once: a word of these two rows alone notes it. -/
theorem checked_plain {α : Type} {x y z : α} {island : Bool} (h : p.row.id = .BANK ∨ p.row.id = .TRACE_DATA → ecc ≠ .uncorrectable) :
    (if p.row.id == .BANK && ecc == .uncorrectable then x
      else if p.row.id == .TRACE_DATA && ecc == .uncorrectable && island then y else z) = z := by
  have hbank : ¬(p.row.id == .BANK && ecc == .uncorrectable) = true := by
    rw [Bool.and_eq_true, beq_iff_eq, beq_iff_eq]
    exact fun hx => h (.inl hx.1) hx.2
  have htrace : ¬(p.row.id == .TRACE_DATA && ecc == .uncorrectable && island) = true := by
    rw [Bool.and_eq_true, Bool.and_eq_true, beq_iff_eq, beq_iff_eq]
    exact fun hx => h (.inr hx.1.1) hx.1.2
  rw [if_neg hbank, if_neg htrace]

theorem readActs_checked (h : p.row.id ∉ readActs) : p.row.id = .BANK ∨ p.row.id = .TRACE_DATA → ecc ≠ .uncorrectable := by
  rintro (hid | hid)
  · exact absurd (by rw [hid]; decide) h
  · exact absurd (by rw [hid]; decide) h

/-- A read of a word whose check notes nothing. -/
theorem readReg_answers (h : reaches s a addr) (hp : locate s a.via addr = some p) (hv : p.view = .active)
    (hecc : p.row.id = .BANK ∨ p.row.id = .TRACE_DATA → ecc ≠ .uncorrectable) :
    readReg a addr ecc s = respond a false (BitVec.ofNat 32 (readWord s a p ecc)) none
      (if a.debug || !islandOn s p then s else readEffect a p ecc (clearRC p s)) := by
  rw [readReg_reaches h hp hv]
  dsimp only
  rw [checked_plain hecc]

theorem respond_read (v : Word) (e : Option Nat) (s : State) : respond a false v e s = s.emit (.reg a.via v e) := by
  unfold respond
  rw [Bool.and_false]
  rfl

/-- The state that a read of a word without an effect of its own leaves, but for the response. -/
def readCleared (s : State) (p : Spot) : State := if islandOn s p then clearRC p s else s

theorem readCleared_on (h : islandOn s p = true) : readCleared s p = clearRC p s := if_pos h

theorem readCleared_keeps (hm : p.row ∈ regRows) : Keeps [.regs] s (readCleared s p) :=
  Keeps.ite (clearRC_does hm s).1 Keeps.refl

theorem readCleared_rd (hm : p.row ∈ regRows) {g : Fld} (hg : ∀ f ∈ p.row.flds, f.acc = .rc → g.key ≠ (f.at p.off).key) :
    (readCleared s p).rd g = s.rd g := by
  unfold readCleared
  split
  · exact (clearRC_does hm s).2.2 g hg
  · rfl

theorem readReg_plain (h : reaches s a addr) (hp : locate s a.via addr = some p) (hv : p.view = .active) (hd : a.debug = false)
    (hid : p.row.id ∉ readActs) : readReg a addr ecc s =
      (readCleared s p).emit (.reg a.via (BitVec.ofNat 32 (if islandOn s p then wordOf p.row.flds (fieldValue s (live s a.master p) p)
        else wordOf p.row.flds (resetVal p))) none) := by
  rw [readReg_answers h hp hv (readActs_checked hid), respond_read, readWord_plain s a ecc hid, hd, readEffect_none a ecc _ hid]
  unfold readCleared
  cases islandOn s p <;> rfl

end

section
variable {a : Access} {addr : BitVec 20} {ecc : Ecc} {s : State} {p : Spot}

/-- A read that R480 turns away: its response, and BUSERR. -/
theorem registerRead_turned {c : Nat} (ha : a.inBlock addr.toNat = true) (ho : portOpen s a = true) (hc : readCause s a addr.toNat = some c) :
    ∃ t, exec (.registerRead a addr ecc) s = .next t ∧ t.out = [.reg a.via 0 (some c)] ∧ Keeps [.out, .regs] s t ∧
      (a.host = false → t.rd Reg.BUSERR_OFFSET = addr.toNat ∧ t.rd Reg.BUSERR_CAUSE = c ∧ t.rd Reg.BUSERR_VALID = 1) := by
  obtain ⟨hk, hout, hbus⟩ := busError_does a addr.toNat c false s.bare (readCause_lt hc)
  refine ⟨_, runWf_eq ha (readReg_turned (s := s.bare) ho hc ecc), ?_, hk.bare (by decide), fun hh => ?_⟩
  · rw [Bool.and_false] at hout
    exact hout
  · obtain ⟨hoff, hcause, hvalid⟩ := hbus hh
    rw [Nat.mod_eq_of_lt addr.isLt] at hoff
    exact ⟨hoff, hcause, hvalid⟩

/-- A debug read answers, and leaves the rest. -/
theorem registerRead_debug (ha : a.inBlock addr.toNat = true) (h : reaches s a addr.toNat) (hp : locate s a.via addr.toNat = some p)
    (hv : p.view = .active) (hd : a.debug = true) (hecc : p.row.id = .BANK ∨ p.row.id = .TRACE_DATA → ecc ≠ .uncorrectable) :
    exec (.registerRead a addr ecc) s = .next { s with out := [.reg a.via (BitVec.ofNat 32 (readWord s a p ecc)) none] } := by
  refine runWf_eq ha (t := s.bare.emit (.reg a.via (BitVec.ofNat 32 (readWord s a p ecc)) none)) ?_
  rw [readReg_answers (bare_reaches h) hp hv hecc, respond_read, readWord_bare, hd]
  rfl

/-- A read of a word without an effect of its own answers, and clears the RC fields where the island is on. -/
theorem registerRead_plain (ha : a.inBlock addr.toNat = true) (h : reaches s a addr.toNat) (hp : locate s a.via addr.toNat = some p)
    (hv : p.view = .active) (hd : a.debug = false) (hid : p.row.id ∉ readActs) : ∃ t, exec (.registerRead a addr ecc) s = .next t ∧
      t.out = [.reg a.via (BitVec.ofNat 32 (if islandOn s p then wordOf p.row.flds (fieldValue s (live s a.master p) p)
        else wordOf p.row.flds (resetVal p))) none] ∧ Keeps [.out, .regs] s t ∧
      (islandOn s p = true → ∀ f ∈ p.row.flds, f.acc = .rc → t.rd (f.at p.off) = 0) ∧
      (∀ g : Fld, (∀ f ∈ p.row.flds, f.acc = .rc → g.key ≠ (f.at p.off).key) → t.rd g = s.rd g) := by
  have hm : p.row ∈ regRows := locate_mem hp
  obtain ⟨hout, hkeep⟩ := emit_keeps (.reg a.via (BitVec.ofNat 32 (if islandOn s p then
    wordOf p.row.flds (fieldValue s (live s a.master p) p) else wordOf p.row.flds (resetVal p))) none) (readCleared_keeps (s := s.bare) hm)
  refine ⟨_, runWf_eq ha (readReg_plain (bare_reaches h) hp hv hd hid), hout, hkeep, fun hon f hf hrc => ?_, fun g hg => ?_⟩
  · exact (congrArg (State.rd · (f.at p.off)) (readCleared_on (s := s.bare) hon)).trans ((clearRC_does hm s.bare).2.1 f hf hrc)
  · exact readCleared_rd (s := s.bare) hm hg

end

/-- Settles O47: what turns a read away, what a debug read leaves, and what any other read clears. -/
theorem registerReads : Obligations.RegisterReads := by
  refine ⟨fun a addr ecc s ha => ⟨fun hclosed => ?_, fun c ho hc => registerRead_turned ha ho hc⟩,
    fun a addr ecc s p ha h hp hv => ⟨fun hd hecc => registerRead_debug ha h hp hv hd hecc,
      fun hd hid => registerRead_plain ha h hp hv hd hid⟩⟩
  exact runWf_eq ha (readReg_closed (s := s.bare) hclosed ecc)

end Sys2Proof.Machine

namespace Sys2Proof.Machine

set_option Elab.async false

-- the reads with an effect of their own (R153, R177, R190, R321, R408, R449, R502)

section
variable {w : List Part} {a : Access} {addr : Nat} {s : State} {p : Spot}

/-- A read of a word: its response, what it keeps, and where the rest of the next state comes from. -/
theorem doRead_does {ok : Bool} (ho : ok = true) (h : reaches s a addr) (hp : locate s a.via addr = some p) (hv : p.view = .active)
    (hn : p.row.id ≠ .BANK) (hk : Keeps w s.bare (readLeaves s.bare a p)) (hout : Part.out ∉ w := by decide) :
    ∃ t, doRead ok a addr s = .next t ∧ t.out = [.reg a.via (BitVec.ofNat 32 (readWord s a p .clean)) none] ∧
      Keeps (.out :: w) s t ∧ Keeps [.out, .pending] (readLeaves s.bare a p) t := by
  obtain ⟨hanswer, hkeep⟩ := emit_keeps (.reg a.via (BitVec.ofNat 32 (readWord s.bare a p .clean)) none) hk hout
  refine next_of (doRead_eq ho h hp hv hn) ⟨hanswer.trans (by rw [readWord_bare]), hkeep, ⟨fun q hq => ?_⟩⟩
  cases q <;> first | rfl | exact absurd (by decide) hq

theorem port_locate {r : RegRow} {i j : Nat} (ha : a.atPort = true) (hl : addr < 0x30000) (hb : addr / 0x20 ≠ 0x7B0)
    (hf : findReg addr = some (r, i, j)) : locate s a.via addr = some ⟨r, i, j, addr, .active⟩ :=
  locate_field (by rw [port_of ha]; decide) (by rw [port_of ha]; decide) hl hb hf

theorem readLeaves_debug (h : a.debug = true) : readLeaves s a p = s := by
  unfold readLeaves
  rw [h]
  rfl

theorem readLeaves_acts (h : a.debug = false) (hi : islandOn s p = true) : readLeaves s a p = readEffect a p .clean (clearRC p s) := by
  unfold readLeaves
  rw [h, hi]
  rfl

/-- The response of a word that is one field and follows the machine's state. -/
theorem live_word {m x : Nat} (hf : p.row.flds = [⟨0, 32, .ro, 0⟩]) (hl : live s m p = [(0, loWord x)]) :
    BitVec.ofNat 32 (wordOf p.row.flds (fieldValue s (live s m p) p)) = BitVec.ofNat 32 x := by
  have hv : wordOf p.row.flds (fieldValue s (live s m p) p) = wordOf [⟨0, 32, .ro, 0⟩] (fun _ => loWord x % 2 ^ 32) := by
    rw [hf, hl]
    rfl
  rw [hv, wordOf_one, ofNat_mod32]
  exact ofNat_mod32 x

end

-- latches of high words

theorem latched_latchWord_same {off mid v : Nat} (h : v < 2 ^ 32) (s : State) : latched (latchWord off mid v s) off mid = v := by
  unfold latched latchWord
  dsimp only
  rw [tget_tset_same, BitVec.toNat_ofNat, Nat.mod_eq_of_lt h]

theorem latched_latchWord_ne {off off' mid mid' v : Nat} (h : 16 * off' + mid' ≠ 16 * off + mid) (s : State) :
    latched (latchWord off mid v s) off' mid' = latched s off' mid' := by
  unfold latched latchWord
  dsimp only
  rw [tget_tset_ne _ _ _ _ h]

theorem hiWord_lt (x : Nat) : hiWord x < 2 ^ 32 := Nat.mod_lt _ (by decide)

theorem latched_time {s t : State} (h : t.time = s.time) (off mid : Nat) : latched t off mid = latched s off mid := by
  unfold latched
  rw [h]

section
variable {a : Access} {s : State}

-- CLAIM (R153)

/-- The place of the CLAIM of core n. -/
abbrev spotClaim (n : Nat) : Spot := ⟨row_CLAIM, n, 0, 0x3000 + 0x40 * n, .active⟩

theorem readWord_claim {n : Nat} (hn : n < 64) (hi : islandOn s (spotClaim n) = true) (ecc : Ecc) :
    readWord s a (spotClaim n) ecc = claimValue s n % 2 ^ 32 := by
  rw [readWord_live s a (p := spotClaim n) nofun nofun nofun hi]
  refine Eq.trans (wordOf_congr (v' := fun f => bits (claimValue s n) f.lo f.w % 2 ^ f.w) fun f hf => ?_) ?_
  · rw [live_field s _ (by show 0x3000 + 0x40 * n < 0x100000; omega)]
    simp only [List.mem_cons, List.not_mem_nil, or_false] at hf
    rcases hf with rfl | rfl | rfl | rfl | rfl | rfl | rfl | rfl <;> rfl
  · have htiles := wordOf_tiles (claimValue s n) row_CLAIM.flds 0 (b := 32) rfl
    rw [pow_zero, Nat.mod_one, Nat.zero_add] at htiles
    exact htiles

/-- A read of CLAIM by the register port clears the fields as they stand, and claims nothing. -/
theorem claim_leaves {n : Nat} (hv : a.via = .port) (s : State) : Keeps [.regs] s (readLeaves s a (spotClaim n)) := by
  refine readLeaves_keeps ?_
  have heffect (u : State) : readEffect a (spotClaim n) .clean u = u := by
    unfold readEffect
    rw [hv]
  rw [heffect]
  exact each_wr_keeps (0x3000 + 0x40 * n) (fun _ => 0) _ s

theorem claimPeek_answers (n : Fin 64) (ha : a.atPort = true) (h : reaches s a (coreBlock n)) (hon : s.on (n / 4) = true) :
    ∃ t, exec (.claimPeek a n) s = .next t ∧ t.out = [.reg a.via (BitVec.ofNat 32 (claimValue s n)) none] ∧ Keeps [.out, .regs] s t := by
  have hp : locate s a.via (coreBlock n) = some (spotClaim n) :=
    port_locate ha (by unfold coreBlock; omega) (by unfold coreBlock; omega) (at_CLAIM n n.isLt)
  obtain ⟨t, ht, hout, hkeep, -⟩ := doRead_does ha h hp rfl nofun (claim_leaves (port_of ha) s.bare)
  refine ⟨t, ht, ?_, hkeep⟩
  rw [hout, readWord_claim n.isLt (s := s) hon, ofNat_mod32]

-- TIME_LO of the two instances (R177, R391)

/-- The places of TIME_LO. -/
abbrev spotTime : Spot := ⟨row_TIME_LO, 0, 0, 0x1000, .active⟩
abbrev spotHostTime : Spot := ⟨row_H_TIME_LO, 0, 0, 0x101000, .active⟩

theorem time_leaves (s : State) : Keeps [.time] s (readLeaves s a spotTime) := readLeaves_keeps (latchWord_keeps ..)
theorem hostTime_leaves (s : State) : Keeps [.time] s (readLeaves s a spotHostTime) := readLeaves_keeps (latchWord_keeps ..)

/-- A read that latches leaves the count. -/
theorem time_count (s : State) : (readLeaves s a spotTime).time.now = s.time.now := by
  unfold readLeaves
  split <;> rfl

theorem timeLoRead_port (hv : a.via = .port) (h : reaches s a 0x1000) :
    ∃ t, exec (.timeLoRead a) s = .next t ∧ t.out = [.reg .port (BitVec.ofNat 32 s.t) none] ∧
      (a.dbg = false → latched t 0x1004 a.mid.toNat = hiWord s.t) ∧ Keeps [.out, .time] s t ∧ t.time.now = s.time.now := by
  have ha : a.atPort = true := beq_iff_eq.mpr hv
  have hw : a.atWindow = true := by unfold Access.atWindow; rw [hv]; rfl
  obtain ⟨t, ht, hout, hkeep, hfrom⟩ := doRead_does (p := spotTime) hw h (port_locate ha (by decide) (by decide) at_TIME_LO) rfl (by decide)
    (time_leaves s.bare)
  have htime : t.time = (readLeaves s.bare a spotTime).time := hfrom.same .time (by decide)
  refine ⟨t, ht, ?_, fun hd => ?_, hkeep, (congrArg TimeS.now htime).trans (time_count s.bare)⟩
  · rw [hout, readWord_live s a (p := spotTime) nofun nofun nofun rfl, live_word rfl rfl, hv]
  · have hleft : readLeaves s.bare a spotTime = latchWord 0x1004 a.master (hiWord s.t) s.bare :=
      readLeaves_acts (by rw [dbg_of ha, hd]) rfl
    rw [latched_time htime, hleft, mid_of ha]
    exact latched_latchWord_same (hiWord_lt _) _

theorem timeLoRead_bar0 (hv : a.via = .bar0) (h : reaches s a 0x1000) :
    ∃ t, exec (.timeLoRead a) s = .next t ∧ t.out = [.reg .bar0 (BitVec.ofNat 32 s.gate.now.toNat) none] ∧
      latched t 0x101004 0 = hiWord s.gate.now.toNat ∧ Keeps [.out, .time] s t ∧ t.time.now = s.time.now := by
  obtain ⟨-, hdebug, -⟩ := host_bar0 hv
  have hw : a.atWindow = true := by unfold Access.atWindow; rw [hv]; rfl
  have hp : locate s a.via 0x1000 = some spotHostTime := by rw [hv]; exact locate_host (by decide) at_H_TIME_LO
  obtain ⟨t, ht, hout, hkeep, hfrom⟩ := doRead_does hw h hp rfl (by decide) (hostTime_leaves s.bare)
  have hleft : readLeaves s.bare a spotHostTime = latchWord 0x101004 0 (hiWord s.gate.now.toNat) s.bare := readLeaves_acts hdebug rfl
  have htime : t.time = (latchWord 0x101004 0 (hiWord s.gate.now.toNat) s.bare).time := by
    rw [← hleft]
    exact hfrom.same .time (by decide)
  refine ⟨t, ht, ?_, ?_, hkeep, (congrArg TimeS.now htime :)⟩
  · rw [hout, readWord_live s a (p := spotHostTime) nofun nofun nofun rfl, live_word rfl rfl, hv]
  · rw [latched_time htime]
    exact latched_latchWord_same (hiWord_lt _) _

-- CAPTURE_LO (R190)

/-- The place of capture i. -/
abbrev spotCapture (i : Nat) : Spot := ⟨row_CAPTURE_LO, i, 0, 0x1040 + 8 * i, .active⟩

/-- What a read of a capture leaves: its high word latched, and NEW down. -/
def captureRead (i mid : Nat) (s : State) : State :=
  let s := latchWord (0x1044 + 8 * i) mid (hiWord (tget 0 s.time.captures i).toNat) s
  s.wr Reg.CAP_STAT_NEW (s.rd Reg.CAP_STAT_NEW &&& (0xFFFF ^^^ 2 ^ i))

theorem capture_acts (i : Nat) (s : State) : readEffect a (spotCapture i) .clean (clearRC (spotCapture i) s) = captureRead i a.master s := by
  have hoff : 0x1040 + 8 * i + 4 = 0x1044 + 8 * i := by omega
  show State.wr (latchWord (0x1040 + 8 * i + 4) _ _ _) _ _ = _
  rw [hoff]
  rfl

theorem captureRead_keeps (i mid : Nat) (s : State) : Keeps [.regs, .time] s (captureRead i mid s) :=
  Keeps.trans ((latchWord_keeps ..).mono (by decide)) ((State.wr_keeps ..).mono (by decide))

theorem captureRead_latched (i mid : Nat) (s : State) :
    latched (captureRead i mid s) (0x1044 + 8 * i) mid = hiWord (tget 0 s.time.captures i).toNat :=
  latched_latchWord_same (hiWord_lt _) s

theorem captureRead_new {i : Nat} (hi : i < 16) (mid : Nat) (s : State) :
    (captureRead i mid s).rd Reg.CAP_STAT_NEW = s.rd Reg.CAP_STAT_NEW &&& (0xFFFF ^^^ 2 ^ i) := by
  refine (State.rd_wr_same ..).trans (Nat.mod_eq_of_lt (Nat.lt_of_le_of_lt Nat.and_le_right ?_))
  exact Nat.xor_lt_two_pow (by decide) (Nat.pow_lt_pow_right (by decide) hi)

theorem capture_leaves (i : Nat) (s : State) : Keeps [.regs, .time] s (readLeaves s a (spotCapture i)) :=
  readLeaves_keeps (by rw [capture_acts]; exact captureRead_keeps ..)

theorem capture_stays (i : Nat) (s : State) : (readLeaves s a (spotCapture i)).time.captures = s.time.captures := by
  unfold readLeaves
  split
  · rfl
  · rw [capture_acts]
    rfl

theorem captureRead_answers (i : Fin 16) (ha : a.atPort = true) (h : reaches s a (0x1040 + 8 * i)) : ∃ t, exec (.captureRead a i) s = .next t ∧
    t.out = [.reg a.via (BitVec.ofNat 32 (tget 0 s.time.captures i).toNat) none] ∧ Keeps [.out, .regs, .time] s t ∧
    t.time.captures = s.time.captures ∧
    (a.dbg = false → latched t (0x1044 + 8 * i) a.mid.toNat = hiWord (tget 0 s.time.captures i).toNat ∧
      t.rd Reg.CAP_STAT_NEW = s.rd Reg.CAP_STAT_NEW &&& (0xFFFF ^^^ 2 ^ i.val)) := by
  have hp : locate s a.via (0x1040 + 8 * i) = some (spotCapture i) := port_locate ha (by omega) (by omega) (at_CAPTURE_LO i i.isLt)
  obtain ⟨t, ht, hout, hkeep, hfrom⟩ := doRead_does ha h hp rfl nofun (capture_leaves i s.bare)
  have htime : t.time = (readLeaves s.bare a (spotCapture i)).time := hfrom.same .time (by decide)
  refine ⟨t, ht, ?_, hkeep, (congrArg TimeS.captures htime).trans (capture_stays i s.bare), fun hd => ?_⟩
  · have hl : live s a.master (spotCapture i) = [(0, loWord (tget 0 s.time.captures i).toNat)] :=
      live_field s _ (by show 0x1040 + 8 * i.val < 0x100000; omega)
    rw [hout, readWord_live s a (p := spotCapture i) nofun nofun nofun rfl, live_word rfl hl]
  · have hleft : readLeaves s.bare a (spotCapture i) = captureRead i a.mid.toNat s.bare := by
      rw [readLeaves_acts (by rw [dbg_of ha, hd]) rfl, capture_acts, mid_of ha]
    rw [latched_time htime, hfrom.rd_eq, hleft]
    exact ⟨captureRead_latched .., captureRead_new i.isLt ..⟩

-- EDW_VAL_LO (R449)

/-- The place of the value of channel c. -/
abbrev spotChannel (c : Nat) : Spot := ⟨row_EDW_VAL_LO, c, 0, 0x21200 + 16 * c, .active⟩

/-- What a read of a channel leaves: its high word and its count latched. -/
def channelRead (c mid : Nat) (s : State) : State :=
  latchWord (0x21208 + 16 * c) mid ((s.chan c).count.toNat % 2 ^ 31) (latchWord (0x21204 + 16 * c) mid (hiWord (ofSgn 64 (s.chan c).value)) s)

theorem channel_acts (c : Nat) (s : State) : readEffect a (spotChannel c) .clean (clearRC (spotChannel c) s) = channelRead c a.master s := by
  have hcount : 0x21200 + 16 * c + 8 = 0x21208 + 16 * c := by omega
  have hhigh : 0x21200 + 16 * c + 4 = 0x21204 + 16 * c := by omega
  show latchWord (0x21200 + 16 * c + 8) _ _ (latchWord (0x21200 + 16 * c + 4) _ _ _) = _
  rw [hcount, hhigh]
  rfl

theorem channelRead_keeps (c mid : Nat) (s : State) : Keeps [.time] s (channelRead c mid s) :=
  Keeps.trans (latchWord_keeps ..) (latchWord_keeps ..)

theorem channelRead_latched (c mid : Nat) (s : State) :
    latched (channelRead c mid s) (0x21204 + 16 * c) mid = hiWord (ofSgn 64 (s.chan c).value) ∧
    latched (channelRead c mid s) (0x21208 + 16 * c) mid = (s.chan c).count.toNat % 2 ^ 31 := by
  refine ⟨(latched_latchWord_ne (by omega) _).trans (latched_latchWord_same (hiWord_lt _) s), latched_latchWord_same ?_ _⟩
  exact Nat.lt_trans (Nat.mod_lt _ (by decide)) (by decide)

theorem channel_leaves (c : Nat) (s : State) : Keeps [.time] s (readLeaves s a (spotChannel c)) :=
  readLeaves_keeps (by rw [channel_acts]; exact channelRead_keeps ..)

theorem channel_count (c : Nat) (s : State) : (readLeaves s a (spotChannel c)).time.now = s.time.now := by
  unfold readLeaves
  split
  · rfl
  · rw [channel_acts]
    rfl

theorem channelRead_answers (c : Fin 64) (ha : a.atPort = true) (h : reaches s a (0x21200 + 16 * c)) (hon : s.on 23 = true) :
    ∃ t, exec (.edwLatchedRead a (BitVec.ofNat 12 (0x200 + 16 * c))) s = .next t ∧
      t.out = [.reg a.via (BitVec.ofNat 32 (ofSgn 64 (s.chan c).value)) none] ∧ Keeps [.out, .time] s t ∧ t.time.now = s.time.now ∧
      (a.dbg = false → latched t (0x21204 + 16 * c) a.mid.toNat = hiWord (ofSgn 64 (s.chan c).value) ∧
        latched t (0x21208 + 16 * c) a.mid.toNat = (s.chan c).count.toNat % 2 ^ 31) := by
  have hp : locate s a.via (0x21200 + 16 * c) = some (spotChannel c) := port_locate ha (by omega) (by omega) (at_EDW_VAL_LO c c.isLt)
  have haddr : 0x21000 + (BitVec.ofNat 12 (0x200 + 16 * c)).toNat = 0x21200 + 16 * c := by
    rw [BitVec.toNat_ofNat]
    omega
  obtain ⟨t, ht, hout, hkeep, hfrom⟩ := doRead_does ha h hp rfl nofun (channel_leaves c s.bare)
  have htime : t.time = (readLeaves s.bare a (spotChannel c)).time := hfrom.same .time (by decide)
  refine ⟨t, ?_, ?_, hkeep, (congrArg TimeS.now htime).trans (channel_count c s.bare), fun hd => ?_⟩
  · rw [← haddr] at ht
    exact ht
  · have hl : live s a.master (spotChannel c) = [(0, loWord (ofSgn 64 (s.chan c).value))] :=
      live_field s _ (by show 0x21200 + 16 * c.val < 0x100000; omega)
    rw [hout, readWord_live s a (p := spotChannel c) nofun nofun nofun hon, live_word rfl hl]
  · have hleft : readLeaves s.bare a (spotChannel c) = channelRead c a.mid.toNat s.bare := by
      rw [readLeaves_acts (s := s.bare) (p := spotChannel c) (by rw [dbg_of ha, hd]) hon, channel_acts, mid_of ha]
    rw [latched_time htime, latched_time htime, hleft]
    exact channelRead_latched ..

-- SLC_DIRTY (R408)

/-- The place of a word of the dirty bits of slice i. -/
abbrev spotDirty (i w : Nat) : Spot := ⟨row_SLC_DIRTY, i, w, 0x122000 + 0x80 * i + 4 * w, .active⟩

theorem readWord_dirty (i w : Nat) (s : State) : readWord s a (spotDirty i w) .clean = s.rd (Reg.SLC_DIRTY i w) := by
  have hl : live s a.master (spotDirty i w) = [] := if_pos (show 0x100000 ≤ 0x122000 + 0x80 * i + 4 * w by omega)
  rw [readWord_live s a (p := spotDirty i w) nofun nofun nofun rfl, hl]
  show s.rd (Reg.SLC_DIRTY i w) * 2 ^ 0 + 0 = _
  rw [pow_zero, Nat.mul_one, Nat.add_zero]

theorem slcDirtyRead_answers (i : BitVec 8) (w : Fin 17) (ha : a.atBar0 = true) (h : reaches s a (0x22000 + 0x80 * i.toNat + 4 * w)) :
    ∃ t, exec (.slcDirtyRead a i w) s = .next t ∧ t.out = [.reg .bar0 (BitVec.ofNat 32 (s.rd (Reg.SLC_DIRTY i.toNat w))) none] ∧
      t.rd (Reg.SLC_DIRTY i.toNat w) = 0 ∧ Keeps [.out, .regs] s t := by
  have hv : a.via = .bar0 := beq_iff_eq.mp ha
  obtain ⟨-, hdebug, -⟩ := host_bar0 hv
  have haddr : 0x100000 + (0x22000 + 0x80 * i.toNat + 4 * w.val) = 0x122000 + 0x80 * i.toNat + 4 * w := by omega
  have hp : locate s a.via (0x22000 + 0x80 * i.toNat + 4 * w) = some (spotDirty i.toNat w) := by
    rw [hv, locate_host (by omega) (by rw [haddr]; exact at_SLC_DIRTY _ i.isLt _ w.isLt), haddr]
  have hmem : row_SLC_DIRTY ∈ regRows := findReg_mem (at_SLC_DIRTY i.toNat i.isLt w w.isLt)
  obtain ⟨hclears, hzero, -⟩ := clearRC_does (p := spotDirty i.toNat w) hmem s.bare
  have hleft : readLeaves s.bare a (spotDirty i.toNat w) = clearRC (spotDirty i.toNat w) s.bare := by
    rw [readLeaves_acts hdebug rfl]
    exact readEffect_none a .clean _ (by exact (by decide : RegId.SLC_DIRTY ∉ readActs))
  obtain ⟨t, ht, hout, hkeep, hfrom⟩ := doRead_does ha h hp rfl nofun (hleft ▸ hclears)
  refine ⟨t, ht, ?_, ?_, hkeep⟩
  · rw [hout, readWord_dirty, hv]
  · rw [hfrom.rd_eq, hleft]
    exact hzero ⟨0, 32, .rc, 0⟩ (List.mem_cons_self ..) rfl

end

end Sys2Proof.Machine

namespace Sys2Proof.Machine

set_option Elab.async false

section
variable {a : Access} {s : State}

-- TRACE_DATA (R502)

/-- The place of TRACE_DATA. -/
abbrev spotTrace : Spot := ⟨row_TRACE_DATA, 0, 0, 0x20044, .active⟩

theorem readWord_trace (s : State) : readWord s a spotTrace .clean = (traceWord s false).toNat := rfl

theorem trace_leaves (s : State) : Keeps [.regs, .trc] s (readLeaves s a spotTrace) := readLeaves_keeps (traceAdvance_keeps s)

theorem traceAdvance_waits (h : s.trc.ring = [] ∨ overwriting s = true) : traceAdvance s = s := by
  refine if_pos ?_
  rw [Bool.or_eq_true]
  exact h.imp (fun hr => by rw [hr]; rfl) id

theorem traceAdvance_moves (hr : s.trc.ring ≠ []) (ho : overwriting s = false) :
    traceAdvance s = if s.trc.ptr.toNat % 4 = 3 then noteUnread (freeEntry s) else { s with trc := { s.trc with ptr := s.trc.ptr + 1 } } := by
  have hring : s.trc.ring.isEmpty = false := by
    rw [Bool.eq_false_iff, ne_eq, List.isEmpty_iff]
    exact hr
  refine if_neg ?_
  rw [hring, ho]
  decide

theorem noteUnread_ring (s : State) : (noteUnread s).trc.ring = s.trc.ring := by
  unfold noteUnread
  dsimp only
  split
  · rfl
  · split <;> rfl

theorem freeEntry_ring (s : State) : (freeEntry s).trc.ring = s.trc.ring.drop 1 := rfl

theorem traceDataRead_answers (ha : a.atPort = true) (h : reaches s a 0x20044) : ∃ t, exec (.traceDataRead a) s = .next t ∧
    t.out = [.reg a.via (traceWord s false) none] ∧ Keeps [.out, .regs, .trc] s t ∧
    (a.dbg = true ∨ s.trc.ring = [] ∨ overwriting s = true → t.trc = s.trc) ∧
    (a.dbg = false → s.trc.ring ≠ [] → overwriting s = false → s.trc.ptr.toNat % 4 ≠ 3 → t.trc = { s.trc with ptr := s.trc.ptr + 1 }) ∧
    (a.dbg = false → s.trc.ring ≠ [] → overwriting s = false → s.trc.ptr.toNat % 4 = 3 → t.trc.ring = s.trc.ring.drop 1) := by
  obtain ⟨t, ht, hout, hkeep, hfrom⟩ := doRead_does (p := spotTrace) ha h (port_locate ha (by decide) (by decide) at_TRACE_DATA) rfl nofun
    (trace_leaves s.bare)
  have htrc : t.trc = (readLeaves s.bare a spotTrace).trc := hfrom.same .trc (by decide)
  have hacts (hd : a.dbg = false) : readLeaves s.bare a spotTrace = traceAdvance s.bare := readLeaves_acts (by rw [dbg_of ha, hd]) rfl
  refine ⟨t, ht, ?_, hkeep, fun hstay => htrc.trans ?_, fun hd hr ho hw => htrc.trans ?_, fun hd hr ho hw => ?_⟩
  · rw [hout, readWord_trace, BitVec.ofNat_toNat, BitVec.setWidth_eq]
  · cases hd : a.dbg with
    | true => rw [readLeaves_debug (by rw [dbg_of ha, hd])]; rfl
    | false =>
      rw [hacts hd, traceAdvance_waits (s := s.bare) (hstay.resolve_left (by rw [hd]; decide))]
      rfl
  · rw [hacts hd, traceAdvance_moves (s := s.bare) hr ho]
    exact congrArg State.trc (if_neg (c := s.bare.trc.ptr.toNat % 4 = 3) hw)
  · rw [htrc, hacts hd, traceAdvance_moves (s := s.bare) hr ho, if_pos (c := s.bare.trc.ptr.toNat % 4 = 3) hw, noteUnread_ring, freeEntry_ring]
    rfl

-- LOCK (R321)

/-- The place of LOCK[i]. -/
abbrev spotLock (i : Nat) : Spot := ⟨row_LOCK, i, 0, 0xF000 + 4 * i, .active⟩

/-- Lock i as a master that reads it free takes it. -/
def takenLock (i : Nat) (mid : BitVec 4) (s : State) : LockS := { s.lockOf i with owner := mid, held := true, set := [], ovf := false }

theorem lockRead_stays {i : Nat} {mid : BitVec 4} {dbg : Bool} (h : ((s.lockOf i).held || dbg || (lockHeldBy s mid).isSome) = true) :
    lockRead i mid dbg s = (lockWord (s.lockOf i) false, s) := if_pos h

theorem lockRead_takes {i : Nat} {mid : BitVec 4} (h : (s.lockOf i).held = false) (hm : lockHeldBy s mid = none) :
    lockRead i mid false s = (lockWord (takenLock i mid s) true, s.setLock i { takenLock i mid s with broken := false, since := s.time.now }) := by
  refine if_neg ?_
  rw [h, hm]
  decide

/-- LOCK has no RC field, and its read acts as the lock does. -/
theorem lock_acts (i : Nat) (s : State) : readEffect a (spotLock i) .clean (clearRC (spotLock i) s) = (lockRead i a.mid false s).2 := by
  rw [clearRC_none (p := spotLock i) (by exact (by decide : row_LOCK.has .rc = false))]
  rfl

theorem lock_leaves (i : Nat) (s : State) : Keeps [.lock] s (readLeaves s a (spotLock i)) :=
  readLeaves_keeps (by rw [lock_acts]; exact lockRead_keeps ..)

theorem readWord_lock (i : Nat) (s : State) : readWord s a (spotLock i) .clean = (lockRead i a.mid a.debug s).1 := rfl

theorem lock_locate (i : Fin 64) (ha : a.atPort = true) : locate s a.via (0xF000 + 4 * i) = some (spotLock i) :=
  port_locate ha (by omega) (by omega) (at_LOCK i i.isLt)

/-- A read that does not take the lock answers its word, and leaves the rest. -/
theorem lockAcquire_stays (i : Fin 64) (ha : a.atPort = true) (h : reaches s a (0xF000 + 4 * i))
    (hstay : (s.lockOf i).held = true ∨ a.dbg = true ∨ (lockHeldBy s a.mid).isSome = true) :
    exec (.lockAcquire a i) s = .next { s with out := [.reg a.via (BitVec.ofNat 32 (lockWord (s.lockOf i) false)) none] } := by
  have hany : ((s.lockOf i).held || a.debug || (lockHeldBy s a.mid).isSome) = true := by
    rw [Bool.or_eq_true, Bool.or_eq_true, dbg_of ha]
    exact or_assoc.mpr hstay
  have hleft : readLeaves s.bare a (spotLock i) = s.bare := by
    cases hd : a.debug with
    | true => exact readLeaves_debug hd
    | false =>
      rw [readLeaves_acts hd rfl, lock_acts, lockRead_stays (s := s.bare) (by rw [hd] at hany; exact hany)]
  refine (doRead_eq ha h (lock_locate (s := s.bare) i ha) rfl nofun).trans ?_
  rw [hleft, readWord_bare, readWord_lock, lockRead_stays hany]
  rfl

/-- A read of a free lock by a master that holds none takes it. -/
theorem lockAcquire_takes (i : Fin 64) (ha : a.atPort = true) (h : reaches s a (0xF000 + 4 * i)) (hfree : (s.lockOf i).held = false)
    (hd : a.dbg = false) (hnone : lockHeldBy s a.mid = none) : ∃ t, exec (.lockAcquire a i) s = .next t ∧
      t.out = [.reg a.via (BitVec.ofNat 32 (lockWord { s.lockOf i with owner := a.mid, held := true, set := [], ovf := false } true)) none] ∧
      t.lockOf i = { s.lockOf i with owner := a.mid, held := true, set := [], ovf := false, broken := false, since := s.time.now } ∧
      (∀ j, j ≠ i.val → t.lockOf j = s.lockOf j) ∧ Keeps [.out, .lock] s t := by
  have hdebug : a.debug = false := by rw [dbg_of ha, hd]
  obtain ⟨t, ht, hout, hkeep, hfrom⟩ := doRead_does ha h (lock_locate i ha) rfl nofun (lock_leaves i s.bare)
  have hleft : readLeaves s.bare a (spotLock i) =
      s.bare.setLock i { takenLock i a.mid s.bare with broken := false, since := s.bare.time.now } := by
    rw [readLeaves_acts hdebug rfl, lock_acts, lockRead_takes (s := s.bare) hfree hnone]
  refine ⟨t, ht, ?_, ?_, fun j hj => ?_, hkeep⟩
  · rw [hout, readWord_lock, hdebug, lockRead_takes hfree hnone]
    rfl
  · rw [hfrom.lockOf_eq, hleft]
    exact State.lockOf_setLock ..
  · rw [hfrom.lockOf_eq, hleft]
    exact State.lockOf_setLock_ne _ _ hj

end

/-- Settles O48: read by read, what each answers, latches, clears or takes. -/
theorem latchingReads : Obligations.LatchingReads :=
  ⟨fun _ n _ ha h hon => claimPeek_answers n ha h hon,
    fun _ _ h => ⟨fun hv => timeLoRead_port hv h, fun hv => timeLoRead_bar0 hv h⟩,
    fun _ i _ ha h => captureRead_answers i ha h,
    fun _ c _ ha h hon => channelRead_answers c ha h hon,
    fun _ i w _ ha h => slcDirtyRead_answers i w ha h,
    fun _ _ ha h => traceDataRead_answers ha h,
    fun _ i _ ha h => ⟨lockAcquire_stays i ha h, lockAcquire_takes i ha h⟩⟩

end Sys2Proof.Machine

namespace Sys2Proof.Machine

set_option Elab.async false

-- what starts a seal, and what holds it back (R435)

section
variable {p : BitVec 128} {s : State}

/-- A request reaches a sealed partition at once when nothing waits before it. -/
theorem edwAsk_request (hr : edwRuns s = true) (ha : s.edw.asks = []) (hs : s.edw.sealed_ = true) :
    edwAsk 0x18 p s = sealTrigger false s := by
  have hrest : ({ s with edw := { s.edw with asks := [] } } : State) = s := by
    conv => lhs; rw [← ha]
  have hserve : edwAsk 0x18 p s = edwTake 0x18 p { s with edw := { s.edw with asks := [] } } := by
    unfold edwAsk serveEdw
    rw [ha]
    exact if_pos hr
  rw [hserve, hrest]
  exact if_pos hs

/-- A request waits in the crossing while the partition does not run. -/
theorem edwAsk_waits (typ : BitVec 8) (hr : edwRuns s = false) :
    edwAsk typ p s = { s with edw := { s.edw with asks := s.edw.asks ++ [(typ, p)] } } :=
  if_neg (by show ¬edwRuns s = true; rw [hr]; decide)

/-- The state that a frame for the partition leaves, where it changes the partition alone. -/
theorem field_taken (typ : BitVec 8) (e : EdwS) :
    ({ emptied .field { hearing .field typ s with edw := e } with pending := s.pending } : State) =
      { s with out := [], bar := barTook .field typ s, edw := e } := rfl

/-- A trigger without the gap before it and without a seal under way captures a record. -/
theorem triggered_starts (hsealed : s.edw.sealed_ = true) (hidle : s.edw.step = .idle) (hgap : capWithin s Config.sealGap = false) :
    ∃ t, run (sealTrigger false) s = .next t ∧ sealStarted s.edw s t ∧ Keeps [.out, .edw] s t := by
  obtain ⟨hstarted, hkeep⟩ := sealCapture_started s.bare
  exact ⟨_, run_eq (sealTrigger_captures s.bare hsealed hidle hgap), hstarted, hkeep.bare (by decide)⟩

theorem sealInterval_eq (hr : edwRuns s = true) (hn : s.rd Reg.EDW_GLB_SEALINT ≠ 0)
    (hpast : capWithin s (max Config.sealGap (s.rd Reg.EDW_GLB_SEALINT)) = false) : exec .sealInterval s = run (sealTrigger false) s := by
  refine congrArg Host.Outcome.next (effect_congr ?_)
  refine if_neg ?_
  rw [Bool.or_eq_true, Bool.or_eq_true, decide_eq_true_eq]
  rintro ((hoff | hzero) | hin)
  · rw [bare_edwRuns, hr] at hoff
    exact absurd hoff (by decide)
  · exact hn hzero
  · exact absurd (hpast.symm.trans hin) (by decide)

theorem sealGapExpire_eq (hr : edwRuns s = true) (hheld : s.edw.held = true) (hgap : capWithin s Config.sealGap = false) :
    exec .sealGapExpire s = run (sealTrigger false) s := by
  refine congrArg Host.Outcome.next (effect_congr ?_)
  have hgo : (edwRuns s && s.edw.held && !capWithin s Config.sealGap) = true := by
    rw [hr, hheld, hgap]
    rfl
  exact if_pos hgo

/-- A request that finds the partition free captures a record. -/
theorem sealReq_starts (h : barReady .field s) (hr : edwRuns s = true) (hsealed : s.edw.sealed_ = true) (hidle : s.edw.step = .idle)
    (hgap : capWithin s Config.sealGap = false) (ha : s.edw.asks = []) :
    ∃ t, exec (.sealReq p) s = .next t ∧ sealStarted s.edw s t ∧ t.bar = barTook .field 0x18 s ∧ Keeps [.out, .bar, .edw] s t := by
  have hask : edwAsk 0x18 p (hearing .field 0x18 s) = sealCapture (hearing .field 0x18 s) :=
    (edwAsk_request (s := hearing .field 0x18 s) hr ha hsealed).trans (sealTrigger_captures (hearing .field 0x18 s) hsealed hidle hgap)
  refine ⟨_, (fieldFrame_runs h hask rfl).trans
    (congrArg Host.Outcome.next (field_taken 0x18 (sealCapture (hearing .field 0x18 s)).edw)), ?_, rfl, ?_⟩
  · exact (sealCapture_started (hearing .field 0x18 s)).1
  · exact ⟨fun q hq => by cases q <;> first | rfl | exact absurd (by decide) hq⟩

/-- A request that finds the gap, or a seal under way, is held. -/
theorem sealReq_held (h : barReady .field s) (hr : edwRuns s = true) (hsealed : s.edw.sealed_ = true)
    (hwait : capWithin s Config.sealGap = true ∨ s.edw.step ≠ .idle) (ha : s.edw.asks = []) :
    exec (.sealReq p) s = .next { s with out := [], bar := barTook .field 0x18 s, edw := { s.edw with due := true, held := true } } := by
  have hask : edwAsk 0x18 p (hearing .field 0x18 s) =
      { hearing .field 0x18 s with edw := { s.edw with due := true, held := true } } :=
    (edwAsk_request (s := hearing .field 0x18 s) hr ha hsealed).trans (sealTrigger_held (hearing .field 0x18 s) hsealed hwait)
  exact (fieldFrame_runs h hask rfl).trans (congrArg Host.Outcome.next (field_taken 0x18 _))

/-- A request while the partition does not run waits. -/
theorem sealReq_waits (h : barReady .field s) (hr : edwRuns s = false) : exec (.sealReq p) s = .next { s with
    out := [], bar := barTook .field 0x18 s, edw := { s.edw with asks := s.edw.asks ++ [(0x18, p)] } } :=
  (fieldFrame_runs h (edwAsk_waits (s := hearing .field 0x18 s) 0x18 hr) rfl).trans (congrArg Host.Outcome.next (field_taken 0x18 _))

end

-- the record goes to flash (R436, R437)

section
variable {r : SealRec} {retry : Bool} {s : State}

/-- The record under way has its MAC. -/
def sealSigned (r : SealRec) (s : State) : State := { s with edw := { s.edw with rec_ := some { r with mac := sealMac s r } } }

theorem sealMacDone_eq (hstep : s.edw.step = .mac) (hrec : s.edw.rec_ = some r) (hr : edwRuns s = true) (hp : persisting s = false)
    (hroom : (tget [] s.edw.sectors s.edw.sector).length < 9) :
    exec .sealMacDone s = .next { programSeal false (sealSigned r s.bare) with pending := s.pending } := by
  refine run_eq ?_
  show (match s.edw.step, s.edw.rec_ with
    | .mac, some r => if !edwRuns s || persisting s then s.bare else _
    | _, _ => s.bare) = _
  rw [hstep, hrec]
  dsimp only
  rw [if_neg (by rw [hr, hp]; decide)]
  exact congrArg (programSeal false) (if_neg (by rw [decide_eq_true_eq]; exact Nat.not_le.mpr hroom))

theorem sealMacDone_programs (hstep : s.edw.step = .mac) (hrec : s.edw.rec_ = some r) (hr : edwRuns s = true) (hp : persisting s = false)
    (hroom : (tget [] s.edw.sectors s.edw.sector).length < 9) :
    ∃ t, exec .sealMacDone s = .next t ∧ t.edw = { s.edw with step := .program false, rec_ := some { r with mac := sealMac s r } } ∧
      t.out.length = 210 ∧ Keeps [.out, .edw] s t := by
  have hkeep : Keeps [.out, .edw] s.bare (programSeal false (sealSigned r s.bare)) :=
    Keeps.trans ⟨fun q hq => by cases q <;> first | rfl | exact absurd (by decide) hq⟩ (programSeal_keeps ..)
  refine ⟨_, sealMacDone_eq hstep hrec hr hp hroom, ?_, ?_, hkeep.bare (by decide)⟩
  · rw [programSeal_does false _ (sealSigned r s.bare) rfl]
    rfl
  · rw [programSeal_does false _ (sealSigned r s.bare) rfl]
    show ([] ++ List.map _ _).length = 210
    rw [List.nil_append, List.length_map, List.length_zip, List.length_range, sealWords_length]
    rfl

-- the record is read back (R436, R438)

/-- The state once the record in flash has been read. -/
def sealRead (s : State) : State := readSlot s.edw.sector (tget [] s.edw.sectors s.edw.sector).length 210 s

theorem sealRead_keeps (s : State) : Keeps [.out] s (sealRead s) := readSlot_keeps ..

theorem sealProgramDone_eq (hstep : s.edw.step = .program retry) (hrec : s.edw.rec_ = some r) : exec .sealProgramDone s =
    .next { (if macChecks s r then sealDone r (sealRead s.bare) else sealFails retry (sealRead s.bare)) with pending := s.pending } := by
  have hmac : macChecks (sealRead s.bare) r = macChecks s r :=
    macChecks_congr (congrArg ImgS.otp ((sealRead_keeps s.bare).same .img (by decide) :)) r
  refine run_eq ?_
  show (match s.edw.step, s.edw.rec_ with
    | .program retry, some r => _
    | _, _ => s.bare) = _
  rw [hstep, hrec, ← hmac]
  rfl

/-- A seal that ends with no tamper seal behind it. -/
theorem sealEnd_ends (h : s.edw.tdue = false) : sealEnd s = { s with edw := { s.edw with step := .idle, rec_ := none, first := false } } :=
  if_neg (by show ¬s.edw.tdue = true; rw [h]; decide)

/-- The partition once the record in flash reads back right. -/
def edwSealed (r : SealRec) (e : EdwS) : EdwS :=
  { e with
      step := .idle, rec_ := none, first := false, sealed_ := true, cnt := r.cnt
      sectors := tset [] e.sectors e.sector (tget [] e.sectors e.sector ++ [some r]) }

/-- The payload of the frame that shows a seal to the host gate. -/
def sealPayload (r : SealRec) : BitVec 128 := pay (r.cnt.toNat + 2 ^ 64 * bits r.mac.toNat 0 64)

/-- The state with the seal shown, before its frame leaves. -/
def sealShown (r : SealRec) (s : State) : State :=
  let s := showSeal r (useSlot (some r) s)
  { s with edw := { s.edw with sealed_ := true } }

theorem sealShown_edw (r : SealRec) (s : State) : (sealShown r s).edw =
    { s.edw with sealed_ := true, cnt := r.cnt, sectors := tset [] s.edw.sectors s.edw.sector (tget [] s.edw.sectors s.edw.sector ++ [some r]) } := by
  obtain ⟨-, -, -, -, hedw⟩ := showSeal_rd r (useSlot (some r) s)
  unfold sealShown
  dsimp only
  rw [hedw]
  rfl

theorem sealShown_keeps (r : SealRec) (s : State) : Keeps [.regs, .edw] s (sealShown r s) :=
  Keeps.edw (by decide) (Keeps.trans ((useSlot_keeps ..).mono (by decide)) (showSeal_keeps ..))

/-- The seal shown, with its frame where field die 0 can send it. -/
def sealSent (r : SealRec) (s : State) : State :=
  if edwToBarrier (sealShown r s) then barQueue .field 0x10 (sealPayload r) (sealShown r s) else sealShown r s

theorem sealSent_keeps (r : SealRec) (s : State) : Keeps [.bar, .gate] (sealShown r s) (sealSent r s) :=
  Keeps.ite (barQueue_keeps ..) Keeps.refl

theorem sealDone_eq (r : SealRec) (s : State) : sealDone r s = sealEnd (sealSent r s) := rfl

theorem edwToBarrier_same {s t : State} (hkeep : Keeps [.out, .regs, .edw] s t) : edwToBarrier t = edwToBarrier s := by
  have hpwr : t.pwr = s.pwr := hkeep.same .pwr (by decide)
  have htime : t.time = s.time := hkeep.same .time (by decide)
  have hbar : t.bar = s.bar := hkeep.same .bar (by decide)
  have hpins : t.pins = s.pins := hkeep.same .pins (by decide)
  unfold edwToBarrier edwRuns State.on State.dom State.isDie0
  rw [hpwr, htime, hbar, hpins]

theorem sealSent_sends {r : SealRec} {s : State} (h : edwToBarrier s = true) : (sealSent r s).bar = barWith 0x10 (sealPayload r) s.bar := by
  have hkeep := sealShown_keeps r s
  have hbar : (sealShown r s).bar = s.bar := hkeep.same .bar (by decide)
  have hto : edwToBarrier (sealShown r s) = true := (edwToBarrier_same (hkeep.mono (by decide))).trans h
  have hup : (barOf .field (sealShown r s)).st = .up := by
    unfold edwToBarrier at hto
    rw [Bool.and_eq_true, Bool.and_eq_true, beq_iff_eq] at hto
    exact hto.1.2
  unfold sealSent
  rw [if_pos hto, barQueue_eq _ _ _ _ hup, ← hbar]
  rfl

theorem sealProgramDone_seals (hstep : s.edw.step = .program retry) (hrec : s.edw.rec_ = some r) (hmac : macChecks s r = true)
    (ht : s.edw.tdue = false) : ∃ t, exec .sealProgramDone s = .next t ∧ t.edw = edwSealed r s.edw ∧
      t.rd Reg.EDW_SCNT_LO = bits r.cnt.toNat 0 32 ∧ t.rd Reg.EDW_SCNT_HI = bits r.cnt.toNat 32 32 ∧
      t.rd Reg.EDW_STIME_LO = bits r.time.toNat 0 32 ∧ t.rd Reg.EDW_STIME_HI = bits r.time.toNat 32 32 ∧
      (s.isDie0 = true → s.bar.st = .up → edwRuns s = true → t.bar = barWith 0x10 (sealPayload r) s.bar) ∧
      Keeps [.out, .regs, .bar, .gate, .edw] s t := by
  obtain ⟨u, hu⟩ : ∃ u, sealRead s.bare = u := ⟨_, rfl⟩
  have hread : Keeps [.out] s.bare u := hu ▸ sealRead_keeps s.bare
  have hedw : u.edw = s.edw := hread.same .edw (by decide)
  have hsent := sealSent_keeps r u
  have hsentEdw : (sealSent r u).edw = (sealShown r u).edw := hsent.same .edw (by decide)
  have hrun := sealProgramDone_eq hstep hrec
  rw [hu, if_pos hmac, sealDone_eq, sealEnd_ends (by rw [hsentEdw, sealShown_edw, hedw]; exact ht)] at hrun
  obtain ⟨hcntLo, hcntHi, htimeLo, htimeHi, -⟩ := showSeal_rd r (useSlot (some r) u)
  refine ⟨_, hrun, ?_, (hsent.rd_eq _).trans hcntLo, (hsent.rd_eq _).trans hcntHi, (hsent.rd_eq _).trans htimeLo, (hsent.rd_eq _).trans htimeHi,
    fun hdie hup hr => ?_, ?_⟩
  · show { (sealSent r u).edw with step := .idle, rec_ := none, first := false } = _
    rw [hsentEdw, sealShown_edw, hedw]
    rfl
  · have hto : edwToBarrier u = true := by
      refine (edwToBarrier_same (s := s.bare) (hread.mono (by decide))).trans ?_
      show (s.isDie0 && s.bar.st == .up && edwRuns s) = true
      rw [hdie, hup, hr]
      rfl
    have hbar : u.bar = s.bar := hread.same .bar (by decide)
    exact (sealSent_sends hto).trans (by rw [hbar])
  · refine Keeps.bare (w := [.out, .regs, .bar, .gate, .edw]) (Keeps.edw (by decide) ?_) (by decide)
    exact (hread.mono (by decide)).trans (((sealShown_keeps r u).mono (by decide)).trans (hsent.mono (by decide)))

/-- A record that reads back wrong goes to the next sector, once. -/
theorem sealProgramDone_retries (hstep : s.edw.step = .program false) (hrec : s.edw.rec_ = some r) (hmac : macChecks s r = false) :
    ∃ t, exec .sealProgramDone s = .next t ∧ t.edw.step = .program true ∧ t.edw.rec_ = some r ∧
      t.edw.sector = nextSector (useSlot none s) ∧ Keeps [.out, .edw] s t := by
  obtain ⟨u, hu⟩ : ∃ u, sealRead s.bare = u := ⟨_, rfl⟩
  have hread : Keeps [.out] s.bare u := hu ▸ sealRead_keeps s.bare
  have hedw : u.edw = s.edw := hread.same .edw (by decide)
  have hrun := sealProgramDone_eq hstep hrec
  rw [hu, if_neg (by rw [hmac]; decide)] at hrun
  have hused : (eraseNext (useSlot none u)).edw.rec_ = some r := by
    show u.edw.rec_ = some r
    rw [hedw, hrec]
  have hfails : sealFails false u = programSeal true (eraseNext (useSlot none u)) := rfl
  have hkeep : Keeps [.out, .edw] s.bare (sealFails false u) := by
    rw [hfails]
    exact (hread.mono (by decide)).trans (((useSlot_keeps none u).mono (by decide)).trans ((eraseNext_keeps _).trans (programSeal_keeps ..)))
  have hprog := programSeal_does true r _ hused
  refine ⟨_, hrun, ?_, ?_, ?_, hkeep.bare (by decide)⟩
  · show (sealFails false u).edw.step = _
    rw [hfails, hprog]
  · show (sealFails false u).edw.rec_ = _
    rw [hfails, hprog]
    exact hused
  · show (sealFails false u).edw.sector = _
    rw [hfails, hprog]
    show nextSector (useSlot none u) = _
    unfold nextSector useSlot
    dsimp only
    rw [hedw]

/-- A record that the next sector has not taken either is given up. -/
theorem sealProgramDone_abandons (hstep : s.edw.step = .program true) (hrec : s.edw.rec_ = some r) (hmac : macChecks s r = false)
    (ht : s.edw.tdue = false) : ∃ t, exec .sealProgramDone s = .next t ∧ t.edw.step = .idle ∧ t.edw.rec_ = none ∧
      t.edw.due = true ∧ t.rd Reg.EDW_STAT_FLERR = 1 ∧ Keeps [.out, .regs, .edw] s t := by
  obtain ⟨u, hu⟩ : ∃ u, sealRead s.bare = u := ⟨_, rfl⟩
  have hread : Keeps [.out] s.bare u := hu ▸ sealRead_keeps s.bare
  have hedw : u.edw = s.edw := hread.same .edw (by decide)
  have hkeep : Keeps [.out, .regs, .edw] s.bare (sealFails true u) := (hread.mono (by decide)).trans (sealFails_keeps true u)
  obtain ⟨v, hv⟩ : ∃ v, (useSlot none u).raise Reg.EDW_STAT_FLERR = v := ⟨_, rfl⟩
  have htdue : v.edw.tdue = false := by
    rw [← hv]
    show u.edw.tdue = false
    rw [hedw, ht]
  have hflerr : v.rd Reg.EDW_STAT_FLERR = 1 := by rw [← hv]; exact State.rd_wr_same ..
  have hfails : sealFails true u = { v with edw := { v.edw with due := true, step := .idle, rec_ := none, first := false } } := by
    show sealEnd { (useSlot none u).raise Reg.EDW_STAT_FLERR with edw := _ } = _
    rw [hv]
    exact sealEnd_ends (s := { v with edw := { v.edw with due := true } }) htdue
  have hrun := sealProgramDone_eq hstep hrec
  rw [hu, if_neg (by rw [hmac]; decide)] at hrun
  refine ⟨_, hrun, ?_, ?_, ?_, ?_, hkeep.bare (by decide)⟩
  · exact congrArg (·.edw.step) hfails
  · exact congrArg (·.edw.rec_) hfails
  · exact congrArg (·.edw.due) hfails
  · exact (congrArg (·.rd Reg.EDW_STAT_FLERR) hfails).trans hflerr

end

end Sys2Proof.Machine

namespace Sys2Proof.Machine

set_option Elab.async false

-- the restore without a valid record (R439)

/-- The fields of an S5 word. -/
def s5Fields (i : Nat) : List Fld :=
  if i < 64 then [Reg.EDW_CH_EN i, Reg.EDW_CH_SOURCE i, Reg.EDW_CH_SHIFT i, Reg.EDW_CH_SIGNED i, Reg.EDW_CH_MIRROR i]
  else [Reg.EDW_GLB_SEALINT, Reg.EDW_GLB_MRPT]

theorem s5Fields_rst {i : Nat} {f : Fld} (h : f ∈ s5Fields i) : f.rst = 0 := by
  unfold s5Fields at h
  split at h
  · simp only [List.mem_cons, List.not_mem_nil, or_false] at h
    rcases h with rfl | rfl | rfl | rfl | rfl <;> rfl
  · simp only [List.mem_cons, List.not_mem_nil, or_false] at h
    rcases h with rfl | rfl <;> rfl

theorem putS5Word_zero (i : Nat) (s : State) : putS5Word i 0 s = s.each (s5Fields i) fun f s => s.wr f 0 := by
  unfold putS5Word s5Fields
  split <;> rfl

/-- A field at 0 stays at 0 where zeros are written. -/
theorem rd_wr_zero {s : State} {f g : Fld} (hf : f.rst = 0) (hg : g.rst = 0) (h : s.rd g = 0) : (s.wr f 0).rd g = 0 := by
  by_cases hkey : g.key = f.key
  · unfold State.rd State.wr
    dsimp only
    rw [hf, hg, hkey, tget_tset_same, Nat.zero_mod]
  · rw [State.rd_wr_ne _ _ hkey, h]

theorem each_zero_stays {l : List Fld} (hl : ∀ f ∈ l, f.rst = 0) {g : Fld} (hg : g.rst = 0) {s : State} (h : s.rd g = 0) :
    (s.each l fun f s => s.wr f 0).rd g = 0 := by
  unfold State.each
  induction l generalizing s with
  | nil => exact h
  | cons f l ih => exact ih (fun x hx => hl x (List.mem_cons_of_mem _ hx)) (rd_wr_zero (hl f List.mem_cons_self) hg h)

theorem each_zero_clears {l : List Fld} (hl : ∀ f ∈ l, f.rst = 0) {g : Fld} (hg : g ∈ l) (s : State) :
    (s.each l fun f s => s.wr f 0).rd g = 0 := by
  induction l generalizing s with
  | nil => exact absurd hg List.not_mem_nil
  | cons f l ih =>
    have hrest : ∀ x ∈ l, x.rst = 0 := fun x hx => hl x (List.mem_cons_of_mem _ hx)
    rcases List.mem_cons.1 hg with rfl | hg
    · refine each_zero_stays hrest (hl g List.mem_cons_self) (s := s.wr g 0) ?_
      rw [State.rd_wr_same, Nat.zero_mod]
    · exact ih hrest hg (s.wr f 0)

/-- The state with the first n words of S5 at 0. -/
def s5Zeroed (n : Nat) (s : State) : State := s.each (List.range n) fun i s => putS5Word i 0 s

theorem s5Zeroed_zero {n i : Nat} (hi : i < n) {f : Fld} (hf : f ∈ s5Fields i) (s : State) : (s5Zeroed n s).rd f = 0 := by
  have hclears (s : State) : (putS5Word i 0 s).rd f = 0 := by
    rw [putS5Word_zero]
    exact each_zero_clears (fun x hx => s5Fields_rst hx) hf s
  have hstays (k : Nat) (s : State) (h : s.rd f = 0) : (putS5Word k 0 s).rd f = 0 := by
    rw [putS5Word_zero]
    exact each_zero_stays (fun x hx => s5Fields_rst hx) (s5Fields_rst hf) h
  exact State.each_establishes (P := fun s => s.rd f = 0) (f := fun i s => putS5Word i 0 s) (List.mem_range.mpr hi) hclears hstays s

theorem s5Word_blank {i : Nat} {s : State} (h : ∀ f ∈ s5Fields i, s.rd f = 0) : s5Word s i = 0 := by
  unfold s5Fields at h
  unfold s5Word
  by_cases hi : i < 64
  · rw [if_pos hi] at h
    rw [if_pos hi, h (Reg.EDW_CH_EN i) (by simp), h (Reg.EDW_CH_SOURCE i) (by simp), h (Reg.EDW_CH_SHIFT i) (by simp),
      h (Reg.EDW_CH_SIGNED i) (by simp), h (Reg.EDW_CH_MIRROR i) (by simp)]
    rfl
  · rw [if_neg hi] at h
    rw [if_neg hi, h Reg.EDW_GLB_SEALINT (by simp), h Reg.EDW_GLB_MRPT (by simp)]
    rfl

/-- A field below the words of S5 is none of theirs. -/
theorem s5Fields_above {i : Nat} {f : Fld} (h : f ∈ s5Fields i) : 32 * 0x21040 ≤ f.key := by
  unfold s5Fields at h
  split at h
  · simp only [List.mem_cons, List.not_mem_nil, or_false] at h
    rcases h with rfl | rfl | rfl | rfl | rfl
    · show 32 * 0x21040 ≤ 32 * (0x21100 + 4 * i) + 0; omega
    · show 32 * 0x21040 ≤ 32 * (0x21100 + 4 * i) + 1; omega
    · show 32 * 0x21040 ≤ 32 * (0x21100 + 4 * i) + 8; omega
    · show 32 * 0x21040 ≤ 32 * (0x21100 + 4 * i) + 13; omega
    · show 32 * 0x21040 ≤ 32 * (0x21100 + 4 * i) + 14; omega
  · simp only [List.mem_cons, List.not_mem_nil, or_false] at h
    rcases h with rfl | rfl <;> decide

theorem each_wr_below {l : List Fld} {g : Fld} (h : ∀ f ∈ l, g.key < f.key) (s : State) : (s.each l fun f s => s.wr f 0).rd g = s.rd g := by
  unfold State.each
  induction l generalizing s with
  | nil => rfl
  | cons f l ih =>
    refine (ih (fun x hx => h x (List.mem_cons_of_mem _ hx)) (s.wr f 0)).trans ?_
    exact State.rd_wr_ne _ _ (Nat.ne_of_lt (h f List.mem_cons_self))

/-- What lies below the words of S5 stays. -/
theorem s5Zeroed_below {g : Fld} (h : g.key < 32 * 0x21040) (n : Nat) (s : State) : (s5Zeroed n s).rd g = s.rd g := by
  refine State.each_invariant (P := fun u => u.rd g = s.rd g) (f := fun i s => putS5Word i 0 s) (fun i u hu => ?_) (List.range n) s rfl
  rw [putS5Word_zero, each_wr_below (fun f hf => Nat.lt_of_lt_of_le h (s5Fields_above hf)), hu]

theorem s5Zeroed_edw (n : Nat) (s : State) : (s5Zeroed n s).edw = s.edw :=
  State.each_inv (fun s => s.edw) (f := fun i s => putS5Word i 0 s) _ (fun i u => (putS5Word_keeps ..).same .edw (by decide)) s

theorem edwEmpty_does (s : State) : (edwEmpty s).edw = { s.edw with chan := [], cfg := false } ∧
    ∀ f, (edwEmpty s).rd f = (s5Zeroed 65 s).rd f := by
  obtain ⟨u, hu⟩ : ∃ u, s5Zeroed 65 s = u := ⟨_, rfl⟩
  have hempty : edwEmpty s = { u with edw := { u.edw with chan := [], cfg := false } } := by
    rw [← hu]
    unfold edwEmpty s5Zeroed
    rfl
  rw [hempty, hu, ← s5Zeroed_edw 65 s, hu]
  exact ⟨rfl, fun f => rfl⟩

section
variable {r : SealRec} {s : State}

/-- A state that has classed its slots: a whole record that fails its MAC leaves its mark. -/
def macMarked (s u : State) : State := if macFails s then u.raise Reg.EDW_TAMPER_RECMAC else u

theorem macMarked_keeps (s u : State) : Keeps [.regs] u (macMarked s u) := Keeps.ite (State.raise_keeps ..) Keeps.refl

theorem macMarked_marks (h : macFails s = true) (u : State) : (macMarked s u).rd Reg.EDW_TAMPER_RECMAC = 1 := by
  unfold macMarked
  rw [if_pos h]
  exact State.rd_wr_same ..

/-- Without a valid record, and without a cut one, the partition starts empty. -/
theorem edwRestore_empties (hcut : (s.edw.sectors.any fun e => e.2.any (·.isNone)) = false) (hnone : newestSeal s = none) :
    ∃ u, Keeps [.out] { s with edw := { s.edw with scan := false, meters := [] } } u ∧ edwRestore s = edwEmpty (macMarked s u) := by
  obtain ⟨u, hu⟩ : ∃ u, readSlots { s with edw := { s.edw with scan := false, meters := [] } } = u := ⟨_, rfl⟩
  have hkeep : Keeps [.out] { s with edw := { s.edw with scan := false, meters := [] } } u := hu ▸ readSlots_keeps ..
  have hotp : u.img.otp = s.img.otp := (congrArg ImgS.otp (hkeep.same .img (by decide) :) :)
  have hsectors : u.edw.sectors = s.edw.sectors := (congrArg EdwS.sectors (hkeep.same .edw (by decide) :) :)
  have hmarked := macMarked_keeps s u
  have hnewest : newestSeal (macMarked s u) = none := by
    refine (newestSeal_congr ?_ ?_).trans hnone
    · exact (congrArg ImgS.otp (hmarked.same .img (by decide) :)).trans hotp
    · exact (congrArg EdwS.sectors (hmarked.same .edw (by decide) :)).trans hsectors
  refine ⟨u, hkeep, ?_⟩
  unfold edwRestore
  dsimp only
  rw [hu, hsectors, hcut, macFails_congr hotp hsectors]
  simp only [Bool.false_and, Bool.or_false, Bool.false_eq_true, if_false]
  unfold macMarked at hnewest ⊢
  rw [hnewest]

theorem edwRestoreDone_eq (hscan : s.edw.scan = true) (hr : edwRuns s = true) (hphase : s.su.phase ≠ 3) (hclk : clocked s = true) :
    exec .edwRestoreDone s = .next { edwRestore s.bare with pending := s.pending } := by
  refine runClk_eq hclk ?_
  have hsu : (edwRestore s.bare).su = s.su := (edwRestore_keeps s.bare).same .su (by decide)
  have hgo : (s.bare.edw.scan && edwRuns s.bare) = true := by
    show (s.edw.scan && edwRuns s) = true
    rw [hscan, hr]
    rfl
  refine (if_pos hgo).trans (if_neg ?_)
  rw [hsu]
  exact fun h => hphase h.1

/-- The partition starts unsealed, its values and its configuration at 0. -/
theorem edwRestoreDone_empties (hclk : clocked s = true) (hr : edwRuns s = true) (hscan : s.edw.scan = true) (hphase : s.su.phase ≠ 3)
    (hcut : (s.edw.sectors.any fun e => e.2.any (·.isNone)) = false) (hnone : newestSeal s = none) :
    ∃ t, exec .edwRestoreDone s = .next t ∧ t.edw = { s.edw with scan := false, meters := [], chan := [], cfg := false } ∧
      (∀ i, i < 65 → s5Word t i = 0) ∧ (macFails s = true → t.rd Reg.EDW_TAMPER_RECMAC = 1) ∧ Keeps [.out, .regs, .edw] s t := by
  obtain ⟨u, hkeep, hempty⟩ := edwRestore_empties (s := s.bare) hcut hnone
  have hrun := edwRestoreDone_eq hscan hr hphase hclk
  rw [hempty] at hrun
  have hmarked := macMarked_keeps s.bare u
  have hedw : (macMarked s.bare u).edw = { s.edw with scan := false, meters := [] } :=
    (hmarked.same .edw (by decide)).trans (hkeep.same .edw (by decide) :)
  have hfirst : Keeps [.out, .regs, .edw] s.bare { s.bare with edw := { s.edw with scan := false, meters := [] } } := Keeps.edw (by decide) Keeps.refl
  have hall : Keeps [.out, .regs, .edw] s.bare (edwEmpty (macMarked s.bare u)) :=
    hfirst.trans ((hkeep.mono (by decide)).trans ((hmarked.mono (by decide)).trans ((edwEmpty_keeps _).mono (by decide))))
  obtain ⟨hleft, hrd⟩ := edwEmpty_does (macMarked s.bare u)
  revert hrun hleft hrd hall
  generalize edwEmpty (macMarked s.bare u) = v
  intro hrun hall hleft hrd
  refine ⟨_, hrun, ?_, fun i hi => ?_, fun hf => ?_, hall.bare (by decide)⟩
  · exact hleft.trans (by rw [hedw])
  · exact s5Word_blank (s := v) fun f hf => (hrd f).trans (s5Zeroed_zero hi hf _)
  · refine (hrd Reg.EDW_TAMPER_RECMAC).trans ?_
    rw [s5Zeroed_below (by decide)]
    exact macMarked_marks (s := s.bare) hf u

/-- The newest valid record is restored. -/
theorem edwRestoreDone_restores (hclk : clocked s = true) (hr : edwRuns s = true) (hscan : s.edw.scan = true) (hphase : s.su.phase ≠ 3)
    (hcut : (s.edw.sectors.any fun e => e.2.any (·.isNone)) = false) (hnewest : newestSeal s = some r) :
    ∃ t, exec .edwRestoreDone s = .next t ∧ t.edw.scan = false ∧ t.edw.sealed_ = true ∧ t.edw.cfg = true ∧
      t.edw.cnt = r.cnt ∧ t.edw.lastCap.isSome = true ∧ Keeps [.out, .fresh, .regs, .edw] s t := by
  have hdoes := edwRestore_does r s.bare hcut hnewest
  have hall := edwRestore_keeps s.bare
  have hrun := edwRestoreDone_eq hscan hr hphase hclk
  revert hrun hall hdoes
  generalize edwRestore s.bare = u
  rintro ⟨hscans, hseals, hcfg, hcnt, hcap⟩ hall hrun
  exact ⟨_, hrun, hscans, hseals, hcfg, hcnt, hcap, hall.bare (by decide)⟩

end

end Sys2Proof.Machine

namespace Sys2Proof.Machine

set_option Elab.async false

-- the host gate's mirrors (R446)

section
variable {p : BitVec 128} {s : State}

/-- The mirror of a channel takes its value and count, and its METER_ACK is ready. -/
theorem meter_mirrors (h : barReady .host s) (hon : hostEdwOn s = true) : exec (.meter p) s = .next { s with out := [], gate := { s.gate with
    bar := barWith 0x0F (pay (pf p 0 6 + 2 ^ 32 * (p.extractLsb' 32 32 : BitVec 32).toNat)) (barTook .host 0x0E s)
    mirror := tset (0, 0) s.gate.mirror (pf p 0 6) (p.extractLsb' 64 64, p.extractLsb' 32 32) } } := by
  obtain ⟨q, hq⟩ : ∃ q, pay (pf p 0 6 + 2 ^ 32 * (p.extractLsb' 32 32 : BitVec 32).toNat) = q := ⟨_, rfl⟩
  obtain ⟨m, hm⟩ : ∃ m, tset (0, 0) s.gate.mirror (pf p 0 6) (p.extractLsb' 64 64, p.extractLsb' 32 32) = m := ⟨_, rfl⟩
  have hrun : exec (.meter p) s = .next { emptied .host (setBar .host (barWith 0x0F q (barHeard .host 0x0E s))
      { hearing .host 0x0E s with gate := { (hearing .host 0x0E s).gate with mirror := m } }) with pending := s.pending } := by
    refine gateFrame_runs h ?_ rfl
    rw [← hq, ← hm]
    refine (if_neg (by rw [Bool.not_eq_true', Bool.not_eq_false]; exact hon)).trans ?_
    exact barQueue_eq .host 0x0F _ { hearing .host 0x0E s with gate := { (hearing .host 0x0E s).gate with mirror := _ } } h.1
  rw [hrun, hq, hm]
  rfl

/-- A host gate without its Edelweiss domain takes the frame, and no more. -/
theorem mirrors_off (h : barReady .host s) (hoff : hostEdwOn s = false) :
    exec (.meter p) s = .next { s with out := [], gate := { s.gate with bar := barTook .host 0x0E s } } ∧
      exec (.sealRecord p) s = .next { s with out := [], gate := { s.gate with bar := barTook .host 0x10 s } } := by
  have hnot : (!hostEdwOn s) = true := by rw [hoff]; rfl
  exact ⟨gateFrame_runs (u := hearing .host 0x0E s) h (if_pos hnot) rfl, gateFrame_runs (u := hearing .host 0x10 s) h (if_pos hnot) rfl⟩

-- SEAL

/-- The counter that the mirror shows. -/
def mirrorCount (s : State) : Nat := s.rd Reg.HSEAL_LO + 2 ^ 32 * s.rd Reg.HSEAL_HI

/-- A counter that does not rise leaves its mark. -/
def rollMarked (p : BitVec 128) (s : State) : State :=
  if s.flag Reg.HEDW_CFG_SEALCHK && s.gate.sealSeen && decide (pf p 0 64 ≤ mirrorCount s) then s.raise Reg.HEDW_STAT_ROLL else s

/-- The registers of the mirror take a seal. -/
def mirrorTakes (p : BitVec 128) (s : State) : State :=
  ((((s.wr Reg.HSEAL_LO (pf p 0 32)).wr Reg.HSEAL_HI (pf p 32 32)).wr Reg.HSEAL_MAC_LO (pf p 64 32)).wr Reg.HSEAL_MAC_HI (pf p 96 32)).raise
    Reg.HEDW_STAT_SEALNEW

theorem rollMarked_keeps (p : BitVec 128) (s : State) : Keeps [.regs] s (rollMarked p s) := Keeps.ite (State.raise_keeps ..) Keeps.refl

theorem mirrorTakes_keeps (p : BitVec 128) (s : State) : Keeps [.regs] s (mirrorTakes p s) :=
  (State.wr_keeps ..).trans ((State.wr_keeps ..).trans ((State.wr_keeps ..).trans ((State.wr_keeps ..).trans (State.raise_keeps ..))))

theorem rollMarked_marks (hc : s.flag Reg.HEDW_CFG_SEALCHK = true) (hs : s.gate.sealSeen = true) (hle : pf p 0 64 ≤ mirrorCount s) :
    (rollMarked p s).rd Reg.HEDW_STAT_ROLL = 1 := by
  unfold rollMarked
  rw [hc, hs, decide_eq_true hle, if_pos (by decide)]
  exact State.rd_wr_same ..

theorem pf_word (p : BitVec 128) (lo : Nat) : pf p lo 32 % 2 ^ 32 = pf p lo 32 := Nat.mod_eq_of_lt (p.extractLsb' lo 32).isLt

theorem mirrorTakes_rd (p : BitVec 128) (s : State) : (mirrorTakes p s).rd Reg.HSEAL_LO = pf p 0 32 ∧ (mirrorTakes p s).rd Reg.HSEAL_HI = pf p 32 32 ∧
    (mirrorTakes p s).rd Reg.HSEAL_MAC_LO = pf p 64 32 ∧ (mirrorTakes p s).rd Reg.HSEAL_MAC_HI = pf p 96 32 ∧
    (mirrorTakes p s).rd Reg.HEDW_STAT_SEALNEW = 1 ∧ (mirrorTakes p s).rd Reg.HEDW_STAT_ROLL = s.rd Reg.HEDW_STAT_ROLL := by
  unfold mirrorTakes State.raise
  refine ⟨?_, ?_, ?_, ?_, State.rd_wr_same .., ?_⟩
  · rw [State.rd_wr_ne _ _ (by decide), State.rd_wr_ne _ _ (by decide), State.rd_wr_ne _ _ (by decide), State.rd_wr_ne _ _ (by decide),
      State.rd_wr_same]
    exact pf_word ..
  · rw [State.rd_wr_ne _ _ (by decide), State.rd_wr_ne _ _ (by decide), State.rd_wr_ne _ _ (by decide), State.rd_wr_same]
    exact pf_word ..
  · rw [State.rd_wr_ne _ _ (by decide), State.rd_wr_ne _ _ (by decide), State.rd_wr_same]
    exact pf_word ..
  · rw [State.rd_wr_ne _ _ (by decide), State.rd_wr_same]
    exact pf_word ..
  · rw [State.rd_wr_ne _ _ (by decide), State.rd_wr_ne _ _ (by decide), State.rd_wr_ne _ _ (by decide), State.rd_wr_ne _ _ (by decide),
      State.rd_wr_ne _ _ (by decide)]

/-- A SEAL is mirrored, and one whose counter does not rise is marked. -/
theorem sealRecord_mirrors (h : barReady .host s) (hon : hostEdwOn s = true) :
    ∃ t, exec (.sealRecord p) s = .next t ∧ t.gate = { s.gate with bar := barTook .host 0x10 s, sealSeen := true } ∧
      t.rd Reg.HSEAL_LO = pf p 0 32 ∧ t.rd Reg.HSEAL_HI = pf p 32 32 ∧ t.rd Reg.HSEAL_MAC_LO = pf p 64 32 ∧
      t.rd Reg.HSEAL_MAC_HI = pf p 96 32 ∧ t.rd Reg.HEDW_STAT_SEALNEW = 1 ∧
      (s.flag Reg.HEDW_CFG_SEALCHK = true → s.gate.sealSeen = true → pf p 0 64 ≤ s.rd Reg.HSEAL_LO + 2 ^ 32 * s.rd Reg.HSEAL_HI →
        t.rd Reg.HEDW_STAT_ROLL = 1) ∧ Keeps [.out, .regs, .gate] s t := by
  obtain ⟨v, hv⟩ : ∃ v, mirrorTakes p (rollMarked p (hearing .host 0x10 s)) = v := ⟨_, rfl⟩
  have hkeep : Keeps [.regs] (hearing .host 0x10 s) v := hv ▸ (rollMarked_keeps ..).trans (mirrorTakes_keeps ..)
  have hgate : v.gate = { s.gate with bar := barHeard .host 0x10 s } := hkeep.same .gate (by decide)
  have hbody : exec (.sealRecord p) s = .next { emptied .host { v with gate := { v.gate with sealSeen := true } } with pending := s.pending } := by
    refine gateFrame_runs h ?_ (by show v.gate.held = s.gate.held; rw [hgate])
    refine (if_neg (by rw [Bool.not_eq_true', Bool.not_eq_false]; exact hon)).trans ?_
    rw [← hv]
    rfl
  have hall : Keeps [.out, .regs, .gate] s.bare (emptied .host { v with gate := { v.gate with sealSeen := true } }) := by
    have hhears : Keeps [.out, .regs, .gate] s.bare (hearing .host 0x10 s) := Keeps.gate (by decide) Keeps.refl
    exact Keeps.gate (by decide) (Keeps.gate (by decide) (hhears.trans (hkeep.mono (by decide))))
  obtain ⟨hlo, hhi, hmacLo, hmacHi, hnew, hroll⟩ := hv ▸ mirrorTakes_rd p (rollMarked p (hearing .host 0x10 s))
  refine ⟨_, hbody, ?_, hlo, hhi, hmacLo, hmacHi, hnew, fun hchk hseen hle => ?_, hall.bare (by decide)⟩
  · show { v.gate with bar := { v.gate.bar with freed := v.gate.bar.freed + v.gate.bar.rxUsed, rxUsed := 0 }, sealSeen := true } = _
    rw [hgate]
    rfl
  · exact hroll.trans (rollMarked_marks (s := hearing .host 0x10 s) hchk hseen hle)

end

/-- Settles O42: what starts and holds back a seal, its way to flash and back, its restore, and the mirrors of the host gate. -/
theorem seals : Obligations.Seals := by
  refine ⟨fun s hr hsealed hidle hgap => ⟨fun hn hpast => ?_, fun hheld => ?_, fun p h ha => sealReq_starts h hr hsealed hidle hgap ha⟩,
    fun p s hr hsealed hwait h ha => sealReq_held h hr hsealed hwait ha,
    fun r s hstep hrec hr hp hroom => sealMacDone_programs hstep hrec hr hp hroom,
    fun r retry s hstep hrec hmac ht => sealProgramDone_seals hstep hrec hmac ht,
    fun r retry s hstep hrec hmac => ⟨?_, ?_⟩,
    fun p s h hr => sealReq_waits h hr,
    fun s hclk hr hscan hphase hcut => ⟨edwRestoreDone_empties hclk hr hscan hphase hcut, fun r => edwRestoreDone_restores hclk hr hscan hphase hcut⟩,
    fun p s h => ⟨meter_mirrors h, mirrors_off h, sealRecord_mirrors h⟩⟩
  · rw [sealInterval_eq hr hn hpast]
    exact triggered_starts hsealed hidle hgap
  · rw [sealGapExpire_eq hr hheld hgap]
    exact triggered_starts hsealed hidle hgap
  · rintro rfl
    exact sealProgramDone_retries hstep hrec hmac
  · rintro rfl ht
    exact sealProgramDone_abandons hstep hrec hmac ht

end Sys2Proof.Machine
